-- ==== Sys2Proof/Word.lean ====
section
/-! DEFINITION. The words of the GV24: bytes, byte strings and the sparse maps that the state is made of. -/

namespace Sys2Proof

/-- A byte (R4). -/
abbrev Byte := BitVec 8

/-- A byte string, lowest address first (R4). -/
abbrev Bytes := List Byte

/-- A sparse table: keys strictly rising, at most one value a key (`Machine/Map.lean` keeps the form). -/
abbrev NMap (α : Type) := List (Nat × α)

/-- A port P0–P23. -/
abbrev PortN := Fin 24

/-- A lane L0–L7 of a port. -/
abbrev LaneN := Fin 8

/-- An input or output of the auctioneer: 0–23 the ports, 24 the resident BEP (R124). -/
abbrev InputN := Fin 25

/-- A core 0–63 (R247). -/
abbrev CoreN := Fin 64

/-- A context slot 0–3 of a core (R252). -/
abbrev SlotN := Fin 4

/-- A tenant 0–15. -/
abbrev TenantN := Fin 16

end Sys2Proof
end

