-- ==== Sys2Proof/Syntax.lean ====
section
/-!
DEFINITION. The commands of the GV24: one constructor of `Instr` for each row of spec/opcode_table.json, in the
table's order, with the operands that reach the block from outside (a port, a received cell, a written value).
The table gives its rows no fields, so the operands are read from each row's rule (assumption 1).
-/

namespace Sys2Proof

/-- Where a dictionary write comes from: SOURCE of R404. -/
inductive Route where
  | can | mailbox | secured | restore | rtd
  deriving DecidableEq, Repr

/-- A cell: the header fields of R95 and the 256 payload bytes (bytes not listed are 0, R94). -/
structure Cell where
  addr : BitVec 64 := 0
  src : BitVec 16 := 0
  vc : BitVec 4 := 0
  ver : BitVec 4 := 1
  scope : BitVec 3 := 0
  op : BitVec 5 := 0
  tenant : BitVec 4 := 0
  sub : BitVec 4 := 0
  hops : BitVec 4 := 0
  nonmin : Bool := false
  cmark : BitVec 2 := 0
  epoch : BitVec 1 := 0
  via : BitVec 8 := 0
  len : BitVec 8 := 0
  tag : BitVec 16 := 0
  tally : BitVec 24 := 0
  pad : Bool := false
  last : Bool := false
  window : BitVec 16 := 0
  chunk : BitVec 28 := 0
  cell : BitVec 4 := 0
  aux : BitVec 32 := 0
  payload : Bytes := []
  deriving DecidableEq, Repr

/-- The 36 bytes of a received slot block (R94, R97): what a cell slot or an idle slot carries. -/
structure Block where
  header : BitVec 256 := 0
  payload : Bytes := []
  sideband : BitVec 128
  integrity : BitVec 128
  /-- a code violation or an erased symbol stood in the slot (R69) -/
  damaged : Bool := false
  /-- K, the superframe the slot lies in, and the slot within it (R436, R437) -/
  superframe : Nat := 0
  slot : Nat := 0
  deriving DecidableEq, Repr

/-- A time set (R38). -/
structure TimeSet where
  count : BitVec 64
  txLate : BitVec 16
  phi : BitVec 16
  echoTx : BitVec 32
  echoRx : BitVec 32
  source : BitVec 16
  status : BitVec 8
  round : BitVec 8
  check : BitVec 32
  deriving DecidableEq, Repr

/-- A training set (R70). -/
structure TrainingSet where
  lpvMin : BitVec 8
  lpvMax : BitVec 8
  kind : BitVec 8
  flags : BitVec 8
  coord : BitVec 16
  assign : BitVec 16
  rxGood : BitVec 8
  width : BitVec 8
  nextSeq : BitVec 16
  bepRev : BitVec 8
  rsv : BitVec 24
  idDigest : BitVec 128
  check : BitVec 32
  deriving DecidableEq, Repr

/-- The operations of a command at the attachment interface (R191). -/
inductive BepOp where
  | ld | ldv | lda | st | stm | stf | stl | at
  deriving DecidableEq, Repr

/-- A memory command as the attachment interface gives it (R182, R190, R191): it names a PASID and a virtual address. -/
structure BepCommand where
  op : BepOp
  pasid : BitVec 20
  addr : BitVec 64
  /-- the tenant of the issuing context; none where the context's tenant is not set (R190) -/
  tenant : Option (BitVec 4)
  len : BitVec 8 := 1
  scope : BitVec 3 := 0
  sub : BitVec 4 := 0
  aux : BitVec 32 := 0
  payload : Bytes := []
  /-- the command's number at the attachment interface, named by its completion -/
  id : Nat := 0
  deriving DecidableEq, Repr

/-- One stream: a core, a context slot and an engine of the core (R247, R253). -/
structure StreamId where
  core : CoreN
  slot : SlotN
  eng : Fin 4
  deriving DecidableEq, Repr

/-- The fields of an instruction word below its CLASS and OP (R263). -/
structure IFields where
  ty : BitVec 3 := 0
  pred : BitVec 3 := 0
  pnot : Bool := false
  d : BitVec 5 := 0
  a : BitVec 5 := 0
  b : BitVec 5 := 0
  c : BitVec 5 := 0
  imm : BitVec 26 := 0
  deriving DecidableEq, Repr

/-- The message KEY_OFFER of R434, its fragments put together. -/
structure KeyOffer where
  publicKey : Bytes
  y : Bytes
  r : Bytes
  firmware : BitVec 512
  deriving DecidableEq, Repr

/-- A VIEW (R469). -/
structure ViewCell where
  origin : BitVec 16
  flags : BitVec 8
  relays : BitVec 8
  epoch : BitVec 32
  round : BitVec 32
  check : BitVec 64
  step : BitVec 8
  deriving DecidableEq, Repr

/-- What the requester of a KEY_EXCHANGE shows (R424). -/
inductive Requester where
  /-- no mutual authentication -/
  | anonymous
  /-- a chain whose root has this SHA-512 -/
  | chain (rootDigest : BitVec 512)
  /-- a single certificate whose public key has this SHA-512 -/
  | single (keyDigest : BitVec 512)
  deriving DecidableEq, Repr

/-- A mailbox request (R376). -/
structure MbxRequest where
  op : BitVec 8
  sub : BitVec 8
  index : BitVec 16
  len : BitVec 16
  flags : BitVec 8
  offset : BitVec 32
  reqSeq : BitVec 32
  data : Bytes
  deriving DecidableEq, Repr

/-- An ATS completion as the function receives it (R342). -/
inductive AtsResult where
  /-- status UR or CA -/
  | failed
  /-- a translation: U, R and W bits, the size as log2 of bytes, the translated address -/
  | ok (u r w : Bool) (log2 : Nat) (addr : BitVec 64)
  deriving DecidableEq, Repr

/-- How a GDDR7 burst ended on the bus and in the check symbols (R362). -/
inductive BurstResult where
  | good | corrected | uncorrectable | readCrc | writeCrc | eccReport
  deriving DecidableEq, Repr

/-- A bit-sliced finding of a scrub or a read in an SRAM structure (R446, R447). -/
inductive SramStructure where
  | stallBuffer (input : PortN) (index : Nat)
  | replyStore (index : Nat)
  | descriptor (input : PortN) (index : Nat)
  | combining (entry : Nat)
  | joiner (entry member : Nat)
  | replay (port : PortN)
  | tally (src : BitVec 16)
  | release (line : Nat)
  | directoryBlock (block : Nat)
  | translation (set way : Nat)
  | coreCache (core : CoreN) (line : Nat)
  | scratchpad (core : CoreN) (slot : SlotN)
  | registerSet (core : CoreN) (slot : SlotN)
  | instructionCache (core : CoreN)
  | routeBank (table : Fin 3) (index : Nat)
  | calendarBank (output : InputN) (offset : Nat)
  | fabricTime
  | muster
  deriving DecidableEq, Repr

/-- What the protection code says of the word read (R446). -/
structure SramFinding where
  place : SramStructure
  uncorrectable : Bool
  deriving DecidableEq, Repr

/-- The commands, in the table's order. -/
inductive Instr where
  | entryWrite (src : Route) (index : BitVec 16) (sub : BitVec 8) (data : Bytes)
  | registerWrite (offset : Nat) (data : List (Option Byte))
  | roleWrite (src : Route) (port : PortN) (v : BitVec 8)
  | mediumWrite (src : Route) (port : PortN) (v : BitVec 8)
  | creditWrite (src : Route) (port : PortN) (vc : Fin 12) (v : BitVec 16)
  | tenantShareWrite (src : Route) (tenant : TenantN) (v : BitVec 8)
  | coordinateCommit (src : Route) (v : BitVec 8)
  | isolationModeWrite (src : Route) (v : BitVec 8)
  | roundStart
  | timeSetReceive (port : PortN) (set : TimeSet) (arrival : Nat) (damaged : Bool)
  | trimDecision
  | trimSlot
  | trimNoticeReceive (port : PortN) (low : BitVec 16) (kind comp : BitVec 8)
  | suspectTimeout (port : PortN)
  | holdoverAllowanceEnd
  | roundLengthWrite (src : Route) (v : BitVec 32)
  | roundArmWrite (src : Route) (v : BitVec 64)
  | roundChange
  | timeRoleWrite (src : Route) (v : BitVec 8)
  | timeSourceWrite (src : Route) (v : BitVec 8)
  | beatrefEdge (stamp : Nat)
  | beatrefMissing
  | losAssert (port : PortN) (lane : LaneN)
  | losClear (port : PortN) (lane : LaneN)
  | lolAssert (port : PortN) (lane : LaneN)
  | cdrLock (port : PortN) (lanes : BitVec 8)
  | lockTimeout (port : PortN)
  | slipTimeout (port : PortN)
  | slipWindowDone (port : PortN) (lane : LaneN) (hits : Nat)
  | bitSlip (src : Route) (port : PortN) (lane : LaneN) (v : BitVec 8)
  | alignmentDone (src : Route) (port : PortN) (v : BitVec 8)
  | codewordAligned (port : PortN) (lanes : BitVec 8)
  | fecAlignTimeout (port : PortN)
  | deskewDone (port : PortN) (lanes : BitVec 8)
  | deskewTimeout (port : PortN)
  | trainingSetReceive (port : PortN) (set : TrainingSet)
  | exchangeTimeout (port : PortN)
  | activeEntry (port : PortN)
  | uncorrectableThreshold (port : PortN) (lane : LaneN)
  | retrainRequest (src : Route) (port : PortN) (v : BitVec 8)
  | elasticFault (port : PortN)
  | skipSetReceive (port : PortN) (fill : Nat)
  | holdExpiry (port : PortN)
  | cellReceive (port : PortN) (block : Block)
  | idleSlotReceive (port : PortN) (block : Block)
  | nakReceive (port : PortN) (ack : BitVec 12)
  | ackTimeout (port : PortN)
  | cellArrival (input : InputN)
  | combineTimeout (entry : Nat)
  | auctionTick
  | ledgerFaultLimit
  | vc11AgeDrop (input : InputN) (output : InputN)
  | sumpAudit
  | stallScrub (findings : List SramFinding)
  | structureScrub (findings : List SramFinding)
  | idlePortScrub (findings : List SramFinding)
  | telemetryCapture
  | routeArmWrite (src : Route) (v : BitVec 64)
  | routeBankSwitch
  | epochNoticeRepeat (port : PortN)
  | routeBankDrainEnd
  | routeBankCopy (src : Route) (v : BitVec 8)
  | rtdRouteEntries (port : PortN) (cell : Cell)
  | epochNoticeReceive (cell : Cell)
  | timSend (port : PortN)
  | timReceive (port : PortN) (cell : Cell)
  | requestSend (cmd : BepCommand)
  | ld (req : Cell)
  | ldv (req : Cell)
  | lda (req : Cell)
  | st (req : Cell)
  | stm (req : Cell)
  | stf (req : Cell)
  | stl (req : Cell)
  | atIntegerAdd (req : Cell)
  | atExactFloatAdd (req : Cell)
  | atMin (req : Cell)
  | atMax (req : Cell)
  | atSwap (req : Cell)
  | atCompareAndSwap (req : Cell)
  | atAnd (req : Cell)
  | atOr (req : Cell)
  | atXor (req : Cell)
  | fen (req : Cell)
  | ackRunSend (source : BitVec 16)
  | holdTimeout (source : BitVec 16)
  | responseReceive (resp : Cell)
  | requestTimeout (tag : BitVec 16)
  | busyResend (tag : BitVec 16)
  | refusalFenceSend (dest : BitVec 16)
  | sourceFence (id : Nat)
  | sourceFenceComplete (id : Nat)
  | exactAddRegionWrite (src : Route) (region : Fin 16) (v : BitVec 64)
  | reduceStore (id : Nat) (tenant : Option (BitVec 4)) (permC : Bool) (window : BitVec 16) (step : BitVec 32)
      (offset : Nat) (lines : Bytes)
  | epWindowBind (id : Nat) (pasid : BitVec 20) (descriptor : Bytes) (resultBase : BitVec 64)
  | epCalendarLoad (id : Nat) (round : Nat) (records : List (BitVec 128)) (arm : BitVec 64)
  | epVc9Slot (offset : Nat)
  | epVc10Receive (cell : Cell)
  | stepFence (id : Nat) (window : BitVec 16)
  | epCommit (window : BitVec 16)
  | fillRspReceive (tag : BitVec 12) (status : BitVec 2) (ppage : BitVec 52) (size : BitVec 2) (perms : BitVec 4)
  | fillRetry (tag : BitVec 12)
  | invReqReceive (tag : BitVec 12) (pasid : BitVec 20) (base : BitVec 64) (pages : Nat)
  | invDoneSend (tag : BitVec 12)
  | directoryAccess
  | snpReceive (port : PortN) (cell : Cell)
  | snrReceive (cell : Cell)
  | forwardTimeout (line : Nat)
  | probeTimeout (tag : BitVec 16)
  | lossWalkStep
  | directoryEnable (src : Route) (v : BitVec 8)
  | directoryDisable (src : Route) (v : BitVec 8)
  | recall (src : Route) (v : BitVec 8)
  | calendarBeginLoad (src : Route) (v : BitVec 8)
  | calendarDataWrite (src : Route) (data : Bytes)
  | calendarSeal (src : Route) (v : BitVec 8)
  | calendarArm (src : Route) (v : BitVec 64)
  | calendarBankSwitch
  | contextCreate (core : CoreN) (slot : SlotN)
  | contextDestroy (core : CoreN) (slot : SlotN)
  | contextRestart (core : CoreN) (slot : SlotN)
  | contextAbort (core : CoreN) (slot : SlotN)
  | contextAbortDone (core : CoreN) (slot : SlotN)
  | ringProducerWrite (core : CoreN) (slot : SlotN) (v : BitVec 32)
  | ringRun (core : CoreN) (slot : SlotN)
  | ringCopy (core : CoreN) (slot : SlotN)
  | ringWait (core : CoreN) (slot : SlotN)
  | waitPoll (core : CoreN) (slot : SlotN)
  | waitTimeout (core : CoreN) (slot : SlotN)
  | ringNop (core : CoreN) (slot : SlotN)
  | commandEnd (core : CoreN) (slot : SlotN)
  | kernelLoad (src : Route) (v : BitVec 8)
  | kernelLoadDone
  | kernelUnload (src : Route) (v : BitVec 16)
  | intAdd (w : StreamId) (f : IFields)
  | intSub (w : StreamId) (f : IFields)
  | intMullo (w : StreamId) (f : IFields)
  | intAnd (w : StreamId) (f : IFields)
  | intOr (w : StreamId) (f : IFields)
  | intXor (w : StreamId) (f : IFields)
  | intShl (w : StreamId) (f : IFields)
  | intShr (w : StreamId) (f : IFields)
  | intSar (w : StreamId) (f : IFields)
  | intMin (w : StreamId) (f : IFields)
  | intMax (w : StreamId) (f : IFields)
  | intMov (w : StreamId) (f : IFields)
  | intMovi (w : StreamId) (f : IFields)
  | cmpEq (w : StreamId) (f : IFields)
  | cmpNe (w : StreamId) (f : IFields)
  | cmpLt (w : StreamId) (f : IFields)
  | cmpLe (w : StreamId) (f : IFields)
  | cmpSel (w : StreamId) (f : IFields)
  | cvt (w : StreamId) (f : IFields)
  | fma (w : StreamId) (f : IFields)
  | fmul (w : StreamId) (f : IFields)
  | fadd (w : StreamId) (f : IFields)
  | fmin (w : StreamId) (f : IFields)
  | fmax (w : StreamId) (f : IFields)
  | dot8 (w : StreamId) (f : IFields)
  | dot8Mx (w : StreamId) (op : BitVec 6) (f : IFields)
  | accAdd (w : StreamId) (f : IFields)
  | accZero (w : StreamId) (f : IFields)
  | accRound (w : StreamId) (f : IFields)
  | accLoad (w : StreamId) (f : IFields)
  | spmLd (w : StreamId) (f : IFields)
  | spmSt (w : StreamId) (f : IFields)
  | spmLdb (w : StreamId) (f : IFields)
  | spmLdg (w : StreamId) (f : IFields)
  | spmStg (w : StreamId) (f : IFields)
  | memLd (w : StreamId) (f : IFields)
  | memLdg (w : StreamId) (f : IFields)
  | memLdv (w : StreamId) (f : IFields)
  | memLda (w : StreamId) (f : IFields)
  | memSt (w : StreamId) (f : IFields)
  | memStg (w : StreamId) (f : IFields)
  | memStv (w : StreamId) (f : IFields)
  | memStl (w : StreamId) (f : IFields)
  | memStf (w : StreamId) (f : IFields)
  | memAt (w : StreamId) (f : IFields)
  | memRel (w : StreamId) (f : IFields)
  | memAcq (w : StreamId) (f : IFields)
  | cpyCopy (w : StreamId) (f : IFields)
  | cpyCwait (w : StreamId) (f : IFields)
  | cpyCtest (w : StreamId) (f : IFields)
  | copyLine (core : CoreN) (slot : SlotN)
  | ctlBr (w : StreamId) (f : IFields)
  | ctlBrp (w : StreamId) (f : IFields)
  | ctlCall (w : StreamId) (f : IFields)
  | ctlRet (w : StreamId) (f : IFields)
  | ctlLoop (w : StreamId) (f : IFields)
  | ctlEnd (w : StreamId) (f : IFields)
  | ctlNop (w : StreamId) (f : IFields)
  | barC (w : StreamId) (f : IFields)
  | barG (w : StreamId) (f : IFields)
  | atsCompletion (pasid : BitVec 20) (vpage : BitVec 52) (result : AtsResult)
  | atsCompletionTimeout (pasid : BitVec 20) (vpage : BitVec 52)
  | pageResponse (pasid : BitVec 20) (index : Nat) (code : BitVec 4)
  | pageRequestTimeout (index : Nat)
  | priReset
  | atsEnableClear
  | priEnableClear
  | atsInvalidate (itag : BitVec 5) (pasid : Option (BitVec 20)) (global : Bool) (base : BitVec 64) (log2 : Nat)
  | invalidateCompletion (itag : BitVec 5)
  | invalidateAll (src : Route) (v : BitVec 8)
  | windowBind (src : Route) (slot : Fin 64) (v : BitVec 8)
  | windowUnbind (src : Route) (slot : Fin 64) (v : BitVec 8)
  | serviceCellFormed (slot : Fin 64) (chunk : BitVec 28) (cell : BitVec 4)
  | shardUpdate (slot : Fin 64) (chunk : BitVec 28)
  | commitTick (slot : Fin 64)
  | shardEnable (src : Route) (slot : Fin 16) (v : BitVec 8)
  | shardDisable (src : Route) (slot : Fin 16) (v : BitVec 8)
  | backgroundSlot (found : List (Fin 128 × BurstResult))
  | channelRetrain (channel : Fin 128) (ok : Bool)
  | bar2Read (offset : Nat) (len : Nat)
  | bar2Write (offset : Nat) (data : List (Option Byte))
  | perstDeassert
  | functionLevelReset
  | mailboxDoorbell (v : BitVec 32)
  | mailboxRead
  | mailboxSegmentWrite
  | irqCauseClear (v : BitVec 64)
  | usdoDownload (index : BitVec 16) (sub : BitVec 8) (data : Bytes)
  | usdoUpload (index : BitVec 16) (sub : BitVec 8)
  | usdoSegmentTimeout
  | nmtStart (node : BitVec 8)
  | nmtStop (node : BitVec 8)
  | nmtEnterPreoperational (node : BitVec 8)
  | nmtResetCommunication (node : BitVec 8)
  | nodeIdWrite (src : Route) (v : BitVec 8)
  | heartbeat
  | tpdo (n : Fin 4)
  | busOff
  | clampReportDiscard (src : Route) (v : BitVec 32)
  | dictionaryStore (src : Route) (v : BitVec 8) (verified : Bool)
  | dictionaryRestore (src : Route) (v : BitVec 8)
  | dictionaryDefaults (src : Route) (v : BitVec 8)
  | dictionaryErase (src : Route) (v : BitVec 8)
  | snapshotTrigger (src : Route) (v : BitVec 8)
  | snapshotPeriod
  | getVersion
  | getCapabilities
  | negotiateAlgorithms (request : Bytes)
  | getDigests
  | getCertificate (slot : BitVec 8) (offset len : BitVec 16)
  | challenge (slot : BitVec 8) (nonce : Bytes)
  | getMeasurements (index : BitVec 8) (signed : Bool) (nonce : Bytes)
  | keyExchange (who : Requester) (exchange : Bytes)
  | finish (session : Nat) (verified : Bool)
  | keyUpdate (session : Nat) (op : BitVec 8)
  | spdmHeartbeat (session : Nat)
  | endSession (session : Nat)
  | vendorDefinedRequest (session : Nat) (req : MbxRequest)
  | spdmUnsupportedRequest (code : BitVec 8)
  | bundleBind (src : Route) (v : BitVec 8)
  | bundleBindDone
  | firmwareImageWrite (session : Nat) (first last : Bool) (segment : Bytes)
  | keyOffer (port : PortN) (msg : KeyOffer)
  | keyProof (port : PortN) (signature : Bytes)
  | keyStart (port : PortN) (n : Bytes) (kStart : Nat)
  | keyAck (port : PortN) (n : Bytes) (kStart : Nat)
  | keyMessageResend (port : PortN)
  | keyHandshakeRetry (port : PortN)
  | keyRenewal (port : PortN)
  | keySwitch (port : PortN)
  | logFlush
  | eventAcknowledge (src : Route) (v : BitVec 32)
  | lanternSample
  | echoReplay
  | echoReplayTimeout
  | portReset (src : Route) (v : BitVec 32)
  | engineReset (src : Route) (v : BitVec 32)
  | coreReset (src : Route) (v : BitVec 32)
  | clusterReset (src : Route) (v : BitVec 32)
  | tenantAbort (src : Route) (v : BitVec 32)
  | crossbarReset (src : Route) (v : BitVec 32)
  | managementReset (src : Route) (v : BitVec 32)
  | watchdogExpiry
  | warmDeviceReset (src : Route) (v : BitVec 32)
  | warmResetPortsDown
  | coldReset (src : Route) (v : BitVec 32)
  | managementBoot
  | musterCensus
  | viewOriginate
  | view (port : PortN) (v : ViewCell)
  | fset (port : PortN) (epoch : BitVec 32) (bitmap : Bytes)
  | loss (port : PortN) (epoch : BitVec 32) (coords : List (BitVec 16))
  | musterWindowEnd
  | musterRecoveryStep
  | readmission
  | pwrWarnAssert
  | pwrWarnRelease
  | powerLoss
  | resetRelease
  | temperatureSample (sensor : Fin 48) (reading : Option Int)
  | voltageSample (monitor : Fin 32) (reading : Nat)
  | opticalEngineRestart
  | throttleEvaluation (power : Option Nat)
  | refclkLoss
  | refclkRestore
  | auxclkLoss
  | jtagBypass
  | jtagIdcode
  | jtagSamplePreload
  | jtagExtest (pins : List Bool)
  | burstSlot (results : List (Fin 128 × BurstResult))
  | warmResetComplete (failed : List (Fin 128))
  | supplyRestore
  | pcieRefclkLoss
  | powerStateChange (d3hot : Bool)
  | doeDiscovery (index : BitVec 8) (dwords : Nat)
  | sessionHeartbeatTimeout (session : Nat)
  | epCalendarSwitch
  | laserFault (port : PortN) (lane : LaneN)
  | snapshotResultReady
  deriving DecidableEq, Repr

end Sys2Proof
end

