-- ==== Sys2Proof/Machine/State.lean ====
section
/-!
DEFINITION. The state of the GV24: every register, buffer, queue, table and pin the spec gives the block, and the
queue of commands that wait. Plain data throughout. The default of each field is its value at reset; where the spec
gives none, the assumption log names it (assumption 2). Dictionary entries that hold a written value, and every
counter, live in ONE sparse store, `Dict.od`, keyed by index and sub-index (R384); read-only entries that describe
state kept elsewhere are computed from that state (Machine/Flags.lean).
-/

namespace Sys2Proof.Machine

open Sys2Proof

/-- Why a step stops with a fault. -/
inductive Fault where
  /-- Raised by no command of this model: the spec gives every command an effect. Safe. -/
  | none (why : String)
  deriving DecidableEq, Repr

/-- Why a command is refused by the model. -/
inductive Refusal where
  /-- Raised by an arm of `exec` whose command has no meaning yet. Safe. -/
  | notModelled (mnemonic : String)
  deriving DecidableEq, Repr

/-! ### Outputs -/

/-- Statuses of a completion at the attachment interface (R182). -/
inductive Status where
  | ok | err (code : Nat) (detail : Nat) | timeout | busy | perm | xlate | broken | tallyFail | late | ahead
  | fencedWithFailures (count : Nat)
  /-- a step fence whose step failed (R318) -/
  | stepFailed (cause : Nat)
  deriving DecidableEq, Repr

/-- What leaves the block: the model's transcript of its outputs (assumption 3). -/
inductive Out where
  /-- a cell on the link of a port, with its SEQ and ACK (R84) -/
  | cell (port seq ack : Nat) (c : Cell)
  /-- a cell that the end-point attached to a port sends on its link (R210) -/
  | endPoint (port : Nat) (c : Cell)
  /-- a sideband NAK on a port with ACK = expected − 1 (R85) -/
  | nak (port : Nat) (ack : Nat)
  | timeSet (port : Nat) (s : TimeSet)
  | trimNotice (port : Nat) (tick : Nat) (hold : Bool)
  | trainingSet (port : Nat) (s : TrainingSet)
  /-- a completion of a command at the attachment interface (R182); `scope` is SCOPE_FAULT of an LDA -/
  | completion (id : Nat) (status : Status) (scope : Bool) (data : Bytes)
  /-- a report of the event class (R182, R197, R318, R222) -/
  | report (what : String) (a b : Nat)
  | fillReq (tag pasid vpage kind : Nat)
  | invDone (tag : Nat)
  | msix (vector : Nat)
  | atsRequest (pasid vpage : Nat)
  | pageRequest (pasid vpage index : Nat) (read write : Bool)
  | invalidateCompletion (itag : Nat)
  | bar2Data (bytes : Bytes)
  | bar2Poisoned (len : Nat)
  | unsupportedRequest
  | aer (what : String)
  /-- a CAN frame: identifier and data (R393) -/
  | can (ident : Nat) (data : Bytes)
  | usdo (status abort : Nat) (data : Bytes)
  /-- an SPDM response: its name and content -/
  | spdm (name : String) (data : Bytes)
  | doe (data : Bytes)
  | jtag (data : Bytes)
  deriving DecidableEq, Repr

/-! ### Dictionary, clamp report, stored images -/

/-- A record of the clamp report (R404). -/
structure ClampRec where
  seq : Nat
  index : Nat
  sub : Nat
  source : Nat
  place : Nat
  kind : Nat
  original : Nat
  clamped : Nat
  ft : Nat
  deriving DecidableEq, Repr

/-- A record of a dictionary image (R410). -/
structure ImageRec where
  key : Nat
  type : Nat
  value : Bytes
  deriving DecidableEq, Repr

/-- A dictionary image in a flash region (R410). -/
structure DictImage where
  major : Nat
  minor : Nat
  seq : Nat
  ft : Nat
  records : List ImageRec
  deriving DecidableEq, Repr

/-- The telemetry snapshot (R408). -/
structure Snapshot where
  /-- a trigger waits for its capture slot -/
  armed : Bool := false
  /-- captured values that wait to be posted, with the FT of their capture -/
  taken : Option (Nat × List Nat) := none
  seq : Nat := 0
  valid : Bool := false
  ft : Nat := 0
  values : List Nat := []
  deriving DecidableEq, Repr

/-- The object dictionary (R384–R417). -/
structure Dict where
  /-- values of entries and counters, keyed by index × 256 + sub-index; an unlisted entry holds its default -/
  od : NMap Nat := []
  /-- values of BLOB and STR entries -/
  blobs : NMap Bytes := []
  clamps : List ClampRec := []
  clampSeq : Nat := 0
  snap : Snapshot := {}
  /-- flash regions A and B (R410); none while a region holds no valid image -/
  imageA : Option DictImage := none
  imageB : Option DictImage := none
  lastResult : Nat := 0
  restoredFrom : Nat := 0
  storeBusy : Bool := false
  restoreBusy : Bool := false
  /-- status and abort code of the last operation carried out (R398) -/
  status : Nat := 0
  abort : Nat := 0
  /-- records the last operation added to the clamp report (CLAMPS of R376) -/
  clampCount : Nat := 0
  deriving DecidableEq, Repr

/-! ### Fabric time -/

/-- Time states (R50). -/
inductive TimeMode where
  | free | acquiring | locked | holdover
  deriving DecidableEq, Repr

/-- A trim (R32). -/
inductive Trim where
  | none | hold | skip
  deriving DecidableEq, Repr

/-- The fabric-time unit (R31–R60). -/
structure Time where
  ft : Nat := 0
  /-- the second cycle of a held trim slot is running (R32) -/
  holdCycle : Bool := false
  mode : TimeMode := .free
  /-- φ in 1/64 tick -/
  phi : Int := 0
  /-- rate of the local clock against reference time, in 0.01 ppm -/
  rate : Int := 0
  /-- the last rate estimates, one a round, newest first, at most 16 (R53) -/
  rates : List Int := []
  parent : Option Nat := none
  /-- own stratum; 15 is none -/
  stratum : Nat := 15
  /-- the lead crier descended from (R36); none before any -/
  source : Option Nat := none
  boundExceeded : Bool := false
  spreadSeen : Bool := false
  beatFault : Bool := false
  /-- round length in force -/
  round : Nat := 65536
  /-- the length armed with OD 4000.05 -/
  armedRound : Nat := 0
  /-- a role or source write waits for the next round start (R51) -/
  rewritten : Bool := false
  /-- role and source in effect (R34): a write takes effect at the next round start -/
  role : Nat := 0
  sourceSel : Nat := 0
  /-- an entry to LOCKED waits for the next round start (R51) -/
  lockPending : Bool := false
  /-- round starts since entry to HOLDOVER (R53) -/
  holdRounds : Nat := 0
  allowanceOver : Bool := false
  /-- consecutive sets with |φ| above 8 ticks (R51) -/
  farSets : Nat := 0
  /-- trims decided and not yet carried out: trim slot and trim (R45) -/
  trims : List (Nat × Trim) := []
  /-- trims the parent announced (R44) -/
  parentTrims : List (Nat × Trim) := []
  /-- last reference sample: own stamp and reference time, both in 1/64 tick (R44) -/
  lastSample : Option (Int × Int) := none
  /-- own trims carried out since that sample, holds positive; COUNT of the parent's set it came from -/
  trimmed : Int := 0
  lastCount : Nat := 0
  /-- the last round start taken -/
  lastRound : Option Nat := none
  /-- BEATREF: where the next edge is expected (1/64 tick), bad and good edges in a row, valid pulses (R56) -/
  beatNext : Option Int := none
  beatBad : Nat := 0
  beatGood : Nat := 0
  beatSeen : Nat := 0
  deriving DecidableEq, Repr

/-- The time state of one port (R61). -/
structure PortTime where
  partnerStratum : Nat := 15
  partnerState : Nat := 0
  partnerSource : Option Nat := none
  /-- partner's round length, from its last valid set -/
  partnerRound : Nat := 65536
  foreign : Bool := false
  roundMismatch : Bool := false
  suspect : Bool := false
  epOut : Bool := false
  /-- low 32 bits of COUNT of the last valid set, and the reference estimate at its arrival (R38) -/
  echo : Option (Nat × Nat) := none
  /-- own departures (t1): COUNT and its reference estimate in 1/64 tick, newest first -/
  departures : List (Nat × Int) := []
  samples : List Int := []
  /-- averaged delay in 1/64 tick -/
  delay : Option Int := none
  offset : Int := 0
  /-- valid sets in a row while suspect (R57) -/
  clean : Nat := 0
  /-- FT at which either end last entered or left FREE or ACQUIRING (R509) -/
  changedAt : Nat := 0
  /-- an error of exactly one tick corrected by the next set counts a lost notice (R46) -/
  expectTick : Option Nat := none
  timStatus : Nat := 0
  timPhi : Int := 0
  deriving DecidableEq, Repr

/-! ### Links -/

/-- Training states (R71). -/
inductive Train where
  | disabled | detect | lock | slip | fecAlign | deskew | exchange | active
  deriving DecidableEq, Repr

/-- Link widths (R70). -/
inductive Width where
  | none | full | lower | upper
  deriving DecidableEq, Repr

/-- One lane (R92, R93). -/
structure Lane where
  done : Bool := false
  offset : Nat := 0
  hits : Nat := 0
  inUse : Bool := false
  failed : Bool := false
  cause : Nat := 0
  deskewed : Bool := false
  fecAligned : Bool := false
  lol : Bool := false
  los : Bool := false
  /-- CDR lock (R71) -/
  locked : Bool := false
  deriving DecidableEq, Repr

/-- Keying of one global link (R434–R445). -/
structure Keying where
  /-- 0, or the refusal or failure that waits for its retry: 4 not on the peer list, 5 firmware, 6 handshake failed -/
  fault : Nat := 0
  /-- key starts completed since entry to ACTIVE -/
  age : Nat := 0
  /-- the link master secret (R435), with the ID_DIGEST it was formed for -/
  ms : Option (Bytes × BitVec 128) := none
  myOffer : Option KeyOffer := none
  theirOffer : Option KeyOffer := none
  /-- the label of the own ephemeral exponent -/
  label : Nat := 0
  proofSent : Bool := false
  /-- key and salt in force for each direction; none while the CRC is in use -/
  txKey : Option Bytes := none
  rxKey : Option Bytes := none
  /-- a key started by this side: N_tx, K_start, and the receiver's N_rx once acknowledged -/
  txPend : Option (Bytes × Nat × Option Bytes) := none
  /-- a key the partner started: derived key and K_start -/
  rxPend : Option (Bytes × Nat) := none
  /-- FT at the entry to ACTIVE, from which superframes are numbered -/
  since : Nat := 0
  /-- messages sent, and resends of the last one -/
  msgNo : Nat := 0
  resends : Nat := 0
  deriving DecidableEq, Repr

/-- One port: training, identity, retry, credits, keying. -/
structure Port where
  train : Train := .disabled
  version : Nat := 0
  width : Width := .none
  /-- the width at the last entry to ACTIVE (R82, R381) -/
  lastWidth : Width := .none
  partnerCoord : BitVec 16 := 0
  partnerKind : Nat := 0
  /-- PORT_STATUS (R16) -/
  status : Nat := 0
  partnerRev : Nat := 0
  idDigest : BitVec 128 := 0
  versionFail : Bool := false
  widthFail : Bool := false
  slipTimeout : Bool := false
  holdExpired : Bool := false
  rttLimited : Bool := false
  elasticFault : Bool := false
  lanes : Vector Lane 8 := Vector.replicate 8 {}
  /-- the partner's last valid training set and how many identical ones have come (R75) -/
  lastSet : Option TrainingSet := none
  sameSets : Nat := 0
  ready : Bool := false
  readySeen : Bool := false
  /-- SEQ_RESET is sent in the training sets (R87) -/
  sendReset : Bool := false
  seenReset : Bool := false
  /-- next SEQ to assign, expected SEQ (R84, R85) -/
  nextSeq : BitVec 12 := 0
  expSeq : BitVec 12 := 0
  /-- the replay buffer, oldest first -/
  replay : List (BitVec 12 × Cell) := []
  /-- an error has been answered by a NAK and the expected SEQ has not come yet (R85) -/
  inError : Bool := false
  /-- replays started at one SEQ without its acknowledgement (R86) -/
  replaySeq : BitVec 12 := 0
  replayCount : Nat := 0
  /-- the retrain hold time runs: the port left ACTIVE and keeps its replay buffer (R87) -/
  holding : Bool := false
  fill : Nat := 16
  /-- cells that passed integrity and sequence and wait for the next steps of R126: buffer and cell -/
  staged : List (Option Nat × Cell) := []
  /-- link-local and probe cells taken from a stall, which their own command handles next (assumption 10) -/
  taken : List Cell := []
  /-- cells discarded by R17, R18, R25 and R26 -/
  dropped : Nat := 0
  /-- cumulative free count C_v, sent count S_v, the latest report of the partner's C_v (R106) -/
  credC : Vector Nat 12 := Vector.replicate 12 0
  credS : Vector Nat 12 := Vector.replicate 12 0
  credR : Vector (Option Nat) 12 := Vector.replicate 12 none
  /-- credits advertised and laid out at the last entry to ACTIVE (R125) -/
  adv : Vector Nat 12 := Vector.replicate 12 0
  /-- an epoch notice outstanding: epoch and switch tick (R119) -/
  notice : Option (Nat × Nat) := none
  key : Keying := {}
  time : PortTime := {}
  /-- the optical engine is off by R498 or R502 -/
  engineOff : Bool := false
  deriving DecidableEq, Repr

/-! ### Switch core -/

/-- One buffer of a stall: bitmap bit, REF, HELD, touched flag, the audit's last finding, arrival tick, cell (R132–R135). -/
structure Buf where
  bit : Bool := false
  ref : Nat := 0
  held : Nat := 0
  touched : Bool := false
  finding : Nat := 0
  arrival : Nat := 0
  vc : Nat := 0
  tenant : Nat := 0
  cell : Option Cell := none
  deriving DecidableEq, Repr

/-- A queue entry: the store and index of its buffer, the cell as it leaves, its arrival tick. -/
structure QEntry where
  store : Nat
  index : Nat
  cell : Cell
  arrival : Nat
  deriving DecidableEq, Repr

/-- A member of a combining entry (R141). -/
structure Joiner where
  src : BitVec 16
  tag : BitVec 16
  cmark : Nat
  operand : Nat
  fetch : Bool
  /-- the virtual output queue that waits until the leader has left (R142), and its input -/
  voq : Nat
  input : Nat
  lost : Bool := false
  deriving DecidableEq, Repr

/-- A combining entry; member 0 is the leader (R140–R144). -/
structure CombEntry where
  port : Nat
  leader : Cell
  members : List Joiner
  isLd : Bool
  departed : Bool := false
  /-- a response has been taken, or a write closed the entry -/
  closed : Bool := false
  deriving DecidableEq, Repr

/-- The stalls, the ledger, the queues and the auctioneer. -/
structure Switch where
  /-- buffers, keyed by stall × 6,400 + index; key 24 × 6,400 + k is reply-store buffer k -/
  bufs : NMap Buf := []
  /-- virtual output queues, keyed by input, output, VC and tenant (R127) -/
  voqs : NMap (List QEntry) := []
  gptr : Vector Nat 25 := Vector.replicate 25 0
  aptr : Vector Nat 25 := Vector.replicate 25 0
  comb : NMap CombEntry := []
  /-- answers that wait for a free reply-store buffer (R144) -/
  replyWait : List (Nat × Cell) := []
  /-- FT of the last ledger faults, newest first (R454) -/
  faultTimes : List Nat := []
  auditPos : Nat := 0
  scrubPos : Nat := 0
  /-- highest allocation of each stall since the last warm device reset -/
  highest : Vector Nat 24 := Vector.replicate 24 0
  deriving DecidableEq, Repr

/-! ### Routes -/

/-- States of a route bank (R115). -/
inductive BankState where
  | idle | armed | active | draining
  deriving DecidableEq, Repr

/-- A route bank (R112). -/
structure RouteBank where
  state : BankState := .idle
  group : NMap (BitVec 64) := []
  member : NMap (BitVec 64) := []
  port : NMap (BitVec 64) := []
  salt : BitVec 32 := 0
  ngroups : Nat := 73
  /-- FT at which the bank left ACTIVE -/
  left : Nat := 0
  deriving DecidableEq, Repr

/-- The route banks and the committed coordinates. -/
structure Routes where
  bank0 : RouteBank := {}
  bank1 : RouteBank := {}
  current : Nat := 1
  /-- lost destinations by the muster's step 1 (R474): GV24s (g.s as bits [15:5]) and end-point coordinates -/
  lostGv : List Nat := []
  lostEp : List Nat := []
  deriving DecidableEq, Repr

/-! ### Memory semantics, the resident BEP -/

/-- An entry of the tally table (R160–R165). -/
structure Tally where
  count : Nat := 0
  flag : Option Cell := none
  behind : List Cell := []
  refusal : Bool := false
  fence : Option Cell := none
  deriving DecidableEq, Repr

/-- An open run of acknowledgements (R155). -/
structure AckRun where
  n : Nat
  last : Cell
  cmark : Nat
  deriving DecidableEq, Repr

/-- An agent as the release table names it: a coordinate, or a local engine (R166, R170). -/
structure Agent where
  coord : BitVec 16
  engine : Option (Nat × Nat × Nat) := none
  deriving DecidableEq, Repr

/-- A release-table entry (R170). -/
structure Release where
  line : Nat
  scope : Nat
  who : Agent
  deriving DecidableEq, Repr

/-- Accumulator states (R293). -/
inductive AccState where
  | finite | posInf | negInf | nan
  deriving DecidableEq, Repr

/-- A flowstone accumulator: N, state, OVF (R292, R293). -/
structure Acc where
  n : Int := 0
  st : AccState := .finite
  ovf : Bool := false
  deriving DecidableEq, Repr

/-- The resident BEP as a destination. -/
structure Bep where
  /-- cells issued to output 24 that have not been served -/
  intake : List Cell := []
  /-- cells of the resident BEP that wait for their arrival steps (R145) -/
  outbox : List Cell := []
  tally : NMap Tally := []
  spareFences : List Cell := []
  runs : NMap AckRun := []
  releases : List Release := []
  /-- accumulators of exact-add regions, keyed by 8 × the word's offset + its width; an unlisted one stands for its
  word (R177) -/
  exact : NMap Acc := []
  deriving DecidableEq, Repr

/-- What a request of the resident BEP serves. -/
inductive Use where
  /-- a command at the attachment interface, named by its number -/
  | agent
  /-- a line for a core's cache, for an engine of a context: context key, engine, cache key -/
  | fill (ctx eng key : Nat)
  /-- an answer that a stream waits for -/
  | value (ctx eng : Nat)
  /-- a write of a core's cache, for the context slots of a mask -/
  | cacheWrite (core mask : Nat)
  /-- a posted write or atomic of a stream -/
  | posted (ctx : Nat)
  /-- a line read or written by the copy at the head of a context's copies -/
  | copyRead (ctx : Nat)
  | copyWrite (ctx : Nat)
  /-- a poll of a WAIT record -/
  | poll (ctx : Nat)
  /-- a write-back of the grotto directory for an entry (R213) -/
  | writeBack (entry : Nat)
  /-- the `FEN` of R158 or R188 -/
  | fence
  deriving DecidableEq, Repr

/-- An outstanding request at the source (R154). -/
structure Req where
  cell : Cell
  cmd : BepCommand
  use : Use
  /-- its place in the order of sending -/
  seq : Nat := 0
  /-- sent after the last decrease of its window (R192) -/
  fresh : Bool := true
  /-- `NAK` BUSY in a row -/
  busy : Nat := 0
  /-- it waits for its resend (R183) -/
  parked : Bool := false
  got : Bytes := []
  deriving DecidableEq, Repr

/-- A command at the source: as given, its fabric address once translated, and what it serves. -/
structure EpCmd where
  cmd : BepCommand
  phys : Option (BitVec 64) := none
  use : Use := .agent
  deriving DecidableEq, Repr

/-- A congestion-table entry (R192, R193). -/
structure CongWin where
  w : Nat
  u : Nat := 0
  deriving DecidableEq, Repr

/-- A source fence (R164). -/
structure SrcFence where
  covered : List Nat
  /-- commands before it that still wait to leave -/
  ahead : Nat := 0
  failures : Nat := 0
  deriving DecidableEq, Repr

/-- A chunk cell in the departure store of a window at the end-point (R194). -/
structure ChunkCell where
  lo : Option Bytes := none
  hi : Option Bytes := none
  passed : Bool := false
  deriving DecidableEq, Repr

/-- A reduce-store that waits (R194). -/
structure WaitRs where
  id : Nat
  step : Nat
  offset : Nat
  lines : Bytes
  /-- the context whose copy sends it (R267); none for a command of the attachment interface -/
  ctx : Option Nat := none
  deriving DecidableEq, Repr

/-- A collective window at the end-point (R194–R196, R318). -/
structure EpWindow where
  desc : Bytes
  /-- the address space of the result area -/
  pasid : Nat := 0
  resultBase : Nat
  fill : Nat
  cells : NMap ChunkCell := []
  waiting : List WaitRs := []
  /-- VC10 cells received in the step, keyed by chunk × 16 + cell; failed chunks; the verdict held -/
  rx : NMap Bytes := []
  badChunks : List Nat := []
  verdict : Option Cell := none
  fences : List Nat := []
  deriving DecidableEq, Repr

/-- A fill outstanding (R197). -/
structure Fill where
  pasid : Nat
  vpage : Nat
  kind : Nat := 0
  retries : Nat := 0
  waiting : List EpCmd := []
  /-- an INV_REQ covering the page was accepted since (R198) -/
  stale : Bool := false
  deriving DecidableEq, Repr

/-- A translation entry of an end-point or of the translation unit (R337). -/
structure XEntry where
  pasid : Nat
  /-- log2 of the page size: 12, 21 or 30 -/
  log2 : Nat
  vpage : Nat
  ppage : Nat
  r : Bool
  w : Bool
  a : Bool
  c : Bool
  tenant : Nat := 0
  deriving DecidableEq, Repr

/-- An end-point bank of the transmit calendar (R194, R243). -/
structure EpBank where
  round : Nat := 0
  /-- records: TICK, ARRIVE, ENTRY -/
  records : List (Nat × Nat × BitVec 64) := []
  deriving DecidableEq, Repr

/-- The end-point as a source. -/
structure Ep where
  epoch : BitVec 1 := 0
  nextSeq : Nat := 0
  nextTag : Nat := 0
  reqs : NMap Req := []
  /-- TAGs of timed-out requests that may not be reused yet (R154) -/
  quarantine : List Nat := []
  /-- commands that wait to leave, in order -/
  waiting : List EpCmd := []
  counts : NMap Nat := []
  /-- place in the order of sending of the last `STF` to a destination -/
  flagSeq : NMap Nat := []
  broken : List Nat := []
  wins : NMap CongWin := []
  /-- destinations that answered HOLD_FULL, with the requests to resend, oldest first; the FEN has been sent (R158) -/
  recover : NMap (List Req × Option Nat) := []
  /-- destinations that a `FEN` of a source fence has gone to and not been answered by (R188) -/
  fenced : List Nat := []
  fences : NMap SrcFence := []
  windows : NMap EpWindow := []
  bankA : EpBank := {}
  bankB : EpBank := {}
  activeBank : Option Nat := none
  armed : Option Nat := none
  fills : NMap Fill := []
  cache : List XEntry := []
  invs : NMap (Nat × Nat × Nat) := []
  deriving DecidableEq, Repr

/-! ### Grotto -/

/-- Directory states (R207). -/
inductive DirState where
  | i | s | em | lost
  deriving DecidableEq, Repr

/-- A directory entry (R216). -/
structure DirEntry where
  st : DirState := .i
  members : BitVec 8 := 0
  deriving DecidableEq, Repr

/-- A busy line (R209, R212): what the directory does on it and what it still waits for. -/
structure Busy where
  /-- the access served, with the input it came by; none for a recall, a repair or a loss -/
  access : Option (Nat × QEntry) := none
  /-- 0 an access, 1 a recall, 2 a block repair, 3 the loss of the owner -/
  kind : Nat := 0
  /-- tags of the probes it waits on -/
  waits : List Nat := []
  /-- the line that a `SNR` returned -/
  data : Option Bytes := none
  /-- the state to set once the probes have answered -/
  next : DirEntry := {}
  /-- AUX bits of the answer: GRANT in [30:29], the scope fault in [31] -/
  grant : Nat := 0
  /-- an answer from data is given; otherwise the access is forwarded -/
  fromData : Bool := false
  /-- data returned is written back; the access is forwarded after the acknowledgement -/
  writeBack : Bool := false
  afterAck : Bool := false
  /-- the final answer has still to leave; a write-back is outstanding under its TAG -/
  owed : Bool := false
  wb : Option Nat := none
  deriving DecidableEq, Repr

/-- An outstanding probe (R210, R213). -/
structure Probe where
  member : Nat
  line : Nat
  kind : Nat
  deriving DecidableEq, Repr

/-- States of a line in a member's cache (R207). -/
inductive MemberState where
  | i | s | e | m
  deriving DecidableEq, Repr

/-- The grotto directory of this GV24. -/
structure Grotto where
  dir : NMap DirEntry := []
  lostMask : BitVec 8 := 0
  /-- loss walks: member and next entry -/
  walks : List (Nat × Nat) := []
  /-- lines that a recall (1), a block repair (2) or the loss of an owner (3) has still to probe: kind, entry, members -/
  work : List (Nat × Nat × Nat) := []
  /-- requests forwarded to owners that an `ACK` answers, in order: source, destination, TAG, entry of a window line -/
  fwd : List (Nat × Nat × Nat × Option Nat) := []
  /-- requests that the directory has taken and not started, oldest first, with their arrival port -/
  pending : List (Nat × QEntry) := []
  lines : NMap Busy := []
  probes : NMap Probe := []
  nextProbe : Nat := 0
  nextWb : Nat := 0
  /-- blocks in the directory cache, most recently used first, with a dirty flag -/
  cache : List (Nat × Bool) := []
  /-- lines held by the caches of members, keyed by member and line, with their bytes (R207) -/
  held : NMap (MemberState × Bytes) := []
  deriving DecidableEq, Repr

/-! ### Calendar -/

/-- Calendar bank states (R239). -/
inductive CalState where
  | empty | loading | sealed | armed | active
  deriving DecidableEq, Repr

/-- A stored slot entry with its planned arrival (R225, R235). -/
structure Slot where
  word : BitVec 64
  arrive : Nat
  deriving DecidableEq, Repr

/-- A calendar bank (R224, R239). -/
structure CalBank where
  state : CalState := .empty
  round : Nat := 0
  imageId : BitVec 64 := 0
  weights : List Nat := [1, 1, 1, 1]
  rot : List Nat := List.replicate 64 16
  /-- outputs whose section is marked half width -/
  half : List Nat := []
  /-- reserved entries, keyed by output × 65,536 + offset -/
  slots : NMap Slot := []
  image : Bytes := []
  deriving DecidableEq, Repr

/-- A slot buffer or a departure-store cell (R227, R309). -/
structure SlotBuf where
  cell : Option Cell := none
  ref : Nat := 0
  /-- the first tick at which it can be issued -/
  ready : Nat := 0
  /-- an entry has sent it -/
  fired : Bool := false
  deriving DecidableEq, Repr

/-- A counter set of the open-slot arbitration (R232). -/
structure DSet where
  d : List Int := [1, 1, 1, 1]
  ptr : Nat := 0
  deriving DecidableEq, Repr

/-- The calendar unit. -/
structure Calendar where
  bank0 : CalBank := {}
  bank1 : CalBank := {}
  loadError : Nat := 0
  roundConflict : Bool := false
  sectRefused : Nat := 0
  /-- image bytes accepted since the last begin write, and the image so far -/
  image : Bytes := []
  stored : Nat := 0
  clamped : Nat := 0
  epRecs : Nat := 0
  /-- slot buffers, keyed by input × 4,096 + SBUF (input 24 is the departure store) -/
  sbufs : NMap SlotBuf := []
  /-- counter sets, keyed by output × 32 + (0–15 a tenant, 16 the common code, 17 all) -/
  dsets : NMap DSet := []
  /-- tenants whose reserved entries a tenant abort has stopped (R463) -/
  stopped : List Nat := []
  deriving DecidableEq, Repr

/-! ### Compute array -/

/-- Why a stream does not issue (R254). -/
inductive Wait where
  | none
  | barC
  | barG (scope : Nat)
  | copy (tag : Nat)
  | xlate
  | fabric
  | sysEnd
  deriving DecidableEq, Repr

/-- A stream (R263). -/
structure Stream where
  live : Bool := false
  pc : Nat := 0
  v : NMap (List (BitVec 32)) := []
  s : NMap (BitVec 64) := []
  p : NMap (BitVec 16) := []
  ret : List Nat := []
  wait : Wait := .none
  /-- the answer to a fabric request of the instruction that waits -/
  got : Option Bytes := none
  deriving DecidableEq, Repr

/-- A copy in progress (R265, R266). -/
structure Copy where
  tag : Option Nat
  eng : Nat := 0
  src : Nat
  dst : Nat
  len : Nat
  sspace : Nat
  dspace : Nat
  vsrc : Bool
  rs : Bool
  rows : Nat
  sstride : Nat
  dstride : Nat
  step : Nat
  /-- bytes of the copy moved so far, lines that failed, a miss pauses it -/
  row : Nat := 0
  at_ : Nat := 0
  failed : Nat := 0
  paused : Bool := false
  /-- the source line that a fabric read returned; none while none is wanted -/
  got : Option Bytes := none
  /-- the line asked for, outside VSRC -/
  want : Nat := 0
  /-- a fabric read is outstanding; the line just read failed -/
  asked : Bool := false
  skip : Bool := false
  /-- LATE or AHEAD ends it (R267) -/
  ended : Nat := 0
  deriving DecidableEq, Repr

/-- Context states (R253, R458). -/
inductive CtxState where
  | free | idle | running | suspended | faulted | aborting | held
  deriving DecidableEq, Repr

/-- What a context carries out (R257). -/
inductive Doing where
  | none
  | run (kid entry : Nat)
  | copy
  | wait (space test scope : Nat) (addr value mask : BitVec 64) (timeout : Nat)
  | nop
  deriving DecidableEq, Repr

/-- A context slot of a core with its registers (R252, R278, R379). -/
structure Ctx where
  state : CtxState := .free
  tenant : Nat := 0
  fault : Nat := 0
  scopeSeen : Bool := false
  /-- CMP_CTX_DESC, and the descriptor the context was created with -/
  staging : Bytes := List.replicate 64 0
  desc : Bytes := []
  prod : BitVec 32 := 0
  cons : BitVec 32 := 0
  /-- the action record (R379) -/
  actSeq : Nat := 0
  actValid : Bool := true
  action : Nat := 0
  result : Nat := 0
  doing : Doing := .none
  seq : Nat := 0
  irq : Bool := false
  status : Nat := 0
  detail : Nat := 0
  streams : Vector Stream 4 := Vector.replicate 4 {}
  copies : List Copy := []
  accCount : Nat := 0
  gangLost : Bool := false
  /-- lines of the command's copies that failed (COUNT of R258) -/
  failed : Nat := 0
  /-- a poll is outstanding (R257) -/
  polling : Bool := false
  /-- the completion record of the command that faulted or was aborted has been written -/
  recorded : Bool := false
  deriving DecidableEq, Repr

/-- A line of a core cache (R251). -/
structure CLine where
  bytes : Bytes
  dirty : BitVec 128 := 0
  mask : BitVec 4 := 0
  pasid : Nat := 0
  /-- every byte of the line is held, not only the dirty ones -/
  valid : Bool := true
  deriving DecidableEq, Repr

/-- A kernel in the kernel store (R260). -/
structure Kernel where
  tenant : Option Nat
  entries : List Nat
  spMin : Nat
  accMin : Nat
  streamsMin : Nat
  gang : Bool
  imageId : BitVec 64
  code : Bytes
  deriving DecidableEq, Repr

/-- The compute array (R247–R278). -/
structure Compute where
  /-- contexts, keyed by core × 4 + slot -/
  ctxs : NMap Ctx := []
  /-- scratchpad bytes, keyed by core × 1,048,576 + address -/
  sp : NMap Byte := []
  /-- core-cache lines, keyed by core, space and translated line -/
  cache : NMap CLine := []
  kernels : NMap Kernel := []
  loading : Bool := false
  loadResult : Nat := 0
  loadKid : Nat := 0
  /-- service shares in force (R256): the written share takes effect at FT mod 64 = 0 -/
  shares : Vector Nat 8 := Vector.replicate 8 0
  /-- commands that the compute array has given to the resident BEP -/
  issued : Nat := 0
  /-- flowstone accumulators (R291), keyed by index -/
  accs : NMap Acc := []
  deriving DecidableEq, Repr

/-! ### Collectives -/

/-- The step record of R315 and the verdict of R317. -/
structure StepRec where
  failed : Bool := false
  cause : Nat := 0
  absent : Nat := 0
  /-- rank and coordinate of the lowest-ranked absent member -/
  first : Option (Nat × Nat) := none
  poison : Option Nat := none
  dropped : Nat := 0
  deriving DecidableEq, Repr

/-- A data cell under reduction (R312). -/
structure RedCell where
  taken : Nat := 0
  /-- running minimum or maximum, one word an element -/
  run : List Nat := []
  formed : Bool := false
  deriving DecidableEq, Repr

/-- A formed cell in the departure store (R309). -/
structure Formed where
  payload : Bytes
  pad : Bool := false
  sent : Bool := false
  deriving DecidableEq, Repr

/-- A window slot (R309–R333). -/
structure Win where
  /-- 0 free, 1 bound, 2 unbinding, 3 ended after NSTEPS -/
  state : Nat := 0
  refusal : Nat := 0
  desc : Bytes := []
  accCount : Nat := 0
  running : Option Nat := none
  stepRec : StepRec := {}
  /-- up-verdicts taken, merged; what the own up-verdict carried; the verdict held; failures since it -/
  up : StepRec := {}
  carried : Option StepRec := none
  verdict : Option StepRec := none
  failedAfter : Bool := false
  uncarried : Bool := false
  red : NMap RedCell := []
  /-- cells taken through output 24, keyed by rank × 2^24 + chunk × 16 + cell (R322–R324, R332) -/
  taken : NMap Bytes := []
  /-- cells of a chunk that arrived, for its check (R306): keyed by input × 2^24 + chunk × 16 + cell -/
  seen : NMap Bytes := []
  /-- delivery bitmap of each chunk (R316) -/
  delivered : NMap (List Nat) := []
  memberLost : Bool := false
  lostNow : Bool := false
  /-- departure-store cells of the step, keyed by chunk × 16 + cell -/
  formed : NMap Formed := []
  /-- of the running step: chunks whose check failed, ranks absent, embedding indices out of range, bucket drops -/
  badChunks : List Nat := []
  absentNow : List Nat := []
  badNow : Nat := 0
  dropsNow : NMap Nat := []
  -- result record (R333)
  resSeq : Nat := 0
  valid : Bool := false
  committed : Bool := false
  split : Bool := false
  resCause : Nat := 0
  resAbsent : Nat := 0
  resStep : Nat := 0
  lastCommitted : Nat := 0xFFFFFFFF
  firstAbsent : Nat := 0xFFFF
  poisonChunk : Nat := 0xFFFFFFFF
  commitFt : Nat := 0
  committedSteps : Nat := 0
  failedSteps : Nat := 0
  resDropped : Nat := 0
  badIndex : Nat := 0
  drops : NMap Nat := []
  absentMap : List Nat := []
  deriving DecidableEq, Repr

/-- A shard or table slot (R325–R332). -/
structure Shard where
  /-- 0 disabled, 1 enabled, 2 refused -/
  state : Nat := 0
  record : Bytes := []
  bound : Bool := false
  /-- the parameter block as read at the last round start (R326) -/
  params : List Nat := []
  /-- shard chunk held by each staging slot in this step -/
  staging : NMap Nat := []
  /-- digests formed here and digests taken from the mirror, keyed by shard chunk (R330) -/
  digests : NMap Nat := []
  taken : NMap Nat := []
  deriving DecidableEq, Repr

/-- Collectives and stewardship. -/
structure Coll where
  maps : NMap Bytes := []
  wins : NMap Win := []
  shards : NMap Shard := []
  deriving DecidableEq, Repr

/-! ### Translation -/

/-- Who waits on a translation (R275): a stream or a copy of a context. -/
inductive Waiter where
  | stream (ctx eng : Nat)
  | copy (ctx : Nat)
  | ring (ctx : Nat)
  deriving DecidableEq, Repr

/-- A Translation Request outstanding (R341). -/
structure TReq where
  pasid : Nat
  vpage : Nat
  /-- who waits, with the bits it needs: 1 read, 2 write -/
  waiters : List (Waiter × Nat)
  /-- a page request was answered for it already: a bit still missing is final (R344) -/
  final : Bool := false
  stale : Bool := false
  tenant : Nat
  /-- it has been sent; otherwise it waits for another to end (R341, R440) -/
  sent : Bool := false
  deriving DecidableEq, Repr

/-- A page request outstanding (R343). -/
structure PageReq where
  pasid : Nat
  vpage : Nat
  waiters : List (Waiter × Nat)
  tenant : Nat
  deriving DecidableEq, Repr

/-- An invalidation that drains (R346, R347): the numbers of the commands in its snapshot that have not ended. -/
structure Inval where
  itag : Nat
  /-- the host asked for it; otherwise it is the GV24's own (R348) -/
  host : Bool
  since : Nat
  uses : List Nat
  deriving DecidableEq, Repr

/-- The translation unit (R335–R351). -/
structure Xlat where
  /-- valid entries, keyed by set × 16 + way -/
  entries : NMap XEntry := []
  /-- use order of the keys, most recent first -/
  lru : List Nat := []
  reqs : List TReq := []
  pages : NMap PageReq := []
  /-- faults that wait for a page request to end (R276): PASID, page, waiter, bits needed -/
  pageWait : List (Nat × Nat × Waiter × Nat) := []
  stopped : Bool := false
  ats : Bool := false
  pasidOn : Bool := false
  pri : Bool := false
  allocation : Nat := 512
  invals : List Inval := []
  /-- invalidations that wait to be accepted -/
  waiting : List (Nat × Option Nat × Nat × Nat) := []
  longest : Nat := 0
  deriving DecidableEq, Repr

/-! ### GDDR7 -/

/-- Memory states (R366). -/
inductive MemState where
  | untrained | training | zeroFilling | ready | selfRefresh | failed
  deriving DecidableEq, Repr

/-- One channel (R367). -/
structure Chan where
  retrains : Nat := 0
  failed : Bool := false
  retraining : Bool := false
  trained : Bool := false
  present : Bool := false
  crcTries : Nat := 0
  /-- dirty check lines in the check cache, most recent first, at most 32 (R358) -/
  check : List (Nat × Bool) := []
  /-- scrub position of each bank and a line to write back -/
  scrub : NMap Nat := []
  fix : Option Nat := none
  /-- accesses that wait: line, write, tenant (16 is untenanted) -/
  queue : List (Nat × Bool × Nat) := []
  /-- the row segment open in each bank -/
  rows : NMap Nat := []
  deriving DecidableEq, Repr

/-- The attached memory (R352–R367). -/
structure Mem where
  /-- bytes, addresses strictly rising, no zero listed: an unlisted byte reads as 0 (R364) -/
  cells : List Host.Cell := []
  /-- lines that are uncorrectable or poisoned (R362) -/
  poison : List Nat := []
  state : MemState := .untrained
  density : Nat := 0
  coloured : Bool := true
  chans : NMap Chan := []
  deriving DecidableEq, Repr

/-! ### Host attachment, CAN -/

/-- A write collected in segments (R378, R401). -/
structure Staged where
  key : Nat
  data : Bytes
  deriving DecidableEq, Repr

/-- The mailbox response (R376). -/
structure MbxResponse where
  seq : Nat := 0
  valid : Bool := false
  more : Bool := false
  status : Nat := 0
  abort : Nat := 0
  clamps : Nat := 0
  data : Bytes := []
  deriving DecidableEq, Repr

/-- The PCI Express function (R368–R383). -/
structure HostIf where
  d3hot : Bool := false
  linkUp : Bool := true
  doeError : Bool := false
  bar2Base : BitVec 64 := 0
  ignored : Nat := 0
  cause : BitVec 64 := 0
  enable : BitVec 64 := 0
  winIrq : BitVec 64 := 0
  /-- the request area, 2,048 bytes; a byte not listed is 0 -/
  reqArea : NMap Byte := []
  busy : Bool := false
  running : Option MbxRequest := none
  /-- a running request was started before a function reset: its response is discarded (R370) -/
  discard : Bool := false
  rsp : MbxResponse := {}
  staged : Option Staged := none
  snap : Option Staged := none
  /-- staging and snapshot of the secured route -/
  secStaged : Option Staged := none
  secSnap : Option Staged := none
  ready : Bool := false
  /-- MSI-X (R369, R382): enable, function mask, table entries of 128 bits (unlisted: masked), pending bits -/
  msixOn : Bool := false
  msixMask : Bool := false
  vectors : NMap Nat := []
  msixPending : List Nat := []
  /-- configuration-space bytes that the host has written and that no field above interprets -/
  config : NMap Byte := []
  deriving DecidableEq, Repr

/-- The CAN FD node (R391–R397). -/
structure Can where
  node : Nat := 0
  /-- 00h boot-up, 04h stopped, 05h operational, 7Fh pre-operational -/
  nmt : Nat := 0
  /-- FT of the last EMCY sent (R396) -/
  lastEmcy : Option Nat := none
  /-- the error register as last reported -/
  reported : Nat := 0
  /-- the node-ID was rewritten: it changes once the response has been sent (R392) -/
  renamed : Bool := false
  /-- TPDO contents of the last telemetry capture, TPDO 1 first (R397) -/
  frames : List Bytes := []
  deriving DecidableEq, Repr

/-! ### Security -/

/-- Session roles (R424). -/
inductive Role where
  | operator | tenant (t : Nat)
  deriving DecidableEq, Repr

/-- An SPDM session (R423). -/
structure Session where
  role : Role
  established : Bool := false
  /-- KEY_UPDATEs of the requester's and of the responder's key -/
  requestKey : Nat := 0
  responseKey : Nat := 0
  deriving DecidableEq, Repr

/-- A valid firmware image in flash (R421). -/
structure Firmware where
  version : Nat
  bytes : Bytes
  deriving DecidableEq, Repr

/-- Identity, measurements and sessions (R418–R445). -/
structure Sec where
  identityOk : Bool := false
  fwA : Option Firmware := some { version := 1, bytes := [] }
  fwB : Option Firmware := none
  runningB : Bool := false
  /-- a firmware write in progress -/
  fwWrite : Option Bytes := none
  /-- sequence numbers of the two security regions; the newest one's contents are the entries' values (R420) -/
  regionA : Nat := 0
  regionB : Nat := 0
  sessions : NMap Session := []
  /-- measurements 1–9 -/
  meas : Vector (BitVec 512) 9 := Vector.replicate 9 0
  mlist : List (BitVec 512) := []
  bindRunning : Bool := false
  bindResult : Nat := 0
  deriving DecidableEq, Repr

/-! ### Event log, lantern, muster -/

/-- An event record (R450). -/
structure EventRec where
  seq : Nat
  code : Nat
  cls : Nat
  tenant : Nat
  ft : Nat
  detail : List Nat
  deriving DecidableEq, Repr

/-- The event log (R449–R453). -/
structure Log where
  /-- records in FRAM, oldest first; records pending -/
  fram : List EventRec := []
  pending : List EventRec := []
  seq : Nat := 0
  /-- open ERROR and FATAL events: SEQ and class -/
  opened : List (Nat × Nat) := []
  /-- FT of the last CORRECTED record, keyed by code × 65,536 + source -/
  corrected : NMap Nat := []
  deriving DecidableEq, Repr

/-- A node of the lantern (R455). -/
inductive Node where
  | voq (input output vc tenant : Nat)
  | credit (port vc : Nat)
  | partner (port vc : Nat)
  | intake
  | sink
  | directory
  | answers
  | stream (ctx eng : Nat)
  | copy (ctx : Nat)
  deriving DecidableEq, Repr

/-- A wait-for path seen by consecutive samples (R456). -/
structure Watch where
  nodes : List Node
  progress : List Nat
  times : Nat
  deriving DecidableEq, Repr

/-- Findings of the echo (R459). -/
inductive Finding where
  | innocent | guilty (fault : Nat) | inconclusive
  deriving DecidableEq, Repr

/-- The lantern and the echo. -/
structure Lantern where
  watches : List Watch := []
  /-- progress counts, keyed by a node's number -/
  progress : NMap Nat := []
  /-- suspects in order (context keys, a gang as one list), findings so far, the one replayed -/
  suspects : List (List Nat) := []
  findings : List (List Nat × Finding) := []
  current : Option (List Nat) := none
  waiting : List (List Node) := []
  deriving DecidableEq, Repr

/-- The muster (R466–R483). -/
structure Muster where
  running : Bool := false
  census : Bool := false
  members : List Nat := []
  epoch : Nat := 0
  failed : List Nat := []
  lost : List Nat := []
  change : List Nat := []
  /-- origins whose VIEW arrived in phase B of this round, and members missed in the last round -/
  views : List Nat := []
  missed : List Nat := []
  /-- F, L or E changed in phase B; a VIEW of phase B differed -/
  changedB : Bool := false
  differed : Bool := false
  agreeing : Bool := false
  decided : Bool := false
  before : List Nat := []
  /-- highest tag completed: epoch and step (R474) -/
  tag : Nat × Nat := (0, 0)
  restarts : List Nat := []
  partitioned : Bool := false
  relayed : List Nat := []
  /-- tenants whose windows were marked in the epochs concerned (R476) -/
  marked : List Nat := []
  deriving DecidableEq, Repr

/-! ### Power -/

/-- JTAG instructions (R495). -/
inductive Jtag where
  | bypass | idcode | samplePreload | extest
  deriving DecidableEq, Repr

/-- Monitors, throttling, clocks, straps and pins (R484–R508). -/
structure Power where
  /-- readings in 0.01 K, failed sensors, sensors at the trip limit in the last sample -/
  temps : NMap Nat := []
  failedSensors : List Nat := []
  tripNear : List Nat := []
  dieFailed : Bool := false
  volts : NMap Nat := []
  warn : List Nat := []
  low : List Nat := []
  thermal : Nat := 0
  powerLevel : Nat := 0
  level : Nat := 0
  highestLevel : Nat := 0
  average : Nat := 0
  tripped : Bool := false
  hot : List Nat := []
  voptOff : Bool := false
  clockLost : Bool := false
  mgmtHeld : Bool := false
  /-- the device is held in cold reset (R489, R498), the planes in warm reset (R464, R491) -/
  coldHeld : Bool := false
  warmRunning : Bool := false
  pwrWarn : Bool := false
  /-- conditions of ALERT_L that held at the last look (R505) -/
  alertSeen : Nat := 0
  trayPos : Nat := 0
  trayPins : Nat := 0
  nodePins : Nat := 1
  jtag : Jtag := .idcode
  pins : List Bool := []
  deriving DecidableEq, Repr

/-- A reset requested or under way: domain code, target, cause (R461). -/
structure ResetRun where
  domain : Nat
  target : Nat
  cause : Nat
  deriving DecidableEq, Repr

/-- Resets (R461, R462): the last one completed, those under way, those that wait. -/
structure Resets where
  last : Nat := 0
  running : List ResetRun := []
  waiting : List ResetRun := []
  deriving DecidableEq, Repr

/-- The machine. -/
structure State where
  /-- the commands that wait, first in first out -/
  pending : List Instr
  time : Time
  ports : Vector Port 24
  sw : Switch
  routes : Routes
  bep : Bep
  ep : Ep
  grotto : Grotto
  cal : Calendar
  cmp : Compute
  coll : Coll
  xlat : Xlat
  mem : Mem
  dict : Dict
  host : HostIf
  can : Can
  sec : Sec
  log : Log
  lantern : Lantern
  muster : Muster
  pwr : Power
  resets : Resets
  /-- what the block has sent, newest first (the model's own field, assumption 3) -/
  sent : List Out
  /-- how many free values have been drawn (the model's own field, assumption 4) -/
  free : Nat
  deriving DecidableEq, Repr

/-- The machine right after reset: every field at the value its rule gives it (the defaults above). -/
def State.reset : State where
  pending := []
  time := {}
  ports := Vector.replicate 24 {}
  sw := {}
  routes := {}
  bep := {}
  ep := {}
  grotto := {}
  cal := {}
  cmp := {}
  coll := {}
  xlat := {}
  mem := {}
  dict := {}
  host := {}
  can := {}
  sec := {}
  log := {}
  lantern := {}
  muster := {}
  pwr := {}
  resets := {}
  sent := []
  free := 0

end Sys2Proof.Machine
end

