-- ==== Sys2Proof/Machine/Map.lean ====
section
/-!
DEFINITION. Reading and writing the sparse tables of the state, byte strings and bit fields.
-/

namespace Sys2Proof.Machine

open Sys2Proof

/-- The value listed under key `k`. -/
def mapGet {α : Type} (m : NMap α) (k : Nat) : Option α :=
  match m with
  | [] => none
  | (j, v) :: r => if j = k then some v else mapGet r k

/-- The value listed under `k`, or `d` where none is. -/
def mapGetD {α : Type} (m : NMap α) (k : Nat) (d : α) : α := (mapGet m k).getD d

/-- List `v` under `k`, keeping the keys rising. -/
def mapSet {α : Type} (m : NMap α) (k : Nat) (v : α) : NMap α :=
  match m with
  | [] => [(k, v)]
  | (j, w) :: r => if k = j then (k, v) :: r else if k < j then (k, v) :: (j, w) :: r else (j, w) :: mapSet r k v

/-- Unlist `k`. -/
def mapErase {α : Type} (m : NMap α) (k : Nat) : NMap α := m.filter (fun e => e.1 ≠ k)

/-- Change the value listed under `k`, if any. -/
def mapMod {α : Type} (m : NMap α) (k : Nat) (f : α → α) : NMap α :=
  m.map (fun e => if e.1 = k then (e.1, f e.2) else e)

/-- The smallest number below `bound` that is no key. -/
def mapFree {α : Type} (m : NMap α) (bound : Nat) : Option Nat :=
  (List.range bound).find? (fun k => (mapGet m k).isNone)

/-! ### Byte strings: little-endian fields (R4) -/

/-- The number whose bytes, lowest first, are given. -/
def leNat : Bytes → Nat
  | [] => 0
  | b :: r => b.toNat + 256 * leNat r

/-- The `n` lowest bytes of a number, lowest first. -/
def natLe (n v : Nat) : Bytes :=
  match n with
  | 0 => []
  | n + 1 => BitVec.ofNat 8 v :: natLe n (v / 256)

/-- Bytes `[i, i + n)`, with 0 for a byte beyond the end. -/
def slice (b : Bytes) (i n : Nat) : Bytes := (b.drop i).take n ++ List.replicate (n - (b.length - i)) 0

/-- The field of `n` bytes at `i`. -/
def fieldAt (b : Bytes) (i n : Nat) : Nat := leNat ((b.drop i).take n)

/-- Replace the bytes at `i` by `d`, extending with zeros where needed. -/
def splice (b : Bytes) (i : Nat) (d : Bytes) : Bytes :=
  slice b 0 i ++ d ++ b.drop (i + d.length)

/-- Bits `[lo, lo + w)` of a number. -/
def bits (v lo w : Nat) : Nat := v / 2 ^ lo % 2 ^ w

/-- Bit `i` of a number. -/
def bit (v i : Nat) : Bool := v.testBit i

/-- A bit as a number at a place. -/
def flag (b : Bool) (i : Nat) : Nat := if b then 2 ^ i else 0

/-- Pad to at least `n` bytes with zeros. -/
def padTo (n : Nat) (b : Bytes) : Bytes := b ++ List.replicate (n - b.length) 0

/-- The low `w` bits of an integer, as a number: two's complement. -/
def twos (w : Nat) (i : Int) : Nat := (i % (2 ^ w : Int)).toNat

/-- The integer a two's-complement field of `w` bits stands for. -/
def signed (w : Nat) (v : Nat) : Int := if v % 2 ^ w < 2 ^ (w - 1) then (v % 2 ^ w : Nat) else (v % 2 ^ w : Nat) - (2 ^ w : Int)

/-- The nearest value of a range. -/
def clampTo (lo hi v : Nat) : Nat := if v < lo then lo else if hi < v then hi else v

/-- Round up to a multiple of `m`. -/
def ceilTo (m v : Nat) : Nat := (v + m - 1) / m * m

/-- The largest power of two not above `v`, for `1 ≤ v < 2^32`. -/
def pow2Down (v : Nat) : Nat := 2 ^ Nat.log2 v

/-- The positions below `n` at which `p` holds. -/
def indices (n : Nat) (p : Nat → Bool) : List Nat := (List.range n).filter p

/-- Replace element `i` of a list. -/
def listSet {α : Type} (l : List α) (i : Nat) (v : α) : List α := l.set i v

/-- Number of bits set among the low `w`. -/
def popcount (w v : Nat) : Nat := (indices w (fun i => v.testBit i)).length

end Sys2Proof.Machine
end

