-- ==== Sys2Proof/Machine/Arith.lean ====
section
/-!
DEFINITION. Number formats, exact values and rounding (R279–R290), and flowstone accumulators (R291–R297).
A finite value is held exactly as sign, integer and power of two; every result is rounded once.
-/

namespace Sys2Proof.Machine

open Sys2Proof

/-! ### Formats (R279) -/

/-- A floating-point format. -/
structure Fmt where
  exp : Nat
  sig : Nat
  bias : Nat
  /-- largest finite magnitude, as encoded -/
  maxEnc : Nat
  /-- encoded infinity, where the format has one -/
  inf : Option Nat
  /-- encoded canonical NaN, where the format has one -/
  nan : Option Nat
  deriving DecidableEq, Repr

def fp32 : Fmt := ⟨8, 23, 127, 0x7F7FFFFF, some 0x7F800000, some 0x7FC00000⟩
def fp16 : Fmt := ⟨5, 10, 15, 0x7BFF, some 0x7C00, some 0x7E00⟩
def bf16 : Fmt := ⟨8, 7, 127, 0x7F7F, some 0x7F80, some 0x7FC0⟩
def e4m3 : Fmt := ⟨4, 3, 7, 0x7E, none, some 0x7F⟩
def e5m2 : Fmt := ⟨5, 2, 15, 0x7B, some 0x7C, some 0x7E⟩
def e2m3 : Fmt := ⟨2, 3, 1, 0x1F, none, none⟩
def e3m2 : Fmt := ⟨3, 2, 3, 0x1F, none, none⟩
def e2m1 : Fmt := ⟨2, 1, 1, 0x7, none, none⟩

/-- The format of a floating-point TYPE and narrow code; none where the code names none. -/
def fmtOf (ty narrow : Nat) : Option Fmt :=
  match ty with
  | 2 => some fp32
  | 3 => some fp16
  | 4 => some bf16
  | 5 => some e4m3
  | 6 => some e5m2
  | 7 => match narrow with
    | 0 => some e2m3
    | 1 => some e3m2
    | 2 => some e2m1
    | _ => none
  | _ => none

/-- Bits of an element. -/
def Fmt.bits (f : Fmt) : Nat := 1 + f.exp + f.sig

/-- An exact value: NaN, an infinity, or ±m × 2^e with its sign kept at zero. -/
inductive FV where
  | nan
  | inf (neg : Bool)
  | fin (neg : Bool) (m : Nat) (e : Int)
  deriving DecidableEq, Repr

/-- Exponent of the smallest subnormal of a format. -/
def Fmt.emin (f : Fmt) : Int := 1 - (f.bias : Int) - f.sig

/-- The value of an encoded element. -/
def decodeFV (f : Fmt) (v : Nat) : FV :=
  let neg := v.testBit (f.exp + f.sig)
  let mag := v % 2 ^ (f.exp + f.sig)
  let ex := mag / 2 ^ f.sig
  let mant := mag % 2 ^ f.sig
  match f.inf with
  | some i =>
    if mag = i then .inf neg
    else if i < mag then .nan
    else if ex = 0 then .fin neg mant f.emin
    else .fin neg (2 ^ f.sig + mant) (f.emin + ex - 1)
  | none =>
    if f.nan = some mag then .nan
    else if ex = 0 then .fin neg mant f.emin
    else .fin neg (2 ^ f.sig + mant) (f.emin + ex - 1)

/-! ### Rounding (R282) -/

/-- Rounding modes. -/
inductive Mode where
  | rne | rtz | rup | rdn | rna
  deriving DecidableEq, Repr

/-- The mode of a code; 5–7 are illegal. -/
def modeOf (code : Nat) : Option Mode :=
  match code with
  | 0 => some .rne
  | 1 => some .rtz
  | 2 => some .rup
  | 3 => some .rdn
  | 4 => some .rna
  | _ => none

/-- Does a magnitude `n + r/d` (`0 ≤ r < d`) round up? -/
def roundsUp (mode : Mode) (neg : Bool) (n r d : Nat) : Bool :=
  match mode with
  | .rne => decide (d < 2 * r) || (decide (2 * r = d) && n % 2 == 1)
  | .rtz => false
  | .rup => !neg && decide (r ≠ 0)
  | .rdn => neg && decide (r ≠ 0)
  | .rna => decide (d ≤ 2 * r)

/-- `m × 2^e / 2^q` rounded to an integer. -/
def roundAt (mode : Mode) (neg : Bool) (m : Nat) (e q : Int) : Nat :=
  if q ≤ e then m * 2 ^ (e - q).toNat
  else
    let d := 2 ^ (q - e).toNat
    let n := m / d
    if roundsUp mode neg n (m % d) d then n + 1 else n

/-- The encoding of a magnitude rounded with an unbounded exponent range above. -/
def roundMag (f : Fmt) (mode : Mode) (neg : Bool) (m : Nat) (e : Int) : Nat :=
  if m = 0 then 0
  else
    let q := max f.emin ((Nat.log2 m : Int) + e - f.sig)
    (q - f.emin).toNat * 2 ^ f.sig + roundAt mode neg m e q

/-- Under the mode an overflow gives an infinity, not the largest finite value. -/
def overflowsUp (mode : Mode) (neg : Bool) : Bool :=
  match mode with
  | .rne => true
  | .rna => true
  | .rtz => false
  | .rup => !neg
  | .rdn => neg

/-- The encoded sign bit. -/
def signBit (f : Fmt) (neg : Bool) : Nat := if neg then 2 ^ (f.exp + f.sig) else 0

/-- NaN of a format; +0 where it has none (R285). -/
def encNan (f : Fmt) : Nat := f.nan.getD 0

/-- An infinity, or what stands for it (R285). -/
def encInf (f : Fmt) (sat neg : Bool) : Nat :=
  match f.inf, f.nan with
  | some i, _ => signBit f neg + (if sat then f.maxEnc else i)
  | none, some n => if sat then signBit f neg + f.maxEnc else n
  | none, none => signBit f neg + f.maxEnc

/-- Round a value to a format (R282, R285). -/
def roundFV (f : Fmt) (mode : Mode) (sat : Bool) : FV → Nat
  | .nan => encNan f
  | .inf neg => encInf f sat neg
  | .fin neg m e =>
    let k := roundMag f mode neg m e
    if k ≤ f.maxEnc then signBit f neg + k
    else if overflowsUp mode neg then encInf f sat neg
    else signBit f neg + f.maxEnc

/-! ### Exact operations -/

/-- Product. -/
def mulFV : FV → FV → FV
  | .nan, _ => .nan
  | _, .nan => .nan
  | .inf a, .inf b => .inf (a != b)
  | .inf a, .fin b m _ => if m = 0 then .nan else .inf (a != b)
  | .fin b m _, .inf a => if m = 0 then .nan else .inf (a != b)
  | .fin a m e, .fin b n g => .fin (a != b) (m * n) (e + g)

/-- Scale by a power of two. -/
def scaleFV (k : Int) : FV → FV
  | .nan => .nan
  | .inf a => .inf a
  | .fin a m e => .fin a m (e + k)

/-- The finite part of a value, in units of 2^q, for `q` not above its exponent. -/
def unitsFV (q : Int) : FV → Int
  | .fin neg m e => (if neg then -1 else 1) * ((m * 2 ^ (e - q).toNat : Nat) : Int)
  | .nan => 0
  | .inf _ => 0

/-- The least exponent of a list of values. -/
def minExp (l : List FV) : Int :=
  l.foldl (fun q v => match v with
    | .fin _ _ e => min q e
    | .nan => q
    | .inf _ => q) 0

/-- The exact sum of a list, with the sign rule of IEEE 754 for an exact zero (R284, R288). -/
def sumFV (mode : Mode) (l : List FV) : FV :=
  let pos := l.contains (.inf false)
  let neg := l.contains (.inf true)
  if l.contains .nan || (pos && neg) then .nan
  else if pos then .inf false
  else if neg then .inf true
  else
    let q := minExp l
    let t := l.foldl (fun (n : Int) v => n + unitsFV q v) 0
    if t = 0 then
      let allNeg := !l.isEmpty && l.all (fun v => match v with
        | .fin n m _ => n && m == 0
        | .nan => false
        | .inf _ => false)
      let allPos := l.all (fun v => match v with
        | .fin n m _ => !n && m == 0
        | .nan => false
        | .inf _ => false)
      .fin (allNeg || (!allPos && mode == .rdn)) 0 q
    else .fin (decide (t < 0)) t.natAbs q

/-- Is the value finite and held exactly by the format? -/
def exactIn (f : Fmt) : FV → Bool
  | .fin neg m e =>
    let k := roundMag f .rtz neg m e
    k ≤ f.maxEnc && (match decodeFV f k with
      | .fin _ m' e' => let q := min e e'
                        m * 2 ^ (e - q).toNat == m' * 2 ^ (e' - q).toNat
      | .nan => false
      | .inf _ => false)
  | .nan => false
  | .inf _ => false

/-! ### Order -/

/-- `a < b` for values that are no NaN; −0 equals +0. -/
def ltFV : FV → FV → Bool
  | .nan, _ => false
  | _, .nan => false
  | .inf a, .inf b => a && !b
  | .inf a, .fin _ _ _ => a
  | .fin _ _ _, .inf b => !b
  | .fin a m e, .fin b n g =>
    let q := min e g
    decide (unitsFV q (.fin a m e) < unitsFV q (.fin b n g))

/-- `a = b` by the IEEE predicate. -/
def eqFV : FV → FV → Bool
  | .nan, _ => false
  | _, .nan => false
  | .inf a, .inf b => a == b
  | .inf _, .fin _ _ _ => false
  | .fin _ _ _, .inf _ => false
  | .fin a m e, .fin b n g =>
    let q := min e g
    decide (unitsFV q (.fin a m e) = unitsFV q (.fin b n g))

/-- The sign of a value. -/
def negFV : FV → Bool
  | .nan => false
  | .inf a => a
  | .fin a _ _ => a

/-- IEEE minimum or maximum: NaN if either is, −0 below +0 (R284). -/
def minmaxFV (isMax : Bool) (a b : FV) : FV :=
  if a = .nan ∨ b = .nan then .nan
  else
    let less := ltFV a b || (eqFV a b && negFV a && !negFV b)
    if less = isMax then b else a

/-! ### Conversion (R285) -/

/-- A 32-bit integer lane as a value. -/
def intFV (signedLane : Bool) (v : Nat) : FV :=
  let i := if signedLane then signed 32 v else (v % 2 ^ 32 : Nat)
  .fin (decide (i < 0)) i.natAbs 0

/-- A value rounded to I32 or U32, saturating; NaN gives 0. -/
def toInt32 (signedLane : Bool) (mode : Mode) : FV → Nat
  | .nan => 0
  | .inf neg => if signedLane then (if neg then 0x80000000 else 0x7FFFFFFF) else (if neg then 0 else 0xFFFFFFFF)
  | .fin neg m e =>
    let n := roundAt mode neg m e 0
    let i : Int := if neg then -(n : Int) else n
    if signedLane then (if i < -(2 ^ 31) then 0x80000000 else if 2 ^ 31 ≤ i then 0x7FFFFFFF else twos 32 i)
    else if i < 0 then 0 else if 2 ^ 32 ≤ i then 0xFFFFFFFF else i.toNat

/-- A source element of a TYPE as a value; none for a code that names no format. -/
def readFV (ty narrow v : Nat) : Option FV :=
  if ty = 0 then some (intFV true v)
  else if ty = 1 then some (intFV false v)
  else (fmtOf ty narrow).map (fun f => decodeFV f (v % 2 ^ f.bits))

/-- An MX element type (R279). -/
def isMx (ty : Nat) : Bool := ty == 5 || ty == 6 || ty == 7

/-- `cvt` of one lane: none is ILLEGAL. -/
def cvtLane (ty srcNarrow dty dstNarrow : Nat) (mode : Mode) (sat scaled : Bool) (scale v : Nat) : Option Nat :=
  if scaled && !isMx ty && !isMx dty then none
  else
    match readFV ty srcNarrow v with
    | none => none
    | some x =>
      -- both rows of R285 apply where both types are MX element types (assumption 14)
      let y := if !scaled then x
        else if scale = 0xFF then .nan
        else
          let y := if isMx ty then scaleFV ((scale : Int) - 127) x else x
          if isMx dty then scaleFV (127 - (scale : Int)) y else y
      if dty = 0 then some (toInt32 true mode y)
      else if dty = 1 then some (toInt32 false mode y)
      else (fmtOf dty dstNarrow).map (fun f => roundFV f mode sat y)

/-! ### MX blocks (R289, R290) -/

/-- ⌊log2⌋ of a nonzero finite magnitude. -/
def log2FV : FV → Int
  | .fin _ m e => (Nat.log2 m : Int) + e
  | .nan => 0
  | .inf _ => 0

/-- Is a value zero? -/
def zeroFV : FV → Bool
  | .fin _ m _ => m == 0
  | .nan => false
  | .inf _ => false

/-- Is a value finite? -/
def finiteFV : FV → Bool
  | .fin _ _ _ => true
  | .nan => false
  | .inf _ => false

/-- emax of an element type (R290). -/
def mxEmax (f : Fmt) : Int :=
  if f = e4m3 then 8 else if f = e5m2 then 15 else if f = e2m3 then 2 else if f = e3m2 then 4 else 2

/-- Convert a block of values to elements and a scale byte (R290). -/
def mxBlock (f : Fmt) (l : List FV) : List Nat × Nat :=
  if l.any (fun v => !finiteFV v) then (l.map (fun _ => 0), 0xFF)
  else
    let nz := l.filter (fun v => !zeroFV v)
    match nz with
    | [] => (l.map (fun _ => 0), 0)
    | v :: r =>
      let top := r.foldl (fun q w => max q (log2FV w)) (log2FV v)
      let x := max (-127) (min 127 (top - mxEmax f))
      (l.map (fun w => roundFV f .rne true (scaleFV (-x) w)), (x + 127).toNat)

/-- Bits packed lowest first: elements of `w` bits into bytes (R289). -/
def packElems (w : Nat) (l : List Nat) : Bytes :=
  natLe ((l.length * w + 7) / 8) (l.foldr (fun e n => e % 2 ^ w + 2 ^ w * n) 0)

/-! ### Flowstone accumulators (R291–R297) -/

/-- The join of accumulator states (R293). -/
def joinState : AccState → AccState → AccState
  | .finite, s => s
  | s, .finite => s
  | .posInf, .posInf => .posInf
  | .negInf, .negInf => .negInf
  | .posInf, .negInf => .nan
  | .negInf, .posInf => .nan
  | .nan, _ => .nan
  | _, .nan => .nan

/-- The kind of a term. -/
def kindFV : FV → AccState
  | .nan => .nan
  | .inf true => .negInf
  | .inf false => .posInf
  | .fin _ _ _ => .finite

/-- The 320-bit two's-complement value of an integer. -/
def wrap320 (i : Int) : Int := (i + 2 ^ 319) % 2 ^ 320 - 2 ^ 319

/-- A finite value as a multiple of 2^−149 (R292). -/
def units149 (v : FV) : Int := unitsFV (-149) v

/-- Add a term (R293, R294). -/
def accAdd (a : Acc) (v : FV) : Acc :=
  let t := a.n + units149 v
  { n := wrap320 t, st := joinState a.st (kindFV v), ovf := a.ovf || decide (t ≠ wrap320 t) }

/-- Set an accumulator to a value (R293). -/
def accLoad (v : FV) : Acc := { n := units149 v, st := kindFV v }

/-- The value that R296 rounds. -/
def accValue (a : Acc) : FV :=
  match a.st with
  | .nan => .nan
  | .posInf => .inf false
  | .negInf => .inf true
  | .finite => if a.ovf then .nan else .fin (decide (a.n < 0)) a.n.natAbs (-149)

/-- The rounding of R296; a sum of exactly 0 gives +0. -/
def accRound (f : Fmt) (mode : Mode) (a : Acc) : Nat := roundFV f mode false (accValue a)

/-- A rounding with OVF set is counted (R296). -/
def accOvfCase (a : Acc) : Bool := a.st == .finite && a.ovf

/-- A finite accumulator rounded to an infinity (R302). -/
def accInfCase (f : Fmt) (mode : Mode) (a : Acc) : Bool :=
  a.st == .finite && !a.ovf && (match decodeFV f (accRound f mode a) with
    | .inf _ => true
    | .nan => false
    | .fin _ _ _ => false)

end Sys2Proof.Machine
end

