-- ==== Sys2Proof/Config.lean ====
section
/-!
DEFINITION. What the spec leaves to an implementation or names without giving its values: constants with no body,
so that nothing can be proved of their values. Free values (assumption 4), the secrets and keys of the part and the
cryptographic functions, which the spec takes from other standards (assumption 5).
-/

namespace Sys2Proof.Config

open Sys2Proof

/-- The n-th free value: drawn where the spec fixes no value and the machine goes on. -/
opaque freeValue : Nat → Nat

/-- SHA-512 (FIPS 180-4). -/
opaque sha512 : Bytes → BitVec 512

/-- RSASSA-PSS verification: does the key with this SHA-512 digest verify this signature over these bytes? -/
opaque rsaVerify : BitVec 512 → Bytes → Bytes → Bool

/-- The RSASSA-PSS signature of the identity key over these bytes. -/
opaque rsaSign : Bytes → Bytes

/-- HKDF (RFC 5869) with SHA-512: key, salt, info, length of the output in bytes. -/
opaque hkdf : Bytes → Bytes → Bytes → Nat → Bytes

/-- HKDF-Extract (RFC 5869) with SHA-512: salt and input. -/
opaque hkdfExtract : Bytes → Bytes → Bytes

/-- HKDF-Expand (RFC 5869) with SHA-512: pseudorandom key, info, length of the output in bytes. -/
opaque hkdfExpand : Bytes → Bytes → Nat → Bytes

/-- The Diffie–Hellman shared value of a private exponent label and a public value. -/
opaque dhShared : Nat → Bytes → Bytes

/-- The Diffie–Hellman public value of a private exponent label. -/
opaque dhPublic : Nat → Bytes

/-- AES-256-GCM: key, nonce, additional data, plaintext; the ciphertext and the 128-bit tag. -/
opaque gcmSeal : Bytes → Bytes → Bytes → Bytes → Bytes × BitVec 128

/-- AES-256-GCM: key, nonce, additional data, ciphertext, tag; the plaintext where the tag verifies. -/
opaque gcmOpen : Bytes → Bytes → Bytes → Bytes → BitVec 128 → Option Bytes

/-- SHA-512 of Ulukel's signing key, held in ROM (R421). -/
opaque ulukelKey : BitVec 512

/-- The identity public key of this part: modulus and exponent, 516 bytes. -/
opaque identityKey : Bytes

/-- The binding public value and its signature. -/
opaque bindingValue : Bytes

/-- The certificate chain of this part. -/
opaque certificateChain : Bytes

/-- Does the PUF reconstruct the identity at boot (R419)? -/
opaque pufReconstructs : Bool

/-- The measurement of the boot ROM (R422). -/
opaque romDigest : BitVec 512

/-- Does a management firmware image carry Ulukel's signature (R421)? -/
opaque firmwareSigned : Bytes → Bool

/-- The version of a management firmware image (R421). -/
opaque firmwareVersion : Bytes → Nat

/-- The version text of a management firmware image (R389). -/
opaque firmwareText : Bytes → Bytes

/-- Ulukel's manufacturer identity in the IDCODE of the JTAG port (R495). -/
opaque manufacturer : BitVec 11

/-- A random string the part draws: its number and its length. -/
opaque randomBytes : Nat → Nat → Bytes

end Sys2Proof.Config
end

