-- ==== Sys2Proof/Machine/Entries.lean ====
section
/-!
DEFINITION. The entries of the object dictionary (R384–R388): index, sub-indices, type, access right, default and
the clamp that R403 applies. One row of `entries` for each row of the chapters' entry tables. Entries whose write
does more than clamp and keep have clamp `rule`: Machine/Dict.lean gives them their operation.
-/

namespace Sys2Proof.Machine

open Sys2Proof

/-- Types of an entry (R384). -/
inductive Ty where
  | u8 | u16 | u32 | u64 | i32 | f32 | str (limit : Nat) | blob (limit : Nat)
  deriving DecidableEq, Repr

/-- Access rights (R386). -/
inductive Access where
  | ro | rw | wo | rws | rwl
  deriving DecidableEq, Repr

/-- How an out-of-range value is clamped (R403). -/
inductive Clamp where
  /-- every value is legal -/
  | none
  | range (lo hi : Nat)
  /-- only one value is legal -/
  | only (v : Nat)
  /-- values in `[lo, hi]` clamp to `dst` -/
  | hole (lo hi dst : Nat)
  /-- the entry's own operation clamps, refuses or acts -/
  | rule
  deriving DecidableEq, Repr

/-- One row of the entry tables: `count` indices from `index`, `stride` apart, with sub-indices `lo`–`hi`. -/
structure Entry where
  index : Nat
  count : Nat := 1
  stride : Nat := 1
  lo : Nat
  hi : Nat
  ty : Ty
  acc : Access
  dflt : Nat := 0
  clamp : Clamp := Clamp.none
  deriving DecidableEq, Repr

/-- A run of RO counters. -/
def counters (index lo hi : Nat) : Entry where
  index := index
  lo := lo
  hi := hi
  ty := .u64
  acc := .ro

/-- Entries of the identity chapters. -/
def entriesIdentity : List Entry := [
  ⟨0x1000, 1, 1, 0x00, 0x00, .u32, .ro, 0, .none⟩,
  ⟨0x1001, 1, 1, 0x00, 0x00, .u8, .ro, 0, .none⟩,
  ⟨0x1008, 1, 1, 0x00, 0x00, .str 255, .ro, 0, .none⟩,
  ⟨0x1009, 1, 1, 0x00, 0x00, .str 255, .ro, 0, .none⟩,
  ⟨0x100A, 1, 1, 0x00, 0x00, .str 255, .ro, 0, .none⟩,
  ⟨0x1018, 1, 1, 0x01, 0x01, .u32, .ro, 0x05A7, .none⟩,
  ⟨0x1018, 1, 1, 0x02, 0x02, .u32, .ro, 0x24, .none⟩,
  ⟨0x1018, 1, 1, 0x03, 0x03, .u32, .ro, 0x41, .none⟩,
  ⟨0x1018, 1, 1, 0x04, 0x04, .u32, .ro, 0, .none⟩,
  ⟨0x1030, 1, 1, 0x01, 0x01, .u8, .ro, 1, .none⟩,
  ⟨0x1030, 1, 1, 0x02, 0x02, .u8, .ro, 0, .none⟩,
  ⟨0x1100, 1, 1, 0x01, 0x01, .u16, .rw, 1000, .none⟩,
  ⟨0x1100, 1, 1, 0x02, 0x02, .u8, .rw, 0, .rule⟩,
  ⟨0x1100, 1, 1, 0x03, 0x03, .u8, .ro, 0, .none⟩,
  ⟨0x1100, 1, 1, 0x04, 0x04, .u16, .rw, 10, .none⟩,
  ⟨0x1100, 1, 1, 0x05, 0x05, .u8, .rw, 0, .range 0 1⟩,
  ⟨0x1100, 1, 1, 0x06, 0x09, .u16, .rw, 100, .rule⟩,
  ⟨0x1100, 1, 1, 0x0A, 0x0A, .u8, .ro, 0, .none⟩,
  ⟨0x1100, 1, 1, 0x10, 0x18, .u64, .ro, 0, .none⟩,
  ⟨0x1F00, 1, 1, 0x01, 0x01, .u16, .ro, 0, .none⟩,
  ⟨0x1F00, 1, 1, 0x02, 0x02, .u32, .ro, 0, .none⟩,
  ⟨0x1F00, 1, 1, 0x03, 0x03, .u64, .ro, 0, .none⟩,
  ⟨0x1F00, 1, 1, 0x05, 0x05, .blob 40960, .ro, 0, .none⟩,
  ⟨0x1F00, 1, 1, 0x06, 0x06, .u32, .wo, 0, .rule⟩,
  ⟨0x1F10, 1, 1, 0x01, 0x01, .u32, .ro, 0, .none⟩,
  ⟨0x1F10, 1, 1, 0x02, 0x02, .u16, .ro, 0, .none⟩,
  ⟨0x1F10, 1, 1, 0x03, 0x03, .blob 260096, .ro, 0, .none⟩,
  ⟨0x1F10, 1, 1, 0x04, 0x04, .u32, .wo, 0, .rule⟩,
  ⟨0x1F10, 1, 1, 0x05, 0x06, .u16, .ro, 0, .none⟩,
  ⟨0x1F20, 1, 1, 0x01, 0x02, .u8, .wo, 0, .rule⟩,
  ⟨0x1F20, 1, 1, 0x03, 0x04, .u32, .ro, 0, .none⟩,
  ⟨0x1F30, 1, 1, 0x01, 0x01, .blob 256, .rw, 0, .rule⟩,
  ⟨0x1F30, 1, 1, 0x02, 0x02, .u8, .wo, 0, .rule⟩,
  ⟨0x1F30, 1, 1, 0x03, 0x03, .u16, .rw, 0, .range 0 60000⟩,
  ⟨0x1F30, 1, 1, 0x04, 0x04, .blob 272, .ro, 0, .none⟩]

/-- Entries of the port chapters. -/
def entriesPort : List Entry := [
  ⟨0x2000, 8, 16, 0x01, 0x01, .u8, .rwl, 1, .rule⟩,
  ⟨0x2080, 7, 16, 0x01, 0x01, .u8, .rwl, 2, .rule⟩,
  ⟨0x20F0, 9, 16, 0x01, 0x01, .u8, .rwl, 3, .rule⟩,
  ⟨0x2000, 12, 16, 0x02, 0x02, .u8, .rwl, 0, .rule⟩,
  ⟨0x20C0, 12, 16, 0x02, 0x02, .u8, .rwl, 1, .rule⟩,
  ⟨0x2001, 24, 16, 0x01, 0x01, .u32, .ro, 0, .none⟩,
  ⟨0x2002, 24, 16, 0x01, 0x04, .u8, .ro, 0, .none⟩,
  ⟨0x2002, 24, 16, 0x05, 0x06, .u8, .wo, 0, .rule⟩,
  ⟨0x2002, 24, 16, 0x07, 0x07, .u32, .ro, 0, .none⟩,
  ⟨0x2003, 24, 16, 0x01, 0x08, .u32, .ro, 0, .none⟩,
  ⟨0x2003, 24, 16, 0x11, 0x18, .u8, .wo, 0, .rule⟩,
  ⟨0x2004, 24, 16, 0x01, 0x08, .u32, .ro, 0, .none⟩,
  ⟨0x2004, 24, 16, 0x11, 0x18, .u64, .ro, 0, .none⟩,
  ⟨0x2004, 24, 16, 0x21, 0x28, .u64, .ro, 0, .none⟩,
  ⟨0x2005, 24, 16, 0x01, 0x08, .u64, .ro, 0, .none⟩,
  ⟨0x2006, 24, 16, 0x01, 0x08, .u64, .ro, 0, .none⟩,
  ⟨0x2006, 24, 16, 0x11, 0x18, .u64, .ro, 0, .none⟩,
  ⟨0x2007, 24, 16, 0x01, 0x09, .u64, .ro, 0, .none⟩,
  ⟨0x2008, 24, 16, 0x01, 0x04, .u64, .ro, 0, .none⟩,
  ⟨0x2009, 24, 16, 0x01, 0x01, .u32, .rw, 64, .range 1 1048576⟩,
  ⟨0x2009, 24, 16, 0x02, 0x02, .u8, .rw, 1, .range 0 1⟩,
  ⟨0x2009, 24, 16, 0x03, 0x03, .u16, .rw, 20, .range 1 1000⟩,
  ⟨0x200A, 24, 16, 0x01, 0x08, .i32, .ro, 0, .none⟩,
  ⟨0x200A, 24, 16, 0x11, 0x18, .i32, .ro, 0, .none⟩,
  ⟨0x2400, 1, 1, 0x01, 0x02, .u8, .ro, 1, .none⟩]

/-- Entries of the topology chapters. -/
def entriesTopology : List Entry := [
  ⟨0x3000, 1, 1, 0x01, 0x01, .u8, .rwl, 0, .rule⟩,
  ⟨0x3000, 1, 1, 0x02, 0x02, .u8, .rwl, 0, .rule⟩,
  ⟨0x3000, 1, 1, 0x03, 0x03, .u8, .rwl, 0, .rule⟩,
  ⟨0x3000, 1, 1, 0x04, 0x05, .u8, .ro, 0, .none⟩,
  ⟨0x3100, 1, 1, 0x01, 0x01, .u8, .ro, 1, .none⟩,
  ⟨0x3100, 1, 1, 0x02, 0x03, .u8, .ro, 0, .none⟩,
  ⟨0x3100, 1, 1, 0x04, 0x04, .u64, .rw, 0, .rule⟩,
  ⟨0x3100, 1, 1, 0x05, 0x05, .u32, .rw, 0, .rule⟩,
  ⟨0x3100, 1, 1, 0x06, 0x06, .u8, .rw, 73, .rule⟩,
  ⟨0x3100, 1, 1, 0x07, 0x07, .u8, .wo, 0, .rule⟩,
  ⟨0x3100, 1, 1, 0x08, 0x08, .u8, .rw, 0, .range 0 1⟩,
  ⟨0x3100, 1, 1, 0x10, 0x1B, .u64, .ro, 0, .none⟩,
  ⟨0x3110, 1, 1, 0x01, 0xFF, .u64, .rw, 0xFF, .rule⟩,
  ⟨0x3118, 1, 1, 0x01, 0xFF, .u64, .ro, 0xFF, .none⟩,
  ⟨0x3120, 1, 1, 0x01, 0x08, .u64, .rw, 0xFF, .rule⟩,
  ⟨0x3128, 1, 1, 0x01, 0x08, .u64, .ro, 0xFF, .none⟩,
  ⟨0x3130, 1, 1, 0x01, 0x20, .u64, .rw, 0xFFFF0000, .rule⟩,
  ⟨0x3138, 1, 1, 0x01, 0x20, .u64, .ro, 0xFFFF0000, .none⟩,
  ⟨0x3210, 24, 1, 0x01, 0x0C, .u16, .rw, 0, .rule⟩]

/-- Entries of the switch chapters. -/
def entriesSwitch : List Entry := [
  ⟨0x3300, 1, 1, 0x01, 0x01, .u16, .rw, 64, .range 1 5376⟩,
  ⟨0x3300, 1, 1, 0x02, 0x02, .u16, .rw, 256, .rule⟩,
  ⟨0x3300, 1, 1, 0x03, 0x03, .u16, .rw, 1024, .rule⟩,
  ⟨0x3300, 1, 1, 0x04, 0x04, .u8, .rw, 3, .range 0 3⟩,
  ⟨0x3300, 1, 1, 0x05, 0x05, .u32, .rw, 4194304, .range 65536 1073741824⟩,
  ⟨0x3300, 1, 1, 0x06, 0x06, .u8, .rw, 64, .range 2 64⟩,
  ⟨0x3300, 1, 1, 0x07, 0x07, .u8, .rw, 1, .range 0 1⟩,
  ⟨0x3300, 1, 1, 0x08, 0x09, .u16, .ro, 0, .none⟩,
  ⟨0x3300, 1, 1, 0x10, 0x18, .u64, .ro, 0, .none⟩,
  ⟨0x3301, 1, 1, 0x01, 0x10, .u8, .rw, 4, .rule⟩,
  ⟨0x3310, 24, 1, 0x01, 0x0B, .u64, .ro, 0, .none⟩,
  ⟨0x3400, 1, 1, 0x01, 0x01, .u16, .rw, 256, .range 0 1024⟩,
  ⟨0x3400, 1, 1, 0x02, 0x02, .u32, .rw, 2097152, .range 65536 67108864⟩,
  ⟨0x3400, 1, 1, 0x03, 0x03, .u32, .rw, 8388608, .rule⟩,
  ⟨0x3400, 1, 1, 0x04, 0x04, .u16, .ro, 8192, .none⟩,
  ⟨0x3400, 1, 1, 0x05, 0x05, .u16, .ro, 1024, .none⟩,
  ⟨0x3400, 1, 1, 0x06, 0x06, .u16, .ro, 4096, .none⟩,
  ⟨0x3400, 1, 1, 0x07, 0x07, .u8, .rw, 1, .range 0 1⟩,
  ⟨0x3400, 1, 1, 0x08, 0x08, .u32, .rwl, 0, .rule⟩,
  ⟨0x3400, 1, 1, 0x10, 0x1B, .u64, .ro, 0, .none⟩,
  ⟨0x3401, 1, 1, 0x01, 0x10, .u64, .rw, 0, .rule⟩,
  ⟨0x3402, 1, 1, 0x01, 0x01, .u16, .rw, 1024, .range 1 4096⟩,
  ⟨0x3402, 1, 1, 0x02, 0x02, .u16, .rw, 4, .rule⟩,
  ⟨0x3402, 1, 1, 0x03, 0x03, .u8, .rw, 32, .none⟩,
  ⟨0x3402, 1, 1, 0x04, 0x04, .u8, .rw, 64, .none⟩,
  ⟨0x3402, 1, 1, 0x05, 0x05, .u8, .rw, 128, .none⟩,
  ⟨0x3402, 1, 1, 0x06, 0x06, .u8, .rw, 1, .range 0 64⟩,
  ⟨0x3402, 1, 1, 0x07, 0x07, .u8, .rw, 1, .range 0 1⟩,
  ⟨0x3402, 1, 1, 0x08, 0x08, .u16, .ro, 1024, .none⟩,
  ⟨0x3402, 1, 1, 0x09, 0x0A, .u16, .ro, 4096, .none⟩,
  ⟨0x3402, 1, 1, 0x0B, 0x0B, .u8, .ro, 2, .none⟩,
  ⟨0x3402, 1, 1, 0x10, 0x19, .u64, .ro, 0, .none⟩,
  ⟨0x3500, 1, 1, 0x01, 0x01, .u8, .rw, 0, .rule⟩,
  ⟨0x3500, 1, 1, 0x02, 0x02, .u8, .wo, 0, .rule⟩,
  ⟨0x3500, 1, 1, 0x03, 0x03, .u8, .rw, 0xFF, .none⟩,
  ⟨0x3500, 1, 1, 0x04, 0x04, .u32, .rw, 1048576, .range 65536 67108864⟩,
  ⟨0x3500, 1, 1, 0x05, 0x05, .u32, .rw, 4194304, .rule⟩,
  ⟨0x3500, 1, 1, 0x06, 0x08, .u32, .ro, 0, .none⟩,
  ⟨0x3500, 1, 1, 0x10, 0x1E, .u64, .ro, 0, .none⟩,
  ⟨0x3501, 1, 1, 0x01, 0x10, .u64, .rwl, 0, .rule⟩]

/-- Entries of the time chapters. -/
def entriesTime : List Entry := [
  ⟨0x4000, 1, 1, 0x01, 0x01, .u8, .rw, 0, .rule⟩,
  ⟨0x4000, 1, 1, 0x02, 0x02, .u8, .rw, 0, .rule⟩,
  ⟨0x4000, 1, 1, 0x03, 0x03, .u32, .ro, 65536, .none⟩,
  ⟨0x4000, 1, 1, 0x04, 0x04, .u32, .rw, 65536, .rule⟩,
  ⟨0x4000, 1, 1, 0x05, 0x05, .u64, .rw, 0, .rule⟩,
  ⟨0x4000, 1, 1, 0x06, 0x06, .u64, .ro, 0, .none⟩,
  ⟨0x4000, 1, 1, 0x10, 0x13, .u8, .rw, 0xFF, .hole 24 0xFE 0xFF⟩,
  ⟨0x4000, 1, 1, 0x20, 0x20, .u32, .ro, 0xFFF00000, .none⟩,
  ⟨0x4000, 1, 1, 0x21, 0x21, .i32, .ro, 0, .none⟩,
  ⟨0x4000, 1, 1, 0x23, 0x23, .i32, .ro, 0, .none⟩,
  ⟨0x4000, 1, 1, 0x24, 0x24, .u8, .rw, 4, .range 0 64⟩,
  ⟨0x4000, 1, 1, 0x25, 0x25, .u32, .ro, 0, .none⟩,
  ⟨0x4010, 24, 1, 0x01, 0x01, .u32, .ro, 0xF00, .none⟩,
  ⟨0x4010, 24, 1, 0x02, 0x06, .u32, .ro, 0, .none⟩,
  ⟨0x4010, 24, 1, 0x07, 0x07, .u32, .ro, 0, .none⟩,
  ⟨0x4010, 24, 1, 0x08, 0x08, .i32, .ro, 0, .none⟩,
  ⟨0x4010, 24, 1, 0x09, 0x09, .u32, .ro, 0, .none⟩,
  ⟨0x4010, 24, 1, 0x0A, 0x0A, .i32, .ro, 0, .none⟩,
  ⟨0x4100, 1, 1, 0x01, 0x01, .u8, .ro, 1, .none⟩,
  ⟨0x4100, 1, 1, 0x02, 0x02, .u8, .ro, 0, .none⟩,
  ⟨0x4100, 1, 1, 0x03, 0x03, .u8, .rws, 0, .rule⟩,
  ⟨0x4100, 1, 1, 0x04, 0x04, .u8, .ro, 0xFF, .none⟩,
  ⟨0x4100, 1, 1, 0x05, 0x05, .u64, .rw, 0, .rule⟩,
  ⟨0x4100, 1, 1, 0x06, 0x06, .u32, .ro, 0, .none⟩,
  ⟨0x4100, 1, 1, 0x07, 0x08, .u64, .ro, 0, .none⟩,
  ⟨0x4100, 1, 1, 0x09, 0x09, .u32, .ro, 0, .none⟩,
  ⟨0x4101, 1, 1, 0x01, 0x01, .u8, .wo, 0, .rule⟩,
  ⟨0x4101, 1, 1, 0x02, 0x02, .blob 1048576, .wo, 0, .rule⟩,
  ⟨0x4101, 1, 1, 0x03, 0x03, .u8, .wo, 0, .rule⟩,
  ⟨0x4101, 1, 1, 0x04, 0x07, .u32, .ro, 0, .none⟩,
  ⟨0x4102, 1, 1, 0x01, 0x01, .u32, .rw, 0, .rule⟩,
  ⟨0x4102, 1, 1, 0x02, 0x02, .u64, .ro, 0, .none⟩,
  ⟨0x4110, 25, 1, 0x01, 0x06, .u64, .ro, 0, .none⟩]

/-- Entries of the compute chapters. -/
def entriesCompute : List Entry := [
  ⟨0x5000, 1, 1, 0x01, 0x02, .u8, .ro, 1, .none⟩,
  ⟨0x5000, 1, 1, 0x03, 0x03, .u8, .ro, 0, .none⟩,
  ⟨0x5000, 1, 1, 0x04, 0x04, .u16, .ro, 0, .none⟩,
  ⟨0x5000, 1, 1, 0x05, 0x05, .u32, .rwl, 131072, .rule⟩,
  ⟨0x5000, 1, 1, 0x06, 0x06, .u32, .rw, 1250000000, .range 1250000 4294967295⟩,
  ⟨0x5000, 1, 1, 0x07, 0x07, .u16, .ro, 0, .none⟩,
  ⟨0x5001, 1, 1, 0x01, 0x08, .u8, .rw, 0, .range 0 64⟩,
  ⟨0x5002, 1, 1, 0x01, 0x40, .u8, .rwl, 0x10, .rule⟩,
  ⟨0x5003, 1, 1, 0x01, 0x0A, .u64, .ro, 0, .none⟩,
  ⟨0x5004, 1, 1, 0x01, 0x01, .u64, .rw, 0, .none⟩,
  ⟨0x5004, 1, 1, 0x02, 0x02, .u32, .rw, 0, .range 0 4199680⟩,
  ⟨0x5004, 1, 1, 0x03, 0x03, .u8, .rw, 1, .range 1 2⟩,
  ⟨0x5004, 1, 1, 0x04, 0x04, .u8, .wo, 0, .rule⟩,
  ⟨0x5004, 1, 1, 0x05, 0x05, .u32, .ro, 0, .none⟩,
  ⟨0x5004, 1, 1, 0x06, 0x06, .u16, .wo, 0, .rule⟩,
  ⟨0x5005, 1, 1, 0x01, 0x01, .u32, .ro, 838860, .none⟩,
  ⟨0x5005, 1, 1, 0x02, 0x02, .u32, .ro, 0, .none⟩,
  ⟨0x5005, 1, 1, 0x10, 0x15, .u64, .ro, 0, .none⟩,
  ⟨0x5010, 64, 1, 0x01, 0x04, .u32, .ro, 0, .none⟩,
  ⟨0x5100, 1, 1, 0x01, 0x01, .u32, .rwl, 524288, .rule⟩,
  ⟨0x5100, 1, 1, 0x02, 0x02, .u16, .ro, 0, .none⟩,
  ⟨0x5100, 1, 1, 0x03, 0x03, .u16, .ro, 4096, .none⟩,
  ⟨0x5100, 1, 1, 0x10, 0x1C, .u64, .ro, 0, .none⟩,
  ⟨0x5101, 1, 1, 0x01, 0x04, .u64, .rw, 0x0001000100010001, .rule⟩,
  ⟨0x5104, 4, 1, 0x01, 0x01, .blob 131072, .rw, 0, .rule⟩,
  ⟨0x5120, 64, 1, 0x01, 0x01, .blob 64, .rw, 0, .rule⟩,
  ⟨0x5120, 64, 1, 0x02, 0x02, .u8, .wo, 0, .rule⟩,
  ⟨0x5120, 64, 1, 0x03, 0x03, .u32, .ro, 0, .none⟩,
  ⟨0x5120, 64, 1, 0x04, 0x06, .blob 1024, .ro, 0, .none⟩,
  ⟨0x5160, 16, 1, 0x01, 0x01, .blob 64, .rwl, 0, .rule⟩,
  ⟨0x5160, 16, 1, 0x02, 0x02, .u8, .rw, 0, .rule⟩,
  ⟨0x5160, 16, 1, 0x03, 0x03, .u32, .ro, 0, .none⟩]

/-- Entries of the memory chapters. -/
def entriesMemory : List Entry := [
  ⟨0x5200, 1, 1, 0x01, 0x01, .u16, .ro, 16384, .none⟩,
  ⟨0x5200, 1, 1, 0x02, 0x02, .u8, .ro, 0, .none⟩,
  ⟨0x5200, 1, 1, 0x03, 0x03, .u16, .ro, 0, .none⟩,
  ⟨0x5200, 1, 1, 0x04, 0x04, .u8, .ro, 0, .none⟩,
  ⟨0x5200, 1, 1, 0x05, 0x05, .u8, .wo, 0, .rule⟩,
  ⟨0x5200, 1, 1, 0x06, 0x06, .u32, .ro, 0, .none⟩,
  ⟨0x5200, 1, 1, 0x10, 0x1B, .u64, .ro, 0, .none⟩,
  ⟨0x5201, 1, 1, 0x01, 0x01, .u32, .rws, 0, .rule⟩,
  ⟨0x5201, 1, 1, 0x02, 0x04, .u64, .ro, 0, .none⟩,
  ⟨0x5300, 1, 1, 0x01, 0x01, .u8, .ro, 0, .none⟩,
  ⟨0x5300, 1, 1, 0x02, 0x02, .u8, .rw, 1, .range 0 1⟩,
  ⟨0x5300, 1, 1, 0x03, 0x03, .u8, .ro, 1, .none⟩,
  ⟨0x5300, 1, 1, 0x04, 0x04, .u64, .ro, 0, .none⟩,
  ⟨0x5300, 1, 1, 0x05, 0x05, .u32, .ro, 0, .none⟩,
  ⟨0x5300, 1, 1, 0x06, 0x06, .u8, .rw, 1, .range 0 1⟩,
  ⟨0x5300, 1, 1, 0x10, 0x1A, .u64, .ro, 0, .none⟩,
  ⟨0x5301, 1, 1, 0x01, 0x10, .u8, .rws, 0x10, .hole 0x11 0xFE 0xFF⟩,
  ⟨0x5310, 32, 1, 0x01, 0x04, .u32, .ro, 0, .none⟩,
  ⟨0x5310, 32, 1, 0x05, 0x0C, .u64, .ro, 0, .none⟩]

/-- Entries of the security chapters. -/
def entriesSecurity : List Entry := [
  ⟨0x6000, 1, 1, 0x01, 0x01, .u32, .ro, 0, .none⟩,
  ⟨0x6000, 1, 1, 0x02, 0x04, .blob 65536, .ro, 0, .none⟩,
  ⟨0x6000, 1, 1, 0x10, 0x16, .u64, .ro, 0, .none⟩,
  ⟨0x6001, 1, 1, 0x01, 0x01, .blob 256, .rws, 0, .rule⟩,
  ⟨0x6002, 1, 1, 0x01, 0x01, .blob 65536, .ro, 0, .none⟩,
  ⟨0x6003, 1, 1, 0x01, 0x10, .blob 64, .rws, 0, .rule⟩,
  ⟨0x6004, 1, 1, 0x01, 0x01, .u64, .rw, 0, .none⟩,
  ⟨0x6004, 1, 1, 0x02, 0x02, .u32, .rw, 0, .range 0 268435456⟩,
  ⟨0x6004, 1, 1, 0x03, 0x03, .u8, .rw, 0, .range 0 15⟩,
  ⟨0x6004, 1, 1, 0x04, 0x04, .u8, .wo, 0, .rule⟩,
  ⟨0x6004, 1, 1, 0x05, 0x05, .u32, .ro, 0, .none⟩,
  ⟨0x6006, 1, 1, 0x01, 0x01, .blob 8388608, .rws, 0, .rule⟩,
  ⟨0x6020, 1, 1, 0x01, 0x01, .blob 65536, .rws, 0, .rule⟩,
  ⟨0x6020, 1, 1, 0x02, 0x02, .blob 65536, .rws, 0, .rule⟩,
  ⟨0x6020, 1, 1, 0x03, 0x03, .u16, .rw, 600, .range 1 3600⟩,
  ⟨0x6030, 1, 1, 0x01, 0x01, .u8, .rws, 0xFF, .hole 0x10 0xFE 0xFF⟩,
  ⟨0x6031, 1, 1, 0x01, 0x10, .u8, .rws, 1, .rule⟩,
  ⟨0x6040, 24, 1, 0x01, 0x01, .u32, .ro, 0, .none⟩,
  ⟨0x6040, 24, 1, 0x02, 0x06, .u64, .ro, 0, .none⟩]

/-- Entries of the monitor chapters. -/
def entriesMonitor : List Entry := [
  ⟨0x7000, 1, 1, 0x01, 0x10, .u32, .ro, 0, .none⟩,
  ⟨0x7010, 1, 1, 0x01, 0x30, .u32, .ro, 0, .none⟩,
  ⟨0x7011, 1, 1, 0x01, 0x20, .u32, .ro, 0, .none⟩,
  ⟨0x7012, 1, 1, 0x01, 0x18, .u32, .ro, 0, .none⟩,
  ⟨0x7013, 1, 1, 0x01, 0x04, .u64, .ro, 0, .none⟩,
  ⟨0x7100, 1, 1, 0x01, 0x06, .u64, .ro, 0, .none⟩,
  ⟨0x7101, 1, 1, 0x01, 0x02, .u8, .rw, 1, .range 0 1⟩,
  ⟨0x7101, 1, 1, 0x03, 0x03, .u32, .rw, 4194304, .range 65536 1073741824⟩,
  ⟨0x7101, 1, 1, 0x04, 0x04, .u8, .rw, 1, .range 0 1⟩,
  ⟨0x7101, 1, 1, 0x10, 0x17, .u64, .ro, 0, .none⟩,
  ⟨0x7102, 1, 1, 0x01, 0x01, .u32, .wo, 0, .rule⟩,
  ⟨0x7102, 1, 1, 0x02, 0x02, .u32, .rws, 0, .rule⟩,
  ⟨0x7102, 1, 1, 0x03, 0x03, .u32, .ro, 0, .none⟩,
  ⟨0x7103, 1, 1, 0x01, 0x09, .u64, .ro, 0, .none⟩,
  ⟨0x7120, 1, 1, 0x01, 0x01, .u8, .rw, 0, .range 0 1⟩,
  ⟨0x7120, 1, 1, 0x02, 0x02, .u64, .rw, 0, .rule⟩,
  ⟨0x7120, 1, 1, 0x03, 0x04, .u32, .ro, 0, .none⟩,
  ⟨0x7120, 1, 1, 0x05, 0x07, .blob 65536, .ro, 0, .none⟩,
  ⟨0x7120, 1, 1, 0x08, 0x08, .blob 512, .rw, 0, .rule⟩,
  ⟨0x7120, 1, 1, 0x09, 0x09, .u64, .rw, 0, .rule⟩,
  ⟨0x7120, 1, 1, 0x10, 0x16, .u64, .ro, 0, .none⟩,
  ⟨0x7200, 1, 1, 0x01, 0x01, .u8, .rw, 95, .range 60 105⟩,
  ⟨0x7200, 1, 1, 0x02, 0x02, .u8, .rw, 70, .range 50 75⟩,
  ⟨0x7200, 1, 1, 0x03, 0x03, .u16, .rw, 1400, .range 600 1450⟩,
  ⟨0x7200, 1, 1, 0x04, 0x04, .u8, .rw, 0, .range 0 4⟩,
  ⟨0x7200, 1, 1, 0x05, 0x05, .u8, .rw, 0x7F, .rule⟩,
  ⟨0x7200, 1, 1, 0x06, 0x06, .u32, .ro, 0, .none⟩,
  ⟨0x7200, 1, 1, 0x07, 0x07, .u8, .ro, 110, .none⟩,
  ⟨0x7200, 1, 1, 0x08, 0x08, .u8, .ro, 85, .none⟩,
  ⟨0x7200, 1, 1, 0x10, 0x18, .u64, .ro, 0, .none⟩]

/-- Every entry of the dictionary. -/
def entries : List Entry :=
  entriesIdentity ++ entriesPort ++ entriesTopology ++ entriesSwitch ++ entriesTime ++ entriesCompute ++ entriesMemory ++ entriesSecurity ++ entriesMonitor

/-- Does the row hold the entry? -/
def Entry.holds (e : Entry) (index sub : Nat) : Bool :=
  decide (e.index ≤ index) && decide ((index - e.index) % e.stride = 0) && decide ((index - e.index) / e.stride < e.count)
    && decide (e.lo ≤ sub) && decide (sub ≤ e.hi)

/-- The row of an entry; none where the entry does not exist (R388). -/
def findEntry (index sub : Nat) : Option Entry := entries.find? (fun e => e.holds index sub)

/-- Does some row hold the index? -/
def indexExists (index : Nat) : Bool :=
  entries.any (fun e => decide (e.index ≤ index) && decide ((index - e.index) % e.stride = 0)
    && decide ((index - e.index) / e.stride < e.count))

/-- The highest sub-index of an index whose entries begin at sub-index 01 (R384). -/
def highestSub (index : Nat) : Nat :=
  (entries.filter (fun e => decide (e.index ≤ index) && decide ((index - e.index) % e.stride = 0)
    && decide ((index - e.index) / e.stride < e.count))).foldl (fun m e => max m e.hi) 0

/-- Key of an entry in the store. -/
def odKey (index sub : Nat) : Nat := index * 256 + sub

/-- The default of an entry, by its key. -/
def odDefault (key : Nat) : Nat :=
  match findEntry (key / 256) (key % 256) with
  | some e => e.dflt
  | none => 0

/-- Bytes of a fixed-size type. -/
def Ty.size : Ty → Option Nat
  | .u8 => some 1
  | .u16 => some 2
  | .u32 => some 4
  | .u64 => some 8
  | .i32 => some 4
  | .f32 => some 4
  | .str _ => none
  | .blob _ => none

/-- TYPE of an image record (R410). -/
def Ty.code : Ty → Nat
  | .u8 => 0
  | .u16 => 1
  | .u32 => 2
  | .u64 => 3
  | .i32 => 4
  | .f32 => 5
  | .str _ => 6
  | .blob _ => 7

/-- The value a plain clamp keeps. -/
def Clamp.keep : Clamp → Nat → Nat
  | .none, v => v
  | .range lo hi, v => clampTo lo hi v
  | .only x, _ => x
  | .hole lo hi dst, v => if lo ≤ v ∧ v ≤ hi then dst else v
  | .rule, v => v

/-- Entries that are not storable (R409, R443). -/
def unstored (index sub : Nat) : Bool :=
  (index == 0x3000 && sub ≤ 3) || (index == 0x3100 && 4 ≤ sub && sub ≤ 8) || index == 0x3110 || index == 0x3120 || index == 0x3130
    || (index == 0x4000 && sub == 5) || (index == 0x4100 && sub == 5) || (index == 0x3500 && sub == 1)
    || (decide (0x5120 ≤ index) && decide (index < 0x5160) && sub == 1)
    || (decide (0x5160 ≤ index) && decide (index < 0x5170) && sub == 2)
    || (index == 0x5004 && sub ≤ 3) || (index == 0x4102 && sub == 1) || (index == 0x5201 && sub == 1)
    || (index == 0x6001 || index == 0x6003 || (index == 0x6020 && sub ≤ 2))
    || (index == 0x7120 && (sub == 1 || sub == 2 || sub == 8 || sub == 9))

/-- Is the entry storable (R409)? -/
def storable (e : Entry) (index sub : Nat) : Bool :=
  match e.acc with
  | .ro | .wo => false
  | .rw | .rws | .rwl => !unstored index sub

end Sys2Proof.Machine
end

