-- ==== Sys2Proof/Machine/Ops.lean ====
section
/-!
DEFINITION. The named operations that the commands share: entries and counters, outputs, free values, the outcome of
a dictionary operation, the clamp report, host interrupt causes, the event log and the cyclic checks.
-/

namespace Sys2Proof.Machine

open Sys2Proof

/-! ### Ports -/

/-- Port `p`. -/
def State.port (s : State) (p : PortN) : Port := s.ports[p]

/-- Change port `p`. -/
def modPort (p : PortN) (f : Port → Port) (s : State) : State :=
  { s with ports := s.ports.set p (f s.ports[p]) }

/-- Fold over the 24 ports. -/
def forPorts (f : PortN → State → State) (s : State) : State :=
  (List.finRange 24).foldl (fun t p => f p t) s

/-- The index of a port's entries: 2000h + 10h·n. -/
def portIndex (p : PortN) (k : Nat) : Nat := 0x2000 + 16 * p.val + k

/-! ### Entries and counters -/

/-- The value of an entry held in the store. -/
def odGet (s : State) (index sub : Nat) : Nat :=
  (mapGet s.dict.od (odKey index sub)).getD (odDefault (odKey index sub))

/-- Hold a value in an entry. -/
def odSet (index sub v : Nat) (s : State) : State :=
  { s with dict := { s.dict with od := mapSet s.dict.od (odKey index sub) v } }

/-- Add to a counter, saturating at `2^w − 1`. -/
def bumpBy (index sub n w : Nat) (s : State) : State :=
  odSet index sub (min (2 ^ w - 1) (odGet s index sub + n)) s

/-- Count one in a U64 counter. -/
def bump (index sub : Nat) (s : State) : State := bumpBy index sub 1 64 s

/-- Count `n` in a U64 counter. -/
def bumpN (index sub n : Nat) (s : State) : State := bumpBy index sub n 64 s

/-- The contents of a BLOB entry. -/
def blobGet (s : State) (index sub : Nat) : Bytes := mapGetD s.dict.blobs (odKey index sub) []

/-- Hold a BLOB entry. -/
def blobSet (index sub : Nat) (b : Bytes) (s : State) : State :=
  { s with dict := { s.dict with blobs := mapSet s.dict.blobs (odKey index sub) b } }

/-! ### Outputs and free values -/

/-- Send one thing out of the block. -/
def emit (o : Out) (s : State) : State := { s with sent := o :: s.sent }

/-- The next free value, of `w` bits (assumption 4). -/
def nextFree (s : State) (w : Nat) : Nat := Config.freeValue s.free % 2 ^ w

/-- A free value has been drawn. -/
def drawn (s : State) : State := { s with free := s.free + 1 }

/-! ### Progress of the lantern's nodes (R455) -/

/-- The number of a node. -/
def nodeKey : Node → Nat
  | .voq i o v t => 16 * (((i * 32 + o) * 16 + v) * 32 + t)
  | .credit p v => 16 * (p * 16 + v) + 1
  | .partner p v => 16 * (p * 16 + v) + 2
  | .intake => 3
  | .sink => 4
  | .directory => 5
  | .answers => 6
  | .stream k e => 16 * (k * 4 + e) + 7
  | .copy k => 16 * k + 8

/-- The progress count of a node. -/
def progressOf (s : State) (n : Node) : Nat := mapGetD s.lantern.progress (nodeKey n) 0

/-- A node has completed a cell, request, instruction or line. -/
def progress (n : Node) (s : State) : State :=
  { s with lantern := { s.lantern with progress := mapSet s.lantern.progress (nodeKey n) (progressOf s n + 1) } }

/-! ### Identity -/

/-- Committed: OD 3000.03 is 1. -/
def assigned (s : State) : Bool := odGet s 0x3000 3 == 1

/-- The own coordinate g.s.p in address form (R16); the unassigned marker before the commit (R20). -/
def coord (s : State) (p : Nat) : BitVec 16 :=
  if assigned s then BitVec.ofNat 16 (odGet s 0x3000 1 * 256 + odGet s 0x3000 2 * 32 + p) else 0xFFFF

/-- The group of a coordinate. -/
def coordG (c : BitVec 16) : Nat := c.toNat / 256

/-- The index of a coordinate. -/
def coordS (c : BitVec 16) : Nat := c.toNat / 32 % 8

/-- The port number of a coordinate. -/
def coordP (c : BitVec 16) : Nat := c.toNat % 32

/-- Is the coordinate one of this GV24? -/
def ownGv (s : State) (c : BitVec 16) : Bool :=
  assigned s && coordG c == odGet s 0x3000 1 && coordS c == odGet s 0x3000 2

/-- Role of a port: 0 disabled, 1 end-point, 2 local, 3 global (R14). -/
def role (s : State) (p : PortN) : Nat := odGet s (portIndex p 0) 1

/-- Medium of a port: 0 electrical, 1 optical (R14). -/
def medium (s : State) (p : PortN) : Nat := odGet s (portIndex p 0) 2

/-- Isolation mode (R231). -/
def isolated (s : State) : Bool := odGet s 0x4100 3 == 1

/-! ### Time in milliseconds -/

/-- Ticks of one millisecond. -/
def msTicks : Nat := 1250000

/-! ### The outcome of a dictionary operation (R398) -/

/-- An operation begins: its outcome so far is done. -/
def beginOp (s : State) : State :=
  { s with dict := { s.dict with status := 0, abort := 0, clampCount := 0 } }

/-- The operation ends with STATUS and abort code. -/
def endOp (status abort : Nat) (s : State) : State :=
  { s with dict := { s.dict with status := status, abort := abort, clampCount := 0 } }

/-- Refused: an RWL entry whose condition does not hold. -/
def refuseCondition (s : State) : State := endOp 2 0x08000022 s

/-- Refused by the entry's own rule. -/
def refuseRule (s : State) : State := endOp 2 0x08000020 s

/-- SOURCE of R404. -/
def routeCode : Route → Nat
  | .can => 1
  | .mailbox => 2
  | .secured => 3
  | .restore => 4
  | .rtd => 5

/-! ### Host interrupt causes (R381, R382) -/

/-- A vector is masked: the function mask, or the mask bit of its table entry, which is set at reset (R382). -/
def vectorMasked (s : State) (vector : Nat) : Bool := s.host.msixMask || bit (mapGetD s.host.vectors vector (2 ^ 96)) 96

/-- The BARs are decoded: the PCI Express link is up and the function is in D0 (R368, R491). -/
def barOpen (s : State) : Bool := s.host.linkUp && !s.host.d3hot

/-- A BAR0 write of the host reaches the function. -/
def barWrite (f : State → State) (s : State) : State := if barOpen s then f s else s

/-- Signal a vector: one MSI-X message while MSI-X is enabled and the function is in D0 with its link up (R368); a masked
vector's pending bit is set. -/
def signal (vector : Nat) (s : State) : State :=
  if !barOpen s || !s.host.msixOn then s
  else if vectorMasked s vector then
    (if s.host.msixPending.contains vector then s
     else { s with host := { s.host with msixPending := s.host.msixPending ++ [vector] } })
  else emit (.msix vector) s

/-- A fixed cause occurs: its bit is set, and its vector is signalled when the bit changes from 0 to 1 while enabled. -/
def raiseCause (n : Fin 64) (s : State) : State :=
  if s.host.cause.getLsb n then s
  else
    let t := { s with host := { s.host with cause := s.host.cause ||| (1#64 <<< n.val) } }
    if s.host.enable.getLsb n then signal n.val t else t

/-- Count a BAR0 write ignored: HST_IGNORED, 32 bits, saturating (R373). -/
def countIgnored (s : State) : State :=
  { s with host := { s.host with ignored := min (2 ^ 32 - 1) (s.host.ignored + 1) } }

/-! ### The clamp report (R404) -/

/-- Add a record to the clamp report: the oldest of 1,024 makes room and is counted. -/
def report (src : Route) (index sub place kind original clamped : Nat) (s : State) : State :=
  let full := 1024 ≤ s.dict.clamps.length
  let s := if full then bump 0x1F00 3 s else s
  let seq := s.dict.clampSeq + 1
  let r : ClampRec :=
    { seq := seq, index := index, sub := sub, source := routeCode src, place := place, kind := kind,
      original := original, clamped := clamped, ft := s.time.ft }
  let old := if full then s.dict.clamps.drop 1 else s.dict.clamps
  raiseCause 9 { s with dict := { s.dict with clamps := old ++ [r], clampSeq := seq } }

/-- A clamp of a write that goes on: reported, and the write's outcome is written with a clamp. -/
def clamped (src : Route) (index sub place original kept : Nat) (s : State) : State :=
  let s := report src index sub place 1 original kept s
  { s with dict := { s.dict with status := 1, clampCount := s.dict.clampCount + 1 } }

/-- A record dropped or skipped by a write that goes on. -/
def noted (src : Route) (index sub place kind original : Nat) (s : State) : State :=
  let s := report src index sub place kind original 0 s
  { s with dict := { s.dict with status := 1, clampCount := s.dict.clampCount + 1 } }

/-- PLACE of a whole scalar of `w` bits (R404). -/
def scalarPlace (w : Nat) : Nat := (w - 1) * 256

/-- Keep a scalar of `w` bits under its clamp, reporting the clamp where the value written is not legal. -/
def keepScalar (src : Route) (index sub w v kept : Nat) (s : State) : State :=
  let s := odSet index sub kept s
  if kept = v then s else clamped src index sub (scalarPlace w) v kept s

/-- A WO scalar for which only 1 is legal: report the clamp of any other value. -/
def onlyOne (src : Route) (index sub v : Nat) (s : State) : State :=
  if v = 1 then s else clamped src index sub (scalarPlace 8) v 1 s

/-- The arm tick kept by R55: a multiple of `m`, and 0 where it is not 1,024 ticks ahead. -/
def armTick (ft m v : Nat) : Nat := if v < ft + 1024 ∨ 2 ^ 64 ≤ ceilTo m v then 0 else ceilTo m v

/-- A value under clamping and the records so far: PLACE, ORIGINAL, CLAMPED. -/
abbrev Clamping := Nat × List (Nat × Nat × Nat)

/-- Keep `new` in the field of `w` bits at `lo`, noting a clamp. -/
def clampField (lo w new : Nat) (a : Clamping) : Clamping :=
  let old := bits a.1 lo w
  if old = new then a else (a.1 - old * 2 ^ lo + new * 2 ^ lo, a.2 ++ [((w - 1) * 256 + lo, old, new)])

/-- Report the clamps of a write. -/
def reportClamps (src : Route) (index sub : Nat) (l : List (Nat × Nat × Nat)) (s : State) : State :=
  l.foldl (fun s r => clamped src index sub r.1 r.2.1 r.2.2 s) s

/-- A scalar clamped in two steps: each step that changes it makes a record (R403). -/
def keepTwo (src : Route) (index sub w v first second : Nat) (s : State) : State :=
  let s := odSet index sub second s
  let s := if first = v then s else clamped src index sub (scalarPlace w) v first s
  if second = first then s else clamped src index sub (scalarPlace w) first second s

/-- Report the arm tick's clamp and keep it. -/
def keepArm (src : Route) (index sub v kept : Nat) (s : State) : State :=
  let s := odSet index sub kept s
  if kept = v then s else clamped src index sub (scalarPlace 64) v kept s

/-- Access of the caller to an RWS entry (R386): only a secured write, or a restore (R413), passes. -/
def secure (src : Route) : Bool :=
  match src with
  | .secured | .restore => true
  | .can | .mailbox | .rtd => false

/-! ### The event log (R449–R453) -/

/-- Classes (R449). -/
inductive Class where
  | note | corrected | error | fatal
  deriving DecidableEq, Repr

/-- The class code. -/
def Class.code : Class → Nat
  | .note => 0
  | .corrected => 1
  | .error => 2
  | .fatal => 3

/-- The class of an event code (R451, R504); 5101h is ERROR for a SPLIT and 7005h is NOTE on restoration. -/
def eventClass (code : Nat) (detail : List Nat) : Class :=
  if code ∈ [0x1001, 0x2001, 0x2005, 0x4001, 0x5001, 0x7111, 0x7120, 0x7130, 0x7201] then .note
  else if code ∈ [0x5301, 0x7101] then .corrected
  else if code ∈ [0x5303, 0x6001, 0x7103, 0x7122, 0x7123, 0x7003, 0x7202, 0x7204] then .fatal
  else if code = 0x5101 then (if detail.getD 3 0 = 1 then .error else .note)
  else if code = 0x7005 then (if detail.getD 0 0 = 1 then .fatal else .note)
  else .error

/-- Records move to FRAM, which holds the newest 8,064 (R452). -/
def flushLog (s : State) : State :=
  let all := s.log.fram ++ s.log.pending
  { s with log := { s.log with fram := all.drop (all.length - 8064), pending := [] } }

/-- A FATAL event is open. -/
def fatalOpen (s : State) : Bool := s.log.opened.any (fun e => e.2 == 3)

/-- A monitor outside its limits (R498). -/
def voltBad (s : State) : Bool := !s.pwr.warn.isEmpty || !s.pwr.low.isEmpty

/-- A port in fault, for error register bit 4: role mismatch or duplicate coordinate, a failed lane, or a hold time
that ran out (assumption 12). -/
def portFault (p : Port) : Bool :=
  p.status == 2 || p.status == 4 || p.holdExpired || p.lanes.any (fun l => l.failed)

/-- The error register OD 1001.00 (R396). -/
def errorRegister (s : State) : Nat :=
  let r := flag (voltBad s) 2 + flag (decide (0 < s.pwr.level) || s.pwr.tripped) 3 + flag (s.ports.any portFault) 4
    + flag (!s.log.opened.isEmpty) 7
  if r = 0 then 0 else r + 1

/-- EMCY error code of an event (R396). -/
def emcyCode (code : Nat) : Nat :=
  if code ∈ [0x7002, 0x7003, 0x7204] then 0x3000
  else if code ∈ [0x7001, 0x7004, 0x7202, 0x7201] then 0x4000
  else if code / 0x1000 = 2 then 0x8100
  else 0xFF00

/-- Does the node take part on the bus and may it send EMCY (R392, R394)? -/
def canSpeaks (s : State) : Bool := s.can.node != 0 && (s.can.nmt == 5 || s.can.nmt == 0x7F)

/-- Send one EMCY unless the inhibit time runs (R396). -/
def emcy (err code seq : Nat) (s : State) : State :=
  if canSpeaks s then
    let free := match s.can.lastEmcy with
      | none => true
      | some t => decide (t + odGet s 0x1100 4 * msTicks ≤ s.time.ft)
    if free then
      let s := bump 0x1100 0x11 (bump 0x1100 0x17 s)
      emit (.can (0x80 + s.can.node) (natLe 2 err ++ natLe 1 (errorRegister s) ++ natLe 2 code ++ natLe 4 seq))
        { s with can := { s.can with lastEmcy := some s.time.ft } }
    else bump 0x1100 0x18 s
  else s

/-- Conditions of `ALERT_L` (R505). -/
def alertConditions (s : State) : Nat :=
  flag (decide (0 < s.pwr.thermal)) 0 + flag (decide (0 < s.pwr.powerLevel)) 1 + flag (!s.pwr.warn.isEmpty) 2
    + flag (!s.pwr.hot.isEmpty) 3 + flag (fatalOpen s) 4 + flag s.pwr.tripped 5 + flag s.pwr.clockLost 6

/-- The pin `ALERT_L` is asserted (R505). -/
def alertAsserted (s : State) : Bool := (alertConditions s &&& odGet s 0x7200 5) != 0

/-- Look at the conditions once more: one that has arisen sets cause ALERT, and an error register that has returned
to 0 sends the EMCY of R396. -/
def lookAlert (s : State) : State :=
  let now := alertConditions s
  let arisen := indices 7 (fun i => now.testBit i && !s.pwr.alertSeen.testBit i)
  let s := { s with pwr := { s.pwr with alertSeen := now } }
  let s := if arisen.isEmpty then s else raiseCause 2 s
  let e := errorRegister s
  let s := if e = 0 ∧ s.can.reported ≠ 0 then emcy 0 0 0 s else s
  { s with can := { s.can with reported := e } }

/-- Record an event (R449, R453). `tenant` is 255 where none is concerned. A CORRECTED event is recorded at most once a
second for its code and source, the first DETAIL item. -/
def event (code tenant : Nat) (detail : List Nat) (s : State) : State :=
  let cls := eventClass code detail
  let src := code * 65536 + detail.getD 0 0
  let recent := match mapGet s.log.corrected src with
    | some t => decide (s.time.ft < t + 1250000000)
    | none => false
  if cls = .corrected ∧ recent = true then bump 0x7100 6 s
  else if 64 ≤ s.log.pending.length then bump 0x7100 5 s
  else
    let seq := s.log.seq + 1
    let r : EventRec :=
      { seq := seq, code := code, cls := cls.code, tenant := tenant, ft := s.time.ft, detail := detail }
    let serious := cls = .error ∨ cls = .fatal
    let s := { s with log := { s.log with
      pending := s.log.pending ++ [r], seq := seq,
      opened := if serious then s.log.opened ++ [(seq, cls.code)] else s.log.opened,
      corrected := if cls = .corrected then mapSet s.log.corrected src s.time.ft else s.log.corrected } }
    let s := bump 0x7100 4 s
    let s := if 16 ≤ s.log.pending.length then flushLog s else s
    let s := if serious then emcy (emcyCode code) code seq (raiseCause 1 s) else s
    let s := if cls = .fatal then emit (.aer "Uncorrectable Internal Error") s else s
    lookAlert s

/-- An event that concerns no tenant. -/
def log (code : Nat) (detail : List Nat) (s : State) : State := event code 255 detail s

/-! ### CRC-64 (R98) and CRC-32C -/

/-- One byte of a reflected CRC: bits least significant first, with the polynomial's bits reversed. -/
def crcByte {w : Nat} (poly c : BitVec w) (b : Byte) : BitVec w :=
  (List.range 8).foldl (fun c i => if c.getLsbD 0 != b.getLsbD i then (c >>> 1) ^^^ poly else c >>> 1) c

/-- CRC-64 with the parameters of R98. -/
def crc64 (b : Bytes) : BitVec 64 := ~~~(b.foldl (crcByte 0xC96C5795D7870F42#64) (BitVec.allOnes 64))

/-- CRC-32C: polynomial 1EDC_6F41h, reflected, initial value and final XOR all ones (assumption 6). -/
def crc32c (b : Bytes) : BitVec 32 := ~~~(b.foldl (crcByte 0x82F63B78#32) (BitVec.allOnes 32))

end Sys2Proof.Machine
end

