-- ==== Sys2Proof/Machine/Contexts.lean ====
section
/-!
DEFINITION. Context slots (R252, R253): access to their state, and the stop of a context by a fault (R273, R274).
-/

namespace Sys2Proof.Machine

open Sys2Proof

/-- Key of a context slot. -/
def ctxKey (core : CoreN) (slot : SlotN) : Nat := core.val * 4 + slot.val

/-- The slot with a key. -/
def ctxAt (s : State) (k : Nat) : Ctx := mapGetD s.cmp.ctxs k {}

/-- Replace a slot. -/
def setCtx (k : Nat) (c : Ctx) (s : State) : State :=
  { s with cmp := { s.cmp with ctxs := mapSet s.cmp.ctxs k c } }

/-- Change a slot. -/
def modCtx (k : Nat) (f : Ctx → Ctx) (s : State) : State := setCtx k (f (ctxAt s k)) s

/-- A stream of a context. -/
def streamOf (c : Ctx) (e : Nat) : Stream := c.streams.toList.getD e {}

/-- Change a stream of a slot. -/
def modStream (k e : Nat) (f : Stream → Stream) (s : State) : State :=
  modCtx k (fun c => { c with streams := c.streams.setIfInBounds e (f (streamOf c e)) }) s

/-- A field of the descriptor a context was created with (R252). -/
def descField (c : Ctx) (i n : Nat) : Nat := fieldAt c.desc i n

/-- PASID of a context. -/
def ctxPasid (c : Ctx) : Nat := descField c 0 3 % 2 ^ 20

/-- STREAMS of a context. -/
def ctxStreams (c : Ctx) : Nat := descField c 4 1 % 16

/-- Gang number of a context; 0 is none. -/
def ctxGang (c : Ctx) : Nat := descField c 32 2

/-- SCOPE_STOP. -/
def ctxScopeStop (c : Ctx) : Bool := bit (descField c 6 1) 0

/-- Slots in use. -/
def liveSlots (s : State) : List (Nat × Ctx) := s.cmp.ctxs.filter (fun e => e.2.state != .free)

/-- A stream waits at a gang barrier. -/
def atGang (x : Stream) : Bool :=
  match x.wait with
  | .barG _ => true
  | _ => false

/-- The fault codes of R274. -/
def fIllegal : Nat := 1
def fSpRange : Nat := 2
def fAlign : Nat := 3
def fSpace : Nat := 4
def fXlate : Nat := 5
def fPerm : Nat := 6
def fAccRange : Nat := 7
def fResidue : Nat := 8
def fMemErr : Nat := 9
def fFabricErr : Nat := 10
def fTimeout : Nat := 11
def fScope : Nat := 12
def fGangLost : Nat := 13
def fDesc : Nat := 14
def fKernel : Nat := 15

/-- A context enters FAULTED: it takes no more instructions, its copies are cancelled and the fault is recorded. -/
def enterFaulted (k code detail : Nat) (s : State) : State :=
  let c := ctxAt s k
  if c.state = .running ∨ c.state = .suspended then
    event 0x5001 c.tenant [k / 4, k % 4, code] (bump 0x5003 2 <| (if code = fIllegal then bump 0x5003 0x0A else id)
      (setCtx k { c with state := .faulted, fault := code, detail := detail, status := 1, copies := [], recorded := false } s))
  else s

/-- The gang of a context has lost it: streams waiting at `bar.g` take GANG_LOST, and later ones will (R273). -/
def loseGang (k : Nat) (s : State) : State :=
  let g := ctxGang (ctxAt s k)
  if g = 0 then s
  else
    let mates := (liveSlots s).filter (fun e => e.1 != k && ctxGang e.2 == g)
    mates.foldl (fun s e =>
      let waits := e.2.streams.toList.any atGang
      let s := modCtx e.1 (fun c => { c with gangLost := true }) s
      if waits then enterFaulted e.1 fGangLost 0 s else s) s

/-- A fault of a context (R274). -/
def ctxFault (k code detail : Nat) (s : State) : State := loseGang k (enterFaulted k code detail s)

/-- A scope fault of a context (R270): SCOPE_SEEN, and fault SCOPE under SCOPE_STOP. -/
def ctxScope (k addr : Nat) (s : State) : State :=
  let s := bump 0x5003 5 (modCtx k (fun c => { c with scopeSeen := true }) s)
  if ctxScopeStop (ctxAt s k) then ctxFault k fScope addr s else s

/-! ### WAIT records (R257) -/

/-- The test of a WAIT: 0 equal, 1 not equal, 2 unsigned greater or equal. -/
def waitPasses (test : Nat) (value mask word : BitVec 64) : Bool :=
  let m := word &&& mask
  if test = 0 then m == value else if test = 1 then m != value else decide (value.toNat ≤ m.toNat)

/-- A poll has read the line that holds the word: the command has nothing more to do where the test passes. -/
def pollAnswer (k : Nat) (line : Bytes) (s : State) : State :=
  modCtx k (fun c => match c.doing with
    | .wait _ test _ addr value mask _ =>
      if waitPasses test value mask (BitVec.ofNat 64 (fieldAt line (addr.toNat % 128) 8)) then { c with doing := .nop } else c
    | .none => c
    | .run _ _ => c
    | .copy => c
    | .nop => c) s

end Sys2Proof.Machine
end

