-- ==== Sys2Proof/Machine/Lanes.lean ====
section
/-!
DEFINITION. The lanes of an engine (R263, R264, R283–R296): registers, predicates, and the instructions that act on
registers and accumulators only. An instruction is issued by a stream that is ready (R254); an encoding that R264 and
R285–R294 do not allow raises ILLEGAL.
-/

namespace Sys2Proof.Machine

open Sys2Proof

/-! ### Registers (R263) -/

/-- A lane of a vector register. -/
def vLane (x : Stream) (r : BitVec 5) (lane : Nat) : Nat := ((mapGetD x.v r.toNat []).getD lane 0).toNat

/-- A scalar register; s0 reads 0. -/
def sReg (x : Stream) (r : BitVec 5) : BitVec 64 := if r = 0 then 0 else mapGetD x.s r.toNat 0

/-- A predicate register; p0 reads all ones. -/
def pReg (x : Stream) (r : Nat) : BitVec 16 := if r = 0 then BitVec.allOnes 16 else mapGetD x.p r 0

/-- Set a scalar register; a write of s0 is lost. -/
def setS (r : BitVec 5) (v : BitVec 64) (x : Stream) : Stream := if r = 0 then x else { x with s := mapSet x.s r.toNat v }

/-- Set a predicate register; a write of p0 is lost. -/
def setP (r : Nat) (v : BitVec 16) (x : Stream) : Stream := if r = 0 then x else { x with p := mapSet x.p r v }

/-- The lanes that an instruction acts on (PRED and PNOT). -/
def laneOn (x : Stream) (f : IFields) (lane : Nat) : Bool := (pReg x f.pred.toNat).getLsbD lane != f.pnot

/-- Write the active lanes of a vector register. -/
def setLanes (f : IFields) (r : BitVec 5) (g : Nat → Nat) (x : Stream) : Stream :=
  { x with v := mapSet x.v r.toNat ((List.range 16).map (fun i =>
      if laneOn x f i then BitVec.ofNat 32 (g i) else BitVec.ofNat 32 (vLane x r i))) }

/-- Write the active lanes of a predicate register. -/
def setBits (f : IFields) (r : Nat) (g : Nat → Bool) (x : Stream) : Stream :=
  setP r (BitVec.ofNat 16 ((List.range 16).foldl (fun n i =>
    n + flag (if laneOn x f i then g i else (pReg x r).getLsbD i) i) 0)) x

/-- The next instruction. -/
def nextPc (x : Stream) : Stream := { x with pc := x.pc + 1 }

/-! ### Issue (R254, R264) -/

/-- The stream can issue: its context is RUNNING a kernel, it has not ended and it waits for nothing. -/
def canIssue (c : Ctx) (e : Nat) : Bool :=
  let x := streamOf c e
  c.state == .running && (match c.doing with
    | .run _ _ => true
    | .none => false
    | .copy => false
    | .wait _ _ _ _ _ _ _ => false
    | .nop => false) && x.live && x.wait == .none

/-- Issue an instruction: ILLEGAL where its encoding is not allowed, else its effect. -/
def issue (w : StreamId) (legal : Bool) (run : Nat → Ctx → Stream → State → State) (s : State) : State :=
  let k := ctxKey w.core w.slot
  let c := ctxAt s k
  if canIssue c w.eng.val then
    if legal then run k c (streamOf c w.eng.val) (progress (.stream k w.eng.val) s) else ctxFault k fIllegal 0 s
  else s

/-- Issue an instruction that only changes its stream's registers and goes on to the next. -/
def issueRegs (w : StreamId) (legal : Bool) (g : Stream → Stream) (s : State) : State :=
  issue w legal (fun k _ _ s => modStream k w.eng.val (fun x => nextPc (g x)) s) s

/-! ### Integers (class 0, R264, R284) -/

/-- I32 or U32, and no IMM bit beyond [15:0]. -/
def intLegal (f : IFields) : Bool := decide (f.ty.toNat ≤ 1) && decide (f.imm.toNat < 2 ^ 16)

/-- The lane type is I32. -/
def isI32 (f : IFields) : Bool := f.ty == 0

/-- An integer operation on v[A] and v[B], modulo 2^32. -/
def intOp (w : StreamId) (f : IFields) (g : Nat → Nat → Nat) (s : State) : State :=
  issueRegs w (intLegal f) (fun x => setLanes f f.d (fun i => g (vLane x f.a i) (vLane x f.b i)) x) s

/-- `a < b` as the lane type orders them. -/
def intLess (signedLane : Bool) (a b : Nat) : Bool := if signedLane then decide (signed 32 a < signed 32 b) else decide (a < b)

/-- Arithmetic shift right: the floor of the signed value over 2^n. -/
def sarLane (n a : Nat) : Nat := twos 32 (signed 32 a / (2 ^ n : Int))

/-- A shift of v[A] by IMM[15:0]. -/
def shiftOp (w : StreamId) (f : IFields) (g : Nat → Nat → Nat) (s : State) : State :=
  issueRegs w (intLegal f) (fun x => setLanes f f.d (fun i => g (f.imm.toNat % 2 ^ 16) (vLane x f.a i)) x) s

/-- INT_ADD (R284). -/
def execIntAdd (w : StreamId) (f : IFields) (s : State) : Host.Outcome State Fault Refusal :=
  .next (intOp w f (fun a b => (a + b) % 2 ^ 32) s)

/-- INT_SUB (R284). -/
def execIntSub (w : StreamId) (f : IFields) (s : State) : Host.Outcome State Fault Refusal :=
  .next (intOp w f (fun a b => (a + 2 ^ 32 - b) % 2 ^ 32) s)

/-- INT_MULLO (R284). -/
def execIntMullo (w : StreamId) (f : IFields) (s : State) : Host.Outcome State Fault Refusal :=
  .next (intOp w f (fun a b => a * b % 2 ^ 32) s)

/-- INT_AND (R264). -/
def execIntAnd (w : StreamId) (f : IFields) (s : State) : Host.Outcome State Fault Refusal := .next (intOp w f (fun a b => a &&& b) s)

/-- INT_OR (R264). -/
def execIntOr (w : StreamId) (f : IFields) (s : State) : Host.Outcome State Fault Refusal := .next (intOp w f (fun a b => a ||| b) s)

/-- INT_XOR (R264). -/
def execIntXor (w : StreamId) (f : IFields) (s : State) : Host.Outcome State Fault Refusal := .next (intOp w f (fun a b => a ^^^ b) s)

/-- INT_SHL (R264, R284): modulo 2^32 (assumption 16). -/
def execIntShl (w : StreamId) (f : IFields) (s : State) : Host.Outcome State Fault Refusal :=
  .next (shiftOp w f (fun n a => if 32 ≤ n then 0 else a * 2 ^ n % 2 ^ 32) s)

/-- INT_SHR (R264). -/
def execIntShr (w : StreamId) (f : IFields) (s : State) : Host.Outcome State Fault Refusal :=
  .next (shiftOp w f (fun n a => if 32 ≤ n then 0 else a / 2 ^ n) s)

/-- INT_SAR (R264). -/
def execIntSar (w : StreamId) (f : IFields) (s : State) : Host.Outcome State Fault Refusal :=
  .next (shiftOp w f (fun n a => sarLane (min n 32) a) s)

/-- INT_MIN (R264). -/
def execIntMin (w : StreamId) (f : IFields) (s : State) : Host.Outcome State Fault Refusal :=
  .next (intOp w f (fun a b => if intLess (isI32 f) b a then b else a) s)

/-- INT_MAX (R264). -/
def execIntMax (w : StreamId) (f : IFields) (s : State) : Host.Outcome State Fault Refusal :=
  .next (intOp w f (fun a b => if intLess (isI32 f) a b then b else a) s)

/-- INT_MOV (R264). -/
def execIntMov (w : StreamId) (f : IFields) (s : State) : Host.Outcome State Fault Refusal := .next (intOp w f (fun a _ => a) s)

/-- INT_MOVI (R264): IMM[15:0]; the spec does not say how an immediate with bit 15 set fills bits [31:16], which are
then a free value (assumption 17). -/
def execIntMovi (w : StreamId) (f : IFields) (s : State) : Host.Outcome State Fault Refusal :=
  let v := f.imm.toNat % 2 ^ 16
  .next (issue w (intLegal f) (fun k _ _ s =>
    if v < 2 ^ 15 then modStream k w.eng.val (fun x => nextPc (setLanes f f.d (fun _ => v) x)) s
    else
      let hi := nextFree s 16
      modStream k w.eng.val (fun x => nextPc (setLanes f f.d (fun _ => hi * 2 ^ 16 + v) x)) (drawn s)) s)

/-! ### Compares, select, conversion (class 1, R284, R285) -/

/-- TYPE 0–6: TYPE 7 has no narrow code here. No IMM bit beyond the class's [2:0]. -/
def cmpLegal (f : IFields) : Bool := decide (f.ty.toNat ≤ 6) && decide (f.imm.toNat < 8)

/-- Compare lanes into p[D]: NaN makes every compare false but `ne`. -/
def cmpOp (w : StreamId) (f : IFields) (g : FV → FV → Bool) (s : State) : State :=
  issueRegs w (cmpLegal f && decide (f.d.toNat < 8)) (fun x => setBits f f.d.toNat (fun i =>
    g ((readFV f.ty.toNat 0 (vLane x f.a i)).getD .nan) ((readFV f.ty.toNat 0 (vLane x f.b i)).getD .nan)) x) s

/-- CMP_EQ (R284). -/
def execCmpEq (w : StreamId) (f : IFields) (s : State) : Host.Outcome State Fault Refusal := .next (cmpOp w f eqFV s)

/-- CMP_NE (R284). -/
def execCmpNe (w : StreamId) (f : IFields) (s : State) : Host.Outcome State Fault Refusal :=
  .next (cmpOp w f (fun a b => !eqFV a b) s)

/-- CMP_LT (R284). -/
def execCmpLt (w : StreamId) (f : IFields) (s : State) : Host.Outcome State Fault Refusal := .next (cmpOp w f ltFV s)

/-- CMP_LE (R284). -/
def execCmpLe (w : StreamId) (f : IFields) (s : State) : Host.Outcome State Fault Refusal :=
  .next (cmpOp w f (fun a b => ltFV a b || eqFV a b) s)

/-- CMP_SEL (R264): p[C] selects v[A], else v[B] (assumption 18). -/
def execCmpSel (w : StreamId) (f : IFields) (s : State) : Host.Outcome State Fault Refusal :=
  .next (issueRegs w (cmpLegal f && decide (f.c.toNat < 8)) (fun x => setLanes f f.d (fun i =>
    if (pReg x f.c.toNat).getLsbD i then vLane x f.a i else vLane x f.b i) x) s)

/-- `cvt` of one lane under the fields of an instruction (R285); none is ILLEGAL. -/
def cvtFields (f : IFields) (scale v : Nat) : Option Nat :=
  let imm := f.imm.toNat
  let dty := f.c.toNat % 8
  let sn := bits imm 5 2
  let dn := f.c.toNat / 8
  if 128 ≤ imm ∨ (f.ty ≠ 7 ∧ sn ≠ 0) ∨ (dty ≠ 7 ∧ dn ≠ 0) then none
  else match modeOf (imm % 8) with
    | none => none
    | some m => cvtLane f.ty.toNat sn dty dn m (bit imm 3) (bit imm 4) scale v

/-- CVT (R285). -/
def execCvt (w : StreamId) (f : IFields) (s : State) : Host.Outcome State Fault Refusal :=
  .next (issueRegs w (cvtFields f 0 0).isSome (fun x => setLanes f f.d (fun i =>
    (cvtFields f (vLane x f.b i % 256) (vLane x f.a i)).getD 0) x) s)

/-! ### FMA (class 2, R284) -/

/-- TYPE 2, 3 or 4, and no IMM bit beyond [2:0]. -/
def fmaLegal (f : IFields) : Bool := decide (2 ≤ f.ty.toNat) && decide (f.ty.toNat ≤ 4) && decide (f.imm.toNat < 8)

/-- The format of an FMA instruction. -/
def fmaFmt (f : IFields) : Fmt := (fmtOf f.ty.toNat 0).getD fp32

/-- An operand of an FMA instruction: bits [15:0] of a 16-bit type. -/
def fmaArg (f : IFields) (x : Stream) (r : BitVec 5) (i : Nat) : FV := decodeFV (fmaFmt f) (vLane x r i % 2 ^ (fmaFmt f).bits)

/-- An operation rounded once under IMM[2:0]; codes 5–7 are ILLEGAL. -/
def fmaOp (w : StreamId) (f : IFields) (g : Mode → FV → FV → FV → FV) (s : State) : State :=
  let m := modeOf f.imm.toNat
  issueRegs w (fmaLegal f && m.isSome) (fun x => setLanes f f.d (fun i =>
    roundFV (fmaFmt f) (m.getD .rne) false (g (m.getD .rne) (fmaArg f x f.a i) (fmaArg f x f.b i) (fmaArg f x f.c i))) x) s

/-- FMA: A × B + C (R284). -/
def execFma (w : StreamId) (f : IFields) (s : State) : Host.Outcome State Fault Refusal :=
  .next (fmaOp w f (fun m a b c => sumFV m [mulFV a b, c]) s)

/-- FMUL (R284). -/
def execFmul (w : StreamId) (f : IFields) (s : State) : Host.Outcome State Fault Refusal := .next (fmaOp w f (fun _ a b _ => mulFV a b) s)

/-- FADD (R284). -/
def execFadd (w : StreamId) (f : IFields) (s : State) : Host.Outcome State Fault Refusal :=
  .next (fmaOp w f (fun m a b _ => sumFV m [a, b]) s)

/-- Minimum or maximum; exact. -/
def minmaxOp (w : StreamId) (f : IFields) (isMax : Bool) (s : State) : State :=
  issueRegs w (fmaLegal f) (fun x => setLanes f f.d (fun i =>
    roundFV (fmaFmt f) .rne false (minmaxFV isMax (fmaArg f x f.a i) (fmaArg f x f.b i))) x) s

/-- FMIN (R284). -/
def execFmin (w : StreamId) (f : IFields) (s : State) : Host.Outcome State Fault Refusal := .next (minmaxOp w f false s)

/-- FMAX (R284). -/
def execFmax (w : StreamId) (f : IFields) (s : State) : Host.Outcome State Fault Refusal := .next (minmaxOp w f true s)

/-! ### Dot products (class 3, R286–R288) -/

/-- Registers that an operand of 8 elements takes. -/
def dotRegs (m : Fmt) : Nat := (8 * m.bits + 31) / 32

/-- The element format of a class 3 instruction, and whether it is scaled; none is ILLEGAL (R287). -/
def dotKind (op : Nat) (f : IFields) : Option (Fmt × Bool) :=
  let t := f.ty.toNat
  let k := if t = 7 then (if op < 3 then (fmtOf 7 op).map (fun m => (m, true)) else none)
    else if op = 0 ∧ 3 ≤ t then (fmtOf t 0).map (fun m => (m, false))
    else if op = 1 ∧ 5 ≤ t then (fmtOf t 0).map (fun m => (m, true))
    else none
  match k with
  | some (m, scaled) =>
    if 32 < f.a.toNat + dotRegs m ∨ 32 < f.b.toNat + dotRegs m ∨ (if scaled then 64 else 1) ≤ f.imm.toNat then none else some (m, scaled)
  | none => none

/-- Element `j` of an operand at register `r`, for a lane (R286, R289). -/
def dotElem (m : Fmt) (x : Stream) (r : BitVec 5) (lane j : Nat) : FV :=
  let word := (List.range (dotRegs m)).foldr (fun q n => vLane x (BitVec.ofNat 5 (r.toNat + q)) lane + 2 ^ 32 * n) 0
  decodeFV m (bits word (m.bits * j) m.bits)

/-- The sum of R288 for a lane, before its rounding. -/
def dotSum (m : Fmt) (scaled : Bool) (f : IFields) (x : Stream) (i : Nat) : FV :=
  let scales := vLane x (BitVec.ofNat 5 (f.imm.toNat % 32)) i / 2 ^ (16 * (f.imm.toNat / 32 % 2))
  let xa := scales % 256
  let xb := scales / 256 % 256
  let k : Int := if scaled then (xa : Int) - 127 + ((xb : Int) - 127) else 0
  let c := decodeFV fp32 (vLane x f.c i)
  if scaled && (xa == 0xFF || xb == 0xFF) then .nan
  else sumFV .rne (c :: (List.range 8).map (fun j => scaleFV k (mulFV (dotElem m x f.a i j) (dotElem m x f.b i j))))

/-- A class 3 instruction. -/
def dotOp (w : StreamId) (op : Nat) (f : IFields) (s : State) : State :=
  match dotKind op f with
  | none => issue w false (fun _ _ _ s => s) s
  | some (m, scaled) => issueRegs w true (fun x => setLanes f f.d (fun i => roundFV fp32 .rne false (dotSum m scaled f x i)) x) s

/-- DOT8 (R287, R288): OP 0. -/
def execDot8 (w : StreamId) (f : IFields) (s : State) : Host.Outcome State Fault Refusal := .next (dotOp w 0 f s)

/-- DOT8_MX (R287, R288). -/
def execDot8Mx (w : StreamId) (op : BitVec 6) (f : IFields) (s : State) : Host.Outcome State Fault Refusal :=
  .next (dotOp w op.toNat f s)

/-! ### Accumulators (class 4, R291–R296) -/

/-- The place of a context's accumulators in the store. -/
def ctxAccs (k : Nat) : Nat := (128 + k) * 2 ^ 20

/-- An accumulator of the store; an unlisted one is zero. -/
def accAt (s : State) (j : Nat) : Acc := mapGetD s.cmp.accs j {}

/-- Hold an accumulator. -/
def setAcc (j : Nat) (a : Acc) (s : State) : State :=
  { s with cmp := { s.cmp with accs := if a = {} then mapErase s.cmp.accs j else mapSet s.cmp.accs j a } }

/-- Number of the accumulator of a lane within the allocation (R294). -/
def accIndex (f : IFields) (x : Stream) (i : Nat) : Nat := (sReg x f.b).toNat + f.imm.toNat % 2 ^ 20 + i

/-- The active lanes. -/
def lanesOn (x : Stream) (f : IFields) : List Nat := indices 16 (laneOn x f)

/-- An ACC instruction: ACC_RANGE where an active lane names an accumulator beyond the allocation. -/
def accOp (w : StreamId) (f : IFields) (legal : Bool) (g : Nat → Stream → State → State) (s : State) : State :=
  issue w legal (fun k c x s =>
    match (lanesOn x f).find? (fun i => decide (c.accCount ≤ accIndex f x i)) with
    | some _ => ctxFault k fAccRange 0 s
    | none => modStream k w.eng.val nextPc (g k x s)) s

/-- The term that `add` takes from a lane (R294). -/
def accTerm (f : IFields) (x : Stream) (i : Nat) : FV :=
  let imm := f.imm.toNat
  let v := (readFV f.ty.toNat (bits imm 24 2) (vLane x f.a i)).getD .nan
  let e := vLane x f.c i % 256
  if bit imm 23 then (if e = 0xFF then .nan else scaleFV ((e : Int) - 127) v) else v

/-- ACC_ADD (R293, R294). -/
def execAccAdd (w : StreamId) (f : IFields) (s : State) : Host.Outcome State Fault Refusal :=
  let imm := f.imm.toNat
  let t := f.ty.toNat
  let legal := t != 1 && bits imm 20 3 == 0 && (if t = 7 then bits imm 24 2 != 3 else bits imm 24 2 == 0) && (!bit imm 23 || decide (5 ≤ t))
  .next (accOp w f legal (fun k x s => (lanesOn x f).foldl (fun s i =>
    let j := ctxAccs k + accIndex f x i
    setAcc j (accAdd (accAt s j) (accTerm f x i)) s) s) s)

/-- ACC_ZERO (R294): TYPE is ignored. -/
def execAccZero (w : StreamId) (f : IFields) (s : State) : Host.Outcome State Fault Refusal :=
  .next (accOp w f (decide (f.imm.toNat < 2 ^ 20)) (fun k x s => (lanesOn x f).foldl (fun s i =>
    setAcc (ctxAccs k + accIndex f x i) {} s) s) s)

/-- The counts of a rounding (R302). -/
def countRounding (m : Fmt) (mode : Mode) (a : Acc) (s : State) : State :=
  let s := if accOvfCase a then bump 0x5005 0x13 s else s
  if accInfCase m mode a then bump 0x5005 0x14 s else s

/-- ACC_ROUND (R294, R296). -/
def execAccRound (w : StreamId) (f : IFields) (s : State) : Host.Outcome State Fault Refusal :=
  let imm := f.imm.toNat
  let mode := modeOf (bits imm 20 3)
  let m := fmaFmt f
  let legal := decide (2 ≤ f.ty.toNat) && decide (f.ty.toNat ≤ 4) && mode.isSome && decide (imm < 2 ^ 23)
  .next (accOp w f legal (fun k x s =>
    let mode := mode.getD .rne
    let a (i : Nat) : Acc := accAt s (ctxAccs k + accIndex f x i)
    let s := modStream k w.eng.val (setLanes f f.d (fun i => accRound m mode (a i))) s
    (lanesOn x f).foldl (fun s i => countRounding m mode (a i) s) s) s)

/-- ACC_LOAD (R293, R294). -/
def execAccLoad (w : StreamId) (f : IFields) (s : State) : Host.Outcome State Fault Refusal :=
  let t := f.ty.toNat
  .next (accOp w f (t != 1 && decide (t ≤ 4) && decide (f.imm.toNat < 2 ^ 20)) (fun k x s => (lanesOn x f).foldl (fun s i =>
    setAcc (ctxAccs k + accIndex f x i) (accLoad ((readFV t 0 (vLane x f.a i)).getD .nan)) s) s) s)

end Sys2Proof.Machine
end

