-- ==== Sys2Proof/Machine/Cells.lean ====
section
/-!
DEFINITION. Cells on the wire: the header's fields, the sideband, integrity, the format rules of R96 and R101, and the
answers a GV24 forms from a request (R103, R104).
-/

namespace Sys2Proof.Machine

open Sys2Proof

/-! ### Operation codes (R101) -/

def opLD : BitVec 5 := 0x01
def opLDV : BitVec 5 := 0x02
def opLDA : BitVec 5 := 0x03
def opST : BitVec 5 := 0x04
def opSTM : BitVec 5 := 0x05
def opSTF : BitVec 5 := 0x06
def opSTL : BitVec 5 := 0x07
def opAT : BitVec 5 := 0x08
def opRS : BitVec 5 := 0x09
def opFEN : BitVec 5 := 0x0A
def opACK : BitVec 5 := 0x10
def opDAT : BitVec 5 := 0x11
def opNAK : BitVec 5 := 0x12
def opERR : BitVec 5 := 0x13
def opSNP : BitVec 5 := 0x18
def opSNR : BitVec 5 := 0x19
def opTIM : BitVec 5 := 0x1C
def opMUS : BitVec 5 := 0x1D
def opRTD : BitVec 5 := 0x1E
def opTEL : BitVec 5 := 0x1F

/-- A request `LD` to `FEN` on VC0–VC3. -/
def isRequest (op : BitVec 5) : Bool := (0x01 ≤ op.toNat && op.toNat ≤ 0x08) || op == opFEN

/-- A store that a flag counts: `ST`, `STM`, `STF`, `STL`. -/
def isStore (op : BitVec 5) : Bool := 0x04 ≤ op.toNat && op.toNat ≤ 0x07

/-- Destination coordinate. -/
def cellDest (c : Cell) : BitVec 16 := c.addr.extractLsb' 48 16

/-- Byte offset at the destination. -/
def cellOff (c : Cell) : Nat := c.addr.toNat % 2 ^ 48

/-- ADDR of a coordinate and an offset (R100). -/
def mkAddr (dest : BitVec 16) (offset : Nat) : BitVec 64 := dest ++ BitVec.ofNat 48 offset

/-! ### Header (R95) -/

/-- The 32 header bytes as a number, byte 0 lowest. -/
def packHeader (c : Cell) : BitVec 256 :=
  c.aux ++ c.chunk ++ c.cell ++ c.window ++ 0#6 ++ BitVec.ofBool c.pad ++ BitVec.ofBool c.last ++ c.tally ++ c.tag ++
    c.len ++ c.via ++ c.hops ++ BitVec.ofBool c.nonmin ++ c.cmark ++ c.epoch ++ c.tenant ++ c.sub ++ c.scope ++ c.op ++
    c.vc ++ c.ver ++ c.src ++ c.addr

/-- The fields of a header, with a payload. -/
def unpackHeader (h : BitVec 256) (payload : Bytes) : Cell where
  addr := h.extractLsb' 0 64
  src := h.extractLsb' 64 16
  ver := h.extractLsb' 80 4
  vc := h.extractLsb' 84 4
  op := h.extractLsb' 88 5
  scope := h.extractLsb' 93 3
  sub := h.extractLsb' 96 4
  tenant := h.extractLsb' 100 4
  epoch := h.extractLsb' 104 1
  cmark := h.extractLsb' 105 2
  nonmin := h.getLsbD 107
  hops := h.extractLsb' 108 4
  via := h.extractLsb' 112 8
  len := h.extractLsb' 120 8
  tag := h.extractLsb' 128 16
  tally := h.extractLsb' 144 24
  last := h.getLsbD 168
  pad := h.getLsbD 169
  window := h.extractLsb' 176 16
  cell := h.extractLsb' 192 4
  chunk := h.extractLsb' 196 28
  aux := h.extractLsb' 224 32
  payload := payload

/-- The header bytes of a cell. -/
def headerBytes (c : Cell) : Bytes := natLe 32 (packHeader c).toNat

/-- The payload, 256 bytes. -/
def payloadBytes (c : Cell) : Bytes := slice c.payload 0 256

/-- Line `k` of a payload (R102). -/
def payloadLine (c : Cell) (k : Nat) : Bytes := slice c.payload (128 * k) 128

/-- The line of a masked payload (R102). -/
def maskedLine (c : Cell) : Bytes := slice c.payload 16 128

/-- The mask of a masked payload. -/
def maskedMask (c : Cell) : Nat := fieldAt c.payload 0 16

/-! ### Sideband (R97) -/

/-- SEQ of a sideband. -/
def sideSeq (b : BitVec 128) : BitVec 12 := b.extractLsb' 0 12

/-- SEQ_VALID. -/
def sideValid (b : BitVec 128) : Bool := b.getLsbD 15

/-- ACK. -/
def sideAck (b : BitVec 128) : BitVec 12 := b.extractLsb' 16 12

/-- NAK. -/
def sideNak (b : BitVec 128) : Bool := b.getLsbD 28

/-- The four credit reports: VC and COUNT. -/
def sideCredits (b : BitVec 128) : List (Nat × Nat) :=
  (List.range 4).map (fun k => ((b.extractLsb' (32 + 20 * k) 4).toNat, (b.extractLsb' (36 + 20 * k) 16).toNat))

/-! ### Integrity (R98, R99, R437) -/

/-- The CRC of a block's bytes, as the 16 integrity bytes hold it. -/
def crcField (b : Bytes) : BitVec 128 := (crc64 b).zeroExtend 128

/-- Bytes 0–303 of a cell. -/
def cellBytes (b : Block) : Bytes := natLe 32 b.header.toNat ++ slice b.payload 0 256 ++ natLe 16 b.sideband.toNat

/-- The nonce of a block (R437). -/
def nonce (key : Bytes) (superframe slot : Nat) : Bytes := slice key 32 4 ++ natLe 6 superframe ++ natLe 2 slot

/-- A cell under a key: its content with the payload decrypted, where the tag verifies. -/
def openCell (key : Bytes) (b : Block) : Option Cell :=
  match Config.gcmOpen (slice key 0 32) (nonce key b.superframe b.slot) (natLe 32 b.header.toNat ++ natLe 16 b.sideband.toNat)
    (slice b.payload 0 256) b.integrity with
  | some p => some (unpackHeader b.header p)
  | none => none

/-- A cell under the CRC. -/
def crcCell (b : Block) : Option Cell :=
  if b.integrity = crcField (cellBytes b) then some (unpackHeader b.header (slice b.payload 0 256)) else none

/-- An idle block's check: under a key or under the CRC. -/
def idleGood (key : Option Bytes) (b : Block) : Bool :=
  match key with
  | none => b.integrity == crcField (natLe 16 b.sideband.toNat)
  | some k => (Config.gcmOpen (slice k 0 32) (nonce k b.superframe b.slot) (natLe 16 b.sideband.toNat) [] b.integrity).isSome

/-! ### Format (R96, R101, R102) -/

/-- VC is allowed for OP. -/
def vcAllowed (op : BitVec 5) (vc : Nat) : Bool :=
  if isRequest op then vc < 4
  else if op == opRS then vc == 9
  else if op == opACK || op == opNAK then 4 ≤ vc && vc < 8
  else if op == opDAT || op == opERR then (4 ≤ vc && vc < 8) || vc == 10
  else if op == opSNP || op == opSNR then vc == 8
  else if 0x1C ≤ op.toNat then vc == 11
  else false

/-- The lines that `LDV`, `ST` and `RS` may address. -/
def pairRule (c : Cell) : Bool :=
  (c.len == 1 && cellOff c % 128 == 0) || (c.len == 2 && cellOff c % 256 == 0)

/-- SUB, WIDTH and FMT of an `AT` form a combination of R102. -/
def atCombination (sub : BitVec 4) (aux : BitVec 32) : Bool :=
  let width := aux.toNat % 4
  let fmt := aux.toNat / 8 % 4
  if sub == 1 then (fmt == 0 && width == 1) || ((fmt == 1 || fmt == 2) && width == 0)
  else sub.toNat ≤ 8 && (width == 1 || width == 2)

/-- LEN and ADDR follow the rule of R101 for OP. -/
def lenRule (c : Cell) : Bool :=
  if c.op == opLD then
    1 ≤ c.len.toNat && c.len.toNat ≤ 32 && cellOff c % 128 == 0 && cellOff c % 4096 / 128 + c.len.toNat ≤ 32
  else if c.op == opLDV || c.op == opST || c.op == opRS then pairRule c
  else if c.op == opLDA || c.op == opSTM || c.op == opSTF || c.op == opSTL then c.len == 1 && cellOff c % 128 == 0
  else if c.op == opAT then c.len == 1 && atCombination c.sub c.aux
  else if c.op == opDAT then c.len == 1 || c.len == 2
  else if c.op == opSNP || c.op == opSNR then c.len.toNat ≤ 1
  else c.len == 0

/-- OP is a code of the table. -/
def opKnown (op : BitVec 5) : Bool :=
  (0x01 ≤ op.toNat && op.toNat ≤ 0x0A) || (0x10 ≤ op.toNat && op.toNat ≤ 0x13) || op == opSNP || op == opSNR || 0x1C ≤ op.toNat

/-- The cell is well formed by R96, its VER and VC apart. -/
def wellFormed (c : Cell) : Bool :=
  opKnown c.op && vcAllowed c.op c.vc.toNat && c.scope.toNat < 6 && !(24 ≤ coordP (cellDest c) && coordP (cellDest c) ≤ 30) && lenRule c

/-- The bits of AUX that an operation outside collectives and probes uses (R101, R102). -/
def auxMask (op : BitVec 5) : BitVec 32 :=
  if op == opAT then 0x11F
  else if op == opACK then 0xFFFF
  else if op == opDAT || op == opNAK || op == opERR || op == opMUS || op == opTEL then 0xFFFFFFFF
  else 0

/-- How many payload bytes an operation on VC0–VC7 uses (R101, R102). -/
def payloadUsed (c : Cell) : Nat :=
  if c.op == opST || c.op == opDAT then 128 * c.len.toNat
  else if c.op == opSTM || c.op == opSTF || c.op == opSTL then 144
  else if c.op == opAT then 16
  else 0

/-- A cell with the fields that its operation does not use at 0, as a GV24 forwards it (R96). Probes keep what the grotto
gives them, VC11 cells their payload and SUB, and scheduled cells what R305 names. -/
def clearUnused (c : Cell) : Cell :=
  let c := if c.op == opSTL || c.op == opLDA || c.op == opFEN then c else { c with scope := 0 }
  if c.vc = 9 ∨ c.vc = 10 then c
  else
    let c := { c with
      window := 0, chunk := 0, cell := 0, pad := false, tally := if c.op == opSTF then c.tally else 0,
      last := (c.op == opDAT || c.op == opNAK || c.op == opERR) && c.last }
    if c.vc = 8 then c
    else if c.vc = 11 then { c with aux := c.aux &&& auxMask c.op }
    else { c with
      sub := if c.op == opAT || c.op == opNAK || c.op == opERR then c.sub else 0
      aux := c.aux &&& auxMask c.op, payload := c.payload.take (payloadUsed c) }

/-! ### Answers (R103, R104) -/

def errTenantDenied : Nat := 1
def errUnsupportedOp : Nat := 2
def errTargetReset : Nat := 3
def errAlign : Nat := 4
def errMemUncorrectable : Nat := 5
def errOutOfRange : Nat := 6
def errMalformed : Nat := 7
def errWindow : Nat := 8
def errPoison : Nat := 9

/-- A response to a request: requester's coordinate, offset, TAG and CMARK of the request, and the coordinate it was
addressed to as SRC (R100, R121). It starts at stage 0 on VC4 (assumption 11). -/
def respond (c : Cell) (op : BitVec 5) (sub : Nat) (aux : Nat) : Cell :=
  { addr := mkAddr c.src (cellOff c), src := cellDest c, vc := 4, op := op, tenant := c.tenant, sub := BitVec.ofNat 4 sub,
    cmark := c.cmark, epoch := c.epoch, tag := c.tag, last := op == opNAK || op == opERR, aux := BitVec.ofNat 32 aux }

/-- An `ERR` with a code and a detail (R103). -/
def errFor (c : Cell) (code detail : Nat) : Cell := respond c opERR code (detail % 65536)

/-- A `NAK` with a code and a detail (R103). -/
def nakFor (c : Cell) (code detail : Nat) : Cell := respond c opNAK code detail

/-- An `ACK` for `n` requests, of which this is the last (R101). -/
def ackFor (c : Cell) (n : Nat) : Cell := respond c opACK 0 n

/-- A `DAT` of `len` lines, the first being line `index` of the request. -/
def datFor (c : Cell) (len index : Nat) (last : Bool) (payload : Bytes) : Cell :=
  { respond c opDAT 0 index with len := BitVec.ofNat 8 len, last := last, payload := payload }

end Sys2Proof.Machine
end

