-- ==== Sys2Proof/Machine/Memory.lean ====
section
/-!
DEFINITION. The attached memory (R352–R363): its bytes in canonical form, the address maps, the checks every access
passes, and reads and writes of lines.
-/

namespace Sys2Proof.Machine

open Sys2Proof

/-! ### Bytes: a list of (address, byte), addresses rising, no zero listed -/

/-- The byte at an address; an unlisted byte reads as 0 (R364). -/
def cellGet : List Host.Cell → Nat → Byte
  | [], _ => 0
  | (a, b) :: r, k => if a = k then b else cellGet r k

/-- Write one byte, keeping the canonical form. -/
def cellPut : List Host.Cell → Nat → Byte → List Host.Cell
  | [], k, b => if b = 0 then [] else [(k, b)]
  | (a, c) :: r, k, b =>
    if k = a then (if b = 0 then r else (k, b) :: r)
    else if k < a then (if b = 0 then (a, c) :: r else (k, b) :: (a, c) :: r)
    else (a, c) :: cellPut r k b

/-- Write a run of bytes. -/
def cellsPut (m : List Host.Cell) (a : Nat) : Bytes → List Host.Cell
  | [] => m
  | b :: r => cellsPut (cellPut m a b) (a + 1) r

/-- The canonical form: addresses strictly rising, no entry equal to what an unlisted address reads as. -/
def Memory.wf : List Host.Cell → Bool
  | [] => true
  | (a, b) :: r =>
    b != 0 && (match r with
      | [] => true
      | (c, _) :: _ => decide (a < c)) && Memory.wf r

/-- A run of bytes. -/
def cellsGet (m : List Host.Cell) (a n : Nat) : Bytes := (List.range n).map (fun k => cellGet m (a + k))

/-! ### Size and regions (R354, R216, R259) -/

/-- One GiB. -/
def gib : Nat := 2 ^ 30

/-- Raw GiB of a density. -/
def rawGib (d : Nat) : Nat :=
  match d with
  | 1 => 96
  | 2 => 128
  | 3 => 192
  | 4 => 256
  | _ => 0

/-- Usable bytes of the devices fitted (R354); 0 while FAILED (R352). -/
def usableBytes (s : State) : Nat := if s.mem.state = .failed then 0 else rawGib s.mem.density * gib / 16 * 15

/-- Bytes that accesses may reach now: none before READY. -/
def usable (s : State) : Nat := if s.mem.state = .ready then usableBytes s else 0

/-- The directory is enabled (R218). -/
def dirEnabled (s : State) : Bool := odGet s 0x3500 1 == 1

/-- Where the grotto directory's backing region starts (R216). -/
def dirBase (s : State) : Nat := usableBytes s - 2 * gib

/-- Where the kernel store starts (R259). -/
def storeBase (s : State) : Nat := dirBase s - gib / 4

/-- Parameters in a shard chunk (R325). -/
def chunkParams (x : Shard) : Nat := if fieldAt x.record 1 1 = 2 then 1024 else 2048

/-- Bytes of a staging slot's state area and of the whole slot (R325). -/
def stateBytes (x : Shard) : Nat := ceilTo 128 (12 * chunkParams x + 4)

/-- Bytes from one row of an embedding table to the next (R331). -/
def rowStride (record : Bytes) : Nat :=
  ceilTo 128 (fieldAt record 2 2 * (match fieldAt record 1 1 with
    | 2 => 4
    | 3 => 2
    | 4 => 2
    | _ => 1))

/-- The regions of a shard or table record: start and length. W, M, V, T and staging of a shard (R325); a table's rows. -/
def recordRegions (r : Bytes) : List (Nat × Nat) :=
  let x : Shard := { record := r }
  let n := chunkParams x
  let c := fieldAt r 4 4
  if fieldAt r 0 1 = 1 then
    [(fieldAt r 8 8, 4 * n * c), (fieldAt r 16 8, 4 * n * c), (fieldAt r 24 8, 4 * n * c), (fieldAt r 32 8, 4 * c),
      (fieldAt r 40 8, 4096 + fieldAt r 2 2 * (stateBytes x + 4096))]
  else if fieldAt r 0 1 = 2 then [(fieldAt r 8 8, rowStride r * c)]
  else []

/-- Regions closed by a slot: an enabled one's (R325), a bound one's until it is cleared (R431). -/
def shardRegions (s : State) : List (Nat × Nat) :=
  s.coll.shards.flatMap (fun e => if e.2.state == 1 || e.2.bound then recordRegions e.2.record else [])

/-- Two ranges of bytes meet. -/
def rangesMeet (a m b n : Nat) : Bool := decide (a < b + n) && decide (b < a + m)

/-- Some byte of a range is closed (R363): the kernel store, the directory region while enabled, a slot's regions. -/
def closedRange (s : State) (off n : Nat) : Bool :=
  rangesMeet off n (storeBase s) (dirBase s - storeBase s) ||
    (dirEnabled s && rangesMeet off n (dirBase s) (usableBytes s - dirBase s)) ||
    (shardRegions s).any (fun r => rangesMeet off n r.1 r.2)

/-- The line at an offset is closed. -/
def closedRegion (s : State) (off : Nat) : Bool := closedRange s off 128

/-! ### Address maps (R356) -/

/-- Where a line lies: channel, bank, row segment, position. -/
structure Place where
  chan : Nat
  bank : Nat
  seg : Nat
  pos : Nat
  deriving DecidableEq, Repr

/-- Colour size (R354). -/
def colourSize (s : State) : Nat := usableBytes s / 16

/-- The colour of an offset. -/
def colourOf (s : State) (off : Nat) : Nat := if colourSize s = 0 then 0 else off / colourSize s

/-- The place of a line under the map in force. -/
def placeOf (s : State) (line : Nat) : Place :=
  let g := line / 15
  let p := line % 15
  if s.mem.coloured then
    let c := colourOf s (128 * line)
    let h := g - c * (colourSize s / 1920)
    { chan := h % 128, bank := c % 16, seg := h / 128, pos := p }
  else { chan := g % 128, bank := g / 128 % 16, seg := g / 2048, pos := p }

/-- A channel. -/
def chan (s : State) (k : Nat) : Chan := mapGetD s.mem.chans k {}

/-- Change a channel. -/
def modChan (k : Nat) (f : Chan → Chan) (s : State) : State :=
  { s with mem := { s.mem with chans := mapSet s.mem.chans k (f (chan s k)) } }

/-- DETAIL of the GDDR7 events. -/
def placeDetail (q : Place) : List Nat := [q.chan, q.bank, q.seg, q.pos]

/-! ### Checks of an access -/

/-- The number of the tenant of an access; 16 is untenanted. -/
abbrev TenantKey := Nat

/-- The colour check (R361). -/
def colourDenied (s : State) (t : TenantKey) (off : Nat) : Bool :=
  if t = 16 || !s.mem.coloured then false
  else
    let o := odGet s 0x5301 (colourOf s off % 16 + 1)
    if o = 16 then isolated s else o != t

/-- Why an access to a line is refused: `ERR` code and detail (R152, R216, R259, R361, R362). -/
def memRefusal (s : State) (t : TenantKey) (line : Nat) : Option (Nat × Nat) :=
  let off := 128 * line
  if usable s ≤ off || closedRegion s off then some (6, 0)
  else if colourDenied s t off then some (6, 0x0301)
  else if (chan s (placeOf s line).chan).failed then some (3, 0x0303)
  else none

/-- Count a refusal of the colour check. -/
def countRefusal (detail : Nat) (s : State) : State := if detail = 0x0301 then bump 0x5300 0x18 s else s

/-- The line is uncorrectable or poisoned. -/
def lineBad (s : State) (line : Nat) : Bool := s.mem.poison.contains line

/-! ### The check cache and the burst queues (R358, R360) -/

/-- The check line of a group becomes the most recent; 32 are kept, in isolated mode 2 of a colour (R358, R440). -/
def useCheck (s : State) (g : Nat) (dirty : Bool) (l : List (Nat × Bool)) : List (Nat × Bool) :=
  let was := l.any (fun e => e.1 == g && e.2)
  let rest := l.filter (fun e => e.1 != g)
  let colour (e : Nat × Bool) : Nat := colourOf s (1920 * e.1)
  let own := rest.filter (fun e => colour e == colourOf s (1920 * g))
  let rest := if isolated s && decide (2 ≤ own.length) then rest.erase (own.getLastD (0, false)) else rest
  ((g, dirty || was) :: rest).take 32

/-- An access takes a place among its channel's bursts and uses its check line. -/
def touchLine (line : Nat) (write : Bool) (t : TenantKey) (s : State) : State :=
  modChan (placeOf s line).chan (fun c => { c with
    queue := c.queue ++ [(line, write, t)], check := useCheck s (line / 15) write c.check }) s

/-- An uncorrectable word met by an access: counted and logged (R362). -/
def countBad (line : Nat) (s : State) : State :=
  let q := placeOf s line
  log 0x5302 (placeDetail q) (bump (0x5310 + q.chan / 4) (9 + q.chan % 4) (bump 0x5300 0x12 s))

/-! ### Lines -/

/-- The bytes of a line. -/
def lineBytes (s : State) (line : Nat) : Bytes := cellsGet s.mem.cells (128 * line) 128

/-- Read a line: none where it is uncorrectable. -/
def readLine (line : Nat) (t : TenantKey) (s : State) : Option Bytes × State :=
  let s := touchLine line false t s
  if lineBad s line then (none, countBad line s) else (some (lineBytes s line), s)

/-- The bytes of `new` where the mask has a 1, else those of `old`. -/
def mergeMask (mask : Nat) (new old : Bytes) : Bytes :=
  (List.range 128).map (fun k => if mask.testBit k then new.getD k 0 else old.getD k 0)

/-- A full mask. -/
def fullMask : Nat := 2 ^ 128 - 1

/-- Exact-add accumulators of words that a write touches are reloaded: an unlisted accumulator stands for its word
(R177). A key is 8 × the word's offset plus its width. -/
def reloadExact (line mask : Nat) (l : NMap Acc) : NMap Acc :=
  l.filter (fun e => !(e.1 / 8 / 128 == line && (bits mask (e.1 / 8 % 128) (e.1 % 8) != 0)))

/-- Put bytes into a line under a mask; a release-table entry of the line ends (R170). -/
def putLine (line mask : Nat) (b : Bytes) (s : State) : State :=
  let new := mergeMask mask b (lineBytes s line)
  { s with
    mem := { s.mem with cells := cellsPut s.mem.cells (128 * line) new }
    bep := { s.bep with
      exact := reloadExact line mask s.bep.exact, releases := s.bep.releases.filter (fun e => e.line != line) } }

/-- Write a line under a mask (R152, R358, R362): a full mask succeeds and clears poison; a masked write of an
uncorrectable line changes nothing and fails. -/
def writeLine (line mask : Nat) (b : Bytes) (t : TenantKey) (s : State) : Bool × State :=
  let s := touchLine line true t s
  if mask % 2 ^ 128 = fullMask then
    (true, putLine line fullMask b { s with mem := { s.mem with poison := s.mem.poison.filter (fun l => l != line) } })
  else if lineBad s line then (false, countBad line s)
  else (true, putLine line mask b s)

/-- Read a run of bytes of local memory, untenanted and unchecked: none where a line of it is uncorrectable. -/
def readRun (s : State) (off n : Nat) : Option Bytes :=
  if (List.range ((off + n + 127) / 128 - off / 128)).any (fun k => lineBad s (off / 128 + k)) then none
  else some (cellsGet s.mem.cells off n)

/-- Read a run of bytes for service work of a tenant: none also where the colour check denies a byte of it (R361). -/
def serviceRead (s : State) (t : TenantKey) (off n : Nat) : Option Bytes :=
  if colourDenied s t off || colourDenied s t (off + n - 1) then none else readRun s off n

/-- Overwrite a run of bytes with zeros. -/
def clearRegion (off n : Nat) (s : State) : State :=
  let inside (a : Nat) : Bool := decide (off ≤ a) && decide (a < off + n)
  { s with
    mem := { s.mem with
      cells := s.mem.cells.filter (fun c => !inside c.1),
      poison := s.mem.poison.filter (fun l => !(inside (128 * l) && inside (128 * l + 127))) }
    bep := { s.bep with
      exact := s.bep.exact.filter (fun e => !rangesMeet (e.1 / 8) (e.1 % 8) off n),
      releases := s.bep.releases.filter (fun e => !rangesMeet (128 * e.line) 128 off n) } }

/-- Write a run of bytes of local memory, line by line; false where a line of it is uncorrectable and partly written. -/
def writeRun (off : Nat) (b : Bytes) (t : TenantKey) (s : State) : Bool × State :=
  let first := off / 128
  let n := (off + b.length + 127) / 128 - first
  (List.range n).foldl (fun (a : Bool × State) k =>
    let base := 128 * (first + k)
    let mask := (List.range 128).foldl (fun m i =>
      if off ≤ base + i ∧ base + i < off + b.length then m + 2 ^ i else m) 0
    let lineData := (List.range 128).map (fun i => if off ≤ base + i then b.getD (base + i - off) 0 else 0)
    let r := writeLine (first + k) mask lineData t a.2
    (a.1 && r.1, r.2)) (true, s)

end Sys2Proof.Machine
end

