-- ==== Sys2Proof/Machine/Scope.lean ====
section
/-!
DEFINITION. Release and acquire: common levels (R166), the release table (R170) and scope faults (R171).
-/

namespace Sys2Proof.Machine

open Sys2Proof

/-- The two links of one accelerator (R7, R166). -/
def sameAccelerator (a b : BitVec 16) : Bool :=
  coordG a == coordG b && coordS a != coordS b && coordS a / 2 == coordS b / 2 && coordP a == coordP b && decide (coordP a < 24)

/-- The common level of two agents: 0 engine, 1 core, 2 cluster, 3 die, 4 tray, 5 fabric (R166). -/
def commonLevel (x y : Agent) : Nat :=
  match x.engine, y.engine with
  | some a, some b =>
    if a = b then 0 else if a.1 = b.1 ∧ a.2.1 = b.2.1 then 1 else if a.1 = b.1 then 2 else 3
  | _, _ =>
    if x.coord = y.coord ∨ sameAccelerator x.coord y.coord = true then 3
    else if coordG x.coord = coordG y.coord ∧ coordS x.coord / 2 = coordS y.coord / 2 then 4
    else 5

/-- A release to a line whose point of coherence is this GV24: it replaces the line's entry, and the oldest of 4,096. -/
def recordRelease (line scope : Nat) (who : Agent) (s : State) : State :=
  let r : Release := { line := line, scope := scope, who := who }
  { s with bep := { s.bep with releases := (r :: s.bep.releases.filter (fun e => e.line != line)).take 4096 } }

/-- An agent as a number, for the log: coordinate, and an engine's number plus one. -/
def agentCode (a : Agent) : Nat :=
  match a.engine with
  | some (k, c, e) => a.coord.toNat * 65536 + k * 4096 + c * 16 + e + 1
  | none => a.coord.toNat * 65536

/-- The check of an acquire (R170): does it raise a scope fault? Counted and logged (R171). -/
def checkAcquire (line scope tenant : Nat) (who : Agent) (s : State) : Bool × State :=
  if odGet s 0x3400 7 = 0 then (false, s)
  else
    match s.bep.releases.find? (fun e => e.line == line) with
    | none => (false, s)
    | some r =>
      if min r.scope scope < commonLevel r.who who then
        (true, event 0x3401 tenant [line, r.scope, scope, agentCode r.who, agentCode who] (bump 0x3400 0x16 s))
      else (false, s)

end Sys2Proof.Machine
end

