-- ==== Sys2Proof/Machine/Time.lean ====
section
/-!
DEFINITION. Fabric time (R31–R61, R509): the core cycle, trims, time sets, parents, states, rounds and `BEATREF`.
Phases and stamps are in 1/64 tick.
-/

namespace Sys2Proof.Machine

open Sys2Proof

/-- Lift a change of the fabric-time unit. -/
def modTime (f : Time → Time) (s : State) : State := { s with time := f s.time }

/-- Lift a change of one port's time state. -/
def modPortTime (p : PortN) (f : PortTime → PortTime) (s : State) : State :=
  modPort p (fun q => { q with time := f q.time }) s

/-! ### The count -/

/-- A trim slot (R32). -/
def trimSlot (ft : Nat) : Bool := ft % 128 == 127

/-- The trim slot at or after `ft`. -/
def nextTrimSlot (ft : Nat) : Nat := ft - ft % 128 + 127

/-- The trim decided for a slot (R45). -/
def decided (t : Time) (slot : Nat) : Trim :=
  match t.trims.find? (fun e => e.1 == slot) with
  | some e => e.2
  | none => .none

/-- Effect of a trim on φ (R32). -/
def trimPhi : Trim → Int
  | .none => 0
  | .hold => 64
  | .skip => -64

/-- A trim is carried out: φ moves, and stamps kept in own FT move against it. -/
def carryTrim (slot : Nat) (t : Time) : Time :=
  let d := trimPhi (decided t slot)
  { t with phi := t.phi + d, trimmed := t.trimmed + d / 64, trims := t.trims.filter (fun e => e.1 != slot),
           beatNext := t.beatNext.map (fun b => b - d) }

/-- FT moves forward to a tick that is ahead; trims decided for slots on the way are carried out. -/
def advanceTime (tick : Nat) (t : Time) : Time :=
  if tick ≤ t.ft then t
  else
    let t := (t.trims.filter (fun e => decide (e.1 < tick))).foldl (fun t e => carryTrim e.1 t) t
    { t with ft := tick, holdCycle := false }

/-- FT moves forward to the tick of an event (assumption 7). -/
def advanceTo (tick : Nat) (s : State) : State := modTime (advanceTime tick) s

/-- The core cycle ends (R32): FT advances by one, but a held trim slot has a second cycle and a skipped one none. -/
def cycleTime (t : Time) : Time :=
  if trimSlot t.ft ∧ decided t t.ft = .hold ∧ t.holdCycle = false then { carryTrim t.ft t with holdCycle := true }
  else
    let n := t.ft + 1
    if trimSlot n ∧ decided t n = .skip then { carryTrim n t with ft := n + 1, holdCycle := false }
    else { t with ft := n, holdCycle := false }

/-- The core cycle ends. -/
def coreCycle (s : State) : State := modTime cycleTime s

/-! ### Status -/

/-- The rule of R509: φ counts in LOCKED and HOLDOVER. -/
def tracking (t : Time) : Bool := t.mode == .locked || t.mode == .holdover

/-- The reference-time estimate at an own stamp (R509). -/
def estimate (t : Time) (stamp : Int) : Int := if tracking t then stamp + t.phi else stamp

/-- Reserved slots are fired (R50, R52, R53); a PARTITIONED GV24 fires none (R473). -/
def slotsFiring (s : State) : Bool :=
  !s.muster.partitioned &&
    match s.time.mode with
    | .locked => !s.time.boundExceeded
    | .holdover => !s.time.allowanceOver
    | .free | .acquiring => false

/-- State code (R50). -/
def modeCode : TimeMode → Nat
  | .free => 0
  | .acquiring => 1
  | .locked => 2
  | .holdover => 3

/-- The status word OD 4000.20 (R60). -/
def timeStatus (s : State) : Nat :=
  let t := s.time
  t.parent.getD 255 * 2 ^ 24 + t.stratum % 16 * 2 ^ 20 + flag (decide (5 < t.stratum) && t.stratum != 15) 15 + flag t.boundExceeded 14
    + flag (slotsFiring s) 13 + flag t.spreadSeen 12 + flag t.beatFault 11 + flag (t.role != 0) 3 + modeCode t.mode

/-- φ beyond 2 ticks sets BOUND_EXCEEDED, and φ within 1 tick clears it (R52). -/
def judgeBound (s : State) : State :=
  if s.time.mode = .locked ∧ 128 < s.time.phi.natAbs ∧ s.time.boundExceeded = false then
    let s := modTime (fun t => { t with boundExceeded := true }) s
    raiseCause 5 (log 0x4002 [twos 32 s.time.phi, timeStatus s] s)
  else if s.time.phi.natAbs ≤ 64 ∧ s.time.boundExceeded = true then
    modTime (fun t => { t with boundExceeded := false }) s
  else s

/-- The state changes: an event, cause TIME, and the mark by which R509 discards delay samples. -/
def setMode (m : TimeMode) (s : State) : State :=
  let old := s.time.mode
  if old = m then s
  else
    let s := modTime (fun t => { t with mode := m, lockPending := false, farSets := 0 }) s
    let loose := old = .free ∨ old = .acquiring ∨ m = .free ∨ m = .acquiring
    let s := if loose then forPorts (fun p => modPortTime p (fun q => { q with changedAt := s.time.ft })) s else s
    raiseCause 5 (log 0x4001 [modeCode old, modeCode m, s.time.parent.getD 255] s)

/-! ### Parents (R36, R37) -/

/-- A lead crier's role in effect. -/
def leadCrier (t : Time) : Bool := t.role == 1

/-- The crier follows `BEATREF` and its pulses are good (R34, R56). -/
def onBeat (t : Time) : Bool := t.role != 0 && t.sourceSel == 1 && !t.beatFault

/-- A port is eligible as a parent (R37). -/
def eligible (s : State) (p : PortN) : Bool :=
  let q := (s.port p).time
  (if s.time.role == 2 then role s p == 3 else s.time.role == 0 && role s p == 2)
    && ((s.port p).status == 1 || (s.port p).status == 3)
    && (q.partnerState == 2 || q.partnerState == 3)
    && (match s.time.source with
        | none => true
        | some c => q.partnerSource == some c)
    && (match q.delay with
        | some d => decide (d ≤ 768 * 64)
        | none => false)
    && !q.suspect

/-- φ as measured through a port. -/
def phiThrough (s : State) (p : PortN) : Int :=
  (s.port p).time.offset + (if tracking s.time then s.time.phi else 0)

/-- The port that R37 chooses. -/
def chooseParent (s : State) : Option PortN :=
  let ok := (List.finRange 24).filter (eligible s)
  let listed := (List.range 4).filterMap (fun k => ok.find? (fun p => p.val == odGet s 0x4000 (0x10 + k)))
  match listed with
  | p :: _ => some p
  | [] => ok.foldl (fun best p =>
      match best with
      | none => some p
      | some b => if (s.port p).time.partnerStratum < (s.port b).time.partnerStratum then some p else some b) none

/-- Take a port as parent: its stratum plus one and its SOURCE. -/
def takeParent (p : PortN) (s : State) : State :=
  let q := (s.port p).time
  let level := if s.time.sourceSel == 1 && s.time.role == 2 then 1 else min 15 (q.partnerStratum + 1)
  modTime (fun t => { t with parent := some p.val, stratum := level, source := q.partnerSource, parentTrims := [],
                             lastSample := none, trimmed := 0, farSets := 0 }) s

/-- Start the 16 delay samples of a port afresh (R51). -/
def freshSamples (p : PortN) (s : State) : State := modPortTime p (fun q => { q with samples := [] }) s

/-- The parent port, as a port number. -/
def parentPort (s : State) : Option PortN :=
  match s.time.parent with
  | some n => if h : n < 24 then some ⟨n, h⟩ else none
  | none => none

/-- Enter HOLDOVER: the allowance is 0 where the rate has varied by more than 20 ppm (R53). -/
def enterHoldover (s : State) : State :=
  let none' := odGet s 0x4000 0x24 = 0 ∨ s.time.spreadSeen = true
  setMode .holdover (modTime (fun t => { t with parent := none, holdRounds := 0, allowanceOver := decide none' }) s)

/-- The transitions of R51, at each time set, notice or loss event: the first row that applies. -/
def judgeState (s : State) : State :=
  let here := match parentPort s with
    | some p => eligible s p
    | none => false
  match s.time.mode with
  | .free =>
    if leadCrier s.time then
      if s.time.sourceSel = 0 then modTime (fun t => { t with lockPending := true }) s
      else if 1 ≤ s.time.beatSeen then setMode .acquiring (modTime (fun t => { t with stratum := 1 }) s)
      else s
    else
      match chooseParent s with
      | some p => setMode .acquiring (takeParent p s)
      | none => s
  | .acquiring =>
    if leadCrier s.time then
      if 2 ≤ s.time.beatSeen ∧ s.ports.any (fun q => decide (16 ≤ q.time.samples.length)) = true then
        modTime (fun t => { t with lockPending := true }) s
      else s
    else if here then
      match parentPort s with
      | some p =>
        if 16 ≤ (s.port p).time.samples.length ∧ (s.time.sourceSel = 0 ∨ s.time.role = 0 ∨ 2 ≤ s.time.beatSeen ∨ s.time.beatFault = true)
        then modTime (fun t => { t with lockPending := true }) s
        else s
      | none => s
    else
      match chooseParent s with
      | some p => freshSamples p (takeParent p (modTime (fun t => { t with lockPending := false }) s))
      | none => setMode .free (modTime (fun t => { t with parent := none }) s)
  | .locked =>
    if leadCrier s.time then (if 2 ≤ s.time.farSets then setMode .acquiring s else s)
    else if here then (if 2 ≤ s.time.farSets then setMode .acquiring s else s)
    else
      match chooseParent s with
      | some p =>
        if (phiThrough s p).natAbs ≤ 512 then takeParent p s
        else freshSamples p (setMode .acquiring (takeParent p s))
      | none => enterHoldover s
  | .holdover =>
    match chooseParent s with
    | some p =>
      if (phiThrough s p).natAbs ≤ 512 then setMode .locked (takeParent p s)
      else freshSamples p (setMode .acquiring (takeParent p s))
    | none => s

/-! ### Time sets (R38, R39) -/

/-- Bytes 0–23 of a time set. -/
def timeSetBytes (x : TimeSet) : Bytes :=
  natLe 8 x.count.toNat ++ natLe 2 x.txLate.toNat ++ natLe 2 x.phi.toNat ++ natLe 4 x.echoTx.toNat ++
    natLe 4 x.echoRx.toNat ++ natLe 2 x.source.toNat ++ natLe 1 x.status.toNat ++ natLe 1 x.round.toNat

/-- R39: the set is taken. -/
def timeSetGood (x : TimeSet) (damaged : Bool) : Bool :=
  !damaged && x.check == crc32c (timeSetBytes x) && decide (10 ≤ x.round.toNat) && decide (x.round.toNat ≤ 16)
    && decide (x.count.toNat % 2 ^ x.round.toNat = 0)

/-- SOURCE of the sets sent (R38): a lead crier on `BEATREF` alone sends FFFEh (assumption 8). -/
def sourceField (s : State) : BitVec 16 :=
  if leadCrier s.time then (if s.time.sourceSel = 1 then 0xFFFE else coord s 31)
  else match s.time.source with
    | some c => BitVec.ofNat 16 c
    | none => 0xFFFF

/-- STATUS of the sets sent (R38). -/
def statusField (t : Time) : Nat := t.stratum % 16 * 16 + flag (t.role != 0) 3 + modeCode t.mode

/-- φ as sent: 0 in FREE and ACQUIRING, saturated to I16 (R509). -/
def phiField (t : Time) : Int :=
  if tracking t then (if t.phi < -32768 then -32768 else if 32767 < t.phi then 32767 else t.phi) else 0

/-- Send the time set of this round start on one port and record its departure. -/
def sendTimeSet (p : PortN) (s : State) : State :=
  if role s p = 0 then s
  else
    let late := nextFree s 16 % 512
    let e := (s.port p).time.echo
    let x : TimeSet :=
      { count := BitVec.ofNat 64 s.time.ft, txLate := BitVec.ofNat 16 late, phi := BitVec.ofInt 16 (phiField s.time),
        echoTx := match e with
          | some (c, _) => BitVec.ofNat 32 c
          | none => 0xFFFFFFFF
        echoRx := match e with
          | some (_, r) => BitVec.ofNat 32 r
          | none => 0
        source := sourceField s, status := BitVec.ofNat 8 (statusField s.time),
        round := BitVec.ofNat 8 (Nat.log2 s.time.round), check := 0 }
    let x := { x with check := crc32c (timeSetBytes x) }
    let left := estimate s.time (s.time.ft * 64 + late)
    modPortTime p (fun q => { q with departures := ((s.time.ft, left) :: q.departures).take 16 })
      (emit (.timeSet p.val x) (drawn s))

/-- A delay sample (R42, R509), in 1/64 tick: none where no echo names a recorded set or an end changed its state since. -/
def delaySample (q : PortTime) (x : TimeSet) (t4 : Int) : Option Int :=
  if x.echoTx = 0xFFFFFFFF then none
  else
    match q.departures.find? (fun d => d.1 % 2 ^ 32 == x.echoTx.toNat) with
    | none => none
    | some (count, t1) =>
      if count < q.changedAt then none
      else
        let t2 := t1 + signed 32 (twos 32 ((x.echoRx.toNat : Int) - t1))
        let t3 := (x.count.toNat : Int) * 64 + x.txLate.toNat + x.phi.toInt
        some (((t4 - t1) - (t3 - t2)) / 2)

/-- The average of the samples held. -/
def average (l : List Int) : Option Int := if l.isEmpty then none else some (l.foldl (· + ·) 0 / (l.length : Int))

/-- The rate of the local clock, in 0.01 ppm, from two samples: own ticks elapsed against reference ticks elapsed. -/
def rateOf (own ref : Int) : Int := if ref ≤ 0 then 0 else (own - ref) * 100000000 / ref

/-- The rate varied by more than 20 ppm over the last 16 rounds (R53). -/
def spread (l : List Int) : Bool := l.any (fun a => l.any (fun b => decide (2000 < a - b)))

/-- A valid set from the parent: φ, the rate, and R46's count of a lost notice (R44). -/
def followParent (p : PortN) (x : TimeSet) (arrival : Int) (d : Int) (s : State) : State :=
  let t := s.time
  let ref := (x.count.toNat : Int) * 64 + x.txLate.toNat + x.phi.toInt + d
  let phi := ref - arrival
  let far := if 512 < phi.natAbs then t.farSets + 1 else 0
  let s :=
    match t.lastSample with
    | some (a0, r0) =>
      let own := arrival - a0 + t.trimmed * 64
      let rate := rateOf own (ref - r0)
      let rates := (rate :: t.rates).take 16
      -- the parent's count, from its own cycles and the trims it announced
      let cycles := (own - own * t.rate / 100000000 + 32) / 64
      let moved := t.parentTrims.foldl (fun (n : Int) e => n - trimPhi e.2 / 64) 0
      let miss := (x.count.toNat : Int) - t.lastCount - cycles - moved
      let s := if miss.natAbs = 1 then bumpBy (0x4010 + p.val) 6 1 32 s else s
      modTime (fun t => { t with rate := rate, rates := rates, spreadSeen := spread rates }) s
    | none => s
  judgeBound (modTime (fun t => { t with
    lastSample := some (arrival, ref), trimmed := 0, lastCount := x.count.toNat, parentTrims := [],
    phi := if onBeat t then t.phi else phi, farSets := if onBeat t then t.farSets else far }) s)

/-- Sets and notices can be decoded from EXCHANGE onward (R71). -/
def decodes (s : State) (p : PortN) : Bool := role s p != 0 && ((s.port p).train == .exchange || (s.port p).train == .active)

/-- TIME_SET_RECEIVE (R39, R42, R44, R509, R57, R58): `arrival` is the own stamp of the set's comma in 1/64 tick. -/
def timeSetReceive (p : PortN) (x : TimeSet) (arrival : Nat) (damaged : Bool) (s : State) : State :=
  if !decodes s p then s
  else if !timeSetGood x damaged then
    bumpBy (0x4010 + p.val) 3 1 32 (modPortTime p (fun q => { q with clean := 0 }) s)
  else
    let s := advanceTo (arrival / 64) (bumpBy (0x4010 + p.val) 2 1 32 s)
    let q := (s.port p).time
    let t4 := estimate s.time arrival
    let st := x.status.toNat % 8
    let moved := st ≠ q.partnerState ∧ (st < 2 ∨ q.partnerState < 2)
    let q := if moved then { q with changedAt := s.time.ft } else q
    let samples := match delaySample q x t4 with
      | some d => (d :: q.samples).take 16
      | none => q.samples
    let delay := match average samples with
      | some d => some d
      | none => q.delay
    let t3 := (x.count.toNat : Int) * 64 + x.txLate.toNat + x.phi.toInt
    let offset := t3 + delay.getD 0 - t4
    let clean := if q.suspect then q.clean + 1 else 0
    let own := if leadCrier s.time then some (sourceField s).toNat else s.time.source
    let isParent := s.time.parent = some p.val
    let foreign := match own with
      | some c => c != x.source.toNat && !decide isParent
      | none => false
    let q := { q with
      partnerStratum := x.status.toNat / 16, partnerState := st, partnerSource := some x.source.toNat,
      partnerRound := 2 ^ x.round.toNat, foreign := foreign,
      roundMismatch := 2 ^ x.round.toNat != s.time.round,
      echo := some (x.count.toNat % 2 ^ 32, twos 32 t4),
      samples := samples, delay := delay, offset := offset,
      clean := if 16 ≤ clean then 0 else clean, suspect := q.suspect && decide (clean < 16),
      epOut := role s p == 1 && decide (64 < offset.natAbs) }
    let s := modPortTime p (fun _ => q) s
    let s := odSet (0x4010 + p.val) 7 (twos 32 (delay.getD 0)) (odSet (0x4010 + p.val) 8 (twos 32 offset) s)
    let s := if isParent then
        let s := modTime (fun t => { t with
          source := some x.source.toNat,
          stratum := if t.sourceSel == 1 && t.role == 2 then 1 else min 15 (x.status.toNat / 16 + 1) }) s
        match delay with
        | some d => followParent p x arrival d s
        | none => s
      else s
    let before := s.time.parent
    let s := judgeState s
    -- the set that makes its port the parent also gives the first φ
    match delay with
    | some d => if s.time.parent = some p.val ∧ before ≠ some p.val then followParent p x arrival d s else s
    | none => s

/-! ### Rounds -/

/-- The next round start that has not been taken. -/
def nextRoundStart (t : Time) : Nat :=
  let n := ceilTo t.round t.ft
  if t.lastRound = some n then n + t.round else n

/-- Step FT by the rounded φ on entry to LOCKED from ACQUIRING (R51, R52). -/
def stepTime (t : Time) : Time :=
  let k := (t.phi + 32) / 64
  { t with ft := ((t.ft : Int) + k).toNat, phi := t.phi - 64 * k, trims := [], farSets := 0,
           beatNext := t.beatNext.map (fun b => b + 64 * k),
           lastSample := t.lastSample.map (fun e => (e.1 + 64 * k, e.2)) }

/-- What the fabric-time unit does at a round start (R38, R51, R53). -/
def roundStartTime (s : State) : State :=
  let s := advanceTo (nextRoundStart s.time) s
  let s := modTime (fun t => { t with lastRound := some t.ft }) s
  -- R53: firing stops at the N-th round start after entry
  let s := if s.time.mode = .holdover then
      modTime (fun t => { t with
        holdRounds := t.holdRounds + 1,
        allowanceOver := t.allowanceOver || decide (odGet s 0x4000 0x24 ≤ t.holdRounds + 1) }) s
    else s
  let s :=
    if s.time.rewritten then
      judgeState (setMode .free (modTime (fun t => { t with
        rewritten := false, role := odGet s 0x4000 1, sourceSel := odGet s 0x4000 2, parent := none, source := none,
        stratum := 15, lockPending := false, beatSeen := 0, beatNext := none }) s))
    else if s.time.lockPending then
      let s := if leadCrier s.time then
          modTime (fun t => { t with
            stratum := t.sourceSel, source := some (sourceField s).toNat,
            phi := if t.sourceSel = 0 then 0 else t.phi }) s
        else s
      let s := if s.time.mode = .acquiring then modTime stepTime s else s
      judgeBound (setMode .locked s)
    else judgeState s
  forPorts sendTimeSet s

/-! ### Trims (R40, R45) -/

/-- 10^8 × 64 × the prediction of φ at slot `T` (R45), in ticks. -/
def prediction (t : Time) (slot : Nat) : Int :=
  let since := match t.lastSample with
    | some (a, _) => (slot : Int) * 64 - a
    | none => 1024 * 64
  let waiting := t.trims.foldl (fun (n : Int) e => n + trimPhi e.2) 0
  (t.phi + waiting) * 100000000 - t.rate * since

/-- The decision of R45. A lead crier on its own reference never trims; only LOCKED and HOLDOVER trim (assumption 9). -/
def trimFor (t : Time) (slot : Nat) : Trim :=
  if !tracking t then .none
  else if leadCrier t && (t.sourceSel == 0 || t.beatFault) then .none
  else if 32 * 100000000 < prediction t slot then .skip
  else if prediction t slot < -(32 * 100000000) then .hold
  else .none

/-- TRIM_DECISION (R45, R40): at trim slot T − 1,024; a notice leaves on every link. -/
def trimDecision (s : State) : State :=
  let s := advanceTo (nextTrimSlot s.time.ft) s
  let slot := s.time.ft + 1024
  if (s.time.trims.any (fun e => e.1 == slot)) then s
  else
    match trimFor s.time slot with
    | .none => s
    | k =>
      let s := modTime (fun t => { t with trims := t.trims ++ [(slot, k)] }) s
      forPorts (fun p s => if role s p = 0 then s else emit (.trimNotice p.val slot (k == .hold)) s) s

/-- TRIM_SLOT (R32): the next trim slot passes; a hold adds one tick to φ and a skip takes one. -/
def trimSlotPass (s : State) : State :=
  let slot := nextTrimSlot s.time.ft
  judgeBound (modTime (fun t => { carryTrim slot (advanceTime slot t) with ft := slot + 1, holdCycle := false }) s)

/-- The trim slot that the low 16 bits of a notice name, seen from the own FT (R40). -/
def noticeSlot (ft low : Nat) : Nat := ft + (low + 65536 - ft % 65536) % 65536

/-- TRIM_NOTICE_RECEIVE (R40, R44). -/
def trimNoticeReceive (p : PortN) (low : BitVec 16) (kind comp : BitVec 8) (s : State) : State :=
  let slot := noticeSlot s.time.ft low.toNat
  let good := comp == ~~~kind && (kind == 1 || kind == 2) && trimSlot slot && decide (256 ≤ slot - s.time.ft)
    && decide (slot - s.time.ft ≤ 1088)
  if !decodes s p then s
  else if !good then bump (portIndex p 8) 4 (bumpBy (0x4010 + p.val) 5 1 32 s)
  else if s.time.parent = some p.val then
    judgeState (modTime (fun t => { t with
      parentTrims := t.parentTrims ++ [(slot, if kind = 1 then .hold else .skip)] }) s)
  else s

/-! ### Loss (R57) -/

/-- A port becomes suspect, and is lost as a parent. -/
def makeSuspect (p : PortN) (s : State) : State :=
  if (s.port p).time.suspect then s
  else
    let s := bumpBy (0x4010 + p.val) 4 1 32
      (modPortTime p (fun q => { q with suspect := true, clean := 0, samples := [], delay := none }) s)
    if s.time.parent = some p.val then judgeState s else s

/-! ### `BEATREF` (R56) -/

/-- The unit listens to `BEATREF`. -/
def listens (t : Time) : Bool := t.role != 0 && t.sourceSel == 1

/-- An edge ignored or missing: counted, and two in a row set BEATREF_FAULT. -/
def beatMiss (s : State) : State :=
  let s := bumpBy 0x4000 0x25 1 32 s
  let bad := s.time.beatBad + 1
  let s := modTime (fun t => { t with
    beatBad := bad, beatGood := 0,
    beatNext := t.beatNext.map (fun b => b + 64 * t.round) }) s
  if 2 ≤ bad ∧ s.time.beatFault = false then
    let s := modTime (fun t => { t with beatFault := true }) s
    raiseCause 5 (log 0x4002 [twos 32 s.time.phi, timeStatus s] s)
  else s

/-- BEATREF_EDGE (R56): `stamp` is the edge's own stamp in 1/64 tick. -/
def beatrefEdge (stamp : Nat) (s : State) : State :=
  if !listens s.time then s
  else
    let s := advanceTo (stamp / 64) s
    let off : Int := match s.time.beatNext with
      | some b => (stamp : Int) - b
      | none => 0
    if 256 < off.natAbs then beatMiss s
    else
      let r : Int := 64 * s.time.round
      -- the reference round start that the pulse marks; a tracking crier takes the count from its parent
      let near : Int := (stamp : Int) + (if s.time.parent.isSome || tracking s.time then s.time.phi else 0)
      let mark := (near + r / 2) / r * r
      let good := s.time.beatGood + 1
      let phi := mark - stamp
      judgeState (judgeBound (modTime (fun t => { t with
        beatBad := 0, beatGood := good, beatSeen := t.beatSeen + 1, beatFault := t.beatFault && decide (good < 16),
        beatNext := some ((stamp : Int) + r), phi := if t.beatFault && decide (good < 16) then t.phi else phi,
        farSets := if 512 < phi.natAbs then t.farSets + 1 else 0 }) s))

/-! ### Writes -/

/-- ROUND_LENGTH_WRITE (R54). -/
def roundLengthWrite (src : Route) (v : Nat) (s : State) : State :=
  let s := beginOp s
  if odGet s 0x4000 5 ≠ 0 then refuseRule s
  else keepScalar src 0x4000 4 32 v (clampTo 1024 65536 (pow2Down (max v 1))) s

/-- ROUND_ARM_WRITE (R54, R55). -/
def roundArmWrite (src : Route) (v : Nat) (s : State) : State :=
  let s := beginOp s
  let len := odGet s 0x4000 4
  keepArm src 0x4000 5 v (armTick s.time.ft (max s.time.round len) v)
    (modTime (fun t => { t with armedRound := len }) s)

/-- TIME_ROLE_WRITE (R51): takes effect at the next round start. -/
def timeRoleWrite (src : Route) (v : Nat) (s : State) : State :=
  modTime (fun t => { t with rewritten := true }) (keepScalar src 0x4000 1 8 v (min v 2) (beginOp s))

/-- TIME_SOURCE_WRITE (R51). -/
def timeSourceWrite (src : Route) (v : Nat) (s : State) : State :=
  modTime (fun t => { t with rewritten := true }) (keepScalar src 0x4000 2 8 v (min v 1) (beginOp s))

/-! ### Meanings -/

/-- TIME_SET_RECEIVE (R44). -/
def execTimeSetReceive (p : PortN) (x : TimeSet) (arrival : Nat) (damaged : Bool) (s : State) :
    Host.Outcome State Fault Refusal := .next (timeSetReceive p x arrival damaged s)

/-- TRIM_DECISION (R45). -/
def execTrimDecision (s : State) : Host.Outcome State Fault Refusal := .next (trimDecision s)

/-- TRIM_SLOT (R32). -/
def execTrimSlot (s : State) : Host.Outcome State Fault Refusal := .next (trimSlotPass s)

/-- TRIM_NOTICE_RECEIVE (R40). -/
def execTrimNoticeReceive (p : PortN) (low : BitVec 16) (kind comp : BitVec 8) (s : State) :
    Host.Outcome State Fault Refusal := .next (trimNoticeReceive p low kind comp s)

/-- SUSPECT_TIMEOUT (R57). -/
def execSuspectTimeout (p : PortN) (s : State) : Host.Outcome State Fault Refusal := .next (makeSuspect p s)

/-- HOLDOVER_ALLOWANCE_END (R53): at the round start that ends the allowance. -/
def execHoldoverAllowanceEnd (s : State) : Host.Outcome State Fault Refusal :=
  .next (if s.time.mode = .holdover then
      modTime (fun t => { advanceTime (ceilTo t.round t.ft) t with allowanceOver := true }) s
    else s)

/-- ROUND_LENGTH_WRITE (R54). -/
def execRoundLengthWrite (src : Route) (v : BitVec 32) (s : State) : Host.Outcome State Fault Refusal :=
  .next (roundLengthWrite src v.toNat s)

/-- ROUND_ARM_WRITE (R54). -/
def execRoundArmWrite (src : Route) (v : BitVec 64) (s : State) : Host.Outcome State Fault Refusal :=
  .next (roundArmWrite src v.toNat s)

/-- ROUND_CHANGE (R54, R55): at the arm tick the armed length takes effect and the entry returns to 0. -/
def execRoundChange (s : State) : Host.Outcome State Fault Refusal :=
  .next (if odGet s 0x4000 5 = 0 then s
    else
      let s := advanceTo (odGet s 0x4000 5) s
      odSet 0x4000 5 0 (modTime (fun t => { t with round := t.armedRound }) s))

/-- TIME_ROLE_WRITE (R51). -/
def execTimeRoleWrite (src : Route) (v : BitVec 8) (s : State) : Host.Outcome State Fault Refusal :=
  .next (timeRoleWrite src v.toNat s)

/-- TIME_SOURCE_WRITE (R51). -/
def execTimeSourceWrite (src : Route) (v : BitVec 8) (s : State) : Host.Outcome State Fault Refusal :=
  .next (timeSourceWrite src v.toNat s)

/-- BEATREF_EDGE (R56). -/
def execBeatrefEdge (stamp : Nat) (s : State) : Host.Outcome State Fault Refusal := .next (beatrefEdge stamp s)

/-- BEATREF_MISSING (R56). -/
def execBeatrefMissing (s : State) : Host.Outcome State Fault Refusal :=
  .next (if listens s.time then beatMiss s else s)

end Sys2Proof.Machine
end

