-- ==== Sys2Proof/Machine/Ledger.lean ====
section
/-!
DEFINITION. The ledger (R125, R130–R135): pools, buffers, references and credits.
-/

namespace Sys2Proof.Machine

open Sys2Proof

/-- Buffers of a stall. -/
def stallBuffers : Nat := 6400

/-- The store number of the reply store (R134). -/
def replyStore : Nat := 24

/-- The store number of a cell that sits in no ledger store: the resident BEP's departure buffers (R124). -/
def departureStore : Nat := 25

/-- Key of a buffer. -/
def bufKey (store index : Nat) : Nat := store * stallBuffers + index

/-- A buffer's descriptor. -/
def getBuf (s : State) (store index : Nat) : Buf := mapGetD s.sw.bufs (bufKey store index) {}

/-- Replace a buffer's descriptor, touching it (R134). -/
def setBuf (store index : Nat) (b : Buf) (s : State) : State :=
  { s with sw := { s.sw with bufs := mapSet s.sw.bufs (bufKey store index) { b with touched := true } } }

/-- VCs with credit (R105). -/
def credited (vc : Nat) : Bool := vc ≤ 8 || vc == 11

/-- Credits that a role advertises by default (R105). -/
def defaultCredit (role vc : Nat) : Nat :=
  if vc < 8 then (if role = 1 then 640 else 656)
  else if vc = 8 then (if role = 1 then 128 else 0)
  else if vc = 11 then 128
  else 0

/-- Credits that port `p` advertises on a VC at its next entry to ACTIVE (R123). -/
def advertised (s : State) (p : PortN) (vc : Nat) : Nat :=
  let v := odGet s (0x3210 + p.val) (vc + 1)
  if v = 0 then defaultCredit (role s p) vc else v

/-- The layout of R125: where the pool of a VC starts. -/
def poolStart (adv : Vector Nat 12) (vc : Nat) : Nat :=
  (List.range vc).foldl (fun n u => n + adv.toList.getD u 0) 0

/-- Size of the pool of a VC. -/
def poolSize (adv : Vector Nat 12) (vc : Nat) : Nat := adv.toList.getD vc 0

/-- Does buffer `index` lie in the pool of `vc`? -/
def inPool (adv : Vector Nat 12) (vc index : Nat) : Bool :=
  decide (poolStart adv vc ≤ index) && decide (index < poolStart adv vc + poolSize adv vc)

/-- Allocated buffers of a stall's pool of one VC. -/
def poolHeld (s : State) (p : PortN) (adv : Vector Nat 12) (vc : Nat) : Nat :=
  (s.sw.bufs.filter (fun e => e.2.bit && e.1 / stallBuffers == p.val && inPool adv vc (e.1 % stallBuffers))).length

/-- The lowest-numbered free buffer of a pool (R132). -/
def findFree (s : State) (p : PortN) (vc : Nat) : Option Nat :=
  let adv := (s.port p).adv
  ((List.range (poolSize adv vc)).map (fun k => poolStart adv vc + k)).find? (fun i => !(getBuf s p.val i).bit)

/-- Allocated buffers of a stall now. -/
def allocated (s : State) (stall : Nat) : Nat :=
  (s.sw.bufs.filter (fun e => e.2.bit && e.1 / stallBuffers == stall)).length

/-- A pointer as R134 lays it out. -/
def pointer (store index : Nat) : Nat := store * 2 ^ 27 + index * 320

/-- A ledger fault is logged and counted (R134, R454). Checks are numbered in the order of R134's table. -/
def ledgerFault (store index check : Nat) (s : State) : State :=
  let s := bump 0x3300 0x18 s
  let s := if store < 24 then bump (0x3310 + store) 4 s else s
  log 0x3301 [pointer store index, check]
    { s with sw := { s.sw with faultTimes := (s.time.ft :: s.sw.faultTimes).take 16 } }

/-- One credit of a VC returns to the partner: C_v rises (R106). -/
def returnCredit (stall vc : Nat) (s : State) : State :=
  if h : stall < 24 then
    if credited vc then
      modPort ⟨stall, h⟩ (fun q => { q with credC := q.credC.setIfInBounds vc ((q.credC.toList.getD vc 0 + 1) % 65536) }) s
    else s
  else s

/-- The bitmap bit is cleared and the credit returned (R133). -/
def freeBuf (store index : Nat) (s : State) : State :=
  let b := getBuf s store index
  returnCredit store b.vc (setBuf store index { b with bit := false, ref := 0, held := 0, cell := none } s)

/-- The note of a stall's highest allocation (R149). -/
def noteHighest (stall : Nat) (s : State) : State :=
  { s with sw := { s.sw with highest :=
      s.sw.highest.setIfInBounds stall (max (s.sw.highest.toList.getD stall 0) (allocated s stall)) } }

/-- Give an arriving cell the lowest free buffer of its VC's pool; none where the pool is empty (R132). -/
def allocBuf (p : PortN) (vc tenant : Nat) (c : Cell) (s : State) : Option Nat × State :=
  match findFree s p vc with
  | none => (none, log 0x3303 [p.val, vc] (bump (0x3310 + p.val) 3 s))
  | some i =>
    let b : Buf := { bit := true, arrival := s.time.ft, vc := vc, tenant := tenant, cell := some c }
    (some i, noteHighest p.val (bump (0x3310 + p.val) 1 (setBuf p.val i b s)))

/-- New holders of a buffer: REF and HELD rise, up to REF 255 (R133, R134). Answers how many were added. -/
def addHolders (store index n : Nat) (s : State) : Nat × State :=
  let b := getBuf s store index
  let k := min n (255 - b.ref)
  let s := setBuf store index { b with ref := b.ref + k, held := b.held + k } s
  (k, if k < n then ledgerFault store index 5 s else s)

/-- One copy departs or is discarded: REF and HELD fall, and the buffer is freed at REF 0 (R133, R134). -/
def releaseCopy (store index : Nat) (s : State) : State :=
  if store = departureStore then s
  else
    let b := getBuf s store index
    if b.ref = 0 ∨ b.bit = false then ledgerFault store index 4 s
    else if b.ref = 1 then freeBuf store index s
    else setBuf store index { b with ref := b.ref - 1, held := b.held - 1 } s

/-- Buffers of the pool of `vc` that a tenant holds (R130). -/
def tenantHeld (s : State) (p : PortN) (vc tenant : Nat) : Nat :=
  (s.sw.bufs.filter (fun e => e.2.bit && e.1 / stallBuffers == p.val && e.2.vc == vc && e.2.tenant == tenant)).length

/-- The cap of R130. -/
def tenantCap (s : State) (p : PortN) (vc tenant : Nat) : Nat :=
  poolSize (s.port p).adv vc * odGet s 0x3301 (tenant + 1) / 64

/-- A free buffer of the reply store; in isolated mode a tenant holds at most 4 (R440). -/
def findReply (s : State) (tenant : Nat) : Option Nat :=
  let own := ((List.range 64).filter (fun i => (getBuf s replyStore i).bit && (getBuf s replyStore i).tenant == tenant)).length
  if isolated s && decide (4 ≤ own) then none
  else (List.range 64).find? (fun i => !(getBuf s replyStore i).bit)

/-- Entry of a port to ACTIVE: the layout of R125, and the counts of R106. -/
def layPools (p : PortN) (s : State) : State :=
  let new : Vector Nat 12 := Vector.ofFn (fun v => advertised s p v.val)
  let held := s.sw.bufs.filter (fun e => e.2.bit && e.1 / stallBuffers == p.val && decide (e.1 % stallBuffers < 5376))
  let ok := held.all (fun e => inPool new e.2.vc (e.1 % stallBuffers))
  let adv := if ok then new else (s.port p).adv
  modPort p (fun q => { q with
    adv := adv, credS := Vector.replicate 12 0, credR := Vector.replicate 12 none,
    credC := Vector.ofFn (fun v => poolSize adv v.val - poolHeld s p adv v.val) }) s

/-- Credit toward the partner on a VC (R106). -/
def creditFor (s : State) (p : PortN) (vc : Nat) : Nat :=
  match (s.port p).credR.toList.getD vc none with
  | none => 0
  | some c => (c + 65536 - (s.port p).credS.toList.getD vc 0) % 65536

/-! ### Issue to a link (R84, R106) -/

/-- The port is in ACTIVE and its replay buffer has room. -/
def linkReady (s : State) (p : PortN) : Bool := (s.port p).train == .active && (s.port p).replay.length < 2048

/-- A cell is issued to a port: it takes a SEQ, enters the replay buffer, uses a credit and leaves. -/
def issueCell (p : PortN) (c : Cell) (s : State) : State :=
  let q := s.port p
  let vc := c.vc.toNat
  let s := emit (.cell p.val q.nextSeq.toNat (q.expSeq - 1).toNat c) (bump (portIndex p 7) 1 s)
  modPort p (fun q => { q with
    replay := q.replay ++ [(q.nextSeq, c)], nextSeq := q.nextSeq + 1,
    credS := if credited vc then q.credS.setIfInBounds vc ((q.credS.toList.getD vc 0 + 1) % 65536) else q.credS,
    rttLimited := q.rttLimited || decide (2048 ≤ q.replay.length + 1) }) s

/-- A link-local cell of this GV24 goes straight to the link at a VC11 opportunity (assumption 13). -/
def vc11Open (s : State) (p : PortN) : Bool := linkReady s p && decide (0 < creditFor s p 11)

/-! ### The sump audit (R135) -/

/-- What a visit finds: 0 nothing, 1 a leak, 2 counts that differ, 3 a free buffer with holders. -/
def auditFinding (b : Buf) : Nat :=
  if b.bit then (if b.ref = 0 ∧ b.held = 0 then 1 else if b.ref ≠ b.held then 2 else 0)
  else if b.ref ≠ 0 ∨ b.held ≠ 0 then 3
  else 0

/-- The action on a finding made twice with the flag still clear. -/
def auditAct (stall index : Nat) (b : Buf) (s : State) : State :=
  let f := auditFinding b
  let counter := if f = 1 then 5 else if f = 2 then 6 else 7
  let s := log 0x3302 [stall, index, b.ref, b.held] (bump (0x3310 + stall) counter s)
  if odGet s 0x3300 7 = 0 then s
  else if f = 1 then freeBuf stall index s
  else if f = 2 then
    let s := setBuf stall index { b with ref := b.held } s
    if b.held = 0 then freeBuf stall index s else s
  else setBuf stall index { b with bit := true, ref := b.held } s

/-- One visit of one descriptor. -/
def auditVisit (stall index : Nat) (s : State) : State :=
  match mapGet s.sw.bufs (bufKey stall index) with
  | none => s
  | some b =>
    let f := auditFinding b
    let again := f ≠ 0 ∧ b.finding = f ∧ b.touched = false
    let s := if again then auditAct stall index b s else s
    let b : Buf := { getBuf s stall index with touched := false, finding := if again then 0 else f }
    { s with sw := { s.sw with bufs := mapSet s.sw.bufs (bufKey stall index) b } }

/-- The next tick at or after FT whose FT mod `m` is `r`, in background slots (R146). -/
def slotTick (ft m r : Nat) : Nat := ft + (r + m - ft % m) % m

/-- The slot of a background activity: the next one where its own is skipped (R146). -/
def backgroundTick (s : State) (m r : Nat) : Nat :=
  let t := slotTick s.time.ft m r
  if decided s.time t = .skip then t + m else t

/-- SUMP_AUDIT (R135, R146): 8 descriptors of every stall. -/
def sumpAudit (s : State) : State :=
  let s := advanceTo (backgroundTick s 512 255) s
  let at' := s.sw.auditPos
  let s := (List.range 24).foldl (fun s st =>
    (List.range 8).foldl (fun s k => auditVisit st ((at' + k) % stallBuffers) s) s) s
  { s with sw := { s.sw with auditPos := (at' + 8) % stallBuffers } }

end Sys2Proof.Machine
end

