-- ==== Sys2Proof/Machine/Flags.lean ====
section
/-!
DEFINITION. Status words and flags: the read-only entries and registers that are computed from the state.
-/

namespace Sys2Proof.Machine

open Sys2Proof

/-! ### Fabric time (R61) -/

/-- OD (4010h + n).01. -/
def portTimeStatus (q : PortTime) : Nat :=
  q.partnerStratum * 256 + q.partnerState * 16 + flag q.foreign 3 + flag q.roundMismatch 2 + flag q.suspect 1 + flag q.epOut 0

/-! ### Links (R16, R90–R93) -/

/-- Code of a training state (R71). -/
def trainCode : Train → Nat
  | .disabled => 0
  | .detect => 1
  | .lock => 2
  | .slip => 3
  | .fecAlign => 4
  | .deskew => 5
  | .exchange => 6
  | .active => 7

/-- Code of a width (R70). -/
def widthCode : Width → Nat
  | .none => 0
  | .full => 1
  | .lower => 2
  | .upper => 3

/-- Mask of the lanes for which `f` holds. -/
def laneMask (q : Port) (f : Lane → Bool) : Nat :=
  q.lanes.toList.foldr (fun l n => flag (f l) 0 + 2 * n) 0

/-- A global port whose link keys are not installed (R88). -/
def keysPending (s : State) (p : PortN) : Bool := role s p == 3 && ((s.port p).key.txKey.isNone || (s.port p).key.rxKey.isNone)

/-- The link runs at half width (R82). -/
def halfWidth (q : Port) : Bool := q.width == .lower || q.width == .upper

/-- OD (B + 2).07. -/
def linkFlags (s : State) (p : PortN) : Nat :=
  let q := s.port p
  flag (keysPending s p) 7 + flag q.versionFail 6 + flag q.widthFail 5 + flag q.slipTimeout 4 + flag q.holdExpired 3
    + flag q.rttLimited 2 + flag q.elasticFault 1 + flag (q.train == .active && halfWidth q) 0

/-- OD (B + 3).0i. -/
def laneAlignment (l : Lane) : Nat := flag l.done 31 + l.offset % 10 * 2 ^ 24 + min 0xFFFF l.hits

/-- OD (B + 4).0i. -/
def laneHealth (l : Lane) : Nat :=
  flag l.inUse 7 + flag l.failed 6 + l.cause % 4 * 16 + flag l.deskewed 3 + flag l.fecAligned 2 + flag l.lol 1 + flag l.los 0

/-- The partner identity of a port (R16). -/
def partnerIdentity (q : Port) : Nat := q.partnerCoord.toNat * 65536 + q.partnerKind * 256 + q.status

/-! ### Routes (R123) -/

/-- Code of a bank state (R123). -/
def bankCode : BankState → Nat
  | .idle => 0
  | .armed => 1
  | .active => 2
  | .draining => 3

end Sys2Proof.Machine
end

