-- ==== Sys2Proof/Machine/Routes.lean ====
section
/-!
DEFINITION. Route banks and path choice (R108–R118), epoch notices (R119) and `TIM` cells (R120).
-/

namespace Sys2Proof.Machine

open Sys2Proof

/-! ### Banks (R112, R115) -/

/-- Bank 0 or 1. -/
def bank (s : State) (b : Nat) : RouteBank := if b = 0 then s.routes.bank0 else s.routes.bank1

/-- Change a bank. -/
def modBank (b : Nat) (f : RouteBank → RouteBank) (s : State) : State :=
  if b = 0 then { s with routes := { s.routes with bank0 := f s.routes.bank0 } }
  else { s with routes := { s.routes with bank1 := f s.routes.bank1 } }

/-- The bank that writes go to: the one OD 3100.01 does not name (R115). -/
def targetBank (s : State) : Nat := 1 - s.routes.current

/-- A group entry. -/
def groupEntry (b : RouteBank) (g : Nat) : Nat := ((mapGet b.group g).getD 0xFF).toNat

/-- A member entry. -/
def memberEntry (b : RouteBank) (i : Nat) : Nat := ((mapGet b.member i).getD 0xFF).toNat

/-- A port entry. -/
def portEntry (b : RouteBank) (p : Nat) : Nat := ((mapGet b.port p).getD 0xFFFF0000).toNat

/-! ### Path choice (R108–R111, R113) -/

/-- What a cell arrives by. -/
inductive From where
  | endPoint | bep | local | global
  deriving DecidableEq, Repr

/-- What a port's role makes of an arrival. -/
def fromRole (r : Nat) : From := if r = 2 then .local else if r = 3 then .global else .endPoint

/-- A cell's arrival at its ingress GV24 (R111). -/
def isIngress : From → Bool
  | .endPoint => true
  | .bep => true
  | .local => false
  | .global => false

/-- The candidates for an intermediate group (R111). -/
def candidates (b : RouteBank) (first own dest : Nat) : List Nat :=
  ((List.range b.ngroups).map (fun k => (first + k) % b.ngroups)).filter (fun g => g != own && g != dest)

/-- The path the ingress GV24 chooses: NONMIN and VIA (R111). -/
def choosePath (b : RouteBank) (own : Nat) (c : Cell) : Cell :=
  let g := coordG (cellDest c)
  let minimal := { c with nonmin := false, via := 0 }
  if g = own then minimal
  else
    let e := groupEntry b g
    if bits e 16 2 = 2 then
      let h := (crc32c (natLe 2 c.src.toNat ++ natLe 2 (cellDest c).toNat ++ natLe 4 b.salt.toNat)).toNat
      let a := h % (bits e 20 6 + 1)
      if a = 0 then minimal
      else
        let l := candidates b (bits e 32 8) own g
        if l.isEmpty then minimal
        else { c with nonmin := true, via := BitVec.ofNat 8 (l.getD ((a - 1) % l.length) 0) }
    else minimal

/-- The stage a cell arrives at (R108). -/
def arrivalStage (fr : From) (vc : Nat) : Nat := if isIngress fr then 0 else vc % 4

/-- What becomes of a cell at step 5 of R126. -/
inductive Fate where
  /-- forwarded to an output 0–24, as it will leave -/
  | out (o : Nat) (c : Cell)
  /-- discarded and counted in OD 3100.sub -/
  | drop (sub : Nat)
  /-- discarded by R18 on a port that is not usable -/
  | unusable (p : Nat)
  deriving DecidableEq, Repr

/-- The output that a bank names for a cell; none where unreachable (R113). -/
def lookup (s : State) (b : RouteBank) (c : Cell) : Option Nat :=
  let target := if c.nonmin then c.via.toNat else coordG (cellDest c)
  if target ≠ odGet s 0x3000 1 then
    let e := groupEntry b target
    if bits e 16 2 = 0 ∨ bits e 0 8 = 0xFF then none else some (bits e 0 8)
  else if coordS (cellDest c) ≠ odGet s 0x3000 2 then
    let e := memberEntry b (coordS (cellDest c))
    if bits e 0 8 = 0xFF then none else some (bits e 0 8)
  else
    let p := coordP (cellDest c)
    let e := portEntry b p
    if bits e 0 2 = 0 then none
    else if h : p < 24 then (if role s ⟨p, h⟩ = 1 then some p else none)
    else if p = 31 then some 24
    else none

/-- The cell as R113 forwards it: path, stage (R108), path shape (R109) and the state of the output. -/
def routeCell (s : State) (fr : From) (c : Cell) : Fate :=
  let b := bank s c.epoch.toNat
  if b.state = .idle then .drop 0x10
  else
    let own := odGet s 0x3000 1
    let c := if isIngress fr then choosePath b own c
      else if fr = .global ∧ c.nonmin = true ∧ c.via.toNat = own then { c with nonmin := false }
      else c
    match lookup s b c with
    | none => .drop 0x11
    | some o =>
      let vc := c.vc.toNat
      let st := arrivalStage fr vc
      let outRole := if h : o < 24 then role s ⟨o, h⟩ else 1
      let next := if outRole = 1 then st
        else st + (if fr = .global then 1 else 0) + (if fr = .local ∧ own ≠ coordG c.src then 1 else 0)
      if vc < 8 ∧ fr = .local ∧ st = 0 ∧ own = coordG c.src ∧ outRole = 2 then .drop 0x13
      else if vc < 8 ∧ 3 < next then .drop 0x13
      else if vc = 8 ∧ outRole ≠ 1 then .drop 0x14
      else
        let c := if vc < 8 then { c with vc := BitVec.ofNat 4 (vc / 4 * 4 + next) } else c
        if h : o < 24 then (if (s.port ⟨o, h⟩).status = 1 then .out o c else .unusable o)
        else .out o c

/-! ### Entry clamps (R112) -/

/-- A group entry's clamps, in the table's order. -/
def clampGroup (ngroups v : Nat) : Clamping :=
  let a := clampField 40 24 0 (v, [])
  let a := clampField 32 8 (if ngroups ≤ bits a.1 32 8 then 0 else bits a.1 32 8) a
  let a := clampField 26 6 0 a
  let a := clampField 20 6 (if bits a.1 16 2 = 1 then 0 else bits a.1 20 6) a
  let a := clampField 18 2 0 a
  let m := bits a.1 16 2
  let a := clampField 16 2 (if m = 3 then 0 else if m = 2 ∧ bits a.1 20 6 = 0 then 1 else m) a
  let a := clampField 8 8 0 a
  let p := bits a.1 0 8
  let a := clampField 0 8 (if 24 ≤ p then 0xFF else p) a
  if bits a.1 0 8 = 0xFF then clampField 16 2 0 a else a

/-- A member entry's clamps. -/
def clampMember (v : Nat) : Clamping :=
  let a := clampField 8 56 0 (v, [])
  clampField 0 8 (if 24 ≤ bits a.1 0 8 then 0xFF else bits a.1 0 8) a

/-- A port entry's clamps, for port number `p`. -/
def clampPort (p v : Nat) : Clamping :=
  let a := clampField 32 32 0 (v, [])
  let a := clampField 8 8 0 a
  let a := clampField 2 2 0 a
  let m := bits a.1 0 2
  clampField 0 2 (if 2 ≤ m ∨ (24 ≤ p ∧ p ≤ 30) then 0 else m) a

/-- Write an entry of the IDLE bank: table 1 group, 2 member, 3 port; `i` counts from 0. -/
def routeEntryKeep (src : Route) (table i v : Nat) (s : State) : State :=
  let t := targetBank s
  if table = 1 then
    let a := clampGroup (bank s t).ngroups v
    reportClamps src 0x3110 (i + 1) a.2
      (modBank t (fun b => { b with group := mapSet b.group i (BitVec.ofNat 64 a.1) }) s)
  else if table = 2 then
    let a := clampMember v
    reportClamps src 0x3120 (i + 1) a.2
      (modBank t (fun b => { b with member := mapSet b.member i (BitVec.ofNat 64 a.1) }) s)
  else
    let a := clampPort i v
    reportClamps src 0x3130 (i + 1) a.2
      (modBank t (fun b => { b with port := mapSet b.port i (BitVec.ofNat 64 a.1) }) s)

/-- A dictionary write of a route entry: refused unless the target bank is IDLE (R115). -/
def routeEntryWrite (src : Route) (table i v : Nat) (s : State) : State :=
  let s := beginOp s
  if (bank s (targetBank s)).state = .idle then routeEntryKeep src table i v s else refuseRule s

/-- SALT of the IDLE bank (R123). -/
def saltWrite (v : Nat) (s : State) : State :=
  let s := beginOp s
  if (bank s (targetBank s)).state = .idle then modBank (targetBank s) (fun b => { b with salt := BitVec.ofNat 32 v }) s
  else refuseRule s

/-- NGROUPS of the IDLE bank (R123). -/
def ngroupsWrite (src : Route) (v : Nat) (s : State) : State :=
  let s := beginOp s
  if (bank s (targetBank s)).state = .idle then
    let s := modBank (targetBank s) (fun b => { b with ngroups := max 1 v }) s
    if v = 0 then clamped src 0x3100 6 (scalarPlace 8) 0 1 s else s
  else refuseRule s

/-! ### Arming and switching (R115, R116) -/

/-- ROUTE_ARM_WRITE (R116). -/
def routeArmWrite (src : Route) (v : Nat) (s : State) : State :=
  let s := beginOp s
  let t := targetBank s
  if v = 0 then
    if (bank s t).state = .armed then odSet 0x3100 4 0 (modBank t (fun b => { b with state := .idle }) s)
    else odSet 0x3100 4 0 s
  else if (bank s t).state ≠ .idle ∨ (bank s (1 - t)).state = .draining then refuseRule s
  else
    let kept := armTick s.time.ft 1 v
    let s := keepArm src 0x3100 4 v kept s
    if kept = 0 then s else modBank t (fun b => { b with state := .armed }) s

/-- The coordinate by which link-local cells name the partner: g′.s′.31, or the end-point's own (R120). -/
def partnerName (q : Port) : BitVec 16 :=
  if q.partnerKind = 2 then (if q.partnerCoord = 0xFFFF then 0xFFFF else q.partnerCoord ||| 31) else q.partnerCoord

/-- An epoch notice (R119). -/
def noticeCell (s : State) (dest : BitVec 16) (epoch tick : Nat) : Cell :=
  { addr := mkAddr dest 0, src := coord s 31, vc := 11, op := opRTD, sub := 1,
    payload := natLe 1 epoch ++ List.replicate 7 0 ++ natLe 8 tick }

/-- Send the notice outstanding on a port. -/
def sendNotice (p : PortN) (s : State) : State :=
  match (s.port p).notice with
  | some (e, tick) => if vc11Open s p then issueCell p (noticeCell s (coord s p.val) e tick) s else s
  | none => s

/-- A cell of an end-point: one that carries the new epoch ends the notice to it (R119). -/
def noticeAnswered (p : PortN) (epoch : BitVec 1) : State → State :=
  modPort p (fun q => { q with notice := q.notice.filter (fun n => n.1 != epoch.toNat) })

/-- ROUTE_BANK_SWITCH (R116, R55, R119). -/
def routeBankSwitch (s : State) : State :=
  let arm := odGet s 0x3100 4
  let t := targetBank s
  if arm = 0 then s
  else
    let s := odSet 0x3100 4 0 (advanceTo arm s)
    if (bank s t).state ≠ .armed then s
    else
      let s := modBank (1 - t) (fun b => if b.state = .active then { b with state := .draining, left := s.time.ft } else b)
        (modBank t (fun b => { b with state := .active }) s)
      let s := raiseCause 4 { s with routes := { s.routes with current := t } }
      let s := forPorts (fun p s =>
        if role s p = 1 ∧ (s.port p).train = .active then
          sendNotice p (modPort p (fun q => { q with notice := some (t, s.time.ft) }) s)
        else s) s
      { s with bep := { s.bep with intake := s.bep.intake ++ [noticeCell s (coord s 31) t s.time.ft] } }

/-- ROUTE_BANK_DRAIN_END (R115): IDLE, 65,536 ticks after the bank left ACTIVE; notices toward it end (R119). -/
def routeBankDrainEnd (s : State) : State :=
  let go (b : Nat) (s : State) : State :=
    if (bank s b).state = .draining then
      let s := advanceTo ((bank s b).left + 65536) s
      raiseCause 4 (forPorts (fun p => modPort p (fun q => { q with notice := none }))
        (modBank b (fun b => { b with state := .idle }) s))
    else s
  go 1 (go 0 s)

/-- ROUTE_BANK_COPY (R123). -/
def routeBankCopy (src : Route) (v : Nat) (s : State) : State :=
  let s := beginOp s
  let t := targetBank s
  if (bank s t).state ≠ .idle then refuseRule s
  else
    let a := bank s (1 - t)
    onlyOne src 0x3100 7 v (modBank t (fun b =>
      { b with group := a.group, member := a.member, port := a.port, salt := a.salt, ngroups := a.ngroups }) s)

/-! ### `RTD` (R118) -/

/-- The size of a table. -/
def tableSize (table : Nat) : Nat := if table = 1 then 255 else if table = 2 then 8 else 32

/-- The layout of an `RTD` payload is legal (R118). -/
def rtdLayout (c : Cell) : Bool :=
  let table := fieldAt (payloadBytes c) 0 1
  let first := fieldAt (payloadBytes c) 1 1
  let count := fieldAt (payloadBytes c) 2 1
  1 ≤ table && table ≤ 3 && 1 ≤ count && count ≤ 30 && fieldAt (payloadBytes c) 3 5 == 0 && first + count ≤ tableSize table

/-- A cell that its own command handles leaves the list of those taken from the port's stall (assumption 10). -/
def takeFrom (p : PortN) (c : Cell) (s : State) : State := modPort p (fun q => { q with taken := q.taken.erase c }) s

/-- RTD_ROUTE_ENTRIES (R118). -/
def rtdEntries (p : PortN) (c : Cell) (s : State) : State :=
  let s := takeFrom p c s
  let ok := odGet s 0x3100 8 = 1 ∧ role s p = 2 ∧ (s.port p).partnerKind = 2
    ∧ (bank s (targetBank s)).state = .idle ∧ rtdLayout c = true
  if ok then
    let b := payloadBytes c
    (List.range (fieldAt b 2 1)).foldl (fun s k =>
      routeEntryKeep .rtd (fieldAt b 0 1) (fieldAt b 1 1 + k) (fieldAt b (8 + 8 * k) 8) s) s
  else bump 0x3100 0x18 s

/-! ### `TIM` (R120) -/

/-- The `TIM` that this GV24 sends on a port. -/
def timCell (s : State) (p : PortN) : Cell :=
  { addr := mkAddr (partnerName (s.port p)) 0, src := coord s 31, vc := 11, op := opTIM,
    payload := natLe 4 (timeStatus s) ++ natLe 4 (twos 32 s.time.phi) }

/-- TIM_SEND (R120): at a VC11 opportunity of a port in ACTIVE. -/
def timSend (p : PortN) (s : State) : State :=
  if role s p ≠ 0 ∧ vc11Open s p = true then issueCell p (timCell s p) s else s

/-- TIM_RECEIVE (R120): the two words are recorded. -/
def timReceive (p : PortN) (c : Cell) (s : State) : State :=
  odSet (0x4010 + p.val) 9 (fieldAt (payloadBytes c) 0 4)
    (odSet (0x4010 + p.val) 0xA (fieldAt (payloadBytes c) 4 4) (takeFrom p c s))

/-! ### Meanings -/

/-- ROUTE_ARM_WRITE (R116). -/
def execRouteArmWrite (src : Route) (v : BitVec 64) (s : State) : Host.Outcome State Fault Refusal :=
  .next (routeArmWrite src v.toNat s)

/-- ROUTE_BANK_SWITCH (R116). -/
def execRouteBankSwitch (s : State) : Host.Outcome State Fault Refusal := .next (routeBankSwitch s)

/-- EPOCH_NOTICE_REPEAT (R119). -/
def execEpochNoticeRepeat (p : PortN) (s : State) : Host.Outcome State Fault Refusal := .next (sendNotice p s)

/-- ROUTE_BANK_DRAIN_END (R115). -/
def execRouteBankDrainEnd (s : State) : Host.Outcome State Fault Refusal := .next (routeBankDrainEnd s)

/-- ROUTE_BANK_COPY (R123). -/
def execRouteBankCopy (src : Route) (v : BitVec 8) (s : State) : Host.Outcome State Fault Refusal :=
  .next (routeBankCopy src v.toNat s)

/-- RTD_ROUTE_ENTRIES (R118). -/
def execRtdRouteEntries (p : PortN) (c : Cell) (s : State) : Host.Outcome State Fault Refusal := .next (rtdEntries p c s)

/-- EPOCH_NOTICE_RECEIVE (R117, R119): the resident BEP stamps the new epoch from here on. -/
def execEpochNoticeReceive (c : Cell) (s : State) : Host.Outcome State Fault Refusal :=
  .next (progress .intake { s with
    ep := { s.ep with epoch := BitVec.ofNat 1 (fieldAt (payloadBytes c) 0 1) }
    bep := { s.bep with intake := s.bep.intake.erase c } })

/-- TIM_SEND (R120). -/
def execTimSend (p : PortN) (s : State) : Host.Outcome State Fault Refusal := .next (timSend p s)

/-- TIM_RECEIVE (R120). -/
def execTimReceive (p : PortN) (c : Cell) (s : State) : Host.Outcome State Fault Refusal := .next (timReceive p c s)

end Sys2Proof.Machine
end

