-- ==== Sys2Proof/Machine/Stall.lean ====
section
/-!
DEFINITION. Virtual output queues (R127), answers formed by the GV24 (R104), the flush of a port (R128) and the combining
unit (R139–R145).
-/

namespace Sys2Proof.Machine

open Sys2Proof

/-! ### Queues (R127) -/

/-- Key of a virtual output queue; per tenant on VC0–VC7 in isolated mode. -/
def voqKey (isol : Bool) (input out vc tenant : Nat) : Nat :=
  ((input * 25 + out) * 16 + vc) * 16 + (if isol && vc < 8 then tenant else 0)

/-- Output of a queue key. -/
def voqOut (k : Nat) : Nat := k / 256 % 25

/-- Input of a queue key. -/
def voqIn (k : Nat) : Nat := k / 256 / 25

/-- VC of a queue key. -/
def voqVc (k : Nat) : Nat := k / 16 % 16

/-- Tenant of a queue key. -/
def voqTenant (k : Nat) : Nat := k % 16

/-- The cells of a queue, head first. -/
def voq (s : State) (k : Nat) : List QEntry := mapGetD s.sw.voqs k []

/-- Replace a queue; an empty one is not listed. -/
def setVoq (k : Nat) (l : List QEntry) (s : State) : State :=
  { s with sw := { s.sw with voqs := if l.isEmpty then mapErase s.sw.voqs k else mapSet s.sw.voqs k l } }

/-- The queue that a cell takes from an input to an output. -/
def cellVoq (s : State) (input out : Nat) (c : Cell) : Nat := voqKey (isolated s) input out c.vc.toNat c.tenant.toNat

/-- Append a cell to its queue; its buffer gains a holder unless it has one already. -/
def enqueue (input out store index : Nat) (c : Cell) (s : State) : State :=
  let fresh := store ≠ departureStore ∧ (getBuf s store index).ref = 0
  let s := if fresh then (addHolders store index 1 s).2 else s
  let k := cellVoq s input out c
  setVoq k (voq s k ++ [{ store := store, index := index, cell := c, arrival := s.time.ft }]) s

/-- Give back a buffer whose cell is discarded. -/
def giveBack (store index : Nat) (s : State) : State :=
  if store = departureStore then s
  else if (getBuf s store index).ref = 0 then freeBuf store index s
  else releaseCopy store index s

/-- Count a cell discarded on port `p` by its status (R18). -/
def countDropped (p : Nat) (s : State) : State :=
  if h : p < 24 then modPort ⟨p, h⟩ (fun q => { q with dropped := q.dropped + 1 }) s else s

/-- Route a cell held in a buffer and queue it, or discard and count it. -/
def forward (fr : From) (input store index : Nat) (c : Cell) (s : State) : State :=
  match routeCell s fr c with
  | .out o c => enqueue input o store index c s
  | .drop sub => giveBack store index (bump 0x3100 sub s)
  | .unusable p => giveBack store index (countDropped p s)

/-- An answer formed in the request's own buffer (R104), at stage 0 (assumption 11). -/
def answerIn (input store index : Nat) (c : Cell) (s : State) : State := forward .endPoint input store index c s

/-- An answer formed in the reply store; it waits for a free buffer (R144). -/
def answerFromReply (input : Nat) (c : Cell) (s : State) : State :=
  match findReply s c.tenant.toNat with
  | some i =>
    answerIn input replyStore i c
      (setBuf replyStore i { bit := true, arrival := s.time.ft, vc := c.vc.toNat, tenant := c.tenant.toNat, cell := some c } s)
  | none => { s with sw := { s.sw with replyWait := s.sw.replyWait ++ [(input, c)] } }

/-- Answers that wait take reply buffers that have become free. -/
def serveReplies (s : State) : State :=
  s.sw.replyWait.foldl (fun s e => answerFromReply e.1 e.2 s) { s with sw := { s.sw with replyWait := [] } }

/-! ### The combining unit (R139–R145) -/

/-- The FETCH bit of an `AT` (R102). -/
def atFetch (c : Cell) : Bool := c.aux.getLsbD 8

/-- Width in bytes of an `AT` (R102). -/
def atWidth (aux : BitVec 32) : Nat := 2 ^ (aux.toNat % 4 + 1)

/-- The operand of an `AT`, within its width. -/
def atOperand (c : Cell) : Nat := fieldAt c.payload 0 8 % 2 ^ (8 * atWidth c.aux)

/-- The float format of an exact add (R102). -/
def atFmt (aux : BitVec 32) : Fmt :=
  match aux.toNat / 8 % 4 with
  | 0 => fp32
  | 1 => fp16
  | _ => bf16

/-- The request may combine (R140). -/
def combinable (s : State) (c : Cell) : Bool :=
  if c.op == opLD then (odGet s 0x3300 4).testBit 0
  else if c.op == opAT then
    (odGet s 0x3300 4).testBit 1 && ((c.sub == 1 && !atFetch c) || (c.sub != 1 && c.sub != 5 && c.sub.toNat ≤ 8))
  else false

/-- The requests agree in their key (R140); the destination port is ADDR's. -/
def sameKey (a b : Cell) : Bool :=
  a.op == b.op && a.addr == b.addr && a.tenant == b.tenant &&
    (if a.op == opLD then a.len == b.len else a.sub == b.sub && (a.aux ||| 0x100) == (b.aux ||| 0x100))

/-- An entry takes further joiners. -/
def entryOpen (e : CombEntry) : Bool := !e.closed

/-- Signed comparison of operands of a width. -/
def atLess (aux : BitVec 32) (a b : Nat) : Bool :=
  if aux.getLsbD 2 then decide (signed (8 * atWidth aux) a < signed (8 * atWidth aux) b) else decide (a < b)

/-- One step of an `AT` on values of its width, the exact float add apart (R102, R174): the new value. -/
def atStep (sub : Nat) (aux : BitVec 32) (v op : Nat) : Nat :=
  match sub with
  | 0 => (v + op) % 2 ^ (8 * atWidth aux)
  | 2 => if atLess aux op v then op else v
  | 3 => if atLess aux v op then op else v
  | 4 => op
  | 6 => v &&& op
  | 7 => v ||| op
  | 8 => v ^^^ op
  | _ => v

/-- The exact sum of float operands. -/
def floatSum (f : Fmt) (l : List Nat) : FV := sumFV .rne (l.map (decodeFV f))

/-- The operand a combined leader carries (R142). -/
def combinedOperand (e : CombEntry) : Nat :=
  let ops := e.members.map (fun j => j.operand)
  if e.leader.sub = 1 then roundFV (atFmt e.leader.aux) .rne false (floatSum (atFmt e.leader.aux) ops)
  else match ops with
    | [] => 0
    | o :: r => r.foldl (atStep e.leader.sub.toNat e.leader.aux) o

/-- What fetching member `k` receives, `v` being the previous value (R142). -/
def memberValue (e : CombEntry) (k v : Nat) : Nat :=
  (e.members.take k).foldl (fun v j => atStep e.leader.sub.toNat e.leader.aux v j.operand) v

/-- Joiner records in use (R148). -/
def joinersUsed (s : State) : Nat := s.sw.comb.foldl (fun n e => n + (e.2.members.length - 1)) 0

/-- The limits of entries and records: R139, and R440 in isolated mode. -/
def entryFree (s : State) (tenant : BitVec 4) : Option Nat :=
  let own := (s.sw.comb.filter (fun e => e.2.leader.tenant == tenant)).length
  if isolated s && 256 ≤ own then none else mapFree s.sw.comb 4096

/-- A joiner record is free. -/
def recordFree (s : State) (tenant : BitVec 4) : Bool :=
  let own := (s.sw.comb.filter (fun e => e.2.leader.tenant == tenant)).foldl (fun n e => n + (e.2.members.length - 1)) 0
  decide (joinersUsed s < 32768) && !(isolated s && decide (2048 ≤ own))

/-- A request's record. -/
def joinerOf (s : State) (input out : Nat) (c : Cell) : Joiner :=
  { src := c.src, tag := c.tag, cmark := c.cmark.toNat, operand := atOperand c, fetch := atFetch c,
    voq := cellVoq s input out c, input := input }

/-- Step 8 of R126: the outcomes of combining. -/
inductive Combine where
  | join (entry : Nat)
  | lead (entry : Nat)
  /-- passed on uncombined, counted in OD 3300.sub (0: not combinable, not counted) -/
  | pass (sub : Nat)
  deriving DecidableEq, Repr

/-- The decision of R141 for a request from `input` to port `out`. -/
def combineDecision (s : State) (input out : Nat) (c : Cell) : Combine :=
  if !combinable s c then .pass 0
  else
    let matching := s.sw.comb.filter (fun e => e.2.port == out && sameKey e.2.leader c)
    match matching.find? (fun e => entryOpen e.2) with
    | some (k, e) =>
      if odGet s 0x3300 6 ≤ e.members.length ∨ recordFree s c.tenant = false then .pass 0x13
      else if !(voq s (cellVoq s input out c)).isEmpty then .pass 0x14
      else if c.op = opAT ∧ c.sub = 1 ∧
          exactIn (atFmt c.aux) (floatSum (atFmt c.aux) (e.members.map (fun j => j.operand) ++ [atOperand c])) = false then .pass 0x14
      else .join k
    | none =>
      if c.op = opLD ∧ matching.isEmpty = false then .pass 0x14
      else match entryFree s c.tenant with
        | some k => .lead k
        | none => .pass 0x12

/-- Steps 8 and 9 of R126 for a request to an end-point port. -/
def combineOrQueue (input out store index : Nat) (c : Cell) (s : State) : State :=
  match combineDecision s input out c with
  | .join k =>
    let s := bump 0x3300 (if c.op = opLD then 0x10 else 0x11) s
    let j := joinerOf s input out c
    giveBack store index
      { s with sw := { s.sw with comb := mapMod s.sw.comb k (fun e => { e with members := e.members ++ [j] }) } }
  | .lead k =>
    let e : CombEntry := { port := out, leader := c, members := [joinerOf s input out c], isLd := c.op == opLD }
    enqueue input out store index c { s with sw := { s.sw with comb := mapSet s.sw.comb k e } }
  | .pass 0 => enqueue input out store index c s
  | .pass sub => enqueue input out store index c (bump 0x3300 sub s)

/-- A queue is held until the leader of a joined request has left (R142). -/
def voqHeld (s : State) (k : Nat) : Bool :=
  s.sw.comb.any (fun e => !e.2.departed && (e.2.members.drop 1).any (fun j => j.voq == k))

/-- The entry whose leader a departing request is. -/
def leaderEntry (s : State) (out : Nat) (c : Cell) : Option (Nat × CombEntry) :=
  s.sw.comb.find? (fun e => e.2.port == out && !e.2.departed && e.2.leader.src == c.src && e.2.leader.tag == c.tag
    && e.2.leader.addr == c.addr && e.2.leader.op == c.op)

/-- The cell that leaves for a leader: an `AT` carries the combined operand and FETCH (R142). -/
def leaderCell (e : CombEntry) (c : Cell) : Cell :=
  if e.isLd ∨ e.members.length ≤ 1 then c
  else { c with
    payload := splice c.payload 0 (natLe 8 (combinedOperand e)),
    aux := if e.members.any (fun j => j.fetch) then c.aux ||| 0x100 else c.aux }

/-- Bytes `[offset, offset + 128·n)` of two requests overlap. -/
def overlaps (a b : Cell) : Bool :=
  decide (cellOff a / 128 < cellOff b / 128 + b.len.toNat) && decide (cellOff b / 128 < cellOff a / 128 + a.len.toNat)

/-- A request departs to an end-point port: leaders are marked, and a write closes the `LD` entries it overlaps (R141). -/
def noteDeparture (out : Nat) (c : Cell) (s : State) : State :=
  let s := match leaderEntry s out c with
    | some (k, _) => { s with sw := { s.sw with comb := mapMod s.sw.comb k (fun e => { e with departed := true, closed := e.closed || !e.isLd }) } }
    | none => s
  if isStore c.op ∨ c.op = opAT then
    { s with sw := { s.sw with comb := s.sw.comb.map (fun e =>
        if e.2.isLd && e.2.departed && e.2.port == out && cellDest e.2.leader == cellDest c && overlaps e.2.leader c
        then (e.1, { e.2 with closed := true }) else e) } }
  else s

/-- The copy of a response for member `k` (R143, R144). -/
def memberCopy (e : CombEntry) (r : Cell) (k : Nat) (j : Joiner) : Cell :=
  let base : Cell := { r with
    addr := mkAddr j.src (cellOff r), tag := j.tag, cmark := BitVec.ofNat 2 (max j.cmark r.cmark.toNat) }
  if e.isLd ∨ r.op ≠ opDAT ∧ r.op ≠ opACK then base
  else if j.fetch then
    { base with
      op := opDAT, len := 1, last := true, aux := 0, payload := natLe 8 (memberValue e k (fieldAt r.payload 0 8 % 2 ^ (8 * atWidth e.leader.aux))) }
  else { base with op := opACK, len := 0, last := false, aux := 1, payload := [] }

/-- The entry that a response from port `p` belongs to (R143). -/
def entryFor (s : State) (p : Nat) (r : Cell) : Option (Nat × CombEntry) :=
  s.sw.comb.find? (fun e => e.2.port == p && e.2.departed && cellDest r == e.2.leader.src && r.tag == e.2.leader.tag
    && r.src == cellDest e.2.leader)

/-- A response is taken by its entry: one copy a member, all from the one buffer (R133, R143). -/
def takeResponse (p store index k : Nat) (e : CombEntry) (r : Cell) (s : State) : State :=
  let members := (List.range e.members.length).zip e.members |>.filter (fun m => !m.2.lost)
  let n := (addHolders store index members.length s).1
  let s := (addHolders store index members.length s).2
  let s := members.take n |>.foldl (fun s m => forward .endPoint p store index (memberCopy e r m.1 m.2) s) s
  let s := if members.isEmpty then giveBack store index s else s
  if !e.isLd ∨ r.last = true ∨ (r.op ≠ opDAT ∧ r.op ≠ opACK) then { s with sw := { s.sw with comb := mapErase s.sw.comb k } }
  else { s with sw := { s.sw with comb := mapMod s.sw.comb k (fun e => { e with closed := true }) } }

/-- `ERR` TARGET_RESET to a member, formed in the reply store and counted (R144, R148). -/
def memberReset (e : CombEntry) (j : Joiner) (s : State) : State :=
  let c : Cell := { e.leader with src := j.src, tag := j.tag, cmark := BitVec.ofNat 2 j.cmark }
  bump 0x3300 0x16 (answerFromReply j.input (errFor c errTargetReset 0) s)

/-- COMBINE_TIMEOUT (R144). -/
def combineTimeout (k : Nat) (s : State) : State :=
  match mapGet s.sw.comb k with
  | some e =>
    if e.departed then bump 0x3300 0x15 { s with sw := { s.sw with comb := mapErase s.sw.comb k } } else s
  | none => s

/-! ### The flush of a port (R128, R144) -/

/-- The entries of the combining unit that wait on a flushed port end. -/
def flushEntries (o : Nat) (s : State) : State :=
  let mine := s.sw.comb.filter (fun e => e.2.port == o)
  let s := mine.foldl (fun s e =>
    let owed := if e.2.departed then e.2.members else e.2.members.drop 1
    (owed.filter (fun j => !j.lost)).foldl (fun s j => memberReset e.2 j s) s) s
  { s with sw := { s.sw with comb := s.sw.comb.filter (fun e => e.2.port != o) } }

/-- One cell queued for a flushed port: a request to an end-point port is answered, any other is discarded. -/
def flushCell (o input : Nat) (q : QEntry) (s : State) : State :=
  let toEp := if h : o < 24 then role s ⟨o, h⟩ == 1 else false
  let s := if q.store < 24 then bump (0x3310 + q.store) 8 s else s
  if toEp && isRequest q.cell.op then answerIn input q.store q.index (errFor q.cell errTargetReset 0) s
  else giveBack q.store q.index s

/-- Flush the queues of output `o` in every stall (R128). -/
def flushQueues (o : Nat) (s : State) : State :=
  let mine := s.sw.voqs.filter (fun e => voqOut e.1 == o)
  let s := flushEntries o { s with sw := { s.sw with voqs := s.sw.voqs.filter (fun e => voqOut e.1 != o) } }
  mine.foldl (fun s e => e.2.foldl (fun s q => flushCell o (voqIn e.1) q s) s) s

/-! ### Drops, scrub (R129, R146) -/

/-- VC11_AGE_DROP (R129): the head of a VC11 queue that has waited 4,096 ticks. -/
def vc11AgeDrop (input output : Nat) (s : State) : State :=
  let k := voqKey (isolated s) input output 11 0
  match voq s k with
  | q :: r => giveBack q.store q.index (setVoq k r (bump 0x3100 0x17 (advanceTo (q.arrival + 4096) s)))
  | [] => s

/-- A buffer whose word is uncorrectable: its cell is discarded and counted, and the buffer freed (R129). -/
def dropBad (stall index : Nat) (s : State) : State :=
  let b := getBuf s stall index
  if b.bit && b.cell.isSome then
    let s := bump (0x3310 + stall) 0xB s
    let s := { s with sw := { s.sw with voqs :=
      (s.sw.voqs.map (fun e => (e.1, e.2.filter (fun q => !(q.store == stall && q.index == index))))).filter (fun e => !e.2.isEmpty) } }
    freeBuf stall index s
  else s

/-! ### Meanings -/

/-- COMBINE_TIMEOUT (R144). -/
def execCombineTimeout (entry : Nat) (s : State) : Host.Outcome State Fault Refusal := .next (combineTimeout entry s)

/-- VC11_AGE_DROP (R129). -/
def execVc11AgeDrop (input output : InputN) (s : State) : Host.Outcome State Fault Refusal :=
  .next (vc11AgeDrop input.val output.val s)

/-- SUMP_AUDIT (R135). -/
def execSumpAudit (s : State) : Host.Outcome State Fault Refusal := .next (sumpAudit s)

end Sys2Proof.Machine
end

