-- ==== Sys2Proof/Machine/Bep.lean ====
section
/-!
DEFINITION. The resident BEP as a destination (R150–R181, R185): requests and their answers, acknowledgement runs, the
tally, refusal, fences, atomics and exact-add regions.
-/

namespace Sys2Proof.Machine

open Sys2Proof

/-- A cell of the resident BEP starts on its way: it waits for the arrival steps of input 24 (R145). -/
def bepSend (c : Cell) (s : State) : State := { s with bep := { s.bep with outbox := s.bep.outbox ++ [c] } }

/-! ### Acknowledgement runs (R155) -/

/-- Send the open run of a source. -/
def closeRun (src : Nat) (s : State) : State :=
  match mapGet s.bep.runs src with
  | none => s
  | some r =>
    bepSend { ackFor r.last r.n with cmark := BitVec.ofNat 2 r.cmark }
      (bumpN 0x3400 0x18 (r.n - (if r.last.op = opFEN then 1 else 0)) (bump 0x3400 0x17 { s with bep := { s.bep with runs := mapErase s.bep.runs src } }))

/-- A request that ends a run: `STF`, `STL`, `FEN`. -/
def endsRun (op : BitVec 5) : Bool := op == opSTF || op == opSTL || op == opFEN

/-- A request answered by `ACK` joins its pair's run; a full one, one so ended, and one with no coalescing delay is sent. -/
def ackRequest (c : Cell) (s : State) : State :=
  let k := c.src.toNat
  let r := match mapGet s.bep.runs k with
    | some r => { r with n := r.n + 1, last := c, cmark := max r.cmark c.cmark.toNat }
    | none => { n := 1, last := c, cmark := c.cmark.toNat }
  let s := { s with bep := { s.bep with runs := mapSet s.bep.runs k r } }
  if endsRun c.op ∨ 65535 ≤ r.n ∨ odGet s 0x3400 1 = 0 then closeRun k s else s

/-- An `ERR` or `NAK` leaves after the open run of its pair. -/
def refuseCell (c answer : Cell) (s : State) : State := bepSend answer (closeRun c.src.toNat s)

/-- `ERR` of the destination. -/
def destErr (c : Cell) (code detail : Nat) (s : State) : State :=
  refuseCell c (errFor c code detail) (countRefusal detail s)

/-! ### Effects at the point of coherence (R152, R153, R171, R174–R177) -/

/-- The lines of a request. -/
def cellLines (c : Cell) : List Nat := (List.range c.len.toNat).map (fun k => cellOff c / 128 + k)

/-- The first refusal among a request's lines. -/
def firstRefusal (s : State) (c : Cell) : Option (Nat × Nat) :=
  (cellLines c).findSome? (fun l => memRefusal s c.tenant.toNat l)

/-- The agent that sent a request. -/
def senderOf (c : Cell) : Agent := { coord := c.src }

/-- Answer a read line pair by line pair (R152, R153): from request line `k` on, `n` lines to go. -/
def sendLines (c : Cell) (scope : Bool) (k n fuel : Nat) (s : State) : State :=
  match fuel with
  | 0 => s
  | fuel + 1 =>
    if n = 0 then s
    else
      let base := cellOff c / 128 + k
      let two := decide (2 ≤ n)
      let a := readLine base c.tenant.toNat s
      match a.1 with
      | none => destErr c errMemUncorrectable k a.2
      | some x =>
        if two then
          let b := readLine (base + 1) c.tenant.toNat a.2
          match b.1 with
          | none => destErr c errMemUncorrectable (k + 1) b.2
          | some y => sendLines c scope (k + 2) (n - 2) fuel (bepSend (datFor c 2 k (decide (n = 2)) (x ++ y)) b.2)
        else bepSend { datFor c 1 k true x with aux := BitVec.ofNat 32 (k + flag scope 31) } a.2

/-- A read: `LD`, `LDV`, `LDA`. -/
def applyRead (c : Cell) (s : State) : State :=
  match firstRefusal s c with
  | some (code, detail) => destErr c code detail s
  | none =>
    let acq := c.op == opLDA
    let f := if acq then checkAcquire (cellOff c / 128) c.scope.toNat c.tenant.toNat (senderOf c) s else (false, s)
    sendLines c f.1 0 c.len.toNat 17 f.2

/-- The scope at which a store releases: `STL` at its own, `STF` at fabric scope. -/
def releaseScope (c : Cell) : Option Nat :=
  if c.op = opSTL then some c.scope.toNat else if c.op = opSTF then some 5 else none

/-- A store: `ST` of whole lines, `STM`, `STF` and `STL` under their mask. -/
def applyStore (c : Cell) (s : State) : State :=
  match firstRefusal s c with
  | some (code, detail) => destErr c code detail s
  | none =>
    if c.op = opST then
      ackRequest c ((List.range c.len.toNat).foldl (fun s k =>
        (writeLine (cellOff c / 128 + k) fullMask (payloadLine c k) c.tenant.toNat s).2) s)
    else
      let line := cellOff c / 128
      let r := writeLine line (maskedMask c) (maskedLine c) c.tenant.toNat s
      if r.1 then
        ackRequest c (match releaseScope c with
          | some sc => recordRelease line sc (senderOf c) r.2
          | none => r.2)
      else destErr c errMemUncorrectable 0 r.2

/-! ### Atomics -/

/-- FMT code of a region as a format (R181). -/
def regionFmt (code : Nat) : Fmt := if code = 1 then fp16 else if code = 2 then bf16 else fp32

/-- First byte of a region. -/
def regionBase (v : Nat) : Nat := bits v 12 36 * 4096

/-- Length of a region in bytes. -/
def regionSize (v : Nat) : Nat := bits v 0 12 * 4096

/-- The words of a region. -/
def regionWords (v : Nat) : Nat := bits v 0 12 * (if bits v 58 2 = 0 then 1024 else 2048)

/-- The word lies in an enabled exact-add region of this FMT. -/
def inRegion (s : State) (off fmt : Nat) : Bool :=
  (List.range 16).any (fun k =>
    let v := odGet s 0x3401 (k + 1)
    bit v 63 && bits v 58 2 == fmt && decide (regionBase v ≤ off) && decide (off < regionBase v + regionSize v))

/-- The operand of compare-and-swap's compare value (R102). -/
def atCompare (c : Cell) : Nat := fieldAt c.payload 8 8 % 2 ^ (8 * atWidth c.aux)

/-- The float format's width in bytes. -/
def fmtWidth (fmt : Nat) : Nat := if fmt = 0 then 4 else 2

/-- The new value of the word, and the accumulator it is then bound to (R176, R177). -/
def atNew (s : State) (c : Cell) (old : Nat) : Nat × Option Acc :=
  if c.sub = 5 then (if old = atCompare c then atOperand c else old, none)
  else if c.sub = 1 then
    let fmt := c.aux.toNat / 8 % 4
    let f := regionFmt fmt
    if inRegion s (cellOff c) fmt then
      let a := mapGetD s.bep.exact (8 * cellOff c + fmtWidth fmt) (accLoad (decodeFV f old))
      let a := accAdd a (decodeFV f (atOperand c))
      (accRound f .rne a, some a)
    else (roundFV f .rne false (sumFV .rne [decodeFV f old, decodeFV f (atOperand c)]), none)
  else (atStep c.sub.toNat c.aux old (atOperand c), none)

/-- The mask of `w` bytes at a byte of a line. -/
def wordMask (off w : Nat) : Nat := (2 ^ w - 1) * 2 ^ (off % 128)

/-- The answer of an `AT`: the previous value, or an `ACK` of its own. The `ACK` follows the open run (R155). -/
def atAnswer (c : Cell) (old : Nat) (s : State) : State :=
  if atFetch c then bepSend { datFor c 1 0 true (natLe 8 old) with aux := 0 } s
  else bepSend (ackFor c 1) (bump 0x3400 0x18 (closeRun c.src.toNat s))

/-- An `AT` on the bytes of its line, as they stood in `s0`: the previous value, and the word written. -/
def atomicOn (c : Cell) (b : Bytes) (s0 s : State) : Nat × State :=
  let w := atWidth c.aux
  let off := cellOff c
  let old := fieldAt b (off % 128) w
  let r := atNew s0 c old
  let s := (writeLine (off / 128) (wordMask off w) (splice b (off % 128) (natLe w r.1)) c.tenant.toNat s).2
  let fmt := c.aux.toNat / 8 % 4
  (old, match r.2 with
    | some acc => { s with bep := { s.bep with exact := mapSet s.bep.exact (8 * off + fmtWidth fmt) acc } }
    | none => if c.sub = 1 then bump 0x3400 0x15 s else s)

/-- An `AT`: reads, applies and writes at one instant. -/
def applyAtomic (c : Cell) (s : State) : State :=
  let w := atWidth c.aux
  let off := cellOff c
  let line := off / 128
  if off % w ≠ 0 then destErr c errAlign 0 s
  else
    match memRefusal s c.tenant.toNat line with
    | some (code, detail) => destErr c code detail s
    | none =>
      let a := readLine line c.tenant.toNat s
      match a.1 with
      | none => destErr c errMemUncorrectable 0 a.2
      | some b =>
        let r := atomicOn c b s a.2
        atAnswer c r.1 r.2

/-- Carry out a request that its turn has come to. -/
def applyRequest (c : Cell) (s : State) : State :=
  if c.op = opLD ∨ c.op = opLDV ∨ c.op = opLDA then applyRead c s
  else if c.op = opAT then applyAtomic c s
  else if c.op = opFEN then ackRequest c s
  else applyStore c s

/-! ### The tally, refusal, the hold store (R156–R162) -/

/-- A source's entry. -/
def tally (s : State) (src : Nat) : Tally := mapGetD s.bep.tally src {}

/-- An entry that may be reclaimed. -/
def idleTally (t : Tally) : Bool := t.count == 0 && t.flag.isNone && t.behind.isEmpty && !t.refusal && t.fence.isNone

/-- Replace a source's entry; one that may be reclaimed is not listed. -/
def setTally (src : Nat) (t : Tally) (s : State) : State :=
  { s with bep := { s.bep with
    tally := if idleTally t then mapErase s.bep.tally src else mapSet s.bep.tally src t } }

/-- Requests in the hold store. -/
def heldCount (s : State) : Nat :=
  s.bep.tally.foldl (fun n e => n + (if e.2.flag.isSome then 1 else 0) + e.2.behind.length) 0

/-- Counted for the tally (R160). -/
def isCounted (op : BitVec 5) : Bool := op == opST || op == opSTM || op == opSTL

/-- `NAK` HOLD_FULL with its detail, counted (R103, R180). -/
def holdFull (c : Cell) (detail : Nat) (s : State) : State :=
  refuseCell c (nakFor c 1 detail) (bump 0x3400 (0x10 + detail) s)

/-- Enter refusal for a source (R158). -/
def enterRefusal (src : Nat) (s : State) : State :=
  let t := tally s src
  if t.refusal then s else bump 0x3400 0x14 (setTally src { t with refusal := true } s)

/-- No room in the hold store (R160). -/
def noRoom (c : Cell) (s : State) : State := enterRefusal c.src.toNat (holdFull c 1 s)

/-- The count has reached the held flag: it is applied, then the requests behind it; a later `STF` is tested again. -/
def drainHeld (src fuel : Nat) (s : State) : State :=
  match fuel with
  | 0 => s
  | fuel + 1 =>
    let t := tally s src
    match t.flag with
    | some f =>
      if t.count % 2 ^ 24 = f.tally.toNat then
        drainHeld src fuel (applyRequest f (setTally src { t with flag := none, count := 0 } s))
      else s
    | none =>
      match t.behind with
      | [] => s
      | c :: r =>
        if c.op = opSTF then
          let s := if t.count % 2 ^ 24 = c.tally.toNat then s else bump 0x3400 0x10 s
          drainHeld src fuel (setTally src { t with flag := some c, behind := r } s)
        else drainHeld src fuel (applyRequest c (setTally src { t with behind := r } s))

/-- A fence that waited is answered once nothing is held (R165). -/
def serveFence (src : Nat) (s : State) : State :=
  let t := tally s src
  match t.fence with
  | some c => if t.flag.isNone ∧ t.behind.isEmpty = true then ackRequest c (setTally src { t with fence := none } s) else s
  | none => s

/-- Add a request behind the held flag; a store counts as consumed. -/
def holdBehind (c : Cell) (s : State) : State :=
  if 1024 ≤ heldCount s then noRoom c s
  else
    let src := c.src.toNat
    let t := tally s src
    let s := setTally src { t with
      behind := t.behind ++ [c], count := if isCounted c.op then (t.count + 1) % 2 ^ 24 else t.count } s
    serveFence src (drainHeld src 2049 s)

/-- `FEN` (R158, R165). -/
def fence (c : Cell) (s : State) : State :=
  let src := c.src.toNat
  let t := tally s src
  let s := setTally src { t with refusal := false } s
  if t.flag.isNone then ackRequest c s
  else if t.fence.isSome then noRoom c s
  else setTally src { t with refusal := false, fence := some c } s

/-- A request arrives at the resident BEP (R156, R158, R160, R162). -/
def destRequest (c : Cell) (s : State) : State :=
  let src := c.src.toNat
  let t := tally s src
  if c.op = opFEN then fence c s
  else if t.refusal then holdFull c 1 s
  else if t.flag.isSome then holdBehind c s
  else
    let full := (mapGet s.bep.tally src).isNone ∧ 8192 ≤ s.bep.tally.length
    if (isCounted c.op ∨ c.op = opSTF) ∧ full then holdFull c 3 s
    else if isCounted c.op then applyRequest c (setTally src { t with count := (t.count + 1) % 2 ^ 24 } s)
    else if c.op = opSTF then
      if t.count = c.tally.toNat then applyRequest c (setTally src { t with count := 0 } s)
      else if 1024 ≤ heldCount s then noRoom c s
      else bump 0x3400 0x10 (setTally src { t with flag := some c } s)
    else applyRequest c s

/-- A request cell is served: it leaves the intake where it waits there. -/
def serveRequest (c : Cell) (s : State) : State :=
  destRequest c (progress .intake { s with bep := { s.bep with intake := s.bep.intake.erase c } })

/-- HOLD_TIMEOUT (R161). -/
def holdTimeout (src : Nat) (s : State) : State :=
  let t := tally s src
  match t.flag with
  | none => s
  | some f =>
    let s := setTally src { t with flag := none, behind := [], count := 0 } s
    let s := holdFull f 2 s
    let s := t.behind.foldl (fun s c => holdFull c 1 s) s
    serveFence src (enterRefusal src s)

/-! ### Exact-add regions (R181) -/

/-- Two regions share a byte. -/
def regionsMeet (a b : Nat) : Bool :=
  decide (regionBase a < regionBase b + regionSize b) && decide (regionBase b < regionBase a + regionSize a)

/-- ENABLE of a region must be cleared. -/
def regionBad (s : State) (k v : Nat) : Bool :=
  let others := ((List.range 16).filter (fun j => j != k)).map (fun j => odGet s 0x3401 (j + 1)) |>.filter (fun w => bit w 63)
  bits v 0 12 == 0 || decide (usableBytes s < regionBase v + regionSize v) || others.any (regionsMeet v)
    || decide (odGet s 0x3400 8 < regionWords v + others.foldl (fun n w => n + regionWords w) 0)

/-- EXACT_ADD_REGION_WRITE (R181): reserved bits and the clamps, each reported; an accumulator of a region that is
disabled is released. -/
def exactRegionWrite (src : Route) (k v : Nat) (s : State) : State :=
  let s := beginOp s
  let a := clampField 60 3 0 (v, [])
  let a := clampField 48 10 0 a
  let bad3 := bits a.1 58 2 == 3
  let a := if bad3 then clampField 58 2 0 a else a
  let a := clampField 63 1 (if bad3 || regionBad s k a.1 then 0 else bits a.1 63 1) a
  let old := odGet s 0x3401 (k + 1)
  let s := odSet 0x3401 (k + 1) a.1 s
  let drop := (bit old 63 && !bit a.1 63) || (bit old 63 && bits old 0 48 != bits a.1 0 48) || bits old 58 2 != bits a.1 58 2
  let s := if drop then
      { s with bep := { s.bep with exact := s.bep.exact.filter (fun e =>
          !(decide (regionBase old ≤ e.1 / 8) && decide (e.1 / 8 < regionBase old + regionSize old))) } }
    else s
  reportClamps src 0x3401 (k + 1) a.2 s

/-! ### Meanings -/

/-- LD (R152). -/
def execLd (c : Cell) (s : State) : Host.Outcome State Fault Refusal := .next (serveRequest { c with op := opLD } s)

/-- LDV (R152). -/
def execLdv (c : Cell) (s : State) : Host.Outcome State Fault Refusal := .next (serveRequest { c with op := opLDV } s)

/-- LDA (R152, R171). -/
def execLda (c : Cell) (s : State) : Host.Outcome State Fault Refusal := .next (serveRequest { c with op := opLDA } s)

/-- ST (R152). -/
def execSt (c : Cell) (s : State) : Host.Outcome State Fault Refusal := .next (serveRequest { c with op := opST } s)

/-- STM (R152). -/
def execStm (c : Cell) (s : State) : Host.Outcome State Fault Refusal := .next (serveRequest { c with op := opSTM } s)

/-- STF (R160). -/
def execStf (c : Cell) (s : State) : Host.Outcome State Fault Refusal := .next (serveRequest { c with op := opSTF } s)

/-- STL (R152, R170). -/
def execStl (c : Cell) (s : State) : Host.Outcome State Fault Refusal := .next (serveRequest { c with op := opSTL } s)

/-- An `AT` cell of one SUB. -/
def atCell (c : Cell) (sub : BitVec 4) : Cell := { c with op := opAT, sub := sub }

/-- AT_INTEGER_ADD (R176). -/
def execAtIntegerAdd (c : Cell) (s : State) : Host.Outcome State Fault Refusal := .next (serveRequest (atCell c 0) s)

/-- AT_EXACT_FLOAT_ADD (R177). -/
def execAtExactFloatAdd (c : Cell) (s : State) : Host.Outcome State Fault Refusal := .next (serveRequest (atCell c 1) s)

/-- AT_MIN (R176). -/
def execAtMin (c : Cell) (s : State) : Host.Outcome State Fault Refusal := .next (serveRequest (atCell c 2) s)

/-- AT_MAX (R176). -/
def execAtMax (c : Cell) (s : State) : Host.Outcome State Fault Refusal := .next (serveRequest (atCell c 3) s)

/-- AT_SWAP (R176). -/
def execAtSwap (c : Cell) (s : State) : Host.Outcome State Fault Refusal := .next (serveRequest (atCell c 4) s)

/-- AT_COMPARE_AND_SWAP (R176). -/
def execAtCompareAndSwap (c : Cell) (s : State) : Host.Outcome State Fault Refusal := .next (serveRequest (atCell c 5) s)

/-- AT_AND (R176). -/
def execAtAnd (c : Cell) (s : State) : Host.Outcome State Fault Refusal := .next (serveRequest (atCell c 6) s)

/-- AT_OR (R176). -/
def execAtOr (c : Cell) (s : State) : Host.Outcome State Fault Refusal := .next (serveRequest (atCell c 7) s)

/-- AT_XOR (R176). -/
def execAtXor (c : Cell) (s : State) : Host.Outcome State Fault Refusal := .next (serveRequest (atCell c 8) s)

/-- FEN (R165). -/
def execFen (c : Cell) (s : State) : Host.Outcome State Fault Refusal := .next (serveRequest { c with op := opFEN } s)

/-- ACK_RUN_SEND (R155): the coalescing delay of the open run ends. -/
def execAckRunSend (source : BitVec 16) (s : State) : Host.Outcome State Fault Refusal := .next (closeRun source.toNat s)

/-- HOLD_TIMEOUT (R161). -/
def execHoldTimeout (source : BitVec 16) (s : State) : Host.Outcome State Fault Refusal := .next (holdTimeout source.toNat s)

/-- EXACT_ADD_REGION_WRITE (R181). -/
def execExactAddRegionWrite (src : Route) (k : Fin 16) (v : BitVec 64) (s : State) : Host.Outcome State Fault Refusal :=
  .next (exactRegionWrite src k.val v.toNat s)

end Sys2Proof.Machine
end

