-- ==== Sys2Proof/Machine/Source.lean ====
section
/-!
DEFINITION. The resident BEP as a source (R154, R158–R164, R182–R193): commands, their cells, completions, congestion
windows, refusal recovery and source fences.
-/

namespace Sys2Proof.Machine

open Sys2Proof

/-! ### Commands -/

/-- OP of a command. -/
def opOf : BepOp → BitVec 5
  | .ld => opLD
  | .ldv => opLDV
  | .lda => opLDA
  | .st => opST
  | .stm => opSTM
  | .stf => opSTF
  | .stl => opSTL
  | .at => opAT

/-- A read. -/
def isRead (op : BitVec 5) : Bool := op == opLD || op == opLDV || op == opLDA

/-- A write or an `AT`: what fences and releases wait for. -/
def isWrite (op : BitVec 5) : Bool := isStore op || op == opAT

/-- Destination of a translated command. -/
def epDest (c : EpCmd) : BitVec 16 := ((c.phys.getD 0).extractLsb' 48 16)

/-- Response cells that a request can draw (R186). -/
def sinkNeed (op : BitVec 5) (len : Nat) : Nat := if op = opLD ∨ op = opLDV then max 1 ((len + 1) / 2) else 1

/-- Buffers of the response sink in use. -/
def sinkUsed (s : State) : Nat := s.ep.reqs.foldl (fun n e => n + sinkNeed e.2.cell.op e.2.cell.len.toNat) 0

/-! ### Completions (R182) -/

/-- The fault that an error status raises in a context (R274, R275). -/
def statusFault : Status → Nat
  | .err code _ => if code = 5 then fMemErr else fFabricErr
  | .timeout => fTimeout
  | .perm => fPerm
  | .xlate => fXlate
  | .ok => 0
  | .busy => fFabricErr
  | .broken => fFabricErr
  | .tallyFail => fFabricErr
  | .late => fFabricErr
  | .ahead => fFabricErr
  | .fencedWithFailures _ => fFabricErr
  | .stepFailed _ => fFabricErr

/-- Change the copy at the head of a context's copies. -/
def modCopy (k : Nat) (f : Copy → Copy) (s : State) : State :=
  modCtx k (fun c => { c with copies := match c.copies with
    | h :: r => f h :: r
    | [] => [] }) s

/-- A line of the copy at the head of a context failed: a fault of the context, or counted (R266). -/
def copyFailed (k : Nat) (read : Bool) (st : Status) (detail : Nat) (s : State) : State :=
  if st = .busy then
    modCopy k (fun h => if read then { h with failed := h.failed + 1, asked := false, skip := true }
      else { h with failed := h.failed + 1 }) s
  else ctxFault k (statusFault st) detail s

/-- The command ends with a status other than OK. -/
def failUse (use : Use) (cmd : BepCommand) (st : Status) (s : State) : State :=
  let a := cmd.addr.toNat
  match use with
  | .agent => emit (.completion cmd.id st false []) s
  | .fill k _ _ => ctxFault k (statusFault st) a s
  | .value k _ => ctxFault k (statusFault st) a s
  | .cacheWrite core mask =>
    (List.range 4).foldl (fun s j => if mask.testBit j then ctxFault (core * 4 + j) (statusFault st) a s else s) s
  | .posted k => ctxFault k (statusFault st) a s
  | .copyRead k => copyFailed k true st a s
  | .copyWrite k => copyFailed k false st a s
  | .poll k => ctxFault k (statusFault st) a (modCtx k (fun c => { c with polling := false }) s)
  | .writeBack _ => s
  | .fence => s

/-- A command refused by the permission check (R190, R191), counted. -/
def refusePerm (c : EpCmd) (s : State) : State := failUse c.use c.cmd .perm (bump 0x3402 0x19 s)

/-! ### Congestion windows (R192, R193) -/

/-- Requests incomplete to a destination. -/
def incomplete (s : State) (dest : BitVec 16) : List (Nat × Req) :=
  s.ep.reqs.filter (fun e => cellDest e.2.cell == dest)

/-- The window in force toward a destination. -/
def windowOf (s : State) (dest : BitVec 16) : Nat :=
  let wmax := odGet s 0x3402 1
  if odGet s 0x3402 7 = 0 then wmax
  else
    match mapGet s.ep.wins dest.toNat with
    | some e => min wmax e.w
    | none => wmax

/-- The decrease of a mark level, in 256ths. -/
def markFactor (s : State) (m : Nat) : Nat := odGet s 0x3402 (2 + m)

/-- Entries that may not be reclaimed. -/
def winsHeld (s : State) : NMap CongWin :=
  s.ep.wins.filter (fun e => e.2.w != odGet s 0x3402 1 || !(incomplete s (BitVec.ofNat 16 e.1)).isEmpty)

/-- A marked response that covers a request sent since the last decrease. -/
def decreaseWindow (dest : BitVec 16) (m : Nat) (s : State) : State :=
  let k := dest.toNat
  let known := (mapGet s.ep.wins k).isSome
  if !known ∧ 1024 ≤ (winsHeld s).length then bump 0x3402 0x13 s
  else
    let wins := if !known ∧ 1024 ≤ s.ep.wins.length then winsHeld s else s.ep.wins
    let w := windowOf s dest
    let w := max (odGet s 0x3402 2) (w - w * markFactor s m / 256)
    bump 0x3402 0x10 { s with ep := { s.ep with
      wins := mapSet wins k { w := w, u := 0 },
      reqs := s.ep.reqs.map (fun e => if cellDest e.2.cell == dest then (e.1, { e.2 with fresh := false }) else e) } }

/-- `n` requests end with CMARK 0. -/
def growWindow (dest : BitVec 16) (n : Nat) (s : State) : State :=
  match mapGet s.ep.wins dest.toNat with
  | none => s
  | some e =>
    let e := (List.range n).foldl (fun (e : CongWin) _ =>
      if e.w ≤ e.u + 1 then { w := min (odGet s 0x3402 1) (e.w + odGet s 0x3402 6), u := 0 } else { e with u := e.u + 1 }) e
    { s with ep := { s.ep with wins := mapSet s.ep.wins dest.toNat e } }

/-- The reaction to a response that ends the requests `ended` (R192). -/
def reactMark (dest : BitVec 16) (m : Nat) (ended : List Req) (s : State) : State :=
  if odGet s 0x3402 7 = 0 then s
  else if m = 0 then growWindow dest ended.length s
  else if ended.any (fun r => r.fresh) then decreaseWindow dest m s
  else s

/-! ### Sending (R158, R159, R168, R169, R186, R189, R192) -/

/-- The next free TAG of a range (R154). -/
def tagFrom (s : State) (base n next : Nat) : Nat :=
  (((List.range n).map (fun k => base + (next + k) % n)).find? (fun t =>
    (mapGet s.ep.reqs t).isNone && !s.ep.quarantine.contains t)).getD base

/-- The next free TAG: below F000h, and F000h–FFFFh for a write-back of the directory (R154, R213). -/
def freeTag (s : State) (use : Use) : Nat :=
  match use with
  | .writeBack _ => tagFrom s 0xF000 0x1000 s.grotto.nextWb
  | _ => tagFrom s 0 0xF000 s.ep.nextTag

/-- The search for the next TAG starts behind this one. -/
def tagUsed (tag : Nat) (s : State) : State :=
  if tag < 0xF000 then { s with ep := { s.ep with nextTag := (tag + 1) % 0xF000 } }
  else { s with grotto := { s.grotto with nextWb := (tag - 0xF000 + 1) % 4096 } }

/-- Why the next command cannot leave now. -/
inductive Hold where
  | no | window | sink | wait
  deriving DecidableEq, Repr

/-- Whether a translated command may leave. -/
def holdOf (s : State) (c : EpCmd) : Hold :=
  let op := opOf c.cmd.op
  let dest := epDest c
  let out := s.ep.reqs
  let lda := out.any (fun e => e.2.cell.op == opLDA)
  let writes := out.any (fun e => isWrite e.2.cell.op)
  let ats := (incomplete s dest).any (fun e => e.2.cell.op == opAT)
  let old := (incomplete s dest).any (fun e => e.2.cell.epoch != s.ep.epoch)
  if !assigned s || lda || (op == opSTL && writes) || (op == opSTF && ats) || (mapGet s.ep.recover dest.toNat).isSome || old then .wait
  else if windowOf s dest ≤ (incomplete s dest).length then .window
  else if 4096 < sinkUsed s + sinkNeed op c.cmd.len.toNat then .sink
  else .no

/-- The request cell of a command. -/
def requestCell (s : State) (c : EpCmd) (tag tally : Nat) : Cell :=
  { addr := c.phys.getD 0, src := coord s 31, vc := 0, op := opOf c.cmd.op, scope := if c.cmd.op = .stf then 0 else c.cmd.scope
    tenant := c.cmd.tenant.getD 0, sub := if c.cmd.op = .at then c.cmd.sub else 0, epoch := s.ep.epoch, len := c.cmd.len,
    tag := BitVec.ofNat 16 tag, tally := BitVec.ofNat 24 tally, aux := if c.cmd.op = .at then c.cmd.aux else 0
    payload := c.cmd.payload }

/-- The store count toward a destination (R159). -/
def storeCount (s : State) (dest : Nat) : Nat := mapGetD s.ep.counts dest 0

/-- Set the store count toward a destination. -/
def setCount (dest n : Nat) (s : State) : State :=
  { s with ep := { s.ep with counts := if n = 0 then mapErase s.ep.counts dest else mapSet s.ep.counts dest n } }

/-- A request enters the table and its cell starts on its way; fences that count it as earlier cover it. -/
def launch (cell : Cell) (cmd : BepCommand) (use : Use) (s : State) : State :=
  let tag := cell.tag.toNat
  let r : Req := { cell := cell, cmd := cmd, use := use, seq := s.ep.nextSeq }
  bepSend cell { s with ep := { s.ep with reqs := mapSet s.ep.reqs tag r, nextSeq := s.ep.nextSeq + 1 } }

/-- One command has left the line of waiting commands: fences before which it stood cover its TAG if it is a write. -/
def passFences (tag : Option Nat) (s : State) : State :=
  { s with ep := { s.ep with fences := s.ep.fences.map (fun e =>
      if e.2.ahead = 0 then e
      else (e.1, { e.2 with
        ahead := e.2.ahead - 1, covered := match tag with
          | some t => e.2.covered ++ [t]
          | none => e.2.covered })) } }

/-- Send a command that nothing holds back. -/
def sendCmd (c : EpCmd) (s : State) : State :=
  let op := opOf c.cmd.op
  let dest := (epDest c).toNat
  let tag := freeTag s c.use
  let n := storeCount s dest
  let cell := requestCell s c tag (if op = opSTF then n else 0)
  let s := if op = opSTF then
      setCount dest 0 { s with ep := { s.ep with flagSeq := mapSet s.ep.flagSeq dest s.ep.nextSeq } }
    else if isCounted op then setCount dest ((n + 1) % 2 ^ 24) s
    else s
  let s := passFences (if isWrite op then some tag else none) s
  launch cell c.cmd c.use (tagUsed tag s)

/-- The pair with a destination is broken (R163). -/
def isBroken (s : State) (dest : BitVec 16) : Bool := s.ep.broken.contains dest.toNat

/-- Send waiting commands in order, as far as nothing holds the first back. -/
def sendWaiting (fuel : Nat) (s : State) : State :=
  match fuel with
  | 0 => s
  | fuel + 1 =>
    match s.ep.waiting with
    | [] => s
    | c :: r =>
      if isBroken s (epDest c) then
        sendWaiting fuel (failUse c.use c.cmd .broken (passFences none { s with ep := { s.ep with waiting := r } }))
      else if holdOf s c = .no then sendWaiting fuel (sendCmd c { s with ep := { s.ep with waiting := r } })
      else s

/-- Try to send what waits. -/
def pump (s : State) : State := sendWaiting (s.ep.waiting.length + 1) s

/-- A translated and permitted command joins those that wait, and leaves at once if it may. A command that its window or
the sink holds back is counted as deferred. -/
def submit (c : EpCmd) (s : State) : State :=
  if isBroken s (epDest c) then failUse c.use c.cmd .broken s
  else
    let s := match s.ep.waiting.isEmpty, holdOf s c with
      | true, .window => bump 0x3402 0x11 s
      | true, .sink => bump 0x3402 0x12 s
      | _, _ => s
    pump { s with ep := { s.ep with waiting := s.ep.waiting ++ [c] } }

/-! ### Translation at the attachment interface (R191, R197) -/

/-- Bytes of a page, as a power of two. -/
def entryCovers (e : XEntry) (pasid vpage : Nat) : Bool :=
  e.pasid == pasid && e.vpage / 2 ^ (e.log2 - 12) == vpage / 2 ^ (e.log2 - 12)

/-- The address that an entry gives. -/
def entryAddr (e : XEntry) (addr : Nat) : Nat :=
  e.ppage / 2 ^ (e.log2 - 12) * 2 ^ e.log2 + addr % 2 ^ e.log2

/-- The permission a command needs (R191). -/
def permitted (e : XEntry) (c : BepCommand) : Bool :=
  match c.op with
  | .ld | .ldv | .lda => e.r
  | .st | .stm | .stf | .stl => e.w
  | .at => e.a && (!c.aux.getLsbD 8 || e.r)

/-- The access kind of a `FILL_REQ`: 0 R, 1 W, 2 A, 3 C (R197). -/
def fillKind (op : BepOp) : Nat :=
  match op with
  | .ld | .ldv | .lda => 0
  | .st | .stm | .stf | .stl => 1
  | .at => 2

/-- A tag for a new fill. -/
def fillTag (s : State) : Nat := (mapFree s.ep.fills 4096).getD 4095

/-- Start a fill, or wait for one outstanding. -/
def waitFill (c : EpCmd) (s : State) : State :=
  let pasid := c.cmd.pasid.toNat
  let vpage := c.cmd.addr.toNat / 4096
  match s.ep.fills.find? (fun e => e.2.pasid == pasid && e.2.vpage == vpage && !e.2.stale) with
  | some (t, f) => { s with ep := { s.ep with fills := mapSet s.ep.fills t { f with waiting := f.waiting ++ [c] } } }
  | none =>
    let t := fillTag s
    let k := fillKind c.cmd.op
    emit (.fillReq t pasid vpage k)
      { s with ep := { s.ep with fills := mapSet s.ep.fills t { pasid := pasid, vpage := vpage, kind := k, waiting := [c] } } }

/-- A command of the attachment interface: tenancy, translation, permission, then it is submitted. -/
def agentCommand (c : EpCmd) (s : State) : State :=
  match c.cmd.tenant with
  | none => refusePerm c s
  | some _ =>
    match s.ep.cache.find? (fun e => entryCovers e c.cmd.pasid.toNat (c.cmd.addr.toNat / 4096)) with
    | none => waitFill c s
    | some e =>
      if permitted e c.cmd then
        submit { c with phys := some (BitVec.ofNat 64 (entryAddr e c.cmd.addr.toNat)) }
          { s with ep := { s.ep with cache := e :: s.ep.cache.erase e } }
      else refusePerm c s

/-! ### Fences (R158, R164, R188) -/

/-- Send a `FEN` to a destination. -/
def sendFen (dest : BitVec 16) (s : State) : Nat × State :=
  let tag := freeTag s .fence
  let cell : Cell :=
    { addr := mkAddr dest 0, src := coord s 31, vc := 0, op := opFEN, epoch := s.ep.epoch, tag := BitVec.ofNat 16 tag }
  let cmd : BepCommand := { op := .st, pasid := 0, addr := 0, tenant := none }
  (tag, launch cell cmd .fence (tagUsed tag s))

/-- SOURCE_FENCE (R164, R188). -/
def sourceFence (id : Nat) (s : State) : State :=
  let writes := s.ep.reqs.filter (fun e => isWrite e.2.cell.op)
  let f : SrcFence := { covered := writes.map (fun e => e.1), ahead := s.ep.waiting.length }
  let s := { s with ep := { s.ep with fences := mapSet s.ep.fences id f } }
  let dests := (writes.map (fun e => (cellDest e.2.cell).toNat)).dedup.filter (fun d =>
    !s.ep.fenced.contains d && (mapGet s.ep.recover d).isNone)
  dests.foldl (fun s d =>
    let s := (sendFen (BitVec.ofNat 16 d) s).2
    { s with ep := { s.ep with fenced := d :: s.ep.fenced } }) s

/-- SOURCE_FENCE_COMPLETE (R164, R182): once every covered request has ended. -/
def sourceFenceComplete (id : Nat) (s : State) : State :=
  match mapGet s.ep.fences id with
  | some f =>
    if f.covered.isEmpty ∧ f.ahead = 0 then
      emit (.completion id (if f.failures = 0 then .ok else .fencedWithFailures f.failures) false [])
        { s with ep := { s.ep with fences := mapErase s.ep.fences id } }
    else s
  | none => s

/-- A covered request has ended: well, or failed. -/
def fenceEnd (tag : Nat) (good : Bool) (s : State) : State :=
  { s with ep := { s.ep with fences := s.ep.fences.map (fun e =>
      if e.2.covered.contains tag then
        (e.1, { e.2 with covered := e.2.covered.erase tag, failures := e.2.failures + (if good then 0 else 1) })
      else e) } }

/-- A covered request was answered `NAK` and will be sent again: the fence waits for that. -/
def fenceAgain (tag : Nat) (s : State) : State :=
  { s with ep := { s.ep with fences := s.ep.fences.map (fun e =>
      if e.2.covered.contains tag then (e.1, { e.2 with covered := e.2.covered.erase tag, ahead := e.2.ahead + 1 }) else e) } }

/-- A request ends: it leaves the table. -/
def dropReq (tag : Nat) (s : State) : State := { s with ep := { s.ep with reqs := mapErase s.ep.reqs tag } }

/-- A request ends with a failure. -/
def endFailed (tag : Nat) (r : Req) (st : Status) (s : State) : State :=
  let s := fenceEnd tag false (dropReq tag s)
  let s := if r.use = .fence then
      { s with ep := { s.ep with fenced := s.ep.fenced.erase (cellDest r.cell).toNat } }
    else s
  failUse r.use r.cmd st s

/-! ### Refusal recovery (R158) -/

/-- REFUSAL_FENCE_SEND (R158): once every request to the destination has ended, one `FEN`. -/
def refusalFence (dest : BitVec 16) (s : State) : State :=
  match mapGet s.ep.recover dest.toNat with
  | some (l, none) =>
    if (incomplete s dest).isEmpty then
      let r := sendFen dest s
      { r.2 with ep := { r.2.ep with recover := mapSet r.2.ep.recover dest.toNat (l, some r.1) } }
    else s
  | _ => s

/-- The `FEN` has been acknowledged: the requests answered `NAK` go first among those that wait, in their order. -/
def resendRefused (dest : Nat) (s : State) : State :=
  match mapGet s.ep.recover dest with
  | some (l, _) =>
    let again := l.map (fun r => ({ cmd := r.cmd, phys := some r.cell.addr, use := r.use } : EpCmd))
    pump { s with ep := { s.ep with recover := mapErase s.ep.recover dest, waiting := again ++ s.ep.waiting } }
  | none => s

/-- Insert a refused request by its place in the order of sending. -/
def insertReq (r : Req) : List Req → List Req
  | [] => [r]
  | x :: l => if r.seq < x.seq then r :: x :: l else x :: insertReq r l

/-- A request answered `NAK` HOLD_FULL counts as never sent (R158, R159). -/
def refused (tag : Nat) (r : Req) (s : State) : State :=
  let dest := (cellDest r.cell).toNat
  let s := fenceAgain tag (dropReq tag s)
  let n := storeCount s dest
  let s := if isCounted r.cell.op then setCount dest ((n + 2 ^ 24 - 1) % 2 ^ 24) s
    else if r.cell.op = opSTF then setCount dest ((n + r.cell.tally.toNat) % 2 ^ 24) s
    else s
  let old := (mapGet s.ep.recover dest).getD ([], none)
  let l := if r.use = .fence then old.1 else insertReq r old.1
  let fen := if old.2 = some tag then none else old.2
  let s := if r.use = .fence then { s with ep := { s.ep with fenced := s.ep.fenced.erase dest } } else s
  { s with ep := { s.ep with recover := mapSet s.ep.recover dest (l, fen) } }

/-- A pair becomes broken (R163): every outstanding request of it ends with that error. -/
def breakPair (dest : BitVec 16) (detail : Nat) (s : State) : State :=
  let st : Status := .err 3 detail
  let s := if isBroken s dest then s else bump 0x3400 0x1B { s with ep := { s.ep with broken := dest.toNat :: s.ep.broken } }
  let refusedNow := ((mapGet s.ep.recover dest.toNat).getD ([], none)).1
  let s := { s with ep := { s.ep with recover := mapErase s.ep.recover dest.toNat } }
  let s := (incomplete s dest).foldl (fun s e => endFailed e.1 e.2 st s) s
  let s := refusedNow.foldl (fun s r => failUse r.use r.cmd st (passFences none s)) s
  setCount dest.toNat 0 s

/-! ### Meanings -/

/-- REQUEST_SEND (R182, R186, R190–R192). -/
def execRequestSend (cmd : BepCommand) (s : State) : Host.Outcome State Fault Refusal := .next (agentCommand { cmd := cmd } s)

/-- SOURCE_FENCE (R188). -/
def execSourceFence (id : Nat) (s : State) : Host.Outcome State Fault Refusal := .next (sourceFence id s)

/-- SOURCE_FENCE_COMPLETE (R164). -/
def execSourceFenceComplete (id : Nat) (s : State) : Host.Outcome State Fault Refusal := .next (sourceFenceComplete id s)

/-- REFUSAL_FENCE_SEND (R158). -/
def execRefusalFenceSend (dest : BitVec 16) (s : State) : Host.Outcome State Fault Refusal := .next (refusalFence dest s)

end Sys2Proof.Machine
end

