-- ==== Sys2Proof/Machine/Grotto.lean ====
section
/-!
DEFINITION. Tray coherence (R203–R223): coherent windows, the directory and its actions, probes, write-backs, recalls,
block repairs and the loss of members.
-/

namespace Sys2Proof.Machine

open Sys2Proof

/-! ### Windows (R204, R205) -/

/-- Fields of a window entry. -/
def winEnable (v : Nat) : Bool := bit v 63
def winHome (v : Nat) : Bool := bit v 62
def winAcc (v : Nat) : Nat := bits v 59 3
def winBase (v : Nat) : Nat := bits v 32 27 * 2 ^ 21
def winUnit (v : Nat) : Nat := bits v 16 16
def winSize (v : Nat) : Nat := bits v 0 16

/-- A window entry, 0–15. -/
def winEntry (s : State) (k : Nat) : Nat := odGet s 0x3501 (k + 1)

/-- Directory entries of one unit: lines of 2 MiB. -/
def unitLines : Nat := 16384

/-- The enabled windows. -/
def windowsOn (s : State) : List Nat := (List.range 16).filter (fun k => winEnable (winEntry s k))

/-- The enabled windows homed here. -/
def homed (s : State) : List Nat := (windowsOn s).filter (fun k => winHome (winEntry s k))

/-- The window that a request's offset lies in. -/
def windowOfCell (s : State) (c : Cell) : Option Nat :=
  (windowsOn s).find? (fun k =>
    let v := winEntry s k
    winAcc v == coordP (cellDest c) && decide (winBase v ≤ cellOff c) && decide (cellOff c < winBase v + winSize v * 2 ^ 21))

/-- The directory entry of a line of a window. -/
def entryIndex (v off : Nat) : Nat := winUnit v * unitLines + (off - winBase v) / 128

/-- The window, owner port and offset of a directory entry. -/
def entryLine (s : State) (e : Nat) : Option (Nat × Nat × Nat) :=
  ((homed s).find? (fun k =>
    let v := winEntry s k
    decide (winUnit v * unitLines ≤ e) && decide (e < (winUnit v + winSize v) * unitLines))).map (fun k =>
      let v := winEntry s k
      (k, winAcc v, winBase v + (e - winUnit v * unitLines) * 128))

/-- The line's number in the release table: apart from the lines of this GV24's memory. -/
def windowLine (dest : BitVec 16) (off : Nat) : Nat := (dest.toNat + 1) * 2 ^ 41 + off / 128

/-! ### State of the directory -/

/-- Change the grotto. -/
def modGrotto (f : Grotto → Grotto) (s : State) : State := { s with grotto := f s.grotto }

/-- A directory entry. -/
def dirEntry (s : State) (e : Nat) : DirEntry := mapGetD s.grotto.dir e {}

/-- Replace a directory entry; an entry in I is not listed. -/
def setDir (e : Nat) (d : DirEntry) : State → State :=
  modGrotto (fun g => { g with
    dir := if d.st = .i then mapErase g.dir e else mapSet g.dir e d })

/-- The members a bitmap names. -/
def membersOf (m : BitVec 8) : List Nat := indices 8 (fun k => m.toNat.testBit k)

/-- One member as a bitmap. -/
def oneMember (m : Nat) : BitVec 8 := BitVec.ofNat 8 (2 ^ m)

/-- A line becomes LOST: logged and counted (R219). -/
def makeLost (e m : Nat) (s : State) : State :=
  let w := match entryLine s e with
    | some (k, _, _) => k
    | none => 16
  log 0x3501 [w, e, m] (bump 0x3500 0x1A (setDir e { st := .lost } s))

/-- The loss of a member applied to one entry (R219). -/
def loseEntry (m e : Nat) (s : State) : State :=
  let d := dirEntry s e
  if d.members.toNat.testBit m then
    match d.st with
    | .em => makeLost e m s
    | .s =>
      let rest := d.members &&& ~~~(oneMember m)
      setDir e (if rest = 0 then {} else { d with members := rest }) s
    | .i => s
    | .lost => s
  else s

/-- The owner's loss (R220): lines that another member holds are probed and their data discarded. -/
def loseOwner (m e : Nat) (s : State) : State :=
  match entryLine s e with
  | some (_, acc, _) =>
    let d := dirEntry s e
    if acc = m ∧ d.members ≠ 0 ∧ (d.st = .s ∨ d.st = .em) then
      modGrotto (fun g => { g with work := g.work ++ [(3, e, d.members.toNat)] }) s
    else s
  | none => s

/-- Until a walk reaches an entry, an access applies the loss first. -/
def applyWalks (e : Nat) (s : State) : State :=
  s.grotto.walks.foldl (fun s w => if w.2 ≤ e then loseEntry w.1 e s else s) s

/-- The owner of an entry's line is under a walk that has not passed it. -/
def ownerWalk (s : State) (e : Nat) : Bool :=
  match entryLine s e with
  | some (_, acc, _) => s.grotto.walks.any (fun w => w.1 == acc && decide (w.2 ≤ e))
  | none => false

/-! ### The directory cache (R217) -/

/-- The block of an entry. -/
def blockOf (e : Nat) : Nat := e / 64

/-- The 128 bytes of a block: STATE in bits [9:8], members in [7:0] (R216). -/
def blockBytes (s : State) (b : Nat) : Bytes :=
  (List.range 64).foldl (fun l k =>
    let d := dirEntry s (b * 64 + k)
    let code := match d.st with
      | .i => 0
      | .s => 1
      | .em => 2
      | .lost => 3
    l ++ [BitVec.ofNat 8 d.members.toNat, BitVec.ofNat 8 code]) []

/-- A line is busy. -/
def busyLine (s : State) (e : Nat) : Bool := (mapGet s.grotto.lines e).isSome

/-- A block's GDDR7 line. -/
def blockLine (s : State) (b : Nat) : Nat := dirBase s / 128 + b

/-- A block leaves the cache: a dirty one is written to the backing region. -/
def dropBlock (x : Nat × Bool) (s : State) : State :=
  let s := modGrotto (fun g => { g with cache := g.cache.erase x }) s
  if x.2 then putLine (blockLine s x.1) fullMask (blockBytes s x.1) s else s

/-- Start a block repair (R217): every member whose home link is in ACTIVE is probed for each line. -/
def repairBlock (b : Nat) (s : State) : State :=
  let up := (List.range 8).foldl (fun m k =>
    if h : k < 24 then (if (s.port ⟨k, h⟩).train = .active then m + 2 ^ k else m) else m) 0
  let lines := ((List.range 64).map (fun k => b * 64 + k)).filter (fun e => (entryLine s e).isSome)
  log 0x3501 [16, b * 64, 255] (bump 0x3500 0x1D
    (modGrotto (fun g => { g with work := g.work ++ lines.map (fun e => (2, e, up)) }) s))

/-- Bring a block into the cache for an access: 16 ways, least recently used, blocks of busy lines kept. -/
def useBlock (e : Nat) (dirty : Bool) (s : State) : State :=
  let b := blockOf e
  match s.grotto.cache.find? (fun x => x.1 == b) with
  | some x => modGrotto (fun g => { g with cache := (b, x.2 || dirty) :: g.cache.erase x }) s
  | none =>
    let s := bump 0x3500 0x1C s
    let set := s.grotto.cache.filter (fun x => x.1 % 4096 == b % 4096)
    let s := if 16 ≤ set.length then
        match set.reverse.find? (fun x => !s.grotto.lines.any (fun l => blockOf l.1 == x.1)) with
        | some x => dropBlock x s
        | none => s
      else s
    let s := modGrotto (fun g => { g with cache := (b, dirty) :: g.cache }) s
    let r := readLine (blockLine s b) 16 s
    match r.1 with
    | some _ => r.2
    | none => repairBlock b r.2

/-- Set the state of a line: its block becomes dirty. -/
def writeDir (e : Nat) (d : DirEntry) (s : State) : State := useBlock e true (setDir e d s)

/-! ### Probes (R210) -/

/-- Answer-store buffers in use or reserved (R213). -/
def answerUsed (s : State) : Nat :=
  s.grotto.lines.foldl (fun n l => n + l.2.waits.length + (if l.2.data.isSome then 1 else 0)) 0

/-- A `SNP` cell. -/
def snpCell (s : State) (m acc off kind tag : Nat) : Cell :=
  { addr := mkAddr (coord s m) off, src := coord s 31, vc := 8, op := opSNP, sub := BitVec.ofNat 4 kind, len := 0,
    tag := BitVec.ofNat 16 tag, aux := BitVec.ofNat 32 (coord s acc).toNat }

/-- Send a probe: 1 INV, 2 DOWN, 3 PEEK. Answers its tag. -/
def probe (m e kind : Nat) (s : State) : Nat × State :=
  let tag := s.grotto.nextProbe % 65536
  let loc := match entryLine s e with
    | some (_, acc, off) => (acc, off)
    | none => (0, 0)
  let s := bump 0x3500 0x14 (modGrotto (fun g => { g with
    nextProbe := (tag + 1) % 65536, probes := mapSet g.probes tag { member := m, line := e, kind := kind } }) s)
  (tag, enqueue 24 m departureStore 0 (snpCell s m loc.1 loc.2 kind tag) s)

/-- Probe several members. -/
def probeAll (ms : List Nat) (e kind : Nat) (s : State) : List Nat × State :=
  ms.foldl (fun a m => let r := probe m e kind a.2; (a.1 ++ [r.1], r.2)) ([], s)

/-! ### Write-backs (R213) -/

/-- Send a write-back of an entry's line to its owner; it counts for the tally of g.s.31 toward the owner. -/
def sendWriteBack (e : Nat) (data : Bytes) (s : State) : Nat × State :=
  let tag := freeTag s (.writeBack e)
  let loc := match entryLine s e with
    | some (_, acc, off) => (acc, off)
    | none => (0, 0)
  let dest := coord s loc.1
  let cell : Cell :=
    { addr := mkAddr dest loc.2, src := coord s 31, vc := 0, op := opST, len := 1, epoch := s.ep.epoch,
      tag := BitVec.ofNat 16 tag, payload := data }
  let cmd : BepCommand := { op := .st, pasid := 0, addr := BitVec.ofNat 64 loc.2, tenant := some 0, payload := data }
  let s := setCount dest.toNat ((storeCount s dest.toNat + 1) % 2 ^ 24) (bump 0x3500 0x16 s)
  (tag, launch cell cmd (.writeBack e) (tagUsed tag s))

/-! ### Busy lines -/

/-- Replace a busy line. -/
def setBusy (e : Nat) (b : Busy) : State → State := modGrotto (fun g => { g with lines := mapSet g.lines e b })

/-- The line stops being busy where nothing is owed any more. -/
def settle (e : Nat) (s : State) : State :=
  match mapGet s.grotto.lines e with
  | some b =>
    if b.waits.isEmpty ∧ b.owed = false ∧ b.wb = none ∧ b.afterAck = false then
      progress .answers (progress .directory (modGrotto (fun g => { g with lines := mapErase g.lines e }) s))
    else s
  | none => s

/-- A request goes on to its owner: the requests that an `ACK` answers are noted in order (R212). -/
def forwardRequest (input : Nat) (q : QEntry) (entry : Option Nat) (s : State) : State :=
  let c := q.cell
  let s := if isStore c.op ∨ c.op = opAT ∨ c.op = opFEN then
      modGrotto (fun g => { g with fwd := g.fwd ++ [(c.src.toNat, (cellDest c).toNat, c.tag.toNat, entry)] }) s
    else s
  enqueue input (coordP (cellDest c)) q.store q.index c s

/-- A write is applied at its home directory, where the release table records it (R170, R215). -/
def windowRelease (c : Cell) (s : State) : State :=
  let line := windowLine (cellDest c) (cellOff c)
  match releaseScope c with
  | some sc => recordRelease line sc (senderOf c) s
  | none =>
    if isStore c.op ∨ c.op = opAT then
      { s with bep := { s.bep with releases := s.bep.releases.filter (fun r => r.line != line) } }
    else s

/-- Data merged under a masked write: the mask becomes all ones (R209). -/
def mergedWrite (c : Cell) (data : Bytes) : Cell :=
  if c.op = opST ∨ c.op = opAT then c
  else { c with payload := List.replicate 16 0xFF ++ mergeMask (maskedMask c) (maskedLine c) data }

/-- The probes of a line have answered: the step that follows (R209, R213, R217, R218, R220). -/
def probesDone (e : Nat) (s : State) : State :=
  match mapGet s.grotto.lines e with
  | none => s
  | some b =>
    let s := writeDir e b.next s
    match b.access with
    | none =>
      match b.data with
      | some d =>
        if b.kind = 3 then settle e (bump 0x3500 0x1B (setBusy e { b with data := none } s))
        else
          let r := sendWriteBack e d s
          setBusy e { b with wb := some r.1, data := none } r.2
      | none => settle e s
    | some (input, q) =>
      let c := q.cell
      match b.data with
      | some d =>
        if isRead c.op then
          let answer := { datFor c 1 0 true d with aux := BitVec.ofNat 32 b.grant }
          let s := setBusy e { b with data := none, owed := true } s
          let s := answerIn input q.store q.index answer s
          if b.writeBack then
            let r := sendWriteBack e d s
            match mapGet r.2.grotto.lines e with
            | some b => setBusy e { b with wb := some r.1 } r.2
            | none => r.2
          else s
        else if c.op = opAT then
          let r := sendWriteBack e d s
          setBusy e { b with data := none, wb := some r.1, afterAck := true } r.2
        else
          let c := mergedWrite c d
          forwardRequest input { q with cell := c } (some e)
            (windowRelease c (setBusy e { b with data := none, owed := true } s))
      | none => forwardRequest input q (some e) (windowRelease c (setBusy e { b with owed := true } s))

/-- A probe has answered, with data or without. -/
def probeAnswered (tag : Nat) (data : Option Bytes) (s : State) : State :=
  match mapGet s.grotto.probes tag with
  | none => s
  | some p =>
    let s := modGrotto (fun g => { g with probes := mapErase g.probes tag }) s
    match mapGet s.grotto.lines p.line with
    | none => s
    | some b =>
      let b := { b with waits := b.waits.erase tag, data := b.data.or data }
      let s := setBusy p.line b s
      if b.waits.isEmpty then probesDone p.line s else s

/-! ### Recall, repair, owner's loss -/

/-- Start the lines that wait to be probed, as far as the answer store has room and they are not busy. -/
def pumpWork (fuel : Nat) (s : State) : State :=
  match fuel with
  | 0 => s
  | fuel + 1 =>
    match s.grotto.work.find? (fun w => !busyLine s w.2.1 && decide (s.grotto.lines.length < 4096)
        && decide (answerUsed s + popcount 8 w.2.2 ≤ 256)) with
    | none => s
    | some w =>
      let s := modGrotto (fun g => { g with work := g.work.erase w }) s
      let s := applyWalks w.2.1 s
      let d := dirEntry s w.2.1
      -- a recall and a repair probe holders as they now stand; a repair does not trust the entry
      let ms := if w.1 = 2 then indices 8 (fun k => w.2.2.testBit k) else membersOf d.members
      let ms := ms.filter (fun m => !(s.grotto.lostMask.toNat.testBit m))
      let next : DirEntry := if d.st = .lost ∧ w.1 = 1 then d else {}
      let r := probeAll ms w.2.1 1 s
      let s := setBusy w.2.1 { kind := w.1, waits := r.1, next := next } r.2
      pumpWork fuel (if r.1.isEmpty then probesDone w.2.1 s else s)

/-- A recall runs: some line of it is waiting or busy. -/
def recallRuns (s : State) (kind : Nat) : Bool :=
  s.grotto.work.any (fun w => w.1 == kind) || s.grotto.lines.any (fun l => l.2.kind == kind)

/-- A loss walk runs. -/
def walkRuns (s : State) : Bool := !s.grotto.walks.isEmpty

/-! ### Directory actions (R207–R209) -/

/-- A caching read (R207): the member's number. -/
def cachingMember (s : State) (input e : Nat) (c : Cell) : Option Nat :=
  let m := coordP c.src
  let endPort := if h : input < 24 then role s ⟨input, h⟩ == 1 else false
  if c.op == opLD && c.len == 1 && ownGv s c.src && decide (m < 8) && input == m && endPort
      && (odGet s 0x3500 3).testBit m && !s.grotto.lostMask.toNat.testBit m && !recallRuns s 1
      && !s.grotto.work.any (fun w => w.1 == 2 && w.2.1 == e) && !ownerWalk s e
  then some m else none

/-- GRANT as AUX bits (R208). -/
def grantBits (g : Nat) : Nat := g * 2 ^ 29

/-- What the directory does with an access: probes to send, the state that follows, GRANT, whether data is written
back, or the refusal of a LOST line. -/
structure Action where
  kind : Nat := 0
  to_ : List Nat := []
  next : DirEntry := {}
  grant : Nat := 0
  writeBack : Bool := false
  refuse : Bool := false
  deriving DecidableEq, Repr

/-- The table of R209. -/
def dirAction (d : DirEntry) (member : Option Nat) (c : Cell) : Action :=
  let full := c.op = opST ∨ (isStore c.op = true ∧ maskedMask c = fullMask)
  let owner := membersOf d.members
  if isRead c.op then
    match d.st, member with
    | .lost, _ => { refuse := true, next := d }
    | .i, none => { next := d }
    | .i, some m => { next := { st := .em, members := oneMember m }, grant := 2 }
    | .s, none => { next := d }
    | .s, some m => { next := { st := .s, members := d.members ||| oneMember m }, grant := 1 }
    | .em, none => { kind := 3, to_ := owner, next := d }
    | .em, some m =>
      if d.members = oneMember m then { next := { st := .em, members := oneMember m }, grant := 2 }
      else { kind := 2, to_ := owner, next := { st := .s, members := d.members ||| oneMember m }, grant := 1, writeBack := true }
  else
    match d.st with
    | .lost => if full then {} else { refuse := true, next := d }
    | .i => {}
    | .s => { kind := 1, to_ := owner }
    | .em =>
      -- a write-back by the member that the entry names (R211)
      if c.op = opST ∧ coordP c.src < 8 ∧ d.members = oneMember (coordP c.src) then {}
      else { kind := 1, to_ := owner }

/-- Is the `ST` one that the member sends from its end-point on this GV24? -/
def ownSt (s : State) (c : Cell) : Bool := ownGv s c.src

/-- Count an access (R223). -/
def countAccess (c : Cell) (grant : Nat) (s : State) : State :=
  if isRead c.op then bump 0x3500 (if grant = 2 then 0x10 else if grant = 1 then 0x11 else 0x12) s else bump 0x3500 0x13 s

/-- Begin an access to a window line that is not busy (R209). -/
def beginAccess (input : Nat) (q : QEntry) (e : Nat) (s : State) : State :=
  let c := q.cell
  let s := useBlock e false (applyWalks e s)
  let member := cachingMember s input e c
  -- an `ST` from elsewhere does not count as the named member's own
  let view := if c.op = opST ∧ ownSt s c = false ∧ (dirEntry s e).st = .em then { c with src := 0x001F } else c
  let a := dirAction (dirEntry s e) member view
  if a.refuse then
    answerIn input q.store q.index (errFor c errMemUncorrectable 0x0103) (bump 0x3500 0x19 s)
  else
    let s := countAccess c a.grant s
    let f := if c.op = opLDA then
        checkAcquire (windowLine (cellDest c) (cellOff c)) c.scope.toNat c.tenant.toNat (senderOf c) s
      else (false, s)
    let live := a.to_.filter (fun m => !f.2.grotto.lostMask.toNat.testBit m)
    let r := probeAll live e a.kind f.2
    let b : Busy :=
      { access := some (input, q), waits := r.1, next := a.next, grant := grantBits a.grant + flag f.1 31,
        writeBack := a.writeBack }
    let s := setBusy e b r.2
    if r.1.isEmpty then probesDone e s else s

/-- The pair of a request. -/
def samePair (a b : Cell) : Bool := a.src == b.src && cellDest a == cellDest b

/-- A request that waits may start: its line is not busy, no earlier one of its pair waits, there is room. -/
def mayStart (s : State) (before : List (Nat × QEntry)) (x : Nat × QEntry) : Bool :=
  if before.any (fun y => samePair y.2.cell x.2.cell) then false
  else
    match windowOfCell s x.2.cell with
    | none => true
    | some k =>
      let e := entryIndex (winEntry s k) (cellOff x.2.cell)
      !busyLine s e && decide (s.grotto.lines.length < 4096) && decide (answerUsed s + 8 ≤ 256)

/-- The first request that may start, and those before it. -/
def firstReady (s : State) (before : List (Nat × QEntry)) : List (Nat × QEntry) → Option (Nat × QEntry)
  | [] => none
  | x :: r => if mayStart s before x then some x else firstReady s (before ++ [x]) r

/-- DIRECTORY_ACCESS (R209, R212): the directory starts on the oldest request that may start. -/
def directoryAccess (s : State) : State :=
  let s := pumpWork 4096 s
  match firstReady s [] s.grotto.pending with
  | none => s
  | some x =>
    let s := modGrotto (fun g => { g with pending := g.pending.erase x }) s
    match windowOfCell s x.2.cell with
    | some k => beginAccess x.1 x.2 (entryIndex (winEntry s k) (cellOff x.2.cell)) s
    | none => combineOrQueue x.1 (coordP (cellDest x.2.cell)) x.2.store x.2.index x.2.cell s

/-- The destination port belongs to an enabled window homed here, with the directory enabled. -/
def dirPort (s : State) (out : Nat) : Bool :=
  dirEnabled s && (homed s).any (fun k => winAcc (winEntry s k) == out)

/-- What step 8 of R126 does with a request to an end-point port: the directory's part (R205, R212, R440). -/
def directoryTake (input out store index : Nat) (c : Cell) (s : State) : State :=
  let q : QEntry := { store := store, index := index, cell := c, arrival := s.time.ft }
  let waits := s.grotto.pending.any (fun x => samePair x.2.cell c)
  let later := modGrotto (fun g => { g with pending := g.pending ++ [(input, q)] })
  match (if c.op = opFEN then none else windowOfCell s c) with
  | some k =>
    if isolated s ∧ odGet s 0x6030 1 ≠ c.tenant.toNat then answerIn input store index (errFor c errTenantDenied 0) s
    else if winHome (winEntry s k) = false then
      answerIn input store index (errFor c errOutOfRange 0x0101) (bump 0x3500 0x17 s)
    else if c.len ≠ 1 then answerIn input store index (errFor c errOutOfRange 0x0102) (bump 0x3500 0x18 s)
    else if dirEnabled s = false then enqueue input out store index c s
    else if 2048 ≤ s.grotto.pending.length then enqueue input out store index c s
    else later s
  | none =>
    if waits then later s
    else if dirPort s out ∧ (isStore c.op ∨ c.op = opAT ∨ c.op = opFEN) then
      combineOrQueue input out store index c
        (modGrotto (fun g => { g with fwd := g.fwd ++ [(c.src.toNat, (cellDest c).toNat, c.tag.toNat, none)] }) s)
    else combineOrQueue input out store index c s

/-- A request that the directory must still take: it waits at the head of its queue until there is room (R212). -/
def untaken (s : State) (out : Nat) (c : Cell) : Bool :=
  dirPort s out && isRequest c.op && c.op != opFEN && (match windowOfCell s c with
    | some k => winHome (winEntry s k) && !s.grotto.lines.any (fun l => match l.2.access with
        | some x => x.2.cell == c || l.2.owed && x.2.cell.src == c.src && x.2.cell.tag == c.tag
        | none => false)
    | none => false)

/-- As room is freed, heads of queues that the directory must still take move into the pending store. -/
def takeHeads (s : State) : State :=
  s.sw.voqs.foldl (fun s e =>
    match voq s e.1 with
    | q :: r =>
      if untaken s (voqOut e.1) q.cell ∧ s.grotto.pending.length < 2048 then
        modGrotto (fun g => { g with pending := g.pending ++ [(voqIn e.1, q)] }) (setVoq e.1 r s)
      else s
    | [] => s) s

/-! ### Answers on their way (R208, R212) -/

/-- The busy line whose forwarded access a response answers. -/
def lineFor (s : State) (r : Cell) : Option (Nat × Busy) :=
  s.grotto.lines.find? (fun l => l.2.owed && (match l.2.access with
    | some x => x.2.cell.src == cellDest r && x.2.cell.tag == r.tag && cellDest x.2.cell == r.src
    | none => false))

/-- A `DAT` from an owner takes the GRANT and the scope flag of its access (R208, R215). -/
def grantAnswer (s : State) (r : Cell) : Cell :=
  if r.op = opDAT then
    match lineFor s r with
    | some (_, b) => if b.grant = 0 then r else { r with aux := r.aux ||| BitVec.ofNat 32 b.grant }
    | none => r
  else r

/-- The answer of an entry's access has left. -/
def answered (e : Nat) (s : State) : State :=
  match mapGet s.grotto.lines e with
  | some b => settle e (setBusy e { b with owed := false } s)
  | none => s

/-- Entries of the requests that an `ACK` with TAG `t` retires, and the list that remains. -/
def retire (l : List (Nat × Nat × Nat × Option Nat)) (src dest t : Nat) : List Nat × List (Nat × Nat × Nat × Option Nat) :=
  let mine := l.filter (fun x => x.1 == src && x.2.1 == dest)
  let upTo := (mine.takeWhile (fun x => x.2.2.1 != t)) ++ (mine.filter (fun x => x.2.2.1 == t)).take 1
  if mine.any (fun x => x.2.2.1 == t) then (upTo.filterMap (fun x => x.2.2.2), l.filter (fun x => !upTo.contains x)) else ([], l)

/-- A response leaves to output `out` (R212): lines whose final answer it is stop being busy, and a granted copy enters
the member's cache. -/
def grottoDepart (out : Nat) (r : Cell) (s : State) : State :=
  let src := (cellDest r).toNat
  let dest := r.src.toNat
  if r.op = opACK then
    let x := retire s.grotto.fwd src dest r.tag.toNat
    x.1.foldl (fun s e => answered e s) (modGrotto (fun g => { g with fwd := x.2 }) s)
  else if r.op = opDAT ∨ r.op = opERR ∨ r.op = opNAK then
    let s := modGrotto (fun g => { g with
      fwd := g.fwd.filter (fun x => !(x.1 == src && x.2.1 == dest && x.2.2.1 == r.tag.toNat)) }) s
    match lineFor s r with
    | some (e, b) =>
      let g := b.grant / 2 ^ 29 % 4
      let s := if r.op = opDAT ∧ g ≠ 0 then
          modGrotto (fun x => { x with
            held := mapSet x.held (8 * windowLine r.src (cellOff r) + out) ((if g = 2 then MemberState.e else MemberState.s), payloadLine r 0) }) s
        else s
      if r.last then answered e s else s
    | none => s
  else s

/-- A write-back has been acknowledged (R209, R213). -/
def writeBackDone (e : Nat) (s : State) : State :=
  match mapGet s.grotto.lines e with
  | none => s
  | some b =>
    let b' := { b with wb := none }
    match b.afterAck, b.access with
    | true, some (input, q) =>
      forwardRequest input q (some e) (windowRelease q.cell (setBusy e { b' with afterAck := false, owed := true } s))
    | _, _ => settle e (setBusy e b' s)

/-! ### The member's side (R210, R222) -/

/-- What a member answers and becomes (R210): DATA, and its new state. -/
def memberAnswer (kind : Nat) (st : MemberState) : Bool × MemberState :=
  match kind, st with
  | 1, .m => (true, .i)
  | 1, _ => (false, .i)
  | 2, .m => (true, .s)
  | 2, .e => (false, .s)
  | 3, .m => (true, .m)
  | _, x => (false, x)

/-- SNP_RECEIVE (R210, R211): the member on a port changes its state and sends its `SNR`. -/
def snpReceive (p : Nat) (c : Cell) (s : State) : State :=
  let owner := BitVec.ofNat 16 c.aux.toNat
  let key := 8 * windowLine owner (cellOff c) + p
  let held := mapGetD s.grotto.held key (MemberState.i, [])
  let a := memberAnswer c.sub.toNat held.1
  let snr : Cell :=
    { c with
      addr := mkAddr c.src (cellOff c), src := cellDest c, op := opSNR, sub := if a.1 then 2 else 1,
      len := if a.1 then 1 else 0, payload := if a.1 then slice held.2 0 128 else [] }
  emit (.endPoint p snr) (modGrotto (fun g => { g with
    held := if a.2 = .i then mapErase g.held key else mapSet g.held key (a.2, held.2) }) s)

/-- A member drops every line homed here (R222), reporting each modified line. -/
def memberDrop (p : Nat) (s : State) : State :=
  let mine := s.grotto.held.filter (fun e => e.1 % 8 == p)
  if 8 ≤ p then s
  else
    let s := modGrotto (fun g => { g with held := g.held.filter (fun e => e.1 % 8 != p) }) s
    (mine.filter (fun e => e.2.1 == .m)).foldl (fun s e => emit (.report "modified line discarded" p (e.1 / 8)) s) s

/-! ### Lost members (R219, R220) -/

/-- Treat every outstanding probe to a member as answered CLEAN. -/
def cleanProbes (m : Nat) (s : State) : State :=
  (s.grotto.probes.filter (fun e => e.2.member == m)).foldl (fun s e => probeAnswered e.1 none s) s

/-- A member is lost (R219): its mask bit is set, its probes count as CLEAN and a loss walk starts. -/
def loseMember (m : Nat) (s : State) : State :=
  if dirEnabled s ∧ m < 8 then
    let walks := s.grotto.walks.filter (fun w => w.1 != m) ++ [(m, 0)]
    cleanProbes m (modGrotto (fun g => { g with lostMask := g.lostMask ||| oneMember m, walks := walks }) s)
  else s

/-- The next entry, at or after `pos`, of a window homed here. -/
def nextWalked (s : State) (pos : Nat) : Option Nat :=
  (homed s).foldl (fun best k =>
    let v := winEntry s k
    let lo := winUnit v * unitLines
    let hi := lo + winSize v * unitLines
    let here := if pos < lo then some lo else if pos < hi then some pos else none
    match best, here with
    | none, x => x
    | x, none => x
    | some a, some b => some (min a b)) none

/-- One step of one member's walk: 64 entries. -/
def walkStep (m pos : Nat) (s : State) : State :=
  match nextWalked s pos with
  | none =>
    modGrotto (fun g => { g with
      walks := g.walks.filter (fun w => w.1 != m), lostMask := g.lostMask &&& ~~~(oneMember m) }) s
  | some start =>
    let s := (List.range 64).foldl (fun s k => loseOwner m (start + k) (loseEntry m (start + k) s)) s
    modGrotto (fun g => { g with walks := g.walks.map (fun w => if w.1 = m then (m, start + 64) else w) }) s

/-- LOSS_WALK_STEP (R219): the next 64 entries of every walk. -/
def lossWalkStep (s : State) : State :=
  pumpWork 4096 (s.grotto.walks.foldl (fun s w => walkStep w.1 w.2 s) s)

/-- SNR_RECEIVE (R209, R219): an answer of a member; one that arrives after the loss is discarded and counted. -/
def snrReceive (c : Cell) (s : State) : State :=
  let m := coordP c.src
  let s := if h : m < 24 then takeFrom ⟨m, h⟩ c s else s
  match mapGet s.grotto.probes c.tag.toNat with
  | some p =>
    if p.member = m ∧ s.grotto.lostMask.toNat.testBit m = false then
      let data := if c.sub = 2 then some (payloadLine c 0) else none
      let s := if c.sub = 2 then bump 0x3500 0x15 s else s
      pumpWork 4096 (probeAnswered c.tag.toNat data s)
    else bump 0x3500 0x1B s
  | none => bump 0x3500 0x1B s

/-- FORWARD_TIMEOUT (R214): a forwarded request has no final answer in time. -/
def forwardTimeout (e : Nat) (s : State) : State :=
  match mapGet s.grotto.lines e with
  | some b =>
    if b.owed then
      let s := modGrotto (fun g => { g with
        fwd := g.fwd.map (fun x => if x.2.2.2 = some e then (x.1, x.2.1, x.2.2.1, none) else x) }) s
      bump 0x3500 0x1E (settle e (setBusy e { b with owed := false } s))
    else s
  | none => s

/-- PROBE_TIMEOUT (R219): the probed member is lost. -/
def probeTimeout (tag : Nat) (s : State) : State :=
  match mapGet s.grotto.probes tag with
  | some p => loseMember p.member s
  | none => s

/-! ### Enable, disable, recall (R218) -/

/-- DIRECTORY_ENABLE: the directories of every enabled window homed here are set to I. -/
def directoryEnable (src : Route) (v : Nat) (s : State) : State :=
  let s := beginOp s
  let on := dirEnabled s
  let s := keepScalar src 0x3500 1 8 v 1 s
  if on then s else modGrotto (fun g => { g with dir := [], cache := [], lines := [], probes := [], walks := [], work := [], lostMask := 0 }) s

/-- Some line is in S or EM. -/
def linesHeld (s : State) : Bool := s.grotto.dir.any (fun e => e.2.st == .s || e.2.st == .em)

/-- DIRECTORY_DISABLE: refused while a line is in S or EM or a walk runs. -/
def directoryDisable (s : State) : State :=
  let s := beginOp s
  if linesHeld s ∨ walkRuns s then refuseRule s else odSet 0x3500 1 0 s

/-- RECALL: every line with a holder is probed; ignored while disabled or during a walk. -/
def recallWrite (src : Route) (v : Nat) (s : State) : State :=
  let s := onlyOne src 0x3500 2 v (beginOp s)
  if dirEnabled s = false ∨ walkRuns s then s
  else
    let held := s.grotto.dir.filter (fun e => e.2.st == .s || e.2.st == .em)
    pumpWork 65536 (modGrotto (fun g => { g with
      work := g.work ++ held.map (fun e => (1, e.1, e.2.members.toNat)) }) s)

/-! ### Window entries (R204) -/

/-- ENABLE must be cleared. -/
def windowBad (s : State) (k v : Nat) : Bool :=
  let others := ((List.range 16).filter (fun j => j != k)).map (winEntry s) |>.filter winEnable
  let meets (a b : Nat) : Bool :=
    decide (winBase a < winBase b + winSize b * 2 ^ 21) && decide (winBase b < winBase a + winSize a * 2 ^ 21)
  let units (a b : Nat) : Bool :=
    decide (winUnit a < winUnit b + winSize b) && decide (winUnit b < winUnit a + winSize a)
  let acc := winAcc v
  winSize v == 0 || others.any (fun w => winAcc w == acc && meets v w)
    || (winHome v && decide (65536 < winUnit v + winSize v))
    || (winHome v && others.any (fun w => winHome w && units v w))
    || (if h : acc < 24 then role s ⟨acc, h⟩ != 1 else true)

/-- A write of a window entry: refused unless the directory is disabled. -/
def windowEntryWrite (src : Route) (k v : Nat) (s : State) : State :=
  let s := beginOp s
  if dirEnabled s then refuseCondition s
  else
    let a := clampField 63 1 (if bit v 63 && windowBad s k v then 0 else bits v 63 1) (v, [])
    reportClamps src 0x3501 (k + 1) a.2 (odSet 0x3501 (k + 1) a.1 s)

/-! ### Meanings -/

/-- DIRECTORY_ACCESS (R209). -/
def execDirectoryAccess (s : State) : Host.Outcome State Fault Refusal := .next (directoryAccess s)

/-- SNP_RECEIVE (R210). -/
def execSnpReceive (p : PortN) (c : Cell) (s : State) : Host.Outcome State Fault Refusal := .next (snpReceive p.val c s)

/-- SNR_RECEIVE (R209). -/
def execSnrReceive (c : Cell) (s : State) : Host.Outcome State Fault Refusal := .next (snrReceive c s)

/-- FORWARD_TIMEOUT (R214). -/
def execForwardTimeout (line : Nat) (s : State) : Host.Outcome State Fault Refusal := .next (forwardTimeout line s)

/-- PROBE_TIMEOUT (R219). -/
def execProbeTimeout (tag : BitVec 16) (s : State) : Host.Outcome State Fault Refusal := .next (probeTimeout tag.toNat s)

/-- LOSS_WALK_STEP (R219). -/
def execLossWalkStep (s : State) : Host.Outcome State Fault Refusal := .next (lossWalkStep s)

/-- RECALL (R218). -/
def execRecall (src : Route) (v : BitVec 8) (s : State) : Host.Outcome State Fault Refusal := .next (recallWrite src v.toNat s)

end Sys2Proof.Machine
end

