-- ==== Sys2Proof/Machine/CoreCache.lean ====
section
/-!
DEFINITION. The core caches (R251): lines, replacement and write-back, to this GV24's memory or to the fabric.
-/

namespace Sys2Proof.Machine

open Sys2Proof

/-- Key of a line of a core's cache: core, space (1 LM, 2 FM), number of the translated line. -/
def cacheKey (core space line : Nat) : Nat := (core * 4 + space) * 2 ^ 57 + line

/-- Core of a key. -/
def keyCore (k : Nat) : Nat := k / 2 ^ 57 / 4

/-- Space of a key. -/
def keySpace (k : Nat) : Nat := k / 2 ^ 57 % 4

/-- Translated line of a key. -/
def keyLine (k : Nat) : Nat := k % 2 ^ 57

/-- A line of a core's cache. -/
def cacheLine (s : State) (k : Nat) : Option CLine := mapGet s.cmp.cache k

/-- Replace a line. -/
def setCache (k : Nat) (l : CLine) (s : State) : State :=
  { s with cmp := { s.cmp with cache := mapSet s.cmp.cache k l } }

/-- Drop a line. -/
def dropCache (k : Nat) (s : State) : State := { s with cmp := { s.cmp with cache := mapErase s.cmp.cache k } }

/-- The tenant of a core's slot mask: that of the lowest slot; 16 where none is named. -/
def maskTenant (s : State) (core mask : Nat) : Nat :=
  match (List.range 4).find? (fun j => mask.testBit j) with
  | some j => (ctxAt s (core * 4 + j)).tenant
  | none => 16

/-- The array gives a command to the resident BEP, under the next number. -/
def arraySubmit (use : Use) (cmd : BepCommand) (phys : Nat) (s : State) : State :=
  let n := s.cmp.issued + 1
  submit { cmd := { cmd with id := n }, phys := some (BitVec.ofNat 64 phys), use := use }
    { s with cmp := { s.cmp with issued := n } }

/-- Write bytes of a line through to the fabric: a whole-line `ST`, or an `STM` of the bytes (R251, R271). -/
def fabricWrite (use : Use) (tenant pasid line mask : Nat) (b : Bytes) (s : State) : State :=
  let full := mask % 2 ^ 128 = fullMask
  let cmd : BepCommand :=
    { op := if full then .st else .stm, pasid := BitVec.ofNat 20 pasid, addr := BitVec.ofNat 64 (128 * line),
      tenant := some (BitVec.ofNat 4 tenant), payload := if full then b else natLe 16 mask ++ b }
  arraySubmit use cmd (128 * line) s

/-- Write bytes of a line of local memory for contexts of a core; an error is raised against each (R274). -/
def localWrite (core mask tenant line bytes : Nat) (b : Bytes) (s : State) : State :=
  let hit (code : Nat) (s : State) : State := (List.range 4).foldl (fun s j =>
    if mask.testBit j then ctxFault (core * 4 + j) code (128 * line) s else s) s
  match memRefusal s tenant line with
  | some (code, detail) => hit (if code = 3 then fFabricErr else fSpace) (countRefusal detail s)
  | none =>
    let r := writeLine line bytes b tenant s
    if r.1 then r.2 else hit fMemErr r.2

/-- Write a line's dirty bytes back; the line stays, clean, where it holds all its bytes. -/
def writeBackLine (k : Nat) (s : State) : State :=
  match cacheLine s k with
  | none => s
  | some l =>
    if l.dirty = 0 then s
    else
      let core := keyCore k
      let t := maskTenant s core l.mask.toNat
      let s := if l.valid then setCache k { l with dirty := 0, mask := 0 } s else dropCache k s
      if keySpace k = 1 then localWrite core l.mask.toNat t (keyLine k) l.dirty.toNat l.bytes s
      else fabricWrite (.cacheWrite core l.mask.toNat) t l.pasid (keyLine k) l.dirty.toNat l.bytes s

/-- Write a line's dirty bytes back and invalidate it. -/
def flushLine (k : Nat) (s : State) : State := dropCache k (writeBackLine k s)

/-- Lines of a core whose key satisfies `p`. -/
def coreLines (s : State) (core : Nat) (p : Nat × CLine → Bool) : List Nat :=
  (s.cmp.cache.filter (fun e => keyCore e.1 == core && p e)).map (fun e => e.1)

/-- Room for a line in its set of 16: a clean line goes first, else one is written back (assumption 15). -/
def makeRoom (k : Nat) (s : State) : State :=
  let set := s.cmp.cache.filter (fun e => keyCore e.1 == keyCore k && keyLine e.1 % 128 == keyLine k % 128 && e.1 != k)
  if set.length < 16 then s
  else
    match set.find? (fun e => e.2.dirty == 0) with
    | some e => dropCache e.1 s
    | none => match set with
      | e :: _ => flushLine e.1 s
      | [] => s

/-- Install a clean line; bytes that a stream has written meanwhile stay as written. -/
def installLine (k pasid : Nat) (b : Bytes) (s : State) : State :=
  let s := makeRoom k s
  match cacheLine s k with
  | some l => setCache k { l with bytes := mergeMask l.dirty.toNat l.bytes b, valid := true } s
  | none => setCache k { bytes := b, pasid := pasid } s

end Sys2Proof.Machine
end

