-- ==== Sys2Proof/Machine/Answers.lean ====
section
/-!
DEFINITION. Answers at the source (R154, R155, R158, R161, R163, R171, R182, R183): responses, timeouts, resends, and the
fill interface of an end-point (R197, R198).
-/

namespace Sys2Proof.Machine

open Sys2Proof

/-! ### A request ends well -/

/-- The command ends with status OK and its data. -/
def okUse (use : Use) (cmd : BepCommand) (scope : Bool) (data : Bytes) (s : State) : State :=
  match use with
  | .agent =>
    let s := if scope then emit (.report "scope fault" cmd.id cmd.addr.toNat) s else s
    emit (.completion cmd.id .ok scope data) s
  | .fill k e key =>
    modStream k e (fun x => { x with wait := if x.wait = .fabric then .none else x.wait }) (installLine key cmd.pasid.toNat data s)
  | .value k e =>
    let s := modStream k e (fun x => { x with wait := .none, got := some (x.got.getD [] ++ data) }) s
    if scope then ctxScope k cmd.addr.toNat s else s
  | .cacheWrite _ _ => s
  | .posted _ => s
  | .copyRead k => modCopy k (fun h => { h with got := some (h.got.getD [] ++ data), asked := false }) s
  | .copyWrite _ => s
  | .poll k =>
    let s := pollAnswer k data (modCtx k (fun c => { c with polling := false }) s)
    if scope then ctxScope k cmd.addr.toNat s else s
  | .writeBack e => writeBackDone e s
  | .fence => s

/-- A request ends with its full answer. -/
def endOk (tag : Nat) (r : Req) (scope : Bool) (data : Bytes) (s : State) : State :=
  let s := fenceEnd tag true (dropReq tag s)
  let dest := (cellDest r.cell).toNat
  let s := if r.use = .fence then
      let s := { s with ep := { s.ep with fenced := s.ep.fenced.erase dest } }
      match mapGet s.ep.recover dest with
      | some (_, some t) => if t = tag then resendRefused dest s else s
      | _ => s
    else s
  okUse r.use r.cmd scope data s

/-! ### Responses (R154, R155) -/

/-- Requests that an `ACK` answers; the run of n ends with TAG t (R155). -/
def ackRun (s : State) (t n : Nat) (last : Req) : List (Nat × Req) :=
  if last.cell.op = opAT then [(t, last)]
  else
    let mine := s.ep.reqs.filter (fun e => cellDest e.2.cell == cellDest last.cell && (isStore e.2.cell.op || e.2.cell.op == opFEN)
      && decide (e.2.seq ≤ last.seq))
    let sorted := mine.foldl (fun (l : List (Nat × Req)) e => (l.takeWhile (fun x => decide (x.2.seq < e.2.seq))) ++ [e] ++
      (l.dropWhile (fun x => decide (x.2.seq < e.2.seq)))) []
    sorted.drop (sorted.length - n)

/-- A store answered by a GV24 never reached its destination: before the next `STF` it leaves the count (R159). -/
def uncount (r : Req) (code : Nat) (s : State) : State :=
  let dest := (cellDest r.cell).toNat
  let before := match mapGet s.ep.flagSeq dest with
    | some q => decide (q < r.seq)
    | none => true
  if isCounted r.cell.op ∧ before = true ∧ (code = 1 ∨ code = 2 ∨ code = 7) then
    setCount dest ((storeCount s dest + 2 ^ 24 - 1) % 2 ^ 24) s
  else s

/-- The data that a `DAT` adds, at its place among the request's lines (R101). -/
def addData (r : Req) (c : Cell) : Bytes :=
  if r.cell.op = opAT then c.payload
  else splice r.got (128 * (c.aux.toNat % 32)) (slice c.payload 0 (128 * c.len.toNat))

/-- A response to a request outstanding. -/
def takeAnswer (t : Nat) (r : Req) (c : Cell) (s : State) : State :=
  let dest := cellDest r.cell
  let m := c.cmark.toNat
  if c.op = opACK then
    let run := ackRun s t (c.aux.toNat % 65536) r
    let s := reactMark dest m (run.map (fun e => e.2)) s
    run.foldl (fun s e => endOk e.1 e.2 false [] s) s
  else if c.op = opDAT then
    let got := addData r c
    if c.last then
      endOk t r (r.cell.op == opLDA && c.aux.getLsbD 31) got (reactMark dest m [r] s)
    else
      let s := if m = 0 then s else reactMark dest m [r] s
      { s with ep := { s.ep with reqs := mapMod s.ep.reqs t (fun r => { r with got := got }) } }
  else if c.op = opNAK then
    let s := if m = 0 then s else reactMark dest m [r] s
    if c.sub = 2 then
      if 8 ≤ r.busy + 1 then endFailed t r .busy s
      else { s with ep := { s.ep with reqs := mapMod s.ep.reqs t (fun r => { r with busy := r.busy + 1, parked := true }) } }
    else if c.aux.toNat % 65536 = 2 then
      -- a tally failure: the count starts again and the flag is not resent (R161)
      let s := setCount dest.toNat 0 (endFailed t r .tallyFail s)
      { s with ep := { s.ep with recover := mapSet s.ep.recover dest.toNat ((mapGet s.ep.recover dest.toNat).getD ([], none)) } }
    else refused t r s
  else
    let code := c.sub.toNat
    let detail := c.aux.toNat % 65536
    let s := reactMark dest m [r] s
    if code = 3 then breakPair dest detail s
    else endFailed t r (.err code detail) (uncount r code s)

/-- A write-back of an entry is still to be answered or sent again. -/
def wbOpen (s : State) (e : Nat) : Bool :=
  s.ep.reqs.any (fun r => r.2.use == .writeBack e) || s.ep.waiting.any (fun c => c.use == .writeBack e)
    || s.ep.recover.any (fun x => x.2.1.any (fun r => r.use == .writeBack e))

/-- Write-backs that ended by an error or a timeout free their lines too. -/
def settleWriteBacks (s : State) : State :=
  s.grotto.lines.foldl (fun s l => if l.2.wb.isSome && !wbOpen s l.1 then writeBackDone l.1 s else s) s

/-- RESPONSE_RECEIVE (R154, R186): the response leaves the intake for its reservation; one for no outstanding request is
discarded and counted. -/
def responseReceive (c : Cell) (s : State) : State :=
  let s := progress .intake { s with bep := { s.bep with intake := s.bep.intake.erase c } }
  match mapGet s.ep.reqs c.tag.toNat with
  | some r => if cellDest r.cell = c.src then settleWriteBacks (pump (takeAnswer c.tag.toNat r c s)) else bump 0x3400 0x19 s
  | none => bump 0x3400 0x19 s

/-- REQUEST_TIMEOUT (R154): the request ends with its outcome unknown; a further timeout frees its TAG. -/
def requestTimeout (t : Nat) (s : State) : State :=
  match mapGet s.ep.reqs t with
  | some r =>
    let s := endFailed t r .timeout (bump 0x3400 0x1A s)
    let dest := (cellDest r.cell).toNat
    let s := match mapGet s.ep.recover dest with
      | some (l, some f) => if f = t then { s with ep := { s.ep with recover := mapSet s.ep.recover dest (l, none) } } else s
      | _ => s
    settleWriteBacks (pump { s with ep := { s.ep with quarantine := t :: s.ep.quarantine } })
  | none => { s with ep := { s.ep with quarantine := s.ep.quarantine.erase t } }

/-- BUSY_RESEND (R183): the same TAG and reservation. -/
def busyResend (t : Nat) (s : State) : State :=
  match mapGet s.ep.reqs t with
  | some r =>
    if r.parked then
      let c := { r.cell with epoch := s.ep.epoch }
      bepSend c { s with ep := { s.ep with reqs := mapSet s.ep.reqs t { r with cell := c, parked := false } } }
    else s
  | none => s

/-! ### Fills and invalidations (R197, R198) -/

/-- Log2 of a FILL_RSP's page size. -/
def fillLog2 (size : Nat) : Nat := if size = 1 then 21 else if size = 2 then 30 else 12

/-- Repeat a fill under a fresh tag for commands whose response was discarded. -/
def refill (f : Fill) (s : State) : State := f.waiting.foldl (fun s c => waitFill c s) s

/-- The waiting commands end with XLATE. -/
def failFill (f : Fill) (s : State) : State := f.waiting.foldl (fun s c => failUse c.use c.cmd .xlate s) s

/-- FILL_RSP_RECEIVE (R197, R198). -/
def fillRsp (t status ppage size perms : Nat) (s : State) : State :=
  match mapGet s.ep.fills t with
  | none => s
  | some f =>
    let gone := { s with ep := { s.ep with fills := mapErase s.ep.fills t } }
    if f.stale then refill f gone
    else if status = 0 then
      let e : XEntry :=
        { pasid := f.pasid, log2 := fillLog2 size, vpage := f.vpage, ppage := ppage, r := perms.testBit 0, w := perms.testBit 1,
          a := perms.testBit 2, c := perms.testBit 3 }
      let s := { gone with ep := { gone.ep with cache := (e :: gone.ep.cache).take 16384 } }
      f.waiting.foldl (fun s c => agentCommand c s) s
    else if status = 2 then
      if 16 ≤ f.retries then failFill f gone
      else { s with ep := { s.ep with fills := mapSet s.ep.fills t { f with retries := f.retries + 1 } } }
    else failFill f (emit (.report "translation fault" f.pasid f.vpage) gone)

/-- FILL_RETRY (R197): the FILL_REQ goes out once more. -/
def fillRetry (t : Nat) (s : State) : State :=
  match mapGet s.ep.fills t with
  | some f => if 0 < f.retries then emit (.fillReq t f.pasid f.vpage f.kind) s else s
  | none => s

/-- A page, given by its first 4 KiB page, meets a range of 4 KiB pages; a length of 0 is every page of the PASID. -/
def rangeMeets (pasid base pages : Nat) (p log2 v : Nat) : Bool :=
  p == pasid && (pages == 0 ||
    (decide (v / 2 ^ (log2 - 12) * 2 ^ (log2 - 12) < base + pages) &&
      decide (base < (v / 2 ^ (log2 - 12) + 1) * 2 ^ (log2 - 12))))

/-- INV_REQ_RECEIVE (R198): entries in the range are removed and fills of the range become stale. -/
def invReq (t pasid base pages : Nat) (s : State) : State :=
  { s with ep := { s.ep with
    cache := s.ep.cache.filter (fun e => !rangeMeets pasid base pages e.pasid e.log2 e.vpage),
    fills := s.ep.fills.map (fun e =>
      if rangeMeets pasid base pages e.2.pasid 12 e.2.vpage then (e.1, { e.2 with stale := true }) else e),
    invs := mapSet s.ep.invs t (pasid, base, pages) } }

/-- INV_DONE_SEND (R198): once no command translated through the range waits to leave. -/
def invDoneSend (t : Nat) (s : State) : State :=
  match mapGet s.ep.invs t with
  | some (pasid, base, pages) =>
    let busy := s.ep.waiting.any (fun c => c.use == .agent && rangeMeets pasid base pages c.cmd.pasid.toNat 12 (c.cmd.addr.toNat / 4096))
    if busy then s else emit (.invDone t) { s with ep := { s.ep with invs := mapErase s.ep.invs t } }
  | none => s

/-! ### Meanings -/

/-- RESPONSE_RECEIVE (R154). -/
def execResponseReceive (c : Cell) (s : State) : Host.Outcome State Fault Refusal := .next (responseReceive c s)

/-- REQUEST_TIMEOUT (R154). -/
def execRequestTimeout (tag : BitVec 16) (s : State) : Host.Outcome State Fault Refusal := .next (requestTimeout tag.toNat s)

/-- BUSY_RESEND (R183). -/
def execBusyResend (tag : BitVec 16) (s : State) : Host.Outcome State Fault Refusal := .next (busyResend tag.toNat s)

/-- FILL_RSP_RECEIVE (R197). -/
def execFillRspReceive (tag : BitVec 12) (status : BitVec 2) (ppage : BitVec 52) (size : BitVec 2) (perms : BitVec 4) (s : State) :
    Host.Outcome State Fault Refusal := .next (fillRsp tag.toNat status.toNat ppage.toNat size.toNat perms.toNat s)

/-- FILL_RETRY (R197). -/
def execFillRetry (tag : BitVec 12) (s : State) : Host.Outcome State Fault Refusal := .next (fillRetry tag.toNat s)

/-- INV_REQ_RECEIVE (R198): the base is a virtual address. -/
def execInvReqReceive (tag : BitVec 12) (pasid : BitVec 20) (base : BitVec 64) (pages : Nat) (s : State) :
    Host.Outcome State Fault Refusal := .next (invReq tag.toNat pasid.toNat (base.toNat / 4096) pages s)

/-- INV_DONE_SEND (R198). -/
def execInvDoneSend (tag : BitVec 12) (s : State) : Host.Outcome State Fault Refusal := .next (invDoneSend tag.toNat s)

end Sys2Proof.Machine
end

