-- ==== Sys2Proof/Machine/Translate.lean ====
section
/-!
DEFINITION. The translation unit (R335–R351): lookups, fills through ATS, page faults through PRI, invalidation with its
drain snapshot, and the read-back of entries.
-/

namespace Sys2Proof.Machine

open Sys2Proof

/-- Change the translation unit. -/
def modXlat (f : Xlat → Xlat) (s : State) : State := { s with xlat := f s.xlat }

/-! ### Entries (R336, R337) -/

/-- The set of a page of 2^k bytes. -/
def xlatSet (pasid va k : Nat) : Nat := bits va k 10 ^^^ pasid % 1024

/-- The keys of a set. -/
def xlatWays (set : Nat) : List Nat := (List.range 16).map (fun w => set * 16 + w)

/-- The way that holds the page of `va` at size 2^k. -/
def xlatFind (x : Xlat) (pasid va k : Nat) : Option (Nat × XEntry) :=
  (xlatWays (xlatSet pasid va k)).findSome? (fun j => match mapGet x.entries j with
    | some e => if e.pasid = pasid ∧ e.log2 = k ∧ e.vpage = va / 2 ^ k * 2 ^ (k - 12) then some (j, e) else none
    | none => none)

/-- A lookup probes the sets of the three sizes. -/
def xlatLookup (x : Xlat) (pasid va : Nat) : Option (Nat × XEntry) := [12, 21, 30].findSome? (xlatFind x pasid va)

/-- A way has been used. -/
def touchWay (j : Nat) (x : Xlat) : Xlat := { x with lru := j :: x.lru.filter (fun i => i != j) }

/-- Ways before those of tenant `t` in isolated mode, clamped in ascending order to 16 (R440). -/
def waysBefore (s : State) (t : Nat) : Nat := min 16 ((List.range t).foldl (fun n j => n + odGet s 0x6031 (j + 1)) 0)

/-- The ways that a tenant's fills replace: its own in isolated mode, else all. -/
def tenantWays (s : State) (t : Nat) : List Nat :=
  if isolated s then (List.range 16).filter (fun w => decide (waysBefore s t ≤ w) && decide (w < waysBefore s (t + 1)))
  else List.range 16

/-- The way a fill takes: that of the page itself, a free one, or the least recently used of those it may replace. -/
def xlatVictim (own : List Nat) (x : Xlat) (e : XEntry) : Nat :=
  let va := e.vpage * 4096
  let ways := own.map (fun w => xlatSet e.pasid va e.log2 * 16 + w)
  match xlatFind x e.pasid va e.log2 with
  | some (j, _) => j
  | none =>
    match ways.find? (fun j => (mapGet x.entries j).isNone) with
    | some j => j
    | none => ((x.lru.filter (fun j => ways.contains j)).getLast?).getD (ways.headD (xlatSet e.pasid va e.log2 * 16))

/-- Install an entry. -/
def xlatInstall (own : List Nat) (e : XEntry) (x : Xlat) : Xlat :=
  let j := xlatVictim own x e
  touchWay j { x with entries := mapSet x.entries j e }

/-- The local form: ADDR[63:48] = FFFFh (R249). -/
def isLocalForm (addr : Nat) : Bool := addr / 2 ^ 48 == 0xFFFF

/-- The checks of R338 on an entry. -/
def entryRefused (s : State) (e : XEntry) : Bool :=
  let addr := e.ppage * 4096
  if isLocalForm addr then
    let off := addr % 2 ^ 48
    decide (usable s < off + 2 ^ e.log2) || closedRange s off (2 ^ e.log2)
  else
    let c : BitVec 16 := BitVec.ofNat 16 (addr / 2 ^ 48)
    (decide (24 ≤ coordP c) && decide (coordP c ≤ 30)) || (ownGv s c && coordP c == 31)

/-- An entry as an ATS completion grants it (R339): A is R and W, C needs a collective aperture. -/
def grantedEntry (pasid tenant va log2 addr : Nat) (r w : Bool) : XEntry where
  tenant := tenant
  pasid := pasid
  log2 := log2
  vpage := va / 2 ^ log2 * 2 ^ (log2 - 12)
  ppage := addr / 4096
  r := r
  w := w
  a := r && w
  c := w && !isLocalForm addr && addr / 2 ^ 48 % 32 == 31 && bit addr 47

/-! ### Waiters (R275, R276) -/

/-- The context of a waiter. -/
def waiterCtx : Waiter → Nat
  | .stream k _ => k
  | .copy k => k
  | .ring k => k

/-- A waiter that holds its whole context: a copy suspends itself only. -/
def holdsCtx : Waiter → Bool
  | .copy _ => false
  | .stream _ _ => true
  | .ring _ => true

/-- The context still waits for a page request, or for the refill after one. -/
def pageHeld (s : State) (k : Nat) : Bool :=
  let mine (l : List (Waiter × Nat)) : Bool := l.any (fun w => holdsCtx w.1 && waiterCtx w.1 == k)
  s.xlat.pages.any (fun p => mine p.2.waiters) || s.xlat.reqs.any (fun r => r.final && mine r.waiters)

/-- The context enters SUSPENDED for a page request. -/
def suspendCtx (w : Waiter) (s : State) : State :=
  if holdsCtx w then modCtx (waiterCtx w) (fun c => if c.state = .running then { c with state := .suspended } else c) s else s

/-- The instruction, poll or copy line of a waiter is carried out again from its start. -/
def resumeWaiter (w : Waiter) (s : State) : State :=
  let k := waiterCtx w
  let s := match w with
    | .stream k e => modStream k e (fun x => { x with wait := if x.wait = .xlate then .none else x.wait }) s
    | .copy k => modCopy k (fun h => { h with paused := false }) s
    | .ring _ => s
  if pageHeld s k then s
  else modCtx k (fun c => if c.state = .suspended then { c with state := .running } else c) s

/-- A waiter's access fails. -/
def failWaiter (code va : Nat) (w : Waiter) (s : State) : State := ctxFault (waiterCtx w) code va s

/-! ### Translation Requests (R341) and page requests (R343) -/

/-- The tenant that waits: that of the context. -/
def waitTenant (s : State) (ws : List (Waiter × Nat)) : Nat :=
  match ws with
  | w :: _ => (ctxAt s (waiterCtx w.1)).tenant
  | [] => 16

/-- Send the Translation Requests that wait: at most 256 are outstanding, and in isolated mode 16 of a tenant. -/
def pumpTreqs (s : State) : State :=
  s.xlat.reqs.foldl (fun s r =>
    let out := s.xlat.reqs.filter (fun q => q.sent)
    if r.sent || decide (256 ≤ out.length) || (isolated s && decide (16 ≤ (out.filter (fun q => q.tenant == r.tenant)).length)) then s
    else
      emit (.atsRequest r.pasid r.vpage) (bump 0x5200 0x12
        (modXlat (fun x => { x with reqs := x.reqs.map (fun q => if q == r then { q with sent := true } else q) }) s))) s

/-- A miss: it joins the request for its page, or makes one. -/
def missWait (pasid va : Nat) (final : Bool) (ws : List (Waiter × Nat)) (s : State) : State :=
  let vp := va / 4096
  let same (r : TReq) : Bool := r.pasid == pasid && r.vpage == vp && !r.stale
  if s.xlat.reqs.any same then
    modXlat (fun x => { x with reqs := x.reqs.map (fun r =>
      if same r then { r with waiters := r.waiters ++ ws, final := r.final || final } else r) }) s
  else
    pumpTreqs (modXlat (fun x => { x with
      reqs := x.reqs ++ [{ pasid := pasid, vpage := vp, waiters := ws, final := final, tenant := waitTenant s ws }] }) s)

/-- A Translation Request ends. -/
def endTreq (r : TReq) (s : State) : State := pumpTreqs (modXlat (fun x => { x with reqs := x.reqs.erase r }) s)

/-- A page request may be sent for a tenant: at most min(512, the allocation) are outstanding, in isolated mode 32 of a
tenant (R343, R440). -/
def pageRoom (s : State) (t : Nat) : Bool :=
  decide (s.xlat.pages.length < min 512 s.xlat.allocation) &&
    !(isolated s && decide (32 ≤ (s.xlat.pages.filter (fun p => p.2.tenant == t)).length))

/-- A fault that needs a page request (R276, R343, R344): it joins one outstanding for the page, sends one, waits for
one to end, or fails at once where none may be sent. -/
def pageFault (pasid va need : Nat) (w : Waiter) (s : State) : State :=
  let vp := va / 4096
  if !s.xlat.pri || s.xlat.stopped then failWaiter fXlate va w s
  else
    match s.xlat.pages.find? (fun p => p.2.pasid == pasid && p.2.vpage == vp) with
    | some (i, p) =>
      suspendCtx w (bump 0x5003 4
        (modXlat (fun x => { x with pages := mapSet x.pages i { p with waiters := p.waiters ++ [(w, need)] } }) s))
    | none =>
      let t := (ctxAt s (waiterCtx w)).tenant
      match (if pageRoom s t then mapFree s.xlat.pages 512 else none) with
      | some i =>
        suspendCtx w (emit (.pageRequest pasid vp i (bit need 0) (bit need 1)) (bump 0x5003 3
          (modXlat (fun x => { x with pages := mapSet x.pages i {
            pasid := pasid, vpage := vp, waiters := [(w, need)], tenant := t } }) s)))
      | none => modXlat (fun x => { x with pageWait := x.pageWait ++ [(pasid, vp, w, need)] }) s

/-- A page request ends: faults that wait for room try again, in order. -/
def endPage (i : Nat) (s : State) : State :=
  let later := s.xlat.pageWait
  let s := modXlat (fun x => { x with pages := mapErase x.pages i, pageWait := [] }) s
  later.foldl (fun s f => pageFault f.1 (f.2.1 * 4096) f.2.2.2 f.2.2.1 s) s

/-! ### Lookups (R338, R343, R349) -/

/-- What a lookup gives: the translated address, a wait of the access, or a fault of the context. -/
inductive Tr where
  | ok (addr : Nat)
  | stall
  | fault (code : Nat)
  deriving DecidableEq, Repr

/-- The bits an access needs as an entry holds them: 1 R, 2 W, 4 A, 8 C. -/
def hasBits (e : XEntry) (need : Nat) : Bool :=
  (!bit need 0 || e.r) && (!bit need 1 || e.w) && (!bit need 2 || e.a) && (!bit need 3 || e.c)

/-- The flags of a page request: R, and W where the access needs W, A or C (R343). -/
def pageFlags (need : Nat) : Nat := flag (bit need 0) 0 + flag (bit need 1 || bit need 2 || bit need 3) 1

/-- Translate an access to a space (1 LM, 2 FM) for a waiter. -/
def translate (w : Waiter) (space need pasid va : Nat) (s : State) : Tr × State :=
  let stallOn (s : State) : State := match w with
    | .stream k e => modStream k e (fun x => { x with wait := .xlate }) s
    | .copy k => modCopy k (fun h => { h with paused := true }) s
    | .ring _ => s
  match xlatLookup s.xlat pasid va with
  | some (j, e) =>
    let s := bump 0x5200 0x10 (modXlat (touchWay j) s)
    let addr := entryAddr e va
    if (space == 1) != isLocalForm addr then (.fault fSpace, s)
    else if space = 2 ∧ ownGv s (BitVec.ofNat 16 (addr / 2 ^ 48)) = true ∧ addr / 2 ^ 48 % 32 = 31 then (.fault fSpace, s)
    else if hasBits e need then
      if space = 2 ∧ assigned s = false then (.fault fFabricErr, s) else (.ok addr, s)
    else (.stall, pageFault pasid va (pageFlags need) w (stallOn s))
  | none =>
    let s := bump 0x5200 0x11 s
    if s.xlat.ats then (.stall, missWait pasid va false [(w, pageFlags need)] (stallOn s)) else (.fault fXlate, s)

/-! ### Completions and responses (R342, R344) -/

/-- Every waiter of a request takes a fault. -/
def failAll (ws : List (Waiter × Nat)) (code va : Nat) (s : State) : State := ws.foldl (fun s w => failWaiter code va w.1 s) s

/-- The largest of the three page sizes not above 2^log2. -/
def pageLog2 (log2 : Nat) : Nat := if 30 ≤ log2 then 30 else if 21 ≤ log2 then 21 else 12

/-- A translation is granted: the entry is checked and installed, and the waiters go on. -/
def installGrant (q : TReq) (r w : Bool) (log2 addr : Nat) (s : State) : State :=
  let va := q.vpage * 4096
  let size := pageLog2 log2
  let e := grantedEntry q.pasid q.tenant va size ((addr / 2 ^ log2 * 2 ^ log2 + va % 2 ^ log2) / 2 ^ size * 2 ^ size) r w
  if entryRefused s e then failAll q.waiters fSpace va (bump 0x5200 0x16 s)
  else
    let s := bump 0x5200 0x13 (modXlat (xlatInstall (tenantWays s q.tenant) e) s)
    let lacks (n : Nat) : Bool := (bit n 0 && !r) || (bit n 1 && !w)
    q.waiters.foldl (fun s x => if q.final && lacks x.2 then failWaiter fPerm va x.1 s else resumeWaiter x.1 s) s

/-- ATS_COMPLETION (R342) for the oldest request of the page. -/
def atsCompletion (pasid vp : Nat) (res : AtsResult) (s : State) : State :=
  match s.xlat.reqs.find? (fun r => r.sent && r.pasid == pasid && r.vpage == vp) with
  | none => emit (.aer "Unexpected Completion") s
  | some q =>
    let va := vp * 4096
    let s := endTreq q s
    match res with
    | .failed => failAll q.waiters fXlate va (emit (.aer "Translation Request failed") (bump 0x5200 0x15 s))
    | .ok u r w log2 addr =>
      if q.stale then missWait pasid va q.final q.waiters (bump 0x5200 0x14 s)
      else if u || (!r && !w) then
        if q.final then failAll q.waiters fPerm va s
        else q.waiters.foldl (fun s x => pageFault pasid va x.2 x.1 s) s
      else installGrant q r w log2 addr.toNat s

/-- ATS_COMPLETION_TIMEOUT (R342, R383). -/
def atsTimeout (pasid vp : Nat) (s : State) : State :=
  match s.xlat.reqs.find? (fun r => r.sent && r.pasid == pasid && r.vpage == vp) with
  | none => s
  | some q => failAll q.waiters fXlate (vp * 4096) (emit (.aer "Completion Timeout") (bump 0x5200 0x15 (endTreq q s)))

/-- Every outstanding page request ends as for Response Failure, and none is sent until PRI is reset. -/
def stopPages (s : State) : State :=
  let all := s.xlat.pages
  let later := s.xlat.pageWait
  let s := modXlat (fun x => { x with pages := [], pageWait := [], stopped := true }) s
  let s := all.foldl (fun s p => failAll p.2.waiters fXlate (p.2.vpage * 4096) s) s
  later.foldl (fun s w => failWaiter fXlate (w.2.1 * 4096) w.2.2.1 s) s

/-- PAGE_RESPONSE (R344). -/
def pageResponse (pasid i code : Nat) (s : State) : State :=
  match mapGet s.xlat.pages i with
  | none => bump 0x5200 0x1B s
  | some p =>
    if p.pasid ≠ pasid then bump 0x5200 0x1B s
    else if code = 0 then
      let s := missWait p.pasid (p.vpage * 4096) true p.waiters (modXlat (fun x => { x with pages := mapErase x.pages i }) s)
      endPage i s
    else if code = 15 then stopPages (bump 0x5200 0x1A s)
    else failAll p.waiters fXlate (p.vpage * 4096) (endPage i (bump 0x5200 0x19 s))

/-- PAGE_REQUEST_TIMEOUT (R344). -/
def pageTimeout (i : Nat) (s : State) : State :=
  match mapGet s.xlat.pages i with
  | none => s
  | some p => failAll p.waiters fXlate (p.vpage * 4096) (endPage i s)

/-! ### Invalidation (R346–R348) -/

/-- The uses of the array's commands at the resident BEP that an invalidation waits for. -/
def arrayUse : Use → Bool
  | .agent => false
  | .fill _ _ _ => true
  | .value _ _ => true
  | .cacheWrite _ _ => true
  | .posted _ => true
  | .copyRead _ => true
  | .copyWrite _ => true
  | .poll _ => true
  | .writeBack _ => false
  | .fence => false

/-- Every command that the array has outstanding at the resident BEP, with what it serves. -/
def arrayCommands (s : State) : List (Use × BepCommand) :=
  (s.ep.reqs.map (fun r => (r.2.use, r.2.cmd)) ++ s.ep.waiting.map (fun c => (c.use, c.cmd)) ++
    s.ep.recover.flatMap (fun x => x.2.1.map (fun r => (r.use, r.cmd)))).filter (fun c => arrayUse c.1)

/-- An entry overlaps a range of bytes in a PASID (none: every PASID). -/
def entryIn (pasid : Option Nat) (base n : Nat) (e : XEntry) : Bool :=
  pasid.getD e.pasid == e.pasid && rangesMeet (e.vpage * 4096) (2 ^ e.log2) base n

/-- Write-backs of a cache address bytes by line, so they belong to the PASID as a whole. -/
def useIn (pasid : Option Nat) (base n : Nat) (c : Use × BepCommand) : Bool :=
  pasid.getD c.2.pasid.toNat == c.2.pasid.toNat && (match c.1 with
    | .cacheWrite _ _ => true
    | .agent => false
    | .fill _ _ _ => rangesMeet c.2.addr.toNat 1 base n
    | .value _ _ => rangesMeet c.2.addr.toNat 1 base n
    | .posted _ => rangesMeet c.2.addr.toNat 1 base n
    | .copyRead _ => rangesMeet c.2.addr.toNat 1 base n
    | .copyWrite _ => rangesMeet c.2.addr.toNat 1 base n
    | .poll _ => rangesMeet c.2.addr.toNat 1 base n
    | .writeBack _ => false
    | .fence => false)

/-- The dirty lines that name a context of the PASID. -/
def dirtyOf (s : State) (pasid : Option Nat) : List Nat :=
  (s.cmp.cache.filter (fun e => e.2.dirty != 0 && (List.range 4).any (fun j =>
    e.2.mask.toNat.testBit j && (let p := ctxPasid (ctxAt s (keyCore e.1 * 4 + j)); pasid.getD p == p)))).map (fun e => e.1)

/-- Accept an invalidation: overlapping entries go, requests outstanding for its pages become stale, the dirty lines of
the PASID are written back, and the snapshot is taken. -/
def acceptInval (itag : Nat) (host : Bool) (pasid : Option Nat) (base n : Nat) (s : State) : State :=
  let s := modXlat (fun x =>
    let gone := (x.entries.filter (fun e => entryIn pasid base n e.2)).map (fun e => e.1)
    { x with
      entries := x.entries.filter (fun e => !gone.contains e.1), lru := x.lru.filter (fun j => !gone.contains j),
      reqs := x.reqs.map (fun r =>
        if r.sent && pasid.getD r.pasid == r.pasid && rangesMeet (r.vpage * 4096) 4096 base n then { r with stale := true } else r) }) s
  let s := (dirtyOf s pasid).foldl (fun s k => writeBackLine k s) s
  let uses := ((arrayCommands s).filter (useIn pasid base n)).map (fun c => c.2.id)
  bump 0x5200 0x17 (modXlat (fun x => { x with
    invals := x.invals ++ [{ itag := itag, host := host, since := s.time.ft, uses := uses }] }) s)

/-- Every use in a snapshot has ended. -/
def drained (s : State) (v : Inval) : Bool := v.uses.all (fun i => !(arrayCommands s).any (fun c => c.2.id == i))

/-- An invalidation ends. -/
def endInval (v : Inval) (s : State) : State :=
  let s := bump 0x5200 0x18 (modXlat (fun x => { x with
    invals := x.invals.erase v, longest := max x.longest (s.time.ft - v.since) }) s)
  if v.host then emit (.invalidateCompletion v.itag) s else s

/-- Invalidations of the GV24's own end when they have drained; one that waits at the function is accepted. -/
def settleInvals (s : State) : State :=
  let s := (s.xlat.invals.filter (fun v => !v.host && drained s v)).foldl (fun s v => endInval v s) s
  match s.xlat.waiting with
  | [] => s
  | (itag, p, base, n) :: r =>
    if s.xlat.invals.length < 32 then acceptInval itag true p base n (modXlat (fun x => { x with waiting := r }) s) else s

/-- ATS_INVALIDATE (R346). -/
def atsInvalidate (itag : Nat) (pasid : Option Nat) (global : Bool) (base log2 : Nat) (s : State) : State :=
  let p := if global then none else pasid
  let b := base / 2 ^ log2 * 2 ^ log2
  if s.xlat.invals.length < 32 then acceptInval itag true p b (2 ^ log2) s
  else modXlat (fun x => { x with waiting := x.waiting ++ [(itag, p, b, 2 ^ log2)] }) s

/-- INVALIDATE_COMPLETION (R347): sent once the snapshot has drained. -/
def invalidateCompletion (itag : Nat) (s : State) : State :=
  settleInvals (match s.xlat.invals.find? (fun v => v.host && v.itag == itag) with
    | some v => if drained s v then endInval v s else s
    | none => s)

/-- Invalidate every entry of every PASID (R348, R370). -/
def invalidateEvery (s : State) : State := settleInvals (acceptInval 0 false none 0 (2 ^ 64) s)

/-- INVALIDATE_ALL (R348). -/
def invalidateAll (src : Route) (v : Nat) (s : State) : State := invalidateEvery (onlyOne src 0x5200 5 v (beginOp s))

/-- Before regions close, the local-form entries that overlap them are invalidated as if by the host (R348). -/
def closeEntries (regions : List (Nat × Nat)) (s : State) : State :=
  let hit := s.xlat.entries.filter (fun e => isLocalForm (e.2.ppage * 4096) &&
    regions.any (fun r => rangesMeet (e.2.ppage * 4096 % 2 ^ 48) (2 ^ e.2.log2) r.1 r.2))
  hit.foldl (fun s e => settleInvals (acceptInval 0 false (some e.2.pasid) (e.2.vpage * 4096) (2 ^ e.2.log2) s)) s

/-- A write of OD 3500.01: before the directory region closes, its entries are invalidated (R218, R348). -/
def directoryWrite (src : Route) (v : Nat) (s : State) : State :=
  if v = 0 then directoryDisable s
  else directoryEnable src v (if dirEnabled s then s else closeEntries [(dirBase s, 2 * gib)] s)

/-! ### Read-back (R337, R351) -/

/-- OD 5200.02. -/
def xlatStatus (x : Xlat) : Nat := flag x.ats 0 + flag x.pasidOn 1 + flag x.pri 2 + flag x.stopped 3

/-- A word of the selected entry, 0–2. -/
def xlatWord (s : State) (n : Nat) : Nat :=
  match mapGet s.xlat.entries (odGet s 0x5201 1 % 16384) with
  | none => 0
  | some e =>
    if n = 0 then
      2 ^ 63 + (if e.log2 = 30 then 2 else if e.log2 = 21 then 1 else 0) * 2 ^ 61 + flag e.r 60 + flag e.w 59 + flag e.a 58
        + flag e.c 57 + e.vpage % 2 ^ 52
    else if n = 1 then e.ppage % 2 ^ 52
    else e.pasid

/-! ### Meanings -/

/-- ATS_COMPLETION (R342). -/
def execAtsCompletion (pasid : BitVec 20) (vpage : BitVec 52) (result : AtsResult) (s : State) :
    Host.Outcome State Fault Refusal := .next (atsCompletion pasid.toNat vpage.toNat result s)

/-- ATS_COMPLETION_TIMEOUT (R342). -/
def execAtsCompletionTimeout (pasid : BitVec 20) (vpage : BitVec 52) (s : State) : Host.Outcome State Fault Refusal :=
  .next (atsTimeout pasid.toNat vpage.toNat s)

/-- PAGE_RESPONSE (R344). -/
def execPageResponse (pasid : BitVec 20) (index : Nat) (code : BitVec 4) (s : State) : Host.Outcome State Fault Refusal :=
  .next (pageResponse pasid.toNat index code.toNat s)

/-- PAGE_REQUEST_TIMEOUT (R344). -/
def execPageRequestTimeout (index : Nat) (s : State) : Host.Outcome State Fault Refusal := .next (pageTimeout index s)

/-- PRI_RESET (R343, R344): indices are free again, and page requests are sent again. -/
def execPriReset (s : State) : Host.Outcome State Fault Refusal :=
  .next (modXlat (fun x => { x with stopped := false }) (stopPages s))

/-- ATS_ENABLE_CLEAR (R344). -/
def execAtsEnableClear (s : State) : Host.Outcome State Fault Refusal := .next (modXlat (fun x => { x with ats := false }) s)

/-- PRI_ENABLE_CLEAR (R344). -/
def execPriEnableClear (s : State) : Host.Outcome State Fault Refusal :=
  .next (stopPages (modXlat (fun x => { x with pri := false }) s))

/-- ATS_INVALIDATE (R346). -/
def execAtsInvalidate (itag : BitVec 5) (pasid : Option (BitVec 20)) (global : Bool) (base : BitVec 64) (log2 : Nat) (s : State) :
    Host.Outcome State Fault Refusal :=
  .next (atsInvalidate itag.toNat (pasid.map (fun p => p.toNat)) global base.toNat (min 64 log2) s)

/-- INVALIDATE_COMPLETION (R347). -/
def execInvalidateCompletion (itag : BitVec 5) (s : State) : Host.Outcome State Fault Refusal :=
  .next (invalidateCompletion itag.toNat s)

/-- INVALIDATE_ALL (R348). -/
def execInvalidateAll (src : Route) (v : BitVec 8) (s : State) : Host.Outcome State Fault Refusal :=
  .next (invalidateAll src v.toNat s)

/-- DIRECTORY_ENABLE (R218). -/
def execDirectoryEnable (src : Route) (v : BitVec 8) (s : State) : Host.Outcome State Fault Refusal :=
  .next (directoryWrite src v.toNat s)

/-- DIRECTORY_DISABLE (R218): the write of 0. -/
def execDirectoryDisable (src : Route) (v : BitVec 8) (s : State) : Host.Outcome State Fault Refusal :=
  .next (directoryWrite src v.toNat s)

end Sys2Proof.Machine
end

