-- ==== Sys2Proof/Machine/Access.lean ====
section
/-!
DEFINITION. Memory accesses of streams (R248–R251, R264, R268–R273): scratchpad, local and fabric memory, release and
acquire, and barriers. An access that must wait leaves its instruction to be issued again from its start.
-/

namespace Sys2Proof.Machine

open Sys2Proof

/-! ### Scratchpad (R248, R252) -/

/-- First byte of a context's partition, as a key of the scratchpad bytes. -/
def spBase (k : Nat) (c : Ctx) : Nat := k / 4 * 2 ^ 20 + descField c 24 2 * 4096

/-- Bytes of a context's partition. -/
def spSize (c : Ctx) : Nat := descField c 26 2 * 4096

/-- Bytes of the scratchpads. -/
def spGet (s : State) (a n : Nat) : Bytes := (List.range n).map (fun i => mapGetD s.cmp.sp (a + i) 0)

/-- Write bytes of a scratchpad; a byte 0 is not listed. -/
def spPut (a : Nat) (b : Bytes) (s : State) : State :=
  { s with cmp := { s.cmp with sp := (b.zipIdx).foldl (fun m e =>
      if e.1 = 0 then mapErase m (a + e.2) else mapSet m (a + e.2) e.1) s.cmp.sp } }

/-- s[A] + IMM, modulo 2^64. -/
def baseAddr (x : Stream) (f : IFields) (w : Nat) : Nat := ((sReg x f.a).toNat + f.imm.toNat % 2 ^ w) % 2 ^ 64

/-- The element addresses of the active lanes of a vector form. -/
def vectorAddrs (x : Stream) (f : IFields) (w : Nat) : List (Nat × Nat) :=
  (lanesOn x f).map (fun i => (i, (baseAddr x f w + 4 * i) % 2 ^ 64))

/-- The element addresses s[A] + v[B] of a gather or scatter. -/
def gatherAddrs (x : Stream) (f : IFields) : List (Nat × Nat) :=
  (lanesOn x f).map (fun i => (i, ((sReg x f.a).toNat + vLane x f.b i) % 2 ^ 64))

/-- The alignment of an access: the base of a vector form, each element of a gather. -/
def misaligned (l : List (Nat × Nat)) : Option Nat := (l.find? (fun e => decide (e.2 % 4 ≠ 0))).map (fun e => e.2)

/-- A scratchpad access by 4-byte elements: ALIGN and SP_RANGE, then its effect. -/
def spAccess (w : StreamId) (f : IFields) (addrs : Stream → List (Nat × Nat)) (g : Nat → List (Nat × Nat) → Stream → State → State)
    (s : State) : State :=
  issue w (decide (f.imm.toNat < 2 ^ 20)) (fun k c x s =>
    let l := addrs x
    match misaligned l with
    | some a => ctxFault k fAlign a s
    | none =>
      match l.find? (fun e => decide (spSize c < e.2 + 4)) with
      | some e => ctxFault k fSpRange e.2 s
      | none => modStream k w.eng.val nextPc (g k (l.map (fun e => (e.1, spBase k c + e.2))) x s)) s

/-- Load elements into v[D]. -/
def spLoad (e : Nat) (f : IFields) (k : Nat) (l : List (Nat × Nat)) (x : Stream) (s : State) : State :=
  modStream k e (fun _ => setLanes f f.d (fun i => match l.find? (fun q => q.1 == i) with
    | some q => leNat (spGet s q.2 4)
    | none => 0) x) s

/-- Store the lanes of a register. -/
def spStore (r : BitVec 5) (l : List (Nat × Nat)) (x : Stream) (s : State) : State :=
  l.foldl (fun s q => spPut q.2 (natLe 4 (vLane x r q.1)) s) s

/-- SPM_LD (R264). -/
def execSpmLd (w : StreamId) (f : IFields) (s : State) : Host.Outcome State Fault Refusal :=
  .next (spAccess w f (fun x => vectorAddrs x f 20) (spLoad w.eng.val f) s)

/-- SPM_ST (R264): v[B] (assumption 19). -/
def execSpmSt (w : StreamId) (f : IFields) (s : State) : Host.Outcome State Fault Refusal :=
  .next (spAccess w f (fun x => vectorAddrs x f 20) (fun _ l x s => spStore f.b l x s) s)

/-- SPM_LDB (R264): one element goes to every active lane. -/
def execSpmLdb (w : StreamId) (f : IFields) (s : State) : Host.Outcome State Fault Refusal :=
  .next (spAccess w f (fun x => (lanesOn x f).map (fun i => (i, baseAddr x f 20))) (spLoad w.eng.val f) s)

/-- SPM_LDG (R264). -/
def execSpmLdg (w : StreamId) (f : IFields) (s : State) : Host.Outcome State Fault Refusal :=
  .next (spAccess w f (fun x => gatherAddrs x f) (spLoad w.eng.val f) s)

/-- SPM_STG (R264): v[C] (assumption 19). -/
def execSpmStg (w : StreamId) (f : IFields) (s : State) : Host.Outcome State Fault Refusal :=
  .next (spAccess w f (fun x => gatherAddrs x f) (fun _ l x s => spStore f.c l x s) s)

/-! ### Local and fabric memory: places of lines -/

/-- SPACE of a MEM instruction (R264). -/
def memSpace (f : IFields) : Nat := bits f.imm.toNat 24 2

/-- Its scope. -/
def memScope (f : IFields) : Nat := bits f.imm.toNat 21 3

/-- Space 1 or 2. -/
def memLegal (f : IFields) : Bool := memSpace f == 1 || memSpace f == 2

/-- The number of a translated line in a core's cache: an offset's line in LM, an address's in FM. -/
def lineNo (space addr : Nat) : Nat := if space = 1 then addr % 2 ^ 48 / 128 else addr / 128

/-- Translate the lines of an access, each once; none where it must wait or has faulted. -/
def locate (w : StreamId) (k space need : Nat) (lines : List Nat) (s : State) : Option (List (Nat × Nat)) × State :=
  let c := ctxAt s k
  lines.foldl (fun (a : Option (List (Nat × Nat)) × State) l =>
    match a.1 with
    | none => a
    | some got =>
      let r := translate (.stream k w.eng.val) space need (ctxPasid c) (128 * l) a.2
      match r.1 with
      | .ok addr => (some (got ++ [(l, addr)]), r.2)
      | .stall => (none, r.2)
      | .fault code => (none, ctxFault k code (128 * l) r.2)) (some [], s)

/-- The translated address of a byte, from the lines' places. -/
def placed (l : List (Nat × Nat)) (va : Nat) : Nat :=
  match l.find? (fun e => e.1 == va / 128) with
  | some e => e.2 + va % 128
  | none => 0

/-- The lines that bytes of an access lie in, each once. -/
def linesOf (addrs : List Nat) : List Nat := (addrs.map (fun a => a / 128)).dedup

/-- The fault of a refused access to local memory (R361, R362, R274). -/
def refusalFault (code : Nat) : Nat := if code = 3 then fFabricErr else fSpace

/-- Read a line of local memory at the controller for a context; none where it has faulted. -/
def lmRead (k line : Nat) (s : State) : Option Bytes × State :=
  let t := (ctxAt s k).tenant
  match memRefusal s t line with
  | some (code, detail) => (none, ctxFault k (refusalFault code) (128 * line) (countRefusal detail s))
  | none =>
    let r := readLine line t s
    match r.1 with
    | some b => (some b, r.2)
    | none => (none, ctxFault k fMemErr (128 * line) r.2)

/-- Write a line of local memory at the controller for a context; false where it has faulted. -/
def lmWrite (k line mask : Nat) (b : Bytes) (s : State) : Bool × State :=
  let t := (ctxAt s k).tenant
  match memRefusal s t line with
  | some (code, detail) => (false, ctxFault k (refusalFault code) (128 * line) (countRefusal detail s))
  | none =>
    let r := writeLine line mask b t s
    if r.1 then (true, r.2) else (false, ctxFault k fMemErr (128 * line) r.2)

/-- Bytes `[i, i + n)` of a line as a mask. -/
def byteMask (i n : Nat) : Nat := (2 ^ n - 1) * 2 ^ i

/-- A line of the cache holds the bytes of a mask. -/
def lineHolds (s : State) (key mask : Nat) : Bool :=
  match cacheLine s key with
  | some l => l.valid || (l.dirty.toNat &&& mask) == mask
  | none => false

/-- A command to the resident BEP for a context. -/
def ctxCommand (s : State) (k : Nat) (op : BepOp) (va scope : Nat) : BepCommand where
  op := op
  pasid := BitVec.ofNat 20 (ctxPasid (ctxAt s k))
  addr := BitVec.ofNat 64 va
  tenant := some (BitVec.ofNat 4 (ctxAt s k).tenant)
  scope := BitVec.ofNat 3 scope

/-- Fetch a line into the core cache: at once from local memory, by a request from the fabric. -/
def fetchLine (w : StreamId) (k space va addr : Nat) (s : State) : State :=
  let key := cacheKey w.core.val space (lineNo space addr)
  let pasid := ctxPasid (ctxAt s k)
  if space = 1 then
    let r := lmRead k (lineNo 1 addr) s
    match r.1 with
    | some b => installLine key pasid b r.2
    | none => r.2
  else
    arraySubmit (.fill k w.eng.val key) (ctxCommand s k .ld va 0) (addr / 128 * 128)
      (modStream k w.eng.val (fun x => { x with wait := .fabric }) s)

/-- Bring the lines of a load into the cache: true once every one holds its bytes. -/
def fetchAll (w : StreamId) (k space : Nat) (l : List (Nat × Nat)) (mask : Nat → Nat) (s : State) : Bool × State :=
  l.foldl (fun (a : Bool × State) e =>
    if a.1 then
      let key := cacheKey w.core.val space (lineNo space e.2)
      if lineHolds a.2 key (mask e.1) then a
      else
        let s := fetchLine w k space (128 * e.1) e.2 a.2
        (lineHolds s key (mask e.1), s)
    else a) (true, s)

/-- The bytes of a line that an access touches. -/
def touched (addrs : List Nat) (n line : Nat) : Nat :=
  addrs.foldl (fun m a => if a / 128 = line then m ||| byteMask (a % 128) n else m) 0

/-- Write bytes into the core cache, dirty for the context (R251). -/
def cacheWriteBytes (core space k pasid addr : Nat) (b : Bytes) (s : State) : State :=
  let key := cacheKey core space (lineNo space addr)
  let s := match cacheLine s key with
    | some _ => s
    | none => setCache key { bytes := List.replicate 128 0, valid := false } (makeRoom key s)
  match cacheLine s key with
  | some l => setCache key { l with
      bytes := splice l.bytes (addr % 128) b, dirty := l.dirty ||| BitVec.ofNat 128 (byteMask (addr % 128) b.length),
      mask := l.mask ||| BitVec.ofNat 4 (2 ^ (k % 4)), pasid := pasid } s
  | none => s

/-- A byte run of the core cache. -/
def cacheBytes (s : State) (core space addr n : Nat) : Bytes :=
  match cacheLine s (cacheKey core space (lineNo space addr)) with
  | some l => slice l.bytes (addr % 128) n
  | none => List.replicate n 0

/-! ### Loads and stores through the core cache (R264, R268) -/

/-- Alignment, then the lines' places, for 4-byte elements of LM or FM. -/
def memAccess (w : StreamId) (f : IFields) (need : Nat) (addrs : Stream → List (Nat × Nat))
    (g : Nat → Stream → List (Nat × Nat) → List (Nat × Nat) → State → State) (s : State) : State :=
  issue w (memLegal f) (fun k _ x s =>
    let l := addrs x
    match misaligned l with
    | some a => ctxFault k fAlign a s
    | none =>
      let r := locate w k (memSpace f) need (linesOf (l.map (fun e => e.2))) s
      match r.1 with
      | none => r.2
      | some p => g k x l p r.2) s

/-- A load: the lines come into the cache, then the elements go to v[D]. -/
def memLoad (w : StreamId) (f : IFields) (addrs : Stream → List (Nat × Nat)) (s : State) : State :=
  memAccess w f 1 addrs (fun k x l p s =>
    let sp := memSpace f
    let r := fetchAll w k sp p (touched (l.map (fun e => e.2)) 4) s
    if r.1 then
      modStream k w.eng.val (fun _ => nextPc (setLanes f f.d (fun i => match l.find? (fun q => q.1 == i) with
        | some q => leNat (cacheBytes r.2 w.core.val sp (placed p q.2) 4)
        | none => 0) x)) r.2
    else r.2) s

/-- The first refusal of an access to lines of local memory. -/
def lmDenied (s : State) (k space : Nat) (p : List (Nat × Nat)) : Option (Nat × Nat × Nat) :=
  if space = 1 then
    p.findSome? (fun e => (memRefusal s (ctxAt s k).tenant (lineNo 1 e.2)).map (fun q => (q.1, q.2, 128 * e.1)))
  else none

/-- A store: elements of a register go into the cache. -/
def memStore (w : StreamId) (f : IFields) (r : BitVec 5) (addrs : Stream → List (Nat × Nat)) (s : State) : State :=
  memAccess w f 2 addrs (fun k x l p s =>
    let sp := memSpace f
    match lmDenied s k sp p with
    | some (code, detail, a) => ctxFault k (refusalFault code) a (countRefusal detail s)
    | none =>
      let pasid := ctxPasid (ctxAt s k)
      modStream k w.eng.val nextPc
        (l.foldl (fun s q => cacheWriteBytes w.core.val sp k pasid (placed p q.2) (natLe 4 (vLane x r q.1)) s) s)) s

/-- MEM_LD (R264, R268). -/
def execMemLd (w : StreamId) (f : IFields) (s : State) : Host.Outcome State Fault Refusal :=
  .next (memLoad w f (fun x => vectorAddrs x f 21) s)

/-- MEM_LDG (R264). -/
def execMemLdg (w : StreamId) (f : IFields) (s : State) : Host.Outcome State Fault Refusal :=
  .next (memLoad w f (fun x => gatherAddrs x f) s)

/-- MEM_ST (R264, R268): v[B] (assumption 19). -/
def execMemSt (w : StreamId) (f : IFields) (s : State) : Host.Outcome State Fault Refusal :=
  .next (memStore w f f.b (fun x => vectorAddrs x f 21) s)

/-- MEM_STG (R264): v[C] (assumption 19). -/
def execMemStg (w : StreamId) (f : IFields) (s : State) : Host.Outcome State Fault Refusal :=
  .next (memStore w f f.c (fun x => gatherAddrs x f) s)

/-! ### Accesses at the point of coherence (R271) -/

/-- Flush the lines of an access from the core's cache: their dirty bytes are written back, and no copy is left. -/
def flushPlaces (core space : Nat) (p : List (Nat × Nat)) (s : State) : State :=
  p.foldl (fun s e => flushLine (cacheKey core space (lineNo space e.2)) s) s

/-- Read lines at the point of coherence: from local memory at once; from the fabric one by one, the answers gathering in
the stream. None while they are not all there, or where the context has faulted. -/
def coherentRead (w : StreamId) (k : Nat) (op : BepOp) (space scope : Nat) (p : List (Nat × Nat)) (s : State) : Option Bytes × State :=
  let s := flushPlaces w.core.val space p s
  if space = 1 then
    p.foldl (fun (a : Option Bytes × State) e =>
      match a.1 with
      | none => a
      | some b =>
        let r := lmRead k (lineNo 1 e.2) a.2
        (r.1.map (fun d => b ++ d), r.2)) (some [], s)
  else
    let got := ((streamOf (ctxAt s k) w.eng.val).got).getD []
    match p[got.length / 128]? with
    | none => (some got, modStream k w.eng.val (fun x => { x with got := none }) s)
    | some e =>
      (none, arraySubmit (.value k w.eng.val) (ctxCommand s k op (128 * e.1) scope) (e.2 / 128 * 128)
        (modStream k w.eng.val (fun x => { x with wait := .fabric }) s))

/-- A byte run among lines read. -/
def readBytes (p : List (Nat × Nat)) (b : Bytes) (va n : Nat) : Bytes :=
  slice b (128 * (p.findIdx (fun e => e.1 == va / 128)) + va % 128) n

/-- MEM_LDV (R271). -/
def execMemLdv (w : StreamId) (f : IFields) (s : State) : Host.Outcome State Fault Refusal :=
  .next (memAccess w f 1 (fun x => vectorAddrs x f 21) (fun k x l p s =>
    let r := coherentRead w k .ldv (memSpace f) 0 p s
    match r.1 with
    | none => r.2
    | some b => modStream k w.eng.val (fun _ => nextPc { setLanes f f.d (fun i => match l.find? (fun q => q.1 == i) with
        | some q => leNat (readBytes p b q.2 4)
        | none => 0) x with got := none }) r.2) s)

/-- Write bytes of one line through to the point of coherence; false where the context has faulted. -/
def coherentWrite (k : Nat) (op : BepOp) (space scope line addr mask : Nat) (b : Bytes) (s : State) : Bool × State :=
  if space = 1 then lmWrite k (lineNo 1 addr) mask b s
  else
    let cmd := ctxCommand s k op (128 * line) scope
    (true, arraySubmit (.posted k) { cmd with payload := natLe 16 mask ++ b } (addr / 128 * 128) s)

/-- MEM_STV (R271): v[B] (assumption 19). -/
def execMemStv (w : StreamId) (f : IFields) (s : State) : Host.Outcome State Fault Refusal :=
  .next (memAccess w f 2 (fun x => vectorAddrs x f 21) (fun k x l p s =>
    let sp := memSpace f
    let s := flushPlaces w.core.val sp p s
    let r := p.foldl (fun (a : Bool × State) e =>
      if a.1 then
        let here := l.filter (fun q => q.2 / 128 == e.1)
        let line := here.foldl (fun b q => splice b (q.2 % 128) (natLe 4 (vLane x f.b q.1))) (List.replicate 128 0)
        coherentWrite k .stm sp 0 e.1 e.2 (touched (here.map (fun q => q.2)) 4 e.1) line a.2
      else a) (true, s)
    if r.1 then modStream k w.eng.val nextPc r.2 else r.2) s)

/-! ### Release and acquire (R268–R270) -/

/-- The agent that an engine is (R166, R247). -/
def engineAgent (s : State) (k e : Nat) : Agent := { coord := coord s 31, engine := some (k / 4 / 8, k / 4 % 8, e) }

/-- Writes of a context that have not been acknowledged. -/
def writesOut (s : State) (k : Nat) : Bool :=
  (arrayCommands s).any (fun c => match c.1 with
    | .cacheWrite core mask => core == k / 4 && mask.testBit (k % 4)
    | .posted j => j == k
    | .copyWrite j => j == k
    | .agent => false
    | .fill _ _ _ => false
    | .value _ _ => false
    | .copyRead _ => false
    | .poll _ => false
    | .writeBack _ => false
    | .fence => false)

/-- Write back every line whose mask holds the context. -/
def writeBackCtx (k : Nat) (s : State) : State :=
  (coreLines s (k / 4) (fun e => e.2.mask.toNat.testBit (k % 4))).foldl (fun s j => writeBackLine j s) s

/-- The first steps of a release at a scope: from cluster scope on, the context's lines are written back and its writes
acknowledged. False while they are not. -/
def releaseSteps (k scope : Nat) (s : State) : Bool × State :=
  if scope < 2 then (true, s)
  else
    let s := writeBackCtx k s
    (!writesOut s k, s)

/-- What an acquire at a scope does afterwards: partly dirty lines are written back and invalidated, clean ones too. -/
def acquireSteps (core scope : Nat) (s : State) : State :=
  if scope < 2 then s
  else (coreLines s core (fun e => e.2.dirty != BitVec.allOnes 128)).foldl (fun s j => flushLine j s) s

/-- The one 8-byte word of `lda`, `stl` and `stf`: scope 0–5, 8-byte alignment, its place. -/
def wordAccess (w : StreamId) (f : IFields) (need : Nat) (checkScope : Bool)
    (g : Nat → Stream → Nat → List (Nat × Nat) → State → State) (s : State) : State :=
  issue w (memLegal f && (!checkScope || decide (memScope f ≤ 5))) (fun k _ x s =>
    let va := baseAddr x f 21
    if va % 8 ≠ 0 then ctxFault k fAlign va s
    else
      let r := locate w k (memSpace f) need [va / 128] s
      match r.1 with
      | none => r.2
      | some p => g k x va p r.2) s

/-- MEM_LDA (R269, R270). -/
def execMemLda (w : StreamId) (f : IFields) (s : State) : Host.Outcome State Fault Refusal :=
  let sp := memSpace f
  let sc := memScope f
  .next (wordAccess w f 1 true (fun k _ va p s =>
    let r := coherentRead w k .lda sp sc p s
    match r.1 with
    | none => r.2
    | some b =>
      let a := if sp = 1 then checkAcquire (placed p va % 2 ^ 48 / 128) sc (ctxAt s k).tenant (engineAgent s k w.eng.val) r.2 else (false, r.2)
      let s := modStream k w.eng.val (fun x => nextPc (setS f.d (BitVec.ofNat 64 (leNat (readBytes p b va 8))) { x with got := none })) a.2
      let s := acquireSteps w.core.val sc s
      if a.1 then ctxScope k va s else s) s)

/-- A release store of s[B] at its point of coherence. -/
def releaseStore (w : StreamId) (f : IFields) (op : BepOp) (sc : Nat) (k : Nat) (x : Stream) (va : Nat) (p : List (Nat × Nat))
    (s : State) : State :=
  let sp := memSpace f
  let r := releaseSteps k sc s
  if r.1 then
    let s := flushPlaces w.core.val sp p r.2
    let addr := placed p va
    let line := splice (List.replicate 128 0) (va % 128) (natLe 8 (sReg x f.b).toNat)
    let r := coherentWrite k op sp sc (va / 128) addr (byteMask (va % 128) 8) line s
    if r.1 then
      let s := if sp = 1 then recordRelease (lineNo 1 addr) sc (engineAgent s k w.eng.val) r.2 else r.2
      modStream k w.eng.val nextPc s
    else r.2
  else r.2

/-- MEM_STL (R269). -/
def execMemStl (w : StreamId) (f : IFields) (s : State) : Host.Outcome State Fault Refusal :=
  .next (wordAccess w f 2 true (fun k x va p s => releaseStore w f .stl (memScope f) k x va p s) s)

/-- MEM_STF (R269): fabric memory only, a release at fabric scope. -/
def execMemStf (w : StreamId) (f : IFields) (s : State) : Host.Outcome State Fault Refusal :=
  if memSpace f = 1 then .next (issue w true (fun k _ x s => ctxFault k fSpace (baseAddr x f 21) s) s)
  else .next (wordAccess w f 2 false (fun k x va p s => releaseStore w f .stf 5 k x va p s) s)

/-- A release or acquire without an access: a space and a scope that exist. -/
def fenceLegal (f : IFields) : Bool := memLegal f && decide (memScope f ≤ 5)

/-- MEM_REL (R269). -/
def execMemRel (w : StreamId) (f : IFields) (s : State) : Host.Outcome State Fault Refusal :=
  .next (issue w (fenceLegal f) (fun k _ _ s =>
    let r := releaseSteps k (memScope f) s
    if r.1 then modStream k w.eng.val nextPc r.2 else r.2) s)

/-- MEM_ACQ (R269). -/
def execMemAcq (w : StreamId) (f : IFields) (s : State) : Host.Outcome State Fault Refusal :=
  .next (issue w (fenceLegal f) (fun k _ _ s =>
    modStream k w.eng.val nextPc (acquireSteps w.core.val (memScope f) s)) s)

/-! ### Atomics (R264) -/

/-- AUX of an `at` by its TYPE and kind, without FETCH; none is ILLEGAL (assumption 20). -/
def atAux (f : IFields) : Option Nat :=
  let sub := f.c.toNat
  if sub = 1 then
    (if f.ty = 2 then some 1 else if f.ty = 3 then some 8 else if f.ty = 4 then some 16 else none)
  else if sub ≤ 8 then (if f.ty = 0 then some 5 else if f.ty = 1 then some 1 else none)
  else none

/-- The cell that describes an `at` (R102): operand s[B], and s[D] as the compare value of a compare-and-swap. -/
def atRequest (s : State) (f : IFields) (x : Stream) (k aux addr : Nat) : Cell where
  addr := BitVec.ofNat 64 addr
  op := opAT
  tenant := BitVec.ofNat 4 (ctxAt s k).tenant
  sub := f.c.extractLsb' 0 4
  aux := BitVec.ofNat 32 (aux + (if f.d = 0 then 0 else 256))
  payload := natLe 8 ((sReg x f.b).toNat % 2 ^ (8 * atWidth (BitVec.ofNat 32 aux))) ++
    (if f.c = 5 then natLe 8 ((sReg x f.d).toNat % 2 ^ (8 * atWidth (BitVec.ofNat 32 aux))) else [])

/-- An `at` in local memory: at the controller, at one instant; the previous value, where it has not faulted. -/
def lmAtomic (k : Nat) (c : Cell) (s : State) : Option Nat × State :=
  let r := lmRead k (cellOff c / 128) s
  match r.1 with
  | none => (none, r.2)
  | some b =>
    let a := atomicOn c b s r.2
    (some a.1, a.2)

/-- MEM_AT (R264, R268). -/
def execMemAt (w : StreamId) (f : IFields) (s : State) : Host.Outcome State Fault Refusal :=
  let sp := memSpace f
  .next (issue w (memLegal f && (atAux f).isSome) (fun k _ x s =>
    let aux := (atAux f).getD 1
    let va := baseAddr x f 21
    if va % atWidth (BitVec.ofNat 32 aux) ≠ 0 then ctxFault k fAlign va s
    else
      let r := locate w k sp (4 + flag (f.d != 0) 0) [va / 128] s
      match r.1 with
      | none => r.2
      | some p =>
        let s := flushPlaces w.core.val sp p r.2
        let c := atRequest s f x k aux (placed p va)
        let finish (v : Nat) (s : State) : State :=
          modStream k w.eng.val (fun x => nextPc (setS f.d (BitVec.ofNat 64 v) { x with got := none })) s
        if sp = 1 then
          let a := lmAtomic k c s
          match a.1 with
          | some v => finish v a.2
          | none => a.2
        else
          let cmd : BepCommand := { ctxCommand s k .at va 0 with sub := c.sub, aux := c.aux, payload := c.payload }
          match x.got with
          | some d => finish (fieldAt d 0 (atWidth c.aux)) s
          | none =>
            if f.d = 0 then finish 0 (arraySubmit (.posted k) cmd (placed p va) s)
            else arraySubmit (.value k w.eng.val) cmd (placed p va) (modStream k w.eng.val (fun x => { x with wait := .fabric }) s)) s)

/-! ### Barriers (R273) -/

/-- The streams of a context. -/
def streamNos (c : Ctx) : List Nat := indices 4 (fun e => (ctxStreams c).testBit e)

/-- Let the streams of a context that wait at a barrier go on. -/
def passBarrier (k : Nat) (s : State) : State :=
  (streamNos (ctxAt s k)).foldl (fun s e =>
    progress (.stream k e) (modStream k e (fun x => { x with wait := .none }) s)) s

/-- BAR_C (R273): it completes when every stream of the context has reached it. -/
def execBarC (w : StreamId) (f : IFields) (s : State) : Host.Outcome State Fault Refusal :=
  .next (issue w (f.imm.toNat % 2 ^ 21 == 0 && f.imm.toNat / 2 ^ 24 == 0) (fun k c _ s =>
    let s := modStream k w.eng.val (fun x => nextPc { x with wait := .barC }) s
    if (streamNos c).all (fun e => (streamOf (ctxAt s k) e).wait == .barC) then passBarrier k s else s) s)

/-- GANG_SIZE. -/
def gangSize (c : Ctx) : Nat := descField c 34 1

/-- The contexts of a gang. -/
def gangOf (s : State) (g : Nat) : List (Nat × Ctx) := (liveSlots s).filter (fun e => ctxGang e.2 == g)

/-- Every stream of every context of the gang has reached its barrier. -/
def gangThere (s : State) (g size : Nat) : Bool :=
  (gangOf s g).length == size && (gangOf s g).all (fun e => (streamNos e.2).all (fun j => atGang (streamOf e.2 j)))

/-- The scope at which a stream waits at a gang barrier. -/
def gangScope (x : Stream) : Nat :=
  match x.wait with
  | .barG sc => sc
  | .none => 0
  | .barC => 0
  | .copy _ => 0
  | .xlate => 0
  | .fabric => 0
  | .sysEnd => 0

/-- The barrier completes: every stream goes on, after an acquire at its scope. -/
def passGang (g : Nat) (s : State) : State :=
  (gangOf s g).foldl (fun s e =>
    let sc := (streamNos e.2).foldl (fun m j => max m (gangScope (streamOf e.2 j))) 0
    passBarrier e.1 (acquireSteps (e.1 / 4) sc s)) s

/-- BAR_G (R273): scope core, cluster or die, in a context with a gang. -/
def execBarG (w : StreamId) (f : IFields) (s : State) : Host.Outcome State Fault Refusal :=
  let sc := memScope f
  let k := ctxKey w.core w.slot
  let legal := decide (1 ≤ sc) && decide (sc ≤ 3) && f.imm.toNat % 2 ^ 21 == 0 && f.imm.toNat / 2 ^ 24 == 0 && ctxGang (ctxAt s k) != 0
  .next (issue w legal (fun k c _ s =>
    if c.gangLost then ctxFault k fGangLost 0 s
    else
      let r := releaseSteps k sc s
      if r.1 then
        let s := modStream k w.eng.val (fun x => nextPc { x with wait := .barG sc }) r.2
        if gangThere s (ctxGang c) (gangSize c) then passGang (ctxGang c) s else s
      else r.2) s)

end Sys2Proof.Machine
end

