-- ==== Sys2Proof/Machine/Calendar.lean ====
section
/-!
DEFINITION. The calendar (R224–R246): the image loader and its checks, arming and switching, slot buffers and
acceptance, and the lookups that the auctioneer uses.
-/

namespace Sys2Proof.Machine

open Sys2Proof

/-! ### Slot entries (R225) -/

def eKind (w : Nat) : Nat := bits w 62 2
def eInput (w : Nat) : Nat := bits w 57 5
def eTenant (w : Nat) : Nat := bits w 53 4
def eSbuf (w : Nat) : Nat := bits w 43 10
def eWindow (w : Nat) : Nat := bits w 24 16
def eChunk (w : Nat) : Nat := bits w 4 20
def eCell (w : Nat) : Nat := bits w 0 4

/-- Reserved bits [42:40]. -/
def eRsv (w : Nat) : Nat := bits w 40 3

/-- The entry without its reserved bits. -/
def eClear (w : Nat) : Nat := w - eRsv w * 2 ^ 40

/-! ### Banks (R224, R239) -/

/-- Change the calendar unit. -/
def modCal (f : Calendar → Calendar) (s : State) : State := { s with cal := f s.cal }

/-- The ACTIVE bank's number. -/
def activeNo (s : State) : Option Nat :=
  if s.cal.bank0.state = .active then some 0 else if s.cal.bank1.state = .active then some 1 else none

/-- A bank. -/
def calBank (s : State) (b : Nat) : CalBank := if b = 0 then s.cal.bank0 else s.cal.bank1

/-- Change a bank. -/
def modBankCal (b : Nat) (f : CalBank → CalBank) : State → State :=
  modCal (fun c => if b = 0 then { c with bank0 := f c.bank0 } else { c with bank1 := f c.bank1 })

/-- The idle bank: the one that is not ACTIVE, or bank 0. -/
def idleNo (s : State) : Nat := if activeNo s = some 0 then 1 else 0

/-- Reserved entries of the ACTIVE bank. -/
def activeSlots (s : State) : NMap Slot :=
  match activeNo s with
  | some b => (calBank s b).slots
  | none => []

/-- Weights of the open-slot arbitration in force (R232, R239). -/
def weightsNow (s : State) : List Nat :=
  match activeNo s with
  | some b => (calBank s b).weights
  | none => [1, 1, 1, 1]

/-- The rotation entry in force at a tick: the common code without an ACTIVE bank (R232, R239). -/
def rotationNow (s : State) (ft : Nat) : Nat :=
  match activeNo s with
  | some b => (calBank s b).rot.getD (ft % 64) 16
  | none => 16

/-- The entry of output `o` at a tick (R226). -/
def calEntry (s : State) (o ft : Nat) : Option Nat :=
  match activeNo s with
  | some b => (mapGet (calBank s b).slots (o * 65536 + ft % (calBank s b).round)).map (fun e => e.word.toNat)
  | none => none

/-- Output `o` has a half-width section in the ACTIVE bank. -/
def halfSection (s : State) (o : Nat) : Bool :=
  match activeNo s with
  | some b => (calBank s b).half.contains o
  | none => false

/-! ### The loader: header (R234, R236, R237) -/

/-- CRC-64 over bytes `[i, i + n)` of an image. -/
def imageCrc (b : Bytes) (i n : Nat) : Nat := (crc64 (slice b i n)).toNat

/-- The first header field that fails among those that have arrived, as LOAD_ERROR codes it (R245). -/
def headerError (s : State) (b : Bytes) : Nat :=
  let n := b.length
  if 4 ≤ n ∧ fieldAt b 0 4 ≠ 0x4C434B53 then 1
  else if 5 ≤ n ∧ fieldAt b 4 1 ≠ 1 then 2
  else if 7 ≤ n ∧ odGet s 0x4100 2 < fieldAt b 6 1 then 3
  else if 8 ≤ n ∧ (fieldAt b 7 1 < 10 ∨ 16 < fieldAt b 7 1) then 6
  else if 12 ≤ n ∧ fieldAt b 10 2 ≠ 128 then 5
  else if 16 ≤ n ∧ fieldAt b 12 4 < 128 then 5
  else if 128 ≤ n ∧ fieldAt b 120 8 ≠ imageCrc b 0 120 then 4
  else 0

/-- Where the sections that have arrived start, and the end of the last; none where one passes TOTAL_LEN. -/
def walkSections (b : Bytes) (total : Nat) : Nat → Nat → List Nat → Option (List Nat × Nat × Bool)
  | 0, pos, l => some (l, pos, true)
  | k + 1, pos, l =>
    if total < pos + 16 then none
    else if b.length < pos + 8 then some (l, pos, false)
    else
      let next := pos + 16 + 16 * fieldAt b (pos + 4) 4
      if total < next then none else walkSections b total k next (l ++ [pos])

/-- LOAD_ERROR of an image as far as it has arrived (R237). -/
def imageError (s : State) (b : Bytes) : Nat :=
  let e := headerError s b
  let total := fieldAt b 12 4
  if e ≠ 0 then e
  else if b.length < 128 then 0
  else match walkSections b total (fieldAt b 8 1) 128 [] with
    | none => 5
    | some (_, pos, whole) =>
      if whole = true ∧ pos ≠ total then 5 else if total < b.length then 7 else 0

/-- A refusal: the bank returns to EMPTY. -/
def refuseLoad (code : Nat) (s : State) : State :=
  refuseRule (modCal (fun c => { c with loadError := code }) (modBankCal (idleNo s) (fun _ => {}) s))

/-- CALENDAR_BEGIN_LOAD (R240). -/
def calendarBegin (src : Route) (v : Nat) (s : State) : State :=
  let b := idleNo s
  if (calBank s b).state = .armed then refuseRule s
  else
    onlyOne src 0x4101 1 v (modCal (fun c => { c with
      loadError := 0, sectRefused := 0, image := [], stored := 0, clamped := 0, epRecs := 0 })
      (modBankCal b (fun _ => { state := .loading }) s))

/-- CALENDAR_DATA_WRITE (R237). -/
def calendarData (data : Bytes) (s : State) : State :=
  let image := s.cal.image ++ data
  if (calBank s (idleNo s)).state ≠ .loading then refuseRule s
  else
    let e := imageError s image
    if e ≠ 0 then refuseLoad e s else modCal (fun c => { c with image := image }) s

/-! ### The loader: sections and records (R235, R238) -/

/-- What the seal has gathered: the stored entries, the records already counted as clamped, and the counts. -/
structure Sealing where
  slots : NMap Slot := []
  touched : List Nat := []
  clampedRecs : Nat := 0
  epRecs : Nat := 0
  refused : Nat := 0
  half : List Nat := []

/-- PLACE of a record, of a section header field and of an image header field (R404). -/
def recordPlace (output tick : Nat) : Nat := output * 2 ^ 24 + tick
def sectionPlace (output off : Nat) : Nat := output * 2 ^ 24 + 2 ^ 16 + off
def headerPlace (off : Nat) : Nat := 0xFF020000 + off

/-- Is a section refused? The field that fails, as its offset and value. -/
def sectionFails (b : Bytes) (pos : Nat) (prev : Option Nat) : Option (Nat × Nat) :=
  let o := fieldAt b pos 1
  let n := fieldAt b (pos + 4) 4
  let low := match prev with
    | some p => decide (o ≤ p)
    | none => false
  if 24 < o ∨ low = true then some (0, o)
  else if fieldAt b (pos + 8) 8 ≠ imageCrc b (pos + 16) (16 * n) then some (8, fieldAt b (pos + 8) 8)
  else none

/-- The width in force of a section: a WIDTH that is not legal is 1. -/
def sectionWidth (b : Bytes) (pos : Nat) : Nat :=
  let w := fieldAt b (pos + 1) 1
  if w = 2 ∧ fieldAt b pos 1 ≠ 24 then 2 else 1

/-- The outputs whose accepted sections are marked half width. -/
def halfOutputs (b : Bytes) : List Nat → Option Nat → List Nat
  | [], _ => []
  | pos :: r, prev =>
    let rest := halfOutputs b r (some (fieldAt b pos 1))
    if (sectionFails b pos prev).isNone && sectionWidth b pos == 2 then fieldAt b pos 1 :: rest else rest

/-- Role of an output's port; none for output 24. -/
def outputRole (s : State) (o : Nat) : Option Nat := if h : o < 24 then some (role s ⟨o, h⟩) else none

/-- The least `(T − ARRIVE) mod R` of an entry whose input is a port (R228). -/
def guardOf (s : State) (half : List Nat) (input : Nat) : Nat :=
  (if half.contains input then 115 else 114) + (if outputRole s input = some 3 then 4 else 0)

/-- What the record checks decide (R238). -/
inductive RecordFate where
  | dropped | openSlot | endPoint | stored
  deriving DecidableEq, Repr

/-- The record checks after TICK and reserved fields, in the table's order. -/
def recordFate (s : State) (half : List Nat) (round o width tick arrive w : Nat) : RecordFate :=
  let input := eInput w
  if eKind w = 0 ∨ eKind w = 3 then .openSlot
  else if tick = 0 ∨ tick % 128 = 127 then .openSlot
  else if width = 2 ∧ tick % 2 = 1 then .openSlot
  else if (25 ≤ input ∧ input ≤ 30) ∨ input = o ∨ eWindow w = 0 then .openSlot
  else if input = 31 ∧ outputRole s o ≠ some 1 then .dropped
  else if eKind w = 1 ∧ input ≤ 24 ∧ outputRole s o = some 1 then .openSlot
  else if input < 24 ∧ (tick + round - arrive % round) % round < guardOf s half input then .openSlot
  else if input = 31 then .endPoint
  else .stored

/-- One record of a section of output `o`. `last` is the TICK of the last record that was not dropped. -/
def sealRecord (src : Route) (b : Bytes) (half : List Nat) (round o width pos : Nat) (a : State × Sealing × Option Nat) :
    State × Sealing × Option Nat :=
  let (s, g, last) := a
  let tick := fieldAt b pos 2
  let arrive := fieldAt b (pos + 2) 2
  let word := fieldAt b (pos + 8) 8
  let place := recordPlace o tick
  let low := match last with
    | some l => decide (tick ≤ l)
    | none => false
  if round ≤ tick ∨ low = true then
    (noted src 0x4101 2 place 2 word s, { g with clampedRecs := g.clampedRecs + 1 }, last)
  else
    let w := eClear word
    let dirty := fieldAt b (pos + 4) 4 ≠ 0 ∨ w ≠ word
    let s := if dirty then clamped src 0x4101 2 place word w s else s
    let key := o * 65536 + tick
    let counted := { g with clampedRecs := g.clampedRecs + 1, touched := key :: g.touched }
    let g := if dirty then counted else g
    match recordFate s half round o width tick arrive w with
    | .dropped =>
      (noted src 0x4101 2 place 2 w s, if dirty then { g with touched := g.touched.drop 1 } else { g with clampedRecs := g.clampedRecs + 1 }, last)
    | .openSlot =>
      if w = 0 then (s, g, some tick)
      else (clamped src 0x4101 2 place w 0 s, if dirty then g else counted, some tick)
    | .endPoint => (s, { g with epRecs := g.epRecs + 1 }, some tick)
    | .stored => (s, { g with slots := mapSet g.slots key { word := BitVec.ofNat 64 w, arrive := arrive } }, some tick)

/-- One section. -/
def sealSection (src : Route) (b : Bytes) (half : List Nat) (round pos : Nat) (prev : Option Nat) (a : State × Sealing) :
    State × Sealing :=
  let (s, g) := a
  let o := fieldAt b pos 1
  match sectionFails b pos prev with
  | some (off, v) => (noted src 0x4101 2 (sectionPlace o off) 3 v s, { g with refused := g.refused + 1 })
  | none =>
    let width := sectionWidth b pos
    let s := if fieldAt b (pos + 1) 1 = width then s
      else clamped src 0x4101 2 (sectionPlace o 1) (fieldAt b (pos + 1) 1) width s
    let s := if fieldAt b (pos + 2) 2 = 0 then s else clamped src 0x4101 2 (sectionPlace o 2) (fieldAt b (pos + 2) 2) 0 s
    let g := if width = 2 then { g with half := g.half ++ [o] } else g
    let r := (List.range (fieldAt b (pos + 4) 4)).foldl
      (fun a k => sealRecord src b half round o width (pos + 16 + 16 * k) a) (s, g, none)
    (r.1, r.2.1)

/-- All sections, in order. -/
def sealSections (src : Route) (b : Bytes) (half : List Nat) (round : Nat) : List Nat → Option Nat → State × Sealing → State × Sealing
  | [], _, a => a
  | pos :: r, prev, a =>
    sealSections src b half round r (some (fieldAt b pos 1)) (sealSection src b half round pos prev a)

/-! ### The loader: seal checks (R238) -/

/-- A stored entry becomes open: reported, and its record counted once. -/
def sealOpen (src : Route) (key : Nat) (e : Slot) (a : State × Sealing) : State × Sealing :=
  let g := { a.2 with slots := mapErase a.2.slots key }
  let g := if g.touched.contains key then g
    else { g with clampedRecs := g.clampedRecs + 1, touched := key :: g.touched }
  (clamped src 0x4101 2 (recordPlace (key / 65536) (key % 65536)) e.word.toNat 0 a.1, g)

/-- One seal check: entries in the order of output and then TICK; `bad` sees the entry and those before it. -/
def sealCheck (src : Route) (bad : NMap Slot → Nat → Slot → Bool) (a : State × Sealing) : State × Sealing :=
  (a.2.slots.foldl (fun (acc : (State × Sealing) × NMap Slot) e =>
    if bad acc.2 e.1 e.2 then (sealOpen src e.1 e.2 acc.1, acc.2) else (acc.1, acc.2 ++ [e])) (a, [])).1

/-- The two entries name one buffer. -/
def sameBuffer (a b : Nat) : Bool := eInput a == eInput b && eSbuf a == eSbuf b

/-- The fields on which entries of one buffer must agree. -/
def sameCell (a b : Slot) : Bool :=
  let x := a.word.toNat
  let y := b.word.toNat
  eKind x == eKind y && eTenant x == eTenant y && eWindow x == eWindow y && eChunk x == eChunk y && eCell x == eCell y
    && a.arrive == b.arrive

/-- Differs from the first entry that names its buffer. -/
def badBuffer (before : NMap Slot) (_ : Nat) (e : Slot) : Bool :=
  match before.find? (fun x => sameBuffer x.2.word.toNat e.word.toNat) with
  | some x => !sameCell x.2 e
  | none => false

/-- Outside the acceptance window's bounds. -/
def badWindow (round : Nat) (_ : NMap Slot) (key : Nat) (e : Slot) : Bool :=
  let d := (key % 65536 + 2 * round + 16 - e.arrive % round) % round
  decide (eInput e.word.toNat < 24) && !(decide (1 ≤ d) && decide (d + 16 ≤ round))

/-- Another TENANT than the first entry of its WINDOW. -/
def badTenant (before : NMap Slot) (_ : Nat) (e : Slot) : Bool :=
  match before.find? (fun x => eWindow x.2.word.toNat == eWindow e.word.toNat) with
  | some x => eTenant x.2.word.toNat != eTenant e.word.toNat
  | none => false

/-- A third distinct buffer of one input at one TICK. -/
def badReads (before : NMap Slot) (key : Nat) (e : Slot) : Bool :=
  let there := (before.filter (fun x => x.1 % 65536 == key % 65536 && eInput x.2.word.toNat == eInput e.word.toNat)).map
    (fun x => eSbuf x.2.word.toNat)
  !there.contains (eSbuf e.word.toNat) && decide (2 ≤ there.eraseDups.length)

/-! ### The loader: the seal (R237, R240) -/

/-- The open-slot part of the header: weights and rotation, with their clamps (R237). -/
def sealHeader (src : Route) (b : Bytes) (s : State) : State × List Nat × List Nat :=
  let ws := (List.range 4).map (fun k => fieldAt b (24 + k) 1)
  let rs := (List.range 64).map (fun k => fieldAt b (32 + k) 1)
  let rsv := [(9, 1), (28, 4), (96, 8), (104, 8), (112, 8)]
  let s := rsv.foldl (fun s i =>
    if fieldAt b i.1 i.2 = 0 then s else clamped src 0x4101 2 (headerPlace i.1) (fieldAt b i.1 i.2) 0 s) s
  let s := (List.range 4).foldl (fun s k => if ws.getD k 1 = 0 then clamped src 0x4101 2 (headerPlace (24 + k)) 0 1 s else s) s
  let s := (List.range 64).foldl (fun s k =>
    if 16 < rs.getD k 0 then clamped src 0x4101 2 (headerPlace (32 + k)) (rs.getD k 0) 16 s else s) s
  let rot := rs.map (fun r => min r 16)
  if rot.contains 16 then (s, ws.map (max 1), rot)
  else (clamped src 0x4101 2 (headerPlace 95) (rot.getD 63 0) 16 s, ws.map (max 1), rot.set 63 16)

/-- CALENDAR_SEAL (R238, R240). -/
def calendarSeal (src : Route) (v : Nat) (s : State) : State :=
  let no := idleNo s
  let b := s.cal.image
  if (calBank s no).state ≠ .loading then refuseRule s
  else if b.length < 128 ∨ b.length < fieldAt b 12 4 then refuseLoad 8 s
  else
    let s := onlyOne src 0x4101 3 v s
    let round := 2 ^ fieldAt b 7 1
    let places := ((walkSections b (fieldAt b 12 4) (fieldAt b 8 1) 128 []).map (fun x => x.1)).getD []
    let (s, ws, rot) := sealHeader src b s
    let a := sealSections src b (halfOutputs b places none) round places none (s, {})
    let a := sealCheck src badReads (sealCheck src badTenant (sealCheck src (badWindow round) (sealCheck src badBuffer a)))
    let g := a.2
    let s := modBankCal no (fun _ => {
      state := .sealed, round := round, imageId := BitVec.ofNat 64 (fieldAt b 16 8), weights := ws, rot := rot, half := g.half,
      slots := g.slots, image := b }) a.1
    modCal (fun c => { c with stored := g.slots.length, clamped := g.clampedRecs, epRecs := g.epRecs, sectRefused := min 255 g.refused }) s

/-! ### Arming and switching (R240, R241) -/

/-- CALENDAR_ARM. -/
def calendarArm (src : Route) (v : Nat) (s : State) : State :=
  let no := idleNo s
  let b := calBank s no
  let s := modCal (fun c => { c with roundConflict := false }) s
  if b.state = .armed ∧ v = 0 then odSet 0x4100 5 0 (modBankCal no (fun b => { b with state := .sealed }) s)
  else if b.state ≠ .sealed then refuseRule s
  else
    let kept := armTick s.time.ft b.round v
    let s := keepArm src 0x4100 5 v kept s
    if kept = 0 then s else modBankCal no (fun b => { b with state := .armed }) s

/-- Cells that wait in slot buffers are discarded and counted at their inputs (R241, R246). -/
def releaseSlots (s : State) : State :=
  let held := s.cal.sbufs.filter (fun e => e.2.cell.isSome && !e.2.fired)
  let s := held.foldl (fun s e => bump (0x4110 + e.1 / 4096) 6 s) s
  modCal (fun c => { c with sbufs := [] }) s

/-- CALENDAR_BANK_SWITCH: a round change armed for the same tick takes effect first. -/
def calendarSwitch (s : State) : State :=
  let no := idleNo s
  let b := calBank s no
  if b.state ≠ .armed then s
  else
    let tick := odGet s 0x4100 5
    let s := odSet 0x4100 5 0 (advanceTo tick s)
    let s := if odGet s 0x4000 5 = tick then odSet 0x4000 5 0 (modTime (fun t => { t with round := t.armedRound }) s) else s
    if s.time.round ≠ b.round then
      raiseCause 3 (log 0x4101 [b.round, s.time.round]
        (modCal (fun c => { c with roundConflict := true }) (modBankCal no (fun b => { b with state := .sealed }) s)))
    else
      let s := releaseSlots s
      let s := match activeNo s with
        | some a => modBankCal a (fun b => { b with state := .sealed }) s
        | none => s
      raiseCause 3 (modCal (fun c => { c with dsets := [], stopped := [] }) (modBankCal no (fun b => { b with state := .active }) s))

/-! ### Slot buffers (R227) -/

/-- Key of a slot buffer. -/
def sbufKey (input sbuf : Nat) : Nat := input * 4096 + sbuf

/-- A slot buffer. -/
def sbufAt (s : State) (input sbuf : Nat) : SlotBuf := mapGetD s.cal.sbufs (sbufKey input sbuf) {}

/-- Hold a slot buffer. -/
def setSbuf (input sbuf : Nat) (b : SlotBuf) : State → State :=
  modCal (fun c => { c with sbufs := if b.cell.isNone then mapErase c.sbufs (sbufKey input sbuf) else mapSet c.sbufs (sbufKey input sbuf) b })

/-- Entries of the ACTIVE bank that name a buffer, with their outputs and ticks. -/
def entriesOf (s : State) (input sbuf : Nat) : NMap Slot :=
  (activeSlots s).filter (fun e => eInput e.2.word.toNat == input && eSbuf e.2.word.toNat == sbuf)

/-- The range of a CHUNK and the SUB of an `RS` in it (R304); none in a reserved range. -/
def chunkSub (chunk : Nat) : Option Nat :=
  if chunk ≤ 0x3FFFF then some 0
  else if chunk ≤ 0xBFFFF then some 2
  else if chunk ≤ 0xC03FF then some 3
  else if chunk = 0xFFFFF then some 1
  else none

/-- The CHUNK by which a scheduled cell finds its entry: an `ERR` travels by the verdict entries (R316). -/
def travelChunk (c : Cell) : Nat := if c.op = opERR then 0xFFFFF else c.chunk.toNat

/-- The entry that an arriving VC9 or VC10 cell matches: its buffer and planned arrival (R227). -/
def slotFor (s : State) (input : Nat) (c : Cell) : Option Slot :=
  ((activeSlots s).find? (fun e =>
    let w := e.2.word.toNat
    eInput w == input && eKind w == (if c.vc = 9 then 1 else 2) && eWindow w == c.window.toNat && eChunk w == travelChunk c
      && eCell w == c.cell.toNat)).map (fun e => e.2)

/-- The extra tick of a half-width link. -/
def halfTick (s : State) (p : PortN) : Nat := if halfWidth (s.port p) then 1 else 0

/-- Does the cell arrive within the acceptance window of its buffer (R227)? FT at the command is its arrival. -/
def inWindow (s : State) (p : PortN) (e : Slot) : Bool :=
  let r := s.time.round
  let a := e.arrive % r
  let first := ((entriesOf s p.val (eSbuf e.word.toNat)).map (fun x => (x.1 % 65536 + r - a) % r)).foldl min r
  let x := (s.time.ft + 16 + r - a) % r
  decide (x + 114 + halfTick s p ≤ first + 16)

/-- Count a scheduled cell discarded on arrival (R246). -/
def countSlotDrop (input : Nat) (s : State) : State := bump (0x4110 + input) 5 s

/-- One reference of a buffer is released, `fired` where its entry has sent it (R227). -/
def releaseRef (input sbuf : Nat) (sent : Bool) (s : State) : State :=
  let b := sbufAt s input sbuf
  if b.cell.isNone then s
  else
    let b := { b with ref := b.ref - 1, fired := b.fired || sent }
    if b.ref = 0 then
      let s := if b.fired then s else bump (0x4110 + input) 6 s
      setSbuf input sbuf { b with cell := none } s
    else setSbuf input sbuf b s

/-! ### Isolation mode (R231) -/

/-- ISOLATION_MODE_WRITE: R357 refuses isolated mode on the interleaved map. -/
def isolationWrite (src : Route) (v : Nat) (s : State) : State :=
  if !secure src then endOp 4 0x06010000 s
  else if assigned s ∨ (min v 1 = 1 ∧ s.mem.coloured = false) then refuseRule s
  else keepScalar src 0x4100 3 8 v (min v 1) s

/-! ### Status entries (R244, R245) -/

/-- Code of a bank state (R239). -/
def calCode : CalState → Nat
  | .empty => 0
  | .loading => 1
  | .sealed => 2
  | .armed => 3
  | .active => 4

/-- OD 4100.06. -/
def calendarStatus (s : State) : Nat :=
  s.cal.loadError * 2 ^ 20 + flag s.cal.roundConflict 19 + flag (isolated s) 18 + calCode s.cal.bank1.state * 2 ^ 12
    + calCode s.cal.bank0.state * 2 ^ 8 + s.cal.sectRefused

/-- OD 4102.02: the slot entry that the selector names. -/
def readBack (s : State) : Nat :=
  let v := odGet s 0x4102 1
  ((mapGet (calBank s (bits v 31 1)).slots (bits v 16 5 * 65536 + bits v 0 16)).map (fun e => e.word.toNat)).getD 0

/-- OD 4102.01: reserved bits clamp to 0 (R5), and an output above 24 to 24. -/
def selectorWrite (src : Route) (v : Nat) (s : State) : State :=
  let a := clampField 21 10 0 (v, [])
  let a := clampField 16 5 (min 24 (bits v 16 5)) a
  reportClamps src 0x4102 1 a.2 (odSet 0x4102 1 a.1 s)

/-! ### Meanings -/

/-- ISOLATION_MODE_WRITE (R231). -/
def execIsolationModeWrite (src : Route) (v : BitVec 8) (s : State) : Host.Outcome State Fault Refusal :=
  .next (isolationWrite src v.toNat (beginOp s))

/-- CALENDAR_BEGIN_LOAD (R240). -/
def execCalendarBeginLoad (src : Route) (v : BitVec 8) (s : State) : Host.Outcome State Fault Refusal :=
  .next (calendarBegin src v.toNat (beginOp s))

/-- CALENDAR_DATA_WRITE (R237): the records that a load makes carry the SOURCE of the seal write. -/
def execCalendarDataWrite (_src : Route) (data : Bytes) (s : State) : Host.Outcome State Fault Refusal :=
  .next (calendarData data (beginOp s))

/-- CALENDAR_SEAL (R238). -/
def execCalendarSeal (src : Route) (v : BitVec 8) (s : State) : Host.Outcome State Fault Refusal :=
  .next (calendarSeal src v.toNat (beginOp s))

/-- CALENDAR_ARM (R240). -/
def execCalendarArm (src : Route) (v : BitVec 64) (s : State) : Host.Outcome State Fault Refusal :=
  .next (calendarArm src v.toNat (beginOp s))

/-- CALENDAR_BANK_SWITCH (R241). -/
def execCalendarBankSwitch (s : State) : Host.Outcome State Fault Refusal := .next (calendarSwitch s)

end Sys2Proof.Machine
end

