-- ==== Sys2Proof/Machine/Groups.lean ====
section
/-!
DEFINITION. Grids and groups (R307, R308): the members of a group in rank order, and the loss of a member (R321).
-/

namespace Sys2Proof.Machine

open Sys2Proof

/-! ### Fields of a window descriptor (R309) -/

def dWindow (d : Bytes) : Nat := fieldAt d 0 2
def dOp (d : Bytes) : Nat := fieldAt d 2 1
def dFlags (d : Bytes) : Nat := fieldAt d 3 1
def dTenant (d : Bytes) : Nat := fieldAt d 4 1
def dIn (d : Bytes) : Nat := fieldAt d 5 1
def dOut (d : Bytes) : Nat := fieldAt d 6 1
def dRed (d : Bytes) : Nat := fieldAt d 7 1
def dFirst (d : Bytes) : Nat := fieldAt d 8 4
def dSteps (d : Bytes) : Nat := fieldAt d 12 4
def dStart (d : Bytes) : Nat := fieldAt d 16 8
def dCommit (d : Bytes) : Nat := fieldAt d 24 2
def dFanin (d : Bytes) : Nat := fieldAt d 26 2
def dObase (d : Bytes) : Nat := fieldAt d 28 2
def dOcells (d : Bytes) : Nat := fieldAt d 30 2
def dGrid (d : Bytes) : Nat := fieldAt d 32 1
def dAxes (d : Bytes) : Nat := fieldAt d 33 1
def dBlocks (d : Bytes) : Nat := fieldAt d 34 2
def dAnchor (d : Bytes) : Nat := fieldAt d 36 4
def dParam (d : Bytes) : Bytes := slice d 40 16

/-! ### Grids -/

/-- The sizes of the axes of grid `i` (R307). -/
def gridSizes (s : State) (i : Nat) : List Nat := (List.range 4).map (fun a => bits (odGet s 0x5101 (i + 1)) (16 * a) 16)

/-- Its point count. -/
def gridPoints (s : State) (i : Nat) : Nat := (gridSizes s i).foldl (· * ·) 1

/-- Its map. -/
def gridMap (s : State) (i : Nat) : Bytes := mapGetD s.coll.maps i []

/-- The coordinate of a point; FFFFh where it is empty. -/
def gridAt (s : State) (i idx : Nat) : Nat :=
  let m := gridMap s i
  if 2 * idx + 2 ≤ m.length ∧ idx < gridPoints s i then fieldAt m (2 * idx) 2 else 0xFFFF

/-- The place of point `idx` on each axis. -/
def gridPlace : List Nat → Nat → List Nat
  | [], _ => []
  | z :: r, idx => (idx % max 1 z) :: gridPlace r (idx / max 1 z)

/-- Does point `x` meet the two conditions of R308 with the anchor `y`? -/
def samePart (axes blocks : Nat) (x y : List Nat) : Bool :=
  (List.range 4).all (fun a =>
    let u := x.getD a 0
    let v := y.getD a 0
    if bit axes a then
      let b := bits blocks (4 * a) 4
      b == 15 || u / 2 ^ b == v / 2 ^ b
    else u == v)

/-- The coordinates of a group's members, in rank order (R308). -/
def groupMembers (s : State) (d : Bytes) : List Nat :=
  let i := dGrid d
  let sizes := gridSizes s i
  let y := gridPlace sizes (dAnchor d)
  ((List.range (min (gridPoints s i) ((gridMap s i).length / 2))).filter (fun k =>
    gridAt s i k != 0xFFFF && samePart (dAxes d) (dBlocks d) (gridPlace sizes k) y)).map (gridAt s i)

/-- The rank of a coordinate. -/
def rankOf (l : List Nat) (c : Nat) : Option Nat := l.findIdx? (· == c)

/-- A window slot holds a binding. -/
def winBound (w : Win) : Bool := w.state == 1 || w.state == 2

/-- A member, or a GV24 with members, of an instance has been lost (R321): later steps fail from the next commit tick. -/
def markLost (lost : Nat → Bool) (s : State) : State :=
  { s with coll := { s.coll with wins := s.coll.wins.map (fun e =>
      if winBound e.2 && (groupMembers s e.2.desc).any lost then (e.1, { e.2 with lostNow := true }) else e) } }

/-- The end-point of coordinate `c` has been lost. -/
def markLostAt (c : BitVec 16) (s : State) : State := markLost (fun m => m == c.toNat) s

end Sys2Proof.Machine
end

