-- ==== Sys2Proof/Machine/Collect.lean ====
section
/-!
DEFINITION. Collectives at the GV24 (R303–R324, R331–R333): binding, steps and step records, reduction, compaction,
selection and embedding bags, the chunk check, verdicts, the commit tick and the result record.
-/

namespace Sys2Proof.Machine

open Sys2Proof

/-! ### Window slots -/

/-- Change the collective state. -/
def modColl (f : Coll → Coll) (s : State) : State := { s with coll := f s.coll }

/-- Window slot `i`. -/
def winAt (s : State) (i : Nat) : Win := mapGetD s.coll.wins i {}

/-- Hold a window slot. -/
def setWin (i : Nat) (w : Win) : State → State := modColl (fun c => { c with wins := mapSet c.wins i w })

/-- Change a window slot. -/
def modWin (i : Nat) (f : Win → Win) (s : State) : State := setWin i (f (winAt s i)) s

/-- The slot that a WINDOW number is bound in, state 1 or 2. -/
def slotOf (s : State) (window : Nat) : Option (Nat × Win) :=
  s.coll.wins.find? (fun e => winBound e.2 && dWindow e.2.desc == window)

/-- A WINDOW held by any slot that is not free (R311, R511). -/
def windowHeld (s : State) (window : Nat) : Bool :=
  s.coll.wins.any (fun e => e.2.state != 0 && dWindow e.2.desc == window)

/-- Departure-store cells that bound windows hold: OD 5100.03 is the rest. -/
def departureHeld (s : State) : Nat :=
  (s.coll.wins.filter (fun e => winBound e.2)).foldl (fun n e => n + dOcells e.2.desc) 0

/-- Windows bound: OD 5100.02. -/
def windowsBound (s : State) : Nat := (s.coll.wins.filter (fun e => winBound e.2)).length

/-! ### The step record (R315–R317) -/

/-- The lower nonzero code of two causes. -/
def lowerCause (a b : Nat) : Nat := if a = 0 then b else if b = 0 then a else min a b

/-- The lower-ranked of two members. -/
def lowerFirst : Option (Nat × Nat) → Option (Nat × Nat) → Option (Nat × Nat)
  | none, y => y
  | x, none => x
  | some a, some b => if b.1 < a.1 then some b else some a

/-- The lower of two chunks. -/
def lowerChunk : Option Nat → Option Nat → Option Nat
  | none, y => y
  | x, none => x
  | some a, some b => some (min a b)

/-- Merge two verdicts (R317). -/
def mergeRec (a b : StepRec) : StepRec where
  failed := a.failed || b.failed
  cause := lowerCause a.cause b.cause
  absent := min 65535 (a.absent + b.absent)
  first := lowerFirst a.first b.first
  poison := lowerChunk a.poison b.poison
  dropped := min 0xFFFFFFFF (a.dropped + b.dropped)

/-- The late part of a record after what the up-verdict carried (R316). -/
def latePart (now carried : StepRec) : StepRec :=
  { now with absent := now.absent - carried.absent, dropped := now.dropped - carried.dropped }

/-- The line of a `DAT` verdict (R317). -/
def verdictLine (step : Nat) (r : StepRec) : Bytes :=
  padTo 128 (natLe 4 step ++ natLe 1 (flag r.failed 0) ++ natLe 1 r.cause ++ natLe 2 r.absent
    ++ natLe 2 ((r.first.map (fun x => x.2)).getD 0xFFFF) ++ natLe 2 0 ++ natLe 4 (r.poison.getD 0xFFFFFFFF) ++ natLe 4 r.dropped)

/-- The verdict that a line holds; ranks come from the group. -/
def readVerdict (members : List Nat) (b : Bytes) : StepRec :=
  let f := fieldAt b 8 2
  let p := fieldAt b 12 4
  { failed := fieldAt b 4 1 != 0, cause := fieldAt b 5 1, absent := fieldAt b 6 2,
    first := if f = 0xFFFF then none else some ((rankOf members f).getD 65535, f),
    poison := if p = 0xFFFFFFFF then none else some p, dropped := fieldAt b 16 4 }

/-- Record a failure of the running step (R315). A chunk is given where it is poisoned. -/
def failStep (i cause : Nat) (chunk : Option Nat) (s : State) : State :=
  let w := winAt s i
  if w.running.isNone then s
  else
    let r := w.stepRec
    setWin i { w with
      stepRec := { r with failed := true, cause := if r.failed then r.cause else cause, poison := lowerChunk r.poison chunk },
      uncarried := w.uncarried || w.carried.isSome, failedAfter := w.failedAfter || w.verdict.isSome } s

/-- A member is absent (R320): counted once a step, by rank. -/
def memberAbsent (i member : Nat) (s : State) : State :=
  let w := winAt s i
  match rankOf (groupMembers s w.desc) member with
  | some rank =>
    let s := failStep i 1 none s
    if w.running.isNone || w.absentNow.contains rank then s
    else
      modWin i (fun w => { w with
        absentNow := w.absentNow ++ [rank],
        stepRec := { w.stepRec with absent := min 65535 (w.stepRec.absent + 1), first := lowerFirst w.stepRec.first (some (rank, member)) } })
        (bump 0x5100 0x14 s)
  | none => failStep i 1 none s

/-! ### Binding (R310–R312, R511) -/

/-- Accumulators that a descriptor needs (R312). -/
def accumulatorsNeeded (d : Bytes) : Nat :=
  let n := dOcells d - 1
  if dOp d = 7 then
    let b := match fmtOf (bits (dOut d) 0 3) (bits (dOut d) 3 2) with
      | some f => f.bits
      | none => 32
    n * ((2048 + b - 1) / b)
  else if (dOp d = 1 ∨ dOp d = 2 ∨ dOp d = 8) ∧ dRed d = 0 ∧ 0 < dFanin d then
    n * (if dIn d = 0 ∨ dIn d = 2 then 64 else 128)
  else 0

/-- PARAM bytes, counted from descriptor byte 40, that an operation uses. -/
def paramUsed (op : Nat) : Nat :=
  if op = 5 then 10 else if op = 6 then 2 else if op = 7 then 3 else if op = 8 then 5 else if op = 9 then 2 else 0

/-- Reserved bits or unused bytes that are not 0: where they stand (code 1). -/
def reservedPlace (d : Bytes) : Option Nat :=
  let used := paramUsed (dOp d)
  if 8 ≤ dFlags d then some 3
  else if 16 ≤ dTenant d then some 4
  else if 32 ≤ dOut d then some 6
  else if 16 ≤ dAxes d then some 33
  else ((List.range 16).find? (fun k => (decide (used ≤ k) || (dOp d == 5 && k == 7)) && fieldAt d (40 + k) 1 != 0)).map (· + 40)

/-- A TYPE that R309 names for contributions. -/
def inType (t : Nat) : Bool := t == 0 || t == 2 || t == 3 || t == 4

/-- An OUT_FMT of a type 3, 4 or MX, with a narrow code only for TYPE 7. -/
def outType (lo d : Nat) : Bool :=
  let t := bits d 0 3
  decide (lo ≤ t) && (t == 7 || bits d 3 2 == 0) && (t != 7 || bits d 3 2 != 3)

/-- The first field outside R310: where it stands (code 2). -/
def badField (d : Bytes) : Option Nat :=
  let op := dOp d
  let inOk := if op = 6 then dIn d == 2 else if op = 8 then dIn d == 2 || dIn d == 3 || dIn d == 4
    else if op = 1 ∨ op = 2 then inType (dIn d) else true
  let outOk := if op = 1 ∨ op = 2 then dOut d == dIn d else if op = 7 then outType 2 (dOut d)
    else if op = 8 ∨ op = 9 then outType 3 (dOut d) else true
  let redOk := if op = 8 then dRed d == 0 else decide (dRed d ≤ 2)
  let range (i n lo hi : Nat) : Bool := decide (lo ≤ fieldAt d i n) && decide (fieldAt d i n ≤ hi)
  if dWindow d = 0 then some 0
  else if op = 0 ∨ 9 < op then some 2
  else if !inOk then some 5
  else if !redOk then some 7
  else if !outOk then some 6
  else if op = 5 then
    if !range 40 2 1 2048 then some 40 else if !range 42 2 1 1024 then some 42
    else if !range 44 2 1 1024 then some 44 else if !range 46 1 1 255 then some 46 else none
  else if op = 6 then (if range 40 2 1 512 then none else some 40)
  else if op = 7 then (if !range 40 2 0 15 then some 40 else if !range 42 1 1 32 then some 42 else none)
  else if op = 8 ∨ op = 9 then (if range 40 2 0 15 then none else some 40)
  else none

/-- A shard slot. -/
def shardAt (s : State) (j : Nat) : Shard := mapGetD s.coll.shards j {}

/-- Hold a shard slot. -/
def setShard (j : Nat) (x : Shard) : State → State := modColl (fun c => { c with shards := mapSet c.shards j x })

/-- The shard or table slot that a descriptor names does not serve it (code 8). -/
def badSlot (s : State) (d : Bytes) : Bool :=
  let x := shardAt s (fieldAt d 40 2)
  let kind := fieldAt x.record 0 1
  if dOp d = 8 ∨ dOp d = 9 then x.state != 1 || kind != 1
  else if dOp d = 7 then
    x.state != 1 || kind != 2 || (decide (5 ≤ bits (dOut d) 0 3) && fieldAt x.record 2 2 % 32 != 0)
  else false

/-- The tenant is admitted by the port entry of the resident BEP (R112). -/
def tenantAdmitted (s : State) (t : Nat) : Bool := bit (portEntry (bank s s.routes.current) 31) (16 + t)

/-- The refusal code of a bind and the field at fault, as offset and length (R311). -/
def bindRefusal (s : State) (i : Nat) (d : Bytes) : Option (Nat × Nat × Nat) :=
  let r := s.time.round
  let others := s.coll.wins.filter (fun e => winBound e.2 && e.1 != i)
  let badBlock := (List.range 4).any (fun a => bit (dAxes d) a && (bits (dBlocks d) (4 * a) 4 == 13 || bits (dBlocks d) (4 * a) 4 == 14))
  if fieldAt d 56 8 ≠ (crc64 (slice d 0 56)).toNat then some (1, 56, 8)
  else match reservedPlace d, badField d with
  | some p, _ => some (1, p, 1)
  | none, some p => some (2, p, if p = 0 ∨ p = 40 ∨ p = 42 ∨ p = 44 then 2 else 1)
  | none, none =>
    if windowHeld s (dWindow d) = true ∨ (winAt s i).state ≠ 0 then some (3, 0, 2)
    else if 3 < dGrid d ∨ 8192 < gridPoints s (dGrid d) then some (4, 32, 1)
    else if gridAt s (dGrid d) (dAnchor d) = 0xFFFF then some (4, 36, 4)
    else if badBlock then some (4, 34, 2)
    else if dStart d % r ≠ 0 ∨ dStart d < s.time.ft + 1024 then some (5, 16, 8)
    else if dCommit d = 0 ∨ r ≤ dCommit d then some (5, 24, 2)
    else if 4096 < dObase d + dOcells d ∨ others.any (fun e =>
        decide (dObase d < dObase e.2.desc + dOcells e.2.desc) && decide (dObase e.2.desc < dObase d + dOcells d)) = true
      then some (6, 28, 2)
    else if odGet s 0x5100 1 < (others.foldl (fun n e => n + e.2.accCount) 0) + accumulatorsNeeded d then some (7, 30, 2)
    else if badSlot s d then some (8, 40, 2)
    else if !tenantAdmitted s (dTenant d) then some (9, 4, 1)
    else none

/-- The first accumulator of a window slot in the store, above those of contexts. -/
def winAccs (i : Nat) : Nat := (64 + i) * 2 ^ 20

/-- WINDOW_BIND (R311, R333). -/
def windowBind (src : Route) (i : Nat) (s : State) : State :=
  let w := winAt s i
  match bindRefusal s i w.desc with
  | some (code, off, n) =>
    refuseRule (report src (0x5120 + i) 2 off 3 (fieldAt w.desc off n) 0
      (bump 0x5100 0x1C (modWin i (fun w => { w with refusal := code }) s)))
  | none =>
    setWin i { state := 1, desc := w.desc, accCount := accumulatorsNeeded w.desc, resSeq := w.resSeq } s

/-- The accumulators of a slot are released. -/
def clearAccs (i : Nat) (s : State) : State :=
  { s with cmp := { s.cmp with accs := s.cmp.accs.filter (fun e => !(decide (winAccs i ≤ e.1) && decide (e.1 < winAccs (i + 1)))) } }

/-- Departure cells formed and never sent are freed and counted (R246). -/
def freeFormed (i : Nat) (s : State) : State :=
  let n := ((winAt s i).formed.filter (fun e => !e.2.sent)).length
  modWin i (fun w => { w with formed := [] }) (bumpN 0x4128 6 n s)

/-- The window is unbound: its slot is free, and its result record stays (R311, R333). -/
def unbind (i : Nat) (s : State) : State := modWin i (fun w => { w with state := 0, running := none }) (freeFormed i (clearAccs i s))

/-- WINDOW_UNBIND (R311, R511). -/
def windowUnbind (i : Nat) (s : State) : State :=
  let w := winAt s i
  if w.state = 0 then s
  else if w.running.isSome && w.state != 3 then setWin i { w with state := 2 } s
  else unbind i s

/-- A write of OD (5120h + i).02: 1 binds, 2 unbinds, other values clamp to 2 (R334). -/
def windowWrite (src : Route) (i v : Nat) (s : State) : State :=
  if v = 1 then windowBind src i s
  else windowUnbind i (if v = 2 then s else clamped src (0x5120 + i) 2 (scalarPlace 8) v 2 s)

/-! ### The start of a step (R312, R314, R315, R326) -/

/-- The parameter block of a shard (R326). -/
def readParams (s : State) (x : Shard) : List Nat :=
  let b := cellsGet s.mem.cells (fieldAt x.record 48 8) 24
  (List.range 6).map (fun k => fieldAt b (4 * k) 4)

/-- The steward's slot at a round start: parameters are read, staging and digests start empty. -/
def startSteward (d : Bytes) (s : State) : State :=
  if dOp d = 8 then
    let j := fieldAt d 40 2
    let x := shardAt s j
    setShard j { x with params := readParams s x, staging := [], digests := [], taken := [] } s
  else s

/-- The step that a round starting at `ft` carries. -/
def stepAt (d : Bytes) (round ft : Nat) : Option Nat :=
  let n := (ft - dStart d) / round
  if ft < dStart d then none
  else if dSteps d ≠ 0 ∧ dSteps d ≤ n then none
  else some (dFirst d + n)

/-- A window's part of a round start. -/
def windowRound (i : Nat) (s : State) : State :=
  let w := winAt s i
  if !winBound w then s
  else
    match stepAt w.desc s.time.round s.time.ft with
    | none => s
    | some step =>
      let s := freeFormed i (clearAccs i s)
      let s := modWin i (fun w => { w with
        running := some step, stepRec := {}, up := {}, carried := none, verdict := none, failedAfter := false, uncarried := false,
        red := [], taken := [], seen := [], delivered := [], badChunks := [], absentNow := [], badNow := 0, dropsNow := [] }) s
      let s := startSteward w.desc s
      if w.memberLost then failStep i 8 none s else s

/-! ### The chunk check (R306) -/

/-- The check bits that the last cell of a chunk carries. -/
def checkOf (c : Cell) : Nat := bits c.addr.toNat 24 24 * 2 ^ 40 + c.tag.toNat * 2 ^ 24 + c.tally.toNat

/-- Set the check bits of a cell. -/
def withCheck (v : Nat) (c : Cell) : Cell :=
  { c with addr := mkAddr (cellDest c) (bits v 40 24 * 2 ^ 24), tag := BitVec.ofNat 16 (bits v 24 16), tally := BitVec.ofNat 24 v }

/-- Key of a cell of a step. -/
def cellKey (chunk cell : Nat) : Nat := chunk * 16 + cell

/-- Cells of a chunk that arrived on an input are checked when its last cell arrives. -/
def noteArrival (i input : Nat) (c : Cell) (s : State) : State :=
  let key (k : Nat) : Nat := input * 2 ^ 24 + cellKey c.chunk.toNat k
  if c.op = opERR then s
  else
    let s := modWin i (fun w => { w with seen := mapSet w.seen (key c.cell.toNat) (payloadBytes c) }) s
    if !c.last then s
    else
      let parts := (List.range (c.cell.toNat + 1)).map (fun k => mapGet (winAt s i).seen (key k))
      let bad (cause : Nat) (s : State) : State :=
        failStep i cause (some c.chunk.toNat) (modWin i (fun w => { w with badChunks := w.badChunks ++ [c.chunk.toNat] }) s)
      if parts.any (fun x => x.isNone) then bad 1 s
      else if (crc64 (parts.flatMap (fun x => x.getD []))).toNat ≠ checkOf c then bad 2 (bump 0x5100 0x12 s)
      else s

/-- A verdict cell that arrives is the verdict held (R318). -/
def noteVerdict (i : Nat) (c : Cell) (s : State) : State :=
  let w := winAt s i
  let v : StepRec :=
    if c.op = opERR then
      { failed := true, cause := c.aux.toNat % 65536, poison := if c.chunk = 0xFFFFF then none else some c.chunk.toNat }
    else readVerdict (groupMembers s w.desc) c.payload
  if c.vc = 10 ∧ (c.op = opERR ∨ c.chunk = 0xFFFFF) then setWin i { w with verdict := some v, failedAfter := false } s else s

/-! ### Acceptance of scheduled cells (R227, R304, R314) -/

/-- The cell's step is the one that runs in its window. -/
def stepMatches (w : Win) (c : Cell) : Bool :=
  match w.running with
  | some n => if c.op = opERR then c.aux.toNat / 65536 == n % 65536 else c.aux.toNat == n
  | none => false

/-- A VC9 or VC10 cell arrives on an input: accepted into its slot buffer, or discarded and counted. -/
def acceptScheduled (p : PortN) (c : Cell) (s : State) : State :=
  match slotFor s p.val c, slotOf s c.window.toNat with
  | some e, some (i, w) =>
    let sbuf := eSbuf e.word.toNat
    let sub := if c.op = opRS then chunkSub c.chunk.toNat == some c.sub.toNat else (chunkSub c.chunk.toNat).isSome
    let free := (sbufAt s p.val sbuf).cell.isNone
    if sub && inWindow s p e && eTenant e.word.toNat == c.tenant.toNat && free && stepMatches w c then
      let b : SlotBuf :=
        { cell := some c, ref := (entriesOf s p.val sbuf).length, ready := s.time.ft + 114 + halfTick s p }
      noteVerdict i c (noteArrival i p.val c (setSbuf p.val sbuf b (bump (0x4110 + p.val) 4 s)))
    else countSlotDrop p.val s
  | _, _ => countSlotDrop p.val s

/-! ### Service work: contributions (R312, R322–R324, R332) -/

/-- Bytes of an element of a contribution. -/
def inSize (t : Nat) : Nat := if t = 0 ∨ t = 2 then 4 else 2

/-- The element values of a cell. -/
def elements (t : Nat) (b : Bytes) : List FV :=
  let n := inSize t
  (List.range (256 / n)).map (fun k =>
    let v := fieldAt b (n * k) n
    if t = 0 then intFV true v
    else match fmtOf t 0 with
      | some f => decodeFV f v
      | none => .nan)

/-- The code of an element in a format of contributions. -/
def encodeElement (t : Nat) (v : FV) : Nat :=
  if t = 0 then twos 32 (unitsFV 0 v)
  else match fmtOf t 0 with
    | some f => roundFV f .rne false v
    | none => 0

/-- The lowest data chunk of the step at this GV24 (R309): of the entries that its engines take or supply. -/
def lowestChunk (s : State) (window : Nat) : Nat :=
  let l := ((activeSlots s).filter (fun e =>
    eWindow e.2.word.toNat == window && (e.1 / 65536 == 24 || eInput e.2.word.toNat == 24) && decide (eChunk e.2.word.toNat ≤ 0x3FFFF))).map
      (fun e => eChunk e.2.word.toNat)
  match l with
  | [] => 0
  | a :: r => r.foldl min a

/-- The index of a data cell within the step at this GV24 (R309). -/
def cellIndex (s : State) (d : Bytes) (chunk cell : Nat) : Nat := 16 * (chunk - lowestChunk s (dWindow d)) + cell

/-- The accumulator of element `k` of a data cell. -/
def accOf (s : State) (i : Nat) (d : Bytes) (chunk cell k : Nat) : Nat :=
  winAccs i + cellIndex s d chunk cell * (256 / inSize (dIn d)) + k

/-- Take a contribution into the accumulators, or into the running minimum or maximum. -/
def reduceCell (i : Nat) (c : Cell) (s : State) : State :=
  let w := winAt s i
  let d := w.desc
  let key := cellKey c.chunk.toNat c.cell.toNat
  let vs := elements (dIn d) (payloadBytes c)
  let r := mapGetD w.red key {}
  let run :=
    if dRed d = 0 then r.run
    else if r.taken = 0 then vs.map (encodeElement (dIn d))
    else (r.run.zip (elements (dIn d) (payloadBytes c))).map (fun e =>
      let old := if dIn d = 0 then intFV true e.1 else match fmtOf (dIn d) 0 with
        | some f => decodeFV f e.1
        | none => .nan
      encodeElement (dIn d) (minmaxFV (dRed d == 2) old e.2))
  let s := setWin i { w with red := mapSet w.red key { r with taken := r.taken + 1, run := run } } s
  if dRed d = 0 then
    (List.range vs.length).zip vs |>.foldl (fun s e =>
      let k := accOf s i d c.chunk.toNat c.cell.toNat e.1
      { s with cmp := { s.cmp with accs := mapSet s.cmp.accs k (accAdd (mapGetD s.cmp.accs k {}) e.2) } }) s
  else s

/-- Key of a contribution kept whole: the place of its contributor and its cell. -/
def takenKey (who chunk cell : Nat) : Nat := who * 2 ^ 24 + cellKey chunk cell

/-- Keep a contribution whole. -/
def keepCell (i who : Nat) (c : Cell) : State → State :=
  modWin i (fun w => { w with taken := mapSet w.taken (takenKey who c.chunk.toNat c.cell.toNat) (payloadBytes c) })

/-- Count one contribution of a cell. -/
def countTaken (i : Nat) (c : Cell) : State → State :=
  modWin i (fun w =>
    let key := cellKey c.chunk.toNat c.cell.toNat
    let r := mapGetD w.red key {}
    { w with red := mapSet w.red key { r with taken := r.taken + 1 } })

/-- Embedding indices of a cell at or above ROWS are counted (R332). -/
def countIndices (i : Nat) (c : Cell) (s : State) : State :=
  let d := (winAt s i).desc
  let x := shardAt s (fieldAt d 40 2)
  let l := fieldAt d 42 1
  let n := ((List.range 2).flatMap (fun h => (List.range l).map (fun k => fieldAt (payloadBytes c) (128 * h + 4 * k) 4))).filter
    (fun v => v != 0xFFFFFFFF && decide (fieldAt x.record 4 4 ≤ v))
  modWin i (fun w => { w with badNow := w.badNow + n.length }) (bumpN 0x5100 0x1A n.length s)

/-- The shard chunk that a data chunk belongs to (R325). -/
def shardChunk (x : Shard) (chunk : Nat) : Option Nat :=
  let c0 := fieldAt x.record 56 4
  if c0 ≤ chunk ∧ chunk - c0 < fieldAt x.record 4 4 then some (chunk - c0) else none

/-- A departure cell is formed. -/
def formCell (i chunk cell : Nat) (b : Bytes) (pad : Bool) : State → State :=
  modWin i (fun w => { w with formed := mapSet w.formed (cellKey chunk cell) { payload := b, pad := pad } })

/-- Output 24 delivers a cell of a data chunk to the engines. -/
def takeData (i input : Nat) (c : Cell) (s : State) : State :=
  let d := (winAt s i).desc
  let op := dOp d
  if op = 3 ∨ op = 4 then formCell i c.chunk.toNat c.cell.toNat (payloadBytes c) c.pad s
  else if op = 5 then
    match rankOf (groupMembers s d) c.src.toNat with
    | some rank => keepCell i rank c s
    | none => countSlotDrop input s
  else if op = 6 then keepCell i ((mapGetD (winAt s i).red (cellKey c.chunk.toNat c.cell.toNat) {}).taken) c (countTaken i c s)
  else if op = 7 then countIndices i c (keepCell i 0 c s)
  else if op = 8 ∧ (shardChunk (shardAt s (fieldAt d 40 2)) c.chunk.toNat).isNone = true then countSlotDrop input s
  else if (op = 1 ∨ op = 2 ∨ op = 8) ∧ 0 < dFanin d then reduceCell i c s
  else s

/-- Digests that a digest cell carries (R330): their numbers in the step. -/
def takeDigests (i : Nat) (c : Cell) (s : State) : State :=
  let j := fieldAt (winAt s i).desc 40 2
  let x := shardAt s j
  let first := 512 * (c.chunk.toNat - 0xC0000) + 32 * c.cell.toNat
  let taken := (List.range 32).foldl (fun m k => mapSet m (first + k) (fieldAt (payloadBytes c) (8 * k) 8)) x.taken
  setShard j { x with taken := taken } s

/-- Output 24 delivers a cell to the engines (R312, R316, R330). -/
def engineTake (i input : Nat) (c : Cell) (s : State) : State :=
  let w := winAt s i
  let chunk := c.chunk.toNat
  if chunk ≤ 0x3FFFF then takeData i input c s
  else if chunk ≤ 0xBFFFF then keepCell i 0 c s
  else if chunk = 0xFFFFF then setWin i { w with up := mergeRec w.up (readVerdict (groupMembers s w.desc) c.payload) } s
  else takeDigests i c s

/-! ### Service work: results -/

/-- Round the reduced cell: the codes of its elements in a format. -/
def reducedCodes (s : State) (i : Nat) (d : Bytes) (chunk cell : Nat) (r : RedCell) (out : Nat) : List Nat :=
  if dRed d = 0 then
    (List.range (256 / inSize (dIn d))).map (fun k =>
      let a := mapGetD s.cmp.accs (accOf s i d chunk cell k) {}
      if out = 0 then twos 32 (a.n / 2 ^ 149)
      else match fmtOf out 0 with
        | some f => accRound f .rne a
        | none => 0)
  else r.run

/-- Bytes of a list of codes of `n` bytes each. -/
def codeBytes (n : Nat) (l : List Nat) : Bytes := l.flatMap (natLe n)

/-- A reduced cell is rounded once and formed, or held as g_sum (R312, R327). -/
def formReduced (i chunk cell : Nat) (s : State) : State :=
  let w := winAt s i
  let d := w.desc
  let key := cellKey chunk cell
  let r := mapGetD w.red key {}
  if dFanin d = 0 ∨ r.taken < dFanin d ∨ r.formed = true then s
  else if dOp d = 8 then
    setWin i { w with red := mapSet w.red key { r with formed := true, run := reducedCodes s i d chunk cell r 2 } } s
  else
    formCell i chunk cell (codeBytes (inSize (dIn d)) (reducedCodes s i d chunk cell r (dIn d)))
      false (setWin i { w with red := mapSet w.red key { r with formed := true } } s)

/-! All-to-all (R322, R323) -/

/-- The count of a member for a bucket as its table gives it; none where the cell has not arrived. -/
def rawCount (w : Win) (rank b : Nat) : Option Nat :=
  (mapGet w.taken (takenKey rank 0 (2 * b / 256))).map (fun p => fieldAt p (2 * b % 256) 2)

/-- The used slots of a bucket, as member rank and t, in order; none where a count is missing. -/
def usedSlots (w : Win) (members scap b : Nat) : Option (List (Nat × Nat)) :=
  (List.range members).foldl (fun l rank =>
    match l, rawCount w rank b with
    | some l, some n => some (l ++ (List.range (min n scap)).map (fun t => (rank, t)))
    | _, _ => none) (some [])

/-- Tokens of a bucket that are dropped: those beyond CAP. -/
def droppedTokens (used : List (Nat × Nat)) (cap : Nat) : Nat := used.length - cap

/-- The payload of output cell `n`, with PAD; none where a source has not arrived. -/
def outputCell (w : Win) (members : Nat) (d : Bytes) (n : Nat) : Option (Bytes × Bool) :=
  let scap := fieldAt d 42 2
  let cap := fieldAt d 44 2
  let tok := fieldAt d 46 1
  let origins := (cap + 63) / 64
  let per := origins + cap * tok
  let b := n / per
  let r := n % per
  match usedSlots w members scap b with
  | none => none
  | some used =>
    let kept := used.take cap
    if r < origins then
      some (codeBytes 4 ((List.range 64).map (fun k =>
        match kept[64 * r + k]? with
        | some (rank, t) => rank * 65536 + t
        | none => 0xFFFFFFFF)), false)
    else
      let u := (r - origins) / tok
      match kept[u]? with
      | some (rank, t) =>
        let cell := 16 + (b * scap + t) * tok + (r - origins) % tok
        (mapGet w.taken (takenKey rank (cell / 16) (cell % 16))).map (fun p => (p, false))
      | none => some (codeBytes 2 (List.replicate 128 (fieldAt d 48 2)), true)

/-- Form a cell of a compacted bucket; the drops of the bucket are counted with its first cell. -/
def formCompacted (i chunk cell : Nat) (s : State) : State :=
  let w := winAt s i
  let d := w.desc
  let members := (groupMembers s d).length
  let n := cellKey chunk cell
  let per := (fieldAt d 44 2 + 63) / 64 + fieldAt d 44 2 * fieldAt d 46 1
  match outputCell w members d n, usedSlots w members (fieldAt d 42 2) (n / per) with
  | some (b, pad), some used =>
    let s := formCell i chunk cell b pad s
    if n % per = 0 ∧ (mapGet w.dropsNow (n / per)).isNone = true then
      let k := droppedTokens used (fieldAt d 44 2)
      modWin i (fun w => { w with
        dropsNow := mapSet w.dropsNow (n / per) k,
        stepRec := { w.stepRec with dropped := min 0xFFFFFFFF (w.stepRec.dropped + k) } }) (bumpN 0x5100 0x19 k s)
    else s
  | _, _ => s

/-! Top-k (R324) -/

/-- The order of FP32 codes with −0 below +0, as a number. -/
def orderKey (v : Nat) : Nat := if v < 2 ^ 31 then v + 2 ^ 31 else 2 ^ 32 - 1 - v

/-- Does pair `a` come before pair `b`? -/
def pairBefore (a b : Nat × Nat) : Bool :=
  decide (orderKey b.1 < orderKey a.1) || (a.1 == b.1 && decide (a.2 ≤ b.2))

/-- Insert into a list in order. -/
def insertPair (p : Nat × Nat) : List (Nat × Nat) → List (Nat × Nat)
  | [] => [p]
  | q :: r => if pairBefore p q then p :: q :: r else q :: insertPair p r

/-- The pairs that may be selected. -/
def pairOk (p : Nat × Nat) : Bool := p.2 != 0xFFFFFFFF && decodeFV fp32 p.1 != .nan

/-- The K greatest pairs of the contributions taken, in descending order. -/
def selected (w : Win) (k : Nat) : List (Nat × Nat) :=
  let pairs := w.taken.flatMap (fun e => (List.range 32).map (fun j => (fieldAt e.2 (8 * j) 4, fieldAt e.2 (8 * j + 4) 4)))
  ((pairs.filter pairOk).foldl (fun l p => (insertPair p l).take k) [])

/-- Form a cell of the chunk selected: every contribution of the step's cells must have come. -/
def formSelected (i chunk cell : Nat) (s : State) : State :=
  let w := winAt s i
  let d := w.desc
  let ready := decide (16 ≤ w.red.length) && w.red.all (fun e => decide (dFanin d ≤ e.2.taken))
  if ready then
    let l := selected w (fieldAt d 40 2)
    formCell i chunk cell ((List.range 32).flatMap (fun j =>
      match l[32 * cell + j]? with
      | some p => natLe 4 p.1 ++ natLe 4 p.2
      | none => natLe 4 0xFF800000 ++ natLe 4 0xFFFFFFFF)) false s
  else s

/-! Embedding bags (R331, R332) -/

/-- The format of a table's elements. -/
def tableFmt (elem : Nat) : Option Fmt :=
  if elem = 2 then some fp32 else if elem = 3 then some fp16 else if elem = 4 then some bf16
  else if elem = 5 then some e4m3 else if elem = 6 then some e5m2 else none

/-- Bytes of a format's element in memory. -/
def elemSize (f : Fmt) : Nat := (f.bits + 7) / 8

/-- Bytes of a list of values in an output format: elements, then the scales of an MX format (R289, R290, R332). -/
def packValues (out : Nat) (vs : List FV) : Bytes :=
  match fmtOf (bits out 0 3) (bits out 3 2) with
  | none => []
  | some f =>
    if isMx (bits out 0 3) then
      let blocks := (List.range (vs.length / 32)).map (fun b => mxBlock f ((vs.drop (32 * b)).take 32))
      packElems f.bits (blocks.flatMap (fun x => x.1)) ++ blocks.flatMap (fun x => natLe 1 x.2)
    else codeBytes (elemSize f) (vs.map (roundFV f .rne false))

/-- The result of a bag; none where a row cannot be read. -/
def bagResult (s : State) (x : Shard) (tenant out l : Nat) (line : Bytes) : Option Bytes :=
  match tableFmt (fieldAt x.record 1 1) with
  | none => none
  | some f =>
    let dim := fieldAt x.record 2 2
    let stride := ceilTo 128 (dim * elemSize f)
    let rows := ((List.range l).map (fun k => fieldAt line (4 * k) 4)).filter (fun v => decide (v < fieldAt x.record 4 4))
    let data := rows.map (fun r => serviceRead s tenant (fieldAt x.record 8 8 + r * stride) (dim * elemSize f))
    if data.any (fun b => b.isNone) then none
    else some (packValues out ((List.range dim).map (fun k =>
      accValue (data.foldl (fun a b => accAdd a (decodeFV f (fieldAt (b.getD []) (elemSize f * k) (elemSize f)))) {}))))

/-- One output line of a bag window; none where its bag has not arrived. -/
def bagLine (s : State) (w : Win) (x : Shard) (line : Nat) : Option (Option Bytes) :=
  let d := w.desc
  let dim := fieldAt x.record 2 2
  let size := match fmtOf (bits (dOut d) 0 3) (bits (dOut d) 3 2) with
    | some f => (dim * f.bits + 7) / 8 + (if isMx (bits (dOut d) 0 3) then dim / 32 else 0)
    | none => 0
  let per := (size + 127) / 128
  let b := line / max 1 per
  (mapGet w.taken (takenKey 0 (b / 32) (b % 32 / 2))).map (fun p =>
    (bagResult s x (dTenant d) (dOut d) (fieldAt d 42 1) (slice p (128 * (b % 2)) 128)).map (fun r => slice r (128 * (line % max 1 per)) 128))

/-- Form an output cell of an EMBED_BAG: two output lines. A row that cannot be read fails the step with ERROR. -/
def formBag (i chunk cell : Nat) (s : State) : State :=
  let w := winAt s i
  let x := shardAt s (fieldAt w.desc 40 2)
  let n := cellKey chunk cell
  match bagLine s w x (2 * n), bagLine s w x (2 * n + 1) with
  | some (some a), some (some b) => formCell i chunk cell (a ++ b) false s
  | some (some a), none => formCell i chunk cell (slice a 0 256) false s
  | some none, _ => failStep i 3 none s
  | some (some _), some none => failStep i 3 none s
  | none, _ => s

/-! Weights (R327, R310) -/

/-- A weight area: 4,096 bytes, an MX format's scales from byte 3,968 (R327). -/
def weightArea (out : Nat) (vs : List FV) : Bytes :=
  match fmtOf (bits out 0 3) (bits out 3 2) with
  | none => padTo 4096 []
  | some f =>
    if isMx (bits out 0 3) then
      let n := (vs.length * f.bits + 7) / 8
      let b := packValues out vs
      slice (slice b 0 n ++ List.replicate (3968 - n) 0 ++ b.drop n) 0 4096
    else slice (packValues out vs) 0 4096

/-- FP32 values of a run of bytes. -/
def fp32Values (b : Bytes) (n : Nat) : List FV := (List.range n).map (fun k => decodeFV fp32 (fieldAt b (4 * k) 4))

/-- REGATHER: the current weights of a shard chunk. -/
def formWeights (i chunk cell : Nat) (s : State) : State :=
  let d := (winAt s i).desc
  let x := shardAt s (fieldAt d 40 2)
  let n := chunkParams x
  match shardChunk x chunk with
  | none => s
  | some j =>
    match serviceRead s (dTenant d) (fieldAt x.record 8 8 + 4 * n * j) (4 * n) with
    | none => failStep i 3 none s
    | some b => formCell i chunk cell (slice (weightArea (dOut d) (fp32Values b n)) (256 * cell) 256) false s

/-- SERVICE_CELL_FORMED (R312, R323, R324, R332). -/
def serviceCell (i chunk cell : Nat) (s : State) : State :=
  let w := winAt s i
  let op := dOp w.desc
  if w.running.isNone then s
  else if op = 1 ∨ op = 2 ∨ op = 8 then formReduced i chunk cell s
  else if op = 5 then formCompacted i chunk cell s
  else if op = 6 then formSelected i chunk cell s
  else if op = 7 then formBag i chunk cell s
  else if op = 9 then formWeights i chunk cell s
  else s

/-! ### Digests (R330) -/

/-- The primary compares the digests taken with its own. -/
def checkDigests (i : Nat) (s : State) : State :=
  let d := (winAt s i).desc
  let j := fieldAt d 40 2
  let x := shardAt s j
  if dOp d = 8 ∧ bit (dFlags d) 0 = true then
    let own := x.digests.map (fun e => e.2)
    let wrong := x.taken.filter (fun e => match own[e.1]? with
      | some v => v != e.2
      | none => false)
    let s := setShard j { x with taken := [] } s
    if wrong.isEmpty then s else failStep i 4 none (bumpN 0x5100 0x16 wrong.length s)
  else s

/-! ### Cells from the departure store (R305, R309, R316) -/

/-- A cell of the window that this GV24 forms. -/
def windowCell (s : State) (w : Win) (kind chunk cell len : Nat) (last : Bool) (b : Bytes) : Cell where
  src := coord s 31
  vc := if kind = 1 then 9 else 10
  op := if kind = 1 then opRS else opDAT
  sub := if kind = 1 then BitVec.ofNat 4 ((chunkSub chunk).getD 0) else 0
  tenant := BitVec.ofNat 4 (dTenant w.desc)
  len := BitVec.ofNat 8 len
  last := last
  window := BitVec.ofNat 16 (dWindow w.desc)
  chunk := BitVec.ofNat 28 chunk
  cell := BitVec.ofNat 4 cell
  aux := BitVec.ofNat 32 (w.running.getD 0)
  payload := b

/-- The `ERR` POISON of a failed step (R305, R316). -/
def poisonCell (s : State) (w : Win) (r : StepRec) (out : Nat) : Cell :=
  let seen (c : Nat) : Bool := (mapGetD w.delivered c []).contains out
  let chunk := match r.poison with
    | some c => if seen c then c else 0xFFFFF
    | none => 0xFFFFF
  { windowCell s w 2 chunk 0 0 false [] with
    op := opERR, sub := BitVec.ofNat 4 errPoison, last := chunk == 0xFFFFF,
    aux := BitVec.ofNat 32 (r.cause + (w.running.getD 0 % 65536) * 65536) }

/-- A verdict cell as it leaves on an output. -/
def verdictCell (s : State) (w : Win) (kind : Nat) (r : StepRec) (out : Nat) : Cell :=
  if kind = 2 ∧ r.failed = true then poisonCell s w r out
  else
    let b := verdictLine (w.running.getD 0) r
    withCheck (crc64 (slice b 0 256)).toNat (windowCell s w kind 0xFFFFF 0 1 true b)

/-- The whole chunk has been formed: its bytes. -/
def formedChunk (w : Win) (chunk : Nat) : Option Bytes :=
  let l := (List.range 16).map (fun k => mapGet w.formed (cellKey chunk k))
  if l.any (fun x => x.isNone) then none else some (l.flatMap (fun x => (x.map (fun f => f.payload)).getD []))

/-- A formed data cell as it leaves; none where it, or for a last cell the chunk, is not formed. -/
def dataCell (s : State) (w : Win) (kind chunk cell : Nat) : Option Cell :=
  match mapGet w.formed (cellKey chunk cell) with
  | none => none
  | some f =>
    let c := { windowCell s w kind chunk cell 2 (cell == 15) f.payload with pad := f.pad }
    if cell ≠ 15 then some c
    else (formedChunk w chunk).map (fun b => withCheck (crc64 b).toNat c)

/-- The FP32 codes of g_sum of a data chunk; none where a cell is missing (R327, R330). -/
def gsum (w : Win) (x : Shard) (chunk : Nat) : Option (List Nat) :=
  let n := chunkParams x
  if bit (dFlags w.desc) 1 then
    let copies := n / 1024
    let l := (List.range (16 * copies)).map (fun k =>
      mapGet w.taken (takenKey 0 (0x40000 + (chunk % 2 ^ 18) * copies + k / 16) (k % 16)))
    if l.any (fun b => b.isNone) then none
    else some (l.flatMap (fun b => (List.range 64).map (fun k => fieldAt (b.getD []) (4 * k) 4)))
  else
    let l := (List.range 16).map (fun k => mapGetD w.red (cellKey chunk k) {})
    if l.any (fun r => !r.formed) then none else some (l.flatMap (fun r => r.run))

/-- A gradient-copy cell (R330): the primary sends each g_sum to the mirror. -/
def copyCell (s : State) (w : Win) (chunk cell : Nat) : Option Cell :=
  let x := shardAt s (fieldAt w.desc 40 2)
  let copies := chunkParams x / 1024
  let c := (chunk - 0x40000) / copies
  let h := (chunk - 0x40000) % copies
  (gsum w x c).map (fun l =>
    let b := codeBytes 4 ((l.drop (1024 * h)).take 1024)
    let out := windowCell s w 1 chunk cell 2 (cell == 15) (slice b (256 * cell) 256)
    if cell = 15 then withCheck (crc64 b).toNat out else out)

/-- A digest cell of the mirror (R330). -/
def digestCell (s : State) (w : Win) (chunk cell : Nat) : Option Cell :=
  let x := shardAt s (fieldAt w.desc 40 2)
  let all := x.digests.map (fun e => e.2)
  let page := (all.drop (512 * (chunk - 0xC0000))).take 512
  let last := (page.length - 1) / 32
  if page.isEmpty || decide (last < cell) then none
  else
    let bytes := slice (codeBytes 8 page) 0 (256 * (last + 1))
    let out := windowCell s w 1 chunk cell 2 (cell == last) (slice bytes (256 * cell) 256)
    some (if cell = last then withCheck (crc64 bytes).toNat out else out)

/-- The record that a verdict entry of this GV24 sends (R316). -/
def verdictRec (w : Win) (kind : Nat) : Option StepRec :=
  if kind = 1 then some (mergeRec w.stepRec w.up)
  else if bit (dFlags w.desc) 2 then some (mergeRec w.stepRec w.up)
  else w.verdict.map (fun v => mergeRec v (latePart w.stepRec (w.carried.getD {})))

/-- The buffer that an INPUT 24 entry must name (R309). -/
def departureCell (s : State) (d : Bytes) (chunk cell : Nat) : Option Nat :=
  if chunk ≤ 0x3FFFF then some (dObase d + cellIndex s d chunk cell)
  else if chunk = 0xFFFFF then some (dObase d + dOcells d - 1)
  else none

/-- The cell that an INPUT 24 entry finds at its slot. -/
def departing (s : State) (w : Win) (e out : Nat) : Option Cell :=
  let chunk := eChunk e
  let placed := match departureCell s w.desc chunk (eCell e) with
    | some n => n == eSbuf e
    | none => true
  if !placed || w.running.isNone then none
  else if chunk ≤ 0x3FFFF then dataCell s w (eKind e) chunk (eCell e)
  else if chunk ≤ 0xBFFFF then copyCell s w chunk (eCell e)
  else if chunk = 0xFFFFF then (verdictRec w (eKind e)).map (fun r => verdictCell s w (eKind e) r out)
  else digestCell s w chunk (eCell e)

/-- A verdict entry has sent its cell: what it carried, and the verdict held (R316, R318). -/
def verdictSent (i kind : Nat) (s : State) : State :=
  let w := winAt s i
  match verdictRec w kind with
  | none => s
  | some r =>
    let s := if kind = 2 ∧ r.failed = true then bump 0x5100 0x13 s else s
    if kind = 1 then setWin i { w with carried := some w.stepRec, uncarried := false } s
    else setWin i { w with carried := some w.stepRec, uncarried := false, verdict := some r, failedAfter := false } s

/-- An INPUT 24 entry has fired on an output. -/
def departed (i e out : Nat) (s : State) : State :=
  if eChunk e = 0xFFFFF then verdictSent i (eKind e) s
  else if eChunk e ≤ 0x3FFFF then
    modWin i (fun w => { w with
      formed := mapMod w.formed (cellKey (eChunk e) (eCell e)) (fun f => { f with sent := true }),
      delivered := mapSet w.delivered (eChunk e) ((mapGetD w.delivered (eChunk e) []) ++ [out]) }) s
  else s

/-- A data cell of a port's buffer has been forwarded to an output: its bit of the delivery bitmap is set. -/
def noteDelivery (i : Nat) (c : Cell) (out : Nat) (s : State) : State :=
  if c.chunk.toNat ≤ 0x3FFFF ∧ c.op ≠ opERR then
    modWin i (fun w => { w with delivered := mapSet w.delivered c.chunk.toNat ((mapGetD w.delivered c.chunk.toNat []) ++ [out]) }) s
  else s

/-! ### Missed slots (R306, R309, R312, R316, R320, R330) -/

/-- The end-point that a port's input brings member cells from. -/
def memberInput (s : State) (input : Nat) : Option Nat :=
  if h : input < 24 then (if role s ⟨input, h⟩ = 1 then some (coord s input).toNat else none) else none

/-- An entry has found no cell at its tick, or could not send it. -/
def slotMissed (i e : Nat) (s : State) : State :=
  let w := winAt s i
  let chunk := eChunk e
  let input := eInput e
  let placed := match departureCell s w.desc chunk (eCell e) with
    | some n => n == eSbuf e
    | none => true
  if chunk = 0xFFFFF then
    if input = 24 ∧ (eKind e = 1 ∨ placed = false) then failStep i 6 none s else failStep i 7 none s
  else if 0xC0000 ≤ chunk then failStep i 5 none (bump 0x5100 0x17 s)
  else if input = 24 then
    let cells := if eCell e = 15 then List.range 16 else [eCell e]
    let short := decide (0 < dFanin w.desc) && decide (chunk ≤ 0x3FFFF)
      && cells.any (fun k => decide ((mapGetD w.red (cellKey chunk k) {}).taken < dFanin w.desc))
    if placed && short then failStep i 1 none s else failStep i 6 none (bump 0x5100 0x15 s)
  else match memberInput s input with
    | some m => if eKind e = 1 then memberAbsent i m s else failStep i 1 none s
    | none => failStep i 1 none s

/-! ### The commit tick (R316, R318, R329, R333) -/

/-- Where staging slot `k` lies. -/
def stagingAt (x : Shard) (k : Nat) : Nat := fieldAt x.record 40 8 + 4096 + k * (stateBytes x + 4096)

/-- Copy one used slot into W, M, V and T (R329). -/
def applySlot (x : Shard) (k j : Nat) (s : State) : State :=
  let n := chunkParams x
  let copy (src dst len : Nat) (s : State) : State := (writeRun dst (cellsGet s.mem.cells src len) 16 s).2
  let base := stagingAt x k
  let s := copy base (fieldAt x.record 8 8 + 4 * n * j) (4 * n) s
  let s := copy (base + 4 * n) (fieldAt x.record 16 8 + 4 * n * j) (4 * n) s
  let s := copy (base + 8 * n) (fieldAt x.record 24 8 + 4 * n * j) (4 * n) s
  copy (base + 12 * n) (fieldAt x.record 32 8 + 4 * j) 4 s

/-- A steward that commits applies its staging in ascending j (R329); each shard chunk has one slot. -/
def applyStaging (d : Bytes) (s : State) : State :=
  if dOp d = 8 then
    let x := shardAt s (fieldAt d 40 2)
    let used := x.staging.foldl (fun (m : NMap Nat) e => mapSet m e.2 e.1) []
    used.foldl (fun s e => applySlot x e.2 e.1 s) s
  else s

/-- The record of the step concluded: its own part merged with the verdict where the step failed. -/
def conclusion (w : Win) (committed : Bool) : StepRec :=
  if committed then { w.stepRec with cause := 0 }
  else match w.verdict with
    | some v => mergeRec w.stepRec v
    | none => w.stepRec

/-- COMMIT_TICK. -/
def commitTick (i : Nat) (s : State) : State :=
  let w := winAt s i
  match w.running with
  | none => s
  | some step =>
    let s := advanceTo (dStart w.desc + (step - dFirst w.desc) * s.time.round + dCommit w.desc) s
    let s := if w.lostNow then failStep i 8 none (modWin i (fun w => { w with memberLost := true, lostNow := false }) s) else s
    let split := (winAt s i).uncarried
    let s := if (winAt s i).verdict.isNone then failStep i 7 none s else s
    let w := winAt s i
    let committed := match w.verdict with
      | some v => !v.failed && !w.failedAfter
      | none => false
    let r := conclusion w committed
    let s := if split then log 0x5101 [dWindow w.desc, step, r.cause, 1] (bump 0x5100 0x18 s) else s
    let s := if committed then bump 0x5100 0x10 (applyStaging w.desc s)
      else log 0x5101 [dWindow w.desc, step, r.cause] (bump 0x5100 0x11 s)
    let last := decide (dSteps w.desc ≠ 0) && decide (step = dFirst w.desc + dSteps w.desc - 1)
    let s := modWin i (fun w => { w with
      running := none, resSeq := (w.resSeq + 1) % 2 ^ 32, valid := true, committed := committed, split := split, resCause := r.cause,
      resAbsent := w.stepRec.absent, resStep := step,
      lastCommitted := if committed then step else w.lastCommitted,
      firstAbsent := (r.first.map (fun x => x.2)).getD 0xFFFF, poisonChunk := r.poison.getD 0xFFFFFFFF, commitFt := s.time.ft,
      committedSteps := if committed then min 0xFFFFFFFF (w.committedSteps + 1) else w.committedSteps,
      failedSteps := if committed then w.failedSteps else min 0xFFFFFFFF (w.failedSteps + 1),
      resDropped := w.stepRec.dropped, badIndex := w.badNow, drops := w.dropsNow, absentMap := w.absentNow }) s
    let s := if s.host.winIrq.getLsbD i then signal (32 + i) s else s
    if w.state = 2 then unbind i s
    else if last then modWin i (fun w => { w with state := 3 }) (freeFormed i (clearAccs i s))
    else s

/-- The 64-byte result record (R333). -/
def resultRecord (w : Win) : Bytes :=
  natLe 4 w.resSeq ++ natLe 1 (flag w.valid 0 + flag w.committed 1 + flag w.split 2) ++ natLe 1 w.resCause ++ natLe 2 w.resAbsent
    ++ natLe 4 w.resStep ++ natLe 4 w.lastCommitted ++ natLe 2 w.firstAbsent ++ natLe 2 0 ++ natLe 4 w.poisonChunk
    ++ natLe 8 w.commitFt ++ natLe 4 w.committedSteps ++ natLe 4 w.failedSteps ++ natLe 4 w.resDropped ++ natLe 4 w.badIndex
    ++ List.replicate 16 0

/-- OD (5120h + i).05: the drop count of each bucket. -/
def dropRecord (w : Win) : Bytes :=
  if dOp w.desc = 5 then codeBytes 4 ((List.range (fieldAt w.desc 40 2)).map (fun b => mapGetD w.drops b 0)) else []

/-- OD (5120h + i).06: the absent bitmap. -/
def absentBytes (s : State) (w : Win) : Bytes :=
  let n := (groupMembers s w.desc).length
  natLe ((n + 7) / 8) (w.absentMap.foldl (fun m r => m + 2 ^ r) 0)

/-- OD (5120h + i).03. -/
def windowStatus (w : Win) : Nat := w.refusal * 65536 + w.state

/-! ### Entries of R334 -/

/-- A descriptor write: exactly 64 bytes, refused while the slot is bound. -/
def descriptorWrite (i : Nat) (b : Bytes) (s : State) : State :=
  if b.length ≠ 64 then endOp 5 0x06070010 s
  else if (winAt s i).state ≠ 0 then refuseRule s
  else modWin i (fun w => { w with desc := b }) s

/-- A bound window names the grid. -/
def gridNamed (s : State) (g : Nat) : Bool := s.coll.wins.any (fun e => winBound e.2 && dGrid e.2.desc == g)

/-- A grid shape write (R307). -/
def gridShapeWrite (src : Route) (g v : Nat) (s : State) : State :=
  if gridNamed s g then refuseRule s
  else
    let kept := (List.range 4).foldl (fun n a => n + clampTo 1 4096 (bits v (16 * a) 16) * 2 ^ (16 * a)) 0
    let s := odSet 0x5101 (g + 1) kept s
    (List.range 4).foldl (fun s a =>
      let x := bits v (16 * a) 16
      if clampTo 1 4096 x = x then s else clamped src 0x5101 (g + 1) (15 * 256 + 16 * a) x (clampTo 1 4096 x) s) s

/-- A member map write. -/
def gridMapWrite (g : Nat) (b : Bytes) (s : State) : State :=
  if gridNamed s g then refuseRule s else modColl (fun c => { c with maps := mapSet c.maps g b }) s

/-- OD 5100.01: the reservation, clamped to what the store leaves. -/
def reservationWrite (src : Route) (v : Nat) (s : State) : State :=
  if 0 < windowsBound s then refuseCondition s
  else
    let left := 838860 - (odGet s 0x3400 8 + odGet s 0x5000 5)
    keepTwo src 0x5100 1 32 v (min v 838860) (min (min v 838860) left) s

/-! ### Meanings -/

/-- WINDOW_BIND (R311): the dictionary write of 1. -/
def execWindowBind (src : Route) (i : Fin 64) (v : BitVec 8) (s : State) : Host.Outcome State Fault Refusal :=
  .next (windowWrite src i.val v.toNat (beginOp s))

/-- WINDOW_UNBIND (R311): the dictionary write of 2. -/
def execWindowUnbind (src : Route) (i : Fin 64) (v : BitVec 8) (s : State) : Host.Outcome State Fault Refusal :=
  .next (windowWrite src i.val v.toNat (beginOp s))

/-- SERVICE_CELL_FORMED (R312). -/
def execServiceCellFormed (i : Fin 64) (chunk : BitVec 28) (cell : BitVec 4) (s : State) : Host.Outcome State Fault Refusal :=
  .next (serviceCell i.val chunk.toNat cell.toNat s)

/-- COMMIT_TICK (R318). -/
def execCommitTick (i : Fin 64) (s : State) : Host.Outcome State Fault Refusal := .next (commitTick i.val s)

end Sys2Proof.Machine
end

