-- ==== Sys2Proof/Machine/EpWindows.lean ====
section
/-!
DEFINITION. Collective windows at an end-point (R194–R196, R242, R243, R304, R314, R318): reduce-stores, the transmit
calendar, departure and receive buffers, step fences and the commit tick.
-/

namespace Sys2Proof.Machine

open Sys2Proof

/-- Change the end-point. -/
def modEp (f : Ep → Ep) (s : State) : State := { s with ep := f s.ep }

/-- A completion without data. -/
def complete (id : Nat) (st : Status) : State → State := emit (.completion id st false [])

/-- The window bound at the end-point. -/
def epWindow (s : State) (w : Nat) : Option EpWindow := mapGet s.ep.windows w

/-- Hold a window. -/
def setEpWindow (w : Nat) (x : EpWindow) : State → State := modEp (fun e => { e with windows := mapSet e.windows w x })

/-! ### The transmit calendar (R243) -/

/-- A bank. -/
def epBank (s : State) (b : Nat) : EpBank := if b = 0 then s.ep.bankA else s.ep.bankB

/-- The active bank's records. -/
def epRecords (s : State) : List (Nat × Nat × BitVec 64) :=
  match s.ep.activeBank with
  | some b => (epBank s b).records
  | none => []

/-- The bank that a load goes to. -/
def epIdle (s : State) : Nat := if s.ep.activeBank = some 0 then 1 else 0

/-- Departure records of a window's data cells in a list of records. -/
def departures (l : List (Nat × Nat × BitVec 64)) (w : Nat) : List (Nat × Nat × BitVec 64) :=
  l.filter (fun r => eKind r.2.2.toNat == 1 && eWindow r.2.2.toNat == w)

/-- EP_CALENDAR_LOAD: the records of INPUT 31 are kept. An arm tick of 0 leaves the bank unarmed. -/
def epCalendarLoad (id round : Nat) (records : List (BitVec 128)) (arm : Nat) (s : State) : State :=
  let l := (records.map (fun r => ((r.extractLsb' 0 16).toNat, (r.extractLsb' 16 16).toNat, r.extractLsb' 64 64))).filter
    (fun r => eInput r.2.2.toNat == 31)
  let bank : EpBank := { round := round, records := l }
  complete id .ok (modEp (fun e =>
    { (if epIdle s = 0 then { e with bankA := bank } else { e with bankB := bank }) with
      armed := if arm = 0 then none else some arm }) s)

/-- EP_CALENDAR_SWITCH: the armed bank becomes active, and the slot buffers are taken anew. -/
def epCalendarSwitch (s : State) : State :=
  match s.ep.armed with
  | none => s
  | some tick =>
    let b := epIdle s
    modEp (fun e => { e with
      activeBank := some b, armed := none,
      windows := e.windows.map (fun x => (x.1, { x.2 with rx := [], badChunks := [], verdict := none })) }) (advanceTo tick s)

/-! ### Binding (R194) -/

/-- Departure-store cells of a window: one per departure record of one step. -/
def epCells (s : State) (w : Nat) : Nat :=
  max (departures (epBank s 0).records w).length (departures (epBank s 1).records w).length

/-- EP_WINDOW_BIND. -/
def epWindowBind (id pasid : Nat) (d : Bytes) (base : Nat) (s : State) : State :=
  let w := dWindow d
  let used := s.ep.windows.foldl (fun n e => n + epCells s e.1) 0
  if d.length ≠ 64 ∨ fieldAt d 56 8 ≠ (crc64 (slice d 0 56)).toNat ∨ w = 0 ∨ (epWindow s w).isSome = true
      ∨ odGet s 0x3402 0x0A < used + epCells s w then complete id (.err errWindow 0) s
  else complete id .ok (setEpWindow w { desc := d, pasid := pasid, resultBase := base, fill := dFirst d } s)

/-! ### Reduce-stores (R194) -/

/-- Write the lines of a reduce-store into the chunk cells of the fill step. -/
def writeLines (x : EpWindow) (offset : Nat) (lines : Bytes) : EpWindow :=
  (List.range (lines.length / 128)).foldl (fun x k =>
    let off := offset + 128 * k
    let key := off / 256
    let c := mapGetD x.cells key {}
    let line := slice lines (128 * k) 128
    { x with cells := mapSet x.cells key (if off / 128 % 2 = 0 then { c with lo := some line } else { c with hi := some line }) }) x

/-- A chunk cell that a reduce-store names has had its slot in the fill step. -/
def slotPassed (x : EpWindow) (offset : Nat) (lines : Bytes) : Bool :=
  (List.range (lines.length / 128)).any (fun k => (mapGetD x.cells ((offset + 128 * k) / 256) {}).passed)

/-- A reduce-store ends: a completion, or for a line of a copy the end of the copy where it was refused (R267). -/
def rsEnd (r : WaitRs) (st : Status) (s : State) : State :=
  match r.ctx with
  | none => complete r.id st s
  | some k => if st = .late then modCopy k (fun h => { h with ended := 4 }) s
    else if st = .ahead then modCopy k (fun h => { h with ended := 5 }) s
    else s

/-- Handle a reduce-store by its step. -/
def reduceStep (w : Nat) (x : EpWindow) (r : WaitRs) (s : State) : State :=
  if r.step = x.fill ∧ slotPassed x r.offset r.lines = false then
    rsEnd r .ok (setEpWindow w (writeLines x r.offset r.lines) s)
  else if r.step ≤ x.fill then rsEnd r .late (bump 0x3402 0x14 s)
  else if r.step = x.fill + 1 then setEpWindow w { x with waiting := x.waiting ++ [r] } s
  else rsEnd r .ahead (bump 0x3402 0x15 s)

/-- REDUCE_STORE (R190, R191, R194). -/
def reduceStore (id : Nat) (tenant : Option (BitVec 4)) (permC : Bool) (window step offset : Nat) (lines : Bytes) (s : State) : State :=
  if permC = false ∨ tenant.isNone = true then complete id .perm (bump 0x3402 0x19 s)
  else match epWindow s window with
  | none => complete id (.err errWindow 0) s
  | some x => reduceStep window x { id := id, step := step, offset := offset, lines := lines } s

/-! ### Departure (R195) -/

/-- The bytes of a chunk cell; lines not written read as 0. -/
def chunkCellBytes (c : ChunkCell) : Bytes := slice (c.lo.getD []) 0 128 ++ slice (c.hi.getD []) 0 128

/-- The cell that leaves for a chunk cell. -/
def epCell (s : State) (x : EpWindow) (chunk cell : Nat) : Cell :=
  let c : Cell :=
    { addr := mkAddr (coord s 31) 0, src := coord s 31, vc := 9, op := opRS, sub := BitVec.ofNat 4 ((chunkSub chunk).getD 0),
      tenant := BitVec.ofNat 4 (dTenant x.desc), len := 2, last := cell == 15, window := BitVec.ofNat 16 (dWindow x.desc),
      chunk := BitVec.ofNat 28 chunk, cell := BitVec.ofNat 4 cell, aux := BitVec.ofNat 32 x.fill,
      payload := chunkCellBytes (mapGetD x.cells (cellKey chunk cell) {}) }
  if cell = 15 then
    withCheck (crc64 ((List.range 16).flatMap (fun k => chunkCellBytes (mapGetD x.cells (cellKey chunk k) {})))).toNat c
  else c

/-- After the last slot of a step the fill step advances, and the reduce-stores that wait are handled again. -/
def advanceFill (w : Nat) (x : EpWindow) (s : State) : State :=
  let waiting := x.waiting
  let s := setEpWindow w { x with fill := x.fill + 1, cells := [], waiting := [] } s
  let s := emit (.report "step boundary" w x.fill) s
  waiting.foldl (fun s r => match epWindow s w with
    | some x => reduceStep w x r s
    | none => s) s

/-- The number of this end-point's own link in the transcript: it has no port of the GV24. -/
def ownLink : Nat := 31

/-- EP_VC9_SLOT: the next tick at this round offset. -/
def epVc9Slot (offset : Nat) (s : State) : State :=
  let records := epRecords s
  match records.find? (fun r => r.1 == offset && eKind r.2.2.toNat == 1) with
  | none => s
  | some r =>
    let s := advanceTo (slotTick s.time.ft s.time.round offset) s
    let e := r.2.2.toNat
    let w := eWindow e
    match epWindow s w with
    | none => s
    | some x =>
      if (stepAt x.desc s.time.round s.time.ft).isNone then s
      else
        let key := cellKey (eChunk e) (eCell e)
        let c := mapGetD x.cells key {}
        let s := if c.lo.isSome && c.hi.isSome then emit (.endPoint ownLink (epCell s x (eChunk e) (eCell e))) s else bump 0x3402 0x16 s
        let x := { x with cells := mapSet x.cells key { c with passed := true } }
        if (departures records w).all (fun q => decide (q.1 ≤ r.1)) then advanceFill w x s else setEpWindow w x s

/-! ### Arrivals (R196, R304, R314) -/

/-- The record that expects a VC10 cell now, within the guard of R49. -/
def expects (s : State) (c : Cell) : Bool :=
  let r := s.time.round
  (epRecords s).any (fun q =>
    let e := q.2.2.toNat
    eKind e == 2 && eWindow e == c.window.toNat && eChunk e == travelChunk c && eCell e == c.cell.toNat && eTenant e == c.tenant.toNat
      && decide ((s.time.ft + 4 + r - q.1 % r) % r ≤ 8))

/-- A chunk fails its check: not delivered, counted and reported. -/
def chunkFails (w : Nat) (x : EpWindow) (chunk : Nat) (s : State) : State :=
  emit (.report "chunk check failed" w chunk) (bump 0x3402 0x18 (setEpWindow w { x with badChunks := x.badChunks ++ [chunk] } s))

/-- An expected cell is taken. -/
def takeVc10 (w : Nat) (x : EpWindow) (c : Cell) (s : State) : State :=
  let chunk := c.chunk.toNat
  if c.op = opERR then
    setEpWindow w { x with
      verdict := some c, badChunks := x.badChunks ++ [chunk], rx := x.rx.filter (fun e => e.1 / 16 != chunk) } s
  else if chunk = 0xFFFFF then
    if (crc64 (payloadBytes c)).toNat = checkOf c then setEpWindow w { x with verdict := some c } s else chunkFails w x chunk s
  else
    let x := { x with rx := mapSet x.rx (cellKey chunk c.cell.toNat) (payloadBytes c) }
    if !c.last then setEpWindow w x s
    else
      let parts := (List.range (c.cell.toNat + 1)).map (fun k => mapGet x.rx (cellKey chunk k))
      if parts.any (fun p => p.isNone) || (crc64 (parts.flatMap (fun p => p.getD []))).toNat != checkOf c then chunkFails w x chunk s
      else setEpWindow w x s

/-- EP_VC10_RECEIVE. -/
def epVc10Receive (c : Cell) (s : State) : State :=
  let w := c.window.toNat
  match epWindow s w with
  | none => bump 0x3402 0x17 s
  | some x =>
    let step := stepAt x.desc s.time.round s.time.ft
    let right := match step with
      | some n => if c.op = opERR then c.aux.toNat / 65536 == n % 65536 else c.aux.toNat == n
      | none => false
    let open_ := decide (s.time.ft % s.time.round ≤ dCommit x.desc)
    if (chunkSub c.chunk.toNat).isSome && right && open_ && expects s c then takeVc10 w x c s else bump 0x3402 0x17 s

/-! ### The commit tick (R318) -/

/-- STEP_FENCE. -/
def stepFence (id window : Nat) (s : State) : State :=
  match epWindow s window with
  | some x => setEpWindow window { x with fences := x.fences ++ [id] } s
  | none => complete id (.err errWindow 0) s

/-- Every cell that the window expects in a step has come. -/
def allReceived (s : State) (w : Nat) (x : EpWindow) : Bool :=
  (epRecords s).all (fun q =>
    let e := q.2.2.toNat
    eKind e != 2 || eWindow e != w || decide (0x3FFFF < eChunk e) || (mapGet x.rx (cellKey (eChunk e) (eCell e))).isSome)

/-- Write the results into the result area, each chunk cell at the offset it has in the window. -/
def writeResults (x : EpWindow) (s : State) : State :=
  x.rx.foldl (fun s e => agentCommand { cmd :=
    { op := .st, pasid := BitVec.ofNat 20 x.pasid, addr := BitVec.ofNat 64 (x.resultBase + 256 * e.1),
      tenant := some (BitVec.ofNat 4 (dTenant x.desc)), len := 2, payload := e.2 } } s) s

/-- The outcome of a step at an end-point: 0 is OK, else the cause. -/
def epOutcome (s : State) (w : Nat) (x : EpWindow) : Nat :=
  match x.verdict with
  | none => 7
  | some c =>
    if c.op = opERR then c.aux.toNat % 65536
    else if x.badChunks.isEmpty && allReceived s w x then 0 else 10

/-- EP_COMMIT. -/
def epCommit (w : Nat) (s : State) : State :=
  match epWindow s w with
  | none => s
  | some x =>
    let n := (s.time.ft - dStart x.desc) / s.time.round
    let tick := dStart x.desc + n * s.time.round + dCommit x.desc
    match stepAt x.desc s.time.round tick with
    | none => s
    | some step =>
      let s := advanceTo tick s
      let cause := epOutcome s w x
      let s := setEpWindow w { x with rx := [], badChunks := [], verdict := none, fences := [] } s
      let s := if cause = 0 then emit (.report "step OK" w step) (writeResults x s) else emit (.report "STEP_FAILED" w cause) s
      x.fences.foldl (fun s id => complete id (if cause = 0 then .ok else .stepFailed cause) s) s

/-! ### Meanings -/

/-- REDUCE_STORE (R194). -/
def execReduceStore (id : Nat) (tenant : Option (BitVec 4)) (permC : Bool) (window : BitVec 16) (step : BitVec 32) (offset : Nat)
    (lines : Bytes) (s : State) : Host.Outcome State Fault Refusal :=
  .next (reduceStore id tenant permC window.toNat step.toNat offset lines s)

/-- EP_WINDOW_BIND (R194). -/
def execEpWindowBind (id : Nat) (pasid : BitVec 20) (d : Bytes) (base : BitVec 64) (s : State) : Host.Outcome State Fault Refusal :=
  .next (epWindowBind id pasid.toNat d base.toNat s)

/-- EP_CALENDAR_LOAD (R243). -/
def execEpCalendarLoad (id round : Nat) (records : List (BitVec 128)) (arm : BitVec 64) (s : State) : Host.Outcome State Fault Refusal :=
  .next (epCalendarLoad id round records arm.toNat s)

/-- EP_VC9_SLOT (R195). -/
def execEpVc9Slot (offset : Nat) (s : State) : Host.Outcome State Fault Refusal := .next (epVc9Slot offset s)

/-- EP_VC10_RECEIVE (R196). -/
def execEpVc10Receive (c : Cell) (s : State) : Host.Outcome State Fault Refusal := .next (epVc10Receive c s)

/-- STEP_FENCE (R318). -/
def execStepFence (id : Nat) (window : BitVec 16) (s : State) : Host.Outcome State Fault Refusal := .next (stepFence id window.toNat s)

/-- EP_COMMIT (R318). -/
def execEpCommit (window : BitVec 16) (s : State) : Host.Outcome State Fault Refusal := .next (epCommit window.toNat s)

/-- EP_CALENDAR_SWITCH (R242). -/
def execEpCalendarSwitch (s : State) : Host.Outcome State Fault Refusal := .next (epCalendarSwitch s)

end Sys2Proof.Machine
end

