-- ==== Sys2Proof/Machine/Copies.lean ====
section
/-!
DEFINITION. The copy engines (R265–R267): descriptors, the movement of one line, and the copy instructions.
-/

namespace Sys2Proof.Machine

open Sys2Proof

/-! ### Descriptors (R265) -/

/-- The descriptor is well formed. With RS every row lies on line boundaries (R267, assumption 22). -/
def copyLegal (d : Bytes) : Bool :=
  let spaces := fieldAt d 20 1
  let flags := fieldAt d 21 1
  let len := fieldAt d 16 4
  let ss := spaces % 4
  let ds := spaces / 4
  let rs := bit flags 1
  decide (spaces < 16) && ss != 3 && ds != 3 && decide (flags < 4) && fieldAt d 44 4 == 0 && len % 4 == 0 && decide (4 ≤ len)
    && decide (len ≤ 16777216) && fieldAt d 0 8 % 4 == 0 && fieldAt d 8 8 % 4 == 0
    && (!rs || (ds == 2 && len % 128 == 0 && fieldAt d 8 8 % 128 == 0 && (fieldAt d 22 2 ≤ 1 || fieldAt d 32 8 % 128 == 0)))

/-- The copy of a descriptor. -/
def copyOf (d : Bytes) (tag : Option Nat) (eng : Nat) : Copy where
  tag := tag
  eng := eng
  src := fieldAt d 0 8
  dst := fieldAt d 8 8
  len := fieldAt d 16 4
  sspace := fieldAt d 20 1 % 4
  dspace := fieldAt d 20 1 / 4 % 4
  vsrc := bit (fieldAt d 21 1) 0
  rs := bit (fieldAt d 21 1) 1
  rows := max 1 (fieldAt d 22 2)
  sstride := fieldAt d 24 8
  dstride := fieldAt d 32 8
  step := fieldAt d 40 4

/-- Add a copy to those of a context. -/
def addCopy (k : Nat) (h : Copy) (s : State) : State := modCtx k (fun c => { c with copies := c.copies ++ [h] }) s

/-! ### Moving a line (R266, R267) -/

/-- Source and destination address of the piece a copy moves next, and its length: up to the end of a destination line. -/
def pieceOf (h : Copy) : Nat × Nat × Nat :=
  let src := (h.src + h.row * h.sstride + h.at_) % 2 ^ 64
  let dst := (h.dst + h.row * h.dstride + h.at_) % 2 ^ 64
  (src, dst, min (128 - dst % 128) (h.len - h.at_))

/-- The copy goes on behind a piece of `n` bytes. -/
def advanceCopy (k n : Nat) (s : State) : State :=
  modCopy k (fun h =>
    let h := { h with got := none, asked := false, skip := false }
    if h.at_ + n < h.len then { h with at_ := h.at_ + n } else { h with at_ := 0, row := h.row + 1 }) (progress (.copy k) s)

/-- A write of the copies of a context is outstanding, or a reduce-store of one waits (R194). -/
def copyWritesOut (s : State) (k : Nat) : Bool :=
  (arrayCommands s).any (fun c => c.1 == .copyWrite k) || s.ep.windows.any (fun w => w.2.waiting.any (fun r => r.ctx == some k))

/-- The copy at the head ends once its writes are applied: its failures are kept, and waiting streams go on. -/
def finishCopy (k : Nat) (h : Copy) (s : State) : State :=
  if copyWritesOut s k then s
  else
    let s := modCtx k (fun c => { c with
      copies := c.copies.drop 1, failed := c.failed + h.failed,
      status := if h.ended ≠ 0 then h.ended else if 0 < h.failed ∧ c.status = 0 then 3 else c.status }) s
    let s := bump 0x5003 8 s
    let left := (ctxAt s k).copies
    (List.range 4).foldl (fun s e => modStream k e (fun x => match x.wait with
      | .copy t => if e = h.eng ∧ left.any (fun q => q.eng == e && q.tag == some t) = false then { x with wait := .none } else x
      | .none => x
      | .barC => x
      | .barG _ => x
      | .xlate => x
      | .fabric => x
      | .sysEnd => x) s) s

/-- Translate an address of a copy; none where it pauses or the context has faulted. -/
def copyPlace (k space need va : Nat) (s : State) : Option Nat × State :=
  let r := translate (.copy k) space need (ctxPasid (ctxAt s k)) va s
  match r.1 with
  | .ok a => (some a, r.2)
  | .stall => (none, r.2)
  | .fault code => (none, ctxFault k code va r.2)

/-- The bytes of one source line, where they are at hand; otherwise they are asked for, or the copy stops. -/
def copyLineBytes (k : Nat) (h : Copy) (va : Nat) (s : State) : Option Bytes × State :=
  let sp := h.sspace
  let core := k / 4
  let r := copyPlace k sp 1 va s
  match r.1 with
  | none => (none, r.2)
  | some addr =>
    let key := cacheKey core sp (lineNo sp addr)
    let pasid := ctxPasid (ctxAt r.2 k)
    let ask (op : BepOp) (s : State) : State :=
      arraySubmit (.copyRead k) (ctxCommand s k op va 0) (addr / 128 * 128) (modCopy k (fun h => { h with asked := true, want := va, got := if h.vsrc then h.got else none }) s)
    if h.vsrc then
      let s := flushLine key r.2
      if sp = 1 then lmRead k (lineNo 1 addr) s
      else match h.got with
        | some d => (some d, s)
        | none => (none, ask .ldv s)
    else if lineHolds r.2 key fullMask then
      ((cacheLine r.2 key).map (fun l => l.bytes), r.2)
    else if sp = 1 then
      let q := lmRead k (lineNo 1 addr) r.2
      match q.1 with
      | none => (none, q.2)
      | some b =>
        let s := installLine key pasid b q.2
        ((cacheLine s key).map (fun l => l.bytes), s)
    else match (if h.want = va then h.got else none) with
      | some d =>
        let s := installLine key pasid d r.2
        ((cacheLine s key).map (fun l => l.bytes), modCopy k (fun h => { h with got := none }) s)
      | none => (none, ask .ld r.2)

/-- The source bytes of a piece: it lies in one line, or two. With VSRC the lines of the fabric gather in the copy. -/
def copySource (k : Nat) (h : Copy) (va n : Nat) (s : State) : Option Bytes × State :=
  if h.sspace = 0 then
    let c := ctxAt s k
    if spSize c < va + n then (none, ctxFault k fSpRange va s) else (some (spGet s (spBase k c + va) n), s)
  else
    let first := va / 128
    let lines := (List.range ((va + n + 127) / 128 - first)).map (fun i => 128 * (first + i))
    let gathers := h.vsrc && h.sspace == 2
    let got := h.got.getD []
    let r := (lines.zipIdx).foldl (fun (a : Option Bytes × State) l =>
      match a.1 with
      | none => a
      | some b =>
        let h' := if gathers then
            { h with got := if 128 * l.2 < got.length then some (slice got (128 * l.2) 128) else none }
          else h
        let q := copyLineBytes k h' l.1 a.2
        (q.1.map (fun d => b ++ d), q.2)) (some [], s)
    (r.1.map (fun b => slice b (va % 128) n), r.2)

/-- Write a piece to its destination. -/
def copyStore (k : Nat) (h : Copy) (va : Nat) (b : Bytes) (s : State) : State :=
  let c := ctxAt s k
  let n := b.length
  let done (s : State) : State := advanceCopy k n (bumpN 0x5003 9 n s)
  if h.dspace = 0 then
    if spSize c < va + n then ctxFault k fSpRange va s else done (spPut (spBase k c + va) b s)
  else
    let r := copyPlace k h.dspace (if h.rs then 8 else 2) va s
    match r.1 with
    | none => r.2
    | some addr =>
      let core := k / 4
      let s := flushLine (cacheKey core h.dspace (lineNo h.dspace addr)) r.2
      let line := splice (List.replicate 128 0) (va % 128) b
      let mask := byteMask (va % 128) n
      if h.rs then
        let off := addr % 2 ^ 47
        let w := off / 2 ^ 31
        match epWindow s w with
        | none => ctxFault k fFabricErr va s
        | some x =>
          done (reduceStep w x { id := 0, step := h.step, offset := off % 2 ^ 31, lines := b, ctx := some k } s)
      else if h.dspace = 1 then
        let r := lmWrite k (lineNo 1 addr) mask line s
        if r.1 then done r.2 else r.2
      else done (fabricWrite (.copyWrite k) c.tenant (ctxPasid c) (addr / 128) mask line s)

/-- COPY_LINE (R266): the copy at the head of a context moves one piece. -/
def copyStep (k : Nat) (s : State) : State :=
  let c := ctxAt s k
  match c.copies with
  | [] => s
  | h :: _ =>
    if (c.state != .running && c.state != .suspended) || h.paused || h.asked then s
    else if h.ended ≠ 0 ∨ h.rows ≤ h.row then finishCopy k h s
    else
      let (src, dst, n) := pieceOf h
      if h.skip then advanceCopy k n s
      else
        let r := copySource k h src n s
        match r.1 with
        | none => r.2
        | some b =>
          let s := copyStore k h dst b r.2
          match (ctxAt s k).copies with
          | h' :: _ => if h'.ended ≠ 0 ∨ h'.rows ≤ h'.row then finishCopy k h' s else s
          | [] => s

/-! ### Instructions (class 7) -/

/-- No IMM bit beyond the tag. -/
def copyTagLegal (f : IFields) : Bool := decide (f.imm.toNat < 8)

/-- A copy with the tag, issued by the engine, is in progress. -/
def tagBusy (c : Ctx) (e tag : Nat) : Bool := c.copies.any (fun h => h.eng == e && h.tag == some tag)

/-- CPY_COPY (R265): the descriptor lies in the scratchpad at s[A]. -/
def execCpyCopy (w : StreamId) (f : IFields) (s : State) : Host.Outcome State Fault Refusal :=
  .next (issue w (copyTagLegal f) (fun k c x s =>
    let a := (sReg x f.a).toNat
    if a % 4 ≠ 0 then ctxFault k fAlign a s
    else if spSize c < a + 48 then ctxFault k fSpRange a s
    else
      let d := spGet s (spBase k c + a) 48
      if copyLegal d then modStream k w.eng.val nextPc (addCopy k (copyOf d (some f.imm.toNat) w.eng.val) s)
      else ctxFault k fDesc a s) s)

/-- CPY_CWAIT (R268): the stream waits until its copies with the tag have completed. -/
def execCpyCwait (w : StreamId) (f : IFields) (s : State) : Host.Outcome State Fault Refusal :=
  .next (issue w (copyTagLegal f) (fun k c _ s =>
    let t := f.imm.toNat
    modStream k w.eng.val (fun x => nextPc (if tagBusy c w.eng.val t then { x with wait := .copy t } else x)) s) s)

/-- CPY_CTEST (R264): p[D] becomes all ones once they have completed, else all zeros (assumption 23). -/
def execCpyCtest (w : StreamId) (f : IFields) (s : State) : Host.Outcome State Fault Refusal :=
  .next (issue w (copyTagLegal f && decide (f.d.toNat < 8)) (fun k c _ s =>
    let v : BitVec 16 := if tagBusy c w.eng.val f.imm.toNat then 0 else BitVec.allOnes 16
    modStream k w.eng.val (fun x => nextPc (setP f.d.toNat v x)) s) s)

/-- COPY_LINE (R266). -/
def execCopyLine (core : CoreN) (slot : SlotN) (s : State) : Host.Outcome State Fault Refusal := .next (copyStep (ctxKey core slot) s)

end Sys2Proof.Machine
end

