-- ==== Sys2Proof/Machine/Bundle.lean ====
section
/-!
DEFINITION. Weight and kernel bundles (R427, R428): layout, signature, unwrapping and decryption.
-/

namespace Sys2Proof.Machine

open Sys2Proof

/-- The number of the binding key among the private exponents. -/
def bindingLabel : Nat := 0

/-- The binding digest of this part (R418). -/
def bindingDigest : Bytes := natLe 16 (Config.sha512 (Config.bindingValue.take 512)).toNat

/-- TENANT, NRCPT and CT_LEN of a bundle. -/
def bTenant (b : Bytes) : Nat := fieldAt b 6 1 % 16
def bRecipients (b : Bytes) : Nat := fieldAt b 7 1
def bLength (b : Bytes) : Nat := fieldAt b 16 8

/-- The layout is right: MAGIC, VER, KIND, the reserved fields, the counts and the lengths. -/
def bundleForm (b : Bytes) (kinds : List Nat) : Bool :=
  fieldAt b 0 4 == 0x4C444E42 && fieldAt b 4 1 == 1 && kinds.contains (fieldAt b 5 1) && fieldAt b 6 1 < 16
    && decide (1 ≤ bRecipients b) && decide (bRecipients b ≤ 64) && fieldAt b 52 12 == 0
    && b.length == 640 + 64 * bRecipients b + bLength b + 512

/-- The tenant key digest OD 6003.(t + 1); none while it is not set. -/
def tenantKey (s : State) (t : Nat) : Option (BitVec 512) :=
  let k := blobGet s 0x6003 (t + 1)
  if k.length = 64 then some (BitVec.ofNat 512 (leNat k)) else none

/-- The recipient record of this part. -/
def ownRecord (b : Bytes) : Option Bytes :=
  ((List.range (bRecipients b)).map (fun i => slice b (640 + 64 * i) 64)).find? (fun r => r.take 16 == bindingDigest)

/-- Bytes of a text. -/
def textBytes (t : String) : Bytes := t.toList.map (fun c => BitVec.ofNat 8 c.toNat)

/-- The content key wrapped for this part (R428). -/
def unwrapKey (b record : Bytes) : Option Bytes :=
  let z := Config.dhShared bindingLabel (slice b 128 512)
  let kek := Config.hkdf z (slice b 8 8) (textBytes "GV24 bundle wrap" ++ record.take 16) 32
  Config.gcmOpen kek (List.replicate 12 0) (slice b 0 128) (slice record 16 32) (BitVec.ofNat 128 (fieldAt record 48 16))

/-- The content (R428). -/
def openContent (b key : Bytes) : Option Bytes :=
  Config.gcmOpen key (slice b 24 12) (slice b 0 24) (slice b (640 + 64 * bRecipients b) (bLength b)) (BitVec.ofNat 128 (fieldAt b 36 16))

/-- The check of R429 that a bundle fails. -/
inductive BundleFault where
  | form | noKey | signer | recipient | unwrap
  deriving DecidableEq, Repr

/-- The checks of R429 in their order; the content where all hold. -/
def openBundle (s : State) (b : Bytes) (kinds : List Nat) : Except BundleFault Bytes :=
  if bundleForm b kinds = false then .error .form
  else
    match tenantKey s (bTenant b) with
    | none => .error .noKey
    | some key =>
      if BitVec.ofNat 512 (fieldAt b 64 64) ≠ key ∨
          Config.rsaVerify key (b.take (b.length - 512)) (b.drop (b.length - 512)) = false then .error .signer
      else
        match ownRecord b with
        | none => .error .recipient
        | some r =>
          match unwrapKey b r with
          | none => .error .unwrap
          | some ck =>
            match openContent b ck with
            | none => .error .unwrap
            | some c => .ok c

end Sys2Proof.Machine
end

