-- ==== Sys2Proof/Machine/Kernels.lean ====
section
/-!
DEFINITION. The kernel store (R259–R262): staged images, their checks, loading and unloading.
-/

namespace Sys2Proof.Machine

open Sys2Proof

/-- Change the compute array. -/
def modCmp (f : Compute → Compute) (s : State) : State := { s with cmp := f s.cmp }

/-- KERNEL_LOAD: a write of OD 5004.04. -/
def kernelLoad (src : Route) (v : Nat) (s : State) : State :=
  let s := beginOp s
  if s.cmp.loading then refuseRule s
  else modCmp (fun c => { c with loading := true, loadResult := 0, loadKid := 0 }) (onlyOne src 0x5004 4 v s)

/-- The verified image of a staging area: signed, or unwrapped from a bundle with its tenant; else the result code. -/
def stagedImage (s : State) (origin : Nat) (b : Bytes) : Except Nat (Option Nat × Bytes) :=
  if origin = 2 then
    if s.sec.identityOk = false then .error 2
    else match openBundle s b [3] with
      | .ok c => .ok (some (bTenant b), c)
      | .error .form => .error 3
      | .error .noKey => .error 2
      | .error .signer => .error 2
      | .error .recipient => .error 2
      | .error .unwrap => .error 2
  else if b.length < 512 then .error 2
  else
    let img := b.take (b.length - 512)
    if Config.rsaVerify Config.ulukelKey img (b.drop (b.length - 512)) then .ok (none, img) else .error 2

/-- ENTRY of an image. -/
def imageEntries (b : Bytes) : List Nat := (List.range 16).map (fun i => fieldAt b (32 + 4 * i) 4)

/-- The checks of R262 on an image, in the order of their codes; 1 is OK. -/
def imageCode (s : State) (b : Bytes) : Nat :=
  let len := fieldAt b 8 4
  let n := fieldAt b 7 1
  let entries := imageEntries b
  if fieldAt b 0 4 ≠ 0x4E524B47 ∨ fieldAt b 4 1 ≠ 1 ∨ fieldAt b 21 1 / 2 ≠ 0 ∨ fieldAt b 22 2 ≠ 0 ∨ fieldAt b 96 24 ≠ 0 then 3
  else if odGet s 0x5000 1 < fieldAt b 6 1 then 4
  else if fieldAt b 120 8 ≠ (crc64 (slice b 0 120 ++ b.drop 128)).toNat then 5
  else if len % 8 ≠ 0 ∨ len < 8 ∨ 4194304 < len ∨ b.length ≠ 128 + len ∨ n < 1 ∨ 16 < n ∨
      (entries.take n).any (fun e => decide (len / 8 ≤ e)) = true ∨ (entries.drop n).any (fun e => e != 0) = true ∨
      fieldAt b 20 1 < 1 ∨ 4 < fieldAt b 20 1 then 6
  else if 256 ≤ s.cmp.kernels.length ∨ 2 ^ 28 < s.cmp.kernels.foldl (fun n k => n + k.2.code.length) len then 7
  else 1

/-- The kernel of an image. -/
def imageKernel (tenant : Option Nat) (b : Bytes) : Kernel where
  tenant := tenant
  entries := (imageEntries b).take (fieldAt b 7 1)
  spMin := fieldAt b 12 4
  accMin := fieldAt b 16 4
  streamsMin := fieldAt b 20 1
  gang := bit (fieldAt b 21 1) 0
  imageId := BitVec.ofNat 64 (fieldAt b 24 8)
  code := b.drop 128

/-- A 64-byte digest joins the extended measurement 7 or 8 and the list of R422. -/
def extendMeasurement (i : Fin 9) (d : BitVec 512) (s : State) : State :=
  { s with sec := { s.sec with
    meas := s.sec.meas.set i (Config.sha512 (natLe 64 s.sec.meas[i].toNat ++ natLe 64 d.toNat)), mlist := s.sec.mlist ++ [d] } }

/-- Post a load result: cause KERNEL (R381). -/
def postLoad (code kid : Nat) (s : State) : State :=
  raiseCause 8 (modCmp (fun c => { c with loading := false, loadResult := code, loadKid := kid }) s)

/-- A number of zero bytes. -/
def zeros (n : Nat) : Bytes := List.replicate n 0

/-- KERNEL_LOAD_DONE (R261, R262). The lowest free handle is given (assumption 21). -/
def kernelLoadDone (s : State) : State :=
  if s.cmp.loading = false then s
  else
    let off := odGet s 0x5004 1
    let len := odGet s 0x5004 2
    let origin := odGet s 0x5004 3
    let b := (readRun s off len).getD []
    let r := stagedImage s origin b
    -- staging memory that held a bundle is overwritten before the result is posted
    let t := if origin = 2 ∧ closedRange s off len = false ∧ off + len ≤ usable s then clearRegion off len s else s
    if usable s < off + len ∨ closedRange s off len = true then postLoad (if origin = 2 then 3 else 2) 0 t
    else match r with
    | .error code => postLoad code 0 t
    | .ok (tenant, img) =>
      let code := imageCode s img
      if code = 1 then
        let kid := ((List.range 256).map (fun i => i + 1)).find? (fun i => (mapGet s.cmp.kernels i).isNone) |>.getD 256
        let t := modCmp (fun c => { c with kernels := mapSet c.kernels kid (imageKernel tenant img) }) t
        postLoad 1 kid (extendMeasurement 6 (Config.sha512 img) t)
      else postLoad code 0 t

/-- Some context carries out a RUN of the kernel. -/
def kernelRuns (s : State) (kid : Nat) : Bool :=
  s.cmp.ctxs.any (fun e => match e.2.doing with
    | .run k _ => k == kid
    | .none => false
    | .copy => false
    | .wait _ _ _ _ _ _ _ => false
    | .nop => false)

/-- KERNEL_UNLOAD: a write of OD 5004.06. A KID that names no kernel is refused. -/
def kernelUnload (kid : Nat) (s : State) : State :=
  let s := beginOp s
  if (mapGet s.cmp.kernels kid).isNone ∨ kernelRuns s kid then refuseRule s
  else modCmp (fun c => { c with kernels := mapErase c.kernels kid }) s

/-- KERNEL_LOAD (R261). -/
def execKernelLoad (src : Route) (v : BitVec 8) (s : State) : Host.Outcome State Fault Refusal := .next (kernelLoad src v.toNat s)

/-- KERNEL_LOAD_DONE (R262). -/
def execKernelLoadDone (s : State) : Host.Outcome State Fault Refusal := .next (kernelLoadDone s)

/-- KERNEL_UNLOAD (R262). -/
def execKernelUnload (_src : Route) (v : BitVec 16) (s : State) : Host.Outcome State Fault Refusal := .next (kernelUnload v.toNat s)

end Sys2Proof.Machine
end

