-- ==== Sys2Proof/Machine/Array.lean ====
section
/-!
DEFINITION. Contexts and command rings (R252–R258, R379, R380): creation, actions, the records of the ring, the end of a
command with its completion record, and the status words.
-/

namespace Sys2Proof.Machine

open Sys2Proof

/-! ### Creation (R252) -/

/-- Reserved fields and ranges of a descriptor (code DESC). -/
def descWrong (d : Bytes) : Bool :=
  decide (16 ≤ fieldAt d 2 1) || decide (16 ≤ fieldAt d 3 1) || fieldAt d 4 1 == 0 || decide (16 ≤ fieldAt d 4 1)
    || decide (fieldAt d 5 1 < 4) || decide (12 < fieldAt d 5 1) || decide (4 ≤ fieldAt d 6 1) || fieldAt d 7 1 != 0
    || fieldAt d 8 8 % 4096 != 0 || fieldAt d 16 8 % 4096 != 0 || fieldAt d 35 1 != 0 || fieldAt d 38 26 != 0
    || (if fieldAt d 32 2 = 0 then fieldAt d 34 1 != 0 else decide (fieldAt d 34 1 < 2) || decide (64 < fieldAt d 34 1))

/-- The partition is empty, ends beyond unit 224, or overlaps another context's on the core (code SP_RANGE). -/
def partitionWrong (s : State) (k : Nat) (d : Bytes) : Bool :=
  let b := fieldAt d 24 2
  let n := fieldAt d 26 2
  n == 0 || decide (224 < b + n) || (liveSlots s).any (fun e =>
    e.1 / 4 == k / 4 && e.1 != k && rangesMeet b n (descField e.2 24 2) (descField e.2 26 2))

/-- Accumulators of the kernel pool that contexts hold. -/
def poolUsed (s : State) : Nat := (liveSlots s).foldl (fun n e => n + e.2.accCount) 0

/-- The tenancy of a core (R255), and in isolated mode the translation ways of the tenant (R440), do not admit a tenant. -/
def tenantRefused (s : State) (core t : Nat) : Bool :=
  let o := odGet s 0x5002 (core + 1)
  (if o = 16 then isolated s else o != t) || (isolated s && (tenantWays s t).isEmpty)

/-- The fault code that refuses a creation. -/
def createRefusal (s : State) (k : Nat) (d : Bytes) : Option Nat :=
  if descWrong d then some fDesc
  else if partitionWrong s k d then some fSpRange
  else if odGet s 0x5000 5 < poolUsed s + fieldAt d 28 4 then some fAccRange
  else if tenantRefused s (k / 4) (fieldAt d 3 1 % 16) then some fPerm
  else none

/-! ### Actions (R253, R379, R380) -/

/-- An action concludes. -/
def concludeAction (k action result : Nat) (s : State) : State :=
  modCtx k (fun c => { c with actSeq := (c.actSeq + 1) % 2 ^ 32, actValid := true, action := action, result := result }) s

/-- A slot without a context: its registers and its last fault code stay. -/
def emptySlot (c : Ctx) : Ctx :=
  { staging := c.staging, fault := c.fault, actSeq := c.actSeq, actValid := c.actValid, action := c.action, result := c.result }

/-- Accumulators given to a context are cleared first (R291). -/
def clearCtxAccs (k : Nat) (s : State) : State :=
  { s with cmp := { s.cmp with accs := s.cmp.accs.filter (fun e => e.1 / 2 ^ 20 != 128 + k) } }

/-- CONTEXT_CREATE (R252, R380). -/
def contextCreate (k : Nat) (s : State) : State :=
  let c := ctxAt s k
  if c.state ≠ .free then concludeAction k 1 2 s
  else
    let d := slice c.staging 0 64
    match createRefusal s k d with
    | some code => concludeAction k 1 1 (modCtx k (fun c => { c with fault := code }) s)
    | none =>
      concludeAction k 1 0 (clearCtxAccs k (setCtx k { emptySlot c with
        state := .idle, desc := d, tenant := fieldAt d 3 1 % 16, accCount := fieldAt d 28 4, fault := 0 } s))

/-- CONTEXT_DESTROY (R253): refused in RUNNING and SUSPENDED. -/
def contextDestroy (k : Nat) (s : State) : State :=
  let c := ctxAt s k
  if c.state = .idle ∨ c.state = .faulted then concludeAction k 2 0 (setCtx k (emptySlot c) s) else concludeAction k 2 2 s

/-- A context starts the command at its boundary again from its beginning. -/
def restartCtx (k : Nat) (s : State) : State :=
  modCtx k (fun c => { c with
    state := .running, doing := .none, status := 0, detail := 0, fault := 0, failed := 0, copies := [], recorded := false,
    gangLost := false, polling := false, streams := Vector.replicate 4 {} }) s

/-- CONTEXT_RESTART (R253). -/
def contextRestart (k : Nat) (s : State) : State :=
  if (ctxAt s k).state = .faulted then concludeAction k 3 0 (restartCtx k s) else concludeAction k 3 2 s

/-- Discard a context's unwritten dirty bytes: a line that holds those of other contexts too keeps its bytes
(assumption 27). -/
def discardDirty (k : Nat) (s : State) : State :=
  let bit4 : BitVec 4 := BitVec.ofNat 4 (2 ^ (k % 4))
  (coreLines s (k / 4) (fun e => e.2.mask &&& bit4 != 0)).foldl (fun s j =>
    match cacheLine s j with
    | some l => if l.mask = bit4 then dropCache j s else setCache j { l with mask := l.mask &&& ~~~bit4 } s
    | none => s) s

/-- Streams stop, copies are cancelled, unwritten dirty bytes are discarded (R253, R458). -/
def stopCtx (k : Nat) (st : CtxState) (s : State) : State :=
  loseGang k (discardDirty k (modCtx k (fun c => { c with
    state := st, copies := [], streams := c.streams.map (fun x => { x with live := false, wait := .none }) }) s))

/-- Abort a context in any state that has one. -/
def abortCtx (k : Nat) (s : State) : State :=
  if (ctxAt s k).state = .free ∨ (ctxAt s k).state = .aborting then s else stopCtx k .aborting s

/-- CONTEXT_ABORT (R253): from RUNNING, SUSPENDED, FAULTED and HELD. -/
def contextAbort (k : Nat) (s : State) : State :=
  let c := ctxAt s k
  if c.actValid = false then countIgnored s
  else if c.state = .running ∨ c.state = .suspended ∨ c.state = .faulted ∨ c.state = .held then
    stopCtx k .aborting (modCtx k (fun c => { c with actValid := false, action := 4 }) s)
  else concludeAction k 4 2 s

/-! ### Rings (R257, R380) -/

/-- RING_PRODUCER_WRITE (R380): clamped to the ring's length, ignored where it goes back, counted in HST_IGNORED. -/
def producerWrite (k : Nat) (v : BitVec 32) (s : State) : State :=
  let c := ctxAt s k
  if c.state = .free ∨ c.state = .aborting then countIgnored s
  else
    let len := 2 ^ descField c 5 1
    let ahead := (v - c.cons).toNat
    let now := (c.prod - c.cons).toNat
    let back := decide ((c.prod - v).toNat < (v - c.prod).toNat) && v != c.prod
    if back then countIgnored s
    else
      let v' := if len < ahead then c.cons + BitVec.ofNat 32 len else v
      let s := if len < ahead then countIgnored s else s
      modCtx k (fun c => { c with
        prod := v', state := if c.state = .idle ∧ now < (v' - c.cons).toNat then .running else c.state }) s

/-- The place of the next record within the ring. -/
def ringIndex (c : Ctx) : Nat := c.cons.toNat % 2 ^ descField c 5 1

/-- The context can begin a record. -/
def canBegin (c : Ctx) : Bool := c.state == .running && c.doing == .none && c.cons != c.prod

/-- Read the next record of a ring from local memory. -/
def ringRecord (k : Nat) (s : State) : Option Bytes × State :=
  let c := ctxAt s k
  let va := descField c 8 8 + 64 * ringIndex c
  let r := translate (.ring k) 1 1 (ctxPasid c) va s
  match r.1 with
  | .stall => (none, r.2)
  | .fault code => (none, ctxFault k code va r.2)
  | .ok addr =>
    let q := lmRead k (lineNo 1 addr) r.2
    (q.1.map (fun b => slice b (addr % 128) 64), q.2)

/-- The body bytes that a kind leaves unused are 0, and the fields it uses are legal. -/
def recordLegal (b : Bytes) : Bool :=
  decide (fieldAt b 1 1 < 2) && (match fieldAt b 0 1 with
    | 1 => fieldAt b 7 1 == 0 && fieldAt b 40 24 == 0
    | 2 => fieldAt b 4 4 == 0 && fieldAt b 56 8 == 0 && copyLegal (slice b 8 48)
    | 3 => (fieldAt b 4 1 == 1 || fieldAt b 4 1 == 2) && decide (fieldAt b 5 1 ≤ 2) && decide (fieldAt b 6 1 ≤ 5)
        && fieldAt b 7 1 == 0 && fieldAt b 40 24 == 0
    | 4 => fieldAt b 4 60 == 0
    | _ => false)

/-- Begin the next record where it is of this kind; a malformed one raises DESC. -/
def beginRecord (k kind : Nat) (g : Bytes → State → State) (s : State) : State :=
  if canBegin (ctxAt s k) then
    let r := ringRecord k s
    match r.1 with
    | none => r.2
    | some b =>
      let s := modCtx k (fun c => { c with
        seq := fieldAt b 2 2, irq := bit (fieldAt b 1 1) 0 && bit (descField c 6 1) 1, status := 0, detail := 0, failed := 0 }) r.2
      if recordLegal b then (if fieldAt b 0 1 = kind then g b s else r.2)
      else ctxFault k fDesc 0 s
  else s

/-- The context falls short of the kernel, or the kernel is not there for it (R262, R432). -/
def kernelMissing (s : State) (c : Ctx) (kid entry : Nat) : Bool :=
  match mapGet s.cmp.kernels kid with
  | none => true
  | some q =>
    decide (q.entries.length ≤ entry) || decide (spSize c < q.spMin) || decide (c.accCount < q.accMin)
      || decide (popcount 4 (ctxStreams c) < q.streamsMin) || (q.gang && ctxGang c == 0)
      || (q.tenant.getD c.tenant != c.tenant)

/-- A stream as a RUN starts it (R257). -/
def startedStream (k e pc : Nat) (b : Bytes) : Stream where
  live := true
  pc := pc
  s := (List.range 5).foldl (fun m i =>
    let v : Nat := if i < 4 then fieldAt b (8 + 8 * i) 8 else k / 4 * 256 + e
    if v = 0 then m else mapSet m (i + 1) (BitVec.ofNat 64 v)) []

/-- RING_RUN (R257, R262). -/
def ringRun (k : Nat) (s : State) : State :=
  beginRecord k 1 (fun b s =>
    let c := ctxAt s k
    let kid := fieldAt b 4 2
    let entry := fieldAt b 6 1
    if kernelMissing s c kid entry then ctxFault k fKernel 0 s
    else
      let pc := (((mapGet s.cmp.kernels kid).map (fun q => q.entries)).getD []).getD entry 0
      let s := modCtx k (fun c => { c with doing := .run kid entry }) s
      (streamNos c).foldl (fun s e => modStream k e (fun _ => startedStream k e pc b) s) s) s

/-- RING_COPY (R257, R265). -/
def ringCopy (k : Nat) (s : State) : State :=
  beginRecord k 2 (fun b s => addCopy k (copyOf (slice b 8 48) none 0) (modCtx k (fun c => { c with doing := .copy }) s)) s

/-- RING_WAIT (R257). -/
def ringWait (k : Nat) (s : State) : State :=
  beginRecord k 3 (fun b s => modCtx k (fun c => { c with
    doing := .wait (fieldAt b 4 1) (fieldAt b 5 1) (fieldAt b 6 1) (BitVec.ofNat 64 (fieldAt b 8 8)) (BitVec.ofNat 64 (fieldAt b 16 8))
      (BitVec.ofNat 64 (fieldAt b 24 8)) (fieldAt b 32 8) }) s) s

/-- RING_NOP (R257). -/
def ringNop (k : Nat) (s : State) : State := beginRecord k 4 (fun _ s => modCtx k (fun c => { c with doing := .nop }) s) s

/-! ### WAIT (R257, R270) -/

/-- WAIT_POLL: the word is read by an acquire. -/
def waitPoll (k : Nat) (s : State) : State :=
  let c := ctxAt s k
  match c.doing with
  | .wait space _ sc addr _ _ _ =>
    let va := addr.toNat
    if c.state ≠ .running ∨ c.polling = true then s
    else if va % 8 ≠ 0 then ctxFault k fAlign va s
    else
      let r := translate (.ring k) space 1 (ctxPasid c) va s
      match r.1 with
      | .stall => r.2
      | .fault code => ctxFault k code va r.2
      | .ok pa =>
        let s := flushLine (cacheKey (k / 4) space (lineNo space pa)) r.2
        if space = 1 then
          let q := lmRead k (lineNo 1 pa) s
          match q.1 with
          | none => q.2
          | some b =>
            let a := checkAcquire (lineNo 1 pa) sc c.tenant (engineAgent s k 4) q.2
            let s := acquireSteps (k / 4) sc (pollAnswer k b a.2)
            if a.1 then ctxScope k va s else s
        else
          arraySubmit (.poll k) (ctxCommand s k .lda va sc) (pa / 128 * 128)
            (acquireSteps (k / 4) sc (modCtx k (fun c => { c with polling := true }) s))
  | .none => s
  | .run _ _ => s
  | .copy => s
  | .nop => s

/-- WAIT_TIMEOUT: the command ends with STATUS WAIT_TIMEOUT. -/
def waitTimeout (k : Nat) (s : State) : State :=
  let c := ctxAt s k
  match c.doing with
  | .wait _ _ _ _ _ _ t => if t ≠ 0 ∧ c.state = .running then setCtx k { c with doing := .nop, status := 6 } s else s
  | .none => s
  | .run _ _ => s
  | .copy => s
  | .nop => s

/-! ### The end of a command (R258, R274) -/

/-- The command's streams have ended and its copies have completed. -/
def bodyDone (c : Ctx) : Bool :=
  match c.doing with
  | .none => false
  | .run _ _ => (streamNos c).all (fun e => !(streamOf c e).live) && c.copies.isEmpty
  | .copy => c.copies.isEmpty
  | .wait _ _ _ _ _ _ _ => false
  | .nop => c.copies.isEmpty

/-- The completion record. -/
def completionRecord (c : Ctx) (status ft : Nat) : Bytes :=
  natLe 2 c.seq ++ natLe 1 status ++ natLe 1 (if status = 1 then c.fault else 0) ++ natLe 4 (if status = 3 then c.failed else 0)
    ++ natLe 8 ft ++ natLe 8 (if status = 1 then c.detail else 0) ++ zeros 8

/-- Write the completion record of a command with one 32-byte write, and signal its interrupt: `none` while its address is
being translated, `some false` where it cannot be written. -/
def writeRecord (k status : Nat) (s : State) : Option Bool × State :=
  let c := ctxAt s k
  let va := descField c 16 8 + 32 * ringIndex c
  let r := translate (.ring k) 1 2 (ctxPasid c) va s
  match r.1 with
  | .stall => (none, r.2)
  | .fault code => (some false, ctxFault k code va r.2)
  | .ok addr =>
    let line := splice (List.replicate 128 0) (addr % 128) (completionRecord c status s.time.ft)
    let w := lmWrite k (lineNo 1 addr) (byteMask (addr % 128) 32) line r.2
    if w.1 then
      let vec := descField c 36 2
      (some true, if c.irq then (if 2047 < vec then countIgnored w.2 else signal vec w.2) else w.2)
    else (some false, w.2)

/-- COMMAND_END (R258): the steps after the command's body; for a faulted context its write-backs and record (R274). -/
def commandEnd (k : Nat) (s : State) : State :=
  let c := ctxAt s k
  if c.state = .running ∧ bodyDone c = true then
    let s := writeBackCtx k s
    if writesOut s k ∨ (ctxAt s k).state ≠ .running then s
    else
      let r := writeRecord k (ctxAt s k).status s
      if r.1 = some true then
        bump 0x5003 1 (modCtx k (fun c => { c with
          cons := c.cons + 1, doing := .none, status := 0, detail := 0, failed := 0, irq := false,
          state := if c.cons + 1 = c.prod then .idle else .running }) r.2)
      else r.2
  else if c.state = .faulted ∧ c.recorded = false then
    let s := writeBackCtx k s
    if writesOut s k then s
    else
      let r := writeRecord k 1 s
      if r.1 = none then r.2 else modCtx k (fun c => { c with recorded := true }) r.2
  else s

/-- CONTEXT_ABORT_DONE (R253, R258): the record of the aborted command is written, and the slot is FREE. -/
def abortDone (k : Nat) (s : State) : State :=
  let c := ctxAt s k
  if c.state ≠ .aborting then s
  else
    let r := if c.doing = .none ∨ c.recorded = true then (some true, s) else writeRecord k 2 s
    if r.1 = none then r.2
    else
      let s := setCtx k (emptySlot (ctxAt r.2 k)) r.2
      if c.actValid then s else concludeAction k 4 0 s

/-! ### Status words (R278, R379) -/

/-- Code of a state (R253, R458). -/
def ctxCode : CtxState → Nat
  | .free => 0
  | .idle => 1
  | .running => 2
  | .suspended => 3
  | .faulted => 4
  | .aborting => 5
  | .held => 6

/-- Streams that have not executed `end` in the current command. -/
def streamsLive (c : Ctx) : Nat := (List.range 4).foldl (fun n e => n + flag (streamOf c e).live e) 0

/-- OD (5010h + c).(k + 1) and CMP_CTX_STATUS. -/
def ctxStatus (c : Ctx) : Nat :=
  ctxCode c.state * 2 ^ 29 + c.tenant % 16 * 2 ^ 24 + c.fault % 256 * 2 ^ 16 + streamsLive c * 2 ^ 12 + flag c.scopeSeen 11

/-- CMP_CTX_ACT. -/
def actionRecord (c : Ctx) : Nat := c.actSeq * 2 ^ 32 + flag c.actValid 31 + c.action * 2 ^ 16 + c.result * 2 ^ 8

/-- An action written to CMP_CTX_CTRL (R380). -/
def contextAction (k v : Nat) (s : State) : State :=
  if (ctxAt s k).actValid = false then countIgnored s
  else match v % 256 with
  | 1 => contextCreate k s
  | 2 => contextDestroy k s
  | 3 => contextRestart k s
  | 4 => contextAbort k s
  | _ => countIgnored s

/-! ### Meanings -/

/-- CONTEXT_CREATE (R252). -/
def execContextCreate (core : CoreN) (slot : SlotN) (s : State) : Host.Outcome State Fault Refusal :=
  .next (barWrite (contextAction (ctxKey core slot) 1) s)

/-- CONTEXT_DESTROY (R253). -/
def execContextDestroy (core : CoreN) (slot : SlotN) (s : State) : Host.Outcome State Fault Refusal :=
  .next (barWrite (contextAction (ctxKey core slot) 2) s)

/-- CONTEXT_RESTART (R253). -/
def execContextRestart (core : CoreN) (slot : SlotN) (s : State) : Host.Outcome State Fault Refusal :=
  .next (barWrite (contextAction (ctxKey core slot) 3) s)

/-- CONTEXT_ABORT (R253). -/
def execContextAbort (core : CoreN) (slot : SlotN) (s : State) : Host.Outcome State Fault Refusal :=
  .next (barWrite (contextAction (ctxKey core slot) 4) s)

/-- RING_PRODUCER_WRITE (R380). -/
def execRingProducerWrite (core : CoreN) (slot : SlotN) (v : BitVec 32) (s : State) : Host.Outcome State Fault Refusal :=
  .next (barWrite (producerWrite (ctxKey core slot) v) s)

/-- RING_RUN (R257). -/
def execRingRun (core : CoreN) (slot : SlotN) (s : State) : Host.Outcome State Fault Refusal := .next (ringRun (ctxKey core slot) s)

/-- RING_COPY (R257). -/
def execRingCopy (core : CoreN) (slot : SlotN) (s : State) : Host.Outcome State Fault Refusal := .next (ringCopy (ctxKey core slot) s)

/-- RING_WAIT (R257). -/
def execRingWait (core : CoreN) (slot : SlotN) (s : State) : Host.Outcome State Fault Refusal := .next (ringWait (ctxKey core slot) s)

/-- WAIT_POLL (R257). -/
def execWaitPoll (core : CoreN) (slot : SlotN) (s : State) : Host.Outcome State Fault Refusal := .next (waitPoll (ctxKey core slot) s)

/-- WAIT_TIMEOUT (R257). -/
def execWaitTimeout (core : CoreN) (slot : SlotN) (s : State) : Host.Outcome State Fault Refusal :=
  .next (waitTimeout (ctxKey core slot) s)

/-- RING_NOP (R257). -/
def execRingNop (core : CoreN) (slot : SlotN) (s : State) : Host.Outcome State Fault Refusal := .next (ringNop (ctxKey core slot) s)

end Sys2Proof.Machine
end

