-- ==== Sys2Proof/Machine/Auction.lean ====
section
/-!
DEFINITION. The auctioneer (R136–R139, R226–R233): reserved slots, the read-port limit, the four iterations of the
open-slot match, classes and counters, congestion marks, and the departure of a cell.
-/

namespace Sys2Proof.Machine

open Sys2Proof

/-! ### What an output may take -/

/-- A tick withheld by the throttle pattern (R499). -/
def withheld (s : State) : Bool := decide (8 - s.pwr.level ≤ s.time.ft / 64 % 8) && decide (0 < s.pwr.level)

/-- A half-width link takes a cell in even ticks only (R82). -/
def paced (s : State) (p : PortN) : Bool := !halfWidth (s.port p) || s.time.ft % 2 == 0

/-- The output can take an open cell of a VC (R88, R136). -/
def outputReady (s : State) (o vc : Nat) : Bool :=
  if h : o < 24 then
    let p : PortN := ⟨o, h⟩
    linkReady s p && (s.port p).status == 1 && paced s p && (vc == 11 || !keysPending s p) && decide (0 < creditFor s p vc)
  else true

/-- The output's port may fire the reserved entries of its section (R229). -/
def sectionReady (s : State) (o : Nat) : Bool :=
  if h : o < 24 then
    let p : PortN := ⟨o, h⟩
    linkReady s p && (s.port p).status == 1 && !keysPending s p && halfWidth (s.port p) == halfSection s o
  else true

/-- VCs of a class, highest stage first (R231, R232). -/
def classVcs (k : Nat) : List Nat :=
  if k = 0 then [3, 2, 1, 0] else if k = 1 then [7, 6, 5, 4] else if k = 2 then [8] else [11]

/-- The eligible queue that an input offers an output in a class, for the owner of the slot (R127, R136, R232). -/
def offer (s : State) (i o k tenant : Nat) : Option Nat :=
  (classVcs k).findSome? (fun vc =>
    let key := voqKey (isolated s) i o vc tenant
    match voq s key with
    | [] => none
    | q :: _ => if outputReady s o vc && !voqHeld s key && !untaken s o q.cell then some key else none)

/-! ### Counters of the open-slot arbitration (R232) -/

/-- Who owns the open slot of an output: the counter set, its classes and the tenant. -/
structure Owner where
  set : Nat
  classes : List Nat
  tenant : Nat

/-- The owner of output `o`'s open slot in this tick; none where the slot stays idle. -/
def ownerOf (s : State) (o : Nat) : Option Owner :=
  if isolated s then
    if (calEntry s o s.time.ft).isSome || s.time.holdCycle then none
    else
      let r := rotationNow s s.time.ft
      if r = 16 then some { set := 32 * o + 16, classes := [2, 3], tenant := 0 }
      else some { set := 32 * o + r, classes := [0, 1], tenant := r }
  else some { set := 32 * o + 17, classes := [0, 1, 2, 3], tenant := 0 }

/-- A counter set; every counter starts at its weight. -/
def dset (s : State) (k : Nat) : DSet := mapGetD s.cal.dsets k { d := (weightsNow s).map (fun w => (w : Int)) }

/-- The classes of an owner in the order in which they are served. -/
def openClasses (s : State) (w : Owner) : List Nat :=
  let x := dset s w.set
  let order := ((List.range 4).map (fun k => (x.ptr + k) % 4)).filter (fun k => w.classes.contains k)
  order.filter (fun k => decide (0 < x.d.getD k 0)) ++ order.filter (fun k => decide (x.d.getD k 0 ≤ 0))

/-- A grant to class `k`. -/
def chargeClass (w : Owner) (k : Nat) (s : State) : State :=
  let x := dset s w.set
  let ws := weightsNow s
  let d := if 0 < x.d.getD k 0 then x.d
    else (List.range 4).map (fun j =>
      let v := x.d.getD j 0
      let wt : Int := (ws.getD j 1 : Nat)
      if w.classes.contains j then min wt (v + wt) else v)
  modCal (fun c => { c with dsets := mapSet c.dsets w.set { d := d.set k (d.getD k 0 - 1), ptr := (k + 1) % 4 } }) s

/-! ### Departure -/

/-- The mark of a cell that leaves a queue of `depth` cells (R121, R139). -/
def markFor (s : State) (depth : Nat) (c : Cell) : Cell :=
  if c.vc.toNat < 4 then
    let level := ((List.range 3).filter (fun k => decide (odGet s 0x3300 (k + 1) ≤ depth))).length
    { c with cmark := BitVec.ofNat 2 (max level c.cmark.toNat) }
  else c

/-- A cell leaves on an output: a link, or the resident BEP. -/
def sendOut (o : Nat) (c : Cell) (s : State) : State :=
  if h : o < 24 then issueCell ⟨o, h⟩ c s else { s with bep := { s.bep with intake := s.bep.intake ++ [c] } }

/-- The head of a queue leaves on an output. -/
def sendHead (key : Nat) (s : State) : State :=
  match voq s key with
  | [] => s
  | q :: r =>
    let o := voqOut key
    let c := markFor s (r.length + 1) q.cell
    let c := match leaderEntry s o q.cell with
      | some (_, e) => leaderCell e c
      | none => c
    let s := setVoq key r s
    let s := if isRequest c.op then noteDeparture o q.cell s else grottoDepart o c s
    progress (.voq (voqIn key) o (voqVc key) (voqTenant key)) (releaseCopy q.store q.index (sendOut o c s))

/-! ### One tick -/

/-- The auction of one tick: the state, reads left of each input, buffers read for reserved slots, free outputs. -/
structure Turn where
  s : State
  reads : List Nat := List.replicate 25 2
  buffers : List (Nat × Nat) := []
  free : List Nat := List.range 25

/-- A scheduled cell leaves on an output (R226, R305). -/
def sendScheduled (i e o : Nat) (c : Cell) (s : State) : State :=
  if h : o < 24 then
    let c := { c with addr := mkAddr (partnerName (s.port ⟨o, h⟩)) (cellOff c) }
    let s := issueCell ⟨o, h⟩ c s
    if eInput e = 24 then departed i e o s else noteDelivery i c o s
  else engineTake i (eInput e) c s

/-- The cell that a reserved entry finds ready at its tick. -/
def readyCell (s : State) (w : Win) (e o : Nat) : Option Cell :=
  if eInput e = 24 then departing s w e o
  else
    let b := sbufAt s (eInput e) (eSbuf e)
    if b.ready ≤ s.time.ft then b.cell else none

/-- The reserved entry of one output (R137, R227, R229). -/
def reservedSlot (o : Nat) (t : Turn) : Turn :=
  match calEntry t.s o t.s.time.ft with
  | none => t
  | some e =>
    let input := eInput e
    let buf := (input, eSbuf e)
    let index := 0x4110 + o
    let release (sent : Bool) (s : State) : State := if input < 24 then releaseRef input (eSbuf e) sent s else s
    match slotOf t.s (eWindow e) with
    | none => { t with s := release false (bump index 3 t.s) }
    | some (i, _) =>
      -- the primary compares the mirror's digests before its verdict (R330)
      let t := if input = 24 ∧ eChunk e = 0xFFFFF then { t with s := checkDigests i t.s } else t
      let w := winAt t.s i
      if slotsFiring t.s && !t.s.time.holdCycle && sectionReady t.s o && !t.s.cal.stopped.contains (eTenant e) then
        let known := t.buffers.contains buf
        if known || decide (0 < t.reads.getD input 0) then
          match readyCell t.s w e o with
          | some c =>
            { t with
              s := release true (sendScheduled i e o c (bump index 1 t.s)),
              reads := if known then t.reads else t.reads.set input (t.reads.getD input 0 - 1),
              buffers := if known then t.buffers else t.buffers ++ [buf],
              free := t.free.filter (fun x => x != o) }
          | none => { t with s := release false (slotMissed i e (bump index 2 t.s)) }
        else
          let s := if (readyCell t.s w e o).isSome then bump 0x3300 0x17 t.s else t.s
          { t with s := release false (slotMissed i e (bump index 2 s)) }
      else if t.s.cal.stopped.contains (eTenant e) then { t with s := release false (bump index 3 t.s) }
      else { t with s := release false (slotMissed i e (bump index 3 t.s)) }

/-- Inputs in circular order from a pointer. -/
def circle (from_ : Nat) : List Nat := (List.range 25).map (fun k => (from_ + k) % 25)

/-- The grant of one free output: input, queue and class. -/
def grantFor (t : Turn) (o : Nat) : Option (Nat × Nat × Nat × Owner) :=
  match ownerOf t.s o with
  | none => none
  | some w =>
    (openClasses t.s w).findSome? (fun k =>
      (circle (t.s.sw.gptr.toList.getD o 0)).findSome? (fun i =>
        if t.reads.getD i 0 = 0 then none else (offer t.s i o k w.tenant).map (fun key => (i, key, k, w))))

/-- An input accepts grants, up to its reads left, first at or after its pointer. -/
def acceptFor (iter : Nat) (grants : List (Nat × Nat × Nat)) (t : Turn) (i : Nat) : Turn :=
  let mine := (circle (t.s.sw.aptr.toList.getD i 0)).filterMap (fun o => grants.find? (fun g => g.1 == o && g.2.1 == i))
  (mine.take (t.reads.getD i 0)).foldl (fun t g =>
    let s := sendHead g.2.2 t.s
    let s := if iter = 0 then
        { s with sw := { s.sw with
          gptr := s.sw.gptr.setIfInBounds g.1 ((i + 1) % 25), aptr := s.sw.aptr.setIfInBounds i ((g.1 + 1) % 25) } }
      else s
    { t with s := s, reads := t.reads.set i (t.reads.getD i 0 - 1), free := t.free.filter (fun x => x != g.1) }) t

/-- One of the four iterations. -/
def iterate (iter : Nat) (t : Turn) : Turn :=
  let found := t.free.filterMap (fun o => (grantFor t o).map (fun g => (o, g)))
  let t := { t with s := found.foldl (fun s x => chargeClass x.2.2.2.2 x.2.2.2.1 s) t.s }
  (List.range 25).foldl (acceptFor iter (found.map (fun x => (x.1, x.2.1, x.2.2.1)))) t

/-- The auction at the current tick (R137). -/
def auction (s : State) : State :=
  if s.time.ft % s.time.round = 0 then s
  else
    let t := (List.range 25).foldl (fun t o => reservedSlot o t) { s := s }
    let t := if withheld t.s then t else (List.range 4).foldl (fun t n => iterate n t) t
    takeHeads (serveReplies t.s)

/-! ### Meanings -/

/-- AUCTION_TICK (R137): the auction of the current tick, and then the next core cycle. -/
def execAuctionTick (s : State) : Host.Outcome State Fault Refusal := .next (coreCycle (auction s))

end Sys2Proof.Machine
end

