-- ==== Sys2Proof/Machine/Link.lean ====
section
/-!
DEFINITION. Links (R62–R93): training, the exchange, rate matching, detectors, retry, the receive path up to the
staging of R126, and the role, medium, credit, share and coordinate writes of R15–R23, R123 and R131.
-/

namespace Sys2Proof.Machine

open Sys2Proof

/-! ### Lanes -/

/-- Change every lane of a port. -/
def mapLanes (f : Nat → Lane → Lane) (q : Port) : Port := { q with lanes := Vector.ofFn (fun i => f i.val q.lanes[i]) }

/-- Change one lane. -/
def modLane (p : PortN) (l : LaneN) (f : Lane → Lane) : State → State :=
  modPort p (fun q => { q with lanes := q.lanes.set l (f q.lanes[l]) })

/-- Lanes L0–L3. -/
def lowerHalf : List Nat := [0, 1, 2, 3]

/-- Lanes L4–L7. -/
def upperHalf : List Nat := [4, 5, 6, 7]

/-- Does a mask of lanes hold all four lanes of at least one half? -/
def halfIn (m : Nat) : Bool := lowerHalf.all (fun i => bit m i) || upperHalf.all (fun i => bit m i)

/-- RX_GOOD: lanes received without fault (R70). -/
def rxGood (q : Port) : Nat := laneMask q (fun l => !l.failed && !l.los && !l.lol)

/-- Lanes that are not marked failed. -/
def unfailed (q : Port) : Nat := laneMask q (fun l => !l.failed)

/-- A lane as it enters DETECT or LOCK: alignment is lost. -/
def freshLane (l : Lane) : Lane :=
  { l with done := false, offset := 0, hits := 0, inUse := false, deskewed := false, fecAligned := false, locked := false }

/-- The failed marks are cleared. -/
def clearMark (l : Lane) : Lane := { l with failed := false, cause := 0 }

/-- Mark the lanes outside a mask failed with a cause, keeping an earlier cause. -/
def markOutside (m cause : Nat) : Nat → Lane → Lane :=
  fun i l => if bit m i || l.failed then l else { l with failed := true, cause := cause }

/-- The time lane: the lowest lane in use (R39). -/
def timeLane (q : Port) : Option Nat := (List.range 8).find? (fun i => bit (laneMask q (fun l => l.inUse)) i)

/-! ### Training sets (R70) -/

/-- ID_DIGEST of this GV24 (R70). -/
def ownDigest : BitVec 128 := (Config.sha512 Config.identityKey).extractLsb' 0 128

/-- Bytes 0–31 of a training set. -/
def trainingBytes (x : TrainingSet) : Bytes :=
  natLe 1 x.lpvMin.toNat ++ natLe 1 x.lpvMax.toNat ++ natLe 1 x.kind.toNat ++ natLe 1 x.flags.toNat
    ++ natLe 2 x.coord.toNat ++ natLe 2 x.assign.toNat ++ natLe 1 x.rxGood.toNat ++ natLe 1 x.width.toNat
    ++ natLe 2 x.nextSeq.toNat ++ natLe 1 x.bepRev.toNat ++ natLe 3 x.rsv.toNat ++ natLe 16 x.idDigest.toNat

/-- A valid set: CHECK holds and KIND is 1 or 2. -/
def trainingGood (x : TrainingSet) : Bool := x.check == crc32c (trainingBytes x) && (x.kind == 1 || x.kind == 2)

/-- The width two masks give (R75). -/
def widthOf (own partner : Nat) (halves : Bool) : Width :=
  let m := own &&& partner
  if m % 256 = 255 then .full
  else if !halves then .none
  else if lowerHalf.all (fun i => bit m i) then .lower
  else if upperHalf.all (fun i => bit m i) then .upper
  else .none

/-- Half-width degradation is on (R90). -/
def degradationOn (s : State) (p : PortN) : Bool := odGet s (portIndex p 9) 2 == 1

/-- The width this side computes; none before any valid set (R75). -/
def ownWidth (s : State) (p : PortN) : Width :=
  match (s.port p).lastSet with
  | some x => widthOf (rxGood (s.port p)) x.rxGood.toNat (degradationOn s p)
  | none => .none

/-- The training set that a port sends. -/
def trainingSet (s : State) (p : PortN) : TrainingSet :=
  let q := s.port p
  let x : TrainingSet :=
    { lpvMin := BitVec.ofNat 8 (odGet s 0x2400 1), lpvMax := BitVec.ofNat 8 (odGet s 0x2400 2), kind := 2,
      flags := BitVec.ofNat 8 (flag q.ready 0 + flag q.sendReset 1), coord := coord s p.val,
      assign := if role s p = 1 then coord s p.val else 0xFFFF, rxGood := BitVec.ofNat 8 (rxGood q),
      width := BitVec.ofNat 8 (widthCode (ownWidth s p)), nextSeq := q.expSeq.zeroExtend 16, bepRev := 0, rsv := 0,
      idDigest := ownDigest, check := 0 }
  { x with check := crc32c (trainingBytes x) }

/-- Send training sets: the transcript records one where its contents change (assumption 3). -/
def sendTraining (p : PortN) (s : State) : State := emit (.trainingSet p.val (trainingSet s p)) s

/-! ### Losing a partner (R19, R128, R219, R321, R471) -/

/-- The own end-point port of an assigned GV24. -/
def endPointPort (s : State) (p : PortN) : Bool := role s p == 1 && assigned s

/-- An end-point's coordinate enters the muster's change set (R471). -/
def changeEndPoint (p : PortN) (s : State) : State :=
  let c := (coord s p.val).toNat
  if endPointPort s p && !s.muster.change.contains c then
    { s with muster := { s.muster with change := s.muster.change ++ [c] } }
  else s

/-- The flush of a port: queues (R128), the directory's member (R219), the change set (R471), windows (R321). -/
def flushPort (p : PortN) (s : State) : State :=
  let s := changeEndPoint p (loseMember p.val (flushQueues p.val s))
  if endPointPort s p then markLostAt (coord s p.val) s else s

/-- The partner is gone: PORT_STATUS and PARTNER_KIND 0 (R19). -/
def noPartner (p : PortN) : State → State := modPort p (fun q => { q with status := 0, partnerKind := 0 })

/-- Discard the replay buffer, counting its cells, and restart the sequences (R87). -/
def discardReplay (p : PortN) (s : State) : State :=
  let s := bumpN (portIndex p 7) 9 (s.port p).replay.length s
  modPort p (fun q => { q with replay := [], nextSeq := 0, expSeq := 0, inError := false, replayCount := 0 }) s

/-- SEQ_RESET is sent or received on a port (R87, R219, R222, R471). -/
def seqReset (p : PortN) (s : State) : State :=
  changeEndPoint p (memberDrop p.val (loseMember p.val (discardReplay p s)))

/-! ### State changes (R71) -/

/-- A port leaves ACTIVE: cause LINK, and the hold time runs (R87, R381). -/
def leaveActive (p : PortN) (s : State) : State :=
  if (s.port p).train = .active then
    raiseCause 6 (modPort p (fun q => mapLanes (fun _ l => { l with inUse := false })
      { q with holding := true, width := .none }) s)
  else s

/-- Enter a training state below ACTIVE. -/
def toState (t : Train) (p : PortN) (s : State) : State :=
  modPort p (fun q => { q with
    train := t, versionFail := false, ready := false, readySeen := false, sameSets := 0, lastSet := none, seenReset := false })
    (leaveActive p s)

/-- Enter DISABLED (R19, R128). -/
def toDisabled (p : PortN) (s : State) : State :=
  let s := toState .disabled p s
  flushPort p (noPartner p (modPort p (fun q =>
    mapLanes (fun _ l => clearMark (freshLane l)) { q with version := 0, holding := false }) s))

/-- Enter DETECT: the failed marks are cleared. -/
def toDetect (p : PortN) (s : State) : State :=
  sendTraining p (modPort p (fun q => mapLanes (fun _ l => clearMark (freshLane l)) { q with version := 0 }) (toState .detect p s))

/-- Enter DETECT from DISABLED (R19, R87, R128). -/
def wakePort (p : PortN) (s : State) : State :=
  let s := seqReset p (noPartner p s)
  let s := modPort p (fun q => { q with holdExpired := true, sendReset := true, holding := false }) s
  toDetect p (flushPort p s)

/-- Enter LOCK; a retrain request clears the failed marks (R83). -/
def toLock (clear : Bool) (p : PortN) (s : State) : State :=
  sendTraining p (modPort p (mapLanes (fun _ l => if clear then clearMark (freshLane l) else freshLane l)) (toState .lock p s))

/-- Enter EXCHANGE. -/
def toExchange (p : PortN) (s : State) : State := sendTraining p (toState .exchange p s)

/-- Is the port in a state from LOCK to EXCHANGE? -/
def inTraining (t : Train) : Bool := t == .lock || t == .slip || t == .fecAlign || t == .deskew || t == .exchange

/-- Go on from LOCK, SLIP, FEC_ALIGN or DESKEW with the lanes of a mask: the others are marked failed; without a whole
half the port stays until its timeout. -/
def advance (p : PortN) (m cause : Nat) (next : State → State) (s : State) : State :=
  let good := m &&& unfailed (s.port p)
  let s := modPort p (mapLanes (markOutside good cause)) s
  if halfIn good then next s else s

/-! ### Detectors and lane failure (R80, R81) -/

/-- A lane in use fails in ACTIVE (R81). -/
def laneFailure (p : PortN) (l : LaneN) (cause : Nat) (s : State) : State :=
  let s := log 0x2002 [p.val, l.val, cause] (modLane p l (fun x => { x with failed := true, cause := cause }) s)
  toExchange p s

/-- After a detector asserts on a lane: lane failure, or the step to DETECT (R71, R80). -/
def detected (p : PortN) (l : LaneN) (s : State) : State :=
  let q := s.port p
  let use := q.lanes[l].inUse
  let s := if timeLane q = some l.val then makeSuspect p s else s
  if q.train = .active ∧ use = true then
    if q.lanes.toList.all (fun x => !x.inUse || x.los) then toDetect p (log 0x2002 [p.val, l.val, 1] s)
    else laneFailure p l 1 s
  else
    let s := log 0x2002 [p.val, l.val, 1] s
    if inTraining q.train && q.lanes.toList.all (fun x => x.los) then toDetect p s else s

/-- LOS_ASSERT (R80). -/
def losAssert (p : PortN) (l : LaneN) (s : State) : State :=
  detected p l (bump (portIndex p 4) (0x11 + l.val) (modLane p l (fun x => { x with los := true, locked := false }) s))

/-- LOL_ASSERT (R80). -/
def lolAssert (p : PortN) (l : LaneN) (s : State) : State :=
  detected p l (bump (portIndex p 4) (0x21 + l.val) (modLane p l (fun x => { x with lol := true, locked := false }) s))

/-- LOS_CLEAR (R71, R80): a port whose optical engine is off stays in DETECT (R502). -/
def losClear (p : PortN) (l : LaneN) (s : State) : State :=
  if (s.port p).engineOff then s
  else
    let s := modLane p l (fun x => { x with los := false }) s
    if (s.port p).train = .detect ∧ halfIn (laneMask (s.port p) (fun x => !x.los)) = true then toLock false p s else s

/-- An optical engine turns its lasers off: a lane failure with cause LOS on every lane (R498, R502). -/
def lasersOff (p : PortN) (s : State) : State :=
  if medium s p = 1 then
    let s := if (timeLane (s.port p)).isSome then makeSuspect p s else s
    let s := modPort p (fun q => mapLanes (fun _ l => { l with los := true, locked := false }) { q with engineOff := true }) s
    let s := (List.range 8).foldl (fun s l => log 0x2002 [p.val, l, 1] s) s
    if (s.port p).train = .active ∨ inTraining (s.port p).train = true then toDetect p s else s
  else modPort p (fun q => { q with engineOff := true }) s

/-- LASER_FAULT (R89): on a port with an optical engine. -/
def laserFault (p : PortN) (l : LaneN) (s : State) : State :=
  if medium s p = 1 then
    if (s.port p).train = .active then (if (s.port p).lanes[l].inUse then laneFailure p l 1 s else s)
    else if inTraining (s.port p).train then
      log 0x2002 [p.val, l.val, 1] (modLane p l (fun x => { x with failed := true, cause := 1 }) s)
    else s
  else s

/-- UNCORRECTABLE_THRESHOLD (R81). -/
def uncorrectableThreshold (p : PortN) (l : LaneN) (s : State) : State :=
  if (s.port p).train = .active ∧ (s.port p).lanes[l].inUse = true then laneFailure p l 3 s else s

/-! ### LOCK to DESKEW (R71–R74) -/

/-- CDR_LOCK (R71, R73). -/
def cdrLock (p : PortN) (lanes : Nat) (s : State) : State :=
  if (s.port p).train = .lock then
    let s := modPort p (mapLanes (fun i l => if bit lanes i then { l with locked := true, lol := false } else l)) s
    advance p lanes 1 (fun s => log 0x2001 [p.val] (sendTraining p (toState .slip p s))) s
  else s

/-- SLIP_WINDOW_DONE (R92): a window of 65,536 symbols ends. -/
def slipWindowDone (p : PortN) (l : LaneN) (hits : Nat) (s : State) : State :=
  if (s.port p).train = .slip then modLane p l (fun x => { x with done := true, hits := min 0xFFFF hits }) s else s

/-- BIT_SLIP (R73, R90). -/
def bitSlip (src : Route) (p : PortN) (l : LaneN) (v : Nat) (s : State) : State :=
  let s := if v ≤ 9 then s else clamped src (portIndex p 3) (0x11 + l.val) (scalarPlace 8) v 9 s
  if (s.port p).train = .slip then
    modLane p l (fun x => { x with offset := (x.offset + min v 9) % 10, done := false }) s
  else s

/-- ALIGNMENT_DONE (R73). -/
def alignmentDone (src : Route) (p : PortN) (v : Nat) (s : State) : State :=
  let s := onlyOne src (portIndex p 2) 5 v s
  if (s.port p).train = .slip then
    advance p (laneMask (s.port p) (fun l => decide (1024 ≤ l.hits))) 2
      (fun s => sendTraining p (modPort p (fun q => { q with slipTimeout := false }) (toState .fecAlign p s))) s
  else s

/-- CODEWORD_ALIGNED (R74). -/
def codewordAligned (p : PortN) (lanes : Nat) (s : State) : State :=
  if (s.port p).train = .fecAlign then
    let s := modPort p (mapLanes (fun i l => { l with fecAligned := bit lanes i && !l.failed })) s
    advance p lanes 2 (fun s => sendTraining p (toState .deskew p s)) s
  else s

/-- DESKEW_DONE (R74). -/
def deskewDone (p : PortN) (lanes : Nat) (s : State) : State :=
  if (s.port p).train = .deskew then
    let s := modPort p (mapLanes (fun i l => { l with deskewed := bit lanes i && !l.failed })) s
    advance p lanes 2 (toExchange p) s
  else s

/-- A training state's timeout leads to DETECT (R71). -/
def stateTimeout (t : Train) (p : PortN) (s : State) : State := if (s.port p).train = t then toDetect p s else s

/-! ### Exchange (R75, R76) -/

/-- The fields of R75 that eight sets must agree in: bytes 0–2, 4–9 and 12–31. -/
def sameExchange (a b : TrainingSet) : Bool :=
  decide ({ a with flags := 0, nextSeq := 0, check := 0 } = { b with flags := 0, nextSeq := 0, check := 0 })

/-- The common version, where one exists (R75). -/
def commonVersion (s : State) (x : TrainingSet) : Option Nat :=
  let v := min (odGet s 0x2400 2) x.lpvMax.toNat
  if max (odGet s 0x2400 1) x.lpvMin.toNat ≤ v then some v else none

/-- Judge the exchange by the set just received. -/
def judgeExchange (p : PortN) (x : TrainingSet) (s : State) : State :=
  match commonVersion s x with
  | none =>
    if (s.port p).versionFail then s
    else log 0x2005 [p.val] (modPort p (fun q => { q with versionFail := true }) s)
  | some v =>
    let w := ownWidth s p
    if w = .none then toDetect p (modPort p (fun q => { q with widthFail := true }) s)
    else
      let before := trainingSet s p
      let s := modPort p (fun q => { q with
        version := v, ready := decide (8 ≤ q.sameSets) && widthCode w == x.width.toNat,
        readySeen := q.readySeen || x.flags.getLsbD 0 }) s
      if trainingSet s p = before then s else sendTraining p s

/-- A valid set in EXCHANGE. -/
def takeTraining (p : PortN) (x : TrainingSet) (s : State) : State :=
  let s := modPort p (fun q => { q with
    sameSets := match q.lastSet with
      | some y => if sameExchange x y then q.sameSets + 1 else 1
      | none => 1
    lastSet := some x }) s
  let s :=
    if x.flags.getLsbD 1 && !(s.port p).seenReset then
      modPort p (fun q => { q with seenReset := true }) (seqReset p s)
    else s
  judgeExchange p x s

/-- TRAINING_SET_RECEIVE (R70, R71, R75). -/
def trainingReceive (p : PortN) (x : TrainingSet) (s : State) : State :=
  let t := (s.port p).train
  if t ≠ .exchange ∧ t ≠ .active then s
  else if !trainingGood x then bump (portIndex p 8) 4 s
  else if t = .active then takeTraining p x (toExchange p s)
  else takeTraining p x s

/-- PORT_STATUS by R17. -/
def portStatus (s : State) (p : PortN) (kind : Nat) (c : BitVec 16) : Nat :=
  let r := role s p
  let judged := assigned s && c != 0xFFFF && kind == 2
  let sameGroup := coordG c == odGet s 0x3000 1
  if (r = 1 ∧ kind = 2) ∨ (r ≠ 1 ∧ kind = 1) then 2
  else if c = 0xFFFF then 3
  else if judged ∧ ((r = 2 ∧ sameGroup = false) ∨ (r = 3 ∧ sameGroup = true)) then 2
  else if judged ∧ ownGv s c = true then 4
  else 1

/-- The revision taken from an end-point's BEP_REV (R200). -/
def revision (v : Nat) : Nat := if v = 0 then 1 else min 2 v

/-- The partner's identity is recorded and judged (R17, R76, R200, R435). -/
def recordIdentity (p : PortN) (x : TrainingSet) (s : State) : State :=
  let old := (s.port p).status
  let st := portStatus s p x.kind.toNat x.coord
  let s := modPort p (fun q => { q with
    partnerCoord := x.coord, partnerKind := x.kind.toNat, status := st,
    partnerRev := if x.kind = 1 then revision x.bepRev.toNat else 0, idDigest := x.idDigest,
    key := { q.key with
      ms := match q.key.ms with
        | some (m, d) => if d = x.idDigest then some (m, d) else none
        | none => none
      txKey := none, rxKey := none, txPend := none, rxPend := none, age := 0, since := s.time.ft } }) s
  let s := if x.kind = 1 ∧ x.bepRev = 0 then log 0x2005 [p.val] s else s
  if st ≠ 1 ∧ st ≠ old then log 0x2003 [p.val, st] s else s

/-! ### Retry (R84–R87) -/

/-- Cells whose SEQ an ACK covers leave the replay buffer. -/
def takeAck (p : PortN) (ack : BitVec 12) (s : State) : State :=
  let q := s.port p
  match q.replay with
  | [] => s
  | (seq0, _) :: _ =>
    let n := (ack - seq0).toNat + 1
    if n ≤ q.replay.length then modPort p (fun q => { q with replay := q.replay.drop n, replayCount := 0 }) s else s

/-- Send every cell of the replay buffer again, in SEQ order, counting each (R86). -/
def resendCells (p : PortN) (s : State) : State :=
  let q := s.port p
  let s := bumpN (portIndex p 7) 6 q.replay.length s
  q.replay.foldl (fun s e => emit (.cell p.val e.1.toNat (q.expSeq - 1).toNat e.2) s) s

/-- Start a replay; a ninth from one SEQ is a retry exhaustion (R86). -/
def replayFrom (p : PortN) (timeout : Bool) (s : State) : State :=
  let q := s.port p
  match q.replay with
  | [] => s
  | (seq0, _) :: _ =>
    if q.train ≠ .active then s
    else
      let n := if q.replaySeq = seq0 then q.replayCount else 0
      if 8 ≤ n then toLock false p (log 0x2004 [p.val, 0] (bump (portIndex p 7) 8 s))
      else
        let s := modPort p (fun q => { q with replaySeq := seq0, replayCount := n + 1 }) s
        resendCells p (if timeout then bump (portIndex p 7) 7 s else s)

/-- A NAK has been received (R86). -/
def nakTaken (p : PortN) (ack : BitVec 12) (s : State) : State :=
  replayFrom p false (takeAck p ack (bump (portIndex p 7) 5 s))

/-- ACTIVE_ENTRY (R75, R76, R87, R106, R125). -/
def activeEntry (p : PortN) (s : State) : State :=
  let q := s.port p
  match q.lastSet with
  | none => s
  | some x =>
    if q.train = .exchange ∧ q.ready = true ∧ q.readySeen = true then
      let w := ownWidth s p
      let changed := q.lastWidth ≠ .none ∧ q.lastWidth ≠ w
      let uses (i : Nat) : Bool := w == .full || (w == .lower && decide (i < 4)) || (w == .upper && decide (4 ≤ i))
      let first (w : Width) : Nat := if w = .upper then 4 else 0
      let s := modPort p (fun q => mapLanes (fun i l => { l with inUse := uses i }) { q with
        train := .active, width := w, lastWidth := w, versionFail := false, widthFail := false, holdExpired := false,
        elasticFault := false, sendReset := false, seenReset := false, holding := false, ready := false, readySeen := false,
        sameSets := 0, inError := false, rttLimited := false, fill := 16 }) s
      let s := layPools p (recordIdentity p x s)
      let s := if changed then log 0x2002 [p.val, 255, 0] s else s
      let s := if changed ∧ first w ≠ first q.lastWidth then makeSuspect p s else s
      let s := raiseCause 6 (takeAck p (x.nextSeq.truncate 12 - 1) s)
      if keysPending s p then s else resendCells p s
    else s

/-- HOLD_EXPIRY (R87, R19, R128). -/
def holdExpiry (p : PortN) (s : State) : State :=
  let q := s.port p
  if q.holding = true ∧ q.train ≠ .active then
    let s := log 0x2004 [p.val, q.replay.length] s
    let s := modPort p (fun q => { q with holding := false, holdExpired := true, sendReset := true }) (seqReset p s)
    flushPort p (noPartner p (if inTraining q.train || q.train == .detect then sendTraining p s else s))
  else s

/-! ### Rate matching (R77) -/

/-- ELASTIC_FAULT. -/
def elasticFault (p : PortN) (s : State) : State :=
  if (s.port p).train = .exchange ∨ (s.port p).train = .active then
    toLock false p (modPort p (fun q => { q with elasticFault := true }) (bump (portIndex p 8) 3 s))
  else s

/-- SKIP_SET_RECEIVE. -/
def skipSet (p : PortN) (fill : Nat) (s : State) : State :=
  let s := modPort p (fun q => { q with fill := fill }) s
  if fill = 0 ∨ 32 ≤ fill then elasticFault p s
  else if 20 ≤ fill then bump (portIndex p 8) 1 s
  else if fill ≤ 12 then bump (portIndex p 8) 2 s
  else s

/-! ### The receive path (R85, R106, R126, R436) -/

/-- Take the sideband of a good block: acknowledgement, NAK and credits. -/
def takeSideband (p : PortN) (b : BitVec 128) (s : State) : State :=
  let s := (sideCredits b).foldl (fun s e =>
    if (s.port p).credR.toList.getD e.1 none = some e.2 then s else progress (.partner p.val e.1) (progress (.credit p.val e.1) s)) s
  let s := modPort p (fun q => { q with
    credR := (sideCredits b).foldl (fun r e => if credited e.1 && decide (e.1 < 12) then r.setIfInBounds e.1 (some e.2) else r) q.credR }) s
  if sideNak b then nakTaken p (sideAck b) s else takeAck p (sideAck b) s

/-- A key that the partner has started is decided by the first tagged block of its superframe (R436). -/
def decideKey (p : PortN) (b : Block) (opens : Option Bytes → Bool) (s : State) : State :=
  let k := (s.port p).key
  match k.rxPend with
  | some (new, start) =>
    if b.superframe < start then s
    else if opens (some new) then
      modPort p (fun q => { q with key := { q.key with rxKey := some new, rxPend := none } }) s
    else if opens k.rxKey then modPort p (fun q => { q with key := { q.key with rxPend := none } }) s
    else s
  | none => s

/-- A cell slot's content under a key, or under the CRC. -/
def blockCell (b : Block) (key : Option Bytes) : Option Cell :=
  if b.damaged then none
  else match key with
    | some k => openCell k b
    | none => crcCell b

/-- One NAK for an error, with ACK = expected − 1 (R85). -/
def sendNak (p : PortN) (s : State) : State :=
  if (s.port p).inError then s
  else
    emit (.nak p.val ((s.port p).expSeq - 1).toNat)
      (modPort p (fun q => { q with inError := true }) (bump (portIndex p 7) 4 s))

/-- A cell discarded by R17, R18, R25, R26 or R88. -/
def countDiscard (p : PortN) : State → State := modPort p (fun q => { q with dropped := q.dropped + 1 })

/-- An accepted cell takes its buffer and waits for the next steps of R126. -/
def stageCell (p : PortN) (c : Cell) (s : State) : State :=
  let stage (i : Option Nat) : State → State := modPort p (fun q => { q with staged := q.staged ++ [(i, c)] })
  if keysPending s p && c.vc != 11 then countDiscard p s
  else if credited c.vc.toNat then
    match allocBuf p c.vc.toNat c.tenant.toNat c s with
    | (some i, s) => stage (some i) s
    | (none, s) => s
  else stage none s

/-- A cell whose check holds: sequence, and acceptance (R85). -/
def acceptCell (p : PortN) (b : Block) (c : Cell) (s : State) : State :=
  let q := s.port p
  let seq := sideSeq b.sideband
  if seq = q.expSeq then
    stageCell p c (modPort p (fun q => { q with expSeq := q.expSeq + 1, inError := false }) (bump (portIndex p 7) 2 s))
  else if (seq - q.expSeq).toNat < 2048 then sendNak p s
  else countDiscard p s

/-- CELL_RECEIVE (R72, R85). -/
def cellReceive (p : PortN) (b : Block) (s : State) : State :=
  if (s.port p).train ≠ .active then s
  else
    let s := decideKey p b (fun k => (blockCell b k).isSome) s
    match blockCell b (s.port p).key.rxKey with
    | some c => acceptCell p b c (takeSideband p b.sideband s)
    | none =>
      let s := if (s.port p).key.rxKey.isSome then bump (0x6040 + p.val) 2 s else s
      sendNak p (bump (portIndex p 7) 3 s)

/-- IDLE_SLOT_RECEIVE (R66): a bad block is ignored. -/
def idleReceive (p : PortN) (b : Block) (s : State) : State :=
  if (s.port p).train ≠ .active ∨ b.damaged = true then s
  else
    let s := decideKey p b (fun k => idleGood k b) s
    if idleGood (s.port p).key.rxKey b then takeSideband p b.sideband s else s

/-! ### Role, medium, credits, shares, coordinates -/

/-- Total credits of a port's VCs but one (R123). -/
def creditOthers (s : State) (p : PortN) (vc : Nat) : Nat :=
  (List.range 12).foldl (fun n v => if v = vc then n else n + advertised s p v) 0

/-- The credit entries are checked again under a new role (R123). -/
def recheckCredits (src : Route) (p : PortN) (s : State) : State :=
  let index := 0x3210 + p.val
  let zero (v : Nat) (s : State) : State :=
    let old := odGet s index (v + 1)
    if old = 0 then s else clamped src index (v + 1) (scalarPlace 16) old 0 (odSet index (v + 1) 0 s)
  let s := if role s p = 1 then s else zero 8 s
  if creditOthers s p 12 ≤ 5376 then s else (List.range 12).foldl (fun s v => zero v s) s

/-- Every port is held in DISABLED: a warm or cold reset runs, the device has tripped or has no clock (R464, R489, R491,
R501). -/
def portsHeld (s : State) : Bool := s.pwr.warmRunning || s.pwr.coldHeld || s.pwr.tripped || s.pwr.clockLost

/-- ROLE_WRITE (R15, R19, R71, R123). -/
def roleWrite (src : Route) (p : PortN) (v : Nat) (s : State) : State :=
  if (s.port p).train = .active then refuseCondition s
  else
    let index := portIndex p 0
    let w := min v 3
    let kept := if w = 3 ∧ p.val < 12 then 0 else w
    let s := keepTwo src index 1 8 v w kept s
    let s := if kept = 3 ∧ medium s p = 0 then clamped src index 2 (scalarPlace 8) 0 1 (odSet index 2 1 s) else s
    let s := recheckCredits src p s
    let t := (s.port p).train
    if kept = 0 then (if t = .disabled then s else toDisabled p s)
    else if t = .disabled ∧ portsHeld s = false then wakePort p s
    else s

/-- MEDIUM_WRITE (R15). -/
def mediumWrite (src : Route) (p : PortN) (v : Nat) (s : State) : State :=
  if (s.port p).train = .active then refuseCondition s
  else
    let w := min v 1
    let kept := if p.val < 12 then 0 else if role s p = 3 then 1 else w
    keepTwo src (portIndex p 0) 2 8 v w kept s

/-- CREDIT_WRITE (R123). -/
def creditWrite (src : Route) (p : PortN) (vc v : Nat) (s : State) : State :=
  let index := 0x3210 + p.val
  let room := 5376 - creditOthers s p vc
  let asked := if vc = 9 ∨ vc = 10 ∨ (vc = 8 ∧ role s p ≠ 1) then 0 else if v = 0 then 0 else max v 8
  let adv := if asked = 0 then defaultCredit (role s p) vc else asked
  if adv ≤ room then keepScalar src index (vc + 1) 16 v asked s
  else if room < 8 then refuseRule s
  else keepScalar src index (vc + 1) 16 v room s

/-- The share a tenant may keep beside the tenants below it (R131). -/
def shareRoom (s : State) (t : Nat) : Nat := 64 - (List.range t).foldl (fun n u => n + odGet s 0x3301 (u + 1)) 0

/-- TENANT_SHARE_WRITE (R131). -/
def tenantShareWrite (src : Route) (t v : Nat) (s : State) : State :=
  let s := keepScalar src 0x3301 (t + 1) 8 v (min v (shareRoom s t)) s
  ((List.range 16).drop (t + 1)).foldl (fun s u =>
    let old := odGet s 0x3301 (u + 1)
    keepScalar src 0x3301 (u + 1) 8 old (min old (shareRoom s u)) s) s

/-- COORDINATE_COMMIT (R20–R23, R76). -/
def coordinateCommit (src : Route) (v : Nat) (s : State) : State :=
  if assigned s then refuseCondition s
  else
    let s := keepScalar src 0x3000 3 8 v (min v 1) s
    if assigned s then forPorts (fun p s => if (s.port p).train = .active then toExchange p s else s) s else s

/-! ### Meanings -/

/-- ROLE_WRITE (R15). -/
def execRoleWrite (src : Route) (p : PortN) (v : BitVec 8) (s : State) : Host.Outcome State Fault Refusal :=
  .next (roleWrite src p v.toNat (beginOp s))

/-- MEDIUM_WRITE (R15). -/
def execMediumWrite (src : Route) (p : PortN) (v : BitVec 8) (s : State) : Host.Outcome State Fault Refusal :=
  .next (mediumWrite src p v.toNat (beginOp s))

/-- CREDIT_WRITE (R123). -/
def execCreditWrite (src : Route) (p : PortN) (vc : Fin 12) (v : BitVec 16) (s : State) : Host.Outcome State Fault Refusal :=
  .next (creditWrite src p vc.val v.toNat (beginOp s))

/-- TENANT_SHARE_WRITE (R131). -/
def execTenantShareWrite (src : Route) (t : TenantN) (v : BitVec 8) (s : State) : Host.Outcome State Fault Refusal :=
  .next (tenantShareWrite src t.val v.toNat (beginOp s))

/-- COORDINATE_COMMIT (R23). -/
def execCoordinateCommit (src : Route) (v : BitVec 8) (s : State) : Host.Outcome State Fault Refusal :=
  .next (coordinateCommit src v.toNat (beginOp s))

/-- LOS_ASSERT (R80). -/
def execLosAssert (p : PortN) (l : LaneN) (s : State) : Host.Outcome State Fault Refusal := .next (losAssert p l s)

/-- LOS_CLEAR (R80). -/
def execLosClear (p : PortN) (l : LaneN) (s : State) : Host.Outcome State Fault Refusal := .next (losClear p l s)

/-- LOL_ASSERT (R80). -/
def execLolAssert (p : PortN) (l : LaneN) (s : State) : Host.Outcome State Fault Refusal := .next (lolAssert p l s)

/-- CDR_LOCK (R71). -/
def execCdrLock (p : PortN) (lanes : BitVec 8) (s : State) : Host.Outcome State Fault Refusal := .next (cdrLock p lanes.toNat s)

/-- LOCK_TIMEOUT (R71). -/
def execLockTimeout (p : PortN) (s : State) : Host.Outcome State Fault Refusal := .next (stateTimeout .lock p s)

/-- SLIP_TIMEOUT (R71): with SLIP_TIMEOUT set. -/
def execSlipTimeout (p : PortN) (s : State) : Host.Outcome State Fault Refusal :=
  .next (if (s.port p).train = .slip then toDetect p (modPort p (fun q => { q with slipTimeout := true }) s) else s)

/-- SLIP_WINDOW_DONE (R92). -/
def execSlipWindowDone (p : PortN) (l : LaneN) (hits : Nat) (s : State) : Host.Outcome State Fault Refusal :=
  .next (slipWindowDone p l hits s)

/-- BIT_SLIP (R73). -/
def execBitSlip (src : Route) (p : PortN) (l : LaneN) (v : BitVec 8) (s : State) : Host.Outcome State Fault Refusal :=
  .next (bitSlip src p l v.toNat (beginOp s))

/-- ALIGNMENT_DONE (R73). -/
def execAlignmentDone (src : Route) (p : PortN) (v : BitVec 8) (s : State) : Host.Outcome State Fault Refusal :=
  .next (alignmentDone src p v.toNat (beginOp s))

/-- CODEWORD_ALIGNED (R74). -/
def execCodewordAligned (p : PortN) (lanes : BitVec 8) (s : State) : Host.Outcome State Fault Refusal :=
  .next (codewordAligned p lanes.toNat s)

/-- FEC_ALIGN_TIMEOUT (R71). -/
def execFecAlignTimeout (p : PortN) (s : State) : Host.Outcome State Fault Refusal := .next (stateTimeout .fecAlign p s)

/-- DESKEW_DONE (R74). -/
def execDeskewDone (p : PortN) (lanes : BitVec 8) (s : State) : Host.Outcome State Fault Refusal :=
  .next (deskewDone p lanes.toNat s)

/-- DESKEW_TIMEOUT (R71). -/
def execDeskewTimeout (p : PortN) (s : State) : Host.Outcome State Fault Refusal := .next (stateTimeout .deskew p s)

/-- TRAINING_SET_RECEIVE (R75). -/
def execTrainingSetReceive (p : PortN) (x : TrainingSet) (s : State) : Host.Outcome State Fault Refusal :=
  .next (trainingReceive p x s)

/-- EXCHANGE_TIMEOUT (R71): none while VERSION_FAIL is set. -/
def execExchangeTimeout (p : PortN) (s : State) : Host.Outcome State Fault Refusal :=
  .next (if (s.port p).versionFail then s else stateTimeout .exchange p s)

/-- UNCORRECTABLE_THRESHOLD (R81). -/
def execUncorrectableThreshold (p : PortN) (l : LaneN) (s : State) : Host.Outcome State Fault Refusal :=
  .next (uncorrectableThreshold p l s)

/-- RETRAIN_REQUEST (R83, R90). -/
def execRetrainRequest (src : Route) (p : PortN) (v : BitVec 8) (s : State) : Host.Outcome State Fault Refusal :=
  let s := onlyOne src (portIndex p 2) 6 v.toNat (beginOp s)
  .next (if (s.port p).train = .exchange ∨ (s.port p).train = .active then toLock true p s else s)

/-- ELASTIC_FAULT (R77). -/
def execElasticFault (p : PortN) (s : State) : Host.Outcome State Fault Refusal := .next (elasticFault p s)

/-- SKIP_SET_RECEIVE (R77). -/
def execSkipSetReceive (p : PortN) (fill : Nat) (s : State) : Host.Outcome State Fault Refusal :=
  .next (if (s.port p).train = .exchange ∨ (s.port p).train = .active then skipSet p fill s else s)

/-- HOLD_EXPIRY (R87). -/
def execHoldExpiry (p : PortN) (s : State) : Host.Outcome State Fault Refusal := .next (holdExpiry p s)

/-- CELL_RECEIVE (R85). -/
def execCellReceive (p : PortN) (b : Block) (s : State) : Host.Outcome State Fault Refusal := .next (cellReceive p b s)

/-- IDLE_SLOT_RECEIVE (R66). -/
def execIdleSlotReceive (p : PortN) (b : Block) (s : State) : Host.Outcome State Fault Refusal := .next (idleReceive p b s)

/-- NAK_RECEIVE (R86). -/
def execNakReceive (p : PortN) (ack : BitVec 12) (s : State) : Host.Outcome State Fault Refusal := .next (nakTaken p ack s)

/-- ACK_TIMEOUT (R86). -/
def execAckTimeout (p : PortN) (s : State) : Host.Outcome State Fault Refusal := .next (replayFrom p true s)

/-- LASER_FAULT (R89). -/
def execLaserFault (p : PortN) (l : LaneN) (s : State) : Host.Outcome State Fault Refusal := .next (laserFault p l s)

end Sys2Proof.Machine
end

