-- ==== Sys2Proof/Machine/Arrive.lean ====
section
/-!
DEFINITION. The arrival of a cell (R126): format, hops, channel, routing, tenant, partition and combining steps, in
arrival order (R145); and the round start, which starts the rounds of the time unit and of the windows.
-/

namespace Sys2Proof.Machine

open Sys2Proof

/-- Where a cell came in: its input, its kind, and the buffer it sits in. -/
structure Arrival where
  input : Nat
  fr : From
  store : Nat
  index : Nat
  /-- the cell holds a buffer, or is of the resident BEP -/
  held : Bool

/-- Discard a cell. -/
def discardCell (a : Arrival) (s : State) : State := if a.held then giveBack a.store a.index s else s

/-- Discard and count in OD 3100. -/
def discardCount (a : Arrival) (sub : Nat) (s : State) : State := discardCell a (bump 0x3100 sub s)

/-- Answer a request in its own buffer (R104). -/
def answerCell (a : Arrival) (c : Cell) (code detail : Nat) (s : State) : State :=
  answerIn a.input a.store a.index (errFor c code detail) s

/-- The tenant bit of a port entry in the bank that the cell's epoch names (R112, R114). -/
def tenantBit (s : State) (c : Cell) (p : Nat) : Bool := bit (portEntry (bank s c.epoch.toNat) p) (16 + c.tenant.toNat)

/-- The revision of a destination (R112, R199, R200). -/
def destRevision (s : State) (c : Cell) (o : Nat) : Nat :=
  let v := bits (portEntry (bank s c.epoch.toNat) (if o = 24 then 31 else o)) 4 4
  if v ≠ 0 then min 2 v
  else if h : o < 24 then (s.port ⟨o, h⟩).partnerRev
  else 2

/-- A request to a destination that the muster has declared lost: its detail (R474). -/
def lostDetail (s : State) (c : Cell) : Option Nat :=
  let d := (cellDest c).toNat
  if s.routes.lostGv.contains (d / 32) then some 0x0701
  else if s.routes.lostEp.contains d then some 0x0702
  else none

/-- A request into the collective aperture of this GV24 (R303). -/
def apertureWindow (c : Cell) : Option Nat := if 2 ^ 47 ≤ cellOff c then some ((cellOff c - 2 ^ 47) / 2 ^ 31) else none

/-- Step 7 of R126: the tenant is at its cap (R130). -/
def overCap (s : State) (a : Arrival) (c : Cell) : Bool :=
  if h : a.store < 24 then
    isolated s && decide (c.vc.toNat < 8)
      && decide (tenantCap s ⟨a.store, h⟩ c.vc.toNat c.tenant.toNat < tenantHeld s ⟨a.store, h⟩ (getBuf s a.store a.index).vc c.tenant.toNat)
  else false

/-- Steps 6–9 for a request that is routed to output `o` as `c`. -/
def requestTo (a : Arrival) (o : Nat) (c : Cell) (s : State) : State :=
  let ingress := isIngress a.fr
  let source := if a.input = 24 then 31 else a.input
  let dest := if o = 24 then 31 else o
  let egress := o = 24 ∨ (if h : o < 24 then role s ⟨o, h⟩ = 1 else False)
  if ingress = true ∧ tenantBit s c source = false then answerCell a c errTenantDenied 0 (bump 0x3100 0x19 s)
  else if egress ∧ tenantBit s c dest = false then answerCell a c errTenantDenied 0 (bump 0x3100 0x1A s)
  else if egress ∧ c.op = opAT ∧ c.sub = 1 ∧ destRevision s c o < 2 then answerCell a c errUnsupportedOp 0 (bump 0x3100 0x1B s)
  else if overCap s a c then discardCell a (bump (0x3310 + a.store) 2 s)
  else match (if o = 24 then apertureWindow c else none) with
    | some w => answerCell a c (if windowHeld s w then errWindow else errOutOfRange) 0 s
    | none =>
      if egress ∧ o < 24 then directoryTake a.input o a.store a.index c s
      else enqueue a.input o a.store a.index c s

/-- Steps 5–9 of R126. -/
def routeArrival (a : Arrival) (c : Cell) (s : State) : State :=
  match routeCell s a.fr c with
  | .drop sub => discardCount a sub s
  | .unusable p => discardCell a (countDropped p s)
  | .out o c =>
    if isRequest c.op then requestTo a o c s
    else if c.op = opSNR ∧ o = 24 then
      let s := discardCell a s
      if h : a.input < 24 then modPort ⟨a.input, h⟩ (fun q => { q with taken := q.taken ++ [c] }) s else s
    else if overCap s a c then discardCell a (bump (0x3310 + a.store) 2 s)
    else enqueue a.input o a.store a.index c s

/-- A link-local or management cell for this GV24: its own command handles it next. -/
def takeManagement (p : PortN) (a : Arrival) (c : Cell) (s : State) : State :=
  modPort p (fun q => { q with taken := q.taken ++ [c] }) (discardCell a s)

/-- Is a VC11 cell for this GV24's management? `TIM` and `MUS` never go on. -/
def forManagement (s : State) (c : Cell) : Bool :=
  c.op == opTIM || c.op == opMUS || (c.op == opRTD && coordP (cellDest c) == 31 && ownGv s (cellDest c))

/-- Steps 2–9 of R126 for a cell of port `p`. -/
def portArrival (p : PortN) (a : Arrival) (c : Cell) (s : State) : State :=
  let q := s.port p
  let ep := role s p == 1
  if c.vc.toNat ≥ 12 ∨ c.ver ≠ 1 then discardCount a 0x16 s
  else if assigned s = false ∨ c.src = 0xFFFF then
    if c.op = opTIM ∧ wellFormed c = true then takeManagement p a c s else discardCell a (countDiscard p s)
  else if (q.status = 2 ∨ q.status = 4) ∧ c.vc ≠ 11 then discardCell a (countDiscard p s)
  else if !wellFormed c then
    if ep && isRequest c.op && a.held then answerCell a c errMalformed 0 s else discardCount a 0x16 s
  else if 7 < c.hops.toNat + 1 then discardCount a 0x12 s
  else
    let c := clearUnused { c with hops := c.hops + 1 }
    let s := if ep then noticeAnswered p c.epoch s else s
    if c.vc = 8 ∧ ep = false then discardCount a 0x14 s
    else if c.vc = 9 ∨ c.vc = 10 then acceptScheduled p c s
    else if c.vc = 11 ∧ forManagement s c = true then takeManagement p a c s
    else match (if isRequest c.op && ep then lostDetail s c else none) with
      | some detail => answerCell a c errTargetReset detail s
      | none =>
        if ep && decide (4 ≤ c.vc.toNat) && decide (c.vc.toNat < 8) then
          let c := grantAnswer s c
          match entryFor s p.val c with
          | some (k, e) => takeResponse p.val a.store a.index k e c s
          | none => routeArrival a c s
        else routeArrival a c s

/-- The resident BEP's cell: steps 2–9 at input 24. -/
def bepArrival (c : Cell) (s : State) : State :=
  let a : Arrival := { input := 24, fr := .bep, store := departureStore, index := 0, held := true }
  if assigned s = false ∨ c.src = 0xFFFF then s
  else if !wellFormed c then bump 0x3100 0x16 s
  else
    let c := clearUnused { c with hops := c.hops + 1 }
    match (if isRequest c.op then lostDetail s c else none) with
    | some detail => answerCell a c errTargetReset detail s
    | none => routeArrival a c s

/-- The cell that an ingress takes next, and those that stay: while a warm device reset runs it takes no request (R464). -/
def nextStaged (resetting : Bool) : List (Option Nat × Cell) → Option ((Option Nat × Cell) × List (Option Nat × Cell))
  | [] => none
  | x :: r => if resetting && isRequest x.2.op then (nextStaged resetting r).map (fun y => (y.1, x :: y.2)) else some (x, r)

/-- CELL_ARRIVAL: the oldest cell of an input that has passed step 1. -/
def cellArrival (input : Nat) (s : State) : State :=
  if h : input < 24 then
    let p : PortN := ⟨input, h⟩
    match nextStaged s.pwr.warmRunning (s.port p).staged with
    | none => s
    | some ((i, c), r) =>
      let s := modPort p (fun q => { q with staged := r }) s
      portArrival p { input := input, fr := fromRole (role s p), store := input, index := i.getD 0, held := i.isSome } c s
  else
    match s.bep.outbox with
    | [] => s
    | c :: r => bepArrival c { s with bep := { s.bep with outbox := r } }

/-! ### The round start -/

/-- A written service share takes effect at a tick whose FT mod 64 is 0 (R256). -/
def latchShares (s : State) : State :=
  if s.time.ft % 64 = 0 then
    { s with cmp := { s.cmp with shares := Vector.ofFn (fun k => odGet s 0x5001 (k.val + 1)) } }
  else s

/-- ROUND_START (R38, R51, R67, R312, R314, R326). -/
def roundStart (s : State) : State :=
  let s := latchShares (roundStartTime s)
  s.coll.wins.foldl (fun s e => windowRound e.1 s) s

/-! ### Meanings -/

/-- CELL_ARRIVAL (R126). -/
def execCellArrival (input : InputN) (s : State) : Host.Outcome State Fault Refusal := .next (cellArrival input.val s)

/-- ROUND_START (R38). -/
def execRoundStart (s : State) : Host.Outcome State Fault Refusal := .next (roundStart s)

end Sys2Proof.Machine
end

