-- ==== Sys2Proof/Machine/Echo.lean ====
section
/-!
DEFINITION. The lantern and the echo (R455–R460): wait-for edges among the die's nodes, hangs that persist over four
samples, what follows them, and the replay of suspects. COMMAND_END, which ends a replay, is here too.
-/

namespace Sys2Proof.Machine

open Sys2Proof

/-- Change the lantern. -/
def modLantern (f : Lantern → Lantern) (s : State) : State := { s with lantern := f s.lantern }

/-! ### Nodes and edges (R455) -/

/-- The head of a queue waits on a credit count of 0 (R136). -/
def creditBlocked (s : State) (o vc : Nat) : Bool :=
  if h : o < 24 then credited vc && creditFor s ⟨o, h⟩ vc == 0 else false

/-- Credit nodes that queue heads wait on. -/
def blockedNodes (s : State) (f : Nat → Bool) : List Node :=
  ((s.sw.voqs.filter (fun e => f e.1 && creditBlocked s (voqOut e.1) (voqVc e.1))).map (fun e =>
    Node.credit (voqOut e.1) (voqVc e.1))).eraseDups

/-- The resident BEP holds work: cells to serve or to send, or requests that have not ended. -/
def intakeBusy (s : State) : Bool :=
  !s.bep.intake.isEmpty || !s.bep.outbox.isEmpty || !s.ep.reqs.isEmpty || !s.ep.waiting.isEmpty

/-- Streams of a list of contexts that have not arrived at their barrier. -/
def absentStreams (l : List (Nat × Ctx)) (there : Stream → Bool) : List Node :=
  l.flatMap (fun e => ((streamNos e.2).filter (fun j => !there (streamOf e.2 j))).map (fun j => Node.stream e.1 j))

/-- What a stream waits on. -/
def streamEdges (s : State) (k e : Nat) : List Node :=
  let c := ctxAt s k
  let x := streamOf c e
  if c.state ≠ .running ∨ x.live = false then []
  else match x.wait with
  | .none => []
  | .barC => absentStreams [(k, c)] (fun y => y.wait == .barC)
  | .barG _ => absentStreams (gangOf s (ctxGang c)) atGang
  | .copy _ => [.copy k]
  | .xlate => []
  | .fabric => [.intake]
  | .sysEnd => [.intake]

/-- The edges of a node (R455). -/
def edges (s : State) (n : Node) : List Node :=
  match n with
  | .voq i o v t =>
    if (voq s (voqKey (isolated s) i o v t)).isEmpty then []
    else if o = 24 then [.intake]
    else if creditBlocked s o v then [.credit o v] else []
  | .credit p v => [.partner p v]
  | .partner _ _ => []
  | .intake => if intakeBusy s then blockedNodes s (fun k => voqIn k == 24 && decide (4 ≤ voqVc k) && decide (voqVc k < 8)) else []
  | .sink => []
  | .directory =>
    if s.grotto.pending.isEmpty then []
    else (if 256 < answerUsed s + 8 then [.answers] else [])
      ++ blockedNodes s (fun k => voqVc k == 8 && s.grotto.probes.any (fun q => q.2.member == voqOut k))
  | .answers => []
  | .stream k e => streamEdges s k e
  | .copy k => if (ctxAt s k).copies.isEmpty then [] else if copyWritesOut s k || writesOut s k || (ctxAt s k).copies.any (fun h => h.asked) then [.intake] else []

/-- A node without work in progress. The partner and the credit toward it are never idle. -/
def idleNode (s : State) (n : Node) : Bool :=
  match n with
  | .voq i o v t => (voq s (voqKey (isolated s) i o v t)).isEmpty
  | .credit _ _ => false
  | .partner _ _ => false
  | .intake => !intakeBusy s
  | .sink => s.ep.reqs.isEmpty
  | .directory => s.grotto.pending.isEmpty && s.grotto.lines.isEmpty
  | .answers => answerUsed s == 0
  | .stream k e => !(streamOf (ctxAt s k) e).live
  | .copy k => (ctxAt s k).copies.isEmpty

/-- The nodes that hold work and wait. -/
def waitingNodes (s : State) : List Node :=
  let all := s.sw.voqs.map (fun e => Node.voq (voqIn e.1) (voqOut e.1) (voqVc e.1) (voqTenant e.1))
    ++ [.intake, .directory]
    ++ s.cmp.ctxs.flatMap (fun e => (streamNos e.2).map (fun j => Node.stream e.1 j) ++ [Node.copy e.1])
  all.filter (fun n => !(edges s n).isEmpty)

/-! ### Shapes (R456) -/

/-- The kinds of a hang. -/
inductive HangKind where
  | cycle | deadWait | stuckPort
  deriving DecidableEq, Repr

/-- Cycles and dead waits reached from the head of a path; `path` is newest first and `start` its oldest node. -/
def walkPaths (s : State) (start : Node) : Nat → List Node → List (HangKind × List Node)
  | 0, _ => []
  | fuel + 1, path =>
    match path with
    | [] => []
    | n :: _ =>
      (edges s n).flatMap (fun m =>
        if m = start then
          (if path.all (fun q => decide (nodeKey start ≤ nodeKey q)) then [(.cycle, path.reverse)] else [])
        else if path.contains m then []
        else if (edges s m).isEmpty then (if idleNode s m then [(.deadWait, (m :: path).reverse)] else [])
        else walkPaths s start fuel (m :: path))

/-- The shapes that stand now: each cycle once, each dead wait from a node that nothing waits on. -/
def hangShapes (s : State) : List (HangKind × List Node) :=
  let ws := waitingNodes s
  let found := ws.flatMap (fun n =>
    let paths := walkPaths s n (ws.length + 1) [n]
    if ws.any (fun m => (edges s m).contains n) then paths.filter (fun q => q.1 == .cycle) else paths)
  let stuck := (blockedNodes s (fun k => voqVc k != 11)).filterMap (fun n =>
    match n with
    | .credit p v => if h : p < 24 then (if (s.port ⟨p, h⟩).train = .active then some (HangKind.stuckPort, [n, Node.partner p v]) else none) else none
    | _ => none)
  found ++ stuck

/-- The context of a node. -/
def nodeCtx (n : Node) : Option Nat :=
  match n with
  | .stream k _ => some k
  | .copy k => some k
  | _ => none

/-- The contexts on a path. -/
def pathCtxs (path : List Node) : List Nat := (path.filterMap nodeCtx).eraseDups

/-! ### The echo (R458–R460) -/

/-- A suspect stops at its boundary and is HELD. -/
def holdCtx (k : Nat) (s : State) : State :=
  if (ctxAt s k).state = .free ∨ (ctxAt s k).state = .aborting then s
  else discardDirty k (modCtx k (fun c => { c with
    state := .held, copies := [], polling := false, streams := c.streams.map (fun x => { x with live := false, wait := .none }) }) s)

/-- A context and its gang, in ascending order. -/
def suspectOf (s : State) (k : Nat) : List Nat :=
  let g := ctxGang (ctxAt s k)
  if g = 0 then [k] else (gangOf s g).map (fun e => e.1)

/-- Insert a suspect at the place of its lowest member. -/
def insertSuspect (g : List Nat) : List (List Nat) → List (List Nat)
  | [] => [g]
  | h :: r => if h = g then h :: r else if g.headD 0 < h.headD 0 then g :: h :: r else h :: insertSuspect g r

/-- The echo starts on a path's contexts: every suspect is HELD (R458). -/
def startEcho (path : List Node) (s : State) : State :=
  let groups := ((pathCtxs path).map (suspectOf s)).foldl (fun l g => insertSuspect g l) []
  let s := groups.foldl (fun s g => g.foldl (fun s k => holdCtx k s) s) s
  modLantern (fun l => { l with suspects := groups, findings := [], current := none }) s

/-- A path holds a HELD context. -/
def holdsHeld (s : State) (path : List Node) : Bool := (pathCtxs path).any (fun k => (ctxAt s k).state == .held)

/-- A hang that holds contexts is acted on (R457, R458): abort with OD 7101.02 = 0, else the echo, one at a time. -/
def actOnContexts (path : List Node) (s : State) : State :=
  if odGet s 0x7101 2 = 0 then
    ((pathCtxs path).flatMap (suspectOf s)).eraseDups.foldl (fun s k => abortCtx k s) s
  else if s.lantern.suspects.isEmpty then startEcho path s
  else modLantern (fun l => { l with waiting := l.waiting ++ [path] }) s

/-- A guilty context enters FAULTED with the fault found. -/
def faultHeld (code k : Nat) (s : State) : State :=
  let c := ctxAt s k
  if c.state = .held then
    bump 0x5003 2 (event 0x5001 c.tenant [k / 4, k % 4, code]
      (setCtx k { c with state := .faulted, fault := code, status := 1, copies := [], recorded := false } s))
  else s

/-- A HELD context returns to RUNNING, or to IDLE where its ring holds no command. -/
def releaseHeld (k : Nat) (s : State) : State :=
  if (ctxAt s k).state = .held then
    let s := restartCtx k s
    if (ctxAt s k).cons = (ctxAt s k).prod then modCtx k (fun c => { c with state := .idle }) s else s
  else s

/-- The echo concludes once every suspect has a finding (R460); a hang that waited is acted on. -/
def concludeEcho (s : State) : State :=
  let l := s.lantern
  if l.suspects.isEmpty ∨ l.findings.length < l.suspects.length then s
  else
    let guilty := l.findings.filterMap (fun f => match f.2 with
      | .guilty code => some (f.1, code)
      | .innocent => none
      | .inconclusive => none)
    let open_ := (l.findings.filter (fun f => f.2 == .inconclusive)).length
    let s := guilty.foldl (fun s g => g.1.foldl (fun s k => faultHeld g.2 k s) s) s
    let s := l.suspects.foldl (fun s g => g.foldl (fun s k => releaseHeld k s) s) s
    let s := log 0x7111 [l.suspects.length, guilty.length, open_] s
    let s := if guilty.isEmpty then bump 0x7101 0x17 s else s
    let s := modLantern (fun l => { l with suspects := [], findings := [], current := none, waiting := l.waiting.drop 1 }) s
    match l.waiting with
    | [] => s
    | w :: _ => if (pathCtxs w).isEmpty then s else startEcho w s

/-- The suspect under replay has a finding (R459). -/
def findSuspect (g : List Nat) (f : Finding) (s : State) : State :=
  let s := match f with
    | .guilty _ => bump 0x7101 0x15 s
    | .inconclusive => bump 0x7101 0x16 s
    | .innocent => s
  concludeEcho (modLantern (fun l => { l with findings := l.findings ++ [(g, f)], current := none }) s)

/-- The suspect under replay is looked at after a command of one of its contexts: guilty where one has faulted, innocent
once the command of each has ended. -/
def settleReplay (s : State) : State :=
  match s.lantern.current with
  | none => s
  | some g =>
    match g.find? (fun k => (ctxAt s k).state == .faulted) with
    | some k => findSuspect g (.guilty (ctxAt s k).fault) (g.foldl (fun s j => if (ctxAt s j).state = .faulted then s else holdCtx j s) s)
    | none =>
      if g.all (fun k => (ctxAt s k).state == .held || (ctxAt s k).state == .free || (ctxAt s k).state == .aborting) then
        findSuspect g .innocent s
      else s

/-- ECHO_REPLAY (R459): the next suspect without a finding restarts at its boundary; the others stay HELD. -/
def echoReplay (s : State) : State :=
  let s := settleReplay s
  if s.lantern.current.isSome then s
  else
    match s.lantern.suspects.find? (fun g => !s.lantern.findings.any (fun f => f.1 == g)) with
    | none => s
    | some g =>
      let s := modLantern (fun l => { l with
        current := some g, watches := l.watches.filter (fun w => !(pathCtxs w.nodes).any (fun k => g.contains k)) }) s
      g.foldl (fun s k => if (ctxAt s k).state = .held then restartCtx k s else s) (bump 0x7101 0x14 s)

/-- ECHO_REPLAY_TIMEOUT (R459): the suspect under replay is inconclusive and goes on. -/
def echoTimeout (s : State) : State :=
  let s := settleReplay s
  match s.lantern.current with
  | none => s
  | some g => findSuspect g .inconclusive s

/-! ### Samples (R456, R457) -/

/-- The lowest-numbered queue of a path: input, then output, then VC. -/
def lowestVoq (path : List Node) : Option Node :=
  (path.filter (fun n => match n with
    | .voq _ _ _ _ => true
    | _ => false)).foldl (fun m n => match m with
    | none => some n
    | some q => if nodeKey n < nodeKey q then some n else some q) none

/-- The head cell of the lowest-numbered queue on a path is discarded and counted (R457). -/
def discardHead (path : List Node) (s : State) : State :=
  match lowestVoq path with
  | some (.voq i o v t) =>
    let k := voqKey (isolated s) i o v t
    match voq s k with
    | q :: r => giveBack q.store q.index (setVoq k r (bump 0x7101 0x13 s))
    | [] => s
  | _ => s

/-- The number an event gives for where a hang is: its first queue or context. -/
def hangPlace (path : List Node) : Nat :=
  match path.find? (fun n => (lowestVoq [n]).isSome || (nodeCtx n).isSome) with
  | some (.voq i o v t) => voqKey true i o v t
  | some n => (nodeCtx n).getD 0
  | none => 0

/-- A hang is declared (R456) and acted on (R457). A path that holds the context under replay makes it guilty (R459); one
that holds another HELD context is ignored (R458). -/
def declareHang (h : HangKind × List Node) (s : State) : State :=
  let path := h.2
  let replayed := match s.lantern.current with
    | some g => (pathCtxs path).any (fun k => g.contains k)
    | none => false
  if replayed then
    let g := s.lantern.current.getD []
    findSuspect g (.guilty 0x10) (g.foldl (fun s k => holdCtx k s) s)
  else if holdsHeld s path then s
  else
    match h.1 with
    | .stuckPort =>
      (match path with
      | .credit p v :: _ => log 0x7112 [p, v] (bump 0x7101 0x12 s)
      | _ => s)
    | kind =>
      let code := if kind = .cycle then 1 else 2
      let s := log 0x7110 [code, hangPlace path, path.length] (bump 0x7101 (0x0F + code) s)
      if !(pathCtxs path).isEmpty then actOnContexts path s
      else if odGet s 0x7101 4 = 1 then discardHead path s else s

/-- LANTERN_SAMPLE (R146, R456): shapes seen again without progress; the fourth sample declares. -/
def lanternSample (s : State) : State :=
  if odGet s 0x7101 1 = 0 then modLantern (fun l => { l with watches := [] }) s
  else
    let s := settleReplay (advanceTo (backgroundTick s 16384 16383) s)
    let now := hangShapes s
    let watched := now.map (fun h =>
      let counts := h.2.map (progressOf s)
      let times := match s.lantern.watches.find? (fun w => w.nodes == h.2 && w.progress == counts) with
        | some w => w.times + 1
        | none => 1
      (h, ({ nodes := h.2, progress := counts, times := times } : Watch)))
    let s := modLantern (fun l => { l with watches := watched.map (fun x => x.2) }) s
    (watched.filter (fun x => x.2.times == 4)).foldl (fun s x => declareHang x.1 s) s

/-- COMMAND_END of a context under replay: it is HELD again (R459). -/
def endCommand (k : Nat) (s : State) : State :=
  let t := commandEnd k s
  let replayed := match s.lantern.current with
    | some g => g.contains k
    | none => false
  if replayed then settleReplay (if (ctxAt t k).cons = (ctxAt s k).cons then t else holdCtx k t) else t

/-! ### Meanings -/

/-- COMMAND_END (R258, R459). -/
def execCommandEnd (core : CoreN) (slot : SlotN) (s : State) : Host.Outcome State Fault Refusal := .next (endCommand (ctxKey core slot) s)

/-- LANTERN_SAMPLE (R456). -/
def execLanternSample (s : State) : Host.Outcome State Fault Refusal := .next (lanternSample s)

/-- ECHO_REPLAY (R459). -/
def execEchoReplay (s : State) : Host.Outcome State Fault Refusal := .next (echoReplay s)

/-- ECHO_REPLAY_TIMEOUT (R459). -/
def execEchoReplayTimeout (s : State) : Host.Outcome State Fault Refusal := .next (echoTimeout s)

end Sys2Proof.Machine
end

