-- ==== Sys2Proof/Machine/Scrub.lean ====
section
/-!
DEFINITION. Scrub of the on-die SRAM and what an uncorrectable word does in each structure (R446–R448), the log's
flush and acknowledgement (R449, R453), and the limit of ledger faults (R454).
-/

namespace Sys2Proof.Machine

open Sys2Proof

/-- Structure and word of a finding as an event gives them: structures are numbered in the order of R447's table. -/
def structureWord : SramStructure → Nat × Nat
  | .stallBuffer p i => (1, pointer p.val i)
  | .replyStore i => (1, pointer replyStore i)
  | .descriptor p i => (2, pointer p.val i)
  | .combining e => (3, e)
  | .joiner e m => (3, e * 256 + m)
  | .replay p => (4, p.val)
  | .tally src => (5, src.toNat)
  | .release line => (6, line)
  | .directoryBlock b => (7, b)
  | .translation set way => (8, set * 16 + way)
  | .coreCache core line => (9, core.val * 2 ^ 57 + line)
  | .scratchpad core slot => (11, ctxKey core slot)
  | .registerSet core slot => (11, ctxKey core slot)
  | .instructionCache core => (12, core.val)
  | .routeBank table i => (14, table.val * 256 + i)
  | .calendarBank o off => (15, recordPlace o.val off)
  | .fabricTime => (16, 0)
  | .muster => (16, 1)

/-- Structures of the control plane, whose loss is FATAL (R447, R451). -/
def controlPlane : SramStructure → Bool
  | .routeBank _ _ => true
  | .calendarBank _ _ => true
  | .fabricTime => true
  | .muster => true
  | .stallBuffer _ _ => false
  | .replyStore _ => false
  | .descriptor _ _ => false
  | .combining _ => false
  | .joiner _ _ => false
  | .replay _ => false
  | .tally _ => false
  | .release _ => false
  | .directoryBlock _ => false
  | .translation _ _ => false
  | .coreCache _ _ => false
  | .scratchpad _ _ => false
  | .registerSet _ _ => false
  | .instructionCache _ => false

/-- A line of a core's cache that is lost (R447). -/
def cacheLoss (core line : Nat) (s : State) : State :=
  let lost := s.cmp.cache.filter (fun e => keyCore e.1 == core && keyLine e.1 == line)
  lost.foldl (fun s e =>
    let s := dropCache e.1 s
    if e.2.dirty = 0 then s
    else (List.range 4).foldl (fun s j => if e.2.mask.getLsbD j then ctxFault (core * 4 + j) fMemErr 0 s else s) s) s

/-- A loss that is counted and not recorded (R447). -/
def countedOnly (s : State) : SramStructure → Bool
  | .translation _ _ => true
  | .coreCache core line => s.cmp.cache.all (fun e => !(keyCore e.1 == core.val && keyLine e.1 == line) || e.2.dirty == 0)
  | _ => false

/-- A cell of the reply store that is lost: it is discarded wherever it waits, and its buffer freed (R129). -/
def replyLoss (index : Nat) (s : State) : State :=
  if (getBuf s replyStore index).bit then
    let s := { s with sw := { s.sw with voqs :=
      (s.sw.voqs.map (fun e => (e.1, e.2.filter (fun q => !(q.store == replyStore && q.index == index))))).filter (fun e => !e.2.isEmpty) } }
    freeBuf replyStore index s
  else s

/-- A slot buffer's cell that is lost (R129, R227). -/
def slotLoss (input sbuf : Nat) (s : State) : State :=
  if (sbufAt s input sbuf).cell.isSome then bump (0x3310 + input) 0xB (setSbuf input sbuf {} s) else s

/-- A descriptor that is lost: a ledger fault; its REF is open until the sump audit reconciles it (R447). -/
def descriptorLoss (stall index : Nat) (s : State) : State :=
  let ref := nextFree s 8
  setBuf stall index { getBuf s stall index with ref := ref } (drawn (ledgerFault stall index 6 s))

/-- An entry of the ACTIVE calendar bank that is lost is open until the bank is replaced (R447). -/
def calendarLoss (o off : Nat) (s : State) : State :=
  let b := activeNo s
  match b, mapGet (activeSlots s) (recordPlace o off) with
  | some n, some e =>
    let w := e.word.toNat
    let s := modBankCal n (fun b => { b with slots := mapErase b.slots (recordPlace o off) }) s
    if (sbufAt s (eInput w) (eSbuf w)).cell.isSome then releaseRef (eInput w) (eSbuf w) false s else s
  | _, _ => s

/-- An entry of the ACTIVE route bank that is lost: MODE 0, or port FFh (R447). -/
def routeLoss (table i : Nat) (s : State) : State :=
  if (bank s s.routes.current).state = .active then
    modBank s.routes.current (fun b =>
      if table = 0 then { b with group := mapSet b.group i (BitVec.ofNat 64 (groupEntry b i - bits (groupEntry b i) 16 2 * 65536)) }
      else if table = 1 then { b with member := mapSet b.member i 0xFF }
      else { b with port := mapSet b.port i (BitVec.ofNat 64 (portEntry b i - bits (portEntry b i) 0 2)) }) s
  else s

/-- What an uncorrectable word does in its structure (R447). -/
def sramLoss (x : SramStructure) (s : State) : State :=
  match x with
  | .stallBuffer p i => if 5376 ≤ i then slotLoss p.val (i - 5376) s else dropBad p.val i s
  | .replyStore i => replyLoss i s
  | .descriptor p i => descriptorLoss p.val i s
  | .combining e => { s with sw := { s.sw with comb := mapErase s.sw.comb e } }
  | .joiner e m => { s with sw := { s.sw with comb := mapMod s.sw.comb e (fun c => { c with
      closed := true, members := (List.range c.members.length).zip c.members |>.map (fun j => if j.1 = m then { j.2 with lost := true } else j.2) }) } }
  | .replay p =>
    let s := modPort p (fun q => { q with sendReset := true }) (discardReplay p s)
    if (s.port p).train = .active then toLock false p s else s
  | .tally src => holdTimeout src.toNat s
  | .release line => { s with bep := { s.bep with releases := s.bep.releases.filter (fun r => r.line != line) } }
  | .directoryBlock b => pumpWork 64 (repairBlock b s)
  | .translation set way => modXlat (fun x => { x with entries := mapErase x.entries (set * 16 + way), lru := x.lru.erase (set * 16 + way) }) s
  | .coreCache core line => cacheLoss core.val line s
  | .scratchpad core slot => ctxFault (ctxKey core slot) fMemErr 0 s
  | .registerSet core slot => ctxFault (ctxKey core slot) fMemErr 0 s
  | .instructionCache _ => s
  | .routeBank table i => routeLoss table.val i s
  | .calendarBank o off => calendarLoss o.val off s
  | .fabricTime => setMode .free s
  | .muster => { s with muster := { running := s.muster.running, census := s.muster.running } }

/-- A finding of a scrub or of a read (R446, R447): a corrected symbol is written back and counted; an uncorrectable word
acts by its structure. -/
def takeFinding (f : SramFinding) (s : State) : State :=
  let w := structureWord f.place
  if f.uncorrectable then
    let only := countedOnly s f.place
    let s := sramLoss f.place s
    if controlPlane f.place then log 0x7103 [w.1, w.2] (bump 0x7100 3 s)
    else if only then bump 0x7100 2 s
    else log 0x7102 [w.1, w.2] (bump 0x7100 2 s)
  else log 0x7101 [w.1, w.2] (bump 0x7100 1 s)

/-- Take the findings in a class of structures. -/
def takeFindings (f : SramStructure → Bool) (l : List SramFinding) (s : State) : State :=
  (l.filter (fun x => f x.place)).foldl (fun s x => takeFinding x s) s

/-- The buffer that the stall scrub reads. -/
def inStallScrub (pos : Nat) : SramStructure → Bool
  | .stallBuffer _ i => i == pos
  | _ => false

/-- Structures of the second scrub slot (R146). -/
def inStructureScrub : SramStructure → Bool
  | .descriptor _ _ => true
  | .combining _ => true
  | .joiner _ _ => true
  | .replyStore _ => true
  | _ => false

/-- Structures that R146 does not name (R448). -/
def inIdleScrub (x : SramStructure) : Bool :=
  !inStructureScrub x && (match x with
    | .stallBuffer _ _ => false
    | _ => true)

/-- STALL_SCRUB (R146): one buffer of every stall. -/
def stallScrub (l : List SramFinding) (s : State) : State :=
  let s := takeFindings (inStallScrub s.sw.scrubPos) l (advanceTo (backgroundTick s 512 127) s)
  { s with sw := { s.sw with scrubPos := (s.sw.scrubPos + 1) % stallBuffers } }

/-- STRUCTURE_SCRUB (R146): in its slot when the lantern does not sample. -/
def structureScrub (l : List SramFinding) (s : State) : State :=
  let t := backgroundTick s 512 511
  let t := if t % 16384 = 16383 ∧ odGet s 0x7101 1 = 1 then t + 512 else t
  takeFindings inStructureScrub l (advanceTo t s)

/-! ### The log -/

/-- EVENT_ACKNOWLEDGE (R449): every event up to a SEQ closes. -/
def eventAcknowledge (v : Nat) (s : State) : State :=
  lookAlert { s with log := { s.log with opened := s.log.opened.filter (fun e => decide (v < e.1)) } }

/-! ### Meanings -/

/-- STALL_SCRUB (R146). -/
def execStallScrub (l : List SramFinding) (s : State) : Host.Outcome State Fault Refusal := .next (stallScrub l s)

/-- STRUCTURE_SCRUB (R146). -/
def execStructureScrub (l : List SramFinding) (s : State) : Host.Outcome State Fault Refusal := .next (structureScrub l s)

/-- IDLE_PORT_SCRUB (R448). -/
def execIdlePortScrub (l : List SramFinding) (s : State) : Host.Outcome State Fault Refusal := .next (takeFindings inIdleScrub l s)

/-- LOG_FLUSH (R453). -/
def execLogFlush (s : State) : Host.Outcome State Fault Refusal := .next (flushLog s)

/-- EVENT_ACKNOWLEDGE (R449). -/
def execEventAcknowledge (_src : Route) (v : BitVec 32) (s : State) : Host.Outcome State Fault Refusal :=
  .next (eventAcknowledge v.toNat (beginOp s))

end Sys2Proof.Machine
end

