-- ==== Sys2Proof/Machine/Aborts.lean ====
section
/-!
DEFINITION. The resets that act on contexts and on the switch alone (R461, R463): port, engine, core, cluster, tenant and
crossbar. What each clears; Machine/Resets.lean orders them and notes their completion.
-/

namespace Sys2Proof.Machine

open Sys2Proof

/-! ### Contexts -/

/-- The contexts that a reset of an engine, core, cluster or tenant aborts. -/
def resetReach (domain target : Nat) (k : Nat) (c : Ctx) : Bool :=
  if domain = 8 then k / 4 == target / 4 && bit (ctxStreams c) (target % 4)
  else if domain = 7 then k / 4 == target
  else if domain = 6 then k / 32 == target
  else domain == 5 && c.tenant == target

/-- Abort every context in reach, in parallel. -/
def abortAll (domain target : Nat) (s : State) : State :=
  ((liveSlots s).filter (fun e => resetReach domain target e.1 e.2)).foldl (fun s e => abortCtx e.1 s) s

/-- A core's caches are discarded and its scratchpad zeroed. -/
def clearCore (core : Nat) (s : State) : State :=
  modCmp (fun m => { m with cache := m.cache.filter (fun e => keyCore e.1 != core), sp := m.sp.filter (fun e => e.1 / 1048576 != core) }) s

/-- CORE_RESET (R461). -/
def resetCore (core : Nat) (s : State) : State := clearCore core (abortAll 7 core s)

/-- The running step of a window has used a cluster: one of its data cells is served there (R312). -/
def usedCluster (w : Win) (k : Nat) : Bool :=
  w.running.isSome && (w.red.any (fun e => e.1 % 16 % 8 == k) || w.taken.any (fun e => e.1 % 16 % 8 == k)
    || w.formed.any (fun e => e.1 % 16 % 8 == k))

/-- CLUSTER_RESET (R461): its 8 cores, and the steps that used it fail with cause ERROR. -/
def resetCluster (k : Nat) (s : State) : State :=
  let s := (List.range 8).foldl (fun s j => clearCore (8 * k + j) s) (abortAll 6 k s)
  s.coll.wins.foldl (fun s e => if usedCluster e.2 k then failStep e.1 3 none s else s) s

/-! ### Tenants (R463) -/

/-- Discard a tenant's cells from its own queues of VC0–VC7. -/
def dropTenantCells (t : Nat) (s : State) : State :=
  let mine := s.sw.voqs.filter (fun e => voqTenant e.1 == t && decide (voqVc e.1 < 8))
  let s := { s with sw := { s.sw with voqs := s.sw.voqs.filter (fun e => !(voqTenant e.1 == t && decide (voqVc e.1 < 8))) } }
  mine.foldl (fun s e => e.2.foldl (fun s q => giveBack q.store q.index s) s) s

/-- TENANT_ABORT (R463): contexts, reserved entries, running steps, and in isolated mode queued cells. -/
def abortTenant (t : Nat) (s : State) : State :=
  let s := abortAll 5 t s
  let s := modCal (fun c => { c with stopped := if c.stopped.contains t then c.stopped else c.stopped ++ [t] }) s
  let s := s.coll.wins.foldl (fun s e =>
    if winBound e.2 && dTenant e.2.desc == t then modWin e.1 (fun w => { w with state := 2 }) (failStep e.1 3 none s) else s) s
  if isolated s then dropTenantCells t s else s

/-! ### Port and crossbar -/

/-- PORT_RESET (R461): through DISABLED to DETECT; the replay buffer is discarded, SEQ_RESET sent, the queues flushed. -/
def resetPort (p : PortN) (s : State) : State :=
  if role s p = 0 then toDisabled p s else wakePort p (toDisabled p s)

/-- CROSSBAR_RESET (R461): the stalls, the auctioneer, the ledger, the combining unit and the slot buffers are cleared, and
every port that is not DISABLED enters LOCK. Requests that the directory had not answered are lost with their buffers. -/
def resetCrossbar (s : State) : State :=
  let s := { s with sw := { highest := s.sw.highest, auditPos := s.sw.auditPos, scrubPos := s.sw.scrubPos } }
  let s := modCal (fun c => { c with sbufs := c.sbufs.filter (fun e => decide (24 * 4096 ≤ e.1)), dsets := [] }) s
  let s := modGrotto (fun g => { g with pending := [], lines := g.lines.map (fun e => (e.1, { e.2 with access := none, owed := false })) }) s
  let s := s.grotto.lines.foldl (fun s e => settle e.1 s) s
  forPorts (fun p s =>
    let s := modPort p (fun q => { q with staged := [] }) s
    if (s.port p).train = .disabled then s else toLock false p s) s

/-! ### What a reset does at once -/

/-- The effect of a reset of the domains 4 to 9. -/
def resetEffect (r : ResetRun) (s : State) : State :=
  match r.domain with
  | 4 => resetCrossbar s
  | 5 => abortTenant r.target s
  | 6 => resetCluster r.target s
  | 7 => resetCore r.target s
  | 8 => abortAll 8 r.target s
  | 9 => if h : r.target < 24 then resetPort ⟨r.target, h⟩ s else s
  | _ => s

/-- A reset has concluded: event 7130h, its counter and OD 7102.03 (R451, R481). -/
def resetDone (r : ResetRun) (s : State) : State :=
  log 0x7130 [r.domain, r.target, r.cause] (bump 0x7103 r.domain
    { s with resets := { s.resets with last := r.domain * 65536 + r.target } })

/-- A context that the reset aborts has not left ABORTING. -/
def resetBusy (s : State) (r : ResetRun) : Bool :=
  r.domain ≤ 3 || (decide (r.domain ≤ 8) && (liveSlots s).any (fun e => e.2.state == .aborting && resetReach r.domain r.target e.1 e.2))

/-- Begin a reset of the domains 4 to 9: it has concluded at once unless contexts are still to abort. -/
def beginReset (r : ResetRun) (s : State) : State :=
  let s := resetEffect r s
  if resetBusy s r then { s with resets := { s.resets with running := s.resets.running ++ [r] } } else resetDone r s

end Sys2Proof.Machine
end

