-- ==== Sys2Proof/Machine/Gddr.lean ====
section
/-!
DEFINITION. The GDDR7 channels (R352–R367): background slots, burst slots, retraining, the BAR2 window, and the status
words. An access of a command reads or writes its line at once; its burst follows on the channel (assumption 30).
-/

namespace Sys2Proof.Machine

open Sys2Proof

/-! ### The next slot (R359) -/

/-- Is the tick in a background slot? -/
def inBackground (ft : Nat) : Bool := decide (124 ≤ ft % 128)

/-- The next background slot after the present tick. -/
def nextBackground (ft : Nat) : Nat := if ft % 128 < 124 then ft - ft % 128 + 124 else ft - ft % 128 + 252

/-- The next burst slot after the present tick that is no background slot. -/
def nextBurst (ft : Nat) : Nat :=
  let t := ft - ft % 4 + 4
  if inBackground t then t + 4 else t

/-! ### Faults of a burst (R362) -/

/-- Number of the per-channel counters of corrected symbols and uncorrectable words. -/
def bumpChan (k lo : Nat) (s : State) : State := bump (0x5310 + k / 4) (lo + k % 4) s

/-- The poison bit of a line is set. -/
def poisonLine (line : Nat) (s : State) : State :=
  if lineBad s line then s else { s with mem := { s.mem with poison := s.mem.poison ++ [line] } }

/-- A channel starts to retrain. -/
def startRetrain (k : Nat) : State → State := modChan k (fun c => { c with retraining := true, crcTries := 0 })

/-- CHANNEL_RETRAIN: the retrain ends; a channel that does not train is FAILED. -/
def channelRetrain (k : Nat) (ok : Bool) (s : State) : State :=
  if (chan s k).retraining = false then s
  else
    let s := bump 0x5300 0x16 (modChan k (fun c => { c with retraining := false, retrains := min 255 (c.retrains + 1), trained := ok }) s)
    if ok then s else raiseCause 7 (log 0x5303 [k] (modChan k (fun c => { c with failed := true }) s))

/-! ### Background slots (R359) -/

/-- Row segments of a bank of a channel (R354). -/
def segments (s : State) : Nat := usableBytes s / 1920 / 2048

/-- The data line at a position of a row segment (R355, R356); none for the check line. -/
def lineAt (s : State) (k bank seg pos : Nat) : Option Nat :=
  if 15 ≤ pos then none
  else
    let g := if s.mem.coloured then k + 128 * seg + bank * (colourSize s / 1920) else k + 128 * bank + 2048 * seg
    some (15 * g + pos)

/-- A scrub read of one position: what the code says of it. -/
def scrubRead (k bank at_ : Nat) (r : BurstResult) (s : State) : State :=
  let seg := at_ / 16
  let place := [k, bank, seg, at_ % 16]
  match r with
  | .corrected => log 0x5301 place (bumpChan k 5 (bump 0x5300 0x11 (modChan k (fun c => { c with fix := some at_ }) s)))
  | .uncorrectable =>
    let s := match lineAt s k bank seg (at_ % 16) with
      | some l => bump 0x5300 0x13 (poisonLine l s)
      | none => s
    log 0x5302 place (bumpChan k 9 s)
  | .eccReport => bump 0x5300 0x17 s
  | .good => s
  | .readCrc => bump 0x5300 0x14 s
  | .writeCrc => s

/-- A channel's part of background slot `m`: the refresh closes a bank's row, then one scrub burst. -/
def backgroundChan (m k : Nat) (scrub : Bool) (r : BurstResult) (s : State) : State :=
  let s := modChan k (fun c => { c with rows := mapErase c.rows (m % 16) }) s
  let bank := (m + 8) % 16
  let c := chan s k
  if !scrub || c.failed || c.retraining then s
  else
    match c.fix with
    | some _ => modChan k (fun c => { c with fix := none }) s
    | none =>
      let at_ := mapGetD c.scrub bank 0
      let s := scrubRead k bank at_ r s
      let done := decide (16 * segments s ≤ at_ + 1)
      let s := modChan k (fun c => { c with scrub := mapSet c.scrub bank (if done then 0 else at_ + 1) }) s
      if done ∧ bank = 15 ∧ k = 127 then bump 0x5300 0x1A s else s

/-- BACKGROUND_SLOT: the next one, on every channel. -/
def backgroundSlot (found : List (Fin 128 × BurstResult)) (s : State) : State :=
  if s.mem.state ≠ .ready then s
  else
    let t := nextBackground s.time.ft
    let skipped := s.time.trims.any (fun e => e.1 == t + 3 && e.2 == .skip)
    let scrub := odGet s 0x5300 6 == 1 && !skipped
    let s := advanceTo t s
    (List.finRange 128).foldl (fun s k =>
      let r := match found.find? (fun e => e.1 == k) with
        | some e => e.2
        | none => .good
      backgroundChan (t / 128) k.val scrub r s) s

/-! ### Burst slots (R360) -/

/-- Bursts that a channel may issue in burst slot `n`: in isolated mode those of the slot's owner. -/
def burstsAllowed (s : State) (n : Nat) (q : List (Nat × Bool × Nat)) : List (Nat × Bool × Nat) :=
  if isolated s then
    let o := rotationNow s n
    q.filter (fun b => b.2.2 == o)
  else q

/-- The burst that a channel issues: the oldest, preferring a row hit within its bank. -/
def pickBurst (s : State) (k : Nat) (l : List (Nat × Bool × Nat)) : Option (Nat × Bool × Nat) :=
  match l with
  | [] => none
  | b :: _ =>
    let bank := (placeOf s b.1).bank
    let hit := l.find? (fun x => (placeOf s x.1).bank == bank && mapGet (chan s k).rows bank == some (placeOf s x.1).seg)
    some (hit.getD b)

/-- A burst has been carried out. -/
def burstDone (k : Nat) (b : Nat × Bool × Nat) (s : State) : State :=
  let q := placeOf s b.1
  modChan k (fun c => { c with queue := c.queue.erase b, rows := mapSet c.rows q.bank q.seg, crcTries := 0 }) s

/-- A bus CRC error: the burst is repeated up to 4 times; then a read is uncorrectable, and the channel retrains. -/
def burstAgain (k : Nat) (b : Nat × Bool × Nat) (read : Bool) (s : State) : State :=
  let s := bump 0x5300 (if read then 0x14 else 0x15) s
  if (chan s k).crcTries < 4 then modChan k (fun c => { c with crcTries := c.crcTries + 1 }) s
  else if read then startRetrain k (countBad b.1 (poisonLine b.1 (burstDone k b s)))
  else startRetrain k s

/-- The burst of a channel with its result on the bus and in the code (R362). -/
def burstResult (k : Nat) (b : Nat × Bool × Nat) (r : BurstResult) (s : State) : State :=
  match r with
  | .good => burstDone k b s
  | .corrected => log 0x5301 (placeDetail (placeOf s b.1)) (bumpChan k 5 (bump 0x5300 0x10 (burstDone k b s)))
  | .uncorrectable => if b.2.1 then burstDone k b s else countBad b.1 (poisonLine b.1 (burstDone k b s))
  | .readCrc => if b.2.1 then burstDone k b s else burstAgain k b true s
  | .writeCrc => if b.2.1 then burstAgain k b false s else burstDone k b s
  | .eccReport => bump 0x5300 0x17 (burstDone k b s)

/-- BURST_SLOT: the next one, on every channel. -/
def burstSlot (results : List (Fin 128 × BurstResult)) (s : State) : State :=
  if s.mem.state ≠ .ready then s
  else
    let t := nextBurst s.time.ft
    let s := advanceTo t s
    (List.finRange 128).foldl (fun s k =>
      let c := chan s k.val
      if c.failed || c.retraining then s
      else match pickBurst s k.val (burstsAllowed s (t / 4) c.queue) with
        | none => s
        | some b =>
          let r := match results.find? (fun e => e.1 == k) with
            | some e => e.2
            | none => .good
          burstResult k.val b r s) s

/-! ### BAR2 (R363, R371) -/

/-- A BAR2 access to a closed region: counted, and reported as Unsupported Request. -/
def bar2Closed (s : State) : State := emit (.aer "Unsupported Request") (bump 0x5300 0x19 s)

/-- The local offset of a BAR2 access. -/
def bar2Offset (s : State) (x : Nat) : Nat := s.host.bar2Base.toNat + x % 2 ^ 32

/-- A BAR2 access may not reach these bytes. -/
def bar2Shut (s : State) (off n : Nat) : Bool := decide (usable s < off + n) || closedRange s off n

/-- Bytes of a line in a failed channel, or uncorrectable, among a run. -/
def bar2Bad (s : State) (off n : Nat) : Bool :=
  (List.range ((off + n + 127) / 128 - off / 128)).any (fun k =>
    lineBad s (off / 128 + k) || (chan s (placeOf s (off / 128 + k)).chan).failed)

/-- BAR2_READ. -/
def bar2Read (x n : Nat) (s : State) : State :=
  if s.host.linkUp = false then s
  else if s.host.d3hot then emit .unsupportedRequest s
  else
    let off := bar2Offset s x
    if bar2Shut s off n then bar2Closed (emit .unsupportedRequest s)
    else
      let s := (List.range ((off + n + 127) / 128 - off / 128)).foldl (fun s k => touchLine (off / 128 + k) false 16 s) s
      if bar2Bad s off n then emit (.bar2Poisoned n) s else emit (.bar2Data (cellsGet s.mem.cells off n)) s

/-- One line of a BAR2 write: the enabled bytes. -/
def bar2Line (line : Nat) (off : Nat) (data : List (Option Byte)) (s : State) : State :=
  let here (i : Nat) : Option Byte := if off ≤ 128 * line + i then (data[128 * line + i - off]?).join else none
  let mask := (List.range 128).foldl (fun m i => m + flag (here i).isSome i) 0
  if mask = 0 ∨ (chan s (placeOf s line).chan).failed = true then s
  else (writeLine line mask ((List.range 128).map (fun i => (here i).getD 0)) 16 s).2

/-- BAR2_WRITE. -/
def bar2Write (x : Nat) (data : List (Option Byte)) (s : State) : State :=
  if barOpen s = false then s
  else
    let off := bar2Offset s x
    if bar2Shut s off data.length then bar2Closed s
    else (List.range ((off + data.length + 127) / 128 - off / 128)).foldl (fun s k => bar2Line (off / 128 + k) off data s) s

/-! ### Status words (R366, R367) -/

/-- Code of a memory state. -/
def memCode : MemState → Nat
  | .untrained => 0
  | .training => 1
  | .zeroFilling => 2
  | .ready => 3
  | .selfRefresh => 4
  | .failed => 5

/-- Channels in FAILED. -/
def failedChannels (s : State) : Nat := (s.mem.chans.filter (fun e => e.2.failed)).length

/-- OD 5300.05. -/
def memStatus (s : State) : Nat :=
  min 255 (failedChannels s) * 256 + flag (odGet s 0x5300 6 == 1 && s.mem.state == .ready) 4 + flag (s.mem.coloured && s.mem.state != .untrained) 3
    + memCode s.mem.state

/-- OD (5310h + d).01–04. -/
def chanStatus (c : Chan) : Nat := c.retrains * 256 + flag c.failed 3 + flag c.retraining 2 + flag c.trained 1 + flag c.present 0

/-! ### Meanings -/

/-- BACKGROUND_SLOT (R359). -/
def execBackgroundSlot (found : List (Fin 128 × BurstResult)) (s : State) : Host.Outcome State Fault Refusal :=
  .next (backgroundSlot found s)

/-- BURST_SLOT (R360). -/
def execBurstSlot (results : List (Fin 128 × BurstResult)) (s : State) : Host.Outcome State Fault Refusal :=
  .next (burstSlot results s)

/-- CHANNEL_RETRAIN (R362). -/
def execChannelRetrain (channel : Fin 128) (ok : Bool) (s : State) : Host.Outcome State Fault Refusal :=
  .next (channelRetrain channel.val ok s)

/-- BAR2_READ (R363). -/
def execBar2Read (offset : Nat) (len : Nat) (s : State) : Host.Outcome State Fault Refusal := .next (bar2Read offset len s)

/-- BAR2_WRITE (R363). -/
def execBar2Write (offset : Nat) (data : List (Option Byte)) (s : State) : Host.Outcome State Fault Refusal :=
  .next (bar2Write offset data s)

end Sys2Proof.Machine
end

