-- ==== Sys2Proof/Machine/Muster.lean ====
section
/-!
DEFINITION. The muster (R467–R477): the census, views and detections, epochs and their agreement, the recovery steps,
re-admission. A GV24 is numbered g × 8 + s; coordinates are in address form.
-/

namespace Sys2Proof.Machine

open Sys2Proof

/-- Change the muster. -/
def modMuster (f : Muster → Muster) (s : State) : State := { s with muster := f s.muster }

/-- Length of a muster round. -/
def musterRound : Nat := 131072

/-- The number of the GV24 of a coordinate. -/
def gvOf (c : Nat) : Nat := c / 32

/-- The own number. -/
def ownNo (s : State) : Nat := odGet s 0x3000 1 * 8 + odGet s 0x3000 2

/-- g.s.31 of a GV24. -/
def gvCoord (n : Nat) : Nat := n * 32 + 31

/-- Add to a list kept in ascending order. -/
def insertAsc (x : Nat) : List Nat → List Nat
  | [] => [x]
  | h :: r => if x = h then h :: r else if x < h then x :: h :: r else h :: insertAsc x r

/-- Union into a list in ascending order. -/
def unionAsc (l m : List Nat) : List Nat := l.foldl (fun a x => insertAsc x a) m

/-- The GV24 takes part: committed, enabled from its census on, LOCKED or HOLDOVER (R467). -/
def takesPart (s : State) : Bool := assigned s && s.muster.running && (s.time.mode == .locked || s.time.mode == .holdover)

/-- A port eligible for muster cells (R468). -/
def musPort (s : State) (p : PortN) : Bool :=
  let q := s.port p
  (role s p == 2 || role s p == 3) && q.train == .active && q.status == 1 && !q.time.suspect

/-- The membership that stands: the members that have not failed. -/
def surviving (s : State) : List Nat := s.muster.members.filter (fun x => !s.muster.failed.contains x)

/-- F as a bitmap: bit s of byte g. -/
def failedBytes (l : List Nat) : Bytes :=
  (List.range 255).map (fun g => BitVec.ofNat 8 ((List.range 8).foldl (fun n i => n + flag (l.contains (g * 8 + i)) i) 0))

/-- The GV24s of a bitmap. -/
def bitmapGvs (b : Bytes) : List Nat :=
  ((List.range b.length).zip b).flatMap (fun e => (membersOf e.2).map (fun i => e.1 * 8 + i))

/-- CHECK of a VIEW (R469). -/
def musterCheck (s : State) : Nat :=
  (crc64 (failedBytes s.muster.failed ++ s.muster.lost.flatMap (fun c => natLe 2 c))).toNat

/-- The last recovery step completed in the epoch. -/
def lastStep (s : State) : Nat := if s.muster.tag.1 = s.muster.epoch then s.muster.tag.2 else 0

/-! ### Cells (R468, R469) -/

/-- A `MUS` cell. -/
def musCell (s : State) (p : PortN) (sub aux : Nat) (payload : Bytes) : Cell :=
  { addr := mkAddr (partnerName (s.port p)) 0, src := coord s 31, vc := 11, op := opMUS, sub := BitVec.ofNat 4 sub, len := 0,
    aux := BitVec.ofNat 32 aux, payload := payload }

/-- Send a `MUS` cell on a port at its first VC11 opportunity: now, or from the queue of VC11. -/
def sendMus (sub aux : Nat) (payload : Bytes) (p : PortN) (s : State) : State :=
  let c := musCell s p sub aux payload
  if vc11Open s p then issueCell p c s else enqueue 24 p.val departureStore 0 c s

/-- Send a `MUS` cell on every eligible port but one. -/
def floodMus (sub aux : Nat) (payload : Bytes) (but : Option PortN) (s : State) : State :=
  forPorts (fun p s => if musPort s p = true ∧ but ≠ some p then sendMus sub aux payload p s else s) s

/-- Payload of a VIEW. -/
def viewBytes (v : ViewCell) : Bytes :=
  natLe 2 v.origin.toNat ++ natLe 1 v.flags.toNat ++ natLe 1 v.relays.toNat ++ natLe 4 v.epoch.toNat ++ natLe 4 v.round.toNat
    ++ natLe 8 v.check.toNat ++ natLe 1 v.step.toNat

/-- The own VIEW. -/
def ownView (s : State) (resetting : Bool) : ViewCell where
  origin := coord s 31
  flags := BitVec.ofNat 8 (flag resetting 0 + flag (s.muster.failed.contains (ownNo s)) 1 + flag s.muster.partitioned 2)
  relays := 0
  epoch := BitVec.ofNat 32 s.muster.epoch
  round := BitVec.ofNat 32 (s.time.ft / musterRound)
  check := BitVec.ofNat 64 (musterCheck s)
  step := BitVec.ofNat 8 (lastStep s)

/-- The payload of the own FSET. -/
def fsetBytes (s : State) : Bytes := failedBytes s.muster.failed

/-- The payload of the own LOSS: at most 127 coordinates. -/
def lossBytes (l : List Nat) : Bytes := natLe 2 (min 127 l.length) ++ (l.take 127).flatMap (fun c => natLe 2 c)

/-- Lists of at most 127 coordinates, for one LOSS each. -/
def lossParts : Nat → List Nat → List (List Nat)
  | 0, _ => []
  | fuel + 1, l => if l.length ≤ 127 then [l] else l.take 127 :: lossParts fuel (l.drop 127)

/-- Send the own FSET and LOSS on a port. -/
def sendSets (p : PortN) (s : State) : State :=
  (lossParts 17 s.muster.lost).foldl (fun s l => sendMus 3 s.muster.epoch (lossBytes l) p s) (sendMus 2 s.muster.epoch (fsetBytes s) p s)

/-- Flood the own FSET and LOSS (R470). -/
def floodSets (s : State) : State := forPorts (fun p s => if musPort s p then sendSets p s else s) s

/-- A link-local cell of the muster is taken off its port. -/
def takeMus (p : PortN) (sub : Nat) (s : State) : State :=
  match (s.port p).taken.find? (fun c => c.op == opMUS && c.sub.toNat == sub) with
  | some c => takeFrom p c s
  | none => s

/-- Phase B of a muster round (R470). -/
def phaseB (s : State) : Bool := decide (32768 ≤ s.time.ft % musterRound) && decide (s.time.ft % musterRound < 65536)

/-- Send a RESETTING VIEW at once (R464, R470). -/
def sendResetting (s : State) : State := if takesPart s then floodMus 1 0 (viewBytes (ownView s true)) none s else s

/-! ### Census and views (R467, R470, R471) -/

/-- MUSTER_CENSUS: the first round at or after the arm tick is the census round; with OD 7120.01 = 0 the muster goes off. -/
def musterCensus (s : State) : State :=
  let arm := odGet s 0x7120 2
  if arm = 0 then s
  else
    let s := odSet 0x7120 2 0 (advanceTo (ceilTo musterRound arm) s)
    if odGet s 0x7120 1 = 1 then
      modMuster (fun m => { m with
        running := true, census := true, members := [ownNo s], change := [], views := [], missed := [], relayed := [], partitioned := false,
        changedB := false, differed := false }) s
    else modMuster (fun m => { m with running := false, census := false }) s

/-- VIEW_ORIGINATE: one VIEW in phase B of a round. -/
def viewOriginate (s : State) : State :=
  let r := s.time.ft % musterRound
  let start := s.time.ft - r
  let at_ := if r < 32768 then start + 32768 else if r < 65536 then s.time.ft else start + musterRound + 32768
  let s := advanceTo at_ s
  let own := (coord s 31).toNat
  if takesPart s = true ∧ s.muster.relayed.contains own = false then
    floodMus 1 0 (viewBytes (ownView s false)) none (modMuster (fun m => { m with relayed := own :: m.relayed }) s)
  else s

/-- A RESETTING VIEW is relayed besides the one of the round. -/
def relayKey (v : ViewCell) : Nat := v.origin.toNat + (if v.flags.getLsbD 0 then 65536 else 0)

/-- Relay a VIEW once per origin and round (R470). -/
def relayView (p : PortN) (v : ViewCell) (s : State) : State :=
  if s.muster.relayed.contains (relayKey v) then s
  else
    let s := modMuster (fun m => { m with relayed := relayKey v :: m.relayed }) s
    if v.relays.toNat < 7 then floodMus 1 0 (viewBytes { v with relays := v.relays + 1 }) (some p) s else s

/-- A party enters the change set. -/
def addChange (c : Nat) (s : State) : State :=
  if s.muster.change.contains c then s else modMuster (fun m => { m with change := m.change ++ [c] }) s

/-- VIEW (R470, R471, R473). -/
def viewReceive (p : PortN) (v : ViewCell) (s : State) : State :=
  let s := takeMus p 1 s
  let x := gvOf v.origin.toNat
  if takesPart s = false ∨ musPort s p = false ∨ x = ownNo s then s
  else
    let s := relayView p v s
    let s := if v.epoch.toNat < s.muster.epoch then sendSets p s else s
    let counts := !v.flags.getLsbD 1
    let s := if v.flags.getLsbD 0 && counts && (surviving s).contains x then addChange (gvCoord x) s else s
    if phaseB s then
      let same := v.epoch.toNat == s.muster.epoch && v.check.toNat == musterCheck s
      modMuster (fun m => { m with
        views := if counts && !m.views.contains x then x :: m.views else m.views, differed := m.differed || !same }) s
    else s

/-! ### Epochs (R472, R473) -/

/-- A new epoch begins at this GV24, by its own detection or by a set received: its agreement is to come. -/
def beginEpoch (e : Nat) (s : State) : State :=
  bump 0x7120 0x10 (modMuster (fun m => { m with
    epoch := e, agreeing := true, decided := false, before := if m.agreeing then m.before else surviving s }) s)

/-- The previous epoch has not completed step 4. -/
def unfinished (s : State) : Bool := s.muster.agreeing || s.muster.decided

/-- Restarts within the last second. -/
def recentRestarts (s : State) : List Nat := s.muster.restarts.filter (fun t => decide (s.time.ft < t + 1250000000))

/-- A restart is counted; the eighth within a second escalates (R476). -/
def noteRestart (old : Nat) (s : State) : State :=
  let s := log 0x7121 [old, s.muster.epoch] (bump 0x7120 0x12 (modMuster (fun m => { m with restarts := s.time.ft :: recentRestarts s }) s))
  if s.muster.restarts.length < 8 then s
  else
    let mask := s.muster.marked.foldl (fun n t => n + 2 ^ t) 0
    let s := bump 0x7120 0x13 (log 0x7122 [s.muster.epoch, mask] s)
    let s := s.muster.marked.foldl (fun s t => beginReset { domain := 5, target := t, cause := 4 } s) s
    modMuster (fun m => { m with restarts := [], marked := [] }) s

/-- Start epoch `e`, a restart where the previous one is unfinished. -/
def startEpoch (e : Nat) (s : State) : State :=
  let old := s.muster.epoch
  let again := unfinished s
  let s := beginEpoch e s
  if again then noteRestart old s else modMuster (fun m => { m with marked := [] }) s

/-- The end-points of a GV24 are lost with it (R472's example). -/
def withEndPoints (gvs : List Nat) : List Nat := gvs.flatMap (fun n => (List.range 8).map (fun p => n * 32 + p))

/-- Merge a received set: a higher epoch is taken, F and L are joined (R472, R475). Answers whether anything changed. -/
def mergeSets (e : Nat) (f l : List Nat) (s : State) : Bool × State :=
  let m := s.muster
  let s := if m.epoch < e then startEpoch e s else s
  let f' := unionAsc f m.failed
  let l' := unionAsc l m.lost
  let changed := decide (m.epoch < e) || f' != m.failed || l' != m.lost
  (changed, modMuster (fun m => { m with failed := f', lost := l', changedB := m.changedB || (changed && phaseB s) }) s)

/-- FSET (R472). -/
def fsetReceive (p : PortN) (e : Nat) (b : Bytes) (s : State) : State :=
  let s := takeMus p 2 s
  if takesPart s = false ∨ musPort s p = false then s
  else
    let r := mergeSets e (bitmapGvs (slice b 0 255)) [] s
    if r.1 then floodMus 2 e (slice b 0 255) (some p) r.2 else r.2

/-- LOSS (R472). -/
def lossReceive (p : PortN) (e : Nat) (l : List Nat) (s : State) : State :=
  let s := takeMus p 3 s
  if takesPart s = false ∨ musPort s p = false then s
  else
    let r := mergeSets e [] l s
    if r.1 then floodMus 3 e (lossBytes l) (some p) r.2 else r.2

/-! ### End of the window (R471–R473) -/

/-- Every bound window is marked by R321. -/
def markAllWindows (s : State) : State :=
  { s with coll := { s.coll with wins := s.coll.wins.map (fun e => if winBound e.2 then (e.1, { e.2 with lostNow := true }) else e) } }

/-- Detection: a member whose VIEW is missing in two rounds enters the change set. -/
def detectMissing (s : State) : State :=
  let gone := (surviving s).filter (fun x => x != ownNo s && !s.muster.views.contains x)
  let s := bumpN 0x7120 0x14 gone.length s
  let s := (gone.filter (fun x => s.muster.missed.contains x)).foldl (fun s x => addChange (gvCoord x) s) s
  modMuster (fun m => { m with missed := gone }) s

/-- The epoch is decided; too small a surviving membership is PARTITIONED (R473). -/
def decideEpoch (s : State) : State :=
  let s := bump 0x7120 0x11 (modMuster (fun m => { m with agreeing := false, decided := true }) s)
  let before := s.muster.before
  let after := surviving s
  let half := 2 * after.length = before.length
  let lowest := before.foldl min 2040
  if 2 * after.length < before.length ∨ (half ∧ after.contains lowest = false) then
    log 0x7123 [before.length, after.length] (bump 0x7120 0x15 (markAllWindows (modMuster (fun m => { m with partitioned := true }) s)))
  else s

/-- MUSTER_WINDOW_END, at offset 65,536 of a round. -/
def musterWindowEnd (s : State) : State :=
  let s := advanceTo (slotTick s.time.ft musterRound 65536) s
  if takesPart s = false then s
  else
    let s :=
      if s.muster.census then
        modMuster (fun m => { m with census := false, members := m.views.foldl (fun l x => insertAsc x l) [ownNo s] }) s
      else
        let s := detectMissing s
        let c := s.muster.change
        let gvs := (c.filter (fun x => x % 32 == 31)).map gvOf
        let eps := c.filter (fun x => x % 32 != 31)
        if !c.isEmpty then
          let s := startEpoch (s.muster.epoch + 1) s
          floodSets (modMuster (fun m => { m with
            failed := unionAsc gvs m.failed, lost := unionAsc (eps ++ withEndPoints gvs) m.lost, change := [] }) s)
        else if s.muster.agreeing then
          (if s.muster.changedB || s.muster.differed then floodSets (startEpoch (s.muster.epoch + 1) s) else decideEpoch s)
        else s
    modMuster (fun m => { m with views := [], relayed := [], changedB := false, differed := false }) s

/-! ### Recovery (R474) -/

/-- A destination is lost with its GV24 or by itself. -/
def partyLost (s : State) (c : Nat) : Bool := s.muster.failed.contains (gvOf c) || s.muster.lost.contains c

/-- One recovery step. -/
def recoveryStep (k : Nat) (s : State) : State :=
  match k with
  | 1 => { s with routes := { s.routes with lostGv := s.muster.failed, lostEp := s.muster.lost } }
  | 2 =>
    let hit := s.coll.wins.filter (fun e => winBound e.2 && (groupMembers s e.2.desc).any (partyLost s))
    modMuster (fun m => { m with marked := hit.foldl (fun l e => insertAsc (dTenant e.2.desc) l) m.marked }) (markLost (partyLost s) s)
  | 3 => forPorts (fun p s =>
      if s.muster.lost.contains (coord s p.val).toNat = true ∧ (s.port p).train ≠ .active ∧ role s p = 1
        ∧ s.grotto.lostMask.getLsbD p.val = false then loseMember p.val s else s) s
  | _ => log 0x7120 [s.muster.epoch, s.muster.failed.length, s.muster.lost.length] (modMuster (fun m => { m with decided := false }) s)

/-- MUSTER_RECOVERY_STEP, at offset 98,304 of a round: the next step whose tag is above the highest completed. -/
def musterStep (s : State) : State :=
  let s := advanceTo (slotTick s.time.ft musterRound 98304) s
  let k := lastStep s + 1
  if takesPart s = true ∧ s.muster.decided = true ∧ k ≤ 4 then
    recoveryStep k (modMuster (fun m => { m with tag := (m.epoch, k) }) s)
  else s

/-! ### Re-admission (R477) -/

/-- The coordinates of OD 7120.08. -/
def readmitted (s : State) : List Nat :=
  let b := blobGet s 0x7120 8
  (List.range (min 256 (b.length / 2))).map (fun k => fieldAt b (2 * k) 2)

/-- READMISSION, at its arm tick. -/
def readmission (s : State) : State :=
  let arm := odGet s 0x7120 9
  if arm = 0 then s
  else
    let s := odSet 0x7120 9 0 (advanceTo arm s)
    let l := readmitted s
    let gvs := (l.filter (fun x => x % 32 == 31)).map gvOf
    let s := modMuster (fun m => { m with
      failed := m.failed.filter (fun x => !gvs.contains x), lost := m.lost.filter (fun x => !l.contains x),
      members := gvs.foldl (fun a x => insertAsc x a) m.members, missed := m.missed.filter (fun x => !gvs.contains x) }) s
    bump 0x7120 0x16 { s with routes := { s.routes with
      lostGv := s.routes.lostGv.filter (fun x => !gvs.contains x), lostEp := s.routes.lostEp.filter (fun x => !l.contains x) } }

/-! ### Status (R483) -/

/-- STATE of OD 7120.03. -/
def musterState (s : State) : Nat :=
  if s.muster.running = false then 0
  else if takesPart s = false then 7
  else if s.muster.census then 1
  else if s.muster.partitioned then 5
  else if s.muster.failed.contains (ownNo s) then 6
  else if s.muster.agreeing then 3
  else if s.muster.decided then 4
  else 2

/-- OD 7120.03. -/
def musterStatus (s : State) : Nat :=
  lastStep s * 2 ^ 20 + min 15 (recentRestarts s).length * 2 ^ 16 + musterState s

/-! ### Meanings -/

/-- MUSTER_CENSUS (R467). -/
def execMusterCensus (s : State) : Host.Outcome State Fault Refusal := .next (musterCensus s)

/-- VIEW_ORIGINATE (R470). -/
def execViewOriginate (s : State) : Host.Outcome State Fault Refusal := .next (viewOriginate s)

/-- VIEW (R470). -/
def execView (p : PortN) (v : ViewCell) (s : State) : Host.Outcome State Fault Refusal := .next (viewReceive p v s)

/-- FSET (R472). -/
def execFset (p : PortN) (e : BitVec 32) (b : Bytes) (s : State) : Host.Outcome State Fault Refusal := .next (fsetReceive p e.toNat b s)

/-- LOSS (R472). -/
def execLoss (p : PortN) (e : BitVec 32) (l : List (BitVec 16)) (s : State) : Host.Outcome State Fault Refusal :=
  .next (lossReceive p e.toNat (l.map (fun c => c.toNat)) s)

/-- MUSTER_WINDOW_END (R473). -/
def execMusterWindowEnd (s : State) : Host.Outcome State Fault Refusal := .next (musterWindowEnd s)

/-- MUSTER_RECOVERY_STEP (R474). -/
def execMusterRecoveryStep (s : State) : Host.Outcome State Fault Refusal := .next (musterStep s)

/-- READMISSION (R477). -/
def execReadmission (s : State) : Host.Outcome State Fault Refusal := .next (readmission s)

end Sys2Proof.Machine
end

