-- ==== Sys2Proof/Machine/Keying.lean ====
section
/-!
DEFINITION. Keying of global links (R433–R438): offers, proofs, the link master secret, key starts and their switch. The
entry of a port to ACTIVE starts the handshake, and stands here too. A key is 36 bytes: AES key and salt.
-/

namespace Sys2Proof.Machine

open Sys2Proof

/-- Change the keying of a port. -/
def modKey (p : PortN) (f : Keying → Keying) : State → State := modPort p (fun q => { q with key := f q.key })

/-- Ticks of a superframe: slots 0–6,424 (R437). -/
def superframeTicks : Nat := 6425

/-- The superframe that the transmitter of a port is in (R436). -/
def superframeNow (s : State) (p : PortN) : Nat := (s.time.ft - (s.port p).key.since) / superframeTicks

/-! ### Firmware and policy (R421, R422, R433) -/

/-- The management firmware running. -/
def runningFirmware (s : State) : Option Firmware := if s.sec.runningB then s.sec.fwB else s.sec.fwA

/-- Measurement 2: the running firmware with its version. -/
def firmwareDigest (s : State) : BitVec 512 :=
  match runningFirmware s with
  | some f => Config.sha512 (f.bytes ++ natLe 4 f.version)
  | none => 0

/-- Records of `n` bytes in a list entry. -/
def listHas (l : Bytes) (n : Nat) (x : Bytes) : Bool := (List.range (l.length / n)).any (fun i => slice l (n * i) n == x)

/-- The first 16 bytes of a key's identity digest. -/
def idBytes (publicKey : Bytes) : Bytes := slice (natLe 64 (Config.sha512 publicKey).toNat) 0 16

/-- The refusal of a partner by R433: 4 not on the peer list, 5 firmware not permitted, 0 accepted. -/
def partnerRefusal (s : State) (o : KeyOffer) : Nat :=
  let fw := blobGet s 0x6020 2
  if listHas (blobGet s 0x6020 1) 16 (idBytes o.publicKey) = false then 4
  else if fw ≠ [] ∧ listHas fw 64 (natLe 64 o.firmware.toNat) = false then 5 else 0

/-! ### Messages (R434) -/

/-- A KEY_OFFER as bytes. -/
def offerBytes (o : KeyOffer) : Bytes := o.publicKey ++ o.y ++ o.r ++ natLe 64 o.firmware.toNat

/-- Send a keying message in fragments of one payload. -/
def sendKeying (p : PortN) (sub : Nat) (data : Bytes) (s : State) : State :=
  let n := (data.length + 255) / 256
  let no := (s.port p).key.msgNo
  let s := (List.range n).foldl (fun s i => sendMus sub (no % 65536 * 65536 + n * 256 + i) (slice data (256 * i) 256) p s) s
  modKey p (fun k => { k with msgNo := k.msgNo + 1 }) s

/-- The port can key: global, in ACTIVE, both sides with coordinates, identity available (R419, R433). -/
def canKey (s : State) (p : PortN) : Bool :=
  let q := s.port p
  role s p == 3 && q.train == .active && q.partnerKind == 2 && assigned s && q.partnerCoord != 0xFFFF && s.sec.identityOk

/-- Begin a handshake afresh with a KEY_OFFER. -/
def startHandshake (p : PortN) (s : State) : State :=
  let label := s.free + 1
  let o : KeyOffer := { publicKey := Config.identityKey, y := Config.dhPublic label, r := Config.randomBytes s.free 32, firmware := firmwareDigest s }
  let s := drawn (modKey p (fun k => { k with
    fault := 0, ms := none, myOffer := some o, theirOffer := none, label := label, proofSent := false, resends := 0 }) s)
  sendKeying p 0x0C (offerBytes o) s

/-- Keying of a port after its entry to ACTIVE: a secret held for this partner needs no new handshake. -/
def beginKeying (p : PortN) (s : State) : State :=
  if canKey s p = true ∧ (s.port p).key.ms.isNone = true then startHandshake p s else s

/-- The handshake ends without a secret: event 6002h with the STAGE, retried after 1 s (R435, R438). -/
def failKeying (p : PortN) (stage : Nat) (s : State) : State :=
  log 0x6002 [p.val, stage] (bump (0x6040 + p.val) (if stage = 6 then 5 else 6)
    (modKey p (fun k => { k with fault := stage, myOffer := none, theirOffer := none, proofSent := false, resends := 0 }) s))

/-! ### Handshake (R435) -/

/-- The signed text of a proof: the signer's offer, then its partner's. -/
def proofText (mine theirs : KeyOffer) : Bytes := natLe 64 (Config.sha512 (offerBytes mine ++ offerBytes theirs)).toNat

/-- KEY_OFFER: checked against ID_DIGEST and policy, answered by the proof. -/
def keyOfferReceive (p : PortN) (o : KeyOffer) (s : State) : State :=
  let s := takeMus p 0x0C s
  if canKey s p = false then s
  else
    let s := if (s.port p).key.myOffer.isSome then s else startHandshake p s
    let refusal := partnerRefusal s o
    if leNat (idBytes o.publicKey) ≠ (s.port p).idDigest.toNat then failKeying p 6 s
    else if refusal ≠ 0 then failKeying p refusal s
    else
      let s := modKey p (fun k => { k with theirOffer := some o, proofSent := true, resends := 0 }) s
      match (s.port p).key.myOffer with
      | some m => sendKeying p 0x0D (Config.rsaSign (proofText m o)) s
      | none => s

/-- A byte string as a big-endian number, for the order of two digests. -/
def beNat (b : Bytes) : Nat := leNat b.reverse

/-- The link master secret of two offers (R435). -/
def masterSecret (label : Nat) (mine theirs : KeyOffer) : Bytes :=
  let low := beNat (natLe 64 (Config.sha512 mine.publicKey).toNat) < beNat (natLe 64 (Config.sha512 theirs.publicKey).toNat)
  Config.hkdfExtract (if low then mine.r ++ theirs.r else theirs.r ++ mine.r) (Config.dhShared label theirs.y)

/-- KEY_PROOF: a verified one forms the link master secret. -/
def keyProofReceive (p : PortN) (signature : Bytes) (s : State) : State :=
  let s := takeMus p 0x0D s
  let k := (s.port p).key
  match k.myOffer, k.theirOffer with
  | some m, some o =>
    if canKey s p = false ∨ k.ms.isSome then s
    else if Config.rsaVerify (Config.sha512 o.publicKey) (proofText o m) signature then
      modKey p (fun k => { k with ms := some (masterSecret k.label m o, (s.port p).idDigest), fault := 0, resends := 0 }) s
    else failKeying p 6 s
  | _, _ => s

/-! ### Keys (R436) -/

/-- Key and salt of a direction. -/
def deriveKey (ms : Bytes) (tx rx : BitVec 128) (ntx nrx : Bytes) (start : Nat) : Bytes :=
  Config.hkdfExpand ms (textBytes "GV24 link" ++ natLe 16 tx.toNat ++ natLe 16 rx.toNat ++ ntx ++ nrx ++ natLe 6 start) 36

/-- Payload of KEY_START and KEY_ACK. -/
def startBytes (n : Bytes) (start : Nat) : Bytes := slice n 0 16 ++ natLe 6 start ++ natLe 2 0

/-- KEY_RENEWAL: the transmitter starts a key, eight superframes ahead. -/
def startKey (p : PortN) (s : State) : State :=
  if canKey s p = true ∧ (s.port p).key.ms.isSome = true then
    let n := Config.randomBytes s.free 16
    let start := superframeNow s p + 8
    let s := drawn (modKey p (fun k => { k with txPend := some (n, start, none), resends := 0 }) s)
    sendKeying p 0x0E (startBytes n start) (bump (0x6040 + p.val) 3 s)
  else s

/-- KEY_START: the receiver derives the key and answers. -/
def keyStartReceive (p : PortN) (n : Bytes) (start : Nat) (s : State) : State :=
  let s := takeMus p 0x0E s
  match (s.port p).key.ms with
  | some (ms, _) =>
    if canKey s p = false then s
    else
      let mine := Config.randomBytes s.free 16
      let key := deriveKey ms (s.port p).idDigest ownDigest (slice n 0 16) mine start
      let s := drawn (modKey p (fun k => { k with rxPend := some (key, start) }) s)
      sendKeying p 0x0F (startBytes mine start) s
  | none => s

/-- KEY_ACK. -/
def keyAckReceive (p : PortN) (n : Bytes) (start : Nat) (s : State) : State :=
  let s := takeMus p 0x0F s
  match (s.port p).key.txPend with
  | some (mine, at_, none) =>
    if at_ = start then modKey p (fun k => { k with txPend := some (mine, at_, some (slice n 0 16)), resends := 0 }) s else s
  | _ => s

/-- KEY_SWITCH, at superframe K_start: an acknowledged key comes into force; otherwise a new start is made. The replay
that waited for the key is sent once both directions are keyed. -/
def keySwitch (p : PortN) (s : State) : State :=
  let k := (s.port p).key
  match k.txPend, k.ms with
  | some (mine, start, ack), some (ms, _) =>
    let s := advanceTo (k.since + start * superframeTicks) s
    (match ack with
    | some theirs =>
      let waited := k.txKey.isNone
      let s := modKey p (fun k => { k with
        txKey := some (deriveKey ms ownDigest (s.port p).idDigest mine theirs start), txPend := none, age := min 15 (k.age + 1) }) s
      if waited ∧ keysPending s p = false then resendCells p s else s
    | none => startKey p (bump (0x6040 + p.val) 4 s))
  | _, _ => s

/-! ### Resends and retries (R435, R438) -/

/-- The keying message that the partner has not answered: sub code and data. -/
def unanswered (k : Keying) : Option (Nat × Bytes) :=
  match k.txPend with
  | some (n, start, none) => some (0x0E, startBytes n start)
  | _ =>
    if k.ms.isSome then none
    else match k.myOffer, k.theirOffer with
    | some m, none => some (0x0C, offerBytes m)
    | some m, some o => if k.proofSent then some (0x0D, Config.rsaSign (proofText m o)) else none
    | none, _ => none

/-- KEY_MESSAGE_RESEND: up to 8 times, then the failure is recorded. -/
def keyResend (p : PortN) (s : State) : State :=
  match unanswered (s.port p).key with
  | none => s
  | some (sub, data) =>
    if canKey s p = false then s
    else if 8 ≤ (s.port p).key.resends then failKeying p 6 (modKey p (fun k => { k with txPend := none }) s)
    else sendKeying p sub data (modKey p (fun k => { k with resends := k.resends + 1 }) s)

/-- KEY_HANDSHAKE_RETRY. -/
def keyRetry (p : PortN) (s : State) : State :=
  if canKey s p = true ∧ (s.port p).key.fault ≠ 0 then startHandshake p s else s

/-! ### Status (R445) -/

/-- STAGE of a port. -/
def keyStage (s : State) (p : PortN) : Nat :=
  let k := (s.port p).key
  if role s p ≠ 3 then 0
  else if k.fault ≠ 0 then k.fault
  else if k.txKey.isSome && k.rxKey.isSome then 3
  else if k.ms.isSome || k.myOffer.isSome then 2 else 1

/-- OD (6040h + n).01. -/
def keyStatus (s : State) (p : PortN) : Nat := (s.port p).key.age % 16 * 16 + keyStage s p

/-! ### Meanings -/

/-- ACTIVE_ENTRY (R76, R436). -/
def execActiveEntry (p : PortN) (s : State) : Host.Outcome State Fault Refusal :=
  .next (if (s.port p).train = .active then s else beginKeying p (activeEntry p s))

/-- KEY_OFFER (R435). -/
def execKeyOffer (p : PortN) (o : KeyOffer) (s : State) : Host.Outcome State Fault Refusal := .next (keyOfferReceive p o s)

/-- KEY_PROOF (R435). -/
def execKeyProof (p : PortN) (signature : Bytes) (s : State) : Host.Outcome State Fault Refusal := .next (keyProofReceive p signature s)

/-- KEY_START (R436). -/
def execKeyStart (p : PortN) (n : Bytes) (start : Nat) (s : State) : Host.Outcome State Fault Refusal := .next (keyStartReceive p n start s)

/-- KEY_ACK (R436). -/
def execKeyAck (p : PortN) (n : Bytes) (start : Nat) (s : State) : Host.Outcome State Fault Refusal := .next (keyAckReceive p n start s)

/-- KEY_MESSAGE_RESEND (R435). -/
def execKeyMessageResend (p : PortN) (s : State) : Host.Outcome State Fault Refusal := .next (keyResend p s)

/-- KEY_HANDSHAKE_RETRY (R438). -/
def execKeyHandshakeRetry (p : PortN) (s : State) : Host.Outcome State Fault Refusal := .next (keyRetry p s)

/-- KEY_RENEWAL (R436). -/
def execKeyRenewal (p : PortN) (s : State) : Host.Outcome State Fault Refusal := .next (startKey p s)

/-- KEY_SWITCH (R436). -/
def execKeySwitch (p : PortN) (s : State) : Host.Outcome State Fault Refusal := .next (keySwitch p s)

end Sys2Proof.Machine
end

