-- ==== Sys2Proof/Machine/Steward.lean ====
section
/-!
DEFINITION. Stewardship (R325–R331, R431): shard and table slots, the update of a shard chunk, and the binding of a slot
from a bundle (R429, R430).
-/

namespace Sys2Proof.Machine

open Sys2Proof

/-! ### FP32 arithmetic, each operation rounded once, RNE (R327) -/

/-- A result code. -/
def toF32 (v : FV) : Nat := roundFV fp32 .rne false v

/-- A value of a code. -/
def ofF32 (v : Nat) : FV := decodeFV fp32 v

def addF (a b : Nat) : Nat := toF32 (sumFV .rne [ofF32 a, ofF32 b])
def mulF (a b : Nat) : Nat := toF32 (mulFV (ofF32 a) (ofF32 b))
def fmaF (a b c : Nat) : Nat := toF32 (sumFV .rne [mulFV (ofF32 a) (ofF32 b), ofF32 c])

/-- The negative of a code. -/
def negF (a : Nat) : Nat := a ^^^ 0x80000000

def subF (a b : Nat) : Nat := addF a (negF b)

/-- A quotient to 64 bits beyond any that rounding needs, with a sticky bit below. -/
def divFV : FV → FV → FV
  | .nan, _ => .nan
  | _, .nan => .nan
  | .inf _, .inf _ => .nan
  | .inf a, .fin b _ _ => .inf (a != b)
  | .fin a _ _, .inf b => .fin (a != b) 0 0
  | .fin a m e, .fin b n g =>
    if n = 0 then (if m = 0 then .nan else .inf (a != b))
    else .fin (a != b) (2 * (m * 2 ^ 64 / n) + (if m * 2 ^ 64 % n = 0 then 0 else 1)) (e - g - 65)

def divF (a b : Nat) : Nat := toF32 (divFV (ofF32 a) (ofF32 b))

/-- The largest integer whose square is not above `n`, for n below 2^(2k). -/
def isqrt (n : Nat) : Nat → Nat → Nat
  | 0, r => r
  | k + 1, r => isqrt n k (if (r + 2 ^ k) * (r + 2 ^ k) ≤ n then r + 2 ^ k else r)

/-- A square root to 64 bits beyond any that rounding needs, with a sticky bit below. -/
def sqrtFV : FV → FV
  | .nan => .nan
  | .inf neg => if neg then .nan else .inf false
  | .fin neg m e =>
    if m = 0 then .fin neg 0 0
    else if neg then .nan
    else
      let odd := e % 2 = 1
      let n := (if odd then 2 * m else m) * 2 ^ 128
      let r := isqrt n 90 0
      .fin false (2 * r + (if r * r = n then 0 else 1)) ((if odd then e - 1 else e) / 2 - 65)

def sqrtF (a : Nat) : Nat := toF32 (sqrtFV (ofF32 a))

/-- 1.0 in FP32. -/
def oneF : Nat := 0x3F800000

/-- The loop of `pow` in R327. -/
def powLoop : Nat → Nat → Nat → Nat → Nat
  | 0, r, _, _ => r
  | k + 1, r, x, t => if t = 0 then r else powLoop k (if t % 2 = 1 then mulF r x else r) (mulF x x) (t / 2)

/-- pow(b, t) of R327. -/
def powF (b t : Nat) : Nat := powLoop 33 oneF b t

/-- The parameters of the block: lr, β1, β2, ε, wd, gscale (R326). -/
def param (x : Shard) (k : Nat) : Nat := x.params.getD k 0

/-- The update of one parameter (R327): new w, m and v. -/
def updateParam (x : Shard) (t gs w m v : Nat) : Nat × Nat × Nat :=
  let b1 := param x 1
  let b2 := param x 2
  let g := mulF gs (param x 5)
  let m := fmaF b1 m (mulF (subF oneF b1) g)
  let v := fmaF b2 v (mulF (subF oneF b2) (mulF g g))
  let c1 := subF oneF (powF b1 t)
  let c2 := subF oneF (powF b2 t)
  let u := divF (divF m c1) (addF (sqrtF (divF v c2)) (param x 3))
  let w := subF w (mulF (param x 0) (fmaF (param x 4) w u))
  (w, m, v)

/-! ### The update of a shard chunk (R327, R328, R330) -/

/-- KID and ENTRY of a descriptor (R310). -/
def dKid (d : Bytes) : Nat := fieldAt d 42 2
def dEntry (d : Bytes) : Nat := fieldAt d 44 1

/-- Codes of a run of FP32 values. -/
def codes32 (b : Bytes) (n : Nat) : List Nat := (List.range n).map (fun k => fieldAt b (4 * k) 4)

/-- What an update leaves in the state area: w, m, v, t. -/
structure Updated where
  w : List Nat
  m : List Nat
  v : List Nat
  t : Nat
  deriving DecidableEq, Repr

/-- The built-in program on a chunk; none where a byte of its state cannot be read. -/
def builtIn (s : State) (d : Bytes) (x : Shard) (j : Nat) (g : List Nat) : Option Updated :=
  let n := chunkParams x
  let tenant := dTenant d
  match serviceRead s tenant (fieldAt x.record 8 8 + 4 * n * j) (4 * n), serviceRead s tenant (fieldAt x.record 16 8 + 4 * n * j) (4 * n),
      serviceRead s tenant (fieldAt x.record 24 8 + 4 * n * j) (4 * n), serviceRead s tenant (fieldAt x.record 32 8 + 4 * j) 4 with
  | some w, some m, some v, some t =>
    let t := (leNat t + 1) % 2 ^ 32
    let r := (g.zip ((codes32 w n).zip ((codes32 m n).zip (codes32 v n)))).map (fun p => updateParam x t p.1 p.2.1 p.2.2.1 p.2.2.2)
    some { w := r.map (fun p => p.1), m := r.map (fun p => p.2.1), v := r.map (fun p => p.2.2), t := t }
  | _, _, _, _ => none

/-- Stage an update: the state area, the weight area, the digest, and at the primary the departure cells. -/
def stageUpdate (i chunk j : Nat) (state weights : Bytes) (t : Nat) (s : State) : State :=
  let d := (winAt s i).desc
  let sl := fieldAt d 40 2
  let x := shardAt s sl
  let n := chunkParams x
  let k := j % max 1 (fieldAt x.record 2 2)
  let r := writeRun (stagingAt x k) (slice state 0 (stateBytes x) ++ slice weights 0 4096) (dTenant d) s
  let digest := (crc64 (slice state 0 (12 * n) ++ natLe 4 t)).toNat
  let s := setShard sl { x with staging := mapSet x.staging k j, digests := mapSet x.digests j digest } r.2
  if bit (dFlags d) 1 then s
  else (List.range 16).foldl (fun s c => formCell i chunk c (slice weights (256 * c) 256) false s) s

/-- A tenant kernel in place of the built-in program: the spec leaves where it runs and where g_sum lies open, so whether
it faults and what it leaves in the staging slot are free values (assumption 28). -/
def kernelUpdate (i chunk j : Nat) (s : State) : State :=
  let d := (winAt s i).desc
  let x := shardAt s (fieldAt d 40 2)
  match mapGet s.cmp.kernels (dKid d) with
  | none => failStep i 9 none (bump 0x5100 0x1B s)
  | some q =>
    if q.entries.length ≤ dEntry d ∨ q.tenant.getD (dTenant d) ≠ dTenant d then failStep i 9 none (bump 0x5100 0x1B s)
    else
      let fault := nextFree s 1
      let s := drawn s
      if fault = 1 then failStep i 9 none (bump 0x5100 0x1B s)
      else
        let n := stateBytes x + 4096
        let b := natLe n (nextFree s (8 * n))
        stageUpdate i chunk j (b.take (stateBytes x)) (b.drop (stateBytes x)) (fieldAt b (12 * chunkParams x) 4) (drawn s)

/-- SHARD_UPDATE (R327, R328): once for a chunk whose gradient is complete. -/
def shardUpdate (i chunk : Nat) (s : State) : State :=
  let w := winAt s i
  let d := w.desc
  let x := shardAt s (fieldAt d 40 2)
  if w.running.isNone ∨ dOp d ≠ 8 ∨ x.state ≠ 1 ∨ w.badChunks.contains chunk = true then s
  else
    match shardChunk x chunk, gsum w x chunk with
    | some j, some g =>
      match mapGet x.staging (j % max 1 (fieldAt x.record 2 2)) with
      | some j' => if j' = j then s else failStep i 6 none s
      | none =>
        if dKid d ≠ 0 then kernelUpdate i chunk j s
        else
          match builtIn s d x j g with
          | none => failStep i 3 none s
          | some u =>
            let all := codeBytes 4 (u.w ++ u.m ++ u.v) ++ natLe 4 u.t
            stageUpdate i chunk j all (weightArea (dOut d) (u.w.map ofF32)) u.t s
    | _, _ => s

/-! ### Slots (R325, R331, R431) -/

/-- The regions an enable closes overlap nothing else, and the record's fields are legal. -/
def recordRefused (s : State) (j : Nat) (r : Bytes) : Bool :=
  let kind := fieldAt r 0 1
  let bases := if kind = 1 then [8, 16, 24, 32, 40, 48] else [8]
  let fields := if kind = 1 then
      decide (2 ≤ fieldAt r 1 1) && decide (fieldAt r 1 1 ≤ 4) && decide (1 ≤ fieldAt r 2 2) && decide (fieldAt r 2 2 ≤ 4096)
        && fieldAt r 60 4 == 0
    else if kind = 2 then
      decide (2 ≤ fieldAt r 1 1) && decide (fieldAt r 1 1 ≤ 6) && decide (1 ≤ fieldAt r 2 2) && decide (fieldAt r 2 2 ≤ 2048)
        && fieldAt r 16 48 == 0
    else false
  let others := s.coll.shards.flatMap (fun e => if e.1 != j && (e.2.state == 1 || e.2.bound) then recordRegions e.2.record else [])
  r.length != 64 || !fields || bases.any (fun k => fieldAt r k 8 % 4096 != 0) || (recordRegions r).any (fun q =>
    decide (usable s < q.1 + q.2) || rangesMeet q.1 q.2 (storeBase s) (dirBase s - storeBase s)
      || rangesMeet q.1 q.2 (dirBase s) (usableBytes s - dirBase s) || others.any (fun o => rangesMeet q.1 q.2 o.1 o.2))

/-- A bound window names the slot. -/
def slotNamed (s : State) (j : Nat) : Bool :=
  s.coll.wins.any (fun e => winBound e.2 && decide (7 ≤ dOp e.2.desc) && decide (dOp e.2.desc ≤ 9) && fieldAt e.2.desc 40 2 == j)

/-- SHARD_ENABLE. -/
def shardEnable (j : Nat) (s : State) : State :=
  let x := shardAt s j
  if x.state = 1 then s
  else if recordRefused s j x.record then refuseRule (setShard j { x with state := 2 } s)
  else setShard j { x with state := 1, staging := [], digests := [], taken := [] } (closeEntries (recordRegions x.record) s)

/-- SHARD_DISABLE: a bound slot's regions are first overwritten with zeros (R431). -/
def shardDisable (j : Nat) (s : State) : State :=
  let x := shardAt s j
  if slotNamed s j then refuseRule s
  else
    let s := if x.bound then (recordRegions x.record).foldl (fun s r => clearRegion r.1 r.2 s) s else s
    setShard j { x with state := 0, bound := false } s

/-- A write of OD (5160h + j).02. -/
def shardWrite (src : Route) (j v : Nat) (s : State) : State :=
  let s := beginOp s
  if v = 0 then shardDisable j s
  else
    let t := shardEnable j s
    if v = 1 ∨ 2 ≤ t.dict.status then t else clamped src (0x5160 + j) 2 (scalarPlace 8) v 1 t

/-- A write of OD (5160h + j).01: writable while the slot is disabled. -/
def recordWrite (j : Nat) (b : Bytes) (s : State) : State :=
  let x := shardAt s j
  if b.length ≠ 64 then endOp 5 0x06070010 s
  else if x.state = 1 ∨ x.bound = true then refuseCondition s
  else setShard j { x with record := b, state := 0 } s

/-- OD (5160h + j).03; the journal copy is one step with the commit (assumption 29). -/
def shardStatus (x : Shard) : Nat := x.state

/-! ### Meanings -/

/-- SHARD_UPDATE (R327). -/
def execShardUpdate (i : Fin 64) (chunk : BitVec 28) (s : State) : Host.Outcome State Fault Refusal :=
  .next (shardUpdate i.val chunk.toNat s)

/-- SHARD_ENABLE (R325). -/
def execShardEnable (src : Route) (j : Fin 16) (v : BitVec 8) (s : State) : Host.Outcome State Fault Refusal :=
  .next (shardWrite src j.val v.toNat s)

/-- SHARD_DISABLE (R325, R431): the write of 0. -/
def execShardDisable (src : Route) (j : Fin 16) (v : BitVec 8) (s : State) : Host.Outcome State Fault Refusal :=
  .next (shardWrite src j.val v.toNat s)

end Sys2Proof.Machine
end

