-- ==== Sys2Proof/Machine/Security.lean ====
section
/-!
DEFINITION. Identity, measurements, SPDM sessions, the security region, bundles and firmware images (R418–R433,
R443, R444).
-/

namespace Sys2Proof.Machine

open Sys2Proof

/-- Change the security unit. -/
def modSec (f : Sec → Sec) (s : State) : State := { s with sec := f s.sec }

/-! ### Measurements (R422) -/

/-- The calendar bank that is ACTIVE: its image as sealed, clamps applied. -/
def calendarMeasure (s : State) : BitVec 512 :=
  match activeNo s with
  | none => 0
  | some b => Config.sha512 (calBank s b).image

/-- The route bank that is ACTIVE: its tables in ascending index, then SALT and NGROUPS, each a U64. -/
def routeMeasure (s : State) : BitVec 512 :=
  let b := bank s s.routes.current
  if b.state = .active then
    Config.sha512 (((List.range 255).flatMap (fun i => natLe 8 (groupEntry b i))) ++
      ((List.range 8).flatMap (fun i => natLe 8 (memberEntry b i))) ++
      ((List.range 32).flatMap (fun i => natLe 8 (portEntry b i))) ++ natLe 8 b.salt.toNat ++ natLe 8 b.ngroups)
  else 0

/-- The contents of the security region: operator roots, tenant keys, peer list, permitted firmware. -/
def regionContents (s : State) : Bytes :=
  blobGet s 0x6001 1 ++ (List.range 16).flatMap (fun t => blobGet s 0x6003 (t + 1)) ++ blobGet s 0x6020 1 ++ blobGet s 0x6020 2

/-- OD 4100.03, 5002, 5301, 6030 and 6031. -/
def isolationContents (s : State) : Bytes :=
  natLe 1 (odGet s 0x4100 3) ++ (List.range 64).flatMap (fun i => natLe 1 (odGet s 0x5002 (i + 1))) ++
    (List.range 16).flatMap (fun i => natLe 1 (odGet s 0x5301 (i + 1))) ++ natLe 1 (odGet s 0x6030 1) ++
    (List.range 16).flatMap (fun i => natLe 1 (odGet s 0x6031 (i + 1)))

/-- Measurement `i`, 1–9, with the value current now. Measurement 2 is zeros while no firmware runs. -/
def measurement (s : State) (i : Nat) : BitVec 512 :=
  match i with
  | 1 => Config.romDigest
  | 2 => firmwareDigest s
  | 3 => Config.sha512 (regionContents s)
  | 5 => calendarMeasure s
  | 6 => routeMeasure s
  | 9 => Config.sha512 (isolationContents s)
  | 0 => 0
  | n + 1 => s.sec.meas.toList.getD n 0

/-- A measurement block: index, length, digest. -/
def measureBlock (s : State) (i : Nat) : Bytes := natLe 1 i ++ natLe 2 64 ++ natLe 64 (measurement s i).toNat

/-! ### Sessions (R423, R424) -/

/-- The answer to an SPDM request: its name and content (assumption 31). -/
def spdm (name : String) (data : Bytes) (s : State) : State := emit (.spdm name data) s

/-- An SPDM ERROR. -/
def spdmError (what : String) (s : State) : State := spdm "ERROR" (textBytes what) s

/-- An SPDM request reaches the part while the link is up; every request of a part without its identity is answered ERROR
UnexpectedRequest (R419). -/
def withIdentity (f : State → State) (s : State) : State :=
  if s.host.linkUp = false then s else if s.sec.identityOk then f s else spdmError "UnexpectedRequest" s

/-- An operator root is set: the part is claimed. -/
def claimed (s : State) : Bool := !(blobGet s 0x6001 1).isEmpty

/-- The role a requester gets (R424); none is refused. -/
def roleFor (s : State) (who : Requester) : Option Role :=
  if claimed s = false then some .operator
  else match who with
    | .anonymous => none
    | .chain d => if listHas (blobGet s 0x6001 1) 64 (natLe 64 d.toNat) then some .operator else none
    | .single d => ((List.range 16).find? (fun t => tenantKey s t == some d)).map Role.tenant

/-- KEY_EXCHANGE: at most four sessions are open. -/
def keyExchange (who : Requester) (exchange : Bytes) (s : State) : State :=
  match mapFree s.sec.sessions 4, roleFor s who with
  | none, _ => spdmError "Busy" (bump 0x6000 0x11 s)
  | some _, none => spdmError "InvalidRequest" (bump 0x6000 0x11 s)
  | some id, some r =>
    let y := Config.dhPublic (s.free + 1)
    let s := drawn (modSec (fun c => { c with sessions := mapSet c.sessions id { role := r } }) s)
    spdm "KEY_EXCHANGE_RSP" (natLe 1 id ++ natLe 1 60 ++ y ++ Config.rsaSign (exchange ++ y)) s

/-- A session ends. -/
def dropSession (id : Nat) (s : State) : State := modSec (fun c => { c with sessions := mapErase c.sessions id }) s

/-- Every session ends. -/
def dropSessions (s : State) : State := modSec (fun c => { c with sessions := [] }) s

/-- FINISH, whose signature and authentication code verify or not. A session that does not verify ends. -/
def finishSession (id : Nat) (verified : Bool) (s : State) : State :=
  match mapGet s.sec.sessions id with
  | none => spdmError "InvalidRequest" s
  | some x =>
    if x.established then spdmError "InvalidRequest" s
    else if verified then
      spdm "FINISH_RSP" [] (bump 0x6000 0x10 (modSec (fun c => { c with sessions := mapSet c.sessions id { x with established := true } }) s))
    else spdmError "InvalidRequest" (dropSession id s)

/-- A message of an established session. -/
def inSession (id : Nat) (f : Session → State → State) (s : State) : State :=
  match mapGet s.sec.sessions id with
  | none => spdmError "InvalidRequest" s
  | some x => if x.established then f x s else spdmError "InvalidRequest" s

/-- KEY_UPDATE: 1 renews the requester's key, 2 both keys, 3 verifies the new key. -/
def keyUpdate (id op : Nat) (s : State) : State :=
  let set (x : Session) (s : State) : State :=
    spdm "KEY_UPDATE_ACK" (natLe 1 op) (modSec (fun c => { c with sessions := mapSet c.sessions id x }) s)
  inSession id (fun x s =>
    if op = 1 then set { x with requestKey := x.requestKey + 1 } s
    else if op = 2 then set { x with requestKey := x.requestKey + 1, responseKey := x.responseKey + 1 } s
    else if op = 3 then set x s
    else spdmError "InvalidRequest" s) s

/-- Sessions established. -/
def established (s : State) : Nat := (s.sec.sessions.filter (fun e => e.2.established)).length

/-- OD 6000.01 (R444). -/
def securityStatus (s : State) : Nat :=
  established s * 256 + flag (claimed s) 3 + flag s.sec.runningB 2 + flag (decide (s.sec.regionA < s.sec.regionB)) 1
    + flag s.sec.identityOk 0

/-! ### Measurements over SPDM -/

/-- GET_MEASUREMENTS: index 0 asks for their number, FFh for all. -/
def getMeasurements (index : Nat) (signed : Bool) (nonce : Bytes) (s : State) : State :=
  let answer (b : Bytes) : State :=
    spdm "MEASUREMENTS" (b ++ if signed then nonce ++ Config.rsaSign (b ++ nonce) else []) s
  if index = 0 then answer (natLe 1 9)
  else if index = 255 then answer ((List.range 9).flatMap (fun i => measureBlock s (i + 1)))
  else if index ≤ 9 then answer (measureBlock s index)
  else spdmError "InvalidRequest" s

/-! ### The security region (R420, R433) -/

/-- The region that does not hold the newest contents is written, region A if neither is valid (R412). -/
def writeRegion (s : State) : State :=
  modSec (fun c => if c.regionB < c.regionA then { c with regionB := c.regionA + 1 } else { c with regionA := c.regionB + 1 }) s

/-- The length a security-region entry may have. -/
def regionLength (index sub n : Nat) : Bool :=
  if index = 0x6001 then n % 64 == 0 && decide (n ≤ 256)
  else if index = 0x6003 then n == 0 || n == 64
  else if sub = 1 then n % 16 == 0 && decide (n ≤ 16384)
  else n % 64 == 0 && decide (n ≤ 512)

/-- A write of OD 6001.01, 6003, 6020.01 or 6020.02. -/
def securityWrite (index sub : Nat) (b : Bytes) (s : State) : State :=
  if regionLength index sub b.length then writeRegion (blobSet index sub b s) else endOp 5 0x06070010 s

/-! ### Bundles (R429–R431) -/

/-- BUNDLE_BIND: the begin write of OD 6004.04. -/
def bundleBind (src : Route) (v : Nat) (s : State) : State :=
  let s := beginOp s
  if s.sec.bindRunning then refuseRule s
  else modSec (fun c => { c with bindRunning := true, bindResult := 0 }) (onlyOne src 0x6004 4 v s)

/-- The regions a bundle fills: W, M, V and T of a shard, a table's rows. -/
def contentRegions (record : Bytes) : List (Nat × Nat) := (recordRegions record).take 4

/-- Write content into regions, one after the other. -/
def fillRegions : List (Nat × Nat) → Bytes → State → State
  | [], _, s => s
  | r :: l, b, s => fillRegions l (b.drop r.2) (writeRun r.1 (b.take r.2) 16 s).2

/-- The result code of a bind (R430), with the content where it is 1. -/
def bindCode (s : State) (j off len : Nat) (b : Bytes) : Nat × Bytes :=
  let x := shardAt s j
  if s.sec.identityOk = false ∨ usable s < off + len ∨ closedRange s off len = true then (9, [])
  else if x.state = 1 ∨ recordRefused s j x.record = true then (7, [])
  else if bundleForm b [1, 2, 3] = false then (5, [])
  else if fieldAt b 5 1 ≠ fieldAt x.record 0 1 ∨ bLength b ≠ (contentRegions x.record).foldl (fun n r => n + r.2) 0 then (6, [])
  else match openBundle s b [1, 2, 3] with
    | .ok c => (1, c)
    | .error .form => (5, [])
    | .error .noKey => (8, [])
    | .error .signer => (2, [])
    | .error .recipient => (3, [])
    | .error .unwrap => (4, [])

/-- BUNDLE_BIND_DONE: staging outside every closed region is zeroed before the result is posted, and after a failure
the target regions of a slot that could have been bound. -/
def bundleBindDone (s : State) : State :=
  if s.sec.bindRunning = false then s
  else
    let off := odGet s 0x6004 1
    let len := odGet s 0x6004 2
    let j := odGet s 0x6004 3
    let b := (readRun s off len).getD []
    let x := shardAt s j
    let r := bindCode s j off len b
    let open_ := decide (off + len ≤ usable s) && !closedRange s off len
    let free := x.state != 1 && !recordRefused s j x.record
    let s := if open_ then clearRegion off len s else s
    let s := if r.1 = 1 then
        let s := fillRegions (contentRegions x.record) r.2 s
        let s := shardEnable j (setShard j { shardAt s j with bound := true } s)
        bump 0x6000 0x12 (extendMeasurement 7 (Config.sha512 b) s)
      else
        let s := if free then (contentRegions x.record).foldl (fun s q => clearRegion q.1 q.2 s) s else s
        bump 0x6000 0x13 s
    modSec (fun c => { c with bindRunning := false, bindResult := r.1 }) s

/-! ### Firmware images (R421) -/

/-- The image that is not running. -/
def setSpare (f : Option Firmware) (s : State) : State :=
  modSec (fun c => if c.runningB then { c with fwA := f } else { c with fwB := f }) s

/-- A firmware write in progress is abandoned: its region holds no valid image. -/
def abandonFirmware (s : State) : State := modSec (fun c => { c with fwWrite := none }) s

/-- Bytes of an image region. -/
def imageLimit : Nat := 8388608

/-- One segment of a write of OD 6006.01; the outcome is that of R398. -/
def firmwareSegment (first last : Bool) (seg : Bytes) (s : State) : State :=
  if s.pwr.pwrWarn then refuseRule s
  else
    let s := if first then setSpare none (modSec (fun c => { c with fwWrite := some [] }) s) else s
    match s.sec.fwWrite with
    | none => endOp 5 0x05040001 s
    | some b =>
      let b := b ++ seg
      if imageLimit < b.length then endOp 5 0x05040005 (abandonFirmware s)
      else if last = false then modSec (fun c => { c with fwWrite := some b }) s
      else if Config.firmwareSigned b then
        setSpare (some { version := Config.firmwareVersion b, bytes := b }) (abandonFirmware s)
      else refuseRule (bump 0x6000 0x16 (abandonFirmware s))

/-- A mailbox response as bytes (R376). -/
def responseBytes (r : MbxResponse) : Bytes :=
  natLe 4 r.seq ++ natLe 1 (flag r.valid 0 + flag r.more 1) ++ natLe 1 r.status ++ natLe 2 r.data.length ++ natLe 4 r.abort ++
    natLe 4 r.clamps ++ r.data ++ List.replicate (2032 - r.data.length) 0

/-- The response to a request that has been carried out: the outcome of the operation. -/
def outcome (s : State) (seq : Nat) (more : Bool) (data : Bytes) : MbxResponse where
  seq := seq
  valid := true
  more := more
  status := s.dict.status
  abort := s.dict.abort
  clamps := s.dict.clampCount
  data := data

/-- VENDOR_DEFINED_RESPONSE (R425). -/
def vendorResponse (r : MbxResponse) (s : State) : State := spdm "VENDOR_DEFINED_RESPONSE" (natLe 2 1 ++ responseBytes r) s

/-- A write from a tenant session is denied (R425). -/
def denyTenant (s : State) : State := bump 0x6000 0x15 (endOp 4 0x06010000 s)

/-- A firmware segment while another entry's secured write is open discards that write (R378). -/
def securedFirmware (first last : Bool) (seg : Bytes) (s : State) : State :=
  if s.host.secStaged.isSome then endOp 5 0x05040001 { s with host := { s.host with secStaged := none } }
  else firmwareSegment first last seg s

/-- One segment of a firmware image, carried in a session. -/
def firmwareImageWrite (id : Nat) (first last : Bool) (seg : Bytes) (s : State) : State :=
  inSession id (fun x s =>
    let s := beginOp s
    let s := if x.role = .operator then bump 0x6000 0x14 (securedFirmware first last seg s) else denyTenant s
    vendorResponse (outcome s 0 false []) s) s

/-! ### Meanings -/

/-- GET_VERSION (R423). -/
def execGetVersion (s : State) : Host.Outcome State Fault Refusal := .next (withIdentity (spdm "VERSION" (textBytes "1.2")) s)

/-- GET_CAPABILITIES (R423). -/
def execGetCapabilities (s : State) : Host.Outcome State Fault Refusal :=
  .next (withIdentity (spdm "CAPABILITIES"
    (textBytes "CERT CHAL MEAS_SIG MEAS_FRESH ENCRYPT MAC MUT_AUTH KEY_EX HBEAT KEY_UPD")) s)

/-- NEGOTIATE_ALGORITHMS (R423): the one set of parameters. -/
def execNegotiateAlgorithms (_request : Bytes) (s : State) : Host.Outcome State Fault Refusal :=
  .next (withIdentity (spdm "ALGORITHMS"
    (textBytes "RSASSA-PSS-4096 SHA-512 ffdhe4096 AES-256-GCM SPDM DMTF RSASSA-PSS-4096")) s)

/-- GET_DIGESTS (R423). -/
def execGetDigests (s : State) : Host.Outcome State Fault Refusal :=
  .next (withIdentity (spdm "DIGESTS" (natLe 64 (Config.sha512 Config.certificateChain).toNat)) s)

/-- GET_CERTIFICATE (R423): slot 0 only. -/
def execGetCertificate (slot : BitVec 8) (offset len : BitVec 16) (s : State) : Host.Outcome State Fault Refusal :=
  .next (withIdentity (fun s => if slot = 0 then
    spdm "CERTIFICATE" ((Config.certificateChain.drop offset.toNat).take len.toNat) s else spdmError "InvalidRequest" s) s)

/-- CHALLENGE (R418, R423): signed by the identity key. -/
def execChallenge (slot : BitVec 8) (nonce : Bytes) (s : State) : Host.Outcome State Fault Refusal :=
  .next (withIdentity (fun s => if slot = 0 then
    spdm "CHALLENGE_AUTH" (Config.rsaSign (natLe 64 (Config.sha512 Config.certificateChain).toNat ++ nonce)) s
    else spdmError "InvalidRequest" s) s)

/-- GET_MEASUREMENTS (R422). -/
def execGetMeasurements (index : BitVec 8) (signed : Bool) (nonce : Bytes) (s : State) : Host.Outcome State Fault Refusal :=
  .next (withIdentity (getMeasurements index.toNat signed nonce) s)

/-- KEY_EXCHANGE (R424). -/
def execKeyExchange (who : Requester) (exchange : Bytes) (s : State) : Host.Outcome State Fault Refusal :=
  .next (withIdentity (keyExchange who exchange) s)

/-- FINISH (R423). -/
def execFinish (session : Nat) (verified : Bool) (s : State) : Host.Outcome State Fault Refusal :=
  .next (withIdentity (finishSession session verified) s)

/-- KEY_UPDATE (R423). -/
def execKeyUpdate (session : Nat) (op : BitVec 8) (s : State) : Host.Outcome State Fault Refusal :=
  .next (withIdentity (keyUpdate session op.toNat) s)

/-- HEARTBEAT (R423). -/
def execSpdmHeartbeat (session : Nat) (s : State) : Host.Outcome State Fault Refusal :=
  .next (withIdentity (inSession session (fun _ => spdm "HEARTBEAT_ACK" [])) s)

/-- END_SESSION (R423). -/
def execEndSession (session : Nat) (s : State) : Host.Outcome State Fault Refusal :=
  .next (withIdentity (inSession session (fun _ s => spdm "END_SESSION_ACK" [] (dropSession session s))) s)

/-- The heartbeat period of a session has passed without traffic (R423). -/
def execSessionHeartbeatTimeout (session : Nat) (s : State) : Host.Outcome State Fault Refusal :=
  .next (dropSession session s)

/-- Any other SPDM request (R423). -/
def execSpdmUnsupportedRequest (_code : BitVec 8) (s : State) : Host.Outcome State Fault Refusal :=
  .next (withIdentity (spdmError "UnsupportedRequest") s)

/-- BUNDLE_BIND (R429). -/
def execBundleBind (src : Route) (v : BitVec 8) (s : State) : Host.Outcome State Fault Refusal :=
  .next (bundleBind src v.toNat s)

/-- BUNDLE_BIND_DONE (R430). -/
def execBundleBindDone (s : State) : Host.Outcome State Fault Refusal := .next (bundleBindDone s)

/-- FIRMWARE_IMAGE_WRITE (R421, R425). -/
def execFirmwareImageWrite (session : Nat) (first last : Bool) (segment : Bytes) (s : State) :
    Host.Outcome State Fault Refusal := .next (withIdentity (firmwareImageWrite session first last segment) s)

end Sys2Proof.Machine
end

