-- ==== Sys2Proof/Machine/Resets.lean ====
section
/-!
DEFINITION. Resets (R22, R30, R364, R402, R409, R454, R461–R464): the order in which requested resets run, the warm device
reset, the cold reset and the management reset.
-/

namespace Sys2Proof.Machine

open Sys2Proof

/-- Change the power block. -/
def modPwr (f : Power → Power) (s : State) : State := { s with pwr := f s.pwr }

/-- Change the reset requests. -/
def modResets (f : Resets → Resets) (s : State) : State := { s with resets := f s.resets }

/-! ### Stored images (R411) -/

/-- The newest valid dictionary image: true where it lies in region B. -/
def newestImage (s : State) : Option (Bool × DictImage) :=
  match s.dict.imageA, s.dict.imageB with
  | none, none => none
  | some a, none => some (false, a)
  | none, some b => some (true, b)
  | some a, some b =>
    let d := (b.seq + 2 ^ 32 - a.seq % 2 ^ 32) % 2 ^ 32
    if 1 ≤ d ∧ d < 2 ^ 31 then some (true, b) else some (false, a)

/-- A scalar record of an image. -/
def imageValue (i : DictImage) (index sub : Nat) : Option Nat :=
  (i.records.find? (fun r => r.key == odKey index sub)).map (fun r => leNat r.value)

/-! ### Cold reset (R22, R31, R364, R419, R461, R479) -/

/-- An entry of the security region, which lies in flash (R420). -/
def inSecurityRegion (key : Nat) : Bool :=
  key == odKey 0x6001 1 || key / 256 == 0x6003 || key == odKey 0x6020 1 || key == odKey 0x6020 2

/-- What a cold reset leaves: flash, FRAM, the pins and the readings of the monitors. Everything else is at its reset
value, and the planes are held until the reset completes. -/
def enterCold (s : State) : State :=
  { State.reset with
    pending := s.pending, sent := s.sent, free := s.free
    dict := { imageA := s.dict.imageA, imageB := s.dict.imageB, blobs := s.dict.blobs.filter (fun e => inSecurityRegion e.1) }
    sec := { fwA := s.sec.fwA, fwB := s.sec.fwB, regionA := s.sec.regionA, regionB := s.sec.regionB }
    log := { fram := s.log.fram, seq := (s.log.fram.getLast?.map (fun r => r.seq)).getD 0 }
    pwr := {
      temps := s.pwr.temps, volts := s.pwr.volts, warn := s.pwr.warn, low := s.pwr.low, voptOff := s.pwr.voptOff
      clockLost := s.pwr.clockLost, coldHeld := true, pwrWarn := s.pwr.pwrWarn, trayPos := s.pwr.trayPos, trayPins := s.pwr.trayPins
      nodePins := s.pwr.nodePins, jtag := s.pwr.jtag, pins := s.pwr.pins } }

/-- GDDR7 after full training and zero-fill, under the map that the stored dictionary selects (R357, R364); its density
is the model's choice. -/
def trainedMem (s : State) : Mem where
  state := .ready
  density := 4
  coloured := ((newestImage s).bind (fun i => imageValue i.2 0x5300 2)).getD (odDefault (odKey 0x5300 2)) == 1
  chans := (List.range 128).map (fun k => (k, { trained := true, present := true }))

/-- Every port with a role leaves DISABLED for DETECT and sends SEQ_RESET. -/
def wakePorts (s : State) : State :=
  if portsHeld s then s else forPorts (fun p s => if role s p = 0 then s else wakePort p s) s

/-- The cold reset completes. -/
def finishCold (cause : Nat) (s : State) : State :=
  let s := modPwr (fun p => { p with coldHeld := false }) s
  let s := raiseCause 7 { s with mem := trainedMem s }
  let s := modSec (fun c => { c with identityOk := Config.pufReconstructs }) s
  let s := if s.sec.identityOk then s else log 0x6001 [] s
  let s := if s.pwr.voptOff then forPorts (fun p s => if medium s p = 1 then modPort p (fun q => { q with engineOff := true }) s else s) s else s
  resetDone { domain := 1, target := 0, cause := cause } (wakePorts s)

/-- COLD_RESET (R461); it is held while a rail that holds it is low (R498). -/
def coldReset (cause : Nat) (s : State) : State :=
  let s := enterCold s
  if s.pwr.low.isEmpty then finishCold cause s else s

/-! ### Management reset (R402, R421, R423) -/

/-- A running mailbox request ends with STATUS 2, abandoned. -/
def abandonMailbox (s : State) : State :=
  match s.host.running with
  | none => { s with host := { s.host with staged := none, snap := none, secStaged := none, secSnap := none } }
  | some r =>
    let rsp : MbxResponse := { seq := r.reqSeq.toNat, valid := true, status := 2, abort := 0x08000000 }
    let h := { s.host with busy := false, running := none, discard := false, staged := none, snap := none, secStaged := none, secSnap := none }
    if s.host.discard then { s with host := h } else raiseCause 0 { s with host := { h with rsp := rsp } }

/-- The management core stops: open operations are abandoned, sessions end, the clamp report and the snapshot result are
cleared, and READY is 0 until it has booted. -/
def stopManagement (s : State) : State :=
  let s := dropSessions (abandonFirmware (abandonMailbox s))
  let s := modSec (fun c => { c with bindRunning := false }) s
  { s with
    dict := { s.dict with clamps := [], snap := { seq := s.dict.snap.seq }, storeBusy := false, restoreBusy := false }
    cmp := { s.cmp with loading := false }
    host := { s.host with ready := false }
    can := { s.can with nmt := 0 } }

/-- MANAGEMENT_RESET and WATCHDOG_EXPIRY: it completes with the boot. -/
def managementReset (r : ResetRun) (s : State) : State :=
  let s := log 0x1002 [r.cause] (stopManagement s)
  modResets (fun x => { x with running := x.running ++ [r] }) s

/-! ### Warm device reset (R30, R364, R409, R464) -/

/-- Requests queued for an own end-point port or the resident BEP are answered `ERR` TARGET_RESET in their own buffers. -/
def answerQueued (s : State) : State :=
  let own (o : Nat) : Bool := if h : o < 24 then role s ⟨o, h⟩ == 1 else true
  let mine := s.sw.voqs.filter (fun e => own (voqOut e.1))
  let s := { s with sw := { s.sw with
    voqs := (s.sw.voqs.map (fun e => (e.1, if own (voqOut e.1) then e.2.filter (fun q => !isRequest q.cell.op) else e.2))).filter
      (fun e => !e.2.isEmpty) } }
  let s := mine.foldl (fun s e => (e.2.filter (fun q => isRequest q.cell.op)).foldl (fun s q =>
    answerIn (voqIn e.1) q.store q.index (errFor q.cell errTargetReset 0) s) s) s
  let waiting := s.grotto.pending
  let s := waiting.foldl (fun s x => answerIn x.1 x.2.store x.2.index (errFor x.2.cell errTargetReset 0) s)
    (modGrotto (fun g => { g with pending := [] }) s)
  let asked := s.bep.intake.filter (fun c => isRequest c.op)
  asked.foldl (fun s c => refuseCell c (errFor c errTargetReset 0) s)
    { s with bep := { s.bep with intake := s.bep.intake.filter (fun c => !isRequest c.op) } }

/-- WARM_DEVICE_RESET, at the request. -/
def startWarm (r : ResetRun) (s : State) : State :=
  let s := answerQueued (sendResetting s)
  modResets (fun x => { x with running := x.running ++ [r] }) (modPwr (fun p => { p with warmRunning := true }) s)

/-- WARM_RESET_PORTS_DOWN: every port enters DISABLED; queued accesses of the memory controllers are carried out, dirty
check lines written back, retrains abandoned, and every channel enters self-refresh. -/
def warmPortsDown (s : State) : State :=
  if s.pwr.warmRunning then
    let s := forPorts (fun p s => if (s.port p).train = .disabled then s else toDisabled p s) s
    raiseCause 7 { s with mem := { s.mem with
      state := .selfRefresh
      chans := s.mem.chans.map (fun e => (e.1, { e.2 with check := [], queue := [], rows := [], retraining := false })) } }
  else s

/-- An entry that a warm device reset keeps: a storable one (R409), and what the management plane holds. -/
def keptWarm (key : Nat) : Bool :=
  let i := key / 256
  (match findEntry i (key % 256) with
    | some e => storable e i (key % 256)
    | none => false) || decide (i < 0x2000) || i / 256 == 0x60 || i / 256 == 0x70 || i == 0x7103 || i == 0x7200

/-- What a port keeps: its link master secret, what its detectors see, its optical engine. -/
def warmPort (q : Port) : Port where
  key := { ms := q.key.ms, msgNo := q.key.msgNo, label := q.key.label }
  idDigest := q.idDigest
  engineOff := q.engineOff
  lanes := q.lanes.map (fun l => { los := l.los, lol := l.lol })

/-- The memory after a warm device reset: channels re-verified or trained in full; those that fail are FAILED. -/
def warmMem (failed : List Nat) (held : Bool) (m : Mem) : Mem where
  cells := m.cells
  poison := m.poison
  state := if held then m.state else if m.state = .selfRefresh then .ready else m.state
  density := m.density
  coloured := m.coloured
  chans := m.chans.map (fun e => (e.1, { e.2 with
    failed := e.2.failed || failed.contains e.1, trained := !failed.contains e.1 && !e.2.failed, check := [], queue := [], rows := [],
    crcTries := 0 }))

/-- The data and control planes cleared; the management plane runs on. -/
def clearPlanes (failed : List Nat) (s : State) : State :=
  let od := s.dict.od.filter (fun e => keptWarm e.1)
  let value (index sub : Nat) : Nat := (mapGet od (odKey index sub)).getD (odDefault (odKey index sub))
  { s with
    time := { role := value 0x4000 1, sourceSel := value 0x4000 2 }
    ports := s.ports.map warmPort
    sw := {}
    routes := {}
    bep := {}
    ep := {}
    grotto := {}
    cal := {}
    cmp := { kernels := s.cmp.kernels, loading := s.cmp.loading, loadResult := s.cmp.loadResult, loadKid := s.cmp.loadKid
             shares := Vector.ofFn (fun k => value 0x5001 (k.val + 1)) }
    coll := { maps := s.coll.maps, shards := s.coll.shards.map (fun e => (e.1, { record := e.2.record, bound := e.2.bound })) }
    xlat := { ats := s.xlat.ats, pasidOn := s.xlat.pasidOn, pri := s.xlat.pri, allocation := s.xlat.allocation, stopped := s.xlat.stopped }
    mem := warmMem failed s.pwr.tripped s.mem
    dict := { s.dict with
      od := od
      blobs := s.dict.blobs.filter (fun e => !(decide (0x5120 ≤ e.1 / 256) && decide (e.1 / 256 < 0x5160))) }
    host := { s.host with ignored := 0 }
    can := { s.can with lastEmcy := none }
    log := { s.log with corrected := [] }
    lantern := {}
    muster := {}
    pwr := { s.pwr with warmRunning := false, trayPos := s.pwr.trayPins, powerLevel := 0, thermal := 0, level := 0, highestLevel := 0 } }

/-- Does a reset of domain and target `a` take in `b` (R461)? -/
def covers (a b : ResetRun) : Bool :=
  (a.domain == 1 && b.domain != 1) || (a.domain == 2 && decide (4 ≤ b.domain))
    || (a.domain == 6 && ((b.domain == 7 && b.target / 8 == a.target) || (b.domain == 8 && b.target / 32 == a.target)))
    || (a.domain == 7 && b.domain == 8 && b.target / 4 == a.target)

/-- A running reset that a request waits for: one of the same or narrower reach. The management core's reset and a warm
device reset wait only for one of their own kind; a cold reset waits for none. -/
def waitsFor (r : ResetRun) (a : ResetRun) : Bool :=
  if r.domain = 1 then false
  else if r.domain ≤ 3 then a.domain == r.domain
  else a.domain != 3

/-- A reset begins. -/
def startReset (r : ResetRun) (s : State) : State :=
  if r.domain = 1 then coldReset r.cause s
  else if r.domain = 2 then startWarm r s
  else if r.domain = 3 then managementReset r s
  else beginReset r s

/-- A requested reset begins, is absorbed or waits (R461). -/
def requestReset (r : ResetRun) (s : State) : State :=
  if s.resets.running.any (fun a => covers a r) then s
  else if s.resets.running.any (waitsFor r) then modResets (fun x => { x with waiting := x.waiting ++ [r] }) s
  else startReset r s

/-- Resets that waited begin, in the order of their requests. -/
def startWaiting : Nat → State → State
  | 0, s => s
  | n + 1, s =>
    match s.resets.waiting with
    | [] => s
    | r :: l =>
      if s.resets.running.any (waitsFor r) then s else startWaiting n (startReset r (modResets (fun x => { x with waiting := l }) s))

/-- Resets whose work is done are noted, and those that waited begin. -/
def settleResets (s : State) : State :=
  let done := s.resets.running.filter (fun r => !resetBusy s r)
  let s := modResets (fun x => { x with running := x.running.filter (fun r => !done.contains r) }) s
  let s := done.foldl (fun s r => resetDone r s) s
  startWaiting s.resets.waiting.length s

/-- The end of a reset of a domain that runs by its own commands. -/
def concludeReset (domain : Nat) (s : State) : State :=
  let done := s.resets.running.filter (fun r => r.domain == domain)
  let s := modResets (fun x => { x with running := x.running.filter (fun r => r.domain != domain) }) s
  let s := (done.take 1).foldl (fun s r => resetDone r s) s
  settleResets s

/-- The end of a warm device reset: memory out of self-refresh and verified, ports to DETECT with SEQ_RESET. -/
def leaveWarm (failed : List Nat) (s : State) : State :=
  let s := clearPlanes failed s
  let s := if s.mem.state = .ready then raiseCause 7 s else s
  let s := failed.foldl (fun s k => raiseCause 7 (log 0x5303 [k] s)) s
  concludeReset 2 (wakePorts s)

/-- WARM_RESET_COMPLETE: while the clock is lost the planes stay in reset (R491). -/
def warmComplete (failed : List Nat) (s : State) : State :=
  if s.pwr.warmRunning = true ∧ s.pwr.clockLost = false then leaveWarm failed s else s

/-! ### Requests (R454, R462) -/

/-- The highest TARGET of a domain. -/
def targetLimit (domain : Nat) : Nat :=
  if domain = 9 then 23 else if domain = 8 then 255 else if domain = 7 then 63 else if domain = 6 then 7 else if domain = 5 then 15 else 0

/-- A write of OD 7102.01 or 7102.02. -/
def resetWrite (src : Route) (sub v : Nat) (s : State) : State :=
  let s := beginOp s
  let domain := bits v 16 16
  let target := bits v 0 16
  let legal := if sub = 1 then domain == 2 || (decide (4 ≤ domain) && decide (domain ≤ 9)) else domain == 1 || domain == 3
  if sub = 2 ∧ secure src = false then endOp 4 0x06010000 s
  else if legal = false then refuseRule s
  else
    let kept := min target (targetLimit domain)
    let s := if kept = target then s else clamped src 0x7102 sub (15 * 256) target kept s
    requestReset { domain := domain, target := kept, cause := 1 } s

/-- LEDGER_FAULT_LIMIT: 16 ledger faults within a second. -/
def ledgerFaultLimit (s : State) : State :=
  match s.sw.faultTimes[15]? with
  | some t => if s.time.ft ≤ t + 1250000000 then requestReset { domain := 4, target := 0, cause := 3 } s else s
  | none => s

/-! ### Meanings -/

/-- CONTEXT_ABORT_DONE (R253, R461): the last abort of a reset concludes it. -/
def execContextAbortDone (core : CoreN) (slot : SlotN) (s : State) : Host.Outcome State Fault Refusal :=
  .next (settleResets (abortDone (ctxKey core slot) s))

/-- LEDGER_FAULT_LIMIT (R454). -/
def execLedgerFaultLimit (s : State) : Host.Outcome State Fault Refusal := .next (ledgerFaultLimit s)

/-- PORT_RESET (R461, R462): a write of OD 7102.01 with domain 9. -/
def execPortReset (src : Route) (v : BitVec 32) (s : State) : Host.Outcome State Fault Refusal := .next (resetWrite src 1 v.toNat s)

/-- ENGINE_RESET (R461, R462): domain 8. -/
def execEngineReset (src : Route) (v : BitVec 32) (s : State) : Host.Outcome State Fault Refusal := .next (resetWrite src 1 v.toNat s)

/-- CORE_RESET (R461, R462): domain 7. -/
def execCoreReset (src : Route) (v : BitVec 32) (s : State) : Host.Outcome State Fault Refusal := .next (resetWrite src 1 v.toNat s)

/-- CLUSTER_RESET (R461, R462): domain 6. -/
def execClusterReset (src : Route) (v : BitVec 32) (s : State) : Host.Outcome State Fault Refusal := .next (resetWrite src 1 v.toNat s)

/-- TENANT_ABORT (R462, R463): domain 5. -/
def execTenantAbort (src : Route) (v : BitVec 32) (s : State) : Host.Outcome State Fault Refusal := .next (resetWrite src 1 v.toNat s)

/-- CROSSBAR_RESET (R461, R462): domain 4. -/
def execCrossbarReset (src : Route) (v : BitVec 32) (s : State) : Host.Outcome State Fault Refusal := .next (resetWrite src 1 v.toNat s)

/-- MANAGEMENT_RESET (R461, R462): a write of OD 7102.02 with domain 3. -/
def execManagementReset (src : Route) (v : BitVec 32) (s : State) : Host.Outcome State Fault Refusal :=
  .next (resetWrite src 2 v.toNat s)

/-- WATCHDOG_EXPIRY (R461). -/
def execWatchdogExpiry (s : State) : Host.Outcome State Fault Refusal :=
  .next (requestReset { domain := 3, target := 0, cause := 2 } s)

/-- WARM_DEVICE_RESET (R462, R464): a write of OD 7102.01 with domain 2. -/
def execWarmDeviceReset (src : Route) (v : BitVec 32) (s : State) : Host.Outcome State Fault Refusal :=
  .next (resetWrite src 1 v.toNat s)

/-- WARM_RESET_PORTS_DOWN (R464). -/
def execWarmResetPortsDown (s : State) : Host.Outcome State Fault Refusal := .next (warmPortsDown s)

/-- WARM_RESET_COMPLETE (R464). -/
def execWarmResetComplete (failed : List (Fin 128)) (s : State) : Host.Outcome State Fault Refusal :=
  .next (warmComplete (failed.map (fun k => k.val)) s)

/-- COLD_RESET (R461, R462): a write of OD 7102.02 with domain 1. -/
def execColdReset (src : Route) (v : BitVec 32) (s : State) : Host.Outcome State Fault Refusal := .next (resetWrite src 2 v.toNat s)

end Sys2Proof.Machine
end

