-- ==== Sys2Proof/Machine/Power.lean ====
section
/-!
DEFINITION. Rails, clocks, monitors, throttling, trip, JTAG and power warnings (R478, R479, R485–R502, R506, R508).
-/

namespace Sys2Proof.Machine

open Sys2Proof

/-! ### Temperatures (R496, R497, R501, R502) -/

/-- An entry's value of a reading in 0.01 °C: units of 0.01 K. -/
def kelvin (reading : Int) : Nat := (reading + 27315).toNat

/-- The working sensors of the core die and the link dies that are listed. -/
def dieTemps (s : State) : List Nat :=
  (s.pwr.temps.filter (fun e => decide (e.1 < 36) && !s.pwr.failedSensors.contains e.1)).map (fun e => e.2)

/-- The working sensors of the optical engines. -/
def engineTemps (s : State) : List Nat :=
  (s.pwr.temps.filter (fun e => decide (36 ≤ e.1) && !s.pwr.failedSensors.contains e.1)).map (fun e => e.2)

/-- The sensors of the die that sensor `i` sits on; none for an optical engine. -/
def dieSensors (i : Nat) : List Nat :=
  if i < 24 then List.range 24 else if i < 36 then [24 + 2 * ((i - 24) / 2), 25 + 2 * ((i - 24) / 2)] else []

/-- A reading is failed: none, below −40 °C or above 150 °C. -/
def readingFails (reading : Option Int) : Bool :=
  match reading with
  | none => true
  | some r => decide (r < -4000) || decide (15000 < r)

/-- A sensor fails. -/
def sensorFails (i : Nat) (s : State) : State :=
  let s := modPwr (fun p => { p with temps := mapSet p.temps i 0, tripNear := p.tripNear.filter (fun k => k != i) }) s
  let s := if s.pwr.failedSensors.contains i then s
    else log 0x7001 [i] (bump 0x7013 1 (modPwr (fun p => { p with failedSensors := p.failedSensors ++ [i] }) s))
  if !(dieSensors i).isEmpty && (dieSensors i).all (fun k => s.pwr.failedSensors.contains k) then
    modPwr (fun p => { p with dieFailed := true }) s
  else s

/-- The trip: every port DISABLED with its lasers off, contexts aborted, GDDR7 in self-refresh. -/
def trip (sensor reading : Nat) (s : State) : State :=
  if s.pwr.tripped then s
  else
    let s := modPwr (fun p => { p with tripped := true }) s
    let s := forPorts (fun p s => if (s.port p).train = .disabled then s else toDisabled p s) s
    let s := (liveSlots s).foldl (fun s e => abortCtx e.1 s) s
    let s := raiseCause 7 { s with mem := { s.mem with state := .selfRefresh } }
    log 0x7202 [sensor, reading] (bump 0x7200 0x17 s)

/-- The port of an optical engine's sensor. -/
def enginePort (i : Nat) : Option PortN := if h : i - 24 < 24 then (if 36 ≤ i then some ⟨i - 24, h⟩ else none) else none

/-- An optical engine turns off at 85 °C and on again below 80 °C. -/
def engineSample (p : PortN) (reading : Int) (s : State) : State :=
  if 8500 ≤ reading then
    if s.pwr.hot.contains p.val then s
    else
      let s := modPwr (fun x => { x with hot := x.hot ++ [p.val] }) s
      log 0x7004 [p.val, kelvin reading] (bump 0x7200 0x18 (lasersOff p s))
  else if reading < 8000 ∧ s.pwr.hot.contains p.val = true then
    let s := modPwr (fun x => { x with hot := x.hot.filter (fun k => k != p.val) }) s
    lookAlert (modPort p (fun q => { q with engineOff := s.pwr.voptOff }) s)
  else s

/-- A sample of a die's sensor: 110 °C or more in two consecutive samples trips the device. -/
def dieSample (i : Nat) (reading : Int) (s : State) : State :=
  if 11000 ≤ reading then
    if s.pwr.tripNear.contains i then trip i (kelvin reading) s else modPwr (fun p => { p with tripNear := p.tripNear ++ [i] }) s
  else modPwr (fun p => { p with tripNear := p.tripNear.filter (fun k => k != i) }) s

/-- TEMPERATURE_SAMPLE, in units of 0.01 °C. -/
def temperatureSample (i : Nat) (reading : Option Int) (s : State) : State :=
  if readingFails reading then sensorFails i s
  else
    let r := reading.getD 0
    let s := modPwr (fun p => { p with
      temps := mapSet p.temps i (kelvin r), failedSensors := p.failedSensors.filter (fun k => k != i) }) s
    match enginePort i with
    | some p => engineSample p r s
    | none => dieSample i r s

/-! ### Voltages (R485, R486, R498) -/

/-- The rail of a monitor: 0 VCORE, 1 VSRAM, 2 VLINK, 3 VLINKA, 4 VGDR, 5 VOPT, 6 VIO, 7 VAUX. -/
def railOf (m : Nat) : Nat := if m < 12 then 0 else if m < 16 then 1 else if m < 22 then 2 else if m < 28 then 3 else m - 24

/-- The nominal voltage of a rail, in 0.1 mV. -/
def nominal (rail : Nat) : Nat := [7500, 8500, 9000, 12000, 12000, 33000, 18000, 33000].getD rail 0

/-- The tolerance of a rail in per cent (R485). -/
def tolerance (rail : Nat) : Nat := if rail < 5 then 3 else 5

/-- A reading is outside a tolerance in per cent. -/
def outside (rail pct v : Nat) : Bool :=
  decide (100 * v < (100 - pct) * nominal rail) || decide ((100 + pct) * nominal rail < 100 * v)

/-- VOPT is not required while no port has medium 1 (R486). -/
def required (s : State) (rail : Nat) : Bool := rail != 5 || (List.finRange 24).any (fun p => medium s p == 1)

/-- A rail has fallen below 90 %. -/
def railLow (m v : Nat) (s : State) : State :=
  let rail := railOf m
  if rail = 7 then modPwr (fun p => { p with low := [m] }) (enterCold s)
  else
    let s := log 0x7003 [m, v] (bump 0x7013 3 (modPwr (fun p => { p with low := p.low ++ [m] }) s))
    if rail = 5 then forPorts (fun p s => if medium s p = 1 then lasersOff p s else s) (modPwr (fun p => { p with voptOff := true }) s)
    else enterCold (flushLog s)

/-- VOLTAGE_SAMPLE: a full 1,250-tick average of a monitor, in 0.1 mV. -/
def voltageSample (m v : Nat) (s : State) : State :=
  let rail := railOf m
  let need := required s rail
  let warn := need && outside rail 5 v
  let low := need && decide (10 * v < 9 * nominal rail)
  let s := modPwr (fun p => { p with volts := mapSet p.volts m v }) s
  let s := if warn then
      (if s.pwr.warn.contains m then s else log 0x7002 [m, v] (bump 0x7013 2 (modPwr (fun p => { p with warn := p.warn ++ [m] }) s)))
    else modPwr (fun p => { p with warn := p.warn.filter (fun k => k != m) }) s
  let s := if low then (if s.pwr.low.contains m then s else railLow m v s)
    else modPwr (fun p => { p with low := p.low.filter (fun k => k != m) }) s
  lookAlert s

/-- OPTICAL_ENGINE_RESTART. -/
def engineRestart (s : State) : State :=
  if s.pwr.voptOff then
    let s := modPwr (fun p => { p with voptOff := false }) s
    forPorts (fun p s => modPort p (fun q => { q with engineOff := s.pwr.hot.contains p.val }) s) s
  else s

/-! ### Power-up, power loss (R479, R489, R494) -/

/-- The required rails that a monitor sees outside the limits of R485; a monitor not sampled yet is within them. -/
def badRails (s : State) : List Nat :=
  (List.range 8).filter (fun rail => required s rail && s.pwr.volts.any (fun e => railOf e.1 == rail && outside rail (tolerance rail) e.2))

/-- RESET_RELEASE: straps are sampled and the rails checked; the cold reset completes or is held. -/
def resetRelease (s : State) : State :=
  let s := enterCold s
  let s := modPwr (fun p => { p with trayPos := p.trayPins }) s
  let bad := badRails s
  if bad.isEmpty then finishCold 5 s else bad.foldl (fun s r => log 0x7204 [r] s) s

/-- SUPPLY_RESTORE: a device held in cold reset by a rail leaves it. -/
def supplyRestore (s : State) : State :=
  if s.pwr.coldHeld then finishCold 5 (modPwr (fun p => { p with low := [], warn := [] }) s) else s

/-- POWER_LOSS: nothing but flash and FRAM is left. -/
def powerLoss (s : State) : State :=
  let s := enterCold s
  modPwr (fun p => { p with temps := [], volts := [], warn := [], low := [], voptOff := false, clockLost := false, jtag := .idcode, pins := [] }) s

/-- PWR_WARN_ASSERT: the log is flushed and flash writes are abandoned. -/
def pwrWarnAssert (s : State) : State :=
  if s.pwr.pwrWarn then s
  else
    let n := s.log.pending.length
    let s := abandonFirmware (flushLog (modPwr (fun p => { p with pwrWarn := true }) s))
    let s := if s.dict.storeBusy || s.dict.restoreBusy then
        { s with dict := { s.dict with storeBusy := false, restoreBusy := false, lastResult := 5 } }
      else s
    log 0x7131 [n] s

/-- PWR_WARN_RELEASE: operation goes on. -/
def pwrWarnRelease (s : State) : State :=
  if s.pwr.pwrWarn then log 0x7131 [0] (modPwr (fun p => { p with pwrWarn := false }) s) else s

/-! ### Clocks (R491) -/

/-- REFCLK_LOSS: a warm device reset starts and is held. -/
def refclkLoss (s : State) : State :=
  if s.pwr.clockLost then s
  else
    let s := log 0x7005 [1] (bump 0x7013 4 (modPwr (fun p => { p with clockLost := true }) s))
    if s.pwr.coldHeld then s else requestReset { domain := 2, target := 0, cause := 5 } s

/-- REFCLK_RESTORE: after 10 ms with REFCLK the planes leave reset. -/
def refclkRestore (s : State) : State :=
  if s.pwr.clockLost = false then s
  else
    let s := log 0x7005 [2] (modPwr (fun p => { p with clockLost := false }) s)
    if s.pwr.warmRunning then leaveWarm [] (if s.mem.state = .selfRefresh then s else warmPortsDown s)
    else if s.pwr.coldHeld then s else wakePorts s

/-- AUXCLK_LOSS: the management core is held until the clock returns, and then boots. -/
def auxclkLoss (s : State) : State :=
  if s.pwr.mgmtHeld then s
  else
    let s := modPwr (fun p => { p with mgmtHeld := true }) (stopManagement s)
    if s.resets.running.any (fun r => r.domain == 3) then s
    else modResets (fun x => { x with running := x.running ++ [{ domain := 3, target := 0, cause := 5 }] }) s

/-! ### Throttling (R499, R500) -/

/-- The level due for a temperature and a threshold in °C: level k while T ≥ th + 3(k − 1). -/
def levelDue (th : Nat) (temps : List Nat) : Nat :=
  let t := temps.foldl max 0
  (List.range 4).foldl (fun n k => if kelvin (100 * (th + 3 * k) : Nat) ≤ t then k + 1 else n) 0

/-- A temperature allows a fall from level `k`: T ≤ th + 3(k − 1) − 2. -/
def mayFall (th k : Nat) (temps : List Nat) : Bool := decide (temps.foldl max 0 ≤ kelvin (100 * (th + 3 * (k - 1)) - 200 : Nat))

/-- The thermal level after an evaluation. -/
def nextThermal (s : State) : Nat :=
  let die := odGet s 0x7200 1
  let engine := odGet s 0x7200 2
  let now := s.pwr.thermal
  let due := max (levelDue die (dieTemps s)) (levelDue engine (engineTemps s))
  if now < due then due
  else if 0 < now ∧ mayFall die now (dieTemps s) = true ∧ mayFall engine now (engineTemps s) = true then now - 1
  else now

/-- The power level after an evaluation; `power` is the 1 ms average in 0.1 W where a period ends with it. -/
def nextPower (s : State) (power : Option Nat) : Nat :=
  let limit := 10 * odGet s 0x7200 3
  match power with
  | none => s.pwr.powerLevel
  | some w =>
    if limit < w then min 4 (s.pwr.powerLevel + 1)
    else if 100 * w < 95 * limit then s.pwr.powerLevel - 1 else s.pwr.powerLevel

/-- Causes of throttling: thermal, power, forced. -/
def throttleCauses (s : State) : Nat :=
  flag (decide (0 < s.pwr.thermal) || s.pwr.dieFailed) 0 + flag (decide (0 < s.pwr.powerLevel)) 1 + flag (decide (0 < odGet s 0x7200 4)) 2

/-- THROTTLE_EVALUATION: at the next tick whose FT mod 16,384 is 0. -/
def throttleEvaluation (power : Option Nat) (s : State) : State :=
  let s := advanceTo (ceilTo 16384 s.time.ft) s
  let t := nextThermal s
  let w := nextPower s power
  let s := if s.pwr.thermal < t then bump 0x7200 0x15 s else s
  let s := if s.pwr.powerLevel < w then bump 0x7200 0x16 s else s
  let old := s.pwr.level
  let before := throttleCauses s
  let s := modPwr (fun p => { p with thermal := t, powerLevel := w, average := power.getD p.average }) s
  let l := if s.pwr.dieFailed then 4 else max (max t w) (odGet s 0x7200 4)
  let high := if old = 0 then l else max l s.pwr.highestLevel
  let s := bump 0x7200 (0x10 + l) (modPwr (fun p => { p with level := l, highestLevel := high }) s)
  let s := if old = 0 ∧ 0 < l then log 0x7201 [throttleCauses s, high] s
    else if 0 < old ∧ l = 0 then log 0x7201 [before, high] s else s
  lookAlert s

/-! ### Status words -/

/-- OD 7200.06 and 7000.04 (R508). -/
def throttleStatus (s : State) : Nat :=
  flag s.pwr.tripped 10 + flag (!s.pwr.hot.isEmpty) 9 + flag (decide (0 < odGet s 0x7200 4)) 6 + flag (decide (0 < s.pwr.powerLevel)) 5
    + flag (decide (0 < s.pwr.thermal)) 4 + s.pwr.level

/-- OD 7000.10 (R506). -/
def monitorStatus (s : State) : Nat :=
  flag s.pwr.tripped 4 + flag s.pwr.clockLost 3 + flag (!s.pwr.failedSensors.isEmpty) 2 + flag (!s.pwr.low.isEmpty) 1
    + flag (!s.pwr.warn.isEmpty) 0

/-- The lowest reading of a rail's monitors; 0 while none has been sampled. -/
def lowestVolt (s : State) (rail : Nat) : Nat :=
  match (s.pwr.volts.filter (fun e => railOf e.1 == rail)).map (fun e => e.2) with
  | [] => 0
  | v :: l => l.foldl min v

/-- The highest reading of the sensors of a range. -/
def highestTemp (s : State) (lo hi : Nat) : Nat :=
  (s.pwr.temps.filter (fun e => decide (lo ≤ e.1) && decide (e.1 < hi))).foldl (fun m e => max m e.2) 0

/-! ### JTAG (R495) -/

/-- IDCODE: version 0, part number 0024h, manufacturer, and the bit that is always 1. -/
def idcode : Nat := 0x0024 * 2 ^ 12 + Config.manufacturer.toNat * 2 + 1

/-- Select a JTAG instruction and shift its data register out. -/
def jtagSelect (i : Jtag) (data : Bytes) (s : State) : State := emit (.jtag data) (modPwr (fun p => { p with jtag := i }) s)

/-- The boundary-scan cells captured: the chain's order is not stated, so a free value. -/
def capture (i : Jtag) (s : State) : State := drawn (jtagSelect i (natLe 4 (nextFree s 32)) s)

/-! ### Meanings -/

/-- TEMPERATURE_SAMPLE (R497, R501, R502). -/
def execTemperatureSample (sensor : Fin 48) (reading : Option Int) (s : State) : Host.Outcome State Fault Refusal :=
  .next (temperatureSample sensor.val reading s)

/-- VOLTAGE_SAMPLE (R498). -/
def execVoltageSample (monitor : Fin 32) (reading : Nat) (s : State) : Host.Outcome State Fault Refusal :=
  .next (voltageSample monitor.val reading s)

/-- OPTICAL_ENGINE_RESTART (R498). -/
def execOpticalEngineRestart (s : State) : Host.Outcome State Fault Refusal := .next (engineRestart s)

/-- THROTTLE_EVALUATION (R500). -/
def execThrottleEvaluation (power : Option Nat) (s : State) : Host.Outcome State Fault Refusal := .next (throttleEvaluation power s)

/-- REFCLK_LOSS (R491). -/
def execRefclkLoss (s : State) : Host.Outcome State Fault Refusal := .next (refclkLoss s)

/-- REFCLK_RESTORE (R491). -/
def execRefclkRestore (s : State) : Host.Outcome State Fault Refusal := .next (refclkRestore s)

/-- AUXCLK_LOSS (R491). -/
def execAuxclkLoss (s : State) : Host.Outcome State Fault Refusal := .next (auxclkLoss s)

/-- PWR_WARN_ASSERT (R478). -/
def execPwrWarnAssert (s : State) : Host.Outcome State Fault Refusal := .next (pwrWarnAssert s)

/-- PWR_WARN_RELEASE (R478). -/
def execPwrWarnRelease (s : State) : Host.Outcome State Fault Refusal := .next (pwrWarnRelease s)

/-- POWER_LOSS (R479). -/
def execPowerLoss (s : State) : Host.Outcome State Fault Refusal := .next (powerLoss s)

/-- RESET_RELEASE (R489). -/
def execResetRelease (s : State) : Host.Outcome State Fault Refusal := .next (resetRelease s)

/-- SUPPLY_RESTORE (R489, R498). -/
def execSupplyRestore (s : State) : Host.Outcome State Fault Refusal := .next (supplyRestore s)

/-- JTAG_BYPASS (R495): the one-bit register captures 0. -/
def execJtagBypass (s : State) : Host.Outcome State Fault Refusal := .next (jtagSelect .bypass [0] s)

/-- JTAG_IDCODE (R495). -/
def execJtagIdcode (s : State) : Host.Outcome State Fault Refusal := .next (jtagSelect .idcode (natLe 4 idcode) s)

/-- JTAG_SAMPLE_PRELOAD (R495). -/
def execJtagSamplePreload (s : State) : Host.Outcome State Fault Refusal := .next (capture .samplePreload s)

/-- JTAG_EXTEST (R495): the boundary-scan cells drive the pins. -/
def execJtagExtest (pins : List Bool) (s : State) : Host.Outcome State Fault Refusal :=
  .next (capture .extest (modPwr (fun p => { p with pins := pins }) s))

end Sys2Proof.Machine
end

