-- ==== Sys2Proof/Machine/View.lean ====
section
/-!
DEFINITION. Reading the object dictionary (R384, R389–R391, R405, R408, R416, R417, R442, R450, R480–R483, R506): the
value of every readable entry, computed from the state that holds it, and the filtered view of a tenant.
-/

namespace Sys2Proof.Machine

open Sys2Proof

/-! ### Status words of this part of the dictionary -/

/-- The node-ID in force: the override, else the strap (R392). -/
def nodeId (s : State) : Nat := if odGet s 0x1100 2 ≠ 0 then odGet s 0x1100 2 else s.pwr.nodePins

/-- OD 1F20.04 (R417). -/
def storeStatus (s : State) : Nat :=
  s.dict.lastResult * 2 ^ 12 + s.dict.restoredFrom * 256 + flag s.dict.imageB.isSome 3 + flag s.dict.imageA.isSome 2
    + flag s.dict.restoreBusy 1 + flag s.dict.storeBusy 0

/-- OD 3500.06 (R223). -/
def directoryStatus (s : State) : Nat :=
  s.grotto.lostMask.toNat * 256 + flag (recallRuns s 2) 3 + flag (walkRuns s) 2 + flag (recallRuns s 1) 1 + flag (dirEnabled s) 0

/-- Directory entries in the states that `f` accepts. -/
def dirCount (s : State) (f : DirState → Bool) : Nat := (s.grotto.dir.filter (fun e => f e.2.st)).length

/-- Accumulators that windows hold of the collective reservation. -/
def windowAccs (s : State) : Nat := s.coll.wins.foldl (fun n e => n + e.2.accCount) 0

/-! ### Ports (R14, R61, R90–R93) -/

/-- The lane of sub-indices `base` to `base + 7`. -/
def laneAtSub (q : Port) (base sub : Nat) : Option Lane := if base ≤ sub then q.lanes[sub - base]? else none

/-- A read-only entry of a port: index 2000h + 10h·n + k. -/
def readPort (s : State) (p : PortN) (k sub : Nat) : Option Nat :=
  let q := s.port p
  if k = 1 ∧ sub = 1 then some (partnerIdentity q)
  else if k = 2 then
    match sub with
    | 1 => some (trainCode q.train)
    | 2 => some q.version
    | 3 => some (widthCode q.width)
    | 4 => some (laneMask q (fun l => l.failed))
    | 7 => some (linkFlags s p)
    | _ => none
  else if k = 3 ∧ sub < 0x11 then (laneAtSub q 1 sub).map laneAlignment
  else if k = 4 ∧ sub < 0x11 then (laneAtSub q 1 sub).map laneHealth
  else none

/-- A time entry of a port: index 4010h + n. -/
def readPortTime (s : State) (p : PortN) (sub : Nat) : Option Nat :=
  let q := (s.port p).time
  match sub with
  | 1 => some (portTimeStatus q)
  | 7 => some ((twos 32 (q.delay.getD 0)))
  | 8 => some (twos 32 q.offset)
  | 9 => some q.timStatus
  | 10 => some (twos 32 q.timPhi)
  | _ => none

/-! ### Scalars -/

/-- Route banks: OD 3100, 3110–3138. -/
def readRoutes (s : State) (index sub : Nat) : Option Nat :=
  let idle := bank s (targetBank s)
  let act := bank s s.routes.current
  if index = 0x3100 then
    match sub with
    | 1 => some s.routes.current
    | 2 => some (bankCode s.routes.bank0.state)
    | 3 => some (bankCode s.routes.bank1.state)
    | 5 => some idle.salt.toNat
    | 6 => some idle.ngroups
    | _ => none
  else match index with
    | 0x3110 => some (groupEntry idle (sub - 1))
    | 0x3118 => some (groupEntry act (sub - 1))
    | 0x3120 => some (memberEntry idle (sub - 1))
    | 0x3128 => some (memberEntry act (sub - 1))
    | 0x3130 => some (portEntry idle (sub - 1))
    | 0x3138 => some (portEntry act (sub - 1))
    | _ => none

/-- Switch core, grotto: OD 3000, 3300, 3310, 3500. -/
def readSwitch (s : State) (index sub : Nat) : Option Nat :=
  if index = 0x3000 then
    (if sub = 4 then some s.pwr.trayPos
     else if sub = 5 then some (if assigned s ∧ odGet s 0x3000 2 ≠ s.pwr.trayPos then 1 else 0) else none)
  else if index = 0x3300 then (if sub = 8 then some s.sw.comb.length else if sub = 9 then some (joinersUsed s) else none)
  else if 0x3310 ≤ index ∧ index < 0x3328 then
    (if sub = 9 then some (allocated s (index - 0x3310))
     else if sub = 10 then s.sw.highest[index - 0x3310]? else none)
  else if index = 0x3500 then
    (if sub = 6 then some (directoryStatus s) else if sub = 7 then some (dirCount s (fun d => d == .s || d == .em))
     else if sub = 8 then some (dirCount s (fun d => d == .lost)) else none)
  else none

/-- Fabric time and calendar: OD 4000, 4010, 4100–4102. -/
def readTime (s : State) (index sub : Nat) : Option Nat :=
  if index = 0x4000 then
    match sub with
    | 3 => some s.time.round
    | 6 => some s.time.ft
    | 0x20 => some (timeStatus s)
    | 0x21 => some (twos 32 s.time.phi)
    | 0x23 => some (twos 32 s.time.rate)
    | _ => none
  else if 0x4010 ≤ index ∧ index < 0x4028 then (if h : index - 0x4010 < 24 then readPortTime s ⟨index - 0x4010, h⟩ sub else none)
  else if index = 0x4100 then
    match sub with
    | 4 => some ((activeNo s).getD 255)
    | 6 => some (calendarStatus s)
    | 7 => some (((activeNo s).map (fun b => (calBank s b).imageId.toNat)).getD 0)
    | 8 => some (calBank s (idleNo s)).imageId.toNat
    | 9 => some (calBank s (idleNo s)).round
    | _ => none
  else if index = 0x4101 then
    match sub with
    | 4 => some s.cal.image.length
    | 5 => some s.cal.stored
    | 6 => some s.cal.clamped
    | 7 => some s.cal.epRecs
    | _ => none
  else if index = 0x4102 ∧ sub = 2 then some (readBack s)
  else none

/-- Compute array and collectives: OD 5000, 5004, 5005, 5010, 5100, 5120, 5160. -/
def readCompute (s : State) (index sub : Nat) : Option Nat :=
  if index = 0x5000 then (if sub = 4 then some s.cmp.kernels.length else if sub = 7 then some s.xlat.pages.length else none)
  else if index = 0x5004 ∧ sub = 5 then some (if s.cmp.loading then 0 else s.cmp.loadKid * 65536 + s.cmp.loadResult)
  else if index = 0x5005 ∧ sub = 2 then some (windowAccs s)
  else if 0x5010 ≤ index ∧ index < 0x5050 then some (ctxStatus (ctxAt s ((index - 0x5010) * 4 + (sub - 1))))
  else if index = 0x5100 then (if sub = 2 then some (windowsBound s) else if sub = 3 then some (4096 - departureHeld s) else none)
  else if 0x5120 ≤ index ∧ index < 0x5160 ∧ sub = 3 then some (windowStatus (winAt s (index - 0x5120)))
  else if 0x5160 ≤ index ∧ index < 0x5170 then
    (if sub = 2 then some (if (shardAt s (index - 0x5160)).state = 1 then 1 else 0)
     else if sub = 3 then some (shardStatus (shardAt s (index - 0x5160))) else none)
  else none

/-- Translation and memory: OD 5200, 5201, 5300, 5310. -/
def readMemory (s : State) (index sub : Nat) : Option Nat :=
  if index = 0x5200 then
    match sub with
    | 2 => some (xlatStatus s.xlat)
    | 3 => some (s.xlat.reqs.filter (fun r => r.sent)).length
    | 4 => some s.xlat.invals.length
    | 6 => some (min (2 ^ 32 - 1) s.xlat.longest)
    | _ => none
  else if index = 0x5201 ∧ 2 ≤ sub then some (xlatWord s (sub - 2))
  else if index = 0x5300 then
    match sub with
    | 1 => some s.mem.density
    | 3 => some (if s.mem.coloured then 1 else 0)
    | 4 => some (usableBytes s)
    | 5 => some (memStatus s)
    | _ => none
  else if 0x5310 ≤ index ∧ index < 0x5330 ∧ sub ≤ 4 then some (chanStatus (chan s ((index - 0x5310) * 4 + (sub - 1))))
  else none

/-- Identity, communication, log, security, monitors, faults. -/
def readManagement (s : State) (index sub : Nat) : Option Nat :=
  match index, sub with
  | 0x1001, 0 => some (errorRegister s)
  | 0x1018, 4 => some (leNat (slice (idBytes Config.identityKey) 0 4))
  | 0x1100, 3 => some s.can.node
  | 0x1100, 0x0A => some s.can.nmt
  | 0x1F00, 1 => some s.dict.clamps.length
  | 0x1F00, 2 => some s.dict.clampSeq
  | 0x1F10, 1 => some s.log.seq
  | 0x1F10, 2 => some s.log.fram.length
  | 0x1F10, 5 => some s.log.pending.length
  | 0x1F10, 6 => some s.log.opened.length
  | 0x1F20, 3 => some (((newestImage s).map (fun i => i.2.seq)).getD 0)
  | 0x1F20, 4 => some (storeStatus s)
  | 0x6000, 1 => some (securityStatus s)
  | 0x6004, 5 => some s.sec.bindResult
  | 0x7000, 1 => some (highestTemp s 0 24)
  | 0x7000, 2 => some (highestTemp s 24 36)
  | 0x7000, 3 => some (highestTemp s 36 48)
  | 0x7000, 4 => some (throttleStatus s)
  | 0x7000, 5 => some s.pwr.average
  | 0x7000, 6 => some (lowestVolt s 0)
  | 0x7000, 9 => some (lowestVolt s 1)
  | 0x7000, 10 => some (lowestVolt s 2)
  | 0x7000, 11 => some (lowestVolt s 3)
  | 0x7000, 12 => some (lowestVolt s 4)
  | 0x7000, 13 => some (lowestVolt s 5)
  | 0x7000, 14 => some (lowestVolt s 6)
  | 0x7000, 15 => some (lowestVolt s 7)
  | 0x7000, 16 => some (monitorStatus s)
  | 0x7010, n => some (mapGetD s.pwr.temps (n - 1) 0)
  | 0x7011, n => some (mapGetD s.pwr.volts (n - 1) 0)
  | 0x7102, 3 => some s.resets.last
  | 0x7120, 3 => some (musterStatus s)
  | 0x7120, 4 => some s.muster.epoch
  | 0x7200, 6 => some (throttleStatus s)
  | i, j =>
    if 0x6040 ≤ i ∧ i < 0x6058 ∧ j = 1 then (if h : i - 0x6040 < 24 then some (keyStatus s ⟨i - 0x6040, h⟩) else none) else none

/-- The value of a scalar entry. Sub-index 00 of an index whose entries begin at 01 holds its highest sub-index (R384). -/
def readScalar (s : State) (index sub : Nat) : Nat :=
  let computed :=
    if index < 0x2000 then readManagement s index sub
    else if index < 0x2180 then (if h : (index - 0x2000) / 16 < 24 then readPort s ⟨(index - 0x2000) / 16, h⟩ ((index - 0x2000) % 16) sub else none)
    else if index < 0x3000 then none
    else if 0x3100 ≤ index ∧ index < 0x3140 then readRoutes s index sub
    else if index < 0x4000 then readSwitch s index sub
    else if index < 0x5000 then readTime s index sub
    else if index < 0x5200 then readCompute s index sub
    else if index < 0x6000 then readMemory s index sub
    else readManagement s index sub
  match findEntry index sub with
  | none => highestSub index
  | some _ => computed.getD (odGet s index sub)

/-! ### BLOB and STR entries -/

/-- DETAIL of an event: its items share the 12 bytes evenly (assumption 32). -/
def detailBytes (l : List Nat) : Bytes :=
  let l := l.take 12
  slice (l.flatMap (natLe (12 / max 1 l.length))) 0 12

/-- An event record of 32 bytes (R450). -/
def eventBytes (r : EventRec) : Bytes :=
  let b := natLe 4 r.seq ++ natLe 2 r.code ++ natLe 1 r.cls ++ natLe 1 r.tenant ++ natLe 8 r.ft ++ detailBytes r.detail
  b ++ natLe 4 (crc32c b).toNat

/-- A record of the clamp report, 40 bytes (R404). -/
def clampBytes (r : ClampRec) : Bytes :=
  natLe 4 r.seq ++ natLe 2 r.index ++ natLe 1 r.sub ++ natLe 1 r.source ++ natLe 4 r.place ++ natLe 1 r.kind ++ natLe 3 0
    ++ natLe 8 r.original ++ natLe 8 r.clamped ++ natLe 8 r.ft

/-- The snapshot result (R408). -/
def snapshotBytes (x : Snapshot) : Bytes :=
  natLe 4 x.seq ++ natLe 1 (flag x.valid 0) ++ natLe 3 0 ++ natLe 8 x.ft ++ x.values.flatMap (natLe 8)

/-- Every record of the log, oldest first. -/
def logRecords (s : State) : List EventRec := s.log.fram ++ s.log.pending

/-- The contents of a STR or BLOB entry. -/
def readBlob (s : State) (index sub : Nat) : Bytes :=
  if 0x5104 ≤ index ∧ index < 0x5108 then mapGetD s.coll.maps (index - 0x5104) []
  else if 0x5120 ≤ index ∧ index < 0x5160 then
    let w := winAt s (index - 0x5120)
    match sub with
    | 1 => w.desc
    | 4 => resultRecord w
    | 5 => dropRecord w
    | _ => absentBytes s w
  else if 0x5160 ≤ index ∧ index < 0x5170 then (shardAt s (index - 0x5160)).record
  else match index, sub with
  | 0x1008, _ => textBytes "Jalrus GV24"
  | 0x1009, _ => textBytes "A"
  | 0x100A, _ => ((runningFirmware s).map (fun f => Config.firmwareText f.bytes)).getD []
  | 0x1F00, _ => s.dict.clamps.flatMap clampBytes
  | 0x1F10, _ => (logRecords s).flatMap eventBytes
  | 0x1F30, 4 => snapshotBytes s.dict.snap
  | 0x6000, 2 => Config.identityKey
  | 0x6000, 3 => Config.bindingValue
  | 0x6000, _ => Config.certificateChain
  | 0x6002, _ => s.sec.mlist.flatMap (fun d => natLe 64 d.toNat)
  | 0x7120, 5 => failedBytes s.muster.members
  | 0x7120, 6 => failedBytes s.muster.failed
  | 0x7120, 7 => s.muster.lost.flatMap (natLe 2)
  | _, _ => blobGet s index sub

/-! ### Filtered views (R442, R508) -/

/-- What a reader sees: everything, or the filtered view of a tenant. -/
abbrev Viewer := Option Nat

/-- The tenant that an entry is about, where it is about one. -/
def entryTenant (s : State) (index sub : Nat) : Option Nat :=
  if index = 0x3301 ∨ index = 0x6003 ∨ index = 0x6031 then some (sub - 1)
  else if 0x5010 ≤ index ∧ index < 0x5050 then
    let c := ctxAt s ((index - 0x5010) * 4 + (sub - 1))
    if c.state = .free then none else some c.tenant
  else if 0x5120 ≤ index ∧ index < 0x5160 then
    let w := winAt s (index - 0x5120)
    if w.desc = [] then none else some (dTenant w.desc)
  else if index = 0x4102 ∧ sub = 2 then (if readBack s = 0 then none else some (eTenant (readBack s)))
  else if index = 0x5201 then (mapGet s.xlat.entries (odGet s 0x5201 1 % 16384)).map (fun e => e.tenant)
  else none

/-- A counter: a read-only U64 or the U32 counters of fabric time. Throttling is seen by every tenant (R508). -/
def isCounter (index sub : Nat) : Bool :=
  match findEntry index sub with
  | none => false
  | some e =>
    e.acc == .ro && e.ty == .u64 && !(index == 0x4000 || index == 0x4100 || index == 0x4102 || index == 0x3118 || index == 0x3128
      || index == 0x3138 || index == 0x5201 || (index == 0x5300 && sub == 4) || index / 256 == 0x70 || index == 0x7200)
      || (decide (0x4010 ≤ index) && decide (index < 0x4028) && decide (2 ≤ sub) && decide (sub ≤ 6)) || (index == 0x4000 && sub == 0x25)

/-- A shard slot that no window of the tenant names. -/
def foreignShard (s : State) (t index : Nat) : Bool :=
  decide (0x5160 ≤ index) && decide (index < 0x5170) && !s.coll.wins.any (fun e =>
    winBound e.2 && dTenant e.2.desc == t && decide (7 ≤ dOp e.2.desc) && decide (dOp e.2.desc ≤ 9) && fieldAt e.2.desc 40 2 == index - 0x5160)

/-- The entry reads as 0 in the tenant's view: it describes another tenant, or is a device-wide counter. -/
def hiddenFrom (s : State) (t index sub : Nat) : Bool :=
  isCounter index sub || foreignShard s t index || (match entryTenant s index sub with
    | some u => u != t
    | none => false)

/-- A device-wide event record in a tenant's view. -/
def filteredEvents (t : Nat) (l : List EventRec) : List EventRec :=
  (l.filter (fun r => r.tenant == 255 || r.tenant == t)).map (fun r => if r.tenant = 255 then { r with detail := [] } else r)

/-- The clamp report in a tenant's view. -/
def filteredClamps (s : State) (t : Nat) (l : List ClampRec) : List ClampRec :=
  (l.filter (fun r => match entryTenant s r.index r.sub with
    | some u => u == t
    | none => true)).map (fun r => if entryTenant s r.index r.sub = none then { r with place := 0, original := 0, clamped := 0 } else r)

/-- The items of the snapshot set (R407). -/
def snapshotItems (s : State) : List (Nat × Nat) :=
  let b := blobGet s 0x1F30 1
  (List.range (b.length / 4)).map (fun k => (fieldAt b (4 * k + 2) 2, fieldAt b (4 * k + 1) 1))

/-- A snapshot in a tenant's view: values of entries it may not see read 0. -/
def filteredSnapshot (s : State) (t : Nat) (x : Snapshot) : Snapshot :=
  { x with values := (x.values.zip (snapshotItems s)).map (fun e => if hiddenFrom s t e.2.1 e.2.2 then 0 else e.1) }

/-- A scalar entry in a reader's view. -/
def viewScalar (s : State) (who : Viewer) (index sub : Nat) : Nat :=
  match who with
  | none => readScalar s index sub
  | some t => if hiddenFrom s t index sub then 0 else readScalar s index sub

/-- A BLOB or STR entry in a reader's view. -/
def viewBlob (s : State) (who : Viewer) (index sub : Nat) : Bytes :=
  match who with
  | none => readBlob s index sub
  | some t =>
    if hiddenFrom s t index sub then List.replicate (readBlob s index sub).length 0
    else match index, sub with
      | 0x1F00, _ => (filteredClamps s t s.dict.clamps).flatMap clampBytes
      | 0x1F10, _ => (filteredEvents t (logRecords s)).flatMap eventBytes
      | 0x1F30, 4 => snapshotBytes (filteredSnapshot s t s.dict.snap)
      | _, _ => readBlob s index sub

end Sys2Proof.Machine
end

