-- ==== Sys2Proof/Machine/Dict.lean ====
section
/-!
DEFINITION. Writing the object dictionary (R384–R388, R398–R408): the checks of every write, the operation of each entry,
the snapshot, and the stored images (R409–R415).
-/

namespace Sys2Proof.Machine

open Sys2Proof

/-- Change the dictionary. -/
def modDict (f : Dict → Dict) (s : State) : State := { s with dict := f s.dict }

/-! ### Clamps of single entries -/

/-- CMARK thresholds 2 and 3 (R148): clamped to the range, then up to the threshold below. -/
def thresholdWrite (src : Route) (sub v : Nat) (s : State) : State :=
  let a := clampTo 1 5376 v
  keepTwo src 0x3300 sub 16 v a (max a (odGet s 0x3300 (sub - 1))) s

/-- OD 3400.03: the request timeout. -/
def requestTimeoutWrite (src : Route) (v : Nat) (s : State) : State :=
  let a := clampTo 131072 1073741824 v
  keepTwo src 0x3400 3 32 v a (max a (max (2 * odGet s 0x3400 2) (odGet s 0x3300 5 + 65536))) s

/-- OD 3400.08: writable while no exact-add region is enabled. -/
def exactPoolWrite (src : Route) (v : Nat) (s : State) : State :=
  if (List.range 16).any (fun k => bit (odGet s 0x3401 (k + 1)) 63) then refuseCondition s
  else keepScalar src 0x3400 8 32 v (min v 262144) s

/-- OD 3402.02: W_MIN. -/
def minWindowWrite (src : Route) (v : Nat) (s : State) : State :=
  let a := clampTo 1 4096 v
  keepTwo src 0x3402 2 16 v a (min a (odGet s 0x3402 1)) s

/-- OD 3500.05: the forwarded-request timeout. -/
def forwardTimeoutWrite (src : Route) (v : Nat) (s : State) : State :=
  let a := clampTo 131072 1073741824 v
  keepTwo src 0x3500 5 32 v a (max a (odGet s 0x3400 2 + 65536)) s

/-- OD 5000.05: the kernel accumulator pool, writable while no context holds accumulators. -/
def kernelPoolWrite (src : Route) (v : Nat) (s : State) : State :=
  if s.cmp.ctxs.any (fun e => e.2.state != .free && decide (0 < e.2.accCount)) then refuseCondition s
  else
    let a := min v 262144
    keepTwo src 0x5000 5 32 v a (min a (838860 - (odGet s 0x3400 8 + odGet s 0x5100 1))) s

/-- OD 5002.(c + 1): the tenancy of a core, writable while it has no context. -/
def tenancyWrite (src : Route) (core v : Nat) (s : State) : State :=
  if (liveSlots s).any (fun e => e.1 / 4 == core) then refuseCondition s
  else keepScalar src 0x5002 (core + 1) 8 v (if 0x11 ≤ v ∧ v ≤ 0xFE then 0xFF else v) s

/-- OD 5201.01: the read-back selector. -/
def xlatSelectorWrite (src : Route) (v : Nat) (s : State) : State :=
  let a := clampField 14 18 0 (v, [])
  reportClamps src 0x5201 1 a.2 (odSet 0x5201 1 a.1 s)

/-- Ways left for a tenant beside those of the tenants below it. -/
def wayRoom (s : State) (t : Nat) : Nat := 16 - (List.range t).foldl (fun n u => n + odGet s 0x6031 (u + 1)) 0

/-- OD 6031.(t + 1): clamped in ascending tenant order to the remainder of 16 ways (R440). -/
def wayWrite (src : Route) (t v : Nat) (s : State) : State :=
  if assigned s then refuseRule s
  else
    let s := keepTwo src 0x6031 (t + 1) 8 v (min v 16) (min (min v 16) (wayRoom s t)) s
    ((List.range 16).drop (t + 1)).foldl (fun s u =>
      let old := odGet s 0x6031 (u + 1)
      keepScalar src 0x6031 (u + 1) 8 old (min old (wayRoom s u)) s) s

/-- OD 3000.01 and .02: the coordinates, refused while they are committed (R22). -/
def coordinateWrite (src : Route) (sub v limit : Nat) (s : State) : State :=
  if assigned s then refuseCondition s else keepScalar src 0x3000 sub 8 v (min v limit) s

/-- OD 1100.06–09: event times of the TPDOs. -/
def eventTimeWrite (src : Route) (sub v : Nat) (s : State) : State :=
  keepScalar src 0x1100 sub 16 v (if v = 0 then 0 else clampTo 10 60000 v) s

/-- OD 7200.05: the mask of `ALERT_L`. -/
def alertMaskWrite (src : Route) (v : Nat) (s : State) : State :=
  let a := clampField 7 1 0 (clampField 6 1 1 (clampField 5 1 1 (v, [])))
  lookAlert (reportClamps src 0x7200 5 a.2 (odSet 0x7200 5 a.1 s))

/-- OD 7120.08: the re-admission list. -/
def readmitWrite (b : Bytes) (s : State) : State := if b.length % 2 = 0 then blobSet 0x7120 8 b s else endOp 5 0x06070010 s

/-- Arm ticks of the muster (R55, R467, R477). -/
def musterArmWrite (src : Route) (sub v : Nat) (s : State) : State := keepArm src 0x7120 sub v (armTick s.time.ft 1 v) s

/-- Entries that a commit freezes: OD 5301, 6030 (R361, R443). -/
def frozenWrite (src : Route) (index sub v kept : Nat) (s : State) : State :=
  if assigned s then refuseRule s else keepScalar src index sub 8 v kept s

/-- A retrain request (R83). -/
def retrainWrite (src : Route) (p : PortN) (v : Nat) (s : State) : State :=
  let s := onlyOne src (portIndex p 2) 6 v s
  if (s.port p).train = .exchange ∨ (s.port p).train = .active then toLock true p s else s

/-! ### The node-ID (R392) -/

/-- A write of OD 1100.02: it takes effect after its response. -/
def nodeIdWrite (src : Route) (v : Nat) (s : State) : State :=
  let s := keepScalar src 0x1100 2 8 v (min v 127) s
  { s with can := { s.can with renamed := true } }

/-- The boot-up message. -/
def bootUp (s : State) : State :=
  if s.can.node = 0 then s else emit (.can (0x700 + s.can.node) [0]) (bump 0x1100 0x11 s)

/-- After the response of an operation: a rewritten node-ID is taken, and boot-up sent under it. -/
def afterResponse (s : State) : State :=
  if s.can.renamed then bootUp { s with can := { s.can with renamed := false, node := nodeId s } } else s

/-! ### The clamp report and the snapshot (R405, R407, R408) -/

/-- CLAMP_REPORT_DISCARD. -/
def clampDiscard (v : Nat) : State → State := modDict (fun d => { d with clamps := d.clamps.filter (fun r => decide (v < r.seq)) })

/-- An item of the snapshot set is legal. -/
def itemLegal (item : Nat) : Bool :=
  let index := bits item 16 16
  let sub := bits item 8 8
  bits item 0 8 == 0 && (match findEntry index sub with
    | some e => e.ty.size.isSome && e.acc != .wo
    | none => sub == 0 && indexExists index)

/-- A write of the snapshot set: more than 64 items are cut, items that name nothing readable become empty. -/
def snapshotSetWrite (src : Route) (b : Bytes) (s : State) : State :=
  if b.length % 4 ≠ 0 then endOp 5 0x06070010 s
  else
    let n := min 64 (b.length / 4)
    let s := if b.length / 4 = n then s else clamped src 0x1F30 1 (4 * n) (b.length / 4) n s
    let bad (k : Nat) : Bool := fieldAt b (4 * k) 4 != 0 && !itemLegal (fieldAt b (4 * k) 4)
    let s := (List.range n).foldl (fun s k => if bad k then clamped src 0x1F30 1 (4 * k) (fieldAt b (4 * k) 4) 0 s else s) s
    blobSet 0x1F30 1 ((List.range n).flatMap (fun k => if bad k then natLe 4 0 else slice b (4 * k) 4)) s

/-- A snapshot is asked for: it joins one that is not ready yet. -/
def armSnapshot (s : State) : State :=
  if s.dict.snap.armed || s.dict.snap.taken.isSome then s else modDict (fun d => { d with snap := { d.snap with armed := true, valid := false } }) s

/-- SNAPSHOT_TRIGGER. -/
def snapshotTrigger (src : Route) (v : Nat) (s : State) : State := armSnapshot (onlyOne src 0x1F30 2 v s)

/-- The value of an item: unsigned values zero-extended, I32 sign-extended. -/
def itemValue (s : State) (item : Nat × Nat) : Nat :=
  match findEntry item.1 item.2 with
  | none => if item.2 = 0 ∧ indexExists item.1 = true then highestSub item.1 else 0
  | some e => if e.ty = .i32 then twos 64 (signed 32 (readScalar s item.1 item.2)) else readScalar s item.1 item.2

/-- The content of TPDO `n` (R397). -/
def tpdoFrame (s : State) (n : Nat) : Bytes :=
  match n with
  | 0 => padTo 32 (natLe 8 s.time.ft ++ natLe 4 (readScalar s 0x4000 0x20) ++ natLe 4 (readScalar s 0x4000 0x21)
      ++ natLe 4 (readScalar s 0x5300 5) ++ natLe 8 (readScalar s 0x4100 7) ++ natLe 1 (errorRegister s))
  | 1 => (List.finRange 24).flatMap (fun p => natLe 1 (trainCode (s.port p).train))
  | 2 => (List.range 8).flatMap (fun k => natLe 4 (readScalar s 0x7000 (k + 1)))
  | _ => (List.range 8).flatMap (fun k => natLe 4 (readScalar s 0x7000 (k + 9)))

/-- The four TPDO contents of this tick. -/
def tpdoFrames (s : State) : List Bytes := (List.range 4).map (tpdoFrame s)

/-- TELEMETRY_CAPTURE (R146): at the next capture slot, FT mod 512 = 383. -/
def telemetryCapture (s : State) : State :=
  let s := advanceTo (backgroundTick s 512 383) s
  let s := { s with can := { s.can with frames := tpdoFrames s } }
  if s.dict.snap.armed then
    modDict (fun d => { d with snap := { d.snap with armed := false, taken := some (s.time.ft, (snapshotItems s).map (itemValue s)) } }) s
  else s

/-- SNAPSHOT_RESULT_READY: the result record is replaced whole. -/
def snapshotReady : State → State :=
  modDict (fun d => match d.snap.taken with
    | none => d
    | some (ft, l) => { d with snap := { d.snap with taken := none, seq := d.snap.seq + 1, valid := true, ft := ft, values := l } })

/-! ### Stored images (R409–R415) -/

/-- Every entry that is storable, in ascending index and sub-index, by its key. -/
def storableKeys : List Nat :=
  (List.range 0x7201).flatMap (fun i => (List.range 256).filterMap (fun j =>
    match findEntry i j with
    | some e => if storable e i j then some (odKey i j) else none
    | none => none))

/-- The image record of an entry; a BLOB entry that holds nothing has none. -/
def imageRecord (s : State) (key : Nat) : Option ImageRec :=
  match findEntry (key / 256) (key % 256) with
  | none => none
  | some e =>
    match e.ty.size with
    | some n => some { key := key, type := e.ty.code, value := natLe n (readScalar s (key / 256) (key % 256)) }
    | none =>
      let b := readBlob s (key / 256) (key % 256)
      if b = [] then none else some { key := key, type := e.ty.code, value := b }

/-- Bytes of an image (R410). -/
def imageLength (l : List ImageRec) : Nat := l.foldl (fun n r => n + ceilTo 8 (8 + r.value.length)) 64

/-- LAST_RESULT of a store or action. -/
def storeResult (r : Nat) : State → State := modDict (fun d => { d with lastResult := r })

/-- A store or action cannot start. -/
def storeClosed (s : State) : Bool := s.pwr.pwrWarn || s.dict.storeBusy || s.dict.restoreBusy

/-- DICTIONARY_STORE: the region that does not hold the newest image is erased, programmed and verified. -/
def dictionaryStore (src : Route) (v : Nat) (verified : Bool) (s : State) : State :=
  if storeClosed s then storeResult 2 (refuseRule s)
  else
    let l := storableKeys.filterMap (imageRecord s)
    if 1048576 < imageLength l then storeResult 3 (refuseRule s)
    else
      let toB := match newestImage s with
        | none => false
        | some (inB, _) => !inB
      let seq := match newestImage s with
        | none => 1
        | some (_, i) => (i.seq + 1) % 2 ^ 32
      let image : Option DictImage := if verified then some { major := 1, minor := 0, seq := seq, ft := s.time.ft, records := l } else none
      let s := storeResult (if verified then 1 else 4) (onlyOne src 0x1F20 1 v s)
      modDict (fun d => if toB then { d with imageB := image } else { d with imageA := image }) s

/-- DICTIONARY_ERASE: both regions hold no valid image. -/
def eraseImages (s : State) : State := storeResult 1 (modDict (fun d => { d with imageA := none, imageB := none }) s)

/-! ### The write of an entry -/

/-- An entry of a port's block. -/
def writePort (src : Route) (p : PortN) (k sub v : Nat) (s : State) : State :=
  if k = 0 ∧ sub = 1 then roleWrite src p v s
  else if k = 0 then mediumWrite src p v s
  else if k = 2 ∧ sub = 5 then alignmentDone src p v s
  else if k = 2 then retrainWrite src p v s
  else if h : 0x11 ≤ sub ∧ sub < 0x19 then bitSlip src p ⟨sub - 0x11, by omega⟩ v s
  else s

/-- Entries 1000h–1FFFh with an operation of their own. -/
def writeManagement (src : Route) (index sub v : Nat) (data : Bytes) (s : State) : State :=
  if index = 0x1100 then (if sub = 2 then nodeIdWrite src v s else eventTimeWrite src sub v s)
  else if index = 0x1F00 then clampDiscard v s
  else if index = 0x1F10 then eventAcknowledge v s
  else if index = 0x1F30 ∧ sub = 1 then snapshotSetWrite src data s
  else if index = 0x1F30 then snapshotTrigger src v s
  else s

/-- Entries 3000h–3FFFh. -/
def writeTopology (src : Route) (index sub v : Nat) (s : State) : State :=
  if index = 0x3000 then
    (if sub = 1 then coordinateWrite src 1 v 254 s else if sub = 2 then coordinateWrite src 2 v 7 s else coordinateCommit src v s)
  else if index = 0x3100 then
    (if sub = 4 then routeArmWrite src v s else if sub = 5 then saltWrite v s else if sub = 6 then ngroupsWrite src v s
     else routeBankCopy src v s)
  else if index = 0x3110 then routeEntryWrite src 1 (sub - 1) v s
  else if index = 0x3120 then routeEntryWrite src 2 (sub - 1) v s
  else if index = 0x3130 then routeEntryWrite src 3 (sub - 1) v s
  else if index = 0x3300 then thresholdWrite src sub v s
  else if index = 0x3301 then tenantShareWrite src (sub - 1) v s
  else if index = 0x3400 then (if sub = 3 then requestTimeoutWrite src v s else exactPoolWrite src v s)
  else if index = 0x3401 then exactRegionWrite src (sub - 1) v s
  else if index = 0x3402 then minWindowWrite src v s
  else if index = 0x3500 then
    (if sub = 1 then directoryWrite src v s else if sub = 2 then recallWrite src v s else forwardTimeoutWrite src v s)
  else if index = 0x3501 then windowEntryWrite src (sub - 1) v s
  else if h : index - 0x3210 < 24 then creditWrite src ⟨index - 0x3210, h⟩ (sub - 1) v s
  else s

/-- Entries 4000h–4FFFh. -/
def writeTime (src : Route) (index sub v : Nat) (data : Bytes) (s : State) : State :=
  if index = 0x4000 then
    (if sub = 1 then timeRoleWrite src v s else if sub = 2 then timeSourceWrite src v s else if sub = 4 then roundLengthWrite src v s
     else roundArmWrite src v s)
  else if index = 0x4100 then (if sub = 3 then isolationWrite src v s else calendarArm src v s)
  else if index = 0x4101 then
    (if sub = 1 then calendarBegin src v s else if sub = 2 then calendarData data s else calendarSeal src v s)
  else if index = 0x4102 then selectorWrite src v s
  else s

/-- Entries 5000h–5FFFh. -/
def writeCompute (src : Route) (index sub v : Nat) (data : Bytes) (s : State) : State :=
  if index = 0x5000 then kernelPoolWrite src v s
  else if index = 0x5002 then tenancyWrite src (sub - 1) v s
  else if index = 0x5004 then (if sub = 4 then kernelLoad src v s else kernelUnload v s)
  else if index = 0x5100 then reservationWrite src v s
  else if index = 0x5101 then gridShapeWrite src (sub - 1) v s
  else if index < 0x5120 then gridMapWrite (index - 0x5104) data s
  else if index < 0x5160 then (if sub = 1 then descriptorWrite (index - 0x5120) data s else windowWrite src (index - 0x5120) v s)
  else if index < 0x5170 then (if sub = 1 then recordWrite (index - 0x5160) data s else shardWrite src (index - 0x5160) v s)
  else if index = 0x5200 then invalidateAll src v s
  else if index = 0x5201 then xlatSelectorWrite src v s
  else s

/-- Entries 6000h–7FFFh. -/
def writeSecurity (src : Route) (index sub v : Nat) (data : Bytes) (s : State) : State :=
  if index = 0x6001 ∨ index = 0x6003 ∨ index = 0x6020 then securityWrite index sub data s
  else if index = 0x6004 then bundleBind src v s
  else if index = 0x6006 then firmwareSegment true true data s
  else if index = 0x6031 then wayWrite src (sub - 1) v s
  else if index = 0x7102 then resetWrite src sub v s
  else if index = 0x7120 then (if sub = 8 then readmitWrite data s else musterArmWrite src sub v s)
  else if index = 0x7200 then alertMaskWrite src v s
  else s

/-- Write an existing entry whose access and length are right. OD 1F20 is written by `dictWrite`. -/
def writeEntry (src : Route) (e : Entry) (index sub : Nat) (data : Bytes) (s : State) : State :=
  let v := leNat data
  match e.clamp with
  | .rule =>
    if index < 0x2000 then writeManagement src index sub v data s
    else if index < 0x3000 then
      (if h : (index - 0x2000) / 16 < 24 then writePort src ⟨(index - 0x2000) / 16, h⟩ ((index - 0x2000) % 16) sub v s else s)
    else if index < 0x4000 then writeTopology src index sub v s
    else if index < 0x5000 then writeTime src index sub v data s
    else if index < 0x6000 then writeCompute src index sub v data s
    else writeSecurity src index sub v data s
  | c =>
    if index = 0x5301 ∨ index = 0x6030 then frozenWrite src index sub v (c.keep v) s
    else match e.ty.size with
      | some n => keepScalar src index sub (8 * n) v (c.keep v) s
      | none => blobSet index sub data s

/-- The longest a BLOB write may be: the snapshot set is cut instead (R407). -/
def tooLong (e : Entry) (n : Nat) : Bool :=
  match e.ty with
  | .blob limit => decide (limit < n) && e.index != 0x1F30
  | .u8 => n != 1
  | .u16 => n != 2
  | .u32 => n != 4
  | .i32 => n != 4
  | .f32 => n != 4
  | .u64 => n != 8
  | .str _ => false

/-- The checks of a write before its entry's own (R385, R386, R388, R398): STATUS and abort code, or the entry. -/
def checkWrite (src : Route) (index sub n : Nat) : Except (Nat × Nat) Entry :=
  match findEntry index sub with
  | none =>
    if indexExists index = false then .error (3, 0x06020000) else if sub = 0 then .error (4, 0x06010002) else .error (3, 0x06090011)
  | some e =>
    if e.acc = .ro then .error (4, 0x06010002)
    else if e.acc = .rws ∧ secure src = false then .error (4, 0x06010000)
    else if tooLong e n then .error (5, 0x06070010)
    else .ok e

/-- A dictionary write to any entry but the store's and actions' (OD 1F20). -/
def writeOne (src : Route) (index sub : Nat) (data : Bytes) (s : State) : State :=
  match checkWrite src index sub data.length with
  | .error (status, abort) => endOp status abort (beginOp s)
  | .ok e => writeEntry src e index sub data (beginOp s)

/-! ### Restore and defaults (R413–R415) -/

/-- A record or entry that is not applied: KIND 3 refused, 4 skipped as unknown. -/
def skipRecord (key kind : Nat) (value : Bytes) (s : State) : State :=
  report .restore (key / 256) (key % 256) 0 kind (leNat (value.take 8)) 0 s

/-- Apply one record as a write from the restore source; RWS entries only where `allowed`. -/
def applyRecord (allowed : Bool) (s : State) (r : ImageRec) : State :=
  match findEntry (r.key / 256) (r.key % 256) with
  | none => skipRecord r.key 4 r.value s
  | some e =>
    if storable e (r.key / 256) (r.key % 256) = false ∨ r.type ≠ e.ty.code ∨ tooLong e r.value.length = true then skipRecord r.key 4 r.value s
    else if e.acc = .rws ∧ allowed = false then skipRecord r.key 3 r.value s
    else
      let t := writeOne .restore (r.key / 256) (r.key % 256) r.value s
      if 2 ≤ t.dict.status then skipRecord r.key 3 r.value s else t

/-- Apply records in their order; the outcome counts every record added to the clamp report. -/
def applyRecords (allowed : Bool) (l : List ImageRec) (s : State) : State :=
  let before := s.dict.clampSeq
  let s := l.foldl (applyRecord allowed) s
  modDict (fun d => { d with
    status := if d.clampSeq = before then 0 else 1, abort := 0, clampCount := d.clampSeq - before }) s

/-- The record that holds an entry's default; a BLOB's is empty. -/
def defaultRecord (key : Nat) : Option ImageRec :=
  match findEntry (key / 256) (key % 256) with
  | none => none
  | some e => some { key := key, type := e.ty.code, value := match e.ty.size with
    | some n => natLe n e.dflt
    | none => [] }

/-- A BLOB entry that already holds nothing keeps it. -/
def holdsNothing (s : State) (r : ImageRec) : Bool := r.value.isEmpty && (readBlob s (r.key / 256) (r.key % 256)).isEmpty

/-- An empty record returns a shard record to its default while the slot is disabled. -/
def clearRecord (allowed : Bool) (s : State) (r : ImageRec) : State :=
  let j := r.key / 256 - 0x5160
  if 0x5160 ≤ r.key / 256 ∧ r.key / 256 < 0x5170 then
    (if (shardAt s j).state = 1 ∨ (shardAt s j).bound = true then skipRecord r.key 3 r.value s
     else setShard j { shardAt s j with record := [], state := 0 } s)
  else applyRecord allowed s r

/-- Every storable entry returns to its default. -/
def applyDefaults (allowed : Bool) (s : State) : State :=
  let before := s.dict.clampSeq
  let l := storableKeys.filterMap defaultRecord
  let s := l.foldl (fun s r => if holdsNothing s r then s else if r.value.isEmpty then clearRecord allowed s r else applyRecord allowed s r) s
  modDict (fun d => { d with
    status := if d.clampSeq = before then 0 else 1, abort := 0, clampCount := d.clampSeq - before }) s

/-- A write of OD 1F20.02: 1 restore, 2 defaults, 3 erase; 0 clamps to 1, a larger value to 3. -/
def storeAction (src : Route) (v : Nat) (s : State) : State :=
  if storeClosed s then storeResult 2 (refuseRule s)
  else
    let before := s.dict.clampSeq
    let a := clampTo 1 3 v
    let s := if a = v then s else clamped src 0x1F20 2 (scalarPlace 8) v a s
    let allowed := src == .secured
    let s := if a = 1 then (match newestImage s with
        | none => storeResult 1 s
        | some (_, i) => storeResult 1 (applyRecords allowed i.records s))
      else if a = 2 then storeResult 1 (applyDefaults allowed s)
      else eraseImages s
    modDict (fun d => { d with status := if d.clampSeq = before then 0 else 1, abort := 0, clampCount := d.clampSeq - before }) s

/-- The write of any entry (R403): checks, then the entry's operation. -/
def dictWrite (src : Route) (index sub : Nat) (data : Bytes) (s : State) : State :=
  if index = 0x1F20 ∧ (sub = 1 ∨ sub = 2) then
    (if data.length ≠ 1 then endOp 5 0x06070010 (beginOp s)
     else if sub = 1 then dictionaryStore src (leNat data) true (beginOp s) else storeAction src (leNat data) (beginOp s))
  else writeOne src index sub data s

/-! ### Reads (R384, R386, R388, R398) -/

/-- The outcome of a read: STATUS and abort code, or the bytes of the entry. -/
def dictRead (s : State) (who : Viewer) (index sub : Nat) : Except (Nat × Nat) Bytes :=
  match findEntry index sub with
  | none =>
    if indexExists index = false then .error (3, 0x06020000)
    else if sub = 0 then .ok (natLe 1 (highestSub index)) else .error (3, 0x06090011)
  | some e =>
    if e.acc = .wo then .error (4, 0x06010001)
    else match e.ty.size with
      | some n => .ok (natLe n (viewScalar s who index sub))
      | none => .ok (viewBlob s who index sub)

/-- The entry is a BLOB. -/
def isBlob (index sub : Nat) : Bool :=
  match findEntry index sub with
  | none => false
  | some e => match e.ty with
    | .blob _ => true
    | .u8 => false
    | .u16 => false
    | .u32 => false
    | .u64 => false
    | .i32 => false
    | .f32 => false
    | .str _ => false

/-! ### Meanings -/

/-- ENTRY_WRITE (R403). -/
def execEntryWrite (src : Route) (index : BitVec 16) (sub : BitVec 8) (data : Bytes) (s : State) : Host.Outcome State Fault Refusal :=
  .next (afterResponse (dictWrite src index.toNat sub.toNat data s))

/-- NODE_ID_WRITE (R392). -/
def execNodeIdWrite (src : Route) (v : BitVec 8) (s : State) : Host.Outcome State Fault Refusal :=
  .next (afterResponse (nodeIdWrite src v.toNat (beginOp s)))

/-- CLAMP_REPORT_DISCARD (R405). -/
def execClampReportDiscard (_src : Route) (v : BitVec 32) (s : State) : Host.Outcome State Fault Refusal :=
  .next (clampDiscard v.toNat (beginOp s))

/-- DICTIONARY_STORE (R412). -/
def execDictionaryStore (src : Route) (v : BitVec 8) (verified : Bool) (s : State) : Host.Outcome State Fault Refusal :=
  .next (dictionaryStore src v.toNat verified (beginOp s))

/-- DICTIONARY_RESTORE (R413, R415): action 1. -/
def execDictionaryRestore (src : Route) (v : BitVec 8) (s : State) : Host.Outcome State Fault Refusal :=
  .next (afterResponse (storeAction src v.toNat (beginOp s)))

/-- DICTIONARY_DEFAULTS (R415): action 2. -/
def execDictionaryDefaults (src : Route) (v : BitVec 8) (s : State) : Host.Outcome State Fault Refusal :=
  .next (afterResponse (storeAction src v.toNat (beginOp s)))

/-- DICTIONARY_ERASE (R415): action 3. -/
def execDictionaryErase (src : Route) (v : BitVec 8) (s : State) : Host.Outcome State Fault Refusal :=
  .next (afterResponse (storeAction src v.toNat (beginOp s)))

/-- SNAPSHOT_TRIGGER (R408). -/
def execSnapshotTrigger (src : Route) (v : BitVec 8) (s : State) : Host.Outcome State Fault Refusal :=
  .next (snapshotTrigger src v.toNat (beginOp s))

/-- SNAPSHOT_PERIOD (R408): while a period is set. -/
def execSnapshotPeriod (s : State) : Host.Outcome State Fault Refusal := .next (if odGet s 0x1F30 3 = 0 then s else armSnapshot s)

/-- TELEMETRY_CAPTURE (R146). -/
def execTelemetryCapture (s : State) : Host.Outcome State Fault Refusal := .next (telemetryCapture s)

/-- SNAPSHOT_RESULT_READY (R408). -/
def execSnapshotResultReady (s : State) : Host.Outcome State Fault Refusal := .next (snapshotReady s)

end Sys2Proof.Machine
end

