-- ==== Sys2Proof/Machine/Mailbox.lean ====
section
/-!
DEFINITION. The dictionary mailbox (R375–R378, R400, R401) and its secured form inside an SPDM session (R425): requests,
segments, snapshots of BLOBs, and responses.
-/

namespace Sys2Proof.Machine

open Sys2Proof

/-- Change the host interface. -/
def modHost (f : HostIf → HostIf) (s : State) : State := { s with host := f s.host }

/-! ### Staging of the two routes (R401) -/

/-- The open segmented write of a route. -/
def stagedOf (src : Route) (s : State) : Option Staged := if src = .secured then s.host.secStaged else s.host.staged

/-- Hold or drop the open segmented write of a route. -/
def setStaged (src : Route) (x : Option Staged) : State → State :=
  modHost (fun h => if src = .secured then { h with secStaged := x } else { h with staged := x })

/-- The BLOB snapshot of a route. -/
def snapOf (src : Route) (s : State) : Option Staged := if src = .secured then s.host.secSnap else s.host.snap

/-- Hold the BLOB snapshot of a route. -/
def setSnap (src : Route) (x : Option Staged) : State → State :=
  modHost (fun h => if src = .secured then { h with secSnap := x } else { h with snap := x })

/-- The entry a segmented write of a route is open on: an image of the management firmware goes straight to flash. -/
def openKey (src : Route) (s : State) : Option Nat :=
  match stagedOf src s with
  | some x => some x.key
  | none => if src = .secured ∧ s.sec.fwWrite.isSome then some (odKey 0x6006 1) else none

/-- Discard the open write of a route. -/
def discardOpen (src : Route) (s : State) : State :=
  let s := setStaged src none s
  if src = .secured then abandonFirmware s else s

/-! ### Requests (R376–R378) -/

/-- What an operation returns beside its outcome: whether the BLOB goes on, and the data. -/
abbrev Reply := Bool × Bytes

/-- STATUS 5: a bad request or segment. -/
def badRequest (s : State) : State := endOp 5 0x05040001 s

/-- Bytes of data in one message. -/
def messageData : Nat := 2032

/-- A key for the snapshot of an entry as a reader sees it: a snapshot serves only its own view. -/
def snapKey (who : Viewer) (index sub : Nat) : Nat :=
  odKey index sub + 2 ^ 24 * (match who with
    | none => 0
    | some t => t + 1)

/-- A read: LEN is 0, no FLAGS beyond FIRST and LAST, and OFFSET only of a BLOB, whose snapshot is taken at OFFSET 0. -/
def readRequest (src : Route) (who : Viewer) (r : MbxRequest) (s : State) : Reply × State :=
  let s := beginOp s
  let index := r.index.toNat
  let sub := r.sub.toNat
  let off := r.offset.toNat
  let key := snapKey who index sub
  let part (b : Bytes) : Reply := (decide (off + messageData < b.length), (b.drop off).take messageData)
  if r.len ≠ 0 ∨ 4 ≤ r.flags.toNat then ((false, []), badRequest s)
  else match dictRead s who index sub with
    | .error (status, abort) => ((false, []), endOp status abort s)
    | .ok b =>
      if isBlob index sub = false then (if off ≠ 0 then ((false, []), badRequest s) else ((false, b), s))
      else if off = 0 then (part b, setSnap src (some { key := key, data := b }) s)
      else match snapOf src s with
        | none => ((false, []), badRequest s)
        | some x => if x.key = key ∧ off ≤ x.data.length then (part x.data, s) else ((false, []), badRequest s)

/-- The bytes a write may collect (R378). -/
def stagingLimit : Nat := 1048576

/-- A write: one segment of an entry, written once at LAST. -/
def writeRequest (src : Route) (r : MbxRequest) (s : State) : State :=
  let s := beginOp s
  let index := r.index.toNat
  let sub := r.sub.toNat
  let key := odKey index sub
  let first := bit r.flags.toNat 0
  let last := bit r.flags.toNat 1
  let d := slice r.data 0 r.len.toNat
  if 4 ≤ r.flags.toNat ∨ messageData < r.len.toNat ∨ r.offset ≠ 0 then badRequest s
  else if (openKey src s).any (fun k => k != key) then badRequest (discardOpen src s)
  else if src = .secured ∧ index = 0x6006 ∧ sub = 1 then firmwareSegment first last d s
  else
    match (if first then some [] else (stagedOf src s).map (fun x => x.data)) with
    | none => badRequest s
    | some b =>
      let b := b ++ d
      if stagingLimit < b.length then endOp 5 0x05040005 (setStaged src none s)
      else if last then dictWrite src index sub b (setStaged src none s)
      else setStaged src (some { key := key, data := b }) s

/-- Carry out a request: OP 1 reads, OP 2 writes, any other is malformed. -/
def carryOut (src : Route) (who : Viewer) (r : MbxRequest) (s : State) : Reply × State :=
  if r.op = 1 then readRequest src who r s
  else if r.op = 2 then ((false, []), writeRequest src r s)
  else ((false, []), badRequest (beginOp s))

/-! ### The BAR0 mailbox -/

/-- The request in a request area, with the REQ_SEQ of the doorbell. -/
def requestOf (area : NMap Byte) (seq : BitVec 32) : MbxRequest :=
  let b := (List.range 2048).map (fun i => mapGetD area i 0)
  { op := BitVec.ofNat 8 (fieldAt b 0 1), sub := BitVec.ofNat 8 (fieldAt b 1 1), index := BitVec.ofNat 16 (fieldAt b 2 2)
    len := BitVec.ofNat 16 (fieldAt b 4 2), flags := BitVec.ofNat 8 (fieldAt b 6 1), offset := BitVec.ofNat 32 (fieldAt b 8 4)
    reqSeq := seq, data := b.drop 16 }

/-- MAILBOX_DOORBELL (R377): while READY and not busy the request area is copied and the response reads VALID 0. -/
def mailboxDoorbell (v : BitVec 32) (s : State) : State :=
  if s.host.busy = true ∨ s.host.ready = false then countIgnored s
  else modHost (fun h => { h with
    busy := true, running := some (requestOf h.reqArea v), rsp := { h.rsp with valid := false } }) s

/-- The running request has been carried out: its response is replaced whole, unless a function reset discarded it. -/
def answerMailbox (r : MbxRequest) (x : Reply × State) : State :=
  let rsp := outcome x.2 r.reqSeq.toNat x.1.1 x.1.2
  let old := x.2.host.discard
  let s := modHost (fun h => { h with
    busy := false, running := none, discard := false, rsp := if h.discard then h.rsp else rsp }) x.2
  afterResponse (if old then s else raiseCause 0 s)

/-- The mailbox carries out its running request where that is of the kind `f` accepts. -/
def serveMailbox (f : MbxRequest → Bool) (s : State) : State :=
  match s.host.running with
  | none => s
  | some r => if f r then answerMailbox r (carryOut .mailbox none r s) else s

/-! ### Secured requests (R425) -/

/-- VENDOR_DEFINED_REQUEST: an operator writes as the secured route and reads everything; a tenant reads its own view. -/
def securedRequest (id : Nat) (r : MbxRequest) (s : State) : State :=
  inSession id (fun x s =>
    let who : Viewer := match x.role with
      | .operator => none
      | .tenant t => some t
    let y : Reply × State :=
      if r.op = 2 then
        (if who.isSome then ((false, []), denyTenant (beginOp s))
         else
          let y := carryOut .secured who r s
          (y.1, bump 0x6000 0x14 y.2))
      else carryOut .secured who r s
    afterResponse (vendorResponse (outcome y.2 r.reqSeq.toNat y.1.1 y.1.2) y.2)) s

/-! ### Meanings -/

/-- MAILBOX_DOORBELL (R377). -/
def execMailboxDoorbell (v : BitVec 32) (s : State) : Host.Outcome State Fault Refusal := .next (barWrite (mailboxDoorbell v) s)

/-- MAILBOX_READ (R376, R378): the running request, where it is no write. -/
def execMailboxRead (s : State) : Host.Outcome State Fault Refusal := .next (serveMailbox (fun r => r.op != 2) s)

/-- MAILBOX_SEGMENT_WRITE (R378): the running request, where it is a write. -/
def execMailboxSegmentWrite (s : State) : Host.Outcome State Fault Refusal := .next (serveMailbox (fun r => r.op == 2) s)

/-- VENDOR_DEFINED_REQUEST (R425). -/
def execVendorDefinedRequest (session : Nat) (req : MbxRequest) (s : State) : Host.Outcome State Fault Refusal :=
  .next (withIdentity (securedRequest session req) s)

end Sys2Proof.Machine
end

