-- ==== Sys2Proof/Machine/CanNode.lean ====
section
/-!
DEFINITION. The CAN FD node (R391–R397) and the boot of the management core (R414, R421, R461): USDO transfers, NMT,
heartbeat, TPDOs, bus-off, and what a boot restores and starts.
-/

namespace Sys2Proof.Machine

open Sys2Proof

/-- Change the CAN node. -/
def modCan (f : Can → Can) (s : State) : State := { s with can := f s.can }

/-- Send one frame. -/
def sendFrame (ident : Nat) (data : Bytes) (s : State) : State := emit (.can ident data) (bump 0x1100 0x11 s)

/-! ### USDO (R394, R395) -/

/-- A USDO transfer reaches the node while it is on the bus, in pre-operational or operational; its frame is counted. -/
def usdoRequest (f : State → Bytes × State) (s : State) : State :=
  if canSpeaks s then
    let r := f (bump 0x1100 0x10 s)
    let s := r.2
    let s := if s.dict.abort = 0 then bump 0x1100 0x14 s else bump 0x1100 0x15 s
    afterResponse (emit (.usdo s.dict.status s.dict.abort (if s.dict.abort = 0 then r.1 else [])) (bump 0x1100 0x11 s))
  else s

/-- A whole download: staged in at most 1 MiB, then written once. -/
def usdoDownload (index sub : Nat) (b : Bytes) : State → State :=
  usdoRequest (fun s => ([], if stagingLimit < b.length then endOp 5 0x05040005 (beginOp s) else dictWrite .can index sub b s))

/-- A whole upload. -/
def usdoUpload (index sub : Nat) : State → State :=
  usdoRequest (fun s =>
    let s := beginOp s
    match dictRead s none index sub with
    | .ok b => (b, s)
    | .error (status, abort) => ([], endOp status abort s))

/-- No segment for a second: the transfer is aborted. -/
def usdoTimeout (s : State) : State :=
  if canSpeaks s then emit (.usdo 0 0x05040000 []) (bump 0x1100 0x11 (bump 0x1100 0x15 s)) else s

/-! ### NMT (R394) -/

/-- An NMT command reaches the node: it is for every node or for this one. -/
def nmtCommand (node : Nat) (f : State → State) (s : State) : State :=
  if s.can.node ≠ 0 ∧ s.can.nmt ≠ 0 ∧ (node = 0 ∨ node = s.can.node) then f (bump 0x1100 0x10 s) else s

/-- Enter an NMT state. -/
def nmtEnter (n : Nat) : State → State := modCan (fun c => { c with nmt := n })

/-- The state after a boot-up message (OD 1100.05). -/
def nmtAfterBoot (s : State) : Nat := if odGet s 0x1100 5 = 1 then 5 else 0x7F

/-- The boot-up message, and the state that OD 1100.05 names. -/
def nmtBoot (s : State) : State := nmtEnter (nmtAfterBoot s) (bootUp s)

/-- The heartbeat: the NMT state, while a producer time is set and the node has booted. -/
def heartbeat (s : State) : State :=
  if s.can.node = 0 ∨ s.can.nmt = 0 ∨ odGet s 0x1100 1 = 0 then s else sendFrame (0x700 + s.can.node) (natLe 1 s.can.nmt) s

/-! ### TPDOs and bus-off (R392, R397) -/

/-- A TPDO: in operational, with an event time, from the last telemetry capture. -/
def sendTpdo (n : Nat) (s : State) : State :=
  if s.can.node ≠ 0 ∧ s.can.nmt = 5 ∧ odGet s 0x1100 (6 + n) ≠ 0 then
    sendFrame (0x180 + 0x100 * n + s.can.node) (s.can.frames.getD n (tpdoFrame s n)) s
  else s

/-- Bus-off: counted, and reported after the recovery. -/
def busOff (s : State) : State := if s.can.node = 0 then s else emcy 0x8140 0 0 (bump 0x1100 0x13 s)

/-! ### Boot of the management core (R414, R421) -/

/-- The image the boot ROM starts: true for B; none where neither is valid. -/
def bootChoice (s : State) : Option Bool :=
  match s.sec.fwA, s.sec.fwB with
  | none, none => none
  | some _, none => some false
  | none, some _ => some true
  | some a, some b => some (decide (a.version < b.version))

/-- A record of an image as bytes (R410). -/
def recordBytes (r : ImageRec) : Bytes :=
  let b := natLe 2 (r.key / 256) ++ natLe 1 (r.key % 256) ++ natLe 1 r.type ++ natLe 4 r.value.length ++ r.value
  padTo (ceilTo 8 b.length) b

/-- An image as bytes (R410). -/
def imageBytes (i : DictImage) : Bytes :=
  let body := i.records.flatMap recordBytes
  let head := natLe 4 0x54444F47 ++ natLe 1 i.major ++ natLe 1 i.minor ++ natLe 2 0 ++ natLe 4 i.seq ++ natLe 4 (64 + body.length)
    ++ natLe 8 i.ft ++ List.replicate 32 0
  head ++ natLe 8 (crc64 (head ++ body)).toNat ++ body

/-- The restore at a cold reset: the newest valid image, unless its major version differs (R414). -/
def bootRestore (s : State) : State :=
  match newestImage s with
  | none => modDict (fun d => { d with restoredFrom := 0 }) s
  | some (inB, i) =>
    if i.major ≠ 1 then log 0x1003 [i.major] (modDict (fun d => { d with restoredFrom := 3 }) s)
    else
      let s := applyRecords true i.records (modDict (fun d => { d with restoredFrom := if inB then 2 else 1 }) s)
      modSec (fun c => { c with meas := c.meas.set 3 (Config.sha512 (imageBytes i)) }) s

/-- The boot follows a management reset or the return of the auxiliary clock, not a cold reset. -/
def warmBoot (s : State) : Bool := s.pwr.mgmtHeld || s.resets.running.any (fun r => r.domain == 3)

/-- The firmware version that runs. -/
def bootVersion (s : State) : Nat := ((runningFirmware s).map (fun f => f.version)).getD 0

/-- MANAGEMENT_BOOT: firmware is chosen and the dictionary restored at a cold reset; then READY, the boot-up message and
the NMT state, and the end of a management reset. -/
def managementBoot (s : State) : State :=
  if s.pwr.coldHeld = true ∨ s.host.ready = true then s
  else match bootChoice s with
    | none => s
    | some inB =>
      let s := if warmBoot s then s else bootRestore (modSec (fun c => { c with runningB := inB }) s)
      let s := modCan (fun c => { c with node := nodeId s, renamed := false }) s
      let s := modPwr (fun p => { p with mgmtHeld := false }) (modHost (fun h => { h with ready := true }) s)
      let s := log 0x1001 [bootVersion s, s.dict.restoredFrom] (nmtBoot s)
      concludeReset 3 s

/-! ### Meanings -/

/-- USDO_DOWNLOAD (R395). -/
def execUsdoDownload (index : BitVec 16) (sub : BitVec 8) (data : Bytes) (s : State) : Host.Outcome State Fault Refusal :=
  .next (usdoDownload index.toNat sub.toNat data s)

/-- USDO_UPLOAD (R395). -/
def execUsdoUpload (index : BitVec 16) (sub : BitVec 8) (s : State) : Host.Outcome State Fault Refusal :=
  .next (usdoUpload index.toNat sub.toNat s)

/-- USDO_SEGMENT_TIMEOUT (R395). -/
def execUsdoSegmentTimeout (s : State) : Host.Outcome State Fault Refusal := .next (usdoTimeout s)

/-- NMT_START (R394). -/
def execNmtStart (node : BitVec 8) (s : State) : Host.Outcome State Fault Refusal := .next (nmtCommand node.toNat (nmtEnter 5) s)

/-- NMT_STOP (R394). -/
def execNmtStop (node : BitVec 8) (s : State) : Host.Outcome State Fault Refusal := .next (nmtCommand node.toNat (nmtEnter 4) s)

/-- NMT_ENTER_PREOPERATIONAL (R394). -/
def execNmtEnterPreoperational (node : BitVec 8) (s : State) : Host.Outcome State Fault Refusal :=
  .next (nmtCommand node.toNat (nmtEnter 0x7F) s)

/-- NMT_RESET_COMMUNICATION (R394). -/
def execNmtResetCommunication (node : BitVec 8) (s : State) : Host.Outcome State Fault Refusal :=
  .next (nmtCommand node.toNat nmtBoot s)

/-- HEARTBEAT (R394). -/
def execHeartbeat (s : State) : Host.Outcome State Fault Refusal := .next (heartbeat s)

/-- TPDO (R397). -/
def execTpdo (n : Fin 4) (s : State) : Host.Outcome State Fault Refusal := .next (sendTpdo n.val s)

/-- BUS_OFF (R392). -/
def execBusOff (s : State) : Host.Outcome State Fault Refusal := .next (busOff s)

/-- MANAGEMENT_BOOT (R421). -/
def execManagementBoot (s : State) : Host.Outcome State Fault Refusal := .next (managementBoot s)

end Sys2Proof.Machine
end

