-- ==== Sys2Proof/Machine/Control.lean ====
section
/-!
DEFINITION. Control instructions of a stream (class 8, R263, R264).
-/

namespace Sys2Proof.Machine

open Sys2Proof

/-- No IMM bit beyond the target. -/
def ctlLegal (f : IFields) : Bool := decide (f.imm.toNat < 2 ^ 22)

/-- The stream goes on at the target. -/
def jump (f : IFields) (x : Stream) : Stream := { x with pc := f.imm.toNat % 2 ^ 22 }

/-- Go to the target or to the next instruction. -/
def branch (w : StreamId) (f : IFields) (k : Nat) (taken : Bool) (s : State) : State :=
  modStream k w.eng.val (fun x => if taken then jump f x else nextPc x) s

/-- Go to the target or on, by a free value. -/
def branchFree (w : StreamId) (f : IFields) (k : Nat) (s : State) : State :=
  branch w f k (nextFree s 1 == 1) (drawn s)

/-- CTL_BR (R264). -/
def execCtlBr (w : StreamId) (f : IFields) (s : State) : Host.Outcome State Fault Refusal :=
  .next (issue w (ctlLegal f) (fun k _ _ s => branch w f k true s) s)

/-- CTL_BRP (R264): taken where the predicate is set in every lane, not taken where it is set in none; for lanes that
differ the spec does not say, and a free value decides (assumption 24). -/
def execCtlBrp (w : StreamId) (f : IFields) (s : State) : Host.Outcome State Fault Refusal :=
  .next (issue w (ctlLegal f) (fun k _ x s =>
    let on := lanesOn x f
    if on.length = 16 then branch w f k true s else if on.isEmpty then branch w f k false s else branchFree w f k s) s)

/-- CTL_CALL (R263, R264): the return stack is 8 deep. -/
def execCtlCall (w : StreamId) (f : IFields) (s : State) : Host.Outcome State Fault Refusal :=
  let x := streamOf (ctxAt s (ctxKey w.core w.slot)) w.eng.val
  .next (issue w (ctlLegal f && decide (x.ret.length < 8)) (fun k _ _ s =>
    modStream k w.eng.val (fun x => jump f { x with ret := (x.pc + 1) :: x.ret }) s) s)

/-- CTL_RET (R264): with an empty stack the spec names no place to go on, which is then a free value (assumption 25). -/
def execCtlRet (w : StreamId) (f : IFields) (s : State) : Host.Outcome State Fault Refusal :=
  .next (issue w (ctlLegal f) (fun k _ x s =>
    match x.ret with
    | p :: r => modStream k w.eng.val (fun x => { x with pc := p, ret := r }) s
    | [] =>
      let p := nextFree s 22
      modStream k w.eng.val (fun x => { x with pc := p }) (drawn s)) s)

/-- CTL_LOOP (R264): the spec names the target and gives neither count nor condition, so a free value decides whether the
stream goes to the target (assumption 26). -/
def execCtlLoop (w : StreamId) (f : IFields) (s : State) : Host.Outcome State Fault Refusal :=
  .next (issue w (ctlLegal f) (fun k _ _ s => branchFree w f k s) s)

/-- CTL_END (R258): the stream has ended its part of the command. -/
def execCtlEnd (w : StreamId) (f : IFields) (s : State) : Host.Outcome State Fault Refusal :=
  .next (issue w (ctlLegal f) (fun k _ _ s => modStream k w.eng.val (fun x => { x with live := false }) s) s)

/-- CTL_NOP (R264). -/
def execCtlNop (w : StreamId) (f : IFields) (s : State) : Host.Outcome State Fault Refusal :=
  .next (issue w (ctlLegal f) (fun k _ _ s => modStream k w.eng.val nextPc s) s)

end Sys2Proof.Machine
end

