-- ==== Sys2Proof/Machine/HostFunction.lean ====
section
/-!
DEFINITION. The PCI Express function (R368–R374, R379–R383): BAR0 registers, the MSI-X table, the configuration registers
of its capabilities, resets of the function, power states, and DOE Discovery.
-/

namespace Sys2Proof.Machine

open Sys2Proof

/-! ### Register values (R373, R374, R379) -/

/-- HST_STATUS (R374). -/
def hostStatus (s : State) : Nat :=
  flag s.host.busy 15 + flag (decide (0 < established s)) 14 + flag (assigned s) 13 + flag (isolated s) 12
    + readScalar s 0x4000 0x20 % 8 * 256 + memCode s.mem.state * 16 + flag s.host.ready 0

/-- The half of a 64-bit register at a double word: 0 the lower. -/
def half (v upper : Nat) : Nat := bits v (32 * upper) 32

/-- A CMP_CTX register (R379). -/
def readCtxRegister (s : State) (k o : Nat) : Nat :=
  let c := ctxAt s k
  if o < 0x40 then fieldAt c.staging o 4
  else if o = 0x48 then c.prod.toNat
  else if o = 0x4C then c.cons.toNat
  else if o = 0x50 then ctxStatus c
  else if o = 0x58 then half (actionRecord c) 0
  else if o = 0x5C then half (actionRecord c) 1
  else 0

/-- What BAR0 holds for the host at the double word at offset `o` (R372, R373): a read has no side effect. -/
def readRegister (s : State) (o : Nat) : Nat :=
  if o = 0x00 then 0x00410024
  else if o = 0x08 then hostStatus s
  else if o = 0x10 ∨ o = 0x14 then half s.time.ft ((o - 0x10) / 4)
  else if o = 0x20 ∨ o = 0x24 then half s.host.bar2Base.toNat ((o - 0x20) / 4)
  else if o = 0x50 then s.host.ignored
  else if o = 0x100 ∨ o = 0x104 then half s.host.cause.toNat ((o - 0x100) / 4)
  else if o = 0x108 ∨ o = 0x10C then half s.host.enable.toNat ((o - 0x108) / 4)
  else if o = 0x110 ∨ o = 0x114 then half s.host.winIrq.toNat ((o - 0x110) / 4)
  else if 0x1000 ≤ o ∧ o < 0x1800 then leNat ((List.range 4).map (fun i => mapGetD s.host.reqArea (o - 0x1000 + i) 0))
  else if 0x1800 ≤ o ∧ o < 0x2000 then fieldAt (responseBytes s.host.rsp) (o - 0x1800) 4
  else if 0x100000 ≤ o ∧ o < 0x110000 then readCtxRegister s ((o - 0x100000) / 256) (o % 256)
  else if 0x200000 ≤ o ∧ o < 0x201000 then fieldAt (resultRecord (winAt s ((o - 0x200000) / 64))) (o % 64) 4
  else 0

/-! ### Writes of a double word -/

/-- A double word of a write: four bytes, each enabled or not. -/
abbrev Dword := List (Option Byte)

/-- The enabled bytes over an old value. -/
def mergeDword (old : Nat) (b : Dword) : Nat :=
  leNat ((List.range 4).map (fun i => (b.getD i none).getD (BitVec.ofNat 8 (old / 256 ^ i))))

/-- Every byte is enabled. -/
def wholeDword (b : Dword) : Bool := (List.range 4).all (fun i => (b.getD i none).isSome)

/-- The enabled bytes over one half of a 64-bit register. -/
def mergeHalf (old : BitVec 64) (upper : Nat) (b : Dword) : BitVec 64 :=
  let v := old.toNat
  BitVec.ofNat 64 (if upper = 0 then half v 1 * 2 ^ 32 + mergeDword (half v 0) b else mergeDword (half v 1) b * 2 ^ 32 + half v 0)

/-- The bytes of a write at `off` that fall into the double word at `o`. -/
def dwordAt (off : Nat) (data : List (Option Byte)) (o : Nat) : Dword :=
  (List.range 4).map (fun i => if off ≤ o + i then (data[o + i - off]?).join else none)

/-- A write of a WO register: ignored and counted where it is partial (R372). -/
def whole (b : Dword) (f : Nat → State → State) (s : State) : State := if wholeDword b then f (mergeDword 0 b) s else countIgnored s

/-- The bytes that stay enabled, the others as 0. -/
def enabledOnly (b : Dword) : Nat := mergeDword 0 b

/-! ### BAR0 (R372–R374, R379–R382) -/

/-- HST_RESET_REQ: the key and warm device reset, or nothing. -/
def resetRequest (v : Nat) (s : State) : State :=
  if v = 0x57540002 then requestReset { domain := 2, target := 0, cause := 1 } s else countIgnored s

/-- IRQ_CAUSE_CLEAR: bits written 1 clear. -/
def clearCauses (v : BitVec 64) : State → State := modHost (fun h => { h with cause := h.cause &&& ~~~v })

/-- HST_BAR2_BASE keeps bits [47:12]. -/
def keepBase (v : BitVec 64) : BitVec 64 := v &&& 0x0000FFFFFFFFF000#64

/-- Bytes of a request area. -/
def setArea (area : NMap Byte) (o : Nat) (b : Dword) : NMap Byte :=
  (List.range 4).foldl (fun m i => match b.getD i none with
    | some x => mapSet m (o + i) x
    | none => m) area

/-- A write of a CMP_CTX register. -/
def writeCtxRegister (k o : Nat) (b : Dword) (s : State) : State :=
  if o < 0x40 then modCtx k (fun c => { c with staging := splice c.staging o (natLe 4 (mergeDword (fieldAt c.staging o 4) b)) }) s
  else if o = 0x40 then whole b (fun v => contextAction k v) s
  else if o = 0x48 then producerWrite k (BitVec.ofNat 32 (mergeDword (ctxAt s k).prod.toNat b)) s
  else s

/-- A write of a BAR0 double word with at least one byte enabled; a read-only or unnamed one is ignored. -/
def writeBar0 (o : Nat) (b : Dword) (s : State) : State :=
  if o = 0x20 ∨ o = 0x24 then modHost (fun h => { h with bar2Base := keepBase (mergeHalf h.bar2Base ((o - 0x20) / 4) b) }) s
  else if o = 0x40 then whole b (fun v => mailboxDoorbell (BitVec.ofNat 32 v)) s
  else if o = 0x48 then whole b resetRequest s
  else if o = 0x100 then clearCauses (BitVec.ofNat 64 (enabledOnly b)) s
  else if o = 0x104 then clearCauses (BitVec.ofNat 64 (enabledOnly b * 2 ^ 32)) s
  else if o = 0x108 ∨ o = 0x10C then modHost (fun h => { h with enable := mergeHalf h.enable ((o - 0x108) / 4) b }) s
  else if o = 0x110 ∨ o = 0x114 then modHost (fun h => { h with winIrq := mergeHalf h.winIrq ((o - 0x110) / 4) b }) s
  else if 0x1000 ≤ o ∧ o < 0x1800 then modHost (fun h => { h with reqArea := setArea h.reqArea (o - 0x1000) b }) s
  else if 0x100000 ≤ o ∧ o < 0x110000 then writeCtxRegister ((o - 0x100000) / 256) (o % 256) b s
  else s

/-! ### MSI-X (R369, R382) -/

/-- Pending vectors that are no longer masked are sent. -/
def sendPending (s : State) : State :=
  if !barOpen s || !s.host.msixOn then s
  else
    let go := s.host.msixPending.filter (fun v => !vectorMasked s v)
    go.foldl (fun s v => emit (.msix v) s) (modHost (fun h => { h with msixPending := h.msixPending.filter (fun v => !go.contains v) }) s)

/-- A write of a double word of the MSI-X table in BAR4: 16 bytes a vector; the PBA is read-only. -/
def writeBar4 (o : Nat) (b : Dword) (s : State) : State :=
  if o < 0x8000 then
    let v := o / 16
    let place := 2 ^ (8 * (o % 16))
    let old := mapGetD s.host.vectors v (2 ^ 96)
    let word := old / place % 2 ^ 32
    sendPending (modHost (fun h => { h with vectors := mapSet h.vectors v (old - word * place + mergeDword word b * place) }) s)
  else s

/-! ### Resets and states of the function (R368, R370) -/

/-- The registers of the function that a function reset returns to their reset values. -/
def resetRegisters (h : HostIf) : HostIf where
  linkUp := h.linkUp
  ignored := h.ignored
  cause := h.cause
  winIrq := h.winIrq
  busy := h.busy
  running := h.running
  discard := h.running.isSome
  ready := h.ready

/-- A Function Level Reset, in the order of R370. -/
def functionReset (s : State) : State :=
  let s := (liveSlots s).foldl (fun s e => abortCtx e.1 s) s
  let s := stopPages (invalidateEvery s)
  let s := modXlat (fun x => { x with ats := false, pasidOn := false, pri := false, allocation := 512 }) s
  dropSessions (modHost resetRegisters s)

/-- The power state (R368). -/
def powerState (d3hot : Bool) : State → State := modHost (fun h => { h with d3hot := d3hot })

/-! ### Configuration registers (R340, R369; places by PCI Express) -/

/-- ATS control: bit 15 of the control word. -/
def setAts (on : Bool) : State → State := modXlat (fun x => { x with ats := on })

/-- PRI control: bit 0 enables, bit 1 resets. -/
def setPri (v : Byte) (s : State) : State :=
  let on := v.getLsbD 0
  let s := if s.xlat.pri = true ∧ on = false then stopPages s else s
  let s := modXlat (fun x => { x with pri := on }) s
  if v.getLsbD 1 then modXlat (fun x => { x with stopped := false }) (stopPages s) else s

/-- A byte of the configuration space that no field of the state stands for. -/
def setConfig (o : Nat) (b : Dword) : State → State := modHost (fun h => { h with config := setArea h.config o b })

/-- One enabled byte of a double word. -/
def onByte (b : Dword) (i : Nat) (f : Byte → State → State) (s : State) : State :=
  match b.getD i none with
  | some v => f v s
  | none => s

/-- A write of a double word of the configuration space. -/
def writeConfig (o : Nat) (b : Dword) (s : State) : State :=
  if o = 0x44 then onByte b 0 (fun v => powerState (v.toNat % 4 == 3)) s
  else if o = 0x58 then
    (if (b.getD 1 none).any (fun v => v.getLsbD 7) then functionReset (setConfig o b s) else setConfig o b s)
  else if o = 0xB0 then onByte b 3 (fun v s => sendPending (modHost (fun h => { h with msixOn := v.getLsbD 7, msixMask := v.getLsbD 6 }) s)) s
  else if o = 0x204 then onByte b 3 (fun v => setAts (v.getLsbD 7)) s
  else if o = 0x214 then onByte b 2 (fun v => modXlat (fun x => { x with pasidOn := v.getLsbD 0 })) s
  else if o = 0x224 then onByte b 0 setPri s
  else if o = 0x22C then modXlat (fun x => { x with allocation := mergeDword x.allocation b }) s
  else if o = 0x248 then onByte b 0 (fun v s => if v.getLsbD 0 then modHost (fun h => { h with doeError := false }) s else s) s
  else setConfig o b s

/-! ### REGISTER_WRITE -/

/-- A write of one double word: offsets below 2^32 lie in BAR0, then the configuration space, then BAR4. -/
def writeDword (o : Nat) (b : Dword) (s : State) : State :=
  if b.all (fun x => x.isNone) then s
  else if o < 2 ^ 32 then barWrite (writeBar0 o b) s
  else if o < 2 ^ 33 then (if s.host.linkUp then writeConfig (o - 2 ^ 32) b s else s)
  else barWrite (writeBar4 (o - 2 ^ 33) b) s

/-- A write of any length: its double words in ascending order. -/
def registerWrite (off : Nat) (data : List (Option Byte)) (s : State) : State :=
  (List.range ((off % 4 + data.length + 3) / 4)).foldl (fun s k =>
    let o := off / 4 * 4 + 4 * k
    writeDword o (dwordAt off data o) s) s

/-! ### DOE Discovery (R369) -/

/-- Longest data object, in double words. -/
def doeLimit : Nat := 4096

/-- The discovery response: the vendor, the type at this index, and the next index. Types 0, 1 and 2 are supported. -/
def doeDiscovery (index dwords : Nat) (s : State) : State :=
  if s.host.linkUp = false then s
  else if doeLimit < dwords then modHost (fun h => { h with doeError := true }) s
  else if index ≤ 2 then emit (.doe (natLe 2 1 ++ natLe 1 index ++ natLe 1 (if index = 2 then 0 else index + 1))) s
  else emit (.doe (natLe 4 0xFFFF)) s

/-- The Error bit of the DOE status register. -/
def doeStatus (s : State) : Nat := flag s.host.doeError 2

/-! ### Meanings -/

/-- REGISTER_WRITE (R372). -/
def execRegisterWrite (offset : Nat) (data : List (Option Byte)) (s : State) : Host.Outcome State Fault Refusal :=
  .next (registerWrite offset data s)

/-- IRQ_CAUSE_CLEAR (R382). -/
def execIrqCauseClear (v : BitVec 64) (s : State) : Host.Outcome State Fault Refusal := .next (barWrite (clearCauses v) s)

/-- PERST_DEASSERT (R370): the link comes up after it. -/
def execPerstDeassert (s : State) : Host.Outcome State Fault Refusal :=
  .next (modHost (fun h => { h with linkUp := true }) (functionReset s))

/-- FUNCTION_LEVEL_RESET (R370). -/
def execFunctionLevelReset (s : State) : Host.Outcome State Fault Refusal := .next (functionReset s)

/-- PCIE_REFCLK_LOSS (R491): the link goes down, and nothing else changes. -/
def execPcieRefclkLoss (s : State) : Host.Outcome State Fault Refusal := .next (modHost (fun h => { h with linkUp := false }) s)

/-- POWER_STATE_CHANGE (R368). -/
def execPowerStateChange (d3hot : Bool) (s : State) : Host.Outcome State Fault Refusal := .next (powerState d3hot s)

/-- DOE_DISCOVERY (R369). -/
def execDoeDiscovery (index : BitVec 8) (dwords : Nat) (s : State) : Host.Outcome State Fault Refusal :=
  .next (doeDiscovery index.toNat dwords s)

end Sys2Proof.Machine
end

