-- ==== Sys2Proof/Machine/Dispatch.lean ====
section
/-!
DEFINITION. One arm per command of the GV24: each calls the meaning of that command.
-/

namespace Sys2Proof.Machine

open Sys2Proof

def exec (i : Instr) (s : State) : Host.Outcome State Fault Refusal :=
  match i with
  | .entryWrite src index sub data => Sys2Proof.Machine.execEntryWrite src index sub data s
  | .registerWrite offset data => Sys2Proof.Machine.execRegisterWrite offset data s
  | .roleWrite src port v => Sys2Proof.Machine.execRoleWrite src port v s
  | .mediumWrite src port v => Sys2Proof.Machine.execMediumWrite src port v s
  | .creditWrite src port vc v => Sys2Proof.Machine.execCreditWrite src port vc v s
  | .tenantShareWrite src tenant v => Sys2Proof.Machine.execTenantShareWrite src tenant v s
  | .coordinateCommit src v => Sys2Proof.Machine.execCoordinateCommit src v s
  | .isolationModeWrite src v => Sys2Proof.Machine.execIsolationModeWrite src v s
  | .roundStart => Sys2Proof.Machine.execRoundStart s
  | .timeSetReceive port set arrival damaged => Sys2Proof.Machine.execTimeSetReceive port set arrival damaged s
  | .trimDecision => Sys2Proof.Machine.execTrimDecision s
  | .trimSlot => Sys2Proof.Machine.execTrimSlot s
  | .trimNoticeReceive port low kind comp => Sys2Proof.Machine.execTrimNoticeReceive port low kind comp s
  | .suspectTimeout port => Sys2Proof.Machine.execSuspectTimeout port s
  | .holdoverAllowanceEnd => Sys2Proof.Machine.execHoldoverAllowanceEnd s
  | .roundLengthWrite src v => Sys2Proof.Machine.execRoundLengthWrite src v s
  | .roundArmWrite src v => Sys2Proof.Machine.execRoundArmWrite src v s
  | .roundChange => Sys2Proof.Machine.execRoundChange s
  | .timeRoleWrite src v => Sys2Proof.Machine.execTimeRoleWrite src v s
  | .timeSourceWrite src v => Sys2Proof.Machine.execTimeSourceWrite src v s
  | .beatrefEdge stamp => Sys2Proof.Machine.execBeatrefEdge stamp s
  | .beatrefMissing => Sys2Proof.Machine.execBeatrefMissing s
  | .losAssert port lane => Sys2Proof.Machine.execLosAssert port lane s
  | .losClear port lane => Sys2Proof.Machine.execLosClear port lane s
  | .lolAssert port lane => Sys2Proof.Machine.execLolAssert port lane s
  | .cdrLock port lanes => Sys2Proof.Machine.execCdrLock port lanes s
  | .lockTimeout port => Sys2Proof.Machine.execLockTimeout port s
  | .slipTimeout port => Sys2Proof.Machine.execSlipTimeout port s
  | .slipWindowDone port lane hits => Sys2Proof.Machine.execSlipWindowDone port lane hits s
  | .bitSlip src port lane v => Sys2Proof.Machine.execBitSlip src port lane v s
  | .alignmentDone src port v => Sys2Proof.Machine.execAlignmentDone src port v s
  | .codewordAligned port lanes => Sys2Proof.Machine.execCodewordAligned port lanes s
  | .fecAlignTimeout port => Sys2Proof.Machine.execFecAlignTimeout port s
  | .deskewDone port lanes => Sys2Proof.Machine.execDeskewDone port lanes s
  | .deskewTimeout port => Sys2Proof.Machine.execDeskewTimeout port s
  | .trainingSetReceive port set => Sys2Proof.Machine.execTrainingSetReceive port set s
  | .exchangeTimeout port => Sys2Proof.Machine.execExchangeTimeout port s
  | .activeEntry port => Sys2Proof.Machine.execActiveEntry port s
  | .uncorrectableThreshold port lane => Sys2Proof.Machine.execUncorrectableThreshold port lane s
  | .retrainRequest src port v => Sys2Proof.Machine.execRetrainRequest src port v s
  | .elasticFault port => Sys2Proof.Machine.execElasticFault port s
  | .skipSetReceive port fill => Sys2Proof.Machine.execSkipSetReceive port fill s
  | .holdExpiry port => Sys2Proof.Machine.execHoldExpiry port s
  | .cellReceive port block => Sys2Proof.Machine.execCellReceive port block s
  | .idleSlotReceive port block => Sys2Proof.Machine.execIdleSlotReceive port block s
  | .nakReceive port ack => Sys2Proof.Machine.execNakReceive port ack s
  | .ackTimeout port => Sys2Proof.Machine.execAckTimeout port s
  | .cellArrival input => Sys2Proof.Machine.execCellArrival input s
  | .combineTimeout entry => Sys2Proof.Machine.execCombineTimeout entry s
  | .auctionTick => Sys2Proof.Machine.execAuctionTick s
  | .ledgerFaultLimit => Sys2Proof.Machine.execLedgerFaultLimit s
  | .vc11AgeDrop input output => Sys2Proof.Machine.execVc11AgeDrop input output s
  | .sumpAudit => Sys2Proof.Machine.execSumpAudit s
  | .stallScrub findings => Sys2Proof.Machine.execStallScrub findings s
  | .structureScrub findings => Sys2Proof.Machine.execStructureScrub findings s
  | .idlePortScrub findings => Sys2Proof.Machine.execIdlePortScrub findings s
  | .telemetryCapture => Sys2Proof.Machine.execTelemetryCapture s
  | .routeArmWrite src v => Sys2Proof.Machine.execRouteArmWrite src v s
  | .routeBankSwitch => Sys2Proof.Machine.execRouteBankSwitch s
  | .epochNoticeRepeat port => Sys2Proof.Machine.execEpochNoticeRepeat port s
  | .routeBankDrainEnd => Sys2Proof.Machine.execRouteBankDrainEnd s
  | .routeBankCopy src v => Sys2Proof.Machine.execRouteBankCopy src v s
  | .rtdRouteEntries port cell => Sys2Proof.Machine.execRtdRouteEntries port cell s
  | .epochNoticeReceive cell => Sys2Proof.Machine.execEpochNoticeReceive cell s
  | .timSend port => Sys2Proof.Machine.execTimSend port s
  | .timReceive port cell => Sys2Proof.Machine.execTimReceive port cell s
  | .requestSend cmd => Sys2Proof.Machine.execRequestSend cmd s
  | .ld req => Sys2Proof.Machine.execLd req s
  | .ldv req => Sys2Proof.Machine.execLdv req s
  | .lda req => Sys2Proof.Machine.execLda req s
  | .st req => Sys2Proof.Machine.execSt req s
  | .stm req => Sys2Proof.Machine.execStm req s
  | .stf req => Sys2Proof.Machine.execStf req s
  | .stl req => Sys2Proof.Machine.execStl req s
  | .atIntegerAdd req => Sys2Proof.Machine.execAtIntegerAdd req s
  | .atExactFloatAdd req => Sys2Proof.Machine.execAtExactFloatAdd req s
  | .atMin req => Sys2Proof.Machine.execAtMin req s
  | .atMax req => Sys2Proof.Machine.execAtMax req s
  | .atSwap req => Sys2Proof.Machine.execAtSwap req s
  | .atCompareAndSwap req => Sys2Proof.Machine.execAtCompareAndSwap req s
  | .atAnd req => Sys2Proof.Machine.execAtAnd req s
  | .atOr req => Sys2Proof.Machine.execAtOr req s
  | .atXor req => Sys2Proof.Machine.execAtXor req s
  | .fen req => Sys2Proof.Machine.execFen req s
  | .ackRunSend source => Sys2Proof.Machine.execAckRunSend source s
  | .holdTimeout source => Sys2Proof.Machine.execHoldTimeout source s
  | .responseReceive resp => Sys2Proof.Machine.execResponseReceive resp s
  | .requestTimeout tag => Sys2Proof.Machine.execRequestTimeout tag s
  | .busyResend tag => Sys2Proof.Machine.execBusyResend tag s
  | .refusalFenceSend dest => Sys2Proof.Machine.execRefusalFenceSend dest s
  | .sourceFence id => Sys2Proof.Machine.execSourceFence id s
  | .sourceFenceComplete id => Sys2Proof.Machine.execSourceFenceComplete id s
  | .exactAddRegionWrite src region v => Sys2Proof.Machine.execExactAddRegionWrite src region v s
  | .reduceStore id tenant permC window step offset lines => Sys2Proof.Machine.execReduceStore id tenant permC window step offset lines s
  | .epWindowBind id pasid descriptor resultBase => Sys2Proof.Machine.execEpWindowBind id pasid descriptor resultBase s
  | .epCalendarLoad id round records arm => Sys2Proof.Machine.execEpCalendarLoad id round records arm s
  | .epVc9Slot offset => Sys2Proof.Machine.execEpVc9Slot offset s
  | .epVc10Receive cell => Sys2Proof.Machine.execEpVc10Receive cell s
  | .stepFence id window => Sys2Proof.Machine.execStepFence id window s
  | .epCommit window => Sys2Proof.Machine.execEpCommit window s
  | .fillRspReceive tag status ppage size perms => Sys2Proof.Machine.execFillRspReceive tag status ppage size perms s
  | .fillRetry tag => Sys2Proof.Machine.execFillRetry tag s
  | .invReqReceive tag pasid base pages => Sys2Proof.Machine.execInvReqReceive tag pasid base pages s
  | .invDoneSend tag => Sys2Proof.Machine.execInvDoneSend tag s
  | .directoryAccess => Sys2Proof.Machine.execDirectoryAccess s
  | .snpReceive port cell => Sys2Proof.Machine.execSnpReceive port cell s
  | .snrReceive cell => Sys2Proof.Machine.execSnrReceive cell s
  | .forwardTimeout line => Sys2Proof.Machine.execForwardTimeout line s
  | .probeTimeout tag => Sys2Proof.Machine.execProbeTimeout tag s
  | .lossWalkStep => Sys2Proof.Machine.execLossWalkStep s
  | .directoryEnable src v => Sys2Proof.Machine.execDirectoryEnable src v s
  | .directoryDisable src v => Sys2Proof.Machine.execDirectoryDisable src v s
  | .recall src v => Sys2Proof.Machine.execRecall src v s
  | .calendarBeginLoad src v => Sys2Proof.Machine.execCalendarBeginLoad src v s
  | .calendarDataWrite src data => Sys2Proof.Machine.execCalendarDataWrite src data s
  | .calendarSeal src v => Sys2Proof.Machine.execCalendarSeal src v s
  | .calendarArm src v => Sys2Proof.Machine.execCalendarArm src v s
  | .calendarBankSwitch => Sys2Proof.Machine.execCalendarBankSwitch s
  | .contextCreate core slot => Sys2Proof.Machine.execContextCreate core slot s
  | .contextDestroy core slot => Sys2Proof.Machine.execContextDestroy core slot s
  | .contextRestart core slot => Sys2Proof.Machine.execContextRestart core slot s
  | .contextAbort core slot => Sys2Proof.Machine.execContextAbort core slot s
  | .contextAbortDone core slot => Sys2Proof.Machine.execContextAbortDone core slot s
  | .ringProducerWrite core slot v => Sys2Proof.Machine.execRingProducerWrite core slot v s
  | .ringRun core slot => Sys2Proof.Machine.execRingRun core slot s
  | .ringCopy core slot => Sys2Proof.Machine.execRingCopy core slot s
  | .ringWait core slot => Sys2Proof.Machine.execRingWait core slot s
  | .waitPoll core slot => Sys2Proof.Machine.execWaitPoll core slot s
  | .waitTimeout core slot => Sys2Proof.Machine.execWaitTimeout core slot s
  | .ringNop core slot => Sys2Proof.Machine.execRingNop core slot s
  | .commandEnd core slot => Sys2Proof.Machine.execCommandEnd core slot s
  | .kernelLoad src v => Sys2Proof.Machine.execKernelLoad src v s
  | .kernelLoadDone => Sys2Proof.Machine.execKernelLoadDone s
  | .kernelUnload src v => Sys2Proof.Machine.execKernelUnload src v s
  | .intAdd w f => Sys2Proof.Machine.execIntAdd w f s
  | .intSub w f => Sys2Proof.Machine.execIntSub w f s
  | .intMullo w f => Sys2Proof.Machine.execIntMullo w f s
  | .intAnd w f => Sys2Proof.Machine.execIntAnd w f s
  | .intOr w f => Sys2Proof.Machine.execIntOr w f s
  | .intXor w f => Sys2Proof.Machine.execIntXor w f s
  | .intShl w f => Sys2Proof.Machine.execIntShl w f s
  | .intShr w f => Sys2Proof.Machine.execIntShr w f s
  | .intSar w f => Sys2Proof.Machine.execIntSar w f s
  | .intMin w f => Sys2Proof.Machine.execIntMin w f s
  | .intMax w f => Sys2Proof.Machine.execIntMax w f s
  | .intMov w f => Sys2Proof.Machine.execIntMov w f s
  | .intMovi w f => Sys2Proof.Machine.execIntMovi w f s
  | .cmpEq w f => Sys2Proof.Machine.execCmpEq w f s
  | .cmpNe w f => Sys2Proof.Machine.execCmpNe w f s
  | .cmpLt w f => Sys2Proof.Machine.execCmpLt w f s
  | .cmpLe w f => Sys2Proof.Machine.execCmpLe w f s
  | .cmpSel w f => Sys2Proof.Machine.execCmpSel w f s
  | .cvt w f => Sys2Proof.Machine.execCvt w f s
  | .fma w f => Sys2Proof.Machine.execFma w f s
  | .fmul w f => Sys2Proof.Machine.execFmul w f s
  | .fadd w f => Sys2Proof.Machine.execFadd w f s
  | .fmin w f => Sys2Proof.Machine.execFmin w f s
  | .fmax w f => Sys2Proof.Machine.execFmax w f s
  | .dot8 w f => Sys2Proof.Machine.execDot8 w f s
  | .dot8Mx w op f => Sys2Proof.Machine.execDot8Mx w op f s
  | .accAdd w f => Sys2Proof.Machine.execAccAdd w f s
  | .accZero w f => Sys2Proof.Machine.execAccZero w f s
  | .accRound w f => Sys2Proof.Machine.execAccRound w f s
  | .accLoad w f => Sys2Proof.Machine.execAccLoad w f s
  | .spmLd w f => Sys2Proof.Machine.execSpmLd w f s
  | .spmSt w f => Sys2Proof.Machine.execSpmSt w f s
  | .spmLdb w f => Sys2Proof.Machine.execSpmLdb w f s
  | .spmLdg w f => Sys2Proof.Machine.execSpmLdg w f s
  | .spmStg w f => Sys2Proof.Machine.execSpmStg w f s
  | .memLd w f => Sys2Proof.Machine.execMemLd w f s
  | .memLdg w f => Sys2Proof.Machine.execMemLdg w f s
  | .memLdv w f => Sys2Proof.Machine.execMemLdv w f s
  | .memLda w f => Sys2Proof.Machine.execMemLda w f s
  | .memSt w f => Sys2Proof.Machine.execMemSt w f s
  | .memStg w f => Sys2Proof.Machine.execMemStg w f s
  | .memStv w f => Sys2Proof.Machine.execMemStv w f s
  | .memStl w f => Sys2Proof.Machine.execMemStl w f s
  | .memStf w f => Sys2Proof.Machine.execMemStf w f s
  | .memAt w f => Sys2Proof.Machine.execMemAt w f s
  | .memRel w f => Sys2Proof.Machine.execMemRel w f s
  | .memAcq w f => Sys2Proof.Machine.execMemAcq w f s
  | .cpyCopy w f => Sys2Proof.Machine.execCpyCopy w f s
  | .cpyCwait w f => Sys2Proof.Machine.execCpyCwait w f s
  | .cpyCtest w f => Sys2Proof.Machine.execCpyCtest w f s
  | .copyLine core slot => Sys2Proof.Machine.execCopyLine core slot s
  | .ctlBr w f => Sys2Proof.Machine.execCtlBr w f s
  | .ctlBrp w f => Sys2Proof.Machine.execCtlBrp w f s
  | .ctlCall w f => Sys2Proof.Machine.execCtlCall w f s
  | .ctlRet w f => Sys2Proof.Machine.execCtlRet w f s
  | .ctlLoop w f => Sys2Proof.Machine.execCtlLoop w f s
  | .ctlEnd w f => Sys2Proof.Machine.execCtlEnd w f s
  | .ctlNop w f => Sys2Proof.Machine.execCtlNop w f s
  | .barC w f => Sys2Proof.Machine.execBarC w f s
  | .barG w f => Sys2Proof.Machine.execBarG w f s
  | .atsCompletion pasid vpage result => Sys2Proof.Machine.execAtsCompletion pasid vpage result s
  | .atsCompletionTimeout pasid vpage => Sys2Proof.Machine.execAtsCompletionTimeout pasid vpage s
  | .pageResponse pasid index code => Sys2Proof.Machine.execPageResponse pasid index code s
  | .pageRequestTimeout index => Sys2Proof.Machine.execPageRequestTimeout index s
  | .priReset => Sys2Proof.Machine.execPriReset s
  | .atsEnableClear => Sys2Proof.Machine.execAtsEnableClear s
  | .priEnableClear => Sys2Proof.Machine.execPriEnableClear s
  | .atsInvalidate itag pasid global base log2 => Sys2Proof.Machine.execAtsInvalidate itag pasid global base log2 s
  | .invalidateCompletion itag => Sys2Proof.Machine.execInvalidateCompletion itag s
  | .invalidateAll src v => Sys2Proof.Machine.execInvalidateAll src v s
  | .windowBind src slot v => Sys2Proof.Machine.execWindowBind src slot v s
  | .windowUnbind src slot v => Sys2Proof.Machine.execWindowUnbind src slot v s
  | .serviceCellFormed slot chunk cell => Sys2Proof.Machine.execServiceCellFormed slot chunk cell s
  | .shardUpdate slot chunk => Sys2Proof.Machine.execShardUpdate slot chunk s
  | .commitTick slot => Sys2Proof.Machine.execCommitTick slot s
  | .shardEnable src slot v => Sys2Proof.Machine.execShardEnable src slot v s
  | .shardDisable src slot v => Sys2Proof.Machine.execShardDisable src slot v s
  | .backgroundSlot found => Sys2Proof.Machine.execBackgroundSlot found s
  | .channelRetrain channel ok => Sys2Proof.Machine.execChannelRetrain channel ok s
  | .bar2Read offset len => Sys2Proof.Machine.execBar2Read offset len s
  | .bar2Write offset data => Sys2Proof.Machine.execBar2Write offset data s
  | .perstDeassert => Sys2Proof.Machine.execPerstDeassert s
  | .functionLevelReset => Sys2Proof.Machine.execFunctionLevelReset s
  | .mailboxDoorbell v => Sys2Proof.Machine.execMailboxDoorbell v s
  | .mailboxRead => Sys2Proof.Machine.execMailboxRead s
  | .mailboxSegmentWrite => Sys2Proof.Machine.execMailboxSegmentWrite s
  | .irqCauseClear v => Sys2Proof.Machine.execIrqCauseClear v s
  | .usdoDownload index sub data => Sys2Proof.Machine.execUsdoDownload index sub data s
  | .usdoUpload index sub => Sys2Proof.Machine.execUsdoUpload index sub s
  | .usdoSegmentTimeout => Sys2Proof.Machine.execUsdoSegmentTimeout s
  | .nmtStart node => Sys2Proof.Machine.execNmtStart node s
  | .nmtStop node => Sys2Proof.Machine.execNmtStop node s
  | .nmtEnterPreoperational node => Sys2Proof.Machine.execNmtEnterPreoperational node s
  | .nmtResetCommunication node => Sys2Proof.Machine.execNmtResetCommunication node s
  | .nodeIdWrite src v => Sys2Proof.Machine.execNodeIdWrite src v s
  | .heartbeat => Sys2Proof.Machine.execHeartbeat s
  | .tpdo n => Sys2Proof.Machine.execTpdo n s
  | .busOff => Sys2Proof.Machine.execBusOff s
  | .clampReportDiscard src v => Sys2Proof.Machine.execClampReportDiscard src v s
  | .dictionaryStore src v verified => Sys2Proof.Machine.execDictionaryStore src v verified s
  | .dictionaryRestore src v => Sys2Proof.Machine.execDictionaryRestore src v s
  | .dictionaryDefaults src v => Sys2Proof.Machine.execDictionaryDefaults src v s
  | .dictionaryErase src v => Sys2Proof.Machine.execDictionaryErase src v s
  | .snapshotTrigger src v => Sys2Proof.Machine.execSnapshotTrigger src v s
  | .snapshotPeriod => Sys2Proof.Machine.execSnapshotPeriod s
  | .getVersion => Sys2Proof.Machine.execGetVersion s
  | .getCapabilities => Sys2Proof.Machine.execGetCapabilities s
  | .negotiateAlgorithms request => Sys2Proof.Machine.execNegotiateAlgorithms request s
  | .getDigests => Sys2Proof.Machine.execGetDigests s
  | .getCertificate slot offset len => Sys2Proof.Machine.execGetCertificate slot offset len s
  | .challenge slot nonce => Sys2Proof.Machine.execChallenge slot nonce s
  | .getMeasurements index signed nonce => Sys2Proof.Machine.execGetMeasurements index signed nonce s
  | .keyExchange who exchange => Sys2Proof.Machine.execKeyExchange who exchange s
  | .finish session verified => Sys2Proof.Machine.execFinish session verified s
  | .keyUpdate session op => Sys2Proof.Machine.execKeyUpdate session op s
  | .spdmHeartbeat session => Sys2Proof.Machine.execSpdmHeartbeat session s
  | .endSession session => Sys2Proof.Machine.execEndSession session s
  | .vendorDefinedRequest session req => Sys2Proof.Machine.execVendorDefinedRequest session req s
  | .spdmUnsupportedRequest code => Sys2Proof.Machine.execSpdmUnsupportedRequest code s
  | .bundleBind src v => Sys2Proof.Machine.execBundleBind src v s
  | .bundleBindDone => Sys2Proof.Machine.execBundleBindDone s
  | .firmwareImageWrite session first last segment => Sys2Proof.Machine.execFirmwareImageWrite session first last segment s
  | .keyOffer port msg => Sys2Proof.Machine.execKeyOffer port msg s
  | .keyProof port signature => Sys2Proof.Machine.execKeyProof port signature s
  | .keyStart port n kStart => Sys2Proof.Machine.execKeyStart port n kStart s
  | .keyAck port n kStart => Sys2Proof.Machine.execKeyAck port n kStart s
  | .keyMessageResend port => Sys2Proof.Machine.execKeyMessageResend port s
  | .keyHandshakeRetry port => Sys2Proof.Machine.execKeyHandshakeRetry port s
  | .keyRenewal port => Sys2Proof.Machine.execKeyRenewal port s
  | .keySwitch port => Sys2Proof.Machine.execKeySwitch port s
  | .logFlush => Sys2Proof.Machine.execLogFlush s
  | .eventAcknowledge src v => Sys2Proof.Machine.execEventAcknowledge src v s
  | .lanternSample => Sys2Proof.Machine.execLanternSample s
  | .echoReplay => Sys2Proof.Machine.execEchoReplay s
  | .echoReplayTimeout => Sys2Proof.Machine.execEchoReplayTimeout s
  | .portReset src v => Sys2Proof.Machine.execPortReset src v s
  | .engineReset src v => Sys2Proof.Machine.execEngineReset src v s
  | .coreReset src v => Sys2Proof.Machine.execCoreReset src v s
  | .clusterReset src v => Sys2Proof.Machine.execClusterReset src v s
  | .tenantAbort src v => Sys2Proof.Machine.execTenantAbort src v s
  | .crossbarReset src v => Sys2Proof.Machine.execCrossbarReset src v s
  | .managementReset src v => Sys2Proof.Machine.execManagementReset src v s
  | .watchdogExpiry => Sys2Proof.Machine.execWatchdogExpiry s
  | .warmDeviceReset src v => Sys2Proof.Machine.execWarmDeviceReset src v s
  | .warmResetPortsDown => Sys2Proof.Machine.execWarmResetPortsDown s
  | .coldReset src v => Sys2Proof.Machine.execColdReset src v s
  | .managementBoot => Sys2Proof.Machine.execManagementBoot s
  | .musterCensus => Sys2Proof.Machine.execMusterCensus s
  | .viewOriginate => Sys2Proof.Machine.execViewOriginate s
  | .view port v => Sys2Proof.Machine.execView port v s
  | .fset port epoch bitmap => Sys2Proof.Machine.execFset port epoch bitmap s
  | .loss port epoch coords => Sys2Proof.Machine.execLoss port epoch coords s
  | .musterWindowEnd => Sys2Proof.Machine.execMusterWindowEnd s
  | .musterRecoveryStep => Sys2Proof.Machine.execMusterRecoveryStep s
  | .readmission => Sys2Proof.Machine.execReadmission s
  | .pwrWarnAssert => Sys2Proof.Machine.execPwrWarnAssert s
  | .pwrWarnRelease => Sys2Proof.Machine.execPwrWarnRelease s
  | .powerLoss => Sys2Proof.Machine.execPowerLoss s
  | .resetRelease => Sys2Proof.Machine.execResetRelease s
  | .temperatureSample sensor reading => Sys2Proof.Machine.execTemperatureSample sensor reading s
  | .voltageSample monitor reading => Sys2Proof.Machine.execVoltageSample monitor reading s
  | .opticalEngineRestart => Sys2Proof.Machine.execOpticalEngineRestart s
  | .throttleEvaluation power => Sys2Proof.Machine.execThrottleEvaluation power s
  | .refclkLoss => Sys2Proof.Machine.execRefclkLoss s
  | .refclkRestore => Sys2Proof.Machine.execRefclkRestore s
  | .auxclkLoss => Sys2Proof.Machine.execAuxclkLoss s
  | .jtagBypass => Sys2Proof.Machine.execJtagBypass s
  | .jtagIdcode => Sys2Proof.Machine.execJtagIdcode s
  | .jtagSamplePreload => Sys2Proof.Machine.execJtagSamplePreload s
  | .jtagExtest pins => Sys2Proof.Machine.execJtagExtest pins s
  | .burstSlot results => Sys2Proof.Machine.execBurstSlot results s
  | .warmResetComplete failed => Sys2Proof.Machine.execWarmResetComplete failed s
  | .supplyRestore => Sys2Proof.Machine.execSupplyRestore s
  | .pcieRefclkLoss => Sys2Proof.Machine.execPcieRefclkLoss s
  | .powerStateChange d3hot => Sys2Proof.Machine.execPowerStateChange d3hot s
  | .doeDiscovery index dwords => Sys2Proof.Machine.execDoeDiscovery index dwords s
  | .sessionHeartbeatTimeout session => Sys2Proof.Machine.execSessionHeartbeatTimeout session s
  | .epCalendarSwitch => Sys2Proof.Machine.execEpCalendarSwitch s
  | .laserFault port lane => Sys2Proof.Machine.execLaserFault port lane s
  | .snapshotResultReady => Sys2Proof.Machine.execSnapshotResultReady s

end Sys2Proof.Machine
end

