-- ==== Sys2Proof/Safety.lean ====
section
/-!
DEFINITION. What a safe state and a safe run are: the invariants of the machine that claims name, and runs that never stop.
-/

namespace Sys2Proof.Machine

open Sys2Proof

/-- Keys strictly rising: the canonical form of a sparse table. -/
def keysRise {α : Type} : NMap α → Bool
  | [] => true
  | (k, _) :: r => (match r with
      | [] => true
      | (j, _) :: _ => decide (k < j)) && keysRise r

/-- The attached memory is in canonical form: addresses strictly rising, no zero byte listed. -/
abbrev MemoryOk (s : State) : Prop := Memory.wf s.mem.cells = true

/-- The machine goes on: its next step ends in a next state. -/
def Goes (s : State) : Prop := ∃ t, step s = .next t

/-- The machine after `n` steps; none once it has stopped. -/
def after : Nat → State → Option State
  | 0, s => some s
  | n + 1, s =>
    match step s with
    | .next t => after n t
    | .fault _ => none
    | .refused _ => none

/-- A safe run of `n` steps: no step stops, and the memory stays in canonical form. -/
def SafeRun (n : Nat) (s : State) : Prop := ∃ t, after n s = some t ∧ MemoryOk t

/-! ### Frames -/

/-- The parts of the machine's state. -/
inductive Part where
  | pending | time | ports | sw | routes | bep | ep | grotto | cal | cmp | coll | xlat | mem | dict | host | can | sec | log
  | lantern | muster | pwr | resets | sent | free
  deriving DecidableEq, Repr

/-- A part of `t` is as it is in `s`. -/
def Part.same (s t : State) : Part → Prop
  | .pending => t.pending = s.pending
  | .time => t.time = s.time
  | .ports => t.ports = s.ports
  | .sw => t.sw = s.sw
  | .routes => t.routes = s.routes
  | .bep => t.bep = s.bep
  | .ep => t.ep = s.ep
  | .grotto => t.grotto = s.grotto
  | .cal => t.cal = s.cal
  | .cmp => t.cmp = s.cmp
  | .coll => t.coll = s.coll
  | .xlat => t.xlat = s.xlat
  | .mem => t.mem = s.mem
  | .dict => t.dict = s.dict
  | .host => t.host = s.host
  | .can => t.can = s.can
  | .sec => t.sec = s.sec
  | .log => t.log = s.log
  | .lantern => t.lantern = s.lantern
  | .muster => t.muster = s.muster
  | .pwr => t.pwr = s.pwr
  | .resets => t.resets = s.resets
  | .sent => t.sent = s.sent
  | .free => t.free = s.free

/-- From `s` to `t` nothing has changed beside the parts listed. -/
def Only (l : List Part) (s t : State) : Prop := ∀ p : Part, p ∉ l → p.same s t

/-- What recording an event may change: counters, the log, host causes, the CAN node, the alert and what was sent. -/
def logged : List Part := [.dict, .log, .host, .can, .pwr, .sent]

/-- Every port but `p` is as it was. -/
def OnlyPort (p : PortN) (s t : State) : Prop := ∀ q : PortN, q ≠ p → t.port q = s.port q

/-- Nothing has changed beside port `p` and the parts listed. -/
def AtPort (p : PortN) (l : List Part) (s t : State) : Prop := OnlyPort p s t ∧ Only (Part.ports :: l) s t

/-- Every dictionary value and counter but those listed is as it was. -/
def OnlyEntries (l : List (Nat × Nat)) (s t : State) : Prop := ∀ index sub, sub < 256 → (index, sub) ∉ l → odGet t index sub = odGet s index sub

/-! ### Instructions of a stream -/

/-- The slot of a stream. -/
def slotKey (w : StreamId) : Nat := ctxKey w.core w.slot

/-- The stream that an instruction is issued for. -/
def streamAt (s : State) (w : StreamId) : Stream := streamOf (ctxAt s (slotKey w)) w.eng.val

/-- The stream can issue. -/
def ready (s : State) (w : StreamId) : Bool := canIssue (ctxAt s (slotKey w)) w.eng.val

/-- Of the compute array nothing but the stream has changed. -/
def StreamOnly (w : StreamId) (s t : State) : Prop := t.cmp = (modStream (slotKey w) w.eng.val (fun _ => streamAt t w) s).cmp

/-- The stream has gone on to its next instruction with the vector registers `v`, scalars, predicates and return stack as before. -/
def GoneOn (w : StreamId) (s t : State) : Prop :=
  streamAt t w = { streamAt s w with pc := (streamAt s w).pc + 1, v := (streamAt t w).v, s := (streamAt t w).s, p := (streamAt t w).p }

/-- Registers: the active lanes of v[D] hold `g`, every other lane and register what it held. -/
def LanesHold (w : StreamId) (f : IFields) (g : Fin 16 → BitVec 32) (s t : State) : Prop :=
  ∀ (r : BitVec 5) (i : Fin 16), vLane (streamAt t w) r i.val =
    if r = f.d ∧ laneOn (streamAt s w) f i.val = true then (g i).toNat else vLane (streamAt s w) r i.val

/-- The active lanes of v[D] hold `g`; every other register is as it was; nothing else has changed. -/
def LanesWritten (w : StreamId) (f : IFields) (g : Fin 16 → BitVec 32) (s t : State) : Prop :=
  StreamOnly w s t ∧ Only [.cmp, .lantern] s t ∧ GoneOn w s t ∧ (streamAt t w).s = (streamAt s w).s ∧ (streamAt t w).p = (streamAt s w).p ∧
  LanesHold w f g s t

/-- The active lanes of p[D] hold `g`, p0 apart; every other bit is as it was; nothing else has changed. -/
def BitsWritten (w : StreamId) (f : IFields) (g : Fin 16 → Bool) (s t : State) : Prop :=
  StreamOnly w s t ∧ Only [.cmp, .lantern] s t ∧ GoneOn w s t ∧ (streamAt t w).v = (streamAt s w).v ∧ (streamAt t w).s = (streamAt s w).s ∧
  ∀ (q : Fin 8) (i : Fin 16), (pReg (streamAt t w) q.val).getLsbD i.val =
    if q.val = f.d.toNat ∧ q.val ≠ 0 ∧ laneOn (streamAt s w) f i.val = true then g i else (pReg (streamAt s w) q.val).getLsbD i.val

/-- The context of a stream is FAULTED with a code; no register, accumulator, scratchpad or memory byte has changed. -/
def FaultsWith (w : StreamId) (code : Nat) (s t : State) : Prop :=
  (ctxAt t (slotKey w)).state = .faulted ∧ (ctxAt t (slotKey w)).fault = code ∧ (ctxAt t (slotKey w)).streams = (ctxAt s (slotKey w)).streams ∧
  t.cmp.accs = s.cmp.accs ∧ t.cmp.sp = s.cmp.sp ∧ t.mem = s.mem

/-- The stream has gone on to its next instruction with every register as it was. -/
def Passed (w : StreamId) (s t : State) : Prop := streamAt t w = { streamAt s w with pc := (streamAt s w).pc + 1 }

/-- The translated lines of an access of a stream, and the machine after their translation. -/
def placesOf (w : StreamId) (f : IFields) (need : Nat) (addrs : List (Nat × Nat)) (s : State) : Option (List (Nat × Nat)) × State :=
  locate w (slotKey w) (memSpace f) need (linesOf (addrs.map (fun e => e.2))) (progress (.stream (slotKey w) w.eng.val) s)

/-! ### What a command may change -/

/-- Every part but the queue and the count of free values. -/
def allParts : List Part :=
  [.time, .ports, .sw, .routes, .bep, .ep, .grotto, .cal, .cmp, .coll, .xlat, .mem, .dict, .host, .can, .sec, .log, .lantern, .muster,
    .pwr, .resets, .sent]

/-- The parts that a command may change, beside the queue: every other part is as it was. -/
def partsOf : Instr → List Part
  | .entryWrite _ _ _ _ | .registerWrite _ _ | .ledgerFaultLimit | .contextAbortDone _ _ | .mailboxRead
    | .mailboxSegmentWrite | .usdoDownload _ _ _ | .dictionaryRestore _ _ | .dictionaryDefaults _ _
    | .dictionaryErase _ _ | .vendorDefinedRequest _ _ | .portReset _ _ | .engineReset _ _ | .coreReset _ _
    | .clusterReset _ _ | .tenantAbort _ _ | .crossbarReset _ _ | .managementReset _ _ | .watchdogExpiry
    | .warmDeviceReset _ _ | .coldReset _ _ | .managementBoot | .powerLoss | .resetRelease | .voltageSample _ _
    | .refclkLoss | .refclkRestore | .warmResetComplete _ => allParts
  | .roleWrite _ _ _ | .holdExpiry _ | .warmResetPortsDown => [.ports, .sw, .bep, .ep, .grotto, .coll, .mem, .lantern, .muster] ++ logged
  | .mediumWrite _ _ _ | .creditWrite _ _ _ _ | .tenantShareWrite _ _ _ | .isolationModeWrite _ _
    | .roundLengthWrite _ _ | .dictionaryStore _ _ _ | .snapshotTrigger _ _ => [.dict, .host, .sent]
  | .coordinateCommit _ _ | .bitSlip _ _ _ _ | .alignmentDone _ _ _ | .retrainRequest _ _ _ | .elasticFault _
    | .skipSetReceive _ _ => [.ports, .dict, .host, .sent]
  | .roundStart => [.time, .ports, .cmp, .coll, .free] ++ logged
  | .timeSetReceive _ _ _ _ | .trimNoticeReceive _ _ _ _ | .suspectTimeout _ | .beatrefEdge _ | .losAssert _ _
    | .lolAssert _ _ => [.time, .ports] ++ logged
  | .trimDecision => [.time, .sent]
  | .trimSlot | .beatrefMissing | .throttleEvaluation _ => [.time] ++ logged
  | .holdoverAllowanceEnd => [.time]
  | .roundArmWrite _ _ | .timeRoleWrite _ _ | .timeSourceWrite _ _ => [.time, .dict, .host, .sent]
  | .roundChange => [.time, .dict]
  | .losClear _ _ | .lockTimeout _ | .slipTimeout _ | .codewordAligned _ _ | .fecAlignTimeout _ | .deskewDone _ _
    | .deskewTimeout _ | .exchangeTimeout _ => [.ports, .host, .sent]
  | .cdrLock _ _ | .uncorrectableThreshold _ _ | .nakReceive _ _ | .ackTimeout _ | .keyProof _ _ | .laserFault _ _ => [.ports] ++ logged
  | .slipWindowDone _ _ _ | .keyAck _ _ _ => [.ports]
  | .trainingSetReceive _ _ => [.ports, .sw, .bep, .ep, .grotto, .mem, .lantern, .muster] ++ logged
  | .activeEntry _ | .keySwitch _ => [.time, .ports, .sw, .free] ++ logged
  | .cellReceive _ _ => [.ports, .sw, .lantern] ++ logged
  | .idleSlotReceive _ _ => [.ports, .lantern] ++ logged
  | .cellArrival _ => [.ports, .sw, .bep, .grotto, .cal, .coll] ++ logged
  | .combineTimeout _ => [.sw, .coll, .dict]
  | .auctionTick => [.time, .ports, .sw, .bep, .grotto, .cal, .cmp, .coll, .lantern] ++ logged
  | .vc11AgeDrop _ _ | .sumpAudit => [.time, .ports, .sw] ++ logged
  | .stallScrub _ | .structureScrub _ | .idlePortScrub _ => [.time, .ports, .sw, .routes, .bep, .ep, .grotto, .cal, .cmp, .xlat, .mem, .lantern, .muster, .free] ++ logged
  | .telemetryCapture => [.time, .dict, .can]
  | .routeArmWrite _ _ | .routeBankCopy _ _ => [.routes, .dict, .host, .sent]
  | .routeBankSwitch => [.time, .ports, .routes, .bep, .dict, .host, .sent]
  | .epochNoticeRepeat _ | .timSend _ => [.ports, .dict, .sent]
  | .routeBankDrainEnd => [.time, .ports, .routes, .host, .sent]
  | .rtdRouteEntries _ _ => [.ports, .routes, .dict, .host, .sent]
  | .epochNoticeReceive _ => [.bep, .ep, .lantern]
  | .timReceive _ _ => [.ports, .dict]
  | .requestSend _ | .fillRspReceive _ _ _ _ _ => [.bep, .ep, .grotto, .cmp] ++ logged
  | .ld _ | .ldv _ | .lda _ | .st _ | .stm _ | .stf _ | .stl _ | .atIntegerAdd _ | .atExactFloatAdd _ | .atMin _
    | .atMax _ | .atSwap _ | .atCompareAndSwap _ | .atAnd _ | .atOr _ | .atXor _ | .fen _ => [.bep, .mem, .lantern] ++ logged
  | .ackRunSend _ | .holdTimeout _ => [.bep, .dict]
  | .responseReceive _ => [.sw, .bep, .ep, .grotto, .cmp, .mem, .lantern] ++ logged
  | .requestTimeout _ => [.sw, .bep, .ep, .grotto, .cmp, .lantern] ++ logged
  | .busyResend _ => [.bep, .ep]
  | .refusalFenceSend _ | .sourceFence _ => [.bep, .ep, .grotto, .dict]
  | .sourceFenceComplete _ | .epWindowBind _ _ _ _ | .epCalendarLoad _ _ _ _ | .stepFence _ _ | .invDoneSend _ => [.ep, .sent]
  | .exactAddRegionWrite _ _ _ => [.bep, .dict, .host, .sent]
  | .reduceStore _ _ _ _ _ _ _ => [.ep, .cmp, .dict, .sent]
  | .epVc9Slot _ => [.time, .ep, .cmp, .dict, .host, .sent]
  | .epVc10Receive _ => [.ep, .dict, .host, .sent]
  | .epCommit _ => [.time, .bep, .ep, .grotto, .cmp] ++ logged
  | .fillRetry _ | .getVersion | .getCapabilities | .negotiateAlgorithms _ | .getDigests | .getCertificate _ _ _
    | .challenge _ _ | .getMeasurements _ _ _ | .spdmHeartbeat _ | .spdmUnsupportedRequest _ => [.sent]
  | .invReqReceive _ _ _ _ => [.ep]
  | .directoryAccess | .snrReceive _ | .probeTimeout _ | .lossWalkStep | .recall _ _ => [.ports, .sw, .bep, .ep, .grotto, .mem, .lantern] ++ logged
  | .snpReceive _ _ => [.grotto, .sent]
  | .forwardTimeout _ => [.grotto, .dict, .lantern]
  | .directoryEnable _ _ | .directoryDisable _ _ | .waitPoll _ _ | .atsInvalidate _ _ _ _ _ | .invalidateCompletion _
    | .invalidateAll _ _ => [.bep, .ep, .grotto, .cmp, .xlat, .mem] ++ logged
  | .calendarBeginLoad _ _ | .calendarArm _ _ => [.cal, .dict, .host, .sent]
  | .calendarDataWrite _ _ => [.cal, .dict]
  | .calendarSeal _ _ => [.bep, .ep, .cal, .dict, .host, .sent]
  | .calendarBankSwitch => [.time, .cal] ++ logged
  | .contextCreate _ _ | .contextDestroy _ _ | .contextRestart _ _ | .contextAbort _ _ => [.cmp] ++ logged
  | .ringProducerWrite _ _ _ => [.cmp, .host]
  | .ringRun _ _ | .ringCopy _ _ | .ringWait _ _ | .ringNop _ _ => [.cmp, .xlat, .mem] ++ logged
  | .waitTimeout _ _ => [.cmp]
  | .commandEnd _ _ | .memLd _ _ | .memLdg _ _ | .memLdv _ _ | .memLda _ _ | .memSt _ _ | .memStg _ _ | .memStv _ _
    | .memStl _ _ | .memStf _ _ | .memAt _ _ | .copyLine _ _ => [.bep, .ep, .grotto, .cmp, .xlat, .mem, .lantern] ++ logged
  | .kernelLoad _ _ => [.cmp, .dict, .host, .sent]
  | .kernelLoadDone => [.bep, .cmp, .mem, .host, .sec, .sent]
  | .kernelUnload _ _ => [.cmp, .dict]
  | .intAdd _ _ | .intSub _ _ | .intMullo _ _ | .intAnd _ _ | .intOr _ _ | .intXor _ _ | .intShl _ _ | .intShr _ _
    | .intSar _ _ | .intMin _ _ | .intMax _ _ | .intMov _ _ | .cmpEq _ _ | .cmpNe _ _ | .cmpLt _ _ | .cmpLe _ _
    | .cmpSel _ _ | .cvt _ _ | .fma _ _ | .fmul _ _ | .fadd _ _ | .fmin _ _ | .fmax _ _ | .dot8 _ _ | .dot8Mx _ _ _
    | .accAdd _ _ | .accZero _ _ | .accRound _ _ | .accLoad _ _ | .spmLd _ _ | .spmSt _ _ | .spmLdb _ _ | .spmLdg _ _
    | .spmStg _ _ | .cpyCopy _ _ | .cpyCwait _ _ | .cpyCtest _ _ | .ctlBr _ _ | .ctlCall _ _ | .ctlEnd _ _
    | .ctlNop _ _ | .barC _ _ | .echoReplay | .echoReplayTimeout => [.cmp, .lantern] ++ logged
  | .intMovi _ _ | .ctlBrp _ _ | .ctlRet _ _ | .ctlLoop _ _ => [.cmp, .lantern, .free] ++ logged
  | .memRel _ _ | .memAcq _ _ | .barG _ _ => [.bep, .ep, .grotto, .cmp, .mem, .lantern] ++ logged
  | .atsCompletion _ _ _ | .atsCompletionTimeout _ _ | .pageResponse _ _ _ | .pageRequestTimeout _ | .priReset
    | .priEnableClear => [.cmp, .xlat] ++ logged
  | .atsEnableClear => [.xlat]
  | .windowBind _ _ _ | .windowUnbind _ _ _ => [.cmp, .coll, .dict, .host, .sent]
  | .serviceCellFormed _ _ _ => [.coll, .dict]
  | .shardUpdate _ _ => [.bep, .coll, .mem, .free] ++ logged
  | .commitTick _ => [.time, .bep, .cmp, .coll, .mem] ++ logged
  | .shardEnable _ _ _ | .shardDisable _ _ _ => [.bep, .ep, .grotto, .cmp, .coll, .xlat, .mem] ++ logged
  | .backgroundSlot _ | .burstSlot _ => [.time, .mem] ++ logged
  | .channelRetrain _ _ => [.mem] ++ logged
  | .bar2Read _ _ => [.mem, .dict, .sent]
  | .bar2Write _ _ => [.bep, .mem] ++ logged
  | .perstDeassert | .functionLevelReset => [.bep, .ep, .grotto, .cmp, .xlat, .mem, .sec] ++ logged
  | .mailboxDoorbell _ | .irqCauseClear _ | .pcieRefclkLoss | .powerStateChange _ => [.host]
  | .usdoUpload _ _ | .nmtResetCommunication _ | .busOff => [.dict, .can, .sent]
  | .usdoSegmentTimeout | .heartbeat | .tpdo _ => [.dict, .sent]
  | .nmtStart _ | .nmtStop _ | .nmtEnterPreoperational _ => [.dict, .can]
  | .nodeIdWrite _ _ => [.dict, .host, .can, .sent]
  | .clampReportDiscard _ _ | .snapshotPeriod | .snapshotResultReady => [.dict]
  | .keyExchange _ _ => [.dict, .sec, .sent, .free]
  | .finish _ _ => [.dict, .sec, .sent]
  | .keyUpdate _ _ | .endSession _ => [.sec, .sent]
  | .bundleBind _ _ | .firmwareImageWrite _ _ _ _ => [.dict, .host, .sec, .sent]
  | .bundleBindDone => [.bep, .ep, .grotto, .cmp, .coll, .xlat, .mem, .sec] ++ logged
  | .keyOffer _ _ | .keyStart _ _ _ | .keyHandshakeRetry _ | .keyRenewal _ => [.ports, .sw, .free] ++ logged
  | .keyMessageResend _ => [.ports, .sw] ++ logged
  | .logFlush | .eventAcknowledge _ _ | .pwrWarnRelease => logged
  | .lanternSample => [.time, .ports, .sw, .cmp, .lantern] ++ logged
  | .musterCensus => [.time, .dict, .muster]
  | .viewOriginate => [.time, .ports, .sw, .muster] ++ logged
  | .view _ _ => [.ports, .sw, .muster] ++ logged
  | .fset _ _ _ | .loss _ _ _ => [.ports, .sw, .bep, .ep, .grotto, .cal, .cmp, .coll, .mem, .lantern, .muster, .resets] ++ logged
  | .musterWindowEnd => [.time, .ports, .sw, .bep, .ep, .grotto, .cal, .cmp, .coll, .mem, .lantern, .muster, .resets] ++ logged
  | .musterRecoveryStep => [.time, .ports, .sw, .routes, .bep, .ep, .grotto, .coll, .mem, .lantern, .muster] ++ logged
  | .readmission => [.time, .routes, .dict, .muster]
  | .pwrWarnAssert => [.sec] ++ logged
  | .temperatureSample _ _ => [.time, .ports, .sw, .bep, .ep, .grotto, .cmp, .coll, .mem, .lantern, .muster] ++ logged
  | .opticalEngineRestart => [.ports, .pwr]
  | .auxclkLoss => [.cmp, .dict, .host, .can, .sec, .pwr, .resets, .sent]
  | .jtagBypass | .jtagIdcode => [.pwr, .sent]
  | .jtagSamplePreload | .jtagExtest _ => [.pwr, .sent, .free]
  | .supplyRestore => [.ports, .sw, .bep, .ep, .grotto, .coll, .mem, .sec, .lantern, .muster, .resets] ++ logged
  | .doeDiscovery _ _ => [.host, .sent]
  | .sessionHeartbeatTimeout _ => [.sec]
  | .epCalendarSwitch => [.time, .ep]

/-- The commands that may store into the attached memory. -/
def mayStore : Instr → Bool
  | .entryWrite _ _ _ _ | .registerWrite _ _ | .roleWrite _ _ _ | .trainingSetReceive _ _ | .holdExpiry _
    | .ledgerFaultLimit | .stallScrub _ | .structureScrub _ | .idlePortScrub _ | .ld _ | .ldv _ | .lda _ | .st _
    | .stm _ | .stf _ | .stl _ | .atIntegerAdd _ | .atExactFloatAdd _ | .atMin _ | .atMax _ | .atSwap _
    | .atCompareAndSwap _ | .atAnd _ | .atOr _ | .atXor _ | .fen _ | .responseReceive _ | .directoryAccess
    | .snrReceive _ | .probeTimeout _ | .lossWalkStep | .directoryEnable _ _ | .directoryDisable _ _ | .recall _ _
    | .contextAbortDone _ _ | .waitPoll _ _ | .commandEnd _ _ | .kernelLoadDone | .memLd _ _ | .memLdg _ _
    | .memLdv _ _ | .memLda _ _ | .memSt _ _ | .memStg _ _ | .memStv _ _ | .memStl _ _ | .memStf _ _ | .memAt _ _
    | .memRel _ _ | .memAcq _ _ | .copyLine _ _ | .barG _ _ | .atsInvalidate _ _ _ _ _ | .invalidateCompletion _
    | .invalidateAll _ _ | .shardUpdate _ _ | .commitTick _ | .shardEnable _ _ _ | .shardDisable _ _ _
    | .bar2Write _ _ | .perstDeassert | .functionLevelReset | .mailboxRead | .mailboxSegmentWrite
    | .usdoDownload _ _ _ | .dictionaryRestore _ _ | .dictionaryDefaults _ _ | .dictionaryErase _ _
    | .vendorDefinedRequest _ _ | .bundleBindDone | .portReset _ _ | .engineReset _ _ | .coreReset _ _
    | .clusterReset _ _ | .tenantAbort _ _ | .crossbarReset _ _ | .managementReset _ _ | .watchdogExpiry
    | .warmDeviceReset _ _ | .warmResetPortsDown | .coldReset _ _ | .managementBoot | .fset _ _ _ | .loss _ _ _
    | .musterWindowEnd | .musterRecoveryStep | .powerLoss | .resetRelease | .temperatureSample _ _
    | .voltageSample _ _ | .refclkLoss | .refclkRestore | .warmResetComplete _ | .supplyRestore => true
  | .mediumWrite _ _ _ | .creditWrite _ _ _ _ | .tenantShareWrite _ _ _ | .coordinateCommit _ _
    | .isolationModeWrite _ _ | .roundStart | .timeSetReceive _ _ _ _ | .trimDecision | .trimSlot
    | .trimNoticeReceive _ _ _ _ | .suspectTimeout _ | .holdoverAllowanceEnd | .roundLengthWrite _ _
    | .roundArmWrite _ _ | .roundChange | .timeRoleWrite _ _ | .timeSourceWrite _ _ | .beatrefEdge _ | .beatrefMissing
    | .losAssert _ _ | .losClear _ _ | .lolAssert _ _ | .cdrLock _ _ | .lockTimeout _ | .slipTimeout _
    | .slipWindowDone _ _ _ | .bitSlip _ _ _ _ | .alignmentDone _ _ _ | .codewordAligned _ _ | .fecAlignTimeout _
    | .deskewDone _ _ | .deskewTimeout _ | .exchangeTimeout _ | .activeEntry _ | .uncorrectableThreshold _ _
    | .retrainRequest _ _ _ | .elasticFault _ | .skipSetReceive _ _ | .cellReceive _ _ | .idleSlotReceive _ _
    | .nakReceive _ _ | .ackTimeout _ | .cellArrival _ | .combineTimeout _ | .auctionTick | .vc11AgeDrop _ _
    | .sumpAudit | .telemetryCapture | .routeArmWrite _ _ | .routeBankSwitch | .epochNoticeRepeat _
    | .routeBankDrainEnd | .routeBankCopy _ _ | .rtdRouteEntries _ _ | .epochNoticeReceive _ | .timSend _
    | .timReceive _ _ | .requestSend _ | .ackRunSend _ | .holdTimeout _ | .requestTimeout _ | .busyResend _
    | .refusalFenceSend _ | .sourceFence _ | .sourceFenceComplete _ | .exactAddRegionWrite _ _ _
    | .reduceStore _ _ _ _ _ _ _ | .epWindowBind _ _ _ _ | .epCalendarLoad _ _ _ _ | .epVc9Slot _ | .epVc10Receive _
    | .stepFence _ _ | .epCommit _ | .fillRspReceive _ _ _ _ _ | .fillRetry _ | .invReqReceive _ _ _ _
    | .invDoneSend _ | .snpReceive _ _ | .forwardTimeout _ | .calendarBeginLoad _ _ | .calendarDataWrite _ _
    | .calendarSeal _ _ | .calendarArm _ _ | .calendarBankSwitch | .contextCreate _ _ | .contextDestroy _ _
    | .contextRestart _ _ | .contextAbort _ _ | .ringProducerWrite _ _ _ | .ringRun _ _ | .ringCopy _ _
    | .ringWait _ _ | .waitTimeout _ _ | .ringNop _ _ | .kernelLoad _ _ | .kernelUnload _ _ | .intAdd _ _
    | .intSub _ _ | .intMullo _ _ | .intAnd _ _ | .intOr _ _ | .intXor _ _ | .intShl _ _ | .intShr _ _ | .intSar _ _
    | .intMin _ _ | .intMax _ _ | .intMov _ _ | .intMovi _ _ | .cmpEq _ _ | .cmpNe _ _ | .cmpLt _ _ | .cmpLe _ _
    | .cmpSel _ _ | .cvt _ _ | .fma _ _ | .fmul _ _ | .fadd _ _ | .fmin _ _ | .fmax _ _ | .dot8 _ _ | .dot8Mx _ _ _
    | .accAdd _ _ | .accZero _ _ | .accRound _ _ | .accLoad _ _ | .spmLd _ _ | .spmSt _ _ | .spmLdb _ _ | .spmLdg _ _
    | .spmStg _ _ | .cpyCopy _ _ | .cpyCwait _ _ | .cpyCtest _ _ | .ctlBr _ _ | .ctlBrp _ _ | .ctlCall _ _
    | .ctlRet _ _ | .ctlLoop _ _ | .ctlEnd _ _ | .ctlNop _ _ | .barC _ _ | .atsCompletion _ _ _
    | .atsCompletionTimeout _ _ | .pageResponse _ _ _ | .pageRequestTimeout _ | .priReset | .atsEnableClear
    | .priEnableClear | .windowBind _ _ _ | .windowUnbind _ _ _ | .serviceCellFormed _ _ _ | .backgroundSlot _
    | .channelRetrain _ _ | .bar2Read _ _ | .mailboxDoorbell _ | .irqCauseClear _ | .usdoUpload _ _
    | .usdoSegmentTimeout | .nmtStart _ | .nmtStop _ | .nmtEnterPreoperational _ | .nmtResetCommunication _
    | .nodeIdWrite _ _ | .heartbeat | .tpdo _ | .busOff | .clampReportDiscard _ _ | .dictionaryStore _ _ _
    | .snapshotTrigger _ _ | .snapshotPeriod | .getVersion | .getCapabilities | .negotiateAlgorithms _ | .getDigests
    | .getCertificate _ _ _ | .challenge _ _ | .getMeasurements _ _ _ | .keyExchange _ _ | .finish _ _
    | .keyUpdate _ _ | .spdmHeartbeat _ | .endSession _ | .spdmUnsupportedRequest _ | .bundleBind _ _
    | .firmwareImageWrite _ _ _ _ | .keyOffer _ _ | .keyProof _ _ | .keyStart _ _ _ | .keyAck _ _ _
    | .keyMessageResend _ | .keyHandshakeRetry _ | .keyRenewal _ | .keySwitch _ | .logFlush | .eventAcknowledge _ _
    | .lanternSample | .echoReplay | .echoReplayTimeout | .musterCensus | .viewOriginate | .view _ _ | .readmission
    | .pwrWarnAssert | .pwrWarnRelease | .opticalEngineRestart | .throttleEvaluation _ | .auxclkLoss | .jtagBypass
    | .jtagIdcode | .jtagSamplePreload | .jtagExtest _ | .burstSlot _ | .pcieRefclkLoss | .powerStateChange _
    | .doeDiscovery _ _ | .sessionHeartbeatTimeout _ | .epCalendarSwitch | .laserFault _ _ | .snapshotResultReady => false

end Sys2Proof.Machine
end

