-- ==== Sys2Proof/WellFormed.lean ====
section
/-!
DEFINITION. Which commands are well formed: operands within the ranges that the spec gives them. Ports, lanes, cores, slots,
channels and register fields are in range by their types; checked here are lengths, offsets and the operation a cell
carries. Every meaning is total, so an ill-formed command has an effect too; it stands for no input of the hardware.
-/

namespace Sys2Proof

/-- A cell carries at most 256 payload bytes (R94). -/
def Cell.wf (c : Cell) : Bool := decide (c.payload.length ≤ 256)

/-- A cell of the named operation (R96). -/
def Cell.carries (op : BitVec 5) (c : Cell) : Bool := c.wf && c.op == op

/-- A slot block: 256 payload bytes at most (R94), one of the 6,425 slots of its superframe (R436). -/
def Block.wf (b : Block) : Bool := decide (b.payload.length ≤ 256) && decide (b.slot < 6425)

/-- A mailbox request holds 2,032 data bytes (R376). -/
def MbxRequest.wf (r : MbxRequest) : Bool := r.data.length == 2032

/-- An access of BAR2: at least one byte, within 4 GiB (R371). -/
def bar2Range (offset len : Nat) : Bool := decide (0 < len) && decide (offset + len ≤ 2 ^ 32)

/-- A write lies within BAR0, the configuration space or BAR4 (R369, R371; assumption 34). -/
def registerRange (offset len : Nat) : Bool :=
  decide (0 < len) && (decide (offset + len ≤ 2 ^ 26) || (decide (2 ^ 32 ≤ offset) && decide (offset + len ≤ 2 ^ 32 + 4096))
    || (decide (2 ^ 33 ≤ offset) && decide (offset + len ≤ 2 ^ 33 + 65536)))

/-- A place of an SRAM structure (R446, R447). -/
def SramStructure.wf : SramStructure → Bool
  | .stallBuffer _ index => decide (index < 6400)
  | .replyStore index => decide (index < 64)
  | .descriptor _ index => decide (index < 6400)
  | .combining entry => decide (entry < 4096)
  | .joiner entry member => decide (entry < 4096) && decide (member < 32768)
  | .replay _ => true
  | .tally _ => true
  | .release _ => true
  | .directoryBlock _ => true
  | .translation set way => decide (set < 1024) && decide (way < 16)
  | .coreCache _ _ => true
  | .scratchpad _ _ => true
  | .registerSet _ _ => true
  | .instructionCache _ => true
  | .routeBank _ index => decide (index < 255)
  | .calendarBank _ offset => decide (offset < 65536)
  | .fabricTime => true
  | .muster => true

/-- Findings of a scrub step. -/
def findingsWf (l : List SramFinding) : Bool := l.all (fun f => f.place.wf)

/-- At most four SPDM sessions (R423). -/
def sessionWf (id : Nat) : Bool := decide (id < 4)

/-- The commands that carry a request cell, with its operation (R96). -/
def requestCell : Instr → Option (BitVec 5 × Cell)
  | .ld c => some (0x01, c)
  | .ldv c => some (0x02, c)
  | .lda c => some (0x03, c)
  | .st c => some (0x04, c)
  | .stm c => some (0x05, c)
  | .stf c => some (0x06, c)
  | .stl c => some (0x07, c)
  | .atIntegerAdd c => some (0x08, c)
  | .atExactFloatAdd c => some (0x08, c)
  | .atMin c => some (0x08, c)
  | .atMax c => some (0x08, c)
  | .atSwap c => some (0x08, c)
  | .atCompareAndSwap c => some (0x08, c)
  | .atAnd c => some (0x08, c)
  | .atOr c => some (0x08, c)
  | .atXor c => some (0x08, c)
  | .fen c => some (0x0A, c)
  | _ => none

/-- The operands of the other commands. -/
def operandsWf : Instr → Bool
  | .registerWrite offset data => registerRange offset data.length
  | .cellReceive _ b => b.wf
  | .idleSlotReceive _ b => b.wf
  | .stallScrub l => findingsWf l
  | .structureScrub l => findingsWf l
  | .idlePortScrub l => findingsWf l
  | .rtdRouteEntries _ c => c.wf
  | .timReceive _ c => c.wf
  | .epVc10Receive c => c.wf
  | .reduceStore _ _ _ _ _ _ lines => lines.length % 128 == 0
  | .epWindowBind _ _ d _ => d.length == 64
  | .epVc9Slot offset => decide (offset < 65536)
  | .snpReceive _ c => c.carries 0x18
  | .snrReceive c => c.carries 0x19
  | .responseReceive c => c.wf
  | .pageResponse _ index _ => decide (index < 512)
  | .pageRequestTimeout index => decide (index < 512)
  | .atsInvalidate _ _ _ _ log2 => decide (12 ≤ log2) && decide (log2 ≤ 64)
  | .bar2Read offset len => bar2Range offset len
  | .bar2Write offset data => bar2Range offset data.length
  | .finish id _ => sessionWf id
  | .keyUpdate id _ => sessionWf id
  | .spdmHeartbeat id => sessionWf id
  | .endSession id => sessionWf id
  | .vendorDefinedRequest id r => sessionWf id && r.wf
  | .firmwareImageWrite id _ _ segment => sessionWf id && decide (segment.length ≤ 2032)
  | .sessionHeartbeatTimeout id => sessionWf id
  | .loss _ _ l => decide (l.length ≤ 127)
  | .fset _ _ b => decide (255 ≤ b.length) && decide (b.length ≤ 256)
  | _ => true

/-- A well-formed command. -/
def Instr.wf (i : Instr) : Bool :=
  match requestCell i with
  | some (op, c) => c.carries op
  | none => operandsWf i

end Sys2Proof
end

