-- ==== Sys2Proof/Certificates/Slice0/Obligations.lean ====
section
/-! DEFINITION. The statements for the provers: each says what commands of one family do to the state, where they
complete and what they leave unchanged. -/

open Sys2Proof Sys2Proof.Machine

/-- One step is the front command's effect on the machine with the rest of the queue (assumption 33).
The model's choice (assumption 33): with an empty queue the block idles.
No command puts another into the queue or takes one out, the transcript only grows, and no free value is drawn twice. -/
def Obligations.StepRunsTheFrontCommandAndOnlyThat : Prop :=
  (∀ (c : Instr) (rest : List Instr) (s : State), step { s with pending := c :: rest } = exec c { s with pending := rest }) ∧
  (∀ s : State, s.pending = [] → step s = .next s) ∧
  (∀ (c : Instr) (rest : List Instr) (s t : State), s.pending = c :: rest → step s = .next t →
    t.pending = rest ∧ (∃ new : List Out, t.sent = new ++ s.sent) ∧ s.free ≤ t.free)

/-- The spec gives every command an effect, so none stops the machine.
The frame of every command: the parts outside its row of `partsOf` are as they were.
Memory frame: only the commands of `mayStore` change a byte of the attached memory. -/
def Obligations.CommandsCompleteAndChangeOnlyTheirParts : Prop :=
  (∀ (c : Instr) (s : State), ∃ t : State, exec c s = .next t) ∧
  (∀ (c : Instr) (s t : State), exec c s = .next t → Only (partsOf c) s t) ∧
  (∀ (c : Instr) (s t : State), mayStore c = false → exec c s = .next t →
    ∀ a : Nat, cellsGet t.mem.cells a 1 = cellsGet s.mem.cells a 1)

/-- The canonical form of the attached memory is an invariant of every step, from every state and not only from reset. -/
def Obligations.StepKeepsTheMemoryForm : Prop :=
  ∀ s t : State, MemoryOk s → step s = .next t → MemoryOk t

/-- The state right after reset (R22, R31, R115, R364 and the reset values of the dictionary); it meets the invariant of
`StepKeepsTheMemoryForm`. -/
def Obligations.ResetLeavesTheStatedValues : Prop :=
  State.reset.time.ft = 0 ∧ State.reset.time.mode = .free ∧ assigned State.reset = false ∧
  (bank State.reset 0).state = .idle ∧ (bank State.reset 1).state = .idle ∧ targetBank State.reset = 0 ∧
  State.reset.bep.releases = [] ∧ viewScalar State.reset none 0x3100 1 = 1 ∧ State.reset.coll.wins = [] ∧ State.reset.sec.sessions = [] ∧ State.reset.dict.clampSeq = 0 ∧
  State.reset.dict.snap.seq = 0 ∧ odGet State.reset 0x5300 2 = 1 ∧
  MemoryOk State.reset ∧ State.reset.mem.cells = [] ∧ State.reset.pending = []

/-- ENTRY_WRITE of an entry with a plain clamp (R386, R398, R403).
The checks before an entry's own rule (R386, R388, R398). -/
def Obligations.PlainEntryWrites : Prop :=
  (∀ (src : Route) (index : BitVec 16) (sub : BitVec 8) (data : Bytes) (s : State),
    ∀ e : Entry, findEntry index.toNat sub.toNat = some e → e.clamp ≠ .rule → e.ty.size = some data.length → e.acc ≠ .ro →
    (e.acc = .rws → secure src = true) → index.toNat ∉ [0x1F20, 0x5301, 0x6030] → s.can.renamed = false →
    ∃ t : State, exec (.entryWrite src index sub data) s = .next t ∧
      odGet t index.toNat sub.toNat = e.clamp.keep (leNat data) ∧
      t.dict.abort = 0 ∧ (t.dict.status = if e.clamp.keep (leNat data) = leNat data then 0 else 1) ∧
      OnlyEntries [(index.toNat, sub.toNat), (0x1F00, 3)] s t ∧ Only [.dict, .host, .sent] s t) ∧
  ((∀ (src : Route) (index : BitVec 16) (sub : BitVec 8) (data : Bytes) (s : State),
    ∀ e : Entry, findEntry index.toNat sub.toNat = some e → e.acc = .ro → s.can.renamed = false → index.toNat ≠ 0x1F20 →
    exec (.entryWrite src index sub data) s = .next (endOp 4 0x06010002 s)) ∧
  (∀ (src : Route) (index : BitVec 16) (sub : BitVec 8) (data : Bytes) (s : State),
    indexExists index.toNat = false → findEntry index.toNat sub.toNat = none → s.can.renamed = false →
    exec (.entryWrite src index sub data) s = .next (endOp 3 0x06020000 s)) ∧
  (∀ (src : Route) (index : BitVec 16) (sub : BitVec 8) (data : Bytes) (s : State),
    ∀ e : Entry, findEntry index.toNat sub.toNat = some e → e.acc = .rws → secure src = false → s.can.renamed = false → index.toNat ≠ 0x1F20 →
    exec (.entryWrite src index sub data) s = .next (endOp 4 0x06010000 s)))

/-- Writes of a port's role, medium and credits (R14, R15, R123).
Shares (R131), isolation mode (R231, R357) and the commit of the coordinates (R20, R23). -/
def Obligations.ConfigurationEntryWrites : Prop :=
  ((∀ (src : Route) (p : PortN) (v : BitVec 8) (s : State),
    ∀ kept : Nat, kept = (if min v.toNat 3 = 3 ∧ p.val < 12 then 0 else min v.toNat 3) →
    (s.port p).train ≠ .active → (kept = 0 ↔ (s.port p).train = .disabled) →
    ∃ t : State, exec (.roleWrite src p v) s = .next t ∧ role t p = kept ∧ Only [.dict, .host, .sent] s t) ∧
  (∀ (src : Route) (p : PortN) (v : BitVec 8) (s : State), (s.port p).train ≠ .active →
    ∃ t : State, exec (.mediumWrite src p v) s = .next t ∧
      (medium t p = if p.val < 12 then 0 else if role s p = 3 then 1 else min v.toNat 1) ∧
      OnlyEntries [(0x2000 + 16 * p.val, 2), (0x1F00, 3)] s t ∧ Only [.dict, .host, .sent] s t) ∧
  (∀ (src : Route) (p : PortN) (v : BitVec 8) (s : State), (s.port p).train = .active →
    exec (.roleWrite src p v) s = .next (refuseCondition s) ∧ exec (.mediumWrite src p v) s = .next (refuseCondition s)) ∧
  (∀ (src : Route) (p : PortN) (vc : Fin 12) (v : BitVec 16) (s : State),
    ∀ asked : Nat, asked = (if vc.val = 9 ∨ vc.val = 10 ∨ (vc.val = 8 ∧ role s p ≠ 1) then 0 else if v.toNat = 0 then 0 else max v.toNat 8) →
    (if asked = 0 then defaultCredit (role s p) vc.val else asked) + creditOthers s p vc.val ≤ 5376 →
    ∃ t : State, exec (.creditWrite src p vc v) s = .next t ∧ odGet t (0x3210 + p.val) (vc.val + 1) = asked ∧
      OnlyEntries [(0x3210 + p.val, vc.val + 1), (0x1F00, 3)] s t ∧ Only [.dict, .host, .sent] s t)) ∧
  ((∀ (src : Route) (u : TenantN) (v : BitVec 8) (s : State),
    ∃ t : State, exec (.tenantShareWrite src u v) s = .next t ∧ odGet t 0x3301 (u.val + 1) = min v.toNat (shareRoom s u.val) ∧
      (∀ w : Nat, w < u.val → odGet t 0x3301 (w + 1) = odGet s 0x3301 (w + 1)) ∧ Only [.dict, .host, .sent] s t) ∧
  (∀ (src : Route) (v : BitVec 8) (s : State), secure src = true → assigned s = false → (v.toNat = 0 ∨ s.mem.coloured = true) →
    ∃ t : State, exec (.isolationModeWrite src v) s = .next t ∧ odGet t 0x4100 3 = min v.toNat 1 ∧ Only [.dict, .host, .sent] s t) ∧
  (∀ (src : Route) (v : BitVec 8) (s : State), secure src = false →
    exec (.isolationModeWrite src v) s = .next (endOp 4 0x06010000 s)) ∧
  (∀ (src : Route) (s : State), assigned s = false →
    ∃ t : State, exec (.coordinateCommit src 1) s = .next t ∧ assigned t = true ∧
      (∀ p : PortN, (s.port p).train = .active → (t.port p).train = .exchange) ∧
      (∀ p : PortN, (s.port p).train ≠ .active → t.port p = s.port p) ∧ Only [.ports, .dict, .host, .sent] s t))

/-- The timeouts of R71's table. -/
def Obligations.TrainingTimeoutsReturnToDetect : Prop :=
  ∀ (p : PortN) (s : State),
    (∀ x ∈ ([(.lockTimeout p, .lock), (.slipTimeout p, .slip), (.fecAlignTimeout p, .fecAlign), (.deskewTimeout p, .deskew),
        (.exchangeTimeout p, .exchange)] : List (Instr × Train)),
      ((s.port p).train ≠ x.2 → exec x.1 s = .next s) ∧
      ((s.port p).train = x.2 → (x.2 = .exchange → (s.port p).versionFail = false) →
        ∃ t : State, exec x.1 s = .next t ∧ (t.port p).train = .detect ∧ (t.port p).version = 0 ∧
          (∀ l : LaneN, (t.port p).lanes[l].failed = false ∧ (t.port p).lanes[l].done = false ∧ (t.port p).lanes[l].inUse = false) ∧
          (x.2 = .slip → (t.port p).slipTimeout = true) ∧ AtPort p [.sent] s t)) ∧
    ((s.port p).versionFail = true → exec (.exchangeTimeout p) s = .next s)

/-- The exits of LOCK, SLIP, FEC_ALIGN and DESKEW (R71, R73, R74). -/
def Obligations.LanesGoOnThroughTraining : Prop :=
  ∀ (p : PortN) (lanes : BitVec 8) (s : State),
    (∀ x ∈ ([(.cdrLock p lanes, .lock, .slip), (.codewordAligned p lanes, .fecAlign, .deskew),
        (.deskewDone p lanes, .deskew, .exchange)] : List (Instr × Train × Train)), (s.port p).train = x.2.1 →
      ∃ t : State, exec x.1 s = .next t ∧
        (∀ l : LaneN, (t.port p).lanes[l].failed = ((s.port p).lanes[l].failed || !lanes.getLsbD l.val)) ∧
        (t.port p).train = (if halfIn (lanes.toNat &&& unfailed (s.port p)) = true then x.2.2 else x.2.1) ∧ OnlyPort p s t) ∧
    (∀ (src : Route) (v : BitVec 8), (s.port p).train = .slip →
      ∃ t : State, exec (.alignmentDone src p v) s = .next t ∧
        (∀ l : LaneN, (t.port p).lanes[l].failed = ((s.port p).lanes[l].failed || decide ((s.port p).lanes[l].hits < 1024))) ∧
        (t.port p).train = (if halfIn (laneMask (s.port p) (fun l => decide (1024 ≤ l.hits) && !l.failed)) = true then .fecAlign else .slip) ∧
        OnlyPort p s t)

/-- Detectors and lane failure (R71, R80, R81, R89).
SLIP_WINDOW_DONE and BIT_SLIP (R73, R90, R92). -/
def Obligations.LaneDetectorsAndSlips : Prop :=
  (∀ (p : PortN) (l : LaneN) (s : State),
    (∃ t : State, exec (.losAssert p l) s = .next t ∧ (t.port p).lanes[l].los = true ∧
      odGet t (portIndex p 4) (0x11 + l.val) = min (2 ^ 64 - 1) (odGet s (portIndex p 4) (0x11 + l.val) + 1) ∧
      ((s.port p).train = .active → (s.port p).lanes[l].inUse = true →
        (t.port p).train = (if ∃ k : LaneN, k ≠ l ∧ (s.port p).lanes[k].inUse = true ∧ (s.port p).lanes[k].los = false then .exchange else .detect) ∧
        ((t.port p).train = .exchange → (t.port p).lanes[l].failed = true ∧ (t.port p).lanes[l].cause = 1)) ∧
      (inTraining (s.port p).train = true →
        (t.port p).train = (if ∃ k : LaneN, k ≠ l ∧ (s.port p).lanes[k].los = false then (s.port p).train else .detect))) ∧
    (∃ t : State, exec (.lolAssert p l) s = .next t ∧ (t.port p).lanes[l].lol = true ∧
      odGet t (portIndex p 4) (0x21 + l.val) = min (2 ^ 64 - 1) (odGet s (portIndex p 4) (0x21 + l.val) + 1) ∧
      ((s.port p).train = .active → (s.port p).lanes[l].inUse = true → (s.port p).lanes[l].los = false →
        (t.port p).train = .exchange ∧ (t.port p).lanes[l].failed = true ∧ (t.port p).lanes[l].cause = 1)) ∧
    ((s.port p).train = .active → (s.port p).lanes[l].inUse = true →
      (∃ t : State, exec (.uncorrectableThreshold p l) s = .next t ∧ (t.port p).train = .exchange ∧ (t.port p).lanes[l].failed = true ∧
        (t.port p).lanes[l].cause = 3 ∧ OnlyPort p s t) ∧
      (medium s p = 1 → ∃ t : State, exec (.laserFault p l) s = .next t ∧ (t.port p).train = .exchange ∧
        (t.port p).lanes[l].failed = true ∧ (t.port p).lanes[l].cause = 1 ∧ OnlyPort p s t)) ∧
    ((s.port p).engineOff = false → (s.port p).train = .detect →
      ∃ t : State, exec (.losClear p l) s = .next t ∧ (t.port p).lanes[l].los = false ∧
        ((t.port p).train = .lock ↔ halfIn (laneMask (t.port p) (fun x => !x.los)) = true) ∧ AtPort p [.sent] s t)) ∧
  (∀ (p : PortN) (l : LaneN) (s : State),
    (∀ hits : Nat, ∃ t : State, exec (.slipWindowDone p l hits) s = .next t ∧ AtPort p [] s t ∧
      (∀ k : LaneN, k ≠ l → (t.port p).lanes[k] = (s.port p).lanes[k]) ∧
      ((s.port p).train = .slip → (t.port p).lanes[l].done = true ∧ (t.port p).lanes[l].hits = min 0xFFFF hits) ∧
      ((s.port p).train ≠ .slip → t = s)) ∧
    (∀ (src : Route) (v : BitVec 8), ∃ t : State, exec (.bitSlip src p l v) s = .next t ∧ AtPort p [.dict, .host, .sent] s t ∧
      (∀ k : LaneN, k ≠ l → (t.port p).lanes[k] = (s.port p).lanes[k]) ∧
      ((s.port p).train = .slip → (t.port p).lanes[l].offset = ((s.port p).lanes[l].offset + min v.toNat 9) % 10 ∧
        (t.port p).lanes[l].done = false) ∧
      ((s.port p).train ≠ .slip → t.ports = s.ports)))

/-- The exchange and the entry to ACTIVE (R70, R75, R76, R17). -/
def Obligations.ExchangeAgreesAndEntersActive : Prop :=
  ∀ (p : PortN) (x : TrainingSet) (s : State),
    ((s.port p).train ≠ .exchange → (s.port p).train ≠ .active → exec (.trainingSetReceive p x) s = .next s) ∧
    ((s.port p).train = .exchange ∨ (s.port p).train = .active → trainingGood x = false →
      exec (.trainingSetReceive p x) s = .next (bump (portIndex p 8) 4 s)) ∧
    ((s.port p).train = .exchange → trainingGood x = true → x.flags.getLsbD 1 = false →
      (commonVersion s x = none → (s.port p).versionFail = false →
        ∃ t : State, exec (.trainingSetReceive p x) s = .next t ∧ (t.port p).train = .exchange ∧ (t.port p).versionFail = true ∧ OnlyPort p s t) ∧
      (∀ v : Nat, commonVersion s x = some v → widthOf (rxGood (s.port p)) x.rxGood.toNat (degradationOn s p) ≠ .none →
        ∃ t : State, exec (.trainingSetReceive p x) s = .next t ∧ (t.port p).train = .exchange ∧ (t.port p).version = v ∧
          (t.port p).lastSet = some x ∧
          (t.port p).sameSets = (if (s.port p).lastSet.any (fun y => sameExchange x y) then (s.port p).sameSets + 1 else 1) ∧
          ((t.port p).ready = true ↔ 8 ≤ (t.port p).sameSets ∧
            widthCode (widthOf (rxGood (s.port p)) x.rxGood.toNat (degradationOn s p)) = x.width.toNat) ∧ AtPort p [.sent] s t)) ∧
    ((s.port p).lastSet = some x → (s.port p).train = .exchange → (s.port p).ready = true → (s.port p).readySeen = true →
      ∃ t : State, exec (.activeEntry p) s = .next t ∧ (t.port p).train = .active ∧
        (t.port p).width = widthOf (rxGood (s.port p)) x.rxGood.toNat (degradationOn s p) ∧ (t.port p).partnerCoord = x.coord ∧
        (t.port p).partnerKind = x.kind.toNat ∧ (t.port p).status = portStatus s p x.kind.toNat x.coord ∧ t.host.cause.getLsbD 6 = true) ∧
    ((s.port p).train ≠ .exchange ∨ (s.port p).ready = false ∨ (s.port p).readySeen = false → exec (.activeEntry p) s = .next s)

/-- Retrains, rate matching and the hold time (R77, R83, R87, R90). -/
def Obligations.RetrainElasticFaultAndHoldTime : Prop :=
  ∀ (p : PortN) (s : State),
    ((s.port p).train = .exchange ∨ (s.port p).train = .active →
      (∀ (src : Route) (v : BitVec 8), ∃ t : State, exec (.retrainRequest src p v) s = .next t ∧ (t.port p).train = .lock ∧
        (∀ l : LaneN, (t.port p).lanes[l].failed = false) ∧ OnlyPort p s t) ∧
      (∀ c ∈ [Instr.elasticFault p, .skipSetReceive p 0, .skipSetReceive p 32], ∃ t : State, exec c s = .next t ∧
        (t.port p).train = .lock ∧ (t.port p).elasticFault = true ∧
        odGet t (portIndex p 8) 3 = min (2 ^ 64 - 1) (odGet s (portIndex p 8) 3 + 1) ∧ OnlyPort p s t) ∧
      (∀ fill : Nat, 0 < fill → fill < 32 → ∃ t : State, exec (.skipSetReceive p fill) s = .next t ∧
        t.port p = { s.port p with fill := fill } ∧ AtPort p [.dict] s t ∧
        odGet t (portIndex p 8) 1 = (if 20 ≤ fill then min (2 ^ 64 - 1) (odGet s (portIndex p 8) 1 + 1) else odGet s (portIndex p 8) 1) ∧
        odGet t (portIndex p 8) 2 = (if fill ≤ 12 then min (2 ^ 64 - 1) (odGet s (portIndex p 8) 2 + 1) else odGet s (portIndex p 8) 2))) ∧
    ((s.port p).train ≠ .exchange → (s.port p).train ≠ .active →
      (∀ (src : Route) (v : BitVec 8), ∃ t : State, exec (.retrainRequest src p v) s = .next t ∧ t.ports = s.ports) ∧
      exec (.elasticFault p) s = .next s ∧ (∀ fill : Nat, exec (.skipSetReceive p fill) s = .next s)) ∧
    ((s.port p).holding = true → (s.port p).train ≠ .active →
      ∃ t : State, exec (.holdExpiry p) s = .next t ∧ (t.port p).replay = [] ∧ (t.port p).nextSeq = 0 ∧ (t.port p).expSeq = 0 ∧
        (t.port p).sendReset = true ∧ (t.port p).holdExpired = true ∧ (t.port p).holding = false ∧ (t.port p).status = 0) ∧
    ((s.port p).holding = false ∨ (s.port p).train = .active → exec (.holdExpiry p) s = .next s)

/-- TRIM_DECISION and TRIM_SLOT (R32, R45, R52).
SUSPECT_TIMEOUT (R57) and HOLDOVER_ALLOWANCE_END (R53). -/
def Obligations.TrimsAndNoticesMoveFabricTime : Prop :=
  (∀ s : State,
    (∃ t : State, exec .trimDecision s = .next t ∧ t.time.ft = nextTrimSlot s.time.ft ∧ t.time.mode = s.time.mode ∧
      ((advanceTime (nextTrimSlot s.time.ft) s.time).trims.any (fun e => e.1 == t.time.ft + 1024) = false →
        decided t.time (t.time.ft + 1024) = trimFor (advanceTime (nextTrimSlot s.time.ft) s.time) (t.time.ft + 1024)) ∧
      ((advanceTime (nextTrimSlot s.time.ft) s.time).trims.any (fun e => e.1 == t.time.ft + 1024) = true →
        t.time = advanceTime (nextTrimSlot s.time.ft) s.time ∧ t.sent = s.sent)) ∧
    (s.time.trims.all (fun e => decide (nextTrimSlot s.time.ft ≤ e.1)) = true →
      ∃ t : State, exec .trimSlot s = .next t ∧ t.time.ft = nextTrimSlot s.time.ft + 1 ∧
        t.time.phi = s.time.phi + (match decided s.time (nextTrimSlot s.time.ft) with
          | .none => 0
          | .hold => 64
          | .skip => -64) ∧
        t.time.boundExceeded = (if s.time.mode = .locked ∧ 128 < t.time.phi.natAbs then true
          else if t.time.phi.natAbs ≤ 64 then false else s.time.boundExceeded))) ∧
  (∀ s : State,
    (∀ p : PortN, ((s.port p).time.suspect = true → exec (.suspectTimeout p) s = .next s) ∧
      ((s.port p).time.suspect = false → ∃ t : State, exec (.suspectTimeout p) s = .next t ∧ (t.port p).time.suspect = true ∧
        (t.port p).time.delay = none ∧ (t.port p).time.samples = [] ∧
        odGet t (0x4010 + p.val) 4 = min (2 ^ 32 - 1) (odGet s (0x4010 + p.val) 4 + 1) ∧ eligible t p = false)) ∧
    (s.time.mode = .holdover → ∃ t : State, exec .holdoverAllowanceEnd s = .next t ∧ t.time.mode = .holdover ∧
      t.time.allowanceOver = true ∧ slotsFiring t = false ∧ t.time.ft = max s.time.ft (ceilTo s.time.round s.time.ft)) ∧
    (s.time.mode ≠ .holdover → exec .holdoverAllowanceEnd s = .next s))

/-- TIME_SET_RECEIVE and TRIM_NOTICE_RECEIVE (R38–R40, R44, R54). -/
def Obligations.TimeSetsAndNotices : Prop :=
  ∀ (p : PortN) (s : State),
    (∀ (x : TimeSet) (arrival : Nat) (damaged : Bool),
      (decodes s p = false → exec (.timeSetReceive p x arrival damaged) s = .next s) ∧
      (decodes s p = true → timeSetGood x damaged = false →
        ∃ t : State, exec (.timeSetReceive p x arrival damaged) s = .next t ∧ AtPort p [.dict] s t ∧
          t.port p = { s.port p with time := { (s.port p).time with clean := 0 } } ∧
          odGet t (0x4010 + p.val) 3 = min (2 ^ 32 - 1) (odGet s (0x4010 + p.val) 3 + 1)) ∧
      (decodes s p = true → timeSetGood x damaged = true →
        ∃ t : State, exec (.timeSetReceive p x arrival damaged) s = .next t ∧
          odGet t (0x4010 + p.val) 2 = min (2 ^ 32 - 1) (odGet s (0x4010 + p.val) 2 + 1) ∧
          (t.port p).time.partnerStratum = x.status.toNat / 16 ∧ (t.port p).time.partnerState = x.status.toNat % 8 ∧
          (t.port p).time.partnerSource = some x.source.toNat ∧ (t.port p).time.partnerRound = 2 ^ x.round.toNat ∧
          (t.port p).time.roundMismatch = (2 ^ x.round.toNat != s.time.round))) ∧
    (∀ (low : BitVec 16) (kind comp : BitVec 8),
      (decodes s p = false → exec (.trimNoticeReceive p low kind comp) s = .next s) ∧
      (decodes s p = true → comp ≠ ~~~kind ∨ (kind ≠ 1 ∧ kind ≠ 2) ∨ trimSlot (noticeSlot s.time.ft low.toNat) = false ∨
          noticeSlot s.time.ft low.toNat < s.time.ft + 256 ∨ s.time.ft + 1088 < noticeSlot s.time.ft low.toNat →
        exec (.trimNoticeReceive p low kind comp) s = .next (bump (portIndex p 8) 4 (bumpBy (0x4010 + p.val) 5 1 32 s))) ∧
      (decodes s p = true → comp = ~~~kind → (kind = 1 ∨ kind = 2) → trimSlot (noticeSlot s.time.ft low.toNat) = true →
        s.time.ft + 256 ≤ noticeSlot s.time.ft low.toNat → noticeSlot s.time.ft low.toNat ≤ s.time.ft + 1088 →
        (s.time.parent ≠ some p.val → exec (.trimNoticeReceive p low kind comp) s = .next s) ∧
        (s.time.parent = some p.val → s.time.mode = .locked → eligible s p = true → s.time.farSets < 2 →
          exec (.trimNoticeReceive p low kind comp) s = .next { s with time := { s.time with
            parentTrims := s.time.parentTrims ++ [(noticeSlot s.time.ft low.toNat, if kind = 1 then .hold else .skip)] } })))

/-- Writes of the fabric-time unit (R51, R54, R55).
ROUND_START (R51, R52), BEATREF_EDGE and BEATREF_MISSING (R56). -/
def Obligations.RoundsRolesAndBeatref : Prop :=
  (∀ (src : Route) (s : State),
    (∀ v : BitVec 32, (odGet s 0x4000 5 ≠ 0 → exec (.roundLengthWrite src v) s = .next (refuseRule s)) ∧
      (odGet s 0x4000 5 = 0 → ∃ t : State, exec (.roundLengthWrite src v) s = .next t ∧
        odGet t 0x4000 4 = clampTo 1024 65536 (2 ^ Nat.log2 (max v.toNat 1)) ∧ OnlyEntries [(0x4000, 4), (0x1F00, 3)] s t)) ∧
    (∀ v : BitVec 64, ∃ t : State, exec (.roundArmWrite src v) s = .next t ∧ t.time.armedRound = odGet s 0x4000 4 ∧
      odGet t 0x4000 5 = (if v.toNat < s.time.ft + 1024 ∨ 2 ^ 64 ≤ ceilTo (max s.time.round (odGet s 0x4000 4)) v.toNat then 0
        else ceilTo (max s.time.round (odGet s 0x4000 4)) v.toNat) ∧
      t.time.round = s.time.round ∧ OnlyEntries [(0x4000, 5), (0x1F00, 3)] s t) ∧
    (odGet s 0x4000 5 = 0 → exec .roundChange s = .next s) ∧
    (odGet s 0x4000 5 ≠ 0 → ∃ t : State, exec .roundChange s = .next t ∧ t.time.round = s.time.armedRound ∧
      t.time.ft = max s.time.ft (odGet s 0x4000 5) ∧ odGet t 0x4000 5 = 0 ∧ OnlyEntries [(0x4000, 5)] s t) ∧
    (∀ v : BitVec 8,
      (∃ t : State, exec (.timeRoleWrite src v) s = .next t ∧ odGet t 0x4000 1 = min v.toNat 2 ∧
        t.time = { s.time with rewritten := true } ∧ OnlyEntries [(0x4000, 1), (0x1F00, 3)] s t) ∧
      (∃ t : State, exec (.timeSourceWrite src v) s = .next t ∧ odGet t 0x4000 2 = min v.toNat 1 ∧
        t.time = { s.time with rewritten := true } ∧ OnlyEntries [(0x4000, 2), (0x1F00, 3)] s t))) ∧
  (∀ s : State,
    (s.time.rewritten = true → ∃ t : State, exec .roundStart s = .next t ∧ t.time.role = odGet s 0x4000 1 ∧
      t.time.sourceSel = odGet s 0x4000 2 ∧ t.time.rewritten = false) ∧
    (s.time.rewritten = false → s.time.lockPending = true → ∃ t : State, exec .roundStart s = .next t ∧ t.time.mode = .locked ∧
      (s.time.mode = .acquiring → t.time.phi.natAbs ≤ 32)) ∧
    (s.time.rewritten = true ∨ s.time.lockPending = false → 0 < s.time.round →
      ∃ t : State, exec .roundStart s = .next t ∧ t.time.ft = nextRoundStart s.time ∧ t.time.lastRound = some t.time.ft) ∧
    (listens s.time = false → exec .beatrefMissing s = .next s ∧ ∀ stamp : Nat, exec (.beatrefEdge stamp) s = .next s) ∧
    (listens s.time = true → ∃ t : State, exec .beatrefMissing s = .next t ∧ t.time.beatBad = s.time.beatBad + 1 ∧ t.time.beatGood = 0 ∧
      t.time.beatFault = (s.time.beatFault || decide (1 ≤ s.time.beatBad)) ∧
      odGet t 0x4000 0x25 = min (2 ^ 32 - 1) (odGet s 0x4000 0x25 + 1)) ∧
    (listens s.time = true → s.time.trims = [] → ∀ (stamp : Nat) (b : Int), s.time.beatNext = some b →
      ∃ t : State, exec (.beatrefEdge stamp) s = .next t ∧
        (256 < ((stamp : Int) - b).natAbs → t.time.beatBad = s.time.beatBad + 1 ∧ t.time.beatGood = 0 ∧
          t.time.beatFault = (s.time.beatFault || decide (1 ≤ s.time.beatBad)) ∧
          odGet t 0x4000 0x25 = min (2 ^ 32 - 1) (odGet s 0x4000 0x25 + 1)) ∧
        (((stamp : Int) - b).natAbs ≤ 256 → t.time.beatBad = 0 ∧ t.time.beatGood = s.time.beatGood + 1 ∧
          t.time.beatFault = (s.time.beatFault && decide (s.time.beatGood < 15)) ∧
          t.time.beatNext = some ((stamp : Int) + 64 * s.time.round))))

/-- CELL_RECEIVE (R85). -/
def Obligations.CellsAreTakenInSequence : Prop :=
  ∀ (p : PortN) (b : Block) (s : State),
    ((s.port p).train ≠ .active → exec (.cellReceive p b) s = .next s) ∧
    ((s.port p).train = .active → (s.port p).key.rxPend = none →
      (blockCell b (s.port p).key.rxKey = none → ∃ t : State, exec (.cellReceive p b) s = .next t ∧
        (t.port p).expSeq = (s.port p).expSeq ∧ (t.port p).inError = true ∧ (t.port p).staged = (s.port p).staged ∧
        t.sent = (if (s.port p).inError = true then s.sent else .nak p.val ((s.port p).expSeq - 1).toNat :: s.sent) ∧
        odGet t (portIndex p 7) 3 = min (2 ^ 64 - 1) (odGet s (portIndex p 7) 3 + 1) ∧
        AtPort p [.dict, .sent] s t) ∧
      (∀ c : Cell, blockCell b (s.port p).key.rxKey = some c → ∃ t : State, exec (.cellReceive p b) s = .next t ∧
        (sideSeq b.sideband = (s.port p).expSeq → (t.port p).expSeq = (s.port p).expSeq + 1 ∧ (t.port p).inError = false) ∧
        (sideSeq b.sideband ≠ (s.port p).expSeq → (t.port p).expSeq = (s.port p).expSeq ∧ (t.port p).staged = (s.port p).staged ∧
          (if (sideSeq b.sideband - (s.port p).expSeq).toNat < 2048 then (t.port p).inError = true
           else (t.port p).dropped = (s.port p).dropped + 1 ∧ (t.port p).inError = (s.port p).inError))))

/-- IDLE_SLOT_RECEIVE (R66, R84), NAK_RECEIVE and ACK_TIMEOUT (R86). -/
def Obligations.SidebandsAndReplays : Prop :=
  ∀ (p : PortN) (s : State),
    (∀ b : Block,
      ((s.port p).train ≠ .active ∨ b.damaged = true → exec (.idleSlotReceive p b) s = .next s) ∧
      ((s.port p).train = .active → b.damaged = false → (s.port p).key.rxPend = none → sideNak b.sideband = false →
        idleGood (s.port p).key.rxKey b = true →
        ∃ t : State, exec (.idleSlotReceive p b) s = .next t ∧ t.sent = s.sent ∧ (t.port p).expSeq = (s.port p).expSeq ∧
          AtPort p [.lantern] s t ∧
          ((s.port p).replay = [] → (t.port p).replay = []) ∧
          (∀ (q : BitVec 12) (c : Cell), (s.port p).replay.head? = some (q, c) →
            ((sideAck b.sideband - q).toNat < (s.port p).replay.length →
              (t.port p).replay = (s.port p).replay.drop ((sideAck b.sideband - q).toNat + 1) ∧ (t.port p).replayCount = 0) ∧
            ((s.port p).replay.length ≤ (sideAck b.sideband - q).toNat → (t.port p).replay = (s.port p).replay)))) ∧
    ((s.port p).replay = [] ∨ (s.port p).train ≠ .active → exec (.ackTimeout p) s = .next s) ∧
    (∀ (q : BitVec 12) (c : Cell), (s.port p).replay.head? = some (q, c) → (s.port p).train = .active → (s.port p).replay.length < 4096 →
      ((s.port p).replaySeq = q ∧ 8 ≤ (s.port p).replayCount →
        (∃ t : State, exec (.ackTimeout p) s = .next t ∧ (t.port p).train = .lock ∧
          odGet t (portIndex p 7) 8 = min (2 ^ 64 - 1) (odGet s (portIndex p 7) 8 + 1)) ∧
        (∃ t : State, exec (.nakReceive p (q - 1)) s = .next t ∧ (t.port p).train = .lock ∧
          odGet t (portIndex p 7) 8 = min (2 ^ 64 - 1) (odGet s (portIndex p 7) 8 + 1))) ∧
      (¬ ((s.port p).replaySeq = q ∧ 8 ≤ (s.port p).replayCount) →
        (∃ t : State, exec (.ackTimeout p) s = .next t ∧ (t.port p).replay = (s.port p).replay ∧ (t.port p).replaySeq = q ∧
          t.sent = ((s.port p).replay.map (fun e => Out.cell p.val e.1.toNat ((s.port p).expSeq - 1).toNat e.2)).reverse ++ s.sent ∧
          odGet t (portIndex p 7) 7 = min (2 ^ 64 - 1) (odGet s (portIndex p 7) 7 + 1) ∧ AtPort p [.dict, .sent] s t) ∧
        (∃ t : State, exec (.nakReceive p (q - 1)) s = .next t ∧ (t.port p).replay = (s.port p).replay ∧ (t.port p).replaySeq = q ∧
          t.sent = ((s.port p).replay.map (fun e => Out.cell p.val e.1.toNat ((s.port p).expSeq - 1).toNat e.2)).reverse ++ s.sent ∧
          odGet t (portIndex p 7) 5 = min (2 ^ 64 - 1) (odGet s (portIndex p 7) 5 + 1) ∧ AtPort p [.dict, .sent] s t)))

/-- CELL_ARRIVAL (R126, R145). -/
def Obligations.ArrivalTakesTheOldestCell : Prop :=
  ∀ s : State,
    (∀ (input : InputN) (p : PortN), input.val = p.val →
      ((s.port p).staged = [] → exec (.cellArrival input) s = .next s) ∧
      (∀ (i : Option Nat) (c : Cell), (s.port p).staged.head? = some (i, c) → s.pwr.warmRunning = false →
        ∃ t : State, exec (.cellArrival input) s = .next t ∧ (t.port p).staged = (s.port p).staged.drop 1 ∧
          (12 ≤ c.vc.toNat ∨ c.ver ≠ 1 → odGet t 0x3100 0x16 = min (2 ^ 64 - 1) (odGet s 0x3100 0x16 + 1) ∧
            AtPort p [.sw, .dict, .lantern] s t))) ∧
    (∀ input : InputN, input.val = 24 →
      (s.bep.outbox = [] → exec (.cellArrival input) s = .next s) ∧
      (s.bep.outbox ≠ [] → assigned s = false →
        exec (.cellArrival input) s = .next { s with bep := { s.bep with outbox := s.bep.outbox.drop 1 } }))

/-- COMBINE_TIMEOUT (R144), VC11_AGE_DROP (R129), SUMP_AUDIT (R135), the scrubs (R146, R446–R448), TELEMETRY_CAPTURE (R146).
AUCTION_TICK (R136, R137, R139). -/
def Obligations.SwitchAuditAndAuction : Prop :=
  (∀ s : State,
    (∀ k : Nat,
      (mapGet s.sw.comb k = none → exec (.combineTimeout k) s = .next s) ∧
      (∀ e : CombEntry, mapGet s.sw.comb k = some e →
        (e.departed = false → exec (.combineTimeout k) s = .next s) ∧
        (e.departed = true → keysRise s.sw.comb = true → ∃ t : State, exec (.combineTimeout k) s = .next t ∧ mapGet t.sw.comb k = none ∧
          (∀ j : Nat, j ≠ k → mapGet t.sw.comb j = mapGet s.sw.comb j) ∧ Only [.sw, .dict] s t ∧ OnlyEntries [(0x3300, 0x15)] s t ∧
          odGet t 0x3300 0x15 = min (2 ^ 64 - 1) (odGet s 0x3300 0x15 + 1)))) ∧
    (∀ input output : InputN,
      (voq s (voqKey (isolated s) input.val output.val 11 0) = [] → exec (.vc11AgeDrop input output) s = .next s) ∧
      (∀ q : QEntry, (voq s (voqKey (isolated s) input.val output.val 11 0)).head? = some q →
        ∃ t : State, exec (.vc11AgeDrop input output) s = .next t ∧ q.arrival + 4096 ≤ t.time.ft ∧
          odGet t 0x3100 0x17 = min (2 ^ 64 - 1) (odGet s 0x3100 0x17 + 1))) ∧
    (∃ t : State, exec .sumpAudit s = .next t ∧ t.sw.auditPos = (s.sw.auditPos + 8) % stallBuffers ∧ t.time.ft % 512 = 255 ∧ s.time.ft ≤ t.time.ft) ∧
    (∃ t : State, exec (.stallScrub []) s = .next t ∧ t.sw = { s.sw with scrubPos := (s.sw.scrubPos + 1) % stallBuffers } ∧
      t.time.ft % 512 = 127 ∧ Only [.time, .sw] s t) ∧
    (∃ t : State, exec (.structureScrub []) s = .next t ∧ t.time.ft % 512 = 511 ∧ Only [.time] s t) ∧
    exec (.idlePortScrub []) s = .next s ∧
    (∀ e : Nat,
      (∃ t : State, exec (.structureScrub [{ place := .combining e, uncorrectable := false }]) s = .next t ∧
        odGet t 0x7100 1 = min (2 ^ 64 - 1) (odGet s 0x7100 1 + 1) ∧ t.sw = s.sw) ∧
      (keysRise s.sw.comb = true → ∃ t : State, exec (.structureScrub [{ place := .combining e, uncorrectable := true }]) s = .next t ∧
        odGet t 0x7100 2 = min (2 ^ 64 - 1) (odGet s 0x7100 2 + 1) ∧ mapGet t.sw.comb e = none) ∧
      exec (.idlePortScrub [{ place := .combining e, uncorrectable := true }]) s = .next s) ∧
    (∃ t : State, exec .telemetryCapture s = .next t ∧ t.time.ft % 512 = 383 ∧ Only [.time, .can, .dict] s t ∧
      (s.dict.snap.armed = false → t.dict = s.dict) ∧
      (s.dict.snap.armed = true → t.dict.snap.armed = false ∧ (t.dict.snap.taken.map (fun x => x.1)) = some t.time.ft))) ∧
  (∀ s : State,
    (s.time.ft % s.time.round = 0 → ∃ t : State, exec .auctionTick s = .next t ∧ Only [.time] s t ∧ t.time = cycleTime s.time) ∧
    (∀ q : QEntry, s.time.ft % s.time.round ≠ 0 → activeNo s = none → withheld s = false → isolated s = false → s.sw.replyWait = [] →
      s.sw.comb = [] → s.sw.voqs = [(voqKey false 24 24 4 0, [q])] → q.store = departureStore → q.cell.op = opDAT → q.cell.vc = 4 →
      ∃ t : State, exec .auctionTick s = .next t ∧ t.bep.intake = s.bep.intake ++ [q.cell] ∧ t.sw.voqs = [] ∧
        t.time = cycleTime s.time))

/-- ROUTE_ARM_WRITE, ROUTE_BANK_SWITCH, ROUTE_BANK_DRAIN_END, ROUTE_BANK_COPY and EPOCH_NOTICE_RECEIVE (R115–R119, R123). -/
def Obligations.RouteBanksArmAndSwitch : Prop :=
  ∀ s : State,
    (∀ (src : Route) (v : BitVec 64),
      (v = 0 → ∃ t : State, exec (.routeArmWrite src v) s = .next t ∧ odGet t 0x3100 4 = 0 ∧ (bank t (targetBank s)).state ≠ .armed ∧
        bank t (1 - targetBank s) = bank s (1 - targetBank s) ∧ Only [.routes, .dict] s t) ∧
      (v ≠ 0 → (bank s (targetBank s)).state ≠ .idle ∨ (bank s (1 - targetBank s)).state = .draining →
        exec (.routeArmWrite src v) s = .next (refuseRule s)) ∧
      (v ≠ 0 → (bank s (targetBank s)).state = .idle → (bank s (1 - targetBank s)).state ≠ .draining →
        ∃ t : State, exec (.routeArmWrite src v) s = .next t ∧ odGet t 0x3100 4 = (if v.toNat < s.time.ft + 1024 then 0 else v.toNat) ∧
          bank t (targetBank s) = { bank s (targetBank s) with
            state := if v.toNat < s.time.ft + 1024 then .idle else .armed } ∧
          bank t (1 - targetBank s) = bank s (1 - targetBank s) ∧ Only [.routes, .dict, .host, .sent] s t)) ∧
    (odGet s 0x3100 4 = 0 → exec .routeBankSwitch s = .next s) ∧
    (odGet s 0x3100 4 ≠ 0 → s.routes.current ≤ 1 → (bank s (targetBank s)).state = .armed → ∃ t : State, exec .routeBankSwitch s = .next t ∧
      odGet t 0x3100 4 = 0 ∧ t.time.ft = max s.time.ft (odGet s 0x3100 4) ∧ t.routes.current = targetBank s ∧
      (bank t (targetBank s)).state = .active ∧ (bank t s.routes.current).group = (bank s s.routes.current).group ∧
      ((bank s s.routes.current).state = .active →
        (bank t s.routes.current).state = .draining ∧ (bank t s.routes.current).left = t.time.ft)) ∧
    ((bank s 0).state ≠ .draining → (bank s 1).state ≠ .draining → exec .routeBankDrainEnd s = .next s) ∧
    (∀ b : Fin 2, (bank s b.val).state = .draining → ∃ t : State, exec .routeBankDrainEnd s = .next t ∧ (bank t b.val).state = .idle ∧
      (bank t b.val).left + 65536 ≤ t.time.ft ∧ (∀ p : PortN, (t.port p).notice = none)) ∧
    (∀ (src : Route) (v : BitVec 8),
      ((bank s (targetBank s)).state ≠ .idle → exec (.routeBankCopy src v) s = .next (refuseRule s)) ∧
      ((bank s (targetBank s)).state = .idle → s.routes.current ≤ 1 → ∃ t : State, exec (.routeBankCopy src v) s = .next t ∧
        bank t (targetBank s) = { bank s s.routes.current with
          state := .idle, left := (bank s (targetBank s)).left } ∧
        bank t s.routes.current = bank s s.routes.current ∧ Only [.routes, .dict, .host, .sent] s t)) ∧
    (∀ c : Cell, ∃ t : State, exec (.epochNoticeReceive c) s = .next t ∧ t.ep = { s.ep with epoch := BitVec.ofNat 1 (fieldAt (payloadBytes c) 0 1) } ∧
      t.bep.intake = s.bep.intake.erase c ∧ Only [.ep, .bep, .lantern] s t)

/-- RTD_ROUTE_ENTRIES (R118), EPOCH_NOTICE_REPEAT (R119), TIM_SEND and TIM_RECEIVE (R120). -/
def Obligations.LinkLocalCells : Prop :=
  ∀ (p : PortN) (s : State),
    (∀ c : Cell,
      (odGet s 0x3100 8 ≠ 1 ∨ role s p ≠ 2 ∨ (s.port p).partnerKind ≠ 2 ∨ (bank s (targetBank s)).state ≠ .idle ∨ rtdLayout c = false →
        ∃ t : State, exec (.rtdRouteEntries p c) s = .next t ∧ odGet t 0x3100 0x18 = min (2 ^ 64 - 1) (odGet s 0x3100 0x18 + 1) ∧
          (t.port p).taken = (s.port p).taken.erase c ∧ AtPort p [.dict] s t) ∧
      (odGet s 0x3100 8 = 1 → role s p = 2 → (s.port p).partnerKind = 2 → (bank s (targetBank s)).state = .idle → rtdLayout c = true →
        fieldAt (payloadBytes c) 0 1 = 2 → fieldAt (payloadBytes c) 2 1 = 1 → fieldAt (payloadBytes c) 8 8 < 24 →
        keysRise (bank s (targetBank s)).member = true →
        ∃ t : State, exec (.rtdRouteEntries p c) s = .next t ∧
          memberEntry (bank t (targetBank s)) (fieldAt (payloadBytes c) 1 1) = fieldAt (payloadBytes c) 8 8 ∧
          (∀ i : Nat, i ≠ fieldAt (payloadBytes c) 1 1 → memberEntry (bank t (targetBank s)) i = memberEntry (bank s (targetBank s)) i) ∧
          (bank t (targetBank s)).group = (bank s (targetBank s)).group ∧ (bank t (targetBank s)).port = (bank s (targetBank s)).port ∧
          AtPort p [.routes] s t) ∧
      (∃ t : State, exec (.timReceive p c) s = .next t ∧ odGet t (0x4010 + p.val) 9 = fieldAt (payloadBytes c) 0 4 ∧
        odGet t (0x4010 + p.val) 0xA = fieldAt (payloadBytes c) 4 4 ∧ OnlyEntries [(0x4010 + p.val, 9), (0x4010 + p.val, 0xA)] s t ∧
        AtPort p [.dict] s t)) ∧
    (role s p = 0 ∨ vc11Open s p = false → exec (.timSend p) s = .next s) ∧
    (role s p ≠ 0 → vc11Open s p = true → ∃ t : State, exec (.timSend p) s = .next t ∧
      t.sent = .cell p.val (s.port p).nextSeq.toNat ((s.port p).expSeq - 1).toNat (timCell s p) :: s.sent ∧
      (t.port p).replay = (s.port p).replay ++ [((s.port p).nextSeq, timCell s p)] ∧ (t.port p).nextSeq = (s.port p).nextSeq + 1 ∧
      creditFor t p 11 = creditFor s p 11 - 1 ∧ AtPort p [.dict, .sent] s t) ∧
    ((s.port p).notice = none ∨ vc11Open s p = false → exec (.epochNoticeRepeat p) s = .next s) ∧
    (∀ e tick : Nat, (s.port p).notice = some (e, tick) → vc11Open s p = true → ∃ t : State, exec (.epochNoticeRepeat p) s = .next t ∧
      (t.port p).replay = (s.port p).replay ++ [((s.port p).nextSeq, noticeCell s (coord s p.val) e tick)] ∧
      (t.port p).notice = (s.port p).notice ∧ AtPort p [.dict, .sent] s t)

/-- REGISTER_WRITE (R372–R374) and IRQ_CAUSE_CLEAR (R382). -/
def Obligations.RegisterWritesReachTheirRegisters : Prop :=
  ∀ (v : BitVec 32) (s : State),
    (∀ o : Nat, barOpen s = false → 4 * o < 2 ^ 32 → exec (.registerWrite (4 * o) ((natLe 4 v.toNat).map some)) s = .next s) ∧
    (∀ c : BitVec 64, (barOpen s = false → exec (.irqCauseClear c) s = .next s) ∧
      (barOpen s = true → ∃ t : State, exec (.irqCauseClear c) s = .next t ∧ t = { s with host := t.host } ∧
        t.host = { s.host with cause := t.host.cause } ∧
        ∀ i : Fin 64, t.host.cause.getLsb i = (s.host.cause.getLsb i && !c.getLsb i))) ∧
    (barOpen s = true →
      (∃ t : State, exec (.registerWrite 0x20 ((natLe 4 v.toNat).map some)) s = .next t ∧ Only [.host] s t ∧
        t.host = { s.host with bar2Base := (s.host.bar2Base.extractLsb' 32 32 ++ v) &&& 0x0000FFFFFFFFF000#64 }) ∧
      (∃ t : State, exec (.registerWrite 0x24 ((natLe 4 v.toNat).map some)) s = .next t ∧ Only [.host] s t ∧
        t.host = { s.host with bar2Base := (v ++ s.host.bar2Base.extractLsb' 0 32) &&& 0x0000FFFFFFFFF000#64 }) ∧
      (∃ t : State, exec (.registerWrite 0x108 ((natLe 4 v.toNat).map some)) s = .next t ∧ Only [.host] s t ∧
        t.host = { s.host with enable := s.host.enable.extractLsb' 32 32 ++ v }) ∧
      (∃ t : State, exec (.registerWrite 0x114 ((natLe 4 v.toNat).map some)) s = .next t ∧ Only [.host] s t ∧
        t.host = { s.host with winIrq := v ++ s.host.winIrq.extractLsb' 0 32 }) ∧
      (∀ k : Fin 512, keysRise s.host.reqArea = true →
        ∃ t : State, exec (.registerWrite (0x1000 + 4 * k.val) ((natLe 4 v.toNat).map some)) s = .next t ∧ Only [.host] s t ∧
          (∀ i : Fin 4, mapGetD t.host.reqArea (4 * k.val + i.val) 0 = (natLe 4 v.toNat).getD i.val 0) ∧
          (∀ a : Nat, a / 4 ≠ k.val → mapGetD t.host.reqArea a 0 = mapGetD s.host.reqArea a 0)) ∧
      (∀ o ∈ ([0x00, 0x08, 0x10, 0x14, 0x50, 0x1800, 0x200000] : List Nat), exec (.registerWrite o ((natLe 4 v.toNat).map some)) s = .next s) ∧
      (∀ o ∈ ([0x40, 0x48] : List Nat), ∀ b : Byte, exec (.registerWrite o [some b]) s = .next (countIgnored s)) ∧
      (v ≠ 0x57540002 → exec (.registerWrite 0x48 ((natLe 4 v.toNat).map some)) s = .next (countIgnored s)))

/-- MAILBOX_DOORBELL, MAILBOX_READ and MAILBOX_SEGMENT_WRITE (R376–R378). -/
def Obligations.MailboxRunsOneRequest : Prop :=
  ∀ s : State,
    (∀ v : BitVec 32, (barOpen s = false → exec (.mailboxDoorbell v) s = .next s) ∧
      (barOpen s = true → s.host.busy = true ∨ s.host.ready = false → exec (.mailboxDoorbell v) s = .next (countIgnored s)) ∧
      (barOpen s = true → s.host.busy = false → s.host.ready = true → ∃ t : State, exec (.mailboxDoorbell v) s = .next t ∧
        t.host.running = some (requestOf s.host.reqArea v) ∧ t.host.busy = true ∧ t.host.rsp = { s.host.rsp with valid := false } ∧
        Only [.host] s t)) ∧
    (s.host.running = none → exec .mailboxRead s = .next s ∧ exec .mailboxSegmentWrite s = .next s) ∧
    (∀ r : MbxRequest, s.host.running = some r → s.host.discard = false → s.can.renamed = false →
      (r.op = 2 → exec .mailboxRead s = .next s) ∧ (r.op ≠ 2 → exec .mailboxSegmentWrite s = .next s) ∧
      (r.op ≠ 1 → r.op ≠ 2 → ∃ t : State, exec .mailboxRead s = .next t ∧
        t.host.rsp = { seq := r.reqSeq.toNat, valid := true, status := 5, abort := 0x05040001 } ∧ t.host.running = none ∧ t.host.busy = false ∧
        t.host.cause.getLsbD 0 = true ∧ t.dict.od = s.dict.od) ∧
      (r.op = 1 → ∀ e : Entry, findEntry r.index.toNat r.sub.toNat = some e → e.acc ≠ .wo → isBlob r.index.toNat r.sub.toNat = false →
        r.len = 0 → r.flags.toNat < 4 → r.offset = 0 → ∃ t : State, exec .mailboxRead s = .next t ∧
          (∀ n : Nat, e.ty.size = some n → t.host.rsp = { seq := r.reqSeq.toNat, valid := true, data := natLe n (viewScalar s none r.index.toNat r.sub.toNat) }) ∧
          t.host.running = none ∧ t.host.busy = false ∧ t.host.cause.getLsbD 0 = true ∧ t.dict.od = s.dict.od) ∧
      (r.op = 2 → r.flags = 1 → r.offset = 0 → r.len.toNat ≤ 2032 → s.host.staged = none → ∃ t : State, exec .mailboxSegmentWrite s = .next t ∧
        t.host.staged = some { key := odKey r.index.toNat r.sub.toNat, data := slice r.data 0 r.len.toNat } ∧
        t.host.rsp = { seq := r.reqSeq.toNat, valid := true } ∧ t.host.running = none ∧ t.host.busy = false ∧
        t.host.cause.getLsbD 0 = true ∧ t.dict.od = s.dict.od ∧ t.mem = s.mem))

/-- FUNCTION_LEVEL_RESET, PERST_DEASSERT (R370), PCIE_REFCLK_LOSS (R491), POWER_STATE_CHANGE (R368), DOE_DISCOVERY (R369). -/
def Obligations.FunctionResetsAndPowerStates : Prop :=
  ∀ s : State,
    (∀ x ∈ ([(.functionLevelReset, s.host.linkUp), (.perstDeassert, true)] : List (Instr × Bool)),
      ∃ t : State, exec x.1 s = .next t ∧ t.host.linkUp = x.2 ∧ t.host.bar2Base = 0 ∧ t.host.enable = 0 ∧ t.host.reqArea = [] ∧ t.host.msixOn = false ∧
        t.host.vectors = [] ∧ t.host.d3hot = false ∧ t.host.discard = s.host.running.isSome ∧ t.host.running = s.host.running ∧
        t.host.ready = s.host.ready ∧ t.xlat.ats = false ∧ t.xlat.pasidOn = false ∧ t.xlat.pri = false ∧ t.xlat.pages = [] ∧
        t.sec = { s.sec with sessions := [] } ∧ t.mem = s.mem) ∧
    exec .pcieRefclkLoss s = .next { s with host := { s.host with linkUp := false } } ∧
    (∀ d3hot : Bool, exec (.powerStateChange d3hot) s = .next { s with host := { s.host with d3hot := d3hot } }) ∧
    (∀ (index : BitVec 8) (dwords : Nat),
      (s.host.linkUp = false → exec (.doeDiscovery index dwords) s = .next s) ∧
      (s.host.linkUp = true → 4096 < dwords → exec (.doeDiscovery index dwords) s = .next { s with host := { s.host with doeError := true } }) ∧
      (s.host.linkUp = true → dwords ≤ 4096 → index.toNat ≤ 2 →
        exec (.doeDiscovery index dwords) s = .next (emit (.doe [1, 0, index, if index = 2 then 0 else index + 1]) s)) ∧
      (s.host.linkUp = true → dwords ≤ 4096 → 2 < index.toNat →
        exec (.doeDiscovery index dwords) s = .next (emit (.doe [0xFF, 0xFF, 0, 0]) s)))

/-- LD, LDV, LDA, ST, STM and STL at the resident BEP (R152–R155, R160, R170, R171). -/
def Obligations.LoadsReadAndStoresWrite : Prop :=
  ∀ (c : Cell) (s : State), mapGet s.bep.tally c.src.toNat = none → mapGet s.bep.runs c.src.toNat = none → s.bep.tally.length < 8192 →
    keysRise s.bep.tally = true → keysRise s.bep.runs = true → Memory.wf s.mem.cells = true →
    (∀ x ∈ ([(.ld c, opLD), (.ldv c, opLDV), (.lda c, opLDA)] : List (Instr × BitVec 5)),
      (firstRefusal s c = none → (cellLines c).all (fun l => !lineBad s l) = true → c.len.toNat ≤ 32 → 1 ≤ c.len.toNat →
        (x.2 = opLDA → s.bep.releases = []) →
        ∃ t : State, exec x.1 s = .next t ∧ t.mem.cells = s.mem.cells ∧
          t.bep.outbox.take s.bep.outbox.length = s.bep.outbox ∧
          (t.bep.outbox.drop s.bep.outbox.length).all (fun r => r.op == opDAT && r.tag == c.tag && cellDest r == c.src) = true ∧
          ((t.bep.outbox.drop s.bep.outbox.length).flatMap (fun r => r.payload)) = (cellLines c).flatMap (fun l => lineBytes s l)) ∧
      (∀ code detail : Nat, firstRefusal s c = some (code, detail) → ∃ t : State, exec x.1 s = .next t ∧ t.mem = s.mem ∧
        t.bep.outbox = s.bep.outbox ++ [errFor { c with op := x.2 } code detail])) ∧
    (firstRefusal s c = none → ∃ t : State, exec (.st c) s = .next t ∧ (tally t c.src.toNat).count = 1 ∧
      (∀ a : Nat, cellGet t.mem.cells a = if cellOff c / 128 * 128 ≤ a ∧ a < (cellOff c / 128 + c.len.toNat) * 128
        then (payloadLine c ((a - cellOff c / 128 * 128) / 128)).getD (a % 128) 0 else cellGet s.mem.cells a) ∧
      t.bep.outbox = (if odGet s 0x3400 1 = 0 then s.bep.outbox ++ [ackFor { c with op := opST } 1] else s.bep.outbox) ∧
      (odGet s 0x3400 1 ≠ 0 → mapGet t.bep.runs c.src.toNat = some { n := 1, last := { c with op := opST }, cmark := c.cmark.toNat })) ∧
    (∀ x ∈ ([(.stm c, opSTM), (.stl c, opSTL)] : List (Instr × BitVec 5)),
      firstRefusal s c = none → lineBad s (cellOff c / 128) = false → ∃ t : State, exec x.1 s = .next t ∧ (tally t c.src.toNat).count = 1 ∧
        (∀ a : Nat, cellGet t.mem.cells a = if a / 128 = cellOff c / 128 ∧ (maskedMask c).testBit (a % 128) = true
          then (maskedLine c).getD (a % 128) 0 else cellGet s.mem.cells a) ∧
        (odGet s 0x3400 1 = 0 ∨ x.2 = opSTL → t.bep.outbox = s.bep.outbox ++ [ackFor { c with op := x.2 } 1]) ∧
        (x.2 = opSTL → t.bep.releases.head? = some { line := cellOff c / 128, scope := c.scope.toNat, who := senderOf c })) ∧
    (∀ x ∈ ([(.st c, opST), (.stm c, opSTM), (.stl c, opSTL)] : List (Instr × BitVec 5)),
      ∀ code detail : Nat, firstRefusal s c = some (code, detail) → ∃ t : State, exec x.1 s = .next t ∧ t.mem = s.mem ∧
        t.bep.outbox = s.bep.outbox ++ [errFor { c with op := x.2 } code detail])

/-- STF, FEN, HOLD_TIMEOUT, ACK_RUN_SEND and refusal (R155–R165). -/
def Obligations.FlagsFencesAndRefusal : Prop :=
  ∀ (c : Cell) (s : State), keysRise s.bep.tally = true → keysRise s.bep.runs = true → Memory.wf s.mem.cells = true →
    ((tally s c.src.toNat).refusal = false → (tally s c.src.toNat).flag = none → s.bep.tally.length < 8192 →
      ((tally s c.src.toNat).count = c.tally.toNat → firstRefusal s c = none → lineBad s (cellOff c / 128) = false →
        mapGet s.bep.runs c.src.toNat = none →
        ∃ t : State, exec (.stf c) s = .next t ∧ (tally t c.src.toNat).count = 0 ∧
          (∀ a : Nat, cellGet t.mem.cells a = if a / 128 = cellOff c / 128 ∧ (maskedMask c).testBit (a % 128) = true
            then (maskedLine c).getD (a % 128) 0 else cellGet s.mem.cells a) ∧
          t.bep.outbox = s.bep.outbox ++ [ackFor { c with op := opSTF } 1]) ∧
      ((tally s c.src.toNat).count ≠ c.tally.toNat → heldCount s < 1024 → ∃ t : State, exec (.stf c) s = .next t ∧
        tally t c.src.toNat = { tally s c.src.toNat with flag := some { c with op := opSTF } } ∧
        t.mem = s.mem ∧ t.bep.outbox = s.bep.outbox)) ∧
    ((tally s c.src.toNat).refusal = true → mapGet s.bep.runs c.src.toNat = none →
      ∀ x ∈ ([(.ld c, opLD), (.ldv c, opLDV), (.lda c, opLDA), (.st c, opST), (.stm c, opSTM), (.stf c, opSTF), (.stl c, opSTL)] : List (Instr × BitVec 5)),
        ∃ t : State, exec x.1 s = .next t ∧ t.mem = s.mem ∧ t.bep.tally = s.bep.tally ∧
          t.bep.outbox = s.bep.outbox ++ [nakFor { c with op := x.2 } 1 1]) ∧
    ((tally s c.src.toNat).flag = none → mapGet s.bep.runs c.src.toNat = none → ∃ t : State, exec (.fen c) s = .next t ∧
      tally t c.src.toNat = { tally s c.src.toNat with refusal := false } ∧ t.mem = s.mem ∧
      t.bep.outbox = s.bep.outbox ++ [ackFor { c with op := opFEN } 1]) ∧
    (∀ source : BitVec 16,
      ((tally s source.toNat).flag = none → exec (.holdTimeout source) s = .next s) ∧
      ((tally s source.toNat).flag ≠ none → (tally s source.toNat).fence = none →
        ∃ t : State, exec (.holdTimeout source) s = .next t ∧ tally t source.toNat = { refusal := true } ∧ t.mem = s.mem) ∧
      (mapGet s.bep.runs source.toNat = none → exec (.ackRunSend source) s = .next s) ∧
      (∀ r : AckRun, mapGet s.bep.runs source.toNat = some r → ∃ t : State, exec (.ackRunSend source) s = .next t ∧
        t.bep.outbox = s.bep.outbox ++ [{ ackFor r.last r.n with cmark := BitVec.ofNat 2 r.cmark }] ∧ mapGet t.bep.runs source.toNat = none ∧
        t.mem = s.mem))

/-- The atomics (R174–R178, R181). -/
def Obligations.AtomicsUpdateOneWord : Prop :=
  ∀ (c : Cell) (s : State), mapGet s.bep.tally c.src.toNat = none → mapGet s.bep.runs c.src.toNat = none → Memory.wf s.mem.cells = true →
    keysRise s.bep.exact = true → c.aux.toNat % 4 ≤ 2 →
    ∀ w : Nat, w = atWidth c.aux → ∀ old : Nat, old = fieldAt (lineBytes s (cellOff c / 128)) (cellOff c % 128) w →
    (∀ x ∈ ([(.atIntegerAdd c, 0, (old + atOperand c) % 2 ^ (8 * w)), (.atMin c, 2, if atLess c.aux (atOperand c) old then atOperand c else old),
        (.atMax c, 3, if atLess c.aux old (atOperand c) then atOperand c else old), (.atSwap c, 4, atOperand c),
        (.atCompareAndSwap c, 5, if old = atCompare c then atOperand c else old), (.atAnd c, 6, old &&& atOperand c),
        (.atOr c, 7, old ||| atOperand c), (.atXor c, 8, old ^^^ atOperand c),
        (.atExactFloatAdd c, 1,
          if inRegion s (cellOff c) (c.aux.toNat / 8 % 4) then
            accRound (regionFmt (c.aux.toNat / 8 % 4)) .rne
              (accAdd (mapGetD s.bep.exact (8 * cellOff c + fmtWidth (c.aux.toNat / 8 % 4)) (accLoad (decodeFV (regionFmt (c.aux.toNat / 8 % 4)) old)))
                (decodeFV (regionFmt (c.aux.toNat / 8 % 4)) (atOperand c)))
          else roundFV (regionFmt (c.aux.toNat / 8 % 4)) .rne false
            (sumFV .rne [decodeFV (regionFmt (c.aux.toNat / 8 % 4)) old, decodeFV (regionFmt (c.aux.toNat / 8 % 4)) (atOperand c)]))]
        : List (Instr × BitVec 4 × Nat)),
      (cellOff c % w = 0 → memRefusal s c.tenant.toNat (cellOff c / 128) = none → lineBad s (cellOff c / 128) = false →
        ∃ t : State, exec x.1 s = .next t ∧
          (∀ a : Nat, cellGet t.mem.cells a = if cellOff c ≤ a ∧ a < cellOff c + w then (natLe w x.2.2).getD (a - cellOff c) 0
            else cellGet s.mem.cells a) ∧
          t.bep.outbox = s.bep.outbox ++ [if atFetch c then { datFor (atCell c x.2.1) 1 0 true (natLe 8 old) with aux := 0 }
            else ackFor (atCell c x.2.1) 1]) ∧
      (cellOff c % w ≠ 0 → ∃ t : State, exec x.1 s = .next t ∧ t.mem = s.mem ∧
        t.bep.outbox = s.bep.outbox ++ [errFor (atCell c x.2.1) errAlign 0])) ∧
    (inRegion s (cellOff c) (c.aux.toNat / 8 % 4) = true → cellOff c % w = 0 → fmtWidth (c.aux.toNat / 8 % 4) = w →
      memRefusal s c.tenant.toNat (cellOff c / 128) = none → lineBad s (cellOff c / 128) = false →
      ∃ t : State, exec (.atExactFloatAdd c) s = .next t ∧
        mapGet t.bep.exact (8 * cellOff c + w) = some
          (accAdd (mapGetD s.bep.exact (8 * cellOff c + w) (accLoad (decodeFV (regionFmt (c.aux.toNat / 8 % 4)) old)))
            (decodeFV (regionFmt (c.aux.toNat / 8 % 4)) (atOperand c))))

/-- REQUEST_SEND (R154, R159, R182, R186, R190–R192, R197). -/
def Obligations.CommandsLeaveTheSource : Prop :=
  ∀ (cmd : BepCommand) (s : State),
    (cmd.tenant = none → exec (.requestSend cmd) s = .next (emit (.completion cmd.id .perm false []) (bump 0x3402 0x19 s))) ∧
    (∀ tn : BitVec 4, cmd.tenant = some tn →
      (s.ep.cache.find? (fun e => entryCovers e cmd.pasid.toNat (cmd.addr.toNat / 4096)) = none →
        s.ep.fills.any (fun e => e.2.pasid == cmd.pasid.toNat && e.2.vpage == cmd.addr.toNat / 4096 && !e.2.stale) = false →
        ∃ t : State, exec (.requestSend cmd) s = .next t ∧
          t.sent = .fillReq (fillTag s) cmd.pasid.toNat (cmd.addr.toNat / 4096) (fillKind cmd.op) :: s.sent ∧ Only [.ep, .sent] s t ∧
          t.ep.reqs = s.ep.reqs ∧ t.ep.waiting = s.ep.waiting) ∧
      (∀ e : XEntry, s.ep.cache.find? (fun e => entryCovers e cmd.pasid.toNat (cmd.addr.toNat / 4096)) = some e →
        (permitted e cmd = false → exec (.requestSend cmd) s = .next (emit (.completion cmd.id .perm false []) (bump 0x3402 0x19 s))) ∧
        (∀ c : EpCmd, c = { cmd := cmd, phys := some (BitVec.ofNat 64 (entryAddr e cmd.addr.toNat)) } →
          permitted e cmd = true → isBroken s (epDest c) = false → s.ep.waiting = [] →
          (holdOf s c = .no → keysRise s.ep.reqs = true → keysRise s.ep.counts = true → ∃ t : State, exec (.requestSend cmd) s = .next t ∧
            t.bep.outbox = s.bep.outbox ++ [requestCell s c (freeTag s .agent) (if cmd.op = .stf then storeCount s (epDest c).toNat else 0)] ∧
            (mapGet t.ep.reqs (freeTag s .agent)).map (fun r => (r.cmd, r.use)) = some (cmd, .agent) ∧ t.ep.waiting = [] ∧
            storeCount t (epDest c).toNat = (if cmd.op = .stf then 0
              else if isCounted (opOf cmd.op) then (storeCount s (epDest c).toNat + 1) % 2 ^ 24 else storeCount s (epDest c).toNat) ∧
            Only [.ep, .bep] s t) ∧
          (holdOf s c = .window → ∃ t : State, exec (.requestSend cmd) s = .next t ∧ t.ep.waiting = [c] ∧ t.bep = s.bep ∧ t.ep.reqs = s.ep.reqs ∧
            odGet t 0x3402 0x11 = min (2 ^ 64 - 1) (odGet s 0x3402 0x11 + 1) ∧ Only [.ep, .dict] s t))))

/-- RESPONSE_RECEIVE, REQUEST_TIMEOUT and BUSY_RESEND (R154, R182, R183). -/
def Obligations.AnswersEndRequests : Prop :=
  ∀ s : State,
    (∀ c : Cell, (mapGet s.ep.reqs c.tag.toNat = none → ∃ t : State, exec (.responseReceive c) s = .next t ∧
        odGet t 0x3400 0x19 = min (2 ^ 64 - 1) (odGet s 0x3400 0x19 + 1) ∧ t.ep = s.ep ∧ t.bep.intake = s.bep.intake.erase c ∧
        Only [.bep, .lantern, .dict] s t) ∧
      (∀ r : Req, mapGet s.ep.reqs c.tag.toNat = some r →
        (cellDest r.cell ≠ c.src → ∃ t : State, exec (.responseReceive c) s = .next t ∧
          odGet t 0x3400 0x19 = min (2 ^ 64 - 1) (odGet s 0x3400 0x19 + 1) ∧ t.ep = s.ep) ∧
        (cellDest r.cell = c.src → r.use = .agent → s.ep.waiting = [] → s.ep.fences = [] → s.grotto.lines = [] → keysRise s.ep.reqs = true →
          c.cmark = 0 → odGet s 0x3402 7 = 0 →
          (c.op = opDAT → c.last = true → r.cell.op = opLD → ∃ t : State, exec (.responseReceive c) s = .next t ∧
            t.sent = .completion r.cmd.id .ok false (addData r c) :: s.sent ∧ mapGet t.ep.reqs c.tag.toNat = none) ∧
          (c.op = opERR → c.sub.toNat ≠ 3 → ∃ t : State, exec (.responseReceive c) s = .next t ∧
            t.sent = .completion r.cmd.id (.err c.sub.toNat (c.aux.toNat % 65536)) false [] :: s.sent ∧ mapGet t.ep.reqs c.tag.toNat = none) ∧
          (c.op = opNAK → c.sub = 2 → r.busy < 7 → ∃ t : State, exec (.responseReceive c) s = .next t ∧ t.sent = s.sent ∧
            mapGet t.ep.reqs c.tag.toNat = some { r with
              busy := r.busy + 1, parked := true })))) ∧
    (∀ tag : BitVec 16,
      (mapGet s.ep.reqs tag.toNat = none → exec (.busyResend tag) s = .next s ∧
        exec (.requestTimeout tag) s = .next { s with ep := { s.ep with quarantine := s.ep.quarantine.erase tag.toNat } }) ∧
      (∀ r : Req, mapGet s.ep.reqs tag.toNat = some r →
        (r.parked = false → exec (.busyResend tag) s = .next s) ∧
        (r.parked = true → keysRise s.ep.reqs = true → ∃ t : State, exec (.busyResend tag) s = .next t ∧
          t.bep.outbox = s.bep.outbox ++ [{ r.cell with epoch := s.ep.epoch }] ∧
          (mapGet t.ep.reqs tag.toNat).map (fun x => (x.parked, x.cell.tag)) = some (false, r.cell.tag) ∧ Only [.ep, .bep] s t) ∧
        (r.use = .agent → s.ep.waiting = [] → s.ep.fences = [] → s.grotto.lines = [] → keysRise s.ep.reqs = true →
          ∃ t : State, exec (.requestTimeout tag) s = .next t ∧ t.sent = .completion r.cmd.id .timeout false [] :: s.sent ∧
            mapGet t.ep.reqs tag.toNat = none ∧ t.ep.quarantine = tag.toNat :: s.ep.quarantine ∧
            odGet t 0x3400 0x1A = min (2 ^ 64 - 1) (odGet s 0x3400 0x1A + 1))))

/-- SOURCE_FENCE, SOURCE_FENCE_COMPLETE (R164, R188), REFUSAL_FENCE_SEND (R158), EXACT_ADD_REGION_WRITE (R181). -/
def Obligations.SourceFencesAndRegions : Prop :=
  ∀ s : State,
    (∀ id : Nat,
      (keysRise s.ep.fences = true → ∃ t : State, exec (.sourceFence id) s = .next t ∧
        mapGet t.ep.fences id = some { covered := (s.ep.reqs.filter (fun e => isWrite e.2.cell.op)).map (fun e => e.1), ahead := s.ep.waiting.length } ∧
        t.ep.waiting = s.ep.waiting ∧ t.sent = s.sent) ∧
      (mapGet s.ep.fences id = none → exec (.sourceFenceComplete id) s = .next s) ∧
      (∀ f : SrcFence, mapGet s.ep.fences id = some f →
        (f.covered ≠ [] ∨ f.ahead ≠ 0 → exec (.sourceFenceComplete id) s = .next s) ∧
        (f.covered = [] → f.ahead = 0 → keysRise s.ep.fences = true → ∃ t : State, exec (.sourceFenceComplete id) s = .next t ∧
          t.sent = .completion id (if f.failures = 0 then .ok else .fencedWithFailures f.failures) false [] :: s.sent ∧
          mapGet t.ep.fences id = none ∧ Only [.ep, .sent] s t))) ∧
    (∀ dest : BitVec 16,
      (mapGet s.ep.recover dest.toNat = none ∨ incomplete s dest ≠ [] → exec (.refusalFenceSend dest) s = .next s) ∧
      (∀ (l : List Req) (o : Option Nat), mapGet s.ep.recover dest.toNat = some (l, o) →
        (o ≠ none → exec (.refusalFenceSend dest) s = .next s) ∧
        (o = none → incomplete s dest = [] → ∃ t : State, exec (.refusalFenceSend dest) s = .next t ∧
          t.bep.outbox = s.bep.outbox ++ [
            { addr := mkAddr dest 0, src := coord s 31, vc := 0, op := opFEN, epoch := s.ep.epoch, tag := BitVec.ofNat 16 (freeTag s .fence) }] ∧ Only [.ep, .bep] s t))) ∧
    (∀ (src : Route) (region : Fin 16) (v : BitVec 64), ∃ t : State, exec (.exactAddRegionWrite src region v) s = .next t ∧
      bits (odGet t 0x3401 (region.val + 1)) 60 3 = 0 ∧ bits (odGet t 0x3401 (region.val + 1)) 48 10 = 0 ∧
      bits (odGet t 0x3401 (region.val + 1)) 58 2 ≠ 3 ∧ bits (odGet t 0x3401 (region.val + 1)) 0 48 = bits v.toNat 0 48 ∧
      (bit (odGet t 0x3401 (region.val + 1)) 63 = true → bit v.toNat 63 = true ∧
        regionBad s region.val (odGet t 0x3401 (region.val + 1)) = false) ∧
      OnlyEntries [(0x3401, region.val + 1), (0x1F00, 3)] s t ∧ Only [.bep, .dict, .host, .sent] s t)

/-- EP_WINDOW_BIND, REDUCE_STORE (R190, R194), STEP_FENCE and EP_COMMIT (R318).
EP_CALENDAR_LOAD (R243), EP_CALENDAR_SWITCH (R242), EP_VC9_SLOT (R195), EP_VC10_RECEIVE (R196). -/
def Obligations.EndPointWindowsAndCalendar : Prop :=
  (∀ s : State, keysRise s.ep.windows = true →
    (∀ (id : Nat) (pasid : BitVec 20) (d : Bytes) (base : BitVec 64),
      (d.length = 64 → fieldAt d 56 8 = (crc64 (slice d 0 56)).toNat → dWindow d ≠ 0 → epWindow s (dWindow d) = none →
        s.ep.windows.foldl (fun n e => n + epCells s e.1) 0 + epCells s (dWindow d) ≤ odGet s 0x3402 0x0A →
        ∃ t : State, exec (.epWindowBind id pasid d base) s = .next t ∧
          epWindow t (dWindow d) = some { desc := d, pasid := pasid.toNat, resultBase := base.toNat, fill := dFirst d } ∧
          t.sent = .completion id .ok false [] :: s.sent ∧ Only [.ep, .sent] s t) ∧
      (d.length ≠ 64 ∨ dWindow d = 0 ∨ (epWindow s (dWindow d)).isSome = true →
        exec (.epWindowBind id pasid d base) s = .next (emit (.completion id (.err errWindow 0) false []) s))) ∧
    (∀ (id : Nat) (tenant : Option (BitVec 4)) (permC : Bool) (window : BitVec 16) (step : BitVec 32) (offset : Nat) (lines : Bytes),
      (permC = false ∨ tenant = none → exec (.reduceStore id tenant permC window step offset lines) s =
        .next (emit (.completion id .perm false []) (bump 0x3402 0x19 s))) ∧
      (permC = true → tenant ≠ none →
        (epWindow s window.toNat = none → exec (.reduceStore id tenant permC window step offset lines) s =
          .next (emit (.completion id (.err errWindow 0) false []) s)) ∧
        (∀ x : EpWindow, epWindow s window.toNat = some x →
          (step.toNat = x.fill → slotPassed x offset lines = false → ∃ t : State, exec (.reduceStore id tenant permC window step offset lines) s = .next t ∧
            epWindow t window.toNat = some (writeLines x offset lines) ∧ t.sent = .completion id .ok false [] :: s.sent ∧ Only [.ep, .sent] s t) ∧
          (step.toNat < x.fill → exec (.reduceStore id tenant permC window step offset lines) s =
            .next (emit (.completion id .late false []) (bump 0x3402 0x14 s))) ∧
          (step.toNat = x.fill + 1 → ∃ t : State, exec (.reduceStore id tenant permC window step offset lines) s = .next t ∧
            epWindow t window.toNat = some { x with waiting := x.waiting ++ [{ id := id, step := step.toNat, offset := offset, lines := lines }] } ∧
            t.sent = s.sent ∧ Only [.ep] s t) ∧
          (x.fill + 1 < step.toNat → exec (.reduceStore id tenant permC window step offset lines) s =
            .next (emit (.completion id .ahead false []) (bump 0x3402 0x15 s)))))) ∧
    (∀ (id : Nat) (window : BitVec 16),
      (epWindow s window.toNat = none → exec (.stepFence id window) s = .next (emit (.completion id (.err errWindow 0) false []) s) ∧
        exec (.epCommit window) s = .next s) ∧
      (∀ x : EpWindow, epWindow s window.toNat = some x →
        (∃ t : State, exec (.stepFence id window) s = .next t ∧ epWindow t window.toNat = some { x with fences := x.fences ++ [id] } ∧ Only [.ep] s t) ∧
        (∀ tick n : Nat, tick = dStart x.desc + (s.time.ft - dStart x.desc) / s.time.round * s.time.round + dCommit x.desc →
          stepAt x.desc s.time.round tick = some n →
          (x.verdict = none → ∃ t : State, exec (.epCommit window) s = .next t ∧ t.time.ft = max s.time.ft tick ∧
            t.sent = (x.fences.map (fun i => Out.completion i (.stepFailed 7) false [])).reverse ++ .report "STEP_FAILED" window.toNat 7 :: s.sent ∧
            epWindow t window.toNat = some { x with
              rx := [], badChunks := [], verdict := none, fences := [] } ∧ t.bep = s.bep) ∧
          (∀ c : Cell, x.verdict = some c → c.op ≠ opERR → x.badChunks = [] → allReceived s window.toNat x = true → x.rx = [] →
            ∃ t : State, exec (.epCommit window) s = .next t ∧
              t.sent = (x.fences.map (fun i => Out.completion i .ok false [])).reverse ++ .report "step OK" window.toNat n :: s.sent))))) ∧
  (∀ s : State, keysRise s.ep.windows = true →
    (∀ (id round : Nat) (records : List (BitVec 128)) (arm : BitVec 64), ∃ t : State, exec (.epCalendarLoad id round records arm) s = .next t ∧
      (epBank t (epIdle s)).round = round ∧
      (epBank t (epIdle s)).records.map (fun r => r.2.2) = (records.map (fun r => r.extractLsb' 64 64)).filter (fun e => eInput e.toNat == 31) ∧
      epRecords t = epRecords s ∧ t.ep.armed = (if arm = 0 then none else some arm.toNat) ∧
      t.sent = .completion id .ok false [] :: s.sent ∧ Only [.ep, .sent] s t) ∧
    (s.ep.armed = none → exec .epCalendarSwitch s = .next s) ∧
    (∀ tick : Nat, s.ep.armed = some tick → ∃ t : State, exec .epCalendarSwitch s = .next t ∧ t.ep.activeBank = some (epIdle s) ∧ t.ep.armed = none ∧
      t.time.ft = max s.time.ft tick ∧ t.ep.windows.all (fun e => e.2.rx.isEmpty && e.2.verdict.isNone) = true ∧ Only [.time, .ep] s t) ∧
    (∀ offset : Nat,
      ((epRecords s).any (fun r => r.1 == offset && eKind r.2.2.toNat == 1) = false → exec (.epVc9Slot offset) s = .next s) ∧
      (∀ r : Nat × Nat × BitVec 64, (epRecords s).find? (fun r => r.1 == offset && eKind r.2.2.toNat == 1) = some r →
        ∀ x : EpWindow, epWindow s (eWindow r.2.2.toNat) = some x →
        ∀ n : Nat, stepAt x.desc s.time.round (slotTick s.time.ft s.time.round offset) = some n →
        ∀ c : ChunkCell, c = mapGetD x.cells (cellKey (eChunk r.2.2.toNat) (eCell r.2.2.toNat)) {} → x.waiting = [] →
        ((c.lo.isSome && c.hi.isSome) = true → ∃ t : State, exec (.epVc9Slot offset) s = .next t ∧
          (∃ y ∈ t.sent.take 2, y = .endPoint 31 (epCell s x (eChunk r.2.2.toNat) (eCell r.2.2.toNat))) ∧ t.dict = s.dict) ∧
        ((c.lo.isSome && c.hi.isSome) = false → ∃ t : State, exec (.epVc9Slot offset) s = .next t ∧
          odGet t 0x3402 0x16 = min (2 ^ 64 - 1) (odGet s 0x3402 0x16 + 1)))) ∧
    (∀ c : Cell,
      (epWindow s c.window.toNat = none ∨ expects s c = false → exec (.epVc10Receive c) s = .next (bump 0x3402 0x17 s)) ∧
      (∀ x : EpWindow, epWindow s c.window.toNat = some x → expects s c = true → s.time.ft % s.time.round ≤ dCommit x.desc →
        stepAt x.desc s.time.round s.time.ft = some c.aux.toNat → c.op = opRS → c.last = false → c.chunk.toNat ≤ 0x3FFFF → keysRise x.rx = true →
        ∃ t : State, exec (.epVc10Receive c) s = .next t ∧ Only [.ep] s t ∧
          (epWindow t c.window.toNat).map (fun y => mapGet y.rx (cellKey c.chunk.toNat c.cell.toNat)) = some (some (payloadBytes c)))))

/-- FILL_RSP_RECEIVE, FILL_RETRY (R197), INV_REQ_RECEIVE and INV_DONE_SEND (R198). -/
def Obligations.FillsAndInvalidations : Prop :=
  ∀ (tag : BitVec 12) (s : State), keysRise s.ep.fills = true → keysRise s.ep.invs = true →
    (mapGet s.ep.fills tag.toNat = none → exec (.fillRetry tag) s = .next s ∧
      ∀ (status : BitVec 2) (ppage : BitVec 52) (size : BitVec 2) (perms : BitVec 4), exec (.fillRspReceive tag status ppage size perms) s = .next s) ∧
    (∀ f : Fill, mapGet s.ep.fills tag.toNat = some f →
      (f.retries = 0 → exec (.fillRetry tag) s = .next s) ∧
      (0 < f.retries → exec (.fillRetry tag) s = .next (emit (.fillReq tag.toNat f.pasid f.vpage f.kind) s)) ∧
      (∀ (ppage : BitVec 52) (size : BitVec 2) (perms : BitVec 4), f.stale = false →
        (f.waiting = [] → ∃ t : State, exec (.fillRspReceive tag 0 ppage size perms) s = .next t ∧
          t.ep.cache.head? = some
            { pasid := f.pasid, log2 := fillLog2 size.toNat, vpage := f.vpage, ppage := ppage.toNat, r := perms.getLsbD 0, w := perms.getLsbD 1,
              a := perms.getLsbD 2, c := perms.getLsbD 3 } ∧ mapGet t.ep.fills tag.toNat = none ∧ Only [.ep] s t) ∧
        (f.retries < 16 → ∃ t : State, exec (.fillRspReceive tag 2 ppage size perms) s = .next t ∧
          mapGet t.ep.fills tag.toNat = some { f with retries := f.retries + 1 } ∧ Only [.ep] s t) ∧
        (∀ status ∈ ([1, 3] : List (BitVec 2)), f.waiting.all (fun c => c.use == .agent) = true →
          ∃ t : State, exec (.fillRspReceive tag status ppage size perms) s = .next t ∧ mapGet t.ep.fills tag.toNat = none ∧
            t.sent = (f.waiting.map (fun c => Out.completion c.cmd.id .xlate false [])).reverse ++ .report "translation fault" f.pasid f.vpage :: s.sent ∧
            Only [.ep, .sent] s t))) ∧
    (∀ (pasid : BitVec 20) (base : BitVec 64) (pages : Nat), ∃ t : State, exec (.invReqReceive tag pasid base pages) s = .next t ∧
      (∀ e ∈ s.ep.cache, e ∈ t.ep.cache ↔ rangeMeets pasid.toNat (base.toNat / 4096) pages e.pasid e.log2 e.vpage = false) ∧
      (t.ep.fills.all (fun e => e.2.stale || !rangeMeets pasid.toNat (base.toNat / 4096) pages e.2.pasid 12 e.2.vpage) = true) ∧
      mapGet t.ep.invs tag.toNat = some (pasid.toNat, base.toNat / 4096, pages) ∧ Only [.ep] s t) ∧
    (mapGet s.ep.invs tag.toNat = none → exec (.invDoneSend tag) s = .next s) ∧
    (∀ r : Nat × Nat × Nat, mapGet s.ep.invs tag.toNat = some r →
      (s.ep.waiting = [] → ∃ t : State, exec (.invDoneSend tag) s = .next t ∧ t.sent = .invDone tag.toNat :: s.sent ∧
        mapGet t.ep.invs tag.toNat = none ∧ Only [.ep, .sent] s t) ∧
      (s.ep.waiting.any (fun c => c.use == .agent && rangeMeets r.1 r.2.1 r.2.2 c.cmd.pasid.toNat 12 (c.cmd.addr.toNat / 4096)) = true →
        exec (.invDoneSend tag) s = .next s))

/-- The calendar's commands (R237–R241). -/
def Obligations.CalendarBanksLoadSealAndSwitch : Prop :=
  ∀ (src : Route) (s : State),
    (∀ v : BitVec 8,
      ((calBank s (idleNo s)).state = .armed → exec (.calendarBeginLoad src v) s = .next (refuseRule s)) ∧
      ((calBank s (idleNo s)).state ≠ .armed → ∃ t : State, exec (.calendarBeginLoad src v) s = .next t ∧
        calBank t (idleNo s) = { state := .loading } ∧ calBank t (1 - idleNo s) = calBank s (1 - idleNo s) ∧ t.cal.image = [] ∧ t.cal.loadError = 0 ∧
        Only [.cal, .dict, .host, .sent] s t) ∧
      ((calBank s (idleNo s)).state ≠ .loading → exec (.calendarSeal src v) s = .next (refuseRule s)) ∧
      ((calBank s (idleNo s)).state = .loading → s.cal.image.length < 128 ∨ s.cal.image.length < fieldAt s.cal.image 12 4 →
        ∃ t : State, exec (.calendarSeal src v) s = .next t ∧ calBank t (idleNo s) = {} ∧ t.cal.loadError = 8 ∧ t.dict.status = 2 ∧
          calBank t (1 - idleNo s) = calBank s (1 - idleNo s)) ∧
      ((calBank s (idleNo s)).state = .loading → 128 ≤ s.cal.image.length → fieldAt s.cal.image 12 4 ≤ s.cal.image.length →
        ∃ t : State, exec (.calendarSeal src v) s = .next t ∧ (calBank t (idleNo s)).state = .sealed ∧
          (calBank t (idleNo s)).round = 2 ^ fieldAt s.cal.image 7 1 ∧ (calBank t (idleNo s)).imageId = BitVec.ofNat 64 (fieldAt s.cal.image 16 8) ∧
          (calBank t (idleNo s)).image = s.cal.image ∧ t.cal.stored = (calBank t (idleNo s)).slots.length ∧
          calBank t (1 - idleNo s) = calBank s (1 - idleNo s) ∧ Only [.cal, .dict, .host, .sent] s t)) ∧
    (∀ data : Bytes,
      ((calBank s (idleNo s)).state ≠ .loading → exec (.calendarDataWrite src data) s = .next (refuseRule s)) ∧
      ((calBank s (idleNo s)).state = .loading →
        (imageError s (s.cal.image ++ data) = 0 → ∃ t : State, exec (.calendarDataWrite src data) s = .next t ∧
          t.cal = { s.cal with image := s.cal.image ++ data } ∧ t.dict.status = 0 ∧ Only [.cal, .dict] s t) ∧
        (imageError s (s.cal.image ++ data) ≠ 0 → ∃ t : State, exec (.calendarDataWrite src data) s = .next t ∧
          calBank t (idleNo s) = {} ∧ calBank t (1 - idleNo s) = calBank s (1 - idleNo s) ∧
          t.cal.loadError = imageError s (s.cal.image ++ data) ∧ t.dict.status = 2 ∧ Only [.cal, .dict] s t))) ∧
    (∀ v : BitVec 64,
      ((calBank s (idleNo s)).state = .armed → v = 0 → ∃ t : State, exec (.calendarArm src v) s = .next t ∧
        calBank t (idleNo s) = { calBank s (idleNo s) with state := .sealed } ∧ odGet t 0x4100 5 = 0) ∧
      ((calBank s (idleNo s)).state = .sealed → ∃ t : State, exec (.calendarArm src v) s = .next t ∧
        odGet t 0x4100 5 = armTick s.time.ft (calBank s (idleNo s)).round v.toNat ∧
        calBank t (idleNo s) = { calBank s (idleNo s) with
          state := if armTick s.time.ft (calBank s (idleNo s)).round v.toNat = 0 then .sealed else .armed } ∧
        calBank t (1 - idleNo s) = calBank s (1 - idleNo s) ∧ OnlyEntries [(0x4100, 5), (0x1F00, 3)] s t ∧ Only [.cal, .dict, .host, .sent] s t) ∧
      ((calBank s (idleNo s)).state ≠ .sealed → (calBank s (idleNo s)).state ≠ .armed ∨ v ≠ 0 →
        ∃ t : State, exec (.calendarArm src v) s = .next t ∧ t.dict = (refuseRule s).dict ∧ t.cal = { s.cal with roundConflict := false })) ∧
    ((calBank s (idleNo s)).state ≠ .armed → exec .calendarBankSwitch s = .next s) ∧
    ((calBank s (idleNo s)).state = .armed → odGet s 0x4000 5 ≠ odGet s 0x4100 5 →
      ((calBank s (idleNo s)).round = s.time.round → ∃ t : State, exec .calendarBankSwitch s = .next t ∧
        t.time.ft = max s.time.ft (odGet s 0x4100 5) ∧ activeNo t = some (idleNo s) ∧
        calBank t (idleNo s) = { calBank s (idleNo s) with state := .active } ∧
        (calBank t (1 - idleNo s)).state = (if activeNo s = some (1 - idleNo s) then .sealed else (calBank s (1 - idleNo s)).state) ∧
        t.cal.sbufs = [] ∧ odGet t 0x4100 5 = 0) ∧
      ((calBank s (idleNo s)).round ≠ s.time.round → ∃ t : State, exec .calendarBankSwitch s = .next t ∧ t.cal.roundConflict = true ∧
        calBank t (idleNo s) = { calBank s (idleNo s) with state := .sealed } ∧ t.cal.sbufs = s.cal.sbufs))

/-- SNP_RECEIVE (R210), SNR_RECEIVE (R209, R219), PROBE_TIMEOUT (R219), FORWARD_TIMEOUT (R214). -/
def Obligations.MembersAnswerProbes : Prop :=
  ∀ s : State, keysRise s.grotto.held = true → keysRise s.grotto.lines = true → keysRise s.grotto.probes = true →
    (∀ (p : PortN) (c : Cell) (key : Nat), key = 8 * windowLine (BitVec.ofNat 16 c.aux.toNat) (cellOff c) + p.val →
      ∀ h : MemberState × Bytes, h = mapGetD s.grotto.held key (.i, []) →
      ∃ t : State, exec (.snpReceive p c) s = .next t ∧ Only [.grotto, .sent] s t ∧
        (t.sent.head?.map (fun o => match o with
          | .endPoint q r => q == p.val && r.op == opSNR && r.tag == c.tag && cellDest r == c.src
              && (if h.1 = .m ∧ (c.sub = 1 ∨ c.sub = 2 ∨ c.sub = 3) then r.sub == 2 && r.len == 1 && r.payload == slice h.2 0 128 else r.sub == 1 && r.len == 0)
          | _ => false)) = some true ∧
        (c.sub = 1 → mapGet t.grotto.held key = none) ∧
        (c.sub = 2 → h.1 = .e ∨ h.1 = .m → mapGet t.grotto.held key = some (.s, h.2)) ∧
        (c.sub = 3 → mapGetD t.grotto.held key (.i, []) = h ∨ h.1 = .i) ∧
        (∀ j : Nat, j ≠ key → mapGet t.grotto.held j = mapGet s.grotto.held j)) ∧
    (∀ c : Cell,
      (mapGet s.grotto.probes c.tag.toNat = none → ∃ t : State, exec (.snrReceive c) s = .next t ∧
        odGet t 0x3500 0x1B = min (2 ^ 64 - 1) (odGet s 0x3500 0x1B + 1) ∧ Only [.ports, .dict] s t) ∧
      (∀ p : Probe, mapGet s.grotto.probes c.tag.toNat = some p →
        (p.member ≠ coordP c.src ∨ s.grotto.lostMask.toNat.testBit p.member = true → ∃ t : State, exec (.snrReceive c) s = .next t ∧
          odGet t 0x3500 0x1B = min (2 ^ 64 - 1) (odGet s 0x3500 0x1B + 1) ∧ Only [.ports, .dict] s t) ∧
        (p.member = coordP c.src → s.grotto.lostMask.toNat.testBit p.member = false → s.grotto.work = [] →
          ∀ b : Busy, mapGet s.grotto.lines p.line = some b → (b.waits.erase c.tag.toNat).isEmpty = false →
          ∃ t : State, exec (.snrReceive c) s = .next t ∧ mapGet t.grotto.probes c.tag.toNat = none ∧
            mapGet t.grotto.lines p.line = some { b with
              waits := b.waits.erase c.tag.toNat, data := b.data.or (if c.sub = 2 then some (payloadLine c 0) else none) }))) ∧
    (∀ tag : BitVec 16,
      (mapGet s.grotto.probes tag.toNat = none → exec (.probeTimeout tag) s = .next s) ∧
      (∀ p : Probe, mapGet s.grotto.probes tag.toNat = some p → dirEnabled s = true → p.member < 8 →
        ∃ t : State, exec (.probeTimeout tag) s = .next t ∧ t.grotto.lostMask = s.grotto.lostMask ||| oneMember p.member ∧
          (p.member, 0) ∈ t.grotto.walks)) ∧
    (∀ e : Nat,
      (mapGet s.grotto.lines e = none → exec (.forwardTimeout e) s = .next s) ∧
      (∀ b : Busy, mapGet s.grotto.lines e = some b →
        (b.owed = false → exec (.forwardTimeout e) s = .next s) ∧
        (b.owed = true → ∃ t : State, exec (.forwardTimeout e) s = .next t ∧
          (mapGet t.grotto.lines e = none ∨ mapGet t.grotto.lines e = some { b with owed := false }) ∧
          odGet t 0x3500 0x1E = min (2 ^ 64 - 1) (odGet s 0x3500 0x1E + 1))))

/-- DIRECTORY_ACCESS (R209, R212), LOSS_WALK_STEP (R219), DIRECTORY_ENABLE, DIRECTORY_DISABLE and RECALL (R218). -/
def Obligations.DirectoryAccessAndWalks : Prop :=
  ∀ s : State, keysRise s.grotto.dir = true →
    (s.grotto.pending = [] → s.grotto.work = [] → exec .directoryAccess s = .next s) ∧
    (∀ x : Nat × QEntry, s.grotto.pending.head? = some x → s.grotto.pending.length = 1 → s.grotto.work = [] → s.grotto.lines = [] → s.grotto.walks = [] →
      ∀ k : Nat, windowOfCell s x.2.cell = some k → x.2.cell.op = opST →
      (dirEntry s (entryIndex (winEntry s k) (cellOff x.2.cell))).st = .i →
      ∃ t : State, exec .directoryAccess s = .next t ∧ t.grotto.pending = [] ∧
        (mapGet t.grotto.lines (entryIndex (winEntry s k) (cellOff x.2.cell))).map (fun b => b.owed) = some true ∧
        odGet t 0x3500 0x13 = min (2 ^ 64 - 1) (odGet s 0x3500 0x13 + 1)) ∧
    (s.grotto.walks = [] → s.grotto.work = [] → exec .lossWalkStep s = .next s) ∧
    (∀ w : Nat × Nat, s.grotto.walks.head? = some w → s.grotto.walks.length = 1 → s.grotto.work = [] →
      (nextWalked s w.2 = none → ∃ t : State, exec .lossWalkStep s = .next t ∧ t.grotto.walks = [] ∧
        t.grotto.lostMask = s.grotto.lostMask &&& ~~~(oneMember w.1) ∧ t.grotto.dir = s.grotto.dir ∧ Only [.grotto] s t) ∧
      (∀ start : Nat, nextWalked s w.2 = some start → (homed s).all (fun k => winAcc (winEntry s k) != w.1) = true →
        ∃ t : State, exec .lossWalkStep s = .next t ∧ t.grotto.walks = [(w.1, start + 64)] ∧
          (∀ j : Fin 64, (dirEntry s (start + j.val)).st = .em → (dirEntry s (start + j.val)).members.toNat.testBit w.1 = true →
            dirEntry t (start + j.val) = { st := .lost }))) ∧
    (∀ (src : Route) (v : BitVec 8),
      (v ≠ 0 → ∃ t : State, exec (.directoryEnable src v) s = .next t ∧ dirEnabled t = true ∧
        (dirEnabled s = true → t.grotto = s.grotto) ∧
        (dirEnabled s = false → t.grotto.dir = [] ∧ t.grotto.lines = [] ∧ t.grotto.probes = [] ∧ t.grotto.walks = [] ∧ t.grotto.lostMask = 0) ∧
        OnlyEntries [(0x3500, 1), (0x1F00, 3)] s t) ∧
      (v = 0 → (linesHeld s || walkRuns s) = true → exec (.directoryDisable src v) s = .next (refuseRule s)) ∧
      (v = 0 → (linesHeld s || walkRuns s) = false → ∃ t : State, exec (.directoryDisable src v) s = .next t ∧ dirEnabled t = false ∧
        Only [.dict] s t) ∧
      ((!dirEnabled s || walkRuns s) = true → ∃ t : State, exec (.recall src v) s = .next t ∧ Only [.dict, .host, .sent] s t) ∧
      (∀ (e : Nat) (m : Fin 8), dirEnabled s = true → s.grotto.walks = [] → s.grotto.work = [] → s.grotto.lines = [] → s.grotto.probes = [] →
        s.grotto.lostMask = 0 → s.grotto.dir = [(e, { st := .em, members := oneMember m.val })] →
        ∃ t : State, exec (.recall src v) s = .next t ∧
          t.grotto.probes = [(s.grotto.nextProbe % 65536, { member := m.val, line := e, kind := 1 })] ∧
          t.grotto.lines = [(e, { kind := 1, waits := [s.grotto.nextProbe % 65536] })]))

/-- Class 0 (R254, R263, R264, R284). -/
def Obligations.IntegerLanes : Prop :=
  ∀ (w : StreamId) (f : IFields) (s : State),
    (ready s w = true → f.ty.toNat ≤ 1 → f.imm.toNat < 2 ^ 16 →
      (∀ x ∈ ([(.intAdd w f, fun a b => a + b), (.intSub w f, fun a b => a - b), (.intMullo w f, fun a b => a * b),
          (.intAnd w f, fun a b => a &&& b), (.intOr w f, fun a b => a ||| b), (.intXor w f, fun a b => a ^^^ b),
          (.intShl w f, fun a _ => a <<< f.imm.toNat), (.intShr w f, fun a _ => a >>> f.imm.toNat),
          (.intSar w f, fun a _ => a.sshiftRight f.imm.toNat), (.intMov w f, fun a _ => a),
          (.intMin w f, fun a b => if f.ty = 0 then (if b.slt a then b else a) else (if b.ult a then b else a)),
          (.intMax w f, fun a b => if f.ty = 0 then (if a.slt b then b else a) else (if a.ult b then b else a))]
          : List (Instr × (BitVec 32 → BitVec 32 → BitVec 32))),
        ∃ t : State, exec x.1 s = .next t ∧
          LanesWritten w f (fun i => x.2 (BitVec.ofNat 32 (vLane (streamAt s w) f.a i.val)) (BitVec.ofNat 32 (vLane (streamAt s w) f.b i.val))) s t) ∧
      (f.imm.toNat < 2 ^ 15 → ∃ t : State, exec (.intMovi w f) s = .next t ∧ LanesWritten w f (fun _ => BitVec.ofNat 32 f.imm.toNat) s t) ∧
      (2 ^ 15 ≤ f.imm.toNat → ∃ t : State, exec (.intMovi w f) s = .next t ∧ GoneOn w s t ∧ Only [.cmp, .lantern, .free] s t ∧
        ∀ (r : BitVec 5) (i : Fin 16), (r = f.d ∧ laneOn (streamAt s w) f i.val = true → vLane (streamAt t w) r i.val % 2 ^ 16 = f.imm.toNat) ∧
          (¬ (r = f.d ∧ laneOn (streamAt s w) f i.val = true) → vLane (streamAt t w) r i.val = vLane (streamAt s w) r i.val))) ∧
    (∀ x ∈ ([.intAdd w f, .intSub w f, .intMullo w f, .intAnd w f, .intOr w f, .intXor w f, .intShl w f, .intShr w f, .intSar w f,
        .intMin w f, .intMax w f, .intMov w f, .intMovi w f] : List Instr),
      (ready s w = true → (1 < f.ty.toNat ∨ 2 ^ 16 ≤ f.imm.toNat) → ∃ t : State, exec x s = .next t ∧ FaultsWith w 1 s t) ∧
      (ready s w = false → exec x s = .next s))

/-- Class 1 (R263, R264, R284, R285). -/
def Obligations.ComparesSelectAndConversion : Prop :=
  ∀ (w : StreamId) (f : IFields) (s : State),
    (ready s w = true → f.ty.toNat ≤ 6 → f.imm.toNat < 8 →
      (f.d.toNat < 8 →
        (∀ x ∈ ([(.cmpEq w f, fun a b => a == b, fun a b => eqFV a b, false),
            (.cmpNe w f, fun a b => a != b, fun a b => !eqFV a b, true),
            (.cmpLt w f, fun a b => if f.ty = 0 then a.slt b else a.ult b, fun a b => ltFV a b, false),
            (.cmpLe w f, fun a b => if f.ty = 0 then a.sle b else a.ule b, fun a b => ltFV a b || eqFV a b, false)]
            : List (Instr × (BitVec 32 → BitVec 32 → Bool) × (FV → FV → Bool) × Bool)),
          (f.ty.toNat ≤ 1 → ∃ t : State, exec x.1 s = .next t ∧ BitsWritten w f (fun i =>
            x.2.1 (BitVec.ofNat 32 (vLane (streamAt s w) f.a i.val)) (BitVec.ofNat 32 (vLane (streamAt s w) f.b i.val))) s t) ∧
          (2 ≤ f.ty.toNat → ∀ m : Fmt, fmtOf f.ty.toNat 0 = some m → ∃ t : State, exec x.1 s = .next t ∧ BitsWritten w f (fun i =>
            let a := decodeFV m (vLane (streamAt s w) f.a i.val % 2 ^ m.bits)
            let b := decodeFV m (vLane (streamAt s w) f.b i.val % 2 ^ m.bits)
            if a = .nan ∨ b = .nan then x.2.2.2 else x.2.2.1 a b) s t))) ∧
      (f.c.toNat < 8 → ∃ t : State, exec (.cmpSel w f) s = .next t ∧ LanesWritten w f (fun i =>
        BitVec.ofNat 32 (if (pReg (streamAt s w) f.c.toNat).getLsbD i.val then vLane (streamAt s w) f.a i.val else vLane (streamAt s w) f.b i.val)) s t)) ∧
    (ready s w = true →
      ((cvtFields f 0 0).isSome = true → ∃ t : State, exec (.cvt w f) s = .next t ∧ LanesWritten w f (fun i =>
        BitVec.ofNat 32 ((cvtFields f (vLane (streamAt s w) f.b i.val % 256) (vLane (streamAt s w) f.a i.val)).getD 0)) s t) ∧
      (cvtFields f 0 0 = none → ∃ t : State, exec (.cvt w f) s = .next t ∧ FaultsWith w 1 s t)) ∧
    (∀ x ∈ ([.cmpEq w f, .cmpNe w f, .cmpLt w f, .cmpLe w f, .cmpSel w f, .cvt w f] : List Instr), ready s w = false → exec x s = .next s) ∧
    (∀ x ∈ ([.cmpEq w f, .cmpNe w f, .cmpLt w f, .cmpLe w f, .cmpSel w f] : List Instr), ready s w = true → (f.ty = 7 ∨ 8 ≤ f.imm.toNat) →
      ∃ t : State, exec x s = .next t ∧ FaultsWith w 1 s t)

/-- Classes 2 and 3 (R263, R264, R283, R284, R286–R288). -/
def Obligations.FloatAndDotLanes : Prop :=
  ∀ (w : StreamId) (f : IFields) (s : State),
    (ready s w = true →
      ∀ (m : Fmt), fmtOf f.ty.toNat 0 = some m → f.ty.toNat ≤ 4 →
        (∀ mode : Mode, modeOf f.imm.toNat = some mode →
          ∀ x ∈ ([(.fma w f, fun a b c => sumFV mode [mulFV a b, c]), (.fmul w f, fun a b _ => mulFV a b),
              (.fadd w f, fun a b _ => sumFV mode [a, b])] : List (Instr × (FV → FV → FV → FV))),
            ∃ t : State, exec x.1 s = .next t ∧ LanesWritten w f (fun i => BitVec.ofNat 32 (roundFV m mode false
              (x.2 (decodeFV m (vLane (streamAt s w) f.a i.val % 2 ^ m.bits)) (decodeFV m (vLane (streamAt s w) f.b i.val % 2 ^ m.bits))
                (decodeFV m (vLane (streamAt s w) f.c i.val % 2 ^ m.bits))))) s t) ∧
        (f.imm.toNat < 8 →
          (∀ x ∈ ([(.fmin w f, false), (.fmax w f, true)] : List (Instr × Bool)),
            ∃ t : State, exec x.1 s = .next t ∧ LanesWritten w f (fun i => BitVec.ofNat 32 (roundFV m .rne false
              (minmaxFV x.2 (decodeFV m (vLane (streamAt s w) f.a i.val % 2 ^ m.bits)) (decodeFV m (vLane (streamAt s w) f.b i.val % 2 ^ m.bits))))) s t) ∧
          (5 ≤ f.imm.toNat → ∀ x ∈ ([.fma w f, .fmul w f, .fadd w f] : List Instr), ∃ t : State, exec x s = .next t ∧ FaultsWith w 1 s t))) ∧
    (ready s w = true → (f.ty.toNat < 2 ∨ 4 < f.ty.toNat) → ∀ x ∈ ([.fma w f, .fmul w f, .fadd w f, .fmin w f, .fmax w f] : List Instr),
      ∃ t : State, exec x s = .next t ∧ FaultsWith w 1 s t) ∧
    (ready s w = true → ∀ op : BitVec 6,
      ∀ x ∈ ([(.dot8 w f, 0), (.dot8Mx w op f, op.toNat)] : List (Instr × Nat)),
        (∀ (m : Fmt) (scaled : Bool), dotKind x.2 f = some (m, scaled) → ∃ t : State, exec x.1 s = .next t ∧
          LanesWritten w f (fun i => BitVec.ofNat 32 (roundFV fp32 .rne false (dotSum m scaled f (streamAt s w) i.val))) s t) ∧
        (dotKind x.2 f = none → ∃ t : State, exec x.1 s = .next t ∧ FaultsWith w 1 s t)) ∧
    (ready s w = false → ∀ op : BitVec 6, ∀ x ∈ ([.fma w f, .fmul w f, .fadd w f, .fmin w f, .fmax w f, .dot8 w f, .dot8Mx w op f] : List Instr),
      exec x s = .next s)

/-- Class 4 (R264, R291–R296, R302). -/
def Obligations.AccumulatorsAddExactly : Prop :=
  ∀ (w : StreamId) (f : IFields) (s : State), ∀ x : Stream, x = streamAt s w → ∀ first : Nat,
    first = ctxAccs (slotKey w) + (sReg x f.b).toNat + f.imm.toNat % 2 ^ 20 →
    ∀ low legalAdd legalLoad legalRound : Bool, low = decide (f.imm.toNat < 2 ^ 20) →
    legalAdd = (f.ty != 1 && bits f.imm.toNat 20 3 == 0 && (if f.ty = 7 then bits f.imm.toNat 24 2 != 3 else bits f.imm.toNat 24 2 == 0)
      && (!bit f.imm.toNat 23 || decide (5 ≤ f.ty.toNat))) →
    legalLoad = (f.ty != 1 && decide (f.ty.toNat ≤ 4) && low) →
    legalRound = (decide (2 ≤ f.ty.toNat) && decide (f.ty.toNat ≤ 4) && decide (bits f.imm.toNat 20 3 ≤ 4) && decide (f.imm.toNat < 2 ^ 23)) →
    (ready s w = true →
      ((∀ i : Fin 16, laneOn x f i.val = true → (sReg x f.b).toNat + f.imm.toNat % 2 ^ 20 + i.val < (ctxAt s (slotKey w)).accCount) →
        (∀ y ∈ ([(.accAdd w f, legalAdd, fun i a => accAdd a (accTerm f x i)), (.accZero w f, low, fun _ _ => { n := 0, st := .finite, ovf := false }),
            (.accLoad w f, legalLoad, fun i _ => accLoad ((readFV f.ty.toNat 0 (vLane x f.a i)).getD .nan))] : List (Instr × Bool × (Nat → Acc → Acc))),
          y.2.1 = true → ∃ t : State, exec y.1 s = .next t ∧ Only [.cmp, .lantern] s t ∧ Passed w s t ∧ t.cmp.sp = s.cmp.sp ∧
            ∀ j : Nat, accAt t j = if first ≤ j ∧ j < first + 16 ∧ laneOn x f (j - first) = true then y.2.2 (j - first) (accAt s j) else accAt s j) ∧
        (legalRound = true → ∀ (m : Fmt) (mode : Mode), fmtOf f.ty.toNat 0 = some m → modeOf (bits f.imm.toNat 20 3) = some mode →
          ∃ t : State, exec (.accRound w f) s = .next t ∧ Only [.cmp, .lantern, .dict] s t ∧ StreamOnly w s t ∧ GoneOn w s t ∧
            LanesHold w f (fun i => BitVec.ofNat 32 (accRound m mode (accAt s (first + i.val)))) s t ∧
            (odGet s 0x5005 0x13 < 2 ^ 63 → odGet t 0x5005 0x13 = odGet s 0x5005 0x13 +
              (indices 16 (fun i => laneOn x f i && (accAt s (first + i)).st == .finite && (accAt s (first + i)).ovf)).length))) ∧
      (∀ y ∈ ([(.accAdd w f, legalAdd), (.accZero w f, low), (.accLoad w f, legalLoad), (.accRound w f, legalRound)] : List (Instr × Bool)),
        (y.2 = true → ∀ i : Fin 16, laneOn x f i.val = true → (ctxAt s (slotKey w)).accCount ≤ (sReg x f.b).toNat + f.imm.toNat % 2 ^ 20 + i.val →
          ∃ t : State, exec y.1 s = .next t ∧ FaultsWith w 7 s t) ∧
        (y.2 = false → ∃ t : State, exec y.1 s = .next t ∧ FaultsWith w 1 s t))) ∧
    (ready s w = false → ∀ y ∈ ([.accAdd w f, .accZero w f, .accLoad w f, .accRound w f] : List Instr), exec y s = .next s)

/-- Class 5 (R248, R252, R264, R274). -/
def Obligations.ScratchpadLoadsAndStores : Prop :=
  ∀ (w : StreamId) (f : IFields) (s : State), ∀ x : Stream, x = streamAt s w →
    ∀ first : Nat, first = slotKey w / 4 * 2 ^ 20 + descField (ctxAt s (slotKey w)) 24 2 * 4096 →
    ∀ size : Nat, size = descField (ctxAt s (slotKey w)) 26 2 * 4096 →
    ∀ vec : Nat → Nat, vec = (fun i => ((sReg x f.a).toNat + f.imm.toNat + 4 * i) % 2 ^ 64) →
    ∀ cast : Nat → Nat, cast = (fun _ => ((sReg x f.a).toNat + f.imm.toNat) % 2 ^ 64) →
    ∀ gather : Nat → Nat, gather = (fun i => ((sReg x f.a).toNat + vLane x f.b i) % 2 ^ 64) →
    (ready s w = true → f.imm.toNat < 2 ^ 20 →
      (∀ y ∈ ([(.spmLd w f, vec), (.spmLdb w f, cast), (.spmLdg w f, gather)] : List (Instr × (Nat → Nat))),
        (∀ i : Fin 16, laneOn x f i.val = true → y.2 i.val % 4 = 0 ∧ y.2 i.val + 4 ≤ size) →
        ∃ t : State, exec y.1 s = .next t ∧ LanesWritten w f (fun i => BitVec.ofNat 32 (leNat (spGet s (first + y.2 i.val) 4))) s t) ∧
      (∀ y ∈ ([(.spmSt w f, vec, f.b), (.spmStg w f, gather, f.c)] : List (Instr × (Nat → Nat) × BitVec 5)),
        (∀ i : Fin 16, laneOn x f i.val = true → y.2.1 i.val % 4 = 0 ∧ y.2.1 i.val + 4 ≤ size) →
        ∃ t : State, exec y.1 s = .next t ∧ Only [.cmp, .lantern] s t ∧ Passed w s t ∧ t.cmp.accs = s.cmp.accs ∧
          ∀ a : Nat, mapGetD t.cmp.sp a 0 =
            match (List.range 16).reverse.find? (fun i => laneOn x f i && decide (first + y.2.1 i ≤ a) && decide (a < first + y.2.1 i + 4)) with
            | some i => (natLe 4 (vLane x y.2.2 i)).getD (a - (first + y.2.1 i)) 0
            | none => mapGetD s.cmp.sp a 0) ∧
      (∀ y ∈ ([(.spmLd w f, vec), (.spmLdb w f, cast), (.spmLdg w f, gather), (.spmSt w f, vec), (.spmStg w f, gather)] : List (Instr × (Nat → Nat))),
        (∀ i : Fin 16, laneOn x f i.val = true → y.2 i.val % 4 ≠ 0 → ∃ t : State, exec y.1 s = .next t ∧ FaultsWith w 3 s t) ∧
        ((∀ i : Fin 16, laneOn x f i.val = true → y.2 i.val % 4 = 0) → ∀ i : Fin 16, laneOn x f i.val = true → size < y.2 i.val + 4 →
          ∃ t : State, exec y.1 s = .next t ∧ FaultsWith w 2 s t))) ∧
    (∀ y ∈ ([.spmLd w f, .spmLdb w f, .spmLdg w f, .spmSt w f, .spmStg w f] : List Instr),
      (ready s w = true → 2 ^ 20 ≤ f.imm.toNat → ∃ t : State, exec y s = .next t ∧ FaultsWith w 1 s t) ∧
      (ready s w = false → exec y s = .next s))

/-- MEM ld, ldg, ldv and lda (R251, R264, R268–R271). -/
def Obligations.StreamLoadsFromMemory : Prop :=
  ∀ (w : StreamId) (f : IFields) (s : State), ∀ x : Stream, x = streamAt s w →
    ∀ word : Nat, word = ((sReg x f.a).toNat + f.imm.toNat % 2 ^ 21) % 2 ^ 64 →
    ∀ vec : Nat → Nat, vec = (fun i => (word + 4 * i) % 2 ^ 64) →
    ∀ gather : Nat → Nat, gather = (fun i => ((sReg x f.a).toNat + vLane x f.b i) % 2 ^ 64) →
    (ready s w = true → memLegal f = true →
      (∀ y ∈ ([(.memLd w f, vec), (.memLdg w f, gather), (.memLdv w f, vec)] : List (Instr × (Nat → Nat))),
        (∀ i : Fin 16, laneOn x f i.val = true → y.2 i.val % 4 ≠ 0 → ∃ t : State, exec y.1 s = .next t ∧ FaultsWith w 3 s t) ∧
        ((∀ i : Fin 16, laneOn x f i.val = true → y.2 i.val % 4 = 0) →
          ∀ p : List (Nat × Nat), (placesOf w f 1 ((lanesOn x f).map (fun i => (i, y.2 i))) s).1 = some p →
            (y.1 ≠ .memLdv w f → (∀ e ∈ p, (cacheLine s (cacheKey w.core.val (memSpace f) (lineNo (memSpace f) e.2))).any (fun l => l.valid) = true) →
              ∃ t : State, exec y.1 s = .next t ∧ LanesHold w f (fun i => BitVec.ofNat 32
                (leNat (cacheBytes s w.core.val (memSpace f) (placed p (y.2 i.val)) 4))) s t ∧ GoneOn w s t ∧
                (streamAt t w).s = (streamAt s w).s ∧ (streamAt t w).p = (streamAt s w).p ∧ t.mem = s.mem) ∧
            (memSpace f = 1 → coreLines s w.core.val (fun _ => true) = [] → (∀ e ∈ p, e.2 % 128 = 0) →
              (∀ e ∈ p, memRefusal s (ctxAt s (slotKey w)).tenant (lineNo 1 e.2) = none ∧ lineBad s (lineNo 1 e.2) = false) →
              ∃ t : State, exec y.1 s = .next t ∧ LanesHold w f (fun i => BitVec.ofNat 32
                (fieldAt (lineBytes s (lineNo 1 (placed p (y.2 i.val)))) (y.2 i.val % 128) 4)) s t ∧
                (streamAt t w).pc = (streamAt s w).pc + 1 ∧ (streamAt t w).s = (streamAt s w).s ∧ (streamAt t w).p = (streamAt s w).p ∧
                t.mem.cells = s.mem.cells))) ∧
      (memScope f ≤ 5 →
        (word % 8 ≠ 0 → ∃ t : State, exec (.memLda w f) s = .next t ∧ FaultsWith w 3 s t) ∧
        (word % 8 = 0 → ∀ p : List (Nat × Nat), (placesOf w f 1 [(0, word)] s).1 = some p → memSpace f = 1 →
          coreLines s w.core.val (fun _ => true) = [] → s.bep.releases = [] → (∀ e ∈ p, e.2 % 128 = 0) →
          (∀ e ∈ p, memRefusal s (ctxAt s (slotKey w)).tenant (lineNo 1 e.2) = none ∧ lineBad s (lineNo 1 e.2) = false) →
          ∃ t : State, exec (.memLda w f) s = .next t ∧
            (∀ r : BitVec 5, sReg (streamAt t w) r = if r = f.d ∧ r ≠ 0
              then BitVec.ofNat 64 (fieldAt (lineBytes s (lineNo 1 (placed p word))) (word % 128) 8) else sReg x r) ∧
            (streamAt t w).pc = x.pc + 1 ∧ (streamAt t w).v = x.v ∧ (streamAt t w).p = x.p ∧ t.mem.cells = s.mem.cells)) ∧
      (5 < memScope f → ∃ t : State, exec (.memLda w f) s = .next t ∧ FaultsWith w 1 s t)) ∧
    (∀ y ∈ ([.memLd w f, .memLdg w f, .memLdv w f, .memLda w f] : List Instr),
      (ready s w = true → memLegal f = false → ∃ t : State, exec y s = .next t ∧ FaultsWith w 1 s t) ∧
      (ready s w = false → exec y s = .next s))

/-- MEM st, stg, stv, stl, stf, at, rel and acq (R251, R264, R268–R271). -/
def Obligations.StreamStoresToMemory : Prop :=
  ∀ (w : StreamId) (f : IFields) (s : State), ∀ x : Stream, x = streamAt s w →
    ∀ word : Nat, word = ((sReg x f.a).toNat + f.imm.toNat % 2 ^ 21) % 2 ^ 64 →
    ∀ vec : Nat → Nat, vec = (fun i => (word + 4 * i) % 2 ^ 64) →
    ∀ gather : Nat → Nat, gather = (fun i => ((sReg x f.a).toNat + vLane x f.b i) % 2 ^ 64) →
    (ready s w = true → memLegal f = true →
      (∀ y ∈ ([(.memSt w f, vec, f.b), (.memStg w f, gather, f.c), (.memStv w f, vec, f.b)] : List (Instr × (Nat → Nat) × BitVec 5)),
        (∀ i : Fin 16, laneOn x f i.val = true → y.2.1 i.val % 4 ≠ 0 → ∃ t : State, exec y.1 s = .next t ∧ FaultsWith w 3 s t) ∧
        ((∀ i : Fin 16, laneOn x f i.val = true → y.2.1 i.val % 4 = 0) →
          ∀ p : List (Nat × Nat), (placesOf w f 2 ((lanesOn x f).map (fun i => (i, y.2.1 i))) s).1 = some p → (∀ e ∈ p, e.2 % 128 = 0) →
            (y.1 ≠ .memStv w f → (∀ e ∈ p, (cacheLine s (cacheKey w.core.val (memSpace f) (lineNo (memSpace f) e.2))).isSome = true) →
              (memSpace f = 1 → ∀ e ∈ p, memRefusal s (ctxAt s (slotKey w)).tenant (lineNo 1 e.2) = none) →
              ∃ t : State, exec y.1 s = .next t ∧ Passed w s t ∧ t.mem = s.mem ∧
                ∀ i : Fin 16, laneOn x f i.val = true →
                  (∀ j : Fin 16, laneOn x f j.val = true → i.val < j.val → lineNo (memSpace f) (placed p (y.2.1 j.val)) * 128 + y.2.1 j.val % 128 ≠
                    lineNo (memSpace f) (placed p (y.2.1 i.val)) * 128 + y.2.1 i.val % 128) →
                  cacheBytes t w.core.val (memSpace f) (placed p (y.2.1 i.val)) 4 = natLe 4 (vLane x y.2.2 i.val)) ∧
            (y.1 = .memStv w f → memSpace f = 1 → coreLines s w.core.val (fun _ => true) = [] →
              (∀ e ∈ p, memRefusal s (ctxAt s (slotKey w)).tenant (lineNo 1 e.2) = none ∧ lineBad s (lineNo 1 e.2) = false) →
              ∃ t : State, exec (.memStv w f) s = .next t ∧ Passed w s t ∧
                ∀ a : Nat, cellGet t.mem.cells a =
                  match (List.range 16).find? (fun i => laneOn x f i && decide (placed p (vec i) % 2 ^ 48 ≤ a) && decide (a < placed p (vec i) % 2 ^ 48 + 4)) with
                  | some i => (natLe 4 (vLane x f.b i)).getD (a - placed p (vec i) % 2 ^ 48) 0
                  | none => cellGet s.mem.cells a))) ∧
      (memScope f ≤ 5 →
        (word % 8 ≠ 0 → ∃ t : State, exec (.memStl w f) s = .next t ∧ FaultsWith w 3 s t) ∧
        (word % 8 = 0 → ∀ p : List (Nat × Nat), (placesOf w f 2 [(0, word)] s).1 = some p → memSpace f = 1 →
          coreLines s w.core.val (fun _ => true) = [] → writesOut s (slotKey w) = false → (∀ e ∈ p, e.2 % 128 = 0) →
          (∀ e ∈ p, memRefusal s (ctxAt s (slotKey w)).tenant (lineNo 1 e.2) = none ∧ lineBad s (lineNo 1 e.2) = false) →
          ∃ t : State, exec (.memStl w f) s = .next t ∧ Passed w s t ∧
            (∀ a : Nat, cellGet t.mem.cells a = if placed p word % 2 ^ 48 ≤ a ∧ a < placed p word % 2 ^ 48 + 8
              then (natLe 8 (sReg x f.b).toNat).getD (a - placed p word % 2 ^ 48) 0 else cellGet s.mem.cells a) ∧
            t.bep.releases.head? = some { line := lineNo 1 (placed p word), scope := memScope f, who := engineAgent s (slotKey w) w.eng.val }) ∧
        (coreLines s w.core.val (fun _ => true) = [] →
          (writesOut s (slotKey w) = false ∨ memScope f < 2 → ∃ t : State, exec (.memRel w f) s = .next t ∧ Passed w s t ∧ t.mem = s.mem) ∧
          (writesOut s (slotKey w) = true → 2 ≤ memScope f → ∃ t : State, exec (.memRel w f) s = .next t ∧ streamAt t w = x ∧ t.mem = s.mem) ∧
          (∃ t : State, exec (.memAcq w f) s = .next t ∧ Passed w s t ∧ t.mem = s.mem))) ∧
      (memSpace f = 1 → ∃ t : State, exec (.memStf w f) s = .next t ∧ FaultsWith w 4 s t) ∧
      (memSpace f = 2 →
        (word % 8 ≠ 0 → ∃ t : State, exec (.memStf w f) s = .next t ∧ FaultsWith w 3 s t) ∧
        (word % 8 = 0 → ∀ p : List (Nat × Nat), (placesOf w f 2 [(0, word)] s).1 = some p →
          coreLines s w.core.val (fun _ => true) = [] → writesOut s (slotKey w) = false →
          ∃ t : State, exec (.memStf w f) s = .next t ∧ Passed w s t ∧ t.cmp.issued = s.cmp.issued + 1)) ∧
      (∀ aux : Nat, atAux f = some aux →
        (word % atWidth (BitVec.ofNat 32 aux) ≠ 0 → ∃ t : State, exec (.memAt w f) s = .next t ∧ FaultsWith w 3 s t) ∧
        (word % atWidth (BitVec.ofNat 32 aux) = 0 → ∀ p : List (Nat × Nat), (placesOf w f (if f.d = 0 then 4 else 5) [(0, word)] s).1 = some p →
          memSpace f = 1 → coreLines s w.core.val (fun _ => true) = [] → (∀ e ∈ p, e.2 % 128 = 0) →
          (∀ e ∈ p, memRefusal s (ctxAt s (slotKey w)).tenant (lineNo 1 e.2) = none ∧ lineBad s (lineNo 1 e.2) = false) →
          ∃ t : State, exec (.memAt w f) s = .next t ∧
            (∀ a : Nat, cellGet t.mem.cells a = if placed p word % 2 ^ 48 ≤ a ∧ a < placed p word % 2 ^ 48 + atWidth (BitVec.ofNat 32 aux)
              then (natLe 8 (atNew s (atRequest s f x (slotKey w) aux (placed p word)) (fieldAt (lineBytes s (lineNo 1 (placed p word))) (word % 128)
                (atWidth (BitVec.ofNat 32 aux)))).1).getD (a - placed p word % 2 ^ 48) 0
              else cellGet s.mem.cells a) ∧
            (∀ r : BitVec 5, sReg (streamAt t w) r = if r = f.d ∧ r ≠ 0 then BitVec.ofNat 64
              (fieldAt (lineBytes s (lineNo 1 (placed p word))) (word % 128) (atWidth (BitVec.ofNat 32 aux))) else sReg x r) ∧
            (streamAt t w).pc = x.pc + 1 ∧ (streamAt t w).v = x.v ∧ (streamAt t w).p = x.p))) ∧
    (∀ y ∈ ([.memSt w f, .memStg w f, .memStv w f, .memStl w f, .memAt w f, .memRel w f, .memAcq w f] : List Instr),
      ready s w = true → memLegal f = false → ∃ t : State, exec y s = .next t ∧ FaultsWith w 1 s t) ∧
    (∀ y ∈ ([.memStl w f, .memRel w f, .memAcq w f] : List Instr),
      ready s w = true → 5 < memScope f → ∃ t : State, exec y s = .next t ∧ FaultsWith w 1 s t) ∧
    (∀ y ∈ ([.memSt w f, .memStg w f, .memStv w f, .memStl w f, .memStf w f, .memAt w f, .memRel w f, .memAcq w f] : List Instr),
      ready s w = false → exec y s = .next s)

/-- Class 7 and COPY_LINE (R254, R263–R266, R268). -/
def Obligations.CopyInstructionsMovePieces : Prop :=
  ∀ (w : StreamId) (f : IFields) (s : State), ∀ x : Stream, x = streamAt s w → ∀ c : Ctx, c = ctxAt s (slotKey w) →
    ∀ a : Nat, a = (sReg x f.a).toNat → ∀ d : Bytes, d = spGet s (slotKey w / 4 * 2 ^ 20 + descField c 24 2 * 4096 + a) 48 →
    (ready s w = true → f.imm.toNat < 8 →
      (a % 4 ≠ 0 → ∃ t : State, exec (.cpyCopy w f) s = .next t ∧ FaultsWith w 3 s t) ∧
      (a % 4 = 0 → descField c 26 2 * 4096 < a + 48 → ∃ t : State, exec (.cpyCopy w f) s = .next t ∧ FaultsWith w 2 s t) ∧
      (a % 4 = 0 → a + 48 ≤ descField c 26 2 * 4096 →
        (copyLegal d = false → ∃ t : State, exec (.cpyCopy w f) s = .next t ∧ FaultsWith w 14 s t) ∧
        (copyLegal d = true → ∃ t : State, exec (.cpyCopy w f) s = .next t ∧ Passed w s t ∧ Only [.cmp, .lantern] s t ∧
          (ctxAt t (slotKey w)).copies = c.copies ++ [copyOf d (some f.imm.toNat) w.eng.val] ∧ t.cmp.sp = s.cmp.sp)) ∧
      (∃ t : State, exec (.cpyCwait w f) s = .next t ∧ Only [.cmp, .lantern] s t ∧ streamAt t w = { x with
        pc := x.pc + 1, wait := if c.copies.any (fun h => h.eng == w.eng.val && h.tag == some f.imm.toNat) then .copy f.imm.toNat else x.wait }) ∧
      (f.d.toNat < 8 → ∃ t : State, exec (.cpyCtest w f) s = .next t ∧ Only [.cmp, .lantern] s t ∧ GoneOn w s t ∧
        (streamAt t w).v = x.v ∧ (streamAt t w).s = x.s ∧ ∀ q : Fin 8, pReg (streamAt t w) q.val = if q.val = f.d.toNat ∧ q.val ≠ 0
          then (if c.copies.any (fun h => h.eng == w.eng.val && h.tag == some f.imm.toNat) then 0 else BitVec.allOnes 16) else pReg x q.val)) ∧
    (∀ h : Copy, c.copies.head? = some h → c.state = .running → h.paused = false → h.asked = false → h.ended = 0 → h.skip = false → h.row < h.rows →
      h.sspace = 0 → h.dspace = 0 → ∀ src : Nat, src = (h.src + h.row * h.sstride + h.at_) % 2 ^ 64 →
      ∀ dst : Nat, dst = (h.dst + h.row * h.dstride + h.at_) % 2 ^ 64 → ∀ n : Nat, n = min (128 - dst % 128) (h.len - h.at_) →
      src + n ≤ descField c 26 2 * 4096 → dst + n ≤ descField c 26 2 * 4096 → ∃ t : State, exec (.copyLine w.core w.slot) s = .next t ∧
        (∀ b : Nat, mapGetD t.cmp.sp b 0 = if slotKey w / 4 * 2 ^ 20 + descField c 24 2 * 4096 + dst ≤ b ∧ b < slotKey w / 4 * 2 ^ 20 + descField c 24 2 * 4096 + dst + n
          then mapGetD s.cmp.sp (slotKey w / 4 * 2 ^ 20 + descField c 24 2 * 4096 + src + (b - (slotKey w / 4 * 2 ^ 20 + descField c 24 2 * 4096 + dst))) 0
          else mapGetD s.cmp.sp b 0) ∧ Only [.cmp, .lantern, .dict] s t ∧
        (h.at_ + n < h.len → (ctxAt t (slotKey w)).copies.head? = some { h with at_ := h.at_ + n, got := none, asked := false, skip := false }) ∧
        (h.len ≤ h.at_ + n → h.row + 1 < h.rows → (ctxAt t (slotKey w)).copies.head? = some { h with
          at_ := 0, row := h.row + 1, got := none, asked := false, skip := false }) ∧
        (h.len ≤ h.at_ + n → h.row + 1 = h.rows → copyWritesOut s (slotKey w) = false → (ctxAt t (slotKey w)).copies = c.copies.drop 1)) ∧
    (c.copies = [] → exec (.copyLine w.core w.slot) s = .next s) ∧
    (ready s w = true → 8 ≤ f.imm.toNat → ∀ y ∈ ([.cpyCopy w f, .cpyCwait w f, .cpyCtest w f] : List Instr),
      ∃ t : State, exec y s = .next t ∧ FaultsWith w 1 s t) ∧
    (ready s w = false → ∀ y ∈ ([.cpyCopy w f, .cpyCwait w f, .cpyCtest w f] : List Instr), exec y s = .next s)

/-- Classes 8 and 9 (R258, R263, R264, R273). -/
def Obligations.BranchesAndBarriers : Prop :=
  ∀ (w : StreamId) (f : IFields) (s : State), ∀ x : Stream, x = streamAt s w → ∀ c : Ctx, c = ctxAt s (slotKey w) →
    (ready s w = true → f.imm.toNat < 2 ^ 22 →
      (∃ t : State, exec (.ctlBr w f) s = .next t ∧ streamAt t w = { x with pc := f.imm.toNat } ∧ Only [.cmp, .lantern] s t) ∧
      (∃ t : State, exec (.ctlBrp w f) s = .next t ∧ Only [.cmp, .lantern, .free] s t ∧
        ((streamAt t w = { x with pc := f.imm.toNat } ∧ ∃ i : Fin 16, laneOn x f i.val = true) ∨
          (streamAt t w = { x with pc := x.pc + 1 } ∧ ∃ i : Fin 16, laneOn x f i.val = false))) ∧
      (∃ t : State, exec (.ctlLoop w f) s = .next t ∧ Only [.cmp, .lantern, .free] s t ∧
        (streamAt t w = { x with pc := f.imm.toNat } ∨ streamAt t w = { x with pc := x.pc + 1 })) ∧
      (x.ret.length < 8 → ∃ t : State, exec (.ctlCall w f) s = .next t ∧ Only [.cmp, .lantern] s t ∧
        streamAt t w = { x with pc := f.imm.toNat, ret := (x.pc + 1) :: x.ret }) ∧
      (8 ≤ x.ret.length → ∃ t : State, exec (.ctlCall w f) s = .next t ∧ FaultsWith w 1 s t) ∧
      (∃ t : State, exec (.ctlRet w f) s = .next t ∧ Only [.cmp, .lantern, .free] s t ∧
        streamAt t w = { x with pc := (streamAt t w).pc, ret := x.ret.drop 1 } ∧ (∀ p : Nat, x.ret.head? = some p → (streamAt t w).pc = p)) ∧
      (∃ t : State, exec (.ctlEnd w f) s = .next t ∧ streamAt t w = { x with live := false } ∧ Only [.cmp, .lantern] s t) ∧
      (∃ t : State, exec (.ctlNop w f) s = .next t ∧ Passed w s t ∧ Only [.cmp, .lantern] s t)) ∧
    (ready s w = true → ∀ y ∈ ([(.ctlBr w f, 2 ^ 22), (.ctlBrp w f, 2 ^ 22), (.ctlLoop w f, 2 ^ 22), (.ctlCall w f, 2 ^ 22), (.ctlRet w f, 2 ^ 22),
        (.ctlEnd w f, 2 ^ 22), (.ctlNop w f, 2 ^ 22)] : List (Instr × Nat)),
      y.2 ≤ f.imm.toNat → ∃ t : State, exec y.1 s = .next t ∧ FaultsWith w 1 s t) ∧
    (ready s w = true → f.imm.toNat % 2 ^ 21 = 0 → f.imm.toNat < 2 ^ 24 →
      (∃ t : State, exec (.barC w f) s = .next t ∧ Only [.cmp, .lantern] s t ∧
        if (streamNos c).all (fun e => decide (e = w.eng.val) || (streamOf c e).wait == .barC)
        then (∀ e ∈ streamNos c, streamOf (ctxAt t (slotKey w)) e = { streamOf c e with
          wait := .none, pc := if e = w.eng.val then x.pc + 1 else (streamOf c e).pc })
        else streamAt t w = { x with wait := .barC, pc := x.pc + 1 }) ∧
      (1 ≤ memScope f → memScope f ≤ 3 → ctxGang c ≠ 0 →
        (c.gangLost = true → ∃ t : State, exec (.barG w f) s = .next t ∧ FaultsWith w 13 s t) ∧
        (c.gangLost = false → s.cmp.cache = [] → writesOut s (slotKey w) = false → keysRise s.cmp.ctxs = true →
          ∃ t : State, exec (.barG w f) s = .next t ∧ t.mem = s.mem ∧
            if (gangOf s (ctxGang c)).length = descField c 34 1 ∧ (gangOf s (ctxGang c)).all (fun e => (streamNos e.2).all (fun j =>
              (e.1 == slotKey w && j == w.eng.val) || atGang (streamOf e.2 j))) = true
            then (∀ e ∈ gangOf s (ctxGang c), ∀ j ∈ streamNos e.2, (streamOf (ctxAt t e.1) j).wait = .none)
            else streamAt t w = { x with wait := .barG (memScope f), pc := x.pc + 1 })) ∧
      ((memScope f = 0 ∨ 3 < memScope f ∨ ctxGang c = 0) → ∃ t : State, exec (.barG w f) s = .next t ∧ FaultsWith w 1 s t)) ∧
    (ready s w = true → (f.imm.toNat % 2 ^ 21 ≠ 0 ∨ 2 ^ 24 ≤ f.imm.toNat) → ∀ y ∈ ([.barC w f, .barG w f] : List Instr),
      ∃ t : State, exec y s = .next t ∧ FaultsWith w 1 s t) ∧
    (ready s w = false → ∀ y ∈ ([.ctlBr w f, .ctlBrp w f, .ctlLoop w f, .ctlCall w f, .ctlRet w f,
      .ctlEnd w f, .ctlNop w f, .barC w f, .barG w f] : List Instr), exec y s = .next s)

/-- CONTEXT_CREATE, CONTEXT_DESTROY, CONTEXT_RESTART, CONTEXT_ABORT, CONTEXT_ABORT_DONE, RING_PRODUCER_WRITE, KERNEL_LOAD,
KERNEL_LOAD_DONE and KERNEL_UNLOAD (R252, R253, R261, R262, R379, R380). -/
def Obligations.ContextActionsAndKernels : Prop :=
  ∀ (core : CoreN) (slot : SlotN) (s : State), ∀ k : Nat, k = ctxKey core slot → ∀ c : Ctx, c = ctxAt s k →
    (barOpen s = false → ∀ v : BitVec 32,
      ∀ y ∈ ([.contextCreate core slot, .contextDestroy core slot, .contextRestart core slot, .contextAbort core slot, .ringProducerWrite core slot v] : List Instr),
        exec y s = .next s) ∧
    (barOpen s = true →
      (c.actValid = false → ∀ y ∈ ([.contextCreate core slot, .contextDestroy core slot, .contextRestart core slot, .contextAbort core slot] : List Instr),
        exec y s = .next { s with host := { s.host with ignored := min (2 ^ 32 - 1) (s.host.ignored + 1) } }) ∧
      (c.actValid = true →
        (c.state = .free →
          (∀ code : Nat, createRefusal s k (slice c.staging 0 64) = some code → ∃ t : State, exec (.contextCreate core slot) s = .next t ∧
            Only [.cmp] s t ∧ ctxAt t k = { c with fault := code, actSeq := (c.actSeq + 1) % 2 ^ 32, actValid := true, action := 1, result := 1 }) ∧
          (createRefusal s k (slice c.staging 0 64) = none → ∃ t : State, exec (.contextCreate core slot) s = .next t ∧ Only [.cmp] s t ∧
            ctxAt t k = {
              state := .idle, staging := c.staging, desc := slice c.staging 0 64, tenant := fieldAt c.staging 3 1 % 16,
              accCount := fieldAt c.staging 28 4, fault := 0, actSeq := (c.actSeq + 1) % 2 ^ 32, actValid := true, action := 1, result := 0 } ∧
            ∀ j : Nat, j < 2 ^ 20 → accAt t ((128 + k) * 2 ^ 20 + j) = { n := 0, st := .finite, ovf := false })) ∧
        (c.state = .idle ∨ c.state = .faulted → ∃ t : State, exec (.contextDestroy core slot) s = .next t ∧ Only [.cmp] s t ∧
          ctxAt t k = {
            state := .free, staging := c.staging, fault := c.fault, actSeq := (c.actSeq + 1) % 2 ^ 32, actValid := true, action := 2, result := 0 }) ∧
        (c.state = .faulted → ∃ t : State, exec (.contextRestart core slot) s = .next t ∧ Only [.cmp] s t ∧
          (ctxAt t k).state = .running ∧ (ctxAt t k).doing = .none ∧ (ctxAt t k).cons = c.cons ∧ (ctxAt t k).prod = c.prod ∧
          (ctxAt t k).fault = 0 ∧ (ctxAt t k).copies = [] ∧ (ctxAt t k).action = 3 ∧ (ctxAt t k).result = 0) ∧
        (c.state = .running ∨ c.state = .suspended ∨ c.state = .faulted ∨ c.state = .held → ∃ t : State, exec (.contextAbort core slot) s = .next t ∧
          (ctxAt t k).state = .aborting ∧ (ctxAt t k).copies = [] ∧ (ctxAt t k).actValid = false ∧ (ctxAt t k).action = 4 ∧
          (∀ e : Fin 4, (streamOf (ctxAt t k) e.val).live = false) ∧ t.mem = s.mem) ∧
        (∀ y ∈ ([(.contextCreate core slot, 1, decide (c.state ≠ .free)), (.contextDestroy core slot, 2, decide (c.state ≠ .idle ∧ c.state ≠ .faulted)),
            (.contextRestart core slot, 3, decide (c.state ≠ .faulted)),
            (.contextAbort core slot, 4, decide (c.state = .free ∨ c.state = .idle ∨ c.state = .aborting))] : List (Instr × Nat × Bool)),
          y.2.2 = true → ∃ t : State, exec y.1 s = .next t ∧ Only [.cmp] s t ∧
            ctxAt t k = { c with actSeq := (c.actSeq + 1) % 2 ^ 32, actValid := true, action := y.2.1, result := 2 })) ∧
      (∀ v : BitVec 32,
        (c.state = .free ∨ c.state = .aborting ∨ (v ≠ c.prod ∧ (c.prod - v).toNat < (v - c.prod).toNat) →
          exec (.ringProducerWrite core slot v) s = .next { s with host := { s.host with ignored := min (2 ^ 32 - 1) (s.host.ignored + 1) } }) ∧
        (c.state ≠ .free → c.state ≠ .aborting → (v = c.prod ∨ (v - c.prod).toNat ≤ (c.prod - v).toNat) → ∀ n : Nat, n = 2 ^ descField c 5 1 →
          ∀ kept : BitVec 32, kept = (if n < (v - c.cons).toNat then c.cons + BitVec.ofNat 32 n else v) →
          ∃ t : State, exec (.ringProducerWrite core slot v) s = .next t ∧ Only [.cmp, .host] s t ∧
            t.host.ignored = (if n < (v - c.cons).toNat then min (2 ^ 32 - 1) (s.host.ignored + 1) else s.host.ignored) ∧
            ctxAt t k = { c with prod := kept, state := if c.state = .idle ∧ (c.prod - c.cons).toNat < (kept - c.cons).toNat then .running else c.state }))) ∧
    (c.state = .aborting → c.doing = .none → c.actValid = false → ∃ t : State, exec (.contextAbortDone core slot) s = .next t ∧ Only [.cmp] s t ∧
      ctxAt t k = { state := .free, staging := c.staging, fault := c.fault, actSeq := (c.actSeq + 1) % 2 ^ 32, actValid := true, action := 4, result := 0 }) ∧
    (c.state ≠ .aborting → exec (.contextAbortDone core slot) s = .next s) ∧
    (∀ (src : Route) (v : BitVec 8), ∃ t : State, exec (.kernelLoad src v) s = .next t ∧
      (s.cmp.loading = true → t.cmp = s.cmp ∧ t.dict.abort = 0x08000020) ∧
      (s.cmp.loading = false → t.cmp = { s.cmp with loading := true, loadResult := 0, loadKid := 0 })) ∧
    (s.cmp.loading = false → exec .kernelLoadDone s = .next s) ∧
    (s.cmp.loading = true → ∀ off : Nat, off = odGet s 0x5004 1 → ∀ len : Nat, len = odGet s 0x5004 2 →
      ∃ t : State, exec .kernelLoadDone s = .next t ∧ t.cmp.loading = false ∧ t.cmp.ctxs = s.cmp.ctxs ∧
        ((usable s < off + len ∨ closedRange s off len = true) → t.mem = s.mem ∧ t.cmp.kernels = s.cmp.kernels ∧ t.cmp.loadResult ≠ 1) ∧
        (off + len ≤ usable s → closedRange s off len = false → odGet s 0x5004 3 ≠ 2 → ∀ b : Bytes, b = (readRun s off len).getD [] →
          (b.length < 512 ∨ Config.rsaVerify Config.ulukelKey (b.take (b.length - 512)) (b.drop (b.length - 512)) = false →
            t.cmp.loadResult = 2 ∧ t.cmp.kernels = s.cmp.kernels) ∧
          (512 ≤ b.length → Config.rsaVerify Config.ulukelKey (b.take (b.length - 512)) (b.drop (b.length - 512)) = true →
            t.cmp.loadResult = imageCode s (b.take (b.length - 512)) ∧
            (imageCode s (b.take (b.length - 512)) ≠ 1 → t.cmp.kernels = s.cmp.kernels) ∧
            (imageCode s (b.take (b.length - 512)) = 1 →
              mapGet t.cmp.kernels t.cmp.loadKid = some (imageKernel none (b.take (b.length - 512))) ∧ 1 ≤ t.cmp.loadKid ∧ t.cmp.loadKid ≤ 256)))) ∧
    (∀ (src : Route) (v : BitVec 16), ∃ t : State, exec (.kernelUnload src v) s = .next t ∧
      (mapGet s.cmp.kernels v.toNat = none ∨ kernelRuns s v.toNat = true → t.cmp = s.cmp ∧ t.dict.abort = 0x08000020) ∧
      (mapGet s.cmp.kernels v.toNat ≠ none → kernelRuns s v.toNat = false →
        mapGet t.cmp.kernels v.toNat = none ∧ t.dict.status = 0 ∧ ∀ i : Nat, i ≠ v.toNat → mapGet t.cmp.kernels i = mapGet s.cmp.kernels i))

/-- RING_RUN, RING_COPY, RING_WAIT, RING_NOP, WAIT_POLL, WAIT_TIMEOUT and COMMAND_END (R257, R258, R262). -/
def Obligations.RingsRunTheirRecords : Prop :=
  ∀ (core : CoreN) (slot : SlotN) (s : State), ∀ k : Nat, k = ctxKey core slot → ∀ c : Ctx, c = ctxAt s k →
    (canBegin c = false → ∀ y ∈ ([.ringRun core slot, .ringCopy core slot, .ringWait core slot, .ringNop core slot] : List Instr), exec y s = .next s) ∧
    (canBegin c = true → ∀ b : Bytes, (ringRecord k s).1 = some b →
      (recordLegal b = false → ∀ y ∈ ([.ringRun core slot, .ringCopy core slot, .ringWait core slot, .ringNop core slot] : List Instr),
        ∃ t : State, exec y s = .next t ∧ (ctxAt t k).state = .faulted ∧ (ctxAt t k).fault = 14 ∧ (ctxAt t k).cons = c.cons) ∧
      (recordLegal b = true →
        (∀ y ∈ ([(.ringRun core slot, 1), (.ringCopy core slot, 2), (.ringWait core slot, 3), (.ringNop core slot, 4)] : List (Instr × Nat)),
          fieldAt b 0 1 ≠ y.2 → ∃ t : State, exec y.1 s = .next t ∧ ctxAt t k = c) ∧
        ∀ begun : Ctx, begun = { c with
          seq := fieldAt b 2 2, irq := bit (fieldAt b 1 1) 0 && bit (descField c 6 1) 1, status := 0, detail := 0, failed := 0 } →
          (fieldAt b 0 1 = 2 → ∃ t : State, exec (.ringCopy core slot) s = .next t ∧
            ctxAt t k = { begun with doing := .copy, copies := c.copies ++ [copyOf (slice b 8 48) none 0] }) ∧
          (fieldAt b 0 1 = 3 → ∃ t : State, exec (.ringWait core slot) s = .next t ∧
            ctxAt t k = { begun with
              doing := .wait (fieldAt b 4 1) (fieldAt b 5 1) (fieldAt b 6 1) (BitVec.ofNat 64 (fieldAt b 8 8)) (BitVec.ofNat 64 (fieldAt b 16 8)) (BitVec.ofNat 64 (fieldAt b 24 8)) (fieldAt b 32 8) }) ∧
          (fieldAt b 0 1 = 4 → ∃ t : State, exec (.ringNop core slot) s = .next t ∧ ctxAt t k = { begun with doing := .nop }) ∧
          (fieldAt b 0 1 = 1 →
            (kernelMissing s c (fieldAt b 4 2) (fieldAt b 6 1) = true → ∃ t : State, exec (.ringRun core slot) s = .next t ∧
              (ctxAt t k).state = .faulted ∧ (ctxAt t k).fault = 15 ∧ (ctxAt t k).streams = c.streams) ∧
            (kernelMissing s c (fieldAt b 4 2) (fieldAt b 6 1) = false → ∀ q : Kernel, mapGet s.cmp.kernels (fieldAt b 4 2) = some q →
              ∃ t : State, exec (.ringRun core slot) s = .next t ∧ (ctxAt t k).doing = .run (fieldAt b 4 2) (fieldAt b 6 1) ∧
              (ctxAt t k).state = .running ∧
              (∀ e : Fin 4, (ctxStreams c).testBit e.val = true → (streamOf (ctxAt t k) e.val).live = true ∧
                (streamOf (ctxAt t k) e.val).pc = q.entries.getD (fieldAt b 6 1) 0 ∧ (streamOf (ctxAt t k) e.val).ret = [] ∧
                (∀ (r : BitVec 5), (r.toNat = 0 ∨ 5 < r.toNat → sReg (streamOf (ctxAt t k) e.val) r = 0) ∧
                  (∀ i : Fin 16, vLane (streamOf (ctxAt t k) e.val) r i.val = 0)) ∧
                (∀ i : Fin 4, sReg (streamOf (ctxAt t k) e.val) (BitVec.ofNat 5 (i.val + 1)) = BitVec.ofNat 64 (fieldAt b (8 + 8 * i.val) 8)) ∧
                sReg (streamOf (ctxAt t k) e.val) 5 = BitVec.ofNat 64 (core.val * 256 + e.val)) ∧
              (∀ e : Fin 4, (ctxStreams c).testBit e.val = false → streamOf (ctxAt t k) e.val = streamOf c e.val))))) ∧
    ((∀ (sp test sc : Nat), ∀ (a v m : BitVec 64), ∀ to_ : Nat, c.doing ≠ .wait sp test sc a v m to_) →
      exec (.waitPoll core slot) s = .next s ∧ exec (.waitTimeout core slot) s = .next s) ∧
    (∀ (sp test sc : Nat), ∀ (a v m : BitVec 64), ∀ limit : Nat, c.doing = .wait sp test sc a v m limit →
      (limit ≠ 0 → c.state = .running → ∃ t : State, exec (.waitTimeout core slot) s = .next t ∧ Only [.cmp] s t ∧
        ctxAt t k = { c with doing := .nop, status := 6 }) ∧
      (limit = 0 ∨ c.state ≠ .running → exec (.waitTimeout core slot) s = .next s) ∧
      (c.state ≠ .running ∨ c.polling = true → exec (.waitPoll core slot) s = .next s) ∧
      (c.state = .running → c.polling = false → a.toNat % 8 ≠ 0 → ∃ t : State, exec (.waitPoll core slot) s = .next t ∧
        (ctxAt t k).state = .faulted ∧ (ctxAt t k).fault = 3) ∧
      (c.state = .running → c.polling = false → a.toNat % 8 = 0 → sp = 1 → s.cmp.cache = [] → s.bep.releases = [] →
        ∀ place : Nat, (translate (.ring k) 1 1 (ctxPasid c) a.toNat s).1 = .ok place →
        memRefusal s c.tenant (lineNo 1 place) = none → lineBad s (lineNo 1 place) = false →
        ∃ t : State, exec (.waitPoll core slot) s = .next t ∧ t.mem.cells = s.mem.cells ∧
          ctxAt t k = if waitPasses test v m (BitVec.ofNat 64 (fieldAt (lineBytes s (lineNo 1 place)) (a.toNat % 128) 8)) then { c with doing := .nop } else c)) ∧
    (c.state = .running → bodyDone c = true → s.cmp.cache = [] → writesOut s k = false →
      ∀ va : Nat, va = descField c 16 8 + 32 * (c.cons.toNat % 2 ^ descField c 5 1) →
      ∀ place : Nat, (translate (.ring k) 1 2 (ctxPasid c) va s).1 = .ok place → place % 32 = 0 →
      memRefusal s c.tenant (lineNo 1 place) = none → lineBad s (lineNo 1 place) = false → odGet s 0x5003 1 < 2 ^ 63 →
      ∃ t : State, exec (.commandEnd core slot) s = .next t ∧
        (ctxAt t k).cons = c.cons + 1 ∧ (ctxAt t k).doing = .none ∧ (ctxAt t k).state = (if c.cons + 1 = c.prod then .idle else .running) ∧
        odGet t 0x5003 1 = odGet s 0x5003 1 + 1 ∧
        ∀ a : Nat, cellGet t.mem.cells a = if place % 2 ^ 48 ≤ a ∧ a < place % 2 ^ 48 + 32
          then (completionRecord c c.status s.time.ft).getD (a - place % 2 ^ 48) 0 else cellGet s.mem.cells a) ∧
    (c.state ≠ .faulted → (c.state ≠ .running ∨ bodyDone c = false) → exec (.commandEnd core slot) s = .next s)

/-- ATS_COMPLETION, ATS_COMPLETION_TIMEOUT, PAGE_RESPONSE, PAGE_REQUEST_TIMEOUT, PRI_RESET, ATS_ENABLE_CLEAR,
PRI_ENABLE_CLEAR, ATS_INVALIDATE, INVALIDATE_COMPLETION and INVALIDATE_ALL (R341–R348). -/
def Obligations.TranslationsAreGrantedAndInvalidated : Prop :=
  ∀ s : State,
    (∀ (pasid : BitVec 20) (vp : BitVec 52),
      (s.xlat.reqs.find? (fun r => r.sent && r.pasid == pasid.toNat && r.vpage == vp.toNat) = none →
        (∀ res : AtsResult, ∃ t : State, exec (.atsCompletion pasid vp res) s = .next t ∧ t.sent = .aer "Unexpected Completion" :: s.sent ∧ Only [.sent] s t) ∧
        exec (.atsCompletionTimeout pasid vp) s = .next s) ∧
      (∀ q : TReq, s.xlat.reqs.find? (fun r => r.sent && r.pasid == pasid.toNat && r.vpage == vp.toNat) = some q →
        (∀ y ∈ ([.atsCompletion pasid vp .failed, .atsCompletionTimeout pasid vp] : List Instr), ∃ t : State, exec y s = .next t ∧
          t.xlat.entries = s.xlat.entries ∧ (odGet s 0x5200 0x15 < 2 ^ 63 → odGet t 0x5200 0x15 = odGet s 0x5200 0x15 + 1) ∧
          (∀ x ∈ q.waiters, (ctxAt s (waiterCtx x.1)).state = .running ∨ (ctxAt s (waiterCtx x.1)).state = .suspended → (ctxAt t (waiterCtx x.1)).state = .faulted)) ∧
        (∀ (u r w : Bool) (n : Fin 64) (addr : BitVec 64),
          (q.stale = true → ∃ t : State, exec (.atsCompletion pasid vp (.ok u r w n.val addr)) s = .next t ∧ t.xlat.entries = s.xlat.entries ∧
            ∃ p ∈ t.xlat.reqs, p.pasid = pasid.toNat ∧ p.vpage = vp.toNat ∧ p.stale = false ∧ ∀ x ∈ q.waiters, x ∈ p.waiters) ∧
          (q.stale = false → (u = true ∨ (r = false ∧ w = false)) → ∃ t : State, exec (.atsCompletion pasid vp (.ok u r w n.val addr)) s = .next t ∧
            t.xlat.entries = s.xlat.entries ∧ (q.final = true →
              ∀ x ∈ q.waiters, (ctxAt s (waiterCtx x.1)).state = .running ∨ (ctxAt s (waiterCtx x.1)).state = .suspended → (ctxAt t (waiterCtx x.1)).state = .faulted)) ∧
          (q.stale = false → u = false → (r = true ∨ w = true) → 12 ≤ n.val → ∀ k : Nat, k = (if 30 ≤ n.val then 30 else if 21 ≤ n.val then 21 else 12) →
            ∀ e : XEntry, e = grantedEntry pasid.toNat q.tenant (vp.toNat * 4096) k
              ((addr.toNat / 2 ^ n.val * 2 ^ n.val + vp.toNat * 4096 % 2 ^ n.val) / 2 ^ k * 2 ^ k) r w →
            ∃ t : State, exec (.atsCompletion pasid vp (.ok u r w n.val addr)) s = .next t ∧
              (entryRefused s e = true → t.xlat.entries = s.xlat.entries) ∧
              (entryRefused s e = false → (xlatFind t.xlat pasid.toNat (vp.toNat * 4096) k).map (fun j => j.2) = some e ∧
                (q.final = false → ∀ x ∈ q.waiters, ∀ j ∈ List.range 4, x.1 = .stream (waiterCtx x.1) j → (streamOf (ctxAt t (waiterCtx x.1)) j).wait ≠ .xlate)))))) ∧
    (∀ (pasid : BitVec 20) (i : Nat) (code : BitVec 4),
      ((mapGet s.xlat.pages i).all (fun p => p.pasid != pasid.toNat) = true → ∃ t : State, exec (.pageResponse pasid i code) s = .next t ∧
        t.xlat = s.xlat ∧ t.cmp = s.cmp ∧ (odGet s 0x5200 0x1B < 2 ^ 63 → odGet t 0x5200 0x1B = odGet s 0x5200 0x1B + 1)) ∧
      (∀ p : PageReq, mapGet s.xlat.pages i = some p → p.pasid = pasid.toNat → s.xlat.pageWait = [] →
        (code = 0 → ∃ t : State, exec (.pageResponse pasid i code) s = .next t ∧ mapGet t.xlat.pages i = none ∧ t.xlat.entries = s.xlat.entries ∧
          ∃ q ∈ t.xlat.reqs, q.pasid = p.pasid ∧ q.vpage = p.vpage ∧ q.stale = false ∧ q.final = true ∧ ∀ x ∈ p.waiters, x ∈ q.waiters) ∧
        (code = 15 → ∃ t : State, exec (.pageResponse pasid i code) s = .next t ∧ t.xlat.pages = [] ∧ t.xlat.stopped = true ∧
          ∀ y ∈ s.xlat.pages, ∀ x ∈ y.2.waiters, (ctxAt s (waiterCtx x.1)).state = .running ∨ (ctxAt s (waiterCtx x.1)).state = .suspended →
            (ctxAt t (waiterCtx x.1)).state = .faulted) ∧
        (code ≠ 0 → code ≠ 15 → ∀ y ∈ ([.pageResponse pasid i code, .pageRequestTimeout i] : List Instr), ∃ t : State, exec y s = .next t ∧
          mapGet t.xlat.pages i = none ∧ t.xlat.entries = s.xlat.entries ∧
          ∀ x ∈ p.waiters, (ctxAt s (waiterCtx x.1)).state = .running ∨ (ctxAt s (waiterCtx x.1)).state = .suspended → (ctxAt t (waiterCtx x.1)).state = .faulted)) ∧
      (mapGet s.xlat.pages i = none → exec (.pageRequestTimeout i) s = .next s)) ∧
    (∃ t : State, exec .priReset s = .next t ∧ t.xlat.pages = [] ∧ t.xlat.stopped = false ∧ t.xlat.entries = s.xlat.entries) ∧
    exec .atsEnableClear s = .next { s with xlat := { s.xlat with ats := false } } ∧
    (∃ t : State, exec .priEnableClear s = .next t ∧ t.xlat.pages = [] ∧ t.xlat.pri = false ∧ t.xlat.stopped = true ∧ t.xlat.entries = s.xlat.entries) ∧
    (keysRise s.xlat.entries = true → ∀ (itag : BitVec 5) (pasid : Option (BitVec 20)) (global : Bool) (base : BitVec 64) (n : Fin 65),
      ∀ p : Option Nat, p = (if global then none else pasid.map (fun x => x.toNat)) → ∀ b : Nat, b = base.toNat / 2 ^ n.val * 2 ^ n.val →
      (s.xlat.invals.length < 32 → ∃ t : State, exec (.atsInvalidate itag pasid global base n.val) s = .next t ∧
        (∀ j : Nat, mapGet t.xlat.entries j = (mapGet s.xlat.entries j).filter (fun e => !(p.getD e.pasid == e.pasid &&
          decide (e.vpage * 4096 < b + 2 ^ n.val) && decide (b < e.vpage * 4096 + 2 ^ e.log2)))) ∧
        t.xlat.invals.map (fun v => (v.itag, v.host, v.since)) = s.xlat.invals.map (fun v => (v.itag, v.host, v.since)) ++ [(itag.toNat, true, s.time.ft)]) ∧
      (32 ≤ s.xlat.invals.length → exec (.atsInvalidate itag pasid global base n.val) s =
        .next { s with xlat := { s.xlat with waiting := s.xlat.waiting ++ [(itag.toNat, p, b, 2 ^ n.val)] } })) ∧
    (∀ itag : BitVec 5, s.xlat.waiting = [] → s.xlat.invals.all (fun v => v.host || !drained s v) = true →
      (∀ v : Inval, s.xlat.invals.find? (fun v => v.host && v.itag == itag.toNat) = some v →
        (drained s v = true → ∃ t : State, exec (.invalidateCompletion itag) s = .next t ∧ t.sent = .invalidateCompletion itag.toNat :: s.sent ∧
          t.xlat.invals = s.xlat.invals.erase v) ∧
        (drained s v = false → exec (.invalidateCompletion itag) s = .next s)) ∧
      (s.xlat.invals.find? (fun v => v.host && v.itag == itag.toNat) = none → exec (.invalidateCompletion itag) s = .next s)) ∧
    (∀ (src : Route) (v : BitVec 8), s.xlat.entries.all (fun e => decide (e.2.vpage < 2 ^ 52)) = true →
      ∃ t : State, exec (.invalidateAll src v) s = .next t ∧ t.xlat.entries = [])

/-- WINDOW_BIND, WINDOW_UNBIND, SERVICE_CELL_FORMED, COMMIT_TICK, SHARD_UPDATE, SHARD_ENABLE and SHARD_DISABLE (R311, R312, R318,
R325, R327, R333, R431). -/
def Obligations.WindowsShardsAndCommits : Prop :=
  ∀ (i : Fin 64) (src : Route) (s : State), ∀ w : Win, w = winAt s i.val →
    (∀ code off n : Nat, bindRefusal s i.val w.desc = some (code, off, n) →
      ∃ t : State, exec (.windowBind src i 1) s = .next t ∧ winAt t i.val = { w with refusal := code } ∧ t.dict.abort = 0x08000020 ∧
        t.dict.status = 2) ∧
    (bindRefusal s i.val w.desc = none → ∃ t : State, exec (.windowBind src i 1) s = .next t ∧
      winAt t i.val = { state := 1, desc := w.desc, accCount := accumulatorsNeeded w.desc, resSeq := w.resSeq } ∧ t.dict.status = 0 ∧
      Only [.coll, .dict] s t) ∧
    (∀ v : BitVec 8, v ≠ 1 → ∃ t : State, exec (.windowUnbind src i v) s = .next t ∧
      (w.state = 0 → t.coll = s.coll) ∧
      (w.state ≠ 0 → w.state ≠ 3 → w.running.isSome = true → winAt t i.val = { w with state := 2 } ∧ t.cmp = s.cmp) ∧
      (w.state ≠ 0 → (w.state = 3 ∨ w.running = none) → winAt t i.val = { w with state := 0, running := none, formed := [] } ∧
        ∀ j : Nat, j < 2 ^ 20 → accAt t ((64 + i.val) * 2 ^ 20 + j) = { n := 0, st := .finite, ovf := false })) ∧
    (∀ (chunk : BitVec 28) (cell : BitVec 4), ∀ r : RedCell, r = mapGetD w.red (chunk.toNat * 16 + cell.toNat) {} →
      (w.running = none → exec (.serviceCellFormed i chunk cell) s = .next s) ∧
      ((dOp w.desc = 1 ∨ dOp w.desc = 2 ∨ dOp w.desc = 8) → (r.taken < dFanin w.desc ∨ dFanin w.desc = 0 ∨ r.formed = true) →
        exec (.serviceCellFormed i chunk cell) s = .next s) ∧
      (w.running.isSome = true → (dOp w.desc = 1 ∨ dOp w.desc = 2) → 0 < dFanin w.desc → dFanin w.desc ≤ r.taken → r.formed = false → dRed w.desc = 0 →
        ∀ m : Fmt, fmtOf (dIn w.desc) 0 = some m → ∃ t : State, exec (.serviceCellFormed i chunk cell) s = .next t ∧
          (mapGet (winAt t i.val).formed (chunk.toNat * 16 + cell.toNat)).map (fun f => (f.payload, f.sent)) =
            some ((List.range (256 / (if dIn w.desc = 2 then 4 else 2))).flatMap (fun k => natLe (if dIn w.desc = 2 then 4 else 2)
              (accRound m .rne (accAt s (accOf s i.val w.desc chunk.toNat cell.toNat k)))), false) ∧ t.cmp = s.cmp)) ∧
    (w.running = none → exec (.commitTick i) s = .next s) ∧
    (∀ step : Nat, w.running = some step → ∀ good : Bool, good = (w.verdict.any (fun v => !v.failed) && !w.failedAfter && !w.lostNow) →
      ∃ t : State, exec (.commitTick i) s = .next t ∧
        (winAt t i.val).running = none ∧ (winAt t i.val).resSeq = (w.resSeq + 1) % 2 ^ 32 ∧ (winAt t i.val).valid = true ∧
        (winAt t i.val).committed = good ∧ (winAt t i.val).resStep = step ∧
        (winAt t i.val).lastCommitted = (if good then step else w.lastCommitted) ∧
        (good = true → (winAt t i.val).resCause = 0 ∧ (winAt t i.val).committedSteps = min 0xFFFFFFFF (w.committedSteps + 1) ∧
          (winAt t i.val).failedSteps = w.failedSteps) ∧
        (good = false → (winAt t i.val).failedSteps = min 0xFFFFFFFF (w.failedSteps + 1) ∧
          (winAt t i.val).committedSteps = w.committedSteps) ∧
        (w.verdict = none → w.stepRec.failed = false → w.lostNow = false → (winAt t i.val).resCause = 7) ∧
        (w.state = 2 → (winAt t i.val).state = 0) ∧ (dOp w.desc ≠ 8 ∨ good = false → t.mem = s.mem)) ∧
    (∀ chunk : BitVec 28, ∀ x : Shard, x = shardAt s (fieldAt w.desc 40 2) →
      ((w.running = none ∨ dOp w.desc ≠ 8 ∨ x.state ≠ 1 ∨ shardChunk x chunk.toNat = none ∨ gsum w x chunk.toNat = none) →
        exec (.shardUpdate i chunk) s = .next s) ∧
      (w.running.isSome = true → dOp w.desc = 8 → x.state = 1 → w.badChunks.contains chunk.toNat = false →
        ∀ j : Nat, shardChunk x chunk.toNat = some j → ∀ g : List Nat, gsum w x chunk.toNat = some g →
        mapGet x.staging (j % max 1 (fieldAt x.record 2 2)) = none → dKid w.desc = 0 →
        (builtIn s w.desc x j g = none → ∃ t : State, exec (.shardUpdate i chunk) s = .next t ∧ (winAt t i.val).stepRec.failed = true ∧ t.mem = s.mem) ∧
        (∀ u : Updated, builtIn s w.desc x j g = some u → ∃ t : State, exec (.shardUpdate i chunk) s = .next t ∧
          mapGet (shardAt t (fieldAt w.desc 40 2)).staging (j % max 1 (fieldAt x.record 2 2)) = some j ∧
          (bit (dFlags w.desc) 1 = false → ∀ c : Fin 16, (mapGet (winAt t i.val).formed (chunk.toNat * 16 + c.val)).map (fun f => f.payload) =
            some (slice (slice (weightArea (dOut w.desc) (u.w.map ofF32)) 0 4096) (256 * c.val) 256))))) ∧
    (∀ (j : Fin 16) (v : BitVec 8), ∀ x : Shard, x = shardAt s j.val →
      (v ≠ 0 →
        (x.state = 1 → ∃ t : State, exec (.shardEnable src j v) s = .next t ∧ t.coll = s.coll) ∧
        (x.state ≠ 1 → recordRefused s j.val x.record = true → ∃ t : State, exec (.shardEnable src j v) s = .next t ∧
          shardAt t j.val = { x with state := 2 } ∧ t.dict.abort = 0x08000020) ∧
        (x.state ≠ 1 → recordRefused s j.val x.record = false → ∃ t : State, exec (.shardEnable src j v) s = .next t ∧
          shardAt t j.val = { x with state := 1, staging := [], digests := [], taken := [] })) ∧
      (slotNamed s j.val = true → ∃ t : State, exec (.shardDisable src j 0) s = .next t ∧ t.coll = s.coll ∧ t.mem = s.mem ∧ t.dict.abort = 0x08000020) ∧
      (slotNamed s j.val = false → ∃ t : State, exec (.shardDisable src j 0) s = .next t ∧ shardAt t j.val = { x with state := 0, bound := false } ∧
        (x.bound = false → t.mem = s.mem)))

/-- BACKGROUND_SLOT, BURST_SLOT, CHANNEL_RETRAIN, BAR2_READ and BAR2_WRITE (R359, R360, R362–R364, R371). -/
def Obligations.MemoryChannelsAndTheWindow : Prop :=
  ∀ s : State,
    (∀ results : List (Fin 128 × BurstResult),
      (s.mem.state ≠ .ready → exec (.backgroundSlot results) s = .next s ∧ exec (.burstSlot results) s = .next s) ∧
      (s.mem.state = .ready → ∀ tick : Nat, tick = (if s.time.ft % 128 < 124 then s.time.ft - s.time.ft % 128 + 124 else s.time.ft - s.time.ft % 128 + 252) →
        ∃ t : State, exec (.backgroundSlot results) s = .next t ∧ t.mem.cells = s.mem.cells ∧ t.time = (advanceTo tick s).time ∧
          (∀ k : Fin 128, mapGet (chan t k.val).rows (tick / 128 % 16) = none) ∧
          (odGet s 0x5300 6 ≠ 1 → ∀ k : Fin 128, chan t k.val = { chan s k.val with rows := mapErase (chan s k.val).rows (tick / 128 % 16) }) ∧
          (odGet s 0x5300 6 = 1 → s.time.trims.any (fun e => e.1 == tick + 3 && e.2 == .skip) = false → ∀ k : Fin 128,
            (chan s k.val).failed = false → (chan s k.val).retraining = false → (chan s k.val).fix = none →
            mapGetD (chan t k.val).scrub ((tick / 128 + 8) % 16) 0 = if mapGetD (chan s k.val).scrub ((tick / 128 + 8) % 16) 0 + 1 < 16 * segments s
              then mapGetD (chan s k.val).scrub ((tick / 128 + 8) % 16) 0 + 1 else 0)) ∧
      (s.mem.state = .ready → ∀ tick : Nat, tick = (if (s.time.ft - s.time.ft % 4 + 4) % 128 < 124 then s.time.ft - s.time.ft % 4 + 4 else s.time.ft - s.time.ft % 4 + 8) →
        ∃ t : State, exec (.burstSlot results) s = .next t ∧ t.mem.cells = s.mem.cells ∧ t.time = (advanceTo tick s).time ∧
          ∀ k : Fin 128,
            ((chan s k.val).failed = true ∨ (chan s k.val).retraining = true ∨ (chan s k.val).queue = [] → chan t k.val = chan s k.val) ∧
            ((chan s k.val).failed = false → (chan s k.val).retraining = false → isolated s = false →
              ∀ b : Nat × Bool × Nat, pickBurst s k.val (chan s k.val).queue = some b →
              ∀ r : BurstResult, r = ((results.find? (fun e => e.1 == k)).map (fun e => e.2)).getD .good →
                (r = .good ∨ r = .corrected ∨ r = .eccReport ∨ r = .uncorrectable → chan t k.val = { chan s k.val with
                  queue := (chan s k.val).queue.erase b, rows := mapSet (chan s k.val).rows (placeOf s b.1).bank (placeOf s b.1).seg, crcTries := 0 }) ∧
                (r = .uncorrectable → b.2.1 = false → lineBad t b.1 = true)))) ∧
    (∀ (k : Fin 128) (ok : Bool),
      ((chan s k.val).retraining = false → exec (.channelRetrain k ok) s = .next s) ∧
      ((chan s k.val).retraining = true → ∃ t : State, exec (.channelRetrain k ok) s = .next t ∧
        (odGet s 0x5300 0x16 < 2 ^ 63 → odGet t 0x5300 0x16 = odGet s 0x5300 0x16 + 1) ∧
        chan t k.val = { chan s k.val with
          retraining := false, retrains := min 255 ((chan s k.val).retrains + 1), trained := ok, failed := (chan s k.val).failed || !ok })) ∧
    (∀ x n : Nat, ∀ off : Nat, off = s.host.bar2Base.toNat + x % 2 ^ 32 →
      (s.host.linkUp = false → exec (.bar2Read x n) s = .next s) ∧
      (s.host.linkUp = true → s.host.d3hot = true → exec (.bar2Read x n) s = .next { s with sent := .unsupportedRequest :: s.sent }) ∧
      (barOpen s = true →
        ((usable s < off + n ∨ closedRange s off n = true) → ∃ t : State, exec (.bar2Read x n) s = .next t ∧ t.mem = s.mem ∧
          t.sent = .aer "Unsupported Request" :: .unsupportedRequest :: s.sent ∧ (odGet s 0x5300 0x19 < 2 ^ 63 → odGet t 0x5300 0x19 = odGet s 0x5300 0x19 + 1)) ∧
        (off + n ≤ usable s → closedRange s off n = false → ∃ t : State, exec (.bar2Read x n) s = .next t ∧ t.mem.cells = s.mem.cells ∧
          t.sent = (if bar2Bad s off n then .bar2Poisoned n else .bar2Data (cellsGet s.mem.cells off n)) :: s.sent))) ∧
    (∀ (x : Nat) (data : List (Option Byte)), ∀ off : Nat, off = s.host.bar2Base.toNat + x % 2 ^ 32 →
      (barOpen s = false → exec (.bar2Write x data) s = .next s) ∧
      (barOpen s = true → (usable s < off + data.length ∨ closedRange s off data.length = true) →
        ∃ t : State, exec (.bar2Write x data) s = .next t ∧ t.mem = s.mem ∧ t.sent = .aer "Unsupported Request" :: s.sent) ∧
      (barOpen s = true → off + data.length ≤ usable s → closedRange s off data.length = false → bar2Bad s off data.length = false →
        ∃ t : State, exec (.bar2Write x data) s = .next t ∧ ∀ a : Nat, cellGet t.mem.cells a =
          if off ≤ a ∧ a < off + data.length then ((data.getD (a - off) none).getD (cellGet s.mem.cells a)) else cellGet s.mem.cells a))

/-- USDO_DOWNLOAD, USDO_UPLOAD, USDO_SEGMENT_TIMEOUT, the NMT commands, HEARTBEAT, TPDO, BUS_OFF and NODE_ID_WRITE (R391–R398). -/
def Obligations.CanNodeServices : Prop :=
  ∀ s : State,
    (∀ node : BitVec 8, ∀ mine : Bool, mine = (decide (s.can.node ≠ 0) && decide (s.can.nmt ≠ 0) && (decide (node = 0) || decide (node.toNat = s.can.node))) →
      (mine = false → ∀ y ∈ ([.nmtStart node, .nmtStop node, .nmtEnterPreoperational node, .nmtResetCommunication node] : List Instr), exec y s = .next s) ∧
      (mine = true →
        (∀ y ∈ ([(.nmtStart node, 5), (.nmtStop node, 4), (.nmtEnterPreoperational node, 0x7F)] : List (Instr × Nat)),
          ∃ t : State, exec y.1 s = .next t ∧ t.can = { s.can with nmt := y.2 } ∧ Only [.dict, .can] s t ∧ OnlyEntries [(0x1100, 0x10)] s t) ∧
        (∃ t : State, exec (.nmtResetCommunication node) s = .next t ∧ t.can = { s.can with nmt := if odGet s 0x1100 5 = 1 then 5 else 0x7F } ∧
          t.sent = .can (0x700 + s.can.node) [0] :: s.sent ∧ Only [.dict, .can, .sent] s t ∧ OnlyEntries [(0x1100, 0x10), (0x1100, 0x11)] s t))) ∧
    (∀ (index : BitVec 16) (sub : BitVec 8) (data : Bytes),
      (canSpeaks s = false → ∀ y ∈ ([.usdoUpload index sub, .usdoDownload index sub data, .usdoSegmentTimeout] : List Instr), exec y s = .next s) ∧
      (canSpeaks s = true → s.can.renamed = false →
        (∃ t : State, exec .usdoSegmentTimeout s = .next t ∧ t.sent = .usdo 0 0x05040000 [] :: s.sent ∧ Only [.dict, .sent] s t) ∧
        ((index.toNat < 0x1100 ∨ 0x1200 ≤ index.toNat) →
          (∀ b : Bytes, dictRead s none index.toNat sub.toNat = .ok b → ∃ t : State, exec (.usdoUpload index sub) s = .next t ∧
            t.sent = .usdo 0 0 b :: s.sent ∧ Only [.dict, .sent] s t ∧ OnlyEntries [(0x1100, 0x10), (0x1100, 0x11), (0x1100, 0x14)] s t) ∧
          (∀ status abort : Nat, dictRead s none index.toNat sub.toNat = .error (status, abort) → ∃ t : State, exec (.usdoUpload index sub) s = .next t ∧
            t.sent = .usdo status abort [] :: s.sent ∧ Only [.dict, .sent] s t ∧ OnlyEntries [(0x1100, 0x10), (0x1100, 0x11), (0x1100, 0x15)] s t)) ∧
        (1048576 < data.length → ∃ t : State, exec (.usdoDownload index sub data) s = .next t ∧ t.sent = .usdo 5 0x05040005 [] :: s.sent ∧ Only [.dict, .sent] s t) ∧
        (data.length ≤ 1048576 → ∀ u : State, u = dictWrite .can index.toNat sub.toNat data (bump 0x1100 0x10 s) → ∃ t : State,
          exec (.usdoDownload index sub data) s = .next t ∧
          .usdo u.dict.status u.dict.abort [] ∈ t.sent ∧ (u.can.renamed = false → t.sent = .usdo u.dict.status u.dict.abort [] :: u.sent ∧
            Only [.dict, .sent] u t)))) ∧
    ((s.can.node = 0 ∨ s.can.nmt = 0 ∨ odGet s 0x1100 1 = 0) → exec .heartbeat s = .next s) ∧
    (s.can.node ≠ 0 → s.can.nmt ≠ 0 → odGet s 0x1100 1 ≠ 0 → ∃ t : State, exec .heartbeat s = .next t ∧
      t.sent = .can (0x700 + s.can.node) [BitVec.ofNat 8 s.can.nmt] :: s.sent ∧ Only [.dict, .sent] s t ∧ OnlyEntries [(0x1100, 0x11)] s t) ∧
    (∀ n : Fin 4,
      ((s.can.node = 0 ∨ s.can.nmt ≠ 5 ∨ odGet s 0x1100 (6 + n.val) = 0) → exec (.tpdo n) s = .next s) ∧
      (s.can.node ≠ 0 → s.can.nmt = 5 → odGet s 0x1100 (6 + n.val) ≠ 0 → ∀ b : Bytes, s.can.frames[n.val]? = some b →
        ∃ t : State, exec (.tpdo n) s = .next t ∧ t.sent = .can (0x180 + 0x100 * n.val + s.can.node) b :: s.sent ∧ Only [.dict, .sent] s t)) ∧
    (s.can.node = 0 → exec .busOff s = .next s) ∧
    (s.can.node ≠ 0 → ∃ t : State, exec .busOff s = .next t ∧ (odGet s 0x1100 0x13 < 2 ^ 63 → odGet t 0x1100 0x13 = odGet s 0x1100 0x13 + 1) ∧
      Only [.dict, .can, .sent] s t ∧ (canSpeaks s = true → s.can.lastEmcy = none → t.can.lastEmcy = some s.time.ft)) ∧
    (∀ (src : Route) (v : BitVec 8), ∃ t : State, exec (.nodeIdWrite src v) s = .next t ∧ odGet t 0x1100 2 = min v.toNat 127 ∧
      t.can = { s.can with renamed := false, node := if v = 0 then s.pwr.nodePins else min v.toNat 127 } ∧ Only [.dict, .can, .host, .sent] s t ∧
      (t.can.node ≠ 0 → t.sent.head? = some (.can (0x700 + t.can.node) [0])))

/-- DICTIONARY_STORE, DICTIONARY_RESTORE, DICTIONARY_DEFAULTS, DICTIONARY_ERASE, SNAPSHOT_TRIGGER, SNAPSHOT_PERIOD,
TELEMETRY_CAPTURE and SNAPSHOT_RESULT_READY (R146, R397, R408–R415). -/
def Obligations.StoredImagesAndSnapshots : Prop :=
  ∀ s : State,
    (∀ (src : Route) (v : BitVec 8) (ok : Bool),
      (storeClosed s = true → s.can.renamed = false →
        ∀ y ∈ ([.dictionaryStore src v ok, .dictionaryRestore src v, .dictionaryDefaults src v, .dictionaryErase src v] : List Instr),
          ∃ t : State, exec y s = .next t ∧ t.dict.imageA = s.dict.imageA ∧ t.dict.imageB = s.dict.imageB ∧ t.dict.od = s.dict.od ∧
            t.dict.status = 2 ∧ t.dict.abort = 0x08000020 ∧ t.dict.lastResult = 2 ∧ Only [.dict] s t) ∧
      (storeClosed s = false →
        (1048576 < imageLength (storableKeys.filterMap (imageRecord s)) → ∃ t : State, exec (.dictionaryStore src v ok) s = .next t ∧
          t.dict.imageA = s.dict.imageA ∧ t.dict.imageB = s.dict.imageB ∧ t.dict.lastResult = 3 ∧ t.dict.status = 2) ∧
        (imageLength (storableKeys.filterMap (imageRecord s)) ≤ 1048576 →
          (newestImage s = none → ∃ t : State, exec (.dictionaryStore src v ok) s = .next t ∧ t.dict.imageB = s.dict.imageB ∧
            t.dict.lastResult = (if ok then 1 else 4) ∧
            t.dict.imageA = if ok then some { major := 1, minor := 0, seq := 1, ft := s.time.ft, records := storableKeys.filterMap (imageRecord s) } else none) ∧
          (∀ i : DictImage, newestImage s = some (true, i) → ∃ t : State, exec (.dictionaryStore src v ok) s = .next t ∧ t.dict.imageB = s.dict.imageB ∧
            t.dict.imageA = if ok then some { major := 1, minor := 0, seq := (i.seq + 1) % 2 ^ 32, ft := s.time.ft, records := storableKeys.filterMap (imageRecord s) } else none) ∧
          (∀ i : DictImage, newestImage s = some (false, i) → ∃ t : State, exec (.dictionaryStore src v ok) s = .next t ∧ t.dict.imageA = s.dict.imageA ∧
            t.dict.imageB = if ok then some { major := 1, minor := 0, seq := (i.seq + 1) % 2 ^ 32, ft := s.time.ft, records := storableKeys.filterMap (imageRecord s) } else none)) ∧
        (∃ t : State, exec (.dictionaryErase src 3) s = .next t ∧ t.dict.imageA = none ∧ t.dict.imageB = none ∧ t.dict.lastResult = 1) ∧
        (newestImage s = none → ∃ t : State, exec (.dictionaryRestore src 1) s = .next t ∧ t.dict.lastResult = 1 ∧ t.dict.od = s.dict.od ∧ t.dict.status = 0) ∧
        (∃ t : State, exec (.dictionaryDefaults src 2) s = .next t ∧ t.dict.lastResult = 1 ∧ t.dict.imageA = s.dict.imageA ∧ t.dict.imageB = s.dict.imageB))) ∧
    (∀ (src : Route) (v : BitVec 8),
      (s.dict.snap.armed = true ∨ s.dict.snap.taken.isSome = true → ∃ t : State, exec (.snapshotTrigger src v) s = .next t ∧ t.dict.snap = s.dict.snap) ∧
      (s.dict.snap.armed = false → s.dict.snap.taken = none → ∃ t : State, exec (.snapshotTrigger src v) s = .next t ∧
        t.dict.snap = { s.dict.snap with armed := true, valid := false })) ∧
    (odGet s 0x1F30 3 = 0 ∨ s.dict.snap.armed = true ∨ s.dict.snap.taken.isSome = true → exec .snapshotPeriod s = .next s) ∧
    (odGet s 0x1F30 3 ≠ 0 → s.dict.snap.armed = false → s.dict.snap.taken = none → exec .snapshotPeriod s =
      .next { s with dict := { s.dict with snap := { s.dict.snap with armed := true, valid := false } } }) ∧
    (∃ t : State, exec .telemetryCapture s = .next t ∧ t.can.frames = tpdoFrames { s with time := t.time } ∧ Only [.time, .dict, .can] s t ∧
      t.time = (advanceTo (backgroundTick s 512 383) s).time ∧
      t.dict.snap = if s.dict.snap.armed then { s.dict.snap with
        armed := false, taken := some (t.time.ft, (snapshotItems s).map (itemValue { s with time := t.time, can := t.can })) } else s.dict.snap) ∧
    (s.dict.snap.taken = none → exec .snapshotResultReady s = .next s) ∧
    (∀ (ft : Nat) (l : List Nat), s.dict.snap.taken = some (ft, l) → exec .snapshotResultReady s =
      .next { s with dict := { s.dict with snap := { s.dict.snap with taken := none, seq := s.dict.snap.seq + 1, valid := true, ft := ft, values := l } } })

/-- The clamp report (R405). -/
def Obligations.ClampReportIsReadAndDiscarded : Prop :=
  ∀ s : State,
    dictRead s none 0x1F00 5 = .ok (s.dict.clamps.flatMap clampBytes) ∧
    (∀ (src : Route) (index sub place kind original kept : Nat), ∃ r : ClampRec, r.seq = s.dict.clampSeq + 1 ∧ r.index = index ∧ r.sub = sub ∧
      (report src index sub place kind original kept s).dict.clamps = (if 1024 ≤ s.dict.clamps.length then s.dict.clamps.drop 1 else s.dict.clamps) ++ [r]) ∧
    (∀ (src : Route) (v : BitVec 32), exec (.clampReportDiscard src v) s = .next { s with
      dict := { s.dict with clamps := s.dict.clamps.filter (fun r => decide (v.toNat < r.seq)), status := 0, abort := 0, clampCount := 0 } })

/-- The length of a write (R385, answered by R398). -/
def Obligations.AWriteOfAnotherLengthHasNoEffect : Prop :=
  ∀ (src : Route) (index : BitVec 16) (sub : BitVec 8) (data : Bytes) (s : State),
    ∀ e : Entry, findEntry index.toNat sub.toNat = some e → ∀ n : Nat, e.ty.size = some n → e.acc ≠ .ro → (e.acc = .rws → secure src = true) →
    s.can.renamed = false →
    (data.length ≠ n → exec (.entryWrite src index sub data) s = .next { s with dict := { s.dict with status := 5, abort := 0x06070010, clampCount := 0 } }) ∧
    (data.length = n → ∃ t : State, exec (.entryWrite src index sub data) s = .next t ∧ t.dict.abort ≠ 0x06070010)

/-- The SPDM requests, SESSION_HEARTBEAT_TIMEOUT, VENDOR_DEFINED_REQUEST, FIRMWARE_IMAGE_WRITE, BUNDLE_BIND and BUNDLE_BIND_DONE
(R419, R421–R425, R429, R430). -/
def Obligations.SecureSessionsAndImages : Prop :=
  ∀ (s : State) (id : Nat) (who : Requester) (nonce : Bytes) (slot op : BitVec 8) (offset len : BitVec 16) (verified first last : Bool) (req : MbxRequest),
    (∀ y ∈ ([.getVersion, .getCapabilities, .negotiateAlgorithms nonce, .getDigests, .getCertificate slot offset len, .challenge slot nonce,
        .getMeasurements slot verified nonce, .keyExchange who nonce, .finish id verified, .keyUpdate id op, .spdmHeartbeat id, .endSession id,
        .spdmUnsupportedRequest op, .vendorDefinedRequest id req, .firmwareImageWrite id first last nonce] : List Instr),
      (s.host.linkUp = false → exec y s = .next s) ∧
      (s.host.linkUp = true → s.sec.identityOk = false → exec y s = .next { s with sent := .spdm "ERROR" (textBytes "UnexpectedRequest") :: s.sent })) ∧
    (s.host.linkUp = true → s.sec.identityOk = true →
      exec .getVersion s = .next { s with sent := .spdm "VERSION" (textBytes "1.2") :: s.sent } ∧
      (∃ t : State, exec .getCapabilities s = .next t ∧ Only [.sent] s t ∧ t.sent.drop 1 = s.sent ∧ t.sent ≠ s.sent) ∧
      (∃ t : State, exec (.negotiateAlgorithms nonce) s = .next t ∧ Only [.sent] s t ∧ t.sent.drop 1 = s.sent ∧ t.sent ≠ s.sent) ∧
      exec .getDigests s = .next { s with sent := .spdm "DIGESTS" (natLe 64 (Config.sha512 Config.certificateChain).toNat) :: s.sent } ∧
      exec (.getCertificate slot offset len) s = .next { s with sent := (if slot = 0
        then .spdm "CERTIFICATE" ((Config.certificateChain.drop offset.toNat).take len.toNat) else .spdm "ERROR" (textBytes "InvalidRequest")) :: s.sent } ∧
      exec (.challenge slot nonce) s = .next { s with sent := (if slot = 0
        then .spdm "CHALLENGE_AUTH" (Config.rsaSign (natLe 64 (Config.sha512 Config.certificateChain).toNat ++ nonce))
        else .spdm "ERROR" (textBytes "InvalidRequest")) :: s.sent } ∧
      (∀ answer : Bytes, answer = (if op = 0 then [9] else if op = 255 then (List.range 9).flatMap (fun i => [BitVec.ofNat 8 (i + 1), 64, 0] ++ natLe 64 (measurement s (i + 1)).toNat)
          else [op, 64, 0] ++ natLe 64 (measurement s op.toNat).toNat) →
        exec (.getMeasurements op verified nonce) s = .next { s with sent := (if op.toNat ≤ 9 ∨ op = 255
          then .spdm "MEASUREMENTS" (if verified then answer ++ (nonce ++ Config.rsaSign (answer ++ nonce)) else answer ++ [])
          else .spdm "ERROR" (textBytes "InvalidRequest")) :: s.sent }) ∧
      exec (.spdmUnsupportedRequest op) s = .next { s with sent := .spdm "ERROR" (textBytes "UnsupportedRequest") :: s.sent } ∧
      (mapFree s.sec.sessions 4 = none → ∃ t : State, exec (.keyExchange who nonce) s = .next t ∧ t.sec = s.sec ∧
        t.sent = .spdm "ERROR" (textBytes "Busy") :: s.sent ∧ (odGet s 0x6000 0x11 < 2 ^ 63 → odGet t 0x6000 0x11 = odGet s 0x6000 0x11 + 1)) ∧
      (∀ n : Nat, mapFree s.sec.sessions 4 = some n →
        (roleFor s who = none → ∃ t : State, exec (.keyExchange who nonce) s = .next t ∧ t.sec = s.sec ∧
          t.sent = .spdm "ERROR" (textBytes "InvalidRequest") :: s.sent) ∧
        (∀ r : Role, roleFor s who = some r → ∃ t : State, exec (.keyExchange who nonce) s = .next t ∧
          t.sec = { s.sec with sessions := mapSet s.sec.sessions n { role := r, established := false, requestKey := 0, responseKey := 0 } } ∧
          Only [.sec, .free, .sent] s t)) ∧
      (mapGet s.sec.sessions id = none →
        ∀ y ∈ ([.finish id verified, .keyUpdate id op, .spdmHeartbeat id, .endSession id, .vendorDefinedRequest id req, .firmwareImageWrite id first last nonce] : List Instr),
          exec y s = .next { s with sent := .spdm "ERROR" (textBytes "InvalidRequest") :: s.sent }) ∧
      (∀ x : Session, mapGet s.sec.sessions id = some x →
        (x.established = false →
          (∃ t : State, exec (.finish id true) s = .next t ∧ t.sec = { s.sec with sessions := mapSet s.sec.sessions id { x with established := true } } ∧
            t.sent = .spdm "FINISH_RSP" [] :: s.sent) ∧
          (∃ t : State, exec (.finish id false) s = .next t ∧ t.sec = { s.sec with sessions := mapErase s.sec.sessions id } ∧
            t.sent = .spdm "ERROR" (textBytes "InvalidRequest") :: s.sent) ∧
          (∀ y ∈ ([.keyUpdate id op, .spdmHeartbeat id, .endSession id, .vendorDefinedRequest id req, .firmwareImageWrite id first last nonce] : List Instr),
            exec y s = .next { s with sent := .spdm "ERROR" (textBytes "InvalidRequest") :: s.sent })) ∧
        (x.established = true →
          exec (.finish id verified) s = .next { s with sent := .spdm "ERROR" (textBytes "InvalidRequest") :: s.sent } ∧
          (op = 1 ∨ op = 2 ∨ op = 3 → ∃ t : State, exec (.keyUpdate id op) s = .next t ∧ t.sent = .spdm "KEY_UPDATE_ACK" [op] :: s.sent ∧ Only [.sec, .sent] s t ∧
            t.sec = { s.sec with sessions := mapSet s.sec.sessions id { x with
              requestKey := if op = 3 then x.requestKey else x.requestKey + 1, responseKey := if op = 2 then x.responseKey + 1 else x.responseKey } }) ∧
          exec (.spdmHeartbeat id) s = .next { s with sent := .spdm "HEARTBEAT_ACK" [] :: s.sent } ∧
          exec (.endSession id) s = .next { s with sec := { s.sec with sessions := mapErase s.sec.sessions id }, sent := .spdm "END_SESSION_ACK" [] :: s.sent } ∧
          (s.can.renamed = false → ∀ r : MbxRequest, r = { req with op := 2 } → ∀ tn : Nat, x.role = .tenant tn →
            ∃ t : State, exec (.vendorDefinedRequest id r) s = .next t ∧ Only [.dict, .sent] s t ∧ OnlyEntries [(0x6000, 0x15)] s t ∧
              t.dict.status = 4 ∧ t.dict.abort = 0x06010000) ∧
          (s.can.renamed = false → ∀ tn : Nat, x.role = .tenant tn → ∃ t : State, exec (.firmwareImageWrite id first last nonce) s = .next t ∧
            t.sec = s.sec ∧ t.dict.status = 4 ∧ t.dict.abort = 0x06010000) ∧
          (x.role = .operator → s.host.secStaged = none → s.pwr.pwrWarn = false →
            (nonce.length ≤ 8388608 → ∃ t : State, exec (.firmwareImageWrite id true last nonce) s = .next t ∧
              (if s.sec.runningB then t.sec.fwB = s.sec.fwB else t.sec.fwA = s.sec.fwA) ∧
              (last = false → t.sec.fwWrite = some nonce) ∧
              (last = true → t.sec.fwWrite = none ∧ (if s.sec.runningB then t.sec.fwA else t.sec.fwB) =
                if Config.firmwareSigned nonce then some { version := Config.firmwareVersion nonce, bytes := nonce } else none)) ∧
            (s.sec.fwWrite = none → ∃ t : State, exec (.firmwareImageWrite id false last nonce) s = .next t ∧ t.sec = s.sec ∧
              t.dict.status = 5 ∧ t.dict.abort = 0x05040001)) ∧
          (x.role = .operator → s.pwr.pwrWarn = true → s.host.secStaged = none → ∃ t : State, exec (.firmwareImageWrite id first last nonce) s = .next t ∧
            t.sec = s.sec ∧ t.dict.abort = 0x08000020)))) ∧
    exec (.sessionHeartbeatTimeout id) s = .next { s with sec := { s.sec with sessions := mapErase s.sec.sessions id } } ∧
    (∀ src : Route, ∃ t : State, exec (.bundleBind src op) s = .next t ∧
      (s.sec.bindRunning = true → t.sec = s.sec ∧ t.dict.abort = 0x08000020) ∧
      (s.sec.bindRunning = false → t.sec = { s.sec with bindRunning := true, bindResult := 0 })) ∧
    (s.sec.bindRunning = false → exec .bundleBindDone s = .next s) ∧
    (s.sec.bindRunning = true → ∀ j : Nat, j = odGet s 0x6004 3 → ∀ off : Nat, off = odGet s 0x6004 1 → ∀ n : Nat, n = odGet s 0x6004 2 →
      ∀ c : Nat, c = (bindCode s j off n ((readRun s off n).getD [])).1 →
      ∃ t : State, exec .bundleBindDone s = .next t ∧ t.sec.bindRunning = false ∧ t.sec.bindResult = c ∧
        (c ≠ 1 → shardAt t j = shardAt s j ∧ (odGet s 0x6000 0x13 < 2 ^ 63 → odGet t 0x6000 0x13 = odGet s 0x6000 0x13 + 1)) ∧
        (c = 1 → (shardAt t j).bound = true))

/-- KEY_OFFER, KEY_PROOF, KEY_START, KEY_ACK, KEY_MESSAGE_RESEND, KEY_HANDSHAKE_RETRY, KEY_RENEWAL and KEY_SWITCH (R433–R438). -/
def Obligations.KeysAreAgreedAndSwitched : Prop :=
  ∀ (p : PortN) (s : State), ∀ k : Keying, k = (s.port p).key →
    (∀ (o : KeyOffer) (n : Bytes) (start : Nat), canKey s p = false →
      exec (.keyOffer p o) s = .next (takeMus p 0x0C s) ∧ exec (.keyProof p n) s = .next (takeMus p 0x0D s) ∧
      exec (.keyStart p n start) s = .next (takeMus p 0x0E s) ∧ exec (.keyRenewal p) s = .next s ∧ exec (.keyHandshakeRetry p) s = .next s ∧
      exec (.keyMessageResend p) s = .next s) ∧
    (canKey s p = true →
      (∀ o : KeyOffer,
        (leNat (idBytes o.publicKey) = (s.port p).idDigest.toNat → partnerRefusal s o = 0 → k.myOffer.isSome = true →
          ∃ t : State, exec (.keyOffer p o) s = .next t ∧ OnlyPort p s t ∧
            (t.port p).key = { k with theirOffer := some o, proofSent := true, resends := 0, msgNo := k.msgNo + 1 }) ∧
        (∀ stage : Nat, stage = (if leNat (idBytes o.publicKey) ≠ (s.port p).idDigest.toNat then 6 else partnerRefusal s o) → stage ≠ 0 → k.myOffer.isSome = true →
          ∃ t : State, exec (.keyOffer p o) s = .next t ∧ OnlyPort p s t ∧
            (t.port p).key = { k with
              fault := stage, myOffer := none, theirOffer := none, proofSent := false, resends := 0 } ∧
            (odGet s (0x6040 + p.val) (if stage = 6 then 5 else 6) < 2 ^ 31 →
              odGet t (0x6040 + p.val) (if stage = 6 then 5 else 6) = odGet s (0x6040 + p.val) (if stage = 6 then 5 else 6) + 1))) ∧
      (∀ (m o : KeyOffer) (signature : Bytes), k.myOffer = some m → k.theirOffer = some o → k.ms = none →
        (Config.rsaVerify (Config.sha512 o.publicKey) (proofText o m) signature = true → ∃ t : State, exec (.keyProof p signature) s = .next t ∧
          (t.port p).key = { k with ms := some (masterSecret k.label m o, (s.port p).idDigest), fault := 0, resends := 0 } ∧ AtPort p [] s t) ∧
        (Config.rsaVerify (Config.sha512 o.publicKey) (proofText o m) signature = false → ∃ t : State, exec (.keyProof p signature) s = .next t ∧
          (t.port p).key = { k with
            fault := 6, myOffer := none, theirOffer := none, proofSent := false, resends := 0 } ∧ OnlyPort p s t)) ∧
      (∀ (ms : Bytes) (d : BitVec 128), k.ms = some (ms, d) →
        (∃ t : State, exec (.keyRenewal p) s = .next t ∧ OnlyPort p s t ∧
          (t.port p).key = { k with txPend := some (Config.randomBytes s.free 16, superframeNow s p + 8, none), resends := 0, msgNo := k.msgNo + 1 } ∧
          (odGet s (0x6040 + p.val) 3 < 2 ^ 31 → odGet t (0x6040 + p.val) 3 = odGet s (0x6040 + p.val) 3 + 1)) ∧
        (∀ (n : Bytes) (start : Nat), ∃ t : State, exec (.keyStart p n start) s = .next t ∧ OnlyPort p s t ∧
          (t.port p).key = { k with
            rxPend := some (deriveKey ms (s.port p).idDigest ownDigest (slice n 0 16) (Config.randomBytes s.free 16) start, start), msgNo := k.msgNo + 1 })) ∧
      (k.fault ≠ 0 → ∃ t : State, exec (.keyHandshakeRetry p) s = .next t ∧ OnlyPort p s t ∧ (t.port p).key.fault = 0 ∧ (t.port p).key.ms = none ∧
        (t.port p).key.theirOffer = none ∧ (t.port p).key.resends = 0 ∧
        (t.port p).key.myOffer = some { publicKey := Config.identityKey, y := Config.dhPublic (s.free + 1), r := Config.randomBytes s.free 32, firmware := firmwareDigest s }) ∧
      (k.fault = 0 → exec (.keyHandshakeRetry p) s = .next s) ∧
      (∀ (sub : Nat) (data : Bytes), unanswered k = some (sub, data) →
        (k.resends < 8 → ∃ t : State, exec (.keyMessageResend p) s = .next t ∧ OnlyPort p s t ∧
          (t.port p).key = { k with resends := k.resends + 1, msgNo := k.msgNo + 1 }) ∧
        (8 ≤ k.resends → ∃ t : State, exec (.keyMessageResend p) s = .next t ∧ OnlyPort p s t ∧
          (t.port p).key = { k with
            txPend := none, fault := 6, myOffer := none, theirOffer := none, proofSent := false, resends := 0 }))) ∧
    (unanswered k = none → exec (.keyMessageResend p) s = .next s) ∧
    (∀ (n : Bytes) (start : Nat),
      (∀ (mine : Bytes) (at_ : Nat), k.txPend = some (mine, at_, none) → ∃ t : State, exec (.keyAck p n start) s = .next t ∧ AtPort p [] s t ∧
        (t.port p).key = if at_ = start then { k with txPend := some (mine, at_, some (slice n 0 16)), resends := 0 } else k) ∧
      ((∀ (mine : Bytes) (at_ : Nat), k.txPend ≠ some (mine, at_, none)) → exec (.keyAck p n start) s = .next (takeMus p 0x0F s))) ∧
    (k.txPend = none ∨ k.ms = none → exec (.keySwitch p) s = .next s) ∧
    (∀ (ms : Bytes) (d : BitVec 128) (mine : Bytes) (start : Nat) (ack : Option Bytes), k.ms = some (ms, d) → k.txPend = some (mine, start, ack) →
      ∃ t : State, exec (.keySwitch p) s = .next t ∧ OnlyPort p s t ∧ t.time.ft = max s.time.ft (k.since + start * 6425) ∧
        (∀ theirs : Bytes, ack = some theirs → (t.port p).key = { k with
          txKey := some (deriveKey ms ownDigest (s.port p).idDigest mine theirs start), txPend := none, age := min 15 (k.age + 1) }) ∧
        (ack = none → canKey s p = true → (t.port p).key = { k with
          txPend := some (Config.randomBytes s.free 16, superframeNow t p + 8, none), resends := 0, msgNo := k.msgNo + 1 } ∧
          (odGet s (0x6040 + p.val) 4 < 2 ^ 31 → odGet t (0x6040 + p.val) 4 = odGet s (0x6040 + p.val) 4 + 1)))

/-- LOG_FLUSH (R453), EVENT_ACKNOWLEDGE (R449), LANTERN_SAMPLE (R456), ECHO_REPLAY and ECHO_REPLAY_TIMEOUT (R458–R460). -/
def Obligations.LogLanternAndEcho : Prop :=
  ∀ s : State,
    (∃ t : State, exec .logFlush s = .next t ∧ t = { s with log := t.log } ∧ t.log = { s.log with fram := t.log.fram, pending := [] } ∧
      (s.log.fram.length + s.log.pending.length ≤ 8064 → t.log.fram = s.log.fram ++ s.log.pending) ∧
      (8064 ≤ s.log.fram.length + s.log.pending.length → t.log.fram.length = 8064 ∧
        ∃ old : List EventRec, s.log.fram ++ s.log.pending = old ++ t.log.fram)) ∧
    (∀ (src : Route) (v : BitVec 32), ∃ t : State, exec (.eventAcknowledge src v) s = .next t ∧ Only logged s t ∧
      t.log = { s.log with opened := s.log.opened.filter (fun e => decide (v.toNat < e.1)) } ∧ t.dict.status = 0 ∧
      t.pwr = { s.pwr with alertSeen := alertConditions { s with log := t.log } } ∧ t.can.reported = errorRegister { s with log := t.log }) ∧
    (odGet s 0x7101 1 = 0 → ∃ t : State, exec .lanternSample s = .next t ∧ t = { s with lantern := t.lantern } ∧ t.lantern = { s.lantern with watches := [] }) ∧
    (odGet s 0x7101 1 ≠ 0 → s.lantern.current = none → ∀ u : State, u = advanceTo (backgroundTick s 16384 16383) s →
      ∀ seen : List Watch, seen = (hangShapes u).map (fun h => {
        nodes := h.2, progress := h.2.map (progressOf u),
        times := (s.lantern.watches.find? (fun w => w.nodes == h.2 && w.progress == h.2.map (progressOf u))).elim 1 (fun w => w.times + 1) }) →
      (seen.all (fun w => w.times != 4) = true → ∃ t : State, exec .lanternSample s = .next t ∧ t.lantern = { s.lantern with watches := seen } ∧
        t.time.ft = max s.time.ft (backgroundTick s 16384 16383) ∧ Only [.time, .lantern] s t) ∧
      (∀ (p : PortN) (v : Fin 12), hangShapes u = [(.stuckPort, [.credit p.val v.val, .partner p.val v.val])] → seen.all (fun w => w.times == 4) = true →
        odGet s 0x7101 0x12 < 2 ^ 31 → ∃ t : State, exec .lanternSample s = .next t ∧ odGet t 0x7101 0x12 = odGet s 0x7101 0x12 + 1 ∧
          t.lantern.watches = seen ∧ Only (.time :: .lantern :: logged) s t)) ∧
    (s.lantern.current = none →
      exec .echoReplayTimeout s = .next s ∧
      (s.lantern.suspects.find? (fun g => !s.lantern.findings.any (fun f => f.1 == g)) = none → exec .echoReplay s = .next s) ∧
      (∀ g : List Nat, s.lantern.suspects.find? (fun g => !s.lantern.findings.any (fun f => f.1 == g)) = some g → odGet s 0x7101 0x14 < 2 ^ 31 →
        ∃ t : State, exec .echoReplay s = .next t ∧ t.lantern.current = some g ∧ t.lantern.suspects = s.lantern.suspects ∧ t.lantern.findings = s.lantern.findings ∧
          odGet t 0x7101 0x14 = odGet s 0x7101 0x14 + 1 ∧ Only [.cmp, .lantern, .dict] s t ∧
          (∀ k ∈ g, (ctxAt s k).state = .held → (ctxAt t k).state = .running ∧ (ctxAt t k).doing = .none ∧ (ctxAt t k).cons = (ctxAt s k).cons ∧
            (ctxAt t k).prod = (ctxAt s k).prod ∧ (ctxAt t k).copies = []) ∧
          (∀ k : Nat, (k ∉ g ∨ (ctxAt s k).state ≠ .held) → ctxAt t k = ctxAt s k))) ∧
    (∀ g : List Nat, s.lantern.current = some g → g.all (fun k => (ctxAt s k).state != .faulted) = true →
      g.any (fun k => (ctxAt s k).state != .held && (ctxAt s k).state != .free && (ctxAt s k).state != .aborting) = true →
      exec .echoReplay s = .next s ∧
      (s.lantern.findings.length + 1 < s.lantern.suspects.length → odGet s 0x7101 0x16 < 2 ^ 31 → ∃ t : State, exec .echoReplayTimeout s = .next t ∧
        t.lantern = { s.lantern with findings := s.lantern.findings ++ [(g, .inconclusive)], current := none } ∧
        odGet t 0x7101 0x16 = odGet s 0x7101 0x16 + 1 ∧ t.cmp = s.cmp) ∧
      (s.lantern.suspects = [g] → s.lantern.findings = [] → s.lantern.waiting = [] → odGet s 0x7101 0x17 < 2 ^ 31 → ∃ t : State, exec .echoReplayTimeout s = .next t ∧
        t.lantern = { s.lantern with suspects := [], findings := [], current := none } ∧ odGet t 0x7101 0x17 = odGet s 0x7101 0x17 + 1 ∧
        (∀ k ∈ g, (ctxAt s k).state = .held → (ctxAt t k).state = if (ctxAt s k).cons = (ctxAt s k).prod then .idle else .running) ∧
        (∀ k : Nat, (k ∉ g ∨ (ctxAt s k).state ≠ .held) → ctxAt t k = ctxAt s k)))

/-- Requests of resets (R462). -/
def Obligations.ResetRequestsNameADomainAndATarget : Prop :=
  ∀ (src : Route) (domain target : BitVec 16) (s : State),
    ∀ limit : Nat, limit = (match domain.toNat with
      | 9 => 23
      | 8 => 255
      | 7 => 63
      | 6 => 7
      | 5 => 15
      | _ => 0) →
    (∀ y ∈ ([(.portReset src (domain ++ target), 1), (.engineReset src (domain ++ target), 1), (.coreReset src (domain ++ target), 1),
        (.clusterReset src (domain ++ target), 1), (.tenantAbort src (domain ++ target), 1), (.crossbarReset src (domain ++ target), 1),
        (.warmDeviceReset src (domain ++ target), 1), (.managementReset src (domain ++ target), 2), (.coldReset src (domain ++ target), 2)] : List (Instr × Nat)),
      (y.2 = 2 → src ≠ .secured → src ≠ .restore → exec y.1 s = .next (endOp 4 0x06010000 s)) ∧
      (y.2 = 1 ∨ src = .secured →
        ((if y.2 = 1 then domain ∉ ([2, 4, 5, 6, 7, 8, 9] : List (BitVec 16)) else domain ∉ ([1, 3] : List (BitVec 16))) →
          exec y.1 s = .next (endOp 2 0x08000020 s)) ∧
        ((if y.2 = 1 then domain ∈ ([2, 4, 5, 6, 7, 8, 9] : List (BitVec 16)) else domain ∈ ([1, 3] : List (BitVec 16))) →
          ∀ u : State, u = (if target.toNat ≤ limit then beginOp s else clamped src 0x7102 y.2 (15 * 256) target.toNat limit (beginOp s)) →
            exec y.1 s = .next (requestReset { domain := domain.toNat, target := min target.toNat limit, cause := 1 } u) ∧
            (target.toNat ≤ limit → u = { s with dict := { s.dict with status := 0, abort := 0, clampCount := 0 } }) ∧
            (limit < target.toNat → u.dict.status = 1 ∧ u.dict.abort = 0 ∧ Only [.dict, .host, .sent] s u ∧ OnlyEntries [(0x1F00, 3)] s u ∧
              ∃ r : ClampRec, u.dict.clamps = (if 1024 ≤ s.dict.clamps.length then s.dict.clamps.drop 1 else s.dict.clamps) ++ [r] ∧
                r.index = 0x7102 ∧ r.sub = y.2 ∧ r.kind = 1 ∧ r.original = target.toNat ∧ r.clamped = limit))))

/-- The resets' effects (R402, R454, R461–R464). -/
def Obligations.ResetsClearTheirDomains : Prop :=
  ∀ (src : Route) (s : State), s.resets.running = [] → s.resets.waiting = [] →
    (∀ p : PortN, ∃ t : State, exec (.portReset src (BitVec.ofNat 32 (9 * 65536 + p.val))) s = .next t ∧
      (t.port p).train = (if role s p = 0 then .disabled else .detect) ∧ (role s p ≠ 0 → (t.port p).replay = [] ∧ (t.port p).sendReset = true ∧
        (t.port p).nextSeq = 0 ∧ (t.port p).expSeq = 0) ∧ t.resets.last = 9 * 65536 + p.val ∧ t.resets.running = [] ∧ t.routes = s.routes ∧ t.cmp = s.cmp ∧
      (odGet s 0x7103 9 < 2 ^ 63 → odGet t 0x7103 9 = odGet s 0x7103 9 + 1)) ∧
    (∀ (e : Fin 256) (core : CoreN) (cl : Fin 8),
      ∀ y ∈ ([(.engineReset src (BitVec.ofNat 32 (8 * 65536 + e.val)), { domain := 8, target := e.val, cause := 1 }, fun _ => false),
          (.coreReset src (BitVec.ofNat 32 (7 * 65536 + core.val)), { domain := 7, target := core.val, cause := 1 }, fun c => c == core.val),
          (.clusterReset src (BitVec.ofNat 32 (6 * 65536 + cl.val)), { domain := 6, target := cl.val, cause := 1 }, fun c => c / 8 == cl.val)]
          : List (Instr × ResetRun × (Nat → Bool))),
        keysRise s.cmp.ctxs = true → ∃ t : State, exec y.1 s = .next t ∧
          (∀ k : Nat, (ctxAt s k).state ≠ .free → (ctxAt s k).state ≠ .aborting → resetReach y.2.1.domain y.2.1.target k (ctxAt s k) = true →
            (ctxAt t k).state = .aborting ∧ (ctxAt t k).copies = [] ∧ t.resets.running = [y.2.1]) ∧
          (∀ k : Nat, resetReach y.2.1.domain y.2.1.target k (ctxAt s k) = false → ctxAt t k = ctxAt s k) ∧
          ((liveSlots s).all (fun x => !resetReach y.2.1.domain y.2.1.target x.1 x.2) = true → t.resets.running = [] ∧
            t.resets.last = y.2.1.domain * 65536 + y.2.1.target) ∧
          (∀ x ∈ t.cmp.cache, y.2.2 (keyCore x.1) = false) ∧ (∀ x ∈ t.cmp.sp, y.2.2 (x.1 / 2 ^ 20) = false) ∧
          (∀ x ∈ s.cmp.sp, y.2.2 (x.1 / 2 ^ 20) = false → x ∈ t.cmp.sp) ∧ t.ports = s.ports ∧ t.mem = s.mem) ∧
    (∀ tn : TenantN, keysRise s.cmp.ctxs = true → keysRise s.coll.wins = true →
      ∃ t : State, exec (.tenantAbort src (BitVec.ofNat 32 (5 * 65536 + tn.val))) s = .next t ∧ tn.val ∈ t.cal.stopped ∧
        (∀ k : Nat, (ctxAt s k).state ≠ .free → (ctxAt s k).tenant = tn.val → (ctxAt t k).state = .aborting) ∧
        (∀ k : Nat, (ctxAt s k).state ≠ .free → (ctxAt s k).tenant ≠ tn.val → ctxAt t k = ctxAt s k) ∧
        (∀ i : Nat, winBound (winAt s i) = true → dTenant (winAt s i).desc = tn.val → (winAt t i).state = 2 ∧ (winAt s i).running = (winAt t i).running ∧
          ((winAt s i).running.isSome = true → (winAt t i).stepRec.failed = true)) ∧
        (isolated s = false → t.sw = s.sw ∧ t.ports = s.ports) ∧ t.mem = s.mem ∧ t.cmp.kernels = s.cmp.kernels) ∧
    (s.grotto.lines = [] → ∃ t : State, exec (.crossbarReset src 0x00040000) s = .next t ∧ t.sw.voqs = [] ∧ t.sw.comb = [] ∧
      (∀ p : PortN, (t.port p).train = if (s.port p).train = .disabled then .disabled else .lock) ∧
      t.routes = s.routes ∧ t.cmp = s.cmp ∧ t.mem = s.mem ∧ assigned t = assigned s ∧ t.resets.last = 0x40000 ∧ t.cal.bank0 = s.cal.bank0 ∧ t.cal.bank1 = s.cal.bank1) ∧
    (∃ t : State, exec (.warmDeviceReset src 0x00020000) s = .next t ∧ t.pwr.warmRunning = true ∧
      t.resets.running = [{ domain := 2, target := 0, cause := 1 }] ∧ t.bep.intake.all (fun c => !isRequest c.op) = true ∧ t.grotto.pending = []) ∧
    (s.pwr.warmRunning = false → exec .warmResetPortsDown s = .next s ∧ ∀ l : List (Fin 128), exec (.warmResetComplete l) s = .next s) ∧
    (s.pwr.clockLost = true → ∀ l : List (Fin 128), exec (.warmResetComplete l) s = .next s) ∧
    (s.pwr.warmRunning = true →
      (∃ t : State, exec .warmResetPortsDown s = .next t ∧ (∀ p : PortN, (t.port p).train = .disabled) ∧ t.mem.state = .selfRefresh) ∧
      (s.pwr.clockLost = false → ∀ l : List (Fin 128), ∃ t : State, exec (.warmResetComplete l) s = .next t ∧ t.time.ft = 0 ∧ t.time.mode = .free ∧
        t.routes = {} ∧ t.cal = State.reset.cal ∧ t.coll.wins = [] ∧ (∀ x ∈ t.coll.shards, x.2.state = 0) ∧ t.cmp.ctxs = [] ∧
        t.sw.voqs = [] ∧ t.mem.cells = s.mem.cells ∧ t.pwr.warmRunning = false ∧ t.cmp.kernels = s.cmp.kernels ∧
        (∀ k ∈ l, mapGet s.mem.chans k.val ≠ none → (chan t k.val).failed = true))) ∧
    (∀ y ∈ ([(.managementReset .secured 0x00030000, 1), (.watchdogExpiry, 2)] : List (Instr × Nat)), ∃ t : State, exec y.1 s = .next t ∧
      t.resets.running = [{ domain := 3, target := 0, cause := y.2 }] ∧ t.host.ready = false ∧ t.can.nmt = 0 ∧ t.sec.sessions = [] ∧
      t.dict.clamps = [] ∧ t.host.running = none ∧ t.dict.blobs = s.dict.blobs ∧ t.time = s.time ∧ t.ports = s.ports ∧ t.cmp.ctxs = s.cmp.ctxs ∧ t.mem = s.mem ∧
      (s.host.running.isSome = true → s.host.discard = false → t.host.rsp.status = 2 ∧ t.host.rsp.abort = 0x08000000)) ∧
    (s.pwr.coldHeld = true ∨ s.host.ready = true → exec .managementBoot s = .next s) ∧
    (s.pwr.coldHeld = false → s.host.ready = false → ∀ inB : Bool, bootChoice s = some inB → s.pwr.mgmtHeld = true → ∃ t : State,
      exec .managementBoot s = .next t ∧ t.host.ready = true ∧ t.pwr.mgmtHeld = false ∧ t.can.renamed = false ∧ t.sec = s.sec ∧ t.ports = s.ports ∧ t.mem = s.mem) ∧
    (∃ t : State, exec (.coldReset .secured 0x00010000) s = .next t ∧ t.mem.cells = [] ∧ t.dict.imageA = s.dict.imageA ∧ t.dict.imageB = s.dict.imageB ∧
      t.sec.fwA = s.sec.fwA ∧ t.sec.fwB = s.sec.fwB ∧ t.sec.sessions = [] ∧ (∃ new : List EventRec, t.log.fram = s.log.fram ++ new ∨ 8064 < s.log.fram.length + new.length) ∧
      t.time = State.reset.time ∧ t.cmp = State.reset.cmp ∧ t.coll = State.reset.coll ∧ t.routes = State.reset.routes ∧
      (s.pwr.low ≠ [] → t.pwr.coldHeld = true ∧ t.ports = State.reset.ports) ∧ (s.pwr.low = [] → t.pwr.coldHeld = false ∧ t.mem.state = .ready ∧ t.resets.last = 0x10000)) ∧
    (s.sw.faultTimes[15]? = none → exec .ledgerFaultLimit s = .next s) ∧
    (∀ x : Nat, s.sw.faultTimes[15]? = some x → (x + 1250000000 < s.time.ft → exec .ledgerFaultLimit s = .next s) ∧
      (s.time.ft ≤ x + 1250000000 → ∃ t : State, exec .ledgerFaultLimit s = .next t ∧ t.sw.voqs = [] ∧ t.sw.faultTimes = [] ∧ t.resets.last = 0x40000 ∧
        ∀ p : PortN, (t.port p).train = if (s.port p).train = .disabled then .disabled else .lock))

/-- MUSTER_CENSUS (R467), VIEW_ORIGINATE, VIEW (R470, R471), FSET, LOSS (R472), MUSTER_WINDOW_END (R473), MUSTER_RECOVERY_STEP
(R474), READMISSION (R477). -/
def Obligations.MusterAgreesOnLosses : Prop :=
  ∀ s : State,
    (odGet s 0x7120 2 = 0 → exec .musterCensus s = .next s) ∧
    (odGet s 0x7120 2 ≠ 0 → ∃ t : State, exec .musterCensus s = .next t ∧ odGet t 0x7120 2 = 0 ∧
      t.time.ft = max s.time.ft (ceilTo 131072 (odGet s 0x7120 2)) ∧ OnlyEntries [(0x7120, 2)] s t ∧ Only [.time, .dict, .muster] s t ∧
      (odGet s 0x7120 1 = 1 → t.muster = { s.muster with
        running := true, census := true, members := [ownNo s], change := [], views := [], missed := [], relayed := [], partitioned := false,
        changedB := false, differed := false }) ∧
      (odGet s 0x7120 1 ≠ 1 → t.muster = { s.muster with running := false, census := false })) ∧
    (∀ at_ : Nat, at_ = (if s.time.ft % 131072 < 65536 then max s.time.ft (s.time.ft - s.time.ft % 131072 + 32768)
        else s.time.ft - s.time.ft % 131072 + 163840) → ∀ u : State, u = advanceTo at_ s →
      (takesPart u = false ∨ u.muster.relayed.contains (coord u 31).toNat = true → exec .viewOriginate s = .next u) ∧
      (takesPart u = true → u.muster.relayed.contains (coord u 31).toNat = false → ∃ t : State, exec .viewOriginate s = .next t ∧
        t.muster = { u.muster with relayed := (coord u 31).toNat :: u.muster.relayed } ∧ t.time = u.time ∧
        ∀ p : PortN, (musPort u p = false → t.port p = u.port p) ∧ (musPort u p = true → vc11Open u p = true →
          (t.port p).replay = (u.port p).replay ++ [((u.port p).nextSeq, musCell u p 1 0 (viewBytes (ownView u false)))]))) ∧
    (∀ (p : PortN) (v : ViewCell) (e : BitVec 32) (b : Bytes) (l : List (BitVec 16)),
      (takesPart s = false ∨ musPort s p = false →
        exec (.view p v) s = .next (takeMus p 1 s) ∧ exec (.fset p e b) s = .next (takeMus p 2 s) ∧ exec (.loss p e l) s = .next (takeMus p 3 s)) ∧
      (takesPart s = true → musPort s p = true →
        (v.origin.toNat / 32 = ownNo s → exec (.view p v) s = .next (takeMus p 1 s)) ∧
        (v.origin.toNat / 32 ≠ ownNo s → ∃ t : State, exec (.view p v) s = .next t ∧ t.muster = { s.muster with
          relayed := if s.muster.relayed.contains (relayKey v) then s.muster.relayed else relayKey v :: s.muster.relayed,
          change := if v.flags.getLsbD 0 && !v.flags.getLsbD 1 && (surviving s).contains (v.origin.toNat / 32)
              && !s.muster.change.contains (v.origin.toNat / 32 * 32 + 31)
            then s.muster.change ++ [v.origin.toNat / 32 * 32 + 31] else s.muster.change,
          views := if phaseB s && !v.flags.getLsbD 1 && !s.muster.views.contains (v.origin.toNat / 32)
            then v.origin.toNat / 32 :: s.muster.views else s.muster.views,
          differed := s.muster.differed || (phaseB s && !(v.epoch.toNat == s.muster.epoch && v.check.toNat == musterCheck s)) }) ∧
        (∃ t : State, exec (.fset p e b) s = .next t ∧ t.muster.epoch = max s.muster.epoch e.toNat ∧ t.muster.lost = s.muster.lost ∧
          (∀ x : Nat, x ∈ t.muster.failed ↔ x ∈ s.muster.failed ∨ x ∈ bitmapGvs (slice b 0 255))) ∧
        (∃ t : State, exec (.loss p e l) s = .next t ∧ t.muster.epoch = max s.muster.epoch e.toNat ∧ t.muster.failed = s.muster.failed ∧
          (∀ x : Nat, x ∈ t.muster.lost ↔ x ∈ s.muster.lost ∨ x ∈ l.map (fun c => c.toNat))) ∧
        (e.toNat ≤ s.muster.epoch → unionAsc (bitmapGvs (slice b 0 255)) s.muster.failed = s.muster.failed →
          exec (.fset p e b) s = .next (takeMus p 2 s)) ∧
        (s.muster.epoch < e.toNat → (phaseB s = true → ∃ t : State, exec (.loss p e l) s = .next t ∧ t.muster.changedB = true) ∧
          ∃ t : State, exec (.loss p e l) s = .next t ∧ t.muster.agreeing = true ∧ t.muster.decided = false ∧
            (s.muster.agreeing = false → t.muster.before = surviving s)))) ∧
    (∀ u : State, u = advanceTo (slotTick s.time.ft 131072 65536) s →
      (takesPart u = false → exec .musterWindowEnd s = .next u) ∧
      (takesPart u = true → ∃ t : State, exec .musterWindowEnd s = .next t ∧ t.time = u.time ∧
        t.muster.views = [] ∧ t.muster.relayed = [] ∧ t.muster.changedB = false ∧ t.muster.differed = false ∧
        (u.muster.census = true → t.muster.census = false ∧ t.muster.epoch = u.muster.epoch ∧ ∀ x : Nat, x ∈ t.muster.members ↔ x = ownNo u ∨ x ∈ u.muster.views) ∧
        (u.muster.census = false → ∀ gone : List Nat, gone = (surviving u).filter (fun x => x != ownNo u && !u.muster.views.contains x) →
          t.muster.missed = gone ∧
          (gone.any (fun x => u.muster.missed.contains x) = true ∨ u.muster.change ≠ [] →
            t.muster.epoch = u.muster.epoch + 1 ∧ t.muster.agreeing = true ∧ t.muster.change = [] ∧
            (∀ x ∈ gone, x ∈ u.muster.missed → x ∈ t.muster.failed) ∧ (∀ x ∈ u.muster.change, if x % 32 = 31 then x / 32 ∈ t.muster.failed else x ∈ t.muster.lost)) ∧
          (gone.any (fun x => u.muster.missed.contains x) = false → u.muster.change = [] →
            (u.muster.agreeing = false → t.muster.epoch = u.muster.epoch ∧ t.muster.failed = u.muster.failed ∧ t.muster.lost = u.muster.lost) ∧
            (u.muster.agreeing = true → (u.muster.changedB = true ∨ u.muster.differed = true → t.muster.epoch = u.muster.epoch + 1 ∧ t.muster.agreeing = true) ∧
              (u.muster.changedB = false → u.muster.differed = false → t.muster.epoch = u.muster.epoch ∧ t.muster.agreeing = false ∧ t.muster.decided = true ∧
                t.muster.partitioned = (u.muster.partitioned || decide (2 * (surviving u).length < u.muster.before.length) ||
                  (decide (2 * (surviving u).length = u.muster.before.length) && !(surviving u).contains (u.muster.before.foldl min 2040)))))))) ) ∧
    (∀ u : State, u = advanceTo (slotTick s.time.ft 131072 98304) s → ∀ k : Nat, k = (if u.muster.tag.1 = u.muster.epoch then u.muster.tag.2 else 0) + 1 →
      (takesPart u = false ∨ u.muster.decided = false ∨ 4 < k → exec .musterRecoveryStep s = .next u) ∧
      (takesPart u = true → u.muster.decided = true → k ≤ 4 → ∃ t : State, exec .musterRecoveryStep s = .next t ∧ t.muster.tag = (u.muster.epoch, k) ∧
        t.muster.failed = u.muster.failed ∧ t.muster.lost = u.muster.lost ∧ t.muster.decided = decide (k ≠ 4) ∧
        (k = 1 → t.routes = { u.routes with lostGv := u.muster.failed, lostEp := u.muster.lost }) ∧
        (k = 2 → keysRise u.coll.wins = true → ∀ i : Nat, winBound (winAt u i) = true → (groupMembers u (winAt u i).desc).any (partyLost u) = true →
          (winAt t i).lostNow = true) ∧ (k ≠ 1 → t.routes = u.routes))) ∧
    (odGet s 0x7120 9 = 0 → exec .readmission s = .next s) ∧
    (odGet s 0x7120 9 ≠ 0 → ∃ t : State, exec .readmission s = .next t ∧ odGet t 0x7120 9 = 0 ∧ t.time.ft = max s.time.ft (odGet s 0x7120 9) ∧
      Only [.time, .routes, .dict, .muster] s t ∧ t.routes = { s.routes with lostGv := t.routes.lostGv, lostEp := t.routes.lostEp } ∧
      (odGet s 0x7120 0x16 < 2 ^ 63 → odGet t 0x7120 0x16 = odGet s 0x7120 0x16 + 1) ∧
      (∀ x : Nat, x ∈ t.muster.lost ↔ x ∈ s.muster.lost ∧ x ∉ readmitted s) ∧ (∀ x : Nat, x ∈ t.routes.lostEp ↔ x ∈ s.routes.lostEp ∧ x ∉ readmitted s) ∧
      (∀ x : Nat, x ∈ t.muster.failed ↔ x ∈ s.muster.failed ∧ x * 32 + 31 ∉ readmitted s) ∧
      (∀ x : Nat, x ∈ t.muster.members ↔ x ∈ s.muster.members ∨ x * 32 + 31 ∈ readmitted s))

/-- PWR_WARN_ASSERT, PWR_WARN_RELEASE (R478), POWER_LOSS (R479), RESET_RELEASE, SUPPLY_RESTORE (R489, R498), TEMPERATURE_SAMPLE
(R497, R501, R502), VOLTAGE_SAMPLE, OPTICAL_ENGINE_RESTART (R498), THROTTLE_EVALUATION (R500), REFCLK_LOSS, REFCLK_RESTORE,
AUXCLK_LOSS (R491) and the JTAG instructions (R495). -/
def Obligations.PowerClocksMonitorsAndPins : Prop :=
  ∀ s : State,
    (s.pwr.pwrWarn = true → exec .pwrWarnAssert s = .next s) ∧
    (s.pwr.pwrWarn = false → exec .pwrWarnRelease s = .next s ∧ ∃ t : State, exec .pwrWarnAssert s = .next t ∧ t.pwr.pwrWarn = true ∧
      (s.log.fram.length + s.log.pending.length ≤ 8064 → t.log.fram = s.log.fram ++ s.log.pending) ∧ t.log.pending.length ≤ 1 ∧ t.sec.fwWrite = none ∧
      (s.dict.storeBusy = true ∨ s.dict.restoreBusy = true → t.dict.storeBusy = false ∧ t.dict.restoreBusy = false ∧ t.dict.lastResult = 5) ∧
      t.dict.imageA = s.dict.imageA ∧ t.dict.imageB = s.dict.imageB ∧ t.mem = s.mem) ∧
    (s.pwr.pwrWarn = true → ∃ t : State, exec .pwrWarnRelease s = .next t ∧ t.pwr.pwrWarn = false ∧ Only logged s t) ∧
    (∃ t : State, exec .powerLoss s = .next t ∧ t.pwr.coldHeld = true ∧ t.mem = State.reset.mem ∧ t.ports = State.reset.ports ∧ t.cmp = State.reset.cmp ∧
      t.dict.imageA = s.dict.imageA ∧ t.dict.imageB = s.dict.imageB ∧ t.sec.fwA = s.sec.fwA ∧ t.sec.fwB = s.sec.fwB ∧ t.log.fram = s.log.fram ∧
      t.log.pending = [] ∧ t.sent = s.sent) ∧
    (∀ u : State, u = enterCold s → ∃ t : State, exec .resetRelease s = .next t ∧ t.pwr.trayPos = s.pwr.trayPins ∧
      (badRails u = [] → t.pwr.coldHeld = false ∧ t.mem.state = .ready ∧ t.mem.cells = [] ∧ t.resets.last = 0x10000) ∧
      (badRails u ≠ [] → t.pwr.coldHeld = true ∧ t.mem = State.reset.mem ∧ t.ports = State.reset.ports)) ∧
    (s.pwr.coldHeld = false → exec .supplyRestore s = .next s) ∧
    (s.pwr.coldHeld = true → ∃ t : State, exec .supplyRestore s = .next t ∧ t.pwr.coldHeld = false ∧ t.pwr.low = [] ∧ t.mem.state = .ready) ∧
    (∀ i : Fin 48,
      (∀ r : Option Int, (∀ x : Int, r = some x → x < -4000 ∨ 15000 < x) → ∃ t : State, exec (.temperatureSample i r) s = .next t ∧
        i.val ∈ t.pwr.failedSensors ∧ mapGet t.pwr.temps i.val = some 0 ∧ t.pwr.tripped = s.pwr.tripped ∧ t.ports = s.ports ∧ t.mem = s.mem) ∧
      (∀ x : Int, -4000 ≤ x → x ≤ 15000 →
        (i.val < 36 → x < 11000 → ∃ t : State, exec (.temperatureSample i (some x)) s = .next t ∧ t = { s with pwr := t.pwr } ∧
          mapGet t.pwr.temps i.val = some (x + 27315).toNat ∧ i.val ∉ t.pwr.failedSensors ∧ i.val ∉ t.pwr.tripNear ∧ t.pwr.tripped = s.pwr.tripped) ∧
        (i.val < 36 → 11000 ≤ x → i.val ∉ s.pwr.tripNear → ∃ t : State, exec (.temperatureSample i (some x)) s = .next t ∧ t = { s with pwr := t.pwr } ∧
          i.val ∈ t.pwr.tripNear ∧ t.pwr.tripped = s.pwr.tripped) ∧
        (i.val < 36 → 11000 ≤ x → i.val ∈ s.pwr.tripNear → s.pwr.tripped = false → keysRise s.cmp.ctxs = true →
          ∃ t : State, exec (.temperatureSample i (some x)) s = .next t ∧ t.pwr.tripped = true ∧ (∀ p : PortN, (t.port p).train = .disabled) ∧
            t.mem.state = .selfRefresh ∧ (∀ k : Nat, (ctxAt s k).state ≠ .free → (ctxAt t k).state = .aborting) ∧
            (odGet s 0x7200 0x17 < 2 ^ 63 → odGet t 0x7200 0x17 = odGet s 0x7200 0x17 + 1)) ∧
        (∀ p : PortN, i.val = 36 + (p.val - 12) → 12 ≤ p.val → 8500 ≤ x → p.val ∉ s.pwr.hot → ∃ t : State, exec (.temperatureSample i (some x)) s = .next t ∧
          p.val ∈ t.pwr.hot ∧ (t.port p).engineOff = true ∧ OnlyPort p s t ∧ t.pwr.tripped = s.pwr.tripped) ∧
        (∀ p : PortN, i.val = 36 + (p.val - 12) → 12 ≤ p.val → x < 8000 → p.val ∈ s.pwr.hot → ∃ t : State, exec (.temperatureSample i (some x)) s = .next t ∧
          p.val ∉ t.pwr.hot ∧ t.port p = { s.port p with engineOff := s.pwr.voptOff } ∧ OnlyPort p s t))) ∧
    (∀ (m : Fin 32) (v : Nat), ∀ rail : Nat, rail = railOf m.val →
      (outside rail 5 v = false → 9 * nominal rail ≤ 10 * v → ∃ t : State, exec (.voltageSample m v) s = .next t ∧ m.val ∉ t.pwr.warn ∧ m.val ∉ t.pwr.low ∧
        mapGet t.pwr.volts m.val = some v ∧ Only [.pwr, .host, .can, .dict, .sent] s t) ∧
      (rail ≠ 5 → outside rail 5 v = true → 9 * nominal rail ≤ 10 * v → ∃ t : State, exec (.voltageSample m v) s = .next t ∧ m.val ∈ t.pwr.warn ∧
        m.val ∉ t.pwr.low ∧ mapGet t.pwr.volts m.val = some v ∧ Only logged s t) ∧
      (rail ≠ 5 → 10 * v < 9 * nominal rail → m.val ∉ s.pwr.low → ∃ t : State, exec (.voltageSample m v) s = .next t ∧ t.pwr.coldHeld = true ∧ m.val ∈ t.pwr.low ∧
        t.mem = State.reset.mem ∧ t.ports = State.reset.ports ∧ t.dict.imageA = s.dict.imageA ∧ t.sec.fwA = s.sec.fwA)) ∧
    (s.pwr.voptOff = false → exec .opticalEngineRestart s = .next s) ∧
    (s.pwr.voptOff = true → ∃ t : State, exec .opticalEngineRestart s = .next t ∧ t.pwr = { s.pwr with voptOff := false } ∧
      (∀ p : PortN, t.port p = { s.port p with engineOff := s.pwr.hot.contains p.val }) ∧ Only [.ports, .pwr] s t) ∧
    (∀ power : Option Nat, ∀ u : State, u = advanceTo (ceilTo 16384 s.time.ft) s → ∃ t : State, exec (.throttleEvaluation power) s = .next t ∧ t.time = u.time ∧
      t.pwr.thermal = nextThermal u ∧
      (power = none → t.pwr.powerLevel = s.pwr.powerLevel) ∧
      (∀ w : Nat, power = some w → t.pwr.powerLevel = (if 10 * odGet s 0x7200 3 < w then min 4 (s.pwr.powerLevel + 1)
        else if 100 * w < 950 * odGet s 0x7200 3 then s.pwr.powerLevel - 1 else s.pwr.powerLevel)) ∧
      t.pwr.level = (if s.pwr.dieFailed then 4 else max (max t.pwr.thermal t.pwr.powerLevel) (odGet s 0x7200 4)) ∧
      t.pwr.highestLevel = (if s.pwr.level = 0 then t.pwr.level else max t.pwr.level s.pwr.highestLevel) ∧ Only (.time :: logged) s t) ∧
    (s.pwr.clockLost = true → exec .refclkLoss s = .next s) ∧
    (s.pwr.clockLost = false → exec .refclkRestore s = .next s ∧ ∃ t : State, exec .refclkLoss s = .next t ∧ t.pwr.clockLost = true ∧
      (s.pwr.coldHeld = true → t.ports = s.ports ∧ t.resets = s.resets) ∧
      (s.pwr.coldHeld = false → s.resets.running = [] → t.pwr.warmRunning = true ∧ t.resets.running = [{ domain := 2, target := 0, cause := 5 }])) ∧
    (s.pwr.clockLost = true → s.pwr.warmRunning = true → s.resets.running = [{ domain := 2, target := 0, cause := 5 }] → s.resets.waiting = [] →
      ∃ t : State, exec .refclkRestore s = .next t ∧ t.pwr.clockLost = false ∧ t.pwr.warmRunning = false ∧ t.time.ft = 0 ∧ t.routes = {} ∧
        t.mem.cells.length ≤ s.mem.cells.length ∧ t.resets.running = []) ∧
    (s.pwr.mgmtHeld = true → exec .auxclkLoss s = .next s) ∧
    (s.pwr.mgmtHeld = false → ∃ t : State, exec .auxclkLoss s = .next t ∧ t.pwr = { s.pwr with mgmtHeld := true } ∧ t.host.ready = false ∧ t.can.nmt = 0 ∧
      t.sec.sessions = [] ∧ t.resets.running ≠ [] ∧ t.time = s.time ∧ t.ports = s.ports ∧ t.mem = s.mem) ∧
    exec .jtagBypass s = .next { s with pwr := { s.pwr with jtag := .bypass }, sent := .jtag [0] :: s.sent } ∧
    exec .jtagIdcode s = .next { s with
      pwr := { s.pwr with jtag := .idcode }, sent := .jtag (natLe 4 (0x24000 + 2 * Config.manufacturer.toNat + 1)) :: s.sent } ∧
    (∃ t : State, exec .jtagSamplePreload s = .next t ∧ t.pwr = { s.pwr with jtag := .samplePreload } ∧ t.free = s.free + 1 ∧ t.sent.drop 1 = s.sent ∧
      Only [.pwr, .sent, .free] s t) ∧
    (∀ pins : List Bool, ∃ t : State, exec (.jtagExtest pins) s = .next t ∧ t.pwr = { s.pwr with jtag := .extest, pins := pins } ∧ t.free = s.free + 1 ∧
      t.sent.drop 1 = s.sent ∧ Only [.pwr, .sent, .free] s t)

/-- The header of a cell (R95): packing and unpacking agree, and every field stands at its bytes. -/
def Obligations.HeaderPacksEveryField : Prop :=
  (∀ c : Cell, unpackHeader (packHeader c) c.payload = c) ∧
  (∀ (h : BitVec 256) (b : Bytes), h.extractLsb' 170 6 = 0 → packHeader (unpackHeader h b) = h ∧ (unpackHeader h b).payload = b) ∧
  (∀ c : Cell, (headerBytes c).length = 32 ∧ fieldAt (headerBytes c) 0 8 = c.addr.toNat ∧ fieldAt (headerBytes c) 8 2 = c.src.toNat ∧
    fieldAt (headerBytes c) 10 1 = 16 * c.vc.toNat + c.ver.toNat ∧ fieldAt (headerBytes c) 11 1 = 32 * c.scope.toNat + c.op.toNat ∧
    fieldAt (headerBytes c) 12 1 = 16 * c.tenant.toNat + c.sub.toNat ∧
    fieldAt (headerBytes c) 13 1 = 16 * c.hops.toNat + 8 * c.nonmin.toNat + 2 * c.cmark.toNat + c.epoch.toNat ∧
    fieldAt (headerBytes c) 14 1 = c.via.toNat ∧ fieldAt (headerBytes c) 15 1 = c.len.toNat ∧ fieldAt (headerBytes c) 16 2 = c.tag.toNat ∧
    fieldAt (headerBytes c) 18 3 = c.tally.toNat ∧ fieldAt (headerBytes c) 21 1 = 2 * c.pad.toNat + c.last.toNat ∧
    fieldAt (headerBytes c) 22 2 = c.window.toNat ∧ fieldAt (headerBytes c) 24 4 = 16 * c.chunk.toNat + c.cell.toNat ∧
    fieldAt (headerBytes c) 28 4 = c.aux.toNat)
end

