-- ==== Sys2Proof/Laws/State.lean ====
section
/-!
SUPPORT. What each named update of the state leaves alone and what it sets, field by field, so that no proof unfolds a
record update.
-/

namespace Sys2Proof.Machine

open Sys2Proof

@[simp] theorem modPort_pending (p : PortN) (f : Port → Port) (s : State) : (modPort p f s).pending = s.pending := rfl
@[simp] theorem modPort_time (p : PortN) (f : Port → Port) (s : State) : (modPort p f s).time = s.time := rfl
@[simp] theorem modPort_sw (p : PortN) (f : Port → Port) (s : State) : (modPort p f s).sw = s.sw := rfl
@[simp] theorem modPort_routes (p : PortN) (f : Port → Port) (s : State) : (modPort p f s).routes = s.routes := rfl
@[simp] theorem modPort_bep (p : PortN) (f : Port → Port) (s : State) : (modPort p f s).bep = s.bep := rfl
@[simp] theorem modPort_ep (p : PortN) (f : Port → Port) (s : State) : (modPort p f s).ep = s.ep := rfl
@[simp] theorem modPort_grotto (p : PortN) (f : Port → Port) (s : State) : (modPort p f s).grotto = s.grotto := rfl
@[simp] theorem modPort_cal (p : PortN) (f : Port → Port) (s : State) : (modPort p f s).cal = s.cal := rfl
@[simp] theorem modPort_cmp (p : PortN) (f : Port → Port) (s : State) : (modPort p f s).cmp = s.cmp := rfl
@[simp] theorem modPort_coll (p : PortN) (f : Port → Port) (s : State) : (modPort p f s).coll = s.coll := rfl
@[simp] theorem modPort_xlat (p : PortN) (f : Port → Port) (s : State) : (modPort p f s).xlat = s.xlat := rfl
@[simp] theorem modPort_mem (p : PortN) (f : Port → Port) (s : State) : (modPort p f s).mem = s.mem := rfl
@[simp] theorem modPort_dict (p : PortN) (f : Port → Port) (s : State) : (modPort p f s).dict = s.dict := rfl
@[simp] theorem modPort_host (p : PortN) (f : Port → Port) (s : State) : (modPort p f s).host = s.host := rfl
@[simp] theorem modPort_can (p : PortN) (f : Port → Port) (s : State) : (modPort p f s).can = s.can := rfl
@[simp] theorem modPort_sec (p : PortN) (f : Port → Port) (s : State) : (modPort p f s).sec = s.sec := rfl
@[simp] theorem modPort_log (p : PortN) (f : Port → Port) (s : State) : (modPort p f s).log = s.log := rfl
@[simp] theorem modPort_lantern (p : PortN) (f : Port → Port) (s : State) : (modPort p f s).lantern = s.lantern := rfl
@[simp] theorem modPort_muster (p : PortN) (f : Port → Port) (s : State) : (modPort p f s).muster = s.muster := rfl
@[simp] theorem modPort_pwr (p : PortN) (f : Port → Port) (s : State) : (modPort p f s).pwr = s.pwr := rfl
@[simp] theorem modPort_resets (p : PortN) (f : Port → Port) (s : State) : (modPort p f s).resets = s.resets := rfl
@[simp] theorem modPort_sent (p : PortN) (f : Port → Port) (s : State) : (modPort p f s).sent = s.sent := rfl
@[simp] theorem modPort_free (p : PortN) (f : Port → Port) (s : State) : (modPort p f s).free = s.free := rfl
@[simp] theorem modPort_ports (p : PortN) (f : Port → Port) (s : State) : (modPort p f s).ports = s.ports.set p (f s.ports[p]) := rfl

@[simp] theorem odSet_pending (index sub v : Nat) (s : State) : (odSet index sub v s).pending = s.pending := rfl
@[simp] theorem odSet_time (index sub v : Nat) (s : State) : (odSet index sub v s).time = s.time := rfl
@[simp] theorem odSet_ports (index sub v : Nat) (s : State) : (odSet index sub v s).ports = s.ports := rfl
@[simp] theorem odSet_sw (index sub v : Nat) (s : State) : (odSet index sub v s).sw = s.sw := rfl
@[simp] theorem odSet_routes (index sub v : Nat) (s : State) : (odSet index sub v s).routes = s.routes := rfl
@[simp] theorem odSet_bep (index sub v : Nat) (s : State) : (odSet index sub v s).bep = s.bep := rfl
@[simp] theorem odSet_ep (index sub v : Nat) (s : State) : (odSet index sub v s).ep = s.ep := rfl
@[simp] theorem odSet_grotto (index sub v : Nat) (s : State) : (odSet index sub v s).grotto = s.grotto := rfl
@[simp] theorem odSet_cal (index sub v : Nat) (s : State) : (odSet index sub v s).cal = s.cal := rfl
@[simp] theorem odSet_cmp (index sub v : Nat) (s : State) : (odSet index sub v s).cmp = s.cmp := rfl
@[simp] theorem odSet_coll (index sub v : Nat) (s : State) : (odSet index sub v s).coll = s.coll := rfl
@[simp] theorem odSet_xlat (index sub v : Nat) (s : State) : (odSet index sub v s).xlat = s.xlat := rfl
@[simp] theorem odSet_mem (index sub v : Nat) (s : State) : (odSet index sub v s).mem = s.mem := rfl
@[simp] theorem odSet_host (index sub v : Nat) (s : State) : (odSet index sub v s).host = s.host := rfl
@[simp] theorem odSet_can (index sub v : Nat) (s : State) : (odSet index sub v s).can = s.can := rfl
@[simp] theorem odSet_sec (index sub v : Nat) (s : State) : (odSet index sub v s).sec = s.sec := rfl
@[simp] theorem odSet_log (index sub v : Nat) (s : State) : (odSet index sub v s).log = s.log := rfl
@[simp] theorem odSet_lantern (index sub v : Nat) (s : State) : (odSet index sub v s).lantern = s.lantern := rfl
@[simp] theorem odSet_muster (index sub v : Nat) (s : State) : (odSet index sub v s).muster = s.muster := rfl
@[simp] theorem odSet_pwr (index sub v : Nat) (s : State) : (odSet index sub v s).pwr = s.pwr := rfl
@[simp] theorem odSet_resets (index sub v : Nat) (s : State) : (odSet index sub v s).resets = s.resets := rfl
@[simp] theorem odSet_sent (index sub v : Nat) (s : State) : (odSet index sub v s).sent = s.sent := rfl
@[simp] theorem odSet_free (index sub v : Nat) (s : State) : (odSet index sub v s).free = s.free := rfl

@[simp] theorem bumpBy_pending (index sub n w : Nat) (s : State) : (bumpBy index sub n w s).pending = s.pending := rfl
@[simp] theorem bumpBy_time (index sub n w : Nat) (s : State) : (bumpBy index sub n w s).time = s.time := rfl
@[simp] theorem bumpBy_ports (index sub n w : Nat) (s : State) : (bumpBy index sub n w s).ports = s.ports := rfl
@[simp] theorem bumpBy_sw (index sub n w : Nat) (s : State) : (bumpBy index sub n w s).sw = s.sw := rfl
@[simp] theorem bumpBy_routes (index sub n w : Nat) (s : State) : (bumpBy index sub n w s).routes = s.routes := rfl
@[simp] theorem bumpBy_bep (index sub n w : Nat) (s : State) : (bumpBy index sub n w s).bep = s.bep := rfl
@[simp] theorem bumpBy_ep (index sub n w : Nat) (s : State) : (bumpBy index sub n w s).ep = s.ep := rfl
@[simp] theorem bumpBy_grotto (index sub n w : Nat) (s : State) : (bumpBy index sub n w s).grotto = s.grotto := rfl
@[simp] theorem bumpBy_cal (index sub n w : Nat) (s : State) : (bumpBy index sub n w s).cal = s.cal := rfl
@[simp] theorem bumpBy_cmp (index sub n w : Nat) (s : State) : (bumpBy index sub n w s).cmp = s.cmp := rfl
@[simp] theorem bumpBy_coll (index sub n w : Nat) (s : State) : (bumpBy index sub n w s).coll = s.coll := rfl
@[simp] theorem bumpBy_xlat (index sub n w : Nat) (s : State) : (bumpBy index sub n w s).xlat = s.xlat := rfl
@[simp] theorem bumpBy_mem (index sub n w : Nat) (s : State) : (bumpBy index sub n w s).mem = s.mem := rfl
@[simp] theorem bumpBy_host (index sub n w : Nat) (s : State) : (bumpBy index sub n w s).host = s.host := rfl
@[simp] theorem bumpBy_can (index sub n w : Nat) (s : State) : (bumpBy index sub n w s).can = s.can := rfl
@[simp] theorem bumpBy_sec (index sub n w : Nat) (s : State) : (bumpBy index sub n w s).sec = s.sec := rfl
@[simp] theorem bumpBy_log (index sub n w : Nat) (s : State) : (bumpBy index sub n w s).log = s.log := rfl
@[simp] theorem bumpBy_lantern (index sub n w : Nat) (s : State) : (bumpBy index sub n w s).lantern = s.lantern := rfl
@[simp] theorem bumpBy_muster (index sub n w : Nat) (s : State) : (bumpBy index sub n w s).muster = s.muster := rfl
@[simp] theorem bumpBy_pwr (index sub n w : Nat) (s : State) : (bumpBy index sub n w s).pwr = s.pwr := rfl
@[simp] theorem bumpBy_resets (index sub n w : Nat) (s : State) : (bumpBy index sub n w s).resets = s.resets := rfl
@[simp] theorem bumpBy_sent (index sub n w : Nat) (s : State) : (bumpBy index sub n w s).sent = s.sent := rfl
@[simp] theorem bumpBy_free (index sub n w : Nat) (s : State) : (bumpBy index sub n w s).free = s.free := rfl

@[simp] theorem bump_pending (index sub : Nat) (s : State) : (bump index sub s).pending = s.pending := rfl
@[simp] theorem bump_time (index sub : Nat) (s : State) : (bump index sub s).time = s.time := rfl
@[simp] theorem bump_ports (index sub : Nat) (s : State) : (bump index sub s).ports = s.ports := rfl
@[simp] theorem bump_sw (index sub : Nat) (s : State) : (bump index sub s).sw = s.sw := rfl
@[simp] theorem bump_routes (index sub : Nat) (s : State) : (bump index sub s).routes = s.routes := rfl
@[simp] theorem bump_bep (index sub : Nat) (s : State) : (bump index sub s).bep = s.bep := rfl
@[simp] theorem bump_ep (index sub : Nat) (s : State) : (bump index sub s).ep = s.ep := rfl
@[simp] theorem bump_grotto (index sub : Nat) (s : State) : (bump index sub s).grotto = s.grotto := rfl
@[simp] theorem bump_cal (index sub : Nat) (s : State) : (bump index sub s).cal = s.cal := rfl
@[simp] theorem bump_cmp (index sub : Nat) (s : State) : (bump index sub s).cmp = s.cmp := rfl
@[simp] theorem bump_coll (index sub : Nat) (s : State) : (bump index sub s).coll = s.coll := rfl
@[simp] theorem bump_xlat (index sub : Nat) (s : State) : (bump index sub s).xlat = s.xlat := rfl
@[simp] theorem bump_mem (index sub : Nat) (s : State) : (bump index sub s).mem = s.mem := rfl
@[simp] theorem bump_host (index sub : Nat) (s : State) : (bump index sub s).host = s.host := rfl
@[simp] theorem bump_can (index sub : Nat) (s : State) : (bump index sub s).can = s.can := rfl
@[simp] theorem bump_sec (index sub : Nat) (s : State) : (bump index sub s).sec = s.sec := rfl
@[simp] theorem bump_log (index sub : Nat) (s : State) : (bump index sub s).log = s.log := rfl
@[simp] theorem bump_lantern (index sub : Nat) (s : State) : (bump index sub s).lantern = s.lantern := rfl
@[simp] theorem bump_muster (index sub : Nat) (s : State) : (bump index sub s).muster = s.muster := rfl
@[simp] theorem bump_pwr (index sub : Nat) (s : State) : (bump index sub s).pwr = s.pwr := rfl
@[simp] theorem bump_resets (index sub : Nat) (s : State) : (bump index sub s).resets = s.resets := rfl
@[simp] theorem bump_sent (index sub : Nat) (s : State) : (bump index sub s).sent = s.sent := rfl
@[simp] theorem bump_free (index sub : Nat) (s : State) : (bump index sub s).free = s.free := rfl

@[simp] theorem bumpN_pending (index sub n : Nat) (s : State) : (bumpN index sub n s).pending = s.pending := rfl
@[simp] theorem bumpN_time (index sub n : Nat) (s : State) : (bumpN index sub n s).time = s.time := rfl
@[simp] theorem bumpN_ports (index sub n : Nat) (s : State) : (bumpN index sub n s).ports = s.ports := rfl
@[simp] theorem bumpN_sw (index sub n : Nat) (s : State) : (bumpN index sub n s).sw = s.sw := rfl
@[simp] theorem bumpN_routes (index sub n : Nat) (s : State) : (bumpN index sub n s).routes = s.routes := rfl
@[simp] theorem bumpN_bep (index sub n : Nat) (s : State) : (bumpN index sub n s).bep = s.bep := rfl
@[simp] theorem bumpN_ep (index sub n : Nat) (s : State) : (bumpN index sub n s).ep = s.ep := rfl
@[simp] theorem bumpN_grotto (index sub n : Nat) (s : State) : (bumpN index sub n s).grotto = s.grotto := rfl
@[simp] theorem bumpN_cal (index sub n : Nat) (s : State) : (bumpN index sub n s).cal = s.cal := rfl
@[simp] theorem bumpN_cmp (index sub n : Nat) (s : State) : (bumpN index sub n s).cmp = s.cmp := rfl
@[simp] theorem bumpN_coll (index sub n : Nat) (s : State) : (bumpN index sub n s).coll = s.coll := rfl
@[simp] theorem bumpN_xlat (index sub n : Nat) (s : State) : (bumpN index sub n s).xlat = s.xlat := rfl
@[simp] theorem bumpN_mem (index sub n : Nat) (s : State) : (bumpN index sub n s).mem = s.mem := rfl
@[simp] theorem bumpN_host (index sub n : Nat) (s : State) : (bumpN index sub n s).host = s.host := rfl
@[simp] theorem bumpN_can (index sub n : Nat) (s : State) : (bumpN index sub n s).can = s.can := rfl
@[simp] theorem bumpN_sec (index sub n : Nat) (s : State) : (bumpN index sub n s).sec = s.sec := rfl
@[simp] theorem bumpN_log (index sub n : Nat) (s : State) : (bumpN index sub n s).log = s.log := rfl
@[simp] theorem bumpN_lantern (index sub n : Nat) (s : State) : (bumpN index sub n s).lantern = s.lantern := rfl
@[simp] theorem bumpN_muster (index sub n : Nat) (s : State) : (bumpN index sub n s).muster = s.muster := rfl
@[simp] theorem bumpN_pwr (index sub n : Nat) (s : State) : (bumpN index sub n s).pwr = s.pwr := rfl
@[simp] theorem bumpN_resets (index sub n : Nat) (s : State) : (bumpN index sub n s).resets = s.resets := rfl
@[simp] theorem bumpN_sent (index sub n : Nat) (s : State) : (bumpN index sub n s).sent = s.sent := rfl
@[simp] theorem bumpN_free (index sub n : Nat) (s : State) : (bumpN index sub n s).free = s.free := rfl

@[simp] theorem blobSet_pending (index sub : Nat) (b : Bytes) (s : State) : (blobSet index sub b s).pending = s.pending := rfl
@[simp] theorem blobSet_time (index sub : Nat) (b : Bytes) (s : State) : (blobSet index sub b s).time = s.time := rfl
@[simp] theorem blobSet_ports (index sub : Nat) (b : Bytes) (s : State) : (blobSet index sub b s).ports = s.ports := rfl
@[simp] theorem blobSet_sw (index sub : Nat) (b : Bytes) (s : State) : (blobSet index sub b s).sw = s.sw := rfl
@[simp] theorem blobSet_routes (index sub : Nat) (b : Bytes) (s : State) : (blobSet index sub b s).routes = s.routes := rfl
@[simp] theorem blobSet_bep (index sub : Nat) (b : Bytes) (s : State) : (blobSet index sub b s).bep = s.bep := rfl
@[simp] theorem blobSet_ep (index sub : Nat) (b : Bytes) (s : State) : (blobSet index sub b s).ep = s.ep := rfl
@[simp] theorem blobSet_grotto (index sub : Nat) (b : Bytes) (s : State) : (blobSet index sub b s).grotto = s.grotto := rfl
@[simp] theorem blobSet_cal (index sub : Nat) (b : Bytes) (s : State) : (blobSet index sub b s).cal = s.cal := rfl
@[simp] theorem blobSet_cmp (index sub : Nat) (b : Bytes) (s : State) : (blobSet index sub b s).cmp = s.cmp := rfl
@[simp] theorem blobSet_coll (index sub : Nat) (b : Bytes) (s : State) : (blobSet index sub b s).coll = s.coll := rfl
@[simp] theorem blobSet_xlat (index sub : Nat) (b : Bytes) (s : State) : (blobSet index sub b s).xlat = s.xlat := rfl
@[simp] theorem blobSet_mem (index sub : Nat) (b : Bytes) (s : State) : (blobSet index sub b s).mem = s.mem := rfl
@[simp] theorem blobSet_host (index sub : Nat) (b : Bytes) (s : State) : (blobSet index sub b s).host = s.host := rfl
@[simp] theorem blobSet_can (index sub : Nat) (b : Bytes) (s : State) : (blobSet index sub b s).can = s.can := rfl
@[simp] theorem blobSet_sec (index sub : Nat) (b : Bytes) (s : State) : (blobSet index sub b s).sec = s.sec := rfl
@[simp] theorem blobSet_log (index sub : Nat) (b : Bytes) (s : State) : (blobSet index sub b s).log = s.log := rfl
@[simp] theorem blobSet_lantern (index sub : Nat) (b : Bytes) (s : State) : (blobSet index sub b s).lantern = s.lantern := rfl
@[simp] theorem blobSet_muster (index sub : Nat) (b : Bytes) (s : State) : (blobSet index sub b s).muster = s.muster := rfl
@[simp] theorem blobSet_pwr (index sub : Nat) (b : Bytes) (s : State) : (blobSet index sub b s).pwr = s.pwr := rfl
@[simp] theorem blobSet_resets (index sub : Nat) (b : Bytes) (s : State) : (blobSet index sub b s).resets = s.resets := rfl
@[simp] theorem blobSet_sent (index sub : Nat) (b : Bytes) (s : State) : (blobSet index sub b s).sent = s.sent := rfl
@[simp] theorem blobSet_free (index sub : Nat) (b : Bytes) (s : State) : (blobSet index sub b s).free = s.free := rfl

@[simp] theorem emit_pending (o : Out) (s : State) : (emit o s).pending = s.pending := rfl
@[simp] theorem emit_time (o : Out) (s : State) : (emit o s).time = s.time := rfl
@[simp] theorem emit_ports (o : Out) (s : State) : (emit o s).ports = s.ports := rfl
@[simp] theorem emit_sw (o : Out) (s : State) : (emit o s).sw = s.sw := rfl
@[simp] theorem emit_routes (o : Out) (s : State) : (emit o s).routes = s.routes := rfl
@[simp] theorem emit_bep (o : Out) (s : State) : (emit o s).bep = s.bep := rfl
@[simp] theorem emit_ep (o : Out) (s : State) : (emit o s).ep = s.ep := rfl
@[simp] theorem emit_grotto (o : Out) (s : State) : (emit o s).grotto = s.grotto := rfl
@[simp] theorem emit_cal (o : Out) (s : State) : (emit o s).cal = s.cal := rfl
@[simp] theorem emit_cmp (o : Out) (s : State) : (emit o s).cmp = s.cmp := rfl
@[simp] theorem emit_coll (o : Out) (s : State) : (emit o s).coll = s.coll := rfl
@[simp] theorem emit_xlat (o : Out) (s : State) : (emit o s).xlat = s.xlat := rfl
@[simp] theorem emit_mem (o : Out) (s : State) : (emit o s).mem = s.mem := rfl
@[simp] theorem emit_dict (o : Out) (s : State) : (emit o s).dict = s.dict := rfl
@[simp] theorem emit_host (o : Out) (s : State) : (emit o s).host = s.host := rfl
@[simp] theorem emit_can (o : Out) (s : State) : (emit o s).can = s.can := rfl
@[simp] theorem emit_sec (o : Out) (s : State) : (emit o s).sec = s.sec := rfl
@[simp] theorem emit_log (o : Out) (s : State) : (emit o s).log = s.log := rfl
@[simp] theorem emit_lantern (o : Out) (s : State) : (emit o s).lantern = s.lantern := rfl
@[simp] theorem emit_muster (o : Out) (s : State) : (emit o s).muster = s.muster := rfl
@[simp] theorem emit_pwr (o : Out) (s : State) : (emit o s).pwr = s.pwr := rfl
@[simp] theorem emit_resets (o : Out) (s : State) : (emit o s).resets = s.resets := rfl
@[simp] theorem emit_free (o : Out) (s : State) : (emit o s).free = s.free := rfl
@[simp] theorem emit_sent (o : Out) (s : State) : (emit o s).sent = o :: s.sent := rfl

@[simp] theorem drawn_pending (s : State) : (drawn s).pending = s.pending := rfl
@[simp] theorem drawn_time (s : State) : (drawn s).time = s.time := rfl
@[simp] theorem drawn_ports (s : State) : (drawn s).ports = s.ports := rfl
@[simp] theorem drawn_sw (s : State) : (drawn s).sw = s.sw := rfl
@[simp] theorem drawn_routes (s : State) : (drawn s).routes = s.routes := rfl
@[simp] theorem drawn_bep (s : State) : (drawn s).bep = s.bep := rfl
@[simp] theorem drawn_ep (s : State) : (drawn s).ep = s.ep := rfl
@[simp] theorem drawn_grotto (s : State) : (drawn s).grotto = s.grotto := rfl
@[simp] theorem drawn_cal (s : State) : (drawn s).cal = s.cal := rfl
@[simp] theorem drawn_cmp (s : State) : (drawn s).cmp = s.cmp := rfl
@[simp] theorem drawn_coll (s : State) : (drawn s).coll = s.coll := rfl
@[simp] theorem drawn_xlat (s : State) : (drawn s).xlat = s.xlat := rfl
@[simp] theorem drawn_mem (s : State) : (drawn s).mem = s.mem := rfl
@[simp] theorem drawn_dict (s : State) : (drawn s).dict = s.dict := rfl
@[simp] theorem drawn_host (s : State) : (drawn s).host = s.host := rfl
@[simp] theorem drawn_can (s : State) : (drawn s).can = s.can := rfl
@[simp] theorem drawn_sec (s : State) : (drawn s).sec = s.sec := rfl
@[simp] theorem drawn_log (s : State) : (drawn s).log = s.log := rfl
@[simp] theorem drawn_lantern (s : State) : (drawn s).lantern = s.lantern := rfl
@[simp] theorem drawn_muster (s : State) : (drawn s).muster = s.muster := rfl
@[simp] theorem drawn_pwr (s : State) : (drawn s).pwr = s.pwr := rfl
@[simp] theorem drawn_resets (s : State) : (drawn s).resets = s.resets := rfl
@[simp] theorem drawn_sent (s : State) : (drawn s).sent = s.sent := rfl
@[simp] theorem drawn_free (s : State) : (drawn s).free = s.free + 1 := rfl

@[simp] theorem progress_pending (n : Node) (s : State) : (progress n s).pending = s.pending := rfl
@[simp] theorem progress_time (n : Node) (s : State) : (progress n s).time = s.time := rfl
@[simp] theorem progress_ports (n : Node) (s : State) : (progress n s).ports = s.ports := rfl
@[simp] theorem progress_sw (n : Node) (s : State) : (progress n s).sw = s.sw := rfl
@[simp] theorem progress_routes (n : Node) (s : State) : (progress n s).routes = s.routes := rfl
@[simp] theorem progress_bep (n : Node) (s : State) : (progress n s).bep = s.bep := rfl
@[simp] theorem progress_ep (n : Node) (s : State) : (progress n s).ep = s.ep := rfl
@[simp] theorem progress_grotto (n : Node) (s : State) : (progress n s).grotto = s.grotto := rfl
@[simp] theorem progress_cal (n : Node) (s : State) : (progress n s).cal = s.cal := rfl
@[simp] theorem progress_cmp (n : Node) (s : State) : (progress n s).cmp = s.cmp := rfl
@[simp] theorem progress_coll (n : Node) (s : State) : (progress n s).coll = s.coll := rfl
@[simp] theorem progress_xlat (n : Node) (s : State) : (progress n s).xlat = s.xlat := rfl
@[simp] theorem progress_mem (n : Node) (s : State) : (progress n s).mem = s.mem := rfl
@[simp] theorem progress_dict (n : Node) (s : State) : (progress n s).dict = s.dict := rfl
@[simp] theorem progress_host (n : Node) (s : State) : (progress n s).host = s.host := rfl
@[simp] theorem progress_can (n : Node) (s : State) : (progress n s).can = s.can := rfl
@[simp] theorem progress_sec (n : Node) (s : State) : (progress n s).sec = s.sec := rfl
@[simp] theorem progress_log (n : Node) (s : State) : (progress n s).log = s.log := rfl
@[simp] theorem progress_muster (n : Node) (s : State) : (progress n s).muster = s.muster := rfl
@[simp] theorem progress_pwr (n : Node) (s : State) : (progress n s).pwr = s.pwr := rfl
@[simp] theorem progress_resets (n : Node) (s : State) : (progress n s).resets = s.resets := rfl
@[simp] theorem progress_sent (n : Node) (s : State) : (progress n s).sent = s.sent := rfl
@[simp] theorem progress_free (n : Node) (s : State) : (progress n s).free = s.free := rfl

@[simp] theorem beginOp_pending (s : State) : (beginOp s).pending = s.pending := rfl
@[simp] theorem beginOp_time (s : State) : (beginOp s).time = s.time := rfl
@[simp] theorem beginOp_ports (s : State) : (beginOp s).ports = s.ports := rfl
@[simp] theorem beginOp_sw (s : State) : (beginOp s).sw = s.sw := rfl
@[simp] theorem beginOp_routes (s : State) : (beginOp s).routes = s.routes := rfl
@[simp] theorem beginOp_bep (s : State) : (beginOp s).bep = s.bep := rfl
@[simp] theorem beginOp_ep (s : State) : (beginOp s).ep = s.ep := rfl
@[simp] theorem beginOp_grotto (s : State) : (beginOp s).grotto = s.grotto := rfl
@[simp] theorem beginOp_cal (s : State) : (beginOp s).cal = s.cal := rfl
@[simp] theorem beginOp_cmp (s : State) : (beginOp s).cmp = s.cmp := rfl
@[simp] theorem beginOp_coll (s : State) : (beginOp s).coll = s.coll := rfl
@[simp] theorem beginOp_xlat (s : State) : (beginOp s).xlat = s.xlat := rfl
@[simp] theorem beginOp_mem (s : State) : (beginOp s).mem = s.mem := rfl
@[simp] theorem beginOp_host (s : State) : (beginOp s).host = s.host := rfl
@[simp] theorem beginOp_can (s : State) : (beginOp s).can = s.can := rfl
@[simp] theorem beginOp_sec (s : State) : (beginOp s).sec = s.sec := rfl
@[simp] theorem beginOp_log (s : State) : (beginOp s).log = s.log := rfl
@[simp] theorem beginOp_lantern (s : State) : (beginOp s).lantern = s.lantern := rfl
@[simp] theorem beginOp_muster (s : State) : (beginOp s).muster = s.muster := rfl
@[simp] theorem beginOp_pwr (s : State) : (beginOp s).pwr = s.pwr := rfl
@[simp] theorem beginOp_resets (s : State) : (beginOp s).resets = s.resets := rfl
@[simp] theorem beginOp_sent (s : State) : (beginOp s).sent = s.sent := rfl
@[simp] theorem beginOp_free (s : State) : (beginOp s).free = s.free := rfl

@[simp] theorem endOp_pending (status abort : Nat) (s : State) : (endOp status abort s).pending = s.pending := rfl
@[simp] theorem endOp_time (status abort : Nat) (s : State) : (endOp status abort s).time = s.time := rfl
@[simp] theorem endOp_ports (status abort : Nat) (s : State) : (endOp status abort s).ports = s.ports := rfl
@[simp] theorem endOp_sw (status abort : Nat) (s : State) : (endOp status abort s).sw = s.sw := rfl
@[simp] theorem endOp_routes (status abort : Nat) (s : State) : (endOp status abort s).routes = s.routes := rfl
@[simp] theorem endOp_bep (status abort : Nat) (s : State) : (endOp status abort s).bep = s.bep := rfl
@[simp] theorem endOp_ep (status abort : Nat) (s : State) : (endOp status abort s).ep = s.ep := rfl
@[simp] theorem endOp_grotto (status abort : Nat) (s : State) : (endOp status abort s).grotto = s.grotto := rfl
@[simp] theorem endOp_cal (status abort : Nat) (s : State) : (endOp status abort s).cal = s.cal := rfl
@[simp] theorem endOp_cmp (status abort : Nat) (s : State) : (endOp status abort s).cmp = s.cmp := rfl
@[simp] theorem endOp_coll (status abort : Nat) (s : State) : (endOp status abort s).coll = s.coll := rfl
@[simp] theorem endOp_xlat (status abort : Nat) (s : State) : (endOp status abort s).xlat = s.xlat := rfl
@[simp] theorem endOp_mem (status abort : Nat) (s : State) : (endOp status abort s).mem = s.mem := rfl
@[simp] theorem endOp_host (status abort : Nat) (s : State) : (endOp status abort s).host = s.host := rfl
@[simp] theorem endOp_can (status abort : Nat) (s : State) : (endOp status abort s).can = s.can := rfl
@[simp] theorem endOp_sec (status abort : Nat) (s : State) : (endOp status abort s).sec = s.sec := rfl
@[simp] theorem endOp_log (status abort : Nat) (s : State) : (endOp status abort s).log = s.log := rfl
@[simp] theorem endOp_lantern (status abort : Nat) (s : State) : (endOp status abort s).lantern = s.lantern := rfl
@[simp] theorem endOp_muster (status abort : Nat) (s : State) : (endOp status abort s).muster = s.muster := rfl
@[simp] theorem endOp_pwr (status abort : Nat) (s : State) : (endOp status abort s).pwr = s.pwr := rfl
@[simp] theorem endOp_resets (status abort : Nat) (s : State) : (endOp status abort s).resets = s.resets := rfl
@[simp] theorem endOp_sent (status abort : Nat) (s : State) : (endOp status abort s).sent = s.sent := rfl
@[simp] theorem endOp_free (status abort : Nat) (s : State) : (endOp status abort s).free = s.free := rfl

@[simp] theorem refuseCondition_pending (s : State) : (refuseCondition s).pending = s.pending := rfl
@[simp] theorem refuseCondition_time (s : State) : (refuseCondition s).time = s.time := rfl
@[simp] theorem refuseCondition_ports (s : State) : (refuseCondition s).ports = s.ports := rfl
@[simp] theorem refuseCondition_sw (s : State) : (refuseCondition s).sw = s.sw := rfl
@[simp] theorem refuseCondition_routes (s : State) : (refuseCondition s).routes = s.routes := rfl
@[simp] theorem refuseCondition_bep (s : State) : (refuseCondition s).bep = s.bep := rfl
@[simp] theorem refuseCondition_ep (s : State) : (refuseCondition s).ep = s.ep := rfl
@[simp] theorem refuseCondition_grotto (s : State) : (refuseCondition s).grotto = s.grotto := rfl
@[simp] theorem refuseCondition_cal (s : State) : (refuseCondition s).cal = s.cal := rfl
@[simp] theorem refuseCondition_cmp (s : State) : (refuseCondition s).cmp = s.cmp := rfl
@[simp] theorem refuseCondition_coll (s : State) : (refuseCondition s).coll = s.coll := rfl
@[simp] theorem refuseCondition_xlat (s : State) : (refuseCondition s).xlat = s.xlat := rfl
@[simp] theorem refuseCondition_mem (s : State) : (refuseCondition s).mem = s.mem := rfl
@[simp] theorem refuseCondition_host (s : State) : (refuseCondition s).host = s.host := rfl
@[simp] theorem refuseCondition_can (s : State) : (refuseCondition s).can = s.can := rfl
@[simp] theorem refuseCondition_sec (s : State) : (refuseCondition s).sec = s.sec := rfl
@[simp] theorem refuseCondition_log (s : State) : (refuseCondition s).log = s.log := rfl
@[simp] theorem refuseCondition_lantern (s : State) : (refuseCondition s).lantern = s.lantern := rfl
@[simp] theorem refuseCondition_muster (s : State) : (refuseCondition s).muster = s.muster := rfl
@[simp] theorem refuseCondition_pwr (s : State) : (refuseCondition s).pwr = s.pwr := rfl
@[simp] theorem refuseCondition_resets (s : State) : (refuseCondition s).resets = s.resets := rfl
@[simp] theorem refuseCondition_sent (s : State) : (refuseCondition s).sent = s.sent := rfl
@[simp] theorem refuseCondition_free (s : State) : (refuseCondition s).free = s.free := rfl

@[simp] theorem refuseRule_pending (s : State) : (refuseRule s).pending = s.pending := rfl
@[simp] theorem refuseRule_time (s : State) : (refuseRule s).time = s.time := rfl
@[simp] theorem refuseRule_ports (s : State) : (refuseRule s).ports = s.ports := rfl
@[simp] theorem refuseRule_sw (s : State) : (refuseRule s).sw = s.sw := rfl
@[simp] theorem refuseRule_routes (s : State) : (refuseRule s).routes = s.routes := rfl
@[simp] theorem refuseRule_bep (s : State) : (refuseRule s).bep = s.bep := rfl
@[simp] theorem refuseRule_ep (s : State) : (refuseRule s).ep = s.ep := rfl
@[simp] theorem refuseRule_grotto (s : State) : (refuseRule s).grotto = s.grotto := rfl
@[simp] theorem refuseRule_cal (s : State) : (refuseRule s).cal = s.cal := rfl
@[simp] theorem refuseRule_cmp (s : State) : (refuseRule s).cmp = s.cmp := rfl
@[simp] theorem refuseRule_coll (s : State) : (refuseRule s).coll = s.coll := rfl
@[simp] theorem refuseRule_xlat (s : State) : (refuseRule s).xlat = s.xlat := rfl
@[simp] theorem refuseRule_mem (s : State) : (refuseRule s).mem = s.mem := rfl
@[simp] theorem refuseRule_host (s : State) : (refuseRule s).host = s.host := rfl
@[simp] theorem refuseRule_can (s : State) : (refuseRule s).can = s.can := rfl
@[simp] theorem refuseRule_sec (s : State) : (refuseRule s).sec = s.sec := rfl
@[simp] theorem refuseRule_log (s : State) : (refuseRule s).log = s.log := rfl
@[simp] theorem refuseRule_lantern (s : State) : (refuseRule s).lantern = s.lantern := rfl
@[simp] theorem refuseRule_muster (s : State) : (refuseRule s).muster = s.muster := rfl
@[simp] theorem refuseRule_pwr (s : State) : (refuseRule s).pwr = s.pwr := rfl
@[simp] theorem refuseRule_resets (s : State) : (refuseRule s).resets = s.resets := rfl
@[simp] theorem refuseRule_sent (s : State) : (refuseRule s).sent = s.sent := rfl
@[simp] theorem refuseRule_free (s : State) : (refuseRule s).free = s.free := rfl

@[simp] theorem countIgnored_pending (s : State) : (countIgnored s).pending = s.pending := rfl
@[simp] theorem countIgnored_time (s : State) : (countIgnored s).time = s.time := rfl
@[simp] theorem countIgnored_ports (s : State) : (countIgnored s).ports = s.ports := rfl
@[simp] theorem countIgnored_sw (s : State) : (countIgnored s).sw = s.sw := rfl
@[simp] theorem countIgnored_routes (s : State) : (countIgnored s).routes = s.routes := rfl
@[simp] theorem countIgnored_bep (s : State) : (countIgnored s).bep = s.bep := rfl
@[simp] theorem countIgnored_ep (s : State) : (countIgnored s).ep = s.ep := rfl
@[simp] theorem countIgnored_grotto (s : State) : (countIgnored s).grotto = s.grotto := rfl
@[simp] theorem countIgnored_cal (s : State) : (countIgnored s).cal = s.cal := rfl
@[simp] theorem countIgnored_cmp (s : State) : (countIgnored s).cmp = s.cmp := rfl
@[simp] theorem countIgnored_coll (s : State) : (countIgnored s).coll = s.coll := rfl
@[simp] theorem countIgnored_xlat (s : State) : (countIgnored s).xlat = s.xlat := rfl
@[simp] theorem countIgnored_mem (s : State) : (countIgnored s).mem = s.mem := rfl
@[simp] theorem countIgnored_dict (s : State) : (countIgnored s).dict = s.dict := rfl
@[simp] theorem countIgnored_can (s : State) : (countIgnored s).can = s.can := rfl
@[simp] theorem countIgnored_sec (s : State) : (countIgnored s).sec = s.sec := rfl
@[simp] theorem countIgnored_log (s : State) : (countIgnored s).log = s.log := rfl
@[simp] theorem countIgnored_lantern (s : State) : (countIgnored s).lantern = s.lantern := rfl
@[simp] theorem countIgnored_muster (s : State) : (countIgnored s).muster = s.muster := rfl
@[simp] theorem countIgnored_pwr (s : State) : (countIgnored s).pwr = s.pwr := rfl
@[simp] theorem countIgnored_resets (s : State) : (countIgnored s).resets = s.resets := rfl
@[simp] theorem countIgnored_sent (s : State) : (countIgnored s).sent = s.sent := rfl
@[simp] theorem countIgnored_free (s : State) : (countIgnored s).free = s.free := rfl

@[simp] theorem modTime_pending (f : Time → Time) (s : State) : (modTime f s).pending = s.pending := rfl
@[simp] theorem modTime_ports (f : Time → Time) (s : State) : (modTime f s).ports = s.ports := rfl
@[simp] theorem modTime_sw (f : Time → Time) (s : State) : (modTime f s).sw = s.sw := rfl
@[simp] theorem modTime_routes (f : Time → Time) (s : State) : (modTime f s).routes = s.routes := rfl
@[simp] theorem modTime_bep (f : Time → Time) (s : State) : (modTime f s).bep = s.bep := rfl
@[simp] theorem modTime_ep (f : Time → Time) (s : State) : (modTime f s).ep = s.ep := rfl
@[simp] theorem modTime_grotto (f : Time → Time) (s : State) : (modTime f s).grotto = s.grotto := rfl
@[simp] theorem modTime_cal (f : Time → Time) (s : State) : (modTime f s).cal = s.cal := rfl
@[simp] theorem modTime_cmp (f : Time → Time) (s : State) : (modTime f s).cmp = s.cmp := rfl
@[simp] theorem modTime_coll (f : Time → Time) (s : State) : (modTime f s).coll = s.coll := rfl
@[simp] theorem modTime_xlat (f : Time → Time) (s : State) : (modTime f s).xlat = s.xlat := rfl
@[simp] theorem modTime_mem (f : Time → Time) (s : State) : (modTime f s).mem = s.mem := rfl
@[simp] theorem modTime_dict (f : Time → Time) (s : State) : (modTime f s).dict = s.dict := rfl
@[simp] theorem modTime_host (f : Time → Time) (s : State) : (modTime f s).host = s.host := rfl
@[simp] theorem modTime_can (f : Time → Time) (s : State) : (modTime f s).can = s.can := rfl
@[simp] theorem modTime_sec (f : Time → Time) (s : State) : (modTime f s).sec = s.sec := rfl
@[simp] theorem modTime_log (f : Time → Time) (s : State) : (modTime f s).log = s.log := rfl
@[simp] theorem modTime_lantern (f : Time → Time) (s : State) : (modTime f s).lantern = s.lantern := rfl
@[simp] theorem modTime_muster (f : Time → Time) (s : State) : (modTime f s).muster = s.muster := rfl
@[simp] theorem modTime_pwr (f : Time → Time) (s : State) : (modTime f s).pwr = s.pwr := rfl
@[simp] theorem modTime_resets (f : Time → Time) (s : State) : (modTime f s).resets = s.resets := rfl
@[simp] theorem modTime_sent (f : Time → Time) (s : State) : (modTime f s).sent = s.sent := rfl
@[simp] theorem modTime_free (f : Time → Time) (s : State) : (modTime f s).free = s.free := rfl
@[simp] theorem modTime_time (f : Time → Time) (s : State) : (modTime f s).time = f s.time := rfl

@[simp] theorem modPortTime_pending (p : PortN) (f : PortTime → PortTime) (s : State) : (modPortTime p f s).pending = s.pending := rfl
@[simp] theorem modPortTime_time (p : PortN) (f : PortTime → PortTime) (s : State) : (modPortTime p f s).time = s.time := rfl
@[simp] theorem modPortTime_sw (p : PortN) (f : PortTime → PortTime) (s : State) : (modPortTime p f s).sw = s.sw := rfl
@[simp] theorem modPortTime_routes (p : PortN) (f : PortTime → PortTime) (s : State) : (modPortTime p f s).routes = s.routes := rfl
@[simp] theorem modPortTime_bep (p : PortN) (f : PortTime → PortTime) (s : State) : (modPortTime p f s).bep = s.bep := rfl
@[simp] theorem modPortTime_ep (p : PortN) (f : PortTime → PortTime) (s : State) : (modPortTime p f s).ep = s.ep := rfl
@[simp] theorem modPortTime_grotto (p : PortN) (f : PortTime → PortTime) (s : State) : (modPortTime p f s).grotto = s.grotto := rfl
@[simp] theorem modPortTime_cal (p : PortN) (f : PortTime → PortTime) (s : State) : (modPortTime p f s).cal = s.cal := rfl
@[simp] theorem modPortTime_cmp (p : PortN) (f : PortTime → PortTime) (s : State) : (modPortTime p f s).cmp = s.cmp := rfl
@[simp] theorem modPortTime_coll (p : PortN) (f : PortTime → PortTime) (s : State) : (modPortTime p f s).coll = s.coll := rfl
@[simp] theorem modPortTime_xlat (p : PortN) (f : PortTime → PortTime) (s : State) : (modPortTime p f s).xlat = s.xlat := rfl
@[simp] theorem modPortTime_mem (p : PortN) (f : PortTime → PortTime) (s : State) : (modPortTime p f s).mem = s.mem := rfl
@[simp] theorem modPortTime_dict (p : PortN) (f : PortTime → PortTime) (s : State) : (modPortTime p f s).dict = s.dict := rfl
@[simp] theorem modPortTime_host (p : PortN) (f : PortTime → PortTime) (s : State) : (modPortTime p f s).host = s.host := rfl
@[simp] theorem modPortTime_can (p : PortN) (f : PortTime → PortTime) (s : State) : (modPortTime p f s).can = s.can := rfl
@[simp] theorem modPortTime_sec (p : PortN) (f : PortTime → PortTime) (s : State) : (modPortTime p f s).sec = s.sec := rfl
@[simp] theorem modPortTime_log (p : PortN) (f : PortTime → PortTime) (s : State) : (modPortTime p f s).log = s.log := rfl
@[simp] theorem modPortTime_lantern (p : PortN) (f : PortTime → PortTime) (s : State) : (modPortTime p f s).lantern = s.lantern := rfl
@[simp] theorem modPortTime_muster (p : PortN) (f : PortTime → PortTime) (s : State) : (modPortTime p f s).muster = s.muster := rfl
@[simp] theorem modPortTime_pwr (p : PortN) (f : PortTime → PortTime) (s : State) : (modPortTime p f s).pwr = s.pwr := rfl
@[simp] theorem modPortTime_resets (p : PortN) (f : PortTime → PortTime) (s : State) : (modPortTime p f s).resets = s.resets := rfl
@[simp] theorem modPortTime_sent (p : PortN) (f : PortTime → PortTime) (s : State) : (modPortTime p f s).sent = s.sent := rfl
@[simp] theorem modPortTime_free (p : PortN) (f : PortTime → PortTime) (s : State) : (modPortTime p f s).free = s.free := rfl

@[simp] theorem modCal_pending (f : Calendar → Calendar) (s : State) : (modCal f s).pending = s.pending := rfl
@[simp] theorem modCal_time (f : Calendar → Calendar) (s : State) : (modCal f s).time = s.time := rfl
@[simp] theorem modCal_ports (f : Calendar → Calendar) (s : State) : (modCal f s).ports = s.ports := rfl
@[simp] theorem modCal_sw (f : Calendar → Calendar) (s : State) : (modCal f s).sw = s.sw := rfl
@[simp] theorem modCal_routes (f : Calendar → Calendar) (s : State) : (modCal f s).routes = s.routes := rfl
@[simp] theorem modCal_bep (f : Calendar → Calendar) (s : State) : (modCal f s).bep = s.bep := rfl
@[simp] theorem modCal_ep (f : Calendar → Calendar) (s : State) : (modCal f s).ep = s.ep := rfl
@[simp] theorem modCal_grotto (f : Calendar → Calendar) (s : State) : (modCal f s).grotto = s.grotto := rfl
@[simp] theorem modCal_cmp (f : Calendar → Calendar) (s : State) : (modCal f s).cmp = s.cmp := rfl
@[simp] theorem modCal_coll (f : Calendar → Calendar) (s : State) : (modCal f s).coll = s.coll := rfl
@[simp] theorem modCal_xlat (f : Calendar → Calendar) (s : State) : (modCal f s).xlat = s.xlat := rfl
@[simp] theorem modCal_mem (f : Calendar → Calendar) (s : State) : (modCal f s).mem = s.mem := rfl
@[simp] theorem modCal_dict (f : Calendar → Calendar) (s : State) : (modCal f s).dict = s.dict := rfl
@[simp] theorem modCal_host (f : Calendar → Calendar) (s : State) : (modCal f s).host = s.host := rfl
@[simp] theorem modCal_can (f : Calendar → Calendar) (s : State) : (modCal f s).can = s.can := rfl
@[simp] theorem modCal_sec (f : Calendar → Calendar) (s : State) : (modCal f s).sec = s.sec := rfl
@[simp] theorem modCal_log (f : Calendar → Calendar) (s : State) : (modCal f s).log = s.log := rfl
@[simp] theorem modCal_lantern (f : Calendar → Calendar) (s : State) : (modCal f s).lantern = s.lantern := rfl
@[simp] theorem modCal_muster (f : Calendar → Calendar) (s : State) : (modCal f s).muster = s.muster := rfl
@[simp] theorem modCal_pwr (f : Calendar → Calendar) (s : State) : (modCal f s).pwr = s.pwr := rfl
@[simp] theorem modCal_resets (f : Calendar → Calendar) (s : State) : (modCal f s).resets = s.resets := rfl
@[simp] theorem modCal_sent (f : Calendar → Calendar) (s : State) : (modCal f s).sent = s.sent := rfl
@[simp] theorem modCal_free (f : Calendar → Calendar) (s : State) : (modCal f s).free = s.free := rfl
@[simp] theorem modCal_cal (f : Calendar → Calendar) (s : State) : (modCal f s).cal = f s.cal := rfl

@[simp] theorem modColl_pending (f : Coll → Coll) (s : State) : (modColl f s).pending = s.pending := rfl
@[simp] theorem modColl_time (f : Coll → Coll) (s : State) : (modColl f s).time = s.time := rfl
@[simp] theorem modColl_ports (f : Coll → Coll) (s : State) : (modColl f s).ports = s.ports := rfl
@[simp] theorem modColl_sw (f : Coll → Coll) (s : State) : (modColl f s).sw = s.sw := rfl
@[simp] theorem modColl_routes (f : Coll → Coll) (s : State) : (modColl f s).routes = s.routes := rfl
@[simp] theorem modColl_bep (f : Coll → Coll) (s : State) : (modColl f s).bep = s.bep := rfl
@[simp] theorem modColl_ep (f : Coll → Coll) (s : State) : (modColl f s).ep = s.ep := rfl
@[simp] theorem modColl_grotto (f : Coll → Coll) (s : State) : (modColl f s).grotto = s.grotto := rfl
@[simp] theorem modColl_cal (f : Coll → Coll) (s : State) : (modColl f s).cal = s.cal := rfl
@[simp] theorem modColl_cmp (f : Coll → Coll) (s : State) : (modColl f s).cmp = s.cmp := rfl
@[simp] theorem modColl_xlat (f : Coll → Coll) (s : State) : (modColl f s).xlat = s.xlat := rfl
@[simp] theorem modColl_mem (f : Coll → Coll) (s : State) : (modColl f s).mem = s.mem := rfl
@[simp] theorem modColl_dict (f : Coll → Coll) (s : State) : (modColl f s).dict = s.dict := rfl
@[simp] theorem modColl_host (f : Coll → Coll) (s : State) : (modColl f s).host = s.host := rfl
@[simp] theorem modColl_can (f : Coll → Coll) (s : State) : (modColl f s).can = s.can := rfl
@[simp] theorem modColl_sec (f : Coll → Coll) (s : State) : (modColl f s).sec = s.sec := rfl
@[simp] theorem modColl_log (f : Coll → Coll) (s : State) : (modColl f s).log = s.log := rfl
@[simp] theorem modColl_lantern (f : Coll → Coll) (s : State) : (modColl f s).lantern = s.lantern := rfl
@[simp] theorem modColl_muster (f : Coll → Coll) (s : State) : (modColl f s).muster = s.muster := rfl
@[simp] theorem modColl_pwr (f : Coll → Coll) (s : State) : (modColl f s).pwr = s.pwr := rfl
@[simp] theorem modColl_resets (f : Coll → Coll) (s : State) : (modColl f s).resets = s.resets := rfl
@[simp] theorem modColl_sent (f : Coll → Coll) (s : State) : (modColl f s).sent = s.sent := rfl
@[simp] theorem modColl_free (f : Coll → Coll) (s : State) : (modColl f s).free = s.free := rfl
@[simp] theorem modColl_coll (f : Coll → Coll) (s : State) : (modColl f s).coll = f s.coll := rfl

@[simp] theorem setWin_pending (i : Nat) (w : Win) (s : State) : (setWin i w s).pending = s.pending := rfl
@[simp] theorem setWin_time (i : Nat) (w : Win) (s : State) : (setWin i w s).time = s.time := rfl
@[simp] theorem setWin_ports (i : Nat) (w : Win) (s : State) : (setWin i w s).ports = s.ports := rfl
@[simp] theorem setWin_sw (i : Nat) (w : Win) (s : State) : (setWin i w s).sw = s.sw := rfl
@[simp] theorem setWin_routes (i : Nat) (w : Win) (s : State) : (setWin i w s).routes = s.routes := rfl
@[simp] theorem setWin_bep (i : Nat) (w : Win) (s : State) : (setWin i w s).bep = s.bep := rfl
@[simp] theorem setWin_ep (i : Nat) (w : Win) (s : State) : (setWin i w s).ep = s.ep := rfl
@[simp] theorem setWin_grotto (i : Nat) (w : Win) (s : State) : (setWin i w s).grotto = s.grotto := rfl
@[simp] theorem setWin_cal (i : Nat) (w : Win) (s : State) : (setWin i w s).cal = s.cal := rfl
@[simp] theorem setWin_cmp (i : Nat) (w : Win) (s : State) : (setWin i w s).cmp = s.cmp := rfl
@[simp] theorem setWin_xlat (i : Nat) (w : Win) (s : State) : (setWin i w s).xlat = s.xlat := rfl
@[simp] theorem setWin_mem (i : Nat) (w : Win) (s : State) : (setWin i w s).mem = s.mem := rfl
@[simp] theorem setWin_dict (i : Nat) (w : Win) (s : State) : (setWin i w s).dict = s.dict := rfl
@[simp] theorem setWin_host (i : Nat) (w : Win) (s : State) : (setWin i w s).host = s.host := rfl
@[simp] theorem setWin_can (i : Nat) (w : Win) (s : State) : (setWin i w s).can = s.can := rfl
@[simp] theorem setWin_sec (i : Nat) (w : Win) (s : State) : (setWin i w s).sec = s.sec := rfl
@[simp] theorem setWin_log (i : Nat) (w : Win) (s : State) : (setWin i w s).log = s.log := rfl
@[simp] theorem setWin_lantern (i : Nat) (w : Win) (s : State) : (setWin i w s).lantern = s.lantern := rfl
@[simp] theorem setWin_muster (i : Nat) (w : Win) (s : State) : (setWin i w s).muster = s.muster := rfl
@[simp] theorem setWin_pwr (i : Nat) (w : Win) (s : State) : (setWin i w s).pwr = s.pwr := rfl
@[simp] theorem setWin_resets (i : Nat) (w : Win) (s : State) : (setWin i w s).resets = s.resets := rfl
@[simp] theorem setWin_sent (i : Nat) (w : Win) (s : State) : (setWin i w s).sent = s.sent := rfl
@[simp] theorem setWin_free (i : Nat) (w : Win) (s : State) : (setWin i w s).free = s.free := rfl

@[simp] theorem modWin_pending (i : Nat) (f : Win → Win) (s : State) : (modWin i f s).pending = s.pending := rfl
@[simp] theorem modWin_time (i : Nat) (f : Win → Win) (s : State) : (modWin i f s).time = s.time := rfl
@[simp] theorem modWin_ports (i : Nat) (f : Win → Win) (s : State) : (modWin i f s).ports = s.ports := rfl
@[simp] theorem modWin_sw (i : Nat) (f : Win → Win) (s : State) : (modWin i f s).sw = s.sw := rfl
@[simp] theorem modWin_routes (i : Nat) (f : Win → Win) (s : State) : (modWin i f s).routes = s.routes := rfl
@[simp] theorem modWin_bep (i : Nat) (f : Win → Win) (s : State) : (modWin i f s).bep = s.bep := rfl
@[simp] theorem modWin_ep (i : Nat) (f : Win → Win) (s : State) : (modWin i f s).ep = s.ep := rfl
@[simp] theorem modWin_grotto (i : Nat) (f : Win → Win) (s : State) : (modWin i f s).grotto = s.grotto := rfl
@[simp] theorem modWin_cal (i : Nat) (f : Win → Win) (s : State) : (modWin i f s).cal = s.cal := rfl
@[simp] theorem modWin_cmp (i : Nat) (f : Win → Win) (s : State) : (modWin i f s).cmp = s.cmp := rfl
@[simp] theorem modWin_xlat (i : Nat) (f : Win → Win) (s : State) : (modWin i f s).xlat = s.xlat := rfl
@[simp] theorem modWin_mem (i : Nat) (f : Win → Win) (s : State) : (modWin i f s).mem = s.mem := rfl
@[simp] theorem modWin_dict (i : Nat) (f : Win → Win) (s : State) : (modWin i f s).dict = s.dict := rfl
@[simp] theorem modWin_host (i : Nat) (f : Win → Win) (s : State) : (modWin i f s).host = s.host := rfl
@[simp] theorem modWin_can (i : Nat) (f : Win → Win) (s : State) : (modWin i f s).can = s.can := rfl
@[simp] theorem modWin_sec (i : Nat) (f : Win → Win) (s : State) : (modWin i f s).sec = s.sec := rfl
@[simp] theorem modWin_log (i : Nat) (f : Win → Win) (s : State) : (modWin i f s).log = s.log := rfl
@[simp] theorem modWin_lantern (i : Nat) (f : Win → Win) (s : State) : (modWin i f s).lantern = s.lantern := rfl
@[simp] theorem modWin_muster (i : Nat) (f : Win → Win) (s : State) : (modWin i f s).muster = s.muster := rfl
@[simp] theorem modWin_pwr (i : Nat) (f : Win → Win) (s : State) : (modWin i f s).pwr = s.pwr := rfl
@[simp] theorem modWin_resets (i : Nat) (f : Win → Win) (s : State) : (modWin i f s).resets = s.resets := rfl
@[simp] theorem modWin_sent (i : Nat) (f : Win → Win) (s : State) : (modWin i f s).sent = s.sent := rfl
@[simp] theorem modWin_free (i : Nat) (f : Win → Win) (s : State) : (modWin i f s).free = s.free := rfl

@[simp] theorem setShard_pending (j : Nat) (x : Shard) (s : State) : (setShard j x s).pending = s.pending := rfl
@[simp] theorem setShard_time (j : Nat) (x : Shard) (s : State) : (setShard j x s).time = s.time := rfl
@[simp] theorem setShard_ports (j : Nat) (x : Shard) (s : State) : (setShard j x s).ports = s.ports := rfl
@[simp] theorem setShard_sw (j : Nat) (x : Shard) (s : State) : (setShard j x s).sw = s.sw := rfl
@[simp] theorem setShard_routes (j : Nat) (x : Shard) (s : State) : (setShard j x s).routes = s.routes := rfl
@[simp] theorem setShard_bep (j : Nat) (x : Shard) (s : State) : (setShard j x s).bep = s.bep := rfl
@[simp] theorem setShard_ep (j : Nat) (x : Shard) (s : State) : (setShard j x s).ep = s.ep := rfl
@[simp] theorem setShard_grotto (j : Nat) (x : Shard) (s : State) : (setShard j x s).grotto = s.grotto := rfl
@[simp] theorem setShard_cal (j : Nat) (x : Shard) (s : State) : (setShard j x s).cal = s.cal := rfl
@[simp] theorem setShard_cmp (j : Nat) (x : Shard) (s : State) : (setShard j x s).cmp = s.cmp := rfl
@[simp] theorem setShard_xlat (j : Nat) (x : Shard) (s : State) : (setShard j x s).xlat = s.xlat := rfl
@[simp] theorem setShard_mem (j : Nat) (x : Shard) (s : State) : (setShard j x s).mem = s.mem := rfl
@[simp] theorem setShard_dict (j : Nat) (x : Shard) (s : State) : (setShard j x s).dict = s.dict := rfl
@[simp] theorem setShard_host (j : Nat) (x : Shard) (s : State) : (setShard j x s).host = s.host := rfl
@[simp] theorem setShard_can (j : Nat) (x : Shard) (s : State) : (setShard j x s).can = s.can := rfl
@[simp] theorem setShard_sec (j : Nat) (x : Shard) (s : State) : (setShard j x s).sec = s.sec := rfl
@[simp] theorem setShard_log (j : Nat) (x : Shard) (s : State) : (setShard j x s).log = s.log := rfl
@[simp] theorem setShard_lantern (j : Nat) (x : Shard) (s : State) : (setShard j x s).lantern = s.lantern := rfl
@[simp] theorem setShard_muster (j : Nat) (x : Shard) (s : State) : (setShard j x s).muster = s.muster := rfl
@[simp] theorem setShard_pwr (j : Nat) (x : Shard) (s : State) : (setShard j x s).pwr = s.pwr := rfl
@[simp] theorem setShard_resets (j : Nat) (x : Shard) (s : State) : (setShard j x s).resets = s.resets := rfl
@[simp] theorem setShard_sent (j : Nat) (x : Shard) (s : State) : (setShard j x s).sent = s.sent := rfl
@[simp] theorem setShard_free (j : Nat) (x : Shard) (s : State) : (setShard j x s).free = s.free := rfl

@[simp] theorem setCtx_pending (k : Nat) (c : Ctx) (s : State) : (setCtx k c s).pending = s.pending := rfl
@[simp] theorem setCtx_time (k : Nat) (c : Ctx) (s : State) : (setCtx k c s).time = s.time := rfl
@[simp] theorem setCtx_ports (k : Nat) (c : Ctx) (s : State) : (setCtx k c s).ports = s.ports := rfl
@[simp] theorem setCtx_sw (k : Nat) (c : Ctx) (s : State) : (setCtx k c s).sw = s.sw := rfl
@[simp] theorem setCtx_routes (k : Nat) (c : Ctx) (s : State) : (setCtx k c s).routes = s.routes := rfl
@[simp] theorem setCtx_bep (k : Nat) (c : Ctx) (s : State) : (setCtx k c s).bep = s.bep := rfl
@[simp] theorem setCtx_ep (k : Nat) (c : Ctx) (s : State) : (setCtx k c s).ep = s.ep := rfl
@[simp] theorem setCtx_grotto (k : Nat) (c : Ctx) (s : State) : (setCtx k c s).grotto = s.grotto := rfl
@[simp] theorem setCtx_cal (k : Nat) (c : Ctx) (s : State) : (setCtx k c s).cal = s.cal := rfl
@[simp] theorem setCtx_coll (k : Nat) (c : Ctx) (s : State) : (setCtx k c s).coll = s.coll := rfl
@[simp] theorem setCtx_xlat (k : Nat) (c : Ctx) (s : State) : (setCtx k c s).xlat = s.xlat := rfl
@[simp] theorem setCtx_mem (k : Nat) (c : Ctx) (s : State) : (setCtx k c s).mem = s.mem := rfl
@[simp] theorem setCtx_dict (k : Nat) (c : Ctx) (s : State) : (setCtx k c s).dict = s.dict := rfl
@[simp] theorem setCtx_host (k : Nat) (c : Ctx) (s : State) : (setCtx k c s).host = s.host := rfl
@[simp] theorem setCtx_can (k : Nat) (c : Ctx) (s : State) : (setCtx k c s).can = s.can := rfl
@[simp] theorem setCtx_sec (k : Nat) (c : Ctx) (s : State) : (setCtx k c s).sec = s.sec := rfl
@[simp] theorem setCtx_log (k : Nat) (c : Ctx) (s : State) : (setCtx k c s).log = s.log := rfl
@[simp] theorem setCtx_lantern (k : Nat) (c : Ctx) (s : State) : (setCtx k c s).lantern = s.lantern := rfl
@[simp] theorem setCtx_muster (k : Nat) (c : Ctx) (s : State) : (setCtx k c s).muster = s.muster := rfl
@[simp] theorem setCtx_pwr (k : Nat) (c : Ctx) (s : State) : (setCtx k c s).pwr = s.pwr := rfl
@[simp] theorem setCtx_resets (k : Nat) (c : Ctx) (s : State) : (setCtx k c s).resets = s.resets := rfl
@[simp] theorem setCtx_sent (k : Nat) (c : Ctx) (s : State) : (setCtx k c s).sent = s.sent := rfl
@[simp] theorem setCtx_free (k : Nat) (c : Ctx) (s : State) : (setCtx k c s).free = s.free := rfl

@[simp] theorem modCtx_pending (k : Nat) (f : Ctx → Ctx) (s : State) : (modCtx k f s).pending = s.pending := rfl
@[simp] theorem modCtx_time (k : Nat) (f : Ctx → Ctx) (s : State) : (modCtx k f s).time = s.time := rfl
@[simp] theorem modCtx_ports (k : Nat) (f : Ctx → Ctx) (s : State) : (modCtx k f s).ports = s.ports := rfl
@[simp] theorem modCtx_sw (k : Nat) (f : Ctx → Ctx) (s : State) : (modCtx k f s).sw = s.sw := rfl
@[simp] theorem modCtx_routes (k : Nat) (f : Ctx → Ctx) (s : State) : (modCtx k f s).routes = s.routes := rfl
@[simp] theorem modCtx_bep (k : Nat) (f : Ctx → Ctx) (s : State) : (modCtx k f s).bep = s.bep := rfl
@[simp] theorem modCtx_ep (k : Nat) (f : Ctx → Ctx) (s : State) : (modCtx k f s).ep = s.ep := rfl
@[simp] theorem modCtx_grotto (k : Nat) (f : Ctx → Ctx) (s : State) : (modCtx k f s).grotto = s.grotto := rfl
@[simp] theorem modCtx_cal (k : Nat) (f : Ctx → Ctx) (s : State) : (modCtx k f s).cal = s.cal := rfl
@[simp] theorem modCtx_coll (k : Nat) (f : Ctx → Ctx) (s : State) : (modCtx k f s).coll = s.coll := rfl
@[simp] theorem modCtx_xlat (k : Nat) (f : Ctx → Ctx) (s : State) : (modCtx k f s).xlat = s.xlat := rfl
@[simp] theorem modCtx_mem (k : Nat) (f : Ctx → Ctx) (s : State) : (modCtx k f s).mem = s.mem := rfl
@[simp] theorem modCtx_dict (k : Nat) (f : Ctx → Ctx) (s : State) : (modCtx k f s).dict = s.dict := rfl
@[simp] theorem modCtx_host (k : Nat) (f : Ctx → Ctx) (s : State) : (modCtx k f s).host = s.host := rfl
@[simp] theorem modCtx_can (k : Nat) (f : Ctx → Ctx) (s : State) : (modCtx k f s).can = s.can := rfl
@[simp] theorem modCtx_sec (k : Nat) (f : Ctx → Ctx) (s : State) : (modCtx k f s).sec = s.sec := rfl
@[simp] theorem modCtx_log (k : Nat) (f : Ctx → Ctx) (s : State) : (modCtx k f s).log = s.log := rfl
@[simp] theorem modCtx_lantern (k : Nat) (f : Ctx → Ctx) (s : State) : (modCtx k f s).lantern = s.lantern := rfl
@[simp] theorem modCtx_muster (k : Nat) (f : Ctx → Ctx) (s : State) : (modCtx k f s).muster = s.muster := rfl
@[simp] theorem modCtx_pwr (k : Nat) (f : Ctx → Ctx) (s : State) : (modCtx k f s).pwr = s.pwr := rfl
@[simp] theorem modCtx_resets (k : Nat) (f : Ctx → Ctx) (s : State) : (modCtx k f s).resets = s.resets := rfl
@[simp] theorem modCtx_sent (k : Nat) (f : Ctx → Ctx) (s : State) : (modCtx k f s).sent = s.sent := rfl
@[simp] theorem modCtx_free (k : Nat) (f : Ctx → Ctx) (s : State) : (modCtx k f s).free = s.free := rfl

@[simp] theorem modStream_pending (k e : Nat) (f : Stream → Stream) (s : State) : (modStream k e f s).pending = s.pending := rfl
@[simp] theorem modStream_time (k e : Nat) (f : Stream → Stream) (s : State) : (modStream k e f s).time = s.time := rfl
@[simp] theorem modStream_ports (k e : Nat) (f : Stream → Stream) (s : State) : (modStream k e f s).ports = s.ports := rfl
@[simp] theorem modStream_sw (k e : Nat) (f : Stream → Stream) (s : State) : (modStream k e f s).sw = s.sw := rfl
@[simp] theorem modStream_routes (k e : Nat) (f : Stream → Stream) (s : State) : (modStream k e f s).routes = s.routes := rfl
@[simp] theorem modStream_bep (k e : Nat) (f : Stream → Stream) (s : State) : (modStream k e f s).bep = s.bep := rfl
@[simp] theorem modStream_ep (k e : Nat) (f : Stream → Stream) (s : State) : (modStream k e f s).ep = s.ep := rfl
@[simp] theorem modStream_grotto (k e : Nat) (f : Stream → Stream) (s : State) : (modStream k e f s).grotto = s.grotto := rfl
@[simp] theorem modStream_cal (k e : Nat) (f : Stream → Stream) (s : State) : (modStream k e f s).cal = s.cal := rfl
@[simp] theorem modStream_coll (k e : Nat) (f : Stream → Stream) (s : State) : (modStream k e f s).coll = s.coll := rfl
@[simp] theorem modStream_xlat (k e : Nat) (f : Stream → Stream) (s : State) : (modStream k e f s).xlat = s.xlat := rfl
@[simp] theorem modStream_mem (k e : Nat) (f : Stream → Stream) (s : State) : (modStream k e f s).mem = s.mem := rfl
@[simp] theorem modStream_dict (k e : Nat) (f : Stream → Stream) (s : State) : (modStream k e f s).dict = s.dict := rfl
@[simp] theorem modStream_host (k e : Nat) (f : Stream → Stream) (s : State) : (modStream k e f s).host = s.host := rfl
@[simp] theorem modStream_can (k e : Nat) (f : Stream → Stream) (s : State) : (modStream k e f s).can = s.can := rfl
@[simp] theorem modStream_sec (k e : Nat) (f : Stream → Stream) (s : State) : (modStream k e f s).sec = s.sec := rfl
@[simp] theorem modStream_log (k e : Nat) (f : Stream → Stream) (s : State) : (modStream k e f s).log = s.log := rfl
@[simp] theorem modStream_lantern (k e : Nat) (f : Stream → Stream) (s : State) : (modStream k e f s).lantern = s.lantern := rfl
@[simp] theorem modStream_muster (k e : Nat) (f : Stream → Stream) (s : State) : (modStream k e f s).muster = s.muster := rfl
@[simp] theorem modStream_pwr (k e : Nat) (f : Stream → Stream) (s : State) : (modStream k e f s).pwr = s.pwr := rfl
@[simp] theorem modStream_resets (k e : Nat) (f : Stream → Stream) (s : State) : (modStream k e f s).resets = s.resets := rfl
@[simp] theorem modStream_sent (k e : Nat) (f : Stream → Stream) (s : State) : (modStream k e f s).sent = s.sent := rfl
@[simp] theorem modStream_free (k e : Nat) (f : Stream → Stream) (s : State) : (modStream k e f s).free = s.free := rfl

@[simp] theorem modCmp_pending (f : Compute → Compute) (s : State) : (modCmp f s).pending = s.pending := rfl
@[simp] theorem modCmp_time (f : Compute → Compute) (s : State) : (modCmp f s).time = s.time := rfl
@[simp] theorem modCmp_ports (f : Compute → Compute) (s : State) : (modCmp f s).ports = s.ports := rfl
@[simp] theorem modCmp_sw (f : Compute → Compute) (s : State) : (modCmp f s).sw = s.sw := rfl
@[simp] theorem modCmp_routes (f : Compute → Compute) (s : State) : (modCmp f s).routes = s.routes := rfl
@[simp] theorem modCmp_bep (f : Compute → Compute) (s : State) : (modCmp f s).bep = s.bep := rfl
@[simp] theorem modCmp_ep (f : Compute → Compute) (s : State) : (modCmp f s).ep = s.ep := rfl
@[simp] theorem modCmp_grotto (f : Compute → Compute) (s : State) : (modCmp f s).grotto = s.grotto := rfl
@[simp] theorem modCmp_cal (f : Compute → Compute) (s : State) : (modCmp f s).cal = s.cal := rfl
@[simp] theorem modCmp_coll (f : Compute → Compute) (s : State) : (modCmp f s).coll = s.coll := rfl
@[simp] theorem modCmp_xlat (f : Compute → Compute) (s : State) : (modCmp f s).xlat = s.xlat := rfl
@[simp] theorem modCmp_mem (f : Compute → Compute) (s : State) : (modCmp f s).mem = s.mem := rfl
@[simp] theorem modCmp_dict (f : Compute → Compute) (s : State) : (modCmp f s).dict = s.dict := rfl
@[simp] theorem modCmp_host (f : Compute → Compute) (s : State) : (modCmp f s).host = s.host := rfl
@[simp] theorem modCmp_can (f : Compute → Compute) (s : State) : (modCmp f s).can = s.can := rfl
@[simp] theorem modCmp_sec (f : Compute → Compute) (s : State) : (modCmp f s).sec = s.sec := rfl
@[simp] theorem modCmp_log (f : Compute → Compute) (s : State) : (modCmp f s).log = s.log := rfl
@[simp] theorem modCmp_lantern (f : Compute → Compute) (s : State) : (modCmp f s).lantern = s.lantern := rfl
@[simp] theorem modCmp_muster (f : Compute → Compute) (s : State) : (modCmp f s).muster = s.muster := rfl
@[simp] theorem modCmp_pwr (f : Compute → Compute) (s : State) : (modCmp f s).pwr = s.pwr := rfl
@[simp] theorem modCmp_resets (f : Compute → Compute) (s : State) : (modCmp f s).resets = s.resets := rfl
@[simp] theorem modCmp_sent (f : Compute → Compute) (s : State) : (modCmp f s).sent = s.sent := rfl
@[simp] theorem modCmp_free (f : Compute → Compute) (s : State) : (modCmp f s).free = s.free := rfl
@[simp] theorem modCmp_cmp (f : Compute → Compute) (s : State) : (modCmp f s).cmp = f s.cmp := rfl

@[simp] theorem setAcc_pending (j : Nat) (a : Acc) (s : State) : (setAcc j a s).pending = s.pending := rfl
@[simp] theorem setAcc_time (j : Nat) (a : Acc) (s : State) : (setAcc j a s).time = s.time := rfl
@[simp] theorem setAcc_ports (j : Nat) (a : Acc) (s : State) : (setAcc j a s).ports = s.ports := rfl
@[simp] theorem setAcc_sw (j : Nat) (a : Acc) (s : State) : (setAcc j a s).sw = s.sw := rfl
@[simp] theorem setAcc_routes (j : Nat) (a : Acc) (s : State) : (setAcc j a s).routes = s.routes := rfl
@[simp] theorem setAcc_bep (j : Nat) (a : Acc) (s : State) : (setAcc j a s).bep = s.bep := rfl
@[simp] theorem setAcc_ep (j : Nat) (a : Acc) (s : State) : (setAcc j a s).ep = s.ep := rfl
@[simp] theorem setAcc_grotto (j : Nat) (a : Acc) (s : State) : (setAcc j a s).grotto = s.grotto := rfl
@[simp] theorem setAcc_cal (j : Nat) (a : Acc) (s : State) : (setAcc j a s).cal = s.cal := rfl
@[simp] theorem setAcc_coll (j : Nat) (a : Acc) (s : State) : (setAcc j a s).coll = s.coll := rfl
@[simp] theorem setAcc_xlat (j : Nat) (a : Acc) (s : State) : (setAcc j a s).xlat = s.xlat := rfl
@[simp] theorem setAcc_mem (j : Nat) (a : Acc) (s : State) : (setAcc j a s).mem = s.mem := rfl
@[simp] theorem setAcc_dict (j : Nat) (a : Acc) (s : State) : (setAcc j a s).dict = s.dict := rfl
@[simp] theorem setAcc_host (j : Nat) (a : Acc) (s : State) : (setAcc j a s).host = s.host := rfl
@[simp] theorem setAcc_can (j : Nat) (a : Acc) (s : State) : (setAcc j a s).can = s.can := rfl
@[simp] theorem setAcc_sec (j : Nat) (a : Acc) (s : State) : (setAcc j a s).sec = s.sec := rfl
@[simp] theorem setAcc_log (j : Nat) (a : Acc) (s : State) : (setAcc j a s).log = s.log := rfl
@[simp] theorem setAcc_lantern (j : Nat) (a : Acc) (s : State) : (setAcc j a s).lantern = s.lantern := rfl
@[simp] theorem setAcc_muster (j : Nat) (a : Acc) (s : State) : (setAcc j a s).muster = s.muster := rfl
@[simp] theorem setAcc_pwr (j : Nat) (a : Acc) (s : State) : (setAcc j a s).pwr = s.pwr := rfl
@[simp] theorem setAcc_resets (j : Nat) (a : Acc) (s : State) : (setAcc j a s).resets = s.resets := rfl
@[simp] theorem setAcc_sent (j : Nat) (a : Acc) (s : State) : (setAcc j a s).sent = s.sent := rfl
@[simp] theorem setAcc_free (j : Nat) (a : Acc) (s : State) : (setAcc j a s).free = s.free := rfl

@[simp] theorem setCache_pending (k : Nat) (l : CLine) (s : State) : (setCache k l s).pending = s.pending := rfl
@[simp] theorem setCache_time (k : Nat) (l : CLine) (s : State) : (setCache k l s).time = s.time := rfl
@[simp] theorem setCache_ports (k : Nat) (l : CLine) (s : State) : (setCache k l s).ports = s.ports := rfl
@[simp] theorem setCache_sw (k : Nat) (l : CLine) (s : State) : (setCache k l s).sw = s.sw := rfl
@[simp] theorem setCache_routes (k : Nat) (l : CLine) (s : State) : (setCache k l s).routes = s.routes := rfl
@[simp] theorem setCache_bep (k : Nat) (l : CLine) (s : State) : (setCache k l s).bep = s.bep := rfl
@[simp] theorem setCache_ep (k : Nat) (l : CLine) (s : State) : (setCache k l s).ep = s.ep := rfl
@[simp] theorem setCache_grotto (k : Nat) (l : CLine) (s : State) : (setCache k l s).grotto = s.grotto := rfl
@[simp] theorem setCache_cal (k : Nat) (l : CLine) (s : State) : (setCache k l s).cal = s.cal := rfl
@[simp] theorem setCache_coll (k : Nat) (l : CLine) (s : State) : (setCache k l s).coll = s.coll := rfl
@[simp] theorem setCache_xlat (k : Nat) (l : CLine) (s : State) : (setCache k l s).xlat = s.xlat := rfl
@[simp] theorem setCache_mem (k : Nat) (l : CLine) (s : State) : (setCache k l s).mem = s.mem := rfl
@[simp] theorem setCache_dict (k : Nat) (l : CLine) (s : State) : (setCache k l s).dict = s.dict := rfl
@[simp] theorem setCache_host (k : Nat) (l : CLine) (s : State) : (setCache k l s).host = s.host := rfl
@[simp] theorem setCache_can (k : Nat) (l : CLine) (s : State) : (setCache k l s).can = s.can := rfl
@[simp] theorem setCache_sec (k : Nat) (l : CLine) (s : State) : (setCache k l s).sec = s.sec := rfl
@[simp] theorem setCache_log (k : Nat) (l : CLine) (s : State) : (setCache k l s).log = s.log := rfl
@[simp] theorem setCache_lantern (k : Nat) (l : CLine) (s : State) : (setCache k l s).lantern = s.lantern := rfl
@[simp] theorem setCache_muster (k : Nat) (l : CLine) (s : State) : (setCache k l s).muster = s.muster := rfl
@[simp] theorem setCache_pwr (k : Nat) (l : CLine) (s : State) : (setCache k l s).pwr = s.pwr := rfl
@[simp] theorem setCache_resets (k : Nat) (l : CLine) (s : State) : (setCache k l s).resets = s.resets := rfl
@[simp] theorem setCache_sent (k : Nat) (l : CLine) (s : State) : (setCache k l s).sent = s.sent := rfl
@[simp] theorem setCache_free (k : Nat) (l : CLine) (s : State) : (setCache k l s).free = s.free := rfl

@[simp] theorem modDict_pending (f : Dict → Dict) (s : State) : (modDict f s).pending = s.pending := rfl
@[simp] theorem modDict_time (f : Dict → Dict) (s : State) : (modDict f s).time = s.time := rfl
@[simp] theorem modDict_ports (f : Dict → Dict) (s : State) : (modDict f s).ports = s.ports := rfl
@[simp] theorem modDict_sw (f : Dict → Dict) (s : State) : (modDict f s).sw = s.sw := rfl
@[simp] theorem modDict_routes (f : Dict → Dict) (s : State) : (modDict f s).routes = s.routes := rfl
@[simp] theorem modDict_bep (f : Dict → Dict) (s : State) : (modDict f s).bep = s.bep := rfl
@[simp] theorem modDict_ep (f : Dict → Dict) (s : State) : (modDict f s).ep = s.ep := rfl
@[simp] theorem modDict_grotto (f : Dict → Dict) (s : State) : (modDict f s).grotto = s.grotto := rfl
@[simp] theorem modDict_cal (f : Dict → Dict) (s : State) : (modDict f s).cal = s.cal := rfl
@[simp] theorem modDict_cmp (f : Dict → Dict) (s : State) : (modDict f s).cmp = s.cmp := rfl
@[simp] theorem modDict_coll (f : Dict → Dict) (s : State) : (modDict f s).coll = s.coll := rfl
@[simp] theorem modDict_xlat (f : Dict → Dict) (s : State) : (modDict f s).xlat = s.xlat := rfl
@[simp] theorem modDict_mem (f : Dict → Dict) (s : State) : (modDict f s).mem = s.mem := rfl
@[simp] theorem modDict_host (f : Dict → Dict) (s : State) : (modDict f s).host = s.host := rfl
@[simp] theorem modDict_can (f : Dict → Dict) (s : State) : (modDict f s).can = s.can := rfl
@[simp] theorem modDict_sec (f : Dict → Dict) (s : State) : (modDict f s).sec = s.sec := rfl
@[simp] theorem modDict_log (f : Dict → Dict) (s : State) : (modDict f s).log = s.log := rfl
@[simp] theorem modDict_lantern (f : Dict → Dict) (s : State) : (modDict f s).lantern = s.lantern := rfl
@[simp] theorem modDict_muster (f : Dict → Dict) (s : State) : (modDict f s).muster = s.muster := rfl
@[simp] theorem modDict_pwr (f : Dict → Dict) (s : State) : (modDict f s).pwr = s.pwr := rfl
@[simp] theorem modDict_resets (f : Dict → Dict) (s : State) : (modDict f s).resets = s.resets := rfl
@[simp] theorem modDict_sent (f : Dict → Dict) (s : State) : (modDict f s).sent = s.sent := rfl
@[simp] theorem modDict_free (f : Dict → Dict) (s : State) : (modDict f s).free = s.free := rfl
@[simp] theorem modDict_dict (f : Dict → Dict) (s : State) : (modDict f s).dict = f s.dict := rfl

@[simp] theorem modLantern_pending (f : Lantern → Lantern) (s : State) : (modLantern f s).pending = s.pending := rfl
@[simp] theorem modLantern_time (f : Lantern → Lantern) (s : State) : (modLantern f s).time = s.time := rfl
@[simp] theorem modLantern_ports (f : Lantern → Lantern) (s : State) : (modLantern f s).ports = s.ports := rfl
@[simp] theorem modLantern_sw (f : Lantern → Lantern) (s : State) : (modLantern f s).sw = s.sw := rfl
@[simp] theorem modLantern_routes (f : Lantern → Lantern) (s : State) : (modLantern f s).routes = s.routes := rfl
@[simp] theorem modLantern_bep (f : Lantern → Lantern) (s : State) : (modLantern f s).bep = s.bep := rfl
@[simp] theorem modLantern_ep (f : Lantern → Lantern) (s : State) : (modLantern f s).ep = s.ep := rfl
@[simp] theorem modLantern_grotto (f : Lantern → Lantern) (s : State) : (modLantern f s).grotto = s.grotto := rfl
@[simp] theorem modLantern_cal (f : Lantern → Lantern) (s : State) : (modLantern f s).cal = s.cal := rfl
@[simp] theorem modLantern_cmp (f : Lantern → Lantern) (s : State) : (modLantern f s).cmp = s.cmp := rfl
@[simp] theorem modLantern_coll (f : Lantern → Lantern) (s : State) : (modLantern f s).coll = s.coll := rfl
@[simp] theorem modLantern_xlat (f : Lantern → Lantern) (s : State) : (modLantern f s).xlat = s.xlat := rfl
@[simp] theorem modLantern_mem (f : Lantern → Lantern) (s : State) : (modLantern f s).mem = s.mem := rfl
@[simp] theorem modLantern_dict (f : Lantern → Lantern) (s : State) : (modLantern f s).dict = s.dict := rfl
@[simp] theorem modLantern_host (f : Lantern → Lantern) (s : State) : (modLantern f s).host = s.host := rfl
@[simp] theorem modLantern_can (f : Lantern → Lantern) (s : State) : (modLantern f s).can = s.can := rfl
@[simp] theorem modLantern_sec (f : Lantern → Lantern) (s : State) : (modLantern f s).sec = s.sec := rfl
@[simp] theorem modLantern_log (f : Lantern → Lantern) (s : State) : (modLantern f s).log = s.log := rfl
@[simp] theorem modLantern_muster (f : Lantern → Lantern) (s : State) : (modLantern f s).muster = s.muster := rfl
@[simp] theorem modLantern_pwr (f : Lantern → Lantern) (s : State) : (modLantern f s).pwr = s.pwr := rfl
@[simp] theorem modLantern_resets (f : Lantern → Lantern) (s : State) : (modLantern f s).resets = s.resets := rfl
@[simp] theorem modLantern_sent (f : Lantern → Lantern) (s : State) : (modLantern f s).sent = s.sent := rfl
@[simp] theorem modLantern_free (f : Lantern → Lantern) (s : State) : (modLantern f s).free = s.free := rfl
@[simp] theorem modLantern_lantern (f : Lantern → Lantern) (s : State) : (modLantern f s).lantern = f s.lantern := rfl

@[simp] theorem modEp_pending (f : Ep → Ep) (s : State) : (modEp f s).pending = s.pending := rfl
@[simp] theorem modEp_time (f : Ep → Ep) (s : State) : (modEp f s).time = s.time := rfl
@[simp] theorem modEp_ports (f : Ep → Ep) (s : State) : (modEp f s).ports = s.ports := rfl
@[simp] theorem modEp_sw (f : Ep → Ep) (s : State) : (modEp f s).sw = s.sw := rfl
@[simp] theorem modEp_routes (f : Ep → Ep) (s : State) : (modEp f s).routes = s.routes := rfl
@[simp] theorem modEp_bep (f : Ep → Ep) (s : State) : (modEp f s).bep = s.bep := rfl
@[simp] theorem modEp_grotto (f : Ep → Ep) (s : State) : (modEp f s).grotto = s.grotto := rfl
@[simp] theorem modEp_cal (f : Ep → Ep) (s : State) : (modEp f s).cal = s.cal := rfl
@[simp] theorem modEp_cmp (f : Ep → Ep) (s : State) : (modEp f s).cmp = s.cmp := rfl
@[simp] theorem modEp_coll (f : Ep → Ep) (s : State) : (modEp f s).coll = s.coll := rfl
@[simp] theorem modEp_xlat (f : Ep → Ep) (s : State) : (modEp f s).xlat = s.xlat := rfl
@[simp] theorem modEp_mem (f : Ep → Ep) (s : State) : (modEp f s).mem = s.mem := rfl
@[simp] theorem modEp_dict (f : Ep → Ep) (s : State) : (modEp f s).dict = s.dict := rfl
@[simp] theorem modEp_host (f : Ep → Ep) (s : State) : (modEp f s).host = s.host := rfl
@[simp] theorem modEp_can (f : Ep → Ep) (s : State) : (modEp f s).can = s.can := rfl
@[simp] theorem modEp_sec (f : Ep → Ep) (s : State) : (modEp f s).sec = s.sec := rfl
@[simp] theorem modEp_log (f : Ep → Ep) (s : State) : (modEp f s).log = s.log := rfl
@[simp] theorem modEp_lantern (f : Ep → Ep) (s : State) : (modEp f s).lantern = s.lantern := rfl
@[simp] theorem modEp_muster (f : Ep → Ep) (s : State) : (modEp f s).muster = s.muster := rfl
@[simp] theorem modEp_pwr (f : Ep → Ep) (s : State) : (modEp f s).pwr = s.pwr := rfl
@[simp] theorem modEp_resets (f : Ep → Ep) (s : State) : (modEp f s).resets = s.resets := rfl
@[simp] theorem modEp_sent (f : Ep → Ep) (s : State) : (modEp f s).sent = s.sent := rfl
@[simp] theorem modEp_free (f : Ep → Ep) (s : State) : (modEp f s).free = s.free := rfl
@[simp] theorem modEp_ep (f : Ep → Ep) (s : State) : (modEp f s).ep = f s.ep := rfl

@[simp] theorem modGrotto_pending (f : Grotto → Grotto) (s : State) : (modGrotto f s).pending = s.pending := rfl
@[simp] theorem modGrotto_time (f : Grotto → Grotto) (s : State) : (modGrotto f s).time = s.time := rfl
@[simp] theorem modGrotto_ports (f : Grotto → Grotto) (s : State) : (modGrotto f s).ports = s.ports := rfl
@[simp] theorem modGrotto_sw (f : Grotto → Grotto) (s : State) : (modGrotto f s).sw = s.sw := rfl
@[simp] theorem modGrotto_routes (f : Grotto → Grotto) (s : State) : (modGrotto f s).routes = s.routes := rfl
@[simp] theorem modGrotto_bep (f : Grotto → Grotto) (s : State) : (modGrotto f s).bep = s.bep := rfl
@[simp] theorem modGrotto_ep (f : Grotto → Grotto) (s : State) : (modGrotto f s).ep = s.ep := rfl
@[simp] theorem modGrotto_cal (f : Grotto → Grotto) (s : State) : (modGrotto f s).cal = s.cal := rfl
@[simp] theorem modGrotto_cmp (f : Grotto → Grotto) (s : State) : (modGrotto f s).cmp = s.cmp := rfl
@[simp] theorem modGrotto_coll (f : Grotto → Grotto) (s : State) : (modGrotto f s).coll = s.coll := rfl
@[simp] theorem modGrotto_xlat (f : Grotto → Grotto) (s : State) : (modGrotto f s).xlat = s.xlat := rfl
@[simp] theorem modGrotto_mem (f : Grotto → Grotto) (s : State) : (modGrotto f s).mem = s.mem := rfl
@[simp] theorem modGrotto_dict (f : Grotto → Grotto) (s : State) : (modGrotto f s).dict = s.dict := rfl
@[simp] theorem modGrotto_host (f : Grotto → Grotto) (s : State) : (modGrotto f s).host = s.host := rfl
@[simp] theorem modGrotto_can (f : Grotto → Grotto) (s : State) : (modGrotto f s).can = s.can := rfl
@[simp] theorem modGrotto_sec (f : Grotto → Grotto) (s : State) : (modGrotto f s).sec = s.sec := rfl
@[simp] theorem modGrotto_log (f : Grotto → Grotto) (s : State) : (modGrotto f s).log = s.log := rfl
@[simp] theorem modGrotto_lantern (f : Grotto → Grotto) (s : State) : (modGrotto f s).lantern = s.lantern := rfl
@[simp] theorem modGrotto_muster (f : Grotto → Grotto) (s : State) : (modGrotto f s).muster = s.muster := rfl
@[simp] theorem modGrotto_pwr (f : Grotto → Grotto) (s : State) : (modGrotto f s).pwr = s.pwr := rfl
@[simp] theorem modGrotto_resets (f : Grotto → Grotto) (s : State) : (modGrotto f s).resets = s.resets := rfl
@[simp] theorem modGrotto_sent (f : Grotto → Grotto) (s : State) : (modGrotto f s).sent = s.sent := rfl
@[simp] theorem modGrotto_free (f : Grotto → Grotto) (s : State) : (modGrotto f s).free = s.free := rfl
@[simp] theorem modGrotto_grotto (f : Grotto → Grotto) (s : State) : (modGrotto f s).grotto = f s.grotto := rfl

@[simp] theorem modHost_pending (f : HostIf → HostIf) (s : State) : (modHost f s).pending = s.pending := rfl
@[simp] theorem modHost_time (f : HostIf → HostIf) (s : State) : (modHost f s).time = s.time := rfl
@[simp] theorem modHost_ports (f : HostIf → HostIf) (s : State) : (modHost f s).ports = s.ports := rfl
@[simp] theorem modHost_sw (f : HostIf → HostIf) (s : State) : (modHost f s).sw = s.sw := rfl
@[simp] theorem modHost_routes (f : HostIf → HostIf) (s : State) : (modHost f s).routes = s.routes := rfl
@[simp] theorem modHost_bep (f : HostIf → HostIf) (s : State) : (modHost f s).bep = s.bep := rfl
@[simp] theorem modHost_ep (f : HostIf → HostIf) (s : State) : (modHost f s).ep = s.ep := rfl
@[simp] theorem modHost_grotto (f : HostIf → HostIf) (s : State) : (modHost f s).grotto = s.grotto := rfl
@[simp] theorem modHost_cal (f : HostIf → HostIf) (s : State) : (modHost f s).cal = s.cal := rfl
@[simp] theorem modHost_cmp (f : HostIf → HostIf) (s : State) : (modHost f s).cmp = s.cmp := rfl
@[simp] theorem modHost_coll (f : HostIf → HostIf) (s : State) : (modHost f s).coll = s.coll := rfl
@[simp] theorem modHost_xlat (f : HostIf → HostIf) (s : State) : (modHost f s).xlat = s.xlat := rfl
@[simp] theorem modHost_mem (f : HostIf → HostIf) (s : State) : (modHost f s).mem = s.mem := rfl
@[simp] theorem modHost_dict (f : HostIf → HostIf) (s : State) : (modHost f s).dict = s.dict := rfl
@[simp] theorem modHost_can (f : HostIf → HostIf) (s : State) : (modHost f s).can = s.can := rfl
@[simp] theorem modHost_sec (f : HostIf → HostIf) (s : State) : (modHost f s).sec = s.sec := rfl
@[simp] theorem modHost_log (f : HostIf → HostIf) (s : State) : (modHost f s).log = s.log := rfl
@[simp] theorem modHost_lantern (f : HostIf → HostIf) (s : State) : (modHost f s).lantern = s.lantern := rfl
@[simp] theorem modHost_muster (f : HostIf → HostIf) (s : State) : (modHost f s).muster = s.muster := rfl
@[simp] theorem modHost_pwr (f : HostIf → HostIf) (s : State) : (modHost f s).pwr = s.pwr := rfl
@[simp] theorem modHost_resets (f : HostIf → HostIf) (s : State) : (modHost f s).resets = s.resets := rfl
@[simp] theorem modHost_sent (f : HostIf → HostIf) (s : State) : (modHost f s).sent = s.sent := rfl
@[simp] theorem modHost_free (f : HostIf → HostIf) (s : State) : (modHost f s).free = s.free := rfl
@[simp] theorem modHost_host (f : HostIf → HostIf) (s : State) : (modHost f s).host = f s.host := rfl

@[simp] theorem modCan_pending (f : Can → Can) (s : State) : (modCan f s).pending = s.pending := rfl
@[simp] theorem modCan_time (f : Can → Can) (s : State) : (modCan f s).time = s.time := rfl
@[simp] theorem modCan_ports (f : Can → Can) (s : State) : (modCan f s).ports = s.ports := rfl
@[simp] theorem modCan_sw (f : Can → Can) (s : State) : (modCan f s).sw = s.sw := rfl
@[simp] theorem modCan_routes (f : Can → Can) (s : State) : (modCan f s).routes = s.routes := rfl
@[simp] theorem modCan_bep (f : Can → Can) (s : State) : (modCan f s).bep = s.bep := rfl
@[simp] theorem modCan_ep (f : Can → Can) (s : State) : (modCan f s).ep = s.ep := rfl
@[simp] theorem modCan_grotto (f : Can → Can) (s : State) : (modCan f s).grotto = s.grotto := rfl
@[simp] theorem modCan_cal (f : Can → Can) (s : State) : (modCan f s).cal = s.cal := rfl
@[simp] theorem modCan_cmp (f : Can → Can) (s : State) : (modCan f s).cmp = s.cmp := rfl
@[simp] theorem modCan_coll (f : Can → Can) (s : State) : (modCan f s).coll = s.coll := rfl
@[simp] theorem modCan_xlat (f : Can → Can) (s : State) : (modCan f s).xlat = s.xlat := rfl
@[simp] theorem modCan_mem (f : Can → Can) (s : State) : (modCan f s).mem = s.mem := rfl
@[simp] theorem modCan_dict (f : Can → Can) (s : State) : (modCan f s).dict = s.dict := rfl
@[simp] theorem modCan_host (f : Can → Can) (s : State) : (modCan f s).host = s.host := rfl
@[simp] theorem modCan_sec (f : Can → Can) (s : State) : (modCan f s).sec = s.sec := rfl
@[simp] theorem modCan_log (f : Can → Can) (s : State) : (modCan f s).log = s.log := rfl
@[simp] theorem modCan_lantern (f : Can → Can) (s : State) : (modCan f s).lantern = s.lantern := rfl
@[simp] theorem modCan_muster (f : Can → Can) (s : State) : (modCan f s).muster = s.muster := rfl
@[simp] theorem modCan_pwr (f : Can → Can) (s : State) : (modCan f s).pwr = s.pwr := rfl
@[simp] theorem modCan_resets (f : Can → Can) (s : State) : (modCan f s).resets = s.resets := rfl
@[simp] theorem modCan_sent (f : Can → Can) (s : State) : (modCan f s).sent = s.sent := rfl
@[simp] theorem modCan_free (f : Can → Can) (s : State) : (modCan f s).free = s.free := rfl
@[simp] theorem modCan_can (f : Can → Can) (s : State) : (modCan f s).can = f s.can := rfl

@[simp] theorem modKey_pending (p : PortN) (f : Keying → Keying) (s : State) : (modKey p f s).pending = s.pending := rfl
@[simp] theorem modKey_time (p : PortN) (f : Keying → Keying) (s : State) : (modKey p f s).time = s.time := rfl
@[simp] theorem modKey_sw (p : PortN) (f : Keying → Keying) (s : State) : (modKey p f s).sw = s.sw := rfl
@[simp] theorem modKey_routes (p : PortN) (f : Keying → Keying) (s : State) : (modKey p f s).routes = s.routes := rfl
@[simp] theorem modKey_bep (p : PortN) (f : Keying → Keying) (s : State) : (modKey p f s).bep = s.bep := rfl
@[simp] theorem modKey_ep (p : PortN) (f : Keying → Keying) (s : State) : (modKey p f s).ep = s.ep := rfl
@[simp] theorem modKey_grotto (p : PortN) (f : Keying → Keying) (s : State) : (modKey p f s).grotto = s.grotto := rfl
@[simp] theorem modKey_cal (p : PortN) (f : Keying → Keying) (s : State) : (modKey p f s).cal = s.cal := rfl
@[simp] theorem modKey_cmp (p : PortN) (f : Keying → Keying) (s : State) : (modKey p f s).cmp = s.cmp := rfl
@[simp] theorem modKey_coll (p : PortN) (f : Keying → Keying) (s : State) : (modKey p f s).coll = s.coll := rfl
@[simp] theorem modKey_xlat (p : PortN) (f : Keying → Keying) (s : State) : (modKey p f s).xlat = s.xlat := rfl
@[simp] theorem modKey_mem (p : PortN) (f : Keying → Keying) (s : State) : (modKey p f s).mem = s.mem := rfl
@[simp] theorem modKey_dict (p : PortN) (f : Keying → Keying) (s : State) : (modKey p f s).dict = s.dict := rfl
@[simp] theorem modKey_host (p : PortN) (f : Keying → Keying) (s : State) : (modKey p f s).host = s.host := rfl
@[simp] theorem modKey_can (p : PortN) (f : Keying → Keying) (s : State) : (modKey p f s).can = s.can := rfl
@[simp] theorem modKey_sec (p : PortN) (f : Keying → Keying) (s : State) : (modKey p f s).sec = s.sec := rfl
@[simp] theorem modKey_log (p : PortN) (f : Keying → Keying) (s : State) : (modKey p f s).log = s.log := rfl
@[simp] theorem modKey_lantern (p : PortN) (f : Keying → Keying) (s : State) : (modKey p f s).lantern = s.lantern := rfl
@[simp] theorem modKey_muster (p : PortN) (f : Keying → Keying) (s : State) : (modKey p f s).muster = s.muster := rfl
@[simp] theorem modKey_pwr (p : PortN) (f : Keying → Keying) (s : State) : (modKey p f s).pwr = s.pwr := rfl
@[simp] theorem modKey_resets (p : PortN) (f : Keying → Keying) (s : State) : (modKey p f s).resets = s.resets := rfl
@[simp] theorem modKey_sent (p : PortN) (f : Keying → Keying) (s : State) : (modKey p f s).sent = s.sent := rfl
@[simp] theorem modKey_free (p : PortN) (f : Keying → Keying) (s : State) : (modKey p f s).free = s.free := rfl

@[simp] theorem modLane_pending (p : PortN) (l : LaneN) (f : Lane → Lane) (s : State) : (modLane p l f s).pending = s.pending := rfl
@[simp] theorem modLane_time (p : PortN) (l : LaneN) (f : Lane → Lane) (s : State) : (modLane p l f s).time = s.time := rfl
@[simp] theorem modLane_sw (p : PortN) (l : LaneN) (f : Lane → Lane) (s : State) : (modLane p l f s).sw = s.sw := rfl
@[simp] theorem modLane_routes (p : PortN) (l : LaneN) (f : Lane → Lane) (s : State) : (modLane p l f s).routes = s.routes := rfl
@[simp] theorem modLane_bep (p : PortN) (l : LaneN) (f : Lane → Lane) (s : State) : (modLane p l f s).bep = s.bep := rfl
@[simp] theorem modLane_ep (p : PortN) (l : LaneN) (f : Lane → Lane) (s : State) : (modLane p l f s).ep = s.ep := rfl
@[simp] theorem modLane_grotto (p : PortN) (l : LaneN) (f : Lane → Lane) (s : State) : (modLane p l f s).grotto = s.grotto := rfl
@[simp] theorem modLane_cal (p : PortN) (l : LaneN) (f : Lane → Lane) (s : State) : (modLane p l f s).cal = s.cal := rfl
@[simp] theorem modLane_cmp (p : PortN) (l : LaneN) (f : Lane → Lane) (s : State) : (modLane p l f s).cmp = s.cmp := rfl
@[simp] theorem modLane_coll (p : PortN) (l : LaneN) (f : Lane → Lane) (s : State) : (modLane p l f s).coll = s.coll := rfl
@[simp] theorem modLane_xlat (p : PortN) (l : LaneN) (f : Lane → Lane) (s : State) : (modLane p l f s).xlat = s.xlat := rfl
@[simp] theorem modLane_mem (p : PortN) (l : LaneN) (f : Lane → Lane) (s : State) : (modLane p l f s).mem = s.mem := rfl
@[simp] theorem modLane_dict (p : PortN) (l : LaneN) (f : Lane → Lane) (s : State) : (modLane p l f s).dict = s.dict := rfl
@[simp] theorem modLane_host (p : PortN) (l : LaneN) (f : Lane → Lane) (s : State) : (modLane p l f s).host = s.host := rfl
@[simp] theorem modLane_can (p : PortN) (l : LaneN) (f : Lane → Lane) (s : State) : (modLane p l f s).can = s.can := rfl
@[simp] theorem modLane_sec (p : PortN) (l : LaneN) (f : Lane → Lane) (s : State) : (modLane p l f s).sec = s.sec := rfl
@[simp] theorem modLane_log (p : PortN) (l : LaneN) (f : Lane → Lane) (s : State) : (modLane p l f s).log = s.log := rfl
@[simp] theorem modLane_lantern (p : PortN) (l : LaneN) (f : Lane → Lane) (s : State) : (modLane p l f s).lantern = s.lantern := rfl
@[simp] theorem modLane_muster (p : PortN) (l : LaneN) (f : Lane → Lane) (s : State) : (modLane p l f s).muster = s.muster := rfl
@[simp] theorem modLane_pwr (p : PortN) (l : LaneN) (f : Lane → Lane) (s : State) : (modLane p l f s).pwr = s.pwr := rfl
@[simp] theorem modLane_resets (p : PortN) (l : LaneN) (f : Lane → Lane) (s : State) : (modLane p l f s).resets = s.resets := rfl
@[simp] theorem modLane_sent (p : PortN) (l : LaneN) (f : Lane → Lane) (s : State) : (modLane p l f s).sent = s.sent := rfl
@[simp] theorem modLane_free (p : PortN) (l : LaneN) (f : Lane → Lane) (s : State) : (modLane p l f s).free = s.free := rfl

@[simp] theorem setBuf_pending (store index : Nat) (b : Buf) (s : State) : (setBuf store index b s).pending = s.pending := rfl
@[simp] theorem setBuf_time (store index : Nat) (b : Buf) (s : State) : (setBuf store index b s).time = s.time := rfl
@[simp] theorem setBuf_ports (store index : Nat) (b : Buf) (s : State) : (setBuf store index b s).ports = s.ports := rfl
@[simp] theorem setBuf_routes (store index : Nat) (b : Buf) (s : State) : (setBuf store index b s).routes = s.routes := rfl
@[simp] theorem setBuf_bep (store index : Nat) (b : Buf) (s : State) : (setBuf store index b s).bep = s.bep := rfl
@[simp] theorem setBuf_ep (store index : Nat) (b : Buf) (s : State) : (setBuf store index b s).ep = s.ep := rfl
@[simp] theorem setBuf_grotto (store index : Nat) (b : Buf) (s : State) : (setBuf store index b s).grotto = s.grotto := rfl
@[simp] theorem setBuf_cal (store index : Nat) (b : Buf) (s : State) : (setBuf store index b s).cal = s.cal := rfl
@[simp] theorem setBuf_cmp (store index : Nat) (b : Buf) (s : State) : (setBuf store index b s).cmp = s.cmp := rfl
@[simp] theorem setBuf_coll (store index : Nat) (b : Buf) (s : State) : (setBuf store index b s).coll = s.coll := rfl
@[simp] theorem setBuf_xlat (store index : Nat) (b : Buf) (s : State) : (setBuf store index b s).xlat = s.xlat := rfl
@[simp] theorem setBuf_mem (store index : Nat) (b : Buf) (s : State) : (setBuf store index b s).mem = s.mem := rfl
@[simp] theorem setBuf_dict (store index : Nat) (b : Buf) (s : State) : (setBuf store index b s).dict = s.dict := rfl
@[simp] theorem setBuf_host (store index : Nat) (b : Buf) (s : State) : (setBuf store index b s).host = s.host := rfl
@[simp] theorem setBuf_can (store index : Nat) (b : Buf) (s : State) : (setBuf store index b s).can = s.can := rfl
@[simp] theorem setBuf_sec (store index : Nat) (b : Buf) (s : State) : (setBuf store index b s).sec = s.sec := rfl
@[simp] theorem setBuf_log (store index : Nat) (b : Buf) (s : State) : (setBuf store index b s).log = s.log := rfl
@[simp] theorem setBuf_lantern (store index : Nat) (b : Buf) (s : State) : (setBuf store index b s).lantern = s.lantern := rfl
@[simp] theorem setBuf_muster (store index : Nat) (b : Buf) (s : State) : (setBuf store index b s).muster = s.muster := rfl
@[simp] theorem setBuf_pwr (store index : Nat) (b : Buf) (s : State) : (setBuf store index b s).pwr = s.pwr := rfl
@[simp] theorem setBuf_resets (store index : Nat) (b : Buf) (s : State) : (setBuf store index b s).resets = s.resets := rfl
@[simp] theorem setBuf_sent (store index : Nat) (b : Buf) (s : State) : (setBuf store index b s).sent = s.sent := rfl
@[simp] theorem setBuf_free (store index : Nat) (b : Buf) (s : State) : (setBuf store index b s).free = s.free := rfl

@[simp] theorem setVoq_pending (k : Nat) (l : List QEntry) (s : State) : (setVoq k l s).pending = s.pending := rfl
@[simp] theorem setVoq_time (k : Nat) (l : List QEntry) (s : State) : (setVoq k l s).time = s.time := rfl
@[simp] theorem setVoq_ports (k : Nat) (l : List QEntry) (s : State) : (setVoq k l s).ports = s.ports := rfl
@[simp] theorem setVoq_routes (k : Nat) (l : List QEntry) (s : State) : (setVoq k l s).routes = s.routes := rfl
@[simp] theorem setVoq_bep (k : Nat) (l : List QEntry) (s : State) : (setVoq k l s).bep = s.bep := rfl
@[simp] theorem setVoq_ep (k : Nat) (l : List QEntry) (s : State) : (setVoq k l s).ep = s.ep := rfl
@[simp] theorem setVoq_grotto (k : Nat) (l : List QEntry) (s : State) : (setVoq k l s).grotto = s.grotto := rfl
@[simp] theorem setVoq_cal (k : Nat) (l : List QEntry) (s : State) : (setVoq k l s).cal = s.cal := rfl
@[simp] theorem setVoq_cmp (k : Nat) (l : List QEntry) (s : State) : (setVoq k l s).cmp = s.cmp := rfl
@[simp] theorem setVoq_coll (k : Nat) (l : List QEntry) (s : State) : (setVoq k l s).coll = s.coll := rfl
@[simp] theorem setVoq_xlat (k : Nat) (l : List QEntry) (s : State) : (setVoq k l s).xlat = s.xlat := rfl
@[simp] theorem setVoq_mem (k : Nat) (l : List QEntry) (s : State) : (setVoq k l s).mem = s.mem := rfl
@[simp] theorem setVoq_dict (k : Nat) (l : List QEntry) (s : State) : (setVoq k l s).dict = s.dict := rfl
@[simp] theorem setVoq_host (k : Nat) (l : List QEntry) (s : State) : (setVoq k l s).host = s.host := rfl
@[simp] theorem setVoq_can (k : Nat) (l : List QEntry) (s : State) : (setVoq k l s).can = s.can := rfl
@[simp] theorem setVoq_sec (k : Nat) (l : List QEntry) (s : State) : (setVoq k l s).sec = s.sec := rfl
@[simp] theorem setVoq_log (k : Nat) (l : List QEntry) (s : State) : (setVoq k l s).log = s.log := rfl
@[simp] theorem setVoq_lantern (k : Nat) (l : List QEntry) (s : State) : (setVoq k l s).lantern = s.lantern := rfl
@[simp] theorem setVoq_muster (k : Nat) (l : List QEntry) (s : State) : (setVoq k l s).muster = s.muster := rfl
@[simp] theorem setVoq_pwr (k : Nat) (l : List QEntry) (s : State) : (setVoq k l s).pwr = s.pwr := rfl
@[simp] theorem setVoq_resets (k : Nat) (l : List QEntry) (s : State) : (setVoq k l s).resets = s.resets := rfl
@[simp] theorem setVoq_sent (k : Nat) (l : List QEntry) (s : State) : (setVoq k l s).sent = s.sent := rfl
@[simp] theorem setVoq_free (k : Nat) (l : List QEntry) (s : State) : (setVoq k l s).free = s.free := rfl

@[simp] theorem setTally_pending (src : Nat) (t : Tally) (s : State) : (setTally src t s).pending = s.pending := rfl
@[simp] theorem setTally_time (src : Nat) (t : Tally) (s : State) : (setTally src t s).time = s.time := rfl
@[simp] theorem setTally_ports (src : Nat) (t : Tally) (s : State) : (setTally src t s).ports = s.ports := rfl
@[simp] theorem setTally_sw (src : Nat) (t : Tally) (s : State) : (setTally src t s).sw = s.sw := rfl
@[simp] theorem setTally_routes (src : Nat) (t : Tally) (s : State) : (setTally src t s).routes = s.routes := rfl
@[simp] theorem setTally_ep (src : Nat) (t : Tally) (s : State) : (setTally src t s).ep = s.ep := rfl
@[simp] theorem setTally_grotto (src : Nat) (t : Tally) (s : State) : (setTally src t s).grotto = s.grotto := rfl
@[simp] theorem setTally_cal (src : Nat) (t : Tally) (s : State) : (setTally src t s).cal = s.cal := rfl
@[simp] theorem setTally_cmp (src : Nat) (t : Tally) (s : State) : (setTally src t s).cmp = s.cmp := rfl
@[simp] theorem setTally_coll (src : Nat) (t : Tally) (s : State) : (setTally src t s).coll = s.coll := rfl
@[simp] theorem setTally_xlat (src : Nat) (t : Tally) (s : State) : (setTally src t s).xlat = s.xlat := rfl
@[simp] theorem setTally_mem (src : Nat) (t : Tally) (s : State) : (setTally src t s).mem = s.mem := rfl
@[simp] theorem setTally_dict (src : Nat) (t : Tally) (s : State) : (setTally src t s).dict = s.dict := rfl
@[simp] theorem setTally_host (src : Nat) (t : Tally) (s : State) : (setTally src t s).host = s.host := rfl
@[simp] theorem setTally_can (src : Nat) (t : Tally) (s : State) : (setTally src t s).can = s.can := rfl
@[simp] theorem setTally_sec (src : Nat) (t : Tally) (s : State) : (setTally src t s).sec = s.sec := rfl
@[simp] theorem setTally_log (src : Nat) (t : Tally) (s : State) : (setTally src t s).log = s.log := rfl
@[simp] theorem setTally_lantern (src : Nat) (t : Tally) (s : State) : (setTally src t s).lantern = s.lantern := rfl
@[simp] theorem setTally_muster (src : Nat) (t : Tally) (s : State) : (setTally src t s).muster = s.muster := rfl
@[simp] theorem setTally_pwr (src : Nat) (t : Tally) (s : State) : (setTally src t s).pwr = s.pwr := rfl
@[simp] theorem setTally_resets (src : Nat) (t : Tally) (s : State) : (setTally src t s).resets = s.resets := rfl
@[simp] theorem setTally_sent (src : Nat) (t : Tally) (s : State) : (setTally src t s).sent = s.sent := rfl
@[simp] theorem setTally_free (src : Nat) (t : Tally) (s : State) : (setTally src t s).free = s.free := rfl

@[simp] theorem modChan_pending (k : Nat) (f : Chan → Chan) (s : State) : (modChan k f s).pending = s.pending := rfl
@[simp] theorem modChan_time (k : Nat) (f : Chan → Chan) (s : State) : (modChan k f s).time = s.time := rfl
@[simp] theorem modChan_ports (k : Nat) (f : Chan → Chan) (s : State) : (modChan k f s).ports = s.ports := rfl
@[simp] theorem modChan_sw (k : Nat) (f : Chan → Chan) (s : State) : (modChan k f s).sw = s.sw := rfl
@[simp] theorem modChan_routes (k : Nat) (f : Chan → Chan) (s : State) : (modChan k f s).routes = s.routes := rfl
@[simp] theorem modChan_bep (k : Nat) (f : Chan → Chan) (s : State) : (modChan k f s).bep = s.bep := rfl
@[simp] theorem modChan_ep (k : Nat) (f : Chan → Chan) (s : State) : (modChan k f s).ep = s.ep := rfl
@[simp] theorem modChan_grotto (k : Nat) (f : Chan → Chan) (s : State) : (modChan k f s).grotto = s.grotto := rfl
@[simp] theorem modChan_cal (k : Nat) (f : Chan → Chan) (s : State) : (modChan k f s).cal = s.cal := rfl
@[simp] theorem modChan_cmp (k : Nat) (f : Chan → Chan) (s : State) : (modChan k f s).cmp = s.cmp := rfl
@[simp] theorem modChan_coll (k : Nat) (f : Chan → Chan) (s : State) : (modChan k f s).coll = s.coll := rfl
@[simp] theorem modChan_xlat (k : Nat) (f : Chan → Chan) (s : State) : (modChan k f s).xlat = s.xlat := rfl
@[simp] theorem modChan_dict (k : Nat) (f : Chan → Chan) (s : State) : (modChan k f s).dict = s.dict := rfl
@[simp] theorem modChan_host (k : Nat) (f : Chan → Chan) (s : State) : (modChan k f s).host = s.host := rfl
@[simp] theorem modChan_can (k : Nat) (f : Chan → Chan) (s : State) : (modChan k f s).can = s.can := rfl
@[simp] theorem modChan_sec (k : Nat) (f : Chan → Chan) (s : State) : (modChan k f s).sec = s.sec := rfl
@[simp] theorem modChan_log (k : Nat) (f : Chan → Chan) (s : State) : (modChan k f s).log = s.log := rfl
@[simp] theorem modChan_lantern (k : Nat) (f : Chan → Chan) (s : State) : (modChan k f s).lantern = s.lantern := rfl
@[simp] theorem modChan_muster (k : Nat) (f : Chan → Chan) (s : State) : (modChan k f s).muster = s.muster := rfl
@[simp] theorem modChan_pwr (k : Nat) (f : Chan → Chan) (s : State) : (modChan k f s).pwr = s.pwr := rfl
@[simp] theorem modChan_resets (k : Nat) (f : Chan → Chan) (s : State) : (modChan k f s).resets = s.resets := rfl
@[simp] theorem modChan_sent (k : Nat) (f : Chan → Chan) (s : State) : (modChan k f s).sent = s.sent := rfl
@[simp] theorem modChan_free (k : Nat) (f : Chan → Chan) (s : State) : (modChan k f s).free = s.free := rfl

@[simp] theorem modMuster_pending (f : Muster → Muster) (s : State) : (modMuster f s).pending = s.pending := rfl
@[simp] theorem modMuster_time (f : Muster → Muster) (s : State) : (modMuster f s).time = s.time := rfl
@[simp] theorem modMuster_ports (f : Muster → Muster) (s : State) : (modMuster f s).ports = s.ports := rfl
@[simp] theorem modMuster_sw (f : Muster → Muster) (s : State) : (modMuster f s).sw = s.sw := rfl
@[simp] theorem modMuster_routes (f : Muster → Muster) (s : State) : (modMuster f s).routes = s.routes := rfl
@[simp] theorem modMuster_bep (f : Muster → Muster) (s : State) : (modMuster f s).bep = s.bep := rfl
@[simp] theorem modMuster_ep (f : Muster → Muster) (s : State) : (modMuster f s).ep = s.ep := rfl
@[simp] theorem modMuster_grotto (f : Muster → Muster) (s : State) : (modMuster f s).grotto = s.grotto := rfl
@[simp] theorem modMuster_cal (f : Muster → Muster) (s : State) : (modMuster f s).cal = s.cal := rfl
@[simp] theorem modMuster_cmp (f : Muster → Muster) (s : State) : (modMuster f s).cmp = s.cmp := rfl
@[simp] theorem modMuster_coll (f : Muster → Muster) (s : State) : (modMuster f s).coll = s.coll := rfl
@[simp] theorem modMuster_xlat (f : Muster → Muster) (s : State) : (modMuster f s).xlat = s.xlat := rfl
@[simp] theorem modMuster_mem (f : Muster → Muster) (s : State) : (modMuster f s).mem = s.mem := rfl
@[simp] theorem modMuster_dict (f : Muster → Muster) (s : State) : (modMuster f s).dict = s.dict := rfl
@[simp] theorem modMuster_host (f : Muster → Muster) (s : State) : (modMuster f s).host = s.host := rfl
@[simp] theorem modMuster_can (f : Muster → Muster) (s : State) : (modMuster f s).can = s.can := rfl
@[simp] theorem modMuster_sec (f : Muster → Muster) (s : State) : (modMuster f s).sec = s.sec := rfl
@[simp] theorem modMuster_log (f : Muster → Muster) (s : State) : (modMuster f s).log = s.log := rfl
@[simp] theorem modMuster_lantern (f : Muster → Muster) (s : State) : (modMuster f s).lantern = s.lantern := rfl
@[simp] theorem modMuster_pwr (f : Muster → Muster) (s : State) : (modMuster f s).pwr = s.pwr := rfl
@[simp] theorem modMuster_resets (f : Muster → Muster) (s : State) : (modMuster f s).resets = s.resets := rfl
@[simp] theorem modMuster_sent (f : Muster → Muster) (s : State) : (modMuster f s).sent = s.sent := rfl
@[simp] theorem modMuster_free (f : Muster → Muster) (s : State) : (modMuster f s).free = s.free := rfl
@[simp] theorem modMuster_muster (f : Muster → Muster) (s : State) : (modMuster f s).muster = f s.muster := rfl

@[simp] theorem modPwr_pending (f : Power → Power) (s : State) : (modPwr f s).pending = s.pending := rfl
@[simp] theorem modPwr_time (f : Power → Power) (s : State) : (modPwr f s).time = s.time := rfl
@[simp] theorem modPwr_ports (f : Power → Power) (s : State) : (modPwr f s).ports = s.ports := rfl
@[simp] theorem modPwr_sw (f : Power → Power) (s : State) : (modPwr f s).sw = s.sw := rfl
@[simp] theorem modPwr_routes (f : Power → Power) (s : State) : (modPwr f s).routes = s.routes := rfl
@[simp] theorem modPwr_bep (f : Power → Power) (s : State) : (modPwr f s).bep = s.bep := rfl
@[simp] theorem modPwr_ep (f : Power → Power) (s : State) : (modPwr f s).ep = s.ep := rfl
@[simp] theorem modPwr_grotto (f : Power → Power) (s : State) : (modPwr f s).grotto = s.grotto := rfl
@[simp] theorem modPwr_cal (f : Power → Power) (s : State) : (modPwr f s).cal = s.cal := rfl
@[simp] theorem modPwr_cmp (f : Power → Power) (s : State) : (modPwr f s).cmp = s.cmp := rfl
@[simp] theorem modPwr_coll (f : Power → Power) (s : State) : (modPwr f s).coll = s.coll := rfl
@[simp] theorem modPwr_xlat (f : Power → Power) (s : State) : (modPwr f s).xlat = s.xlat := rfl
@[simp] theorem modPwr_mem (f : Power → Power) (s : State) : (modPwr f s).mem = s.mem := rfl
@[simp] theorem modPwr_dict (f : Power → Power) (s : State) : (modPwr f s).dict = s.dict := rfl
@[simp] theorem modPwr_host (f : Power → Power) (s : State) : (modPwr f s).host = s.host := rfl
@[simp] theorem modPwr_can (f : Power → Power) (s : State) : (modPwr f s).can = s.can := rfl
@[simp] theorem modPwr_sec (f : Power → Power) (s : State) : (modPwr f s).sec = s.sec := rfl
@[simp] theorem modPwr_log (f : Power → Power) (s : State) : (modPwr f s).log = s.log := rfl
@[simp] theorem modPwr_lantern (f : Power → Power) (s : State) : (modPwr f s).lantern = s.lantern := rfl
@[simp] theorem modPwr_muster (f : Power → Power) (s : State) : (modPwr f s).muster = s.muster := rfl
@[simp] theorem modPwr_resets (f : Power → Power) (s : State) : (modPwr f s).resets = s.resets := rfl
@[simp] theorem modPwr_sent (f : Power → Power) (s : State) : (modPwr f s).sent = s.sent := rfl
@[simp] theorem modPwr_free (f : Power → Power) (s : State) : (modPwr f s).free = s.free := rfl
@[simp] theorem modPwr_pwr (f : Power → Power) (s : State) : (modPwr f s).pwr = f s.pwr := rfl

@[simp] theorem modResets_pending (f : Resets → Resets) (s : State) : (modResets f s).pending = s.pending := rfl
@[simp] theorem modResets_time (f : Resets → Resets) (s : State) : (modResets f s).time = s.time := rfl
@[simp] theorem modResets_ports (f : Resets → Resets) (s : State) : (modResets f s).ports = s.ports := rfl
@[simp] theorem modResets_sw (f : Resets → Resets) (s : State) : (modResets f s).sw = s.sw := rfl
@[simp] theorem modResets_routes (f : Resets → Resets) (s : State) : (modResets f s).routes = s.routes := rfl
@[simp] theorem modResets_bep (f : Resets → Resets) (s : State) : (modResets f s).bep = s.bep := rfl
@[simp] theorem modResets_ep (f : Resets → Resets) (s : State) : (modResets f s).ep = s.ep := rfl
@[simp] theorem modResets_grotto (f : Resets → Resets) (s : State) : (modResets f s).grotto = s.grotto := rfl
@[simp] theorem modResets_cal (f : Resets → Resets) (s : State) : (modResets f s).cal = s.cal := rfl
@[simp] theorem modResets_cmp (f : Resets → Resets) (s : State) : (modResets f s).cmp = s.cmp := rfl
@[simp] theorem modResets_coll (f : Resets → Resets) (s : State) : (modResets f s).coll = s.coll := rfl
@[simp] theorem modResets_xlat (f : Resets → Resets) (s : State) : (modResets f s).xlat = s.xlat := rfl
@[simp] theorem modResets_mem (f : Resets → Resets) (s : State) : (modResets f s).mem = s.mem := rfl
@[simp] theorem modResets_dict (f : Resets → Resets) (s : State) : (modResets f s).dict = s.dict := rfl
@[simp] theorem modResets_host (f : Resets → Resets) (s : State) : (modResets f s).host = s.host := rfl
@[simp] theorem modResets_can (f : Resets → Resets) (s : State) : (modResets f s).can = s.can := rfl
@[simp] theorem modResets_sec (f : Resets → Resets) (s : State) : (modResets f s).sec = s.sec := rfl
@[simp] theorem modResets_log (f : Resets → Resets) (s : State) : (modResets f s).log = s.log := rfl
@[simp] theorem modResets_lantern (f : Resets → Resets) (s : State) : (modResets f s).lantern = s.lantern := rfl
@[simp] theorem modResets_muster (f : Resets → Resets) (s : State) : (modResets f s).muster = s.muster := rfl
@[simp] theorem modResets_pwr (f : Resets → Resets) (s : State) : (modResets f s).pwr = s.pwr := rfl
@[simp] theorem modResets_sent (f : Resets → Resets) (s : State) : (modResets f s).sent = s.sent := rfl
@[simp] theorem modResets_free (f : Resets → Resets) (s : State) : (modResets f s).free = s.free := rfl
@[simp] theorem modResets_resets (f : Resets → Resets) (s : State) : (modResets f s).resets = f s.resets := rfl

@[simp] theorem modSec_pending (f : Sec → Sec) (s : State) : (modSec f s).pending = s.pending := rfl
@[simp] theorem modSec_time (f : Sec → Sec) (s : State) : (modSec f s).time = s.time := rfl
@[simp] theorem modSec_ports (f : Sec → Sec) (s : State) : (modSec f s).ports = s.ports := rfl
@[simp] theorem modSec_sw (f : Sec → Sec) (s : State) : (modSec f s).sw = s.sw := rfl
@[simp] theorem modSec_routes (f : Sec → Sec) (s : State) : (modSec f s).routes = s.routes := rfl
@[simp] theorem modSec_bep (f : Sec → Sec) (s : State) : (modSec f s).bep = s.bep := rfl
@[simp] theorem modSec_ep (f : Sec → Sec) (s : State) : (modSec f s).ep = s.ep := rfl
@[simp] theorem modSec_grotto (f : Sec → Sec) (s : State) : (modSec f s).grotto = s.grotto := rfl
@[simp] theorem modSec_cal (f : Sec → Sec) (s : State) : (modSec f s).cal = s.cal := rfl
@[simp] theorem modSec_cmp (f : Sec → Sec) (s : State) : (modSec f s).cmp = s.cmp := rfl
@[simp] theorem modSec_coll (f : Sec → Sec) (s : State) : (modSec f s).coll = s.coll := rfl
@[simp] theorem modSec_xlat (f : Sec → Sec) (s : State) : (modSec f s).xlat = s.xlat := rfl
@[simp] theorem modSec_mem (f : Sec → Sec) (s : State) : (modSec f s).mem = s.mem := rfl
@[simp] theorem modSec_dict (f : Sec → Sec) (s : State) : (modSec f s).dict = s.dict := rfl
@[simp] theorem modSec_host (f : Sec → Sec) (s : State) : (modSec f s).host = s.host := rfl
@[simp] theorem modSec_can (f : Sec → Sec) (s : State) : (modSec f s).can = s.can := rfl
@[simp] theorem modSec_log (f : Sec → Sec) (s : State) : (modSec f s).log = s.log := rfl
@[simp] theorem modSec_lantern (f : Sec → Sec) (s : State) : (modSec f s).lantern = s.lantern := rfl
@[simp] theorem modSec_muster (f : Sec → Sec) (s : State) : (modSec f s).muster = s.muster := rfl
@[simp] theorem modSec_pwr (f : Sec → Sec) (s : State) : (modSec f s).pwr = s.pwr := rfl
@[simp] theorem modSec_resets (f : Sec → Sec) (s : State) : (modSec f s).resets = s.resets := rfl
@[simp] theorem modSec_sent (f : Sec → Sec) (s : State) : (modSec f s).sent = s.sent := rfl
@[simp] theorem modSec_free (f : Sec → Sec) (s : State) : (modSec f s).free = s.free := rfl
@[simp] theorem modSec_sec (f : Sec → Sec) (s : State) : (modSec f s).sec = f s.sec := rfl

@[simp] theorem modXlat_pending (f : Xlat → Xlat) (s : State) : (modXlat f s).pending = s.pending := rfl
@[simp] theorem modXlat_time (f : Xlat → Xlat) (s : State) : (modXlat f s).time = s.time := rfl
@[simp] theorem modXlat_ports (f : Xlat → Xlat) (s : State) : (modXlat f s).ports = s.ports := rfl
@[simp] theorem modXlat_sw (f : Xlat → Xlat) (s : State) : (modXlat f s).sw = s.sw := rfl
@[simp] theorem modXlat_routes (f : Xlat → Xlat) (s : State) : (modXlat f s).routes = s.routes := rfl
@[simp] theorem modXlat_bep (f : Xlat → Xlat) (s : State) : (modXlat f s).bep = s.bep := rfl
@[simp] theorem modXlat_ep (f : Xlat → Xlat) (s : State) : (modXlat f s).ep = s.ep := rfl
@[simp] theorem modXlat_grotto (f : Xlat → Xlat) (s : State) : (modXlat f s).grotto = s.grotto := rfl
@[simp] theorem modXlat_cal (f : Xlat → Xlat) (s : State) : (modXlat f s).cal = s.cal := rfl
@[simp] theorem modXlat_cmp (f : Xlat → Xlat) (s : State) : (modXlat f s).cmp = s.cmp := rfl
@[simp] theorem modXlat_coll (f : Xlat → Xlat) (s : State) : (modXlat f s).coll = s.coll := rfl
@[simp] theorem modXlat_mem (f : Xlat → Xlat) (s : State) : (modXlat f s).mem = s.mem := rfl
@[simp] theorem modXlat_dict (f : Xlat → Xlat) (s : State) : (modXlat f s).dict = s.dict := rfl
@[simp] theorem modXlat_host (f : Xlat → Xlat) (s : State) : (modXlat f s).host = s.host := rfl
@[simp] theorem modXlat_can (f : Xlat → Xlat) (s : State) : (modXlat f s).can = s.can := rfl
@[simp] theorem modXlat_sec (f : Xlat → Xlat) (s : State) : (modXlat f s).sec = s.sec := rfl
@[simp] theorem modXlat_log (f : Xlat → Xlat) (s : State) : (modXlat f s).log = s.log := rfl
@[simp] theorem modXlat_lantern (f : Xlat → Xlat) (s : State) : (modXlat f s).lantern = s.lantern := rfl
@[simp] theorem modXlat_muster (f : Xlat → Xlat) (s : State) : (modXlat f s).muster = s.muster := rfl
@[simp] theorem modXlat_pwr (f : Xlat → Xlat) (s : State) : (modXlat f s).pwr = s.pwr := rfl
@[simp] theorem modXlat_resets (f : Xlat → Xlat) (s : State) : (modXlat f s).resets = s.resets := rfl
@[simp] theorem modXlat_sent (f : Xlat → Xlat) (s : State) : (modXlat f s).sent = s.sent := rfl
@[simp] theorem modXlat_free (f : Xlat → Xlat) (s : State) : (modXlat f s).free = s.free := rfl
@[simp] theorem modXlat_xlat (f : Xlat → Xlat) (s : State) : (modXlat f s).xlat = f s.xlat := rfl

@[simp] theorem modChan_mem_cells (k : Nat) (f : Chan → Chan) (s : State) : (modChan k f s).mem.cells = s.mem.cells := rfl
@[simp] theorem modChan_mem_poison (k : Nat) (f : Chan → Chan) (s : State) : (modChan k f s).mem.poison = s.mem.poison := rfl
@[simp] theorem modChan_mem_state (k : Nat) (f : Chan → Chan) (s : State) : (modChan k f s).mem.state = s.mem.state := rfl
@[simp] theorem modChan_mem_density (k : Nat) (f : Chan → Chan) (s : State) : (modChan k f s).mem.density = s.mem.density := rfl
@[simp] theorem modChan_mem_coloured (k : Nat) (f : Chan → Chan) (s : State) : (modChan k f s).mem.coloured = s.mem.coloured := rfl
@[simp] theorem odSet_dict_blobs (index sub v : Nat) (s : State) : (odSet index sub v s).dict.blobs = s.dict.blobs := rfl
@[simp] theorem odSet_dict_clamps (index sub v : Nat) (s : State) : (odSet index sub v s).dict.clamps = s.dict.clamps := rfl
@[simp] theorem odSet_dict_clampSeq (index sub v : Nat) (s : State) : (odSet index sub v s).dict.clampSeq = s.dict.clampSeq := rfl
@[simp] theorem odSet_dict_snap (index sub v : Nat) (s : State) : (odSet index sub v s).dict.snap = s.dict.snap := rfl
@[simp] theorem odSet_dict_imageA (index sub v : Nat) (s : State) : (odSet index sub v s).dict.imageA = s.dict.imageA := rfl
@[simp] theorem odSet_dict_imageB (index sub v : Nat) (s : State) : (odSet index sub v s).dict.imageB = s.dict.imageB := rfl
@[simp] theorem odSet_dict_lastResult (index sub v : Nat) (s : State) : (odSet index sub v s).dict.lastResult = s.dict.lastResult := rfl
@[simp] theorem odSet_dict_restoredFrom (index sub v : Nat) (s : State) : (odSet index sub v s).dict.restoredFrom = s.dict.restoredFrom := rfl
@[simp] theorem odSet_dict_storeBusy (index sub v : Nat) (s : State) : (odSet index sub v s).dict.storeBusy = s.dict.storeBusy := rfl
@[simp] theorem odSet_dict_restoreBusy (index sub v : Nat) (s : State) : (odSet index sub v s).dict.restoreBusy = s.dict.restoreBusy := rfl
@[simp] theorem odSet_dict_status (index sub v : Nat) (s : State) : (odSet index sub v s).dict.status = s.dict.status := rfl
@[simp] theorem odSet_dict_abort (index sub v : Nat) (s : State) : (odSet index sub v s).dict.abort = s.dict.abort := rfl
@[simp] theorem odSet_dict_clampCount (index sub v : Nat) (s : State) : (odSet index sub v s).dict.clampCount = s.dict.clampCount := rfl
@[simp] theorem bump_dict_blobs (index sub : Nat) (s : State) : (bump index sub s).dict.blobs = s.dict.blobs := rfl
@[simp] theorem bump_dict_clamps (index sub : Nat) (s : State) : (bump index sub s).dict.clamps = s.dict.clamps := rfl
@[simp] theorem bump_dict_clampSeq (index sub : Nat) (s : State) : (bump index sub s).dict.clampSeq = s.dict.clampSeq := rfl
@[simp] theorem bump_dict_snap (index sub : Nat) (s : State) : (bump index sub s).dict.snap = s.dict.snap := rfl
@[simp] theorem bump_dict_imageA (index sub : Nat) (s : State) : (bump index sub s).dict.imageA = s.dict.imageA := rfl
@[simp] theorem bump_dict_imageB (index sub : Nat) (s : State) : (bump index sub s).dict.imageB = s.dict.imageB := rfl
@[simp] theorem bump_dict_lastResult (index sub : Nat) (s : State) : (bump index sub s).dict.lastResult = s.dict.lastResult := rfl
@[simp] theorem bump_dict_restoredFrom (index sub : Nat) (s : State) : (bump index sub s).dict.restoredFrom = s.dict.restoredFrom := rfl
@[simp] theorem bump_dict_storeBusy (index sub : Nat) (s : State) : (bump index sub s).dict.storeBusy = s.dict.storeBusy := rfl
@[simp] theorem bump_dict_restoreBusy (index sub : Nat) (s : State) : (bump index sub s).dict.restoreBusy = s.dict.restoreBusy := rfl
@[simp] theorem bump_dict_status (index sub : Nat) (s : State) : (bump index sub s).dict.status = s.dict.status := rfl
@[simp] theorem bump_dict_abort (index sub : Nat) (s : State) : (bump index sub s).dict.abort = s.dict.abort := rfl
@[simp] theorem bump_dict_clampCount (index sub : Nat) (s : State) : (bump index sub s).dict.clampCount = s.dict.clampCount := rfl
@[simp] theorem beginOp_dict_od (s : State) : (beginOp s).dict.od = s.dict.od := rfl
@[simp] theorem beginOp_dict_blobs (s : State) : (beginOp s).dict.blobs = s.dict.blobs := rfl
@[simp] theorem beginOp_dict_clamps (s : State) : (beginOp s).dict.clamps = s.dict.clamps := rfl
@[simp] theorem beginOp_dict_clampSeq (s : State) : (beginOp s).dict.clampSeq = s.dict.clampSeq := rfl
@[simp] theorem beginOp_dict_snap (s : State) : (beginOp s).dict.snap = s.dict.snap := rfl
@[simp] theorem beginOp_dict_imageA (s : State) : (beginOp s).dict.imageA = s.dict.imageA := rfl
@[simp] theorem beginOp_dict_imageB (s : State) : (beginOp s).dict.imageB = s.dict.imageB := rfl
@[simp] theorem beginOp_dict_lastResult (s : State) : (beginOp s).dict.lastResult = s.dict.lastResult := rfl
@[simp] theorem beginOp_dict_restoredFrom (s : State) : (beginOp s).dict.restoredFrom = s.dict.restoredFrom := rfl
@[simp] theorem beginOp_dict_storeBusy (s : State) : (beginOp s).dict.storeBusy = s.dict.storeBusy := rfl
@[simp] theorem beginOp_dict_restoreBusy (s : State) : (beginOp s).dict.restoreBusy = s.dict.restoreBusy := rfl
@[simp] theorem endOp_dict_od (status abort : Nat) (s : State) : (endOp status abort s).dict.od = s.dict.od := rfl
@[simp] theorem endOp_dict_blobs (status abort : Nat) (s : State) : (endOp status abort s).dict.blobs = s.dict.blobs := rfl
@[simp] theorem endOp_dict_clamps (status abort : Nat) (s : State) : (endOp status abort s).dict.clamps = s.dict.clamps := rfl
@[simp] theorem endOp_dict_clampSeq (status abort : Nat) (s : State) : (endOp status abort s).dict.clampSeq = s.dict.clampSeq := rfl
@[simp] theorem endOp_dict_snap (status abort : Nat) (s : State) : (endOp status abort s).dict.snap = s.dict.snap := rfl
@[simp] theorem endOp_dict_imageA (status abort : Nat) (s : State) : (endOp status abort s).dict.imageA = s.dict.imageA := rfl
@[simp] theorem endOp_dict_imageB (status abort : Nat) (s : State) : (endOp status abort s).dict.imageB = s.dict.imageB := rfl
@[simp] theorem endOp_dict_lastResult (status abort : Nat) (s : State) : (endOp status abort s).dict.lastResult = s.dict.lastResult := rfl
@[simp] theorem endOp_dict_restoredFrom (status abort : Nat) (s : State) : (endOp status abort s).dict.restoredFrom = s.dict.restoredFrom := rfl
@[simp] theorem endOp_dict_storeBusy (status abort : Nat) (s : State) : (endOp status abort s).dict.storeBusy = s.dict.storeBusy := rfl
@[simp] theorem endOp_dict_restoreBusy (status abort : Nat) (s : State) : (endOp status abort s).dict.restoreBusy = s.dict.restoreBusy := rfl
@[simp] theorem beginOp_dict_status (s : State) : (beginOp s).dict.status = 0 := rfl
@[simp] theorem beginOp_dict_abort (s : State) : (beginOp s).dict.abort = 0 := rfl
@[simp] theorem beginOp_dict_clampCount (s : State) : (beginOp s).dict.clampCount = 0 := rfl
@[simp] theorem endOp_dict_status (status abort : Nat) (s : State) : (endOp status abort s).dict.status = status := rfl
@[simp] theorem endOp_dict_abort (status abort : Nat) (s : State) : (endOp status abort s).dict.abort = abort := rfl
@[simp] theorem endOp_dict_clampCount (status abort : Nat) (s : State) : (endOp status abort s).dict.clampCount = 0 := rfl

end Sys2Proof.Machine
end

