-- ==== Sys2Proof/Laws/Map.lean ====
section
/-! SUPPORT. Read after write for the sparse tables, the dictionary store and little-endian fields. -/

namespace Sys2Proof.Machine

open Sys2Proof

/-- A key just listed reads as its value. -/
@[simp] theorem mapGet_mapSet_same {α : Type} (m : NMap α) (k : Nat) (v : α) : mapGet (mapSet m k v) k = some v := by
  induction m with
  | nil => simp [mapSet, mapGet]
  | cons e r ih =>
    obtain ⟨j, w⟩ := e
    unfold mapSet
    split
    · simp [mapGet]
    · split
      · simp [mapGet]
      · rename_i h _
        simp [mapGet, Ne.symm h, ih]

/-- Listing one key leaves the others. -/
theorem mapGet_mapSet_ne {α : Type} (m : NMap α) (k j : Nat) (v : α) (h : j ≠ k) : mapGet (mapSet m k v) j = mapGet m j := by
  induction m with
  | nil => simp [mapSet, mapGet, Ne.symm h]
  | cons e r ih =>
    obtain ⟨i, w⟩ := e
    unfold mapSet
    split
    · rename_i hk
      subst hk
      simp [mapGet, Ne.symm h]
    · split
      · simp [mapGet, Ne.symm h]
      · simp [mapGet, ih]

@[simp] theorem mapGetD_mapSet_same {α : Type} (m : NMap α) (k : Nat) (v d : α) : mapGetD (mapSet m k v) k d = v := by
  simp [mapGetD]

theorem mapGetD_mapSet_ne {α : Type} (m : NMap α) (k j : Nat) (v d : α) (h : j ≠ k) :
    mapGetD (mapSet m k v) j d = mapGetD m j d := by
  simp [mapGetD, mapGet_mapSet_ne m k j v h]

/-- A key just unlisted is not listed. -/
@[simp] theorem mapGet_mapErase_same {α : Type} (m : NMap α) (k : Nat) : mapGet (mapErase m k) k = none := by
  induction m with
  | nil => rfl
  | cons e r ih =>
    obtain ⟨j, w⟩ := e
    by_cases h : j = k
    · subst h
      simpa [mapErase] using ih
    · have : mapErase ((j, w) :: r) k = (j, w) :: mapErase r k := by simp [mapErase, h]
      rw [this]
      simp [mapGet, h, ih]

/-- The key of an entry names it alone. -/
theorem odKey_inj {i j a b : Nat} (ha : a < 256) (hb : b < 256) : odKey i a = odKey j b ↔ i = j ∧ a = b := by
  unfold odKey
  omega

/-- An entry just written reads as its value. -/
@[simp] theorem odGet_odSet_same (index sub v : Nat) (s : State) : odGet (odSet index sub v s) index sub = v := by
  simp [odGet, odSet]

/-- Writing one entry leaves the others. -/
theorem odGet_odSet_ne (index sub v i j : Nat) (s : State) (h : odKey i j ≠ odKey index sub) :
    odGet (odSet index sub v s) i j = odGet s i j := by
  simp [odGet, odSet, mapGet_mapSet_ne _ _ _ _ h]

/-- A counter just bumped. -/
@[simp] theorem odGet_bump_same (index sub : Nat) (s : State) :
    odGet (bump index sub s) index sub = min (2 ^ 64 - 1) (odGet s index sub + 1) := by
  simp [bump, bumpBy]

theorem odGet_bump_ne (index sub i j : Nat) (s : State) (h : odKey i j ≠ odKey index sub) :
    odGet (bump index sub s) i j = odGet s i j := by
  simp [bump, bumpBy, odGet_odSet_ne _ _ _ _ _ _ h]

/-- Entries are read from the dictionary alone. -/
theorem odGet_congr {s t : State} (h : t.dict.od = s.dict.od) (index sub : Nat) : odGet t index sub = odGet s index sub := by
  simp [odGet, h]

@[simp] theorem odGet_beginOp (s : State) (index sub : Nat) : odGet (beginOp s) index sub = odGet s index sub := rfl

@[simp] theorem odGet_endOp (status abort : Nat) (s : State) (index sub : Nat) :
    odGet (endOp status abort s) index sub = odGet s index sub := rfl

@[simp] theorem odGet_emit (o : Out) (s : State) (index sub : Nat) : odGet (emit o s) index sub = odGet s index sub := rfl

/-- The port just changed, and the others. -/
@[simp] theorem port_modPort_same (p : PortN) (f : Port → Port) (s : State) : (modPort p f s).port p = f (s.port p) := by
  simp [State.port, modPort]

theorem port_modPort_ne (p q : PortN) (f : Port → Port) (s : State) (h : q ≠ p) : (modPort p f s).port q = s.port q := by
  have hv : p.val ≠ q.val := fun e => h (Fin.ext e.symm)
  simp only [State.port, modPort]
  exact Vector.getElem_set_ne _ _ hv

/-- A field of `n` bytes holds the number it was made of. -/
theorem leNat_natLe (n v : Nat) : leNat (natLe n v) = v % 2 ^ (8 * n) := by
  induction n generalizing v with
  | zero => simp [natLe, leNat, Nat.mod_one]
  | succ n ih =>
    simp only [natLe, leNat, ih, BitVec.toNat_ofNat]
    have h : (2 : Nat) ^ (8 * (n + 1)) = 256 * 2 ^ (8 * n) := by
      rw [show 8 * (n + 1) = 8 + 8 * n by omega, Nat.pow_add]
    rw [h, Nat.mod_mul]

@[simp] theorem natLe_length (n v : Nat) : (natLe n v).length = n := by
  induction n generalizing v with
  | zero => rfl
  | succ n ih => simp [natLe, ih]

end Sys2Proof.Machine
end

