-- ==== Sys2Proof/Laws/Memory.lean ====
section
/-! SUPPORT. The attached memory: a read after a write, and the canonical form that every operation keeps. -/

namespace Sys2Proof.Machine

open Sys2Proof

/-- Every address of a list lies above `k`. -/
def above (k : Nat) (l : List Host.Cell) : Prop := ∀ c ∈ l, k < c.1

/-- The canonical form as a statement about the list. -/
theorem wf_cons (a : Nat) (b : Byte) (r : List Host.Cell) :
    Memory.wf ((a, b) :: r) = true ↔ b ≠ 0 ∧ above a r ∧ Memory.wf r = true := by
  induction r generalizing a b with
  | nil => simp [Memory.wf, above]
  | cons e r ih =>
    obtain ⟨c, d⟩ := e
    constructor
    · intro h
      simp only [Memory.wf, Bool.and_eq_true, bne_iff_ne, decide_eq_true_eq] at h
      obtain ⟨⟨hb, hac⟩, hr⟩ := h
      have hr' : Memory.wf ((c, d) :: r) = true := by
        simp only [Memory.wf, Bool.and_eq_true, bne_iff_ne]
        exact hr
      refine ⟨hb, ?_, hr'⟩
      have hc := (ih c d).1 hr'
      intro x hx
      rcases List.mem_cons.1 hx with h1 | h1
      · subst h1; exact hac
      · exact Nat.lt_trans hac (hc.2.1 x h1)
    · rintro ⟨hb, hab, hr⟩
      have hac : a < c := hab (c, d) (by simp)
      simp only [Memory.wf, Bool.and_eq_true, bne_iff_ne, decide_eq_true_eq] at hr ⊢
      exact ⟨⟨hb, hac⟩, hr⟩

/-- Above every address nothing is listed. -/
theorem cellGet_above {k : Nat} {l : List Host.Cell} (h : above k l) (j : Nat) (hj : j ≤ k) : cellGet l j = 0 := by
  induction l with
  | nil => rfl
  | cons e r ih =>
    obtain ⟨a, b⟩ := e
    have ha : k < a := h (a, b) (by simp)
    have hne : a ≠ j := by omega
    simp only [cellGet, if_neg hne]
    exact ih (fun c hc => h c (by simp [hc]))

/-- The addresses after a write are the old ones and the written one. -/
theorem mem_cellPut {l : List Host.Cell} {k : Nat} {b : Byte} {c : Host.Cell} (h : c ∈ cellPut l k b) : c ∈ l ∨ c = (k, b) := by
  induction l with
  | nil =>
    unfold cellPut at h
    split at h <;> simp_all
  | cons e r ih =>
    obtain ⟨a, d⟩ := e
    unfold cellPut at h
    split at h
    · split at h
      · exact Or.inl (by simp [h])
      · rcases List.mem_cons.1 h with h | h
        · exact Or.inr h
        · exact Or.inl (by simp [h])
    · split at h
      · split at h
        · exact Or.inl h
        · rcases List.mem_cons.1 h with h | h
          · exact Or.inr h
          · exact Or.inl h
      · rcases List.mem_cons.1 h with h | h
        · exact Or.inl (by simp [h])
        · rcases ih h with h | h
          · exact Or.inl (by simp [h])
          · exact Or.inr h

/-- Writing a byte keeps the canonical form. -/
theorem wf_cellPut (l : List Host.Cell) (k : Nat) (b : Byte) (h : Memory.wf l = true) : Memory.wf (cellPut l k b) = true := by
  induction l with
  | nil =>
    unfold cellPut
    split
    · rfl
    · rename_i hb
      simpa [Memory.wf] using hb
  | cons e r ih =>
    obtain ⟨a, d⟩ := e
    obtain ⟨hd, ha, hr⟩ := (wf_cons a d r).1 h
    unfold cellPut
    split
    · rename_i hk
      subst hk
      split
      · exact hr
      · rename_i hb
        exact (wf_cons _ _ _).2 ⟨hb, ha, hr⟩
    · rename_i hk
      split
      · rename_i hlt
        split
        · exact h
        · rename_i hb
          refine (wf_cons _ _ _).2 ⟨hb, ?_, h⟩
          intro x hx
          rcases List.mem_cons.1 hx with h1 | h1
          · subst h1; exact hlt
          · exact Nat.lt_trans hlt (ha x h1)
      · rename_i hlt
        refine (wf_cons _ _ _).2 ⟨hd, ?_, ih hr⟩
        intro x hx
        rcases mem_cellPut hx with h1 | h1
        · exact ha x h1
        · subst h1
          show a < k
          omega

/-- Writing a run keeps the canonical form. -/
theorem wf_cellsPut (b : Bytes) (l : List Host.Cell) (a : Nat) (h : Memory.wf l = true) : Memory.wf (cellsPut l a b) = true := by
  induction b generalizing l a with
  | nil => exact h
  | cons x r ih => exact ih _ _ (wf_cellPut l a x h)

/-- Unlisting cells keeps the canonical form. -/
theorem wf_filter (p : Host.Cell → Bool) (l : List Host.Cell) (h : Memory.wf l = true) : Memory.wf (l.filter p) = true := by
  induction l with
  | nil => rfl
  | cons e r ih =>
    obtain ⟨a, b⟩ := e
    obtain ⟨hb, ha, hr⟩ := (wf_cons a b r).1 h
    cases hp : p (a, b)
    · simpa [List.filter, hp] using ih hr
    · simp only [List.filter, hp]
      refine (wf_cons _ _ _).2 ⟨hb, ?_, ih hr⟩
      intro x hx
      exact ha x (List.mem_filter.1 hx).1

/-- The byte just written reads back. -/
theorem cellGet_cellPut_same (l : List Host.Cell) (k : Nat) (b : Byte) (h : Memory.wf l = true) : cellGet (cellPut l k b) k = b := by
  induction l with
  | nil =>
    unfold cellPut
    split
    · rename_i hb
      simp [cellGet, hb]
    · simp [cellGet]
  | cons e r ih =>
    obtain ⟨a, d⟩ := e
    obtain ⟨hd, ha, hr⟩ := (wf_cons a d r).1 h
    unfold cellPut
    split
    · rename_i hk
      subst hk
      split
      · rename_i hb
        rw [cellGet_above ha k (Nat.le_refl k), hb]
      · simp [cellGet]
    · rename_i hk
      have hka : a ≠ k := fun e => hk e.symm
      split
      · rename_i hlt
        split
        · rename_i hb
          simp only [cellGet, if_neg hka]
          rw [cellGet_above (k := k) (fun x hx => Nat.lt_trans hlt (ha x hx)) k (Nat.le_refl k), hb]
        · simp [cellGet]
      · simp only [cellGet, if_neg hka]
        exact ih hr

/-- Writing a byte leaves every other address. -/
theorem cellGet_cellPut_ne (l : List Host.Cell) (k j : Nat) (b : Byte) (hj : j ≠ k) :
    cellGet (cellPut l k b) j = cellGet l j := by
  induction l with
  | nil =>
    unfold cellPut
    split
    · rfl
    · simp [cellGet, Ne.symm hj]
  | cons e r ih =>
    obtain ⟨a, d⟩ := e
    unfold cellPut
    split
    · rename_i hk
      subst hk
      split
      · simp [cellGet, Ne.symm hj]
      · simp [cellGet, Ne.symm hj]
    · split
      · split
        · rfl
        · simp [cellGet, Ne.symm hj]
      · by_cases hja : a = j
        · simp [cellGet, hja]
        · simp [cellGet, hja, ih]

/-- A byte of a run just written reads back. -/
theorem cellGet_cellsPut_in (b : Bytes) (l : List Host.Cell) (a i : Nat) (hi : i < b.length) (h : Memory.wf l = true) :
    cellGet (cellsPut l a b) (a + i) = b.getD i 0 := by
  induction b generalizing l a i with
  | nil => simp at hi
  | cons x r ih =>
    cases i with
    | zero =>
      have key : ∀ (r : Bytes) (m : List Host.Cell) (c : Nat), a < c → cellGet (cellsPut m c r) a = cellGet m a := by
        intro r
        induction r with
        | nil => intro m c _; rfl
        | cons y r ihr =>
          intro m c hc
          simp only [cellsPut]
          rw [ihr _ _ (by omega), cellGet_cellPut_ne _ _ _ _ (by omega)]
      simp only [cellsPut, Nat.add_zero]
      rw [key r _ (a + 1) (by omega), cellGet_cellPut_same _ _ _ h]
      rfl
    | succ i =>
      simp only [cellsPut]
      have := ih (cellPut l a x) (a + 1) i (by simpa using hi) (wf_cellPut _ _ _ h)
      rw [show a + (i + 1) = a + 1 + i by omega, this]
      rfl

/-- Writing a run leaves every address outside it. -/
theorem cellGet_cellsPut_out (b : Bytes) (l : List Host.Cell) (a j : Nat) (hj : j < a ∨ a + b.length ≤ j) :
    cellGet (cellsPut l a b) j = cellGet l j := by
  induction b generalizing l a with
  | nil => rfl
  | cons x r ih =>
    simp only [List.length_cons] at hj
    simp only [cellsPut]
    rw [ih _ _ (by omega), cellGet_cellPut_ne _ _ _ _ (by omega)]

/-- What a line write leaves of the cells. -/
theorem putLine_cells (line mask : Nat) (b : Bytes) (s : State) :
    (putLine line mask b s).mem.cells = cellsPut s.mem.cells (128 * line) (mergeMask mask b (lineBytes s line)) := by
  simp only [putLine]

/-- A line written keeps the canonical form. -/
theorem memoryOk_putLine (line mask : Nat) (b : Bytes) (s : State) (h : MemoryOk s) : MemoryOk (putLine line mask b s) := by
  unfold MemoryOk
  rw [putLine_cells]
  exact wf_cellsPut _ _ _ h

/-- What clearing a region leaves of the cells. -/
theorem clearRegion_cells (off n : Nat) (s : State) :
    (clearRegion off n s).mem.cells = s.mem.cells.filter (fun c => !(decide (off ≤ c.1) && decide (c.1 < off + n))) := by
  simp only [clearRegion]

/-- A region cleared keeps the canonical form. -/
theorem memoryOk_clearRegion (off n : Nat) (s : State) (h : MemoryOk s) : MemoryOk (clearRegion off n s) := by
  unfold MemoryOk
  rw [clearRegion_cells]
  exact wf_filter _ _ h

/-- Reset memory is in canonical form. -/
theorem memoryOk_reset : MemoryOk State.reset := by decide

end Sys2Proof.Machine
end

