-- ==== Sys2Proof/Laws/Keep.lean ====
section
/-!
SUPPORT. What every operation keeps, said once: the queue of commands that wait, what has been sent, the canonical form of
the attached memory, and, for an operation that stores nothing, every byte of that memory. One lemma an operation, in the
files Laws/Keep<Module>.lean.
-/

namespace Sys2Proof.Machine

open Sys2Proof

/-- From `s` to `t` nothing is lost: the queue is as it was, what was sent stays sent, no free value is drawn twice, and the
memory keeps its form. With `w` false every byte of the memory is as it was. -/
structure Keeps (w : Bool) (s t : State) : Prop where
  pending : t.pending = s.pending
  sent : ∃ l, t.sent = l ++ s.sent
  free : s.free ≤ t.free
  memory : MemoryOk s → MemoryOk t
  cells : w = false → t.mem.cells = s.mem.cells

theorem Keeps.refl (w : Bool) (s : State) : Keeps w s s := ⟨rfl, ⟨[], rfl⟩, Nat.le_refl _, id, fun _ => rfl⟩

theorem Keeps.trans {w : Bool} {s t u : State} (a : Keeps w s t) (b : Keeps w t u) : Keeps w s u := by
  obtain ⟨l, hl⟩ := a.sent
  obtain ⟨m, hm⟩ := b.sent
  exact ⟨b.pending.trans a.pending, ⟨m ++ l, by rw [hm, hl, List.append_assoc]⟩, Nat.le_trans a.free b.free,
    fun h => b.memory (a.memory h), fun h => (b.cells h).trans (a.cells h)⟩

/-- What stores nothing keeps more. -/
theorem Keeps.weaken {w : Bool} {s t : State} (a : Keeps false s t) : Keeps w s t :=
  ⟨a.pending, a.sent, a.free, a.memory, fun _ => a.cells rfl⟩

/-- An update of fields beside the queue, the transcript, the free values and the memory's cells. -/
theorem Keeps.upd {w : Bool} {s t : State} (h : Keeps w s t) {time ports sw routes bep ep grotto cal cmp coll xlat mem dict host can
    sec log lantern muster pwr resets} (hm : mem.cells = t.mem.cells) :
    Keeps w s ⟨t.pending, time, ports, sw, routes, bep, ep, grotto, cal, cmp, coll, xlat, mem, dict, host, can, sec, log, lantern,
      muster, pwr, resets, t.sent, t.free⟩ :=
  h.trans ⟨rfl, ⟨[], rfl⟩, Nat.le_refl _, fun o => by unfold MemoryOk at o ⊢; rw [hm]; exact o, fun _ => hm⟩

theorem Keeps.ite {w : Bool} {s a b : State} {c : Prop} [Decidable c] (h : c → Keeps w s a) (g : ¬c → Keeps w s b) :
    Keeps w s (if c then a else b) := by
  split
  · exact h ‹_›
  · exact g ‹_›

theorem Keeps.dite {w : Bool} {s : State} {c : Prop} [Decidable c] {a : c → State} {b : ¬c → State} (h : ∀ x, Keeps w s (a x))
    (g : ∀ x, Keeps w s (b x)) : Keeps w s (dite c a b) := by
  split
  · exact h _
  · exact g _

/-- A fold of operations that each keep. -/
theorem Keeps.foldl {α : Type} {w : Bool} {s t : State} {f : State → α → State} (l : List α)
    (h : ∀ u x, Keeps w s u → Keeps w s (f u x)) (h0 : Keeps w s t) : Keeps w s (l.foldl f t) := by
  induction l generalizing t with
  | nil => exact h0
  | cons x r ih => exact ih (h t x h0)

/-- A fold that carries a value beside the state. -/
theorem Keeps.foldl_snd {α β : Type} {w : Bool} {s : State} {t : β × State} {f : β × State → α → β × State} (l : List α)
    (h : ∀ u x, Keeps w s u.2 → Keeps w s (f u x).2) (h0 : Keeps w s t.2) : Keeps w s (l.foldl f t).2 := by
  induction l generalizing t with
  | nil => exact h0
  | cons x r ih => exact ih (h t x h0)

theorem Keeps.foldl_fst {α β : Type} {w : Bool} {s : State} {t : State × β} {f : State × β → α → State × β} (l : List α)
    (h : ∀ u x, Keeps w s u.1 → Keeps w s (f u x).1) (h0 : Keeps w s t.1) : Keeps w s (l.foldl f t).1 := by
  induction l generalizing t with
  | nil => exact h0
  | cons x r ih => exact ih (h t x h0)

end Sys2Proof.Machine
end

