-- ==== Sys2Proof/Laws/KeepOps.lean ====
section
/-! SUPPORT. What the operations of Machine/Ops.lean keep. -/

namespace Sys2Proof.Machine

open Sys2Proof

set_option linter.unusedTactic false
set_option linter.unreachableTactic false

theorem modPort_keeps {wr : Bool} {sa sb : State} (p : PortN) (f : Port → Port) (hk : Keeps wr sa sb) :
    Keeps wr sa (modPort p f sb) := by
  unfold modPort
  try dsimp only
  repeat'
    with_reducible (first
      | assumption | apply Keeps.ite | apply Keeps.dite | (intro _) | split | refine Keeps.upd ?_ rfl)

theorem forPorts_keeps {wr : Bool} {sa sb : State} (f : PortN → State → State)
    (h_f : ∀ (x0 : PortN) (u : State), Keeps wr sa u → Keeps wr sa (f x0 u)) (hk : Keeps wr sa sb) :
    Keeps wr sa (forPorts f sb) := by
  unfold forPorts
  try dsimp only
  repeat'
    with_reducible (first
      | assumption | apply Keeps.ite | apply Keeps.dite | apply h_f | apply Keeps.foldl | apply Keeps.foldl_snd
      | apply Keeps.foldl_fst | (intro _) | split)

theorem odSet_keeps {wr : Bool} {sa sb : State} (index : Nat) (sub : Nat) (v : Nat) (hk : Keeps wr sa sb) :
    Keeps wr sa (odSet index sub v sb) := by
  unfold odSet
  try dsimp only
  repeat'
    with_reducible (first
      | assumption | apply Keeps.ite | apply Keeps.dite | (intro _) | split | refine Keeps.upd ?_ rfl)

theorem bumpBy_keeps {wr : Bool} {sa sb : State} (index : Nat) (sub : Nat) (n : Nat) (w : Nat) (hk : Keeps wr sa sb) :
    Keeps wr sa (bumpBy index sub n w sb) := by
  unfold bumpBy
  try dsimp only
  repeat'
    with_reducible (first
      | assumption | apply Keeps.ite | apply Keeps.dite | apply odSet_keeps | (intro _) | split)

theorem bump_keeps {wr : Bool} {sa sb : State} (index : Nat) (sub : Nat) (hk : Keeps wr sa sb) :
    Keeps wr sa (bump index sub sb) := by
  unfold bump
  try dsimp only
  repeat'
    with_reducible (first
      | assumption | apply Keeps.ite | apply Keeps.dite | apply bumpBy_keeps | (intro _) | split)

theorem bumpN_keeps {wr : Bool} {sa sb : State} (index : Nat) (sub : Nat) (n : Nat) (hk : Keeps wr sa sb) :
    Keeps wr sa (bumpN index sub n sb) := by
  unfold bumpN
  try dsimp only
  repeat'
    with_reducible (first
      | assumption | apply Keeps.ite | apply Keeps.dite | apply bumpBy_keeps | (intro _) | split)

theorem blobSet_keeps {wr : Bool} {sa sb : State} (index : Nat) (sub : Nat) (b : Bytes) (hk : Keeps wr sa sb) :
    Keeps wr sa (blobSet index sub b sb) := by
  unfold blobSet
  try dsimp only
  repeat'
    with_reducible (first
      | assumption | apply Keeps.ite | apply Keeps.dite | (intro _) | split | refine Keeps.upd ?_ rfl)

theorem emit_keeps {wr : Bool} {sa sb : State} (o : Out) (h : Keeps wr sa sb) : Keeps wr sa (emit o sb) :=
  h.trans ⟨rfl, ⟨[o], rfl⟩, Nat.le_refl _, id, fun _ => rfl⟩

theorem drawn_keeps {wr : Bool} {sa sb : State} (h : Keeps wr sa sb) : Keeps wr sa (drawn sb) :=
  h.trans ⟨rfl, ⟨[], rfl⟩, Nat.le_succ _, id, fun _ => rfl⟩

theorem progress_keeps {wr : Bool} {sa sb : State} (n : Node) (hk : Keeps wr sa sb) :
    Keeps wr sa (progress n sb) := by
  unfold progress
  try dsimp only
  repeat'
    with_reducible (first
      | assumption | apply Keeps.ite | apply Keeps.dite | (intro _) | split | refine Keeps.upd ?_ rfl)

theorem beginOp_keeps {wr : Bool} {sa sb : State} (hk : Keeps wr sa sb) :
    Keeps wr sa (beginOp sb) := by
  unfold beginOp
  try dsimp only
  repeat'
    with_reducible (first
      | assumption | apply Keeps.ite | apply Keeps.dite | (intro _) | split | refine Keeps.upd ?_ rfl)

theorem endOp_keeps {wr : Bool} {sa sb : State} (status : Nat) (abort : Nat) (hk : Keeps wr sa sb) :
    Keeps wr sa (endOp status abort sb) := by
  unfold endOp
  try dsimp only
  repeat'
    with_reducible (first
      | assumption | apply Keeps.ite | apply Keeps.dite | (intro _) | split | refine Keeps.upd ?_ rfl)

theorem refuseCondition_keeps {wr : Bool} {sa sb : State} (hk : Keeps wr sa sb) :
    Keeps wr sa (refuseCondition sb) := by
  unfold refuseCondition
  try dsimp only
  repeat'
    with_reducible (first
      | assumption | apply Keeps.ite | apply Keeps.dite | apply endOp_keeps | (intro _) | split)

theorem refuseRule_keeps {wr : Bool} {sa sb : State} (hk : Keeps wr sa sb) :
    Keeps wr sa (refuseRule sb) := by
  unfold refuseRule
  try dsimp only
  repeat'
    with_reducible (first
      | assumption | apply Keeps.ite | apply Keeps.dite | apply endOp_keeps | (intro _) | split)

theorem barWrite_keeps {wr : Bool} {sa sb : State} (f : State → State)
    (h_f : ∀ (u : State), Keeps wr sa u → Keeps wr sa (f  u)) (hk : Keeps wr sa sb) :
    Keeps wr sa (barWrite f sb) := by
  unfold barWrite
  try dsimp only
  repeat'
    with_reducible (first
      | assumption | apply Keeps.ite | apply Keeps.dite | apply h_f | (intro _) | split)

theorem signal_keeps {wr : Bool} {sa sb : State} (vector : Nat) (hk : Keeps wr sa sb) :
    Keeps wr sa (signal vector sb) := by
  unfold signal
  try dsimp only
  repeat'
    with_reducible (first
      | assumption | apply Keeps.ite | apply Keeps.dite | apply emit_keeps | (intro _) | split | refine Keeps.upd ?_ rfl)

theorem raiseCause_keeps {wr : Bool} {sa sb : State} (n : Fin 64) (hk : Keeps wr sa sb) :
    Keeps wr sa (raiseCause n sb) := by
  unfold raiseCause
  try dsimp only
  repeat'
    with_reducible (first
      | assumption | apply Keeps.ite | apply Keeps.dite | apply signal_keeps | (intro _) | split | refine Keeps.upd ?_ rfl)

theorem countIgnored_keeps {wr : Bool} {sa sb : State} (hk : Keeps wr sa sb) :
    Keeps wr sa (countIgnored sb) := by
  unfold countIgnored
  try dsimp only
  repeat'
    with_reducible (first
      | assumption | apply Keeps.ite | apply Keeps.dite | (intro _) | split | refine Keeps.upd ?_ rfl)

theorem report_keeps {wr : Bool} {sa sb : State} (src : Route) (index : Nat) (sub : Nat) (place : Nat) (kind : Nat)
    (original : Nat) (clamped : Nat) (hk : Keeps wr sa sb) :
    Keeps wr sa (report src index sub place kind original clamped sb) := by
  unfold report
  try dsimp only
  repeat'
    with_reducible (first
      | assumption | apply Keeps.ite | apply Keeps.dite | apply bump_keeps | apply clamped_keeps | apply raiseCause_keeps
      | (intro _) | split | refine Keeps.upd ?_ rfl)

theorem clamped_keeps {wr : Bool} {sa sb : State} (src : Route) (index : Nat) (sub : Nat) (place : Nat) (original : Nat)
    (kept : Nat) (hk : Keeps wr sa sb) :
    Keeps wr sa (clamped src index sub place original kept sb) := by
  unfold clamped
  try dsimp only
  repeat'
    with_reducible (first
      | assumption | apply Keeps.ite | apply Keeps.dite | apply report_keeps | (intro _) | split | refine Keeps.upd ?_ rfl)

theorem noted_keeps {wr : Bool} {sa sb : State} (src : Route) (index : Nat) (sub : Nat) (place : Nat) (kind : Nat)
    (original : Nat) (hk : Keeps wr sa sb) :
    Keeps wr sa (noted src index sub place kind original sb) := by
  unfold noted
  try dsimp only
  repeat'
    with_reducible (first
      | assumption | apply Keeps.ite | apply Keeps.dite | apply report_keeps | (intro _) | split | refine Keeps.upd ?_ rfl)

theorem keepScalar_keeps {wr : Bool} {sa sb : State} (src : Route) (index : Nat) (sub : Nat) (w : Nat) (v : Nat)
    (kept : Nat) (hk : Keeps wr sa sb) :
    Keeps wr sa (keepScalar src index sub w v kept sb) := by
  unfold keepScalar
  try dsimp only
  repeat'
    with_reducible (first
      | assumption | apply Keeps.ite | apply Keeps.dite | apply odSet_keeps | apply clamped_keeps | (intro _) | split)

theorem onlyOne_keeps {wr : Bool} {sa sb : State} (src : Route) (index : Nat) (sub : Nat) (v : Nat)
    (hk : Keeps wr sa sb) :
    Keeps wr sa (onlyOne src index sub v sb) := by
  unfold onlyOne
  try dsimp only
  repeat'
    with_reducible (first
      | assumption | apply Keeps.ite | apply Keeps.dite | apply clamped_keeps | (intro _) | split)

theorem reportClamps_keeps {wr : Bool} {sa sb : State} (src : Route) (index : Nat) (sub : Nat)
    (l : List (Nat × Nat × Nat)) (hk : Keeps wr sa sb) :
    Keeps wr sa (reportClamps src index sub l sb) := by
  unfold reportClamps
  try dsimp only
  repeat'
    with_reducible (first
      | assumption | apply Keeps.ite | apply Keeps.dite | apply clamped_keeps | apply Keeps.foldl | apply Keeps.foldl_snd
      | apply Keeps.foldl_fst | (intro _) | split)

theorem keepTwo_keeps {wr : Bool} {sa sb : State} (src : Route) (index : Nat) (sub : Nat) (w : Nat) (v : Nat)
    (first : Nat) (second : Nat) (hk : Keeps wr sa sb) :
    Keeps wr sa (keepTwo src index sub w v first second sb) := by
  unfold keepTwo
  try dsimp only
  repeat'
    with_reducible (first
      | assumption | apply Keeps.ite | apply Keeps.dite | apply odSet_keeps | apply clamped_keeps | (intro _) | split)

theorem keepArm_keeps {wr : Bool} {sa sb : State} (src : Route) (index : Nat) (sub : Nat) (v : Nat) (kept : Nat)
    (hk : Keeps wr sa sb) :
    Keeps wr sa (keepArm src index sub v kept sb) := by
  unfold keepArm
  try dsimp only
  repeat'
    with_reducible (first
      | assumption | apply Keeps.ite | apply Keeps.dite | apply odSet_keeps | apply clamped_keeps | (intro _) | split)

theorem flushLog_keeps {wr : Bool} {sa sb : State} (hk : Keeps wr sa sb) :
    Keeps wr sa (flushLog sb) := by
  unfold flushLog
  try dsimp only
  repeat'
    with_reducible (first
      | assumption | apply Keeps.ite | apply Keeps.dite | apply log_keeps | (intro _) | split | refine Keeps.upd ?_ rfl)

theorem emcy_keeps {wr : Bool} {sa sb : State} (err : Nat) (code : Nat) (seq : Nat) (hk : Keeps wr sa sb) :
    Keeps wr sa (emcy err code seq sb) := by
  unfold emcy
  try dsimp only
  repeat'
    with_reducible (first
      | assumption | apply Keeps.ite | apply Keeps.dite | apply bump_keeps | apply emit_keeps | (intro _) | split
      | refine Keeps.upd ?_ rfl)

theorem lookAlert_keeps {wr : Bool} {sa sb : State} (hk : Keeps wr sa sb) :
    Keeps wr sa (lookAlert sb) := by
  unfold lookAlert
  try dsimp only
  repeat'
    with_reducible (first
      | assumption | apply Keeps.ite | apply Keeps.dite | apply raiseCause_keeps | apply emcy_keeps | (intro _) | split
      | refine Keeps.upd ?_ rfl)

theorem event_keeps {wr : Bool} {sa sb : State} (code : Nat) (tenant : Nat) (detail : List Nat) (hk : Keeps wr sa sb) :
    Keeps wr sa (event code tenant detail sb) := by
  unfold event
  try dsimp only
  repeat'
    with_reducible (first
      | assumption | apply Keeps.ite | apply Keeps.dite | apply log_keeps | apply bump_keeps | apply flushLog_keeps
      | apply emcy_keeps | apply raiseCause_keeps | apply emit_keeps | apply lookAlert_keeps | (intro _) | split
      | refine Keeps.upd ?_ rfl)

theorem log_keeps {wr : Bool} {sa sb : State} (code : Nat) (detail : List Nat) (hk : Keeps wr sa sb) :
    Keeps wr sa (log code detail sb) := by
  unfold log
  try dsimp only
  repeat'
    with_reducible (first
      | assumption | apply Keeps.ite | apply Keeps.dite | apply event_keeps | (intro _) | split)

end Sys2Proof.Machine
end

