-- ==== Sys2Proof/Laws/KeepMemory.lean ====
section
/-! SUPPORT. What the operations of Machine/Memory.lean keep. -/

namespace Sys2Proof.Machine

open Sys2Proof

set_option linter.unusedTactic false
set_option linter.unreachableTactic false

theorem modChan_keeps {wr : Bool} {sa sb : State} (k : Nat) (f : Chan → Chan) (hk : Keeps wr sa sb) :
    Keeps wr sa (modChan k f sb) := by
  unfold modChan
  try dsimp only
  repeat'
    with_reducible (first
      | assumption | apply Keeps.ite | apply Keeps.dite | (intro _) | split | refine Keeps.upd ?_ rfl)

theorem countRefusal_keeps {wr : Bool} {sa sb : State} (detail : Nat) (hk : Keeps wr sa sb) :
    Keeps wr sa (countRefusal detail sb) := by
  unfold countRefusal
  try dsimp only
  repeat'
    with_reducible (first
      | assumption | apply Keeps.ite | apply Keeps.dite | apply bump_keeps | (intro _) | split)

theorem touchLine_keeps {wr : Bool} {sa sb : State} (line : Nat) (write : Bool) (t : TenantKey) (hk : Keeps wr sa sb) :
    Keeps wr sa (touchLine line write t sb) := by
  unfold touchLine
  try dsimp only
  repeat'
    with_reducible (first
      | assumption | apply Keeps.ite | apply Keeps.dite | apply modChan_keeps | (intro _) | split | refine Keeps.upd ?_ rfl)

theorem countBad_keeps {wr : Bool} {sa sb : State} (line : Nat) (hk : Keeps wr sa sb) :
    Keeps wr sa (countBad line sb) := by
  unfold countBad
  try dsimp only
  repeat'
    with_reducible (first
      | assumption | apply Keeps.ite | apply Keeps.dite | apply log_keeps | apply bump_keeps | (intro _) | split)

theorem readLine_keeps {wr : Bool} {sa sb : State} (line : Nat) (t : TenantKey) (hk : Keeps wr sa sb) :
    Keeps wr sa (readLine line t sb).2 := by
  unfold readLine
  try dsimp only
  repeat'
    with_reducible (first
      | assumption | apply Keeps.ite | apply Keeps.dite | apply touchLine_keeps | apply countBad_keeps | (intro _) | split)

theorem putLine_keeps {sa sb : State} (line : Nat) (mask : Nat) (b : Bytes) (h : Keeps true sa sb) :
    Keeps true sa (putLine line mask b sb) :=
  h.trans ⟨rfl, ⟨[], rfl⟩, Nat.le_refl _, memoryOk_putLine line mask b sb, fun e => by cases e⟩

theorem writeLine_keeps {sa sb : State} (line : Nat) (mask : Nat) (b : Bytes) (t : TenantKey) (hk : Keeps true sa sb) :
    Keeps true sa (writeLine line mask b t sb).2 := by
  unfold writeLine
  try dsimp only
  repeat'
    with_reducible (first
      | assumption | apply Keeps.ite | apply Keeps.dite | apply touchLine_keeps | apply putLine_keeps | apply countBad_keeps
      | (intro _) | split | refine Keeps.upd ?_ rfl)

theorem clearRegion_keeps {sa sb : State} (off : Nat) (n : Nat) (h : Keeps true sa sb) :
    Keeps true sa (clearRegion off n sb) :=
  h.trans ⟨rfl, ⟨[], rfl⟩, Nat.le_refl _, memoryOk_clearRegion off n sb, fun e => by cases e⟩

theorem writeRun_keeps {sa sb : State} (off : Nat) (b : Bytes) (t : TenantKey) (hk : Keeps true sa sb) :
    Keeps true sa (writeRun off b t sb).2 := by
  unfold writeRun
  try dsimp only
  repeat'
    with_reducible (first
      | assumption | apply Keeps.ite | apply Keeps.dite | apply writeLine_keeps | apply Keeps.foldl | apply Keeps.foldl_snd
      | apply Keeps.foldl_fst | (intro _) | split)

end Sys2Proof.Machine
end

