-- ==== Sys2Proof/Laws/KeepScope.lean ====
section
/-! SUPPORT. What the operations of Machine/Scope.lean keep. -/

namespace Sys2Proof.Machine

open Sys2Proof

set_option linter.unusedTactic false
set_option linter.unreachableTactic false

theorem recordRelease_keeps {wr : Bool} {sa sb : State} (line : Nat) (scope : Nat) (who : Agent) (hk : Keeps wr sa sb) :
    Keeps wr sa (recordRelease line scope who sb) := by
  unfold recordRelease
  try dsimp only
  repeat'
    with_reducible (first
      | assumption | apply Keeps.ite | apply Keeps.dite | (intro _) | split | refine Keeps.upd ?_ rfl)

theorem checkAcquire_keeps {wr : Bool} {sa sb : State} (line : Nat) (scope : Nat) (tenant : Nat) (who : Agent)
    (hk : Keeps wr sa sb) :
    Keeps wr sa (checkAcquire line scope tenant who sb).2 := by
  unfold checkAcquire
  try dsimp only
  repeat'
    with_reducible (first
      | assumption | apply Keeps.ite | apply Keeps.dite | apply event_keeps | apply bump_keeps | (intro _) | split)

end Sys2Proof.Machine
end

