-- ==== Sys2Proof/Laws/KeepBep.lean ====
section
/-! SUPPORT. What the operations of Machine/Bep.lean keep. -/

namespace Sys2Proof.Machine

open Sys2Proof

set_option linter.unusedTactic false
set_option linter.unreachableTactic false

theorem bepSend_keeps {wr : Bool} {sa sb : State} (c : Cell) (hk : Keeps wr sa sb) :
    Keeps wr sa (bepSend c sb) := by
  unfold bepSend
  try dsimp only
  repeat'
    with_reducible (first
      | assumption | apply Keeps.ite | apply Keeps.dite | (intro _) | split | refine Keeps.upd ?_ rfl)

theorem closeRun_keeps {wr : Bool} {sa sb : State} (src : Nat) (hk : Keeps wr sa sb) :
    Keeps wr sa (closeRun src sb) := by
  unfold closeRun
  try dsimp only
  repeat'
    with_reducible (first
      | assumption | apply Keeps.ite | apply Keeps.dite | apply bepSend_keeps | apply bumpN_keeps | apply bump_keeps
      | (intro _) | split | refine Keeps.upd ?_ rfl)

theorem ackRequest_keeps {wr : Bool} {sa sb : State} (c : Cell) (hk : Keeps wr sa sb) :
    Keeps wr sa (ackRequest c sb) := by
  unfold ackRequest
  try dsimp only
  repeat'
    with_reducible (first
      | assumption | apply Keeps.ite | apply Keeps.dite | apply closeRun_keeps | (intro _) | split | refine Keeps.upd ?_ rfl)

theorem refuseCell_keeps {wr : Bool} {sa sb : State} (c : Cell) (answer : Cell) (hk : Keeps wr sa sb) :
    Keeps wr sa (refuseCell c answer sb) := by
  unfold refuseCell
  try dsimp only
  repeat'
    with_reducible (first
      | assumption | apply Keeps.ite | apply Keeps.dite | apply bepSend_keeps | apply closeRun_keeps | (intro _) | split)

theorem destErr_keeps {wr : Bool} {sa sb : State} (c : Cell) (code : Nat) (detail : Nat) (hk : Keeps wr sa sb) :
    Keeps wr sa (destErr c code detail sb) := by
  unfold destErr
  try dsimp only
  repeat'
    with_reducible (first
      | assumption | apply Keeps.ite | apply Keeps.dite | apply refuseCell_keeps | apply countRefusal_keeps | (intro _)
      | split)

theorem sendLines_keeps {wr : Bool} {sa sb : State} (c : Cell) (scope : Bool) (k : Nat) (n : Nat) (fuel : Nat)
    (hk : Keeps wr sa sb) :
    Keeps wr sa (sendLines c scope k n fuel sb) := by
  induction fuel generalizing k n sb with
  | zero => exact hk
  | succ fuel ih =>
    unfold sendLines
    try dsimp only
    repeat'
      with_reducible (first
        | assumption | apply Keeps.ite | apply ih | apply destErr_keeps | apply bepSend_keeps | apply readLine_keeps | (intro _)
        | split)

theorem applyRead_keeps {wr : Bool} {sa sb : State} (c : Cell) (hk : Keeps wr sa sb) :
    Keeps wr sa (applyRead c sb) := by
  unfold applyRead
  try dsimp only
  repeat'
    with_reducible (first
      | assumption | apply Keeps.ite | apply Keeps.dite | apply destErr_keeps | apply checkAcquire_keeps
      | apply sendLines_keeps | (intro _) | split)

theorem applyStore_keeps {sa sb : State} (c : Cell) (hk : Keeps true sa sb) :
    Keeps true sa (applyStore c sb) := by
  unfold applyStore
  try dsimp only
  repeat'
    with_reducible (first
      | assumption | apply Keeps.ite | apply Keeps.dite | apply destErr_keeps | apply ackRequest_keeps
      | apply writeLine_keeps | apply recordRelease_keeps | apply Keeps.foldl | apply Keeps.foldl_snd
      | apply Keeps.foldl_fst | (intro _) | split)

theorem atAnswer_keeps {wr : Bool} {sa sb : State} (c : Cell) (old : Nat) (hk : Keeps wr sa sb) :
    Keeps wr sa (atAnswer c old sb) := by
  unfold atAnswer
  try dsimp only
  repeat'
    with_reducible (first
      | assumption | apply Keeps.ite | apply Keeps.dite | apply bepSend_keeps | apply bump_keeps | apply closeRun_keeps
      | (intro _) | split | refine Keeps.upd ?_ rfl)

theorem atomicOn_keeps {sa sb : State} (c : Cell) (b : Bytes) (s0 : State) (hk : Keeps true sa sb) :
    Keeps true sa (atomicOn c b s0 sb).2 := by
  unfold atomicOn
  dsimp only
  split
  · exact Keeps.upd (writeLine_keeps _ _ _ _ hk) rfl
  · apply Keeps.ite
    · exact fun _ => bump_keeps _ _ (writeLine_keeps _ _ _ _ hk)
    · exact fun _ => writeLine_keeps _ _ _ _ hk

theorem applyAtomic_keeps {sa sb : State} (c : Cell) (hk : Keeps true sa sb) : Keeps true sa (applyAtomic c sb) := by
  unfold applyAtomic
  apply Keeps.ite
  · exact fun _ => destErr_keeps _ _ _ hk
  · intro _
    split
    · exact destErr_keeps _ _ _ hk
    · dsimp only
      split
      · exact destErr_keeps _ _ _ (readLine_keeps _ _ hk)
      · exact atAnswer_keeps _ _ (atomicOn_keeps _ _ _ (readLine_keeps _ _ hk))

theorem applyRequest_keeps {sa sb : State} (c : Cell) (hk : Keeps true sa sb) :
    Keeps true sa (applyRequest c sb) := by
  unfold applyRequest
  try dsimp only
  repeat'
    with_reducible (first
      | assumption | apply Keeps.ite | apply Keeps.dite | apply applyRead_keeps | apply applyAtomic_keeps
      | apply ackRequest_keeps | apply applyStore_keeps | (intro _) | split)

theorem setTally_keeps {wr : Bool} {sa sb : State} (src : Nat) (t : Tally) (hk : Keeps wr sa sb) :
    Keeps wr sa (setTally src t sb) := by
  unfold setTally
  try dsimp only
  repeat'
    with_reducible (first
      | assumption | apply Keeps.ite | apply Keeps.dite | (intro _) | split | refine Keeps.upd ?_ rfl)

theorem holdFull_keeps {wr : Bool} {sa sb : State} (c : Cell) (detail : Nat) (hk : Keeps wr sa sb) :
    Keeps wr sa (holdFull c detail sb) := by
  unfold holdFull
  try dsimp only
  repeat'
    with_reducible (first
      | assumption | apply Keeps.ite | apply Keeps.dite | apply refuseCell_keeps | apply bump_keeps | (intro _) | split)

theorem enterRefusal_keeps {wr : Bool} {sa sb : State} (src : Nat) (hk : Keeps wr sa sb) :
    Keeps wr sa (enterRefusal src sb) := by
  unfold enterRefusal
  try dsimp only
  repeat'
    with_reducible (first
      | assumption | apply Keeps.ite | apply Keeps.dite | apply bump_keeps | apply setTally_keeps | (intro _) | split
      | refine Keeps.upd ?_ rfl)

theorem noRoom_keeps {wr : Bool} {sa sb : State} (c : Cell) (hk : Keeps wr sa sb) :
    Keeps wr sa (noRoom c sb) := by
  unfold noRoom
  try dsimp only
  repeat'
    with_reducible (first
      | assumption | apply Keeps.ite | apply Keeps.dite | apply enterRefusal_keeps | apply holdFull_keeps | (intro _)
      | split)

theorem drainHeld_keeps {sa sb : State} (src : Nat) (fuel : Nat) (hk : Keeps true sa sb) :
    Keeps true sa (drainHeld src fuel sb) := by
  induction fuel generalizing sb with
  | zero => exact hk
  | succ fuel ih =>
    unfold drainHeld
    dsimp only
    split
    · apply Keeps.ite
      · exact fun _ => ih (applyRequest_keeps _ (setTally_keeps _ _ hk))
      · exact fun _ => hk
    · split
      · exact hk
      · apply Keeps.ite
        · exact fun _ => ih (setTally_keeps _ _ (Keeps.ite (fun _ => hk) (fun _ => bump_keeps _ _ hk)))
        · exact fun _ => ih (applyRequest_keeps _ (setTally_keeps _ _ hk))

theorem serveFence_keeps {wr : Bool} {sa sb : State} (src : Nat) (hk : Keeps wr sa sb) :
    Keeps wr sa (serveFence src sb) := by
  unfold serveFence
  try dsimp only
  repeat'
    with_reducible (first
      | assumption | apply Keeps.ite | apply Keeps.dite | apply fence_keeps | apply ackRequest_keeps | apply setTally_keeps
      | (intro _) | split | refine Keeps.upd ?_ rfl)

theorem holdBehind_keeps {sa sb : State} (c : Cell) (hk : Keeps true sa sb) :
    Keeps true sa (holdBehind c sb) := by
  unfold holdBehind
  try dsimp only
  repeat'
    with_reducible (first
      | assumption | apply Keeps.ite | apply Keeps.dite | apply noRoom_keeps | apply setTally_keeps | apply serveFence_keeps
      | apply drainHeld_keeps | (intro _) | split | refine Keeps.upd ?_ rfl)

theorem fence_keeps {wr : Bool} {sa sb : State} (c : Cell) (hk : Keeps wr sa sb) :
    Keeps wr sa (fence c sb) := by
  unfold fence
  try dsimp only
  repeat'
    with_reducible (first
      | assumption | apply Keeps.ite | apply Keeps.dite | apply setTally_keeps | apply ackRequest_keeps | apply noRoom_keeps
      | (intro _) | split | refine Keeps.upd ?_ rfl)

theorem destRequest_keeps {sa sb : State} (c : Cell) (hk : Keeps true sa sb) :
    Keeps true sa (destRequest c sb) := by
  unfold destRequest
  try dsimp only
  repeat'
    with_reducible (first
      | assumption | apply Keeps.ite | apply Keeps.dite | apply fence_keeps | apply holdFull_keeps | apply holdBehind_keeps
      | apply applyRequest_keeps | apply setTally_keeps | apply noRoom_keeps | apply bump_keeps | (intro _) | split
      | refine Keeps.upd ?_ rfl)

theorem serveRequest_keeps {sa sb : State} (c : Cell) (hk : Keeps true sa sb) :
    Keeps true sa (serveRequest c sb) := by
  unfold serveRequest
  try dsimp only
  repeat'
    with_reducible (first
      | assumption | apply Keeps.ite | apply Keeps.dite | apply destRequest_keeps | apply progress_keeps | (intro _) | split
      | refine Keeps.upd ?_ rfl)

theorem holdTimeout_keeps {wr : Bool} {sa sb : State} (src : Nat) (hk : Keeps wr sa sb) :
    Keeps wr sa (holdTimeout src sb) := by
  unfold holdTimeout
  try dsimp only
  repeat'
    with_reducible (first
      | assumption | apply Keeps.ite | apply Keeps.dite | apply setTally_keeps | apply holdFull_keeps
      | apply serveFence_keeps | apply enterRefusal_keeps | apply Keeps.foldl | apply Keeps.foldl_snd
      | apply Keeps.foldl_fst | (intro _) | split | refine Keeps.upd ?_ rfl)

theorem exactRegionWrite_keeps {wr : Bool} {sa sb : State} (src : Route) (k : Nat) (v : Nat) (hk : Keeps wr sa sb) :
    Keeps wr sa (exactRegionWrite src k v sb) := by
  unfold exactRegionWrite
  try dsimp only
  repeat'
    with_reducible (first
      | assumption | apply Keeps.ite | apply Keeps.dite | apply beginOp_keeps | apply odSet_keeps | apply reportClamps_keeps
      | (intro _) | split | refine Keeps.upd ?_ rfl)

end Sys2Proof.Machine
end

