-- ==== Sys2Proof/Laws/KeepContexts.lean ====
section
/-! SUPPORT. What the operations of Machine/Contexts.lean keep. -/

namespace Sys2Proof.Machine

open Sys2Proof

set_option linter.unusedTactic false
set_option linter.unreachableTactic false

theorem setCtx_keeps {wr : Bool} {sa sb : State} (k : Nat) (c : Ctx) (hk : Keeps wr sa sb) :
    Keeps wr sa (setCtx k c sb) := by
  unfold setCtx
  try dsimp only
  repeat'
    with_reducible (first
      | assumption | apply Keeps.ite | apply Keeps.dite | (intro _) | split | refine Keeps.upd ?_ rfl)

theorem modCtx_keeps {wr : Bool} {sa sb : State} (k : Nat) (f : Ctx → Ctx) (hk : Keeps wr sa sb) :
    Keeps wr sa (modCtx k f sb) := by
  unfold modCtx
  try dsimp only
  repeat'
    with_reducible (first
      | assumption | apply Keeps.ite | apply Keeps.dite | apply setCtx_keeps | (intro _) | split)

theorem modStream_keeps {wr : Bool} {sa sb : State} (k : Nat) (e : Nat) (f : Stream → Stream) (hk : Keeps wr sa sb) :
    Keeps wr sa (modStream k e f sb) := by
  unfold modStream
  try dsimp only
  repeat'
    with_reducible (first
      | assumption | apply Keeps.ite | apply Keeps.dite | apply modCtx_keeps | (intro _) | split | refine Keeps.upd ?_ rfl)

theorem enterFaulted_keeps {wr : Bool} {sa sb : State} (k : Nat) (code : Nat) (detail : Nat) (hk : Keeps wr sa sb) :
    Keeps wr sa (enterFaulted k code detail sb) := by
  unfold enterFaulted
  apply Keeps.ite
  · intro _
    apply event_keeps
    apply bump_keeps
    split
    · exact bump_keeps _ _ (setCtx_keeps _ _ hk)
    · exact setCtx_keeps _ _ hk
  · exact fun _ => hk

theorem loseGang_keeps {wr : Bool} {sa sb : State} (k : Nat) (hk : Keeps wr sa sb) :
    Keeps wr sa (loseGang k sb) := by
  unfold loseGang
  try dsimp only
  repeat'
    with_reducible (first
      | assumption | apply Keeps.ite | apply Keeps.dite | apply modCtx_keeps | apply enterFaulted_keeps | apply Keeps.foldl
      | apply Keeps.foldl_snd | apply Keeps.foldl_fst | (intro _) | split | refine Keeps.upd ?_ rfl)

theorem ctxFault_keeps {wr : Bool} {sa sb : State} (k : Nat) (code : Nat) (detail : Nat) (hk : Keeps wr sa sb) :
    Keeps wr sa (ctxFault k code detail sb) := by
  unfold ctxFault
  try dsimp only
  repeat'
    with_reducible (first
      | assumption | apply Keeps.ite | apply Keeps.dite | apply loseGang_keeps | apply enterFaulted_keeps | (intro _)
      | split)

theorem ctxScope_keeps {wr : Bool} {sa sb : State} (k : Nat) (addr : Nat) (hk : Keeps wr sa sb) :
    Keeps wr sa (ctxScope k addr sb) := by
  unfold ctxScope
  try dsimp only
  repeat'
    with_reducible (first
      | assumption | apply Keeps.ite | apply Keeps.dite | apply bump_keeps | apply modCtx_keeps | apply ctxFault_keeps
      | (intro _) | split | refine Keeps.upd ?_ rfl)

theorem pollAnswer_keeps {wr : Bool} {sa sb : State} (k : Nat) (line : Bytes) (hk : Keeps wr sa sb) :
    Keeps wr sa (pollAnswer k line sb) := by
  unfold pollAnswer
  try dsimp only
  repeat'
    with_reducible (first
      | assumption | apply Keeps.ite | apply Keeps.dite | apply modCtx_keeps | (intro _) | split | refine Keeps.upd ?_ rfl)

end Sys2Proof.Machine
end

