-- ==== Sys2Proof/Laws/KeepSource.lean ====
section
/-! SUPPORT. What the operations of Machine/Source.lean keep. -/

namespace Sys2Proof.Machine

open Sys2Proof

set_option linter.unusedTactic false
set_option linter.unreachableTactic false

theorem modCopy_keeps {wr : Bool} {sa sb : State} (k : Nat) (f : Copy → Copy) (hk : Keeps wr sa sb) :
    Keeps wr sa (modCopy k f sb) := by
  unfold modCopy
  try dsimp only
  repeat'
    with_reducible (first
      | assumption | apply Keeps.ite | apply Keeps.dite | apply modCtx_keeps | (intro _) | split | refine Keeps.upd ?_ rfl)

theorem copyFailed_keeps {wr : Bool} {sa sb : State} (k : Nat) (read : Bool) (st : Status) (detail : Nat)
    (hk : Keeps wr sa sb) :
    Keeps wr sa (copyFailed k read st detail sb) := by
  unfold copyFailed
  try dsimp only
  repeat'
    with_reducible (first
      | assumption | apply Keeps.ite | apply Keeps.dite | apply modCopy_keeps | apply ctxFault_keeps | (intro _) | split
      | refine Keeps.upd ?_ rfl)

theorem failUse_keeps {wr : Bool} {sa sb : State} (use : Use) (cmd : BepCommand) (st : Status) (hk : Keeps wr sa sb) :
    Keeps wr sa (failUse use cmd st sb) := by
  unfold failUse
  try dsimp only
  repeat'
    with_reducible (first
      | assumption | apply Keeps.ite | apply Keeps.dite | apply emit_keeps | apply ctxFault_keeps | apply copyFailed_keeps
      | apply modCtx_keeps | apply fence_keeps | apply Keeps.foldl | apply Keeps.foldl_snd | apply Keeps.foldl_fst
      | (intro _) | split | refine Keeps.upd ?_ rfl)

theorem refusePerm_keeps {wr : Bool} {sa sb : State} (c : EpCmd) (hk : Keeps wr sa sb) :
    Keeps wr sa (refusePerm c sb) := by
  unfold refusePerm
  try dsimp only
  repeat'
    with_reducible (first
      | assumption | apply Keeps.ite | apply Keeps.dite | apply failUse_keeps | apply bump_keeps | (intro _) | split)

theorem decreaseWindow_keeps {wr : Bool} {sa sb : State} (dest : BitVec 16) (m : Nat) (hk : Keeps wr sa sb) :
    Keeps wr sa (decreaseWindow dest m sb) := by
  unfold decreaseWindow
  try dsimp only
  repeat'
    with_reducible (first
      | assumption | apply Keeps.ite | apply Keeps.dite | apply bump_keeps | (intro _) | split | refine Keeps.upd ?_ rfl)

theorem growWindow_keeps {wr : Bool} {sa sb : State} (dest : BitVec 16) (n : Nat) (hk : Keeps wr sa sb) :
    Keeps wr sa (growWindow dest n sb) := by
  unfold growWindow
  try dsimp only
  repeat'
    with_reducible (first
      | assumption | apply Keeps.ite | apply Keeps.dite | apply Keeps.foldl | apply Keeps.foldl_snd | apply Keeps.foldl_fst
      | (intro _) | split | refine Keeps.upd ?_ rfl)

theorem reactMark_keeps {wr : Bool} {sa sb : State} (dest : BitVec 16) (m : Nat) (ended : List Req)
    (hk : Keeps wr sa sb) :
    Keeps wr sa (reactMark dest m ended sb) := by
  unfold reactMark
  try dsimp only
  repeat'
    with_reducible (first
      | assumption | apply Keeps.ite | apply Keeps.dite | apply growWindow_keeps | apply decreaseWindow_keeps | (intro _)
      | split)

theorem tagUsed_keeps {wr : Bool} {sa sb : State} (tag : Nat) (hk : Keeps wr sa sb) :
    Keeps wr sa (tagUsed tag sb) := by
  unfold tagUsed
  try dsimp only
  repeat'
    with_reducible (first
      | assumption | apply Keeps.ite | apply Keeps.dite | (intro _) | split | refine Keeps.upd ?_ rfl)

theorem setCount_keeps {wr : Bool} {sa sb : State} (dest : Nat) (n : Nat) (hk : Keeps wr sa sb) :
    Keeps wr sa (setCount dest n sb) := by
  unfold setCount
  try dsimp only
  repeat'
    with_reducible (first
      | assumption | apply Keeps.ite | apply Keeps.dite | (intro _) | split | refine Keeps.upd ?_ rfl)

theorem launch_keeps {wr : Bool} {sa sb : State} (cell : Cell) (cmd : BepCommand) (use : Use) (hk : Keeps wr sa sb) :
    Keeps wr sa (launch cell cmd use sb) := by
  unfold launch
  try dsimp only
  repeat'
    with_reducible (first
      | assumption | apply Keeps.ite | apply Keeps.dite | apply bepSend_keeps | (intro _) | split | refine Keeps.upd ?_ rfl)

theorem passFences_keeps {wr : Bool} {sa sb : State} (tag : Option Nat) (hk : Keeps wr sa sb) :
    Keeps wr sa (passFences tag sb) := by
  unfold passFences
  try dsimp only
  repeat'
    with_reducible (first
      | assumption | apply Keeps.ite | apply Keeps.dite | (intro _) | split | refine Keeps.upd ?_ rfl)

theorem sendCmd_keeps {wr : Bool} {sa sb : State} (c : EpCmd) (hk : Keeps wr sa sb) :
    Keeps wr sa (sendCmd c sb) := by
  unfold sendCmd
  try dsimp only
  repeat'
    with_reducible (first
      | assumption | apply Keeps.ite | apply Keeps.dite | apply setCount_keeps | apply passFences_keeps | apply launch_keeps
      | apply tagUsed_keeps | (intro _) | split | refine Keeps.upd ?_ rfl)

theorem sendWaiting_keeps {wr : Bool} {sa sb : State} (fuel : Nat) (hk : Keeps wr sa sb) :
    Keeps wr sa (sendWaiting fuel sb) := by
  induction fuel generalizing sb with
  | zero => exact hk
  | succ fuel ih =>
    unfold sendWaiting
    split
    · exact hk
    · apply Keeps.ite
      · exact fun _ => ih (failUse_keeps _ _ _ (passFences_keeps _ (Keeps.upd hk rfl)))
      · intro _
        apply Keeps.ite
        · exact fun _ => ih (sendCmd_keeps _ (Keeps.upd hk rfl))
        · exact fun _ => hk

theorem pump_keeps {wr : Bool} {sa sb : State} (hk : Keeps wr sa sb) :
    Keeps wr sa (pump sb) := by
  unfold pump
  try dsimp only
  repeat'
    with_reducible (first
      | assumption | apply Keeps.ite | apply Keeps.dite | apply sendWaiting_keeps | (intro _) | split)

theorem submit_keeps {wr : Bool} {sa sb : State} (c : EpCmd) (hk : Keeps wr sa sb) :
    Keeps wr sa (submit c sb) := by
  unfold submit
  try dsimp only
  repeat'
    with_reducible (first
      | assumption | apply Keeps.ite | apply Keeps.dite | apply failUse_keeps | apply bump_keeps | apply pump_keeps
      | (intro _) | split | refine Keeps.upd ?_ rfl)

theorem waitFill_keeps {wr : Bool} {sa sb : State} (c : EpCmd) (hk : Keeps wr sa sb) :
    Keeps wr sa (waitFill c sb) := by
  unfold waitFill
  try dsimp only
  repeat'
    with_reducible (first
      | assumption | apply Keeps.ite | apply Keeps.dite | apply emit_keeps | (intro _) | split | refine Keeps.upd ?_ rfl)

theorem agentCommand_keeps {wr : Bool} {sa sb : State} (c : EpCmd) (hk : Keeps wr sa sb) :
    Keeps wr sa (agentCommand c sb) := by
  unfold agentCommand
  try dsimp only
  repeat'
    with_reducible (first
      | assumption | apply Keeps.ite | apply Keeps.dite | apply refusePerm_keeps | apply waitFill_keeps | apply submit_keeps
      | (intro _) | split | refine Keeps.upd ?_ rfl)

theorem sendFen_keeps {wr : Bool} {sa sb : State} (dest : BitVec 16) (hk : Keeps wr sa sb) :
    Keeps wr sa (sendFen dest sb).2 := by
  unfold sendFen
  try dsimp only
  repeat'
    with_reducible (first
      | assumption | apply Keeps.ite | apply Keeps.dite | apply fence_keeps | apply launch_keeps | apply tagUsed_keeps
      | (intro _) | split)

theorem sourceFence_keeps {wr : Bool} {sa sb : State} (id : Nat) (hk : Keeps wr sa sb) :
    Keeps wr sa (sourceFence id sb) := by
  unfold sourceFence
  try dsimp only
  repeat'
    with_reducible (first
      | assumption | apply Keeps.ite | apply Keeps.dite | apply sendFen_keeps | apply Keeps.foldl | apply Keeps.foldl_snd
      | apply Keeps.foldl_fst | (intro _) | split | refine Keeps.upd ?_ rfl)

theorem sourceFenceComplete_keeps {wr : Bool} {sa sb : State} (id : Nat) (hk : Keeps wr sa sb) :
    Keeps wr sa (sourceFenceComplete id sb) := by
  unfold sourceFenceComplete
  try dsimp only
  repeat'
    with_reducible (first
      | assumption | apply Keeps.ite | apply Keeps.dite | apply emit_keeps | (intro _) | split | refine Keeps.upd ?_ rfl)

theorem fenceEnd_keeps {wr : Bool} {sa sb : State} (tag : Nat) (good : Bool) (hk : Keeps wr sa sb) :
    Keeps wr sa (fenceEnd tag good sb) := by
  unfold fenceEnd
  try dsimp only
  repeat'
    with_reducible (first
      | assumption | apply Keeps.ite | apply Keeps.dite | (intro _) | split | refine Keeps.upd ?_ rfl)

theorem fenceAgain_keeps {wr : Bool} {sa sb : State} (tag : Nat) (hk : Keeps wr sa sb) :
    Keeps wr sa (fenceAgain tag sb) := by
  unfold fenceAgain
  try dsimp only
  repeat'
    with_reducible (first
      | assumption | apply Keeps.ite | apply Keeps.dite | (intro _) | split | refine Keeps.upd ?_ rfl)

theorem dropReq_keeps {wr : Bool} {sa sb : State} (tag : Nat) (hk : Keeps wr sa sb) :
    Keeps wr sa (dropReq tag sb) := by
  unfold dropReq
  try dsimp only
  repeat'
    with_reducible (first
      | assumption | apply Keeps.ite | apply Keeps.dite | (intro _) | split | refine Keeps.upd ?_ rfl)

theorem endFailed_keeps {wr : Bool} {sa sb : State} (tag : Nat) (r : Req) (st : Status) (hk : Keeps wr sa sb) :
    Keeps wr sa (endFailed tag r st sb) := by
  unfold endFailed
  try dsimp only
  repeat'
    with_reducible (first
      | assumption | apply Keeps.ite | apply Keeps.dite | apply fenceEnd_keeps | apply dropReq_keeps | apply fence_keeps
      | apply failUse_keeps | (intro _) | split | refine Keeps.upd ?_ rfl)

theorem refusalFence_keeps {wr : Bool} {sa sb : State} (dest : BitVec 16) (hk : Keeps wr sa sb) :
    Keeps wr sa (refusalFence dest sb) := by
  unfold refusalFence
  try dsimp only
  repeat'
    with_reducible (first
      | assumption | apply Keeps.ite | apply Keeps.dite | apply sendFen_keeps | (intro _) | split | refine Keeps.upd ?_ rfl)

theorem resendRefused_keeps {wr : Bool} {sa sb : State} (dest : Nat) (hk : Keeps wr sa sb) :
    Keeps wr sa (resendRefused dest sb) := by
  unfold resendRefused
  try dsimp only
  repeat'
    with_reducible (first
      | assumption | apply Keeps.ite | apply Keeps.dite | apply pump_keeps | (intro _) | split | refine Keeps.upd ?_ rfl)

theorem refused_keeps {wr : Bool} {sa sb : State} (tag : Nat) (r : Req) (hk : Keeps wr sa sb) :
    Keeps wr sa (refused tag r sb) := by
  unfold refused
  try dsimp only
  repeat'
    with_reducible (first
      | assumption | apply Keeps.ite | apply Keeps.dite | apply fenceAgain_keeps | apply dropReq_keeps | apply setCount_keeps
      | apply fence_keeps | (intro _) | split | refine Keeps.upd ?_ rfl)

theorem breakPair_keeps {wr : Bool} {sa sb : State} (dest : BitVec 16) (detail : Nat) (hk : Keeps wr sa sb) :
    Keeps wr sa (breakPair dest detail sb) := by
  unfold breakPair
  try dsimp only
  repeat'
    with_reducible (first
      | assumption | apply Keeps.ite | apply Keeps.dite | apply bump_keeps | apply endFailed_keeps | apply failUse_keeps
      | apply passFences_keeps | apply setCount_keeps | apply Keeps.foldl | apply Keeps.foldl_snd | apply Keeps.foldl_fst
      | (intro _) | split | refine Keeps.upd ?_ rfl)

end Sys2Proof.Machine
end

