-- ==== Sys2Proof/Laws/KeepCoreCache.lean ====
section
/-! SUPPORT. What the operations of Machine/CoreCache.lean keep. -/

namespace Sys2Proof.Machine

open Sys2Proof

set_option linter.unusedTactic false
set_option linter.unreachableTactic false

theorem setCache_keeps {wr : Bool} {sa sb : State} (k : Nat) (l : CLine) (hk : Keeps wr sa sb) :
    Keeps wr sa (setCache k l sb) := by
  unfold setCache
  try dsimp only
  repeat'
    with_reducible (first
      | assumption | apply Keeps.ite | apply Keeps.dite | (intro _) | split | refine Keeps.upd ?_ rfl)

theorem dropCache_keeps {wr : Bool} {sa sb : State} (k : Nat) (hk : Keeps wr sa sb) :
    Keeps wr sa (dropCache k sb) := by
  unfold dropCache
  try dsimp only
  repeat'
    with_reducible (first
      | assumption | apply Keeps.ite | apply Keeps.dite | (intro _) | split | refine Keeps.upd ?_ rfl)

theorem arraySubmit_keeps {wr : Bool} {sa sb : State} (use : Use) (cmd : BepCommand) (phys : Nat) (hk : Keeps wr sa sb) :
    Keeps wr sa (arraySubmit use cmd phys sb) := by
  unfold arraySubmit
  try dsimp only
  repeat'
    with_reducible (first
      | assumption | apply Keeps.ite | apply Keeps.dite | apply submit_keeps | (intro _) | split | refine Keeps.upd ?_ rfl)

theorem fabricWrite_keeps {wr : Bool} {sa sb : State} (use : Use) (tenant : Nat) (pasid : Nat) (line : Nat) (mask : Nat)
    (b : Bytes) (hk : Keeps wr sa sb) :
    Keeps wr sa (fabricWrite use tenant pasid line mask b sb) := by
  unfold fabricWrite
  try dsimp only
  repeat'
    with_reducible (first
      | assumption | apply Keeps.ite | apply Keeps.dite | apply arraySubmit_keeps | (intro _) | split)

theorem localWrite_keeps {sa sb : State} (core : Nat) (mask : Nat) (tenant : Nat) (line : Nat) (bytes : Nat) (b : Bytes)
    (hk : Keeps true sa sb) :
    Keeps true sa (localWrite core mask tenant line bytes b sb) := by
  unfold localWrite
  try dsimp only
  repeat'
    with_reducible (first
      | assumption | apply Keeps.ite | apply Keeps.dite | apply ctxFault_keeps | apply countRefusal_keeps
      | apply writeLine_keeps | apply Keeps.foldl | apply Keeps.foldl_snd | apply Keeps.foldl_fst | (intro _) | split)

theorem writeBackLine_keeps {sa sb : State} (k : Nat) (hk : Keeps true sa sb) :
    Keeps true sa (writeBackLine k sb) := by
  unfold writeBackLine
  try dsimp only
  repeat'
    with_reducible (first
      | assumption | apply Keeps.ite | apply Keeps.dite | apply setCache_keeps | apply dropCache_keeps
      | apply localWrite_keeps | apply fabricWrite_keeps | (intro _) | split | refine Keeps.upd ?_ rfl)

theorem flushLine_keeps {sa sb : State} (k : Nat) (hk : Keeps true sa sb) :
    Keeps true sa (flushLine k sb) := by
  unfold flushLine
  try dsimp only
  repeat'
    with_reducible (first
      | assumption | apply Keeps.ite | apply Keeps.dite | apply dropCache_keeps | apply writeBackLine_keeps | (intro _)
      | split)

theorem makeRoom_keeps {sa sb : State} (k : Nat) (hk : Keeps true sa sb) :
    Keeps true sa (makeRoom k sb) := by
  unfold makeRoom
  try dsimp only
  repeat'
    with_reducible (first
      | assumption | apply Keeps.ite | apply Keeps.dite | apply dropCache_keeps | apply flushLine_keeps | (intro _) | split)

theorem installLine_keeps {sa sb : State} (k : Nat) (pasid : Nat) (b : Bytes) (hk : Keeps true sa sb) :
    Keeps true sa (installLine k pasid b sb) := by
  unfold installLine
  try dsimp only
  repeat'
    with_reducible (first
      | assumption | apply Keeps.ite | apply Keeps.dite | apply makeRoom_keeps | apply setCache_keeps | (intro _) | split
      | refine Keeps.upd ?_ rfl)

end Sys2Proof.Machine
end

