-- ==== Sys2Proof/Laws/KeepLanes.lean ====
section
/-! SUPPORT. What the operations of Machine/Lanes.lean keep. -/

namespace Sys2Proof.Machine

open Sys2Proof

set_option linter.unusedTactic false
set_option linter.unreachableTactic false

theorem issue_keeps {wr : Bool} {sa sb : State} (w : StreamId) (legal : Bool) (run : Nat → Ctx → Stream → State → State)
    (h_run : ∀ (x0 : Nat) (x1 : Ctx) (x2 : Stream) (u : State), Keeps wr sa u → Keeps wr sa (run x0 x1 x2 u))
    (hk : Keeps wr sa sb) :
    Keeps wr sa (issue w legal run sb) := by
  unfold issue
  try dsimp only
  repeat'
    with_reducible (first
      | assumption | apply Keeps.ite | apply Keeps.dite | apply h_run | apply progress_keeps | apply ctxFault_keeps
      | (intro _) | split)

theorem issueRegs_keeps {wr : Bool} {sa sb : State} (w : StreamId) (legal : Bool) (g : Stream → Stream)
    (hk : Keeps wr sa sb) :
    Keeps wr sa (issueRegs w legal g sb) := by
  unfold issueRegs
  try dsimp only
  repeat'
    with_reducible (first
      | assumption | apply Keeps.ite | apply Keeps.dite | apply issue_keeps | apply modStream_keeps | (intro _) | split)

theorem intOp_keeps {wr : Bool} {sa sb : State} (w : StreamId) (f : IFields) (g : Nat → Nat → Nat) (hk : Keeps wr sa sb) :
    Keeps wr sa (intOp w f g sb) := by
  unfold intOp
  try dsimp only
  repeat'
    with_reducible (first
      | assumption | apply Keeps.ite | apply Keeps.dite | apply issueRegs_keeps | (intro _) | split)

theorem shiftOp_keeps {wr : Bool} {sa sb : State} (w : StreamId) (f : IFields) (g : Nat → Nat → Nat)
    (hk : Keeps wr sa sb) :
    Keeps wr sa (shiftOp w f g sb) := by
  unfold shiftOp
  try dsimp only
  repeat'
    with_reducible (first
      | assumption | apply Keeps.ite | apply Keeps.dite | apply issueRegs_keeps | (intro _) | split)

theorem cmpOp_keeps {wr : Bool} {sa sb : State} (w : StreamId) (f : IFields) (g : FV → FV → Bool) (hk : Keeps wr sa sb) :
    Keeps wr sa (cmpOp w f g sb) := by
  unfold cmpOp
  try dsimp only
  repeat'
    with_reducible (first
      | assumption | apply Keeps.ite | apply Keeps.dite | apply issueRegs_keeps | (intro _) | split)

theorem fmaOp_keeps {wr : Bool} {sa sb : State} (w : StreamId) (f : IFields) (g : Mode → FV → FV → FV → FV)
    (hk : Keeps wr sa sb) :
    Keeps wr sa (fmaOp w f g sb) := by
  unfold fmaOp
  try dsimp only
  repeat'
    with_reducible (first
      | assumption | apply Keeps.ite | apply Keeps.dite | apply issueRegs_keeps | (intro _) | split)

theorem minmaxOp_keeps {wr : Bool} {sa sb : State} (w : StreamId) (f : IFields) (isMax : Bool) (hk : Keeps wr sa sb) :
    Keeps wr sa (minmaxOp w f isMax sb) := by
  unfold minmaxOp
  try dsimp only
  repeat'
    with_reducible (first
      | assumption | apply Keeps.ite | apply Keeps.dite | apply issueRegs_keeps | (intro _) | split)

theorem dotOp_keeps {wr : Bool} {sa sb : State} (w : StreamId) (op : Nat) (f : IFields) (hk : Keeps wr sa sb) :
    Keeps wr sa (dotOp w op f sb) := by
  unfold dotOp
  try dsimp only
  repeat'
    with_reducible (first
      | assumption | apply Keeps.ite | apply Keeps.dite | apply issue_keeps | apply issueRegs_keeps | (intro _) | split)

theorem setAcc_keeps {wr : Bool} {sa sb : State} (j : Nat) (a : Acc) (hk : Keeps wr sa sb) :
    Keeps wr sa (setAcc j a sb) := by
  unfold setAcc
  try dsimp only
  repeat'
    with_reducible (first
      | assumption | apply Keeps.ite | apply Keeps.dite | (intro _) | split | refine Keeps.upd ?_ rfl)

theorem accOp_keeps {wr : Bool} {sa sb : State} (w : StreamId) (f : IFields) (legal : Bool)
    (g : Nat → Stream → State → State)
    (h_g : ∀ (x0 : Nat) (x1 : Stream) (u : State), Keeps wr sa u → Keeps wr sa (g x0 x1 u)) (hk : Keeps wr sa sb) :
    Keeps wr sa (accOp w f legal g sb) := by
  unfold accOp
  try dsimp only
  repeat'
    with_reducible (first
      | assumption | apply Keeps.ite | apply Keeps.dite | apply h_g | apply issue_keeps | apply ctxFault_keeps
      | apply modStream_keeps | (intro _) | split)

theorem countRounding_keeps {wr : Bool} {sa sb : State} (m : Fmt) (mode : Mode) (a : Acc) (hk : Keeps wr sa sb) :
    Keeps wr sa (countRounding m mode a sb) := by
  unfold countRounding
  try dsimp only
  repeat'
    with_reducible (first
      | assumption | apply Keeps.ite | apply Keeps.dite | apply bump_keeps | (intro _) | split)

end Sys2Proof.Machine
end

