-- ==== Sys2Proof/Laws/KeepTime.lean ====
section
/-! SUPPORT. What the operations of Machine/Time.lean keep. -/

namespace Sys2Proof.Machine

open Sys2Proof

set_option linter.unusedTactic false
set_option linter.unreachableTactic false

theorem modTime_keeps {wr : Bool} {sa sb : State} (f : Time → Time) (hk : Keeps wr sa sb) :
    Keeps wr sa (modTime f sb) := by
  unfold modTime
  try dsimp only
  repeat'
    with_reducible (first
      | assumption | apply Keeps.ite | apply Keeps.dite | (intro _) | split | refine Keeps.upd ?_ rfl)

theorem modPortTime_keeps {wr : Bool} {sa sb : State} (p : PortN) (f : PortTime → PortTime) (hk : Keeps wr sa sb) :
    Keeps wr sa (modPortTime p f sb) := by
  unfold modPortTime
  try dsimp only
  repeat'
    with_reducible (first
      | assumption | apply Keeps.ite | apply Keeps.dite | apply modPort_keeps | (intro _) | split | refine Keeps.upd ?_ rfl)

theorem advanceTo_keeps {wr : Bool} {sa sb : State} (tick : Nat) (hk : Keeps wr sa sb) :
    Keeps wr sa (advanceTo tick sb) := by
  unfold advanceTo
  try dsimp only
  repeat'
    with_reducible (first
      | assumption | apply Keeps.ite | apply Keeps.dite | apply modTime_keeps | (intro _) | split)

theorem coreCycle_keeps {wr : Bool} {sa sb : State} (hk : Keeps wr sa sb) :
    Keeps wr sa (coreCycle sb) := by
  unfold coreCycle
  try dsimp only
  repeat'
    with_reducible (first
      | assumption | apply Keeps.ite | apply Keeps.dite | apply modTime_keeps | (intro _) | split)

theorem judgeBound_keeps {wr : Bool} {sa sb : State} (hk : Keeps wr sa sb) :
    Keeps wr sa (judgeBound sb) := by
  unfold judgeBound
  try dsimp only
  repeat'
    with_reducible (first
      | assumption | apply Keeps.ite | apply Keeps.dite | apply modTime_keeps | apply raiseCause_keeps | apply log_keeps
      | (intro _) | split | refine Keeps.upd ?_ rfl)

theorem setMode_keeps {wr : Bool} {sa sb : State} (m : TimeMode) (hk : Keeps wr sa sb) :
    Keeps wr sa (setMode m sb) := by
  unfold setMode
  try dsimp only
  repeat'
    with_reducible (first
      | assumption | apply Keeps.ite | apply Keeps.dite | apply modTime_keeps | apply forPorts_keeps
      | apply modPortTime_keeps | apply raiseCause_keeps | apply log_keeps | (intro _) | split | refine Keeps.upd ?_ rfl)

theorem takeParent_keeps {wr : Bool} {sa sb : State} (p : PortN) (hk : Keeps wr sa sb) :
    Keeps wr sa (takeParent p sb) := by
  unfold takeParent
  try dsimp only
  repeat'
    with_reducible (first
      | assumption | apply Keeps.ite | apply Keeps.dite | apply modTime_keeps | (intro _) | split | refine Keeps.upd ?_ rfl)

theorem freshSamples_keeps {wr : Bool} {sa sb : State} (p : PortN) (hk : Keeps wr sa sb) :
    Keeps wr sa (freshSamples p sb) := by
  unfold freshSamples
  try dsimp only
  repeat'
    with_reducible (first
      | assumption | apply Keeps.ite | apply Keeps.dite | apply modPortTime_keeps | (intro _) | split
      | refine Keeps.upd ?_ rfl)

theorem enterHoldover_keeps {wr : Bool} {sa sb : State} (hk : Keeps wr sa sb) :
    Keeps wr sa (enterHoldover sb) := by
  unfold enterHoldover
  try dsimp only
  repeat'
    with_reducible (first
      | assumption | apply Keeps.ite | apply Keeps.dite | apply setMode_keeps | apply modTime_keeps | (intro _) | split
      | refine Keeps.upd ?_ rfl)

theorem judgeState_keeps {wr : Bool} {sa sb : State} (hk : Keeps wr sa sb) :
    Keeps wr sa (judgeState sb) := by
  unfold judgeState
  try dsimp only
  repeat'
    with_reducible (first
      | assumption | apply Keeps.ite | apply Keeps.dite | apply modTime_keeps | apply setMode_keeps | apply takeParent_keeps
      | apply freshSamples_keeps | apply enterHoldover_keeps | (intro _) | split | refine Keeps.upd ?_ rfl)

theorem sendTimeSet_keeps {wr : Bool} {sa sb : State} (p : PortN) (hk : Keeps wr sa sb) :
    Keeps wr sa (sendTimeSet p sb) := by
  unfold sendTimeSet
  try dsimp only
  repeat'
    with_reducible (first
      | assumption | apply Keeps.ite | apply Keeps.dite | apply modPortTime_keeps | apply emit_keeps | apply drawn_keeps
      | (intro _) | split | refine Keeps.upd ?_ rfl)

theorem followParent_keeps {wr : Bool} {sa sb : State} (p : PortN) (x : TimeSet) (arrival : Int) (d : Int)
    (hk : Keeps wr sa sb) :
    Keeps wr sa (followParent p x arrival d sb) := by
  unfold followParent
  try dsimp only
  repeat'
    with_reducible (first
      | assumption | apply Keeps.ite | apply Keeps.dite | apply bumpBy_keeps | apply modTime_keeps | apply judgeBound_keeps
      | apply Keeps.foldl | apply Keeps.foldl_snd | apply Keeps.foldl_fst | (intro _) | split | refine Keeps.upd ?_ rfl)

theorem timeSetReceive_keeps {wr : Bool} {sa sb : State} (p : PortN) (x : TimeSet) (arrival : Nat) (damaged : Bool)
    (hk : Keeps wr sa sb) :
    Keeps wr sa (timeSetReceive p x arrival damaged sb) := by
  unfold timeSetReceive
  try dsimp only
  repeat'
    with_reducible (first
      | assumption | apply Keeps.ite | apply Keeps.dite | apply bumpBy_keeps | apply modPortTime_keeps
      | apply advanceTo_keeps | apply odSet_keeps | apply modTime_keeps | apply followParent_keeps | apply judgeState_keeps
      | (intro _) | split | refine Keeps.upd ?_ rfl)

theorem roundStartTime_keeps {wr : Bool} {sa sb : State} (hk : Keeps wr sa sb) :
    Keeps wr sa (roundStartTime sb) := by
  unfold roundStartTime
  try dsimp only
  repeat'
    with_reducible (first
      | assumption | apply Keeps.ite | apply Keeps.dite | apply advanceTo_keeps | apply modTime_keeps
      | apply judgeState_keeps | apply setMode_keeps | apply judgeBound_keeps | apply forPorts_keeps
      | apply sendTimeSet_keeps | (intro _) | split | refine Keeps.upd ?_ rfl)

theorem trimDecision_keeps {wr : Bool} {sa sb : State} (hk : Keeps wr sa sb) :
    Keeps wr sa (trimDecision sb) := by
  unfold trimDecision
  try dsimp only
  repeat'
    with_reducible (first
      | assumption | apply Keeps.ite | apply Keeps.dite | apply advanceTo_keeps | apply modTime_keeps | apply forPorts_keeps
      | apply emit_keeps | (intro _) | split | refine Keeps.upd ?_ rfl)

theorem trimSlotPass_keeps {wr : Bool} {sa sb : State} (hk : Keeps wr sa sb) :
    Keeps wr sa (trimSlotPass sb) := by
  unfold trimSlotPass
  try dsimp only
  repeat'
    with_reducible (first
      | assumption | apply Keeps.ite | apply Keeps.dite | apply judgeBound_keeps | apply modTime_keeps | (intro _) | split
      | refine Keeps.upd ?_ rfl)

theorem trimNoticeReceive_keeps {wr : Bool} {sa sb : State} (p : PortN) (low : BitVec 16) (kind : BitVec 8)
    (comp : BitVec 8) (hk : Keeps wr sa sb) :
    Keeps wr sa (trimNoticeReceive p low kind comp sb) := by
  unfold trimNoticeReceive
  try dsimp only
  repeat'
    with_reducible (first
      | assumption | apply Keeps.ite | apply Keeps.dite | apply bump_keeps | apply bumpBy_keeps | apply judgeState_keeps
      | apply modTime_keeps | (intro _) | split | refine Keeps.upd ?_ rfl)

theorem makeSuspect_keeps {wr : Bool} {sa sb : State} (p : PortN) (hk : Keeps wr sa sb) :
    Keeps wr sa (makeSuspect p sb) := by
  unfold makeSuspect
  try dsimp only
  repeat'
    with_reducible (first
      | assumption | apply Keeps.ite | apply Keeps.dite | apply bumpBy_keeps | apply modPortTime_keeps
      | apply judgeState_keeps | (intro _) | split | refine Keeps.upd ?_ rfl)

theorem beatMiss_keeps {wr : Bool} {sa sb : State} (hk : Keeps wr sa sb) :
    Keeps wr sa (beatMiss sb) := by
  unfold beatMiss
  try dsimp only
  repeat'
    with_reducible (first
      | assumption | apply Keeps.ite | apply Keeps.dite | apply bumpBy_keeps | apply modTime_keeps | apply raiseCause_keeps
      | apply log_keeps | (intro _) | split | refine Keeps.upd ?_ rfl)

theorem beatrefEdge_keeps {wr : Bool} {sa sb : State} (stamp : Nat) (hk : Keeps wr sa sb) :
    Keeps wr sa (beatrefEdge stamp sb) := by
  unfold beatrefEdge
  try dsimp only
  repeat'
    with_reducible (first
      | assumption | apply Keeps.ite | apply Keeps.dite | apply advanceTo_keeps | apply beatMiss_keeps
      | apply judgeState_keeps | apply judgeBound_keeps | apply modTime_keeps | (intro _) | split | refine Keeps.upd ?_ rfl)

theorem roundLengthWrite_keeps {wr : Bool} {sa sb : State} (src : Route) (v : Nat) (hk : Keeps wr sa sb) :
    Keeps wr sa (roundLengthWrite src v sb) := by
  unfold roundLengthWrite
  try dsimp only
  repeat'
    with_reducible (first
      | assumption | apply Keeps.ite | apply Keeps.dite | apply beginOp_keeps | apply refuseRule_keeps
      | apply keepScalar_keeps | (intro _) | split)

theorem roundArmWrite_keeps {wr : Bool} {sa sb : State} (src : Route) (v : Nat) (hk : Keeps wr sa sb) :
    Keeps wr sa (roundArmWrite src v sb) := by
  unfold roundArmWrite
  try dsimp only
  repeat'
    with_reducible (first
      | assumption | apply Keeps.ite | apply Keeps.dite | apply beginOp_keeps | apply keepArm_keeps | apply modTime_keeps
      | (intro _) | split | refine Keeps.upd ?_ rfl)

theorem timeRoleWrite_keeps {wr : Bool} {sa sb : State} (src : Route) (v : Nat) (hk : Keeps wr sa sb) :
    Keeps wr sa (timeRoleWrite src v sb) := by
  unfold timeRoleWrite
  try dsimp only
  repeat'
    with_reducible (first
      | assumption | apply Keeps.ite | apply Keeps.dite | apply modTime_keeps | apply keepScalar_keeps | apply beginOp_keeps
      | (intro _) | split | refine Keeps.upd ?_ rfl)

theorem timeSourceWrite_keeps {wr : Bool} {sa sb : State} (src : Route) (v : Nat) (hk : Keeps wr sa sb) :
    Keeps wr sa (timeSourceWrite src v sb) := by
  unfold timeSourceWrite
  try dsimp only
  repeat'
    with_reducible (first
      | assumption | apply Keeps.ite | apply Keeps.dite | apply modTime_keeps | apply keepScalar_keeps | apply beginOp_keeps
      | (intro _) | split | refine Keeps.upd ?_ rfl)

end Sys2Proof.Machine
end

