-- ==== Sys2Proof/Laws/KeepLedger.lean ====
section
/-! SUPPORT. What the operations of Machine/Ledger.lean keep. -/

namespace Sys2Proof.Machine

open Sys2Proof

set_option linter.unusedTactic false
set_option linter.unreachableTactic false

theorem setBuf_keeps {wr : Bool} {sa sb : State} (store : Nat) (index : Nat) (b : Buf) (hk : Keeps wr sa sb) :
    Keeps wr sa (setBuf store index b sb) := by
  unfold setBuf
  try dsimp only
  repeat'
    with_reducible (first
      | assumption | apply Keeps.ite | apply Keeps.dite | (intro _) | split | refine Keeps.upd ?_ rfl)

theorem ledgerFault_keeps {wr : Bool} {sa sb : State} (store : Nat) (index : Nat) (check : Nat) (hk : Keeps wr sa sb) :
    Keeps wr sa (ledgerFault store index check sb) := by
  unfold ledgerFault
  try dsimp only
  repeat'
    with_reducible (first
      | assumption | apply Keeps.ite | apply Keeps.dite | apply bump_keeps | apply log_keeps | (intro _) | split
      | refine Keeps.upd ?_ rfl)

theorem returnCredit_keeps {wr : Bool} {sa sb : State} (stall : Nat) (vc : Nat) (hk : Keeps wr sa sb) :
    Keeps wr sa (returnCredit stall vc sb) := by
  unfold returnCredit
  try dsimp only
  repeat'
    with_reducible (first
      | assumption | apply Keeps.ite | apply Keeps.dite | apply modPort_keeps | (intro _) | split | refine Keeps.upd ?_ rfl)

theorem freeBuf_keeps {wr : Bool} {sa sb : State} (store : Nat) (index : Nat) (hk : Keeps wr sa sb) :
    Keeps wr sa (freeBuf store index sb) := by
  unfold freeBuf
  try dsimp only
  repeat'
    with_reducible (first
      | assumption | apply Keeps.ite | apply Keeps.dite | apply returnCredit_keeps | apply setBuf_keeps | (intro _) | split
      | refine Keeps.upd ?_ rfl)

theorem noteHighest_keeps {wr : Bool} {sa sb : State} (stall : Nat) (hk : Keeps wr sa sb) :
    Keeps wr sa (noteHighest stall sb) := by
  unfold noteHighest
  try dsimp only
  repeat'
    with_reducible (first
      | assumption | apply Keeps.ite | apply Keeps.dite | (intro _) | split | refine Keeps.upd ?_ rfl)

theorem allocBuf_keeps {wr : Bool} {sa sb : State} (p : PortN) (vc : Nat) (tenant : Nat) (c : Cell)
    (hk : Keeps wr sa sb) :
    Keeps wr sa (allocBuf p vc tenant c sb).2 := by
  unfold allocBuf
  try dsimp only
  repeat'
    with_reducible (first
      | assumption | apply Keeps.ite | apply Keeps.dite | apply log_keeps | apply bump_keeps | apply noteHighest_keeps
      | apply setBuf_keeps | (intro _) | split)

theorem addHolders_keeps {wr : Bool} {sa sb : State} (store : Nat) (index : Nat) (n : Nat) (hk : Keeps wr sa sb) :
    Keeps wr sa (addHolders store index n sb).2 := by
  unfold addHolders
  try dsimp only
  repeat'
    with_reducible (first
      | assumption | apply Keeps.ite | apply Keeps.dite | apply setBuf_keeps | apply ledgerFault_keeps | (intro _) | split
      | refine Keeps.upd ?_ rfl)

theorem releaseCopy_keeps {wr : Bool} {sa sb : State} (store : Nat) (index : Nat) (hk : Keeps wr sa sb) :
    Keeps wr sa (releaseCopy store index sb) := by
  unfold releaseCopy
  try dsimp only
  repeat'
    with_reducible (first
      | assumption | apply Keeps.ite | apply Keeps.dite | apply ledgerFault_keeps | apply freeBuf_keeps | apply setBuf_keeps
      | (intro _) | split | refine Keeps.upd ?_ rfl)

theorem layPools_keeps {wr : Bool} {sa sb : State} (p : PortN) (hk : Keeps wr sa sb) :
    Keeps wr sa (layPools p sb) := by
  unfold layPools
  try dsimp only
  repeat'
    with_reducible (first
      | assumption | apply Keeps.ite | apply Keeps.dite | apply modPort_keeps | (intro _) | split | refine Keeps.upd ?_ rfl)

theorem issueCell_keeps {wr : Bool} {sa sb : State} (p : PortN) (c : Cell) (hk : Keeps wr sa sb) :
    Keeps wr sa (issueCell p c sb) := by
  unfold issueCell
  try dsimp only
  repeat'
    with_reducible (first
      | assumption | apply Keeps.ite | apply Keeps.dite | apply emit_keeps | apply bump_keeps | apply modPort_keeps
      | (intro _) | split | refine Keeps.upd ?_ rfl)

theorem auditAct_keeps {wr : Bool} {sa sb : State} (stall : Nat) (index : Nat) (b : Buf) (hk : Keeps wr sa sb) :
    Keeps wr sa (auditAct stall index b sb) := by
  unfold auditAct
  try dsimp only
  repeat'
    with_reducible (first
      | assumption | apply Keeps.ite | apply Keeps.dite | apply log_keeps | apply bump_keeps | apply freeBuf_keeps
      | apply setBuf_keeps | (intro _) | split | refine Keeps.upd ?_ rfl)

theorem auditVisit_keeps {wr : Bool} {sa sb : State} (stall : Nat) (index : Nat) (hk : Keeps wr sa sb) :
    Keeps wr sa (auditVisit stall index sb) := by
  unfold auditVisit
  try dsimp only
  repeat'
    with_reducible (first
      | assumption | apply Keeps.ite | apply Keeps.dite | apply auditAct_keeps | (intro _) | split | refine Keeps.upd ?_ rfl)

theorem sumpAudit_keeps {wr : Bool} {sa sb : State} (hk : Keeps wr sa sb) :
    Keeps wr sa (sumpAudit sb) := by
  unfold sumpAudit
  try dsimp only
  repeat'
    with_reducible (first
      | assumption | apply Keeps.ite | apply Keeps.dite | apply advanceTo_keeps | apply auditVisit_keeps | apply Keeps.foldl
      | apply Keeps.foldl_snd | apply Keeps.foldl_fst | (intro _) | split | refine Keeps.upd ?_ rfl)

end Sys2Proof.Machine
end

