-- ==== Sys2Proof/Laws/KeepRoutes.lean ====
section
/-! SUPPORT. What the operations of Machine/Routes.lean keep. -/

namespace Sys2Proof.Machine

open Sys2Proof

set_option linter.unusedTactic false
set_option linter.unreachableTactic false

theorem modBank_keeps {wr : Bool} {sa sb : State} (b : Nat) (f : RouteBank → RouteBank) (hk : Keeps wr sa sb) :
    Keeps wr sa (modBank b f sb) := by
  unfold modBank
  try dsimp only
  repeat'
    with_reducible (first
      | assumption | apply Keeps.ite | apply Keeps.dite | (intro _) | split | refine Keeps.upd ?_ rfl)

theorem routeEntryKeep_keeps {wr : Bool} {sa sb : State} (src : Route) (table : Nat) (i : Nat) (v : Nat)
    (hk : Keeps wr sa sb) :
    Keeps wr sa (routeEntryKeep src table i v sb) := by
  unfold routeEntryKeep
  try dsimp only
  repeat'
    with_reducible (first
      | assumption | apply Keeps.ite | apply Keeps.dite | apply reportClamps_keeps | apply modBank_keeps | (intro _) | split
      | refine Keeps.upd ?_ rfl)

theorem routeEntryWrite_keeps {wr : Bool} {sa sb : State} (src : Route) (table : Nat) (i : Nat) (v : Nat)
    (hk : Keeps wr sa sb) :
    Keeps wr sa (routeEntryWrite src table i v sb) := by
  unfold routeEntryWrite
  try dsimp only
  repeat'
    with_reducible (first
      | assumption | apply Keeps.ite | apply Keeps.dite | apply beginOp_keeps | apply routeEntryKeep_keeps
      | apply refuseRule_keeps | (intro _) | split)

theorem saltWrite_keeps {wr : Bool} {sa sb : State} (v : Nat) (hk : Keeps wr sa sb) :
    Keeps wr sa (saltWrite v sb) := by
  unfold saltWrite
  try dsimp only
  repeat'
    with_reducible (first
      | assumption | apply Keeps.ite | apply Keeps.dite | apply beginOp_keeps | apply modBank_keeps | apply refuseRule_keeps
      | (intro _) | split | refine Keeps.upd ?_ rfl)

theorem ngroupsWrite_keeps {wr : Bool} {sa sb : State} (src : Route) (v : Nat) (hk : Keeps wr sa sb) :
    Keeps wr sa (ngroupsWrite src v sb) := by
  unfold ngroupsWrite
  try dsimp only
  repeat'
    with_reducible (first
      | assumption | apply Keeps.ite | apply Keeps.dite | apply beginOp_keeps | apply modBank_keeps | apply clamped_keeps
      | apply refuseRule_keeps | (intro _) | split | refine Keeps.upd ?_ rfl)

theorem routeArmWrite_keeps {wr : Bool} {sa sb : State} (src : Route) (v : Nat) (hk : Keeps wr sa sb) :
    Keeps wr sa (routeArmWrite src v sb) := by
  unfold routeArmWrite
  try dsimp only
  repeat'
    with_reducible (first
      | assumption | apply Keeps.ite | apply Keeps.dite | apply beginOp_keeps | apply odSet_keeps | apply modBank_keeps
      | apply refuseRule_keeps | apply keepArm_keeps | (intro _) | split | refine Keeps.upd ?_ rfl)

theorem sendNotice_keeps {wr : Bool} {sa sb : State} (p : PortN) (hk : Keeps wr sa sb) :
    Keeps wr sa (sendNotice p sb) := by
  unfold sendNotice
  try dsimp only
  repeat'
    with_reducible (first
      | assumption | apply Keeps.ite | apply Keeps.dite | apply issueCell_keeps | (intro _) | split)

theorem noticeAnswered_keeps {wr : Bool} {sa sb : State} (p : PortN) (epoch : BitVec 1) (hk : Keeps wr sa sb) :
    Keeps wr sa (noticeAnswered p epoch sb) := by
  unfold noticeAnswered
  try dsimp only
  repeat'
    with_reducible (first
      | assumption | apply Keeps.ite | apply Keeps.dite | apply modPort_keeps | (intro _) | split | refine Keeps.upd ?_ rfl)

theorem routeBankSwitch_keeps {wr : Bool} {sa sb : State} (hk : Keeps wr sa sb) :
    Keeps wr sa (routeBankSwitch sb) := by
  unfold routeBankSwitch
  try dsimp only
  repeat'
    with_reducible (first
      | assumption | apply Keeps.ite | apply Keeps.dite | apply odSet_keeps | apply advanceTo_keeps | apply modBank_keeps
      | apply raiseCause_keeps | apply forPorts_keeps | apply sendNotice_keeps | apply modPort_keeps | (intro _) | split
      | refine Keeps.upd ?_ rfl)

theorem routeBankDrainEnd_keeps {wr : Bool} {sa sb : State} (hk : Keeps wr sa sb) :
    Keeps wr sa (routeBankDrainEnd sb) := by
  unfold routeBankDrainEnd
  try dsimp only
  repeat'
    with_reducible (first
      | assumption | apply Keeps.ite | apply Keeps.dite | apply advanceTo_keeps | apply raiseCause_keeps
      | apply forPorts_keeps | apply modPort_keeps | apply modBank_keeps | (intro _) | split | refine Keeps.upd ?_ rfl)

theorem routeBankCopy_keeps {wr : Bool} {sa sb : State} (src : Route) (v : Nat) (hk : Keeps wr sa sb) :
    Keeps wr sa (routeBankCopy src v sb) := by
  unfold routeBankCopy
  try dsimp only
  repeat'
    with_reducible (first
      | assumption | apply Keeps.ite | apply Keeps.dite | apply beginOp_keeps | apply refuseRule_keeps | apply onlyOne_keeps
      | apply modBank_keeps | (intro _) | split | refine Keeps.upd ?_ rfl)

theorem takeFrom_keeps {wr : Bool} {sa sb : State} (p : PortN) (c : Cell) (hk : Keeps wr sa sb) :
    Keeps wr sa (takeFrom p c sb) := by
  unfold takeFrom
  try dsimp only
  repeat'
    with_reducible (first
      | assumption | apply Keeps.ite | apply Keeps.dite | apply modPort_keeps | (intro _) | split | refine Keeps.upd ?_ rfl)

theorem rtdEntries_keeps {wr : Bool} {sa sb : State} (p : PortN) (c : Cell) (hk : Keeps wr sa sb) :
    Keeps wr sa (rtdEntries p c sb) := by
  unfold rtdEntries
  try dsimp only
  repeat'
    with_reducible (first
      | assumption | apply Keeps.ite | apply Keeps.dite | apply takeFrom_keeps | apply routeEntryKeep_keeps
      | apply bump_keeps | apply Keeps.foldl | apply Keeps.foldl_snd | apply Keeps.foldl_fst | (intro _) | split)

theorem timSend_keeps {wr : Bool} {sa sb : State} (p : PortN) (hk : Keeps wr sa sb) :
    Keeps wr sa (timSend p sb) := by
  unfold timSend
  try dsimp only
  repeat'
    with_reducible (first
      | assumption | apply Keeps.ite | apply Keeps.dite | apply issueCell_keeps | (intro _) | split)

theorem timReceive_keeps {wr : Bool} {sa sb : State} (p : PortN) (c : Cell) (hk : Keeps wr sa sb) :
    Keeps wr sa (timReceive p c sb) := by
  unfold timReceive
  try dsimp only
  repeat'
    with_reducible (first
      | assumption | apply Keeps.ite | apply Keeps.dite | apply odSet_keeps | apply takeFrom_keeps | (intro _) | split)

end Sys2Proof.Machine
end

