-- ==== Sys2Proof/Laws/KeepCalendar.lean ====
section
/-! SUPPORT. What the operations of Machine/Calendar.lean keep. -/

namespace Sys2Proof.Machine

open Sys2Proof

set_option linter.unusedTactic false
set_option linter.unreachableTactic false

theorem modCal_keeps {wr : Bool} {sa sb : State} (f : Calendar → Calendar) (hk : Keeps wr sa sb) :
    Keeps wr sa (modCal f sb) := by
  unfold modCal
  try dsimp only
  repeat'
    with_reducible (first
      | assumption | apply Keeps.ite | apply Keeps.dite | (intro _) | split | refine Keeps.upd ?_ rfl)

theorem modBankCal_keeps {wr : Bool} {sa sb : State} (b : Nat) (f : CalBank → CalBank) (hk : Keeps wr sa sb) :
    Keeps wr sa (modBankCal b f sb) := by
  unfold modBankCal
  try dsimp only
  repeat'
    with_reducible (first
      | assumption | apply Keeps.ite | apply Keeps.dite | apply modCal_keeps | (intro _) | split | refine Keeps.upd ?_ rfl)

theorem refuseLoad_keeps {wr : Bool} {sa sb : State} (code : Nat) (hk : Keeps wr sa sb) :
    Keeps wr sa (refuseLoad code sb) := by
  unfold refuseLoad
  try dsimp only
  repeat'
    with_reducible (first
      | assumption | apply Keeps.ite | apply Keeps.dite | apply refuseRule_keeps | apply modCal_keeps
      | apply modBankCal_keeps | (intro _) | split | refine Keeps.upd ?_ rfl)

theorem calendarBegin_keeps {wr : Bool} {sa sb : State} (src : Route) (v : Nat) (hk : Keeps wr sa sb) :
    Keeps wr sa (calendarBegin src v sb) := by
  unfold calendarBegin
  try dsimp only
  repeat'
    with_reducible (first
      | assumption | apply Keeps.ite | apply Keeps.dite | apply refuseRule_keeps | apply onlyOne_keeps | apply modCal_keeps
      | apply clamped_keeps | apply modBankCal_keeps | (intro _) | split | refine Keeps.upd ?_ rfl)

theorem calendarData_keeps {wr : Bool} {sa sb : State} (data : Bytes) (hk : Keeps wr sa sb) :
    Keeps wr sa (calendarData data sb) := by
  unfold calendarData
  try dsimp only
  repeat'
    with_reducible (first
      | assumption | apply Keeps.ite | apply Keeps.dite | apply refuseRule_keeps | apply refuseLoad_keeps
      | apply modCal_keeps | (intro _) | split | refine Keeps.upd ?_ rfl)

theorem sealRecord_keeps {wr : Bool} {sa : State} {sb : State × Sealing × Option Nat} (src : Route) (b : Bytes) (half : List Nat)
    (round : Nat) (o : Nat) (width : Nat) (pos : Nat) (h : Keeps wr sa sb.1) :
    Keeps wr sa (sealRecord src b half round o width pos sb).1 := by
  unfold sealRecord
  obtain ⟨s, g, last⟩ := sb
  try dsimp only at *
  repeat'
    with_reducible (first
      | assumption | apply Keeps.ite | apply clamped_keeps | apply noted_keeps | (intro _) | split)

theorem sealSection_keeps {wr : Bool} {sa : State} {sb : State × Sealing} (src : Route) (b : Bytes) (half : List Nat)
    (round : Nat) (pos : Nat) (prev : Option Nat) (h : Keeps wr sa sb.1) :
    Keeps wr sa (sealSection src b half round pos prev sb).1 := by
  unfold sealSection
  obtain ⟨s, g⟩ := sb
  try dsimp only at *
  repeat'
    with_reducible (first
      | assumption | apply Keeps.ite | apply clamped_keeps | apply noted_keeps | apply sealRecord_keeps | apply Keeps.foldl_fst
      | (intro _) | split)

theorem sealSections_keeps {wr : Bool} {sa : State} (src : Route) (b : Bytes) (half : List Nat) (round : Nat) (l : List Nat)
    (prev : Option Nat) (sb : State × Sealing) (h : Keeps wr sa sb.1) :
    Keeps wr sa (sealSections src b half round l prev sb).1 := by
  induction l generalizing prev sb with
  | nil => exact h
  | cons pos r ih => exact ih _ _ (sealSection_keeps src b half round pos prev h)

theorem sealOpen_keeps {wr : Bool} {sa : State} {sb : State × Sealing} (src : Route) (key : Nat) (e : Slot)
    (h : Keeps wr sa sb.1) : Keeps wr sa (sealOpen src key e sb).1 := by
  unfold sealOpen
  exact clamped_keeps _ _ _ _ _ _ h

theorem sealCheck_keeps {wr : Bool} {sa : State} {sb : State × Sealing} (src : Route) (bad : NMap Slot → Nat → Slot → Bool)
    (h : Keeps wr sa sb.1) : Keeps wr sa (sealCheck src bad sb).1 := by
  unfold sealCheck
  generalize sb.2.slots = l
  suffices ∀ (acc : (State × Sealing) × NMap Slot), Keeps wr sa acc.1.1 →
      Keeps wr sa (l.foldl (fun (acc : (State × Sealing) × NMap Slot) e =>
        if bad acc.2 e.1 e.2 then (sealOpen src e.1 e.2 acc.1, acc.2) else (acc.1, acc.2 ++ [e])) acc).1.1 from this (sb, []) h
  induction l with
  | nil => exact fun acc ha => ha
  | cons e r ih =>
    intro acc ha
    rw [List.foldl_cons]
    refine ih _ ?_
    split
    · exact sealOpen_keeps src e.1 e.2 ha
    · exact ha

theorem sealHeader_keeps {wr : Bool} {sa sb : State} (src : Route) (b : Bytes) (hk : Keeps wr sa sb) :
    Keeps wr sa (sealHeader src b sb).1 := by
  unfold sealHeader
  try dsimp only
  repeat'
    with_reducible (first
      | assumption | apply Keeps.ite | apply Keeps.dite | apply clamped_keeps | apply Keeps.foldl | apply Keeps.foldl_snd
      | apply Keeps.foldl_fst | (intro _) | split)

theorem calendarSeal_keeps {wr : Bool} {sa sb : State} (src : Route) (v : Nat) (hk : Keeps wr sa sb) :
    Keeps wr sa (calendarSeal src v sb) := by
  unfold calendarSeal
  try dsimp only
  repeat'
    with_reducible (first
      | assumption | apply Keeps.ite | apply Keeps.dite | apply refuseRule_keeps | apply refuseLoad_keeps
      | apply onlyOne_keeps | apply sealHeader_keeps | apply sealSections_keeps | apply sealCheck_keeps
      | apply modBankCal_keeps | apply modCal_keeps | apply clamped_keeps | apply refused_keeps | (intro _) | split
      | refine Keeps.upd ?_ rfl)

theorem calendarArm_keeps {wr : Bool} {sa sb : State} (src : Route) (v : Nat) (hk : Keeps wr sa sb) :
    Keeps wr sa (calendarArm src v sb) := by
  unfold calendarArm
  try dsimp only
  repeat'
    with_reducible (first
      | assumption | apply Keeps.ite | apply Keeps.dite | apply modCal_keeps | apply odSet_keeps | apply modBankCal_keeps
      | apply refuseRule_keeps | apply keepArm_keeps | (intro _) | split | refine Keeps.upd ?_ rfl)

theorem releaseSlots_keeps {wr : Bool} {sa sb : State} (hk : Keeps wr sa sb) :
    Keeps wr sa (releaseSlots sb) := by
  unfold releaseSlots
  try dsimp only
  repeat'
    with_reducible (first
      | assumption | apply Keeps.ite | apply Keeps.dite | apply bump_keeps | apply modCal_keeps | apply Keeps.foldl
      | apply Keeps.foldl_snd | apply Keeps.foldl_fst | (intro _) | split | refine Keeps.upd ?_ rfl)

theorem calendarSwitch_keeps {wr : Bool} {sa sb : State} (hk : Keeps wr sa sb) :
    Keeps wr sa (calendarSwitch sb) := by
  unfold calendarSwitch
  try dsimp only
  repeat'
    with_reducible (first
      | assumption | apply Keeps.ite | apply Keeps.dite | apply odSet_keeps | apply advanceTo_keeps | apply modTime_keeps
      | apply raiseCause_keeps | apply log_keeps | apply modCal_keeps | apply modBankCal_keeps | apply releaseSlots_keeps
      | (intro _) | split | refine Keeps.upd ?_ rfl)

theorem setSbuf_keeps {wr : Bool} {sa sb : State} (input : Nat) (sbuf : Nat) (b : SlotBuf) (hk : Keeps wr sa sb) :
    Keeps wr sa (setSbuf input sbuf b sb) := by
  unfold setSbuf
  try dsimp only
  repeat'
    with_reducible (first
      | assumption | apply Keeps.ite | apply Keeps.dite | apply modCal_keeps | (intro _) | split | refine Keeps.upd ?_ rfl)

theorem countSlotDrop_keeps {wr : Bool} {sa sb : State} (input : Nat) (hk : Keeps wr sa sb) :
    Keeps wr sa (countSlotDrop input sb) := by
  unfold countSlotDrop
  try dsimp only
  repeat'
    with_reducible (first
      | assumption | apply Keeps.ite | apply Keeps.dite | apply bump_keeps | (intro _) | split)

theorem releaseRef_keeps {wr : Bool} {sa sb : State} (input : Nat) (sbuf : Nat) (sent : Bool) (hk : Keeps wr sa sb) :
    Keeps wr sa (releaseRef input sbuf sent sb) := by
  unfold releaseRef
  try dsimp only
  repeat'
    with_reducible (first
      | assumption | apply Keeps.ite | apply Keeps.dite | apply bump_keeps | apply setSbuf_keeps | (intro _) | split
      | refine Keeps.upd ?_ rfl)

theorem isolationWrite_keeps {wr : Bool} {sa sb : State} (src : Route) (v : Nat) (hk : Keeps wr sa sb) :
    Keeps wr sa (isolationWrite src v sb) := by
  unfold isolationWrite
  try dsimp only
  repeat'
    with_reducible (first
      | assumption | apply Keeps.ite | apply Keeps.dite | apply endOp_keeps | apply refuseRule_keeps | apply keepScalar_keeps
      | (intro _) | split)

theorem selectorWrite_keeps {wr : Bool} {sa sb : State} (src : Route) (v : Nat) (hk : Keeps wr sa sb) :
    Keeps wr sa (selectorWrite src v sb) := by
  unfold selectorWrite
  try dsimp only
  repeat'
    with_reducible (first
      | assumption | apply Keeps.ite | apply Keeps.dite | apply reportClamps_keeps | apply odSet_keeps | (intro _) | split)

end Sys2Proof.Machine
end

