-- ==== Sys2Proof/Laws/KeepCollect.lean ====
section
/-! SUPPORT. What the operations of Machine/Collect.lean keep. -/

namespace Sys2Proof.Machine

open Sys2Proof

set_option linter.unusedTactic false
set_option linter.unreachableTactic false

theorem modColl_keeps {wr : Bool} {sa sb : State} (f : Coll → Coll) (hk : Keeps wr sa sb) :
    Keeps wr sa (modColl f sb) := by
  unfold modColl
  try dsimp only
  repeat'
    with_reducible (first
      | assumption | apply Keeps.ite | apply Keeps.dite | (intro _) | split | refine Keeps.upd ?_ rfl)

theorem setWin_keeps {wr : Bool} {sa sb : State} (i : Nat) (w : Win) (hk : Keeps wr sa sb) :
    Keeps wr sa (setWin i w sb) := by
  unfold setWin
  try dsimp only
  repeat'
    with_reducible (first
      | assumption | apply Keeps.ite | apply Keeps.dite | apply modColl_keeps | (intro _) | split | refine Keeps.upd ?_ rfl)

theorem modWin_keeps {wr : Bool} {sa sb : State} (i : Nat) (f : Win → Win) (hk : Keeps wr sa sb) :
    Keeps wr sa (modWin i f sb) := by
  unfold modWin
  try dsimp only
  repeat'
    with_reducible (first
      | assumption | apply Keeps.ite | apply Keeps.dite | apply setWin_keeps | (intro _) | split)

theorem failStep_keeps {wr : Bool} {sa sb : State} (i : Nat) (cause : Nat) (chunk : Option Nat) (hk : Keeps wr sa sb) :
    Keeps wr sa (failStep i cause chunk sb) := by
  unfold failStep
  try dsimp only
  repeat'
    with_reducible (first
      | assumption | apply Keeps.ite | apply Keeps.dite | apply setWin_keeps | (intro _) | split | refine Keeps.upd ?_ rfl)

theorem memberAbsent_keeps {wr : Bool} {sa sb : State} (i : Nat) (member : Nat) (hk : Keeps wr sa sb) :
    Keeps wr sa (memberAbsent i member sb) := by
  unfold memberAbsent
  try dsimp only
  repeat'
    with_reducible (first
      | assumption | apply Keeps.ite | apply Keeps.dite | apply failStep_keeps | apply modWin_keeps | apply bump_keeps
      | (intro _) | split | refine Keeps.upd ?_ rfl)

theorem setShard_keeps {wr : Bool} {sa sb : State} (j : Nat) (x : Shard) (hk : Keeps wr sa sb) :
    Keeps wr sa (setShard j x sb) := by
  unfold setShard
  try dsimp only
  repeat'
    with_reducible (first
      | assumption | apply Keeps.ite | apply Keeps.dite | apply modColl_keeps | (intro _) | split | refine Keeps.upd ?_ rfl)

theorem windowBind_keeps {wr : Bool} {sa sb : State} (src : Route) (i : Nat) (hk : Keeps wr sa sb) :
    Keeps wr sa (windowBind src i sb) := by
  unfold windowBind
  try dsimp only
  repeat'
    with_reducible (first
      | assumption | apply Keeps.ite | apply Keeps.dite | apply refuseRule_keeps | apply report_keeps | apply bump_keeps
      | apply modWin_keeps | apply setWin_keeps | (intro _) | split | refine Keeps.upd ?_ rfl)

theorem clearAccs_keeps {wr : Bool} {sa sb : State} (i : Nat) (hk : Keeps wr sa sb) :
    Keeps wr sa (clearAccs i sb) := by
  unfold clearAccs
  try dsimp only
  repeat'
    with_reducible (first
      | assumption | apply Keeps.ite | apply Keeps.dite | (intro _) | split | refine Keeps.upd ?_ rfl)

theorem freeFormed_keeps {wr : Bool} {sa sb : State} (i : Nat) (hk : Keeps wr sa sb) :
    Keeps wr sa (freeFormed i sb) := by
  unfold freeFormed
  try dsimp only
  repeat'
    with_reducible (first
      | assumption | apply Keeps.ite | apply Keeps.dite | apply modWin_keeps | apply bumpN_keeps | (intro _) | split
      | refine Keeps.upd ?_ rfl)

theorem unbind_keeps {wr : Bool} {sa sb : State} (i : Nat) (hk : Keeps wr sa sb) :
    Keeps wr sa (unbind i sb) := by
  unfold unbind
  try dsimp only
  repeat'
    with_reducible (first
      | assumption | apply Keeps.ite | apply Keeps.dite | apply modWin_keeps | apply freeFormed_keeps | apply clearAccs_keeps
      | (intro _) | split | refine Keeps.upd ?_ rfl)

theorem windowUnbind_keeps {wr : Bool} {sa sb : State} (i : Nat) (hk : Keeps wr sa sb) :
    Keeps wr sa (windowUnbind i sb) := by
  unfold windowUnbind
  try dsimp only
  repeat'
    with_reducible (first
      | assumption | apply Keeps.ite | apply Keeps.dite | apply setWin_keeps | apply unbind_keeps | (intro _) | split
      | refine Keeps.upd ?_ rfl)

theorem windowWrite_keeps {wr : Bool} {sa sb : State} (src : Route) (i : Nat) (v : Nat) (hk : Keeps wr sa sb) :
    Keeps wr sa (windowWrite src i v sb) := by
  unfold windowWrite
  try dsimp only
  repeat'
    with_reducible (first
      | assumption | apply Keeps.ite | apply Keeps.dite | apply windowBind_keeps | apply windowUnbind_keeps
      | apply clamped_keeps | (intro _) | split)

theorem startSteward_keeps {wr : Bool} {sa sb : State} (d : Bytes) (hk : Keeps wr sa sb) :
    Keeps wr sa (startSteward d sb) := by
  unfold startSteward
  try dsimp only
  repeat'
    with_reducible (first
      | assumption | apply Keeps.ite | apply Keeps.dite | apply setShard_keeps | (intro _) | split | refine Keeps.upd ?_ rfl)

theorem windowRound_keeps {wr : Bool} {sa sb : State} (i : Nat) (hk : Keeps wr sa sb) :
    Keeps wr sa (windowRound i sb) := by
  unfold windowRound
  try dsimp only
  repeat'
    with_reducible (first
      | assumption | apply Keeps.ite | apply Keeps.dite | apply freeFormed_keeps | apply clearAccs_keeps | apply modWin_keeps
      | apply startSteward_keeps | apply failStep_keeps | (intro _) | split | refine Keeps.upd ?_ rfl)

theorem noteArrival_keeps {wr : Bool} {sa sb : State} (i : Nat) (input : Nat) (c : Cell) (hk : Keeps wr sa sb) :
    Keeps wr sa (noteArrival i input c sb) := by
  unfold noteArrival
  try dsimp only
  repeat'
    with_reducible (first
      | assumption | apply Keeps.ite | apply Keeps.dite | apply modWin_keeps | apply failStep_keeps | apply bump_keeps
      | (intro _) | split | refine Keeps.upd ?_ rfl)

theorem noteVerdict_keeps {wr : Bool} {sa sb : State} (i : Nat) (c : Cell) (hk : Keeps wr sa sb) :
    Keeps wr sa (noteVerdict i c sb) := by
  unfold noteVerdict
  try dsimp only
  repeat'
    with_reducible (first
      | assumption | apply Keeps.ite | apply Keeps.dite | apply setWin_keeps | (intro _) | split | refine Keeps.upd ?_ rfl)

theorem acceptScheduled_keeps {wr : Bool} {sa sb : State} (p : PortN) (c : Cell) (hk : Keeps wr sa sb) :
    Keeps wr sa (acceptScheduled p c sb) := by
  unfold acceptScheduled
  try dsimp only
  repeat'
    with_reducible (first
      | assumption | apply Keeps.ite | apply Keeps.dite | apply noteVerdict_keeps | apply noteArrival_keeps
      | apply setSbuf_keeps | apply bump_keeps | apply countSlotDrop_keeps | (intro _) | split)

theorem reduceCell_keeps {wr : Bool} {sa sb : State} (i : Nat) (c : Cell) (hk : Keeps wr sa sb) :
    Keeps wr sa (reduceCell i c sb) := by
  unfold reduceCell
  try dsimp only
  repeat'
    with_reducible (first
      | assumption | apply Keeps.ite | apply Keeps.dite | apply setWin_keeps | apply Keeps.foldl | apply Keeps.foldl_snd
      | apply Keeps.foldl_fst | (intro _) | split | refine Keeps.upd ?_ rfl)

theorem keepCell_keeps {wr : Bool} {sa sb : State} (i : Nat) (who : Nat) (c : Cell) (hk : Keeps wr sa sb) :
    Keeps wr sa (keepCell i who c sb) := by
  unfold keepCell
  try dsimp only
  repeat'
    with_reducible (first
      | assumption | apply Keeps.ite | apply Keeps.dite | apply modWin_keeps | (intro _) | split | refine Keeps.upd ?_ rfl)

theorem countTaken_keeps {wr : Bool} {sa sb : State} (i : Nat) (c : Cell) (hk : Keeps wr sa sb) :
    Keeps wr sa (countTaken i c sb) := by
  unfold countTaken
  try dsimp only
  repeat'
    with_reducible (first
      | assumption | apply Keeps.ite | apply Keeps.dite | apply modWin_keeps | (intro _) | split | refine Keeps.upd ?_ rfl)

theorem countIndices_keeps {wr : Bool} {sa sb : State} (i : Nat) (c : Cell) (hk : Keeps wr sa sb) :
    Keeps wr sa (countIndices i c sb) := by
  unfold countIndices
  try dsimp only
  repeat'
    with_reducible (first
      | assumption | apply Keeps.ite | apply Keeps.dite | apply modWin_keeps | apply bumpN_keeps | (intro _) | split
      | refine Keeps.upd ?_ rfl)

theorem formCell_keeps {wr : Bool} {sa sb : State} (i : Nat) (chunk : Nat) (cell : Nat) (b : Bytes) (pad : Bool)
    (hk : Keeps wr sa sb) :
    Keeps wr sa (formCell i chunk cell b pad sb) := by
  unfold formCell
  try dsimp only
  repeat'
    with_reducible (first
      | assumption | apply Keeps.ite | apply Keeps.dite | apply modWin_keeps | (intro _) | split | refine Keeps.upd ?_ rfl)

theorem takeData_keeps {wr : Bool} {sa sb : State} (i : Nat) (input : Nat) (c : Cell) (hk : Keeps wr sa sb) :
    Keeps wr sa (takeData i input c sb) := by
  unfold takeData
  try dsimp only
  repeat'
    with_reducible (first
      | assumption | apply Keeps.ite | apply Keeps.dite | apply formCell_keeps | apply keepCell_keeps
      | apply countSlotDrop_keeps | apply countTaken_keeps | apply countIndices_keeps | apply reduceCell_keeps | (intro _)
      | split)

theorem takeDigests_keeps {wr : Bool} {sa sb : State} (i : Nat) (c : Cell) (hk : Keeps wr sa sb) :
    Keeps wr sa (takeDigests i c sb) := by
  unfold takeDigests
  try dsimp only
  repeat'
    with_reducible (first
      | assumption | apply Keeps.ite | apply Keeps.dite | apply setShard_keeps | apply Keeps.foldl | apply Keeps.foldl_snd
      | apply Keeps.foldl_fst | (intro _) | split | refine Keeps.upd ?_ rfl)

theorem engineTake_keeps {wr : Bool} {sa sb : State} (i : Nat) (input : Nat) (c : Cell) (hk : Keeps wr sa sb) :
    Keeps wr sa (engineTake i input c sb) := by
  unfold engineTake
  try dsimp only
  repeat'
    with_reducible (first
      | assumption | apply Keeps.ite | apply Keeps.dite | apply takeData_keeps | apply keepCell_keeps | apply setWin_keeps
      | apply takeDigests_keeps | (intro _) | split | refine Keeps.upd ?_ rfl)

theorem formReduced_keeps {wr : Bool} {sa sb : State} (i : Nat) (chunk : Nat) (cell : Nat) (hk : Keeps wr sa sb) :
    Keeps wr sa (formReduced i chunk cell sb) := by
  unfold formReduced
  try dsimp only
  repeat'
    with_reducible (first
      | assumption | apply Keeps.ite | apply Keeps.dite | apply setWin_keeps | apply formCell_keeps | (intro _) | split
      | refine Keeps.upd ?_ rfl)

theorem formCompacted_keeps {wr : Bool} {sa sb : State} (i : Nat) (chunk : Nat) (cell : Nat) (hk : Keeps wr sa sb) :
    Keeps wr sa (formCompacted i chunk cell sb) := by
  unfold formCompacted
  try dsimp only
  repeat'
    with_reducible (first
      | assumption | apply Keeps.ite | apply Keeps.dite | apply formCell_keeps | apply modWin_keeps | apply bumpN_keeps
      | (intro _) | split | refine Keeps.upd ?_ rfl)

theorem formSelected_keeps {wr : Bool} {sa sb : State} (i : Nat) (chunk : Nat) (cell : Nat) (hk : Keeps wr sa sb) :
    Keeps wr sa (formSelected i chunk cell sb) := by
  unfold formSelected
  try dsimp only
  repeat'
    with_reducible (first
      | assumption | apply Keeps.ite | apply Keeps.dite | apply formCell_keeps | (intro _) | split)

theorem formBag_keeps {wr : Bool} {sa sb : State} (i : Nat) (chunk : Nat) (cell : Nat) (hk : Keeps wr sa sb) :
    Keeps wr sa (formBag i chunk cell sb) := by
  unfold formBag
  try dsimp only
  repeat'
    with_reducible (first
      | assumption | apply Keeps.ite | apply Keeps.dite | apply formCell_keeps | apply failStep_keeps | (intro _) | split)

theorem formWeights_keeps {wr : Bool} {sa sb : State} (i : Nat) (chunk : Nat) (cell : Nat) (hk : Keeps wr sa sb) :
    Keeps wr sa (formWeights i chunk cell sb) := by
  unfold formWeights
  try dsimp only
  repeat'
    with_reducible (first
      | assumption | apply Keeps.ite | apply Keeps.dite | apply failStep_keeps | apply formCell_keeps | (intro _) | split)

theorem serviceCell_keeps {wr : Bool} {sa sb : State} (i : Nat) (chunk : Nat) (cell : Nat) (hk : Keeps wr sa sb) :
    Keeps wr sa (serviceCell i chunk cell sb) := by
  unfold serviceCell
  try dsimp only
  repeat'
    with_reducible (first
      | assumption | apply Keeps.ite | apply Keeps.dite | apply formReduced_keeps | apply formCompacted_keeps
      | apply formSelected_keeps | apply formBag_keeps | apply formWeights_keeps | (intro _) | split)

theorem checkDigests_keeps {wr : Bool} {sa sb : State} (i : Nat) (hk : Keeps wr sa sb) :
    Keeps wr sa (checkDigests i sb) := by
  unfold checkDigests
  try dsimp only
  repeat'
    with_reducible (first
      | assumption | apply Keeps.ite | apply Keeps.dite | apply setShard_keeps | apply failStep_keeps | apply bumpN_keeps
      | (intro _) | split | refine Keeps.upd ?_ rfl)

theorem verdictSent_keeps {wr : Bool} {sa sb : State} (i : Nat) (kind : Nat) (hk : Keeps wr sa sb) :
    Keeps wr sa (verdictSent i kind sb) := by
  unfold verdictSent
  try dsimp only
  repeat'
    with_reducible (first
      | assumption | apply Keeps.ite | apply Keeps.dite | apply bump_keeps | apply setWin_keeps | (intro _) | split
      | refine Keeps.upd ?_ rfl)

theorem departed_keeps {wr : Bool} {sa sb : State} (i : Nat) (e : Nat) (out : Nat) (hk : Keeps wr sa sb) :
    Keeps wr sa (departed i e out sb) := by
  unfold departed
  try dsimp only
  repeat'
    with_reducible (first
      | assumption | apply Keeps.ite | apply Keeps.dite | apply verdictSent_keeps | apply modWin_keeps | (intro _) | split
      | refine Keeps.upd ?_ rfl)

theorem noteDelivery_keeps {wr : Bool} {sa sb : State} (i : Nat) (c : Cell) (out : Nat) (hk : Keeps wr sa sb) :
    Keeps wr sa (noteDelivery i c out sb) := by
  unfold noteDelivery
  try dsimp only
  repeat'
    with_reducible (first
      | assumption | apply Keeps.ite | apply Keeps.dite | apply modWin_keeps | (intro _) | split | refine Keeps.upd ?_ rfl)

theorem slotMissed_keeps {wr : Bool} {sa sb : State} (i : Nat) (e : Nat) (hk : Keeps wr sa sb) :
    Keeps wr sa (slotMissed i e sb) := by
  unfold slotMissed
  try dsimp only
  repeat'
    with_reducible (first
      | assumption | apply Keeps.ite | apply Keeps.dite | apply failStep_keeps | apply bump_keeps | apply memberAbsent_keeps
      | (intro _) | split)

theorem applySlot_keeps {sa sb : State} (x : Shard) (k : Nat) (j : Nat) (hk : Keeps true sa sb) :
    Keeps true sa (applySlot x k j sb) := by
  unfold applySlot
  try dsimp only
  repeat'
    with_reducible (first
      | assumption | apply Keeps.ite | apply Keeps.dite | apply writeRun_keeps | (intro _) | split)

theorem applyStaging_keeps {sa sb : State} (d : Bytes) (hk : Keeps true sa sb) :
    Keeps true sa (applyStaging d sb) := by
  unfold applyStaging
  try dsimp only
  repeat'
    with_reducible (first
      | assumption | apply Keeps.ite | apply Keeps.dite | apply applySlot_keeps | apply Keeps.foldl | apply Keeps.foldl_snd
      | apply Keeps.foldl_fst | (intro _) | split)

theorem commitTick_keeps {sa sb : State} (i : Nat) (hk : Keeps true sa sb) :
    Keeps true sa (commitTick i sb) := by
  unfold commitTick
  try dsimp only
  repeat'
    with_reducible (first
      | assumption | apply Keeps.ite | apply Keeps.dite | apply advanceTo_keeps | apply failStep_keeps | apply modWin_keeps
      | apply log_keeps | apply bump_keeps | apply applyStaging_keeps | apply signal_keeps | apply unbind_keeps
      | apply freeFormed_keeps | apply clearAccs_keeps | (intro _) | split | refine Keeps.upd ?_ rfl)

theorem descriptorWrite_keeps {wr : Bool} {sa sb : State} (i : Nat) (b : Bytes) (hk : Keeps wr sa sb) :
    Keeps wr sa (descriptorWrite i b sb) := by
  unfold descriptorWrite
  try dsimp only
  repeat'
    with_reducible (first
      | assumption | apply Keeps.ite | apply Keeps.dite | apply endOp_keeps | apply refuseRule_keeps | apply modWin_keeps
      | (intro _) | split | refine Keeps.upd ?_ rfl)

theorem gridShapeWrite_keeps {wr : Bool} {sa sb : State} (src : Route) (g : Nat) (v : Nat) (hk : Keeps wr sa sb) :
    Keeps wr sa (gridShapeWrite src g v sb) := by
  unfold gridShapeWrite
  try dsimp only
  repeat'
    with_reducible (first
      | assumption | apply Keeps.ite | apply Keeps.dite | apply refuseRule_keeps | apply odSet_keeps | apply clamped_keeps
      | apply Keeps.foldl | apply Keeps.foldl_snd | apply Keeps.foldl_fst | (intro _) | split)

theorem gridMapWrite_keeps {wr : Bool} {sa sb : State} (g : Nat) (b : Bytes) (hk : Keeps wr sa sb) :
    Keeps wr sa (gridMapWrite g b sb) := by
  unfold gridMapWrite
  try dsimp only
  repeat'
    with_reducible (first
      | assumption | apply Keeps.ite | apply Keeps.dite | apply refuseRule_keeps | apply modColl_keeps | (intro _) | split
      | refine Keeps.upd ?_ rfl)

theorem reservationWrite_keeps {wr : Bool} {sa sb : State} (src : Route) (v : Nat) (hk : Keeps wr sa sb) :
    Keeps wr sa (reservationWrite src v sb) := by
  unfold reservationWrite
  try dsimp only
  repeat'
    with_reducible (first
      | assumption | apply Keeps.ite | apply Keeps.dite | apply refuseCondition_keeps | apply keepTwo_keeps | (intro _)
      | split)

end Sys2Proof.Machine
end

