-- ==== Sys2Proof/Laws/KeepStall.lean ====
section
/-! SUPPORT. What the operations of Machine/Stall.lean keep. -/

namespace Sys2Proof.Machine

open Sys2Proof

set_option linter.unusedTactic false
set_option linter.unreachableTactic false

theorem setVoq_keeps {wr : Bool} {sa sb : State} (k : Nat) (l : List QEntry) (hk : Keeps wr sa sb) :
    Keeps wr sa (setVoq k l sb) := by
  unfold setVoq
  try dsimp only
  repeat'
    with_reducible (first
      | assumption | apply Keeps.ite | apply Keeps.dite | (intro _) | split | refine Keeps.upd ?_ rfl)

theorem enqueue_keeps {wr : Bool} {sa sb : State} (input : Nat) (out : Nat) (store : Nat) (index : Nat) (c : Cell)
    (hk : Keeps wr sa sb) :
    Keeps wr sa (enqueue input out store index c sb) := by
  unfold enqueue
  try dsimp only
  repeat'
    with_reducible (first
      | assumption | apply Keeps.ite | apply Keeps.dite | apply addHolders_keeps | apply setVoq_keeps | (intro _) | split)

theorem giveBack_keeps {wr : Bool} {sa sb : State} (store : Nat) (index : Nat) (hk : Keeps wr sa sb) :
    Keeps wr sa (giveBack store index sb) := by
  unfold giveBack
  try dsimp only
  repeat'
    with_reducible (first
      | assumption | apply Keeps.ite | apply Keeps.dite | apply freeBuf_keeps | apply releaseCopy_keeps | (intro _) | split)

theorem countDropped_keeps {wr : Bool} {sa sb : State} (p : Nat) (hk : Keeps wr sa sb) :
    Keeps wr sa (countDropped p sb) := by
  unfold countDropped
  try dsimp only
  repeat'
    with_reducible (first
      | assumption | apply Keeps.ite | apply Keeps.dite | apply modPort_keeps | (intro _) | split | refine Keeps.upd ?_ rfl)

theorem forward_keeps {wr : Bool} {sa sb : State} (fr : From) (input : Nat) (store : Nat) (index : Nat) (c : Cell)
    (hk : Keeps wr sa sb) :
    Keeps wr sa (forward fr input store index c sb) := by
  unfold forward
  try dsimp only
  repeat'
    with_reducible (first
      | assumption | apply Keeps.ite | apply Keeps.dite | apply enqueue_keeps | apply giveBack_keeps | apply bump_keeps
      | apply countDropped_keeps | (intro _) | split)

theorem answerIn_keeps {wr : Bool} {sa sb : State} (input : Nat) (store : Nat) (index : Nat) (c : Cell)
    (hk : Keeps wr sa sb) :
    Keeps wr sa (answerIn input store index c sb) := by
  unfold answerIn
  try dsimp only
  repeat'
    with_reducible (first
      | assumption | apply Keeps.ite | apply Keeps.dite | apply forward_keeps | (intro _) | split)

theorem answerFromReply_keeps {wr : Bool} {sa sb : State} (input : Nat) (c : Cell) (hk : Keeps wr sa sb) :
    Keeps wr sa (answerFromReply input c sb) := by
  unfold answerFromReply
  try dsimp only
  repeat'
    with_reducible (first
      | assumption | apply Keeps.ite | apply Keeps.dite | apply answerIn_keeps | apply setBuf_keeps | (intro _) | split
      | refine Keeps.upd ?_ rfl)

theorem serveReplies_keeps {wr : Bool} {sa sb : State} (hk : Keeps wr sa sb) :
    Keeps wr sa (serveReplies sb) := by
  unfold serveReplies
  try dsimp only
  repeat'
    with_reducible (first
      | assumption | apply Keeps.ite | apply Keeps.dite | apply answerFromReply_keeps | apply Keeps.foldl
      | apply Keeps.foldl_snd | apply Keeps.foldl_fst | (intro _) | split | refine Keeps.upd ?_ rfl)

theorem combineOrQueue_keeps {wr : Bool} {sa sb : State} (input : Nat) (out : Nat) (store : Nat) (index : Nat) (c : Cell)
    (hk : Keeps wr sa sb) :
    Keeps wr sa (combineOrQueue input out store index c sb) := by
  unfold combineOrQueue
  try dsimp only
  repeat'
    with_reducible (first
      | assumption | apply Keeps.ite | apply Keeps.dite | apply bump_keeps | apply giveBack_keeps | apply enqueue_keeps
      | (intro _) | split | refine Keeps.upd ?_ rfl)

theorem noteDeparture_keeps {wr : Bool} {sa sb : State} (out : Nat) (c : Cell) (hk : Keeps wr sa sb) :
    Keeps wr sa (noteDeparture out c sb) := by
  unfold noteDeparture
  try dsimp only
  repeat'
    with_reducible (first
      | assumption | apply Keeps.ite | apply Keeps.dite | apply departed_keeps | (intro _) | split | refine Keeps.upd ?_ rfl)

theorem takeResponse_keeps {wr : Bool} {sa sb : State} (p : Nat) (store : Nat) (index : Nat) (k : Nat) (e : CombEntry)
    (r : Cell) (hk : Keeps wr sa sb) :
    Keeps wr sa (takeResponse p store index k e r sb) := by
  unfold takeResponse
  try dsimp only
  repeat'
    with_reducible (first
      | assumption | apply Keeps.ite | apply Keeps.dite | apply addHolders_keeps | apply forward_keeps | apply giveBack_keeps
      | apply Keeps.foldl | apply Keeps.foldl_snd | apply Keeps.foldl_fst | (intro _) | split | refine Keeps.upd ?_ rfl)

theorem memberReset_keeps {wr : Bool} {sa sb : State} (e : CombEntry) (j : Joiner) (hk : Keeps wr sa sb) :
    Keeps wr sa (memberReset e j sb) := by
  unfold memberReset
  try dsimp only
  repeat'
    with_reducible (first
      | assumption | apply Keeps.ite | apply Keeps.dite | apply bump_keeps | apply answerFromReply_keeps | (intro _) | split
      | refine Keeps.upd ?_ rfl)

theorem combineTimeout_keeps {wr : Bool} {sa sb : State} (k : Nat) (hk : Keeps wr sa sb) :
    Keeps wr sa (combineTimeout k sb) := by
  unfold combineTimeout
  try dsimp only
  repeat'
    with_reducible (first
      | assumption | apply Keeps.ite | apply Keeps.dite | apply departed_keeps | apply bump_keeps | (intro _) | split
      | refine Keeps.upd ?_ rfl)

theorem flushEntries_keeps {wr : Bool} {sa sb : State} (o : Nat) (hk : Keeps wr sa sb) :
    Keeps wr sa (flushEntries o sb) := by
  unfold flushEntries
  try dsimp only
  repeat'
    with_reducible (first
      | assumption | apply Keeps.ite | apply Keeps.dite | apply departed_keeps | apply memberReset_keeps | apply Keeps.foldl
      | apply Keeps.foldl_snd | apply Keeps.foldl_fst | (intro _) | split | refine Keeps.upd ?_ rfl)

theorem flushCell_keeps {wr : Bool} {sa sb : State} (o : Nat) (input : Nat) (q : QEntry) (hk : Keeps wr sa sb) :
    Keeps wr sa (flushCell o input q sb) := by
  unfold flushCell
  try dsimp only
  repeat'
    with_reducible (first
      | assumption | apply Keeps.ite | apply Keeps.dite | apply bump_keeps | apply answerIn_keeps | apply giveBack_keeps
      | (intro _) | split)

theorem flushQueues_keeps {wr : Bool} {sa sb : State} (o : Nat) (hk : Keeps wr sa sb) :
    Keeps wr sa (flushQueues o sb) := by
  unfold flushQueues
  try dsimp only
  repeat'
    with_reducible (first
      | assumption | apply Keeps.ite | apply Keeps.dite | apply flushEntries_keeps | apply flushCell_keeps
      | apply Keeps.foldl | apply Keeps.foldl_snd | apply Keeps.foldl_fst | (intro _) | split | refine Keeps.upd ?_ rfl)

theorem vc11AgeDrop_keeps {wr : Bool} {sa sb : State} (input : Nat) (output : Nat) (hk : Keeps wr sa sb) :
    Keeps wr sa (vc11AgeDrop input output sb) := by
  unfold vc11AgeDrop
  try dsimp only
  repeat'
    with_reducible (first
      | assumption | apply Keeps.ite | apply Keeps.dite | apply giveBack_keeps | apply setVoq_keeps | apply bump_keeps
      | apply advanceTo_keeps | (intro _) | split)

theorem dropBad_keeps {wr : Bool} {sa sb : State} (stall : Nat) (index : Nat) (hk : Keeps wr sa sb) :
    Keeps wr sa (dropBad stall index sb) := by
  unfold dropBad
  try dsimp only
  repeat'
    with_reducible (first
      | assumption | apply Keeps.ite | apply Keeps.dite | apply bump_keeps | apply freeBuf_keeps | (intro _) | split
      | refine Keeps.upd ?_ rfl)

end Sys2Proof.Machine
end

