-- ==== Sys2Proof/Laws/KeepGrotto.lean ====
section
/-! SUPPORT. What the operations of Machine/Grotto.lean keep. -/

namespace Sys2Proof.Machine

open Sys2Proof

set_option linter.unusedTactic false
set_option linter.unreachableTactic false

theorem modGrotto_keeps {wr : Bool} {sa sb : State} (f : Grotto → Grotto) (hk : Keeps wr sa sb) :
    Keeps wr sa (modGrotto f sb) := by
  unfold modGrotto
  try dsimp only
  repeat'
    with_reducible (first
      | assumption | apply Keeps.ite | apply Keeps.dite | (intro _) | split | refine Keeps.upd ?_ rfl)

theorem setDir_keeps {wr : Bool} {sa sb : State} (e : Nat) (d : DirEntry) (hk : Keeps wr sa sb) :
    Keeps wr sa (setDir e d sb) := by
  unfold setDir
  try dsimp only
  repeat'
    with_reducible (first
      | assumption | apply Keeps.ite | apply Keeps.dite | apply modGrotto_keeps | (intro _) | split
      | refine Keeps.upd ?_ rfl)

theorem makeLost_keeps {wr : Bool} {sa sb : State} (e : Nat) (m : Nat) (hk : Keeps wr sa sb) :
    Keeps wr sa (makeLost e m sb) := by
  unfold makeLost
  try dsimp only
  repeat'
    with_reducible (first
      | assumption | apply Keeps.ite | apply Keeps.dite | apply log_keeps | apply bump_keeps | apply setDir_keeps | (intro _)
      | split)

theorem loseEntry_keeps {wr : Bool} {sa sb : State} (m : Nat) (e : Nat) (hk : Keeps wr sa sb) :
    Keeps wr sa (loseEntry m e sb) := by
  unfold loseEntry
  try dsimp only
  repeat'
    with_reducible (first
      | assumption | apply Keeps.ite | apply Keeps.dite | apply makeLost_keeps | apply setDir_keeps | (intro _) | split
      | refine Keeps.upd ?_ rfl)

theorem loseOwner_keeps {wr : Bool} {sa sb : State} (m : Nat) (e : Nat) (hk : Keeps wr sa sb) :
    Keeps wr sa (loseOwner m e sb) := by
  unfold loseOwner
  try dsimp only
  repeat'
    with_reducible (first
      | assumption | apply Keeps.ite | apply Keeps.dite | apply modGrotto_keeps | (intro _) | split
      | refine Keeps.upd ?_ rfl)

theorem applyWalks_keeps {wr : Bool} {sa sb : State} (e : Nat) (hk : Keeps wr sa sb) :
    Keeps wr sa (applyWalks e sb) := by
  unfold applyWalks
  try dsimp only
  repeat'
    with_reducible (first
      | assumption | apply Keeps.ite | apply Keeps.dite | apply loseEntry_keeps | apply Keeps.foldl | apply Keeps.foldl_snd
      | apply Keeps.foldl_fst | (intro _) | split)

theorem dropBlock_keeps {sa sb : State} (x : Nat × Bool) (hk : Keeps true sa sb) :
    Keeps true sa (dropBlock x sb) := by
  unfold dropBlock
  try dsimp only
  repeat'
    with_reducible (first
      | assumption | apply Keeps.ite | apply Keeps.dite | apply modGrotto_keeps | apply putLine_keeps | (intro _) | split
      | refine Keeps.upd ?_ rfl)

theorem repairBlock_keeps {wr : Bool} {sa sb : State} (b : Nat) (hk : Keeps wr sa sb) :
    Keeps wr sa (repairBlock b sb) := by
  unfold repairBlock
  try dsimp only
  repeat'
    with_reducible (first
      | assumption | apply Keeps.ite | apply Keeps.dite | apply log_keeps | apply bump_keeps | apply modGrotto_keeps
      | apply Keeps.foldl | apply Keeps.foldl_snd | apply Keeps.foldl_fst | (intro _) | split | refine Keeps.upd ?_ rfl)

theorem useBlock_keeps {sa sb : State} (e : Nat) (dirty : Bool) (hk : Keeps true sa sb) :
    Keeps true sa (useBlock e dirty sb) := by
  unfold useBlock
  try dsimp only
  repeat'
    with_reducible (first
      | assumption | apply Keeps.ite | apply Keeps.dite | apply modGrotto_keeps | apply bump_keeps | apply dropBlock_keeps
      | apply readLine_keeps | apply repairBlock_keeps | (intro _) | split | refine Keeps.upd ?_ rfl)

theorem writeDir_keeps {sa sb : State} (e : Nat) (d : DirEntry) (hk : Keeps true sa sb) :
    Keeps true sa (writeDir e d sb) := by
  unfold writeDir
  try dsimp only
  repeat'
    with_reducible (first
      | assumption | apply Keeps.ite | apply Keeps.dite | apply useBlock_keeps | apply setDir_keeps | (intro _) | split)

theorem probe_keeps {wr : Bool} {sa sb : State} (m : Nat) (e : Nat) (kind : Nat) (hk : Keeps wr sa sb) :
    Keeps wr sa (probe m e kind sb).2 := by
  unfold probe
  try dsimp only
  repeat'
    with_reducible (first
      | assumption | apply Keeps.ite | apply Keeps.dite | apply bump_keeps | apply modGrotto_keeps | apply enqueue_keeps
      | (intro _) | split | refine Keeps.upd ?_ rfl)

theorem probeAll_keeps {wr : Bool} {sa sb : State} (ms : List Nat) (e : Nat) (kind : Nat) (hk : Keeps wr sa sb) :
    Keeps wr sa (probeAll ms e kind sb).2 := by
  unfold probeAll
  try dsimp only
  repeat'
    with_reducible (first
      | assumption | apply Keeps.ite | apply Keeps.dite | apply probe_keeps | apply Keeps.foldl | apply Keeps.foldl_snd
      | apply Keeps.foldl_fst | (intro _) | split)

theorem sendWriteBack_keeps {wr : Bool} {sa sb : State} (e : Nat) (data : Bytes) (hk : Keeps wr sa sb) :
    Keeps wr sa (sendWriteBack e data sb).2 := by
  unfold sendWriteBack
  try dsimp only
  repeat'
    with_reducible (first
      | assumption | apply Keeps.ite | apply Keeps.dite | apply setCount_keeps | apply bump_keeps | apply launch_keeps
      | apply tagUsed_keeps | (intro _) | split)

theorem setBusy_keeps {wr : Bool} {sa sb : State} (e : Nat) (b : Busy) (hk : Keeps wr sa sb) :
    Keeps wr sa (setBusy e b sb) := by
  unfold setBusy
  try dsimp only
  repeat'
    with_reducible (first
      | assumption | apply Keeps.ite | apply Keeps.dite | apply modGrotto_keeps | (intro _) | split
      | refine Keeps.upd ?_ rfl)

theorem settle_keeps {wr : Bool} {sa sb : State} (e : Nat) (hk : Keeps wr sa sb) :
    Keeps wr sa (settle e sb) := by
  unfold settle
  try dsimp only
  repeat'
    with_reducible (first
      | assumption | apply Keeps.ite | apply Keeps.dite | apply progress_keeps | apply modGrotto_keeps | (intro _) | split
      | refine Keeps.upd ?_ rfl)

theorem forwardRequest_keeps {wr : Bool} {sa sb : State} (input : Nat) (q : QEntry) (entry : Option Nat)
    (hk : Keeps wr sa sb) :
    Keeps wr sa (forwardRequest input q entry sb) := by
  unfold forwardRequest
  try dsimp only
  repeat'
    with_reducible (first
      | assumption | apply Keeps.ite | apply Keeps.dite | apply modGrotto_keeps | apply enqueue_keeps | (intro _) | split
      | refine Keeps.upd ?_ rfl)

theorem windowRelease_keeps {wr : Bool} {sa sb : State} (c : Cell) (hk : Keeps wr sa sb) :
    Keeps wr sa (windowRelease c sb) := by
  unfold windowRelease
  try dsimp only
  repeat'
    with_reducible (first
      | assumption | apply Keeps.ite | apply Keeps.dite | apply recordRelease_keeps | (intro _) | split
      | refine Keeps.upd ?_ rfl)

theorem probesDone_keeps {sa sb : State} (e : Nat) (hk : Keeps true sa sb) :
    Keeps true sa (probesDone e sb) := by
  unfold probesDone
  try dsimp only
  repeat'
    with_reducible (first
      | assumption | apply Keeps.ite | apply Keeps.dite | apply writeDir_keeps | apply settle_keeps | apply bump_keeps
      | apply setBusy_keeps | apply sendWriteBack_keeps | apply answerIn_keeps | apply forwardRequest_keeps
      | apply windowRelease_keeps | (intro _) | split | refine Keeps.upd ?_ rfl)

theorem probeAnswered_keeps {sa sb : State} (tag : Nat) (data : Option Bytes) (hk : Keeps true sa sb) :
    Keeps true sa (probeAnswered tag data sb) := by
  unfold probeAnswered
  try dsimp only
  repeat'
    with_reducible (first
      | assumption | apply Keeps.ite | apply Keeps.dite | apply modGrotto_keeps | apply setBusy_keeps
      | apply probesDone_keeps | (intro _) | split | refine Keeps.upd ?_ rfl)

theorem pumpWork_keeps {sa sb : State} (fuel : Nat) (hk : Keeps true sa sb) : Keeps true sa (pumpWork fuel sb) := by
  induction fuel generalizing sb with
  | zero => exact hk
  | succ fuel ih =>
    unfold pumpWork
    split
    · exact hk
    · rename_i w _
      dsimp only
      have a := applyWalks_keeps w.2.1 (modGrotto_keeps (fun g => { g with work := g.work.erase w }) hk)
      generalize applyWalks w.2.1 (modGrotto (fun g => { g with work := g.work.erase w }) sb) = u at a ⊢
      apply ih
      apply Keeps.ite
      · exact fun _ => probesDone_keeps _ (setBusy_keeps _ _ (probeAll_keeps _ _ _ a))
      · exact fun _ => setBusy_keeps _ _ (probeAll_keeps _ _ _ a)

theorem countAccess_keeps {wr : Bool} {sa sb : State} (c : Cell) (grant : Nat) (hk : Keeps wr sa sb) :
    Keeps wr sa (countAccess c grant sb) := by
  unfold countAccess
  try dsimp only
  repeat'
    with_reducible (first
      | assumption | apply Keeps.ite | apply Keeps.dite | apply bump_keeps | (intro _) | split)

theorem beginAccess_keeps {sa sb : State} (input : Nat) (q : QEntry) (e : Nat) (hk : Keeps true sa sb) :
    Keeps true sa (beginAccess input q e sb) := by
  unfold beginAccess
  try dsimp only
  repeat'
    with_reducible (first
      | assumption | apply Keeps.ite | apply Keeps.dite | apply useBlock_keeps | apply applyWalks_keeps
      | apply answerIn_keeps | apply bump_keeps | apply countAccess_keeps | apply checkAcquire_keeps | apply probeAll_keeps
      | apply setBusy_keeps | apply probesDone_keeps | (intro _) | split | refine Keeps.upd ?_ rfl)

theorem directoryAccess_keeps {sa sb : State} (hk : Keeps true sa sb) :
    Keeps true sa (directoryAccess sb) := by
  unfold directoryAccess
  try dsimp only
  repeat'
    with_reducible (first
      | assumption | apply Keeps.ite | apply Keeps.dite | apply pumpWork_keeps | apply modGrotto_keeps
      | apply beginAccess_keeps | apply combineOrQueue_keeps | (intro _) | split | refine Keeps.upd ?_ rfl)

theorem directoryTake_keeps {wr : Bool} {sa sb : State} (input : Nat) (out : Nat) (store : Nat) (index : Nat) (c : Cell)
    (hk : Keeps wr sa sb) :
    Keeps wr sa (directoryTake input out store index c sb) := by
  unfold directoryTake
  try dsimp only
  repeat'
    with_reducible (first
      | assumption | apply Keeps.ite | apply Keeps.dite | apply modGrotto_keeps | apply answerIn_keeps | apply bump_keeps
      | apply enqueue_keeps | apply combineOrQueue_keeps | (intro _) | split | refine Keeps.upd ?_ rfl)

theorem takeHeads_keeps {wr : Bool} {sa sb : State} (hk : Keeps wr sa sb) :
    Keeps wr sa (takeHeads sb) := by
  unfold takeHeads
  try dsimp only
  repeat'
    with_reducible (first
      | assumption | apply Keeps.ite | apply Keeps.dite | apply modGrotto_keeps | apply setVoq_keeps | apply Keeps.foldl
      | apply Keeps.foldl_snd | apply Keeps.foldl_fst | (intro _) | split | refine Keeps.upd ?_ rfl)

theorem answered_keeps {wr : Bool} {sa sb : State} (e : Nat) (hk : Keeps wr sa sb) :
    Keeps wr sa (answered e sb) := by
  unfold answered
  try dsimp only
  repeat'
    with_reducible (first
      | assumption | apply Keeps.ite | apply Keeps.dite | apply settle_keeps | apply setBusy_keeps | (intro _) | split
      | refine Keeps.upd ?_ rfl)

theorem grottoDepart_keeps {wr : Bool} {sa sb : State} (out : Nat) (r : Cell) (hk : Keeps wr sa sb) :
    Keeps wr sa (grottoDepart out r sb) := by
  unfold grottoDepart
  try dsimp only
  repeat'
    with_reducible (first
      | assumption | apply Keeps.ite | apply Keeps.dite | apply answered_keeps | apply modGrotto_keeps | apply Keeps.foldl
      | apply Keeps.foldl_snd | apply Keeps.foldl_fst | (intro _) | split | refine Keeps.upd ?_ rfl)

theorem writeBackDone_keeps {wr : Bool} {sa sb : State} (e : Nat) (hk : Keeps wr sa sb) :
    Keeps wr sa (writeBackDone e sb) := by
  unfold writeBackDone
  try dsimp only
  repeat'
    with_reducible (first
      | assumption | apply Keeps.ite | apply Keeps.dite | apply forwardRequest_keeps | apply windowRelease_keeps
      | apply setBusy_keeps | apply settle_keeps | (intro _) | split | refine Keeps.upd ?_ rfl)

theorem snpReceive_keeps {wr : Bool} {sa sb : State} (p : Nat) (c : Cell) (hk : Keeps wr sa sb) :
    Keeps wr sa (snpReceive p c sb) := by
  unfold snpReceive
  try dsimp only
  repeat'
    with_reducible (first
      | assumption | apply Keeps.ite | apply Keeps.dite | apply emit_keeps | apply modGrotto_keeps | (intro _) | split
      | refine Keeps.upd ?_ rfl)

theorem memberDrop_keeps {wr : Bool} {sa sb : State} (p : Nat) (hk : Keeps wr sa sb) :
    Keeps wr sa (memberDrop p sb) := by
  unfold memberDrop
  try dsimp only
  repeat'
    with_reducible (first
      | assumption | apply Keeps.ite | apply Keeps.dite | apply modGrotto_keeps | apply emit_keeps | apply report_keeps
      | apply Keeps.foldl | apply Keeps.foldl_snd | apply Keeps.foldl_fst | (intro _) | split | refine Keeps.upd ?_ rfl)

theorem cleanProbes_keeps {sa sb : State} (m : Nat) (hk : Keeps true sa sb) :
    Keeps true sa (cleanProbes m sb) := by
  unfold cleanProbes
  try dsimp only
  repeat'
    with_reducible (first
      | assumption | apply Keeps.ite | apply Keeps.dite | apply probeAnswered_keeps | apply Keeps.foldl
      | apply Keeps.foldl_snd | apply Keeps.foldl_fst | (intro _) | split)

theorem loseMember_keeps {sa sb : State} (m : Nat) (hk : Keeps true sa sb) :
    Keeps true sa (loseMember m sb) := by
  unfold loseMember
  try dsimp only
  repeat'
    with_reducible (first
      | assumption | apply Keeps.ite | apply Keeps.dite | apply cleanProbes_keeps | apply modGrotto_keeps | (intro _) | split
      | refine Keeps.upd ?_ rfl)

theorem walkStep_keeps {wr : Bool} {sa sb : State} (m : Nat) (pos : Nat) (hk : Keeps wr sa sb) :
    Keeps wr sa (walkStep m pos sb) := by
  unfold walkStep
  try dsimp only
  repeat'
    with_reducible (first
      | assumption | apply Keeps.ite | apply Keeps.dite | apply modGrotto_keeps | apply loseOwner_keeps
      | apply loseEntry_keeps | apply Keeps.foldl | apply Keeps.foldl_snd | apply Keeps.foldl_fst | (intro _) | split
      | refine Keeps.upd ?_ rfl)

theorem lossWalkStep_keeps {sa sb : State} (hk : Keeps true sa sb) :
    Keeps true sa (lossWalkStep sb) := by
  unfold lossWalkStep
  try dsimp only
  repeat'
    with_reducible (first
      | assumption | apply Keeps.ite | apply Keeps.dite | apply pumpWork_keeps | apply walkStep_keeps | apply Keeps.foldl
      | apply Keeps.foldl_snd | apply Keeps.foldl_fst | (intro _) | split)

theorem snrReceive_keeps {sa sb : State} (c : Cell) (hk : Keeps true sa sb) :
    Keeps true sa (snrReceive c sb) := by
  unfold snrReceive
  try dsimp only
  repeat'
    with_reducible (first
      | assumption | apply Keeps.ite | apply Keeps.dite | apply takeFrom_keeps | apply bump_keeps | apply pumpWork_keeps
      | apply probeAnswered_keeps | (intro _) | split)

theorem forwardTimeout_keeps {wr : Bool} {sa sb : State} (e : Nat) (hk : Keeps wr sa sb) :
    Keeps wr sa (forwardTimeout e sb) := by
  unfold forwardTimeout
  try dsimp only
  repeat'
    with_reducible (first
      | assumption | apply Keeps.ite | apply Keeps.dite | apply modGrotto_keeps | apply bump_keeps | apply settle_keeps
      | apply setBusy_keeps | (intro _) | split | refine Keeps.upd ?_ rfl)

theorem probeTimeout_keeps {sa sb : State} (tag : Nat) (hk : Keeps true sa sb) :
    Keeps true sa (probeTimeout tag sb) := by
  unfold probeTimeout
  try dsimp only
  repeat'
    with_reducible (first
      | assumption | apply Keeps.ite | apply Keeps.dite | apply loseMember_keeps | (intro _) | split)

theorem directoryEnable_keeps {wr : Bool} {sa sb : State} (src : Route) (v : Nat) (hk : Keeps wr sa sb) :
    Keeps wr sa (directoryEnable src v sb) := by
  unfold directoryEnable
  try dsimp only
  repeat'
    with_reducible (first
      | assumption | apply Keeps.ite | apply Keeps.dite | apply beginOp_keeps | apply keepScalar_keeps
      | apply modGrotto_keeps | (intro _) | split | refine Keeps.upd ?_ rfl)

theorem directoryDisable_keeps {wr : Bool} {sa sb : State} (hk : Keeps wr sa sb) :
    Keeps wr sa (directoryDisable sb) := by
  unfold directoryDisable
  try dsimp only
  repeat'
    with_reducible (first
      | assumption | apply Keeps.ite | apply Keeps.dite | apply beginOp_keeps | apply refuseRule_keeps | apply odSet_keeps
      | (intro _) | split)

theorem recallWrite_keeps {sa sb : State} (src : Route) (v : Nat) (hk : Keeps true sa sb) :
    Keeps true sa (recallWrite src v sb) := by
  unfold recallWrite
  try dsimp only
  repeat'
    with_reducible (first
      | assumption | apply Keeps.ite | apply Keeps.dite | apply onlyOne_keeps | apply beginOp_keeps | apply pumpWork_keeps
      | apply modGrotto_keeps | (intro _) | split | refine Keeps.upd ?_ rfl)

theorem windowEntryWrite_keeps {wr : Bool} {sa sb : State} (src : Route) (k : Nat) (v : Nat) (hk : Keeps wr sa sb) :
    Keeps wr sa (windowEntryWrite src k v sb) := by
  unfold windowEntryWrite
  try dsimp only
  repeat'
    with_reducible (first
      | assumption | apply Keeps.ite | apply Keeps.dite | apply beginOp_keeps | apply refuseCondition_keeps
      | apply reportClamps_keeps | apply odSet_keeps | (intro _) | split)

end Sys2Proof.Machine
end

