-- ==== Sys2Proof/Laws/KeepTranslate.lean ====
section
/-! SUPPORT. What the operations of Machine/Translate.lean keep. -/

namespace Sys2Proof.Machine

open Sys2Proof

set_option linter.unusedTactic false
set_option linter.unreachableTactic false

theorem modXlat_keeps {wr : Bool} {sa sb : State} (f : Xlat → Xlat) (hk : Keeps wr sa sb) :
    Keeps wr sa (modXlat f sb) := by
  unfold modXlat
  try dsimp only
  repeat'
    with_reducible (first
      | assumption | apply Keeps.ite | apply Keeps.dite | (intro _) | split | refine Keeps.upd ?_ rfl)

theorem suspendCtx_keeps {wr : Bool} {sa sb : State} (w : Waiter) (hk : Keeps wr sa sb) :
    Keeps wr sa (suspendCtx w sb) := by
  unfold suspendCtx
  try dsimp only
  repeat'
    with_reducible (first
      | assumption | apply Keeps.ite | apply Keeps.dite | apply modCtx_keeps | (intro _) | split | refine Keeps.upd ?_ rfl)

theorem resumeWaiter_keeps {wr : Bool} {sa sb : State} (w : Waiter) (hk : Keeps wr sa sb) :
    Keeps wr sa (resumeWaiter w sb) := by
  unfold resumeWaiter
  try dsimp only
  repeat'
    with_reducible (first
      | assumption | apply Keeps.ite | apply Keeps.dite | apply modStream_keeps | apply modCopy_keeps | apply modCtx_keeps
      | (intro _) | split | refine Keeps.upd ?_ rfl)

theorem failWaiter_keeps {wr : Bool} {sa sb : State} (code : Nat) (va : Nat) (w : Waiter) (hk : Keeps wr sa sb) :
    Keeps wr sa (failWaiter code va w sb) := by
  unfold failWaiter
  try dsimp only
  repeat'
    with_reducible (first
      | assumption | apply Keeps.ite | apply Keeps.dite | apply ctxFault_keeps | (intro _) | split)

theorem pumpTreqs_keeps {wr : Bool} {sa sb : State} (hk : Keeps wr sa sb) :
    Keeps wr sa (pumpTreqs sb) := by
  unfold pumpTreqs
  try dsimp only
  repeat'
    with_reducible (first
      | assumption | apply Keeps.ite | apply Keeps.dite | apply emit_keeps | apply bump_keeps | apply modXlat_keeps
      | apply Keeps.foldl | apply Keeps.foldl_snd | apply Keeps.foldl_fst | (intro _) | split | refine Keeps.upd ?_ rfl)

theorem missWait_keeps {wr : Bool} {sa sb : State} (pasid : Nat) (va : Nat) (final : Bool) (ws : List (Waiter × Nat))
    (hk : Keeps wr sa sb) :
    Keeps wr sa (missWait pasid va final ws sb) := by
  unfold missWait
  try dsimp only
  repeat'
    with_reducible (first
      | assumption | apply Keeps.ite | apply Keeps.dite | apply modXlat_keeps | apply pumpTreqs_keeps | (intro _) | split
      | refine Keeps.upd ?_ rfl)

theorem endTreq_keeps {wr : Bool} {sa sb : State} (r : TReq) (hk : Keeps wr sa sb) :
    Keeps wr sa (endTreq r sb) := by
  unfold endTreq
  try dsimp only
  repeat'
    with_reducible (first
      | assumption | apply Keeps.ite | apply Keeps.dite | apply pumpTreqs_keeps | apply modXlat_keeps | (intro _) | split
      | refine Keeps.upd ?_ rfl)

theorem pageFault_keeps {wr : Bool} {sa sb : State} (pasid : Nat) (va : Nat) (need : Nat) (w : Waiter)
    (hk : Keeps wr sa sb) :
    Keeps wr sa (pageFault pasid va need w sb) := by
  unfold pageFault
  try dsimp only
  repeat'
    with_reducible (first
      | assumption | apply Keeps.ite | apply Keeps.dite | apply failWaiter_keeps | apply suspendCtx_keeps | apply bump_keeps
      | apply modXlat_keeps | apply emit_keeps | (intro _) | split | refine Keeps.upd ?_ rfl)

theorem endPage_keeps {wr : Bool} {sa sb : State} (i : Nat) (hk : Keeps wr sa sb) :
    Keeps wr sa (endPage i sb) := by
  unfold endPage
  try dsimp only
  repeat'
    with_reducible (first
      | assumption | apply Keeps.ite | apply Keeps.dite | apply modXlat_keeps | apply pageFault_keeps | apply Keeps.foldl
      | apply Keeps.foldl_snd | apply Keeps.foldl_fst | (intro _) | split | refine Keeps.upd ?_ rfl)

theorem translate_keeps {wr : Bool} {sa sb : State} (w : Waiter) (space : Nat) (need : Nat) (pasid : Nat) (va : Nat)
    (hk : Keeps wr sa sb) :
    Keeps wr sa (translate w space need pasid va sb).2 := by
  unfold translate
  try dsimp only
  repeat'
    with_reducible (first
      | assumption | apply Keeps.ite | apply Keeps.dite | apply modStream_keeps | apply modCopy_keeps | apply bump_keeps
      | apply modXlat_keeps | apply pageFault_keeps | apply missWait_keeps | (intro _) | split | refine Keeps.upd ?_ rfl)

theorem failAll_keeps {wr : Bool} {sa sb : State} (ws : List (Waiter × Nat)) (code : Nat) (va : Nat)
    (hk : Keeps wr sa sb) :
    Keeps wr sa (failAll ws code va sb) := by
  unfold failAll
  try dsimp only
  repeat'
    with_reducible (first
      | assumption | apply Keeps.ite | apply Keeps.dite | apply failWaiter_keeps | apply Keeps.foldl | apply Keeps.foldl_snd
      | apply Keeps.foldl_fst | (intro _) | split)

theorem installGrant_keeps {wr : Bool} {sa sb : State} (q : TReq) (r : Bool) (w : Bool) (log2 : Nat) (addr : Nat)
    (hk : Keeps wr sa sb) :
    Keeps wr sa (installGrant q r w log2 addr sb) := by
  unfold installGrant
  try dsimp only
  repeat'
    with_reducible (first
      | assumption | apply Keeps.ite | apply Keeps.dite | apply failAll_keeps | apply bump_keeps | apply modXlat_keeps
      | apply failWaiter_keeps | apply resumeWaiter_keeps | apply Keeps.foldl | apply Keeps.foldl_snd
      | apply Keeps.foldl_fst | (intro _) | split)

theorem atsCompletion_keeps {wr : Bool} {sa sb : State} (pasid : Nat) (vp : Nat) (res : AtsResult) (hk : Keeps wr sa sb) :
    Keeps wr sa (atsCompletion pasid vp res sb) := by
  unfold atsCompletion
  try dsimp only
  repeat'
    with_reducible (first
      | assumption | apply Keeps.ite | apply Keeps.dite | apply emit_keeps | apply endTreq_keeps | apply failAll_keeps
      | apply bump_keeps | apply missWait_keeps | apply pageFault_keeps | apply installGrant_keeps | apply Keeps.foldl
      | apply Keeps.foldl_snd | apply Keeps.foldl_fst | (intro _) | split)

theorem atsTimeout_keeps {wr : Bool} {sa sb : State} (pasid : Nat) (vp : Nat) (hk : Keeps wr sa sb) :
    Keeps wr sa (atsTimeout pasid vp sb) := by
  unfold atsTimeout
  try dsimp only
  repeat'
    with_reducible (first
      | assumption | apply Keeps.ite | apply Keeps.dite | apply failAll_keeps | apply emit_keeps | apply bump_keeps
      | apply endTreq_keeps | (intro _) | split)

theorem stopPages_keeps {wr : Bool} {sa sb : State} (hk : Keeps wr sa sb) :
    Keeps wr sa (stopPages sb) := by
  unfold stopPages
  try dsimp only
  repeat'
    with_reducible (first
      | assumption | apply Keeps.ite | apply Keeps.dite | apply modXlat_keeps | apply failAll_keeps | apply failWaiter_keeps
      | apply Keeps.foldl | apply Keeps.foldl_snd | apply Keeps.foldl_fst | (intro _) | split | refine Keeps.upd ?_ rfl)

theorem pageResponse_keeps {wr : Bool} {sa sb : State} (pasid : Nat) (i : Nat) (code : Nat) (hk : Keeps wr sa sb) :
    Keeps wr sa (pageResponse pasid i code sb) := by
  unfold pageResponse
  try dsimp only
  repeat'
    with_reducible (first
      | assumption | apply Keeps.ite | apply Keeps.dite | apply bump_keeps | apply missWait_keeps | apply modXlat_keeps
      | apply endPage_keeps | apply stopPages_keeps | apply failAll_keeps | (intro _) | split | refine Keeps.upd ?_ rfl)

theorem pageTimeout_keeps {wr : Bool} {sa sb : State} (i : Nat) (hk : Keeps wr sa sb) :
    Keeps wr sa (pageTimeout i sb) := by
  unfold pageTimeout
  try dsimp only
  repeat'
    with_reducible (first
      | assumption | apply Keeps.ite | apply Keeps.dite | apply failAll_keeps | apply endPage_keeps | (intro _) | split)

theorem acceptInval_keeps {sa sb : State} (itag : Nat) (host : Bool) (pasid : Option Nat) (base : Nat) (n : Nat)
    (hk : Keeps true sa sb) :
    Keeps true sa (acceptInval itag host pasid base n sb) := by
  unfold acceptInval
  try dsimp only
  repeat'
    with_reducible (first
      | assumption | apply Keeps.ite | apply Keeps.dite | apply modXlat_keeps | apply writeBackLine_keeps | apply bump_keeps
      | apply Keeps.foldl | apply Keeps.foldl_snd | apply Keeps.foldl_fst | (intro _) | split | refine Keeps.upd ?_ rfl)

theorem endInval_keeps {sa sb : State} (v : Inval) (hk : Keeps true sa sb) :
    Keeps true sa (endInval v sb) := by
  unfold endInval
  try dsimp only
  repeat'
    with_reducible (first
      | assumption | apply Keeps.ite | apply Keeps.dite | apply bump_keeps | apply modXlat_keeps | apply emit_keeps
      | apply invalidateCompletion_keeps | (intro _) | split | refine Keeps.upd ?_ rfl)

theorem settleInvals_keeps {sa sb : State} (hk : Keeps true sa sb) :
    Keeps true sa (settleInvals sb) := by
  unfold settleInvals
  try dsimp only
  repeat'
    with_reducible (first
      | assumption | apply Keeps.ite | apply Keeps.dite | apply endInval_keeps | apply acceptInval_keeps
      | apply modXlat_keeps | apply Keeps.foldl | apply Keeps.foldl_snd | apply Keeps.foldl_fst | (intro _) | split
      | refine Keeps.upd ?_ rfl)

theorem atsInvalidate_keeps {sa sb : State} (itag : Nat) (pasid : Option Nat) (global : Bool) (base : Nat) (log2 : Nat)
    (hk : Keeps true sa sb) :
    Keeps true sa (atsInvalidate itag pasid global base log2 sb) := by
  unfold atsInvalidate
  try dsimp only
  repeat'
    with_reducible (first
      | assumption | apply Keeps.ite | apply Keeps.dite | apply acceptInval_keeps | apply modXlat_keeps | (intro _) | split
      | refine Keeps.upd ?_ rfl)

theorem invalidateCompletion_keeps {sa sb : State} (itag : Nat) (hk : Keeps true sa sb) :
    Keeps true sa (invalidateCompletion itag sb) := by
  unfold invalidateCompletion
  try dsimp only
  repeat'
    with_reducible (first
      | assumption | apply Keeps.ite | apply Keeps.dite | apply settleInvals_keeps | apply endInval_keeps | (intro _)
      | split)

theorem invalidateEvery_keeps {sa sb : State} (hk : Keeps true sa sb) :
    Keeps true sa (invalidateEvery sb) := by
  unfold invalidateEvery
  try dsimp only
  repeat'
    with_reducible (first
      | assumption | apply Keeps.ite | apply Keeps.dite | apply settleInvals_keeps | apply acceptInval_keeps | (intro _)
      | split)

theorem invalidateAll_keeps {sa sb : State} (src : Route) (v : Nat) (hk : Keeps true sa sb) :
    Keeps true sa (invalidateAll src v sb) := by
  unfold invalidateAll
  try dsimp only
  repeat'
    with_reducible (first
      | assumption | apply Keeps.ite | apply Keeps.dite | apply invalidateEvery_keeps | apply onlyOne_keeps
      | apply beginOp_keeps | (intro _) | split)

theorem closeEntries_keeps {sa sb : State} (regions : List (Nat × Nat)) (hk : Keeps true sa sb) :
    Keeps true sa (closeEntries regions sb) := by
  unfold closeEntries
  try dsimp only
  repeat'
    with_reducible (first
      | assumption | apply Keeps.ite | apply Keeps.dite | apply settleInvals_keeps | apply acceptInval_keeps
      | apply Keeps.foldl | apply Keeps.foldl_snd | apply Keeps.foldl_fst | (intro _) | split)

theorem directoryWrite_keeps {sa sb : State} (src : Route) (v : Nat) (hk : Keeps true sa sb) :
    Keeps true sa (directoryWrite src v sb) := by
  unfold directoryWrite
  try dsimp only
  repeat'
    with_reducible (first
      | assumption | apply Keeps.ite | apply Keeps.dite | apply directoryDisable_keeps | apply directoryEnable_keeps
      | apply closeEntries_keeps | (intro _) | split)

end Sys2Proof.Machine
end

