-- ==== Sys2Proof/Laws/KeepAccess.lean ====
section
/-! SUPPORT. What the operations of Machine/Access.lean keep. -/

namespace Sys2Proof.Machine

open Sys2Proof

set_option linter.unusedTactic false
set_option linter.unreachableTactic false

theorem spPut_keeps {wr : Bool} {sa sb : State} (a : Nat) (b : Bytes) (hk : Keeps wr sa sb) :
    Keeps wr sa (spPut a b sb) := by
  unfold spPut
  try dsimp only
  repeat'
    with_reducible (first
      | assumption | apply Keeps.ite | apply Keeps.dite | apply Keeps.foldl | apply Keeps.foldl_snd | apply Keeps.foldl_fst
      | (intro _) | split | refine Keeps.upd ?_ rfl)

theorem spAccess_keeps {wr : Bool} {sa sb : State} (w : StreamId) (f : IFields) (addrs : Stream → List (Nat × Nat))
    (g : Nat → List (Nat × Nat) → Stream → State → State)
    (h_g : ∀ (x0 : Nat) (x1 : List (Nat × Nat)) (x2 : Stream) (u : State), Keeps wr sa u → Keeps wr sa (g x0 x1 x2 u))
    (hk : Keeps wr sa sb) :
    Keeps wr sa (spAccess w f addrs g sb) := by
  unfold spAccess
  try dsimp only
  repeat'
    with_reducible (first
      | assumption | apply Keeps.ite | apply Keeps.dite | apply h_g | apply issue_keeps | apply ctxFault_keeps
      | apply modStream_keeps | (intro _) | split)

theorem spLoad_keeps {wr : Bool} {sa sb : State} (e : Nat) (f : IFields) (k : Nat) (l : List (Nat × Nat)) (x : Stream)
    (hk : Keeps wr sa sb) :
    Keeps wr sa (spLoad e f k l x sb) := by
  unfold spLoad
  try dsimp only
  repeat'
    with_reducible (first
      | assumption | apply Keeps.ite | apply Keeps.dite | apply modStream_keeps | (intro _) | split)

theorem spStore_keeps {wr : Bool} {sa sb : State} (r : BitVec 5) (l : List (Nat × Nat)) (x : Stream)
    (hk : Keeps wr sa sb) :
    Keeps wr sa (spStore r l x sb) := by
  unfold spStore
  try dsimp only
  repeat'
    with_reducible (first
      | assumption | apply Keeps.ite | apply Keeps.dite | apply spPut_keeps | apply Keeps.foldl | apply Keeps.foldl_snd
      | apply Keeps.foldl_fst | (intro _) | split)

theorem locate_keeps {wr : Bool} {sa sb : State} (w : StreamId) (k : Nat) (space : Nat) (need : Nat) (lines : List Nat)
    (hk : Keeps wr sa sb) :
    Keeps wr sa (locate w k space need lines sb).2 := by
  unfold locate
  try dsimp only
  repeat'
    with_reducible (first
      | assumption | apply Keeps.ite | apply Keeps.dite | apply translate_keeps | apply ctxFault_keeps | apply Keeps.foldl
      | apply Keeps.foldl_snd | apply Keeps.foldl_fst | (intro _) | split)

theorem lmRead_keeps {wr : Bool} {sa sb : State} (k : Nat) (line : Nat) (hk : Keeps wr sa sb) :
    Keeps wr sa (lmRead k line sb).2 := by
  unfold lmRead
  try dsimp only
  repeat'
    with_reducible (first
      | assumption | apply Keeps.ite | apply Keeps.dite | apply ctxFault_keeps | apply countRefusal_keeps
      | apply readLine_keeps | (intro _) | split)

theorem lmWrite_keeps {sa sb : State} (k : Nat) (line : Nat) (mask : Nat) (b : Bytes) (hk : Keeps true sa sb) :
    Keeps true sa (lmWrite k line mask b sb).2 := by
  unfold lmWrite
  try dsimp only
  repeat'
    with_reducible (first
      | assumption | apply Keeps.ite | apply Keeps.dite | apply ctxFault_keeps | apply countRefusal_keeps
      | apply writeLine_keeps | (intro _) | split)

theorem fetchLine_keeps {sa sb : State} (w : StreamId) (k : Nat) (space : Nat) (va : Nat) (addr : Nat)
    (hk : Keeps true sa sb) :
    Keeps true sa (fetchLine w k space va addr sb) := by
  unfold fetchLine
  try dsimp only
  repeat'
    with_reducible (first
      | assumption | apply Keeps.ite | apply Keeps.dite | apply lmRead_keeps | apply installLine_keeps
      | apply arraySubmit_keeps | apply modStream_keeps | (intro _) | split | refine Keeps.upd ?_ rfl)

theorem fetchAll_keeps {sa sb : State} (w : StreamId) (k : Nat) (space : Nat) (l : List (Nat × Nat)) (mask : Nat → Nat)
    (hk : Keeps true sa sb) :
    Keeps true sa (fetchAll w k space l mask sb).2 := by
  unfold fetchAll
  try dsimp only
  repeat'
    with_reducible (first
      | assumption | apply Keeps.ite | apply Keeps.dite | apply fetchLine_keeps | apply Keeps.foldl | apply Keeps.foldl_snd
      | apply Keeps.foldl_fst | (intro _) | split)

theorem cacheWriteBytes_keeps {sa sb : State} (core : Nat) (space : Nat) (k : Nat) (pasid : Nat) (addr : Nat) (b : Bytes)
    (hk : Keeps true sa sb) :
    Keeps true sa (cacheWriteBytes core space k pasid addr b sb) := by
  unfold cacheWriteBytes
  try dsimp only
  repeat'
    with_reducible (first
      | assumption | apply Keeps.ite | apply Keeps.dite | apply setCache_keeps | apply makeRoom_keeps | (intro _) | split
      | refine Keeps.upd ?_ rfl)

theorem memAccess_keeps {wr : Bool} {sa sb : State} (w : StreamId) (f : IFields) (need : Nat)
    (addrs : Stream → List (Nat × Nat)) (g : Nat → Stream → List (Nat × Nat) → List (Nat × Nat) → State → State)
    (h_g : ∀ (x0 : Nat) (x1 : Stream) (x2 : List (Nat × Nat)) (x3 : List (Nat × Nat)) (u : State), Keeps wr sa u → Keeps wr sa (g x0 x1 x2 x3 u))
    (hk : Keeps wr sa sb) :
    Keeps wr sa (memAccess w f need addrs g sb) := by
  unfold memAccess
  try dsimp only
  repeat'
    with_reducible (first
      | assumption | apply Keeps.ite | apply Keeps.dite | apply h_g | apply issue_keeps | apply ctxFault_keeps
      | apply locate_keeps | (intro _) | split)

theorem memLoad_keeps {sa sb : State} (w : StreamId) (f : IFields) (addrs : Stream → List (Nat × Nat))
    (hk : Keeps true sa sb) :
    Keeps true sa (memLoad w f addrs sb) := by
  unfold memLoad
  try dsimp only
  repeat'
    with_reducible (first
      | assumption | apply Keeps.ite | apply Keeps.dite | apply memAccess_keeps | apply fetchAll_keeps
      | apply modStream_keeps | (intro _) | split)

theorem memStore_keeps {sa sb : State} (w : StreamId) (f : IFields) (r : BitVec 5) (addrs : Stream → List (Nat × Nat))
    (hk : Keeps true sa sb) :
    Keeps true sa (memStore w f r addrs sb) := by
  unfold memStore
  try dsimp only
  repeat'
    with_reducible (first
      | assumption | apply Keeps.ite | apply Keeps.dite | apply memAccess_keeps | apply ctxFault_keeps
      | apply countRefusal_keeps | apply modStream_keeps | apply cacheWriteBytes_keeps | apply Keeps.foldl
      | apply Keeps.foldl_snd | apply Keeps.foldl_fst | (intro _) | split)

theorem flushPlaces_keeps {sa sb : State} (core : Nat) (space : Nat) (p : List (Nat × Nat)) (hk : Keeps true sa sb) :
    Keeps true sa (flushPlaces core space p sb) := by
  unfold flushPlaces
  try dsimp only
  repeat'
    with_reducible (first
      | assumption | apply Keeps.ite | apply Keeps.dite | apply flushLine_keeps | apply Keeps.foldl | apply Keeps.foldl_snd
      | apply Keeps.foldl_fst | (intro _) | split)

theorem coherentRead_keeps {sa sb : State} (w : StreamId) (k : Nat) (op : BepOp) (space : Nat) (scope : Nat)
    (p : List (Nat × Nat)) (hk : Keeps true sa sb) :
    Keeps true sa (coherentRead w k op space scope p sb).2 := by
  unfold coherentRead
  try dsimp only
  repeat'
    with_reducible (first
      | assumption | apply Keeps.ite | apply Keeps.dite | apply flushPlaces_keeps | apply lmRead_keeps
      | apply modStream_keeps | apply arraySubmit_keeps | apply Keeps.foldl | apply Keeps.foldl_snd | apply Keeps.foldl_fst
      | (intro _) | split | refine Keeps.upd ?_ rfl)

theorem coherentWrite_keeps {sa sb : State} (k : Nat) (op : BepOp) (space : Nat) (scope : Nat) (line : Nat) (addr : Nat)
    (mask : Nat) (b : Bytes) (hk : Keeps true sa sb) :
    Keeps true sa (coherentWrite k op space scope line addr mask b sb).2 := by
  unfold coherentWrite
  try dsimp only
  repeat'
    with_reducible (first
      | assumption | apply Keeps.ite | apply Keeps.dite | apply lmWrite_keeps | apply arraySubmit_keeps | (intro _) | split
      | refine Keeps.upd ?_ rfl)

theorem writeBackCtx_keeps {sa sb : State} (k : Nat) (hk : Keeps true sa sb) :
    Keeps true sa (writeBackCtx k sb) := by
  unfold writeBackCtx
  try dsimp only
  repeat'
    with_reducible (first
      | assumption | apply Keeps.ite | apply Keeps.dite | apply writeBackLine_keeps | apply Keeps.foldl
      | apply Keeps.foldl_snd | apply Keeps.foldl_fst | (intro _) | split)

theorem releaseSteps_keeps {sa sb : State} (k : Nat) (scope : Nat) (hk : Keeps true sa sb) :
    Keeps true sa (releaseSteps k scope sb).2 := by
  unfold releaseSteps
  try dsimp only
  repeat'
    with_reducible (first
      | assumption | apply Keeps.ite | apply Keeps.dite | apply writeBackCtx_keeps | (intro _) | split)

theorem acquireSteps_keeps {sa sb : State} (core : Nat) (scope : Nat) (hk : Keeps true sa sb) :
    Keeps true sa (acquireSteps core scope sb) := by
  unfold acquireSteps
  try dsimp only
  repeat'
    with_reducible (first
      | assumption | apply Keeps.ite | apply Keeps.dite | apply flushLine_keeps | apply Keeps.foldl | apply Keeps.foldl_snd
      | apply Keeps.foldl_fst | (intro _) | split)

theorem wordAccess_keeps {wr : Bool} {sa sb : State} (w : StreamId) (f : IFields) (need : Nat) (checkScope : Bool)
    (g : Nat → Stream → Nat → List (Nat × Nat) → State → State)
    (h_g : ∀ (x0 : Nat) (x1 : Stream) (x2 : Nat) (x3 : List (Nat × Nat)) (u : State), Keeps wr sa u → Keeps wr sa (g x0 x1 x2 x3 u))
    (hk : Keeps wr sa sb) :
    Keeps wr sa (wordAccess w f need checkScope g sb) := by
  unfold wordAccess
  try dsimp only
  repeat'
    with_reducible (first
      | assumption | apply Keeps.ite | apply Keeps.dite | apply h_g | apply issue_keeps | apply ctxFault_keeps
      | apply locate_keeps | (intro _) | split)

theorem releaseStore_keeps {sa sb : State} (w : StreamId) (f : IFields) (op : BepOp) (sc : Nat) (k : Nat) (x : Stream)
    (va : Nat) (p : List (Nat × Nat)) (hk : Keeps true sa sb) :
    Keeps true sa (releaseStore w f op sc k x va p sb) := by
  unfold releaseStore
  try dsimp only
  repeat'
    with_reducible (first
      | assumption | apply Keeps.ite | apply Keeps.dite | apply releaseSteps_keeps | apply flushPlaces_keeps
      | apply coherentWrite_keeps | apply recordRelease_keeps | apply modStream_keeps | (intro _) | split)

theorem lmAtomic_keeps {sa sb : State} (k : Nat) (c : Cell) (hk : Keeps true sa sb) : Keeps true sa (lmAtomic k c sb).2 := by
  unfold lmAtomic
  dsimp only
  split
  · exact lmRead_keeps _ _ hk
  · exact atomicOn_keeps _ _ _ (lmRead_keeps _ _ hk)

theorem passBarrier_keeps {wr : Bool} {sa sb : State} (k : Nat) (hk : Keeps wr sa sb) :
    Keeps wr sa (passBarrier k sb) := by
  unfold passBarrier
  try dsimp only
  repeat'
    with_reducible (first
      | assumption | apply Keeps.ite | apply Keeps.dite | apply progress_keeps | apply modStream_keeps | apply Keeps.foldl
      | apply Keeps.foldl_snd | apply Keeps.foldl_fst | (intro _) | split | refine Keeps.upd ?_ rfl)

theorem passGang_keeps {sa sb : State} (g : Nat) (hk : Keeps true sa sb) :
    Keeps true sa (passGang g sb) := by
  unfold passGang
  try dsimp only
  repeat'
    with_reducible (first
      | assumption | apply Keeps.ite | apply Keeps.dite | apply passBarrier_keeps | apply acquireSteps_keeps
      | apply Keeps.foldl | apply Keeps.foldl_snd | apply Keeps.foldl_fst | (intro _) | split)

end Sys2Proof.Machine
end

