-- ==== Sys2Proof/Laws/CommandsAccess.lean ====
section
/-! SUPPORT. What the commands of Machine/Access.lean keep; each ends in a next state. -/

namespace Sys2Proof.Machine

open Sys2Proof

set_option linter.unusedTactic false
set_option linter.unreachableTactic false

theorem execSpmLd_keeps (w : StreamId) (f : IFields) (sb : State) :
    ∃ sc, execSpmLd w f sb = .next sc ∧ Keeps false sb sc := by
  unfold execSpmLd
  try dsimp only
  refine ⟨_, rfl, ?_⟩
  repeat'
    with_reducible (first
      | assumption | exact Keeps.refl _ _ | apply Keeps.ite | apply Keeps.dite | apply spAccess_keeps | apply spLoad_keeps
      | (intro _) | split)

theorem execSpmSt_keeps (w : StreamId) (f : IFields) (sb : State) :
    ∃ sc, execSpmSt w f sb = .next sc ∧ Keeps false sb sc := by
  unfold execSpmSt
  try dsimp only
  refine ⟨_, rfl, ?_⟩
  repeat'
    with_reducible (first
      | assumption | exact Keeps.refl _ _ | apply Keeps.ite | apply Keeps.dite | apply spAccess_keeps | apply spStore_keeps
      | (intro _) | split)

theorem execSpmLdb_keeps (w : StreamId) (f : IFields) (sb : State) :
    ∃ sc, execSpmLdb w f sb = .next sc ∧ Keeps false sb sc := by
  unfold execSpmLdb
  try dsimp only
  refine ⟨_, rfl, ?_⟩
  repeat'
    with_reducible (first
      | assumption | exact Keeps.refl _ _ | apply Keeps.ite | apply Keeps.dite | apply spAccess_keeps | apply spLoad_keeps
      | (intro _) | split)

theorem execSpmLdg_keeps (w : StreamId) (f : IFields) (sb : State) :
    ∃ sc, execSpmLdg w f sb = .next sc ∧ Keeps false sb sc := by
  unfold execSpmLdg
  try dsimp only
  refine ⟨_, rfl, ?_⟩
  repeat'
    with_reducible (first
      | assumption | exact Keeps.refl _ _ | apply Keeps.ite | apply Keeps.dite | apply spAccess_keeps | apply spLoad_keeps
      | (intro _) | split)

theorem execSpmStg_keeps (w : StreamId) (f : IFields) (sb : State) :
    ∃ sc, execSpmStg w f sb = .next sc ∧ Keeps false sb sc := by
  unfold execSpmStg
  try dsimp only
  refine ⟨_, rfl, ?_⟩
  repeat'
    with_reducible (first
      | assumption | exact Keeps.refl _ _ | apply Keeps.ite | apply Keeps.dite | apply spAccess_keeps | apply spStore_keeps
      | (intro _) | split)

theorem execMemLd_keeps (w : StreamId) (f : IFields) (sb : State) :
    ∃ sc, execMemLd w f sb = .next sc ∧ Keeps true sb sc := by
  unfold execMemLd
  try dsimp only
  refine ⟨_, rfl, ?_⟩
  repeat'
    with_reducible (first
      | assumption | exact Keeps.refl _ _ | apply Keeps.ite | apply Keeps.dite | apply memLoad_keeps | (intro _) | split)

theorem execMemLdg_keeps (w : StreamId) (f : IFields) (sb : State) :
    ∃ sc, execMemLdg w f sb = .next sc ∧ Keeps true sb sc := by
  unfold execMemLdg
  try dsimp only
  refine ⟨_, rfl, ?_⟩
  repeat'
    with_reducible (first
      | assumption | exact Keeps.refl _ _ | apply Keeps.ite | apply Keeps.dite | apply memLoad_keeps | (intro _) | split)

theorem execMemSt_keeps (w : StreamId) (f : IFields) (sb : State) :
    ∃ sc, execMemSt w f sb = .next sc ∧ Keeps true sb sc := by
  unfold execMemSt
  try dsimp only
  refine ⟨_, rfl, ?_⟩
  repeat'
    with_reducible (first
      | assumption | exact Keeps.refl _ _ | apply Keeps.ite | apply Keeps.dite | apply memStore_keeps | (intro _) | split)

theorem execMemStg_keeps (w : StreamId) (f : IFields) (sb : State) :
    ∃ sc, execMemStg w f sb = .next sc ∧ Keeps true sb sc := by
  unfold execMemStg
  try dsimp only
  refine ⟨_, rfl, ?_⟩
  repeat'
    with_reducible (first
      | assumption | exact Keeps.refl _ _ | apply Keeps.ite | apply Keeps.dite | apply memStore_keeps | (intro _) | split)

theorem execMemLdv_keeps (w : StreamId) (f : IFields) (sb : State) :
    ∃ sc, execMemLdv w f sb = .next sc ∧ Keeps true sb sc := by
  unfold execMemLdv
  try dsimp only
  refine ⟨_, rfl, ?_⟩
  repeat'
    with_reducible (first
      | assumption | exact Keeps.refl _ _ | apply Keeps.ite | apply Keeps.dite | apply memAccess_keeps
      | apply coherentRead_keeps | apply modStream_keeps | (intro _) | split | refine Keeps.upd ?_ rfl)

theorem execMemStv_keeps (w : StreamId) (f : IFields) (sb : State) :
    ∃ sc, execMemStv w f sb = .next sc ∧ Keeps true sb sc := by
  unfold execMemStv
  try dsimp only
  refine ⟨_, rfl, ?_⟩
  repeat'
    with_reducible (first
      | assumption | exact Keeps.refl _ _ | apply Keeps.ite | apply Keeps.dite | apply memAccess_keeps
      | apply flushPlaces_keeps | apply coherentWrite_keeps | apply modStream_keeps | apply Keeps.foldl
      | apply Keeps.foldl_snd | apply Keeps.foldl_fst | (intro _) | split)

theorem execMemLda_keeps (w : StreamId) (f : IFields) (sb : State) :
    ∃ sc, execMemLda w f sb = .next sc ∧ Keeps true sb sc := by
  unfold execMemLda
  try dsimp only
  refine ⟨_, rfl, ?_⟩
  repeat'
    with_reducible (first
      | assumption | exact Keeps.refl _ _ | apply Keeps.ite | apply Keeps.dite | apply wordAccess_keeps
      | apply coherentRead_keeps | apply checkAcquire_keeps | apply modStream_keeps | apply acquireSteps_keeps
      | apply ctxScope_keeps | (intro _) | split | refine Keeps.upd ?_ rfl)

theorem execMemStl_keeps (w : StreamId) (f : IFields) (sb : State) :
    ∃ sc, execMemStl w f sb = .next sc ∧ Keeps true sb sc := by
  unfold execMemStl
  try dsimp only
  refine ⟨_, rfl, ?_⟩
  repeat'
    with_reducible (first
      | assumption | exact Keeps.refl _ _ | apply Keeps.ite | apply Keeps.dite | apply wordAccess_keeps
      | apply releaseStore_keeps | (intro _) | split)

theorem execMemStf_keeps (w : StreamId) (f : IFields) (sb : State) :
    ∃ sc, execMemStf w f sb = .next sc ∧ Keeps true sb sc := by
  unfold execMemStf
  try dsimp only
  split
  all_goals
    refine ⟨_, rfl, ?_⟩
    repeat'
      with_reducible (first
        | assumption | exact Keeps.refl _ _ | apply Keeps.ite | apply Keeps.dite | apply issue_keeps | apply ctxFault_keeps
        | apply wordAccess_keeps | apply releaseStore_keeps | (intro _) | split)

theorem execMemRel_keeps (w : StreamId) (f : IFields) (sb : State) :
    ∃ sc, execMemRel w f sb = .next sc ∧ Keeps true sb sc := by
  unfold execMemRel
  try dsimp only
  refine ⟨_, rfl, ?_⟩
  repeat'
    with_reducible (first
      | assumption | exact Keeps.refl _ _ | apply Keeps.ite | apply Keeps.dite | apply issue_keeps | apply releaseSteps_keeps
      | apply modStream_keeps | (intro _) | split)

theorem execMemAcq_keeps (w : StreamId) (f : IFields) (sb : State) :
    ∃ sc, execMemAcq w f sb = .next sc ∧ Keeps true sb sc := by
  unfold execMemAcq
  try dsimp only
  refine ⟨_, rfl, ?_⟩
  repeat'
    with_reducible (first
      | assumption | exact Keeps.refl _ _ | apply Keeps.ite | apply Keeps.dite | apply issue_keeps | apply modStream_keeps
      | apply acquireSteps_keeps | (intro _) | split)

theorem execMemAt_keeps (w : StreamId) (f : IFields) (sb : State) :
    ∃ sc, execMemAt w f sb = .next sc ∧ Keeps true sb sc := by
  unfold execMemAt
  try dsimp only
  refine ⟨_, rfl, ?_⟩
  repeat'
    with_reducible (first
      | assumption | exact Keeps.refl _ _ | apply Keeps.ite | apply Keeps.dite | apply issue_keeps | apply ctxFault_keeps
      | apply locate_keeps | apply flushPlaces_keeps | apply modStream_keeps | apply lmAtomic_keeps
      | apply arraySubmit_keeps | (intro _) | split | refine Keeps.upd ?_ rfl)

theorem execBarC_keeps (w : StreamId) (f : IFields) (sb : State) :
    ∃ sc, execBarC w f sb = .next sc ∧ Keeps false sb sc := by
  unfold execBarC
  try dsimp only
  refine ⟨_, rfl, ?_⟩
  repeat'
    with_reducible (first
      | assumption | exact Keeps.refl _ _ | apply Keeps.ite | apply Keeps.dite | apply issue_keeps | apply modStream_keeps
      | apply passBarrier_keeps | (intro _) | split | refine Keeps.upd ?_ rfl)

theorem execBarG_keeps (w : StreamId) (f : IFields) (sb : State) :
    ∃ sc, execBarG w f sb = .next sc ∧ Keeps true sb sc := by
  unfold execBarG
  try dsimp only
  refine ⟨_, rfl, ?_⟩
  repeat'
    with_reducible (first
      | assumption | exact Keeps.refl _ _ | apply Keeps.ite | apply Keeps.dite | apply issue_keeps | apply ctxFault_keeps
      | apply releaseSteps_keeps | apply modStream_keeps | apply passGang_keeps | (intro _) | split
      | refine Keeps.upd ?_ rfl)

end Sys2Proof.Machine
end

