-- ==== Sys2Proof/Laws/KeepAnswers.lean ====
section
/-! SUPPORT. What the operations of Machine/Answers.lean keep. -/

namespace Sys2Proof.Machine

open Sys2Proof

set_option linter.unusedTactic false
set_option linter.unreachableTactic false

theorem okUse_keeps {sa sb : State} (use : Use) (cmd : BepCommand) (scope : Bool) (data : Bytes) (hk : Keeps true sa sb) :
    Keeps true sa (okUse use cmd scope data sb) := by
  unfold okUse
  try dsimp only
  repeat'
    with_reducible (first
      | assumption | apply Keeps.ite | apply Keeps.dite | apply emit_keeps | apply report_keeps | apply modStream_keeps
      | apply installLine_keeps | apply ctxScope_keeps | apply modCopy_keeps | apply pollAnswer_keeps | apply modCtx_keeps
      | apply writeBackDone_keeps | apply fence_keeps | (intro _) | split | refine Keeps.upd ?_ rfl)

theorem endOk_keeps {sa sb : State} (tag : Nat) (r : Req) (scope : Bool) (data : Bytes) (hk : Keeps true sa sb) :
    Keeps true sa (endOk tag r scope data sb) := by
  unfold endOk
  try dsimp only
  repeat'
    with_reducible (first
      | assumption | apply Keeps.ite | apply Keeps.dite | apply fenceEnd_keeps | apply dropReq_keeps | apply fence_keeps
      | apply resendRefused_keeps | apply okUse_keeps | (intro _) | split | refine Keeps.upd ?_ rfl)

theorem uncount_keeps {wr : Bool} {sa sb : State} (r : Req) (code : Nat) (hk : Keeps wr sa sb) :
    Keeps wr sa (uncount r code sb) := by
  unfold uncount
  try dsimp only
  repeat'
    with_reducible (first
      | assumption | apply Keeps.ite | apply Keeps.dite | apply setCount_keeps | (intro _) | split)

theorem takeAnswer_keeps {sa sb : State} (t : Nat) (r : Req) (c : Cell) (hk : Keeps true sa sb) :
    Keeps true sa (takeAnswer t r c sb) := by
  unfold takeAnswer
  try dsimp only
  repeat'
    with_reducible (first
      | assumption | apply Keeps.ite | apply Keeps.dite | apply reactMark_keeps | apply endOk_keeps | apply endFailed_keeps
      | apply setCount_keeps | apply refused_keeps | apply breakPair_keeps | apply uncount_keeps | apply Keeps.foldl
      | apply Keeps.foldl_snd | apply Keeps.foldl_fst | (intro _) | split | refine Keeps.upd ?_ rfl)

theorem settleWriteBacks_keeps {wr : Bool} {sa sb : State} (hk : Keeps wr sa sb) :
    Keeps wr sa (settleWriteBacks sb) := by
  unfold settleWriteBacks
  try dsimp only
  repeat'
    with_reducible (first
      | assumption | apply Keeps.ite | apply Keeps.dite | apply writeBackDone_keeps | apply Keeps.foldl
      | apply Keeps.foldl_snd | apply Keeps.foldl_fst | (intro _) | split)

theorem responseReceive_keeps {sa sb : State} (c : Cell) (hk : Keeps true sa sb) :
    Keeps true sa (responseReceive c sb) := by
  unfold responseReceive
  try dsimp only
  repeat'
    with_reducible (first
      | assumption | apply Keeps.ite | apply Keeps.dite | apply progress_keeps | apply settleWriteBacks_keeps
      | apply pump_keeps | apply takeAnswer_keeps | apply bump_keeps | (intro _) | split | refine Keeps.upd ?_ rfl)

theorem requestTimeout_keeps {wr : Bool} {sa sb : State} (t : Nat) (hk : Keeps wr sa sb) :
    Keeps wr sa (requestTimeout t sb) := by
  unfold requestTimeout
  try dsimp only
  repeat'
    with_reducible (first
      | assumption | apply Keeps.ite | apply Keeps.dite | apply endFailed_keeps | apply bump_keeps
      | apply settleWriteBacks_keeps | apply pump_keeps | (intro _) | split | refine Keeps.upd ?_ rfl)

theorem busyResend_keeps {wr : Bool} {sa sb : State} (t : Nat) (hk : Keeps wr sa sb) :
    Keeps wr sa (busyResend t sb) := by
  unfold busyResend
  try dsimp only
  repeat'
    with_reducible (first
      | assumption | apply Keeps.ite | apply Keeps.dite | apply bepSend_keeps | (intro _) | split | refine Keeps.upd ?_ rfl)

theorem refill_keeps {wr : Bool} {sa sb : State} (f : Fill) (hk : Keeps wr sa sb) :
    Keeps wr sa (refill f sb) := by
  unfold refill
  try dsimp only
  repeat'
    with_reducible (first
      | assumption | apply Keeps.ite | apply Keeps.dite | apply waitFill_keeps | apply Keeps.foldl | apply Keeps.foldl_snd
      | apply Keeps.foldl_fst | (intro _) | split)

theorem failFill_keeps {wr : Bool} {sa sb : State} (f : Fill) (hk : Keeps wr sa sb) :
    Keeps wr sa (failFill f sb) := by
  unfold failFill
  try dsimp only
  repeat'
    with_reducible (first
      | assumption | apply Keeps.ite | apply Keeps.dite | apply failUse_keeps | apply Keeps.foldl | apply Keeps.foldl_snd
      | apply Keeps.foldl_fst | (intro _) | split)

theorem fillRsp_keeps {wr : Bool} {sa sb : State} (t : Nat) (status : Nat) (ppage : Nat) (size : Nat) (perms : Nat)
    (hk : Keeps wr sa sb) :
    Keeps wr sa (fillRsp t status ppage size perms sb) := by
  unfold fillRsp
  try dsimp only
  repeat'
    with_reducible (first
      | assumption | apply Keeps.ite | apply Keeps.dite | apply refill_keeps | apply agentCommand_keeps
      | apply failFill_keeps | apply emit_keeps | apply report_keeps | apply Keeps.foldl | apply Keeps.foldl_snd
      | apply Keeps.foldl_fst | (intro _) | split | refine Keeps.upd ?_ rfl)

theorem fillRetry_keeps {wr : Bool} {sa sb : State} (t : Nat) (hk : Keeps wr sa sb) :
    Keeps wr sa (fillRetry t sb) := by
  unfold fillRetry
  try dsimp only
  repeat'
    with_reducible (first
      | assumption | apply Keeps.ite | apply Keeps.dite | apply emit_keeps | (intro _) | split)

theorem invReq_keeps {wr : Bool} {sa sb : State} (t : Nat) (pasid : Nat) (base : Nat) (pages : Nat)
    (hk : Keeps wr sa sb) :
    Keeps wr sa (invReq t pasid base pages sb) := by
  unfold invReq
  try dsimp only
  repeat'
    with_reducible (first
      | assumption | apply Keeps.ite | apply Keeps.dite | (intro _) | split | refine Keeps.upd ?_ rfl)

theorem invDoneSend_keeps {wr : Bool} {sa sb : State} (t : Nat) (hk : Keeps wr sa sb) :
    Keeps wr sa (invDoneSend t sb) := by
  unfold invDoneSend
  try dsimp only
  repeat'
    with_reducible (first
      | assumption | apply Keeps.ite | apply Keeps.dite | apply emit_keeps | (intro _) | split | refine Keeps.upd ?_ rfl)

end Sys2Proof.Machine
end

