-- ==== Sys2Proof/Laws/CommandsAnswers.lean ====
section
/-! SUPPORT. What the commands of Machine/Answers.lean keep; each ends in a next state. -/

namespace Sys2Proof.Machine

open Sys2Proof

set_option linter.unusedTactic false
set_option linter.unreachableTactic false

theorem execResponseReceive_keeps (c : Cell) (sb : State) :
    ∃ sc, execResponseReceive c sb = .next sc ∧ Keeps true sb sc := by
  unfold execResponseReceive
  try dsimp only
  refine ⟨_, rfl, ?_⟩
  repeat'
    with_reducible (first
      | assumption | exact Keeps.refl _ _ | apply Keeps.ite | apply Keeps.dite | apply responseReceive_keeps | (intro _)
      | split)

theorem execRequestTimeout_keeps (tag : BitVec 16) (sb : State) :
    ∃ sc, execRequestTimeout tag sb = .next sc ∧ Keeps false sb sc := by
  unfold execRequestTimeout
  try dsimp only
  refine ⟨_, rfl, ?_⟩
  repeat'
    with_reducible (first
      | assumption | exact Keeps.refl _ _ | apply Keeps.ite | apply Keeps.dite | apply requestTimeout_keeps | (intro _)
      | split)

theorem execBusyResend_keeps (tag : BitVec 16) (sb : State) :
    ∃ sc, execBusyResend tag sb = .next sc ∧ Keeps false sb sc := by
  unfold execBusyResend
  try dsimp only
  refine ⟨_, rfl, ?_⟩
  repeat'
    with_reducible (first
      | assumption | exact Keeps.refl _ _ | apply Keeps.ite | apply Keeps.dite | apply busyResend_keeps | (intro _) | split)

theorem execFillRspReceive_keeps (tag : BitVec 12) (status : BitVec 2) (ppage : BitVec 52) (size : BitVec 2)
    (perms : BitVec 4) (sb : State) :
    ∃ sc, execFillRspReceive tag status ppage size perms sb = .next sc ∧ Keeps false sb sc := by
  unfold execFillRspReceive
  try dsimp only
  refine ⟨_, rfl, ?_⟩
  repeat'
    with_reducible (first
      | assumption | exact Keeps.refl _ _ | apply Keeps.ite | apply Keeps.dite | apply fillRsp_keeps | (intro _) | split)

theorem execFillRetry_keeps (tag : BitVec 12) (sb : State) :
    ∃ sc, execFillRetry tag sb = .next sc ∧ Keeps false sb sc := by
  unfold execFillRetry
  try dsimp only
  refine ⟨_, rfl, ?_⟩
  repeat'
    with_reducible (first
      | assumption | exact Keeps.refl _ _ | apply Keeps.ite | apply Keeps.dite | apply fillRetry_keeps | (intro _) | split)

theorem execInvReqReceive_keeps (tag : BitVec 12) (pasid : BitVec 20) (base : BitVec 64) (pages : Nat) (sb : State) :
    ∃ sc, execInvReqReceive tag pasid base pages sb = .next sc ∧ Keeps false sb sc := by
  unfold execInvReqReceive
  try dsimp only
  refine ⟨_, rfl, ?_⟩
  repeat'
    with_reducible (first
      | assumption | exact Keeps.refl _ _ | apply Keeps.ite | apply Keeps.dite | apply invReq_keeps | (intro _) | split)

theorem execInvDoneSend_keeps (tag : BitVec 12) (sb : State) :
    ∃ sc, execInvDoneSend tag sb = .next sc ∧ Keeps false sb sc := by
  unfold execInvDoneSend
  try dsimp only
  refine ⟨_, rfl, ?_⟩
  repeat'
    with_reducible (first
      | assumption | exact Keeps.refl _ _ | apply Keeps.ite | apply Keeps.dite | apply invDoneSend_keeps | (intro _) | split)

end Sys2Proof.Machine
end

