-- ==== Sys2Proof/Laws/KeepEpWindows.lean ====
section
/-! SUPPORT. What the operations of Machine/EpWindows.lean keep. -/

namespace Sys2Proof.Machine

open Sys2Proof

set_option linter.unusedTactic false
set_option linter.unreachableTactic false

theorem modEp_keeps {wr : Bool} {sa sb : State} (f : Ep → Ep) (hk : Keeps wr sa sb) :
    Keeps wr sa (modEp f sb) := by
  unfold modEp
  try dsimp only
  repeat'
    with_reducible (first
      | assumption | apply Keeps.ite | apply Keeps.dite | (intro _) | split | refine Keeps.upd ?_ rfl)

theorem complete_keeps {wr : Bool} {sa sb : State} (id : Nat) (st : Status) (hk : Keeps wr sa sb) :
    Keeps wr sa (complete id st sb) := by
  unfold complete
  try dsimp only
  repeat'
    with_reducible (first
      | assumption | apply Keeps.ite | apply Keeps.dite | apply emit_keeps | (intro _) | split)

theorem setEpWindow_keeps {wr : Bool} {sa sb : State} (w : Nat) (x : EpWindow) (hk : Keeps wr sa sb) :
    Keeps wr sa (setEpWindow w x sb) := by
  unfold setEpWindow
  try dsimp only
  repeat'
    with_reducible (first
      | assumption | apply Keeps.ite | apply Keeps.dite | apply modEp_keeps | (intro _) | split | refine Keeps.upd ?_ rfl)

theorem epCalendarLoad_keeps {wr : Bool} {sa sb : State} (id : Nat) (round : Nat) (records : List (BitVec 128))
    (arm : Nat) (hk : Keeps wr sa sb) :
    Keeps wr sa (epCalendarLoad id round records arm sb) := by
  unfold epCalendarLoad
  try dsimp only
  repeat'
    with_reducible (first
      | assumption | apply Keeps.ite | apply Keeps.dite | apply complete_keeps | apply modEp_keeps | (intro _) | split
      | refine Keeps.upd ?_ rfl)

theorem epCalendarSwitch_keeps {wr : Bool} {sa sb : State} (hk : Keeps wr sa sb) :
    Keeps wr sa (epCalendarSwitch sb) := by
  unfold epCalendarSwitch
  try dsimp only
  repeat'
    with_reducible (first
      | assumption | apply Keeps.ite | apply Keeps.dite | apply modEp_keeps | apply advanceTo_keeps | (intro _) | split
      | refine Keeps.upd ?_ rfl)

theorem epWindowBind_keeps {wr : Bool} {sa sb : State} (id : Nat) (pasid : Nat) (d : Bytes) (base : Nat)
    (hk : Keeps wr sa sb) :
    Keeps wr sa (epWindowBind id pasid d base sb) := by
  unfold epWindowBind
  try dsimp only
  repeat'
    with_reducible (first
      | assumption | apply Keeps.ite | apply Keeps.dite | apply complete_keeps | apply setEpWindow_keeps | apply Keeps.foldl
      | apply Keeps.foldl_snd | apply Keeps.foldl_fst | (intro _) | split)

theorem rsEnd_keeps {wr : Bool} {sa sb : State} (r : WaitRs) (st : Status) (hk : Keeps wr sa sb) :
    Keeps wr sa (rsEnd r st sb) := by
  unfold rsEnd
  try dsimp only
  repeat'
    with_reducible (first
      | assumption | apply Keeps.ite | apply Keeps.dite | apply complete_keeps | apply modCopy_keeps | (intro _) | split
      | refine Keeps.upd ?_ rfl)

theorem reduceStep_keeps {wr : Bool} {sa sb : State} (w : Nat) (x : EpWindow) (r : WaitRs) (hk : Keeps wr sa sb) :
    Keeps wr sa (reduceStep w x r sb) := by
  unfold reduceStep
  try dsimp only
  repeat'
    with_reducible (first
      | assumption | apply Keeps.ite | apply Keeps.dite | apply rsEnd_keeps | apply setEpWindow_keeps | apply bump_keeps
      | (intro _) | split | refine Keeps.upd ?_ rfl)

theorem reduceStore_keeps {wr : Bool} {sa sb : State} (id : Nat) (tenant : Option (BitVec 4)) (permC : Bool)
    (window : Nat) (step : Nat) (offset : Nat) (lines : Bytes) (hk : Keeps wr sa sb) :
    Keeps wr sa (reduceStore id tenant permC window step offset lines sb) := by
  unfold reduceStore
  try dsimp only
  repeat'
    with_reducible (first
      | assumption | apply Keeps.ite | apply Keeps.dite | apply complete_keeps | apply bump_keeps | apply reduceStep_keeps
      | (intro _) | split)

theorem advanceFill_keeps {wr : Bool} {sa sb : State} (w : Nat) (x : EpWindow) (hk : Keeps wr sa sb) :
    Keeps wr sa (advanceFill w x sb) := by
  unfold advanceFill
  try dsimp only
  repeat'
    with_reducible (first
      | assumption | apply Keeps.ite | apply Keeps.dite | apply setEpWindow_keeps | apply emit_keeps | apply report_keeps
      | apply reduceStep_keeps | apply Keeps.foldl | apply Keeps.foldl_snd | apply Keeps.foldl_fst | (intro _) | split
      | refine Keeps.upd ?_ rfl)

theorem epVc9Slot_keeps {wr : Bool} {sa sb : State} (offset : Nat) (hk : Keeps wr sa sb) :
    Keeps wr sa (epVc9Slot offset sb) := by
  unfold epVc9Slot
  try dsimp only
  repeat'
    with_reducible (first
      | assumption | apply Keeps.ite | apply Keeps.dite | apply advanceTo_keeps | apply emit_keeps | apply bump_keeps
      | apply advanceFill_keeps | apply setEpWindow_keeps | (intro _) | split | refine Keeps.upd ?_ rfl)

theorem chunkFails_keeps {wr : Bool} {sa sb : State} (w : Nat) (x : EpWindow) (chunk : Nat) (hk : Keeps wr sa sb) :
    Keeps wr sa (chunkFails w x chunk sb) := by
  unfold chunkFails
  try dsimp only
  repeat'
    with_reducible (first
      | assumption | apply Keeps.ite | apply Keeps.dite | apply emit_keeps | apply report_keeps | apply bump_keeps
      | apply setEpWindow_keeps | (intro _) | split | refine Keeps.upd ?_ rfl)

theorem takeVc10_keeps {wr : Bool} {sa sb : State} (w : Nat) (x : EpWindow) (c : Cell) (hk : Keeps wr sa sb) :
    Keeps wr sa (takeVc10 w x c sb) := by
  unfold takeVc10
  try dsimp only
  repeat'
    with_reducible (first
      | assumption | apply Keeps.ite | apply Keeps.dite | apply setEpWindow_keeps | apply chunkFails_keeps | (intro _)
      | split | refine Keeps.upd ?_ rfl)

theorem epVc10Receive_keeps {wr : Bool} {sa sb : State} (c : Cell) (hk : Keeps wr sa sb) :
    Keeps wr sa (epVc10Receive c sb) := by
  unfold epVc10Receive
  try dsimp only
  repeat'
    with_reducible (first
      | assumption | apply Keeps.ite | apply Keeps.dite | apply bump_keeps | apply takeVc10_keeps | (intro _) | split)

theorem stepFence_keeps {wr : Bool} {sa sb : State} (id : Nat) (window : Nat) (hk : Keeps wr sa sb) :
    Keeps wr sa (stepFence id window sb) := by
  unfold stepFence
  try dsimp only
  repeat'
    with_reducible (first
      | assumption | apply Keeps.ite | apply Keeps.dite | apply setEpWindow_keeps | apply complete_keeps | (intro _) | split
      | refine Keeps.upd ?_ rfl)

theorem writeResults_keeps {wr : Bool} {sa sb : State} (x : EpWindow) (hk : Keeps wr sa sb) :
    Keeps wr sa (writeResults x sb) := by
  unfold writeResults
  try dsimp only
  repeat'
    with_reducible (first
      | assumption | apply Keeps.ite | apply Keeps.dite | apply agentCommand_keeps | apply Keeps.foldl
      | apply Keeps.foldl_snd | apply Keeps.foldl_fst | (intro _) | split)

theorem epCommit_keeps {wr : Bool} {sa sb : State} (w : Nat) (hk : Keeps wr sa sb) :
    Keeps wr sa (epCommit w sb) := by
  unfold epCommit
  try dsimp only
  repeat'
    with_reducible (first
      | assumption | apply Keeps.ite | apply Keeps.dite | apply advanceTo_keeps | apply setEpWindow_keeps | apply emit_keeps
      | apply report_keeps | apply writeResults_keeps | apply complete_keeps | apply Keeps.foldl | apply Keeps.foldl_snd
      | apply Keeps.foldl_fst | (intro _) | split | refine Keeps.upd ?_ rfl)

end Sys2Proof.Machine
end

