-- ==== Sys2Proof/Laws/KeepCopies.lean ====
section
/-! SUPPORT. What the operations of Machine/Copies.lean keep. -/

namespace Sys2Proof.Machine

open Sys2Proof

set_option linter.unusedTactic false
set_option linter.unreachableTactic false

theorem addCopy_keeps {wr : Bool} {sa sb : State} (k : Nat) (h : Copy) (hk : Keeps wr sa sb) :
    Keeps wr sa (addCopy k h sb) := by
  unfold addCopy
  try dsimp only
  repeat'
    with_reducible (first
      | assumption | apply Keeps.ite | apply Keeps.dite | apply modCtx_keeps | (intro _) | split | refine Keeps.upd ?_ rfl)

theorem advanceCopy_keeps {wr : Bool} {sa sb : State} (k : Nat) (n : Nat) (hk : Keeps wr sa sb) :
    Keeps wr sa (advanceCopy k n sb) := by
  unfold advanceCopy
  try dsimp only
  repeat'
    with_reducible (first
      | assumption | apply Keeps.ite | apply Keeps.dite | apply modCopy_keeps | apply progress_keeps | (intro _) | split
      | refine Keeps.upd ?_ rfl)

theorem finishCopy_keeps {wr : Bool} {sa sb : State} (k : Nat) (h : Copy) (hk : Keeps wr sa sb) :
    Keeps wr sa (finishCopy k h sb) := by
  unfold finishCopy
  try dsimp only
  repeat'
    with_reducible (first
      | assumption | apply Keeps.ite | apply Keeps.dite | apply modCtx_keeps | apply bump_keeps | apply modStream_keeps
      | apply Keeps.foldl | apply Keeps.foldl_snd | apply Keeps.foldl_fst | (intro _) | split | refine Keeps.upd ?_ rfl)

theorem copyPlace_keeps {wr : Bool} {sa sb : State} (k : Nat) (space : Nat) (need : Nat) (va : Nat)
    (hk : Keeps wr sa sb) :
    Keeps wr sa (copyPlace k space need va sb).2 := by
  unfold copyPlace
  try dsimp only
  repeat'
    with_reducible (first
      | assumption | apply Keeps.ite | apply Keeps.dite | apply translate_keeps | apply ctxFault_keeps | (intro _) | split)

theorem copyLineBytes_keeps {sa sb : State} (k : Nat) (h : Copy) (va : Nat) (hk : Keeps true sa sb) :
    Keeps true sa (copyLineBytes k h va sb).2 := by
  unfold copyLineBytes
  try dsimp only
  repeat'
    with_reducible (first
      | assumption | apply Keeps.ite | apply Keeps.dite | apply copyPlace_keeps | apply arraySubmit_keeps
      | apply modCopy_keeps | apply flushLine_keeps | apply lmRead_keeps | apply installLine_keeps | (intro _) | split
      | refine Keeps.upd ?_ rfl)

theorem copySource_keeps {sa sb : State} (k : Nat) (h : Copy) (va : Nat) (n : Nat) (hk : Keeps true sa sb) :
    Keeps true sa (copySource k h va n sb).2 := by
  unfold copySource
  try dsimp only
  repeat'
    with_reducible (first
      | assumption | apply Keeps.ite | apply Keeps.dite | apply ctxFault_keeps | apply copyLineBytes_keeps
      | apply Keeps.foldl | apply Keeps.foldl_snd | apply Keeps.foldl_fst | (intro _) | split | refine Keeps.upd ?_ rfl)

theorem copyStore_keeps {sa sb : State} (k : Nat) (h : Copy) (va : Nat) (b : Bytes) (hk : Keeps true sa sb) :
    Keeps true sa (copyStore k h va b sb) := by
  unfold copyStore
  try dsimp only
  repeat'
    with_reducible (first
      | assumption | apply Keeps.ite | apply Keeps.dite | apply advanceCopy_keeps | apply bumpN_keeps | apply ctxFault_keeps
      | apply spPut_keeps | apply copyPlace_keeps | apply flushLine_keeps | apply reduceStep_keeps | apply lmWrite_keeps
      | apply fabricWrite_keeps | (intro _) | split)

theorem copyStep_keeps {sa sb : State} (k : Nat) (hk : Keeps true sa sb) :
    Keeps true sa (copyStep k sb) := by
  unfold copyStep
  try dsimp only
  repeat'
    with_reducible (first
      | assumption | apply Keeps.ite | apply Keeps.dite | apply finishCopy_keeps | apply advanceCopy_keeps
      | apply copySource_keeps | apply copyStore_keeps | (intro _) | split)

end Sys2Proof.Machine
end

