-- ==== Sys2Proof/Laws/KeepArray.lean ====
section
/-! SUPPORT. What the operations of Machine/Array.lean keep. -/

namespace Sys2Proof.Machine

open Sys2Proof

set_option linter.unusedTactic false
set_option linter.unreachableTactic false

theorem concludeAction_keeps {wr : Bool} {sa sb : State} (k : Nat) (action : Nat) (result : Nat) (hk : Keeps wr sa sb) :
    Keeps wr sa (concludeAction k action result sb) := by
  unfold concludeAction
  try dsimp only
  repeat'
    with_reducible (first
      | assumption | apply Keeps.ite | apply Keeps.dite | apply modCtx_keeps | (intro _) | split | refine Keeps.upd ?_ rfl)

theorem clearCtxAccs_keeps {wr : Bool} {sa sb : State} (k : Nat) (hk : Keeps wr sa sb) :
    Keeps wr sa (clearCtxAccs k sb) := by
  unfold clearCtxAccs
  try dsimp only
  repeat'
    with_reducible (first
      | assumption | apply Keeps.ite | apply Keeps.dite | (intro _) | split | refine Keeps.upd ?_ rfl)

theorem contextCreate_keeps {wr : Bool} {sa sb : State} (k : Nat) (hk : Keeps wr sa sb) :
    Keeps wr sa (contextCreate k sb) := by
  unfold contextCreate
  try dsimp only
  repeat'
    with_reducible (first
      | assumption | apply Keeps.ite | apply Keeps.dite | apply concludeAction_keeps | apply modCtx_keeps
      | apply clearCtxAccs_keeps | apply setCtx_keeps | (intro _) | split | refine Keeps.upd ?_ rfl)

theorem contextDestroy_keeps {wr : Bool} {sa sb : State} (k : Nat) (hk : Keeps wr sa sb) :
    Keeps wr sa (contextDestroy k sb) := by
  unfold contextDestroy
  try dsimp only
  repeat'
    with_reducible (first
      | assumption | apply Keeps.ite | apply Keeps.dite | apply concludeAction_keeps | apply setCtx_keeps | (intro _)
      | split)

theorem restartCtx_keeps {wr : Bool} {sa sb : State} (k : Nat) (hk : Keeps wr sa sb) :
    Keeps wr sa (restartCtx k sb) := by
  unfold restartCtx
  try dsimp only
  repeat'
    with_reducible (first
      | assumption | apply Keeps.ite | apply Keeps.dite | apply modCtx_keeps | (intro _) | split | refine Keeps.upd ?_ rfl)

theorem contextRestart_keeps {wr : Bool} {sa sb : State} (k : Nat) (hk : Keeps wr sa sb) :
    Keeps wr sa (contextRestart k sb) := by
  unfold contextRestart
  try dsimp only
  repeat'
    with_reducible (first
      | assumption | apply Keeps.ite | apply Keeps.dite | apply concludeAction_keeps | apply restartCtx_keeps | (intro _)
      | split)

theorem discardDirty_keeps {wr : Bool} {sa sb : State} (k : Nat) (hk : Keeps wr sa sb) :
    Keeps wr sa (discardDirty k sb) := by
  unfold discardDirty
  try dsimp only
  repeat'
    with_reducible (first
      | assumption | apply Keeps.ite | apply Keeps.dite | apply dropCache_keeps | apply setCache_keeps | apply Keeps.foldl
      | apply Keeps.foldl_snd | apply Keeps.foldl_fst | (intro _) | split | refine Keeps.upd ?_ rfl)

theorem stopCtx_keeps {wr : Bool} {sa sb : State} (k : Nat) (st : CtxState) (hk : Keeps wr sa sb) :
    Keeps wr sa (stopCtx k st sb) := by
  unfold stopCtx
  try dsimp only
  repeat'
    with_reducible (first
      | assumption | apply Keeps.ite | apply Keeps.dite | apply loseGang_keeps | apply discardDirty_keeps
      | apply modCtx_keeps | (intro _) | split | refine Keeps.upd ?_ rfl)

theorem abortCtx_keeps {wr : Bool} {sa sb : State} (k : Nat) (hk : Keeps wr sa sb) :
    Keeps wr sa (abortCtx k sb) := by
  unfold abortCtx
  try dsimp only
  repeat'
    with_reducible (first
      | assumption | apply Keeps.ite | apply Keeps.dite | apply stopCtx_keeps | (intro _) | split)

theorem contextAbort_keeps {wr : Bool} {sa sb : State} (k : Nat) (hk : Keeps wr sa sb) :
    Keeps wr sa (contextAbort k sb) := by
  unfold contextAbort
  try dsimp only
  repeat'
    with_reducible (first
      | assumption | apply Keeps.ite | apply Keeps.dite | apply countIgnored_keeps | apply stopCtx_keeps | apply modCtx_keeps
      | apply concludeAction_keeps | (intro _) | split | refine Keeps.upd ?_ rfl)

theorem producerWrite_keeps {wr : Bool} {sa sb : State} (k : Nat) (v : BitVec 32) (hk : Keeps wr sa sb) :
    Keeps wr sa (producerWrite k v sb) := by
  unfold producerWrite
  try dsimp only
  repeat'
    with_reducible (first
      | assumption | apply Keeps.ite | apply Keeps.dite | apply countIgnored_keeps | apply modCtx_keeps | (intro _) | split
      | refine Keeps.upd ?_ rfl)

theorem ringRecord_keeps {wr : Bool} {sa sb : State} (k : Nat) (hk : Keeps wr sa sb) :
    Keeps wr sa (ringRecord k sb).2 := by
  unfold ringRecord
  try dsimp only
  repeat'
    with_reducible (first
      | assumption | apply Keeps.ite | apply Keeps.dite | apply translate_keeps | apply ctxFault_keeps | apply lmRead_keeps
      | (intro _) | split)

theorem beginRecord_keeps {wr : Bool} {sa sb : State} (k : Nat) (kind : Nat) (g : Bytes → State → State)
    (h_g : ∀ (x0 : Bytes) (u : State), Keeps wr sa u → Keeps wr sa (g x0 u)) (hk : Keeps wr sa sb) :
    Keeps wr sa (beginRecord k kind g sb) := by
  unfold beginRecord
  try dsimp only
  repeat'
    with_reducible (first
      | assumption | apply Keeps.ite | apply Keeps.dite | apply h_g | apply ringRecord_keeps | apply modCtx_keeps
      | apply ctxFault_keeps | (intro _) | split | refine Keeps.upd ?_ rfl)

theorem ringRun_keeps {wr : Bool} {sa sb : State} (k : Nat) (hk : Keeps wr sa sb) :
    Keeps wr sa (ringRun k sb) := by
  unfold ringRun
  try dsimp only
  repeat'
    with_reducible (first
      | assumption | apply Keeps.ite | apply Keeps.dite | apply beginRecord_keeps | apply ctxFault_keeps | apply modCtx_keeps
      | apply modStream_keeps | apply Keeps.foldl | apply Keeps.foldl_snd | apply Keeps.foldl_fst | (intro _) | split
      | refine Keeps.upd ?_ rfl)

theorem ringCopy_keeps {wr : Bool} {sa sb : State} (k : Nat) (hk : Keeps wr sa sb) :
    Keeps wr sa (ringCopy k sb) := by
  unfold ringCopy
  try dsimp only
  repeat'
    with_reducible (first
      | assumption | apply Keeps.ite | apply Keeps.dite | apply beginRecord_keeps | apply addCopy_keeps | apply modCtx_keeps
      | (intro _) | split | refine Keeps.upd ?_ rfl)

theorem ringWait_keeps {wr : Bool} {sa sb : State} (k : Nat) (hk : Keeps wr sa sb) :
    Keeps wr sa (ringWait k sb) := by
  unfold ringWait
  try dsimp only
  repeat'
    with_reducible (first
      | assumption | apply Keeps.ite | apply Keeps.dite | apply beginRecord_keeps | apply modCtx_keeps | (intro _) | split
      | refine Keeps.upd ?_ rfl)

theorem ringNop_keeps {wr : Bool} {sa sb : State} (k : Nat) (hk : Keeps wr sa sb) :
    Keeps wr sa (ringNop k sb) := by
  unfold ringNop
  try dsimp only
  repeat'
    with_reducible (first
      | assumption | apply Keeps.ite | apply Keeps.dite | apply beginRecord_keeps | apply modCtx_keeps | (intro _) | split
      | refine Keeps.upd ?_ rfl)

theorem waitPoll_keeps {sa sb : State} (k : Nat) (hk : Keeps true sa sb) :
    Keeps true sa (waitPoll k sb) := by
  unfold waitPoll
  try dsimp only
  repeat'
    with_reducible (first
      | assumption | apply Keeps.ite | apply Keeps.dite | apply ctxFault_keeps | apply translate_keeps
      | apply flushLine_keeps | apply lmRead_keeps | apply checkAcquire_keeps | apply acquireSteps_keeps
      | apply pollAnswer_keeps | apply ctxScope_keeps | apply arraySubmit_keeps | apply modCtx_keeps | (intro _) | split
      | refine Keeps.upd ?_ rfl)

theorem waitTimeout_keeps {wr : Bool} {sa sb : State} (k : Nat) (hk : Keeps wr sa sb) :
    Keeps wr sa (waitTimeout k sb) := by
  unfold waitTimeout
  try dsimp only
  repeat'
    with_reducible (first
      | assumption | apply Keeps.ite | apply Keeps.dite | apply setCtx_keeps | (intro _) | split | refine Keeps.upd ?_ rfl)

theorem writeRecord_keeps {sa sb : State} (k : Nat) (status : Nat) (hk : Keeps true sa sb) :
    Keeps true sa (writeRecord k status sb).2 := by
  unfold writeRecord
  try dsimp only
  repeat'
    with_reducible (first
      | assumption | apply Keeps.ite | apply Keeps.dite | apply translate_keeps | apply ctxFault_keeps | apply lmWrite_keeps
      | apply countIgnored_keeps | apply signal_keeps | (intro _) | split)

theorem commandEnd_keeps {sa sb : State} (k : Nat) (hk : Keeps true sa sb) :
    Keeps true sa (commandEnd k sb) := by
  unfold commandEnd
  try dsimp only
  repeat'
    with_reducible (first
      | assumption | apply Keeps.ite | apply Keeps.dite | apply writeBackCtx_keeps | apply writeRecord_keeps
      | apply bump_keeps | apply modCtx_keeps | (intro _) | split | refine Keeps.upd ?_ rfl)

theorem abortDone_keeps {sa sb : State} (k : Nat) (hk : Keeps true sa sb) :
    Keeps true sa (abortDone k sb) := by
  unfold abortDone
  try dsimp only
  repeat'
    with_reducible (first
      | assumption | apply Keeps.ite | apply Keeps.dite | apply writeRecord_keeps | apply setCtx_keeps
      | apply concludeAction_keeps | (intro _) | split)

theorem contextAction_keeps {wr : Bool} {sa sb : State} (k : Nat) (v : Nat) (hk : Keeps wr sa sb) :
    Keeps wr sa (contextAction k v sb) := by
  unfold contextAction
  try dsimp only
  repeat'
    with_reducible (first
      | assumption | apply Keeps.ite | apply Keeps.dite | apply countIgnored_keeps | apply contextCreate_keeps
      | apply contextDestroy_keeps | apply contextRestart_keeps | apply contextAbort_keeps | (intro _) | split)

end Sys2Proof.Machine
end

