-- ==== Sys2Proof/Laws/CommandsArray.lean ====
section
/-! SUPPORT. What the commands of Machine/Array.lean keep; each ends in a next state. -/

namespace Sys2Proof.Machine

open Sys2Proof

set_option linter.unusedTactic false
set_option linter.unreachableTactic false

theorem execContextCreate_keeps (core : CoreN) (slot : SlotN) (sb : State) :
    ∃ sc, execContextCreate core slot sb = .next sc ∧ Keeps false sb sc := by
  unfold execContextCreate
  try dsimp only
  refine ⟨_, rfl, ?_⟩
  repeat'
    with_reducible (first
      | assumption | exact Keeps.refl _ _ | apply Keeps.ite | apply Keeps.dite | apply barWrite_keeps
      | apply contextAction_keeps | (intro _) | split)

theorem execContextDestroy_keeps (core : CoreN) (slot : SlotN) (sb : State) :
    ∃ sc, execContextDestroy core slot sb = .next sc ∧ Keeps false sb sc := by
  unfold execContextDestroy
  try dsimp only
  refine ⟨_, rfl, ?_⟩
  repeat'
    with_reducible (first
      | assumption | exact Keeps.refl _ _ | apply Keeps.ite | apply Keeps.dite | apply barWrite_keeps
      | apply contextAction_keeps | (intro _) | split)

theorem execContextRestart_keeps (core : CoreN) (slot : SlotN) (sb : State) :
    ∃ sc, execContextRestart core slot sb = .next sc ∧ Keeps false sb sc := by
  unfold execContextRestart
  try dsimp only
  refine ⟨_, rfl, ?_⟩
  repeat'
    with_reducible (first
      | assumption | exact Keeps.refl _ _ | apply Keeps.ite | apply Keeps.dite | apply barWrite_keeps
      | apply contextAction_keeps | (intro _) | split)

theorem execContextAbort_keeps (core : CoreN) (slot : SlotN) (sb : State) :
    ∃ sc, execContextAbort core slot sb = .next sc ∧ Keeps false sb sc := by
  unfold execContextAbort
  try dsimp only
  refine ⟨_, rfl, ?_⟩
  repeat'
    with_reducible (first
      | assumption | exact Keeps.refl _ _ | apply Keeps.ite | apply Keeps.dite | apply barWrite_keeps
      | apply contextAction_keeps | (intro _) | split)

theorem execRingProducerWrite_keeps (core : CoreN) (slot : SlotN) (v : BitVec 32) (sb : State) :
    ∃ sc, execRingProducerWrite core slot v sb = .next sc ∧ Keeps false sb sc := by
  unfold execRingProducerWrite
  try dsimp only
  refine ⟨_, rfl, ?_⟩
  repeat'
    with_reducible (first
      | assumption | exact Keeps.refl _ _ | apply Keeps.ite | apply Keeps.dite | apply barWrite_keeps
      | apply producerWrite_keeps | (intro _) | split)

theorem execRingRun_keeps (core : CoreN) (slot : SlotN) (sb : State) :
    ∃ sc, execRingRun core slot sb = .next sc ∧ Keeps false sb sc := by
  unfold execRingRun
  try dsimp only
  refine ⟨_, rfl, ?_⟩
  repeat'
    with_reducible (first
      | assumption | exact Keeps.refl _ _ | apply Keeps.ite | apply Keeps.dite | apply ringRun_keeps | (intro _) | split)

theorem execRingCopy_keeps (core : CoreN) (slot : SlotN) (sb : State) :
    ∃ sc, execRingCopy core slot sb = .next sc ∧ Keeps false sb sc := by
  unfold execRingCopy
  try dsimp only
  refine ⟨_, rfl, ?_⟩
  repeat'
    with_reducible (first
      | assumption | exact Keeps.refl _ _ | apply Keeps.ite | apply Keeps.dite | apply ringCopy_keeps | (intro _) | split)

theorem execRingWait_keeps (core : CoreN) (slot : SlotN) (sb : State) :
    ∃ sc, execRingWait core slot sb = .next sc ∧ Keeps false sb sc := by
  unfold execRingWait
  try dsimp only
  refine ⟨_, rfl, ?_⟩
  repeat'
    with_reducible (first
      | assumption | exact Keeps.refl _ _ | apply Keeps.ite | apply Keeps.dite | apply ringWait_keeps | (intro _) | split)

theorem execWaitPoll_keeps (core : CoreN) (slot : SlotN) (sb : State) :
    ∃ sc, execWaitPoll core slot sb = .next sc ∧ Keeps true sb sc := by
  unfold execWaitPoll
  try dsimp only
  refine ⟨_, rfl, ?_⟩
  repeat'
    with_reducible (first
      | assumption | exact Keeps.refl _ _ | apply Keeps.ite | apply Keeps.dite | apply waitPoll_keeps | (intro _) | split)

theorem execWaitTimeout_keeps (core : CoreN) (slot : SlotN) (sb : State) :
    ∃ sc, execWaitTimeout core slot sb = .next sc ∧ Keeps false sb sc := by
  unfold execWaitTimeout
  try dsimp only
  refine ⟨_, rfl, ?_⟩
  repeat'
    with_reducible (first
      | assumption | exact Keeps.refl _ _ | apply Keeps.ite | apply Keeps.dite | apply waitTimeout_keeps | (intro _) | split)

theorem execRingNop_keeps (core : CoreN) (slot : SlotN) (sb : State) :
    ∃ sc, execRingNop core slot sb = .next sc ∧ Keeps false sb sc := by
  unfold execRingNop
  try dsimp only
  refine ⟨_, rfl, ?_⟩
  repeat'
    with_reducible (first
      | assumption | exact Keeps.refl _ _ | apply Keeps.ite | apply Keeps.dite | apply ringNop_keeps | (intro _) | split)

end Sys2Proof.Machine
end

