-- ==== Sys2Proof/Laws/KeepGroups.lean ====
section
/-! SUPPORT. What the operations of Machine/Groups.lean keep. -/

namespace Sys2Proof.Machine

open Sys2Proof

set_option linter.unusedTactic false
set_option linter.unreachableTactic false

theorem markLost_keeps {wr : Bool} {sa sb : State} (lost : Nat → Bool) (hk : Keeps wr sa sb) :
    Keeps wr sa (markLost lost sb) := by
  unfold markLost
  try dsimp only
  repeat'
    with_reducible (first
      | assumption | apply Keeps.ite | apply Keeps.dite | (intro _) | split | refine Keeps.upd ?_ rfl)

theorem markLostAt_keeps {wr : Bool} {sa sb : State} (c : BitVec 16) (hk : Keeps wr sa sb) :
    Keeps wr sa (markLostAt c sb) := by
  unfold markLostAt
  try dsimp only
  repeat'
    with_reducible (first
      | assumption | apply Keeps.ite | apply Keeps.dite | apply markLost_keeps | (intro _) | split)

end Sys2Proof.Machine
end

