-- ==== Sys2Proof/Laws/KeepLink.lean ====
section
/-! SUPPORT. What the operations of Machine/Link.lean keep. -/

namespace Sys2Proof.Machine

open Sys2Proof

set_option linter.unusedTactic false
set_option linter.unreachableTactic false

theorem modLane_keeps {wr : Bool} {sa sb : State} (p : PortN) (l : LaneN) (f : Lane → Lane) (hk : Keeps wr sa sb) :
    Keeps wr sa (modLane p l f sb) := by
  unfold modLane
  try dsimp only
  repeat'
    with_reducible (first
      | assumption | apply Keeps.ite | apply Keeps.dite | apply modPort_keeps | (intro _) | split | refine Keeps.upd ?_ rfl)

theorem sendTraining_keeps {wr : Bool} {sa sb : State} (p : PortN) (hk : Keeps wr sa sb) :
    Keeps wr sa (sendTraining p sb) := by
  unfold sendTraining
  try dsimp only
  repeat'
    with_reducible (first
      | assumption | apply Keeps.ite | apply Keeps.dite | apply emit_keeps | (intro _) | split)

theorem changeEndPoint_keeps {wr : Bool} {sa sb : State} (p : PortN) (hk : Keeps wr sa sb) :
    Keeps wr sa (changeEndPoint p sb) := by
  unfold changeEndPoint
  try dsimp only
  repeat'
    with_reducible (first
      | assumption | apply Keeps.ite | apply Keeps.dite | (intro _) | split | refine Keeps.upd ?_ rfl)

theorem flushPort_keeps {sa sb : State} (p : PortN) (hk : Keeps true sa sb) :
    Keeps true sa (flushPort p sb) := by
  unfold flushPort
  try dsimp only
  repeat'
    with_reducible (first
      | assumption | apply Keeps.ite | apply Keeps.dite | apply changeEndPoint_keeps | apply loseMember_keeps
      | apply flushQueues_keeps | apply markLostAt_keeps | (intro _) | split)

theorem noPartner_keeps {wr : Bool} {sa sb : State} (p : PortN) (hk : Keeps wr sa sb) :
    Keeps wr sa (noPartner p sb) := by
  unfold noPartner
  try dsimp only
  repeat'
    with_reducible (first
      | assumption | apply Keeps.ite | apply Keeps.dite | apply modPort_keeps | (intro _) | split | refine Keeps.upd ?_ rfl)

theorem discardReplay_keeps {wr : Bool} {sa sb : State} (p : PortN) (hk : Keeps wr sa sb) :
    Keeps wr sa (discardReplay p sb) := by
  unfold discardReplay
  try dsimp only
  repeat'
    with_reducible (first
      | assumption | apply Keeps.ite | apply Keeps.dite | apply bumpN_keeps | apply modPort_keeps | (intro _) | split
      | refine Keeps.upd ?_ rfl)

theorem seqReset_keeps {sa sb : State} (p : PortN) (hk : Keeps true sa sb) :
    Keeps true sa (seqReset p sb) := by
  unfold seqReset
  try dsimp only
  repeat'
    with_reducible (first
      | assumption | apply Keeps.ite | apply Keeps.dite | apply changeEndPoint_keeps | apply memberDrop_keeps
      | apply loseMember_keeps | apply discardReplay_keeps | (intro _) | split)

theorem leaveActive_keeps {wr : Bool} {sa sb : State} (p : PortN) (hk : Keeps wr sa sb) :
    Keeps wr sa (leaveActive p sb) := by
  unfold leaveActive
  try dsimp only
  repeat'
    with_reducible (first
      | assumption | apply Keeps.ite | apply Keeps.dite | apply raiseCause_keeps | apply modPort_keeps | (intro _) | split
      | refine Keeps.upd ?_ rfl)

theorem toState_keeps {wr : Bool} {sa sb : State} (t : Train) (p : PortN) (hk : Keeps wr sa sb) :
    Keeps wr sa (toState t p sb) := by
  unfold toState
  try dsimp only
  repeat'
    with_reducible (first
      | assumption | apply Keeps.ite | apply Keeps.dite | apply modPort_keeps | apply leaveActive_keeps | (intro _) | split
      | refine Keeps.upd ?_ rfl)

theorem toDisabled_keeps {sa sb : State} (p : PortN) (hk : Keeps true sa sb) :
    Keeps true sa (toDisabled p sb) := by
  unfold toDisabled
  try dsimp only
  repeat'
    with_reducible (first
      | assumption | apply Keeps.ite | apply Keeps.dite | apply toState_keeps | apply flushPort_keeps | apply noPartner_keeps
      | apply modPort_keeps | (intro _) | split | refine Keeps.upd ?_ rfl)

theorem toDetect_keeps {wr : Bool} {sa sb : State} (p : PortN) (hk : Keeps wr sa sb) :
    Keeps wr sa (toDetect p sb) := by
  unfold toDetect
  try dsimp only
  repeat'
    with_reducible (first
      | assumption | apply Keeps.ite | apply Keeps.dite | apply sendTraining_keeps | apply modPort_keeps
      | apply toState_keeps | (intro _) | split | refine Keeps.upd ?_ rfl)

theorem wakePort_keeps {sa sb : State} (p : PortN) (hk : Keeps true sa sb) :
    Keeps true sa (wakePort p sb) := by
  unfold wakePort
  try dsimp only
  repeat'
    with_reducible (first
      | assumption | apply Keeps.ite | apply Keeps.dite | apply seqReset_keeps | apply noPartner_keeps | apply modPort_keeps
      | apply toDetect_keeps | apply flushPort_keeps | (intro _) | split | refine Keeps.upd ?_ rfl)

theorem toLock_keeps {wr : Bool} {sa sb : State} (clear : Bool) (p : PortN) (hk : Keeps wr sa sb) :
    Keeps wr sa (toLock clear p sb) := by
  unfold toLock
  try dsimp only
  repeat'
    with_reducible (first
      | assumption | apply Keeps.ite | apply Keeps.dite | apply sendTraining_keeps | apply modPort_keeps
      | apply toState_keeps | (intro _) | split)

theorem toExchange_keeps {wr : Bool} {sa sb : State} (p : PortN) (hk : Keeps wr sa sb) :
    Keeps wr sa (toExchange p sb) := by
  unfold toExchange
  try dsimp only
  repeat'
    with_reducible (first
      | assumption | apply Keeps.ite | apply Keeps.dite | apply sendTraining_keeps | apply toState_keeps | (intro _) | split)

theorem advance_keeps {wr : Bool} {sa sb : State} (p : PortN) (m : Nat) (cause : Nat) (next : State → State)
    (h_next : ∀ (u : State), Keeps wr sa u → Keeps wr sa (next  u)) (hk : Keeps wr sa sb) :
    Keeps wr sa (advance p m cause next sb) := by
  unfold advance
  try dsimp only
  repeat'
    with_reducible (first
      | assumption | apply Keeps.ite | apply Keeps.dite | apply h_next | apply modPort_keeps | (intro _) | split)

theorem laneFailure_keeps {wr : Bool} {sa sb : State} (p : PortN) (l : LaneN) (cause : Nat) (hk : Keeps wr sa sb) :
    Keeps wr sa (laneFailure p l cause sb) := by
  unfold laneFailure
  try dsimp only
  repeat'
    with_reducible (first
      | assumption | apply Keeps.ite | apply Keeps.dite | apply log_keeps | apply modLane_keeps | apply toExchange_keeps
      | (intro _) | split | refine Keeps.upd ?_ rfl)

theorem detected_keeps {wr : Bool} {sa sb : State} (p : PortN) (l : LaneN) (hk : Keeps wr sa sb) :
    Keeps wr sa (detected p l sb) := by
  unfold detected
  try dsimp only
  repeat'
    with_reducible (first
      | assumption | apply Keeps.ite | apply Keeps.dite | apply makeSuspect_keeps | apply toDetect_keeps | apply log_keeps
      | apply laneFailure_keeps | (intro _) | split)

theorem losAssert_keeps {wr : Bool} {sa sb : State} (p : PortN) (l : LaneN) (hk : Keeps wr sa sb) :
    Keeps wr sa (losAssert p l sb) := by
  unfold losAssert
  try dsimp only
  repeat'
    with_reducible (first
      | assumption | apply Keeps.ite | apply Keeps.dite | apply detected_keeps | apply bump_keeps | apply modLane_keeps
      | (intro _) | split | refine Keeps.upd ?_ rfl)

theorem lolAssert_keeps {wr : Bool} {sa sb : State} (p : PortN) (l : LaneN) (hk : Keeps wr sa sb) :
    Keeps wr sa (lolAssert p l sb) := by
  unfold lolAssert
  try dsimp only
  repeat'
    with_reducible (first
      | assumption | apply Keeps.ite | apply Keeps.dite | apply detected_keeps | apply bump_keeps | apply modLane_keeps
      | (intro _) | split | refine Keeps.upd ?_ rfl)

theorem losClear_keeps {wr : Bool} {sa sb : State} (p : PortN) (l : LaneN) (hk : Keeps wr sa sb) :
    Keeps wr sa (losClear p l sb) := by
  unfold losClear
  try dsimp only
  repeat'
    with_reducible (first
      | assumption | apply Keeps.ite | apply Keeps.dite | apply modLane_keeps | apply toLock_keeps | (intro _) | split
      | refine Keeps.upd ?_ rfl)

theorem lasersOff_keeps {wr : Bool} {sa sb : State} (p : PortN) (hk : Keeps wr sa sb) :
    Keeps wr sa (lasersOff p sb) := by
  unfold lasersOff
  try dsimp only
  repeat'
    with_reducible (first
      | assumption | apply Keeps.ite | apply Keeps.dite | apply makeSuspect_keeps | apply modPort_keeps | apply log_keeps
      | apply toDetect_keeps | apply Keeps.foldl | apply Keeps.foldl_snd | apply Keeps.foldl_fst | (intro _) | split
      | refine Keeps.upd ?_ rfl)

theorem laserFault_keeps {wr : Bool} {sa sb : State} (p : PortN) (l : LaneN) (hk : Keeps wr sa sb) :
    Keeps wr sa (laserFault p l sb) := by
  unfold laserFault
  try dsimp only
  repeat'
    with_reducible (first
      | assumption | apply Keeps.ite | apply Keeps.dite | apply laneFailure_keeps | apply log_keeps | apply modLane_keeps
      | (intro _) | split | refine Keeps.upd ?_ rfl)

theorem uncorrectableThreshold_keeps {wr : Bool} {sa sb : State} (p : PortN) (l : LaneN) (hk : Keeps wr sa sb) :
    Keeps wr sa (uncorrectableThreshold p l sb) := by
  unfold uncorrectableThreshold
  try dsimp only
  repeat'
    with_reducible (first
      | assumption | apply Keeps.ite | apply Keeps.dite | apply laneFailure_keeps | (intro _) | split)

theorem cdrLock_keeps {wr : Bool} {sa sb : State} (p : PortN) (lanes : Nat) (hk : Keeps wr sa sb) :
    Keeps wr sa (cdrLock p lanes sb) := by
  unfold cdrLock
  try dsimp only
  repeat'
    with_reducible (first
      | assumption | apply Keeps.ite | apply Keeps.dite | apply modPort_keeps | apply advance_keeps | apply log_keeps
      | apply sendTraining_keeps | apply toState_keeps | (intro _) | split | refine Keeps.upd ?_ rfl)

theorem slipWindowDone_keeps {wr : Bool} {sa sb : State} (p : PortN) (l : LaneN) (hits : Nat) (hk : Keeps wr sa sb) :
    Keeps wr sa (slipWindowDone p l hits sb) := by
  unfold slipWindowDone
  try dsimp only
  repeat'
    with_reducible (first
      | assumption | apply Keeps.ite | apply Keeps.dite | apply modLane_keeps | (intro _) | split | refine Keeps.upd ?_ rfl)

theorem bitSlip_keeps {wr : Bool} {sa sb : State} (src : Route) (p : PortN) (l : LaneN) (v : Nat) (hk : Keeps wr sa sb) :
    Keeps wr sa (bitSlip src p l v sb) := by
  unfold bitSlip
  try dsimp only
  repeat'
    with_reducible (first
      | assumption | apply Keeps.ite | apply Keeps.dite | apply clamped_keeps | apply modLane_keeps | (intro _) | split
      | refine Keeps.upd ?_ rfl)

theorem alignmentDone_keeps {wr : Bool} {sa sb : State} (src : Route) (p : PortN) (v : Nat) (hk : Keeps wr sa sb) :
    Keeps wr sa (alignmentDone src p v sb) := by
  unfold alignmentDone
  try dsimp only
  repeat'
    with_reducible (first
      | assumption | apply Keeps.ite | apply Keeps.dite | apply onlyOne_keeps | apply advance_keeps
      | apply sendTraining_keeps | apply modPort_keeps | apply toState_keeps | (intro _) | split | refine Keeps.upd ?_ rfl)

theorem codewordAligned_keeps {wr : Bool} {sa sb : State} (p : PortN) (lanes : Nat) (hk : Keeps wr sa sb) :
    Keeps wr sa (codewordAligned p lanes sb) := by
  unfold codewordAligned
  try dsimp only
  repeat'
    with_reducible (first
      | assumption | apply Keeps.ite | apply Keeps.dite | apply modPort_keeps | apply advance_keeps
      | apply sendTraining_keeps | apply toState_keeps | (intro _) | split | refine Keeps.upd ?_ rfl)

theorem deskewDone_keeps {wr : Bool} {sa sb : State} (p : PortN) (lanes : Nat) (hk : Keeps wr sa sb) :
    Keeps wr sa (deskewDone p lanes sb) := by
  unfold deskewDone
  try dsimp only
  repeat'
    with_reducible (first
      | assumption | apply Keeps.ite | apply Keeps.dite | apply modPort_keeps | apply advance_keeps | apply toExchange_keeps
      | (intro _) | split | refine Keeps.upd ?_ rfl)

theorem stateTimeout_keeps {wr : Bool} {sa sb : State} (t : Train) (p : PortN) (hk : Keeps wr sa sb) :
    Keeps wr sa (stateTimeout t p sb) := by
  unfold stateTimeout
  try dsimp only
  repeat'
    with_reducible (first
      | assumption | apply Keeps.ite | apply Keeps.dite | apply toDetect_keeps | (intro _) | split)

theorem judgeExchange_keeps {wr : Bool} {sa sb : State} (p : PortN) (x : TrainingSet) (hk : Keeps wr sa sb) :
    Keeps wr sa (judgeExchange p x sb) := by
  unfold judgeExchange
  try dsimp only
  repeat'
    with_reducible (first
      | assumption | apply Keeps.ite | apply Keeps.dite | apply log_keeps | apply modPort_keeps | apply toDetect_keeps
      | apply sendTraining_keeps | (intro _) | split | refine Keeps.upd ?_ rfl)

theorem takeTraining_keeps {sa sb : State} (p : PortN) (x : TrainingSet) (hk : Keeps true sa sb) :
    Keeps true sa (takeTraining p x sb) := by
  unfold takeTraining
  try dsimp only
  repeat'
    with_reducible (first
      | assumption | apply Keeps.ite | apply Keeps.dite | apply modPort_keeps | apply seqReset_keeps
      | apply judgeExchange_keeps | (intro _) | split | refine Keeps.upd ?_ rfl)

theorem trainingReceive_keeps {sa sb : State} (p : PortN) (x : TrainingSet) (hk : Keeps true sa sb) :
    Keeps true sa (trainingReceive p x sb) := by
  unfold trainingReceive
  try dsimp only
  repeat'
    with_reducible (first
      | assumption | apply Keeps.ite | apply Keeps.dite | apply bump_keeps | apply takeTraining_keeps
      | apply toExchange_keeps | (intro _) | split)

theorem recordIdentity_keeps {wr : Bool} {sa sb : State} (p : PortN) (x : TrainingSet) (hk : Keeps wr sa sb) :
    Keeps wr sa (recordIdentity p x sb) := by
  unfold recordIdentity
  try dsimp only
  repeat'
    with_reducible (first
      | assumption | apply Keeps.ite | apply Keeps.dite | apply modPort_keeps | apply log_keeps | (intro _) | split
      | refine Keeps.upd ?_ rfl)

theorem takeAck_keeps {wr : Bool} {sa sb : State} (p : PortN) (ack : BitVec 12) (hk : Keeps wr sa sb) :
    Keeps wr sa (takeAck p ack sb) := by
  unfold takeAck
  try dsimp only
  repeat'
    with_reducible (first
      | assumption | apply Keeps.ite | apply Keeps.dite | apply modPort_keeps | (intro _) | split | refine Keeps.upd ?_ rfl)

theorem resendCells_keeps {wr : Bool} {sa sb : State} (p : PortN) (hk : Keeps wr sa sb) :
    Keeps wr sa (resendCells p sb) := by
  unfold resendCells
  try dsimp only
  repeat'
    with_reducible (first
      | assumption | apply Keeps.ite | apply Keeps.dite | apply bumpN_keeps | apply emit_keeps | apply Keeps.foldl
      | apply Keeps.foldl_snd | apply Keeps.foldl_fst | (intro _) | split)

theorem replayFrom_keeps {wr : Bool} {sa sb : State} (p : PortN) (timeout : Bool) (hk : Keeps wr sa sb) :
    Keeps wr sa (replayFrom p timeout sb) := by
  unfold replayFrom
  try dsimp only
  repeat'
    with_reducible (first
      | assumption | apply Keeps.ite | apply Keeps.dite | apply toLock_keeps | apply log_keeps | apply bump_keeps
      | apply modPort_keeps | apply resendCells_keeps | (intro _) | split | refine Keeps.upd ?_ rfl)

theorem nakTaken_keeps {wr : Bool} {sa sb : State} (p : PortN) (ack : BitVec 12) (hk : Keeps wr sa sb) :
    Keeps wr sa (nakTaken p ack sb) := by
  unfold nakTaken
  try dsimp only
  repeat'
    with_reducible (first
      | assumption | apply Keeps.ite | apply Keeps.dite | apply replayFrom_keeps | apply takeAck_keeps | apply bump_keeps
      | (intro _) | split)

theorem activeEntry_keeps {wr : Bool} {sa sb : State} (p : PortN) (hk : Keeps wr sa sb) :
    Keeps wr sa (activeEntry p sb) := by
  unfold activeEntry
  try dsimp only
  repeat'
    with_reducible (first
      | assumption | apply Keeps.ite | apply Keeps.dite | apply modPort_keeps | apply elasticFault_keeps
      | apply layPools_keeps | apply recordIdentity_keeps | apply log_keeps | apply makeSuspect_keeps
      | apply raiseCause_keeps | apply takeAck_keeps | apply resendCells_keeps | (intro _) | split
      | refine Keeps.upd ?_ rfl)

theorem holdExpiry_keeps {sa sb : State} (p : PortN) (hk : Keeps true sa sb) :
    Keeps true sa (holdExpiry p sb) := by
  unfold holdExpiry
  try dsimp only
  repeat'
    with_reducible (first
      | assumption | apply Keeps.ite | apply Keeps.dite | apply log_keeps | apply modPort_keeps | apply seqReset_keeps
      | apply flushPort_keeps | apply noPartner_keeps | apply sendTraining_keeps | (intro _) | split
      | refine Keeps.upd ?_ rfl)

theorem elasticFault_keeps {wr : Bool} {sa sb : State} (p : PortN) (hk : Keeps wr sa sb) :
    Keeps wr sa (elasticFault p sb) := by
  unfold elasticFault
  try dsimp only
  repeat'
    with_reducible (first
      | assumption | apply Keeps.ite | apply Keeps.dite | apply toLock_keeps | apply modPort_keeps | apply bump_keeps
      | (intro _) | split | refine Keeps.upd ?_ rfl)

theorem skipSet_keeps {wr : Bool} {sa sb : State} (p : PortN) (fill : Nat) (hk : Keeps wr sa sb) :
    Keeps wr sa (skipSet p fill sb) := by
  unfold skipSet
  try dsimp only
  repeat'
    with_reducible (first
      | assumption | apply Keeps.ite | apply Keeps.dite | apply modPort_keeps | apply elasticFault_keeps | apply bump_keeps
      | (intro _) | split | refine Keeps.upd ?_ rfl)

theorem takeSideband_keeps {wr : Bool} {sa sb : State} (p : PortN) (b : BitVec 128) (hk : Keeps wr sa sb) :
    Keeps wr sa (takeSideband p b sb) := by
  unfold takeSideband
  try dsimp only
  repeat'
    with_reducible (first
      | assumption | apply Keeps.ite | apply Keeps.dite | apply progress_keeps | apply modPort_keeps | apply nakTaken_keeps
      | apply takeAck_keeps | apply Keeps.foldl | apply Keeps.foldl_snd | apply Keeps.foldl_fst | (intro _) | split
      | refine Keeps.upd ?_ rfl)

theorem decideKey_keeps {wr : Bool} {sa sb : State} (p : PortN) (b : Block) (opens : Option Bytes → Bool)
    (hk : Keeps wr sa sb) :
    Keeps wr sa (decideKey p b opens sb) := by
  unfold decideKey
  try dsimp only
  repeat'
    with_reducible (first
      | assumption | apply Keeps.ite | apply Keeps.dite | apply modPort_keeps | (intro _) | split | refine Keeps.upd ?_ rfl)

theorem sendNak_keeps {wr : Bool} {sa sb : State} (p : PortN) (hk : Keeps wr sa sb) :
    Keeps wr sa (sendNak p sb) := by
  unfold sendNak
  try dsimp only
  repeat'
    with_reducible (first
      | assumption | apply Keeps.ite | apply Keeps.dite | apply emit_keeps | apply modPort_keeps | apply bump_keeps
      | (intro _) | split | refine Keeps.upd ?_ rfl)

theorem countDiscard_keeps {wr : Bool} {sa sb : State} (p : PortN) (hk : Keeps wr sa sb) :
    Keeps wr sa (countDiscard p sb) := by
  unfold countDiscard
  try dsimp only
  repeat'
    with_reducible (first
      | assumption | apply Keeps.ite | apply Keeps.dite | apply modPort_keeps | (intro _) | split | refine Keeps.upd ?_ rfl)

theorem stageCell_keeps {wr : Bool} {sa sb : State} (p : PortN) (c : Cell) (hk : Keeps wr sa sb) :
    Keeps wr sa (stageCell p c sb) := by
  unfold stageCell
  dsimp only
  apply Keeps.ite
  · exact fun _ => countDiscard_keeps _ hk
  · intro _
    apply Keeps.ite
    · intro _
      have a := allocBuf_keeps p c.vc.toNat c.tenant.toNat c hk
      split
      · rename_i e
        rw [e] at a
        exact modPort_keeps _ _ a
      · rename_i e
        rw [e] at a
        exact a
    · exact fun _ => modPort_keeps _ _ hk

theorem acceptCell_keeps {wr : Bool} {sa sb : State} (p : PortN) (b : Block) (c : Cell) (hk : Keeps wr sa sb) :
    Keeps wr sa (acceptCell p b c sb) := by
  unfold acceptCell
  try dsimp only
  repeat'
    with_reducible (first
      | assumption | apply Keeps.ite | apply Keeps.dite | apply stageCell_keeps | apply modPort_keeps | apply bump_keeps
      | apply sendNak_keeps | apply countDiscard_keeps | (intro _) | split | refine Keeps.upd ?_ rfl)

theorem cellReceive_keeps {wr : Bool} {sa sb : State} (p : PortN) (b : Block) (hk : Keeps wr sa sb) :
    Keeps wr sa (cellReceive p b sb) := by
  unfold cellReceive
  try dsimp only
  repeat'
    with_reducible (first
      | assumption | apply Keeps.ite | apply Keeps.dite | apply decideKey_keeps | apply acceptCell_keeps
      | apply takeSideband_keeps | apply bump_keeps | apply sendNak_keeps | (intro _) | split)

theorem idleReceive_keeps {wr : Bool} {sa sb : State} (p : PortN) (b : Block) (hk : Keeps wr sa sb) :
    Keeps wr sa (idleReceive p b sb) := by
  unfold idleReceive
  try dsimp only
  repeat'
    with_reducible (first
      | assumption | apply Keeps.ite | apply Keeps.dite | apply decideKey_keeps | apply takeSideband_keeps | (intro _)
      | split)

theorem recheckCredits_keeps {wr : Bool} {sa sb : State} (src : Route) (p : PortN) (hk : Keeps wr sa sb) :
    Keeps wr sa (recheckCredits src p sb) := by
  unfold recheckCredits
  try dsimp only
  repeat'
    with_reducible (first
      | assumption | apply Keeps.ite | apply Keeps.dite | apply clamped_keeps | apply odSet_keeps | apply Keeps.foldl
      | apply Keeps.foldl_snd | apply Keeps.foldl_fst | (intro _) | split)

theorem roleWrite_keeps {sa sb : State} (src : Route) (p : PortN) (v : Nat) (hk : Keeps true sa sb) :
    Keeps true sa (roleWrite src p v sb) := by
  unfold roleWrite
  try dsimp only
  repeat'
    with_reducible (first
      | assumption | apply Keeps.ite | apply Keeps.dite | apply refuseCondition_keeps | apply keepTwo_keeps
      | apply clamped_keeps | apply odSet_keeps | apply recheckCredits_keeps | apply toDisabled_keeps | apply wakePort_keeps
      | (intro _) | split)

theorem mediumWrite_keeps {wr : Bool} {sa sb : State} (src : Route) (p : PortN) (v : Nat) (hk : Keeps wr sa sb) :
    Keeps wr sa (mediumWrite src p v sb) := by
  unfold mediumWrite
  try dsimp only
  repeat'
    with_reducible (first
      | assumption | apply Keeps.ite | apply Keeps.dite | apply refuseCondition_keeps | apply keepTwo_keeps | (intro _)
      | split)

theorem creditWrite_keeps {wr : Bool} {sa sb : State} (src : Route) (p : PortN) (vc : Nat) (v : Nat)
    (hk : Keeps wr sa sb) :
    Keeps wr sa (creditWrite src p vc v sb) := by
  unfold creditWrite
  try dsimp only
  repeat'
    with_reducible (first
      | assumption | apply Keeps.ite | apply Keeps.dite | apply keepScalar_keeps | apply refuseRule_keeps | (intro _)
      | split)

theorem tenantShareWrite_keeps {wr : Bool} {sa sb : State} (src : Route) (t : Nat) (v : Nat) (hk : Keeps wr sa sb) :
    Keeps wr sa (tenantShareWrite src t v sb) := by
  unfold tenantShareWrite
  try dsimp only
  repeat'
    with_reducible (first
      | assumption | apply Keeps.ite | apply Keeps.dite | apply keepScalar_keeps | apply Keeps.foldl | apply Keeps.foldl_snd
      | apply Keeps.foldl_fst | (intro _) | split)

theorem coordinateCommit_keeps {wr : Bool} {sa sb : State} (src : Route) (v : Nat) (hk : Keeps wr sa sb) :
    Keeps wr sa (coordinateCommit src v sb) := by
  unfold coordinateCommit
  try dsimp only
  repeat'
    with_reducible (first
      | assumption | apply Keeps.ite | apply Keeps.dite | apply refuseCondition_keeps | apply keepScalar_keeps
      | apply forPorts_keeps | apply toExchange_keeps | (intro _) | split)

end Sys2Proof.Machine
end

