-- ==== Sys2Proof/Laws/KeepArrive.lean ====
section
/-! SUPPORT. What the operations of Machine/Arrive.lean keep. -/

namespace Sys2Proof.Machine

open Sys2Proof

set_option linter.unusedTactic false
set_option linter.unreachableTactic false

theorem discardCell_keeps {wr : Bool} {sa sb : State} (a : Arrival) (hk : Keeps wr sa sb) :
    Keeps wr sa (discardCell a sb) := by
  unfold discardCell
  try dsimp only
  repeat'
    with_reducible (first
      | assumption | apply Keeps.ite | apply Keeps.dite | apply giveBack_keeps | (intro _) | split)

theorem discardCount_keeps {wr : Bool} {sa sb : State} (a : Arrival) (sub : Nat) (hk : Keeps wr sa sb) :
    Keeps wr sa (discardCount a sub sb) := by
  unfold discardCount
  try dsimp only
  repeat'
    with_reducible (first
      | assumption | apply Keeps.ite | apply Keeps.dite | apply discardCell_keeps | apply bump_keeps | (intro _) | split)

theorem answerCell_keeps {wr : Bool} {sa sb : State} (a : Arrival) (c : Cell) (code : Nat) (detail : Nat)
    (hk : Keeps wr sa sb) :
    Keeps wr sa (answerCell a c code detail sb) := by
  unfold answerCell
  try dsimp only
  repeat'
    with_reducible (first
      | assumption | apply Keeps.ite | apply Keeps.dite | apply answerIn_keeps | (intro _) | split)

theorem requestTo_keeps {wr : Bool} {sa sb : State} (a : Arrival) (o : Nat) (c : Cell) (hk : Keeps wr sa sb) :
    Keeps wr sa (requestTo a o c sb) := by
  unfold requestTo
  try dsimp only
  repeat'
    with_reducible (first
      | assumption | apply Keeps.ite | apply Keeps.dite | apply answerCell_keeps | apply bump_keeps | apply discardCell_keeps
      | apply directoryTake_keeps | apply enqueue_keeps | (intro _) | split)

theorem routeArrival_keeps {wr : Bool} {sa sb : State} (a : Arrival) (c : Cell) (hk : Keeps wr sa sb) :
    Keeps wr sa (routeArrival a c sb) := by
  unfold routeArrival
  try dsimp only
  repeat'
    with_reducible (first
      | assumption | apply Keeps.ite | apply Keeps.dite | apply discardCount_keeps | apply discardCell_keeps
      | apply countDropped_keeps | apply requestTo_keeps | apply modPort_keeps | apply bump_keeps | apply enqueue_keeps
      | (intro _) | split | refine Keeps.upd ?_ rfl)

theorem takeManagement_keeps {wr : Bool} {sa sb : State} (p : PortN) (a : Arrival) (c : Cell) (hk : Keeps wr sa sb) :
    Keeps wr sa (takeManagement p a c sb) := by
  unfold takeManagement
  try dsimp only
  repeat'
    with_reducible (first
      | assumption | apply Keeps.ite | apply Keeps.dite | apply modPort_keeps | apply discardCell_keeps | (intro _) | split
      | refine Keeps.upd ?_ rfl)

theorem portArrival_keeps {wr : Bool} {sa sb : State} (p : PortN) (a : Arrival) (c : Cell) (hk : Keeps wr sa sb) :
    Keeps wr sa (portArrival p a c sb) := by
  unfold portArrival
  try dsimp only
  repeat'
    with_reducible (first
      | assumption | apply Keeps.ite | apply Keeps.dite | apply discardCount_keeps | apply takeManagement_keeps
      | apply discardCell_keeps | apply countDiscard_keeps | apply answerCell_keeps | apply noticeAnswered_keeps
      | apply acceptScheduled_keeps | apply takeResponse_keeps | apply routeArrival_keeps | (intro _) | split
      | refine Keeps.upd ?_ rfl)

theorem bepArrival_keeps {wr : Bool} {sa sb : State} (c : Cell) (hk : Keeps wr sa sb) :
    Keeps wr sa (bepArrival c sb) := by
  unfold bepArrival
  try dsimp only
  repeat'
    with_reducible (first
      | assumption | apply Keeps.ite | apply Keeps.dite | apply bump_keeps | apply answerCell_keeps
      | apply routeArrival_keeps | (intro _) | split | refine Keeps.upd ?_ rfl)

theorem cellArrival_keeps {wr : Bool} {sa sb : State} (input : Nat) (hk : Keeps wr sa sb) :
    Keeps wr sa (cellArrival input sb) := by
  unfold cellArrival
  try dsimp only
  repeat'
    with_reducible (first
      | assumption | apply Keeps.ite | apply Keeps.dite | apply modPort_keeps | apply portArrival_keeps
      | apply bepArrival_keeps | (intro _) | split | refine Keeps.upd ?_ rfl)

theorem latchShares_keeps {wr : Bool} {sa sb : State} (hk : Keeps wr sa sb) :
    Keeps wr sa (latchShares sb) := by
  unfold latchShares
  try dsimp only
  repeat'
    with_reducible (first
      | assumption | apply Keeps.ite | apply Keeps.dite | (intro _) | split | refine Keeps.upd ?_ rfl)

theorem roundStart_keeps {wr : Bool} {sa sb : State} (hk : Keeps wr sa sb) :
    Keeps wr sa (roundStart sb) := by
  unfold roundStart
  try dsimp only
  repeat'
    with_reducible (first
      | assumption | apply Keeps.ite | apply Keeps.dite | apply latchShares_keeps | apply roundStartTime_keeps
      | apply windowRound_keeps | apply Keeps.foldl | apply Keeps.foldl_snd | apply Keeps.foldl_fst | (intro _) | split)

end Sys2Proof.Machine
end

