-- ==== Sys2Proof/Laws/CommandsArrive.lean ====
section
/-! SUPPORT. What the commands of Machine/Arrive.lean keep; each ends in a next state. -/

namespace Sys2Proof.Machine

open Sys2Proof

set_option linter.unusedTactic false
set_option linter.unreachableTactic false

theorem execCellArrival_keeps (input : InputN) (sb : State) :
    ∃ sc, execCellArrival input sb = .next sc ∧ Keeps false sb sc := by
  unfold execCellArrival
  try dsimp only
  refine ⟨_, rfl, ?_⟩
  repeat'
    with_reducible (first
      | assumption | exact Keeps.refl _ _ | apply Keeps.ite | apply Keeps.dite | apply cellArrival_keeps | (intro _) | split)

theorem execRoundStart_keeps (sb : State) :
    ∃ sc, execRoundStart sb = .next sc ∧ Keeps false sb sc := by
  unfold execRoundStart
  try dsimp only
  refine ⟨_, rfl, ?_⟩
  repeat'
    with_reducible (first
      | assumption | exact Keeps.refl _ _ | apply Keeps.ite | apply Keeps.dite | apply roundStart_keeps | (intro _) | split)

end Sys2Proof.Machine
end

