-- ==== Sys2Proof/Laws/KeepAuction.lean ====
section
/-! SUPPORT. What the operations of Machine/Auction.lean keep. -/

namespace Sys2Proof.Machine

open Sys2Proof

set_option linter.unusedTactic false
set_option linter.unreachableTactic false

theorem chargeClass_keeps {wr : Bool} {sa sb : State} (w : Owner) (k : Nat) (hk : Keeps wr sa sb) :
    Keeps wr sa (chargeClass w k sb) := by
  unfold chargeClass
  try dsimp only
  repeat'
    with_reducible (first
      | assumption | apply Keeps.ite | apply Keeps.dite | apply modCal_keeps | (intro _) | split | refine Keeps.upd ?_ rfl)

theorem sendOut_keeps {wr : Bool} {sa sb : State} (o : Nat) (c : Cell) (hk : Keeps wr sa sb) :
    Keeps wr sa (sendOut o c sb) := by
  unfold sendOut
  try dsimp only
  repeat'
    with_reducible (first
      | assumption | apply Keeps.ite | apply Keeps.dite | apply issueCell_keeps | (intro _) | split
      | refine Keeps.upd ?_ rfl)

theorem sendHead_keeps {wr : Bool} {sa sb : State} (key : Nat) (hk : Keeps wr sa sb) :
    Keeps wr sa (sendHead key sb) := by
  unfold sendHead
  try dsimp only
  repeat'
    with_reducible (first
      | assumption | apply Keeps.ite | apply Keeps.dite | apply setVoq_keeps | apply noteDeparture_keeps
      | apply grottoDepart_keeps | apply progress_keeps | apply releaseCopy_keeps | apply sendOut_keeps | (intro _) | split)

theorem sendScheduled_keeps {wr : Bool} {sa sb : State} (i : Nat) (e : Nat) (o : Nat) (c : Cell) (hk : Keeps wr sa sb) :
    Keeps wr sa (sendScheduled i e o c sb) := by
  unfold sendScheduled
  try dsimp only
  repeat'
    with_reducible (first
      | assumption | apply Keeps.ite | apply Keeps.dite | apply issueCell_keeps | apply departed_keeps
      | apply noteDelivery_keeps | apply engineTake_keeps | (intro _) | split | refine Keeps.upd ?_ rfl)

theorem reservedSlot_keeps {wr : Bool} {sa : State} (o : Nat) (t : Turn) (hk : Keeps wr sa t.s) :
    Keeps wr sa (reservedSlot o t).s := by
  unfold reservedSlot
  split
  · exact hk
  · dsimp only
    split
    · dsimp only
      apply Keeps.ite
      · exact fun _ => releaseRef_keeps _ _ _ (bump_keeps _ _ hk)
      · exact fun _ => bump_keeps _ _ hk
    · rename_i e _ _ i _ _
      generalize hu : (if eInput e = 24 ∧ eChunk e = 0xFFFFF then
        ({ s := checkDigests i t.s, reads := t.reads, buffers := t.buffers, free := t.free } : Turn) else t) = u
      have a : Keeps wr sa u.s := by
        rw [← hu]
        split
        · exact checkDigests_keeps _ hk
        · exact hk
      repeat'
        with_reducible (first
          | assumption | apply Keeps.ite | apply releaseRef_keeps | apply slotMissed_keeps | apply sendScheduled_keeps
          | apply bump_keeps | (intro _) | split)

theorem acceptFor_keeps {wr : Bool} {sa : State} (iter : Nat) (grants : List (Nat × Nat × Nat)) (t : Turn) (i : Nat)
    (hk : Keeps wr sa t.s) : Keeps wr sa (acceptFor iter grants t i).s := by
  unfold acceptFor
  dsimp only
  generalize ((circle (t.s.sw.aptr.toList.getD i 0)).filterMap (fun o => grants.find? (fun g => g.1 == o && g.2.1 == i))).take
    (t.reads.getD i 0) = l
  induction l generalizing t with
  | nil => exact hk
  | cons g r ih =>
    rw [List.foldl_cons]
    apply ih
    dsimp only
    apply Keeps.ite
    · exact fun _ => Keeps.upd (sendHead_keeps _ hk) rfl
    · exact fun _ => sendHead_keeps _ hk

theorem iterate_keeps {wr : Bool} {sa : State} (iter : Nat) (t : Turn) (hk : Keeps wr sa t.s) :
    Keeps wr sa (iterate iter t).s := by
  unfold iterate
  dsimp only
  generalize t.free.filterMap (fun o => (grantFor t o).map (fun g => (o, g))) = found
  have a : Keeps wr sa (found.foldl (fun s x => chargeClass x.2.2.2.2 x.2.2.2.1 s) t.s) :=
    Keeps.foldl _ (fun u x h => chargeClass_keeps _ _ h) hk
  generalize found.foldl (fun s x => chargeClass x.2.2.2.2 x.2.2.2.1 s) t.s = v at a
  suffices ∀ (l : List Nat) (u : Turn), Keeps wr sa u.s →
      Keeps wr sa (l.foldl (acceptFor iter (found.map (fun x => (x.1, x.2.1, x.2.2.1)))) u).s from this _ _ a
  intro l
  induction l with
  | nil => exact fun u h => h
  | cons i r ih => exact fun u h => ih _ (acceptFor_keeps _ _ _ _ h)

theorem reservedSlots_keep {wr : Bool} {sa : State} (l : List Nat) (u : Turn) (h : Keeps wr sa u.s) :
    Keeps wr sa (l.foldl (fun t o => reservedSlot o t) u).s := by
  induction l generalizing u with
  | nil => exact h
  | cons i r ih =>
    rw [List.foldl_cons]
    exact ih (reservedSlot i u) (reservedSlot_keeps i u h)

theorem iterations_keep {wr : Bool} {sa : State} (l : List Nat) (u : Turn) (h : Keeps wr sa u.s) :
    Keeps wr sa (l.foldl (fun t n => iterate n t) u).s := by
  induction l generalizing u with
  | nil => exact h
  | cons i r ih =>
    rw [List.foldl_cons]
    exact ih (iterate i u) (iterate_keeps i u h)

theorem auction_keeps {wr : Bool} {sa sb : State} (hk : Keeps wr sa sb) : Keeps wr sa (auction sb) := by
  unfold auction
  apply Keeps.ite
  · exact fun _ => hk
  · intro _
    extract_lets t0 t1
    have a : Keeps wr sa t0.s := by
      exact reservedSlots_keep (List.range 25) { s := sb } hk
    clear_value t0
    have b : Keeps wr sa t1.s := by
      show Keeps wr sa (if withheld t0.s then t0 else (List.range 4).foldl (fun t n => iterate n t) t0).s
      split
      · exact a
      · exact iterations_keep (List.range 4) t0 a
    clear_value t1
    exact takeHeads_keeps (serveReplies_keeps b)

end Sys2Proof.Machine
end

