-- ==== Sys2Proof/Laws/CommandsAuction.lean ====
section
/-! SUPPORT. What the commands of Machine/Auction.lean keep; each ends in a next state. -/

namespace Sys2Proof.Machine

open Sys2Proof

set_option linter.unusedTactic false
set_option linter.unreachableTactic false

theorem execAuctionTick_keeps (sb : State) :
    ∃ sc, execAuctionTick sb = .next sc ∧ Keeps false sb sc := by
  unfold execAuctionTick
  try dsimp only
  refine ⟨_, rfl, ?_⟩
  repeat'
    with_reducible (first
      | assumption | exact Keeps.refl _ _ | apply Keeps.ite | apply Keeps.dite | apply coreCycle_keeps | apply auction_keeps
      | (intro _) | split)

end Sys2Proof.Machine
end

