-- ==== Sys2Proof/Laws/CommandsBep.lean ====
section
/-! SUPPORT. What the commands of Machine/Bep.lean keep; each ends in a next state. -/

namespace Sys2Proof.Machine

open Sys2Proof

set_option linter.unusedTactic false
set_option linter.unreachableTactic false

theorem execLd_keeps (c : Cell) (sb : State) :
    ∃ sc, execLd c sb = .next sc ∧ Keeps true sb sc := by
  unfold execLd
  try dsimp only
  refine ⟨_, rfl, ?_⟩
  repeat'
    with_reducible (first
      | assumption | exact Keeps.refl _ _ | apply Keeps.ite | apply Keeps.dite | apply serveRequest_keeps | (intro _) | split
      | refine Keeps.upd ?_ rfl)

theorem execLdv_keeps (c : Cell) (sb : State) :
    ∃ sc, execLdv c sb = .next sc ∧ Keeps true sb sc := by
  unfold execLdv
  try dsimp only
  refine ⟨_, rfl, ?_⟩
  repeat'
    with_reducible (first
      | assumption | exact Keeps.refl _ _ | apply Keeps.ite | apply Keeps.dite | apply serveRequest_keeps | (intro _) | split
      | refine Keeps.upd ?_ rfl)

theorem execLda_keeps (c : Cell) (sb : State) :
    ∃ sc, execLda c sb = .next sc ∧ Keeps true sb sc := by
  unfold execLda
  try dsimp only
  refine ⟨_, rfl, ?_⟩
  repeat'
    with_reducible (first
      | assumption | exact Keeps.refl _ _ | apply Keeps.ite | apply Keeps.dite | apply serveRequest_keeps | (intro _) | split
      | refine Keeps.upd ?_ rfl)

theorem execSt_keeps (c : Cell) (sb : State) :
    ∃ sc, execSt c sb = .next sc ∧ Keeps true sb sc := by
  unfold execSt
  try dsimp only
  refine ⟨_, rfl, ?_⟩
  repeat'
    with_reducible (first
      | assumption | exact Keeps.refl _ _ | apply Keeps.ite | apply Keeps.dite | apply serveRequest_keeps | (intro _) | split
      | refine Keeps.upd ?_ rfl)

theorem execStm_keeps (c : Cell) (sb : State) :
    ∃ sc, execStm c sb = .next sc ∧ Keeps true sb sc := by
  unfold execStm
  try dsimp only
  refine ⟨_, rfl, ?_⟩
  repeat'
    with_reducible (first
      | assumption | exact Keeps.refl _ _ | apply Keeps.ite | apply Keeps.dite | apply serveRequest_keeps | (intro _) | split
      | refine Keeps.upd ?_ rfl)

theorem execStf_keeps (c : Cell) (sb : State) :
    ∃ sc, execStf c sb = .next sc ∧ Keeps true sb sc := by
  unfold execStf
  try dsimp only
  refine ⟨_, rfl, ?_⟩
  repeat'
    with_reducible (first
      | assumption | exact Keeps.refl _ _ | apply Keeps.ite | apply Keeps.dite | apply serveRequest_keeps | (intro _) | split
      | refine Keeps.upd ?_ rfl)

theorem execStl_keeps (c : Cell) (sb : State) :
    ∃ sc, execStl c sb = .next sc ∧ Keeps true sb sc := by
  unfold execStl
  try dsimp only
  refine ⟨_, rfl, ?_⟩
  repeat'
    with_reducible (first
      | assumption | exact Keeps.refl _ _ | apply Keeps.ite | apply Keeps.dite | apply serveRequest_keeps | (intro _) | split
      | refine Keeps.upd ?_ rfl)

theorem execAtIntegerAdd_keeps (c : Cell) (sb : State) :
    ∃ sc, execAtIntegerAdd c sb = .next sc ∧ Keeps true sb sc := by
  unfold execAtIntegerAdd
  try dsimp only
  refine ⟨_, rfl, ?_⟩
  repeat'
    with_reducible (first
      | assumption | exact Keeps.refl _ _ | apply Keeps.ite | apply Keeps.dite | apply serveRequest_keeps | (intro _)
      | split)

theorem execAtExactFloatAdd_keeps (c : Cell) (sb : State) :
    ∃ sc, execAtExactFloatAdd c sb = .next sc ∧ Keeps true sb sc := by
  unfold execAtExactFloatAdd
  try dsimp only
  refine ⟨_, rfl, ?_⟩
  repeat'
    with_reducible (first
      | assumption | exact Keeps.refl _ _ | apply Keeps.ite | apply Keeps.dite | apply serveRequest_keeps | (intro _)
      | split)

theorem execAtMin_keeps (c : Cell) (sb : State) :
    ∃ sc, execAtMin c sb = .next sc ∧ Keeps true sb sc := by
  unfold execAtMin
  try dsimp only
  refine ⟨_, rfl, ?_⟩
  repeat'
    with_reducible (first
      | assumption | exact Keeps.refl _ _ | apply Keeps.ite | apply Keeps.dite | apply serveRequest_keeps | (intro _)
      | split)

theorem execAtMax_keeps (c : Cell) (sb : State) :
    ∃ sc, execAtMax c sb = .next sc ∧ Keeps true sb sc := by
  unfold execAtMax
  try dsimp only
  refine ⟨_, rfl, ?_⟩
  repeat'
    with_reducible (first
      | assumption | exact Keeps.refl _ _ | apply Keeps.ite | apply Keeps.dite | apply serveRequest_keeps | (intro _)
      | split)

theorem execAtSwap_keeps (c : Cell) (sb : State) :
    ∃ sc, execAtSwap c sb = .next sc ∧ Keeps true sb sc := by
  unfold execAtSwap
  try dsimp only
  refine ⟨_, rfl, ?_⟩
  repeat'
    with_reducible (first
      | assumption | exact Keeps.refl _ _ | apply Keeps.ite | apply Keeps.dite | apply serveRequest_keeps | (intro _)
      | split)

theorem execAtCompareAndSwap_keeps (c : Cell) (sb : State) :
    ∃ sc, execAtCompareAndSwap c sb = .next sc ∧ Keeps true sb sc := by
  unfold execAtCompareAndSwap
  try dsimp only
  refine ⟨_, rfl, ?_⟩
  repeat'
    with_reducible (first
      | assumption | exact Keeps.refl _ _ | apply Keeps.ite | apply Keeps.dite | apply serveRequest_keeps | (intro _)
      | split)

theorem execAtAnd_keeps (c : Cell) (sb : State) :
    ∃ sc, execAtAnd c sb = .next sc ∧ Keeps true sb sc := by
  unfold execAtAnd
  try dsimp only
  refine ⟨_, rfl, ?_⟩
  repeat'
    with_reducible (first
      | assumption | exact Keeps.refl _ _ | apply Keeps.ite | apply Keeps.dite | apply serveRequest_keeps | (intro _)
      | split)

theorem execAtOr_keeps (c : Cell) (sb : State) :
    ∃ sc, execAtOr c sb = .next sc ∧ Keeps true sb sc := by
  unfold execAtOr
  try dsimp only
  refine ⟨_, rfl, ?_⟩
  repeat'
    with_reducible (first
      | assumption | exact Keeps.refl _ _ | apply Keeps.ite | apply Keeps.dite | apply serveRequest_keeps | (intro _)
      | split)

theorem execAtXor_keeps (c : Cell) (sb : State) :
    ∃ sc, execAtXor c sb = .next sc ∧ Keeps true sb sc := by
  unfold execAtXor
  try dsimp only
  refine ⟨_, rfl, ?_⟩
  repeat'
    with_reducible (first
      | assumption | exact Keeps.refl _ _ | apply Keeps.ite | apply Keeps.dite | apply serveRequest_keeps | (intro _)
      | split)

theorem execFen_keeps (c : Cell) (sb : State) :
    ∃ sc, execFen c sb = .next sc ∧ Keeps true sb sc := by
  unfold execFen
  try dsimp only
  refine ⟨_, rfl, ?_⟩
  repeat'
    with_reducible (first
      | assumption | exact Keeps.refl _ _ | apply Keeps.ite | apply Keeps.dite | apply serveRequest_keeps | (intro _) | split
      | refine Keeps.upd ?_ rfl)

theorem execAckRunSend_keeps (source : BitVec 16) (sb : State) :
    ∃ sc, execAckRunSend source sb = .next sc ∧ Keeps false sb sc := by
  unfold execAckRunSend
  try dsimp only
  refine ⟨_, rfl, ?_⟩
  repeat'
    with_reducible (first
      | assumption | exact Keeps.refl _ _ | apply Keeps.ite | apply Keeps.dite | apply closeRun_keeps | (intro _) | split)

theorem execHoldTimeout_keeps (source : BitVec 16) (sb : State) :
    ∃ sc, execHoldTimeout source sb = .next sc ∧ Keeps false sb sc := by
  unfold execHoldTimeout
  try dsimp only
  refine ⟨_, rfl, ?_⟩
  repeat'
    with_reducible (first
      | assumption | exact Keeps.refl _ _ | apply Keeps.ite | apply Keeps.dite | apply holdTimeout_keeps | (intro _) | split)

theorem execExactAddRegionWrite_keeps (src : Route) (k : Fin 16) (v : BitVec 64) (sb : State) :
    ∃ sc, execExactAddRegionWrite src k v sb = .next sc ∧ Keeps false sb sc := by
  unfold execExactAddRegionWrite
  try dsimp only
  refine ⟨_, rfl, ?_⟩
  repeat'
    with_reducible (first
      | assumption | exact Keeps.refl _ _ | apply Keeps.ite | apply Keeps.dite | apply exactRegionWrite_keeps | (intro _)
      | split)

end Sys2Proof.Machine
end

