-- ==== Sys2Proof/Laws/CommandsCalendar.lean ====
section
/-! SUPPORT. What the commands of Machine/Calendar.lean keep; each ends in a next state. -/

namespace Sys2Proof.Machine

open Sys2Proof

set_option linter.unusedTactic false
set_option linter.unreachableTactic false

theorem execIsolationModeWrite_keeps (src : Route) (v : BitVec 8) (sb : State) :
    ∃ sc, execIsolationModeWrite src v sb = .next sc ∧ Keeps false sb sc := by
  unfold execIsolationModeWrite
  try dsimp only
  refine ⟨_, rfl, ?_⟩
  repeat'
    with_reducible (first
      | assumption | exact Keeps.refl _ _ | apply Keeps.ite | apply Keeps.dite | apply isolationWrite_keeps
      | apply beginOp_keeps | (intro _) | split)

theorem execCalendarBeginLoad_keeps (src : Route) (v : BitVec 8) (sb : State) :
    ∃ sc, execCalendarBeginLoad src v sb = .next sc ∧ Keeps false sb sc := by
  unfold execCalendarBeginLoad
  try dsimp only
  refine ⟨_, rfl, ?_⟩
  repeat'
    with_reducible (first
      | assumption | exact Keeps.refl _ _ | apply Keeps.ite | apply Keeps.dite | apply calendarBegin_keeps
      | apply beginOp_keeps | (intro _) | split)

theorem execCalendarDataWrite_keeps (src : Route) (data : Bytes) (sb : State) :
    ∃ sc, execCalendarDataWrite src data sb = .next sc ∧ Keeps false sb sc := by
  unfold execCalendarDataWrite
  try dsimp only
  refine ⟨_, rfl, ?_⟩
  repeat'
    with_reducible (first
      | assumption | exact Keeps.refl _ _ | apply Keeps.ite | apply Keeps.dite | apply calendarData_keeps
      | apply beginOp_keeps | (intro _) | split)

theorem execCalendarSeal_keeps (src : Route) (v : BitVec 8) (sb : State) :
    ∃ sc, execCalendarSeal src v sb = .next sc ∧ Keeps false sb sc := by
  unfold execCalendarSeal
  try dsimp only
  refine ⟨_, rfl, ?_⟩
  repeat'
    with_reducible (first
      | assumption | exact Keeps.refl _ _ | apply Keeps.ite | apply Keeps.dite | apply calendarSeal_keeps
      | apply beginOp_keeps | (intro _) | split)

theorem execCalendarArm_keeps (src : Route) (v : BitVec 64) (sb : State) :
    ∃ sc, execCalendarArm src v sb = .next sc ∧ Keeps false sb sc := by
  unfold execCalendarArm
  try dsimp only
  refine ⟨_, rfl, ?_⟩
  repeat'
    with_reducible (first
      | assumption | exact Keeps.refl _ _ | apply Keeps.ite | apply Keeps.dite | apply calendarArm_keeps
      | apply beginOp_keeps | (intro _) | split)

theorem execCalendarBankSwitch_keeps (sb : State) :
    ∃ sc, execCalendarBankSwitch sb = .next sc ∧ Keeps false sb sc := by
  unfold execCalendarBankSwitch
  try dsimp only
  refine ⟨_, rfl, ?_⟩
  repeat'
    with_reducible (first
      | assumption | exact Keeps.refl _ _ | apply Keeps.ite | apply Keeps.dite | apply calendarSwitch_keeps | (intro _)
      | split)

end Sys2Proof.Machine
end

