-- ==== Sys2Proof/Laws/KeepKernels.lean ====
section
/-! SUPPORT. What the operations of Machine/Kernels.lean keep. -/

namespace Sys2Proof.Machine

open Sys2Proof

set_option linter.unusedTactic false
set_option linter.unreachableTactic false

theorem modCmp_keeps {wr : Bool} {sa sb : State} (f : Compute → Compute) (hk : Keeps wr sa sb) :
    Keeps wr sa (modCmp f sb) := by
  unfold modCmp
  try dsimp only
  repeat'
    with_reducible (first
      | assumption | apply Keeps.ite | apply Keeps.dite | (intro _) | split | refine Keeps.upd ?_ rfl)

theorem kernelLoad_keeps {wr : Bool} {sa sb : State} (src : Route) (v : Nat) (hk : Keeps wr sa sb) :
    Keeps wr sa (kernelLoad src v sb) := by
  unfold kernelLoad
  try dsimp only
  repeat'
    with_reducible (first
      | assumption | apply Keeps.ite | apply Keeps.dite | apply beginOp_keeps | apply refuseRule_keeps | apply modCmp_keeps
      | apply onlyOne_keeps | (intro _) | split | refine Keeps.upd ?_ rfl)

theorem extendMeasurement_keeps {wr : Bool} {sa sb : State} (i : Fin 9) (d : BitVec 512) (hk : Keeps wr sa sb) :
    Keeps wr sa (extendMeasurement i d sb) := by
  unfold extendMeasurement
  try dsimp only
  repeat'
    with_reducible (first
      | assumption | apply Keeps.ite | apply Keeps.dite | (intro _) | split | refine Keeps.upd ?_ rfl)

theorem postLoad_keeps {wr : Bool} {sa sb : State} (code : Nat) (kid : Nat) (hk : Keeps wr sa sb) :
    Keeps wr sa (postLoad code kid sb) := by
  unfold postLoad
  try dsimp only
  repeat'
    with_reducible (first
      | assumption | apply Keeps.ite | apply Keeps.dite | apply raiseCause_keeps | apply modCmp_keeps | (intro _) | split
      | refine Keeps.upd ?_ rfl)

theorem kernelLoadDone_keeps {sa sb : State} (hk : Keeps true sa sb) :
    Keeps true sa (kernelLoadDone sb) := by
  unfold kernelLoadDone
  try dsimp only
  repeat'
    with_reducible (first
      | assumption | apply Keeps.ite | apply Keeps.dite | apply clearRegion_keeps | apply postLoad_keeps | apply modCmp_keeps
      | apply extendMeasurement_keeps | (intro _) | split | refine Keeps.upd ?_ rfl)

theorem kernelUnload_keeps {wr : Bool} {sa sb : State} (kid : Nat) (hk : Keeps wr sa sb) :
    Keeps wr sa (kernelUnload kid sb) := by
  unfold kernelUnload
  try dsimp only
  repeat'
    with_reducible (first
      | assumption | apply Keeps.ite | apply Keeps.dite | apply beginOp_keeps | apply refuseRule_keeps | apply modCmp_keeps
      | (intro _) | split | refine Keeps.upd ?_ rfl)

end Sys2Proof.Machine
end

