-- ==== Sys2Proof/Laws/KeepAborts.lean ====
section
/-! SUPPORT. What the operations of Machine/Aborts.lean keep. -/

namespace Sys2Proof.Machine

open Sys2Proof

set_option linter.unusedTactic false
set_option linter.unreachableTactic false

theorem abortAll_keeps {wr : Bool} {sa sb : State} (domain : Nat) (target : Nat) (hk : Keeps wr sa sb) :
    Keeps wr sa (abortAll domain target sb) := by
  unfold abortAll
  try dsimp only
  repeat'
    with_reducible (first
      | assumption | apply Keeps.ite | apply Keeps.dite | apply abortCtx_keeps | apply Keeps.foldl | apply Keeps.foldl_snd
      | apply Keeps.foldl_fst | (intro _) | split)

theorem clearCore_keeps {wr : Bool} {sa sb : State} (core : Nat) (hk : Keeps wr sa sb) :
    Keeps wr sa (clearCore core sb) := by
  unfold clearCore
  try dsimp only
  repeat'
    with_reducible (first
      | assumption | apply Keeps.ite | apply Keeps.dite | apply modCmp_keeps | (intro _) | split | refine Keeps.upd ?_ rfl)

theorem resetCore_keeps {wr : Bool} {sa sb : State} (core : Nat) (hk : Keeps wr sa sb) :
    Keeps wr sa (resetCore core sb) := by
  unfold resetCore
  try dsimp only
  repeat'
    with_reducible (first
      | assumption | apply Keeps.ite | apply Keeps.dite | apply clearCore_keeps | apply abortAll_keeps | (intro _) | split)

theorem resetCluster_keeps {wr : Bool} {sa sb : State} (k : Nat) (hk : Keeps wr sa sb) :
    Keeps wr sa (resetCluster k sb) := by
  unfold resetCluster
  try dsimp only
  repeat'
    with_reducible (first
      | assumption | apply Keeps.ite | apply Keeps.dite | apply clearCore_keeps | apply abortAll_keeps | apply failStep_keeps
      | apply Keeps.foldl | apply Keeps.foldl_snd | apply Keeps.foldl_fst | (intro _) | split)

theorem dropTenantCells_keeps {wr : Bool} {sa sb : State} (t : Nat) (hk : Keeps wr sa sb) :
    Keeps wr sa (dropTenantCells t sb) := by
  unfold dropTenantCells
  try dsimp only
  repeat'
    with_reducible (first
      | assumption | apply Keeps.ite | apply Keeps.dite | apply giveBack_keeps | apply Keeps.foldl | apply Keeps.foldl_snd
      | apply Keeps.foldl_fst | (intro _) | split | refine Keeps.upd ?_ rfl)

theorem abortTenant_keeps {wr : Bool} {sa sb : State} (t : Nat) (hk : Keeps wr sa sb) :
    Keeps wr sa (abortTenant t sb) := by
  unfold abortTenant
  try dsimp only
  repeat'
    with_reducible (first
      | assumption | apply Keeps.ite | apply Keeps.dite | apply abortAll_keeps | apply modCal_keeps | apply modWin_keeps
      | apply failStep_keeps | apply dropTenantCells_keeps | apply Keeps.foldl | apply Keeps.foldl_snd
      | apply Keeps.foldl_fst | (intro _) | split | refine Keeps.upd ?_ rfl)

theorem resetPort_keeps {sa sb : State} (p : PortN) (hk : Keeps true sa sb) :
    Keeps true sa (resetPort p sb) := by
  unfold resetPort
  try dsimp only
  repeat'
    with_reducible (first
      | assumption | apply Keeps.ite | apply Keeps.dite | apply toDisabled_keeps | apply wakePort_keeps | (intro _) | split)

theorem resetCrossbar_keeps {wr : Bool} {sa sb : State} (hk : Keeps wr sa sb) :
    Keeps wr sa (resetCrossbar sb) := by
  unfold resetCrossbar
  try dsimp only
  repeat'
    with_reducible (first
      | assumption | apply Keeps.ite | apply Keeps.dite | apply modCal_keeps | apply modGrotto_keeps | apply settle_keeps
      | apply forPorts_keeps | apply modPort_keeps | apply toLock_keeps | apply Keeps.foldl | apply Keeps.foldl_snd
      | apply Keeps.foldl_fst | (intro _) | split | refine Keeps.upd ?_ rfl)

theorem resetEffect_keeps {sa sb : State} (r : ResetRun) (hk : Keeps true sa sb) :
    Keeps true sa (resetEffect r sb) := by
  unfold resetEffect
  try dsimp only
  repeat'
    with_reducible (first
      | assumption | apply Keeps.ite | apply Keeps.dite | apply resetCrossbar_keeps | apply abortTenant_keeps
      | apply resetCluster_keeps | apply resetCore_keeps | apply abortAll_keeps | apply resetPort_keeps | (intro _) | split)

theorem resetDone_keeps {wr : Bool} {sa sb : State} (r : ResetRun) (hk : Keeps wr sa sb) :
    Keeps wr sa (resetDone r sb) := by
  unfold resetDone
  try dsimp only
  repeat'
    with_reducible (first
      | assumption | apply Keeps.ite | apply Keeps.dite | apply log_keeps | apply bump_keeps | (intro _) | split
      | refine Keeps.upd ?_ rfl)

theorem beginReset_keeps {sa sb : State} (r : ResetRun) (hk : Keeps true sa sb) :
    Keeps true sa (beginReset r sb) := by
  unfold beginReset
  try dsimp only
  repeat'
    with_reducible (first
      | assumption | apply Keeps.ite | apply Keeps.dite | apply resetEffect_keeps | apply resetDone_keeps | (intro _) | split
      | refine Keeps.upd ?_ rfl)

end Sys2Proof.Machine
end

