-- ==== Sys2Proof/Laws/KeepMuster.lean ====
section
/-! SUPPORT. What the operations of Machine/Muster.lean keep. -/

namespace Sys2Proof.Machine

open Sys2Proof

set_option linter.unusedTactic false
set_option linter.unreachableTactic false

theorem modMuster_keeps {wr : Bool} {sa sb : State} (f : Muster → Muster) (hk : Keeps wr sa sb) :
    Keeps wr sa (modMuster f sb) := by
  unfold modMuster
  try dsimp only
  repeat'
    with_reducible (first
      | assumption | apply Keeps.ite | apply Keeps.dite | (intro _) | split | refine Keeps.upd ?_ rfl)

theorem sendMus_keeps {wr : Bool} {sa sb : State} (sub : Nat) (aux : Nat) (payload : Bytes) (p : PortN)
    (hk : Keeps wr sa sb) :
    Keeps wr sa (sendMus sub aux payload p sb) := by
  unfold sendMus
  try dsimp only
  repeat'
    with_reducible (first
      | assumption | apply Keeps.ite | apply Keeps.dite | apply issueCell_keeps | apply enqueue_keeps | (intro _) | split)

theorem floodMus_keeps {wr : Bool} {sa sb : State} (sub : Nat) (aux : Nat) (payload : Bytes) (but : Option PortN)
    (hk : Keeps wr sa sb) :
    Keeps wr sa (floodMus sub aux payload but sb) := by
  unfold floodMus
  try dsimp only
  repeat'
    with_reducible (first
      | assumption | apply Keeps.ite | apply Keeps.dite | apply forPorts_keeps | apply sendMus_keeps | (intro _) | split)

theorem sendSets_keeps {wr : Bool} {sa sb : State} (p : PortN) (hk : Keeps wr sa sb) :
    Keeps wr sa (sendSets p sb) := by
  unfold sendSets
  try dsimp only
  repeat'
    with_reducible (first
      | assumption | apply Keeps.ite | apply Keeps.dite | apply sendMus_keeps | apply Keeps.foldl | apply Keeps.foldl_snd
      | apply Keeps.foldl_fst | (intro _) | split)

theorem floodSets_keeps {wr : Bool} {sa sb : State} (hk : Keeps wr sa sb) :
    Keeps wr sa (floodSets sb) := by
  unfold floodSets
  try dsimp only
  repeat'
    with_reducible (first
      | assumption | apply Keeps.ite | apply Keeps.dite | apply forPorts_keeps | apply sendSets_keeps | (intro _) | split)

theorem takeMus_keeps {wr : Bool} {sa sb : State} (p : PortN) (sub : Nat) (hk : Keeps wr sa sb) :
    Keeps wr sa (takeMus p sub sb) := by
  unfold takeMus
  try dsimp only
  repeat'
    with_reducible (first
      | assumption | apply Keeps.ite | apply Keeps.dite | apply takeFrom_keeps | (intro _) | split)

theorem sendResetting_keeps {wr : Bool} {sa sb : State} (hk : Keeps wr sa sb) :
    Keeps wr sa (sendResetting sb) := by
  unfold sendResetting
  try dsimp only
  repeat'
    with_reducible (first
      | assumption | apply Keeps.ite | apply Keeps.dite | apply floodMus_keeps | (intro _) | split)

theorem musterCensus_keeps {wr : Bool} {sa sb : State} (hk : Keeps wr sa sb) :
    Keeps wr sa (musterCensus sb) := by
  unfold musterCensus
  try dsimp only
  repeat'
    with_reducible (first
      | assumption | apply Keeps.ite | apply Keeps.dite | apply odSet_keeps | apply advanceTo_keeps | apply modMuster_keeps
      | (intro _) | split | refine Keeps.upd ?_ rfl)

theorem viewOriginate_keeps {wr : Bool} {sa sb : State} (hk : Keeps wr sa sb) :
    Keeps wr sa (viewOriginate sb) := by
  unfold viewOriginate
  try dsimp only
  repeat'
    with_reducible (first
      | assumption | apply Keeps.ite | apply Keeps.dite | apply advanceTo_keeps | apply floodMus_keeps
      | apply modMuster_keeps | (intro _) | split | refine Keeps.upd ?_ rfl)

theorem relayView_keeps {wr : Bool} {sa sb : State} (p : PortN) (v : ViewCell) (hk : Keeps wr sa sb) :
    Keeps wr sa (relayView p v sb) := by
  unfold relayView
  try dsimp only
  repeat'
    with_reducible (first
      | assumption | apply Keeps.ite | apply Keeps.dite | apply modMuster_keeps | apply floodMus_keeps | (intro _) | split
      | refine Keeps.upd ?_ rfl)

theorem addChange_keeps {wr : Bool} {sa sb : State} (c : Nat) (hk : Keeps wr sa sb) :
    Keeps wr sa (addChange c sb) := by
  unfold addChange
  try dsimp only
  repeat'
    with_reducible (first
      | assumption | apply Keeps.ite | apply Keeps.dite | apply modMuster_keeps | (intro _) | split
      | refine Keeps.upd ?_ rfl)

theorem viewReceive_keeps {wr : Bool} {sa sb : State} (p : PortN) (v : ViewCell) (hk : Keeps wr sa sb) :
    Keeps wr sa (viewReceive p v sb) := by
  unfold viewReceive
  try dsimp only
  repeat'
    with_reducible (first
      | assumption | apply Keeps.ite | apply Keeps.dite | apply takeMus_keeps | apply relayView_keeps | apply sendSets_keeps
      | apply addChange_keeps | apply modMuster_keeps | (intro _) | split | refine Keeps.upd ?_ rfl)

theorem beginEpoch_keeps {wr : Bool} {sa sb : State} (e : Nat) (hk : Keeps wr sa sb) :
    Keeps wr sa (beginEpoch e sb) := by
  unfold beginEpoch
  try dsimp only
  repeat'
    with_reducible (first
      | assumption | apply Keeps.ite | apply Keeps.dite | apply bump_keeps | apply modMuster_keeps | (intro _) | split
      | refine Keeps.upd ?_ rfl)

theorem noteRestart_keeps {sa sb : State} (old : Nat) (hk : Keeps true sa sb) :
    Keeps true sa (noteRestart old sb) := by
  unfold noteRestart
  try dsimp only
  repeat'
    with_reducible (first
      | assumption | apply Keeps.ite | apply Keeps.dite | apply log_keeps | apply bump_keeps | apply modMuster_keeps
      | apply beginReset_keeps | apply Keeps.foldl | apply Keeps.foldl_snd | apply Keeps.foldl_fst | (intro _) | split
      | refine Keeps.upd ?_ rfl)

theorem startEpoch_keeps {sa sb : State} (e : Nat) (hk : Keeps true sa sb) :
    Keeps true sa (startEpoch e sb) := by
  unfold startEpoch
  try dsimp only
  repeat'
    with_reducible (first
      | assumption | apply Keeps.ite | apply Keeps.dite | apply beginEpoch_keeps | apply noteRestart_keeps
      | apply modMuster_keeps | (intro _) | split | refine Keeps.upd ?_ rfl)

theorem mergeSets_keeps {sa sb : State} (e : Nat) (f : List Nat) (l : List Nat) (hk : Keeps true sa sb) :
    Keeps true sa (mergeSets e f l sb).2 := by
  unfold mergeSets
  try dsimp only
  repeat'
    with_reducible (first
      | assumption | apply Keeps.ite | apply Keeps.dite | apply startEpoch_keeps | apply modMuster_keeps | (intro _) | split
      | refine Keeps.upd ?_ rfl)

theorem fsetReceive_keeps {sa sb : State} (p : PortN) (e : Nat) (b : Bytes) (hk : Keeps true sa sb) :
    Keeps true sa (fsetReceive p e b sb) := by
  unfold fsetReceive
  try dsimp only
  repeat'
    with_reducible (first
      | assumption | apply Keeps.ite | apply Keeps.dite | apply takeMus_keeps | apply mergeSets_keeps | apply floodMus_keeps
      | (intro _) | split)

theorem lossReceive_keeps {sa sb : State} (p : PortN) (e : Nat) (l : List Nat) (hk : Keeps true sa sb) :
    Keeps true sa (lossReceive p e l sb) := by
  unfold lossReceive
  try dsimp only
  repeat'
    with_reducible (first
      | assumption | apply Keeps.ite | apply Keeps.dite | apply takeMus_keeps | apply mergeSets_keeps | apply floodMus_keeps
      | (intro _) | split)

theorem markAllWindows_keeps {wr : Bool} {sa sb : State} (hk : Keeps wr sa sb) :
    Keeps wr sa (markAllWindows sb) := by
  unfold markAllWindows
  try dsimp only
  repeat'
    with_reducible (first
      | assumption | apply Keeps.ite | apply Keeps.dite | (intro _) | split | refine Keeps.upd ?_ rfl)

theorem detectMissing_keeps {wr : Bool} {sa sb : State} (hk : Keeps wr sa sb) :
    Keeps wr sa (detectMissing sb) := by
  unfold detectMissing
  try dsimp only
  repeat'
    with_reducible (first
      | assumption | apply Keeps.ite | apply Keeps.dite | apply bumpN_keeps | apply addChange_keeps | apply modMuster_keeps
      | apply Keeps.foldl | apply Keeps.foldl_snd | apply Keeps.foldl_fst | (intro _) | split | refine Keeps.upd ?_ rfl)

theorem decideEpoch_keeps {wr : Bool} {sa sb : State} (hk : Keeps wr sa sb) :
    Keeps wr sa (decideEpoch sb) := by
  unfold decideEpoch
  try dsimp only
  repeat'
    with_reducible (first
      | assumption | apply Keeps.ite | apply Keeps.dite | apply bump_keeps | apply modMuster_keeps | apply log_keeps
      | apply markAllWindows_keeps | apply Keeps.foldl | apply Keeps.foldl_snd | apply Keeps.foldl_fst | (intro _) | split
      | refine Keeps.upd ?_ rfl)

theorem musterWindowEnd_keeps {sa sb : State} (hk : Keeps true sa sb) :
    Keeps true sa (musterWindowEnd sb) := by
  unfold musterWindowEnd
  try dsimp only
  repeat'
    with_reducible (first
      | assumption | apply Keeps.ite | apply Keeps.dite | apply advanceTo_keeps | apply modMuster_keeps
      | apply detectMissing_keeps | apply startEpoch_keeps | apply floodSets_keeps | apply decideEpoch_keeps
      | apply Keeps.foldl | apply Keeps.foldl_snd | apply Keeps.foldl_fst | (intro _) | split | refine Keeps.upd ?_ rfl)

theorem recoveryStep_keeps {sa sb : State} (k : Nat) (hk : Keeps true sa sb) :
    Keeps true sa (recoveryStep k sb) := by
  unfold recoveryStep
  try dsimp only
  repeat'
    with_reducible (first
      | assumption | apply Keeps.ite | apply Keeps.dite | apply modMuster_keeps | apply markLost_keeps | apply forPorts_keeps
      | apply loseMember_keeps | apply log_keeps | apply Keeps.foldl | apply Keeps.foldl_snd | apply Keeps.foldl_fst
      | (intro _) | split | refine Keeps.upd ?_ rfl)

theorem musterStep_keeps {sa sb : State} (hk : Keeps true sa sb) :
    Keeps true sa (musterStep sb) := by
  unfold musterStep
  try dsimp only
  repeat'
    with_reducible (first
      | assumption | apply Keeps.ite | apply Keeps.dite | apply advanceTo_keeps | apply recoveryStep_keeps
      | apply modMuster_keeps | (intro _) | split | refine Keeps.upd ?_ rfl)

theorem readmission_keeps {wr : Bool} {sa sb : State} (hk : Keeps wr sa sb) :
    Keeps wr sa (readmission sb) := by
  unfold readmission
  try dsimp only
  repeat'
    with_reducible (first
      | assumption | apply Keeps.ite | apply Keeps.dite | apply odSet_keeps | apply advanceTo_keeps | apply modMuster_keeps
      | apply bump_keeps | apply Keeps.foldl | apply Keeps.foldl_snd | apply Keeps.foldl_fst | (intro _) | split
      | refine Keeps.upd ?_ rfl)

end Sys2Proof.Machine
end

