-- ==== Sys2Proof/Laws/KeepSteward.lean ====
section
/-! SUPPORT. What the operations of Machine/Steward.lean keep. -/

namespace Sys2Proof.Machine

open Sys2Proof

set_option linter.unusedTactic false
set_option linter.unreachableTactic false

theorem stageUpdate_keeps {sa sb : State} (i : Nat) (chunk : Nat) (j : Nat) (state : Bytes) (weights : Bytes) (t : Nat)
    (hk : Keeps true sa sb) :
    Keeps true sa (stageUpdate i chunk j state weights t sb) := by
  unfold stageUpdate
  try dsimp only
  repeat'
    with_reducible (first
      | assumption | apply Keeps.ite | apply Keeps.dite | apply writeRun_keeps | apply setShard_keeps | apply formCell_keeps
      | apply Keeps.foldl | apply Keeps.foldl_snd | apply Keeps.foldl_fst | (intro _) | split | refine Keeps.upd ?_ rfl)

theorem kernelUpdate_keeps {sa sb : State} (i : Nat) (chunk : Nat) (j : Nat) (hk : Keeps true sa sb) :
    Keeps true sa (kernelUpdate i chunk j sb) := by
  unfold kernelUpdate
  try dsimp only
  repeat'
    with_reducible (first
      | assumption | apply Keeps.ite | apply Keeps.dite | apply failStep_keeps | apply bump_keeps | apply drawn_keeps
      | apply stageUpdate_keeps | (intro _) | split)

theorem shardUpdate_keeps {sa sb : State} (i : Nat) (chunk : Nat) (hk : Keeps true sa sb) :
    Keeps true sa (shardUpdate i chunk sb) := by
  unfold shardUpdate
  try dsimp only
  repeat'
    with_reducible (first
      | assumption | apply Keeps.ite | apply Keeps.dite | apply failStep_keeps | apply kernelUpdate_keeps
      | apply stageUpdate_keeps | (intro _) | split)

theorem shardEnable_keeps {sa sb : State} (j : Nat) (hk : Keeps true sa sb) :
    Keeps true sa (shardEnable j sb) := by
  unfold shardEnable
  try dsimp only
  repeat'
    with_reducible (first
      | assumption | apply Keeps.ite | apply Keeps.dite | apply refuseRule_keeps | apply setShard_keeps
      | apply closeEntries_keeps | (intro _) | split | refine Keeps.upd ?_ rfl)

theorem shardDisable_keeps {sa sb : State} (j : Nat) (hk : Keeps true sa sb) :
    Keeps true sa (shardDisable j sb) := by
  unfold shardDisable
  try dsimp only
  repeat'
    with_reducible (first
      | assumption | apply Keeps.ite | apply Keeps.dite | apply refuseRule_keeps | apply clearRegion_keeps
      | apply setShard_keeps | apply Keeps.foldl | apply Keeps.foldl_snd | apply Keeps.foldl_fst | (intro _) | split
      | refine Keeps.upd ?_ rfl)

theorem shardWrite_keeps {sa sb : State} (src : Route) (j : Nat) (v : Nat) (hk : Keeps true sa sb) :
    Keeps true sa (shardWrite src j v sb) := by
  unfold shardWrite
  try dsimp only
  repeat'
    with_reducible (first
      | assumption | apply Keeps.ite | apply Keeps.dite | apply beginOp_keeps | apply shardDisable_keeps
      | apply shardEnable_keeps | apply clamped_keeps | (intro _) | split)

theorem recordWrite_keeps {wr : Bool} {sa sb : State} (j : Nat) (b : Bytes) (hk : Keeps wr sa sb) :
    Keeps wr sa (recordWrite j b sb) := by
  unfold recordWrite
  try dsimp only
  repeat'
    with_reducible (first
      | assumption | apply Keeps.ite | apply Keeps.dite | apply endOp_keeps | apply refuseCondition_keeps
      | apply setShard_keeps | (intro _) | split | refine Keeps.upd ?_ rfl)

end Sys2Proof.Machine
end

