-- ==== Sys2Proof/Laws/KeepSecurity.lean ====
section
/-! SUPPORT. What the operations of Machine/Security.lean keep. -/

namespace Sys2Proof.Machine

open Sys2Proof

set_option linter.unusedTactic false
set_option linter.unreachableTactic false

theorem modSec_keeps {wr : Bool} {sa sb : State} (f : Sec → Sec) (hk : Keeps wr sa sb) :
    Keeps wr sa (modSec f sb) := by
  unfold modSec
  try dsimp only
  repeat'
    with_reducible (first
      | assumption | apply Keeps.ite | apply Keeps.dite | (intro _) | split | refine Keeps.upd ?_ rfl)

theorem spdm_keeps {wr : Bool} {sa sb : State} (name : String) (data : Bytes) (hk : Keeps wr sa sb) :
    Keeps wr sa (spdm name data sb) := by
  unfold spdm
  try dsimp only
  repeat'
    with_reducible (first
      | assumption | apply Keeps.ite | apply Keeps.dite | apply emit_keeps | (intro _) | split)

theorem spdmError_keeps {wr : Bool} {sa sb : State} (what : String) (hk : Keeps wr sa sb) :
    Keeps wr sa (spdmError what sb) := by
  unfold spdmError
  try dsimp only
  repeat'
    with_reducible (first
      | assumption | apply Keeps.ite | apply Keeps.dite | apply spdm_keeps | (intro _) | split)

theorem withIdentity_keeps {wr : Bool} {sa sb : State} (f : State → State)
    (h_f : ∀ (u : State), Keeps wr sa u → Keeps wr sa (f  u)) (hk : Keeps wr sa sb) :
    Keeps wr sa (withIdentity f sb) := by
  unfold withIdentity
  try dsimp only
  repeat'
    with_reducible (first
      | assumption | apply Keeps.ite | apply Keeps.dite | apply h_f | apply spdmError_keeps | (intro _) | split)

theorem keyExchange_keeps {wr : Bool} {sa sb : State} (who : Requester) (exchange : Bytes) (hk : Keeps wr sa sb) :
    Keeps wr sa (keyExchange who exchange sb) := by
  unfold keyExchange
  try dsimp only
  repeat'
    with_reducible (first
      | assumption | apply Keeps.ite | apply Keeps.dite | apply spdmError_keeps | apply bump_keeps | apply drawn_keeps
      | apply modSec_keeps | apply spdm_keeps | (intro _) | split | refine Keeps.upd ?_ rfl)

theorem dropSession_keeps {wr : Bool} {sa sb : State} (id : Nat) (hk : Keeps wr sa sb) :
    Keeps wr sa (dropSession id sb) := by
  unfold dropSession
  try dsimp only
  repeat'
    with_reducible (first
      | assumption | apply Keeps.ite | apply Keeps.dite | apply modSec_keeps | (intro _) | split | refine Keeps.upd ?_ rfl)

theorem dropSessions_keeps {wr : Bool} {sa sb : State} (hk : Keeps wr sa sb) :
    Keeps wr sa (dropSessions sb) := by
  unfold dropSessions
  try dsimp only
  repeat'
    with_reducible (first
      | assumption | apply Keeps.ite | apply Keeps.dite | apply modSec_keeps | (intro _) | split | refine Keeps.upd ?_ rfl)

theorem finishSession_keeps {wr : Bool} {sa sb : State} (id : Nat) (verified : Bool) (hk : Keeps wr sa sb) :
    Keeps wr sa (finishSession id verified sb) := by
  unfold finishSession
  try dsimp only
  repeat'
    with_reducible (first
      | assumption | apply Keeps.ite | apply Keeps.dite | apply spdmError_keeps | apply spdm_keeps | apply bump_keeps
      | apply modSec_keeps | apply dropSession_keeps | (intro _) | split | refine Keeps.upd ?_ rfl)

theorem inSession_keeps {wr : Bool} {sa sb : State} (id : Nat) (f : Session → State → State)
    (h_f : ∀ (x0 : Session) (u : State), Keeps wr sa u → Keeps wr sa (f x0 u)) (hk : Keeps wr sa sb) :
    Keeps wr sa (inSession id f sb) := by
  unfold inSession
  try dsimp only
  repeat'
    with_reducible (first
      | assumption | apply Keeps.ite | apply Keeps.dite | apply h_f | apply spdmError_keeps | (intro _) | split)

theorem keyUpdate_keeps {wr : Bool} {sa sb : State} (id : Nat) (op : Nat) (hk : Keeps wr sa sb) :
    Keeps wr sa (keyUpdate id op sb) := by
  unfold keyUpdate
  try dsimp only
  repeat'
    with_reducible (first
      | assumption | apply Keeps.ite | apply Keeps.dite | apply spdm_keeps | apply modSec_keeps | apply inSession_keeps
      | apply spdmError_keeps | (intro _) | split | refine Keeps.upd ?_ rfl)

theorem getMeasurements_keeps {wr : Bool} {sa sb : State} (index : Nat) (signed : Bool) (nonce : Bytes)
    (hk : Keeps wr sa sb) :
    Keeps wr sa (getMeasurements index signed nonce sb) := by
  unfold getMeasurements
  try dsimp only
  repeat'
    with_reducible (first
      | assumption | apply Keeps.ite | apply Keeps.dite | apply spdm_keeps | apply spdmError_keeps | (intro _) | split)

theorem writeRegion_keeps {wr : Bool} {sa sb : State} (hk : Keeps wr sa sb) :
    Keeps wr sa (writeRegion sb) := by
  unfold writeRegion
  try dsimp only
  repeat'
    with_reducible (first
      | assumption | apply Keeps.ite | apply Keeps.dite | apply modSec_keeps | (intro _) | split | refine Keeps.upd ?_ rfl)

theorem securityWrite_keeps {wr : Bool} {sa sb : State} (index : Nat) (sub : Nat) (b : Bytes) (hk : Keeps wr sa sb) :
    Keeps wr sa (securityWrite index sub b sb) := by
  unfold securityWrite
  try dsimp only
  repeat'
    with_reducible (first
      | assumption | apply Keeps.ite | apply Keeps.dite | apply writeRegion_keeps | apply blobSet_keeps | apply endOp_keeps
      | (intro _) | split)

theorem bundleBind_keeps {wr : Bool} {sa sb : State} (src : Route) (v : Nat) (hk : Keeps wr sa sb) :
    Keeps wr sa (bundleBind src v sb) := by
  unfold bundleBind
  try dsimp only
  repeat'
    with_reducible (first
      | assumption | apply Keeps.ite | apply Keeps.dite | apply beginOp_keeps | apply refuseRule_keeps | apply modSec_keeps
      | apply onlyOne_keeps | (intro _) | split | refine Keeps.upd ?_ rfl)

theorem fillRegions_keeps {sa sb : State} (l : List (Nat × Nat)) (b : Bytes) (hk : Keeps true sa sb) :
    Keeps true sa (fillRegions l b sb) := by
  induction l generalizing b sb with
  | nil => exact hk
  | cons r l ih => exact ih _ (writeRun_keeps _ _ _ hk)

theorem bundleBindDone_keeps {sa sb : State} (hk : Keeps true sa sb) : Keeps true sa (bundleBindDone sb) := by
  unfold bundleBindDone
  apply Keeps.ite
  · exact fun _ => hk
  · intro _
    extract_lets off len j b x r open_ free s1 s2
    have a1 : Keeps true sa s1 := Keeps.ite (fun _ => clearRegion_keeps _ _ hk) (fun _ => hk)
    clear_value s1
    apply modSec_keeps
    apply Keeps.ite
    · intro _
      exact bump_keeps _ _ (extendMeasurement_keeps _ _ (shardEnable_keeps _ (setShard_keeps _ _ (fillRegions_keeps _ _ a1))))
    · intro _
      apply bump_keeps
      apply Keeps.ite
      · exact fun _ => Keeps.foldl _ (fun u q h => clearRegion_keeps _ _ h) a1
      · exact fun _ => a1

theorem setSpare_keeps {wr : Bool} {sa sb : State} (f : Option Firmware) (hk : Keeps wr sa sb) :
    Keeps wr sa (setSpare f sb) := by
  unfold setSpare
  try dsimp only
  repeat'
    with_reducible (first
      | assumption | apply Keeps.ite | apply Keeps.dite | apply modSec_keeps | (intro _) | split | refine Keeps.upd ?_ rfl)

theorem abandonFirmware_keeps {wr : Bool} {sa sb : State} (hk : Keeps wr sa sb) :
    Keeps wr sa (abandonFirmware sb) := by
  unfold abandonFirmware
  try dsimp only
  repeat'
    with_reducible (first
      | assumption | apply Keeps.ite | apply Keeps.dite | apply modSec_keeps | (intro _) | split | refine Keeps.upd ?_ rfl)

theorem firmwareSegment_keeps {wr : Bool} {sa sb : State} (first : Bool) (last : Bool) (seg : Bytes)
    (hk : Keeps wr sa sb) :
    Keeps wr sa (firmwareSegment first last seg sb) := by
  unfold firmwareSegment
  try dsimp only
  repeat'
    with_reducible (first
      | assumption | apply Keeps.ite | apply Keeps.dite | apply refuseRule_keeps | apply setSpare_keeps | apply modSec_keeps
      | apply endOp_keeps | apply abandonFirmware_keeps | apply bump_keeps | (intro _) | split | refine Keeps.upd ?_ rfl)

theorem vendorResponse_keeps {wr : Bool} {sa sb : State} (r : MbxResponse) (hk : Keeps wr sa sb) :
    Keeps wr sa (vendorResponse r sb) := by
  unfold vendorResponse
  try dsimp only
  repeat'
    with_reducible (first
      | assumption | apply Keeps.ite | apply Keeps.dite | apply spdm_keeps | (intro _) | split)

theorem denyTenant_keeps {wr : Bool} {sa sb : State} (hk : Keeps wr sa sb) :
    Keeps wr sa (denyTenant sb) := by
  unfold denyTenant
  try dsimp only
  repeat'
    with_reducible (first
      | assumption | apply Keeps.ite | apply Keeps.dite | apply bump_keeps | apply endOp_keeps | (intro _) | split)

theorem securedFirmware_keeps {wr : Bool} {sa sb : State} (first : Bool) (last : Bool) (seg : Bytes)
    (hk : Keeps wr sa sb) :
    Keeps wr sa (securedFirmware first last seg sb) := by
  unfold securedFirmware
  try dsimp only
  repeat'
    with_reducible (first
      | assumption | apply Keeps.ite | apply Keeps.dite | apply endOp_keeps | apply firmwareSegment_keeps | (intro _) | split
      | refine Keeps.upd ?_ rfl)

theorem firmwareImageWrite_keeps {wr : Bool} {sa sb : State} (id : Nat) (first : Bool) (last : Bool) (seg : Bytes)
    (hk : Keeps wr sa sb) :
    Keeps wr sa (firmwareImageWrite id first last seg sb) := by
  unfold firmwareImageWrite
  try dsimp only
  repeat'
    with_reducible (first
      | assumption | apply Keeps.ite | apply Keeps.dite | apply inSession_keeps | apply beginOp_keeps | apply bump_keeps
      | apply securedFirmware_keeps | apply denyTenant_keeps | apply vendorResponse_keeps | (intro _) | split)

end Sys2Proof.Machine
end

