-- ==== Sys2Proof/Laws/KeepResets.lean ====
section
/-! SUPPORT. What the operations of Machine/Resets.lean keep. -/

namespace Sys2Proof.Machine

open Sys2Proof

set_option linter.unusedTactic false
set_option linter.unreachableTactic false

theorem modPwr_keeps {wr : Bool} {sa sb : State} (f : Power → Power) (hk : Keeps wr sa sb) :
    Keeps wr sa (modPwr f sb) := by
  unfold modPwr
  try dsimp only
  repeat'
    with_reducible (first
      | assumption | apply Keeps.ite | apply Keeps.dite | (intro _) | split | refine Keeps.upd ?_ rfl)

theorem modResets_keeps {wr : Bool} {sa sb : State} (f : Resets → Resets) (hk : Keeps wr sa sb) :
    Keeps wr sa (modResets f sb) := by
  unfold modResets
  try dsimp only
  repeat'
    with_reducible (first
      | assumption | apply Keeps.ite | apply Keeps.dite | (intro _) | split | refine Keeps.upd ?_ rfl)

theorem enterCold_keeps {sa sb : State} (hk : Keeps true sa sb) : Keeps true sa (enterCold sb) :=
  hk.trans ⟨rfl, ⟨[], rfl⟩, Nat.le_refl _, fun _ => memoryOk_reset, fun e => by cases e⟩

theorem wakePorts_keeps {sa sb : State} (hk : Keeps true sa sb) :
    Keeps true sa (wakePorts sb) := by
  unfold wakePorts
  try dsimp only
  repeat'
    with_reducible (first
      | assumption | apply Keeps.ite | apply Keeps.dite | apply forPorts_keeps | apply wakePort_keeps | (intro _) | split)

theorem finishCold_keeps {sa sb : State} (cause : Nat) (hk : Keeps true sa sb) : Keeps true sa (finishCold cause sb) := by
  unfold finishCold
  dsimp only
  have a0 := modPwr_keeps (fun p => { p with coldHeld := false }) hk
  generalize modPwr (fun p => { p with coldHeld := false }) sb = u0 at a0
  have a1 : Keeps true sa (raiseCause 7 { u0 with mem := trainedMem u0 }) :=
    raiseCause_keeps _ (a0.trans ⟨rfl, ⟨[], rfl⟩, Nat.le_refl _, fun _ => rfl, fun e => by cases e⟩)
  generalize raiseCause 7 { u0 with mem := trainedMem u0 } = u1 at a1
  have a2 := modSec_keeps (fun c => { c with identityOk := Config.pufReconstructs }) a1
  generalize modSec (fun c => { c with identityOk := Config.pufReconstructs }) u1 = u2 at a2
  have a3 : Keeps true sa (if u2.sec.identityOk then u2 else log 0x6001 [] u2) :=
    Keeps.ite (fun _ => a2) (fun _ => log_keeps _ _ a2)
  generalize (if u2.sec.identityOk then u2 else log 0x6001 [] u2) = u3 at a3
  apply resetDone_keeps
  apply wakePorts_keeps
  apply Keeps.ite
  · intro _
    apply forPorts_keeps _ _ a3
    intro p u h
    apply Keeps.ite
    · exact fun _ => modPort_keeps _ _ h
    · exact fun _ => h
  · exact fun _ => a3

theorem coldReset_keeps {sa sb : State} (cause : Nat) (hk : Keeps true sa sb) :
    Keeps true sa (coldReset cause sb) := by
  unfold coldReset
  try dsimp only
  repeat'
    with_reducible (first
      | assumption | apply Keeps.ite | apply Keeps.dite | apply enterCold_keeps | apply finishCold_keeps | (intro _) | split)

theorem abandonMailbox_keeps {wr : Bool} {sa sb : State} (hk : Keeps wr sa sb) :
    Keeps wr sa (abandonMailbox sb) := by
  unfold abandonMailbox
  try dsimp only
  repeat'
    with_reducible (first
      | assumption | apply Keeps.ite | apply Keeps.dite | apply raiseCause_keeps | (intro _) | split
      | refine Keeps.upd ?_ rfl)

theorem stopManagement_keeps {wr : Bool} {sa sb : State} (hk : Keeps wr sa sb) :
    Keeps wr sa (stopManagement sb) := by
  unfold stopManagement
  try dsimp only
  repeat'
    with_reducible (first
      | assumption | apply Keeps.ite | apply Keeps.dite | apply dropSessions_keeps | apply abandonFirmware_keeps
      | apply abandonMailbox_keeps | apply modSec_keeps | (intro _) | split | refine Keeps.upd ?_ rfl)

theorem managementReset_keeps {wr : Bool} {sa sb : State} (r : ResetRun) (hk : Keeps wr sa sb) :
    Keeps wr sa (managementReset r sb) := by
  unfold managementReset
  try dsimp only
  repeat'
    with_reducible (first
      | assumption | apply Keeps.ite | apply Keeps.dite | apply log_keeps | apply stopManagement_keeps
      | apply modResets_keeps | (intro _) | split | refine Keeps.upd ?_ rfl)

theorem answerQueued_keeps {wr : Bool} {sa sb : State} (hk : Keeps wr sa sb) :
    Keeps wr sa (answerQueued sb) := by
  unfold answerQueued
  try dsimp only
  repeat'
    with_reducible (first
      | assumption | apply Keeps.ite | apply Keeps.dite | apply answerIn_keeps | apply modGrotto_keeps
      | apply refuseCell_keeps | apply Keeps.foldl | apply Keeps.foldl_snd | apply Keeps.foldl_fst | (intro _) | split
      | refine Keeps.upd ?_ rfl)

theorem startWarm_keeps {wr : Bool} {sa sb : State} (r : ResetRun) (hk : Keeps wr sa sb) :
    Keeps wr sa (startWarm r sb) := by
  unfold startWarm
  try dsimp only
  repeat'
    with_reducible (first
      | assumption | apply Keeps.ite | apply Keeps.dite | apply answerQueued_keeps | apply sendResetting_keeps
      | apply modResets_keeps | apply modPwr_keeps | (intro _) | split | refine Keeps.upd ?_ rfl)

theorem warmPortsDown_keeps {sa sb : State} (hk : Keeps true sa sb) :
    Keeps true sa (warmPortsDown sb) := by
  unfold warmPortsDown
  try dsimp only
  repeat'
    with_reducible (first
      | assumption | apply Keeps.ite | apply Keeps.dite | apply forPorts_keeps | apply toDisabled_keeps
      | apply raiseCause_keeps | (intro _) | split | refine Keeps.upd ?_ rfl)

theorem clearPlanes_keeps {wr : Bool} {sa sb : State} (failed : List Nat) (hk : Keeps wr sa sb) :
    Keeps wr sa (clearPlanes failed sb) := by
  unfold clearPlanes
  try dsimp only
  repeat'
    with_reducible (first
      | assumption | apply Keeps.ite | apply Keeps.dite | apply log_keeps | (intro _) | split | refine Keeps.upd ?_ rfl)

theorem startReset_keeps {sa sb : State} (r : ResetRun) (hk : Keeps true sa sb) :
    Keeps true sa (startReset r sb) := by
  unfold startReset
  try dsimp only
  repeat'
    with_reducible (first
      | assumption | apply Keeps.ite | apply Keeps.dite | apply coldReset_keeps | apply startWarm_keeps
      | apply managementReset_keeps | apply beginReset_keeps | (intro _) | split)

theorem requestReset_keeps {sa sb : State} (r : ResetRun) (hk : Keeps true sa sb) :
    Keeps true sa (requestReset r sb) := by
  unfold requestReset
  try dsimp only
  repeat'
    with_reducible (first
      | assumption | apply Keeps.ite | apply Keeps.dite | apply modResets_keeps | apply startReset_keeps | (intro _) | split
      | refine Keeps.upd ?_ rfl)

theorem startWaiting_keeps {sa sb : State} (n : Nat) (hk : Keeps true sa sb) : Keeps true sa (startWaiting n sb) := by
  induction n generalizing sb with
  | zero => exact hk
  | succ n ih =>
    unfold startWaiting
    split
    · exact hk
    · apply Keeps.ite
      · exact fun _ => hk
      · exact fun _ => ih (startReset_keeps _ (modResets_keeps _ hk))

theorem settleResets_keeps {sa sb : State} (hk : Keeps true sa sb) :
    Keeps true sa (settleResets sb) := by
  unfold settleResets
  try dsimp only
  repeat'
    with_reducible (first
      | assumption | apply Keeps.ite | apply Keeps.dite | apply modResets_keeps | apply resetDone_keeps
      | apply startWaiting_keeps | apply Keeps.foldl | apply Keeps.foldl_snd | apply Keeps.foldl_fst | (intro _) | split
      | refine Keeps.upd ?_ rfl)

theorem concludeReset_keeps {sa sb : State} (domain : Nat) (hk : Keeps true sa sb) :
    Keeps true sa (concludeReset domain sb) := by
  unfold concludeReset
  try dsimp only
  repeat'
    with_reducible (first
      | assumption | apply Keeps.ite | apply Keeps.dite | apply modResets_keeps | apply resetDone_keeps
      | apply settleResets_keeps | apply Keeps.foldl | apply Keeps.foldl_snd | apply Keeps.foldl_fst | (intro _) | split
      | refine Keeps.upd ?_ rfl)

theorem leaveWarm_keeps {sa sb : State} (failed : List Nat) (hk : Keeps true sa sb) :
    Keeps true sa (leaveWarm failed sb) := by
  unfold leaveWarm
  try dsimp only
  repeat'
    with_reducible (first
      | assumption | apply Keeps.ite | apply Keeps.dite | apply clearPlanes_keeps | apply raiseCause_keeps | apply log_keeps
      | apply concludeReset_keeps | apply wakePorts_keeps | apply Keeps.foldl | apply Keeps.foldl_snd
      | apply Keeps.foldl_fst | (intro _) | split)

theorem warmComplete_keeps {sa sb : State} (failed : List Nat) (hk : Keeps true sa sb) :
    Keeps true sa (warmComplete failed sb) := by
  unfold warmComplete
  try dsimp only
  repeat'
    with_reducible (first
      | assumption | apply Keeps.ite | apply Keeps.dite | apply leaveWarm_keeps | (intro _) | split)

theorem resetWrite_keeps {sa sb : State} (src : Route) (sub : Nat) (v : Nat) (hk : Keeps true sa sb) :
    Keeps true sa (resetWrite src sub v sb) := by
  unfold resetWrite
  try dsimp only
  repeat'
    with_reducible (first
      | assumption | apply Keeps.ite | apply Keeps.dite | apply beginOp_keeps | apply endOp_keeps | apply refuseRule_keeps
      | apply clamped_keeps | apply requestReset_keeps | (intro _) | split)

theorem ledgerFaultLimit_keeps {sa sb : State} (hk : Keeps true sa sb) :
    Keeps true sa (ledgerFaultLimit sb) := by
  unfold ledgerFaultLimit
  try dsimp only
  repeat'
    with_reducible (first
      | assumption | apply Keeps.ite | apply Keeps.dite | apply requestReset_keeps | (intro _) | split)

end Sys2Proof.Machine
end

