-- ==== Sys2Proof/Laws/KeepScrub.lean ====
section
/-! SUPPORT. What the operations of Machine/Scrub.lean keep. -/

namespace Sys2Proof.Machine

open Sys2Proof

set_option linter.unusedTactic false
set_option linter.unreachableTactic false

theorem cacheLoss_keeps {wr : Bool} {sa sb : State} (core : Nat) (line : Nat) (hk : Keeps wr sa sb) :
    Keeps wr sa (cacheLoss core line sb) := by
  unfold cacheLoss
  try dsimp only
  repeat'
    with_reducible (first
      | assumption | apply Keeps.ite | apply Keeps.dite | apply dropCache_keeps | apply ctxFault_keeps | apply Keeps.foldl
      | apply Keeps.foldl_snd | apply Keeps.foldl_fst | (intro _) | split)

theorem replyLoss_keeps {wr : Bool} {sa sb : State} (index : Nat) (hk : Keeps wr sa sb) :
    Keeps wr sa (replyLoss index sb) := by
  unfold replyLoss
  try dsimp only
  repeat'
    with_reducible (first
      | assumption | apply Keeps.ite | apply Keeps.dite | apply freeBuf_keeps | (intro _) | split | refine Keeps.upd ?_ rfl)

theorem slotLoss_keeps {wr : Bool} {sa sb : State} (input : Nat) (sbuf : Nat) (hk : Keeps wr sa sb) :
    Keeps wr sa (slotLoss input sbuf sb) := by
  unfold slotLoss
  try dsimp only
  repeat'
    with_reducible (first
      | assumption | apply Keeps.ite | apply Keeps.dite | apply bump_keeps | apply setSbuf_keeps | (intro _) | split)

theorem descriptorLoss_keeps {wr : Bool} {sa sb : State} (stall : Nat) (index : Nat) (hk : Keeps wr sa sb) :
    Keeps wr sa (descriptorLoss stall index sb) := by
  unfold descriptorLoss
  try dsimp only
  repeat'
    with_reducible (first
      | assumption | apply Keeps.ite | apply Keeps.dite | apply setBuf_keeps | apply drawn_keeps | apply ledgerFault_keeps
      | (intro _) | split | refine Keeps.upd ?_ rfl)

theorem calendarLoss_keeps {wr : Bool} {sa sb : State} (o : Nat) (off : Nat) (hk : Keeps wr sa sb) :
    Keeps wr sa (calendarLoss o off sb) := by
  unfold calendarLoss
  try dsimp only
  repeat'
    with_reducible (first
      | assumption | apply Keeps.ite | apply Keeps.dite | apply modBankCal_keeps | apply releaseRef_keeps | (intro _) | split
      | refine Keeps.upd ?_ rfl)

theorem routeLoss_keeps {wr : Bool} {sa sb : State} (table : Nat) (i : Nat) (hk : Keeps wr sa sb) :
    Keeps wr sa (routeLoss table i sb) := by
  unfold routeLoss
  try dsimp only
  repeat'
    with_reducible (first
      | assumption | apply Keeps.ite | apply Keeps.dite | apply modBank_keeps | (intro _) | split | refine Keeps.upd ?_ rfl)

theorem sramLoss_keeps {sa sb : State} (x : SramStructure) (hk : Keeps true sa sb) :
    Keeps true sa (sramLoss x sb) := by
  unfold sramLoss
  try dsimp only
  repeat'
    with_reducible (first
      | assumption | apply Keeps.ite | apply Keeps.dite | apply slotLoss_keeps | apply dropBad_keeps | apply replyLoss_keeps
      | apply descriptorLoss_keeps | apply modPort_keeps | apply discardReplay_keeps | apply toLock_keeps
      | apply holdTimeout_keeps | apply pumpWork_keeps | apply repairBlock_keeps | apply modXlat_keeps
      | apply cacheLoss_keeps | apply ctxFault_keeps | apply routeLoss_keeps | apply calendarLoss_keeps
      | apply setMode_keeps | (intro _) | split | refine Keeps.upd ?_ rfl)

theorem takeFinding_keeps {sa sb : State} (f : SramFinding) (hk : Keeps true sa sb) :
    Keeps true sa (takeFinding f sb) := by
  unfold takeFinding
  try dsimp only
  repeat'
    with_reducible (first
      | assumption | apply Keeps.ite | apply Keeps.dite | apply sramLoss_keeps | apply log_keeps | apply bump_keeps
      | (intro _) | split)

theorem takeFindings_keeps {sa sb : State} (f : SramStructure → Bool) (l : List SramFinding) (hk : Keeps true sa sb) :
    Keeps true sa (takeFindings f l sb) := by
  unfold takeFindings
  try dsimp only
  repeat'
    with_reducible (first
      | assumption | apply Keeps.ite | apply Keeps.dite | apply takeFinding_keeps | apply Keeps.foldl | apply Keeps.foldl_snd
      | apply Keeps.foldl_fst | (intro _) | split)

theorem stallScrub_keeps {sa sb : State} (l : List SramFinding) (hk : Keeps true sa sb) :
    Keeps true sa (stallScrub l sb) := by
  unfold stallScrub
  try dsimp only
  repeat'
    with_reducible (first
      | assumption | apply Keeps.ite | apply Keeps.dite | apply takeFindings_keeps | apply advanceTo_keeps | (intro _)
      | split | refine Keeps.upd ?_ rfl)

theorem structureScrub_keeps {sa sb : State} (l : List SramFinding) (hk : Keeps true sa sb) :
    Keeps true sa (structureScrub l sb) := by
  unfold structureScrub
  try dsimp only
  repeat'
    with_reducible (first
      | assumption | apply Keeps.ite | apply Keeps.dite | apply takeFindings_keeps | apply advanceTo_keeps | (intro _)
      | split)

theorem eventAcknowledge_keeps {wr : Bool} {sa sb : State} (v : Nat) (hk : Keeps wr sa sb) :
    Keeps wr sa (eventAcknowledge v sb) := by
  unfold eventAcknowledge
  try dsimp only
  repeat'
    with_reducible (first
      | assumption | apply Keeps.ite | apply Keeps.dite | apply lookAlert_keeps | apply log_keeps | (intro _) | split
      | refine Keeps.upd ?_ rfl)

end Sys2Proof.Machine
end

