-- ==== Sys2Proof/Laws/KeepDict.lean ====
section
/-! SUPPORT. What the operations of Machine/Dict.lean keep. -/

namespace Sys2Proof.Machine

open Sys2Proof

set_option linter.unusedTactic false
set_option linter.unreachableTactic false

theorem modDict_keeps {wr : Bool} {sa sb : State} (f : Dict → Dict) (hk : Keeps wr sa sb) :
    Keeps wr sa (modDict f sb) := by
  unfold modDict
  try dsimp only
  repeat'
    with_reducible (first
      | assumption | apply Keeps.ite | apply Keeps.dite | (intro _) | split | refine Keeps.upd ?_ rfl)

theorem thresholdWrite_keeps {wr : Bool} {sa sb : State} (src : Route) (sub : Nat) (v : Nat) (hk : Keeps wr sa sb) :
    Keeps wr sa (thresholdWrite src sub v sb) := by
  unfold thresholdWrite
  try dsimp only
  repeat'
    with_reducible (first
      | assumption | apply Keeps.ite | apply Keeps.dite | apply keepTwo_keeps | (intro _) | split)

theorem requestTimeoutWrite_keeps {wr : Bool} {sa sb : State} (src : Route) (v : Nat) (hk : Keeps wr sa sb) :
    Keeps wr sa (requestTimeoutWrite src v sb) := by
  unfold requestTimeoutWrite
  try dsimp only
  repeat'
    with_reducible (first
      | assumption | apply Keeps.ite | apply Keeps.dite | apply keepTwo_keeps | (intro _) | split)

theorem exactPoolWrite_keeps {wr : Bool} {sa sb : State} (src : Route) (v : Nat) (hk : Keeps wr sa sb) :
    Keeps wr sa (exactPoolWrite src v sb) := by
  unfold exactPoolWrite
  try dsimp only
  repeat'
    with_reducible (first
      | assumption | apply Keeps.ite | apply Keeps.dite | apply refuseCondition_keeps | apply keepScalar_keeps | (intro _)
      | split)

theorem minWindowWrite_keeps {wr : Bool} {sa sb : State} (src : Route) (v : Nat) (hk : Keeps wr sa sb) :
    Keeps wr sa (minWindowWrite src v sb) := by
  unfold minWindowWrite
  try dsimp only
  repeat'
    with_reducible (first
      | assumption | apply Keeps.ite | apply Keeps.dite | apply keepTwo_keeps | (intro _) | split)

theorem forwardTimeoutWrite_keeps {wr : Bool} {sa sb : State} (src : Route) (v : Nat) (hk : Keeps wr sa sb) :
    Keeps wr sa (forwardTimeoutWrite src v sb) := by
  unfold forwardTimeoutWrite
  try dsimp only
  repeat'
    with_reducible (first
      | assumption | apply Keeps.ite | apply Keeps.dite | apply keepTwo_keeps | (intro _) | split)

theorem kernelPoolWrite_keeps {wr : Bool} {sa sb : State} (src : Route) (v : Nat) (hk : Keeps wr sa sb) :
    Keeps wr sa (kernelPoolWrite src v sb) := by
  unfold kernelPoolWrite
  try dsimp only
  repeat'
    with_reducible (first
      | assumption | apply Keeps.ite | apply Keeps.dite | apply refuseCondition_keeps | apply keepTwo_keeps | (intro _)
      | split)

theorem tenancyWrite_keeps {wr : Bool} {sa sb : State} (src : Route) (core : Nat) (v : Nat) (hk : Keeps wr sa sb) :
    Keeps wr sa (tenancyWrite src core v sb) := by
  unfold tenancyWrite
  try dsimp only
  repeat'
    with_reducible (first
      | assumption | apply Keeps.ite | apply Keeps.dite | apply refuseCondition_keeps | apply keepScalar_keeps | (intro _)
      | split)

theorem xlatSelectorWrite_keeps {wr : Bool} {sa sb : State} (src : Route) (v : Nat) (hk : Keeps wr sa sb) :
    Keeps wr sa (xlatSelectorWrite src v sb) := by
  unfold xlatSelectorWrite
  try dsimp only
  repeat'
    with_reducible (first
      | assumption | apply Keeps.ite | apply Keeps.dite | apply reportClamps_keeps | apply odSet_keeps | (intro _) | split)

theorem wayWrite_keeps {wr : Bool} {sa sb : State} (src : Route) (t : Nat) (v : Nat) (hk : Keeps wr sa sb) :
    Keeps wr sa (wayWrite src t v sb) := by
  unfold wayWrite
  try dsimp only
  repeat'
    with_reducible (first
      | assumption | apply Keeps.ite | apply Keeps.dite | apply refuseRule_keeps | apply keepTwo_keeps
      | apply keepScalar_keeps | apply Keeps.foldl | apply Keeps.foldl_snd | apply Keeps.foldl_fst | (intro _) | split)

theorem coordinateWrite_keeps {wr : Bool} {sa sb : State} (src : Route) (sub : Nat) (v : Nat) (limit : Nat)
    (hk : Keeps wr sa sb) :
    Keeps wr sa (coordinateWrite src sub v limit sb) := by
  unfold coordinateWrite
  try dsimp only
  repeat'
    with_reducible (first
      | assumption | apply Keeps.ite | apply Keeps.dite | apply refuseCondition_keeps | apply keepScalar_keeps | (intro _)
      | split)

theorem eventTimeWrite_keeps {wr : Bool} {sa sb : State} (src : Route) (sub : Nat) (v : Nat) (hk : Keeps wr sa sb) :
    Keeps wr sa (eventTimeWrite src sub v sb) := by
  unfold eventTimeWrite
  try dsimp only
  repeat'
    with_reducible (first
      | assumption | apply Keeps.ite | apply Keeps.dite | apply keepScalar_keeps | (intro _) | split)

theorem alertMaskWrite_keeps {wr : Bool} {sa sb : State} (src : Route) (v : Nat) (hk : Keeps wr sa sb) :
    Keeps wr sa (alertMaskWrite src v sb) := by
  unfold alertMaskWrite
  try dsimp only
  repeat'
    with_reducible (first
      | assumption | apply Keeps.ite | apply Keeps.dite | apply lookAlert_keeps | apply reportClamps_keeps
      | apply odSet_keeps | (intro _) | split)

theorem readmitWrite_keeps {wr : Bool} {sa sb : State} (b : Bytes) (hk : Keeps wr sa sb) :
    Keeps wr sa (readmitWrite b sb) := by
  unfold readmitWrite
  try dsimp only
  repeat'
    with_reducible (first
      | assumption | apply Keeps.ite | apply Keeps.dite | apply blobSet_keeps | apply endOp_keeps | (intro _) | split)

theorem musterArmWrite_keeps {wr : Bool} {sa sb : State} (src : Route) (sub : Nat) (v : Nat) (hk : Keeps wr sa sb) :
    Keeps wr sa (musterArmWrite src sub v sb) := by
  unfold musterArmWrite
  try dsimp only
  repeat'
    with_reducible (first
      | assumption | apply Keeps.ite | apply Keeps.dite | apply keepArm_keeps | (intro _) | split)

theorem frozenWrite_keeps {wr : Bool} {sa sb : State} (src : Route) (index : Nat) (sub : Nat) (v : Nat) (kept : Nat)
    (hk : Keeps wr sa sb) :
    Keeps wr sa (frozenWrite src index sub v kept sb) := by
  unfold frozenWrite
  try dsimp only
  repeat'
    with_reducible (first
      | assumption | apply Keeps.ite | apply Keeps.dite | apply refuseRule_keeps | apply keepScalar_keeps | (intro _)
      | split)

theorem retrainWrite_keeps {wr : Bool} {sa sb : State} (src : Route) (p : PortN) (v : Nat) (hk : Keeps wr sa sb) :
    Keeps wr sa (retrainWrite src p v sb) := by
  unfold retrainWrite
  try dsimp only
  repeat'
    with_reducible (first
      | assumption | apply Keeps.ite | apply Keeps.dite | apply onlyOne_keeps | apply toLock_keeps | (intro _) | split)

theorem nodeIdWrite_keeps {wr : Bool} {sa sb : State} (src : Route) (v : Nat) (hk : Keeps wr sa sb) :
    Keeps wr sa (nodeIdWrite src v sb) := by
  unfold nodeIdWrite
  try dsimp only
  repeat'
    with_reducible (first
      | assumption | apply Keeps.ite | apply Keeps.dite | apply keepScalar_keeps | (intro _) | split
      | refine Keeps.upd ?_ rfl)

theorem bootUp_keeps {wr : Bool} {sa sb : State} (hk : Keeps wr sa sb) :
    Keeps wr sa (bootUp sb) := by
  unfold bootUp
  try dsimp only
  repeat'
    with_reducible (first
      | assumption | apply Keeps.ite | apply Keeps.dite | apply emit_keeps | apply bump_keeps | (intro _) | split)

theorem afterResponse_keeps {wr : Bool} {sa sb : State} (hk : Keeps wr sa sb) :
    Keeps wr sa (afterResponse sb) := by
  unfold afterResponse
  try dsimp only
  repeat'
    with_reducible (first
      | assumption | apply Keeps.ite | apply Keeps.dite | apply bootUp_keeps | (intro _) | split | refine Keeps.upd ?_ rfl)

theorem clampDiscard_keeps {wr : Bool} {sa sb : State} (v : Nat) (hk : Keeps wr sa sb) :
    Keeps wr sa (clampDiscard v sb) := by
  unfold clampDiscard
  try dsimp only
  repeat'
    with_reducible (first
      | assumption | apply Keeps.ite | apply Keeps.dite | apply modDict_keeps | (intro _) | split | refine Keeps.upd ?_ rfl)

theorem snapshotSetWrite_keeps {wr : Bool} {sa sb : State} (src : Route) (b : Bytes) (hk : Keeps wr sa sb) :
    Keeps wr sa (snapshotSetWrite src b sb) := by
  unfold snapshotSetWrite
  try dsimp only
  repeat'
    with_reducible (first
      | assumption | apply Keeps.ite | apply Keeps.dite | apply endOp_keeps | apply clamped_keeps | apply blobSet_keeps
      | apply Keeps.foldl | apply Keeps.foldl_snd | apply Keeps.foldl_fst | (intro _) | split)

theorem armSnapshot_keeps {wr : Bool} {sa sb : State} (hk : Keeps wr sa sb) :
    Keeps wr sa (armSnapshot sb) := by
  unfold armSnapshot
  try dsimp only
  repeat'
    with_reducible (first
      | assumption | apply Keeps.ite | apply Keeps.dite | apply modDict_keeps | (intro _) | split | refine Keeps.upd ?_ rfl)

theorem snapshotTrigger_keeps {wr : Bool} {sa sb : State} (src : Route) (v : Nat) (hk : Keeps wr sa sb) :
    Keeps wr sa (snapshotTrigger src v sb) := by
  unfold snapshotTrigger
  try dsimp only
  repeat'
    with_reducible (first
      | assumption | apply Keeps.ite | apply Keeps.dite | apply armSnapshot_keeps | apply onlyOne_keeps | (intro _) | split)

theorem telemetryCapture_keeps {wr : Bool} {sa sb : State} (hk : Keeps wr sa sb) :
    Keeps wr sa (telemetryCapture sb) := by
  unfold telemetryCapture
  try dsimp only
  repeat'
    with_reducible (first
      | assumption | apply Keeps.ite | apply Keeps.dite | apply advanceTo_keeps | apply modDict_keeps | (intro _) | split
      | refine Keeps.upd ?_ rfl)

theorem snapshotReady_keeps {wr : Bool} {sa sb : State} (hk : Keeps wr sa sb) :
    Keeps wr sa (snapshotReady sb) := by
  unfold snapshotReady
  try dsimp only
  repeat'
    with_reducible (first
      | assumption | apply Keeps.ite | apply Keeps.dite | apply modDict_keeps | (intro _) | split | refine Keeps.upd ?_ rfl)

theorem storeResult_keeps {wr : Bool} {sa sb : State} (r : Nat) (hk : Keeps wr sa sb) :
    Keeps wr sa (storeResult r sb) := by
  unfold storeResult
  try dsimp only
  repeat'
    with_reducible (first
      | assumption | apply Keeps.ite | apply Keeps.dite | apply modDict_keeps | (intro _) | split | refine Keeps.upd ?_ rfl)

theorem dictionaryStore_keeps {wr : Bool} {sa sb : State} (src : Route) (v : Nat) (verified : Bool)
    (hk : Keeps wr sa sb) :
    Keeps wr sa (dictionaryStore src v verified sb) := by
  unfold dictionaryStore
  try dsimp only
  repeat'
    with_reducible (first
      | assumption | apply Keeps.ite | apply Keeps.dite | apply storeResult_keeps | apply refuseRule_keeps
      | apply onlyOne_keeps | apply modDict_keeps | (intro _) | split | refine Keeps.upd ?_ rfl)

theorem eraseImages_keeps {wr : Bool} {sa sb : State} (hk : Keeps wr sa sb) :
    Keeps wr sa (eraseImages sb) := by
  unfold eraseImages
  try dsimp only
  repeat'
    with_reducible (first
      | assumption | apply Keeps.ite | apply Keeps.dite | apply storeResult_keeps | apply modDict_keeps | (intro _) | split
      | refine Keeps.upd ?_ rfl)

theorem writePort_keeps {sa sb : State} (src : Route) (p : PortN) (k : Nat) (sub : Nat) (v : Nat)
    (hk : Keeps true sa sb) :
    Keeps true sa (writePort src p k sub v sb) := by
  unfold writePort
  try dsimp only
  repeat'
    with_reducible (first
      | assumption | apply Keeps.ite | apply Keeps.dite | apply roleWrite_keeps | apply mediumWrite_keeps
      | apply alignmentDone_keeps | apply retrainWrite_keeps | apply bitSlip_keeps | (intro _) | split)

theorem writeManagement_keeps {wr : Bool} {sa sb : State} (src : Route) (index : Nat) (sub : Nat) (v : Nat) (data : Bytes)
    (hk : Keeps wr sa sb) :
    Keeps wr sa (writeManagement src index sub v data sb) := by
  unfold writeManagement
  try dsimp only
  repeat'
    with_reducible (first
      | assumption | apply Keeps.ite | apply Keeps.dite | apply nodeIdWrite_keeps | apply eventTimeWrite_keeps
      | apply clampDiscard_keeps | apply eventAcknowledge_keeps | apply snapshotSetWrite_keeps | apply snapshotTrigger_keeps
      | (intro _) | split)

theorem writeTopology_keeps {sa sb : State} (src : Route) (index : Nat) (sub : Nat) (v : Nat) (hk : Keeps true sa sb) :
    Keeps true sa (writeTopology src index sub v sb) := by
  unfold writeTopology
  try dsimp only
  repeat'
    with_reducible (first
      | assumption | apply Keeps.ite | apply Keeps.dite | apply coordinateWrite_keeps | apply coordinateCommit_keeps
      | apply routeArmWrite_keeps | apply saltWrite_keeps | apply ngroupsWrite_keeps | apply routeBankCopy_keeps
      | apply routeEntryWrite_keeps | apply thresholdWrite_keeps | apply tenantShareWrite_keeps
      | apply requestTimeoutWrite_keeps | apply exactPoolWrite_keeps | apply exactRegionWrite_keeps
      | apply minWindowWrite_keeps | apply directoryWrite_keeps | apply recallWrite_keeps | apply forwardTimeoutWrite_keeps
      | apply windowEntryWrite_keeps | apply creditWrite_keeps | (intro _) | split)

theorem writeTime_keeps {wr : Bool} {sa sb : State} (src : Route) (index : Nat) (sub : Nat) (v : Nat) (data : Bytes)
    (hk : Keeps wr sa sb) :
    Keeps wr sa (writeTime src index sub v data sb) := by
  unfold writeTime
  try dsimp only
  repeat'
    with_reducible (first
      | assumption | apply Keeps.ite | apply Keeps.dite | apply timeRoleWrite_keeps | apply timeSourceWrite_keeps
      | apply roundLengthWrite_keeps | apply roundArmWrite_keeps | apply isolationWrite_keeps | apply calendarArm_keeps
      | apply calendarBegin_keeps | apply calendarData_keeps | apply calendarSeal_keeps | apply selectorWrite_keeps
      | (intro _) | split)

theorem writeCompute_keeps {sa sb : State} (src : Route) (index : Nat) (sub : Nat) (v : Nat) (data : Bytes)
    (hk : Keeps true sa sb) :
    Keeps true sa (writeCompute src index sub v data sb) := by
  unfold writeCompute
  try dsimp only
  repeat'
    with_reducible (first
      | assumption | apply Keeps.ite | apply Keeps.dite | apply kernelPoolWrite_keeps | apply tenancyWrite_keeps
      | apply kernelLoad_keeps | apply kernelUnload_keeps | apply reservationWrite_keeps | apply gridShapeWrite_keeps
      | apply gridMapWrite_keeps | apply descriptorWrite_keeps | apply windowWrite_keeps | apply recordWrite_keeps
      | apply shardWrite_keeps | apply invalidateAll_keeps | apply xlatSelectorWrite_keeps | (intro _) | split)

theorem writeSecurity_keeps {sa sb : State} (src : Route) (index : Nat) (sub : Nat) (v : Nat) (data : Bytes)
    (hk : Keeps true sa sb) :
    Keeps true sa (writeSecurity src index sub v data sb) := by
  unfold writeSecurity
  try dsimp only
  repeat'
    with_reducible (first
      | assumption | apply Keeps.ite | apply Keeps.dite | apply securityWrite_keeps | apply bundleBind_keeps
      | apply firmwareSegment_keeps | apply wayWrite_keeps | apply resetWrite_keeps | apply readmitWrite_keeps
      | apply musterArmWrite_keeps | apply alertMaskWrite_keeps | (intro _) | split)

theorem writeEntry_keeps {sa sb : State} (src : Route) (e : Entry) (index : Nat) (sub : Nat) (data : Bytes)
    (hk : Keeps true sa sb) :
    Keeps true sa (writeEntry src e index sub data sb) := by
  unfold writeEntry
  try dsimp only
  repeat'
    with_reducible (first
      | assumption | apply Keeps.ite | apply Keeps.dite | apply writeManagement_keeps | apply writePort_keeps
      | apply writeTopology_keeps | apply writeTime_keeps | apply writeCompute_keeps | apply writeSecurity_keeps
      | apply frozenWrite_keeps | apply keepScalar_keeps | apply blobSet_keeps | (intro _) | split)

theorem writeOne_keeps {sa sb : State} (src : Route) (index : Nat) (sub : Nat) (data : Bytes) (hk : Keeps true sa sb) :
    Keeps true sa (writeOne src index sub data sb) := by
  unfold writeOne
  try dsimp only
  repeat'
    with_reducible (first
      | assumption | apply Keeps.ite | apply Keeps.dite | apply endOp_keeps | apply beginOp_keeps | apply writeEntry_keeps
      | (intro _) | split)

theorem skipRecord_keeps {wr : Bool} {sa sb : State} (key : Nat) (kind : Nat) (value : Bytes) (hk : Keeps wr sa sb) :
    Keeps wr sa (skipRecord key kind value sb) := by
  unfold skipRecord
  try dsimp only
  repeat'
    with_reducible (first
      | assumption | apply Keeps.ite | apply Keeps.dite | apply report_keeps | (intro _) | split)

theorem applyRecord_keeps {sa sb : State} (allowed : Bool) (r : ImageRec) (hk : Keeps true sa sb) :
    Keeps true sa (applyRecord allowed sb r) := by
  unfold applyRecord
  try dsimp only
  repeat'
    with_reducible (first
      | assumption | apply Keeps.ite | apply Keeps.dite | apply skipRecord_keeps | apply writeOne_keeps | (intro _) | split)

theorem applyRecords_keeps {sa sb : State} (allowed : Bool) (l : List ImageRec) (hk : Keeps true sa sb) :
    Keeps true sa (applyRecords allowed l sb) := by
  unfold applyRecords
  try dsimp only
  repeat'
    with_reducible (first
      | assumption | apply Keeps.ite | apply Keeps.dite | apply applyRecord_keeps | apply modDict_keeps | apply Keeps.foldl
      | apply Keeps.foldl_snd | apply Keeps.foldl_fst | (intro _) | split | refine Keeps.upd ?_ rfl)

theorem clearRecord_keeps {sa sb : State} (allowed : Bool) (r : ImageRec) (hk : Keeps true sa sb) :
    Keeps true sa (clearRecord allowed sb r) := by
  unfold clearRecord
  try dsimp only
  repeat'
    with_reducible (first
      | assumption | apply Keeps.ite | apply Keeps.dite | apply skipRecord_keeps | apply setShard_keeps
      | apply applyRecord_keeps | (intro _) | split | refine Keeps.upd ?_ rfl)

theorem applyDefaults_keeps {sa sb : State} (allowed : Bool) (hk : Keeps true sa sb) :
    Keeps true sa (applyDefaults allowed sb) := by
  unfold applyDefaults
  try dsimp only
  repeat'
    with_reducible (first
      | assumption | apply Keeps.ite | apply Keeps.dite | apply clearRecord_keeps | apply applyRecord_keeps
      | apply modDict_keeps | apply Keeps.foldl | apply Keeps.foldl_snd | apply Keeps.foldl_fst | (intro _) | split
      | refine Keeps.upd ?_ rfl)

theorem storeAction_keeps {sa sb : State} (src : Route) (v : Nat) (hk : Keeps true sa sb) :
    Keeps true sa (storeAction src v sb) := by
  unfold storeAction
  try dsimp only
  repeat'
    with_reducible (first
      | assumption | apply Keeps.ite | apply Keeps.dite | apply storeResult_keeps | apply refuseRule_keeps
      | apply clamped_keeps | apply applyRecords_keeps | apply applyDefaults_keeps | apply eraseImages_keeps
      | apply modDict_keeps | (intro _) | split | refine Keeps.upd ?_ rfl)

theorem dictWrite_keeps {sa sb : State} (src : Route) (index : Nat) (sub : Nat) (data : Bytes) (hk : Keeps true sa sb) :
    Keeps true sa (dictWrite src index sub data sb) := by
  unfold dictWrite
  try dsimp only
  repeat'
    with_reducible (first
      | assumption | apply Keeps.ite | apply Keeps.dite | apply endOp_keeps | apply beginOp_keeps
      | apply dictionaryStore_keeps | apply storeAction_keeps | apply writeOne_keeps | (intro _) | split)

end Sys2Proof.Machine
end

