-- ==== Sys2Proof/Laws/KeepMailbox.lean ====
section
/-! SUPPORT. What the operations of Machine/Mailbox.lean keep. -/

namespace Sys2Proof.Machine

open Sys2Proof

set_option linter.unusedTactic false
set_option linter.unreachableTactic false

theorem modHost_keeps {wr : Bool} {sa sb : State} (f : HostIf → HostIf) (hk : Keeps wr sa sb) :
    Keeps wr sa (modHost f sb) := by
  unfold modHost
  try dsimp only
  repeat'
    with_reducible (first
      | assumption | apply Keeps.ite | apply Keeps.dite | (intro _) | split | refine Keeps.upd ?_ rfl)

theorem setStaged_keeps {wr : Bool} {sa sb : State} (src : Route) (x : Option Staged) (hk : Keeps wr sa sb) :
    Keeps wr sa (setStaged src x sb) := by
  unfold setStaged
  try dsimp only
  repeat'
    with_reducible (first
      | assumption | apply Keeps.ite | apply Keeps.dite | apply modHost_keeps | (intro _) | split | refine Keeps.upd ?_ rfl)

theorem setSnap_keeps {wr : Bool} {sa sb : State} (src : Route) (x : Option Staged) (hk : Keeps wr sa sb) :
    Keeps wr sa (setSnap src x sb) := by
  unfold setSnap
  try dsimp only
  repeat'
    with_reducible (first
      | assumption | apply Keeps.ite | apply Keeps.dite | apply modHost_keeps | (intro _) | split | refine Keeps.upd ?_ rfl)

theorem discardOpen_keeps {wr : Bool} {sa sb : State} (src : Route) (hk : Keeps wr sa sb) :
    Keeps wr sa (discardOpen src sb) := by
  unfold discardOpen
  try dsimp only
  repeat'
    with_reducible (first
      | assumption | apply Keeps.ite | apply Keeps.dite | apply setStaged_keeps | apply abandonFirmware_keeps | (intro _)
      | split)

theorem badRequest_keeps {wr : Bool} {sa sb : State} (hk : Keeps wr sa sb) :
    Keeps wr sa (badRequest sb) := by
  unfold badRequest
  try dsimp only
  repeat'
    with_reducible (first
      | assumption | apply Keeps.ite | apply Keeps.dite | apply endOp_keeps | (intro _) | split)

theorem readRequest_keeps {wr : Bool} {sa sb : State} (src : Route) (who : Viewer) (r : MbxRequest)
    (hk : Keeps wr sa sb) :
    Keeps wr sa (readRequest src who r sb).2 := by
  unfold readRequest
  try dsimp only
  repeat'
    with_reducible (first
      | assumption | apply Keeps.ite | apply Keeps.dite | apply beginOp_keeps | apply badRequest_keeps | apply endOp_keeps
      | apply setSnap_keeps | (intro _) | split)

theorem writeRequest_keeps {sa sb : State} (src : Route) (r : MbxRequest) (hk : Keeps true sa sb) :
    Keeps true sa (writeRequest src r sb) := by
  unfold writeRequest
  try dsimp only
  repeat'
    with_reducible (first
      | assumption | apply Keeps.ite | apply Keeps.dite | apply beginOp_keeps | apply badRequest_keeps
      | apply discardOpen_keeps | apply firmwareSegment_keeps | apply endOp_keeps | apply setStaged_keeps
      | apply dictWrite_keeps | (intro _) | split)

theorem carryOut_keeps {sa sb : State} (src : Route) (who : Viewer) (r : MbxRequest) (hk : Keeps true sa sb) :
    Keeps true sa (carryOut src who r sb).2 := by
  unfold carryOut
  try dsimp only
  repeat'
    with_reducible (first
      | assumption | apply Keeps.ite | apply Keeps.dite | apply readRequest_keeps | apply writeRequest_keeps
      | apply badRequest_keeps | apply beginOp_keeps | (intro _) | split)

theorem mailboxDoorbell_keeps {wr : Bool} {sa sb : State} (v : BitVec 32) (hk : Keeps wr sa sb) :
    Keeps wr sa (mailboxDoorbell v sb) := by
  unfold mailboxDoorbell
  try dsimp only
  repeat'
    with_reducible (first
      | assumption | apply Keeps.ite | apply Keeps.dite | apply countIgnored_keeps | apply modHost_keeps | (intro _) | split
      | refine Keeps.upd ?_ rfl)

theorem answerMailbox_keeps {wr : Bool} {sa : State} (r : MbxRequest) (x : Reply × State) (hk : Keeps wr sa x.2) :
    Keeps wr sa (answerMailbox r x) := by
  unfold answerMailbox
  dsimp only
  apply afterResponse_keeps
  apply Keeps.ite
  · exact fun _ => modHost_keeps _ hk
  · exact fun _ => raiseCause_keeps _ (modHost_keeps _ hk)

theorem serveMailbox_keeps {sa sb : State} (f : MbxRequest → Bool) (hk : Keeps true sa sb) :
    Keeps true sa (serveMailbox f sb) := by
  unfold serveMailbox
  try dsimp only
  repeat'
    with_reducible (first
      | assumption | apply Keeps.ite | apply Keeps.dite | apply answerMailbox_keeps | apply carryOut_keeps | (intro _)
      | split)

theorem securedRequest_keeps {sa sb : State} (id : Nat) (r : MbxRequest) (hk : Keeps true sa sb) :
    Keeps true sa (securedRequest id r sb) := by
  unfold securedRequest
  try dsimp only
  repeat'
    with_reducible (first
      | assumption | apply Keeps.ite | apply Keeps.dite | apply inSession_keeps | apply denyTenant_keeps
      | apply beginOp_keeps | apply carryOut_keeps | apply bump_keeps | apply afterResponse_keeps
      | apply vendorResponse_keeps | (intro _) | split)

end Sys2Proof.Machine
end

