-- ==== Sys2Proof/Laws/KeepCanNode.lean ====
section
/-! SUPPORT. What the operations of Machine/CanNode.lean keep. -/

namespace Sys2Proof.Machine

open Sys2Proof

set_option linter.unusedTactic false
set_option linter.unreachableTactic false

theorem modCan_keeps {wr : Bool} {sa sb : State} (f : Can → Can) (hk : Keeps wr sa sb) :
    Keeps wr sa (modCan f sb) := by
  unfold modCan
  try dsimp only
  repeat'
    with_reducible (first
      | assumption | apply Keeps.ite | apply Keeps.dite | (intro _) | split | refine Keeps.upd ?_ rfl)

theorem sendFrame_keeps {wr : Bool} {sa sb : State} (ident : Nat) (data : Bytes) (hk : Keeps wr sa sb) :
    Keeps wr sa (sendFrame ident data sb) := by
  unfold sendFrame
  try dsimp only
  repeat'
    with_reducible (first
      | assumption | apply Keeps.ite | apply Keeps.dite | apply emit_keeps | apply bump_keeps | (intro _) | split)

theorem usdoRequest_keeps {wr : Bool} {sa sb : State} (f : State → Bytes × State)
    (h_f : ∀ u, Keeps wr sa u → Keeps wr sa (f u).2) (hk : Keeps wr sa sb) : Keeps wr sa (usdoRequest f sb) := by
  unfold usdoRequest
  apply Keeps.ite
  · intro _
    dsimp only
    have a := h_f _ (bump_keeps 0x1100 0x10 hk)
    generalize f (bump 0x1100 0x10 sb) = r at a
    apply afterResponse_keeps
    apply emit_keeps
    apply bump_keeps
    apply Keeps.ite
    · exact fun _ => bump_keeps _ _ a
    · exact fun _ => bump_keeps _ _ a
  · exact fun _ => hk

theorem usdoDownload_keeps {sa sb : State} (index : Nat) (sub : Nat) (b : Bytes) (hk : Keeps true sa sb) :
    Keeps true sa (usdoDownload index sub b sb) := by
  unfold usdoDownload
  apply usdoRequest_keeps _ _ hk
  intro u h
  dsimp only
  apply Keeps.ite
  · exact fun _ => endOp_keeps _ _ (beginOp_keeps h)
  · exact fun _ => dictWrite_keeps _ _ _ _ h

theorem usdoUpload_keeps {wr : Bool} {sa sb : State} (index : Nat) (sub : Nat) (hk : Keeps wr sa sb) :
    Keeps wr sa (usdoUpload index sub sb) := by
  unfold usdoUpload
  apply usdoRequest_keeps _ _ hk
  intro u h
  dsimp only
  split
  · exact beginOp_keeps h
  · exact endOp_keeps _ _ (beginOp_keeps h)

theorem usdoTimeout_keeps {wr : Bool} {sa sb : State} (hk : Keeps wr sa sb) :
    Keeps wr sa (usdoTimeout sb) := by
  unfold usdoTimeout
  try dsimp only
  repeat'
    with_reducible (first
      | assumption | apply Keeps.ite | apply Keeps.dite | apply emit_keeps | apply bump_keeps | (intro _) | split)

theorem nmtCommand_keeps {wr : Bool} {sa sb : State} (node : Nat) (f : State → State)
    (h_f : ∀ (u : State), Keeps wr sa u → Keeps wr sa (f  u)) (hk : Keeps wr sa sb) :
    Keeps wr sa (nmtCommand node f sb) := by
  unfold nmtCommand
  try dsimp only
  repeat'
    with_reducible (first
      | assumption | apply Keeps.ite | apply Keeps.dite | apply h_f | apply bump_keeps | (intro _) | split)

theorem nmtEnter_keeps {wr : Bool} {sa sb : State} (n : Nat) (hk : Keeps wr sa sb) :
    Keeps wr sa (nmtEnter n sb) := by
  unfold nmtEnter
  try dsimp only
  repeat'
    with_reducible (first
      | assumption | apply Keeps.ite | apply Keeps.dite | apply modCan_keeps | (intro _) | split | refine Keeps.upd ?_ rfl)

theorem nmtBoot_keeps {wr : Bool} {sa sb : State} (hk : Keeps wr sa sb) :
    Keeps wr sa (nmtBoot sb) := by
  unfold nmtBoot
  try dsimp only
  repeat'
    with_reducible (first
      | assumption | apply Keeps.ite | apply Keeps.dite | apply nmtEnter_keeps | apply bootUp_keeps | (intro _) | split)

theorem heartbeat_keeps {wr : Bool} {sa sb : State} (hk : Keeps wr sa sb) :
    Keeps wr sa (heartbeat sb) := by
  unfold heartbeat
  try dsimp only
  repeat'
    with_reducible (first
      | assumption | apply Keeps.ite | apply Keeps.dite | apply sendFrame_keeps | (intro _) | split)

theorem sendTpdo_keeps {wr : Bool} {sa sb : State} (n : Nat) (hk : Keeps wr sa sb) :
    Keeps wr sa (sendTpdo n sb) := by
  unfold sendTpdo
  try dsimp only
  repeat'
    with_reducible (first
      | assumption | apply Keeps.ite | apply Keeps.dite | apply sendFrame_keeps | (intro _) | split)

theorem busOff_keeps {wr : Bool} {sa sb : State} (hk : Keeps wr sa sb) :
    Keeps wr sa (busOff sb) := by
  unfold busOff
  try dsimp only
  repeat'
    with_reducible (first
      | assumption | apply Keeps.ite | apply Keeps.dite | apply emcy_keeps | apply bump_keeps | (intro _) | split)

theorem bootRestore_keeps {sa sb : State} (hk : Keeps true sa sb) :
    Keeps true sa (bootRestore sb) := by
  unfold bootRestore
  try dsimp only
  repeat'
    with_reducible (first
      | assumption | apply Keeps.ite | apply Keeps.dite | apply modDict_keeps | apply log_keeps | apply applyRecords_keeps
      | apply modSec_keeps | (intro _) | split | refine Keeps.upd ?_ rfl)

theorem managementBoot_keeps {sa sb : State} (hk : Keeps true sa sb) :
    Keeps true sa (managementBoot sb) := by
  unfold managementBoot
  try dsimp only
  repeat'
    with_reducible (first
      | assumption | apply Keeps.ite | apply Keeps.dite | apply bootRestore_keeps | apply modSec_keeps | apply modCan_keeps
      | apply modPwr_keeps | apply modHost_keeps | apply log_keeps | apply nmtBoot_keeps | apply concludeReset_keeps
      | (intro _) | split | refine Keeps.upd ?_ rfl)

end Sys2Proof.Machine
end

