-- ==== Sys2Proof/Laws/CommandsCanNode.lean ====
section
/-! SUPPORT. What the commands of Machine/CanNode.lean keep; each ends in a next state. -/

namespace Sys2Proof.Machine

open Sys2Proof

set_option linter.unusedTactic false
set_option linter.unreachableTactic false

theorem execUsdoDownload_keeps (index : BitVec 16) (sub : BitVec 8) (data : Bytes) (sb : State) :
    ∃ sc, execUsdoDownload index sub data sb = .next sc ∧ Keeps true sb sc := by
  unfold execUsdoDownload
  try dsimp only
  refine ⟨_, rfl, ?_⟩
  repeat'
    with_reducible (first
      | assumption | exact Keeps.refl _ _ | apply Keeps.ite | apply Keeps.dite | apply usdoDownload_keeps | (intro _)
      | split)

theorem execUsdoUpload_keeps (index : BitVec 16) (sub : BitVec 8) (sb : State) :
    ∃ sc, execUsdoUpload index sub sb = .next sc ∧ Keeps false sb sc := by
  unfold execUsdoUpload
  try dsimp only
  refine ⟨_, rfl, ?_⟩
  repeat'
    with_reducible (first
      | assumption | exact Keeps.refl _ _ | apply Keeps.ite | apply Keeps.dite | apply usdoUpload_keeps | (intro _) | split)

theorem execUsdoSegmentTimeout_keeps (sb : State) :
    ∃ sc, execUsdoSegmentTimeout sb = .next sc ∧ Keeps false sb sc := by
  unfold execUsdoSegmentTimeout
  try dsimp only
  refine ⟨_, rfl, ?_⟩
  repeat'
    with_reducible (first
      | assumption | exact Keeps.refl _ _ | apply Keeps.ite | apply Keeps.dite | apply usdoTimeout_keeps | (intro _) | split)

theorem execNmtStart_keeps (node : BitVec 8) (sb : State) :
    ∃ sc, execNmtStart node sb = .next sc ∧ Keeps false sb sc := by
  unfold execNmtStart
  try dsimp only
  refine ⟨_, rfl, ?_⟩
  repeat'
    with_reducible (first
      | assumption | exact Keeps.refl _ _ | apply Keeps.ite | apply Keeps.dite | apply nmtCommand_keeps
      | apply nmtEnter_keeps | (intro _) | split)

theorem execNmtStop_keeps (node : BitVec 8) (sb : State) :
    ∃ sc, execNmtStop node sb = .next sc ∧ Keeps false sb sc := by
  unfold execNmtStop
  try dsimp only
  refine ⟨_, rfl, ?_⟩
  repeat'
    with_reducible (first
      | assumption | exact Keeps.refl _ _ | apply Keeps.ite | apply Keeps.dite | apply nmtCommand_keeps
      | apply nmtEnter_keeps | (intro _) | split)

theorem execNmtEnterPreoperational_keeps (node : BitVec 8) (sb : State) :
    ∃ sc, execNmtEnterPreoperational node sb = .next sc ∧ Keeps false sb sc := by
  unfold execNmtEnterPreoperational
  try dsimp only
  refine ⟨_, rfl, ?_⟩
  repeat'
    with_reducible (first
      | assumption | exact Keeps.refl _ _ | apply Keeps.ite | apply Keeps.dite | apply nmtCommand_keeps
      | apply nmtEnter_keeps | (intro _) | split)

theorem execNmtResetCommunication_keeps (node : BitVec 8) (sb : State) :
    ∃ sc, execNmtResetCommunication node sb = .next sc ∧ Keeps false sb sc := by
  unfold execNmtResetCommunication
  try dsimp only
  refine ⟨_, rfl, ?_⟩
  repeat'
    with_reducible (first
      | assumption | exact Keeps.refl _ _ | apply Keeps.ite | apply Keeps.dite | apply nmtCommand_keeps | apply nmtBoot_keeps
      | (intro _) | split)

theorem execHeartbeat_keeps (sb : State) :
    ∃ sc, execHeartbeat sb = .next sc ∧ Keeps false sb sc := by
  unfold execHeartbeat
  try dsimp only
  refine ⟨_, rfl, ?_⟩
  repeat'
    with_reducible (first
      | assumption | exact Keeps.refl _ _ | apply Keeps.ite | apply Keeps.dite | apply heartbeat_keeps | (intro _) | split)

theorem execTpdo_keeps (n : Fin 4) (sb : State) :
    ∃ sc, execTpdo n sb = .next sc ∧ Keeps false sb sc := by
  unfold execTpdo
  try dsimp only
  refine ⟨_, rfl, ?_⟩
  repeat'
    with_reducible (first
      | assumption | exact Keeps.refl _ _ | apply Keeps.ite | apply Keeps.dite | apply sendTpdo_keeps | (intro _) | split)

theorem execBusOff_keeps (sb : State) :
    ∃ sc, execBusOff sb = .next sc ∧ Keeps false sb sc := by
  unfold execBusOff
  try dsimp only
  refine ⟨_, rfl, ?_⟩
  repeat'
    with_reducible (first
      | assumption | exact Keeps.refl _ _ | apply Keeps.ite | apply Keeps.dite | apply busOff_keeps | (intro _) | split)

theorem execManagementBoot_keeps (sb : State) :
    ∃ sc, execManagementBoot sb = .next sc ∧ Keeps true sb sc := by
  unfold execManagementBoot
  try dsimp only
  refine ⟨_, rfl, ?_⟩
  repeat'
    with_reducible (first
      | assumption | exact Keeps.refl _ _ | apply Keeps.ite | apply Keeps.dite | apply managementBoot_keeps | (intro _)
      | split)

end Sys2Proof.Machine
end

