-- ==== Sys2Proof/Laws/CommandsCollect.lean ====
section
/-! SUPPORT. What the commands of Machine/Collect.lean keep; each ends in a next state. -/

namespace Sys2Proof.Machine

open Sys2Proof

set_option linter.unusedTactic false
set_option linter.unreachableTactic false

theorem execWindowBind_keeps (src : Route) (i : Fin 64) (v : BitVec 8) (sb : State) :
    ∃ sc, execWindowBind src i v sb = .next sc ∧ Keeps false sb sc := by
  unfold execWindowBind
  try dsimp only
  refine ⟨_, rfl, ?_⟩
  repeat'
    with_reducible (first
      | assumption | exact Keeps.refl _ _ | apply Keeps.ite | apply Keeps.dite | apply windowWrite_keeps
      | apply beginOp_keeps | (intro _) | split)

theorem execWindowUnbind_keeps (src : Route) (i : Fin 64) (v : BitVec 8) (sb : State) :
    ∃ sc, execWindowUnbind src i v sb = .next sc ∧ Keeps false sb sc := by
  unfold execWindowUnbind
  try dsimp only
  refine ⟨_, rfl, ?_⟩
  repeat'
    with_reducible (first
      | assumption | exact Keeps.refl _ _ | apply Keeps.ite | apply Keeps.dite | apply windowWrite_keeps
      | apply beginOp_keeps | (intro _) | split)

theorem execServiceCellFormed_keeps (i : Fin 64) (chunk : BitVec 28) (cell : BitVec 4) (sb : State) :
    ∃ sc, execServiceCellFormed i chunk cell sb = .next sc ∧ Keeps false sb sc := by
  unfold execServiceCellFormed
  try dsimp only
  refine ⟨_, rfl, ?_⟩
  repeat'
    with_reducible (first
      | assumption | exact Keeps.refl _ _ | apply Keeps.ite | apply Keeps.dite | apply serviceCell_keeps | (intro _) | split)

theorem execCommitTick_keeps (i : Fin 64) (sb : State) :
    ∃ sc, execCommitTick i sb = .next sc ∧ Keeps true sb sc := by
  unfold execCommitTick
  try dsimp only
  refine ⟨_, rfl, ?_⟩
  repeat'
    with_reducible (first
      | assumption | exact Keeps.refl _ _ | apply Keeps.ite | apply Keeps.dite | apply commitTick_keeps | (intro _) | split)

end Sys2Proof.Machine
end

