-- ==== Sys2Proof/Laws/KeepControl.lean ====
section
/-! SUPPORT. What the operations of Machine/Control.lean keep. -/

namespace Sys2Proof.Machine

open Sys2Proof

set_option linter.unusedTactic false
set_option linter.unreachableTactic false

theorem branch_keeps {wr : Bool} {sa sb : State} (w : StreamId) (f : IFields) (k : Nat) (taken : Bool)
    (hk : Keeps wr sa sb) :
    Keeps wr sa (branch w f k taken sb) := by
  unfold branch
  try dsimp only
  repeat'
    with_reducible (first
      | assumption | apply Keeps.ite | apply Keeps.dite | apply modStream_keeps | (intro _) | split)

theorem branchFree_keeps {wr : Bool} {sa sb : State} (w : StreamId) (f : IFields) (k : Nat) (hk : Keeps wr sa sb) :
    Keeps wr sa (branchFree w f k sb) := by
  unfold branchFree
  try dsimp only
  repeat'
    with_reducible (first
      | assumption | apply Keeps.ite | apply Keeps.dite | apply branch_keeps | apply drawn_keeps | (intro _) | split)

end Sys2Proof.Machine
end

