-- ==== Sys2Proof/Laws/CommandsControl.lean ====
section
/-! SUPPORT. What the commands of Machine/Control.lean keep; each ends in a next state. -/

namespace Sys2Proof.Machine

open Sys2Proof

set_option linter.unusedTactic false
set_option linter.unreachableTactic false

theorem execCtlBr_keeps (w : StreamId) (f : IFields) (sb : State) :
    ∃ sc, execCtlBr w f sb = .next sc ∧ Keeps false sb sc := by
  unfold execCtlBr
  try dsimp only
  refine ⟨_, rfl, ?_⟩
  repeat'
    with_reducible (first
      | assumption | exact Keeps.refl _ _ | apply Keeps.ite | apply Keeps.dite | apply issue_keeps | apply branch_keeps
      | (intro _) | split)

theorem execCtlBrp_keeps (w : StreamId) (f : IFields) (sb : State) :
    ∃ sc, execCtlBrp w f sb = .next sc ∧ Keeps false sb sc := by
  unfold execCtlBrp
  try dsimp only
  refine ⟨_, rfl, ?_⟩
  repeat'
    with_reducible (first
      | assumption | exact Keeps.refl _ _ | apply Keeps.ite | apply Keeps.dite | apply issue_keeps | apply branch_keeps
      | apply branchFree_keeps | (intro _) | split)

theorem execCtlCall_keeps (w : StreamId) (f : IFields) (sb : State) :
    ∃ sc, execCtlCall w f sb = .next sc ∧ Keeps false sb sc := by
  unfold execCtlCall
  try dsimp only
  refine ⟨_, rfl, ?_⟩
  repeat'
    with_reducible (first
      | assumption | exact Keeps.refl _ _ | apply Keeps.ite | apply Keeps.dite | apply issue_keeps | apply modStream_keeps
      | (intro _) | split | refine Keeps.upd ?_ rfl)

theorem execCtlRet_keeps (w : StreamId) (f : IFields) (sb : State) :
    ∃ sc, execCtlRet w f sb = .next sc ∧ Keeps false sb sc := by
  unfold execCtlRet
  try dsimp only
  refine ⟨_, rfl, ?_⟩
  repeat'
    with_reducible (first
      | assumption | exact Keeps.refl _ _ | apply Keeps.ite | apply Keeps.dite | apply issue_keeps | apply modStream_keeps
      | apply drawn_keeps | (intro _) | split | refine Keeps.upd ?_ rfl)

theorem execCtlLoop_keeps (w : StreamId) (f : IFields) (sb : State) :
    ∃ sc, execCtlLoop w f sb = .next sc ∧ Keeps false sb sc := by
  unfold execCtlLoop
  try dsimp only
  refine ⟨_, rfl, ?_⟩
  repeat'
    with_reducible (first
      | assumption | exact Keeps.refl _ _ | apply Keeps.ite | apply Keeps.dite | apply issue_keeps | apply branchFree_keeps
      | (intro _) | split)

theorem execCtlEnd_keeps (w : StreamId) (f : IFields) (sb : State) :
    ∃ sc, execCtlEnd w f sb = .next sc ∧ Keeps false sb sc := by
  unfold execCtlEnd
  try dsimp only
  refine ⟨_, rfl, ?_⟩
  repeat'
    with_reducible (first
      | assumption | exact Keeps.refl _ _ | apply Keeps.ite | apply Keeps.dite | apply issue_keeps | apply modStream_keeps
      | (intro _) | split | refine Keeps.upd ?_ rfl)

theorem execCtlNop_keeps (w : StreamId) (f : IFields) (sb : State) :
    ∃ sc, execCtlNop w f sb = .next sc ∧ Keeps false sb sc := by
  unfold execCtlNop
  try dsimp only
  refine ⟨_, rfl, ?_⟩
  repeat'
    with_reducible (first
      | assumption | exact Keeps.refl _ _ | apply Keeps.ite | apply Keeps.dite | apply issue_keeps | apply modStream_keeps
      | (intro _) | split)

end Sys2Proof.Machine
end

