-- ==== Sys2Proof/Laws/CommandsCopies.lean ====
section
/-! SUPPORT. What the commands of Machine/Copies.lean keep; each ends in a next state. -/

namespace Sys2Proof.Machine

open Sys2Proof

set_option linter.unusedTactic false
set_option linter.unreachableTactic false

theorem execCpyCopy_keeps (w : StreamId) (f : IFields) (sb : State) :
    ∃ sc, execCpyCopy w f sb = .next sc ∧ Keeps false sb sc := by
  unfold execCpyCopy
  try dsimp only
  refine ⟨_, rfl, ?_⟩
  repeat'
    with_reducible (first
      | assumption | exact Keeps.refl _ _ | apply Keeps.ite | apply Keeps.dite | apply issue_keeps | apply ctxFault_keeps
      | apply modStream_keeps | apply addCopy_keeps | (intro _) | split)

theorem execCpyCwait_keeps (w : StreamId) (f : IFields) (sb : State) :
    ∃ sc, execCpyCwait w f sb = .next sc ∧ Keeps false sb sc := by
  unfold execCpyCwait
  try dsimp only
  refine ⟨_, rfl, ?_⟩
  repeat'
    with_reducible (first
      | assumption | exact Keeps.refl _ _ | apply Keeps.ite | apply Keeps.dite | apply issue_keeps | apply modStream_keeps
      | (intro _) | split | refine Keeps.upd ?_ rfl)

theorem execCpyCtest_keeps (w : StreamId) (f : IFields) (sb : State) :
    ∃ sc, execCpyCtest w f sb = .next sc ∧ Keeps false sb sc := by
  unfold execCpyCtest
  try dsimp only
  refine ⟨_, rfl, ?_⟩
  repeat'
    with_reducible (first
      | assumption | exact Keeps.refl _ _ | apply Keeps.ite | apply Keeps.dite | apply issue_keeps | apply modStream_keeps
      | (intro _) | split)

theorem execCopyLine_keeps (core : CoreN) (slot : SlotN) (sb : State) :
    ∃ sc, execCopyLine core slot sb = .next sc ∧ Keeps true sb sc := by
  unfold execCopyLine
  try dsimp only
  refine ⟨_, rfl, ?_⟩
  repeat'
    with_reducible (first
      | assumption | exact Keeps.refl _ _ | apply Keeps.ite | apply Keeps.dite | apply copyStep_keeps | (intro _) | split)

end Sys2Proof.Machine
end

