-- ==== Sys2Proof/Laws/CommandsDict.lean ====
section
/-! SUPPORT. What the commands of Machine/Dict.lean keep; each ends in a next state. -/

namespace Sys2Proof.Machine

open Sys2Proof

set_option linter.unusedTactic false
set_option linter.unreachableTactic false

theorem execEntryWrite_keeps (src : Route) (index : BitVec 16) (sub : BitVec 8) (data : Bytes) (sb : State) :
    ∃ sc, execEntryWrite src index sub data sb = .next sc ∧ Keeps true sb sc := by
  unfold execEntryWrite
  try dsimp only
  refine ⟨_, rfl, ?_⟩
  repeat'
    with_reducible (first
      | assumption | exact Keeps.refl _ _ | apply Keeps.ite | apply Keeps.dite | apply afterResponse_keeps
      | apply dictWrite_keeps | (intro _) | split)

theorem execNodeIdWrite_keeps (src : Route) (v : BitVec 8) (sb : State) :
    ∃ sc, execNodeIdWrite src v sb = .next sc ∧ Keeps false sb sc := by
  unfold execNodeIdWrite
  try dsimp only
  refine ⟨_, rfl, ?_⟩
  repeat'
    with_reducible (first
      | assumption | exact Keeps.refl _ _ | apply Keeps.ite | apply Keeps.dite | apply afterResponse_keeps
      | apply nodeIdWrite_keeps | apply beginOp_keeps | (intro _) | split)

theorem execClampReportDiscard_keeps (src : Route) (v : BitVec 32) (sb : State) :
    ∃ sc, execClampReportDiscard src v sb = .next sc ∧ Keeps false sb sc := by
  unfold execClampReportDiscard
  try dsimp only
  refine ⟨_, rfl, ?_⟩
  repeat'
    with_reducible (first
      | assumption | exact Keeps.refl _ _ | apply Keeps.ite | apply Keeps.dite | apply clampDiscard_keeps
      | apply beginOp_keeps | (intro _) | split)

theorem execDictionaryStore_keeps (src : Route) (v : BitVec 8) (verified : Bool) (sb : State) :
    ∃ sc, execDictionaryStore src v verified sb = .next sc ∧ Keeps false sb sc := by
  unfold execDictionaryStore
  try dsimp only
  refine ⟨_, rfl, ?_⟩
  repeat'
    with_reducible (first
      | assumption | exact Keeps.refl _ _ | apply Keeps.ite | apply Keeps.dite | apply dictionaryStore_keeps
      | apply beginOp_keeps | (intro _) | split)

theorem execDictionaryRestore_keeps (src : Route) (v : BitVec 8) (sb : State) :
    ∃ sc, execDictionaryRestore src v sb = .next sc ∧ Keeps true sb sc := by
  unfold execDictionaryRestore
  try dsimp only
  refine ⟨_, rfl, ?_⟩
  repeat'
    with_reducible (first
      | assumption | exact Keeps.refl _ _ | apply Keeps.ite | apply Keeps.dite | apply afterResponse_keeps
      | apply storeAction_keeps | apply beginOp_keeps | (intro _) | split)

theorem execDictionaryDefaults_keeps (src : Route) (v : BitVec 8) (sb : State) :
    ∃ sc, execDictionaryDefaults src v sb = .next sc ∧ Keeps true sb sc := by
  unfold execDictionaryDefaults
  try dsimp only
  refine ⟨_, rfl, ?_⟩
  repeat'
    with_reducible (first
      | assumption | exact Keeps.refl _ _ | apply Keeps.ite | apply Keeps.dite | apply afterResponse_keeps
      | apply storeAction_keeps | apply beginOp_keeps | (intro _) | split)

theorem execDictionaryErase_keeps (src : Route) (v : BitVec 8) (sb : State) :
    ∃ sc, execDictionaryErase src v sb = .next sc ∧ Keeps true sb sc := by
  unfold execDictionaryErase
  try dsimp only
  refine ⟨_, rfl, ?_⟩
  repeat'
    with_reducible (first
      | assumption | exact Keeps.refl _ _ | apply Keeps.ite | apply Keeps.dite | apply afterResponse_keeps
      | apply storeAction_keeps | apply beginOp_keeps | (intro _) | split)

theorem execSnapshotTrigger_keeps (src : Route) (v : BitVec 8) (sb : State) :
    ∃ sc, execSnapshotTrigger src v sb = .next sc ∧ Keeps false sb sc := by
  unfold execSnapshotTrigger
  try dsimp only
  refine ⟨_, rfl, ?_⟩
  repeat'
    with_reducible (first
      | assumption | exact Keeps.refl _ _ | apply Keeps.ite | apply Keeps.dite | apply snapshotTrigger_keeps
      | apply beginOp_keeps | (intro _) | split)

theorem execSnapshotPeriod_keeps (sb : State) :
    ∃ sc, execSnapshotPeriod sb = .next sc ∧ Keeps false sb sc := by
  unfold execSnapshotPeriod
  try dsimp only
  refine ⟨_, rfl, ?_⟩
  repeat'
    with_reducible (first
      | assumption | exact Keeps.refl _ _ | apply Keeps.ite | apply Keeps.dite | apply armSnapshot_keeps | (intro _) | split)

theorem execTelemetryCapture_keeps (sb : State) :
    ∃ sc, execTelemetryCapture sb = .next sc ∧ Keeps false sb sc := by
  unfold execTelemetryCapture
  try dsimp only
  refine ⟨_, rfl, ?_⟩
  repeat'
    with_reducible (first
      | assumption | exact Keeps.refl _ _ | apply Keeps.ite | apply Keeps.dite | apply telemetryCapture_keeps | (intro _)
      | split)

theorem execSnapshotResultReady_keeps (sb : State) :
    ∃ sc, execSnapshotResultReady sb = .next sc ∧ Keeps false sb sc := by
  unfold execSnapshotResultReady
  try dsimp only
  refine ⟨_, rfl, ?_⟩
  repeat'
    with_reducible (first
      | assumption | exact Keeps.refl _ _ | apply Keeps.ite | apply Keeps.dite | apply snapshotReady_keeps | (intro _)
      | split)

end Sys2Proof.Machine
end

