-- ==== Sys2Proof/Laws/KeepEcho.lean ====
section
/-! SUPPORT. What the operations of Machine/Echo.lean keep. -/

namespace Sys2Proof.Machine

open Sys2Proof

set_option linter.unusedTactic false
set_option linter.unreachableTactic false

theorem modLantern_keeps {wr : Bool} {sa sb : State} (f : Lantern → Lantern) (hk : Keeps wr sa sb) :
    Keeps wr sa (modLantern f sb) := by
  unfold modLantern
  try dsimp only
  repeat'
    with_reducible (first
      | assumption | apply Keeps.ite | apply Keeps.dite | (intro _) | split | refine Keeps.upd ?_ rfl)

theorem holdCtx_keeps {wr : Bool} {sa sb : State} (k : Nat) (hk : Keeps wr sa sb) :
    Keeps wr sa (holdCtx k sb) := by
  unfold holdCtx
  try dsimp only
  repeat'
    with_reducible (first
      | assumption | apply Keeps.ite | apply Keeps.dite | apply discardDirty_keeps | apply modCtx_keeps | (intro _) | split
      | refine Keeps.upd ?_ rfl)

theorem startEcho_keeps {wr : Bool} {sa sb : State} (path : List Node) (hk : Keeps wr sa sb) :
    Keeps wr sa (startEcho path sb) := by
  unfold startEcho
  try dsimp only
  repeat'
    with_reducible (first
      | assumption | apply Keeps.ite | apply Keeps.dite | apply holdCtx_keeps | apply modLantern_keeps | apply Keeps.foldl
      | apply Keeps.foldl_snd | apply Keeps.foldl_fst | (intro _) | split | refine Keeps.upd ?_ rfl)

theorem actOnContexts_keeps {wr : Bool} {sa sb : State} (path : List Node) (hk : Keeps wr sa sb) :
    Keeps wr sa (actOnContexts path sb) := by
  unfold actOnContexts
  try dsimp only
  repeat'
    with_reducible (first
      | assumption | apply Keeps.ite | apply Keeps.dite | apply abortCtx_keeps | apply startEcho_keeps
      | apply modLantern_keeps | apply Keeps.foldl | apply Keeps.foldl_snd | apply Keeps.foldl_fst | (intro _) | split
      | refine Keeps.upd ?_ rfl)

theorem faultHeld_keeps {wr : Bool} {sa sb : State} (code : Nat) (k : Nat) (hk : Keeps wr sa sb) :
    Keeps wr sa (faultHeld code k sb) := by
  unfold faultHeld
  try dsimp only
  repeat'
    with_reducible (first
      | assumption | apply Keeps.ite | apply Keeps.dite | apply bump_keeps | apply event_keeps | apply setCtx_keeps
      | (intro _) | split | refine Keeps.upd ?_ rfl)

theorem releaseHeld_keeps {wr : Bool} {sa sb : State} (k : Nat) (hk : Keeps wr sa sb) :
    Keeps wr sa (releaseHeld k sb) := by
  unfold releaseHeld
  try dsimp only
  repeat'
    with_reducible (first
      | assumption | apply Keeps.ite | apply Keeps.dite | apply restartCtx_keeps | apply modCtx_keeps | (intro _) | split
      | refine Keeps.upd ?_ rfl)

theorem concludeEcho_keeps {wr : Bool} {sa sb : State} (hk : Keeps wr sa sb) :
    Keeps wr sa (concludeEcho sb) := by
  unfold concludeEcho
  try dsimp only
  repeat'
    with_reducible (first
      | assumption | apply Keeps.ite | apply Keeps.dite | apply faultHeld_keeps | apply releaseHeld_keeps | apply log_keeps
      | apply bump_keeps | apply modLantern_keeps | apply startEcho_keeps | apply Keeps.foldl | apply Keeps.foldl_snd
      | apply Keeps.foldl_fst | (intro _) | split | refine Keeps.upd ?_ rfl)

theorem findSuspect_keeps {wr : Bool} {sa sb : State} (g : List Nat) (f : Finding) (hk : Keeps wr sa sb) :
    Keeps wr sa (findSuspect g f sb) := by
  unfold findSuspect
  try dsimp only
  repeat'
    with_reducible (first
      | assumption | apply Keeps.ite | apply Keeps.dite | apply bump_keeps | apply concludeEcho_keeps
      | apply modLantern_keeps | (intro _) | split | refine Keeps.upd ?_ rfl)

theorem settleReplay_keeps {wr : Bool} {sa sb : State} (hk : Keeps wr sa sb) :
    Keeps wr sa (settleReplay sb) := by
  unfold settleReplay
  try dsimp only
  repeat'
    with_reducible (first
      | assumption | apply Keeps.ite | apply Keeps.dite | apply findSuspect_keeps | apply holdCtx_keeps | apply Keeps.foldl
      | apply Keeps.foldl_snd | apply Keeps.foldl_fst | (intro _) | split)

theorem echoReplay_keeps {wr : Bool} {sa sb : State} (hk : Keeps wr sa sb) :
    Keeps wr sa (echoReplay sb) := by
  unfold echoReplay
  try dsimp only
  repeat'
    with_reducible (first
      | assumption | apply Keeps.ite | apply Keeps.dite | apply settleReplay_keeps | apply modLantern_keeps
      | apply restartCtx_keeps | apply bump_keeps | apply Keeps.foldl | apply Keeps.foldl_snd | apply Keeps.foldl_fst
      | (intro _) | split | refine Keeps.upd ?_ rfl)

theorem echoTimeout_keeps {wr : Bool} {sa sb : State} (hk : Keeps wr sa sb) :
    Keeps wr sa (echoTimeout sb) := by
  unfold echoTimeout
  try dsimp only
  repeat'
    with_reducible (first
      | assumption | apply Keeps.ite | apply Keeps.dite | apply settleReplay_keeps | apply findSuspect_keeps | (intro _)
      | split)

theorem discardHead_keeps {wr : Bool} {sa sb : State} (path : List Node) (hk : Keeps wr sa sb) :
    Keeps wr sa (discardHead path sb) := by
  unfold discardHead
  try dsimp only
  repeat'
    with_reducible (first
      | assumption | apply Keeps.ite | apply Keeps.dite | apply giveBack_keeps | apply setVoq_keeps | apply bump_keeps
      | (intro _) | split)

theorem declareHang_keeps {wr : Bool} {sa sb : State} (h : HangKind × List Node) (hk : Keeps wr sa sb) :
    Keeps wr sa (declareHang h sb) := by
  unfold declareHang
  try dsimp only
  repeat'
    with_reducible (first
      | assumption | apply Keeps.ite | apply Keeps.dite | apply findSuspect_keeps | apply holdCtx_keeps | apply log_keeps
      | apply bump_keeps | apply actOnContexts_keeps | apply discardHead_keeps | apply Keeps.foldl | apply Keeps.foldl_snd
      | apply Keeps.foldl_fst | (intro _) | split)

theorem lanternSample_keeps {wr : Bool} {sa sb : State} (hk : Keeps wr sa sb) :
    Keeps wr sa (lanternSample sb) := by
  unfold lanternSample
  try dsimp only
  repeat'
    with_reducible (first
      | assumption | apply Keeps.ite | apply Keeps.dite | apply modLantern_keeps | apply settleReplay_keeps
      | apply advanceTo_keeps | apply progress_keeps | apply declareHang_keeps | apply Keeps.foldl | apply Keeps.foldl_snd
      | apply Keeps.foldl_fst | (intro _) | split | refine Keeps.upd ?_ rfl)

theorem endCommand_keeps {sa sb : State} (k : Nat) (hk : Keeps true sa sb) :
    Keeps true sa (endCommand k sb) := by
  unfold endCommand
  try dsimp only
  repeat'
    with_reducible (first
      | assumption | apply Keeps.ite | apply Keeps.dite | apply commandEnd_keeps | apply settleReplay_keeps
      | apply holdCtx_keeps | (intro _) | split)

end Sys2Proof.Machine
end

