-- ==== Sys2Proof/Laws/CommandsEcho.lean ====
section
/-! SUPPORT. What the commands of Machine/Echo.lean keep; each ends in a next state. -/

namespace Sys2Proof.Machine

open Sys2Proof

set_option linter.unusedTactic false
set_option linter.unreachableTactic false

theorem execCommandEnd_keeps (core : CoreN) (slot : SlotN) (sb : State) :
    ∃ sc, execCommandEnd core slot sb = .next sc ∧ Keeps true sb sc := by
  unfold execCommandEnd
  try dsimp only
  refine ⟨_, rfl, ?_⟩
  repeat'
    with_reducible (first
      | assumption | exact Keeps.refl _ _ | apply Keeps.ite | apply Keeps.dite | apply endCommand_keeps | (intro _) | split)

theorem execLanternSample_keeps (sb : State) :
    ∃ sc, execLanternSample sb = .next sc ∧ Keeps false sb sc := by
  unfold execLanternSample
  try dsimp only
  refine ⟨_, rfl, ?_⟩
  repeat'
    with_reducible (first
      | assumption | exact Keeps.refl _ _ | apply Keeps.ite | apply Keeps.dite | apply lanternSample_keeps | (intro _)
      | split)

theorem execEchoReplay_keeps (sb : State) :
    ∃ sc, execEchoReplay sb = .next sc ∧ Keeps false sb sc := by
  unfold execEchoReplay
  try dsimp only
  refine ⟨_, rfl, ?_⟩
  repeat'
    with_reducible (first
      | assumption | exact Keeps.refl _ _ | apply Keeps.ite | apply Keeps.dite | apply echoReplay_keeps | (intro _) | split)

theorem execEchoReplayTimeout_keeps (sb : State) :
    ∃ sc, execEchoReplayTimeout sb = .next sc ∧ Keeps false sb sc := by
  unfold execEchoReplayTimeout
  try dsimp only
  refine ⟨_, rfl, ?_⟩
  repeat'
    with_reducible (first
      | assumption | exact Keeps.refl _ _ | apply Keeps.ite | apply Keeps.dite | apply echoTimeout_keeps | (intro _) | split)

end Sys2Proof.Machine
end

