-- ==== Sys2Proof/Laws/CommandsEpWindows.lean ====
section
/-! SUPPORT. What the commands of Machine/EpWindows.lean keep; each ends in a next state. -/

namespace Sys2Proof.Machine

open Sys2Proof

set_option linter.unusedTactic false
set_option linter.unreachableTactic false

theorem execReduceStore_keeps (id : Nat) (tenant : Option (BitVec 4)) (permC : Bool) (window : BitVec 16)
    (step : BitVec 32) (offset : Nat) (lines : Bytes) (sb : State) :
    ∃ sc, execReduceStore id tenant permC window step offset lines sb = .next sc ∧ Keeps false sb sc := by
  unfold execReduceStore
  try dsimp only
  refine ⟨_, rfl, ?_⟩
  repeat'
    with_reducible (first
      | assumption | exact Keeps.refl _ _ | apply Keeps.ite | apply Keeps.dite | apply reduceStore_keeps | (intro _) | split)

theorem execEpWindowBind_keeps (id : Nat) (pasid : BitVec 20) (d : Bytes) (base : BitVec 64) (sb : State) :
    ∃ sc, execEpWindowBind id pasid d base sb = .next sc ∧ Keeps false sb sc := by
  unfold execEpWindowBind
  try dsimp only
  refine ⟨_, rfl, ?_⟩
  repeat'
    with_reducible (first
      | assumption | exact Keeps.refl _ _ | apply Keeps.ite | apply Keeps.dite | apply epWindowBind_keeps | (intro _)
      | split)

theorem execEpCalendarLoad_keeps (id round : Nat) (records : List (BitVec 128)) (arm : BitVec 64) (sb : State) :
    ∃ sc, execEpCalendarLoad id round records arm sb = .next sc ∧ Keeps false sb sc := by
  unfold execEpCalendarLoad
  try dsimp only
  refine ⟨_, rfl, ?_⟩
  repeat'
    with_reducible (first
      | assumption | exact Keeps.refl _ _ | apply Keeps.ite | apply Keeps.dite | apply epCalendarLoad_keeps | (intro _)
      | split)

theorem execEpVc9Slot_keeps (offset : Nat) (sb : State) :
    ∃ sc, execEpVc9Slot offset sb = .next sc ∧ Keeps false sb sc := by
  unfold execEpVc9Slot
  try dsimp only
  refine ⟨_, rfl, ?_⟩
  repeat'
    with_reducible (first
      | assumption | exact Keeps.refl _ _ | apply Keeps.ite | apply Keeps.dite | apply epVc9Slot_keeps | (intro _) | split)

theorem execEpVc10Receive_keeps (c : Cell) (sb : State) :
    ∃ sc, execEpVc10Receive c sb = .next sc ∧ Keeps false sb sc := by
  unfold execEpVc10Receive
  try dsimp only
  refine ⟨_, rfl, ?_⟩
  repeat'
    with_reducible (first
      | assumption | exact Keeps.refl _ _ | apply Keeps.ite | apply Keeps.dite | apply epVc10Receive_keeps | (intro _)
      | split)

theorem execStepFence_keeps (id : Nat) (window : BitVec 16) (sb : State) :
    ∃ sc, execStepFence id window sb = .next sc ∧ Keeps false sb sc := by
  unfold execStepFence
  try dsimp only
  refine ⟨_, rfl, ?_⟩
  repeat'
    with_reducible (first
      | assumption | exact Keeps.refl _ _ | apply Keeps.ite | apply Keeps.dite | apply stepFence_keeps | (intro _) | split)

theorem execEpCommit_keeps (window : BitVec 16) (sb : State) :
    ∃ sc, execEpCommit window sb = .next sc ∧ Keeps false sb sc := by
  unfold execEpCommit
  try dsimp only
  refine ⟨_, rfl, ?_⟩
  repeat'
    with_reducible (first
      | assumption | exact Keeps.refl _ _ | apply Keeps.ite | apply Keeps.dite | apply epCommit_keeps | (intro _) | split)

theorem execEpCalendarSwitch_keeps (sb : State) :
    ∃ sc, execEpCalendarSwitch sb = .next sc ∧ Keeps false sb sc := by
  unfold execEpCalendarSwitch
  try dsimp only
  refine ⟨_, rfl, ?_⟩
  repeat'
    with_reducible (first
      | assumption | exact Keeps.refl _ _ | apply Keeps.ite | apply Keeps.dite | apply epCalendarSwitch_keeps | (intro _)
      | split)

end Sys2Proof.Machine
end

