-- ==== Sys2Proof/Laws/KeepGddr.lean ====
section
/-! SUPPORT. What the operations of Machine/Gddr.lean keep. -/

namespace Sys2Proof.Machine

open Sys2Proof

set_option linter.unusedTactic false
set_option linter.unreachableTactic false

theorem bumpChan_keeps {wr : Bool} {sa sb : State} (k : Nat) (lo : Nat) (hk : Keeps wr sa sb) :
    Keeps wr sa (bumpChan k lo sb) := by
  unfold bumpChan
  try dsimp only
  repeat'
    with_reducible (first
      | assumption | apply Keeps.ite | apply Keeps.dite | apply bump_keeps | (intro _) | split)

theorem poisonLine_keeps {wr : Bool} {sa sb : State} (line : Nat) (hk : Keeps wr sa sb) :
    Keeps wr sa (poisonLine line sb) := by
  unfold poisonLine
  try dsimp only
  repeat'
    with_reducible (first
      | assumption | apply Keeps.ite | apply Keeps.dite | (intro _) | split | refine Keeps.upd ?_ rfl)

theorem startRetrain_keeps {wr : Bool} {sa sb : State} (k : Nat) (hk : Keeps wr sa sb) :
    Keeps wr sa (startRetrain k sb) := by
  unfold startRetrain
  try dsimp only
  repeat'
    with_reducible (first
      | assumption | apply Keeps.ite | apply Keeps.dite | apply modChan_keeps | (intro _) | split | refine Keeps.upd ?_ rfl)

theorem channelRetrain_keeps {wr : Bool} {sa sb : State} (k : Nat) (ok : Bool) (hk : Keeps wr sa sb) :
    Keeps wr sa (channelRetrain k ok sb) := by
  unfold channelRetrain
  try dsimp only
  repeat'
    with_reducible (first
      | assumption | apply Keeps.ite | apply Keeps.dite | apply bump_keeps | apply modChan_keeps | apply raiseCause_keeps
      | apply log_keeps | (intro _) | split | refine Keeps.upd ?_ rfl)

theorem scrubRead_keeps {wr : Bool} {sa sb : State} (k : Nat) (bank : Nat) (at_ : Nat) (r : BurstResult)
    (hk : Keeps wr sa sb) :
    Keeps wr sa (scrubRead k bank at_ r sb) := by
  unfold scrubRead
  try dsimp only
  repeat'
    with_reducible (first
      | assumption | apply Keeps.ite | apply Keeps.dite | apply log_keeps | apply bumpChan_keeps | apply bump_keeps
      | apply modChan_keeps | apply poisonLine_keeps | (intro _) | split | refine Keeps.upd ?_ rfl)

theorem backgroundChan_keeps {wr : Bool} {sa sb : State} (m : Nat) (k : Nat) (scrub : Bool) (r : BurstResult)
    (hk : Keeps wr sa sb) :
    Keeps wr sa (backgroundChan m k scrub r sb) := by
  unfold backgroundChan
  try dsimp only
  repeat'
    with_reducible (first
      | assumption | apply Keeps.ite | apply Keeps.dite | apply modChan_keeps | apply scrubRead_keeps | apply bump_keeps
      | (intro _) | split | refine Keeps.upd ?_ rfl)

theorem backgroundSlot_keeps {wr : Bool} {sa sb : State} (found : List (Fin 128 × BurstResult)) (hk : Keeps wr sa sb) :
    Keeps wr sa (backgroundSlot found sb) := by
  unfold backgroundSlot
  try dsimp only
  repeat'
    with_reducible (first
      | assumption | apply Keeps.ite | apply Keeps.dite | apply advanceTo_keeps | apply backgroundChan_keeps
      | apply Keeps.foldl | apply Keeps.foldl_snd | apply Keeps.foldl_fst | (intro _) | split)

theorem burstDone_keeps {wr : Bool} {sa sb : State} (k : Nat) (b : Nat × Bool × Nat) (hk : Keeps wr sa sb) :
    Keeps wr sa (burstDone k b sb) := by
  unfold burstDone
  try dsimp only
  repeat'
    with_reducible (first
      | assumption | apply Keeps.ite | apply Keeps.dite | apply modChan_keeps | (intro _) | split | refine Keeps.upd ?_ rfl)

theorem burstAgain_keeps {wr : Bool} {sa sb : State} (k : Nat) (b : Nat × Bool × Nat) (read : Bool)
    (hk : Keeps wr sa sb) :
    Keeps wr sa (burstAgain k b read sb) := by
  unfold burstAgain
  try dsimp only
  repeat'
    with_reducible (first
      | assumption | apply Keeps.ite | apply Keeps.dite | apply bump_keeps | apply modChan_keeps | apply startRetrain_keeps
      | apply countBad_keeps | apply poisonLine_keeps | apply burstDone_keeps | (intro _) | split | refine Keeps.upd ?_ rfl)

theorem burstResult_keeps {wr : Bool} {sa sb : State} (k : Nat) (b : Nat × Bool × Nat) (r : BurstResult)
    (hk : Keeps wr sa sb) :
    Keeps wr sa (burstResult k b r sb) := by
  unfold burstResult
  try dsimp only
  repeat'
    with_reducible (first
      | assumption | apply Keeps.ite | apply Keeps.dite | apply burstDone_keeps | apply log_keeps | apply bumpChan_keeps
      | apply bump_keeps | apply countBad_keeps | apply poisonLine_keeps | apply burstAgain_keeps | (intro _) | split)

theorem burstSlot_keeps {wr : Bool} {sa sb : State} (results : List (Fin 128 × BurstResult)) (hk : Keeps wr sa sb) :
    Keeps wr sa (burstSlot results sb) := by
  unfold burstSlot
  try dsimp only
  repeat'
    with_reducible (first
      | assumption | apply Keeps.ite | apply Keeps.dite | apply advanceTo_keeps | apply burstResult_keeps | apply Keeps.foldl
      | apply Keeps.foldl_snd | apply Keeps.foldl_fst | (intro _) | split)

theorem bar2Closed_keeps {wr : Bool} {sa sb : State} (hk : Keeps wr sa sb) :
    Keeps wr sa (bar2Closed sb) := by
  unfold bar2Closed
  try dsimp only
  repeat'
    with_reducible (first
      | assumption | apply Keeps.ite | apply Keeps.dite | apply emit_keeps | apply bump_keeps | (intro _) | split)

theorem bar2Read_keeps {wr : Bool} {sa sb : State} (x : Nat) (n : Nat) (hk : Keeps wr sa sb) :
    Keeps wr sa (bar2Read x n sb) := by
  unfold bar2Read
  try dsimp only
  repeat'
    with_reducible (first
      | assumption | apply Keeps.ite | apply Keeps.dite | apply emit_keeps | apply bar2Closed_keeps | apply touchLine_keeps
      | apply Keeps.foldl | apply Keeps.foldl_snd | apply Keeps.foldl_fst | (intro _) | split)

theorem bar2Line_keeps {sa sb : State} (line : Nat) (off : Nat) (data : List (Option Byte)) (hk : Keeps true sa sb) :
    Keeps true sa (bar2Line line off data sb) := by
  unfold bar2Line
  try dsimp only
  repeat'
    with_reducible (first
      | assumption | apply Keeps.ite | apply Keeps.dite | apply writeLine_keeps | apply Keeps.foldl | apply Keeps.foldl_snd
      | apply Keeps.foldl_fst | (intro _) | split)

theorem bar2Write_keeps {sa sb : State} (x : Nat) (data : List (Option Byte)) (hk : Keeps true sa sb) :
    Keeps true sa (bar2Write x data sb) := by
  unfold bar2Write
  try dsimp only
  repeat'
    with_reducible (first
      | assumption | apply Keeps.ite | apply Keeps.dite | apply bar2Closed_keeps | apply bar2Line_keeps | apply Keeps.foldl
      | apply Keeps.foldl_snd | apply Keeps.foldl_fst | (intro _) | split)

end Sys2Proof.Machine
end

