-- ==== Sys2Proof/Laws/CommandsGddr.lean ====
section
/-! SUPPORT. What the commands of Machine/Gddr.lean keep; each ends in a next state. -/

namespace Sys2Proof.Machine

open Sys2Proof

set_option linter.unusedTactic false
set_option linter.unreachableTactic false

theorem execBackgroundSlot_keeps (found : List (Fin 128 × BurstResult)) (sb : State) :
    ∃ sc, execBackgroundSlot found sb = .next sc ∧ Keeps false sb sc := by
  unfold execBackgroundSlot
  try dsimp only
  refine ⟨_, rfl, ?_⟩
  repeat'
    with_reducible (first
      | assumption | exact Keeps.refl _ _ | apply Keeps.ite | apply Keeps.dite | apply backgroundSlot_keeps | (intro _)
      | split)

theorem execBurstSlot_keeps (results : List (Fin 128 × BurstResult)) (sb : State) :
    ∃ sc, execBurstSlot results sb = .next sc ∧ Keeps false sb sc := by
  unfold execBurstSlot
  try dsimp only
  refine ⟨_, rfl, ?_⟩
  repeat'
    with_reducible (first
      | assumption | exact Keeps.refl _ _ | apply Keeps.ite | apply Keeps.dite | apply burstSlot_keeps | (intro _) | split)

theorem execChannelRetrain_keeps (channel : Fin 128) (ok : Bool) (sb : State) :
    ∃ sc, execChannelRetrain channel ok sb = .next sc ∧ Keeps false sb sc := by
  unfold execChannelRetrain
  try dsimp only
  refine ⟨_, rfl, ?_⟩
  repeat'
    with_reducible (first
      | assumption | exact Keeps.refl _ _ | apply Keeps.ite | apply Keeps.dite | apply channelRetrain_keeps | (intro _)
      | split)

theorem execBar2Read_keeps (offset len : Nat) (sb : State) :
    ∃ sc, execBar2Read offset len sb = .next sc ∧ Keeps false sb sc := by
  unfold execBar2Read
  try dsimp only
  refine ⟨_, rfl, ?_⟩
  repeat'
    with_reducible (first
      | assumption | exact Keeps.refl _ _ | apply Keeps.ite | apply Keeps.dite | apply bar2Read_keeps | (intro _) | split)

theorem execBar2Write_keeps (offset : Nat) (data : List (Option Byte)) (sb : State) :
    ∃ sc, execBar2Write offset data sb = .next sc ∧ Keeps true sb sc := by
  unfold execBar2Write
  try dsimp only
  refine ⟨_, rfl, ?_⟩
  repeat'
    with_reducible (first
      | assumption | exact Keeps.refl _ _ | apply Keeps.ite | apply Keeps.dite | apply bar2Write_keeps | (intro _) | split)

end Sys2Proof.Machine
end

