-- ==== Sys2Proof/Laws/CommandsGrotto.lean ====
section
/-! SUPPORT. What the commands of Machine/Grotto.lean keep; each ends in a next state. -/

namespace Sys2Proof.Machine

open Sys2Proof

set_option linter.unusedTactic false
set_option linter.unreachableTactic false

theorem execDirectoryAccess_keeps (sb : State) :
    ∃ sc, execDirectoryAccess sb = .next sc ∧ Keeps true sb sc := by
  unfold execDirectoryAccess
  try dsimp only
  refine ⟨_, rfl, ?_⟩
  repeat'
    with_reducible (first
      | assumption | exact Keeps.refl _ _ | apply Keeps.ite | apply Keeps.dite | apply directoryAccess_keeps | (intro _)
      | split)

theorem execSnpReceive_keeps (p : PortN) (c : Cell) (sb : State) :
    ∃ sc, execSnpReceive p c sb = .next sc ∧ Keeps false sb sc := by
  unfold execSnpReceive
  try dsimp only
  refine ⟨_, rfl, ?_⟩
  repeat'
    with_reducible (first
      | assumption | exact Keeps.refl _ _ | apply Keeps.ite | apply Keeps.dite | apply snpReceive_keeps | (intro _) | split)

theorem execSnrReceive_keeps (c : Cell) (sb : State) :
    ∃ sc, execSnrReceive c sb = .next sc ∧ Keeps true sb sc := by
  unfold execSnrReceive
  try dsimp only
  refine ⟨_, rfl, ?_⟩
  repeat'
    with_reducible (first
      | assumption | exact Keeps.refl _ _ | apply Keeps.ite | apply Keeps.dite | apply snrReceive_keeps | (intro _) | split)

theorem execForwardTimeout_keeps (line : Nat) (sb : State) :
    ∃ sc, execForwardTimeout line sb = .next sc ∧ Keeps false sb sc := by
  unfold execForwardTimeout
  try dsimp only
  refine ⟨_, rfl, ?_⟩
  repeat'
    with_reducible (first
      | assumption | exact Keeps.refl _ _ | apply Keeps.ite | apply Keeps.dite | apply forwardTimeout_keeps | (intro _)
      | split)

theorem execProbeTimeout_keeps (tag : BitVec 16) (sb : State) :
    ∃ sc, execProbeTimeout tag sb = .next sc ∧ Keeps true sb sc := by
  unfold execProbeTimeout
  try dsimp only
  refine ⟨_, rfl, ?_⟩
  repeat'
    with_reducible (first
      | assumption | exact Keeps.refl _ _ | apply Keeps.ite | apply Keeps.dite | apply probeTimeout_keeps | (intro _)
      | split)

theorem execLossWalkStep_keeps (sb : State) :
    ∃ sc, execLossWalkStep sb = .next sc ∧ Keeps true sb sc := by
  unfold execLossWalkStep
  try dsimp only
  refine ⟨_, rfl, ?_⟩
  repeat'
    with_reducible (first
      | assumption | exact Keeps.refl _ _ | apply Keeps.ite | apply Keeps.dite | apply lossWalkStep_keeps | (intro _)
      | split)

theorem execRecall_keeps (src : Route) (v : BitVec 8) (sb : State) :
    ∃ sc, execRecall src v sb = .next sc ∧ Keeps true sb sc := by
  unfold execRecall
  try dsimp only
  refine ⟨_, rfl, ?_⟩
  repeat'
    with_reducible (first
      | assumption | exact Keeps.refl _ _ | apply Keeps.ite | apply Keeps.dite | apply recallWrite_keeps | (intro _) | split)

end Sys2Proof.Machine
end

