-- ==== Sys2Proof/Laws/KeepHostFunction.lean ====
section
/-! SUPPORT. What the operations of Machine/HostFunction.lean keep. -/

namespace Sys2Proof.Machine

open Sys2Proof

set_option linter.unusedTactic false
set_option linter.unreachableTactic false

theorem whole_keeps {wr : Bool} {sa sb : State} (b : Dword) (f : Nat → State → State)
    (h_f : ∀ (x0 : Nat) (u : State), Keeps wr sa u → Keeps wr sa (f x0 u)) (hk : Keeps wr sa sb) :
    Keeps wr sa (whole b f sb) := by
  unfold whole
  try dsimp only
  repeat'
    with_reducible (first
      | assumption | apply Keeps.ite | apply Keeps.dite | apply h_f | apply countIgnored_keeps | (intro _) | split)

theorem resetRequest_keeps {sa sb : State} (v : Nat) (hk : Keeps true sa sb) :
    Keeps true sa (resetRequest v sb) := by
  unfold resetRequest
  try dsimp only
  repeat'
    with_reducible (first
      | assumption | apply Keeps.ite | apply Keeps.dite | apply requestReset_keeps | apply countIgnored_keeps | (intro _)
      | split)

theorem clearCauses_keeps {wr : Bool} {sa sb : State} (v : BitVec 64) (hk : Keeps wr sa sb) :
    Keeps wr sa (clearCauses v sb) := by
  unfold clearCauses
  try dsimp only
  repeat'
    with_reducible (first
      | assumption | apply Keeps.ite | apply Keeps.dite | apply modHost_keeps | (intro _) | split | refine Keeps.upd ?_ rfl)

theorem writeCtxRegister_keeps {wr : Bool} {sa sb : State} (k : Nat) (o : Nat) (b : Dword) (hk : Keeps wr sa sb) :
    Keeps wr sa (writeCtxRegister k o b sb) := by
  unfold writeCtxRegister
  try dsimp only
  repeat'
    with_reducible (first
      | assumption | apply Keeps.ite | apply Keeps.dite | apply modCtx_keeps | apply whole_keeps | apply contextAction_keeps
      | apply producerWrite_keeps | (intro _) | split | refine Keeps.upd ?_ rfl)

theorem writeBar0_keeps {sa sb : State} (o : Nat) (b : Dword) (hk : Keeps true sa sb) :
    Keeps true sa (writeBar0 o b sb) := by
  unfold writeBar0
  try dsimp only
  repeat'
    with_reducible (first
      | assumption | apply Keeps.ite | apply Keeps.dite | apply modHost_keeps | apply whole_keeps
      | apply mailboxDoorbell_keeps | apply resetRequest_keeps | apply clearCauses_keeps | apply writeCtxRegister_keeps
      | (intro _) | split | refine Keeps.upd ?_ rfl)

theorem sendPending_keeps {wr : Bool} {sa sb : State} (hk : Keeps wr sa sb) :
    Keeps wr sa (sendPending sb) := by
  unfold sendPending
  try dsimp only
  repeat'
    with_reducible (first
      | assumption | apply Keeps.ite | apply Keeps.dite | apply emit_keeps | apply modHost_keeps | apply Keeps.foldl
      | apply Keeps.foldl_snd | apply Keeps.foldl_fst | (intro _) | split | refine Keeps.upd ?_ rfl)

theorem writeBar4_keeps {wr : Bool} {sa sb : State} (o : Nat) (b : Dword) (hk : Keeps wr sa sb) :
    Keeps wr sa (writeBar4 o b sb) := by
  unfold writeBar4
  try dsimp only
  repeat'
    with_reducible (first
      | assumption | apply Keeps.ite | apply Keeps.dite | apply sendPending_keeps | apply modHost_keeps | (intro _) | split
      | refine Keeps.upd ?_ rfl)

theorem functionReset_keeps {sa sb : State} (hk : Keeps true sa sb) :
    Keeps true sa (functionReset sb) := by
  unfold functionReset
  try dsimp only
  repeat'
    with_reducible (first
      | assumption | apply Keeps.ite | apply Keeps.dite | apply abortCtx_keeps | apply stopPages_keeps
      | apply invalidateEvery_keeps | apply modXlat_keeps | apply dropSessions_keeps | apply modHost_keeps
      | apply Keeps.foldl | apply Keeps.foldl_snd | apply Keeps.foldl_fst | (intro _) | split | refine Keeps.upd ?_ rfl)

theorem powerState_keeps {wr : Bool} {sa sb : State} (d3hot : Bool) (hk : Keeps wr sa sb) :
    Keeps wr sa (powerState d3hot sb) := by
  unfold powerState
  try dsimp only
  repeat'
    with_reducible (first
      | assumption | apply Keeps.ite | apply Keeps.dite | apply modHost_keeps | (intro _) | split | refine Keeps.upd ?_ rfl)

theorem setAts_keeps {wr : Bool} {sa sb : State} (on : Bool) (hk : Keeps wr sa sb) :
    Keeps wr sa (setAts on sb) := by
  unfold setAts
  try dsimp only
  repeat'
    with_reducible (first
      | assumption | apply Keeps.ite | apply Keeps.dite | apply modXlat_keeps | (intro _) | split | refine Keeps.upd ?_ rfl)

theorem setPri_keeps {wr : Bool} {sa sb : State} (v : Byte) (hk : Keeps wr sa sb) :
    Keeps wr sa (setPri v sb) := by
  unfold setPri
  try dsimp only
  repeat'
    with_reducible (first
      | assumption | apply Keeps.ite | apply Keeps.dite | apply stopPages_keeps | apply modXlat_keeps | (intro _) | split
      | refine Keeps.upd ?_ rfl)

theorem setConfig_keeps {wr : Bool} {sa sb : State} (o : Nat) (b : Dword) (hk : Keeps wr sa sb) :
    Keeps wr sa (setConfig o b sb) := by
  unfold setConfig
  try dsimp only
  repeat'
    with_reducible (first
      | assumption | apply Keeps.ite | apply Keeps.dite | apply modHost_keeps | (intro _) | split | refine Keeps.upd ?_ rfl)

theorem onByte_keeps {wr : Bool} {sa sb : State} (b : Dword) (i : Nat) (f : Byte → State → State)
    (h_f : ∀ (x0 : Byte) (u : State), Keeps wr sa u → Keeps wr sa (f x0 u)) (hk : Keeps wr sa sb) :
    Keeps wr sa (onByte b i f sb) := by
  unfold onByte
  try dsimp only
  repeat'
    with_reducible (first
      | assumption | apply Keeps.ite | apply Keeps.dite | apply h_f | (intro _) | split)

theorem writeConfig_keeps {sa sb : State} (o : Nat) (b : Dword) (hk : Keeps true sa sb) :
    Keeps true sa (writeConfig o b sb) := by
  unfold writeConfig
  try dsimp only
  repeat'
    with_reducible (first
      | assumption | apply Keeps.ite | apply Keeps.dite | apply onByte_keeps | apply powerState_keeps
      | apply functionReset_keeps | apply setConfig_keeps | apply sendPending_keeps | apply modHost_keeps
      | apply setAts_keeps | apply modXlat_keeps | apply setPri_keeps | (intro _) | split | refine Keeps.upd ?_ rfl)

theorem writeDword_keeps {sa sb : State} (o : Nat) (b : Dword) (hk : Keeps true sa sb) :
    Keeps true sa (writeDword o b sb) := by
  unfold writeDword
  try dsimp only
  repeat'
    with_reducible (first
      | assumption | apply Keeps.ite | apply Keeps.dite | apply barWrite_keeps | apply writeBar0_keeps
      | apply writeConfig_keeps | apply writeBar4_keeps | (intro _) | split)

theorem registerWrite_keeps {sa sb : State} (off : Nat) (data : List (Option Byte)) (hk : Keeps true sa sb) :
    Keeps true sa (registerWrite off data sb) := by
  unfold registerWrite
  try dsimp only
  repeat'
    with_reducible (first
      | assumption | apply Keeps.ite | apply Keeps.dite | apply writeDword_keeps | apply Keeps.foldl | apply Keeps.foldl_snd
      | apply Keeps.foldl_fst | (intro _) | split)

theorem doeDiscovery_keeps {wr : Bool} {sa sb : State} (index : Nat) (dwords : Nat) (hk : Keeps wr sa sb) :
    Keeps wr sa (doeDiscovery index dwords sb) := by
  unfold doeDiscovery
  try dsimp only
  repeat'
    with_reducible (first
      | assumption | apply Keeps.ite | apply Keeps.dite | apply modHost_keeps | apply emit_keeps | (intro _) | split
      | refine Keeps.upd ?_ rfl)

end Sys2Proof.Machine
end

