-- ==== Sys2Proof/Laws/CommandsHostFunction.lean ====
section
/-! SUPPORT. What the commands of Machine/HostFunction.lean keep; each ends in a next state. -/

namespace Sys2Proof.Machine

open Sys2Proof

set_option linter.unusedTactic false
set_option linter.unreachableTactic false

theorem execRegisterWrite_keeps (offset : Nat) (data : List (Option Byte)) (sb : State) :
    ∃ sc, execRegisterWrite offset data sb = .next sc ∧ Keeps true sb sc := by
  unfold execRegisterWrite
  try dsimp only
  refine ⟨_, rfl, ?_⟩
  repeat'
    with_reducible (first
      | assumption | exact Keeps.refl _ _ | apply Keeps.ite | apply Keeps.dite | apply registerWrite_keeps | (intro _)
      | split)

theorem execIrqCauseClear_keeps (v : BitVec 64) (sb : State) :
    ∃ sc, execIrqCauseClear v sb = .next sc ∧ Keeps false sb sc := by
  unfold execIrqCauseClear
  try dsimp only
  refine ⟨_, rfl, ?_⟩
  repeat'
    with_reducible (first
      | assumption | exact Keeps.refl _ _ | apply Keeps.ite | apply Keeps.dite | apply barWrite_keeps
      | apply clearCauses_keeps | (intro _) | split)

theorem execPerstDeassert_keeps (sb : State) :
    ∃ sc, execPerstDeassert sb = .next sc ∧ Keeps true sb sc := by
  unfold execPerstDeassert
  try dsimp only
  refine ⟨_, rfl, ?_⟩
  repeat'
    with_reducible (first
      | assumption | exact Keeps.refl _ _ | apply Keeps.ite | apply Keeps.dite | apply modHost_keeps
      | apply functionReset_keeps | (intro _) | split | refine Keeps.upd ?_ rfl)

theorem execFunctionLevelReset_keeps (sb : State) :
    ∃ sc, execFunctionLevelReset sb = .next sc ∧ Keeps true sb sc := by
  unfold execFunctionLevelReset
  try dsimp only
  refine ⟨_, rfl, ?_⟩
  repeat'
    with_reducible (first
      | assumption | exact Keeps.refl _ _ | apply Keeps.ite | apply Keeps.dite | apply functionReset_keeps | (intro _)
      | split)

theorem execPcieRefclkLoss_keeps (sb : State) :
    ∃ sc, execPcieRefclkLoss sb = .next sc ∧ Keeps false sb sc := by
  unfold execPcieRefclkLoss
  try dsimp only
  refine ⟨_, rfl, ?_⟩
  repeat'
    with_reducible (first
      | assumption | exact Keeps.refl _ _ | apply Keeps.ite | apply Keeps.dite | apply modHost_keeps | (intro _) | split
      | refine Keeps.upd ?_ rfl)

theorem execPowerStateChange_keeps (d3hot : Bool) (sb : State) :
    ∃ sc, execPowerStateChange d3hot sb = .next sc ∧ Keeps false sb sc := by
  unfold execPowerStateChange
  try dsimp only
  refine ⟨_, rfl, ?_⟩
  repeat'
    with_reducible (first
      | assumption | exact Keeps.refl _ _ | apply Keeps.ite | apply Keeps.dite | apply powerState_keeps | (intro _) | split)

theorem execDoeDiscovery_keeps (index : BitVec 8) (dwords : Nat) (sb : State) :
    ∃ sc, execDoeDiscovery index dwords sb = .next sc ∧ Keeps false sb sc := by
  unfold execDoeDiscovery
  try dsimp only
  refine ⟨_, rfl, ?_⟩
  repeat'
    with_reducible (first
      | assumption | exact Keeps.refl _ _ | apply Keeps.ite | apply Keeps.dite | apply doeDiscovery_keeps | (intro _)
      | split)

end Sys2Proof.Machine
end

