-- ==== Sys2Proof/Laws/CommandsKernels.lean ====
section
/-! SUPPORT. What the commands of Machine/Kernels.lean keep; each ends in a next state. -/

namespace Sys2Proof.Machine

open Sys2Proof

set_option linter.unusedTactic false
set_option linter.unreachableTactic false

theorem execKernelLoad_keeps (src : Route) (v : BitVec 8) (sb : State) :
    ∃ sc, execKernelLoad src v sb = .next sc ∧ Keeps false sb sc := by
  unfold execKernelLoad
  try dsimp only
  refine ⟨_, rfl, ?_⟩
  repeat'
    with_reducible (first
      | assumption | exact Keeps.refl _ _ | apply Keeps.ite | apply Keeps.dite | apply kernelLoad_keeps | (intro _) | split)

theorem execKernelLoadDone_keeps (sb : State) :
    ∃ sc, execKernelLoadDone sb = .next sc ∧ Keeps true sb sc := by
  unfold execKernelLoadDone
  try dsimp only
  refine ⟨_, rfl, ?_⟩
  repeat'
    with_reducible (first
      | assumption | exact Keeps.refl _ _ | apply Keeps.ite | apply Keeps.dite | apply kernelLoadDone_keeps | (intro _)
      | split)

theorem execKernelUnload_keeps (src : Route) (v : BitVec 16) (sb : State) :
    ∃ sc, execKernelUnload src v sb = .next sc ∧ Keeps false sb sc := by
  unfold execKernelUnload
  try dsimp only
  refine ⟨_, rfl, ?_⟩
  repeat'
    with_reducible (first
      | assumption | exact Keeps.refl _ _ | apply Keeps.ite | apply Keeps.dite | apply kernelUnload_keeps | (intro _)
      | split)

end Sys2Proof.Machine
end

