-- ==== Sys2Proof/Laws/KeepKeying.lean ====
section
/-! SUPPORT. What the operations of Machine/Keying.lean keep. -/

namespace Sys2Proof.Machine

open Sys2Proof

set_option linter.unusedTactic false
set_option linter.unreachableTactic false

theorem modKey_keeps {wr : Bool} {sa sb : State} (p : PortN) (f : Keying → Keying) (hk : Keeps wr sa sb) :
    Keeps wr sa (modKey p f sb) := by
  unfold modKey
  try dsimp only
  repeat'
    with_reducible (first
      | assumption | apply Keeps.ite | apply Keeps.dite | apply modPort_keeps | (intro _) | split | refine Keeps.upd ?_ rfl)

theorem sendKeying_keeps {wr : Bool} {sa sb : State} (p : PortN) (sub : Nat) (data : Bytes) (hk : Keeps wr sa sb) :
    Keeps wr sa (sendKeying p sub data sb) := by
  unfold sendKeying
  try dsimp only
  repeat'
    with_reducible (first
      | assumption | apply Keeps.ite | apply Keeps.dite | apply sendMus_keeps | apply modKey_keeps | apply Keeps.foldl
      | apply Keeps.foldl_snd | apply Keeps.foldl_fst | (intro _) | split | refine Keeps.upd ?_ rfl)

theorem startHandshake_keeps {wr : Bool} {sa sb : State} (p : PortN) (hk : Keeps wr sa sb) :
    Keeps wr sa (startHandshake p sb) := by
  unfold startHandshake
  try dsimp only
  repeat'
    with_reducible (first
      | assumption | apply Keeps.ite | apply Keeps.dite | apply drawn_keeps | apply modKey_keeps | apply sendKeying_keeps
      | (intro _) | split | refine Keeps.upd ?_ rfl)

theorem beginKeying_keeps {wr : Bool} {sa sb : State} (p : PortN) (hk : Keeps wr sa sb) :
    Keeps wr sa (beginKeying p sb) := by
  unfold beginKeying
  try dsimp only
  repeat'
    with_reducible (first
      | assumption | apply Keeps.ite | apply Keeps.dite | apply startHandshake_keeps | (intro _) | split)

theorem failKeying_keeps {wr : Bool} {sa sb : State} (p : PortN) (stage : Nat) (hk : Keeps wr sa sb) :
    Keeps wr sa (failKeying p stage sb) := by
  unfold failKeying
  try dsimp only
  repeat'
    with_reducible (first
      | assumption | apply Keeps.ite | apply Keeps.dite | apply log_keeps | apply bump_keeps | apply modKey_keeps | (intro _)
      | split | refine Keeps.upd ?_ rfl)

theorem keyOfferReceive_keeps {wr : Bool} {sa sb : State} (p : PortN) (o : KeyOffer) (hk : Keeps wr sa sb) :
    Keeps wr sa (keyOfferReceive p o sb) := by
  unfold keyOfferReceive
  try dsimp only
  repeat'
    with_reducible (first
      | assumption | apply Keeps.ite | apply Keeps.dite | apply takeMus_keeps | apply startHandshake_keeps
      | apply failKeying_keeps | apply modKey_keeps | apply sendKeying_keeps | (intro _) | split | refine Keeps.upd ?_ rfl)

theorem keyProofReceive_keeps {wr : Bool} {sa sb : State} (p : PortN) (signature : Bytes) (hk : Keeps wr sa sb) :
    Keeps wr sa (keyProofReceive p signature sb) := by
  unfold keyProofReceive
  try dsimp only
  repeat'
    with_reducible (first
      | assumption | apply Keeps.ite | apply Keeps.dite | apply takeMus_keeps | apply modKey_keeps | apply failKeying_keeps
      | (intro _) | split | refine Keeps.upd ?_ rfl)

theorem startKey_keeps {wr : Bool} {sa sb : State} (p : PortN) (hk : Keeps wr sa sb) :
    Keeps wr sa (startKey p sb) := by
  unfold startKey
  try dsimp only
  repeat'
    with_reducible (first
      | assumption | apply Keeps.ite | apply Keeps.dite | apply drawn_keeps | apply modKey_keeps | apply sendKeying_keeps
      | apply bump_keeps | (intro _) | split | refine Keeps.upd ?_ rfl)

theorem keyStartReceive_keeps {wr : Bool} {sa sb : State} (p : PortN) (n : Bytes) (start : Nat) (hk : Keeps wr sa sb) :
    Keeps wr sa (keyStartReceive p n start sb) := by
  unfold keyStartReceive
  try dsimp only
  repeat'
    with_reducible (first
      | assumption | apply Keeps.ite | apply Keeps.dite | apply takeMus_keeps | apply drawn_keeps | apply modKey_keeps
      | apply sendKeying_keeps | (intro _) | split | refine Keeps.upd ?_ rfl)

theorem keyAckReceive_keeps {wr : Bool} {sa sb : State} (p : PortN) (n : Bytes) (start : Nat) (hk : Keeps wr sa sb) :
    Keeps wr sa (keyAckReceive p n start sb) := by
  unfold keyAckReceive
  try dsimp only
  repeat'
    with_reducible (first
      | assumption | apply Keeps.ite | apply Keeps.dite | apply takeMus_keeps | apply modKey_keeps | (intro _) | split
      | refine Keeps.upd ?_ rfl)

theorem keySwitch_keeps {wr : Bool} {sa sb : State} (p : PortN) (hk : Keeps wr sa sb) :
    Keeps wr sa (keySwitch p sb) := by
  unfold keySwitch
  try dsimp only
  repeat'
    with_reducible (first
      | assumption | apply Keeps.ite | apply Keeps.dite | apply advanceTo_keeps | apply modKey_keeps
      | apply resendCells_keeps | apply startKey_keeps | apply bump_keeps | (intro _) | split | refine Keeps.upd ?_ rfl)

theorem keyResend_keeps {wr : Bool} {sa sb : State} (p : PortN) (hk : Keeps wr sa sb) :
    Keeps wr sa (keyResend p sb) := by
  unfold keyResend
  try dsimp only
  repeat'
    with_reducible (first
      | assumption | apply Keeps.ite | apply Keeps.dite | apply failKeying_keeps | apply modKey_keeps
      | apply sendKeying_keeps | (intro _) | split | refine Keeps.upd ?_ rfl)

theorem keyRetry_keeps {wr : Bool} {sa sb : State} (p : PortN) (hk : Keeps wr sa sb) :
    Keeps wr sa (keyRetry p sb) := by
  unfold keyRetry
  try dsimp only
  repeat'
    with_reducible (first
      | assumption | apply Keeps.ite | apply Keeps.dite | apply startHandshake_keeps | (intro _) | split)

end Sys2Proof.Machine
end

