-- ==== Sys2Proof/Laws/CommandsKeying.lean ====
section
/-! SUPPORT. What the commands of Machine/Keying.lean keep; each ends in a next state. -/

namespace Sys2Proof.Machine

open Sys2Proof

set_option linter.unusedTactic false
set_option linter.unreachableTactic false

theorem execActiveEntry_keeps (p : PortN) (sb : State) :
    ∃ sc, execActiveEntry p sb = .next sc ∧ Keeps false sb sc := by
  unfold execActiveEntry
  try dsimp only
  refine ⟨_, rfl, ?_⟩
  repeat'
    with_reducible (first
      | assumption | exact Keeps.refl _ _ | apply Keeps.ite | apply Keeps.dite | apply beginKeying_keeps
      | apply activeEntry_keeps | (intro _) | split)

theorem execKeyOffer_keeps (p : PortN) (o : KeyOffer) (sb : State) :
    ∃ sc, execKeyOffer p o sb = .next sc ∧ Keeps false sb sc := by
  unfold execKeyOffer
  try dsimp only
  refine ⟨_, rfl, ?_⟩
  repeat'
    with_reducible (first
      | assumption | exact Keeps.refl _ _ | apply Keeps.ite | apply Keeps.dite | apply keyOfferReceive_keeps | (intro _)
      | split)

theorem execKeyProof_keeps (p : PortN) (signature : Bytes) (sb : State) :
    ∃ sc, execKeyProof p signature sb = .next sc ∧ Keeps false sb sc := by
  unfold execKeyProof
  try dsimp only
  refine ⟨_, rfl, ?_⟩
  repeat'
    with_reducible (first
      | assumption | exact Keeps.refl _ _ | apply Keeps.ite | apply Keeps.dite | apply keyProofReceive_keeps | (intro _)
      | split)

theorem execKeyStart_keeps (p : PortN) (n : Bytes) (start : Nat) (sb : State) :
    ∃ sc, execKeyStart p n start sb = .next sc ∧ Keeps false sb sc := by
  unfold execKeyStart
  try dsimp only
  refine ⟨_, rfl, ?_⟩
  repeat'
    with_reducible (first
      | assumption | exact Keeps.refl _ _ | apply Keeps.ite | apply Keeps.dite | apply keyStartReceive_keeps | (intro _)
      | split)

theorem execKeyAck_keeps (p : PortN) (n : Bytes) (start : Nat) (sb : State) :
    ∃ sc, execKeyAck p n start sb = .next sc ∧ Keeps false sb sc := by
  unfold execKeyAck
  try dsimp only
  refine ⟨_, rfl, ?_⟩
  repeat'
    with_reducible (first
      | assumption | exact Keeps.refl _ _ | apply Keeps.ite | apply Keeps.dite | apply keyAckReceive_keeps | (intro _)
      | split)

theorem execKeyMessageResend_keeps (p : PortN) (sb : State) :
    ∃ sc, execKeyMessageResend p sb = .next sc ∧ Keeps false sb sc := by
  unfold execKeyMessageResend
  try dsimp only
  refine ⟨_, rfl, ?_⟩
  repeat'
    with_reducible (first
      | assumption | exact Keeps.refl _ _ | apply Keeps.ite | apply Keeps.dite | apply keyResend_keeps | (intro _) | split)

theorem execKeyHandshakeRetry_keeps (p : PortN) (sb : State) :
    ∃ sc, execKeyHandshakeRetry p sb = .next sc ∧ Keeps false sb sc := by
  unfold execKeyHandshakeRetry
  try dsimp only
  refine ⟨_, rfl, ?_⟩
  repeat'
    with_reducible (first
      | assumption | exact Keeps.refl _ _ | apply Keeps.ite | apply Keeps.dite | apply keyRetry_keeps | (intro _) | split)

theorem execKeyRenewal_keeps (p : PortN) (sb : State) :
    ∃ sc, execKeyRenewal p sb = .next sc ∧ Keeps false sb sc := by
  unfold execKeyRenewal
  try dsimp only
  refine ⟨_, rfl, ?_⟩
  repeat'
    with_reducible (first
      | assumption | exact Keeps.refl _ _ | apply Keeps.ite | apply Keeps.dite | apply startKey_keeps | (intro _) | split)

theorem execKeySwitch_keeps (p : PortN) (sb : State) :
    ∃ sc, execKeySwitch p sb = .next sc ∧ Keeps false sb sc := by
  unfold execKeySwitch
  try dsimp only
  refine ⟨_, rfl, ?_⟩
  repeat'
    with_reducible (first
      | assumption | exact Keeps.refl _ _ | apply Keeps.ite | apply Keeps.dite | apply keySwitch_keeps | (intro _) | split)

end Sys2Proof.Machine
end

