-- ==== Sys2Proof/Laws/CommandsLanes.lean ====
section
/-! SUPPORT. What the commands of Machine/Lanes.lean keep; each ends in a next state. -/

namespace Sys2Proof.Machine

open Sys2Proof

set_option linter.unusedTactic false
set_option linter.unreachableTactic false

theorem execIntAdd_keeps (w : StreamId) (f : IFields) (sb : State) :
    ∃ sc, execIntAdd w f sb = .next sc ∧ Keeps false sb sc := by
  unfold execIntAdd
  try dsimp only
  refine ⟨_, rfl, ?_⟩
  repeat'
    with_reducible (first
      | assumption | exact Keeps.refl _ _ | apply Keeps.ite | apply Keeps.dite | apply intOp_keeps | (intro _) | split)

theorem execIntSub_keeps (w : StreamId) (f : IFields) (sb : State) :
    ∃ sc, execIntSub w f sb = .next sc ∧ Keeps false sb sc := by
  unfold execIntSub
  try dsimp only
  refine ⟨_, rfl, ?_⟩
  repeat'
    with_reducible (first
      | assumption | exact Keeps.refl _ _ | apply Keeps.ite | apply Keeps.dite | apply intOp_keeps | (intro _) | split)

theorem execIntMullo_keeps (w : StreamId) (f : IFields) (sb : State) :
    ∃ sc, execIntMullo w f sb = .next sc ∧ Keeps false sb sc := by
  unfold execIntMullo
  try dsimp only
  refine ⟨_, rfl, ?_⟩
  repeat'
    with_reducible (first
      | assumption | exact Keeps.refl _ _ | apply Keeps.ite | apply Keeps.dite | apply intOp_keeps | (intro _) | split)

theorem execIntAnd_keeps (w : StreamId) (f : IFields) (sb : State) :
    ∃ sc, execIntAnd w f sb = .next sc ∧ Keeps false sb sc := by
  unfold execIntAnd
  try dsimp only
  refine ⟨_, rfl, ?_⟩
  repeat'
    with_reducible (first
      | assumption | exact Keeps.refl _ _ | apply Keeps.ite | apply Keeps.dite | apply intOp_keeps | (intro _) | split)

theorem execIntOr_keeps (w : StreamId) (f : IFields) (sb : State) :
    ∃ sc, execIntOr w f sb = .next sc ∧ Keeps false sb sc := by
  unfold execIntOr
  try dsimp only
  refine ⟨_, rfl, ?_⟩
  repeat'
    with_reducible (first
      | assumption | exact Keeps.refl _ _ | apply Keeps.ite | apply Keeps.dite | apply intOp_keeps | (intro _) | split)

theorem execIntXor_keeps (w : StreamId) (f : IFields) (sb : State) :
    ∃ sc, execIntXor w f sb = .next sc ∧ Keeps false sb sc := by
  unfold execIntXor
  try dsimp only
  refine ⟨_, rfl, ?_⟩
  repeat'
    with_reducible (first
      | assumption | exact Keeps.refl _ _ | apply Keeps.ite | apply Keeps.dite | apply intOp_keeps | (intro _) | split)

theorem execIntShl_keeps (w : StreamId) (f : IFields) (sb : State) :
    ∃ sc, execIntShl w f sb = .next sc ∧ Keeps false sb sc := by
  unfold execIntShl
  try dsimp only
  refine ⟨_, rfl, ?_⟩
  repeat'
    with_reducible (first
      | assumption | exact Keeps.refl _ _ | apply Keeps.ite | apply Keeps.dite | apply shiftOp_keeps | (intro _) | split)

theorem execIntShr_keeps (w : StreamId) (f : IFields) (sb : State) :
    ∃ sc, execIntShr w f sb = .next sc ∧ Keeps false sb sc := by
  unfold execIntShr
  try dsimp only
  refine ⟨_, rfl, ?_⟩
  repeat'
    with_reducible (first
      | assumption | exact Keeps.refl _ _ | apply Keeps.ite | apply Keeps.dite | apply shiftOp_keeps | (intro _) | split)

theorem execIntSar_keeps (w : StreamId) (f : IFields) (sb : State) :
    ∃ sc, execIntSar w f sb = .next sc ∧ Keeps false sb sc := by
  unfold execIntSar
  try dsimp only
  refine ⟨_, rfl, ?_⟩
  repeat'
    with_reducible (first
      | assumption | exact Keeps.refl _ _ | apply Keeps.ite | apply Keeps.dite | apply shiftOp_keeps | (intro _) | split)

theorem execIntMin_keeps (w : StreamId) (f : IFields) (sb : State) :
    ∃ sc, execIntMin w f sb = .next sc ∧ Keeps false sb sc := by
  unfold execIntMin
  try dsimp only
  refine ⟨_, rfl, ?_⟩
  repeat'
    with_reducible (first
      | assumption | exact Keeps.refl _ _ | apply Keeps.ite | apply Keeps.dite | apply intOp_keeps | (intro _) | split)

theorem execIntMax_keeps (w : StreamId) (f : IFields) (sb : State) :
    ∃ sc, execIntMax w f sb = .next sc ∧ Keeps false sb sc := by
  unfold execIntMax
  try dsimp only
  refine ⟨_, rfl, ?_⟩
  repeat'
    with_reducible (first
      | assumption | exact Keeps.refl _ _ | apply Keeps.ite | apply Keeps.dite | apply intOp_keeps | (intro _) | split)

theorem execIntMov_keeps (w : StreamId) (f : IFields) (sb : State) :
    ∃ sc, execIntMov w f sb = .next sc ∧ Keeps false sb sc := by
  unfold execIntMov
  try dsimp only
  refine ⟨_, rfl, ?_⟩
  repeat'
    with_reducible (first
      | assumption | exact Keeps.refl _ _ | apply Keeps.ite | apply Keeps.dite | apply intOp_keeps | (intro _) | split)

theorem execIntMovi_keeps (w : StreamId) (f : IFields) (sb : State) :
    ∃ sc, execIntMovi w f sb = .next sc ∧ Keeps false sb sc := by
  unfold execIntMovi
  try dsimp only
  refine ⟨_, rfl, ?_⟩
  repeat'
    with_reducible (first
      | assumption | exact Keeps.refl _ _ | apply Keeps.ite | apply Keeps.dite | apply issue_keeps | apply modStream_keeps
      | apply drawn_keeps | (intro _) | split)

theorem execCmpEq_keeps (w : StreamId) (f : IFields) (sb : State) :
    ∃ sc, execCmpEq w f sb = .next sc ∧ Keeps false sb sc := by
  unfold execCmpEq
  try dsimp only
  refine ⟨_, rfl, ?_⟩
  repeat'
    with_reducible (first
      | assumption | exact Keeps.refl _ _ | apply Keeps.ite | apply Keeps.dite | apply cmpOp_keeps | (intro _) | split)

theorem execCmpNe_keeps (w : StreamId) (f : IFields) (sb : State) :
    ∃ sc, execCmpNe w f sb = .next sc ∧ Keeps false sb sc := by
  unfold execCmpNe
  try dsimp only
  refine ⟨_, rfl, ?_⟩
  repeat'
    with_reducible (first
      | assumption | exact Keeps.refl _ _ | apply Keeps.ite | apply Keeps.dite | apply cmpOp_keeps | (intro _) | split)

theorem execCmpLt_keeps (w : StreamId) (f : IFields) (sb : State) :
    ∃ sc, execCmpLt w f sb = .next sc ∧ Keeps false sb sc := by
  unfold execCmpLt
  try dsimp only
  refine ⟨_, rfl, ?_⟩
  repeat'
    with_reducible (first
      | assumption | exact Keeps.refl _ _ | apply Keeps.ite | apply Keeps.dite | apply cmpOp_keeps | (intro _) | split)

theorem execCmpLe_keeps (w : StreamId) (f : IFields) (sb : State) :
    ∃ sc, execCmpLe w f sb = .next sc ∧ Keeps false sb sc := by
  unfold execCmpLe
  try dsimp only
  refine ⟨_, rfl, ?_⟩
  repeat'
    with_reducible (first
      | assumption | exact Keeps.refl _ _ | apply Keeps.ite | apply Keeps.dite | apply cmpOp_keeps | (intro _) | split)

theorem execCmpSel_keeps (w : StreamId) (f : IFields) (sb : State) :
    ∃ sc, execCmpSel w f sb = .next sc ∧ Keeps false sb sc := by
  unfold execCmpSel
  try dsimp only
  refine ⟨_, rfl, ?_⟩
  repeat'
    with_reducible (first
      | assumption | exact Keeps.refl _ _ | apply Keeps.ite | apply Keeps.dite | apply issueRegs_keeps | (intro _) | split)

theorem execCvt_keeps (w : StreamId) (f : IFields) (sb : State) :
    ∃ sc, execCvt w f sb = .next sc ∧ Keeps false sb sc := by
  unfold execCvt
  try dsimp only
  refine ⟨_, rfl, ?_⟩
  repeat'
    with_reducible (first
      | assumption | exact Keeps.refl _ _ | apply Keeps.ite | apply Keeps.dite | apply issueRegs_keeps | (intro _) | split)

theorem execFma_keeps (w : StreamId) (f : IFields) (sb : State) :
    ∃ sc, execFma w f sb = .next sc ∧ Keeps false sb sc := by
  unfold execFma
  try dsimp only
  refine ⟨_, rfl, ?_⟩
  repeat'
    with_reducible (first
      | assumption | exact Keeps.refl _ _ | apply Keeps.ite | apply Keeps.dite | apply fmaOp_keeps | (intro _) | split)

theorem execFmul_keeps (w : StreamId) (f : IFields) (sb : State) :
    ∃ sc, execFmul w f sb = .next sc ∧ Keeps false sb sc := by
  unfold execFmul
  try dsimp only
  refine ⟨_, rfl, ?_⟩
  repeat'
    with_reducible (first
      | assumption | exact Keeps.refl _ _ | apply Keeps.ite | apply Keeps.dite | apply fmaOp_keeps | (intro _) | split)

theorem execFadd_keeps (w : StreamId) (f : IFields) (sb : State) :
    ∃ sc, execFadd w f sb = .next sc ∧ Keeps false sb sc := by
  unfold execFadd
  try dsimp only
  refine ⟨_, rfl, ?_⟩
  repeat'
    with_reducible (first
      | assumption | exact Keeps.refl _ _ | apply Keeps.ite | apply Keeps.dite | apply fmaOp_keeps | (intro _) | split)

theorem execFmin_keeps (w : StreamId) (f : IFields) (sb : State) :
    ∃ sc, execFmin w f sb = .next sc ∧ Keeps false sb sc := by
  unfold execFmin
  try dsimp only
  refine ⟨_, rfl, ?_⟩
  repeat'
    with_reducible (first
      | assumption | exact Keeps.refl _ _ | apply Keeps.ite | apply Keeps.dite | apply minmaxOp_keeps | (intro _) | split)

theorem execFmax_keeps (w : StreamId) (f : IFields) (sb : State) :
    ∃ sc, execFmax w f sb = .next sc ∧ Keeps false sb sc := by
  unfold execFmax
  try dsimp only
  refine ⟨_, rfl, ?_⟩
  repeat'
    with_reducible (first
      | assumption | exact Keeps.refl _ _ | apply Keeps.ite | apply Keeps.dite | apply minmaxOp_keeps | (intro _) | split)

theorem execDot8_keeps (w : StreamId) (f : IFields) (sb : State) :
    ∃ sc, execDot8 w f sb = .next sc ∧ Keeps false sb sc := by
  unfold execDot8
  try dsimp only
  refine ⟨_, rfl, ?_⟩
  repeat'
    with_reducible (first
      | assumption | exact Keeps.refl _ _ | apply Keeps.ite | apply Keeps.dite | apply dotOp_keeps | (intro _) | split)

theorem execDot8Mx_keeps (w : StreamId) (op : BitVec 6) (f : IFields) (sb : State) :
    ∃ sc, execDot8Mx w op f sb = .next sc ∧ Keeps false sb sc := by
  unfold execDot8Mx
  try dsimp only
  refine ⟨_, rfl, ?_⟩
  repeat'
    with_reducible (first
      | assumption | exact Keeps.refl _ _ | apply Keeps.ite | apply Keeps.dite | apply dotOp_keeps | (intro _) | split)

theorem execAccAdd_keeps (w : StreamId) (f : IFields) (sb : State) :
    ∃ sc, execAccAdd w f sb = .next sc ∧ Keeps false sb sc := by
  unfold execAccAdd
  try dsimp only
  refine ⟨_, rfl, ?_⟩
  repeat'
    with_reducible (first
      | assumption | exact Keeps.refl _ _ | apply Keeps.ite | apply Keeps.dite | apply accOp_keeps | apply setAcc_keeps
      | apply Keeps.foldl | apply Keeps.foldl_snd | apply Keeps.foldl_fst | (intro _) | split)

theorem execAccZero_keeps (w : StreamId) (f : IFields) (sb : State) :
    ∃ sc, execAccZero w f sb = .next sc ∧ Keeps false sb sc := by
  unfold execAccZero
  try dsimp only
  refine ⟨_, rfl, ?_⟩
  repeat'
    with_reducible (first
      | assumption | exact Keeps.refl _ _ | apply Keeps.ite | apply Keeps.dite | apply accOp_keeps | apply setAcc_keeps
      | apply Keeps.foldl | apply Keeps.foldl_snd | apply Keeps.foldl_fst | (intro _) | split)

theorem execAccRound_keeps (w : StreamId) (f : IFields) (sb : State) :
    ∃ sc, execAccRound w f sb = .next sc ∧ Keeps false sb sc := by
  unfold execAccRound
  try dsimp only
  refine ⟨_, rfl, ?_⟩
  repeat'
    with_reducible (first
      | assumption | exact Keeps.refl _ _ | apply Keeps.ite | apply Keeps.dite | apply accOp_keeps | apply modStream_keeps
      | apply countRounding_keeps | apply Keeps.foldl | apply Keeps.foldl_snd | apply Keeps.foldl_fst | (intro _) | split)

theorem execAccLoad_keeps (w : StreamId) (f : IFields) (sb : State) :
    ∃ sc, execAccLoad w f sb = .next sc ∧ Keeps false sb sc := by
  unfold execAccLoad
  try dsimp only
  refine ⟨_, rfl, ?_⟩
  repeat'
    with_reducible (first
      | assumption | exact Keeps.refl _ _ | apply Keeps.ite | apply Keeps.dite | apply accOp_keeps | apply setAcc_keeps
      | apply Keeps.foldl | apply Keeps.foldl_snd | apply Keeps.foldl_fst | (intro _) | split)

end Sys2Proof.Machine
end

