-- ==== Sys2Proof/Laws/CommandsLink.lean ====
section
/-! SUPPORT. What the commands of Machine/Link.lean keep; each ends in a next state. -/

namespace Sys2Proof.Machine

open Sys2Proof

set_option linter.unusedTactic false
set_option linter.unreachableTactic false

theorem execRoleWrite_keeps (src : Route) (p : PortN) (v : BitVec 8) (sb : State) :
    ∃ sc, execRoleWrite src p v sb = .next sc ∧ Keeps true sb sc := by
  unfold execRoleWrite
  try dsimp only
  refine ⟨_, rfl, ?_⟩
  repeat'
    with_reducible (first
      | assumption | exact Keeps.refl _ _ | apply Keeps.ite | apply Keeps.dite | apply roleWrite_keeps | apply beginOp_keeps
      | (intro _) | split)

theorem execMediumWrite_keeps (src : Route) (p : PortN) (v : BitVec 8) (sb : State) :
    ∃ sc, execMediumWrite src p v sb = .next sc ∧ Keeps false sb sc := by
  unfold execMediumWrite
  try dsimp only
  refine ⟨_, rfl, ?_⟩
  repeat'
    with_reducible (first
      | assumption | exact Keeps.refl _ _ | apply Keeps.ite | apply Keeps.dite | apply mediumWrite_keeps
      | apply beginOp_keeps | (intro _) | split)

theorem execCreditWrite_keeps (src : Route) (p : PortN) (vc : Fin 12) (v : BitVec 16) (sb : State) :
    ∃ sc, execCreditWrite src p vc v sb = .next sc ∧ Keeps false sb sc := by
  unfold execCreditWrite
  try dsimp only
  refine ⟨_, rfl, ?_⟩
  repeat'
    with_reducible (first
      | assumption | exact Keeps.refl _ _ | apply Keeps.ite | apply Keeps.dite | apply creditWrite_keeps
      | apply beginOp_keeps | (intro _) | split)

theorem execTenantShareWrite_keeps (src : Route) (t : TenantN) (v : BitVec 8) (sb : State) :
    ∃ sc, execTenantShareWrite src t v sb = .next sc ∧ Keeps false sb sc := by
  unfold execTenantShareWrite
  try dsimp only
  refine ⟨_, rfl, ?_⟩
  repeat'
    with_reducible (first
      | assumption | exact Keeps.refl _ _ | apply Keeps.ite | apply Keeps.dite | apply tenantShareWrite_keeps
      | apply beginOp_keeps | (intro _) | split)

theorem execCoordinateCommit_keeps (src : Route) (v : BitVec 8) (sb : State) :
    ∃ sc, execCoordinateCommit src v sb = .next sc ∧ Keeps false sb sc := by
  unfold execCoordinateCommit
  try dsimp only
  refine ⟨_, rfl, ?_⟩
  repeat'
    with_reducible (first
      | assumption | exact Keeps.refl _ _ | apply Keeps.ite | apply Keeps.dite | apply coordinateCommit_keeps
      | apply beginOp_keeps | (intro _) | split)

theorem execLosAssert_keeps (p : PortN) (l : LaneN) (sb : State) :
    ∃ sc, execLosAssert p l sb = .next sc ∧ Keeps false sb sc := by
  unfold execLosAssert
  try dsimp only
  refine ⟨_, rfl, ?_⟩
  repeat'
    with_reducible (first
      | assumption | exact Keeps.refl _ _ | apply Keeps.ite | apply Keeps.dite | apply losAssert_keeps | (intro _) | split)

theorem execLosClear_keeps (p : PortN) (l : LaneN) (sb : State) :
    ∃ sc, execLosClear p l sb = .next sc ∧ Keeps false sb sc := by
  unfold execLosClear
  try dsimp only
  refine ⟨_, rfl, ?_⟩
  repeat'
    with_reducible (first
      | assumption | exact Keeps.refl _ _ | apply Keeps.ite | apply Keeps.dite | apply losClear_keeps | (intro _) | split)

theorem execLolAssert_keeps (p : PortN) (l : LaneN) (sb : State) :
    ∃ sc, execLolAssert p l sb = .next sc ∧ Keeps false sb sc := by
  unfold execLolAssert
  try dsimp only
  refine ⟨_, rfl, ?_⟩
  repeat'
    with_reducible (first
      | assumption | exact Keeps.refl _ _ | apply Keeps.ite | apply Keeps.dite | apply lolAssert_keeps | (intro _) | split)

theorem execCdrLock_keeps (p : PortN) (lanes : BitVec 8) (sb : State) :
    ∃ sc, execCdrLock p lanes sb = .next sc ∧ Keeps false sb sc := by
  unfold execCdrLock
  try dsimp only
  refine ⟨_, rfl, ?_⟩
  repeat'
    with_reducible (first
      | assumption | exact Keeps.refl _ _ | apply Keeps.ite | apply Keeps.dite | apply cdrLock_keeps | (intro _) | split)

theorem execLockTimeout_keeps (p : PortN) (sb : State) :
    ∃ sc, execLockTimeout p sb = .next sc ∧ Keeps false sb sc := by
  unfold execLockTimeout
  try dsimp only
  refine ⟨_, rfl, ?_⟩
  repeat'
    with_reducible (first
      | assumption | exact Keeps.refl _ _ | apply Keeps.ite | apply Keeps.dite | apply stateTimeout_keeps | (intro _)
      | split)

theorem execSlipTimeout_keeps (p : PortN) (sb : State) :
    ∃ sc, execSlipTimeout p sb = .next sc ∧ Keeps false sb sc := by
  unfold execSlipTimeout
  try dsimp only
  refine ⟨_, rfl, ?_⟩
  repeat'
    with_reducible (first
      | assumption | exact Keeps.refl _ _ | apply Keeps.ite | apply Keeps.dite | apply toDetect_keeps | apply modPort_keeps
      | (intro _) | split | refine Keeps.upd ?_ rfl)

theorem execSlipWindowDone_keeps (p : PortN) (l : LaneN) (hits : Nat) (sb : State) :
    ∃ sc, execSlipWindowDone p l hits sb = .next sc ∧ Keeps false sb sc := by
  unfold execSlipWindowDone
  try dsimp only
  refine ⟨_, rfl, ?_⟩
  repeat'
    with_reducible (first
      | assumption | exact Keeps.refl _ _ | apply Keeps.ite | apply Keeps.dite | apply slipWindowDone_keeps | (intro _)
      | split)

theorem execBitSlip_keeps (src : Route) (p : PortN) (l : LaneN) (v : BitVec 8) (sb : State) :
    ∃ sc, execBitSlip src p l v sb = .next sc ∧ Keeps false sb sc := by
  unfold execBitSlip
  try dsimp only
  refine ⟨_, rfl, ?_⟩
  repeat'
    with_reducible (first
      | assumption | exact Keeps.refl _ _ | apply Keeps.ite | apply Keeps.dite | apply bitSlip_keeps | apply beginOp_keeps
      | (intro _) | split)

theorem execAlignmentDone_keeps (src : Route) (p : PortN) (v : BitVec 8) (sb : State) :
    ∃ sc, execAlignmentDone src p v sb = .next sc ∧ Keeps false sb sc := by
  unfold execAlignmentDone
  try dsimp only
  refine ⟨_, rfl, ?_⟩
  repeat'
    with_reducible (first
      | assumption | exact Keeps.refl _ _ | apply Keeps.ite | apply Keeps.dite | apply alignmentDone_keeps
      | apply beginOp_keeps | (intro _) | split)

theorem execCodewordAligned_keeps (p : PortN) (lanes : BitVec 8) (sb : State) :
    ∃ sc, execCodewordAligned p lanes sb = .next sc ∧ Keeps false sb sc := by
  unfold execCodewordAligned
  try dsimp only
  refine ⟨_, rfl, ?_⟩
  repeat'
    with_reducible (first
      | assumption | exact Keeps.refl _ _ | apply Keeps.ite | apply Keeps.dite | apply codewordAligned_keeps | (intro _)
      | split)

theorem execFecAlignTimeout_keeps (p : PortN) (sb : State) :
    ∃ sc, execFecAlignTimeout p sb = .next sc ∧ Keeps false sb sc := by
  unfold execFecAlignTimeout
  try dsimp only
  refine ⟨_, rfl, ?_⟩
  repeat'
    with_reducible (first
      | assumption | exact Keeps.refl _ _ | apply Keeps.ite | apply Keeps.dite | apply stateTimeout_keeps | (intro _)
      | split)

theorem execDeskewDone_keeps (p : PortN) (lanes : BitVec 8) (sb : State) :
    ∃ sc, execDeskewDone p lanes sb = .next sc ∧ Keeps false sb sc := by
  unfold execDeskewDone
  try dsimp only
  refine ⟨_, rfl, ?_⟩
  repeat'
    with_reducible (first
      | assumption | exact Keeps.refl _ _ | apply Keeps.ite | apply Keeps.dite | apply deskewDone_keeps | (intro _) | split)

theorem execDeskewTimeout_keeps (p : PortN) (sb : State) :
    ∃ sc, execDeskewTimeout p sb = .next sc ∧ Keeps false sb sc := by
  unfold execDeskewTimeout
  try dsimp only
  refine ⟨_, rfl, ?_⟩
  repeat'
    with_reducible (first
      | assumption | exact Keeps.refl _ _ | apply Keeps.ite | apply Keeps.dite | apply stateTimeout_keeps | (intro _)
      | split)

theorem execTrainingSetReceive_keeps (p : PortN) (x : TrainingSet) (sb : State) :
    ∃ sc, execTrainingSetReceive p x sb = .next sc ∧ Keeps true sb sc := by
  unfold execTrainingSetReceive
  try dsimp only
  refine ⟨_, rfl, ?_⟩
  repeat'
    with_reducible (first
      | assumption | exact Keeps.refl _ _ | apply Keeps.ite | apply Keeps.dite | apply trainingReceive_keeps | (intro _)
      | split)

theorem execExchangeTimeout_keeps (p : PortN) (sb : State) :
    ∃ sc, execExchangeTimeout p sb = .next sc ∧ Keeps false sb sc := by
  unfold execExchangeTimeout
  try dsimp only
  refine ⟨_, rfl, ?_⟩
  repeat'
    with_reducible (first
      | assumption | exact Keeps.refl _ _ | apply Keeps.ite | apply Keeps.dite | apply stateTimeout_keeps | (intro _)
      | split)

theorem execUncorrectableThreshold_keeps (p : PortN) (l : LaneN) (sb : State) :
    ∃ sc, execUncorrectableThreshold p l sb = .next sc ∧ Keeps false sb sc := by
  unfold execUncorrectableThreshold
  try dsimp only
  refine ⟨_, rfl, ?_⟩
  repeat'
    with_reducible (first
      | assumption | exact Keeps.refl _ _ | apply Keeps.ite | apply Keeps.dite | apply uncorrectableThreshold_keeps
      | (intro _) | split)

theorem execRetrainRequest_keeps (src : Route) (p : PortN) (v : BitVec 8) (sb : State) :
    ∃ sc, execRetrainRequest src p v sb = .next sc ∧ Keeps false sb sc := by
  unfold execRetrainRequest
  try dsimp only
  refine ⟨_, rfl, ?_⟩
  repeat'
    with_reducible (first
      | assumption | exact Keeps.refl _ _ | apply Keeps.ite | apply Keeps.dite | apply onlyOne_keeps | apply beginOp_keeps
      | apply toLock_keeps | (intro _) | split)

theorem execElasticFault_keeps (p : PortN) (sb : State) :
    ∃ sc, execElasticFault p sb = .next sc ∧ Keeps false sb sc := by
  unfold execElasticFault
  try dsimp only
  refine ⟨_, rfl, ?_⟩
  repeat'
    with_reducible (first
      | assumption | exact Keeps.refl _ _ | apply Keeps.ite | apply Keeps.dite | apply elasticFault_keeps | (intro _)
      | split)

theorem execSkipSetReceive_keeps (p : PortN) (fill : Nat) (sb : State) :
    ∃ sc, execSkipSetReceive p fill sb = .next sc ∧ Keeps false sb sc := by
  unfold execSkipSetReceive
  try dsimp only
  refine ⟨_, rfl, ?_⟩
  repeat'
    with_reducible (first
      | assumption | exact Keeps.refl _ _ | apply Keeps.ite | apply Keeps.dite | apply skipSet_keeps | (intro _) | split)

theorem execHoldExpiry_keeps (p : PortN) (sb : State) :
    ∃ sc, execHoldExpiry p sb = .next sc ∧ Keeps true sb sc := by
  unfold execHoldExpiry
  try dsimp only
  refine ⟨_, rfl, ?_⟩
  repeat'
    with_reducible (first
      | assumption | exact Keeps.refl _ _ | apply Keeps.ite | apply Keeps.dite | apply holdExpiry_keeps | (intro _) | split)

theorem execCellReceive_keeps (p : PortN) (b : Block) (sb : State) :
    ∃ sc, execCellReceive p b sb = .next sc ∧ Keeps false sb sc := by
  unfold execCellReceive
  try dsimp only
  refine ⟨_, rfl, ?_⟩
  repeat'
    with_reducible (first
      | assumption | exact Keeps.refl _ _ | apply Keeps.ite | apply Keeps.dite | apply cellReceive_keeps | (intro _) | split)

theorem execIdleSlotReceive_keeps (p : PortN) (b : Block) (sb : State) :
    ∃ sc, execIdleSlotReceive p b sb = .next sc ∧ Keeps false sb sc := by
  unfold execIdleSlotReceive
  try dsimp only
  refine ⟨_, rfl, ?_⟩
  repeat'
    with_reducible (first
      | assumption | exact Keeps.refl _ _ | apply Keeps.ite | apply Keeps.dite | apply idleReceive_keeps | (intro _) | split)

theorem execNakReceive_keeps (p : PortN) (ack : BitVec 12) (sb : State) :
    ∃ sc, execNakReceive p ack sb = .next sc ∧ Keeps false sb sc := by
  unfold execNakReceive
  try dsimp only
  refine ⟨_, rfl, ?_⟩
  repeat'
    with_reducible (first
      | assumption | exact Keeps.refl _ _ | apply Keeps.ite | apply Keeps.dite | apply nakTaken_keeps | (intro _) | split)

theorem execAckTimeout_keeps (p : PortN) (sb : State) :
    ∃ sc, execAckTimeout p sb = .next sc ∧ Keeps false sb sc := by
  unfold execAckTimeout
  try dsimp only
  refine ⟨_, rfl, ?_⟩
  repeat'
    with_reducible (first
      | assumption | exact Keeps.refl _ _ | apply Keeps.ite | apply Keeps.dite | apply replayFrom_keeps | (intro _) | split)

theorem execLaserFault_keeps (p : PortN) (l : LaneN) (sb : State) :
    ∃ sc, execLaserFault p l sb = .next sc ∧ Keeps false sb sc := by
  unfold execLaserFault
  try dsimp only
  refine ⟨_, rfl, ?_⟩
  repeat'
    with_reducible (first
      | assumption | exact Keeps.refl _ _ | apply Keeps.ite | apply Keeps.dite | apply laserFault_keeps | (intro _) | split)

end Sys2Proof.Machine
end

