-- ==== Sys2Proof/Laws/CommandsMailbox.lean ====
section
/-! SUPPORT. What the commands of Machine/Mailbox.lean keep; each ends in a next state. -/

namespace Sys2Proof.Machine

open Sys2Proof

set_option linter.unusedTactic false
set_option linter.unreachableTactic false

theorem execMailboxDoorbell_keeps (v : BitVec 32) (sb : State) :
    ∃ sc, execMailboxDoorbell v sb = .next sc ∧ Keeps false sb sc := by
  unfold execMailboxDoorbell
  try dsimp only
  refine ⟨_, rfl, ?_⟩
  repeat'
    with_reducible (first
      | assumption | exact Keeps.refl _ _ | apply Keeps.ite | apply Keeps.dite | apply barWrite_keeps
      | apply mailboxDoorbell_keeps | (intro _) | split)

theorem execMailboxRead_keeps (sb : State) :
    ∃ sc, execMailboxRead sb = .next sc ∧ Keeps true sb sc := by
  unfold execMailboxRead
  try dsimp only
  refine ⟨_, rfl, ?_⟩
  repeat'
    with_reducible (first
      | assumption | exact Keeps.refl _ _ | apply Keeps.ite | apply Keeps.dite | apply serveMailbox_keeps | (intro _)
      | split)

theorem execMailboxSegmentWrite_keeps (sb : State) :
    ∃ sc, execMailboxSegmentWrite sb = .next sc ∧ Keeps true sb sc := by
  unfold execMailboxSegmentWrite
  try dsimp only
  refine ⟨_, rfl, ?_⟩
  repeat'
    with_reducible (first
      | assumption | exact Keeps.refl _ _ | apply Keeps.ite | apply Keeps.dite | apply serveMailbox_keeps | (intro _)
      | split)

theorem execVendorDefinedRequest_keeps (session : Nat) (req : MbxRequest) (sb : State) :
    ∃ sc, execVendorDefinedRequest session req sb = .next sc ∧ Keeps true sb sc := by
  unfold execVendorDefinedRequest
  try dsimp only
  refine ⟨_, rfl, ?_⟩
  repeat'
    with_reducible (first
      | assumption | exact Keeps.refl _ _ | apply Keeps.ite | apply Keeps.dite | apply withIdentity_keeps
      | apply securedRequest_keeps | (intro _) | split)

end Sys2Proof.Machine
end

