-- ==== Sys2Proof/Laws/CommandsMuster.lean ====
section
/-! SUPPORT. What the commands of Machine/Muster.lean keep; each ends in a next state. -/

namespace Sys2Proof.Machine

open Sys2Proof

set_option linter.unusedTactic false
set_option linter.unreachableTactic false

theorem execMusterCensus_keeps (sb : State) :
    ∃ sc, execMusterCensus sb = .next sc ∧ Keeps false sb sc := by
  unfold execMusterCensus
  try dsimp only
  refine ⟨_, rfl, ?_⟩
  repeat'
    with_reducible (first
      | assumption | exact Keeps.refl _ _ | apply Keeps.ite | apply Keeps.dite | apply musterCensus_keeps | (intro _)
      | split)

theorem execViewOriginate_keeps (sb : State) :
    ∃ sc, execViewOriginate sb = .next sc ∧ Keeps false sb sc := by
  unfold execViewOriginate
  try dsimp only
  refine ⟨_, rfl, ?_⟩
  repeat'
    with_reducible (first
      | assumption | exact Keeps.refl _ _ | apply Keeps.ite | apply Keeps.dite | apply viewOriginate_keeps | (intro _)
      | split)

theorem execView_keeps (p : PortN) (v : ViewCell) (sb : State) :
    ∃ sc, execView p v sb = .next sc ∧ Keeps false sb sc := by
  unfold execView
  try dsimp only
  refine ⟨_, rfl, ?_⟩
  repeat'
    with_reducible (first
      | assumption | exact Keeps.refl _ _ | apply Keeps.ite | apply Keeps.dite | apply viewReceive_keeps | (intro _) | split)

theorem execFset_keeps (p : PortN) (e : BitVec 32) (b : Bytes) (sb : State) :
    ∃ sc, execFset p e b sb = .next sc ∧ Keeps true sb sc := by
  unfold execFset
  try dsimp only
  refine ⟨_, rfl, ?_⟩
  repeat'
    with_reducible (first
      | assumption | exact Keeps.refl _ _ | apply Keeps.ite | apply Keeps.dite | apply fsetReceive_keeps | (intro _) | split)

theorem execLoss_keeps (p : PortN) (e : BitVec 32) (l : List (BitVec 16)) (sb : State) :
    ∃ sc, execLoss p e l sb = .next sc ∧ Keeps true sb sc := by
  unfold execLoss
  try dsimp only
  refine ⟨_, rfl, ?_⟩
  repeat'
    with_reducible (first
      | assumption | exact Keeps.refl _ _ | apply Keeps.ite | apply Keeps.dite | apply lossReceive_keeps | (intro _) | split)

theorem execMusterWindowEnd_keeps (sb : State) :
    ∃ sc, execMusterWindowEnd sb = .next sc ∧ Keeps true sb sc := by
  unfold execMusterWindowEnd
  try dsimp only
  refine ⟨_, rfl, ?_⟩
  repeat'
    with_reducible (first
      | assumption | exact Keeps.refl _ _ | apply Keeps.ite | apply Keeps.dite | apply musterWindowEnd_keeps | (intro _)
      | split)

theorem execMusterRecoveryStep_keeps (sb : State) :
    ∃ sc, execMusterRecoveryStep sb = .next sc ∧ Keeps true sb sc := by
  unfold execMusterRecoveryStep
  try dsimp only
  refine ⟨_, rfl, ?_⟩
  repeat'
    with_reducible (first
      | assumption | exact Keeps.refl _ _ | apply Keeps.ite | apply Keeps.dite | apply musterStep_keeps | (intro _) | split)

theorem execReadmission_keeps (sb : State) :
    ∃ sc, execReadmission sb = .next sc ∧ Keeps false sb sc := by
  unfold execReadmission
  try dsimp only
  refine ⟨_, rfl, ?_⟩
  repeat'
    with_reducible (first
      | assumption | exact Keeps.refl _ _ | apply Keeps.ite | apply Keeps.dite | apply readmission_keeps | (intro _) | split)

end Sys2Proof.Machine
end

