-- ==== Sys2Proof/Laws/KeepPower.lean ====
section
/-! SUPPORT. What the operations of Machine/Power.lean keep. -/

namespace Sys2Proof.Machine

open Sys2Proof

set_option linter.unusedTactic false
set_option linter.unreachableTactic false

theorem sensorFails_keeps {wr : Bool} {sa sb : State} (i : Nat) (hk : Keeps wr sa sb) :
    Keeps wr sa (sensorFails i sb) := by
  unfold sensorFails
  try dsimp only
  repeat'
    with_reducible (first
      | assumption | apply Keeps.ite | apply Keeps.dite | apply modPwr_keeps | apply log_keeps | apply bump_keeps | (intro _)
      | split | refine Keeps.upd ?_ rfl)

theorem trip_keeps {sa sb : State} (sensor : Nat) (reading : Nat) (hk : Keeps true sa sb) :
    Keeps true sa (trip sensor reading sb) := by
  unfold trip
  try dsimp only
  repeat'
    with_reducible (first
      | assumption | apply Keeps.ite | apply Keeps.dite | apply modPwr_keeps | apply forPorts_keeps | apply toDisabled_keeps
      | apply abortCtx_keeps | apply raiseCause_keeps | apply log_keeps | apply bump_keeps | apply Keeps.foldl
      | apply Keeps.foldl_snd | apply Keeps.foldl_fst | (intro _) | split | refine Keeps.upd ?_ rfl)

theorem engineSample_keeps {wr : Bool} {sa sb : State} (p : PortN) (reading : Int) (hk : Keeps wr sa sb) :
    Keeps wr sa (engineSample p reading sb) := by
  unfold engineSample
  try dsimp only
  repeat'
    with_reducible (first
      | assumption | apply Keeps.ite | apply Keeps.dite | apply modPwr_keeps | apply log_keeps | apply bump_keeps
      | apply lasersOff_keeps | apply lookAlert_keeps | apply modPort_keeps | (intro _) | split | refine Keeps.upd ?_ rfl)

theorem dieSample_keeps {sa sb : State} (i : Nat) (reading : Int) (hk : Keeps true sa sb) :
    Keeps true sa (dieSample i reading sb) := by
  unfold dieSample
  try dsimp only
  repeat'
    with_reducible (first
      | assumption | apply Keeps.ite | apply Keeps.dite | apply trip_keeps | apply modPwr_keeps | (intro _) | split
      | refine Keeps.upd ?_ rfl)

theorem temperatureSample_keeps {sa sb : State} (i : Nat) (reading : Option Int) (hk : Keeps true sa sb) :
    Keeps true sa (temperatureSample i reading sb) := by
  unfold temperatureSample
  try dsimp only
  repeat'
    with_reducible (first
      | assumption | apply Keeps.ite | apply Keeps.dite | apply sensorFails_keeps | apply modPwr_keeps
      | apply engineSample_keeps | apply dieSample_keeps | (intro _) | split | refine Keeps.upd ?_ rfl)

theorem railLow_keeps {sa sb : State} (m : Nat) (v : Nat) (hk : Keeps true sa sb) :
    Keeps true sa (railLow m v sb) := by
  unfold railLow
  try dsimp only
  repeat'
    with_reducible (first
      | assumption | apply Keeps.ite | apply Keeps.dite | apply modPwr_keeps | apply enterCold_keeps | apply log_keeps
      | apply bump_keeps | apply forPorts_keeps | apply lasersOff_keeps | apply flushLog_keeps | (intro _) | split
      | refine Keeps.upd ?_ rfl)

theorem voltageSample_keeps {sa sb : State} (m : Nat) (v : Nat) (hk : Keeps true sa sb) :
    Keeps true sa (voltageSample m v sb) := by
  unfold voltageSample
  try dsimp only
  repeat'
    with_reducible (first
      | assumption | apply Keeps.ite | apply Keeps.dite | apply modPwr_keeps | apply log_keeps | apply bump_keeps
      | apply railLow_keeps | apply lookAlert_keeps | (intro _) | split | refine Keeps.upd ?_ rfl)

theorem engineRestart_keeps {wr : Bool} {sa sb : State} (hk : Keeps wr sa sb) :
    Keeps wr sa (engineRestart sb) := by
  unfold engineRestart
  try dsimp only
  repeat'
    with_reducible (first
      | assumption | apply Keeps.ite | apply Keeps.dite | apply modPwr_keeps | apply forPorts_keeps | apply modPort_keeps
      | (intro _) | split | refine Keeps.upd ?_ rfl)

theorem resetRelease_keeps {sa sb : State} (hk : Keeps true sa sb) :
    Keeps true sa (resetRelease sb) := by
  unfold resetRelease
  try dsimp only
  repeat'
    with_reducible (first
      | assumption | apply Keeps.ite | apply Keeps.dite | apply enterCold_keeps | apply modPwr_keeps | apply finishCold_keeps
      | apply log_keeps | apply Keeps.foldl | apply Keeps.foldl_snd | apply Keeps.foldl_fst | (intro _) | split
      | refine Keeps.upd ?_ rfl)

theorem supplyRestore_keeps {sa sb : State} (hk : Keeps true sa sb) :
    Keeps true sa (supplyRestore sb) := by
  unfold supplyRestore
  try dsimp only
  repeat'
    with_reducible (first
      | assumption | apply Keeps.ite | apply Keeps.dite | apply finishCold_keeps | apply modPwr_keeps | (intro _) | split
      | refine Keeps.upd ?_ rfl)

theorem powerLoss_keeps {sa sb : State} (hk : Keeps true sa sb) :
    Keeps true sa (powerLoss sb) := by
  unfold powerLoss
  try dsimp only
  repeat'
    with_reducible (first
      | assumption | apply Keeps.ite | apply Keeps.dite | apply enterCold_keeps | apply modPwr_keeps | (intro _) | split
      | refine Keeps.upd ?_ rfl)

theorem pwrWarnAssert_keeps {wr : Bool} {sa sb : State} (hk : Keeps wr sa sb) :
    Keeps wr sa (pwrWarnAssert sb) := by
  unfold pwrWarnAssert
  try dsimp only
  repeat'
    with_reducible (first
      | assumption | apply Keeps.ite | apply Keeps.dite | apply log_keeps | apply abandonFirmware_keeps
      | apply flushLog_keeps | apply modPwr_keeps | (intro _) | split | refine Keeps.upd ?_ rfl)

theorem pwrWarnRelease_keeps {wr : Bool} {sa sb : State} (hk : Keeps wr sa sb) :
    Keeps wr sa (pwrWarnRelease sb) := by
  unfold pwrWarnRelease
  try dsimp only
  repeat'
    with_reducible (first
      | assumption | apply Keeps.ite | apply Keeps.dite | apply log_keeps | apply modPwr_keeps | (intro _) | split
      | refine Keeps.upd ?_ rfl)

theorem refclkLoss_keeps {sa sb : State} (hk : Keeps true sa sb) :
    Keeps true sa (refclkLoss sb) := by
  unfold refclkLoss
  try dsimp only
  repeat'
    with_reducible (first
      | assumption | apply Keeps.ite | apply Keeps.dite | apply log_keeps | apply bump_keeps | apply modPwr_keeps
      | apply requestReset_keeps | (intro _) | split | refine Keeps.upd ?_ rfl)

theorem refclkRestore_keeps {sa sb : State} (hk : Keeps true sa sb) :
    Keeps true sa (refclkRestore sb) := by
  unfold refclkRestore
  try dsimp only
  repeat'
    with_reducible (first
      | assumption | apply Keeps.ite | apply Keeps.dite | apply log_keeps | apply modPwr_keeps | apply leaveWarm_keeps
      | apply warmPortsDown_keeps | apply wakePorts_keeps | (intro _) | split | refine Keeps.upd ?_ rfl)

theorem auxclkLoss_keeps {wr : Bool} {sa sb : State} (hk : Keeps wr sa sb) :
    Keeps wr sa (auxclkLoss sb) := by
  unfold auxclkLoss
  try dsimp only
  repeat'
    with_reducible (first
      | assumption | apply Keeps.ite | apply Keeps.dite | apply modPwr_keeps | apply stopManagement_keeps
      | apply modResets_keeps | (intro _) | split | refine Keeps.upd ?_ rfl)

theorem throttleEvaluation_keeps {wr : Bool} {sa sb : State} (power : Option Nat) (hk : Keeps wr sa sb) :
    Keeps wr sa (throttleEvaluation power sb) := by
  unfold throttleEvaluation
  try dsimp only
  repeat'
    with_reducible (first
      | assumption | apply Keeps.ite | apply Keeps.dite | apply advanceTo_keeps | apply bump_keeps | apply modPwr_keeps
      | apply log_keeps | apply lookAlert_keeps | (intro _) | split | refine Keeps.upd ?_ rfl)

theorem jtagSelect_keeps {wr : Bool} {sa sb : State} (i : Jtag) (data : Bytes) (hk : Keeps wr sa sb) :
    Keeps wr sa (jtagSelect i data sb) := by
  unfold jtagSelect
  try dsimp only
  repeat'
    with_reducible (first
      | assumption | apply Keeps.ite | apply Keeps.dite | apply emit_keeps | apply modPwr_keeps | (intro _) | split
      | refine Keeps.upd ?_ rfl)

theorem capture_keeps {wr : Bool} {sa sb : State} (i : Jtag) (hk : Keeps wr sa sb) :
    Keeps wr sa (capture i sb) := by
  unfold capture
  try dsimp only
  repeat'
    with_reducible (first
      | assumption | apply Keeps.ite | apply Keeps.dite | apply drawn_keeps | apply jtagSelect_keeps | (intro _) | split)

end Sys2Proof.Machine
end

