-- ==== Sys2Proof/Laws/CommandsPower.lean ====
section
/-! SUPPORT. What the commands of Machine/Power.lean keep; each ends in a next state. -/

namespace Sys2Proof.Machine

open Sys2Proof

set_option linter.unusedTactic false
set_option linter.unreachableTactic false

theorem execTemperatureSample_keeps (sensor : Fin 48) (reading : Option Int) (sb : State) :
    ∃ sc, execTemperatureSample sensor reading sb = .next sc ∧ Keeps true sb sc := by
  unfold execTemperatureSample
  try dsimp only
  refine ⟨_, rfl, ?_⟩
  repeat'
    with_reducible (first
      | assumption | exact Keeps.refl _ _ | apply Keeps.ite | apply Keeps.dite | apply temperatureSample_keeps | (intro _)
      | split)

theorem execVoltageSample_keeps (monitor : Fin 32) (reading : Nat) (sb : State) :
    ∃ sc, execVoltageSample monitor reading sb = .next sc ∧ Keeps true sb sc := by
  unfold execVoltageSample
  try dsimp only
  refine ⟨_, rfl, ?_⟩
  repeat'
    with_reducible (first
      | assumption | exact Keeps.refl _ _ | apply Keeps.ite | apply Keeps.dite | apply voltageSample_keeps | (intro _)
      | split)

theorem execOpticalEngineRestart_keeps (sb : State) :
    ∃ sc, execOpticalEngineRestart sb = .next sc ∧ Keeps false sb sc := by
  unfold execOpticalEngineRestart
  try dsimp only
  refine ⟨_, rfl, ?_⟩
  repeat'
    with_reducible (first
      | assumption | exact Keeps.refl _ _ | apply Keeps.ite | apply Keeps.dite | apply engineRestart_keeps | (intro _)
      | split)

theorem execThrottleEvaluation_keeps (power : Option Nat) (sb : State) :
    ∃ sc, execThrottleEvaluation power sb = .next sc ∧ Keeps false sb sc := by
  unfold execThrottleEvaluation
  try dsimp only
  refine ⟨_, rfl, ?_⟩
  repeat'
    with_reducible (first
      | assumption | exact Keeps.refl _ _ | apply Keeps.ite | apply Keeps.dite | apply throttleEvaluation_keeps | (intro _)
      | split)

theorem execRefclkLoss_keeps (sb : State) :
    ∃ sc, execRefclkLoss sb = .next sc ∧ Keeps true sb sc := by
  unfold execRefclkLoss
  try dsimp only
  refine ⟨_, rfl, ?_⟩
  repeat'
    with_reducible (first
      | assumption | exact Keeps.refl _ _ | apply Keeps.ite | apply Keeps.dite | apply refclkLoss_keeps | (intro _) | split)

theorem execRefclkRestore_keeps (sb : State) :
    ∃ sc, execRefclkRestore sb = .next sc ∧ Keeps true sb sc := by
  unfold execRefclkRestore
  try dsimp only
  refine ⟨_, rfl, ?_⟩
  repeat'
    with_reducible (first
      | assumption | exact Keeps.refl _ _ | apply Keeps.ite | apply Keeps.dite | apply refclkRestore_keeps | (intro _)
      | split)

theorem execAuxclkLoss_keeps (sb : State) :
    ∃ sc, execAuxclkLoss sb = .next sc ∧ Keeps false sb sc := by
  unfold execAuxclkLoss
  try dsimp only
  refine ⟨_, rfl, ?_⟩
  repeat'
    with_reducible (first
      | assumption | exact Keeps.refl _ _ | apply Keeps.ite | apply Keeps.dite | apply auxclkLoss_keeps | (intro _) | split)

theorem execPwrWarnAssert_keeps (sb : State) :
    ∃ sc, execPwrWarnAssert sb = .next sc ∧ Keeps false sb sc := by
  unfold execPwrWarnAssert
  try dsimp only
  refine ⟨_, rfl, ?_⟩
  repeat'
    with_reducible (first
      | assumption | exact Keeps.refl _ _ | apply Keeps.ite | apply Keeps.dite | apply pwrWarnAssert_keeps | (intro _)
      | split)

theorem execPwrWarnRelease_keeps (sb : State) :
    ∃ sc, execPwrWarnRelease sb = .next sc ∧ Keeps false sb sc := by
  unfold execPwrWarnRelease
  try dsimp only
  refine ⟨_, rfl, ?_⟩
  repeat'
    with_reducible (first
      | assumption | exact Keeps.refl _ _ | apply Keeps.ite | apply Keeps.dite | apply pwrWarnRelease_keeps | (intro _)
      | split)

theorem execPowerLoss_keeps (sb : State) :
    ∃ sc, execPowerLoss sb = .next sc ∧ Keeps true sb sc := by
  unfold execPowerLoss
  try dsimp only
  refine ⟨_, rfl, ?_⟩
  repeat'
    with_reducible (first
      | assumption | exact Keeps.refl _ _ | apply Keeps.ite | apply Keeps.dite | apply powerLoss_keeps | (intro _) | split)

theorem execResetRelease_keeps (sb : State) :
    ∃ sc, execResetRelease sb = .next sc ∧ Keeps true sb sc := by
  unfold execResetRelease
  try dsimp only
  refine ⟨_, rfl, ?_⟩
  repeat'
    with_reducible (first
      | assumption | exact Keeps.refl _ _ | apply Keeps.ite | apply Keeps.dite | apply resetRelease_keeps | (intro _)
      | split)

theorem execSupplyRestore_keeps (sb : State) :
    ∃ sc, execSupplyRestore sb = .next sc ∧ Keeps true sb sc := by
  unfold execSupplyRestore
  try dsimp only
  refine ⟨_, rfl, ?_⟩
  repeat'
    with_reducible (first
      | assumption | exact Keeps.refl _ _ | apply Keeps.ite | apply Keeps.dite | apply supplyRestore_keeps | (intro _)
      | split)

theorem execJtagBypass_keeps (sb : State) :
    ∃ sc, execJtagBypass sb = .next sc ∧ Keeps false sb sc := by
  unfold execJtagBypass
  try dsimp only
  refine ⟨_, rfl, ?_⟩
  repeat'
    with_reducible (first
      | assumption | exact Keeps.refl _ _ | apply Keeps.ite | apply Keeps.dite | apply jtagSelect_keeps | (intro _) | split)

theorem execJtagIdcode_keeps (sb : State) :
    ∃ sc, execJtagIdcode sb = .next sc ∧ Keeps false sb sc := by
  unfold execJtagIdcode
  try dsimp only
  refine ⟨_, rfl, ?_⟩
  repeat'
    with_reducible (first
      | assumption | exact Keeps.refl _ _ | apply Keeps.ite | apply Keeps.dite | apply jtagSelect_keeps | (intro _) | split)

theorem execJtagSamplePreload_keeps (sb : State) :
    ∃ sc, execJtagSamplePreload sb = .next sc ∧ Keeps false sb sc := by
  unfold execJtagSamplePreload
  try dsimp only
  refine ⟨_, rfl, ?_⟩
  repeat'
    with_reducible (first
      | assumption | exact Keeps.refl _ _ | apply Keeps.ite | apply Keeps.dite | apply capture_keeps | (intro _) | split)

theorem execJtagExtest_keeps (pins : List Bool) (sb : State) :
    ∃ sc, execJtagExtest pins sb = .next sc ∧ Keeps false sb sc := by
  unfold execJtagExtest
  try dsimp only
  refine ⟨_, rfl, ?_⟩
  repeat'
    with_reducible (first
      | assumption | exact Keeps.refl _ _ | apply Keeps.ite | apply Keeps.dite | apply capture_keeps | apply modPwr_keeps
      | (intro _) | split | refine Keeps.upd ?_ rfl)

end Sys2Proof.Machine
end

