-- ==== Sys2Proof/Laws/CommandsResets.lean ====
section
/-! SUPPORT. What the commands of Machine/Resets.lean keep; each ends in a next state. -/

namespace Sys2Proof.Machine

open Sys2Proof

set_option linter.unusedTactic false
set_option linter.unreachableTactic false

theorem execContextAbortDone_keeps (core : CoreN) (slot : SlotN) (sb : State) :
    ∃ sc, execContextAbortDone core slot sb = .next sc ∧ Keeps true sb sc := by
  unfold execContextAbortDone
  try dsimp only
  refine ⟨_, rfl, ?_⟩
  repeat'
    with_reducible (first
      | assumption | exact Keeps.refl _ _ | apply Keeps.ite | apply Keeps.dite | apply settleResets_keeps
      | apply abortDone_keeps | (intro _) | split)

theorem execLedgerFaultLimit_keeps (sb : State) :
    ∃ sc, execLedgerFaultLimit sb = .next sc ∧ Keeps true sb sc := by
  unfold execLedgerFaultLimit
  try dsimp only
  refine ⟨_, rfl, ?_⟩
  repeat'
    with_reducible (first
      | assumption | exact Keeps.refl _ _ | apply Keeps.ite | apply Keeps.dite | apply ledgerFaultLimit_keeps | (intro _)
      | split)

theorem execPortReset_keeps (src : Route) (v : BitVec 32) (sb : State) :
    ∃ sc, execPortReset src v sb = .next sc ∧ Keeps true sb sc := by
  unfold execPortReset
  try dsimp only
  refine ⟨_, rfl, ?_⟩
  repeat'
    with_reducible (first
      | assumption | exact Keeps.refl _ _ | apply Keeps.ite | apply Keeps.dite | apply resetWrite_keeps | (intro _) | split)

theorem execEngineReset_keeps (src : Route) (v : BitVec 32) (sb : State) :
    ∃ sc, execEngineReset src v sb = .next sc ∧ Keeps true sb sc := by
  unfold execEngineReset
  try dsimp only
  refine ⟨_, rfl, ?_⟩
  repeat'
    with_reducible (first
      | assumption | exact Keeps.refl _ _ | apply Keeps.ite | apply Keeps.dite | apply resetWrite_keeps | (intro _) | split)

theorem execCoreReset_keeps (src : Route) (v : BitVec 32) (sb : State) :
    ∃ sc, execCoreReset src v sb = .next sc ∧ Keeps true sb sc := by
  unfold execCoreReset
  try dsimp only
  refine ⟨_, rfl, ?_⟩
  repeat'
    with_reducible (first
      | assumption | exact Keeps.refl _ _ | apply Keeps.ite | apply Keeps.dite | apply resetWrite_keeps | (intro _) | split)

theorem execClusterReset_keeps (src : Route) (v : BitVec 32) (sb : State) :
    ∃ sc, execClusterReset src v sb = .next sc ∧ Keeps true sb sc := by
  unfold execClusterReset
  try dsimp only
  refine ⟨_, rfl, ?_⟩
  repeat'
    with_reducible (first
      | assumption | exact Keeps.refl _ _ | apply Keeps.ite | apply Keeps.dite | apply resetWrite_keeps | (intro _) | split)

theorem execTenantAbort_keeps (src : Route) (v : BitVec 32) (sb : State) :
    ∃ sc, execTenantAbort src v sb = .next sc ∧ Keeps true sb sc := by
  unfold execTenantAbort
  try dsimp only
  refine ⟨_, rfl, ?_⟩
  repeat'
    with_reducible (first
      | assumption | exact Keeps.refl _ _ | apply Keeps.ite | apply Keeps.dite | apply resetWrite_keeps | (intro _) | split)

theorem execCrossbarReset_keeps (src : Route) (v : BitVec 32) (sb : State) :
    ∃ sc, execCrossbarReset src v sb = .next sc ∧ Keeps true sb sc := by
  unfold execCrossbarReset
  try dsimp only
  refine ⟨_, rfl, ?_⟩
  repeat'
    with_reducible (first
      | assumption | exact Keeps.refl _ _ | apply Keeps.ite | apply Keeps.dite | apply resetWrite_keeps | (intro _) | split)

theorem execManagementReset_keeps (src : Route) (v : BitVec 32) (sb : State) :
    ∃ sc, execManagementReset src v sb = .next sc ∧ Keeps true sb sc := by
  unfold execManagementReset
  try dsimp only
  refine ⟨_, rfl, ?_⟩
  repeat'
    with_reducible (first
      | assumption | exact Keeps.refl _ _ | apply Keeps.ite | apply Keeps.dite | apply resetWrite_keeps | (intro _) | split)

theorem execWatchdogExpiry_keeps (sb : State) :
    ∃ sc, execWatchdogExpiry sb = .next sc ∧ Keeps true sb sc := by
  unfold execWatchdogExpiry
  try dsimp only
  refine ⟨_, rfl, ?_⟩
  repeat'
    with_reducible (first
      | assumption | exact Keeps.refl _ _ | apply Keeps.ite | apply Keeps.dite | apply requestReset_keeps | (intro _)
      | split)

theorem execWarmDeviceReset_keeps (src : Route) (v : BitVec 32) (sb : State) :
    ∃ sc, execWarmDeviceReset src v sb = .next sc ∧ Keeps true sb sc := by
  unfold execWarmDeviceReset
  try dsimp only
  refine ⟨_, rfl, ?_⟩
  repeat'
    with_reducible (first
      | assumption | exact Keeps.refl _ _ | apply Keeps.ite | apply Keeps.dite | apply resetWrite_keeps | (intro _) | split)

theorem execWarmResetPortsDown_keeps (sb : State) :
    ∃ sc, execWarmResetPortsDown sb = .next sc ∧ Keeps true sb sc := by
  unfold execWarmResetPortsDown
  try dsimp only
  refine ⟨_, rfl, ?_⟩
  repeat'
    with_reducible (first
      | assumption | exact Keeps.refl _ _ | apply Keeps.ite | apply Keeps.dite | apply warmPortsDown_keeps | (intro _)
      | split)

theorem execWarmResetComplete_keeps (failed : List (Fin 128)) (sb : State) :
    ∃ sc, execWarmResetComplete failed sb = .next sc ∧ Keeps true sb sc := by
  unfold execWarmResetComplete
  try dsimp only
  refine ⟨_, rfl, ?_⟩
  repeat'
    with_reducible (first
      | assumption | exact Keeps.refl _ _ | apply Keeps.ite | apply Keeps.dite | apply warmComplete_keeps | (intro _)
      | split)

theorem execColdReset_keeps (src : Route) (v : BitVec 32) (sb : State) :
    ∃ sc, execColdReset src v sb = .next sc ∧ Keeps true sb sc := by
  unfold execColdReset
  try dsimp only
  refine ⟨_, rfl, ?_⟩
  repeat'
    with_reducible (first
      | assumption | exact Keeps.refl _ _ | apply Keeps.ite | apply Keeps.dite | apply resetWrite_keeps | (intro _) | split)

end Sys2Proof.Machine
end

