-- ==== Sys2Proof/Laws/CommandsRoutes.lean ====
section
/-! SUPPORT. What the commands of Machine/Routes.lean keep; each ends in a next state. -/

namespace Sys2Proof.Machine

open Sys2Proof

set_option linter.unusedTactic false
set_option linter.unreachableTactic false

theorem execRouteArmWrite_keeps (src : Route) (v : BitVec 64) (sb : State) :
    ∃ sc, execRouteArmWrite src v sb = .next sc ∧ Keeps false sb sc := by
  unfold execRouteArmWrite
  try dsimp only
  refine ⟨_, rfl, ?_⟩
  repeat'
    with_reducible (first
      | assumption | exact Keeps.refl _ _ | apply Keeps.ite | apply Keeps.dite | apply routeArmWrite_keeps | (intro _)
      | split)

theorem execRouteBankSwitch_keeps (sb : State) :
    ∃ sc, execRouteBankSwitch sb = .next sc ∧ Keeps false sb sc := by
  unfold execRouteBankSwitch
  try dsimp only
  refine ⟨_, rfl, ?_⟩
  repeat'
    with_reducible (first
      | assumption | exact Keeps.refl _ _ | apply Keeps.ite | apply Keeps.dite | apply routeBankSwitch_keeps | (intro _)
      | split)

theorem execEpochNoticeRepeat_keeps (p : PortN) (sb : State) :
    ∃ sc, execEpochNoticeRepeat p sb = .next sc ∧ Keeps false sb sc := by
  unfold execEpochNoticeRepeat
  try dsimp only
  refine ⟨_, rfl, ?_⟩
  repeat'
    with_reducible (first
      | assumption | exact Keeps.refl _ _ | apply Keeps.ite | apply Keeps.dite | apply sendNotice_keeps | (intro _) | split)

theorem execRouteBankDrainEnd_keeps (sb : State) :
    ∃ sc, execRouteBankDrainEnd sb = .next sc ∧ Keeps false sb sc := by
  unfold execRouteBankDrainEnd
  try dsimp only
  refine ⟨_, rfl, ?_⟩
  repeat'
    with_reducible (first
      | assumption | exact Keeps.refl _ _ | apply Keeps.ite | apply Keeps.dite | apply routeBankDrainEnd_keeps | (intro _)
      | split)

theorem execRouteBankCopy_keeps (src : Route) (v : BitVec 8) (sb : State) :
    ∃ sc, execRouteBankCopy src v sb = .next sc ∧ Keeps false sb sc := by
  unfold execRouteBankCopy
  try dsimp only
  refine ⟨_, rfl, ?_⟩
  repeat'
    with_reducible (first
      | assumption | exact Keeps.refl _ _ | apply Keeps.ite | apply Keeps.dite | apply routeBankCopy_keeps | (intro _)
      | split)

theorem execRtdRouteEntries_keeps (p : PortN) (c : Cell) (sb : State) :
    ∃ sc, execRtdRouteEntries p c sb = .next sc ∧ Keeps false sb sc := by
  unfold execRtdRouteEntries
  try dsimp only
  refine ⟨_, rfl, ?_⟩
  repeat'
    with_reducible (first
      | assumption | exact Keeps.refl _ _ | apply Keeps.ite | apply Keeps.dite | apply rtdEntries_keeps | (intro _) | split)

theorem execEpochNoticeReceive_keeps (c : Cell) (sb : State) :
    ∃ sc, execEpochNoticeReceive c sb = .next sc ∧ Keeps false sb sc := by
  unfold execEpochNoticeReceive
  try dsimp only
  refine ⟨_, rfl, ?_⟩
  repeat'
    with_reducible (first
      | assumption | exact Keeps.refl _ _ | apply Keeps.ite | apply Keeps.dite | apply progress_keeps | (intro _) | split
      | refine Keeps.upd ?_ rfl)

theorem execTimSend_keeps (p : PortN) (sb : State) :
    ∃ sc, execTimSend p sb = .next sc ∧ Keeps false sb sc := by
  unfold execTimSend
  try dsimp only
  refine ⟨_, rfl, ?_⟩
  repeat'
    with_reducible (first
      | assumption | exact Keeps.refl _ _ | apply Keeps.ite | apply Keeps.dite | apply timSend_keeps | (intro _) | split)

theorem execTimReceive_keeps (p : PortN) (c : Cell) (sb : State) :
    ∃ sc, execTimReceive p c sb = .next sc ∧ Keeps false sb sc := by
  unfold execTimReceive
  try dsimp only
  refine ⟨_, rfl, ?_⟩
  repeat'
    with_reducible (first
      | assumption | exact Keeps.refl _ _ | apply Keeps.ite | apply Keeps.dite | apply timReceive_keeps | (intro _) | split)

end Sys2Proof.Machine
end

