-- ==== Sys2Proof/Laws/CommandsScrub.lean ====
section
/-! SUPPORT. What the commands of Machine/Scrub.lean keep; each ends in a next state. -/

namespace Sys2Proof.Machine

open Sys2Proof

set_option linter.unusedTactic false
set_option linter.unreachableTactic false

theorem execStallScrub_keeps (l : List SramFinding) (sb : State) :
    ∃ sc, execStallScrub l sb = .next sc ∧ Keeps true sb sc := by
  unfold execStallScrub
  try dsimp only
  refine ⟨_, rfl, ?_⟩
  repeat'
    with_reducible (first
      | assumption | exact Keeps.refl _ _ | apply Keeps.ite | apply Keeps.dite | apply stallScrub_keeps | (intro _) | split)

theorem execStructureScrub_keeps (l : List SramFinding) (sb : State) :
    ∃ sc, execStructureScrub l sb = .next sc ∧ Keeps true sb sc := by
  unfold execStructureScrub
  try dsimp only
  refine ⟨_, rfl, ?_⟩
  repeat'
    with_reducible (first
      | assumption | exact Keeps.refl _ _ | apply Keeps.ite | apply Keeps.dite | apply structureScrub_keeps | (intro _)
      | split)

theorem execIdlePortScrub_keeps (l : List SramFinding) (sb : State) :
    ∃ sc, execIdlePortScrub l sb = .next sc ∧ Keeps true sb sc := by
  unfold execIdlePortScrub
  try dsimp only
  refine ⟨_, rfl, ?_⟩
  repeat'
    with_reducible (first
      | assumption | exact Keeps.refl _ _ | apply Keeps.ite | apply Keeps.dite | apply takeFindings_keeps | (intro _)
      | split)

theorem execLogFlush_keeps (sb : State) :
    ∃ sc, execLogFlush sb = .next sc ∧ Keeps false sb sc := by
  unfold execLogFlush
  try dsimp only
  refine ⟨_, rfl, ?_⟩
  repeat'
    with_reducible (first
      | assumption | exact Keeps.refl _ _ | apply Keeps.ite | apply Keeps.dite | apply flushLog_keeps | (intro _) | split)

theorem execEventAcknowledge_keeps (src : Route) (v : BitVec 32) (sb : State) :
    ∃ sc, execEventAcknowledge src v sb = .next sc ∧ Keeps false sb sc := by
  unfold execEventAcknowledge
  try dsimp only
  refine ⟨_, rfl, ?_⟩
  repeat'
    with_reducible (first
      | assumption | exact Keeps.refl _ _ | apply Keeps.ite | apply Keeps.dite | apply eventAcknowledge_keeps
      | apply beginOp_keeps | (intro _) | split)

end Sys2Proof.Machine
end

