-- ==== Sys2Proof/Laws/CommandsSecurity.lean ====
section
/-! SUPPORT. What the commands of Machine/Security.lean keep; each ends in a next state. -/

namespace Sys2Proof.Machine

open Sys2Proof

set_option linter.unusedTactic false
set_option linter.unreachableTactic false

theorem execGetVersion_keeps (sb : State) :
    ∃ sc, execGetVersion sb = .next sc ∧ Keeps false sb sc := by
  unfold execGetVersion
  try dsimp only
  refine ⟨_, rfl, ?_⟩
  repeat'
    with_reducible (first
      | assumption | exact Keeps.refl _ _ | apply Keeps.ite | apply Keeps.dite | apply withIdentity_keeps | apply spdm_keeps
      | (intro _) | split)

theorem execGetCapabilities_keeps (sb : State) :
    ∃ sc, execGetCapabilities sb = .next sc ∧ Keeps false sb sc := by
  unfold execGetCapabilities
  try dsimp only
  refine ⟨_, rfl, ?_⟩
  repeat'
    with_reducible (first
      | assumption | exact Keeps.refl _ _ | apply Keeps.ite | apply Keeps.dite | apply withIdentity_keeps | apply spdm_keeps
      | (intro _) | split)

theorem execNegotiateAlgorithms_keeps (request : Bytes) (sb : State) :
    ∃ sc, execNegotiateAlgorithms request sb = .next sc ∧ Keeps false sb sc := by
  unfold execNegotiateAlgorithms
  try dsimp only
  refine ⟨_, rfl, ?_⟩
  repeat'
    with_reducible (first
      | assumption | exact Keeps.refl _ _ | apply Keeps.ite | apply Keeps.dite | apply withIdentity_keeps | apply spdm_keeps
      | (intro _) | split)

theorem execGetDigests_keeps (sb : State) :
    ∃ sc, execGetDigests sb = .next sc ∧ Keeps false sb sc := by
  unfold execGetDigests
  try dsimp only
  refine ⟨_, rfl, ?_⟩
  repeat'
    with_reducible (first
      | assumption | exact Keeps.refl _ _ | apply Keeps.ite | apply Keeps.dite | apply withIdentity_keeps | apply spdm_keeps
      | (intro _) | split)

theorem execGetCertificate_keeps (slot : BitVec 8) (offset len : BitVec 16) (sb : State) :
    ∃ sc, execGetCertificate slot offset len sb = .next sc ∧ Keeps false sb sc := by
  unfold execGetCertificate
  try dsimp only
  refine ⟨_, rfl, ?_⟩
  repeat'
    with_reducible (first
      | assumption | exact Keeps.refl _ _ | apply Keeps.ite | apply Keeps.dite | apply withIdentity_keeps | apply spdm_keeps
      | apply spdmError_keeps | (intro _) | split)

theorem execChallenge_keeps (slot : BitVec 8) (nonce : Bytes) (sb : State) :
    ∃ sc, execChallenge slot nonce sb = .next sc ∧ Keeps false sb sc := by
  unfold execChallenge
  try dsimp only
  refine ⟨_, rfl, ?_⟩
  repeat'
    with_reducible (first
      | assumption | exact Keeps.refl _ _ | apply Keeps.ite | apply Keeps.dite | apply withIdentity_keeps | apply spdm_keeps
      | apply spdmError_keeps | (intro _) | split)

theorem execGetMeasurements_keeps (index : BitVec 8) (signed : Bool) (nonce : Bytes) (sb : State) :
    ∃ sc, execGetMeasurements index signed nonce sb = .next sc ∧ Keeps false sb sc := by
  unfold execGetMeasurements
  try dsimp only
  refine ⟨_, rfl, ?_⟩
  repeat'
    with_reducible (first
      | assumption | exact Keeps.refl _ _ | apply Keeps.ite | apply Keeps.dite | apply withIdentity_keeps
      | apply getMeasurements_keeps | (intro _) | split)

theorem execKeyExchange_keeps (who : Requester) (exchange : Bytes) (sb : State) :
    ∃ sc, execKeyExchange who exchange sb = .next sc ∧ Keeps false sb sc := by
  unfold execKeyExchange
  try dsimp only
  refine ⟨_, rfl, ?_⟩
  repeat'
    with_reducible (first
      | assumption | exact Keeps.refl _ _ | apply Keeps.ite | apply Keeps.dite | apply withIdentity_keeps
      | apply keyExchange_keeps | (intro _) | split)

theorem execFinish_keeps (session : Nat) (verified : Bool) (sb : State) :
    ∃ sc, execFinish session verified sb = .next sc ∧ Keeps false sb sc := by
  unfold execFinish
  try dsimp only
  refine ⟨_, rfl, ?_⟩
  repeat'
    with_reducible (first
      | assumption | exact Keeps.refl _ _ | apply Keeps.ite | apply Keeps.dite | apply withIdentity_keeps
      | apply finishSession_keeps | (intro _) | split)

theorem execKeyUpdate_keeps (session : Nat) (op : BitVec 8) (sb : State) :
    ∃ sc, execKeyUpdate session op sb = .next sc ∧ Keeps false sb sc := by
  unfold execKeyUpdate
  try dsimp only
  refine ⟨_, rfl, ?_⟩
  repeat'
    with_reducible (first
      | assumption | exact Keeps.refl _ _ | apply Keeps.ite | apply Keeps.dite | apply withIdentity_keeps
      | apply keyUpdate_keeps | (intro _) | split)

theorem execSpdmHeartbeat_keeps (session : Nat) (sb : State) :
    ∃ sc, execSpdmHeartbeat session sb = .next sc ∧ Keeps false sb sc := by
  unfold execSpdmHeartbeat
  try dsimp only
  refine ⟨_, rfl, ?_⟩
  repeat'
    with_reducible (first
      | assumption | exact Keeps.refl _ _ | apply Keeps.ite | apply Keeps.dite | apply withIdentity_keeps
      | apply inSession_keeps | apply spdm_keeps | (intro _) | split)

theorem execEndSession_keeps (session : Nat) (sb : State) :
    ∃ sc, execEndSession session sb = .next sc ∧ Keeps false sb sc := by
  unfold execEndSession
  try dsimp only
  refine ⟨_, rfl, ?_⟩
  repeat'
    with_reducible (first
      | assumption | exact Keeps.refl _ _ | apply Keeps.ite | apply Keeps.dite | apply withIdentity_keeps
      | apply inSession_keeps | apply spdm_keeps | apply dropSession_keeps | (intro _) | split)

theorem execSessionHeartbeatTimeout_keeps (session : Nat) (sb : State) :
    ∃ sc, execSessionHeartbeatTimeout session sb = .next sc ∧ Keeps false sb sc := by
  unfold execSessionHeartbeatTimeout
  try dsimp only
  refine ⟨_, rfl, ?_⟩
  repeat'
    with_reducible (first
      | assumption | exact Keeps.refl _ _ | apply Keeps.ite | apply Keeps.dite | apply dropSession_keeps | (intro _) | split)

theorem execSpdmUnsupportedRequest_keeps (code : BitVec 8) (sb : State) :
    ∃ sc, execSpdmUnsupportedRequest code sb = .next sc ∧ Keeps false sb sc := by
  unfold execSpdmUnsupportedRequest
  try dsimp only
  refine ⟨_, rfl, ?_⟩
  repeat'
    with_reducible (first
      | assumption | exact Keeps.refl _ _ | apply Keeps.ite | apply Keeps.dite | apply withIdentity_keeps
      | apply spdmError_keeps | (intro _) | split)

theorem execBundleBind_keeps (src : Route) (v : BitVec 8) (sb : State) :
    ∃ sc, execBundleBind src v sb = .next sc ∧ Keeps false sb sc := by
  unfold execBundleBind
  try dsimp only
  refine ⟨_, rfl, ?_⟩
  repeat'
    with_reducible (first
      | assumption | exact Keeps.refl _ _ | apply Keeps.ite | apply Keeps.dite | apply bundleBind_keeps | (intro _) | split)

theorem execBundleBindDone_keeps (sb : State) :
    ∃ sc, execBundleBindDone sb = .next sc ∧ Keeps true sb sc := by
  unfold execBundleBindDone
  try dsimp only
  refine ⟨_, rfl, ?_⟩
  repeat'
    with_reducible (first
      | assumption | exact Keeps.refl _ _ | apply Keeps.ite | apply Keeps.dite | apply bundleBindDone_keeps | (intro _)
      | split)

theorem execFirmwareImageWrite_keeps (session : Nat) (first last : Bool) (segment : Bytes) (sb : State) :
    ∃ sc, execFirmwareImageWrite session first last segment sb = .next sc ∧ Keeps false sb sc := by
  unfold execFirmwareImageWrite
  try dsimp only
  refine ⟨_, rfl, ?_⟩
  repeat'
    with_reducible (first
      | assumption | exact Keeps.refl _ _ | apply Keeps.ite | apply Keeps.dite | apply withIdentity_keeps
      | apply firmwareImageWrite_keeps | (intro _) | split)

end Sys2Proof.Machine
end

