-- ==== Sys2Proof/Laws/CommandsSource.lean ====
section
/-! SUPPORT. What the commands of Machine/Source.lean keep; each ends in a next state. -/

namespace Sys2Proof.Machine

open Sys2Proof

set_option linter.unusedTactic false
set_option linter.unreachableTactic false

theorem execRequestSend_keeps (cmd : BepCommand) (sb : State) :
    ∃ sc, execRequestSend cmd sb = .next sc ∧ Keeps false sb sc := by
  unfold execRequestSend
  try dsimp only
  refine ⟨_, rfl, ?_⟩
  repeat'
    with_reducible (first
      | assumption | exact Keeps.refl _ _ | apply Keeps.ite | apply Keeps.dite | apply agentCommand_keeps | (intro _)
      | split)

theorem execSourceFence_keeps (id : Nat) (sb : State) :
    ∃ sc, execSourceFence id sb = .next sc ∧ Keeps false sb sc := by
  unfold execSourceFence
  try dsimp only
  refine ⟨_, rfl, ?_⟩
  repeat'
    with_reducible (first
      | assumption | exact Keeps.refl _ _ | apply Keeps.ite | apply Keeps.dite | apply sourceFence_keeps | (intro _) | split)

theorem execSourceFenceComplete_keeps (id : Nat) (sb : State) :
    ∃ sc, execSourceFenceComplete id sb = .next sc ∧ Keeps false sb sc := by
  unfold execSourceFenceComplete
  try dsimp only
  refine ⟨_, rfl, ?_⟩
  repeat'
    with_reducible (first
      | assumption | exact Keeps.refl _ _ | apply Keeps.ite | apply Keeps.dite | apply sourceFenceComplete_keeps | (intro _)
      | split)

theorem execRefusalFenceSend_keeps (dest : BitVec 16) (sb : State) :
    ∃ sc, execRefusalFenceSend dest sb = .next sc ∧ Keeps false sb sc := by
  unfold execRefusalFenceSend
  try dsimp only
  refine ⟨_, rfl, ?_⟩
  repeat'
    with_reducible (first
      | assumption | exact Keeps.refl _ _ | apply Keeps.ite | apply Keeps.dite | apply refusalFence_keeps | (intro _)
      | split)

end Sys2Proof.Machine
end

