-- ==== Sys2Proof/Laws/CommandsStall.lean ====
section
/-! SUPPORT. What the commands of Machine/Stall.lean keep; each ends in a next state. -/

namespace Sys2Proof.Machine

open Sys2Proof

set_option linter.unusedTactic false
set_option linter.unreachableTactic false

theorem execCombineTimeout_keeps (entry : Nat) (sb : State) :
    ∃ sc, execCombineTimeout entry sb = .next sc ∧ Keeps false sb sc := by
  unfold execCombineTimeout
  try dsimp only
  refine ⟨_, rfl, ?_⟩
  repeat'
    with_reducible (first
      | assumption | exact Keeps.refl _ _ | apply Keeps.ite | apply Keeps.dite | apply combineTimeout_keeps | (intro _)
      | split)

theorem execVc11AgeDrop_keeps (input output : InputN) (sb : State) :
    ∃ sc, execVc11AgeDrop input output sb = .next sc ∧ Keeps false sb sc := by
  unfold execVc11AgeDrop
  try dsimp only
  refine ⟨_, rfl, ?_⟩
  repeat'
    with_reducible (first
      | assumption | exact Keeps.refl _ _ | apply Keeps.ite | apply Keeps.dite | apply vc11AgeDrop_keeps | (intro _) | split)

theorem execSumpAudit_keeps (sb : State) :
    ∃ sc, execSumpAudit sb = .next sc ∧ Keeps false sb sc := by
  unfold execSumpAudit
  try dsimp only
  refine ⟨_, rfl, ?_⟩
  repeat'
    with_reducible (first
      | assumption | exact Keeps.refl _ _ | apply Keeps.ite | apply Keeps.dite | apply sumpAudit_keeps | (intro _) | split)

end Sys2Proof.Machine
end

