-- ==== Sys2Proof/Laws/CommandsSteward.lean ====
section
/-! SUPPORT. What the commands of Machine/Steward.lean keep; each ends in a next state. -/

namespace Sys2Proof.Machine

open Sys2Proof

set_option linter.unusedTactic false
set_option linter.unreachableTactic false

theorem execShardUpdate_keeps (i : Fin 64) (chunk : BitVec 28) (sb : State) :
    ∃ sc, execShardUpdate i chunk sb = .next sc ∧ Keeps true sb sc := by
  unfold execShardUpdate
  try dsimp only
  refine ⟨_, rfl, ?_⟩
  repeat'
    with_reducible (first
      | assumption | exact Keeps.refl _ _ | apply Keeps.ite | apply Keeps.dite | apply shardUpdate_keeps | (intro _) | split)

theorem execShardEnable_keeps (src : Route) (j : Fin 16) (v : BitVec 8) (sb : State) :
    ∃ sc, execShardEnable src j v sb = .next sc ∧ Keeps true sb sc := by
  unfold execShardEnable
  try dsimp only
  refine ⟨_, rfl, ?_⟩
  repeat'
    with_reducible (first
      | assumption | exact Keeps.refl _ _ | apply Keeps.ite | apply Keeps.dite | apply shardWrite_keeps | (intro _) | split)

theorem execShardDisable_keeps (src : Route) (j : Fin 16) (v : BitVec 8) (sb : State) :
    ∃ sc, execShardDisable src j v sb = .next sc ∧ Keeps true sb sc := by
  unfold execShardDisable
  try dsimp only
  refine ⟨_, rfl, ?_⟩
  repeat'
    with_reducible (first
      | assumption | exact Keeps.refl _ _ | apply Keeps.ite | apply Keeps.dite | apply shardWrite_keeps | (intro _) | split)

end Sys2Proof.Machine
end

