-- ==== Sys2Proof/Laws/CommandsTime.lean ====
section
/-! SUPPORT. What the commands of Machine/Time.lean keep; each ends in a next state. -/

namespace Sys2Proof.Machine

open Sys2Proof

set_option linter.unusedTactic false
set_option linter.unreachableTactic false

theorem execTimeSetReceive_keeps (p : PortN) (x : TimeSet) (arrival : Nat) (damaged : Bool) (sb : State) :
    ∃ sc, execTimeSetReceive p x arrival damaged sb = .next sc ∧ Keeps false sb sc := by
  unfold execTimeSetReceive
  try dsimp only
  refine ⟨_, rfl, ?_⟩
  repeat'
    with_reducible (first
      | assumption | exact Keeps.refl _ _ | apply Keeps.ite | apply Keeps.dite | apply timeSetReceive_keeps | (intro _)
      | split)

theorem execTrimDecision_keeps (sb : State) :
    ∃ sc, execTrimDecision sb = .next sc ∧ Keeps false sb sc := by
  unfold execTrimDecision
  try dsimp only
  refine ⟨_, rfl, ?_⟩
  repeat'
    with_reducible (first
      | assumption | exact Keeps.refl _ _ | apply Keeps.ite | apply Keeps.dite | apply trimDecision_keeps | (intro _)
      | split)

theorem execTrimSlot_keeps (sb : State) :
    ∃ sc, execTrimSlot sb = .next sc ∧ Keeps false sb sc := by
  unfold execTrimSlot
  try dsimp only
  refine ⟨_, rfl, ?_⟩
  repeat'
    with_reducible (first
      | assumption | exact Keeps.refl _ _ | apply Keeps.ite | apply Keeps.dite | apply trimSlotPass_keeps | (intro _)
      | split)

theorem execTrimNoticeReceive_keeps (p : PortN) (low : BitVec 16) (kind comp : BitVec 8) (sb : State) :
    ∃ sc, execTrimNoticeReceive p low kind comp sb = .next sc ∧ Keeps false sb sc := by
  unfold execTrimNoticeReceive
  try dsimp only
  refine ⟨_, rfl, ?_⟩
  repeat'
    with_reducible (first
      | assumption | exact Keeps.refl _ _ | apply Keeps.ite | apply Keeps.dite | apply trimNoticeReceive_keeps | (intro _)
      | split)

theorem execSuspectTimeout_keeps (p : PortN) (sb : State) :
    ∃ sc, execSuspectTimeout p sb = .next sc ∧ Keeps false sb sc := by
  unfold execSuspectTimeout
  try dsimp only
  refine ⟨_, rfl, ?_⟩
  repeat'
    with_reducible (first
      | assumption | exact Keeps.refl _ _ | apply Keeps.ite | apply Keeps.dite | apply makeSuspect_keeps | (intro _) | split)

theorem execHoldoverAllowanceEnd_keeps (sb : State) :
    ∃ sc, execHoldoverAllowanceEnd sb = .next sc ∧ Keeps false sb sc := by
  unfold execHoldoverAllowanceEnd
  try dsimp only
  refine ⟨_, rfl, ?_⟩
  repeat'
    with_reducible (first
      | assumption | exact Keeps.refl _ _ | apply Keeps.ite | apply Keeps.dite | apply modTime_keeps | (intro _) | split
      | refine Keeps.upd ?_ rfl)

theorem execRoundLengthWrite_keeps (src : Route) (v : BitVec 32) (sb : State) :
    ∃ sc, execRoundLengthWrite src v sb = .next sc ∧ Keeps false sb sc := by
  unfold execRoundLengthWrite
  try dsimp only
  refine ⟨_, rfl, ?_⟩
  repeat'
    with_reducible (first
      | assumption | exact Keeps.refl _ _ | apply Keeps.ite | apply Keeps.dite | apply roundLengthWrite_keeps | (intro _)
      | split)

theorem execRoundArmWrite_keeps (src : Route) (v : BitVec 64) (sb : State) :
    ∃ sc, execRoundArmWrite src v sb = .next sc ∧ Keeps false sb sc := by
  unfold execRoundArmWrite
  try dsimp only
  refine ⟨_, rfl, ?_⟩
  repeat'
    with_reducible (first
      | assumption | exact Keeps.refl _ _ | apply Keeps.ite | apply Keeps.dite | apply roundArmWrite_keeps | (intro _)
      | split)

theorem execRoundChange_keeps (sb : State) :
    ∃ sc, execRoundChange sb = .next sc ∧ Keeps false sb sc := by
  unfold execRoundChange
  try dsimp only
  refine ⟨_, rfl, ?_⟩
  repeat'
    with_reducible (first
      | assumption | exact Keeps.refl _ _ | apply Keeps.ite | apply Keeps.dite | apply advanceTo_keeps | apply odSet_keeps
      | apply modTime_keeps | (intro _) | split | refine Keeps.upd ?_ rfl)

theorem execTimeRoleWrite_keeps (src : Route) (v : BitVec 8) (sb : State) :
    ∃ sc, execTimeRoleWrite src v sb = .next sc ∧ Keeps false sb sc := by
  unfold execTimeRoleWrite
  try dsimp only
  refine ⟨_, rfl, ?_⟩
  repeat'
    with_reducible (first
      | assumption | exact Keeps.refl _ _ | apply Keeps.ite | apply Keeps.dite | apply timeRoleWrite_keeps | (intro _)
      | split)

theorem execTimeSourceWrite_keeps (src : Route) (v : BitVec 8) (sb : State) :
    ∃ sc, execTimeSourceWrite src v sb = .next sc ∧ Keeps false sb sc := by
  unfold execTimeSourceWrite
  try dsimp only
  refine ⟨_, rfl, ?_⟩
  repeat'
    with_reducible (first
      | assumption | exact Keeps.refl _ _ | apply Keeps.ite | apply Keeps.dite | apply timeSourceWrite_keeps | (intro _)
      | split)

theorem execBeatrefEdge_keeps (stamp : Nat) (sb : State) :
    ∃ sc, execBeatrefEdge stamp sb = .next sc ∧ Keeps false sb sc := by
  unfold execBeatrefEdge
  try dsimp only
  refine ⟨_, rfl, ?_⟩
  repeat'
    with_reducible (first
      | assumption | exact Keeps.refl _ _ | apply Keeps.ite | apply Keeps.dite | apply beatrefEdge_keeps | (intro _) | split)

theorem execBeatrefMissing_keeps (sb : State) :
    ∃ sc, execBeatrefMissing sb = .next sc ∧ Keeps false sb sc := by
  unfold execBeatrefMissing
  try dsimp only
  refine ⟨_, rfl, ?_⟩
  repeat'
    with_reducible (first
      | assumption | exact Keeps.refl _ _ | apply Keeps.ite | apply Keeps.dite | apply beatMiss_keeps | (intro _) | split)

end Sys2Proof.Machine
end

