-- ==== Sys2Proof/Laws/CommandsTranslate.lean ====
section
/-! SUPPORT. What the commands of Machine/Translate.lean keep; each ends in a next state. -/

namespace Sys2Proof.Machine

open Sys2Proof

set_option linter.unusedTactic false
set_option linter.unreachableTactic false

theorem execAtsCompletion_keeps (pasid : BitVec 20) (vpage : BitVec 52) (result : AtsResult) (sb : State) :
    ∃ sc, execAtsCompletion pasid vpage result sb = .next sc ∧ Keeps false sb sc := by
  unfold execAtsCompletion
  try dsimp only
  refine ⟨_, rfl, ?_⟩
  repeat'
    with_reducible (first
      | assumption | exact Keeps.refl _ _ | apply Keeps.ite | apply Keeps.dite | apply atsCompletion_keeps | (intro _)
      | split)

theorem execAtsCompletionTimeout_keeps (pasid : BitVec 20) (vpage : BitVec 52) (sb : State) :
    ∃ sc, execAtsCompletionTimeout pasid vpage sb = .next sc ∧ Keeps false sb sc := by
  unfold execAtsCompletionTimeout
  try dsimp only
  refine ⟨_, rfl, ?_⟩
  repeat'
    with_reducible (first
      | assumption | exact Keeps.refl _ _ | apply Keeps.ite | apply Keeps.dite | apply atsTimeout_keeps | (intro _) | split)

theorem execPageResponse_keeps (pasid : BitVec 20) (index : Nat) (code : BitVec 4) (sb : State) :
    ∃ sc, execPageResponse pasid index code sb = .next sc ∧ Keeps false sb sc := by
  unfold execPageResponse
  try dsimp only
  refine ⟨_, rfl, ?_⟩
  repeat'
    with_reducible (first
      | assumption | exact Keeps.refl _ _ | apply Keeps.ite | apply Keeps.dite | apply pageResponse_keeps | (intro _)
      | split)

theorem execPageRequestTimeout_keeps (index : Nat) (sb : State) :
    ∃ sc, execPageRequestTimeout index sb = .next sc ∧ Keeps false sb sc := by
  unfold execPageRequestTimeout
  try dsimp only
  refine ⟨_, rfl, ?_⟩
  repeat'
    with_reducible (first
      | assumption | exact Keeps.refl _ _ | apply Keeps.ite | apply Keeps.dite | apply pageTimeout_keeps | (intro _) | split)

theorem execPriReset_keeps (sb : State) :
    ∃ sc, execPriReset sb = .next sc ∧ Keeps false sb sc := by
  unfold execPriReset
  try dsimp only
  refine ⟨_, rfl, ?_⟩
  repeat'
    with_reducible (first
      | assumption | exact Keeps.refl _ _ | apply Keeps.ite | apply Keeps.dite | apply modXlat_keeps | apply stopPages_keeps
      | (intro _) | split | refine Keeps.upd ?_ rfl)

theorem execAtsEnableClear_keeps (sb : State) :
    ∃ sc, execAtsEnableClear sb = .next sc ∧ Keeps false sb sc := by
  unfold execAtsEnableClear
  try dsimp only
  refine ⟨_, rfl, ?_⟩
  repeat'
    with_reducible (first
      | assumption | exact Keeps.refl _ _ | apply Keeps.ite | apply Keeps.dite | apply modXlat_keeps | (intro _) | split
      | refine Keeps.upd ?_ rfl)

theorem execPriEnableClear_keeps (sb : State) :
    ∃ sc, execPriEnableClear sb = .next sc ∧ Keeps false sb sc := by
  unfold execPriEnableClear
  try dsimp only
  refine ⟨_, rfl, ?_⟩
  repeat'
    with_reducible (first
      | assumption | exact Keeps.refl _ _ | apply Keeps.ite | apply Keeps.dite | apply stopPages_keeps | apply modXlat_keeps
      | (intro _) | split | refine Keeps.upd ?_ rfl)

theorem execAtsInvalidate_keeps (itag : BitVec 5) (pasid : Option (BitVec 20)) (global : Bool) (base : BitVec 64)
    (log2 : Nat) (sb : State) :
    ∃ sc, execAtsInvalidate itag pasid global base log2 sb = .next sc ∧ Keeps true sb sc := by
  unfold execAtsInvalidate
  try dsimp only
  refine ⟨_, rfl, ?_⟩
  repeat'
    with_reducible (first
      | assumption | exact Keeps.refl _ _ | apply Keeps.ite | apply Keeps.dite | apply atsInvalidate_keeps | (intro _)
      | split)

theorem execInvalidateCompletion_keeps (itag : BitVec 5) (sb : State) :
    ∃ sc, execInvalidateCompletion itag sb = .next sc ∧ Keeps true sb sc := by
  unfold execInvalidateCompletion
  try dsimp only
  refine ⟨_, rfl, ?_⟩
  repeat'
    with_reducible (first
      | assumption | exact Keeps.refl _ _ | apply Keeps.ite | apply Keeps.dite | apply invalidateCompletion_keeps | (intro _)
      | split)

theorem execInvalidateAll_keeps (src : Route) (v : BitVec 8) (sb : State) :
    ∃ sc, execInvalidateAll src v sb = .next sc ∧ Keeps true sb sc := by
  unfold execInvalidateAll
  try dsimp only
  refine ⟨_, rfl, ?_⟩
  repeat'
    with_reducible (first
      | assumption | exact Keeps.refl _ _ | apply Keeps.ite | apply Keeps.dite | apply invalidateAll_keeps | (intro _)
      | split)

theorem execDirectoryEnable_keeps (src : Route) (v : BitVec 8) (sb : State) :
    ∃ sc, execDirectoryEnable src v sb = .next sc ∧ Keeps true sb sc := by
  unfold execDirectoryEnable
  try dsimp only
  refine ⟨_, rfl, ?_⟩
  repeat'
    with_reducible (first
      | assumption | exact Keeps.refl _ _ | apply Keeps.ite | apply Keeps.dite | apply directoryWrite_keeps | (intro _)
      | split)

theorem execDirectoryDisable_keeps (src : Route) (v : BitVec 8) (sb : State) :
    ∃ sc, execDirectoryDisable src v sb = .next sc ∧ Keeps true sb sc := by
  unfold execDirectoryDisable
  try dsimp only
  refine ⟨_, rfl, ?_⟩
  repeat'
    with_reducible (first
      | assumption | exact Keeps.refl _ _ | apply Keeps.ite | apply Keeps.dite | apply directoryWrite_keeps | (intro _)
      | split)

end Sys2Proof.Machine
end

