-- ==== Sys2Proof/Laws/Only.lean ====
section
/-!
SUPPORT. What every operation may change of the machine's parts, said once: one lemma an operation, in the files
Laws/Only<Module>.lean, and one a command.
-/

namespace Sys2Proof.Machine

open Sys2Proof

theorem Only.gite {l : List Part} {s a b : State} {c : Prop} [Decidable c] (h : c → Only l s a) (g : ¬c → Only l s b) :
    Only l s (if c then a else b) := by
  split
  · exact h ‹_›
  · exact g ‹_›

theorem Only.gdite {l : List Part} {s : State} {c : Prop} [Decidable c] {a : c → State} {b : ¬c → State} (h : ∀ x, Only l s (a x))
    (g : ∀ x, Only l s (b x)) : Only l s (dite c a b) := by
  split
  · exact h _
  · exact g _

theorem Only.refl (l : List Part) (s : State) : Only l s s := by
  intro p _
  cases p <;> rfl

theorem partMem {a : Part} {l m : List Part} (h : l ⊆ m) (g : a ∈ l) : a ∈ m := h g

/-- A fold of operations that each change only those parts. -/
theorem Only.foldl {α : Type} {pl : List Part} {s t : State} {f : State → α → State} (l : List α)
    (h : ∀ u x, Only pl s u → Only pl s (f u x)) (h0 : Only pl s t) : Only pl s (l.foldl f t) := by
  induction l generalizing t with
  | nil => exact h0
  | cons x r ih => exact ih (h t x h0)

/-- A fold that carries a value beside the state. -/
theorem Only.foldl_snd {α β : Type} {pl : List Part} {s : State} {t : β × State} {f : β × State → α → β × State} (l : List α)
    (h : ∀ u x, Only pl s u.2 → Only pl s (f u x).2) (h0 : Only pl s t.2) : Only pl s (l.foldl f t).2 := by
  induction l generalizing t with
  | nil => exact h0
  | cons x r ih => exact ih (h t x h0)

theorem Only.foldl_fst {α β : Type} {pl : List Part} {s : State} {t : State × β} {f : State × β → α → State × β} (l : List α)
    (h : ∀ u x, Only pl s u.1 → Only pl s (f u x).1) (h0 : Only pl s t.1) : Only pl s (l.foldl f t).1 := by
  induction l generalizing t with
  | nil => exact h0
  | cons x r ih => exact ih (h t x h0)

theorem Only.pending_upd {l : List Part} {s t : State} (m : Part.pending ∈ l) (h : Only l s t) {x} :
    Only l s { t with pending := x } := by
  intro p hp
  have g := h p hp
  cases p <;> first | exact g | exact absurd m hp

theorem Only.time_upd {l : List Part} {s t : State} (m : Part.time ∈ l) (h : Only l s t) {x} :
    Only l s { t with time := x } := by
  intro p hp
  have g := h p hp
  cases p <;> first | exact g | exact absurd m hp

theorem Only.ports_upd {l : List Part} {s t : State} (m : Part.ports ∈ l) (h : Only l s t) {x} :
    Only l s { t with ports := x } := by
  intro p hp
  have g := h p hp
  cases p <;> first | exact g | exact absurd m hp

theorem Only.sw_upd {l : List Part} {s t : State} (m : Part.sw ∈ l) (h : Only l s t) {x} :
    Only l s { t with sw := x } := by
  intro p hp
  have g := h p hp
  cases p <;> first | exact g | exact absurd m hp

theorem Only.routes_upd {l : List Part} {s t : State} (m : Part.routes ∈ l) (h : Only l s t) {x} :
    Only l s { t with routes := x } := by
  intro p hp
  have g := h p hp
  cases p <;> first | exact g | exact absurd m hp

theorem Only.bep_upd {l : List Part} {s t : State} (m : Part.bep ∈ l) (h : Only l s t) {x} :
    Only l s { t with bep := x } := by
  intro p hp
  have g := h p hp
  cases p <;> first | exact g | exact absurd m hp

theorem Only.ep_upd {l : List Part} {s t : State} (m : Part.ep ∈ l) (h : Only l s t) {x} :
    Only l s { t with ep := x } := by
  intro p hp
  have g := h p hp
  cases p <;> first | exact g | exact absurd m hp

theorem Only.grotto_upd {l : List Part} {s t : State} (m : Part.grotto ∈ l) (h : Only l s t) {x} :
    Only l s { t with grotto := x } := by
  intro p hp
  have g := h p hp
  cases p <;> first | exact g | exact absurd m hp

theorem Only.cal_upd {l : List Part} {s t : State} (m : Part.cal ∈ l) (h : Only l s t) {x} :
    Only l s { t with cal := x } := by
  intro p hp
  have g := h p hp
  cases p <;> first | exact g | exact absurd m hp

theorem Only.cmp_upd {l : List Part} {s t : State} (m : Part.cmp ∈ l) (h : Only l s t) {x} :
    Only l s { t with cmp := x } := by
  intro p hp
  have g := h p hp
  cases p <;> first | exact g | exact absurd m hp

theorem Only.coll_upd {l : List Part} {s t : State} (m : Part.coll ∈ l) (h : Only l s t) {x} :
    Only l s { t with coll := x } := by
  intro p hp
  have g := h p hp
  cases p <;> first | exact g | exact absurd m hp

theorem Only.xlat_upd {l : List Part} {s t : State} (m : Part.xlat ∈ l) (h : Only l s t) {x} :
    Only l s { t with xlat := x } := by
  intro p hp
  have g := h p hp
  cases p <;> first | exact g | exact absurd m hp

theorem Only.mem_upd {l : List Part} {s t : State} (m : Part.mem ∈ l) (h : Only l s t) {x} :
    Only l s { t with mem := x } := by
  intro p hp
  have g := h p hp
  cases p <;> first | exact g | exact absurd m hp

theorem Only.dict_upd {l : List Part} {s t : State} (m : Part.dict ∈ l) (h : Only l s t) {x} :
    Only l s { t with dict := x } := by
  intro p hp
  have g := h p hp
  cases p <;> first | exact g | exact absurd m hp

theorem Only.host_upd {l : List Part} {s t : State} (m : Part.host ∈ l) (h : Only l s t) {x} :
    Only l s { t with host := x } := by
  intro p hp
  have g := h p hp
  cases p <;> first | exact g | exact absurd m hp

theorem Only.can_upd {l : List Part} {s t : State} (m : Part.can ∈ l) (h : Only l s t) {x} :
    Only l s { t with can := x } := by
  intro p hp
  have g := h p hp
  cases p <;> first | exact g | exact absurd m hp

theorem Only.sec_upd {l : List Part} {s t : State} (m : Part.sec ∈ l) (h : Only l s t) {x} :
    Only l s { t with sec := x } := by
  intro p hp
  have g := h p hp
  cases p <;> first | exact g | exact absurd m hp

theorem Only.log_upd {l : List Part} {s t : State} (m : Part.log ∈ l) (h : Only l s t) {x} :
    Only l s { t with log := x } := by
  intro p hp
  have g := h p hp
  cases p <;> first | exact g | exact absurd m hp

theorem Only.lantern_upd {l : List Part} {s t : State} (m : Part.lantern ∈ l) (h : Only l s t) {x} :
    Only l s { t with lantern := x } := by
  intro p hp
  have g := h p hp
  cases p <;> first | exact g | exact absurd m hp

theorem Only.muster_upd {l : List Part} {s t : State} (m : Part.muster ∈ l) (h : Only l s t) {x} :
    Only l s { t with muster := x } := by
  intro p hp
  have g := h p hp
  cases p <;> first | exact g | exact absurd m hp

theorem Only.pwr_upd {l : List Part} {s t : State} (m : Part.pwr ∈ l) (h : Only l s t) {x} :
    Only l s { t with pwr := x } := by
  intro p hp
  have g := h p hp
  cases p <;> first | exact g | exact absurd m hp

theorem Only.resets_upd {l : List Part} {s t : State} (m : Part.resets ∈ l) (h : Only l s t) {x} :
    Only l s { t with resets := x } := by
  intro p hp
  have g := h p hp
  cases p <;> first | exact g | exact absurd m hp

theorem Only.sent_upd {l : List Part} {s t : State} (m : Part.sent ∈ l) (h : Only l s t) {x} :
    Only l s { t with sent := x } := by
  intro p hp
  have g := h p hp
  cases p <;> first | exact g | exact absurd m hp

theorem Only.free_upd {l : List Part} {s t : State} (m : Part.free ∈ l) (h : Only l s t) {x} :
    Only l s { t with free := x } := by
  intro p hp
  have g := h p hp
  cases p <;> first | exact g | exact absurd m hp

end Sys2Proof.Machine
end

