-- ==== Sys2Proof/Laws/OnlyOps.lean ====
section
/-! SUPPORT. What the operations of Machine/Ops.lean may change. -/

namespace Sys2Proof.Machine

open Sys2Proof

set_option linter.unusedTactic false
set_option linter.unreachableTactic false

theorem modPort_parts {pl : List Part} {sa sb : State} (p : PortN) (f : Port → Port) (hp : [.ports] ⊆ pl)
    (hk : Only pl sa sb) :
    Only pl sa (modPort p f sb) := by
  unfold modPort
  try dsimp only
  repeat'
    with_reducible (first
      | assumption | exact List.Subset.trans (by decide) hp | apply Only.gite | apply Only.gdite | (intro _) | split
      | refine Only.ports_upd (partMem hp (by decide)) ?_)

theorem forPorts_parts {pl : List Part} {sa sb : State} (f : PortN → State → State)
    (h_f : ∀ (x0 : PortN) (u : State), Only pl sa u → Only pl sa (f x0 u)) (hp : [] ⊆ pl) (hk : Only pl sa sb) :
    Only pl sa (forPorts f sb) := by
  unfold forPorts
  try dsimp only
  repeat'
    with_reducible (first
      | assumption | exact List.Subset.trans (by decide) hp | apply Only.gite | apply Only.gdite | apply h_f
      | apply Only.foldl | apply Only.foldl_snd | apply Only.foldl_fst | (intro _) | split)

theorem odSet_parts {pl : List Part} {sa sb : State} (index : Nat) (sub : Nat) (v : Nat) (hp : [.dict] ⊆ pl)
    (hk : Only pl sa sb) :
    Only pl sa (odSet index sub v sb) := by
  unfold odSet
  try dsimp only
  repeat'
    with_reducible (first
      | assumption | exact List.Subset.trans (by decide) hp | apply Only.gite | apply Only.gdite | (intro _) | split
      | refine Only.dict_upd (partMem hp (by decide)) ?_)

theorem bumpBy_parts {pl : List Part} {sa sb : State} (index : Nat) (sub : Nat) (n : Nat) (w : Nat) (hp : [.dict] ⊆ pl)
    (hk : Only pl sa sb) :
    Only pl sa (bumpBy index sub n w sb) := by
  unfold bumpBy
  try dsimp only
  repeat'
    with_reducible (first
      | assumption | exact List.Subset.trans (by decide) hp | apply Only.gite | apply Only.gdite | apply odSet_parts
      | (intro _) | split)

theorem bump_parts {pl : List Part} {sa sb : State} (index : Nat) (sub : Nat) (hp : [.dict] ⊆ pl) (hk : Only pl sa sb) :
    Only pl sa (bump index sub sb) := by
  unfold bump
  try dsimp only
  repeat'
    with_reducible (first
      | assumption | exact List.Subset.trans (by decide) hp | apply Only.gite | apply Only.gdite | apply bumpBy_parts
      | (intro _) | split)

theorem bumpN_parts {pl : List Part} {sa sb : State} (index : Nat) (sub : Nat) (n : Nat) (hp : [.dict] ⊆ pl)
    (hk : Only pl sa sb) :
    Only pl sa (bumpN index sub n sb) := by
  unfold bumpN
  try dsimp only
  repeat'
    with_reducible (first
      | assumption | exact List.Subset.trans (by decide) hp | apply Only.gite | apply Only.gdite | apply bumpBy_parts
      | (intro _) | split)

theorem blobSet_parts {pl : List Part} {sa sb : State} (index : Nat) (sub : Nat) (b : Bytes) (hp : [.dict] ⊆ pl)
    (hk : Only pl sa sb) :
    Only pl sa (blobSet index sub b sb) := by
  unfold blobSet
  try dsimp only
  repeat'
    with_reducible (first
      | assumption | exact List.Subset.trans (by decide) hp | apply Only.gite | apply Only.gdite | (intro _) | split
      | refine Only.dict_upd (partMem hp (by decide)) ?_)

theorem emit_parts {pl : List Part} {sa sb : State} (o : Out) (hp : [.sent] ⊆ pl) (hk : Only pl sa sb) :
    Only pl sa (emit o sb) := by
  unfold emit
  try dsimp only
  repeat'
    with_reducible (first
      | assumption | exact List.Subset.trans (by decide) hp | apply Only.gite | apply Only.gdite | (intro _) | split
      | refine Only.sent_upd (partMem hp (by decide)) ?_)

theorem drawn_parts {pl : List Part} {sa sb : State} (hp : [.free] ⊆ pl) (hk : Only pl sa sb) :
    Only pl sa (drawn sb) := by
  unfold drawn
  try dsimp only
  repeat'
    with_reducible (first
      | assumption | exact List.Subset.trans (by decide) hp | apply Only.gite | apply Only.gdite | (intro _) | split
      | refine Only.free_upd (partMem hp (by decide)) ?_)

theorem progress_parts {pl : List Part} {sa sb : State} (n : Node) (hp : [.lantern] ⊆ pl) (hk : Only pl sa sb) :
    Only pl sa (progress n sb) := by
  unfold progress
  try dsimp only
  repeat'
    with_reducible (first
      | assumption | exact List.Subset.trans (by decide) hp | apply Only.gite | apply Only.gdite | (intro _) | split
      | refine Only.lantern_upd (partMem hp (by decide)) ?_)

theorem beginOp_parts {pl : List Part} {sa sb : State} (hp : [.dict] ⊆ pl) (hk : Only pl sa sb) :
    Only pl sa (beginOp sb) := by
  unfold beginOp
  try dsimp only
  repeat'
    with_reducible (first
      | assumption | exact List.Subset.trans (by decide) hp | apply Only.gite | apply Only.gdite | (intro _) | split
      | refine Only.dict_upd (partMem hp (by decide)) ?_)

theorem endOp_parts {pl : List Part} {sa sb : State} (status : Nat) (abort : Nat) (hp : [.dict] ⊆ pl)
    (hk : Only pl sa sb) :
    Only pl sa (endOp status abort sb) := by
  unfold endOp
  try dsimp only
  repeat'
    with_reducible (first
      | assumption | exact List.Subset.trans (by decide) hp | apply Only.gite | apply Only.gdite | (intro _) | split
      | refine Only.dict_upd (partMem hp (by decide)) ?_)

theorem refuseCondition_parts {pl : List Part} {sa sb : State} (hp : [.dict] ⊆ pl) (hk : Only pl sa sb) :
    Only pl sa (refuseCondition sb) := by
  unfold refuseCondition
  try dsimp only
  repeat'
    with_reducible (first
      | assumption | exact List.Subset.trans (by decide) hp | apply Only.gite | apply Only.gdite | apply endOp_parts
      | (intro _) | split)

theorem refuseRule_parts {pl : List Part} {sa sb : State} (hp : [.dict] ⊆ pl) (hk : Only pl sa sb) :
    Only pl sa (refuseRule sb) := by
  unfold refuseRule
  try dsimp only
  repeat'
    with_reducible (first
      | assumption | exact List.Subset.trans (by decide) hp | apply Only.gite | apply Only.gdite | apply endOp_parts
      | (intro _) | split)

theorem barWrite_parts {pl : List Part} {sa sb : State} (f : State → State)
    (h_f : ∀ (u : State), Only pl sa u → Only pl sa (f  u)) (hp : [] ⊆ pl) (hk : Only pl sa sb) :
    Only pl sa (barWrite f sb) := by
  unfold barWrite
  try dsimp only
  repeat'
    with_reducible (first
      | assumption | exact List.Subset.trans (by decide) hp | apply Only.gite | apply Only.gdite | apply h_f | (intro _)
      | split)

theorem signal_parts {pl : List Part} {sa sb : State} (vector : Nat) (hp : [.host, .sent] ⊆ pl) (hk : Only pl sa sb) :
    Only pl sa (signal vector sb) := by
  unfold signal
  try dsimp only
  repeat'
    with_reducible (first
      | assumption | exact List.Subset.trans (by decide) hp | apply Only.gite | apply Only.gdite | apply emit_parts
      | (intro _) | split | refine Only.host_upd (partMem hp (by decide)) ?_)

theorem raiseCause_parts {pl : List Part} {sa sb : State} (n : Fin 64) (hp : [.host, .sent] ⊆ pl) (hk : Only pl sa sb) :
    Only pl sa (raiseCause n sb) := by
  unfold raiseCause
  try dsimp only
  repeat'
    with_reducible (first
      | assumption | exact List.Subset.trans (by decide) hp | apply Only.gite | apply Only.gdite | apply signal_parts
      | (intro _) | split | refine Only.host_upd (partMem hp (by decide)) ?_)

theorem countIgnored_parts {pl : List Part} {sa sb : State} (hp : [.host] ⊆ pl) (hk : Only pl sa sb) :
    Only pl sa (countIgnored sb) := by
  unfold countIgnored
  try dsimp only
  repeat'
    with_reducible (first
      | assumption | exact List.Subset.trans (by decide) hp | apply Only.gite | apply Only.gdite | (intro _) | split
      | refine Only.host_upd (partMem hp (by decide)) ?_)

theorem report_parts {pl : List Part} {sa sb : State} (src : Route) (index : Nat) (sub : Nat) (place : Nat) (kind : Nat)
    (original : Nat) (clamped : Nat) (hp : [.dict, .host, .sent] ⊆ pl) (hk : Only pl sa sb) :
    Only pl sa (report src index sub place kind original clamped sb) := by
  unfold report
  try dsimp only
  repeat'
    with_reducible (first
      | assumption | exact List.Subset.trans (by decide) hp | apply Only.gite | apply Only.gdite | apply bump_parts
      | apply clamped_parts | apply raiseCause_parts | (intro _) | split | refine Only.dict_upd (partMem hp (by decide)) ?_)

theorem clamped_parts {pl : List Part} {sa sb : State} (src : Route) (index : Nat) (sub : Nat) (place : Nat)
    (original : Nat) (kept : Nat) (hp : [.dict, .host, .sent] ⊆ pl) (hk : Only pl sa sb) :
    Only pl sa (clamped src index sub place original kept sb) := by
  unfold clamped
  try dsimp only
  repeat'
    with_reducible (first
      | assumption | exact List.Subset.trans (by decide) hp | apply Only.gite | apply Only.gdite | apply report_parts
      | (intro _) | split | refine Only.dict_upd (partMem hp (by decide)) ?_)

theorem noted_parts {pl : List Part} {sa sb : State} (src : Route) (index : Nat) (sub : Nat) (place : Nat) (kind : Nat)
    (original : Nat) (hp : [.dict, .host, .sent] ⊆ pl) (hk : Only pl sa sb) :
    Only pl sa (noted src index sub place kind original sb) := by
  unfold noted
  try dsimp only
  repeat'
    with_reducible (first
      | assumption | exact List.Subset.trans (by decide) hp | apply Only.gite | apply Only.gdite | apply report_parts
      | (intro _) | split | refine Only.dict_upd (partMem hp (by decide)) ?_)

theorem keepScalar_parts {pl : List Part} {sa sb : State} (src : Route) (index : Nat) (sub : Nat) (w : Nat) (v : Nat)
    (kept : Nat) (hp : [.dict, .host, .sent] ⊆ pl) (hk : Only pl sa sb) :
    Only pl sa (keepScalar src index sub w v kept sb) := by
  unfold keepScalar
  try dsimp only
  repeat'
    with_reducible (first
      | assumption | exact List.Subset.trans (by decide) hp | apply Only.gite | apply Only.gdite | apply odSet_parts
      | apply clamped_parts | (intro _) | split)

theorem onlyOne_parts {pl : List Part} {sa sb : State} (src : Route) (index : Nat) (sub : Nat) (v : Nat)
    (hp : [.dict, .host, .sent] ⊆ pl) (hk : Only pl sa sb) :
    Only pl sa (onlyOne src index sub v sb) := by
  unfold onlyOne
  try dsimp only
  repeat'
    with_reducible (first
      | assumption | exact List.Subset.trans (by decide) hp | apply Only.gite | apply Only.gdite | apply clamped_parts
      | (intro _) | split)

theorem reportClamps_parts {pl : List Part} {sa sb : State} (src : Route) (index : Nat) (sub : Nat)
    (l : List (Nat × Nat × Nat)) (hp : [.dict, .host, .sent] ⊆ pl) (hk : Only pl sa sb) :
    Only pl sa (reportClamps src index sub l sb) := by
  unfold reportClamps
  try dsimp only
  repeat'
    with_reducible (first
      | assumption | exact List.Subset.trans (by decide) hp | apply Only.gite | apply Only.gdite | apply clamped_parts
      | apply Only.foldl | apply Only.foldl_snd | apply Only.foldl_fst | (intro _) | split)

theorem keepTwo_parts {pl : List Part} {sa sb : State} (src : Route) (index : Nat) (sub : Nat) (w : Nat) (v : Nat)
    (first : Nat) (second : Nat) (hp : [.dict, .host, .sent] ⊆ pl) (hk : Only pl sa sb) :
    Only pl sa (keepTwo src index sub w v first second sb) := by
  unfold keepTwo
  try dsimp only
  repeat'
    with_reducible (first
      | assumption | exact List.Subset.trans (by decide) hp | apply Only.gite | apply Only.gdite | apply odSet_parts
      | apply clamped_parts | (intro _) | split)

theorem keepArm_parts {pl : List Part} {sa sb : State} (src : Route) (index : Nat) (sub : Nat) (v : Nat) (kept : Nat)
    (hp : [.dict, .host, .sent] ⊆ pl) (hk : Only pl sa sb) :
    Only pl sa (keepArm src index sub v kept sb) := by
  unfold keepArm
  try dsimp only
  repeat'
    with_reducible (first
      | assumption | exact List.Subset.trans (by decide) hp | apply Only.gite | apply Only.gdite | apply odSet_parts
      | apply clamped_parts | (intro _) | split)

theorem flushLog_parts {pl : List Part} {sa sb : State} (hp : [.dict, .host, .can, .log, .pwr, .sent] ⊆ pl)
    (hk : Only pl sa sb) :
    Only pl sa (flushLog sb) := by
  unfold flushLog
  try dsimp only
  repeat'
    with_reducible (first
      | assumption | exact List.Subset.trans (by decide) hp | apply Only.gite | apply Only.gdite | apply log_parts
      | (intro _) | split | refine Only.log_upd (partMem hp (by decide)) ?_)

theorem emcy_parts {pl : List Part} {sa sb : State} (err : Nat) (code : Nat) (seq : Nat) (hp : [.dict, .can, .sent] ⊆ pl)
    (hk : Only pl sa sb) :
    Only pl sa (emcy err code seq sb) := by
  unfold emcy
  try dsimp only
  repeat'
    with_reducible (first
      | assumption | exact List.Subset.trans (by decide) hp | apply Only.gite | apply Only.gdite | apply bump_parts
      | apply emit_parts | (intro _) | split | refine Only.can_upd (partMem hp (by decide)) ?_)

theorem lookAlert_parts {pl : List Part} {sa sb : State} (hp : [.dict, .host, .can, .pwr, .sent] ⊆ pl)
    (hk : Only pl sa sb) :
    Only pl sa (lookAlert sb) := by
  unfold lookAlert
  try dsimp only
  repeat'
    with_reducible (first
      | assumption | exact List.Subset.trans (by decide) hp | apply Only.gite | apply Only.gdite | apply raiseCause_parts
      | apply emcy_parts | (intro _) | split | refine Only.can_upd (partMem hp (by decide)) ?_
      | refine Only.pwr_upd (partMem hp (by decide)) ?_)

theorem event_parts {pl : List Part} {sa sb : State} (code : Nat) (tenant : Nat) (detail : List Nat)
    (hp : [.dict, .host, .can, .log, .pwr, .sent] ⊆ pl) (hk : Only pl sa sb) :
    Only pl sa (event code tenant detail sb) := by
  unfold event
  try dsimp only
  repeat'
    with_reducible (first
      | assumption | exact List.Subset.trans (by decide) hp | apply Only.gite | apply Only.gdite | apply log_parts
      | apply bump_parts | apply flushLog_parts | apply emcy_parts | apply raiseCause_parts | apply emit_parts
      | apply lookAlert_parts | (intro _) | split | refine Only.log_upd (partMem hp (by decide)) ?_)

theorem log_parts {pl : List Part} {sa sb : State} (code : Nat) (detail : List Nat)
    (hp : [.dict, .host, .can, .log, .pwr, .sent] ⊆ pl) (hk : Only pl sa sb) :
    Only pl sa (log code detail sb) := by
  unfold log
  try dsimp only
  repeat'
    with_reducible (first
      | assumption | exact List.Subset.trans (by decide) hp | apply Only.gite | apply Only.gdite | apply event_parts
      | (intro _) | split)

end Sys2Proof.Machine
end

