-- ==== Sys2Proof/Laws/OnlyMemory.lean ====
section
/-! SUPPORT. What the operations of Machine/Memory.lean may change. -/

namespace Sys2Proof.Machine

open Sys2Proof

set_option linter.unusedTactic false
set_option linter.unreachableTactic false

theorem modChan_parts {pl : List Part} {sa sb : State} (k : Nat) (f : Chan → Chan) (hp : [.mem] ⊆ pl)
    (hk : Only pl sa sb) :
    Only pl sa (modChan k f sb) := by
  unfold modChan
  try dsimp only
  repeat'
    with_reducible (first
      | assumption | exact List.Subset.trans (by decide) hp | apply Only.gite | apply Only.gdite | (intro _) | split
      | refine Only.mem_upd (partMem hp (by decide)) ?_)

theorem countRefusal_parts {pl : List Part} {sa sb : State} (detail : Nat) (hp : [.dict] ⊆ pl) (hk : Only pl sa sb) :
    Only pl sa (countRefusal detail sb) := by
  unfold countRefusal
  try dsimp only
  repeat'
    with_reducible (first
      | assumption | exact List.Subset.trans (by decide) hp | apply Only.gite | apply Only.gdite | apply bump_parts
      | (intro _) | split)

theorem touchLine_parts {pl : List Part} {sa sb : State} (line : Nat) (write : Bool) (t : TenantKey) (hp : [.mem] ⊆ pl)
    (hk : Only pl sa sb) :
    Only pl sa (touchLine line write t sb) := by
  unfold touchLine
  try dsimp only
  repeat'
    with_reducible (first
      | assumption | exact List.Subset.trans (by decide) hp | apply Only.gite | apply Only.gdite | apply modChan_parts
      | (intro _) | split)

theorem countBad_parts {pl : List Part} {sa sb : State} (line : Nat) (hp : [.dict, .host, .can, .log, .pwr, .sent] ⊆ pl)
    (hk : Only pl sa sb) :
    Only pl sa (countBad line sb) := by
  unfold countBad
  try dsimp only
  repeat'
    with_reducible (first
      | assumption | exact List.Subset.trans (by decide) hp | apply Only.gite | apply Only.gdite | apply log_parts
      | apply bump_parts | (intro _) | split)

theorem readLine_parts {pl : List Part} {sa sb : State} (line : Nat) (t : TenantKey)
    (hp : [.mem, .dict, .host, .can, .log, .pwr, .sent] ⊆ pl) (hk : Only pl sa sb) :
    Only pl sa (readLine line t sb).2 := by
  unfold readLine
  try dsimp only
  repeat'
    with_reducible (first
      | assumption | exact List.Subset.trans (by decide) hp | apply Only.gite | apply Only.gdite | apply touchLine_parts
      | apply countBad_parts | (intro _) | split)

theorem putLine_parts {pl : List Part} {sa sb : State} (line : Nat) (mask : Nat) (b : Bytes) (hp : [.bep, .mem] ⊆ pl) (hk : Only pl sa sb) :
    Only pl sa (putLine line mask b sb) := by
  intro p hn
  have g := hk p hn
  cases p <;> first | exact absurd (partMem hp (by decide)) hn | exact g

theorem writeLine_parts {pl : List Part} {sa sb : State} (line : Nat) (mask : Nat) (b : Bytes) (t : TenantKey)
    (hp : [.bep, .mem, .dict, .host, .can, .log, .pwr, .sent] ⊆ pl) (hk : Only pl sa sb) :
    Only pl sa (writeLine line mask b t sb).2 := by
  unfold writeLine
  try dsimp only
  repeat'
    with_reducible (first
      | assumption | exact List.Subset.trans (by decide) hp | apply Only.gite | apply Only.gdite | apply touchLine_parts
      | apply putLine_parts | apply countBad_parts | (intro _) | split | refine Only.mem_upd (partMem hp (by decide)) ?_)

theorem clearRegion_parts {pl : List Part} {sa sb : State} (off : Nat) (n : Nat) (hp : [.bep, .mem] ⊆ pl) (hk : Only pl sa sb) :
    Only pl sa (clearRegion off n sb) := by
  intro p hn
  have g := hk p hn
  cases p <;> first | exact absurd (partMem hp (by decide)) hn | exact g

theorem writeRun_parts {pl : List Part} {sa sb : State} (off : Nat) (b : Bytes) (t : TenantKey)
    (hp : [.bep, .mem, .dict, .host, .can, .log, .pwr, .sent] ⊆ pl) (hk : Only pl sa sb) :
    Only pl sa (writeRun off b t sb).2 := by
  unfold writeRun
  try dsimp only
  repeat'
    with_reducible (first
      | assumption | exact List.Subset.trans (by decide) hp | apply Only.gite | apply Only.gdite | apply writeLine_parts
      | apply Only.foldl | apply Only.foldl_snd | apply Only.foldl_fst | (intro _) | split)

end Sys2Proof.Machine
end

