-- ==== Sys2Proof/Laws/OnlyScope.lean ====
section
/-! SUPPORT. What the operations of Machine/Scope.lean may change. -/

namespace Sys2Proof.Machine

open Sys2Proof

set_option linter.unusedTactic false
set_option linter.unreachableTactic false

theorem recordRelease_parts {pl : List Part} {sa sb : State} (line : Nat) (scope : Nat) (who : Agent) (hp : [.bep] ⊆ pl)
    (hk : Only pl sa sb) :
    Only pl sa (recordRelease line scope who sb) := by
  unfold recordRelease
  try dsimp only
  repeat'
    with_reducible (first
      | assumption | exact List.Subset.trans (by decide) hp | apply Only.gite | apply Only.gdite | (intro _) | split
      | refine Only.bep_upd (partMem hp (by decide)) ?_)

theorem checkAcquire_parts {pl : List Part} {sa sb : State} (line : Nat) (scope : Nat) (tenant : Nat) (who : Agent)
    (hp : [.dict, .host, .can, .log, .pwr, .sent] ⊆ pl) (hk : Only pl sa sb) :
    Only pl sa (checkAcquire line scope tenant who sb).2 := by
  unfold checkAcquire
  try dsimp only
  repeat'
    with_reducible (first
      | assumption | exact List.Subset.trans (by decide) hp | apply Only.gite | apply Only.gdite | apply event_parts
      | apply bump_parts | (intro _) | split)

end Sys2Proof.Machine
end

