-- ==== Sys2Proof/Laws/OnlyBep.lean ====
section
/-! SUPPORT. What the operations of Machine/Bep.lean may change. -/

namespace Sys2Proof.Machine

open Sys2Proof

set_option linter.unusedTactic false
set_option linter.unreachableTactic false

theorem bepSend_parts {pl : List Part} {sa sb : State} (c : Cell) (hp : [.bep] ⊆ pl) (hk : Only pl sa sb) :
    Only pl sa (bepSend c sb) := by
  unfold bepSend
  try dsimp only
  repeat'
    with_reducible (first
      | assumption | exact List.Subset.trans (by decide) hp | apply Only.gite | apply Only.gdite | (intro _) | split
      | refine Only.bep_upd (partMem hp (by decide)) ?_)

theorem closeRun_parts {pl : List Part} {sa sb : State} (src : Nat) (hp : [.bep, .dict] ⊆ pl) (hk : Only pl sa sb) :
    Only pl sa (closeRun src sb) := by
  unfold closeRun
  try dsimp only
  repeat'
    with_reducible (first
      | assumption | exact List.Subset.trans (by decide) hp | apply Only.gite | apply Only.gdite | apply bepSend_parts
      | apply bumpN_parts | apply bump_parts | (intro _) | split | refine Only.bep_upd (partMem hp (by decide)) ?_)

theorem ackRequest_parts {pl : List Part} {sa sb : State} (c : Cell) (hp : [.bep, .dict] ⊆ pl) (hk : Only pl sa sb) :
    Only pl sa (ackRequest c sb) := by
  unfold ackRequest
  try dsimp only
  repeat'
    with_reducible (first
      | assumption | exact List.Subset.trans (by decide) hp | apply Only.gite | apply Only.gdite | apply closeRun_parts
      | (intro _) | split | refine Only.bep_upd (partMem hp (by decide)) ?_)

theorem refuseCell_parts {pl : List Part} {sa sb : State} (c : Cell) (answer : Cell) (hp : [.bep, .dict] ⊆ pl)
    (hk : Only pl sa sb) :
    Only pl sa (refuseCell c answer sb) := by
  unfold refuseCell
  try dsimp only
  repeat'
    with_reducible (first
      | assumption | exact List.Subset.trans (by decide) hp | apply Only.gite | apply Only.gdite | apply bepSend_parts
      | apply closeRun_parts | (intro _) | split)

theorem destErr_parts {pl : List Part} {sa sb : State} (c : Cell) (code : Nat) (detail : Nat) (hp : [.bep, .dict] ⊆ pl)
    (hk : Only pl sa sb) :
    Only pl sa (destErr c code detail sb) := by
  unfold destErr
  try dsimp only
  repeat'
    with_reducible (first
      | assumption | exact List.Subset.trans (by decide) hp | apply Only.gite | apply Only.gdite | apply refuseCell_parts
      | apply countRefusal_parts | (intro _) | split)

theorem sendLines_parts {pl : List Part} {sa sb : State} (c : Cell) (scope : Bool) (k : Nat) (n : Nat) (fuel : Nat)
    (hp : [.bep, .mem, .dict, .host, .can, .log, .pwr, .sent] ⊆ pl) (hk : Only pl sa sb) :
    Only pl sa (sendLines c scope k n fuel sb) := by
  induction fuel generalizing k n sb with
  | zero => exact hk
  | succ fuel ih =>
    unfold sendLines
    try dsimp only
    repeat'
      with_reducible (first
        | assumption | exact List.Subset.trans (by decide) hp | apply Only.gite | apply ih | apply destErr_parts
        | apply bepSend_parts | apply readLine_parts | (intro _) | split)

theorem applyRead_parts {pl : List Part} {sa sb : State} (c : Cell)
    (hp : [.bep, .mem, .dict, .host, .can, .log, .pwr, .sent] ⊆ pl) (hk : Only pl sa sb) :
    Only pl sa (applyRead c sb) := by
  unfold applyRead
  try dsimp only
  repeat'
    with_reducible (first
      | assumption | exact List.Subset.trans (by decide) hp | apply Only.gite | apply Only.gdite | apply destErr_parts
      | apply checkAcquire_parts | apply sendLines_parts | (intro _) | split)

theorem applyStore_parts {pl : List Part} {sa sb : State} (c : Cell)
    (hp : [.bep, .mem, .dict, .host, .can, .log, .pwr, .sent] ⊆ pl) (hk : Only pl sa sb) :
    Only pl sa (applyStore c sb) := by
  unfold applyStore
  try dsimp only
  repeat'
    with_reducible (first
      | assumption | exact List.Subset.trans (by decide) hp | apply Only.gite | apply Only.gdite | apply destErr_parts
      | apply ackRequest_parts | apply writeLine_parts | apply recordRelease_parts | apply Only.foldl | apply Only.foldl_snd
      | apply Only.foldl_fst | (intro _) | split)

theorem atAnswer_parts {pl : List Part} {sa sb : State} (c : Cell) (old : Nat) (hp : [.bep, .dict] ⊆ pl)
    (hk : Only pl sa sb) :
    Only pl sa (atAnswer c old sb) := by
  unfold atAnswer
  try dsimp only
  repeat'
    with_reducible (first
      | assumption | exact List.Subset.trans (by decide) hp | apply Only.gite | apply Only.gdite | apply bepSend_parts
      | apply bump_parts | apply closeRun_parts | (intro _) | split)

theorem atomicOn_parts {pl : List Part} {sa sb : State} (c : Cell) (b : Bytes) (s0 : State) (hp : [.bep, .mem, .dict, .host, .can, .log, .pwr, .sent] ⊆ pl)
    (hk : Only pl sa sb) : Only pl sa (atomicOn c b s0 sb).2 := by
  unfold atomicOn
  dsimp only
  split
  · exact Only.bep_upd (partMem hp (by decide)) (writeLine_parts _ _ _ _ (List.Subset.trans (by decide) hp) hk)
  · apply Only.gite
    · exact fun _ => bump_parts _ _ (List.Subset.trans (by decide) hp) (writeLine_parts _ _ _ _ (List.Subset.trans (by decide) hp) hk)
    · exact fun _ => writeLine_parts _ _ _ _ (List.Subset.trans (by decide) hp) hk

theorem applyAtomic_parts {pl : List Part} {sa sb : State} (c : Cell) (hp : [.bep, .mem, .dict, .host, .can, .log, .pwr, .sent] ⊆ pl) (hk : Only pl sa sb) :
    Only pl sa (applyAtomic c sb) := by
  unfold applyAtomic
  apply Only.gite
  · exact fun _ => destErr_parts _ _ _ (List.Subset.trans (by decide) hp) hk
  · intro _
    split
    · exact destErr_parts _ _ _ (List.Subset.trans (by decide) hp) hk
    · dsimp only
      split
      all_goals
        repeat'
          with_reducible (first
            | assumption | exact List.Subset.trans (by decide) hp | apply destErr_parts | apply atAnswer_parts | apply atomicOn_parts
            | apply readLine_parts)

theorem applyRequest_parts {pl : List Part} {sa sb : State} (c : Cell)
    (hp : [.bep, .mem, .dict, .host, .can, .log, .pwr, .sent] ⊆ pl) (hk : Only pl sa sb) :
    Only pl sa (applyRequest c sb) := by
  unfold applyRequest
  try dsimp only
  repeat'
    with_reducible (first
      | assumption | exact List.Subset.trans (by decide) hp | apply Only.gite | apply Only.gdite | apply applyRead_parts
      | apply applyAtomic_parts | apply ackRequest_parts | apply applyStore_parts | (intro _) | split)

theorem setTally_parts {pl : List Part} {sa sb : State} (src : Nat) (t : Tally) (hp : [.bep] ⊆ pl) (hk : Only pl sa sb) :
    Only pl sa (setTally src t sb) := by
  unfold setTally
  try dsimp only
  repeat'
    with_reducible (first
      | assumption | exact List.Subset.trans (by decide) hp | apply Only.gite | apply Only.gdite | (intro _) | split
      | refine Only.bep_upd (partMem hp (by decide)) ?_)

theorem holdFull_parts {pl : List Part} {sa sb : State} (c : Cell) (detail : Nat) (hp : [.bep, .dict] ⊆ pl)
    (hk : Only pl sa sb) :
    Only pl sa (holdFull c detail sb) := by
  unfold holdFull
  try dsimp only
  repeat'
    with_reducible (first
      | assumption | exact List.Subset.trans (by decide) hp | apply Only.gite | apply Only.gdite | apply refuseCell_parts
      | apply bump_parts | (intro _) | split)

theorem enterRefusal_parts {pl : List Part} {sa sb : State} (src : Nat) (hp : [.bep, .dict] ⊆ pl) (hk : Only pl sa sb) :
    Only pl sa (enterRefusal src sb) := by
  unfold enterRefusal
  try dsimp only
  repeat'
    with_reducible (first
      | assumption | exact List.Subset.trans (by decide) hp | apply Only.gite | apply Only.gdite | apply bump_parts
      | apply setTally_parts | (intro _) | split)

theorem noRoom_parts {pl : List Part} {sa sb : State} (c : Cell) (hp : [.bep, .dict] ⊆ pl) (hk : Only pl sa sb) :
    Only pl sa (noRoom c sb) := by
  unfold noRoom
  try dsimp only
  repeat'
    with_reducible (first
      | assumption | exact List.Subset.trans (by decide) hp | apply Only.gite | apply Only.gdite | apply enterRefusal_parts
      | apply holdFull_parts | (intro _) | split)

theorem drainHeld_parts {pl : List Part} {sa sb : State} (src : Nat) (fuel : Nat) (hp : [.bep, .mem, .dict, .host, .can, .log, .pwr, .sent] ⊆ pl) (hk : Only pl sa sb) :
    Only pl sa (drainHeld src fuel sb) := by
  induction fuel generalizing sb with
  | zero => exact hk
  | succ fuel ih =>
    unfold drainHeld
    dsimp only
    split
    · apply Only.gite
      · exact fun _ => ih (applyRequest_parts _ (List.Subset.trans (by decide) hp) (setTally_parts _ _ (List.Subset.trans (by decide) hp) hk))
      · exact fun _ => hk
    · split
      · exact hk
      · apply Only.gite
        · exact fun _ => ih (setTally_parts _ _ (List.Subset.trans (by decide) hp) (Only.gite (fun _ => hk) (fun _ => bump_parts _ _ (List.Subset.trans (by decide) hp) hk)))
        · exact fun _ => ih (applyRequest_parts _ (List.Subset.trans (by decide) hp) (setTally_parts _ _ (List.Subset.trans (by decide) hp) hk))

theorem serveFence_parts {pl : List Part} {sa sb : State} (src : Nat) (hp : [.bep, .dict] ⊆ pl) (hk : Only pl sa sb) :
    Only pl sa (serveFence src sb) := by
  unfold serveFence
  try dsimp only
  repeat'
    with_reducible (first
      | assumption | exact List.Subset.trans (by decide) hp | apply Only.gite | apply Only.gdite | apply fence_parts
      | apply ackRequest_parts | apply setTally_parts | (intro _) | split)

theorem holdBehind_parts {pl : List Part} {sa sb : State} (c : Cell)
    (hp : [.bep, .mem, .dict, .host, .can, .log, .pwr, .sent] ⊆ pl) (hk : Only pl sa sb) :
    Only pl sa (holdBehind c sb) := by
  unfold holdBehind
  try dsimp only
  repeat'
    with_reducible (first
      | assumption | exact List.Subset.trans (by decide) hp | apply Only.gite | apply Only.gdite | apply noRoom_parts
      | apply setTally_parts | apply serveFence_parts | apply drainHeld_parts | (intro _) | split)

theorem fence_parts {pl : List Part} {sa sb : State} (c : Cell) (hp : [.bep, .dict] ⊆ pl) (hk : Only pl sa sb) :
    Only pl sa (fence c sb) := by
  unfold fence
  try dsimp only
  repeat'
    with_reducible (first
      | assumption | exact List.Subset.trans (by decide) hp | apply Only.gite | apply Only.gdite | apply setTally_parts
      | apply ackRequest_parts | apply noRoom_parts | (intro _) | split)

theorem destRequest_parts {pl : List Part} {sa sb : State} (c : Cell)
    (hp : [.bep, .mem, .dict, .host, .can, .log, .pwr, .sent] ⊆ pl) (hk : Only pl sa sb) :
    Only pl sa (destRequest c sb) := by
  unfold destRequest
  try dsimp only
  repeat'
    with_reducible (first
      | assumption | exact List.Subset.trans (by decide) hp | apply Only.gite | apply Only.gdite | apply fence_parts
      | apply holdFull_parts | apply holdBehind_parts | apply applyRequest_parts | apply setTally_parts | apply noRoom_parts
      | apply bump_parts | (intro _) | split)

theorem serveRequest_parts {pl : List Part} {sa sb : State} (c : Cell)
    (hp : [.bep, .mem, .dict, .host, .can, .log, .lantern, .pwr, .sent] ⊆ pl) (hk : Only pl sa sb) :
    Only pl sa (serveRequest c sb) := by
  unfold serveRequest
  try dsimp only
  repeat'
    with_reducible (first
      | assumption | exact List.Subset.trans (by decide) hp | apply Only.gite | apply Only.gdite | apply destRequest_parts
      | apply progress_parts | (intro _) | split | refine Only.bep_upd (partMem hp (by decide)) ?_)

theorem holdTimeout_parts {pl : List Part} {sa sb : State} (src : Nat) (hp : [.bep, .dict] ⊆ pl) (hk : Only pl sa sb) :
    Only pl sa (holdTimeout src sb) := by
  unfold holdTimeout
  try dsimp only
  repeat'
    with_reducible (first
      | assumption | exact List.Subset.trans (by decide) hp | apply Only.gite | apply Only.gdite | apply setTally_parts
      | apply holdFull_parts | apply serveFence_parts | apply enterRefusal_parts | apply Only.foldl | apply Only.foldl_snd
      | apply Only.foldl_fst | (intro _) | split)

theorem exactRegionWrite_parts {pl : List Part} {sa sb : State} (src : Route) (k : Nat) (v : Nat)
    (hp : [.bep, .dict, .host, .sent] ⊆ pl) (hk : Only pl sa sb) :
    Only pl sa (exactRegionWrite src k v sb) := by
  unfold exactRegionWrite
  try dsimp only
  repeat'
    with_reducible (first
      | assumption | exact List.Subset.trans (by decide) hp | apply Only.gite | apply Only.gdite | apply beginOp_parts
      | apply odSet_parts | apply reportClamps_parts | (intro _) | split | refine Only.bep_upd (partMem hp (by decide)) ?_)

end Sys2Proof.Machine
end

