-- ==== Sys2Proof/Laws/OnlyContexts.lean ====
section
/-! SUPPORT. What the operations of Machine/Contexts.lean may change. -/

namespace Sys2Proof.Machine

open Sys2Proof

set_option linter.unusedTactic false
set_option linter.unreachableTactic false

theorem setCtx_parts {pl : List Part} {sa sb : State} (k : Nat) (c : Ctx) (hp : [.cmp] ⊆ pl) (hk : Only pl sa sb) :
    Only pl sa (setCtx k c sb) := by
  unfold setCtx
  try dsimp only
  repeat'
    with_reducible (first
      | assumption | exact List.Subset.trans (by decide) hp | apply Only.gite | apply Only.gdite | (intro _) | split
      | refine Only.cmp_upd (partMem hp (by decide)) ?_)

theorem modCtx_parts {pl : List Part} {sa sb : State} (k : Nat) (f : Ctx → Ctx) (hp : [.cmp] ⊆ pl) (hk : Only pl sa sb) :
    Only pl sa (modCtx k f sb) := by
  unfold modCtx
  try dsimp only
  repeat'
    with_reducible (first
      | assumption | exact List.Subset.trans (by decide) hp | apply Only.gite | apply Only.gdite | apply setCtx_parts
      | (intro _) | split)

theorem modStream_parts {pl : List Part} {sa sb : State} (k : Nat) (e : Nat) (f : Stream → Stream) (hp : [.cmp] ⊆ pl)
    (hk : Only pl sa sb) :
    Only pl sa (modStream k e f sb) := by
  unfold modStream
  try dsimp only
  repeat'
    with_reducible (first
      | assumption | exact List.Subset.trans (by decide) hp | apply Only.gite | apply Only.gdite | apply modCtx_parts
      | (intro _) | split)

theorem enterFaulted_parts {pl : List Part} {sa sb : State} (k : Nat) (code : Nat) (detail : Nat) (hp : [.cmp, .dict, .host, .can, .log, .pwr, .sent] ⊆ pl)
    (hk : Only pl sa sb) : Only pl sa (enterFaulted k code detail sb) := by
  unfold enterFaulted
  apply Only.gite
  · intro _
    apply event_parts _ _ _ (List.Subset.trans (by decide) hp)
    apply bump_parts _ _ (List.Subset.trans (by decide) hp)
    split
    · exact bump_parts _ _ (List.Subset.trans (by decide) hp) (setCtx_parts _ _ (List.Subset.trans (by decide) hp) hk)
    · exact setCtx_parts _ _ (List.Subset.trans (by decide) hp) hk
  · exact fun _ => hk

theorem loseGang_parts {pl : List Part} {sa sb : State} (k : Nat)
    (hp : [.cmp, .dict, .host, .can, .log, .pwr, .sent] ⊆ pl) (hk : Only pl sa sb) :
    Only pl sa (loseGang k sb) := by
  unfold loseGang
  try dsimp only
  repeat'
    with_reducible (first
      | assumption | exact List.Subset.trans (by decide) hp | apply Only.gite | apply Only.gdite | apply modCtx_parts
      | apply enterFaulted_parts | apply Only.foldl | apply Only.foldl_snd | apply Only.foldl_fst | (intro _) | split)

theorem ctxFault_parts {pl : List Part} {sa sb : State} (k : Nat) (code : Nat) (detail : Nat)
    (hp : [.cmp, .dict, .host, .can, .log, .pwr, .sent] ⊆ pl) (hk : Only pl sa sb) :
    Only pl sa (ctxFault k code detail sb) := by
  unfold ctxFault
  try dsimp only
  repeat'
    with_reducible (first
      | assumption | exact List.Subset.trans (by decide) hp | apply Only.gite | apply Only.gdite | apply loseGang_parts
      | apply enterFaulted_parts | (intro _) | split)

theorem ctxScope_parts {pl : List Part} {sa sb : State} (k : Nat) (addr : Nat)
    (hp : [.cmp, .dict, .host, .can, .log, .pwr, .sent] ⊆ pl) (hk : Only pl sa sb) :
    Only pl sa (ctxScope k addr sb) := by
  unfold ctxScope
  try dsimp only
  repeat'
    with_reducible (first
      | assumption | exact List.Subset.trans (by decide) hp | apply Only.gite | apply Only.gdite | apply bump_parts
      | apply modCtx_parts | apply ctxFault_parts | (intro _) | split)

theorem pollAnswer_parts {pl : List Part} {sa sb : State} (k : Nat) (line : Bytes) (hp : [.cmp] ⊆ pl)
    (hk : Only pl sa sb) :
    Only pl sa (pollAnswer k line sb) := by
  unfold pollAnswer
  try dsimp only
  repeat'
    with_reducible (first
      | assumption | exact List.Subset.trans (by decide) hp | apply Only.gite | apply Only.gdite | apply modCtx_parts
      | (intro _) | split)

end Sys2Proof.Machine
end

