-- ==== Sys2Proof/Laws/OnlySource.lean ====
section
/-! SUPPORT. What the operations of Machine/Source.lean may change. -/

namespace Sys2Proof.Machine

open Sys2Proof

set_option linter.unusedTactic false
set_option linter.unreachableTactic false

theorem modCopy_parts {pl : List Part} {sa sb : State} (k : Nat) (f : Copy → Copy) (hp : [.cmp] ⊆ pl)
    (hk : Only pl sa sb) :
    Only pl sa (modCopy k f sb) := by
  unfold modCopy
  try dsimp only
  repeat'
    with_reducible (first
      | assumption | exact List.Subset.trans (by decide) hp | apply Only.gite | apply Only.gdite | apply modCtx_parts
      | (intro _) | split)

theorem copyFailed_parts {pl : List Part} {sa sb : State} (k : Nat) (read : Bool) (st : Status) (detail : Nat)
    (hp : [.cmp, .dict, .host, .can, .log, .pwr, .sent] ⊆ pl) (hk : Only pl sa sb) :
    Only pl sa (copyFailed k read st detail sb) := by
  unfold copyFailed
  try dsimp only
  repeat'
    with_reducible (first
      | assumption | exact List.Subset.trans (by decide) hp | apply Only.gite | apply Only.gdite | apply modCopy_parts
      | apply ctxFault_parts | (intro _) | split)

theorem failUse_parts {pl : List Part} {sa sb : State} (use : Use) (cmd : BepCommand) (st : Status)
    (hp : [.bep, .cmp, .dict, .host, .can, .log, .pwr, .sent] ⊆ pl) (hk : Only pl sa sb) :
    Only pl sa (failUse use cmd st sb) := by
  unfold failUse
  try dsimp only
  repeat'
    with_reducible (first
      | assumption | exact List.Subset.trans (by decide) hp | apply Only.gite | apply Only.gdite | apply emit_parts
      | apply ctxFault_parts | apply copyFailed_parts | apply modCtx_parts | apply fence_parts | apply Only.foldl
      | apply Only.foldl_snd | apply Only.foldl_fst | (intro _) | split)

theorem refusePerm_parts {pl : List Part} {sa sb : State} (c : EpCmd)
    (hp : [.bep, .cmp, .dict, .host, .can, .log, .pwr, .sent] ⊆ pl) (hk : Only pl sa sb) :
    Only pl sa (refusePerm c sb) := by
  unfold refusePerm
  try dsimp only
  repeat'
    with_reducible (first
      | assumption | exact List.Subset.trans (by decide) hp | apply Only.gite | apply Only.gdite | apply failUse_parts
      | apply bump_parts | (intro _) | split)

theorem decreaseWindow_parts {pl : List Part} {sa sb : State} (dest : BitVec 16) (m : Nat) (hp : [.ep, .dict] ⊆ pl)
    (hk : Only pl sa sb) :
    Only pl sa (decreaseWindow dest m sb) := by
  unfold decreaseWindow
  try dsimp only
  repeat'
    with_reducible (first
      | assumption | exact List.Subset.trans (by decide) hp | apply Only.gite | apply Only.gdite | apply bump_parts
      | (intro _) | split | refine Only.ep_upd (partMem hp (by decide)) ?_)

theorem growWindow_parts {pl : List Part} {sa sb : State} (dest : BitVec 16) (n : Nat) (hp : [.ep] ⊆ pl)
    (hk : Only pl sa sb) :
    Only pl sa (growWindow dest n sb) := by
  unfold growWindow
  try dsimp only
  repeat'
    with_reducible (first
      | assumption | exact List.Subset.trans (by decide) hp | apply Only.gite | apply Only.gdite | apply Only.foldl
      | apply Only.foldl_snd | apply Only.foldl_fst | (intro _) | split | refine Only.ep_upd (partMem hp (by decide)) ?_)

theorem reactMark_parts {pl : List Part} {sa sb : State} (dest : BitVec 16) (m : Nat) (ended : List Req)
    (hp : [.ep, .dict] ⊆ pl) (hk : Only pl sa sb) :
    Only pl sa (reactMark dest m ended sb) := by
  unfold reactMark
  try dsimp only
  repeat'
    with_reducible (first
      | assumption | exact List.Subset.trans (by decide) hp | apply Only.gite | apply Only.gdite | apply growWindow_parts
      | apply decreaseWindow_parts | (intro _) | split)

theorem tagUsed_parts {pl : List Part} {sa sb : State} (tag : Nat) (hp : [.ep, .grotto] ⊆ pl) (hk : Only pl sa sb) :
    Only pl sa (tagUsed tag sb) := by
  unfold tagUsed
  try dsimp only
  repeat'
    with_reducible (first
      | assumption | exact List.Subset.trans (by decide) hp | apply Only.gite | apply Only.gdite | (intro _) | split
      | refine Only.ep_upd (partMem hp (by decide)) ?_ | refine Only.grotto_upd (partMem hp (by decide)) ?_)

theorem setCount_parts {pl : List Part} {sa sb : State} (dest : Nat) (n : Nat) (hp : [.ep] ⊆ pl) (hk : Only pl sa sb) :
    Only pl sa (setCount dest n sb) := by
  unfold setCount
  try dsimp only
  repeat'
    with_reducible (first
      | assumption | exact List.Subset.trans (by decide) hp | apply Only.gite | apply Only.gdite | (intro _) | split
      | refine Only.ep_upd (partMem hp (by decide)) ?_)

theorem launch_parts {pl : List Part} {sa sb : State} (cell : Cell) (cmd : BepCommand) (use : Use) (hp : [.bep, .ep] ⊆ pl)
    (hk : Only pl sa sb) :
    Only pl sa (launch cell cmd use sb) := by
  unfold launch
  try dsimp only
  repeat'
    with_reducible (first
      | assumption | exact List.Subset.trans (by decide) hp | apply Only.gite | apply Only.gdite | apply bepSend_parts
      | (intro _) | split | refine Only.ep_upd (partMem hp (by decide)) ?_)

theorem passFences_parts {pl : List Part} {sa sb : State} (tag : Option Nat) (hp : [.ep] ⊆ pl) (hk : Only pl sa sb) :
    Only pl sa (passFences tag sb) := by
  unfold passFences
  try dsimp only
  repeat'
    with_reducible (first
      | assumption | exact List.Subset.trans (by decide) hp | apply Only.gite | apply Only.gdite | (intro _) | split
      | refine Only.ep_upd (partMem hp (by decide)) ?_)

theorem sendCmd_parts {pl : List Part} {sa sb : State} (c : EpCmd) (hp : [.bep, .ep, .grotto] ⊆ pl) (hk : Only pl sa sb) :
    Only pl sa (sendCmd c sb) := by
  unfold sendCmd
  try dsimp only
  repeat'
    with_reducible (first
      | assumption | exact List.Subset.trans (by decide) hp | apply Only.gite | apply Only.gdite | apply setCount_parts
      | apply passFences_parts | apply launch_parts | apply tagUsed_parts | (intro _) | split
      | refine Only.ep_upd (partMem hp (by decide)) ?_)

theorem sendWaiting_parts {pl : List Part} {sa sb : State} (fuel : Nat) (hp : [.bep, .ep, .grotto, .cmp, .dict, .host, .can, .log, .pwr, .sent] ⊆ pl) (hk : Only pl sa sb) :
    Only pl sa (sendWaiting fuel sb) := by
  induction fuel generalizing sb with
  | zero => exact hk
  | succ fuel ih =>
    unfold sendWaiting
    split
    · exact hk
    · apply Only.gite
      · exact fun _ => ih (failUse_parts _ _ _ (List.Subset.trans (by decide) hp) (passFences_parts _ (List.Subset.trans (by decide) hp) (Only.ep_upd (partMem hp (by decide)) hk)))
      · intro _
        apply Only.gite
        · exact fun _ => ih (sendCmd_parts _ (List.Subset.trans (by decide) hp) (Only.ep_upd (partMem hp (by decide)) hk))
        · exact fun _ => hk

theorem pump_parts {pl : List Part} {sa sb : State}
    (hp : [.bep, .ep, .grotto, .cmp, .dict, .host, .can, .log, .pwr, .sent] ⊆ pl) (hk : Only pl sa sb) :
    Only pl sa (pump sb) := by
  unfold pump
  try dsimp only
  repeat'
    with_reducible (first
      | assumption | exact List.Subset.trans (by decide) hp | apply Only.gite | apply Only.gdite | apply sendWaiting_parts
      | (intro _) | split)

theorem submit_parts {pl : List Part} {sa sb : State} (c : EpCmd)
    (hp : [.bep, .ep, .grotto, .cmp, .dict, .host, .can, .log, .pwr, .sent] ⊆ pl) (hk : Only pl sa sb) :
    Only pl sa (submit c sb) := by
  unfold submit
  try dsimp only
  repeat'
    with_reducible (first
      | assumption | exact List.Subset.trans (by decide) hp | apply Only.gite | apply Only.gdite | apply failUse_parts
      | apply bump_parts | apply pump_parts | (intro _) | split | refine Only.ep_upd (partMem hp (by decide)) ?_)

theorem waitFill_parts {pl : List Part} {sa sb : State} (c : EpCmd) (hp : [.ep, .sent] ⊆ pl) (hk : Only pl sa sb) :
    Only pl sa (waitFill c sb) := by
  unfold waitFill
  try dsimp only
  repeat'
    with_reducible (first
      | assumption | exact List.Subset.trans (by decide) hp | apply Only.gite | apply Only.gdite | apply emit_parts
      | (intro _) | split | refine Only.ep_upd (partMem hp (by decide)) ?_)

theorem agentCommand_parts {pl : List Part} {sa sb : State} (c : EpCmd)
    (hp : [.bep, .ep, .grotto, .cmp, .dict, .host, .can, .log, .pwr, .sent] ⊆ pl) (hk : Only pl sa sb) :
    Only pl sa (agentCommand c sb) := by
  unfold agentCommand
  try dsimp only
  repeat'
    with_reducible (first
      | assumption | exact List.Subset.trans (by decide) hp | apply Only.gite | apply Only.gdite | apply refusePerm_parts
      | apply waitFill_parts | apply submit_parts | (intro _) | split | refine Only.ep_upd (partMem hp (by decide)) ?_)

theorem sendFen_parts {pl : List Part} {sa sb : State} (dest : BitVec 16) (hp : [.bep, .ep, .grotto, .dict] ⊆ pl)
    (hk : Only pl sa sb) :
    Only pl sa (sendFen dest sb).2 := by
  unfold sendFen
  try dsimp only
  repeat'
    with_reducible (first
      | assumption | exact List.Subset.trans (by decide) hp | apply Only.gite | apply Only.gdite | apply fence_parts
      | apply launch_parts | apply tagUsed_parts | (intro _) | split)

theorem sourceFence_parts {pl : List Part} {sa sb : State} (id : Nat) (hp : [.bep, .ep, .grotto, .dict] ⊆ pl)
    (hk : Only pl sa sb) :
    Only pl sa (sourceFence id sb) := by
  unfold sourceFence
  try dsimp only
  repeat'
    with_reducible (first
      | assumption | exact List.Subset.trans (by decide) hp | apply Only.gite | apply Only.gdite | apply sendFen_parts
      | apply Only.foldl | apply Only.foldl_snd | apply Only.foldl_fst | (intro _) | split
      | refine Only.ep_upd (partMem hp (by decide)) ?_)

theorem sourceFenceComplete_parts {pl : List Part} {sa sb : State} (id : Nat) (hp : [.ep, .sent] ⊆ pl)
    (hk : Only pl sa sb) :
    Only pl sa (sourceFenceComplete id sb) := by
  unfold sourceFenceComplete
  try dsimp only
  repeat'
    with_reducible (first
      | assumption | exact List.Subset.trans (by decide) hp | apply Only.gite | apply Only.gdite | apply emit_parts
      | (intro _) | split | refine Only.ep_upd (partMem hp (by decide)) ?_)

theorem fenceEnd_parts {pl : List Part} {sa sb : State} (tag : Nat) (good : Bool) (hp : [.ep] ⊆ pl) (hk : Only pl sa sb) :
    Only pl sa (fenceEnd tag good sb) := by
  unfold fenceEnd
  try dsimp only
  repeat'
    with_reducible (first
      | assumption | exact List.Subset.trans (by decide) hp | apply Only.gite | apply Only.gdite | (intro _) | split
      | refine Only.ep_upd (partMem hp (by decide)) ?_)

theorem fenceAgain_parts {pl : List Part} {sa sb : State} (tag : Nat) (hp : [.ep] ⊆ pl) (hk : Only pl sa sb) :
    Only pl sa (fenceAgain tag sb) := by
  unfold fenceAgain
  try dsimp only
  repeat'
    with_reducible (first
      | assumption | exact List.Subset.trans (by decide) hp | apply Only.gite | apply Only.gdite | (intro _) | split
      | refine Only.ep_upd (partMem hp (by decide)) ?_)

theorem dropReq_parts {pl : List Part} {sa sb : State} (tag : Nat) (hp : [.ep] ⊆ pl) (hk : Only pl sa sb) :
    Only pl sa (dropReq tag sb) := by
  unfold dropReq
  try dsimp only
  repeat'
    with_reducible (first
      | assumption | exact List.Subset.trans (by decide) hp | apply Only.gite | apply Only.gdite | (intro _) | split
      | refine Only.ep_upd (partMem hp (by decide)) ?_)

theorem endFailed_parts {pl : List Part} {sa sb : State} (tag : Nat) (r : Req) (st : Status)
    (hp : [.bep, .ep, .cmp, .dict, .host, .can, .log, .pwr, .sent] ⊆ pl) (hk : Only pl sa sb) :
    Only pl sa (endFailed tag r st sb) := by
  unfold endFailed
  try dsimp only
  repeat'
    with_reducible (first
      | assumption | exact List.Subset.trans (by decide) hp | apply Only.gite | apply Only.gdite | apply fenceEnd_parts
      | apply dropReq_parts | apply fence_parts | apply failUse_parts | (intro _) | split
      | refine Only.ep_upd (partMem hp (by decide)) ?_)

theorem refusalFence_parts {pl : List Part} {sa sb : State} (dest : BitVec 16) (hp : [.bep, .ep, .grotto, .dict] ⊆ pl)
    (hk : Only pl sa sb) :
    Only pl sa (refusalFence dest sb) := by
  unfold refusalFence
  try dsimp only
  repeat'
    with_reducible (first
      | assumption | exact List.Subset.trans (by decide) hp | apply Only.gite | apply Only.gdite | apply sendFen_parts
      | (intro _) | split | refine Only.ep_upd (partMem hp (by decide)) ?_)

theorem resendRefused_parts {pl : List Part} {sa sb : State} (dest : Nat)
    (hp : [.bep, .ep, .grotto, .cmp, .dict, .host, .can, .log, .pwr, .sent] ⊆ pl) (hk : Only pl sa sb) :
    Only pl sa (resendRefused dest sb) := by
  unfold resendRefused
  try dsimp only
  repeat'
    with_reducible (first
      | assumption | exact List.Subset.trans (by decide) hp | apply Only.gite | apply Only.gdite | apply pump_parts
      | (intro _) | split | refine Only.ep_upd (partMem hp (by decide)) ?_)

theorem refused_parts {pl : List Part} {sa sb : State} (tag : Nat) (r : Req) (hp : [.bep, .ep, .dict] ⊆ pl)
    (hk : Only pl sa sb) :
    Only pl sa (refused tag r sb) := by
  unfold refused
  try dsimp only
  repeat'
    with_reducible (first
      | assumption | exact List.Subset.trans (by decide) hp | apply Only.gite | apply Only.gdite | apply fenceAgain_parts
      | apply dropReq_parts | apply setCount_parts | apply fence_parts | (intro _) | split
      | refine Only.ep_upd (partMem hp (by decide)) ?_)

theorem breakPair_parts {pl : List Part} {sa sb : State} (dest : BitVec 16) (detail : Nat)
    (hp : [.bep, .ep, .cmp, .dict, .host, .can, .log, .pwr, .sent] ⊆ pl) (hk : Only pl sa sb) :
    Only pl sa (breakPair dest detail sb) := by
  unfold breakPair
  try dsimp only
  repeat'
    with_reducible (first
      | assumption | exact List.Subset.trans (by decide) hp | apply Only.gite | apply Only.gdite | apply bump_parts
      | apply endFailed_parts | apply failUse_parts | apply passFences_parts | apply setCount_parts | apply Only.foldl
      | apply Only.foldl_snd | apply Only.foldl_fst | (intro _) | split | refine Only.ep_upd (partMem hp (by decide)) ?_)

end Sys2Proof.Machine
end

