-- ==== Sys2Proof/Laws/OnlyTime.lean ====
section
/-! SUPPORT. What the operations of Machine/Time.lean may change. -/

namespace Sys2Proof.Machine

open Sys2Proof

set_option linter.unusedTactic false
set_option linter.unreachableTactic false

theorem modTime_parts {pl : List Part} {sa sb : State} (f : Time → Time) (hp : [.time] ⊆ pl) (hk : Only pl sa sb) :
    Only pl sa (modTime f sb) := by
  unfold modTime
  try dsimp only
  repeat'
    with_reducible (first
      | assumption | exact List.Subset.trans (by decide) hp | apply Only.gite | apply Only.gdite | (intro _) | split
      | refine Only.time_upd (partMem hp (by decide)) ?_)

theorem modPortTime_parts {pl : List Part} {sa sb : State} (p : PortN) (f : PortTime → PortTime) (hp : [.ports] ⊆ pl)
    (hk : Only pl sa sb) :
    Only pl sa (modPortTime p f sb) := by
  unfold modPortTime
  try dsimp only
  repeat'
    with_reducible (first
      | assumption | exact List.Subset.trans (by decide) hp | apply Only.gite | apply Only.gdite | apply modPort_parts
      | (intro _) | split)

theorem advanceTo_parts {pl : List Part} {sa sb : State} (tick : Nat) (hp : [.time] ⊆ pl) (hk : Only pl sa sb) :
    Only pl sa (advanceTo tick sb) := by
  unfold advanceTo
  try dsimp only
  repeat'
    with_reducible (first
      | assumption | exact List.Subset.trans (by decide) hp | apply Only.gite | apply Only.gdite | apply modTime_parts
      | (intro _) | split)

theorem coreCycle_parts {pl : List Part} {sa sb : State} (hp : [.time] ⊆ pl) (hk : Only pl sa sb) :
    Only pl sa (coreCycle sb) := by
  unfold coreCycle
  try dsimp only
  repeat'
    with_reducible (first
      | assumption | exact List.Subset.trans (by decide) hp | apply Only.gite | apply Only.gdite | apply modTime_parts
      | (intro _) | split)

theorem judgeBound_parts {pl : List Part} {sa sb : State} (hp : [.time, .dict, .host, .can, .log, .pwr, .sent] ⊆ pl)
    (hk : Only pl sa sb) :
    Only pl sa (judgeBound sb) := by
  unfold judgeBound
  try dsimp only
  repeat'
    with_reducible (first
      | assumption | exact List.Subset.trans (by decide) hp | apply Only.gite | apply Only.gdite | apply modTime_parts
      | apply raiseCause_parts | apply log_parts | (intro _) | split)

theorem setMode_parts {pl : List Part} {sa sb : State} (m : TimeMode)
    (hp : [.time, .ports, .dict, .host, .can, .log, .pwr, .sent] ⊆ pl) (hk : Only pl sa sb) :
    Only pl sa (setMode m sb) := by
  unfold setMode
  try dsimp only
  repeat'
    with_reducible (first
      | assumption | exact List.Subset.trans (by decide) hp | apply Only.gite | apply Only.gdite | apply modTime_parts
      | apply forPorts_parts | apply modPortTime_parts | apply raiseCause_parts | apply log_parts | (intro _) | split)

theorem takeParent_parts {pl : List Part} {sa sb : State} (p : PortN) (hp : [.time] ⊆ pl) (hk : Only pl sa sb) :
    Only pl sa (takeParent p sb) := by
  unfold takeParent
  try dsimp only
  repeat'
    with_reducible (first
      | assumption | exact List.Subset.trans (by decide) hp | apply Only.gite | apply Only.gdite | apply modTime_parts
      | (intro _) | split)

theorem freshSamples_parts {pl : List Part} {sa sb : State} (p : PortN) (hp : [.ports] ⊆ pl) (hk : Only pl sa sb) :
    Only pl sa (freshSamples p sb) := by
  unfold freshSamples
  try dsimp only
  repeat'
    with_reducible (first
      | assumption | exact List.Subset.trans (by decide) hp | apply Only.gite | apply Only.gdite | apply modPortTime_parts
      | (intro _) | split)

theorem enterHoldover_parts {pl : List Part} {sa sb : State}
    (hp : [.time, .ports, .dict, .host, .can, .log, .pwr, .sent] ⊆ pl) (hk : Only pl sa sb) :
    Only pl sa (enterHoldover sb) := by
  unfold enterHoldover
  try dsimp only
  repeat'
    with_reducible (first
      | assumption | exact List.Subset.trans (by decide) hp | apply Only.gite | apply Only.gdite | apply setMode_parts
      | apply modTime_parts | (intro _) | split)

theorem judgeState_parts {pl : List Part} {sa sb : State}
    (hp : [.time, .ports, .dict, .host, .can, .log, .pwr, .sent] ⊆ pl) (hk : Only pl sa sb) :
    Only pl sa (judgeState sb) := by
  unfold judgeState
  try dsimp only
  repeat'
    with_reducible (first
      | assumption | exact List.Subset.trans (by decide) hp | apply Only.gite | apply Only.gdite | apply modTime_parts
      | apply setMode_parts | apply takeParent_parts | apply freshSamples_parts | apply enterHoldover_parts | (intro _)
      | split)

theorem sendTimeSet_parts {pl : List Part} {sa sb : State} (p : PortN) (hp : [.ports, .sent, .free] ⊆ pl)
    (hk : Only pl sa sb) :
    Only pl sa (sendTimeSet p sb) := by
  unfold sendTimeSet
  try dsimp only
  repeat'
    with_reducible (first
      | assumption | exact List.Subset.trans (by decide) hp | apply Only.gite | apply Only.gdite | apply modPortTime_parts
      | apply emit_parts | apply drawn_parts | (intro _) | split)

theorem followParent_parts {pl : List Part} {sa sb : State} (p : PortN) (x : TimeSet) (arrival : Int) (d : Int)
    (hp : [.time, .dict, .host, .can, .log, .pwr, .sent] ⊆ pl) (hk : Only pl sa sb) :
    Only pl sa (followParent p x arrival d sb) := by
  unfold followParent
  try dsimp only
  repeat'
    with_reducible (first
      | assumption | exact List.Subset.trans (by decide) hp | apply Only.gite | apply Only.gdite | apply bumpBy_parts
      | apply modTime_parts | apply judgeBound_parts | apply Only.foldl | apply Only.foldl_snd | apply Only.foldl_fst
      | (intro _) | split)

theorem timeSetReceive_parts {pl : List Part} {sa sb : State} (p : PortN) (x : TimeSet) (arrival : Nat) (damaged : Bool)
    (hp : [.time, .ports, .dict, .host, .can, .log, .pwr, .sent] ⊆ pl) (hk : Only pl sa sb) :
    Only pl sa (timeSetReceive p x arrival damaged sb) := by
  unfold timeSetReceive
  try dsimp only
  repeat'
    with_reducible (first
      | assumption | exact List.Subset.trans (by decide) hp | apply Only.gite | apply Only.gdite | apply bumpBy_parts
      | apply modPortTime_parts | apply advanceTo_parts | apply odSet_parts | apply modTime_parts | apply followParent_parts
      | apply judgeState_parts | (intro _) | split)

theorem roundStartTime_parts {pl : List Part} {sa sb : State}
    (hp : [.time, .ports, .dict, .host, .can, .log, .pwr, .sent, .free] ⊆ pl) (hk : Only pl sa sb) :
    Only pl sa (roundStartTime sb) := by
  unfold roundStartTime
  try dsimp only
  repeat'
    with_reducible (first
      | assumption | exact List.Subset.trans (by decide) hp | apply Only.gite | apply Only.gdite | apply advanceTo_parts
      | apply modTime_parts | apply judgeState_parts | apply setMode_parts | apply judgeBound_parts | apply forPorts_parts
      | apply sendTimeSet_parts | (intro _) | split)

theorem trimDecision_parts {pl : List Part} {sa sb : State} (hp : [.time, .sent] ⊆ pl) (hk : Only pl sa sb) :
    Only pl sa (trimDecision sb) := by
  unfold trimDecision
  try dsimp only
  repeat'
    with_reducible (first
      | assumption | exact List.Subset.trans (by decide) hp | apply Only.gite | apply Only.gdite | apply advanceTo_parts
      | apply modTime_parts | apply forPorts_parts | apply emit_parts | (intro _) | split)

theorem trimSlotPass_parts {pl : List Part} {sa sb : State} (hp : [.time, .dict, .host, .can, .log, .pwr, .sent] ⊆ pl)
    (hk : Only pl sa sb) :
    Only pl sa (trimSlotPass sb) := by
  unfold trimSlotPass
  try dsimp only
  repeat'
    with_reducible (first
      | assumption | exact List.Subset.trans (by decide) hp | apply Only.gite | apply Only.gdite | apply judgeBound_parts
      | apply modTime_parts | (intro _) | split)

theorem trimNoticeReceive_parts {pl : List Part} {sa sb : State} (p : PortN) (low : BitVec 16) (kind : BitVec 8)
    (comp : BitVec 8) (hp : [.time, .ports, .dict, .host, .can, .log, .pwr, .sent] ⊆ pl) (hk : Only pl sa sb) :
    Only pl sa (trimNoticeReceive p low kind comp sb) := by
  unfold trimNoticeReceive
  try dsimp only
  repeat'
    with_reducible (first
      | assumption | exact List.Subset.trans (by decide) hp | apply Only.gite | apply Only.gdite | apply bump_parts
      | apply bumpBy_parts | apply judgeState_parts | apply modTime_parts | (intro _) | split)

theorem makeSuspect_parts {pl : List Part} {sa sb : State} (p : PortN)
    (hp : [.time, .ports, .dict, .host, .can, .log, .pwr, .sent] ⊆ pl) (hk : Only pl sa sb) :
    Only pl sa (makeSuspect p sb) := by
  unfold makeSuspect
  try dsimp only
  repeat'
    with_reducible (first
      | assumption | exact List.Subset.trans (by decide) hp | apply Only.gite | apply Only.gdite | apply bumpBy_parts
      | apply modPortTime_parts | apply judgeState_parts | (intro _) | split)

theorem beatMiss_parts {pl : List Part} {sa sb : State} (hp : [.time, .dict, .host, .can, .log, .pwr, .sent] ⊆ pl)
    (hk : Only pl sa sb) :
    Only pl sa (beatMiss sb) := by
  unfold beatMiss
  try dsimp only
  repeat'
    with_reducible (first
      | assumption | exact List.Subset.trans (by decide) hp | apply Only.gite | apply Only.gdite | apply bumpBy_parts
      | apply modTime_parts | apply raiseCause_parts | apply log_parts | (intro _) | split)

theorem beatrefEdge_parts {pl : List Part} {sa sb : State} (stamp : Nat)
    (hp : [.time, .ports, .dict, .host, .can, .log, .pwr, .sent] ⊆ pl) (hk : Only pl sa sb) :
    Only pl sa (beatrefEdge stamp sb) := by
  unfold beatrefEdge
  try dsimp only
  repeat'
    with_reducible (first
      | assumption | exact List.Subset.trans (by decide) hp | apply Only.gite | apply Only.gdite | apply advanceTo_parts
      | apply beatMiss_parts | apply judgeState_parts | apply judgeBound_parts | apply modTime_parts | (intro _) | split)

theorem roundLengthWrite_parts {pl : List Part} {sa sb : State} (src : Route) (v : Nat) (hp : [.dict, .host, .sent] ⊆ pl)
    (hk : Only pl sa sb) :
    Only pl sa (roundLengthWrite src v sb) := by
  unfold roundLengthWrite
  try dsimp only
  repeat'
    with_reducible (first
      | assumption | exact List.Subset.trans (by decide) hp | apply Only.gite | apply Only.gdite | apply beginOp_parts
      | apply refuseRule_parts | apply keepScalar_parts | (intro _) | split)

theorem roundArmWrite_parts {pl : List Part} {sa sb : State} (src : Route) (v : Nat)
    (hp : [.time, .dict, .host, .sent] ⊆ pl) (hk : Only pl sa sb) :
    Only pl sa (roundArmWrite src v sb) := by
  unfold roundArmWrite
  try dsimp only
  repeat'
    with_reducible (first
      | assumption | exact List.Subset.trans (by decide) hp | apply Only.gite | apply Only.gdite | apply beginOp_parts
      | apply keepArm_parts | apply modTime_parts | (intro _) | split)

theorem timeRoleWrite_parts {pl : List Part} {sa sb : State} (src : Route) (v : Nat)
    (hp : [.time, .dict, .host, .sent] ⊆ pl) (hk : Only pl sa sb) :
    Only pl sa (timeRoleWrite src v sb) := by
  unfold timeRoleWrite
  try dsimp only
  repeat'
    with_reducible (first
      | assumption | exact List.Subset.trans (by decide) hp | apply Only.gite | apply Only.gdite | apply modTime_parts
      | apply keepScalar_parts | apply beginOp_parts | (intro _) | split)

theorem timeSourceWrite_parts {pl : List Part} {sa sb : State} (src : Route) (v : Nat)
    (hp : [.time, .dict, .host, .sent] ⊆ pl) (hk : Only pl sa sb) :
    Only pl sa (timeSourceWrite src v sb) := by
  unfold timeSourceWrite
  try dsimp only
  repeat'
    with_reducible (first
      | assumption | exact List.Subset.trans (by decide) hp | apply Only.gite | apply Only.gdite | apply modTime_parts
      | apply keepScalar_parts | apply beginOp_parts | (intro _) | split)

end Sys2Proof.Machine
end

