-- ==== Sys2Proof/Laws/OnlyCalendar.lean ====
section
/-! SUPPORT. What the operations of Machine/Calendar.lean may change. -/

namespace Sys2Proof.Machine

open Sys2Proof

set_option linter.unusedTactic false
set_option linter.unreachableTactic false

theorem modCal_parts {pl : List Part} {sa sb : State} (f : Calendar → Calendar) (hp : [.cal] ⊆ pl) (hk : Only pl sa sb) :
    Only pl sa (modCal f sb) := by
  unfold modCal
  try dsimp only
  repeat'
    with_reducible (first
      | assumption | exact List.Subset.trans (by decide) hp | apply Only.gite | apply Only.gdite | (intro _) | split
      | refine Only.cal_upd (partMem hp (by decide)) ?_)

theorem modBankCal_parts {pl : List Part} {sa sb : State} (b : Nat) (f : CalBank → CalBank) (hp : [.cal] ⊆ pl)
    (hk : Only pl sa sb) :
    Only pl sa (modBankCal b f sb) := by
  unfold modBankCal
  try dsimp only
  repeat'
    with_reducible (first
      | assumption | exact List.Subset.trans (by decide) hp | apply Only.gite | apply Only.gdite | apply modCal_parts
      | (intro _) | split)

theorem refuseLoad_parts {pl : List Part} {sa sb : State} (code : Nat) (hp : [.cal, .dict] ⊆ pl) (hk : Only pl sa sb) :
    Only pl sa (refuseLoad code sb) := by
  unfold refuseLoad
  try dsimp only
  repeat'
    with_reducible (first
      | assumption | exact List.Subset.trans (by decide) hp | apply Only.gite | apply Only.gdite | apply refuseRule_parts
      | apply modCal_parts | apply modBankCal_parts | (intro _) | split)

theorem calendarBegin_parts {pl : List Part} {sa sb : State} (src : Route) (v : Nat)
    (hp : [.cal, .dict, .host, .sent] ⊆ pl) (hk : Only pl sa sb) :
    Only pl sa (calendarBegin src v sb) := by
  unfold calendarBegin
  try dsimp only
  repeat'
    with_reducible (first
      | assumption | exact List.Subset.trans (by decide) hp | apply Only.gite | apply Only.gdite | apply refuseRule_parts
      | apply onlyOne_parts | apply modCal_parts | apply clamped_parts | apply modBankCal_parts | (intro _) | split)

theorem calendarData_parts {pl : List Part} {sa sb : State} (data : Bytes) (hp : [.cal, .dict] ⊆ pl)
    (hk : Only pl sa sb) :
    Only pl sa (calendarData data sb) := by
  unfold calendarData
  try dsimp only
  repeat'
    with_reducible (first
      | assumption | exact List.Subset.trans (by decide) hp | apply Only.gite | apply Only.gdite | apply refuseRule_parts
      | apply refuseLoad_parts | apply modCal_parts | (intro _) | split)

theorem sealRecord_parts {pl : List Part} {sa : State} {sb : State × Sealing × Option Nat} (src : Route) (b : Bytes)
    (half : List Nat) (round : Nat) (o : Nat) (width : Nat) (pos : Nat) (hp : [.dict, .host, .sent] ⊆ pl) (h : Only pl sa sb.1) :
    Only pl sa (sealRecord src b half round o width pos sb).1 := by
  unfold sealRecord
  obtain ⟨s, g, last⟩ := sb
  try dsimp only at *
  repeat'
    with_reducible (first
      | assumption | exact List.Subset.trans (by decide) hp | apply Only.gite | apply clamped_parts | apply noted_parts
      | (intro _) | split)

theorem sealSection_parts {pl : List Part} {sa : State} {sb : State × Sealing} (src : Route) (b : Bytes) (half : List Nat)
    (round : Nat) (pos : Nat) (prev : Option Nat) (hp : [.bep, .ep, .dict, .host, .sent] ⊆ pl) (h : Only pl sa sb.1) :
    Only pl sa (sealSection src b half round pos prev sb).1 := by
  unfold sealSection
  obtain ⟨s, g⟩ := sb
  try dsimp only at *
  repeat'
    with_reducible (first
      | assumption | exact List.Subset.trans (by decide) hp | apply Only.gite | apply clamped_parts | apply noted_parts
      | apply sealRecord_parts | apply Only.foldl_fst | (intro _) | split)

theorem sealSections_parts {pl : List Part} {sa : State} (src : Route) (b : Bytes) (half : List Nat) (round : Nat) (l : List Nat)
    (prev : Option Nat) (sb : State × Sealing) (hp : [.bep, .ep, .dict, .host, .sent] ⊆ pl) (h : Only pl sa sb.1) :
    Only pl sa (sealSections src b half round l prev sb).1 := by
  induction l generalizing prev sb with
  | nil => exact h
  | cons pos r ih => exact ih _ _ (sealSection_parts src b half round pos prev hp h)

theorem sealOpen_parts {pl : List Part} {sa : State} {sb : State × Sealing} (src : Route) (key : Nat) (e : Slot)
    (hp : [.dict, .host, .sent] ⊆ pl) (h : Only pl sa sb.1) : Only pl sa (sealOpen src key e sb).1 := by
  unfold sealOpen
  exact clamped_parts _ _ _ _ _ _ (List.Subset.trans (by decide) hp) h

theorem sealCheck_parts {pl : List Part} {sa : State} {sb : State × Sealing} (src : Route)
    (bad : NMap Slot → Nat → Slot → Bool) (hp : [.dict, .host, .sent] ⊆ pl) (h : Only pl sa sb.1) : Only pl sa (sealCheck src bad sb).1 := by
  unfold sealCheck
  generalize sb.2.slots = l
  suffices ∀ (acc : (State × Sealing) × NMap Slot), Only pl sa acc.1.1 →
      Only pl sa (l.foldl (fun (acc : (State × Sealing) × NMap Slot) e =>
        if bad acc.2 e.1 e.2 then (sealOpen src e.1 e.2 acc.1, acc.2) else (acc.1, acc.2 ++ [e])) acc).1.1 from this (sb, []) h
  induction l with
  | nil => exact fun acc ha => ha
  | cons e r ih =>
    intro acc ha
    rw [List.foldl_cons]
    refine ih _ ?_
    split
    · exact sealOpen_parts src e.1 e.2 (List.Subset.trans (by decide) hp) ha
    · exact ha

theorem sealHeader_parts {pl : List Part} {sa sb : State} (src : Route) (b : Bytes) (hp : [.dict, .host, .sent] ⊆ pl)
    (hk : Only pl sa sb) :
    Only pl sa (sealHeader src b sb).1 := by
  unfold sealHeader
  try dsimp only
  repeat'
    with_reducible (first
      | assumption | exact List.Subset.trans (by decide) hp | apply Only.gite | apply Only.gdite | apply clamped_parts
      | apply Only.foldl | apply Only.foldl_snd | apply Only.foldl_fst | (intro _) | split)

theorem calendarSeal_parts {pl : List Part} {sa sb : State} (src : Route) (v : Nat)
    (hp : [.bep, .ep, .cal, .dict, .host, .sent] ⊆ pl) (hk : Only pl sa sb) :
    Only pl sa (calendarSeal src v sb) := by
  unfold calendarSeal
  try dsimp only
  repeat'
    with_reducible (first
      | assumption | exact List.Subset.trans (by decide) hp | apply Only.gite | apply Only.gdite | apply refuseRule_parts
      | apply refuseLoad_parts | apply onlyOne_parts | apply sealHeader_parts | apply sealSections_parts
      | apply sealCheck_parts | apply modBankCal_parts | apply modCal_parts | apply clamped_parts | apply refused_parts
      | (intro _) | split)

theorem calendarArm_parts {pl : List Part} {sa sb : State} (src : Route) (v : Nat) (hp : [.cal, .dict, .host, .sent] ⊆ pl)
    (hk : Only pl sa sb) :
    Only pl sa (calendarArm src v sb) := by
  unfold calendarArm
  try dsimp only
  repeat'
    with_reducible (first
      | assumption | exact List.Subset.trans (by decide) hp | apply Only.gite | apply Only.gdite | apply modCal_parts
      | apply odSet_parts | apply modBankCal_parts | apply refuseRule_parts | apply keepArm_parts | (intro _) | split)

theorem releaseSlots_parts {pl : List Part} {sa sb : State} (hp : [.cal, .dict] ⊆ pl) (hk : Only pl sa sb) :
    Only pl sa (releaseSlots sb) := by
  unfold releaseSlots
  try dsimp only
  repeat'
    with_reducible (first
      | assumption | exact List.Subset.trans (by decide) hp | apply Only.gite | apply Only.gdite | apply bump_parts
      | apply modCal_parts | apply Only.foldl | apply Only.foldl_snd | apply Only.foldl_fst | (intro _) | split)

theorem calendarSwitch_parts {pl : List Part} {sa sb : State}
    (hp : [.time, .cal, .dict, .host, .can, .log, .pwr, .sent] ⊆ pl) (hk : Only pl sa sb) :
    Only pl sa (calendarSwitch sb) := by
  unfold calendarSwitch
  try dsimp only
  repeat'
    with_reducible (first
      | assumption | exact List.Subset.trans (by decide) hp | apply Only.gite | apply Only.gdite | apply odSet_parts
      | apply advanceTo_parts | apply modTime_parts | apply raiseCause_parts | apply log_parts | apply modCal_parts
      | apply modBankCal_parts | apply releaseSlots_parts | (intro _) | split)

theorem setSbuf_parts {pl : List Part} {sa sb : State} (input : Nat) (sbuf : Nat) (b : SlotBuf) (hp : [.cal] ⊆ pl)
    (hk : Only pl sa sb) :
    Only pl sa (setSbuf input sbuf b sb) := by
  unfold setSbuf
  try dsimp only
  repeat'
    with_reducible (first
      | assumption | exact List.Subset.trans (by decide) hp | apply Only.gite | apply Only.gdite | apply modCal_parts
      | (intro _) | split)

theorem countSlotDrop_parts {pl : List Part} {sa sb : State} (input : Nat) (hp : [.dict] ⊆ pl) (hk : Only pl sa sb) :
    Only pl sa (countSlotDrop input sb) := by
  unfold countSlotDrop
  try dsimp only
  repeat'
    with_reducible (first
      | assumption | exact List.Subset.trans (by decide) hp | apply Only.gite | apply Only.gdite | apply bump_parts
      | (intro _) | split)

theorem releaseRef_parts {pl : List Part} {sa sb : State} (input : Nat) (sbuf : Nat) (sent : Bool)
    (hp : [.cal, .dict] ⊆ pl) (hk : Only pl sa sb) :
    Only pl sa (releaseRef input sbuf sent sb) := by
  unfold releaseRef
  try dsimp only
  repeat'
    with_reducible (first
      | assumption | exact List.Subset.trans (by decide) hp | apply Only.gite | apply Only.gdite | apply bump_parts
      | apply setSbuf_parts | (intro _) | split)

theorem isolationWrite_parts {pl : List Part} {sa sb : State} (src : Route) (v : Nat) (hp : [.dict, .host, .sent] ⊆ pl)
    (hk : Only pl sa sb) :
    Only pl sa (isolationWrite src v sb) := by
  unfold isolationWrite
  try dsimp only
  repeat'
    with_reducible (first
      | assumption | exact List.Subset.trans (by decide) hp | apply Only.gite | apply Only.gdite | apply endOp_parts
      | apply refuseRule_parts | apply keepScalar_parts | (intro _) | split)

theorem selectorWrite_parts {pl : List Part} {sa sb : State} (src : Route) (v : Nat) (hp : [.dict, .host, .sent] ⊆ pl)
    (hk : Only pl sa sb) :
    Only pl sa (selectorWrite src v sb) := by
  unfold selectorWrite
  try dsimp only
  repeat'
    with_reducible (first
      | assumption | exact List.Subset.trans (by decide) hp | apply Only.gite | apply Only.gdite | apply reportClamps_parts
      | apply odSet_parts | (intro _) | split)

end Sys2Proof.Machine
end

