-- ==== Sys2Proof/Laws/OnlyCollect.lean ====
section
/-! SUPPORT. What the operations of Machine/Collect.lean may change. -/

namespace Sys2Proof.Machine

open Sys2Proof

set_option linter.unusedTactic false
set_option linter.unreachableTactic false

theorem modColl_parts {pl : List Part} {sa sb : State} (f : Coll → Coll) (hp : [.coll] ⊆ pl) (hk : Only pl sa sb) :
    Only pl sa (modColl f sb) := by
  unfold modColl
  try dsimp only
  repeat'
    with_reducible (first
      | assumption | exact List.Subset.trans (by decide) hp | apply Only.gite | apply Only.gdite | (intro _) | split
      | refine Only.coll_upd (partMem hp (by decide)) ?_)

theorem setWin_parts {pl : List Part} {sa sb : State} (i : Nat) (w : Win) (hp : [.coll] ⊆ pl) (hk : Only pl sa sb) :
    Only pl sa (setWin i w sb) := by
  unfold setWin
  try dsimp only
  repeat'
    with_reducible (first
      | assumption | exact List.Subset.trans (by decide) hp | apply Only.gite | apply Only.gdite | apply modColl_parts
      | (intro _) | split)

theorem modWin_parts {pl : List Part} {sa sb : State} (i : Nat) (f : Win → Win) (hp : [.coll] ⊆ pl) (hk : Only pl sa sb) :
    Only pl sa (modWin i f sb) := by
  unfold modWin
  try dsimp only
  repeat'
    with_reducible (first
      | assumption | exact List.Subset.trans (by decide) hp | apply Only.gite | apply Only.gdite | apply setWin_parts
      | (intro _) | split)

theorem failStep_parts {pl : List Part} {sa sb : State} (i : Nat) (cause : Nat) (chunk : Option Nat) (hp : [.coll] ⊆ pl)
    (hk : Only pl sa sb) :
    Only pl sa (failStep i cause chunk sb) := by
  unfold failStep
  try dsimp only
  repeat'
    with_reducible (first
      | assumption | exact List.Subset.trans (by decide) hp | apply Only.gite | apply Only.gdite | apply setWin_parts
      | (intro _) | split)

theorem memberAbsent_parts {pl : List Part} {sa sb : State} (i : Nat) (member : Nat) (hp : [.coll, .dict] ⊆ pl)
    (hk : Only pl sa sb) :
    Only pl sa (memberAbsent i member sb) := by
  unfold memberAbsent
  try dsimp only
  repeat'
    with_reducible (first
      | assumption | exact List.Subset.trans (by decide) hp | apply Only.gite | apply Only.gdite | apply failStep_parts
      | apply modWin_parts | apply bump_parts | (intro _) | split)

theorem setShard_parts {pl : List Part} {sa sb : State} (j : Nat) (x : Shard) (hp : [.coll] ⊆ pl) (hk : Only pl sa sb) :
    Only pl sa (setShard j x sb) := by
  unfold setShard
  try dsimp only
  repeat'
    with_reducible (first
      | assumption | exact List.Subset.trans (by decide) hp | apply Only.gite | apply Only.gdite | apply modColl_parts
      | (intro _) | split)

theorem windowBind_parts {pl : List Part} {sa sb : State} (src : Route) (i : Nat) (hp : [.coll, .dict, .host, .sent] ⊆ pl)
    (hk : Only pl sa sb) :
    Only pl sa (windowBind src i sb) := by
  unfold windowBind
  try dsimp only
  repeat'
    with_reducible (first
      | assumption | exact List.Subset.trans (by decide) hp | apply Only.gite | apply Only.gdite | apply refuseRule_parts
      | apply report_parts | apply bump_parts | apply modWin_parts | apply setWin_parts | (intro _) | split)

theorem clearAccs_parts {pl : List Part} {sa sb : State} (i : Nat) (hp : [.cmp] ⊆ pl) (hk : Only pl sa sb) :
    Only pl sa (clearAccs i sb) := by
  unfold clearAccs
  try dsimp only
  repeat'
    with_reducible (first
      | assumption | exact List.Subset.trans (by decide) hp | apply Only.gite | apply Only.gdite | (intro _) | split
      | refine Only.cmp_upd (partMem hp (by decide)) ?_)

theorem freeFormed_parts {pl : List Part} {sa sb : State} (i : Nat) (hp : [.coll, .dict] ⊆ pl) (hk : Only pl sa sb) :
    Only pl sa (freeFormed i sb) := by
  unfold freeFormed
  try dsimp only
  repeat'
    with_reducible (first
      | assumption | exact List.Subset.trans (by decide) hp | apply Only.gite | apply Only.gdite | apply modWin_parts
      | apply bumpN_parts | (intro _) | split)

theorem unbind_parts {pl : List Part} {sa sb : State} (i : Nat) (hp : [.cmp, .coll, .dict] ⊆ pl) (hk : Only pl sa sb) :
    Only pl sa (unbind i sb) := by
  unfold unbind
  try dsimp only
  repeat'
    with_reducible (first
      | assumption | exact List.Subset.trans (by decide) hp | apply Only.gite | apply Only.gdite | apply modWin_parts
      | apply freeFormed_parts | apply clearAccs_parts | (intro _) | split)

theorem windowUnbind_parts {pl : List Part} {sa sb : State} (i : Nat) (hp : [.cmp, .coll, .dict] ⊆ pl)
    (hk : Only pl sa sb) :
    Only pl sa (windowUnbind i sb) := by
  unfold windowUnbind
  try dsimp only
  repeat'
    with_reducible (first
      | assumption | exact List.Subset.trans (by decide) hp | apply Only.gite | apply Only.gdite | apply setWin_parts
      | apply unbind_parts | (intro _) | split)

theorem windowWrite_parts {pl : List Part} {sa sb : State} (src : Route) (i : Nat) (v : Nat)
    (hp : [.cmp, .coll, .dict, .host, .sent] ⊆ pl) (hk : Only pl sa sb) :
    Only pl sa (windowWrite src i v sb) := by
  unfold windowWrite
  try dsimp only
  repeat'
    with_reducible (first
      | assumption | exact List.Subset.trans (by decide) hp | apply Only.gite | apply Only.gdite | apply windowBind_parts
      | apply windowUnbind_parts | apply clamped_parts | (intro _) | split)

theorem startSteward_parts {pl : List Part} {sa sb : State} (d : Bytes) (hp : [.coll] ⊆ pl) (hk : Only pl sa sb) :
    Only pl sa (startSteward d sb) := by
  unfold startSteward
  try dsimp only
  repeat'
    with_reducible (first
      | assumption | exact List.Subset.trans (by decide) hp | apply Only.gite | apply Only.gdite | apply setShard_parts
      | (intro _) | split)

theorem windowRound_parts {pl : List Part} {sa sb : State} (i : Nat) (hp : [.cmp, .coll, .dict] ⊆ pl)
    (hk : Only pl sa sb) :
    Only pl sa (windowRound i sb) := by
  unfold windowRound
  try dsimp only
  repeat'
    with_reducible (first
      | assumption | exact List.Subset.trans (by decide) hp | apply Only.gite | apply Only.gdite | apply freeFormed_parts
      | apply clearAccs_parts | apply modWin_parts | apply startSteward_parts | apply failStep_parts | (intro _) | split)

theorem noteArrival_parts {pl : List Part} {sa sb : State} (i : Nat) (input : Nat) (c : Cell) (hp : [.coll, .dict] ⊆ pl)
    (hk : Only pl sa sb) :
    Only pl sa (noteArrival i input c sb) := by
  unfold noteArrival
  try dsimp only
  repeat'
    with_reducible (first
      | assumption | exact List.Subset.trans (by decide) hp | apply Only.gite | apply Only.gdite | apply modWin_parts
      | apply failStep_parts | apply bump_parts | (intro _) | split)

theorem noteVerdict_parts {pl : List Part} {sa sb : State} (i : Nat) (c : Cell) (hp : [.coll] ⊆ pl) (hk : Only pl sa sb) :
    Only pl sa (noteVerdict i c sb) := by
  unfold noteVerdict
  try dsimp only
  repeat'
    with_reducible (first
      | assumption | exact List.Subset.trans (by decide) hp | apply Only.gite | apply Only.gdite | apply setWin_parts
      | (intro _) | split)

theorem acceptScheduled_parts {pl : List Part} {sa sb : State} (p : PortN) (c : Cell) (hp : [.cal, .coll, .dict] ⊆ pl)
    (hk : Only pl sa sb) :
    Only pl sa (acceptScheduled p c sb) := by
  unfold acceptScheduled
  try dsimp only
  repeat'
    with_reducible (first
      | assumption | exact List.Subset.trans (by decide) hp | apply Only.gite | apply Only.gdite | apply noteVerdict_parts
      | apply noteArrival_parts | apply setSbuf_parts | apply bump_parts | apply countSlotDrop_parts | (intro _) | split)

theorem reduceCell_parts {pl : List Part} {sa sb : State} (i : Nat) (c : Cell) (hp : [.cmp, .coll] ⊆ pl)
    (hk : Only pl sa sb) :
    Only pl sa (reduceCell i c sb) := by
  unfold reduceCell
  try dsimp only
  repeat'
    with_reducible (first
      | assumption | exact List.Subset.trans (by decide) hp | apply Only.gite | apply Only.gdite | apply setWin_parts
      | apply Only.foldl | apply Only.foldl_snd | apply Only.foldl_fst | (intro _) | split
      | refine Only.cmp_upd (partMem hp (by decide)) ?_)

theorem keepCell_parts {pl : List Part} {sa sb : State} (i : Nat) (who : Nat) (c : Cell) (hp : [.coll] ⊆ pl)
    (hk : Only pl sa sb) :
    Only pl sa (keepCell i who c sb) := by
  unfold keepCell
  try dsimp only
  repeat'
    with_reducible (first
      | assumption | exact List.Subset.trans (by decide) hp | apply Only.gite | apply Only.gdite | apply modWin_parts
      | (intro _) | split)

theorem countTaken_parts {pl : List Part} {sa sb : State} (i : Nat) (c : Cell) (hp : [.coll] ⊆ pl) (hk : Only pl sa sb) :
    Only pl sa (countTaken i c sb) := by
  unfold countTaken
  try dsimp only
  repeat'
    with_reducible (first
      | assumption | exact List.Subset.trans (by decide) hp | apply Only.gite | apply Only.gdite | apply modWin_parts
      | (intro _) | split)

theorem countIndices_parts {pl : List Part} {sa sb : State} (i : Nat) (c : Cell) (hp : [.coll, .dict] ⊆ pl)
    (hk : Only pl sa sb) :
    Only pl sa (countIndices i c sb) := by
  unfold countIndices
  try dsimp only
  repeat'
    with_reducible (first
      | assumption | exact List.Subset.trans (by decide) hp | apply Only.gite | apply Only.gdite | apply modWin_parts
      | apply bumpN_parts | (intro _) | split)

theorem formCell_parts {pl : List Part} {sa sb : State} (i : Nat) (chunk : Nat) (cell : Nat) (b : Bytes) (pad : Bool)
    (hp : [.coll] ⊆ pl) (hk : Only pl sa sb) :
    Only pl sa (formCell i chunk cell b pad sb) := by
  unfold formCell
  try dsimp only
  repeat'
    with_reducible (first
      | assumption | exact List.Subset.trans (by decide) hp | apply Only.gite | apply Only.gdite | apply modWin_parts
      | (intro _) | split)

theorem takeData_parts {pl : List Part} {sa sb : State} (i : Nat) (input : Nat) (c : Cell)
    (hp : [.cmp, .coll, .dict] ⊆ pl) (hk : Only pl sa sb) :
    Only pl sa (takeData i input c sb) := by
  unfold takeData
  try dsimp only
  repeat'
    with_reducible (first
      | assumption | exact List.Subset.trans (by decide) hp | apply Only.gite | apply Only.gdite | apply formCell_parts
      | apply keepCell_parts | apply countSlotDrop_parts | apply countTaken_parts | apply countIndices_parts
      | apply reduceCell_parts | (intro _) | split)

theorem takeDigests_parts {pl : List Part} {sa sb : State} (i : Nat) (c : Cell) (hp : [.coll] ⊆ pl) (hk : Only pl sa sb) :
    Only pl sa (takeDigests i c sb) := by
  unfold takeDigests
  try dsimp only
  repeat'
    with_reducible (first
      | assumption | exact List.Subset.trans (by decide) hp | apply Only.gite | apply Only.gdite | apply setShard_parts
      | apply Only.foldl | apply Only.foldl_snd | apply Only.foldl_fst | (intro _) | split)

theorem engineTake_parts {pl : List Part} {sa sb : State} (i : Nat) (input : Nat) (c : Cell)
    (hp : [.cmp, .coll, .dict] ⊆ pl) (hk : Only pl sa sb) :
    Only pl sa (engineTake i input c sb) := by
  unfold engineTake
  try dsimp only
  repeat'
    with_reducible (first
      | assumption | exact List.Subset.trans (by decide) hp | apply Only.gite | apply Only.gdite | apply takeData_parts
      | apply keepCell_parts | apply setWin_parts | apply takeDigests_parts | (intro _) | split)

theorem formReduced_parts {pl : List Part} {sa sb : State} (i : Nat) (chunk : Nat) (cell : Nat) (hp : [.coll] ⊆ pl)
    (hk : Only pl sa sb) :
    Only pl sa (formReduced i chunk cell sb) := by
  unfold formReduced
  try dsimp only
  repeat'
    with_reducible (first
      | assumption | exact List.Subset.trans (by decide) hp | apply Only.gite | apply Only.gdite | apply setWin_parts
      | apply formCell_parts | (intro _) | split)

theorem formCompacted_parts {pl : List Part} {sa sb : State} (i : Nat) (chunk : Nat) (cell : Nat)
    (hp : [.coll, .dict] ⊆ pl) (hk : Only pl sa sb) :
    Only pl sa (formCompacted i chunk cell sb) := by
  unfold formCompacted
  try dsimp only
  repeat'
    with_reducible (first
      | assumption | exact List.Subset.trans (by decide) hp | apply Only.gite | apply Only.gdite | apply formCell_parts
      | apply modWin_parts | apply bumpN_parts | (intro _) | split)

theorem formSelected_parts {pl : List Part} {sa sb : State} (i : Nat) (chunk : Nat) (cell : Nat) (hp : [.coll] ⊆ pl)
    (hk : Only pl sa sb) :
    Only pl sa (formSelected i chunk cell sb) := by
  unfold formSelected
  try dsimp only
  repeat'
    with_reducible (first
      | assumption | exact List.Subset.trans (by decide) hp | apply Only.gite | apply Only.gdite | apply formCell_parts
      | (intro _) | split)

theorem formBag_parts {pl : List Part} {sa sb : State} (i : Nat) (chunk : Nat) (cell : Nat) (hp : [.coll] ⊆ pl)
    (hk : Only pl sa sb) :
    Only pl sa (formBag i chunk cell sb) := by
  unfold formBag
  try dsimp only
  repeat'
    with_reducible (first
      | assumption | exact List.Subset.trans (by decide) hp | apply Only.gite | apply Only.gdite | apply formCell_parts
      | apply failStep_parts | (intro _) | split)

theorem formWeights_parts {pl : List Part} {sa sb : State} (i : Nat) (chunk : Nat) (cell : Nat) (hp : [.coll] ⊆ pl)
    (hk : Only pl sa sb) :
    Only pl sa (formWeights i chunk cell sb) := by
  unfold formWeights
  try dsimp only
  repeat'
    with_reducible (first
      | assumption | exact List.Subset.trans (by decide) hp | apply Only.gite | apply Only.gdite | apply failStep_parts
      | apply formCell_parts | (intro _) | split)

theorem serviceCell_parts {pl : List Part} {sa sb : State} (i : Nat) (chunk : Nat) (cell : Nat) (hp : [.coll, .dict] ⊆ pl)
    (hk : Only pl sa sb) :
    Only pl sa (serviceCell i chunk cell sb) := by
  unfold serviceCell
  try dsimp only
  repeat'
    with_reducible (first
      | assumption | exact List.Subset.trans (by decide) hp | apply Only.gite | apply Only.gdite | apply formReduced_parts
      | apply formCompacted_parts | apply formSelected_parts | apply formBag_parts | apply formWeights_parts | (intro _)
      | split)

theorem checkDigests_parts {pl : List Part} {sa sb : State} (i : Nat) (hp : [.coll, .dict] ⊆ pl) (hk : Only pl sa sb) :
    Only pl sa (checkDigests i sb) := by
  unfold checkDigests
  try dsimp only
  repeat'
    with_reducible (first
      | assumption | exact List.Subset.trans (by decide) hp | apply Only.gite | apply Only.gdite | apply setShard_parts
      | apply failStep_parts | apply bumpN_parts | (intro _) | split)

theorem verdictSent_parts {pl : List Part} {sa sb : State} (i : Nat) (kind : Nat) (hp : [.coll, .dict] ⊆ pl)
    (hk : Only pl sa sb) :
    Only pl sa (verdictSent i kind sb) := by
  unfold verdictSent
  try dsimp only
  repeat'
    with_reducible (first
      | assumption | exact List.Subset.trans (by decide) hp | apply Only.gite | apply Only.gdite | apply bump_parts
      | apply setWin_parts | (intro _) | split)

theorem departed_parts {pl : List Part} {sa sb : State} (i : Nat) (e : Nat) (out : Nat) (hp : [.coll, .dict] ⊆ pl)
    (hk : Only pl sa sb) :
    Only pl sa (departed i e out sb) := by
  unfold departed
  try dsimp only
  repeat'
    with_reducible (first
      | assumption | exact List.Subset.trans (by decide) hp | apply Only.gite | apply Only.gdite | apply verdictSent_parts
      | apply modWin_parts | (intro _) | split)

theorem noteDelivery_parts {pl : List Part} {sa sb : State} (i : Nat) (c : Cell) (out : Nat) (hp : [.coll] ⊆ pl)
    (hk : Only pl sa sb) :
    Only pl sa (noteDelivery i c out sb) := by
  unfold noteDelivery
  try dsimp only
  repeat'
    with_reducible (first
      | assumption | exact List.Subset.trans (by decide) hp | apply Only.gite | apply Only.gdite | apply modWin_parts
      | (intro _) | split)

theorem slotMissed_parts {pl : List Part} {sa sb : State} (i : Nat) (e : Nat) (hp : [.coll, .dict] ⊆ pl)
    (hk : Only pl sa sb) :
    Only pl sa (slotMissed i e sb) := by
  unfold slotMissed
  try dsimp only
  repeat'
    with_reducible (first
      | assumption | exact List.Subset.trans (by decide) hp | apply Only.gite | apply Only.gdite | apply failStep_parts
      | apply bump_parts | apply memberAbsent_parts | (intro _) | split)

theorem applySlot_parts {pl : List Part} {sa sb : State} (x : Shard) (k : Nat) (j : Nat)
    (hp : [.bep, .mem, .dict, .host, .can, .log, .pwr, .sent] ⊆ pl) (hk : Only pl sa sb) :
    Only pl sa (applySlot x k j sb) := by
  unfold applySlot
  try dsimp only
  repeat'
    with_reducible (first
      | assumption | exact List.Subset.trans (by decide) hp | apply Only.gite | apply Only.gdite | apply writeRun_parts
      | (intro _) | split)

theorem applyStaging_parts {pl : List Part} {sa sb : State} (d : Bytes)
    (hp : [.bep, .mem, .dict, .host, .can, .log, .pwr, .sent] ⊆ pl) (hk : Only pl sa sb) :
    Only pl sa (applyStaging d sb) := by
  unfold applyStaging
  try dsimp only
  repeat'
    with_reducible (first
      | assumption | exact List.Subset.trans (by decide) hp | apply Only.gite | apply Only.gdite | apply applySlot_parts
      | apply Only.foldl | apply Only.foldl_snd | apply Only.foldl_fst | (intro _) | split)

theorem commitTick_parts {pl : List Part} {sa sb : State} (i : Nat)
    (hp : [.time, .bep, .cmp, .coll, .mem, .dict, .host, .can, .log, .pwr, .sent] ⊆ pl) (hk : Only pl sa sb) :
    Only pl sa (commitTick i sb) := by
  unfold commitTick
  try dsimp only
  repeat'
    with_reducible (first
      | assumption | exact List.Subset.trans (by decide) hp | apply Only.gite | apply Only.gdite | apply advanceTo_parts
      | apply failStep_parts | apply modWin_parts | apply log_parts | apply bump_parts | apply applyStaging_parts
      | apply signal_parts | apply unbind_parts | apply freeFormed_parts | apply clearAccs_parts | (intro _) | split)

theorem descriptorWrite_parts {pl : List Part} {sa sb : State} (i : Nat) (b : Bytes) (hp : [.coll, .dict] ⊆ pl)
    (hk : Only pl sa sb) :
    Only pl sa (descriptorWrite i b sb) := by
  unfold descriptorWrite
  try dsimp only
  repeat'
    with_reducible (first
      | assumption | exact List.Subset.trans (by decide) hp | apply Only.gite | apply Only.gdite | apply endOp_parts
      | apply refuseRule_parts | apply modWin_parts | (intro _) | split)

theorem gridShapeWrite_parts {pl : List Part} {sa sb : State} (src : Route) (g : Nat) (v : Nat)
    (hp : [.dict, .host, .sent] ⊆ pl) (hk : Only pl sa sb) :
    Only pl sa (gridShapeWrite src g v sb) := by
  unfold gridShapeWrite
  try dsimp only
  repeat'
    with_reducible (first
      | assumption | exact List.Subset.trans (by decide) hp | apply Only.gite | apply Only.gdite | apply refuseRule_parts
      | apply odSet_parts | apply clamped_parts | apply Only.foldl | apply Only.foldl_snd | apply Only.foldl_fst | (intro _)
      | split)

theorem gridMapWrite_parts {pl : List Part} {sa sb : State} (g : Nat) (b : Bytes) (hp : [.coll, .dict] ⊆ pl)
    (hk : Only pl sa sb) :
    Only pl sa (gridMapWrite g b sb) := by
  unfold gridMapWrite
  try dsimp only
  repeat'
    with_reducible (first
      | assumption | exact List.Subset.trans (by decide) hp | apply Only.gite | apply Only.gdite | apply refuseRule_parts
      | apply modColl_parts | (intro _) | split)

theorem reservationWrite_parts {pl : List Part} {sa sb : State} (src : Route) (v : Nat) (hp : [.dict, .host, .sent] ⊆ pl)
    (hk : Only pl sa sb) :
    Only pl sa (reservationWrite src v sb) := by
  unfold reservationWrite
  try dsimp only
  repeat'
    with_reducible (first
      | assumption | exact List.Subset.trans (by decide) hp | apply Only.gite | apply Only.gdite
      | apply refuseCondition_parts | apply keepTwo_parts | (intro _) | split)

end Sys2Proof.Machine
end

