-- ==== Sys2Proof/Laws/OnlyLedger.lean ====
section
/-! SUPPORT. What the operations of Machine/Ledger.lean may change. -/

namespace Sys2Proof.Machine

open Sys2Proof

set_option linter.unusedTactic false
set_option linter.unreachableTactic false

theorem setBuf_parts {pl : List Part} {sa sb : State} (store : Nat) (index : Nat) (b : Buf) (hp : [.sw] ⊆ pl)
    (hk : Only pl sa sb) :
    Only pl sa (setBuf store index b sb) := by
  unfold setBuf
  try dsimp only
  repeat'
    with_reducible (first
      | assumption | exact List.Subset.trans (by decide) hp | apply Only.gite | apply Only.gdite | (intro _) | split
      | refine Only.sw_upd (partMem hp (by decide)) ?_)

theorem ledgerFault_parts {pl : List Part} {sa sb : State} (store : Nat) (index : Nat) (check : Nat)
    (hp : [.sw, .dict, .host, .can, .log, .pwr, .sent] ⊆ pl) (hk : Only pl sa sb) :
    Only pl sa (ledgerFault store index check sb) := by
  unfold ledgerFault
  try dsimp only
  repeat'
    with_reducible (first
      | assumption | exact List.Subset.trans (by decide) hp | apply Only.gite | apply Only.gdite | apply bump_parts
      | apply log_parts | (intro _) | split | refine Only.sw_upd (partMem hp (by decide)) ?_)

theorem returnCredit_parts {pl : List Part} {sa sb : State} (stall : Nat) (vc : Nat) (hp : [.ports] ⊆ pl)
    (hk : Only pl sa sb) :
    Only pl sa (returnCredit stall vc sb) := by
  unfold returnCredit
  try dsimp only
  repeat'
    with_reducible (first
      | assumption | exact List.Subset.trans (by decide) hp | apply Only.gite | apply Only.gdite | apply modPort_parts
      | (intro _) | split)

theorem freeBuf_parts {pl : List Part} {sa sb : State} (store : Nat) (index : Nat) (hp : [.ports, .sw] ⊆ pl)
    (hk : Only pl sa sb) :
    Only pl sa (freeBuf store index sb) := by
  unfold freeBuf
  try dsimp only
  repeat'
    with_reducible (first
      | assumption | exact List.Subset.trans (by decide) hp | apply Only.gite | apply Only.gdite | apply returnCredit_parts
      | apply setBuf_parts | (intro _) | split)

theorem noteHighest_parts {pl : List Part} {sa sb : State} (stall : Nat) (hp : [.sw] ⊆ pl) (hk : Only pl sa sb) :
    Only pl sa (noteHighest stall sb) := by
  unfold noteHighest
  try dsimp only
  repeat'
    with_reducible (first
      | assumption | exact List.Subset.trans (by decide) hp | apply Only.gite | apply Only.gdite | (intro _) | split
      | refine Only.sw_upd (partMem hp (by decide)) ?_)

theorem allocBuf_parts {pl : List Part} {sa sb : State} (p : PortN) (vc : Nat) (tenant : Nat) (c : Cell)
    (hp : [.sw, .dict, .host, .can, .log, .pwr, .sent] ⊆ pl) (hk : Only pl sa sb) :
    Only pl sa (allocBuf p vc tenant c sb).2 := by
  unfold allocBuf
  try dsimp only
  repeat'
    with_reducible (first
      | assumption | exact List.Subset.trans (by decide) hp | apply Only.gite | apply Only.gdite | apply log_parts
      | apply bump_parts | apply noteHighest_parts | apply setBuf_parts | (intro _) | split)

theorem addHolders_parts {pl : List Part} {sa sb : State} (store : Nat) (index : Nat) (n : Nat)
    (hp : [.sw, .dict, .host, .can, .log, .pwr, .sent] ⊆ pl) (hk : Only pl sa sb) :
    Only pl sa (addHolders store index n sb).2 := by
  unfold addHolders
  try dsimp only
  repeat'
    with_reducible (first
      | assumption | exact List.Subset.trans (by decide) hp | apply Only.gite | apply Only.gdite | apply setBuf_parts
      | apply ledgerFault_parts | (intro _) | split)

theorem releaseCopy_parts {pl : List Part} {sa sb : State} (store : Nat) (index : Nat)
    (hp : [.ports, .sw, .dict, .host, .can, .log, .pwr, .sent] ⊆ pl) (hk : Only pl sa sb) :
    Only pl sa (releaseCopy store index sb) := by
  unfold releaseCopy
  try dsimp only
  repeat'
    with_reducible (first
      | assumption | exact List.Subset.trans (by decide) hp | apply Only.gite | apply Only.gdite | apply ledgerFault_parts
      | apply freeBuf_parts | apply setBuf_parts | (intro _) | split)

theorem layPools_parts {pl : List Part} {sa sb : State} (p : PortN) (hp : [.ports] ⊆ pl) (hk : Only pl sa sb) :
    Only pl sa (layPools p sb) := by
  unfold layPools
  try dsimp only
  repeat'
    with_reducible (first
      | assumption | exact List.Subset.trans (by decide) hp | apply Only.gite | apply Only.gdite | apply modPort_parts
      | (intro _) | split)

theorem issueCell_parts {pl : List Part} {sa sb : State} (p : PortN) (c : Cell) (hp : [.ports, .dict, .sent] ⊆ pl)
    (hk : Only pl sa sb) :
    Only pl sa (issueCell p c sb) := by
  unfold issueCell
  try dsimp only
  repeat'
    with_reducible (first
      | assumption | exact List.Subset.trans (by decide) hp | apply Only.gite | apply Only.gdite | apply emit_parts
      | apply bump_parts | apply modPort_parts | (intro _) | split)

theorem auditAct_parts {pl : List Part} {sa sb : State} (stall : Nat) (index : Nat) (b : Buf)
    (hp : [.ports, .sw, .dict, .host, .can, .log, .pwr, .sent] ⊆ pl) (hk : Only pl sa sb) :
    Only pl sa (auditAct stall index b sb) := by
  unfold auditAct
  try dsimp only
  repeat'
    with_reducible (first
      | assumption | exact List.Subset.trans (by decide) hp | apply Only.gite | apply Only.gdite | apply log_parts
      | apply bump_parts | apply freeBuf_parts | apply setBuf_parts | (intro _) | split)

theorem auditVisit_parts {pl : List Part} {sa sb : State} (stall : Nat) (index : Nat)
    (hp : [.ports, .sw, .dict, .host, .can, .log, .pwr, .sent] ⊆ pl) (hk : Only pl sa sb) :
    Only pl sa (auditVisit stall index sb) := by
  unfold auditVisit
  try dsimp only
  repeat'
    with_reducible (first
      | assumption | exact List.Subset.trans (by decide) hp | apply Only.gite | apply Only.gdite | apply auditAct_parts
      | (intro _) | split | refine Only.sw_upd (partMem hp (by decide)) ?_)

theorem sumpAudit_parts {pl : List Part} {sa sb : State}
    (hp : [.time, .ports, .sw, .dict, .host, .can, .log, .pwr, .sent] ⊆ pl) (hk : Only pl sa sb) :
    Only pl sa (sumpAudit sb) := by
  unfold sumpAudit
  try dsimp only
  repeat'
    with_reducible (first
      | assumption | exact List.Subset.trans (by decide) hp | apply Only.gite | apply Only.gdite | apply advanceTo_parts
      | apply auditVisit_parts | apply Only.foldl | apply Only.foldl_snd | apply Only.foldl_fst | (intro _) | split
      | refine Only.sw_upd (partMem hp (by decide)) ?_)

end Sys2Proof.Machine
end

