-- ==== Sys2Proof/Laws/OnlyRoutes.lean ====
section
/-! SUPPORT. What the operations of Machine/Routes.lean may change. -/

namespace Sys2Proof.Machine

open Sys2Proof

set_option linter.unusedTactic false
set_option linter.unreachableTactic false

theorem modBank_parts {pl : List Part} {sa sb : State} (b : Nat) (f : RouteBank → RouteBank) (hp : [.routes] ⊆ pl)
    (hk : Only pl sa sb) :
    Only pl sa (modBank b f sb) := by
  unfold modBank
  try dsimp only
  repeat'
    with_reducible (first
      | assumption | exact List.Subset.trans (by decide) hp | apply Only.gite | apply Only.gdite | (intro _) | split
      | refine Only.routes_upd (partMem hp (by decide)) ?_)

theorem routeEntryKeep_parts {pl : List Part} {sa sb : State} (src : Route) (table : Nat) (i : Nat) (v : Nat)
    (hp : [.routes, .dict, .host, .sent] ⊆ pl) (hk : Only pl sa sb) :
    Only pl sa (routeEntryKeep src table i v sb) := by
  unfold routeEntryKeep
  try dsimp only
  repeat'
    with_reducible (first
      | assumption | exact List.Subset.trans (by decide) hp | apply Only.gite | apply Only.gdite | apply reportClamps_parts
      | apply modBank_parts | (intro _) | split)

theorem routeEntryWrite_parts {pl : List Part} {sa sb : State} (src : Route) (table : Nat) (i : Nat) (v : Nat)
    (hp : [.routes, .dict, .host, .sent] ⊆ pl) (hk : Only pl sa sb) :
    Only pl sa (routeEntryWrite src table i v sb) := by
  unfold routeEntryWrite
  try dsimp only
  repeat'
    with_reducible (first
      | assumption | exact List.Subset.trans (by decide) hp | apply Only.gite | apply Only.gdite | apply beginOp_parts
      | apply routeEntryKeep_parts | apply refuseRule_parts | (intro _) | split)

theorem saltWrite_parts {pl : List Part} {sa sb : State} (v : Nat) (hp : [.routes, .dict] ⊆ pl) (hk : Only pl sa sb) :
    Only pl sa (saltWrite v sb) := by
  unfold saltWrite
  try dsimp only
  repeat'
    with_reducible (first
      | assumption | exact List.Subset.trans (by decide) hp | apply Only.gite | apply Only.gdite | apply beginOp_parts
      | apply modBank_parts | apply refuseRule_parts | (intro _) | split)

theorem ngroupsWrite_parts {pl : List Part} {sa sb : State} (src : Route) (v : Nat)
    (hp : [.routes, .dict, .host, .sent] ⊆ pl) (hk : Only pl sa sb) :
    Only pl sa (ngroupsWrite src v sb) := by
  unfold ngroupsWrite
  try dsimp only
  repeat'
    with_reducible (first
      | assumption | exact List.Subset.trans (by decide) hp | apply Only.gite | apply Only.gdite | apply beginOp_parts
      | apply modBank_parts | apply clamped_parts | apply refuseRule_parts | (intro _) | split)

theorem routeArmWrite_parts {pl : List Part} {sa sb : State} (src : Route) (v : Nat)
    (hp : [.routes, .dict, .host, .sent] ⊆ pl) (hk : Only pl sa sb) :
    Only pl sa (routeArmWrite src v sb) := by
  unfold routeArmWrite
  try dsimp only
  repeat'
    with_reducible (first
      | assumption | exact List.Subset.trans (by decide) hp | apply Only.gite | apply Only.gdite | apply beginOp_parts
      | apply odSet_parts | apply modBank_parts | apply refuseRule_parts | apply keepArm_parts | (intro _) | split)

theorem sendNotice_parts {pl : List Part} {sa sb : State} (p : PortN) (hp : [.ports, .dict, .sent] ⊆ pl)
    (hk : Only pl sa sb) :
    Only pl sa (sendNotice p sb) := by
  unfold sendNotice
  try dsimp only
  repeat'
    with_reducible (first
      | assumption | exact List.Subset.trans (by decide) hp | apply Only.gite | apply Only.gdite | apply issueCell_parts
      | (intro _) | split)

theorem noticeAnswered_parts {pl : List Part} {sa sb : State} (p : PortN) (epoch : BitVec 1) (hp : [.ports] ⊆ pl)
    (hk : Only pl sa sb) :
    Only pl sa (noticeAnswered p epoch sb) := by
  unfold noticeAnswered
  try dsimp only
  repeat'
    with_reducible (first
      | assumption | exact List.Subset.trans (by decide) hp | apply Only.gite | apply Only.gdite | apply modPort_parts
      | (intro _) | split)

theorem routeBankSwitch_parts {pl : List Part} {sa sb : State}
    (hp : [.time, .ports, .routes, .bep, .dict, .host, .sent] ⊆ pl) (hk : Only pl sa sb) :
    Only pl sa (routeBankSwitch sb) := by
  unfold routeBankSwitch
  try dsimp only
  repeat'
    with_reducible (first
      | assumption | exact List.Subset.trans (by decide) hp | apply Only.gite | apply Only.gdite | apply odSet_parts
      | apply advanceTo_parts | apply modBank_parts | apply raiseCause_parts | apply forPorts_parts | apply sendNotice_parts
      | apply modPort_parts | (intro _) | split | refine Only.routes_upd (partMem hp (by decide)) ?_
      | refine Only.bep_upd (partMem hp (by decide)) ?_)

theorem routeBankDrainEnd_parts {pl : List Part} {sa sb : State} (hp : [.time, .ports, .routes, .host, .sent] ⊆ pl)
    (hk : Only pl sa sb) :
    Only pl sa (routeBankDrainEnd sb) := by
  unfold routeBankDrainEnd
  try dsimp only
  repeat'
    with_reducible (first
      | assumption | exact List.Subset.trans (by decide) hp | apply Only.gite | apply Only.gdite | apply advanceTo_parts
      | apply raiseCause_parts | apply forPorts_parts | apply modPort_parts | apply modBank_parts | (intro _) | split)

theorem routeBankCopy_parts {pl : List Part} {sa sb : State} (src : Route) (v : Nat)
    (hp : [.routes, .dict, .host, .sent] ⊆ pl) (hk : Only pl sa sb) :
    Only pl sa (routeBankCopy src v sb) := by
  unfold routeBankCopy
  try dsimp only
  repeat'
    with_reducible (first
      | assumption | exact List.Subset.trans (by decide) hp | apply Only.gite | apply Only.gdite | apply beginOp_parts
      | apply refuseRule_parts | apply onlyOne_parts | apply modBank_parts | (intro _) | split)

theorem takeFrom_parts {pl : List Part} {sa sb : State} (p : PortN) (c : Cell) (hp : [.ports] ⊆ pl) (hk : Only pl sa sb) :
    Only pl sa (takeFrom p c sb) := by
  unfold takeFrom
  try dsimp only
  repeat'
    with_reducible (first
      | assumption | exact List.Subset.trans (by decide) hp | apply Only.gite | apply Only.gdite | apply modPort_parts
      | (intro _) | split)

theorem rtdEntries_parts {pl : List Part} {sa sb : State} (p : PortN) (c : Cell)
    (hp : [.ports, .routes, .dict, .host, .sent] ⊆ pl) (hk : Only pl sa sb) :
    Only pl sa (rtdEntries p c sb) := by
  unfold rtdEntries
  try dsimp only
  repeat'
    with_reducible (first
      | assumption | exact List.Subset.trans (by decide) hp | apply Only.gite | apply Only.gdite | apply takeFrom_parts
      | apply routeEntryKeep_parts | apply bump_parts | apply Only.foldl | apply Only.foldl_snd | apply Only.foldl_fst
      | (intro _) | split)

theorem timSend_parts {pl : List Part} {sa sb : State} (p : PortN) (hp : [.ports, .dict, .sent] ⊆ pl)
    (hk : Only pl sa sb) :
    Only pl sa (timSend p sb) := by
  unfold timSend
  try dsimp only
  repeat'
    with_reducible (first
      | assumption | exact List.Subset.trans (by decide) hp | apply Only.gite | apply Only.gdite | apply issueCell_parts
      | (intro _) | split)

theorem timReceive_parts {pl : List Part} {sa sb : State} (p : PortN) (c : Cell) (hp : [.ports, .dict] ⊆ pl)
    (hk : Only pl sa sb) :
    Only pl sa (timReceive p c sb) := by
  unfold timReceive
  try dsimp only
  repeat'
    with_reducible (first
      | assumption | exact List.Subset.trans (by decide) hp | apply Only.gite | apply Only.gdite | apply odSet_parts
      | apply takeFrom_parts | (intro _) | split)

end Sys2Proof.Machine
end

