-- ==== Sys2Proof/Laws/OnlyStall.lean ====
section
/-! SUPPORT. What the operations of Machine/Stall.lean may change. -/

namespace Sys2Proof.Machine

open Sys2Proof

set_option linter.unusedTactic false
set_option linter.unreachableTactic false

theorem setVoq_parts {pl : List Part} {sa sb : State} (k : Nat) (l : List QEntry) (hp : [.sw] ⊆ pl) (hk : Only pl sa sb) :
    Only pl sa (setVoq k l sb) := by
  unfold setVoq
  try dsimp only
  repeat'
    with_reducible (first
      | assumption | exact List.Subset.trans (by decide) hp | apply Only.gite | apply Only.gdite | (intro _) | split
      | refine Only.sw_upd (partMem hp (by decide)) ?_)

theorem enqueue_parts {pl : List Part} {sa sb : State} (input : Nat) (out : Nat) (store : Nat) (index : Nat) (c : Cell)
    (hp : [.sw, .dict, .host, .can, .log, .pwr, .sent] ⊆ pl) (hk : Only pl sa sb) :
    Only pl sa (enqueue input out store index c sb) := by
  unfold enqueue
  try dsimp only
  repeat'
    with_reducible (first
      | assumption | exact List.Subset.trans (by decide) hp | apply Only.gite | apply Only.gdite | apply addHolders_parts
      | apply setVoq_parts | (intro _) | split)

theorem giveBack_parts {pl : List Part} {sa sb : State} (store : Nat) (index : Nat)
    (hp : [.ports, .sw, .dict, .host, .can, .log, .pwr, .sent] ⊆ pl) (hk : Only pl sa sb) :
    Only pl sa (giveBack store index sb) := by
  unfold giveBack
  try dsimp only
  repeat'
    with_reducible (first
      | assumption | exact List.Subset.trans (by decide) hp | apply Only.gite | apply Only.gdite | apply freeBuf_parts
      | apply releaseCopy_parts | (intro _) | split)

theorem countDropped_parts {pl : List Part} {sa sb : State} (p : Nat) (hp : [.ports] ⊆ pl) (hk : Only pl sa sb) :
    Only pl sa (countDropped p sb) := by
  unfold countDropped
  try dsimp only
  repeat'
    with_reducible (first
      | assumption | exact List.Subset.trans (by decide) hp | apply Only.gite | apply Only.gdite | apply modPort_parts
      | (intro _) | split)

theorem forward_parts {pl : List Part} {sa sb : State} (fr : From) (input : Nat) (store : Nat) (index : Nat) (c : Cell)
    (hp : [.ports, .sw, .dict, .host, .can, .log, .pwr, .sent] ⊆ pl) (hk : Only pl sa sb) :
    Only pl sa (forward fr input store index c sb) := by
  unfold forward
  try dsimp only
  repeat'
    with_reducible (first
      | assumption | exact List.Subset.trans (by decide) hp | apply Only.gite | apply Only.gdite | apply enqueue_parts
      | apply giveBack_parts | apply bump_parts | apply countDropped_parts | (intro _) | split)

theorem answerIn_parts {pl : List Part} {sa sb : State} (input : Nat) (store : Nat) (index : Nat) (c : Cell)
    (hp : [.ports, .sw, .dict, .host, .can, .log, .pwr, .sent] ⊆ pl) (hk : Only pl sa sb) :
    Only pl sa (answerIn input store index c sb) := by
  unfold answerIn
  try dsimp only
  repeat'
    with_reducible (first
      | assumption | exact List.Subset.trans (by decide) hp | apply Only.gite | apply Only.gdite | apply forward_parts
      | (intro _) | split)

theorem answerFromReply_parts {pl : List Part} {sa sb : State} (input : Nat) (c : Cell)
    (hp : [.ports, .sw, .dict, .host, .can, .log, .pwr, .sent] ⊆ pl) (hk : Only pl sa sb) :
    Only pl sa (answerFromReply input c sb) := by
  unfold answerFromReply
  try dsimp only
  repeat'
    with_reducible (first
      | assumption | exact List.Subset.trans (by decide) hp | apply Only.gite | apply Only.gdite | apply answerIn_parts
      | apply setBuf_parts | (intro _) | split | refine Only.sw_upd (partMem hp (by decide)) ?_)

theorem serveReplies_parts {pl : List Part} {sa sb : State}
    (hp : [.ports, .sw, .dict, .host, .can, .log, .pwr, .sent] ⊆ pl) (hk : Only pl sa sb) :
    Only pl sa (serveReplies sb) := by
  unfold serveReplies
  try dsimp only
  repeat'
    with_reducible (first
      | assumption | exact List.Subset.trans (by decide) hp | apply Only.gite | apply Only.gdite
      | apply answerFromReply_parts | apply Only.foldl | apply Only.foldl_snd | apply Only.foldl_fst | (intro _) | split
      | refine Only.sw_upd (partMem hp (by decide)) ?_)

theorem combineOrQueue_parts {pl : List Part} {sa sb : State} (input : Nat) (out : Nat) (store : Nat) (index : Nat)
    (c : Cell) (hp : [.ports, .sw, .dict, .host, .can, .log, .pwr, .sent] ⊆ pl) (hk : Only pl sa sb) :
    Only pl sa (combineOrQueue input out store index c sb) := by
  unfold combineOrQueue
  try dsimp only
  repeat'
    with_reducible (first
      | assumption | exact List.Subset.trans (by decide) hp | apply Only.gite | apply Only.gdite | apply bump_parts
      | apply giveBack_parts | apply enqueue_parts | (intro _) | split | refine Only.sw_upd (partMem hp (by decide)) ?_)

theorem noteDeparture_parts {pl : List Part} {sa sb : State} (out : Nat) (c : Cell) (hp : [.sw, .coll, .dict] ⊆ pl)
    (hk : Only pl sa sb) :
    Only pl sa (noteDeparture out c sb) := by
  unfold noteDeparture
  try dsimp only
  repeat'
    with_reducible (first
      | assumption | exact List.Subset.trans (by decide) hp | apply Only.gite | apply Only.gdite | apply departed_parts
      | (intro _) | split | refine Only.sw_upd (partMem hp (by decide)) ?_)

theorem takeResponse_parts {pl : List Part} {sa sb : State} (p : Nat) (store : Nat) (index : Nat) (k : Nat)
    (e : CombEntry) (r : Cell) (hp : [.ports, .sw, .dict, .host, .can, .log, .pwr, .sent] ⊆ pl) (hk : Only pl sa sb) :
    Only pl sa (takeResponse p store index k e r sb) := by
  unfold takeResponse
  try dsimp only
  repeat'
    with_reducible (first
      | assumption | exact List.Subset.trans (by decide) hp | apply Only.gite | apply Only.gdite | apply addHolders_parts
      | apply forward_parts | apply giveBack_parts | apply Only.foldl | apply Only.foldl_snd | apply Only.foldl_fst
      | (intro _) | split | refine Only.sw_upd (partMem hp (by decide)) ?_)

theorem memberReset_parts {pl : List Part} {sa sb : State} (e : CombEntry) (j : Joiner)
    (hp : [.ports, .sw, .dict, .host, .can, .log, .pwr, .sent] ⊆ pl) (hk : Only pl sa sb) :
    Only pl sa (memberReset e j sb) := by
  unfold memberReset
  try dsimp only
  repeat'
    with_reducible (first
      | assumption | exact List.Subset.trans (by decide) hp | apply Only.gite | apply Only.gdite | apply bump_parts
      | apply answerFromReply_parts | (intro _) | split)

theorem combineTimeout_parts {pl : List Part} {sa sb : State} (k : Nat) (hp : [.sw, .coll, .dict] ⊆ pl)
    (hk : Only pl sa sb) :
    Only pl sa (combineTimeout k sb) := by
  unfold combineTimeout
  try dsimp only
  repeat'
    with_reducible (first
      | assumption | exact List.Subset.trans (by decide) hp | apply Only.gite | apply Only.gdite | apply departed_parts
      | apply bump_parts | (intro _) | split | refine Only.sw_upd (partMem hp (by decide)) ?_)

theorem flushEntries_parts {pl : List Part} {sa sb : State} (o : Nat)
    (hp : [.ports, .sw, .coll, .dict, .host, .can, .log, .pwr, .sent] ⊆ pl) (hk : Only pl sa sb) :
    Only pl sa (flushEntries o sb) := by
  unfold flushEntries
  try dsimp only
  repeat'
    with_reducible (first
      | assumption | exact List.Subset.trans (by decide) hp | apply Only.gite | apply Only.gdite | apply departed_parts
      | apply memberReset_parts | apply Only.foldl | apply Only.foldl_snd | apply Only.foldl_fst | (intro _) | split
      | refine Only.sw_upd (partMem hp (by decide)) ?_)

theorem flushCell_parts {pl : List Part} {sa sb : State} (o : Nat) (input : Nat) (q : QEntry)
    (hp : [.ports, .sw, .dict, .host, .can, .log, .pwr, .sent] ⊆ pl) (hk : Only pl sa sb) :
    Only pl sa (flushCell o input q sb) := by
  unfold flushCell
  try dsimp only
  repeat'
    with_reducible (first
      | assumption | exact List.Subset.trans (by decide) hp | apply Only.gite | apply Only.gdite | apply bump_parts
      | apply answerIn_parts | apply giveBack_parts | (intro _) | split)

theorem flushQueues_parts {pl : List Part} {sa sb : State} (o : Nat)
    (hp : [.ports, .sw, .coll, .dict, .host, .can, .log, .pwr, .sent] ⊆ pl) (hk : Only pl sa sb) :
    Only pl sa (flushQueues o sb) := by
  unfold flushQueues
  try dsimp only
  repeat'
    with_reducible (first
      | assumption | exact List.Subset.trans (by decide) hp | apply Only.gite | apply Only.gdite | apply flushEntries_parts
      | apply flushCell_parts | apply Only.foldl | apply Only.foldl_snd | apply Only.foldl_fst | (intro _) | split
      | refine Only.sw_upd (partMem hp (by decide)) ?_)

theorem vc11AgeDrop_parts {pl : List Part} {sa sb : State} (input : Nat) (output : Nat)
    (hp : [.time, .ports, .sw, .dict, .host, .can, .log, .pwr, .sent] ⊆ pl) (hk : Only pl sa sb) :
    Only pl sa (vc11AgeDrop input output sb) := by
  unfold vc11AgeDrop
  try dsimp only
  repeat'
    with_reducible (first
      | assumption | exact List.Subset.trans (by decide) hp | apply Only.gite | apply Only.gdite | apply giveBack_parts
      | apply setVoq_parts | apply bump_parts | apply advanceTo_parts | (intro _) | split)

theorem dropBad_parts {pl : List Part} {sa sb : State} (stall : Nat) (index : Nat) (hp : [.ports, .sw, .dict] ⊆ pl)
    (hk : Only pl sa sb) :
    Only pl sa (dropBad stall index sb) := by
  unfold dropBad
  try dsimp only
  repeat'
    with_reducible (first
      | assumption | exact List.Subset.trans (by decide) hp | apply Only.gite | apply Only.gdite | apply bump_parts
      | apply freeBuf_parts | (intro _) | split | refine Only.sw_upd (partMem hp (by decide)) ?_)

end Sys2Proof.Machine
end

