-- ==== Sys2Proof/Laws/OnlyGrotto.lean ====
section
/-! SUPPORT. What the operations of Machine/Grotto.lean may change. -/

namespace Sys2Proof.Machine

open Sys2Proof

set_option linter.unusedTactic false
set_option linter.unreachableTactic false

theorem modGrotto_parts {pl : List Part} {sa sb : State} (f : Grotto → Grotto) (hp : [.grotto] ⊆ pl)
    (hk : Only pl sa sb) :
    Only pl sa (modGrotto f sb) := by
  unfold modGrotto
  try dsimp only
  repeat'
    with_reducible (first
      | assumption | exact List.Subset.trans (by decide) hp | apply Only.gite | apply Only.gdite | (intro _) | split
      | refine Only.grotto_upd (partMem hp (by decide)) ?_)

theorem setDir_parts {pl : List Part} {sa sb : State} (e : Nat) (d : DirEntry) (hp : [.grotto] ⊆ pl)
    (hk : Only pl sa sb) :
    Only pl sa (setDir e d sb) := by
  unfold setDir
  try dsimp only
  repeat'
    with_reducible (first
      | assumption | exact List.Subset.trans (by decide) hp | apply Only.gite | apply Only.gdite | apply modGrotto_parts
      | (intro _) | split)

theorem makeLost_parts {pl : List Part} {sa sb : State} (e : Nat) (m : Nat)
    (hp : [.grotto, .dict, .host, .can, .log, .pwr, .sent] ⊆ pl) (hk : Only pl sa sb) :
    Only pl sa (makeLost e m sb) := by
  unfold makeLost
  try dsimp only
  repeat'
    with_reducible (first
      | assumption | exact List.Subset.trans (by decide) hp | apply Only.gite | apply Only.gdite | apply log_parts
      | apply bump_parts | apply setDir_parts | (intro _) | split)

theorem loseEntry_parts {pl : List Part} {sa sb : State} (m : Nat) (e : Nat)
    (hp : [.grotto, .dict, .host, .can, .log, .pwr, .sent] ⊆ pl) (hk : Only pl sa sb) :
    Only pl sa (loseEntry m e sb) := by
  unfold loseEntry
  try dsimp only
  repeat'
    with_reducible (first
      | assumption | exact List.Subset.trans (by decide) hp | apply Only.gite | apply Only.gdite | apply makeLost_parts
      | apply setDir_parts | (intro _) | split)

theorem loseOwner_parts {pl : List Part} {sa sb : State} (m : Nat) (e : Nat) (hp : [.grotto] ⊆ pl) (hk : Only pl sa sb) :
    Only pl sa (loseOwner m e sb) := by
  unfold loseOwner
  try dsimp only
  repeat'
    with_reducible (first
      | assumption | exact List.Subset.trans (by decide) hp | apply Only.gite | apply Only.gdite | apply modGrotto_parts
      | (intro _) | split)

theorem applyWalks_parts {pl : List Part} {sa sb : State} (e : Nat)
    (hp : [.grotto, .dict, .host, .can, .log, .pwr, .sent] ⊆ pl) (hk : Only pl sa sb) :
    Only pl sa (applyWalks e sb) := by
  unfold applyWalks
  try dsimp only
  repeat'
    with_reducible (first
      | assumption | exact List.Subset.trans (by decide) hp | apply Only.gite | apply Only.gdite | apply loseEntry_parts
      | apply Only.foldl | apply Only.foldl_snd | apply Only.foldl_fst | (intro _) | split)

theorem dropBlock_parts {pl : List Part} {sa sb : State} (x : Nat × Bool) (hp : [.bep, .grotto, .mem] ⊆ pl)
    (hk : Only pl sa sb) :
    Only pl sa (dropBlock x sb) := by
  unfold dropBlock
  try dsimp only
  repeat'
    with_reducible (first
      | assumption | exact List.Subset.trans (by decide) hp | apply Only.gite | apply Only.gdite | apply modGrotto_parts
      | apply putLine_parts | (intro _) | split)

theorem repairBlock_parts {pl : List Part} {sa sb : State} (b : Nat)
    (hp : [.grotto, .dict, .host, .can, .log, .pwr, .sent] ⊆ pl) (hk : Only pl sa sb) :
    Only pl sa (repairBlock b sb) := by
  unfold repairBlock
  try dsimp only
  repeat'
    with_reducible (first
      | assumption | exact List.Subset.trans (by decide) hp | apply Only.gite | apply Only.gdite | apply log_parts
      | apply bump_parts | apply modGrotto_parts | apply Only.foldl | apply Only.foldl_snd | apply Only.foldl_fst
      | (intro _) | split)

theorem useBlock_parts {pl : List Part} {sa sb : State} (e : Nat) (dirty : Bool)
    (hp : [.bep, .grotto, .mem, .dict, .host, .can, .log, .pwr, .sent] ⊆ pl) (hk : Only pl sa sb) :
    Only pl sa (useBlock e dirty sb) := by
  unfold useBlock
  try dsimp only
  repeat'
    with_reducible (first
      | assumption | exact List.Subset.trans (by decide) hp | apply Only.gite | apply Only.gdite | apply modGrotto_parts
      | apply bump_parts | apply dropBlock_parts | apply readLine_parts | apply repairBlock_parts | (intro _) | split)

theorem writeDir_parts {pl : List Part} {sa sb : State} (e : Nat) (d : DirEntry)
    (hp : [.bep, .grotto, .mem, .dict, .host, .can, .log, .pwr, .sent] ⊆ pl) (hk : Only pl sa sb) :
    Only pl sa (writeDir e d sb) := by
  unfold writeDir
  try dsimp only
  repeat'
    with_reducible (first
      | assumption | exact List.Subset.trans (by decide) hp | apply Only.gite | apply Only.gdite | apply useBlock_parts
      | apply setDir_parts | (intro _) | split)

theorem probe_parts {pl : List Part} {sa sb : State} (m : Nat) (e : Nat) (kind : Nat)
    (hp : [.sw, .grotto, .dict, .host, .can, .log, .pwr, .sent] ⊆ pl) (hk : Only pl sa sb) :
    Only pl sa (probe m e kind sb).2 := by
  unfold probe
  try dsimp only
  repeat'
    with_reducible (first
      | assumption | exact List.Subset.trans (by decide) hp | apply Only.gite | apply Only.gdite | apply bump_parts
      | apply modGrotto_parts | apply enqueue_parts | (intro _) | split)

theorem probeAll_parts {pl : List Part} {sa sb : State} (ms : List Nat) (e : Nat) (kind : Nat)
    (hp : [.sw, .grotto, .dict, .host, .can, .log, .pwr, .sent] ⊆ pl) (hk : Only pl sa sb) :
    Only pl sa (probeAll ms e kind sb).2 := by
  unfold probeAll
  try dsimp only
  repeat'
    with_reducible (first
      | assumption | exact List.Subset.trans (by decide) hp | apply Only.gite | apply Only.gdite | apply probe_parts
      | apply Only.foldl | apply Only.foldl_snd | apply Only.foldl_fst | (intro _) | split)

theorem sendWriteBack_parts {pl : List Part} {sa sb : State} (e : Nat) (data : Bytes)
    (hp : [.bep, .ep, .grotto, .dict] ⊆ pl) (hk : Only pl sa sb) :
    Only pl sa (sendWriteBack e data sb).2 := by
  unfold sendWriteBack
  try dsimp only
  repeat'
    with_reducible (first
      | assumption | exact List.Subset.trans (by decide) hp | apply Only.gite | apply Only.gdite | apply setCount_parts
      | apply bump_parts | apply launch_parts | apply tagUsed_parts | (intro _) | split)

theorem setBusy_parts {pl : List Part} {sa sb : State} (e : Nat) (b : Busy) (hp : [.grotto] ⊆ pl) (hk : Only pl sa sb) :
    Only pl sa (setBusy e b sb) := by
  unfold setBusy
  try dsimp only
  repeat'
    with_reducible (first
      | assumption | exact List.Subset.trans (by decide) hp | apply Only.gite | apply Only.gdite | apply modGrotto_parts
      | (intro _) | split)

theorem settle_parts {pl : List Part} {sa sb : State} (e : Nat) (hp : [.grotto, .lantern] ⊆ pl) (hk : Only pl sa sb) :
    Only pl sa (settle e sb) := by
  unfold settle
  try dsimp only
  repeat'
    with_reducible (first
      | assumption | exact List.Subset.trans (by decide) hp | apply Only.gite | apply Only.gdite | apply progress_parts
      | apply modGrotto_parts | (intro _) | split)

theorem forwardRequest_parts {pl : List Part} {sa sb : State} (input : Nat) (q : QEntry) (entry : Option Nat)
    (hp : [.sw, .grotto, .dict, .host, .can, .log, .pwr, .sent] ⊆ pl) (hk : Only pl sa sb) :
    Only pl sa (forwardRequest input q entry sb) := by
  unfold forwardRequest
  try dsimp only
  repeat'
    with_reducible (first
      | assumption | exact List.Subset.trans (by decide) hp | apply Only.gite | apply Only.gdite | apply modGrotto_parts
      | apply enqueue_parts | (intro _) | split)

theorem windowRelease_parts {pl : List Part} {sa sb : State} (c : Cell) (hp : [.bep] ⊆ pl) (hk : Only pl sa sb) :
    Only pl sa (windowRelease c sb) := by
  unfold windowRelease
  try dsimp only
  repeat'
    with_reducible (first
      | assumption | exact List.Subset.trans (by decide) hp | apply Only.gite | apply Only.gdite | apply recordRelease_parts
      | (intro _) | split | refine Only.bep_upd (partMem hp (by decide)) ?_)

theorem probesDone_parts {pl : List Part} {sa sb : State} (e : Nat)
    (hp : [.ports, .sw, .bep, .ep, .grotto, .mem, .dict, .host, .can, .log, .lantern, .pwr, .sent] ⊆ pl)
    (hk : Only pl sa sb) :
    Only pl sa (probesDone e sb) := by
  unfold probesDone
  try dsimp only
  repeat'
    with_reducible (first
      | assumption | exact List.Subset.trans (by decide) hp | apply Only.gite | apply Only.gdite | apply writeDir_parts
      | apply settle_parts | apply bump_parts | apply setBusy_parts | apply sendWriteBack_parts | apply answerIn_parts
      | apply forwardRequest_parts | apply windowRelease_parts | (intro _) | split)

theorem probeAnswered_parts {pl : List Part} {sa sb : State} (tag : Nat) (data : Option Bytes)
    (hp : [.ports, .sw, .bep, .ep, .grotto, .mem, .dict, .host, .can, .log, .lantern, .pwr, .sent] ⊆ pl)
    (hk : Only pl sa sb) :
    Only pl sa (probeAnswered tag data sb) := by
  unfold probeAnswered
  try dsimp only
  repeat'
    with_reducible (first
      | assumption | exact List.Subset.trans (by decide) hp | apply Only.gite | apply Only.gdite | apply modGrotto_parts
      | apply setBusy_parts | apply probesDone_parts | (intro _) | split)

theorem pumpWork_parts {pl : List Part} {sa sb : State} (fuel : Nat) (hp : [.ports, .sw, .bep, .ep, .grotto, .mem, .dict, .host, .can, .log, .lantern, .pwr, .sent] ⊆ pl) (hk : Only pl sa sb) :
    Only pl sa (pumpWork fuel sb) := by
  induction fuel generalizing sb with
  | zero => exact hk
  | succ fuel ih =>
    unfold pumpWork
    split
    · exact hk
    · rename_i w _
      dsimp only
      have a := applyWalks_parts w.2.1 (List.Subset.trans (by decide) hp) (modGrotto_parts (fun g => { g with work := g.work.erase w }) (List.Subset.trans (by decide) hp) hk)
      generalize applyWalks w.2.1 (modGrotto (fun g => { g with work := g.work.erase w }) sb) = u at a ⊢
      apply ih
      apply Only.gite
      · exact fun _ => probesDone_parts _ (List.Subset.trans (by decide) hp) (setBusy_parts _ _ (List.Subset.trans (by decide) hp) (probeAll_parts _ _ _ (List.Subset.trans (by decide) hp) a))
      · exact fun _ => setBusy_parts _ _ (List.Subset.trans (by decide) hp) (probeAll_parts _ _ _ (List.Subset.trans (by decide) hp) a)

theorem countAccess_parts {pl : List Part} {sa sb : State} (c : Cell) (grant : Nat) (hp : [.dict] ⊆ pl)
    (hk : Only pl sa sb) :
    Only pl sa (countAccess c grant sb) := by
  unfold countAccess
  try dsimp only
  repeat'
    with_reducible (first
      | assumption | exact List.Subset.trans (by decide) hp | apply Only.gite | apply Only.gdite | apply bump_parts
      | (intro _) | split)

theorem beginAccess_parts {pl : List Part} {sa sb : State} (input : Nat) (q : QEntry) (e : Nat)
    (hp : [.ports, .sw, .bep, .ep, .grotto, .mem, .dict, .host, .can, .log, .lantern, .pwr, .sent] ⊆ pl)
    (hk : Only pl sa sb) :
    Only pl sa (beginAccess input q e sb) := by
  unfold beginAccess
  try dsimp only
  repeat'
    with_reducible (first
      | assumption | exact List.Subset.trans (by decide) hp | apply Only.gite | apply Only.gdite | apply useBlock_parts
      | apply applyWalks_parts | apply answerIn_parts | apply bump_parts | apply countAccess_parts
      | apply checkAcquire_parts | apply probeAll_parts | apply setBusy_parts | apply probesDone_parts | (intro _) | split)

theorem directoryAccess_parts {pl : List Part} {sa sb : State}
    (hp : [.ports, .sw, .bep, .ep, .grotto, .mem, .dict, .host, .can, .log, .lantern, .pwr, .sent] ⊆ pl)
    (hk : Only pl sa sb) :
    Only pl sa (directoryAccess sb) := by
  unfold directoryAccess
  try dsimp only
  repeat'
    with_reducible (first
      | assumption | exact List.Subset.trans (by decide) hp | apply Only.gite | apply Only.gdite | apply pumpWork_parts
      | apply modGrotto_parts | apply beginAccess_parts | apply combineOrQueue_parts | (intro _) | split)

theorem directoryTake_parts {pl : List Part} {sa sb : State} (input : Nat) (out : Nat) (store : Nat) (index : Nat)
    (c : Cell) (hp : [.ports, .sw, .grotto, .dict, .host, .can, .log, .pwr, .sent] ⊆ pl) (hk : Only pl sa sb) :
    Only pl sa (directoryTake input out store index c sb) := by
  unfold directoryTake
  try dsimp only
  repeat'
    with_reducible (first
      | assumption | exact List.Subset.trans (by decide) hp | apply Only.gite | apply Only.gdite | apply modGrotto_parts
      | apply answerIn_parts | apply bump_parts | apply enqueue_parts | apply combineOrQueue_parts | (intro _) | split)

theorem takeHeads_parts {pl : List Part} {sa sb : State} (hp : [.sw, .grotto] ⊆ pl) (hk : Only pl sa sb) :
    Only pl sa (takeHeads sb) := by
  unfold takeHeads
  try dsimp only
  repeat'
    with_reducible (first
      | assumption | exact List.Subset.trans (by decide) hp | apply Only.gite | apply Only.gdite | apply modGrotto_parts
      | apply setVoq_parts | apply Only.foldl | apply Only.foldl_snd | apply Only.foldl_fst | (intro _) | split)

theorem answered_parts {pl : List Part} {sa sb : State} (e : Nat) (hp : [.grotto, .lantern] ⊆ pl) (hk : Only pl sa sb) :
    Only pl sa (answered e sb) := by
  unfold answered
  try dsimp only
  repeat'
    with_reducible (first
      | assumption | exact List.Subset.trans (by decide) hp | apply Only.gite | apply Only.gdite | apply settle_parts
      | apply setBusy_parts | (intro _) | split)

theorem grottoDepart_parts {pl : List Part} {sa sb : State} (out : Nat) (r : Cell) (hp : [.grotto, .lantern] ⊆ pl)
    (hk : Only pl sa sb) :
    Only pl sa (grottoDepart out r sb) := by
  unfold grottoDepart
  try dsimp only
  repeat'
    with_reducible (first
      | assumption | exact List.Subset.trans (by decide) hp | apply Only.gite | apply Only.gdite | apply answered_parts
      | apply modGrotto_parts | apply Only.foldl | apply Only.foldl_snd | apply Only.foldl_fst | (intro _) | split)

theorem writeBackDone_parts {pl : List Part} {sa sb : State} (e : Nat)
    (hp : [.sw, .bep, .grotto, .dict, .host, .can, .log, .lantern, .pwr, .sent] ⊆ pl) (hk : Only pl sa sb) :
    Only pl sa (writeBackDone e sb) := by
  unfold writeBackDone
  try dsimp only
  repeat'
    with_reducible (first
      | assumption | exact List.Subset.trans (by decide) hp | apply Only.gite | apply Only.gdite | apply forwardRequest_parts
      | apply windowRelease_parts | apply setBusy_parts | apply settle_parts | (intro _) | split)

theorem snpReceive_parts {pl : List Part} {sa sb : State} (p : Nat) (c : Cell) (hp : [.grotto, .sent] ⊆ pl)
    (hk : Only pl sa sb) :
    Only pl sa (snpReceive p c sb) := by
  unfold snpReceive
  try dsimp only
  repeat'
    with_reducible (first
      | assumption | exact List.Subset.trans (by decide) hp | apply Only.gite | apply Only.gdite | apply emit_parts
      | apply modGrotto_parts | (intro _) | split)

theorem memberDrop_parts {pl : List Part} {sa sb : State} (p : Nat) (hp : [.grotto, .dict, .host, .sent] ⊆ pl)
    (hk : Only pl sa sb) :
    Only pl sa (memberDrop p sb) := by
  unfold memberDrop
  try dsimp only
  repeat'
    with_reducible (first
      | assumption | exact List.Subset.trans (by decide) hp | apply Only.gite | apply Only.gdite | apply modGrotto_parts
      | apply emit_parts | apply report_parts | apply Only.foldl | apply Only.foldl_snd | apply Only.foldl_fst | (intro _)
      | split)

theorem cleanProbes_parts {pl : List Part} {sa sb : State} (m : Nat)
    (hp : [.ports, .sw, .bep, .ep, .grotto, .mem, .dict, .host, .can, .log, .lantern, .pwr, .sent] ⊆ pl)
    (hk : Only pl sa sb) :
    Only pl sa (cleanProbes m sb) := by
  unfold cleanProbes
  try dsimp only
  repeat'
    with_reducible (first
      | assumption | exact List.Subset.trans (by decide) hp | apply Only.gite | apply Only.gdite | apply probeAnswered_parts
      | apply Only.foldl | apply Only.foldl_snd | apply Only.foldl_fst | (intro _) | split)

theorem loseMember_parts {pl : List Part} {sa sb : State} (m : Nat)
    (hp : [.ports, .sw, .bep, .ep, .grotto, .mem, .dict, .host, .can, .log, .lantern, .pwr, .sent] ⊆ pl)
    (hk : Only pl sa sb) :
    Only pl sa (loseMember m sb) := by
  unfold loseMember
  try dsimp only
  repeat'
    with_reducible (first
      | assumption | exact List.Subset.trans (by decide) hp | apply Only.gite | apply Only.gdite | apply cleanProbes_parts
      | apply modGrotto_parts | (intro _) | split)

theorem walkStep_parts {pl : List Part} {sa sb : State} (m : Nat) (pos : Nat)
    (hp : [.grotto, .dict, .host, .can, .log, .pwr, .sent] ⊆ pl) (hk : Only pl sa sb) :
    Only pl sa (walkStep m pos sb) := by
  unfold walkStep
  try dsimp only
  repeat'
    with_reducible (first
      | assumption | exact List.Subset.trans (by decide) hp | apply Only.gite | apply Only.gdite | apply modGrotto_parts
      | apply loseOwner_parts | apply loseEntry_parts | apply Only.foldl | apply Only.foldl_snd | apply Only.foldl_fst
      | (intro _) | split)

theorem lossWalkStep_parts {pl : List Part} {sa sb : State}
    (hp : [.ports, .sw, .bep, .ep, .grotto, .mem, .dict, .host, .can, .log, .lantern, .pwr, .sent] ⊆ pl)
    (hk : Only pl sa sb) :
    Only pl sa (lossWalkStep sb) := by
  unfold lossWalkStep
  try dsimp only
  repeat'
    with_reducible (first
      | assumption | exact List.Subset.trans (by decide) hp | apply Only.gite | apply Only.gdite | apply pumpWork_parts
      | apply walkStep_parts | apply Only.foldl | apply Only.foldl_snd | apply Only.foldl_fst | (intro _) | split)

theorem snrReceive_parts {pl : List Part} {sa sb : State} (c : Cell)
    (hp : [.ports, .sw, .bep, .ep, .grotto, .mem, .dict, .host, .can, .log, .lantern, .pwr, .sent] ⊆ pl)
    (hk : Only pl sa sb) :
    Only pl sa (snrReceive c sb) := by
  unfold snrReceive
  try dsimp only
  repeat'
    with_reducible (first
      | assumption | exact List.Subset.trans (by decide) hp | apply Only.gite | apply Only.gdite | apply takeFrom_parts
      | apply bump_parts | apply pumpWork_parts | apply probeAnswered_parts | (intro _) | split)

theorem forwardTimeout_parts {pl : List Part} {sa sb : State} (e : Nat) (hp : [.grotto, .dict, .lantern] ⊆ pl)
    (hk : Only pl sa sb) :
    Only pl sa (forwardTimeout e sb) := by
  unfold forwardTimeout
  try dsimp only
  repeat'
    with_reducible (first
      | assumption | exact List.Subset.trans (by decide) hp | apply Only.gite | apply Only.gdite | apply modGrotto_parts
      | apply bump_parts | apply settle_parts | apply setBusy_parts | (intro _) | split)

theorem probeTimeout_parts {pl : List Part} {sa sb : State} (tag : Nat)
    (hp : [.ports, .sw, .bep, .ep, .grotto, .mem, .dict, .host, .can, .log, .lantern, .pwr, .sent] ⊆ pl)
    (hk : Only pl sa sb) :
    Only pl sa (probeTimeout tag sb) := by
  unfold probeTimeout
  try dsimp only
  repeat'
    with_reducible (first
      | assumption | exact List.Subset.trans (by decide) hp | apply Only.gite | apply Only.gdite | apply loseMember_parts
      | (intro _) | split)

theorem directoryEnable_parts {pl : List Part} {sa sb : State} (src : Route) (v : Nat)
    (hp : [.grotto, .dict, .host, .sent] ⊆ pl) (hk : Only pl sa sb) :
    Only pl sa (directoryEnable src v sb) := by
  unfold directoryEnable
  try dsimp only
  repeat'
    with_reducible (first
      | assumption | exact List.Subset.trans (by decide) hp | apply Only.gite | apply Only.gdite | apply beginOp_parts
      | apply keepScalar_parts | apply modGrotto_parts | (intro _) | split)

theorem directoryDisable_parts {pl : List Part} {sa sb : State} (hp : [.dict] ⊆ pl) (hk : Only pl sa sb) :
    Only pl sa (directoryDisable sb) := by
  unfold directoryDisable
  try dsimp only
  repeat'
    with_reducible (first
      | assumption | exact List.Subset.trans (by decide) hp | apply Only.gite | apply Only.gdite | apply beginOp_parts
      | apply refuseRule_parts | apply odSet_parts | (intro _) | split)

theorem recallWrite_parts {pl : List Part} {sa sb : State} (src : Route) (v : Nat)
    (hp : [.ports, .sw, .bep, .ep, .grotto, .mem, .dict, .host, .can, .log, .lantern, .pwr, .sent] ⊆ pl)
    (hk : Only pl sa sb) :
    Only pl sa (recallWrite src v sb) := by
  unfold recallWrite
  try dsimp only
  repeat'
    with_reducible (first
      | assumption | exact List.Subset.trans (by decide) hp | apply Only.gite | apply Only.gdite | apply onlyOne_parts
      | apply beginOp_parts | apply pumpWork_parts | apply modGrotto_parts | (intro _) | split)

theorem windowEntryWrite_parts {pl : List Part} {sa sb : State} (src : Route) (k : Nat) (v : Nat)
    (hp : [.dict, .host, .sent] ⊆ pl) (hk : Only pl sa sb) :
    Only pl sa (windowEntryWrite src k v sb) := by
  unfold windowEntryWrite
  try dsimp only
  repeat'
    with_reducible (first
      | assumption | exact List.Subset.trans (by decide) hp | apply Only.gite | apply Only.gdite | apply beginOp_parts
      | apply refuseCondition_parts | apply reportClamps_parts | apply odSet_parts | (intro _) | split)

end Sys2Proof.Machine
end

