-- ==== Sys2Proof/Laws/OnlyKernels.lean ====
section
/-! SUPPORT. What the operations of Machine/Kernels.lean may change. -/

namespace Sys2Proof.Machine

open Sys2Proof

set_option linter.unusedTactic false
set_option linter.unreachableTactic false

theorem modCmp_parts {pl : List Part} {sa sb : State} (f : Compute → Compute) (hp : [.cmp] ⊆ pl) (hk : Only pl sa sb) :
    Only pl sa (modCmp f sb) := by
  unfold modCmp
  try dsimp only
  repeat'
    with_reducible (first
      | assumption | exact List.Subset.trans (by decide) hp | apply Only.gite | apply Only.gdite | (intro _) | split
      | refine Only.cmp_upd (partMem hp (by decide)) ?_)

theorem kernelLoad_parts {pl : List Part} {sa sb : State} (src : Route) (v : Nat) (hp : [.cmp, .dict, .host, .sent] ⊆ pl)
    (hk : Only pl sa sb) :
    Only pl sa (kernelLoad src v sb) := by
  unfold kernelLoad
  try dsimp only
  repeat'
    with_reducible (first
      | assumption | exact List.Subset.trans (by decide) hp | apply Only.gite | apply Only.gdite | apply beginOp_parts
      | apply refuseRule_parts | apply modCmp_parts | apply onlyOne_parts | (intro _) | split)

theorem extendMeasurement_parts {pl : List Part} {sa sb : State} (i : Fin 9) (d : BitVec 512) (hp : [.sec] ⊆ pl)
    (hk : Only pl sa sb) :
    Only pl sa (extendMeasurement i d sb) := by
  unfold extendMeasurement
  try dsimp only
  repeat'
    with_reducible (first
      | assumption | exact List.Subset.trans (by decide) hp | apply Only.gite | apply Only.gdite | (intro _) | split
      | refine Only.sec_upd (partMem hp (by decide)) ?_)

theorem postLoad_parts {pl : List Part} {sa sb : State} (code : Nat) (kid : Nat) (hp : [.cmp, .host, .sent] ⊆ pl)
    (hk : Only pl sa sb) :
    Only pl sa (postLoad code kid sb) := by
  unfold postLoad
  try dsimp only
  repeat'
    with_reducible (first
      | assumption | exact List.Subset.trans (by decide) hp | apply Only.gite | apply Only.gdite | apply raiseCause_parts
      | apply modCmp_parts | (intro _) | split)

theorem kernelLoadDone_parts {pl : List Part} {sa sb : State} (hp : [.bep, .cmp, .mem, .host, .sec, .sent] ⊆ pl)
    (hk : Only pl sa sb) :
    Only pl sa (kernelLoadDone sb) := by
  unfold kernelLoadDone
  try dsimp only
  repeat'
    with_reducible (first
      | assumption | exact List.Subset.trans (by decide) hp | apply Only.gite | apply Only.gdite | apply clearRegion_parts
      | apply postLoad_parts | apply modCmp_parts | apply extendMeasurement_parts | (intro _) | split)

theorem kernelUnload_parts {pl : List Part} {sa sb : State} (kid : Nat) (hp : [.cmp, .dict] ⊆ pl) (hk : Only pl sa sb) :
    Only pl sa (kernelUnload kid sb) := by
  unfold kernelUnload
  try dsimp only
  repeat'
    with_reducible (first
      | assumption | exact List.Subset.trans (by decide) hp | apply Only.gite | apply Only.gdite | apply beginOp_parts
      | apply refuseRule_parts | apply modCmp_parts | (intro _) | split)

end Sys2Proof.Machine
end

