-- ==== Sys2Proof/Laws/OnlyGroups.lean ====
section
/-! SUPPORT. What the operations of Machine/Groups.lean may change. -/

namespace Sys2Proof.Machine

open Sys2Proof

set_option linter.unusedTactic false
set_option linter.unreachableTactic false

theorem markLost_parts {pl : List Part} {sa sb : State} (lost : Nat → Bool) (hp : [.coll] ⊆ pl) (hk : Only pl sa sb) :
    Only pl sa (markLost lost sb) := by
  unfold markLost
  try dsimp only
  repeat'
    with_reducible (first
      | assumption | exact List.Subset.trans (by decide) hp | apply Only.gite | apply Only.gdite | (intro _) | split
      | refine Only.coll_upd (partMem hp (by decide)) ?_)

theorem markLostAt_parts {pl : List Part} {sa sb : State} (c : BitVec 16) (hp : [.coll] ⊆ pl) (hk : Only pl sa sb) :
    Only pl sa (markLostAt c sb) := by
  unfold markLostAt
  try dsimp only
  repeat'
    with_reducible (first
      | assumption | exact List.Subset.trans (by decide) hp | apply Only.gite | apply Only.gdite | apply markLost_parts
      | (intro _) | split)

end Sys2Proof.Machine
end

