-- ==== Sys2Proof/Laws/OnlyLink.lean ====
section
/-! SUPPORT. What the operations of Machine/Link.lean may change. -/

namespace Sys2Proof.Machine

open Sys2Proof

set_option linter.unusedTactic false
set_option linter.unreachableTactic false

theorem modLane_parts {pl : List Part} {sa sb : State} (p : PortN) (l : LaneN) (f : Lane → Lane) (hp : [.ports] ⊆ pl)
    (hk : Only pl sa sb) :
    Only pl sa (modLane p l f sb) := by
  unfold modLane
  try dsimp only
  repeat'
    with_reducible (first
      | assumption | exact List.Subset.trans (by decide) hp | apply Only.gite | apply Only.gdite | apply modPort_parts
      | (intro _) | split)

theorem sendTraining_parts {pl : List Part} {sa sb : State} (p : PortN) (hp : [.sent] ⊆ pl) (hk : Only pl sa sb) :
    Only pl sa (sendTraining p sb) := by
  unfold sendTraining
  try dsimp only
  repeat'
    with_reducible (first
      | assumption | exact List.Subset.trans (by decide) hp | apply Only.gite | apply Only.gdite | apply emit_parts
      | (intro _) | split)

theorem changeEndPoint_parts {pl : List Part} {sa sb : State} (p : PortN) (hp : [.muster] ⊆ pl) (hk : Only pl sa sb) :
    Only pl sa (changeEndPoint p sb) := by
  unfold changeEndPoint
  try dsimp only
  repeat'
    with_reducible (first
      | assumption | exact List.Subset.trans (by decide) hp | apply Only.gite | apply Only.gdite | (intro _) | split
      | refine Only.muster_upd (partMem hp (by decide)) ?_)

theorem flushPort_parts {pl : List Part} {sa sb : State} (p : PortN)
    (hp : [.ports, .sw, .bep, .ep, .grotto, .coll, .mem, .dict, .host, .can, .log, .lantern, .muster, .pwr, .sent] ⊆ pl)
    (hk : Only pl sa sb) :
    Only pl sa (flushPort p sb) := by
  unfold flushPort
  try dsimp only
  repeat'
    with_reducible (first
      | assumption | exact List.Subset.trans (by decide) hp | apply Only.gite | apply Only.gdite | apply changeEndPoint_parts
      | apply loseMember_parts | apply flushQueues_parts | apply markLostAt_parts | (intro _) | split)

theorem noPartner_parts {pl : List Part} {sa sb : State} (p : PortN) (hp : [.ports] ⊆ pl) (hk : Only pl sa sb) :
    Only pl sa (noPartner p sb) := by
  unfold noPartner
  try dsimp only
  repeat'
    with_reducible (first
      | assumption | exact List.Subset.trans (by decide) hp | apply Only.gite | apply Only.gdite | apply modPort_parts
      | (intro _) | split)

theorem discardReplay_parts {pl : List Part} {sa sb : State} (p : PortN) (hp : [.ports, .dict] ⊆ pl)
    (hk : Only pl sa sb) :
    Only pl sa (discardReplay p sb) := by
  unfold discardReplay
  try dsimp only
  repeat'
    with_reducible (first
      | assumption | exact List.Subset.trans (by decide) hp | apply Only.gite | apply Only.gdite | apply bumpN_parts
      | apply modPort_parts | (intro _) | split)

theorem seqReset_parts {pl : List Part} {sa sb : State} (p : PortN)
    (hp : [.ports, .sw, .bep, .ep, .grotto, .mem, .dict, .host, .can, .log, .lantern, .muster, .pwr, .sent] ⊆ pl)
    (hk : Only pl sa sb) :
    Only pl sa (seqReset p sb) := by
  unfold seqReset
  try dsimp only
  repeat'
    with_reducible (first
      | assumption | exact List.Subset.trans (by decide) hp | apply Only.gite | apply Only.gdite | apply changeEndPoint_parts
      | apply memberDrop_parts | apply loseMember_parts | apply discardReplay_parts | (intro _) | split)

theorem leaveActive_parts {pl : List Part} {sa sb : State} (p : PortN) (hp : [.ports, .host, .sent] ⊆ pl)
    (hk : Only pl sa sb) :
    Only pl sa (leaveActive p sb) := by
  unfold leaveActive
  try dsimp only
  repeat'
    with_reducible (first
      | assumption | exact List.Subset.trans (by decide) hp | apply Only.gite | apply Only.gdite | apply raiseCause_parts
      | apply modPort_parts | (intro _) | split)

theorem toState_parts {pl : List Part} {sa sb : State} (t : Train) (p : PortN) (hp : [.ports, .host, .sent] ⊆ pl)
    (hk : Only pl sa sb) :
    Only pl sa (toState t p sb) := by
  unfold toState
  try dsimp only
  repeat'
    with_reducible (first
      | assumption | exact List.Subset.trans (by decide) hp | apply Only.gite | apply Only.gdite | apply modPort_parts
      | apply leaveActive_parts | (intro _) | split)

theorem toDisabled_parts {pl : List Part} {sa sb : State} (p : PortN)
    (hp : [.ports, .sw, .bep, .ep, .grotto, .coll, .mem, .dict, .host, .can, .log, .lantern, .muster, .pwr, .sent] ⊆ pl)
    (hk : Only pl sa sb) :
    Only pl sa (toDisabled p sb) := by
  unfold toDisabled
  try dsimp only
  repeat'
    with_reducible (first
      | assumption | exact List.Subset.trans (by decide) hp | apply Only.gite | apply Only.gdite | apply toState_parts
      | apply flushPort_parts | apply noPartner_parts | apply modPort_parts | (intro _) | split)

theorem toDetect_parts {pl : List Part} {sa sb : State} (p : PortN) (hp : [.ports, .host, .sent] ⊆ pl)
    (hk : Only pl sa sb) :
    Only pl sa (toDetect p sb) := by
  unfold toDetect
  try dsimp only
  repeat'
    with_reducible (first
      | assumption | exact List.Subset.trans (by decide) hp | apply Only.gite | apply Only.gdite | apply sendTraining_parts
      | apply modPort_parts | apply toState_parts | (intro _) | split)

theorem wakePort_parts {pl : List Part} {sa sb : State} (p : PortN)
    (hp : [.ports, .sw, .bep, .ep, .grotto, .coll, .mem, .dict, .host, .can, .log, .lantern, .muster, .pwr, .sent] ⊆ pl)
    (hk : Only pl sa sb) :
    Only pl sa (wakePort p sb) := by
  unfold wakePort
  try dsimp only
  repeat'
    with_reducible (first
      | assumption | exact List.Subset.trans (by decide) hp | apply Only.gite | apply Only.gdite | apply seqReset_parts
      | apply noPartner_parts | apply modPort_parts | apply toDetect_parts | apply flushPort_parts | (intro _) | split)

theorem toLock_parts {pl : List Part} {sa sb : State} (clear : Bool) (p : PortN) (hp : [.ports, .host, .sent] ⊆ pl)
    (hk : Only pl sa sb) :
    Only pl sa (toLock clear p sb) := by
  unfold toLock
  try dsimp only
  repeat'
    with_reducible (first
      | assumption | exact List.Subset.trans (by decide) hp | apply Only.gite | apply Only.gdite | apply sendTraining_parts
      | apply modPort_parts | apply toState_parts | (intro _) | split)

theorem toExchange_parts {pl : List Part} {sa sb : State} (p : PortN) (hp : [.ports, .host, .sent] ⊆ pl)
    (hk : Only pl sa sb) :
    Only pl sa (toExchange p sb) := by
  unfold toExchange
  try dsimp only
  repeat'
    with_reducible (first
      | assumption | exact List.Subset.trans (by decide) hp | apply Only.gite | apply Only.gdite | apply sendTraining_parts
      | apply toState_parts | (intro _) | split)

theorem advance_parts {pl : List Part} {sa sb : State} (p : PortN) (m : Nat) (cause : Nat) (next : State → State)
    (h_next : ∀ (u : State), Only pl sa u → Only pl sa (next  u)) (hp : [.ports] ⊆ pl) (hk : Only pl sa sb) :
    Only pl sa (advance p m cause next sb) := by
  unfold advance
  try dsimp only
  repeat'
    with_reducible (first
      | assumption | exact List.Subset.trans (by decide) hp | apply Only.gite | apply Only.gdite | apply h_next
      | apply modPort_parts | (intro _) | split)

theorem laneFailure_parts {pl : List Part} {sa sb : State} (p : PortN) (l : LaneN) (cause : Nat)
    (hp : [.ports, .dict, .host, .can, .log, .pwr, .sent] ⊆ pl) (hk : Only pl sa sb) :
    Only pl sa (laneFailure p l cause sb) := by
  unfold laneFailure
  try dsimp only
  repeat'
    with_reducible (first
      | assumption | exact List.Subset.trans (by decide) hp | apply Only.gite | apply Only.gdite | apply log_parts
      | apply modLane_parts | apply toExchange_parts | (intro _) | split)

theorem detected_parts {pl : List Part} {sa sb : State} (p : PortN) (l : LaneN)
    (hp : [.time, .ports, .dict, .host, .can, .log, .pwr, .sent] ⊆ pl) (hk : Only pl sa sb) :
    Only pl sa (detected p l sb) := by
  unfold detected
  try dsimp only
  repeat'
    with_reducible (first
      | assumption | exact List.Subset.trans (by decide) hp | apply Only.gite | apply Only.gdite | apply makeSuspect_parts
      | apply toDetect_parts | apply log_parts | apply laneFailure_parts | (intro _) | split)

theorem losAssert_parts {pl : List Part} {sa sb : State} (p : PortN) (l : LaneN)
    (hp : [.time, .ports, .dict, .host, .can, .log, .pwr, .sent] ⊆ pl) (hk : Only pl sa sb) :
    Only pl sa (losAssert p l sb) := by
  unfold losAssert
  try dsimp only
  repeat'
    with_reducible (first
      | assumption | exact List.Subset.trans (by decide) hp | apply Only.gite | apply Only.gdite | apply detected_parts
      | apply bump_parts | apply modLane_parts | (intro _) | split)

theorem lolAssert_parts {pl : List Part} {sa sb : State} (p : PortN) (l : LaneN)
    (hp : [.time, .ports, .dict, .host, .can, .log, .pwr, .sent] ⊆ pl) (hk : Only pl sa sb) :
    Only pl sa (lolAssert p l sb) := by
  unfold lolAssert
  try dsimp only
  repeat'
    with_reducible (first
      | assumption | exact List.Subset.trans (by decide) hp | apply Only.gite | apply Only.gdite | apply detected_parts
      | apply bump_parts | apply modLane_parts | (intro _) | split)

theorem losClear_parts {pl : List Part} {sa sb : State} (p : PortN) (l : LaneN) (hp : [.ports, .host, .sent] ⊆ pl)
    (hk : Only pl sa sb) :
    Only pl sa (losClear p l sb) := by
  unfold losClear
  try dsimp only
  repeat'
    with_reducible (first
      | assumption | exact List.Subset.trans (by decide) hp | apply Only.gite | apply Only.gdite | apply modLane_parts
      | apply toLock_parts | (intro _) | split)

theorem lasersOff_parts {pl : List Part} {sa sb : State} (p : PortN)
    (hp : [.time, .ports, .dict, .host, .can, .log, .pwr, .sent] ⊆ pl) (hk : Only pl sa sb) :
    Only pl sa (lasersOff p sb) := by
  unfold lasersOff
  try dsimp only
  repeat'
    with_reducible (first
      | assumption | exact List.Subset.trans (by decide) hp | apply Only.gite | apply Only.gdite | apply makeSuspect_parts
      | apply modPort_parts | apply log_parts | apply toDetect_parts | apply Only.foldl | apply Only.foldl_snd
      | apply Only.foldl_fst | (intro _) | split)

theorem laserFault_parts {pl : List Part} {sa sb : State} (p : PortN) (l : LaneN)
    (hp : [.ports, .dict, .host, .can, .log, .pwr, .sent] ⊆ pl) (hk : Only pl sa sb) :
    Only pl sa (laserFault p l sb) := by
  unfold laserFault
  try dsimp only
  repeat'
    with_reducible (first
      | assumption | exact List.Subset.trans (by decide) hp | apply Only.gite | apply Only.gdite | apply laneFailure_parts
      | apply log_parts | apply modLane_parts | (intro _) | split)

theorem uncorrectableThreshold_parts {pl : List Part} {sa sb : State} (p : PortN) (l : LaneN)
    (hp : [.ports, .dict, .host, .can, .log, .pwr, .sent] ⊆ pl) (hk : Only pl sa sb) :
    Only pl sa (uncorrectableThreshold p l sb) := by
  unfold uncorrectableThreshold
  try dsimp only
  repeat'
    with_reducible (first
      | assumption | exact List.Subset.trans (by decide) hp | apply Only.gite | apply Only.gdite | apply laneFailure_parts
      | (intro _) | split)

theorem cdrLock_parts {pl : List Part} {sa sb : State} (p : PortN) (lanes : Nat)
    (hp : [.ports, .dict, .host, .can, .log, .pwr, .sent] ⊆ pl) (hk : Only pl sa sb) :
    Only pl sa (cdrLock p lanes sb) := by
  unfold cdrLock
  try dsimp only
  repeat'
    with_reducible (first
      | assumption | exact List.Subset.trans (by decide) hp | apply Only.gite | apply Only.gdite | apply modPort_parts
      | apply advance_parts | apply log_parts | apply sendTraining_parts | apply toState_parts | (intro _) | split)

theorem slipWindowDone_parts {pl : List Part} {sa sb : State} (p : PortN) (l : LaneN) (hits : Nat) (hp : [.ports] ⊆ pl)
    (hk : Only pl sa sb) :
    Only pl sa (slipWindowDone p l hits sb) := by
  unfold slipWindowDone
  try dsimp only
  repeat'
    with_reducible (first
      | assumption | exact List.Subset.trans (by decide) hp | apply Only.gite | apply Only.gdite | apply modLane_parts
      | (intro _) | split)

theorem bitSlip_parts {pl : List Part} {sa sb : State} (src : Route) (p : PortN) (l : LaneN) (v : Nat)
    (hp : [.ports, .dict, .host, .sent] ⊆ pl) (hk : Only pl sa sb) :
    Only pl sa (bitSlip src p l v sb) := by
  unfold bitSlip
  try dsimp only
  repeat'
    with_reducible (first
      | assumption | exact List.Subset.trans (by decide) hp | apply Only.gite | apply Only.gdite | apply clamped_parts
      | apply modLane_parts | (intro _) | split)

theorem alignmentDone_parts {pl : List Part} {sa sb : State} (src : Route) (p : PortN) (v : Nat)
    (hp : [.ports, .dict, .host, .sent] ⊆ pl) (hk : Only pl sa sb) :
    Only pl sa (alignmentDone src p v sb) := by
  unfold alignmentDone
  try dsimp only
  repeat'
    with_reducible (first
      | assumption | exact List.Subset.trans (by decide) hp | apply Only.gite | apply Only.gdite | apply onlyOne_parts
      | apply advance_parts | apply sendTraining_parts | apply modPort_parts | apply toState_parts | (intro _) | split)

theorem codewordAligned_parts {pl : List Part} {sa sb : State} (p : PortN) (lanes : Nat)
    (hp : [.ports, .host, .sent] ⊆ pl) (hk : Only pl sa sb) :
    Only pl sa (codewordAligned p lanes sb) := by
  unfold codewordAligned
  try dsimp only
  repeat'
    with_reducible (first
      | assumption | exact List.Subset.trans (by decide) hp | apply Only.gite | apply Only.gdite | apply modPort_parts
      | apply advance_parts | apply sendTraining_parts | apply toState_parts | (intro _) | split)

theorem deskewDone_parts {pl : List Part} {sa sb : State} (p : PortN) (lanes : Nat) (hp : [.ports, .host, .sent] ⊆ pl)
    (hk : Only pl sa sb) :
    Only pl sa (deskewDone p lanes sb) := by
  unfold deskewDone
  try dsimp only
  repeat'
    with_reducible (first
      | assumption | exact List.Subset.trans (by decide) hp | apply Only.gite | apply Only.gdite | apply modPort_parts
      | apply advance_parts | apply toExchange_parts | (intro _) | split)

theorem stateTimeout_parts {pl : List Part} {sa sb : State} (t : Train) (p : PortN) (hp : [.ports, .host, .sent] ⊆ pl)
    (hk : Only pl sa sb) :
    Only pl sa (stateTimeout t p sb) := by
  unfold stateTimeout
  try dsimp only
  repeat'
    with_reducible (first
      | assumption | exact List.Subset.trans (by decide) hp | apply Only.gite | apply Only.gdite | apply toDetect_parts
      | (intro _) | split)

theorem judgeExchange_parts {pl : List Part} {sa sb : State} (p : PortN) (x : TrainingSet)
    (hp : [.ports, .dict, .host, .can, .log, .pwr, .sent] ⊆ pl) (hk : Only pl sa sb) :
    Only pl sa (judgeExchange p x sb) := by
  unfold judgeExchange
  try dsimp only
  repeat'
    with_reducible (first
      | assumption | exact List.Subset.trans (by decide) hp | apply Only.gite | apply Only.gdite | apply log_parts
      | apply modPort_parts | apply toDetect_parts | apply sendTraining_parts | (intro _) | split)

theorem takeTraining_parts {pl : List Part} {sa sb : State} (p : PortN) (x : TrainingSet)
    (hp : [.ports, .sw, .bep, .ep, .grotto, .mem, .dict, .host, .can, .log, .lantern, .muster, .pwr, .sent] ⊆ pl)
    (hk : Only pl sa sb) :
    Only pl sa (takeTraining p x sb) := by
  unfold takeTraining
  try dsimp only
  repeat'
    with_reducible (first
      | assumption | exact List.Subset.trans (by decide) hp | apply Only.gite | apply Only.gdite | apply modPort_parts
      | apply seqReset_parts | apply judgeExchange_parts | (intro _) | split)

theorem trainingReceive_parts {pl : List Part} {sa sb : State} (p : PortN) (x : TrainingSet)
    (hp : [.ports, .sw, .bep, .ep, .grotto, .mem, .dict, .host, .can, .log, .lantern, .muster, .pwr, .sent] ⊆ pl)
    (hk : Only pl sa sb) :
    Only pl sa (trainingReceive p x sb) := by
  unfold trainingReceive
  try dsimp only
  repeat'
    with_reducible (first
      | assumption | exact List.Subset.trans (by decide) hp | apply Only.gite | apply Only.gdite | apply bump_parts
      | apply takeTraining_parts | apply toExchange_parts | (intro _) | split)

theorem recordIdentity_parts {pl : List Part} {sa sb : State} (p : PortN) (x : TrainingSet)
    (hp : [.ports, .dict, .host, .can, .log, .pwr, .sent] ⊆ pl) (hk : Only pl sa sb) :
    Only pl sa (recordIdentity p x sb) := by
  unfold recordIdentity
  try dsimp only
  repeat'
    with_reducible (first
      | assumption | exact List.Subset.trans (by decide) hp | apply Only.gite | apply Only.gdite | apply modPort_parts
      | apply log_parts | (intro _) | split)

theorem takeAck_parts {pl : List Part} {sa sb : State} (p : PortN) (ack : BitVec 12) (hp : [.ports] ⊆ pl)
    (hk : Only pl sa sb) :
    Only pl sa (takeAck p ack sb) := by
  unfold takeAck
  try dsimp only
  repeat'
    with_reducible (first
      | assumption | exact List.Subset.trans (by decide) hp | apply Only.gite | apply Only.gdite | apply modPort_parts
      | (intro _) | split)

theorem resendCells_parts {pl : List Part} {sa sb : State} (p : PortN) (hp : [.dict, .sent] ⊆ pl) (hk : Only pl sa sb) :
    Only pl sa (resendCells p sb) := by
  unfold resendCells
  try dsimp only
  repeat'
    with_reducible (first
      | assumption | exact List.Subset.trans (by decide) hp | apply Only.gite | apply Only.gdite | apply bumpN_parts
      | apply emit_parts | apply Only.foldl | apply Only.foldl_snd | apply Only.foldl_fst | (intro _) | split)

theorem replayFrom_parts {pl : List Part} {sa sb : State} (p : PortN) (timeout : Bool)
    (hp : [.ports, .dict, .host, .can, .log, .pwr, .sent] ⊆ pl) (hk : Only pl sa sb) :
    Only pl sa (replayFrom p timeout sb) := by
  unfold replayFrom
  try dsimp only
  repeat'
    with_reducible (first
      | assumption | exact List.Subset.trans (by decide) hp | apply Only.gite | apply Only.gdite | apply toLock_parts
      | apply log_parts | apply bump_parts | apply modPort_parts | apply resendCells_parts | (intro _) | split)

theorem nakTaken_parts {pl : List Part} {sa sb : State} (p : PortN) (ack : BitVec 12)
    (hp : [.ports, .dict, .host, .can, .log, .pwr, .sent] ⊆ pl) (hk : Only pl sa sb) :
    Only pl sa (nakTaken p ack sb) := by
  unfold nakTaken
  try dsimp only
  repeat'
    with_reducible (first
      | assumption | exact List.Subset.trans (by decide) hp | apply Only.gite | apply Only.gdite | apply replayFrom_parts
      | apply takeAck_parts | apply bump_parts | (intro _) | split)

theorem activeEntry_parts {pl : List Part} {sa sb : State} (p : PortN)
    (hp : [.time, .ports, .dict, .host, .can, .log, .pwr, .sent] ⊆ pl) (hk : Only pl sa sb) :
    Only pl sa (activeEntry p sb) := by
  unfold activeEntry
  try dsimp only
  repeat'
    with_reducible (first
      | assumption | exact List.Subset.trans (by decide) hp | apply Only.gite | apply Only.gdite | apply modPort_parts
      | apply elasticFault_parts | apply layPools_parts | apply recordIdentity_parts | apply log_parts
      | apply makeSuspect_parts | apply raiseCause_parts | apply takeAck_parts | apply resendCells_parts | (intro _) | split)

theorem holdExpiry_parts {pl : List Part} {sa sb : State} (p : PortN)
    (hp : [.ports, .sw, .bep, .ep, .grotto, .coll, .mem, .dict, .host, .can, .log, .lantern, .muster, .pwr, .sent] ⊆ pl)
    (hk : Only pl sa sb) :
    Only pl sa (holdExpiry p sb) := by
  unfold holdExpiry
  try dsimp only
  repeat'
    with_reducible (first
      | assumption | exact List.Subset.trans (by decide) hp | apply Only.gite | apply Only.gdite | apply log_parts
      | apply modPort_parts | apply seqReset_parts | apply flushPort_parts | apply noPartner_parts
      | apply sendTraining_parts | (intro _) | split)

theorem elasticFault_parts {pl : List Part} {sa sb : State} (p : PortN) (hp : [.ports, .dict, .host, .sent] ⊆ pl)
    (hk : Only pl sa sb) :
    Only pl sa (elasticFault p sb) := by
  unfold elasticFault
  try dsimp only
  repeat'
    with_reducible (first
      | assumption | exact List.Subset.trans (by decide) hp | apply Only.gite | apply Only.gdite | apply toLock_parts
      | apply modPort_parts | apply bump_parts | (intro _) | split)

theorem skipSet_parts {pl : List Part} {sa sb : State} (p : PortN) (fill : Nat) (hp : [.ports, .dict, .host, .sent] ⊆ pl)
    (hk : Only pl sa sb) :
    Only pl sa (skipSet p fill sb) := by
  unfold skipSet
  try dsimp only
  repeat'
    with_reducible (first
      | assumption | exact List.Subset.trans (by decide) hp | apply Only.gite | apply Only.gdite | apply modPort_parts
      | apply elasticFault_parts | apply bump_parts | (intro _) | split)

theorem takeSideband_parts {pl : List Part} {sa sb : State} (p : PortN) (b : BitVec 128)
    (hp : [.ports, .dict, .host, .can, .log, .lantern, .pwr, .sent] ⊆ pl) (hk : Only pl sa sb) :
    Only pl sa (takeSideband p b sb) := by
  unfold takeSideband
  try dsimp only
  repeat'
    with_reducible (first
      | assumption | exact List.Subset.trans (by decide) hp | apply Only.gite | apply Only.gdite | apply progress_parts
      | apply modPort_parts | apply nakTaken_parts | apply takeAck_parts | apply Only.foldl | apply Only.foldl_snd
      | apply Only.foldl_fst | (intro _) | split)

theorem decideKey_parts {pl : List Part} {sa sb : State} (p : PortN) (b : Block) (opens : Option Bytes → Bool)
    (hp : [.ports] ⊆ pl) (hk : Only pl sa sb) :
    Only pl sa (decideKey p b opens sb) := by
  unfold decideKey
  try dsimp only
  repeat'
    with_reducible (first
      | assumption | exact List.Subset.trans (by decide) hp | apply Only.gite | apply Only.gdite | apply modPort_parts
      | (intro _) | split)

theorem sendNak_parts {pl : List Part} {sa sb : State} (p : PortN) (hp : [.ports, .dict, .sent] ⊆ pl)
    (hk : Only pl sa sb) :
    Only pl sa (sendNak p sb) := by
  unfold sendNak
  try dsimp only
  repeat'
    with_reducible (first
      | assumption | exact List.Subset.trans (by decide) hp | apply Only.gite | apply Only.gdite | apply emit_parts
      | apply modPort_parts | apply bump_parts | (intro _) | split)

theorem countDiscard_parts {pl : List Part} {sa sb : State} (p : PortN) (hp : [.ports] ⊆ pl) (hk : Only pl sa sb) :
    Only pl sa (countDiscard p sb) := by
  unfold countDiscard
  try dsimp only
  repeat'
    with_reducible (first
      | assumption | exact List.Subset.trans (by decide) hp | apply Only.gite | apply Only.gdite | apply modPort_parts
      | (intro _) | split)

theorem stageCell_parts {pl : List Part} {sa sb : State} (p : PortN) (c : Cell) (hp : [.ports, .sw, .dict, .host, .can, .log, .pwr, .sent] ⊆ pl) (hk : Only pl sa sb) :
    Only pl sa (stageCell p c sb) := by
  unfold stageCell
  dsimp only
  apply Only.gite
  · exact fun _ => countDiscard_parts _ (List.Subset.trans (by decide) hp) hk
  · intro _
    apply Only.gite
    · intro _
      have a := allocBuf_parts p c.vc.toNat c.tenant.toNat c (pl := pl) (List.Subset.trans (by decide) hp) hk
      split
      · rename_i e
        rw [e] at a
        exact modPort_parts _ _ (List.Subset.trans (by decide) hp) a
      · rename_i e
        rw [e] at a
        exact a
    · exact fun _ => modPort_parts _ _ (List.Subset.trans (by decide) hp) hk

theorem acceptCell_parts {pl : List Part} {sa sb : State} (p : PortN) (b : Block) (c : Cell)
    (hp : [.ports, .sw, .dict, .host, .can, .log, .pwr, .sent] ⊆ pl) (hk : Only pl sa sb) :
    Only pl sa (acceptCell p b c sb) := by
  unfold acceptCell
  try dsimp only
  repeat'
    with_reducible (first
      | assumption | exact List.Subset.trans (by decide) hp | apply Only.gite | apply Only.gdite | apply stageCell_parts
      | apply modPort_parts | apply bump_parts | apply sendNak_parts | apply countDiscard_parts | (intro _) | split)

theorem cellReceive_parts {pl : List Part} {sa sb : State} (p : PortN) (b : Block)
    (hp : [.ports, .sw, .dict, .host, .can, .log, .lantern, .pwr, .sent] ⊆ pl) (hk : Only pl sa sb) :
    Only pl sa (cellReceive p b sb) := by
  unfold cellReceive
  try dsimp only
  repeat'
    with_reducible (first
      | assumption | exact List.Subset.trans (by decide) hp | apply Only.gite | apply Only.gdite | apply decideKey_parts
      | apply acceptCell_parts | apply takeSideband_parts | apply bump_parts | apply sendNak_parts | (intro _) | split)

theorem idleReceive_parts {pl : List Part} {sa sb : State} (p : PortN) (b : Block)
    (hp : [.ports, .dict, .host, .can, .log, .lantern, .pwr, .sent] ⊆ pl) (hk : Only pl sa sb) :
    Only pl sa (idleReceive p b sb) := by
  unfold idleReceive
  try dsimp only
  repeat'
    with_reducible (first
      | assumption | exact List.Subset.trans (by decide) hp | apply Only.gite | apply Only.gdite | apply decideKey_parts
      | apply takeSideband_parts | (intro _) | split)

theorem recheckCredits_parts {pl : List Part} {sa sb : State} (src : Route) (p : PortN) (hp : [.dict, .host, .sent] ⊆ pl)
    (hk : Only pl sa sb) :
    Only pl sa (recheckCredits src p sb) := by
  unfold recheckCredits
  try dsimp only
  repeat'
    with_reducible (first
      | assumption | exact List.Subset.trans (by decide) hp | apply Only.gite | apply Only.gdite | apply clamped_parts
      | apply odSet_parts | apply Only.foldl | apply Only.foldl_snd | apply Only.foldl_fst | (intro _) | split)

theorem roleWrite_parts {pl : List Part} {sa sb : State} (src : Route) (p : PortN) (v : Nat)
    (hp : [.ports, .sw, .bep, .ep, .grotto, .coll, .mem, .dict, .host, .can, .log, .lantern, .muster, .pwr, .sent] ⊆ pl)
    (hk : Only pl sa sb) :
    Only pl sa (roleWrite src p v sb) := by
  unfold roleWrite
  try dsimp only
  repeat'
    with_reducible (first
      | assumption | exact List.Subset.trans (by decide) hp | apply Only.gite | apply Only.gdite
      | apply refuseCondition_parts | apply keepTwo_parts | apply clamped_parts | apply odSet_parts
      | apply recheckCredits_parts | apply toDisabled_parts | apply wakePort_parts | (intro _) | split)

theorem mediumWrite_parts {pl : List Part} {sa sb : State} (src : Route) (p : PortN) (v : Nat)
    (hp : [.dict, .host, .sent] ⊆ pl) (hk : Only pl sa sb) :
    Only pl sa (mediumWrite src p v sb) := by
  unfold mediumWrite
  try dsimp only
  repeat'
    with_reducible (first
      | assumption | exact List.Subset.trans (by decide) hp | apply Only.gite | apply Only.gdite
      | apply refuseCondition_parts | apply keepTwo_parts | (intro _) | split)

theorem creditWrite_parts {pl : List Part} {sa sb : State} (src : Route) (p : PortN) (vc : Nat) (v : Nat)
    (hp : [.dict, .host, .sent] ⊆ pl) (hk : Only pl sa sb) :
    Only pl sa (creditWrite src p vc v sb) := by
  unfold creditWrite
  try dsimp only
  repeat'
    with_reducible (first
      | assumption | exact List.Subset.trans (by decide) hp | apply Only.gite | apply Only.gdite | apply keepScalar_parts
      | apply refuseRule_parts | (intro _) | split)

theorem tenantShareWrite_parts {pl : List Part} {sa sb : State} (src : Route) (t : Nat) (v : Nat)
    (hp : [.dict, .host, .sent] ⊆ pl) (hk : Only pl sa sb) :
    Only pl sa (tenantShareWrite src t v sb) := by
  unfold tenantShareWrite
  try dsimp only
  repeat'
    with_reducible (first
      | assumption | exact List.Subset.trans (by decide) hp | apply Only.gite | apply Only.gdite | apply keepScalar_parts
      | apply Only.foldl | apply Only.foldl_snd | apply Only.foldl_fst | (intro _) | split)

theorem coordinateCommit_parts {pl : List Part} {sa sb : State} (src : Route) (v : Nat)
    (hp : [.ports, .dict, .host, .sent] ⊆ pl) (hk : Only pl sa sb) :
    Only pl sa (coordinateCommit src v sb) := by
  unfold coordinateCommit
  try dsimp only
  repeat'
    with_reducible (first
      | assumption | exact List.Subset.trans (by decide) hp | apply Only.gite | apply Only.gdite
      | apply refuseCondition_parts | apply keepScalar_parts | apply forPorts_parts | apply toExchange_parts | (intro _)
      | split)

end Sys2Proof.Machine
end

