-- ==== Sys2Proof/Laws/OnlyCoreCache.lean ====
section
/-! SUPPORT. What the operations of Machine/CoreCache.lean may change. -/

namespace Sys2Proof.Machine

open Sys2Proof

set_option linter.unusedTactic false
set_option linter.unreachableTactic false

theorem setCache_parts {pl : List Part} {sa sb : State} (k : Nat) (l : CLine) (hp : [.cmp] ⊆ pl) (hk : Only pl sa sb) :
    Only pl sa (setCache k l sb) := by
  unfold setCache
  try dsimp only
  repeat'
    with_reducible (first
      | assumption | exact List.Subset.trans (by decide) hp | apply Only.gite | apply Only.gdite | (intro _) | split
      | refine Only.cmp_upd (partMem hp (by decide)) ?_)

theorem dropCache_parts {pl : List Part} {sa sb : State} (k : Nat) (hp : [.cmp] ⊆ pl) (hk : Only pl sa sb) :
    Only pl sa (dropCache k sb) := by
  unfold dropCache
  try dsimp only
  repeat'
    with_reducible (first
      | assumption | exact List.Subset.trans (by decide) hp | apply Only.gite | apply Only.gdite | (intro _) | split
      | refine Only.cmp_upd (partMem hp (by decide)) ?_)

theorem arraySubmit_parts {pl : List Part} {sa sb : State} (use : Use) (cmd : BepCommand) (phys : Nat)
    (hp : [.bep, .ep, .grotto, .cmp, .dict, .host, .can, .log, .pwr, .sent] ⊆ pl) (hk : Only pl sa sb) :
    Only pl sa (arraySubmit use cmd phys sb) := by
  unfold arraySubmit
  try dsimp only
  repeat'
    with_reducible (first
      | assumption | exact List.Subset.trans (by decide) hp | apply Only.gite | apply Only.gdite | apply submit_parts
      | (intro _) | split | refine Only.cmp_upd (partMem hp (by decide)) ?_)

theorem fabricWrite_parts {pl : List Part} {sa sb : State} (use : Use) (tenant : Nat) (pasid : Nat) (line : Nat)
    (mask : Nat) (b : Bytes) (hp : [.bep, .ep, .grotto, .cmp, .dict, .host, .can, .log, .pwr, .sent] ⊆ pl)
    (hk : Only pl sa sb) :
    Only pl sa (fabricWrite use tenant pasid line mask b sb) := by
  unfold fabricWrite
  try dsimp only
  repeat'
    with_reducible (first
      | assumption | exact List.Subset.trans (by decide) hp | apply Only.gite | apply Only.gdite | apply arraySubmit_parts
      | (intro _) | split)

theorem localWrite_parts {pl : List Part} {sa sb : State} (core : Nat) (mask : Nat) (tenant : Nat) (line : Nat)
    (bytes : Nat) (b : Bytes) (hp : [.bep, .cmp, .mem, .dict, .host, .can, .log, .pwr, .sent] ⊆ pl) (hk : Only pl sa sb) :
    Only pl sa (localWrite core mask tenant line bytes b sb) := by
  unfold localWrite
  try dsimp only
  repeat'
    with_reducible (first
      | assumption | exact List.Subset.trans (by decide) hp | apply Only.gite | apply Only.gdite | apply ctxFault_parts
      | apply countRefusal_parts | apply writeLine_parts | apply Only.foldl | apply Only.foldl_snd | apply Only.foldl_fst
      | (intro _) | split)

theorem writeBackLine_parts {pl : List Part} {sa sb : State} (k : Nat)
    (hp : [.bep, .ep, .grotto, .cmp, .mem, .dict, .host, .can, .log, .pwr, .sent] ⊆ pl) (hk : Only pl sa sb) :
    Only pl sa (writeBackLine k sb) := by
  unfold writeBackLine
  try dsimp only
  repeat'
    with_reducible (first
      | assumption | exact List.Subset.trans (by decide) hp | apply Only.gite | apply Only.gdite | apply setCache_parts
      | apply dropCache_parts | apply localWrite_parts | apply fabricWrite_parts | (intro _) | split)

theorem flushLine_parts {pl : List Part} {sa sb : State} (k : Nat)
    (hp : [.bep, .ep, .grotto, .cmp, .mem, .dict, .host, .can, .log, .pwr, .sent] ⊆ pl) (hk : Only pl sa sb) :
    Only pl sa (flushLine k sb) := by
  unfold flushLine
  try dsimp only
  repeat'
    with_reducible (first
      | assumption | exact List.Subset.trans (by decide) hp | apply Only.gite | apply Only.gdite | apply dropCache_parts
      | apply writeBackLine_parts | (intro _) | split)

theorem makeRoom_parts {pl : List Part} {sa sb : State} (k : Nat)
    (hp : [.bep, .ep, .grotto, .cmp, .mem, .dict, .host, .can, .log, .pwr, .sent] ⊆ pl) (hk : Only pl sa sb) :
    Only pl sa (makeRoom k sb) := by
  unfold makeRoom
  try dsimp only
  repeat'
    with_reducible (first
      | assumption | exact List.Subset.trans (by decide) hp | apply Only.gite | apply Only.gdite | apply dropCache_parts
      | apply flushLine_parts | (intro _) | split)

theorem installLine_parts {pl : List Part} {sa sb : State} (k : Nat) (pasid : Nat) (b : Bytes)
    (hp : [.bep, .ep, .grotto, .cmp, .mem, .dict, .host, .can, .log, .pwr, .sent] ⊆ pl) (hk : Only pl sa sb) :
    Only pl sa (installLine k pasid b sb) := by
  unfold installLine
  try dsimp only
  repeat'
    with_reducible (first
      | assumption | exact List.Subset.trans (by decide) hp | apply Only.gite | apply Only.gdite | apply makeRoom_parts
      | apply setCache_parts | (intro _) | split)

end Sys2Proof.Machine
end

