-- ==== Sys2Proof/Laws/OnlyLanes.lean ====
section
/-! SUPPORT. What the operations of Machine/Lanes.lean may change. -/

namespace Sys2Proof.Machine

open Sys2Proof

set_option linter.unusedTactic false
set_option linter.unreachableTactic false

theorem issue_parts {pl : List Part} {sa sb : State} (w : StreamId) (legal : Bool)
    (run : Nat → Ctx → Stream → State → State)
    (h_run : ∀ (x0 : Nat) (x1 : Ctx) (x2 : Stream) (u : State), Only pl sa u → Only pl sa (run x0 x1 x2 u))
    (hp : [.cmp, .dict, .host, .can, .log, .lantern, .pwr, .sent] ⊆ pl) (hk : Only pl sa sb) :
    Only pl sa (issue w legal run sb) := by
  unfold issue
  try dsimp only
  repeat'
    with_reducible (first
      | assumption | exact List.Subset.trans (by decide) hp | apply Only.gite | apply Only.gdite | apply h_run
      | apply progress_parts | apply ctxFault_parts | (intro _) | split)

theorem issueRegs_parts {pl : List Part} {sa sb : State} (w : StreamId) (legal : Bool) (g : Stream → Stream)
    (hp : [.cmp, .dict, .host, .can, .log, .lantern, .pwr, .sent] ⊆ pl) (hk : Only pl sa sb) :
    Only pl sa (issueRegs w legal g sb) := by
  unfold issueRegs
  try dsimp only
  repeat'
    with_reducible (first
      | assumption | exact List.Subset.trans (by decide) hp | apply Only.gite | apply Only.gdite | apply issue_parts
      | apply modStream_parts | (intro _) | split)

theorem intOp_parts {pl : List Part} {sa sb : State} (w : StreamId) (f : IFields) (g : Nat → Nat → Nat)
    (hp : [.cmp, .dict, .host, .can, .log, .lantern, .pwr, .sent] ⊆ pl) (hk : Only pl sa sb) :
    Only pl sa (intOp w f g sb) := by
  unfold intOp
  try dsimp only
  repeat'
    with_reducible (first
      | assumption | exact List.Subset.trans (by decide) hp | apply Only.gite | apply Only.gdite | apply issueRegs_parts
      | (intro _) | split)

theorem shiftOp_parts {pl : List Part} {sa sb : State} (w : StreamId) (f : IFields) (g : Nat → Nat → Nat)
    (hp : [.cmp, .dict, .host, .can, .log, .lantern, .pwr, .sent] ⊆ pl) (hk : Only pl sa sb) :
    Only pl sa (shiftOp w f g sb) := by
  unfold shiftOp
  try dsimp only
  repeat'
    with_reducible (first
      | assumption | exact List.Subset.trans (by decide) hp | apply Only.gite | apply Only.gdite | apply issueRegs_parts
      | (intro _) | split)

theorem cmpOp_parts {pl : List Part} {sa sb : State} (w : StreamId) (f : IFields) (g : FV → FV → Bool)
    (hp : [.cmp, .dict, .host, .can, .log, .lantern, .pwr, .sent] ⊆ pl) (hk : Only pl sa sb) :
    Only pl sa (cmpOp w f g sb) := by
  unfold cmpOp
  try dsimp only
  repeat'
    with_reducible (first
      | assumption | exact List.Subset.trans (by decide) hp | apply Only.gite | apply Only.gdite | apply issueRegs_parts
      | (intro _) | split)

theorem fmaOp_parts {pl : List Part} {sa sb : State} (w : StreamId) (f : IFields) (g : Mode → FV → FV → FV → FV)
    (hp : [.cmp, .dict, .host, .can, .log, .lantern, .pwr, .sent] ⊆ pl) (hk : Only pl sa sb) :
    Only pl sa (fmaOp w f g sb) := by
  unfold fmaOp
  try dsimp only
  repeat'
    with_reducible (first
      | assumption | exact List.Subset.trans (by decide) hp | apply Only.gite | apply Only.gdite | apply issueRegs_parts
      | (intro _) | split)

theorem minmaxOp_parts {pl : List Part} {sa sb : State} (w : StreamId) (f : IFields) (isMax : Bool)
    (hp : [.cmp, .dict, .host, .can, .log, .lantern, .pwr, .sent] ⊆ pl) (hk : Only pl sa sb) :
    Only pl sa (minmaxOp w f isMax sb) := by
  unfold minmaxOp
  try dsimp only
  repeat'
    with_reducible (first
      | assumption | exact List.Subset.trans (by decide) hp | apply Only.gite | apply Only.gdite | apply issueRegs_parts
      | (intro _) | split)

theorem dotOp_parts {pl : List Part} {sa sb : State} (w : StreamId) (op : Nat) (f : IFields)
    (hp : [.cmp, .dict, .host, .can, .log, .lantern, .pwr, .sent] ⊆ pl) (hk : Only pl sa sb) :
    Only pl sa (dotOp w op f sb) := by
  unfold dotOp
  try dsimp only
  repeat'
    with_reducible (first
      | assumption | exact List.Subset.trans (by decide) hp | apply Only.gite | apply Only.gdite | apply issue_parts
      | apply issueRegs_parts | (intro _) | split)

theorem setAcc_parts {pl : List Part} {sa sb : State} (j : Nat) (a : Acc) (hp : [.cmp] ⊆ pl) (hk : Only pl sa sb) :
    Only pl sa (setAcc j a sb) := by
  unfold setAcc
  try dsimp only
  repeat'
    with_reducible (first
      | assumption | exact List.Subset.trans (by decide) hp | apply Only.gite | apply Only.gdite | (intro _) | split
      | refine Only.cmp_upd (partMem hp (by decide)) ?_)

theorem accOp_parts {pl : List Part} {sa sb : State} (w : StreamId) (f : IFields) (legal : Bool)
    (g : Nat → Stream → State → State)
    (h_g : ∀ (x0 : Nat) (x1 : Stream) (u : State), Only pl sa u → Only pl sa (g x0 x1 u))
    (hp : [.cmp, .dict, .host, .can, .log, .lantern, .pwr, .sent] ⊆ pl) (hk : Only pl sa sb) :
    Only pl sa (accOp w f legal g sb) := by
  unfold accOp
  try dsimp only
  repeat'
    with_reducible (first
      | assumption | exact List.Subset.trans (by decide) hp | apply Only.gite | apply Only.gdite | apply h_g
      | apply issue_parts | apply ctxFault_parts | apply modStream_parts | (intro _) | split)

theorem countRounding_parts {pl : List Part} {sa sb : State} (m : Fmt) (mode : Mode) (a : Acc) (hp : [.dict] ⊆ pl)
    (hk : Only pl sa sb) :
    Only pl sa (countRounding m mode a sb) := by
  unfold countRounding
  try dsimp only
  repeat'
    with_reducible (first
      | assumption | exact List.Subset.trans (by decide) hp | apply Only.gite | apply Only.gdite | apply bump_parts
      | (intro _) | split)

end Sys2Proof.Machine
end

