-- ==== Sys2Proof/Laws/OnlyTranslate.lean ====
section
/-! SUPPORT. What the operations of Machine/Translate.lean may change. -/

namespace Sys2Proof.Machine

open Sys2Proof

set_option linter.unusedTactic false
set_option linter.unreachableTactic false

theorem modXlat_parts {pl : List Part} {sa sb : State} (f : Xlat → Xlat) (hp : [.xlat] ⊆ pl) (hk : Only pl sa sb) :
    Only pl sa (modXlat f sb) := by
  unfold modXlat
  try dsimp only
  repeat'
    with_reducible (first
      | assumption | exact List.Subset.trans (by decide) hp | apply Only.gite | apply Only.gdite | (intro _) | split
      | refine Only.xlat_upd (partMem hp (by decide)) ?_)

theorem suspendCtx_parts {pl : List Part} {sa sb : State} (w : Waiter) (hp : [.cmp] ⊆ pl) (hk : Only pl sa sb) :
    Only pl sa (suspendCtx w sb) := by
  unfold suspendCtx
  try dsimp only
  repeat'
    with_reducible (first
      | assumption | exact List.Subset.trans (by decide) hp | apply Only.gite | apply Only.gdite | apply modCtx_parts
      | (intro _) | split)

theorem resumeWaiter_parts {pl : List Part} {sa sb : State} (w : Waiter) (hp : [.cmp] ⊆ pl) (hk : Only pl sa sb) :
    Only pl sa (resumeWaiter w sb) := by
  unfold resumeWaiter
  try dsimp only
  repeat'
    with_reducible (first
      | assumption | exact List.Subset.trans (by decide) hp | apply Only.gite | apply Only.gdite | apply modStream_parts
      | apply modCopy_parts | apply modCtx_parts | (intro _) | split)

theorem failWaiter_parts {pl : List Part} {sa sb : State} (code : Nat) (va : Nat) (w : Waiter)
    (hp : [.cmp, .dict, .host, .can, .log, .pwr, .sent] ⊆ pl) (hk : Only pl sa sb) :
    Only pl sa (failWaiter code va w sb) := by
  unfold failWaiter
  try dsimp only
  repeat'
    with_reducible (first
      | assumption | exact List.Subset.trans (by decide) hp | apply Only.gite | apply Only.gdite | apply ctxFault_parts
      | (intro _) | split)

theorem pumpTreqs_parts {pl : List Part} {sa sb : State} (hp : [.xlat, .dict, .sent] ⊆ pl) (hk : Only pl sa sb) :
    Only pl sa (pumpTreqs sb) := by
  unfold pumpTreqs
  try dsimp only
  repeat'
    with_reducible (first
      | assumption | exact List.Subset.trans (by decide) hp | apply Only.gite | apply Only.gdite | apply emit_parts
      | apply bump_parts | apply modXlat_parts | apply Only.foldl | apply Only.foldl_snd | apply Only.foldl_fst | (intro _)
      | split)

theorem missWait_parts {pl : List Part} {sa sb : State} (pasid : Nat) (va : Nat) (final : Bool) (ws : List (Waiter × Nat))
    (hp : [.xlat, .dict, .sent] ⊆ pl) (hk : Only pl sa sb) :
    Only pl sa (missWait pasid va final ws sb) := by
  unfold missWait
  try dsimp only
  repeat'
    with_reducible (first
      | assumption | exact List.Subset.trans (by decide) hp | apply Only.gite | apply Only.gdite | apply modXlat_parts
      | apply pumpTreqs_parts | (intro _) | split)

theorem endTreq_parts {pl : List Part} {sa sb : State} (r : TReq) (hp : [.xlat, .dict, .sent] ⊆ pl) (hk : Only pl sa sb) :
    Only pl sa (endTreq r sb) := by
  unfold endTreq
  try dsimp only
  repeat'
    with_reducible (first
      | assumption | exact List.Subset.trans (by decide) hp | apply Only.gite | apply Only.gdite | apply pumpTreqs_parts
      | apply modXlat_parts | (intro _) | split)

theorem pageFault_parts {pl : List Part} {sa sb : State} (pasid : Nat) (va : Nat) (need : Nat) (w : Waiter)
    (hp : [.cmp, .xlat, .dict, .host, .can, .log, .pwr, .sent] ⊆ pl) (hk : Only pl sa sb) :
    Only pl sa (pageFault pasid va need w sb) := by
  unfold pageFault
  try dsimp only
  repeat'
    with_reducible (first
      | assumption | exact List.Subset.trans (by decide) hp | apply Only.gite | apply Only.gdite | apply failWaiter_parts
      | apply suspendCtx_parts | apply bump_parts | apply modXlat_parts | apply emit_parts | (intro _) | split)

theorem endPage_parts {pl : List Part} {sa sb : State} (i : Nat)
    (hp : [.cmp, .xlat, .dict, .host, .can, .log, .pwr, .sent] ⊆ pl) (hk : Only pl sa sb) :
    Only pl sa (endPage i sb) := by
  unfold endPage
  try dsimp only
  repeat'
    with_reducible (first
      | assumption | exact List.Subset.trans (by decide) hp | apply Only.gite | apply Only.gdite | apply modXlat_parts
      | apply pageFault_parts | apply Only.foldl | apply Only.foldl_snd | apply Only.foldl_fst | (intro _) | split)

theorem translate_parts {pl : List Part} {sa sb : State} (w : Waiter) (space : Nat) (need : Nat) (pasid : Nat) (va : Nat)
    (hp : [.cmp, .xlat, .dict, .host, .can, .log, .pwr, .sent] ⊆ pl) (hk : Only pl sa sb) :
    Only pl sa (translate w space need pasid va sb).2 := by
  unfold translate
  try dsimp only
  repeat'
    with_reducible (first
      | assumption | exact List.Subset.trans (by decide) hp | apply Only.gite | apply Only.gdite | apply modStream_parts
      | apply modCopy_parts | apply bump_parts | apply modXlat_parts | apply pageFault_parts | apply missWait_parts
      | (intro _) | split)

theorem failAll_parts {pl : List Part} {sa sb : State} (ws : List (Waiter × Nat)) (code : Nat) (va : Nat)
    (hp : [.cmp, .dict, .host, .can, .log, .pwr, .sent] ⊆ pl) (hk : Only pl sa sb) :
    Only pl sa (failAll ws code va sb) := by
  unfold failAll
  try dsimp only
  repeat'
    with_reducible (first
      | assumption | exact List.Subset.trans (by decide) hp | apply Only.gite | apply Only.gdite | apply failWaiter_parts
      | apply Only.foldl | apply Only.foldl_snd | apply Only.foldl_fst | (intro _) | split)

theorem installGrant_parts {pl : List Part} {sa sb : State} (q : TReq) (r : Bool) (w : Bool) (log2 : Nat) (addr : Nat)
    (hp : [.cmp, .xlat, .dict, .host, .can, .log, .pwr, .sent] ⊆ pl) (hk : Only pl sa sb) :
    Only pl sa (installGrant q r w log2 addr sb) := by
  unfold installGrant
  try dsimp only
  repeat'
    with_reducible (first
      | assumption | exact List.Subset.trans (by decide) hp | apply Only.gite | apply Only.gdite | apply failAll_parts
      | apply bump_parts | apply modXlat_parts | apply failWaiter_parts | apply resumeWaiter_parts | apply Only.foldl
      | apply Only.foldl_snd | apply Only.foldl_fst | (intro _) | split)

theorem atsCompletion_parts {pl : List Part} {sa sb : State} (pasid : Nat) (vp : Nat) (res : AtsResult)
    (hp : [.cmp, .xlat, .dict, .host, .can, .log, .pwr, .sent] ⊆ pl) (hk : Only pl sa sb) :
    Only pl sa (atsCompletion pasid vp res sb) := by
  unfold atsCompletion
  try dsimp only
  repeat'
    with_reducible (first
      | assumption | exact List.Subset.trans (by decide) hp | apply Only.gite | apply Only.gdite | apply emit_parts
      | apply endTreq_parts | apply failAll_parts | apply bump_parts | apply missWait_parts | apply pageFault_parts
      | apply installGrant_parts | apply Only.foldl | apply Only.foldl_snd | apply Only.foldl_fst | (intro _) | split)

theorem atsTimeout_parts {pl : List Part} {sa sb : State} (pasid : Nat) (vp : Nat)
    (hp : [.cmp, .xlat, .dict, .host, .can, .log, .pwr, .sent] ⊆ pl) (hk : Only pl sa sb) :
    Only pl sa (atsTimeout pasid vp sb) := by
  unfold atsTimeout
  try dsimp only
  repeat'
    with_reducible (first
      | assumption | exact List.Subset.trans (by decide) hp | apply Only.gite | apply Only.gdite | apply failAll_parts
      | apply emit_parts | apply bump_parts | apply endTreq_parts | (intro _) | split)

theorem stopPages_parts {pl : List Part} {sa sb : State} (hp : [.cmp, .xlat, .dict, .host, .can, .log, .pwr, .sent] ⊆ pl)
    (hk : Only pl sa sb) :
    Only pl sa (stopPages sb) := by
  unfold stopPages
  try dsimp only
  repeat'
    with_reducible (first
      | assumption | exact List.Subset.trans (by decide) hp | apply Only.gite | apply Only.gdite | apply modXlat_parts
      | apply failAll_parts | apply failWaiter_parts | apply Only.foldl | apply Only.foldl_snd | apply Only.foldl_fst
      | (intro _) | split)

theorem pageResponse_parts {pl : List Part} {sa sb : State} (pasid : Nat) (i : Nat) (code : Nat)
    (hp : [.cmp, .xlat, .dict, .host, .can, .log, .pwr, .sent] ⊆ pl) (hk : Only pl sa sb) :
    Only pl sa (pageResponse pasid i code sb) := by
  unfold pageResponse
  try dsimp only
  repeat'
    with_reducible (first
      | assumption | exact List.Subset.trans (by decide) hp | apply Only.gite | apply Only.gdite | apply bump_parts
      | apply missWait_parts | apply modXlat_parts | apply endPage_parts | apply stopPages_parts | apply failAll_parts
      | (intro _) | split)

theorem pageTimeout_parts {pl : List Part} {sa sb : State} (i : Nat)
    (hp : [.cmp, .xlat, .dict, .host, .can, .log, .pwr, .sent] ⊆ pl) (hk : Only pl sa sb) :
    Only pl sa (pageTimeout i sb) := by
  unfold pageTimeout
  try dsimp only
  repeat'
    with_reducible (first
      | assumption | exact List.Subset.trans (by decide) hp | apply Only.gite | apply Only.gdite | apply failAll_parts
      | apply endPage_parts | (intro _) | split)

theorem acceptInval_parts {pl : List Part} {sa sb : State} (itag : Nat) (host : Bool) (pasid : Option Nat) (base : Nat)
    (n : Nat) (hp : [.bep, .ep, .grotto, .cmp, .xlat, .mem, .dict, .host, .can, .log, .pwr, .sent] ⊆ pl)
    (hk : Only pl sa sb) :
    Only pl sa (acceptInval itag host pasid base n sb) := by
  unfold acceptInval
  try dsimp only
  repeat'
    with_reducible (first
      | assumption | exact List.Subset.trans (by decide) hp | apply Only.gite | apply Only.gdite | apply modXlat_parts
      | apply writeBackLine_parts | apply bump_parts | apply Only.foldl | apply Only.foldl_snd | apply Only.foldl_fst
      | (intro _) | split)

theorem endInval_parts {pl : List Part} {sa sb : State} (v : Inval)
    (hp : [.bep, .ep, .grotto, .cmp, .xlat, .mem, .dict, .host, .can, .log, .pwr, .sent] ⊆ pl) (hk : Only pl sa sb) :
    Only pl sa (endInval v sb) := by
  unfold endInval
  try dsimp only
  repeat'
    with_reducible (first
      | assumption | exact List.Subset.trans (by decide) hp | apply Only.gite | apply Only.gdite | apply bump_parts
      | apply modXlat_parts | apply emit_parts | apply invalidateCompletion_parts | (intro _) | split)

theorem settleInvals_parts {pl : List Part} {sa sb : State}
    (hp : [.bep, .ep, .grotto, .cmp, .xlat, .mem, .dict, .host, .can, .log, .pwr, .sent] ⊆ pl) (hk : Only pl sa sb) :
    Only pl sa (settleInvals sb) := by
  unfold settleInvals
  try dsimp only
  repeat'
    with_reducible (first
      | assumption | exact List.Subset.trans (by decide) hp | apply Only.gite | apply Only.gdite | apply endInval_parts
      | apply acceptInval_parts | apply modXlat_parts | apply Only.foldl | apply Only.foldl_snd | apply Only.foldl_fst
      | (intro _) | split)

theorem atsInvalidate_parts {pl : List Part} {sa sb : State} (itag : Nat) (pasid : Option Nat) (global : Bool)
    (base : Nat) (log2 : Nat) (hp : [.bep, .ep, .grotto, .cmp, .xlat, .mem, .dict, .host, .can, .log, .pwr, .sent] ⊆ pl)
    (hk : Only pl sa sb) :
    Only pl sa (atsInvalidate itag pasid global base log2 sb) := by
  unfold atsInvalidate
  try dsimp only
  repeat'
    with_reducible (first
      | assumption | exact List.Subset.trans (by decide) hp | apply Only.gite | apply Only.gdite | apply acceptInval_parts
      | apply modXlat_parts | (intro _) | split)

theorem invalidateCompletion_parts {pl : List Part} {sa sb : State} (itag : Nat)
    (hp : [.bep, .ep, .grotto, .cmp, .xlat, .mem, .dict, .host, .can, .log, .pwr, .sent] ⊆ pl) (hk : Only pl sa sb) :
    Only pl sa (invalidateCompletion itag sb) := by
  unfold invalidateCompletion
  try dsimp only
  repeat'
    with_reducible (first
      | assumption | exact List.Subset.trans (by decide) hp | apply Only.gite | apply Only.gdite | apply settleInvals_parts
      | apply endInval_parts | (intro _) | split)

theorem invalidateEvery_parts {pl : List Part} {sa sb : State}
    (hp : [.bep, .ep, .grotto, .cmp, .xlat, .mem, .dict, .host, .can, .log, .pwr, .sent] ⊆ pl) (hk : Only pl sa sb) :
    Only pl sa (invalidateEvery sb) := by
  unfold invalidateEvery
  try dsimp only
  repeat'
    with_reducible (first
      | assumption | exact List.Subset.trans (by decide) hp | apply Only.gite | apply Only.gdite | apply settleInvals_parts
      | apply acceptInval_parts | (intro _) | split)

theorem invalidateAll_parts {pl : List Part} {sa sb : State} (src : Route) (v : Nat)
    (hp : [.bep, .ep, .grotto, .cmp, .xlat, .mem, .dict, .host, .can, .log, .pwr, .sent] ⊆ pl) (hk : Only pl sa sb) :
    Only pl sa (invalidateAll src v sb) := by
  unfold invalidateAll
  try dsimp only
  repeat'
    with_reducible (first
      | assumption | exact List.Subset.trans (by decide) hp | apply Only.gite | apply Only.gdite
      | apply invalidateEvery_parts | apply onlyOne_parts | apply beginOp_parts | (intro _) | split)

theorem closeEntries_parts {pl : List Part} {sa sb : State} (regions : List (Nat × Nat))
    (hp : [.bep, .ep, .grotto, .cmp, .xlat, .mem, .dict, .host, .can, .log, .pwr, .sent] ⊆ pl) (hk : Only pl sa sb) :
    Only pl sa (closeEntries regions sb) := by
  unfold closeEntries
  try dsimp only
  repeat'
    with_reducible (first
      | assumption | exact List.Subset.trans (by decide) hp | apply Only.gite | apply Only.gdite | apply settleInvals_parts
      | apply acceptInval_parts | apply Only.foldl | apply Only.foldl_snd | apply Only.foldl_fst | (intro _) | split)

theorem directoryWrite_parts {pl : List Part} {sa sb : State} (src : Route) (v : Nat)
    (hp : [.bep, .ep, .grotto, .cmp, .xlat, .mem, .dict, .host, .can, .log, .pwr, .sent] ⊆ pl) (hk : Only pl sa sb) :
    Only pl sa (directoryWrite src v sb) := by
  unfold directoryWrite
  try dsimp only
  repeat'
    with_reducible (first
      | assumption | exact List.Subset.trans (by decide) hp | apply Only.gite | apply Only.gdite
      | apply directoryDisable_parts | apply directoryEnable_parts | apply closeEntries_parts | (intro _) | split)

end Sys2Proof.Machine
end

