-- ==== Sys2Proof/Laws/OnlyAccess.lean ====
section
/-! SUPPORT. What the operations of Machine/Access.lean may change. -/

namespace Sys2Proof.Machine

open Sys2Proof

set_option linter.unusedTactic false
set_option linter.unreachableTactic false

theorem spPut_parts {pl : List Part} {sa sb : State} (a : Nat) (b : Bytes) (hp : [.cmp] ⊆ pl) (hk : Only pl sa sb) :
    Only pl sa (spPut a b sb) := by
  unfold spPut
  try dsimp only
  repeat'
    with_reducible (first
      | assumption | exact List.Subset.trans (by decide) hp | apply Only.gite | apply Only.gdite | apply Only.foldl
      | apply Only.foldl_snd | apply Only.foldl_fst | (intro _) | split | refine Only.cmp_upd (partMem hp (by decide)) ?_)

theorem spAccess_parts {pl : List Part} {sa sb : State} (w : StreamId) (f : IFields) (addrs : Stream → List (Nat × Nat))
    (g : Nat → List (Nat × Nat) → Stream → State → State)
    (h_g : ∀ (x0 : Nat) (x1 : List (Nat × Nat)) (x2 : Stream) (u : State), Only pl sa u → Only pl sa (g x0 x1 x2 u))
    (hp : [.cmp, .dict, .host, .can, .log, .lantern, .pwr, .sent] ⊆ pl) (hk : Only pl sa sb) :
    Only pl sa (spAccess w f addrs g sb) := by
  unfold spAccess
  try dsimp only
  repeat'
    with_reducible (first
      | assumption | exact List.Subset.trans (by decide) hp | apply Only.gite | apply Only.gdite | apply h_g
      | apply issue_parts | apply ctxFault_parts | apply modStream_parts | (intro _) | split)

theorem spLoad_parts {pl : List Part} {sa sb : State} (e : Nat) (f : IFields) (k : Nat) (l : List (Nat × Nat))
    (x : Stream) (hp : [.cmp] ⊆ pl) (hk : Only pl sa sb) :
    Only pl sa (spLoad e f k l x sb) := by
  unfold spLoad
  try dsimp only
  repeat'
    with_reducible (first
      | assumption | exact List.Subset.trans (by decide) hp | apply Only.gite | apply Only.gdite | apply modStream_parts
      | (intro _) | split)

theorem spStore_parts {pl : List Part} {sa sb : State} (r : BitVec 5) (l : List (Nat × Nat)) (x : Stream)
    (hp : [.cmp] ⊆ pl) (hk : Only pl sa sb) :
    Only pl sa (spStore r l x sb) := by
  unfold spStore
  try dsimp only
  repeat'
    with_reducible (first
      | assumption | exact List.Subset.trans (by decide) hp | apply Only.gite | apply Only.gdite | apply spPut_parts
      | apply Only.foldl | apply Only.foldl_snd | apply Only.foldl_fst | (intro _) | split)

theorem locate_parts {pl : List Part} {sa sb : State} (w : StreamId) (k : Nat) (space : Nat) (need : Nat)
    (lines : List Nat) (hp : [.cmp, .xlat, .dict, .host, .can, .log, .pwr, .sent] ⊆ pl) (hk : Only pl sa sb) :
    Only pl sa (locate w k space need lines sb).2 := by
  unfold locate
  try dsimp only
  repeat'
    with_reducible (first
      | assumption | exact List.Subset.trans (by decide) hp | apply Only.gite | apply Only.gdite | apply translate_parts
      | apply ctxFault_parts | apply Only.foldl | apply Only.foldl_snd | apply Only.foldl_fst | (intro _) | split)

theorem lmRead_parts {pl : List Part} {sa sb : State} (k : Nat) (line : Nat)
    (hp : [.cmp, .mem, .dict, .host, .can, .log, .pwr, .sent] ⊆ pl) (hk : Only pl sa sb) :
    Only pl sa (lmRead k line sb).2 := by
  unfold lmRead
  try dsimp only
  repeat'
    with_reducible (first
      | assumption | exact List.Subset.trans (by decide) hp | apply Only.gite | apply Only.gdite | apply ctxFault_parts
      | apply countRefusal_parts | apply readLine_parts | (intro _) | split)

theorem lmWrite_parts {pl : List Part} {sa sb : State} (k : Nat) (line : Nat) (mask : Nat) (b : Bytes)
    (hp : [.bep, .cmp, .mem, .dict, .host, .can, .log, .pwr, .sent] ⊆ pl) (hk : Only pl sa sb) :
    Only pl sa (lmWrite k line mask b sb).2 := by
  unfold lmWrite
  try dsimp only
  repeat'
    with_reducible (first
      | assumption | exact List.Subset.trans (by decide) hp | apply Only.gite | apply Only.gdite | apply ctxFault_parts
      | apply countRefusal_parts | apply writeLine_parts | (intro _) | split)

theorem fetchLine_parts {pl : List Part} {sa sb : State} (w : StreamId) (k : Nat) (space : Nat) (va : Nat) (addr : Nat)
    (hp : [.bep, .ep, .grotto, .cmp, .mem, .dict, .host, .can, .log, .pwr, .sent] ⊆ pl) (hk : Only pl sa sb) :
    Only pl sa (fetchLine w k space va addr sb) := by
  unfold fetchLine
  try dsimp only
  repeat'
    with_reducible (first
      | assumption | exact List.Subset.trans (by decide) hp | apply Only.gite | apply Only.gdite | apply lmRead_parts
      | apply installLine_parts | apply arraySubmit_parts | apply modStream_parts | (intro _) | split)

theorem fetchAll_parts {pl : List Part} {sa sb : State} (w : StreamId) (k : Nat) (space : Nat) (l : List (Nat × Nat))
    (mask : Nat → Nat) (hp : [.bep, .ep, .grotto, .cmp, .mem, .dict, .host, .can, .log, .pwr, .sent] ⊆ pl)
    (hk : Only pl sa sb) :
    Only pl sa (fetchAll w k space l mask sb).2 := by
  unfold fetchAll
  try dsimp only
  repeat'
    with_reducible (first
      | assumption | exact List.Subset.trans (by decide) hp | apply Only.gite | apply Only.gdite | apply fetchLine_parts
      | apply Only.foldl | apply Only.foldl_snd | apply Only.foldl_fst | (intro _) | split)

theorem cacheWriteBytes_parts {pl : List Part} {sa sb : State} (core : Nat) (space : Nat) (k : Nat) (pasid : Nat)
    (addr : Nat) (b : Bytes) (hp : [.bep, .ep, .grotto, .cmp, .mem, .dict, .host, .can, .log, .pwr, .sent] ⊆ pl)
    (hk : Only pl sa sb) :
    Only pl sa (cacheWriteBytes core space k pasid addr b sb) := by
  unfold cacheWriteBytes
  try dsimp only
  repeat'
    with_reducible (first
      | assumption | exact List.Subset.trans (by decide) hp | apply Only.gite | apply Only.gdite | apply setCache_parts
      | apply makeRoom_parts | (intro _) | split)

theorem memAccess_parts {pl : List Part} {sa sb : State} (w : StreamId) (f : IFields) (need : Nat)
    (addrs : Stream → List (Nat × Nat)) (g : Nat → Stream → List (Nat × Nat) → List (Nat × Nat) → State → State)
    (h_g : ∀ (x0 : Nat) (x1 : Stream) (x2 : List (Nat × Nat)) (x3 : List (Nat × Nat)) (u : State), Only pl sa u → Only pl sa (g x0 x1 x2 x3 u))
    (hp : [.cmp, .xlat, .dict, .host, .can, .log, .lantern, .pwr, .sent] ⊆ pl) (hk : Only pl sa sb) :
    Only pl sa (memAccess w f need addrs g sb) := by
  unfold memAccess
  try dsimp only
  repeat'
    with_reducible (first
      | assumption | exact List.Subset.trans (by decide) hp | apply Only.gite | apply Only.gdite | apply h_g
      | apply issue_parts | apply ctxFault_parts | apply locate_parts | (intro _) | split)

theorem memLoad_parts {pl : List Part} {sa sb : State} (w : StreamId) (f : IFields) (addrs : Stream → List (Nat × Nat))
    (hp : [.bep, .ep, .grotto, .cmp, .xlat, .mem, .dict, .host, .can, .log, .lantern, .pwr, .sent] ⊆ pl)
    (hk : Only pl sa sb) :
    Only pl sa (memLoad w f addrs sb) := by
  unfold memLoad
  try dsimp only
  repeat'
    with_reducible (first
      | assumption | exact List.Subset.trans (by decide) hp | apply Only.gite | apply Only.gdite | apply memAccess_parts
      | apply fetchAll_parts | apply modStream_parts | (intro _) | split)

theorem memStore_parts {pl : List Part} {sa sb : State} (w : StreamId) (f : IFields) (r : BitVec 5)
    (addrs : Stream → List (Nat × Nat))
    (hp : [.bep, .ep, .grotto, .cmp, .xlat, .mem, .dict, .host, .can, .log, .lantern, .pwr, .sent] ⊆ pl)
    (hk : Only pl sa sb) :
    Only pl sa (memStore w f r addrs sb) := by
  unfold memStore
  try dsimp only
  repeat'
    with_reducible (first
      | assumption | exact List.Subset.trans (by decide) hp | apply Only.gite | apply Only.gdite | apply memAccess_parts
      | apply ctxFault_parts | apply countRefusal_parts | apply modStream_parts | apply cacheWriteBytes_parts
      | apply Only.foldl | apply Only.foldl_snd | apply Only.foldl_fst | (intro _) | split)

theorem flushPlaces_parts {pl : List Part} {sa sb : State} (core : Nat) (space : Nat) (p : List (Nat × Nat))
    (hp : [.bep, .ep, .grotto, .cmp, .mem, .dict, .host, .can, .log, .pwr, .sent] ⊆ pl) (hk : Only pl sa sb) :
    Only pl sa (flushPlaces core space p sb) := by
  unfold flushPlaces
  try dsimp only
  repeat'
    with_reducible (first
      | assumption | exact List.Subset.trans (by decide) hp | apply Only.gite | apply Only.gdite | apply flushLine_parts
      | apply Only.foldl | apply Only.foldl_snd | apply Only.foldl_fst | (intro _) | split)

theorem coherentRead_parts {pl : List Part} {sa sb : State} (w : StreamId) (k : Nat) (op : BepOp) (space : Nat)
    (scope : Nat) (p : List (Nat × Nat))
    (hp : [.bep, .ep, .grotto, .cmp, .mem, .dict, .host, .can, .log, .pwr, .sent] ⊆ pl) (hk : Only pl sa sb) :
    Only pl sa (coherentRead w k op space scope p sb).2 := by
  unfold coherentRead
  try dsimp only
  repeat'
    with_reducible (first
      | assumption | exact List.Subset.trans (by decide) hp | apply Only.gite | apply Only.gdite | apply flushPlaces_parts
      | apply lmRead_parts | apply modStream_parts | apply arraySubmit_parts | apply Only.foldl | apply Only.foldl_snd
      | apply Only.foldl_fst | (intro _) | split)

theorem coherentWrite_parts {pl : List Part} {sa sb : State} (k : Nat) (op : BepOp) (space : Nat) (scope : Nat)
    (line : Nat) (addr : Nat) (mask : Nat) (b : Bytes)
    (hp : [.bep, .ep, .grotto, .cmp, .mem, .dict, .host, .can, .log, .pwr, .sent] ⊆ pl) (hk : Only pl sa sb) :
    Only pl sa (coherentWrite k op space scope line addr mask b sb).2 := by
  unfold coherentWrite
  try dsimp only
  repeat'
    with_reducible (first
      | assumption | exact List.Subset.trans (by decide) hp | apply Only.gite | apply Only.gdite | apply lmWrite_parts
      | apply arraySubmit_parts | (intro _) | split)

theorem writeBackCtx_parts {pl : List Part} {sa sb : State} (k : Nat)
    (hp : [.bep, .ep, .grotto, .cmp, .mem, .dict, .host, .can, .log, .pwr, .sent] ⊆ pl) (hk : Only pl sa sb) :
    Only pl sa (writeBackCtx k sb) := by
  unfold writeBackCtx
  try dsimp only
  repeat'
    with_reducible (first
      | assumption | exact List.Subset.trans (by decide) hp | apply Only.gite | apply Only.gdite | apply writeBackLine_parts
      | apply Only.foldl | apply Only.foldl_snd | apply Only.foldl_fst | (intro _) | split)

theorem releaseSteps_parts {pl : List Part} {sa sb : State} (k : Nat) (scope : Nat)
    (hp : [.bep, .ep, .grotto, .cmp, .mem, .dict, .host, .can, .log, .pwr, .sent] ⊆ pl) (hk : Only pl sa sb) :
    Only pl sa (releaseSteps k scope sb).2 := by
  unfold releaseSteps
  try dsimp only
  repeat'
    with_reducible (first
      | assumption | exact List.Subset.trans (by decide) hp | apply Only.gite | apply Only.gdite | apply writeBackCtx_parts
      | (intro _) | split)

theorem acquireSteps_parts {pl : List Part} {sa sb : State} (core : Nat) (scope : Nat)
    (hp : [.bep, .ep, .grotto, .cmp, .mem, .dict, .host, .can, .log, .pwr, .sent] ⊆ pl) (hk : Only pl sa sb) :
    Only pl sa (acquireSteps core scope sb) := by
  unfold acquireSteps
  try dsimp only
  repeat'
    with_reducible (first
      | assumption | exact List.Subset.trans (by decide) hp | apply Only.gite | apply Only.gdite | apply flushLine_parts
      | apply Only.foldl | apply Only.foldl_snd | apply Only.foldl_fst | (intro _) | split)

theorem wordAccess_parts {pl : List Part} {sa sb : State} (w : StreamId) (f : IFields) (need : Nat) (checkScope : Bool)
    (g : Nat → Stream → Nat → List (Nat × Nat) → State → State)
    (h_g : ∀ (x0 : Nat) (x1 : Stream) (x2 : Nat) (x3 : List (Nat × Nat)) (u : State), Only pl sa u → Only pl sa (g x0 x1 x2 x3 u))
    (hp : [.cmp, .xlat, .dict, .host, .can, .log, .lantern, .pwr, .sent] ⊆ pl) (hk : Only pl sa sb) :
    Only pl sa (wordAccess w f need checkScope g sb) := by
  unfold wordAccess
  try dsimp only
  repeat'
    with_reducible (first
      | assumption | exact List.Subset.trans (by decide) hp | apply Only.gite | apply Only.gdite | apply h_g
      | apply issue_parts | apply ctxFault_parts | apply locate_parts | (intro _) | split)

theorem releaseStore_parts {pl : List Part} {sa sb : State} (w : StreamId) (f : IFields) (op : BepOp) (sc : Nat) (k : Nat)
    (x : Stream) (va : Nat) (p : List (Nat × Nat))
    (hp : [.bep, .ep, .grotto, .cmp, .mem, .dict, .host, .can, .log, .pwr, .sent] ⊆ pl) (hk : Only pl sa sb) :
    Only pl sa (releaseStore w f op sc k x va p sb) := by
  unfold releaseStore
  try dsimp only
  repeat'
    with_reducible (first
      | assumption | exact List.Subset.trans (by decide) hp | apply Only.gite | apply Only.gdite | apply releaseSteps_parts
      | apply flushPlaces_parts | apply coherentWrite_parts | apply recordRelease_parts | apply modStream_parts | (intro _)
      | split)

theorem lmAtomic_parts {pl : List Part} {sa sb : State} (k : Nat) (c : Cell) (hp : [.bep, .cmp, .mem, .dict, .host, .can, .log, .pwr, .sent] ⊆ pl) (hk : Only pl sa sb) :
    Only pl sa (lmAtomic k c sb).2 := by
  unfold lmAtomic
  dsimp only
  split
  · exact lmRead_parts _ _ (List.Subset.trans (by decide) hp) hk
  · exact atomicOn_parts _ _ _ (List.Subset.trans (by decide) hp) (lmRead_parts _ _ (List.Subset.trans (by decide) hp) hk)

theorem passBarrier_parts {pl : List Part} {sa sb : State} (k : Nat) (hp : [.cmp, .lantern] ⊆ pl) (hk : Only pl sa sb) :
    Only pl sa (passBarrier k sb) := by
  unfold passBarrier
  try dsimp only
  repeat'
    with_reducible (first
      | assumption | exact List.Subset.trans (by decide) hp | apply Only.gite | apply Only.gdite | apply progress_parts
      | apply modStream_parts | apply Only.foldl | apply Only.foldl_snd | apply Only.foldl_fst | (intro _) | split)

theorem passGang_parts {pl : List Part} {sa sb : State} (g : Nat)
    (hp : [.bep, .ep, .grotto, .cmp, .mem, .dict, .host, .can, .log, .lantern, .pwr, .sent] ⊆ pl) (hk : Only pl sa sb) :
    Only pl sa (passGang g sb) := by
  unfold passGang
  try dsimp only
  repeat'
    with_reducible (first
      | assumption | exact List.Subset.trans (by decide) hp | apply Only.gite | apply Only.gdite | apply passBarrier_parts
      | apply acquireSteps_parts | apply Only.foldl | apply Only.foldl_snd | apply Only.foldl_fst | (intro _) | split)

end Sys2Proof.Machine
end

