-- ==== Sys2Proof/Laws/OnlyEpWindows.lean ====
section
/-! SUPPORT. What the operations of Machine/EpWindows.lean may change. -/

namespace Sys2Proof.Machine

open Sys2Proof

set_option linter.unusedTactic false
set_option linter.unreachableTactic false

theorem modEp_parts {pl : List Part} {sa sb : State} (f : Ep → Ep) (hp : [.ep] ⊆ pl) (hk : Only pl sa sb) :
    Only pl sa (modEp f sb) := by
  unfold modEp
  try dsimp only
  repeat'
    with_reducible (first
      | assumption | exact List.Subset.trans (by decide) hp | apply Only.gite | apply Only.gdite | (intro _) | split
      | refine Only.ep_upd (partMem hp (by decide)) ?_)

theorem complete_parts {pl : List Part} {sa sb : State} (id : Nat) (st : Status) (hp : [.sent] ⊆ pl)
    (hk : Only pl sa sb) :
    Only pl sa (complete id st sb) := by
  unfold complete
  try dsimp only
  repeat'
    with_reducible (first
      | assumption | exact List.Subset.trans (by decide) hp | apply Only.gite | apply Only.gdite | apply emit_parts
      | (intro _) | split)

theorem setEpWindow_parts {pl : List Part} {sa sb : State} (w : Nat) (x : EpWindow) (hp : [.ep] ⊆ pl)
    (hk : Only pl sa sb) :
    Only pl sa (setEpWindow w x sb) := by
  unfold setEpWindow
  try dsimp only
  repeat'
    with_reducible (first
      | assumption | exact List.Subset.trans (by decide) hp | apply Only.gite | apply Only.gdite | apply modEp_parts
      | (intro _) | split)

theorem epCalendarLoad_parts {pl : List Part} {sa sb : State} (id : Nat) (round : Nat) (records : List (BitVec 128))
    (arm : Nat) (hp : [.ep, .sent] ⊆ pl) (hk : Only pl sa sb) :
    Only pl sa (epCalendarLoad id round records arm sb) := by
  unfold epCalendarLoad
  try dsimp only
  repeat'
    with_reducible (first
      | assumption | exact List.Subset.trans (by decide) hp | apply Only.gite | apply Only.gdite | apply complete_parts
      | apply modEp_parts | (intro _) | split)

theorem epCalendarSwitch_parts {pl : List Part} {sa sb : State} (hp : [.time, .ep] ⊆ pl) (hk : Only pl sa sb) :
    Only pl sa (epCalendarSwitch sb) := by
  unfold epCalendarSwitch
  try dsimp only
  repeat'
    with_reducible (first
      | assumption | exact List.Subset.trans (by decide) hp | apply Only.gite | apply Only.gdite | apply modEp_parts
      | apply advanceTo_parts | (intro _) | split)

theorem epWindowBind_parts {pl : List Part} {sa sb : State} (id : Nat) (pasid : Nat) (d : Bytes) (base : Nat)
    (hp : [.ep, .sent] ⊆ pl) (hk : Only pl sa sb) :
    Only pl sa (epWindowBind id pasid d base sb) := by
  unfold epWindowBind
  try dsimp only
  repeat'
    with_reducible (first
      | assumption | exact List.Subset.trans (by decide) hp | apply Only.gite | apply Only.gdite | apply complete_parts
      | apply setEpWindow_parts | apply Only.foldl | apply Only.foldl_snd | apply Only.foldl_fst | (intro _) | split)

theorem rsEnd_parts {pl : List Part} {sa sb : State} (r : WaitRs) (st : Status) (hp : [.cmp, .sent] ⊆ pl)
    (hk : Only pl sa sb) :
    Only pl sa (rsEnd r st sb) := by
  unfold rsEnd
  try dsimp only
  repeat'
    with_reducible (first
      | assumption | exact List.Subset.trans (by decide) hp | apply Only.gite | apply Only.gdite | apply complete_parts
      | apply modCopy_parts | (intro _) | split)

theorem reduceStep_parts {pl : List Part} {sa sb : State} (w : Nat) (x : EpWindow) (r : WaitRs)
    (hp : [.ep, .cmp, .dict, .sent] ⊆ pl) (hk : Only pl sa sb) :
    Only pl sa (reduceStep w x r sb) := by
  unfold reduceStep
  try dsimp only
  repeat'
    with_reducible (first
      | assumption | exact List.Subset.trans (by decide) hp | apply Only.gite | apply Only.gdite | apply rsEnd_parts
      | apply setEpWindow_parts | apply bump_parts | (intro _) | split)

theorem reduceStore_parts {pl : List Part} {sa sb : State} (id : Nat) (tenant : Option (BitVec 4)) (permC : Bool)
    (window : Nat) (step : Nat) (offset : Nat) (lines : Bytes) (hp : [.ep, .cmp, .dict, .sent] ⊆ pl)
    (hk : Only pl sa sb) :
    Only pl sa (reduceStore id tenant permC window step offset lines sb) := by
  unfold reduceStore
  try dsimp only
  repeat'
    with_reducible (first
      | assumption | exact List.Subset.trans (by decide) hp | apply Only.gite | apply Only.gdite | apply complete_parts
      | apply bump_parts | apply reduceStep_parts | (intro _) | split)

theorem advanceFill_parts {pl : List Part} {sa sb : State} (w : Nat) (x : EpWindow)
    (hp : [.ep, .cmp, .dict, .host, .sent] ⊆ pl) (hk : Only pl sa sb) :
    Only pl sa (advanceFill w x sb) := by
  unfold advanceFill
  try dsimp only
  repeat'
    with_reducible (first
      | assumption | exact List.Subset.trans (by decide) hp | apply Only.gite | apply Only.gdite | apply setEpWindow_parts
      | apply emit_parts | apply report_parts | apply reduceStep_parts | apply Only.foldl | apply Only.foldl_snd
      | apply Only.foldl_fst | (intro _) | split)

theorem epVc9Slot_parts {pl : List Part} {sa sb : State} (offset : Nat)
    (hp : [.time, .ep, .cmp, .dict, .host, .sent] ⊆ pl) (hk : Only pl sa sb) :
    Only pl sa (epVc9Slot offset sb) := by
  unfold epVc9Slot
  try dsimp only
  repeat'
    with_reducible (first
      | assumption | exact List.Subset.trans (by decide) hp | apply Only.gite | apply Only.gdite | apply advanceTo_parts
      | apply emit_parts | apply bump_parts | apply advanceFill_parts | apply setEpWindow_parts | (intro _) | split)

theorem chunkFails_parts {pl : List Part} {sa sb : State} (w : Nat) (x : EpWindow) (chunk : Nat)
    (hp : [.ep, .dict, .host, .sent] ⊆ pl) (hk : Only pl sa sb) :
    Only pl sa (chunkFails w x chunk sb) := by
  unfold chunkFails
  try dsimp only
  repeat'
    with_reducible (first
      | assumption | exact List.Subset.trans (by decide) hp | apply Only.gite | apply Only.gdite | apply emit_parts
      | apply report_parts | apply bump_parts | apply setEpWindow_parts | (intro _) | split)

theorem takeVc10_parts {pl : List Part} {sa sb : State} (w : Nat) (x : EpWindow) (c : Cell)
    (hp : [.ep, .dict, .host, .sent] ⊆ pl) (hk : Only pl sa sb) :
    Only pl sa (takeVc10 w x c sb) := by
  unfold takeVc10
  try dsimp only
  repeat'
    with_reducible (first
      | assumption | exact List.Subset.trans (by decide) hp | apply Only.gite | apply Only.gdite | apply setEpWindow_parts
      | apply chunkFails_parts | (intro _) | split)

theorem epVc10Receive_parts {pl : List Part} {sa sb : State} (c : Cell) (hp : [.ep, .dict, .host, .sent] ⊆ pl)
    (hk : Only pl sa sb) :
    Only pl sa (epVc10Receive c sb) := by
  unfold epVc10Receive
  try dsimp only
  repeat'
    with_reducible (first
      | assumption | exact List.Subset.trans (by decide) hp | apply Only.gite | apply Only.gdite | apply bump_parts
      | apply takeVc10_parts | (intro _) | split)

theorem stepFence_parts {pl : List Part} {sa sb : State} (id : Nat) (window : Nat) (hp : [.ep, .sent] ⊆ pl)
    (hk : Only pl sa sb) :
    Only pl sa (stepFence id window sb) := by
  unfold stepFence
  try dsimp only
  repeat'
    with_reducible (first
      | assumption | exact List.Subset.trans (by decide) hp | apply Only.gite | apply Only.gdite | apply setEpWindow_parts
      | apply complete_parts | (intro _) | split)

theorem writeResults_parts {pl : List Part} {sa sb : State} (x : EpWindow)
    (hp : [.bep, .ep, .grotto, .cmp, .dict, .host, .can, .log, .pwr, .sent] ⊆ pl) (hk : Only pl sa sb) :
    Only pl sa (writeResults x sb) := by
  unfold writeResults
  try dsimp only
  repeat'
    with_reducible (first
      | assumption | exact List.Subset.trans (by decide) hp | apply Only.gite | apply Only.gdite | apply agentCommand_parts
      | apply Only.foldl | apply Only.foldl_snd | apply Only.foldl_fst | (intro _) | split)

theorem epCommit_parts {pl : List Part} {sa sb : State} (w : Nat)
    (hp : [.time, .bep, .ep, .grotto, .cmp, .dict, .host, .can, .log, .pwr, .sent] ⊆ pl) (hk : Only pl sa sb) :
    Only pl sa (epCommit w sb) := by
  unfold epCommit
  try dsimp only
  repeat'
    with_reducible (first
      | assumption | exact List.Subset.trans (by decide) hp | apply Only.gite | apply Only.gdite | apply advanceTo_parts
      | apply setEpWindow_parts | apply emit_parts | apply report_parts | apply writeResults_parts | apply complete_parts
      | apply Only.foldl | apply Only.foldl_snd | apply Only.foldl_fst | (intro _) | split)

end Sys2Proof.Machine
end

