-- ==== Sys2Proof/Laws/OnlyCopies.lean ====
section
/-! SUPPORT. What the operations of Machine/Copies.lean may change. -/

namespace Sys2Proof.Machine

open Sys2Proof

set_option linter.unusedTactic false
set_option linter.unreachableTactic false

theorem addCopy_parts {pl : List Part} {sa sb : State} (k : Nat) (h : Copy) (hp : [.cmp] ⊆ pl) (hk : Only pl sa sb) :
    Only pl sa (addCopy k h sb) := by
  unfold addCopy
  try dsimp only
  repeat'
    with_reducible (first
      | assumption | exact List.Subset.trans (by decide) hp | apply Only.gite | apply Only.gdite | apply modCtx_parts
      | (intro _) | split)

theorem advanceCopy_parts {pl : List Part} {sa sb : State} (k : Nat) (n : Nat) (hp : [.cmp, .lantern] ⊆ pl)
    (hk : Only pl sa sb) :
    Only pl sa (advanceCopy k n sb) := by
  unfold advanceCopy
  try dsimp only
  repeat'
    with_reducible (first
      | assumption | exact List.Subset.trans (by decide) hp | apply Only.gite | apply Only.gdite | apply modCopy_parts
      | apply progress_parts | (intro _) | split)

theorem finishCopy_parts {pl : List Part} {sa sb : State} (k : Nat) (h : Copy) (hp : [.cmp, .dict] ⊆ pl)
    (hk : Only pl sa sb) :
    Only pl sa (finishCopy k h sb) := by
  unfold finishCopy
  try dsimp only
  repeat'
    with_reducible (first
      | assumption | exact List.Subset.trans (by decide) hp | apply Only.gite | apply Only.gdite | apply modCtx_parts
      | apply bump_parts | apply modStream_parts | apply Only.foldl | apply Only.foldl_snd | apply Only.foldl_fst
      | (intro _) | split)

theorem copyPlace_parts {pl : List Part} {sa sb : State} (k : Nat) (space : Nat) (need : Nat) (va : Nat)
    (hp : [.cmp, .xlat, .dict, .host, .can, .log, .pwr, .sent] ⊆ pl) (hk : Only pl sa sb) :
    Only pl sa (copyPlace k space need va sb).2 := by
  unfold copyPlace
  try dsimp only
  repeat'
    with_reducible (first
      | assumption | exact List.Subset.trans (by decide) hp | apply Only.gite | apply Only.gdite | apply translate_parts
      | apply ctxFault_parts | (intro _) | split)

theorem copyLineBytes_parts {pl : List Part} {sa sb : State} (k : Nat) (h : Copy) (va : Nat)
    (hp : [.bep, .ep, .grotto, .cmp, .xlat, .mem, .dict, .host, .can, .log, .pwr, .sent] ⊆ pl) (hk : Only pl sa sb) :
    Only pl sa (copyLineBytes k h va sb).2 := by
  unfold copyLineBytes
  try dsimp only
  repeat'
    with_reducible (first
      | assumption | exact List.Subset.trans (by decide) hp | apply Only.gite | apply Only.gdite | apply copyPlace_parts
      | apply arraySubmit_parts | apply modCopy_parts | apply flushLine_parts | apply lmRead_parts | apply installLine_parts
      | (intro _) | split)

theorem copySource_parts {pl : List Part} {sa sb : State} (k : Nat) (h : Copy) (va : Nat) (n : Nat)
    (hp : [.bep, .ep, .grotto, .cmp, .xlat, .mem, .dict, .host, .can, .log, .pwr, .sent] ⊆ pl) (hk : Only pl sa sb) :
    Only pl sa (copySource k h va n sb).2 := by
  unfold copySource
  try dsimp only
  repeat'
    with_reducible (first
      | assumption | exact List.Subset.trans (by decide) hp | apply Only.gite | apply Only.gdite | apply ctxFault_parts
      | apply copyLineBytes_parts | apply Only.foldl | apply Only.foldl_snd | apply Only.foldl_fst | (intro _) | split)

theorem copyStore_parts {pl : List Part} {sa sb : State} (k : Nat) (h : Copy) (va : Nat) (b : Bytes)
    (hp : [.bep, .ep, .grotto, .cmp, .xlat, .mem, .dict, .host, .can, .log, .lantern, .pwr, .sent] ⊆ pl)
    (hk : Only pl sa sb) :
    Only pl sa (copyStore k h va b sb) := by
  unfold copyStore
  try dsimp only
  repeat'
    with_reducible (first
      | assumption | exact List.Subset.trans (by decide) hp | apply Only.gite | apply Only.gdite | apply advanceCopy_parts
      | apply bumpN_parts | apply ctxFault_parts | apply spPut_parts | apply copyPlace_parts | apply flushLine_parts
      | apply reduceStep_parts | apply lmWrite_parts | apply fabricWrite_parts | (intro _) | split)

theorem copyStep_parts {pl : List Part} {sa sb : State} (k : Nat)
    (hp : [.bep, .ep, .grotto, .cmp, .xlat, .mem, .dict, .host, .can, .log, .lantern, .pwr, .sent] ⊆ pl)
    (hk : Only pl sa sb) :
    Only pl sa (copyStep k sb) := by
  unfold copyStep
  try dsimp only
  repeat'
    with_reducible (first
      | assumption | exact List.Subset.trans (by decide) hp | apply Only.gite | apply Only.gdite | apply finishCopy_parts
      | apply advanceCopy_parts | apply copySource_parts | apply copyStore_parts | (intro _) | split)

end Sys2Proof.Machine
end

