-- ==== Sys2Proof/Laws/OnlyArray.lean ====
section
/-! SUPPORT. What the operations of Machine/Array.lean may change. -/

namespace Sys2Proof.Machine

open Sys2Proof

set_option linter.unusedTactic false
set_option linter.unreachableTactic false

theorem concludeAction_parts {pl : List Part} {sa sb : State} (k : Nat) (action : Nat) (result : Nat) (hp : [.cmp] ⊆ pl)
    (hk : Only pl sa sb) :
    Only pl sa (concludeAction k action result sb) := by
  unfold concludeAction
  try dsimp only
  repeat'
    with_reducible (first
      | assumption | exact List.Subset.trans (by decide) hp | apply Only.gite | apply Only.gdite | apply modCtx_parts
      | (intro _) | split)

theorem clearCtxAccs_parts {pl : List Part} {sa sb : State} (k : Nat) (hp : [.cmp] ⊆ pl) (hk : Only pl sa sb) :
    Only pl sa (clearCtxAccs k sb) := by
  unfold clearCtxAccs
  try dsimp only
  repeat'
    with_reducible (first
      | assumption | exact List.Subset.trans (by decide) hp | apply Only.gite | apply Only.gdite | (intro _) | split
      | refine Only.cmp_upd (partMem hp (by decide)) ?_)

theorem contextCreate_parts {pl : List Part} {sa sb : State} (k : Nat) (hp : [.cmp] ⊆ pl) (hk : Only pl sa sb) :
    Only pl sa (contextCreate k sb) := by
  unfold contextCreate
  try dsimp only
  repeat'
    with_reducible (first
      | assumption | exact List.Subset.trans (by decide) hp | apply Only.gite | apply Only.gdite | apply concludeAction_parts
      | apply modCtx_parts | apply clearCtxAccs_parts | apply setCtx_parts | (intro _) | split)

theorem contextDestroy_parts {pl : List Part} {sa sb : State} (k : Nat) (hp : [.cmp] ⊆ pl) (hk : Only pl sa sb) :
    Only pl sa (contextDestroy k sb) := by
  unfold contextDestroy
  try dsimp only
  repeat'
    with_reducible (first
      | assumption | exact List.Subset.trans (by decide) hp | apply Only.gite | apply Only.gdite | apply concludeAction_parts
      | apply setCtx_parts | (intro _) | split)

theorem restartCtx_parts {pl : List Part} {sa sb : State} (k : Nat) (hp : [.cmp] ⊆ pl) (hk : Only pl sa sb) :
    Only pl sa (restartCtx k sb) := by
  unfold restartCtx
  try dsimp only
  repeat'
    with_reducible (first
      | assumption | exact List.Subset.trans (by decide) hp | apply Only.gite | apply Only.gdite | apply modCtx_parts
      | (intro _) | split)

theorem contextRestart_parts {pl : List Part} {sa sb : State} (k : Nat) (hp : [.cmp] ⊆ pl) (hk : Only pl sa sb) :
    Only pl sa (contextRestart k sb) := by
  unfold contextRestart
  try dsimp only
  repeat'
    with_reducible (first
      | assumption | exact List.Subset.trans (by decide) hp | apply Only.gite | apply Only.gdite | apply concludeAction_parts
      | apply restartCtx_parts | (intro _) | split)

theorem discardDirty_parts {pl : List Part} {sa sb : State} (k : Nat) (hp : [.cmp] ⊆ pl) (hk : Only pl sa sb) :
    Only pl sa (discardDirty k sb) := by
  unfold discardDirty
  try dsimp only
  repeat'
    with_reducible (first
      | assumption | exact List.Subset.trans (by decide) hp | apply Only.gite | apply Only.gdite | apply dropCache_parts
      | apply setCache_parts | apply Only.foldl | apply Only.foldl_snd | apply Only.foldl_fst | (intro _) | split)

theorem stopCtx_parts {pl : List Part} {sa sb : State} (k : Nat) (st : CtxState)
    (hp : [.cmp, .dict, .host, .can, .log, .pwr, .sent] ⊆ pl) (hk : Only pl sa sb) :
    Only pl sa (stopCtx k st sb) := by
  unfold stopCtx
  try dsimp only
  repeat'
    with_reducible (first
      | assumption | exact List.Subset.trans (by decide) hp | apply Only.gite | apply Only.gdite | apply loseGang_parts
      | apply discardDirty_parts | apply modCtx_parts | (intro _) | split)

theorem abortCtx_parts {pl : List Part} {sa sb : State} (k : Nat)
    (hp : [.cmp, .dict, .host, .can, .log, .pwr, .sent] ⊆ pl) (hk : Only pl sa sb) :
    Only pl sa (abortCtx k sb) := by
  unfold abortCtx
  try dsimp only
  repeat'
    with_reducible (first
      | assumption | exact List.Subset.trans (by decide) hp | apply Only.gite | apply Only.gdite | apply stopCtx_parts
      | (intro _) | split)

theorem contextAbort_parts {pl : List Part} {sa sb : State} (k : Nat)
    (hp : [.cmp, .dict, .host, .can, .log, .pwr, .sent] ⊆ pl) (hk : Only pl sa sb) :
    Only pl sa (contextAbort k sb) := by
  unfold contextAbort
  try dsimp only
  repeat'
    with_reducible (first
      | assumption | exact List.Subset.trans (by decide) hp | apply Only.gite | apply Only.gdite | apply countIgnored_parts
      | apply stopCtx_parts | apply modCtx_parts | apply concludeAction_parts | (intro _) | split)

theorem producerWrite_parts {pl : List Part} {sa sb : State} (k : Nat) (v : BitVec 32) (hp : [.cmp, .host] ⊆ pl)
    (hk : Only pl sa sb) :
    Only pl sa (producerWrite k v sb) := by
  unfold producerWrite
  try dsimp only
  repeat'
    with_reducible (first
      | assumption | exact List.Subset.trans (by decide) hp | apply Only.gite | apply Only.gdite | apply countIgnored_parts
      | apply modCtx_parts | (intro _) | split)

theorem ringRecord_parts {pl : List Part} {sa sb : State} (k : Nat)
    (hp : [.cmp, .xlat, .mem, .dict, .host, .can, .log, .pwr, .sent] ⊆ pl) (hk : Only pl sa sb) :
    Only pl sa (ringRecord k sb).2 := by
  unfold ringRecord
  try dsimp only
  repeat'
    with_reducible (first
      | assumption | exact List.Subset.trans (by decide) hp | apply Only.gite | apply Only.gdite | apply translate_parts
      | apply ctxFault_parts | apply lmRead_parts | (intro _) | split)

theorem beginRecord_parts {pl : List Part} {sa sb : State} (k : Nat) (kind : Nat) (g : Bytes → State → State)
    (h_g : ∀ (x0 : Bytes) (u : State), Only pl sa u → Only pl sa (g x0 u))
    (hp : [.cmp, .xlat, .mem, .dict, .host, .can, .log, .pwr, .sent] ⊆ pl) (hk : Only pl sa sb) :
    Only pl sa (beginRecord k kind g sb) := by
  unfold beginRecord
  try dsimp only
  repeat'
    with_reducible (first
      | assumption | exact List.Subset.trans (by decide) hp | apply Only.gite | apply Only.gdite | apply h_g
      | apply ringRecord_parts | apply modCtx_parts | apply ctxFault_parts | (intro _) | split)

theorem ringRun_parts {pl : List Part} {sa sb : State} (k : Nat)
    (hp : [.cmp, .xlat, .mem, .dict, .host, .can, .log, .pwr, .sent] ⊆ pl) (hk : Only pl sa sb) :
    Only pl sa (ringRun k sb) := by
  unfold ringRun
  try dsimp only
  repeat'
    with_reducible (first
      | assumption | exact List.Subset.trans (by decide) hp | apply Only.gite | apply Only.gdite | apply beginRecord_parts
      | apply ctxFault_parts | apply modCtx_parts | apply modStream_parts | apply Only.foldl | apply Only.foldl_snd
      | apply Only.foldl_fst | (intro _) | split)

theorem ringCopy_parts {pl : List Part} {sa sb : State} (k : Nat)
    (hp : [.cmp, .xlat, .mem, .dict, .host, .can, .log, .pwr, .sent] ⊆ pl) (hk : Only pl sa sb) :
    Only pl sa (ringCopy k sb) := by
  unfold ringCopy
  try dsimp only
  repeat'
    with_reducible (first
      | assumption | exact List.Subset.trans (by decide) hp | apply Only.gite | apply Only.gdite | apply beginRecord_parts
      | apply addCopy_parts | apply modCtx_parts | (intro _) | split)

theorem ringWait_parts {pl : List Part} {sa sb : State} (k : Nat)
    (hp : [.cmp, .xlat, .mem, .dict, .host, .can, .log, .pwr, .sent] ⊆ pl) (hk : Only pl sa sb) :
    Only pl sa (ringWait k sb) := by
  unfold ringWait
  try dsimp only
  repeat'
    with_reducible (first
      | assumption | exact List.Subset.trans (by decide) hp | apply Only.gite | apply Only.gdite | apply beginRecord_parts
      | apply modCtx_parts | (intro _) | split)

theorem ringNop_parts {pl : List Part} {sa sb : State} (k : Nat)
    (hp : [.cmp, .xlat, .mem, .dict, .host, .can, .log, .pwr, .sent] ⊆ pl) (hk : Only pl sa sb) :
    Only pl sa (ringNop k sb) := by
  unfold ringNop
  try dsimp only
  repeat'
    with_reducible (first
      | assumption | exact List.Subset.trans (by decide) hp | apply Only.gite | apply Only.gdite | apply beginRecord_parts
      | apply modCtx_parts | (intro _) | split)

theorem waitPoll_parts {pl : List Part} {sa sb : State} (k : Nat)
    (hp : [.bep, .ep, .grotto, .cmp, .xlat, .mem, .dict, .host, .can, .log, .pwr, .sent] ⊆ pl) (hk : Only pl sa sb) :
    Only pl sa (waitPoll k sb) := by
  unfold waitPoll
  try dsimp only
  repeat'
    with_reducible (first
      | assumption | exact List.Subset.trans (by decide) hp | apply Only.gite | apply Only.gdite | apply ctxFault_parts
      | apply translate_parts | apply flushLine_parts | apply lmRead_parts | apply checkAcquire_parts
      | apply acquireSteps_parts | apply pollAnswer_parts | apply ctxScope_parts | apply arraySubmit_parts
      | apply modCtx_parts | (intro _) | split)

theorem waitTimeout_parts {pl : List Part} {sa sb : State} (k : Nat) (hp : [.cmp] ⊆ pl) (hk : Only pl sa sb) :
    Only pl sa (waitTimeout k sb) := by
  unfold waitTimeout
  try dsimp only
  repeat'
    with_reducible (first
      | assumption | exact List.Subset.trans (by decide) hp | apply Only.gite | apply Only.gdite | apply setCtx_parts
      | (intro _) | split)

theorem writeRecord_parts {pl : List Part} {sa sb : State} (k : Nat) (status : Nat)
    (hp : [.bep, .cmp, .xlat, .mem, .dict, .host, .can, .log, .pwr, .sent] ⊆ pl) (hk : Only pl sa sb) :
    Only pl sa (writeRecord k status sb).2 := by
  unfold writeRecord
  try dsimp only
  repeat'
    with_reducible (first
      | assumption | exact List.Subset.trans (by decide) hp | apply Only.gite | apply Only.gdite | apply translate_parts
      | apply ctxFault_parts | apply lmWrite_parts | apply countIgnored_parts | apply signal_parts | (intro _) | split)

theorem commandEnd_parts {pl : List Part} {sa sb : State} (k : Nat)
    (hp : [.bep, .ep, .grotto, .cmp, .xlat, .mem, .dict, .host, .can, .log, .pwr, .sent] ⊆ pl) (hk : Only pl sa sb) :
    Only pl sa (commandEnd k sb) := by
  unfold commandEnd
  try dsimp only
  repeat'
    with_reducible (first
      | assumption | exact List.Subset.trans (by decide) hp | apply Only.gite | apply Only.gdite | apply writeBackCtx_parts
      | apply writeRecord_parts | apply bump_parts | apply modCtx_parts | (intro _) | split)

theorem abortDone_parts {pl : List Part} {sa sb : State} (k : Nat)
    (hp : [.bep, .cmp, .xlat, .mem, .dict, .host, .can, .log, .pwr, .sent] ⊆ pl) (hk : Only pl sa sb) :
    Only pl sa (abortDone k sb) := by
  unfold abortDone
  try dsimp only
  repeat'
    with_reducible (first
      | assumption | exact List.Subset.trans (by decide) hp | apply Only.gite | apply Only.gdite | apply writeRecord_parts
      | apply setCtx_parts | apply concludeAction_parts | (intro _) | split)

theorem contextAction_parts {pl : List Part} {sa sb : State} (k : Nat) (v : Nat)
    (hp : [.cmp, .dict, .host, .can, .log, .pwr, .sent] ⊆ pl) (hk : Only pl sa sb) :
    Only pl sa (contextAction k v sb) := by
  unfold contextAction
  try dsimp only
  repeat'
    with_reducible (first
      | assumption | exact List.Subset.trans (by decide) hp | apply Only.gite | apply Only.gdite | apply countIgnored_parts
      | apply contextCreate_parts | apply contextDestroy_parts | apply contextRestart_parts | apply contextAbort_parts
      | (intro _) | split)

end Sys2Proof.Machine
end

