-- ==== Sys2Proof/Laws/OnlyAborts.lean ====
section
/-! SUPPORT. What the operations of Machine/Aborts.lean may change. -/

namespace Sys2Proof.Machine

open Sys2Proof

set_option linter.unusedTactic false
set_option linter.unreachableTactic false

theorem abortAll_parts {pl : List Part} {sa sb : State} (domain : Nat) (target : Nat)
    (hp : [.cmp, .dict, .host, .can, .log, .pwr, .sent] ⊆ pl) (hk : Only pl sa sb) :
    Only pl sa (abortAll domain target sb) := by
  unfold abortAll
  try dsimp only
  repeat'
    with_reducible (first
      | assumption | exact List.Subset.trans (by decide) hp | apply Only.gite | apply Only.gdite | apply abortCtx_parts
      | apply Only.foldl | apply Only.foldl_snd | apply Only.foldl_fst | (intro _) | split)

theorem clearCore_parts {pl : List Part} {sa sb : State} (core : Nat) (hp : [.cmp] ⊆ pl) (hk : Only pl sa sb) :
    Only pl sa (clearCore core sb) := by
  unfold clearCore
  try dsimp only
  repeat'
    with_reducible (first
      | assumption | exact List.Subset.trans (by decide) hp | apply Only.gite | apply Only.gdite | apply modCmp_parts
      | (intro _) | split)

theorem resetCore_parts {pl : List Part} {sa sb : State} (core : Nat)
    (hp : [.cmp, .dict, .host, .can, .log, .pwr, .sent] ⊆ pl) (hk : Only pl sa sb) :
    Only pl sa (resetCore core sb) := by
  unfold resetCore
  try dsimp only
  repeat'
    with_reducible (first
      | assumption | exact List.Subset.trans (by decide) hp | apply Only.gite | apply Only.gdite | apply clearCore_parts
      | apply abortAll_parts | (intro _) | split)

theorem resetCluster_parts {pl : List Part} {sa sb : State} (k : Nat)
    (hp : [.cmp, .coll, .dict, .host, .can, .log, .pwr, .sent] ⊆ pl) (hk : Only pl sa sb) :
    Only pl sa (resetCluster k sb) := by
  unfold resetCluster
  try dsimp only
  repeat'
    with_reducible (first
      | assumption | exact List.Subset.trans (by decide) hp | apply Only.gite | apply Only.gdite | apply clearCore_parts
      | apply abortAll_parts | apply failStep_parts | apply Only.foldl | apply Only.foldl_snd | apply Only.foldl_fst
      | (intro _) | split)

theorem dropTenantCells_parts {pl : List Part} {sa sb : State} (t : Nat)
    (hp : [.ports, .sw, .dict, .host, .can, .log, .pwr, .sent] ⊆ pl) (hk : Only pl sa sb) :
    Only pl sa (dropTenantCells t sb) := by
  unfold dropTenantCells
  try dsimp only
  repeat'
    with_reducible (first
      | assumption | exact List.Subset.trans (by decide) hp | apply Only.gite | apply Only.gdite | apply giveBack_parts
      | apply Only.foldl | apply Only.foldl_snd | apply Only.foldl_fst | (intro _) | split
      | refine Only.sw_upd (partMem hp (by decide)) ?_)

theorem abortTenant_parts {pl : List Part} {sa sb : State} (t : Nat)
    (hp : [.ports, .sw, .cal, .cmp, .coll, .dict, .host, .can, .log, .pwr, .sent] ⊆ pl) (hk : Only pl sa sb) :
    Only pl sa (abortTenant t sb) := by
  unfold abortTenant
  try dsimp only
  repeat'
    with_reducible (first
      | assumption | exact List.Subset.trans (by decide) hp | apply Only.gite | apply Only.gdite | apply abortAll_parts
      | apply modCal_parts | apply modWin_parts | apply failStep_parts | apply dropTenantCells_parts | apply Only.foldl
      | apply Only.foldl_snd | apply Only.foldl_fst | (intro _) | split)

theorem resetPort_parts {pl : List Part} {sa sb : State} (p : PortN)
    (hp : [.ports, .sw, .bep, .ep, .grotto, .coll, .mem, .dict, .host, .can, .log, .lantern, .muster, .pwr, .sent] ⊆ pl)
    (hk : Only pl sa sb) :
    Only pl sa (resetPort p sb) := by
  unfold resetPort
  try dsimp only
  repeat'
    with_reducible (first
      | assumption | exact List.Subset.trans (by decide) hp | apply Only.gite | apply Only.gdite | apply toDisabled_parts
      | apply wakePort_parts | (intro _) | split)

theorem resetCrossbar_parts {pl : List Part} {sa sb : State}
    (hp : [.ports, .sw, .grotto, .cal, .host, .lantern, .sent] ⊆ pl) (hk : Only pl sa sb) :
    Only pl sa (resetCrossbar sb) := by
  unfold resetCrossbar
  try dsimp only
  repeat'
    with_reducible (first
      | assumption | exact List.Subset.trans (by decide) hp | apply Only.gite | apply Only.gdite | apply modCal_parts
      | apply modGrotto_parts | apply settle_parts | apply forPorts_parts | apply modPort_parts | apply toLock_parts
      | apply Only.foldl | apply Only.foldl_snd | apply Only.foldl_fst | (intro _) | split
      | refine Only.sw_upd (partMem hp (by decide)) ?_)

theorem resetEffect_parts {pl : List Part} {sa sb : State} (r : ResetRun)
    (hp : [.ports, .sw, .bep, .ep, .grotto, .cal, .cmp, .coll, .mem, .dict, .host, .can, .log, .lantern, .muster, .pwr, .sent] ⊆ pl)
    (hk : Only pl sa sb) :
    Only pl sa (resetEffect r sb) := by
  unfold resetEffect
  try dsimp only
  repeat'
    with_reducible (first
      | assumption | exact List.Subset.trans (by decide) hp | apply Only.gite | apply Only.gdite | apply resetCrossbar_parts
      | apply abortTenant_parts | apply resetCluster_parts | apply resetCore_parts | apply abortAll_parts
      | apply resetPort_parts | (intro _) | split)

theorem resetDone_parts {pl : List Part} {sa sb : State} (r : ResetRun)
    (hp : [.dict, .host, .can, .log, .pwr, .resets, .sent] ⊆ pl) (hk : Only pl sa sb) :
    Only pl sa (resetDone r sb) := by
  unfold resetDone
  try dsimp only
  repeat'
    with_reducible (first
      | assumption | exact List.Subset.trans (by decide) hp | apply Only.gite | apply Only.gdite | apply log_parts
      | apply bump_parts | (intro _) | split | refine Only.resets_upd (partMem hp (by decide)) ?_)

theorem beginReset_parts {pl : List Part} {sa sb : State} (r : ResetRun)
    (hp : [.ports, .sw, .bep, .ep, .grotto, .cal, .cmp, .coll, .mem, .dict, .host, .can, .log, .lantern, .muster, .pwr, .resets, .sent] ⊆ pl)
    (hk : Only pl sa sb) :
    Only pl sa (beginReset r sb) := by
  unfold beginReset
  try dsimp only
  repeat'
    with_reducible (first
      | assumption | exact List.Subset.trans (by decide) hp | apply Only.gite | apply Only.gdite | apply resetEffect_parts
      | apply resetDone_parts | (intro _) | split | refine Only.resets_upd (partMem hp (by decide)) ?_)

end Sys2Proof.Machine
end

