-- ==== Sys2Proof/Laws/OnlyMuster.lean ====
section
/-! SUPPORT. What the operations of Machine/Muster.lean may change. -/

namespace Sys2Proof.Machine

open Sys2Proof

set_option linter.unusedTactic false
set_option linter.unreachableTactic false

theorem modMuster_parts {pl : List Part} {sa sb : State} (f : Muster → Muster) (hp : [.muster] ⊆ pl)
    (hk : Only pl sa sb) :
    Only pl sa (modMuster f sb) := by
  unfold modMuster
  try dsimp only
  repeat'
    with_reducible (first
      | assumption | exact List.Subset.trans (by decide) hp | apply Only.gite | apply Only.gdite | (intro _) | split
      | refine Only.muster_upd (partMem hp (by decide)) ?_)

theorem sendMus_parts {pl : List Part} {sa sb : State} (sub : Nat) (aux : Nat) (payload : Bytes) (p : PortN)
    (hp : [.ports, .sw, .dict, .host, .can, .log, .pwr, .sent] ⊆ pl) (hk : Only pl sa sb) :
    Only pl sa (sendMus sub aux payload p sb) := by
  unfold sendMus
  try dsimp only
  repeat'
    with_reducible (first
      | assumption | exact List.Subset.trans (by decide) hp | apply Only.gite | apply Only.gdite | apply issueCell_parts
      | apply enqueue_parts | (intro _) | split)

theorem floodMus_parts {pl : List Part} {sa sb : State} (sub : Nat) (aux : Nat) (payload : Bytes) (but : Option PortN)
    (hp : [.ports, .sw, .dict, .host, .can, .log, .pwr, .sent] ⊆ pl) (hk : Only pl sa sb) :
    Only pl sa (floodMus sub aux payload but sb) := by
  unfold floodMus
  try dsimp only
  repeat'
    with_reducible (first
      | assumption | exact List.Subset.trans (by decide) hp | apply Only.gite | apply Only.gdite | apply forPorts_parts
      | apply sendMus_parts | (intro _) | split)

theorem sendSets_parts {pl : List Part} {sa sb : State} (p : PortN)
    (hp : [.ports, .sw, .dict, .host, .can, .log, .pwr, .sent] ⊆ pl) (hk : Only pl sa sb) :
    Only pl sa (sendSets p sb) := by
  unfold sendSets
  try dsimp only
  repeat'
    with_reducible (first
      | assumption | exact List.Subset.trans (by decide) hp | apply Only.gite | apply Only.gdite | apply sendMus_parts
      | apply Only.foldl | apply Only.foldl_snd | apply Only.foldl_fst | (intro _) | split)

theorem floodSets_parts {pl : List Part} {sa sb : State} (hp : [.ports, .sw, .dict, .host, .can, .log, .pwr, .sent] ⊆ pl)
    (hk : Only pl sa sb) :
    Only pl sa (floodSets sb) := by
  unfold floodSets
  try dsimp only
  repeat'
    with_reducible (first
      | assumption | exact List.Subset.trans (by decide) hp | apply Only.gite | apply Only.gdite | apply forPorts_parts
      | apply sendSets_parts | (intro _) | split)

theorem takeMus_parts {pl : List Part} {sa sb : State} (p : PortN) (sub : Nat) (hp : [.ports] ⊆ pl) (hk : Only pl sa sb) :
    Only pl sa (takeMus p sub sb) := by
  unfold takeMus
  try dsimp only
  repeat'
    with_reducible (first
      | assumption | exact List.Subset.trans (by decide) hp | apply Only.gite | apply Only.gdite | apply takeFrom_parts
      | (intro _) | split)

theorem sendResetting_parts {pl : List Part} {sa sb : State}
    (hp : [.ports, .sw, .dict, .host, .can, .log, .pwr, .sent] ⊆ pl) (hk : Only pl sa sb) :
    Only pl sa (sendResetting sb) := by
  unfold sendResetting
  try dsimp only
  repeat'
    with_reducible (first
      | assumption | exact List.Subset.trans (by decide) hp | apply Only.gite | apply Only.gdite | apply floodMus_parts
      | (intro _) | split)

theorem musterCensus_parts {pl : List Part} {sa sb : State} (hp : [.time, .dict, .muster] ⊆ pl) (hk : Only pl sa sb) :
    Only pl sa (musterCensus sb) := by
  unfold musterCensus
  try dsimp only
  repeat'
    with_reducible (first
      | assumption | exact List.Subset.trans (by decide) hp | apply Only.gite | apply Only.gdite | apply odSet_parts
      | apply advanceTo_parts | apply modMuster_parts | (intro _) | split)

theorem viewOriginate_parts {pl : List Part} {sa sb : State}
    (hp : [.time, .ports, .sw, .dict, .host, .can, .log, .muster, .pwr, .sent] ⊆ pl) (hk : Only pl sa sb) :
    Only pl sa (viewOriginate sb) := by
  unfold viewOriginate
  try dsimp only
  repeat'
    with_reducible (first
      | assumption | exact List.Subset.trans (by decide) hp | apply Only.gite | apply Only.gdite | apply advanceTo_parts
      | apply floodMus_parts | apply modMuster_parts | (intro _) | split)

theorem relayView_parts {pl : List Part} {sa sb : State} (p : PortN) (v : ViewCell)
    (hp : [.ports, .sw, .dict, .host, .can, .log, .muster, .pwr, .sent] ⊆ pl) (hk : Only pl sa sb) :
    Only pl sa (relayView p v sb) := by
  unfold relayView
  try dsimp only
  repeat'
    with_reducible (first
      | assumption | exact List.Subset.trans (by decide) hp | apply Only.gite | apply Only.gdite | apply modMuster_parts
      | apply floodMus_parts | (intro _) | split)

theorem addChange_parts {pl : List Part} {sa sb : State} (c : Nat) (hp : [.muster] ⊆ pl) (hk : Only pl sa sb) :
    Only pl sa (addChange c sb) := by
  unfold addChange
  try dsimp only
  repeat'
    with_reducible (first
      | assumption | exact List.Subset.trans (by decide) hp | apply Only.gite | apply Only.gdite | apply modMuster_parts
      | (intro _) | split)

theorem viewReceive_parts {pl : List Part} {sa sb : State} (p : PortN) (v : ViewCell)
    (hp : [.ports, .sw, .dict, .host, .can, .log, .muster, .pwr, .sent] ⊆ pl) (hk : Only pl sa sb) :
    Only pl sa (viewReceive p v sb) := by
  unfold viewReceive
  try dsimp only
  repeat'
    with_reducible (first
      | assumption | exact List.Subset.trans (by decide) hp | apply Only.gite | apply Only.gdite | apply takeMus_parts
      | apply relayView_parts | apply sendSets_parts | apply addChange_parts | apply modMuster_parts | (intro _) | split)

theorem beginEpoch_parts {pl : List Part} {sa sb : State} (e : Nat) (hp : [.dict, .muster] ⊆ pl) (hk : Only pl sa sb) :
    Only pl sa (beginEpoch e sb) := by
  unfold beginEpoch
  try dsimp only
  repeat'
    with_reducible (first
      | assumption | exact List.Subset.trans (by decide) hp | apply Only.gite | apply Only.gdite | apply bump_parts
      | apply modMuster_parts | (intro _) | split)

theorem noteRestart_parts {pl : List Part} {sa sb : State} (old : Nat)
    (hp : [.ports, .sw, .bep, .ep, .grotto, .cal, .cmp, .coll, .mem, .dict, .host, .can, .log, .lantern, .muster, .pwr, .resets, .sent] ⊆ pl)
    (hk : Only pl sa sb) :
    Only pl sa (noteRestart old sb) := by
  unfold noteRestart
  try dsimp only
  repeat'
    with_reducible (first
      | assumption | exact List.Subset.trans (by decide) hp | apply Only.gite | apply Only.gdite | apply log_parts
      | apply bump_parts | apply modMuster_parts | apply beginReset_parts | apply Only.foldl | apply Only.foldl_snd
      | apply Only.foldl_fst | (intro _) | split)

theorem startEpoch_parts {pl : List Part} {sa sb : State} (e : Nat)
    (hp : [.ports, .sw, .bep, .ep, .grotto, .cal, .cmp, .coll, .mem, .dict, .host, .can, .log, .lantern, .muster, .pwr, .resets, .sent] ⊆ pl)
    (hk : Only pl sa sb) :
    Only pl sa (startEpoch e sb) := by
  unfold startEpoch
  try dsimp only
  repeat'
    with_reducible (first
      | assumption | exact List.Subset.trans (by decide) hp | apply Only.gite | apply Only.gdite | apply beginEpoch_parts
      | apply noteRestart_parts | apply modMuster_parts | (intro _) | split)

theorem mergeSets_parts {pl : List Part} {sa sb : State} (e : Nat) (f : List Nat) (l : List Nat)
    (hp : [.ports, .sw, .bep, .ep, .grotto, .cal, .cmp, .coll, .mem, .dict, .host, .can, .log, .lantern, .muster, .pwr, .resets, .sent] ⊆ pl)
    (hk : Only pl sa sb) :
    Only pl sa (mergeSets e f l sb).2 := by
  unfold mergeSets
  try dsimp only
  repeat'
    with_reducible (first
      | assumption | exact List.Subset.trans (by decide) hp | apply Only.gite | apply Only.gdite | apply startEpoch_parts
      | apply modMuster_parts | (intro _) | split)

theorem fsetReceive_parts {pl : List Part} {sa sb : State} (p : PortN) (e : Nat) (b : Bytes)
    (hp : [.ports, .sw, .bep, .ep, .grotto, .cal, .cmp, .coll, .mem, .dict, .host, .can, .log, .lantern, .muster, .pwr, .resets, .sent] ⊆ pl)
    (hk : Only pl sa sb) :
    Only pl sa (fsetReceive p e b sb) := by
  unfold fsetReceive
  try dsimp only
  repeat'
    with_reducible (first
      | assumption | exact List.Subset.trans (by decide) hp | apply Only.gite | apply Only.gdite | apply takeMus_parts
      | apply mergeSets_parts | apply floodMus_parts | (intro _) | split)

theorem lossReceive_parts {pl : List Part} {sa sb : State} (p : PortN) (e : Nat) (l : List Nat)
    (hp : [.ports, .sw, .bep, .ep, .grotto, .cal, .cmp, .coll, .mem, .dict, .host, .can, .log, .lantern, .muster, .pwr, .resets, .sent] ⊆ pl)
    (hk : Only pl sa sb) :
    Only pl sa (lossReceive p e l sb) := by
  unfold lossReceive
  try dsimp only
  repeat'
    with_reducible (first
      | assumption | exact List.Subset.trans (by decide) hp | apply Only.gite | apply Only.gdite | apply takeMus_parts
      | apply mergeSets_parts | apply floodMus_parts | (intro _) | split)

theorem markAllWindows_parts {pl : List Part} {sa sb : State} (hp : [.coll] ⊆ pl) (hk : Only pl sa sb) :
    Only pl sa (markAllWindows sb) := by
  unfold markAllWindows
  try dsimp only
  repeat'
    with_reducible (first
      | assumption | exact List.Subset.trans (by decide) hp | apply Only.gite | apply Only.gdite | (intro _) | split
      | refine Only.coll_upd (partMem hp (by decide)) ?_)

theorem detectMissing_parts {pl : List Part} {sa sb : State} (hp : [.dict, .muster] ⊆ pl) (hk : Only pl sa sb) :
    Only pl sa (detectMissing sb) := by
  unfold detectMissing
  try dsimp only
  repeat'
    with_reducible (first
      | assumption | exact List.Subset.trans (by decide) hp | apply Only.gite | apply Only.gdite | apply bumpN_parts
      | apply addChange_parts | apply modMuster_parts | apply Only.foldl | apply Only.foldl_snd | apply Only.foldl_fst
      | (intro _) | split)

theorem decideEpoch_parts {pl : List Part} {sa sb : State}
    (hp : [.coll, .dict, .host, .can, .log, .muster, .pwr, .sent] ⊆ pl) (hk : Only pl sa sb) :
    Only pl sa (decideEpoch sb) := by
  unfold decideEpoch
  try dsimp only
  repeat'
    with_reducible (first
      | assumption | exact List.Subset.trans (by decide) hp | apply Only.gite | apply Only.gdite | apply bump_parts
      | apply modMuster_parts | apply log_parts | apply markAllWindows_parts | apply Only.foldl | apply Only.foldl_snd
      | apply Only.foldl_fst | (intro _) | split)

theorem musterWindowEnd_parts {pl : List Part} {sa sb : State}
    (hp : [.time, .ports, .sw, .bep, .ep, .grotto, .cal, .cmp, .coll, .mem, .dict, .host, .can, .log, .lantern, .muster, .pwr, .resets, .sent] ⊆ pl)
    (hk : Only pl sa sb) :
    Only pl sa (musterWindowEnd sb) := by
  unfold musterWindowEnd
  try dsimp only
  repeat'
    with_reducible (first
      | assumption | exact List.Subset.trans (by decide) hp | apply Only.gite | apply Only.gdite | apply advanceTo_parts
      | apply modMuster_parts | apply detectMissing_parts | apply startEpoch_parts | apply floodSets_parts
      | apply decideEpoch_parts | apply Only.foldl | apply Only.foldl_snd | apply Only.foldl_fst | (intro _) | split)

theorem recoveryStep_parts {pl : List Part} {sa sb : State} (k : Nat)
    (hp : [.ports, .sw, .routes, .bep, .ep, .grotto, .coll, .mem, .dict, .host, .can, .log, .lantern, .muster, .pwr, .sent] ⊆ pl)
    (hk : Only pl sa sb) :
    Only pl sa (recoveryStep k sb) := by
  unfold recoveryStep
  try dsimp only
  repeat'
    with_reducible (first
      | assumption | exact List.Subset.trans (by decide) hp | apply Only.gite | apply Only.gdite | apply modMuster_parts
      | apply markLost_parts | apply forPorts_parts | apply loseMember_parts | apply log_parts | apply Only.foldl
      | apply Only.foldl_snd | apply Only.foldl_fst | (intro _) | split | refine Only.routes_upd (partMem hp (by decide)) ?_)

theorem musterStep_parts {pl : List Part} {sa sb : State}
    (hp : [.time, .ports, .sw, .routes, .bep, .ep, .grotto, .coll, .mem, .dict, .host, .can, .log, .lantern, .muster, .pwr, .sent] ⊆ pl)
    (hk : Only pl sa sb) :
    Only pl sa (musterStep sb) := by
  unfold musterStep
  try dsimp only
  repeat'
    with_reducible (first
      | assumption | exact List.Subset.trans (by decide) hp | apply Only.gite | apply Only.gdite | apply advanceTo_parts
      | apply recoveryStep_parts | apply modMuster_parts | (intro _) | split)

theorem readmission_parts {pl : List Part} {sa sb : State} (hp : [.time, .routes, .dict, .muster] ⊆ pl)
    (hk : Only pl sa sb) :
    Only pl sa (readmission sb) := by
  unfold readmission
  try dsimp only
  repeat'
    with_reducible (first
      | assumption | exact List.Subset.trans (by decide) hp | apply Only.gite | apply Only.gdite | apply odSet_parts
      | apply advanceTo_parts | apply modMuster_parts | apply bump_parts | apply Only.foldl | apply Only.foldl_snd
      | apply Only.foldl_fst | (intro _) | split | refine Only.routes_upd (partMem hp (by decide)) ?_)

end Sys2Proof.Machine
end

