-- ==== Sys2Proof/Laws/OnlySteward.lean ====
section
/-! SUPPORT. What the operations of Machine/Steward.lean may change. -/

namespace Sys2Proof.Machine

open Sys2Proof

set_option linter.unusedTactic false
set_option linter.unreachableTactic false

theorem stageUpdate_parts {pl : List Part} {sa sb : State} (i : Nat) (chunk : Nat) (j : Nat) (state : Bytes)
    (weights : Bytes) (t : Nat) (hp : [.bep, .coll, .mem, .dict, .host, .can, .log, .pwr, .sent] ⊆ pl)
    (hk : Only pl sa sb) :
    Only pl sa (stageUpdate i chunk j state weights t sb) := by
  unfold stageUpdate
  try dsimp only
  repeat'
    with_reducible (first
      | assumption | exact List.Subset.trans (by decide) hp | apply Only.gite | apply Only.gdite | apply writeRun_parts
      | apply setShard_parts | apply formCell_parts | apply Only.foldl | apply Only.foldl_snd | apply Only.foldl_fst
      | (intro _) | split)

theorem kernelUpdate_parts {pl : List Part} {sa sb : State} (i : Nat) (chunk : Nat) (j : Nat)
    (hp : [.bep, .coll, .mem, .dict, .host, .can, .log, .pwr, .sent, .free] ⊆ pl) (hk : Only pl sa sb) :
    Only pl sa (kernelUpdate i chunk j sb) := by
  unfold kernelUpdate
  try dsimp only
  repeat'
    with_reducible (first
      | assumption | exact List.Subset.trans (by decide) hp | apply Only.gite | apply Only.gdite | apply failStep_parts
      | apply bump_parts | apply drawn_parts | apply stageUpdate_parts | (intro _) | split)

theorem shardUpdate_parts {pl : List Part} {sa sb : State} (i : Nat) (chunk : Nat)
    (hp : [.bep, .coll, .mem, .dict, .host, .can, .log, .pwr, .sent, .free] ⊆ pl) (hk : Only pl sa sb) :
    Only pl sa (shardUpdate i chunk sb) := by
  unfold shardUpdate
  try dsimp only
  repeat'
    with_reducible (first
      | assumption | exact List.Subset.trans (by decide) hp | apply Only.gite | apply Only.gdite | apply failStep_parts
      | apply kernelUpdate_parts | apply stageUpdate_parts | (intro _) | split)

theorem shardEnable_parts {pl : List Part} {sa sb : State} (j : Nat)
    (hp : [.bep, .ep, .grotto, .cmp, .coll, .xlat, .mem, .dict, .host, .can, .log, .pwr, .sent] ⊆ pl)
    (hk : Only pl sa sb) :
    Only pl sa (shardEnable j sb) := by
  unfold shardEnable
  try dsimp only
  repeat'
    with_reducible (first
      | assumption | exact List.Subset.trans (by decide) hp | apply Only.gite | apply Only.gdite | apply refuseRule_parts
      | apply setShard_parts | apply closeEntries_parts | (intro _) | split)

theorem shardDisable_parts {pl : List Part} {sa sb : State} (j : Nat) (hp : [.bep, .coll, .mem, .dict] ⊆ pl)
    (hk : Only pl sa sb) :
    Only pl sa (shardDisable j sb) := by
  unfold shardDisable
  try dsimp only
  repeat'
    with_reducible (first
      | assumption | exact List.Subset.trans (by decide) hp | apply Only.gite | apply Only.gdite | apply refuseRule_parts
      | apply clearRegion_parts | apply setShard_parts | apply Only.foldl | apply Only.foldl_snd | apply Only.foldl_fst
      | (intro _) | split)

theorem shardWrite_parts {pl : List Part} {sa sb : State} (src : Route) (j : Nat) (v : Nat)
    (hp : [.bep, .ep, .grotto, .cmp, .coll, .xlat, .mem, .dict, .host, .can, .log, .pwr, .sent] ⊆ pl)
    (hk : Only pl sa sb) :
    Only pl sa (shardWrite src j v sb) := by
  unfold shardWrite
  try dsimp only
  repeat'
    with_reducible (first
      | assumption | exact List.Subset.trans (by decide) hp | apply Only.gite | apply Only.gdite | apply beginOp_parts
      | apply shardDisable_parts | apply shardEnable_parts | apply clamped_parts | (intro _) | split)

theorem recordWrite_parts {pl : List Part} {sa sb : State} (j : Nat) (b : Bytes) (hp : [.coll, .dict] ⊆ pl)
    (hk : Only pl sa sb) :
    Only pl sa (recordWrite j b sb) := by
  unfold recordWrite
  try dsimp only
  repeat'
    with_reducible (first
      | assumption | exact List.Subset.trans (by decide) hp | apply Only.gite | apply Only.gdite | apply endOp_parts
      | apply refuseCondition_parts | apply setShard_parts | (intro _) | split)

end Sys2Proof.Machine
end

