-- ==== Sys2Proof/Laws/OnlySecurity.lean ====
section
/-! SUPPORT. What the operations of Machine/Security.lean may change. -/

namespace Sys2Proof.Machine

open Sys2Proof

set_option linter.unusedTactic false
set_option linter.unreachableTactic false

theorem modSec_parts {pl : List Part} {sa sb : State} (f : Sec → Sec) (hp : [.sec] ⊆ pl) (hk : Only pl sa sb) :
    Only pl sa (modSec f sb) := by
  unfold modSec
  try dsimp only
  repeat'
    with_reducible (first
      | assumption | exact List.Subset.trans (by decide) hp | apply Only.gite | apply Only.gdite | (intro _) | split
      | refine Only.sec_upd (partMem hp (by decide)) ?_)

theorem spdm_parts {pl : List Part} {sa sb : State} (name : String) (data : Bytes) (hp : [.sent] ⊆ pl)
    (hk : Only pl sa sb) :
    Only pl sa (spdm name data sb) := by
  unfold spdm
  try dsimp only
  repeat'
    with_reducible (first
      | assumption | exact List.Subset.trans (by decide) hp | apply Only.gite | apply Only.gdite | apply emit_parts
      | (intro _) | split)

theorem spdmError_parts {pl : List Part} {sa sb : State} (what : String) (hp : [.sent] ⊆ pl) (hk : Only pl sa sb) :
    Only pl sa (spdmError what sb) := by
  unfold spdmError
  try dsimp only
  repeat'
    with_reducible (first
      | assumption | exact List.Subset.trans (by decide) hp | apply Only.gite | apply Only.gdite | apply spdm_parts
      | (intro _) | split)

theorem withIdentity_parts {pl : List Part} {sa sb : State} (f : State → State)
    (h_f : ∀ (u : State), Only pl sa u → Only pl sa (f  u)) (hp : [.sent] ⊆ pl) (hk : Only pl sa sb) :
    Only pl sa (withIdentity f sb) := by
  unfold withIdentity
  try dsimp only
  repeat'
    with_reducible (first
      | assumption | exact List.Subset.trans (by decide) hp | apply Only.gite | apply Only.gdite | apply h_f
      | apply spdmError_parts | (intro _) | split)

theorem keyExchange_parts {pl : List Part} {sa sb : State} (who : Requester) (exchange : Bytes)
    (hp : [.dict, .sec, .sent, .free] ⊆ pl) (hk : Only pl sa sb) :
    Only pl sa (keyExchange who exchange sb) := by
  unfold keyExchange
  try dsimp only
  repeat'
    with_reducible (first
      | assumption | exact List.Subset.trans (by decide) hp | apply Only.gite | apply Only.gdite | apply spdmError_parts
      | apply bump_parts | apply drawn_parts | apply modSec_parts | apply spdm_parts | (intro _) | split)

theorem dropSession_parts {pl : List Part} {sa sb : State} (id : Nat) (hp : [.sec] ⊆ pl) (hk : Only pl sa sb) :
    Only pl sa (dropSession id sb) := by
  unfold dropSession
  try dsimp only
  repeat'
    with_reducible (first
      | assumption | exact List.Subset.trans (by decide) hp | apply Only.gite | apply Only.gdite | apply modSec_parts
      | (intro _) | split)

theorem dropSessions_parts {pl : List Part} {sa sb : State} (hp : [.sec] ⊆ pl) (hk : Only pl sa sb) :
    Only pl sa (dropSessions sb) := by
  unfold dropSessions
  try dsimp only
  repeat'
    with_reducible (first
      | assumption | exact List.Subset.trans (by decide) hp | apply Only.gite | apply Only.gdite | apply modSec_parts
      | (intro _) | split)

theorem finishSession_parts {pl : List Part} {sa sb : State} (id : Nat) (verified : Bool) (hp : [.dict, .sec, .sent] ⊆ pl)
    (hk : Only pl sa sb) :
    Only pl sa (finishSession id verified sb) := by
  unfold finishSession
  try dsimp only
  repeat'
    with_reducible (first
      | assumption | exact List.Subset.trans (by decide) hp | apply Only.gite | apply Only.gdite | apply spdmError_parts
      | apply spdm_parts | apply bump_parts | apply modSec_parts | apply dropSession_parts | (intro _) | split)

theorem inSession_parts {pl : List Part} {sa sb : State} (id : Nat) (f : Session → State → State)
    (h_f : ∀ (x0 : Session) (u : State), Only pl sa u → Only pl sa (f x0 u)) (hp : [.sent] ⊆ pl) (hk : Only pl sa sb) :
    Only pl sa (inSession id f sb) := by
  unfold inSession
  try dsimp only
  repeat'
    with_reducible (first
      | assumption | exact List.Subset.trans (by decide) hp | apply Only.gite | apply Only.gdite | apply h_f
      | apply spdmError_parts | (intro _) | split)

theorem keyUpdate_parts {pl : List Part} {sa sb : State} (id : Nat) (op : Nat) (hp : [.sec, .sent] ⊆ pl)
    (hk : Only pl sa sb) :
    Only pl sa (keyUpdate id op sb) := by
  unfold keyUpdate
  try dsimp only
  repeat'
    with_reducible (first
      | assumption | exact List.Subset.trans (by decide) hp | apply Only.gite | apply Only.gdite | apply spdm_parts
      | apply modSec_parts | apply inSession_parts | apply spdmError_parts | (intro _) | split)

theorem getMeasurements_parts {pl : List Part} {sa sb : State} (index : Nat) (signed : Bool) (nonce : Bytes)
    (hp : [.sent] ⊆ pl) (hk : Only pl sa sb) :
    Only pl sa (getMeasurements index signed nonce sb) := by
  unfold getMeasurements
  try dsimp only
  repeat'
    with_reducible (first
      | assumption | exact List.Subset.trans (by decide) hp | apply Only.gite | apply Only.gdite | apply spdm_parts
      | apply spdmError_parts | (intro _) | split)

theorem writeRegion_parts {pl : List Part} {sa sb : State} (hp : [.sec] ⊆ pl) (hk : Only pl sa sb) :
    Only pl sa (writeRegion sb) := by
  unfold writeRegion
  try dsimp only
  repeat'
    with_reducible (first
      | assumption | exact List.Subset.trans (by decide) hp | apply Only.gite | apply Only.gdite | apply modSec_parts
      | (intro _) | split)

theorem securityWrite_parts {pl : List Part} {sa sb : State} (index : Nat) (sub : Nat) (b : Bytes)
    (hp : [.dict, .sec] ⊆ pl) (hk : Only pl sa sb) :
    Only pl sa (securityWrite index sub b sb) := by
  unfold securityWrite
  try dsimp only
  repeat'
    with_reducible (first
      | assumption | exact List.Subset.trans (by decide) hp | apply Only.gite | apply Only.gdite | apply writeRegion_parts
      | apply blobSet_parts | apply endOp_parts | (intro _) | split)

theorem bundleBind_parts {pl : List Part} {sa sb : State} (src : Route) (v : Nat) (hp : [.dict, .host, .sec, .sent] ⊆ pl)
    (hk : Only pl sa sb) :
    Only pl sa (bundleBind src v sb) := by
  unfold bundleBind
  try dsimp only
  repeat'
    with_reducible (first
      | assumption | exact List.Subset.trans (by decide) hp | apply Only.gite | apply Only.gdite | apply beginOp_parts
      | apply refuseRule_parts | apply modSec_parts | apply onlyOne_parts | (intro _) | split)

theorem fillRegions_parts {pl : List Part} {sa sb : State} (l : List (Nat × Nat)) (b : Bytes) (hp : [.bep, .mem, .dict, .host, .can, .log, .pwr, .sent] ⊆ pl)
    (hk : Only pl sa sb) : Only pl sa (fillRegions l b sb) := by
  induction l generalizing b sb with
  | nil => exact hk
  | cons r l ih => exact ih _ (writeRun_parts _ _ _ (List.Subset.trans (by decide) hp) hk)

theorem bundleBindDone_parts {pl : List Part} {sa sb : State}
    (hp : [.bep, .ep, .grotto, .cmp, .coll, .xlat, .mem, .dict, .host, .can, .sec, .log, .pwr, .sent] ⊆ pl)
    (hk : Only pl sa sb) :
    Only pl sa (bundleBindDone sb) := by
  unfold bundleBindDone
  try dsimp only
  repeat'
    with_reducible (first
      | assumption | exact List.Subset.trans (by decide) hp | apply Only.gite | apply Only.gdite | apply clearRegion_parts
      | apply fillRegions_parts | apply shardEnable_parts | apply setShard_parts | apply bump_parts
      | apply extendMeasurement_parts | apply modSec_parts | apply Only.foldl | apply Only.foldl_snd | apply Only.foldl_fst
      | (intro _) | split)

theorem setSpare_parts {pl : List Part} {sa sb : State} (f : Option Firmware) (hp : [.sec] ⊆ pl) (hk : Only pl sa sb) :
    Only pl sa (setSpare f sb) := by
  unfold setSpare
  try dsimp only
  repeat'
    with_reducible (first
      | assumption | exact List.Subset.trans (by decide) hp | apply Only.gite | apply Only.gdite | apply modSec_parts
      | (intro _) | split)

theorem abandonFirmware_parts {pl : List Part} {sa sb : State} (hp : [.sec] ⊆ pl) (hk : Only pl sa sb) :
    Only pl sa (abandonFirmware sb) := by
  unfold abandonFirmware
  try dsimp only
  repeat'
    with_reducible (first
      | assumption | exact List.Subset.trans (by decide) hp | apply Only.gite | apply Only.gdite | apply modSec_parts
      | (intro _) | split)

theorem firmwareSegment_parts {pl : List Part} {sa sb : State} (first : Bool) (last : Bool) (seg : Bytes)
    (hp : [.dict, .sec] ⊆ pl) (hk : Only pl sa sb) :
    Only pl sa (firmwareSegment first last seg sb) := by
  unfold firmwareSegment
  try dsimp only
  repeat'
    with_reducible (first
      | assumption | exact List.Subset.trans (by decide) hp | apply Only.gite | apply Only.gdite | apply refuseRule_parts
      | apply setSpare_parts | apply modSec_parts | apply endOp_parts | apply abandonFirmware_parts | apply bump_parts
      | (intro _) | split)

theorem vendorResponse_parts {pl : List Part} {sa sb : State} (r : MbxResponse) (hp : [.sent] ⊆ pl) (hk : Only pl sa sb) :
    Only pl sa (vendorResponse r sb) := by
  unfold vendorResponse
  try dsimp only
  repeat'
    with_reducible (first
      | assumption | exact List.Subset.trans (by decide) hp | apply Only.gite | apply Only.gdite | apply spdm_parts
      | (intro _) | split)

theorem denyTenant_parts {pl : List Part} {sa sb : State} (hp : [.dict] ⊆ pl) (hk : Only pl sa sb) :
    Only pl sa (denyTenant sb) := by
  unfold denyTenant
  try dsimp only
  repeat'
    with_reducible (first
      | assumption | exact List.Subset.trans (by decide) hp | apply Only.gite | apply Only.gdite | apply bump_parts
      | apply endOp_parts | (intro _) | split)

theorem securedFirmware_parts {pl : List Part} {sa sb : State} (first : Bool) (last : Bool) (seg : Bytes)
    (hp : [.dict, .host, .sec] ⊆ pl) (hk : Only pl sa sb) :
    Only pl sa (securedFirmware first last seg sb) := by
  unfold securedFirmware
  try dsimp only
  repeat'
    with_reducible (first
      | assumption | exact List.Subset.trans (by decide) hp | apply Only.gite | apply Only.gdite | apply endOp_parts
      | apply firmwareSegment_parts | (intro _) | split | refine Only.host_upd (partMem hp (by decide)) ?_)

theorem firmwareImageWrite_parts {pl : List Part} {sa sb : State} (id : Nat) (first : Bool) (last : Bool) (seg : Bytes)
    (hp : [.dict, .host, .sec, .sent] ⊆ pl) (hk : Only pl sa sb) :
    Only pl sa (firmwareImageWrite id first last seg sb) := by
  unfold firmwareImageWrite
  try dsimp only
  repeat'
    with_reducible (first
      | assumption | exact List.Subset.trans (by decide) hp | apply Only.gite | apply Only.gdite | apply inSession_parts
      | apply beginOp_parts | apply bump_parts | apply securedFirmware_parts | apply denyTenant_parts
      | apply vendorResponse_parts | (intro _) | split)

end Sys2Proof.Machine
end

