-- ==== Sys2Proof/Laws/OnlyResets.lean ====
section
/-! SUPPORT. What the operations of Machine/Resets.lean may change. -/

namespace Sys2Proof.Machine

open Sys2Proof

set_option linter.unusedTactic false
set_option linter.unreachableTactic false

theorem modPwr_parts {pl : List Part} {sa sb : State} (f : Power → Power) (hp : [.pwr] ⊆ pl) (hk : Only pl sa sb) :
    Only pl sa (modPwr f sb) := by
  unfold modPwr
  try dsimp only
  repeat'
    with_reducible (first
      | assumption | exact List.Subset.trans (by decide) hp | apply Only.gite | apply Only.gdite | (intro _) | split
      | refine Only.pwr_upd (partMem hp (by decide)) ?_)

theorem modResets_parts {pl : List Part} {sa sb : State} (f : Resets → Resets) (hp : [.resets] ⊆ pl)
    (hk : Only pl sa sb) :
    Only pl sa (modResets f sb) := by
  unfold modResets
  try dsimp only
  repeat'
    with_reducible (first
      | assumption | exact List.Subset.trans (by decide) hp | apply Only.gite | apply Only.gdite | (intro _) | split
      | refine Only.resets_upd (partMem hp (by decide)) ?_)

theorem enterCold_parts {pl : List Part} {sa sb : State} (hp : [.time, .ports, .sw, .routes, .bep, .ep, .grotto, .cal, .cmp, .coll, .xlat, .mem, .dict, .host, .can, .sec, .log, .lantern, .muster, .pwr, .resets, .sent] ⊆ pl) (hk : Only pl sa sb) :
    Only pl sa (enterCold sb) := by
  intro p hn
  have g := hk p hn
  cases p <;> first | exact absurd (partMem hp (by decide)) hn | exact g

theorem wakePorts_parts {pl : List Part} {sa sb : State}
    (hp : [.ports, .sw, .bep, .ep, .grotto, .coll, .mem, .dict, .host, .can, .log, .lantern, .muster, .pwr, .sent] ⊆ pl)
    (hk : Only pl sa sb) :
    Only pl sa (wakePorts sb) := by
  unfold wakePorts
  try dsimp only
  repeat'
    with_reducible (first
      | assumption | exact List.Subset.trans (by decide) hp | apply Only.gite | apply Only.gdite | apply forPorts_parts
      | apply wakePort_parts | (intro _) | split)

theorem finishCold_parts {pl : List Part} {sa sb : State} (cause : Nat)
    (hp : [.ports, .sw, .bep, .ep, .grotto, .coll, .mem, .dict, .host, .can, .sec, .log, .lantern, .muster, .pwr, .resets, .sent] ⊆ pl)
    (hk : Only pl sa sb) :
    Only pl sa (finishCold cause sb) := by
  unfold finishCold
  try dsimp only
  repeat'
    with_reducible (first
      | assumption | exact List.Subset.trans (by decide) hp | apply Only.gite | apply Only.gdite | apply modPwr_parts
      | apply raiseCause_parts | apply modSec_parts | apply log_parts | apply forPorts_parts | apply modPort_parts
      | apply resetDone_parts | apply wakePorts_parts | (intro _) | split | refine Only.mem_upd (partMem hp (by decide)) ?_)

theorem coldReset_parts {pl : List Part} {sa sb : State} (cause : Nat)
    (hp : [.time, .ports, .sw, .routes, .bep, .ep, .grotto, .cal, .cmp, .coll, .xlat, .mem, .dict, .host, .can, .sec, .log, .lantern, .muster, .pwr, .resets, .sent] ⊆ pl)
    (hk : Only pl sa sb) :
    Only pl sa (coldReset cause sb) := by
  unfold coldReset
  try dsimp only
  repeat'
    with_reducible (first
      | assumption | exact List.Subset.trans (by decide) hp | apply Only.gite | apply Only.gdite | apply enterCold_parts
      | apply finishCold_parts | (intro _) | split)

theorem abandonMailbox_parts {pl : List Part} {sa sb : State} (hp : [.host, .sent] ⊆ pl) (hk : Only pl sa sb) :
    Only pl sa (abandonMailbox sb) := by
  unfold abandonMailbox
  try dsimp only
  repeat'
    with_reducible (first
      | assumption | exact List.Subset.trans (by decide) hp | apply Only.gite | apply Only.gdite | apply raiseCause_parts
      | (intro _) | split | refine Only.host_upd (partMem hp (by decide)) ?_)

theorem stopManagement_parts {pl : List Part} {sa sb : State} (hp : [.cmp, .dict, .host, .can, .sec, .sent] ⊆ pl) (hk : Only pl sa sb) :
    Only pl sa (stopManagement sb) := by
  unfold stopManagement
  extract_lets s t
  have a : Only pl sa t :=
    modSec_parts _ (List.Subset.trans (by decide) hp) (dropSessions_parts (List.Subset.trans (by decide) hp) (abandonFirmware_parts (List.Subset.trans (by decide) hp) (abandonMailbox_parts (List.Subset.trans (by decide) hp) hk)))
  clear_value t
  intro p hn
  have g := a p hn
  cases p <;> first | exact absurd (partMem hp (by decide)) hn | exact g

theorem managementReset_parts {pl : List Part} {sa sb : State} (r : ResetRun)
    (hp : [.cmp, .dict, .host, .can, .sec, .log, .pwr, .resets, .sent] ⊆ pl) (hk : Only pl sa sb) :
    Only pl sa (managementReset r sb) := by
  unfold managementReset
  try dsimp only
  repeat'
    with_reducible (first
      | assumption | exact List.Subset.trans (by decide) hp | apply Only.gite | apply Only.gdite | apply log_parts
      | apply stopManagement_parts | apply modResets_parts | (intro _) | split)

theorem answerQueued_parts {pl : List Part} {sa sb : State}
    (hp : [.ports, .sw, .bep, .grotto, .dict, .host, .can, .log, .pwr, .sent] ⊆ pl) (hk : Only pl sa sb) :
    Only pl sa (answerQueued sb) := by
  unfold answerQueued
  try dsimp only
  repeat'
    with_reducible (first
      | assumption | exact List.Subset.trans (by decide) hp | apply Only.gite | apply Only.gdite | apply answerIn_parts
      | apply modGrotto_parts | apply refuseCell_parts | apply Only.foldl | apply Only.foldl_snd | apply Only.foldl_fst
      | (intro _) | split | refine Only.sw_upd (partMem hp (by decide)) ?_ | refine Only.bep_upd (partMem hp (by decide)) ?_)

theorem startWarm_parts {pl : List Part} {sa sb : State} (r : ResetRun)
    (hp : [.ports, .sw, .bep, .grotto, .dict, .host, .can, .log, .pwr, .resets, .sent] ⊆ pl) (hk : Only pl sa sb) :
    Only pl sa (startWarm r sb) := by
  unfold startWarm
  try dsimp only
  repeat'
    with_reducible (first
      | assumption | exact List.Subset.trans (by decide) hp | apply Only.gite | apply Only.gdite | apply answerQueued_parts
      | apply sendResetting_parts | apply modResets_parts | apply modPwr_parts | (intro _) | split)

theorem warmPortsDown_parts {pl : List Part} {sa sb : State}
    (hp : [.ports, .sw, .bep, .ep, .grotto, .coll, .mem, .dict, .host, .can, .log, .lantern, .muster, .pwr, .sent] ⊆ pl)
    (hk : Only pl sa sb) :
    Only pl sa (warmPortsDown sb) := by
  unfold warmPortsDown
  try dsimp only
  repeat'
    with_reducible (first
      | assumption | exact List.Subset.trans (by decide) hp | apply Only.gite | apply Only.gdite | apply forPorts_parts
      | apply toDisabled_parts | apply raiseCause_parts | (intro _) | split
      | refine Only.mem_upd (partMem hp (by decide)) ?_)

theorem clearPlanes_parts {pl : List Part} {sa sb : State} (failed : List Nat) (hp : [.time, .ports, .sw, .routes, .bep, .ep, .grotto, .cal, .cmp, .coll, .xlat, .mem, .dict, .host, .can, .log, .lantern, .muster, .pwr, .sent] ⊆ pl) (hk : Only pl sa sb) :
    Only pl sa (clearPlanes failed sb) := by
  intro p hn
  have g := hk p hn
  cases p <;> first | exact absurd (partMem hp (by decide)) hn | exact g

theorem startReset_parts {pl : List Part} {sa sb : State} (r : ResetRun)
    (hp : [.time, .ports, .sw, .routes, .bep, .ep, .grotto, .cal, .cmp, .coll, .xlat, .mem, .dict, .host, .can, .sec, .log, .lantern, .muster, .pwr, .resets, .sent] ⊆ pl)
    (hk : Only pl sa sb) :
    Only pl sa (startReset r sb) := by
  unfold startReset
  try dsimp only
  repeat'
    with_reducible (first
      | assumption | exact List.Subset.trans (by decide) hp | apply Only.gite | apply Only.gdite | apply coldReset_parts
      | apply startWarm_parts | apply managementReset_parts | apply beginReset_parts | (intro _) | split)

theorem requestReset_parts {pl : List Part} {sa sb : State} (r : ResetRun)
    (hp : [.time, .ports, .sw, .routes, .bep, .ep, .grotto, .cal, .cmp, .coll, .xlat, .mem, .dict, .host, .can, .sec, .log, .lantern, .muster, .pwr, .resets, .sent] ⊆ pl)
    (hk : Only pl sa sb) :
    Only pl sa (requestReset r sb) := by
  unfold requestReset
  try dsimp only
  repeat'
    with_reducible (first
      | assumption | exact List.Subset.trans (by decide) hp | apply Only.gite | apply Only.gdite | apply modResets_parts
      | apply startReset_parts | (intro _) | split)

theorem startWaiting_parts {pl : List Part} {sa sb : State} (n : Nat) (hp : [.time, .ports, .sw, .routes, .bep, .ep, .grotto, .cal, .cmp, .coll, .xlat, .mem, .dict, .host, .can, .sec, .log, .lantern, .muster, .pwr, .resets, .sent] ⊆ pl) (hk : Only pl sa sb) :
    Only pl sa (startWaiting n sb) := by
  induction n generalizing sb with
  | zero => exact hk
  | succ n ih =>
    unfold startWaiting
    split
    · exact hk
    · apply Only.gite
      · exact fun _ => hk
      · exact fun _ => ih (startReset_parts _ (List.Subset.trans (by decide) hp) (modResets_parts _ (List.Subset.trans (by decide) hp) hk))

theorem settleResets_parts {pl : List Part} {sa sb : State}
    (hp : [.time, .ports, .sw, .routes, .bep, .ep, .grotto, .cal, .cmp, .coll, .xlat, .mem, .dict, .host, .can, .sec, .log, .lantern, .muster, .pwr, .resets, .sent] ⊆ pl)
    (hk : Only pl sa sb) :
    Only pl sa (settleResets sb) := by
  unfold settleResets
  try dsimp only
  repeat'
    with_reducible (first
      | assumption | exact List.Subset.trans (by decide) hp | apply Only.gite | apply Only.gdite | apply modResets_parts
      | apply resetDone_parts | apply startWaiting_parts | apply Only.foldl | apply Only.foldl_snd | apply Only.foldl_fst
      | (intro _) | split)

theorem concludeReset_parts {pl : List Part} {sa sb : State} (domain : Nat)
    (hp : [.time, .ports, .sw, .routes, .bep, .ep, .grotto, .cal, .cmp, .coll, .xlat, .mem, .dict, .host, .can, .sec, .log, .lantern, .muster, .pwr, .resets, .sent] ⊆ pl)
    (hk : Only pl sa sb) :
    Only pl sa (concludeReset domain sb) := by
  unfold concludeReset
  try dsimp only
  repeat'
    with_reducible (first
      | assumption | exact List.Subset.trans (by decide) hp | apply Only.gite | apply Only.gdite | apply modResets_parts
      | apply resetDone_parts | apply settleResets_parts | apply Only.foldl | apply Only.foldl_snd | apply Only.foldl_fst
      | (intro _) | split)

theorem leaveWarm_parts {pl : List Part} {sa sb : State} (failed : List Nat)
    (hp : [.time, .ports, .sw, .routes, .bep, .ep, .grotto, .cal, .cmp, .coll, .xlat, .mem, .dict, .host, .can, .sec, .log, .lantern, .muster, .pwr, .resets, .sent] ⊆ pl)
    (hk : Only pl sa sb) :
    Only pl sa (leaveWarm failed sb) := by
  unfold leaveWarm
  try dsimp only
  repeat'
    with_reducible (first
      | assumption | exact List.Subset.trans (by decide) hp | apply Only.gite | apply Only.gdite | apply clearPlanes_parts
      | apply raiseCause_parts | apply log_parts | apply concludeReset_parts | apply wakePorts_parts | apply Only.foldl
      | apply Only.foldl_snd | apply Only.foldl_fst | (intro _) | split)

theorem warmComplete_parts {pl : List Part} {sa sb : State} (failed : List Nat)
    (hp : [.time, .ports, .sw, .routes, .bep, .ep, .grotto, .cal, .cmp, .coll, .xlat, .mem, .dict, .host, .can, .sec, .log, .lantern, .muster, .pwr, .resets, .sent] ⊆ pl)
    (hk : Only pl sa sb) :
    Only pl sa (warmComplete failed sb) := by
  unfold warmComplete
  try dsimp only
  repeat'
    with_reducible (first
      | assumption | exact List.Subset.trans (by decide) hp | apply Only.gite | apply Only.gdite | apply leaveWarm_parts
      | (intro _) | split)

theorem resetWrite_parts {pl : List Part} {sa sb : State} (src : Route) (sub : Nat) (v : Nat)
    (hp : [.time, .ports, .sw, .routes, .bep, .ep, .grotto, .cal, .cmp, .coll, .xlat, .mem, .dict, .host, .can, .sec, .log, .lantern, .muster, .pwr, .resets, .sent] ⊆ pl)
    (hk : Only pl sa sb) :
    Only pl sa (resetWrite src sub v sb) := by
  unfold resetWrite
  try dsimp only
  repeat'
    with_reducible (first
      | assumption | exact List.Subset.trans (by decide) hp | apply Only.gite | apply Only.gdite | apply beginOp_parts
      | apply endOp_parts | apply refuseRule_parts | apply clamped_parts | apply requestReset_parts | (intro _) | split)

theorem ledgerFaultLimit_parts {pl : List Part} {sa sb : State}
    (hp : [.time, .ports, .sw, .routes, .bep, .ep, .grotto, .cal, .cmp, .coll, .xlat, .mem, .dict, .host, .can, .sec, .log, .lantern, .muster, .pwr, .resets, .sent] ⊆ pl)
    (hk : Only pl sa sb) :
    Only pl sa (ledgerFaultLimit sb) := by
  unfold ledgerFaultLimit
  try dsimp only
  repeat'
    with_reducible (first
      | assumption | exact List.Subset.trans (by decide) hp | apply Only.gite | apply Only.gdite | apply requestReset_parts
      | (intro _) | split)

end Sys2Proof.Machine
end

