-- ==== Sys2Proof/Laws/OnlyScrub.lean ====
section
/-! SUPPORT. What the operations of Machine/Scrub.lean may change. -/

namespace Sys2Proof.Machine

open Sys2Proof

set_option linter.unusedTactic false
set_option linter.unreachableTactic false

theorem cacheLoss_parts {pl : List Part} {sa sb : State} (core : Nat) (line : Nat)
    (hp : [.cmp, .dict, .host, .can, .log, .pwr, .sent] ⊆ pl) (hk : Only pl sa sb) :
    Only pl sa (cacheLoss core line sb) := by
  unfold cacheLoss
  try dsimp only
  repeat'
    with_reducible (first
      | assumption | exact List.Subset.trans (by decide) hp | apply Only.gite | apply Only.gdite | apply dropCache_parts
      | apply ctxFault_parts | apply Only.foldl | apply Only.foldl_snd | apply Only.foldl_fst | (intro _) | split)

theorem replyLoss_parts {pl : List Part} {sa sb : State} (index : Nat) (hp : [.ports, .sw] ⊆ pl) (hk : Only pl sa sb) :
    Only pl sa (replyLoss index sb) := by
  unfold replyLoss
  try dsimp only
  repeat'
    with_reducible (first
      | assumption | exact List.Subset.trans (by decide) hp | apply Only.gite | apply Only.gdite | apply freeBuf_parts
      | (intro _) | split | refine Only.sw_upd (partMem hp (by decide)) ?_)

theorem slotLoss_parts {pl : List Part} {sa sb : State} (input : Nat) (sbuf : Nat) (hp : [.cal, .dict] ⊆ pl)
    (hk : Only pl sa sb) :
    Only pl sa (slotLoss input sbuf sb) := by
  unfold slotLoss
  try dsimp only
  repeat'
    with_reducible (first
      | assumption | exact List.Subset.trans (by decide) hp | apply Only.gite | apply Only.gdite | apply bump_parts
      | apply setSbuf_parts | (intro _) | split)

theorem descriptorLoss_parts {pl : List Part} {sa sb : State} (stall : Nat) (index : Nat)
    (hp : [.sw, .dict, .host, .can, .log, .pwr, .sent, .free] ⊆ pl) (hk : Only pl sa sb) :
    Only pl sa (descriptorLoss stall index sb) := by
  unfold descriptorLoss
  try dsimp only
  repeat'
    with_reducible (first
      | assumption | exact List.Subset.trans (by decide) hp | apply Only.gite | apply Only.gdite | apply setBuf_parts
      | apply drawn_parts | apply ledgerFault_parts | (intro _) | split)

theorem calendarLoss_parts {pl : List Part} {sa sb : State} (o : Nat) (off : Nat) (hp : [.cal, .dict] ⊆ pl)
    (hk : Only pl sa sb) :
    Only pl sa (calendarLoss o off sb) := by
  unfold calendarLoss
  try dsimp only
  repeat'
    with_reducible (first
      | assumption | exact List.Subset.trans (by decide) hp | apply Only.gite | apply Only.gdite | apply modBankCal_parts
      | apply releaseRef_parts | (intro _) | split)

theorem routeLoss_parts {pl : List Part} {sa sb : State} (table : Nat) (i : Nat) (hp : [.routes] ⊆ pl)
    (hk : Only pl sa sb) :
    Only pl sa (routeLoss table i sb) := by
  unfold routeLoss
  try dsimp only
  repeat'
    with_reducible (first
      | assumption | exact List.Subset.trans (by decide) hp | apply Only.gite | apply Only.gdite | apply modBank_parts
      | (intro _) | split)

theorem sramLoss_parts {pl : List Part} {sa sb : State} (x : SramStructure)
    (hp : [.time, .ports, .sw, .routes, .bep, .ep, .grotto, .cal, .cmp, .xlat, .mem, .dict, .host, .can, .log, .lantern, .muster, .pwr, .sent, .free] ⊆ pl)
    (hk : Only pl sa sb) :
    Only pl sa (sramLoss x sb) := by
  unfold sramLoss
  try dsimp only
  repeat'
    with_reducible (first
      | assumption | exact List.Subset.trans (by decide) hp | apply Only.gite | apply Only.gdite | apply slotLoss_parts
      | apply dropBad_parts | apply replyLoss_parts | apply descriptorLoss_parts | apply modPort_parts
      | apply discardReplay_parts | apply toLock_parts | apply holdTimeout_parts | apply pumpWork_parts
      | apply repairBlock_parts | apply modXlat_parts | apply cacheLoss_parts | apply ctxFault_parts | apply routeLoss_parts
      | apply calendarLoss_parts | apply setMode_parts | (intro _) | split | refine Only.sw_upd (partMem hp (by decide)) ?_
      | refine Only.bep_upd (partMem hp (by decide)) ?_ | refine Only.muster_upd (partMem hp (by decide)) ?_)

theorem takeFinding_parts {pl : List Part} {sa sb : State} (f : SramFinding)
    (hp : [.time, .ports, .sw, .routes, .bep, .ep, .grotto, .cal, .cmp, .xlat, .mem, .dict, .host, .can, .log, .lantern, .muster, .pwr, .sent, .free] ⊆ pl)
    (hk : Only pl sa sb) :
    Only pl sa (takeFinding f sb) := by
  unfold takeFinding
  try dsimp only
  repeat'
    with_reducible (first
      | assumption | exact List.Subset.trans (by decide) hp | apply Only.gite | apply Only.gdite | apply sramLoss_parts
      | apply log_parts | apply bump_parts | (intro _) | split)

theorem takeFindings_parts {pl : List Part} {sa sb : State} (f : SramStructure → Bool) (l : List SramFinding)
    (hp : [.time, .ports, .sw, .routes, .bep, .ep, .grotto, .cal, .cmp, .xlat, .mem, .dict, .host, .can, .log, .lantern, .muster, .pwr, .sent, .free] ⊆ pl)
    (hk : Only pl sa sb) :
    Only pl sa (takeFindings f l sb) := by
  unfold takeFindings
  try dsimp only
  repeat'
    with_reducible (first
      | assumption | exact List.Subset.trans (by decide) hp | apply Only.gite | apply Only.gdite | apply takeFinding_parts
      | apply Only.foldl | apply Only.foldl_snd | apply Only.foldl_fst | (intro _) | split)

theorem stallScrub_parts {pl : List Part} {sa sb : State} (l : List SramFinding)
    (hp : [.time, .ports, .sw, .routes, .bep, .ep, .grotto, .cal, .cmp, .xlat, .mem, .dict, .host, .can, .log, .lantern, .muster, .pwr, .sent, .free] ⊆ pl)
    (hk : Only pl sa sb) :
    Only pl sa (stallScrub l sb) := by
  unfold stallScrub
  try dsimp only
  repeat'
    with_reducible (first
      | assumption | exact List.Subset.trans (by decide) hp | apply Only.gite | apply Only.gdite | apply takeFindings_parts
      | apply advanceTo_parts | (intro _) | split | refine Only.sw_upd (partMem hp (by decide)) ?_)

theorem structureScrub_parts {pl : List Part} {sa sb : State} (l : List SramFinding)
    (hp : [.time, .ports, .sw, .routes, .bep, .ep, .grotto, .cal, .cmp, .xlat, .mem, .dict, .host, .can, .log, .lantern, .muster, .pwr, .sent, .free] ⊆ pl)
    (hk : Only pl sa sb) :
    Only pl sa (structureScrub l sb) := by
  unfold structureScrub
  try dsimp only
  repeat'
    with_reducible (first
      | assumption | exact List.Subset.trans (by decide) hp | apply Only.gite | apply Only.gdite | apply takeFindings_parts
      | apply advanceTo_parts | (intro _) | split)

theorem eventAcknowledge_parts {pl : List Part} {sa sb : State} (v : Nat)
    (hp : [.dict, .host, .can, .log, .pwr, .sent] ⊆ pl) (hk : Only pl sa sb) :
    Only pl sa (eventAcknowledge v sb) := by
  unfold eventAcknowledge
  try dsimp only
  repeat'
    with_reducible (first
      | assumption | exact List.Subset.trans (by decide) hp | apply Only.gite | apply Only.gdite | apply lookAlert_parts
      | apply log_parts | (intro _) | split | refine Only.log_upd (partMem hp (by decide)) ?_)

end Sys2Proof.Machine
end

