-- ==== Sys2Proof/Laws/OnlyDict.lean ====
section
/-! SUPPORT. What the operations of Machine/Dict.lean may change. -/

namespace Sys2Proof.Machine

open Sys2Proof

set_option linter.unusedTactic false
set_option linter.unreachableTactic false

theorem modDict_parts {pl : List Part} {sa sb : State} (f : Dict → Dict) (hp : [.dict] ⊆ pl) (hk : Only pl sa sb) :
    Only pl sa (modDict f sb) := by
  unfold modDict
  try dsimp only
  repeat'
    with_reducible (first
      | assumption | exact List.Subset.trans (by decide) hp | apply Only.gite | apply Only.gdite | (intro _) | split
      | refine Only.dict_upd (partMem hp (by decide)) ?_)

theorem thresholdWrite_parts {pl : List Part} {sa sb : State} (src : Route) (sub : Nat) (v : Nat)
    (hp : [.dict, .host, .sent] ⊆ pl) (hk : Only pl sa sb) :
    Only pl sa (thresholdWrite src sub v sb) := by
  unfold thresholdWrite
  try dsimp only
  repeat'
    with_reducible (first
      | assumption | exact List.Subset.trans (by decide) hp | apply Only.gite | apply Only.gdite | apply keepTwo_parts
      | (intro _) | split)

theorem requestTimeoutWrite_parts {pl : List Part} {sa sb : State} (src : Route) (v : Nat)
    (hp : [.dict, .host, .sent] ⊆ pl) (hk : Only pl sa sb) :
    Only pl sa (requestTimeoutWrite src v sb) := by
  unfold requestTimeoutWrite
  try dsimp only
  repeat'
    with_reducible (first
      | assumption | exact List.Subset.trans (by decide) hp | apply Only.gite | apply Only.gdite | apply keepTwo_parts
      | (intro _) | split)

theorem exactPoolWrite_parts {pl : List Part} {sa sb : State} (src : Route) (v : Nat) (hp : [.dict, .host, .sent] ⊆ pl)
    (hk : Only pl sa sb) :
    Only pl sa (exactPoolWrite src v sb) := by
  unfold exactPoolWrite
  try dsimp only
  repeat'
    with_reducible (first
      | assumption | exact List.Subset.trans (by decide) hp | apply Only.gite | apply Only.gdite
      | apply refuseCondition_parts | apply keepScalar_parts | (intro _) | split)

theorem minWindowWrite_parts {pl : List Part} {sa sb : State} (src : Route) (v : Nat) (hp : [.dict, .host, .sent] ⊆ pl)
    (hk : Only pl sa sb) :
    Only pl sa (minWindowWrite src v sb) := by
  unfold minWindowWrite
  try dsimp only
  repeat'
    with_reducible (first
      | assumption | exact List.Subset.trans (by decide) hp | apply Only.gite | apply Only.gdite | apply keepTwo_parts
      | (intro _) | split)

theorem forwardTimeoutWrite_parts {pl : List Part} {sa sb : State} (src : Route) (v : Nat)
    (hp : [.dict, .host, .sent] ⊆ pl) (hk : Only pl sa sb) :
    Only pl sa (forwardTimeoutWrite src v sb) := by
  unfold forwardTimeoutWrite
  try dsimp only
  repeat'
    with_reducible (first
      | assumption | exact List.Subset.trans (by decide) hp | apply Only.gite | apply Only.gdite | apply keepTwo_parts
      | (intro _) | split)

theorem kernelPoolWrite_parts {pl : List Part} {sa sb : State} (src : Route) (v : Nat) (hp : [.dict, .host, .sent] ⊆ pl)
    (hk : Only pl sa sb) :
    Only pl sa (kernelPoolWrite src v sb) := by
  unfold kernelPoolWrite
  try dsimp only
  repeat'
    with_reducible (first
      | assumption | exact List.Subset.trans (by decide) hp | apply Only.gite | apply Only.gdite
      | apply refuseCondition_parts | apply keepTwo_parts | (intro _) | split)

theorem tenancyWrite_parts {pl : List Part} {sa sb : State} (src : Route) (core : Nat) (v : Nat)
    (hp : [.dict, .host, .sent] ⊆ pl) (hk : Only pl sa sb) :
    Only pl sa (tenancyWrite src core v sb) := by
  unfold tenancyWrite
  try dsimp only
  repeat'
    with_reducible (first
      | assumption | exact List.Subset.trans (by decide) hp | apply Only.gite | apply Only.gdite
      | apply refuseCondition_parts | apply keepScalar_parts | (intro _) | split)

theorem xlatSelectorWrite_parts {pl : List Part} {sa sb : State} (src : Route) (v : Nat) (hp : [.dict, .host, .sent] ⊆ pl)
    (hk : Only pl sa sb) :
    Only pl sa (xlatSelectorWrite src v sb) := by
  unfold xlatSelectorWrite
  try dsimp only
  repeat'
    with_reducible (first
      | assumption | exact List.Subset.trans (by decide) hp | apply Only.gite | apply Only.gdite | apply reportClamps_parts
      | apply odSet_parts | (intro _) | split)

theorem wayWrite_parts {pl : List Part} {sa sb : State} (src : Route) (t : Nat) (v : Nat)
    (hp : [.dict, .host, .sent] ⊆ pl) (hk : Only pl sa sb) :
    Only pl sa (wayWrite src t v sb) := by
  unfold wayWrite
  try dsimp only
  repeat'
    with_reducible (first
      | assumption | exact List.Subset.trans (by decide) hp | apply Only.gite | apply Only.gdite | apply refuseRule_parts
      | apply keepTwo_parts | apply keepScalar_parts | apply Only.foldl | apply Only.foldl_snd | apply Only.foldl_fst
      | (intro _) | split)

theorem coordinateWrite_parts {pl : List Part} {sa sb : State} (src : Route) (sub : Nat) (v : Nat) (limit : Nat)
    (hp : [.dict, .host, .sent] ⊆ pl) (hk : Only pl sa sb) :
    Only pl sa (coordinateWrite src sub v limit sb) := by
  unfold coordinateWrite
  try dsimp only
  repeat'
    with_reducible (first
      | assumption | exact List.Subset.trans (by decide) hp | apply Only.gite | apply Only.gdite
      | apply refuseCondition_parts | apply keepScalar_parts | (intro _) | split)

theorem eventTimeWrite_parts {pl : List Part} {sa sb : State} (src : Route) (sub : Nat) (v : Nat)
    (hp : [.dict, .host, .sent] ⊆ pl) (hk : Only pl sa sb) :
    Only pl sa (eventTimeWrite src sub v sb) := by
  unfold eventTimeWrite
  try dsimp only
  repeat'
    with_reducible (first
      | assumption | exact List.Subset.trans (by decide) hp | apply Only.gite | apply Only.gdite | apply keepScalar_parts
      | (intro _) | split)

theorem alertMaskWrite_parts {pl : List Part} {sa sb : State} (src : Route) (v : Nat)
    (hp : [.dict, .host, .can, .pwr, .sent] ⊆ pl) (hk : Only pl sa sb) :
    Only pl sa (alertMaskWrite src v sb) := by
  unfold alertMaskWrite
  try dsimp only
  repeat'
    with_reducible (first
      | assumption | exact List.Subset.trans (by decide) hp | apply Only.gite | apply Only.gdite | apply lookAlert_parts
      | apply reportClamps_parts | apply odSet_parts | (intro _) | split)

theorem readmitWrite_parts {pl : List Part} {sa sb : State} (b : Bytes) (hp : [.dict] ⊆ pl) (hk : Only pl sa sb) :
    Only pl sa (readmitWrite b sb) := by
  unfold readmitWrite
  try dsimp only
  repeat'
    with_reducible (first
      | assumption | exact List.Subset.trans (by decide) hp | apply Only.gite | apply Only.gdite | apply blobSet_parts
      | apply endOp_parts | (intro _) | split)

theorem musterArmWrite_parts {pl : List Part} {sa sb : State} (src : Route) (sub : Nat) (v : Nat)
    (hp : [.dict, .host, .sent] ⊆ pl) (hk : Only pl sa sb) :
    Only pl sa (musterArmWrite src sub v sb) := by
  unfold musterArmWrite
  try dsimp only
  repeat'
    with_reducible (first
      | assumption | exact List.Subset.trans (by decide) hp | apply Only.gite | apply Only.gdite | apply keepArm_parts
      | (intro _) | split)

theorem frozenWrite_parts {pl : List Part} {sa sb : State} (src : Route) (index : Nat) (sub : Nat) (v : Nat) (kept : Nat)
    (hp : [.dict, .host, .sent] ⊆ pl) (hk : Only pl sa sb) :
    Only pl sa (frozenWrite src index sub v kept sb) := by
  unfold frozenWrite
  try dsimp only
  repeat'
    with_reducible (first
      | assumption | exact List.Subset.trans (by decide) hp | apply Only.gite | apply Only.gdite | apply refuseRule_parts
      | apply keepScalar_parts | (intro _) | split)

theorem retrainWrite_parts {pl : List Part} {sa sb : State} (src : Route) (p : PortN) (v : Nat)
    (hp : [.ports, .dict, .host, .sent] ⊆ pl) (hk : Only pl sa sb) :
    Only pl sa (retrainWrite src p v sb) := by
  unfold retrainWrite
  try dsimp only
  repeat'
    with_reducible (first
      | assumption | exact List.Subset.trans (by decide) hp | apply Only.gite | apply Only.gdite | apply onlyOne_parts
      | apply toLock_parts | (intro _) | split)

theorem nodeIdWrite_parts {pl : List Part} {sa sb : State} (src : Route) (v : Nat) (hp : [.dict, .host, .can, .sent] ⊆ pl)
    (hk : Only pl sa sb) :
    Only pl sa (nodeIdWrite src v sb) := by
  unfold nodeIdWrite
  try dsimp only
  repeat'
    with_reducible (first
      | assumption | exact List.Subset.trans (by decide) hp | apply Only.gite | apply Only.gdite | apply keepScalar_parts
      | (intro _) | split | refine Only.can_upd (partMem hp (by decide)) ?_)

theorem bootUp_parts {pl : List Part} {sa sb : State} (hp : [.dict, .sent] ⊆ pl) (hk : Only pl sa sb) :
    Only pl sa (bootUp sb) := by
  unfold bootUp
  try dsimp only
  repeat'
    with_reducible (first
      | assumption | exact List.Subset.trans (by decide) hp | apply Only.gite | apply Only.gdite | apply emit_parts
      | apply bump_parts | (intro _) | split)

theorem afterResponse_parts {pl : List Part} {sa sb : State} (hp : [.dict, .can, .sent] ⊆ pl) (hk : Only pl sa sb) :
    Only pl sa (afterResponse sb) := by
  unfold afterResponse
  try dsimp only
  repeat'
    with_reducible (first
      | assumption | exact List.Subset.trans (by decide) hp | apply Only.gite | apply Only.gdite | apply bootUp_parts
      | (intro _) | split | refine Only.can_upd (partMem hp (by decide)) ?_)

theorem clampDiscard_parts {pl : List Part} {sa sb : State} (v : Nat) (hp : [.dict] ⊆ pl) (hk : Only pl sa sb) :
    Only pl sa (clampDiscard v sb) := by
  unfold clampDiscard
  try dsimp only
  repeat'
    with_reducible (first
      | assumption | exact List.Subset.trans (by decide) hp | apply Only.gite | apply Only.gdite | apply modDict_parts
      | (intro _) | split)

theorem snapshotSetWrite_parts {pl : List Part} {sa sb : State} (src : Route) (b : Bytes)
    (hp : [.dict, .host, .sent] ⊆ pl) (hk : Only pl sa sb) :
    Only pl sa (snapshotSetWrite src b sb) := by
  unfold snapshotSetWrite
  try dsimp only
  repeat'
    with_reducible (first
      | assumption | exact List.Subset.trans (by decide) hp | apply Only.gite | apply Only.gdite | apply endOp_parts
      | apply clamped_parts | apply blobSet_parts | apply Only.foldl | apply Only.foldl_snd | apply Only.foldl_fst
      | (intro _) | split)

theorem armSnapshot_parts {pl : List Part} {sa sb : State} (hp : [.dict] ⊆ pl) (hk : Only pl sa sb) :
    Only pl sa (armSnapshot sb) := by
  unfold armSnapshot
  try dsimp only
  repeat'
    with_reducible (first
      | assumption | exact List.Subset.trans (by decide) hp | apply Only.gite | apply Only.gdite | apply modDict_parts
      | (intro _) | split)

theorem snapshotTrigger_parts {pl : List Part} {sa sb : State} (src : Route) (v : Nat) (hp : [.dict, .host, .sent] ⊆ pl)
    (hk : Only pl sa sb) :
    Only pl sa (snapshotTrigger src v sb) := by
  unfold snapshotTrigger
  try dsimp only
  repeat'
    with_reducible (first
      | assumption | exact List.Subset.trans (by decide) hp | apply Only.gite | apply Only.gdite | apply armSnapshot_parts
      | apply onlyOne_parts | (intro _) | split)

theorem telemetryCapture_parts {pl : List Part} {sa sb : State} (hp : [.time, .dict, .can] ⊆ pl) (hk : Only pl sa sb) :
    Only pl sa (telemetryCapture sb) := by
  unfold telemetryCapture
  try dsimp only
  repeat'
    with_reducible (first
      | assumption | exact List.Subset.trans (by decide) hp | apply Only.gite | apply Only.gdite | apply advanceTo_parts
      | apply modDict_parts | (intro _) | split | refine Only.can_upd (partMem hp (by decide)) ?_)

theorem snapshotReady_parts {pl : List Part} {sa sb : State} (hp : [.dict] ⊆ pl) (hk : Only pl sa sb) :
    Only pl sa (snapshotReady sb) := by
  unfold snapshotReady
  try dsimp only
  repeat'
    with_reducible (first
      | assumption | exact List.Subset.trans (by decide) hp | apply Only.gite | apply Only.gdite | apply modDict_parts
      | (intro _) | split)

theorem storeResult_parts {pl : List Part} {sa sb : State} (r : Nat) (hp : [.dict] ⊆ pl) (hk : Only pl sa sb) :
    Only pl sa (storeResult r sb) := by
  unfold storeResult
  try dsimp only
  repeat'
    with_reducible (first
      | assumption | exact List.Subset.trans (by decide) hp | apply Only.gite | apply Only.gdite | apply modDict_parts
      | (intro _) | split)

theorem dictionaryStore_parts {pl : List Part} {sa sb : State} (src : Route) (v : Nat) (verified : Bool)
    (hp : [.dict, .host, .sent] ⊆ pl) (hk : Only pl sa sb) :
    Only pl sa (dictionaryStore src v verified sb) := by
  unfold dictionaryStore
  try dsimp only
  repeat'
    with_reducible (first
      | assumption | exact List.Subset.trans (by decide) hp | apply Only.gite | apply Only.gdite | apply storeResult_parts
      | apply refuseRule_parts | apply onlyOne_parts | apply modDict_parts | (intro _) | split)

theorem eraseImages_parts {pl : List Part} {sa sb : State} (hp : [.dict] ⊆ pl) (hk : Only pl sa sb) :
    Only pl sa (eraseImages sb) := by
  unfold eraseImages
  try dsimp only
  repeat'
    with_reducible (first
      | assumption | exact List.Subset.trans (by decide) hp | apply Only.gite | apply Only.gdite | apply storeResult_parts
      | apply modDict_parts | (intro _) | split)

theorem writePort_parts {pl : List Part} {sa sb : State} (src : Route) (p : PortN) (k : Nat) (sub : Nat) (v : Nat)
    (hp : [.ports, .sw, .bep, .ep, .grotto, .coll, .mem, .dict, .host, .can, .log, .lantern, .muster, .pwr, .sent] ⊆ pl)
    (hk : Only pl sa sb) :
    Only pl sa (writePort src p k sub v sb) := by
  unfold writePort
  try dsimp only
  repeat'
    with_reducible (first
      | assumption | exact List.Subset.trans (by decide) hp | apply Only.gite | apply Only.gdite | apply roleWrite_parts
      | apply mediumWrite_parts | apply alignmentDone_parts | apply retrainWrite_parts | apply bitSlip_parts | (intro _)
      | split)

theorem writeManagement_parts {pl : List Part} {sa sb : State} (src : Route) (index : Nat) (sub : Nat) (v : Nat)
    (data : Bytes) (hp : [.dict, .host, .can, .log, .pwr, .sent] ⊆ pl) (hk : Only pl sa sb) :
    Only pl sa (writeManagement src index sub v data sb) := by
  unfold writeManagement
  try dsimp only
  repeat'
    with_reducible (first
      | assumption | exact List.Subset.trans (by decide) hp | apply Only.gite | apply Only.gdite | apply nodeIdWrite_parts
      | apply eventTimeWrite_parts | apply clampDiscard_parts | apply eventAcknowledge_parts | apply snapshotSetWrite_parts
      | apply snapshotTrigger_parts | (intro _) | split)

theorem writeTopology_parts {pl : List Part} {sa sb : State} (src : Route) (index : Nat) (sub : Nat) (v : Nat)
    (hp : [.ports, .sw, .routes, .bep, .ep, .grotto, .cmp, .xlat, .mem, .dict, .host, .can, .log, .lantern, .pwr, .sent] ⊆ pl)
    (hk : Only pl sa sb) :
    Only pl sa (writeTopology src index sub v sb) := by
  unfold writeTopology
  try dsimp only
  repeat'
    with_reducible (first
      | assumption | exact List.Subset.trans (by decide) hp | apply Only.gite | apply Only.gdite
      | apply coordinateWrite_parts | apply coordinateCommit_parts | apply routeArmWrite_parts | apply saltWrite_parts
      | apply ngroupsWrite_parts | apply routeBankCopy_parts | apply routeEntryWrite_parts | apply thresholdWrite_parts
      | apply tenantShareWrite_parts | apply requestTimeoutWrite_parts | apply exactPoolWrite_parts
      | apply exactRegionWrite_parts | apply minWindowWrite_parts | apply directoryWrite_parts | apply recallWrite_parts
      | apply forwardTimeoutWrite_parts | apply windowEntryWrite_parts | apply creditWrite_parts | (intro _) | split)

theorem writeTime_parts {pl : List Part} {sa sb : State} (src : Route) (index : Nat) (sub : Nat) (v : Nat) (data : Bytes)
    (hp : [.time, .bep, .ep, .cal, .dict, .host, .sent] ⊆ pl) (hk : Only pl sa sb) :
    Only pl sa (writeTime src index sub v data sb) := by
  unfold writeTime
  try dsimp only
  repeat'
    with_reducible (first
      | assumption | exact List.Subset.trans (by decide) hp | apply Only.gite | apply Only.gdite | apply timeRoleWrite_parts
      | apply timeSourceWrite_parts | apply roundLengthWrite_parts | apply roundArmWrite_parts | apply isolationWrite_parts
      | apply calendarArm_parts | apply calendarBegin_parts | apply calendarData_parts | apply calendarSeal_parts
      | apply selectorWrite_parts | (intro _) | split)

theorem writeCompute_parts {pl : List Part} {sa sb : State} (src : Route) (index : Nat) (sub : Nat) (v : Nat)
    (data : Bytes) (hp : [.bep, .ep, .grotto, .cmp, .coll, .xlat, .mem, .dict, .host, .can, .log, .pwr, .sent] ⊆ pl)
    (hk : Only pl sa sb) :
    Only pl sa (writeCompute src index sub v data sb) := by
  unfold writeCompute
  try dsimp only
  repeat'
    with_reducible (first
      | assumption | exact List.Subset.trans (by decide) hp | apply Only.gite | apply Only.gdite
      | apply kernelPoolWrite_parts | apply tenancyWrite_parts | apply kernelLoad_parts | apply kernelUnload_parts
      | apply reservationWrite_parts | apply gridShapeWrite_parts | apply gridMapWrite_parts | apply descriptorWrite_parts
      | apply windowWrite_parts | apply recordWrite_parts | apply shardWrite_parts | apply invalidateAll_parts
      | apply xlatSelectorWrite_parts | (intro _) | split)

theorem writeSecurity_parts {pl : List Part} {sa sb : State} (src : Route) (index : Nat) (sub : Nat) (v : Nat)
    (data : Bytes)
    (hp : [.time, .ports, .sw, .routes, .bep, .ep, .grotto, .cal, .cmp, .coll, .xlat, .mem, .dict, .host, .can, .sec, .log, .lantern, .muster, .pwr, .resets, .sent] ⊆ pl)
    (hk : Only pl sa sb) :
    Only pl sa (writeSecurity src index sub v data sb) := by
  unfold writeSecurity
  try dsimp only
  repeat'
    with_reducible (first
      | assumption | exact List.Subset.trans (by decide) hp | apply Only.gite | apply Only.gdite | apply securityWrite_parts
      | apply bundleBind_parts | apply firmwareSegment_parts | apply wayWrite_parts | apply resetWrite_parts
      | apply readmitWrite_parts | apply musterArmWrite_parts | apply alertMaskWrite_parts | (intro _) | split)

theorem writeEntry_parts {pl : List Part} {sa sb : State} (src : Route) (e : Entry) (index : Nat) (sub : Nat)
    (data : Bytes)
    (hp : [.time, .ports, .sw, .routes, .bep, .ep, .grotto, .cal, .cmp, .coll, .xlat, .mem, .dict, .host, .can, .sec, .log, .lantern, .muster, .pwr, .resets, .sent] ⊆ pl)
    (hk : Only pl sa sb) :
    Only pl sa (writeEntry src e index sub data sb) := by
  unfold writeEntry
  try dsimp only
  repeat'
    with_reducible (first
      | assumption | exact List.Subset.trans (by decide) hp | apply Only.gite | apply Only.gdite
      | apply writeManagement_parts | apply writePort_parts | apply writeTopology_parts | apply writeTime_parts
      | apply writeCompute_parts | apply writeSecurity_parts | apply frozenWrite_parts | apply keepScalar_parts
      | apply blobSet_parts | (intro _) | split)

theorem writeOne_parts {pl : List Part} {sa sb : State} (src : Route) (index : Nat) (sub : Nat) (data : Bytes)
    (hp : [.time, .ports, .sw, .routes, .bep, .ep, .grotto, .cal, .cmp, .coll, .xlat, .mem, .dict, .host, .can, .sec, .log, .lantern, .muster, .pwr, .resets, .sent] ⊆ pl)
    (hk : Only pl sa sb) :
    Only pl sa (writeOne src index sub data sb) := by
  unfold writeOne
  try dsimp only
  repeat'
    with_reducible (first
      | assumption | exact List.Subset.trans (by decide) hp | apply Only.gite | apply Only.gdite | apply endOp_parts
      | apply beginOp_parts | apply writeEntry_parts | (intro _) | split)

theorem skipRecord_parts {pl : List Part} {sa sb : State} (key : Nat) (kind : Nat) (value : Bytes)
    (hp : [.dict, .host, .sent] ⊆ pl) (hk : Only pl sa sb) :
    Only pl sa (skipRecord key kind value sb) := by
  unfold skipRecord
  try dsimp only
  repeat'
    with_reducible (first
      | assumption | exact List.Subset.trans (by decide) hp | apply Only.gite | apply Only.gdite | apply report_parts
      | (intro _) | split)

theorem applyRecord_parts {pl : List Part} {sa sb : State} (allowed : Bool) (r : ImageRec)
    (hp : [.time, .ports, .sw, .routes, .bep, .ep, .grotto, .cal, .cmp, .coll, .xlat, .mem, .dict, .host, .can, .sec, .log, .lantern, .muster, .pwr, .resets, .sent] ⊆ pl)
    (hk : Only pl sa sb) :
    Only pl sa (applyRecord allowed sb r) := by
  unfold applyRecord
  try dsimp only
  repeat'
    with_reducible (first
      | assumption | exact List.Subset.trans (by decide) hp | apply Only.gite | apply Only.gdite | apply skipRecord_parts
      | apply writeOne_parts | (intro _) | split)

theorem applyRecords_parts {pl : List Part} {sa sb : State} (allowed : Bool) (l : List ImageRec)
    (hp : [.time, .ports, .sw, .routes, .bep, .ep, .grotto, .cal, .cmp, .coll, .xlat, .mem, .dict, .host, .can, .sec, .log, .lantern, .muster, .pwr, .resets, .sent] ⊆ pl)
    (hk : Only pl sa sb) :
    Only pl sa (applyRecords allowed l sb) := by
  unfold applyRecords
  try dsimp only
  repeat'
    with_reducible (first
      | assumption | exact List.Subset.trans (by decide) hp | apply Only.gite | apply Only.gdite | apply applyRecord_parts
      | apply modDict_parts | apply Only.foldl | apply Only.foldl_snd | apply Only.foldl_fst | (intro _) | split)

theorem clearRecord_parts {pl : List Part} {sa sb : State} (allowed : Bool) (r : ImageRec)
    (hp : [.time, .ports, .sw, .routes, .bep, .ep, .grotto, .cal, .cmp, .coll, .xlat, .mem, .dict, .host, .can, .sec, .log, .lantern, .muster, .pwr, .resets, .sent] ⊆ pl)
    (hk : Only pl sa sb) :
    Only pl sa (clearRecord allowed sb r) := by
  unfold clearRecord
  try dsimp only
  repeat'
    with_reducible (first
      | assumption | exact List.Subset.trans (by decide) hp | apply Only.gite | apply Only.gdite | apply skipRecord_parts
      | apply setShard_parts | apply applyRecord_parts | (intro _) | split)

theorem applyDefaults_parts {pl : List Part} {sa sb : State} (allowed : Bool)
    (hp : [.time, .ports, .sw, .routes, .bep, .ep, .grotto, .cal, .cmp, .coll, .xlat, .mem, .dict, .host, .can, .sec, .log, .lantern, .muster, .pwr, .resets, .sent] ⊆ pl)
    (hk : Only pl sa sb) :
    Only pl sa (applyDefaults allowed sb) := by
  unfold applyDefaults
  try dsimp only
  repeat'
    with_reducible (first
      | assumption | exact List.Subset.trans (by decide) hp | apply Only.gite | apply Only.gdite | apply clearRecord_parts
      | apply applyRecord_parts | apply modDict_parts | apply Only.foldl | apply Only.foldl_snd | apply Only.foldl_fst
      | (intro _) | split)

theorem storeAction_parts {pl : List Part} {sa sb : State} (src : Route) (v : Nat)
    (hp : [.time, .ports, .sw, .routes, .bep, .ep, .grotto, .cal, .cmp, .coll, .xlat, .mem, .dict, .host, .can, .sec, .log, .lantern, .muster, .pwr, .resets, .sent] ⊆ pl)
    (hk : Only pl sa sb) :
    Only pl sa (storeAction src v sb) := by
  unfold storeAction
  try dsimp only
  repeat'
    with_reducible (first
      | assumption | exact List.Subset.trans (by decide) hp | apply Only.gite | apply Only.gdite | apply storeResult_parts
      | apply refuseRule_parts | apply clamped_parts | apply applyRecords_parts | apply applyDefaults_parts
      | apply eraseImages_parts | apply modDict_parts | (intro _) | split)

theorem dictWrite_parts {pl : List Part} {sa sb : State} (src : Route) (index : Nat) (sub : Nat) (data : Bytes)
    (hp : [.time, .ports, .sw, .routes, .bep, .ep, .grotto, .cal, .cmp, .coll, .xlat, .mem, .dict, .host, .can, .sec, .log, .lantern, .muster, .pwr, .resets, .sent] ⊆ pl)
    (hk : Only pl sa sb) :
    Only pl sa (dictWrite src index sub data sb) := by
  unfold dictWrite
  try dsimp only
  repeat'
    with_reducible (first
      | assumption | exact List.Subset.trans (by decide) hp | apply Only.gite | apply Only.gdite | apply endOp_parts
      | apply beginOp_parts | apply dictionaryStore_parts | apply storeAction_parts | apply writeOne_parts | (intro _)
      | split)

end Sys2Proof.Machine
end

