-- ==== Sys2Proof/Laws/Frames.lean ====
section
/-!
SUPPORT. Frames of the shared operations: which parts of the state an entry, an output, a host cause or an event may change.
-/

namespace Sys2Proof.Machine

open Sys2Proof

theorem Part.same_trans {s t u : State} {p : Part} (h : p.same s t) (g : p.same t u) : p.same s u := by
  cases p <;> exact Eq.trans g h

theorem Only.trans {l : List Part} {s t u : State} (h : Only l s t) (g : Only l t u) : Only l s u :=
  fun p hp => Part.same_trans (h p hp) (g p hp)

theorem Only.mono {l m : List Part} {s t : State} (h : Only l s t) (g : ∀ p ∈ l, p ∈ m) : Only m s t :=
  fun p hp => h p (fun x => hp (g p x))

theorem Only.ite {l : List Part} {s a b : State} {c : Prop} [Decidable c] (h : Only l s a) (g : Only l s b) :
    Only l s (if c then a else b) := by
  split
  · exact h
  · exact g

/-! ### The shared operations, from the state they start in -/

theorem odSet_only (index sub v : Nat) (s : State) : Only [.dict] s (odSet index sub v s) := odSet_parts _ _ _ (List.Subset.refl _) (Only.refl _ _)

theorem bump_only (index sub : Nat) (s : State) : Only [.dict] s (bump index sub s) := bump_parts _ _ (List.Subset.refl _) (Only.refl _ _)

theorem raiseCause_only (n : Fin 64) (s : State) : Only [.host, .sent] s (raiseCause n s) :=
  raiseCause_parts _ (List.Subset.refl _) (Only.refl _ _)

theorem event_only (code tenant : Nat) (detail : List Nat) (s : State) : Only logged s (event code tenant detail s) :=
  event_parts _ _ _ (by decide) (Only.refl _ _)

theorem logEvent_only (code : Nat) (detail : List Nat) (s : State) : Only logged s (log code detail s) := event_only _ _ _ _

/-! ### Values of entries -/

theorem OnlyEntries.refl (l : List (Nat × Nat)) (s : State) : OnlyEntries l s s := fun _ _ _ _ => rfl

theorem OnlyEntries.trans {l : List (Nat × Nat)} {s t u : State} (h : OnlyEntries l s t) (g : OnlyEntries l t u) :
    OnlyEntries l s u := fun i j hj hn => (g i j hj hn).trans (h i j hj hn)

theorem OnlyEntries.mono {l m : List (Nat × Nat)} {s t : State} (h : OnlyEntries l s t) (g : ∀ x ∈ l, x ∈ m) : OnlyEntries m s t :=
  fun i j hj hn => h i j hj (fun x => hn (g _ x))

/-- A change that leaves the store of entries leaves every entry. -/
theorem OnlyEntries.of_od {s t : State} (h : t.dict.od = s.dict.od) : OnlyEntries [] s t := fun i j _ _ => odGet_congr h i j

theorem Only.entries {l : List Part} {s t : State} (h : Only l s t) (g : Part.dict ∉ l) : OnlyEntries [] s t :=
  OnlyEntries.of_od (congrArg Dict.od (h .dict g))

theorem odSet_entries (index sub v : Nat) (s : State) (h : sub < 256) : OnlyEntries [(index, sub)] s (odSet index sub v s) := by
  intro i j hj hn
  apply odGet_odSet_ne
  rw [Ne, odKey_inj hj h]
  rintro ⟨rfl, rfl⟩
  simp at hn

theorem bump_entries (index sub : Nat) (s : State) (h : sub < 256) : OnlyEntries [(index, sub)] s (bump index sub s) :=
  odSet_entries _ _ _ _ h

theorem raiseCause_entries (n : Fin 64) (s : State) : OnlyEntries [] s (raiseCause n s) := (raiseCause_only n s).entries (by decide)

theorem report_only (src : Route) (index sub place kind original kept : Nat) (s : State) :
    Only [.dict, .host, .sent] s (report src index sub place kind original kept s) :=
  report_parts _ _ _ _ _ _ _ (List.Subset.refl _) (Only.refl _ _)

theorem report_entries (src : Route) (index sub place kind original kept : Nat) (s : State) :
    OnlyEntries [(0x1F00, 3)] s (report src index sub place kind original kept s) := by
  unfold report
  dsimp only
  refine OnlyEntries.trans ?_ ((raiseCause_entries _ _).mono (by simp))
  split
  · exact (bump_entries 0x1F00 3 s (by decide)).trans ((OnlyEntries.of_od rfl).mono (by simp))
  · exact (OnlyEntries.of_od rfl).mono (by simp)

theorem clamped_only (src : Route) (index sub place original kept : Nat) (s : State) :
    Only [.dict, .host, .sent] s (clamped src index sub place original kept s) :=
  clamped_parts _ _ _ _ _ _ (List.Subset.refl _) (Only.refl _ _)

theorem clamped_entries (src : Route) (index sub place original kept : Nat) (s : State) :
    OnlyEntries [(0x1F00, 3)] s (clamped src index sub place original kept s) := by
  unfold clamped
  exact (report_entries src index sub place 1 original kept s).trans ((OnlyEntries.of_od rfl).mono (by simp))

theorem odGet_clamped (src : Route) (index sub place original kept i j : Nat) (s : State) (hj : j < 256) (h : ¬(i = 0x1F00 ∧ j = 3)) :
    odGet (clamped src index sub place original kept s) i j = odGet s i j :=
  clamped_entries src index sub place original kept s i j hj (by simpa using h)

theorem odGet_keepScalar (src : Route) (i j w v kept : Nat) (s : State) (hj : j < 256) (h : ¬(i = 0x1F00 ∧ j = 3)) :
    odGet (keepScalar src i j w v kept s) i j = kept := by
  unfold keepScalar
  split
  · simp
  · rw [odGet_clamped _ _ _ _ _ _ _ _ _ hj h]
    simp

theorem keepScalar_entries (src : Route) (i j w v kept : Nat) (s : State) (hj : j < 256) :
    OnlyEntries [(i, j), (0x1F00, 3)] s (keepScalar src i j w v kept s) := by
  unfold keepScalar
  have h := (odSet_entries i j kept s hj).mono (m := [(i, j), (0x1F00, 3)]) (by simp)
  split
  · exact h
  · exact h.trans ((clamped_entries _ _ _ _ _ _ _).mono (by simp))

theorem keepScalar_only (src : Route) (i j w v kept : Nat) (s : State) :
    Only [.dict, .host, .sent] s (keepScalar src i j w v kept s) :=
  keepScalar_parts _ _ _ _ _ _ (List.Subset.refl _) (Only.refl _ _)

theorem odGet_keepTwo (src : Route) (i j w v a b : Nat) (s : State) (hj : j < 256) (h : ¬(i = 0x1F00 ∧ j = 3)) :
    odGet (keepTwo src i j w v a b s) i j = b := by
  unfold keepTwo
  dsimp only
  split <;> split <;> simp [odGet_clamped _ _ _ _ _ _ _ _ _ hj h]

theorem keepTwo_entries (src : Route) (i j w v a b : Nat) (s : State) (hj : j < 256) :
    OnlyEntries [(i, j), (0x1F00, 3)] s (keepTwo src i j w v a b s) := by
  unfold keepTwo
  have h := (odSet_entries i j b s hj).mono (m := [(i, j), (0x1F00, 3)]) (by simp)
  have c (x y z : Nat) (u : State) : OnlyEntries [(i, j), (0x1F00, 3)] u (clamped src i j x y z u) :=
    (clamped_entries _ _ _ _ _ _ _).mono (by simp)
  dsimp only
  split <;> split
  · exact h
  · exact h.trans (c _ _ _ _)
  · exact h.trans (c _ _ _ _)
  · exact (h.trans (c _ _ _ _)).trans (c _ _ _ _)

theorem keepTwo_only (src : Route) (i j w v a b : Nat) (s : State) : Only [.dict, .host, .sent] s (keepTwo src i j w v a b s) :=
  keepTwo_parts _ _ _ _ _ _ _ (List.Subset.refl _) (Only.refl _ _)

theorem onlyOne_only (src : Route) (i j v : Nat) (s : State) : Only [.dict, .host, .sent] s (onlyOne src i j v s) :=
  onlyOne_parts _ _ _ _ (List.Subset.refl _) (Only.refl _ _)

theorem onlyOne_entries (src : Route) (i j v : Nat) (s : State) : OnlyEntries [(0x1F00, 3)] s (onlyOne src i j v s) := by
  unfold onlyOne
  split
  · exact OnlyEntries.refl _ _
  · exact clamped_entries _ _ _ _ _ _ _

theorem keepArm_only (src : Route) (i j v kept : Nat) (s : State) : Only [.dict, .host, .sent] s (keepArm src i j v kept s) :=
  keepArm_parts _ _ _ _ _ (List.Subset.refl _) (Only.refl _ _)

theorem odGet_keepArm (src : Route) (i j v kept : Nat) (s : State) (hj : j < 256) (h : ¬(i = 0x1F00 ∧ j = 3)) :
    odGet (keepArm src i j v kept s) i j = kept := by
  unfold keepArm
  split
  · simp
  · rw [odGet_clamped _ _ _ _ _ _ _ _ _ hj h]
    simp

theorem beginOp_only (s : State) : Only [.dict] s (beginOp s) :=
  beginOp_parts (List.Subset.refl _) (Only.refl _ _)

theorem beginOp_entries (s : State) : OnlyEntries [] s (beginOp s) := OnlyEntries.of_od rfl

end Sys2Proof.Machine
end

