-- ==== Sys2Proof/Laws/OnlyAnswers.lean ====
section
/-! SUPPORT. What the operations of Machine/Answers.lean may change. -/

namespace Sys2Proof.Machine

open Sys2Proof

set_option linter.unusedTactic false
set_option linter.unreachableTactic false

theorem okUse_parts {pl : List Part} {sa sb : State} (use : Use) (cmd : BepCommand) (scope : Bool) (data : Bytes)
    (hp : [.sw, .bep, .ep, .grotto, .cmp, .mem, .dict, .host, .can, .log, .lantern, .pwr, .sent] ⊆ pl)
    (hk : Only pl sa sb) :
    Only pl sa (okUse use cmd scope data sb) := by
  unfold okUse
  try dsimp only
  repeat'
    with_reducible (first
      | assumption | exact List.Subset.trans (by decide) hp | apply Only.gite | apply Only.gdite | apply emit_parts
      | apply report_parts | apply modStream_parts | apply installLine_parts | apply ctxScope_parts | apply modCopy_parts
      | apply pollAnswer_parts | apply modCtx_parts | apply writeBackDone_parts | apply fence_parts | (intro _) | split)

theorem endOk_parts {pl : List Part} {sa sb : State} (tag : Nat) (r : Req) (scope : Bool) (data : Bytes)
    (hp : [.sw, .bep, .ep, .grotto, .cmp, .mem, .dict, .host, .can, .log, .lantern, .pwr, .sent] ⊆ pl)
    (hk : Only pl sa sb) :
    Only pl sa (endOk tag r scope data sb) := by
  unfold endOk
  try dsimp only
  repeat'
    with_reducible (first
      | assumption | exact List.Subset.trans (by decide) hp | apply Only.gite | apply Only.gdite | apply fenceEnd_parts
      | apply dropReq_parts | apply fence_parts | apply resendRefused_parts | apply okUse_parts | (intro _) | split
      | refine Only.ep_upd (partMem hp (by decide)) ?_)

theorem uncount_parts {pl : List Part} {sa sb : State} (r : Req) (code : Nat) (hp : [.ep] ⊆ pl) (hk : Only pl sa sb) :
    Only pl sa (uncount r code sb) := by
  unfold uncount
  try dsimp only
  repeat'
    with_reducible (first
      | assumption | exact List.Subset.trans (by decide) hp | apply Only.gite | apply Only.gdite | apply setCount_parts
      | (intro _) | split)

theorem takeAnswer_parts {pl : List Part} {sa sb : State} (t : Nat) (r : Req) (c : Cell)
    (hp : [.sw, .bep, .ep, .grotto, .cmp, .mem, .dict, .host, .can, .log, .lantern, .pwr, .sent] ⊆ pl)
    (hk : Only pl sa sb) :
    Only pl sa (takeAnswer t r c sb) := by
  unfold takeAnswer
  try dsimp only
  repeat'
    with_reducible (first
      | assumption | exact List.Subset.trans (by decide) hp | apply Only.gite | apply Only.gdite | apply reactMark_parts
      | apply endOk_parts | apply endFailed_parts | apply setCount_parts | apply refused_parts | apply breakPair_parts
      | apply uncount_parts | apply Only.foldl | apply Only.foldl_snd | apply Only.foldl_fst | (intro _) | split
      | refine Only.ep_upd (partMem hp (by decide)) ?_)

theorem settleWriteBacks_parts {pl : List Part} {sa sb : State}
    (hp : [.sw, .bep, .grotto, .dict, .host, .can, .log, .lantern, .pwr, .sent] ⊆ pl) (hk : Only pl sa sb) :
    Only pl sa (settleWriteBacks sb) := by
  unfold settleWriteBacks
  try dsimp only
  repeat'
    with_reducible (first
      | assumption | exact List.Subset.trans (by decide) hp | apply Only.gite | apply Only.gdite | apply writeBackDone_parts
      | apply Only.foldl | apply Only.foldl_snd | apply Only.foldl_fst | (intro _) | split)

theorem responseReceive_parts {pl : List Part} {sa sb : State} (c : Cell)
    (hp : [.sw, .bep, .ep, .grotto, .cmp, .mem, .dict, .host, .can, .log, .lantern, .pwr, .sent] ⊆ pl)
    (hk : Only pl sa sb) :
    Only pl sa (responseReceive c sb) := by
  unfold responseReceive
  try dsimp only
  repeat'
    with_reducible (first
      | assumption | exact List.Subset.trans (by decide) hp | apply Only.gite | apply Only.gdite | apply progress_parts
      | apply settleWriteBacks_parts | apply pump_parts | apply takeAnswer_parts | apply bump_parts | (intro _) | split
      | refine Only.bep_upd (partMem hp (by decide)) ?_)

theorem requestTimeout_parts {pl : List Part} {sa sb : State} (t : Nat)
    (hp : [.sw, .bep, .ep, .grotto, .cmp, .dict, .host, .can, .log, .lantern, .pwr, .sent] ⊆ pl) (hk : Only pl sa sb) :
    Only pl sa (requestTimeout t sb) := by
  unfold requestTimeout
  try dsimp only
  repeat'
    with_reducible (first
      | assumption | exact List.Subset.trans (by decide) hp | apply Only.gite | apply Only.gdite | apply endFailed_parts
      | apply bump_parts | apply settleWriteBacks_parts | apply pump_parts | (intro _) | split
      | refine Only.ep_upd (partMem hp (by decide)) ?_)

theorem busyResend_parts {pl : List Part} {sa sb : State} (t : Nat) (hp : [.bep, .ep] ⊆ pl) (hk : Only pl sa sb) :
    Only pl sa (busyResend t sb) := by
  unfold busyResend
  try dsimp only
  repeat'
    with_reducible (first
      | assumption | exact List.Subset.trans (by decide) hp | apply Only.gite | apply Only.gdite | apply bepSend_parts
      | (intro _) | split | refine Only.ep_upd (partMem hp (by decide)) ?_)

theorem refill_parts {pl : List Part} {sa sb : State} (f : Fill) (hp : [.ep, .sent] ⊆ pl) (hk : Only pl sa sb) :
    Only pl sa (refill f sb) := by
  unfold refill
  try dsimp only
  repeat'
    with_reducible (first
      | assumption | exact List.Subset.trans (by decide) hp | apply Only.gite | apply Only.gdite | apply waitFill_parts
      | apply Only.foldl | apply Only.foldl_snd | apply Only.foldl_fst | (intro _) | split)

theorem failFill_parts {pl : List Part} {sa sb : State} (f : Fill)
    (hp : [.bep, .cmp, .dict, .host, .can, .log, .pwr, .sent] ⊆ pl) (hk : Only pl sa sb) :
    Only pl sa (failFill f sb) := by
  unfold failFill
  try dsimp only
  repeat'
    with_reducible (first
      | assumption | exact List.Subset.trans (by decide) hp | apply Only.gite | apply Only.gdite | apply failUse_parts
      | apply Only.foldl | apply Only.foldl_snd | apply Only.foldl_fst | (intro _) | split)

theorem fillRsp_parts {pl : List Part} {sa sb : State} (t : Nat) (status : Nat) (ppage : Nat) (size : Nat) (perms : Nat)
    (hp : [.bep, .ep, .grotto, .cmp, .dict, .host, .can, .log, .pwr, .sent] ⊆ pl) (hk : Only pl sa sb) :
    Only pl sa (fillRsp t status ppage size perms sb) := by
  unfold fillRsp
  try dsimp only
  repeat'
    with_reducible (first
      | assumption | exact List.Subset.trans (by decide) hp | apply Only.gite | apply Only.gdite | apply refill_parts
      | apply agentCommand_parts | apply failFill_parts | apply emit_parts | apply report_parts | apply Only.foldl
      | apply Only.foldl_snd | apply Only.foldl_fst | (intro _) | split | refine Only.ep_upd (partMem hp (by decide)) ?_)

theorem fillRetry_parts {pl : List Part} {sa sb : State} (t : Nat) (hp : [.sent] ⊆ pl) (hk : Only pl sa sb) :
    Only pl sa (fillRetry t sb) := by
  unfold fillRetry
  try dsimp only
  repeat'
    with_reducible (first
      | assumption | exact List.Subset.trans (by decide) hp | apply Only.gite | apply Only.gdite | apply emit_parts
      | (intro _) | split)

theorem invReq_parts {pl : List Part} {sa sb : State} (t : Nat) (pasid : Nat) (base : Nat) (pages : Nat) (hp : [.ep] ⊆ pl)
    (hk : Only pl sa sb) :
    Only pl sa (invReq t pasid base pages sb) := by
  unfold invReq
  try dsimp only
  repeat'
    with_reducible (first
      | assumption | exact List.Subset.trans (by decide) hp | apply Only.gite | apply Only.gdite | (intro _) | split
      | refine Only.ep_upd (partMem hp (by decide)) ?_)

theorem invDoneSend_parts {pl : List Part} {sa sb : State} (t : Nat) (hp : [.ep, .sent] ⊆ pl) (hk : Only pl sa sb) :
    Only pl sa (invDoneSend t sb) := by
  unfold invDoneSend
  try dsimp only
  repeat'
    with_reducible (first
      | assumption | exact List.Subset.trans (by decide) hp | apply Only.gite | apply Only.gdite | apply emit_parts
      | (intro _) | split | refine Only.ep_upd (partMem hp (by decide)) ?_)

end Sys2Proof.Machine
end

