-- ==== Sys2Proof/Laws/OnlyArrive.lean ====
section
/-! SUPPORT. What the operations of Machine/Arrive.lean may change. -/

namespace Sys2Proof.Machine

open Sys2Proof

set_option linter.unusedTactic false
set_option linter.unreachableTactic false

theorem discardCell_parts {pl : List Part} {sa sb : State} (a : Arrival)
    (hp : [.ports, .sw, .dict, .host, .can, .log, .pwr, .sent] ⊆ pl) (hk : Only pl sa sb) :
    Only pl sa (discardCell a sb) := by
  unfold discardCell
  try dsimp only
  repeat'
    with_reducible (first
      | assumption | exact List.Subset.trans (by decide) hp | apply Only.gite | apply Only.gdite | apply giveBack_parts
      | (intro _) | split)

theorem discardCount_parts {pl : List Part} {sa sb : State} (a : Arrival) (sub : Nat)
    (hp : [.ports, .sw, .dict, .host, .can, .log, .pwr, .sent] ⊆ pl) (hk : Only pl sa sb) :
    Only pl sa (discardCount a sub sb) := by
  unfold discardCount
  try dsimp only
  repeat'
    with_reducible (first
      | assumption | exact List.Subset.trans (by decide) hp | apply Only.gite | apply Only.gdite | apply discardCell_parts
      | apply bump_parts | (intro _) | split)

theorem answerCell_parts {pl : List Part} {sa sb : State} (a : Arrival) (c : Cell) (code : Nat) (detail : Nat)
    (hp : [.ports, .sw, .dict, .host, .can, .log, .pwr, .sent] ⊆ pl) (hk : Only pl sa sb) :
    Only pl sa (answerCell a c code detail sb) := by
  unfold answerCell
  try dsimp only
  repeat'
    with_reducible (first
      | assumption | exact List.Subset.trans (by decide) hp | apply Only.gite | apply Only.gdite | apply answerIn_parts
      | (intro _) | split)

theorem requestTo_parts {pl : List Part} {sa sb : State} (a : Arrival) (o : Nat) (c : Cell)
    (hp : [.ports, .sw, .grotto, .dict, .host, .can, .log, .pwr, .sent] ⊆ pl) (hk : Only pl sa sb) :
    Only pl sa (requestTo a o c sb) := by
  unfold requestTo
  try dsimp only
  repeat'
    with_reducible (first
      | assumption | exact List.Subset.trans (by decide) hp | apply Only.gite | apply Only.gdite | apply answerCell_parts
      | apply bump_parts | apply discardCell_parts | apply directoryTake_parts | apply enqueue_parts | (intro _) | split)

theorem routeArrival_parts {pl : List Part} {sa sb : State} (a : Arrival) (c : Cell)
    (hp : [.ports, .sw, .grotto, .dict, .host, .can, .log, .pwr, .sent] ⊆ pl) (hk : Only pl sa sb) :
    Only pl sa (routeArrival a c sb) := by
  unfold routeArrival
  try dsimp only
  repeat'
    with_reducible (first
      | assumption | exact List.Subset.trans (by decide) hp | apply Only.gite | apply Only.gdite | apply discardCount_parts
      | apply discardCell_parts | apply countDropped_parts | apply requestTo_parts | apply modPort_parts | apply bump_parts
      | apply enqueue_parts | (intro _) | split)

theorem takeManagement_parts {pl : List Part} {sa sb : State} (p : PortN) (a : Arrival) (c : Cell)
    (hp : [.ports, .sw, .dict, .host, .can, .log, .pwr, .sent] ⊆ pl) (hk : Only pl sa sb) :
    Only pl sa (takeManagement p a c sb) := by
  unfold takeManagement
  try dsimp only
  repeat'
    with_reducible (first
      | assumption | exact List.Subset.trans (by decide) hp | apply Only.gite | apply Only.gdite | apply modPort_parts
      | apply discardCell_parts | (intro _) | split)

theorem portArrival_parts {pl : List Part} {sa sb : State} (p : PortN) (a : Arrival) (c : Cell)
    (hp : [.ports, .sw, .grotto, .cal, .coll, .dict, .host, .can, .log, .pwr, .sent] ⊆ pl) (hk : Only pl sa sb) :
    Only pl sa (portArrival p a c sb) := by
  unfold portArrival
  try dsimp only
  repeat'
    with_reducible (first
      | assumption | exact List.Subset.trans (by decide) hp | apply Only.gite | apply Only.gdite | apply discardCount_parts
      | apply takeManagement_parts | apply discardCell_parts | apply countDiscard_parts | apply answerCell_parts
      | apply noticeAnswered_parts | apply acceptScheduled_parts | apply takeResponse_parts | apply routeArrival_parts
      | (intro _) | split)

theorem bepArrival_parts {pl : List Part} {sa sb : State} (c : Cell)
    (hp : [.ports, .sw, .grotto, .dict, .host, .can, .log, .pwr, .sent] ⊆ pl) (hk : Only pl sa sb) :
    Only pl sa (bepArrival c sb) := by
  unfold bepArrival
  try dsimp only
  repeat'
    with_reducible (first
      | assumption | exact List.Subset.trans (by decide) hp | apply Only.gite | apply Only.gdite | apply bump_parts
      | apply answerCell_parts | apply routeArrival_parts | (intro _) | split)

theorem cellArrival_parts {pl : List Part} {sa sb : State} (input : Nat)
    (hp : [.ports, .sw, .bep, .grotto, .cal, .coll, .dict, .host, .can, .log, .pwr, .sent] ⊆ pl) (hk : Only pl sa sb) :
    Only pl sa (cellArrival input sb) := by
  unfold cellArrival
  try dsimp only
  repeat'
    with_reducible (first
      | assumption | exact List.Subset.trans (by decide) hp | apply Only.gite | apply Only.gdite | apply modPort_parts
      | apply portArrival_parts | apply bepArrival_parts | (intro _) | split
      | refine Only.bep_upd (partMem hp (by decide)) ?_)

theorem latchShares_parts {pl : List Part} {sa sb : State} (hp : [.cmp] ⊆ pl) (hk : Only pl sa sb) :
    Only pl sa (latchShares sb) := by
  unfold latchShares
  try dsimp only
  repeat'
    with_reducible (first
      | assumption | exact List.Subset.trans (by decide) hp | apply Only.gite | apply Only.gdite | (intro _) | split
      | refine Only.cmp_upd (partMem hp (by decide)) ?_)

theorem roundStart_parts {pl : List Part} {sa sb : State}
    (hp : [.time, .ports, .cmp, .coll, .dict, .host, .can, .log, .pwr, .sent, .free] ⊆ pl) (hk : Only pl sa sb) :
    Only pl sa (roundStart sb) := by
  unfold roundStart
  try dsimp only
  repeat'
    with_reducible (first
      | assumption | exact List.Subset.trans (by decide) hp | apply Only.gite | apply Only.gdite | apply latchShares_parts
      | apply roundStartTime_parts | apply windowRound_parts | apply Only.foldl | apply Only.foldl_snd
      | apply Only.foldl_fst | (intro _) | split)

end Sys2Proof.Machine
end

