-- ==== Sys2Proof/Laws/OnlyAuction.lean ====
section
/-! SUPPORT. What the operations of Machine/Auction.lean may change. -/

namespace Sys2Proof.Machine

open Sys2Proof

set_option linter.unusedTactic false
set_option linter.unreachableTactic false

theorem chargeClass_parts {pl : List Part} {sa sb : State} (w : Owner) (k : Nat) (hp : [.cal] ⊆ pl) (hk : Only pl sa sb) :
    Only pl sa (chargeClass w k sb) := by
  unfold chargeClass
  try dsimp only
  repeat'
    with_reducible (first
      | assumption | exact List.Subset.trans (by decide) hp | apply Only.gite | apply Only.gdite | apply modCal_parts
      | (intro _) | split)

theorem sendOut_parts {pl : List Part} {sa sb : State} (o : Nat) (c : Cell) (hp : [.ports, .bep, .dict, .sent] ⊆ pl)
    (hk : Only pl sa sb) :
    Only pl sa (sendOut o c sb) := by
  unfold sendOut
  try dsimp only
  repeat'
    with_reducible (first
      | assumption | exact List.Subset.trans (by decide) hp | apply Only.gite | apply Only.gdite | apply issueCell_parts
      | (intro _) | split | refine Only.bep_upd (partMem hp (by decide)) ?_)

theorem sendHead_parts {pl : List Part} {sa sb : State} (key : Nat)
    (hp : [.ports, .sw, .bep, .grotto, .coll, .dict, .host, .can, .log, .lantern, .pwr, .sent] ⊆ pl)
    (hk : Only pl sa sb) :
    Only pl sa (sendHead key sb) := by
  unfold sendHead
  try dsimp only
  repeat'
    with_reducible (first
      | assumption | exact List.Subset.trans (by decide) hp | apply Only.gite | apply Only.gdite | apply setVoq_parts
      | apply noteDeparture_parts | apply grottoDepart_parts | apply progress_parts | apply releaseCopy_parts
      | apply sendOut_parts | (intro _) | split)

theorem sendScheduled_parts {pl : List Part} {sa sb : State} (i : Nat) (e : Nat) (o : Nat) (c : Cell)
    (hp : [.ports, .cmp, .coll, .dict, .sent] ⊆ pl) (hk : Only pl sa sb) :
    Only pl sa (sendScheduled i e o c sb) := by
  unfold sendScheduled
  try dsimp only
  repeat'
    with_reducible (first
      | assumption | exact List.Subset.trans (by decide) hp | apply Only.gite | apply Only.gdite | apply issueCell_parts
      | apply departed_parts | apply noteDelivery_parts | apply engineTake_parts | (intro _) | split)

theorem reservedSlot_parts {pl : List Part} {sa : State} (o : Nat) (t : Turn) (hp : [.ports, .sw, .bep, .grotto, .cal, .cmp, .coll, .dict, .host, .can, .log, .lantern, .pwr, .sent] ⊆ pl) (hk : Only pl sa t.s) :
    Only pl sa (reservedSlot o t).s := by
  unfold reservedSlot
  split
  · exact hk
  · dsimp only
    split
    · dsimp only
      apply Only.gite
      · exact fun _ => releaseRef_parts _ _ _ (List.Subset.trans (by decide) hp) (bump_parts _ _ (List.Subset.trans (by decide) hp) hk)
      · exact fun _ => bump_parts _ _ (List.Subset.trans (by decide) hp) hk
    · rename_i e _ _ i _ _
      generalize hu : (if eInput e = 24 ∧ eChunk e = 0xFFFFF then
        ({ s := checkDigests i t.s, reads := t.reads, buffers := t.buffers, free := t.free } : Turn) else t) = u
      have a : Only pl sa u.s := by
        rw [← hu]
        split
        · exact checkDigests_parts _ (List.Subset.trans (by decide) hp) hk
        · exact hk
      repeat'
        with_reducible (first
          | assumption | exact List.Subset.trans (by decide) hp | apply Only.gite | apply releaseRef_parts
          | apply slotMissed_parts | apply sendScheduled_parts | apply bump_parts | (intro _) | split)

theorem acceptFor_parts {pl : List Part} {sa : State} (iter : Nat) (grants : List (Nat × Nat × Nat)) (t : Turn) (i : Nat)
    (hp : [.ports, .sw, .bep, .grotto, .cal, .cmp, .coll, .dict, .host, .can, .log, .lantern, .pwr, .sent] ⊆ pl) (hk : Only pl sa t.s) : Only pl sa (acceptFor iter grants t i).s := by
  unfold acceptFor
  dsimp only
  generalize ((circle (t.s.sw.aptr.toList.getD i 0)).filterMap (fun o => grants.find? (fun g => g.1 == o && g.2.1 == i))).take
    (t.reads.getD i 0) = l
  induction l generalizing t with
  | nil => exact hk
  | cons g r ih =>
    rw [List.foldl_cons]
    apply ih
    dsimp only
    apply Only.gite
    · exact fun _ => Only.sw_upd (partMem hp (by decide)) (sendHead_parts _ (List.Subset.trans (by decide) hp) hk)
    · exact fun _ => sendHead_parts _ (List.Subset.trans (by decide) hp) hk

theorem iterate_parts {pl : List Part} {sa : State} (iter : Nat) (t : Turn) (hp : [.ports, .sw, .bep, .grotto, .cal, .cmp, .coll, .dict, .host, .can, .log, .lantern, .pwr, .sent] ⊆ pl) (hk : Only pl sa t.s) :
    Only pl sa (iterate iter t).s := by
  unfold iterate
  dsimp only
  generalize t.free.filterMap (fun o => (grantFor t o).map (fun g => (o, g))) = found
  have a : Only pl sa (found.foldl (fun s x => chargeClass x.2.2.2.2 x.2.2.2.1 s) t.s) :=
    Only.foldl _ (fun u x h => chargeClass_parts _ _ (List.Subset.trans (by decide) hp) h) hk
  generalize found.foldl (fun s x => chargeClass x.2.2.2.2 x.2.2.2.1 s) t.s = v at a
  suffices ∀ (l : List Nat) (u : Turn), Only pl sa u.s →
      Only pl sa (l.foldl (acceptFor iter (found.map (fun x => (x.1, x.2.1, x.2.2.1)))) u).s from this _ _ a
  intro l
  induction l with
  | nil => exact fun u h => h
  | cons i r ih => exact fun u h => ih _ (acceptFor_parts _ _ _ _ hp h)

theorem reservedSlots_parts {pl : List Part} {sa : State} (l : List Nat) (u : Turn) (hp : [.ports, .sw, .bep, .grotto, .cal, .cmp, .coll, .dict, .host, .can, .log, .lantern, .pwr, .sent] ⊆ pl) (h : Only pl sa u.s) :
    Only pl sa (l.foldl (fun t o => reservedSlot o t) u).s := by
  induction l generalizing u with
  | nil => exact h
  | cons i r ih =>
    rw [List.foldl_cons]
    exact ih (reservedSlot i u) (reservedSlot_parts i u hp h)

theorem iterations_parts {pl : List Part} {sa : State} (l : List Nat) (u : Turn) (hp : [.ports, .sw, .bep, .grotto, .cal, .cmp, .coll, .dict, .host, .can, .log, .lantern, .pwr, .sent] ⊆ pl) (h : Only pl sa u.s) :
    Only pl sa (l.foldl (fun t n => iterate n t) u).s := by
  induction l generalizing u with
  | nil => exact h
  | cons i r ih =>
    rw [List.foldl_cons]
    exact ih (iterate i u) (iterate_parts i u hp h)

theorem auction_parts {pl : List Part} {sa sb : State} (hp : [.ports, .sw, .bep, .grotto, .cal, .cmp, .coll, .dict, .host, .can, .log, .lantern, .pwr, .sent] ⊆ pl) (hk : Only pl sa sb) : Only pl sa (auction sb) := by
  unfold auction
  apply Only.gite
  · exact fun _ => hk
  · intro _
    extract_lets t0 t1
    have a : Only pl sa t0.s := by
      exact reservedSlots_parts (List.range 25) { s := sb } hp hk
    clear_value t0
    have b : Only pl sa t1.s := by
      show Only pl sa (if withheld t0.s then t0 else (List.range 4).foldl (fun t n => iterate n t) t0).s
      split
      · exact a
      · exact iterations_parts (List.range 4) t0 hp a
    clear_value t1
    exact takeHeads_parts (List.Subset.trans (by decide) hp) (serveReplies_parts (List.Subset.trans (by decide) hp) b)

end Sys2Proof.Machine
end

