-- ==== Sys2Proof/Laws/OnlyMailbox.lean ====
section
/-! SUPPORT. What the operations of Machine/Mailbox.lean may change. -/

namespace Sys2Proof.Machine

open Sys2Proof

set_option linter.unusedTactic false
set_option linter.unreachableTactic false

theorem modHost_parts {pl : List Part} {sa sb : State} (f : HostIf → HostIf) (hp : [.host] ⊆ pl) (hk : Only pl sa sb) :
    Only pl sa (modHost f sb) := by
  unfold modHost
  try dsimp only
  repeat'
    with_reducible (first
      | assumption | exact List.Subset.trans (by decide) hp | apply Only.gite | apply Only.gdite | (intro _) | split
      | refine Only.host_upd (partMem hp (by decide)) ?_)

theorem setStaged_parts {pl : List Part} {sa sb : State} (src : Route) (x : Option Staged) (hp : [.host] ⊆ pl)
    (hk : Only pl sa sb) :
    Only pl sa (setStaged src x sb) := by
  unfold setStaged
  try dsimp only
  repeat'
    with_reducible (first
      | assumption | exact List.Subset.trans (by decide) hp | apply Only.gite | apply Only.gdite | apply modHost_parts
      | (intro _) | split)

theorem setSnap_parts {pl : List Part} {sa sb : State} (src : Route) (x : Option Staged) (hp : [.host] ⊆ pl)
    (hk : Only pl sa sb) :
    Only pl sa (setSnap src x sb) := by
  unfold setSnap
  try dsimp only
  repeat'
    with_reducible (first
      | assumption | exact List.Subset.trans (by decide) hp | apply Only.gite | apply Only.gdite | apply modHost_parts
      | (intro _) | split)

theorem discardOpen_parts {pl : List Part} {sa sb : State} (src : Route) (hp : [.host, .sec] ⊆ pl) (hk : Only pl sa sb) :
    Only pl sa (discardOpen src sb) := by
  unfold discardOpen
  try dsimp only
  repeat'
    with_reducible (first
      | assumption | exact List.Subset.trans (by decide) hp | apply Only.gite | apply Only.gdite | apply setStaged_parts
      | apply abandonFirmware_parts | (intro _) | split)

theorem badRequest_parts {pl : List Part} {sa sb : State} (hp : [.dict] ⊆ pl) (hk : Only pl sa sb) :
    Only pl sa (badRequest sb) := by
  unfold badRequest
  try dsimp only
  repeat'
    with_reducible (first
      | assumption | exact List.Subset.trans (by decide) hp | apply Only.gite | apply Only.gdite | apply endOp_parts
      | (intro _) | split)

theorem readRequest_parts {pl : List Part} {sa sb : State} (src : Route) (who : Viewer) (r : MbxRequest)
    (hp : [.dict, .host] ⊆ pl) (hk : Only pl sa sb) :
    Only pl sa (readRequest src who r sb).2 := by
  unfold readRequest
  try dsimp only
  repeat'
    with_reducible (first
      | assumption | exact List.Subset.trans (by decide) hp | apply Only.gite | apply Only.gdite | apply beginOp_parts
      | apply badRequest_parts | apply endOp_parts | apply setSnap_parts | (intro _) | split)

theorem writeRequest_parts {pl : List Part} {sa sb : State} (src : Route) (r : MbxRequest)
    (hp : [.time, .ports, .sw, .routes, .bep, .ep, .grotto, .cal, .cmp, .coll, .xlat, .mem, .dict, .host, .can, .sec, .log, .lantern, .muster, .pwr, .resets, .sent] ⊆ pl)
    (hk : Only pl sa sb) :
    Only pl sa (writeRequest src r sb) := by
  unfold writeRequest
  try dsimp only
  repeat'
    with_reducible (first
      | assumption | exact List.Subset.trans (by decide) hp | apply Only.gite | apply Only.gdite | apply beginOp_parts
      | apply badRequest_parts | apply discardOpen_parts | apply firmwareSegment_parts | apply endOp_parts
      | apply setStaged_parts | apply dictWrite_parts | (intro _) | split)

theorem carryOut_parts {pl : List Part} {sa sb : State} (src : Route) (who : Viewer) (r : MbxRequest)
    (hp : [.time, .ports, .sw, .routes, .bep, .ep, .grotto, .cal, .cmp, .coll, .xlat, .mem, .dict, .host, .can, .sec, .log, .lantern, .muster, .pwr, .resets, .sent] ⊆ pl)
    (hk : Only pl sa sb) :
    Only pl sa (carryOut src who r sb).2 := by
  unfold carryOut
  try dsimp only
  repeat'
    with_reducible (first
      | assumption | exact List.Subset.trans (by decide) hp | apply Only.gite | apply Only.gdite | apply readRequest_parts
      | apply writeRequest_parts | apply badRequest_parts | apply beginOp_parts | (intro _) | split)

theorem mailboxDoorbell_parts {pl : List Part} {sa sb : State} (v : BitVec 32) (hp : [.host] ⊆ pl) (hk : Only pl sa sb) :
    Only pl sa (mailboxDoorbell v sb) := by
  unfold mailboxDoorbell
  try dsimp only
  repeat'
    with_reducible (first
      | assumption | exact List.Subset.trans (by decide) hp | apply Only.gite | apply Only.gdite | apply countIgnored_parts
      | apply modHost_parts | (intro _) | split)

theorem answerMailbox_parts {pl : List Part} {sa : State} (r : MbxRequest) (x : Reply × State) (hp : [.dict, .host, .can, .sent] ⊆ pl)
    (hk : Only pl sa x.2) : Only pl sa (answerMailbox r x) := by
  unfold answerMailbox
  dsimp only
  apply afterResponse_parts (List.Subset.trans (by decide) hp)
  apply Only.gite
  · exact fun _ => modHost_parts _ (List.Subset.trans (by decide) hp) hk
  · exact fun _ => raiseCause_parts _ (List.Subset.trans (by decide) hp) (modHost_parts _ (List.Subset.trans (by decide) hp) hk)

theorem serveMailbox_parts {pl : List Part} {sa sb : State} (f : MbxRequest → Bool)
    (hp : [.time, .ports, .sw, .routes, .bep, .ep, .grotto, .cal, .cmp, .coll, .xlat, .mem, .dict, .host, .can, .sec, .log, .lantern, .muster, .pwr, .resets, .sent] ⊆ pl)
    (hk : Only pl sa sb) :
    Only pl sa (serveMailbox f sb) := by
  unfold serveMailbox
  try dsimp only
  repeat'
    with_reducible (first
      | assumption | exact List.Subset.trans (by decide) hp | apply Only.gite | apply Only.gdite | apply answerMailbox_parts
      | apply carryOut_parts | (intro _) | split)

theorem securedRequest_parts {pl : List Part} {sa sb : State} (id : Nat) (r : MbxRequest)
    (hp : [.time, .ports, .sw, .routes, .bep, .ep, .grotto, .cal, .cmp, .coll, .xlat, .mem, .dict, .host, .can, .sec, .log, .lantern, .muster, .pwr, .resets, .sent] ⊆ pl)
    (hk : Only pl sa sb) :
    Only pl sa (securedRequest id r sb) := by
  unfold securedRequest
  try dsimp only
  repeat'
    with_reducible (first
      | assumption | exact List.Subset.trans (by decide) hp | apply Only.gite | apply Only.gdite | apply inSession_parts
      | apply denyTenant_parts | apply beginOp_parts | apply carryOut_parts | apply bump_parts | apply afterResponse_parts
      | apply vendorResponse_parts | (intro _) | split)

end Sys2Proof.Machine
end

