-- ==== Sys2Proof/Laws/OnlyCanNode.lean ====
section
/-! SUPPORT. What the operations of Machine/CanNode.lean may change. -/

namespace Sys2Proof.Machine

open Sys2Proof

set_option linter.unusedTactic false
set_option linter.unreachableTactic false

theorem modCan_parts {pl : List Part} {sa sb : State} (f : Can → Can) (hp : [.can] ⊆ pl) (hk : Only pl sa sb) :
    Only pl sa (modCan f sb) := by
  unfold modCan
  try dsimp only
  repeat'
    with_reducible (first
      | assumption | exact List.Subset.trans (by decide) hp | apply Only.gite | apply Only.gdite | (intro _) | split
      | refine Only.can_upd (partMem hp (by decide)) ?_)

theorem sendFrame_parts {pl : List Part} {sa sb : State} (ident : Nat) (data : Bytes) (hp : [.dict, .sent] ⊆ pl)
    (hk : Only pl sa sb) :
    Only pl sa (sendFrame ident data sb) := by
  unfold sendFrame
  try dsimp only
  repeat'
    with_reducible (first
      | assumption | exact List.Subset.trans (by decide) hp | apply Only.gite | apply Only.gdite | apply emit_parts
      | apply bump_parts | (intro _) | split)

theorem usdoRequest_parts {pl : List Part} {sa sb : State} (f : State → Bytes × State)
    (h_f : ∀ u, Only pl sa u → Only pl sa (f u).2) (hp : [.dict, .can, .sent] ⊆ pl) (hk : Only pl sa sb) : Only pl sa (usdoRequest f sb) := by
  unfold usdoRequest
  apply Only.gite
  · intro _
    dsimp only
    have a := h_f _ (bump_parts 0x1100 0x10 (List.Subset.trans (by decide) hp) hk)
    generalize f (bump 0x1100 0x10 sb) = r at a
    apply afterResponse_parts (List.Subset.trans (by decide) hp)
    apply emit_parts _ (List.Subset.trans (by decide) hp)
    apply bump_parts _ _ (List.Subset.trans (by decide) hp)
    apply Only.gite
    · exact fun _ => bump_parts _ _ (List.Subset.trans (by decide) hp) a
    · exact fun _ => bump_parts _ _ (List.Subset.trans (by decide) hp) a
  · exact fun _ => hk

theorem usdoDownload_parts {pl : List Part} {sa sb : State} (index : Nat) (sub : Nat) (b : Bytes) (hp : [.time, .ports, .sw, .routes, .bep, .ep, .grotto, .cal, .cmp, .coll, .xlat, .mem, .dict, .host, .can, .sec, .log, .lantern, .muster, .pwr, .resets, .sent] ⊆ pl)
    (hk : Only pl sa sb) : Only pl sa (usdoDownload index sub b sb) := by
  unfold usdoDownload
  refine usdoRequest_parts _ ?_ (List.Subset.trans (by decide) hp) hk
  intro u h
  dsimp only
  apply Only.gite
  · exact fun _ => endOp_parts _ _ (List.Subset.trans (by decide) hp) (beginOp_parts (List.Subset.trans (by decide) hp) h)
  · exact fun _ => dictWrite_parts _ _ _ _ (List.Subset.trans (by decide) hp) h

theorem usdoUpload_parts {pl : List Part} {sa sb : State} (index : Nat) (sub : Nat) (hp : [.dict, .can, .sent] ⊆ pl)
    (hk : Only pl sa sb) : Only pl sa (usdoUpload index sub sb) := by
  unfold usdoUpload
  refine usdoRequest_parts _ ?_ (List.Subset.trans (by decide) hp) hk
  intro u h
  dsimp only
  split
  · exact beginOp_parts (List.Subset.trans (by decide) hp) h
  · exact endOp_parts _ _ (List.Subset.trans (by decide) hp) (beginOp_parts (List.Subset.trans (by decide) hp) h)

theorem usdoTimeout_parts {pl : List Part} {sa sb : State} (hp : [.dict, .sent] ⊆ pl) (hk : Only pl sa sb) :
    Only pl sa (usdoTimeout sb) := by
  unfold usdoTimeout
  try dsimp only
  repeat'
    with_reducible (first
      | assumption | exact List.Subset.trans (by decide) hp | apply Only.gite | apply Only.gdite | apply emit_parts
      | apply bump_parts | (intro _) | split)

theorem nmtCommand_parts {pl : List Part} {sa sb : State} (node : Nat) (f : State → State)
    (h_f : ∀ (u : State), Only pl sa u → Only pl sa (f  u)) (hp : [.dict] ⊆ pl) (hk : Only pl sa sb) :
    Only pl sa (nmtCommand node f sb) := by
  unfold nmtCommand
  try dsimp only
  repeat'
    with_reducible (first
      | assumption | exact List.Subset.trans (by decide) hp | apply Only.gite | apply Only.gdite | apply h_f
      | apply bump_parts | (intro _) | split)

theorem nmtEnter_parts {pl : List Part} {sa sb : State} (n : Nat) (hp : [.can] ⊆ pl) (hk : Only pl sa sb) :
    Only pl sa (nmtEnter n sb) := by
  unfold nmtEnter
  try dsimp only
  repeat'
    with_reducible (first
      | assumption | exact List.Subset.trans (by decide) hp | apply Only.gite | apply Only.gdite | apply modCan_parts
      | (intro _) | split)

theorem nmtBoot_parts {pl : List Part} {sa sb : State} (hp : [.dict, .can, .sent] ⊆ pl) (hk : Only pl sa sb) :
    Only pl sa (nmtBoot sb) := by
  unfold nmtBoot
  try dsimp only
  repeat'
    with_reducible (first
      | assumption | exact List.Subset.trans (by decide) hp | apply Only.gite | apply Only.gdite | apply nmtEnter_parts
      | apply bootUp_parts | (intro _) | split)

theorem heartbeat_parts {pl : List Part} {sa sb : State} (hp : [.dict, .sent] ⊆ pl) (hk : Only pl sa sb) :
    Only pl sa (heartbeat sb) := by
  unfold heartbeat
  try dsimp only
  repeat'
    with_reducible (first
      | assumption | exact List.Subset.trans (by decide) hp | apply Only.gite | apply Only.gdite | apply sendFrame_parts
      | (intro _) | split)

theorem sendTpdo_parts {pl : List Part} {sa sb : State} (n : Nat) (hp : [.dict, .sent] ⊆ pl) (hk : Only pl sa sb) :
    Only pl sa (sendTpdo n sb) := by
  unfold sendTpdo
  try dsimp only
  repeat'
    with_reducible (first
      | assumption | exact List.Subset.trans (by decide) hp | apply Only.gite | apply Only.gdite | apply sendFrame_parts
      | (intro _) | split)

theorem busOff_parts {pl : List Part} {sa sb : State} (hp : [.dict, .can, .sent] ⊆ pl) (hk : Only pl sa sb) :
    Only pl sa (busOff sb) := by
  unfold busOff
  try dsimp only
  repeat'
    with_reducible (first
      | assumption | exact List.Subset.trans (by decide) hp | apply Only.gite | apply Only.gdite | apply emcy_parts
      | apply bump_parts | (intro _) | split)

theorem bootRestore_parts {pl : List Part} {sa sb : State}
    (hp : [.time, .ports, .sw, .routes, .bep, .ep, .grotto, .cal, .cmp, .coll, .xlat, .mem, .dict, .host, .can, .sec, .log, .lantern, .muster, .pwr, .resets, .sent] ⊆ pl)
    (hk : Only pl sa sb) :
    Only pl sa (bootRestore sb) := by
  unfold bootRestore
  try dsimp only
  repeat'
    with_reducible (first
      | assumption | exact List.Subset.trans (by decide) hp | apply Only.gite | apply Only.gdite | apply modDict_parts
      | apply log_parts | apply applyRecords_parts | apply modSec_parts | (intro _) | split)

theorem managementBoot_parts {pl : List Part} {sa sb : State}
    (hp : [.time, .ports, .sw, .routes, .bep, .ep, .grotto, .cal, .cmp, .coll, .xlat, .mem, .dict, .host, .can, .sec, .log, .lantern, .muster, .pwr, .resets, .sent] ⊆ pl)
    (hk : Only pl sa sb) :
    Only pl sa (managementBoot sb) := by
  unfold managementBoot
  try dsimp only
  repeat'
    with_reducible (first
      | assumption | exact List.Subset.trans (by decide) hp | apply Only.gite | apply Only.gdite | apply bootRestore_parts
      | apply modSec_parts | apply modCan_parts | apply modPwr_parts | apply modHost_parts | apply log_parts
      | apply nmtBoot_parts | apply concludeReset_parts | (intro _) | split)

end Sys2Proof.Machine
end

