-- ==== Sys2Proof/Laws/OnlyControl.lean ====
section
/-! SUPPORT. What the operations of Machine/Control.lean may change. -/

namespace Sys2Proof.Machine

open Sys2Proof

set_option linter.unusedTactic false
set_option linter.unreachableTactic false

theorem branch_parts {pl : List Part} {sa sb : State} (w : StreamId) (f : IFields) (k : Nat) (taken : Bool)
    (hp : [.cmp] ⊆ pl) (hk : Only pl sa sb) :
    Only pl sa (branch w f k taken sb) := by
  unfold branch
  try dsimp only
  repeat'
    with_reducible (first
      | assumption | exact List.Subset.trans (by decide) hp | apply Only.gite | apply Only.gdite | apply modStream_parts
      | (intro _) | split)

theorem branchFree_parts {pl : List Part} {sa sb : State} (w : StreamId) (f : IFields) (k : Nat) (hp : [.cmp, .free] ⊆ pl)
    (hk : Only pl sa sb) :
    Only pl sa (branchFree w f k sb) := by
  unfold branchFree
  try dsimp only
  repeat'
    with_reducible (first
      | assumption | exact List.Subset.trans (by decide) hp | apply Only.gite | apply Only.gdite | apply branch_parts
      | apply drawn_parts | (intro _) | split)

end Sys2Proof.Machine
end

