-- ==== Sys2Proof/Laws/OnlyEcho.lean ====
section
/-! SUPPORT. What the operations of Machine/Echo.lean may change. -/

namespace Sys2Proof.Machine

open Sys2Proof

set_option linter.unusedTactic false
set_option linter.unreachableTactic false

theorem modLantern_parts {pl : List Part} {sa sb : State} (f : Lantern → Lantern) (hp : [.lantern] ⊆ pl)
    (hk : Only pl sa sb) :
    Only pl sa (modLantern f sb) := by
  unfold modLantern
  try dsimp only
  repeat'
    with_reducible (first
      | assumption | exact List.Subset.trans (by decide) hp | apply Only.gite | apply Only.gdite | (intro _) | split
      | refine Only.lantern_upd (partMem hp (by decide)) ?_)

theorem holdCtx_parts {pl : List Part} {sa sb : State} (k : Nat) (hp : [.cmp] ⊆ pl) (hk : Only pl sa sb) :
    Only pl sa (holdCtx k sb) := by
  unfold holdCtx
  try dsimp only
  repeat'
    with_reducible (first
      | assumption | exact List.Subset.trans (by decide) hp | apply Only.gite | apply Only.gdite | apply discardDirty_parts
      | apply modCtx_parts | (intro _) | split)

theorem startEcho_parts {pl : List Part} {sa sb : State} (path : List Node) (hp : [.cmp, .lantern] ⊆ pl)
    (hk : Only pl sa sb) :
    Only pl sa (startEcho path sb) := by
  unfold startEcho
  try dsimp only
  repeat'
    with_reducible (first
      | assumption | exact List.Subset.trans (by decide) hp | apply Only.gite | apply Only.gdite | apply holdCtx_parts
      | apply modLantern_parts | apply Only.foldl | apply Only.foldl_snd | apply Only.foldl_fst | (intro _) | split)

theorem actOnContexts_parts {pl : List Part} {sa sb : State} (path : List Node)
    (hp : [.cmp, .dict, .host, .can, .log, .lantern, .pwr, .sent] ⊆ pl) (hk : Only pl sa sb) :
    Only pl sa (actOnContexts path sb) := by
  unfold actOnContexts
  try dsimp only
  repeat'
    with_reducible (first
      | assumption | exact List.Subset.trans (by decide) hp | apply Only.gite | apply Only.gdite | apply abortCtx_parts
      | apply startEcho_parts | apply modLantern_parts | apply Only.foldl | apply Only.foldl_snd | apply Only.foldl_fst
      | (intro _) | split)

theorem faultHeld_parts {pl : List Part} {sa sb : State} (code : Nat) (k : Nat)
    (hp : [.cmp, .dict, .host, .can, .log, .pwr, .sent] ⊆ pl) (hk : Only pl sa sb) :
    Only pl sa (faultHeld code k sb) := by
  unfold faultHeld
  try dsimp only
  repeat'
    with_reducible (first
      | assumption | exact List.Subset.trans (by decide) hp | apply Only.gite | apply Only.gdite | apply bump_parts
      | apply event_parts | apply setCtx_parts | (intro _) | split)

theorem releaseHeld_parts {pl : List Part} {sa sb : State} (k : Nat) (hp : [.cmp] ⊆ pl) (hk : Only pl sa sb) :
    Only pl sa (releaseHeld k sb) := by
  unfold releaseHeld
  try dsimp only
  repeat'
    with_reducible (first
      | assumption | exact List.Subset.trans (by decide) hp | apply Only.gite | apply Only.gdite | apply restartCtx_parts
      | apply modCtx_parts | (intro _) | split)

theorem concludeEcho_parts {pl : List Part} {sa sb : State}
    (hp : [.cmp, .dict, .host, .can, .log, .lantern, .pwr, .sent] ⊆ pl) (hk : Only pl sa sb) :
    Only pl sa (concludeEcho sb) := by
  unfold concludeEcho
  try dsimp only
  repeat'
    with_reducible (first
      | assumption | exact List.Subset.trans (by decide) hp | apply Only.gite | apply Only.gdite | apply faultHeld_parts
      | apply releaseHeld_parts | apply log_parts | apply bump_parts | apply modLantern_parts | apply startEcho_parts
      | apply Only.foldl | apply Only.foldl_snd | apply Only.foldl_fst | (intro _) | split)

theorem findSuspect_parts {pl : List Part} {sa sb : State} (g : List Nat) (f : Finding)
    (hp : [.cmp, .dict, .host, .can, .log, .lantern, .pwr, .sent] ⊆ pl) (hk : Only pl sa sb) :
    Only pl sa (findSuspect g f sb) := by
  unfold findSuspect
  try dsimp only
  repeat'
    with_reducible (first
      | assumption | exact List.Subset.trans (by decide) hp | apply Only.gite | apply Only.gdite | apply bump_parts
      | apply concludeEcho_parts | apply modLantern_parts | (intro _) | split)

theorem settleReplay_parts {pl : List Part} {sa sb : State}
    (hp : [.cmp, .dict, .host, .can, .log, .lantern, .pwr, .sent] ⊆ pl) (hk : Only pl sa sb) :
    Only pl sa (settleReplay sb) := by
  unfold settleReplay
  try dsimp only
  repeat'
    with_reducible (first
      | assumption | exact List.Subset.trans (by decide) hp | apply Only.gite | apply Only.gdite | apply findSuspect_parts
      | apply holdCtx_parts | apply Only.foldl | apply Only.foldl_snd | apply Only.foldl_fst | (intro _) | split)

theorem echoReplay_parts {pl : List Part} {sa sb : State}
    (hp : [.cmp, .dict, .host, .can, .log, .lantern, .pwr, .sent] ⊆ pl) (hk : Only pl sa sb) :
    Only pl sa (echoReplay sb) := by
  unfold echoReplay
  try dsimp only
  repeat'
    with_reducible (first
      | assumption | exact List.Subset.trans (by decide) hp | apply Only.gite | apply Only.gdite | apply settleReplay_parts
      | apply modLantern_parts | apply restartCtx_parts | apply bump_parts | apply Only.foldl | apply Only.foldl_snd
      | apply Only.foldl_fst | (intro _) | split)

theorem echoTimeout_parts {pl : List Part} {sa sb : State}
    (hp : [.cmp, .dict, .host, .can, .log, .lantern, .pwr, .sent] ⊆ pl) (hk : Only pl sa sb) :
    Only pl sa (echoTimeout sb) := by
  unfold echoTimeout
  try dsimp only
  repeat'
    with_reducible (first
      | assumption | exact List.Subset.trans (by decide) hp | apply Only.gite | apply Only.gdite | apply settleReplay_parts
      | apply findSuspect_parts | (intro _) | split)

theorem discardHead_parts {pl : List Part} {sa sb : State} (path : List Node)
    (hp : [.ports, .sw, .dict, .host, .can, .log, .pwr, .sent] ⊆ pl) (hk : Only pl sa sb) :
    Only pl sa (discardHead path sb) := by
  unfold discardHead
  try dsimp only
  repeat'
    with_reducible (first
      | assumption | exact List.Subset.trans (by decide) hp | apply Only.gite | apply Only.gdite | apply giveBack_parts
      | apply setVoq_parts | apply bump_parts | (intro _) | split)

theorem declareHang_parts {pl : List Part} {sa sb : State} (h : HangKind × List Node)
    (hp : [.ports, .sw, .cmp, .dict, .host, .can, .log, .lantern, .pwr, .sent] ⊆ pl) (hk : Only pl sa sb) :
    Only pl sa (declareHang h sb) := by
  unfold declareHang
  try dsimp only
  repeat'
    with_reducible (first
      | assumption | exact List.Subset.trans (by decide) hp | apply Only.gite | apply Only.gdite | apply findSuspect_parts
      | apply holdCtx_parts | apply log_parts | apply bump_parts | apply actOnContexts_parts | apply discardHead_parts
      | apply Only.foldl | apply Only.foldl_snd | apply Only.foldl_fst | (intro _) | split)

theorem lanternSample_parts {pl : List Part} {sa sb : State}
    (hp : [.time, .ports, .sw, .cmp, .dict, .host, .can, .log, .lantern, .pwr, .sent] ⊆ pl) (hk : Only pl sa sb) :
    Only pl sa (lanternSample sb) := by
  unfold lanternSample
  try dsimp only
  repeat'
    with_reducible (first
      | assumption | exact List.Subset.trans (by decide) hp | apply Only.gite | apply Only.gdite | apply modLantern_parts
      | apply settleReplay_parts | apply advanceTo_parts | apply progress_parts | apply declareHang_parts | apply Only.foldl
      | apply Only.foldl_snd | apply Only.foldl_fst | (intro _) | split)

theorem endCommand_parts {pl : List Part} {sa sb : State} (k : Nat)
    (hp : [.bep, .ep, .grotto, .cmp, .xlat, .mem, .dict, .host, .can, .log, .lantern, .pwr, .sent] ⊆ pl)
    (hk : Only pl sa sb) :
    Only pl sa (endCommand k sb) := by
  unfold endCommand
  try dsimp only
  repeat'
    with_reducible (first
      | assumption | exact List.Subset.trans (by decide) hp | apply Only.gite | apply Only.gdite | apply commandEnd_parts
      | apply settleReplay_parts | apply holdCtx_parts | (intro _) | split)

end Sys2Proof.Machine
end

