-- ==== Sys2Proof/Laws/OnlyGddr.lean ====
section
/-! SUPPORT. What the operations of Machine/Gddr.lean may change. -/

namespace Sys2Proof.Machine

open Sys2Proof

set_option linter.unusedTactic false
set_option linter.unreachableTactic false

theorem bumpChan_parts {pl : List Part} {sa sb : State} (k : Nat) (lo : Nat) (hp : [.dict] ⊆ pl) (hk : Only pl sa sb) :
    Only pl sa (bumpChan k lo sb) := by
  unfold bumpChan
  try dsimp only
  repeat'
    with_reducible (first
      | assumption | exact List.Subset.trans (by decide) hp | apply Only.gite | apply Only.gdite | apply bump_parts
      | (intro _) | split)

theorem poisonLine_parts {pl : List Part} {sa sb : State} (line : Nat) (hp : [.mem] ⊆ pl) (hk : Only pl sa sb) :
    Only pl sa (poisonLine line sb) := by
  unfold poisonLine
  try dsimp only
  repeat'
    with_reducible (first
      | assumption | exact List.Subset.trans (by decide) hp | apply Only.gite | apply Only.gdite | (intro _) | split
      | refine Only.mem_upd (partMem hp (by decide)) ?_)

theorem startRetrain_parts {pl : List Part} {sa sb : State} (k : Nat) (hp : [.mem] ⊆ pl) (hk : Only pl sa sb) :
    Only pl sa (startRetrain k sb) := by
  unfold startRetrain
  try dsimp only
  repeat'
    with_reducible (first
      | assumption | exact List.Subset.trans (by decide) hp | apply Only.gite | apply Only.gdite | apply modChan_parts
      | (intro _) | split)

theorem channelRetrain_parts {pl : List Part} {sa sb : State} (k : Nat) (ok : Bool)
    (hp : [.mem, .dict, .host, .can, .log, .pwr, .sent] ⊆ pl) (hk : Only pl sa sb) :
    Only pl sa (channelRetrain k ok sb) := by
  unfold channelRetrain
  try dsimp only
  repeat'
    with_reducible (first
      | assumption | exact List.Subset.trans (by decide) hp | apply Only.gite | apply Only.gdite | apply bump_parts
      | apply modChan_parts | apply raiseCause_parts | apply log_parts | (intro _) | split)

theorem scrubRead_parts {pl : List Part} {sa sb : State} (k : Nat) (bank : Nat) (at_ : Nat) (r : BurstResult)
    (hp : [.mem, .dict, .host, .can, .log, .pwr, .sent] ⊆ pl) (hk : Only pl sa sb) :
    Only pl sa (scrubRead k bank at_ r sb) := by
  unfold scrubRead
  try dsimp only
  repeat'
    with_reducible (first
      | assumption | exact List.Subset.trans (by decide) hp | apply Only.gite | apply Only.gdite | apply log_parts
      | apply bumpChan_parts | apply bump_parts | apply modChan_parts | apply poisonLine_parts | (intro _) | split)

theorem backgroundChan_parts {pl : List Part} {sa sb : State} (m : Nat) (k : Nat) (scrub : Bool) (r : BurstResult)
    (hp : [.mem, .dict, .host, .can, .log, .pwr, .sent] ⊆ pl) (hk : Only pl sa sb) :
    Only pl sa (backgroundChan m k scrub r sb) := by
  unfold backgroundChan
  try dsimp only
  repeat'
    with_reducible (first
      | assumption | exact List.Subset.trans (by decide) hp | apply Only.gite | apply Only.gdite | apply modChan_parts
      | apply scrubRead_parts | apply bump_parts | (intro _) | split)

theorem backgroundSlot_parts {pl : List Part} {sa sb : State} (found : List (Fin 128 × BurstResult))
    (hp : [.time, .mem, .dict, .host, .can, .log, .pwr, .sent] ⊆ pl) (hk : Only pl sa sb) :
    Only pl sa (backgroundSlot found sb) := by
  unfold backgroundSlot
  try dsimp only
  repeat'
    with_reducible (first
      | assumption | exact List.Subset.trans (by decide) hp | apply Only.gite | apply Only.gdite | apply advanceTo_parts
      | apply backgroundChan_parts | apply Only.foldl | apply Only.foldl_snd | apply Only.foldl_fst | (intro _) | split)

theorem burstDone_parts {pl : List Part} {sa sb : State} (k : Nat) (b : Nat × Bool × Nat) (hp : [.mem] ⊆ pl)
    (hk : Only pl sa sb) :
    Only pl sa (burstDone k b sb) := by
  unfold burstDone
  try dsimp only
  repeat'
    with_reducible (first
      | assumption | exact List.Subset.trans (by decide) hp | apply Only.gite | apply Only.gdite | apply modChan_parts
      | (intro _) | split)

theorem burstAgain_parts {pl : List Part} {sa sb : State} (k : Nat) (b : Nat × Bool × Nat) (read : Bool)
    (hp : [.mem, .dict, .host, .can, .log, .pwr, .sent] ⊆ pl) (hk : Only pl sa sb) :
    Only pl sa (burstAgain k b read sb) := by
  unfold burstAgain
  try dsimp only
  repeat'
    with_reducible (first
      | assumption | exact List.Subset.trans (by decide) hp | apply Only.gite | apply Only.gdite | apply bump_parts
      | apply modChan_parts | apply startRetrain_parts | apply countBad_parts | apply poisonLine_parts
      | apply burstDone_parts | (intro _) | split)

theorem burstResult_parts {pl : List Part} {sa sb : State} (k : Nat) (b : Nat × Bool × Nat) (r : BurstResult)
    (hp : [.mem, .dict, .host, .can, .log, .pwr, .sent] ⊆ pl) (hk : Only pl sa sb) :
    Only pl sa (burstResult k b r sb) := by
  unfold burstResult
  try dsimp only
  repeat'
    with_reducible (first
      | assumption | exact List.Subset.trans (by decide) hp | apply Only.gite | apply Only.gdite | apply burstDone_parts
      | apply log_parts | apply bumpChan_parts | apply bump_parts | apply countBad_parts | apply poisonLine_parts
      | apply burstAgain_parts | (intro _) | split)

theorem burstSlot_parts {pl : List Part} {sa sb : State} (results : List (Fin 128 × BurstResult))
    (hp : [.time, .mem, .dict, .host, .can, .log, .pwr, .sent] ⊆ pl) (hk : Only pl sa sb) :
    Only pl sa (burstSlot results sb) := by
  unfold burstSlot
  try dsimp only
  repeat'
    with_reducible (first
      | assumption | exact List.Subset.trans (by decide) hp | apply Only.gite | apply Only.gdite | apply advanceTo_parts
      | apply burstResult_parts | apply Only.foldl | apply Only.foldl_snd | apply Only.foldl_fst | (intro _) | split)

theorem bar2Closed_parts {pl : List Part} {sa sb : State} (hp : [.dict, .sent] ⊆ pl) (hk : Only pl sa sb) :
    Only pl sa (bar2Closed sb) := by
  unfold bar2Closed
  try dsimp only
  repeat'
    with_reducible (first
      | assumption | exact List.Subset.trans (by decide) hp | apply Only.gite | apply Only.gdite | apply emit_parts
      | apply bump_parts | (intro _) | split)

theorem bar2Read_parts {pl : List Part} {sa sb : State} (x : Nat) (n : Nat) (hp : [.mem, .dict, .sent] ⊆ pl)
    (hk : Only pl sa sb) :
    Only pl sa (bar2Read x n sb) := by
  unfold bar2Read
  try dsimp only
  repeat'
    with_reducible (first
      | assumption | exact List.Subset.trans (by decide) hp | apply Only.gite | apply Only.gdite | apply emit_parts
      | apply bar2Closed_parts | apply touchLine_parts | apply Only.foldl | apply Only.foldl_snd | apply Only.foldl_fst
      | (intro _) | split)

theorem bar2Line_parts {pl : List Part} {sa sb : State} (line : Nat) (off : Nat) (data : List (Option Byte))
    (hp : [.bep, .mem, .dict, .host, .can, .log, .pwr, .sent] ⊆ pl) (hk : Only pl sa sb) :
    Only pl sa (bar2Line line off data sb) := by
  unfold bar2Line
  try dsimp only
  repeat'
    with_reducible (first
      | assumption | exact List.Subset.trans (by decide) hp | apply Only.gite | apply Only.gdite | apply writeLine_parts
      | apply Only.foldl | apply Only.foldl_snd | apply Only.foldl_fst | (intro _) | split)

theorem bar2Write_parts {pl : List Part} {sa sb : State} (x : Nat) (data : List (Option Byte))
    (hp : [.bep, .mem, .dict, .host, .can, .log, .pwr, .sent] ⊆ pl) (hk : Only pl sa sb) :
    Only pl sa (bar2Write x data sb) := by
  unfold bar2Write
  try dsimp only
  repeat'
    with_reducible (first
      | assumption | exact List.Subset.trans (by decide) hp | apply Only.gite | apply Only.gdite | apply bar2Closed_parts
      | apply bar2Line_parts | apply Only.foldl | apply Only.foldl_snd | apply Only.foldl_fst | (intro _) | split)

end Sys2Proof.Machine
end

