-- ==== Sys2Proof/Laws/OnlyHostFunction.lean ====
section
/-! SUPPORT. What the operations of Machine/HostFunction.lean may change. -/

namespace Sys2Proof.Machine

open Sys2Proof

set_option linter.unusedTactic false
set_option linter.unreachableTactic false

theorem whole_parts {pl : List Part} {sa sb : State} (b : Dword) (f : Nat → State → State)
    (h_f : ∀ (x0 : Nat) (u : State), Only pl sa u → Only pl sa (f x0 u)) (hp : [.host] ⊆ pl) (hk : Only pl sa sb) :
    Only pl sa (whole b f sb) := by
  unfold whole
  try dsimp only
  repeat'
    with_reducible (first
      | assumption | exact List.Subset.trans (by decide) hp | apply Only.gite | apply Only.gdite | apply h_f
      | apply countIgnored_parts | (intro _) | split)

theorem resetRequest_parts {pl : List Part} {sa sb : State} (v : Nat)
    (hp : [.time, .ports, .sw, .routes, .bep, .ep, .grotto, .cal, .cmp, .coll, .xlat, .mem, .dict, .host, .can, .sec, .log, .lantern, .muster, .pwr, .resets, .sent] ⊆ pl)
    (hk : Only pl sa sb) :
    Only pl sa (resetRequest v sb) := by
  unfold resetRequest
  try dsimp only
  repeat'
    with_reducible (first
      | assumption | exact List.Subset.trans (by decide) hp | apply Only.gite | apply Only.gdite | apply requestReset_parts
      | apply countIgnored_parts | (intro _) | split)

theorem clearCauses_parts {pl : List Part} {sa sb : State} (v : BitVec 64) (hp : [.host] ⊆ pl) (hk : Only pl sa sb) :
    Only pl sa (clearCauses v sb) := by
  unfold clearCauses
  try dsimp only
  repeat'
    with_reducible (first
      | assumption | exact List.Subset.trans (by decide) hp | apply Only.gite | apply Only.gdite | apply modHost_parts
      | (intro _) | split)

theorem writeCtxRegister_parts {pl : List Part} {sa sb : State} (k : Nat) (o : Nat) (b : Dword)
    (hp : [.cmp, .dict, .host, .can, .log, .pwr, .sent] ⊆ pl) (hk : Only pl sa sb) :
    Only pl sa (writeCtxRegister k o b sb) := by
  unfold writeCtxRegister
  try dsimp only
  repeat'
    with_reducible (first
      | assumption | exact List.Subset.trans (by decide) hp | apply Only.gite | apply Only.gdite | apply modCtx_parts
      | apply whole_parts | apply contextAction_parts | apply producerWrite_parts | (intro _) | split)

theorem writeBar0_parts {pl : List Part} {sa sb : State} (o : Nat) (b : Dword)
    (hp : [.time, .ports, .sw, .routes, .bep, .ep, .grotto, .cal, .cmp, .coll, .xlat, .mem, .dict, .host, .can, .sec, .log, .lantern, .muster, .pwr, .resets, .sent] ⊆ pl)
    (hk : Only pl sa sb) :
    Only pl sa (writeBar0 o b sb) := by
  unfold writeBar0
  try dsimp only
  repeat'
    with_reducible (first
      | assumption | exact List.Subset.trans (by decide) hp | apply Only.gite | apply Only.gdite | apply modHost_parts
      | apply whole_parts | apply mailboxDoorbell_parts | apply resetRequest_parts | apply clearCauses_parts
      | apply writeCtxRegister_parts | (intro _) | split)

theorem sendPending_parts {pl : List Part} {sa sb : State} (hp : [.host, .sent] ⊆ pl) (hk : Only pl sa sb) :
    Only pl sa (sendPending sb) := by
  unfold sendPending
  try dsimp only
  repeat'
    with_reducible (first
      | assumption | exact List.Subset.trans (by decide) hp | apply Only.gite | apply Only.gdite | apply emit_parts
      | apply modHost_parts | apply Only.foldl | apply Only.foldl_snd | apply Only.foldl_fst | (intro _) | split)

theorem writeBar4_parts {pl : List Part} {sa sb : State} (o : Nat) (b : Dword) (hp : [.host, .sent] ⊆ pl)
    (hk : Only pl sa sb) :
    Only pl sa (writeBar4 o b sb) := by
  unfold writeBar4
  try dsimp only
  repeat'
    with_reducible (first
      | assumption | exact List.Subset.trans (by decide) hp | apply Only.gite | apply Only.gdite | apply sendPending_parts
      | apply modHost_parts | (intro _) | split)

theorem functionReset_parts {pl : List Part} {sa sb : State}
    (hp : [.bep, .ep, .grotto, .cmp, .xlat, .mem, .dict, .host, .can, .sec, .log, .pwr, .sent] ⊆ pl)
    (hk : Only pl sa sb) :
    Only pl sa (functionReset sb) := by
  unfold functionReset
  try dsimp only
  repeat'
    with_reducible (first
      | assumption | exact List.Subset.trans (by decide) hp | apply Only.gite | apply Only.gdite | apply abortCtx_parts
      | apply stopPages_parts | apply invalidateEvery_parts | apply modXlat_parts | apply dropSessions_parts
      | apply modHost_parts | apply Only.foldl | apply Only.foldl_snd | apply Only.foldl_fst | (intro _) | split)

theorem powerState_parts {pl : List Part} {sa sb : State} (d3hot : Bool) (hp : [.host] ⊆ pl) (hk : Only pl sa sb) :
    Only pl sa (powerState d3hot sb) := by
  unfold powerState
  try dsimp only
  repeat'
    with_reducible (first
      | assumption | exact List.Subset.trans (by decide) hp | apply Only.gite | apply Only.gdite | apply modHost_parts
      | (intro _) | split)

theorem setAts_parts {pl : List Part} {sa sb : State} (on : Bool) (hp : [.xlat] ⊆ pl) (hk : Only pl sa sb) :
    Only pl sa (setAts on sb) := by
  unfold setAts
  try dsimp only
  repeat'
    with_reducible (first
      | assumption | exact List.Subset.trans (by decide) hp | apply Only.gite | apply Only.gdite | apply modXlat_parts
      | (intro _) | split)

theorem setPri_parts {pl : List Part} {sa sb : State} (v : Byte)
    (hp : [.cmp, .xlat, .dict, .host, .can, .log, .pwr, .sent] ⊆ pl) (hk : Only pl sa sb) :
    Only pl sa (setPri v sb) := by
  unfold setPri
  try dsimp only
  repeat'
    with_reducible (first
      | assumption | exact List.Subset.trans (by decide) hp | apply Only.gite | apply Only.gdite | apply stopPages_parts
      | apply modXlat_parts | (intro _) | split)

theorem setConfig_parts {pl : List Part} {sa sb : State} (o : Nat) (b : Dword) (hp : [.host] ⊆ pl) (hk : Only pl sa sb) :
    Only pl sa (setConfig o b sb) := by
  unfold setConfig
  try dsimp only
  repeat'
    with_reducible (first
      | assumption | exact List.Subset.trans (by decide) hp | apply Only.gite | apply Only.gdite | apply modHost_parts
      | (intro _) | split)

theorem onByte_parts {pl : List Part} {sa sb : State} (b : Dword) (i : Nat) (f : Byte → State → State)
    (h_f : ∀ (x0 : Byte) (u : State), Only pl sa u → Only pl sa (f x0 u)) (hp : [] ⊆ pl) (hk : Only pl sa sb) :
    Only pl sa (onByte b i f sb) := by
  unfold onByte
  try dsimp only
  repeat'
    with_reducible (first
      | assumption | exact List.Subset.trans (by decide) hp | apply Only.gite | apply Only.gdite | apply h_f | (intro _)
      | split)

theorem writeConfig_parts {pl : List Part} {sa sb : State} (o : Nat) (b : Dword)
    (hp : [.bep, .ep, .grotto, .cmp, .xlat, .mem, .dict, .host, .can, .sec, .log, .pwr, .sent] ⊆ pl)
    (hk : Only pl sa sb) :
    Only pl sa (writeConfig o b sb) := by
  unfold writeConfig
  try dsimp only
  repeat'
    with_reducible (first
      | assumption | exact List.Subset.trans (by decide) hp | apply Only.gite | apply Only.gdite | apply onByte_parts
      | apply powerState_parts | apply functionReset_parts | apply setConfig_parts | apply sendPending_parts
      | apply modHost_parts | apply setAts_parts | apply modXlat_parts | apply setPri_parts | (intro _) | split)

theorem writeDword_parts {pl : List Part} {sa sb : State} (o : Nat) (b : Dword)
    (hp : [.time, .ports, .sw, .routes, .bep, .ep, .grotto, .cal, .cmp, .coll, .xlat, .mem, .dict, .host, .can, .sec, .log, .lantern, .muster, .pwr, .resets, .sent] ⊆ pl)
    (hk : Only pl sa sb) :
    Only pl sa (writeDword o b sb) := by
  unfold writeDword
  try dsimp only
  repeat'
    with_reducible (first
      | assumption | exact List.Subset.trans (by decide) hp | apply Only.gite | apply Only.gdite | apply barWrite_parts
      | apply writeBar0_parts | apply writeConfig_parts | apply writeBar4_parts | (intro _) | split)

theorem registerWrite_parts {pl : List Part} {sa sb : State} (off : Nat) (data : List (Option Byte))
    (hp : [.time, .ports, .sw, .routes, .bep, .ep, .grotto, .cal, .cmp, .coll, .xlat, .mem, .dict, .host, .can, .sec, .log, .lantern, .muster, .pwr, .resets, .sent] ⊆ pl)
    (hk : Only pl sa sb) :
    Only pl sa (registerWrite off data sb) := by
  unfold registerWrite
  try dsimp only
  repeat'
    with_reducible (first
      | assumption | exact List.Subset.trans (by decide) hp | apply Only.gite | apply Only.gdite | apply writeDword_parts
      | apply Only.foldl | apply Only.foldl_snd | apply Only.foldl_fst | (intro _) | split)

theorem doeDiscovery_parts {pl : List Part} {sa sb : State} (index : Nat) (dwords : Nat) (hp : [.host, .sent] ⊆ pl)
    (hk : Only pl sa sb) :
    Only pl sa (doeDiscovery index dwords sb) := by
  unfold doeDiscovery
  try dsimp only
  repeat'
    with_reducible (first
      | assumption | exact List.Subset.trans (by decide) hp | apply Only.gite | apply Only.gdite | apply modHost_parts
      | apply emit_parts | (intro _) | split)

end Sys2Proof.Machine
end

