-- ==== Sys2Proof/Laws/OnlyKeying.lean ====
section
/-! SUPPORT. What the operations of Machine/Keying.lean may change. -/

namespace Sys2Proof.Machine

open Sys2Proof

set_option linter.unusedTactic false
set_option linter.unreachableTactic false

theorem modKey_parts {pl : List Part} {sa sb : State} (p : PortN) (f : Keying → Keying) (hp : [.ports] ⊆ pl)
    (hk : Only pl sa sb) :
    Only pl sa (modKey p f sb) := by
  unfold modKey
  try dsimp only
  repeat'
    with_reducible (first
      | assumption | exact List.Subset.trans (by decide) hp | apply Only.gite | apply Only.gdite | apply modPort_parts
      | (intro _) | split)

theorem sendKeying_parts {pl : List Part} {sa sb : State} (p : PortN) (sub : Nat) (data : Bytes)
    (hp : [.ports, .sw, .dict, .host, .can, .log, .pwr, .sent] ⊆ pl) (hk : Only pl sa sb) :
    Only pl sa (sendKeying p sub data sb) := by
  unfold sendKeying
  try dsimp only
  repeat'
    with_reducible (first
      | assumption | exact List.Subset.trans (by decide) hp | apply Only.gite | apply Only.gdite | apply sendMus_parts
      | apply modKey_parts | apply Only.foldl | apply Only.foldl_snd | apply Only.foldl_fst | (intro _) | split)

theorem startHandshake_parts {pl : List Part} {sa sb : State} (p : PortN)
    (hp : [.ports, .sw, .dict, .host, .can, .log, .pwr, .sent, .free] ⊆ pl) (hk : Only pl sa sb) :
    Only pl sa (startHandshake p sb) := by
  unfold startHandshake
  try dsimp only
  repeat'
    with_reducible (first
      | assumption | exact List.Subset.trans (by decide) hp | apply Only.gite | apply Only.gdite | apply drawn_parts
      | apply modKey_parts | apply sendKeying_parts | (intro _) | split)

theorem beginKeying_parts {pl : List Part} {sa sb : State} (p : PortN)
    (hp : [.ports, .sw, .dict, .host, .can, .log, .pwr, .sent, .free] ⊆ pl) (hk : Only pl sa sb) :
    Only pl sa (beginKeying p sb) := by
  unfold beginKeying
  try dsimp only
  repeat'
    with_reducible (first
      | assumption | exact List.Subset.trans (by decide) hp | apply Only.gite | apply Only.gdite | apply startHandshake_parts
      | (intro _) | split)

theorem failKeying_parts {pl : List Part} {sa sb : State} (p : PortN) (stage : Nat)
    (hp : [.ports, .dict, .host, .can, .log, .pwr, .sent] ⊆ pl) (hk : Only pl sa sb) :
    Only pl sa (failKeying p stage sb) := by
  unfold failKeying
  try dsimp only
  repeat'
    with_reducible (first
      | assumption | exact List.Subset.trans (by decide) hp | apply Only.gite | apply Only.gdite | apply log_parts
      | apply bump_parts | apply modKey_parts | (intro _) | split)

theorem keyOfferReceive_parts {pl : List Part} {sa sb : State} (p : PortN) (o : KeyOffer)
    (hp : [.ports, .sw, .dict, .host, .can, .log, .pwr, .sent, .free] ⊆ pl) (hk : Only pl sa sb) :
    Only pl sa (keyOfferReceive p o sb) := by
  unfold keyOfferReceive
  try dsimp only
  repeat'
    with_reducible (first
      | assumption | exact List.Subset.trans (by decide) hp | apply Only.gite | apply Only.gdite | apply takeMus_parts
      | apply startHandshake_parts | apply failKeying_parts | apply modKey_parts | apply sendKeying_parts | (intro _)
      | split)

theorem keyProofReceive_parts {pl : List Part} {sa sb : State} (p : PortN) (signature : Bytes)
    (hp : [.ports, .dict, .host, .can, .log, .pwr, .sent] ⊆ pl) (hk : Only pl sa sb) :
    Only pl sa (keyProofReceive p signature sb) := by
  unfold keyProofReceive
  try dsimp only
  repeat'
    with_reducible (first
      | assumption | exact List.Subset.trans (by decide) hp | apply Only.gite | apply Only.gdite | apply takeMus_parts
      | apply modKey_parts | apply failKeying_parts | (intro _) | split)

theorem startKey_parts {pl : List Part} {sa sb : State} (p : PortN)
    (hp : [.ports, .sw, .dict, .host, .can, .log, .pwr, .sent, .free] ⊆ pl) (hk : Only pl sa sb) :
    Only pl sa (startKey p sb) := by
  unfold startKey
  try dsimp only
  repeat'
    with_reducible (first
      | assumption | exact List.Subset.trans (by decide) hp | apply Only.gite | apply Only.gdite | apply drawn_parts
      | apply modKey_parts | apply sendKeying_parts | apply bump_parts | (intro _) | split)

theorem keyStartReceive_parts {pl : List Part} {sa sb : State} (p : PortN) (n : Bytes) (start : Nat)
    (hp : [.ports, .sw, .dict, .host, .can, .log, .pwr, .sent, .free] ⊆ pl) (hk : Only pl sa sb) :
    Only pl sa (keyStartReceive p n start sb) := by
  unfold keyStartReceive
  try dsimp only
  repeat'
    with_reducible (first
      | assumption | exact List.Subset.trans (by decide) hp | apply Only.gite | apply Only.gdite | apply takeMus_parts
      | apply drawn_parts | apply modKey_parts | apply sendKeying_parts | (intro _) | split)

theorem keyAckReceive_parts {pl : List Part} {sa sb : State} (p : PortN) (n : Bytes) (start : Nat) (hp : [.ports] ⊆ pl)
    (hk : Only pl sa sb) :
    Only pl sa (keyAckReceive p n start sb) := by
  unfold keyAckReceive
  try dsimp only
  repeat'
    with_reducible (first
      | assumption | exact List.Subset.trans (by decide) hp | apply Only.gite | apply Only.gdite | apply takeMus_parts
      | apply modKey_parts | (intro _) | split)

theorem keySwitch_parts {pl : List Part} {sa sb : State} (p : PortN)
    (hp : [.time, .ports, .sw, .dict, .host, .can, .log, .pwr, .sent, .free] ⊆ pl) (hk : Only pl sa sb) :
    Only pl sa (keySwitch p sb) := by
  unfold keySwitch
  try dsimp only
  repeat'
    with_reducible (first
      | assumption | exact List.Subset.trans (by decide) hp | apply Only.gite | apply Only.gdite | apply advanceTo_parts
      | apply modKey_parts | apply resendCells_parts | apply startKey_parts | apply bump_parts | (intro _) | split)

theorem keyResend_parts {pl : List Part} {sa sb : State} (p : PortN)
    (hp : [.ports, .sw, .dict, .host, .can, .log, .pwr, .sent] ⊆ pl) (hk : Only pl sa sb) :
    Only pl sa (keyResend p sb) := by
  unfold keyResend
  try dsimp only
  repeat'
    with_reducible (first
      | assumption | exact List.Subset.trans (by decide) hp | apply Only.gite | apply Only.gdite | apply failKeying_parts
      | apply modKey_parts | apply sendKeying_parts | (intro _) | split)

theorem keyRetry_parts {pl : List Part} {sa sb : State} (p : PortN)
    (hp : [.ports, .sw, .dict, .host, .can, .log, .pwr, .sent, .free] ⊆ pl) (hk : Only pl sa sb) :
    Only pl sa (keyRetry p sb) := by
  unfold keyRetry
  try dsimp only
  repeat'
    with_reducible (first
      | assumption | exact List.Subset.trans (by decide) hp | apply Only.gite | apply Only.gdite | apply startHandshake_parts
      | (intro _) | split)

end Sys2Proof.Machine
end

