-- ==== Sys2Proof/Laws/OnlyPower.lean ====
section
/-! SUPPORT. What the operations of Machine/Power.lean may change. -/

namespace Sys2Proof.Machine

open Sys2Proof

set_option linter.unusedTactic false
set_option linter.unreachableTactic false

theorem sensorFails_parts {pl : List Part} {sa sb : State} (i : Nat) (hp : [.dict, .host, .can, .log, .pwr, .sent] ⊆ pl)
    (hk : Only pl sa sb) :
    Only pl sa (sensorFails i sb) := by
  unfold sensorFails
  try dsimp only
  repeat'
    with_reducible (first
      | assumption | exact List.Subset.trans (by decide) hp | apply Only.gite | apply Only.gdite | apply modPwr_parts
      | apply log_parts | apply bump_parts | (intro _) | split)

theorem trip_parts {pl : List Part} {sa sb : State} (sensor : Nat) (reading : Nat)
    (hp : [.ports, .sw, .bep, .ep, .grotto, .cmp, .coll, .mem, .dict, .host, .can, .log, .lantern, .muster, .pwr, .sent] ⊆ pl)
    (hk : Only pl sa sb) :
    Only pl sa (trip sensor reading sb) := by
  unfold trip
  try dsimp only
  repeat'
    with_reducible (first
      | assumption | exact List.Subset.trans (by decide) hp | apply Only.gite | apply Only.gdite | apply modPwr_parts
      | apply forPorts_parts | apply toDisabled_parts | apply abortCtx_parts | apply raiseCause_parts | apply log_parts
      | apply bump_parts | apply Only.foldl | apply Only.foldl_snd | apply Only.foldl_fst | (intro _) | split
      | refine Only.mem_upd (partMem hp (by decide)) ?_)

theorem engineSample_parts {pl : List Part} {sa sb : State} (p : PortN) (reading : Int)
    (hp : [.time, .ports, .dict, .host, .can, .log, .pwr, .sent] ⊆ pl) (hk : Only pl sa sb) :
    Only pl sa (engineSample p reading sb) := by
  unfold engineSample
  try dsimp only
  repeat'
    with_reducible (first
      | assumption | exact List.Subset.trans (by decide) hp | apply Only.gite | apply Only.gdite | apply modPwr_parts
      | apply log_parts | apply bump_parts | apply lasersOff_parts | apply lookAlert_parts | apply modPort_parts | (intro _)
      | split)

theorem dieSample_parts {pl : List Part} {sa sb : State} (i : Nat) (reading : Int)
    (hp : [.ports, .sw, .bep, .ep, .grotto, .cmp, .coll, .mem, .dict, .host, .can, .log, .lantern, .muster, .pwr, .sent] ⊆ pl)
    (hk : Only pl sa sb) :
    Only pl sa (dieSample i reading sb) := by
  unfold dieSample
  try dsimp only
  repeat'
    with_reducible (first
      | assumption | exact List.Subset.trans (by decide) hp | apply Only.gite | apply Only.gdite | apply trip_parts
      | apply modPwr_parts | (intro _) | split)

theorem temperatureSample_parts {pl : List Part} {sa sb : State} (i : Nat) (reading : Option Int)
    (hp : [.time, .ports, .sw, .bep, .ep, .grotto, .cmp, .coll, .mem, .dict, .host, .can, .log, .lantern, .muster, .pwr, .sent] ⊆ pl)
    (hk : Only pl sa sb) :
    Only pl sa (temperatureSample i reading sb) := by
  unfold temperatureSample
  try dsimp only
  repeat'
    with_reducible (first
      | assumption | exact List.Subset.trans (by decide) hp | apply Only.gite | apply Only.gdite | apply sensorFails_parts
      | apply modPwr_parts | apply engineSample_parts | apply dieSample_parts | (intro _) | split)

theorem railLow_parts {pl : List Part} {sa sb : State} (m : Nat) (v : Nat)
    (hp : [.time, .ports, .sw, .routes, .bep, .ep, .grotto, .cal, .cmp, .coll, .xlat, .mem, .dict, .host, .can, .sec, .log, .lantern, .muster, .pwr, .resets, .sent] ⊆ pl)
    (hk : Only pl sa sb) :
    Only pl sa (railLow m v sb) := by
  unfold railLow
  try dsimp only
  repeat'
    with_reducible (first
      | assumption | exact List.Subset.trans (by decide) hp | apply Only.gite | apply Only.gdite | apply modPwr_parts
      | apply enterCold_parts | apply log_parts | apply bump_parts | apply forPorts_parts | apply lasersOff_parts
      | apply flushLog_parts | (intro _) | split)

theorem voltageSample_parts {pl : List Part} {sa sb : State} (m : Nat) (v : Nat)
    (hp : [.time, .ports, .sw, .routes, .bep, .ep, .grotto, .cal, .cmp, .coll, .xlat, .mem, .dict, .host, .can, .sec, .log, .lantern, .muster, .pwr, .resets, .sent] ⊆ pl)
    (hk : Only pl sa sb) :
    Only pl sa (voltageSample m v sb) := by
  unfold voltageSample
  try dsimp only
  repeat'
    with_reducible (first
      | assumption | exact List.Subset.trans (by decide) hp | apply Only.gite | apply Only.gdite | apply modPwr_parts
      | apply log_parts | apply bump_parts | apply railLow_parts | apply lookAlert_parts | (intro _) | split)

theorem engineRestart_parts {pl : List Part} {sa sb : State} (hp : [.ports, .pwr] ⊆ pl) (hk : Only pl sa sb) :
    Only pl sa (engineRestart sb) := by
  unfold engineRestart
  try dsimp only
  repeat'
    with_reducible (first
      | assumption | exact List.Subset.trans (by decide) hp | apply Only.gite | apply Only.gdite | apply modPwr_parts
      | apply forPorts_parts | apply modPort_parts | (intro _) | split)

theorem resetRelease_parts {pl : List Part} {sa sb : State}
    (hp : [.time, .ports, .sw, .routes, .bep, .ep, .grotto, .cal, .cmp, .coll, .xlat, .mem, .dict, .host, .can, .sec, .log, .lantern, .muster, .pwr, .resets, .sent] ⊆ pl)
    (hk : Only pl sa sb) :
    Only pl sa (resetRelease sb) := by
  unfold resetRelease
  try dsimp only
  repeat'
    with_reducible (first
      | assumption | exact List.Subset.trans (by decide) hp | apply Only.gite | apply Only.gdite | apply enterCold_parts
      | apply modPwr_parts | apply finishCold_parts | apply log_parts | apply Only.foldl | apply Only.foldl_snd
      | apply Only.foldl_fst | (intro _) | split)

theorem supplyRestore_parts {pl : List Part} {sa sb : State}
    (hp : [.ports, .sw, .bep, .ep, .grotto, .coll, .mem, .dict, .host, .can, .sec, .log, .lantern, .muster, .pwr, .resets, .sent] ⊆ pl)
    (hk : Only pl sa sb) :
    Only pl sa (supplyRestore sb) := by
  unfold supplyRestore
  try dsimp only
  repeat'
    with_reducible (first
      | assumption | exact List.Subset.trans (by decide) hp | apply Only.gite | apply Only.gdite | apply finishCold_parts
      | apply modPwr_parts | (intro _) | split)

theorem powerLoss_parts {pl : List Part} {sa sb : State}
    (hp : [.time, .ports, .sw, .routes, .bep, .ep, .grotto, .cal, .cmp, .coll, .xlat, .mem, .dict, .host, .can, .sec, .log, .lantern, .muster, .pwr, .resets, .sent] ⊆ pl)
    (hk : Only pl sa sb) :
    Only pl sa (powerLoss sb) := by
  unfold powerLoss
  try dsimp only
  repeat'
    with_reducible (first
      | assumption | exact List.Subset.trans (by decide) hp | apply Only.gite | apply Only.gdite | apply enterCold_parts
      | apply modPwr_parts | (intro _) | split)

theorem pwrWarnAssert_parts {pl : List Part} {sa sb : State} (hp : [.dict, .host, .can, .sec, .log, .pwr, .sent] ⊆ pl)
    (hk : Only pl sa sb) :
    Only pl sa (pwrWarnAssert sb) := by
  unfold pwrWarnAssert
  try dsimp only
  repeat'
    with_reducible (first
      | assumption | exact List.Subset.trans (by decide) hp | apply Only.gite | apply Only.gdite | apply log_parts
      | apply abandonFirmware_parts | apply flushLog_parts | apply modPwr_parts | (intro _) | split
      | refine Only.dict_upd (partMem hp (by decide)) ?_)

theorem pwrWarnRelease_parts {pl : List Part} {sa sb : State} (hp : [.dict, .host, .can, .log, .pwr, .sent] ⊆ pl)
    (hk : Only pl sa sb) :
    Only pl sa (pwrWarnRelease sb) := by
  unfold pwrWarnRelease
  try dsimp only
  repeat'
    with_reducible (first
      | assumption | exact List.Subset.trans (by decide) hp | apply Only.gite | apply Only.gdite | apply log_parts
      | apply modPwr_parts | (intro _) | split)

theorem refclkLoss_parts {pl : List Part} {sa sb : State}
    (hp : [.time, .ports, .sw, .routes, .bep, .ep, .grotto, .cal, .cmp, .coll, .xlat, .mem, .dict, .host, .can, .sec, .log, .lantern, .muster, .pwr, .resets, .sent] ⊆ pl)
    (hk : Only pl sa sb) :
    Only pl sa (refclkLoss sb) := by
  unfold refclkLoss
  try dsimp only
  repeat'
    with_reducible (first
      | assumption | exact List.Subset.trans (by decide) hp | apply Only.gite | apply Only.gdite | apply log_parts
      | apply bump_parts | apply modPwr_parts | apply requestReset_parts | (intro _) | split)

theorem refclkRestore_parts {pl : List Part} {sa sb : State}
    (hp : [.time, .ports, .sw, .routes, .bep, .ep, .grotto, .cal, .cmp, .coll, .xlat, .mem, .dict, .host, .can, .sec, .log, .lantern, .muster, .pwr, .resets, .sent] ⊆ pl)
    (hk : Only pl sa sb) :
    Only pl sa (refclkRestore sb) := by
  unfold refclkRestore
  try dsimp only
  repeat'
    with_reducible (first
      | assumption | exact List.Subset.trans (by decide) hp | apply Only.gite | apply Only.gdite | apply log_parts
      | apply modPwr_parts | apply leaveWarm_parts | apply warmPortsDown_parts | apply wakePorts_parts | (intro _) | split)

theorem auxclkLoss_parts {pl : List Part} {sa sb : State}
    (hp : [.cmp, .dict, .host, .can, .sec, .pwr, .resets, .sent] ⊆ pl) (hk : Only pl sa sb) :
    Only pl sa (auxclkLoss sb) := by
  unfold auxclkLoss
  try dsimp only
  repeat'
    with_reducible (first
      | assumption | exact List.Subset.trans (by decide) hp | apply Only.gite | apply Only.gdite | apply modPwr_parts
      | apply stopManagement_parts | apply modResets_parts | (intro _) | split)

theorem throttleEvaluation_parts {pl : List Part} {sa sb : State} (power : Option Nat)
    (hp : [.time, .dict, .host, .can, .log, .pwr, .sent] ⊆ pl) (hk : Only pl sa sb) :
    Only pl sa (throttleEvaluation power sb) := by
  unfold throttleEvaluation
  try dsimp only
  repeat'
    with_reducible (first
      | assumption | exact List.Subset.trans (by decide) hp | apply Only.gite | apply Only.gdite | apply advanceTo_parts
      | apply bump_parts | apply modPwr_parts | apply log_parts | apply lookAlert_parts | (intro _) | split)

theorem jtagSelect_parts {pl : List Part} {sa sb : State} (i : Jtag) (data : Bytes) (hp : [.pwr, .sent] ⊆ pl)
    (hk : Only pl sa sb) :
    Only pl sa (jtagSelect i data sb) := by
  unfold jtagSelect
  try dsimp only
  repeat'
    with_reducible (first
      | assumption | exact List.Subset.trans (by decide) hp | apply Only.gite | apply Only.gdite | apply emit_parts
      | apply modPwr_parts | (intro _) | split)

theorem capture_parts {pl : List Part} {sa sb : State} (i : Jtag) (hp : [.pwr, .sent, .free] ⊆ pl) (hk : Only pl sa sb) :
    Only pl sa (capture i sb) := by
  unfold capture
  try dsimp only
  repeat'
    with_reducible (first
      | assumption | exact List.Subset.trans (by decide) hp | apply Only.gite | apply Only.gdite | apply drawn_parts
      | apply jtagSelect_parts | (intro _) | split)

end Sys2Proof.Machine
end

