-- ==== Sys2Proof/Laws/PartsAccess.lean ====
section
/-! SUPPORT. What each command of Machine/Access.lean may change; each ends in a next state. -/

namespace Sys2Proof.Machine

open Sys2Proof

set_option linter.unusedTactic false
set_option linter.unreachableTactic false

theorem execSpmLd_parts (w : StreamId) (f : IFields) (sb : State) :
    ∃ sc, execSpmLd w f sb = .next sc ∧ Only [.cmp, .dict, .host, .can, .log, .lantern, .pwr, .sent] sb sc := by
  unfold execSpmLd
  try dsimp only
  refine ⟨_, rfl, ?_⟩
  repeat'
    with_reducible (first
      | assumption | exact Only.refl _ _ | exact by decide | apply Only.gite | apply Only.gdite | apply spAccess_parts
      | apply spLoad_parts | (intro _) | split)

theorem execSpmSt_parts (w : StreamId) (f : IFields) (sb : State) :
    ∃ sc, execSpmSt w f sb = .next sc ∧ Only [.cmp, .dict, .host, .can, .log, .lantern, .pwr, .sent] sb sc := by
  unfold execSpmSt
  try dsimp only
  refine ⟨_, rfl, ?_⟩
  repeat'
    with_reducible (first
      | assumption | exact Only.refl _ _ | exact by decide | apply Only.gite | apply Only.gdite | apply spAccess_parts
      | apply spStore_parts | (intro _) | split)

theorem execSpmLdb_parts (w : StreamId) (f : IFields) (sb : State) :
    ∃ sc, execSpmLdb w f sb = .next sc ∧ Only [.cmp, .dict, .host, .can, .log, .lantern, .pwr, .sent] sb sc := by
  unfold execSpmLdb
  try dsimp only
  refine ⟨_, rfl, ?_⟩
  repeat'
    with_reducible (first
      | assumption | exact Only.refl _ _ | exact by decide | apply Only.gite | apply Only.gdite | apply spAccess_parts
      | apply spLoad_parts | (intro _) | split)

theorem execSpmLdg_parts (w : StreamId) (f : IFields) (sb : State) :
    ∃ sc, execSpmLdg w f sb = .next sc ∧ Only [.cmp, .dict, .host, .can, .log, .lantern, .pwr, .sent] sb sc := by
  unfold execSpmLdg
  try dsimp only
  refine ⟨_, rfl, ?_⟩
  repeat'
    with_reducible (first
      | assumption | exact Only.refl _ _ | exact by decide | apply Only.gite | apply Only.gdite | apply spAccess_parts
      | apply spLoad_parts | (intro _) | split)

theorem execSpmStg_parts (w : StreamId) (f : IFields) (sb : State) :
    ∃ sc, execSpmStg w f sb = .next sc ∧ Only [.cmp, .dict, .host, .can, .log, .lantern, .pwr, .sent] sb sc := by
  unfold execSpmStg
  try dsimp only
  refine ⟨_, rfl, ?_⟩
  repeat'
    with_reducible (first
      | assumption | exact Only.refl _ _ | exact by decide | apply Only.gite | apply Only.gdite | apply spAccess_parts
      | apply spStore_parts | (intro _) | split)

theorem execMemLd_parts (w : StreamId) (f : IFields) (sb : State) :
    ∃ sc, execMemLd w f sb = .next sc ∧ Only [.bep, .ep, .grotto, .cmp, .xlat, .mem, .dict, .host, .can, .log, .lantern, .pwr, .sent] sb sc := by
  unfold execMemLd
  try dsimp only
  refine ⟨_, rfl, ?_⟩
  repeat'
    with_reducible (first
      | assumption | exact Only.refl _ _ | exact by decide | apply Only.gite | apply Only.gdite | apply memLoad_parts
      | (intro _) | split)

theorem execMemLdg_parts (w : StreamId) (f : IFields) (sb : State) :
    ∃ sc, execMemLdg w f sb = .next sc ∧ Only [.bep, .ep, .grotto, .cmp, .xlat, .mem, .dict, .host, .can, .log, .lantern, .pwr, .sent] sb sc := by
  unfold execMemLdg
  try dsimp only
  refine ⟨_, rfl, ?_⟩
  repeat'
    with_reducible (first
      | assumption | exact Only.refl _ _ | exact by decide | apply Only.gite | apply Only.gdite | apply memLoad_parts
      | (intro _) | split)

theorem execMemSt_parts (w : StreamId) (f : IFields) (sb : State) :
    ∃ sc, execMemSt w f sb = .next sc ∧ Only [.bep, .ep, .grotto, .cmp, .xlat, .mem, .dict, .host, .can, .log, .lantern, .pwr, .sent] sb sc := by
  unfold execMemSt
  try dsimp only
  refine ⟨_, rfl, ?_⟩
  repeat'
    with_reducible (first
      | assumption | exact Only.refl _ _ | exact by decide | apply Only.gite | apply Only.gdite | apply memStore_parts
      | (intro _) | split)

theorem execMemStg_parts (w : StreamId) (f : IFields) (sb : State) :
    ∃ sc, execMemStg w f sb = .next sc ∧ Only [.bep, .ep, .grotto, .cmp, .xlat, .mem, .dict, .host, .can, .log, .lantern, .pwr, .sent] sb sc := by
  unfold execMemStg
  try dsimp only
  refine ⟨_, rfl, ?_⟩
  repeat'
    with_reducible (first
      | assumption | exact Only.refl _ _ | exact by decide | apply Only.gite | apply Only.gdite | apply memStore_parts
      | (intro _) | split)

theorem execMemLdv_parts (w : StreamId) (f : IFields) (sb : State) :
    ∃ sc, execMemLdv w f sb = .next sc ∧ Only [.bep, .ep, .grotto, .cmp, .xlat, .mem, .dict, .host, .can, .log, .lantern, .pwr, .sent] sb sc := by
  unfold execMemLdv
  try dsimp only
  refine ⟨_, rfl, ?_⟩
  repeat'
    with_reducible (first
      | assumption | exact Only.refl _ _ | exact by decide | apply Only.gite | apply Only.gdite | apply memAccess_parts
      | apply coherentRead_parts | apply modStream_parts | (intro _) | split)

theorem execMemStv_parts (w : StreamId) (f : IFields) (sb : State) :
    ∃ sc, execMemStv w f sb = .next sc ∧ Only [.bep, .ep, .grotto, .cmp, .xlat, .mem, .dict, .host, .can, .log, .lantern, .pwr, .sent] sb sc := by
  unfold execMemStv
  try dsimp only
  refine ⟨_, rfl, ?_⟩
  repeat'
    with_reducible (first
      | assumption | exact Only.refl _ _ | exact by decide | apply Only.gite | apply Only.gdite | apply memAccess_parts
      | apply flushPlaces_parts | apply coherentWrite_parts | apply modStream_parts | apply Only.foldl
      | apply Only.foldl_snd | apply Only.foldl_fst | (intro _) | split)

theorem execMemLda_parts (w : StreamId) (f : IFields) (sb : State) :
    ∃ sc, execMemLda w f sb = .next sc ∧ Only [.bep, .ep, .grotto, .cmp, .xlat, .mem, .dict, .host, .can, .log, .lantern, .pwr, .sent] sb sc := by
  unfold execMemLda
  try dsimp only
  refine ⟨_, rfl, ?_⟩
  repeat'
    with_reducible (first
      | assumption | exact Only.refl _ _ | exact by decide | apply Only.gite | apply Only.gdite | apply wordAccess_parts
      | apply coherentRead_parts | apply checkAcquire_parts | apply modStream_parts | apply acquireSteps_parts
      | apply ctxScope_parts | (intro _) | split)

theorem execMemStl_parts (w : StreamId) (f : IFields) (sb : State) :
    ∃ sc, execMemStl w f sb = .next sc ∧ Only [.bep, .ep, .grotto, .cmp, .xlat, .mem, .dict, .host, .can, .log, .lantern, .pwr, .sent] sb sc := by
  unfold execMemStl
  try dsimp only
  refine ⟨_, rfl, ?_⟩
  repeat'
    with_reducible (first
      | assumption | exact Only.refl _ _ | exact by decide | apply Only.gite | apply Only.gdite | apply wordAccess_parts
      | apply releaseStore_parts | (intro _) | split)

theorem execMemStf_parts (w : StreamId) (f : IFields) (sb : State) :
    ∃ sc, execMemStf w f sb = .next sc ∧ Only [.bep, .ep, .grotto, .cmp, .xlat, .mem, .dict, .host, .can, .log, .lantern, .pwr, .sent] sb sc := by
  unfold execMemStf
  try dsimp only
  split
  all_goals
    refine ⟨_, rfl, ?_⟩
    repeat'
      with_reducible (first
        | assumption | exact Only.refl _ _ | exact by decide | apply Only.gite | apply Only.gdite | apply issue_parts
        | apply ctxFault_parts | apply wordAccess_parts | apply releaseStore_parts | (intro _) | split)

theorem execMemRel_parts (w : StreamId) (f : IFields) (sb : State) :
    ∃ sc, execMemRel w f sb = .next sc ∧ Only [.bep, .ep, .grotto, .cmp, .mem, .dict, .host, .can, .log, .lantern, .pwr, .sent] sb sc := by
  unfold execMemRel
  try dsimp only
  refine ⟨_, rfl, ?_⟩
  repeat'
    with_reducible (first
      | assumption | exact Only.refl _ _ | exact by decide | apply Only.gite | apply Only.gdite | apply issue_parts
      | apply releaseSteps_parts | apply modStream_parts | (intro _) | split)

theorem execMemAcq_parts (w : StreamId) (f : IFields) (sb : State) :
    ∃ sc, execMemAcq w f sb = .next sc ∧ Only [.bep, .ep, .grotto, .cmp, .mem, .dict, .host, .can, .log, .lantern, .pwr, .sent] sb sc := by
  unfold execMemAcq
  try dsimp only
  refine ⟨_, rfl, ?_⟩
  repeat'
    with_reducible (first
      | assumption | exact Only.refl _ _ | exact by decide | apply Only.gite | apply Only.gdite | apply issue_parts
      | apply modStream_parts | apply acquireSteps_parts | (intro _) | split)

theorem execMemAt_parts (w : StreamId) (f : IFields) (sb : State) :
    ∃ sc, execMemAt w f sb = .next sc ∧ Only [.bep, .ep, .grotto, .cmp, .xlat, .mem, .dict, .host, .can, .log, .lantern, .pwr, .sent] sb sc := by
  unfold execMemAt
  try dsimp only
  refine ⟨_, rfl, ?_⟩
  repeat'
    with_reducible (first
      | assumption | exact Only.refl _ _ | exact by decide | apply Only.gite | apply Only.gdite | apply issue_parts
      | apply ctxFault_parts | apply locate_parts | apply flushPlaces_parts | apply modStream_parts | apply lmAtomic_parts
      | apply arraySubmit_parts | (intro _) | split)

theorem execBarC_parts (w : StreamId) (f : IFields) (sb : State) :
    ∃ sc, execBarC w f sb = .next sc ∧ Only [.cmp, .dict, .host, .can, .log, .lantern, .pwr, .sent] sb sc := by
  unfold execBarC
  try dsimp only
  refine ⟨_, rfl, ?_⟩
  repeat'
    with_reducible (first
      | assumption | exact Only.refl _ _ | exact by decide | apply Only.gite | apply Only.gdite | apply issue_parts
      | apply modStream_parts | apply passBarrier_parts | (intro _) | split)

theorem execBarG_parts (w : StreamId) (f : IFields) (sb : State) :
    ∃ sc, execBarG w f sb = .next sc ∧ Only [.bep, .ep, .grotto, .cmp, .mem, .dict, .host, .can, .log, .lantern, .pwr, .sent] sb sc := by
  unfold execBarG
  try dsimp only
  refine ⟨_, rfl, ?_⟩
  repeat'
    with_reducible (first
      | assumption | exact Only.refl _ _ | exact by decide | apply Only.gite | apply Only.gdite | apply issue_parts
      | apply ctxFault_parts | apply releaseSteps_parts | apply modStream_parts | apply passGang_parts | (intro _) | split)

end Sys2Proof.Machine
end

