-- ==== Sys2Proof/Laws/PartsAnswers.lean ====
section
/-! SUPPORT. What each command of Machine/Answers.lean may change; each ends in a next state. -/

namespace Sys2Proof.Machine

open Sys2Proof

set_option linter.unusedTactic false
set_option linter.unreachableTactic false

theorem execResponseReceive_parts (c : Cell) (sb : State) :
    ∃ sc, execResponseReceive c sb = .next sc ∧ Only [.sw, .bep, .ep, .grotto, .cmp, .mem, .dict, .host, .can, .log, .lantern, .pwr, .sent] sb sc := by
  unfold execResponseReceive
  try dsimp only
  refine ⟨_, rfl, ?_⟩
  repeat'
    with_reducible (first
      | assumption | exact Only.refl _ _ | exact by decide | apply Only.gite | apply Only.gdite | apply responseReceive_parts
      | (intro _) | split)

theorem execRequestTimeout_parts (tag : BitVec 16) (sb : State) :
    ∃ sc, execRequestTimeout tag sb = .next sc ∧ Only [.sw, .bep, .ep, .grotto, .cmp, .dict, .host, .can, .log, .lantern, .pwr, .sent] sb sc := by
  unfold execRequestTimeout
  try dsimp only
  refine ⟨_, rfl, ?_⟩
  repeat'
    with_reducible (first
      | assumption | exact Only.refl _ _ | exact by decide | apply Only.gite | apply Only.gdite | apply requestTimeout_parts
      | (intro _) | split)

theorem execBusyResend_parts (tag : BitVec 16) (sb : State) :
    ∃ sc, execBusyResend tag sb = .next sc ∧ Only [.bep, .ep] sb sc := by
  unfold execBusyResend
  try dsimp only
  refine ⟨_, rfl, ?_⟩
  repeat'
    with_reducible (first
      | assumption | exact Only.refl _ _ | exact by decide | apply Only.gite | apply Only.gdite | apply busyResend_parts
      | (intro _) | split)

theorem execFillRspReceive_parts (tag : BitVec 12) (status : BitVec 2) (ppage : BitVec 52) (size : BitVec 2)
    (perms : BitVec 4) (sb : State) :
    ∃ sc, execFillRspReceive tag status ppage size perms sb = .next sc ∧ Only [.bep, .ep, .grotto, .cmp, .dict, .host, .can, .log, .pwr, .sent] sb sc := by
  unfold execFillRspReceive
  try dsimp only
  refine ⟨_, rfl, ?_⟩
  repeat'
    with_reducible (first
      | assumption | exact Only.refl _ _ | exact by decide | apply Only.gite | apply Only.gdite | apply fillRsp_parts
      | (intro _) | split)

theorem execFillRetry_parts (tag : BitVec 12) (sb : State) :
    ∃ sc, execFillRetry tag sb = .next sc ∧ Only [.sent] sb sc := by
  unfold execFillRetry
  try dsimp only
  refine ⟨_, rfl, ?_⟩
  repeat'
    with_reducible (first
      | assumption | exact Only.refl _ _ | exact by decide | apply Only.gite | apply Only.gdite | apply fillRetry_parts
      | (intro _) | split)

theorem execInvReqReceive_parts (tag : BitVec 12) (pasid : BitVec 20) (base : BitVec 64) (pages : Nat) (sb : State) :
    ∃ sc, execInvReqReceive tag pasid base pages sb = .next sc ∧ Only [.ep] sb sc := by
  unfold execInvReqReceive
  try dsimp only
  refine ⟨_, rfl, ?_⟩
  repeat'
    with_reducible (first
      | assumption | exact Only.refl _ _ | exact by decide | apply Only.gite | apply Only.gdite | apply invReq_parts
      | (intro _) | split)

theorem execInvDoneSend_parts (tag : BitVec 12) (sb : State) :
    ∃ sc, execInvDoneSend tag sb = .next sc ∧ Only [.ep, .sent] sb sc := by
  unfold execInvDoneSend
  try dsimp only
  refine ⟨_, rfl, ?_⟩
  repeat'
    with_reducible (first
      | assumption | exact Only.refl _ _ | exact by decide | apply Only.gite | apply Only.gdite | apply invDoneSend_parts
      | (intro _) | split)

end Sys2Proof.Machine
end

