-- ==== Sys2Proof/Laws/PartsArray.lean ====
section
/-! SUPPORT. What each command of Machine/Array.lean may change; each ends in a next state. -/

namespace Sys2Proof.Machine

open Sys2Proof

set_option linter.unusedTactic false
set_option linter.unreachableTactic false

theorem execContextCreate_parts (core : CoreN) (slot : SlotN) (sb : State) :
    ∃ sc, execContextCreate core slot sb = .next sc ∧ Only [.cmp, .dict, .host, .can, .log, .pwr, .sent] sb sc := by
  unfold execContextCreate
  try dsimp only
  refine ⟨_, rfl, ?_⟩
  repeat'
    with_reducible (first
      | assumption | exact Only.refl _ _ | exact by decide | apply Only.gite | apply Only.gdite | apply barWrite_parts
      | apply contextAction_parts | (intro _) | split)

theorem execContextDestroy_parts (core : CoreN) (slot : SlotN) (sb : State) :
    ∃ sc, execContextDestroy core slot sb = .next sc ∧ Only [.cmp, .dict, .host, .can, .log, .pwr, .sent] sb sc := by
  unfold execContextDestroy
  try dsimp only
  refine ⟨_, rfl, ?_⟩
  repeat'
    with_reducible (first
      | assumption | exact Only.refl _ _ | exact by decide | apply Only.gite | apply Only.gdite | apply barWrite_parts
      | apply contextAction_parts | (intro _) | split)

theorem execContextRestart_parts (core : CoreN) (slot : SlotN) (sb : State) :
    ∃ sc, execContextRestart core slot sb = .next sc ∧ Only [.cmp, .dict, .host, .can, .log, .pwr, .sent] sb sc := by
  unfold execContextRestart
  try dsimp only
  refine ⟨_, rfl, ?_⟩
  repeat'
    with_reducible (first
      | assumption | exact Only.refl _ _ | exact by decide | apply Only.gite | apply Only.gdite | apply barWrite_parts
      | apply contextAction_parts | (intro _) | split)

theorem execContextAbort_parts (core : CoreN) (slot : SlotN) (sb : State) :
    ∃ sc, execContextAbort core slot sb = .next sc ∧ Only [.cmp, .dict, .host, .can, .log, .pwr, .sent] sb sc := by
  unfold execContextAbort
  try dsimp only
  refine ⟨_, rfl, ?_⟩
  repeat'
    with_reducible (first
      | assumption | exact Only.refl _ _ | exact by decide | apply Only.gite | apply Only.gdite | apply barWrite_parts
      | apply contextAction_parts | (intro _) | split)

theorem execRingProducerWrite_parts (core : CoreN) (slot : SlotN) (v : BitVec 32) (sb : State) :
    ∃ sc, execRingProducerWrite core slot v sb = .next sc ∧ Only [.cmp, .host] sb sc := by
  unfold execRingProducerWrite
  try dsimp only
  refine ⟨_, rfl, ?_⟩
  repeat'
    with_reducible (first
      | assumption | exact Only.refl _ _ | exact by decide | apply Only.gite | apply Only.gdite | apply barWrite_parts
      | apply producerWrite_parts | (intro _) | split)

theorem execRingRun_parts (core : CoreN) (slot : SlotN) (sb : State) :
    ∃ sc, execRingRun core slot sb = .next sc ∧ Only [.cmp, .xlat, .mem, .dict, .host, .can, .log, .pwr, .sent] sb sc := by
  unfold execRingRun
  try dsimp only
  refine ⟨_, rfl, ?_⟩
  repeat'
    with_reducible (first
      | assumption | exact Only.refl _ _ | exact by decide | apply Only.gite | apply Only.gdite | apply ringRun_parts
      | (intro _) | split)

theorem execRingCopy_parts (core : CoreN) (slot : SlotN) (sb : State) :
    ∃ sc, execRingCopy core slot sb = .next sc ∧ Only [.cmp, .xlat, .mem, .dict, .host, .can, .log, .pwr, .sent] sb sc := by
  unfold execRingCopy
  try dsimp only
  refine ⟨_, rfl, ?_⟩
  repeat'
    with_reducible (first
      | assumption | exact Only.refl _ _ | exact by decide | apply Only.gite | apply Only.gdite | apply ringCopy_parts
      | (intro _) | split)

theorem execRingWait_parts (core : CoreN) (slot : SlotN) (sb : State) :
    ∃ sc, execRingWait core slot sb = .next sc ∧ Only [.cmp, .xlat, .mem, .dict, .host, .can, .log, .pwr, .sent] sb sc := by
  unfold execRingWait
  try dsimp only
  refine ⟨_, rfl, ?_⟩
  repeat'
    with_reducible (first
      | assumption | exact Only.refl _ _ | exact by decide | apply Only.gite | apply Only.gdite | apply ringWait_parts
      | (intro _) | split)

theorem execWaitPoll_parts (core : CoreN) (slot : SlotN) (sb : State) :
    ∃ sc, execWaitPoll core slot sb = .next sc ∧ Only [.bep, .ep, .grotto, .cmp, .xlat, .mem, .dict, .host, .can, .log, .pwr, .sent] sb sc := by
  unfold execWaitPoll
  try dsimp only
  refine ⟨_, rfl, ?_⟩
  repeat'
    with_reducible (first
      | assumption | exact Only.refl _ _ | exact by decide | apply Only.gite | apply Only.gdite | apply waitPoll_parts
      | (intro _) | split)

theorem execWaitTimeout_parts (core : CoreN) (slot : SlotN) (sb : State) :
    ∃ sc, execWaitTimeout core slot sb = .next sc ∧ Only [.cmp] sb sc := by
  unfold execWaitTimeout
  try dsimp only
  refine ⟨_, rfl, ?_⟩
  repeat'
    with_reducible (first
      | assumption | exact Only.refl _ _ | exact by decide | apply Only.gite | apply Only.gdite | apply waitTimeout_parts
      | (intro _) | split)

theorem execRingNop_parts (core : CoreN) (slot : SlotN) (sb : State) :
    ∃ sc, execRingNop core slot sb = .next sc ∧ Only [.cmp, .xlat, .mem, .dict, .host, .can, .log, .pwr, .sent] sb sc := by
  unfold execRingNop
  try dsimp only
  refine ⟨_, rfl, ?_⟩
  repeat'
    with_reducible (first
      | assumption | exact Only.refl _ _ | exact by decide | apply Only.gite | apply Only.gdite | apply ringNop_parts
      | (intro _) | split)

end Sys2Proof.Machine
end

