-- ==== Sys2Proof/Laws/PartsArrive.lean ====
section
/-! SUPPORT. What each command of Machine/Arrive.lean may change; each ends in a next state. -/

namespace Sys2Proof.Machine

open Sys2Proof

set_option linter.unusedTactic false
set_option linter.unreachableTactic false

theorem execCellArrival_parts (input : InputN) (sb : State) :
    ∃ sc, execCellArrival input sb = .next sc ∧ Only [.ports, .sw, .bep, .grotto, .cal, .coll, .dict, .host, .can, .log, .pwr, .sent] sb sc := by
  unfold execCellArrival
  try dsimp only
  refine ⟨_, rfl, ?_⟩
  repeat'
    with_reducible (first
      | assumption | exact Only.refl _ _ | exact by decide | apply Only.gite | apply Only.gdite | apply cellArrival_parts
      | (intro _) | split)

theorem execRoundStart_parts (sb : State) :
    ∃ sc, execRoundStart sb = .next sc ∧ Only [.time, .ports, .cmp, .coll, .dict, .host, .can, .log, .pwr, .sent, .free] sb sc := by
  unfold execRoundStart
  try dsimp only
  refine ⟨_, rfl, ?_⟩
  repeat'
    with_reducible (first
      | assumption | exact Only.refl _ _ | exact by decide | apply Only.gite | apply Only.gdite | apply roundStart_parts
      | (intro _) | split)

end Sys2Proof.Machine
end

