-- ==== Sys2Proof/Laws/PartsAuction.lean ====
section
/-! SUPPORT. What each command of Machine/Auction.lean may change; each ends in a next state. -/

namespace Sys2Proof.Machine

open Sys2Proof

set_option linter.unusedTactic false
set_option linter.unreachableTactic false

theorem execAuctionTick_parts (sb : State) :
    ∃ sc, execAuctionTick sb = .next sc ∧ Only [.time, .ports, .sw, .bep, .grotto, .cal, .cmp, .coll, .dict, .host, .can, .log, .lantern, .pwr, .sent] sb sc := by
  unfold execAuctionTick
  try dsimp only
  refine ⟨_, rfl, ?_⟩
  repeat'
    with_reducible (first
      | assumption | exact Only.refl _ _ | exact by decide | apply Only.gite | apply Only.gdite | apply coreCycle_parts
      | apply auction_parts | (intro _) | split)

end Sys2Proof.Machine
end

