-- ==== Sys2Proof/Laws/PartsBep.lean ====
section
/-! SUPPORT. What each command of Machine/Bep.lean may change; each ends in a next state. -/

namespace Sys2Proof.Machine

open Sys2Proof

set_option linter.unusedTactic false
set_option linter.unreachableTactic false

theorem execLd_parts (c : Cell) (sb : State) :
    ∃ sc, execLd c sb = .next sc ∧ Only [.bep, .mem, .dict, .host, .can, .log, .lantern, .pwr, .sent] sb sc := by
  unfold execLd
  try dsimp only
  refine ⟨_, rfl, ?_⟩
  repeat'
    with_reducible (first
      | assumption | exact Only.refl _ _ | exact by decide | apply Only.gite | apply Only.gdite | apply serveRequest_parts
      | (intro _) | split)

theorem execLdv_parts (c : Cell) (sb : State) :
    ∃ sc, execLdv c sb = .next sc ∧ Only [.bep, .mem, .dict, .host, .can, .log, .lantern, .pwr, .sent] sb sc := by
  unfold execLdv
  try dsimp only
  refine ⟨_, rfl, ?_⟩
  repeat'
    with_reducible (first
      | assumption | exact Only.refl _ _ | exact by decide | apply Only.gite | apply Only.gdite | apply serveRequest_parts
      | (intro _) | split)

theorem execLda_parts (c : Cell) (sb : State) :
    ∃ sc, execLda c sb = .next sc ∧ Only [.bep, .mem, .dict, .host, .can, .log, .lantern, .pwr, .sent] sb sc := by
  unfold execLda
  try dsimp only
  refine ⟨_, rfl, ?_⟩
  repeat'
    with_reducible (first
      | assumption | exact Only.refl _ _ | exact by decide | apply Only.gite | apply Only.gdite | apply serveRequest_parts
      | (intro _) | split)

theorem execSt_parts (c : Cell) (sb : State) :
    ∃ sc, execSt c sb = .next sc ∧ Only [.bep, .mem, .dict, .host, .can, .log, .lantern, .pwr, .sent] sb sc := by
  unfold execSt
  try dsimp only
  refine ⟨_, rfl, ?_⟩
  repeat'
    with_reducible (first
      | assumption | exact Only.refl _ _ | exact by decide | apply Only.gite | apply Only.gdite | apply serveRequest_parts
      | (intro _) | split)

theorem execStm_parts (c : Cell) (sb : State) :
    ∃ sc, execStm c sb = .next sc ∧ Only [.bep, .mem, .dict, .host, .can, .log, .lantern, .pwr, .sent] sb sc := by
  unfold execStm
  try dsimp only
  refine ⟨_, rfl, ?_⟩
  repeat'
    with_reducible (first
      | assumption | exact Only.refl _ _ | exact by decide | apply Only.gite | apply Only.gdite | apply serveRequest_parts
      | (intro _) | split)

theorem execStf_parts (c : Cell) (sb : State) :
    ∃ sc, execStf c sb = .next sc ∧ Only [.bep, .mem, .dict, .host, .can, .log, .lantern, .pwr, .sent] sb sc := by
  unfold execStf
  try dsimp only
  refine ⟨_, rfl, ?_⟩
  repeat'
    with_reducible (first
      | assumption | exact Only.refl _ _ | exact by decide | apply Only.gite | apply Only.gdite | apply serveRequest_parts
      | (intro _) | split)

theorem execStl_parts (c : Cell) (sb : State) :
    ∃ sc, execStl c sb = .next sc ∧ Only [.bep, .mem, .dict, .host, .can, .log, .lantern, .pwr, .sent] sb sc := by
  unfold execStl
  try dsimp only
  refine ⟨_, rfl, ?_⟩
  repeat'
    with_reducible (first
      | assumption | exact Only.refl _ _ | exact by decide | apply Only.gite | apply Only.gdite | apply serveRequest_parts
      | (intro _) | split)

theorem execAtIntegerAdd_parts (c : Cell) (sb : State) :
    ∃ sc, execAtIntegerAdd c sb = .next sc ∧ Only [.bep, .mem, .dict, .host, .can, .log, .lantern, .pwr, .sent] sb sc := by
  unfold execAtIntegerAdd
  try dsimp only
  refine ⟨_, rfl, ?_⟩
  repeat'
    with_reducible (first
      | assumption | exact Only.refl _ _ | exact by decide | apply Only.gite | apply Only.gdite | apply serveRequest_parts
      | (intro _) | split)

theorem execAtExactFloatAdd_parts (c : Cell) (sb : State) :
    ∃ sc, execAtExactFloatAdd c sb = .next sc ∧ Only [.bep, .mem, .dict, .host, .can, .log, .lantern, .pwr, .sent] sb sc := by
  unfold execAtExactFloatAdd
  try dsimp only
  refine ⟨_, rfl, ?_⟩
  repeat'
    with_reducible (first
      | assumption | exact Only.refl _ _ | exact by decide | apply Only.gite | apply Only.gdite | apply serveRequest_parts
      | (intro _) | split)

theorem execAtMin_parts (c : Cell) (sb : State) :
    ∃ sc, execAtMin c sb = .next sc ∧ Only [.bep, .mem, .dict, .host, .can, .log, .lantern, .pwr, .sent] sb sc := by
  unfold execAtMin
  try dsimp only
  refine ⟨_, rfl, ?_⟩
  repeat'
    with_reducible (first
      | assumption | exact Only.refl _ _ | exact by decide | apply Only.gite | apply Only.gdite | apply serveRequest_parts
      | (intro _) | split)

theorem execAtMax_parts (c : Cell) (sb : State) :
    ∃ sc, execAtMax c sb = .next sc ∧ Only [.bep, .mem, .dict, .host, .can, .log, .lantern, .pwr, .sent] sb sc := by
  unfold execAtMax
  try dsimp only
  refine ⟨_, rfl, ?_⟩
  repeat'
    with_reducible (first
      | assumption | exact Only.refl _ _ | exact by decide | apply Only.gite | apply Only.gdite | apply serveRequest_parts
      | (intro _) | split)

theorem execAtSwap_parts (c : Cell) (sb : State) :
    ∃ sc, execAtSwap c sb = .next sc ∧ Only [.bep, .mem, .dict, .host, .can, .log, .lantern, .pwr, .sent] sb sc := by
  unfold execAtSwap
  try dsimp only
  refine ⟨_, rfl, ?_⟩
  repeat'
    with_reducible (first
      | assumption | exact Only.refl _ _ | exact by decide | apply Only.gite | apply Only.gdite | apply serveRequest_parts
      | (intro _) | split)

theorem execAtCompareAndSwap_parts (c : Cell) (sb : State) :
    ∃ sc, execAtCompareAndSwap c sb = .next sc ∧ Only [.bep, .mem, .dict, .host, .can, .log, .lantern, .pwr, .sent] sb sc := by
  unfold execAtCompareAndSwap
  try dsimp only
  refine ⟨_, rfl, ?_⟩
  repeat'
    with_reducible (first
      | assumption | exact Only.refl _ _ | exact by decide | apply Only.gite | apply Only.gdite | apply serveRequest_parts
      | (intro _) | split)

theorem execAtAnd_parts (c : Cell) (sb : State) :
    ∃ sc, execAtAnd c sb = .next sc ∧ Only [.bep, .mem, .dict, .host, .can, .log, .lantern, .pwr, .sent] sb sc := by
  unfold execAtAnd
  try dsimp only
  refine ⟨_, rfl, ?_⟩
  repeat'
    with_reducible (first
      | assumption | exact Only.refl _ _ | exact by decide | apply Only.gite | apply Only.gdite | apply serveRequest_parts
      | (intro _) | split)

theorem execAtOr_parts (c : Cell) (sb : State) :
    ∃ sc, execAtOr c sb = .next sc ∧ Only [.bep, .mem, .dict, .host, .can, .log, .lantern, .pwr, .sent] sb sc := by
  unfold execAtOr
  try dsimp only
  refine ⟨_, rfl, ?_⟩
  repeat'
    with_reducible (first
      | assumption | exact Only.refl _ _ | exact by decide | apply Only.gite | apply Only.gdite | apply serveRequest_parts
      | (intro _) | split)

theorem execAtXor_parts (c : Cell) (sb : State) :
    ∃ sc, execAtXor c sb = .next sc ∧ Only [.bep, .mem, .dict, .host, .can, .log, .lantern, .pwr, .sent] sb sc := by
  unfold execAtXor
  try dsimp only
  refine ⟨_, rfl, ?_⟩
  repeat'
    with_reducible (first
      | assumption | exact Only.refl _ _ | exact by decide | apply Only.gite | apply Only.gdite | apply serveRequest_parts
      | (intro _) | split)

theorem execFen_parts (c : Cell) (sb : State) :
    ∃ sc, execFen c sb = .next sc ∧ Only [.bep, .mem, .dict, .host, .can, .log, .lantern, .pwr, .sent] sb sc := by
  unfold execFen
  try dsimp only
  refine ⟨_, rfl, ?_⟩
  repeat'
    with_reducible (first
      | assumption | exact Only.refl _ _ | exact by decide | apply Only.gite | apply Only.gdite | apply serveRequest_parts
      | (intro _) | split)

theorem execAckRunSend_parts (source : BitVec 16) (sb : State) :
    ∃ sc, execAckRunSend source sb = .next sc ∧ Only [.bep, .dict] sb sc := by
  unfold execAckRunSend
  try dsimp only
  refine ⟨_, rfl, ?_⟩
  repeat'
    with_reducible (first
      | assumption | exact Only.refl _ _ | exact by decide | apply Only.gite | apply Only.gdite | apply closeRun_parts
      | (intro _) | split)

theorem execHoldTimeout_parts (source : BitVec 16) (sb : State) :
    ∃ sc, execHoldTimeout source sb = .next sc ∧ Only [.bep, .dict] sb sc := by
  unfold execHoldTimeout
  try dsimp only
  refine ⟨_, rfl, ?_⟩
  repeat'
    with_reducible (first
      | assumption | exact Only.refl _ _ | exact by decide | apply Only.gite | apply Only.gdite | apply holdTimeout_parts
      | (intro _) | split)

theorem execExactAddRegionWrite_parts (src : Route) (k : Fin 16) (v : BitVec 64) (sb : State) :
    ∃ sc, execExactAddRegionWrite src k v sb = .next sc ∧ Only [.bep, .dict, .host, .sent] sb sc := by
  unfold execExactAddRegionWrite
  try dsimp only
  refine ⟨_, rfl, ?_⟩
  repeat'
    with_reducible (first
      | assumption | exact Only.refl _ _ | exact by decide | apply Only.gite | apply Only.gdite
      | apply exactRegionWrite_parts | (intro _) | split)

end Sys2Proof.Machine
end

