-- ==== Sys2Proof/Laws/PartsCalendar.lean ====
section
/-! SUPPORT. What each command of Machine/Calendar.lean may change; each ends in a next state. -/

namespace Sys2Proof.Machine

open Sys2Proof

set_option linter.unusedTactic false
set_option linter.unreachableTactic false

theorem execIsolationModeWrite_parts (src : Route) (v : BitVec 8) (sb : State) :
    ∃ sc, execIsolationModeWrite src v sb = .next sc ∧ Only [.dict, .host, .sent] sb sc := by
  unfold execIsolationModeWrite
  try dsimp only
  refine ⟨_, rfl, ?_⟩
  repeat'
    with_reducible (first
      | assumption | exact Only.refl _ _ | exact by decide | apply Only.gite | apply Only.gdite | apply isolationWrite_parts
      | apply beginOp_parts | (intro _) | split)

theorem execCalendarBeginLoad_parts (src : Route) (v : BitVec 8) (sb : State) :
    ∃ sc, execCalendarBeginLoad src v sb = .next sc ∧ Only [.cal, .dict, .host, .sent] sb sc := by
  unfold execCalendarBeginLoad
  try dsimp only
  refine ⟨_, rfl, ?_⟩
  repeat'
    with_reducible (first
      | assumption | exact Only.refl _ _ | exact by decide | apply Only.gite | apply Only.gdite | apply calendarBegin_parts
      | apply beginOp_parts | (intro _) | split)

theorem execCalendarDataWrite_parts (src : Route) (data : Bytes) (sb : State) :
    ∃ sc, execCalendarDataWrite src data sb = .next sc ∧ Only [.cal, .dict] sb sc := by
  unfold execCalendarDataWrite
  try dsimp only
  refine ⟨_, rfl, ?_⟩
  repeat'
    with_reducible (first
      | assumption | exact Only.refl _ _ | exact by decide | apply Only.gite | apply Only.gdite | apply calendarData_parts
      | apply beginOp_parts | (intro _) | split)

theorem execCalendarSeal_parts (src : Route) (v : BitVec 8) (sb : State) :
    ∃ sc, execCalendarSeal src v sb = .next sc ∧ Only [.bep, .ep, .cal, .dict, .host, .sent] sb sc := by
  unfold execCalendarSeal
  try dsimp only
  refine ⟨_, rfl, ?_⟩
  repeat'
    with_reducible (first
      | assumption | exact Only.refl _ _ | exact by decide | apply Only.gite | apply Only.gdite | apply calendarSeal_parts
      | apply beginOp_parts | (intro _) | split)

theorem execCalendarArm_parts (src : Route) (v : BitVec 64) (sb : State) :
    ∃ sc, execCalendarArm src v sb = .next sc ∧ Only [.cal, .dict, .host, .sent] sb sc := by
  unfold execCalendarArm
  try dsimp only
  refine ⟨_, rfl, ?_⟩
  repeat'
    with_reducible (first
      | assumption | exact Only.refl _ _ | exact by decide | apply Only.gite | apply Only.gdite | apply calendarArm_parts
      | apply beginOp_parts | (intro _) | split)

theorem execCalendarBankSwitch_parts (sb : State) :
    ∃ sc, execCalendarBankSwitch sb = .next sc ∧ Only [.time, .cal, .dict, .host, .can, .log, .pwr, .sent] sb sc := by
  unfold execCalendarBankSwitch
  try dsimp only
  refine ⟨_, rfl, ?_⟩
  repeat'
    with_reducible (first
      | assumption | exact Only.refl _ _ | exact by decide | apply Only.gite | apply Only.gdite | apply calendarSwitch_parts
      | (intro _) | split)

end Sys2Proof.Machine
end

