-- ==== Sys2Proof/Laws/PartsCanNode.lean ====
section
/-! SUPPORT. What each command of Machine/CanNode.lean may change; each ends in a next state. -/

namespace Sys2Proof.Machine

open Sys2Proof

set_option linter.unusedTactic false
set_option linter.unreachableTactic false

theorem execUsdoDownload_parts (index : BitVec 16) (sub : BitVec 8) (data : Bytes) (sb : State) :
    ∃ sc, execUsdoDownload index sub data sb = .next sc ∧ Only [.time, .ports, .sw, .routes, .bep, .ep, .grotto, .cal, .cmp, .coll, .xlat, .mem, .dict, .host, .can, .sec, .log, .lantern, .muster, .pwr, .resets, .sent] sb sc := by
  unfold execUsdoDownload
  try dsimp only
  refine ⟨_, rfl, ?_⟩
  repeat'
    with_reducible (first
      | assumption | exact Only.refl _ _ | exact by decide | apply Only.gite | apply Only.gdite | apply usdoDownload_parts
      | (intro _) | split)

theorem execUsdoUpload_parts (index : BitVec 16) (sub : BitVec 8) (sb : State) :
    ∃ sc, execUsdoUpload index sub sb = .next sc ∧ Only [.dict, .can, .sent] sb sc := by
  unfold execUsdoUpload
  try dsimp only
  refine ⟨_, rfl, ?_⟩
  repeat'
    with_reducible (first
      | assumption | exact Only.refl _ _ | exact by decide | apply Only.gite | apply Only.gdite | apply usdoUpload_parts
      | (intro _) | split)

theorem execUsdoSegmentTimeout_parts (sb : State) :
    ∃ sc, execUsdoSegmentTimeout sb = .next sc ∧ Only [.dict, .sent] sb sc := by
  unfold execUsdoSegmentTimeout
  try dsimp only
  refine ⟨_, rfl, ?_⟩
  repeat'
    with_reducible (first
      | assumption | exact Only.refl _ _ | exact by decide | apply Only.gite | apply Only.gdite | apply usdoTimeout_parts
      | (intro _) | split)

theorem execNmtStart_parts (node : BitVec 8) (sb : State) :
    ∃ sc, execNmtStart node sb = .next sc ∧ Only [.dict, .can] sb sc := by
  unfold execNmtStart
  try dsimp only
  refine ⟨_, rfl, ?_⟩
  repeat'
    with_reducible (first
      | assumption | exact Only.refl _ _ | exact by decide | apply Only.gite | apply Only.gdite | apply nmtCommand_parts
      | apply nmtEnter_parts | (intro _) | split)

theorem execNmtStop_parts (node : BitVec 8) (sb : State) :
    ∃ sc, execNmtStop node sb = .next sc ∧ Only [.dict, .can] sb sc := by
  unfold execNmtStop
  try dsimp only
  refine ⟨_, rfl, ?_⟩
  repeat'
    with_reducible (first
      | assumption | exact Only.refl _ _ | exact by decide | apply Only.gite | apply Only.gdite | apply nmtCommand_parts
      | apply nmtEnter_parts | (intro _) | split)

theorem execNmtEnterPreoperational_parts (node : BitVec 8) (sb : State) :
    ∃ sc, execNmtEnterPreoperational node sb = .next sc ∧ Only [.dict, .can] sb sc := by
  unfold execNmtEnterPreoperational
  try dsimp only
  refine ⟨_, rfl, ?_⟩
  repeat'
    with_reducible (first
      | assumption | exact Only.refl _ _ | exact by decide | apply Only.gite | apply Only.gdite | apply nmtCommand_parts
      | apply nmtEnter_parts | (intro _) | split)

theorem execNmtResetCommunication_parts (node : BitVec 8) (sb : State) :
    ∃ sc, execNmtResetCommunication node sb = .next sc ∧ Only [.dict, .can, .sent] sb sc := by
  unfold execNmtResetCommunication
  try dsimp only
  refine ⟨_, rfl, ?_⟩
  repeat'
    with_reducible (first
      | assumption | exact Only.refl _ _ | exact by decide | apply Only.gite | apply Only.gdite | apply nmtCommand_parts
      | apply nmtBoot_parts | (intro _) | split)

theorem execHeartbeat_parts (sb : State) :
    ∃ sc, execHeartbeat sb = .next sc ∧ Only [.dict, .sent] sb sc := by
  unfold execHeartbeat
  try dsimp only
  refine ⟨_, rfl, ?_⟩
  repeat'
    with_reducible (first
      | assumption | exact Only.refl _ _ | exact by decide | apply Only.gite | apply Only.gdite | apply heartbeat_parts
      | (intro _) | split)

theorem execTpdo_parts (n : Fin 4) (sb : State) :
    ∃ sc, execTpdo n sb = .next sc ∧ Only [.dict, .sent] sb sc := by
  unfold execTpdo
  try dsimp only
  refine ⟨_, rfl, ?_⟩
  repeat'
    with_reducible (first
      | assumption | exact Only.refl _ _ | exact by decide | apply Only.gite | apply Only.gdite | apply sendTpdo_parts
      | (intro _) | split)

theorem execBusOff_parts (sb : State) :
    ∃ sc, execBusOff sb = .next sc ∧ Only [.dict, .can, .sent] sb sc := by
  unfold execBusOff
  try dsimp only
  refine ⟨_, rfl, ?_⟩
  repeat'
    with_reducible (first
      | assumption | exact Only.refl _ _ | exact by decide | apply Only.gite | apply Only.gdite | apply busOff_parts
      | (intro _) | split)

theorem execManagementBoot_parts (sb : State) :
    ∃ sc, execManagementBoot sb = .next sc ∧ Only [.time, .ports, .sw, .routes, .bep, .ep, .grotto, .cal, .cmp, .coll, .xlat, .mem, .dict, .host, .can, .sec, .log, .lantern, .muster, .pwr, .resets, .sent] sb sc := by
  unfold execManagementBoot
  try dsimp only
  refine ⟨_, rfl, ?_⟩
  repeat'
    with_reducible (first
      | assumption | exact Only.refl _ _ | exact by decide | apply Only.gite | apply Only.gdite | apply managementBoot_parts
      | (intro _) | split)

end Sys2Proof.Machine
end

