-- ==== Sys2Proof/Laws/PartsCollect.lean ====
section
/-! SUPPORT. What each command of Machine/Collect.lean may change; each ends in a next state. -/

namespace Sys2Proof.Machine

open Sys2Proof

set_option linter.unusedTactic false
set_option linter.unreachableTactic false

theorem execWindowBind_parts (src : Route) (i : Fin 64) (v : BitVec 8) (sb : State) :
    ∃ sc, execWindowBind src i v sb = .next sc ∧ Only [.cmp, .coll, .dict, .host, .sent] sb sc := by
  unfold execWindowBind
  try dsimp only
  refine ⟨_, rfl, ?_⟩
  repeat'
    with_reducible (first
      | assumption | exact Only.refl _ _ | exact by decide | apply Only.gite | apply Only.gdite | apply windowWrite_parts
      | apply beginOp_parts | (intro _) | split)

theorem execWindowUnbind_parts (src : Route) (i : Fin 64) (v : BitVec 8) (sb : State) :
    ∃ sc, execWindowUnbind src i v sb = .next sc ∧ Only [.cmp, .coll, .dict, .host, .sent] sb sc := by
  unfold execWindowUnbind
  try dsimp only
  refine ⟨_, rfl, ?_⟩
  repeat'
    with_reducible (first
      | assumption | exact Only.refl _ _ | exact by decide | apply Only.gite | apply Only.gdite | apply windowWrite_parts
      | apply beginOp_parts | (intro _) | split)

theorem execServiceCellFormed_parts (i : Fin 64) (chunk : BitVec 28) (cell : BitVec 4) (sb : State) :
    ∃ sc, execServiceCellFormed i chunk cell sb = .next sc ∧ Only [.coll, .dict] sb sc := by
  unfold execServiceCellFormed
  try dsimp only
  refine ⟨_, rfl, ?_⟩
  repeat'
    with_reducible (first
      | assumption | exact Only.refl _ _ | exact by decide | apply Only.gite | apply Only.gdite | apply serviceCell_parts
      | (intro _) | split)

theorem execCommitTick_parts (i : Fin 64) (sb : State) :
    ∃ sc, execCommitTick i sb = .next sc ∧ Only [.time, .bep, .cmp, .coll, .mem, .dict, .host, .can, .log, .pwr, .sent] sb sc := by
  unfold execCommitTick
  try dsimp only
  refine ⟨_, rfl, ?_⟩
  repeat'
    with_reducible (first
      | assumption | exact Only.refl _ _ | exact by decide | apply Only.gite | apply Only.gdite | apply commitTick_parts
      | (intro _) | split)

end Sys2Proof.Machine
end

