-- ==== Sys2Proof/Laws/PartsControl.lean ====
section
/-! SUPPORT. What each command of Machine/Control.lean may change; each ends in a next state. -/

namespace Sys2Proof.Machine

open Sys2Proof

set_option linter.unusedTactic false
set_option linter.unreachableTactic false

theorem execCtlBr_parts (w : StreamId) (f : IFields) (sb : State) :
    ∃ sc, execCtlBr w f sb = .next sc ∧ Only [.cmp, .dict, .host, .can, .log, .lantern, .pwr, .sent] sb sc := by
  unfold execCtlBr
  try dsimp only
  refine ⟨_, rfl, ?_⟩
  repeat'
    with_reducible (first
      | assumption | exact Only.refl _ _ | exact by decide | apply Only.gite | apply Only.gdite | apply issue_parts
      | apply branch_parts | (intro _) | split)

theorem execCtlBrp_parts (w : StreamId) (f : IFields) (sb : State) :
    ∃ sc, execCtlBrp w f sb = .next sc ∧ Only [.cmp, .dict, .host, .can, .log, .lantern, .pwr, .sent, .free] sb sc := by
  unfold execCtlBrp
  try dsimp only
  refine ⟨_, rfl, ?_⟩
  repeat'
    with_reducible (first
      | assumption | exact Only.refl _ _ | exact by decide | apply Only.gite | apply Only.gdite | apply issue_parts
      | apply branch_parts | apply branchFree_parts | (intro _) | split)

theorem execCtlCall_parts (w : StreamId) (f : IFields) (sb : State) :
    ∃ sc, execCtlCall w f sb = .next sc ∧ Only [.cmp, .dict, .host, .can, .log, .lantern, .pwr, .sent] sb sc := by
  unfold execCtlCall
  try dsimp only
  refine ⟨_, rfl, ?_⟩
  repeat'
    with_reducible (first
      | assumption | exact Only.refl _ _ | exact by decide | apply Only.gite | apply Only.gdite | apply issue_parts
      | apply modStream_parts | (intro _) | split)

theorem execCtlRet_parts (w : StreamId) (f : IFields) (sb : State) :
    ∃ sc, execCtlRet w f sb = .next sc ∧ Only [.cmp, .dict, .host, .can, .log, .lantern, .pwr, .sent, .free] sb sc := by
  unfold execCtlRet
  try dsimp only
  refine ⟨_, rfl, ?_⟩
  repeat'
    with_reducible (first
      | assumption | exact Only.refl _ _ | exact by decide | apply Only.gite | apply Only.gdite | apply issue_parts
      | apply modStream_parts | apply drawn_parts | (intro _) | split)

theorem execCtlLoop_parts (w : StreamId) (f : IFields) (sb : State) :
    ∃ sc, execCtlLoop w f sb = .next sc ∧ Only [.cmp, .dict, .host, .can, .log, .lantern, .pwr, .sent, .free] sb sc := by
  unfold execCtlLoop
  try dsimp only
  refine ⟨_, rfl, ?_⟩
  repeat'
    with_reducible (first
      | assumption | exact Only.refl _ _ | exact by decide | apply Only.gite | apply Only.gdite | apply issue_parts
      | apply branchFree_parts | (intro _) | split)

theorem execCtlEnd_parts (w : StreamId) (f : IFields) (sb : State) :
    ∃ sc, execCtlEnd w f sb = .next sc ∧ Only [.cmp, .dict, .host, .can, .log, .lantern, .pwr, .sent] sb sc := by
  unfold execCtlEnd
  try dsimp only
  refine ⟨_, rfl, ?_⟩
  repeat'
    with_reducible (first
      | assumption | exact Only.refl _ _ | exact by decide | apply Only.gite | apply Only.gdite | apply issue_parts
      | apply modStream_parts | (intro _) | split)

theorem execCtlNop_parts (w : StreamId) (f : IFields) (sb : State) :
    ∃ sc, execCtlNop w f sb = .next sc ∧ Only [.cmp, .dict, .host, .can, .log, .lantern, .pwr, .sent] sb sc := by
  unfold execCtlNop
  try dsimp only
  refine ⟨_, rfl, ?_⟩
  repeat'
    with_reducible (first
      | assumption | exact Only.refl _ _ | exact by decide | apply Only.gite | apply Only.gdite | apply issue_parts
      | apply modStream_parts | (intro _) | split)

end Sys2Proof.Machine
end

