-- ==== Sys2Proof/Laws/PartsCopies.lean ====
section
/-! SUPPORT. What each command of Machine/Copies.lean may change; each ends in a next state. -/

namespace Sys2Proof.Machine

open Sys2Proof

set_option linter.unusedTactic false
set_option linter.unreachableTactic false

theorem execCpyCopy_parts (w : StreamId) (f : IFields) (sb : State) :
    ∃ sc, execCpyCopy w f sb = .next sc ∧ Only [.cmp, .dict, .host, .can, .log, .lantern, .pwr, .sent] sb sc := by
  unfold execCpyCopy
  try dsimp only
  refine ⟨_, rfl, ?_⟩
  repeat'
    with_reducible (first
      | assumption | exact Only.refl _ _ | exact by decide | apply Only.gite | apply Only.gdite | apply issue_parts
      | apply ctxFault_parts | apply modStream_parts | apply addCopy_parts | (intro _) | split)

theorem execCpyCwait_parts (w : StreamId) (f : IFields) (sb : State) :
    ∃ sc, execCpyCwait w f sb = .next sc ∧ Only [.cmp, .dict, .host, .can, .log, .lantern, .pwr, .sent] sb sc := by
  unfold execCpyCwait
  try dsimp only
  refine ⟨_, rfl, ?_⟩
  repeat'
    with_reducible (first
      | assumption | exact Only.refl _ _ | exact by decide | apply Only.gite | apply Only.gdite | apply issue_parts
      | apply modStream_parts | (intro _) | split)

theorem execCpyCtest_parts (w : StreamId) (f : IFields) (sb : State) :
    ∃ sc, execCpyCtest w f sb = .next sc ∧ Only [.cmp, .dict, .host, .can, .log, .lantern, .pwr, .sent] sb sc := by
  unfold execCpyCtest
  try dsimp only
  refine ⟨_, rfl, ?_⟩
  repeat'
    with_reducible (first
      | assumption | exact Only.refl _ _ | exact by decide | apply Only.gite | apply Only.gdite | apply issue_parts
      | apply modStream_parts | (intro _) | split)

theorem execCopyLine_parts (core : CoreN) (slot : SlotN) (sb : State) :
    ∃ sc, execCopyLine core slot sb = .next sc ∧ Only [.bep, .ep, .grotto, .cmp, .xlat, .mem, .dict, .host, .can, .log, .lantern, .pwr, .sent] sb sc := by
  unfold execCopyLine
  try dsimp only
  refine ⟨_, rfl, ?_⟩
  repeat'
    with_reducible (first
      | assumption | exact Only.refl _ _ | exact by decide | apply Only.gite | apply Only.gdite | apply copyStep_parts
      | (intro _) | split)

end Sys2Proof.Machine
end

