-- ==== Sys2Proof/Laws/PartsDict.lean ====
section
/-! SUPPORT. What each command of Machine/Dict.lean may change; each ends in a next state. -/

namespace Sys2Proof.Machine

open Sys2Proof

set_option linter.unusedTactic false
set_option linter.unreachableTactic false

theorem execEntryWrite_parts (src : Route) (index : BitVec 16) (sub : BitVec 8) (data : Bytes) (sb : State) :
    ∃ sc, execEntryWrite src index sub data sb = .next sc ∧ Only [.time, .ports, .sw, .routes, .bep, .ep, .grotto, .cal, .cmp, .coll, .xlat, .mem, .dict, .host, .can, .sec, .log, .lantern, .muster, .pwr, .resets, .sent] sb sc := by
  unfold execEntryWrite
  try dsimp only
  refine ⟨_, rfl, ?_⟩
  repeat'
    with_reducible (first
      | assumption | exact Only.refl _ _ | exact by decide | apply Only.gite | apply Only.gdite | apply afterResponse_parts
      | apply dictWrite_parts | (intro _) | split)

theorem execNodeIdWrite_parts (src : Route) (v : BitVec 8) (sb : State) :
    ∃ sc, execNodeIdWrite src v sb = .next sc ∧ Only [.dict, .host, .can, .sent] sb sc := by
  unfold execNodeIdWrite
  try dsimp only
  refine ⟨_, rfl, ?_⟩
  repeat'
    with_reducible (first
      | assumption | exact Only.refl _ _ | exact by decide | apply Only.gite | apply Only.gdite | apply afterResponse_parts
      | apply nodeIdWrite_parts | apply beginOp_parts | (intro _) | split)

theorem execClampReportDiscard_parts (src : Route) (v : BitVec 32) (sb : State) :
    ∃ sc, execClampReportDiscard src v sb = .next sc ∧ Only [.dict] sb sc := by
  unfold execClampReportDiscard
  try dsimp only
  refine ⟨_, rfl, ?_⟩
  repeat'
    with_reducible (first
      | assumption | exact Only.refl _ _ | exact by decide | apply Only.gite | apply Only.gdite | apply clampDiscard_parts
      | apply beginOp_parts | (intro _) | split)

theorem execDictionaryStore_parts (src : Route) (v : BitVec 8) (verified : Bool) (sb : State) :
    ∃ sc, execDictionaryStore src v verified sb = .next sc ∧ Only [.dict, .host, .sent] sb sc := by
  unfold execDictionaryStore
  try dsimp only
  refine ⟨_, rfl, ?_⟩
  repeat'
    with_reducible (first
      | assumption | exact Only.refl _ _ | exact by decide | apply Only.gite | apply Only.gdite | apply dictionaryStore_parts
      | apply beginOp_parts | (intro _) | split)

theorem execDictionaryRestore_parts (src : Route) (v : BitVec 8) (sb : State) :
    ∃ sc, execDictionaryRestore src v sb = .next sc ∧ Only [.time, .ports, .sw, .routes, .bep, .ep, .grotto, .cal, .cmp, .coll, .xlat, .mem, .dict, .host, .can, .sec, .log, .lantern, .muster, .pwr, .resets, .sent] sb sc := by
  unfold execDictionaryRestore
  try dsimp only
  refine ⟨_, rfl, ?_⟩
  repeat'
    with_reducible (first
      | assumption | exact Only.refl _ _ | exact by decide | apply Only.gite | apply Only.gdite | apply afterResponse_parts
      | apply storeAction_parts | apply beginOp_parts | (intro _) | split)

theorem execDictionaryDefaults_parts (src : Route) (v : BitVec 8) (sb : State) :
    ∃ sc, execDictionaryDefaults src v sb = .next sc ∧ Only [.time, .ports, .sw, .routes, .bep, .ep, .grotto, .cal, .cmp, .coll, .xlat, .mem, .dict, .host, .can, .sec, .log, .lantern, .muster, .pwr, .resets, .sent] sb sc := by
  unfold execDictionaryDefaults
  try dsimp only
  refine ⟨_, rfl, ?_⟩
  repeat'
    with_reducible (first
      | assumption | exact Only.refl _ _ | exact by decide | apply Only.gite | apply Only.gdite | apply afterResponse_parts
      | apply storeAction_parts | apply beginOp_parts | (intro _) | split)

theorem execDictionaryErase_parts (src : Route) (v : BitVec 8) (sb : State) :
    ∃ sc, execDictionaryErase src v sb = .next sc ∧ Only [.time, .ports, .sw, .routes, .bep, .ep, .grotto, .cal, .cmp, .coll, .xlat, .mem, .dict, .host, .can, .sec, .log, .lantern, .muster, .pwr, .resets, .sent] sb sc := by
  unfold execDictionaryErase
  try dsimp only
  refine ⟨_, rfl, ?_⟩
  repeat'
    with_reducible (first
      | assumption | exact Only.refl _ _ | exact by decide | apply Only.gite | apply Only.gdite | apply afterResponse_parts
      | apply storeAction_parts | apply beginOp_parts | (intro _) | split)

theorem execSnapshotTrigger_parts (src : Route) (v : BitVec 8) (sb : State) :
    ∃ sc, execSnapshotTrigger src v sb = .next sc ∧ Only [.dict, .host, .sent] sb sc := by
  unfold execSnapshotTrigger
  try dsimp only
  refine ⟨_, rfl, ?_⟩
  repeat'
    with_reducible (first
      | assumption | exact Only.refl _ _ | exact by decide | apply Only.gite | apply Only.gdite | apply snapshotTrigger_parts
      | apply beginOp_parts | (intro _) | split)

theorem execSnapshotPeriod_parts (sb : State) :
    ∃ sc, execSnapshotPeriod sb = .next sc ∧ Only [.dict] sb sc := by
  unfold execSnapshotPeriod
  try dsimp only
  refine ⟨_, rfl, ?_⟩
  repeat'
    with_reducible (first
      | assumption | exact Only.refl _ _ | exact by decide | apply Only.gite | apply Only.gdite | apply armSnapshot_parts
      | (intro _) | split)

theorem execTelemetryCapture_parts (sb : State) :
    ∃ sc, execTelemetryCapture sb = .next sc ∧ Only [.time, .dict, .can] sb sc := by
  unfold execTelemetryCapture
  try dsimp only
  refine ⟨_, rfl, ?_⟩
  repeat'
    with_reducible (first
      | assumption | exact Only.refl _ _ | exact by decide | apply Only.gite | apply Only.gdite
      | apply telemetryCapture_parts | (intro _) | split)

theorem execSnapshotResultReady_parts (sb : State) :
    ∃ sc, execSnapshotResultReady sb = .next sc ∧ Only [.dict] sb sc := by
  unfold execSnapshotResultReady
  try dsimp only
  refine ⟨_, rfl, ?_⟩
  repeat'
    with_reducible (first
      | assumption | exact Only.refl _ _ | exact by decide | apply Only.gite | apply Only.gdite | apply snapshotReady_parts
      | (intro _) | split)

end Sys2Proof.Machine
end

