-- ==== Sys2Proof/Laws/PartsEcho.lean ====
section
/-! SUPPORT. What each command of Machine/Echo.lean may change; each ends in a next state. -/

namespace Sys2Proof.Machine

open Sys2Proof

set_option linter.unusedTactic false
set_option linter.unreachableTactic false

theorem execCommandEnd_parts (core : CoreN) (slot : SlotN) (sb : State) :
    ∃ sc, execCommandEnd core slot sb = .next sc ∧ Only [.bep, .ep, .grotto, .cmp, .xlat, .mem, .dict, .host, .can, .log, .lantern, .pwr, .sent] sb sc := by
  unfold execCommandEnd
  try dsimp only
  refine ⟨_, rfl, ?_⟩
  repeat'
    with_reducible (first
      | assumption | exact Only.refl _ _ | exact by decide | apply Only.gite | apply Only.gdite | apply endCommand_parts
      | (intro _) | split)

theorem execLanternSample_parts (sb : State) :
    ∃ sc, execLanternSample sb = .next sc ∧ Only [.time, .ports, .sw, .cmp, .dict, .host, .can, .log, .lantern, .pwr, .sent] sb sc := by
  unfold execLanternSample
  try dsimp only
  refine ⟨_, rfl, ?_⟩
  repeat'
    with_reducible (first
      | assumption | exact Only.refl _ _ | exact by decide | apply Only.gite | apply Only.gdite | apply lanternSample_parts
      | (intro _) | split)

theorem execEchoReplay_parts (sb : State) :
    ∃ sc, execEchoReplay sb = .next sc ∧ Only [.cmp, .dict, .host, .can, .log, .lantern, .pwr, .sent] sb sc := by
  unfold execEchoReplay
  try dsimp only
  refine ⟨_, rfl, ?_⟩
  repeat'
    with_reducible (first
      | assumption | exact Only.refl _ _ | exact by decide | apply Only.gite | apply Only.gdite | apply echoReplay_parts
      | (intro _) | split)

theorem execEchoReplayTimeout_parts (sb : State) :
    ∃ sc, execEchoReplayTimeout sb = .next sc ∧ Only [.cmp, .dict, .host, .can, .log, .lantern, .pwr, .sent] sb sc := by
  unfold execEchoReplayTimeout
  try dsimp only
  refine ⟨_, rfl, ?_⟩
  repeat'
    with_reducible (first
      | assumption | exact Only.refl _ _ | exact by decide | apply Only.gite | apply Only.gdite | apply echoTimeout_parts
      | (intro _) | split)

end Sys2Proof.Machine
end

