-- ==== Sys2Proof/Laws/PartsEpWindows.lean ====
section
/-! SUPPORT. What each command of Machine/EpWindows.lean may change; each ends in a next state. -/

namespace Sys2Proof.Machine

open Sys2Proof

set_option linter.unusedTactic false
set_option linter.unreachableTactic false

theorem execReduceStore_parts (id : Nat) (tenant : Option (BitVec 4)) (permC : Bool) (window : BitVec 16)
    (step : BitVec 32) (offset : Nat) (lines : Bytes) (sb : State) :
    ∃ sc, execReduceStore id tenant permC window step offset lines sb = .next sc ∧ Only [.ep, .cmp, .dict, .sent] sb sc := by
  unfold execReduceStore
  try dsimp only
  refine ⟨_, rfl, ?_⟩
  repeat'
    with_reducible (first
      | assumption | exact Only.refl _ _ | exact by decide | apply Only.gite | apply Only.gdite | apply reduceStore_parts
      | (intro _) | split)

theorem execEpWindowBind_parts (id : Nat) (pasid : BitVec 20) (d : Bytes) (base : BitVec 64) (sb : State) :
    ∃ sc, execEpWindowBind id pasid d base sb = .next sc ∧ Only [.ep, .sent] sb sc := by
  unfold execEpWindowBind
  try dsimp only
  refine ⟨_, rfl, ?_⟩
  repeat'
    with_reducible (first
      | assumption | exact Only.refl _ _ | exact by decide | apply Only.gite | apply Only.gdite | apply epWindowBind_parts
      | (intro _) | split)

theorem execEpCalendarLoad_parts (id round : Nat) (records : List (BitVec 128)) (arm : BitVec 64) (sb : State) :
    ∃ sc, execEpCalendarLoad id round records arm sb = .next sc ∧ Only [.ep, .sent] sb sc := by
  unfold execEpCalendarLoad
  try dsimp only
  refine ⟨_, rfl, ?_⟩
  repeat'
    with_reducible (first
      | assumption | exact Only.refl _ _ | exact by decide | apply Only.gite | apply Only.gdite | apply epCalendarLoad_parts
      | (intro _) | split)

theorem execEpVc9Slot_parts (offset : Nat) (sb : State) :
    ∃ sc, execEpVc9Slot offset sb = .next sc ∧ Only [.time, .ep, .cmp, .dict, .host, .sent] sb sc := by
  unfold execEpVc9Slot
  try dsimp only
  refine ⟨_, rfl, ?_⟩
  repeat'
    with_reducible (first
      | assumption | exact Only.refl _ _ | exact by decide | apply Only.gite | apply Only.gdite | apply epVc9Slot_parts
      | (intro _) | split)

theorem execEpVc10Receive_parts (c : Cell) (sb : State) :
    ∃ sc, execEpVc10Receive c sb = .next sc ∧ Only [.ep, .dict, .host, .sent] sb sc := by
  unfold execEpVc10Receive
  try dsimp only
  refine ⟨_, rfl, ?_⟩
  repeat'
    with_reducible (first
      | assumption | exact Only.refl _ _ | exact by decide | apply Only.gite | apply Only.gdite | apply epVc10Receive_parts
      | (intro _) | split)

theorem execStepFence_parts (id : Nat) (window : BitVec 16) (sb : State) :
    ∃ sc, execStepFence id window sb = .next sc ∧ Only [.ep, .sent] sb sc := by
  unfold execStepFence
  try dsimp only
  refine ⟨_, rfl, ?_⟩
  repeat'
    with_reducible (first
      | assumption | exact Only.refl _ _ | exact by decide | apply Only.gite | apply Only.gdite | apply stepFence_parts
      | (intro _) | split)

theorem execEpCommit_parts (window : BitVec 16) (sb : State) :
    ∃ sc, execEpCommit window sb = .next sc ∧ Only [.time, .bep, .ep, .grotto, .cmp, .dict, .host, .can, .log, .pwr, .sent] sb sc := by
  unfold execEpCommit
  try dsimp only
  refine ⟨_, rfl, ?_⟩
  repeat'
    with_reducible (first
      | assumption | exact Only.refl _ _ | exact by decide | apply Only.gite | apply Only.gdite | apply epCommit_parts
      | (intro _) | split)

theorem execEpCalendarSwitch_parts (sb : State) :
    ∃ sc, execEpCalendarSwitch sb = .next sc ∧ Only [.time, .ep] sb sc := by
  unfold execEpCalendarSwitch
  try dsimp only
  refine ⟨_, rfl, ?_⟩
  repeat'
    with_reducible (first
      | assumption | exact Only.refl _ _ | exact by decide | apply Only.gite | apply Only.gdite
      | apply epCalendarSwitch_parts | (intro _) | split)

end Sys2Proof.Machine
end

