-- ==== Sys2Proof/Laws/PartsGddr.lean ====
section
/-! SUPPORT. What each command of Machine/Gddr.lean may change; each ends in a next state. -/

namespace Sys2Proof.Machine

open Sys2Proof

set_option linter.unusedTactic false
set_option linter.unreachableTactic false

theorem execBackgroundSlot_parts (found : List (Fin 128 × BurstResult)) (sb : State) :
    ∃ sc, execBackgroundSlot found sb = .next sc ∧ Only [.time, .mem, .dict, .host, .can, .log, .pwr, .sent] sb sc := by
  unfold execBackgroundSlot
  try dsimp only
  refine ⟨_, rfl, ?_⟩
  repeat'
    with_reducible (first
      | assumption | exact Only.refl _ _ | exact by decide | apply Only.gite | apply Only.gdite | apply backgroundSlot_parts
      | (intro _) | split)

theorem execBurstSlot_parts (results : List (Fin 128 × BurstResult)) (sb : State) :
    ∃ sc, execBurstSlot results sb = .next sc ∧ Only [.time, .mem, .dict, .host, .can, .log, .pwr, .sent] sb sc := by
  unfold execBurstSlot
  try dsimp only
  refine ⟨_, rfl, ?_⟩
  repeat'
    with_reducible (first
      | assumption | exact Only.refl _ _ | exact by decide | apply Only.gite | apply Only.gdite | apply burstSlot_parts
      | (intro _) | split)

theorem execChannelRetrain_parts (channel : Fin 128) (ok : Bool) (sb : State) :
    ∃ sc, execChannelRetrain channel ok sb = .next sc ∧ Only [.mem, .dict, .host, .can, .log, .pwr, .sent] sb sc := by
  unfold execChannelRetrain
  try dsimp only
  refine ⟨_, rfl, ?_⟩
  repeat'
    with_reducible (first
      | assumption | exact Only.refl _ _ | exact by decide | apply Only.gite | apply Only.gdite | apply channelRetrain_parts
      | (intro _) | split)

theorem execBar2Read_parts (offset len : Nat) (sb : State) :
    ∃ sc, execBar2Read offset len sb = .next sc ∧ Only [.mem, .dict, .sent] sb sc := by
  unfold execBar2Read
  try dsimp only
  refine ⟨_, rfl, ?_⟩
  repeat'
    with_reducible (first
      | assumption | exact Only.refl _ _ | exact by decide | apply Only.gite | apply Only.gdite | apply bar2Read_parts
      | (intro _) | split)

theorem execBar2Write_parts (offset : Nat) (data : List (Option Byte)) (sb : State) :
    ∃ sc, execBar2Write offset data sb = .next sc ∧ Only [.bep, .mem, .dict, .host, .can, .log, .pwr, .sent] sb sc := by
  unfold execBar2Write
  try dsimp only
  refine ⟨_, rfl, ?_⟩
  repeat'
    with_reducible (first
      | assumption | exact Only.refl _ _ | exact by decide | apply Only.gite | apply Only.gdite | apply bar2Write_parts
      | (intro _) | split)

end Sys2Proof.Machine
end

