-- ==== Sys2Proof/Laws/PartsGrotto.lean ====
section
/-! SUPPORT. What each command of Machine/Grotto.lean may change; each ends in a next state. -/

namespace Sys2Proof.Machine

open Sys2Proof

set_option linter.unusedTactic false
set_option linter.unreachableTactic false

theorem execDirectoryAccess_parts (sb : State) :
    ∃ sc, execDirectoryAccess sb = .next sc ∧ Only [.ports, .sw, .bep, .ep, .grotto, .mem, .dict, .host, .can, .log, .lantern, .pwr, .sent] sb sc := by
  unfold execDirectoryAccess
  try dsimp only
  refine ⟨_, rfl, ?_⟩
  repeat'
    with_reducible (first
      | assumption | exact Only.refl _ _ | exact by decide | apply Only.gite | apply Only.gdite | apply directoryAccess_parts
      | (intro _) | split)

theorem execSnpReceive_parts (p : PortN) (c : Cell) (sb : State) :
    ∃ sc, execSnpReceive p c sb = .next sc ∧ Only [.grotto, .sent] sb sc := by
  unfold execSnpReceive
  try dsimp only
  refine ⟨_, rfl, ?_⟩
  repeat'
    with_reducible (first
      | assumption | exact Only.refl _ _ | exact by decide | apply Only.gite | apply Only.gdite | apply snpReceive_parts
      | (intro _) | split)

theorem execSnrReceive_parts (c : Cell) (sb : State) :
    ∃ sc, execSnrReceive c sb = .next sc ∧ Only [.ports, .sw, .bep, .ep, .grotto, .mem, .dict, .host, .can, .log, .lantern, .pwr, .sent] sb sc := by
  unfold execSnrReceive
  try dsimp only
  refine ⟨_, rfl, ?_⟩
  repeat'
    with_reducible (first
      | assumption | exact Only.refl _ _ | exact by decide | apply Only.gite | apply Only.gdite | apply snrReceive_parts
      | (intro _) | split)

theorem execForwardTimeout_parts (line : Nat) (sb : State) :
    ∃ sc, execForwardTimeout line sb = .next sc ∧ Only [.grotto, .dict, .lantern] sb sc := by
  unfold execForwardTimeout
  try dsimp only
  refine ⟨_, rfl, ?_⟩
  repeat'
    with_reducible (first
      | assumption | exact Only.refl _ _ | exact by decide | apply Only.gite | apply Only.gdite | apply forwardTimeout_parts
      | (intro _) | split)

theorem execProbeTimeout_parts (tag : BitVec 16) (sb : State) :
    ∃ sc, execProbeTimeout tag sb = .next sc ∧ Only [.ports, .sw, .bep, .ep, .grotto, .mem, .dict, .host, .can, .log, .lantern, .pwr, .sent] sb sc := by
  unfold execProbeTimeout
  try dsimp only
  refine ⟨_, rfl, ?_⟩
  repeat'
    with_reducible (first
      | assumption | exact Only.refl _ _ | exact by decide | apply Only.gite | apply Only.gdite | apply probeTimeout_parts
      | (intro _) | split)

theorem execLossWalkStep_parts (sb : State) :
    ∃ sc, execLossWalkStep sb = .next sc ∧ Only [.ports, .sw, .bep, .ep, .grotto, .mem, .dict, .host, .can, .log, .lantern, .pwr, .sent] sb sc := by
  unfold execLossWalkStep
  try dsimp only
  refine ⟨_, rfl, ?_⟩
  repeat'
    with_reducible (first
      | assumption | exact Only.refl _ _ | exact by decide | apply Only.gite | apply Only.gdite | apply lossWalkStep_parts
      | (intro _) | split)

theorem execRecall_parts (src : Route) (v : BitVec 8) (sb : State) :
    ∃ sc, execRecall src v sb = .next sc ∧ Only [.ports, .sw, .bep, .ep, .grotto, .mem, .dict, .host, .can, .log, .lantern, .pwr, .sent] sb sc := by
  unfold execRecall
  try dsimp only
  refine ⟨_, rfl, ?_⟩
  repeat'
    with_reducible (first
      | assumption | exact Only.refl _ _ | exact by decide | apply Only.gite | apply Only.gdite | apply recallWrite_parts
      | (intro _) | split)

end Sys2Proof.Machine
end

