-- ==== Sys2Proof/Laws/PartsHostFunction.lean ====
section
/-! SUPPORT. What each command of Machine/HostFunction.lean may change; each ends in a next state. -/

namespace Sys2Proof.Machine

open Sys2Proof

set_option linter.unusedTactic false
set_option linter.unreachableTactic false

theorem execRegisterWrite_parts (offset : Nat) (data : List (Option Byte)) (sb : State) :
    ∃ sc, execRegisterWrite offset data sb = .next sc ∧ Only [.time, .ports, .sw, .routes, .bep, .ep, .grotto, .cal, .cmp, .coll, .xlat, .mem, .dict, .host, .can, .sec, .log, .lantern, .muster, .pwr, .resets, .sent] sb sc := by
  unfold execRegisterWrite
  try dsimp only
  refine ⟨_, rfl, ?_⟩
  repeat'
    with_reducible (first
      | assumption | exact Only.refl _ _ | exact by decide | apply Only.gite | apply Only.gdite | apply registerWrite_parts
      | (intro _) | split)

theorem execIrqCauseClear_parts (v : BitVec 64) (sb : State) :
    ∃ sc, execIrqCauseClear v sb = .next sc ∧ Only [.host] sb sc := by
  unfold execIrqCauseClear
  try dsimp only
  refine ⟨_, rfl, ?_⟩
  repeat'
    with_reducible (first
      | assumption | exact Only.refl _ _ | exact by decide | apply Only.gite | apply Only.gdite | apply barWrite_parts
      | apply clearCauses_parts | (intro _) | split)

theorem execPerstDeassert_parts (sb : State) :
    ∃ sc, execPerstDeassert sb = .next sc ∧ Only [.bep, .ep, .grotto, .cmp, .xlat, .mem, .dict, .host, .can, .sec, .log, .pwr, .sent] sb sc := by
  unfold execPerstDeassert
  try dsimp only
  refine ⟨_, rfl, ?_⟩
  repeat'
    with_reducible (first
      | assumption | exact Only.refl _ _ | exact by decide | apply Only.gite | apply Only.gdite | apply modHost_parts
      | apply functionReset_parts | (intro _) | split)

theorem execFunctionLevelReset_parts (sb : State) :
    ∃ sc, execFunctionLevelReset sb = .next sc ∧ Only [.bep, .ep, .grotto, .cmp, .xlat, .mem, .dict, .host, .can, .sec, .log, .pwr, .sent] sb sc := by
  unfold execFunctionLevelReset
  try dsimp only
  refine ⟨_, rfl, ?_⟩
  repeat'
    with_reducible (first
      | assumption | exact Only.refl _ _ | exact by decide | apply Only.gite | apply Only.gdite | apply functionReset_parts
      | (intro _) | split)

theorem execPcieRefclkLoss_parts (sb : State) :
    ∃ sc, execPcieRefclkLoss sb = .next sc ∧ Only [.host] sb sc := by
  unfold execPcieRefclkLoss
  try dsimp only
  refine ⟨_, rfl, ?_⟩
  repeat'
    with_reducible (first
      | assumption | exact Only.refl _ _ | exact by decide | apply Only.gite | apply Only.gdite | apply modHost_parts
      | (intro _) | split)

theorem execPowerStateChange_parts (d3hot : Bool) (sb : State) :
    ∃ sc, execPowerStateChange d3hot sb = .next sc ∧ Only [.host] sb sc := by
  unfold execPowerStateChange
  try dsimp only
  refine ⟨_, rfl, ?_⟩
  repeat'
    with_reducible (first
      | assumption | exact Only.refl _ _ | exact by decide | apply Only.gite | apply Only.gdite | apply powerState_parts
      | (intro _) | split)

theorem execDoeDiscovery_parts (index : BitVec 8) (dwords : Nat) (sb : State) :
    ∃ sc, execDoeDiscovery index dwords sb = .next sc ∧ Only [.host, .sent] sb sc := by
  unfold execDoeDiscovery
  try dsimp only
  refine ⟨_, rfl, ?_⟩
  repeat'
    with_reducible (first
      | assumption | exact Only.refl _ _ | exact by decide | apply Only.gite | apply Only.gdite | apply doeDiscovery_parts
      | (intro _) | split)

end Sys2Proof.Machine
end

