-- ==== Sys2Proof/Laws/PartsKernels.lean ====
section
/-! SUPPORT. What each command of Machine/Kernels.lean may change; each ends in a next state. -/

namespace Sys2Proof.Machine

open Sys2Proof

set_option linter.unusedTactic false
set_option linter.unreachableTactic false

theorem execKernelLoad_parts (src : Route) (v : BitVec 8) (sb : State) :
    ∃ sc, execKernelLoad src v sb = .next sc ∧ Only [.cmp, .dict, .host, .sent] sb sc := by
  unfold execKernelLoad
  try dsimp only
  refine ⟨_, rfl, ?_⟩
  repeat'
    with_reducible (first
      | assumption | exact Only.refl _ _ | exact by decide | apply Only.gite | apply Only.gdite | apply kernelLoad_parts
      | (intro _) | split)

theorem execKernelLoadDone_parts (sb : State) :
    ∃ sc, execKernelLoadDone sb = .next sc ∧ Only [.bep, .cmp, .mem, .host, .sec, .sent] sb sc := by
  unfold execKernelLoadDone
  try dsimp only
  refine ⟨_, rfl, ?_⟩
  repeat'
    with_reducible (first
      | assumption | exact Only.refl _ _ | exact by decide | apply Only.gite | apply Only.gdite | apply kernelLoadDone_parts
      | (intro _) | split)

theorem execKernelUnload_parts (src : Route) (v : BitVec 16) (sb : State) :
    ∃ sc, execKernelUnload src v sb = .next sc ∧ Only [.cmp, .dict] sb sc := by
  unfold execKernelUnload
  try dsimp only
  refine ⟨_, rfl, ?_⟩
  repeat'
    with_reducible (first
      | assumption | exact Only.refl _ _ | exact by decide | apply Only.gite | apply Only.gdite | apply kernelUnload_parts
      | (intro _) | split)

end Sys2Proof.Machine
end

