-- ==== Sys2Proof/Laws/PartsKeying.lean ====
section
/-! SUPPORT. What each command of Machine/Keying.lean may change; each ends in a next state. -/

namespace Sys2Proof.Machine

open Sys2Proof

set_option linter.unusedTactic false
set_option linter.unreachableTactic false

theorem execActiveEntry_parts (p : PortN) (sb : State) :
    ∃ sc, execActiveEntry p sb = .next sc ∧ Only [.time, .ports, .sw, .dict, .host, .can, .log, .pwr, .sent, .free] sb sc := by
  unfold execActiveEntry
  try dsimp only
  refine ⟨_, rfl, ?_⟩
  repeat'
    with_reducible (first
      | assumption | exact Only.refl _ _ | exact by decide | apply Only.gite | apply Only.gdite | apply beginKeying_parts
      | apply activeEntry_parts | (intro _) | split)

theorem execKeyOffer_parts (p : PortN) (o : KeyOffer) (sb : State) :
    ∃ sc, execKeyOffer p o sb = .next sc ∧ Only [.ports, .sw, .dict, .host, .can, .log, .pwr, .sent, .free] sb sc := by
  unfold execKeyOffer
  try dsimp only
  refine ⟨_, rfl, ?_⟩
  repeat'
    with_reducible (first
      | assumption | exact Only.refl _ _ | exact by decide | apply Only.gite | apply Only.gdite | apply keyOfferReceive_parts
      | (intro _) | split)

theorem execKeyProof_parts (p : PortN) (signature : Bytes) (sb : State) :
    ∃ sc, execKeyProof p signature sb = .next sc ∧ Only [.ports, .dict, .host, .can, .log, .pwr, .sent] sb sc := by
  unfold execKeyProof
  try dsimp only
  refine ⟨_, rfl, ?_⟩
  repeat'
    with_reducible (first
      | assumption | exact Only.refl _ _ | exact by decide | apply Only.gite | apply Only.gdite | apply keyProofReceive_parts
      | (intro _) | split)

theorem execKeyStart_parts (p : PortN) (n : Bytes) (start : Nat) (sb : State) :
    ∃ sc, execKeyStart p n start sb = .next sc ∧ Only [.ports, .sw, .dict, .host, .can, .log, .pwr, .sent, .free] sb sc := by
  unfold execKeyStart
  try dsimp only
  refine ⟨_, rfl, ?_⟩
  repeat'
    with_reducible (first
      | assumption | exact Only.refl _ _ | exact by decide | apply Only.gite | apply Only.gdite | apply keyStartReceive_parts
      | (intro _) | split)

theorem execKeyAck_parts (p : PortN) (n : Bytes) (start : Nat) (sb : State) :
    ∃ sc, execKeyAck p n start sb = .next sc ∧ Only [.ports] sb sc := by
  unfold execKeyAck
  try dsimp only
  refine ⟨_, rfl, ?_⟩
  repeat'
    with_reducible (first
      | assumption | exact Only.refl _ _ | exact by decide | apply Only.gite | apply Only.gdite | apply keyAckReceive_parts
      | (intro _) | split)

theorem execKeyMessageResend_parts (p : PortN) (sb : State) :
    ∃ sc, execKeyMessageResend p sb = .next sc ∧ Only [.ports, .sw, .dict, .host, .can, .log, .pwr, .sent] sb sc := by
  unfold execKeyMessageResend
  try dsimp only
  refine ⟨_, rfl, ?_⟩
  repeat'
    with_reducible (first
      | assumption | exact Only.refl _ _ | exact by decide | apply Only.gite | apply Only.gdite | apply keyResend_parts
      | (intro _) | split)

theorem execKeyHandshakeRetry_parts (p : PortN) (sb : State) :
    ∃ sc, execKeyHandshakeRetry p sb = .next sc ∧ Only [.ports, .sw, .dict, .host, .can, .log, .pwr, .sent, .free] sb sc := by
  unfold execKeyHandshakeRetry
  try dsimp only
  refine ⟨_, rfl, ?_⟩
  repeat'
    with_reducible (first
      | assumption | exact Only.refl _ _ | exact by decide | apply Only.gite | apply Only.gdite | apply keyRetry_parts
      | (intro _) | split)

theorem execKeyRenewal_parts (p : PortN) (sb : State) :
    ∃ sc, execKeyRenewal p sb = .next sc ∧ Only [.ports, .sw, .dict, .host, .can, .log, .pwr, .sent, .free] sb sc := by
  unfold execKeyRenewal
  try dsimp only
  refine ⟨_, rfl, ?_⟩
  repeat'
    with_reducible (first
      | assumption | exact Only.refl _ _ | exact by decide | apply Only.gite | apply Only.gdite | apply startKey_parts
      | (intro _) | split)

theorem execKeySwitch_parts (p : PortN) (sb : State) :
    ∃ sc, execKeySwitch p sb = .next sc ∧ Only [.time, .ports, .sw, .dict, .host, .can, .log, .pwr, .sent, .free] sb sc := by
  unfold execKeySwitch
  try dsimp only
  refine ⟨_, rfl, ?_⟩
  repeat'
    with_reducible (first
      | assumption | exact Only.refl _ _ | exact by decide | apply Only.gite | apply Only.gdite | apply keySwitch_parts
      | (intro _) | split)

end Sys2Proof.Machine
end

