-- ==== Sys2Proof/Laws/PartsLanes.lean ====
section
/-! SUPPORT. What each command of Machine/Lanes.lean may change; each ends in a next state. -/

namespace Sys2Proof.Machine

open Sys2Proof

set_option linter.unusedTactic false
set_option linter.unreachableTactic false

theorem execIntAdd_parts (w : StreamId) (f : IFields) (sb : State) :
    ∃ sc, execIntAdd w f sb = .next sc ∧ Only [.cmp, .dict, .host, .can, .log, .lantern, .pwr, .sent] sb sc := by
  unfold execIntAdd
  try dsimp only
  refine ⟨_, rfl, ?_⟩
  repeat'
    with_reducible (first
      | assumption | exact Only.refl _ _ | exact by decide | apply Only.gite | apply Only.gdite | apply intOp_parts
      | (intro _) | split)

theorem execIntSub_parts (w : StreamId) (f : IFields) (sb : State) :
    ∃ sc, execIntSub w f sb = .next sc ∧ Only [.cmp, .dict, .host, .can, .log, .lantern, .pwr, .sent] sb sc := by
  unfold execIntSub
  try dsimp only
  refine ⟨_, rfl, ?_⟩
  repeat'
    with_reducible (first
      | assumption | exact Only.refl _ _ | exact by decide | apply Only.gite | apply Only.gdite | apply intOp_parts
      | (intro _) | split)

theorem execIntMullo_parts (w : StreamId) (f : IFields) (sb : State) :
    ∃ sc, execIntMullo w f sb = .next sc ∧ Only [.cmp, .dict, .host, .can, .log, .lantern, .pwr, .sent] sb sc := by
  unfold execIntMullo
  try dsimp only
  refine ⟨_, rfl, ?_⟩
  repeat'
    with_reducible (first
      | assumption | exact Only.refl _ _ | exact by decide | apply Only.gite | apply Only.gdite | apply intOp_parts
      | (intro _) | split)

theorem execIntAnd_parts (w : StreamId) (f : IFields) (sb : State) :
    ∃ sc, execIntAnd w f sb = .next sc ∧ Only [.cmp, .dict, .host, .can, .log, .lantern, .pwr, .sent] sb sc := by
  unfold execIntAnd
  try dsimp only
  refine ⟨_, rfl, ?_⟩
  repeat'
    with_reducible (first
      | assumption | exact Only.refl _ _ | exact by decide | apply Only.gite | apply Only.gdite | apply intOp_parts
      | (intro _) | split)

theorem execIntOr_parts (w : StreamId) (f : IFields) (sb : State) :
    ∃ sc, execIntOr w f sb = .next sc ∧ Only [.cmp, .dict, .host, .can, .log, .lantern, .pwr, .sent] sb sc := by
  unfold execIntOr
  try dsimp only
  refine ⟨_, rfl, ?_⟩
  repeat'
    with_reducible (first
      | assumption | exact Only.refl _ _ | exact by decide | apply Only.gite | apply Only.gdite | apply intOp_parts
      | (intro _) | split)

theorem execIntXor_parts (w : StreamId) (f : IFields) (sb : State) :
    ∃ sc, execIntXor w f sb = .next sc ∧ Only [.cmp, .dict, .host, .can, .log, .lantern, .pwr, .sent] sb sc := by
  unfold execIntXor
  try dsimp only
  refine ⟨_, rfl, ?_⟩
  repeat'
    with_reducible (first
      | assumption | exact Only.refl _ _ | exact by decide | apply Only.gite | apply Only.gdite | apply intOp_parts
      | (intro _) | split)

theorem execIntShl_parts (w : StreamId) (f : IFields) (sb : State) :
    ∃ sc, execIntShl w f sb = .next sc ∧ Only [.cmp, .dict, .host, .can, .log, .lantern, .pwr, .sent] sb sc := by
  unfold execIntShl
  try dsimp only
  refine ⟨_, rfl, ?_⟩
  repeat'
    with_reducible (first
      | assumption | exact Only.refl _ _ | exact by decide | apply Only.gite | apply Only.gdite | apply shiftOp_parts
      | (intro _) | split)

theorem execIntShr_parts (w : StreamId) (f : IFields) (sb : State) :
    ∃ sc, execIntShr w f sb = .next sc ∧ Only [.cmp, .dict, .host, .can, .log, .lantern, .pwr, .sent] sb sc := by
  unfold execIntShr
  try dsimp only
  refine ⟨_, rfl, ?_⟩
  repeat'
    with_reducible (first
      | assumption | exact Only.refl _ _ | exact by decide | apply Only.gite | apply Only.gdite | apply shiftOp_parts
      | (intro _) | split)

theorem execIntSar_parts (w : StreamId) (f : IFields) (sb : State) :
    ∃ sc, execIntSar w f sb = .next sc ∧ Only [.cmp, .dict, .host, .can, .log, .lantern, .pwr, .sent] sb sc := by
  unfold execIntSar
  try dsimp only
  refine ⟨_, rfl, ?_⟩
  repeat'
    with_reducible (first
      | assumption | exact Only.refl _ _ | exact by decide | apply Only.gite | apply Only.gdite | apply shiftOp_parts
      | (intro _) | split)

theorem execIntMin_parts (w : StreamId) (f : IFields) (sb : State) :
    ∃ sc, execIntMin w f sb = .next sc ∧ Only [.cmp, .dict, .host, .can, .log, .lantern, .pwr, .sent] sb sc := by
  unfold execIntMin
  try dsimp only
  refine ⟨_, rfl, ?_⟩
  repeat'
    with_reducible (first
      | assumption | exact Only.refl _ _ | exact by decide | apply Only.gite | apply Only.gdite | apply intOp_parts
      | (intro _) | split)

theorem execIntMax_parts (w : StreamId) (f : IFields) (sb : State) :
    ∃ sc, execIntMax w f sb = .next sc ∧ Only [.cmp, .dict, .host, .can, .log, .lantern, .pwr, .sent] sb sc := by
  unfold execIntMax
  try dsimp only
  refine ⟨_, rfl, ?_⟩
  repeat'
    with_reducible (first
      | assumption | exact Only.refl _ _ | exact by decide | apply Only.gite | apply Only.gdite | apply intOp_parts
      | (intro _) | split)

theorem execIntMov_parts (w : StreamId) (f : IFields) (sb : State) :
    ∃ sc, execIntMov w f sb = .next sc ∧ Only [.cmp, .dict, .host, .can, .log, .lantern, .pwr, .sent] sb sc := by
  unfold execIntMov
  try dsimp only
  refine ⟨_, rfl, ?_⟩
  repeat'
    with_reducible (first
      | assumption | exact Only.refl _ _ | exact by decide | apply Only.gite | apply Only.gdite | apply intOp_parts
      | (intro _) | split)

theorem execIntMovi_parts (w : StreamId) (f : IFields) (sb : State) :
    ∃ sc, execIntMovi w f sb = .next sc ∧ Only [.cmp, .dict, .host, .can, .log, .lantern, .pwr, .sent, .free] sb sc := by
  unfold execIntMovi
  try dsimp only
  refine ⟨_, rfl, ?_⟩
  repeat'
    with_reducible (first
      | assumption | exact Only.refl _ _ | exact by decide | apply Only.gite | apply Only.gdite | apply issue_parts
      | apply modStream_parts | apply drawn_parts | (intro _) | split)

theorem execCmpEq_parts (w : StreamId) (f : IFields) (sb : State) :
    ∃ sc, execCmpEq w f sb = .next sc ∧ Only [.cmp, .dict, .host, .can, .log, .lantern, .pwr, .sent] sb sc := by
  unfold execCmpEq
  try dsimp only
  refine ⟨_, rfl, ?_⟩
  repeat'
    with_reducible (first
      | assumption | exact Only.refl _ _ | exact by decide | apply Only.gite | apply Only.gdite | apply cmpOp_parts
      | (intro _) | split)

theorem execCmpNe_parts (w : StreamId) (f : IFields) (sb : State) :
    ∃ sc, execCmpNe w f sb = .next sc ∧ Only [.cmp, .dict, .host, .can, .log, .lantern, .pwr, .sent] sb sc := by
  unfold execCmpNe
  try dsimp only
  refine ⟨_, rfl, ?_⟩
  repeat'
    with_reducible (first
      | assumption | exact Only.refl _ _ | exact by decide | apply Only.gite | apply Only.gdite | apply cmpOp_parts
      | (intro _) | split)

theorem execCmpLt_parts (w : StreamId) (f : IFields) (sb : State) :
    ∃ sc, execCmpLt w f sb = .next sc ∧ Only [.cmp, .dict, .host, .can, .log, .lantern, .pwr, .sent] sb sc := by
  unfold execCmpLt
  try dsimp only
  refine ⟨_, rfl, ?_⟩
  repeat'
    with_reducible (first
      | assumption | exact Only.refl _ _ | exact by decide | apply Only.gite | apply Only.gdite | apply cmpOp_parts
      | (intro _) | split)

theorem execCmpLe_parts (w : StreamId) (f : IFields) (sb : State) :
    ∃ sc, execCmpLe w f sb = .next sc ∧ Only [.cmp, .dict, .host, .can, .log, .lantern, .pwr, .sent] sb sc := by
  unfold execCmpLe
  try dsimp only
  refine ⟨_, rfl, ?_⟩
  repeat'
    with_reducible (first
      | assumption | exact Only.refl _ _ | exact by decide | apply Only.gite | apply Only.gdite | apply cmpOp_parts
      | (intro _) | split)

theorem execCmpSel_parts (w : StreamId) (f : IFields) (sb : State) :
    ∃ sc, execCmpSel w f sb = .next sc ∧ Only [.cmp, .dict, .host, .can, .log, .lantern, .pwr, .sent] sb sc := by
  unfold execCmpSel
  try dsimp only
  refine ⟨_, rfl, ?_⟩
  repeat'
    with_reducible (first
      | assumption | exact Only.refl _ _ | exact by decide | apply Only.gite | apply Only.gdite | apply issueRegs_parts
      | (intro _) | split)

theorem execCvt_parts (w : StreamId) (f : IFields) (sb : State) :
    ∃ sc, execCvt w f sb = .next sc ∧ Only [.cmp, .dict, .host, .can, .log, .lantern, .pwr, .sent] sb sc := by
  unfold execCvt
  try dsimp only
  refine ⟨_, rfl, ?_⟩
  repeat'
    with_reducible (first
      | assumption | exact Only.refl _ _ | exact by decide | apply Only.gite | apply Only.gdite | apply issueRegs_parts
      | (intro _) | split)

theorem execFma_parts (w : StreamId) (f : IFields) (sb : State) :
    ∃ sc, execFma w f sb = .next sc ∧ Only [.cmp, .dict, .host, .can, .log, .lantern, .pwr, .sent] sb sc := by
  unfold execFma
  try dsimp only
  refine ⟨_, rfl, ?_⟩
  repeat'
    with_reducible (first
      | assumption | exact Only.refl _ _ | exact by decide | apply Only.gite | apply Only.gdite | apply fmaOp_parts
      | (intro _) | split)

theorem execFmul_parts (w : StreamId) (f : IFields) (sb : State) :
    ∃ sc, execFmul w f sb = .next sc ∧ Only [.cmp, .dict, .host, .can, .log, .lantern, .pwr, .sent] sb sc := by
  unfold execFmul
  try dsimp only
  refine ⟨_, rfl, ?_⟩
  repeat'
    with_reducible (first
      | assumption | exact Only.refl _ _ | exact by decide | apply Only.gite | apply Only.gdite | apply fmaOp_parts
      | (intro _) | split)

theorem execFadd_parts (w : StreamId) (f : IFields) (sb : State) :
    ∃ sc, execFadd w f sb = .next sc ∧ Only [.cmp, .dict, .host, .can, .log, .lantern, .pwr, .sent] sb sc := by
  unfold execFadd
  try dsimp only
  refine ⟨_, rfl, ?_⟩
  repeat'
    with_reducible (first
      | assumption | exact Only.refl _ _ | exact by decide | apply Only.gite | apply Only.gdite | apply fmaOp_parts
      | (intro _) | split)

theorem execFmin_parts (w : StreamId) (f : IFields) (sb : State) :
    ∃ sc, execFmin w f sb = .next sc ∧ Only [.cmp, .dict, .host, .can, .log, .lantern, .pwr, .sent] sb sc := by
  unfold execFmin
  try dsimp only
  refine ⟨_, rfl, ?_⟩
  repeat'
    with_reducible (first
      | assumption | exact Only.refl _ _ | exact by decide | apply Only.gite | apply Only.gdite | apply minmaxOp_parts
      | (intro _) | split)

theorem execFmax_parts (w : StreamId) (f : IFields) (sb : State) :
    ∃ sc, execFmax w f sb = .next sc ∧ Only [.cmp, .dict, .host, .can, .log, .lantern, .pwr, .sent] sb sc := by
  unfold execFmax
  try dsimp only
  refine ⟨_, rfl, ?_⟩
  repeat'
    with_reducible (first
      | assumption | exact Only.refl _ _ | exact by decide | apply Only.gite | apply Only.gdite | apply minmaxOp_parts
      | (intro _) | split)

theorem execDot8_parts (w : StreamId) (f : IFields) (sb : State) :
    ∃ sc, execDot8 w f sb = .next sc ∧ Only [.cmp, .dict, .host, .can, .log, .lantern, .pwr, .sent] sb sc := by
  unfold execDot8
  try dsimp only
  refine ⟨_, rfl, ?_⟩
  repeat'
    with_reducible (first
      | assumption | exact Only.refl _ _ | exact by decide | apply Only.gite | apply Only.gdite | apply dotOp_parts
      | (intro _) | split)

theorem execDot8Mx_parts (w : StreamId) (op : BitVec 6) (f : IFields) (sb : State) :
    ∃ sc, execDot8Mx w op f sb = .next sc ∧ Only [.cmp, .dict, .host, .can, .log, .lantern, .pwr, .sent] sb sc := by
  unfold execDot8Mx
  try dsimp only
  refine ⟨_, rfl, ?_⟩
  repeat'
    with_reducible (first
      | assumption | exact Only.refl _ _ | exact by decide | apply Only.gite | apply Only.gdite | apply dotOp_parts
      | (intro _) | split)

theorem execAccAdd_parts (w : StreamId) (f : IFields) (sb : State) :
    ∃ sc, execAccAdd w f sb = .next sc ∧ Only [.cmp, .dict, .host, .can, .log, .lantern, .pwr, .sent] sb sc := by
  unfold execAccAdd
  try dsimp only
  refine ⟨_, rfl, ?_⟩
  repeat'
    with_reducible (first
      | assumption | exact Only.refl _ _ | exact by decide | apply Only.gite | apply Only.gdite | apply accOp_parts
      | apply setAcc_parts | apply Only.foldl | apply Only.foldl_snd | apply Only.foldl_fst | (intro _) | split)

theorem execAccZero_parts (w : StreamId) (f : IFields) (sb : State) :
    ∃ sc, execAccZero w f sb = .next sc ∧ Only [.cmp, .dict, .host, .can, .log, .lantern, .pwr, .sent] sb sc := by
  unfold execAccZero
  try dsimp only
  refine ⟨_, rfl, ?_⟩
  repeat'
    with_reducible (first
      | assumption | exact Only.refl _ _ | exact by decide | apply Only.gite | apply Only.gdite | apply accOp_parts
      | apply setAcc_parts | apply Only.foldl | apply Only.foldl_snd | apply Only.foldl_fst | (intro _) | split)

theorem execAccRound_parts (w : StreamId) (f : IFields) (sb : State) :
    ∃ sc, execAccRound w f sb = .next sc ∧ Only [.cmp, .dict, .host, .can, .log, .lantern, .pwr, .sent] sb sc := by
  unfold execAccRound
  try dsimp only
  refine ⟨_, rfl, ?_⟩
  repeat'
    with_reducible (first
      | assumption | exact Only.refl _ _ | exact by decide | apply Only.gite | apply Only.gdite | apply accOp_parts
      | apply modStream_parts | apply countRounding_parts | apply Only.foldl | apply Only.foldl_snd | apply Only.foldl_fst
      | (intro _) | split)

theorem execAccLoad_parts (w : StreamId) (f : IFields) (sb : State) :
    ∃ sc, execAccLoad w f sb = .next sc ∧ Only [.cmp, .dict, .host, .can, .log, .lantern, .pwr, .sent] sb sc := by
  unfold execAccLoad
  try dsimp only
  refine ⟨_, rfl, ?_⟩
  repeat'
    with_reducible (first
      | assumption | exact Only.refl _ _ | exact by decide | apply Only.gite | apply Only.gdite | apply accOp_parts
      | apply setAcc_parts | apply Only.foldl | apply Only.foldl_snd | apply Only.foldl_fst | (intro _) | split)

end Sys2Proof.Machine
end

