-- ==== Sys2Proof/Laws/PartsLink.lean ====
section
/-! SUPPORT. What each command of Machine/Link.lean may change; each ends in a next state. -/

namespace Sys2Proof.Machine

open Sys2Proof

set_option linter.unusedTactic false
set_option linter.unreachableTactic false

theorem execRoleWrite_parts (src : Route) (p : PortN) (v : BitVec 8) (sb : State) :
    ∃ sc, execRoleWrite src p v sb = .next sc ∧ Only [.ports, .sw, .bep, .ep, .grotto, .coll, .mem, .dict, .host, .can, .log, .lantern, .muster, .pwr, .sent] sb sc := by
  unfold execRoleWrite
  try dsimp only
  refine ⟨_, rfl, ?_⟩
  repeat'
    with_reducible (first
      | assumption | exact Only.refl _ _ | exact by decide | apply Only.gite | apply Only.gdite | apply roleWrite_parts
      | apply beginOp_parts | (intro _) | split)

theorem execMediumWrite_parts (src : Route) (p : PortN) (v : BitVec 8) (sb : State) :
    ∃ sc, execMediumWrite src p v sb = .next sc ∧ Only [.dict, .host, .sent] sb sc := by
  unfold execMediumWrite
  try dsimp only
  refine ⟨_, rfl, ?_⟩
  repeat'
    with_reducible (first
      | assumption | exact Only.refl _ _ | exact by decide | apply Only.gite | apply Only.gdite | apply mediumWrite_parts
      | apply beginOp_parts | (intro _) | split)

theorem execCreditWrite_parts (src : Route) (p : PortN) (vc : Fin 12) (v : BitVec 16) (sb : State) :
    ∃ sc, execCreditWrite src p vc v sb = .next sc ∧ Only [.dict, .host, .sent] sb sc := by
  unfold execCreditWrite
  try dsimp only
  refine ⟨_, rfl, ?_⟩
  repeat'
    with_reducible (first
      | assumption | exact Only.refl _ _ | exact by decide | apply Only.gite | apply Only.gdite | apply creditWrite_parts
      | apply beginOp_parts | (intro _) | split)

theorem execTenantShareWrite_parts (src : Route) (t : TenantN) (v : BitVec 8) (sb : State) :
    ∃ sc, execTenantShareWrite src t v sb = .next sc ∧ Only [.dict, .host, .sent] sb sc := by
  unfold execTenantShareWrite
  try dsimp only
  refine ⟨_, rfl, ?_⟩
  repeat'
    with_reducible (first
      | assumption | exact Only.refl _ _ | exact by decide | apply Only.gite | apply Only.gdite
      | apply tenantShareWrite_parts | apply beginOp_parts | (intro _) | split)

theorem execCoordinateCommit_parts (src : Route) (v : BitVec 8) (sb : State) :
    ∃ sc, execCoordinateCommit src v sb = .next sc ∧ Only [.ports, .dict, .host, .sent] sb sc := by
  unfold execCoordinateCommit
  try dsimp only
  refine ⟨_, rfl, ?_⟩
  repeat'
    with_reducible (first
      | assumption | exact Only.refl _ _ | exact by decide | apply Only.gite | apply Only.gdite
      | apply coordinateCommit_parts | apply beginOp_parts | (intro _) | split)

theorem execLosAssert_parts (p : PortN) (l : LaneN) (sb : State) :
    ∃ sc, execLosAssert p l sb = .next sc ∧ Only [.time, .ports, .dict, .host, .can, .log, .pwr, .sent] sb sc := by
  unfold execLosAssert
  try dsimp only
  refine ⟨_, rfl, ?_⟩
  repeat'
    with_reducible (first
      | assumption | exact Only.refl _ _ | exact by decide | apply Only.gite | apply Only.gdite | apply losAssert_parts
      | (intro _) | split)

theorem execLosClear_parts (p : PortN) (l : LaneN) (sb : State) :
    ∃ sc, execLosClear p l sb = .next sc ∧ Only [.ports, .host, .sent] sb sc := by
  unfold execLosClear
  try dsimp only
  refine ⟨_, rfl, ?_⟩
  repeat'
    with_reducible (first
      | assumption | exact Only.refl _ _ | exact by decide | apply Only.gite | apply Only.gdite | apply losClear_parts
      | (intro _) | split)

theorem execLolAssert_parts (p : PortN) (l : LaneN) (sb : State) :
    ∃ sc, execLolAssert p l sb = .next sc ∧ Only [.time, .ports, .dict, .host, .can, .log, .pwr, .sent] sb sc := by
  unfold execLolAssert
  try dsimp only
  refine ⟨_, rfl, ?_⟩
  repeat'
    with_reducible (first
      | assumption | exact Only.refl _ _ | exact by decide | apply Only.gite | apply Only.gdite | apply lolAssert_parts
      | (intro _) | split)

theorem execCdrLock_parts (p : PortN) (lanes : BitVec 8) (sb : State) :
    ∃ sc, execCdrLock p lanes sb = .next sc ∧ Only [.ports, .dict, .host, .can, .log, .pwr, .sent] sb sc := by
  unfold execCdrLock
  try dsimp only
  refine ⟨_, rfl, ?_⟩
  repeat'
    with_reducible (first
      | assumption | exact Only.refl _ _ | exact by decide | apply Only.gite | apply Only.gdite | apply cdrLock_parts
      | (intro _) | split)

theorem execLockTimeout_parts (p : PortN) (sb : State) :
    ∃ sc, execLockTimeout p sb = .next sc ∧ Only [.ports, .host, .sent] sb sc := by
  unfold execLockTimeout
  try dsimp only
  refine ⟨_, rfl, ?_⟩
  repeat'
    with_reducible (first
      | assumption | exact Only.refl _ _ | exact by decide | apply Only.gite | apply Only.gdite | apply stateTimeout_parts
      | (intro _) | split)

theorem execSlipTimeout_parts (p : PortN) (sb : State) :
    ∃ sc, execSlipTimeout p sb = .next sc ∧ Only [.ports, .host, .sent] sb sc := by
  unfold execSlipTimeout
  try dsimp only
  refine ⟨_, rfl, ?_⟩
  repeat'
    with_reducible (first
      | assumption | exact Only.refl _ _ | exact by decide | apply Only.gite | apply Only.gdite | apply toDetect_parts
      | apply modPort_parts | (intro _) | split)

theorem execSlipWindowDone_parts (p : PortN) (l : LaneN) (hits : Nat) (sb : State) :
    ∃ sc, execSlipWindowDone p l hits sb = .next sc ∧ Only [.ports] sb sc := by
  unfold execSlipWindowDone
  try dsimp only
  refine ⟨_, rfl, ?_⟩
  repeat'
    with_reducible (first
      | assumption | exact Only.refl _ _ | exact by decide | apply Only.gite | apply Only.gdite | apply slipWindowDone_parts
      | (intro _) | split)

theorem execBitSlip_parts (src : Route) (p : PortN) (l : LaneN) (v : BitVec 8) (sb : State) :
    ∃ sc, execBitSlip src p l v sb = .next sc ∧ Only [.ports, .dict, .host, .sent] sb sc := by
  unfold execBitSlip
  try dsimp only
  refine ⟨_, rfl, ?_⟩
  repeat'
    with_reducible (first
      | assumption | exact Only.refl _ _ | exact by decide | apply Only.gite | apply Only.gdite | apply bitSlip_parts
      | apply beginOp_parts | (intro _) | split)

theorem execAlignmentDone_parts (src : Route) (p : PortN) (v : BitVec 8) (sb : State) :
    ∃ sc, execAlignmentDone src p v sb = .next sc ∧ Only [.ports, .dict, .host, .sent] sb sc := by
  unfold execAlignmentDone
  try dsimp only
  refine ⟨_, rfl, ?_⟩
  repeat'
    with_reducible (first
      | assumption | exact Only.refl _ _ | exact by decide | apply Only.gite | apply Only.gdite | apply alignmentDone_parts
      | apply beginOp_parts | (intro _) | split)

theorem execCodewordAligned_parts (p : PortN) (lanes : BitVec 8) (sb : State) :
    ∃ sc, execCodewordAligned p lanes sb = .next sc ∧ Only [.ports, .host, .sent] sb sc := by
  unfold execCodewordAligned
  try dsimp only
  refine ⟨_, rfl, ?_⟩
  repeat'
    with_reducible (first
      | assumption | exact Only.refl _ _ | exact by decide | apply Only.gite | apply Only.gdite | apply codewordAligned_parts
      | (intro _) | split)

theorem execFecAlignTimeout_parts (p : PortN) (sb : State) :
    ∃ sc, execFecAlignTimeout p sb = .next sc ∧ Only [.ports, .host, .sent] sb sc := by
  unfold execFecAlignTimeout
  try dsimp only
  refine ⟨_, rfl, ?_⟩
  repeat'
    with_reducible (first
      | assumption | exact Only.refl _ _ | exact by decide | apply Only.gite | apply Only.gdite | apply stateTimeout_parts
      | (intro _) | split)

theorem execDeskewDone_parts (p : PortN) (lanes : BitVec 8) (sb : State) :
    ∃ sc, execDeskewDone p lanes sb = .next sc ∧ Only [.ports, .host, .sent] sb sc := by
  unfold execDeskewDone
  try dsimp only
  refine ⟨_, rfl, ?_⟩
  repeat'
    with_reducible (first
      | assumption | exact Only.refl _ _ | exact by decide | apply Only.gite | apply Only.gdite | apply deskewDone_parts
      | (intro _) | split)

theorem execDeskewTimeout_parts (p : PortN) (sb : State) :
    ∃ sc, execDeskewTimeout p sb = .next sc ∧ Only [.ports, .host, .sent] sb sc := by
  unfold execDeskewTimeout
  try dsimp only
  refine ⟨_, rfl, ?_⟩
  repeat'
    with_reducible (first
      | assumption | exact Only.refl _ _ | exact by decide | apply Only.gite | apply Only.gdite | apply stateTimeout_parts
      | (intro _) | split)

theorem execTrainingSetReceive_parts (p : PortN) (x : TrainingSet) (sb : State) :
    ∃ sc, execTrainingSetReceive p x sb = .next sc ∧ Only [.ports, .sw, .bep, .ep, .grotto, .mem, .dict, .host, .can, .log, .lantern, .muster, .pwr, .sent] sb sc := by
  unfold execTrainingSetReceive
  try dsimp only
  refine ⟨_, rfl, ?_⟩
  repeat'
    with_reducible (first
      | assumption | exact Only.refl _ _ | exact by decide | apply Only.gite | apply Only.gdite | apply trainingReceive_parts
      | (intro _) | split)

theorem execExchangeTimeout_parts (p : PortN) (sb : State) :
    ∃ sc, execExchangeTimeout p sb = .next sc ∧ Only [.ports, .host, .sent] sb sc := by
  unfold execExchangeTimeout
  try dsimp only
  refine ⟨_, rfl, ?_⟩
  repeat'
    with_reducible (first
      | assumption | exact Only.refl _ _ | exact by decide | apply Only.gite | apply Only.gdite | apply stateTimeout_parts
      | (intro _) | split)

theorem execUncorrectableThreshold_parts (p : PortN) (l : LaneN) (sb : State) :
    ∃ sc, execUncorrectableThreshold p l sb = .next sc ∧ Only [.ports, .dict, .host, .can, .log, .pwr, .sent] sb sc := by
  unfold execUncorrectableThreshold
  try dsimp only
  refine ⟨_, rfl, ?_⟩
  repeat'
    with_reducible (first
      | assumption | exact Only.refl _ _ | exact by decide | apply Only.gite | apply Only.gdite
      | apply uncorrectableThreshold_parts | (intro _) | split)

theorem execRetrainRequest_parts (src : Route) (p : PortN) (v : BitVec 8) (sb : State) :
    ∃ sc, execRetrainRequest src p v sb = .next sc ∧ Only [.ports, .dict, .host, .sent] sb sc := by
  unfold execRetrainRequest
  try dsimp only
  refine ⟨_, rfl, ?_⟩
  repeat'
    with_reducible (first
      | assumption | exact Only.refl _ _ | exact by decide | apply Only.gite | apply Only.gdite | apply onlyOne_parts
      | apply beginOp_parts | apply toLock_parts | (intro _) | split)

theorem execElasticFault_parts (p : PortN) (sb : State) :
    ∃ sc, execElasticFault p sb = .next sc ∧ Only [.ports, .dict, .host, .sent] sb sc := by
  unfold execElasticFault
  try dsimp only
  refine ⟨_, rfl, ?_⟩
  repeat'
    with_reducible (first
      | assumption | exact Only.refl _ _ | exact by decide | apply Only.gite | apply Only.gdite | apply elasticFault_parts
      | (intro _) | split)

theorem execSkipSetReceive_parts (p : PortN) (fill : Nat) (sb : State) :
    ∃ sc, execSkipSetReceive p fill sb = .next sc ∧ Only [.ports, .dict, .host, .sent] sb sc := by
  unfold execSkipSetReceive
  try dsimp only
  refine ⟨_, rfl, ?_⟩
  repeat'
    with_reducible (first
      | assumption | exact Only.refl _ _ | exact by decide | apply Only.gite | apply Only.gdite | apply skipSet_parts
      | (intro _) | split)

theorem execHoldExpiry_parts (p : PortN) (sb : State) :
    ∃ sc, execHoldExpiry p sb = .next sc ∧ Only [.ports, .sw, .bep, .ep, .grotto, .coll, .mem, .dict, .host, .can, .log, .lantern, .muster, .pwr, .sent] sb sc := by
  unfold execHoldExpiry
  try dsimp only
  refine ⟨_, rfl, ?_⟩
  repeat'
    with_reducible (first
      | assumption | exact Only.refl _ _ | exact by decide | apply Only.gite | apply Only.gdite | apply holdExpiry_parts
      | (intro _) | split)

theorem execCellReceive_parts (p : PortN) (b : Block) (sb : State) :
    ∃ sc, execCellReceive p b sb = .next sc ∧ Only [.ports, .sw, .dict, .host, .can, .log, .lantern, .pwr, .sent] sb sc := by
  unfold execCellReceive
  try dsimp only
  refine ⟨_, rfl, ?_⟩
  repeat'
    with_reducible (first
      | assumption | exact Only.refl _ _ | exact by decide | apply Only.gite | apply Only.gdite | apply cellReceive_parts
      | (intro _) | split)

theorem execIdleSlotReceive_parts (p : PortN) (b : Block) (sb : State) :
    ∃ sc, execIdleSlotReceive p b sb = .next sc ∧ Only [.ports, .dict, .host, .can, .log, .lantern, .pwr, .sent] sb sc := by
  unfold execIdleSlotReceive
  try dsimp only
  refine ⟨_, rfl, ?_⟩
  repeat'
    with_reducible (first
      | assumption | exact Only.refl _ _ | exact by decide | apply Only.gite | apply Only.gdite | apply idleReceive_parts
      | (intro _) | split)

theorem execNakReceive_parts (p : PortN) (ack : BitVec 12) (sb : State) :
    ∃ sc, execNakReceive p ack sb = .next sc ∧ Only [.ports, .dict, .host, .can, .log, .pwr, .sent] sb sc := by
  unfold execNakReceive
  try dsimp only
  refine ⟨_, rfl, ?_⟩
  repeat'
    with_reducible (first
      | assumption | exact Only.refl _ _ | exact by decide | apply Only.gite | apply Only.gdite | apply nakTaken_parts
      | (intro _) | split)

theorem execAckTimeout_parts (p : PortN) (sb : State) :
    ∃ sc, execAckTimeout p sb = .next sc ∧ Only [.ports, .dict, .host, .can, .log, .pwr, .sent] sb sc := by
  unfold execAckTimeout
  try dsimp only
  refine ⟨_, rfl, ?_⟩
  repeat'
    with_reducible (first
      | assumption | exact Only.refl _ _ | exact by decide | apply Only.gite | apply Only.gdite | apply replayFrom_parts
      | (intro _) | split)

theorem execLaserFault_parts (p : PortN) (l : LaneN) (sb : State) :
    ∃ sc, execLaserFault p l sb = .next sc ∧ Only [.ports, .dict, .host, .can, .log, .pwr, .sent] sb sc := by
  unfold execLaserFault
  try dsimp only
  refine ⟨_, rfl, ?_⟩
  repeat'
    with_reducible (first
      | assumption | exact Only.refl _ _ | exact by decide | apply Only.gite | apply Only.gdite | apply laserFault_parts
      | (intro _) | split)

end Sys2Proof.Machine
end

