-- ==== Sys2Proof/Laws/PartsMailbox.lean ====
section
/-! SUPPORT. What each command of Machine/Mailbox.lean may change; each ends in a next state. -/

namespace Sys2Proof.Machine

open Sys2Proof

set_option linter.unusedTactic false
set_option linter.unreachableTactic false

theorem execMailboxDoorbell_parts (v : BitVec 32) (sb : State) :
    ∃ sc, execMailboxDoorbell v sb = .next sc ∧ Only [.host] sb sc := by
  unfold execMailboxDoorbell
  try dsimp only
  refine ⟨_, rfl, ?_⟩
  repeat'
    with_reducible (first
      | assumption | exact Only.refl _ _ | exact by decide | apply Only.gite | apply Only.gdite | apply barWrite_parts
      | apply mailboxDoorbell_parts | (intro _) | split)

theorem execMailboxRead_parts (sb : State) :
    ∃ sc, execMailboxRead sb = .next sc ∧ Only [.time, .ports, .sw, .routes, .bep, .ep, .grotto, .cal, .cmp, .coll, .xlat, .mem, .dict, .host, .can, .sec, .log, .lantern, .muster, .pwr, .resets, .sent] sb sc := by
  unfold execMailboxRead
  try dsimp only
  refine ⟨_, rfl, ?_⟩
  repeat'
    with_reducible (first
      | assumption | exact Only.refl _ _ | exact by decide | apply Only.gite | apply Only.gdite | apply serveMailbox_parts
      | (intro _) | split)

theorem execMailboxSegmentWrite_parts (sb : State) :
    ∃ sc, execMailboxSegmentWrite sb = .next sc ∧ Only [.time, .ports, .sw, .routes, .bep, .ep, .grotto, .cal, .cmp, .coll, .xlat, .mem, .dict, .host, .can, .sec, .log, .lantern, .muster, .pwr, .resets, .sent] sb sc := by
  unfold execMailboxSegmentWrite
  try dsimp only
  refine ⟨_, rfl, ?_⟩
  repeat'
    with_reducible (first
      | assumption | exact Only.refl _ _ | exact by decide | apply Only.gite | apply Only.gdite | apply serveMailbox_parts
      | (intro _) | split)

theorem execVendorDefinedRequest_parts (session : Nat) (req : MbxRequest) (sb : State) :
    ∃ sc, execVendorDefinedRequest session req sb = .next sc ∧ Only [.time, .ports, .sw, .routes, .bep, .ep, .grotto, .cal, .cmp, .coll, .xlat, .mem, .dict, .host, .can, .sec, .log, .lantern, .muster, .pwr, .resets, .sent] sb sc := by
  unfold execVendorDefinedRequest
  try dsimp only
  refine ⟨_, rfl, ?_⟩
  repeat'
    with_reducible (first
      | assumption | exact Only.refl _ _ | exact by decide | apply Only.gite | apply Only.gdite | apply withIdentity_parts
      | apply securedRequest_parts | (intro _) | split)

end Sys2Proof.Machine
end

