-- ==== Sys2Proof/Laws/PartsMuster.lean ====
section
/-! SUPPORT. What each command of Machine/Muster.lean may change; each ends in a next state. -/

namespace Sys2Proof.Machine

open Sys2Proof

set_option linter.unusedTactic false
set_option linter.unreachableTactic false

theorem execMusterCensus_parts (sb : State) :
    ∃ sc, execMusterCensus sb = .next sc ∧ Only [.time, .dict, .muster] sb sc := by
  unfold execMusterCensus
  try dsimp only
  refine ⟨_, rfl, ?_⟩
  repeat'
    with_reducible (first
      | assumption | exact Only.refl _ _ | exact by decide | apply Only.gite | apply Only.gdite | apply musterCensus_parts
      | (intro _) | split)

theorem execViewOriginate_parts (sb : State) :
    ∃ sc, execViewOriginate sb = .next sc ∧ Only [.time, .ports, .sw, .dict, .host, .can, .log, .muster, .pwr, .sent] sb sc := by
  unfold execViewOriginate
  try dsimp only
  refine ⟨_, rfl, ?_⟩
  repeat'
    with_reducible (first
      | assumption | exact Only.refl _ _ | exact by decide | apply Only.gite | apply Only.gdite | apply viewOriginate_parts
      | (intro _) | split)

theorem execView_parts (p : PortN) (v : ViewCell) (sb : State) :
    ∃ sc, execView p v sb = .next sc ∧ Only [.ports, .sw, .dict, .host, .can, .log, .muster, .pwr, .sent] sb sc := by
  unfold execView
  try dsimp only
  refine ⟨_, rfl, ?_⟩
  repeat'
    with_reducible (first
      | assumption | exact Only.refl _ _ | exact by decide | apply Only.gite | apply Only.gdite | apply viewReceive_parts
      | (intro _) | split)

theorem execFset_parts (p : PortN) (e : BitVec 32) (b : Bytes) (sb : State) :
    ∃ sc, execFset p e b sb = .next sc ∧ Only [.ports, .sw, .bep, .ep, .grotto, .cal, .cmp, .coll, .mem, .dict, .host, .can, .log, .lantern, .muster, .pwr, .resets, .sent] sb sc := by
  unfold execFset
  try dsimp only
  refine ⟨_, rfl, ?_⟩
  repeat'
    with_reducible (first
      | assumption | exact Only.refl _ _ | exact by decide | apply Only.gite | apply Only.gdite | apply fsetReceive_parts
      | (intro _) | split)

theorem execLoss_parts (p : PortN) (e : BitVec 32) (l : List (BitVec 16)) (sb : State) :
    ∃ sc, execLoss p e l sb = .next sc ∧ Only [.ports, .sw, .bep, .ep, .grotto, .cal, .cmp, .coll, .mem, .dict, .host, .can, .log, .lantern, .muster, .pwr, .resets, .sent] sb sc := by
  unfold execLoss
  try dsimp only
  refine ⟨_, rfl, ?_⟩
  repeat'
    with_reducible (first
      | assumption | exact Only.refl _ _ | exact by decide | apply Only.gite | apply Only.gdite | apply lossReceive_parts
      | (intro _) | split)

theorem execMusterWindowEnd_parts (sb : State) :
    ∃ sc, execMusterWindowEnd sb = .next sc ∧ Only [.time, .ports, .sw, .bep, .ep, .grotto, .cal, .cmp, .coll, .mem, .dict, .host, .can, .log, .lantern, .muster, .pwr, .resets, .sent] sb sc := by
  unfold execMusterWindowEnd
  try dsimp only
  refine ⟨_, rfl, ?_⟩
  repeat'
    with_reducible (first
      | assumption | exact Only.refl _ _ | exact by decide | apply Only.gite | apply Only.gdite | apply musterWindowEnd_parts
      | (intro _) | split)

theorem execMusterRecoveryStep_parts (sb : State) :
    ∃ sc, execMusterRecoveryStep sb = .next sc ∧ Only [.time, .ports, .sw, .routes, .bep, .ep, .grotto, .coll, .mem, .dict, .host, .can, .log, .lantern, .muster, .pwr, .sent] sb sc := by
  unfold execMusterRecoveryStep
  try dsimp only
  refine ⟨_, rfl, ?_⟩
  repeat'
    with_reducible (first
      | assumption | exact Only.refl _ _ | exact by decide | apply Only.gite | apply Only.gdite | apply musterStep_parts
      | (intro _) | split)

theorem execReadmission_parts (sb : State) :
    ∃ sc, execReadmission sb = .next sc ∧ Only [.time, .routes, .dict, .muster] sb sc := by
  unfold execReadmission
  try dsimp only
  refine ⟨_, rfl, ?_⟩
  repeat'
    with_reducible (first
      | assumption | exact Only.refl _ _ | exact by decide | apply Only.gite | apply Only.gdite | apply readmission_parts
      | (intro _) | split)

end Sys2Proof.Machine
end

