-- ==== Sys2Proof/Laws/PartsPower.lean ====
section
/-! SUPPORT. What each command of Machine/Power.lean may change; each ends in a next state. -/

namespace Sys2Proof.Machine

open Sys2Proof

set_option linter.unusedTactic false
set_option linter.unreachableTactic false

theorem execTemperatureSample_parts (sensor : Fin 48) (reading : Option Int) (sb : State) :
    ∃ sc, execTemperatureSample sensor reading sb = .next sc ∧ Only [.time, .ports, .sw, .bep, .ep, .grotto, .cmp, .coll, .mem, .dict, .host, .can, .log, .lantern, .muster, .pwr, .sent] sb sc := by
  unfold execTemperatureSample
  try dsimp only
  refine ⟨_, rfl, ?_⟩
  repeat'
    with_reducible (first
      | assumption | exact Only.refl _ _ | exact by decide | apply Only.gite | apply Only.gdite
      | apply temperatureSample_parts | (intro _) | split)

theorem execVoltageSample_parts (monitor : Fin 32) (reading : Nat) (sb : State) :
    ∃ sc, execVoltageSample monitor reading sb = .next sc ∧ Only [.time, .ports, .sw, .routes, .bep, .ep, .grotto, .cal, .cmp, .coll, .xlat, .mem, .dict, .host, .can, .sec, .log, .lantern, .muster, .pwr, .resets, .sent] sb sc := by
  unfold execVoltageSample
  try dsimp only
  refine ⟨_, rfl, ?_⟩
  repeat'
    with_reducible (first
      | assumption | exact Only.refl _ _ | exact by decide | apply Only.gite | apply Only.gdite | apply voltageSample_parts
      | (intro _) | split)

theorem execOpticalEngineRestart_parts (sb : State) :
    ∃ sc, execOpticalEngineRestart sb = .next sc ∧ Only [.ports, .pwr] sb sc := by
  unfold execOpticalEngineRestart
  try dsimp only
  refine ⟨_, rfl, ?_⟩
  repeat'
    with_reducible (first
      | assumption | exact Only.refl _ _ | exact by decide | apply Only.gite | apply Only.gdite | apply engineRestart_parts
      | (intro _) | split)

theorem execThrottleEvaluation_parts (power : Option Nat) (sb : State) :
    ∃ sc, execThrottleEvaluation power sb = .next sc ∧ Only [.time, .dict, .host, .can, .log, .pwr, .sent] sb sc := by
  unfold execThrottleEvaluation
  try dsimp only
  refine ⟨_, rfl, ?_⟩
  repeat'
    with_reducible (first
      | assumption | exact Only.refl _ _ | exact by decide | apply Only.gite | apply Only.gdite
      | apply throttleEvaluation_parts | (intro _) | split)

theorem execRefclkLoss_parts (sb : State) :
    ∃ sc, execRefclkLoss sb = .next sc ∧ Only [.time, .ports, .sw, .routes, .bep, .ep, .grotto, .cal, .cmp, .coll, .xlat, .mem, .dict, .host, .can, .sec, .log, .lantern, .muster, .pwr, .resets, .sent] sb sc := by
  unfold execRefclkLoss
  try dsimp only
  refine ⟨_, rfl, ?_⟩
  repeat'
    with_reducible (first
      | assumption | exact Only.refl _ _ | exact by decide | apply Only.gite | apply Only.gdite | apply refclkLoss_parts
      | (intro _) | split)

theorem execRefclkRestore_parts (sb : State) :
    ∃ sc, execRefclkRestore sb = .next sc ∧ Only [.time, .ports, .sw, .routes, .bep, .ep, .grotto, .cal, .cmp, .coll, .xlat, .mem, .dict, .host, .can, .sec, .log, .lantern, .muster, .pwr, .resets, .sent] sb sc := by
  unfold execRefclkRestore
  try dsimp only
  refine ⟨_, rfl, ?_⟩
  repeat'
    with_reducible (first
      | assumption | exact Only.refl _ _ | exact by decide | apply Only.gite | apply Only.gdite | apply refclkRestore_parts
      | (intro _) | split)

theorem execAuxclkLoss_parts (sb : State) :
    ∃ sc, execAuxclkLoss sb = .next sc ∧ Only [.cmp, .dict, .host, .can, .sec, .pwr, .resets, .sent] sb sc := by
  unfold execAuxclkLoss
  try dsimp only
  refine ⟨_, rfl, ?_⟩
  repeat'
    with_reducible (first
      | assumption | exact Only.refl _ _ | exact by decide | apply Only.gite | apply Only.gdite | apply auxclkLoss_parts
      | (intro _) | split)

theorem execPwrWarnAssert_parts (sb : State) :
    ∃ sc, execPwrWarnAssert sb = .next sc ∧ Only [.dict, .host, .can, .sec, .log, .pwr, .sent] sb sc := by
  unfold execPwrWarnAssert
  try dsimp only
  refine ⟨_, rfl, ?_⟩
  repeat'
    with_reducible (first
      | assumption | exact Only.refl _ _ | exact by decide | apply Only.gite | apply Only.gdite | apply pwrWarnAssert_parts
      | (intro _) | split)

theorem execPwrWarnRelease_parts (sb : State) :
    ∃ sc, execPwrWarnRelease sb = .next sc ∧ Only [.dict, .host, .can, .log, .pwr, .sent] sb sc := by
  unfold execPwrWarnRelease
  try dsimp only
  refine ⟨_, rfl, ?_⟩
  repeat'
    with_reducible (first
      | assumption | exact Only.refl _ _ | exact by decide | apply Only.gite | apply Only.gdite | apply pwrWarnRelease_parts
      | (intro _) | split)

theorem execPowerLoss_parts (sb : State) :
    ∃ sc, execPowerLoss sb = .next sc ∧ Only [.time, .ports, .sw, .routes, .bep, .ep, .grotto, .cal, .cmp, .coll, .xlat, .mem, .dict, .host, .can, .sec, .log, .lantern, .muster, .pwr, .resets, .sent] sb sc := by
  unfold execPowerLoss
  try dsimp only
  refine ⟨_, rfl, ?_⟩
  repeat'
    with_reducible (first
      | assumption | exact Only.refl _ _ | exact by decide | apply Only.gite | apply Only.gdite | apply powerLoss_parts
      | (intro _) | split)

theorem execResetRelease_parts (sb : State) :
    ∃ sc, execResetRelease sb = .next sc ∧ Only [.time, .ports, .sw, .routes, .bep, .ep, .grotto, .cal, .cmp, .coll, .xlat, .mem, .dict, .host, .can, .sec, .log, .lantern, .muster, .pwr, .resets, .sent] sb sc := by
  unfold execResetRelease
  try dsimp only
  refine ⟨_, rfl, ?_⟩
  repeat'
    with_reducible (first
      | assumption | exact Only.refl _ _ | exact by decide | apply Only.gite | apply Only.gdite | apply resetRelease_parts
      | (intro _) | split)

theorem execSupplyRestore_parts (sb : State) :
    ∃ sc, execSupplyRestore sb = .next sc ∧ Only [.ports, .sw, .bep, .ep, .grotto, .coll, .mem, .dict, .host, .can, .sec, .log, .lantern, .muster, .pwr, .resets, .sent] sb sc := by
  unfold execSupplyRestore
  try dsimp only
  refine ⟨_, rfl, ?_⟩
  repeat'
    with_reducible (first
      | assumption | exact Only.refl _ _ | exact by decide | apply Only.gite | apply Only.gdite | apply supplyRestore_parts
      | (intro _) | split)

theorem execJtagBypass_parts (sb : State) :
    ∃ sc, execJtagBypass sb = .next sc ∧ Only [.pwr, .sent] sb sc := by
  unfold execJtagBypass
  try dsimp only
  refine ⟨_, rfl, ?_⟩
  repeat'
    with_reducible (first
      | assumption | exact Only.refl _ _ | exact by decide | apply Only.gite | apply Only.gdite | apply jtagSelect_parts
      | (intro _) | split)

theorem execJtagIdcode_parts (sb : State) :
    ∃ sc, execJtagIdcode sb = .next sc ∧ Only [.pwr, .sent] sb sc := by
  unfold execJtagIdcode
  try dsimp only
  refine ⟨_, rfl, ?_⟩
  repeat'
    with_reducible (first
      | assumption | exact Only.refl _ _ | exact by decide | apply Only.gite | apply Only.gdite | apply jtagSelect_parts
      | (intro _) | split)

theorem execJtagSamplePreload_parts (sb : State) :
    ∃ sc, execJtagSamplePreload sb = .next sc ∧ Only [.pwr, .sent, .free] sb sc := by
  unfold execJtagSamplePreload
  try dsimp only
  refine ⟨_, rfl, ?_⟩
  repeat'
    with_reducible (first
      | assumption | exact Only.refl _ _ | exact by decide | apply Only.gite | apply Only.gdite | apply capture_parts
      | (intro _) | split)

theorem execJtagExtest_parts (pins : List Bool) (sb : State) :
    ∃ sc, execJtagExtest pins sb = .next sc ∧ Only [.pwr, .sent, .free] sb sc := by
  unfold execJtagExtest
  try dsimp only
  refine ⟨_, rfl, ?_⟩
  repeat'
    with_reducible (first
      | assumption | exact Only.refl _ _ | exact by decide | apply Only.gite | apply Only.gdite | apply capture_parts
      | apply modPwr_parts | (intro _) | split)

end Sys2Proof.Machine
end

