-- ==== Sys2Proof/Laws/PartsRoutes.lean ====
section
/-! SUPPORT. What each command of Machine/Routes.lean may change; each ends in a next state. -/

namespace Sys2Proof.Machine

open Sys2Proof

set_option linter.unusedTactic false
set_option linter.unreachableTactic false

theorem execRouteArmWrite_parts (src : Route) (v : BitVec 64) (sb : State) :
    ∃ sc, execRouteArmWrite src v sb = .next sc ∧ Only [.routes, .dict, .host, .sent] sb sc := by
  unfold execRouteArmWrite
  try dsimp only
  refine ⟨_, rfl, ?_⟩
  repeat'
    with_reducible (first
      | assumption | exact Only.refl _ _ | exact by decide | apply Only.gite | apply Only.gdite | apply routeArmWrite_parts
      | (intro _) | split)

theorem execRouteBankSwitch_parts (sb : State) :
    ∃ sc, execRouteBankSwitch sb = .next sc ∧ Only [.time, .ports, .routes, .bep, .dict, .host, .sent] sb sc := by
  unfold execRouteBankSwitch
  try dsimp only
  refine ⟨_, rfl, ?_⟩
  repeat'
    with_reducible (first
      | assumption | exact Only.refl _ _ | exact by decide | apply Only.gite | apply Only.gdite | apply routeBankSwitch_parts
      | (intro _) | split)

theorem execEpochNoticeRepeat_parts (p : PortN) (sb : State) :
    ∃ sc, execEpochNoticeRepeat p sb = .next sc ∧ Only [.ports, .dict, .sent] sb sc := by
  unfold execEpochNoticeRepeat
  try dsimp only
  refine ⟨_, rfl, ?_⟩
  repeat'
    with_reducible (first
      | assumption | exact Only.refl _ _ | exact by decide | apply Only.gite | apply Only.gdite | apply sendNotice_parts
      | (intro _) | split)

theorem execRouteBankDrainEnd_parts (sb : State) :
    ∃ sc, execRouteBankDrainEnd sb = .next sc ∧ Only [.time, .ports, .routes, .host, .sent] sb sc := by
  unfold execRouteBankDrainEnd
  try dsimp only
  refine ⟨_, rfl, ?_⟩
  repeat'
    with_reducible (first
      | assumption | exact Only.refl _ _ | exact by decide | apply Only.gite | apply Only.gdite
      | apply routeBankDrainEnd_parts | (intro _) | split)

theorem execRouteBankCopy_parts (src : Route) (v : BitVec 8) (sb : State) :
    ∃ sc, execRouteBankCopy src v sb = .next sc ∧ Only [.routes, .dict, .host, .sent] sb sc := by
  unfold execRouteBankCopy
  try dsimp only
  refine ⟨_, rfl, ?_⟩
  repeat'
    with_reducible (first
      | assumption | exact Only.refl _ _ | exact by decide | apply Only.gite | apply Only.gdite | apply routeBankCopy_parts
      | (intro _) | split)

theorem execRtdRouteEntries_parts (p : PortN) (c : Cell) (sb : State) :
    ∃ sc, execRtdRouteEntries p c sb = .next sc ∧ Only [.ports, .routes, .dict, .host, .sent] sb sc := by
  unfold execRtdRouteEntries
  try dsimp only
  refine ⟨_, rfl, ?_⟩
  repeat'
    with_reducible (first
      | assumption | exact Only.refl _ _ | exact by decide | apply Only.gite | apply Only.gdite | apply rtdEntries_parts
      | (intro _) | split)

theorem execEpochNoticeReceive_parts (c : Cell) (sb : State) :
    ∃ sc, execEpochNoticeReceive c sb = .next sc ∧ Only [.bep, .ep, .lantern] sb sc := by
  unfold execEpochNoticeReceive
  refine ⟨_, rfl, progress_parts _ (by decide) ?_⟩
  intro p hn
  cases p <;> first | exact absurd (by decide) hn | rfl

theorem execTimSend_parts (p : PortN) (sb : State) :
    ∃ sc, execTimSend p sb = .next sc ∧ Only [.ports, .dict, .sent] sb sc := by
  unfold execTimSend
  try dsimp only
  refine ⟨_, rfl, ?_⟩
  repeat'
    with_reducible (first
      | assumption | exact Only.refl _ _ | exact by decide | apply Only.gite | apply Only.gdite | apply timSend_parts
      | (intro _) | split)

theorem execTimReceive_parts (p : PortN) (c : Cell) (sb : State) :
    ∃ sc, execTimReceive p c sb = .next sc ∧ Only [.ports, .dict] sb sc := by
  unfold execTimReceive
  try dsimp only
  refine ⟨_, rfl, ?_⟩
  repeat'
    with_reducible (first
      | assumption | exact Only.refl _ _ | exact by decide | apply Only.gite | apply Only.gdite | apply timReceive_parts
      | (intro _) | split)

end Sys2Proof.Machine
end

