-- ==== Sys2Proof/Laws/PartsScrub.lean ====
section
/-! SUPPORT. What each command of Machine/Scrub.lean may change; each ends in a next state. -/

namespace Sys2Proof.Machine

open Sys2Proof

set_option linter.unusedTactic false
set_option linter.unreachableTactic false

theorem execStallScrub_parts (l : List SramFinding) (sb : State) :
    ∃ sc, execStallScrub l sb = .next sc ∧ Only [.time, .ports, .sw, .routes, .bep, .ep, .grotto, .cal, .cmp, .xlat, .mem, .dict, .host, .can, .log, .lantern, .muster, .pwr, .sent, .free] sb sc := by
  unfold execStallScrub
  try dsimp only
  refine ⟨_, rfl, ?_⟩
  repeat'
    with_reducible (first
      | assumption | exact Only.refl _ _ | exact by decide | apply Only.gite | apply Only.gdite | apply stallScrub_parts
      | (intro _) | split)

theorem execStructureScrub_parts (l : List SramFinding) (sb : State) :
    ∃ sc, execStructureScrub l sb = .next sc ∧ Only [.time, .ports, .sw, .routes, .bep, .ep, .grotto, .cal, .cmp, .xlat, .mem, .dict, .host, .can, .log, .lantern, .muster, .pwr, .sent, .free] sb sc := by
  unfold execStructureScrub
  try dsimp only
  refine ⟨_, rfl, ?_⟩
  repeat'
    with_reducible (first
      | assumption | exact Only.refl _ _ | exact by decide | apply Only.gite | apply Only.gdite | apply structureScrub_parts
      | (intro _) | split)

theorem execIdlePortScrub_parts (l : List SramFinding) (sb : State) :
    ∃ sc, execIdlePortScrub l sb = .next sc ∧ Only [.time, .ports, .sw, .routes, .bep, .ep, .grotto, .cal, .cmp, .xlat, .mem, .dict, .host, .can, .log, .lantern, .muster, .pwr, .sent, .free] sb sc := by
  unfold execIdlePortScrub
  try dsimp only
  refine ⟨_, rfl, ?_⟩
  repeat'
    with_reducible (first
      | assumption | exact Only.refl _ _ | exact by decide | apply Only.gite | apply Only.gdite | apply takeFindings_parts
      | (intro _) | split)

theorem execLogFlush_parts (sb : State) :
    ∃ sc, execLogFlush sb = .next sc ∧ Only [.dict, .host, .can, .log, .pwr, .sent] sb sc := by
  unfold execLogFlush
  try dsimp only
  refine ⟨_, rfl, ?_⟩
  repeat'
    with_reducible (first
      | assumption | exact Only.refl _ _ | exact by decide | apply Only.gite | apply Only.gdite | apply flushLog_parts
      | (intro _) | split)

theorem execEventAcknowledge_parts (src : Route) (v : BitVec 32) (sb : State) :
    ∃ sc, execEventAcknowledge src v sb = .next sc ∧ Only [.dict, .host, .can, .log, .pwr, .sent] sb sc := by
  unfold execEventAcknowledge
  try dsimp only
  refine ⟨_, rfl, ?_⟩
  repeat'
    with_reducible (first
      | assumption | exact Only.refl _ _ | exact by decide | apply Only.gite | apply Only.gdite
      | apply eventAcknowledge_parts | apply beginOp_parts | (intro _) | split)

end Sys2Proof.Machine
end

