-- ==== Sys2Proof/Laws/PartsSecurity.lean ====
section
/-! SUPPORT. What each command of Machine/Security.lean may change; each ends in a next state. -/

namespace Sys2Proof.Machine

open Sys2Proof

set_option linter.unusedTactic false
set_option linter.unreachableTactic false

theorem execGetVersion_parts (sb : State) :
    ∃ sc, execGetVersion sb = .next sc ∧ Only [.sent] sb sc := by
  unfold execGetVersion
  try dsimp only
  refine ⟨_, rfl, ?_⟩
  repeat'
    with_reducible (first
      | assumption | exact Only.refl _ _ | exact by decide | apply Only.gite | apply Only.gdite | apply withIdentity_parts
      | apply spdm_parts | (intro _) | split)

theorem execGetCapabilities_parts (sb : State) :
    ∃ sc, execGetCapabilities sb = .next sc ∧ Only [.sent] sb sc := by
  unfold execGetCapabilities
  try dsimp only
  refine ⟨_, rfl, ?_⟩
  repeat'
    with_reducible (first
      | assumption | exact Only.refl _ _ | exact by decide | apply Only.gite | apply Only.gdite | apply withIdentity_parts
      | apply spdm_parts | (intro _) | split)

theorem execNegotiateAlgorithms_parts (request : Bytes) (sb : State) :
    ∃ sc, execNegotiateAlgorithms request sb = .next sc ∧ Only [.sent] sb sc := by
  unfold execNegotiateAlgorithms
  try dsimp only
  refine ⟨_, rfl, ?_⟩
  repeat'
    with_reducible (first
      | assumption | exact Only.refl _ _ | exact by decide | apply Only.gite | apply Only.gdite | apply withIdentity_parts
      | apply spdm_parts | (intro _) | split)

theorem execGetDigests_parts (sb : State) :
    ∃ sc, execGetDigests sb = .next sc ∧ Only [.sent] sb sc := by
  unfold execGetDigests
  try dsimp only
  refine ⟨_, rfl, ?_⟩
  repeat'
    with_reducible (first
      | assumption | exact Only.refl _ _ | exact by decide | apply Only.gite | apply Only.gdite | apply withIdentity_parts
      | apply spdm_parts | (intro _) | split)

theorem execGetCertificate_parts (slot : BitVec 8) (offset len : BitVec 16) (sb : State) :
    ∃ sc, execGetCertificate slot offset len sb = .next sc ∧ Only [.sent] sb sc := by
  unfold execGetCertificate
  try dsimp only
  refine ⟨_, rfl, ?_⟩
  repeat'
    with_reducible (first
      | assumption | exact Only.refl _ _ | exact by decide | apply Only.gite | apply Only.gdite | apply withIdentity_parts
      | apply spdm_parts | apply spdmError_parts | (intro _) | split)

theorem execChallenge_parts (slot : BitVec 8) (nonce : Bytes) (sb : State) :
    ∃ sc, execChallenge slot nonce sb = .next sc ∧ Only [.sent] sb sc := by
  unfold execChallenge
  try dsimp only
  refine ⟨_, rfl, ?_⟩
  repeat'
    with_reducible (first
      | assumption | exact Only.refl _ _ | exact by decide | apply Only.gite | apply Only.gdite | apply withIdentity_parts
      | apply spdm_parts | apply spdmError_parts | (intro _) | split)

theorem execGetMeasurements_parts (index : BitVec 8) (signed : Bool) (nonce : Bytes) (sb : State) :
    ∃ sc, execGetMeasurements index signed nonce sb = .next sc ∧ Only [.sent] sb sc := by
  unfold execGetMeasurements
  try dsimp only
  refine ⟨_, rfl, ?_⟩
  repeat'
    with_reducible (first
      | assumption | exact Only.refl _ _ | exact by decide | apply Only.gite | apply Only.gdite | apply withIdentity_parts
      | apply getMeasurements_parts | (intro _) | split)

theorem execKeyExchange_parts (who : Requester) (exchange : Bytes) (sb : State) :
    ∃ sc, execKeyExchange who exchange sb = .next sc ∧ Only [.dict, .sec, .sent, .free] sb sc := by
  unfold execKeyExchange
  try dsimp only
  refine ⟨_, rfl, ?_⟩
  repeat'
    with_reducible (first
      | assumption | exact Only.refl _ _ | exact by decide | apply Only.gite | apply Only.gdite | apply withIdentity_parts
      | apply keyExchange_parts | (intro _) | split)

theorem execFinish_parts (session : Nat) (verified : Bool) (sb : State) :
    ∃ sc, execFinish session verified sb = .next sc ∧ Only [.dict, .sec, .sent] sb sc := by
  unfold execFinish
  try dsimp only
  refine ⟨_, rfl, ?_⟩
  repeat'
    with_reducible (first
      | assumption | exact Only.refl _ _ | exact by decide | apply Only.gite | apply Only.gdite | apply withIdentity_parts
      | apply finishSession_parts | (intro _) | split)

theorem execKeyUpdate_parts (session : Nat) (op : BitVec 8) (sb : State) :
    ∃ sc, execKeyUpdate session op sb = .next sc ∧ Only [.sec, .sent] sb sc := by
  unfold execKeyUpdate
  try dsimp only
  refine ⟨_, rfl, ?_⟩
  repeat'
    with_reducible (first
      | assumption | exact Only.refl _ _ | exact by decide | apply Only.gite | apply Only.gdite | apply withIdentity_parts
      | apply keyUpdate_parts | (intro _) | split)

theorem execSpdmHeartbeat_parts (session : Nat) (sb : State) :
    ∃ sc, execSpdmHeartbeat session sb = .next sc ∧ Only [.sent] sb sc := by
  unfold execSpdmHeartbeat
  try dsimp only
  refine ⟨_, rfl, ?_⟩
  repeat'
    with_reducible (first
      | assumption | exact Only.refl _ _ | exact by decide | apply Only.gite | apply Only.gdite | apply withIdentity_parts
      | apply inSession_parts | apply spdm_parts | (intro _) | split)

theorem execEndSession_parts (session : Nat) (sb : State) :
    ∃ sc, execEndSession session sb = .next sc ∧ Only [.sec, .sent] sb sc := by
  unfold execEndSession
  try dsimp only
  refine ⟨_, rfl, ?_⟩
  repeat'
    with_reducible (first
      | assumption | exact Only.refl _ _ | exact by decide | apply Only.gite | apply Only.gdite | apply withIdentity_parts
      | apply inSession_parts | apply spdm_parts | apply dropSession_parts | (intro _) | split)

theorem execSessionHeartbeatTimeout_parts (session : Nat) (sb : State) :
    ∃ sc, execSessionHeartbeatTimeout session sb = .next sc ∧ Only [.sec] sb sc := by
  unfold execSessionHeartbeatTimeout
  try dsimp only
  refine ⟨_, rfl, ?_⟩
  repeat'
    with_reducible (first
      | assumption | exact Only.refl _ _ | exact by decide | apply Only.gite | apply Only.gdite | apply dropSession_parts
      | (intro _) | split)

theorem execSpdmUnsupportedRequest_parts (code : BitVec 8) (sb : State) :
    ∃ sc, execSpdmUnsupportedRequest code sb = .next sc ∧ Only [.sent] sb sc := by
  unfold execSpdmUnsupportedRequest
  try dsimp only
  refine ⟨_, rfl, ?_⟩
  repeat'
    with_reducible (first
      | assumption | exact Only.refl _ _ | exact by decide | apply Only.gite | apply Only.gdite | apply withIdentity_parts
      | apply spdmError_parts | (intro _) | split)

theorem execBundleBind_parts (src : Route) (v : BitVec 8) (sb : State) :
    ∃ sc, execBundleBind src v sb = .next sc ∧ Only [.dict, .host, .sec, .sent] sb sc := by
  unfold execBundleBind
  try dsimp only
  refine ⟨_, rfl, ?_⟩
  repeat'
    with_reducible (first
      | assumption | exact Only.refl _ _ | exact by decide | apply Only.gite | apply Only.gdite | apply bundleBind_parts
      | (intro _) | split)

theorem execBundleBindDone_parts (sb : State) :
    ∃ sc, execBundleBindDone sb = .next sc ∧ Only [.bep, .ep, .grotto, .cmp, .coll, .xlat, .mem, .dict, .host, .can, .sec, .log, .pwr, .sent] sb sc := by
  unfold execBundleBindDone
  try dsimp only
  refine ⟨_, rfl, ?_⟩
  repeat'
    with_reducible (first
      | assumption | exact Only.refl _ _ | exact by decide | apply Only.gite | apply Only.gdite | apply bundleBindDone_parts
      | (intro _) | split)

theorem execFirmwareImageWrite_parts (session : Nat) (first last : Bool) (segment : Bytes) (sb : State) :
    ∃ sc, execFirmwareImageWrite session first last segment sb = .next sc ∧ Only [.dict, .host, .sec, .sent] sb sc := by
  unfold execFirmwareImageWrite
  try dsimp only
  refine ⟨_, rfl, ?_⟩
  repeat'
    with_reducible (first
      | assumption | exact Only.refl _ _ | exact by decide | apply Only.gite | apply Only.gdite | apply withIdentity_parts
      | apply firmwareImageWrite_parts | (intro _) | split)

end Sys2Proof.Machine
end

