-- ==== Sys2Proof/Laws/PartsSource.lean ====
section
/-! SUPPORT. What each command of Machine/Source.lean may change; each ends in a next state. -/

namespace Sys2Proof.Machine

open Sys2Proof

set_option linter.unusedTactic false
set_option linter.unreachableTactic false

theorem execRequestSend_parts (cmd : BepCommand) (sb : State) :
    ∃ sc, execRequestSend cmd sb = .next sc ∧ Only [.bep, .ep, .grotto, .cmp, .dict, .host, .can, .log, .pwr, .sent] sb sc := by
  unfold execRequestSend
  try dsimp only
  refine ⟨_, rfl, ?_⟩
  repeat'
    with_reducible (first
      | assumption | exact Only.refl _ _ | exact by decide | apply Only.gite | apply Only.gdite | apply agentCommand_parts
      | (intro _) | split)

theorem execSourceFence_parts (id : Nat) (sb : State) :
    ∃ sc, execSourceFence id sb = .next sc ∧ Only [.bep, .ep, .grotto, .dict] sb sc := by
  unfold execSourceFence
  try dsimp only
  refine ⟨_, rfl, ?_⟩
  repeat'
    with_reducible (first
      | assumption | exact Only.refl _ _ | exact by decide | apply Only.gite | apply Only.gdite | apply sourceFence_parts
      | (intro _) | split)

theorem execSourceFenceComplete_parts (id : Nat) (sb : State) :
    ∃ sc, execSourceFenceComplete id sb = .next sc ∧ Only [.ep, .sent] sb sc := by
  unfold execSourceFenceComplete
  try dsimp only
  refine ⟨_, rfl, ?_⟩
  repeat'
    with_reducible (first
      | assumption | exact Only.refl _ _ | exact by decide | apply Only.gite | apply Only.gdite
      | apply sourceFenceComplete_parts | (intro _) | split)

theorem execRefusalFenceSend_parts (dest : BitVec 16) (sb : State) :
    ∃ sc, execRefusalFenceSend dest sb = .next sc ∧ Only [.bep, .ep, .grotto, .dict] sb sc := by
  unfold execRefusalFenceSend
  try dsimp only
  refine ⟨_, rfl, ?_⟩
  repeat'
    with_reducible (first
      | assumption | exact Only.refl _ _ | exact by decide | apply Only.gite | apply Only.gdite | apply refusalFence_parts
      | (intro _) | split)

end Sys2Proof.Machine
end

