-- ==== Sys2Proof/Laws/PartsStall.lean ====
section
/-! SUPPORT. What each command of Machine/Stall.lean may change; each ends in a next state. -/

namespace Sys2Proof.Machine

open Sys2Proof

set_option linter.unusedTactic false
set_option linter.unreachableTactic false

theorem execCombineTimeout_parts (entry : Nat) (sb : State) :
    ∃ sc, execCombineTimeout entry sb = .next sc ∧ Only [.sw, .coll, .dict] sb sc := by
  unfold execCombineTimeout
  try dsimp only
  refine ⟨_, rfl, ?_⟩
  repeat'
    with_reducible (first
      | assumption | exact Only.refl _ _ | exact by decide | apply Only.gite | apply Only.gdite | apply combineTimeout_parts
      | (intro _) | split)

theorem execVc11AgeDrop_parts (input output : InputN) (sb : State) :
    ∃ sc, execVc11AgeDrop input output sb = .next sc ∧ Only [.time, .ports, .sw, .dict, .host, .can, .log, .pwr, .sent] sb sc := by
  unfold execVc11AgeDrop
  try dsimp only
  refine ⟨_, rfl, ?_⟩
  repeat'
    with_reducible (first
      | assumption | exact Only.refl _ _ | exact by decide | apply Only.gite | apply Only.gdite | apply vc11AgeDrop_parts
      | (intro _) | split)

theorem execSumpAudit_parts (sb : State) :
    ∃ sc, execSumpAudit sb = .next sc ∧ Only [.time, .ports, .sw, .dict, .host, .can, .log, .pwr, .sent] sb sc := by
  unfold execSumpAudit
  try dsimp only
  refine ⟨_, rfl, ?_⟩
  repeat'
    with_reducible (first
      | assumption | exact Only.refl _ _ | exact by decide | apply Only.gite | apply Only.gdite | apply sumpAudit_parts
      | (intro _) | split)

end Sys2Proof.Machine
end

