-- ==== Sys2Proof/Laws/PartsSteward.lean ====
section
/-! SUPPORT. What each command of Machine/Steward.lean may change; each ends in a next state. -/

namespace Sys2Proof.Machine

open Sys2Proof

set_option linter.unusedTactic false
set_option linter.unreachableTactic false

theorem execShardUpdate_parts (i : Fin 64) (chunk : BitVec 28) (sb : State) :
    ∃ sc, execShardUpdate i chunk sb = .next sc ∧ Only [.bep, .coll, .mem, .dict, .host, .can, .log, .pwr, .sent, .free] sb sc := by
  unfold execShardUpdate
  try dsimp only
  refine ⟨_, rfl, ?_⟩
  repeat'
    with_reducible (first
      | assumption | exact Only.refl _ _ | exact by decide | apply Only.gite | apply Only.gdite | apply shardUpdate_parts
      | (intro _) | split)

theorem execShardEnable_parts (src : Route) (j : Fin 16) (v : BitVec 8) (sb : State) :
    ∃ sc, execShardEnable src j v sb = .next sc ∧ Only [.bep, .ep, .grotto, .cmp, .coll, .xlat, .mem, .dict, .host, .can, .log, .pwr, .sent] sb sc := by
  unfold execShardEnable
  try dsimp only
  refine ⟨_, rfl, ?_⟩
  repeat'
    with_reducible (first
      | assumption | exact Only.refl _ _ | exact by decide | apply Only.gite | apply Only.gdite | apply shardWrite_parts
      | (intro _) | split)

theorem execShardDisable_parts (src : Route) (j : Fin 16) (v : BitVec 8) (sb : State) :
    ∃ sc, execShardDisable src j v sb = .next sc ∧ Only [.bep, .ep, .grotto, .cmp, .coll, .xlat, .mem, .dict, .host, .can, .log, .pwr, .sent] sb sc := by
  unfold execShardDisable
  try dsimp only
  refine ⟨_, rfl, ?_⟩
  repeat'
    with_reducible (first
      | assumption | exact Only.refl _ _ | exact by decide | apply Only.gite | apply Only.gdite | apply shardWrite_parts
      | (intro _) | split)

end Sys2Proof.Machine
end

