-- ==== Sys2Proof/Laws/PartsTime.lean ====
section
/-! SUPPORT. What each command of Machine/Time.lean may change; each ends in a next state. -/

namespace Sys2Proof.Machine

open Sys2Proof

set_option linter.unusedTactic false
set_option linter.unreachableTactic false

theorem execTimeSetReceive_parts (p : PortN) (x : TimeSet) (arrival : Nat) (damaged : Bool) (sb : State) :
    ∃ sc, execTimeSetReceive p x arrival damaged sb = .next sc ∧ Only [.time, .ports, .dict, .host, .can, .log, .pwr, .sent] sb sc := by
  unfold execTimeSetReceive
  try dsimp only
  refine ⟨_, rfl, ?_⟩
  repeat'
    with_reducible (first
      | assumption | exact Only.refl _ _ | exact by decide | apply Only.gite | apply Only.gdite | apply timeSetReceive_parts
      | (intro _) | split)

theorem execTrimDecision_parts (sb : State) :
    ∃ sc, execTrimDecision sb = .next sc ∧ Only [.time, .sent] sb sc := by
  unfold execTrimDecision
  try dsimp only
  refine ⟨_, rfl, ?_⟩
  repeat'
    with_reducible (first
      | assumption | exact Only.refl _ _ | exact by decide | apply Only.gite | apply Only.gdite | apply trimDecision_parts
      | (intro _) | split)

theorem execTrimSlot_parts (sb : State) :
    ∃ sc, execTrimSlot sb = .next sc ∧ Only [.time, .dict, .host, .can, .log, .pwr, .sent] sb sc := by
  unfold execTrimSlot
  try dsimp only
  refine ⟨_, rfl, ?_⟩
  repeat'
    with_reducible (first
      | assumption | exact Only.refl _ _ | exact by decide | apply Only.gite | apply Only.gdite | apply trimSlotPass_parts
      | (intro _) | split)

theorem execTrimNoticeReceive_parts (p : PortN) (low : BitVec 16) (kind comp : BitVec 8) (sb : State) :
    ∃ sc, execTrimNoticeReceive p low kind comp sb = .next sc ∧ Only [.time, .ports, .dict, .host, .can, .log, .pwr, .sent] sb sc := by
  unfold execTrimNoticeReceive
  try dsimp only
  refine ⟨_, rfl, ?_⟩
  repeat'
    with_reducible (first
      | assumption | exact Only.refl _ _ | exact by decide | apply Only.gite | apply Only.gdite
      | apply trimNoticeReceive_parts | (intro _) | split)

theorem execSuspectTimeout_parts (p : PortN) (sb : State) :
    ∃ sc, execSuspectTimeout p sb = .next sc ∧ Only [.time, .ports, .dict, .host, .can, .log, .pwr, .sent] sb sc := by
  unfold execSuspectTimeout
  try dsimp only
  refine ⟨_, rfl, ?_⟩
  repeat'
    with_reducible (first
      | assumption | exact Only.refl _ _ | exact by decide | apply Only.gite | apply Only.gdite | apply makeSuspect_parts
      | (intro _) | split)

theorem execHoldoverAllowanceEnd_parts (sb : State) :
    ∃ sc, execHoldoverAllowanceEnd sb = .next sc ∧ Only [.time] sb sc := by
  unfold execHoldoverAllowanceEnd
  try dsimp only
  refine ⟨_, rfl, ?_⟩
  repeat'
    with_reducible (first
      | assumption | exact Only.refl _ _ | exact by decide | apply Only.gite | apply Only.gdite | apply modTime_parts
      | (intro _) | split)

theorem execRoundLengthWrite_parts (src : Route) (v : BitVec 32) (sb : State) :
    ∃ sc, execRoundLengthWrite src v sb = .next sc ∧ Only [.dict, .host, .sent] sb sc := by
  unfold execRoundLengthWrite
  try dsimp only
  refine ⟨_, rfl, ?_⟩
  repeat'
    with_reducible (first
      | assumption | exact Only.refl _ _ | exact by decide | apply Only.gite | apply Only.gdite
      | apply roundLengthWrite_parts | (intro _) | split)

theorem execRoundArmWrite_parts (src : Route) (v : BitVec 64) (sb : State) :
    ∃ sc, execRoundArmWrite src v sb = .next sc ∧ Only [.time, .dict, .host, .sent] sb sc := by
  unfold execRoundArmWrite
  try dsimp only
  refine ⟨_, rfl, ?_⟩
  repeat'
    with_reducible (first
      | assumption | exact Only.refl _ _ | exact by decide | apply Only.gite | apply Only.gdite | apply roundArmWrite_parts
      | (intro _) | split)

theorem execRoundChange_parts (sb : State) :
    ∃ sc, execRoundChange sb = .next sc ∧ Only [.time, .dict] sb sc := by
  unfold execRoundChange
  try dsimp only
  refine ⟨_, rfl, ?_⟩
  repeat'
    with_reducible (first
      | assumption | exact Only.refl _ _ | exact by decide | apply Only.gite | apply Only.gdite | apply advanceTo_parts
      | apply odSet_parts | apply modTime_parts | (intro _) | split)

theorem execTimeRoleWrite_parts (src : Route) (v : BitVec 8) (sb : State) :
    ∃ sc, execTimeRoleWrite src v sb = .next sc ∧ Only [.time, .dict, .host, .sent] sb sc := by
  unfold execTimeRoleWrite
  try dsimp only
  refine ⟨_, rfl, ?_⟩
  repeat'
    with_reducible (first
      | assumption | exact Only.refl _ _ | exact by decide | apply Only.gite | apply Only.gdite | apply timeRoleWrite_parts
      | (intro _) | split)

theorem execTimeSourceWrite_parts (src : Route) (v : BitVec 8) (sb : State) :
    ∃ sc, execTimeSourceWrite src v sb = .next sc ∧ Only [.time, .dict, .host, .sent] sb sc := by
  unfold execTimeSourceWrite
  try dsimp only
  refine ⟨_, rfl, ?_⟩
  repeat'
    with_reducible (first
      | assumption | exact Only.refl _ _ | exact by decide | apply Only.gite | apply Only.gdite | apply timeSourceWrite_parts
      | (intro _) | split)

theorem execBeatrefEdge_parts (stamp : Nat) (sb : State) :
    ∃ sc, execBeatrefEdge stamp sb = .next sc ∧ Only [.time, .ports, .dict, .host, .can, .log, .pwr, .sent] sb sc := by
  unfold execBeatrefEdge
  try dsimp only
  refine ⟨_, rfl, ?_⟩
  repeat'
    with_reducible (first
      | assumption | exact Only.refl _ _ | exact by decide | apply Only.gite | apply Only.gdite | apply beatrefEdge_parts
      | (intro _) | split)

theorem execBeatrefMissing_parts (sb : State) :
    ∃ sc, execBeatrefMissing sb = .next sc ∧ Only [.time, .dict, .host, .can, .log, .pwr, .sent] sb sc := by
  unfold execBeatrefMissing
  try dsimp only
  refine ⟨_, rfl, ?_⟩
  repeat'
    with_reducible (first
      | assumption | exact Only.refl _ _ | exact by decide | apply Only.gite | apply Only.gdite | apply beatMiss_parts
      | (intro _) | split)

end Sys2Proof.Machine
end

