-- ==== Sys2Proof/Laws/PartsTranslate.lean ====
section
/-! SUPPORT. What each command of Machine/Translate.lean may change; each ends in a next state. -/

namespace Sys2Proof.Machine

open Sys2Proof

set_option linter.unusedTactic false
set_option linter.unreachableTactic false

theorem execAtsCompletion_parts (pasid : BitVec 20) (vpage : BitVec 52) (result : AtsResult) (sb : State) :
    ∃ sc, execAtsCompletion pasid vpage result sb = .next sc ∧ Only [.cmp, .xlat, .dict, .host, .can, .log, .pwr, .sent] sb sc := by
  unfold execAtsCompletion
  try dsimp only
  refine ⟨_, rfl, ?_⟩
  repeat'
    with_reducible (first
      | assumption | exact Only.refl _ _ | exact by decide | apply Only.gite | apply Only.gdite | apply atsCompletion_parts
      | (intro _) | split)

theorem execAtsCompletionTimeout_parts (pasid : BitVec 20) (vpage : BitVec 52) (sb : State) :
    ∃ sc, execAtsCompletionTimeout pasid vpage sb = .next sc ∧ Only [.cmp, .xlat, .dict, .host, .can, .log, .pwr, .sent] sb sc := by
  unfold execAtsCompletionTimeout
  try dsimp only
  refine ⟨_, rfl, ?_⟩
  repeat'
    with_reducible (first
      | assumption | exact Only.refl _ _ | exact by decide | apply Only.gite | apply Only.gdite | apply atsTimeout_parts
      | (intro _) | split)

theorem execPageResponse_parts (pasid : BitVec 20) (index : Nat) (code : BitVec 4) (sb : State) :
    ∃ sc, execPageResponse pasid index code sb = .next sc ∧ Only [.cmp, .xlat, .dict, .host, .can, .log, .pwr, .sent] sb sc := by
  unfold execPageResponse
  try dsimp only
  refine ⟨_, rfl, ?_⟩
  repeat'
    with_reducible (first
      | assumption | exact Only.refl _ _ | exact by decide | apply Only.gite | apply Only.gdite | apply pageResponse_parts
      | (intro _) | split)

theorem execPageRequestTimeout_parts (index : Nat) (sb : State) :
    ∃ sc, execPageRequestTimeout index sb = .next sc ∧ Only [.cmp, .xlat, .dict, .host, .can, .log, .pwr, .sent] sb sc := by
  unfold execPageRequestTimeout
  try dsimp only
  refine ⟨_, rfl, ?_⟩
  repeat'
    with_reducible (first
      | assumption | exact Only.refl _ _ | exact by decide | apply Only.gite | apply Only.gdite | apply pageTimeout_parts
      | (intro _) | split)

theorem execPriReset_parts (sb : State) :
    ∃ sc, execPriReset sb = .next sc ∧ Only [.cmp, .xlat, .dict, .host, .can, .log, .pwr, .sent] sb sc := by
  unfold execPriReset
  try dsimp only
  refine ⟨_, rfl, ?_⟩
  repeat'
    with_reducible (first
      | assumption | exact Only.refl _ _ | exact by decide | apply Only.gite | apply Only.gdite | apply modXlat_parts
      | apply stopPages_parts | (intro _) | split)

theorem execAtsEnableClear_parts (sb : State) :
    ∃ sc, execAtsEnableClear sb = .next sc ∧ Only [.xlat] sb sc := by
  unfold execAtsEnableClear
  try dsimp only
  refine ⟨_, rfl, ?_⟩
  repeat'
    with_reducible (first
      | assumption | exact Only.refl _ _ | exact by decide | apply Only.gite | apply Only.gdite | apply modXlat_parts
      | (intro _) | split)

theorem execPriEnableClear_parts (sb : State) :
    ∃ sc, execPriEnableClear sb = .next sc ∧ Only [.cmp, .xlat, .dict, .host, .can, .log, .pwr, .sent] sb sc := by
  unfold execPriEnableClear
  try dsimp only
  refine ⟨_, rfl, ?_⟩
  repeat'
    with_reducible (first
      | assumption | exact Only.refl _ _ | exact by decide | apply Only.gite | apply Only.gdite | apply stopPages_parts
      | apply modXlat_parts | (intro _) | split)

theorem execAtsInvalidate_parts (itag : BitVec 5) (pasid : Option (BitVec 20)) (global : Bool) (base : BitVec 64)
    (log2 : Nat) (sb : State) :
    ∃ sc, execAtsInvalidate itag pasid global base log2 sb = .next sc ∧ Only [.bep, .ep, .grotto, .cmp, .xlat, .mem, .dict, .host, .can, .log, .pwr, .sent] sb sc := by
  unfold execAtsInvalidate
  try dsimp only
  refine ⟨_, rfl, ?_⟩
  repeat'
    with_reducible (first
      | assumption | exact Only.refl _ _ | exact by decide | apply Only.gite | apply Only.gdite | apply atsInvalidate_parts
      | (intro _) | split)

theorem execInvalidateCompletion_parts (itag : BitVec 5) (sb : State) :
    ∃ sc, execInvalidateCompletion itag sb = .next sc ∧ Only [.bep, .ep, .grotto, .cmp, .xlat, .mem, .dict, .host, .can, .log, .pwr, .sent] sb sc := by
  unfold execInvalidateCompletion
  try dsimp only
  refine ⟨_, rfl, ?_⟩
  repeat'
    with_reducible (first
      | assumption | exact Only.refl _ _ | exact by decide | apply Only.gite | apply Only.gdite
      | apply invalidateCompletion_parts | (intro _) | split)

theorem execInvalidateAll_parts (src : Route) (v : BitVec 8) (sb : State) :
    ∃ sc, execInvalidateAll src v sb = .next sc ∧ Only [.bep, .ep, .grotto, .cmp, .xlat, .mem, .dict, .host, .can, .log, .pwr, .sent] sb sc := by
  unfold execInvalidateAll
  try dsimp only
  refine ⟨_, rfl, ?_⟩
  repeat'
    with_reducible (first
      | assumption | exact Only.refl _ _ | exact by decide | apply Only.gite | apply Only.gdite | apply invalidateAll_parts
      | (intro _) | split)

theorem execDirectoryEnable_parts (src : Route) (v : BitVec 8) (sb : State) :
    ∃ sc, execDirectoryEnable src v sb = .next sc ∧ Only [.bep, .ep, .grotto, .cmp, .xlat, .mem, .dict, .host, .can, .log, .pwr, .sent] sb sc := by
  unfold execDirectoryEnable
  try dsimp only
  refine ⟨_, rfl, ?_⟩
  repeat'
    with_reducible (first
      | assumption | exact Only.refl _ _ | exact by decide | apply Only.gite | apply Only.gdite | apply directoryWrite_parts
      | (intro _) | split)

theorem execDirectoryDisable_parts (src : Route) (v : BitVec 8) (sb : State) :
    ∃ sc, execDirectoryDisable src v sb = .next sc ∧ Only [.bep, .ep, .grotto, .cmp, .xlat, .mem, .dict, .host, .can, .log, .pwr, .sent] sb sc := by
  unfold execDirectoryDisable
  try dsimp only
  refine ⟨_, rfl, ?_⟩
  repeat'
    with_reducible (first
      | assumption | exact Only.refl _ _ | exact by decide | apply Only.gite | apply Only.gdite | apply directoryWrite_parts
      | (intro _) | split)

end Sys2Proof.Machine
end

