-- ==== Sys2Proof/Tests/Slice0.lean ====
section
/-!
SUPPORT. Tests: each check of the well-formedness refuses an ill-formed command; the hypotheses of the statements are met by
concrete states and operands; single commands do what the spec gives on a small state.
-/

namespace Sys2Proof.Tests

open Sys2Proof Sys2Proof.Machine

/-! ## Well-formedness: each check refuses an ill-formed command -/

/-- A block of a slot, with nothing in it. -/
def blankBlock : Block where
  sideband := 0
  integrity := 0

/-- A mailbox request without its data bytes. -/
def shortRequest : MbxRequest where
  op := 0
  sub := 0
  index := 0
  len := 0
  flags := 0
  offset := 0
  reqSeq := 0
  data := []

/-- A finding of a scrub at the given place. -/
def findingAt (place : SramStructure) : SramFinding where
  place := place
  uncorrectable := false

theorem test_wf_cell_payload : (Instr.epVc10Receive { payload := List.replicate 257 0 }).wf = false := by decide +kernel
theorem test_wf_cell_payload_full : (Instr.epVc10Receive { payload := List.replicate 256 0 }).wf = true := by decide +kernel
theorem test_wf_operation : (Instr.ld { op := 0x02 }).wf = false ∧ (Instr.ld { op := 0x01 }).wf = true := by decide
theorem test_wf_payload_of_a_request : (Instr.st { op := 0x04, payload := List.replicate 257 0 }).wf = false := by decide +kernel
theorem test_wf_atomic : (Instr.atXor { op := 0x07 }).wf = false ∧ (Instr.fen { op := 0x0A }).wf = true := by decide
theorem test_wf_block_payload : (Instr.cellReceive 0 { blankBlock with payload := List.replicate 257 0 }).wf = false := by decide +kernel
theorem test_wf_block_slot : (Instr.idleSlotReceive 0 { blankBlock with slot := 6425 }).wf = false ∧
    (Instr.idleSlotReceive 0 { blankBlock with slot := 6424 }).wf = true := by decide
theorem test_wf_empty_register_write : (Instr.registerWrite 0 []).wf = false := by decide
theorem test_wf_register_write_across_an_end : (Instr.registerWrite 0x3FFFFFF [some 0, some 0]).wf = false ∧
    (Instr.registerWrite 0x100000000 [some 0]).wf = true ∧ (Instr.registerWrite 0x100001000 [some 0]).wf = false ∧
    (Instr.registerWrite 0x20000FFFF [some 0]).wf = true ∧ (Instr.registerWrite 0x200010000 [some 0]).wf = false := by decide
theorem test_wf_window_range : (Instr.bar2Read 0xFFFFFFFF 2).wf = false ∧ (Instr.bar2Read 0 0).wf = false ∧
    (Instr.bar2Write 0x100000000 [none]).wf = false ∧ (Instr.bar2Write 0xFFFFFFFF [none]).wf = true := by decide
theorem test_wf_stall_place : (Instr.stallScrub [findingAt (.stallBuffer 0 6400)]).wf = false ∧
    (Instr.stallScrub [findingAt (.stallBuffer 0 6399)]).wf = true := by decide
theorem test_wf_reply_place : (Instr.structureScrub [findingAt (.replyStore 64)]).wf = false := by decide
theorem test_wf_descriptor_place : (Instr.structureScrub [findingAt (.descriptor 0 6400)]).wf = false := by decide
theorem test_wf_combining_place : (Instr.structureScrub [findingAt (.combining 4096)]).wf = false := by decide
theorem test_wf_joiner_place : (Instr.structureScrub [findingAt (.joiner 4096 0)]).wf = false ∧
    (Instr.structureScrub [findingAt (.joiner 0 32768)]).wf = false := by decide
theorem test_wf_translation_place : (Instr.structureScrub [findingAt (.translation 1024 0)]).wf = false ∧
    (Instr.structureScrub [findingAt (.translation 0 16)]).wf = false := by decide
theorem test_wf_bank_places : (Instr.idlePortScrub [findingAt (.routeBank 0 255)]).wf = false ∧
    (Instr.idlePortScrub [findingAt (.calendarBank 0 65536)]).wf = false := by decide
theorem test_wf_scrub_list : (Instr.structureScrub [findingAt .muster, findingAt (.replyStore 64)]).wf = false := by decide
theorem test_wf_reduce_lines : (Instr.reduceStore 0 none false 0 0 0 [1]).wf = false ∧ (Instr.reduceStore 0 none false 0 0 0 []).wf = true := by decide
theorem test_wf_descriptor_bytes : (Instr.epWindowBind 0 0 [] 0).wf = false := by decide
theorem test_wf_calendar_offset : (Instr.epVc9Slot 65536).wf = false ∧ (Instr.epVc9Slot 65535).wf = true := by decide
theorem test_wf_probe_cells : (Instr.snpReceive 0 { op := 0x19 }).wf = false ∧ (Instr.snrReceive { op := 0x18 }).wf = false := by decide
theorem test_wf_other_cells : (Instr.rtdRouteEntries 0 { payload := List.replicate 257 0 }).wf = false ∧
    (Instr.timReceive 0 { payload := List.replicate 257 0 }).wf = false ∧
    (Instr.responseReceive { payload := List.replicate 257 0 }).wf = false := by decide +kernel
theorem test_wf_page_index : (Instr.pageResponse 0 512 0).wf = false ∧ (Instr.pageRequestTimeout 512).wf = false := by decide
theorem test_wf_invalidation_size : (Instr.atsInvalidate 0 none false 0 11).wf = false ∧ (Instr.atsInvalidate 0 none false 0 65).wf = false := by decide +kernel
theorem test_wf_sessions : (Instr.finish 4 true).wf = false ∧ (Instr.keyUpdate 4 0).wf = false ∧ (Instr.spdmHeartbeat 4).wf = false ∧
    (Instr.endSession 4).wf = false ∧ (Instr.sessionHeartbeatTimeout 4).wf = false ∧ (Instr.endSession 3).wf = true := by decide +kernel
theorem test_wf_secured_request : (Instr.vendorDefinedRequest 0 shortRequest).wf = false ∧
    (Instr.vendorDefinedRequest 4 { shortRequest with data := List.replicate 2032 0 }).wf = false := by decide +kernel
theorem test_wf_mailbox_data : ({ shortRequest with data := List.replicate 2032 0 } : MbxRequest).wf = true := by decide +kernel
theorem test_wf_firmware_segment : (Instr.firmwareImageWrite 0 true true (List.replicate 2033 0)).wf = false ∧
    (Instr.firmwareImageWrite 4 true true []).wf = false := by decide +kernel
theorem test_wf_loss_list : (Instr.loss 0 0 (List.replicate 128 0)).wf = false := by decide +kernel
theorem test_wf_bitmap : (Instr.fset 0 0 (List.replicate 254 0)).wf = false ∧ (Instr.fset 0 0 (List.replicate 257 0)).wf = false ∧
    (Instr.fset 0 0 (List.replicate 255 0)).wf = true := by decide +kernel

end Sys2Proof.Tests
end

section
/-! SUPPORT. Reset values (R22, R31, R115, R364, R404, R408) and the writes of configuration entries (R14, R15, R20, R23, R123,
R131, R231, R357). -/

namespace Sys2Proof.Machine

open Sys2Proof

/-! ### The state after reset -/

/-- No entry has been written yet. -/
theorem odGet_reset (index sub : Nat) : odGet State.reset index sub = odDefault (odKey index sub) := rfl

/-- Settles O4: every entry reads its default, every other register its initial value. -/
theorem resetLeavesTheStatedValues : Obligations.ResetLeavesTheStatedValues := by
  unfold Obligations.ResetLeavesTheStatedValues
  have hcommit : assigned State.reset = false := by
    unfold assigned
    rw [odGet_reset]
    decide
  have hcoloured : odGet State.reset 0x5300 2 = 1 := by
    rw [odGet_reset]
    decide
  have hcurrent : viewScalar State.reset none 0x3100 1 = 1 := by decide
  exact ⟨rfl, rfl, hcommit, rfl, rfl, rfl, rfl, hcurrent, rfl, rfl, rfl, rfl, hcoloured, memoryOk_reset, rfl, rfl⟩

/-! ### Entries along folds and parts -/

/-- A fold of operations that each leave every entry but those listed. -/
theorem OnlyEntries.foldl {α : Type} {m : List (Nat × Nat)} {f : State → α → State} (l : List α)
    (h : ∀ x ∈ l, ∀ u, OnlyEntries m u (f u x)) (s : State) : OnlyEntries m s (l.foldl f s) := by
  induction l generalizing s with
  | nil => exact OnlyEntries.refl m s
  | cons x r ih =>
    exact (h x List.mem_cons_self s).trans (ih (fun y hy => h y (List.mem_cons_of_mem x hy)) (f s x))

theorem OnlyEntries.ite {m : List (Nat × Nat)} {s a b : State} {c : Prop} [Decidable c] (h : OnlyEntries m s a)
    (g : OnlyEntries m s b) : OnlyEntries m s (if c then a else b) := by
  split
  · exact h
  · exact g

/-! ### Ports -/

/-- A change outside the ports leaves each port. -/
theorem Only.port {l : List Part} {s t : State} (h : Only l s t) (g : Part.ports ∉ l) (p : PortN) : t.port p = s.port p :=
  congrArg (fun v : Vector Port 24 => v[p]) (h .ports g)

theorem OnlyPort.trans {p : PortN} {s t u : State} (h : OnlyPort p s t) (g : OnlyPort p t u) : OnlyPort p s u :=
  fun q hq => (g q hq).trans (h q hq)

theorem Only.onlyPort {l : List Part} {s t : State} (h : Only l s t) (g : Part.ports ∉ l) (p : PortN) : OnlyPort p s t :=
  fun q _ => h.port g q

theorem modPort_onlyPort (p : PortN) (f : Port → Port) (s : State) : OnlyPort p s (modPort p f s) :=
  fun q hq => port_modPort_ne p q f s hq

theorem leaveActive_onlyPort (p : PortN) (s : State) : OnlyPort p s (leaveActive p s) := by
  unfold leaveActive
  split
  · exact (modPort_onlyPort p _ s).trans ((raiseCause_only 6 _).onlyPort (by decide) p)
  · exact fun _ _ => rfl

theorem toState_onlyPort (t : Train) (p : PortN) (s : State) : OnlyPort p s (toState t p s) :=
  (leaveActive_onlyPort p s).trans (modPort_onlyPort p _ _)

theorem toState_train (t : Train) (p : PortN) (s : State) : ((toState t p s).port p).train = t := by
  simp [toState]

theorem toExchange_onlyPort (p : PortN) (s : State) : OnlyPort p s (toExchange p s) := toState_onlyPort .exchange p s

theorem toExchange_train (p : PortN) (s : State) : ((toExchange p s).port p).train = .exchange :=
  toState_train .exchange p s

/-- Operations that each change their own port, one after another over ports that are named once: each named port is as its
own operation leaves it, every other port as it was. -/
theorem foldl_ports {f : PortN → State → State} {R : Port → Port → Prop} (hR : ∀ p s, R (s.port p) ((f p s).port p))
    (hf : ∀ p s, OnlyPort p s (f p s)) (l : List PortN) (hl : l.Nodup) (s : State) (q : PortN) :
    (q ∈ l → R (s.port q) ((l.foldl (fun t p => f p t) s).port q)) ∧
      (q ∉ l → (l.foldl (fun t p => f p t) s).port q = s.port q) := by
  induction l generalizing s with
  | nil => simp
  | cons x r ih =>
    obtain ⟨hx, hr⟩ := List.nodup_cons.mp hl
    obtain ⟨hin, hout⟩ := ih hr (f x s)
    rw [List.foldl_cons]
    by_cases hq : q = x
    · subst hq
      refine ⟨fun _ => ?_, fun h => absurd List.mem_cons_self h⟩
      rw [hout hx]
      exact hR q s
    · rw [hf x s q hq] at hin hout
      simpa [hq] using And.intro hin hout

/-- What `forPorts` does to one port is what its operation does to it. -/
theorem forPorts_port {f : PortN → State → State} {R : Port → Port → Prop} (hR : ∀ p s, R (s.port p) ((f p s).port p))
    (hf : ∀ p s, OnlyPort p s (f p s)) (s : State) (q : PortN) : R (s.port q) ((forPorts f s).port q) :=
  (foldl_ports hR hf _ (List.nodup_finRange 24) s q).1 (List.mem_finRange q)

/-! ### ROLE_WRITE (R14, R15, R123) -/

/-- The entries that the re-check of a port's credits may change. -/
def creditEntries (p : PortN) : List (Nat × Nat) := (0x1F00, 3) :: (List.range 12).map (fun v => (0x3210 + p.val, v + 1))

theorem recheckCredits_only (src : Route) (p : PortN) (s : State) : Only [.dict, .host, .sent] s (recheckCredits src p s) :=
  recheckCredits_parts src p (List.Subset.refl _) (Only.refl _ _)

/-- A credit entry that is not 0 is set to 0, and the clamp reported. -/
def zeroCredit (src : Route) (p : PortN) (v : Nat) (s : State) : State :=
  let old := odGet s (0x3210 + p.val) (v + 1)
  if old = 0 then s
  else clamped src (0x3210 + p.val) (v + 1) (scalarPlace 16) old 0 (odSet (0x3210 + p.val) (v + 1) 0 s)

theorem zeroCredit_entries (src : Route) (p : PortN) {v : Nat} (hv : v < 12) (s : State) :
    OnlyEntries (creditEntries p) s (zeroCredit src p v s) := by
  have hset : OnlyEntries (creditEntries p) s (odSet (0x3210 + p.val) (v + 1) 0 s) :=
    (odSet_entries _ _ _ s (by omega)).mono (by simp [creditEntries, hv])
  exact (OnlyEntries.refl _ s).ite (hset.trans ((clamped_entries _ _ _ _ _ _ _).mono (by simp [creditEntries])))

/-- VC8 off an end-point port first, then every VC where the total is over 5,376 cells. -/
theorem recheckCredits_eq (src : Route) (p : PortN) (s : State) :
    recheckCredits src p s =
      (let t := if role s p = 1 then s else zeroCredit src p 8 s
       if creditOthers t p 12 ≤ 5376 then t else (List.range 12).foldl (fun u v => zeroCredit src p v u) t) := rfl

theorem recheckCredits_entries (src : Route) (p : PortN) (s : State) : OnlyEntries (creditEntries p) s (recheckCredits src p s) := by
  rw [recheckCredits_eq]
  have hendPoint := (OnlyEntries.refl (creditEntries p) s).ite (c := role s p = 1) (zeroCredit_entries src p (by decide : 8 < 12) s)
  have hall (t : State) := OnlyEntries.foldl (List.range 12) (fun v hv u => zeroCredit_entries src p (List.mem_range.mp hv) u) t
  exact hendPoint.trans ((OnlyEntries.refl _ _).ite (hall _))

/-- The role kept: at most 3, and a global role on an electrical port is disabled. -/
def roleKept (p : PortN) (v : Nat) : Nat := if min v 3 = 3 ∧ p.val < 12 then 0 else min v 3

/-- The role and the medium of a ROLE_WRITE before the credits are checked again. -/
def keepRole (src : Route) (p : PortN) (v : Nat) (s : State) : State :=
  let t := keepTwo src (portIndex p 0) 1 8 v (min v 3) (roleKept p v) s
  if roleKept p v = 3 ∧ medium t p = 0 then
    clamped src (portIndex p 0) 2 (scalarPlace 8) 0 1 (odSet (portIndex p 0) 2 1 t)
  else t

theorem keepRole_only (src : Route) (p : PortN) (v : Nat) (s : State) : Only [.dict, .host, .sent] s (keepRole src p v s) := by
  refine (keepTwo_only src (portIndex p 0) 1 8 v _ _ s).trans (Only.ite ?_ (Only.refl _ _))
  exact ((odSet_only _ _ _ _).mono (by simp)).trans (clamped_only _ _ _ _ _ _ _)

theorem role_keepRole (src : Route) (p : PortN) (v : Nat) (s : State) : role (keepRole src p v s) p = roleKept p v := by
  have hkept (w a b : Nat) (u : State) : odGet (keepTwo src (portIndex p 0) 1 8 w a b u) (portIndex p 0) 1 = b :=
    odGet_keepTwo _ _ _ _ _ _ _ _ (by decide) (by simp)
  unfold role keepRole
  dsimp only
  split
  · rw [odGet_clamped _ _ _ _ _ _ _ _ _ (by decide) (by simp), odGet_odSet_ne _ _ _ _ _ _ (by simp [odKey]), hkept]
  · exact hkept _ _ _ _

/-- All that a ROLE_WRITE outside ACTIVE does to the entries, before the port leaves or enters DISABLED. -/
def storeRole (src : Route) (p : PortN) (v : Nat) (s : State) : State := recheckCredits src p (keepRole src p v s)

theorem storeRole_only (src : Route) (p : PortN) (v : Nat) (s : State) : Only [.dict, .host, .sent] s (storeRole src p v s) :=
  (keepRole_only src p v s).trans (recheckCredits_only src p _)

theorem role_storeRole (src : Route) (p : PortN) (v : Nat) (s : State) : role (storeRole src p v s) p = roleKept p v := by
  have hfar : (portIndex p 0, 1) ∉ creditEntries p := by
    have hne : 0x3210 + p.val ≠ 0x2000 + 16 * p.val := by omega
    simpa [creditEntries, portIndex] using hne
  exact (recheckCredits_entries src p _ _ _ (by decide) hfar).trans (role_keepRole src p v s)

/-- The four ends of a ROLE_WRITE of a port outside ACTIVE. -/
theorem roleWrite_of_not_active {src : Route} {p : PortN} {v : Nat} {s : State} (ha : (s.port p).train ≠ .active) :
    roleWrite src p v s =
      if roleKept p v = 0 then
        (if (s.port p).train = .disabled then storeRole src p v s else toDisabled p (storeRole src p v s))
      else if (s.port p).train = .disabled ∧ portsHeld (storeRole src p v s) = false then wakePort p (storeRole src p v s)
      else storeRole src p v s := by
  rw [← (storeRole_only src p v s).port (by decide) p]
  unfold roleWrite
  rw [if_neg ha]
  rfl

/-- A role that fits the port's state changes entries only. -/
theorem roleWrite_eq_storeRole {src : Route} {p : PortN} {v : Nat} {s : State} (ha : (s.port p).train ≠ .active)
    (hk : roleKept p v = 0 ↔ (s.port p).train = .disabled) : roleWrite src p v s = storeRole src p v s := by
  rw [roleWrite_of_not_active ha]
  by_cases hd : (s.port p).train = .disabled
  · rw [if_pos (hk.mpr hd), if_pos hd]
  · rw [if_neg (fun h => hd (hk.mp h)), if_neg (fun h => hd h.1)]

/-! ### MEDIUM_WRITE and CREDIT_WRITE (R15, R123) -/

/-- The medium kept: electrical on P0–P11, optical on a global port. -/
def mediumKept (s : State) (p : PortN) (v : Nat) : Nat := if p.val < 12 then 0 else if role s p = 3 then 1 else min v 1

theorem mediumWrite_of_not_active {src : Route} {p : PortN} {v : Nat} {s : State} (ha : (s.port p).train ≠ .active) :
    mediumWrite src p v s = keepTwo src (portIndex p 0) 2 8 v (min v 1) (mediumKept s p v) s := by
  unfold mediumWrite
  rw [if_neg ha]
  rfl

/-- The credits asked for: none on VC9, VC10 and, off an end-point port, VC8; else 0 or at least 8. -/
def creditAsked (s : State) (p : PortN) (vc v : Nat) : Nat :=
  if vc = 9 ∨ vc = 10 ∨ (vc = 8 ∧ role s p ≠ 1) then 0 else if v = 0 then 0 else max v 8

theorem creditWrite_of_room {src : Route} {p : PortN} {vc v : Nat} {s : State}
    (h : (if creditAsked s p vc v = 0 then defaultCredit (role s p) vc else creditAsked s p vc v) + creditOthers s p vc ≤ 5376) :
    creditWrite src p vc v s = keepScalar src (0x3210 + p.val) (vc + 1) 16 v (creditAsked s p vc v) s := by
  have hroom := Nat.le_sub_of_add_le h
  exact if_pos hroom

/-! ### TENANT_SHARE_WRITE (R131) -/

/-- The shares above tenant `t` are cut to what those below leave. -/
def clipShares (src : Route) (t : Nat) (s : State) : State :=
  ((List.range 16).drop (t + 1)).foldl (fun s u =>
    let old := odGet s 0x3301 (u + 1)
    keepScalar src 0x3301 (u + 1) 8 old (min old (shareRoom s u)) s) s

theorem tenantShareWrite_eq (src : Route) (t v : Nat) (s : State) :
    tenantShareWrite src t v s = clipShares src t (keepScalar src 0x3301 (t + 1) 8 v (min v (shareRoom s t)) s) := rfl

/-- The entries of the shares above tenant `t`, and the count of clamps. -/
def sharesAbove (t : Nat) : List (Nat × Nat) := (0x1F00, 3) :: ((List.range 16).drop (t + 1)).map (fun u => (0x3301, u + 1))

theorem clipShares_entries (src : Route) (t : Nat) (s : State) : OnlyEntries (sharesAbove t) s (clipShares src t s) := by
  refine OnlyEntries.foldl _ (fun u hu x => ?_) s
  have hsub : u + 1 < 256 := by
    have := List.mem_range.mp (List.mem_of_mem_drop hu)
    omega
  have hlisted : (0x3301, u + 1) ∈ sharesAbove t := List.mem_cons_of_mem _ (List.mem_map_of_mem hu)
  have hcount : (0x1F00, 3) ∈ sharesAbove t := List.mem_cons_self
  exact (keepScalar_entries src 0x3301 (u + 1) 8 _ _ x hsub).mono (by simp [hlisted, hcount])

theorem odGet_clipShares_of_le (src : Route) {t w : Nat} (ht : t < 16) (hw : w ≤ t) (s : State) :
    odGet (clipShares src t s) 0x3301 (w + 1) = odGet s 0x3301 (w + 1) := by
  refine clipShares_entries src t s _ _ (by omega) (fun h => ?_)
  obtain ⟨k, _, hk⟩ : ∃ k, k + (t + 1) < 16 ∧ t + 1 + k = w := by
    simpa [sharesAbove, List.mem_drop_iff_getElem, -List.map_drop] using h
  omega

/-! ### ISOLATION_MODE_WRITE (R231, R357) -/

theorem isolationWrite_of_open {src : Route} {v : Nat} {s : State} (hsec : secure src = true) (hopen : assigned s = false)
    (hmap : v = 0 ∨ s.mem.coloured = true) : isolationWrite src v s = keepScalar src 0x4100 3 8 v (min v 1) s := by
  have hallowed : ¬(assigned s = true ∨ min v 1 = 1 ∧ s.mem.coloured = false) := by
    rcases hmap with rfl | h
    · simp [hopen]
    · simp [hopen, h]
  rw [isolationWrite, if_neg (by simp [hsec]), if_neg hallowed]

/-! ### COORDINATE_COMMIT (R20, R23) -/

/-- What a commit does to a port: from ACTIVE it goes to EXCHANGE, every other state stays. -/
def PortAfterCommit (a b : Port) : Prop := (a.train = .active → b.train = .exchange) ∧ (a.train ≠ .active → b = a)

/-- A port in ACTIVE trains again from EXCHANGE, with the new coordinate. -/
def exchangeActive (p : PortN) (s : State) : State := if (s.port p).train = .active then toExchange p s else s

theorem exchangeActive_onlyPort (p : PortN) (s : State) : OnlyPort p s (exchangeActive p s) := by
  unfold exchangeActive
  split
  · exact toExchange_onlyPort p s
  · exact fun _ _ => rfl

theorem exchangeActive_port (p : PortN) (s : State) : PortAfterCommit (s.port p) ((exchangeActive p s).port p) := by
  unfold exchangeActive
  split
  · next h => exact ⟨fun _ => toExchange_train p s, fun g => absurd h g⟩
  · next h => exact ⟨fun g => absurd g h, fun _ => rfl⟩

theorem forPorts_exchangeActive_only (s : State) : Only [.ports, .host, .sent] s (forPorts exchangeActive s) :=
  forPorts_parts _ (fun p u h => Only.gite (fun _ => toExchange_parts p (List.Subset.refl _) h) (fun _ => h)) (by simp)
    (Only.refl _ _)

theorem coordinateCommit_one (src : Route) (s : State) (h : assigned s = false) :
    coordinateCommit src 1 s = forPorts exchangeActive (keepScalar src 0x3000 3 8 1 1 s) := by
  have hset : assigned (keepScalar src 0x3000 3 8 1 1 s) = true := by
    simp [assigned, odGet_keepScalar]
  simp only [coordinateCommit, h, Bool.false_eq_true, if_false, Nat.min_self, hset, if_true]
  rfl

/-! ### The commands -/

theorem exec_roleWrite (src : Route) (p : PortN) (v : BitVec 8) (s : State) :
    exec (.roleWrite src p v) s = .next (roleWrite src p v.toNat (beginOp s)) := rfl

theorem exec_mediumWrite (src : Route) (p : PortN) (v : BitVec 8) (s : State) :
    exec (.mediumWrite src p v) s = .next (mediumWrite src p v.toNat (beginOp s)) := rfl

theorem exec_creditWrite (src : Route) (p : PortN) (vc : Fin 12) (v : BitVec 16) (s : State) :
    exec (.creditWrite src p vc v) s = .next (creditWrite src p vc.val v.toNat (beginOp s)) := rfl

theorem exec_tenantShareWrite (src : Route) (u : TenantN) (v : BitVec 8) (s : State) :
    exec (.tenantShareWrite src u v) s = .next (tenantShareWrite src u.val v.toNat (beginOp s)) := rfl

theorem exec_isolationModeWrite (src : Route) (v : BitVec 8) (s : State) :
    exec (.isolationModeWrite src v) s = .next (isolationWrite src v.toNat (beginOp s)) := rfl

theorem exec_coordinateCommit (src : Route) (v : BitVec 8) (s : State) :
    exec (.coordinateCommit src v) s = .next (coordinateCommit src v.toNat (beginOp s)) := rfl

/-- The frame of a write, from the state before its operation began. -/
theorem Only.of_beginOp {s t : State} (h : Only [.dict, .host, .sent] (beginOp s) t) : Only [.dict, .host, .sent] s t :=
  ((beginOp_only s).mono (by simp)).trans h

theorem OnlyEntries.of_beginOp {l : List (Nat × Nat)} {s t : State} (h : OnlyEntries l (beginOp s) t) : OnlyEntries l s t := h

/-- ROLE_WRITE and MEDIUM_WRITE in ACTIVE only set their outcome (R15). -/
theorem active_refuses (src : Route) (p : PortN) (v : BitVec 8) (s : State) (h : (s.port p).train = .active) :
    exec (.roleWrite src p v) s = .next (refuseCondition s) ∧ exec (.mediumWrite src p v) s = .next (refuseCondition s) := by
  have hb : ((beginOp s).port p).train = .active := h
  constructor
  · rw [exec_roleWrite, roleWrite, if_pos hb]
    rfl
  · rw [exec_mediumWrite, mediumWrite, if_pos hb]
    rfl

/-- A commit of 1 on an unassigned device. -/
theorem exec_coordinateCommit_one (src : Route) (s : State) (h : assigned s = false) :
    ∃ t : State, exec (.coordinateCommit src 1) s = .next t ∧ assigned t = true ∧
      (∀ p : PortN, PortAfterCommit (s.port p) (t.port p)) ∧ Only [.ports, .dict, .host, .sent] s t := by
  let u := keepScalar src 0x3000 3 8 1 1 (beginOp s)
  have hu : Only [.dict, .host, .sent] s u := Only.of_beginOp (keepScalar_only _ _ _ _ _ _ _)
  have hports (p : PortN) : u.port p = s.port p := hu.port (by decide) p
  have hfold := forPorts_exchangeActive_only u
  refine ⟨forPorts exchangeActive u, ?_, ?_, fun p => ?_, (hu.mono (by simp)).trans (hfold.mono (by simp))⟩
  · exact (exec_coordinateCommit src 1 s).trans (congrArg _ (coordinateCommit_one src (beginOp s) h))
  · have hcommit : odGet (forPorts exchangeActive u) 0x3000 3 = odGet u 0x3000 3 :=
      hfold.entries (by decide) _ _ (by decide) (by simp)
    simp [assigned, hcommit, u, odGet_keepScalar]
  · rw [← hports p]
    exact forPorts_port exchangeActive_port exchangeActive_onlyPort u p

/-- Settles O6: each write is one entry kept under its clamp; only a commit changes ports, each by its own move to EXCHANGE. -/
theorem configurationEntryWrites : Obligations.ConfigurationEntryWrites := by
  unfold Obligations.ConfigurationEntryWrites
  refine ⟨⟨?role, ?medium, active_refuses, ?credit⟩, ?share, ?isolation, ?unsecured, ?commit⟩
  case role =>
    rintro src p v s kept rfl ha hk
    refine ⟨storeRole src p v.toNat (beginOp s), ?_, role_storeRole .., Only.of_beginOp (storeRole_only _ _ _ _)⟩
    rw [exec_roleWrite, roleWrite_eq_storeRole (s := beginOp s) ha hk]
  case medium =>
    intro src p v s ha
    rw [exec_mediumWrite, mediumWrite_of_not_active (s := beginOp s) ha]
    exact ⟨_, rfl, odGet_keepTwo _ _ _ _ _ _ _ _ (by decide) (by simp),
      OnlyEntries.of_beginOp (keepTwo_entries _ _ _ _ _ _ _ _ (by decide)), Only.of_beginOp (keepTwo_only _ _ _ _ _ _ _ _)⟩
  case credit =>
    rintro src p vc v s asked rfl hroom
    have hsub : vc.val + 1 < 256 := by omega
    have hindex : ¬(0x3210 + p.val = 0x1F00 ∧ vc.val + 1 = 3) := by omega
    rw [exec_creditWrite, creditWrite_of_room (s := beginOp s) hroom]
    exact ⟨_, rfl, odGet_keepScalar _ _ _ _ _ _ _ hsub hindex,
      OnlyEntries.of_beginOp (keepScalar_entries _ _ _ _ _ _ _ hsub), Only.of_beginOp (keepScalar_only _ _ _ _ _ _ _)⟩
  case share =>
    intro src u v s
    have hsub : u.val + 1 < 256 := by omega
    refine ⟨_, exec_tenantShareWrite .., ?_, fun w hw => ?_,
      Only.of_beginOp (tenantShareWrite_parts _ _ _ (List.Subset.refl _) (Only.refl _ _))⟩
    · rw [tenantShareWrite_eq, odGet_clipShares_of_le src u.isLt le_rfl, odGet_keepScalar _ _ _ _ _ _ _ hsub (by simp)]
      rfl
    · rw [tenantShareWrite_eq, odGet_clipShares_of_le src u.isLt hw.le]
      exact keepScalar_entries _ _ _ _ _ _ _ hsub _ _ (by omega) (by simp [Nat.ne_of_lt hw])
  case isolation =>
    intro src v s hsec hopen hmap
    refine ⟨_, ?_, odGet_keepScalar src 0x4100 3 8 v.toNat (min v.toNat 1) (beginOp s) (by decide) (by decide),
      Only.of_beginOp (keepScalar_only _ _ _ _ _ _ _)⟩
    rw [exec_isolationModeWrite, isolationWrite_of_open (s := beginOp s) hsec hopen hmap]
  case unsecured =>
    intro src v s hsec
    rw [exec_isolationModeWrite, isolationWrite, if_pos (by simp [hsec])]
    rfl
  case commit =>
    intro src s h
    obtain ⟨t, hexec, hassigned, hports, honly⟩ := exec_coordinateCommit_one src s h
    exact ⟨t, hexec, hassigned, fun p => (hports p).1, fun p => (hports p).2, honly⟩

end Sys2Proof.Machine
end

section
/-! SUPPORT. Fabric time: what a recorded event counts, what a judgement of the time state may change of the time unit, of the
ports and of the entries, and how FT moves forward (R32, R50–R53). -/

namespace Sys2Proof.Machine

open Sys2Proof

/-! ### Entries that a recorded event counts (R396, R449) -/

/-- The counters of the event log and of EMCY. -/
def eventEntries : List (Nat × Nat) :=
  [(0x7100, 4), (0x7100, 5), (0x7100, 6), (0x1100, 0x11), (0x1100, 0x17), (0x1100, 0x18)]

/-- A change that leaves the store of entries, whatever entries may change. -/
theorem OnlyEntries.of_same_od {l : List (Nat × Nat)} {s t : State} (h : t.dict.od = s.dict.od) : OnlyEntries l s t :=
  (OnlyEntries.of_od h).mono (by simp)

/-- A change that may follow another. -/
theorem OnlyEntries.maybe {l : List (Nat × Nat)} {s t u : State} {c : Prop} [Decidable c] (h : OnlyEntries l s t)
    (g : OnlyEntries l t u) : OnlyEntries l s (if c then u else t) := (h.trans g).ite h

theorem bump_eventEntries {i j : Nat} (h : (i, j) ∈ eventEntries) (s : State) : OnlyEntries eventEntries s (bump i j s) := by
  have hsub : ∀ e ∈ eventEntries, e.2 < 256 := by decide
  exact (bump_entries i j s (hsub _ h)).mono (by simpa using h)

theorem raiseCause_eventEntries (n : Fin 64) (s : State) : OnlyEntries eventEntries s (raiseCause n s) :=
  (raiseCause_entries n s).mono (by simp)

theorem emcy_entries (err code seq : Nat) (s : State) : OnlyEntries eventEntries s (emcy err code seq s) := by
  have hbump := @bump_eventEntries
  unfold emcy
  split
  · extract_lets _ u _
    have hsent : OnlyEntries eventEntries s u := (hbump (by decide) s).trans (hbump (by decide) _)
    split
    · exact hsent.trans (OnlyEntries.of_same_od rfl)
    · exact hbump (by decide) s
  · exact OnlyEntries.refl _ s

theorem lookAlert_entries (s : State) : OnlyEntries eventEntries s (lookAlert s) := by
  unfold lookAlert
  extract_lets _ _ _ seen alerted _ told _
  have hseen : OnlyEntries eventEntries s seen := OnlyEntries.of_same_od rfl
  have halerted : OnlyEntries eventEntries s alerted := hseen.ite (hseen.trans (raiseCause_eventEntries 2 _))
  have htold : OnlyEntries eventEntries s told := halerted.maybe (emcy_entries _ _ _ _)
  exact htold.trans (OnlyEntries.of_same_od rfl)

theorem flushLog_dict (s : State) : (flushLog s).dict = s.dict := by
  unfold flushLog
  rfl

theorem event_entries (code tenant : Nat) (detail : List Nat) (s : State) :
    OnlyEntries eventEntries s (event code tenant detail s) := by
  unfold event
  extract_lets _ _ _ _ _ _ _ listed counted flushed signalled told
  have hbump := @bump_eventEntries
  have hcounted : OnlyEntries eventEntries s counted :=
    OnlyEntries.trans (t := listed) (OnlyEntries.of_same_od rfl) (hbump (by decide) _)
  have hflushed : OnlyEntries eventEntries s flushed := hcounted.maybe (OnlyEntries.of_same_od (congrArg Dict.od (flushLog_dict _)))
  have hsignalled : OnlyEntries eventEntries s signalled :=
    hflushed.maybe ((raiseCause_eventEntries 1 _).trans (emcy_entries _ _ _ _))
  have htold : OnlyEntries eventEntries s told := hsignalled.maybe (OnlyEntries.of_same_od rfl)
  exact (hbump (by decide) s).ite ((hbump (by decide) s).ite (htold.trans (lookAlert_entries _)))

/-! ### What a judgement of the time state may change (R51, R52) -/

/-- The time unit with all that a judgement of its state may change left blank. -/
def unjudged (t : Time) : Time :=
  { t with mode := .free, lockPending := false, farSets := 0, parent := none, stratum := 15, source := none, parentTrims := [],
           lastSample := none, trimmed := 0, holdRounds := 0, allowanceOver := false, boundExceeded := false }

/-- A port's time state after a judgement: the tick of the last change and the samples may differ, and no sample is new. -/
def PortJudged (a b : PortTime) : Prop :=
  b = { a with changedAt := b.changedAt, samples := b.samples } ∧ (b.samples = a.samples ∨ b.samples = [])

theorem PortJudged.refl (a : PortTime) : PortJudged a a := ⟨rfl, .inl rfl⟩

theorem PortJudged.trans {a b c : PortTime} (h : PortJudged a b) (g : PortJudged b c) : PortJudged a c := by
  obtain ⟨hb, hs⟩ := h
  obtain ⟨hc, ht⟩ := g
  refine ⟨?_, ht.elim (fun e => hs.imp e.trans e.trans) .inr⟩
  rw [hc, hb]

/-- From `s` to `t` the time state has been judged: its other registers, the ports' records and all entries but an event's
counters are as they were. -/
structure Judged (s t : State) : Prop where
  time : unjudged t.time = unjudged s.time
  ports : ∀ q : PortN, PortJudged (s.port q).time (t.port q).time
  entries : OnlyEntries eventEntries s t

theorem Judged.refl (s : State) : Judged s s := ⟨rfl, fun _ => PortJudged.refl _, OnlyEntries.refl _ s⟩

theorem Judged.trans {s t u : State} (h : Judged s t) (g : Judged t u) : Judged s u :=
  ⟨g.time.trans h.time, fun q => (h.ports q).trans (g.ports q), h.entries.trans g.entries⟩

/-- A judgement leaves what it may not change. -/
theorem Judged.field {α : Type} {s t : State} (h : Judged s t) (f : Time → α) (hf : ∀ u, f (unjudged u) = f u) :
    f t.time = f s.time := by
  rw [← hf t.time, h.time, hf]

theorem Judged.ite {s a b : State} {c : Prop} [Decidable c] (h : Judged s a) (g : Judged s b) : Judged s (if c then a else b) := by
  split
  · exact h
  · exact g

theorem Judged.maybe {s t u : State} {c : Prop} [Decidable c] (h : Judged s t) (g : Judged t u) :
    Judged s (if c then u else t) := (h.trans g).ite h

/-- A change outside time unit, ports and entries. -/
theorem Judged.of_only {l : List Part} {s t : State} (h : Only l s t) (htime : Part.time ∉ l) (hports : Part.ports ∉ l)
    (hentries : OnlyEntries eventEntries s t) : Judged s t := by
  refine ⟨by rw [h .time htime], fun q => ?_, hentries⟩
  rw [h.port hports q]
  exact PortJudged.refl _

theorem raiseCause_judged (n : Fin 64) (s : State) : Judged s (raiseCause n s) :=
  .of_only (raiseCause_only n s) (by decide) (by decide) (raiseCause_eventEntries n s)

theorem log_judged (code : Nat) (detail : List Nat) (s : State) : Judged s (log code detail s) :=
  .of_only (logEvent_only code detail s) (by decide) (by decide) (event_entries _ _ _ _)

theorem modTime_judged {f : Time → Time} {s : State} (h : unjudged (f s.time) = unjudged s.time) : Judged s (modTime f s) :=
  ⟨h, fun _ => PortJudged.refl _, OnlyEntries.refl _ s⟩

theorem bumpBy_port (index sub n w : Nat) (s : State) (q : PortN) : (bumpBy index sub n w s).port q = s.port q := rfl

theorem modPortTime_port (p : PortN) (f : PortTime → PortTime) (s : State) :
    (modPortTime p f s).port p = { s.port p with time := f (s.port p).time } := port_modPort_same p _ s

theorem modPortTime_port_time (p : PortN) (f : PortTime → PortTime) (s : State) :
    ((modPortTime p f s).port p).time = f (s.port p).time := congrArg Port.time (modPortTime_port p f s)

theorem modPortTime_onlyPort (p : PortN) (f : PortTime → PortTime) (s : State) : OnlyPort p s (modPortTime p f s) :=
  modPort_onlyPort p _ s

theorem modPortTime_judged {p : PortN} {f : PortTime → PortTime} (h : ∀ a, PortJudged a (f a)) (s : State) :
    Judged s (modPortTime p f s) := by
  refine ⟨rfl, fun q => ?_, OnlyEntries.refl _ s⟩
  by_cases hq : q = p
  · subst hq
    rw [modPortTime_port_time]
    exact h _
  · rw [modPortTime_onlyPort p f s q hq]
    exact PortJudged.refl _

theorem forPorts_judged {f : PortN → State → State} (h : ∀ p u, Judged u (f p u)) (s : State) : Judged s (forPorts f s) := by
  unfold forPorts
  induction List.finRange 24 generalizing s with
  | nil => exact Judged.refl s
  | cons p r ih => exact (h p s).trans (ih (f p s))

theorem setMode_judged (m : TimeMode) (s : State) : Judged s (setMode m s) := by
  unfold setMode
  extract_lets _ u _ v
  have hu : Judged s u := modTime_judged (f := fun t => { t with mode := m, lockPending := false, farSets := 0 }) rfl
  have hmark (p : PortN) (w : State) : Judged w (modPortTime p (fun q => { q with changedAt := u.time.ft }) w) := by
    refine modPortTime_judged (fun a => ?_) w
    exact ⟨rfl, .inl rfl⟩
  have hv : Judged s v := hu.maybe (forPorts_judged hmark u)
  exact (Judged.refl s).ite ((hv.trans (log_judged _ _ _)).trans (raiseCause_judged _ _))

theorem takeParent_judged (p : PortN) (s : State) : Judged s (takeParent p s) := by
  unfold takeParent
  exact modTime_judged rfl

theorem freshSamples_judged (p : PortN) (s : State) : Judged s (freshSamples p s) :=
  modPortTime_judged (fun _ => ⟨rfl, .inr rfl⟩) s

theorem enterHoldover_judged (s : State) : Judged s (enterHoldover s) :=
  Judged.trans (modTime_judged rfl) (setMode_judged .holdover _)

theorem judgeState_judged (s : State) : Judged s (judgeState s) := by
  have hstay := Judged.refl s
  have hpend : Judged s (modTime (fun t => { t with lockPending := true }) s) := modTime_judged rfl
  have htake (p : PortN) : Judged s (takeParent p s) := takeParent_judged p s
  have hmode (m : TimeMode) (u : State) (h : Judged s u) : Judged s (setMode m u) := h.trans (setMode_judged m u)
  have hfresh (p : PortN) (u : State) (h : Judged s u) : Judged s (freshSamples p u) := h.trans (freshSamples_judged p u)
  have hacquire (p : PortN) := hfresh p _ (hmode .acquiring _ (htake p))
  unfold judgeState
  extract_lets here
  split
  case h_1 =>
    refine Judged.ite (Judged.ite hpend (Judged.ite (hmode _ _ (modTime_judged rfl)) hstay)) ?_
    cases chooseParent s with
    | some p => exact hmode _ _ (htake p)
    | none => exact hstay
  case h_2 =>
    refine Judged.ite (Judged.ite hpend hstay) (Judged.ite ?_ ?_)
    · cases parentPort s with
      | some p => exact Judged.ite hpend hstay
      | none => exact hstay
    · cases chooseParent s with
      | some p => exact hfresh p _ (Judged.trans (modTime_judged rfl) (takeParent_judged p _))
      | none => exact hmode _ _ (modTime_judged rfl)
  case h_3 =>
    have hfar := Judged.ite (c := 2 ≤ s.time.farSets) (hmode .acquiring _ hstay) hstay
    refine Judged.ite hfar (Judged.ite hfar ?_)
    cases chooseParent s with
    | some p => exact Judged.ite (htake p) (hacquire p)
    | none => exact enterHoldover_judged s
  case h_4 =>
    cases chooseParent s with
    | some p => exact Judged.ite (hmode _ _ (htake p)) (hacquire p)
    | none => exact hstay

end Sys2Proof.Machine
end

section
/-! SUPPORT. How FT moves forward, and the trims, suspect ports and the end of the holdover allowance (R32, R45, R52, R53, R57). -/

namespace Sys2Proof.Machine

open Sys2Proof

/-! ### The time unit after the shared operations -/

@[simp] theorem raiseCause_time (n : Fin 64) (s : State) : (raiseCause n s).time = s.time := raiseCause_only n s .time (by decide)

@[simp] theorem logEvent_time (code : Nat) (detail : List Nat) (s : State) : (log code detail s).time = s.time :=
  logEvent_only code detail s .time (by decide)

theorem forPorts_only {l : List Part} {f : PortN → State → State} (h : ∀ p u, Only l u (f p u)) (s : State) :
    Only l s (forPorts f s) :=
  forPorts_parts f (fun p u g => g.trans (h p u)) (by simp) (Only.refl l s)

/-- The mode is the one asked for; a mode that is new drops a pending entry to LOCKED and the count of far sets. -/
theorem setMode_time (m : TimeMode) (s : State) : (setMode m s).time =
    if s.time.mode = m then s.time else { s.time with mode := m, lockPending := false, farSets := 0 } := by
  have hports (f : PortN → PortTime → PortTime) (u : State) : (forPorts (fun p => modPortTime p (f p)) u).time = u.time :=
    forPorts_only (l := [.ports]) (fun p v => modPortTime_parts p (f p) (List.Subset.refl _) (Only.refl _ v)) u .time (by decide)
  unfold setMode
  dsimp only
  split
  · rfl
  · rw [raiseCause_time, logEvent_time]
    split
    · rw [hports]
      rfl
    · rfl

@[simp] theorem setMode_mode (m : TimeMode) (s : State) : (setMode m s).time.mode = m := by
  rw [setMode_time]
  split
  · assumption
  · rfl

@[simp] theorem setMode_phi (m : TimeMode) (s : State) : (setMode m s).time.phi = s.time.phi := by
  rw [setMode_time]
  split <;> rfl

/-- BOUND_EXCEEDED after it has been judged (R52). -/
def boundAfter (t : Time) : Bool :=
  if t.mode = .locked ∧ 128 < t.phi.natAbs then true else if t.phi.natAbs ≤ 64 then false else t.boundExceeded

theorem judgeBound_time (s : State) : (judgeBound s).time = { s.time with boundExceeded := boundAfter s.time } := by
  unfold judgeBound
  dsimp only
  split
  · next h =>
    obtain ⟨hmode, hfar, -⟩ := h
    have hset : boundAfter s.time = true := if_pos ⟨hmode, hfar⟩
    rw [raiseCause_time, logEvent_time, hset]
    rfl
  · next hnot =>
    split
    · next h =>
      obtain ⟨hnear, -⟩ := h
      have hclear : boundAfter s.time = false := (if_neg (by omega)).trans (if_pos hnear)
      rw [hclear]
      rfl
    · next hset =>
      have hkeep : boundAfter s.time = s.time.boundExceeded := by
        unfold boundAfter
        cases hb : s.time.boundExceeded with
        | false =>
          have hnear : ¬(s.time.mode = .locked ∧ 128 < s.time.phi.natAbs) := fun h => hnot ⟨h.1, h.2, hb⟩
          simp [hnear]
        | true =>
          have hfar : ¬ s.time.phi.natAbs ≤ 64 := fun h => hset ⟨h, hb⟩
          simp [hfar]
      rw [hkeep]

theorem judgeBound_mode (s : State) : (judgeBound s).time.mode = s.time.mode := by rw [judgeBound_time]

theorem judgeBound_phi (s : State) : (judgeBound s).time.phi = s.time.phi := by rw [judgeBound_time]

theorem judgeBound_judged (s : State) : Judged s (judgeBound s) := by
  unfold judgeBound
  refine Judged.ite ?_ (Judged.ite (modTime_judged rfl) (Judged.refl s))
  exact Judged.trans (Judged.trans (modTime_judged rfl) (log_judged _ _ _)) (raiseCause_judged _ _)

/-! ### FT moves forward (R32) -/

/-- The time unit with all that passing trim slots may change left blank. -/
def untrimmed (t : Time) : Time := { t with ft := 0, holdCycle := false, phi := 0, trimmed := 0, trims := [], beatNext := none }

theorem untrimmed_carryTrims (l : List (Nat × Trim)) (t : Time) :
    untrimmed (l.foldl (fun t e => carryTrim e.1 t) t) = untrimmed t := by
  induction l generalizing t with
  | nil => rfl
  | cons e r ih => exact ih (carryTrim e.1 t)

theorem untrimmed_advanceTime (tick : Nat) (t : Time) : untrimmed (advanceTime tick t) = untrimmed t := by
  unfold advanceTime
  split
  · rfl
  · exact untrimmed_carryTrims _ t

@[simp] theorem advanceTime_ft (tick : Nat) (t : Time) : (advanceTime tick t).ft = max t.ft tick := by
  unfold advanceTime
  split
  · next h => exact (Nat.max_eq_left h).symm
  · next h => exact (Nat.max_eq_right (Nat.le_of_not_le h)).symm

/-- What passing trim slots may not change is as it was. -/
theorem advanceTime_field {α : Type} (f : Time → α) (hf : ∀ t, f (untrimmed t) = f t) (tick : Nat) (t : Time) :
    f (advanceTime tick t) = f t := by
  rw [← hf (advanceTime tick t), untrimmed_advanceTime, hf]

@[simp] theorem advanceTime_mode (tick : Nat) (t : Time) : (advanceTime tick t).mode = t.mode :=
  advanceTime_field Time.mode (fun _ => rfl) tick t

/-- Where no trim waits for a slot before `tick`, only FT moves. -/
theorem advanceTime_of_no_trim {tick : Nat} {t : Time} (h : ∀ e ∈ t.trims, tick ≤ e.1) :
    advanceTime tick t = if tick ≤ t.ft then t else { t with ft := tick, holdCycle := false } := by
  have hnone : t.trims.filter (fun e => decide (e.1 < tick)) = [] :=
    List.filter_eq_nil_iff.mpr (fun e he => by simpa using h e he)
  simp only [advanceTime, hnone, List.foldl_nil]

@[simp] theorem advanceTo_time (tick : Nat) (s : State) : (advanceTo tick s).time = advanceTime tick s.time := rfl

theorem le_nextTrimSlot (ft : Nat) : ft ≤ nextTrimSlot ft := by
  unfold nextTrimSlot
  omega

theorem le_ceilTo {m : Nat} (h : 0 < m) (v : Nat) : v ≤ ceilTo m v := by
  unfold ceilTo
  have := Nat.lt_div_mul_add (a := v + m - 1) h
  omega

/-! ### TRIM_DECISION (R45, assumption 9) -/

theorem exec_trimDecision (s : State) : exec .trimDecision s = .next (trimDecision s) := rfl

/-- No trim has been decided for the slot. -/
theorem decided_of_not_any {t : Time} {slot : Nat} (h : t.trims.any (fun e => e.1 == slot) = false) : decided t slot = .none := by
  have hnone : t.trims.find? (fun e => e.1 == slot) = none := by simpa using h
  simp [decided, hnone]

theorem decided_append {t : Time} {slot : Nat} (k : Trim) (h : t.trims.any (fun e => e.1 == slot) = false) :
    decided { t with trims := t.trims ++ [(slot, k)] } slot = k := by
  have hnone : t.trims.find? (fun e => e.1 == slot) = none := by simpa using h
  simp [decided, List.find?_append, hnone]

/-- A trim is listed unless it is no trim. -/
def listTrim (slot : Nat) (k : Trim) (t : Time) : Time := if k = .none then t else { t with trims := t.trims ++ [(slot, k)] }

theorem decided_listTrim {t : Time} {slot : Nat} (k : Trim) (h : t.trims.any (fun e => e.1 == slot) = false) :
    decided (listTrim slot k t) slot = k := by
  unfold listTrim
  split
  · next hk => rw [hk, decided_of_not_any h]
  · exact decided_append k h

theorem listTrim_ft (slot : Nat) (k : Trim) (t : Time) : (listTrim slot k t).ft = t.ft := by
  unfold listTrim
  split <;> rfl

theorem listTrim_mode (slot : Nat) (k : Trim) (t : Time) : (listTrim slot k t).mode = t.mode := by
  unfold listTrim
  split <;> rfl

/-- FT at a trim decision. -/
theorem nextTrimSlot_ft (t : Time) : (advanceTime (nextTrimSlot t.ft) t).ft = nextTrimSlot t.ft :=
  (advanceTime_ft _ t).trans (Nat.max_eq_right (le_nextTrimSlot t.ft))

/-- A slot that has its trim keeps it. -/
theorem trimDecision_of_decided {s : State}
    (h : (advanceTime (nextTrimSlot s.time.ft) s.time).trims.any (fun e => e.1 == nextTrimSlot s.time.ft + 1024) = true) :
    trimDecision s = advanceTo (nextTrimSlot s.time.ft) s := by
  unfold trimDecision
  extract_lets u slot
  have hslot : slot = nextTrimSlot s.time.ft + 1024 := congrArg (· + 1024) (nextTrimSlot_ft s.time)
  rw [hslot]
  exact if_pos h

/-- A slot without a trim takes the one that the prediction asks for; the notices that leave do not change the time unit. -/
theorem trimDecision_time_of_undecided {s : State}
    (h : (advanceTime (nextTrimSlot s.time.ft) s.time).trims.any (fun e => e.1 == nextTrimSlot s.time.ft + 1024) = false) :
    (trimDecision s).time =
      listTrim (nextTrimSlot s.time.ft + 1024)
        (trimFor (advanceTime (nextTrimSlot s.time.ft) s.time) (nextTrimSlot s.time.ft + 1024))
        (advanceTime (nextTrimSlot s.time.ft) s.time) := by
  have hnotices (slot : Nat) (k : Trim) (u : State) :
      (forPorts (fun p s => if role s p = 0 then s else emit (.trimNotice p.val slot (k == .hold)) s) u).time = u.time := by
    refine forPorts_only (l := [.sent]) (fun p v => Only.ite (Only.refl _ v) ?_) u .time (by decide)
    exact emit_parts _ (List.Subset.refl _) (Only.refl _ v)
  unfold trimDecision
  extract_lets u slot
  have hslot : slot = nextTrimSlot s.time.ft + 1024 := congrArg (· + 1024) (nextTrimSlot_ft s.time)
  have hopen : ¬ u.time.trims.any (fun e => e.1 == slot) = true := by
    rw [hslot]
    exact Bool.eq_false_iff.mp h
  rw [if_neg hopen, ← hslot]
  change _ = listTrim slot (trimFor u.time slot) u.time
  cases trimFor u.time slot with
  | none => rfl
  | hold => exact hnotices slot .hold _
  | skip => exact hnotices slot .skip _

/-! ### TRIM_SLOT (R32, R52) -/

theorem exec_trimSlot (s : State) : exec .trimSlot s = .next (trimSlotPass s) := rfl

/-- The time unit after the slot has passed, before BOUND_EXCEEDED is judged. -/
def passSlot (slot : Nat) (t : Time) : Time := { carryTrim slot (advanceTime slot t) with ft := slot + 1, holdCycle := false }

theorem trimSlotPass_time (s : State) : (trimSlotPass s).time =
    { passSlot (nextTrimSlot s.time.ft) s.time with boundExceeded := boundAfter (passSlot (nextTrimSlot s.time.ft) s.time) } :=
  judgeBound_time (modTime (passSlot (nextTrimSlot s.time.ft)) s)

theorem passSlot_mode (slot : Nat) (t : Time) : (passSlot slot t).mode = t.mode := advanceTime_mode slot t

theorem passSlot_boundExceeded (slot : Nat) (t : Time) : (passSlot slot t).boundExceeded = t.boundExceeded :=
  advanceTime_field Time.boundExceeded (fun _ => rfl) slot t

/-- With no trim waiting for an earlier slot, φ moves by the slot's own trim alone. -/
theorem passSlot_phi {slot : Nat} {t : Time} (h : ∀ e ∈ t.trims, slot ≤ e.1) :
    (passSlot slot t).phi = t.phi + trimPhi (decided t slot) := by
  change (advanceTime slot t).phi + trimPhi (decided (advanceTime slot t) slot) = _
  rw [advanceTime_of_no_trim h]
  split <;> rfl

/-! ### SUSPECT_TIMEOUT (R57) and HOLDOVER_ALLOWANCE_END (R53) -/

theorem exec_suspectTimeout (p : PortN) (s : State) : exec (.suspectTimeout p) s = .next (makeSuspect p s) := rfl

theorem exec_holdoverAllowanceEnd (s : State) : exec .holdoverAllowanceEnd s = .next
    (if s.time.mode = .holdover then
      modTime (fun t => { advanceTime (ceilTo t.round t.ft) t with allowanceOver := true }) s else s) := rfl

/-- The port's own change when it becomes suspect. -/
def markSuspect (p : PortN) (s : State) : State :=
  bumpBy (0x4010 + p.val) 4 1 32 (modPortTime p (fun q => { q with suspect := true, clean := 0, samples := [], delay := none }) s)

/-- A port that becomes suspect is marked, and a parent that does has the time state judged again. -/
theorem makeSuspect_judged {p : PortN} {s : State} (h : (s.port p).time.suspect = false) :
    Judged (markSuspect p s) (makeSuspect p s) := by
  have hnot : ¬ (s.port p).time.suspect = true := by simp [h]
  unfold makeSuspect
  rw [if_neg hnot]
  exact Judged.ite (judgeState_judged _) (Judged.refl _)

theorem markSuspect_port_time (p : PortN) (s : State) : ((markSuspect p s).port p).time =
    { (s.port p).time with suspect := true, clean := 0, samples := [], delay := none } :=
  modPortTime_port_time p (fun q => { q with suspect := true, clean := 0, samples := [], delay := none }) s

@[simp] theorem odGet_bumpBy_same (index sub n w : Nat) (s : State) :
    odGet (bumpBy index sub n w s) index sub = min (2 ^ w - 1) (odGet s index sub + n) := odGet_odSet_same _ _ _ s

/-- A counter of a port's time record is no counter of the event log. -/
theorem portRecord_not_eventEntry (p : PortN) (j : Nat) : (0x4010 + p.val, j) ∉ eventEntries := by
  have := p.isLt
  intro h
  simp only [eventEntries, List.mem_cons, Prod.mk.injEq, List.not_mem_nil, or_false] at h
  omega

/-- A port whose delay is not known is no parent (R37). -/
theorem not_eligible_of_no_delay {s : State} {p : PortN} (h : (s.port p).time.delay = none) : eligible s p = false := by
  simp [eligible, h]

/-- Settles O12: each command is one move of FT and one change of the time unit or of the port, which the judgement of the time
state after it leaves. FT moves to the tick of the command by assumption 7; trims are decided by assumption 9. -/
theorem trimsAndNoticesMoveFabricTime : Obligations.TrimsAndNoticesMoveFabricTime := by
  unfold Obligations.TrimsAndNoticesMoveFabricTime
  refine ⟨fun s => ⟨?decision, ?slot⟩, fun s => ⟨fun p => ⟨?already, ?suspect⟩, ?allowance, ?other⟩⟩
  case decision =>
    refine ⟨trimDecision s, exec_trimDecision s, ?_⟩
    cases h : (advanceTime (nextTrimSlot s.time.ft) s.time).trims.any (fun e => e.1 == nextTrimSlot s.time.ft + 1024) with
    | true =>
      rw [trimDecision_of_decided h, advanceTo_time, nextTrimSlot_ft, advanceTime_mode]
      exact ⟨rfl, rfl, fun g => absurd (h.symm.trans g) (by decide), fun _ => ⟨rfl, rfl⟩⟩
    | false =>
      rw [trimDecision_time_of_undecided h, listTrim_ft, listTrim_mode, nextTrimSlot_ft, advanceTime_mode]
      exact ⟨rfl, rfl, fun _ => decided_listTrim _ h, fun g => absurd (h.symm.trans g) (by decide)⟩
  case slot =>
    intro h
    have hphi := passSlot_phi (slot := nextTrimSlot s.time.ft) (t := s.time) (by simpa using h)
    refine ⟨trimSlotPass s, exec_trimSlot s, ?_⟩
    rw [trimSlotPass_time]
    refine ⟨rfl, hphi.trans ?_, ?_⟩
    · cases decided s.time (nextTrimSlot s.time.ft) <;> rfl
    · change boundAfter _ = _
      rw [boundAfter, passSlot_mode, passSlot_boundExceeded]
  case already =>
    intro h
    rw [exec_suspectTimeout, makeSuspect, if_pos h]
  case suspect =>
    intro h
    obtain ⟨-, hports, hentries⟩ := makeSuspect_judged h
    obtain ⟨hrecord, hsamples⟩ := hports p
    rw [markSuspect_port_time] at hrecord hsamples
    have hdelay : ((makeSuspect p s).port p).time.delay = none := by rw [hrecord]
    refine ⟨makeSuspect p s, exec_suspectTimeout p s, ?_, hdelay, ?_, ?_, not_eligible_of_no_delay hdelay⟩
    · rw [hrecord]
    · exact hsamples.elim id id
    · exact (hentries _ _ (by decide) (portRecord_not_eventEntry p 4)).trans (odGet_bumpBy_same _ _ _ _ _)
  case allowance =>
    intro h
    refine ⟨_, (exec_holdoverAllowanceEnd s).trans (congrArg _ (if_pos h)), ?_⟩
    simp [slotsFiring, h]
  case other =>
    intro h
    rw [exec_holdoverAllowanceEnd, if_neg h]

end Sys2Proof.Machine
end

section
/-! SUPPORT. Time sets and trim notices (R38–R40, R44, R54). -/

namespace Sys2Proof.Machine

open Sys2Proof

/-! ### TIME_SET_RECEIVE (R38, R39, R44, assumption 132) -/

theorem exec_timeSetReceive (p : PortN) (x : TimeSet) (arrival : Nat) (damaged : Bool) (s : State) :
    exec (.timeSetReceive p x arrival damaged) s = .next (timeSetReceive p x arrival damaged s) := rfl

theorem timeSetReceive_of_not_decodes {p : PortN} {s : State} (h : decodes s p = false) (x : TimeSet) (arrival : Nat)
    (damaged : Bool) : timeSetReceive p x arrival damaged s = s := by
  simp [timeSetReceive, h]

theorem timeSetReceive_of_bad {p : PortN} {x : TimeSet} {damaged : Bool} {s : State} (h : decodes s p = true)
    (hbad : timeSetGood x damaged = false) (arrival : Nat) :
    timeSetReceive p x arrival damaged s = bumpBy (0x4010 + p.val) 3 1 32 (modPortTime p (fun q => { q with clean := 0 }) s) := by
  simp [timeSetReceive, h, hbad]

/-- The entries that a good set may change after it is counted: its measurements, the lost notices, an event's counters. -/
def setEntries (p : PortN) : List (Nat × Nat) := (0x4010 + p.val, 6) :: (0x4010 + p.val, 7) :: (0x4010 + p.val, 8) :: eventEntries

/-- After a set has been recorded the ports' records stay, and few entries change. -/
structure SetFollowed (p : PortN) (s t : State) : Prop where
  ports : ∀ q : PortN, PortJudged (s.port q).time (t.port q).time
  entries : OnlyEntries (setEntries p) s t

theorem SetFollowed.refl (p : PortN) (s : State) : SetFollowed p s s := ⟨fun _ => PortJudged.refl _, OnlyEntries.refl _ s⟩

theorem SetFollowed.trans {p : PortN} {s t u : State} (h : SetFollowed p s t) (g : SetFollowed p t u) : SetFollowed p s u :=
  ⟨fun q => (h.ports q).trans (g.ports q), h.entries.trans g.entries⟩

theorem SetFollowed.ite {p : PortN} {s a b : State} {c : Prop} [Decidable c] (h : SetFollowed p s a) (g : SetFollowed p s b) :
    SetFollowed p s (if c then a else b) := by
  split
  · exact h
  · exact g

theorem Judged.setFollowed {s t : State} (h : Judged s t) (p : PortN) : SetFollowed p s t :=
  ⟨h.ports, h.entries.mono (fun _ he => by simp [setEntries, he])⟩

theorem modTime_setFollowed (p : PortN) (f : Time → Time) (s : State) : SetFollowed p s (modTime f s) :=
  ⟨fun _ => PortJudged.refl _, OnlyEntries.refl _ s⟩

theorem odSet_setFollowed {p : PortN} {j : Nat} (h : j = 6 ∨ j = 7 ∨ j = 8) (v : Nat) (s : State) :
    SetFollowed p s (odSet (0x4010 + p.val) j v s) := by
  refine ⟨fun _ => PortJudged.refl _, (odSet_entries _ _ v s (by omega)).mono ?_⟩
  rcases h with rfl | rfl | rfl <;> simp [setEntries]

theorem followParent_setFollowed (p : PortN) (x : TimeSet) (arrival d : Int) (s : State) :
    SetFollowed p s (followParent p x arrival d s) := by
  unfold followParent
  extract_lets t _ _ _ _ measured
  have hmeasured : SetFollowed p s measured := by
    cases hsample : t.lastSample with
    | none =>
      simp only [measured, hsample]
      exact SetFollowed.refl p s
    | some e =>
      simp only [measured, hsample]
      refine SetFollowed.trans (SetFollowed.ite ?_ (SetFollowed.refl p s)) (modTime_setFollowed p _ _)
      exact odSet_setFollowed (.inl rfl) _ s
  exact (hmeasured.trans (modTime_setFollowed p _ _)).trans ((judgeBound_judged _).setFollowed p)

/-- What a good set records of its sender, seen by a unit of a round length. -/
structure Records (x : TimeSet) (own : Nat) (q : PortTime) : Prop where
  stratum : q.partnerStratum = x.status.toNat / 16
  state : q.partnerState = x.status.toNat % 8
  source : q.partnerSource = some x.source.toNat
  round : q.partnerRound = 2 ^ x.round.toNat
  mismatch : q.roundMismatch = (2 ^ x.round.toNat != own)

/-- A good set is counted, moves FT to its arrival and is recorded; what follows keeps the record. -/
theorem timeSetReceive_of_good {p : PortN} {x : TimeSet} {damaged : Bool} {s : State} (h : decodes s p = true)
    (hgood : timeSetGood x damaged = true) (arrival : Nat) : ∃ q : PortTime, Records x s.time.round q ∧
      SetFollowed p (modPortTime p (fun _ => q) (advanceTo (arrival / 64) (bumpBy (0x4010 + p.val) 2 1 32 s)))
        (timeSetReceive p x arrival damaged s) := by
  unfold timeSetReceive
  rw [if_neg (by simp [h]), if_neg (by simp [hgood])]
  extract_lets u _ _ _ _ _ _ delay _ _ _ _ isParent _ q recorded measured led followed before judged
  have hround : u.time.round = s.time.round := advanceTime_field Time.round (fun _ => rfl) (arrival / 64) s.time
  have hfollow (d : Int) (v : State) : SetFollowed p v (followParent p x arrival d v) := followParent_setFollowed p x arrival d v
  have hmeasured : SetFollowed p recorded measured :=
    SetFollowed.trans (odSet_setFollowed (.inr (.inr rfl)) _ recorded) (odSet_setFollowed (.inr (.inl rfl)) _ _)
  have hled : SetFollowed p recorded led := hmeasured.trans (modTime_setFollowed p _ measured)
  have hfollowed : SetFollowed p recorded followed := by
    refine SetFollowed.ite ?_ hmeasured
    cases delay with
    | none => exact hled
    | some d => exact hled.trans (hfollow d led)
  have hjudged : SetFollowed p recorded judged := hfollowed.trans ((judgeState_judged followed).setFollowed p)
  refine ⟨q, ⟨rfl, rfl, rfl, rfl, congrArg (2 ^ x.round.toNat != ·) hround⟩, ?_⟩
  cases delay with
  | none => exact hjudged
  | some d => exact SetFollowed.ite (hjudged.trans (hfollow d judged)) hjudged

/-- The count of taken sets is no entry that following a set may change. -/
theorem SetFollowed.odGet_taken {p : PortN} {s t : State} (h : SetFollowed p s t) :
    odGet t (0x4010 + p.val) 2 = odGet s (0x4010 + p.val) 2 := by
  have hother : (0x4010 + p.val, 2) ∉ setEntries p := by
    simpa [setEntries] using portRecord_not_eventEntry p 2
  exact h.entries _ _ (by decide) hother

/-! ### TRIM_NOTICE_RECEIVE (R40, R44, R54, assumption 132) -/

theorem exec_trimNoticeReceive (p : PortN) (low : BitVec 16) (kind comp : BitVec 8) (s : State) :
    exec (.trimNoticeReceive p low kind comp) s = .next (trimNoticeReceive p low kind comp s) := rfl

theorem trimNoticeReceive_of_not_decodes {p : PortN} {s : State} (h : decodes s p = false) (low : BitVec 16)
    (kind comp : BitVec 8) : trimNoticeReceive p low kind comp s = s := by
  simp [trimNoticeReceive, h]

/-- R40: complement, kind and slot are right. -/
def GoodNotice (ft : Nat) (low : BitVec 16) (kind comp : BitVec 8) : Prop :=
  comp = ~~~kind ∧ (kind = 1 ∨ kind = 2) ∧ trimSlot (noticeSlot ft low.toNat) = true ∧
    ft + 256 ≤ noticeSlot ft low.toNat ∧ noticeSlot ft low.toNat ≤ ft + 1088

/-- A notice names a slot that is not behind FT, so its distance is a true difference. -/
theorem le_noticeSlot (ft low : Nat) : ft ≤ noticeSlot ft low := Nat.le_add_right _ _

/-- The check of the model, where the distance of the slot is a difference. -/
theorem noticeCheck_iff (ft : Nat) (low : BitVec 16) (kind comp : BitVec 8) :
    (comp == ~~~kind && (kind == 1 || kind == 2) && trimSlot (noticeSlot ft low.toNat)
      && decide (256 ≤ noticeSlot ft low.toNat - ft) && decide (noticeSlot ft low.toNat - ft ≤ 1088)) = true ↔
      GoodNotice ft low kind comp := by
  have hdist := le_noticeSlot ft low.toNat
  have hnear : 256 ≤ noticeSlot ft low.toNat - ft ↔ ft + 256 ≤ noticeSlot ft low.toNat := by omega
  have hfar : noticeSlot ft low.toNat - ft ≤ 1088 ↔ noticeSlot ft low.toNat ≤ ft + 1088 := by omega
  simp only [GoodNotice, Bool.and_eq_true, Bool.or_eq_true, beq_iff_eq, decide_eq_true_eq, hnear, hfar, and_assoc]

/-- A notice is held for its slot. -/
def holdNotice (slot : Nat) (kind : BitVec 8) (s : State) : State :=
  { s with time := { s.time with parentTrims := s.time.parentTrims ++ [(slot, if kind = 1 then .hold else .skip)] } }

theorem trimNoticeReceive_of_bad {p : PortN} {s : State} {low : BitVec 16} {kind comp : BitVec 8} (h : decodes s p = true)
    (hbad : ¬ GoodNotice s.time.ft low kind comp) : trimNoticeReceive p low kind comp s =
      bump (portIndex p 8) 4 (bumpBy (0x4010 + p.val) 5 1 32 s) := by
  unfold trimNoticeReceive
  extract_lets slot good
  have hgood : good = false := by
    rw [Bool.eq_false_iff]
    exact fun g => hbad ((noticeCheck_iff _ _ _ _).mp g)
  rw [if_neg (by simp [h]), if_pos (by simp [hgood])]

/-- A good notice is held where it comes from the parent, and the time state is judged again. -/
theorem trimNoticeReceive_of_good {p : PortN} {s : State} {low : BitVec 16} {kind comp : BitVec 8} (h : decodes s p = true)
    (hgood : GoodNotice s.time.ft low kind comp) : trimNoticeReceive p low kind comp s =
      if s.time.parent = some p.val then judgeState (holdNotice (noticeSlot s.time.ft low.toNat) kind s) else s := by
  unfold trimNoticeReceive
  extract_lets slot good
  have hcheck : good = true := (noticeCheck_iff _ _ _ _).mpr hgood
  rw [if_neg (by simp [h]), if_neg (by simp [hcheck])]
  rfl

theorem parentPort_eq_some {s : State} {p : PortN} (h : s.time.parent = some p.val) : parentPort s = some p := by
  simp [parentPort, h]

/-- R51: a LOCKED device whose parent is eligible stays as it is until its second far set. -/
theorem judgeState_of_locked {s : State} {p : PortN} (hparent : s.time.parent = some p.val) (hmode : s.time.mode = .locked)
    (heligible : eligible s p = true) (hfar : s.time.farSets < 2) : judgeState s = s := by
  have hnear : ¬ 2 ≤ s.time.farSets := by omega
  simp [judgeState, hmode, parentPort_eq_some hparent, heligible, hnear]

/-- Settles O13: a set that is not taken and a bad one end at once; a good one is recorded, and what follows keeps the record.
A good notice is held, which changes nothing in the judgement of a LOCKED device's eligible parent. Sets and notices are decoded
in EXCHANGE and ACTIVE by assumption 132. -/
theorem timeSetsAndNotices : Obligations.TimeSetsAndNotices := by
  unfold Obligations.TimeSetsAndNotices
  refine fun p s => ⟨fun x arrival damaged => ⟨?closed, ?bad, ?good⟩, fun low kind comp => ⟨?closedNotice, ?badNotice, ?goodNotice⟩⟩
  case closed =>
    intro h
    rw [exec_timeSetReceive, timeSetReceive_of_not_decodes h]
  case bad =>
    intro h hbad
    rw [exec_timeSetReceive, timeSetReceive_of_bad h hbad]
    refine ⟨_, rfl, ⟨fun q hq => ?_, ?_⟩, ?_, odGet_bumpBy_same _ _ _ _ _⟩
    · rw [bumpBy_port, modPortTime_onlyPort p _ s q hq]
    · exact bumpBy_parts _ _ _ _ (by decide) (modPortTime_parts p _ (by decide) (Only.refl _ s))
    · rw [bumpBy_port, modPortTime_port]
  case good =>
    intro h hgood
    obtain ⟨q, ⟨hstratum, hstate, hsource, hround, hmismatch⟩, hfollowed⟩ := timeSetReceive_of_good h hgood arrival
    obtain ⟨hrecord, -⟩ := hfollowed.ports p
    rw [modPortTime_port_time] at hrecord
    refine ⟨_, exec_timeSetReceive .., hfollowed.odGet_taken.trans (odGet_bumpBy_same _ _ _ _ s), ?_⟩
    rw [hrecord]
    exact ⟨hstratum, hstate, hsource, hround, hmismatch⟩
  case closedNotice =>
    intro h
    rw [exec_trimNoticeReceive, trimNoticeReceive_of_not_decodes h]
  case badNotice =>
    intro h hbad
    have hnot : ¬ GoodNotice s.time.ft low kind comp := by
      rintro ⟨hcomp, hkind, hslot, hnear, hfar⟩
      rcases hbad with g | ⟨g1, g2⟩ | g | g | g
      · exact g hcomp
      · exact hkind.elim g1 g2
      · exact absurd (hslot.symm.trans g) (by decide)
      · omega
      · omega
    rw [exec_trimNoticeReceive, trimNoticeReceive_of_bad h hnot]
  case goodNotice =>
    intro h hcomp hkind hslot hnear hfar
    rw [exec_trimNoticeReceive, trimNoticeReceive_of_good h ⟨hcomp, hkind, hslot, hnear, hfar⟩]
    refine ⟨fun hparent => by rw [if_neg hparent], fun hparent hmode heligible hsets => ?_⟩
    rw [if_pos hparent, judgeState_of_locked (p := p) (s := holdNotice _ kind s) hparent hmode heligible hsets]
    rfl

end Sys2Proof.Machine
end

section
/-! SUPPORT. Writes of the fabric-time unit, the round start and `BEATREF` (R51, R52, R54–R56). -/

namespace Sys2Proof.Machine

open Sys2Proof

/-! ### ROUND_LENGTH_WRITE, ROUND_ARM_WRITE and ROUND_CHANGE (R54, R55, assumption 35) -/

theorem exec_roundLengthWrite (src : Route) (v : BitVec 32) (s : State) :
    exec (.roundLengthWrite src v) s = .next (roundLengthWrite src v.toNat s) := rfl

theorem exec_roundArmWrite (src : Route) (v : BitVec 64) (s : State) :
    exec (.roundArmWrite src v) s = .next (roundArmWrite src v.toNat s) := rfl

/-- The armed length is put in force at the armed tick. -/
def changeRound (s : State) : State :=
  odSet 0x4000 5 0 (modTime (fun t => { t with round := t.armedRound }) (advanceTo (odGet s 0x4000 5) s))

theorem exec_roundChange (s : State) :
    exec .roundChange s = .next (if odGet s 0x4000 5 = 0 then s else changeRound s) := rfl

theorem roundLengthWrite_of_armed {s : State} (h : odGet s 0x4000 5 ≠ 0) (src : Route) (v : Nat) :
    roundLengthWrite src v s = refuseRule s := if_pos h

theorem roundLengthWrite_of_open {s : State} (h : odGet s 0x4000 5 = 0) (src : Route) (v : Nat) : roundLengthWrite src v s =
    keepScalar src 0x4000 4 32 v (clampTo 1024 65536 (2 ^ Nat.log2 (max v 1))) (beginOp s) := if_neg (not_not.mpr h)

@[simp] theorem keepScalar_time (src : Route) (i j w v kept : Nat) (s : State) : (keepScalar src i j w v kept s).time = s.time :=
  keepScalar_only src i j w v kept s .time (by decide)

/-- An arm entry is a scalar of 64 bits. -/
theorem keepArm_eq_keepScalar (src : Route) (i j v kept : Nat) (s : State) :
    keepArm src i j v kept s = keepScalar src i j 64 v kept s := rfl

theorem roundArmWrite_eq (src : Route) (v : Nat) (s : State) : roundArmWrite src v s =
    keepScalar src 0x4000 5 64 v (armTick s.time.ft (max s.time.round (odGet s 0x4000 4)) v)
      (modTime (fun t => { t with armedRound := odGet s 0x4000 4 }) (beginOp s)) := rfl

theorem changeRound_time (s : State) : (changeRound s).time =
    { advanceTime (odGet s 0x4000 5) s.time with round := (advanceTime (odGet s 0x4000 5) s.time).armedRound } := rfl

theorem changeRound_entries (s : State) : OnlyEntries [(0x4000, 5)] s (changeRound s) :=
  OnlyEntries.trans (OnlyEntries.of_same_od rfl) (odSet_entries 0x4000 5 0 _ (by decide))

/-! ### TIME_ROLE_WRITE and TIME_SOURCE_WRITE (R51) -/

/-- A role or source is kept for the next round start. -/
def keepForRound (src : Route) (sub v kept : Nat) (s : State) : State :=
  modTime (fun t => { t with rewritten := true }) (keepScalar src 0x4000 sub 8 v kept (beginOp s))

theorem exec_timeRoleWrite (src : Route) (v : BitVec 8) (s : State) :
    exec (.timeRoleWrite src v) s = .next (keepForRound src 1 v.toNat (min v.toNat 2) s) := rfl

theorem exec_timeSourceWrite (src : Route) (v : BitVec 8) (s : State) :
    exec (.timeSourceWrite src v) s = .next (keepForRound src 2 v.toNat (min v.toNat 1) s) := rfl

theorem keepForRound_time (src : Route) (sub v kept : Nat) (s : State) :
    (keepForRound src sub v kept s).time = { s.time with rewritten := true } := by
  unfold keepForRound
  rw [modTime_time, keepScalar_time]
  rfl

theorem odGet_keepForRound (src : Route) {sub : Nat} (h : sub < 256) (v kept : Nat) (s : State) :
    odGet (keepForRound src sub v kept s) 0x4000 sub = kept :=
  odGet_keepScalar src 0x4000 sub 8 v kept (beginOp s) h (by simp)

theorem keepForRound_entries (src : Route) {sub : Nat} (h : sub < 256) (v kept : Nat) (s : State) :
    OnlyEntries [(0x4000, sub), (0x1F00, 3)] s (keepForRound src sub v kept s) :=
  OnlyEntries.of_beginOp (keepScalar_entries src 0x4000 sub 8 v kept (beginOp s) h)

/-! ### ROUND_START (R38, R51–R53) -/

theorem exec_roundStart (s : State) : exec .roundStart s = .next (roundStart s) := rfl

/-- The round's first tick: FT is there, and in HOLDOVER the allowance is counted (R53). -/
def openRound (s : State) : State :=
  let s := advanceTo (nextRoundStart s.time) s
  let s := modTime (fun t => { t with lastRound := some t.ft }) s
  if s.time.mode = .holdover then
    modTime (fun t => { t with
      holdRounds := t.holdRounds + 1,
      allowanceOver := t.allowanceOver || decide (odGet s 0x4000 0x24 ≤ t.holdRounds + 1) }) s
  else s

/-- The written role and source take effect, and the unit starts again (R51). -/
def takeRole (s : State) : State :=
  modTime (fun t => { t with
    rewritten := false, role := odGet s 0x4000 1, sourceSel := odGet s 0x4000 2, parent := none, source := none,
    stratum := 15, lockPending := false, beatSeen := 0, beatNext := none }) s

/-- A lead crier that enters LOCKED names itself as the source. -/
def claimSource (s : State) : State :=
  if leadCrier s.time then
    modTime (fun t => { t with
      stratum := t.sourceSel, source := some (sourceField s).toNat, phi := if t.sourceSel = 0 then 0 else t.phi }) s
  else s

/-- The step of FT on entry to LOCKED from ACQUIRING (R52). -/
def stepOnLock (s : State) : State := if s.time.mode = .acquiring then modTime stepTime s else s

theorem roundStartTime_eq (s : State) : roundStartTime s = forPorts sendTimeSet
    (if (openRound s).time.rewritten then judgeState (setMode .free (takeRole (openRound s)))
      else if (openRound s).time.lockPending then judgeBound (setMode .locked (stepOnLock (claimSource (openRound s))))
      else judgeState (openRound s)) := rfl

theorem forPorts_sendTimeSet_time (s : State) : (forPorts sendTimeSet s).time = s.time :=
  forPorts_only (fun p u => sendTimeSet_parts p (List.Subset.refl _) (Only.refl _ u)) s .time (by decide)

theorem latchShares_time (s : State) : (latchShares s).time = s.time := by
  unfold latchShares
  split <;> rfl

theorem windowRounds_time (l : List (Nat × Win)) (s : State) : (l.foldl (fun s e => windowRound e.1 s) s).time = s.time :=
  Only.foldl (pl := [.cmp, .coll, .dict]) l (fun _ e => windowRound_parts e.1 (List.Subset.refl _)) (Only.refl _ s) .time (by decide)

/-- The shares and the windows of a round start leave the time unit. -/
theorem roundStart_time (s : State) : (roundStart s).time = (roundStartTime s).time :=
  (windowRounds_time _ _).trans (latchShares_time _)

theorem openRound_time (s : State) : ∃ (n : Nat) (ended : Bool), (openRound s).time =
    { advanceTime (nextRoundStart s.time) s.time with
      lastRound := some (max s.time.ft (nextRoundStart s.time)), holdRounds := n, allowanceOver := ended } := by
  rw [← advanceTime_ft]
  unfold openRound
  dsimp only
  split
  · exact ⟨_, _, rfl⟩
  · exact ⟨_, _, rfl⟩

theorem openRound_dict (s : State) : (openRound s).dict = s.dict := by
  unfold openRound
  dsimp only
  split <;> rfl

theorem openRound_rewritten (s : State) : (openRound s).time.rewritten = s.time.rewritten := by
  obtain ⟨n, ended, h⟩ := openRound_time s
  rw [h]
  exact advanceTime_field Time.rewritten (fun _ => rfl) _ _

theorem openRound_lockPending (s : State) : (openRound s).time.lockPending = s.time.lockPending := by
  obtain ⟨n, ended, h⟩ := openRound_time s
  rw [h]
  exact advanceTime_field Time.lockPending (fun _ => rfl) _ _

theorem openRound_mode (s : State) : (openRound s).time.mode = s.time.mode := by
  obtain ⟨n, ended, h⟩ := openRound_time s
  rw [h]
  exact advanceTime_mode _ _

theorem le_nextRoundStart {t : Time} (h : 0 < t.round) : t.ft ≤ nextRoundStart t := by
  have := le_ceilTo h t.ft
  unfold nextRoundStart
  dsimp only
  split <;> omega

theorem openRound_ft {s : State} (h : 0 < s.time.round) : (openRound s).time.ft = nextRoundStart s.time := by
  obtain ⟨n, ended, hopen⟩ := openRound_time s
  rw [hopen]
  exact (advanceTime_ft _ _).trans (Nat.max_eq_right (le_nextRoundStart h))

theorem openRound_lastRound (s : State) : (openRound s).time.lastRound = some (openRound s).time.ft := by
  obtain ⟨n, ended, hopen⟩ := openRound_time s
  rw [hopen]
  exact congrArg some (advanceTime_ft _ _).symm

/-- A round start with a role or source rewritten. -/
theorem roundStart_judged_of_rewritten {s : State} (h : s.time.rewritten = true) :
    ∃ u, Judged (takeRole (openRound s)) u ∧ (roundStart s).time = u.time := by
  refine ⟨_, (setMode_judged .free _).trans (judgeState_judged _), ?_⟩
  rw [roundStart_time, roundStartTime_eq, openRound_rewritten, if_pos h, forPorts_sendTimeSet_time]

/-- A round start with nothing pending. -/
theorem roundStart_judged_of_plain {s : State} (h : s.time.rewritten = false) (hlock : s.time.lockPending = false) :
    ∃ u, Judged (openRound s) u ∧ (roundStart s).time = u.time := by
  refine ⟨_, judgeState_judged _, ?_⟩
  rw [roundStart_time, roundStartTime_eq, openRound_rewritten, openRound_lockPending, if_neg (by simp [h]),
    if_neg (by simp [hlock]), forPorts_sendTimeSet_time]

/-- A round start that enters no LOCKED state is at the round's first tick, and notes it. -/
theorem roundStart_opened {s : State} (h : s.time.rewritten = true ∨ s.time.lockPending = false) :
    (roundStart s).time.ft = (openRound s).time.ft ∧ (roundStart s).time.lastRound = (openRound s).time.lastRound := by
  have hkept (v : State) (u : State) (hu : Judged v u) : u.time.ft = v.time.ft ∧ u.time.lastRound = v.time.lastRound :=
    ⟨hu.field Time.ft (fun _ => rfl), hu.field Time.lastRound (fun _ => rfl)⟩
  cases hr : s.time.rewritten with
  | true =>
    obtain ⟨u, hu, htime⟩ := roundStart_judged_of_rewritten hr
    rw [htime]
    exact hkept (takeRole (openRound s)) u hu
  | false =>
    obtain ⟨u, hu, htime⟩ := roundStart_judged_of_plain hr (h.resolve_left (by simp [hr]))
    rw [htime]
    exact hkept _ u hu

/-- A round start with an entry to LOCKED pending. -/
theorem roundStart_time_of_lock {s : State} (h : s.time.rewritten = false) (hlock : s.time.lockPending = true) :
    (roundStart s).time = (judgeBound (setMode .locked (stepOnLock (claimSource (openRound s))))).time := by
  rw [roundStart_time, roundStartTime_eq, openRound_rewritten, openRound_lockPending, if_neg (by simp [h]), if_pos hlock,
    forPorts_sendTimeSet_time]

theorem claimSource_mode (s : State) : (claimSource s).time.mode = s.time.mode := by
  unfold claimSource
  split <;> rfl

/-- What is left of φ after the step is its rounding (R52). -/
theorem stepTime_phi_le (t : Time) : (stepTime t).phi.natAbs ≤ 32 := by
  change (t.phi - 64 * ((t.phi + 32) / 64)).natAbs ≤ 32
  omega

/-! ### `BEATREF` (R56) -/

theorem exec_beatrefEdge (stamp : Nat) (s : State) : exec (.beatrefEdge stamp) s = .next (beatrefEdge stamp s) := rfl

theorem exec_beatrefMissing (s : State) : exec .beatrefMissing s = .next (if listens s.time then beatMiss s else s) := rfl

theorem beatrefEdge_of_not_listens {s : State} (h : listens s.time = false) (stamp : Nat) : beatrefEdge stamp s = s :=
  if_pos (by simp [h])

/-- A miss before its fault is judged: one bad edge more, and the next edge is expected one round later. -/
def countMiss (s : State) : State :=
  modTime (fun t => { t with
    beatBad := t.beatBad + 1, beatGood := 0, beatNext := t.beatNext.map (fun b => b + 64 * t.round) }) (bumpBy 0x4000 0x25 1 32 s)

/-- The fault and its event. -/
def raiseBeatFault (s : State) : State :=
  let u := modTime (fun t => { t with beatFault := true }) s
  raiseCause 5 (log 0x4002 [twos 32 u.time.phi, timeStatus u] u)

theorem beatMiss_eq (s : State) : beatMiss s =
    if 2 ≤ s.time.beatBad + 1 ∧ s.time.beatFault = false then raiseBeatFault (countMiss s) else countMiss s := rfl

theorem raiseBeatFault_time (s : State) : (raiseBeatFault s).time = { s.time with beatFault := true } := by
  rw [raiseBeatFault, raiseCause_time, logEvent_time]
  rfl

theorem raiseBeatFault_entries (s : State) : OnlyEntries eventEntries s (raiseBeatFault s) := by
  unfold raiseBeatFault
  extract_lets u
  have hu : OnlyEntries eventEntries s u := OnlyEntries.of_same_od rfl
  exact hu.trans ((log_judged _ _ u).trans (raiseCause_judged 5 _)).entries

/-- The second bad edge in a row sets the fault. -/
theorem beatMiss_time (s : State) : (beatMiss s).time =
    { (countMiss s).time with beatFault := s.time.beatFault || decide (1 ≤ s.time.beatBad) } := by
  rw [beatMiss_eq]
  split
  · next h =>
    obtain ⟨hbad, -⟩ := h
    have hset : (s.time.beatFault || decide (1 ≤ s.time.beatBad)) = true := by simp [Nat.le_of_succ_le_succ hbad]
    rw [raiseBeatFault_time, hset]
  · next h =>
    have hkeep : (s.time.beatFault || decide (1 ≤ s.time.beatBad)) = s.time.beatFault := by
      cases hf : s.time.beatFault with
      | true => rfl
      | false =>
        have hfirst : ¬ 1 ≤ s.time.beatBad := fun g => h ⟨Nat.succ_le_succ g, hf⟩
        simp [hfirst]
    rw [hkeep]
    rfl

theorem odGet_beatMiss (s : State) : odGet (beatMiss s) 0x4000 0x25 = min (2 ^ 32 - 1) (odGet s 0x4000 0x25 + 1) := by
  have hcount : odGet (countMiss s) 0x4000 0x25 = min (2 ^ 32 - 1) (odGet s 0x4000 0x25 + 1) := odGet_bumpBy_same _ _ _ _ s
  rw [← hcount, beatMiss_eq]
  split
  · exact raiseBeatFault_entries _ _ _ (by decide) (by decide)
  · rfl

/-- FT moves to an edge and leaves what was expected of it, where no trim waits. -/
theorem advanceTime_beatNext {tick : Nat} {t : Time} (h : t.trims = []) : (advanceTime tick t).beatNext = t.beatNext := by
  rw [advanceTime_of_no_trim (by simp [h])]
  split <;> rfl

/-- An edge more than 4 ticks off is ignored like one that is missing. -/
theorem beatrefEdge_of_far {s : State} {stamp : Nat} {b : Int} (h : listens s.time = true) (htrims : s.time.trims = [])
    (hb : s.time.beatNext = some b) (hfar : 256 < ((stamp : Int) - b).natAbs) :
    beatrefEdge stamp s = beatMiss (advanceTo (stamp / 64) s) := by
  have hnext : (advanceTo (stamp / 64) s).time.beatNext = some b := (advanceTime_beatNext htrims).trans hb
  unfold beatrefEdge
  rw [if_neg (by simp [h])]
  dsimp only
  rw [hnext]
  exact if_pos hfar

/-- An edge within 4 ticks: the run of bad ones ends, and the sixteenth good one clears the fault. -/
structure GoodEdge (stamp : Nat) (t u : Time) : Prop where
  bad : u.beatBad = 0
  good : u.beatGood = t.beatGood + 1
  fault : u.beatFault = (t.beatFault && decide (t.beatGood < 15))
  next : u.beatNext = some ((stamp : Int) + 64 * t.round)

theorem beatrefEdge_of_near {s : State} {stamp : Nat} {b : Int} (h : listens s.time = true) (htrims : s.time.trims = [])
    (hb : s.time.beatNext = some b) (hnear : ((stamp : Int) - b).natAbs ≤ 256) :
    ∃ u, GoodEdge stamp s.time u.time ∧ Judged u (beatrefEdge stamp s) := by
  have hnext : (advanceTo (stamp / 64) s).time.beatNext = some b := (advanceTime_beatNext htrims).trans hb
  have hgood : (advanceTo (stamp / 64) s).time.beatGood = s.time.beatGood := advanceTime_field Time.beatGood (fun _ => rfl) _ _
  have hfault : (advanceTo (stamp / 64) s).time.beatFault = s.time.beatFault := advanceTime_field Time.beatFault (fun _ => rfl) _ _
  have hround : (advanceTo (stamp / 64) s).time.round = s.time.round := advanceTime_field Time.round (fun _ => rfl) _ _
  unfold beatrefEdge
  rw [if_neg (by simp [h])]
  extract_lets u off r _ _ good
  have hoff : off = stamp - b := by
    simp only [off, u, hnext]
  have hnot : ¬ 256 < off.natAbs := by omega
  rw [if_neg hnot]
  refine ⟨_, ⟨rfl, congrArg (· + 1) hgood, ?_, ?_⟩, (judgeBound_judged _).trans (judgeState_judged _)⟩
  · change (u.time.beatFault && decide (u.time.beatGood + 1 < 16)) = _
    rw [hfault, hgood]
    simp only [Nat.add_lt_iff_lt_sub_right, Nat.reduceSub]
  · change some ((stamp : Int) + 64 * u.time.round) = _
    rw [hround]

/-- Settles O14: a write is one entry kept under its clamp; a round start takes what was written, enters LOCKED or judges the
time state at its first tick; an edge or its absence is one change of the `BEATREF` registers, which the judgement after it leaves.
FT moves to the tick of the command by assumption 7; an arm tick that rounds past 64 bits is kept as 0 by assumption 35. -/
theorem roundsRolesAndBeatref : Obligations.RoundsRolesAndBeatref := by
  unfold Obligations.RoundsRolesAndBeatref
  refine ⟨fun src s => ⟨fun v => ⟨?armed, ?length⟩, fun v => ?arm, ?idle, ?change, fun v => ⟨?role, ?source⟩⟩,
    fun s => ⟨?rewritten, ?lock, ?start, ?deaf, ?missing, ?edge⟩⟩
  case armed =>
    intro h
    rw [exec_roundLengthWrite, roundLengthWrite_of_armed h]
  case length =>
    intro h
    rw [exec_roundLengthWrite, roundLengthWrite_of_open h]
    exact ⟨_, rfl, odGet_keepScalar _ _ _ _ _ _ _ (by decide) (by decide),
      OnlyEntries.of_beginOp (keepScalar_entries _ _ _ _ _ _ _ (by decide))⟩
  case arm =>
    rw [exec_roundArmWrite, roundArmWrite_eq]
    refine ⟨_, rfl, ?_, odGet_keepScalar _ _ _ _ _ _ _ (by decide) (by decide), ?_, ?_⟩
    · rw [keepScalar_time]
      rfl
    · rw [keepScalar_time]
      rfl
    · refine OnlyEntries.trans ?_ (keepScalar_entries _ _ _ _ _ _ _ (by decide))
      exact OnlyEntries.of_same_od rfl
  case idle =>
    intro h
    rw [exec_roundChange, if_pos h]
  case change =>
    intro h
    rw [exec_roundChange, if_neg h]
    refine ⟨changeRound s, rfl, ?_, ?_, odGet_odSet_same _ _ _ _, changeRound_entries s⟩
    · exact advanceTime_field Time.armedRound (fun _ => rfl) _ _
    · exact advanceTime_ft _ _
  case role =>
    refine ⟨keepForRound src 1 v.toNat (min v.toNat 2) s, exec_timeRoleWrite src v s, ?_⟩
    exact ⟨odGet_keepForRound src (by decide) _ _ s, keepForRound_time .., keepForRound_entries src (by decide) _ _ s⟩
  case source =>
    refine ⟨keepForRound src 2 v.toNat (min v.toNat 1) s, exec_timeSourceWrite src v s, ?_⟩
    exact ⟨odGet_keepForRound src (by decide) _ _ s, keepForRound_time .., keepForRound_entries src (by decide) _ _ s⟩
  case rewritten =>
    intro h
    obtain ⟨u, hu, htime⟩ := roundStart_judged_of_rewritten h
    have hentry (j : Nat) : odGet (openRound s) 0x4000 j = odGet s 0x4000 j := odGet_congr (congrArg Dict.od (openRound_dict s)) _ _
    refine ⟨roundStart s, exec_roundStart s, ?_⟩
    rw [htime, ← hentry, ← hentry]
    exact ⟨hu.field Time.role (fun _ => rfl), hu.field Time.sourceSel (fun _ => rfl), hu.field Time.rewritten (fun _ => rfl)⟩
  case lock =>
    intro h hlock
    refine ⟨roundStart s, exec_roundStart s, ?_⟩
    rw [roundStart_time_of_lock h hlock, judgeBound_mode, judgeBound_phi, setMode_phi]
    refine ⟨setMode_mode _ _, fun hmode => ?_⟩
    have hacquiring : (claimSource (openRound s)).time.mode = .acquiring := by
      rw [claimSource_mode, openRound_mode, hmode]
    rw [stepOnLock, if_pos hacquiring, modTime_time]
    exact stepTime_phi_le _
  case start =>
    intro h hround
    refine ⟨roundStart s, exec_roundStart s, ?_⟩
    obtain ⟨hft, hlast⟩ := roundStart_opened h
    exact ⟨hft.trans (openRound_ft hround), hlast.trans ((openRound_lastRound s).trans (congrArg some hft.symm))⟩
  case deaf =>
    intro h
    refine ⟨?_, fun stamp => ?_⟩
    · rw [exec_beatrefMissing, if_neg (by simp [h])]
    · rw [exec_beatrefEdge, beatrefEdge_of_not_listens h]
  case missing =>
    intro h
    rw [exec_beatrefMissing, if_pos h]
    refine ⟨_, rfl, ?_⟩
    rw [beatMiss_time]
    exact ⟨rfl, rfl, rfl, odGet_beatMiss s⟩
  case edge =>
    intro h htrims stamp b hb
    refine ⟨_, exec_beatrefEdge stamp s, fun hfar => ?_, fun hnear => ?_⟩
    · have hbad : (advanceTo (stamp / 64) s).time.beatBad = s.time.beatBad := advanceTime_field Time.beatBad (fun _ => rfl) _ _
      have hfault : (advanceTo (stamp / 64) s).time.beatFault = s.time.beatFault :=
        advanceTime_field Time.beatFault (fun _ => rfl) _ _
      rw [beatrefEdge_of_far h htrims hb hfar, beatMiss_time, hbad, hfault]
      exact ⟨congrArg (· + 1) hbad, rfl, rfl, odGet_beatMiss _⟩
    · obtain ⟨u, ⟨hbad, hgood, hfault, hnext⟩, hu⟩ := beatrefEdge_of_near h htrims hb hnear
      rw [← hbad, ← hgood, ← hfault, ← hnext]
      exact ⟨hu.field Time.beatBad (fun _ => rfl), hu.field Time.beatGood (fun _ => rfl), hu.field Time.beatFault (fun _ => rfl),
        hu.field Time.beatNext (fun _ => rfl)⟩

end Sys2Proof.Machine
end

section
/-! SUPPORT. Frames of one port, what every port keeps, lanes and masks of lanes, and the changes of a training state (R71, R80, R87). -/

namespace Sys2Proof.Machine

open Sys2Proof

/-! ### Frames of one port -/

theorem AtPort.trans {p : PortN} {l : List Part} {s t u : State} (h : AtPort p l s t) (g : AtPort p l t u) : AtPort p l s u :=
  ⟨h.1.trans g.1, h.2.trans g.2⟩

theorem AtPort.mono {p : PortN} {l m : List Part} {s t : State} (h : AtPort p l s t) (g : ∀ x ∈ l, x ∈ m) : AtPort p m s t :=
  ⟨h.1, h.2.mono (by simpa using fun x hx => Or.inr (g x hx))⟩

theorem AtPort.refl (p : PortN) (l : List Part) (s : State) : AtPort p l s s := ⟨fun _ _ => rfl, Only.refl _ s⟩

theorem Only.atPort {p : PortN} {l : List Part} {s t : State} (h : Only l s t) (g : Part.ports ∉ l) : AtPort p l s t :=
  ⟨h.onlyPort g p, h.mono (by simp +contextual)⟩

theorem modPort_atPort (p : PortN) (f : Port → Port) (s : State) : AtPort p [] s (modPort p f s) :=
  ⟨modPort_onlyPort p f s, modPort_parts p f (List.Subset.refl _) (Only.refl _ s)⟩

@[simp] theorem modPort_id (p : PortN) (s : State) : modPort p id s = s := by
  simp [modPort]

/-! ### Lanes -/

theorem mapLanes_lane (f : Nat → Lane → Lane) (q : Port) (l : LaneN) : (mapLanes f q).lanes[l] = f l.val q.lanes[l] := by
  simp [mapLanes]

/-- The bits of a mask over a list, lowest first. -/
theorem testBit_foldr_flag {α : Type} (f : α → Bool) (l : List α) (i : Nat) :
    (l.foldr (fun a n => flag (f a) 0 + 2 * n) 0).testBit i = (l[i]?.map f).getD false := by
  induction l generalizing i with
  | nil => simp
  | cons a r ih =>
    have hhalf (n : Nat) : (flag (f a) 0 + 2 * n) / 2 = n := by
      unfold flag
      split <;> omega
    cases i with
    | zero => cases h : f a <;> simp [flag, h, Nat.add_mod]
    | succ i => simp [Nat.testBit_succ, hhalf, ih]

theorem testBit_laneMask (q : Port) (f : Lane → Bool) (i : Nat) : (laneMask q f).testBit i = (q.lanes[i]?.map f).getD false := by
  unfold laneMask
  rw [testBit_foldr_flag, Vector.getElem?_toList]

theorem bit_laneMask (q : Port) (f : Lane → Bool) (l : LaneN) : bit (laneMask q f) l.val = f q.lanes[l] := by
  simp [bit, testBit_laneMask]

theorem laneMask_and (q : Port) (f g : Lane → Bool) : laneMask q f &&& laneMask q g = laneMask q (fun l => f l && g l) := by
  refine Nat.eq_of_testBit_eq fun i => ?_
  rw [Nat.testBit_and, testBit_laneMask, testBit_laneMask, testBit_laneMask]
  cases q.lanes[i]? <;> rfl

/-- A mask of lanes depends on what it asks of each lane only. -/
theorem laneMask_congr {a b : Port} {f g : Lane → Bool} (h : ∀ l : LaneN, f a.lanes[l] = g b.lanes[l]) : laneMask a f = laneMask b g := by
  refine Nat.eq_of_testBit_eq fun i => ?_
  rw [testBit_laneMask, testBit_laneMask]
  by_cases hi : i < 8
  · simpa [hi] using h ⟨i, hi⟩
  · simp [hi]

/-! ### What every port keeps -/

/-- From `s` to `t` every port keeps what `f` reads of it. -/
def PortsSame {α : Type} (f : Port → α) (s t : State) : Prop := ∀ q : PortN, f (t.port q) = f (s.port q)

section
variable {α : Type} {f : Port → α} {s t u : State}

theorem PortsSame.refl (f : Port → α) (s : State) : PortsSame f s s := fun _ => rfl

theorem PortsSame.trans (h : PortsSame f s t) (g : PortsSame f t u) : PortsSame f s u := fun q => (g q).trans (h q)

theorem PortsSame.ite {c : Prop} [Decidable c] (h : PortsSame f s t) (g : PortsSame f s u) : PortsSame f s (if c then t else u) := by
  split
  · exact h
  · exact g

/-- A change that may follow another. -/
theorem PortsSame.maybe {c : Prop} [Decidable c] (h : PortsSame f s t) (g : PortsSame f t u) : PortsSame f s (if c then u else t) :=
  (h.trans g).ite h

theorem PortsSame.of_only {l : List Part} (h : Only l s t) (g : Part.ports ∉ l) : PortsSame f s t :=
  fun q => congrArg f (h.port g q)

theorem PortsSame.foldl {β : Type} {step : State → β → State} (l : List β) (h : ∀ u x, PortsSame f u (step u x)) (s : State) :
    PortsSame f s (l.foldl step s) := by
  induction l generalizing s with
  | nil => exact PortsSame.refl f s
  | cons x r ih => exact (h s x).trans (ih (step s x))

end

/-- A field that is not among those left blank is kept. -/
theorem PortsSame.field {β : Type} {f : Port → Port} {s t : State} (h : PortsSame f s t) (g : Port → β) (hg : ∀ a, g (f a) = g a) :
    PortsSame g s t := by
  intro q
  rw [← hg, h q, hg]

theorem modPort_portsSame {α : Type} {f : Port → α} {p : PortN} {g : Port → Port} (h : ∀ a, f (g a) = f a) (s : State) :
    PortsSame f s (modPort p g s) := by
  intro q
  by_cases hq : q = p
  · subst hq
    rw [port_modPort_same, h]
  · rw [port_modPort_ne p q g s hq]

@[simp] theorem raiseCause_port (n : Fin 64) (s : State) (q : PortN) : (raiseCause n s).port q = s.port q :=
  (raiseCause_only n s).port (by decide) q

@[simp] theorem log_port (code : Nat) (detail : List Nat) (s : State) (q : PortN) : (log code detail s).port q = s.port q :=
  (logEvent_only code detail s).port (by decide) q

theorem raiseCause_portsSame {α : Type} (f : Port → α) (n : Fin 64) (s : State) : PortsSame f s (raiseCause n s) :=
  .of_only (raiseCause_only n s) (by decide)

theorem log_portsSame {α : Type} (f : Port → α) (code : Nat) (detail : List Nat) (s : State) : PortsSame f s (log code detail s) :=
  .of_only (logEvent_only code detail s) (by decide)

/-! ### State changes (R71) -/

/-- A port with all that a change of its training state may change left blank. -/
def untrained (q : Port) : Port :=
  { q with train := .disabled, version := 0, width := .none, versionFail := false, ready := false, readySeen := false, sameSets := 0,
           lastSet := none, seenReset := false, holding := false, lanes := Vector.replicate 8 {} }

theorem leaveActive_portsSame (p : PortN) (s : State) : PortsSame untrained s (leaveActive p s) := by
  unfold leaveActive
  refine PortsSame.ite (PortsSame.trans (modPort_portsSame ?_ s) (raiseCause_portsSame _ 6 _)) (.refl _ s)
  exact fun _ => rfl

theorem toState_portsSame (t : Train) (p : PortN) (s : State) : PortsSame untrained s (toState t p s) :=
  (leaveActive_portsSame p s).trans (modPort_portsSame (by exact fun _ => rfl) _)

@[simp] theorem sendTraining_port (p q : PortN) (s : State) : (sendTraining p s).port q = s.port q := rfl

theorem sendTraining_atPort (p : PortN) (s : State) : AtPort p [.sent] s (sendTraining p s) :=
  Only.atPort (sendTraining_parts p (List.Subset.refl _) (Only.refl _ s)) (by decide)

theorem sendTraining_portsSame {α : Type} (f : Port → α) (p : PortN) (s : State) : PortsSame f s (sendTraining p s) := fun _ => rfl

theorem toDetect_portsSame (p : PortN) (s : State) : PortsSame untrained s (toDetect p s) :=
  ((toState_portsSame .detect p s).trans (modPort_portsSame (by exact fun _ => rfl) _)).trans (sendTraining_portsSame _ p _)

theorem toLock_portsSame (clear : Bool) (p : PortN) (s : State) : PortsSame untrained s (toLock clear p s) :=
  ((toState_portsSame .lock p s).trans (modPort_portsSame (by exact fun _ => rfl) _)).trans (sendTraining_portsSame _ p _)

theorem toLock_onlyPort (clear : Bool) (p : PortN) (s : State) : OnlyPort p s (toLock clear p s) :=
  ((toState_onlyPort .lock p s).trans (modPort_onlyPort p _ _)).trans (sendTraining_atPort p _).1

@[simp] theorem toDetect_train (p : PortN) (s : State) : ((toDetect p s).port p).train = .detect := by
  simp [toDetect, mapLanes, toState_train]

@[simp] theorem toDetect_version (p : PortN) (s : State) : ((toDetect p s).port p).version = 0 := by
  simp [toDetect, mapLanes]

@[simp] theorem toLock_train (clear : Bool) (p : PortN) (s : State) : ((toLock clear p s).port p).train = .lock := by
  simp [toLock, mapLanes, toState_train]

/-- A lane that is no longer in use. -/
def idleLane (l : Lane) : Lane := { l with inUse := false }

/-- What leaving ACTIVE does to a port (R87). -/
def idlePort (q : Port) : Port := mapLanes (fun _ => idleLane) { q with holding := true, width := .none }

theorem leaveActive_of_active {p : PortN} {s : State} (h : (s.port p).train = .active) :
    leaveActive p s = raiseCause 6 (modPort p idlePort s) := if_pos h

theorem leaveActive_of_not_active {p : PortN} {s : State} (h : (s.port p).train ≠ .active) : leaveActive p s = s := if_neg h

theorem leaveActive_lane (p : PortN) (s : State) (l : LaneN) : ((leaveActive p s).port p).lanes[l] =
    if (s.port p).train = .active then idleLane (s.port p).lanes[l] else (s.port p).lanes[l] := by
  by_cases h : (s.port p).train = .active
  · rw [leaveActive_of_active h, if_pos h, raiseCause_port, port_modPort_same, idlePort, mapLanes_lane]
  · rw [leaveActive_of_not_active h, if_neg h]

/-- No lane of a port that leaves ACTIVE stays in use. -/
theorem toState_lane (t : Train) (p : PortN) (s : State) (l : LaneN) : ((toState t p s).port p).lanes[l] =
    if (s.port p).train = .active then idleLane (s.port p).lanes[l] else (s.port p).lanes[l] := by
  rw [← leaveActive_lane, toState, port_modPort_same]

theorem toExchange_lane (p : PortN) (s : State) (l : LaneN) : ((toExchange p s).port p).lanes[l] =
    if (s.port p).train = .active then idleLane (s.port p).lanes[l] else (s.port p).lanes[l] := toState_lane .exchange p s l

/-- A lane that loses its alignment is not in use either. -/
theorem freshLane_toState (t : Train) (p : PortN) (s : State) (l : LaneN) :
    freshLane ((toState t p s).port p).lanes[l] = freshLane (s.port p).lanes[l] := by
  rw [toState_lane]
  split <;> rfl

theorem toDetect_lane (p : PortN) (s : State) (l : LaneN) :
    ((toDetect p s).port p).lanes[l] = clearMark (freshLane (s.port p).lanes[l]) := by
  rw [toDetect, sendTraining_port, port_modPort_same, mapLanes_lane, freshLane_toState .detect p s]

theorem toLock_lane (clear : Bool) (p : PortN) (s : State) (l : LaneN) : ((toLock clear p s).port p).lanes[l] =
    if clear then clearMark (freshLane (s.port p).lanes[l]) else freshLane (s.port p).lanes[l] := by
  rw [toLock, sendTraining_port, port_modPort_same, mapLanes_lane, freshLane_toState]

/-- A port that is not in ACTIVE changes its state with no cause raised. -/
theorem toState_atPort {t : Train} {p : PortN} {s : State} (h : (s.port p).train ≠ .active) : AtPort p [] s (toState t p s) := by
  rw [toState, leaveActive_of_not_active h]
  exact modPort_atPort p _ s

theorem toDetect_atPort {p : PortN} {s : State} (h : (s.port p).train ≠ .active) : AtPort p [.sent] s (toDetect p s) :=
  (((toState_atPort h).trans (modPort_atPort p _ _)).mono (by simp)).trans (sendTraining_atPort p _)

theorem toLock_atPort {clear : Bool} {p : PortN} {s : State} (h : (s.port p).train ≠ .active) :
    AtPort p [.sent] s (toLock clear p s) :=
  (((toState_atPort h).trans (modPort_atPort p _ _)).mono (by simp)).trans (sendTraining_atPort p _)

end Sys2Proof.Machine
end

section
/-! SUPPORT. Training: the timeouts (R71) and the exits of LOCK, SLIP, FEC_ALIGN and DESKEW (R71, R73, R74). -/

namespace Sys2Proof.Machine

open Sys2Proof

/-! ### Timeouts (R71) -/

theorem exec_exchangeTimeout (p : PortN) (s : State) : exec (.exchangeTimeout p) s =
    .next (if (s.port p).versionFail then s else stateTimeout .exchange p s) := rfl

/-- The timeout `c` of the state `x`: in that state it leads to DETECT with the marks cleared, in any other it does nothing. -/
def TimesOut (p : PortN) (s : State) (c : Instr) (x : Train) : Prop :=
  ((s.port p).train ≠ x → exec c s = .next s) ∧
    ((s.port p).train = x → (x = .exchange → (s.port p).versionFail = false) →
      ∃ t : State, exec c s = .next t ∧ (t.port p).train = .detect ∧ (t.port p).version = 0 ∧
        (∀ l : LaneN, (t.port p).lanes[l].failed = false ∧ (t.port p).lanes[l].done = false ∧ (t.port p).lanes[l].inUse = false) ∧
        (x = .slip → (t.port p).slipTimeout = true) ∧ AtPort p [.sent] s t)

/-- A timeout that leads to DETECT after a change of its own port. -/
theorem timesOut_of_toDetect {p : PortN} {s : State} {c : Instr} {x : Train} (f : Port → Port) (hx : x ≠ .active)
    (hf : (f (s.port p)).train = (s.port p).train) (hslip : x = .slip → (f (s.port p)).slipTimeout = true)
    (hstay : (s.port p).train ≠ x → exec c s = .next s)
    (hexec : (s.port p).train = x → (x = .exchange → (s.port p).versionFail = false) →
      exec c s = .next (toDetect p (modPort p f s))) : TimesOut p s c x := by
  refine ⟨hstay, fun h hv => ⟨_, hexec h hv, toDetect_train _ _, toDetect_version _ _, fun l => ?_, fun hs => ?_, ?_⟩⟩
  · rw [toDetect_lane]
    exact ⟨rfl, rfl, rfl⟩
  · have hkept := (toDetect_portsSame p (modPort p f s)).field Port.slipTimeout (fun _ => rfl) p
    rw [hkept, port_modPort_same]
    exact hslip hs
  · have htrain : ((modPort p f s).port p).train ≠ .active := by
      rw [port_modPort_same, hf, h]
      exact hx
    exact ((modPort_atPort p f s).mono (by simp)).trans (toDetect_atPort htrain)

/-- Settles O7: each timeout is `toDetect` of its own state, SLIP_TIMEOUT after setting its flag. -/
theorem trainingTimeoutsReturnToDetect : Obligations.TrainingTimeoutsReturnToDetect := by
  unfold Obligations.TrainingTimeoutsReturnToDetect
  intro p s
  have plain {c : Instr} {x : Train} (hx : x ≠ .active) (hs : x ≠ .slip) (hexec : exec c s = .next (stateTimeout x p s)) :
      TimesOut p s c x := by
    refine timesOut_of_toDetect id hx rfl (fun h => absurd h hs) (fun h => ?_) (fun h _ => ?_)
    · rw [hexec, stateTimeout, if_neg h]
    · rw [hexec, stateTimeout, if_pos h, modPort_id]
  have hslip : TimesOut p s (.slipTimeout p) .slip := by
    refine timesOut_of_toDetect (fun q => { q with slipTimeout := true }) (by decide) rfl (fun _ => rfl) (fun h => ?_) (fun h _ => ?_)
    · exact congrArg _ (if_neg h)
    · exact congrArg _ (if_pos h)
  have hexchange : TimesOut p s (.exchangeTimeout p) .exchange := by
    refine timesOut_of_toDetect id (by decide) rfl (by simp) (fun h => ?_) (fun h hv => ?_)
    · rw [exec_exchangeTimeout, stateTimeout, if_neg h, ite_self]
    · rw [exec_exchangeTimeout, stateTimeout, if_pos h, if_neg (by simp [hv]), modPort_id]
  refine ⟨?_, fun h => ?_⟩
  · change ∀ x ∈ (_ : List (Instr × Train)), TimesOut p s x.1 x.2
    simp only [List.forall_mem_cons]
    exact ⟨plain (by decide) (by decide) rfl, hslip, plain (by decide) (by decide) rfl, plain (by decide) (by decide) rfl, hexchange,
      by simp⟩
  · rw [exec_exchangeTimeout, if_pos h]

/-! ### Going on with the lanes that are good (R71, R73, R74) -/

theorem advance_of_half {p : PortN} {m cause : Nat} {next : State → State} {s : State}
    (h : halfIn (m &&& unfailed (s.port p)) = true) :
    advance p m cause next s = next (modPort p (mapLanes (markOutside (m &&& unfailed (s.port p)) cause)) s) := if_pos h

theorem advance_of_no_half {p : PortN} {m cause : Nat} {next : State → State} {s : State}
    (h : halfIn (m &&& unfailed (s.port p)) = false) :
    advance p m cause next s = modPort p (mapLanes (markOutside (m &&& unfailed (s.port p)) cause)) s := if_neg (by simp [h])

/-- The marks after `advance`: a lane that has failed stays failed, and one outside the mask fails. -/
theorem markOutside_failed (q : Port) (m cause : Nat) (l : LaneN) :
    (mapLanes (markOutside (m &&& unfailed q) cause) q).lanes[l].failed = (q.lanes[l].failed || !bit m l.val) := by
  have hgood : bit (m &&& unfailed q) l.val = (bit m l.val && !q.lanes[l].failed) := by
    rw [← bit_laneMask q (fun l => !l.failed) l]
    exact Nat.testBit_and _ _ _
  rw [mapLanes_lane, markOutside, hgood]
  generalize q.lanes[l] = x
  cases hf : x.failed <;> cases bit m l.val <;> simp [hf]

/-- A step out of a training state that takes no lane's mark away. -/
structure GoesOn (p : PortN) (dest : Train) (next : State → State) : Prop where
  train : ∀ u, ((next u).port p).train = dest
  failed : ∀ u (l : LaneN), ((next u).port p).lanes[l].failed = (u.port p).lanes[l].failed
  onlyPort : ∀ u, OnlyPort p u (next u)

theorem idleLane_failed (l : Lane) : (idleLane l).failed = l.failed := rfl

theorem toState_failed (t : Train) (p : PortN) (s : State) (l : LaneN) :
    ((toState t p s).port p).lanes[l].failed = (s.port p).lanes[l].failed := by
  rw [toState_lane]
  split
  · exact idleLane_failed _
  · rfl

theorem sendTraining_goesOn {p : PortN} {dest : Train} {next : State → State} (h : GoesOn p dest next) :
    GoesOn p dest (fun u => sendTraining p (next u)) :=
  ⟨h.train, h.failed, fun u => (h.onlyPort u).trans (sendTraining_atPort p _).1⟩

theorem toState_goesOn (dest : Train) (p : PortN) : GoesOn p dest (toState dest p) :=
  ⟨toState_train dest p, toState_failed dest p, toState_onlyPort dest p⟩

/-- From `s` to `t` the lanes outside the mask `m` have been marked failed, and the port has gone on to `dest` with a whole half. -/
def LanesReported (p : PortN) (m : Nat) (dest : Train) (s t : State) : Prop :=
  (∀ l : LaneN, (t.port p).lanes[l].failed = ((s.port p).lanes[l].failed || !bit m l.val)) ∧
    (t.port p).train = (if halfIn (m &&& unfailed (s.port p)) = true then dest else (s.port p).train) ∧ OnlyPort p s t

theorem advance_lanesReported {p : PortN} {dest : Train} {next : State → State} (h : GoesOn p dest next) (m cause : Nat) (s : State) :
    LanesReported p m dest s (advance p m cause next s) := by
  have hmark (l : LaneN) := markOutside_failed (s.port p) m cause l
  have honly := modPort_onlyPort p (mapLanes (markOutside (m &&& unfailed (s.port p)) cause)) s
  unfold LanesReported
  cases hhalf : halfIn (m &&& unfailed (s.port p)) with
  | true =>
    rw [advance_of_half hhalf]
    refine ⟨fun l => ?_, h.train _, honly.trans (h.onlyPort _)⟩
    rw [h.failed, port_modPort_same, hmark]
  | false =>
    rw [advance_of_no_half hhalf, port_modPort_same]
    exact ⟨hmark, rfl, honly⟩

/-- A record of the lanes that leaves the marks may come before. -/
theorem LanesReported.of_mapLanes {p : PortN} {m : Nat} {dest : Train} {g : Nat → Lane → Lane} {s t : State}
    (hg : ∀ i l, (g i l).failed = l.failed) (h : LanesReported p m dest (modPort p (mapLanes g) s) t) : LanesReported p m dest s t := by
  obtain ⟨hfailed, htrain, honly⟩ := h
  have hlane (l : LaneN) : ((modPort p (mapLanes g) s).port p).lanes[l].failed = (s.port p).lanes[l].failed := by
    rw [port_modPort_same, mapLanes_lane, hg]
  have hmask : unfailed ((modPort p (mapLanes g) s).port p) = unfailed (s.port p) := laneMask_congr fun l => by rw [hlane]
  refine ⟨fun l => by rw [hfailed, hlane], ?_, (modPort_onlyPort p _ s).trans honly⟩
  rw [htrain, hmask, port_modPort_same]
  rfl

theorem log_goesOn {p : PortN} {dest : Train} {next : State → State} (h : GoesOn p dest next) (code : Nat) (detail : List Nat) :
    GoesOn p dest (fun u => log code detail (next u)) where
  train u := by rw [log_port, h.train]
  failed u l := by rw [log_port, h.failed]
  onlyPort u := (h.onlyPort u).trans ((logEvent_only code detail _).onlyPort (by decide) p)

theorem cdrLock_lanesReported {p : PortN} {s : State} (h : (s.port p).train = .lock) (lanes : Nat) :
    LanesReported p lanes .slip s (cdrLock p lanes s) := by
  rw [cdrLock, if_pos h]
  refine LanesReported.of_mapLanes (fun i l => ?_) (advance_lanesReported ?_ _ _ _)
  · split <;> rfl
  · exact log_goesOn (sendTraining_goesOn (toState_goesOn .slip p)) _ _

theorem codewordAligned_lanesReported {p : PortN} {s : State} (h : (s.port p).train = .fecAlign) (lanes : Nat) :
    LanesReported p lanes .deskew s (codewordAligned p lanes s) := by
  rw [codewordAligned, if_pos h]
  refine LanesReported.of_mapLanes (fun _ _ => ?_) (advance_lanesReported (sendTraining_goesOn (toState_goesOn .deskew p)) _ _ _)
  rfl

theorem deskewDone_lanesReported {p : PortN} {s : State} (h : (s.port p).train = .deskew) (lanes : Nat) :
    LanesReported p lanes .exchange s (deskewDone p lanes s) := by
  rw [deskewDone, if_pos h]
  refine LanesReported.of_mapLanes (fun _ _ => ?_) (advance_lanesReported (sendTraining_goesOn (toState_goesOn .exchange p)) _ _ _)
  rfl

/-- The lanes whose windows counted 1,024 commas (R73). -/
def commaLanes (q : Port) : Nat := laneMask q (fun l => decide (1024 ≤ l.hits))

theorem modPort_goesOn {p : PortN} {dest : Train} {next : State → State} {f : Port → Port} (h : GoesOn p dest next)
    (htrain : ∀ q, (f q).train = q.train) (hlanes : ∀ q, (f q).lanes = q.lanes) : GoesOn p dest (fun u => modPort p f (next u)) where
  train u := by rw [port_modPort_same, htrain, h.train]
  failed u l := by rw [port_modPort_same, hlanes, h.failed]
  onlyPort u := (h.onlyPort u).trans (modPort_onlyPort p f _)

theorem alignmentDone_lanesReported {src : Route} {p : PortN} {s : State} (h : (s.port p).train = .slip) (v : Nat) :
    LanesReported p (commaLanes (s.port p)) .fecAlign s (alignmentDone src p v s) := by
  have hwrite := onlyOne_only src (portIndex p 2) 5 v s
  have hport := hwrite.port (by decide) p
  rw [← hport] at h
  rw [alignmentDone, if_pos h]
  have hgo := sendTraining_goesOn (modPort_goesOn (f := fun q => { q with slipTimeout := false }) (toState_goesOn .fecAlign p)
    (fun _ => rfl) (fun _ => rfl))
  obtain ⟨hfailed, htrain, honly⟩ := advance_lanesReported hgo (commaLanes ((onlyOne src (portIndex p 2) 5 v s).port p)) 2
    (onlyOne src (portIndex p 2) 5 v s)
  unfold LanesReported
  rw [← hport]
  exact ⟨hfailed, htrain, (hwrite.onlyPort (by decide) p).trans honly⟩

/-- Settles O8: each exit is `advance` with the lanes reported, after a record that leaves the marks. -/
theorem lanesGoOnThroughTraining : Obligations.LanesGoOnThroughTraining := by
  unfold Obligations.LanesGoOnThroughTraining
  intro p lanes s
  have hbit (l : LaneN) : lanes.getLsbD l.val = bit lanes.toNat l.val := (BitVec.testBit_toNat lanes).symm
  refine ⟨?_, fun src v h => ?_⟩
  · simp only [List.forall_mem_cons, hbit]
    refine ⟨fun h => ⟨_, rfl, ?_⟩, fun h => ⟨_, rfl, ?_⟩, fun h => ⟨_, rfl, ?_⟩, by simp⟩
    · exact h ▸ cdrLock_lanesReported h lanes.toNat
    · exact h ▸ codewordAligned_lanesReported h lanes.toNat
    · exact h ▸ deskewDone_lanesReported h lanes.toNat
  · have hfew (n : Nat) : (!decide (1024 ≤ n)) = decide (n < 1024) := by simp [← decide_not]
    have hport : (beginOp s).port p = s.port p := rfl
    obtain ⟨hfailed, htrain, honly⟩ := alignmentDone_lanesReported (src := src) (s := beginOp s) h v.toNat
    refine ⟨alignmentDone src p v.toNat (beginOp s), rfl, fun l => ?_, ?_, honly⟩
    · rw [hfailed, commaLanes, bit_laneMask, hfew, hport]
    · rw [htrain, commaLanes, unfailed, laneMask_and, hport, h]

end Sys2Proof.Machine
end

section
/-! SUPPORT. Detectors, lane failures, slip windows and bit slips (R57, R71, R73, R80, R81, R89, R90, R92). -/

namespace Sys2Proof.Machine

open Sys2Proof

/-! ### A port that becomes suspect keeps its link (R57) -/

/-- A port without its time record. -/
def untimed (q : Port) : Port := { q with time := {} }

theorem modTime_portsSame {α : Type} (f : Port → α) (g : Time → Time) (s : State) : PortsSame f s (modTime g s) := fun _ => rfl

theorem modPortTime_portsSame (p : PortN) (g : PortTime → PortTime) (s : State) : PortsSame untimed s (modPortTime p g s) :=
  modPort_portsSame (by exact fun _ => rfl) s

theorem forPorts_portsSame {α : Type} {f : Port → α} {step : PortN → State → State} (h : ∀ p u, PortsSame f u (step p u)) (s : State) :
    PortsSame f s (forPorts step s) := PortsSame.foldl (step := fun t p => step p t) _ (fun u p => h p u) s

theorem setMode_portsSame (m : TimeMode) (s : State) : PortsSame untimed s (setMode m s) := by
  unfold setMode
  extract_lets _ u _ v
  have hu : PortsSame untimed s u := modTime_portsSame _ _ s
  have hv : PortsSame untimed s v := hu.maybe (forPorts_portsSame (fun p w => modPortTime_portsSame p _ w) u)
  exact (PortsSame.refl _ s).ite ((hv.trans (log_portsSame _ _ _ v)).trans (raiseCause_portsSame _ _ _))

theorem judgeState_portsSame (s : State) : PortsSame untimed s (judgeState s) := by
  have hstay := PortsSame.refl untimed s
  have htime (f : Time → Time) : PortsSame untimed s (modTime f s) := modTime_portsSame _ f s
  have htake (p : PortN) : PortsSame untimed s (takeParent p s) := modTime_portsSame _ _ s
  have hmode (m : TimeMode) (u : State) (h : PortsSame untimed s u) : PortsSame untimed s (setMode m u) := h.trans (setMode_portsSame m u)
  have hfresh (p : PortN) (u : State) (h : PortsSame untimed s u) : PortsSame untimed s (freshSamples p u) :=
    h.trans (modPortTime_portsSame p _ u)
  have hacquire (p : PortN) := hfresh p _ (hmode .acquiring _ (htake p))
  unfold judgeState
  extract_lets here
  split
  case h_1 =>
    refine .ite (.ite (htime _) (.ite (hmode _ _ (htime _)) hstay)) ?_
    split
    · exact hmode _ _ (htake _)
    · exact hstay
  case h_2 =>
    refine .ite (.ite (htime _) hstay) (.ite ?_ ?_)
    · split
      · exact .ite (htime _) hstay
      · exact hstay
    · split
      · exact hfresh _ _ (PortsSame.trans (htime _) (modTime_portsSame _ _ _))
      · exact hmode _ _ (htime _)
  case h_3 =>
    have hfar := PortsSame.ite (c := 2 ≤ s.time.farSets) (hmode .acquiring _ hstay) hstay
    refine .ite hfar (.ite hfar ?_)
    split
    · exact .ite (htake _) (hacquire _)
    · exact hmode _ _ (htime _)
  case h_4 =>
    split
    · exact .ite (hmode _ _ (htake _)) (hacquire _)
    · exact hstay

theorem markSuspect_portsSame (p : PortN) (s : State) : PortsSame untimed s (markSuspect p s) :=
  modPortTime_portsSame p (fun q => { q with suspect := true, clean := 0, samples := [], delay := none }) s

theorem makeSuspect_portsSame (p : PortN) (s : State) : PortsSame untimed s (makeSuspect p s) := by
  unfold makeSuspect
  exact (PortsSame.refl _ s).ite ((markSuspect_portsSame p s).maybe (judgeState_portsSame _))

/-- The counters that a port that becomes suspect may raise. -/
def suspectEntries (p : PortN) : List (Nat × Nat) := (0x4010 + p.val, 4) :: eventEntries

theorem makeSuspect_entries (p : PortN) (s : State) : OnlyEntries (suspectEntries p) s (makeSuspect p s) := by
  cases h : (s.port p).time.suspect with
  | true =>
    rw [makeSuspect, if_pos h]
    exact OnlyEntries.refl _ s
  | false =>
    have hmark : OnlyEntries [(0x4010 + p.val, 4)] s (markSuspect p s) := odSet_entries _ _ _ _ (by decide)
    exact (hmark.mono (by simp [suspectEntries])).trans ((makeSuspect_judged h).entries.mono (by simp +contextual [suspectEntries]))

/-! ### One lane -/

theorem modLane_atPort (p : PortN) (l : LaneN) (f : Lane → Lane) (s : State) : AtPort p [] s (modLane p l f s) := modPort_atPort p _ s

theorem modLane_train (p : PortN) (l : LaneN) (f : Lane → Lane) (s : State) : ((modLane p l f s).port p).train = (s.port p).train := by
  rw [modLane, port_modPort_same]

theorem modLane_lane (p : PortN) (l k : LaneN) (f : Lane → Lane) (s : State) :
    ((modLane p l f s).port p).lanes[k] = if k = l then f (s.port p).lanes[l] else (s.port p).lanes[k] := by
  rw [modLane, port_modPort_same]
  by_cases h : k = l
  · subst h
    simp
  · have hne : l.val ≠ k.val := fun e => h (Fin.ext e.symm)
    simp [h, Vector.getElem_set_ne, hne]

/-- A test of every lane. -/
theorem all_lanes_iff (q : Port) (f : Lane → Bool) : q.lanes.toList.all f = true ↔ ∀ l : LaneN, f q.lanes[l] = true := by
  simp only [List.all_eq_true, Vector.mem_toList_iff, Vector.mem_iff_getElem]
  constructor
  · intro h l
    exact h _ ⟨l.val, l.isLt, rfl⟩
  · rintro h x ⟨i, hi, rfl⟩
    exact h ⟨i, hi⟩

/-! ### A lane in use fails (R81) -/

theorem laneFailure_train (p : PortN) (l : LaneN) (cause : Nat) (s : State) : ((laneFailure p l cause s).port p).train = .exchange :=
  toExchange_train p _

theorem laneFailure_onlyPort (p : PortN) (l : LaneN) (cause : Nat) (s : State) : OnlyPort p s (laneFailure p l cause s) :=
  ((modLane_atPort p l _ s).1.trans ((logEvent_only _ _ _).onlyPort (by decide) p)).trans (toExchange_onlyPort p _)

/-- The lane is marked; every lane keeps its detectors. -/
theorem laneFailure_lane (p : PortN) (l k : LaneN) (cause : Nat) (s : State) : ∃ use : Bool, ((laneFailure p l cause s).port p).lanes[k] =
    { (if k = l then { (s.port p).lanes[l] with failed := true, cause := cause } else (s.port p).lanes[k]) with inUse := use } := by
  rw [laneFailure, toExchange_lane, log_port, modLane_lane]
  split
  · exact ⟨false, rfl⟩
  · exact ⟨_, rfl⟩

/-! ### A detector asserts (R71, R80) -/

/-- The loss of the time lane makes its port suspect (R57). -/
def suspectTimeLane (p : PortN) (l : LaneN) (s : State) : State := if timeLane (s.port p) = some l.val then makeSuspect p s else s

theorem suspectTimeLane_portsSame (p : PortN) (l : LaneN) (s : State) : PortsSame untimed s (suspectTimeLane p l s) :=
  (makeSuspect_portsSame p s).ite (.refl _ s)

theorem suspectTimeLane_lanes (p : PortN) (l : LaneN) (s : State) : ((suspectTimeLane p l s).port p).lanes = (s.port p).lanes :=
  (suspectTimeLane_portsSame p l s).field Port.lanes (fun _ => rfl) p

theorem suspectTimeLane_train (p : PortN) (l : LaneN) (s : State) : ((suspectTimeLane p l s).port p).train = (s.port p).train :=
  (suspectTimeLane_portsSame p l s).field Port.train (fun _ => rfl) p

/-- Does a lane in use receive a signal no more, or is it not in use? -/
def darkUse (x : Lane) : Bool := !x.inUse || x.los

theorem detected_eq (p : PortN) (l : LaneN) (s : State) : detected p l s =
    if (s.port p).train = .active ∧ (s.port p).lanes[l].inUse = true then
      if (s.port p).lanes.toList.all darkUse then toDetect p (log 0x2002 [p.val, l.val, 1] (suspectTimeLane p l s))
      else laneFailure p l 1 (suspectTimeLane p l s)
    else if inTraining (s.port p).train && (s.port p).lanes.toList.all Lane.los then
      toDetect p (log 0x2002 [p.val, l.val, 1] (suspectTimeLane p l s))
    else log 0x2002 [p.val, l.val, 1] (suspectTimeLane p l s) := rfl

/-- An assertion leads to DETECT, fails its lane, or is recorded only. -/
theorem detected_cases (p : PortN) (l : LaneN) (s : State) :
    detected p l s = toDetect p (log 0x2002 [p.val, l.val, 1] (suspectTimeLane p l s)) ∨
      detected p l s = laneFailure p l 1 (suspectTimeLane p l s) ∨
      detected p l s = log 0x2002 [p.val, l.val, 1] (suspectTimeLane p l s) := by
  rw [detected_eq]
  split <;> split <;> simp

/-- The marks of the detectors on a lane. -/
def detectors (x : Lane) : Bool × Bool := (x.los, x.lol)

theorem detected_detectors (p : PortN) (l k : LaneN) (s : State) :
    detectors ((detected p l s).port p).lanes[k] = detectors (s.port p).lanes[k] := by
  obtain h | h | h := detected_cases p l s
  · rw [h, toDetect_lane, log_port, suspectTimeLane_lanes]
    rfl
  · obtain ⟨use, hlane⟩ := laneFailure_lane p l k 1 (suspectTimeLane p l s)
    rw [h, hlane, suspectTimeLane_lanes]
    split
    · next hk =>
      rw [hk]
      rfl
    · rfl
  · rw [h, log_port, suspectTimeLane_lanes]

theorem log_entries (p : PortN) (code : Nat) (detail : List Nat) (s : State) : OnlyEntries (suspectEntries p) s (log code detail s) :=
  (event_entries _ _ _ _).mono (by simp +contextual [suspectEntries])

theorem toDetect_entries (p : PortN) (s : State) : OnlyEntries [] s (toDetect p s) :=
  (toDetect_parts p (List.Subset.refl _) (Only.refl _ s)).entries (by decide)

theorem toLock_entries (clear : Bool) (p : PortN) (s : State) : OnlyEntries [] s (toLock clear p s) :=
  (toLock_parts clear p (List.Subset.refl _) (Only.refl _ s)).entries (by decide)

theorem toExchange_entries (p : PortN) (s : State) : OnlyEntries [] s (toExchange p s) :=
  (toExchange_parts p (List.Subset.refl _) (Only.refl _ s)).entries (by decide)

theorem laneFailure_entries (p : PortN) (l : LaneN) (cause : Nat) (s : State) :
    OnlyEntries (suspectEntries p) s (laneFailure p l cause s) := by
  have hlog := log_entries p 0x2002 [p.val, l.val, cause] (modLane p l (fun x => { x with failed := true, cause := cause }) s)
  exact OnlyEntries.trans hlog ((toExchange_entries p _).mono (by simp))

theorem detected_entries (p : PortN) (l : LaneN) (s : State) : OnlyEntries (suspectEntries p) s (detected p l s) := by
  have hsuspect : OnlyEntries (suspectEntries p) s (suspectTimeLane p l s) := (makeSuspect_entries p s).ite (OnlyEntries.refl _ s)
  have hlogged := hsuspect.trans (log_entries p 0x2002 [p.val, l.val, 1] _)
  obtain h | h | h := detected_cases p l s
  · rw [h]
    exact hlogged.trans ((toDetect_entries p _).mono (by simp))
  · rw [h]
    exact hsuspect.trans (laneFailure_entries p l 1 _)
  · rw [h]
    exact hlogged

/-- In ACTIVE the port goes to DETECT once no lane in use has its signal. -/
theorem detected_train_of_dark {p : PortN} {l : LaneN} {s : State} (h : (s.port p).train = .active)
    (huse : (s.port p).lanes[l].inUse = true) (hdark : (s.port p).lanes.toList.all darkUse = true) :
    ((detected p l s).port p).train = .detect := by
  rw [detected_eq, if_pos ⟨h, huse⟩, if_pos hdark]
  exact toDetect_train p _

/-- In ACTIVE a lane in use fails beside another that has its signal. -/
theorem detected_fails_of_lit {p : PortN} {l : LaneN} {s : State} (h : (s.port p).train = .active)
    (huse : (s.port p).lanes[l].inUse = true) (hlit : ¬(s.port p).lanes.toList.all darkUse = true) :
    ((detected p l s).port p).train = .exchange ∧ ((detected p l s).port p).lanes[l].failed = true ∧
      ((detected p l s).port p).lanes[l].cause = 1 := by
  obtain ⟨use, hlane⟩ := laneFailure_lane p l l 1 (suspectTimeLane p l s)
  rw [detected_eq, if_pos ⟨h, huse⟩, if_neg hlit, hlane, if_pos rfl]
  exact ⟨laneFailure_train p l 1 _, rfl, rfl⟩

theorem detected_train_of_training {p : PortN} {l : LaneN} {s : State} (h : inTraining (s.port p).train = true) :
    ((detected p l s).port p).train = if (s.port p).lanes.toList.all Lane.los = true then .detect else (s.port p).train := by
  have hactive : ¬((s.port p).train = .active ∧ (s.port p).lanes[l].inUse = true) := by
    rintro ⟨ha, -⟩
    rw [ha] at h
    exact absurd h (by decide)
  rw [detected_eq, if_neg hactive, h, Bool.true_and]
  split
  · exact toDetect_train p _
  · rw [log_port, suspectTimeLane_train]

/-- A test of every lane after a change that meets it on one lane. -/
theorem all_lanes_modLane_iff {p : PortN} {l : LaneN} {f : Lane → Lane} {s : State} {g : Lane → Bool}
    (hl : g (f (s.port p).lanes[l]) = true) :
    ((modLane p l f s).port p).lanes.toList.all g = true ↔ ¬∃ k : LaneN, k ≠ l ∧ g (s.port p).lanes[k] = false := by
  rw [all_lanes_iff]
  simp only [modLane_lane]
  constructor
  · rintro h ⟨k, hk, hg⟩
    have := h k
    rw [if_neg hk, hg] at this
    exact absurd this (by decide)
  · intro h k
    split
    · exact hl
    · next hk =>
      by_contra hg
      exact h ⟨k, hk, by simpa using hg⟩

theorem bump_port (i j : Nat) (s : State) (q : PortN) : (bump i j s).port q = s.port q := rfl

/-- A counter of a port is no counter of the event log or of a time record. -/
theorem portCounter_not_suspectEntry (p : PortN) {k : Nat} (hk : k < 16) (j : Nat) : (portIndex p k, j) ∉ suspectEntries p := by
  have := p.isLt
  intro h
  simp only [portIndex, suspectEntries, eventEntries, List.mem_cons, Prod.mk.injEq, List.not_mem_nil, or_false] at h
  omega

/-- An assertion is counted, and its marks stay. -/
theorem detected_after_bump (p : PortN) (l : LaneN) (j : Nat) (hj : j < 256) (f : Lane → Lane) (s : State) :
    detectors ((detected p l (bump (portIndex p 4) j (modLane p l f s))).port p).lanes[l] = detectors (f (s.port p).lanes[l]) ∧
      odGet (detected p l (bump (portIndex p 4) j (modLane p l f s))) (portIndex p 4) j =
        min (2 ^ 64 - 1) (odGet s (portIndex p 4) j + 1) := by
  constructor
  · rw [detected_detectors, bump_port, modLane_lane, if_pos rfl]
  · rw [detected_entries p l _ _ _ hj (portCounter_not_suspectEntry p (by decide) j), odGet_bump_same]
    rfl

/-! ### LOS_ASSERT and LOL_ASSERT (R80) -/

/-- The lane as its loss of signal leaves it. -/
def loseSignal (x : Lane) : Lane := { x with los := true, locked := false }

/-- The lane as its loss of lock leaves it. -/
def loseLock (x : Lane) : Lane := { x with lol := true, locked := false }

theorem exec_losAssert (p : PortN) (l : LaneN) (s : State) : exec (.losAssert p l) s =
    .next (detected p l (bump (portIndex p 4) (0x11 + l.val) (modLane p l loseSignal s))) := rfl

theorem exec_lolAssert (p : PortN) (l : LaneN) (s : State) : exec (.lolAssert p l) s =
    .next (detected p l (bump (portIndex p 4) (0x21 + l.val) (modLane p l loseLock s))) := rfl

/-- LOS_ASSERT on a lane in use in ACTIVE. -/
theorem losAssert_of_use {p : PortN} {l : LaneN} {s : State} (h : (s.port p).train = .active)
    (huse : (s.port p).lanes[l].inUse = true) (j : Nat) :
    let t := detected p l (bump (portIndex p 4) j (modLane p l loseSignal s))
    ((∃ k : LaneN, k ≠ l ∧ (s.port p).lanes[k].inUse = true ∧ (s.port p).lanes[k].los = false) →
      (t.port p).train = .exchange ∧ (t.port p).lanes[l].failed = true ∧ (t.port p).lanes[l].cause = 1) ∧
    ((¬∃ k : LaneN, k ≠ l ∧ (s.port p).lanes[k].inUse = true ∧ (s.port p).lanes[k].los = false) → (t.port p).train = .detect) := by
  have hdark : ((modLane p l loseSignal s).port p).lanes.toList.all darkUse = true ↔
      ¬∃ k : LaneN, k ≠ l ∧ (s.port p).lanes[k].inUse = true ∧ (s.port p).lanes[k].los = false := by
    rw [all_lanes_modLane_iff (by simp [darkUse, loseSignal])]
    simp [darkUse]
  have htrain : ((bump (portIndex p 4) j (modLane p l loseSignal s)).port p).train = .active := by
    rw [bump_port, modLane_train, h]
  have hlane : ((bump (portIndex p 4) j (modLane p l loseSignal s)).port p).lanes[l].inUse = true := by
    rw [bump_port, modLane_lane, if_pos rfl]
    exact huse
  exact ⟨fun hlit => detected_fails_of_lit htrain hlane (fun hall => hdark.mp hall hlit),
    fun hno => detected_train_of_dark htrain hlane (hdark.mpr hno)⟩

/-- LOS_ASSERT in training. -/
theorem losAssert_train_of_training {p : PortN} {l : LaneN} {s : State} (h : inTraining (s.port p).train = true) (j : Nat) :
    let t := detected p l (bump (portIndex p 4) j (modLane p l loseSignal s))
    ((∃ k : LaneN, k ≠ l ∧ (s.port p).lanes[k].los = false) → (t.port p).train = (s.port p).train) ∧
    ((¬∃ k : LaneN, k ≠ l ∧ (s.port p).lanes[k].los = false) → (t.port p).train = .detect) := by
  have hdark : ((modLane p l loseSignal s).port p).lanes.toList.all Lane.los = true ↔
      ¬∃ k : LaneN, k ≠ l ∧ (s.port p).lanes[k].los = false := all_lanes_modLane_iff rfl
  have htrain : ((bump (portIndex p 4) j (modLane p l loseSignal s)).port p).train = (s.port p).train := by
    rw [bump_port, modLane_train]
  have hspec := detected_train_of_training (l := l) (s := bump (portIndex p 4) j (modLane p l loseSignal s)) (by rw [htrain, h])
  intro t
  rw [hspec, htrain, bump_port]
  exact ⟨fun hlit => if_neg fun hall => hdark.mp hall hlit, fun hno => if_pos (hdark.mpr hno)⟩

/-- LOL_ASSERT on a lane in use in ACTIVE that has its signal. -/
theorem lolAssert_of_use {p : PortN} {l : LaneN} {s : State} (h : (s.port p).train = .active)
    (huse : (s.port p).lanes[l].inUse = true) (hlos : (s.port p).lanes[l].los = false) (j : Nat) :
    let t := detected p l (bump (portIndex p 4) j (modLane p l loseLock s))
    (t.port p).train = .exchange ∧ (t.port p).lanes[l].failed = true ∧ (t.port p).lanes[l].cause = 1 := by
  have htrain : ((bump (portIndex p 4) j (modLane p l loseLock s)).port p).train = .active := by
    rw [bump_port, modLane_train, h]
  have hlane : ((bump (portIndex p 4) j (modLane p l loseLock s)).port p).lanes[l] = loseLock (s.port p).lanes[l] := by
    rw [bump_port, modLane_lane, if_pos rfl]
  refine detected_fails_of_lit htrain ?_ fun hall => ?_
  · rw [hlane]
    exact huse
  · have hl := (all_lanes_iff _ _).mp hall l
    rw [hlane, darkUse, loseLock, huse, hlos] at hl
    exact absurd hl (by decide)

/-! ### UNCORRECTABLE_THRESHOLD, LASER_FAULT and LOS_CLEAR (R80, R81, R89, R93) -/

theorem exec_uncorrectableThreshold {p : PortN} {l : LaneN} {s : State} (h : (s.port p).train = .active)
    (huse : (s.port p).lanes[l].inUse = true) : exec (.uncorrectableThreshold p l) s = .next (laneFailure p l 3 s) :=
  congrArg _ (if_pos ⟨h, huse⟩)

theorem exec_laserFault {p : PortN} {l : LaneN} {s : State} (h : (s.port p).train = .active)
    (huse : (s.port p).lanes[l].inUse = true) (hmedium : medium s p = 1) :
    exec (.laserFault p l) s = .next (laneFailure p l 1 s) := by
  change Host.Outcome.next (laserFault p l s) = _
  rw [laserFault, if_pos hmedium, if_pos h, if_pos huse]

theorem laneFailure_marks (p : PortN) (l : LaneN) (cause : Nat) (s : State) :
    ((laneFailure p l cause s).port p).train = .exchange ∧ ((laneFailure p l cause s).port p).lanes[l].failed = true ∧
      ((laneFailure p l cause s).port p).lanes[l].cause = cause ∧ OnlyPort p s (laneFailure p l cause s) := by
  obtain ⟨use, hlane⟩ := laneFailure_lane p l l cause s
  rw [hlane, if_pos rfl]
  exact ⟨laneFailure_train p l cause s, rfl, rfl, laneFailure_onlyPort p l cause s⟩

/-- The lane has its signal again. -/
def gainSignal (x : Lane) : Lane := { x with los := false }

/-- The lanes that have their signal. -/
def litLanes (q : Port) : Nat := laneMask q (fun x => !x.los)

theorem exec_losClear {p : PortN} {s : State} (l : LaneN) (h : (s.port p).engineOff = false) (hdetect : (s.port p).train = .detect) :
    exec (.losClear p l) s = .next
      (if halfIn (litLanes ((modLane p l gainSignal s).port p)) = true then toLock false p (modLane p l gainSignal s)
       else modLane p l gainSignal s) := by
  have htrain : ((modLane p l gainSignal s).port p).train = .detect := by rw [modLane_train, hdetect]
  change Host.Outcome.next (losClear p l s) = _
  rw [losClear, if_neg (by simp [h])]
  change Host.Outcome.next (if ((modLane p l gainSignal s).port p).train = .detect ∧ _ then _ else _) = _
  simp only [htrain, true_and]
  rfl

/-- Entering LOCK leaves the detectors' marks. -/
theorem litLanes_toLock (p : PortN) (s : State) : litLanes ((toLock false p s).port p) = litLanes (s.port p) :=
  laneMask_congr fun l => by
    rw [toLock_lane]
    rfl

/-! ### SLIP_WINDOW_DONE and BIT_SLIP (R73, R90, R92) -/

theorem exec_slipWindowDone (p : PortN) (l : LaneN) (hits : Nat) (s : State) : exec (.slipWindowDone p l hits) s = .next
    (if (s.port p).train = .slip then modLane p l (fun x => { x with done := true, hits := min 0xFFFF hits }) s else s) := rfl

/-- The report of a slip beyond 9. -/
def reportSlip (src : Route) (p : PortN) (l : LaneN) (v : Nat) (s : State) : State :=
  if v ≤ 9 then s else clamped src (portIndex p 3) (0x11 + l.val) (scalarPlace 8) v 9 s

theorem reportSlip_only (src : Route) (p : PortN) (l : LaneN) (v : Nat) (s : State) :
    Only [.dict, .host, .sent] s (reportSlip src p l v s) := (Only.refl _ s).ite (clamped_only _ _ _ _ _ _ s)

theorem bitSlip_eq (src : Route) (p : PortN) (l : LaneN) (v : Nat) (s : State) : bitSlip src p l v s =
    if ((reportSlip src p l v s).port p).train = .slip then
      modLane p l (fun x => { x with offset := (x.offset + min v 9) % 10, done := false }) (reportSlip src p l v s)
    else reportSlip src p l v s := rfl

theorem exec_bitSlip (src : Route) (p : PortN) (l : LaneN) (v : BitVec 8) (s : State) :
    exec (.bitSlip src p l v) s = .next (bitSlip src p l v.toNat (beginOp s)) := rfl

/-- Settles O9: an assertion is `detected` after the mark and the count; the other commands change one lane, or fail it. -/
theorem laneDetectorsAndSlips : Obligations.LaneDetectorsAndSlips := by
  unfold Obligations.LaneDetectorsAndSlips
  refine ⟨fun p l s => ⟨?los, ?lol, ?fault, ?clear⟩, fun p l s => ⟨?window, ?slip⟩⟩
  case los =>
    obtain ⟨hmarks, hcount⟩ := detected_after_bump p l (0x11 + l.val) (by omega) loseSignal s
    refine ⟨_, exec_losAssert p l s, congrArg Prod.fst hmarks, hcount, fun h huse => ?_, fun h => ?_⟩
    · obtain ⟨hlit, hdark⟩ := losAssert_of_use h huse (0x11 + l.val)
      split
      · next hk => exact ⟨(hlit hk).1, fun _ => (hlit hk).2⟩
      · next hk => exact ⟨hdark hk, fun hx => by rw [hdark hk] at hx; cases hx⟩
    · obtain ⟨hlit, hdark⟩ := losAssert_train_of_training (l := l) h (0x11 + l.val)
      split
      · next hk => exact hlit hk
      · next hk => exact hdark hk
  case lol =>
    obtain ⟨hmarks, hcount⟩ := detected_after_bump p l (0x21 + l.val) (by omega) loseLock s
    exact ⟨_, exec_lolAssert p l s, congrArg Prod.snd hmarks, hcount, fun h huse hlos => lolAssert_of_use h huse hlos _⟩
  case fault =>
    exact fun h huse => ⟨⟨_, exec_uncorrectableThreshold h huse, laneFailure_marks p l 3 s⟩,
      fun hmedium => ⟨_, exec_laserFault h huse hmedium, laneFailure_marks p l 1 s⟩⟩
  case clear =>
    intro hengine hdetect
    have htrain : ((modLane p l gainSignal s).port p).train = .detect := by rw [modLane_train, hdetect]
    have hlane : ((modLane p l gainSignal s).port p).lanes[l].los = false := by
      rw [modLane_lane, if_pos rfl]
      rfl
    have hframe : AtPort p [.sent] s (modLane p l gainSignal s) := (modLane_atPort p l _ s).mono (by simp)
    rw [exec_losClear l hengine hdetect]
    by_cases hhalf : halfIn (litLanes ((modLane p l gainSignal s).port p)) = true
    · rw [if_pos hhalf]
      refine ⟨_, rfl, ?_, ?_, hframe.trans (toLock_atPort (by rw [htrain]; decide))⟩
      · rw [toLock_lane]
        exact hlane
      · exact iff_of_true (toLock_train false p _) ((congrArg halfIn (litLanes_toLock p _)).trans hhalf)
    · rw [if_neg hhalf]
      exact ⟨_, rfl, hlane, iff_of_false (by rw [htrain]; decide) hhalf, hframe⟩
  case window =>
    intro hits
    by_cases h : (s.port p).train = .slip
    · rw [exec_slipWindowDone, if_pos h]
      refine ⟨_, rfl, modLane_atPort p l _ s, fun k hk => ?_, fun _ => ?_, fun hne => absurd h hne⟩
      · rw [modLane_lane, if_neg hk]
      · rw [modLane_lane, if_pos rfl]
        exact ⟨rfl, rfl⟩
    · rw [exec_slipWindowDone, if_neg h]
      exact ⟨s, rfl, AtPort.refl p [] s, fun _ _ => rfl, fun hslip => absurd hslip h, fun _ => rfl⟩
  case slip =>
    intro src v
    have honly : Only [.dict, .host, .sent] s (reportSlip src p l v.toNat (beginOp s)) := Only.of_beginOp (reportSlip_only src p l _ _)
    have hport := honly.port (by decide) p
    have hframe : AtPort p [.dict, .host, .sent] s (reportSlip src p l v.toNat (beginOp s)) := honly.atPort (by decide)
    rw [exec_bitSlip, bitSlip_eq, hport]
    by_cases h : (s.port p).train = .slip
    · rw [if_pos h]
      refine ⟨_, rfl, hframe.trans ((modLane_atPort p l _ _).mono (by simp)), fun k hk => ?_, fun _ => ?_, fun hne => absurd h hne⟩
      · rw [modLane_lane, if_neg hk, hport]
      · rw [modLane_lane, if_pos rfl, hport]
        exact ⟨rfl, rfl⟩
    · rw [if_neg h]
      exact ⟨_, rfl, hframe, fun k _ => by rw [hport], fun hslip => absurd hslip h, fun _ => honly .ports (by decide)⟩

end Sys2Proof.Machine
end

section
/-! SUPPORT. The exchange, the entry to ACTIVE and the handshake that follows it (R17, R70, R75, R76, R435). -/

namespace Sys2Proof.Machine

open Sys2Proof

/-! ### TRAINING_SET_RECEIVE (R70, R75) -/

theorem exec_trainingSetReceive (p : PortN) (x : TrainingSet) (s : State) :
    exec (.trainingSetReceive p x) s = .next (trainingReceive p x s) := rfl

/-- The port that has taken a set as its last. -/
def keepSet (x : TrainingSet) (q : Port) : Port :=
  { q with
    sameSets := (match q.lastSet with
      | some y => if sameExchange x y then q.sameSets + 1 else 1
      | none => 1)
    lastSet := some x }

theorem keepSet_sameSets (x : TrainingSet) (q : Port) :
    (keepSet x q).sameSets = if q.lastSet.any (fun y => sameExchange x y) then q.sameSets + 1 else 1 := by
  unfold keepSet
  cases q.lastSet <;> rfl

/-- A set in EXCHANGE that does not carry SEQ_RESET is judged with the port that keeps it. -/
theorem trainingReceive_of_plain {p : PortN} {x : TrainingSet} {s : State} (h : (s.port p).train = .exchange)
    (hgood : trainingGood x = true) (hreset : x.flags.getLsbD 1 = false) :
    trainingReceive p x s = judgeExchange p x (modPort p (keepSet x) s) := by
  have hin : ¬((s.port p).train ≠ .exchange ∧ (s.port p).train ≠ .active) := fun hn => hn.1 h
  have hactive : (s.port p).train ≠ .active := by simp [h]
  rw [trainingReceive, if_neg hin, if_neg (by simp [hgood]), if_neg hactive, takeTraining, hreset]
  rfl

/-- The port after the exchange is judged at a common version and a width. -/
def agreePort (v : Nat) (w : Width) (x : TrainingSet) (q : Port) : Port :=
  { q with version := v, ready := decide (8 ≤ q.sameSets) && widthCode w == x.width.toNat, readySeen := q.readySeen || x.flags.getLsbD 0 }

theorem judgeExchange_of_agreement {p : PortN} {x : TrainingSet} {s : State} {v : Nat} (hv : commonVersion s x = some v)
    (hw : ownWidth s p ≠ .none) :
    (judgeExchange p x s).port p = agreePort v (ownWidth s p) x (s.port p) ∧ AtPort p [.sent] s (judgeExchange p x s) := by
  have hframe : AtPort p [.sent] s (modPort p (agreePort v (ownWidth s p) x) s) := (modPort_atPort p _ s).mono (by simp)
  have hcases : judgeExchange p x s = modPort p (agreePort v (ownWidth s p) x) s ∨
      judgeExchange p x s = sendTraining p (modPort p (agreePort v (ownWidth s p) x) s) := by
    rw [judgeExchange, hv]
    simp only [if_neg hw]
    exact ite_eq_or_eq _ _ _
  obtain h | h := hcases
  · rw [h]
    exact ⟨port_modPort_same p _ s, hframe⟩
  · rw [h]
    exact ⟨port_modPort_same p _ s, hframe.trans (sendTraining_atPort p _)⟩

theorem judgeExchange_of_no_version {p : PortN} {x : TrainingSet} {s : State} (hv : commonVersion s x = none)
    (hfail : (s.port p).versionFail = false) :
    judgeExchange p x s = log 0x2005 [p.val] (modPort p (fun q => { q with versionFail := true }) s) := by
  rw [judgeExchange, hv]
  simp only [hfail, Bool.false_eq_true, if_false]

/-! ### ACTIVE_ENTRY (R17, R75, R76) -/

theorem exec_activeEntry (p : PortN) (s : State) : exec (.activeEntry p) s =
    .next (if (s.port p).train = .active then s else beginKeying p (activeEntry p s)) := rfl

/-- The lanes of a width. -/
def widthUses (w : Width) (i : Nat) : Bool := w == .full || (w == .lower && decide (i < 4)) || (w == .upper && decide (4 ≤ i))

/-- The port as it enters ACTIVE at a width. -/
def enterPort (w : Width) (q : Port) : Port :=
  mapLanes (fun i l => { l with inUse := widthUses w i }) { q with
    train := .active, width := w, lastWidth := w, versionFail := false, widthFail := false, holdExpired := false,
    elasticFault := false, sendReset := false, seenReset := false, holding := false, ready := false, readySeen := false,
    sameSets := 0, inError := false, rttLimited := false, fill := 16 }

/-- The lowest lane of a width. -/
def firstLane (w : Width) : Nat := if w = .upper then 4 else 0

/-- The rest of the entry to ACTIVE, with the partner's identity recorded: pools, a change of width from `old`, the partner's
acknowledgement, and the replay. -/
def finishEntry (p : PortN) (x : TrainingSet) (old w : Width) (s : State) : State :=
  let changed := old ≠ .none ∧ old ≠ w
  let s := layPools p s
  let s := if changed then log 0x2002 [p.val, 255, 0] s else s
  let s := if changed ∧ firstLane w ≠ firstLane old then makeSuspect p s else s
  let s := raiseCause 6 (takeAck p (x.nextSeq.truncate 12 - 1) s)
  if keysPending s p then s else resendCells p s

theorem activeEntry_of_ready {p : PortN} {x : TrainingSet} {s : State} (hset : (s.port p).lastSet = some x)
    (h : (s.port p).train = .exchange ∧ (s.port p).ready = true ∧ (s.port p).readySeen = true) :
    activeEntry p s = finishEntry p x (s.port p).lastWidth (ownWidth s p)
      (recordIdentity p x (modPort p (enterPort (ownWidth s p)) s)) := by
  rw [activeEntry, hset]
  exact if_pos h

theorem activeEntry_of_not_ready {p : PortN} {s : State}
    (h : ¬((s.port p).train = .exchange ∧ (s.port p).ready = true ∧ (s.port p).readySeen = true)) : activeEntry p s = s := by
  rw [activeEntry]
  split
  · rfl
  · exact if_neg h

/-- What the entry to ACTIVE settles of a port: state, width, and the partner's coordinate, kind and judgement. -/
def linkIdentity (q : Port) : Train × Width × BitVec 16 × Nat × Nat := (q.train, q.width, q.partnerCoord, q.partnerKind, q.status)

theorem takeAck_portsSame {α : Type} {f : Port → α} (hf : ∀ q l n, f { q with replay := l, replayCount := n } = f q) (p : PortN)
    (ack : BitVec 12) (s : State) : PortsSame f s (takeAck p ack s) := by
  unfold takeAck
  dsimp only
  split
  · exact .refl f s
  · exact (modPort_portsSame (fun q => hf q _ 0) s).ite (.refl f s)

theorem resendCells_portsSame {α : Type} (f : Port → α) (p : PortN) (s : State) : PortsSame f s (resendCells p s) :=
  .of_only (resendCells_parts p (List.Subset.refl _) (Only.refl _ s)) (by decide)

theorem finishEntry_portsSame (p : PortN) (x : TrainingSet) (old w : Width) (s : State) :
    PortsSame linkIdentity s (finishEntry p x old w s) := by
  unfold finishEntry
  extract_lets changed laid logged suspected acked
  have hlaid : PortsSame linkIdentity s laid := modPort_portsSame (by exact fun _ => rfl) s
  have hlogged : PortsSame linkIdentity s logged := hlaid.maybe (log_portsSame _ _ _ _)
  have hsuspected : PortsSame linkIdentity s suspected :=
    hlogged.maybe ((makeSuspect_portsSame p _).field linkIdentity (fun _ => rfl))
  have hacked : PortsSame linkIdentity s acked :=
    (hsuspected.trans (takeAck_portsSame (fun _ _ _ => rfl) p _ _)).trans (raiseCause_portsSame _ 6 _)
  exact hacked.ite (hacked.trans (resendCells_portsSame _ p _))

theorem signal_cause (vector : Nat) (s : State) : (signal vector s).host.cause = s.host.cause := by
  unfold signal
  split
  · rfl
  · split
    · split <;> rfl
    · rfl

theorem raiseCause_cause (n : Fin 64) (s : State) : (raiseCause n s).host.cause.getLsbD n.val = true := by
  unfold raiseCause
  dsimp only
  split
  · assumption
  · split
    · rw [signal_cause]
      simp
    · simp

theorem finishEntry_cause (p : PortN) (x : TrainingSet) (old w : Width) (s : State) :
    (finishEntry p x old w s).host.cause.getLsbD 6 = true := by
  unfold finishEntry
  extract_lets changed laid logged suspected acked
  have hresend : (resendCells p acked).host = acked.host :=
    resendCells_parts p (List.Subset.refl _) (Only.refl _ acked) .host (by decide)
  have hacked : acked.host.cause.getLsbD 6 = true := raiseCause_cause 6 _
  split
  · exact hacked
  · rw [hresend]
    exact hacked

/-- The partner's identity is that of the set, judged by R17. -/
theorem recordIdentity_identity (p : PortN) (x : TrainingSet) (s : State) : linkIdentity ((recordIdentity p x s).port p) =
    ((s.port p).train, (s.port p).width, x.coord, x.kind.toNat, portStatus s p x.kind.toNat x.coord) := by
  unfold recordIdentity
  extract_lets old st recorded revised
  have hrecorded : linkIdentity (recorded.port p) = ((s.port p).train, (s.port p).width, x.coord, x.kind.toNat, st) := by
    simp only [recorded, port_modPort_same]
    rfl
  have hlog (code : Nat) (detail : List Nat) (u : State) : linkIdentity ((log code detail u).port p) = linkIdentity (u.port p) :=
    log_portsSame _ _ _ _ p
  have hrevised : linkIdentity (revised.port p) = linkIdentity (recorded.port p) := by
    simp only [revised]
    split
    · exact hlog _ _ _
    · rfl
  rw [← hrecorded, ← hrevised]
  split
  · exact hlog _ _ _
  · rfl

theorem activeEntry_identity {p : PortN} {x : TrainingSet} {s : State} (hset : (s.port p).lastSet = some x)
    (h : (s.port p).train = .exchange ∧ (s.port p).ready = true ∧ (s.port p).readySeen = true) :
    linkIdentity ((activeEntry p s).port p) = (.active, ownWidth s p, x.coord, x.kind.toNat, portStatus s p x.kind.toNat x.coord) := by
  rw [activeEntry_of_ready hset h, finishEntry_portsSame, recordIdentity_identity, port_modPort_same]
  rfl

/-! ### The handshake that follows the entry (R435) -/

/-- A cell of the departure buffers takes no ledger buffer. -/
theorem enqueue_departure_only (input out index : Nat) (c : Cell) (s : State) :
    Only [.sw] s (enqueue input out departureStore index c s) := by
  have hheld : ¬(departureStore ≠ departureStore ∧ (getBuf s departureStore index).ref = 0) := fun h => h.1 rfl
  unfold enqueue
  dsimp only
  rw [if_neg hheld]
  exact setVoq_parts _ _ (List.Subset.refl _) (Only.refl _ s)

theorem sendMus_only (sub aux : Nat) (payload : Bytes) (p : PortN) (s : State) :
    Only [.ports, .sw, .dict, .sent] s (sendMus sub aux payload p s) :=
  (issueCell_parts p _ (by decide) (Only.refl _ s)).ite ((enqueue_departure_only _ _ _ _ s).mono (by simp))

theorem sendMus_portsSame (sub aux : Nat) (payload : Bytes) (p : PortN) (s : State) :
    PortsSame linkIdentity s (sendMus sub aux payload p s) := by
  have hissue (c : Cell) : PortsSame linkIdentity s (issueCell p c s) := modPort_portsSame (by exact fun _ => rfl) _
  exact (hissue _).ite (.of_only (enqueue_departure_only _ _ _ _ s) (by decide))

/-- What a handshake leaves: the identity of every port, and the host's causes. -/
def HandshakeKeeps (s t : State) : Prop := PortsSame linkIdentity s t ∧ t.host = s.host

theorem HandshakeKeeps.trans {s t u : State} (h : HandshakeKeeps s t) (g : HandshakeKeeps t u) : HandshakeKeeps s u :=
  ⟨h.1.trans g.1, g.2.trans h.2⟩

theorem modKey_handshakeKeeps (p : PortN) (f : Keying → Keying) (s : State) : HandshakeKeeps s (modKey p f s) :=
  ⟨modPort_portsSame (by exact fun _ => rfl) s, rfl⟩

theorem sendKeying_handshakeKeeps (p : PortN) (sub : Nat) (data : Bytes) (s : State) : HandshakeKeeps s (sendKeying p sub data s) := by
  have hfold (g : Nat → Nat) (h : Nat → Bytes) (l : List Nat) : HandshakeKeeps s (l.foldl (fun u i => sendMus sub (g i) (h i) p u) s) :=
    ⟨PortsSame.foldl l (fun u i => sendMus_portsSame sub (g i) (h i) p u) s,
      Only.foldl (pl := [.ports, .sw, .dict, .sent]) l (fun u i hu => hu.trans (sendMus_only sub (g i) (h i) p u)) (Only.refl _ s) .host (by decide)⟩
  exact (hfold _ _ _).trans (modKey_handshakeKeeps p _ _)

theorem drawn_handshakeKeeps (s : State) : HandshakeKeeps s (drawn s) := ⟨.refl _ s, rfl⟩

theorem startHandshake_handshakeKeeps (p : PortN) (s : State) : HandshakeKeeps s (startHandshake p s) := by
  unfold startHandshake
  extract_lets label o begun
  have hbegun : HandshakeKeeps s begun := (modKey_handshakeKeeps p _ s).trans (drawn_handshakeKeeps _)
  exact hbegun.trans (sendKeying_handshakeKeeps p _ _ _)

theorem beginKeying_handshakeKeeps (p : PortN) (s : State) : HandshakeKeeps s (beginKeying p s) := by
  unfold beginKeying
  split
  · exact startHandshake_handshakeKeeps p s
  · exact ⟨.refl _ s, rfl⟩

/-- Only a port in ACTIVE can key (R433). -/
theorem beginKeying_of_not_active {p : PortN} {s : State} (h : (s.port p).train ≠ .active) : beginKeying p s = s := by
  rw [beginKeying, if_neg]
  simp [canKey, h]

/-- Settles O10: a set without SEQ_RESET is kept and judged; the entry to ACTIVE settles the link's identity, which the steps after
it leave. -/
theorem exchangeAgreesAndEntersActive : Obligations.ExchangeAgreesAndEntersActive := by
  unfold Obligations.ExchangeAgreesAndEntersActive
  refine fun p x s => ⟨?other, ?damaged, ?valid, ?entry, ?notReady⟩
  case other =>
    intro he ha
    rw [exec_trainingSetReceive, trainingReceive, if_pos ⟨he, ha⟩]
  case damaged =>
    intro hin hbad
    rw [exec_trainingSetReceive, trainingReceive, if_neg (by tauto), if_pos (by simp [hbad])]
  case valid =>
    intro h hgood hreset
    rw [exec_trainingSetReceive, trainingReceive_of_plain h hgood hreset]
    have hport : (modPort p (keepSet x) s).port p = keepSet x (s.port p) := port_modPort_same p _ s
    have hversion : commonVersion (modPort p (keepSet x) s) x = commonVersion s x := rfl
    refine ⟨fun hv hfail => ?_, fun v hv hw => ?_⟩
    · rw [judgeExchange_of_no_version (hversion.trans hv) (by rw [hport]; exact hfail)]
      refine ⟨_, rfl, ?_, ?_, ?_⟩
      · rw [log_port, port_modPort_same, hport]
        exact h
      · rw [log_port, port_modPort_same]
      · exact ((modPort_onlyPort p _ s).trans (modPort_onlyPort p _ _)).trans ((logEvent_only _ _ _).onlyPort (by decide) p)
    · have hwidth : ownWidth (modPort p (keepSet x) s) p = widthOf (rxGood (s.port p)) x.rxGood.toNat (degradationOn s p) := by
        rw [ownWidth, hport]
        rfl
      rw [← hwidth] at hw ⊢
      obtain ⟨hagree, hframe⟩ := judgeExchange_of_agreement (hversion.trans hv) hw
      rw [hport] at hagree
      have hkept : AtPort p [.sent] s (modPort p (keepSet x) s) := (modPort_atPort p _ s).mono (by simp)
      refine ⟨_, rfl, ?_, ?_, ?_, ?_, ?_, hkept.trans hframe⟩
      · rw [hagree]
        exact h
      · rw [hagree]
        rfl
      · rw [hagree]
        rfl
      · rw [hagree, ← keepSet_sameSets]
        rfl
      · rw [hagree]
        simp [agreePort]
  case entry =>
    intro hset he hready hseen
    have hkeep := beginKeying_handshakeKeeps p (activeEntry p s)
    have hid := (hkeep.1 p).trans (activeEntry_identity hset ⟨he, hready, hseen⟩)
    simp only [linkIdentity, Prod.mk.injEq] at hid
    obtain ⟨htrain, hwidth, hcoord, hkind, hstatus⟩ := hid
    refine ⟨beginKeying p (activeEntry p s), ?_, htrain, ?_, hcoord, hkind, hstatus, ?_⟩
    · rw [exec_activeEntry, if_neg (by simp [he])]
    · rw [hwidth, ownWidth, hset]
    · rw [hkeep.2, activeEntry_of_ready hset ⟨he, hready, hseen⟩]
      exact finishEntry_cause p x _ _ _
  case notReady =>
    intro h
    have hno : ¬((s.port p).train = .exchange ∧ (s.port p).ready = true ∧ (s.port p).readySeen = true) := by
      rintro ⟨he, hr, hs⟩
      simp [he, hr, hs] at h
    rw [exec_activeEntry, activeEntry_of_not_ready hno]
    split
    · rfl
    · next ha => rw [beginKeying_of_not_active ha]

end Sys2Proof.Machine
end

section
/-! SUPPORT. Retrains, rate matching and the hold time (R77, R83, R87, R90); what a flush leaves of the ports (R128, R219). -/

namespace Sys2Proof.Machine

open Sys2Proof

/-! ### What a flush leaves of the ports (R128, R219): credits return and cells are discarded, nothing else -/

/-- A port without its credit returns and its count of cells discarded. -/
def flowless (q : Port) : Port := { q with credC := Vector.replicate 12 0, dropped := 0 }

theorem returnCredit_portsSame (stall vc : Nat) (s : State) : PortsSame flowless s (returnCredit stall vc s) := by
  unfold returnCredit
  split
  · exact PortsSame.ite (modPort_portsSame (by exact fun _ => rfl) s) (.refl _ s)
  · exact .refl _ s

theorem freeBuf_portsSame (store index : Nat) (s : State) : PortsSame flowless s (freeBuf store index s) :=
  returnCredit_portsSame store _ (setBuf store index _ s)

theorem setBuf_portsSame {α : Type} (f : Port → α) (store index : Nat) (b : Buf) (s : State) : PortsSame f s (setBuf store index b s) :=
  fun _ => rfl

theorem ledgerFault_portsSame {α : Type} (f : Port → α) (store index check : Nat) (s : State) :
    PortsSame f s (ledgerFault store index check s) :=
  .of_only (ledgerFault_parts store index check (List.Subset.refl _) (Only.refl _ s)) (by decide)

theorem releaseCopy_portsSame (store index : Nat) (s : State) : PortsSame flowless s (releaseCopy store index s) := by
  have hstay := PortsSame.refl flowless s
  exact hstay.ite ((ledgerFault_portsSame _ _ _ _ s).ite ((freeBuf_portsSame store index s).ite (setBuf_portsSame _ _ _ _ s)))

theorem giveBack_portsSame (store index : Nat) (s : State) : PortsSame flowless s (giveBack store index s) :=
  (PortsSame.refl _ s).ite ((freeBuf_portsSame store index s).ite (releaseCopy_portsSame store index s))

theorem countDropped_portsSame (p : Nat) (s : State) : PortsSame flowless s (countDropped p s) := by
  unfold countDropped
  split
  · exact modPort_portsSame (by exact fun _ => rfl) s
  · exact .refl _ s

theorem enqueue_portsSame {α : Type} (f : Port → α) (input out store index : Nat) (c : Cell) (s : State) :
    PortsSame f s (enqueue input out store index c s) :=
  .of_only (enqueue_parts input out store index c (List.Subset.refl _) (Only.refl _ s)) (by decide)

theorem answerIn_portsSame (input store index : Nat) (c : Cell) (s : State) : PortsSame flowless s (answerIn input store index c s) := by
  unfold answerIn forward
  split
  · exact enqueue_portsSame _ _ _ _ _ _ s
  · exact giveBack_portsSame store index (bump 0x3100 _ s)
  · exact (countDropped_portsSame _ s).trans (giveBack_portsSame store index _)

theorem answerFromReply_portsSame (input : Nat) (c : Cell) (s : State) : PortsSame flowless s (answerFromReply input c s) := by
  unfold answerFromReply
  split
  · exact (setBuf_portsSame _ _ _ _ s).trans (answerIn_portsSame _ _ _ _ _)
  · exact fun _ => rfl

theorem memberReset_portsSame (e : CombEntry) (j : Joiner) (s : State) : PortsSame flowless s (memberReset e j s) :=
  answerFromReply_portsSame j.input _ s

theorem flushEntries_portsSame (o : Nat) (s : State) : PortsSame flowless s (flushEntries o s) := by
  unfold flushEntries
  extract_lets mine ended
  have hended : PortsSame flowless s ended :=
    PortsSame.foldl mine (fun u e => PortsSame.foldl _ (fun v j => memberReset_portsSame e.2 j v) u) s
  exact hended

theorem flushCell_portsSame (o input : Nat) (q : QEntry) (s : State) : PortsSame flowless s (flushCell o input q s) := by
  have hcount := (PortsSame.refl flowless s).ite (c := q.store < 24) (t := bump (0x3310 + q.store) 8 s) (.refl flowless s)
  exact hcount.trans ((answerIn_portsSame _ _ _ _ _).ite (giveBack_portsSame _ _ _))

theorem flushQueues_portsSame (o : Nat) (s : State) : PortsSame flowless s (flushQueues o s) := by
  unfold flushQueues
  extract_lets mine _ flushed
  have hflushed : PortsSame flowless s flushed := flushEntries_portsSame o _
  exact hflushed.trans (PortsSame.foldl mine (fun u e => PortsSame.foldl e.2 (fun v q => flushCell_portsSame o _ q v) u) flushed)

/-! ### The loss of a member (R219) -/

theorem probesDone_portsSame (e : Nat) (s : State) : PortsSame flowless s (probesDone e s) := by
  unfold probesDone
  have hbusy (b : Busy) (u : State) (h : PortsSame flowless s u) : PortsSame flowless s (setBusy e b u) := h
  have hsettle (u : State) (h : PortsSame flowless s u) : PortsSame flowless s (settle e u) :=
    h.trans (.of_only (settle_parts e (List.Subset.refl _) (Only.refl _ u)) (by decide))
  have hback (d : Bytes) (u : State) (h : PortsSame flowless s u) : PortsSame flowless s (sendWriteBack e d u).2 :=
    h.trans (.of_only (sendWriteBack_parts e d (List.Subset.refl _) (Only.refl _ u)) (by decide))
  have hdir (d : DirEntry) : PortsSame flowless s (writeDir e d s) :=
    .of_only (writeDir_parts e d (List.Subset.refl _) (Only.refl _ s)) (by decide)
  have hrelease (c : Cell) (u : State) (h : PortsSame flowless s u) : PortsSame flowless s (windowRelease c u) :=
    h.trans (.of_only (windowRelease_parts c (List.Subset.refl _) (Only.refl _ u)) (by decide))
  have hforward (input : Nat) (q : QEntry) (k : Option Nat) (u : State) (h : PortsSame flowless s u) :
      PortsSame flowless s (forwardRequest input q k u) :=
    h.trans (.of_only (forwardRequest_parts input q k (List.Subset.refl _) (Only.refl _ u)) (by decide))
  have hanswer (input store index : Nat) (c : Cell) (u : State) (h : PortsSame flowless s u) :
      PortsSame flowless s (answerIn input store index c u) := h.trans (answerIn_portsSame _ _ _ _ u)
  split
  · exact .refl _ s
  · next b _ =>
    extract_lets written
    have hwritten : PortsSame flowless s written := hdir b.next
    split
    · split
      · exact .ite (hsettle _ hwritten) (hbusy _ _ (hback _ _ hwritten))
      · exact hsettle _ hwritten
    · split
      · refine .ite ?_ (.ite ?_ ?_)
        · extract_lets _ busy answered _
          have hanswered : PortsSame flowless s answered := hanswer _ _ _ _ _ (hbusy _ _ hwritten)
          refine .ite ?_ hanswered
          split
          · exact hbusy _ _ (hback _ _ hanswered)
          · exact hback _ _ hanswered
        · exact hbusy _ _ (hback _ _ hwritten)
        · exact hforward _ _ _ _ (hrelease _ _ (hbusy _ _ hwritten))
      · exact hforward _ _ _ _ (hrelease _ _ (hbusy _ _ hwritten))

theorem probeAnswered_portsSame (tag : Nat) (data : Option Bytes) (s : State) : PortsSame flowless s (probeAnswered tag data s) := by
  unfold probeAnswered
  split
  · exact .refl _ s
  · next q _ =>
    extract_lets forgotten
    have hforgotten : PortsSame flowless s forgotten := fun _ => rfl
    split
    · exact hforgotten
    · extract_lets b busy
      have hbusy : PortsSame flowless s busy := hforgotten
      exact hbusy.maybe (probesDone_portsSame _ _)

theorem loseMember_portsSame (m : Nat) (s : State) : PortsSame flowless s (loseMember m s) := by
  unfold loseMember
  split
  · extract_lets walks
    have hmasked : PortsSame flowless s
        (modGrotto (fun g => { g with lostMask := g.lostMask ||| oneMember m, walks := walks }) s) := fun _ => rfl
    have hcleaned (l : List (Nat × Probe)) (u : State) : PortsSame flowless u (l.foldl (fun v e => probeAnswered e.1 none v) u) :=
      PortsSame.foldl l (fun v e => probeAnswered_portsSame e.1 none v) u
    exact hmasked.trans (hcleaned _ _)
  · exact .refl _ s

/-! ### HOLD_EXPIRY (R87) -/

theorem exec_holdExpiry (p : PortN) (s : State) : exec (.holdExpiry p) s = .next (holdExpiry p s) := rfl

theorem changeEndPoint_portsSame {α : Type} (f : Port → α) (p : PortN) (s : State) : PortsSame f s (changeEndPoint p s) :=
  .of_only (changeEndPoint_parts p (List.Subset.refl _) (Only.refl _ s)) (by decide)

theorem memberDrop_portsSame {α : Type} (f : Port → α) (p : Nat) (s : State) : PortsSame f s (memberDrop p s) :=
  .of_only (memberDrop_parts p (List.Subset.refl _) (Only.refl _ s)) (by decide)

theorem markLostAt_portsSame {α : Type} (f : Port → α) (c : BitVec 16) (s : State) : PortsSame f s (markLostAt c s) :=
  .of_only (markLostAt_parts c (List.Subset.refl _) (Only.refl _ s)) (by decide)

theorem flushPort_portsSame (p : PortN) (s : State) : PortsSame flowless s (flushPort p s) := by
  unfold flushPort
  extract_lets flushed
  have hflushed : PortsSame flowless s flushed :=
    ((flushQueues_portsSame p.val s).trans (loseMember_portsSame p.val _)).trans (changeEndPoint_portsSame _ p _)
  exact hflushed.maybe (markLostAt_portsSame _ _ _)

/-- SEQ_RESET restarts the sequences of its port; the loss of the member leaves the rest of the port. -/
theorem seqReset_portsSame (p : PortN) (s : State) : PortsSame flowless (discardReplay p s) (seqReset p s) :=
  ((loseMember_portsSame p.val _).trans (memberDrop_portsSame _ _ _)).trans (changeEndPoint_portsSame _ p _)

/-- What the hold time decides of a port: replay buffer, sequences, SEQ_RESET, its flag and itself, and PORT_STATUS. -/
def holdState (q : Port) : List (BitVec 12 × Cell) × BitVec 12 × BitVec 12 × Bool × Bool × Bool × Nat :=
  (q.replay, q.nextSeq, q.expSeq, q.sendReset, q.holdExpired, q.holding, q.status)

/-- The port once the hold time has run out. -/
def expirePort (q : Port) : Port := { q with holding := false, holdExpired := true, sendReset := true }

theorem holdExpiry_of_running {p : PortN} {s : State} (h : (s.port p).holding = true ∧ (s.port p).train ≠ .active) :
    ∃ u : State, u.port p = expirePort ((seqReset p (log 0x2004 [p.val, (s.port p).replay.length] s)).port p) ∧
      holdExpiry p s = flushPort p (noPartner p u) := by
  have hport := port_modPort_same p expirePort (seqReset p (log 0x2004 [p.val, (s.port p).replay.length] s))
  rw [holdExpiry, if_pos h]
  exact ⟨_, ((sendTraining_portsSame id p _).ite (.refl id _) p).trans hport, rfl⟩

theorem seqReset_sequences (p : PortN) (s : State) : ((seqReset p s).port p).replay = [] ∧ ((seqReset p s).port p).nextSeq = 0 ∧
    ((seqReset p s).port p).expSeq = 0 := by
  have hkept := seqReset_portsSame p s
  rw [hkept.field Port.replay (fun _ => rfl), hkept.field Port.nextSeq (fun _ => rfl), hkept.field Port.expSeq (fun _ => rfl),
    discardReplay, port_modPort_same]
  exact ⟨rfl, rfl, rfl⟩

theorem holdExpiry_holdState {p : PortN} {s : State} (h : (s.port p).holding = true ∧ (s.port p).train ≠ .active) :
    holdState ((holdExpiry p s).port p) = ([], 0, 0, true, true, false, 0) := by
  obtain ⟨u, hu, heq⟩ := holdExpiry_of_running h
  obtain ⟨hreplay, hnext, hexp⟩ := seqReset_sequences p (log 0x2004 [p.val, (s.port p).replay.length] s)
  rw [heq, (flushPort_portsSame p _).field holdState (fun _ => rfl), noPartner, port_modPort_same, hu]
  simp only [holdState, expirePort, hreplay, hnext, hexp]

/-! ### Retrains and rate matching (R77, R83, R90) -/

/-- The state after the write that requests a retrain. -/
def requestRetrain (src : Route) (p : PortN) (v : BitVec 8) (s : State) : State := onlyOne src (portIndex p 2) 6 v.toNat (beginOp s)

theorem exec_retrainRequest (src : Route) (p : PortN) (v : BitVec 8) (s : State) : exec (.retrainRequest src p v) s = .next
    (if ((requestRetrain src p v s).port p).train = .exchange ∨ ((requestRetrain src p v s).port p).train = .active
      then toLock true p (requestRetrain src p v s) else requestRetrain src p v s) := rfl

theorem requestRetrain_only (src : Route) (p : PortN) (v : BitVec 8) (s : State) :
    Only [.dict, .host, .sent] s (requestRetrain src p v s) := Only.of_beginOp (onlyOne_only _ _ _ _ _)

theorem exec_elasticFault (p : PortN) (s : State) : exec (.elasticFault p) s = .next (elasticFault p s) := rfl

theorem exec_skipSetReceive (p : PortN) (fill : Nat) (s : State) : exec (.skipSetReceive p fill) s = .next
    (if (s.port p).train = .exchange ∨ (s.port p).train = .active then skipSet p fill s else s) := rfl

/-- From `s` to `t` the port has gone to LOCK with its fault flagged and counted. -/
def ElasticRestart (p : PortN) (s t : State) : Prop :=
  (t.port p).train = .lock ∧ (t.port p).elasticFault = true ∧
    odGet t (portIndex p 8) 3 = min (2 ^ 64 - 1) (odGet s (portIndex p 8) 3 + 1) ∧ OnlyPort p s t

theorem elasticFault_restarts {p : PortN} {s : State} (h : (s.port p).train = .exchange ∨ (s.port p).train = .active) :
    ElasticRestart p s (elasticFault p s) := by
  rw [elasticFault, if_pos h]
  have hcount : OnlyPort p s (bump (portIndex p 8) 3 s) := (bump_only _ _ s).onlyPort (by decide) p
  refine ⟨toLock_train false p _, ?_, ?_, (hcount.trans (modPort_onlyPort p _ _)).trans (toLock_onlyPort false p _)⟩
  · rw [(toLock_portsSame false p _).field Port.elasticFault (fun _ => rfl) p, port_modPort_same]
  · exact (toLock_entries false p _ _ _ (by decide) (by simp)).trans (odGet_bump_same (portIndex p 8) 3 s)

/-- A skip set first keeps its fill. -/
def keepFill (p : PortN) (fill : Nat) (s : State) : State := modPort p (fun q => { q with fill := fill }) s

theorem keepFill_port (p : PortN) (fill : Nat) (s : State) : (keepFill p fill s).port p = { s.port p with fill := fill } :=
  port_modPort_same p _ s

theorem skipSet_restarts {p : PortN} {fill : Nat} {s : State} (h : (s.port p).train = .exchange ∨ (s.port p).train = .active)
    (hfill : fill = 0 ∨ 32 ≤ fill) : ElasticRestart p s (skipSet p fill s) := by
  have heq : skipSet p fill s = elasticFault p (keepFill p fill s) := if_pos hfill
  have hport : ((keepFill p fill s).port p).train = (s.port p).train := by rw [keepFill_port]
  obtain ⟨htrain, hflag, hcount, honly⟩ := elasticFault_restarts (s := keepFill p fill s) (by rw [hport]; exact h)
  rw [heq]
  exact ⟨htrain, hflag, hcount, (modPort_onlyPort p _ s).trans honly⟩

/-- The three ranges of a fill that faults nothing: a deleted FIL, nothing, a gap (R77). -/
theorem skipSet_of_fill {p : PortN} {fill : Nat} (hpos : 0 < fill) (hle : fill < 32) (s : State) : skipSet p fill s =
    if 20 ≤ fill then bump (portIndex p 8) 1 (keepFill p fill s)
    else if fill ≤ 12 then bump (portIndex p 8) 2 (keepFill p fill s) else keepFill p fill s :=
  if_neg (by omega)

theorem skipSet_counts {p : PortN} {fill : Nat} (hpos : 0 < fill) (hle : fill < 32) (s : State) :
    (skipSet p fill s).port p = { s.port p with fill := fill } ∧ AtPort p [.dict] s (skipSet p fill s) ∧
      odGet (skipSet p fill s) (portIndex p 8) 1 =
        (if 20 ≤ fill then min (2 ^ 64 - 1) (odGet s (portIndex p 8) 1 + 1) else odGet s (portIndex p 8) 1) ∧
      odGet (skipSet p fill s) (portIndex p 8) 2 =
        (if fill ≤ 12 then min (2 ^ 64 - 1) (odGet s (portIndex p 8) 2 + 1) else odGet s (portIndex p 8) 2) := by
  have hkept : AtPort p [.dict] s (keepFill p fill s) := (modPort_atPort p _ s).mono (by simp)
  have hbump (j : Nat) : AtPort p [.dict] s (bump (portIndex p 8) j (keepFill p fill s)) :=
    hkept.trans (Only.atPort (bump_only _ _ _) (by decide))
  have hother {i j : Nat} (hi : i < 256) (hj : j < 256) (hne : i ≠ j) :
      odGet (bump (portIndex p 8) j (keepFill p fill s)) (portIndex p 8) i = odGet s (portIndex p 8) i :=
    bump_entries _ _ _ hj _ _ hi (by simp [hne])
  rw [skipSet_of_fill hpos hle]
  by_cases hhigh : 20 ≤ fill
  · rw [if_pos hhigh, if_pos hhigh, if_neg (by omega)]
    exact ⟨keepFill_port p fill s, hbump 1, odGet_bump_same _ _ _, hother (by decide) (by decide) (by decide)⟩
  · rw [if_neg hhigh, if_neg hhigh]
    by_cases hlow : fill ≤ 12
    · rw [if_pos hlow, if_pos hlow]
      exact ⟨keepFill_port p fill s, hbump 2, hother (by decide) (by decide) (by decide), odGet_bump_same _ _ _⟩
    · rw [if_neg hlow, if_neg hlow]
      exact ⟨keepFill_port p fill s, hkept, rfl, rfl⟩

/-- Settles O11: a restart is `toLock`, which clears the marks only for a retrain request (R83); the end of the hold time restarts
the sequences, and the flush after it leaves them. -/
theorem retrainElasticFaultAndHoldTime : Obligations.RetrainElasticFaultAndHoldTime := by
  unfold Obligations.RetrainElasticFaultAndHoldTime
  intro p s
  have hrequest (src : Route) (v : BitVec 8) := requestRetrain_only src p v s
  have hport (src : Route) (v : BitVec 8) : (requestRetrain src p v s).port p = s.port p := (hrequest src v).port (by decide) p
  refine ⟨fun h => ⟨fun src v => ?retrain, ?elastic, fun fill hpos hle => ?fill⟩,
    fun he ha => ⟨fun src v => ?noRetrain, ?noElastic, fun fill => ?noFill⟩,
    fun hhold ha => ?expire, fun h => ?noExpire⟩
  case retrain =>
    refine ⟨toLock true p (requestRetrain src p v s), ?_, toLock_train true p _, fun l => ?_,
      ((hrequest src v).onlyPort (by decide) p).trans (toLock_onlyPort true p _)⟩
    · rw [exec_retrainRequest, hport, if_pos h]
    · rw [toLock_lane]
      rfl
  case elastic =>
    have hskip (fill : Nat) (hfill : fill = 0 ∨ 32 ≤ fill) : ∃ t, exec (.skipSetReceive p fill) s = .next t ∧ ElasticRestart p s t :=
      ⟨skipSet p fill s, by rw [exec_skipSetReceive, if_pos h], skipSet_restarts h hfill⟩
    change ∀ c ∈ ([.elasticFault p, .skipSetReceive p 0, .skipSetReceive p 32] : List Instr),
      ∃ t, exec c s = .next t ∧ ElasticRestart p s t
    simp only [List.forall_mem_cons]
    exact ⟨⟨_, exec_elasticFault p s, elasticFault_restarts h⟩, hskip 0 (by decide), hskip 32 (by decide), by simp⟩
  case fill =>
    exact ⟨skipSet p fill s, by rw [exec_skipSetReceive, if_pos h], skipSet_counts hpos hle s⟩
  case noRetrain =>
    refine ⟨requestRetrain src p v s, ?_, hrequest src v .ports (by decide)⟩
    rw [exec_retrainRequest, hport, if_neg (by tauto)]
  case noElastic => rw [exec_elasticFault, elasticFault, if_neg (by tauto)]
  case noFill => rw [exec_skipSetReceive, if_neg (by tauto)]
  case expire =>
    have hstate := holdExpiry_holdState ⟨hhold, ha⟩
    simp only [holdState, Prod.mk.injEq] at hstate
    exact ⟨holdExpiry p s, exec_holdExpiry p s, hstate⟩
  case noExpire =>
    rw [exec_holdExpiry, holdExpiry, if_neg]
    rintro ⟨hhold, ha⟩
    simp [hhold, ha] at h

end Sys2Proof.Machine
end

section
/-! SUPPORT. Sidebands, acknowledgements and replays (R66, R84, R86). -/

namespace Sys2Proof.Machine

open Sys2Proof

/-! ### Acknowledgements (R84) -/

theorem takeAck_atPort (p : PortN) (ack : BitVec 12) (s : State) : AtPort p [] s (takeAck p ack s) := by
  unfold takeAck
  dsimp only
  split
  · exact .refl p [] s
  · split
    · exact modPort_atPort p _ s
    · exact .refl p [] s

theorem takeAck_of_empty {p : PortN} {s : State} (h : (s.port p).replay = []) (ack : BitVec 12) : takeAck p ack s = s := by
  simp only [takeAck, h]

/-- The port once `n` cells of its replay buffer are acknowledged. -/
def dropAcked (n : Nat) (q : Port) : Port := { q with replay := q.replay.drop n, replayCount := 0 }

theorem takeAck_of_head {p : PortN} {s : State} {seq0 : BitVec 12} {c : Cell} (h : (s.port p).replay.head? = some (seq0, c))
    (ack : BitVec 12) : takeAck p ack s =
      if (ack - seq0).toNat < (s.port p).replay.length then modPort p (dropAcked ((ack - seq0).toNat + 1)) s else s := by
  obtain ⟨r, hr⟩ := List.head?_eq_some_iff.mp h
  simp only [takeAck, hr, Nat.add_one_le_iff]
  rfl

/-! ### Sidebands (R66, R84) -/

/-- A new report of the partner's count is progress of its nodes (R455). -/
def noteCredit (p : PortN) (e : Nat × Nat) (s : State) : State :=
  if (s.port p).credR.toList.getD e.1 none = some e.2 then s else progress (.partner p.val e.1) (progress (.credit p.val e.1) s)

/-- The reports of a sideband, one after another. -/
def noteCredits (p : PortN) (b : BitVec 128) (s : State) : State := (sideCredits b).foldl (fun u e => noteCredit p e u) s

/-- The port with the credits that a sideband reports. -/
def creditPort (b : BitVec 128) (q : Port) : Port :=
  { q with credR := (sideCredits b).foldl (fun r e =>
      if credited e.1 && decide (e.1 < 12) then r.setIfInBounds e.1 (some e.2) else r) q.credR }

/-- The credits that a sideband reports are taken. -/
def takeCredits (p : PortN) (b : BitVec 128) (s : State) : State := modPort p (creditPort b) (noteCredits p b s)

theorem takeSideband_eq (p : PortN) (b : BitVec 128) (s : State) : takeSideband p b s =
    if sideNak b then nakTaken p (sideAck b) (takeCredits p b s) else takeAck p (sideAck b) (takeCredits p b s) := rfl

theorem noteCredit_only (p : PortN) (e : Nat × Nat) (s : State) : Only [.lantern] s (noteCredit p e s) := by
  unfold noteCredit
  split
  · exact Only.refl _ s
  · exact progress_parts _ (List.Subset.refl _) (progress_parts _ (List.Subset.refl _) (Only.refl _ s))

theorem noteCredits_only (p : PortN) (b : BitVec 128) (s : State) : Only [.lantern] s (noteCredits p b s) := by
  unfold noteCredits
  exact Only.foldl _ (fun u e hu => hu.trans (noteCredit_only p e u)) (Only.refl _ s)

theorem takeCredits_port (p : PortN) (b : BitVec 128) (s : State) : (takeCredits p b s).port p = creditPort b (s.port p) := by
  rw [takeCredits, port_modPort_same, (noteCredits_only p b s).port (by decide)]

theorem takeCredits_atPort (p : PortN) (b : BitVec 128) (s : State) : AtPort p [.lantern] s (takeCredits p b s) :=
  ((noteCredits_only p b s).atPort (by decide)).trans ((modPort_atPort p _ _).mono (by simp))

/-- A good sideband without a NAK: the credits, and the cells it acknowledges. -/
theorem takeSideband_of_ack {b : BitVec 128} (h : sideNak b = false) (p : PortN) (s : State) :
    takeSideband p b s = takeAck p (sideAck b) (takeCredits p b s) := by
  rw [takeSideband_eq, if_neg (by simp [h])]

/-! ### IDLE_SLOT_RECEIVE (R66) -/

theorem exec_idleSlotReceive (p : PortN) (b : Block) (s : State) : exec (.idleSlotReceive p b) s = .next (idleReceive p b s) := rfl

/-- With no key of the partner waiting there is none to decide (R436). -/
theorem decideKey_of_none {p : PortN} {s : State} (h : (s.port p).key.rxPend = none) (b : Block) (opens : Option Bytes → Bool) :
    decideKey p b opens s = s := by
  simp only [decideKey, h]

theorem idleReceive_of_good {p : PortN} {b : Block} {s : State} (h : (s.port p).train = .active) (hdamaged : b.damaged = false)
    (hkey : (s.port p).key.rxPend = none) (hgood : idleGood (s.port p).key.rxKey b = true) :
    idleReceive p b s = takeSideband p b.sideband s := by
  rw [idleReceive, if_neg (by simp [h, hdamaged]), decideKey_of_none hkey]
  exact if_pos hgood

/-! ### Replays (R86) -/

theorem exec_ackTimeout (p : PortN) (s : State) : exec (.ackTimeout p) s = .next (replayFrom p true s) := rfl

theorem exec_nakReceive (p : PortN) (ack : BitVec 12) (s : State) : exec (.nakReceive p ack) s =
    .next (replayFrom p false (takeAck p ack (bump (portIndex p 7) 5 s))) := rfl

theorem replayFrom_of_idle {p : PortN} {s : State} (h : (s.port p).replay = [] ∨ (s.port p).train ≠ .active) (timeout : Bool) :
    replayFrom p timeout s = s := by
  unfold replayFrom
  dsimp only
  split
  · rfl
  · next hr =>
    have hactive : (s.port p).train ≠ .active := h.resolve_left (by simp [hr])
    rw [if_pos hactive]

/-- The ninth replay from one SEQ is an exhaustion. -/
theorem replayFrom_of_exhausted {p : PortN} {s : State} {seq0 : BitVec 12} {c : Cell} (hhead : (s.port p).replay.head? = some (seq0, c))
    (h : (s.port p).train = .active) (hlast : (s.port p).replaySeq = seq0 ∧ 8 ≤ (s.port p).replayCount) (timeout : Bool) :
    replayFrom p timeout s = toLock false p (log 0x2004 [p.val, 0] (bump (portIndex p 7) 8 s)) := by
  obtain ⟨r, hr⟩ := List.head?_eq_some_iff.mp hhead
  unfold replayFrom
  simp only [hr, h, hlast.1, hlast.2, ne_eq, not_true_eq_false, if_false, if_true]

/-- The port at the start of a replay. -/
def startReplay (seq0 : BitVec 12) (q : Port) : Port :=
  { q with replaySeq := seq0, replayCount := (if q.replaySeq = seq0 then q.replayCount else 0) + 1 }

theorem replayFrom_of_room {p : PortN} {s : State} {seq0 : BitVec 12} {c : Cell} (hhead : (s.port p).replay.head? = some (seq0, c))
    (h : (s.port p).train = .active) (hroom : ¬((s.port p).replaySeq = seq0 ∧ 8 ≤ (s.port p).replayCount)) (timeout : Bool) :
    replayFrom p timeout s = resendCells p (if timeout then bump (portIndex p 7) 7 (modPort p (startReplay seq0) s)
      else modPort p (startReplay seq0) s) := by
  obtain ⟨r, hr⟩ := List.head?_eq_some_iff.mp hhead
  have hcount : ¬8 ≤ (if (s.port p).replaySeq = seq0 then (s.port p).replayCount else 0) := by
    split
    · next hseq => exact fun hle => hroom ⟨hseq, hle⟩
    · omega
  unfold replayFrom
  simp only [hr, h, ne_eq, not_true_eq_false, if_false, hcount]
  rfl

/-- A replay's exhaustion takes the port to LOCK and is counted. -/
theorem exhaustion_locks (p : PortN) (s : State) :
    ((toLock false p (log 0x2004 [p.val, 0] (bump (portIndex p 7) 8 s))).port p).train = .lock ∧
      odGet (toLock false p (log 0x2004 [p.val, 0] (bump (portIndex p 7) 8 s))) (portIndex p 7) 8 =
        min (2 ^ 64 - 1) (odGet s (portIndex p 7) 8 + 1) := by
  have hlog := log_entries p 0x2004 [p.val, 0] (bump (portIndex p 7) 8 s)
  have hlock := toLock_entries false p (log 0x2004 [p.val, 0] (bump (portIndex p 7) 8 s))
  refine ⟨toLock_train false p _, (hlock _ _ (by decide) (by simp)).trans ?_⟩
  exact (hlog _ _ (by decide) (portCounter_not_suspectEntry p (by decide) 8)).trans (odGet_bump_same (portIndex p 7) 8 s)

/-- The cells of a replay buffer as they leave again. -/
def replayed (p : PortN) (q : Port) : List Out := q.replay.map (fun e => Out.cell p.val e.1.toNat (q.expSeq - 1).toNat e.2)

theorem foldl_emit_sent {α : Type} (f : α → Out) (l : List α) (s : State) :
    (l.foldl (fun u e => emit (f e) u) s).sent = (l.map f).reverse ++ s.sent := by
  induction l generalizing s with
  | nil => rfl
  | cons x r ih => simp [ih]

theorem foldl_emit_only {α : Type} (f : α → Out) (l : List α) (s : State) : Only [.sent] s (l.foldl (fun u e => emit (f e) u) s) :=
  Only.foldl l (fun _ e h => emit_parts (f e) (List.Subset.refl _) h) (Only.refl _ s)

theorem resendCells_sent (p : PortN) (s : State) : (resendCells p s).sent = (replayed p (s.port p)).reverse ++ s.sent :=
  foldl_emit_sent _ _ (bumpN (portIndex p 7) 6 _ s)

theorem resendCells_entries (p : PortN) (s : State) : OnlyEntries [(portIndex p 7, 6)] s (resendCells p s) := by
  have hcount : OnlyEntries [(portIndex p 7, 6)] s (bumpN (portIndex p 7) 6 (s.port p).replay.length s) :=
    odSet_entries _ _ _ _ (by decide)
  exact hcount.trans (((foldl_emit_only _ _ _).entries (by decide)).mono (by simp))

/-- From `s` to `t` a replay from `seq0` has been counted in the counter `j` and every cell of the buffer sent again. -/
def Replays (p : PortN) (seq0 : BitVec 12) (j : Nat) (s t : State) : Prop :=
  (t.port p).replay = (s.port p).replay ∧ (t.port p).replaySeq = seq0 ∧ t.sent = (replayed p (s.port p)).reverse ++ s.sent ∧
    odGet t (portIndex p 7) j = min (2 ^ 64 - 1) (odGet s (portIndex p 7) j + 1) ∧ AtPort p [.dict, .sent] s t

theorem resendCells_replays {p : PortN} {seq0 : BitVec 12} {j : Nat} {s u : State} (hj : j < 256) (hne : j ≠ 6)
    (hport : u.port p = startReplay seq0 (s.port p)) (hsent : u.sent = s.sent)
    (hcount : odGet u (portIndex p 7) j = min (2 ^ 64 - 1) (odGet s (portIndex p 7) j + 1)) (hframe : AtPort p [.dict] s u) :
    Replays p seq0 j s (resendCells p u) := by
  have hkept : (resendCells p u).port p = startReplay seq0 (s.port p) := (resendCells_portsSame id p u p).trans hport
  have hresend : AtPort p [.dict, .sent] u (resendCells p u) :=
    Only.atPort (resendCells_parts p (List.Subset.refl _) (Only.refl _ u)) (by decide)
  refine ⟨by rw [hkept]; rfl, by rw [hkept]; rfl, ?_, ?_, (hframe.mono (by simp)).trans hresend⟩
  · rw [resendCells_sent, hport, hsent]
    rfl
  · rw [resendCells_entries p u _ _ hj (by simp [hne]), hcount]

theorem bump_atPort (p : PortN) (i j : Nat) (s : State) : AtPort p [.dict] s (bump i j s) := (bump_only i j s).atPort (by decide)

theorem ackTimeout_replays {p : PortN} {s : State} {seq0 : BitVec 12} {c : Cell} (hhead : (s.port p).replay.head? = some (seq0, c))
    (h : (s.port p).train = .active) (hroom : ¬((s.port p).replaySeq = seq0 ∧ 8 ≤ (s.port p).replayCount)) :
    Replays p seq0 7 s (replayFrom p true s) := by
  rw [replayFrom_of_room hhead h hroom, if_pos rfl]
  have hframe : AtPort p [.dict] s (modPort p (startReplay seq0) s) := (modPort_atPort p _ s).mono (by simp)
  exact resendCells_replays (by decide) (by decide) (port_modPort_same p _ s) rfl
    (odGet_bump_same (portIndex p 7) 7 (modPort p (startReplay seq0) s)) (hframe.trans (bump_atPort p _ _ _))

/-- An ACK one behind the oldest cell acknowledges nothing of a buffer of up to 4,095 cells. -/
theorem takeAck_of_behind {p : PortN} {s : State} {seq0 : BitVec 12} {c : Cell} (hhead : (s.port p).replay.head? = some (seq0, c))
    (hlen : (s.port p).replay.length < 4096) : takeAck p (seq0 - 1) s = s := by
  have hback : (seq0 - 1 - seq0).toNat = 4095 := by
    rw [sub_right_comm, sub_self]
    rfl
  rw [takeAck_of_head hhead, hback, if_neg (by omega)]

theorem exec_nakReceive_of_behind {p : PortN} {s : State} {seq0 : BitVec 12} {c : Cell}
    (hhead : (s.port p).replay.head? = some (seq0, c)) (hlen : (s.port p).replay.length < 4096) :
    exec (.nakReceive p (seq0 - 1)) s = .next (replayFrom p false (bump (portIndex p 7) 5 s)) := by
  rw [exec_nakReceive, takeAck_of_behind (s := bump (portIndex p 7) 5 s) hhead hlen]

theorem nak_replays {p : PortN} {s : State} {seq0 : BitVec 12} {c : Cell} (hhead : (s.port p).replay.head? = some (seq0, c))
    (h : (s.port p).train = .active) (hroom : ¬((s.port p).replaySeq = seq0 ∧ 8 ≤ (s.port p).replayCount)) :
    Replays p seq0 5 s (replayFrom p false (bump (portIndex p 7) 5 s)) := by
  rw [replayFrom_of_room (s := bump (portIndex p 7) 5 s) hhead h hroom, if_neg (by decide)]
  exact resendCells_replays (by decide) (by decide) (port_modPort_same p _ _) rfl (odGet_bump_same (portIndex p 7) 5 s)
    ((bump_atPort p _ _ s).trans ((modPort_atPort p _ _).mono (by simp)))

theorem acknowledged_frame (p : PortN) (b : Block) (s : State) :
    (takeAck p (sideAck b.sideband) (takeCredits p b.sideband s)).sent = s.sent ∧
      ((takeAck p (sideAck b.sideband) (takeCredits p b.sideband s)).port p).expSeq = (s.port p).expSeq ∧
      AtPort p [.lantern] s (takeAck p (sideAck b.sideband) (takeCredits p b.sideband s)) := by
  have hframe : AtPort p [.lantern] s (takeAck p (sideAck b.sideband) (takeCredits p b.sideband s)) :=
    (takeCredits_atPort p _ s).trans ((takeAck_atPort p _ _).mono (by simp))
  have hexp : PortsSame Port.expSeq (takeCredits p b.sideband s) (takeAck p (sideAck b.sideband) (takeCredits p b.sideband s)) :=
    takeAck_portsSame (fun _ _ _ => rfl) p _ _
  refine ⟨hframe.2 .sent (by decide), ?_, hframe⟩
  rw [hexp p, takeCredits_port]
  rfl

/-- Settles O16: a sideband without a NAK is `takeAck` after the credits; a NAK and the timer start the same replay, each with its
counter. -/
theorem sidebandsAndReplays : Obligations.SidebandsAndReplays := by
  unfold Obligations.SidebandsAndReplays
  refine fun p s => ⟨fun b => ⟨?ignored, ?good⟩, ?idle, fun seq0 c hhead h hlen => ⟨?exhausted, ?replay⟩⟩
  case ignored =>
    intro h
    rw [exec_idleSlotReceive, idleReceive, if_pos h]
  case good =>
    intro h hdamaged hkey hnak hgood
    obtain ⟨hsent, hexp, hframe⟩ := acknowledged_frame p b s
    have hreplay : ((takeCredits p b.sideband s).port p).replay = (s.port p).replay := by
      rw [takeCredits_port]
      rfl
    refine ⟨_, ?_, hsent, hexp, hframe, fun hempty => ?_, fun seq0 c hhead => ?_⟩
    · rw [exec_idleSlotReceive, idleReceive_of_good h hdamaged hkey hgood, takeSideband_of_ack hnak]
    · rw [takeAck_of_empty (hreplay.trans hempty), hreplay, hempty]
    · rw [takeAck_of_head (hreplay.symm ▸ hhead), hreplay]
      refine ⟨fun hcovered => ?_, fun hfar => ?_⟩
      · rw [if_pos hcovered, port_modPort_same, dropAcked, hreplay]
        exact ⟨rfl, rfl⟩
      · rw [if_neg (by omega), hreplay]
  case idle =>
    intro h
    rw [exec_ackTimeout, replayFrom_of_idle h]
  case exhausted =>
    intro hlast
    rw [exec_nakReceive_of_behind hhead hlen, exec_ackTimeout, replayFrom_of_exhausted hhead h hlast,
      replayFrom_of_exhausted (s := bump (portIndex p 7) 5 s) hhead h hlast]
    have hcount : odGet (bump (portIndex p 7) 5 s) (portIndex p 7) 8 = odGet s (portIndex p 7) 8 :=
      bump_entries _ _ s (by decide) _ _ (by decide) (by simp)
    refine ⟨⟨_, rfl, exhaustion_locks p s⟩, ⟨_, rfl, ?_⟩⟩
    rw [← hcount]
    exact exhaustion_locks p _
  case replay =>
    intro hroom
    exact ⟨⟨_, exec_ackTimeout p s, ackTimeout_replays hhead h hroom⟩, ⟨_, exec_nakReceive_of_behind hhead hlen, nak_replays hhead h hroom⟩⟩

end Sys2Proof.Machine
end

section
/-! SUPPORT. Cells in sequence (R85, R98, R436). -/

namespace Sys2Proof.Machine

open Sys2Proof

/-- What a port knows of the sequence it receives: expected SEQ, an open error, cells staged and cells discarded. -/
def received (q : Port) : BitVec 12 × Bool × List (Option Nat × Cell) × Nat := (q.expSeq, q.inError, q.staged, q.dropped)

/-! ### A sideband leaves the sequence of the cells received -/

/-- A replay is not started, is an exhaustion, or sends the buffer again. -/
theorem replayFrom_cases (p : PortN) (timeout : Bool) (s : State) :
    replayFrom p timeout s = s ∨ replayFrom p timeout s = toLock false p (log 0x2004 [p.val, 0] (bump (portIndex p 7) 8 s)) ∨
      ∃ seq0, replayFrom p timeout s = resendCells p (if timeout then bump (portIndex p 7) 7 (modPort p (startReplay seq0) s)
        else modPort p (startReplay seq0) s) := by
  by_cases hidle : (s.port p).replay = [] ∨ (s.port p).train ≠ .active
  · exact .inl (replayFrom_of_idle hidle timeout)
  · obtain ⟨hne, hactive⟩ := not_or.mp hidle
    obtain ⟨⟨seq0, c⟩, r, hr⟩ := List.exists_cons_of_ne_nil hne
    have hhead : (s.port p).replay.head? = some (seq0, c) := by rw [hr, List.head?_cons]
    by_cases hlast : (s.port p).replaySeq = seq0 ∧ 8 ≤ (s.port p).replayCount
    · exact .inr (.inl (replayFrom_of_exhausted hhead (not_not.mp hactive) hlast timeout))
    · exact .inr (.inr ⟨seq0, replayFrom_of_room hhead (not_not.mp hactive) hlast timeout⟩)

theorem replayFrom_received (p : PortN) (timeout : Bool) (s : State) :
    received ((replayFrom p timeout s).port p) = received (s.port p) := by
  obtain h | h | ⟨seq0, h⟩ := replayFrom_cases p timeout s
  · rw [h]
  · rw [h, (toLock_portsSame false p _).field received (fun _ => rfl), log_port, bump_port]
  · have hstart : received ((modPort p (startReplay seq0) s).port p) = received (s.port p) := by
      rw [port_modPort_same]
      rfl
    rw [h, resendCells_portsSame received p _ p, ← hstart]
    cases timeout <;> rfl

theorem takeAck_received (p : PortN) (ack : BitVec 12) (s : State) : received ((takeAck p ack s).port p) = received (s.port p) :=
  takeAck_portsSame (fun _ _ _ => rfl) p ack s p

theorem takeSideband_received (p : PortN) (b : BitVec 128) (s : State) :
    received ((takeSideband p b s).port p) = received (s.port p) := by
  have hcredits : received ((takeCredits p b s).port p) = received (s.port p) := by
    rw [takeCredits_port]
    rfl
  cases h : sideNak b with
  | true =>
    rw [takeSideband_eq, if_pos h, nakTaken, replayFrom_received, takeAck_received, bump_port, hcredits]
  | false =>
    rw [takeSideband_of_ack h, takeAck_received, hcredits]

/-! ### One NAK an error (R85) -/

/-- The port with an open error. -/
def openError (q : Port) : Port := { q with inError := true }

theorem sendNak_of_error {p : PortN} {s : State} (h : (s.port p).inError = true) : sendNak p s = s := if_pos h

theorem sendNak_of_none {p : PortN} {s : State} (h : (s.port p).inError = false) : sendNak p s =
    emit (.nak p.val ((s.port p).expSeq - 1).toNat) (modPort p openError (bump (portIndex p 7) 4 s)) := if_neg (by simp [h])

theorem sendNak_port (p : PortN) (s : State) : (sendNak p s).port p = openError (s.port p) := by
  cases h : (s.port p).inError with
  | true =>
    rw [sendNak_of_error h, openError, ← h]
  | false =>
    rw [sendNak_of_none h]
    exact port_modPort_same p openError (bump (portIndex p 7) 4 s)

theorem sendNak_sent (p : PortN) (s : State) :
    (sendNak p s).sent = if (s.port p).inError = true then s.sent else .nak p.val ((s.port p).expSeq - 1).toNat :: s.sent := by
  cases h : (s.port p).inError with
  | true => rw [sendNak_of_error h, if_pos rfl]
  | false =>
    rw [sendNak_of_none h]
    rfl

theorem sendNak_entries (p : PortN) (s : State) : OnlyEntries [(portIndex p 7, 4)] s (sendNak p s) := by
  cases h : (s.port p).inError with
  | true =>
    rw [sendNak_of_error h]
    exact OnlyEntries.refl _ s
  | false =>
    rw [sendNak_of_none h]
    exact bump_entries (portIndex p 7) 4 s (by decide)

theorem sendNak_atPort (p : PortN) (s : State) : AtPort p [.dict, .sent] s (sendNak p s) := by
  cases h : (s.port p).inError with
  | true =>
    rw [sendNak_of_error h]
    exact .refl p _ s
  | false =>
    have hcount := (bump_atPort p (portIndex p 7) 4 s).trans ((modPort_atPort p openError _).mono (by simp))
    have hsent (o : Out) (u : State) : AtPort p [.dict, .sent] u (emit o u) :=
      Only.atPort (emit_parts o (by decide) (Only.refl _ u)) (by decide)
    rw [sendNak_of_none h]
    exact (hcount.mono (by simp)).trans (hsent _ _)

/-! ### CELL_RECEIVE (R85) -/

theorem exec_cellReceive (p : PortN) (b : Block) (s : State) : exec (.cellReceive p b) s = .next (cellReceive p b s) := rfl

/-- A block that fails the check of a key is counted for the key (R445). -/
def countTag (p : PortN) (s : State) : State := if (s.port p).key.rxKey.isSome then bump (0x6040 + p.val) 2 s else s

theorem cellReceive_of_bad {p : PortN} {b : Block} {s : State} (h : (s.port p).train = .active) (hkey : (s.port p).key.rxPend = none)
    (hbad : blockCell b (s.port p).key.rxKey = none) :
    cellReceive p b s = sendNak p (bump (portIndex p 7) 3 (countTag p s)) := by
  rw [cellReceive, if_neg (by simp [h]), decideKey_of_none hkey]
  simp only [hbad]
  rfl

theorem cellReceive_of_good {p : PortN} {b : Block} {s : State} {c : Cell} (h : (s.port p).train = .active)
    (hkey : (s.port p).key.rxPend = none) (hgood : blockCell b (s.port p).key.rxKey = some c) :
    cellReceive p b s = acceptCell p b c (takeSideband p b.sideband s) := by
  rw [cellReceive, if_neg (by simp [h]), decideKey_of_none hkey]
  simp only [hgood]

theorem countTag_only (p : PortN) (s : State) : Only [.dict] s (countTag p s) := (bump_only _ _ s).ite (Only.refl _ s)

theorem countTag_entries (p : PortN) (s : State) : OnlyEntries [(0x6040 + p.val, 2)] s (countTag p s) :=
  (bump_entries _ _ s (by decide)).ite (OnlyEntries.refl _ s)

/-- The place in the sequence: expected SEQ and an open error. -/
def sequence (q : Port) : BitVec 12 × Bool := (q.expSeq, q.inError)

/-- Staging an accepted cell leaves the sequence. -/
theorem stageCell_portsSame (p : PortN) (c : Cell) (s : State) : PortsSame sequence s (stageCell p c s) := by
  have hstage (i : Option Nat) (u : State) : PortsSame sequence u (modPort p (fun q => { q with staged := q.staged ++ [(i, c)] }) u) :=
    modPort_portsSame (by exact fun _ => rfl) u
  have hdiscard : PortsSame sequence s (countDiscard p s) := modPort_portsSame (by exact fun _ => rfl) s
  have halloc : PortsSame sequence s (allocBuf p c.vc.toNat c.tenant.toNat c s).2 :=
    .of_only (allocBuf_parts p _ _ c (List.Subset.refl _) (Only.refl _ s)) (by decide)
  unfold stageCell
  refine .ite hdiscard (.ite ?_ (hstage none s))
  split
  · next i u h =>
    rw [h] at halloc
    exact halloc.trans (hstage (some i) u)
  · next u h =>
    rw [h] at halloc
    exact halloc

/-- The port once the cell that it expected has come. -/
def advanceSeq (q : Port) : Port := { q with expSeq := q.expSeq + 1, inError := false }

/-- The three ends of a cell whose check holds (R85). -/
theorem acceptCell_eq (p : PortN) (b : Block) (c : Cell) (s : State) : acceptCell p b c s =
    if sideSeq b.sideband = (s.port p).expSeq then stageCell p c (modPort p advanceSeq (bump (portIndex p 7) 2 s))
    else if (sideSeq b.sideband - (s.port p).expSeq).toNat < 2048 then sendNak p s else countDiscard p s := rfl

theorem countDiscard_port (p : PortN) (s : State) : (countDiscard p s).port p = { s.port p with dropped := (s.port p).dropped + 1 } :=
  port_modPort_same p _ s

theorem acceptCell_of_expected {p : PortN} {b : Block} {s : State} (h : sideSeq b.sideband = (s.port p).expSeq) (c : Cell) :
    sequence ((acceptCell p b c s).port p) = ((s.port p).expSeq + 1, false) := by
  rw [acceptCell_eq, if_pos h, stageCell_portsSame, port_modPort_same]
  rfl

theorem acceptCell_of_other {p : PortN} {b : Block} {s : State} (h : sideSeq b.sideband ≠ (s.port p).expSeq) (c : Cell) :
    received ((acceptCell p b c s).port p) =
      if (sideSeq b.sideband - (s.port p).expSeq).toNat < 2048 then
        ((s.port p).expSeq, true, (s.port p).staged, (s.port p).dropped)
      else ((s.port p).expSeq, (s.port p).inError, (s.port p).staged, (s.port p).dropped + 1) := by
  rw [acceptCell_eq, if_neg h]
  split
  · rw [sendNak_port]
    rfl
  · rw [countDiscard_port]
    rfl

/-- A block that does not check: one error counted, one NAK unless an error is open (R85). -/
theorem badBlock_counted (p : PortN) (s : State) :
    (sendNak p (bump (portIndex p 7) 3 (countTag p s))).port p = openError (s.port p) ∧
      (sendNak p (bump (portIndex p 7) 3 (countTag p s))).sent =
        (if (s.port p).inError = true then s.sent else .nak p.val ((s.port p).expSeq - 1).toNat :: s.sent) ∧
      odGet (sendNak p (bump (portIndex p 7) 3 (countTag p s))) (portIndex p 7) 3 =
        min (2 ^ 64 - 1) (odGet s (portIndex p 7) 3 + 1) ∧
      AtPort p [.dict, .sent] s (sendNak p (bump (portIndex p 7) 3 (countTag p s))) := by
  have htag := countTag_only p s
  have hport : (bump (portIndex p 7) 3 (countTag p s)).port p = s.port p := htag.port (by decide) p
  have hsent : (bump (portIndex p 7) 3 (countTag p s)).sent = s.sent := htag .sent (by decide)
  have hcount : odGet (countTag p s) (portIndex p 7) 3 = odGet s (portIndex p 7) 3 := countTag_entries p s _ _ (by decide) (by simp)
  have hframe : AtPort p [.dict] s (bump (portIndex p 7) 3 (countTag p s)) := (htag.atPort (by decide)).trans (bump_atPort p _ _ _)
  refine ⟨by rw [sendNak_port, hport], by rw [sendNak_sent, hport, hsent], ?_, (hframe.mono (by simp)).trans (sendNak_atPort p _)⟩
  rw [sendNak_entries p _ _ _ (by decide) (by simp), odGet_bump_same, hcount]

/-- Settles O15: the sideband of a good block leaves the sequence, and its cell is accepted by its SEQ; a bad block is `sendNak`
after its counters. -/
theorem cellsAreTakenInSequence : Obligations.CellsAreTakenInSequence := by
  unfold Obligations.CellsAreTakenInSequence
  refine fun p b s => ⟨fun h => ?other, fun h hkey => ⟨fun hbad => ?bad, fun c hgood => ?good⟩⟩
  case other => rw [exec_cellReceive, cellReceive, if_pos h]
  case bad =>
    obtain ⟨hport, hsent, hcount, hframe⟩ := badBlock_counted p s
    rw [exec_cellReceive, cellReceive_of_bad h hkey hbad]
    exact ⟨_, rfl, by rw [hport]; rfl, by rw [hport]; rfl, by rw [hport]; rfl, hsent, hcount, hframe⟩
  case good =>
    have hside := takeSideband_received p b.sideband s
    simp only [received, Prod.mk.injEq] at hside
    obtain ⟨hexp, herror, hstaged, hdropped⟩ := hside
    rw [exec_cellReceive, cellReceive_of_good h hkey hgood]
    refine ⟨_, rfl, fun hseq => ?_, fun hseq => ?_⟩
    · have hnext := acceptCell_of_expected (b := b) (hseq.trans hexp.symm) c
      simpa only [sequence, Prod.mk.injEq, hexp] using hnext
    · have hkept := acceptCell_of_other (b := b) (s := takeSideband p b.sideband s) (by rw [hexp]; exact hseq) c
      rw [hexp, herror, hstaged, hdropped] at hkept
      split at hkept
      · next hnear =>
        simp only [received, Prod.mk.injEq] at hkept
        obtain ⟨hexp', herror', hstaged', -⟩ := hkept
        rw [if_pos hnear]
        exact ⟨hexp', hstaged', herror'⟩
      · next hfar =>
        simp only [received, Prod.mk.injEq] at hkept
        obtain ⟨hexp', herror', hstaged', hdropped'⟩ := hkept
        rw [if_neg hfar]
        exact ⟨hexp', hstaged', hdropped', herror'⟩

end Sys2Proof.Machine
end

section
/-! SUPPORT. The bytes of a cell's header (R4, R95): fields of bytes as ranges of bits, the round trips, and the table of R95. -/

namespace Sys2Proof.Machine

open Sys2Proof

/-! ### Little-endian fields (R4) -/

/-- Without its lowest bytes, what is left are the bytes of the number shifted down. -/
theorem drop_natLe (i n v : Nat) : (natLe n v).drop i = natLe (n - i) (v >>> (8 * i)) := by
  induction i generalizing n v with
  | zero => simp
  | succ i ih =>
    cases n with
    | zero => simp [natLe]
    | succ n =>
      have hshift : v >>> (8 * (i + 1)) = (v / 256) >>> (8 * i) := by
        rw [Nat.mul_succ, Nat.add_comm, Nat.shiftRight_add, Nat.shiftRight_eq_div_pow v 8]
      simp [natLe, ih, hshift]

theorem take_natLe {m n : Nat} (h : m ≤ n) (v : Nat) : (natLe n v).take m = natLe m v := by
  induction m generalizing n v with
  | zero => simp [natLe]
  | succ m ih =>
    cases n with
    | zero => omega
    | succ n => simp [natLe, ih (Nat.le_of_succ_le_succ h)]

/-- A field of bytes is the number of its bits. -/
theorem fieldAt_natLe {w n i m : Nat} (h : i + m ≤ n) (x : BitVec w) :
    fieldAt (natLe n x.toNat) i m = (x.extractLsb' (8 * i) (8 * m)).toNat := by
  rw [fieldAt, drop_natLe, take_natLe (by omega), leNat_natLe, BitVec.extractLsb'_toNat]

/-! ### Ranges of bits -/

/-- A range of bits in two parts, the low one of `a` bits. -/
theorem toNat_extractLsb'_add {w : Nat} (k a b : Nat) (x : BitVec w) :
    (x.extractLsb' k (a + b)).toNat = 2 ^ a * (x.extractLsb' (k + a) b).toNat + (x.extractLsb' k a).toNat := by
  simp only [BitVec.extractLsb'_toNat, Nat.shiftRight_add, Nat.shiftRight_eq_div_pow _ a]
  rw [Nat.pow_add, Nat.mod_mul, Nat.add_comm]

theorem ofBool_getLsbD {w : Nat} (x : BitVec w) (i : Nat) : BitVec.ofBool (x.getLsbD i) = x.extractLsb' i 1 := by
  rw [BitVec.getLsbD_eq_extractLsb']
  generalize x.extractLsb' i 1 = y
  revert y
  decide

theorem toNat_getLsbD {w : Nat} (x : BitVec w) (i : Nat) : (x.getLsbD i).toNat = (x.extractLsb' i 1).toNat := by
  rw [← ofBool_getLsbD, BitVec.toNat_ofBool]

theorem ofBool_beq_one (b : Bool) : (BitVec.ofBool b == 1#1) = b := by
  cases b <;> rfl

/-! ### The round trips -/

/-- Each field is read from the bits that it was packed into: the ranges are those of the fields joined. -/
theorem unpackHeader_packHeader (c : Cell) : unpackHeader (packHeader c) c.payload = c := by
  unfold unpackHeader packHeader
  simp (disch := omega) only [BitVec.getLsbD_eq_extractLsb', BitVec.extractLsb'_append_eq_of_add_le, BitVec.extractLsb'_append_eq_of_le]
  simp [ofBool_beq_one]

/-- Adjacent ranges of bits join, from AUX down to ADDR. -/
theorem packHeader_unpackHeader {h : BitVec 256} (hzero : h.extractLsb' 170 6 = 0) (b : Bytes) : packHeader (unpackHeader h b) = h := by
  unfold unpackHeader packHeader
  rw [show (0#6) = h.extractLsb' 170 6 from hzero.symm]
  simp (disch := omega) only [ofBool_getLsbD, BitVec.extractLsb'_append_extractLsb'_eq_extractLsb']
  simp

/-! ### The table (R95) -/

/-- The header bytes hold the fields of a cell where the table of R95 places them. -/
def HeaderTable (b : Bytes) (c : Cell) : Prop :=
  fieldAt b 0 8 = c.addr.toNat ∧ fieldAt b 8 2 = c.src.toNat ∧
    fieldAt b 10 1 = 16 * c.vc.toNat + c.ver.toNat ∧ fieldAt b 11 1 = 32 * c.scope.toNat + c.op.toNat ∧
    fieldAt b 12 1 = 16 * c.tenant.toNat + c.sub.toNat ∧
    fieldAt b 13 1 = 16 * c.hops.toNat + 8 * c.nonmin.toNat + 2 * c.cmark.toNat + c.epoch.toNat ∧
    fieldAt b 14 1 = c.via.toNat ∧ fieldAt b 15 1 = c.len.toNat ∧ fieldAt b 16 2 = c.tag.toNat ∧
    fieldAt b 18 3 = c.tally.toNat ∧ fieldAt b 21 1 = 2 * c.pad.toNat + c.last.toNat ∧
    fieldAt b 22 2 = c.window.toNat ∧ fieldAt b 24 4 = 16 * c.chunk.toNat + c.cell.toNat ∧
    fieldAt b 28 4 = c.aux.toNat

/-- The reserved bits of a packed header are 0. -/
theorem packHeader_reserved (c : Cell) : (packHeader c).extractLsb' 170 6 = 0 := by
  unfold packHeader
  simp (disch := omega) only [BitVec.extractLsb'_append_eq_of_add_le, BitVec.extractLsb'_append_eq_of_le]
  simp

theorem headerTable_unpackHeader {h : BitVec 256} (hzero : h.extractLsb' 170 6 = 0) (b : Bytes) :
    HeaderTable (natLe 32 h.toNat) (unpackHeader h b) := by
  have hfield {i m : Nat} (hm : i + m ≤ 32) := fieldAt_natLe hm h
  have htwo (i m a d : Nat) (hm : i + m ≤ 32) (hsum : 8 * m = a + d) : fieldAt (natLe 32 h.toNat) i m =
      2 ^ a * (h.extractLsb' (8 * i + a) d).toNat + (h.extractLsb' (8 * i) a).toNat := by
    rw [hfield hm, hsum, toNat_extractLsb'_add]
  have hpath : fieldAt (natLe 32 h.toNat) 13 1 = 16 * (h.extractLsb' 108 4).toNat + 8 * (h.getLsbD 107).toNat +
      2 * (h.extractLsb' 105 2).toNat + (h.extractLsb' 104 1).toNat := by
    rw [htwo 13 1 4 4 (by decide) rfl, toNat_extractLsb'_add 104 3 1, toNat_extractLsb'_add 104 1 2, toNat_getLsbD]
    simp only [Nat.reduceMul, Nat.reduceAdd]
    omega
  have hlast : fieldAt (natLe 32 h.toNat) 21 1 = 2 * (h.getLsbD 169).toNat + (h.getLsbD 168).toNat := by
    rw [htwo 21 1 2 6 (by decide) rfl, hzero, toNat_extractLsb'_add 168 1 1, toNat_getLsbD, toNat_getLsbD]
    simp
  exact ⟨hfield (by decide), hfield (by decide), htwo 10 1 4 4 (by decide) rfl, htwo 11 1 5 3 (by decide) rfl,
    htwo 12 1 4 4 (by decide) rfl, hpath, hfield (by decide), hfield (by decide), hfield (by decide), hfield (by decide), hlast,
    hfield (by decide), htwo 24 4 4 28 (by decide) rfl, hfield (by decide)⟩

theorem headerTable_headerBytes (c : Cell) : HeaderTable (headerBytes c) c := by
  have htable := headerTable_unpackHeader (packHeader_reserved c) c.payload
  rwa [unpackHeader_packHeader] at htable

/-- Settles O60: packing joins the fields in the order of the table, so each is read from its own range of bits, and the ranges
of a header join to the header. -/
theorem headerPacksEveryField : Obligations.HeaderPacksEveryField := by
  unfold Obligations.HeaderPacksEveryField
  exact ⟨unpackHeader_packHeader, fun h b hzero => ⟨packHeader_unpackHeader hzero b, rfl⟩,
    fun c => ⟨natLe_length 32 _, headerTable_headerBytes c⟩⟩

end Sys2Proof.Machine
end

section
/-! SUPPORT. Route banks and their tables (R112, R115, R118), cells that a GV24 issues to a link (R84, R106), `TIM` cells and
epoch notices (R119, R120). -/

namespace Sys2Proof.Machine

open Sys2Proof

/-! ### Banks (R112, R115) -/

theorem bank_congr {s t : State} (h : t.routes = s.routes) (b : Nat) : bank t b = bank s b := by
  rw [bank, bank, h]

/-- A change outside the routes leaves both banks. -/
theorem Only.bank {l : List Part} {s t : State} (h : Only l s t) (g : Part.routes ∉ l) (b : Nat) : bank t b = bank s b :=
  bank_congr (h .routes g) b

theorem bank_modBank_same (b : Nat) (f : RouteBank → RouteBank) (s : State) : bank (modBank b f s) b = f (bank s b) := by
  by_cases h : b = 0 <;> simp [bank, modBank, h]

theorem bank_modBank_other {a b : Nat} (h : a + b = 1) (f : RouteBank → RouteBank) (s : State) :
    bank (modBank a f s) b = bank s b := by
  by_cases ha : a = 0
  · simp [bank, modBank, ha, show b = 1 by omega]
  · simp [bank, modBank, ha, show b = 0 by omega]

theorem modBank_only (b : Nat) (f : RouteBank → RouteBank) (s : State) : Only [.routes] s (modBank b f s) :=
  modBank_parts b f (List.Subset.refl _) (Only.refl _ s)

theorem targetBank_add (s : State) : targetBank s + (1 - targetBank s) = 1 := Nat.add_sub_of_le (Nat.sub_le 1 _)

/-! ### Member entries (R112, R118) -/

/-- A legal port number is kept as it is. -/
theorem clampMember_of_port {v : Nat} (h : v < 24) : clampMember v = (v, []) := by
  have hhigh : bits v 8 56 = 0 := by
    unfold bits
    omega
  have hlow : bits v 0 8 = v := by
    unfold bits
    omega
  simp [clampMember, clampField, hhigh, hlow, show ¬24 ≤ v by omega]

/-- A bank with a port number in a member entry. -/
def setMember (i v : Nat) (b : RouteBank) : RouteBank := { b with member := mapSet b.member i (BitVec.ofNat 64 v) }

theorem memberEntry_setMember_same (i : Nat) {v : Nat} (h : v < 24) (b : RouteBank) : memberEntry (setMember i v b) i = v := by
  simp only [memberEntry, setMember, mapGet_mapSet_same, Option.getD_some, BitVec.toNat_ofNat]
  omega

theorem memberEntry_setMember_ne {i j : Nat} (h : j ≠ i) (v : Nat) (b : RouteBank) :
    memberEntry (setMember i v b) j = memberEntry b j := by
  simp only [memberEntry, setMember, mapGet_mapSet_ne _ _ _ _ h]

theorem routeEntryKeep_member {v : Nat} (h : v < 24) (src : Route) (i : Nat) (s : State) :
    routeEntryKeep src 2 i v s = modBank (targetBank s) (setMember i v) s := by
  simp only [routeEntryKeep, clampMember_of_port h]
  rfl

/-! ### RTD_ROUTE_ENTRIES (R118) -/

theorem exec_rtdRouteEntries (p : PortN) (c : Cell) (s : State) : exec (.rtdRouteEntries p c) s = .next (rtdEntries p c s) := rfl

theorem takeFrom_port (p : PortN) (c : Cell) (s : State) :
    (takeFrom p c s).port p = { s.port p with taken := (s.port p).taken.erase c } := port_modPort_same p _ s

theorem takeFrom_atPort (p : PortN) (c : Cell) (s : State) : AtPort p [] s (takeFrom p c s) := modPort_atPort p _ s

/-- RTD is permitted, the partner is a local GV24, the target bank is IDLE and the layout legal. -/
def RtdTaken (p : PortN) (c : Cell) (s : State) : Prop :=
  odGet s 0x3100 8 = 1 ∧ role s p = 2 ∧ (s.port p).partnerKind = 2 ∧ (bank s (targetBank s)).state = .idle ∧ rtdLayout c = true

/-- Whether a cell is taken does not depend on the list of cells that wait at the port. -/
theorem rtdTaken_takeFrom (p : PortN) (c : Cell) (s : State) : RtdTaken p c (takeFrom p c s) ↔ RtdTaken p c s := by
  unfold RtdTaken
  rw [takeFrom_port]
  rfl

theorem rtdEntries_of_refused {p : PortN} {c : Cell} {s : State} (h : ¬RtdTaken p c s) :
    rtdEntries p c s = bump 0x3100 0x18 (takeFrom p c s) := if_neg (mt (rtdTaken_takeFrom p c s).mp h)

theorem rtdEntries_of_taken {p : PortN} {c : Cell} {s : State} (h : RtdTaken p c s) : rtdEntries p c s =
    (List.range (fieldAt (payloadBytes c) 2 1)).foldl (fun u k => routeEntryKeep .rtd (fieldAt (payloadBytes c) 0 1)
      (fieldAt (payloadBytes c) 1 1 + k) (fieldAt (payloadBytes c) (8 + 8 * k) 8) u) (takeFrom p c s) :=
  if_pos ((rtdTaken_takeFrom p c s).mpr h)

theorem rtdEntries_of_member {p : PortN} {c : Cell} {s : State} (h : RtdTaken p c s) (htable : fieldAt (payloadBytes c) 0 1 = 2)
    (hcount : fieldAt (payloadBytes c) 2 1 = 1) (hport : fieldAt (payloadBytes c) 8 8 < 24) :
    rtdEntries p c s =
      modBank (targetBank s) (setMember (fieldAt (payloadBytes c) 1 1) (fieldAt (payloadBytes c) 8 8)) (takeFrom p c s) := by
  rw [rtdEntries_of_taken h, hcount, htable]
  exact routeEntryKeep_member hport .rtd _ _

/-! ### A cell issued to a link (R84, R106) -/

/-- The port once a cell is issued to it. -/
def issued (c : Cell) (q : Port) : Port :=
  { q with
    replay := q.replay ++ [(q.nextSeq, c)], nextSeq := q.nextSeq + 1,
    credS := if credited c.vc.toNat then q.credS.setIfInBounds c.vc.toNat ((q.credS.toList.getD c.vc.toNat 0 + 1) % 65536) else q.credS,
    rttLimited := q.rttLimited || decide (2048 ≤ q.replay.length + 1) }

theorem issueCell_port (p : PortN) (c : Cell) (s : State) : (issueCell p c s).port p = issued c (s.port p) := port_modPort_same p _ _

theorem issueCell_sent (p : PortN) (c : Cell) (s : State) :
    (issueCell p c s).sent = .cell p.val (s.port p).nextSeq.toNat ((s.port p).expSeq - 1).toNat c :: s.sent := rfl

theorem issueCell_atPort (p : PortN) (c : Cell) (s : State) : AtPort p [.dict, .sent] s (issueCell p c s) :=
  ⟨fun q hq => port_modPort_ne p q _ _ hq, issueCell_parts p c (by decide) (Only.refl _ s)⟩

theorem issueCell_entries (p : PortN) (c : Cell) (s : State) : OnlyEntries [(portIndex p 7, 1)] s (issueCell p c s) :=
  bump_entries (portIndex p 7) 1 s (by decide)

theorem issued_credS {c : Cell} (h : c.vc = 11) (q : Port) :
    (issued c q).credS.toList.getD 11 0 = (q.credS.toList.getD 11 0 + 1) % 65536 := by
  simp [issued, h, credited]

/-- A cell of VC11 uses one credit of the port. -/
theorem creditFor_issueCell {p : PortN} {c : Cell} {s : State} (hvc : c.vc = 11) (hcredit : 0 < creditFor s p 11) :
    creditFor (issueCell p c s) p 11 = creditFor s p 11 - 1 := by
  have hreported : (issued c (s.port p)).credR = (s.port p).credR := rfl
  unfold creditFor at hcredit ⊢
  rw [issueCell_port, hreported, issued_credS hvc]
  cases hreport : (s.port p).credR.toList.getD 11 none with
  | none => rfl
  | some n =>
    simp only [hreport] at hcredit ⊢
    omega

theorem creditFor_of_vc11Open {s : State} {p : PortN} (h : vc11Open s p = true) : 0 < creditFor s p 11 := by
  simp only [vc11Open, Bool.and_eq_true, decide_eq_true_eq] at h
  exact h.2

/-! ### TIM_SEND and TIM_RECEIVE (R120) -/

theorem exec_timSend (p : PortN) (s : State) : exec (.timSend p) s = .next (timSend p s) := rfl

theorem timSend_of_open {p : PortN} {s : State} (hrole : role s p ≠ 0) (h : vc11Open s p = true) :
    timSend p s = issueCell p (timCell s p) s := if_pos ⟨hrole, h⟩

theorem timSend_of_closed {p : PortN} {s : State} (h : role s p = 0 ∨ vc11Open s p = false) : timSend p s = s := by
  refine if_neg fun ⟨hrole, hopen⟩ => ?_
  rcases h with h | h
  · exact hrole h
  · simp [h] at hopen

theorem exec_timReceive (p : PortN) (c : Cell) (s : State) : exec (.timReceive p c) s = .next (timReceive p c s) := rfl

theorem timReceive_entries (p : PortN) (c : Cell) (s : State) :
    OnlyEntries [(0x4010 + p.val, 9), (0x4010 + p.val, 0xA)] s (timReceive p c s) :=
  ((odSet_entries (0x4010 + p.val) 0xA _ (takeFrom p c s) (by decide)).mono (by simp)).trans
    ((odSet_entries _ _ _ _ (by decide)).mono (by simp))

theorem timReceive_atPort (p : PortN) (c : Cell) (s : State) : AtPort p [.dict] s (timReceive p c s) :=
  ⟨(takeFrom_atPort p c s).1, timReceive_parts p c (List.Subset.refl _) (Only.refl _ s)⟩

theorem timReceive_words (p : PortN) (c : Cell) (s : State) :
    odGet (timReceive p c s) (0x4010 + p.val) 9 = fieldAt (payloadBytes c) 0 4 ∧
      odGet (timReceive p c s) (0x4010 + p.val) 0xA = fieldAt (payloadBytes c) 4 4 := by
  refine ⟨odGet_odSet_same .., ?_⟩
  rw [timReceive, odGet_odSet_ne _ _ _ _ _ _ (by simp [odKey]), odGet_odSet_same]

/-! ### EPOCH_NOTICE_REPEAT (R119) -/

theorem exec_epochNoticeRepeat (p : PortN) (s : State) : exec (.epochNoticeRepeat p) s = .next (sendNotice p s) := rfl

theorem sendNotice_of_open {p : PortN} {s : State} {e tick : Nat} (hnotice : (s.port p).notice = some (e, tick))
    (h : vc11Open s p = true) : sendNotice p s = issueCell p (noticeCell s (coord s p.val) e tick) s := by
  simp only [sendNotice, hnotice, h, if_true]

theorem sendNotice_of_closed {p : PortN} {s : State} (h : (s.port p).notice = none ∨ vc11Open s p = false) : sendNotice p s = s := by
  unfold sendNotice
  split
  · next hnotice =>
    rcases h with h | h
    · simp [h] at hnotice
    · simp [h]
  · rfl

/-- Settles O20: a cell that is not taken is counted, one member entry is one write of the target bank; `TIM` cells and notices
are cells issued to the link. -/
theorem linkLocalCells : Obligations.LinkLocalCells := by
  unfold Obligations.LinkLocalCells
  refine fun p s => ⟨fun c => ⟨fun h => ?refused, fun hpermit hrole hpartner hidle hlayout htable hcount hport _ => ?taken, ?received⟩,
    fun h => ?silent, fun hrole hopen => ?sent, fun h => ?quiet, fun e tick hnotice hopen => ?repeated⟩
  case refused =>
    have hrefused : ¬RtdTaken p c s := by
      simpa only [RtdTaken, not_and_or, Bool.not_eq_true] using h
    rw [exec_rtdRouteEntries, rtdEntries_of_refused hrefused]
    refine ⟨_, rfl, odGet_bump_same .., ?_, ?_⟩
    · exact congrArg Port.taken (takeFrom_port p c s)
    · exact ((takeFrom_atPort p c s).mono (by simp)).trans (bump_atPort p _ _ _)
  case taken =>
    have hbank := bank_modBank_same (targetBank s) (setMember (fieldAt (payloadBytes c) 1 1) (fieldAt (payloadBytes c) 8 8)) (takeFrom p c s)
    rw [exec_rtdRouteEntries, rtdEntries_of_member ⟨hpermit, hrole, hpartner, hidle, hlayout⟩ htable hcount hport]
    refine ⟨_, rfl, ?_, fun i hi => ?_, ?_, ?_, ?_⟩
    · rw [hbank, memberEntry_setMember_same _ hport]
    · rw [hbank, memberEntry_setMember_ne hi]
      rfl
    · rw [hbank]
      rfl
    · rw [hbank]
      rfl
    · exact ((takeFrom_atPort p c s).mono (by simp)).trans ((modBank_only _ _ _).atPort (by decide))
  case received =>
    obtain ⟨hstatus, hphase⟩ := timReceive_words p c s
    exact ⟨_, exec_timReceive p c s, hstatus, hphase, timReceive_entries p c s, timReceive_atPort p c s⟩
  case silent => rw [exec_timSend, timSend_of_closed h]
  case sent =>
    rw [exec_timSend, timSend_of_open hrole hopen]
    have hport := issueCell_port p (timCell s p) s
    exact ⟨_, rfl, issueCell_sent .., congrArg Port.replay hport, congrArg Port.nextSeq hport,
      creditFor_issueCell rfl (creditFor_of_vc11Open hopen), issueCell_atPort ..⟩
  case quiet => rw [exec_epochNoticeRepeat, sendNotice_of_closed h]
  case repeated =>
    rw [exec_epochNoticeRepeat, sendNotice_of_open hnotice hopen]
    have hport := issueCell_port p (noticeCell s (coord s p.val) e tick) s
    exact ⟨_, rfl, congrArg Port.replay hport, (congrArg Port.notice hport).trans rfl, issueCell_atPort ..⟩

end Sys2Proof.Machine
end

section
/-! SUPPORT. Route banks that are armed, become ACTIVE, drain and are copied; epoch notices of the resident BEP (R115–R119, R123). -/

namespace Sys2Proof.Machine

open Sys2Proof

/-- The bank that writes do not go to is the one named current. -/
theorem other_of_current {s : State} (h : s.routes.current ≤ 1) : 1 - targetBank s = s.routes.current := Nat.sub_sub_self h

/-! ### ROUTE_ARM_WRITE (R55, R116) -/

theorem exec_routeArmWrite (src : Route) (v : BitVec 64) (s : State) :
    exec (.routeArmWrite src v) s = .next (routeArmWrite src v.toNat s) := rfl

/-- Every tick is a multiple of 1: a tick is kept as it is, or as 0 where it is too near. -/
theorem armTick_one {v : Nat} (h : v < 2 ^ 64) (ft : Nat) : armTick ft 1 v = if v < ft + 1024 then 0 else v := by
  have hceil : ceilTo 1 v = v := by simp [ceilTo]
  simp only [armTick, hceil, Nat.not_le.mpr h, or_false]

/-- An operation begins; an ARMED target bank is IDLE again. -/
def disarmTarget (s : State) : State :=
  if (bank s (targetBank s)).state = .armed then modBank (targetBank s) (fun b => { b with state := .idle }) (beginOp s) else beginOp s

theorem routeArmWrite_zero (src : Route) (s : State) : routeArmWrite src 0 s = odSet 0x3100 4 0 (disarmTarget s) := by
  have hbegun : bank (beginOp s) (targetBank (beginOp s)) = bank s (targetBank s) := rfl
  rw [routeArmWrite, if_pos rfl, hbegun, disarmTarget]
  split <;> rfl

theorem disarmTarget_not_armed (s : State) : (bank (disarmTarget s) (targetBank s)).state ≠ .armed := by
  unfold disarmTarget
  split
  · simp [bank_modBank_same]
  · assumption

theorem disarmTarget_other (s : State) : bank (disarmTarget s) (1 - targetBank s) = bank s (1 - targetBank s) := by
  unfold disarmTarget
  split
  · exact bank_modBank_other (targetBank_add s) _ _
  · rfl

theorem disarmTarget_only (s : State) : Only [.routes, .dict] s (disarmTarget s) := by
  have hbegun : Only [.routes, .dict] s (beginOp s) := (beginOp_only s).mono (by simp)
  exact Only.ite (hbegun.trans ((modBank_only _ _ _).mono (by simp))) hbegun

theorem routeArmWrite_of_refused {src : Route} {v : Nat} {s : State} (hv : v ≠ 0)
    (h : (bank s (targetBank s)).state ≠ .idle ∨ (bank s (1 - targetBank s)).state = .draining) :
    routeArmWrite src v s = refuseRule s := (if_neg hv).trans (if_pos h)

/-- The arm tick is kept, and the target bank is ARMED where it is not 0. -/
def armTarget (src : Route) (v kept : Nat) (s : State) : State :=
  let u := keepArm src 0x3100 4 v kept (beginOp s)
  if kept = 0 then u else modBank (targetBank s) (fun b => { b with state := .armed }) u

theorem routeArmWrite_of_idle {src : Route} {v : Nat} {s : State} (hv : v ≠ 0) (hidle : (bank s (targetBank s)).state = .idle)
    (hother : (bank s (1 - targetBank s)).state ≠ .draining) :
    routeArmWrite src v s = armTarget src v (armTick s.time.ft 1 v) s := by
  have hopen : ¬((bank s (targetBank s)).state ≠ .idle ∨ (bank s (1 - targetBank s)).state = .draining) := by
    simp [hidle, hother]
  exact (if_neg hv).trans (if_neg hopen)

section
variable (src : Route) (v kept : Nat) (s : State)

theorem keepArm_bank (b : Nat) : bank (keepArm src 0x3100 4 v kept (beginOp s)) b = bank s b :=
  (keepArm_only src 0x3100 4 v kept (beginOp s)).bank (by decide) b

theorem odGet_armTarget : odGet (armTarget src v kept s) 0x3100 4 = kept := by
  have hkept := odGet_keepArm src 0x3100 4 v kept (beginOp s) (by decide) (by decide)
  unfold armTarget
  dsimp only
  split
  · exact hkept
  · exact ((modBank_only _ _ _).entries (by decide) _ _ (by decide) (by simp)).trans hkept

theorem armTarget_target (hidle : (bank s (targetBank s)).state = .idle) : bank (armTarget src v kept s) (targetBank s) =
    { bank s (targetBank s) with state := if kept = 0 then .idle else .armed } := by
  unfold armTarget
  dsimp only
  split
  · rw [keepArm_bank, ← hidle]
  · rw [bank_modBank_same, keepArm_bank]

theorem armTarget_other : bank (armTarget src v kept s) (1 - targetBank s) = bank s (1 - targetBank s) := by
  unfold armTarget
  dsimp only
  split
  · exact keepArm_bank ..
  · rw [bank_modBank_other (targetBank_add s), keepArm_bank]

theorem armTarget_only : Only [.routes, .dict, .host, .sent] s (armTarget src v kept s) := by
  have hkept := ((beginOp_only s).mono (m := [.routes, .dict, .host, .sent]) (by simp)).trans
    ((keepArm_only src 0x3100 4 v kept (beginOp s)).mono (by simp))
  exact Only.ite hkept (hkept.trans ((modBank_only _ _ _).mono (by simp)))

end

/-! ### ROUTE_BANK_SWITCH (R115, R116, R119) -/

theorem exec_routeBankSwitch (s : State) : exec .routeBankSwitch s = .next (routeBankSwitch s) := rfl

theorem routeBankSwitch_of_none {s : State} (h : odGet s 0x3100 4 = 0) : routeBankSwitch s = s := if_pos h

/-- FT moves to the arm tick, which returns to 0. -/
def reachArm (s : State) : State := odSet 0x3100 4 0 (advanceTo (odGet s 0x3100 4) s)

theorem reachArm_only (s : State) : Only [.time, .dict] s (reachArm s) :=
  odSet_parts _ _ _ (by decide) (advanceTo_parts _ (by decide) (.refl _ s))

theorem reachArm_bank (s : State) (b : Nat) : bank (reachArm s) b = bank s b := (reachArm_only s).bank (by decide) b

/-- A bank that leaves ACTIVE at the tick `ft`. -/
def drainFrom (ft : Nat) (b : RouteBank) : RouteBank := if b.state = .active then { b with state := .draining, left := ft } else b

theorem drainFrom_group (ft : Nat) (b : RouteBank) : (drainFrom ft b).group = b.group := by
  unfold drainFrom
  split <;> rfl

/-- Bank `t` becomes current and ACTIVE, and an ACTIVE other bank drains. -/
def switchBanks (t : Nat) (s : State) : State :=
  let u := modBank (1 - t) (drainFrom s.time.ft) (modBank t (fun b => { b with state := .active }) s)
  { u with routes := { u.routes with current := t } }

theorem switchBanks_only (t : Nat) (s : State) : Only [.routes] s (switchBanks t s) :=
  Only.routes_upd (by decide) ((modBank_only _ _ s).trans (modBank_only _ _ _))

theorem switchBanks_target {t : Nat} (h : t ≤ 1) (s : State) : bank (switchBanks t s) t = { bank s t with state := .active } :=
  (bank_modBank_other (by omega) _ _).trans (bank_modBank_same t _ s)

theorem switchBanks_other {t : Nat} (h : t ≤ 1) (s : State) : bank (switchBanks t s) (1 - t) = drainFrom s.time.ft (bank s (1 - t)) :=
  (bank_modBank_same (1 - t) _ _).trans (congrArg _ (bank_modBank_other (by omega) _ s))

/-- The notice of the new epoch begins toward an end-point in ACTIVE. -/
def noticeEndPoint (epoch : Nat) (p : PortN) (s : State) : State :=
  if role s p = 1 ∧ (s.port p).train = .active then
    sendNotice p (modPort p (fun q => { q with notice := some (epoch, s.time.ft) }) s)
  else s

/-- The resident BEP receives a notice. -/
def noticeBep (epoch : Nat) (s : State) : State :=
  { s with bep := { s.bep with intake := s.bep.intake ++ [noticeCell s (coord s 31) epoch s.time.ft] } }

/-- The switch is told to the host, the end-points and the resident BEP. -/
def announce (epoch : Nat) (s : State) : State := noticeBep epoch (forPorts (noticeEndPoint epoch) (raiseCause 4 s))

theorem routeBankSwitch_of_armed {s : State} (h : odGet s 0x3100 4 ≠ 0) (harmed : (bank s (targetBank s)).state = .armed) :
    routeBankSwitch s = announce (targetBank s) (switchBanks (targetBank s) (reachArm s)) := by
  unfold routeBankSwitch
  extract_lets arm t reached banks routes told noticed bep
  have hreached : ¬(bank reached t).state ≠ .armed := not_not.mpr ((congrArg RouteBank.state (reachArm_bank s t)).trans harmed)
  have htold : told = raiseCause 4 (switchBanks t (reachArm s)) := rfl
  have hnoticed : noticed = forPorts (noticeEndPoint t) told := rfl
  rw [if_neg h, if_neg hreached]
  change noticeBep t noticed = _
  rw [hnoticed, htold]
  rfl

/-- The counters of cells issued to the links. -/
def issueEntries : List (Nat × Nat) := (List.finRange 24).map (fun p => (portIndex p 7, 1))

theorem sendNotice_entries (p : PortN) (s : State) : OnlyEntries issueEntries s (sendNotice p s) := by
  have hissue (c : Cell) : OnlyEntries issueEntries s (issueCell p c s) := (issueCell_entries p c s).mono (by simp [issueEntries])
  unfold sendNotice
  split
  · exact (hissue _).ite (.refl _ s)
  · exact .refl _ s

theorem noticeEndPoint_entries (epoch : Nat) (p : PortN) (s : State) : OnlyEntries issueEntries s (noticeEndPoint epoch p s) :=
  OnlyEntries.ite (sendNotice_entries p _) (.refl _ s)

theorem noticeEndPoint_only (epoch : Nat) (p : PortN) (s : State) : Only [.ports, .dict, .sent] s (noticeEndPoint epoch p s) :=
  Only.ite (sendNotice_parts p (List.Subset.refl _) (modPort_parts p _ (by decide) (.refl _ s))) (.refl _ s)

theorem noticeBep_only (epoch : Nat) (s : State) : Only [.bep] s (noticeBep epoch s) := Only.bep_upd (by decide) (.refl _ s)

theorem announce_entries (epoch : Nat) (s : State) : OnlyEntries issueEntries s (announce epoch s) := by
  have hraised : OnlyEntries issueEntries s (raiseCause 4 s) := (raiseCause_entries 4 s).mono (by simp)
  have hnoticed (u : State) : OnlyEntries issueEntries u (forPorts (noticeEndPoint epoch) u) :=
    OnlyEntries.foldl (f := fun v p => noticeEndPoint epoch p v) _ (fun p _ v => noticeEndPoint_entries epoch p v) u
  exact (hraised.trans (hnoticed _)).trans (((noticeBep_only epoch _).entries (by decide)).mono (by simp))

theorem announce_only (epoch : Nat) (s : State) : Only [.ports, .bep, .dict, .host, .sent] s (announce epoch s) :=
  (((raiseCause_only 4 s).mono (by simp)).trans ((forPorts_only (noticeEndPoint_only epoch) _).mono (by simp))).trans
    ((noticeBep_only epoch _).mono (by simp))

/-! ### ROUTE_BANK_DRAIN_END (R115, R119) -/

theorem exec_routeBankDrainEnd (s : State) : exec .routeBankDrainEnd s = .next (routeBankDrainEnd s) := rfl

/-- No port has a notice outstanding. -/
def endNotices (s : State) : State := forPorts (fun p => modPort p (fun q => { q with notice := none })) s

theorem endNotices_notice (s : State) (p : PortN) : ((endNotices s).port p).notice = none :=
  forPorts_port (R := fun _ q => q.notice = none) (fun q u => congrArg Port.notice (port_modPort_same q _ u))
    (fun q u => modPort_onlyPort q _ u) s p

theorem endNotices_only (s : State) : Only [.ports] s (endNotices s) :=
  forPorts_only (fun p u => modPort_parts p _ (List.Subset.refl _) (.refl _ u)) s

/-- A DRAINING bank ends its drain, 65,536 ticks after it left ACTIVE. -/
def endDrain (b : Nat) (s : State) : State :=
  raiseCause 4 (endNotices (modBank b (fun r => { r with state := .idle }) (advanceTo ((bank s b).left + 65536) s)))

/-- The end of the drain of one bank, if it drains. -/
def drainBank (b : Nat) (s : State) : State := if (bank s b).state = .draining then endDrain b s else s

theorem routeBankDrainEnd_eq (s : State) : routeBankDrainEnd s = drainBank 1 (drainBank 0 s) := rfl

theorem drainBank_of_not_draining {b : Nat} {s : State} (h : (bank s b).state ≠ .draining) : drainBank b s = s := if_neg h

theorem drainBank_of_draining {b : Nat} {s : State} (h : (bank s b).state = .draining) : drainBank b s = endDrain b s := if_pos h

section
variable (b : Nat) (s : State)

theorem endDrain_routes : (endDrain b s).routes = (modBank b (fun r => { r with state := .idle }) s).routes := by
  rw [endDrain, raiseCause_only 4 _ .routes (by decide), endNotices_only _ .routes (by decide)]
  by_cases hb : b = 0 <;> simp [modBank, hb, advanceTo]

theorem endDrain_bank : bank (endDrain b s) b = { bank s b with state := .idle } :=
  (bank_congr (endDrain_routes b s) b).trans (bank_modBank_same b _ s)

theorem endDrain_time : (endDrain b s).time = advanceTime ((bank s b).left + 65536) s.time := by
  rw [endDrain, raiseCause_time, endNotices_only _ .time (by decide), modBank_only _ _ _ .time (by decide), advanceTo_time]

theorem endDrain_notice (p : PortN) : ((endDrain b s).port p).notice = none := by
  rw [endDrain, raiseCause_port, endNotices_notice]

end

theorem endDrain_other {a b : Nat} (h : a + b = 1) (s : State) : bank (endDrain a s) b = bank s b :=
  (bank_congr (endDrain_routes a s) b).trans (bank_modBank_other h _ s)

theorem drainBank_other {a b : Nat} (h : a + b = 1) (s : State) : bank (drainBank a s) b = bank s b := by
  unfold drainBank
  split
  · exact endDrain_other h s
  · rfl

/-- The drain of a bank has ended: it is IDLE, 65,536 ticks have passed, and no notice is outstanding. -/
def DrainEnded (b : Nat) (s : State) : Prop :=
  (bank s b).state = .idle ∧ (bank s b).left + 65536 ≤ s.time.ft ∧ ∀ p : PortN, (s.port p).notice = none

theorem endDrain_ended (b : Nat) (s : State) : DrainEnded b (endDrain b s) := by
  refine ⟨by rw [endDrain_bank], ?_, endDrain_notice b s⟩
  rw [endDrain_bank, endDrain_time, advanceTime_ft]
  exact le_max_right _ _

/-- The end of the other bank's drain comes at the same tick or later. -/
theorem DrainEnded.drainBank {a b : Nat} {s : State} (h : DrainEnded b s) (hother : a + b = 1) : DrainEnded b (drainBank a s) := by
  obtain ⟨hidle, hleft, hnotice⟩ := h
  unfold Machine.drainBank
  split
  · refine ⟨by rwa [endDrain_other hother], ?_, endDrain_notice a s⟩
    rw [endDrain_other hother, endDrain_time, advanceTime_ft]
    exact hleft.trans (le_max_left _ _)
  · exact ⟨hidle, hleft, hnotice⟩

theorem routeBankDrainEnd_ended {b : Fin 2} {s : State} (h : (bank s b.val).state = .draining) :
    DrainEnded b.val (routeBankDrainEnd s) := by
  rw [routeBankDrainEnd_eq]
  match b with
  | 0 =>
    have hfirst : DrainEnded 0 (drainBank 0 s) := (drainBank_of_draining h).symm ▸ endDrain_ended 0 s
    exact hfirst.drainBank rfl
  | 1 =>
    have hkept : (bank (drainBank 0 s) 1).state = .draining := by
      rw [drainBank_other rfl]
      exact h
    rw [drainBank_of_draining hkept]
    exact endDrain_ended 1 _

/-! ### ROUTE_BANK_COPY (R123) and EPOCH_NOTICE_RECEIVE (R117, R119) -/

theorem exec_routeBankCopy (src : Route) (v : BitVec 8) (s : State) :
    exec (.routeBankCopy src v) s = .next (routeBankCopy src v.toNat s) := rfl

theorem routeBankCopy_of_refused {src : Route} {v : Nat} {s : State} (h : (bank s (targetBank s)).state ≠ .idle) :
    routeBankCopy src v s = refuseRule s := if_pos h

/-- A bank with the tables, salt and number of groups of another. -/
def copyTables (a b : RouteBank) : RouteBank :=
  { b with group := a.group, member := a.member, port := a.port, salt := a.salt, ngroups := a.ngroups }

theorem routeBankCopy_of_idle {src : Route} {v : Nat} {s : State} (h : (bank s (targetBank s)).state = .idle) :
    routeBankCopy src v s =
      onlyOne src 0x3100 7 v (modBank (targetBank s) (copyTables (bank s (1 - targetBank s))) (beginOp s)) := if_neg (not_not.mpr h)

theorem routeBankCopy_bank {src : Route} {v : Nat} {s : State} (h : (bank s (targetBank s)).state = .idle) :
    bank (routeBankCopy src v s) (targetBank s) = copyTables (bank s (1 - targetBank s)) (bank s (targetBank s)) ∧
      bank (routeBankCopy src v s) (1 - targetBank s) = bank s (1 - targetBank s) := by
  have hreported (b : Nat) (u : State) : bank (onlyOne src 0x3100 7 v u) b = bank u b := (onlyOne_only src 0x3100 7 v u).bank (by decide) b
  rw [routeBankCopy_of_idle h, hreported, hreported]
  exact ⟨bank_modBank_same _ _ _, bank_modBank_other (targetBank_add s) _ _⟩

/-- The resident BEP takes the epoch of a notice, which leaves its intake. -/
def takeEpoch (c : Cell) (s : State) : State :=
  { s with ep := { s.ep with epoch := BitVec.ofNat 1 (fieldAt (payloadBytes c) 0 1) }, bep := { s.bep with intake := s.bep.intake.erase c } }

theorem exec_epochNoticeReceive (c : Cell) (s : State) : exec (.epochNoticeReceive c) s = .next (progress .intake (takeEpoch c s)) := rfl

theorem takeEpoch_only (c : Cell) (s : State) : Only [.ep, .bep] s (takeEpoch c s) :=
  Only.bep_upd (t := { s with ep := { s.ep with epoch := BitVec.ofNat 1 (fieldAt (payloadBytes c) 0 1) } }) (by decide)
    (Only.ep_upd (by decide) (.refl _ s))

/-- Settles O19: each write is kept in the entry and one bank; a switch is a move of FT, the change of both banks and notices that
change no bank; the drain of each bank ends by itself. -/
theorem routeBanksArmAndSwitch : Obligations.RouteBanksArmAndSwitch := by
  unfold Obligations.RouteBanksArmAndSwitch
  refine fun s => ⟨fun src v => ⟨fun hzero => ?disarmed, fun hv h => ?refused, fun hv hidle hother => ?armed⟩, fun h => ?waiting,
    fun harm hcurrent harmed => ?switched, fun hzero hone => ?settled, fun b h => ?drained,
    fun src v => ⟨fun h => ?uncopied, fun hidle hcurrent => ?copied⟩, fun c => ?noticed⟩
  case disarmed =>
    subst hzero
    rw [exec_routeArmWrite]
    refine ⟨_, congrArg _ (routeArmWrite_zero src s), odGet_odSet_same .., disarmTarget_not_armed s, disarmTarget_other s, ?_⟩
    exact (disarmTarget_only s).trans ((odSet_only _ _ _ _).mono (by simp))
  case refused =>
    have hv : v.toNat ≠ 0 := by simpa [← BitVec.toNat_inj] using hv
    rw [exec_routeArmWrite, routeArmWrite_of_refused hv h]
  case armed =>
    have hv : v.toNat ≠ 0 := by simpa [← BitVec.toNat_inj] using hv
    have hkept := armTick_one v.isLt s.time.ft
    have hstate : (if armTick s.time.ft 1 v.toNat = 0 then BankState.idle else .armed) =
        if v.toNat < s.time.ft + 1024 then .idle else .armed := by
      rw [hkept]
      by_cases hnear : v.toNat < s.time.ft + 1024
      · simp only [hnear, if_true]
      · simp only [hnear, if_false, hv]
    rw [exec_routeArmWrite, routeArmWrite_of_idle hv hidle hother, ← hkept, ← hstate]
    exact ⟨_, rfl, odGet_armTarget .., armTarget_target _ _ _ _ hidle, armTarget_other .., armTarget_only _ _ _ s⟩
  case waiting => rw [exec_routeBankSwitch, routeBankSwitch_of_none h]
  case switched =>
    have hle : targetBank s ≤ 1 := Nat.sub_le 1 _
    have hframe := announce_only (targetBank s) (switchBanks (targetBank s) (reachArm s))
    have htime : (announce (targetBank s) (switchBanks (targetBank s) (reachArm s))).time = (reachArm s).time :=
      (hframe .time (by decide)).trans (switchBanks_only _ _ .time (by decide))
    have hnew := (hframe.bank (by decide) _).trans (switchBanks_target hle (reachArm s))
    have hdrain := (hframe.bank (by decide) _).trans (switchBanks_other hle (reachArm s))
    rw [other_of_current hcurrent, reachArm_bank] at hdrain
    rw [exec_routeBankSwitch, routeBankSwitch_of_armed harm harmed]
    refine ⟨_, rfl, ?_, ?_, ?_, ?_, ?_, fun hactive => ?_⟩
    · rw [announce_entries _ _ _ _ (by decide) (by decide), (switchBanks_only _ _).entries (by decide) _ _ (by decide) (by simp)]
      exact odGet_odSet_same ..
    · rw [htime]
      exact advanceTime_ft _ _
    · rw [hframe .routes (by decide)]
      rfl
    · rw [hnew]
    · rw [hdrain, drainFrom_group]
    · rw [hdrain, htime, drainFrom, if_pos hactive]
      exact ⟨rfl, rfl⟩
  case settled => rw [exec_routeBankDrainEnd, routeBankDrainEnd_eq, drainBank_of_not_draining hzero, drainBank_of_not_draining hone]
  case drained =>
    exact ⟨_, exec_routeBankDrainEnd s, routeBankDrainEnd_ended h⟩
  case uncopied => rw [exec_routeBankCopy, routeBankCopy_of_refused h]
  case copied =>
    obtain ⟨htarget, hother⟩ := routeBankCopy_bank (src := src) (v := v.toNat) hidle
    rw [other_of_current hcurrent] at htarget hother
    refine ⟨_, exec_routeBankCopy src v s, ?_, hother, routeBankCopy_parts _ _ (List.Subset.refl _) (.refl _ s)⟩
    rw [htarget, copyTables, hidle]
  case noticed =>
    refine ⟨_, exec_epochNoticeReceive c s, rfl, rfl, ?_⟩
    exact progress_parts _ (by decide) ((takeEpoch_only c s).mono (by simp))

end Sys2Proof.Machine
end

section
/-! SUPPORT. Cells that leave the resident BEP's intake, and requests at the source: responses, timeouts and resends (R154, R155,
R182, R183). -/

namespace Sys2Proof.Machine

open Sys2Proof

/-! ### The intake (R145) -/

/-- A cell leaves the intake where it waits there. -/
def leaveIntake (c : Cell) (s : State) : State := progress .intake { s with bep := { s.bep with intake := s.bep.intake.erase c } }

theorem leaveIntake_only (c : Cell) (s : State) : Only [.bep, .lantern] s (leaveIntake c s) :=
  progress_parts _ (by decide) (Only.bep_upd (by decide) (.refl _ s))

@[simp] theorem leaveIntake_bep (c : Cell) (s : State) : (leaveIntake c s).bep = { s.bep with intake := s.bep.intake.erase c } := rfl

/-! ### Tables -/

/-- A value that is listed and changed reads as changed. -/
theorem mapGet_mapMod_same {α : Type} (m : NMap α) (k : Nat) (f : α → α) : mapGet (mapMod m k f) k = (mapGet m k).map f := by
  induction m with
  | nil => rfl
  | cons e r ih =>
    obtain ⟨j, v⟩ := e
    have hcons : mapMod ((j, v) :: r) k f = (j, if j = k then f v else v) :: mapMod r k f := by
      by_cases h : j = k <;> simp [mapMod, h]
    rw [hcons]
    by_cases h : j = k <;> simp [mapGet, h, ih]

/-! ### Nothing waits behind a request that ends -/

theorem pump_of_idle {s : State} (h : s.ep.waiting = []) : pump s = s := by
  simp [pump, sendWaiting, h]

theorem settleWriteBacks_of_no_lines {s : State} (h : s.grotto.lines = []) : settleWriteBacks s = s := by
  simp [settleWriteBacks, h]

/-- With no command waiting and no write-back open, the end of a request starts nothing. -/
theorem settleWriteBacks_pump {s : State} (hwaiting : s.ep.waiting = []) (hlines : s.grotto.lines = []) :
    settleWriteBacks (pump s) = s := by
  rw [pump_of_idle hwaiting, settleWriteBacks_of_no_lines hlines]

/-! ### The end of an agent's request (R154, R182) -/

/-- The request leaves the table and every fence, and its command is completed. -/
def completeReq (t : Nat) (r : Req) (good : Bool) (st : Status) (data : Bytes) (s : State) : State :=
  emit (.completion r.cmd.id st false data) (fenceEnd t good (dropReq t s))

theorem endOk_of_agent {r : Req} (h : r.use = .agent) (t : Nat) (data : Bytes) (s : State) :
    endOk t r false data s = completeReq t r true .ok data s := by
  simp [endOk, okUse, completeReq, h]

theorem endFailed_of_agent {r : Req} (h : r.use = .agent) (t : Nat) (st : Status) (s : State) :
    endFailed t r st s = completeReq t r false st [] s := by
  simp [endFailed, failUse, completeReq, h]

section
variable (t : Nat) (r : Req) (good : Bool) (st : Status) (data : Bytes) (s : State)

@[simp] theorem completeReq_quarantine : (completeReq t r good st data s).ep.quarantine = s.ep.quarantine := rfl

@[simp] theorem mapGet_completeReq : mapGet (completeReq t r good st data s).ep.reqs t = none := mapGet_mapErase_same s.ep.reqs t
end

/-! ### RESPONSE_RECEIVE (R154) -/

theorem exec_responseReceive (c : Cell) (s : State) : exec (.responseReceive c) s = .next (responseReceive c s) := rfl

theorem responseReceive_of_unknown {c : Cell} {s : State} (h : mapGet s.ep.reqs c.tag.toNat = none) :
    responseReceive c s = bump 0x3400 0x19 (leaveIntake c s) := by
  have htable : mapGet (leaveIntake c s).ep.reqs c.tag.toNat = none := h
  simp only [leaveIntake] at htable
  simp only [responseReceive, leaveIntake, htable]

theorem responseReceive_of_known {c : Cell} {s : State} {r : Req} (h : mapGet s.ep.reqs c.tag.toNat = some r) :
    responseReceive c s = if cellDest r.cell = c.src then settleWriteBacks (pump (takeAnswer c.tag.toNat r c (leaveIntake c s)))
      else bump 0x3400 0x19 (leaveIntake c s) := by
  have htable : mapGet (leaveIntake c s).ep.reqs c.tag.toNat = some r := h
  simp only [leaveIntake] at htable
  simp only [responseReceive, leaveIntake, htable]

/-- An answer after which no command waits and no write-back is open has no further effect. -/
theorem responseReceive_of_answer {c : Cell} {s t : State} {r : Req} (h : mapGet s.ep.reqs c.tag.toNat = some r)
    (hdest : cellDest r.cell = c.src) (hanswer : takeAnswer c.tag.toNat r c (leaveIntake c s) = t) (hwaiting : t.ep.waiting = [])
    (hlines : t.grotto.lines = []) : responseReceive c s = t := by
  rw [responseReceive_of_known h, if_pos hdest, hanswer, settleWriteBacks_pump hwaiting hlines]

/-- A response that is discarded is counted, and nothing of the source changes. -/
theorem discard_counted (c : Cell) (s : State) :
    odGet (bump 0x3400 0x19 (leaveIntake c s)) 0x3400 0x19 = min (2 ^ 64 - 1) (odGet s 0x3400 0x19 + 1) ∧
      (bump 0x3400 0x19 (leaveIntake c s)).ep = s.ep := ⟨odGet_bump_same .., rfl⟩

theorem discard_only (c : Cell) (s : State) : Only [.bep, .lantern, .dict] s (bump 0x3400 0x19 (leaveIntake c s)) :=
  ((leaveIntake_only c s).mono (by simp)).trans ((bump_only _ _ _).mono (by simp))

theorem reactMark_of_off {s : State} (h : odGet s 0x3402 7 = 0) (dest : BitVec 16) (m : Nat) (ended : List Req) :
    reactMark dest m ended s = s := if_pos h

theorem takeAnswer_of_last_data {c : Cell} {r : Req} {s : State} (hop : c.op = opDAT) (hlast : c.last = true) (hld : r.cell.op = opLD)
    (huse : r.use = .agent) (hoff : odGet s 0x3402 7 = 0) (t : Nat) :
    takeAnswer t r c s = completeReq t r true .ok (addData r c) s := by
  have hack : c.op ≠ opACK := by rw [hop]; decide
  have hscope : (r.cell.op == opLDA && c.aux.getLsbD 31) = false := by rw [hld]; rfl
  rw [takeAnswer, if_neg hack, if_pos hop, if_pos hlast, reactMark_of_off hoff, hscope, endOk_of_agent huse]

theorem takeAnswer_of_error {c : Cell} {r : Req} {s : State} (hop : c.op = opERR) (hsub : c.sub.toNat ≠ 3) (huse : r.use = .agent)
    (hoff : odGet s 0x3402 7 = 0) (t : Nat) : takeAnswer t r c s =
      completeReq t r false (.err c.sub.toNat (c.aux.toNat % 65536)) [] (uncount r c.sub.toNat s) := by
  have hack : c.op ≠ opACK := by rw [hop]; decide
  have hdat : c.op ≠ opDAT := by rw [hop]; decide
  have hnak : c.op ≠ opNAK := by rw [hop]; decide
  rw [takeAnswer, if_neg hack, if_neg hdat, if_neg hnak, reactMark_of_off hoff, if_neg hsub, endFailed_of_agent huse]

/-- The request after one more `NAK` BUSY: it waits for its resend. -/
def parkReq (r : Req) : Req := { r with busy := r.busy + 1, parked := true }

/-- The table with one request parked. -/
def parkInTable (t : Nat) (s : State) : State := { s with ep := { s.ep with reqs := mapMod s.ep.reqs t parkReq } }

theorem takeAnswer_of_busy {c : Cell} {r : Req} {s : State} (hop : c.op = opNAK) (hsub : c.sub = 2) (hbusy : r.busy < 7)
    (hmark : c.cmark = 0) (t : Nat) : takeAnswer t r c s = parkInTable t s := by
  have hack : c.op ≠ opACK := by rw [hop]; decide
  have hdat : c.op ≠ opDAT := by rw [hop]; decide
  have hfew : ¬8 ≤ r.busy + 1 := by omega
  have hzero : c.cmark.toNat = 0 := by rw [hmark]; rfl
  rw [takeAnswer, if_neg hack, if_neg hdat, if_pos hop, if_pos hzero, if_pos hsub, if_neg hfew]
  rfl

/-- An answer that takes a store back changes the counts alone. -/
theorem uncount_ep (r : Req) (code : Nat) (s : State) :
    (uncount r code s).ep = { s.ep with counts := (uncount r code s).ep.counts } := by
  simp only [uncount, setCount]
  repeat' split
  all_goals rfl

theorem uncount_only (r : Req) (code : Nat) (s : State) : Only [.ep] s (uncount r code s) :=
  uncount_parts r code (List.Subset.refl _) (.refl _ s)

/-! ### REQUEST_TIMEOUT (R154) and BUSY_RESEND (R183) -/

theorem exec_requestTimeout (tag : BitVec 16) (s : State) : exec (.requestTimeout tag) s = .next (requestTimeout tag.toNat s) := rfl

theorem requestTimeout_of_unknown {t : Nat} {s : State} (h : mapGet s.ep.reqs t = none) :
    requestTimeout t s = { s with ep := { s.ep with quarantine := s.ep.quarantine.erase t } } := by
  simp only [requestTimeout, h]

/-- A recovery whose `FEN` was sent under the TAG waits to send another (R158). -/
def forgetFence (t dest : Nat) (s : State) : State :=
  match mapGet s.ep.recover dest with
  | some (l, some f) => if f = t then { s with ep := { s.ep with recover := mapSet s.ep.recover dest (l, none) } } else s
  | _ => s

/-- Only the recoveries change. -/
theorem forgetFence_ep (t dest : Nat) (s : State) :
    (forgetFence t dest s).ep = { s.ep with recover := (forgetFence t dest s).ep.recover } := by
  simp only [forgetFence]
  repeat' split
  all_goals rfl

@[simp] theorem forgetFence_reqs (t dest : Nat) (s : State) : (forgetFence t dest s).ep.reqs = s.ep.reqs := by
  rw [forgetFence_ep]

@[simp] theorem forgetFence_waiting (t dest : Nat) (s : State) : (forgetFence t dest s).ep.waiting = s.ep.waiting := by
  rw [forgetFence_ep]

@[simp] theorem forgetFence_quarantine (t dest : Nat) (s : State) : (forgetFence t dest s).ep.quarantine = s.ep.quarantine := by
  rw [forgetFence_ep]

theorem forgetFence_only (t dest : Nat) (s : State) : Only [.ep] s (forgetFence t dest s) := by
  unfold forgetFence
  repeat' split
  · exact Only.ep_upd (by decide) (.refl _ s)
  · exact .refl _ s
  · exact .refl _ s

/-- A TAG that may not be used again yet. -/
def holdTag (t : Nat) (s : State) : State := { s with ep := { s.ep with quarantine := t :: s.ep.quarantine } }

theorem requestTimeout_of_known {t : Nat} {s : State} {r : Req} (h : mapGet s.ep.reqs t = some r) :
    requestTimeout t s = settleWriteBacks (pump (holdTag t
      (forgetFence t (cellDest r.cell).toNat (endFailed t r .timeout (bump 0x3400 0x1A s))))) := by
  unfold requestTimeout
  rw [h]
  rfl

/-- The end of an agent's request whose answer did not come, with nothing behind it. -/
theorem requestTimeout_of_agent {t : Nat} {s : State} {r : Req} (h : mapGet s.ep.reqs t = some r) (huse : r.use = .agent)
    (hwaiting : s.ep.waiting = []) (hlines : s.grotto.lines = []) : requestTimeout t s =
      holdTag t (forgetFence t (cellDest r.cell).toNat (completeReq t r false .timeout [] (bump 0x3400 0x1A s))) := by
  rw [requestTimeout_of_known h, endFailed_of_agent huse]
  refine settleWriteBacks_pump ?_ ?_
  · exact (forgetFence_waiting ..).trans hwaiting
  · exact (congrArg Grotto.lines (forgetFence_only _ _ _ .grotto (by decide))).trans hlines

theorem exec_busyResend (tag : BitVec 16) (s : State) : exec (.busyResend tag) s = .next (busyResend tag.toNat s) := rfl

theorem busyResend_of_unknown {t : Nat} {s : State} (h : mapGet s.ep.reqs t = none) : busyResend t s = s := by
  simp only [busyResend, h]

theorem busyResend_of_not_parked {t : Nat} {s : State} {r : Req} (h : mapGet s.ep.reqs t = some r) (hparked : r.parked = false) :
    busyResend t s = s := by
  simp [busyResend, h, hparked]

/-- The request cell as it is sent again, under the current epoch. -/
def resentCell (r : Req) (s : State) : Cell := { r.cell with epoch := s.ep.epoch }

/-- The table once a parked request has been sent again. -/
def unpark (t : Nat) (r : Req) (s : State) : State :=
  { s with ep := { s.ep with reqs := mapSet s.ep.reqs t { r with cell := resentCell r s, parked := false } } }

theorem busyResend_of_parked {t : Nat} {s : State} {r : Req} (h : mapGet s.ep.reqs t = some r) (hparked : r.parked = true) :
    busyResend t s = bepSend (resentCell r s) (unpark t r s) := by
  simp only [busyResend, h, hparked, if_true]
  rfl

/-- Settles O28: with nothing waiting behind it an agent's request ends by its completion alone, and a parked one is sent again. -/
theorem answersEndRequests : Obligations.AnswersEndRequests := by
  unfold Obligations.AnswersEndRequests
  refine fun s => ⟨fun c => ⟨fun h => ?unknown, fun r hr => ⟨fun hother => ?other, fun hdest huse hwaiting _ hlines _ hmark hoff =>
      ⟨fun hop hlast hld => ?data, fun hop hsub => ?error, fun hop hsub hbusy => ?busy⟩⟩⟩,
    fun tag => ⟨fun h => ⟨?noResend, ?freed⟩, fun r hr => ⟨fun hparked => ?unparked, fun hparked _ => ?resent,
      fun huse hwaiting _ hlines _ => ?timeout⟩⟩⟩
  case unknown =>
    obtain ⟨hcount, hep⟩ := discard_counted c s
    rw [exec_responseReceive, responseReceive_of_unknown h]
    exact ⟨_, rfl, hcount, hep, rfl, discard_only c s⟩
  case other =>
    rw [exec_responseReceive, responseReceive_of_known hr, if_neg hother]
    exact ⟨_, rfl, discard_counted c s⟩
  case data =>
    have hanswer := takeAnswer_of_last_data (s := leaveIntake c s) hop hlast hld huse hoff c.tag.toNat
    rw [exec_responseReceive, responseReceive_of_answer hr hdest hanswer hwaiting hlines]
    exact ⟨_, rfl, rfl, mapGet_completeReq ..⟩
  case error =>
    have hanswer := takeAnswer_of_error (s := leaveIntake c s) hop hsub huse hoff c.tag.toNat
    have hep := uncount_ep r c.sub.toNat (leaveIntake c s)
    have honly := uncount_only r c.sub.toNat (leaveIntake c s)
    rw [exec_responseReceive, responseReceive_of_answer hr hdest hanswer ((congrArg Ep.waiting hep).trans hwaiting)
      ((congrArg Grotto.lines (honly .grotto (by decide))).trans hlines)]
    exact ⟨_, rfl, congrArg (_ :: ·) (honly .sent (by decide)), mapGet_completeReq ..⟩
  case busy =>
    have hanswer := takeAnswer_of_busy (s := leaveIntake c s) hop hsub hbusy hmark c.tag.toNat
    rw [exec_responseReceive, responseReceive_of_answer hr hdest hanswer hwaiting hlines]
    exact ⟨_, rfl, rfl, (mapGet_mapMod_same s.ep.reqs _ parkReq).trans (congrArg (Option.map parkReq) hr)⟩
  case noResend => rw [exec_busyResend, busyResend_of_unknown h]
  case freed => rw [exec_requestTimeout, requestTimeout_of_unknown h]
  case unparked => rw [exec_busyResend, busyResend_of_not_parked hr hparked]
  case resent =>
    rw [exec_busyResend, busyResend_of_parked hr hparked]
    refine ⟨_, rfl, rfl, ?_, bepSend_parts _ (by decide) (Only.ep_upd (by decide) (.refl _ s))⟩
    exact congrArg (Option.map _) (mapGet_mapSet_same s.ep.reqs tag.toNat _)
  case timeout =>
    have honly := forgetFence_only tag.toNat (cellDest r.cell).toNat (completeReq tag.toNat r false .timeout [] (bump 0x3400 0x1A s))
    rw [exec_requestTimeout, requestTimeout_of_agent hr huse hwaiting hlines]
    refine ⟨_, rfl, honly .sent (by decide), by simp [holdTag], by simp [holdTag], ?_⟩
    exact (odGet_congr (congrArg Dict.od (honly .dict (by decide))) _ _).trans (odGet_bump_same ..)

end Sys2Proof.Machine
end

section
/-! SUPPORT. Fences of the source and its refusal recovery (R154, R158, R164, R188), and the legal values of an exact-add region
(R181). -/

namespace Sys2Proof.Machine

open Sys2Proof

/-! ### TAGs (R154) -/

theorem tagFrom_lt {n : Nat} (hn : 0 < n) (s : State) (base next : Nat) : tagFrom s base n next < base + n := by
  unfold tagFrom
  cases h : ((List.range n).map (fun k => base + (next + k) % n)).find? (fun t =>
      (mapGet s.ep.reqs t).isNone && !s.ep.quarantine.contains t) with
  | none => exact Nat.lt_add_of_pos_right hn
  | some t =>
    obtain ⟨k, _, rfl⟩ := List.mem_map.mp (List.mem_of_find?_eq_some h)
    exact Nat.add_lt_add_left (Nat.mod_lt _ hn) base

theorem freeTag_agent_lt (s : State) : freeTag s .agent < 0xF000 := tagFrom_lt (n := 0xF000) (by decide) s 0 s.ep.nextTag

theorem freeTag_fence_lt (s : State) : freeTag s .fence < 0xF000 := freeTag_agent_lt s

/-- Where the search for a request's next TAG starts. -/
def searchFrom (next : Nat) (s : State) : State := { s with ep := { s.ep with nextTag := next } }

@[simp] theorem searchFrom_bep (next : Nat) (s : State) : (searchFrom next s).bep = s.bep := rfl
@[simp] theorem searchFrom_sent (next : Nat) (s : State) : (searchFrom next s).sent = s.sent := rfl
@[simp] theorem searchFrom_waiting (next : Nat) (s : State) : (searchFrom next s).ep.waiting = s.ep.waiting := rfl
@[simp] theorem searchFrom_fences (next : Nat) (s : State) : (searchFrom next s).ep.fences = s.ep.fences := rfl
@[simp] theorem storeCount_searchFrom (next dest : Nat) (s : State) : storeCount (searchFrom next s) dest = storeCount s dest := rfl

theorem searchFrom_only (next : Nat) (s : State) : Only [.ep] s (searchFrom next s) := Only.ep_upd (by decide) (.refl _ s)

theorem tagUsed_of_lt {tag : Nat} (h : tag < 0xF000) (s : State) : tagUsed tag s = searchFrom ((tag + 1) % 0xF000) s := if_pos h

/-! ### A request enters the table (R154) -/

section
variable (cell : Cell) (cmd : BepCommand) (use : Use) (s : State)

@[simp] theorem launch_outbox : (launch cell cmd use s).bep.outbox = s.bep.outbox ++ [cell] := rfl
@[simp] theorem launch_sent : (launch cell cmd use s).sent = s.sent := rfl
@[simp] theorem launch_waiting : (launch cell cmd use s).ep.waiting = s.ep.waiting := rfl
@[simp] theorem launch_fences : (launch cell cmd use s).ep.fences = s.ep.fences := rfl
@[simp] theorem storeCount_launch (dest : Nat) : storeCount (launch cell cmd use s) dest = storeCount s dest := rfl

theorem launch_only : Only [.ep, .bep] s (launch cell cmd use s) := launch_parts _ _ _ (by decide) (.refl _ s)

theorem launch_reqs :
    mapGet (launch cell cmd use s).ep.reqs cell.tag.toNat = some { cell := cell, cmd := cmd, use := use, seq := s.ep.nextSeq } :=
  mapGet_mapSet_same ..
end

/-! ### A `FEN` (R158, R188) -/

/-- The `FEN` that goes to a destination. -/
def fenceCell (dest : BitVec 16) (s : State) : Cell :=
  { addr := mkAddr dest 0, src := coord s 31, vc := 0, op := opFEN, epoch := s.ep.epoch, tag := BitVec.ofNat 16 (freeTag s .fence) }

/-- It leaves under the next free TAG, and enters the table of requests. -/
theorem sendFen_eq (dest : BitVec 16) (s : State) : sendFen dest s =
    (freeTag s .fence, launch (fenceCell dest s) { op := .st, pasid := 0, addr := 0, tenant := none } .fence
      (searchFrom ((freeTag s .fence + 1) % 0xF000) s)) := by
  rw [← tagUsed_of_lt (freeTag_fence_lt s)]
  rfl

theorem sendFen_only (dest : BitVec 16) (s : State) : Only [.ep, .bep] s (sendFen dest s).2 := by
  rw [sendFen_eq]
  exact ((searchFrom_only _ s).mono (by decide)).trans (launch_only _ _ _ _)

/-! ### SOURCE_FENCE and SOURCE_FENCE_COMPLETE (R164, R188) -/

theorem exec_sourceFence (id : Nat) (s : State) : exec (.sourceFence id) s = .next (sourceFence id s) := rfl

/-- The fence covers the writes and atomics outstanding and stands behind the commands that wait. -/
def coverWrites (s : State) : SrcFence :=
  { covered := (s.ep.reqs.filter (fun e => isWrite e.2.cell.op)).map (fun e => e.1), ahead := s.ep.waiting.length }

/-- The table of fences with one more. -/
def openFence (id : Nat) (s : State) : State := { s with ep := { s.ep with fences := mapSet s.ep.fences id (coverWrites s) } }

/-- A `FEN` to a destination that a source fence covers. -/
def fenceDest (s : State) (dest : Nat) : State :=
  let t := (sendFen (BitVec.ofNat 16 dest) s).2
  { t with ep := { t.ep with fenced := dest :: t.ep.fenced } }

/-- What the `FEN`s of a source fence leave alone. -/
def fenceView (s : State) : NMap SrcFence × List EpCmd × List Out := (s.ep.fences, s.ep.waiting, s.sent)

theorem fenceDest_view (s : State) (dest : Nat) : fenceView (fenceDest s dest) = fenceView s := by
  simp only [fenceView, fenceDest, sendFen_eq, launch_sent, launch_waiting, launch_fences, searchFrom_sent, searchFrom_waiting,
    searchFrom_fences]

/-- The fence is recorded, whatever `FEN`s it sends. -/
theorem sourceFence_view (id : Nat) (s : State) : fenceView (sourceFence id s) = fenceView (openFence id s) :=
  List.foldlRecOn (motive := fun t => fenceView t = fenceView (openFence id s)) _ fenceDest rfl
    (fun t ht dest _ => (fenceDest_view t dest).trans ht)

theorem exec_sourceFenceComplete (id : Nat) (s : State) : exec (.sourceFenceComplete id) s = .next (sourceFenceComplete id s) := rfl

theorem sourceFenceComplete_of_none {id : Nat} {s : State} (h : mapGet s.ep.fences id = none) : sourceFenceComplete id s = s := by
  simp only [sourceFenceComplete, h]

theorem sourceFenceComplete_of_some {id : Nat} {s : State} {f : SrcFence} (h : mapGet s.ep.fences id = some f) :
    sourceFenceComplete id s = if f.covered = [] ∧ f.ahead = 0 then
      emit (.completion id (if f.failures = 0 then .ok else .fencedWithFailures f.failures) false [])
        { s with ep := { s.ep with fences := mapErase s.ep.fences id } } else s := by
  simp only [sourceFenceComplete, h, List.isEmpty_iff]

/-! ### REFUSAL_FENCE_SEND (R158) -/

theorem exec_refusalFenceSend (dest : BitVec 16) (s : State) : exec (.refusalFenceSend dest) s = .next (refusalFence dest s) := rfl

theorem refusalFence_of_none {dest : BitVec 16} {s : State} (h : mapGet s.ep.recover dest.toNat = none) : refusalFence dest s = s := by
  simp only [refusalFence, h]

theorem refusalFence_of_sent {dest : BitVec 16} {s : State} {l : List Req} {tag : Nat}
    (h : mapGet s.ep.recover dest.toNat = some (l, some tag)) : refusalFence dest s = s := by
  simp only [refusalFence, h]

/-- The recovery notes the TAG of its `FEN`. -/
def noteFence (dest : BitVec 16) (l : List Req) (s : State) : State :=
  let r := sendFen dest s
  { r.2 with ep := { r.2.ep with recover := mapSet r.2.ep.recover dest.toNat (l, some r.1) } }

theorem refusalFence_of_unsent {dest : BitVec 16} {s : State} {l : List Req} (h : mapGet s.ep.recover dest.toNat = some (l, none)) :
    refusalFence dest s = if incomplete s dest = [] then noteFence dest l s else s := by
  simp only [refusalFence, h, List.isEmpty_iff]
  rfl

theorem refusalFence_of_incomplete {dest : BitVec 16} {s : State} (h : incomplete s dest ≠ []) : refusalFence dest s = s := by
  cases hr : mapGet s.ep.recover dest.toNat with
  | none => exact refusalFence_of_none hr
  | some e =>
    obtain ⟨l, o⟩ := e
    cases o with
    | none => rw [refusalFence_of_unsent hr, if_neg h]
    | some tag => exact refusalFence_of_sent hr

/-! ### Fields of a number -/

/-- A number around one of its fields. -/
theorem eq_around_bits (x lo w : Nat) : x = x % 2 ^ lo + 2 ^ lo * (bits x lo w + 2 ^ w * (x / 2 ^ (lo + w))) := by
  rw [bits, pow_add, ← Nat.div_div_eq_div_mul, Nat.mod_add_div, Nat.mod_add_div]

section
variable {lo w new : Nat} (a : Clamping)

/-- The value kept differs in the field alone. -/
theorem clampField_fst : (clampField lo w new a).1 = a.1 % 2 ^ lo + 2 ^ lo * (new + 2 ^ w * (a.1 / 2 ^ (lo + w))) := by
  have hx := eq_around_bits a.1 lo w
  by_cases h : bits a.1 lo w = new
  · rw [clampField, if_pos h, ← h]
    exact hx
  · rw [clampField, if_neg h]
    rw [Nat.mul_add, ← Nat.add_assoc] at hx ⊢
    rw [Nat.mul_comm (2 ^ lo) (bits a.1 lo w)] at hx
    rw [Nat.mul_comm (2 ^ lo) new]
    omega

/-- A field that holds its value already is kept as it is. -/
theorem clampField_of_eq (h : bits a.1 lo w = new) : clampField lo w new a = a := if_pos h

theorem bits_clampField_same (h : new < 2 ^ w) : bits (clampField lo w new a).1 lo w = new := by
  rw [clampField_fst, bits, Nat.add_mul_div_left _ _ (Nat.two_pow_pos lo), Nat.div_eq_of_lt (Nat.mod_lt _ (Nat.two_pow_pos lo)),
    Nat.zero_add, Nat.add_mul_mod_self_left, Nat.mod_eq_of_lt h]

theorem bits_clampField_below {i n : Nat} (h : i + n ≤ lo) : bits (clampField lo w new a).1 i n = bits a.1 i n := by
  have hmod : (clampField lo w new a).1 % 2 ^ lo = a.1 % 2 ^ lo := by
    rw [clampField_fst, Nat.add_mul_mod_self_left, Nat.mod_mod]
  have hlow : (clampField lo w new a).1 % 2 ^ (i + n) = a.1 % 2 ^ (i + n) := Nat.ModEq.of_dvd (Nat.pow_dvd_pow 2 h) hmod
  rw [pow_add] at hlow
  rw [bits, bits, ← Nat.mod_mul_right_div_self, hlow, Nat.mod_mul_right_div_self]

theorem bits_clampField_above {i n : Nat} (hnew : new < 2 ^ w) (h : lo + w ≤ i) :
    bits (clampField lo w new a).1 i n = bits a.1 i n := by
  have hdiv : (clampField lo w new a).1 / 2 ^ (lo + w) = a.1 / 2 ^ (lo + w) := by
    rw [clampField_fst, pow_add, ← Nat.div_div_eq_div_mul, Nat.add_mul_div_left _ _ (Nat.two_pow_pos lo),
      Nat.div_eq_of_lt (Nat.mod_lt _ (Nat.two_pow_pos lo)), Nat.zero_add, Nat.add_mul_div_left _ _ (Nat.two_pow_pos w),
      Nat.div_eq_of_lt hnew, Nat.zero_add]
  obtain ⟨j, rfl⟩ := Nat.exists_eq_add_of_le h
  rw [bits, bits, pow_add 2 (lo + w) j, ← Nat.div_div_eq_div_mul, hdiv, Nat.div_div_eq_div_mul]
end

theorem bit_eq_bits (v i : Nat) : bit v i = decide (bits v i 1 = 1) := by
  rw [bit, bits, pow_one, Nat.testBit_eq_decide_div_mod_eq]

/-! ### EXACT_ADD_REGION_WRITE (R181) -/

theorem exec_exactAddRegionWrite (src : Route) (region : Fin 16) (v : BitVec 64) (s : State) :
    exec (.exactAddRegionWrite src region v) s = .next (exactRegionWrite src region.val v.toNat s) := rfl

/-- A region with its reserved bits 0. -/
def unreserved (v : Nat) : Clamping := clampField 48 10 0 (clampField 60 3 0 (v, []))

/-- FMT of a region is the reserved code. -/
def fmtBad (v : Nat) : Bool := bits (unreserved v).1 58 2 == 3

/-- A region with a legal FMT. -/
def legalFmt (v : Nat) : Clamping := if fmtBad v then clampField 58 2 0 (unreserved v) else unreserved v

/-- ENABLE of a region as it is kept. -/
def enableKept (s : State) (k v : Nat) : Nat := if fmtBad v || regionBad s k (legalFmt v).1 then 0 else bits (legalFmt v).1 63 1

/-- A region as it is kept. -/
def regionKept (s : State) (k v : Nat) : Clamping := clampField 63 1 (enableKept s k v) (legalFmt v)

theorem bits_legalFmt_below {v i n : Nat} (h : i + n ≤ 58) : bits (legalFmt v).1 i n = bits (unreserved v).1 i n := by
  unfold legalFmt
  split
  · exact bits_clampField_below _ h
  · rfl

theorem bits_legalFmt_above {v i n : Nat} (h : 60 ≤ i) : bits (legalFmt v).1 i n = bits (unreserved v).1 i n := by
  unfold legalFmt
  split
  · exact bits_clampField_above _ (by decide) h
  · rfl

theorem bits_legalFmt_fmt (v : Nat) : bits (legalFmt v).1 58 2 ≠ 3 := by
  unfold legalFmt
  split
  · rw [bits_clampField_same _ (by decide)]
    decide
  · next h => simpa [fmtBad] using h

theorem bits_regionKept_below (s : State) (k v : Nat) {i n : Nat} (h : i + n ≤ 63) :
    bits (regionKept s k v).1 i n = bits (legalFmt v).1 i n := bits_clampField_below _ h

theorem bits_lt (v i n : Nat) : bits v i n < 2 ^ n := Nat.mod_lt _ (Nat.two_pow_pos n)

theorem enableKept_lt (s : State) (k v : Nat) : enableKept s k v < 2 ^ 1 := by
  unfold enableKept
  split
  · decide
  · exact bits_lt _ _ _

/-- A region stays enabled only as it was written, and where nothing forbids it. -/
theorem regionKept_enabled {s : State} {k v : Nat} (h : bit (regionKept s k v).1 63 = true) :
    bit v 63 = true ∧ regionBad s k (regionKept s k v).1 = false := by
  have henable : enableKept s k v = 1 := by
    simpa [bit_eq_bits, regionKept, bits_clampField_same _ (enableKept_lt s k v)] using h
  have hgood : ¬(fmtBad v || regionBad s k (legalFmt v).1) = true := by
    intro hbad
    simp [enableKept, hbad] at henable
  have hbit : bits (legalFmt v).1 63 1 = enableKept s k v := by rw [enableKept, if_neg hgood]
  have hv : bits (legalFmt v).1 63 1 = bits v 63 1 := by
    rw [bits_legalFmt_above (by decide), unreserved, bits_clampField_above _ (by decide) (by decide),
      bits_clampField_above _ (by decide) (by decide)]
  refine ⟨by rw [bit_eq_bits, ← hv, hbit, henable]; rfl, ?_⟩
  rw [regionKept, clampField_of_eq _ hbit]
  exact (Bool.or_eq_false_iff.mp (Bool.not_eq_true _ ▸ hgood)).2

/-- The accumulators of a region that is disabled, moved or changed in its format are released. -/
def releaseAccs (old kept : Nat) (s : State) : State :=
  if (bit old 63 && !bit kept 63) || (bit old 63 && bits old 0 48 != bits kept 0 48) || bits old 58 2 != bits kept 58 2 then
    { s with bep := { s.bep with exact := s.bep.exact.filter (fun e =>
        !(decide (regionBase old ≤ e.1 / 8) && decide (e.1 / 8 < regionBase old + regionSize old))) } }
  else s

theorem releaseAccs_only (old kept : Nat) (s : State) : Only [.bep] s (releaseAccs old kept s) :=
  Only.ite (Only.bep_upd (by decide) (.refl _ s)) (.refl _ s)

theorem exactRegionWrite_eq (src : Route) (k v : Nat) (s : State) : exactRegionWrite src k v s =
    reportClamps src 0x3401 (k + 1) (regionKept s k v).2
      (releaseAccs (odGet s 0x3401 (k + 1)) (regionKept s k v).1 (odSet 0x3401 (k + 1) (regionKept s k v).1 (beginOp s))) := rfl

theorem reportClamps_entries (src : Route) (index sub : Nat) (l : List (Nat × Nat × Nat)) (s : State) :
    OnlyEntries [(0x1F00, 3)] s (reportClamps src index sub l s) :=
  OnlyEntries.foldl l (fun _ _ _ => clamped_entries _ _ _ _ _ _ _) s

/-- After the entry is written the write only releases accumulators and reports its clamps. -/
theorem exactRegionWrite_entries (src : Route) (k v : Nat) (s : State) :
    OnlyEntries [(0x1F00, 3)] (odSet 0x3401 (k + 1) (regionKept s k v).1 (beginOp s)) (exactRegionWrite src k v s) := by
  rw [exactRegionWrite_eq]
  exact (((releaseAccs_only _ _ _).entries (by decide)).mono (by simp)).trans (reportClamps_entries _ _ _ _ _)

theorem odGet_exactRegionWrite (src : Route) {k : Nat} (hk : k < 16) (v : Nat) (s : State) :
    odGet (exactRegionWrite src k v s) 0x3401 (k + 1) = (regionKept s k v).1 := by
  rw [exactRegionWrite_entries src k v s _ _ (by omega) (by simp), odGet_odSet_same]

/-- Settles O29: a source fence is recorded before its `FEN`s leave, and a region is kept with each field clamped. -/
theorem sourceFencesAndRegions : Obligations.SourceFencesAndRegions := by
  unfold Obligations.SourceFencesAndRegions
  refine fun s => ⟨fun id => ⟨fun _ => ?fenced, fun h => ?noFence, fun f hf => ⟨fun h => ?kept,
      fun hcovered hahead _ => ?completed⟩⟩,
    fun dest => ⟨fun h => ?noRecovery, fun l o hr => ⟨fun hsent => ?again, fun hunsent hended => ?refused⟩⟩,
    fun src region v => ?region⟩
  case fenced =>
    obtain ⟨hfences, hrest⟩ := Prod.mk.inj (sourceFence_view id s)
    obtain ⟨hwaiting, hsent⟩ := Prod.mk.inj hrest
    refine ⟨_, exec_sourceFence id s, ?_, hwaiting, hsent⟩
    rw [hfences]
    exact mapGet_mapSet_same ..
  case noFence => rw [exec_sourceFenceComplete, sourceFenceComplete_of_none h]
  case kept =>
    rw [exec_sourceFenceComplete, sourceFenceComplete_of_some hf, if_neg (not_and_or.mpr h)]
  case completed =>
    rw [exec_sourceFenceComplete, sourceFenceComplete_of_some hf, if_pos ⟨hcovered, hahead⟩]
    exact ⟨_, rfl, rfl, mapGet_mapErase_same .., emit_parts _ (by decide) (Only.ep_upd (by decide) (.refl _ s))⟩
  case noRecovery =>
    rw [exec_refusalFenceSend]
    rcases h with h | h
    · rw [refusalFence_of_none h]
    · rw [refusalFence_of_incomplete h]
  case again =>
    obtain ⟨tag, rfl⟩ := Option.ne_none_iff_exists'.mp hsent
    rw [exec_refusalFenceSend, refusalFence_of_sent hr]
  case refused =>
    subst hunsent
    rw [exec_refusalFenceSend, refusalFence_of_unsent hr, if_pos hended]
    refine ⟨_, rfl, ?_, Only.ep_upd (by decide) (sendFen_only dest s)⟩
    simp only [noteFence, sendFen_eq, launch_outbox, searchFrom_bep, fenceCell]
  case region =>
    rw [exec_exactAddRegionWrite]
    refine ⟨_, rfl, ?_⟩
    rw [odGet_exactRegionWrite src region.isLt]
    refine ⟨?_, ?_, ?_, ?_, regionKept_enabled, ?_, exactRegionWrite_parts src _ _ (by decide) (.refl _ s)⟩
    · rw [bits_regionKept_below _ _ _ (by decide), bits_legalFmt_above (by decide), unreserved,
        bits_clampField_above _ (by decide) (by decide), bits_clampField_same _ (by decide)]
    · rw [bits_regionKept_below _ _ _ (by decide), bits_legalFmt_below (by decide), unreserved, bits_clampField_same _ (by decide)]
    · rw [bits_regionKept_below _ _ _ (by decide)]
      exact bits_legalFmt_fmt _
    · rw [bits_regionKept_below _ _ _ (by decide), bits_legalFmt_below (by decide), unreserved, bits_clampField_below _ (by decide),
        bits_clampField_below _ (by decide)]
    · exact ((odSet_entries 0x3401 (region.val + 1) _ (beginOp s) (by omega)).mono (by simp)).trans
        ((exactRegionWrite_entries src region.val v.toNat s).mono (by simp))

end Sys2Proof.Machine
end

section
/-! SUPPORT. A command on its way through the source: permission, translation, the line of waiting commands and the request that
leaves (R154, R159, R182, R190–R192, R197). -/

namespace Sys2Proof.Machine

open Sys2Proof

/-! ### Permission and translation (R190, R191, R197) -/

theorem exec_requestSend (cmd : BepCommand) (s : State) : exec (.requestSend cmd) s = .next (agentCommand { cmd := cmd } s) := rfl

/-- An agent's command completed with PERM, counted. -/
def refuseCommand (cmd : BepCommand) (s : State) : State := emit (.completion cmd.id .perm false []) (bump 0x3402 0x19 s)

theorem agentCommand_of_untenanted {cmd : BepCommand} (h : cmd.tenant = none) (s : State) :
    agentCommand { cmd := cmd } s = refuseCommand cmd s := by
  simp only [agentCommand, h]
  rfl

/-- The translation of a command's page. -/
def translation (cmd : BepCommand) (s : State) : Option XEntry :=
  s.ep.cache.find? (fun e => entryCovers e cmd.pasid.toNat (cmd.addr.toNat / 4096))

theorem agentCommand_of_untranslated {cmd : BepCommand} {tn : BitVec 4} {s : State} (htenant : cmd.tenant = some tn)
    (h : translation cmd s = none) : agentCommand { cmd := cmd } s = waitFill { cmd := cmd } s := by
  rw [translation] at h
  simp only [agentCommand, htenant, h]

/-- A translation used becomes the most recent. -/
def useEntry (e : XEntry) (s : State) : State := { s with ep := { s.ep with cache := e :: s.ep.cache.erase e } }

theorem useEntry_only (e : XEntry) (s : State) : Only [.ep] s (useEntry e s) := Only.ep_upd (by decide) (.refl _ s)

/-- The command with its fabric address. -/
def translated (e : XEntry) (cmd : BepCommand) : EpCmd := { cmd := cmd, phys := some (BitVec.ofNat 64 (entryAddr e cmd.addr.toNat)) }

theorem translated_cmd (e : XEntry) (cmd : BepCommand) : (translated e cmd).cmd = cmd := rfl

theorem agentCommand_of_translated {cmd : BepCommand} {tn : BitVec 4} {s : State} {e : XEntry} (htenant : cmd.tenant = some tn)
    (h : translation cmd s = some e) : agentCommand { cmd := cmd } s =
      if permitted e cmd then submit (translated e cmd) (useEntry e s) else refuseCommand cmd s := by
  rw [translation] at h
  simp only [agentCommand, htenant, h]
  rfl

/-- The `FILL_REQ` of a command's page leaves and the command waits for its response. -/
def startFill (c : EpCmd) (s : State) : State :=
  emit (.fillReq (fillTag s) c.cmd.pasid.toNat (c.cmd.addr.toNat / 4096) (fillKind c.cmd.op))
    { s with ep := { s.ep with fills := mapSet s.ep.fills (fillTag s) {
      pasid := c.cmd.pasid.toNat, vpage := c.cmd.addr.toNat / 4096, kind := fillKind c.cmd.op, waiting := [c] } } }

theorem waitFill_of_no_fill {c : EpCmd} {s : State} (h : s.ep.fills.any (fun e =>
    e.2.pasid == c.cmd.pasid.toNat && e.2.vpage == c.cmd.addr.toNat / 4096 && !e.2.stale) = false) :
    waitFill c s = startFill c s := by
  have hfind : s.ep.fills.find? (fun e =>
      e.2.pasid == c.cmd.pasid.toNat && e.2.vpage == c.cmd.addr.toNat / 4096 && !e.2.stale) = none :=
    List.find?_eq_none.mpr fun e he hcover => by simpa [hcover] using List.any_eq_false.mp h e he
  simp only [waitFill, hfind]
  rfl

theorem startFill_only (c : EpCmd) (s : State) : Only [.ep, .sent] s (startFill c s) :=
  emit_parts _ (by decide) (Only.ep_upd (by decide) (.refl _ s))

/-! ### The line of waiting commands -/

/-- The line of waiting commands. -/
def waitInLine (l : List EpCmd) (s : State) : State := { s with ep := { s.ep with waiting := l } }

theorem waitInLine_nil {s : State} (h : s.ep.waiting = []) : waitInLine [] s = s := by
  rw [waitInLine, ← h]

theorem holdOf_waitInLine (l : List EpCmd) (s : State) (c : EpCmd) : holdOf (waitInLine l s) c = holdOf s c := rfl

/-- The count of deferred commands holds none back. -/
theorem holdOf_defer (s : State) (c : EpCmd) : holdOf (bump 0x3402 0x11 s) c = holdOf s c := by
  have hassigned : assigned (bump 0x3402 0x11 s) = assigned s := by
    rw [assigned, odGet_bump_ne _ _ _ _ _ (by decide)]
    rfl
  have hwindow : windowOf (bump 0x3402 0x11 s) (epDest c) = windowOf s (epDest c) := by
    rw [windowOf, odGet_bump_ne _ _ _ _ _ (by decide), odGet_bump_ne _ _ _ _ _ (by decide)]
    rfl
  simp only [holdOf, hassigned, hwindow]
  rfl

section
variable {c : EpCmd} {r : List EpCmd} {s : State} (hwaiting : s.ep.waiting = c :: r) (hbroken : isBroken s (epDest c) = false)
include hwaiting hbroken

theorem sendWaiting_of_open (hopen : holdOf s c = .no) (fuel : Nat) :
    sendWaiting (fuel + 1) s = sendWaiting fuel (sendCmd c (waitInLine r s)) := by
  simp only [sendWaiting, hwaiting, hbroken, hopen, Bool.false_eq_true, if_false, if_true]
  rfl

theorem sendWaiting_of_held (hheld : holdOf s c ≠ .no) (fuel : Nat) : sendWaiting (fuel + 1) s = s := by
  simp only [sendWaiting, hwaiting, hbroken, hheld, Bool.false_eq_true, if_false]
end

theorem sendWaiting_of_none {s : State} (hwaiting : s.ep.waiting = []) (fuel : Nat) : sendWaiting (fuel + 1) s = s := by
  simp only [sendWaiting, hwaiting]

section
variable {c : EpCmd} {s : State} (hbroken : isBroken s (epDest c) = false) (hwaiting : s.ep.waiting = [])
include hbroken hwaiting

/-- A command that nothing holds back leaves the line at once. -/
theorem submit_of_open (hopen : holdOf s c = .no) (hsent : (sendCmd c s).ep.waiting = []) : submit c s = sendCmd c s := by
  have hsubmit : submit c s = sendWaiting 2 (waitInLine [c] s) := by
    simp only [submit, hbroken, hwaiting, hopen, List.isEmpty_nil, Bool.false_eq_true, if_false]
    rfl
  have hline : waitInLine [] (waitInLine [c] s) = s := waitInLine_nil hwaiting
  rw [hsubmit, sendWaiting_of_open (s := waitInLine [c] s) rfl hbroken hopen, hline, sendWaiting_of_none hsent]

/-- A command that its window holds back waits, counted. -/
theorem submit_of_window (hclosed : holdOf s c = .window) : submit c s = waitInLine [c] (bump 0x3402 0x11 s) := by
  have hsubmit : submit c s = sendWaiting 2 (waitInLine [c] (bump 0x3402 0x11 s)) := by
    simp only [submit, hbroken, hwaiting, hclosed, List.isEmpty_nil, Bool.false_eq_true, if_false, bump_ep]
    rfl
  have hheld : holdOf (waitInLine [c] (bump 0x3402 0x11 s)) c ≠ .no := by
    rw [holdOf_waitInLine, holdOf_defer, hclosed]
    decide
  rw [hsubmit, sendWaiting_of_held (s := waitInLine [c] (bump 0x3402 0x11 s)) rfl hbroken hheld]
end

/-! ### The store count toward a destination (R159) -/

theorem storeCount_setCount_same (dest n : Nat) (s : State) : storeCount (setCount dest n s) dest = n := by
  by_cases h : n = 0 <;> simp [storeCount, setCount, mapGetD, h]

/-- The store count once a command leaves: a flag store carries it away, a counted store adds one. -/
def countSent (op : BitVec 5) (dest : Nat) (s : State) : State :=
  if op = opSTF then setCount dest 0 { s with ep := { s.ep with flagSeq := mapSet s.ep.flagSeq dest s.ep.nextSeq } }
  else if isCounted op then setCount dest ((storeCount s dest + 1) % 2 ^ 24) s
  else s

theorem storeCount_countSent (op : BitVec 5) (dest : Nat) (s : State) : storeCount (countSent op dest s) dest =
    if op = opSTF then 0 else if isCounted op then (storeCount s dest + 1) % 2 ^ 24 else storeCount s dest := by
  unfold countSent
  repeat' split
  · exact storeCount_setCount_same ..
  · exact storeCount_setCount_same ..
  · rfl

theorem countSent_only (op : BitVec 5) (dest : Nat) (s : State) : Only [.ep] s (countSent op dest s) :=
  Only.ite (setCount_parts _ _ (by decide) (Only.ep_upd (by decide) (.refl _ s)))
    (Only.ite (setCount_parts _ _ (by decide) (.refl _ s)) (.refl _ s))

theorem countSent_waiting (op : BitVec 5) (dest : Nat) (s : State) : (countSent op dest s).ep.waiting = s.ep.waiting := by
  unfold countSent
  repeat' split
  all_goals rfl

theorem passFences_waiting (tag : Option Nat) (s : State) : (passFences tag s).ep.waiting = s.ep.waiting := rfl

theorem storeCount_passFences (tag : Option Nat) (dest : Nat) (s : State) :
    storeCount (passFences tag s) dest = storeCount s dest := rfl

theorem opOf_eq_opSTF (op : BepOp) : opOf op = opSTF ↔ op = .stf := by
  cases op <;> decide

/-! ### A request that leaves (R154, R182) -/

/-- The TAG of a write or an atomic that source fences behind it cover. -/
def coveredTag (c : EpCmd) (s : State) : Option Nat := if isWrite (opOf c.cmd.op) then some (freeTag s c.use) else none

/-- The source as an agent's command leaves: its store count, the fences behind the command, the search for the next TAG. -/
def leaving (c : EpCmd) (s : State) : State :=
  searchFrom ((freeTag s .agent + 1) % 0xF000) (passFences (coveredTag c s) (countSent (opOf c.cmd.op) (epDest c).toNat s))

/-- The request cell of an agent's command. -/
def agentCell (c : EpCmd) (s : State) : Cell :=
  requestCell s c (freeTag s .agent) (if c.cmd.op = .stf then storeCount s (epDest c).toNat else 0)

theorem sendCmd_eq (c : EpCmd) (s : State) : sendCmd c s =
    launch (requestCell s c (freeTag s c.use) (if opOf c.cmd.op = opSTF then storeCount s (epDest c).toNat else 0)) c.cmd c.use
      (tagUsed (freeTag s c.use) (passFences (coveredTag c s) (countSent (opOf c.cmd.op) (epDest c).toNat s))) := rfl

theorem sendCmd_of_agent {c : EpCmd} (h : c.use = .agent) (s : State) :
    sendCmd c s = launch (agentCell c s) c.cmd .agent (leaving c s) := by
  rw [sendCmd_eq, h, tagUsed_of_lt (freeTag_agent_lt s)]
  simp only [opOf_eq_opSTF]
  rfl

theorem leaving_only (c : EpCmd) (s : State) : Only [.ep] s (leaving c s) :=
  (passFences_parts _ (by decide) (countSent_only _ _ s)).trans (searchFrom_only _ _)

theorem leaving_waiting (c : EpCmd) (s : State) : (leaving c s).ep.waiting = s.ep.waiting := by
  rw [leaving, searchFrom_waiting, passFences_waiting, countSent_waiting]

theorem storeCount_leaving (c : EpCmd) (s : State) : storeCount (leaving c s) (epDest c).toNat =
    if c.cmd.op = .stf then 0
    else if isCounted (opOf c.cmd.op) then (storeCount s (epDest c).toNat + 1) % 2 ^ 24 else storeCount s (epDest c).toNat := by
  rw [leaving, storeCount_searchFrom, storeCount_passFences, storeCount_countSent]
  simp only [opOf_eq_opSTF]

theorem agentCell_tag (c : EpCmd) (s : State) : (agentCell c s).tag.toNat = freeTag s .agent := by
  have hlt := freeTag_agent_lt s
  show (BitVec.ofNat 16 (freeTag s .agent)).toNat = _
  rw [BitVec.toNat_ofNat]
  omega

theorem agentCell_useEntry (c : EpCmd) (e : XEntry) (s : State) : agentCell c (useEntry e s) = agentCell c s := by
  have htag : freeTag (useEntry e s) .agent = freeTag s .agent := rfl
  rw [agentCell, htag]
  rfl

/-- A permitted command that nothing holds back becomes a request. -/
theorem agentCommand_of_open {cmd : BepCommand} {tn : BitVec 4} {s : State} {e : XEntry} (htenant : cmd.tenant = some tn)
    (he : translation cmd s = some e) (hpermitted : permitted e cmd = true) (hbroken : isBroken s (epDest (translated e cmd)) = false)
    (hwaiting : s.ep.waiting = []) (hopen : holdOf s (translated e cmd) = .no) : agentCommand { cmd := cmd } s =
      launch (agentCell (translated e cmd) s) cmd .agent (leaving (translated e cmd) (useEntry e s)) := by
  have hsend : sendCmd (translated e cmd) (useEntry e s) =
      launch (agentCell (translated e cmd) s) cmd .agent (leaving (translated e cmd) (useEntry e s)) := by
    rw [sendCmd_of_agent rfl, agentCell_useEntry, translated_cmd]
  have hsent : (sendCmd (translated e cmd) (useEntry e s)).ep.waiting = [] := by
    rw [hsend, launch_waiting, leaving_waiting]
    exact hwaiting
  rw [agentCommand_of_translated htenant he, if_pos hpermitted,
    submit_of_open (s := useEntry e s) hbroken hwaiting hopen hsent, hsend]

/-- Settles O27: a command with a translation that permits it is the only one in line, so it leaves or waits alone. -/
theorem commandsLeaveTheSource : Obligations.CommandsLeaveTheSource := by
  unfold Obligations.CommandsLeaveTheSource
  refine fun cmd s => ⟨fun h => ?untenanted, fun tn htenant => ⟨fun hcache hfills => ?filled, fun e he => ⟨fun hdenied => ?denied,
    fun c hc hpermitted hbroken hwaiting => ⟨fun hopen _ _ => ?sent, fun hclosed => ?deferred⟩⟩⟩⟩
  case untenanted => rw [exec_requestSend, agentCommand_of_untenanted h, refuseCommand]
  case filled =>
    rw [exec_requestSend, agentCommand_of_untranslated htenant hcache, waitFill_of_no_fill hfills]
    exact ⟨_, rfl, rfl, startFill_only _ s, rfl, rfl⟩
  case denied =>
    rw [exec_requestSend, agentCommand_of_translated htenant he, hdenied]
    rfl
  case sent =>
    obtain rfl : c = translated e cmd := hc
    have honly := leaving_only (translated e cmd) (useEntry e s)
    rw [exec_requestSend, agentCommand_of_open htenant he hpermitted hbroken hwaiting hopen]
    refine ⟨_, rfl, ?_, ?_, ?_, ?_, ?_⟩
    · rw [launch_outbox, honly .bep (by decide)]
      rfl
    · rw [← agentCell_tag (translated e cmd) s, launch_reqs]
      rfl
    · rw [launch_waiting, leaving_waiting]
      exact hwaiting
    · rw [storeCount_launch, storeCount_leaving]
      rfl
    · exact ((useEntry_only e s).mono (by decide)).trans ((honly.mono (by decide)).trans (launch_only _ _ _ _))
  case deferred =>
    obtain rfl : c = translated e cmd := hc
    have hdefer := submit_of_window (s := useEntry e s) hbroken hwaiting hclosed
    rw [exec_requestSend, agentCommand_of_translated htenant he, if_pos hpermitted, hdefer]
    refine ⟨_, rfl, rfl, rfl, rfl, odGet_bump_same .., ?_⟩
    exact Only.ep_upd (by decide) (bump_parts _ _ (by decide) ((useEntry_only e s).mono (by decide)))

end Sys2Proof.Machine
end

section
/-! SUPPORT. Lines of the attached memory read and written (R152, R358, R362). -/

namespace Sys2Proof.Machine

open Sys2Proof

/-! ### Byte strings -/

theorem slice_length (b : Bytes) (i n : Nat) : (slice b i n).length = n := by
  simp only [slice, List.length_append, List.length_take, List.length_drop, List.length_replicate]
  omega

/-! ### Reading a line -/

theorem lineBad_touchLine (line l : Nat) (write : Bool) (t : TenantKey) (s : State) :
    lineBad (touchLine line write t s) l = lineBad s l := rfl

theorem lineBytes_touchLine (line l : Nat) (write : Bool) (t : TenantKey) (s : State) :
    lineBytes (touchLine line write t s) l = lineBytes s l := rfl

theorem readLine_of_good {line : Nat} {s : State} (h : lineBad s line = false) (t : TenantKey) :
    readLine line t s = (some (lineBytes s line), touchLine line false t s) := by
  simp only [readLine, lineBad_touchLine, h, Bool.false_eq_true, if_false, lineBytes_touchLine]

/-! ### Writing a line -/

theorem getD_lineBytes (s : State) (line : Nat) {k : Nat} (h : k < 128) :
    (lineBytes s line).getD k 0 = cellGet s.mem.cells (128 * line + k) := by
  simp [lineBytes, cellsGet, List.getD, h]

theorem mergeMask_length (mask : Nat) (new old : Bytes) : (mergeMask mask new old).length = 128 := by
  simp [mergeMask]

theorem getD_mergeMask (mask : Nat) (new old : Bytes) {k : Nat} (h : k < 128) :
    (mergeMask mask new old).getD k 0 = if mask.testBit k then new.getD k 0 else old.getD k 0 := by
  simp [mergeMask, List.getD, h]

/-- A byte of memory after a line is written: the line's own bytes under the mask, every other as before. -/
theorem cellGet_putLine {s : State} (hwf : Memory.wf s.mem.cells = true) (line mask : Nat) (b : Bytes) (a : Nat) :
    cellGet (putLine line mask b s).mem.cells a =
      if a / 128 = line ∧ mask.testBit (a % 128) = true then b.getD (a % 128) 0 else cellGet s.mem.cells a := by
  have hlt : a % 128 < 128 := Nat.mod_lt _ (by decide)
  rw [putLine_cells]
  by_cases h : a / 128 = line
  · have ha : a = 128 * line + a % 128 := by omega
    have hin := cellGet_cellsPut_in (mergeMask mask b (lineBytes s line)) s.mem.cells (128 * line) (a % 128)
      (by rw [mergeMask_length]; exact hlt) hwf
    rw [← ha, getD_mergeMask _ _ _ hlt, getD_lineBytes s line hlt, ← ha] at hin
    simpa [h] using hin
  · rw [cellGet_cellsPut_out _ _ _ _ (by rw [mergeMask_length]; omega), if_neg fun hline => h hline.1]

/-- A write that succeeds: of a whole line, or of a line that can be corrected. -/
def Writable (s : State) (line mask : Nat) : Prop := mask % 2 ^ 128 = fullMask ∨ lineBad s line = false

/-- The poison of a line is cleared. -/
def unpoison (line : Nat) (s : State) : State :=
  { s with mem := { s.mem with poison := s.mem.poison.filter (fun l => l != line) } }

theorem writeLine_of_full {mask : Nat} (h : mask % 2 ^ 128 = fullMask) (line : Nat) (b : Bytes) (t : TenantKey) (s : State) :
    writeLine line mask b t s = (true, putLine line fullMask b (unpoison line (touchLine line true t s))) := if_pos h

theorem writeLine_of_good {line mask : Nat} {s : State} (hmask : mask % 2 ^ 128 ≠ fullMask) (h : lineBad s line = false) (b : Bytes)
    (t : TenantKey) : writeLine line mask b t s = (true, putLine line mask b (touchLine line true t s)) := by
  simp only [writeLine, if_neg hmask, lineBad_touchLine, h, Bool.false_eq_true, if_false]

theorem testBit_of_full {mask : Nat} (h : mask % 2 ^ 128 = fullMask) {k : Nat} (hk : k < 128) :
    fullMask.testBit k = mask.testBit k := by
  rw [← h, Nat.testBit_mod_two_pow, decide_eq_true hk, Bool.true_and]

/-- What a write of a line leaves as it is: everything beside the bytes, the accumulators and the releases. -/
def storeView (s : State) : List Cell × NMap AckRun × NMap Tally × Dict := (s.bep.outbox, s.bep.runs, s.bep.tally, s.dict)

section
variable {line mask : Nat} {s : State} (h : Writable s line mask) (b : Bytes) (t : TenantKey)
include h

theorem writeLine_succeeds : (writeLine line mask b t s).1 = true := by
  by_cases hmask : mask % 2 ^ 128 = fullMask
  · rw [writeLine_of_full hmask]
  · rw [writeLine_of_good hmask (h.resolve_left hmask)]

theorem writeLine_view : storeView (writeLine line mask b t s).2 = storeView s := by
  by_cases hmask : mask % 2 ^ 128 = fullMask
  · rw [writeLine_of_full hmask]
    rfl
  · rw [writeLine_of_good hmask (h.resolve_left hmask)]
    rfl

theorem writeLine_wf (hwf : Memory.wf s.mem.cells = true) : Memory.wf (writeLine line mask b t s).2.mem.cells = true := by
  by_cases hmask : mask % 2 ^ 128 = fullMask
  · rw [writeLine_of_full hmask]
    exact memoryOk_putLine line fullMask b (unpoison line (touchLine line true t s)) hwf
  · rw [writeLine_of_good hmask (h.resolve_left hmask)]
    exact memoryOk_putLine line mask b (touchLine line true t s) hwf

theorem cellGet_writeLine (hwf : Memory.wf s.mem.cells = true) (a : Nat) :
    cellGet (writeLine line mask b t s).2.mem.cells a =
      if a / 128 = line ∧ mask.testBit (a % 128) = true then b.getD (a % 128) 0 else cellGet s.mem.cells a := by
  by_cases hmask : mask % 2 ^ 128 = fullMask
  · rw [writeLine_of_full hmask, ← testBit_of_full hmask (Nat.mod_lt _ (by decide))]
    exact cellGet_putLine (s := unpoison line (touchLine line true t s)) hwf line fullMask b a
  · rw [writeLine_of_good hmask (h.resolve_left hmask)]
    exact cellGet_putLine (s := touchLine line true t s) hwf line mask b a
end

end Sys2Proof.Machine
end

section
/-! SUPPORT. Requests served by the resident BEP: the tally, answers and acknowledgement runs, reads and stores (R152–R160, R170,
R171). -/

namespace Sys2Proof.Machine

open Sys2Proof

/-! ### A request of a source without an entry in the tally (R160) -/

theorem serveRequest_eq (c : Cell) (s : State) : serveRequest c s = destRequest c (leaveIntake c s) := rfl

/-- One store of a source without an entry is counted. -/
def countFirst (src : Nat) (s : State) : State := setTally src { count := 1 } s

theorem countFirst_count (src : Nat) (s : State) : (tally (countFirst src s) src).count = 1 := by
  simp [tally, countFirst, setTally, idleTally]

section
variable {c : Cell} {s : State} (h : mapGet s.bep.tally c.src.toNat = none)
include h

theorem tally_of_none : tally s c.src.toNat = {} := by
  rw [tally, mapGetD, h, Option.getD_none]

theorem serveRequest_of_uncounted (hfen : c.op ≠ opFEN) (hcounted : isCounted c.op = false) (hstf : c.op ≠ opSTF) :
    serveRequest c s = applyRequest c (leaveIntake c s) := by
  have htally : tally (leaveIntake c s) c.src.toNat = {} := tally_of_none h
  rw [serveRequest_eq, destRequest, htally]
  simp [hfen, hcounted, hstf]

theorem serveRequest_of_counted (hroom : s.bep.tally.length < 8192) (hfen : c.op ≠ opFEN) (hcounted : isCounted c.op = true) :
    serveRequest c s = applyRequest c (countFirst c.src.toNat (leaveIntake c s)) := by
  have htally : tally (leaveIntake c s) c.src.toNat = {} := tally_of_none h
  have hlength : ¬8192 ≤ s.bep.tally.length := by omega
  rw [serveRequest_eq, destRequest, htally]
  simp [hfen, hcounted, hlength, countFirst]
end

/-! ### Answers to a source without an open run (R155) -/

theorem closeRun_of_none {src : Nat} {s : State} (h : mapGet s.bep.runs src = none) : closeRun src s = s := by
  simp only [closeRun, h]

theorem countRefusal_only (detail : Nat) (s : State) : Only [.dict] s (countRefusal detail s) :=
  countRefusal_parts detail (List.Subset.refl _) (.refl _ s)

theorem destErr_of_no_run {c : Cell} {s : State} (h : mapGet s.bep.runs c.src.toNat = none) (code detail : Nat) :
    destErr c code detail s = bepSend (errFor c code detail) (countRefusal detail s) := by
  have hrun : mapGet (countRefusal detail s).bep.runs c.src.toNat = none := by rwa [countRefusal_only detail s .bep (by decide)]
  rw [destErr, refuseCell, closeRun_of_none hrun]

/-- A refused request changes no byte and is answered by one `ERR`. -/
theorem destErr_answers {c : Cell} {s : State} (h : mapGet s.bep.runs c.src.toNat = none) (code detail : Nat) :
    (destErr c code detail s).mem = s.mem ∧
      (destErr c code detail s).bep.outbox = s.bep.outbox ++ [errFor c code detail] := by
  rw [destErr_of_no_run h]
  refine ⟨countRefusal_only detail s .mem (by decide), ?_⟩
  rw [← countRefusal_only detail s .bep (by decide)]
  rfl

/-- The run that a request opens. -/
def firstRun (c : Cell) : AckRun := { n := 1, last := c, cmark := c.cmark.toNat }

/-- An acknowledgement run opens. -/
def openRun (c : Cell) (s : State) : State :=
  { s with bep := { s.bep with runs := mapSet s.bep.runs c.src.toNat (firstRun c) } }

theorem openRun_run (c : Cell) (s : State) : mapGet (openRun c s).bep.runs c.src.toNat = some (firstRun c) := mapGet_mapSet_same ..

theorem ackRequest_of_no_run {c : Cell} {s : State} (h : mapGet s.bep.runs c.src.toNat = none) : ackRequest c s =
    if endsRun c.op = true ∨ odGet s 0x3400 1 = 0 then closeRun c.src.toNat (openRun c s) else openRun c s := by
  have hshort : ¬65535 ≤ 1 := by decide
  simp only [ackRequest, h, hshort, false_or]
  rfl

/-- The `ACK` of a run of one request. -/
theorem closeRun_of_first {c : Cell} {s : State} (h : mapGet s.bep.runs c.src.toNat = some (firstRun c)) :
    (closeRun c.src.toNat s).bep.outbox = s.bep.outbox ++ [ackFor c 1] := by
  have hmark : BitVec.ofNat 2 (firstRun c).cmark = c.cmark := by simp [firstRun]
  simp only [closeRun, h, hmark]
  rfl

/-- What an acknowledgement leaves as it is: the tally and the releases. -/
def orderView (s : State) : NMap Tally × List Release := (s.bep.tally, s.bep.releases)

theorem closeRun_view (src : Nat) (s : State) : orderView (closeRun src s) = orderView s := by
  unfold closeRun
  split <;> rfl

theorem ackRequest_view {c : Cell} {s : State} (h : mapGet s.bep.runs c.src.toNat = none) :
    orderView (ackRequest c s) = orderView s := by
  rw [ackRequest_of_no_run h]
  split
  · exact closeRun_view ..
  · rfl

theorem ackRequest_mem (c : Cell) (s : State) : (ackRequest c s).mem = s.mem :=
  ackRequest_parts c (List.Subset.refl _) (.refl _ s) .mem (by decide)

/-- With no coalescing delay, and for a request that ends a run, the `ACK` leaves at once. -/
theorem ackRequest_answers {c : Cell} {s : State} (h : mapGet s.bep.runs c.src.toNat = none)
    (hnow : endsRun c.op = true ∨ odGet s 0x3400 1 = 0) : (ackRequest c s).bep.outbox = s.bep.outbox ++ [ackFor c 1] := by
  rw [ackRequest_of_no_run h, if_pos hnow, closeRun_of_first (openRun_run c s)]
  rfl

/-- With a coalescing delay a request that ends no run only opens one. -/
theorem ackRequest_opens {c : Cell} {s : State} (h : mapGet s.bep.runs c.src.toNat = none)
    (hlater : ¬(endsRun c.op = true ∨ odGet s 0x3400 1 = 0)) : ackRequest c s = openRun c s := by
  rw [ackRequest_of_no_run h, if_neg hlater]

/-! ### Reads (R152, R153, R171) -/

/-- A request under one operation. -/
def asOp (c : Cell) (op : BitVec 5) : Cell := { c with op := op }

@[simp] theorem asOp_src (c : Cell) (op : BitVec 5) : (asOp c op).src = c.src := rfl
@[simp] theorem asOp_tag (c : Cell) (op : BitVec 5) : (asOp c op).tag = c.tag := rfl

/-- The `DAT` cells of `n` lines from request line `k` on: a cell a pair of lines. -/
def dataCells (c : Cell) (line : Nat → Bytes) : Nat → Nat → List Cell
  | _, 0 => []
  | k, 1 => [datFor c 1 k true (line k)]
  | k, n + 2 => datFor c 2 k (decide (n = 0)) (line k ++ line (k + 1)) :: dataCells c line (k + 2) n

theorem cellDest_mkAddr (dest : BitVec 16) (off : Nat) : (mkAddr dest off).extractLsb' 48 16 = dest := by
  unfold mkAddr
  exact BitVec.extractLsb'_append_eq_left

theorem dataCells_answer (c : Cell) (line : Nat → Bytes) (k n : Nat) :
    ∀ r ∈ dataCells c line k n, r.op = opDAT ∧ r.tag = c.tag ∧ cellDest r = c.src := by
  induction k, n using dataCells.induct with
  | case1 k => simp [dataCells]
  | case2 k => simp [dataCells, datFor, respond, cellDest, cellDest_mkAddr]
  | case3 k n ih => simpa [dataCells, datFor, respond, cellDest, cellDest_mkAddr] using ih

theorem dataCells_payload (c : Cell) (line : Nat → Bytes) (k n : Nat) :
    (dataCells c line k n).flatMap (fun r => r.payload) = (List.range' k n).flatMap line := by
  induction k, n using dataCells.induct with
  | case1 k => rfl
  | case2 k => simp [dataCells, datFor]
  | case3 k n ih => simp [dataCells, datFor, List.range'_succ, ih, List.append_assoc]

/-- Line `k` of a request. -/
def requestLine (c : Cell) (s : State) (k : Nat) : Bytes := lineBytes s (cellOff c / 128 + k)

/-- A pair of lines has been read and sent. -/
def sendPair (c : Cell) (k : Nat) (last : Bool) (s : State) : State :=
  bepSend (datFor c 2 k last (requestLine c s k ++ requestLine c s (k + 1)))
    (touchLine (cellOff c / 128 + (k + 1)) false c.tenant.toNat (touchLine (cellOff c / 128 + k) false c.tenant.toNat s))

section
variable (c : Cell) {k : Nat} {s : State} (hfirst : lineBad s (cellOff c / 128 + k) = false)
include hfirst

theorem sendLines_one (fuel : Nat) : sendLines c false k 1 (fuel + 1) s =
    bepSend (datFor c 1 k true (requestLine c s k)) (touchLine (cellOff c / 128 + k) false c.tenant.toNat s) := by
  simp only [sendLines, readLine_of_good hfirst]
  rfl

theorem sendLines_two (hsecond : lineBad s (cellOff c / 128 + (k + 1)) = false) (n fuel : Nat) :
    sendLines c false k (n + 2) (fuel + 1) s = sendLines c false (k + 2) n fuel (sendPair c k (decide (n = 0)) s) := by
  have hnext := readLine_of_good (s := touchLine (cellOff c / 128 + k) false c.tenant.toNat s) hsecond c.tenant.toNat
  have hmore : decide (2 ≤ n + 2) = true := decide_eq_true (by omega)
  have hlast : decide (n + 2 = 2) = decide (n = 0) := by simp
  rw [sendLines]
  simp only [readLine_of_good hfirst, Nat.add_assoc, hnext, hmore, hlast, Nat.add_sub_cancel, if_true]
  rfl
end

/-- Lines that can be corrected are sent in order, and nothing is written. -/
theorem sendLines_of_good (c : Cell) {k n fuel : Nat} {s : State} (hfuel : n < 2 * fuel)
    (hgood : ∀ j < n, lineBad s (cellOff c / 128 + (k + j)) = false) :
    (sendLines c false k n fuel s).mem.cells = s.mem.cells ∧
      (sendLines c false k n fuel s).bep.outbox = s.bep.outbox ++ dataCells c (requestLine c s) k n := by
  induction fuel generalizing k n s with
  | zero => omega
  | succ fuel ih =>
    match n with
    | 0 => simp [sendLines, dataCells]
    | 1 =>
      rw [sendLines_one c (k := k) (hgood 0 (by omega))]
      exact ⟨rfl, rfl⟩
    | n + 2 =>
      have hrest : ∀ j < n, lineBad (sendPair c k (decide (n = 0)) s) (cellOff c / 128 + (k + 2 + j)) = false := by
        intro j hj
        have h := hgood (j + 2) (by omega)
        rwa [show k + (j + 2) = k + 2 + j by omega] at h
      obtain ⟨hcells, houtbox⟩ := ih (by omega) hrest
      rw [sendLines_two c (k := k) (hgood 0 (by omega)) (hgood 1 (by omega))]
      refine ⟨hcells, houtbox.trans ?_⟩
      rw [dataCells, List.append_cons]
      rfl

theorem applyRead_of_refused {c : Cell} {s : State} {code detail : Nat} (h : firstRefusal s c = some (code, detail)) :
    applyRead c s = destErr c code detail s := by
  simp only [applyRead, h]

theorem checkAcquire_of_no_release {s : State} (h : s.bep.releases = []) (line scope tenant : Nat) (who : Agent) :
    checkAcquire line scope tenant who s = (false, s) := by
  simp [checkAcquire, h]

theorem applyRead_of_good {c : Cell} {s : State} (h : firstRefusal s c = none) (hacquire : c.op = opLDA → s.bep.releases = []) :
    applyRead c s = sendLines c false 0 c.len.toNat 17 s := by
  simp only [applyRead, h]
  by_cases hop : c.op = opLDA
  · simp [hop, checkAcquire_of_no_release (hacquire hop)]
  · simp [hop]

theorem requestLine_cells (c : Cell) (s : State) :
    (cellLines c).flatMap (fun l => lineBytes s l) = (List.range' 0 c.len.toNat).flatMap (requestLine c s) := by
  rw [cellLines, List.flatMap_map, ← List.range_eq_range']
  rfl

/-! ### Stores (R152, R160, R170) -/

theorem applyStore_of_refused {c : Cell} {s : State} {code detail : Nat} (h : firstRefusal s c = some (code, detail)) :
    applyStore c s = destErr c code detail s := by
  simp only [applyStore, h]

/-- The first `n` lines of a store are written. -/
def storeLines (c : Cell) (n : Nat) (s : State) : State :=
  (List.range n).foldl (fun s k => (writeLine (cellOff c / 128 + k) fullMask (payloadLine c k) c.tenant.toNat s).2) s

theorem applyStore_of_lines {c : Cell} {s : State} (h : firstRefusal s c = none) (hop : c.op = opST) :
    applyStore c s = ackRequest c (storeLines c c.len.toNat s) := by
  simp only [applyStore, h, hop, if_true]
  rfl

theorem storeLines_succ (c : Cell) (n : Nat) (s : State) : storeLines c (n + 1) s =
    (writeLine (cellOff c / 128 + n) fullMask (payloadLine c n) c.tenant.toNat (storeLines c n s)).2 := by
  rw [storeLines, List.range_succ, List.foldl_append]
  rfl

theorem writable_full (s : State) (line : Nat) : Writable s line fullMask := .inl (by decide)

theorem storeLines_view (c : Cell) (n : Nat) (s : State) : storeView (storeLines c n s) = storeView s := by
  induction n with
  | zero => rfl
  | succ n ih => rw [storeLines_succ, writeLine_view (writable_full _ _), ih]

theorem storeLines_wf (c : Cell) (n : Nat) {s : State} (hwf : Memory.wf s.mem.cells = true) :
    Memory.wf (storeLines c n s).mem.cells = true := by
  induction n with
  | zero => exact hwf
  | succ n ih =>
    rw [storeLines_succ]
    exact writeLine_wf (writable_full _ _) _ _ ih

/-- Each line written holds its line of the payload, every other byte is as before. -/
theorem cellGet_storeLines (c : Cell) (n : Nat) {s : State} (hwf : Memory.wf s.mem.cells = true) (a : Nat) :
    cellGet (storeLines c n s).mem.cells a = if cellOff c / 128 * 128 ≤ a ∧ a < (cellOff c / 128 + n) * 128
      then (payloadLine c ((a - cellOff c / 128 * 128) / 128)).getD (a % 128) 0 else cellGet s.mem.cells a := by
  induction n with
  | zero => rw [if_neg (by omega)]; rfl
  | succ n ih =>
    have hbit : fullMask.testBit (a % 128) = true := by
      rw [fullMask, Nat.testBit_two_pow_sub_one]
      exact decide_eq_true (Nat.mod_lt _ (by decide))
    rw [storeLines_succ, cellGet_writeLine (writable_full _ _) _ _ (storeLines_wf c n hwf), ih]
    by_cases hline : a / 128 = cellOff c / 128 + n
    · have hindex : (a - cellOff c / 128 * 128) / 128 = n := by omega
      rw [if_pos ⟨hline, hbit⟩, if_pos (by omega), hindex]
    · rw [if_neg fun h => hline h.1]
      exact if_congr (by omega) rfl rfl

/-- A store under a mask has released its line at its scope. -/
def released (c : Cell) (s : State) : State :=
  match releaseScope c with
  | some sc => recordRelease (cellOff c / 128) sc (senderOf c) s
  | none => s

theorem released_view (c : Cell) (s : State) : storeView (released c s) = storeView s := by
  unfold released
  split <;> rfl

theorem released_mem (c : Cell) (s : State) : (released c s).mem = s.mem := by
  unfold released
  split <;> rfl

theorem released_of_stl {c : Cell} (h : c.op = opSTL) (s : State) :
    (released c s).bep.releases.head? = some { line := cellOff c / 128, scope := c.scope.toNat, who := senderOf c } := by
  simp [released, releaseScope, h, recordRelease]

/-- The masked bytes of a store are written. -/
def storeMasked (c : Cell) (s : State) : State :=
  (writeLine (cellOff c / 128) (maskedMask c) (maskedLine c) c.tenant.toNat s).2

theorem applyStore_of_masked {c : Cell} {s : State} (h : firstRefusal s c = none) (hop : c.op ≠ opST)
    (hgood : lineBad s (cellOff c / 128) = false) : applyStore c s = ackRequest c (released c (storeMasked c s)) := by
  have hdone := writeLine_succeeds (.inr hgood : Writable s (cellOff c / 128) (maskedMask c)) (maskedLine c) c.tenant.toNat
  simp only [applyStore, h, if_neg hop, hdone, if_true]
  rfl

theorem storeMasked_view {c : Cell} {s : State} (hgood : lineBad s (cellOff c / 128) = false) :
    storeView (storeMasked c s) = storeView s := writeLine_view (.inr hgood) _ _

theorem cellGet_storeMasked {c : Cell} {s : State} (hgood : lineBad s (cellOff c / 128) = false)
    (hwf : Memory.wf s.mem.cells = true) (a : Nat) : cellGet (storeMasked c s).mem.cells a =
      if a / 128 = cellOff c / 128 ∧ (maskedMask c).testBit (a % 128) = true then (maskedLine c).getD (a % 128) 0
      else cellGet s.mem.cells a := cellGet_writeLine (.inr hgood) _ _ hwf a

/-! ### A store acknowledged (R155, R160) -/

theorem storeView_eq_iff (s t : State) : storeView t = storeView s ↔
    t.bep.outbox = s.bep.outbox ∧ t.bep.runs = s.bep.runs ∧ t.bep.tally = s.bep.tally ∧ t.dict = s.dict := by
  simp [storeView]

section
variable {c : Cell} {s t : State} (hview : storeView t = storeView s) (hrun : mapGet s.bep.runs c.src.toNat = none)
include hview hrun

theorem tally_ackRequest (src : Nat) : tally (ackRequest c t) src = tally s src := by
  obtain ⟨-, hruns, htally, -⟩ := (storeView_eq_iff s t).mp hview
  have hkept := congrArg Prod.fst (ackRequest_view (hruns ▸ hrun : mapGet t.bep.runs c.src.toNat = none))
  exact congrArg (mapGetD · src {}) (hkept.trans htally)

theorem releases_ackRequest : (ackRequest c t).bep.releases = t.bep.releases := by
  obtain ⟨-, hruns, -, -⟩ := (storeView_eq_iff s t).mp hview
  exact congrArg Prod.snd (ackRequest_view (hruns ▸ hrun : mapGet t.bep.runs c.src.toNat = none))

theorem outbox_ackRequest (hnow : endsRun c.op = true ∨ odGet s 0x3400 1 = 0) :
    (ackRequest c t).bep.outbox = s.bep.outbox ++ [ackFor c 1] := by
  obtain ⟨houtbox, hruns, -, hdict⟩ := (storeView_eq_iff s t).mp hview
  rw [← odGet_congr (congrArg Dict.od hdict)] at hnow
  rw [ackRequest_answers (hruns ▸ hrun) hnow, houtbox]

theorem run_ackRequest (hlater : ¬(endsRun c.op = true ∨ odGet s 0x3400 1 = 0)) :
    (ackRequest c t).bep.outbox = s.bep.outbox ∧ mapGet (ackRequest c t).bep.runs c.src.toNat = some (firstRun c) := by
  obtain ⟨houtbox, hruns, -, hdict⟩ := (storeView_eq_iff s t).mp hview
  rw [← odGet_congr (congrArg Dict.od hdict)] at hlater
  rw [ackRequest_opens (hruns ▸ hrun) hlater]
  exact ⟨houtbox, openRun_run c t⟩
end

/-! ### The commands -/

theorem applyRequest_of_read {c : Cell} (h : c.op = opLD ∨ c.op = opLDV ∨ c.op = opLDA) (s : State) :
    applyRequest c s = applyRead c s := if_pos h

theorem applyRequest_of_counted {c : Cell} (h : isCounted c.op = true) (s : State) : applyRequest c s = applyStore c s := by
  simp only [isCounted, Bool.or_eq_true, beq_iff_eq] at h
  rcases h with (h | h) | h
  all_goals simp [applyRequest, h, opLD, opLDV, opLDA, opAT, opFEN, opST, opSTM, opSTL]

section
variable {c : Cell} {s : State} (h : mapGet s.bep.tally c.src.toNat = none)
include h

theorem serveRequest_of_read (hop : c.op = opLD ∨ c.op = opLDV ∨ c.op = opLDA) :
    serveRequest c s = applyRead c (leaveIntake c s) := by
  have hkind : c.op ≠ opFEN ∧ isCounted c.op = false ∧ c.op ≠ opSTF := by
    rcases hop with hop | hop | hop
    all_goals rw [hop]; decide
  obtain ⟨hfen, hcounted, hstf⟩ := hkind
  rw [serveRequest_of_uncounted h hfen hcounted hstf, applyRequest_of_read hop]

theorem exec_read {x : Instr × BitVec 5} (hx : x ∈ ([(.ld c, opLD), (.ldv c, opLDV), (.lda c, opLDA)] : List (Instr × BitVec 5))) :
    exec x.1 s = .next (applyRead (asOp c x.2) (leaveIntake (asOp c x.2) s)) := by
  simp only [List.mem_cons, List.not_mem_nil, or_false] at hx
  rcases hx with rfl | rfl | rfl
  · exact congrArg Host.Outcome.next (serveRequest_of_read (c := asOp c opLD) h (.inl rfl))
  · exact congrArg Host.Outcome.next (serveRequest_of_read (c := asOp c opLDV) h (.inr (.inl rfl)))
  · exact congrArg Host.Outcome.next (serveRequest_of_read (c := asOp c opLDA) h (.inr (.inr rfl)))
end

/-- The source's first store is counted before it writes. -/
def countedStore (c : Cell) (op : BitVec 5) (s : State) : State := countFirst c.src.toNat (leaveIntake (asOp c op) s)

/-- A masked store that the tally counts; the release ends its run. -/
theorem masked_op {op : BitVec 5} (h : op = opSTM ∨ op = opSTL) : op ≠ opST ∧ (op = opSTL → endsRun op = true) := by
  rcases h with rfl | rfl
  all_goals decide

theorem countedStore_run {c : Cell} {op : BitVec 5} {s : State} (h : mapGet s.bep.runs c.src.toNat = none) :
    mapGet (countedStore c op s).bep.runs (asOp c op).src.toNat = none := h

section
variable {c : Cell} {s : State} (h : mapGet s.bep.tally c.src.toNat = none) (hroom : s.bep.tally.length < 8192)
include h hroom

theorem serveRequest_of_store {op : BitVec 5} (hop : isCounted op = true) :
    serveRequest (asOp c op) s = applyStore (asOp c op) (countedStore c op s) := by
  have hfen : op ≠ opFEN := by
    rintro rfl
    exact absurd hop (by decide)
  rw [serveRequest_of_counted (c := asOp c op) h hroom hfen hop, applyRequest_of_counted hop]
  rfl

theorem exec_store {x : Instr × BitVec 5}
    (hx : x ∈ ([(.st c, opST), (.stm c, opSTM), (.stl c, opSTL)] : List (Instr × BitVec 5))) :
    exec x.1 s = .next (applyStore (asOp c x.2) (countedStore c x.2 s)) := by
  simp only [List.mem_cons, List.not_mem_nil, or_false] at hx
  rcases hx with rfl | rfl | rfl
  · exact congrArg Host.Outcome.next (serveRequest_of_store (op := opST) h hroom (by decide))
  · exact congrArg Host.Outcome.next (serveRequest_of_store (op := opSTM) h hroom (by decide))
  · exact congrArg Host.Outcome.next (serveRequest_of_store (op := opSTL) h hroom (by decide))
end

/-- Settles O24: the lines of a read leave in pairs, a store writes line by line and is then acknowledged, and a refusal is one
`ERR`. -/
theorem loadsReadAndStoresWrite : Obligations.LoadsReadAndStoresWrite := by
  unfold Obligations.LoadsReadAndStoresWrite
  refine fun c s htally hrun hroom _ _ hwf => ⟨fun x hx => ⟨fun hnone hgood hlen _ hacquire => ?read,
    fun code detail hrefused => ?unread⟩, fun hnone => ?lines, fun x hx hnone hgood => ?masked, fun x hx code detail hrefused => ?unwritten⟩
  case read =>
    have hline : ∀ j < c.len.toNat, lineBad s (cellOff c / 128 + (0 + j)) = false := by
      intro j hj
      have hmem : cellOff c / 128 + j ∈ cellLines c := List.mem_map.mpr ⟨j, List.mem_range.mpr hj, rfl⟩
      simpa using List.all_eq_true.mp hgood _ hmem
    have hserved : applyRead (asOp c x.2) (leaveIntake (asOp c x.2) s) =
        sendLines (asOp c x.2) false 0 c.len.toNat 17 (leaveIntake (asOp c x.2) s) := applyRead_of_good hnone hacquire
    obtain ⟨hcells, houtbox⟩ :=
      sendLines_of_good (asOp c x.2) (s := leaveIntake (asOp c x.2) s) (by omega : c.len.toNat < 2 * 17) hline
    rw [exec_read htally hx, hserved]
    refine ⟨_, rfl, hcells, ?_, ?_, ?_⟩
    · rw [houtbox]
      exact List.take_left
    · rw [houtbox, leaveIntake_bep, List.drop_left]
      exact List.all_eq_true.mpr fun r hr => by simpa [and_assoc] using dataCells_answer (asOp c x.2) _ 0 c.len.toNat r hr
    · rw [houtbox, leaveIntake_bep, List.drop_left, dataCells_payload, requestLine_cells]
      rfl
  case unread =>
    have hserved : applyRead (asOp c x.2) (leaveIntake (asOp c x.2) s) = destErr (asOp c x.2) code detail (leaveIntake (asOp c x.2) s) :=
      applyRead_of_refused hrefused
    rw [exec_read htally hx, hserved]
    exact ⟨_, rfl, destErr_answers (c := asOp c x.2) (s := leaveIntake (asOp c x.2) s) hrun code detail⟩
  case lines =>
    have hview := storeLines_view (asOp c opST) c.len.toNat (countedStore c opST s)
    have hfirst := countedStore_run (op := opST) hrun
    have hserved : applyStore (asOp c opST) (countedStore c opST s) =
        ackRequest (asOp c opST) (storeLines (asOp c opST) c.len.toNat (countedStore c opST s)) := applyStore_of_lines hnone rfl
    have hopen (hdelay : odGet s 0x3400 1 ≠ 0) := run_ackRequest hview hfirst (not_or.mpr ⟨Bool.false_ne_true, hdelay⟩)
    rw [exec_store htally hroom (x := (.st c, opST)) (by simp), hserved]
    refine ⟨_, rfl, ?_, fun a => ?_, ?_, fun hdelay => (hopen hdelay).2⟩
    · rw [tally_ackRequest hview hfirst]
      exact countFirst_count ..
    · rw [ackRequest_mem]
      exact cellGet_storeLines (asOp c opST) c.len.toNat (s := countedStore c opST s) hwf a
    · split
      · next hnow => exact outbox_ackRequest (s := countedStore c opST s) hview hfirst (.inr hnow)
      · next hdelay => exact (hopen hdelay).1
  case masked =>
    have hop : x.2 = opSTM ∨ x.2 = opSTL := by
      simp only [List.mem_cons, List.not_mem_nil, or_false] at hx
      rcases hx with rfl | rfl
      · exact .inl rfl
      · exact .inr rfl
    obtain ⟨hmask, hends⟩ := masked_op hop
    have hview := (released_view (asOp c x.2) _).trans (storeMasked_view (c := asOp c x.2) (s := countedStore c x.2 s) hgood)
    have hfirst := countedStore_run (op := x.2) hrun
    have hserved : applyStore (asOp c x.2) (countedStore c x.2 s) =
        ackRequest (asOp c x.2) (released (asOp c x.2) (storeMasked (asOp c x.2) (countedStore c x.2 s))) :=
      applyStore_of_masked hnone hmask hgood
    rw [exec_store htally hroom (List.mem_cons_of_mem _ hx), hserved]
    refine ⟨_, rfl, ?_, fun a => ?_, fun hnow => ?_, fun hstl => ?_⟩
    · rw [tally_ackRequest hview hfirst]
      exact countFirst_count ..
    · rw [ackRequest_mem, released_mem]
      exact cellGet_storeMasked (c := asOp c x.2) (s := countedStore c x.2 s) hgood hwf a
    · exact outbox_ackRequest (s := countedStore c x.2 s) hview hfirst (hnow.symm.imp hends id)
    · rw [releases_ackRequest hview hfirst]
      exact released_of_stl hstl _
  case unwritten =>
    have hserved : applyStore (asOp c x.2) (countedStore c x.2 s) = destErr (asOp c x.2) code detail (countedStore c x.2 s) :=
      applyStore_of_refused hrefused
    rw [exec_store htally hroom hx, hserved]
    exact ⟨_, rfl, destErr_answers (c := asOp c x.2) (s := countedStore c x.2 s) hrun code detail⟩

end Sys2Proof.Machine
end

section
/-! SUPPORT. Atomics of the resident BEP: the word read, the word written and the answer (R174–R178, R181). -/

namespace Sys2Proof.Machine

open Sys2Proof

/-! ### A word of a line -/

theorem testBit_wordMask (off w k : Nat) : (wordMask off w).testBit k = (decide (off % 128 ≤ k) && decide (k - off % 128 < w)) := by
  rw [wordMask, Nat.testBit_mul_two_pow, Nat.testBit_two_pow_sub_one]

/-- The bytes of a splice within the part replaced. -/
theorem getD_splice {b d : Bytes} {i k : Nat} (hlow : i ≤ k) (hhigh : k - i < d.length) :
    (splice b i d).getD k 0 = d.getD (k - i) 0 := by
  have hlength := slice_length b 0 i
  rw [splice, List.append_assoc, List.getD_append_right _ _ _ _ (by omega), hlength, List.getD_append _ _ _ _ hhigh]

theorem atWidth_cases {aux : BitVec 32} (h : aux.toNat % 4 ≤ 2) : atWidth aux = 2 ∨ atWidth aux = 4 ∨ atWidth aux = 8 := by
  have hcases : aux.toNat % 4 = 0 ∨ aux.toNat % 4 = 1 ∨ aux.toNat % 4 = 2 := by omega
  rcases hcases with h | h | h
  all_goals simp [atWidth, h]

/-- The bytes of an aligned word are those of its line under the word's mask. -/
theorem mem_word_iff {off w : Nat} (hw : w = 2 ∨ w = 4 ∨ w = 8) (haligned : off % w = 0) (a : Nat) :
    (a / 128 = off / 128 ∧ (wordMask off w).testBit (a % 128) = true) ↔ (off ≤ a ∧ a < off + w) := by
  rw [testBit_wordMask, Bool.and_eq_true, decide_eq_true_eq, decide_eq_true_eq]
  rcases hw with rfl | rfl | rfl
  all_goals omega

/-! ### The word written -/

/-- The word of an atomic as it stood. -/
def oldWord (c : Cell) (b : Bytes) : Nat := fieldAt b (cellOff c % 128) (atWidth c.aux)

/-- The word of an atomic is written into its line. -/
def putWord (c : Cell) (b : Bytes) (v : Nat) (s : State) : State :=
  (writeLine (cellOff c / 128) (wordMask (cellOff c) (atWidth c.aux)) (splice b (cellOff c % 128) (natLe (atWidth c.aux) v))
    c.tenant.toNat s).2

/-- The accumulator of the word is kept; a float add outside every region is counted. -/
def keepAcc (c : Cell) (acc : Option Acc) (s : State) : State :=
  match acc with
  | some a => { s with bep := { s.bep with
      exact := mapSet s.bep.exact (8 * cellOff c + fmtWidth (c.aux.toNat / 8 % 4)) a } }
  | none => if c.sub = 1 then bump 0x3400 0x15 s else s

theorem atomicOn_eq (c : Cell) (b : Bytes) (s0 s : State) : atomicOn c b s0 s =
    (oldWord c b, keepAcc c (atNew s0 c (oldWord c b)).2 (putWord c b (atNew s0 c (oldWord c b)).1 s)) := rfl

theorem keepAcc_mem (c : Cell) (acc : Option Acc) (s : State) : (keepAcc c acc s).mem = s.mem := by
  unfold keepAcc
  repeat' split
  all_goals rfl

theorem keepAcc_outbox (c : Cell) (acc : Option Acc) (s : State) : (keepAcc c acc s).bep.outbox = s.bep.outbox := by
  unfold keepAcc
  repeat' split
  all_goals rfl

theorem keepAcc_runs (c : Cell) (acc : Option Acc) (s : State) : (keepAcc c acc s).bep.runs = s.bep.runs := by
  unfold keepAcc
  repeat' split
  all_goals rfl

theorem mapGet_keepAcc (c : Cell) (a : Acc) (s : State) :
    mapGet (keepAcc c (some a) s).bep.exact (8 * cellOff c + fmtWidth (c.aux.toNat / 8 % 4)) = some a := mapGet_mapSet_same ..

section
variable {c : Cell} {s : State} (hwidth : c.aux.toNat % 4 ≤ 2) (haligned : cellOff c % atWidth c.aux = 0)
  (hgood : lineBad s (cellOff c / 128) = false) (b : Bytes) (v : Nat)
include hgood

theorem putWord_view : storeView (putWord c b v s) = storeView s := writeLine_view (.inr hgood) _ _

include hwidth haligned

theorem cellGet_putWord (hwf : Memory.wf s.mem.cells = true) (a : Nat) : cellGet (putWord c b v s).mem.cells a =
    if cellOff c ≤ a ∧ a < cellOff c + atWidth c.aux then (natLe (atWidth c.aux) v).getD (a - cellOff c) 0
    else cellGet s.mem.cells a := by
  have hword := mem_word_iff (atWidth_cases hwidth) haligned a
  rw [putWord, cellGet_writeLine (.inr hgood) _ _ hwf]
  by_cases h : cellOff c ≤ a ∧ a < cellOff c + atWidth c.aux
  · obtain ⟨hline, hbit⟩ := hword.mpr h
    obtain ⟨hlow, hhigh⟩ := h
    rw [if_pos ⟨hline, hbit⟩, if_pos ⟨hlow, hhigh⟩, getD_splice (by omega) (by rw [natLe_length]; omega)]
    congr 1
    omega
  · rw [if_neg (mt hword.mp h), if_neg h]
end

/-! ### The answer (R155, R176) -/

/-- What an atomic is answered with: the word as it stood, or an `ACK` of its own. -/
def atReply (c : Cell) (old : Nat) : Cell :=
  if atFetch c then { datFor c 1 0 true (natLe 8 old) with aux := 0 } else ackFor c 1

theorem atAnswer_bep {c : Cell} {s : State} (h : mapGet s.bep.runs c.src.toNat = none) (old : Nat) :
    (atAnswer c old s).bep = { s.bep with outbox := s.bep.outbox ++ [atReply c old] } := by
  rw [atAnswer, closeRun_of_none h, atReply]
  split <;> rfl

theorem atAnswer_mem (c : Cell) (old : Nat) (s : State) : (atAnswer c old s).mem = s.mem :=
  atAnswer_parts c old (List.Subset.refl _) (.refl _ s) .mem (by decide)

/-! ### The request -/

/-- The word as an atomic finds it. -/
def wordBefore (c : Cell) (s : State) : Nat := oldWord c (lineBytes s (cellOff c / 128))

/-- The word and its accumulator are written. -/
def atWritten (c : Cell) (s : State) : State :=
  keepAcc c (atNew s c (wordBefore c s)).2
    (putWord c (lineBytes s (cellOff c / 128)) (atNew s c (wordBefore c s)).1 (touchLine (cellOff c / 128) false c.tenant.toNat s))

theorem applyAtomic_of_unaligned {c : Cell} (h : cellOff c % atWidth c.aux ≠ 0) (s : State) :
    applyAtomic c s = destErr c errAlign 0 s := if_pos h

theorem applyAtomic_of_good {c : Cell} {s : State} (haligned : cellOff c % atWidth c.aux = 0)
    (hnone : memRefusal s c.tenant.toNat (cellOff c / 128) = none) (hgood : lineBad s (cellOff c / 128) = false) :
    applyAtomic c s = atAnswer c (wordBefore c s) (atWritten c s) := by
  simp only [applyAtomic, haligned, ne_eq, not_true_eq_false, if_false, hnone, readLine_of_good hgood, atomicOn_eq]
  rfl

theorem mapGet_atWritten {c : Cell} {s : State} {acc : Acc} (h : (atNew s c (wordBefore c s)).2 = some acc) :
    mapGet (atWritten c s).bep.exact (8 * cellOff c + fmtWidth (c.aux.toNat / 8 % 4)) = some acc := by
  rw [atWritten, h]
  exact mapGet_keepAcc ..

section
variable {c : Cell} {s : State} (hgood : lineBad s (cellOff c / 128) = false)
include hgood

theorem cellGet_atWritten (hwidth : c.aux.toNat % 4 ≤ 2) (haligned : cellOff c % atWidth c.aux = 0)
    (hwf : Memory.wf s.mem.cells = true) (a : Nat) : cellGet (atWritten c s).mem.cells a =
      if cellOff c ≤ a ∧ a < cellOff c + atWidth c.aux
      then (natLe (atWidth c.aux) (atNew s c (wordBefore c s)).1).getD (a - cellOff c) 0 else cellGet s.mem.cells a := by
  have hput := cellGet_putWord (s := touchLine (cellOff c / 128) false c.tenant.toNat s) hwidth haligned hgood
    (lineBytes s (cellOff c / 128)) (atNew s c (wordBefore c s)).1 hwf a
  rw [atWritten, keepAcc_mem, hput]
  rfl

theorem atWritten_outbox : (atWritten c s).bep.outbox = s.bep.outbox ∧ (atWritten c s).bep.runs = s.bep.runs := by
  have hview := putWord_view (s := touchLine (cellOff c / 128) false c.tenant.toNat s) hgood (lineBytes s (cellOff c / 128))
    (atNew s c (wordBefore c s)).1
  obtain ⟨houtbox, hruns, -, -⟩ := (storeView_eq_iff _ _).mp hview
  rw [atWritten, keepAcc_outbox, keepAcc_runs]
  exact ⟨houtbox, hruns⟩

theorem atAnswer_atWritten (hrun : mapGet s.bep.runs c.src.toNat = none) (old : Nat) :
    (atAnswer c old (atWritten c s)).bep =
      { (atWritten c s).bep with outbox := s.bep.outbox ++ [atReply c old] } := by
  obtain ⟨houtbox, hruns⟩ := atWritten_outbox hgood
  rw [← hruns] at hrun
  rw [atAnswer_bep hrun, houtbox]
end

/-! ### The new word (R176, R177) -/

theorem atNew_float {c : Cell} (hsub : c.sub = 1) (s : State) (old : Nat) : (atNew s c old).1 =
    if inRegion s (cellOff c) (c.aux.toNat / 8 % 4) then
      accRound (regionFmt (c.aux.toNat / 8 % 4)) .rne
        (accAdd (mapGetD s.bep.exact (8 * cellOff c + fmtWidth (c.aux.toNat / 8 % 4))
            (accLoad (decodeFV (regionFmt (c.aux.toNat / 8 % 4)) old)))
          (decodeFV (regionFmt (c.aux.toNat / 8 % 4)) (atOperand c)))
    else roundFV (regionFmt (c.aux.toNat / 8 % 4)) .rne false
      (sumFV .rne [decodeFV (regionFmt (c.aux.toNat / 8 % 4)) old, decodeFV (regionFmt (c.aux.toNat / 8 % 4)) (atOperand c)]) := by
  by_cases h : inRegion s (cellOff c) (c.aux.toNat / 8 % 4) = true <;> simp [atNew, hsub, h]

theorem atNew_of_region {c : Cell} {s : State} (hsub : c.sub = 1) (h : inRegion s (cellOff c) (c.aux.toNat / 8 % 4) = true) (old : Nat) :
    (atNew s c old).2 = some (accAdd (mapGetD s.bep.exact (8 * cellOff c + fmtWidth (c.aux.toNat / 8 % 4))
        (accLoad (decodeFV (regionFmt (c.aux.toNat / 8 % 4)) old)))
      (decodeFV (regionFmt (c.aux.toNat / 8 % 4)) (atOperand c))) := by
  simp [atNew, hsub, h]

/-! ### The commands -/

theorem serveRequest_of_atomic {c : Cell} {s : State} (h : mapGet s.bep.tally c.src.toNat = none) (hop : c.op = opAT) :
    serveRequest c s = applyAtomic c (leaveIntake c s) := by
  have hkind : c.op ≠ opFEN ∧ isCounted c.op = false ∧ c.op ≠ opSTF := by
    rw [hop]
    decide
  have hread : ¬(c.op = opLD ∨ c.op = opLDV ∨ c.op = opLDA) := by
    rw [hop]
    decide
  obtain ⟨hfen, hcounted, hstf⟩ := hkind
  rw [serveRequest_of_uncounted h hfen hcounted hstf, applyRequest, if_neg hread, if_pos hop]

/-- Settles O26: each atomic writes the word that its function gives, under a mask of that word, and then answers. -/
theorem atomicsUpdateOneWord : Obligations.AtomicsUpdateOneWord := by
  unfold Obligations.AtomicsUpdateOneWord
  intro c s htally hrun hwf _ hwidth w hw old hold
  subst hw hold
  have hexec (sub : BitVec 4) :
      serveRequest (atCell c sub) s = applyAtomic (atCell c sub) (leaveIntake (atCell c sub) s) :=
    serveRequest_of_atomic (c := atCell c sub) htally rfl
  refine ⟨fun x hx => ?each, fun hregion haligned hfmt hnone hgood => ?region⟩
  case each =>
    have htable : exec x.1 s = .next (serveRequest (atCell c x.2.1) s) ∧
        (atNew s (atCell c x.2.1) (wordBefore c s)).1 = x.2.2 := by
      simp only [List.mem_cons, List.not_mem_nil, or_false] at hx
      rcases hx with rfl | rfl | rfl | rfl | rfl | rfl | rfl | rfl | rfl
      all_goals refine ⟨rfl, ?_⟩
      on_goal 9 => exact atNew_float rfl s _
      all_goals rfl
    obtain ⟨hx, hvalue⟩ := htable
    rw [hx, hexec]
    refine ⟨fun haligned hnone hgood => ?_, fun hunaligned => ?_⟩
    · have hserved : applyAtomic (atCell c x.2.1) (leaveIntake (atCell c x.2.1) s) =
          atAnswer (atCell c x.2.1) (wordBefore c s) (atWritten (atCell c x.2.1) (leaveIntake (atCell c x.2.1) s)) :=
        applyAtomic_of_good haligned hnone hgood
      have hanswer := atAnswer_atWritten (c := atCell c x.2.1) (s := leaveIntake (atCell c x.2.1) s) hgood hrun (wordBefore c s)
      have hword := cellGet_atWritten (c := atCell c x.2.1) (s := leaveIntake (atCell c x.2.1) s) hgood hwidth haligned hwf
      rw [hserved]
      refine ⟨_, rfl, fun a => ?_, ?_⟩
      · rw [atAnswer_mem, ← hvalue]
        exact hword a
      · rw [hanswer]
        rfl
    · rw [applyAtomic_of_unaligned (c := atCell c x.2.1) hunaligned]
      exact ⟨_, rfl, destErr_answers (c := atCell c x.2.1) (s := leaveIntake (atCell c x.2.1) s) hrun errAlign 0⟩
  case region =>
    have hserved : applyAtomic (atCell c 1) (leaveIntake (atCell c 1) s) =
        atAnswer (atCell c 1) (wordBefore c s) (atWritten (atCell c 1) (leaveIntake (atCell c 1) s)) :=
      applyAtomic_of_good haligned hnone hgood
    have hanswer := atAnswer_atWritten (c := atCell c 1) (s := leaveIntake (atCell c 1) s) hgood hrun (wordBefore c s)
    have hacc := mapGet_atWritten (atNew_of_region (c := atCell c 1) (s := leaveIntake (atCell c 1) s) rfl hregion (wordBefore c s))
    have hexact : exec (.atExactFloatAdd c) s = .next (serveRequest (atCell c 1) s) := rfl
    have hkey : 8 * cellOff c + atWidth c.aux = 8 * cellOff c + fmtWidth (c.aux.toNat / 8 % 4) := by rw [hfmt]
    rw [hexact, hexec, hserved]
    refine ⟨_, rfl, ?_⟩
    rw [hanswer, hkey]
    exact hacc

end Sys2Proof.Machine
end

section
/-! SUPPORT. The members of the grotto and the directory: how a member answers a probe, how the directory takes the answer, and the
loss of a member that does not answer (R209–R211, R214, R219). -/

namespace Sys2Proof.Machine

open Sys2Proof

/-! ### The member's side (R210, R211) -/

theorem exec_snpReceive (p : PortN) (c : Cell) (s : State) : exec (.snpReceive p c) s = .next (snpReceive p.val c s) := rfl

/-- Unlisting one key leaves the others. -/
theorem mapGet_mapErase_ne {α : Type} (m : NMap α) {k j : Nat} (h : j ≠ k) : mapGet (mapErase m k) j = mapGet m j := by
  induction m with
  | nil => rfl
  | cons e r ih =>
    obtain ⟨i, v⟩ := e
    by_cases hi : i = k
    · have herased : mapErase ((i, v) :: r) k = mapErase r k := by simp [mapErase, hi]
      have hother : i ≠ j := fun e => h (e.symm.trans hi)
      simp only [herased, ih, mapGet, if_neg hother]
    · have hkept : mapErase ((i, v) :: r) k = (i, v) :: mapErase r k := by simp [mapErase, hi]
      simp only [hkept, mapGet, ih]

/-- The line is returned exactly where it was M and the probe is INV, DOWN or PEEK. -/
theorem memberAnswer_returns_iff (kind : Nat) (st : MemberState) :
    (memberAnswer kind st).1 = true ↔ st = .m ∧ (kind = 1 ∨ kind = 2 ∨ kind = 3) := by
  unfold memberAnswer
  split <;> grind

/-- INV takes the line from the member. -/
theorem memberAnswer_inv (st : MemberState) : (memberAnswer 1 st).2 = .i := by
  cases st <;> rfl

/-- DOWN leaves a line in E or M in S. -/
theorem memberAnswer_down {st : MemberState} (h : st = .e ∨ st = .m) : (memberAnswer 2 st).2 = .s := by
  rcases h with rfl | rfl <;> rfl

/-- PEEK changes no state. -/
theorem memberAnswer_peek (st : MemberState) : (memberAnswer 3 st).2 = st := by
  cases st <;> rfl

/-- The lines that members hold, with the one under `key` in state `st`; a line in I is not listed. -/
def holdLine (key : Nat) (st : MemberState) (b : Bytes) (held : NMap (MemberState × Bytes)) : NMap (MemberState × Bytes) :=
  if st = .i then mapErase held key else mapSet held key (st, b)

theorem mapGet_holdLine_same (key : Nat) (st : MemberState) (b : Bytes) (held : NMap (MemberState × Bytes)) :
    mapGet (holdLine key st b held) key = if st = .i then none else some (st, b) := by
  unfold holdLine
  split <;> simp

theorem mapGet_holdLine_ne {key j : Nat} (h : j ≠ key) (st : MemberState) (b : Bytes) (held : NMap (MemberState × Bytes)) :
    mapGet (holdLine key st b held) j = mapGet held j := by
  unfold holdLine
  split
  · exact mapGet_mapErase_ne held h
  · exact mapGet_mapSet_ne held key j _ h

/-- The number under which a member's copy of a line is listed. -/
def heldKey (p : Nat) (c : Cell) : Nat := 8 * windowLine (BitVec.ofNat 16 c.aux.toNat) (cellOff c) + p

/-- The state and the bytes of a member's copy of the line that a probe names. -/
def heldLine (p : Nat) (c : Cell) (s : State) : MemberState × Bytes := mapGetD s.grotto.held (heldKey p c) (.i, [])

/-- What the member answers to a probe, and what becomes of its line. -/
def heldAnswer (p : Nat) (c : Cell) (s : State) : Bool × MemberState := memberAnswer c.sub.toNat (heldLine p c s).1

theorem snpReceive_held (p : Nat) (c : Cell) (s : State) : (snpReceive p c s).grotto.held =
    holdLine (heldKey p c) (heldAnswer p c s).2 (heldLine p c s).2 s.grotto.held := rfl

theorem mapGet_snpReceive_same (p : Nat) (c : Cell) (s : State) : mapGet (snpReceive p c s).grotto.held (heldKey p c) =
    if (heldAnswer p c s).2 = .i then none else some ((heldAnswer p c s).2, (heldLine p c s).2) := by
  rw [snpReceive_held, mapGet_holdLine_same]

theorem mapGet_snpReceive_of_inv {p : Nat} {c : Cell} (h : c.sub = 1) (s : State) :
    mapGet (snpReceive p c s).grotto.held (heldKey p c) = none := by
  have hlost : (heldAnswer p c s).2 = .i := by
    rw [heldAnswer, h]
    exact memberAnswer_inv _
  rw [mapGet_snpReceive_same, if_pos hlost]

theorem mapGet_snpReceive_of_down {p : Nat} {c : Cell} {s : State} (h : c.sub = 2)
    (hst : (heldLine p c s).1 = .e ∨ (heldLine p c s).1 = .m) :
    mapGet (snpReceive p c s).grotto.held (heldKey p c) = some (.s, (heldLine p c s).2) := by
  have hshared : (heldAnswer p c s).2 = .s := by
    rw [heldAnswer, h]
    exact memberAnswer_down hst
  rw [mapGet_snpReceive_same, hshared]
  rfl

theorem heldLine_snpReceive_of_peek {p : Nat} {c : Cell} {s : State} (h : c.sub = 3) (hst : (heldLine p c s).1 ≠ .i) :
    heldLine p c (snpReceive p c s) = heldLine p c s := by
  have hkept : (heldAnswer p c s).2 = (heldLine p c s).1 := by
    rw [heldAnswer, h]
    exact memberAnswer_peek _
  rw [heldLine, mapGetD, mapGet_snpReceive_same, hkept, if_neg hst]
  rfl

/-- The `SNR` of a member. -/
def snrCell (p : Nat) (c : Cell) (s : State) : Cell :=
  { c with
    addr := mkAddr c.src (cellOff c), src := cellDest c, op := opSNR, sub := if (heldAnswer p c s).1 then 2 else 1,
    len := if (heldAnswer p c s).1 then 1 else 0, payload := if (heldAnswer p c s).1 then slice (heldLine p c s).2 0 128 else [] }

theorem snpReceive_sent (p : Nat) (c : Cell) (s : State) : (snpReceive p c s).sent = .endPoint p (snrCell p c s) :: s.sent := rfl

theorem cellDest_snrCell (p : Nat) (c : Cell) (s : State) : cellDest (snrCell p c s) = c.src := cellDest_mkAddr _ _

theorem heldAnswer_returns_iff (p : Nat) (c : Cell) (s : State) :
    (heldAnswer p c s).1 = true ↔ (heldLine p c s).1 = .m ∧ (c.sub = 1 ∨ c.sub = 2 ∨ c.sub = 3) := by
  rw [heldAnswer, memberAnswer_returns_iff]
  simp only [← BitVec.toNat_inj]
  rfl

/-- A line in M goes back whole. -/
theorem snrCell_of_returned {p : Nat} {c : Cell} {s : State} (h : (heldAnswer p c s).1 = true) :
    (snrCell p c s).sub = 2 ∧ (snrCell p c s).len = 1 ∧ (snrCell p c s).payload = slice (heldLine p c s).2 0 128 :=
  ⟨if_pos h, if_pos h, if_pos h⟩

theorem snrCell_of_clean {p : Nat} {c : Cell} {s : State} (h : ¬(heldAnswer p c s).1 = true) :
    (snrCell p c s).sub = 1 ∧ (snrCell p c s).len = 0 := ⟨if_neg h, if_neg h⟩

theorem snpReceive_only (p : Nat) (c : Cell) (s : State) : Only [.grotto, .sent] s (snpReceive p c s) :=
  snpReceive_parts p c (List.Subset.refl _) (.refl _ s)

/-! ### Answers at the directory (R209, R219) -/

theorem exec_snrReceive (c : Cell) (s : State) : exec (.snrReceive c) s = .next (snrReceive c s) := rfl

/-- The answer leaves the list of cells taken from its port's stall. -/
def takeSnr (c : Cell) (s : State) : State := if h : coordP c.src < 24 then takeFrom ⟨coordP c.src, h⟩ c s else s

theorem takeSnr_only (c : Cell) (s : State) : Only [.ports] s (takeSnr c s) :=
  .gdite (fun _ => takeFrom_parts _ c (List.Subset.refl _) (.refl _ s)) (fun _ => .refl _ s)

@[simp] theorem takeSnr_grotto (c : Cell) (s : State) : (takeSnr c s).grotto = s.grotto := takeSnr_only c s .grotto (by decide)

/-- An answer that nothing awaits is counted, and changes no line. -/
theorem discardSnr_counts (c : Cell) (s : State) :
    odGet (bump 0x3500 0x1B (takeSnr c s)) 0x3500 0x1B = min (2 ^ 64 - 1) (odGet s 0x3500 0x1B + 1) ∧
      Only [.ports, .dict] s (bump 0x3500 0x1B (takeSnr c s)) := by
  have htaken := takeSnr_only c s
  refine ⟨?_, (htaken.mono (by decide)).trans ((bump_only _ _ _).mono (by decide))⟩
  rw [odGet_bump_same, odGet_congr (congrArg Dict.od (htaken .dict (by decide)))]

theorem snrReceive_of_unknown {c : Cell} {s : State} (h : mapGet s.grotto.probes c.tag.toNat = none) :
    snrReceive c s = bump 0x3500 0x1B (takeSnr c s) := by
  unfold snrReceive
  extract_lets m taken
  have htaken : taken.grotto = s.grotto := takeSnr_grotto c s
  rw [htaken, h]
  rfl

/-- An answer of another member than the one probed, or of a lost one. -/
theorem snrReceive_of_other {c : Cell} {s : State} {p : Probe} (h : mapGet s.grotto.probes c.tag.toNat = some p)
    (hother : p.member ≠ coordP c.src ∨ s.grotto.lostMask.toNat.testBit p.member = true) :
    snrReceive c s = bump 0x3500 0x1B (takeSnr c s) := by
  have hnot : ¬(p.member = coordP c.src ∧ s.grotto.lostMask.toNat.testBit (coordP c.src) = false) := by
    rintro ⟨hsame, hthere⟩
    exact hother.elim (fun h => h hsame) (fun h => ne_true_of_eq_false hthere (hsame ▸ h))
  unfold snrReceive
  extract_lets m taken
  have htaken : taken.grotto = s.grotto := takeSnr_grotto c s
  rw [htaken, h]
  exact if_neg hnot

/-- The line that a `SNR` DATA carries. -/
def snrData (c : Cell) : Option Bytes := if c.sub = 2 then some (payloadLine c 0) else none

/-- A `SNR` DATA is counted. -/
def countData (c : Cell) (s : State) : State := if c.sub = 2 then bump 0x3500 0x15 s else s

@[simp] theorem countData_grotto (c : Cell) (s : State) : (countData c s).grotto = s.grotto := by
  unfold countData
  split <;> rfl

/-- The answer of the member probed, while it is not lost. -/
theorem snrReceive_of_probed {c : Cell} {s : State} {p : Probe} (h : mapGet s.grotto.probes c.tag.toNat = some p)
    (hsame : p.member = coordP c.src) (hthere : s.grotto.lostMask.toNat.testBit p.member = false) :
    snrReceive c s = pumpWork 4096 (probeAnswered c.tag.toNat (snrData c) (countData c (takeSnr c s))) := by
  rw [hsame] at hthere
  unfold snrReceive
  extract_lets m taken
  have htaken : taken.grotto = s.grotto := takeSnr_grotto c s
  rw [htaken, h]
  exact if_pos ⟨hsame, hthere⟩

/-- With no line waiting to be probed, nothing starts. -/
theorem pumpWork_of_no_work {s : State} (h : s.grotto.work = []) (fuel : Nat) : pumpWork fuel s = s := by
  cases fuel with
  | zero => rfl
  | succ n => simp [pumpWork, h]

/-- A busy line that the answer under `tag` has reached. -/
def takeProbe (tag : Nat) (data : Option Bytes) (b : Busy) : Busy := { b with waits := b.waits.erase tag, data := b.data.or data }

/-- One of several answers that a line waits for: it is taken off, its data kept. -/
theorem probeAnswered_of_waiting {tag : Nat} {s : State} {p : Probe} {b : Busy} (data : Option Bytes)
    (h : mapGet s.grotto.probes tag = some p) (hline : mapGet s.grotto.lines p.line = some b)
    (hwaits : (b.waits.erase tag).isEmpty = false) : probeAnswered tag data s =
      setBusy p.line (takeProbe tag data b) (modGrotto (fun g => { g with probes := mapErase g.probes tag }) s) := by
  unfold probeAnswered
  rw [h]
  extract_lets forgotten
  have hlines : forgotten.grotto.lines = s.grotto.lines := rfl
  rw [hlines]
  dsimp only
  rw [hline]
  exact if_neg (ne_true_of_eq_false hwaits)

theorem snrReceive_of_waiting {c : Cell} {s : State} {p : Probe} {b : Busy} (h : mapGet s.grotto.probes c.tag.toNat = some p)
    (hsame : p.member = coordP c.src) (hthere : s.grotto.lostMask.toNat.testBit p.member = false) (hwork : s.grotto.work = [])
    (hline : mapGet s.grotto.lines p.line = some b) (hwaits : (b.waits.erase c.tag.toNat).isEmpty = false) :
    mapGet (snrReceive c s).grotto.probes c.tag.toNat = none ∧
      mapGet (snrReceive c s).grotto.lines p.line = some (takeProbe c.tag.toNat (snrData c) b) := by
  have htaken : (countData c (takeSnr c s)).grotto = s.grotto := by simp
  have hanswered := probeAnswered_of_waiting (s := countData c (takeSnr c s)) (snrData c) (by rw [htaken, h]) (by rw [htaken, hline])
    hwaits
  have hidle : (probeAnswered c.tag.toNat (snrData c) (countData c (takeSnr c s))).grotto.work = [] := by
    rw [hanswered]
    exact (congrArg Grotto.work htaken).trans hwork
  rw [snrReceive_of_probed h hsame hthere, pumpWork_of_no_work hidle, hanswered]
  exact ⟨mapGet_mapErase_same _ _, mapGet_mapSet_same _ _ _⟩

/-! ### The loss of a member (R219) -/

theorem exec_probeTimeout (tag : BitVec 16) (s : State) : exec (.probeTimeout tag) s = .next (probeTimeout tag.toNat s) := rfl

/-- The lost-member mask and the loss walks. -/
def lossMarks (s : State) : BitVec 8 × List (Nat × Nat) := (s.grotto.lostMask, s.grotto.walks)

theorem Only.lossMarks {l : List Part} {s t : State} (h : Only l s t) (g : Part.grotto ∉ l) : lossMarks t = lossMarks s := by
  rw [Machine.lossMarks, h .grotto g]
  rfl

theorem lossMarks_ite {s a b : State} {c : Prop} [Decidable c] (ha : lossMarks a = lossMarks s) (hb : lossMarks b = lossMarks s) :
    lossMarks (if c then a else b) = lossMarks s := by
  split
  · exact ha
  · exact hb

@[simp] theorem setBusy_lossMarks (e : Nat) (b : Busy) (s : State) : lossMarks (setBusy e b s) = lossMarks s := rfl

@[simp] theorem bump_lossMarks (i j : Nat) (s : State) : lossMarks (bump i j s) = lossMarks s := rfl

@[simp] theorem putLine_lossMarks (line mask : Nat) (b : Bytes) (s : State) : lossMarks (putLine line mask b s) = lossMarks s := rfl

@[simp] theorem readLine_lossMarks (line : Nat) (t : TenantKey) (s : State) : lossMarks (readLine line t s).2 = lossMarks s :=
  (readLine_parts line t (List.Subset.refl _) (Only.refl _ s)).lossMarks (by decide)

@[simp] theorem answerIn_lossMarks (input store index : Nat) (c : Cell) (s : State) :
    lossMarks (answerIn input store index c s) = lossMarks s :=
  (answerIn_parts input store index c (List.Subset.refl _) (Only.refl _ s)).lossMarks (by decide)

@[simp] theorem enqueue_lossMarks (input out store index : Nat) (c : Cell) (s : State) :
    lossMarks (enqueue input out store index c s) = lossMarks s :=
  (enqueue_parts input out store index c (List.Subset.refl _) (Only.refl _ s)).lossMarks (by decide)

@[simp] theorem windowRelease_lossMarks (c : Cell) (s : State) : lossMarks (windowRelease c s) = lossMarks s :=
  (windowRelease_parts c (List.Subset.refl _) (Only.refl _ s)).lossMarks (by decide)

@[simp] theorem dropBlock_lossMarks (x : Nat × Bool) (s : State) : lossMarks (dropBlock x s) = lossMarks s := by
  unfold dropBlock
  split <;> rfl

@[simp] theorem repairBlock_lossMarks (b : Nat) (s : State) : lossMarks (repairBlock b s) = lossMarks s :=
  (logEvent_only _ _ _).lossMarks (by decide)

@[simp] theorem useBlock_lossMarks (e : Nat) (dirty : Bool) (s : State) : lossMarks (useBlock e dirty s) = lossMarks s := by
  unfold useBlock
  extract_lets b missed set evicted listed r
  have hevicted : lossMarks evicted = lossMarks s := by
    unfold evicted
    split
    · split
      · exact dropBlock_lossMarks _ missed
      · rfl
    · rfl
  have hread : lossMarks r.2 = lossMarks s := (readLine_lossMarks _ _ _).trans hevicted
  split
  · rfl
  · split
    · exact hread
    · exact (repairBlock_lossMarks _ _).trans hread

@[simp] theorem writeDir_lossMarks (e : Nat) (d : DirEntry) (s : State) : lossMarks (writeDir e d s) = lossMarks s :=
  useBlock_lossMarks e true (setDir e d s)

@[simp] theorem settle_lossMarks (e : Nat) (s : State) : lossMarks (settle e s) = lossMarks s := by
  unfold settle
  split
  · split <;> rfl
  · rfl

@[simp] theorem tagUsed_lossMarks (tag : Nat) (s : State) : lossMarks (tagUsed tag s) = lossMarks s := by
  have hagent (x : Ep) : lossMarks { s with ep := x } = lossMarks s := rfl
  have hback (n : Nat) : lossMarks { s with grotto := { s.grotto with nextWb := n } } = lossMarks s := rfl
  unfold tagUsed
  split
  · exact hagent _
  · exact hback _

@[simp] theorem sendWriteBack_lossMarks (e : Nat) (data : Bytes) (s : State) : lossMarks (sendWriteBack e data s).2 = lossMarks s := by
  unfold sendWriteBack
  extract_lets tag loc dest cell cmd counted
  have hcounted : lossMarks counted = lossMarks s :=
    ((setCount_parts _ _ (List.Subset.refl _) (Only.refl _ (bump 0x3500 0x16 s))).lossMarks (by decide)).trans (bump_lossMarks _ _ s)
  have hlaunch := (launch_parts cell cmd (.writeBack e) (List.Subset.refl _) (Only.refl _ (tagUsed tag counted))).lossMarks (by decide)
  exact hlaunch.trans ((tagUsed_lossMarks tag counted).trans hcounted)

@[simp] theorem forwardRequest_lossMarks (input : Nat) (q : QEntry) (entry : Option Nat) (s : State) :
    lossMarks (forwardRequest input q entry s) = lossMarks s := by
  unfold forwardRequest
  extract_lets c noted
  have hnoted : lossMarks noted = lossMarks s := by
    unfold noted
    split <;> rfl
  exact (enqueue_lossMarks _ _ _ _ _ _).trans hnoted

/-- What the directory does once the probes of a line have answered loses no member. -/
theorem probesDone_lossMarks (e : Nat) (s : State) : lossMarks (probesDone e s) = lossMarks s := by
  unfold probesDone
  split
  · rfl
  · next b _ =>
    extract_lets written
    have hwritten : lossMarks written = lossMarks s := writeDir_lossMarks e b.next s
    split
    · split
      · split <;> simp [hwritten]
      · simp [hwritten]
    · split
      · refine lossMarks_ite ?_ (lossMarks_ite (by simp [hwritten]) (by simp [hwritten]))
        extract_lets _ _ answered back
        have hanswered : lossMarks answered = lossMarks s := (answerIn_lossMarks _ _ _ _ _).trans hwritten
        refine lossMarks_ite ?_ hanswered
        have hback : lossMarks back.2 = lossMarks s := (sendWriteBack_lossMarks e _ answered).trans hanswered
        split
        · exact (setBusy_lossMarks e _ back.2).trans hback
        · exact hback
      · simp [hwritten]

theorem probeAnswered_lossMarks (tag : Nat) (data : Option Bytes) (s : State) :
    lossMarks (probeAnswered tag data s) = lossMarks s := by
  unfold probeAnswered
  split
  · rfl
  · extract_lets forgotten
    split
    · rfl
    · extract_lets b busy
      split
      · exact probesDone_lossMarks _ busy
      · rfl

theorem cleanProbes_lossMarks (m : Nat) (s : State) : lossMarks (cleanProbes m s) = lossMarks s := by
  unfold cleanProbes
  generalize s.grotto.probes.filter (fun e => e.2.member == m) = l
  induction l generalizing s with
  | nil => rfl
  | cons e r ih => exact (ih _).trans (probeAnswered_lossMarks e.1 none s)

/-- A member that is lost is masked, and its loss walk starts at the first entry. -/
theorem loseMember_lossMarks {m : Nat} {s : State} (hon : dirEnabled s = true) (hm : m < 8) : lossMarks (loseMember m s) =
    (s.grotto.lostMask ||| oneMember m, s.grotto.walks.filter (fun w => w.1 != m) ++ [(m, 0)]) := by
  unfold loseMember
  rw [if_pos ⟨hon, hm⟩]
  exact cleanProbes_lossMarks m _

theorem probeTimeout_of_none {tag : Nat} {s : State} (h : mapGet s.grotto.probes tag = none) : probeTimeout tag s = s := by
  rw [probeTimeout, h]

theorem probeTimeout_of_some {tag : Nat} {s : State} {p : Probe} (h : mapGet s.grotto.probes tag = some p) :
    probeTimeout tag s = loseMember p.member s := by
  rw [probeTimeout, h]

theorem probeTimeout_loses {tag : Nat} {s : State} {p : Probe} (h : mapGet s.grotto.probes tag = some p)
    (hon : dirEnabled s = true) (hm : p.member < 8) :
    (probeTimeout tag s).grotto.lostMask = s.grotto.lostMask ||| oneMember p.member ∧
      (p.member, 0) ∈ (probeTimeout tag s).grotto.walks := by
  obtain ⟨hmask, hwalks⟩ := Prod.mk.inj (loseMember_lossMarks hon hm)
  rw [probeTimeout_of_some h, hmask, hwalks]
  exact ⟨rfl, List.mem_append_right _ (List.mem_singleton.mpr rfl)⟩

/-! ### A forwarded request without an answer (R214) -/

theorem exec_forwardTimeout (e : Nat) (s : State) : exec (.forwardTimeout e) s = .next (forwardTimeout e s) := rfl

/-- Settling a line either ends it or leaves it busy as it was. -/
theorem settle_line (e : Nat) (s : State) : mapGet (settle e s).grotto.lines e = none ∨
    mapGet (settle e s).grotto.lines e = mapGet s.grotto.lines e := by
  unfold settle
  split
  · split
    · exact .inl (mapGet_mapErase_same _ _)
    · exact .inr rfl
  · exact .inr rfl

theorem odGet_settle (e i j : Nat) (s : State) : odGet (settle e s) i j = odGet s i j :=
  odGet_congr (congrArg Dict.od (settle_parts e (List.Subset.refl _) (Only.refl _ s) .dict (by decide))) i j

theorem forwardTimeout_of_none {e : Nat} {s : State} (h : mapGet s.grotto.lines e = none) : forwardTimeout e s = s := by
  rw [forwardTimeout, h]

theorem forwardTimeout_of_settled {e : Nat} {s : State} {b : Busy} (h : mapGet s.grotto.lines e = some b) (howed : b.owed = false) :
    forwardTimeout e s = s := by
  rw [forwardTimeout, h]
  exact if_neg (ne_true_of_eq_false howed)

/-- The requests in order, with those of the line kept as requests that no line awaits. -/
def dropForward (e : Nat) (s : State) : State :=
  modGrotto (fun g => { g with fwd := g.fwd.map (fun x => if x.2.2.2 = some e then (x.1, x.2.1, x.2.2.1, none) else x) }) s

theorem forwardTimeout_of_owed {e : Nat} {s : State} {b : Busy} (h : mapGet s.grotto.lines e = some b) (howed : b.owed = true) :
    forwardTimeout e s = bump 0x3500 0x1E (settle e (setBusy e { b with owed := false } (dropForward e s))) := by
  rw [forwardTimeout, h]
  exact if_pos howed

theorem forwardTimeout_ends {e : Nat} {s : State} {b : Busy} (h : mapGet s.grotto.lines e = some b) (howed : b.owed = true) :
    (mapGet (forwardTimeout e s).grotto.lines e = none ∨ mapGet (forwardTimeout e s).grotto.lines e = some { b with owed := false }) ∧
      odGet (forwardTimeout e s) 0x3500 0x1E = min (2 ^ 64 - 1) (odGet s 0x3500 0x1E + 1) := by
  rw [forwardTimeout_of_owed h howed]
  constructor
  · have hbusy : mapGet (setBusy e { b with owed := false } (dropForward e s)).grotto.lines e = some { b with owed := false } :=
      mapGet_mapSet_same _ _ _
    exact hbusy ▸ settle_line e _
  · rw [odGet_bump_same, odGet_settle]
    rfl

/-! ### The obligation -/

/-- Settles O33: a member answers by its line's state, and the directory takes each answer once. -/
theorem membersAnswerProbes : Obligations.MembersAnswerProbes := by
  unfold Obligations.MembersAnswerProbes
  intro s _ _ _
  refine ⟨fun p c key hkey h hh => ?member, fun c => ⟨fun hnone => ?unknown, fun p hp => ⟨fun hother => ?other, ?waiting⟩⟩,
    fun tag => ⟨fun hnone => ?noProbe, fun p hp hon hm => ?timeout⟩, fun e => ⟨fun hnone => ?noLine, fun b hb => ⟨?settled, ?owed⟩⟩⟩
  case member =>
    subst hkey
    obtain rfl : h = heldLine p.val c s := hh
    refine ⟨_, exec_snpReceive p c s, snpReceive_only _ c s, ?_, fun hinv => mapGet_snpReceive_of_inv hinv s,
      fun hdown hst => mapGet_snpReceive_of_down hdown hst, fun hpeek => ?_, fun j hj => mapGet_holdLine_ne hj _ _ _⟩
    · rw [snpReceive_sent]
      refine congrArg some ?_
      have hdest : cellDest (snrCell p.val c s) = c.src := cellDest_snrCell p.val c s
      have hop : (snrCell p.val c s).op = opSNR := rfl
      have htag : (snrCell p.val c s).tag = c.tag := rfl
      have hreturns := heldAnswer_returns_iff p.val c s
      dsimp only
      by_cases hline : (heldLine p.val c s).1 = .m ∧ (c.sub = 1 ∨ c.sub = 2 ∨ c.sub = 3)
      · obtain ⟨hsub, hlen, hpayload⟩ := snrCell_of_returned (hreturns.mpr hline)
        simp only [if_pos hline, hdest, hop, htag, hsub, hlen, hpayload, beq_self_eq_true, Bool.and_self]
      · obtain ⟨hsub, hlen⟩ := snrCell_of_clean (fun h => hline (hreturns.mp h))
        simp only [if_neg hline, hdest, hop, htag, hsub, hlen, beq_self_eq_true, Bool.and_self]
    · rw [or_iff_not_imp_right]
      exact heldLine_snpReceive_of_peek hpeek
  case unknown =>
    rw [exec_snrReceive, snrReceive_of_unknown hnone]
    exact ⟨_, rfl, discardSnr_counts c s⟩
  case other =>
    rw [exec_snrReceive, snrReceive_of_other hp hother]
    exact ⟨_, rfl, discardSnr_counts c s⟩
  case waiting =>
    intro hsame hthere hwork b hline hwaits
    exact ⟨_, exec_snrReceive c s, snrReceive_of_waiting hp hsame hthere hwork hline hwaits⟩
  case noProbe => rw [exec_probeTimeout, probeTimeout_of_none hnone]
  case timeout => exact ⟨_, exec_probeTimeout tag s, probeTimeout_loses hp hon hm⟩
  case noLine => rw [exec_forwardTimeout, forwardTimeout_of_none hnone]
  case settled =>
    intro howed
    rw [exec_forwardTimeout, forwardTimeout_of_settled hb howed]
  case owed =>
    intro howed
    exact ⟨_, exec_forwardTimeout e s, forwardTimeout_ends hb howed⟩

end Sys2Proof.Machine
end

section
/-! SUPPORT. The write that enables the directory (R218): before its region closes, the translations that reach into the region
are invalidated, and each invalidation is counted (R348, R351). -/

namespace Sys2Proof.Machine

open Sys2Proof

theorem exec_directoryEnable (src : Route) (v : BitVec 8) (s : State) :
    exec (.directoryEnable src v) s = .next (directoryWrite src v.toNat s) := rfl

/-- A disabled directory is enabled after the translations into its region have been invalidated. -/
theorem directoryWrite_of_disabled {v : Nat} {s : State} (hv : v ≠ 0) (hoff : dirEnabled s = false) (src : Route) :
    directoryWrite src v s = directoryEnable src v (closeEntries [(dirBase s, 2 * gib)] s) := by
  rw [directoryWrite, if_neg hv, if_neg (ne_true_of_eq_false hoff)]

/-- The enabling itself writes OD 3500.01, and the count of records lost from the clamp report. -/
theorem directoryEnable_entries (src : Route) (v : Nat) (s : State) :
    OnlyEntries [(0x3500, 1), (0x1F00, 3)] s (directoryEnable src v s) := by
  have hkept : OnlyEntries [(0x3500, 1), (0x1F00, 3)] s (keepScalar src 0x3500 1 8 v 1 (beginOp s)) :=
    OnlyEntries.of_beginOp (keepScalar_entries src 0x3500 1 8 v 1 (beginOp s) (by decide))
  unfold directoryEnable
  exact hkept.ite (hkept.trans (.of_same_od rfl))

/-- A translation to the first page of the directory's region where 240 GiB are usable, in local form. -/
def regionEntry : XEntry :=
  { pasid := 0, log2 := 12, vpage := 0, ppage := 0xFFFF * 2 ^ 36 + 0x3B80000, r := true, w := true, a := false, c := false }

/-- A GV24 with 240 GiB usable whose directory is disabled, and one translation that reaches into the directory's region. -/
def regionTranslated : State :=
  { State.reset with
    mem := { State.reset.mem with state := .ready, density := 4 }, xlat := { State.reset.xlat with entries := [(0, regionEntry)] } }

/-- Enabling the directory there counts one invalidation accepted, in OD 5200.17. -/
theorem odGet_directoryWrite_regionTranslated :
    odGet (directoryWrite .can 1 regionTranslated) 0x5200 0x17 = odGet regionTranslated 0x5200 0x17 + 1 := by
  have hoff : dirEnabled regionTranslated = false := by decide
  have hclosed : odGet (closeEntries [(dirBase regionTranslated, 2 * gib)] regionTranslated) 0x5200 0x17 =
      odGet regionTranslated 0x5200 0x17 + 1 := by decide
  rw [directoryWrite_of_disabled (by decide) hoff, directoryEnable_entries _ _ _ 0x5200 0x17 (by decide) (by decide), hclosed]

/-- Refutes O34: DIRECTORY_ENABLE of a disabled directory may change more entries than OD 3500.01 and OD 1F00.03. A translation
into the region that the directory takes is invalidated first, which OD 5200.17 counts. -/
theorem not_directoryAccessAndWalks : ¬ Obligations.DirectoryAccessAndWalks := by
  unfold Obligations.DirectoryAccessAndWalks
  intro h
  obtain ⟨-, -, -, -, hwrites⟩ := h regionTranslated rfl
  obtain ⟨henable, -⟩ := hwrites .can 1
  obtain ⟨t, hexec, -, -, -, hentries⟩ := henable (by decide)
  rw [exec_directoryEnable] at hexec
  obtain rfl : directoryWrite .can 1 regionTranslated = t := Host.Outcome.next.inj hexec
  have hsame := hentries 0x5200 0x17 (by decide) (by decide)
  rw [odGet_directoryWrite_regionTranslated] at hsame
  omega

end Sys2Proof.Machine
end

section
/-! SUPPORT. The two banks of the calendar, a load as it begins and as its bytes arrive, and the seal (R237–R240). -/

namespace Sys2Proof.Machine

open Sys2Proof

/-! ### Banks (R239) -/

theorem idleNo_add (s : State) : idleNo s + (1 - idleNo s) = 1 := by
  unfold idleNo
  split <;> rfl

/-- A change outside the calendar leaves both banks. -/
theorem Only.calBank {l : List Part} {s t : State} (h : Only l s t) (g : Part.cal ∉ l) (b : Nat) : calBank t b = calBank s b := by
  have hcal : t.cal = s.cal := h .cal g
  simp only [Machine.calBank, hcal]

theorem modBankCal_only (b : Nat) (f : CalBank → CalBank) (s : State) : Only [.cal] s (modBankCal b f s) :=
  modBankCal_parts b f (List.Subset.refl _) (.refl _ s)

theorem modCal_only (f : Calendar → Calendar) (s : State) : Only [.cal] s (modCal f s) :=
  modCal_parts f (List.Subset.refl _) (.refl _ s)

@[simp] theorem calBank_modBankCal_same (b : Nat) (f : CalBank → CalBank) (s : State) :
    calBank (modBankCal b f s) b = f (calBank s b) := by
  by_cases h : b = 0 <;> simp [calBank, modBankCal, h]

theorem calBank_modBankCal_other {a b : Nat} (h : a + b = 1) (f : CalBank → CalBank) (s : State) :
    calBank (modBankCal a f s) b = calBank s b := by
  by_cases ha : a = 0
  · have hb : b ≠ 0 := by omega
    simp [calBank, modBankCal, ha, hb]
  · have hb : b = 0 := by omega
    simp [calBank, modBankCal, ha, hb]

/-- A change of the calendar that keeps both banks. -/
theorem calBank_modCal (f : Calendar → Calendar) (s : State) (b : Nat)
    (hf : (f s.cal).bank0 = s.cal.bank0 ∧ (f s.cal).bank1 = s.cal.bank1) : calBank (modCal f s) b = calBank s b := by
  simp only [calBank, modCal_cal, hf]

/-- What a change of one bank leaves of the calendar. -/
theorem modBankCal_field {α : Type} (g : Calendar → α) (hg : ∀ c x y, g { c with bank0 := x, bank1 := y } = g c)
    (b : Nat) (f : CalBank → CalBank) (s : State) : g (modBankCal b f s).cal = g s.cal := by
  unfold modBankCal
  rw [modCal_cal]
  split
  · exact hg s.cal (f s.cal.bank0) s.cal.bank1
  · exact hg s.cal s.cal.bank0 (f s.cal.bank1)

theorem modBankCal_sbufs (b : Nat) (f : CalBank → CalBank) (s : State) : (modBankCal b f s).cal.sbufs = s.cal.sbufs :=
  modBankCal_field Calendar.sbufs (fun _ _ _ => rfl) b f s

/-- Of two banks, the ACTIVE one is the one named. -/
theorem activeNo_of_active {s : State} {a b : Nat} (h : a + b = 1) (ha : (calBank s a).state = .active)
    (hb : (calBank s b).state ≠ .active) : activeNo s = some a := by
  by_cases hzero : a = 0
  · subst hzero
    exact if_pos ha
  · obtain ⟨rfl, rfl⟩ : a = 1 ∧ b = 0 := by omega
    exact (if_neg hb).trans (if_pos ha)

/-- The ACTIVE bank is the one that is not idle. -/
theorem eq_other_of_activeNo {s : State} {a : Nat} (h : activeNo s = some a) : a = 1 - idleNo s := by
  unfold idleNo
  split
  · next hzero => exact Option.some.inj (h.symm.trans hzero)
  · next hzero =>
    unfold activeNo at h hzero
    split at h
    · next hfirst => exact absurd (if_pos hfirst) hzero
    · split at h
      · exact (Option.some.inj h).symm
      · cases h

/-! ### Refusals -/

/-- A refusal writes the whole outcome of its operation. -/
theorem refuseRule_beginOp (s : State) : refuseRule (beginOp s) = refuseRule s := rfl

/-- A refused image leaves its bank EMPTY and its error code, and nothing else of the calendar changes (R237). -/
theorem refuseLoad_spec (code : Nat) (s : State) :
    calBank (refuseLoad code s) (idleNo s) = {} ∧ calBank (refuseLoad code s) (1 - idleNo s) = calBank s (1 - idleNo s) ∧
      (refuseLoad code s).cal.loadError = code ∧ (refuseLoad code s).dict.status = 2 :=
  ⟨calBank_modBankCal_same (idleNo s) (fun _ => {}) s, calBank_modBankCal_other (idleNo_add s) (fun _ => {}) s, rfl, rfl⟩

/-! ### CALENDAR_BEGIN_LOAD (R240) -/

theorem exec_calendarBeginLoad (src : Route) (v : BitVec 8) (s : State) :
    exec (.calendarBeginLoad src v) s = .next (calendarBegin src v.toNat (beginOp s)) := rfl

theorem calendarBegin_of_armed {s : State} (h : (calBank s (idleNo s)).state = .armed) (src : Route) (v : Nat) :
    calendarBegin src v s = refuseRule s := if_pos h

/-- The idle bank is LOADING and nothing of an earlier load is left. -/
def startLoad (s : State) : State :=
  modCal (fun c => { c with loadError := 0, sectRefused := 0, image := [], stored := 0, clamped := 0, epRecs := 0 })
    (modBankCal (idleNo s) (fun _ => { state := .loading }) s)

theorem calendarBegin_of_not_armed {s : State} (h : (calBank s (idleNo s)).state ≠ .armed) (src : Route) (v : Nat) :
    calendarBegin src v s = onlyOne src 0x4101 1 v (startLoad s) := if_neg h

theorem startLoad_idle (s : State) : calBank (startLoad s) (idleNo s) = { state := .loading } := by
  rw [startLoad, calBank_modCal _ _ _ ⟨rfl, rfl⟩, calBank_modBankCal_same]

theorem startLoad_other (s : State) : calBank (startLoad s) (1 - idleNo s) = calBank s (1 - idleNo s) := by
  rw [startLoad, calBank_modCal _ _ _ ⟨rfl, rfl⟩, calBank_modBankCal_other (idleNo_add s)]

/-! ### CALENDAR_DATA_WRITE (R237) -/

theorem exec_calendarDataWrite (src : Route) (data : Bytes) (s : State) :
    exec (.calendarDataWrite src data) s = .next (calendarData data (beginOp s)) := rfl

/-- The check of an image reads the dictionary's entries, not the outcome of an operation. -/
theorem imageError_beginOp (s : State) (b : Bytes) : imageError (beginOp s) b = imageError s b := rfl

section
variable {s : State} (data : Bytes)

theorem calendarData_of_not_loading (h : (calBank s (idleNo s)).state ≠ .loading) : calendarData data s = refuseRule s := if_pos h

theorem calendarData_of_illegal (h : (calBank s (idleNo s)).state = .loading) (he : imageError s (s.cal.image ++ data) ≠ 0) :
    calendarData data s = refuseLoad (imageError s (s.cal.image ++ data)) s := (if_neg (not_not.mpr h)).trans (if_pos he)

theorem calendarData_of_legal (h : (calBank s (idleNo s)).state = .loading) (he : imageError s (s.cal.image ++ data) = 0) :
    calendarData data s = modCal (fun c => { c with image := s.cal.image ++ data }) s :=
  (if_neg (not_not.mpr h)).trans (if_neg (not_not.mpr he))

end

theorem calendarData_only (data : Bytes) (s : State) : Only [.cal, .dict] s (calendarData data (beginOp s)) :=
  calendarData_parts data (List.Subset.refl _) ((beginOp_only s).mono (by simp))

/-! ### CALENDAR_SEAL (R238, R240) -/

theorem exec_calendarSeal (src : Route) (v : BitVec 8) (s : State) :
    exec (.calendarSeal src v) s = .next (calendarSeal src v.toNat (beginOp s)) := rfl

/-- Where the sections of an image start. -/
def sectionPlaces (b : Bytes) : List Nat := ((walkSections b (fieldAt b 12 4) (fieldAt b 8 1) 128 []).map (fun x => x.1)).getD []

/-- The seal checks of R238 over the stored entries, in the table's order. -/
def checkEntries (src : Route) (round : Nat) (a : State × Sealing) : State × Sealing :=
  sealCheck src badReads (sealCheck src badTenant (sealCheck src (badWindow round) (sealCheck src badBuffer a)))

section
variable (src : Route) (v : Nat) (s : State)

/-- The header of the image under its clamps: the state with their reports, the weights and the rotation. -/
def sealedHeader : State × List Nat × List Nat := sealHeader src s.cal.image (onlyOne src 0x4101 3 v s)

/-- All checks of the seal: the state with their reports, and what is stored. -/
def sealedImage : State × Sealing :=
  let b := s.cal.image
  let round := 2 ^ fieldAt b 7 1
  checkEntries src round (sealSections src b (halfOutputs b (sectionPlaces b) none) round (sectionPlaces b) none
    ((sealedHeader src v s).1, {}))

/-- The bank that the seal leaves. -/
def sealedBank : CalBank :=
  { state := .sealed, round := 2 ^ fieldAt s.cal.image 7 1, imageId := BitVec.ofNat 64 (fieldAt s.cal.image 16 8),
    weights := (sealedHeader src v s).2.1, rot := (sealedHeader src v s).2.2, half := (sealedImage src v s).2.half,
    slots := (sealedImage src v s).2.slots, image := s.cal.image }

/-- The seal's bank and its counts. -/
def sealBank : State :=
  let g := (sealedImage src v s).2
  modCal (fun c => { c with
      stored := g.slots.length, clamped := g.clampedRecs, epRecs := g.epRecs, sectRefused := min 255 g.refused })
    (modBankCal (idleNo s) (fun _ => sealedBank src v s) (sealedImage src v s).1)

/-- A field that may be clamped. -/
theorem clampedUnless_only (c : Prop) [Decidable c] (index sub place original kept : Nat) (u : State) :
    Only [.dict, .host, .sent] u (if c then u else clamped src index sub place original kept u) :=
  (Only.refl _ u).ite (clamped_only src index sub place original kept u)

theorem sealSection_only (b : Bytes) (half : List Nat) (round pos : Nat) (prev : Option Nat) (a : State × Sealing) :
    Only [.dict, .host, .sent] a.1 (sealSection src b half round pos prev a).1 := by
  have hp : [Part.dict, .host, .sent] ⊆ [.dict, .host, .sent] := List.Subset.refl _
  obtain ⟨s, g⟩ := a
  unfold sealSection
  dsimp only
  split
  · exact noted_parts _ _ _ _ _ _ hp (.refl _ s)
  · exact Only.foldl_fst _ (fun _ _ hu => sealRecord_parts _ _ _ _ _ _ _ hp hu)
      ((clampedUnless_only _ _ _ _ _ _ _ _).trans (clampedUnless_only _ _ _ _ _ _ _ _))

theorem sealSections_only (b : Bytes) (half : List Nat) (round : Nat) (l : List Nat) (prev : Option Nat) (a : State × Sealing) :
    Only [.dict, .host, .sent] a.1 (sealSections src b half round l prev a).1 := by
  induction l generalizing prev a with
  | nil => exact .refl _ a.1
  | cons pos r ih => exact (sealSection_only src b half round pos prev a).trans (ih _ _)

/-- The checks only report. -/
theorem sealedImage_only : Only [.dict, .host, .sent] s (sealedImage src v s).1 := by
  have hp : [Part.dict, .host, .sent] ⊆ [.dict, .host, .sent] := List.Subset.refl _
  have hheader : Only [.dict, .host, .sent] s (sealedHeader src v s).1 := sealHeader_parts src _ hp (onlyOne_only src 0x4101 3 v s)
  exact sealCheck_parts src _ hp (sealCheck_parts src _ hp (sealCheck_parts src _ hp (sealCheck_parts src _ hp
    (hheader.trans (sealSections_only _ _ _ _ _ _ _)))))

theorem sealBank_idle : calBank (sealBank src v s) (idleNo s) = sealedBank src v s := by
  rw [sealBank, calBank_modCal _ _ _ ⟨rfl, rfl⟩, calBank_modBankCal_same]

theorem sealBank_other : calBank (sealBank src v s) (1 - idleNo s) = calBank s (1 - idleNo s) := by
  rw [sealBank, calBank_modCal _ _ _ ⟨rfl, rfl⟩, calBank_modBankCal_other (idleNo_add s),
    (sealedImage_only src v s).calBank (by decide)]

theorem sealBank_only : Only [.cal, .dict, .host, .sent] s (sealBank src v s) :=
  modCal_parts _ (by decide) (modBankCal_parts _ _ (by decide) ((sealedImage_only src v s).mono (by simp)))

end

section
variable {s : State} (src : Route) (v : Nat)

theorem calendarSeal_of_not_loading (h : (calBank s (idleNo s)).state ≠ .loading) : calendarSeal src v s = refuseRule s := if_pos h

theorem calendarSeal_of_incomplete (h : (calBank s (idleNo s)).state = .loading)
    (hlen : s.cal.image.length < 128 ∨ s.cal.image.length < fieldAt s.cal.image 12 4) :
    calendarSeal src v s = refuseLoad 8 s := (if_neg (not_not.mpr h)).trans (if_pos hlen)

theorem calendarSeal_of_complete (h : (calBank s (idleNo s)).state = .loading) (hheader : 128 ≤ s.cal.image.length)
    (htotal : fieldAt s.cal.image 12 4 ≤ s.cal.image.length) : calendarSeal src v s = sealBank src v s :=
  (if_neg (not_not.mpr h)).trans (if_neg (not_or.mpr ⟨Nat.not_lt.mpr hheader, Nat.not_lt.mpr htotal⟩))

end

end Sys2Proof.Machine
end

section
/-! SUPPORT. The arm tick of the calendar's idle bank, and the switch (R55, R240, R241, R246). -/

namespace Sys2Proof.Machine

open Sys2Proof

/-! ### CALENDAR_ARM (R55, R240, assumption 35) -/

theorem exec_calendarArm (src : Route) (v : BitVec 64) (s : State) :
    exec (.calendarArm src v) s = .next (calendarArm src v.toNat (beginOp s)) := rfl

/-- An arm write clears ROUND_CONFLICT. -/
def clearConflict (s : State) : State := modCal (fun c => { c with roundConflict := false }) s

/-- The idle bank in a state. -/
def setIdle (x : CalState) (s : State) : State := modBankCal (idleNo s) (fun b => { b with state := x }) s

theorem setIdle_idle (x : CalState) (s : State) : calBank (setIdle x s) (idleNo s) = { calBank s (idleNo s) with state := x } :=
  calBank_modBankCal_same (idleNo s) (fun b => { b with state := x }) s

theorem setIdle_other (x : CalState) (s : State) : calBank (setIdle x s) (1 - idleNo s) = calBank s (1 - idleNo s) :=
  calBank_modBankCal_other (idleNo_add s) (fun b => { b with state := x }) s

theorem calendarArm_of_disarm {s : State} (h : (calBank s (idleNo s)).state = .armed) (src : Route) :
    calendarArm src 0 s = odSet 0x4100 5 0 (setIdle .sealed (clearConflict s)) := if_pos ⟨h, rfl⟩

/-- The arm tick is kept, and the idle bank is ARMED where it is not 0. -/
def armIdle (src : Route) (v kept : Nat) (s : State) : State :=
  let u := keepArm src 0x4100 5 v kept (clearConflict s)
  if kept = 0 then u else modBankCal (idleNo s) (fun b => { b with state := .armed }) u

theorem calendarArm_of_sealed {s : State} (h : (calBank s (idleNo s)).state = .sealed) (src : Route) (v : Nat) :
    calendarArm src v s = armIdle src v (armTick s.time.ft (calBank s (idleNo s)).round v) s :=
  (if_neg (by simp [h])).trans (if_neg (not_not.mpr h))

theorem calendarArm_of_refused {s : State} {v : Nat} (h : (calBank s (idleNo s)).state ≠ .sealed)
    (hv : (calBank s (idleNo s)).state ≠ .armed ∨ v ≠ 0) (src : Route) : calendarArm src v s = refuseRule (clearConflict s) :=
  (if_neg (not_and_or.mpr hv)).trans (if_pos h)

section
variable (src : Route) (v kept : Nat) (s : State)

theorem keepArm_calBank (b : Nat) : calBank (keepArm src 0x4100 5 v kept (clearConflict s)) b = calBank s b :=
  (keepArm_only src 0x4100 5 v kept (clearConflict s)).calBank (by decide) b

theorem odGet_armIdle : odGet (armIdle src v kept s) 0x4100 5 = kept := by
  have hkept := odGet_keepArm src 0x4100 5 v kept (clearConflict s) (by decide) (by decide)
  unfold armIdle
  dsimp only
  split
  · exact hkept
  · exact ((modBankCal_only _ _ _).entries (by decide) _ _ (by decide) (by simp)).trans hkept

theorem armIdle_idle (h : (calBank s (idleNo s)).state = .sealed) : calBank (armIdle src v kept s) (idleNo s) =
    { calBank s (idleNo s) with state := if kept = 0 then .sealed else .armed } := by
  unfold armIdle
  dsimp only
  split
  · rw [keepArm_calBank, ← h]
  · rw [calBank_modBankCal_same, keepArm_calBank]

theorem armIdle_other : calBank (armIdle src v kept s) (1 - idleNo s) = calBank s (1 - idleNo s) := by
  unfold armIdle
  dsimp only
  split
  · exact keepArm_calBank ..
  · rw [calBank_modBankCal_other (idleNo_add s), keepArm_calBank]

theorem armIdle_only : Only [.cal, .dict, .host, .sent] s (armIdle src v kept s) := by
  have hkept : Only [.cal, .dict, .host, .sent] s (keepArm src 0x4100 5 v kept (clearConflict s)) :=
    keepArm_parts _ _ _ _ _ (by decide) ((modCal_only _ s).mono (by simp))
  exact Only.ite hkept (hkept.trans ((modBankCal_only _ _ _).mono (by simp)))

theorem armIdle_entries : OnlyEntries [(0x4100, 5), (0x1F00, 3)] s (armIdle src v kept s) := by
  have hkept : OnlyEntries [(0x4100, 5), (0x1F00, 3)] s (keepArm src 0x4100 5 v kept (clearConflict s)) :=
    keepScalar_entries src 0x4100 5 64 v kept (clearConflict s) (by decide)
  exact OnlyEntries.ite hkept (hkept.trans (((modBankCal_only _ _ _).entries (by decide)).mono (by simp)))

end

/-! ### CALENDAR_BANK_SWITCH (R241) -/

theorem exec_calendarBankSwitch (s : State) : exec .calendarBankSwitch s = .next (calendarSwitch s) := rfl

theorem calendarSwitch_of_not_armed {s : State} (h : (calBank s (idleNo s)).state ≠ .armed) : calendarSwitch s = s := if_pos h

/-- FT moves to the arm tick, which returns to 0. -/
def reachCalArm (s : State) : State := odSet 0x4100 5 0 (advanceTo (odGet s 0x4100 5) s)

/-- The armed bank's round is not the one in force. -/
def conflictAtSwitch (s : State) : State :=
  raiseCause 3 (log 0x4101 [(calBank s (idleNo s)).round, s.time.round]
    (modCal (fun c => { c with roundConflict := true }) (setIdle .sealed s)))

/-- The ACTIVE bank, where there is one, is SEALED. -/
def retireActive (s : State) : State :=
  if activeNo s = some (1 - idleNo s) then modBankCal (1 - idleNo s) (fun b => { b with state := .sealed }) s else s

/-- The idle bank takes the place of the ACTIVE one. -/
def activateIdle (s : State) : State :=
  raiseCause 3 (modCal (fun c => { c with dsets := [], stopped := [] })
    (modBankCal (idleNo s) (fun b => { b with state := .active }) (retireActive (releaseSlots s))))

theorem reachCalArm_only (s : State) : Only [.time, .dict] s (reachCalArm s) :=
  odSet_parts _ _ _ (by decide) (advanceTo_parts _ (by decide) (.refl _ s))

theorem reachCalArm_ft (s : State) : (reachCalArm s).time.ft = max s.time.ft (odGet s 0x4100 5) := advanceTime_ft _ _

theorem reachCalArm_round (s : State) : (reachCalArm s).time.round = s.time.round :=
  advanceTime_field Time.round (fun _ => rfl) _ _

/-- No round change is armed for the tick of the switch. -/
theorem odGet_reachCalArm_ne {s : State} (h : odGet s 0x4000 5 ≠ odGet s 0x4100 5) :
    odGet (reachCalArm s) 0x4000 5 ≠ odGet s 0x4100 5 := by
  have hkept : odGet (reachCalArm s) 0x4000 5 = odGet s 0x4000 5 := odGet_odSet_ne _ _ _ _ _ _ (by decide)
  rwa [hkept]

theorem retireActive_eq_match (s : State) : retireActive s =
    match activeNo s with
    | some a => modBankCal a (fun b => { b with state := .sealed }) s
    | none => s := by
  unfold retireActive
  split
  · next h => rw [h]
  · next h =>
    split
    · next a ha => exact absurd (eq_other_of_activeNo ha ▸ ha) h
    · rfl

section
variable {s : State} (h : (calBank s (idleNo s)).state = .armed) (hround : odGet s 0x4000 5 ≠ odGet s 0x4100 5)
include h hround

theorem calendarSwitch_of_conflict (hother : (calBank s (idleNo s)).round ≠ s.time.round) :
    calendarSwitch s = conflictAtSwitch (reachCalArm s) := by
  have hne : (reachCalArm s).time.round ≠ (calBank s (idleNo s)).round := by
    rw [reachCalArm_round]
    exact hother.symm
  unfold calendarSwitch
  dsimp only
  rw [if_neg (not_not.mpr h), ← reachCalArm, if_neg (odGet_reachCalArm_ne hround), if_pos hne]
  rfl

theorem calendarSwitch_of_round (hsame : (calBank s (idleNo s)).round = s.time.round) :
    calendarSwitch s = activateIdle (reachCalArm s) := by
  have heq : (reachCalArm s).time.round = (calBank s (idleNo s)).round := (reachCalArm_round s).trans hsame.symm
  unfold calendarSwitch
  dsimp only
  rw [if_neg (not_not.mpr h), ← reachCalArm, if_neg (odGet_reachCalArm_ne hround), if_neg (not_not.mpr heq)]
  rw [activateIdle, retireActive_eq_match]
  rfl

end

/-! ### The state after a switch -/

theorem conflictAtSwitch_cal (s : State) : (conflictAtSwitch s).cal = { (setIdle .sealed s).cal with roundConflict := true } := by
  rw [conflictAtSwitch, raiseCause_only 3 _ .cal (by decide), logEvent_only _ _ _ .cal (by decide)]
  rfl

theorem conflictAtSwitch_idle (s : State) :
    calBank (conflictAtSwitch s) (idleNo s) = { calBank s (idleNo s) with state := .sealed } := by
  rw [conflictAtSwitch, (raiseCause_only 3 _).calBank (by decide), (logEvent_only _ _ _).calBank (by decide),
    calBank_modCal _ _ _ ⟨rfl, rfl⟩, setIdle_idle]

/-- The counters of the cells discarded from slot buffers (R246). -/
def slotEntries (s : State) : List (Nat × Nat) := s.cal.sbufs.map (fun e => (0x4110 + e.1 / 4096, 6))

/-- The cells that wait in slot buffers are counted. -/
def countHeld (s : State) : State :=
  (s.cal.sbufs.filter (fun e => e.2.cell.isSome && !e.2.fired)).foldl (fun s e => bump (0x4110 + e.1 / 4096) 6 s) s

theorem releaseSlots_eq (s : State) : releaseSlots s = modCal (fun c => { c with sbufs := [] }) (countHeld s) := rfl

theorem countHeld_only (s : State) : Only [.dict] s (countHeld s) :=
  Only.foldl _ (fun _ _ hu => bump_parts _ _ (List.Subset.refl _) hu) (.refl _ s)

theorem countHeld_entries (s : State) : OnlyEntries (slotEntries s) s (countHeld s) := by
  refine OnlyEntries.foldl _ (fun e he u => ?_) s
  have hmem : (0x4110 + e.1 / 4096, 6) ∈ slotEntries s := List.mem_map.mpr ⟨e, List.mem_of_mem_filter he, rfl⟩
  exact (bump_entries _ 6 u (by decide)).mono (by simpa using hmem)

theorem releaseSlots_entries (s : State) : OnlyEntries (slotEntries s) s (releaseSlots s) := by
  rw [releaseSlots_eq]
  exact (countHeld_entries s).trans (((modCal_only _ _).entries (by decide)).mono (by simp))

theorem releaseSlots_cal (s : State) : (releaseSlots s).cal = { s.cal with sbufs := [] } := by
  rw [releaseSlots_eq, modCal_cal, countHeld_only s .cal (by decide)]

theorem releaseSlots_calBank (s : State) (b : Nat) : calBank (releaseSlots s) b = calBank s b := by
  simp only [calBank, releaseSlots_cal]

theorem releaseSlots_activeNo (s : State) : activeNo (releaseSlots s) = activeNo s := by
  simp only [activeNo, releaseSlots_cal]

theorem releaseSlots_idleNo (s : State) : idleNo (releaseSlots s) = idleNo s := by
  simp only [idleNo, releaseSlots_activeNo]

theorem retireActive_only (s : State) : Only [.cal] s (retireActive s) := Only.ite (modBankCal_only _ _ s) (.refl _ s)

theorem retireActive_sbufs (s : State) : (retireActive s).cal.sbufs = s.cal.sbufs := by
  unfold retireActive
  split
  · exact modBankCal_sbufs _ _ s
  · rfl

theorem retireActive_idle (s : State) : calBank (retireActive s) (idleNo s) = calBank s (idleNo s) := by
  unfold retireActive
  split
  · exact calBank_modBankCal_other ((Nat.add_comm _ _).trans (idleNo_add s)) _ s
  · rfl

theorem retireActive_other (s : State) : (calBank (retireActive s) (1 - idleNo s)).state =
    if activeNo s = some (1 - idleNo s) then .sealed else (calBank s (1 - idleNo s)).state := by
  unfold retireActive
  split
  · rw [calBank_modBankCal_same]
  · rfl

section
variable (s : State)

theorem activateIdle_calBank (b : Nat) : calBank (activateIdle s) b =
    calBank (modBankCal (idleNo s) (fun b => { b with state := .active }) (retireActive (releaseSlots s))) b :=
  (raiseCause_only 3 _).calBank (by decide) b

theorem activateIdle_idle : calBank (activateIdle s) (idleNo s) = { calBank s (idleNo s) with state := .active } := by
  have hretired := retireActive_idle (releaseSlots s)
  rw [releaseSlots_idleNo, releaseSlots_calBank] at hretired
  rw [activateIdle_calBank, calBank_modBankCal_same, hretired]

theorem activateIdle_other : (calBank (activateIdle s) (1 - idleNo s)).state =
    if activeNo s = some (1 - idleNo s) then .sealed else (calBank s (1 - idleNo s)).state := by
  have hretired := retireActive_other (releaseSlots s)
  rw [releaseSlots_idleNo, releaseSlots_activeNo, releaseSlots_calBank] at hretired
  rw [activateIdle_calBank, calBank_modBankCal_other (idleNo_add s), hretired]

/-- The bank that was idle is the ACTIVE one. -/
theorem activateIdle_activeNo (h : (calBank s (idleNo s)).state ≠ .active) : activeNo (activateIdle s) = some (idleNo s) := by
  refine activeNo_of_active (idleNo_add s) (by rw [activateIdle_idle]) ?_
  rw [activateIdle_other]
  split
  · decide
  · next hnone => exact fun hactive => hnone (activeNo_of_active ((Nat.add_comm _ _).trans (idleNo_add s)) hactive h)

theorem activateIdle_sbufs : (activateIdle s).cal.sbufs = [] := by
  rw [activateIdle, raiseCause_only 3 _ .cal (by decide)]
  change (modBankCal (idleNo s) _ (retireActive (releaseSlots s))).cal.sbufs = []
  rw [modBankCal_sbufs, retireActive_sbufs, releaseSlots_cal]

theorem activateIdle_only : Only [.cal, .dict, .host, .sent] s (activateIdle s) :=
  raiseCause_parts 3 (by decide) (modCal_parts _ (by decide) (modBankCal_parts _ _ (by decide)
    ((releaseSlots_parts (by decide) (.refl _ s)).trans ((retireActive_only _).mono (by simp)))))

theorem activateIdle_entries : OnlyEntries (slotEntries s) s (activateIdle s) := by
  have hcal : Only [.cal, .host, .sent] (releaseSlots s) (activateIdle s) :=
    raiseCause_parts 3 (by decide) (modCal_parts _ (by decide) (modBankCal_parts _ _ (by decide)
      ((retireActive_only _).mono (by simp))))
  exact (releaseSlots_entries s).trans ((hcal.entries (by decide)).mono (by simp))

theorem odGet_activateIdle : odGet (activateIdle s) 0x4100 5 = odGet s 0x4100 5 :=
  activateIdle_entries s _ _ (by decide) (by simp [slotEntries])

end

/-- Settles O32: each command, by the state of the idle bank, is one change of that bank between reports that leave both banks.
Writes in a wrong state are refused by rule by assumption 60, an arm tick that rounds past 64 bits is kept as 0 by assumption 35, and
FT moves to the tick of the switch by assumption 7. -/
theorem calendarBanksLoadSealAndSwitch : Obligations.CalendarBanksLoadSealAndSwitch := by
  unfold Obligations.CalendarBanksLoadSealAndSwitch
  refine fun src s => ⟨fun v => ⟨fun h => ?beginRefused, fun h => ?begun, fun h => ?sealRefused, fun h hlen => ?incomplete,
      fun h hheader htotal => ?complete⟩,
    fun data => ⟨fun h => ?dataRefused, fun h => ⟨fun he => ?appended, fun he => ?illegal⟩⟩,
    fun v => ⟨fun h hzero => ?disarmed, fun h => ?armed, fun h hv => ?armRefused⟩,
    fun h => ?waiting, fun h hround => ⟨fun hsame => ?switched, fun hother => ?conflict⟩⟩
  case beginRefused => rw [exec_calendarBeginLoad, calendarBegin_of_armed (s := beginOp s) h, refuseRule_beginOp]
  case begun =>
    rw [exec_calendarBeginLoad, calendarBegin_of_not_armed (s := beginOp s) h]
    have hreported := onlyOne_only src 0x4101 1 v.toNat (startLoad (beginOp s))
    have hcal := hreported .cal (by decide)
    refine ⟨_, rfl, (hreported.calBank (by decide) _).trans (startLoad_idle (beginOp s)),
      (hreported.calBank (by decide) _).trans (startLoad_other (beginOp s)), congrArg Calendar.image hcal,
      congrArg Calendar.loadError hcal, ?_⟩
    rw [← calendarBegin_of_not_armed (s := beginOp s) h]
    exact calendarBegin_parts src _ (List.Subset.refl _) ((beginOp_only s).mono (by simp))
  case sealRefused => rw [exec_calendarSeal, calendarSeal_of_not_loading (s := beginOp s) src _ h, refuseRule_beginOp]
  case incomplete =>
    obtain ⟨hempty, hother, hcode, hstatus⟩ := refuseLoad_spec 8 (beginOp s)
    rw [exec_calendarSeal, calendarSeal_of_incomplete (s := beginOp s) src _ h hlen]
    exact ⟨_, rfl, hempty, hcode, hstatus, hother⟩
  case complete =>
    have hidle : calBank (sealBank src v.toNat (beginOp s)) (idleNo s) = sealedBank src v.toNat (beginOp s) := sealBank_idle ..
    rw [exec_calendarSeal, calendarSeal_of_complete (s := beginOp s) src _ h hheader htotal]
    refine ⟨_, rfl, ?_, ?_, ?_, ?_, ?_, sealBank_other src _ (beginOp s),
      ((beginOp_only s).mono (by simp)).trans (sealBank_only src _ (beginOp s))⟩ <;> rw [hidle] <;> rfl
  case dataRefused => rw [exec_calendarDataWrite, calendarData_of_not_loading (s := beginOp s) data h, refuseRule_beginOp]
  case appended =>
    refine ⟨_, exec_calendarDataWrite src data s, ?_, ?_, calendarData_only data s⟩
    all_goals
      rw [calendarData_of_legal (s := beginOp s) data h he]
      rfl
  case illegal =>
    obtain ⟨hempty, hother, hcode, hstatus⟩ := refuseLoad_spec (imageError s (s.cal.image ++ data)) (beginOp s)
    have heq : calendarData data (beginOp s) = refuseLoad (imageError s (s.cal.image ++ data)) (beginOp s) :=
      calendarData_of_illegal data h he
    have honly := calendarData_only data s
    rw [heq] at honly
    rw [exec_calendarDataWrite, heq]
    exact ⟨_, rfl, hempty, hother, hcode, hstatus, honly⟩
  case disarmed =>
    subst hzero
    rw [exec_calendarArm]
    exact ⟨_, congrArg _ (calendarArm_of_disarm (s := beginOp s) h src), setIdle_idle .sealed (clearConflict (beginOp s)),
      odGet_odSet_same ..⟩
  case armed =>
    rw [exec_calendarArm, calendarArm_of_sealed (s := beginOp s) h]
    exact ⟨_, rfl, odGet_armIdle .., armIdle_idle _ _ _ (beginOp s) h, armIdle_other _ _ _ (beginOp s),
      OnlyEntries.of_beginOp (armIdle_entries _ _ _ _), ((beginOp_only s).mono (by simp)).trans (armIdle_only _ _ _ _)⟩
  case armRefused =>
    have hv : (calBank s (idleNo s)).state ≠ .armed ∨ v.toNat ≠ 0 := hv.imp_right (by simp [← BitVec.toNat_inj])
    rw [exec_calendarArm, calendarArm_of_refused (s := beginOp s) h hv]
    exact ⟨_, rfl, rfl, rfl⟩
  case waiting => rw [exec_calendarBankSwitch, calendarSwitch_of_not_armed h]
  case switched =>
    have hidle : (calBank (reachCalArm s) (idleNo (reachCalArm s))).state ≠ .active := by
      rw [(reachCalArm_only s).calBank (by decide)]
      exact fun hactive => absurd (h.symm.trans hactive) (by decide)
    rw [exec_calendarBankSwitch, calendarSwitch_of_round h hround hsame]
    refine ⟨_, rfl, ?_, activateIdle_activeNo (reachCalArm s) hidle, activateIdle_idle (reachCalArm s),
      activateIdle_other (reachCalArm s), activateIdle_sbufs (reachCalArm s), ?_⟩
    · rw [activateIdle_only (reachCalArm s) .time (by decide), reachCalArm_ft]
    · rw [odGet_activateIdle]
      exact odGet_odSet_same ..
  case conflict =>
    have hcal := conflictAtSwitch_cal (reachCalArm s)
    rw [exec_calendarBankSwitch, calendarSwitch_of_conflict h hround hother]
    exact ⟨_, rfl, congrArg Calendar.roundConflict hcal, conflictAtSwitch_idle (reachCalArm s),
      (congrArg Calendar.sbufs hcal).trans (modBankCal_sbufs _ _ (reachCalArm s))⟩

end Sys2Proof.Machine
end

section
/-! SUPPORT. Statements about streams and contexts that fail: a concrete state and the command that shows it, for each. -/

namespace Sys2Proof.Machine

open Sys2Proof

theorem exec_contextAbortDone (core : CoreN) (slot : SlotN) (s : State) :
    exec (.contextAbortDone core slot) s = .next (settleResets (abortDone (ctxKey core slot) s)) := rfl

theorem exec_commandEnd (core : CoreN) (slot : SlotN) (s : State) :
    exec (.commandEnd core slot) s = .next (endCommand (ctxKey core slot) s) := rfl

theorem exec_memStl (w : StreamId) (f : IFields) (s : State) : exec (.memStl w f) s =
    .next (wordAccess w f 2 true (fun k x va p u => releaseStore w f .stl (memScope f) k x va p u) s) := rfl

/-- A context that the host aborts, on core 0, whose reset (R461) runs until the context has left ABORTING. -/
def abortedUnderReset : State :=
  { State.reset with
    cmp := { State.reset.cmp with ctxs := [(0, { state := .aborting, actValid := false, action := 4 })] }
    resets := { State.reset.resets with running := [{ domain := 7, target := 0, cause := 1 }] } }

/-- The last context of a reset's reach ends the reset with its own abort. -/
theorem abortDone_ends_reset :
    (settleResets (abortDone (ctxKey 0 0) abortedUnderReset)).resets.running ≠ abortedUnderReset.resets.running := by
  decide +kernel

/-- Refutes O44: CONTEXT_ABORT_DONE may change more than the compute array. Where the reset of a core waits for the context, the
reset concludes with it: it leaves the list of running resets and is logged. -/
theorem not_contextActionsAndKernels : ¬ Obligations.ContextActionsAndKernels := by
  unfold Obligations.ContextActionsAndKernels
  intro h
  obtain ⟨-, -, hdone, -⟩ := h 0 0 abortedUnderReset _ rfl _ rfl
  obtain ⟨t, hexec, honly, -⟩ := hdone (by decide) (by decide) (by decide)
  rw [exec_contextAbortDone] at hexec
  obtain rfl := Host.Outcome.next.inj hexec
  have hsame : (settleResets (abortDone (ctxKey 0 0) abortedUnderReset)).resets = abortedUnderReset.resets :=
    honly .resets (by decide)
  exact abortDone_ends_reset (congrArg Resets.running hsame)

/-- A context aborted while the echo replays it (R459). -/
def abortedInReplay : State :=
  { State.reset with
    cmp := { State.reset.cmp with ctxs := [(0, { state := .aborting })] }
    lantern := { State.reset.lantern with suspects := [[0]], current := some [0] } }

/-- The end of the replay of an aborted suspect: no context is under replay any more. -/
theorem endCommand_ends_replay : (endCommand (ctxKey 0 0) abortedInReplay).lantern.current ≠ abortedInReplay.lantern.current := by
  decide

/-- Refutes O45: COMMAND_END of a context that is neither at its end nor FAULTED may change the machine. Where the echo replays the
context and it is ABORTING, the suspect is found innocent and its replay ends. -/
theorem not_ringsRunTheirRecords : ¬ Obligations.RingsRunTheirRecords := by
  unfold Obligations.RingsRunTheirRecords
  intro h
  obtain ⟨-, -, -, -, -, hstays⟩ := h 0 0 abortedInReplay _ rfl _ rfl
  have hexec := hstays (by decide) (.inl (by decide))
  rw [exec_commandEnd] at hexec
  exact endCommand_ends_replay (congrArg (fun t => t.lantern.current) (Host.Outcome.next.inj hexec))

/-- A stream about to issue, whose page 0 is page 0 of local memory, in a memory that lists address 0 twice. -/
def listedTwice : State :=
  { State.reset with
    cmp := { State.reset.cmp with ctxs := [(0, { state := .running, doing := .run 1 0, streams := Vector.replicate 4 { live := true } })] }
    xlat := { State.reset.xlat with
      entries := [(0, { pasid := 0, log2 := 12, vpage := 0, ppage := 0xFFFF * 2 ^ 36, r := true, w := true, a := false, c := false })] }
    mem := { State.reset.mem with state := .ready, density := 4, cells := [(0, 1), (0, 1)] } }

/-- The stream of engine 0 of the first context. -/
def firstStream : StreamId := { core := 0, slot := 0, eng := 0 }

/-- `stl` of s0 to address 0 of local memory, at engine scope. -/
def storeZero : IFields := { imm := 2 ^ 24 }

/-- A zero byte takes one entry of the two off the list, so the address reads as before. -/
theorem releaseStore_listedTwice :
    cellGet (wordAccess firstStream storeZero 2 true
      (fun k x va p u => releaseStore firstStream storeZero .stl (memScope storeZero) k x va p u) listedTwice).mem.cells 0 = 1 := by
  decide +kernel

/-- Refutes O41: a store of zero need not read back as zero where the memory is not in the canonical form, which the statement does
not ask for. -/
theorem not_streamStoresToMemory : ¬ Obligations.StreamStoresToMemory := by
  unfold Obligations.StreamStoresToMemory
  intro h
  obtain ⟨hready, -⟩ := h firstStream storeZero listedTwice _ rfl _ rfl _ rfl _ rfl
  obtain ⟨-, hword, -⟩ := hready (by decide) (by decide)
  obtain ⟨-, hstl, -⟩ := hword (by decide)
  obtain ⟨t, hexec, -, hcells, -⟩ := hstl (by decide) [(0, 0xFFFF * 2 ^ 48)] (by decide) (by decide) (by decide) (by decide)
    (by decide) (by decide)
  rw [exec_memStl] at hexec
  obtain rfl := Host.Outcome.next.inj hexec
  have hzero := hcells 0
  rw [releaseStore_listedTwice] at hzero
  exact absurd hzero (by decide)

end Sys2Proof.Machine
end

section
/-!
SUPPORT. Contexts and streams: what is read of a slot or a stream after a change, what a fault of a context leaves as it was
(R273, R274), and the issue of an instruction (R254) by the stream's readiness and the encoding's legality.
-/

namespace Sys2Proof.Machine

open Sys2Proof

/-! ### Slots -/

@[simp] theorem ctxAt_setCtx_same (k : Nat) (c : Ctx) (s : State) : ctxAt (setCtx k c s) k = c := mapGetD_mapSet_same ..

theorem ctxAt_setCtx_ne {j k : Nat} (h : j ≠ k) (c : Ctx) (s : State) : ctxAt (setCtx k c s) j = ctxAt s j :=
  mapGetD_mapSet_ne _ _ _ _ _ h

@[simp] theorem ctxAt_modCtx_same (k : Nat) (f : Ctx → Ctx) (s : State) : ctxAt (modCtx k f s) k = f (ctxAt s k) :=
  ctxAt_setCtx_same ..

theorem ctxAt_modCtx_ne {j k : Nat} (h : j ≠ k) (f : Ctx → Ctx) (s : State) : ctxAt (modCtx k f s) j = ctxAt s j :=
  ctxAt_setCtx_ne h ..

/-- A slot is read from the compute array alone. -/
theorem ctxAt_of_cmp {s t : State} (h : t.cmp = s.cmp) (k : Nat) : ctxAt t k = ctxAt s k := by
  simp only [ctxAt, h]

theorem Only.ctxAt {l : List Part} {s t : State} (h : Only l s t) (g : Part.cmp ∉ l) (k : Nat) : ctxAt t k = ctxAt s k :=
  ctxAt_of_cmp (h .cmp g) k

@[simp] theorem ctxAt_progress (n : Node) (s : State) (k : Nat) : ctxAt (progress n s) k = ctxAt s k := rfl

/-- A write under a key replaces an earlier one under the same key. -/
theorem mapSet_mapSet_same {α : Type} (m : NMap α) (k : Nat) (v w : α) : mapSet (mapSet m k v) k w = mapSet m k w := by
  induction m with
  | nil => simp [mapSet]
  | cons e r ih =>
    obtain ⟨j, u⟩ := e
    by_cases heq : k = j
    · simp [mapSet, heq]
    · by_cases hlt : k < j <;> simp [mapSet, heq, hlt, ih]

theorem setCtx_setCtx_same (k : Nat) (c d : Ctx) (s : State) : setCtx k d (setCtx k c s) = setCtx k d s := by
  simp only [setCtx, mapSet_mapSet_same]

/-! ### Streams -/

theorem streamOf_set_same (c : Ctx) {e : Nat} (he : e < 4) (x : Stream) :
    streamOf { c with streams := c.streams.setIfInBounds e x } e = x := by
  simp [streamOf, he]

theorem streamOf_set_ne (c : Ctx) {e j : Nat} (h : j ≠ e) (x : Stream) :
    streamOf { c with streams := c.streams.setIfInBounds e x } j = streamOf c j := by
  simp [streamOf, List.getElem?_set_ne (Ne.symm h)]

theorem ctxAt_modStream_same (k e : Nat) (f : Stream → Stream) (s : State) : ctxAt (modStream k e f s) k =
    { ctxAt s k with streams := (ctxAt s k).streams.setIfInBounds e (f (streamOf (ctxAt s k) e)) } := ctxAt_modCtx_same ..

theorem ctxAt_modStream_ne {j k : Nat} (h : j ≠ k) (e : Nat) (f : Stream → Stream) (s : State) :
    ctxAt (modStream k e f s) j = ctxAt s j := ctxAt_modCtx_ne h ..

theorem streamOf_modStream_same (k : Nat) {e : Nat} (he : e < 4) (f : Stream → Stream) (s : State) :
    streamOf (ctxAt (modStream k e f s) k) e = f (streamOf (ctxAt s k) e) := by
  rw [ctxAt_modStream_same, streamOf_set_same _ he]

theorem streamOf_modStream_ne {e j : Nat} (h : j ≠ e) (k : Nat) (f : Stream → Stream) (s : State) :
    streamOf (ctxAt (modStream k e f s) k) j = streamOf (ctxAt s k) j := by
  rw [ctxAt_modStream_same, streamOf_set_ne _ h]

theorem streamAt_of_cmp {s t : State} (h : t.cmp = s.cmp) (w : StreamId) : streamAt t w = streamAt s w :=
  congrArg (fun c => streamOf c w.eng.val) (ctxAt_of_cmp h _)

@[simp] theorem streamAt_modStream (w : StreamId) (f : Stream → Stream) (s : State) :
    streamAt (modStream (slotKey w) w.eng.val f s) w = f (streamAt s w) := streamOf_modStream_same _ w.eng.isLt _ _

@[simp] theorem streamAt_progress (n : Node) (s : State) (w : StreamId) : streamAt (progress n s) w = streamAt s w := rfl

/-- Two changes of one stream are one change. -/
theorem modStream_modStream (k : Nat) {e : Nat} (he : e < 4) (f g : Stream → Stream) (s : State) :
    modStream k e g (modStream k e f s) = modStream k e (fun x => g (f x)) s := by
  have hset : (modStream k e g (modStream k e f s)) = setCtx k { ctxAt s k with
      streams := ((ctxAt s k).streams.setIfInBounds e (f (streamOf (ctxAt s k) e))).setIfInBounds e
        (g (streamOf (ctxAt (modStream k e f s) k) e)) } (modStream k e f s) := by
    unfold modStream
    simp only [modCtx, ctxAt_setCtx_same]
  rw [hset, streamOf_modStream_same k he, Vector.setIfInBounds_setIfInBounds]
  exact setCtx_setCtx_same ..

theorem modStream_only (k e : Nat) (f : Stream → Stream) (s : State) : Only [.cmp] s (modStream k e f s) :=
  modStream_parts _ _ _ (List.Subset.refl _) (.refl _ s)

theorem progress_only (n : Node) (s : State) : Only [.lantern] s (progress n s) :=
  progress_parts _ (List.Subset.refl _) (.refl _ s)

/-- An instruction counted and a change of its stream touch the compute array and the lantern only. -/
theorem modStream_progress_only (k e : Nat) (f : Stream → Stream) (n : Node) (s : State) :
    Only [.cmp, .lantern] s (modStream k e f (progress n s)) :=
  ((progress_only n s).mono (by simp)).trans ((modStream_only k e f _).mono (by simp))

/-! ### Faults of a context (R273, R274) -/

/-- Of the compute array only the slots have changed. -/
def SlotsOnly (s t : State) : Prop := t.cmp = { s.cmp with ctxs := t.cmp.ctxs }

theorem SlotsOnly.refl (s : State) : SlotsOnly s s := rfl

theorem SlotsOnly.of_cmp {s t : State} (h : t.cmp = s.cmp) : SlotsOnly s t := by
  rw [SlotsOnly, h]

theorem SlotsOnly.trans {s t u : State} (h : SlotsOnly s t) (g : SlotsOnly t u) : SlotsOnly s u := by
  rw [SlotsOnly] at *
  rw [g, h]

theorem SlotsOnly.foldl {α : Type} {f : State → α → State} (l : List α) (h : ∀ u x, SlotsOnly u (f u x)) (s : State) :
    SlotsOnly s (l.foldl f s) := by
  induction l generalizing s with
  | nil => exact .refl s
  | cons x r ih => exact (h s x).trans (ih (f s x))

theorem SlotsOnly.ite {s a b : State} {c : Prop} [Decidable c] (h : SlotsOnly s a) (g : SlotsOnly s b) :
    SlotsOnly s (if c then a else b) := by
  split <;> assumption

theorem setCtx_slotsOnly (k : Nat) (c : Ctx) (s : State) : SlotsOnly s (setCtx k c s) := rfl

theorem modCtx_slotsOnly (k : Nat) (f : Ctx → Ctx) (s : State) : SlotsOnly s (modCtx k f s) := rfl

theorem modStream_slotsOnly (k e : Nat) (f : Stream → Stream) (s : State) : SlotsOnly s (modStream k e f s) := rfl

theorem SlotsOnly.accs {s t : State} (h : SlotsOnly s t) : t.cmp.accs = s.cmp.accs := by rw [h]

theorem SlotsOnly.sp {s t : State} (h : SlotsOnly s t) : t.cmp.sp = s.cmp.sp := by rw [h]

theorem SlotsOnly.cache {s t : State} (h : SlotsOnly s t) : t.cmp.cache = s.cmp.cache := by rw [h]

theorem event_cmp (code tenant : Nat) (detail : List Nat) (s : State) : (event code tenant detail s).cmp = s.cmp :=
  event_only code tenant detail s .cmp (by decide)

/-- The slot of a context after a fault. -/
def faultedCtx (code detail : Nat) (c : Ctx) : Ctx :=
  { c with state := .faulted, fault := code, detail := detail, status := 1, copies := [], recorded := false }

/-- The compute array after a fault of a RUNNING or SUSPENDED context is that of its slot's new value. -/
theorem enterFaulted_cmp {k : Nat} {s : State} (h : (ctxAt s k).state = .running ∨ (ctxAt s k).state = .suspended) (code detail : Nat) :
    (enterFaulted k code detail s).cmp = (setCtx k (faultedCtx code detail (ctxAt s k)) s).cmp := by
  unfold enterFaulted
  rw [if_pos h, event_cmp, bump_cmp]
  split <;> rfl

theorem enterFaulted_slotsOnly (k code detail : Nat) (s : State) : SlotsOnly s (enterFaulted k code detail s) := by
  by_cases h : (ctxAt s k).state = .running ∨ (ctxAt s k).state = .suspended
  · exact (setCtx_slotsOnly k _ s).trans (.of_cmp (enterFaulted_cmp h code detail))
  · rw [enterFaulted, if_neg h]
    exact .refl s

theorem ctxAt_enterFaulted_ne {j k : Nat} (h : j ≠ k) (code detail : Nat) (s : State) :
    ctxAt (enterFaulted k code detail s) j = ctxAt s j := by
  by_cases hrun : (ctxAt s k).state = .running ∨ (ctxAt s k).state = .suspended
  · rw [ctxAt_of_cmp (enterFaulted_cmp hrun code detail), ctxAt_setCtx_ne h]
  · rw [enterFaulted, if_neg hrun]

/-- A fold of changes that each leave a slot leaves it. -/
theorem ctxAt_foldl {α : Type} {k : Nat} {f : State → α → State} (l : List α) (h : ∀ u, ∀ x ∈ l, ctxAt (f u x) k = ctxAt u k)
    (s : State) : ctxAt (l.foldl f s) k = ctxAt s k := by
  induction l generalizing s with
  | nil => rfl
  | cons x r ih => exact (ih (fun u y hy => h u y (List.mem_cons_of_mem x hy)) (f s x)).trans (h s x List.mem_cons_self)

/-- A context's gang loses it: only its mates take note. -/
theorem ctxAt_loseGang (k : Nat) (s : State) : ctxAt (loseGang k s) k = ctxAt s k := by
  unfold loseGang
  dsimp only
  split
  · rfl
  · refine ctxAt_foldl _ (fun u e he => ?_) s
    have hne : k ≠ e.1 := by
      have := (List.mem_filter.mp he).2
      simp only [Bool.and_eq_true, bne_iff_ne] at this
      exact fun heq => this.1 heq.symm
    split
    · rw [ctxAt_enterFaulted_ne hne, ctxAt_modCtx_ne hne]
    · exact ctxAt_modCtx_ne hne ..

theorem loseGang_slotsOnly (k : Nat) (s : State) : SlotsOnly s (loseGang k s) := by
  unfold loseGang
  refine .ite (.refl s) (.foldl _ (fun u e => ?_) s)
  exact .ite ((modCtx_slotsOnly e.1 _ u).trans (enterFaulted_slotsOnly _ _ _ _)) (modCtx_slotsOnly e.1 _ u)

theorem ctxFault_slotsOnly (k code detail : Nat) (s : State) : SlotsOnly s (ctxFault k code detail s) :=
  (enterFaulted_slotsOnly k code detail s).trans (loseGang_slotsOnly k _)

theorem ctxAt_ctxFault {k : Nat} {s : State} (h : (ctxAt s k).state = .running ∨ (ctxAt s k).state = .suspended) (code detail : Nat) :
    ctxAt (ctxFault k code detail s) k = faultedCtx code detail (ctxAt s k) := by
  rw [ctxFault, ctxAt_loseGang, ctxAt_of_cmp (enterFaulted_cmp h code detail), ctxAt_setCtx_same]

theorem ctxFault_only (k code detail : Nat) (s : State) :
    Only [.cmp, .dict, .host, .can, .log, .pwr, .sent] s (ctxFault k code detail s) :=
  ctxFault_parts _ _ _ (List.Subset.refl _) (.refl _ s)

/-- A fault raised from a state that has the compute array and the memory of `s`. -/
theorem ctxFault_faultsWith {w : StreamId} {s u : State} (hrun : (ctxAt s (slotKey w)).state = .running) (hcmp : u.cmp = s.cmp)
    (hmem : u.mem = s.mem) (code detail : Nat) : FaultsWith w code s (ctxFault (slotKey w) code detail u) := by
  have hctx : ctxAt u (slotKey w) = ctxAt s (slotKey w) := ctxAt_of_cmp hcmp _
  have hat := ctxAt_ctxFault (k := slotKey w) (s := u) (.inl (hctx ▸ hrun)) code detail
  have hslots := ctxFault_slotsOnly (slotKey w) code detail u
  refine ⟨by rw [hat]; rfl, by rw [hat]; rfl, by rw [hat, hctx]; rfl, by rw [hslots.accs, hcmp], by rw [hslots.sp, hcmp], ?_⟩
  rw [← hmem]
  exact ctxFault_only _ _ _ u .mem (by decide)

/-! ### Issue (R254, R264) -/

/-- A stream that can issue belongs to a RUNNING context. -/
theorem running_of_ready {s : State} {w : StreamId} (h : ready s w = true) : (ctxAt s (slotKey w)).state = .running := by
  simp only [ready, canIssue, Bool.and_eq_true, beq_iff_eq] at h
  exact h.1.1.1

/-- A stream that can issue waits for nothing. -/
theorem wait_of_ready {s : State} {w : StreamId} (h : ready s w = true) : (streamAt s w).wait = .none := by
  simp only [ready, canIssue, Bool.and_eq_true, beq_iff_eq] at h
  exact h.2

/-- The machine once an instruction of a stream is counted. -/
def countStep (w : StreamId) (s : State) : State := progress (.stream (slotKey w) w.eng.val) s

@[simp] theorem countStep_cmp (w : StreamId) (s : State) : (countStep w s).cmp = s.cmp := rfl

@[simp] theorem countStep_mem (w : StreamId) (s : State) : (countStep w s).mem = s.mem := rfl

@[simp] theorem streamAt_countStep (w : StreamId) (s : State) : streamAt (countStep w s) w = streamAt s w := rfl

@[simp] theorem ctxAt_countStep (w : StreamId) (s : State) (k : Nat) : ctxAt (countStep w s) k = ctxAt s k := rfl

theorem countStep_only (w : StreamId) (s : State) : Only [.lantern] s (countStep w s) := progress_only _ s

theorem issue_of_ready {w : StreamId} {s : State} {legal : Bool} (h : ready s w = true) (hlegal : legal = true)
    (run : Nat → Ctx → Stream → State → State) :
    issue w legal run s = run (slotKey w) (ctxAt s (slotKey w)) (streamAt s w) (countStep w s) :=
  (if_pos h).trans (if_pos hlegal)

theorem issue_of_illegal {w : StreamId} {s : State} {legal : Bool} (h : ready s w = true) (hlegal : legal = false)
    (run : Nat → Ctx → Stream → State → State) : issue w legal run s = ctxFault (slotKey w) fIllegal 0 s :=
  (if_pos h).trans (if_neg (by simp [hlegal]))

theorem issue_of_not_ready {w : StreamId} {s : State} (h : ready s w = false) (legal : Bool)
    (run : Nat → Ctx → Stream → State → State) : issue w legal run s = s :=
  if_neg (by rw [← Bool.not_eq_true] at h; exact h)

/-- The command is the issue of an instruction that is legal where `legal` says so. -/
def Issues (w : StreamId) (legal : Bool) (s : State) (y : Instr) : Prop :=
  ∃ run : Nat → Ctx → Stream → State → State, exec y s = .next (issue w legal run s)

theorem Issues.faults {w : StreamId} {legal : Bool} {s : State} {y : Instr} (h : Issues w legal s y) (hready : ready s w = true)
    (hlegal : legal = false) : ∃ t : State, exec y s = .next t ∧ FaultsWith w 1 s t := by
  obtain ⟨run, hexec⟩ := h
  rw [hexec, issue_of_illegal hready hlegal]
  exact ⟨_, rfl, ctxFault_faultsWith (running_of_ready hready) rfl rfl _ _⟩

theorem Issues.idle {w : StreamId} {legal : Bool} {s : State} {y : Instr} (h : Issues w legal s y) (hready : ready s w = false) :
    exec y s = .next s := by
  obtain ⟨run, hexec⟩ := h
  rw [hexec, issue_of_not_ready hready]

theorem issueRegs_of_ready {w : StreamId} {s : State} {legal : Bool} (h : ready s w = true) (hlegal : legal = true) (g : Stream → Stream) :
    issueRegs w legal g s = modStream (slotKey w) w.eng.val (fun x => nextPc (g x)) (countStep w s) :=
  issue_of_ready h hlegal _

theorem issueRegs_issues {w : StreamId} {legal : Bool} {s : State} {y : Instr} {g : Stream → Stream}
    (h : exec y s = .next (issueRegs w legal g s)) : Issues w legal s y :=
  ⟨fun k _ _ u => modStream k w.eng.val (fun x => nextPc (g x)) u, h⟩

/-- Of the compute array a change of a stream touches the stream only. -/
theorem modStream_streamOnly (w : StreamId) (h : Stream → Stream) (s : State) :
    StreamOnly w s (modStream (slotKey w) w.eng.val h (countStep w s)) := by
  rw [StreamOnly, streamAt_modStream]
  rfl

end Sys2Proof.Machine
end

section
/-!
SUPPORT. The registers of a stream (R263): what a read returns after a write of the active lanes or bits, and what a stream that
only writes registers leaves as it was.
-/

namespace Sys2Proof.Machine

open Sys2Proof

/-! ### Vector registers -/

theorem vLane_lt (x : Stream) (r : BitVec 5) (i : Nat) : vLane x r i < 2 ^ 32 := BitVec.isLt _

/-- A lane as a word. -/
def vWord (x : Stream) (r : BitVec 5) (i : Nat) : BitVec 32 := BitVec.ofNat 32 (vLane x r i)

@[simp] theorem toNat_vWord (x : Stream) (r : BitVec 5) (i : Nat) : (vWord x r i).toNat = vLane x r i := by
  rw [vWord, BitVec.toNat_ofNat, Nat.mod_eq_of_lt (vLane_lt x r i)]

theorem ofNat_toNat_mod (n : Nat) : (BitVec.ofNat 32 n).toNat = n % 2 ^ 32 := BitVec.toNat_ofNat n 32

/-- A lane of a register after a write of the active lanes of v[r]. -/
theorem vLane_setLanes (f : IFields) (r q : BitVec 5) (g : Nat → Nat) (x : Stream) {i : Nat} (hi : i < 16) :
    vLane (setLanes f r g x) q i = if q = r ∧ laneOn x f i = true then (BitVec.ofNat 32 (g i)).toNat else vLane x q i := by
  by_cases hq : q = r
  · subst hq
    by_cases hon : laneOn x f i = true
    · simp [vLane, setLanes, hi, hon]
    · simp only [vLane, setLanes, mapGetD_mapSet_same, List.getD_eq_getElem?_getD, List.getElem?_map, List.getElem?_range hi,
        Option.map_some, Option.getD_some, hon]
      simp
  · have hne : q.toNat ≠ r.toNat := fun h => hq (BitVec.eq_of_toNat_eq h)
    simp [vLane, setLanes, mapGetD_mapSet_ne _ _ _ _ _ hne, hq]

theorem vLane_of_v {x y : Stream} (h : y.v = x.v) (r : BitVec 5) (i : Nat) : vLane y r i = vLane x r i := by
  simp only [vLane, h]

/-- Lanes hold what the stream's new value says. -/
theorem lanesHold_of_setLanes {w : StreamId} {f : IFields} {s t : State} {g : Fin 16 → BitVec 32} {g0 : Nat → Nat}
    (h : (streamAt t w).v = (setLanes f f.d g0 (streamAt s w)).v)
    (hg : ∀ i : Fin 16, laneOn (streamAt s w) f i.val = true → BitVec.ofNat 32 (g0 i.val) = g i) : LanesHold w f g s t := by
  intro r i
  rw [vLane_of_v h, vLane_setLanes _ _ _ _ _ i.isLt]
  by_cases hc : r = f.d ∧ laneOn (streamAt s w) f i.val = true
  · rw [if_pos hc, if_pos hc, hg i hc.2]
  · rw [if_neg hc, if_neg hc]

/-- The active lanes of v[D] are written and the stream goes on; nothing else has changed. -/
theorem modStream_lanesWritten {w : StreamId} {f : IFields} {s : State} {h : Stream → Stream} {g : Fin 16 → BitVec 32} {g0 : Nat → Nat}
    (hh : h (streamAt s w) = nextPc (setLanes f f.d g0 (streamAt s w)))
    (hg : ∀ i : Fin 16, laneOn (streamAt s w) f i.val = true → BitVec.ofNat 32 (g0 i.val) = g i) :
    LanesWritten w f g s (modStream (slotKey w) w.eng.val h (countStep w s)) := by
  have hat : streamAt (modStream (slotKey w) w.eng.val h (countStep w s)) w = nextPc (setLanes f f.d g0 (streamAt s w)) := by
    rw [streamAt_modStream, streamAt_countStep, hh]
  refine ⟨modStream_streamOnly w h s, modStream_progress_only _ _ _ _ s, ?_, ?_, ?_, lanesHold_of_setLanes (g0 := g0) ?_ hg⟩
  all_goals simp only [GoneOn, hat]; rfl

/-- An instruction that writes the active lanes of v[D] by a function of the stream. -/
theorem issueRegs_lanesWritten {w : StreamId} {f : IFields} {s : State} {legal : Bool} (hready : ready s w = true) (hlegal : legal = true)
    {G : Stream → Nat → Nat} {g : Fin 16 → BitVec 32}
    (hg : ∀ i : Fin 16, laneOn (streamAt s w) f i.val = true → BitVec.ofNat 32 (G (streamAt s w) i.val) = g i) :
    LanesWritten w f g s (issueRegs w legal (fun x => setLanes f f.d (G x) x) s) := by
  rw [issueRegs_of_ready hready hlegal]
  exact modStream_lanesWritten rfl hg

/-! ### Scalar and predicate registers -/

theorem setS_of_ne {r : BitVec 5} (h : r ≠ 0) (v : BitVec 64) (x : Stream) : setS r v x = { x with s := mapSet x.s r.toNat v } := if_neg h

theorem setP_of_ne {r : Nat} (h : r ≠ 0) (v : BitVec 16) (x : Stream) : setP r v x = { x with p := mapSet x.p r v } := if_neg h

theorem sReg_setS (r q : BitVec 5) (v : BitVec 64) (x : Stream) : sReg (setS r v x) q = if q = r ∧ q ≠ 0 then v else sReg x q := by
  by_cases hr : r = 0
  · subst hr
    rw [if_neg fun h => h.2 h.1, setS, if_pos rfl]
  · rw [setS_of_ne hr, sReg, sReg]
    by_cases hq : q = r
    · subst hq
      rw [if_neg hr, mapGetD_mapSet_same, if_pos ⟨rfl, hr⟩]
    · have hnot : ¬(q = r ∧ q ≠ 0) := fun h => hq h.1
      rw [mapGetD_mapSet_ne _ _ _ _ _ fun h => hq (BitVec.eq_of_toNat_eq h), if_neg hnot]

theorem pReg_setP (r q : Nat) (v : BitVec 16) (x : Stream) : pReg (setP r v x) q = if q = r ∧ q ≠ 0 then v else pReg x q := by
  by_cases hr : r = 0
  · subst hr
    rw [if_neg fun h => h.2 h.1, setP, if_pos rfl]
  · rw [setP_of_ne hr, pReg, pReg]
    by_cases hq : q = r
    · subst hq
      rw [if_neg hr, mapGetD_mapSet_same, if_pos ⟨rfl, hr⟩]
    · have hnot : ¬(q = r ∧ q ≠ 0) := fun h => hq h.1
      rw [mapGetD_mapSet_ne _ _ _ _ _ hq, if_neg hnot]

/-- A predicate write changes no other field of a stream. -/
theorem setP_eq (r : Nat) (v : BitVec 16) (x : Stream) : setP r v x = { x with p := (setP r v x).p } := by
  unfold setP
  split <;> rfl

theorem setS_eq (r : BitVec 5) (v : BitVec 64) (x : Stream) : setS r v x = { x with s := (setS r v x).s } := by
  unfold setS
  split <;> rfl

theorem setBits_eq (f : IFields) (r : Nat) (g : Nat → Bool) (x : Stream) : setBits f r g x = { x with p := (setBits f r g x).p } :=
  setP_eq ..

/-- The flags of the places below `n`. -/
def flagSum (h : Nat → Bool) (n : Nat) : Nat := (List.range n).foldl (fun m j => m + flag (h j) j) 0

theorem flagSum_succ (h : Nat → Bool) (n : Nat) : flagSum h (n + 1) = flagSum h n + flag (h n) n := by
  rw [flagSum, List.range_succ, List.foldl_append]
  rfl

theorem flagSum_lt (h : Nat → Bool) (n : Nat) : flagSum h n < 2 ^ n := by
  induction n with
  | zero => exact Nat.one_pos
  | succ n ih =>
    have hflag : flag (h n) n ≤ 2 ^ n := by unfold flag; split <;> simp
    rw [flagSum_succ, Nat.pow_succ]
    omega

/-- The sum of the flags of distinct places has the bits of their places. -/
theorem testBit_flagSum (h : Nat → Bool) (n i : Nat) : (flagSum h n).testBit i = (decide (i < n) && h i) := by
  induction n with
  | zero => simp [flagSum]
  | succ n ih =>
    rw [flagSum_succ]
    rcases Nat.lt_trichotomy i n with hlt | rfl | hgt
    · have hbit : (flagSum h n + flag (h n) n).testBit i = (flagSum h n).testBit i := by
        unfold flag
        split
        · rw [Nat.add_comm, Nat.testBit_two_pow_add_gt hlt]
        · rfl
      simp [hbit, ih, hlt, Nat.lt_succ_of_lt hlt]
    · have hbit : (flagSum h i + flag (h i) i).testBit i = h i := by
        unfold flag
        split
        · next hi => rw [Nat.add_comm, Nat.testBit_two_pow_add_eq, ih, hi]; simp
        · next hi => rw [Nat.add_zero, ih]; simp [hi]
      simp [hbit]
    · have hpow : 2 ^ (n + 1) ≤ 2 ^ i := Nat.pow_le_pow_right (by omega) hgt
      have hnot : ¬ i < n + 1 := by omega
      rw [← flagSum_succ, Nat.testBit_lt_two_pow (Nat.lt_of_lt_of_le (flagSum_lt h (n + 1)) hpow)]
      simp [hnot]

theorem getLsbD_pReg_setBits (f : IFields) (r q : Nat) (g : Nat → Bool) (x : Stream) {i : Nat} (hi : i < 16) :
    (pReg (setBits f r g x) q).getLsbD i =
      if q = r ∧ q ≠ 0 ∧ laneOn x f i = true then g i else (pReg x q).getLsbD i := by
  rw [setBits, pReg_setP]
  by_cases hq : q = r ∧ q ≠ 0
  · obtain ⟨rfl, hzero⟩ := hq
    rw [if_pos ⟨rfl, hzero⟩, BitVec.getLsbD_ofNat]
    refine (congrArg (decide (i < 16) && ·) (testBit_flagSum _ 16 i)).trans ?_
    simp [hi, hzero]
  · rw [if_neg hq, if_neg (fun h => hq ⟨h.1, h.2.1⟩)]

/-- An instruction that writes the active lanes of p[D] by a function of the stream. -/
theorem issueRegs_bitsWritten {w : StreamId} {f : IFields} {s : State} {legal : Bool} (hready : ready s w = true) (hlegal : legal = true)
    {G : Stream → Nat → Bool} {g : Fin 16 → Bool} (hg : ∀ i : Fin 16, G (streamAt s w) i.val = g i) :
    BitsWritten w f g s (issueRegs w legal (fun x => setBits f f.d.toNat (G x) x) s) := by
  rw [issueRegs_of_ready hready hlegal]
  have hat : streamAt (modStream (slotKey w) w.eng.val (fun x => nextPc (setBits f f.d.toNat (G x) x)) (countStep w s)) w =
      nextPc (setBits f f.d.toNat (G (streamAt s w)) (streamAt s w)) := by
    rw [streamAt_modStream, streamAt_countStep]
  have hset := setBits_eq f f.d.toNat (G (streamAt s w)) (streamAt s w)
  refine ⟨modStream_streamOnly w _ s, modStream_progress_only _ _ _ _ s, ?_, ?_, ?_, ?_⟩
  · rw [GoneOn, hat, hset]
    rfl
  · rw [hat, hset]
    rfl
  · rw [hat, hset]
    rfl
  · intro q i
    rw [hat]
    exact (getLsbD_pReg_setBits f f.d.toNat q.val _ (streamAt s w) i.isLt).trans (by rw [hg])

end Sys2Proof.Machine
end

section
/-! SUPPORT. Class 0: the integer instructions on words (R254, R263, R264, R284). -/

namespace Sys2Proof.Machine

open Sys2Proof

variable {w : StreamId} {f : IFields} {s : State}

/-! ### Operations on words -/

/-- A function of numbers below 2^32 that computes a function of words. -/
def Computes (G : Nat → Nat → Nat) (g : BitVec 32 → BitVec 32 → BitVec 32) : Prop :=
  ∀ a b : BitVec 32, BitVec.ofNat 32 (G a.toNat b.toNat) = g a b

theorem computes_add : Computes (fun a b => (a + b) % 2 ^ 32) (fun a b => a + b) := by
  intro a b
  apply BitVec.eq_of_toNat_eq
  simp

theorem computes_sub : Computes (fun a b => (a + 2 ^ 32 - b) % 2 ^ 32) (fun a b => a - b) := by
  intro a b
  apply BitVec.eq_of_toNat_eq
  have hlt := b.isLt
  simp only [BitVec.toNat_ofNat, BitVec.toNat_sub]
  omega

theorem computes_mullo : Computes (fun a b => a * b % 2 ^ 32) (fun a b => a * b) := by
  intro a b
  apply BitVec.eq_of_toNat_eq
  simp

theorem computes_and : Computes (fun a b => a &&& b) (fun a b => a &&& b) := by
  intro a b
  simp only [← BitVec.toNat_and, BitVec.ofNat_toNat, BitVec.setWidth_eq]

theorem computes_or : Computes (fun a b => a ||| b) (fun a b => a ||| b) := by
  intro a b
  simp only [← BitVec.toNat_or, BitVec.ofNat_toNat, BitVec.setWidth_eq]

theorem computes_xor : Computes (fun a b => a ^^^ b) (fun a b => a ^^^ b) := by
  intro a b
  simp only [← BitVec.toNat_xor, BitVec.ofNat_toNat, BitVec.setWidth_eq]

theorem computes_left : Computes (fun a _ => a) (fun a _ => a) := fun a _ => by rw [BitVec.ofNat_toNat, BitVec.setWidth_eq]

theorem signed_of_low {n : Nat} (h : n < 2 ^ 31) : signed 32 n = n := by
  have hmod : n % 2 ^ 32 = n := Nat.mod_eq_of_lt (by omega)
  rw [signed, hmod]
  exact if_pos h

theorem signed_of_high {n : Nat} (hlo : 2 ^ 31 ≤ n) (hhi : n < 2 ^ 32) : signed 32 n = (n : Int) - 4294967296 := by
  have hmod : n % 2 ^ 32 = n := Nat.mod_eq_of_lt hhi
  have hpow : (2 : Int) ^ 32 = 4294967296 := by norm_num
  rw [signed, hmod, hpow]
  exact if_neg (Nat.not_lt.mpr hlo)

/-- The signed value of a lane is that of its word. -/
theorem signed_toNat (a : BitVec 32) : signed 32 a.toNat = a.toInt := by
  rcases Nat.lt_or_ge a.toNat (2 ^ 31) with h | h
  · rw [signed_of_low h, BitVec.toInt_eq_toNat_cond, if_pos (by omega)]
  · rw [signed_of_high h a.isLt, BitVec.toInt_eq_toNat_cond, if_neg (by omega)]
    norm_num

theorem intLess_eq (c : Bool) (a b : BitVec 32) : intLess c a.toNat b.toNat = if c then a.slt b else a.ult b := by
  cases c
  · simp only [intLess, BitVec.ult, Bool.false_eq_true, if_false]
  · simp only [intLess, signed_toNat, BitVec.slt, if_true]

theorem isI32_eq (f : IFields) : isI32 f = decide (f.ty = 0) := rfl

theorem computes_min (f : IFields) : Computes (fun a b => if intLess (isI32 f) b a then b else a)
    (fun a b => if f.ty = 0 then (if b.slt a then b else a) else (if b.ult a then b else a)) := by
  intro a b
  simp only [intLess_eq, isI32_eq, decide_eq_true_eq]
  split <;> split <;> simp

theorem computes_max (f : IFields) : Computes (fun a b => if intLess (isI32 f) a b then b else a)
    (fun a b => if f.ty = 0 then (if a.slt b then b else a) else (if a.ult b then b else a)) := by
  intro a b
  simp only [intLess_eq, isI32_eq, decide_eq_true_eq]
  split <;> split <;> simp

/-! ### Shifts -/

theorem shl_word (n : Nat) (a : BitVec 32) : BitVec.ofNat 32 (if 32 ≤ n then 0 else a.toNat * 2 ^ n % 2 ^ 32) = a <<< n := by
  apply BitVec.eq_of_toNat_eq
  rw [BitVec.toNat_shiftLeft, Nat.shiftLeft_eq, BitVec.toNat_ofNat]
  split
  · next h =>
    obtain ⟨m, rfl⟩ := Nat.exists_eq_add_of_le h
    rw [Nat.pow_add, ← Nat.mul_assoc, Nat.mul_right_comm, Nat.mul_mod_left]
  · rw [Nat.mod_mod]

theorem shr_word (n : Nat) (a : BitVec 32) : BitVec.ofNat 32 (if 32 ≤ n then 0 else a.toNat / 2 ^ n) = a >>> n := by
  apply BitVec.eq_of_toNat_eq
  have hlt := a.isLt
  rw [BitVec.toNat_ushiftRight, Nat.shiftRight_eq_div_pow, BitVec.toNat_ofNat]
  split
  · next h =>
    have hpow : 2 ^ 32 ≤ 2 ^ n := Nat.pow_le_pow_right (by omega) h
    rw [Nat.div_eq_of_lt (Nat.lt_of_lt_of_le hlt hpow)]
  · exact Nat.mod_eq_of_lt (Nat.lt_of_le_of_lt (Nat.div_le_self _ _) hlt)

/-- A two's-complement field reads back as the word of its integer. -/
theorem ofNat_twos (i : Int) : BitVec.ofNat 32 (twos 32 i) = BitVec.ofInt 32 i := by
  apply BitVec.eq_of_toNat_eq
  rw [BitVec.toNat_ofInt, BitVec.toNat_ofNat, twos]
  exact Nat.mod_eq_of_lt (by omega)

theorem sar_word (n : Nat) (a : BitVec 32) : BitVec.ofNat 32 (sarLane (min n 32) a.toNat) = a.sshiftRight n := by
  rw [sarLane, ofNat_twos, signed_toNat]
  apply BitVec.eq_of_toInt_eq
  have hdiv : a.toInt / (2 ^ min n 32 : Int) = a.toInt >>> n := by
    rw [Int.shiftRight_eq_div_pow]
    by_cases h : n ≤ 32
    · rw [Nat.min_eq_left h]
      norm_cast
    · have hlo := BitVec.le_toInt a
      have hhi := BitVec.toInt_lt (x := a)
      have hpow : (2 ^ 32 : Int) ≤ ((2 ^ n : Nat) : Int) := by exact_mod_cast Nat.pow_le_pow_right (by omega) (by omega)
      rw [Nat.min_eq_right (by omega)]
      by_cases hneg : a.toInt < 0
      · rw [Int.ediv_eq_neg_one_of_neg_of_le hneg (by omega), Int.ediv_eq_neg_one_of_neg_of_le hneg (by omega)]
      · rw [Int.ediv_eq_zero_of_lt (by omega) (by omega), Int.ediv_eq_zero_of_lt (by omega) (by omega)]
  rw [hdiv, ← BitVec.toInt_sshiftRight, BitVec.ofInt_toInt]

/-! ### Instructions -/

theorem intOp_lanesWritten (hready : ready s w = true) (hlegal : intLegal f = true) {G : Nat → Nat → Nat}
    {g : BitVec 32 → BitVec 32 → BitVec 32} (h : Computes G g) :
    LanesWritten w f (fun i => g (vWord (streamAt s w) f.a i.val) (vWord (streamAt s w) f.b i.val)) s (intOp w f G s) := by
  refine issueRegs_lanesWritten hready hlegal fun i _ => ?_
  rw [← h, toNat_vWord, toNat_vWord]

theorem shiftOp_lanesWritten (hready : ready s w = true) (hlegal : intLegal f = true) {G : Nat → Nat → Nat}
    {g : BitVec 32 → BitVec 32} (h : ∀ a : BitVec 32, BitVec.ofNat 32 (G f.imm.toNat a.toNat) = g a) :
    LanesWritten w f (fun i => g (vWord (streamAt s w) f.a i.val)) s (shiftOp w f G s) := by
  have himm : f.imm.toNat % 2 ^ 16 = f.imm.toNat := by
    simp only [intLegal, Bool.and_eq_true, decide_eq_true_eq] at hlegal
    exact Nat.mod_eq_of_lt hlegal.2
  refine issueRegs_lanesWritten hready hlegal fun i _ => ?_
  rw [← h, toNat_vWord, himm]

theorem intLegal_iff (f : IFields) : intLegal f = true ↔ f.ty.toNat ≤ 1 ∧ f.imm.toNat < 2 ^ 16 := by
  simp [intLegal]

theorem intLegal_false {f : IFields} (h : 1 < f.ty.toNat ∨ 2 ^ 16 ≤ f.imm.toNat) : intLegal f = false := by
  rw [← Bool.not_eq_true, intLegal_iff]
  omega

/-- An immediate with bit 15 clear is the value of every active lane. -/
theorem movi_of_low (hready : ready s w = true) (hlegal : intLegal f = true) (h : f.imm.toNat < 2 ^ 15) :
    ∃ t : State, exec (.intMovi w f) s = .next t ∧ LanesWritten w f (fun _ => BitVec.ofNat 32 f.imm.toNat) s t := by
  have himm : f.imm.toNat % 2 ^ 16 = f.imm.toNat := Nat.mod_eq_of_lt (by omega)
  refine ⟨modStream (slotKey w) w.eng.val (fun x => nextPc (setLanes f f.d (fun _ => f.imm.toNat) x)) (countStep w s), ?_,
    modStream_lanesWritten rfl fun _ _ => rfl⟩
  show Host.Outcome.next (issue w (intLegal f) _ s) = _
  rw [issue_of_ready hready hlegal, himm, if_pos h]

/-- With bit 15 set the low half of a lane is the immediate, and the upper half a free value. -/
theorem movi_of_high (hready : ready s w = true) (hlegal : intLegal f = true) (h : 2 ^ 15 ≤ f.imm.toNat) :
    exec (.intMovi w f) s = .next (modStream (slotKey w) w.eng.val
      (fun x => nextPc (setLanes f f.d (fun _ => nextFree (countStep w s) 16 * 2 ^ 16 + f.imm.toNat) x)) (drawn (countStep w s))) := by
  have himm : f.imm.toNat % 2 ^ 16 = f.imm.toNat := Nat.mod_eq_of_lt ((intLegal_iff f).mp hlegal).2
  show Host.Outcome.next (issue w (intLegal f) _ s) = _
  rw [issue_of_ready hready hlegal, himm, if_neg (by omega)]

theorem intOp_issues {y : Instr} {G : Nat → Nat → Nat} (h : exec y s = .next (intOp w f G s)) : Issues w (intLegal f) s y :=
  issueRegs_issues h

theorem shiftOp_issues {y : Instr} {G : Nat → Nat → Nat} (h : exec y s = .next (shiftOp w f G s)) : Issues w (intLegal f) s y :=
  issueRegs_issues h

/-- The instructions of class 0, each issued where its TYPE and IMM are legal. -/
theorem integer_issues (w : StreamId) (f : IFields) (s : State) :
    ∀ y ∈ ([.intAdd w f, .intSub w f, .intMullo w f, .intAnd w f, .intOr w f, .intXor w f, .intShl w f, .intShr w f, .intSar w f,
      .intMin w f, .intMax w f, .intMov w f, .intMovi w f] : List Instr), Issues w (intLegal f) s y := by
  simp only [List.forall_mem_cons]
  exact ⟨intOp_issues rfl, intOp_issues rfl, intOp_issues rfl, intOp_issues rfl, intOp_issues rfl, intOp_issues rfl,
    shiftOp_issues rfl, shiftOp_issues rfl, shiftOp_issues rfl, intOp_issues rfl, intOp_issues rfl, intOp_issues rfl,
    ⟨_, rfl⟩, List.forall_mem_nil _⟩

end Sys2Proof.Machine
end

section

namespace Sys2Proof.Machine

open Sys2Proof

/-- Settles O35: each instruction is one write of the active lanes by its function of words; `movi` draws the upper half where bit 15
of its immediate is set. -/
theorem integerLanes : Obligations.IntegerLanes := by
  unfold Obligations.IntegerLanes
  intro w f s
  refine ⟨fun hready hty himm => ?_, fun y hy => ⟨fun hready hbad => ?_, fun hready => ?_⟩⟩
  · have hlegal : intLegal f = true := (intLegal_iff f).mpr ⟨hty, himm⟩
    refine ⟨?_, movi_of_low hready hlegal, fun hhigh => ⟨_, movi_of_high hready hlegal hhigh, ?_, ?_, fun r i => ?_⟩⟩
    · simp only [List.forall_mem_cons]
      exact ⟨⟨_, rfl, intOp_lanesWritten hready hlegal computes_add⟩, ⟨_, rfl, intOp_lanesWritten hready hlegal computes_sub⟩,
        ⟨_, rfl, intOp_lanesWritten hready hlegal computes_mullo⟩, ⟨_, rfl, intOp_lanesWritten hready hlegal computes_and⟩,
        ⟨_, rfl, intOp_lanesWritten hready hlegal computes_or⟩, ⟨_, rfl, intOp_lanesWritten hready hlegal computes_xor⟩,
        ⟨_, rfl, shiftOp_lanesWritten (g := (· <<< f.imm.toNat)) hready hlegal (shl_word _)⟩,
        ⟨_, rfl, shiftOp_lanesWritten (g := (· >>> f.imm.toNat)) hready hlegal (shr_word _)⟩,
        ⟨_, rfl, shiftOp_lanesWritten (g := (·.sshiftRight f.imm.toNat)) hready hlegal (sar_word _)⟩,
        ⟨_, rfl, intOp_lanesWritten hready hlegal computes_left⟩,
        ⟨_, rfl, intOp_lanesWritten hready hlegal (computes_min f)⟩, ⟨_, rfl, intOp_lanesWritten hready hlegal (computes_max f)⟩,
        List.forall_mem_nil _⟩
    · rw [GoneOn, streamAt_modStream]
      rfl
    · exact (((countStep_only w s).mono (by simp)).trans (drawn_parts (by decide) (.refl _ _))).trans
        ((modStream_only _ _ _ _).mono (by simp))
    · rw [streamAt_modStream]
      have hlane := vLane_setLanes f f.d r (fun _ => nextFree (countStep w s) 16 * 2 ^ 16 + f.imm.toNat) (streamAt s w) i.isLt
      refine ⟨fun hc => ?_, fun hc => hlane.trans (if_neg hc)⟩
      refine (congrArg (· % 2 ^ 16) (hlane.trans (if_pos hc))).trans ?_
      rw [BitVec.toNat_ofNat]
      omega
  · exact (integer_issues w f s y hy).faults hready (intLegal_false hbad)
  · exact (integer_issues w f s y hy).idle hready

end Sys2Proof.Machine
end

section
/-! SUPPORT. Classes 1 to 3: compares, select and conversion (R284, R285), FMA (R284) and dot products (R286–R288). -/

namespace Sys2Proof.Machine

open Sys2Proof

variable {w : StreamId} {f : IFields} {s : State}

/-! ### Compares (R284) -/

/-- The integer of a lane under its type. -/
def laneInt (signedLane : Bool) (a : BitVec 32) : Int := if signedLane then a.toInt else (a.toNat : Int)

theorem intFV_eq (c : Bool) (a : BitVec 32) : intFV c a.toNat = .fin (decide (laneInt c a < 0)) (laneInt c a).natAbs 0 := by
  cases c
  · simp only [intFV, laneInt, Bool.false_eq_true, if_false, Nat.mod_eq_of_lt a.isLt]
  · simp only [intFV, laneInt, if_true, signed_toNat]

/-- The units of an integer's value are the integer. -/
theorem unitsFV_int (i : Int) : unitsFV 0 (.fin (decide (i < 0)) i.natAbs 0) = i := by
  simp only [unitsFV, decide_eq_true_eq, Int.sub_self, Int.toNat_zero, pow_zero, mul_one]
  split <;> omega

theorem ltFV_intFV (c : Bool) (a b : BitVec 32) : ltFV (intFV c a.toNat) (intFV c b.toNat) = decide (laneInt c a < laneInt c b) := by
  rw [intFV_eq, intFV_eq, ltFV]
  simp only [min_self, unitsFV_int]

theorem eqFV_intFV (c : Bool) (a b : BitVec 32) : eqFV (intFV c a.toNat) (intFV c b.toNat) = decide (laneInt c a = laneInt c b) := by
  rw [intFV_eq, intFV_eq, eqFV]
  simp only [min_self, unitsFV_int]

theorem eqFV_word (c : Bool) (a b : BitVec 32) : eqFV (intFV c a.toNat) (intFV c b.toNat) = (a == b) := by
  rw [eqFV_intFV, Bool.eq_iff_iff, decide_eq_true_eq, beq_iff_eq]
  cases c
  · simp [laneInt, BitVec.toNat_inj]
  · simp [laneInt, BitVec.toInt_inj]

theorem ltFV_word (f : IFields) (a b : BitVec 32) : ltFV (intFV (isI32 f) a.toNat) (intFV (isI32 f) b.toNat) =
    if f.ty = 0 then a.slt b else a.ult b := by
  rw [ltFV_intFV, isI32_eq]
  by_cases h : f.ty = 0
  · simp only [h, laneInt, BitVec.slt, decide_true, if_true]
  · simp only [h, laneInt, BitVec.ult, decide_false, Bool.false_eq_true, if_false, Nat.cast_lt]

theorem leFV_word (f : IFields) (a b : BitVec 32) : (ltFV (intFV (isI32 f) a.toNat) (intFV (isI32 f) b.toNat) ||
    eqFV (intFV (isI32 f) a.toNat) (intFV (isI32 f) b.toNat)) = if f.ty = 0 then a.sle b else a.ule b := by
  have hle : (decide (laneInt (isI32 f) a < laneInt (isI32 f) b) || decide (laneInt (isI32 f) a = laneInt (isI32 f) b)) =
      decide (laneInt (isI32 f) a ≤ laneInt (isI32 f) b) := by
    rw [Bool.eq_iff_iff, Bool.or_eq_true, decide_eq_true_eq, decide_eq_true_eq, decide_eq_true_eq]
    exact Int.le_iff_lt_or_eq.symm
  rw [ltFV_intFV, eqFV_intFV, hle, isI32_eq]
  by_cases h : f.ty = 0
  · simp only [h, laneInt, BitVec.sle, decide_true, if_true]
  · simp only [h, laneInt, BitVec.ule, decide_false, Bool.false_eq_true, if_false, Nat.cast_le]

theorem ltFV_of_nan {a b : FV} (h : a = .nan ∨ b = .nan) : ltFV a b = false := by
  rcases h with rfl | rfl
  · rfl
  · cases a <;> rfl

theorem eqFV_of_nan {a b : FV} (h : a = .nan ∨ b = .nan) : eqFV a b = false := by
  rcases h with rfl | rfl
  · rfl
  · cases a <;> rfl

/-- An operand of a compare. -/
def cmpArg (f : IFields) (x : Stream) (r : BitVec 5) (i : Nat) : FV := (readFV f.ty.toNat 0 (vLane x r i)).getD .nan

theorem cmpArg_int (h : f.ty.toNat ≤ 1) (x : Stream) (r : BitVec 5) (i : Nat) :
    cmpArg f x r i = intFV (isI32 f) (vWord x r i).toNat := by
  rw [toNat_vWord, cmpArg, readFV]
  by_cases hzero : f.ty.toNat = 0
  · have hty : f.ty = 0 := BitVec.eq_of_toNat_eq hzero
    rw [if_pos hzero, isI32_eq, decide_eq_true hty, Option.getD_some]
  · have hone : f.ty.toNat = 1 := by omega
    have hty : f.ty ≠ 0 := fun h => hzero (by rw [h]; rfl)
    rw [if_neg hzero, if_pos hone, isI32_eq, decide_eq_false hty, Option.getD_some]

theorem cmpArg_float {m : Fmt} (h : 2 ≤ f.ty.toNat) (hm : fmtOf f.ty.toNat 0 = some m) (x : Stream) (r : BitVec 5) (i : Nat) :
    cmpArg f x r i = decodeFV m (vLane x r i % 2 ^ m.bits) := by
  rw [cmpArg, readFV, if_neg (by omega), if_neg (by omega), hm]
  rfl

/-- A compare whose value on integers is `gi`, and `n` where an operand is NaN. -/
theorem cmpOp_compares (hready : ready s w = true) (hlegal : cmpLegal f = true) (hd : f.d.toNat < 8) {g : FV → FV → Bool}
    {gi : BitVec 32 → BitVec 32 → Bool} {n : Bool}
    (hint : ∀ a b : BitVec 32, g (intFV (isI32 f) a.toNat) (intFV (isI32 f) b.toNat) = gi a b)
    (hnan : ∀ a b : FV, a = .nan ∨ b = .nan → g a b = n) :
    (f.ty.toNat ≤ 1 → BitsWritten w f (fun i => gi (vWord (streamAt s w) f.a i.val) (vWord (streamAt s w) f.b i.val)) s (cmpOp w f g s)) ∧
    (2 ≤ f.ty.toNat → ∀ m : Fmt, fmtOf f.ty.toNat 0 = some m → BitsWritten w f (fun i =>
      let a := decodeFV m (vLane (streamAt s w) f.a i.val % 2 ^ m.bits)
      let b := decodeFV m (vLane (streamAt s w) f.b i.val % 2 ^ m.bits)
      if a = .nan ∨ b = .nan then n else g a b) s (cmpOp w f g s)) := by
  have hboth : (cmpLegal f && decide (f.d.toNat < 8)) = true := by simp [hlegal, hd]
  refine ⟨fun hty => issueRegs_bitsWritten hready hboth fun i => ?_, fun hty m hm => issueRegs_bitsWritten hready hboth fun i => ?_⟩
  · show g (cmpArg f _ f.a i) (cmpArg f _ f.b i) = _
    rw [cmpArg_int hty, cmpArg_int hty, hint]
  · show g (cmpArg f _ f.a i) (cmpArg f _ f.b i) = _
    rw [cmpArg_float hty hm, cmpArg_float hty hm]
    dsimp only
    split
    · next h => exact hnan _ _ h
    · rfl

theorem cmpLegal_iff (f : IFields) : cmpLegal f = true ↔ f.ty.toNat ≤ 6 ∧ f.imm.toNat < 8 := by
  simp [cmpLegal]

theorem cmpLegal_false {f : IFields} (h : f.ty = 7 ∨ 8 ≤ f.imm.toNat) : cmpLegal f = false := by
  rw [← Bool.not_eq_true, cmpLegal_iff]
  rintro ⟨hty, himm⟩
  rcases h with h | h
  · rw [h] at hty
    exact absurd hty (by decide)
  · omega

theorem cmpOp_issues {y : Instr} {g : FV → FV → Bool} (h : exec y s = .next (cmpOp w f g s)) :
    Issues w (cmpLegal f && decide (f.d.toNat < 8)) s y := issueRegs_issues h

/-- The instructions of class 1 without `cvt`, each issued where at least TYPE and IMM are legal. -/
theorem compare_issues (w : StreamId) (f : IFields) (s : State) :
    ∀ y ∈ ([.cmpEq w f, .cmpNe w f, .cmpLt w f, .cmpLe w f, .cmpSel w f] : List Instr), ∃ b : Bool, Issues w (cmpLegal f && b) s y := by
  simp only [List.forall_mem_cons]
  exact ⟨⟨_, cmpOp_issues rfl⟩, ⟨_, cmpOp_issues rfl⟩, ⟨_, cmpOp_issues rfl⟩, ⟨_, cmpOp_issues rfl⟩,
    ⟨decide (f.c.toNat < 8), issueRegs_issues rfl⟩, List.forall_mem_nil _⟩

/-! ### FMA (R284) and dot products (R286–R288) -/

theorem fmaFmt_eq {m : Fmt} (h : fmtOf f.ty.toNat 0 = some m) : fmaFmt f = m := by rw [fmaFmt, h]; rfl

theorem fmaArg_eq {m : Fmt} (h : fmtOf f.ty.toNat 0 = some m) (x : Stream) (r : BitVec 5) (i : Nat) :
    fmaArg f x r i = decodeFV m (vLane x r i % 2 ^ m.bits) := by rw [fmaArg, fmaFmt_eq h]

/-- The types that name a format begin at FP32. -/
theorem two_le_of_fmtOf {ty narrow : Nat} {m : Fmt} (h : fmtOf ty narrow = some m) : 2 ≤ ty := by
  by_contra hlt
  have hcases : ty = 0 ∨ ty = 1 := by omega
  rcases hcases with rfl | rfl <;> exact absurd h (by simp [fmtOf])

theorem modeOf_lt {n : Nat} {mode : Mode} (h : modeOf n = some mode) : n < 5 := by
  by_contra hge
  obtain ⟨m, rfl⟩ := Nat.exists_eq_add_of_le (Nat.le_of_not_lt hge)
  rw [Nat.add_comm] at h
  exact absurd h (by simp [modeOf])

theorem modeOf_eq_none {n : Nat} (h : 5 ≤ n) : modeOf n = none := by
  rw [Option.eq_none_iff_forall_ne_some]
  exact fun mode hmode => absurd (modeOf_lt hmode) (by omega)

theorem fmaLegal_iff (f : IFields) : fmaLegal f = true ↔ 2 ≤ f.ty.toNat ∧ f.ty.toNat ≤ 4 ∧ f.imm.toNat < 8 := by
  simp [fmaLegal, and_assoc]

theorem fmaLegal_false {f : IFields} (h : f.ty.toNat < 2 ∨ 4 < f.ty.toNat) : fmaLegal f = false := by
  rw [← Bool.not_eq_true, fmaLegal_iff]
  omega

/-- An operation on the operands as values of the format, rounded once. -/
theorem fmaOp_lanesWritten (hready : ready s w = true) {m : Fmt} (hm : fmtOf f.ty.toNat 0 = some m) (hty : f.ty.toNat ≤ 4) {mode : Mode}
    (hmode : modeOf f.imm.toNat = some mode) (g : Mode → FV → FV → FV → FV) :
    LanesWritten w f (fun i => BitVec.ofNat 32 (roundFV m mode false (g mode
      (decodeFV m (vLane (streamAt s w) f.a i.val % 2 ^ m.bits)) (decodeFV m (vLane (streamAt s w) f.b i.val % 2 ^ m.bits))
      (decodeFV m (vLane (streamAt s w) f.c i.val % 2 ^ m.bits))))) s (fmaOp w f g s) := by
  have himm := modeOf_lt hmode
  have hlegal : fmaLegal f = true := (fmaLegal_iff f).mpr ⟨two_le_of_fmtOf hm, hty, by omega⟩
  refine issueRegs_lanesWritten hready (by rw [hlegal, hmode]; rfl) fun i _ => ?_
  rw [fmaArg_eq hm, fmaArg_eq hm, fmaArg_eq hm, fmaFmt_eq hm, hmode, Option.getD_some]

theorem minmaxOp_lanesWritten (hready : ready s w = true) {m : Fmt} (hm : fmtOf f.ty.toNat 0 = some m) (hty : f.ty.toNat ≤ 4)
    (himm : f.imm.toNat < 8) (isMax : Bool) :
    LanesWritten w f (fun i => BitVec.ofNat 32 (roundFV m .rne false (minmaxFV isMax
      (decodeFV m (vLane (streamAt s w) f.a i.val % 2 ^ m.bits)) (decodeFV m (vLane (streamAt s w) f.b i.val % 2 ^ m.bits)))))
      s (minmaxOp w f isMax s) := by
  have hlegal : fmaLegal f = true := (fmaLegal_iff f).mpr ⟨two_le_of_fmtOf hm, hty, himm⟩
  refine issueRegs_lanesWritten hready hlegal fun i _ => ?_
  rw [fmaArg_eq hm, fmaArg_eq hm, fmaFmt_eq hm]

theorem fmaOp_issues {y : Instr} {g : Mode → FV → FV → FV → FV} (h : exec y s = .next (fmaOp w f g s)) :
    Issues w (fmaLegal f && (modeOf f.imm.toNat).isSome) s y := issueRegs_issues h

theorem fma_issues (w : StreamId) (f : IFields) (s : State) : ∀ y ∈ ([.fma w f, .fmul w f, .fadd w f] : List Instr),
    Issues w (fmaLegal f && (modeOf f.imm.toNat).isSome) s y := by
  simp only [List.forall_mem_cons]
  exact ⟨fmaOp_issues rfl, fmaOp_issues rfl, fmaOp_issues rfl, List.forall_mem_nil _⟩

theorem minmax_issues (w : StreamId) (f : IFields) (s : State) : ∀ y ∈ ([.fmin w f, .fmax w f] : List Instr),
    Issues w (fmaLegal f) s y := by
  simp only [List.forall_mem_cons]
  exact ⟨issueRegs_issues rfl, issueRegs_issues rfl, List.forall_mem_nil _⟩

/-- The instructions of class 2, each issued where at least TYPE and IMM are legal. -/
theorem class2_issues (w : StreamId) (f : IFields) (s : State) : ∀ y ∈ ([.fma w f, .fmul w f, .fadd w f, .fmin w f, .fmax w f] : List Instr),
    ∃ b : Bool, Issues w (fmaLegal f && b) s y := by
  intro y hy
  rcases List.mem_append.mp (show y ∈ [.fma w f, .fmul w f, .fadd w f] ++ [Instr.fmin w f, .fmax w f] from hy) with h | h
  · exact ⟨_, fma_issues w f s y h⟩
  · exact ⟨true, by rw [Bool.and_true]; exact minmax_issues w f s y h⟩

theorem dotOp_of_none {op : Nat} (h : dotKind op f = none) : dotOp w op f s = issue w false (fun _ _ _ u => u) s := by
  rw [dotOp, h]

theorem dotOp_of_some {op : Nat} {m : Fmt} {scaled : Bool} (h : dotKind op f = some (m, scaled)) : dotOp w op f s =
    issueRegs w true (fun x => setLanes f f.d (fun i => roundFV fp32 .rne false (dotSum m scaled f x i)) x) s := by
  rw [dotOp, h]

theorem dotOp_issues {y : Instr} {op : Nat} (h : exec y s = .next (dotOp w op f s)) : Issues w (dotKind op f).isSome s y := by
  rcases hkind : dotKind op f with _ | ⟨m, scaled⟩
  · exact ⟨_, by rw [h, dotOp_of_none hkind, Option.isSome_none]⟩
  · exact issueRegs_issues (by rw [h, dotOp_of_some hkind, Option.isSome_some])

/-- A dot product of a legal encoding, and one of another encoding. -/
theorem dotOp_spec (hready : ready s w = true) {y : Instr} {op : Nat} (h : exec y s = .next (dotOp w op f s)) :
    (∀ (m : Fmt) (scaled : Bool), dotKind op f = some (m, scaled) → ∃ t : State, exec y s = .next t ∧
      LanesWritten w f (fun i => BitVec.ofNat 32 (roundFV fp32 .rne false (dotSum m scaled f (streamAt s w) i.val))) s t) ∧
    (dotKind op f = none → ∃ t : State, exec y s = .next t ∧ FaultsWith w 1 s t) := by
  refine ⟨fun m scaled hkind => ⟨_, h, ?_⟩, fun hkind => (dotOp_issues h).faults hready (by rw [hkind]; rfl)⟩
  rw [dotOp_of_some hkind]
  exact issueRegs_lanesWritten hready rfl fun i _ => rfl

theorem cvt_issues (w : StreamId) (f : IFields) (s : State) : Issues w (cvtFields f 0 0).isSome s (.cvt w f) := issueRegs_issues rfl

end Sys2Proof.Machine
end

section

namespace Sys2Proof.Machine

open Sys2Proof

/-- Settles O36: a compare writes the active bits by its order of values, which on integers is that of the words; `sel` and `cvt`
write the active lanes. -/
theorem comparesSelectAndConversion : Obligations.ComparesSelectAndConversion := by
  unfold Obligations.ComparesSelectAndConversion
  intro w f s
  refine ⟨fun hready hty himm => ?_, fun hready => ⟨fun hlegal => ?_, fun hnone => ?_⟩, fun y hy hready => ?_, fun y hy hready hbad => ?_⟩
  · have hlegal : cmpLegal f = true := (cmpLegal_iff f).mpr ⟨hty, himm⟩
    refine ⟨fun hd => ?_, fun hc => ⟨_, rfl, issueRegs_lanesWritten hready (by simp [hlegal, hc]) fun i _ => rfl⟩⟩
    have heq := cmpOp_compares hready hlegal hd (eqFV_word (isI32 f)) (fun _ _ h => eqFV_of_nan h)
    have hne := cmpOp_compares hready hlegal hd (g := fun a b => !eqFV a b) (gi := fun a b => a != b) (n := true)
      (fun a b => by rw [eqFV_word, bne]) (fun _ _ h => by rw [eqFV_of_nan h, Bool.not_false])
    have hlt := cmpOp_compares hready hlegal hd (ltFV_word f) (fun _ _ h => ltFV_of_nan h)
    have hle := cmpOp_compares hready hlegal hd (g := fun a b => ltFV a b || eqFV a b) (n := false) (leFV_word f)
      (fun _ _ h => by rw [ltFV_of_nan h, eqFV_of_nan h, Bool.or_self])
    simp only [List.forall_mem_cons]
    exact ⟨⟨fun h => ⟨_, rfl, heq.1 h⟩, fun h m hm => ⟨_, rfl, heq.2 h m hm⟩⟩,
      ⟨fun h => ⟨_, rfl, hne.1 h⟩, fun h m hm => ⟨_, rfl, hne.2 h m hm⟩⟩,
      ⟨fun h => ⟨_, rfl, hlt.1 h⟩, fun h m hm => ⟨_, rfl, hlt.2 h m hm⟩⟩,
      ⟨fun h => ⟨_, rfl, hle.1 h⟩, fun h m hm => ⟨_, rfl, hle.2 h m hm⟩⟩,
      List.forall_mem_nil _⟩
  · exact ⟨_, rfl, issueRegs_lanesWritten hready hlegal fun i _ => rfl⟩
  · exact (cvt_issues w f s).faults hready (by rw [hnone]; rfl)
  · rcases List.mem_append.mp (show y ∈ [.cmpEq w f, .cmpNe w f, .cmpLt w f, .cmpLe w f, .cmpSel w f] ++ [Instr.cvt w f] from hy) with hmem | hmem
    · obtain ⟨b, hissues⟩ := compare_issues w f s y hmem
      exact hissues.idle hready
    · rw [List.mem_singleton.mp hmem]
      exact (cvt_issues w f s).idle hready
  · obtain ⟨b, hissues⟩ := compare_issues w f s y hy
    exact hissues.faults hready (by rw [cmpLegal_false hbad, Bool.false_and])

/-- Settles O37: each instruction is one write of the active lanes by its rounded value; class 3 is decided by `dotKind`. -/
theorem floatAndDotLanes : Obligations.FloatAndDotLanes := by
  unfold Obligations.FloatAndDotLanes
  intro w f s
  refine ⟨fun hready m hm hty => ⟨fun mode hmode => ?_, fun himm => ⟨?_, fun hcode y hy => ?_⟩⟩, fun hready hbad y hy => ?_,
    fun hready op => ?_, fun hready op y hy => ?_⟩
  · simp only [List.forall_mem_cons]
    exact ⟨⟨_, rfl, fmaOp_lanesWritten hready hm hty hmode fun mode a b c => sumFV mode [mulFV a b, c]⟩,
      ⟨_, rfl, fmaOp_lanesWritten hready hm hty hmode fun _ a b _ => mulFV a b⟩,
      ⟨_, rfl, fmaOp_lanesWritten hready hm hty hmode fun mode a b _ => sumFV mode [a, b]⟩, List.forall_mem_nil _⟩
  · simp only [List.forall_mem_cons]
    exact ⟨⟨_, rfl, minmaxOp_lanesWritten hready hm hty himm false⟩, ⟨_, rfl, minmaxOp_lanesWritten hready hm hty himm true⟩,
      List.forall_mem_nil _⟩
  · exact (fma_issues w f s y hy).faults hready (by rw [modeOf_eq_none hcode, Option.isSome_none, Bool.and_false])
  · obtain ⟨b, hissues⟩ := class2_issues w f s y hy
    exact hissues.faults hready (by rw [fmaLegal_false hbad, Bool.false_and])
  · simp only [List.forall_mem_cons]
    exact ⟨dotOp_spec hready rfl, dotOp_spec hready rfl, List.forall_mem_nil _⟩
  · rcases List.mem_append.mp (show y ∈ [.fma w f, .fmul w f, .fadd w f, .fmin w f, .fmax w f] ++ [Instr.dot8 w f, .dot8Mx w op f] from hy) with h | h
    · obtain ⟨b, hissues⟩ := class2_issues w f s y h
      exact hissues.idle hready
    · simp only [List.mem_cons, List.not_mem_nil, or_false] at h
      rcases h with rfl | rfl
      · exact (dotOp_issues rfl).idle hready
      · exact (dotOp_issues rfl).idle hready

end Sys2Proof.Machine
end

section
/-! SUPPORT. Class 4: the accumulators of a stream's lanes (R291–R296, R302). -/

namespace Sys2Proof.Machine

open Sys2Proof

variable {w : StreamId} {f : IFields} {s : State}

/-! ### The store of accumulators -/

theorem accAt_setAcc_same (j : Nat) (a : Acc) (s : State) : accAt (setAcc j a s) j = a := by
  unfold accAt setAcc
  by_cases h : a = {}
  · subst h
    simp [mapGetD]
  · simp only [if_neg h, mapGetD_mapSet_same]

theorem accAt_setAcc_ne {i j : Nat} (h : i ≠ j) (a : Acc) (s : State) : accAt (setAcc j a s) i = accAt s i := by
  unfold accAt setAcc
  by_cases ha : a = {}
  · simp only [if_pos ha, mapGetD, mapGet_mapErase_ne _ h]
  · simp only [if_neg ha, mapGetD_mapSet_ne _ _ _ _ _ h]

/-- Change the accumulators at `first + i` for the lanes `i` of a list. -/
def modAccs (first : Nat) (F : Nat → Acc → Acc) (l : List Nat) (s : State) : State :=
  l.foldl (fun u i => setAcc (first + i) (F i (accAt u (first + i))) u) s

theorem accAt_modAccs (first : Nat) (F : Nat → Acc → Acc) {l : List Nat} (hl : l.Nodup) (s : State) (j : Nat) :
    accAt (modAccs first F l s) j = if first ≤ j ∧ j - first ∈ l then F (j - first) (accAt s j) else accAt s j := by
  induction l generalizing s with
  | nil => simp [modAccs]
  | cons i r ih =>
    obtain ⟨hi, hr⟩ := List.nodup_cons.mp hl
    refine (ih hr _).trans ?_
    by_cases hj : j = first + i
    · subst hj
      have hsub : first + i - first = i := by omega
      simp only [hsub, hi, and_false, if_false, List.mem_cons_self, and_true, Nat.le_add_right, if_true, accAt_setAcc_same]
    · have hne : first ≤ j → j - first ≠ i := by omega
      have hiff : (first ≤ j ∧ j - first ∈ i :: r) ↔ (first ≤ j ∧ j - first ∈ r) := by
        simp only [List.mem_cons]
        exact ⟨fun h => ⟨h.1, h.2.resolve_left (hne h.1)⟩, fun h => ⟨h.1, .inr h.2⟩⟩
      simp only [accAt_setAcc_ne hj, hiff]

/-- Changes of accumulators leave slots and scratchpads. -/
theorem modAccs_cmp (first : Nat) (F : Nat → Acc → Acc) (l : List Nat) (s : State) :
    (modAccs first F l s).cmp = { s.cmp with accs := (modAccs first F l s).cmp.accs } := by
  induction l generalizing s with
  | nil => rfl
  | cons i r ih => exact ih (setAcc (first + i) (F i (accAt s (first + i))) s)

theorem modAccs_only (first : Nat) (F : Nat → Acc → Acc) (l : List Nat) (s : State) : Only [.cmp] s (modAccs first F l s) :=
  Only.foldl l (fun _ _ hu => setAcc_parts _ _ (List.Subset.refl _) hu) (.refl _ s)

theorem ctxAt_modAccs (first : Nat) (F : Nat → Acc → Acc) (l : List Nat) (s : State) (k : Nat) :
    ctxAt (modAccs first F l s) k = ctxAt s k := by
  rw [ctxAt, modAccs_cmp, ctxAt]

/-! ### Lanes and their accumulators -/

theorem mem_lanesOn {x : Stream} {i : Nat} : i ∈ lanesOn x f ↔ i < 16 ∧ laneOn x f i = true := by
  simp [lanesOn, indices]

theorem lanesOn_nodup (x : Stream) (f : IFields) : (lanesOn x f).Nodup := List.nodup_range.filter _

/-- The accumulator of lane 0. -/
def firstAcc (w : StreamId) (f : IFields) (x : Stream) : Nat := ctxAccs (slotKey w) + (sReg x f.b).toNat + f.imm.toNat % 2 ^ 20

theorem accIndex_eq (w : StreamId) (f : IFields) (x : Stream) (i : Nat) : ctxAccs (slotKey w) + accIndex f x i = firstAcc w f x + i := by
  simp only [accIndex, firstAcc, Nat.add_assoc]

/-- The active lanes' accumulators are inside the allocation. -/
def AccsInside (w : StreamId) (f : IFields) (s : State) : Prop :=
  ∀ i : Fin 16, laneOn (streamAt s w) f i.val = true → accIndex f (streamAt s w) i.val < (ctxAt s (slotKey w)).accCount

theorem accOp_of_inside (hready : ready s w = true) {legal : Bool} (hlegal : legal = true) (hinside : AccsInside w f s)
    (g : Nat → Stream → State → State) :
    accOp w f legal g s = modStream (slotKey w) w.eng.val nextPc (g (slotKey w) (streamAt s w) (countStep w s)) := by
  have hnone : (lanesOn (streamAt s w) f).find? (fun i => decide ((ctxAt s (slotKey w)).accCount ≤ accIndex f (streamAt s w) i)) = none := by
    rw [List.find?_eq_none]
    intro i hi
    obtain ⟨hlt, hon⟩ := mem_lanesOn.mp hi
    rw [decide_eq_true_eq, Nat.not_le]
    exact hinside ⟨i, hlt⟩ hon
  rw [accOp, issue_of_ready hready hlegal, hnone]

theorem accOp_of_beyond (hready : ready s w = true) {legal : Bool} (hlegal : legal = true) {i : Fin 16}
    (hon : laneOn (streamAt s w) f i.val = true) (hbeyond : (ctxAt s (slotKey w)).accCount ≤ accIndex f (streamAt s w) i.val)
    (g : Nat → Stream → State → State) : accOp w f legal g s = ctxFault (slotKey w) fAccRange 0 (countStep w s) := by
  have hsome : ((lanesOn (streamAt s w) f).find?
      (fun i => decide ((ctxAt s (slotKey w)).accCount ≤ accIndex f (streamAt s w) i))).isSome = true := by
    rw [List.find?_isSome]
    exact ⟨i.val, mem_lanesOn.mpr ⟨i.isLt, hon⟩, decide_eq_true hbeyond⟩
  obtain ⟨j, hj⟩ := Option.isSome_iff_exists.mp hsome
  rw [accOp, issue_of_ready hready hlegal, hj]

theorem accOp_issues {y : Instr} {legal : Bool} {g : Nat → Stream → State → State} (h : exec y s = .next (accOp w f legal g s)) :
    Issues w legal s y := ⟨_, h⟩

/-- An instruction of class 4 whose change of the accumulators is `g`. -/
def AccInstr (w : StreamId) (f : IFields) (s : State) (y : Instr) (legal : Bool) : Prop :=
  ∃ g : Nat → Stream → State → State, exec y s = .next (accOp w f legal g s)

theorem AccInstr.range {y : Instr} {legal : Bool} (h : AccInstr w f s y legal) (hready : ready s w = true) (hlegal : legal = true)
    {i : Fin 16} (hon : laneOn (streamAt s w) f i.val = true)
    (hbeyond : (ctxAt s (slotKey w)).accCount ≤ accIndex f (streamAt s w) i.val) :
    ∃ t : State, exec y s = .next t ∧ FaultsWith w 7 s t := by
  obtain ⟨g, hexec⟩ := h
  rw [hexec, accOp_of_beyond hready hlegal hon hbeyond]
  exact ⟨_, rfl, ctxFault_faultsWith (running_of_ready hready) (countStep_cmp w s) (countStep_mem w s) _ _⟩

theorem AccInstr.issues {y : Instr} {legal : Bool} (h : AccInstr w f s y legal) : Issues w legal s y := by
  obtain ⟨g, hexec⟩ := h
  exact accOp_issues hexec

/-- An instruction that changes the accumulator of each active lane by `F`. -/
theorem accOp_spec (hready : ready s w = true) {legal : Bool} (hlegal : legal = true) (hinside : AccsInside w f s)
    (F : Nat → Acc → Acc) {g : Nat → Stream → State → State}
    (hg : ∀ u, g (slotKey w) (streamAt s w) u = modAccs (firstAcc w f (streamAt s w)) F (lanesOn (streamAt s w) f) u) {t : State}
    (ht : t = accOp w f legal g s) : Only [.cmp, .lantern] s t ∧ Passed w s t ∧ t.cmp.sp = s.cmp.sp ∧
      ∀ j : Nat, accAt t j = if firstAcc w f (streamAt s w) ≤ j ∧ j < firstAcc w f (streamAt s w) + 16 ∧
        laneOn (streamAt s w) f (j - firstAcc w f (streamAt s w)) = true
        then F (j - firstAcc w f (streamAt s w)) (accAt s j) else accAt s j := by
  rw [accOp_of_inside hready hlegal hinside, hg] at ht
  have honly := modAccs_only (firstAcc w f (streamAt s w)) F (lanesOn (streamAt s w) f) (countStep w s)
  refine ⟨?_, ?_, ?_, fun j => ?_⟩ <;> rw [ht]
  · exact ((countStep_only w s).mono (by simp)).trans ((honly.trans (modStream_only _ _ _ _)).mono (by simp))
  · rw [Passed, streamAt_modStream, streamAt, ctxAt_modAccs]
    rfl
  · show (modAccs (firstAcc w f (streamAt s w)) F (lanesOn (streamAt s w) f) (countStep w s)).cmp.sp = s.cmp.sp
    rw [modAccs_cmp]
    rfl
  · refine (accAt_modAccs _ F (lanesOn_nodup _ _) (countStep w s) j).trans (if_congr ?_ rfl rfl)
    rw [mem_lanesOn]
    exact ⟨fun ⟨hlo, hhi, hon⟩ => ⟨hlo, by omega, hon⟩, fun ⟨hlo, hhi, hon⟩ => ⟨hlo, by omega, hon⟩⟩

/-! ### Rounding (R296, R302) -/

theorem countRounding_only (m : Fmt) (mode : Mode) (a : Acc) (s : State) : Only [.dict] s (countRounding m mode a s) :=
  countRounding_parts _ _ _ (List.Subset.refl _) (.refl _ s)

/-- The counts of the roundings of a list of lanes. -/
def countRoundings (m : Fmt) (mode : Mode) (a : Nat → Acc) (l : List Nat) (s : State) : State :=
  l.foldl (fun u i => countRounding m mode (a i) u) s

theorem countRoundings_only (m : Fmt) (mode : Mode) (a : Nat → Acc) (l : List Nat) (s : State) :
    Only [.dict] s (countRoundings m mode a l s) :=
  Only.foldl l (fun _ _ hu => countRounding_parts _ _ _ (List.Subset.refl _) hu) (.refl _ s)

theorem odGet_countRounding (m : Fmt) (mode : Mode) (a : Acc) (s : State) : odGet (countRounding m mode a s) 0x5005 0x13 =
    if accOvfCase a = true then min (2 ^ 64 - 1) (odGet s 0x5005 0x13 + 1) else odGet s 0x5005 0x13 := by
  have hinf (u : State) : odGet (if accInfCase m mode a = true then bump 0x5005 0x14 u else u) 0x5005 0x13 = odGet u 0x5005 0x13 := by
    split
    · exact odGet_bump_ne _ _ _ _ _ (by decide)
    · rfl
  rw [countRounding, hinf]
  split
  · exact odGet_bump_same ..
  · rfl

/-- Each FINITE accumulator with OVF set is counted, short of the counter's end. -/
theorem odGet_countRoundings (m : Fmt) (mode : Mode) (a : Nat → Acc) (l : List Nat) {s : State}
    (h : odGet s 0x5005 0x13 + l.length < 2 ^ 64) :
    odGet (countRoundings m mode a l s) 0x5005 0x13 = odGet s 0x5005 0x13 + (l.filter (fun i => accOvfCase (a i))).length := by
  induction l generalizing s with
  | nil => rfl
  | cons i r ih =>
    rw [List.length_cons] at h
    have hhead := odGet_countRounding m mode (a i) s
    cases hcase : accOvfCase (a i) with
    | false =>
      rw [hcase, if_neg (by simp)] at hhead
      rw [List.filter_cons_of_neg (by simp [hcase]), ← hhead]
      exact ih (s := countRounding m mode (a i) s) (by omega)
    | true =>
      rw [hcase, if_pos rfl, Nat.min_eq_right (by omega)] at hhead
      rw [List.filter_cons_of_pos (by simp [hcase]), List.length_cons]
      refine (ih (s := countRounding m mode (a i) s) (by omega)).trans ?_
      omega

/-- A change of a stream reads and writes the compute array alone. -/
theorem modStream_cmp_congr {s t : State} (h : t.cmp = s.cmp) (k e : Nat) (g : Stream → Stream) :
    (modStream k e g t).cmp = (modStream k e g s).cmp := by
  simp only [modStream, modCtx, setCtx, ctxAt, h]

/-- `round` of a legal encoding with the active lanes' accumulators inside the allocation. -/
def roundedState (w : StreamId) (f : IFields) (m : Fmt) (mode : Mode) (s : State) : State :=
  modStream (slotKey w) w.eng.val nextPc (countRoundings m mode (fun i => accAt s (firstAcc w f (streamAt s w) + i))
    (lanesOn (streamAt s w) f) (modStream (slotKey w) w.eng.val
      (setLanes f f.d (fun i => accRound m mode (accAt s (firstAcc w f (streamAt s w) + i)))) (countStep w s)))

theorem roundedState_cmp (w : StreamId) (f : IFields) (m : Fmt) (mode : Mode) (s : State) : (roundedState w f m mode s).cmp =
    (modStream (slotKey w) w.eng.val (fun x => nextPc (setLanes f f.d
      (fun i => accRound m mode (accAt s (firstAcc w f (streamAt s w) + i))) x)) (countStep w s)).cmp := by
  rw [← modStream_modStream (slotKey w) w.eng.isLt]
  exact modStream_cmp_congr (countRoundings_only _ _ _ _ _ .cmp (by decide)) ..

theorem roundedState_only (w : StreamId) (f : IFields) (m : Fmt) (mode : Mode) (s : State) :
    Only [.cmp, .lantern, .dict] s (roundedState w f m mode s) :=
  ((modStream_progress_only _ _ _ _ s).mono (by simp)).trans
    (((countRoundings_only _ _ _ _ _).mono (by simp)).trans ((modStream_only _ _ _ _).mono (by simp)))

theorem StreamOnly.of_cmp {t u : State} (h : StreamOnly w s u) (hcmp : t.cmp = u.cmp) : StreamOnly w s t := by
  rw [StreamOnly, hcmp, streamAt_of_cmp hcmp]
  exact h

/-! ### Encodings -/

theorem isSome_modeOf (n : Nat) : (modeOf n).isSome = decide (n ≤ 4) := by
  by_cases h : 5 ≤ n
  · rw [modeOf_eq_none h, Option.isSome_none, decide_eq_false (by omega)]
  · have hcases : n = 0 ∨ n = 1 ∨ n = 2 ∨ n = 3 ∨ n = 4 := by omega
    rcases hcases with rfl | rfl | rfl | rfl | rfl <;> rfl

theorem ty_eq_iff (f : IFields) {n : Nat} (hn : n < 8) : f.ty = BitVec.ofNat 3 n ↔ f.ty.toNat = n := by
  rw [← BitVec.toNat_inj, BitVec.toNat_ofNat, Nat.mod_eq_of_lt (show n < 2 ^ 3 from hn)]

theorem ty_bne_one (f : IFields) : (f.ty != 1) = (f.ty.toNat != 1) := by
  have h := ty_eq_iff f (n := 1) (by decide)
  rw [Bool.eq_iff_iff, bne_iff_ne, bne_iff_ne]
  exact not_congr h

/-- The encodings that `add`, `load` and `round` allow. -/
def addLegal (f : IFields) : Bool :=
  f.ty != 1 && bits f.imm.toNat 20 3 == 0 && (if f.ty = 7 then bits f.imm.toNat 24 2 != 3 else bits f.imm.toNat 24 2 == 0)
    && (!bit f.imm.toNat 23 || decide (5 ≤ f.ty.toNat))
def loadLegal (f : IFields) : Bool := f.ty != 1 && decide (f.ty.toNat ≤ 4) && decide (f.imm.toNat < 2 ^ 20)
def roundLegal (f : IFields) : Bool :=
  decide (2 ≤ f.ty.toNat) && decide (f.ty.toNat ≤ 4) && decide (bits f.imm.toNat 20 3 ≤ 4) && decide (f.imm.toNat < 2 ^ 23)

/-- The places that class 4 names for an active lane, as a change of accumulators. -/
theorem foldl_setAcc_eq (w : StreamId) (f : IFields) (x : Stream) (F : Nat → Acc → Acc) (l : List Nat) (u : State) :
    l.foldl (fun u i => setAcc (ctxAccs (slotKey w) + accIndex f x i) (F i (accAt u (ctxAccs (slotKey w) + accIndex f x i))) u) u =
      modAccs (firstAcc w f x) F l u := by
  simp only [accIndex_eq, modAccs]

theorem exec_accAdd (w : StreamId) (f : IFields) (s : State) : exec (.accAdd w f) s = .next (accOp w f (addLegal f)
    (fun k x u => (lanesOn x f).foldl (fun u i => setAcc (ctxAccs k + accIndex f x i)
      (accAdd (accAt u (ctxAccs k + accIndex f x i)) (accTerm f x i)) u) u) s) := by
  have hseven : (f.ty = 7) = (f.ty.toNat = 7) := propext (ty_eq_iff f (by decide))
  simp only [addLegal, ty_bne_one, hseven]
  rfl

theorem exec_accZero (w : StreamId) (f : IFields) (s : State) : exec (.accZero w f) s = .next (accOp w f (decide (f.imm.toNat < 2 ^ 20))
    (fun k x u => (lanesOn x f).foldl (fun u i => setAcc (ctxAccs k + accIndex f x i) {} u) u) s) := rfl

theorem exec_accLoad (w : StreamId) (f : IFields) (s : State) : exec (.accLoad w f) s = .next (accOp w f (loadLegal f)
    (fun k x u => (lanesOn x f).foldl (fun u i => setAcc (ctxAccs k + accIndex f x i)
      (accLoad ((readFV f.ty.toNat 0 (vLane x f.a i)).getD .nan)) u) u) s) := by
  rw [loadLegal, ty_bne_one]
  rfl

theorem accRound_instr (w : StreamId) (f : IFields) (s : State) : AccInstr w f s (.accRound w f) (roundLegal f) := by
  rw [roundLegal, ← isSome_modeOf (bits f.imm.toNat 20 3)]
  exact ⟨_, rfl⟩

/-- `round` writes the lanes and then counts. -/
theorem exec_accRound (hready : ready s w = true) (hlegal : roundLegal f = true) (hinside : AccsInside w f s) {m : Fmt} {mode : Mode}
    (hm : fmtOf f.ty.toNat 0 = some m) (hmode : modeOf (bits f.imm.toNat 20 3) = some mode) :
    exec (.accRound w f) s = .next (roundedState w f m mode s) := by
  rw [roundLegal, ← isSome_modeOf (bits f.imm.toNat 20 3)] at hlegal
  refine congrArg Host.Outcome.next ((accOp_of_inside hready hlegal hinside _).trans ?_)
  simp only [hmode, Option.getD_some, fmaFmt_eq hm, accIndex_eq]
  rfl

end Sys2Proof.Machine
end

section

namespace Sys2Proof.Machine

open Sys2Proof

/-- Settles O38: `add`, `zero` and `load` are one change of the active lanes' accumulators; `round` is a write of the active lanes
and a count of those with OVF set. -/
theorem accumulatorsAddExactly : Obligations.AccumulatorsAddExactly := by
  unfold Obligations.AccumulatorsAddExactly
  rintro w f s _ rfl _ rfl _ _ _ _ rfl rfl rfl rfl
  have hadd : AccInstr w f s (.accAdd w f) (addLegal f) := ⟨_, exec_accAdd w f s⟩
  have hzero : AccInstr w f s (.accZero w f) (decide (f.imm.toNat < 2 ^ 20)) := ⟨_, exec_accZero w f s⟩
  have hload : AccInstr w f s (.accLoad w f) (loadLegal f) := ⟨_, exec_accLoad w f s⟩
  have hround := accRound_instr w f s
  refine ⟨fun hready => ⟨fun hinside => ⟨?_, fun hlegal m mode hm hmode => ?_⟩, ?_⟩, fun hready => ?_⟩
  · simp only [List.forall_mem_cons]
    exact ⟨fun hlegal => ⟨_, exec_accAdd w f s, accOp_spec hready hlegal hinside (fun i a => accAdd a (accTerm f (streamAt s w) i))
        (fun u => foldl_setAcc_eq w f (streamAt s w) (fun i a => accAdd a (accTerm f (streamAt s w) i)) _ u) rfl⟩,
      fun hlegal => ⟨_, exec_accZero w f s, accOp_spec hready hlegal hinside (fun _ _ => {})
        (fun u => foldl_setAcc_eq w f (streamAt s w) (fun _ _ => {}) _ u) rfl⟩,
      fun hlegal => ⟨_, exec_accLoad w f s, accOp_spec hready hlegal hinside
        (fun i _ => accLoad ((readFV f.ty.toNat 0 (vLane (streamAt s w) f.a i)).getD .nan))
        (fun u => foldl_setAcc_eq w f (streamAt s w) (fun i _ => accLoad ((readFV f.ty.toNat 0 (vLane (streamAt s w) f.a i)).getD .nan)) _ u) rfl⟩,
      List.forall_mem_nil _⟩
  · have hcmp := roundedState_cmp w f m mode s
    have hwritten := modStream_lanesWritten (w := w) (f := f) (s := s) (g0 := fun i => accRound m mode (accAt s (firstAcc w f (streamAt s w) + i)))
      (h := fun x => nextPc (setLanes f f.d (fun i => accRound m mode (accAt s (firstAcc w f (streamAt s w) + i))) x)) rfl (fun _ _ => rfl)
    obtain ⟨hstream, -, hgone, -, -, hlanes⟩ := hwritten
    have hat := streamAt_of_cmp hcmp w
    refine ⟨_, exec_accRound hready hlegal hinside hm hmode, roundedState_only w f m mode s, hstream.of_cmp hcmp, ?_, ?_, fun hroom => ?_⟩
    · rw [GoneOn, hat]
      exact hgone
    · intro r i
      rw [hat]
      exact hlanes r i
    · have hlen : (lanesOn (streamAt s w) f).length ≤ 16 := (List.length_filter_le _ _).trans (by simp)
      refine (odGet_countRoundings m mode _ (lanesOn (streamAt s w) f) (s := modStream _ _ _ (countStep w s)) ?_).trans ?_
      · have : odGet s 0x5005 0x13 + (lanesOn (streamAt s w) f).length < 2 ^ 64 := by omega
        exact this
      · refine congrArg (odGet s 0x5005 0x13 + List.length ·) ?_
        simp only [lanesOn, indices, List.filter_filter, accOvfCase]
        refine List.filter_congr fun i _ => ?_
        rw [Bool.and_comm, Bool.and_assoc]
        rfl
  · simp only [List.forall_mem_cons]
    exact ⟨⟨fun hlegal i hon hbeyond => hadd.range hready hlegal hon hbeyond, fun h => hadd.issues.faults hready h⟩,
      ⟨fun hlegal i hon hbeyond => hzero.range hready hlegal hon hbeyond, fun h => hzero.issues.faults hready h⟩,
      ⟨fun hlegal i hon hbeyond => hload.range hready hlegal hon hbeyond, fun h => hload.issues.faults hready h⟩,
      ⟨fun hlegal i hon hbeyond => hround.range hready hlegal hon hbeyond, fun h => hround.issues.faults hready h⟩, List.forall_mem_nil _⟩
  · simp only [List.forall_mem_cons]
    exact ⟨hadd.issues.idle hready, hzero.issues.idle hready, hload.issues.idle hready, hround.issues.idle hready, List.forall_mem_nil _⟩

end Sys2Proof.Machine
end

section
/-! SUPPORT. Class 5: scratchpad bytes after a write, the addresses of the active lanes, and their checks (R248, R252, R274). -/

namespace Sys2Proof.Machine

open Sys2Proof

variable {w : StreamId} {f : IFields} {s : State}

/-! ### Bytes -/

/-- Bytes listed from `a` on; a byte 0 is not listed. -/
def putBytes (a : Nat) (l : List (Byte × Nat)) (m : NMap Byte) : NMap Byte :=
  l.foldl (fun m e => if e.1 = 0 then mapErase m (a + e.2) else mapSet m (a + e.2) e.1) m

theorem mapGetD_putByte (m : NMap Byte) (k : Nat) (b : Byte) (j : Nat) :
    mapGetD (if b = 0 then mapErase m k else mapSet m k b) j 0 = if j = k then b else mapGetD m j 0 := by
  by_cases hj : j = k
  · subst hj
    rw [if_pos rfl]
    split
    next hb => rw [hb, mapGetD, mapGet_mapErase_same, Option.getD_none]
    next => exact mapGetD_mapSet_same _ _ _ _
  · rw [if_neg hj]
    split
    next => rw [mapGetD, mapGet_mapErase_ne _ hj, mapGetD]
    next => exact mapGetD_mapSet_ne _ _ _ _ _ hj

theorem mapGetD_putBytes (a : Nat) (b : Bytes) (n : Nat) (m : NMap Byte) (j : Nat) : mapGetD (putBytes a (b.zipIdx n) m) j 0 =
    if a + n ≤ j ∧ j < a + n + b.length then b.getD (j - (a + n)) 0 else mapGetD m j 0 := by
  induction b generalizing n m with
  | nil =>
    have hnot : ¬(a + n ≤ j ∧ j < a + n + 0) := by omega
    exact (if_neg hnot).symm
  | cons x r ih =>
    refine (ih (n + 1) _).trans ?_
    rw [mapGetD_putByte, List.length_cons]
    by_cases hj : j = a + n
    · subst hj
      have hnot : ¬(a + (n + 1) ≤ a + n ∧ a + n < a + (n + 1) + r.length) := by omega
      rw [if_neg hnot, if_pos rfl, if_pos (by omega), Nat.sub_self, List.getD_cons_zero]
    · by_cases hin : a + (n + 1) ≤ j ∧ j < a + (n + 1) + r.length
      · have hsub : j - (a + n) = j - (a + (n + 1)) + 1 := by omega
        rw [if_pos hin, if_pos (by omega), hsub, List.getD_cons_succ]
      · rw [if_neg hin, if_neg hj, if_neg (by omega)]

theorem sp_spPut (a : Nat) (b : Bytes) (s : State) (j : Nat) : mapGetD (spPut a b s).cmp.sp j 0 =
    if a ≤ j ∧ j < a + b.length then b.getD (j - a) 0 else mapGetD s.cmp.sp j 0 := mapGetD_putBytes a b 0 s.cmp.sp j

theorem spPut_only (a : Nat) (b : Bytes) (s : State) : Only [.cmp] s (spPut a b s) := Only.cmp_upd (by decide) (.refl _ s)

/-- A write of scratchpad bytes leaves the rest of the compute array. -/
theorem spStore_cmp (r : BitVec 5) (l : List (Nat × Nat)) (x : Stream) (s : State) :
    (spStore r l x s).cmp = { s.cmp with sp := (spStore r l x s).cmp.sp } := by
  induction l generalizing s with
  | nil => rfl
  | cons q t ih => exact ih (spPut q.2 (natLe 4 (vLane x r q.1)) s)

theorem spStore_only (r : BitVec 5) (l : List (Nat × Nat)) (x : Stream) (s : State) : Only [.cmp] s (spStore r l x s) :=
  Only.foldl l (fun u _ hu => hu.trans (spPut_only _ _ u)) (.refl _ s)

/-- A byte lies in a stored element. -/
def inElement (a : Nat) (q : Nat × Nat) : Bool := decide (q.2 ≤ a) && decide (a < q.2 + 4)

/-- After a store of elements a byte is that of the last element that holds it. -/
theorem sp_spStore (r : BitVec 5) (l : List (Nat × Nat)) (x : Stream) (s : State) (a : Nat) :
    mapGetD (spStore r l x s).cmp.sp a 0 = match l.reverse.find? (inElement a) with
      | some q => (natLe 4 (vLane x r q.1)).getD (a - q.2) 0
      | none => mapGetD s.cmp.sp a 0 := by
  induction l using List.reverseRecOn with
  | nil => rfl
  | append_singleton t q ih =>
    have hlast : spStore r (t ++ [q]) x s = spPut q.2 (natLe 4 (vLane x r q.1)) (spStore r t x s) := by
      rw [spStore, List.foldl_append]
      rfl
    rw [hlast, sp_spPut, natLe_length, List.reverse_append, List.reverse_singleton, List.singleton_append, List.find?_cons]
    cases hin : inElement a q with
    | true =>
      simp only [inElement, Bool.and_eq_true, decide_eq_true_eq] at hin
      rw [if_pos hin]
    | false =>
      rw [← Bool.not_eq_true] at hin
      simp only [inElement, Bool.and_eq_true, decide_eq_true_eq] at hin
      rw [if_neg hin, ih]

/-! ### Addresses of the active lanes -/

/-- The active lanes with their addresses. -/
def laneAddrs (x : Stream) (f : IFields) (A : Nat → Nat) : List (Nat × Nat) := (lanesOn x f).map (fun i => (i, A i))

theorem find_laneAddrs {x : Stream} {A : Nat → Nat} {i : Nat} (h : i ∈ lanesOn x f) :
    (laneAddrs x f A).find? (fun q => q.1 == i) = some (i, A i) := by
  have hhead : (lanesOn x f).find? (fun j => j == i) = some i := by
    rw [List.find?_eq_some_iff_append]
    obtain ⟨l, r, hl⟩ := List.append_of_mem h
    refine ⟨beq_self_eq_true i, l, r, hl, fun j hj => ?_⟩
    have hnodup := lanesOn_nodup x f
    rw [hl, List.nodup_append] at hnodup
    simp only [Bool.not_eq_true', beq_eq_false_iff_ne]
    exact hnodup.2.2 j hj i List.mem_cons_self
  rw [laneAddrs, List.find?_map]
  exact congrArg (Option.map fun i => (i, A i)) hhead

/-- The checks of an access find nothing where no active lane fails them, and else a lane that does. -/
theorem find_laneAddrs_none {x : Stream} {A : Nat → Nat} {p : Nat → Bool} (h : ∀ i : Fin 16, laneOn x f i.val = true → p (A i.val) = false) :
    (laneAddrs x f A).find? (fun q => p q.2) = none := by
  rw [laneAddrs, List.find?_map, Option.map_eq_none_iff, List.find?_eq_none]
  intro i hi
  obtain ⟨hlt, hon⟩ := mem_lanesOn.mp hi
  exact Bool.eq_false_iff.mp (h ⟨i, hlt⟩ hon)

theorem find_laneAddrs_some {x : Stream} {A : Nat → Nat} {p : Nat → Bool} {i : Fin 16} (hon : laneOn x f i.val = true)
    (hp : p (A i.val) = true) : ∃ q, (laneAddrs x f A).find? (fun q => p q.2) = some q := by
  refine Option.isSome_iff_exists.mp (List.find?_isSome.mpr ⟨(i.val, A i.val), ?_, hp⟩)
  exact List.mem_map.mpr ⟨i.val, mem_lanesOn.mpr ⟨i.isLt, hon⟩, rfl⟩

theorem misaligned_none {x : Stream} {A : Nat → Nat} (h : ∀ i : Fin 16, laneOn x f i.val = true → A i.val % 4 = 0) :
    misaligned (laneAddrs x f A) = none := by
  rw [misaligned, find_laneAddrs_none (p := fun a => decide (a % 4 ≠ 0)) fun i hon => by simp [h i hon]]
  rfl

theorem misaligned_some {x : Stream} {A : Nat → Nat} {i : Fin 16} (hon : laneOn x f i.val = true) (h : A i.val % 4 ≠ 0) :
    ∃ a, misaligned (laneAddrs x f A) = some a := by
  obtain ⟨q, hq⟩ := find_laneAddrs_some (A := A) (p := fun a => decide (a % 4 ≠ 0)) hon (by simp [h])
  exact ⟨q.2, by rw [misaligned, hq]; rfl⟩

/-- An address s[A] + IMM + 4·i, with IMM below 2^n. -/
def vecAddr (x : Stream) (f : IFields) (i : Nat) : Nat := ((sReg x f.a).toNat + f.imm.toNat + 4 * i) % 2 ^ 64

/-- An address s[A] + v[B]. -/
def gatherAddr (x : Stream) (f : IFields) (i : Nat) : Nat := ((sReg x f.a).toNat + vLane x f.b i) % 2 ^ 64

theorem vectorAddrs_eq (x : Stream) (h : f.imm.toNat < 2 ^ 20) : vectorAddrs x f 20 = laneAddrs x f (vecAddr x f) := by
  simp only [vectorAddrs, laneAddrs, baseAddr, vecAddr, Nat.mod_eq_of_lt h, Nat.mod_add_mod]

theorem gatherAddrs_eq (x : Stream) (f : IFields) : gatherAddrs x f = laneAddrs x f (gatherAddr x f) := rfl

theorem castAddrs_eq (x : Stream) (h : f.imm.toNat < 2 ^ 20) : (lanesOn x f).map (fun i => (i, baseAddr x f 20)) =
    laneAddrs x f (fun _ => ((sReg x f.a).toNat + f.imm.toNat) % 2 ^ 64) := by
  simp only [laneAddrs, baseAddr, Nat.mod_eq_of_lt h]

/-! ### Accesses -/

/-- Every active lane's word is aligned and inside the partition. -/
def SpInside (w : StreamId) (f : IFields) (s : State) (A : Nat → Nat) : Prop :=
  ∀ i : Fin 16, laneOn (streamAt s w) f i.val = true → A i.val % 4 = 0 ∧ A i.val + 4 ≤ spSize (ctxAt s (slotKey w))

/-- An instruction of class 5 whose active lanes have the addresses `A`. -/
def SpInstr (w : StreamId) (f : IFields) (s : State) (y : Instr) (A : Nat → Nat) : Prop :=
  ∃ (addrs : Stream → List (Nat × Nat)) (g : Nat → List (Nat × Nat) → Stream → State → State),
    exec y s = .next (spAccess w f addrs g s) ∧ (f.imm.toNat < 2 ^ 20 → addrs (streamAt s w) = laneAddrs (streamAt s w) f A)

theorem SpInstr.issues {y : Instr} {A : Nat → Nat} (h : SpInstr w f s y A) : Issues w (decide (f.imm.toNat < 2 ^ 20)) s y := by
  obtain ⟨addrs, g, hexec, -⟩ := h
  exact ⟨_, hexec⟩

theorem SpInstr.align {y : Instr} {A : Nat → Nat} (h : SpInstr w f s y A) (hready : ready s w = true) (himm : f.imm.toNat < 2 ^ 20)
    {i : Fin 16} (hon : laneOn (streamAt s w) f i.val = true) (hmis : A i.val % 4 ≠ 0) :
    ∃ t : State, exec y s = .next t ∧ FaultsWith w 3 s t := by
  obtain ⟨addrs, g, hexec, haddrs⟩ := h
  obtain ⟨a, ha⟩ := misaligned_some hon hmis
  refine ⟨ctxFault (slotKey w) fAlign a (countStep w s), ?_,
    ctxFault_faultsWith (running_of_ready hready) (countStep_cmp w s) (countStep_mem w s) _ _⟩
  rw [hexec, spAccess, issue_of_ready hready (decide_eq_true himm)]
  simp only [haddrs himm, ha]

theorem SpInstr.range {y : Instr} {A : Nat → Nat} (h : SpInstr w f s y A) (hready : ready s w = true) (himm : f.imm.toNat < 2 ^ 20)
    (haligned : ∀ i : Fin 16, laneOn (streamAt s w) f i.val = true → A i.val % 4 = 0) {i : Fin 16}
    (hon : laneOn (streamAt s w) f i.val = true) (hbeyond : spSize (ctxAt s (slotKey w)) < A i.val + 4) :
    ∃ t : State, exec y s = .next t ∧ FaultsWith w 2 s t := by
  obtain ⟨addrs, g, hexec, haddrs⟩ := h
  obtain ⟨q, hq⟩ := find_laneAddrs_some (A := A) (p := fun a => decide (spSize (ctxAt s (slotKey w)) < a + 4)) hon (decide_eq_true hbeyond)
  refine ⟨ctxFault (slotKey w) fSpRange q.2 (countStep w s), ?_,
    ctxFault_faultsWith (running_of_ready hready) (countStep_cmp w s) (countStep_mem w s) _ _⟩
  rw [hexec, spAccess, issue_of_ready hready (decide_eq_true himm)]
  simp only [haddrs himm, misaligned_none haligned, hq]

theorem spAccess_of_inside (hready : ready s w = true) (himm : f.imm.toNat < 2 ^ 20) {A : Nat → Nat} (hinside : SpInside w f s A)
    {addrs : Stream → List (Nat × Nat)} (haddrs : addrs (streamAt s w) = laneAddrs (streamAt s w) f A)
    (g : Nat → List (Nat × Nat) → Stream → State → State) : spAccess w f addrs g s = modStream (slotKey w) w.eng.val nextPc
      (g (slotKey w) (laneAddrs (streamAt s w) f (fun i => spBase (slotKey w) (ctxAt s (slotKey w)) + A i)) (streamAt s w) (countStep w s)) := by
  have hrange := find_laneAddrs_none (f := f) (x := streamAt s w) (A := A) (p := fun a => decide (spSize (ctxAt s (slotKey w)) < a + 4))
    fun i hon => decide_eq_false (Nat.not_lt.mpr (hinside i hon).2)
  rw [spAccess, issue_of_ready hready (decide_eq_true himm)]
  simp only [haddrs, misaligned_none fun i hon => (hinside i hon).1, hrange]
  simp only [laneAddrs, List.map_map]
  rfl

/-- A load inside the partition writes the active lanes. -/
theorem spLoad_lanesWritten (hready : ready s w = true) (himm : f.imm.toNat < 2 ^ 20) {A : Nat → Nat} (hinside : SpInside w f s A)
    {addrs : Stream → List (Nat × Nat)} (haddrs : addrs (streamAt s w) = laneAddrs (streamAt s w) f A) :
    LanesWritten w f (fun i => BitVec.ofNat 32 (leNat (spGet s (spBase (slotKey w) (ctxAt s (slotKey w)) + A i.val) 4))) s
      (spAccess w f addrs (spLoad w.eng.val f) s) := by
  rw [spAccess_of_inside hready himm hinside haddrs, spLoad, modStream_modStream _ w.eng.isLt]
  refine modStream_lanesWritten rfl fun i hon => ?_
  rw [find_laneAddrs (mem_lanesOn.mpr ⟨i.isLt, hon⟩)]
  rfl

/-- A store inside the partition writes the elements of the active lanes, the highest lane last. -/
theorem spStore_spec (hready : ready s w = true) (himm : f.imm.toNat < 2 ^ 20) {A : Nat → Nat} (hinside : SpInside w f s A)
    {addrs : Stream → List (Nat × Nat)} (haddrs : addrs (streamAt s w) = laneAddrs (streamAt s w) f A) (r : BitVec 5) {t : State}
    (ht : t = spAccess w f addrs (fun _ l x u => spStore r l x u) s) {first : Nat} (hfirst : first = spBase (slotKey w) (ctxAt s (slotKey w))) :
    Only [.cmp, .lantern] s t ∧ Passed w s t ∧ t.cmp.accs = s.cmp.accs ∧ ∀ a : Nat, mapGetD t.cmp.sp a 0 =
      match (List.range 16).reverse.find? (fun i => laneOn (streamAt s w) f i && decide (first + A i ≤ a) && decide (a < first + A i + 4)) with
      | some i => (natLe 4 (vLane (streamAt s w) r i)).getD (a - (first + A i)) 0
      | none => mapGetD s.cmp.sp a 0 := by
  rw [spAccess_of_inside hready himm hinside haddrs, ← hfirst] at ht
  have hcmp := spStore_cmp r (laneAddrs (streamAt s w) f (fun i => first + A i)) (streamAt s w) (countStep w s)
  have honly := spStore_only r (laneAddrs (streamAt s w) f (fun i => first + A i)) (streamAt s w) (countStep w s)
  refine ⟨?_, ?_, ?_, fun a => ?_⟩ <;> rw [ht]
  · exact ((countStep_only w s).mono (by simp)).trans ((honly.trans (modStream_only _ _ _ _)).mono (by simp))
  · rw [Passed, streamAt_modStream, streamAt, ctxAt, hcmp]
    rfl
  · show (spStore r _ _ (countStep w s)).cmp.accs = _
    rw [hcmp]
    rfl
  · refine (sp_spStore r _ (streamAt s w) (countStep w s) a).trans ?_
    have hfind : (laneAddrs (streamAt s w) f (fun i => first + A i)).reverse.find? (inElement a) =
        ((List.range 16).reverse.find? (fun i => laneOn (streamAt s w) f i && decide (first + A i ≤ a) && decide (a < first + A i + 4))).map
          (fun i => (i, first + A i)) := by
      rw [laneAddrs, ← List.map_reverse, List.find?_map, lanesOn, indices, ← List.filter_reverse, List.find?_filter]
      refine congrArg _ (congrArg (fun p => List.find? p _) (funext fun i => ?_))
      rw [Bool.eq_iff_iff]
      simp [inElement, and_assoc]
    rw [hfind]
    cases (List.range 16).reverse.find? _ <;> rfl

end Sys2Proof.Machine
end

section

namespace Sys2Proof.Machine

open Sys2Proof

/-- Settles O39: every instruction of class 5 is one access with its lanes' addresses; inside the partition it is one write of the
active lanes or one run of stores. -/
theorem scratchpadLoadsAndStores : Obligations.ScratchpadLoadsAndStores := by
  unfold Obligations.ScratchpadLoadsAndStores
  rintro w f s _ rfl _ rfl _ rfl _ rfl _ rfl _ rfl
  have hld : SpInstr w f s (.spmLd w f) (vecAddr (streamAt s w) f) := ⟨_, _, rfl, vectorAddrs_eq _⟩
  have hst : SpInstr w f s (.spmSt w f) (vecAddr (streamAt s w) f) := ⟨_, _, rfl, vectorAddrs_eq _⟩
  have hldb : SpInstr w f s (.spmLdb w f) (fun _ => ((sReg (streamAt s w) f.a).toNat + f.imm.toNat) % 2 ^ 64) := ⟨_, _, rfl, castAddrs_eq _⟩
  have hldg : SpInstr w f s (.spmLdg w f) (gatherAddr (streamAt s w) f) := ⟨_, _, rfl, fun _ => rfl⟩
  have hstg : SpInstr w f s (.spmStg w f) (gatherAddr (streamAt s w) f) := ⟨_, _, rfl, fun _ => rfl⟩
  refine ⟨fun hready himm => ⟨?_, ?_, ?_⟩, ?_⟩
  · simp only [List.forall_mem_cons]
    exact ⟨fun hinside => ⟨_, rfl, spLoad_lanesWritten (A := vecAddr (streamAt s w) f) hready himm hinside (vectorAddrs_eq _ himm)⟩,
      fun hinside => ⟨_, rfl, spLoad_lanesWritten (A := fun _ => ((sReg (streamAt s w) f.a).toNat + f.imm.toNat) % 2 ^ 64)
        hready himm hinside (castAddrs_eq _ himm)⟩,
      fun hinside => ⟨_, rfl, spLoad_lanesWritten (A := gatherAddr (streamAt s w) f) hready himm hinside (gatherAddrs_eq _ f)⟩, List.forall_mem_nil _⟩
  · simp only [List.forall_mem_cons]
    exact ⟨fun hinside => ⟨_, rfl, spStore_spec (A := vecAddr (streamAt s w) f) hready himm hinside (vectorAddrs_eq _ himm) f.b rfl rfl⟩,
      fun hinside => ⟨_, rfl, spStore_spec (A := gatherAddr (streamAt s w) f) hready himm hinside (gatherAddrs_eq _ f) f.c rfl rfl⟩,
      List.forall_mem_nil _⟩
  · simp only [List.forall_mem_cons]
    exact ⟨⟨fun i hon h => hld.align hready himm hon h, fun ha i hon h => hld.range hready himm ha hon h⟩,
      ⟨fun i hon h => hldb.align hready himm hon h, fun ha i hon h => hldb.range hready himm ha hon h⟩,
      ⟨fun i hon h => hldg.align hready himm hon h, fun ha i hon h => hldg.range hready himm ha hon h⟩,
      ⟨fun i hon h => hst.align hready himm hon h, fun ha i hon h => hst.range hready himm ha hon h⟩,
      ⟨fun i hon h => hstg.align hready himm hon h, fun ha i hon h => hstg.range hready himm ha hon h⟩, List.forall_mem_nil _⟩
  · have hillegal {y : Instr} (h : Issues w (decide (f.imm.toNat < 2 ^ 20)) s y) :
        (ready s w = true → 2 ^ 20 ≤ f.imm.toNat → ∃ t : State, exec y s = .next t ∧ FaultsWith w 1 s t) ∧
          (ready s w = false → exec y s = .next s) :=
      ⟨fun hready himm => h.faults hready (decide_eq_false (Nat.not_lt.mpr himm)), fun hready => h.idle hready⟩
    simp only [List.forall_mem_cons]
    exact ⟨hillegal hld.issues, hillegal hldb.issues, hillegal hldg.issues, hillegal hst.issues, hillegal hstg.issues,
      List.forall_mem_nil _⟩

end Sys2Proof.Machine
end

section
/-! SUPPORT. Classes 8 and 9: branches, and barriers of a context and of a gang (R258, R263, R264, R273). -/

namespace Sys2Proof.Machine

open Sys2Proof

variable {w : StreamId} {f : IFields} {s : State}

/-! ### Branches -/

theorem drawn_only (s : State) : Only [.free] s (drawn s) := drawn_parts (List.Subset.refl _) (.refl _ s)

theorem exists_laneOn {x : Stream} (h : (lanesOn x f).isEmpty = false) : ∃ i : Fin 16, laneOn x f i.val = true := by
  obtain ⟨i, hi⟩ := List.exists_mem_of_ne_nil _ (List.isEmpty_eq_false_iff.mp h)
  obtain ⟨hlt, hon⟩ := mem_lanesOn.mp hi
  exact ⟨⟨i, hlt⟩, hon⟩

theorem exists_laneOff {x : Stream} (h : (lanesOn x f).length ≠ 16) : ∃ i : Fin 16, laneOn x f i.val = false := by
  by_contra hall
  refine h (List.length_filter_eq_length_iff.mpr fun i hi => ?_)
  rw [← Bool.not_eq_false]
  exact fun hoff => hall ⟨⟨i, List.mem_range.mp hi⟩, hoff⟩

/-- The stream after a branch. -/
def branched (f : IFields) (taken : Bool) (x : Stream) : Stream := if taken then { x with pc := f.imm.toNat } else nextPc x

theorem branched_cases (f : IFields) (taken : Bool) (x : Stream) :
    branched f taken x = { x with pc := f.imm.toNat } ∨ branched f taken x = { x with pc := x.pc + 1 } := by
  cases taken
  · exact .inr rfl
  · exact .inl rfl

section
variable (himm : f.imm.toNat < 2 ^ 22)
include himm

theorem branch_eq (k : Nat) (taken : Bool) (u : State) : branch w f k taken u = modStream k w.eng.val (branched f taken) u := by
  simp only [branch, jump, Nat.mod_eq_of_lt himm]
  rfl

theorem branch_spec (taken : Bool) : streamAt (branch w f (slotKey w) taken (countStep w s)) w = branched f taken (streamAt s w) ∧
    Only [.cmp, .lantern] s (branch w f (slotKey w) taken (countStep w s)) := by
  rw [branch_eq himm]
  exact ⟨streamAt_modStream w _ (countStep w s), modStream_progress_only _ _ _ _ s⟩

theorem branchFree_spec : (∃ taken, streamAt (branchFree w f (slotKey w) (countStep w s)) w = branched f taken (streamAt s w)) ∧
    Only [.cmp, .lantern, .free] s (branchFree w f (slotKey w) (countStep w s)) := by
  rw [branchFree, branch_eq himm]
  refine ⟨⟨_, streamAt_modStream ..⟩, ?_⟩
  exact ((countStep_only w s).mono (by simp)).trans (((drawn_only _).mono (by simp)).trans ((modStream_only _ _ _ _).mono (by simp)))

theorem execCtlBrp_of_ready (hready : ready s w = true) : ∃ t : State, exec (.ctlBrp w f) s = .next t ∧ Only [.cmp, .lantern, .free] s t ∧
    ((streamAt t w = { streamAt s w with pc := f.imm.toNat } ∧ ∃ i : Fin 16, laneOn (streamAt s w) f i.val = true) ∨
      (streamAt t w = { streamAt s w with pc := (streamAt s w).pc + 1 } ∧ ∃ i : Fin 16, laneOn (streamAt s w) f i.val = false)) := by
  refine ⟨_, congrArg Host.Outcome.next (issue_of_ready hready (decide_eq_true himm) _), ?_⟩
  dsimp only
  split
  next hall =>
    obtain ⟨hat, honly⟩ := branch_spec (w := w) (s := s) himm true
    have hsome : (lanesOn (streamAt s w) f).isEmpty = false := List.isEmpty_eq_false_iff.mpr fun hnil => by
      rw [hnil] at hall
      cases hall
    exact ⟨honly.mono (by simp), .inl ⟨hat, exists_laneOn hsome⟩⟩
  next hpart =>
    split
    next =>
      obtain ⟨hat, honly⟩ := branch_spec (w := w) (s := s) himm false
      exact ⟨honly.mono (by simp), .inr ⟨hat, exists_laneOff hpart⟩⟩
    next hsome =>
      obtain ⟨⟨taken, hat⟩, honly⟩ := branchFree_spec (w := w) (s := s) himm
      refine ⟨honly, ?_⟩
      cases taken with
      | true => exact .inl ⟨hat, exists_laneOn (Bool.eq_false_iff.mpr hsome)⟩
      | false => exact .inr ⟨hat, exists_laneOff hpart⟩

theorem execCtlCall_of_ready (hready : ready s w = true) (hdepth : (streamAt s w).ret.length < 8) :
    ∃ t : State, exec (.ctlCall w f) s = .next t ∧ Only [.cmp, .lantern] s t ∧
      streamAt t w = { streamAt s w with pc := f.imm.toNat, ret := ((streamAt s w).pc + 1) :: (streamAt s w).ret } := by
  have hlegal : (ctlLegal f && decide ((streamAt s w).ret.length < 8)) = true := by
    rw [ctlLegal, decide_eq_true himm, decide_eq_true hdepth, Bool.and_true]
  refine ⟨_, congrArg Host.Outcome.next (issue_of_ready hready hlegal _), modStream_progress_only _ _ _ _ s, ?_⟩
  rw [streamAt_modStream, jump, Nat.mod_eq_of_lt himm, streamAt_countStep]

theorem execCtlRet_of_ready (hready : ready s w = true) : ∃ t : State, exec (.ctlRet w f) s = .next t ∧ Only [.cmp, .lantern, .free] s t ∧
    streamAt t w = { streamAt s w with pc := (streamAt t w).pc, ret := (streamAt s w).ret.drop 1 } ∧
    ∀ p : Nat, (streamAt s w).ret.head? = some p → (streamAt t w).pc = p := by
  refine ⟨_, congrArg Host.Outcome.next (issue_of_ready hready (decide_eq_true himm) _), ?_⟩
  cases hret : (streamAt s w).ret with
  | nil =>
    refine ⟨?_, ?_, fun p hp => by cases hp⟩
    · exact ((countStep_only w s).mono (by simp)).trans (((drawn_only _).mono (by simp)).trans ((modStream_only _ _ _ _).mono (by simp)))
    · dsimp only
      rw [streamAt_modStream, List.drop_nil, ← hret]
      rfl
  | cons p r =>
    refine ⟨(modStream_progress_only _ _ _ _ s).mono (by simp), ?_, fun q hq => ?_⟩
    · dsimp only
      rw [streamAt_modStream]
      rfl
    · dsimp only
      rw [streamAt_modStream]
      exact Option.some.inj hq

end

/-! ### Tables with rising keys -/

/-- The canonical form bounds every later key. -/
theorem keysRise_cons {α : Type} {e : Nat × α} {r : NMap α} (h : keysRise (e :: r) = true) :
    keysRise r = true ∧ ∀ x ∈ r, e.1 < x.1 := by
  induction r generalizing e with
  | nil => exact ⟨rfl, fun x hx => absurd hx List.not_mem_nil⟩
  | cons y r ih =>
    have hparts := Bool.and_eq_true_iff.mp h
    have hlt : e.1 < y.1 := of_decide_eq_true hparts.1
    refine ⟨hparts.2, fun x hx => ?_⟩
    cases hx with
    | head => exact hlt
    | tail _ hx => exact hlt.trans ((ih hparts.2).2 x hx)

theorem mapGet_of_mem {α : Type} {m : NMap α} (h : keysRise m = true) {e : Nat × α} (he : e ∈ m) : mapGet m e.1 = some e.2 := by
  induction m with
  | nil => exact absurd he List.not_mem_nil
  | cons x r ih =>
    obtain ⟨hr, hlt⟩ := keysRise_cons h
    cases he with
    | head => exact if_pos rfl
    | tail _ he => exact (if_neg (Nat.ne_of_lt (hlt e he))).trans (ih hr he)

theorem mem_of_mapGet {α : Type} {m : NMap α} {k : Nat} {v : α} (h : mapGet m k = some v) : (k, v) ∈ m := by
  induction m with
  | nil => cases h
  | cons x r ih =>
    by_cases hk : x.1 = k
    · rw [mapGet, if_pos hk] at h
      rw [← hk, ← Option.some.inj h]
      exact List.mem_cons_self
    · rw [mapGet, if_neg hk] at h
      exact List.mem_cons_of_mem _ (ih h)

/-- A write under a listed key changes that entry in place. -/
theorem mapSet_of_listed {α : Type} {m : NMap α} (h : keysRise m = true) {k : Nat} {v : α} (hk : mapGet m k = some v) (u : α) :
    mapSet m k u = m.map (fun e => if e.1 = k then (k, u) else e) := by
  induction m with
  | nil => cases hk
  | cons x r ih =>
    obtain ⟨hr, hlt⟩ := keysRise_cons h
    by_cases hx : x.1 = k
    · have hrest : r.map (fun e => if e.1 = k then (k, u) else e) = r :=
        (List.map_congr_left fun e he => if_neg (by have := hlt e he; omega)).trans (List.map_id _)
      rw [mapSet, if_pos hx.symm, List.map_cons, if_pos hx, hrest]
    · rw [mapGet, if_neg hx] at hk
      have hbelow : x.1 < k := hlt _ (mem_of_mapGet hk)
      rw [mapSet, if_neg (Ne.symm hx), if_neg (by omega), List.map_cons, if_neg hx, ih hr hk]

/-! ### Barriers of a context -/

/-- The stream has reached a barrier of its context. -/
def arrivedC (x : Stream) : Stream := nextPc { x with wait := .barC }

/-- A change of a stream keeps the descriptor and the state of every slot. -/
theorem desc_modStream (k e : Nat) (h : Stream → Stream) (s : State) (j : Nat) : (ctxAt (modStream k e h s) j).desc = (ctxAt s j).desc := by
  by_cases hj : j = k
  · rw [hj, ctxAt_modStream_same]
  · rw [ctxAt_modStream_ne hj]

/-- One stream goes on from a barrier. -/
def passOne (k e : Nat) (s : State) : State := progress (.stream k e) (modStream k e (fun x => { x with wait := .none }) s)

theorem ctxAt_passOne (k e : Nat) (s : State) (j : Nat) :
    ctxAt (passOne k e s) j = ctxAt (modStream k e (fun x => { x with wait := .none }) s) j := ctxAt_progress _ _ j

theorem passOne_only (k e : Nat) (s : State) : Only [.cmp, .lantern] s (passOne k e s) :=
  ((modStream_only k e _ s).mono (by simp)).trans ((progress_only _ _).mono (by simp))

theorem ctxAt_passOne_ne {j k : Nat} (h : j ≠ k) (e : Nat) (s : State) : ctxAt (passOne k e s) j = ctxAt s j :=
  (ctxAt_passOne k e s j).trans (ctxAt_modStream_ne h e _ s)

theorem streamOf_passOne_same (k : Nat) {e : Nat} (he : e < 4) (s : State) :
    streamOf (ctxAt (passOne k e s) k) e = { streamOf (ctxAt s k) e with wait := .none } := by
  rw [ctxAt_passOne, streamOf_modStream_same k he]

theorem streamOf_passOne_ne {e j : Nat} (h : j ≠ e) (k : Nat) (s : State) :
    streamOf (ctxAt (passOne k e s) k) j = streamOf (ctxAt s k) j := by
  rw [ctxAt_passOne, streamOf_modStream_ne h]

theorem desc_passOne (k e : Nat) (s : State) (j : Nat) : (ctxAt (passOne k e s) j).desc = (ctxAt s j).desc := by
  rw [ctxAt_passOne, desc_modStream]

theorem passOne_slotsOnly (k e : Nat) (s : State) : SlotsOnly s (passOne k e s) := rfl

theorem streamNos_congr {c d : Ctx} (h : c.desc = d.desc) : streamNos c = streamNos d := by
  simp only [streamNos, ctxStreams, descField, h]

theorem lt_of_mem_streamNos {c : Ctx} {e : Nat} (h : e ∈ streamNos c) : e < 4 := List.mem_range.mp (List.mem_of_mem_filter h)

theorem passBarrier_eq (k : Nat) (s : State) : passBarrier k s = (streamNos (ctxAt s k)).foldl (fun u e => passOne k e u) s := rfl

theorem streamOf_passList (k : Nat) (l : List Nat) (hl : ∀ e ∈ l, e < 4) (s : State) (j : Nat) :
    streamOf (ctxAt (l.foldl (fun u e => passOne k e u) s) k) j =
      if j ∈ l then { streamOf (ctxAt s k) j with wait := .none } else streamOf (ctxAt s k) j := by
  induction l generalizing s with
  | nil => rfl
  | cons e r ih =>
    rw [List.foldl_cons, ih fun x hx => hl x (List.mem_cons_of_mem e hx)]
    by_cases hje : j = e
    · subst hje
      rw [streamOf_passOne_same k (hl j List.mem_cons_self), if_pos List.mem_cons_self, ite_self]
    · simp only [streamOf_passOne_ne hje, List.mem_cons, hje, false_or]

theorem streamOf_passBarrier {k j : Nat} {s : State} (h : j ∈ streamNos (ctxAt s k)) :
    streamOf (ctxAt (passBarrier k s) k) j = { streamOf (ctxAt s k) j with wait := .none } := by
  rw [passBarrier_eq, streamOf_passList k _ (fun e => lt_of_mem_streamNos), if_pos h]

theorem passBarrier_only (k : Nat) (s : State) : Only [.cmp, .lantern] s (passBarrier k s) :=
  Only.foldl _ (fun u e hu => hu.trans (passOne_only k e u)) (.refl _ s)

theorem passBarrier_slotsOnly (k : Nat) (s : State) : SlotsOnly s (passBarrier k s) :=
  .foldl _ (fun u e => passOne_slotsOnly k e u) s

theorem desc_passBarrier (k : Nat) (s : State) (j : Nat) : (ctxAt (passBarrier k s) j).desc = (ctxAt s j).desc := by
  rw [passBarrier_eq]
  generalize streamNos (ctxAt s k) = l
  induction l generalizing s with
  | nil => rfl
  | cons e r ih => exact (ih _).trans (desc_passOne k e s j)

/-- A stream that waits for nothing still does after another context's barrier. -/
theorem wait_passBarrier {k i j : Nat} {s : State} (h : (streamOf (ctxAt s i) j).wait = .none) :
    (streamOf (ctxAt (passBarrier k s) i) j).wait = .none := by
  by_cases hi : i = k
  · subst hi
    rw [passBarrier_eq, streamOf_passList i _ (fun e => lt_of_mem_streamNos)]
    split
    · rfl
    · exact h
  · rw [passBarrier_eq, ctxAt_foldl _ fun u e _ => ctxAt_passOne_ne hi e u]
    exact h

/-- The machine when the stream has reached its barrier. -/
def reachBarrier (w : StreamId) (b : Wait) (s : State) : State :=
  modStream (slotKey w) w.eng.val (fun x => nextPc { x with wait := b }) (countStep w s)

theorem reachBarrier_only (w : StreamId) (b : Wait) (s : State) : Only [.cmp, .lantern] s (reachBarrier w b s) :=
  modStream_progress_only _ _ _ _ s

theorem streamAt_reachBarrier (w : StreamId) (b : Wait) (s : State) :
    streamAt (reachBarrier w b s) w = { streamAt s w with wait := b, pc := (streamAt s w).pc + 1 } := streamAt_modStream ..

theorem streamOf_reachBarrier_ne {e : Nat} (h : e ≠ w.eng.val) (b : Wait) (s : State) :
    streamOf (ctxAt (reachBarrier w b s) (slotKey w)) e = streamOf (ctxAt s (slotKey w)) e := streamOf_modStream_ne h ..

theorem desc_reachBarrier (b : Wait) (s : State) (j : Nat) : (ctxAt (reachBarrier w b s) j).desc = (ctxAt s j).desc :=
  desc_modStream _ _ _ (countStep w s) j

theorem reachBarrier_slotsOnly (b : Wait) (s : State) : SlotsOnly s (reachBarrier w b s) := rfl

theorem execBarC_of_ready (hready : ready s w = true) (hlow : f.imm.toNat % 2 ^ 21 = 0) (hhigh : f.imm.toNat < 2 ^ 24) :
    exec (.barC w f) s = .next (if (streamNos (ctxAt s (slotKey w))).all
        (fun e => (streamOf (ctxAt (reachBarrier w .barC s) (slotKey w)) e).wait == .barC) = true
      then passBarrier (slotKey w) (reachBarrier w .barC s) else reachBarrier w .barC s) := by
  have hlegal : (f.imm.toNat % 2 ^ 21 == 0 && f.imm.toNat / 2 ^ 24 == 0) = true := by
    rw [hlow, Nat.div_eq_of_lt hhigh]
    rfl
  exact congrArg Host.Outcome.next (issue_of_ready hready hlegal _)

/-- The streams that have reached the barrier are the one that issues and those that wait at it. -/
theorem arrived_reachBarrier (e : Nat) : ((streamOf (ctxAt (reachBarrier w .barC s) (slotKey w)) e).wait == .barC) =
    (decide (e = w.eng.val) || (streamOf (ctxAt s (slotKey w)) e).wait == .barC) := by
  by_cases he : e = w.eng.val
  · subst he
    exact (congrArg (fun x : Stream => x.wait == .barC) (streamAt_reachBarrier w .barC s)).trans (by simp)
  · rw [streamOf_reachBarrier_ne he, decide_eq_false he, Bool.false_or]

theorem streamOf_reachBarrier (b : Wait) (e : Nat) : streamOf (ctxAt (reachBarrier w b s) (slotKey w)) e =
    { streamOf (ctxAt s (slotKey w)) e with
      wait := if e = w.eng.val then b else (streamOf (ctxAt s (slotKey w)) e).wait
      pc := if e = w.eng.val then (streamAt s w).pc + 1 else (streamOf (ctxAt s (slotKey w)) e).pc } := by
  by_cases he : e = w.eng.val
  · subst he
    simp only [if_true]
    exact streamAt_reachBarrier w b s
  · rw [streamOf_reachBarrier_ne he, if_neg he, if_neg he]

/-! ### Barriers of a gang -/

theorem writeBackCtx_of_no_cache {s : State} (h : s.cmp.cache = []) (k : Nat) : writeBackCtx k s = s := by
  simp [writeBackCtx, coreLines, h]

theorem acquireSteps_of_no_cache {s : State} (h : s.cmp.cache = []) (core scope : Nat) : acquireSteps core scope s = s := by
  simp [acquireSteps, coreLines, h]

theorem releaseSteps_of_no_cache {s : State} {k : Nat} (h : s.cmp.cache = []) (hout : writesOut s k = false) (scope : Nat) :
    releaseSteps k scope s = (true, s) := by
  simp [releaseSteps, writeBackCtx_of_no_cache h, hout]

/-- The members of a gang when the stream has reached its barrier. -/
theorem gangOf_reachBarrier (hready : ready s w = true) (hrise : keysRise s.cmp.ctxs = true) (b : Wait) (g : Nat) :
    gangOf (reachBarrier w b s) g = (gangOf s g).map
      (fun e => if e.1 = slotKey w then (slotKey w, ctxAt (reachBarrier w b s) (slotKey w)) else e) := by
  have hrun := running_of_ready hready
  obtain ⟨c, hc⟩ : ∃ c, mapGet s.cmp.ctxs (slotKey w) = some c := by
    cases hget : mapGet s.cmp.ctxs (slotKey w) with
    | none => rw [ctxAt, mapGetD, hget] at hrun; cases hrun
    | some c => exact ⟨c, rfl⟩
  have hat : ctxAt s (slotKey w) = c := by rw [ctxAt, mapGetD, hc]; rfl
  have hctxs : (reachBarrier w b s).cmp.ctxs = s.cmp.ctxs.map
      (fun e => if e.1 = slotKey w then (slotKey w, ctxAt (reachBarrier w b s) (slotKey w)) else e) := by
    rw [← mapSet_of_listed hrise hc]
    rw [reachBarrier, ctxAt_modStream_same]
    rfl
  have hstate : (ctxAt (reachBarrier w b s) (slotKey w)).state = (ctxAt s (slotKey w)).state := by
    rw [reachBarrier, ctxAt_modStream_same, ctxAt_countStep]
  have hgang (k : Nat) : ctxGang (ctxAt (reachBarrier w b s) k) = ctxGang (ctxAt s k) := by
    simp only [ctxGang, descField, desc_reachBarrier]
  simp only [gangOf, liveSlots, hctxs, List.filter_filter, List.filter_map]
  congr 1
  refine List.filter_congr fun e he => ?_
  simp only [Function.comp_apply]
  by_cases hk : e.1 = slotKey w
  · have hval : ctxAt s (slotKey w) = e.2 := by
      rw [← hk, ctxAt, mapGetD, mapGet_of_mem hrise he]
      rfl
    rw [if_pos hk, hgang, hstate, hval]
  · rw [if_neg hk]

theorem ctxAt_of_mem_gangOf (hrise : keysRise s.cmp.ctxs = true) {g : Nat} {e : Nat × Ctx} (he : e ∈ gangOf s g) : ctxAt s e.1 = e.2 := by
  rw [ctxAt, mapGetD, mapGet_of_mem hrise (List.mem_of_mem_filter (List.mem_of_mem_filter he))]
  rfl

/-- The members of the gang are the same contexts with their slots' new values. -/
theorem gangOf_reachBarrier_eq (hready : ready s w = true) (hrise : keysRise s.cmp.ctxs = true) (b : Wait) (g : Nat) :
    gangOf (reachBarrier w b s) g = (gangOf s g).map (fun e => (e.1, ctxAt (reachBarrier w b s) e.1)) := by
  rw [gangOf_reachBarrier hready hrise]
  refine List.map_congr_left fun e he => ?_
  by_cases hk : e.1 = slotKey w
  · rw [if_pos hk, hk]
  · rw [if_neg hk, reachBarrier, ctxAt_modStream_ne hk, ctxAt_countStep, ctxAt_of_mem_gangOf hrise he]

/-- Every stream of the gang is there when the others wait at the barrier. -/
theorem gangThere_reachBarrier (hready : ready s w = true) (hrise : keysRise s.cmp.ctxs = true) (sc g size : Nat) :
    gangThere (reachBarrier w (.barG sc) s) g size = true ↔ (gangOf s g).length = size ∧ (gangOf s g).all (fun e =>
      (streamNos e.2).all (fun j => (e.1 == slotKey w && j == w.eng.val) || atGang (streamOf e.2 j))) = true := by
  rw [gangThere, gangOf_reachBarrier hready hrise, List.length_map, List.all_map, Bool.and_eq_true, beq_iff_eq]
  refine and_congr_right fun _ => ?_
  rw [List.all_eq_true, List.all_eq_true]
  refine forall₂_congr fun e he => ?_
  have hval := ctxAt_of_mem_gangOf hrise he
  rw [Function.comp_apply]
  by_cases hk : e.1 = slotKey w
  · rw [hk] at hval
    rw [if_pos hk, streamNos_congr (desc_reachBarrier _ s _), hval, hk]
    refine Bool.eq_iff_iff.mp (congrArg _ (funext fun j => ?_))
    rw [streamOf_reachBarrier, hval]
    by_cases hj : j = w.eng.val
    · simp [hj, atGang]
    · simp [hj, atGang]
  · simp [hk]

/-- The barrier of a gang without cached lines lets the streams of each of its contexts go on. -/
theorem passList_spec (l : List (Nat × Ctx)) (sc : Nat × Ctx → Nat) (u : State) (hcache : u.cmp.cache = [])
    (hdesc : ∀ e ∈ l, (ctxAt u e.1).desc = e.2.desc) {t : State}
    (ht : t = l.foldl (fun v e => passBarrier e.1 (acquireSteps (e.1 / 4) (sc e) v)) u) :
    Only [.cmp, .lantern] u t ∧ (∀ i j, (streamOf (ctxAt u i) j).wait = .none → (streamOf (ctxAt t i) j).wait = .none) ∧
      ∀ e ∈ l, ∀ j ∈ streamNos e.2, (streamOf (ctxAt t e.1) j).wait = .none := by
  induction l generalizing u with
  | nil => exact ht ▸ ⟨.refl _ u, fun _ _ h => h, fun _ he => absurd he List.not_mem_nil⟩
  | cons x r ih =>
    rw [List.foldl_cons, acquireSteps_of_no_cache hcache] at ht
    obtain ⟨honly, hkept, hfree⟩ := ih (passBarrier x.1 u) ((passBarrier_slotsOnly x.1 u).cache.trans hcache)
      (fun e he => (desc_passBarrier x.1 u e.1).trans (hdesc e (List.mem_cons_of_mem x he))) ht
    refine ⟨(passBarrier_only x.1 u).trans honly, fun i j h => hkept i j (wait_passBarrier h), fun e he j hj => ?_⟩
    cases he with
    | head =>
      rw [← streamNos_congr (hdesc x List.mem_cons_self)] at hj
      exact hkept x.1 j (by rw [streamOf_passBarrier hj])
    | tail _ he => exact hfree e he j hj

/-- A bar.g of a context in a gang at a barrier scope is legal. -/
def barGLegal (w : StreamId) (f : IFields) (s : State) : Bool := decide (1 ≤ memScope f) && decide (memScope f ≤ 3) &&
  f.imm.toNat % 2 ^ 21 == 0 && f.imm.toNat / 2 ^ 24 == 0 && ctxGang (ctxAt s (slotKey w)) != 0

theorem barG_issues : Issues w (barGLegal w f s) s (.barG w f) := ⟨_, rfl⟩

theorem barC_issues : Issues w (f.imm.toNat % 2 ^ 21 == 0 && f.imm.toNat / 2 ^ 24 == 0) s (.barC w f) := ⟨_, rfl⟩

section
variable (hready : ready s w = true) (hlegal : barGLegal w f s = true)
include hready hlegal

theorem execBarG_of_lost (hlost : (ctxAt s (slotKey w)).gangLost = true) : ∃ t : State, exec (.barG w f) s = .next t ∧ FaultsWith w 13 s t := by
  refine ⟨ctxFault (slotKey w) fGangLost 0 (countStep w s), ?_,
    ctxFault_faultsWith (running_of_ready hready) (countStep_cmp w s) (countStep_mem w s) _ _⟩
  exact congrArg Host.Outcome.next ((issue_of_ready hready hlegal _).trans (if_pos hlost))

theorem execBarG_of_kept (hkept : (ctxAt s (slotKey w)).gangLost = false) (hcache : s.cmp.cache = [])
    (hout : writesOut s (slotKey w) = false) : exec (.barG w f) s =
      .next (if gangThere (reachBarrier w (.barG (memScope f)) s) (ctxGang (ctxAt s (slotKey w))) (gangSize (ctxAt s (slotKey w))) = true
        then passGang (ctxGang (ctxAt s (slotKey w))) (reachBarrier w (.barG (memScope f)) s) else reachBarrier w (.barG (memScope f)) s) := by
  have hnot : ¬(ctxAt s (slotKey w)).gangLost = true := by rw [hkept]; exact Bool.false_ne_true
  have hsteps : releaseSteps (slotKey w) (memScope f) (countStep w s) = (true, countStep w s) :=
    releaseSteps_of_no_cache (s := countStep w s) hcache hout _
  refine congrArg Host.Outcome.next ((issue_of_ready hready hlegal _).trans ((if_neg hnot).trans ?_))
  rw [hsteps]
  rfl

end

/-- A barrier of a context: the last stream lets all go on, another one waits. -/
theorem barC_spec (hready : ready s w = true) (hlow : f.imm.toNat % 2 ^ 21 = 0) (hhigh : f.imm.toNat < 2 ^ 24) :
    ∃ t : State, exec (.barC w f) s = .next t ∧ Only [.cmp, .lantern] s t ∧
      if (streamNos (ctxAt s (slotKey w))).all (fun e => decide (e = w.eng.val) || (streamOf (ctxAt s (slotKey w)) e).wait == .barC)
      then ∀ e ∈ streamNos (ctxAt s (slotKey w)), streamOf (ctxAt t (slotKey w)) e = { streamOf (ctxAt s (slotKey w)) e with
        wait := .none, pc := if e = w.eng.val then (streamAt s w).pc + 1 else (streamOf (ctxAt s (slotKey w)) e).pc }
      else streamAt t w = { streamAt s w with wait := .barC, pc := (streamAt s w).pc + 1 } := by
  have hexec := execBarC_of_ready hready hlow hhigh
  simp only [arrived_reachBarrier] at hexec
  split at hexec
  next hall =>
    refine ⟨_, hexec, (reachBarrier_only w .barC s).trans (passBarrier_only _ _), ?_⟩
    rw [if_pos hall]
    intro e he
    rw [streamOf_passBarrier (by rw [streamNos_congr (desc_reachBarrier _ s _)]; exact he), streamOf_reachBarrier]
  next hsome =>
    refine ⟨_, hexec, reachBarrier_only w .barC s, ?_⟩
    rw [if_neg hsome]
    exact streamAt_reachBarrier w .barC s

/-- A barrier of a gang with no line cached and no write out: the last stream lets all go on, another one waits. -/
theorem barG_spec (hready : ready s w = true) (hlegal : barGLegal w f s = true) (hkept : (ctxAt s (slotKey w)).gangLost = false)
    (hcache : s.cmp.cache = []) (hout : writesOut s (slotKey w) = false) (hrise : keysRise s.cmp.ctxs = true) :
    ∃ t : State, exec (.barG w f) s = .next t ∧ t.mem = s.mem ∧
      if (gangOf s (ctxGang (ctxAt s (slotKey w)))).length = descField (ctxAt s (slotKey w)) 34 1 ∧
        (gangOf s (ctxGang (ctxAt s (slotKey w)))).all (fun e => (streamNos e.2).all (fun j =>
          (e.1 == slotKey w && j == w.eng.val) || atGang (streamOf e.2 j))) = true
      then (∀ e ∈ gangOf s (ctxGang (ctxAt s (slotKey w))), ∀ j ∈ streamNos e.2, (streamOf (ctxAt t e.1) j).wait = .none)
      else streamAt t w = { streamAt s w with wait := .barG (memScope f), pc := (streamAt s w).pc + 1 } := by
  have hexec := execBarG_of_kept hready hlegal hkept hcache hout
  split at hexec
  next hthere =>
    rw [gangThere_reachBarrier hready hrise, gangSize] at hthere
    have hmembers := gangOf_reachBarrier_eq hready hrise (.barG (memScope f)) (ctxGang (ctxAt s (slotKey w)))
    obtain ⟨honly, -, hfree⟩ := passList_spec (gangOf (reachBarrier w (.barG (memScope f)) s) (ctxGang (ctxAt s (slotKey w))))
      (fun e => (streamNos e.2).foldl (fun m j => max m (gangScope (streamOf e.2 j))) 0) (reachBarrier w (.barG (memScope f)) s) hcache
      (fun e he => by
        rw [hmembers] at he
        obtain ⟨e, -, rfl⟩ := List.mem_map.mp he
        rfl) rfl
    refine ⟨_, hexec, (honly .mem (by decide)).trans (reachBarrier_only w _ s .mem (by decide)), ?_⟩
    rw [if_pos hthere]
    intro e he j hj
    refine hfree (e.1, ctxAt (reachBarrier w (.barG (memScope f)) s) e.1) (hmembers ▸ List.mem_map_of_mem he) j ?_
    rw [streamNos_congr (desc_reachBarrier _ s _), ctxAt_of_mem_gangOf hrise he]
    exact hj
  next hnot =>
    rw [gangThere_reachBarrier hready hrise, gangSize] at hnot
    refine ⟨_, hexec, reachBarrier_only w _ s .mem (by decide), ?_⟩
    rw [if_neg hnot]
    exact streamAt_reachBarrier w _ s

end Sys2Proof.Machine
end

section

namespace Sys2Proof.Machine

open Sys2Proof

/-- Settles O43: each branch is one change of its stream; a barrier is one change of its stream, and, when it was the last one, a pass
of every stream that waits. -/
theorem branchesAndBarriers : Obligations.BranchesAndBarriers := by
  unfold Obligations.BranchesAndBarriers
  rintro w f s _ rfl _ rfl
  have hctl {y : Instr} (h : Issues w (ctlLegal f) s y) (hready : ready s w = true) (himm : 2 ^ 22 ≤ f.imm.toNat) :
      ∃ t : State, exec y s = .next t ∧ FaultsWith w 1 s t := h.faults hready (decide_eq_false (Nat.not_lt.mpr himm))
  have hcall : Issues w (ctlLegal f && decide ((streamAt s w).ret.length < 8)) s (.ctlCall w f) := ⟨_, rfl⟩
  have hbr : Issues w (ctlLegal f) s (.ctlBr w f) := ⟨_, rfl⟩
  have hbrp : Issues w (ctlLegal f) s (.ctlBrp w f) := ⟨_, rfl⟩
  have hloop : Issues w (ctlLegal f) s (.ctlLoop w f) := ⟨_, rfl⟩
  have hret : Issues w (ctlLegal f) s (.ctlRet w f) := ⟨_, rfl⟩
  have hend : Issues w (ctlLegal f) s (.ctlEnd w f) := ⟨_, rfl⟩
  have hnop : Issues w (ctlLegal f) s (.ctlNop w f) := ⟨_, rfl⟩
  refine ⟨fun hready himm => ⟨?_, execCtlBrp_of_ready himm hready, ?_, execCtlCall_of_ready himm hready, ?_, execCtlRet_of_ready himm hready,
    ?_, ?_⟩, ?_, fun hready hlow hhigh => ⟨?_, ?_, ?_⟩, ?_, ?_⟩
  · obtain ⟨hat, honly⟩ := branch_spec (w := w) (s := s) himm true
    exact ⟨_, congrArg Host.Outcome.next (issue_of_ready hready (decide_eq_true himm) _), hat, honly⟩
  · obtain ⟨⟨taken, hat⟩, honly⟩ := branchFree_spec (w := w) (s := s) himm
    exact ⟨_, congrArg Host.Outcome.next (issue_of_ready hready (decide_eq_true himm) _), honly, hat ▸ branched_cases f taken _⟩
  · exact fun hdepth => hcall.faults hready (by rw [decide_eq_false (Nat.not_lt.mpr hdepth), Bool.and_false])
  · exact ⟨_, congrArg Host.Outcome.next (issue_of_ready hready (decide_eq_true himm) _), streamAt_modStream _ _ _, modStream_progress_only _ _ _ _ s⟩
  · exact ⟨_, congrArg Host.Outcome.next (issue_of_ready hready (decide_eq_true himm) _), streamAt_modStream _ _ _, modStream_progress_only _ _ _ _ s⟩
  · intro hready
    simp only [List.forall_mem_cons]
    exact ⟨hctl hbr hready, hctl hbrp hready, hctl hloop hready,
      fun himm => hcall.faults hready (by rw [ctlLegal, decide_eq_false (Nat.not_lt.mpr himm), Bool.false_and]),
      hctl hret hready, hctl hend hready, hctl hnop hready, List.forall_mem_nil _⟩
  · exact barC_spec hready hlow hhigh
  · intro hscope1 hscope3 hgang
    have hlegal : barGLegal w f s = true := by
      rw [barGLegal, decide_eq_true hscope1, decide_eq_true hscope3, hlow, Nat.div_eq_of_lt hhigh, bne_iff_ne.mpr hgang]
      rfl
    exact ⟨execBarG_of_lost hready hlegal, barG_spec hready hlegal⟩
  · intro hbad
    refine barG_issues.faults hready ?_
    rw [← Bool.not_eq_true]
    simp only [barGLegal, Bool.and_eq_true, decide_eq_true_eq, bne_iff_ne]
    omega
  · intro hready hbad
    have hlegal : ¬((f.imm.toNat % 2 ^ 21 == 0) = true ∧ (f.imm.toNat / 2 ^ 24 == 0) = true) := by
      simp only [beq_iff_eq]
      omega
    simp only [List.forall_mem_cons]
    refine ⟨barC_issues.faults hready ?_, barG_issues.faults hready ?_, List.forall_mem_nil _⟩
    · rw [← Bool.not_eq_true, Bool.and_eq_true]
      exact hlegal
    · rw [← Bool.not_eq_true, barGLegal]
      simp only [Bool.and_eq_true]
      exact fun h => hlegal ⟨h.1.1.2, h.1.2⟩
  · intro hready
    simp only [List.forall_mem_cons]
    exact ⟨hbr.idle hready, hbrp.idle hready, hloop.idle hready, hcall.idle hready, hret.idle hready, hend.idle hready, hnop.idle hready,
      barC_issues.idle hready, barG_issues.idle hready, List.forall_mem_nil _⟩

end Sys2Proof.Machine
end

section
/-! SUPPORT. Class 7 and COPY_LINE: the copies of a context, and a piece from scratchpad to scratchpad (R264–R268). -/

namespace Sys2Proof.Machine

open Sys2Proof

variable {w : StreamId} {f : IFields} {s : State}

/-! ### Copies of a context -/

/-- The copy at the head of a context after a piece of `n` bytes. -/
def movedOn (n : Nat) (h : Copy) : Copy :=
  if h.at_ + n < h.len then { h with got := none, asked := false, skip := false, at_ := h.at_ + n }
  else { h with got := none, asked := false, skip := false, at_ := 0, row := h.row + 1 }

theorem movedOn_ended (n : Nat) (h : Copy) : (movedOn n h).ended = h.ended := by
  unfold movedOn
  split <;> rfl

theorem movedOn_rows (n : Nat) (h : Copy) : (movedOn n h).rows = h.rows := by
  unfold movedOn
  split <;> rfl

theorem movedOn_row (n : Nat) (h : Copy) : (movedOn n h).row = if h.at_ + n < h.len then h.row else h.row + 1 := by
  unfold movedOn
  split <;> rfl

theorem copies_modCopy {k : Nat} {h : Copy} {r : List Copy} {u : State} (hc : (ctxAt u k).copies = h :: r) (g : Copy → Copy) :
    (ctxAt (modCopy k g u) k).copies = g h :: r := by
  rw [modCopy, ctxAt_modCtx_same]
  simp only [hc]

theorem copies_advanceCopy {k : Nat} {h : Copy} {r : List Copy} {u : State} (hc : (ctxAt u k).copies = h :: r) (n : Nat) :
    (ctxAt (advanceCopy k n u) k).copies = movedOn n h :: r :=
  copies_modCopy (u := progress (.copy k) u) hc _

theorem advanceCopy_slotsOnly (k n : Nat) (u : State) : SlotsOnly u (advanceCopy k n u) := rfl

theorem modCtx_only (k : Nat) (g : Ctx → Ctx) (u : State) : Only [.cmp] u (modCtx k g u) := modCtx_parts _ _ (List.Subset.refl _) (.refl _ u)

theorem advanceCopy_only (k n : Nat) (u : State) : Only [.cmp, .lantern] u (advanceCopy k n u) :=
  ((progress_only _ u).mono (by simp)).trans ((modCtx_only k _ _).mono (by simp))

theorem bumpN_only (i j n : Nat) (u : State) : Only [.dict] u (bumpN i j n u) := bumpN_parts _ _ _ (List.Subset.refl _) (.refl _ u)

/-! ### The end of a copy -/

theorem copies_modStream (k e : Nat) (g : Stream → Stream) (u : State) : (ctxAt (modStream k e g u) k).copies = (ctxAt u k).copies := by
  rw [ctxAt_modStream_same]

theorem finishCopy_slotsOnly (k : Nat) (h : Copy) (u : State) : SlotsOnly u (finishCopy k h u) := by
  unfold finishCopy
  refine .ite (.refl u) ?_
  exact (modCtx_slotsOnly k _ u).trans ((SlotsOnly.of_cmp (bump_cmp ..)).trans (.foldl _ (fun v e => modStream_slotsOnly k e _ v) _))

theorem finishCopy_only (k : Nat) (h : Copy) (u : State) : Only [.cmp, .dict] u (finishCopy k h u) :=
  finishCopy_parts k h (List.Subset.refl _) (.refl _ u)

theorem copies_finishCopy {k : Nat} {u : State} (hout : copyWritesOut u k = false) (h : Copy) :
    (ctxAt (finishCopy k h u) k).copies = (ctxAt u k).copies.drop 1 := by
  have hfold (l : List Nat) (g : Nat → Stream → Stream) (v : State) :
      (ctxAt (l.foldl (fun v e => modStream k e (g e) v) v) k).copies = (ctxAt v k).copies := by
    induction l generalizing v with
    | nil => rfl
    | cons e r ih => exact (ih _).trans (copies_modStream k e (g e) v)
  unfold finishCopy
  rw [if_neg (by rw [hout]; exact Bool.false_ne_true)]
  refine (hfold _ _ _).trans ?_
  rw [ctxAt_of_cmp (bump_cmp ..), ctxAt_modCtx_same]

/-! ### A piece from scratchpad to scratchpad -/

theorem copySource_scratchpad {k va n : Nat} {h : Copy} (hspace : h.sspace = 0) (hin : va + n ≤ spSize (ctxAt s k)) :
    copySource k h va n s = (some (spGet s (spBase k (ctxAt s k) + va) n), s) :=
  (if_pos hspace).trans (if_neg (Nat.not_lt.mpr hin))

theorem copyStore_scratchpad {k va : Nat} {h : Copy} {b : Bytes} (hspace : h.dspace = 0) (hin : va + b.length ≤ spSize (ctxAt s k)) :
    copyStore k h va b s = advanceCopy k b.length (bumpN 0x5003 9 b.length (spPut (spBase k (ctxAt s k) + va) b s)) :=
  (if_pos hspace).trans (if_neg (Nat.not_lt.mpr hin))

theorem spGet_length (a n : Nat) (u : State) : (spGet u a n).length = n := by
  rw [spGet, List.length_map, List.length_range]

theorem getD_spGet {a n i : Nat} (hi : i < n) (u : State) : (spGet u a n).getD i 0 = mapGetD u.cmp.sp (a + i) 0 := by
  simp [spGet, hi]

/-- The machine when a piece of `n` bytes has moved in the scratchpad. -/
def movePiece (k from_ to_ n : Nat) (s : State) : State := advanceCopy k n (bumpN 0x5003 9 n (spPut to_ (spGet s from_ n) s))

theorem movePiece_only (k from_ to_ n : Nat) (s : State) : Only [.cmp, .lantern, .dict] s (movePiece k from_ to_ n s) :=
  ((spPut_only _ _ s).mono (by simp)).trans (((bumpN_only _ _ _ _).mono (by simp)).trans ((advanceCopy_only _ _ _).mono (by simp)))

theorem sp_movePiece (k from_ to_ n : Nat) (s : State) (b : Nat) : mapGetD (movePiece k from_ to_ n s).cmp.sp b 0 =
    if to_ ≤ b ∧ b < to_ + n then mapGetD s.cmp.sp (from_ + (b - to_)) 0 else mapGetD s.cmp.sp b 0 := by
  rw [movePiece, (advanceCopy_slotsOnly _ _ _).sp, bumpN_cmp, sp_spPut, spGet_length]
  by_cases hb : to_ ≤ b ∧ b < to_ + n
  · rw [if_pos hb, if_pos hb, getD_spGet (by omega)]
  · rw [if_neg hb, if_neg hb]

theorem copies_movePiece {k : Nat} {h : Copy} {r : List Copy} (hc : (ctxAt s k).copies = h :: r) (from_ to_ n : Nat) :
    (ctxAt (movePiece k from_ to_ n s) k).copies = movedOn n h :: r :=
  copies_advanceCopy (u := bumpN 0x5003 9 n (spPut to_ (spGet s from_ n) s)) hc n

theorem copyWritesOut_of_ep {s t : State} (h : t.ep = s.ep) (k : Nat) : copyWritesOut t k = copyWritesOut s k := by
  simp only [copyWritesOut, arrayCommands, h]

theorem copyStep_of_no_copy {k : Nat} (h : (ctxAt s k).copies = []) : copyStep k s = s := by
  unfold copyStep
  simp only [h]

/-- The first copy of a RUNNING context can move a piece from scratchpad to scratchpad. -/
structure Movable (k : Nat) (h : Copy) (s : State) : Prop where
  head : (ctxAt s k).copies.head? = some h
  running : (ctxAt s k).state = .running
  notPaused : h.paused = false
  notAsked : h.asked = false
  notEnded : h.ended = 0
  notSkipped : h.skip = false
  rowLeft : h.row < h.rows
  source : h.sspace = 0
  dest : h.dspace = 0

theorem copyStep_of_movable {k : Nat} {h : Copy} (hm : Movable k h s) {src dst n : Nat} (hpiece : pieceOf h = (src, dst, n))
    (hsrc : src + n ≤ spSize (ctxAt s k)) (hdst : dst + n ≤ spSize (ctxAt s k)) {u : State}
    (hu : u = movePiece k (spBase k (ctxAt s k) + src) (spBase k (ctxAt s k) + dst) n s) :
    copyStep k s = if h.rows ≤ (movedOn n h).row then finishCopy k (movedOn n h) u else u := by
  obtain ⟨r, hcopies⟩ := List.head?_eq_some_iff.mp hm.head
  have hbusy : ¬((((ctxAt s k).state != .running && (ctxAt s k).state != .suspended) || h.paused || h.asked) = true) := by
    rw [hm.running, hm.notPaused, hm.notAsked]
    decide
  have hleft : ¬(h.rows ≤ h.row) := Nat.not_le.mpr hm.rowLeft
  have hskip : ¬(h.skip = true) := by rw [hm.notSkipped]; exact Bool.false_ne_true
  have hstore : copyStore k h dst (spGet s (spBase k (ctxAt s k) + src) n) s = u := by
    rw [copyStore_scratchpad hm.dest (by rw [spGet_length]; exact hdst), spGet_length, hu]
    rfl
  have hhead : (ctxAt u k).copies = movedOn n h :: r := hu ▸ copies_movePiece hcopies ..
  unfold copyStep
  simp only [hcopies, hpiece, copySource_scratchpad hm.source hsrc, hstore, hhead, if_neg hbusy, if_neg hleft, if_neg hskip,
    movedOn_ended, movedOn_rows, hm.notEnded, ne_eq, not_true, false_or]

theorem copyStep_spec {k : Nat} {h : Copy} (hm : Movable k h s) {src dst n : Nat} (hpiece : pieceOf h = (src, dst, n))
    (hsrc : src + n ≤ spSize (ctxAt s k)) (hdst : dst + n ≤ spSize (ctxAt s k)) :
    (∀ b : Nat, mapGetD (copyStep k s).cmp.sp b 0 =
      if spBase k (ctxAt s k) + dst ≤ b ∧ b < spBase k (ctxAt s k) + dst + n
      then mapGetD s.cmp.sp (spBase k (ctxAt s k) + src + (b - (spBase k (ctxAt s k) + dst))) 0 else mapGetD s.cmp.sp b 0) ∧
    Only [.cmp, .lantern, .dict] s (copyStep k s) ∧
    ((movedOn n h).row < h.rows → (ctxAt (copyStep k s) k).copies.head? = some (movedOn n h)) ∧
    (h.rows ≤ (movedOn n h).row → copyWritesOut s k = false → (ctxAt (copyStep k s) k).copies = (ctxAt s k).copies.drop 1) := by
  obtain ⟨r, hcopies⟩ := List.head?_eq_some_iff.mp hm.head
  obtain ⟨u, hu⟩ : ∃ u, u = movePiece k (spBase k (ctxAt s k) + src) (spBase k (ctxAt s k) + dst) n s := ⟨_, rfl⟩
  have hhead : (ctxAt u k).copies = movedOn n h :: r := hu ▸ copies_movePiece hcopies ..
  have honly : Only [.cmp, .lantern, .dict] s u := hu ▸ movePiece_only _ _ _ _ s
  have hsp := hu ▸ sp_movePiece k (spBase k (ctxAt s k) + src) (spBase k (ctxAt s k) + dst) n s
  rw [copyStep_of_movable hm hpiece hsrc hdst hu]
  by_cases hrows : h.rows ≤ (movedOn n h).row
  · rw [if_pos hrows, (finishCopy_slotsOnly k _ u).sp]
    refine ⟨hsp, honly.trans ((finishCopy_only k _ u).mono (by simp)), fun hlt => absurd hrows (Nat.not_le.mpr hlt), fun _ hout => ?_⟩
    have hout' : copyWritesOut u k = false := (copyWritesOut_of_ep (honly .ep (by decide)) k).trans hout
    rw [copies_finishCopy hout', hhead, hcopies, List.drop_one, List.drop_one, List.tail_cons, List.tail_cons]
  · rw [if_neg hrows]
    exact ⟨hsp, honly, fun _ => by rw [hhead, List.head?_cons], fun hge => absurd hge hrows⟩

/-! ### Instructions -/

theorem copyTagLegal_of_lt (h : f.imm.toNat < 8) : copyTagLegal f = true := decide_eq_true h

theorem copy_issues : Issues w (copyTagLegal f) s (.cpyCopy w f) := ⟨_, rfl⟩

theorem cwait_issues : Issues w (copyTagLegal f) s (.cpyCwait w f) := ⟨_, rfl⟩

theorem ctest_issues : Issues w (copyTagLegal f && decide (f.d.toNat < 8)) s (.cpyCtest w f) := ⟨_, rfl⟩

theorem faultsWith_countStep (hready : ready s w = true) (code detail : Nat) : FaultsWith w code s (ctxFault (slotKey w) code detail (countStep w s)) :=
  ctxFault_faultsWith (running_of_ready hready) (countStep_cmp w s) (countStep_mem w s) code detail

section
variable (hready : ready s w = true) (htag : f.imm.toNat < 8)
include hready htag

theorem execCpyCopy_of_ready : exec (.cpyCopy w f) s = .next (
    if (sReg (streamAt s w) f.a).toNat % 4 ≠ 0 then ctxFault (slotKey w) fAlign (sReg (streamAt s w) f.a).toNat (countStep w s)
    else if spSize (ctxAt s (slotKey w)) < (sReg (streamAt s w) f.a).toNat + 48
      then ctxFault (slotKey w) fSpRange (sReg (streamAt s w) f.a).toNat (countStep w s)
    else if copyLegal (spGet s (spBase (slotKey w) (ctxAt s (slotKey w)) + (sReg (streamAt s w) f.a).toNat) 48) = true
      then modStream (slotKey w) w.eng.val nextPc (addCopy (slotKey w) (copyOf
        (spGet s (spBase (slotKey w) (ctxAt s (slotKey w)) + (sReg (streamAt s w) f.a).toNat) 48) (some f.imm.toNat) w.eng.val) (countStep w s))
    else ctxFault (slotKey w) fDesc (sReg (streamAt s w) f.a).toNat (countStep w s)) :=
  congrArg Host.Outcome.next (issue_of_ready hready (copyTagLegal_of_lt htag) _)

/-- A descriptor inside the partition is appended, or refused where it is malformed. -/
theorem copy_inside (haligned : (sReg (streamAt s w) f.a).toNat % 4 = 0)
    (hinside : (sReg (streamAt s w) f.a).toNat + 48 ≤ spSize (ctxAt s (slotKey w))) {d : Bytes}
    (hd : d = spGet s (spBase (slotKey w) (ctxAt s (slotKey w)) + (sReg (streamAt s w) f.a).toNat) 48) :
    (copyLegal d = false → ∃ t : State, exec (.cpyCopy w f) s = .next t ∧ FaultsWith w 14 s t) ∧
    (copyLegal d = true → ∃ t : State, exec (.cpyCopy w f) s = .next t ∧ Passed w s t ∧ Only [.cmp, .lantern] s t ∧
      (ctxAt t (slotKey w)).copies = (ctxAt s (slotKey w)).copies ++ [copyOf d (some f.imm.toNat) w.eng.val] ∧ t.cmp.sp = s.cmp.sp) := by
  have hmis : ¬((sReg (streamAt s w) f.a).toNat % 4 ≠ 0) := not_not.mpr haligned
  have hexec := execCpyCopy_of_ready hready htag
  rw [if_neg hmis, if_neg (Nat.not_lt.mpr hinside), ← hd] at hexec
  refine ⟨fun hbad => ?_, fun hgood => ?_⟩
  · rw [hbad, if_neg Bool.false_ne_true] at hexec
    exact ⟨_, hexec, faultsWith_countStep hready _ _⟩
  · rw [if_pos hgood] at hexec
    refine ⟨_, hexec, ?_, ?_, ?_, ?_⟩
    · rw [Passed, streamAt_modStream, streamAt, addCopy, ctxAt_modCtx_same]
      rfl
    · exact ((countStep_only w s).mono (by simp)).trans
        (((modCtx_only _ _ _).mono (by simp)).trans ((modStream_only _ _ _ _).mono (by simp)))
    · rw [copies_modStream, addCopy, ctxAt_modCtx_same, ctxAt_countStep]
    · exact ((modCtx_slotsOnly _ _ (countStep w s)).trans (modStream_slotsOnly _ _ _ _)).sp

/-- ctest writes its predicate, p0 apart, and nothing else. -/
theorem ctest_spec (hd : f.d.toNat < 8) : ∃ t : State, exec (.cpyCtest w f) s = .next t ∧ Only [.cmp, .lantern] s t ∧ GoneOn w s t ∧
    (streamAt t w).v = (streamAt s w).v ∧ (streamAt t w).s = (streamAt s w).s ∧ ∀ q : Fin 8, pReg (streamAt t w) q.val =
      if q.val = f.d.toNat ∧ q.val ≠ 0
      then (if (ctxAt s (slotKey w)).copies.any (fun h => h.eng == w.eng.val && h.tag == some f.imm.toNat) then 0 else BitVec.allOnes 16)
      else pReg (streamAt s w) q.val := by
  obtain ⟨v, hv⟩ : ∃ v : BitVec 16, v = if tagBusy (ctxAt s (slotKey w)) w.eng.val f.imm.toNat then 0 else BitVec.allOnes 16 := ⟨_, rfl⟩
  have hlegal : (copyTagLegal f && decide (f.d.toNat < 8)) = true := by
    rw [copyTagLegal_of_lt htag, decide_eq_true hd, Bool.true_and]
  have hexec : exec (.cpyCtest w f) s = .next (modStream (slotKey w) w.eng.val (fun x => nextPc (setP f.d.toNat v x)) (countStep w s)) :=
    hv ▸ congrArg Host.Outcome.next (issue_of_ready hready hlegal _)
  have hat : streamAt (modStream (slotKey w) w.eng.val (fun x => nextPc (setP f.d.toNat v x)) (countStep w s)) w =
      nextPc (setP f.d.toNat v (streamAt s w)) := by rw [streamAt_modStream, streamAt_countStep]
  have hset := setP_eq f.d.toNat v (streamAt s w)
  refine ⟨_, hexec, modStream_progress_only _ _ _ _ s, ?_, ?_, ?_, fun q => ?_⟩
  · rw [GoneOn, hat, hset]
    rfl
  · rw [hat, hset]
    rfl
  · rw [hat, hset]
    rfl
  · rw [hat]
    refine (pReg_setP f.d.toNat q.val v (streamAt s w)).trans ?_
    rw [hv, tagBusy]

end

end Sys2Proof.Machine
end

section

namespace Sys2Proof.Machine

open Sys2Proof

/-- Settles O42: the instructions are one change of the stream or the context's copies; a piece inside the scratchpad is one write
of the bytes read, and then the copy goes on or ends. -/
theorem copyInstructionsMovePieces : Obligations.CopyInstructionsMovePieces := by
  unfold Obligations.CopyInstructionsMovePieces
  rintro w f s _ rfl _ rfl a rfl d rfl
  refine ⟨fun hready htag => ⟨?_, ?_, ?_, ?_, ?_⟩, ?_, ?_, ?_, ?_⟩
  · intro hmis
    have hexec := execCpyCopy_of_ready hready htag
    rw [if_pos hmis] at hexec
    exact ⟨_, hexec, faultsWith_countStep hready _ _⟩
  · intro haligned hbeyond
    have hmis : ¬((sReg (streamAt s w) f.a).toNat % 4 ≠ 0) := not_not.mpr haligned
    have hrange : spSize (ctxAt s (slotKey w)) < (sReg (streamAt s w) f.a).toNat + 48 := hbeyond
    have hexec := execCpyCopy_of_ready hready htag
    rw [if_neg hmis, if_pos hrange] at hexec
    exact ⟨_, hexec, faultsWith_countStep hready _ _⟩
  · exact fun haligned hinside => copy_inside hready htag haligned hinside rfl
  · refine ⟨_, congrArg Host.Outcome.next (issue_of_ready hready (copyTagLegal_of_lt htag) _), modStream_progress_only _ _ _ _ s, ?_⟩
    rw [streamAt_modStream, streamAt_countStep, tagBusy]
    split <;> rfl
  · exact ctest_spec hready htag
  · intro h hhead hrun hpaused hasked hended hskip hrow hsource hdest src hsrc dst hdst n hn hsin hdin
    have hpiece : pieceOf h = (src, dst, n) := by rw [hn, hsrc, hdst]; rfl
    obtain ⟨hsp, honly, hgo, hend⟩ := copyStep_spec ⟨hhead, hrun, hpaused, hasked, hended, hskip, hrow, hsource, hdest⟩ hpiece hsin hdin
    rw [movedOn_row] at hgo hend
    refine ⟨_, rfl, hsp, honly, fun hlt => ?_, fun hge hrow' => ?_, fun hge hrow' hout => ?_⟩
    · rw [if_pos hlt, movedOn, if_pos hlt] at hgo
      exact hgo hrow
    · have hnot : ¬(h.at_ + n < h.len) := Nat.not_lt.mpr hge
      rw [if_neg hnot, movedOn, if_neg hnot] at hgo
      exact hgo hrow'
    · rw [if_neg (Nat.not_lt.mpr hge)] at hend
      exact hend hrow'.ge hout
  · exact fun hnone => congrArg Host.Outcome.next (copyStep_of_no_copy hnone)
  · intro hready htag
    have hlegal : copyTagLegal f = false := decide_eq_false (Nat.not_lt.mpr htag)
    simp only [List.forall_mem_cons]
    exact ⟨copy_issues.faults hready hlegal, cwait_issues.faults hready hlegal,
      ctest_issues.faults hready (by rw [hlegal, Bool.false_and]), List.forall_mem_nil _⟩
  · intro hready
    simp only [List.forall_mem_cons]
    exact ⟨copy_issues.idle hready, cwait_issues.idle hready, ctest_issues.idle hready, List.forall_mem_nil _⟩

end Sys2Proof.Machine
end

section
/-! SUPPORT. Reads of memory by a context: the places of an access's lines, what a read leaves of memory, and the lines of local memory
that come into a core cache that holds none (R251, R264, R268, R271). -/

namespace Sys2Proof.Machine

open Sys2Proof

variable {w : StreamId} {f : IFields} {s : State}

/-! ### Memory as a read sees it -/

/-- Refusals, bad lines and bytes of memory are as before. -/
structure SameMemory (s u : State) : Prop where
  refusal : ∀ t line, memRefusal u t line = memRefusal s t line
  bad : ∀ line, lineBad u line = lineBad s line
  cells : u.mem.cells = s.mem.cells

theorem SameMemory.refl (s : State) : SameMemory s s := ⟨fun _ _ => rfl, fun _ => rfl, rfl⟩

theorem SameMemory.trans {s t u : State} (h : SameMemory s t) (g : SameMemory t u) : SameMemory s u :=
  ⟨fun t line => (g.refusal t line).trans (h.refusal t line), fun line => (g.bad line).trans (h.bad line), g.cells.trans h.cells⟩

theorem SameMemory.lineBytes {s u : State} (h : SameMemory s u) (line : Nat) : lineBytes u line = lineBytes s line := by
  simp only [Machine.lineBytes, h.cells]

/-- The entry that counts translations hit. -/
def hitEntry : List (Nat × Nat) := [(0x5200, 0x10)]

theorem sameMemory_of_entries {s u : State} (hmem : u.mem = s.mem) (hcoll : u.coll = s.coll) (hod : OnlyEntries hitEntry s u) :
    SameMemory s u := by
  have hdir : odGet u 0x3500 1 = odGet s 0x3500 1 := hod _ _ (by decide) (by decide)
  have hisolated : odGet u 0x4100 3 = odGet s 0x4100 3 := hod _ _ (by decide) (by decide)
  have hcolour (n : Nat) : odGet u 0x5301 (n % 16 + 1) = odGet s 0x5301 (n % 16 + 1) :=
    hod _ _ (by omega) (by simp [hitEntry])
  have hbytes : usableBytes u = usableBytes s := by simp only [usableBytes, hmem]
  have husable : usable u = usable s := by rw [usable, usable, hbytes, hmem]
  have hof (off : Nat) : colourOf u off = colourOf s off := by rw [colourOf, colourOf, colourSize, colourSize, hbytes]
  have hplace (line : Nat) : placeOf u line = placeOf s line := by simp only [placeOf, colourSize, hof, hbytes, hmem]
  have hclosed (off : Nat) : closedRegion u off = closedRegion s off := by
    simp only [closedRegion, closedRange, storeBase, dirBase, dirEnabled, shardRegions, hbytes, hdir, hcoll]
  have hdenied (t : TenantKey) (off : Nat) : colourDenied u t off = colourDenied s t off := by
    simp only [colourDenied, isolated, hof, hmem, hisolated, hcolour]
  have hchan (k : Nat) : chan u k = chan s k := by simp only [chan, hmem]
  refine ⟨fun t line => ?_, fun line => by simp only [lineBad, hmem], congrArg Mem.cells hmem⟩
  simp only [memRefusal, husable, hclosed, hdenied, hplace, hchan]

theorem sameMemory_of_only {l : List Part} {s u : State} (h : Only l s u) (hmem : Part.mem ∉ l) (hcoll : Part.coll ∉ l)
    (hdict : Part.dict ∉ l) : SameMemory s u :=
  sameMemory_of_entries (h .mem hmem) (h .coll hcoll) ((h.entries hdict).mono (by simp))

/-- An access to a line leaves the failures of every channel. -/
theorem failed_touchLine (line : Nat) (write : Bool) (t : TenantKey) (s : State) (k : Nat) :
    (chan (touchLine line write t s) k).failed = (chan s k).failed := by
  rw [touchLine, modChan, chan]
  by_cases hk : k = (placeOf s line).chan
  · rw [hk, mapGetD_mapSet_same]
  · rw [mapGetD_mapSet_ne _ _ _ _ _ hk]
    rfl

theorem sameMemory_touchLine (line : Nat) (write : Bool) (t : TenantKey) (s : State) : SameMemory s (touchLine line write t s) := by
  refine ⟨fun t' l => ?_, fun l => lineBad_touchLine line l write t s, rfl⟩
  have hplace : placeOf (touchLine line write t s) l = placeOf s l := rfl
  simp only [memRefusal, failed_touchLine, hplace]
  rfl

/-- A read of a line that is neither refused nor bad gives its bytes. -/
theorem lmRead_of_good {k line : Nat} (hrefusal : memRefusal s (ctxAt s k).tenant line = none) (hgood : lineBad s line = false) :
    lmRead k line s = (some (lineBytes s line), touchLine line false (ctxAt s k).tenant s) := by
  simp only [lmRead, hrefusal, readLine_of_good hgood]

theorem touchLine_only (line : Nat) (write : Bool) (t : TenantKey) (s : State) : Only [.mem] s (touchLine line write t s) :=
  touchLine_parts _ _ _ (List.Subset.refl _) (.refl _ s)

/-! ### Places of lines -/

/-- A translation that hits counts it and marks the way. -/
theorem translate_ok {x : Waiter} {space need pasid va addr : Nat} {u : State} (h : translate x space need pasid va u = (.ok addr, s)) :
    ∃ j, s = bump 0x5200 0x10 (modXlat (touchWay j) u) := by
  unfold translate at h
  dsimp only at h
  split at h
  next j e _ =>
    refine ⟨j, ?_⟩
    split at h
    · cases h
    · split at h
      · cases h
      · split at h
        · split at h
          · cases h
          · exact (congrArg Prod.snd h).symm
        · cases h
  next =>
    split at h
    · cases h
    · cases h

/-- What translations that all hit change: the ways' order and the count. -/
structure Translated (s u : State) : Prop where
  only : Only [.xlat, .dict] s u
  entries : OnlyEntries hitEntry s u

theorem Translated.refl (s : State) : Translated s s := ⟨.refl _ s, .refl _ s⟩

theorem Translated.trans {s t u : State} (h : Translated s t) (g : Translated t u) : Translated s u :=
  ⟨h.only.trans g.only, h.entries.trans g.entries⟩

theorem translated_of_ok {x : Waiter} {space need pasid va addr : Nat} {u : State} (h : translate x space need pasid va s = (.ok addr, u)) :
    Translated s u := by
  obtain ⟨j, rfl⟩ := translate_ok h
  have honly : Only [.xlat] s (modXlat (touchWay j) s) := modXlat_parts _ (List.Subset.refl _) (.refl _ s)
  exact ⟨(honly.mono (by simp)).trans ((bump_only _ _ _).mono (by simp)),
    ((honly.entries (by decide)).mono (by simp)).trans (bump_entries 0x5200 0x10 _ (by decide))⟩

theorem Translated.cmp {s u : State} (h : Translated s u) : u.cmp = s.cmp := h.only .cmp (by decide)

theorem Translated.sameMemory {s u : State} (h : Translated s u) : SameMemory s u :=
  sameMemory_of_entries (h.only .mem (by decide)) (h.only .coll (by decide)) h.entries

/-- One line of an access is translated, unless an earlier one was not. -/
def locateStep (w : StreamId) (k space need pasid : Nat) (a : Option (List (Nat × Nat)) × State) (l : Nat) :
    Option (List (Nat × Nat)) × State :=
  match a.1 with
  | none => a
  | some got =>
    let r := translate (.stream k w.eng.val) space need pasid (128 * l) a.2
    match r.1 with
    | .ok addr => (some (got ++ [(l, addr)]), r.2)
    | .stall => (none, r.2)
    | .fault code => (none, ctxFault k code (128 * l) r.2)

theorem locate_eq (w : StreamId) (k space need : Nat) (lines : List Nat) (s : State) : locate w k space need lines s =
    lines.foldl (locateStep w k space need (ctxPasid (ctxAt s k))) (some [], s) := rfl

theorem foldl_locateStep_none (k space need pasid : Nat) (lines : List Nat) (s : State) :
    lines.foldl (locateStep w k space need pasid) (none, s) = (none, s) := by
  induction lines with
  | nil => rfl
  | cons l r ih => exact ih

theorem locateStep_some {k space need pasid l : Nat} {got p : List (Nat × Nat)} {u : State}
    (h : locateStep w k space need pasid (some got, s) l = (some p, u)) : ∃ addr, p = got ++ [(l, addr)] ∧ Translated s u := by
  unfold locateStep at h
  dsimp only at h
  split at h
  next addr hok =>
    obtain ⟨hp, hu⟩ := Prod.mk.inj h
    exact ⟨addr, (Option.some.inj hp).symm, translated_of_ok (Prod.ext hok hu)⟩
  next => cases h
  next => cases h

theorem foldl_locateStep_some {k space need pasid : Nat} {lines : List Nat} {got p : List (Nat × Nat)} {u : State}
    (h : lines.foldl (locateStep w k space need pasid) (some got, s) = (some p, u)) :
    p.map Prod.fst = got.map Prod.fst ++ lines ∧ Translated s u := by
  induction lines generalizing got s with
  | nil =>
    obtain ⟨hp, rfl⟩ := Prod.mk.inj h
    rw [Option.some.inj hp, List.append_nil]
    exact ⟨rfl, .refl _⟩
  | cons l r ih =>
    rw [List.foldl_cons] at h
    cases hstep : locateStep w k space need pasid (some got, s) l with
    | mk a v =>
      rw [hstep] at h
      cases a with
      | none => rw [foldl_locateStep_none] at h; cases h
      | some q =>
        obtain ⟨addr, rfl, hv⟩ := locateStep_some hstep
        obtain ⟨hmap, hu⟩ := ih h
        refine ⟨?_, hv.trans hu⟩
        rw [hmap, List.map_append, List.append_assoc]
        rfl

/-- An access whose lines are all translated names each line once and changes nothing but the translation's own record. -/
theorem locate_some {k space need : Nat} {lines : List Nat} {p : List (Nat × Nat)} (h : (locate w k space need lines s).1 = some p) :
    p.map Prod.fst = lines ∧ Translated s (locate w k space need lines s).2 := by
  obtain ⟨hmap, htr⟩ := foldl_locateStep_some (w := w) (got := []) (u := (locate w k space need lines s).2) (Prod.ext h rfl)
  exact ⟨hmap, htr⟩

/-- The place of a byte is that of its line. -/
theorem placed_of_line {p : List (Nat × Nat)} {va : Nat} (h : va / 128 ∈ p.map Prod.fst) :
    ∃ e, e ∈ p ∧ p.find? (fun e => e.1 == va / 128) = some e ∧ placed p va = e.2 + va % 128 := by
  obtain ⟨e, he, hline⟩ := List.mem_map.mp h
  have hsome : (p.find? (fun e => e.1 == va / 128)).isSome = true := List.find?_isSome.mpr ⟨e, he, by rw [beq_iff_eq]; exact hline⟩
  obtain ⟨e', he'⟩ := Option.isSome_iff_exists.mp hsome
  exact ⟨e', List.mem_of_find?_eq_some he', he', by rw [placed, he']⟩

theorem lineNo_add_offset {a o : Nat} (ha : a % 128 = 0) (ho : o < 128) : lineNo 1 (a + o) = lineNo 1 a := by
  simp only [lineNo, if_true]
  omega

theorem mod_add_offset {a : Nat} (ha : a % 128 = 0) (va : Nat) : (a + va % 128) % 128 = va % 128 := by omega

theorem lineNo_lt (a : Nat) : lineNo 1 a < 2 ^ 57 := by
  simp only [lineNo, if_true]
  omega

/-! ### Runs of bytes -/

theorem slice_eq {b : Bytes} {i n : Nat} (h : i + n ≤ b.length) : slice b i n = (b.drop i).take n := by
  rw [slice, show n - (b.length - i) = 0 by omega, List.replicate_zero, List.append_nil]

theorem leNat_slice {b : Bytes} {i n : Nat} (h : i + n ≤ b.length) : leNat (slice b i n) = fieldAt b i n := by
  rw [slice_eq h, fieldAt]

theorem lineBytes_length (s : State) (line : Nat) : (lineBytes s line).length = 128 := by
  simp [lineBytes, cellsGet]

/-- A run inside one of the lines read is a run of that line. -/
theorem slice_flatMap_line {L : Nat × Nat → Bytes} (hL : ∀ e, (L e).length = 128) {q : Nat × Nat → Bool} {p : List (Nat × Nat)}
    {e : Nat × Nat} (he : p.find? q = some e) {o n : Nat} (ho : o + n ≤ 128) :
    slice (p.flatMap L) (128 * p.findIdx q + o) n = slice (L e) o n := by
  have hlen := hL e
  induction p with
  | nil => cases he
  | cons x r ih =>
    rw [List.flatMap_cons, List.findIdx_cons]
    rw [List.find?_cons] at he
    cases hq : q x with
    | true =>
      rw [hq] at he
      cases he
      rw [cond_true, Nat.mul_zero, Nat.zero_add, slice_eq (by rw [List.length_append]; omega), slice_eq (by omega),
        List.drop_append_of_le_length (by omega), List.take_append_of_le_length (by rw [List.length_drop]; omega)]
    | false =>
      rw [hq] at he
      have hx := hL x
      rw [cond_false, ← ih he, slice, slice, List.length_append, hx]
      have hdrop : (L x ++ r.flatMap L).drop (128 * (r.findIdx q + 1) + o) = (r.flatMap L).drop (128 * r.findIdx q + o) := by
        rw [show 128 * (r.findIdx q + 1) + o = (L x).length + (128 * r.findIdx q + o) by omega, List.drop_append]
        simp
      rw [hdrop]
      congr 2
      omega

end Sys2Proof.Machine
end

section
/-! SUPPORT. MEM loads: lines of local memory come into an empty core cache and stay there, and coherent reads take them from memory
(R251, R264, R268–R271). -/

namespace Sys2Proof.Machine

open Sys2Proof

variable {w : StreamId} {f : IFields} {s : State}

/-! ### A core's cache -/

theorem keyCore_cacheKey (core space : Nat) {line : Nat} (h : line < 2 ^ 57) (hspace : space < 4) : keyCore (cacheKey core space line) = core := by
  simp only [keyCore, cacheKey]
  omega

theorem memSpace_lt (f : IFields) : memSpace f < 4 := Nat.mod_lt _ (by decide)

/-- A core with no cached line. -/
def NoLines (core : Nat) (s : State) : Prop := coreLines s core (fun _ => true) = []

theorem NoLines.of_cache {core : Nat} {u : State} (h : NoLines core s) (hcache : u.cmp.cache = s.cmp.cache) : NoLines core u := by
  rw [NoLines, coreLines, hcache]
  exact h

theorem NoLines.keyCore_ne {core : Nat} (h : NoLines core s) {e : Nat × CLine} (he : e ∈ s.cmp.cache) : keyCore e.1 ≠ core := by
  intro hcore
  have hmem : e.1 ∈ coreLines s core (fun _ => true) :=
    List.mem_map_of_mem (List.mem_filter.mpr ⟨he, by rw [hcore, beq_self_eq_true, Bool.true_and]⟩)
  rw [h] at hmem
  exact List.not_mem_nil hmem

theorem NoLines.cacheLine {core : Nat} (h : NoLines core s) {key : Nat} (hkey : keyCore key = core) : cacheLine s key = none := by
  cases hline : Machine.cacheLine s key with
  | none => rfl
  | some l => exact absurd hkey (h.keyCore_ne (mem_of_mapGet hline))

theorem NoLines.coreLines {core : Nat} (h : NoLines core s) (p : Nat × CLine → Bool) : coreLines s core p = [] := by
  rw [Machine.coreLines, List.map_eq_nil_iff, List.filter_eq_nil_iff]
  intro e he hcore
  exact h.keyCore_ne he (beq_iff_eq.mp (Bool.and_eq_true_iff.mp hcore).1)

/-- A line that is not cached needs no flush. -/
theorem flushLine_of_absent {key : Nat} (h : cacheLine s key = none) : flushLine key s = s := by
  have hback : writeBackLine key s = s := by simp only [writeBackLine, h]
  have herase : mapErase s.cmp.cache key = s.cmp.cache := by
    rw [mapErase, List.filter_eq_self]
    intro e he
    rw [decide_eq_true_eq]
    rintro rfl
    have hnot : ∀ m : NMap CLine, mapGet m e.1 = none → e ∉ m := by
      intro m hm
      induction m with
      | nil => exact List.not_mem_nil
      | cons x r ih =>
        rw [mapGet] at hm
        split at hm
        · cases hm
        next hne =>
          rw [List.mem_cons]
          rintro (rfl | hr)
          · exact hne rfl
          · exact ih hm hr
    exact hnot _ h he
  rw [flushLine, hback, dropCache, herase]

theorem NoLines.flushPlaces {core : Nat} (h : NoLines core s) {space : Nat} (hspace : space < 4) (p : List (Nat × Nat))
    (hp : ∀ e ∈ p, lineNo space e.2 < 2 ^ 57) : flushPlaces core space p s = s := by
  rw [Machine.flushPlaces]
  induction p with
  | nil => rfl
  | cons e r ih =>
    rw [List.foldl_cons, flushLine_of_absent (h.cacheLine (keyCore_cacheKey core space (hp e List.mem_cons_self) hspace))]
    exact ih fun x hx => hp x (List.mem_cons_of_mem e hx)

theorem lineHolds_of_valid {key : Nat} {l : CLine} (h : cacheLine s key = some l) (hvalid : l.valid = true) (mask : Nat) :
    lineHolds s key mask = true := by
  simp only [lineHolds, h, hvalid, Bool.true_or]

theorem length_filter_mapSet_le {α : Type} (m : NMap α) (k : Nat) (v : α) (p : Nat × α → Bool) :
    ((mapSet m k v).filter p).length ≤ (m.filter p).length + 1 := by
  induction m with
  | nil => exact List.length_filter_le _ _
  | cons x r ih =>
    obtain ⟨j, u⟩ := x
    have hcons (e : Nat × α) (l : NMap α) : ((e :: l).filter p).length = (l.filter p).length + if p e then 1 else 0 := by
      rw [List.filter_cons]
      split <;> simp
    rw [mapSet]
    split
    · rw [hcons, hcons]
      split <;> split <;> omega
    · split
      · rw [hcons (k, v)]
        split <;> omega
      · rw [hcons, hcons]
        omega

/-! ### Filling a core's cache from local memory -/

/-- After up to `n` lines of a core came into its cache: each is valid and holds the bytes of memory. -/
structure Filling (core n : Nat) (s u : State) : Prop where
  mem : SameMemory s u
  ctxs : u.cmp.ctxs = s.cmp.ctxs
  few : (u.cmp.cache.filter (fun e => keyCore e.1 == core)).length ≤ n
  good : ∀ line, line < 2 ^ 57 → ∀ l, cacheLine u (cacheKey core 1 line) = some l → l.valid = true ∧ l.bytes = lineBytes s line

theorem filling_zero {core : Nat} {u : State} (h : NoLines core s) (hmem : SameMemory s u) (hcmp : u.cmp = s.cmp) : Filling core 0 s u := by
  have hu : NoLines core u := h.of_cache (by rw [hcmp])
  refine ⟨hmem, by rw [hcmp], ?_, fun line hline l hl => ?_⟩
  · rw [Nat.le_zero, List.length_eq_zero_iff, List.filter_eq_nil_iff]
    exact fun e he hcore => hu.keyCore_ne he (beq_iff_eq.mp hcore)
  · rw [hu.cacheLine (keyCore_cacheKey core 1 hline (by decide))] at hl
    cases hl

theorem makeRoom_of_few {key n : Nat} (hn : n < 16) (hfew : (s.cmp.cache.filter (fun e => keyCore e.1 == keyCore key)).length ≤ n) :
    makeRoom key s = s := by
  have hle : (s.cmp.cache.filter (fun e => keyCore e.1 == keyCore key && keyLine e.1 % 128 == keyLine key % 128 && e.1 != key)).length ≤
      (s.cmp.cache.filter (fun e => keyCore e.1 == keyCore key)).length := by
    refine (List.monotone_filter_right _ fun e he => ?_).length_le
    simp only [Bool.and_eq_true] at he
    exact he.1.1
  exact if_pos (by omega)

/-- A line that comes into the cache beside few others is installed as it is. -/
theorem installLine_of_absent {key n pasid : Nat} {b : Bytes} (hn : n < 16)
    (hfew : (s.cmp.cache.filter (fun e => keyCore e.1 == keyCore key)).length ≤ n) (habsent : cacheLine s key = none) :
    installLine key pasid b s = setCache key { bytes := b, pasid := pasid } s := by
  simp only [installLine, makeRoom_of_few hn hfew, habsent]

theorem Filling.fetched {core n pasid line : Nat} {u : State} (h : Filling core n s u) {v : State}
    (hv : v = setCache (cacheKey core 1 line) { bytes := lineBytes s line, pasid := pasid } u) :
    Filling core (n + 1) s v ∧ ∀ line', line' < 2 ^ 57 →
      cacheLine v (cacheKey core 1 line') = if line' = line then some { bytes := lineBytes s line, pasid := pasid }
        else cacheLine u (cacheKey core 1 line') := by
  have hget (line' : Nat) : cacheLine v (cacheKey core 1 line') = if line' = line then some { bytes := lineBytes s line, pasid := pasid }
      else cacheLine u (cacheKey core 1 line') := by
    rw [hv]
    by_cases heq : line' = line
    · rw [if_pos heq, heq]
      exact mapGet_mapSet_same ..
    · rw [if_neg heq]
      exact mapGet_mapSet_ne _ _ _ _ (by simp only [cacheKey]; omega)
  refine ⟨⟨?_, ?_, ?_, fun line' hline' l hl => ?_⟩, fun line' _ => hget line'⟩
  · refine h.mem.trans (hv ▸ sameMemory_of_only (l := [.cmp]) (Only.cmp_upd (by decide) (.refl _ u)) ?_ ?_ ?_) <;> decide
  · rw [hv]
    exact h.ctxs
  · rw [hv]
    exact (length_filter_mapSet_le ..).trans (Nat.add_le_add_right h.few 1)
  · rw [hget] at hl
    split at hl
    next heq =>
      rw [heq, ← Option.some.inj hl]
      exact ⟨rfl, rfl⟩
    next => exact h.good line' hline' l hl

/-- A context reads the line without fault. -/
def Readable (s : State) (k : Nat) (e : Nat × Nat) : Prop :=
  memRefusal s (ctxAt s k).tenant (lineNo 1 e.2) = none ∧ lineBad s (lineNo 1 e.2) = false

/-- One line of a load comes into the cache, unless an earlier one did not. -/
def fetchStep (w : StreamId) (k space : Nat) (mask : Nat → Nat) (a : Bool × State) (e : Nat × Nat) : Bool × State :=
  if a.1 then
    let key := cacheKey w.core.val space (lineNo space e.2)
    if lineHolds a.2 key (mask e.1) then a
    else
      let s := fetchLine w k space (128 * e.1) e.2 a.2
      (lineHolds s key (mask e.1), s)
  else a

theorem fetchAll_eq (w : StreamId) (k space : Nat) (l : List (Nat × Nat)) (mask : Nat → Nat) (s : State) :
    fetchAll w k space l mask s = l.foldl (fetchStep w k space mask) (true, s) := rfl

theorem fetchLine_of_readable {k n va : Nat} {e : Nat × Nat} {u : State} (h : Filling w.core.val n s u) (hn : n < 16)
    (hread : Readable s k e) (habsent : cacheLine u (cacheKey w.core.val 1 (lineNo 1 e.2)) = none) :
    ∃ pasid v, SameMemory u v ∧ v.cmp = u.cmp ∧ fetchLine w k 1 va e.2 u =
      setCache (cacheKey w.core.val 1 (lineNo 1 e.2)) { bytes := lineBytes s (lineNo 1 e.2), pasid := pasid } v := by
  have hctx : ctxAt u k = ctxAt s k := by rw [ctxAt, ctxAt, h.ctxs]
  have hlm := lmRead_of_good (s := u) (k := k) (line := lineNo 1 e.2) (by rw [hctx, h.mem.refusal]; exact hread.1)
    (by rw [h.mem.bad]; exact hread.2)
  have honly := touchLine_only (lineNo 1 e.2) false (ctxAt u k).tenant u
  have hcmp := honly .cmp (by decide)
  have hcore := keyCore_cacheKey w.core.val 1 (lineNo_lt e.2) (by decide)
  refine ⟨ctxPasid (ctxAt u k), touchLine (lineNo 1 e.2) false (ctxAt u k).tenant u, sameMemory_touchLine .., hcmp, ?_⟩
  rw [← h.mem.lineBytes]
  rw [fetchLine, if_pos rfl, hlm]
  refine installLine_of_absent hn ?_ habsent
  rw [hcore]
  exact h.few

theorem Filling.congr {core n : Nat} {u v : State} (h : Filling core n s u) (hmem : SameMemory u v) (hcmp : v.cmp = u.cmp) :
    Filling core n s v := by
  refine ⟨h.mem.trans hmem, by rw [hcmp]; exact h.ctxs, by rw [hcmp]; exact h.few, fun line hline l hl => h.good line hline l ?_⟩
  rw [← hl, cacheLine, cacheLine, hcmp]

/-- The lines of a core in a cache: those of `u` are in `v` too. -/
def KeepsLines (core : Nat) (u v : State) : Prop :=
  ∀ line, line < 2 ^ 57 → (cacheLine u (cacheKey core 1 line)).isSome = true → (cacheLine v (cacheKey core 1 line)).isSome = true

theorem fetchStep_of_readable {k n : Nat} {e : Nat × Nat} {u : State} (h : Filling w.core.val n s u) (hn : n < 16)
    (hread : Readable s k e) (mask : Nat → Nat) : ∃ v, fetchStep w k 1 mask (true, u) e = (true, v) ∧ Filling w.core.val (n + 1) s v ∧
      KeepsLines w.core.val u v ∧ (cacheLine v (cacheKey w.core.val 1 (lineNo 1 e.2))).isSome = true := by
  cases hline : cacheLine u (cacheKey w.core.val 1 (lineNo 1 e.2)) with
  | some l =>
    have hholds := lineHolds_of_valid hline (h.good _ (lineNo_lt e.2) l hline).1 (mask e.1)
    refine ⟨u, ?_, ⟨h.mem, h.ctxs, h.few.trans (Nat.le_succ n), h.good⟩, fun _ _ hsome => hsome, by rw [hline]; rfl⟩
    exact (if_pos rfl).trans (if_pos hholds)
  | none =>
    obtain ⟨pasid, v, hmem, hcmp, hfetch⟩ := fetchLine_of_readable (va := 128 * e.1) h hn hread hline
    obtain ⟨hfill, hget⟩ := (h.congr hmem hcmp).fetched (pasid := pasid) rfl
    have hself := (hget _ (lineNo_lt e.2)).trans (if_pos rfl)
    have hnot : ¬(lineHolds u (cacheKey w.core.val 1 (lineNo 1 e.2)) (mask e.1) = true) := by
      simp only [lineHolds, hline]
      exact Bool.false_ne_true
    refine ⟨_, ?_, hfill, fun line hlt hsome => ?_, by rw [hself]; rfl⟩
    · refine (if_pos rfl).trans ((if_neg hnot).trans ?_)
      simp only [hfetch, lineHolds_of_valid hself rfl]
    · rw [hget line hlt]
      split
      · rfl
      · rw [cacheLine, hcmp]
        exact hsome

theorem foldl_fetchStep {k n : Nat} {p : List (Nat × Nat)} {u : State} (h : Filling w.core.val n s u) (hn : n + p.length ≤ 16)
    (hread : ∀ e ∈ p, Readable s k e) (mask : Nat → Nat) : ∃ v, p.foldl (fetchStep w k 1 mask) (true, u) = (true, v) ∧
      Filling w.core.val (n + p.length) s v ∧ KeepsLines w.core.val u v ∧
      ∀ e ∈ p, (cacheLine v (cacheKey w.core.val 1 (lineNo 1 e.2))).isSome = true := by
  induction p generalizing n u with
  | nil => exact ⟨u, rfl, h, fun _ _ hsome => hsome, fun _ he => absurd he List.not_mem_nil⟩
  | cons e r ih =>
    rw [List.length_cons] at hn
    obtain ⟨v, hstep, hv, hkept, hself⟩ := fetchStep_of_readable h (by omega) (hread e List.mem_cons_self) mask
    obtain ⟨z, hfold, hz, hkept', hall⟩ := ih hv (by omega) fun x hx => hread x (List.mem_cons_of_mem e hx)
    refine ⟨z, by rw [List.foldl_cons, hstep, hfold], ?_, fun line hlt hsome => hkept' line hlt (hkept line hlt hsome), fun x hx => ?_⟩
    · rw [List.length_cons, show n + (r.length + 1) = n + 1 + r.length by omega]
      exact hz
    · cases hx with
      | head => exact hkept' _ (lineNo_lt e.2) hself
      | tail _ hx => exact hall x hx

/-! ### Coherent reads of local memory -/

/-- One line of a coherent read, unless an earlier one failed. -/
def readStep (k : Nat) (a : Option Bytes × State) (e : Nat × Nat) : Option Bytes × State :=
  match a.1 with
  | none => a
  | some b =>
    let r := lmRead k (lineNo 1 e.2) a.2
    (r.1.map (fun d => b ++ d), r.2)

theorem foldl_readStep {k : Nat} {p : List (Nat × Nat)} {b : Bytes} {u : State} (hmem : SameMemory s u) (hctx : ctxAt u k = ctxAt s k)
    (hread : ∀ e ∈ p, Readable s k e) : ∃ v, p.foldl (readStep k) (some b, u) =
      (some (b ++ p.flatMap (fun e => lineBytes s (lineNo 1 e.2))), v) ∧ Only [.mem] u v ∧ SameMemory s v := by
  induction p generalizing b u with
  | nil => exact ⟨u, by rw [List.foldl_nil, List.flatMap_nil, List.append_nil], .refl _ u, hmem⟩
  | cons e r ih =>
    obtain ⟨hrefusal, hgood⟩ := hread e List.mem_cons_self
    have hlm := lmRead_of_good (s := u) (k := k) (line := lineNo 1 e.2) (by rw [hctx, hmem.refusal]; exact hrefusal)
      (by rw [hmem.bad]; exact hgood)
    have honly := touchLine_only (lineNo 1 e.2) false (ctxAt u k).tenant u
    obtain ⟨v, hfold, hv, hsame⟩ := ih (b := b ++ lineBytes s (lineNo 1 e.2)) (hmem.trans (sameMemory_touchLine (lineNo 1 e.2) false (ctxAt u k).tenant u))
      ((honly.ctxAt (by decide) k).trans hctx) fun x hx => hread x (List.mem_cons_of_mem e hx)
    refine ⟨v, ?_, honly.trans hv, hsame⟩
    have hstep : readStep k (some b, u) e = (some (b ++ lineBytes s (lineNo 1 e.2)), touchLine (lineNo 1 e.2) false (ctxAt u k).tenant u) := by
      simp only [readStep, hlm, hmem.lineBytes, Option.map_some]
    rw [List.foldl_cons, hstep, hfold, List.flatMap_cons, List.append_assoc]

/-- A coherent read of local memory by a core that caches none of its lines. -/
theorem coherentRead_of_readable {k : Nat} {p : List (Nat × Nat)} {u : State} (hnone : NoLines w.core.val u) (hmem : SameMemory s u)
    (hctx : ctxAt u k = ctxAt s k) (hread : ∀ e ∈ p, Readable s k e) (op : BepOp) (scope : Nat) : ∃ v, coherentRead w k op 1 scope p u =
      (some (p.flatMap (fun e => lineBytes s (lineNo 1 e.2))), v) ∧ Only [.mem] u v ∧ SameMemory s v := by
  obtain ⟨v, hfold, honly, hsame⟩ := foldl_readStep (b := []) hmem hctx hread
  refine ⟨v, ?_, honly, hsame⟩
  rw [coherentRead, hnone.flushPlaces (by decide) p fun e _ => lineNo_lt e.2]
  exact (if_pos rfl).trans hfold

end Sys2Proof.Machine
end

section
/-! SUPPORT. MEM loads of a stream: an access with its lines' places, the elements it takes from the core cache or from memory, and the
8-byte word of lda (R251, R264, R268–R271). -/

namespace Sys2Proof.Machine

open Sys2Proof

variable {w : StreamId} {f : IFields} {s : State}

/-! ### Accesses -/

/-- Every active lane's address is 4-byte aligned. -/
def LanesAligned (w : StreamId) (f : IFields) (s : State) (A : Nat → Nat) : Prop :=
  ∀ i : Fin 16, laneOn (streamAt s w) f i.val = true → A i.val % 4 = 0

/-- The places of the lines of the active lanes. -/
def PlacedAt (w : StreamId) (f : IFields) (need : Nat) (s : State) (A : Nat → Nat) (p : List (Nat × Nat)) : Prop :=
  (placesOf w f need (laneAddrs (streamAt s w) f A) s).1 = some p

theorem memAccess_issues {y : Instr} {need : Nat} {addrs : Stream → List (Nat × Nat)}
    {g : Nat → Stream → List (Nat × Nat) → List (Nat × Nat) → State → State} (h : exec y s = .next (memAccess w f need addrs g s)) :
    Issues w (memLegal f) s y := ⟨_, h⟩

theorem memAccess_of_misaligned (hready : ready s w = true) (hlegal : memLegal f = true) {need : Nat} {A : Nat → Nat}
    {addrs : Stream → List (Nat × Nat)} (haddrs : addrs (streamAt s w) = laneAddrs (streamAt s w) f A)
    (g : Nat → Stream → List (Nat × Nat) → List (Nat × Nat) → State → State) {i : Fin 16}
    (hon : laneOn (streamAt s w) f i.val = true) (hmis : A i.val % 4 ≠ 0) : FaultsWith w 3 s (memAccess w f need addrs g s) := by
  obtain ⟨a, ha⟩ := misaligned_some hon hmis
  rw [memAccess, issue_of_ready hready hlegal]
  simp only [haddrs, ha]
  exact faultsWith_countStep hready _ _

theorem memAccess_of_placed (hready : ready s w = true) (hlegal : memLegal f = true) {need : Nat} {A : Nat → Nat} {p : List (Nat × Nat)}
    (haligned : LanesAligned w f s A) (hp : PlacedAt w f need s A p) {addrs : Stream → List (Nat × Nat)}
    (haddrs : addrs (streamAt s w) = laneAddrs (streamAt s w) f A)
    (g : Nat → Stream → List (Nat × Nat) → List (Nat × Nat) → State → State) : memAccess w f need addrs g s =
      g (slotKey w) (streamAt s w) (laneAddrs (streamAt s w) f A) p (placesOf w f need (laneAddrs (streamAt s w) f A) s).2 := by
  have hplaces : (locate w (slotKey w) (memSpace f) need (linesOf ((laneAddrs (streamAt s w) f A).map (fun e => e.2))) (countStep w s)).1 =
      some p := hp
  rw [memAccess, issue_of_ready hready hlegal]
  simp only [haddrs, misaligned_none haligned, hplaces]
  rfl

/-- What an access has changed once its lines are placed: the count of the instruction and the translation's own record. -/
theorem placesOf_spec {need : Nat} {addrs p : List (Nat × Nat)} (h : (placesOf w f need addrs s).1 = some p) :
    p.map Prod.fst = linesOf (addrs.map (fun e => e.2)) ∧ Translated (countStep w s) (placesOf w f need addrs s).2 :=
  locate_some (s := countStep w s) h

theorem sameMemory_countStep (w : StreamId) (s : State) : SameMemory s (countStep w s) :=
  sameMemory_of_only (countStep_only w s) (by decide) (by decide) (by decide)

theorem sameMemory_placesOf {need : Nat} {addrs p : List (Nat × Nat)} (h : (placesOf w f need addrs s).1 = some p) :
    SameMemory s (placesOf w f need addrs s).2 := (sameMemory_countStep w s).trans (placesOf_spec h).2.sameMemory

theorem cmp_placesOf {need : Nat} {addrs p : List (Nat × Nat)} (h : (placesOf w f need addrs s).1 = some p) :
    (placesOf w f need addrs s).2.cmp = s.cmp := (placesOf_spec h).2.cmp.trans (countStep_cmp w s)

theorem PlacedAt.line_mem {need : Nat} {A : Nat → Nat} {p : List (Nat × Nat)} (hp : PlacedAt w f need s A p) {i : Fin 16}
    (hon : laneOn (streamAt s w) f i.val = true) : A i.val / 128 ∈ p.map Prod.fst := by
  rw [(placesOf_spec hp).1, linesOf, List.mem_dedup, laneAddrs, List.map_map, List.map_map]
  exact List.mem_map.mpr ⟨i.val, mem_lanesOn.mpr ⟨i.isLt, hon⟩, rfl⟩

/-- An access of 16 lanes lies in at most 16 lines. -/
theorem PlacedAt.length_le {need : Nat} {A : Nat → Nat} {p : List (Nat × Nat)} (hp : PlacedAt w f need s A p) : p.length ≤ 16 := by
  have hmap := congrArg List.length (placesOf_spec hp).1
  have hdedup : (linesOf ((laneAddrs (streamAt s w) f A).map (fun e => e.2))).length ≤ (lanesOn (streamAt s w) f).length := by
    refine (List.dedup_sublist _).length_le.trans ?_
    rw [List.length_map, List.length_map, laneAddrs, List.length_map]
  have hlanes : (lanesOn (streamAt s w) f).length ≤ 16 := (List.length_filter_le _ _).trans (List.length_range).le
  rw [List.length_map] at hmap
  omega

/-! ### Elements -/

/-- What a load writes to the active lanes, by their addresses. -/
def loadLanes (f : IFields) (l : List (Nat × Nat)) (v : Nat → Nat) (x : Stream) : Stream :=
  setLanes f f.d (fun i => match l.find? (fun q => q.1 == i) with
    | some q => v q.2
    | none => 0) x

theorem lanesHold_of_loadLanes {A : Nat → Nat} {v : Nat → Nat} {g : Fin 16 → BitVec 32} {t : State}
    (ht : (streamAt t w).v = (loadLanes f (laneAddrs (streamAt s w) f A) v (streamAt s w)).v)
    (hv : ∀ i : Fin 16, laneOn (streamAt s w) f i.val = true → BitVec.ofNat 32 (v (A i.val)) = g i) : LanesHold w f g s t := by
  refine lanesHold_of_setLanes ht fun i hon => ?_
  simp only [find_laneAddrs (A := A) (mem_lanesOn.mpr ⟨i.isLt, hon⟩)]
  exact hv i hon

theorem memLoad_of_fetched (hready : ready s w = true) (hlegal : memLegal f = true) {A : Nat → Nat} {p : List (Nat × Nat)}
    (haligned : LanesAligned w f s A) (hp : PlacedAt w f 1 s A p) {addrs : Stream → List (Nat × Nat)}
    (haddrs : addrs (streamAt s w) = laneAddrs (streamAt s w) f A) {v : State}
    (hfetch : fetchAll w (slotKey w) (memSpace f) p (touched ((laneAddrs (streamAt s w) f A).map (fun e => e.2)) 4)
      (placesOf w f 1 (laneAddrs (streamAt s w) f A) s).2 = (true, v)) :
    memLoad w f addrs s = modStream (slotKey w) w.eng.val (fun _ => nextPc (loadLanes f (laneAddrs (streamAt s w) f A)
      (fun va => leNat (cacheBytes v w.core.val (memSpace f) (placed p va) 4)) (streamAt s w))) v := by
  rw [memLoad, memAccess_of_placed hready hlegal haligned hp haddrs]
  simp only [hfetch, if_true]
  rfl

/-- Lines that the cache holds need no fetch. -/
theorem fetchAll_of_held {k space : Nat} {p : List (Nat × Nat)}
    (h : ∀ e ∈ p, (cacheLine s (cacheKey w.core.val space (lineNo space e.2))).any (fun l => l.valid) = true) (mask : Nat → Nat) :
    fetchAll w k space p mask s = (true, s) := by
  rw [fetchAll_eq]
  induction p with
  | nil => rfl
  | cons e r ih =>
    obtain ⟨l, hl, hvalid⟩ := Option.any_eq_true _ _ |>.mp (h e List.mem_cons_self)
    have hstep : fetchStep w k space mask (true, s) e = (true, s) := (if_pos rfl).trans (if_pos (lineHolds_of_valid hl hvalid _))
    rw [List.foldl_cons, hstep]
    exact ih fun x hx => h x (List.mem_cons_of_mem e hx)

/-- The bytes of an element in a filled cache are those of memory. -/
theorem leNat_cacheBytes_of_filled {n : Nat} {p : List (Nat × Nat)} {v : State} (h : Filling w.core.val n s v)
    (hall : ∀ e ∈ p, (cacheLine v (cacheKey w.core.val 1 (lineNo 1 e.2))).isSome = true) (hlines : ∀ e ∈ p, e.2 % 128 = 0) {va : Nat}
    (hva : va / 128 ∈ p.map Prod.fst) (haligned : va % 4 = 0) : leNat (cacheBytes v w.core.val 1 (placed p va) 4) =
      fieldAt (lineBytes s (lineNo 1 (placed p va))) (va % 128) 4 := by
  obtain ⟨e, he, -, hplaced⟩ := placed_of_line hva
  obtain ⟨l, hl⟩ := Option.isSome_iff_exists.mp (hall e he)
  have hline : lineNo 1 (placed p va) = lineNo 1 e.2 := by
    rw [hplaced, lineNo_add_offset (hlines e he) (Nat.mod_lt _ (by decide))]
  rw [cacheBytes, hline, hl, hplaced, mod_add_offset (hlines e he)]
  simp only [(h.good _ (lineNo_lt e.2) l hl).2]
  exact leNat_slice (by rw [lineBytes_length]; omega)

/-- The bytes of an element among the lines read are those of memory. -/
theorem leNat_readBytes {p : List (Nat × Nat)} (hlines : ∀ e ∈ p, e.2 % 128 = 0) {va n : Nat} (hva : va / 128 ∈ p.map Prod.fst)
    (hn : va % 128 + n ≤ 128) : leNat (readBytes p (p.flatMap (fun e => lineBytes s (lineNo 1 e.2))) va n) =
      fieldAt (lineBytes s (lineNo 1 (placed p va))) (va % 128) n := by
  obtain ⟨e, he, hfind, hplaced⟩ := placed_of_line hva
  have hline : lineNo 1 (placed p va) = lineNo 1 e.2 := by
    rw [hplaced, lineNo_add_offset (hlines e he) (Nat.mod_lt _ (by decide))]
  rw [readBytes, slice_flatMap_line (fun e => lineBytes_length s (lineNo 1 e.2)) hfind hn, hline]
  exact leNat_slice (by rw [lineBytes_length]; exact hn)

/-! ### Loads through the core cache -/

/-- The machine after a load of elements: `t` writes them to the active lanes and goes on. -/
theorem modStream_loadLanes {A : Nat → Nat} {v : Nat → Nat} {g : Fin 16 → BitVec 32} {u : State}
    (hv : ∀ i : Fin 16, laneOn (streamAt s w) f i.val = true → BitVec.ofNat 32 (v (A i.val)) = g i) {t : State}
    (ht : t = modStream (slotKey w) w.eng.val (fun _ => nextPc (loadLanes f (laneAddrs (streamAt s w) f A) v (streamAt s w))) u) :
    LanesHold w f g s t ∧ GoneOn w s t ∧ (streamAt t w).s = (streamAt s w).s ∧ (streamAt t w).p = (streamAt s w).p ∧ t.mem = u.mem := by
  have hat : streamAt t w = nextPc (loadLanes f (laneAddrs (streamAt s w) f A) v (streamAt s w)) := by rw [ht, streamAt_modStream]
  refine ⟨lanesHold_of_loadLanes (by rw [hat]; rfl) hv, ?_, ?_, ?_, ?_⟩
  · rw [GoneOn, hat]
    rfl
  · rw [hat]
    rfl
  · rw [hat]
    rfl
  · rw [ht]
    exact modStream_only _ _ _ u .mem (by decide)

section
variable (hready : ready s w = true) (hlegal : memLegal f = true) {A : Nat → Nat} {p : List (Nat × Nat)}
  (haligned : LanesAligned w f s A) (hp : PlacedAt w f 1 s A p)
include hready hlegal haligned hp

theorem memLoad_of_held {addrs : Stream → List (Nat × Nat)} (haddrs : addrs (streamAt s w) = laneAddrs (streamAt s w) f A)
    (hheld : ∀ e ∈ p, (cacheLine s (cacheKey w.core.val (memSpace f) (lineNo (memSpace f) e.2))).any (fun l => l.valid) = true) {t : State}
    (ht : t = memLoad w f addrs s) :
    LanesHold w f (fun i => BitVec.ofNat 32 (leNat (cacheBytes s w.core.val (memSpace f) (placed p (A i.val)) 4))) s t ∧ GoneOn w s t ∧
      (streamAt t w).s = (streamAt s w).s ∧ (streamAt t w).p = (streamAt s w).p ∧ t.mem = s.mem := by
  have hcmp := cmp_placesOf hp
  have hcache (key : Nat) : cacheLine (placesOf w f 1 (laneAddrs (streamAt s w) f A) s).2 key = cacheLine s key := by
    rw [cacheLine, cacheLine, hcmp]
  rw [memLoad_of_fetched hready hlegal haligned hp haddrs (fetchAll_of_held (by simpa only [hcache] using hheld) _)] at ht
  obtain ⟨hlanes, hgone, hs, hpreds, hmem⟩ := modStream_loadLanes (fun _ _ => rfl) ht
  simp only [cacheBytes, hcache] at hlanes
  exact ⟨hlanes, hgone, hs, hpreds, hmem.trans (((placesOf_spec hp).2.only .mem (by decide)).trans (countStep_mem w s))⟩

section
variable (hspace : memSpace f = 1) (hnone : NoLines w.core.val s) (hlines : ∀ e ∈ p, e.2 % 128 = 0)
  (hread : ∀ e ∈ p, Readable s (slotKey w) e)
include hspace hnone hlines hread

theorem memLoad_of_readable {addrs : Stream → List (Nat × Nat)} (haddrs : addrs (streamAt s w) = laneAddrs (streamAt s w) f A) {t : State}
    (ht : t = memLoad w f addrs s) :
    LanesHold w f (fun i => BitVec.ofNat 32 (fieldAt (lineBytes s (lineNo 1 (placed p (A i.val)))) (A i.val % 128) 4)) s t ∧
      (streamAt t w).pc = (streamAt s w).pc + 1 ∧ (streamAt t w).s = (streamAt s w).s ∧ (streamAt t w).p = (streamAt s w).p ∧
      t.mem.cells = s.mem.cells := by
  have hzero := filling_zero hnone (sameMemory_placesOf hp) (cmp_placesOf hp)
  obtain ⟨v, hfetch, hfill, -, hall⟩ := foldl_fetchStep hzero (by have := hp.length_le; omega) hread
    (touched ((laneAddrs (streamAt s w) f A).map (fun e => e.2)) 4)
  rw [memLoad_of_fetched hready hlegal haligned hp haddrs (by rw [hspace]; exact hfetch), hspace] at ht
  have hvalue (i : Fin 16) (hon : laneOn (streamAt s w) f i.val = true) := leNat_cacheBytes_of_filled hfill hall hlines
    (va := A i.val) (hp.line_mem hon) (haligned i hon)
  obtain ⟨hlanes, hgone, hs, hpreds, hmem⟩ := modStream_loadLanes (v := fun va => leNat (cacheBytes v w.core.val 1 (placed p va) 4))
    (g := fun i => BitVec.ofNat 32 (fieldAt (lineBytes s (lineNo 1 (placed p (A i.val)))) (A i.val % 128) 4))
    (fun i hon => congrArg (BitVec.ofNat 32) (hvalue i hon)) ht
  refine ⟨hlanes, ?_, hs, hpreds, by rw [hmem]; exact hfill.mem.cells⟩
  rw [hgone]

theorem execMemLdv_of_readable (haddrs : vectorAddrs (streamAt s w) f 21 = laneAddrs (streamAt s w) f A) :
    ∃ t : State, exec (.memLdv w f) s = .next t ∧
      LanesHold w f (fun i => BitVec.ofNat 32 (fieldAt (lineBytes s (lineNo 1 (placed p (A i.val)))) (A i.val % 128) 4)) s t ∧
      (streamAt t w).pc = (streamAt s w).pc + 1 ∧ (streamAt t w).s = (streamAt s w).s ∧ (streamAt t w).p = (streamAt s w).p ∧
      t.mem.cells = s.mem.cells := by
  have hcmp := cmp_placesOf hp
  obtain ⟨v, hcoherent, honly, hsame⟩ := coherentRead_of_readable (w := w) (k := slotKey w) (hnone.of_cache (by rw [hcmp])) (sameMemory_placesOf hp)
    (ctxAt_of_cmp hcmp _) hread .ldv 0
  refine ⟨modStream (slotKey w) w.eng.val (fun _ => nextPc { loadLanes f (laneAddrs (streamAt s w) f A)
    (fun va => leNat (readBytes p (p.flatMap (fun e => lineBytes s (lineNo 1 e.2))) va 4)) (streamAt s w) with got := none }) v, ?_, ?_⟩
  · refine congrArg Host.Outcome.next ((memAccess_of_placed hready hlegal haligned hp haddrs _).trans ?_)
    rw [hspace]
    simp only [hcoherent]
    rfl
  · have hat := streamAt_modStream w (fun _ => nextPc { loadLanes f (laneAddrs (streamAt s w) f A)
      (fun va => leNat (readBytes p (p.flatMap (fun e => lineBytes s (lineNo 1 e.2))) va 4)) (streamAt s w) with got := none }) v
    refine ⟨lanesHold_of_loadLanes (A := A) (v := fun va => leNat (readBytes p (p.flatMap (fun e => lineBytes s (lineNo 1 e.2))) va 4))
      (by rw [hat]; rfl) fun i hon => congrArg (BitVec.ofNat 32) ?_, by rw [hat]; rfl, by rw [hat]; rfl, by rw [hat]; rfl, ?_⟩
    · have haligned' := haligned i hon
      exact leNat_readBytes hlines (hp.line_mem hon) (by omega)
    · exact (congrArg Mem.cells (modStream_only _ _ _ v .mem (by decide))).trans hsame.cells

end

end

/-! ### The word of an acquire load -/

theorem lda_issues : Issues w (memLegal f && (!true || decide (memScope f ≤ 5))) s (.memLda w f) := ⟨_, rfl⟩

theorem wordLegal (hlegal : memLegal f = true) (hscope : memScope f ≤ 5) : (memLegal f && (!true || decide (memScope f ≤ 5))) = true := by
  rw [hlegal, decide_eq_true hscope]
  rfl

theorem NoLines.acquireSteps {core : Nat} (h : NoLines core s) (scope : Nat) : acquireSteps core scope s = s := by
  rw [Machine.acquireSteps, h.coreLines, List.foldl_nil, ite_self]

theorem linesOf_singleton (va : Nat) : linesOf [va] = [va / 128] := rfl

section
variable (hready : ready s w = true) (hlegal : memLegal f = true) (hscope : memScope f ≤ 5)
include hready hlegal hscope

theorem execMemLda_of_misaligned (hmis : baseAddr (streamAt s w) f 21 % 8 ≠ 0) :
    ∃ t : State, exec (.memLda w f) s = .next t ∧ FaultsWith w 3 s t := by
  refine ⟨ctxFault (slotKey w) fAlign (baseAddr (streamAt s w) f 21) (countStep w s), ?_, faultsWith_countStep hready _ _⟩
  exact congrArg Host.Outcome.next ((issue_of_ready hready (wordLegal hlegal hscope) _).trans (if_pos hmis))

theorem wordAccess_of_placed {need : Nat} (haligned : baseAddr (streamAt s w) f 21 % 8 = 0) {p : List (Nat × Nat)}
    (hp : (placesOf w f need [(0, baseAddr (streamAt s w) f 21)] s).1 = some p)
    (g : Nat → Stream → Nat → List (Nat × Nat) → State → State) : wordAccess w f need true g s =
      g (slotKey w) (streamAt s w) (baseAddr (streamAt s w) f 21) p (placesOf w f need [(0, baseAddr (streamAt s w) f 21)] s).2 := by
  have hplaces : (locate w (slotKey w) (memSpace f) need [baseAddr (streamAt s w) f 21 / 128] (countStep w s)).1 = some p := hp
  have hnot : ¬(baseAddr (streamAt s w) f 21 % 8 ≠ 0) := not_not.mpr haligned
  rw [wordAccess, issue_of_ready hready (wordLegal hlegal hscope)]
  simp only [if_neg hnot, hplaces]
  rfl

theorem execMemLda_of_readable {va : Nat} (hva : va = baseAddr (streamAt s w) f 21) (haligned : va % 8 = 0) {p : List (Nat × Nat)}
    (hp : (placesOf w f 1 [(0, va)] s).1 = some p) (hspace : memSpace f = 1) (hnone : NoLines w.core.val s)
    (hreleases : s.bep.releases = []) (hlines : ∀ e ∈ p, e.2 % 128 = 0) (hread : ∀ e ∈ p, Readable s (slotKey w) e) :
    ∃ t : State, exec (.memLda w f) s = .next t ∧
      (∀ r : BitVec 5, sReg (streamAt t w) r = if r = f.d ∧ r ≠ 0
        then BitVec.ofNat 64 (fieldAt (lineBytes s (lineNo 1 (placed p va))) (va % 128) 8) else sReg (streamAt s w) r) ∧
      (streamAt t w).pc = (streamAt s w).pc + 1 ∧ (streamAt t w).v = (streamAt s w).v ∧ (streamAt t w).p = (streamAt s w).p ∧
      t.mem.cells = s.mem.cells := by
  subst hva
  have hcmp := cmp_placesOf hp
  have hnone' : NoLines w.core.val (placesOf w f 1 [(0, baseAddr (streamAt s w) f 21)] s).2 := hnone.of_cache (by rw [hcmp])
  obtain ⟨v, hcoherent, honly, hsame⟩ := coherentRead_of_readable (w := w) (k := slotKey w) hnone' (sameMemory_placesOf hp)
    (ctxAt_of_cmp hcmp _) hread .lda (memScope f)
  have hbep : v.bep = s.bep := (honly .bep (by decide)).trans
    (((placesOf_spec hp).2.only .bep (by decide)).trans (countStep_only w s .bep (by decide)))
  have hvcmp : v.cmp = s.cmp := (honly .cmp (by decide)).trans hcmp
  have hacquire (line scope tenant : Nat) (who : Agent) : checkAcquire line scope tenant who v = (false, v) :=
    checkAcquire_of_no_release (by rw [hbep, hreleases]) line scope tenant who
  have hline : baseAddr (streamAt s w) f 21 / 128 ∈ p.map Prod.fst := by
    rw [(placesOf_spec hp).1]
    exact List.mem_singleton_self _
  have hword := leNat_readBytes (s := s) (n := 8) hlines hline (by omega)
  obtain ⟨word, hbytes⟩ : ∃ word, word = BitVec.ofNat 64
    (leNat (readBytes p (p.flatMap (fun e => lineBytes s (lineNo 1 e.2))) (baseAddr (streamAt s w) f 21) 8)) := ⟨_, rfl⟩
  have hsteps : acquireSteps w.core.val (memScope f) (modStream (slotKey w) w.eng.val (fun x => nextPc (setS f.d word { x with got := none })) v) =
      modStream (slotKey w) w.eng.val (fun x => nextPc (setS f.d word { x with got := none })) v :=
    NoLines.acquireSteps (hnone.of_cache (by rw [(modStream_slotsOnly _ _ _ v).cache, hvcmp])) (memScope f)
  have hat : streamAt (modStream (slotKey w) w.eng.val (fun x => nextPc (setS f.d word { x with got := none })) v) w =
      nextPc (setS f.d word { streamAt s w with got := none }) := by rw [streamAt_modStream, streamAt_of_cmp hvcmp]
  have hset := setS_eq f.d word { streamAt s w with got := none }
  refine ⟨modStream (slotKey w) w.eng.val (fun x => nextPc (setS f.d word { x with got := none })) v, ?_, fun r => ?_, ?_, ?_, ?_, ?_⟩
  · refine congrArg Host.Outcome.next ((wordAccess_of_placed hready hlegal hscope haligned hp _).trans ?_)
    simp only [hspace, hcoherent, if_true, hacquire, ← hbytes]
    exact hsteps
  · rw [hat]
    refine (sReg_setS f.d r word { streamAt s w with got := none }).trans ?_
    rw [hbytes, hword]
    rfl
  · rw [hat, hset]
    rfl
  · rw [hat, hset]
    rfl
  · rw [hat, hset]
    rfl
  · exact (congrArg Mem.cells (modStream_only _ _ _ v .mem (by decide))).trans hsame.cells

end

end Sys2Proof.Machine
end

section

namespace Sys2Proof.Machine

open Sys2Proof

/-- Settles O40: an access names the places of its lines; the elements come from the lines held, or from memory where the core holds
none, and nothing but the stream's registers shows it. -/
theorem streamLoadsFromMemory : Obligations.StreamLoadsFromMemory := by
  unfold Obligations.StreamLoadsFromMemory
  rintro w f s _ rfl word hword vec hvec gather hgather
  have hbase : word = baseAddr (streamAt s w) f 21 := hword
  have hvecs : vectorAddrs (streamAt s w) f 21 = laneAddrs (streamAt s w) f vec := by
    rw [hvec, hbase]
    rfl
  have hgathers : gatherAddrs (streamAt s w) f = laneAddrs (streamAt s w) f gather := by
    rw [hgather]
    rfl
  have hld : Issues w (memLegal f) s (.memLd w f) := memAccess_issues rfl
  have hldg : Issues w (memLegal f) s (.memLdg w f) := memAccess_issues rfl
  have hldv : Issues w (memLegal f) s (.memLdv w f) := memAccess_issues rfl
  refine ⟨fun hready hlegal => ⟨?_, fun hscope => ⟨fun hmis => ?_,
    fun haligned p hp hspace hnone hreleases hlines hread => ?_⟩, fun hscope => ?_⟩, ?_⟩
  · simp only [List.forall_mem_cons]
    refine ⟨⟨fun i hon hmis => ⟨_, rfl, memAccess_of_misaligned hready hlegal hvecs _ hon hmis⟩, fun haligned p hp => ⟨fun _ hheld => ?_, ?_⟩⟩,
      ⟨fun i hon hmis => ⟨_, rfl, memAccess_of_misaligned hready hlegal hgathers _ hon hmis⟩, fun haligned p hp => ⟨fun _ hheld => ?_, ?_⟩⟩,
      ⟨fun i hon hmis => ⟨_, rfl, memAccess_of_misaligned hready hlegal hvecs _ hon hmis⟩, fun haligned p hp => ⟨fun hne => absurd rfl hne, ?_⟩⟩,
      List.forall_mem_nil _⟩
    · exact ⟨_, rfl, memLoad_of_held (A := vec) hready hlegal haligned hp hvecs hheld rfl⟩
    · exact fun hspace hnone hlines hread => ⟨_, rfl, memLoad_of_readable (A := vec) hready hlegal haligned hp hspace hnone hlines hread hvecs rfl⟩
    · exact ⟨_, rfl, memLoad_of_held (A := gather) hready hlegal haligned hp hgathers hheld rfl⟩
    · exact fun hspace hnone hlines hread =>
        ⟨_, rfl, memLoad_of_readable (A := gather) hready hlegal haligned hp hspace hnone hlines hread hgathers rfl⟩
    · exact fun hspace hnone hlines hread => execMemLdv_of_readable (A := vec) hready hlegal haligned hp hspace hnone hlines hread hvecs
  · exact execMemLda_of_misaligned hready hlegal hscope (hbase ▸ hmis)
  · exact execMemLda_of_readable hready hlegal hscope hbase haligned hp hspace hnone hreleases hlines hread
  · refine lda_issues.faults hready ?_
    rw [decide_eq_false (Nat.not_le.mpr hscope), Bool.not_true, Bool.false_or, Bool.and_false]
  · have hillegal {y : Instr} (h : Issues w (memLegal f) s y) : (ready s w = true → memLegal f = false → ∃ t : State, exec y s = .next t ∧
        FaultsWith w 1 s t) ∧ (ready s w = false → exec y s = .next s) := ⟨fun hready hlegal => h.faults hready hlegal, h.idle⟩
    simp only [List.forall_mem_cons]
    refine ⟨hillegal hld, hillegal hldg, hillegal hldv, ⟨fun hready hlegal => lda_issues.faults hready ?_, lda_issues.idle⟩, List.forall_mem_nil _⟩
    rw [hlegal, Bool.false_and]

end Sys2Proof.Machine
end

section
/-! SUPPORT. Window and shard slots: what a slot reads after each operation on it, binding and unbinding, and the reduced cells
that the departure store takes (R311, R312, R333). -/

namespace Sys2Proof.Machine

open Sys2Proof

/-! ### Slots -/

@[simp] theorem winAt_setWin_same (i : Nat) (w : Win) (s : State) : winAt (setWin i w s) i = w :=
  mapGetD_mapSet_same s.coll.wins i w {}

@[simp] theorem winAt_modWin_same (i : Nat) (f : Win → Win) (s : State) : winAt (modWin i f s) i = f (winAt s i) :=
  winAt_setWin_same i _ s

@[simp] theorem shardAt_setShard_same (j : Nat) (x : Shard) (s : State) : shardAt (setShard j x s) j = x :=
  mapGetD_mapSet_same s.coll.shards j x {}

theorem Only.winAt {l : List Part} {s t : State} (h : Only l s t) (g : Part.coll ∉ l) (i : Nat) : winAt t i = winAt s i :=
  congrArg (fun c : Coll => mapGetD c.wins i {}) (h .coll g)

theorem Only.shardAt {l : List Part} {s t : State} (h : Only l s t) (g : Part.coll ∉ l) (j : Nat) : shardAt t j = shardAt s j :=
  congrArg (fun c : Coll => mapGetD c.shards j {}) (h .coll g)

theorem setWin_only (i : Nat) (w : Win) (s : State) : Only [.coll] s (setWin i w s) :=
  setWin_parts _ _ (List.Subset.refl _) (.refl _ s)

theorem modWin_only (i : Nat) (f : Win → Win) (s : State) : Only [.coll] s (modWin i f s) := setWin_only i _ s

/-! ### WINDOW_BIND (R311) -/

theorem windowWrite_one (src : Route) (i : Nat) (s : State) : windowWrite src i 1 s = windowBind src i s := if_pos rfl

theorem exec_windowBind_one (src : Route) (i : Fin 64) (s : State) :
    exec (.windowBind src i 1) s = .next (windowBind src i.val (beginOp s)) :=
  congrArg Host.Outcome.next (windowWrite_one src i.val (beginOp s))

theorem windowBind_of_refused {src : Route} {i : Nat} {s : State} {code off n : Nat}
    (h : bindRefusal s i (winAt s i).desc = some (code, off, n)) : windowBind src i s =
      refuseRule (report src (0x5120 + i) 2 off 3 (fieldAt (winAt s i).desc off n) 0
        (bump 0x5100 0x1C (modWin i (fun w => { w with refusal := code }) s))) := by
  simp only [windowBind, h]

/-- A slot just bound: its result record starts anew, and SEQ goes on. -/
def boundWin (w : Win) : Win := { state := 1, desc := w.desc, accCount := accumulatorsNeeded w.desc, resSeq := w.resSeq }

theorem windowBind_of_legal {src : Route} {i : Nat} {s : State} (h : bindRefusal s i (winAt s i).desc = none) :
    windowBind src i s = setWin i (boundWin (winAt s i)) s := by
  simp only [windowBind, h]
  rfl

theorem winAt_windowBind_of_refused {src : Route} {i : Nat} {s : State} {code off n : Nat}
    (h : bindRefusal s i (winAt s i).desc = some (code, off, n)) :
    winAt (windowBind src i s) i = { winAt s i with refusal := code } := by
  rw [windowBind_of_refused h]
  refine ((report_only _ _ _ _ _ _ _ _).winAt (by decide) i).trans (((bump_only _ _ _).winAt (by decide) i).trans ?_)
  exact winAt_modWin_same i _ s

/-- What a bind judges lies outside the outcome of the operation. -/
theorem bindRefusal_beginOp (s : State) (i : Nat) (d : Bytes) : bindRefusal (beginOp s) i d = bindRefusal s i d := rfl

theorem exec_windowBind_one_of_refused (src : Route) (i : Fin 64) {s : State} {code off n : Nat}
    (h : bindRefusal s i.val (winAt s i.val).desc = some (code, off, n)) :
    ∃ t : State, exec (.windowBind src i 1) s = .next t ∧ winAt t i.val = { winAt s i.val with refusal := code } ∧
      t.dict.abort = 0x08000020 ∧ t.dict.status = 2 := by
  have hrefused : bindRefusal (beginOp s) i.val (winAt (beginOp s) i.val).desc = some (code, off, n) := (bindRefusal_beginOp ..).trans h
  refine ⟨_, exec_windowBind_one src i s, winAt_windowBind_of_refused hrefused, ?_⟩
  rw [windowBind_of_refused hrefused]
  exact ⟨rfl, rfl⟩

theorem exec_windowBind_one_of_legal (src : Route) (i : Fin 64) {s : State} (h : bindRefusal s i.val (winAt s i.val).desc = none) :
    ∃ t : State, exec (.windowBind src i 1) s = .next t ∧ winAt t i.val = boundWin (winAt s i.val) ∧ t.dict.status = 0 ∧
      Only [.coll, .dict] s t := by
  have hlegal : bindRefusal (beginOp s) i.val (winAt (beginOp s) i.val).desc = none := (bindRefusal_beginOp ..).trans h
  refine ⟨_, exec_windowBind_one src i s, ?_⟩
  rw [windowBind_of_legal hlegal]
  exact ⟨winAt_setWin_same .., rfl, ((beginOp_only s).mono (by decide)).trans ((setWin_only _ _ _).mono (by decide))⟩

/-! ### WINDOW_UNBIND (R311, R333) -/

theorem exec_windowUnbind (src : Route) (i : Fin 64) (v : BitVec 8) (s : State) :
    exec (.windowUnbind src i v) s = .next (windowWrite src i.val v.toNat (beginOp s)) := rfl

/-- A write of another value than 1 unbinds, once its clamp is reported. -/
theorem windowWrite_of_ne_one (src : Route) (i : Nat) {v : Nat} (h : v ≠ 1) (s : State) :
    ∃ u : State, Only [.dict, .host, .sent] s u ∧ windowWrite src i v s = windowUnbind i u :=
  ⟨_, (Only.refl _ s).ite (clamped_only _ _ _ _ _ _ _), if_neg h⟩

/-- A key that a filter refuses is not listed. -/
theorem mapGet_filter_of_refused {α : Type} {p : Nat × α → Bool} {k : Nat} (h : ∀ v, p (k, v) = false) (m : NMap α) :
    mapGet (m.filter p) k = none := by
  induction m with
  | nil => rfl
  | cons e r ih =>
    obtain ⟨j, v⟩ := e
    rw [List.filter_cons]
    split
    case isTrue hp =>
      have hne : j ≠ k := by
        rintro rfl
        rw [h v] at hp
        exact Bool.false_ne_true hp
      exact (if_neg hne).trans ih
    case isFalse => exact ih

theorem accAt_clearAccs (i : Nat) {j : Nat} (h : j < 2 ^ 20) (s : State) : accAt (clearAccs i s) ((64 + i) * 2 ^ 20 + j) = {} := by
  have hin : winAccs i ≤ (64 + i) * 2 ^ 20 + j ∧ (64 + i) * 2 ^ 20 + j < winAccs (i + 1) := by
    simp only [winAccs]
    omega
  have hnone : mapGet (clearAccs i s).cmp.accs ((64 + i) * 2 ^ 20 + j) = none :=
    mapGet_filter_of_refused (fun v => by simp only [hin.1, hin.2, decide_true, Bool.and_self, Bool.not_true]) s.cmp.accs
  rw [accAt, mapGetD, hnone, Option.getD_none]

theorem winAt_freeFormed (i : Nat) (s : State) : winAt (freeFormed i s) i = { winAt s i with formed := [] } :=
  winAt_modWin_same i _ _

theorem winAt_unbind (i : Nat) (s : State) : winAt (unbind i s) i = { winAt s i with state := 0, running := none, formed := [] } := by
  rw [unbind, winAt_modWin_same, winAt_freeFormed]
  rfl

theorem accAt_unbind (i : Nat) {j : Nat} (h : j < 2 ^ 20) (s : State) : accAt (unbind i s) ((64 + i) * 2 ^ 20 + j) = {} :=
  accAt_clearAccs i h s

theorem windowUnbind_of_free {i : Nat} {s : State} (h : (winAt s i).state = 0) : windowUnbind i s = s := if_pos h

theorem windowUnbind_of_running {i : Nat} {s : State} (hfree : (winAt s i).state ≠ 0) (hended : (winAt s i).state ≠ 3)
    (hrun : (winAt s i).running.isSome = true) : windowUnbind i s = setWin i { winAt s i with state := 2 } s := by
  simp only [windowUnbind, if_neg hfree, hrun, bne_iff_ne.mpr hended, Bool.and_self, if_true]

theorem windowUnbind_of_idle {i : Nat} {s : State} (hfree : (winAt s i).state ≠ 0)
    (hidle : (winAt s i).state = 3 ∨ (winAt s i).running = none) : windowUnbind i s = unbind i s := by
  have hstop : ((winAt s i).running.isSome && (winAt s i).state != 3) = false := by
    rcases hidle with h | h <;> simp [h]
  simp only [windowUnbind, if_neg hfree, hstop, Bool.false_eq_true, if_false]

/-- The three outcomes of an unbind: a slot that was free, one whose step runs on, and one freed. -/
theorem exec_windowUnbind_of_ne_one (src : Route) (i : Fin 64) {v : BitVec 8} (hv : v ≠ 1) (s : State) :
    ∃ t : State, exec (.windowUnbind src i v) s = .next t ∧
      ((winAt s i.val).state = 0 → t.coll = s.coll) ∧
      ((winAt s i.val).state ≠ 0 → (winAt s i.val).state ≠ 3 → (winAt s i.val).running.isSome = true →
        winAt t i.val = { winAt s i.val with state := 2 } ∧ t.cmp = s.cmp) ∧
      ((winAt s i.val).state ≠ 0 → ((winAt s i.val).state = 3 ∨ (winAt s i.val).running = none) →
        winAt t i.val = { winAt s i.val with state := 0, running := none, formed := [] } ∧
        ∀ j : Nat, j < 2 ^ 20 → accAt t ((64 + i.val) * 2 ^ 20 + j) = { n := 0, st := .finite, ovf := false }) := by
  have hne : v.toNat ≠ 1 := fun h => hv (BitVec.eq_of_toNat_eq h)
  obtain ⟨u, hu, hwrite⟩ := windowWrite_of_ne_one src i.val hne (beginOp s)
  have hwin : winAt u i.val = winAt s i.val := hu.winAt (by decide) i.val
  refine ⟨windowUnbind i.val u, (exec_windowUnbind src i v s).trans (congrArg _ hwrite), ?_⟩
  rw [← hwin]
  refine ⟨fun hfree => ?_, fun hfree hended hrun => ?_, fun hfree hidle => ?_⟩
  · rw [windowUnbind_of_free hfree]
    exact hu .coll (by decide)
  · rw [windowUnbind_of_running hfree hended hrun]
    exact ⟨winAt_setWin_same .., hu .cmp (by decide)⟩
  · rw [windowUnbind_of_idle hfree hidle]
    exact ⟨winAt_unbind i.val u, fun j hj => accAt_unbind i.val hj u⟩

/-! ### SERVICE_CELL_FORMED of a reduction (R312) -/

theorem exec_serviceCellFormed (i : Fin 64) (chunk : BitVec 28) (cell : BitVec 4) (s : State) :
    exec (.serviceCellFormed i chunk cell) s = .next (serviceCell i.val chunk.toNat cell.toNat s) := rfl

section

variable {i chunk cell : Nat} {s : State}

theorem serviceCell_of_idle (h : (winAt s i).running = none) : serviceCell i chunk cell s = s := by
  simp only [serviceCell, h, Option.isNone_none, if_true]

theorem serviceCell_of_reduction (hrun : (winAt s i).running.isSome = true)
    (hop : dOp (winAt s i).desc = 1 ∨ dOp (winAt s i).desc = 2 ∨ dOp (winAt s i).desc = 8) :
    serviceCell i chunk cell s = formReduced i chunk cell s := by
  obtain ⟨step, hstep⟩ := Option.isSome_iff_exists.mp hrun
  simp only [serviceCell, hstep, Option.isNone_some, Bool.false_eq_true, if_false, if_pos hop]

theorem formReduced_of_incomplete (h : (mapGetD (winAt s i).red (cellKey chunk cell) {}).taken < dFanin (winAt s i).desc ∨
    dFanin (winAt s i).desc = 0 ∨ (mapGetD (winAt s i).red (cellKey chunk cell) {}).formed = true) : formReduced i chunk cell s = s :=
  if_pos (or_left_comm.mp h)

theorem serviceCell_of_incomplete (hop : dOp (winAt s i).desc = 1 ∨ dOp (winAt s i).desc = 2 ∨ dOp (winAt s i).desc = 8)
    (h : (mapGetD (winAt s i).red (cellKey chunk cell) {}).taken < dFanin (winAt s i).desc ∨ dFanin (winAt s i).desc = 0 ∨
      (mapGetD (winAt s i).red (cellKey chunk cell) {}).formed = true) : serviceCell i chunk cell s = s := by
  cases hrun : (winAt s i).running with
  | none => exact serviceCell_of_idle hrun
  | some step => exact (serviceCell_of_reduction (by rw [hrun]; rfl) hop).trans (formReduced_of_incomplete h)

/-- A cell of the slot is taken as formed. -/
def markFormed (key : Nat) (w : Win) : Win := { w with red := mapSet w.red key { mapGetD w.red key {} with formed := true } }

theorem formReduced_of_complete (hop : dOp (winAt s i).desc ≠ 8) (hfanin : 0 < dFanin (winAt s i).desc)
    (htaken : dFanin (winAt s i).desc ≤ (mapGetD (winAt s i).red (cellKey chunk cell) {}).taken)
    (hformed : (mapGetD (winAt s i).red (cellKey chunk cell) {}).formed = false) :
    formReduced i chunk cell s =
      formCell i chunk cell (codeBytes (inSize (dIn (winAt s i).desc)) (reducedCodes s i (winAt s i).desc chunk cell
        (mapGetD (winAt s i).red (cellKey chunk cell) {}) (dIn (winAt s i).desc))) false
        (setWin i (markFormed (cellKey chunk cell) (winAt s i)) s) := by
  have hcomplete : ¬(dFanin (winAt s i).desc = 0 ∨ (mapGetD (winAt s i).red (cellKey chunk cell) {}).taken < dFanin (winAt s i).desc ∨
      (mapGetD (winAt s i).red (cellKey chunk cell) {}).formed = true) := by
    simp only [hformed, Bool.false_eq_true, or_false]
    omega
  simp only [formReduced, if_neg hcomplete, if_neg hop]
  rfl

theorem mapGet_formed_formCell_same (b : Bytes) (pad : Bool) :
    mapGet (winAt (formCell i chunk cell b pad s) i).formed (cellKey chunk cell) = some { payload := b, pad := pad } := by
  rw [formCell, winAt_modWin_same, mapGet_mapSet_same]

end

theorem inSize_of_fmt {ty : Nat} {f : Fmt} (h : fmtOf ty 0 = some f) : inSize ty = if ty = 2 then 4 else 2 := by
  have hne : ty ≠ 0 := by
    rintro rfl
    cases h
  simp only [inSize, hne, false_or]

/-- An exact sum in a floating-point TYPE leaves as each accumulator rounded once. -/
theorem codeBytes_reducedCodes {s : State} {i : Nat} {d : Bytes} {chunk cell : Nat} {r : RedCell} {f : Fmt} (hred : dRed d = 0)
    (hfmt : fmtOf (dIn d) 0 = some f) : codeBytes (inSize (dIn d)) (reducedCodes s i d chunk cell r (dIn d)) =
      (List.range (256 / (if dIn d = 2 then 4 else 2))).flatMap (fun k => natLe (if dIn d = 2 then 4 else 2)
        (accRound f .rne (accAt s (accOf s i d chunk cell k)))) := by
  have hne : dIn d ≠ 0 := fun h0 => by
    rw [h0] at hfmt
    cases hfmt
  simp only [codeBytes, reducedCodes, if_pos hred, if_neg hne, hfmt, inSize_of_fmt hfmt, List.flatMap_map]
  rfl

/-- A complete cell of a reduction is formed with its exact sums rounded, and no accumulator moves. -/
theorem exec_serviceCellFormed_of_complete (i : Fin 64) (chunk : BitVec 28) (cell : BitVec 4) {s : State} {f : Fmt}
    (hrun : (winAt s i.val).running.isSome = true) (hop : dOp (winAt s i.val).desc = 1 ∨ dOp (winAt s i.val).desc = 2)
    (hfanin : 0 < dFanin (winAt s i.val).desc)
    (htaken : dFanin (winAt s i.val).desc ≤ (mapGetD (winAt s i.val).red (cellKey chunk.toNat cell.toNat) {}).taken)
    (hformed : (mapGetD (winAt s i.val).red (cellKey chunk.toNat cell.toNat) {}).formed = false)
    (hred : dRed (winAt s i.val).desc = 0) (hfmt : fmtOf (dIn (winAt s i.val).desc) 0 = some f) :
    ∃ t : State, exec (.serviceCellFormed i chunk cell) s = .next t ∧
      (mapGet (winAt t i.val).formed (cellKey chunk.toNat cell.toNat)).map (fun f => (f.payload, f.sent)) =
        some ((List.range (256 / (if dIn (winAt s i.val).desc = 2 then 4 else 2))).flatMap (fun k =>
          natLe (if dIn (winAt s i.val).desc = 2 then 4 else 2)
            (accRound f .rne (accAt s (accOf s i.val (winAt s i.val).desc chunk.toNat cell.toNat k)))), false) ∧ t.cmp = s.cmp := by
  have hstep := serviceCell_of_reduction (chunk := chunk.toNat) (cell := cell.toNat) hrun (or_assoc.mp (.inl hop))
  have hcell := formReduced_of_complete (by omega) hfanin htaken hformed
  refine ⟨_, (exec_serviceCellFormed i chunk cell s).trans (congrArg _ (hstep.trans hcell)), ?_, rfl⟩
  rw [mapGet_formed_formCell_same, codeBytes_reducedCodes hred hfmt]
  rfl

end Sys2Proof.Machine
end

section
/-! SUPPORT. The commit tick of a window: what closes its step, and what the result record then holds (R315, R316, R318, R333). -/

namespace Sys2Proof.Machine

open Sys2Proof

theorem exec_commitTick (i : Fin 64) (s : State) : exec (.commitTick i) s = .next (commitTick i.val s) := rfl

theorem commitTick_of_idle {i : Nat} {s : State} (h : (winAt s i).running = none) : commitTick i s = s := by
  simp only [commitTick, h]

/-! ### The failures that a commit tick records (R315, R318, R321) -/

/-- A slot whose running step has failed with a cause. -/
def failWin (cause : Nat) (w : Win) : Win :=
  { w with
    stepRec := { w.stepRec with
      failed := true, cause := if w.stepRec.failed then w.stepRec.cause else cause, poison := lowerChunk w.stepRec.poison none }
    uncarried := w.uncarried || w.carried.isSome
    failedAfter := w.failedAfter || w.verdict.isSome }

/-- A member newly lost fails the step and every later one. -/
def takeLoss (w : Win) : Win := if w.lostNow then failWin 8 { w with memberLost := true, lostNow := false } else w

/-- A step without a verdict fails. -/
def missVerdict (w : Win) : Win := if w.verdict.isNone then failWin 7 w else w

/-- The slot as its step is judged. -/
def judgedWin (w : Win) : Win := missVerdict (takeLoss w)

/-- Does the step commit? -/
def commits (w : Win) : Bool :=
  match w.verdict with
  | some v => !v.failed && !w.failedAfter
  | none => false

/-- What no failure of the step changes in its slot. -/
def unfailedWin (w : Win) : Win := { w with stepRec := {}, uncarried := false, failedAfter := false, memberLost := false, lostNow := false }

theorem unfailedWin_takeLoss (w : Win) : unfailedWin (takeLoss w) = unfailedWin w := by
  unfold takeLoss
  split <;> rfl

theorem takeLoss_running (w : Win) : (takeLoss w).running = w.running := by
  unfold takeLoss
  split <;> rfl

theorem unfailedWin_missVerdict (w : Win) : unfailedWin (missVerdict w) = unfailedWin w := by
  unfold missVerdict
  split <;> rfl

theorem unfailedWin_judgedWin (w : Win) : unfailedWin (judgedWin w) = unfailedWin w := (unfailedWin_missVerdict _).trans (unfailedWin_takeLoss w)

/-- A field that no failure changes reads the same where the step is judged. -/
theorem judgedWin_field {α : Type} (f : Win → α) (hf : ∀ w, f (unfailedWin w) = f w) (w : Win) : f (judgedWin w) = f w :=
  (hf _).symm.trans ((congrArg f (unfailedWin_judgedWin w)).trans (hf w))

/-- A step commits on a `DAT` verdict with no failure after it and no member newly lost. -/
theorem commits_judgedWin (w : Win) : commits (judgedWin w) = (w.verdict.any (fun v => !v.failed) && !w.failedAfter && !w.lostNow) := by
  cases hverdict : w.verdict with
  | none =>
    have hstill : (judgedWin w).verdict = none := (judgedWin_field Win.verdict (fun _ => rfl) w).trans hverdict
    simp only [commits, hstill, Option.any_none, Bool.false_and]
  | some v => cases hlost : w.lostNow <;> simp [commits, judgedWin, missVerdict, takeLoss, failWin, hverdict, hlost]

/-- A step without a verdict and without another failure has cause 7. -/
theorem judgedWin_cause {w : Win} (hverdict : w.verdict = none) (hfailed : w.stepRec.failed = false) (hlost : w.lostNow = false) :
    (judgedWin w).stepRec.cause = 7 := by
  simp [judgedWin, missVerdict, takeLoss, failWin, hverdict, hfailed, hlost]

/-! ### The same of the machine -/

theorem failStep_of_running {i : Nat} {s : State} (h : (winAt s i).running.isSome = true) (cause : Nat) :
    failStep i cause none s = setWin i (failWin cause (winAt s i)) s := by
  obtain ⟨step, hrun⟩ := Option.isSome_iff_exists.mp h
  simp only [failStep, hrun, Option.isNone_some, Bool.false_eq_true, if_false]
  rw [failWin, hrun]

theorem failStep_only (i cause : Nat) (chunk : Option Nat) (s : State) : Only [.coll] s (failStep i cause chunk s) :=
  failStep_parts _ _ _ (List.Subset.refl _) (.refl _ s)

/-- A member newly lost, at the commit tick of slot `i`. -/
def noteLoss (i : Nat) (s : State) : State :=
  if (winAt s i).lostNow then failStep i 8 none (modWin i (fun w => { w with memberLost := true, lostNow := false }) s) else s

/-- No verdict held, at the commit tick of slot `i`. -/
def noteSilence (i : Nat) (s : State) : State := if (winAt s i).verdict.isNone then failStep i 7 none s else s

section

variable {i : Nat} {s : State} (hrun : (winAt s i).running.isSome = true)
include hrun

theorem winAt_noteLoss : winAt (noteLoss i s) i = takeLoss (winAt s i) := by
  unfold noteLoss takeLoss
  split
  · rw [failStep_of_running (by rw [winAt_modWin_same]; exact hrun), winAt_setWin_same, winAt_modWin_same]
  · rfl

theorem winAt_noteSilence : winAt (noteSilence i s) i = missVerdict (winAt s i) := by
  unfold noteSilence missVerdict
  split
  · rw [failStep_of_running hrun, winAt_setWin_same]
  · rfl

theorem winAt_noteSilence_noteLoss : winAt (noteSilence i (noteLoss i s)) i = judgedWin (winAt s i) := by
  have hloss := winAt_noteLoss hrun
  rw [winAt_noteSilence (by rw [hloss, takeLoss_running, hrun]), hloss, judgedWin]

end

theorem noteSilence_noteLoss_only (i : Nat) (s : State) : Only [.coll] s (noteSilence i (noteLoss i s)) := by
  have hloss : Only [.coll] s (noteLoss i s) := ((modWin_only _ _ _).trans (failStep_only _ _ _ _)).ite (.refl _ s)
  exact (hloss.trans (failStep_only _ _ _ _)).ite hloss

/-! ### The conclusion of a step (R318, R329, R333) -/

/-- The result record of the step that slot `w` concludes at tick `ft`. -/
def resultWin (step : Nat) (split : Bool) (ft : Nat) (j w : Win) : Win :=
  { w with
    running := none, resSeq := (w.resSeq + 1) % 2 ^ 32, valid := true, committed := commits j, split := split
    resCause := (conclusion j (commits j)).cause, resAbsent := w.stepRec.absent, resStep := step
    lastCommitted := if commits j then step else w.lastCommitted
    firstAbsent := ((conclusion j (commits j)).first.map (fun x => x.2)).getD 0xFFFF
    poisonChunk := (conclusion j (commits j)).poison.getD 0xFFFFFFFF, commitFt := ft
    committedSteps := if commits j then min 0xFFFFFFFF (w.committedSteps + 1) else w.committedSteps
    failedSteps := if commits j then w.failedSteps else min 0xFFFFFFFF (w.failedSteps + 1)
    resDropped := w.stepRec.dropped, badIndex := w.badNow, drops := w.dropsNow, absentMap := w.absentNow }

/-- A split step is counted and recorded. -/
def noteSplit (step : Nat) (split : Bool) (w : Win) (s : State) : State :=
  if split then log 0x5101 [dWindow w.desc, step, (conclusion w (commits w)).cause, 1] (bump 0x5100 0x18 s) else s

/-- Counters and events of a step concluded; a step that commits has its staging applied. -/
def settleStep (step : Nat) (split : Bool) (w : Win) (s : State) : State :=
  if commits w then bump 0x5100 0x10 (applyStaging w.desc (noteSplit step split w s))
  else log 0x5101 [dWindow w.desc, step, (conclusion w (commits w)).cause] (bump 0x5100 0x11 (noteSplit step split w s))

/-- The slot after its step: freed where it was unbinding, ended after its last step. -/
def leaveStep (i : Nat) (w : Win) (last : Bool) (s : State) : State :=
  if w.state = 2 then unbind i s
  else if last then modWin i (fun w => { w with state := 3 }) (freeFormed i (clearAccs i s))
  else s

/-- The interrupt of a slot's result. -/
def signalResult (i : Nat) (s : State) : State := if s.host.winIrq.getLsbD i then signal (32 + i) s else s

/-- The tick at which a slot's step is judged. -/
def commitAt (w : Win) (step round : Nat) : Nat := dStart w.desc + (step - dFirst w.desc) * round + dCommit w.desc

/-- The machine as the step of slot `i` is judged. -/
def judgeStep (i step : Nat) (s : State) : State := noteSilence i (noteLoss i (advanceTo (commitAt (winAt s i) step s.time.round) s))

/-- COMMIT_TICK of a running step, in its stages. -/
theorem commitTick_of_running {i step : Nat} {s : State} (hrun : (winAt s i).running = some step) :
    ∃ (split last : Bool) (v : State), v = settleStep step split (winAt (judgeStep i step s) i) (judgeStep i step s) ∧
      commitTick i s = leaveStep i (winAt (judgeStep i step s) i) last
        (signalResult i (modWin i (resultWin step split v.time.ft (winAt (judgeStep i step s) i)) v)) := by
  refine ⟨(winAt (noteLoss i (advanceTo (commitAt (winAt s i) step s.time.round) s)) i).uncarried,
    decide (dSteps (winAt (judgeStep i step s) i).desc ≠ 0) &&
      decide (step = dFirst (winAt (judgeStep i step s) i).desc + dSteps (winAt (judgeStep i step s) i).desc - 1), _, rfl, ?_⟩
  simp only [commitTick, hrun]
  rfl

theorem applyStaging_of_other {d : Bytes} (h : dOp d ≠ 8) (s : State) : applyStaging d s = s := if_neg h

theorem noteEvent_only (code : Nat) (detail : List Nat) (index sub : Nat) (s : State) :
    Only logged s (log code detail (bump index sub s)) :=
  ((bump_only _ _ _).mono (by decide)).trans (logEvent_only _ _ _)

theorem noteSplit_only (step : Nat) (split : Bool) (w : Win) (s : State) : Only logged s (noteSplit step split w s) :=
  (noteEvent_only _ _ _ _ s).ite (.refl _ s)

/-- A step that fails, and one of no steward, leaves memory as it is. -/
theorem mem_settleStep {step : Nat} (split : Bool) {w : Win} (h : dOp w.desc ≠ 8 ∨ commits w = false) (s : State) :
    (settleStep step split w s).mem = s.mem := by
  refine Eq.trans ?_ (noteSplit_only step split w s .mem (by decide))
  unfold settleStep
  split
  case isTrue hcommits =>
    rw [applyStaging_of_other (h.resolve_right (by simp [hcommits]))]
    rfl
  case isFalse => exact noteEvent_only _ _ _ _ _ .mem (by decide)

theorem settleStep_only (step : Nat) (split : Bool) (w : Win) (s : State) : Only (.bep :: .mem :: logged) s (settleStep step split w s) := by
  have hsplit : Only (.bep :: .mem :: logged) s (noteSplit step split w s) := (noteSplit_only step split w s).mono (by decide)
  have happly := applyStaging_parts w.desc (by decide) hsplit
  exact (happly.trans ((bump_only _ _ _).mono (by decide))).ite (hsplit.trans ((noteEvent_only _ _ _ _ _).mono (by decide)))

/-! ### The result record of a judged step (R333) -/

/-- The slot `w` with the result of its step as judged. -/
def judgedResult (step : Nat) (split : Bool) (ft : Nat) (w : Win) : Win := resultWin step split ft (judgedWin w) (judgedWin w)

section

variable (step : Nat) (split : Bool) (ft : Nat) {w : Win}

theorem judgedResult_resSeq : (judgedResult step split ft w).resSeq = (w.resSeq + 1) % 2 ^ 32 :=
  congrArg (fun n => (n + 1) % 2 ^ 32) (judgedWin_field Win.resSeq (fun _ => rfl) w)

theorem judgedResult_lastCommitted :
    (judgedResult step split ft w).lastCommitted = if commits (judgedWin w) then step else w.lastCommitted :=
  congrArg (fun n => if commits (judgedWin w) then step else n) (judgedWin_field Win.lastCommitted (fun _ => rfl) w)

theorem judgedResult_of_commits (h : commits (judgedWin w) = true) :
    (judgedResult step split ft w).resCause = 0 ∧
      (judgedResult step split ft w).committedSteps = min 0xFFFFFFFF (w.committedSteps + 1) ∧
      (judgedResult step split ft w).failedSteps = w.failedSteps := by
  simp only [judgedResult, resultWin, h, if_true, conclusion, judgedWin_field Win.committedSteps (fun _ => rfl),
    judgedWin_field Win.failedSteps (fun _ => rfl), and_self]

theorem judgedResult_of_fails (h : commits (judgedWin w) = false) :
    (judgedResult step split ft w).failedSteps = min 0xFFFFFFFF (w.failedSteps + 1) ∧
      (judgedResult step split ft w).committedSteps = w.committedSteps := by
  simp only [judgedResult, resultWin, h, Bool.false_eq_true, if_false, judgedWin_field Win.committedSteps (fun _ => rfl),
    judgedWin_field Win.failedSteps (fun _ => rfl), and_self]

theorem judgedResult_resCause_of_silence (hverdict : w.verdict = none) (hfailed : w.stepRec.failed = false)
    (hlost : w.lostNow = false) : (judgedResult step split ft w).resCause = 7 := by
  have hstill : (judgedWin w).verdict = none := (judgedWin_field Win.verdict (fun _ => rfl) w).trans hverdict
  simp only [judgedResult, resultWin, commits, hstill, conclusion, Bool.false_eq_true, if_false, judgedWin_cause hverdict hfailed hlost]

end

/-! ### What the slot and the machine hold afterwards -/

theorem signalResult_only (i : Nat) (s : State) : Only [.host, .sent] s (signalResult i s) :=
  (signal_parts _ (List.Subset.refl _) (.refl _ s)).ite (.refl _ s)

theorem leaveStep_only (i : Nat) (w : Win) (last : Bool) (s : State) : Only [.cmp, .coll, .dict] s (leaveStep i w last s) := by
  have hended : Only [.cmp, .coll, .dict] s (modWin i (fun w => { w with state := 3 }) (freeFormed i (clearAccs i s))) :=
    modWin_parts _ _ (by decide) (freeFormed_parts _ (by decide) (clearAccs_parts _ (by decide) (.refl _ s)))
  exact (unbind_parts _ (List.Subset.refl _) (.refl _ s)).ite (hended.ite (.refl _ s))

/-- A slot that leaves its step keeps all but its state and its departure cells, and is free where it was unbinding. -/
theorem winAt_leaveStep {i : Nat} {s : State} (hidle : (winAt s i).running = none) (w : Win) (last : Bool) :
    ∃ (state : Nat) (formed : NMap Formed), winAt (leaveStep i w last s) i = { winAt s i with state := state, formed := formed } ∧
      (w.state = 2 → state = 0) := by
  unfold leaveStep
  split
  case isTrue =>
    refine ⟨0, [], (winAt_unbind i s).trans ?_, fun _ => rfl⟩
    rw [← hidle]
  case isFalse hstate =>
    split
    · refine ⟨3, [], ?_, fun h => absurd h hstate⟩
      rw [winAt_modWin_same, winAt_freeFormed]
      rfl
    · exact ⟨_, _, rfl, fun h => absurd h hstate⟩

section

variable {i step : Nat} {s : State} (hrun : (winAt s i).running = some step)
include hrun

theorem winAt_judgeStep : winAt (judgeStep i step s) i = judgedWin (winAt s i) :=
  winAt_noteSilence_noteLoss (s := advanceTo (commitAt (winAt s i) step s.time.round) s) (congrArg Option.isSome hrun)

/-- The slot after COMMIT_TICK: the result of the judged step, its state and departure cells apart. -/
theorem winAt_commitTick : ∃ (split : Bool) (ft state : Nat) (formed : NMap Formed), winAt (commitTick i s) i =
      { judgedResult step split ft (winAt s i) with state := state, formed := formed } ∧
    ((winAt s i).state = 2 → state = 0) := by
  obtain ⟨split, last, v, hv, htick⟩ := commitTick_of_running hrun
  rw [winAt_judgeStep hrun] at hv htick
  have hwin : winAt v i = judgedWin (winAt s i) := by
    rw [hv, (settleStep_only _ _ _ _).winAt (by decide), winAt_judgeStep hrun]
  have hresult : winAt (signalResult i (modWin i (resultWin step split v.time.ft (judgedWin (winAt s i))) v)) i =
      judgedResult step split v.time.ft (winAt s i) := by
    rw [(signalResult_only _ _).winAt (by decide), winAt_modWin_same, hwin, judgedResult]
  obtain ⟨state, formed, hleave, hfree⟩ := winAt_leaveStep (by rw [hresult]; rfl) (judgedWin (winAt s i)) last
  rw [← htick, hresult] at hleave
  exact ⟨split, _, state, formed, hleave, fun h => hfree ((judgedWin_field Win.state (fun _ => rfl) _).trans h)⟩

/-- Only a steward that commits writes memory. -/
theorem mem_commitTick (h : dOp (winAt s i).desc ≠ 8 ∨ commits (judgedWin (winAt s i)) = false) : (commitTick i s).mem = s.mem := by
  obtain ⟨split, last, v, hv, htick⟩ := commitTick_of_running hrun
  rw [winAt_judgeStep hrun] at hv htick
  rw [htick]
  refine (leaveStep_only _ _ _ _ .mem (by decide)).trans ((signalResult_only _ _ .mem (by decide)).trans ?_)
  rw [modWin_mem, hv]
  refine (mem_settleStep split ?_ _).trans (noteSilence_noteLoss_only i _ .mem (by decide))
  rwa [judgedWin_field Win.desc (fun _ => rfl)]

end

end Sys2Proof.Machine
end

section
/-! SUPPORT. Shard slots: the update of a shard chunk (R327, R328), and enabling and disabling a slot (R325, R431). -/

namespace Sys2Proof.Machine

open Sys2Proof

theorem exec_shardUpdate (i : Fin 64) (chunk : BitVec 28) (s : State) :
    exec (.shardUpdate i chunk) s = .next (shardUpdate i.val chunk.toNat s) := rfl

theorem exec_shardEnable (src : Route) (j : Fin 16) (v : BitVec 8) (s : State) :
    exec (.shardEnable src j v) s = .next (shardWrite src j.val v.toNat s) := rfl

/-! ### A run of departure cells -/

section

variable (i chunk : Nat) (payload : Nat → Bytes)

/-- The cells of a chunk listed in `l` are formed. -/
def formCells (l : List Nat) (s : State) : State := l.foldl (fun s c => formCell i chunk c (payload c) false s) s

theorem shardAt_formCells (l : List Nat) (s : State) (j : Nat) : shardAt (formCells i chunk payload l s) j = shardAt s j := by
  induction l generalizing s with
  | nil => rfl
  | cons c r ih => exact ih (formCell i chunk c (payload c) false s)

theorem mapGet_formed_formCell_ne {c k : Nat} (h : k ≠ c) (b : Bytes) (pad : Bool) (s : State) :
    mapGet (winAt (formCell i chunk c b pad s) i).formed (cellKey chunk k) = mapGet (winAt s i).formed (cellKey chunk k) := by
  rw [formCell, winAt_modWin_same]
  exact mapGet_mapSet_ne _ _ _ _ (fun hkey => h (Nat.add_left_cancel hkey))

theorem formed_formCells {c : Nat} (l : List Nat) (s : State)
    (h : c ∈ l ∨ mapGet (winAt s i).formed (cellKey chunk c) = some { payload := payload c }) :
    mapGet (winAt (formCells i chunk payload l s) i).formed (cellKey chunk c) = some { payload := payload c } := by
  induction l generalizing s with
  | nil => exact h.resolve_left (by simp)
  | cons k r ih =>
    refine ih (formCell i chunk k (payload k) false s) ?_
    by_cases hk : c = k
    · subst hk
      exact .inr (mapGet_formed_formCell_same (payload c) false)
    · rw [mapGet_formed_formCell_ne i chunk hk]
      exact h.imp_left (fun hmem => (List.mem_cons.mp hmem).resolve_left hk)

end

/-! ### An update staged -/

/-- A slot that holds shard chunk `j` in its staging. -/
def stagedShard (x : Shard) (j digest : Nat) : Shard :=
  { x with staging := mapSet x.staging (j % max 1 (fieldAt x.record 2 2)) j, digests := mapSet x.digests j digest }

/-- The primary forms the cells of a chunk's weights; the mirror forms none. -/
def sendWeights (i chunk : Nat) (d weights : Bytes) (s : State) : State :=
  if bit (dFlags d) 1 then s else formCells i chunk (fun c => slice weights (256 * c) 256) (List.range 16) s

theorem shardAt_sendWeights (i chunk : Nat) (d weights : Bytes) (s : State) (j : Nat) :
    shardAt (sendWeights i chunk d weights s) j = shardAt s j := by
  unfold sendWeights
  split
  · rfl
  · exact shardAt_formCells ..

theorem formed_sendWeights (i chunk : Nat) {d : Bytes} (hprimary : bit (dFlags d) 1 = false) (weights : Bytes) (s : State) {c : Nat}
    (hc : c < 16) : mapGet (winAt (sendWeights i chunk d weights s) i).formed (cellKey chunk c) =
      some { payload := slice weights (256 * c) 256 } := by
  rw [sendWeights, hprimary]
  exact formed_formCells i chunk (fun c => slice weights (256 * c) 256) _ s (.inl (List.mem_range.mpr hc))

/-- An update is written to staging and held by its slot; the primary then sends the chunk's weights. -/
theorem stageUpdate_eq (i chunk j : Nat) (state weights : Bytes) (t : Nat) {s : State} {d : Bytes} (hd : d = (winAt s i).desc)
    {x : Shard} (hx : x = shardAt s (fieldAt d 40 2)) : ∃ (u : State) (digest : Nat),
      stageUpdate i chunk j state weights t s = sendWeights i chunk d weights (setShard (fieldAt d 40 2) (stagedShard x j digest) u) := by
  subst hd hx
  exact ⟨(writeRun _ _ _ s).2, (crc64 _).toNat, rfl⟩

theorem weightArea_length (out : Nat) (vs : List FV) : (weightArea out vs).length = 4096 := by
  unfold weightArea
  split
  · simp only [padTo, List.nil_append, List.length_replicate, List.length_nil, Nat.sub_zero]
  · dsimp only
    split <;> exact slice_length _ _ _

theorem slice_weightArea (out : Nat) (vs : List FV) : slice (weightArea out vs) 0 4096 = weightArea out vs := by
  rw [slice_eq (by rw [weightArea_length]), List.drop_zero, List.take_of_length_le (weightArea_length out vs).le]

/-! ### SHARD_UPDATE (R327, R328) -/

section

variable {i chunk : Nat} {s : State}

theorem shardUpdate_of_incomplete (h : (winAt s i).running = none ∨ dOp (winAt s i).desc ≠ 8 ∨
    (shardAt s (fieldAt (winAt s i).desc 40 2)).state ≠ 1 ∨ shardChunk (shardAt s (fieldAt (winAt s i).desc 40 2)) chunk = none ∨
    gsum (winAt s i) (shardAt s (fieldAt (winAt s i).desc 40 2)) chunk = none) : shardUpdate i chunk s = s := by
  unfold shardUpdate
  dsimp only
  split
  case isTrue => rfl
  case isFalse hopen =>
    simp only [not_or, Option.isNone_iff_eq_none] at hopen
    obtain ⟨hrun, hop, hstate, -⟩ := hopen
    rcases h with h | h | h | h | h
    · exact absurd h hrun
    · exact absurd h hop
    · exact absurd h hstate
    · rw [h]
    · rw [h]
      cases shardChunk (shardAt s (fieldAt (winAt s i).desc 40 2)) chunk <;> rfl

/-- The built-in program runs on a chunk whose gradient is complete, in a staging slot that is free. -/
theorem shardUpdate_of_complete {j : Nat} {g : List Nat} {d : Bytes} (hd : d = (winAt s i).desc) {x : Shard}
    (hx : x = shardAt s (fieldAt d 40 2)) (hrun : (winAt s i).running.isSome = true) (hop : dOp d = 8) (hstate : x.state = 1)
    (hgood : (winAt s i).badChunks.contains chunk = false) (hchunk : shardChunk x chunk = some j) (hsum : gsum (winAt s i) x chunk = some g)
    (hfree : mapGet x.staging (j % max 1 (fieldAt x.record 2 2)) = none) (hkid : dKid d = 0) :
    shardUpdate i chunk s = ((builtIn s d x j g).map (fun u => stageUpdate i chunk j (codeBytes 4 (u.w ++ u.m ++ u.v) ++ natLe 4 u.t)
      (weightArea (dOut d) (u.w.map ofF32)) u.t s)).getD (failStep i 3 none s) := by
  subst hd hx
  obtain ⟨step, hstep⟩ := Option.isSome_iff_exists.mp hrun
  simp only [shardUpdate, hstep, hop, hstate, hgood, hchunk, hsum, hfree, hkid, Option.isNone_some, ne_eq, not_true_eq_false,
    Bool.false_eq_true, or_self, if_false]
  cases builtIn s (winAt s i).desc (shardAt s (fieldAt (winAt s i).desc 40 2)) j g <;> rfl

end

/-! ### SHARD_ENABLE and SHARD_DISABLE (R325, R431) -/

/-- What an enable judges lies outside the outcome of the operation. -/
theorem recordRefused_beginOp (s : State) (j : Nat) (r : Bytes) : recordRefused (beginOp s) j r = recordRefused s j r := rfl

section

variable {j : Nat} {s : State}

theorem shardEnable_of_enabled (h : (shardAt s j).state = 1) : shardEnable j s = s := if_pos h

theorem shardEnable_of_refused (h : (shardAt s j).state ≠ 1) (hrecord : recordRefused s j (shardAt s j).record = true) :
    shardEnable j s = refuseRule (setShard j { shardAt s j with state := 2 } s) := by
  simp only [shardEnable, if_neg h, if_pos hrecord]

theorem shardEnable_of_legal (h : (shardAt s j).state ≠ 1) (hrecord : recordRefused s j (shardAt s j).record = false) :
    shardEnable j s = setShard j { shardAt s j with state := 1, staging := [], digests := [], taken := [] }
      (closeEntries (recordRegions (shardAt s j).record) s) := by
  simp only [shardEnable, if_neg h, hrecord, Bool.false_eq_true, if_false]

theorem shardDisable_of_named (h : slotNamed s j = true) : shardDisable j s = refuseRule s := if_pos h

/-- A slot that no window names is disabled; only a bound one's regions are cleared. -/
theorem shardDisable_of_unnamed (h : slotNamed s j = false) : ∃ u : State, ((shardAt s j).bound = false → u = s) ∧
    shardDisable j s = setShard j { shardAt s j with state := 0, bound := false } u := by
  simp only [shardDisable, h, Bool.false_eq_true, if_false]
  exact ⟨_, fun hfree => if_neg (by rw [hfree]; exact Bool.false_ne_true), rfl⟩

/-- A write of another value than 0 enables; the clamp of a value above 1 is reported where the enable was not refused. -/
theorem shardWrite_of_ne_zero (src : Route) {v : Nat} (h : v ≠ 0) :
    Only [.dict, .host, .sent] (shardEnable j (beginOp s)) (shardWrite src j v s) ∧
      (2 ≤ (shardEnable j (beginOp s)).dict.status → shardWrite src j v s = shardEnable j (beginOp s)) := by
  simp only [shardWrite, if_neg h]
  exact ⟨(Only.refl _ _).ite (clamped_only _ _ _ _ _ _ _), fun hstatus => if_pos (.inr hstatus)⟩

theorem shardWrite_zero (src : Route) : shardWrite src j 0 s = shardDisable j (beginOp s) := by
  simp only [shardWrite, if_true]

end

/-- What an enable leaves in its slot: as it was, refused or open. -/
theorem exec_shardEnable_of_ne_zero (src : Route) (j : Fin 16) {v : BitVec 8} (hv : v ≠ 0) (s : State) :
    ((shardAt s j.val).state = 1 → ∃ t : State, exec (.shardEnable src j v) s = .next t ∧ t.coll = s.coll) ∧
    ((shardAt s j.val).state ≠ 1 → recordRefused s j.val (shardAt s j.val).record = true →
      ∃ t : State, exec (.shardEnable src j v) s = .next t ∧ shardAt t j.val = { shardAt s j.val with state := 2 } ∧
        t.dict.abort = 0x08000020) ∧
    ((shardAt s j.val).state ≠ 1 → recordRefused s j.val (shardAt s j.val).record = false →
      ∃ t : State, exec (.shardEnable src j v) s = .next t ∧
        shardAt t j.val = { shardAt s j.val with state := 1, staging := [], digests := [], taken := [] }) := by
  have hne : v.toNat ≠ 0 := fun h => hv (BitVec.eq_of_toNat_eq h)
  obtain ⟨honly, hkept⟩ := shardWrite_of_ne_zero (j := j.val) (s := s) src hne
  refine ⟨fun hon => ⟨_, exec_shardEnable src j v s, ?_⟩, fun hoff hbad => ⟨_, exec_shardEnable src j v s, ?_⟩,
    fun hoff hlegal => ⟨_, exec_shardEnable src j v s, ?_⟩⟩
  · rw [shardEnable_of_enabled (s := beginOp s) hon] at honly
    exact honly .coll (by decide)
  · rw [shardEnable_of_refused (s := beginOp s) hoff ((recordRefused_beginOp ..).trans hbad)] at hkept
    rw [hkept (Nat.le_refl 2)]
    exact ⟨shardAt_setShard_same .., rfl⟩
  · rw [shardEnable_of_legal (s := beginOp s) hoff ((recordRefused_beginOp ..).trans hlegal)] at honly
    exact (honly.shardAt (by decide) j.val).trans (shardAt_setShard_same ..)

/-- A disable is refused while a window names the slot, and else clears what the slot holds. -/
theorem exec_shardDisable_zero (src : Route) (j : Fin 16) (s : State) :
    (slotNamed s j.val = true → ∃ t : State, exec (.shardDisable src j 0) s = .next t ∧ t.coll = s.coll ∧ t.mem = s.mem ∧
      t.dict.abort = 0x08000020) ∧
    (slotNamed s j.val = false → ∃ t : State, exec (.shardDisable src j 0) s = .next t ∧
      shardAt t j.val = { shardAt s j.val with state := 0, bound := false } ∧ ((shardAt s j.val).bound = false → t.mem = s.mem)) := by
  have hexec : exec (.shardDisable src j 0) s = .next (shardDisable j.val (beginOp s)) :=
    congrArg Host.Outcome.next (shardWrite_zero src)
  refine ⟨fun hnamed => ⟨_, hexec, ?_⟩, fun hunnamed => ⟨_, hexec, ?_⟩⟩
  · rw [shardDisable_of_named (s := beginOp s) hnamed]
    exact ⟨rfl, rfl, rfl⟩
  · obtain ⟨u, hsame, hdisable⟩ := shardDisable_of_unnamed (s := beginOp s) hunnamed
    rw [hdisable]
    exact ⟨shardAt_setShard_same .., fun hfree => (setShard_mem ..).trans ((congrArg State.mem (hsame hfree)).trans (beginOp_mem s))⟩

end Sys2Proof.Machine
end

section

namespace Sys2Proof.Machine

open Sys2Proof

/-- Settles O47: each command is read off its outcomes: a bind refused or made, a slot freed or unbinding, a cell formed, a step
judged and concluded, an update staged, a shard slot enabled or disabled. -/
theorem windowsShardsAndCommits : Obligations.WindowsShardsAndCommits := by
  unfold Obligations.WindowsShardsAndCommits
  rintro i src s w rfl
  refine ⟨fun code off n hrefused => exec_windowBind_one_of_refused src i hrefused,
    fun hlegal => exec_windowBind_one_of_legal src i hlegal, fun v hv => exec_windowUnbind_of_ne_one src i hv s, ?_,
    fun hidle => congrArg _ (commitTick_of_idle hidle), ?_, ?_, ?_⟩
  · rintro chunk cell _ rfl
    exact ⟨fun hidle => congrArg _ (serviceCell_of_idle hidle), fun hop hmissing => congrArg _ (serviceCell_of_incomplete hop hmissing),
      fun hrun hop hfanin htaken hformed hred f hfmt =>
        exec_serviceCellFormed_of_complete i chunk cell hrun hop hfanin htaken hformed hred hfmt⟩
  · intro step hrun good hgood
    have hcommits : commits (judgedWin (winAt s i.val)) = good := (commits_judgedWin _).trans hgood.symm
    obtain ⟨split, ft, state, formed, hwin, hfree⟩ := winAt_commitTick hrun
    refine ⟨_, exec_commitTick i s, ?_⟩
    rw [hwin, ← hcommits]
    exact ⟨rfl, judgedResult_resSeq step split ft, rfl, rfl, rfl, judgedResult_lastCommitted step split ft,
      judgedResult_of_commits step split ft, judgedResult_of_fails step split ft, judgedResult_resCause_of_silence step split ft, hfree,
      mem_commitTick hrun⟩
  · rintro chunk _ rfl
    refine ⟨fun h => congrArg _ (shardUpdate_of_incomplete h), fun hrun hop hstate hgood j hchunk g hsum hfree hkid => ?_⟩
    have hupdate := shardUpdate_of_complete rfl rfl hrun hop hstate hgood hchunk hsum hfree hkid
    refine ⟨fun hunread => ⟨_, exec_shardUpdate i chunk s, ?_⟩, fun u hread => ⟨_, exec_shardUpdate i chunk s, ?_⟩⟩
    · rw [hupdate, hunread, Option.map_none, Option.getD_none, failStep_of_running hrun, winAt_setWin_same]
      exact ⟨rfl, rfl⟩
    · obtain ⟨v, digest, hstage⟩ := stageUpdate_eq i.val chunk.toNat j (codeBytes 4 (u.w ++ u.m ++ u.v) ++ natLe 4 u.t)
        (weightArea (dOut (winAt s i.val).desc) (u.w.map ofF32)) u.t (s := s) rfl rfl
      rw [hupdate, hread, Option.map_some, Option.getD_some, hstage, slice_weightArea, shardAt_sendWeights, shardAt_setShard_same]
      exact ⟨mapGet_mapSet_same .., fun hprimary c => congrArg _ (formed_sendWeights i.val chunk.toNat hprimary _ _ c.isLt)⟩
  · rintro j v _ rfl
    exact ⟨fun hv => exec_shardEnable_of_ne_zero src j hv s, exec_shardDisable_zero src j s⟩

end Sys2Proof.Machine
end

section
/-! SUPPORT. Contexts that a translation makes wait: those that a fault stops (R274, R276), and those that go on once the translation is
there (R275). -/

namespace Sys2Proof.Machine

open Sys2Proof

/-! ### Folds that reach their end -/

/-- A fold of steps that keep `Q` and `P` reaches `P` where one of its steps does. -/
theorem foldl_reaches {α : Type} {Q P : State → Prop} {f : State → α → State} {l : List α} {x : α} {s : State} (hx : x ∈ l)
    (hQ : ∀ u y, Q u → Q (f u y)) (hP : ∀ u y, P u → P (f u y)) (hreach : ∀ u, Q u → P (f u x)) (hs : Q s) :
    P (l.foldl f s) := by
  induction l generalizing s with
  | nil => exact absurd hx List.not_mem_nil
  | cons y r ih =>
    rw [List.foldl_cons]
    cases hx with
    | head => exact List.foldlRecOn r f (hreach s hs) fun u hu z _ => hP u z hu
    | tail _ hr => exact ih hr (hQ s y hs)

/-! ### Contexts that faults stop (R274, R276) -/

/-- A context that runs or is suspended. -/
def Going (k : Nat) (s : State) : Prop := (ctxAt s k).state = .running ∨ (ctxAt s k).state = .suspended

/-- A context that is FAULTED. -/
def Stopped (k : Nat) (s : State) : Prop := (ctxAt s k).state = .faulted

/-- From `s` to `t` each context has kept its state or become FAULTED. -/
def StopsOnly (s t : State) : Prop := ∀ k, (ctxAt t k).state = (ctxAt s k).state ∨ Stopped k t

theorem StopsOnly.refl (s : State) : StopsOnly s s := fun _ => .inl rfl

theorem StopsOnly.trans {s t u : State} (h : StopsOnly s t) (g : StopsOnly t u) : StopsOnly s u := by
  intro k
  rcases g k with hkept | hstopped
  · exact (h k).imp hkept.trans hkept.trans
  · exact .inr hstopped

theorem StopsOnly.foldl {α : Type} {f : State → α → State} (l : List α) (h : ∀ u x, StopsOnly u (f u x)) (s : State) :
    StopsOnly s (l.foldl f s) :=
  List.foldlRecOn l f (.refl s) fun u hu x _ => hu.trans (h u x)

theorem StopsOnly.stopped {k : Nat} {s t : State} (h : StopsOnly s t) (g : Stopped k s) : Stopped k t := (h k).elim (·.trans g) id

theorem StopsOnly.going {k : Nat} {s t : State} (h : StopsOnly s t) (g : Going k s ∨ Stopped k s) : Going k t ∨ Stopped k t := by
  rcases h k with hkept | hstopped
  · rwa [Going, Stopped, hkept]
  · exact .inr hstopped

/-- A fold of steps that at most stop contexts stops one that goes on, where one of the steps does. -/
theorem stopped_foldl {α : Type} {f : State → α → State} {l : List α} {x : α} {k : Nat} {s : State} (hx : x ∈ l)
    (hf : ∀ u y, StopsOnly u (f u y)) (hstop : ∀ u, Going k u → Stopped k (f u x)) (hs : Going k s) : Stopped k (l.foldl f s) :=
  foldl_reaches hx (fun u y => (hf u y).going) (fun u y => (hf u y).stopped)
    (fun u hu => hu.elim (hstop u) (hf u x).stopped) (.inl hs)

theorem modCtx_stopsOnly {f : Ctx → Ctx} (h : ∀ c, (f c).state = c.state) (k : Nat) (s : State) : StopsOnly s (modCtx k f s) := by
  intro j
  by_cases hj : j = k
  · rw [hj, ctxAt_modCtx_same]
    exact .inl (h _)
  · exact .inl (congrArg Ctx.state (ctxAt_modCtx_ne hj f s))

theorem enterFaulted_stopsOnly (k code detail : Nat) (s : State) : StopsOnly s (enterFaulted k code detail s) := by
  intro j
  by_cases hgoing : Going k s
  · by_cases hj : j = k
    · rw [hj]
      refine .inr ?_
      rw [Stopped, ctxAt_of_cmp (enterFaulted_cmp hgoing code detail), ctxAt_setCtx_same]
      rfl
    · exact .inl (congrArg Ctx.state (ctxAt_enterFaulted_ne hj code detail s))
  · rw [show enterFaulted k code detail s = s from if_neg hgoing]
    exact .inl rfl

theorem loseGang_stopsOnly (k : Nat) (s : State) : StopsOnly s (loseGang k s) := by
  unfold loseGang
  dsimp only
  split
  · exact .refl s
  · refine .foldl _ (fun u e => ?_) s
    have hlost : StopsOnly u (modCtx e.1 (fun c => { c with gangLost := true }) u) := modCtx_stopsOnly (fun _ => by rfl) e.1 u
    split
    · exact hlost.trans (enterFaulted_stopsOnly _ _ _ _)
    · exact hlost

theorem ctxFault_stopsOnly (k code detail : Nat) (s : State) : StopsOnly s (ctxFault k code detail s) :=
  (enterFaulted_stopsOnly k code detail s).trans (loseGang_stopsOnly k _)

theorem stopped_ctxFault {k : Nat} {s : State} (h : Going k s) (code detail : Nat) : Stopped k (ctxFault k code detail s) := by
  rw [Stopped, ctxAt_ctxFault h]
  rfl

theorem failAll_stopsOnly (ws : List (Waiter × Nat)) (code va : Nat) (s : State) : StopsOnly s (failAll ws code va s) :=
  .foldl ws (fun u x => ctxFault_stopsOnly (waiterCtx x.1) code va u) s

/-- A fault of every waiter stops the context of each. -/
theorem stopped_failAll {ws : List (Waiter × Nat)} {x : Waiter × Nat} (hx : x ∈ ws) {s : State} (h : Going (waiterCtx x.1) s)
    (code va : Nat) : Stopped (waiterCtx x.1) (failAll ws code va s) :=
  stopped_foldl hx (fun u y => ctxFault_stopsOnly (waiterCtx y.1) code va u) (fun _ hu => stopped_ctxFault hu code va) h

theorem failAll_only (ws : List (Waiter × Nat)) (code va : Nat) (s : State) :
    Only [.cmp, .dict, .host, .can, .log, .pwr, .sent] s (failAll ws code va s) :=
  failAll_parts _ _ _ (List.Subset.refl _) (.refl _ s)

@[simp] theorem failAll_xlat (ws : List (Waiter × Nat)) (code va : Nat) (s : State) : (failAll ws code va s).xlat = s.xlat :=
  failAll_only ws code va s .xlat (by decide)

/-! ### Entries that a fault counts (R274, R449) -/

/-- The counters of faults, of the event log and of EMCY. -/
def faultEntries : List (Nat × Nat) := (0x5003, 2) :: (0x5003, 0x0A) :: eventEntries

theorem enterFaulted_entries (k code detail : Nat) (s : State) : OnlyEntries faultEntries s (enterFaulted k code detail s) := by
  have hbump (sub : Nat) (hsub : sub < 256) (hmem : (0x5003, sub) ∈ faultEntries) (u : State) :
      OnlyEntries faultEntries u (bump 0x5003 sub u) := (bump_entries 0x5003 sub u hsub).mono (by simpa using hmem)
  unfold enterFaulted
  dsimp only
  refine .ite (.trans ?_ ((event_entries _ _ _ _).mono (fun _ he => List.mem_cons_of_mem _ (List.mem_cons_of_mem _ he)))) (.refl _ s)
  refine .trans ?_ (hbump 2 (by decide) (by decide) _)
  split
  · exact .trans (.of_same_od (t := setCtx k _ s) rfl) (hbump 0x0A (by decide) (by decide) _)
  · exact .of_same_od rfl

theorem loseGang_entries (k : Nat) (s : State) : OnlyEntries faultEntries s (loseGang k s) := by
  unfold loseGang
  refine .ite (.refl _ s) (.foldl _ (fun e _ u => ?_) s)
  have hlost : OnlyEntries faultEntries u (modCtx e.1 (fun c => { c with gangLost := true }) u) := .of_same_od rfl
  exact hlost.maybe (enterFaulted_entries _ _ _ _)

theorem failAll_entries (ws : List (Waiter × Nat)) (code va : Nat) (s : State) : OnlyEntries faultEntries s (failAll ws code va s) :=
  .foldl ws (fun x _ u => (enterFaulted_entries (waiterCtx x.1) code va u).trans (loseGang_entries (waiterCtx x.1) _)) s

/-! ### Waiters that go on (R275) -/

/-- A stream that does not wait for a translation. -/
def Awake (k j : Nat) (s : State) : Prop := (streamOf (ctxAt s k) j).wait ≠ .xlate

theorem Awake.modCtx {k j : Nat} {s : State} (h : Awake k j s) {f : Ctx → Ctx} (hf : ∀ c, (f c).streams = c.streams) (i : Nat) :
    Awake k j (modCtx i f s) := by
  by_cases hk : k = i
  · subst hk
    rw [Awake, ctxAt_modCtx_same, streamOf, hf]
    exact h
  · rwa [Awake, ctxAt_modCtx_ne hk]

theorem Awake.ite {k j : Nat} {a b : State} {c : Prop} [Decidable c] (h : Awake k j a) (g : Awake k j b) :
    Awake k j (if c then a else b) := by
  split <;> assumption

/-- The waiter itself is let go. -/
def releaseWaiter (w : Waiter) (s : State) : State :=
  match w with
  | .stream k e => modStream k e (fun x => { x with wait := if x.wait = .xlate then .none else x.wait }) s
  | .copy k => modCopy k (fun h => { h with paused := false }) s
  | .ring _ => s

/-- A waiter goes on, and its context too where no page request holds it. -/
theorem resumeWaiter_eq (w : Waiter) (s : State) : resumeWaiter w s =
    if pageHeld (releaseWaiter w s) (waiterCtx w) then releaseWaiter w s
    else modCtx (waiterCtx w) (fun c => if c.state = .suspended then { c with state := .running } else c) (releaseWaiter w s) := by
  cases w <;> rfl

theorem awake_releaseWaiter_same (k : Nat) {j : Nat} (hj : j < 4) (s : State) : Awake k j (releaseWaiter (.stream k j) s) := by
  rw [Awake, releaseWaiter, streamOf_modStream_same k hj]
  by_cases hwait : (streamOf (ctxAt s k) j).wait = .xlate
  · simp [hwait]
  · simp [hwait]

theorem Awake.releaseWaiter {k j : Nat} (hj : j < 4) {s : State} (h : Awake k j s) (w : Waiter) : Awake k j (releaseWaiter w s) := by
  cases w with
  | stream i e =>
    by_cases hk : k = i
    · subst hk
      by_cases he : j = e
      · subst he
        exact awake_releaseWaiter_same k hj s
      · rwa [Awake, Machine.releaseWaiter, streamOf_modStream_ne he]
    · rwa [Awake, Machine.releaseWaiter, ctxAt_modStream_ne hk]
  | copy i => exact h.modCtx (fun _ => by rfl) i
  | ring _ => exact h

/-- Resuming a context leaves its streams. -/
theorem Awake.resumeWaiter {k j : Nat} {w : Waiter} {s : State} (h : Awake k j (Machine.releaseWaiter w s)) :
    Awake k j (resumeWaiter w s) := by
  rw [resumeWaiter_eq]
  refine h.ite (h.modCtx (fun c => ?_) _)
  split <;> rfl

/-- Once every waiter has gone on, no stream among them waits for a translation. -/
theorem awake_resumeAll {ws : List (Waiter × Nat)} {x : Waiter × Nat} (hx : x ∈ ws) {j : Nat} (hj : j < 4)
    (hstream : x.1 = .stream (waiterCtx x.1) j) (s : State) :
    Awake (waiterCtx x.1) j (ws.foldl (fun u y => resumeWaiter y.1 u) s) :=
  foldl_reaches (Q := fun _ => True) hx (fun _ _ _ => trivial) (fun _ y hu => (hu.releaseWaiter hj y.1).resumeWaiter)
    (fun u _ => Awake.resumeWaiter (by rw [hstream]; exact awake_releaseWaiter_same _ hj u)) trivial

end Sys2Proof.Machine
end

section
/-! SUPPORT. Translation Requests as they end and are asked for again, and the entry that a grant installs (R336, R338, R341, R342). -/

namespace Sys2Proof.Machine

open Sys2Proof

/-! ### Translation Requests (R341) -/

/-- Of the translation unit only the Translation Requests have changed. -/
def ReqsOnly (s t : State) : Prop := t.xlat = { s.xlat with reqs := t.xlat.reqs }

theorem ReqsOnly.trans {s t u : State} (h : ReqsOnly s t) (g : ReqsOnly t u) : ReqsOnly s u := by
  rw [ReqsOnly] at *
  rw [g, h]

theorem ReqsOnly.entries {s t : State} (h : ReqsOnly s t) : t.xlat.entries = s.xlat.entries := by rw [h]

theorem ReqsOnly.pages {s t : State} (h : ReqsOnly s t) : t.xlat.pages = s.xlat.pages := by rw [h]

theorem ReqsOnly.pageWait {s t : State} (h : ReqsOnly s t) : t.xlat.pageWait = s.xlat.pageWait := by rw [h]

/-- A request that is not stale asks for a page on behalf of `ws`, and its result is final where `final` says so. -/
def Asked (pasid vp : Nat) (final : Bool) (ws : List (Waiter × Nat)) (s : State) : Prop :=
  ∃ q ∈ s.xlat.reqs, q.pasid = pasid ∧ q.vpage = vp ∧ q.stale = false ∧ (final = true → q.final = true) ∧
    ∀ x ∈ ws, x ∈ q.waiters

/-- A Translation Request leaves. -/
def sendTreq (r : TReq) (s : State) : State :=
  emit (.atsRequest r.pasid r.vpage) (bump 0x5200 0x12
    (modXlat (fun x => { x with reqs := x.reqs.map (fun q => if q == r then { q with sent := true } else q) }) s))

theorem Asked.sendTreq {pasid vp : Nat} {final : Bool} {ws : List (Waiter × Nat)} {s : State} (h : Asked pasid vp final ws s) (r : TReq) :
    Asked pasid vp final ws (sendTreq r s) := by
  obtain ⟨q, hq, hpasid, hvp, hstale, hfinal, hws⟩ := h
  refine ⟨if q == r then { q with sent := true } else q, List.mem_map_of_mem hq, ?_⟩
  split <;> exact ⟨hpasid, hvp, hstale, hfinal, hws⟩

/-- What holds of a state and after each request that leaves holds once the requests that may leave have left. -/
theorem pumpTreqs_keeps_all {P : State → Prop} {s : State} (hs : P s) (hsend : ∀ r u, P u → P (sendTreq r u)) : P (pumpTreqs s) := by
  refine List.foldlRecOn s.xlat.reqs _ hs fun u hu r _ => ?_
  dsimp only
  split
  · exact hu
  · exact hsend r u hu

theorem pumpTreqs_reqsOnly (s : State) : ReqsOnly s (pumpTreqs s) :=
  pumpTreqs_keeps_all (P := ReqsOnly s) rfl fun r u hu => hu.trans (u := sendTreq r u) rfl

theorem Asked.pumpTreqs {pasid vp : Nat} {final : Bool} {ws : List (Waiter × Nat)} {s : State} (h : Asked pasid vp final ws s) :
    Asked pasid vp final ws (pumpTreqs s) := pumpTreqs_keeps_all h fun r _ hu => hu.sendTreq r

theorem pumpTreqs_entries (s : State) : OnlyEntries [(0x5200, 0x12)] s (pumpTreqs s) :=
  pumpTreqs_keeps_all (P := OnlyEntries [(0x5200, 0x12)] s) (.refl _ s)
    fun r u hu => hu.trans (bump_entries 0x5200 0x12 (modXlat _ u) (by decide))

theorem endTreq_reqsOnly (r : TReq) (s : State) : ReqsOnly s (endTreq r s) := ReqsOnly.trans (by rfl) (pumpTreqs_reqsOnly _)

theorem endTreq_entries (r : TReq) (s : State) : OnlyEntries [(0x5200, 0x12)] s (endTreq r s) :=
  OnlyEntries.trans (t := modXlat _ s) (.of_same_od rfl) (pumpTreqs_entries _)

theorem endTreq_only (r : TReq) (s : State) : Only [.xlat, .dict, .sent] s (endTreq r s) :=
  endTreq_parts r (List.Subset.refl _) (.refl _ s)

theorem ctxAt_endTreq (r : TReq) (s : State) (k : Nat) : ctxAt (endTreq r s) k = ctxAt s k := (endTreq_only r s).ctxAt (by decide) k

theorem missWait_reqsOnly (pasid va : Nat) (final : Bool) (ws : List (Waiter × Nat)) (s : State) :
    ReqsOnly s (missWait pasid va final ws s) := by
  unfold missWait
  dsimp only
  split
  · rfl
  · exact ReqsOnly.trans (by rfl) (pumpTreqs_reqsOnly _)

/-- A miss is asked for: by the request of its page that is not stale, or by a new one. -/
theorem asked_missWait (pasid va : Nat) (final : Bool) (ws : List (Waiter × Nat)) (s : State) :
    Asked pasid (va / 4096) final ws (missWait pasid va final ws s) := by
  unfold missWait
  extract_lets vp same
  split
  case isTrue hany =>
    obtain ⟨r, hr, hsame⟩ := List.any_eq_true.mp hany
    have hparts : r.pasid = pasid ∧ r.vpage = va / 4096 ∧ r.stale = false := by simpa [same, vp, and_assoc] using hsame
    obtain ⟨hpasid, hvp, hstale⟩ := hparts
    refine ⟨_, List.mem_map_of_mem hr, ?_⟩
    rw [if_pos hsame]
    exact ⟨hpasid, hvp, hstale, fun hfinal => by simp [hfinal], fun x hx => List.mem_append_right _ hx⟩
  case isFalse =>
    exact Asked.pumpTreqs ⟨_, List.mem_append_right _ List.mem_cons_self, rfl, rfl, rfl, id, fun _ hx => hx⟩

/-! ### The way of a page (R336) -/

/-- What a lookup finds in way `j`. -/
def pageIn (x : Xlat) (pasid va k j : Nat) : Option (Nat × XEntry) :=
  ((mapGet x.entries j).filter (fun e => decide (e.pasid = pasid ∧ e.log2 = k ∧ e.vpage = va / 2 ^ k * 2 ^ (k - 12)))).map
    (fun e => (j, e))

theorem xlatFind_eq (x : Xlat) (pasid va k : Nat) :
    xlatFind x pasid va k = (xlatWays (xlatSet pasid va k)).findSome? (pageIn x pasid va k) := by
  unfold xlatFind
  congr 1
  funext j
  unfold pageIn
  cases mapGet x.entries j with
  | none => rfl
  | some e =>
    rw [Option.filter_some]
    by_cases he : e.pasid = pasid ∧ e.log2 = k ∧ e.vpage = va / 2 ^ k * 2 ^ (k - 12) <;> simp [he]

theorem pageIn_fst {x : Xlat} {pasid va k j : Nat} {y : Nat × XEntry} (h : pageIn x pasid va k j = some y) : y.1 = j := by
  obtain ⟨e, -, rfl⟩ := Option.map_eq_some_iff.mp h
  rfl

/-- The page of an entry, at the entry's own address. -/
def ownPage (x : Xlat) (e : XEntry) : Nat → Option (Nat × XEntry) := pageIn x e.pasid (e.vpage * 4096) e.log2

/-- An entry whose virtual page is a page of its own size. -/
def Aligned (e : XEntry) : Prop := e.vpage = e.vpage * 4096 / 2 ^ e.log2 * 2 ^ (e.log2 - 12)

theorem ownPage_mapSet_same {x : Xlat} {e : XEntry} (h : Aligned e) (lru : List Nat) (j : Nat) :
    ownPage { x with entries := mapSet x.entries j e, lru := lru } e j = some (j, e) := by
  have hmatch : e.pasid = e.pasid ∧ e.log2 = e.log2 ∧ e.vpage = e.vpage * 4096 / 2 ^ e.log2 * 2 ^ (e.log2 - 12) := ⟨rfl, rfl, h⟩
  rw [ownPage, pageIn, mapGet_mapSet_same, Option.filter_some, if_pos (decide_eq_true hmatch)]
  rfl

theorem ownPage_mapSet_ne {i j : Nat} (h : i ≠ j) (x : Xlat) (e : XEntry) (lru : List Nat) :
    ownPage { x with entries := mapSet x.entries j e, lru := lru } e i = ownPage x e i := by
  rw [ownPage, ownPage, pageIn, pageIn, mapGet_mapSet_ne _ _ _ _ h]

/-- A search that finds nothing finds what is put at a place searched. -/
theorem findSome?_update_of_none {α β : Type} {f g : α → Option β} {l : List α} {j : α} {y : β} (hnone : l.findSome? f = none)
    (hj : j ∈ l) (hne : ∀ i, i ≠ j → g i = f i) (hy : g j = some y) : l.findSome? g = some y := by
  rw [List.findSome?_eq_none_iff] at hnone
  cases hfind : l.findSome? g with
  | none =>
    rw [List.findSome?_eq_none_iff.mp hfind j hj] at hy
    cases hy
  | some z =>
    obtain ⟨i, hi, hgi⟩ := List.exists_of_findSome?_eq_some hfind
    by_cases hij : i = j
    · rw [← hgi, hij, hy]
    · rw [hne i hij, hnone i hi] at hgi
      cases hgi

/-- A search finds what replaces its result at the same place. -/
theorem findSome?_update_of_some {α β : Type} {f g : α → Option β} {l : List α} {j : α} {y z : β} (hfirst : l.findSome? f = some z)
    (hplace : ∀ i, f i = some z → i = j) (hne : ∀ i, i ≠ j → g i = f i) (hy : g j = some y) : l.findSome? g = some y := by
  obtain ⟨before, i, after, hl, hfi, hbefore⟩ := List.findSome?_eq_some_iff.mp hfirst
  obtain rfl := hplace i hfi
  refine List.findSome?_eq_some_iff.mpr ⟨before, i, after, hl, hy, fun w hw => ?_⟩
  have hwi : w ≠ i := by
    rintro rfl
    rw [hbefore w hw] at hfi
    cases hfi
  rw [hne w hwi, hbefore w hw]

theorem mem_xlatWays {set j : Nat} : j ∈ xlatWays set ↔ ∃ w < 16, set * 16 + w = j := by
  simp [xlatWays]

theorem tenantWays_lt {s : State} {t w : Nat} (h : w ∈ tenantWays s t) : w < 16 := by
  unfold tenantWays at h
  split at h
  · exact List.mem_range.mp (List.mem_filter.mp h).1
  · exact List.mem_range.mp h

/-- A fill of a page that is not held takes a way of the page's set. -/
theorem xlatVictim_mem {own : List Nat} (hown : ∀ w ∈ own, w < 16) {x : Xlat} {e : XEntry}
    (hnone : xlatFind x e.pasid (e.vpage * 4096) e.log2 = none) :
    xlatVictim own x e ∈ xlatWays (xlatSet e.pasid (e.vpage * 4096) e.log2) := by
  unfold xlatVictim
  extract_lets va ways
  have hways : ∀ j ∈ ways, j ∈ xlatWays (xlatSet e.pasid (e.vpage * 4096) e.log2) := by
    intro j hj
    obtain ⟨w, hw, rfl⟩ := List.mem_map.mp hj
    exact mem_xlatWays.mpr ⟨w, hown w hw, rfl⟩
  rw [hnone]
  dsimp only
  cases hfree : ways.find? (fun j => (mapGet x.entries j).isNone) with
  | some j => exact hways j (List.mem_of_find?_eq_some hfree)
  | none =>
    cases hlru : (x.lru.filter (fun j => ways.contains j)).getLast? with
    | some j =>
      have hj := List.mem_of_getLast? hlru
      exact hways j (by simpa using (List.mem_filter.mp hj).2)
    | none =>
      cases hlist : ways with
      | nil => exact mem_xlatWays.mpr ⟨0, by decide, rfl⟩
      | cons j r => exact hways j (by simp [hlist])

/-- The way that holds the page of an entry is the one that the entry takes. -/
theorem xlatVictim_of_found {x : Xlat} {e : XEntry} {y : Nat × XEntry} (h : xlatFind x e.pasid (e.vpage * 4096) e.log2 = some y)
    (own : List Nat) : xlatVictim own x e = y.1 := by
  unfold xlatVictim
  dsimp only
  rw [h]

/-- An entry just installed is found. -/
theorem xlatFind_xlatInstall {own : List Nat} (hown : ∀ w ∈ own, w < 16) {e : XEntry} (h : Aligned e) (x : Xlat) :
    xlatFind (xlatInstall own e x) e.pasid (e.vpage * 4096) e.log2 = some (xlatVictim own x e, e) := by
  rw [xlatFind_eq]
  have hsame : ownPage (xlatInstall own e x) e (xlatVictim own x e) = some (xlatVictim own x e, e) := ownPage_mapSet_same h _ _
  have hne : ∀ i, i ≠ xlatVictim own x e → ownPage (xlatInstall own e x) e i = ownPage x e i := fun i hi => ownPage_mapSet_ne hi x e _
  cases hfound : xlatFind x e.pasid (e.vpage * 4096) e.log2 with
  | none => exact findSome?_update_of_none ((xlatFind_eq ..).symm.trans hfound) (xlatVictim_mem hown hfound) hne hsame
  | some y =>
    refine findSome?_update_of_some ((xlatFind_eq ..).symm.trans hfound) (fun i hi => ?_) hne hsame
    exact (pageIn_fst hi).symm.trans (xlatVictim_of_found hfound own).symm

/-! ### The entry that a completion grants (R338, R342) -/

/-- The first 4 KiB page of a larger page. -/
theorem pageBase_div {k : Nat} (hk : 12 ≤ k) (v : Nat) : v / 2 ^ k * 2 ^ (k - 12) * 4096 / 2 ^ k = v / 2 ^ k := by
  have hsize : 2 ^ (k - 12) * 4096 = 2 ^ k := by
    rw [show (4096 : Nat) = 2 ^ 12 by rfl, ← Nat.pow_add, Nat.sub_add_cancel hk]
  rw [Nat.mul_assoc, hsize, Nat.mul_div_cancel _ (Nat.two_pow_pos k)]

theorem grantedEntry_aligned {k : Nat} (hk : 12 ≤ k) (pasid tenant va addr : Nat) (r w : Bool) :
    Aligned (grantedEntry pasid tenant va k addr r w) := (congrArg (· * 2 ^ (k - 12)) (pageBase_div hk va)).symm

/-- A lookup depends on an address through its page alone. -/
theorem xlatFind_of_page {k va vb : Nat} (h : va / 2 ^ k = vb / 2 ^ k) (x : Xlat) (pasid : Nat) :
    xlatFind x pasid va k = xlatFind x pasid vb k := by
  have hset : xlatSet pasid va k = xlatSet pasid vb k := by rw [xlatSet, xlatSet, bits, bits, h]
  have hway : pageIn x pasid va k = pageIn x pasid vb k := by
    funext j
    rw [pageIn, pageIn, h]
  rw [xlatFind_eq, xlatFind_eq, hset, hway]

theorem xlatFind_granted {own : List Nat} (hown : ∀ w ∈ own, w < 16) {k : Nat} (hk : 12 ≤ k) (pasid tenant va addr : Nat) (r w : Bool)
    (x : Xlat) : (xlatFind (xlatInstall own (grantedEntry pasid tenant va k addr r w) x) pasid va k).map (fun j => j.2) =
      some (grantedEntry pasid tenant va k addr r w) := by
  have hfound := xlatFind_xlatInstall hown (grantedEntry_aligned hk pasid tenant va addr r w) x
  exact congrArg (Option.map fun j => j.2) ((xlatFind_of_page (pageBase_div hk va).symm _ _).trans hfound)

/-- The checks of an entry read the memory, the shard slots, the coordinates and the directory's switch. -/
theorem entryRefused_endTreq (q : TReq) (s : State) (e : XEntry) : entryRefused (endTreq q s) e = entryRefused s e := by
  have hmem : (endTreq q s).mem = s.mem := endTreq_only q s .mem (by decide)
  have hcoll : (endTreq q s).coll = s.coll := endTreq_only q s .coll (by decide)
  have hod (i j : Nat) (hj : j < 256) (hi : i ≠ 0x5200) : odGet (endTreq q s) i j = odGet s i j :=
    endTreq_entries q s i j hj (by simp [hi])
  have hown (c : BitVec 16) : ownGv (endTreq q s) c = ownGv s c := by
    rw [ownGv, ownGv, assigned, assigned, hod _ _ (by decide) (by decide), hod _ _ (by decide) (by decide),
      hod _ _ (by decide) (by decide)]
  have hbytes : usableBytes (endTreq q s) = usableBytes s := by rw [usableBytes, usableBytes, hmem]
  have husable : usable (endTreq q s) = usable s := by rw [usable, usable, hmem, hbytes]
  have hdir : dirEnabled (endTreq q s) = dirEnabled s := by rw [dirEnabled, dirEnabled, hod _ _ (by decide) (by decide)]
  have hclosed (off n : Nat) : closedRange (endTreq q s) off n = closedRange s off n := by
    simp only [closedRange, storeBase, dirBase, shardRegions, hbytes, hdir, hcoll]
  simp only [entryRefused, husable, hclosed, hown]

end Sys2Proof.Machine
end

section
/-! SUPPORT. Completions of Translation Requests (R342), and page requests as they are answered, time out and are stopped (R343, R344). -/

namespace Sys2Proof.Machine

open Sys2Proof

/-- A fold of steps that leave the translation unit leaves it. -/
theorem xlat_foldl {α : Type} {f : State → α → State} (h : ∀ u x, (f u x).xlat = u.xlat) (l : List α) (s : State) :
    (l.foldl f s).xlat = s.xlat :=
  List.foldlRecOn (motive := fun u => u.xlat = s.xlat) l f rfl fun u hu x _ => (h u x).trans hu

/-! ### ATS_COMPLETION and ATS_COMPLETION_TIMEOUT (R342) -/

/-- The oldest request of a page that has been sent. -/
def sentTreq (pasid vp : Nat) (s : State) : Option TReq := s.xlat.reqs.find? (fun r => r.sent && r.pasid == pasid && r.vpage == vp)

/-- A request ends without a translation: it is counted and reported, and every waiter takes fault XLATE. -/
def failTreq (o : Out) (va : Nat) (q : TReq) (s : State) : State :=
  failAll q.waiters fXlate va (emit o (bump 0x5200 0x15 (endTreq q s)))

/-- The entry that a completion grants. -/
def grantOf (q : TReq) (r w : Bool) (log2 addr : Nat) : XEntry :=
  grantedEntry q.pasid q.tenant (q.vpage * 4096) (pageLog2 log2)
    ((addr / 2 ^ log2 * 2 ^ log2 + q.vpage * 4096 % 2 ^ log2) / 2 ^ pageLog2 log2 * 2 ^ pageLog2 log2) r w

theorem atsCompletion_of_none {pasid vp : Nat} {s : State} (h : sentTreq pasid vp s = none) (res : AtsResult) :
    atsCompletion pasid vp res s = emit (.aer "Unexpected Completion") s := by
  rw [sentTreq] at h
  rw [atsCompletion, h]

theorem atsTimeout_of_none {pasid vp : Nat} {s : State} (h : sentTreq pasid vp s = none) : atsTimeout pasid vp s = s := by
  rw [sentTreq] at h
  rw [atsTimeout, h]

section
variable {pasid vp : Nat} {q : TReq} {s : State} (h : sentTreq pasid vp s = some q)
include h

theorem sentTreq_names : q.pasid = pasid ∧ q.vpage = vp := by
  have hq := List.find?_some h
  simp only [Bool.and_eq_true, beq_iff_eq] at hq
  obtain ⟨⟨-, hpasid⟩, hvp⟩ := hq
  exact ⟨hpasid, hvp⟩

theorem atsTimeout_of_some : atsTimeout pasid vp s = failTreq (.aer "Completion Timeout") (vp * 4096) q s := by
  rw [sentTreq] at h
  rw [atsTimeout, h]
  rfl

theorem atsCompletion_failed :
    atsCompletion pasid vp .failed s = failTreq (.aer "Translation Request failed") (vp * 4096) q s := by
  rw [sentTreq] at h
  rw [atsCompletion, h]
  rfl

theorem atsCompletion_ok (u r w : Bool) (log2 : Nat) (addr : BitVec 64) : atsCompletion pasid vp (.ok u r w log2 addr) s =
    if q.stale then missWait pasid (vp * 4096) q.final q.waiters (bump 0x5200 0x14 (endTreq q s))
    else if u || (!r && !w) then
      if q.final then failAll q.waiters fPerm (vp * 4096) (endTreq q s)
      else q.waiters.foldl (fun s x => pageFault pasid (vp * 4096) x.2 x.1 s) (endTreq q s)
    else installGrant q r w log2 addr.toNat (endTreq q s) := by
  rw [sentTreq] at h
  rw [atsCompletion, h]

end

theorem failTreq_entries (o : Out) (va : Nat) (q : TReq) (s : State) : (failTreq o va q s).xlat.entries = s.xlat.entries := by
  rw [failTreq, failAll_xlat]
  exact (endTreq_reqsOnly q s).entries

theorem odGet_failTreq (o : Out) (va : Nat) (q : TReq) {s : State} (h : odGet s 0x5200 0x15 < 2 ^ 63) :
    odGet (failTreq o va q s) 0x5200 0x15 = odGet s 0x5200 0x15 + 1 := by
  rw [failTreq, failAll_entries _ _ _ _ 0x5200 0x15 (by decide) (by decide), odGet_emit, odGet_bump_same,
    endTreq_entries q s 0x5200 0x15 (by decide) (by decide)]
  omega

/-- The waiters of a request that has ended are stopped by a fault, whatever was counted and sent meanwhile. -/
theorem stopped_failAll_of_ended {q : TReq} {s u : State} (hu : u.cmp = (endTreq q s).cmp) {x : Waiter × Nat} (hx : x ∈ q.waiters)
    (h : Going (waiterCtx x.1) s) (code va : Nat) : Stopped (waiterCtx x.1) (failAll q.waiters code va u) := by
  refine stopped_failAll hx ?_ code va
  rwa [Going, ctxAt_of_cmp hu, ctxAt_endTreq]

@[simp] theorem suspendCtx_xlat (w : Waiter) (s : State) : (suspendCtx w s).xlat = s.xlat :=
  suspendCtx_parts w (List.Subset.refl _) (.refl _ s) .xlat (by decide)

@[simp] theorem failWaiter_xlat (code va : Nat) (w : Waiter) (s : State) : (failWaiter code va w s).xlat = s.xlat :=
  failWaiter_parts code va w (List.Subset.refl _) (.refl _ s) .xlat (by decide)

@[simp] theorem resumeWaiter_xlat (w : Waiter) (s : State) : (resumeWaiter w s).xlat = s.xlat :=
  resumeWaiter_parts w (List.Subset.refl _) (.refl _ s) .xlat (by decide)

/-- A fault that needs a page request installs and removes nothing. -/
theorem pageFault_entries (pasid va need : Nat) (w : Waiter) (s : State) :
    (pageFault pasid va need w s).xlat.entries = s.xlat.entries := by
  unfold pageFault
  dsimp only
  split
  · rw [failWaiter_xlat]
  · split
    · rw [suspendCtx_xlat]
      rfl
    · split
      · rw [suspendCtx_xlat]
        rfl
      · rfl

theorem foldl_pageFault_entries (pasid va : Nat) (ws : List (Waiter × Nat)) (s : State) :
    (ws.foldl (fun s x => pageFault pasid va x.2 x.1 s) s).xlat.entries = s.xlat.entries :=
  List.foldlRecOn (motive := fun u => u.xlat.entries = s.xlat.entries) ws _ rfl
    fun u hu x _ => (pageFault_entries pasid va x.2 x.1 u).trans hu

/-! ### Grants (R338, R342) -/

theorem installGrant_of_refused {q : TReq} {r w : Bool} {log2 addr : Nat} {s : State}
    (h : entryRefused s (grantOf q r w log2 addr) = true) :
    installGrant q r w log2 addr s = failAll q.waiters fSpace (q.vpage * 4096) (bump 0x5200 0x16 s) := if_pos h

/-- A bit of an access is lacking. -/
def lacksBits (r w : Bool) (need : Nat) : Bool := (bit need 0 && !r) || (bit need 1 && !w)

/-- What an installed entry does for a waiter: it goes on, or takes fault PERM where the result is final and lacks a bit. -/
def grantWaiter (q : TReq) (r w : Bool) (s : State) (x : Waiter × Nat) : State :=
  if q.final && lacksBits r w x.2 then failWaiter fPerm (q.vpage * 4096) x.1 s else resumeWaiter x.1 s

theorem installGrant_of_admitted {q : TReq} {r w : Bool} {log2 addr : Nat} {s : State}
    (h : entryRefused s (grantOf q r w log2 addr) = false) : installGrant q r w log2 addr s =
      q.waiters.foldl (grantWaiter q r w)
        (bump 0x5200 0x13 (modXlat (xlatInstall (tenantWays s q.tenant) (grantOf q r w log2 addr)) s)) :=
  if_neg (ne_true_of_eq_false h)

@[simp] theorem grantWaiter_xlat (q : TReq) (r w : Bool) (s : State) (x : Waiter × Nat) : (grantWaiter q r w s x).xlat = s.xlat := by
  unfold grantWaiter
  split
  · exact failWaiter_xlat ..
  · exact resumeWaiter_xlat ..

theorem installGrant_xlat {q : TReq} {r w : Bool} {log2 addr : Nat} {s : State}
    (h : entryRefused s (grantOf q r w log2 addr) = false) :
    (installGrant q r w log2 addr s).xlat = xlatInstall (tenantWays s q.tenant) (grantOf q r w log2 addr) s.xlat := by
  rw [installGrant_of_admitted h]
  exact xlat_foldl (grantWaiter_xlat q r w) q.waiters _

/-- Where the result is not final every waiter of an entry installed goes on. -/
theorem awake_installGrant {q : TReq} {r w : Bool} {log2 addr : Nat} {s : State}
    (h : entryRefused s (grantOf q r w log2 addr) = false) (hfinal : q.final = false) {x : Waiter × Nat} (hx : x ∈ q.waiters) {j : Nat}
    (hj : j < 4) (hstream : x.1 = .stream (waiterCtx x.1) j) : Awake (waiterCtx x.1) j (installGrant q r w log2 addr s) := by
  have hgo : grantWaiter q r w = fun u y => resumeWaiter y.1 u := by
    funext u y
    rw [grantWaiter, hfinal, Bool.false_and]
    rfl
  rw [installGrant_of_admitted h, hgo]
  exact awake_resumeAll hx hj hstream _

theorem pageLog2_ge (log2 : Nat) : 12 ≤ pageLog2 log2 := by
  unfold pageLog2
  split_ifs <;> decide

/-- An entry admitted is found at its page. -/
theorem xlatFind_installGrant {q : TReq} {r w : Bool} {log2 addr : Nat} {s : State}
    (h : entryRefused s (grantOf q r w log2 addr) = false) :
    (xlatFind (installGrant q r w log2 addr s).xlat q.pasid (q.vpage * 4096) (pageLog2 log2)).map (fun j => j.2) =
      some (grantOf q r w log2 addr) := by
  rw [installGrant_xlat h]
  exact xlatFind_granted (fun _ => tenantWays_lt) (pageLog2_ge log2) ..

/-! ### Page requests (R343, R344) -/

/-- A page request is unlisted. -/
def unlistPage (i : Nat) : State → State := modXlat (fun x => { x with pages := mapErase x.pages i, pageWait := [] })

/-- Where no fault waits for room, a page request that ends is only unlisted. -/
theorem endPage_of_no_wait {s : State} (h : s.xlat.pageWait = []) (i : Nat) : endPage i s = unlistPage i s := by
  unfold endPage
  rw [h]
  rfl

/-- Page requests are unlisted, and none is sent any more. -/
def haltPages : State → State := modXlat (fun x => { x with pages := [], pageWait := [], stopped := true })

/-- Every waiter of a page request takes fault XLATE. -/
def failPage (s : State) (p : Nat × PageReq) : State := failAll p.2.waiters fXlate (p.2.vpage * 4096) s

/-- A fault that waits for room takes fault XLATE. -/
def failLater (s : State) (w : Nat × Nat × Waiter × Nat) : State := failWaiter fXlate (w.2.1 * 4096) w.2.2.1 s

theorem stopPages_eq (s : State) : stopPages s = s.xlat.pageWait.foldl failLater (s.xlat.pages.foldl failPage (haltPages s)) := rfl

theorem stopPages_xlat (s : State) : (stopPages s).xlat = { s.xlat with pages := [], pageWait := [], stopped := true } := by
  rw [stopPages_eq, xlat_foldl (f := failLater) (fun u w => failWaiter_xlat _ _ _ u),
    xlat_foldl (f := failPage) (fun u p => failAll_xlat _ _ _ u)]
  rfl

/-- Every waiter of every page request is stopped. -/
theorem stopped_stopPages {s : State} {y : Nat × PageReq} (hy : y ∈ s.xlat.pages) {x : Waiter × Nat} (hx : x ∈ y.2.waiters)
    (h : Going (waiterCtx x.1) s) : Stopped (waiterCtx x.1) (stopPages s) := by
  have hhalted : Going (waiterCtx x.1) (haltPages s) := h
  have hpages : Stopped (waiterCtx x.1) (s.xlat.pages.foldl failPage (haltPages s)) :=
    stopped_foldl hy (fun u p => failAll_stopsOnly p.2.waiters fXlate (p.2.vpage * 4096) u)
      (fun _ hu => stopped_failAll hx hu fXlate (y.2.vpage * 4096)) hhalted
  have hlater := StopsOnly.foldl (f := failLater) s.xlat.pageWait
    (fun u w => ctxFault_stopsOnly (waiterCtx w.2.2.1) fXlate (w.2.1 * 4096) u) (s.xlat.pages.foldl failPage (haltPages s))
  rw [stopPages_eq]
  exact hlater.stopped hpages

theorem pageResponse_of_unmatched {pasid i : Nat} {s : State}
    (h : (mapGet s.xlat.pages i).all (fun p => p.pasid != pasid) = true) (code : Nat) :
    pageResponse pasid i code s = bump 0x5200 0x1B s := by
  unfold pageResponse
  cases hpage : mapGet s.xlat.pages i with
  | none => rfl
  | some p =>
    rw [hpage] at h
    exact if_pos (by simpa using h)

theorem pageTimeout_of_none {i : Nat} {s : State} (h : mapGet s.xlat.pages i = none) : pageTimeout i s = s := by
  rw [pageTimeout, h]

section
variable {i : Nat} {p : PageReq} {s : State} (h : mapGet s.xlat.pages i = some p)
include h

theorem pageResponse_of_matched (code : Nat) : pageResponse p.pasid i code s =
    if code = 0 then
      endPage i (missWait p.pasid (p.vpage * 4096) true p.waiters (modXlat (fun x => { x with pages := mapErase x.pages i }) s))
    else if code = 15 then stopPages (bump 0x5200 0x1A s)
    else failAll p.waiters fXlate (p.vpage * 4096) (endPage i (bump 0x5200 0x19 s)) := by
  rw [pageResponse, h]
  exact if_neg (not_not.mpr rfl)

theorem pageTimeout_of_some : pageTimeout i s = failAll p.waiters fXlate (p.vpage * 4096) (endPage i s) := by
  rw [pageTimeout, h]

end

/-- The page request is asked for once more, finally: nothing else of the translation unit waits for it. -/
theorem pageSuccess_effect {s : State} (hwait : s.xlat.pageWait = []) (i : Nat) (p : PageReq) {t : State}
    (ht : t = endPage i (missWait p.pasid (p.vpage * 4096) true p.waiters (modXlat (fun x => { x with pages := mapErase x.pages i }) s))) :
    mapGet t.xlat.pages i = none ∧ t.xlat.entries = s.xlat.entries ∧ Asked p.pasid p.vpage true p.waiters t := by
  have hreqs := missWait_reqsOnly p.pasid (p.vpage * 4096) true p.waiters (modXlat (fun x => { x with pages := mapErase x.pages i }) s)
  have hasked := asked_missWait p.pasid (p.vpage * 4096) true p.waiters (modXlat (fun x => { x with pages := mapErase x.pages i }) s)
  rw [Nat.mul_div_cancel _ (by decide)] at hasked
  rw [endPage_of_no_wait (hreqs.pageWait.trans hwait)] at ht
  subst ht
  exact ⟨mapGet_mapErase_same _ i, hreqs.entries, hasked⟩

/-- A page request that ends without its page: its waiters are stopped, and nothing is installed. -/
theorem pageFailed_effect {s u : State} (hu : u.xlat = s.xlat) (hcmp : u.cmp = s.cmp) (hwait : s.xlat.pageWait = []) (i code va : Nat)
    (ws : List (Waiter × Nat)) {t : State} (ht : t = failAll ws code va (endPage i u)) :
    mapGet t.xlat.pages i = none ∧ t.xlat.entries = s.xlat.entries ∧
      ∀ x ∈ ws, Going (waiterCtx x.1) s → Stopped (waiterCtx x.1) t := by
  subst ht
  rw [endPage_of_no_wait (by rw [hu, hwait])]
  have hentries : (unlistPage i u).xlat.entries = s.xlat.entries := (congrArg Xlat.entries hu : u.xlat.entries = s.xlat.entries)
  rw [failAll_xlat]
  refine ⟨mapGet_mapErase_same _ i, hentries, fun x hx hgoing => stopped_failAll hx ?_ code va⟩
  rwa [Going, ctxAt_of_cmp (t := unlistPage i u) hcmp]

end Sys2Proof.Machine
end

section
/-! SUPPORT. Invalidations as they are accepted, wait, drain and end (R346–R348). -/

namespace Sys2Proof.Machine

open Sys2Proof

/-! ### The entries that an invalidation removes (R346) -/

/-- Filtering a table by its keys. -/
theorem mapGet_filter_key {α : Type} (p : Nat → Bool) (m : NMap α) (j : Nat) :
    mapGet (m.filter (fun e => p e.1)) j = if p j then mapGet m j else none := by
  induction m with
  | nil => simp [mapGet]
  | cons e r ih =>
    by_cases hj : e.1 = j
    · subst hj
      by_cases hp : p e.1 <;> simp [hp, mapGet, ih]
    · by_cases hp : p e.1 <;> simp [hp, mapGet, ih, hj]

/-- The keys of the entries that meet a range. -/
def keysIn (pasid : Option Nat) (base n : Nat) (m : NMap XEntry) : List Nat :=
  (m.filter (fun e => entryIn pasid base n e.2)).map (fun e => e.1)

/-- The entries that an invalidation leaves. -/
def entriesLeft (pasid : Option Nat) (base n : Nat) (m : NMap XEntry) : NMap XEntry :=
  m.filter (fun e => !(keysIn pasid base n m).contains e.1)

/-- Where each key is listed once, exactly the entries outside the range stay. -/
theorem mapGet_entriesLeft {m : NMap XEntry} (h : keysRise m = true) (pasid : Option Nat) (base n j : Nat) :
    mapGet (entriesLeft pasid base n m) j = (mapGet m j).filter (fun e => !entryIn pasid base n e) := by
  rw [entriesLeft, mapGet_filter_key (fun k => !(keysIn pasid base n m).contains k)]
  cases hentry : mapGet m j with
  | none => simp
  | some e =>
    have hcontains : (keysIn pasid base n m).contains j = entryIn pasid base n e := by
      rw [Bool.eq_iff_iff, List.contains_iff_mem, keysIn, List.mem_map]
      constructor
      · rintro ⟨y, hy, rfl⟩
        obtain ⟨hmem, hin⟩ := List.mem_filter.mp hy
        rwa [← Option.some.inj ((mapGet_of_mem h hmem).symm.trans hentry)]
      · exact fun hin => ⟨(j, e), List.mem_filter.mpr ⟨mem_of_mapGet hentry, hin⟩, rfl⟩
    rw [hcontains, Option.filter_some]

/-- A range that every entry meets leaves none. -/
theorem entriesLeft_of_all {m : NMap XEntry} {pasid : Option Nat} {base n : Nat} (h : ∀ e ∈ m, entryIn pasid base n e.2 = true) :
    entriesLeft pasid base n m = [] := by
  refine List.filter_eq_nil_iff.mpr fun e he => ?_
  have hmem : e.1 ∈ keysIn pasid base n m := List.mem_map.mpr ⟨e, List.mem_filter.mpr ⟨he, h e he⟩, rfl⟩
  simpa using hmem

/-- Every page of every PASID meets the whole of the virtual addresses. -/
theorem entryIn_everything {e : XEntry} (h : e.vpage < 2 ^ 52) : entryIn none 0 (2 ^ 64) e = true := by
  have hpos := Nat.two_pow_pos e.log2
  simp only [entryIn, Option.getD_none, beq_self_eq_true, Bool.true_and, rangesMeet, Bool.and_eq_true, decide_eq_true_eq]
  omega

/-! ### Acceptance (R346) -/

/-- The translation unit once the entries of a range are removed and the requests for its pages are stale. -/
def removeRange (pasid : Option Nat) (base n : Nat) (x : Xlat) : Xlat :=
  { x with
    entries := entriesLeft pasid base n x.entries, lru := x.lru.filter (fun j => !(keysIn pasid base n x.entries).contains j),
    reqs := x.reqs.map (fun r =>
      if r.sent && pasid.getD r.pasid == r.pasid && rangesMeet (r.vpage * 4096) 4096 base n then { r with stale := true } else r) }

/-- The machine once the dirty lines of the PASID are on their way back. -/
def writeBackAll (pasid : Option Nat) (s : State) : State := (dirtyOf s pasid).foldl (fun s k => writeBackLine k s) s

/-- The commands that an invalidation waits for. -/
def snapshotUses (pasid : Option Nat) (base n : Nat) (s : State) : List Nat :=
  ((arrayCommands s).filter (useIn pasid base n)).map (fun c => c.2.id)

theorem acceptInval_eq (itag : Nat) (host : Bool) (pasid : Option Nat) (base n : Nat) (s : State) {u : State}
    (hu : u = writeBackAll pasid (modXlat (removeRange pasid base n) s)) : acceptInval itag host pasid base n s =
      bump 0x5200 0x17 (modXlat (fun x => { x with
        invals := x.invals ++ [{ itag := itag, host := host, since := u.time.ft, uses := snapshotUses pasid base n u }] }) u) := by
  subst hu
  rfl

theorem writeBackAll_only (pasid : Option Nat) (s : State) :
    Only [.bep, .ep, .grotto, .cmp, .mem, .dict, .host, .can, .log, .pwr, .sent] s (writeBackAll pasid s) :=
  .foldl _ (fun _ k hu => writeBackLine_parts k (List.Subset.refl _) hu) (.refl _ s)

/-- The translation unit after an acceptance. -/
theorem acceptInval_xlat (itag : Nat) (host : Bool) (pasid : Option Nat) (base n : Nat) (s : State) :
    ∃ uses, (acceptInval itag host pasid base n s).xlat = { removeRange pasid base n s.xlat with
      invals := s.xlat.invals ++ [{ itag := itag, host := host, since := s.time.ft, uses := uses }] } := by
  have honly := writeBackAll_only pasid (modXlat (removeRange pasid base n) s)
  have hxlat : (writeBackAll pasid (modXlat (removeRange pasid base n) s)).xlat = removeRange pasid base n s.xlat :=
    honly .xlat (by decide)
  have htime : (writeBackAll pasid (modXlat (removeRange pasid base n) s)).time = s.time := honly .time (by decide)
  refine ⟨snapshotUses pasid base n (writeBackAll pasid (modXlat (removeRange pasid base n) s)), ?_⟩
  rw [acceptInval_eq _ _ _ _ _ _ rfl, bump_xlat, modXlat_xlat, hxlat, htime]
  rfl

theorem acceptInval_entries (itag : Nat) (host : Bool) (pasid : Option Nat) (base n : Nat) (s : State) :
    (acceptInval itag host pasid base n s).xlat.entries = entriesLeft pasid base n s.xlat.entries := by
  obtain ⟨uses, hxlat⟩ := acceptInval_xlat itag host pasid base n s
  rw [hxlat]
  rfl

/-- An acceptance adds one invalidation, accepted now. -/
theorem acceptInval_invals (itag : Nat) (host : Bool) (pasid : Option Nat) (base n : Nat) (s : State) :
    (acceptInval itag host pasid base n s).xlat.invals.map (fun v => (v.itag, v.host, v.since)) =
      s.xlat.invals.map (fun v => (v.itag, v.host, v.since)) ++ [(itag, host, s.time.ft)] := by
  obtain ⟨uses, hxlat⟩ := acceptInval_xlat itag host pasid base n s
  rw [hxlat]
  exact List.map_append

/-! ### The end of invalidations (R347, R348) -/

/-- Whether a snapshot has drained is read from the resident BEP's source. -/
theorem drained_of_ep {s t : State} (h : t.ep = s.ep) (v : Inval) : drained t v = drained s v := by
  simp only [drained, arrayCommands, h]

theorem endInval_ep (v : Inval) (s : State) : (endInval v s).ep = s.ep := by
  unfold endInval
  dsimp only
  split <;> rfl

theorem endInval_xlat (v : Inval) (s : State) : (endInval v s).xlat =
    { s.xlat with invals := s.xlat.invals.erase v, longest := max s.xlat.longest (s.time.ft - v.since) } := by
  unfold endInval
  dsimp only
  split <;> rfl

theorem endInval_sent {v : Inval} (h : v.host = true) (s : State) : (endInval v s).sent = .invalidateCompletion v.itag :: s.sent := by
  unfold endInval
  dsimp only
  rw [if_pos h]
  rfl

/-- The GV24's own invalidations that have drained end. -/
def endOwnInvals (s : State) : State := (s.xlat.invals.filter (fun v => !v.host && drained s v)).foldl (fun s v => endInval v s) s

theorem endOwnInvals_entries (s : State) : (endOwnInvals s).xlat.entries = s.xlat.entries :=
  List.foldlRecOn (motive := fun u => u.xlat.entries = s.xlat.entries) _ _ rfl
    fun u hu v _ => (congrArg Xlat.entries (endInval_xlat v u)).trans hu

theorem endOwnInvals_of_none {s : State} (h : s.xlat.invals.all (fun v => v.host || !drained s v) = true) : endOwnInvals s = s := by
  have hown : s.xlat.invals.filter (fun v => !v.host && drained s v) = [] := by
    refine List.filter_eq_nil_iff.mpr fun v hv => ?_
    have hv := List.all_eq_true.mp h v hv
    cases hhost : v.host with
    | true => simp
    | false => simpa [hhost] using hv
  rw [endOwnInvals, hown, List.foldl_nil]

/-- The first invalidation that waits at the function is accepted where there is room. -/
def acceptWaiting (s : State) : State :=
  match s.xlat.waiting with
  | [] => s
  | (itag, p, base, n) :: r =>
    if s.xlat.invals.length < 32 then acceptInval itag true p base n (modXlat (fun x => { x with waiting := r }) s) else s

theorem settleInvals_eq (s : State) : settleInvals s = acceptWaiting (endOwnInvals s) := rfl

theorem settleInvals_of_idle {s : State} (hwaiting : s.xlat.waiting = [])
    (hnone : s.xlat.invals.all (fun v => v.host || !drained s v) = true) : settleInvals s = s := by
  rw [settleInvals_eq, endOwnInvals_of_none hnone, acceptWaiting, hwaiting]

/-- Where no entry is left, an acceptance brings none. -/
theorem acceptWaiting_entries_nil {s : State} (h : s.xlat.entries = []) : (acceptWaiting s).xlat.entries = [] := by
  unfold acceptWaiting
  split
  · exact h
  · split
    · rw [acceptInval_entries, modXlat_xlat, h]
      rfl
    · exact h

theorem settleInvals_entries_nil {s : State} (h : s.xlat.entries = []) : (settleInvals s).xlat.entries = [] :=
  acceptWaiting_entries_nil ((endOwnInvals_entries s).trans h)

/-! ### The commands (R346–R348) -/

theorem atsInvalidate_of_room {s : State} (h : s.xlat.invals.length < 32) (itag : Nat) (pasid : Option Nat) (global : Bool)
    (base log2 : Nat) : atsInvalidate itag pasid global base log2 s =
      acceptInval itag true (if global then none else pasid) (base / 2 ^ log2 * 2 ^ log2) (2 ^ log2) s := if_pos h

theorem atsInvalidate_of_full {s : State} (h : 32 ≤ s.xlat.invals.length) (itag : Nat) (pasid : Option Nat) (global : Bool)
    (base log2 : Nat) : atsInvalidate itag pasid global base log2 s = modXlat (fun x => { x with
      waiting := x.waiting ++ [(itag, if global then none else pasid, base / 2 ^ log2 * 2 ^ log2, 2 ^ log2)] }) s :=
  if_neg (Nat.not_lt.mpr h)

/-- The invalidation of the host with an ITAG. -/
def hostInval (itag : Nat) (s : State) : Option Inval := s.xlat.invals.find? (fun v => v.host && v.itag == itag)

section
variable {itag : Nat} {s : State} (hwaiting : s.xlat.waiting = [])
  (hnone : s.xlat.invals.all (fun v => v.host || !drained s v) = true)
include hwaiting hnone

theorem invalidateCompletion_of_none (h : hostInval itag s = none) : invalidateCompletion itag s = s := by
  rw [hostInval] at h
  rw [invalidateCompletion, h]
  exact settleInvals_of_idle hwaiting hnone

theorem invalidateCompletion_of_draining {v : Inval} (h : hostInval itag s = some v) (hdrained : drained s v = false) :
    invalidateCompletion itag s = s := by
  rw [hostInval] at h
  rw [invalidateCompletion, h]
  dsimp only
  rw [if_neg (ne_true_of_eq_false hdrained)]
  exact settleInvals_of_idle hwaiting hnone

/-- Where only the host's invalidations have drained, the one that ends is the only one. -/
theorem invalidateCompletion_of_drained {v : Inval} (h : hostInval itag s = some v) (hdrained : drained s v = true) :
    invalidateCompletion itag s = endInval v s := by
  rw [hostInval] at h
  rw [invalidateCompletion, h]
  dsimp only
  rw [if_pos hdrained]
  refine settleInvals_of_idle ?_ (List.all_eq_true.mpr fun w hw => ?_)
  · rw [endInval_xlat]
    exact hwaiting
  · rw [endInval_xlat] at hw
    rw [drained_of_ep (endInval_ep v s)]
    exact List.all_eq_true.mp hnone w (List.mem_of_mem_erase hw)

end

theorem hostInval_names {itag : Nat} {s : State} {v : Inval} (h : hostInval itag s = some v) : v.host = true ∧ v.itag = itag := by
  have hv := List.find?_some h
  simpa using hv

theorem invalidateAll_entries {s : State} (h : s.xlat.entries.all (fun e => decide (e.2.vpage < 2 ^ 52)) = true) (src : Route) (v : Nat) :
    (invalidateAll src v s).xlat.entries = [] := by
  have hxlat : (onlyOne src 0x5200 5 v (beginOp s)).xlat = s.xlat := onlyOne_only src 0x5200 5 v (beginOp s) .xlat (by decide)
  refine settleInvals_entries_nil ?_
  rw [acceptInval_entries, hxlat]
  exact entriesLeft_of_all fun e he => entryIn_everything (of_decide_eq_true (List.all_eq_true.mp h e he))

end Sys2Proof.Machine
end

section
/-! SUPPORT. The commands of the translation unit (R341–R348), and the statement about them. -/

namespace Sys2Proof.Machine

open Sys2Proof

theorem exec_atsCompletion (pasid : BitVec 20) (vp : BitVec 52) (res : AtsResult) (s : State) :
    exec (.atsCompletion pasid vp res) s = .next (atsCompletion pasid.toNat vp.toNat res s) := rfl

theorem exec_atsCompletionTimeout (pasid : BitVec 20) (vp : BitVec 52) (s : State) :
    exec (.atsCompletionTimeout pasid vp) s = .next (atsTimeout pasid.toNat vp.toNat s) := rfl

theorem exec_pageResponse (pasid : BitVec 20) (i : Nat) (code : BitVec 4) (s : State) :
    exec (.pageResponse pasid i code) s = .next (pageResponse pasid.toNat i code.toNat s) := rfl

theorem exec_pageRequestTimeout (i : Nat) (s : State) : exec (.pageRequestTimeout i) s = .next (pageTimeout i s) := rfl

theorem exec_priReset (s : State) : exec .priReset s = .next (modXlat (fun x => { x with stopped := false }) (stopPages s)) := rfl

theorem exec_priEnableClear (s : State) : exec .priEnableClear s = .next (stopPages (modXlat (fun x => { x with pri := false }) s)) := rfl

theorem exec_atsInvalidate (itag : BitVec 5) (pasid : Option (BitVec 20)) (global : Bool) (base : BitVec 64) (log2 : Nat) (s : State) :
    exec (.atsInvalidate itag pasid global base log2) s =
      .next (atsInvalidate itag.toNat (pasid.map (fun x => x.toNat)) global base.toNat (min 64 log2) s) := rfl

theorem exec_invalidateCompletion (itag : BitVec 5) (s : State) :
    exec (.invalidateCompletion itag) s = .next (invalidateCompletion itag.toNat s) := rfl

theorem exec_invalidateAll (src : Route) (v : BitVec 8) (s : State) :
    exec (.invalidateAll src v) s = .next (invalidateAll src v.toNat s) := rfl

/-! ### Completions (R342) -/

section
variable {pasid : BitVec 20} {vp : BitVec 52} {q : TReq} {s : State} (h : sentTreq pasid.toNat vp.toNat s = some q)
include h

/-- A completion that fails, or none in time, installs nothing, is counted, and stops every waiter. -/
theorem completion_fails : ∀ y ∈ ([.atsCompletion pasid vp .failed, .atsCompletionTimeout pasid vp] : List Instr), ∃ t : State,
    exec y s = .next t ∧ t.xlat.entries = s.xlat.entries ∧
      (odGet s 0x5200 0x15 < 2 ^ 63 → odGet t 0x5200 0x15 = odGet s 0x5200 0x15 + 1) ∧
      ∀ x ∈ q.waiters, Going (waiterCtx x.1) s → Stopped (waiterCtx x.1) t := by
  have hfails : ∀ y ∈ ([.atsCompletion pasid vp .failed, .atsCompletionTimeout pasid vp] : List Instr),
      ∃ o : Out, exec y s = .next (failTreq o (vp.toNat * 4096) q s) := by
    simp only [List.mem_cons, List.not_mem_nil, or_false]
    rintro y (rfl | rfl)
    · exact ⟨_, congrArg _ (atsCompletion_failed h)⟩
    · exact ⟨_, congrArg _ (atsTimeout_of_some h)⟩
  intro y hy
  obtain ⟨o, hexec⟩ := hfails y hy
  exact ⟨_, hexec, failTreq_entries o _ q s, odGet_failTreq o _ q,
    fun x hx hgoing => stopped_failAll_of_ended (u := emit o (bump 0x5200 0x15 (endTreq q s))) rfl hx hgoing fXlate _⟩

/-- A completion of a request sent before an invalidation of its page: the page is asked for again. -/
theorem completion_stale (hstale : q.stale = true) (u r w : Bool) (log2 : Nat) (addr : BitVec 64) : ∃ t : State,
    exec (.atsCompletion pasid vp (.ok u r w log2 addr)) s = .next t ∧ t.xlat.entries = s.xlat.entries ∧
      ∃ p ∈ t.xlat.reqs, p.pasid = pasid.toNat ∧ p.vpage = vp.toNat ∧ p.stale = false ∧ ∀ x ∈ q.waiters, x ∈ p.waiters := by
  have hasked := asked_missWait pasid.toNat (vp.toNat * 4096) q.final q.waiters (bump 0x5200 0x14 (endTreq q s))
  rw [Nat.mul_div_cancel _ (by decide)] at hasked
  obtain ⟨p, hp, hpasid, hvp, hfresh, -, hws⟩ := hasked
  rw [exec_atsCompletion, atsCompletion_ok h, if_pos hstale]
  exact ⟨_, rfl, (missWait_reqsOnly ..).entries.trans (endTreq_reqsOnly q s).entries, p, hp, hpasid, hvp, hfresh, hws⟩

/-- A completion that grants neither R nor W installs nothing; a final one stops every waiter. -/
theorem completion_denies (hstale : q.stale = false) {u r w : Bool} (hdenied : u = true ∨ (r = false ∧ w = false)) (log2 : Nat)
    (addr : BitVec 64) : ∃ t : State, exec (.atsCompletion pasid vp (.ok u r w log2 addr)) s = .next t ∧
      t.xlat.entries = s.xlat.entries ∧
      (q.final = true → ∀ x ∈ q.waiters, Going (waiterCtx x.1) s → Stopped (waiterCtx x.1) t) := by
  have hcond : (u || (!r && !w)) = true := by simpa using hdenied
  have hended : (endTreq q s).xlat.entries = s.xlat.entries := (endTreq_reqsOnly q s).entries
  rw [exec_atsCompletion, atsCompletion_ok h, if_neg (ne_true_of_eq_false hstale), if_pos hcond]
  refine ⟨_, rfl, ?_⟩
  cases hfinal : q.final with
  | true =>
    rw [if_pos rfl, failAll_xlat]
    exact ⟨hended, fun _ x hx hgoing => stopped_failAll_of_ended rfl hx hgoing fPerm _⟩
  | false =>
    rw [if_neg Bool.false_ne_true]
    exact ⟨(foldl_pageFault_entries ..).trans hended, fun hf => absurd hf Bool.false_ne_true⟩

/-- A completion that grants R or W installs the entry where R338 admits it, and lets the waiters go on. -/
theorem completion_grants (hstale : q.stale = false) {r w : Bool} (hgranted : r = true ∨ w = true) (log2 : Nat) (addr : BitVec 64)
    {e : XEntry} (he : e = grantedEntry pasid.toNat q.tenant (vp.toNat * 4096) (pageLog2 log2)
      ((addr.toNat / 2 ^ log2 * 2 ^ log2 + vp.toNat * 4096 % 2 ^ log2) / 2 ^ pageLog2 log2 * 2 ^ pageLog2 log2) r w) : ∃ t : State,
    exec (.atsCompletion pasid vp (.ok false r w log2 addr)) s = .next t ∧
      (entryRefused s e = true → t.xlat.entries = s.xlat.entries) ∧
      (entryRefused s e = false → (xlatFind t.xlat pasid.toNat (vp.toNat * 4096) (pageLog2 log2)).map (fun j => j.2) = some e ∧
        (q.final = false → ∀ x ∈ q.waiters, ∀ j ∈ List.range 4, x.1 = .stream (waiterCtx x.1) j →
          Awake (waiterCtx x.1) j t)) := by
  have hcond : ¬(false || (!r && !w)) = true := by
    rcases hgranted with rfl | rfl <;> simp
  obtain ⟨hpasid, hvp⟩ := sentTreq_names h
  have hentry : e = grantOf q r w log2 addr.toNat := by rw [he, grantOf, hpasid, hvp]
  rw [exec_atsCompletion, atsCompletion_ok h, if_neg (ne_true_of_eq_false hstale), if_neg hcond]
  refine ⟨_, rfl, ?_⟩
  rw [hentry, ← entryRefused_endTreq q s]
  refine ⟨fun hrefused => ?_, fun hadmitted => ⟨?_, fun hfinal x hx j hj hstream => ?_⟩⟩
  · rw [installGrant_of_refused hrefused, failAll_xlat]
    exact (endTreq_reqsOnly q s).entries
  · rw [← hpasid, ← hvp]
    exact xlatFind_installGrant hadmitted
  · exact awake_installGrant hadmitted hfinal hx (List.mem_range.mp hj) hstream

end

/-! ### Page requests (R344) -/

section
variable {pasid : BitVec 20} {i : Nat} {p : PageReq} {s : State} (h : mapGet s.xlat.pages i = some p) (hpasid : p.pasid = pasid.toNat)
include h hpasid

theorem exec_pageResponse_of_matched (code : BitVec 4) : exec (.pageResponse pasid i code) s = .next (
    if code.toNat = 0 then
      endPage i (missWait p.pasid (p.vpage * 4096) true p.waiters (modXlat (fun x => { x with pages := mapErase x.pages i }) s))
    else if code.toNat = 15 then stopPages (bump 0x5200 0x1A s)
    else failAll p.waiters fXlate (p.vpage * 4096) (endPage i (bump 0x5200 0x19 s))) := by
  rw [exec_pageResponse, ← hpasid, pageResponse_of_matched h]

/-- Success: the translation is asked for once more, finally. -/
theorem response_succeeds (hwait : s.xlat.pageWait = []) : ∃ t : State, exec (.pageResponse pasid i 0) s = .next t ∧
    mapGet t.xlat.pages i = none ∧ t.xlat.entries = s.xlat.entries ∧
      ∃ q ∈ t.xlat.reqs, q.pasid = p.pasid ∧ q.vpage = p.vpage ∧ q.stale = false ∧ q.final = true ∧
        ∀ x ∈ p.waiters, x ∈ q.waiters := by
  obtain ⟨hgone, hentries, q, hq, hqp, hqv, hstale, hfinal, hws⟩ := pageSuccess_effect hwait i p rfl
  exact ⟨_, exec_pageResponse_of_matched h hpasid 0, hgone, hentries, q, hq, hqp, hqv, hstale, hfinal rfl, hws⟩

/-- Response Failure: every page request ends, none is sent any more, and every waiter is stopped. -/
theorem response_failure : ∃ t : State, exec (.pageResponse pasid i 15) s = .next t ∧ t.xlat.pages = [] ∧ t.xlat.stopped = true ∧
    ∀ y ∈ s.xlat.pages, ∀ x ∈ y.2.waiters, Going (waiterCtx x.1) s → Stopped (waiterCtx x.1) t := by
  refine ⟨_, exec_pageResponse_of_matched h hpasid 15, ?_, ?_,
    fun y hy x hx hgoing => stopped_stopPages (s := bump 0x5200 0x1A s) hy hx hgoing⟩
  · exact congrArg Xlat.pages (stopPages_xlat (bump 0x5200 0x1A s))
  · exact congrArg Xlat.stopped (stopPages_xlat (bump 0x5200 0x1A s))

/-- Another code, or no response in time: every waiter of the request is stopped. -/
theorem response_invalid (hwait : s.xlat.pageWait = []) {code : BitVec 4} (hsuccess : code ≠ 0) (hfailure : code ≠ 15) :
    ∀ y ∈ ([.pageResponse pasid i code, .pageRequestTimeout i] : List Instr), ∃ t : State, exec y s = .next t ∧
      mapGet t.xlat.pages i = none ∧ t.xlat.entries = s.xlat.entries ∧
      ∀ x ∈ p.waiters, Going (waiterCtx x.1) s → Stopped (waiterCtx x.1) t := by
  simp only [List.mem_cons, List.not_mem_nil, or_false]
  rintro y (rfl | rfl)
  · have hzero : code.toNat ≠ 0 := fun hc => hsuccess (BitVec.eq_of_toNat_eq hc)
    have hfifteen : code.toNat ≠ 15 := fun hc => hfailure (BitVec.eq_of_toNat_eq hc)
    rw [exec_pageResponse_of_matched h hpasid, if_neg hzero, if_neg hfifteen]
    exact ⟨_, rfl, pageFailed_effect (u := bump 0x5200 0x19 s) rfl rfl hwait i _ _ _ rfl⟩
  · rw [exec_pageRequestTimeout, pageTimeout_of_some h]
    exact ⟨_, rfl, pageFailed_effect rfl rfl hwait i _ _ _ rfl⟩

end

/-! ### Invalidations (R346–R348) -/

/-- An invalidation with room removes every entry that meets its range, keeps every other, and drains. -/
theorem invalidation_accepted {s : State} (hrise : keysRise s.xlat.entries = true) (hroom : s.xlat.invals.length < 32) (itag : BitVec 5)
    (pasid : Option (BitVec 20)) (global : Bool) (base : BitVec 64) (n : Fin 65) {p : Option Nat}
    (hp : p = if global then none else pasid.map (fun x => x.toNat)) {b : Nat} (hb : b = base.toNat / 2 ^ n.val * 2 ^ n.val) :
    ∃ t : State, exec (.atsInvalidate itag pasid global base n.val) s = .next t ∧
      (∀ j : Nat, mapGet t.xlat.entries j = (mapGet s.xlat.entries j).filter (fun e => !entryIn p b (2 ^ n.val) e)) ∧
      t.xlat.invals.map (fun v => (v.itag, v.host, v.since)) =
        s.xlat.invals.map (fun v => (v.itag, v.host, v.since)) ++ [(itag.toNat, true, s.time.ft)] := by
  rw [exec_atsInvalidate, min_eq_right (Fin.is_le n), atsInvalidate_of_room hroom, ← hp, ← hb]
  refine ⟨_, rfl, fun j => ?_, acceptInval_invals ..⟩
  rw [acceptInval_entries]
  exact mapGet_entriesLeft hrise ..

/-- INVALIDATE_COMPLETION, where nothing waits to be accepted and no invalidation of the GV24's own has drained. -/
theorem invalidation_completes {s : State} (hwaiting : s.xlat.waiting = [])
    (hnone : s.xlat.invals.all (fun v => v.host || !drained s v) = true) (itag : BitVec 5) :
    (∀ v : Inval, hostInval itag.toNat s = some v →
      (drained s v = true → ∃ t : State, exec (.invalidateCompletion itag) s = .next t ∧
        t.sent = .invalidateCompletion itag.toNat :: s.sent ∧ t.xlat.invals = s.xlat.invals.erase v) ∧
      (drained s v = false → exec (.invalidateCompletion itag) s = .next s)) ∧
    (hostInval itag.toNat s = none → exec (.invalidateCompletion itag) s = .next s) := by
  refine ⟨fun v hv => ⟨fun hdrained => ⟨endInval v s, ?_, ?_, ?_⟩, fun hdraining => ?_⟩, fun hfind => ?_⟩
  · rw [exec_invalidateCompletion, invalidateCompletion_of_drained hwaiting hnone hv hdrained]
  · obtain ⟨hhost, hitag⟩ := hostInval_names hv
    rw [endInval_sent hhost, hitag]
  · rw [endInval_xlat]
  · rw [exec_invalidateCompletion, invalidateCompletion_of_draining hwaiting hnone hv hdraining]
  · rw [exec_invalidateCompletion, invalidateCompletion_of_none hwaiting hnone hfind]

/-- Settles O46: a completion ends its request by failing, asking again, denying or installing; a response ends its page request, and
the waiters it fails are stopped; an invalidation filters the entries once and ends when its snapshot has drained. -/
theorem translationsAreGrantedAndInvalidated : Obligations.TranslationsAreGrantedAndInvalidated := by
  unfold Obligations.TranslationsAreGrantedAndInvalidated
  intro s
  refine ⟨fun pasid vp => ⟨fun hnone => ⟨fun res => ?_, ?_⟩,
      fun q hq => ⟨completion_fails hq, fun u r w n addr => ⟨?_, ?_, ?_⟩⟩⟩,
    fun pasid i code => ⟨fun hunmatched => ?_, fun p hpage hpasid hwait => ⟨?_, ?_, ?_⟩, fun hnone => ?_⟩,
    ⟨_, exec_priReset s, ?_⟩, rfl, ⟨_, exec_priEnableClear s, ?_⟩,
    fun hrise itag pasid global base n p hp b hb => ⟨fun hroom => ?_, fun hfull => ?_⟩,
    fun itag hwaiting hown => invalidation_completes hwaiting hown itag,
    fun src v hpages => ⟨_, exec_invalidateAll src v s, invalidateAll_entries hpages src v.toNat⟩⟩
  · rw [exec_atsCompletion, atsCompletion_of_none hnone]
    exact ⟨_, rfl, rfl, emit_parts _ (List.Subset.refl _) (.refl _ s)⟩
  · exact congrArg _ (atsTimeout_of_none hnone)
  · exact fun hstale => completion_stale hq hstale u r w n.val addr
  · exact fun hstale hdenied => completion_denies hq hstale hdenied n.val addr
  · rintro hstale rfl hgranted - _ rfl e he
    exact completion_grants hq hstale hgranted n.val addr he
  · rw [exec_pageResponse, pageResponse_of_unmatched hunmatched]
    exact ⟨_, rfl, rfl, rfl, fun hcount => (odGet_bump_same ..).trans (min_eq_right (by omega))⟩
  · rintro rfl
    exact response_succeeds hpage hpasid hwait
  · rintro rfl
    exact response_failure hpage hpasid
  · exact response_invalid hpage hpasid hwait
  · exact congrArg _ (pageTimeout_of_none hnone)
  · rw [modXlat_xlat, stopPages_xlat]
    exact ⟨rfl, rfl, rfl⟩
  · rw [stopPages_xlat]
    exact ⟨rfl, rfl, rfl, rfl⟩
  · simpa only [entryIn, rangesMeet, ← Bool.and_assoc] using invalidation_accepted hrise hroom itag pasid global base n hp hb
  · rw [exec_atsInvalidate, min_eq_right (Fin.is_le n), atsInvalidate_of_full hfull, ← hp, ← hb]
    rfl

end Sys2Proof.Machine
end

section
/-!
SUPPORT. Every command completes: the two laws of each command, of what it keeps and of which parts it may change, read as one
law of `exec`; and every step keeps the canonical form of the attached memory (R364, assumption 133).
-/

namespace Sys2Proof.Machine

open Sys2Proof

/-- The outcome is a next state that keeps what `Keeps w` says, and from `s` to it only the parts in `l` may change. -/
def Completes (w : Bool) (l : List Part) (s : State) (o : Host.Outcome State Fault Refusal) : Prop :=
  ∃ t : State, o = .next t ∧ Keeps w s t ∧ Only l s t

/-- The two laws of a command speak of the same next state; its parts need only be among those named. -/
theorem Completes.of {w : Bool} {l m : List Part} {s : State} {o : Host.Outcome State Fault Refusal}
    (hkeeps : ∃ t : State, o = .next t ∧ Keeps w s t) (honly : ∃ t : State, o = .next t ∧ Only m s t)
    (hparts : m.all (fun p => decide (p ∈ l)) = true) : Completes w l s o := by
  obtain ⟨t, ho, hk⟩ := hkeeps
  obtain ⟨u, hu, hm⟩ := honly
  obtain rfl : t = u := Host.Outcome.next.inj (ho.symm.trans hu)
  exact ⟨t, ho, hk, hm.mono fun p hp => of_decide_eq_true (List.all_eq_true.1 hparts p hp)⟩

/-- A next state of an outcome that completes is the one it completes in. -/
theorem Completes.next {w : Bool} {l : List Part} {s t : State} {o : Host.Outcome State Fault Refusal} (h : Completes w l s o)
    (ht : o = .next t) : Keeps w s t ∧ Only l s t := by
  obtain ⟨u, hu, hkeeps, honly⟩ := h
  obtain rfl : u = t := Host.Outcome.next.inj (hu.symm.trans ht)
  exact ⟨hkeeps, honly⟩

/-- Every command completes as the tables `mayStore` and `partsOf` say, by the laws of its own meaning. -/
theorem exec_completes : ∀ (c : Instr) (s : State), Completes (mayStore c) (partsOf c) s (exec c s)
  | .entryWrite .., _ => .of (execEntryWrite_keeps ..) (execEntryWrite_parts ..) rfl
  | .registerWrite .., _ => .of (execRegisterWrite_keeps ..) (execRegisterWrite_parts ..) rfl
  | .roleWrite .., _ => .of (execRoleWrite_keeps ..) (execRoleWrite_parts ..) rfl
  | .mediumWrite .., _ => .of (execMediumWrite_keeps ..) (execMediumWrite_parts ..) rfl
  | .creditWrite .., _ => .of (execCreditWrite_keeps ..) (execCreditWrite_parts ..) rfl
  | .tenantShareWrite .., _ => .of (execTenantShareWrite_keeps ..) (execTenantShareWrite_parts ..) rfl
  | .coordinateCommit .., _ => .of (execCoordinateCommit_keeps ..) (execCoordinateCommit_parts ..) rfl
  | .isolationModeWrite .., _ => .of (execIsolationModeWrite_keeps ..) (execIsolationModeWrite_parts ..) rfl
  | .roundStart .., _ => .of (execRoundStart_keeps ..) (execRoundStart_parts ..) rfl
  | .timeSetReceive .., _ => .of (execTimeSetReceive_keeps ..) (execTimeSetReceive_parts ..) rfl
  | .trimDecision .., _ => .of (execTrimDecision_keeps ..) (execTrimDecision_parts ..) rfl
  | .trimSlot .., _ => .of (execTrimSlot_keeps ..) (execTrimSlot_parts ..) rfl
  | .trimNoticeReceive .., _ => .of (execTrimNoticeReceive_keeps ..) (execTrimNoticeReceive_parts ..) rfl
  | .suspectTimeout .., _ => .of (execSuspectTimeout_keeps ..) (execSuspectTimeout_parts ..) rfl
  | .holdoverAllowanceEnd .., _ => .of (execHoldoverAllowanceEnd_keeps ..) (execHoldoverAllowanceEnd_parts ..) rfl
  | .roundLengthWrite .., _ => .of (execRoundLengthWrite_keeps ..) (execRoundLengthWrite_parts ..) rfl
  | .roundArmWrite .., _ => .of (execRoundArmWrite_keeps ..) (execRoundArmWrite_parts ..) rfl
  | .roundChange .., _ => .of (execRoundChange_keeps ..) (execRoundChange_parts ..) rfl
  | .timeRoleWrite .., _ => .of (execTimeRoleWrite_keeps ..) (execTimeRoleWrite_parts ..) rfl
  | .timeSourceWrite .., _ => .of (execTimeSourceWrite_keeps ..) (execTimeSourceWrite_parts ..) rfl
  | .beatrefEdge .., _ => .of (execBeatrefEdge_keeps ..) (execBeatrefEdge_parts ..) rfl
  | .beatrefMissing .., _ => .of (execBeatrefMissing_keeps ..) (execBeatrefMissing_parts ..) rfl
  | .losAssert .., _ => .of (execLosAssert_keeps ..) (execLosAssert_parts ..) rfl
  | .losClear .., _ => .of (execLosClear_keeps ..) (execLosClear_parts ..) rfl
  | .lolAssert .., _ => .of (execLolAssert_keeps ..) (execLolAssert_parts ..) rfl
  | .cdrLock .., _ => .of (execCdrLock_keeps ..) (execCdrLock_parts ..) rfl
  | .lockTimeout .., _ => .of (execLockTimeout_keeps ..) (execLockTimeout_parts ..) rfl
  | .slipTimeout .., _ => .of (execSlipTimeout_keeps ..) (execSlipTimeout_parts ..) rfl
  | .slipWindowDone .., _ => .of (execSlipWindowDone_keeps ..) (execSlipWindowDone_parts ..) rfl
  | .bitSlip .., _ => .of (execBitSlip_keeps ..) (execBitSlip_parts ..) rfl
  | .alignmentDone .., _ => .of (execAlignmentDone_keeps ..) (execAlignmentDone_parts ..) rfl
  | .codewordAligned .., _ => .of (execCodewordAligned_keeps ..) (execCodewordAligned_parts ..) rfl
  | .fecAlignTimeout .., _ => .of (execFecAlignTimeout_keeps ..) (execFecAlignTimeout_parts ..) rfl
  | .deskewDone .., _ => .of (execDeskewDone_keeps ..) (execDeskewDone_parts ..) rfl
  | .deskewTimeout .., _ => .of (execDeskewTimeout_keeps ..) (execDeskewTimeout_parts ..) rfl
  | .trainingSetReceive .., _ => .of (execTrainingSetReceive_keeps ..) (execTrainingSetReceive_parts ..) rfl
  | .exchangeTimeout .., _ => .of (execExchangeTimeout_keeps ..) (execExchangeTimeout_parts ..) rfl
  | .activeEntry .., _ => .of (execActiveEntry_keeps ..) (execActiveEntry_parts ..) rfl
  | .uncorrectableThreshold .., _ => .of (execUncorrectableThreshold_keeps ..) (execUncorrectableThreshold_parts ..) rfl
  | .retrainRequest .., _ => .of (execRetrainRequest_keeps ..) (execRetrainRequest_parts ..) rfl
  | .elasticFault .., _ => .of (execElasticFault_keeps ..) (execElasticFault_parts ..) rfl
  | .skipSetReceive .., _ => .of (execSkipSetReceive_keeps ..) (execSkipSetReceive_parts ..) rfl
  | .holdExpiry .., _ => .of (execHoldExpiry_keeps ..) (execHoldExpiry_parts ..) rfl
  | .cellReceive .., _ => .of (execCellReceive_keeps ..) (execCellReceive_parts ..) rfl
  | .idleSlotReceive .., _ => .of (execIdleSlotReceive_keeps ..) (execIdleSlotReceive_parts ..) rfl
  | .nakReceive .., _ => .of (execNakReceive_keeps ..) (execNakReceive_parts ..) rfl
  | .ackTimeout .., _ => .of (execAckTimeout_keeps ..) (execAckTimeout_parts ..) rfl
  | .cellArrival .., _ => .of (execCellArrival_keeps ..) (execCellArrival_parts ..) rfl
  | .combineTimeout .., _ => .of (execCombineTimeout_keeps ..) (execCombineTimeout_parts ..) rfl
  | .auctionTick .., _ => .of (execAuctionTick_keeps ..) (execAuctionTick_parts ..) rfl
  | .ledgerFaultLimit .., _ => .of (execLedgerFaultLimit_keeps ..) (execLedgerFaultLimit_parts ..) rfl
  | .vc11AgeDrop .., _ => .of (execVc11AgeDrop_keeps ..) (execVc11AgeDrop_parts ..) rfl
  | .sumpAudit .., _ => .of (execSumpAudit_keeps ..) (execSumpAudit_parts ..) rfl
  | .stallScrub .., _ => .of (execStallScrub_keeps ..) (execStallScrub_parts ..) rfl
  | .structureScrub .., _ => .of (execStructureScrub_keeps ..) (execStructureScrub_parts ..) rfl
  | .idlePortScrub .., _ => .of (execIdlePortScrub_keeps ..) (execIdlePortScrub_parts ..) rfl
  | .telemetryCapture .., _ => .of (execTelemetryCapture_keeps ..) (execTelemetryCapture_parts ..) rfl
  | .routeArmWrite .., _ => .of (execRouteArmWrite_keeps ..) (execRouteArmWrite_parts ..) rfl
  | .routeBankSwitch .., _ => .of (execRouteBankSwitch_keeps ..) (execRouteBankSwitch_parts ..) rfl
  | .epochNoticeRepeat .., _ => .of (execEpochNoticeRepeat_keeps ..) (execEpochNoticeRepeat_parts ..) rfl
  | .routeBankDrainEnd .., _ => .of (execRouteBankDrainEnd_keeps ..) (execRouteBankDrainEnd_parts ..) rfl
  | .routeBankCopy .., _ => .of (execRouteBankCopy_keeps ..) (execRouteBankCopy_parts ..) rfl
  | .rtdRouteEntries .., _ => .of (execRtdRouteEntries_keeps ..) (execRtdRouteEntries_parts ..) rfl
  | .epochNoticeReceive .., _ => .of (execEpochNoticeReceive_keeps ..) (execEpochNoticeReceive_parts ..) rfl
  | .timSend .., _ => .of (execTimSend_keeps ..) (execTimSend_parts ..) rfl
  | .timReceive .., _ => .of (execTimReceive_keeps ..) (execTimReceive_parts ..) rfl
  | .requestSend .., _ => .of (execRequestSend_keeps ..) (execRequestSend_parts ..) rfl
  | .ld .., _ => .of (execLd_keeps ..) (execLd_parts ..) rfl
  | .ldv .., _ => .of (execLdv_keeps ..) (execLdv_parts ..) rfl
  | .lda .., _ => .of (execLda_keeps ..) (execLda_parts ..) rfl
  | .st .., _ => .of (execSt_keeps ..) (execSt_parts ..) rfl
  | .stm .., _ => .of (execStm_keeps ..) (execStm_parts ..) rfl
  | .stf .., _ => .of (execStf_keeps ..) (execStf_parts ..) rfl
  | .stl .., _ => .of (execStl_keeps ..) (execStl_parts ..) rfl
  | .atIntegerAdd .., _ => .of (execAtIntegerAdd_keeps ..) (execAtIntegerAdd_parts ..) rfl
  | .atExactFloatAdd .., _ => .of (execAtExactFloatAdd_keeps ..) (execAtExactFloatAdd_parts ..) rfl
  | .atMin .., _ => .of (execAtMin_keeps ..) (execAtMin_parts ..) rfl
  | .atMax .., _ => .of (execAtMax_keeps ..) (execAtMax_parts ..) rfl
  | .atSwap .., _ => .of (execAtSwap_keeps ..) (execAtSwap_parts ..) rfl
  | .atCompareAndSwap .., _ => .of (execAtCompareAndSwap_keeps ..) (execAtCompareAndSwap_parts ..) rfl
  | .atAnd .., _ => .of (execAtAnd_keeps ..) (execAtAnd_parts ..) rfl
  | .atOr .., _ => .of (execAtOr_keeps ..) (execAtOr_parts ..) rfl
  | .atXor .., _ => .of (execAtXor_keeps ..) (execAtXor_parts ..) rfl
  | .fen .., _ => .of (execFen_keeps ..) (execFen_parts ..) rfl
  | .ackRunSend .., _ => .of (execAckRunSend_keeps ..) (execAckRunSend_parts ..) rfl
  | .holdTimeout .., _ => .of (execHoldTimeout_keeps ..) (execHoldTimeout_parts ..) rfl
  | .responseReceive .., _ => .of (execResponseReceive_keeps ..) (execResponseReceive_parts ..) rfl
  | .requestTimeout .., _ => .of (execRequestTimeout_keeps ..) (execRequestTimeout_parts ..) rfl
  | .busyResend .., _ => .of (execBusyResend_keeps ..) (execBusyResend_parts ..) rfl
  | .refusalFenceSend .., _ => .of (execRefusalFenceSend_keeps ..) (execRefusalFenceSend_parts ..) rfl
  | .sourceFence .., _ => .of (execSourceFence_keeps ..) (execSourceFence_parts ..) rfl
  | .sourceFenceComplete .., _ => .of (execSourceFenceComplete_keeps ..) (execSourceFenceComplete_parts ..) rfl
  | .exactAddRegionWrite .., _ => .of (execExactAddRegionWrite_keeps ..) (execExactAddRegionWrite_parts ..) rfl
  | .reduceStore .., _ => .of (execReduceStore_keeps ..) (execReduceStore_parts ..) rfl
  | .epWindowBind .., _ => .of (execEpWindowBind_keeps ..) (execEpWindowBind_parts ..) rfl
  | .epCalendarLoad .., _ => .of (execEpCalendarLoad_keeps ..) (execEpCalendarLoad_parts ..) rfl
  | .epVc9Slot .., _ => .of (execEpVc9Slot_keeps ..) (execEpVc9Slot_parts ..) rfl
  | .epVc10Receive .., _ => .of (execEpVc10Receive_keeps ..) (execEpVc10Receive_parts ..) rfl
  | .stepFence .., _ => .of (execStepFence_keeps ..) (execStepFence_parts ..) rfl
  | .epCommit .., _ => .of (execEpCommit_keeps ..) (execEpCommit_parts ..) rfl
  | .fillRspReceive .., _ => .of (execFillRspReceive_keeps ..) (execFillRspReceive_parts ..) rfl
  | .fillRetry .., _ => .of (execFillRetry_keeps ..) (execFillRetry_parts ..) rfl
  | .invReqReceive .., _ => .of (execInvReqReceive_keeps ..) (execInvReqReceive_parts ..) rfl
  | .invDoneSend .., _ => .of (execInvDoneSend_keeps ..) (execInvDoneSend_parts ..) rfl
  | .directoryAccess .., _ => .of (execDirectoryAccess_keeps ..) (execDirectoryAccess_parts ..) rfl
  | .snpReceive .., _ => .of (execSnpReceive_keeps ..) (execSnpReceive_parts ..) rfl
  | .snrReceive .., _ => .of (execSnrReceive_keeps ..) (execSnrReceive_parts ..) rfl
  | .forwardTimeout .., _ => .of (execForwardTimeout_keeps ..) (execForwardTimeout_parts ..) rfl
  | .probeTimeout .., _ => .of (execProbeTimeout_keeps ..) (execProbeTimeout_parts ..) rfl
  | .lossWalkStep .., _ => .of (execLossWalkStep_keeps ..) (execLossWalkStep_parts ..) rfl
  | .directoryEnable .., _ => .of (execDirectoryEnable_keeps ..) (execDirectoryEnable_parts ..) rfl
  | .directoryDisable .., _ => .of (execDirectoryDisable_keeps ..) (execDirectoryDisable_parts ..) rfl
  | .recall .., _ => .of (execRecall_keeps ..) (execRecall_parts ..) rfl
  | .calendarBeginLoad .., _ => .of (execCalendarBeginLoad_keeps ..) (execCalendarBeginLoad_parts ..) rfl
  | .calendarDataWrite src _, _ => .of (execCalendarDataWrite_keeps src ..) (execCalendarDataWrite_parts src ..) rfl
  | .calendarSeal .., _ => .of (execCalendarSeal_keeps ..) (execCalendarSeal_parts ..) rfl
  | .calendarArm .., _ => .of (execCalendarArm_keeps ..) (execCalendarArm_parts ..) rfl
  | .calendarBankSwitch .., _ => .of (execCalendarBankSwitch_keeps ..) (execCalendarBankSwitch_parts ..) rfl
  | .contextCreate .., _ => .of (execContextCreate_keeps ..) (execContextCreate_parts ..) rfl
  | .contextDestroy .., _ => .of (execContextDestroy_keeps ..) (execContextDestroy_parts ..) rfl
  | .contextRestart .., _ => .of (execContextRestart_keeps ..) (execContextRestart_parts ..) rfl
  | .contextAbort .., _ => .of (execContextAbort_keeps ..) (execContextAbort_parts ..) rfl
  | .contextAbortDone .., _ => .of (execContextAbortDone_keeps ..) (execContextAbortDone_parts ..) rfl
  | .ringProducerWrite .., _ => .of (execRingProducerWrite_keeps ..) (execRingProducerWrite_parts ..) rfl
  | .ringRun .., _ => .of (execRingRun_keeps ..) (execRingRun_parts ..) rfl
  | .ringCopy .., _ => .of (execRingCopy_keeps ..) (execRingCopy_parts ..) rfl
  | .ringWait .., _ => .of (execRingWait_keeps ..) (execRingWait_parts ..) rfl
  | .waitPoll .., _ => .of (execWaitPoll_keeps ..) (execWaitPoll_parts ..) rfl
  | .waitTimeout .., _ => .of (execWaitTimeout_keeps ..) (execWaitTimeout_parts ..) rfl
  | .ringNop .., _ => .of (execRingNop_keeps ..) (execRingNop_parts ..) rfl
  | .commandEnd .., _ => .of (execCommandEnd_keeps ..) (execCommandEnd_parts ..) rfl
  | .kernelLoad .., _ => .of (execKernelLoad_keeps ..) (execKernelLoad_parts ..) rfl
  | .kernelLoadDone .., _ => .of (execKernelLoadDone_keeps ..) (execKernelLoadDone_parts ..) rfl
  | .kernelUnload src _, _ => .of (execKernelUnload_keeps src ..) (execKernelUnload_parts src ..) rfl
  | .intAdd .., _ => .of (execIntAdd_keeps ..) (execIntAdd_parts ..) rfl
  | .intSub .., _ => .of (execIntSub_keeps ..) (execIntSub_parts ..) rfl
  | .intMullo .., _ => .of (execIntMullo_keeps ..) (execIntMullo_parts ..) rfl
  | .intAnd .., _ => .of (execIntAnd_keeps ..) (execIntAnd_parts ..) rfl
  | .intOr .., _ => .of (execIntOr_keeps ..) (execIntOr_parts ..) rfl
  | .intXor .., _ => .of (execIntXor_keeps ..) (execIntXor_parts ..) rfl
  | .intShl .., _ => .of (execIntShl_keeps ..) (execIntShl_parts ..) rfl
  | .intShr .., _ => .of (execIntShr_keeps ..) (execIntShr_parts ..) rfl
  | .intSar .., _ => .of (execIntSar_keeps ..) (execIntSar_parts ..) rfl
  | .intMin .., _ => .of (execIntMin_keeps ..) (execIntMin_parts ..) rfl
  | .intMax .., _ => .of (execIntMax_keeps ..) (execIntMax_parts ..) rfl
  | .intMov .., _ => .of (execIntMov_keeps ..) (execIntMov_parts ..) rfl
  | .intMovi .., _ => .of (execIntMovi_keeps ..) (execIntMovi_parts ..) rfl
  | .cmpEq .., _ => .of (execCmpEq_keeps ..) (execCmpEq_parts ..) rfl
  | .cmpNe .., _ => .of (execCmpNe_keeps ..) (execCmpNe_parts ..) rfl
  | .cmpLt .., _ => .of (execCmpLt_keeps ..) (execCmpLt_parts ..) rfl
  | .cmpLe .., _ => .of (execCmpLe_keeps ..) (execCmpLe_parts ..) rfl
  | .cmpSel .., _ => .of (execCmpSel_keeps ..) (execCmpSel_parts ..) rfl
  | .cvt .., _ => .of (execCvt_keeps ..) (execCvt_parts ..) rfl
  | .fma .., _ => .of (execFma_keeps ..) (execFma_parts ..) rfl
  | .fmul .., _ => .of (execFmul_keeps ..) (execFmul_parts ..) rfl
  | .fadd .., _ => .of (execFadd_keeps ..) (execFadd_parts ..) rfl
  | .fmin .., _ => .of (execFmin_keeps ..) (execFmin_parts ..) rfl
  | .fmax .., _ => .of (execFmax_keeps ..) (execFmax_parts ..) rfl
  | .dot8 .., _ => .of (execDot8_keeps ..) (execDot8_parts ..) rfl
  | .dot8Mx .., _ => .of (execDot8Mx_keeps ..) (execDot8Mx_parts ..) rfl
  | .accAdd .., _ => .of (execAccAdd_keeps ..) (execAccAdd_parts ..) rfl
  | .accZero .., _ => .of (execAccZero_keeps ..) (execAccZero_parts ..) rfl
  | .accRound .., _ => .of (execAccRound_keeps ..) (execAccRound_parts ..) rfl
  | .accLoad .., _ => .of (execAccLoad_keeps ..) (execAccLoad_parts ..) rfl
  | .spmLd .., _ => .of (execSpmLd_keeps ..) (execSpmLd_parts ..) rfl
  | .spmSt .., _ => .of (execSpmSt_keeps ..) (execSpmSt_parts ..) rfl
  | .spmLdb .., _ => .of (execSpmLdb_keeps ..) (execSpmLdb_parts ..) rfl
  | .spmLdg .., _ => .of (execSpmLdg_keeps ..) (execSpmLdg_parts ..) rfl
  | .spmStg .., _ => .of (execSpmStg_keeps ..) (execSpmStg_parts ..) rfl
  | .memLd .., _ => .of (execMemLd_keeps ..) (execMemLd_parts ..) rfl
  | .memLdg .., _ => .of (execMemLdg_keeps ..) (execMemLdg_parts ..) rfl
  | .memLdv .., _ => .of (execMemLdv_keeps ..) (execMemLdv_parts ..) rfl
  | .memLda .., _ => .of (execMemLda_keeps ..) (execMemLda_parts ..) rfl
  | .memSt .., _ => .of (execMemSt_keeps ..) (execMemSt_parts ..) rfl
  | .memStg .., _ => .of (execMemStg_keeps ..) (execMemStg_parts ..) rfl
  | .memStv .., _ => .of (execMemStv_keeps ..) (execMemStv_parts ..) rfl
  | .memStl .., _ => .of (execMemStl_keeps ..) (execMemStl_parts ..) rfl
  | .memStf .., _ => .of (execMemStf_keeps ..) (execMemStf_parts ..) rfl
  | .memAt .., _ => .of (execMemAt_keeps ..) (execMemAt_parts ..) rfl
  | .memRel .., _ => .of (execMemRel_keeps ..) (execMemRel_parts ..) rfl
  | .memAcq .., _ => .of (execMemAcq_keeps ..) (execMemAcq_parts ..) rfl
  | .cpyCopy .., _ => .of (execCpyCopy_keeps ..) (execCpyCopy_parts ..) rfl
  | .cpyCwait .., _ => .of (execCpyCwait_keeps ..) (execCpyCwait_parts ..) rfl
  | .cpyCtest .., _ => .of (execCpyCtest_keeps ..) (execCpyCtest_parts ..) rfl
  | .copyLine .., _ => .of (execCopyLine_keeps ..) (execCopyLine_parts ..) rfl
  | .ctlBr .., _ => .of (execCtlBr_keeps ..) (execCtlBr_parts ..) rfl
  | .ctlBrp .., _ => .of (execCtlBrp_keeps ..) (execCtlBrp_parts ..) rfl
  | .ctlCall .., _ => .of (execCtlCall_keeps ..) (execCtlCall_parts ..) rfl
  | .ctlRet .., _ => .of (execCtlRet_keeps ..) (execCtlRet_parts ..) rfl
  | .ctlLoop .., _ => .of (execCtlLoop_keeps ..) (execCtlLoop_parts ..) rfl
  | .ctlEnd .., _ => .of (execCtlEnd_keeps ..) (execCtlEnd_parts ..) rfl
  | .ctlNop .., _ => .of (execCtlNop_keeps ..) (execCtlNop_parts ..) rfl
  | .barC .., _ => .of (execBarC_keeps ..) (execBarC_parts ..) rfl
  | .barG .., _ => .of (execBarG_keeps ..) (execBarG_parts ..) rfl
  | .atsCompletion .., _ => .of (execAtsCompletion_keeps ..) (execAtsCompletion_parts ..) rfl
  | .atsCompletionTimeout .., _ => .of (execAtsCompletionTimeout_keeps ..) (execAtsCompletionTimeout_parts ..) rfl
  | .pageResponse .., _ => .of (execPageResponse_keeps ..) (execPageResponse_parts ..) rfl
  | .pageRequestTimeout .., _ => .of (execPageRequestTimeout_keeps ..) (execPageRequestTimeout_parts ..) rfl
  | .priReset .., _ => .of (execPriReset_keeps ..) (execPriReset_parts ..) rfl
  | .atsEnableClear .., _ => .of (execAtsEnableClear_keeps ..) (execAtsEnableClear_parts ..) rfl
  | .priEnableClear .., _ => .of (execPriEnableClear_keeps ..) (execPriEnableClear_parts ..) rfl
  | .atsInvalidate .., _ => .of (execAtsInvalidate_keeps ..) (execAtsInvalidate_parts ..) rfl
  | .invalidateCompletion .., _ => .of (execInvalidateCompletion_keeps ..) (execInvalidateCompletion_parts ..) rfl
  | .invalidateAll .., _ => .of (execInvalidateAll_keeps ..) (execInvalidateAll_parts ..) rfl
  | .windowBind .., _ => .of (execWindowBind_keeps ..) (execWindowBind_parts ..) rfl
  | .windowUnbind .., _ => .of (execWindowUnbind_keeps ..) (execWindowUnbind_parts ..) rfl
  | .serviceCellFormed .., _ => .of (execServiceCellFormed_keeps ..) (execServiceCellFormed_parts ..) rfl
  | .shardUpdate .., _ => .of (execShardUpdate_keeps ..) (execShardUpdate_parts ..) rfl
  | .commitTick .., _ => .of (execCommitTick_keeps ..) (execCommitTick_parts ..) rfl
  | .shardEnable .., _ => .of (execShardEnable_keeps ..) (execShardEnable_parts ..) rfl
  | .shardDisable .., _ => .of (execShardDisable_keeps ..) (execShardDisable_parts ..) rfl
  | .backgroundSlot .., _ => .of (execBackgroundSlot_keeps ..) (execBackgroundSlot_parts ..) rfl
  | .channelRetrain .., _ => .of (execChannelRetrain_keeps ..) (execChannelRetrain_parts ..) rfl
  | .bar2Read .., _ => .of (execBar2Read_keeps ..) (execBar2Read_parts ..) rfl
  | .bar2Write .., _ => .of (execBar2Write_keeps ..) (execBar2Write_parts ..) rfl
  | .perstDeassert .., _ => .of (execPerstDeassert_keeps ..) (execPerstDeassert_parts ..) rfl
  | .functionLevelReset .., _ => .of (execFunctionLevelReset_keeps ..) (execFunctionLevelReset_parts ..) rfl
  | .mailboxDoorbell .., _ => .of (execMailboxDoorbell_keeps ..) (execMailboxDoorbell_parts ..) rfl
  | .mailboxRead .., _ => .of (execMailboxRead_keeps ..) (execMailboxRead_parts ..) rfl
  | .mailboxSegmentWrite .., _ => .of (execMailboxSegmentWrite_keeps ..) (execMailboxSegmentWrite_parts ..) rfl
  | .irqCauseClear .., _ => .of (execIrqCauseClear_keeps ..) (execIrqCauseClear_parts ..) rfl
  | .usdoDownload .., _ => .of (execUsdoDownload_keeps ..) (execUsdoDownload_parts ..) rfl
  | .usdoUpload .., _ => .of (execUsdoUpload_keeps ..) (execUsdoUpload_parts ..) rfl
  | .usdoSegmentTimeout .., _ => .of (execUsdoSegmentTimeout_keeps ..) (execUsdoSegmentTimeout_parts ..) rfl
  | .nmtStart .., _ => .of (execNmtStart_keeps ..) (execNmtStart_parts ..) rfl
  | .nmtStop .., _ => .of (execNmtStop_keeps ..) (execNmtStop_parts ..) rfl
  | .nmtEnterPreoperational .., _ => .of (execNmtEnterPreoperational_keeps ..) (execNmtEnterPreoperational_parts ..) rfl
  | .nmtResetCommunication .., _ => .of (execNmtResetCommunication_keeps ..) (execNmtResetCommunication_parts ..) rfl
  | .nodeIdWrite .., _ => .of (execNodeIdWrite_keeps ..) (execNodeIdWrite_parts ..) rfl
  | .heartbeat .., _ => .of (execHeartbeat_keeps ..) (execHeartbeat_parts ..) rfl
  | .tpdo .., _ => .of (execTpdo_keeps ..) (execTpdo_parts ..) rfl
  | .busOff .., _ => .of (execBusOff_keeps ..) (execBusOff_parts ..) rfl
  | .clampReportDiscard src _, _ => .of (execClampReportDiscard_keeps src ..) (execClampReportDiscard_parts src ..) rfl
  | .dictionaryStore .., _ => .of (execDictionaryStore_keeps ..) (execDictionaryStore_parts ..) rfl
  | .dictionaryRestore .., _ => .of (execDictionaryRestore_keeps ..) (execDictionaryRestore_parts ..) rfl
  | .dictionaryDefaults .., _ => .of (execDictionaryDefaults_keeps ..) (execDictionaryDefaults_parts ..) rfl
  | .dictionaryErase .., _ => .of (execDictionaryErase_keeps ..) (execDictionaryErase_parts ..) rfl
  | .snapshotTrigger .., _ => .of (execSnapshotTrigger_keeps ..) (execSnapshotTrigger_parts ..) rfl
  | .snapshotPeriod .., _ => .of (execSnapshotPeriod_keeps ..) (execSnapshotPeriod_parts ..) rfl
  | .getVersion .., _ => .of (execGetVersion_keeps ..) (execGetVersion_parts ..) rfl
  | .getCapabilities .., _ => .of (execGetCapabilities_keeps ..) (execGetCapabilities_parts ..) rfl
  | .negotiateAlgorithms request, _ => .of (execNegotiateAlgorithms_keeps request ..) (execNegotiateAlgorithms_parts request ..) rfl
  | .getDigests .., _ => .of (execGetDigests_keeps ..) (execGetDigests_parts ..) rfl
  | .getCertificate .., _ => .of (execGetCertificate_keeps ..) (execGetCertificate_parts ..) rfl
  | .challenge .., _ => .of (execChallenge_keeps ..) (execChallenge_parts ..) rfl
  | .getMeasurements .., _ => .of (execGetMeasurements_keeps ..) (execGetMeasurements_parts ..) rfl
  | .keyExchange .., _ => .of (execKeyExchange_keeps ..) (execKeyExchange_parts ..) rfl
  | .finish .., _ => .of (execFinish_keeps ..) (execFinish_parts ..) rfl
  | .keyUpdate .., _ => .of (execKeyUpdate_keeps ..) (execKeyUpdate_parts ..) rfl
  | .spdmHeartbeat .., _ => .of (execSpdmHeartbeat_keeps ..) (execSpdmHeartbeat_parts ..) rfl
  | .endSession .., _ => .of (execEndSession_keeps ..) (execEndSession_parts ..) rfl
  | .vendorDefinedRequest .., _ => .of (execVendorDefinedRequest_keeps ..) (execVendorDefinedRequest_parts ..) rfl
  | .spdmUnsupportedRequest code, _ => .of (execSpdmUnsupportedRequest_keeps code ..) (execSpdmUnsupportedRequest_parts code ..) rfl
  | .bundleBind .., _ => .of (execBundleBind_keeps ..) (execBundleBind_parts ..) rfl
  | .bundleBindDone .., _ => .of (execBundleBindDone_keeps ..) (execBundleBindDone_parts ..) rfl
  | .firmwareImageWrite .., _ => .of (execFirmwareImageWrite_keeps ..) (execFirmwareImageWrite_parts ..) rfl
  | .keyOffer .., _ => .of (execKeyOffer_keeps ..) (execKeyOffer_parts ..) rfl
  | .keyProof .., _ => .of (execKeyProof_keeps ..) (execKeyProof_parts ..) rfl
  | .keyStart .., _ => .of (execKeyStart_keeps ..) (execKeyStart_parts ..) rfl
  | .keyAck .., _ => .of (execKeyAck_keeps ..) (execKeyAck_parts ..) rfl
  | .keyMessageResend .., _ => .of (execKeyMessageResend_keeps ..) (execKeyMessageResend_parts ..) rfl
  | .keyHandshakeRetry .., _ => .of (execKeyHandshakeRetry_keeps ..) (execKeyHandshakeRetry_parts ..) rfl
  | .keyRenewal .., _ => .of (execKeyRenewal_keeps ..) (execKeyRenewal_parts ..) rfl
  | .keySwitch .., _ => .of (execKeySwitch_keeps ..) (execKeySwitch_parts ..) rfl
  | .logFlush .., _ => .of (execLogFlush_keeps ..) (execLogFlush_parts ..) rfl
  | .eventAcknowledge src _, _ => .of (execEventAcknowledge_keeps src ..) (execEventAcknowledge_parts src ..) rfl
  | .lanternSample .., _ => .of (execLanternSample_keeps ..) (execLanternSample_parts ..) rfl
  | .echoReplay .., _ => .of (execEchoReplay_keeps ..) (execEchoReplay_parts ..) rfl
  | .echoReplayTimeout .., _ => .of (execEchoReplayTimeout_keeps ..) (execEchoReplayTimeout_parts ..) rfl
  | .portReset .., _ => .of (execPortReset_keeps ..) (execPortReset_parts ..) rfl
  | .engineReset .., _ => .of (execEngineReset_keeps ..) (execEngineReset_parts ..) rfl
  | .coreReset .., _ => .of (execCoreReset_keeps ..) (execCoreReset_parts ..) rfl
  | .clusterReset .., _ => .of (execClusterReset_keeps ..) (execClusterReset_parts ..) rfl
  | .tenantAbort .., _ => .of (execTenantAbort_keeps ..) (execTenantAbort_parts ..) rfl
  | .crossbarReset .., _ => .of (execCrossbarReset_keeps ..) (execCrossbarReset_parts ..) rfl
  | .managementReset .., _ => .of (execManagementReset_keeps ..) (execManagementReset_parts ..) rfl
  | .watchdogExpiry .., _ => .of (execWatchdogExpiry_keeps ..) (execWatchdogExpiry_parts ..) rfl
  | .warmDeviceReset .., _ => .of (execWarmDeviceReset_keeps ..) (execWarmDeviceReset_parts ..) rfl
  | .warmResetPortsDown .., _ => .of (execWarmResetPortsDown_keeps ..) (execWarmResetPortsDown_parts ..) rfl
  | .coldReset .., _ => .of (execColdReset_keeps ..) (execColdReset_parts ..) rfl
  | .managementBoot .., _ => .of (execManagementBoot_keeps ..) (execManagementBoot_parts ..) rfl
  | .musterCensus .., _ => .of (execMusterCensus_keeps ..) (execMusterCensus_parts ..) rfl
  | .viewOriginate .., _ => .of (execViewOriginate_keeps ..) (execViewOriginate_parts ..) rfl
  | .view .., _ => .of (execView_keeps ..) (execView_parts ..) rfl
  | .fset .., _ => .of (execFset_keeps ..) (execFset_parts ..) rfl
  | .loss .., _ => .of (execLoss_keeps ..) (execLoss_parts ..) rfl
  | .musterWindowEnd .., _ => .of (execMusterWindowEnd_keeps ..) (execMusterWindowEnd_parts ..) rfl
  | .musterRecoveryStep .., _ => .of (execMusterRecoveryStep_keeps ..) (execMusterRecoveryStep_parts ..) rfl
  | .readmission .., _ => .of (execReadmission_keeps ..) (execReadmission_parts ..) rfl
  | .pwrWarnAssert .., _ => .of (execPwrWarnAssert_keeps ..) (execPwrWarnAssert_parts ..) rfl
  | .pwrWarnRelease .., _ => .of (execPwrWarnRelease_keeps ..) (execPwrWarnRelease_parts ..) rfl
  | .powerLoss .., _ => .of (execPowerLoss_keeps ..) (execPowerLoss_parts ..) rfl
  | .resetRelease .., _ => .of (execResetRelease_keeps ..) (execResetRelease_parts ..) rfl
  | .temperatureSample .., _ => .of (execTemperatureSample_keeps ..) (execTemperatureSample_parts ..) rfl
  | .voltageSample .., _ => .of (execVoltageSample_keeps ..) (execVoltageSample_parts ..) rfl
  | .opticalEngineRestart .., _ => .of (execOpticalEngineRestart_keeps ..) (execOpticalEngineRestart_parts ..) rfl
  | .throttleEvaluation .., _ => .of (execThrottleEvaluation_keeps ..) (execThrottleEvaluation_parts ..) rfl
  | .refclkLoss .., _ => .of (execRefclkLoss_keeps ..) (execRefclkLoss_parts ..) rfl
  | .refclkRestore .., _ => .of (execRefclkRestore_keeps ..) (execRefclkRestore_parts ..) rfl
  | .auxclkLoss .., _ => .of (execAuxclkLoss_keeps ..) (execAuxclkLoss_parts ..) rfl
  | .jtagBypass .., _ => .of (execJtagBypass_keeps ..) (execJtagBypass_parts ..) rfl
  | .jtagIdcode .., _ => .of (execJtagIdcode_keeps ..) (execJtagIdcode_parts ..) rfl
  | .jtagSamplePreload .., _ => .of (execJtagSamplePreload_keeps ..) (execJtagSamplePreload_parts ..) rfl
  | .jtagExtest .., _ => .of (execJtagExtest_keeps ..) (execJtagExtest_parts ..) rfl
  | .burstSlot .., _ => .of (execBurstSlot_keeps ..) (execBurstSlot_parts ..) rfl
  | .warmResetComplete .., _ => .of (execWarmResetComplete_keeps ..) (execWarmResetComplete_parts ..) rfl
  | .supplyRestore .., _ => .of (execSupplyRestore_keeps ..) (execSupplyRestore_parts ..) rfl
  | .pcieRefclkLoss .., _ => .of (execPcieRefclkLoss_keeps ..) (execPcieRefclkLoss_parts ..) rfl
  | .powerStateChange .., _ => .of (execPowerStateChange_keeps ..) (execPowerStateChange_parts ..) rfl
  | .doeDiscovery .., _ => .of (execDoeDiscovery_keeps ..) (execDoeDiscovery_parts ..) rfl
  | .sessionHeartbeatTimeout .., _ => .of (execSessionHeartbeatTimeout_keeps ..) (execSessionHeartbeatTimeout_parts ..) rfl
  | .epCalendarSwitch .., _ => .of (execEpCalendarSwitch_keeps ..) (execEpCalendarSwitch_parts ..) rfl
  | .laserFault .., _ => .of (execLaserFault_keeps ..) (execLaserFault_parts ..) rfl
  | .snapshotResultReady .., _ => .of (execSnapshotResultReady_keeps ..) (execSnapshotResultReady_parts ..) rfl

/-- A step keeps, of the machine with the queue's rest, what every command keeps; it may store into the memory. -/
theorem step_keeps {s t : State} (ht : step s = .next t) : Keeps true { s with pending := s.pending.tail } t := by
  unfold step at ht
  split at ht
  · next hempty =>
    obtain rfl := Host.Outcome.next.inj ht
    exact ⟨by simp [hempty], ⟨[], rfl⟩, le_refl _, id, nofun⟩
  · next c rest hfront =>
    obtain ⟨hkeeps, -⟩ := (exec_completes c { s with pending := rest }).next ht
    rw [hfront]
    exact { hkeeps with cells := nofun }

/-- Settles O3: the memory does not depend on the queue, and what a step keeps is in particular the form of the memory. -/
theorem stepKeepsTheMemoryForm : Obligations.StepKeepsTheMemoryForm := by
  unfold Obligations.StepKeepsTheMemoryForm
  intro s t hok ht
  exact (step_keeps ht).memory hok

/-- Settles O2: each part of the statement is one part of what every command completes with. -/
theorem commandsCompleteAndChangeOnlyTheirParts : Obligations.CommandsCompleteAndChangeOnlyTheirParts := by
  unfold Obligations.CommandsCompleteAndChangeOnlyTheirParts
  refine ⟨fun c s => ?completes, fun c s t ht => ?frame, fun c s t hstores ht a => ?memory⟩
  case completes =>
    obtain ⟨t, ht, -, -⟩ := exec_completes c s
    exact ⟨t, ht⟩
  case frame =>
    obtain ⟨-, honly⟩ := (exec_completes c s).next ht
    exact honly
  case memory =>
    obtain ⟨hkeeps, -⟩ := (exec_completes c s).next ht
    rw [hkeeps.cells hstores]

end Sys2Proof.Machine
end

section
/-! SUPPORT. BAR2 writes of a memory that is not in the canonical form (R363, R371, assumption 133). -/

namespace Sys2Proof.Machine

open Sys2Proof

theorem exec_bar2Write (x : Nat) (data : List (Option Byte)) (s : State) : exec (.bar2Write x data) s = .next (bar2Write x data s) := rfl

/-- A zero byte written through BAR2 takes one entry of the two off the list, so the address reads as before. -/
theorem bar2Write_listedTwice : cellGet (bar2Write 0 [some 0] listedTwice).mem.cells 0 = 1 := by
  decide +kernel

/-- Refutes O48: a zero byte written through BAR2 need not read back as zero where the memory is not in the canonical form, which
the statement does not ask for (a step from a memory in that form never reaches one, `step_keeps`). -/
theorem not_memoryChannelsAndTheWindow : ¬ Obligations.MemoryChannelsAndTheWindow := by
  unfold Obligations.MemoryChannelsAndTheWindow
  intro h
  obtain ⟨-, -, -, hwrite⟩ := h listedTwice
  obtain ⟨-, -, hopen⟩ := hwrite 0 [some 0] 0 rfl
  obtain ⟨t, hexec, hcells⟩ := hopen (by decide) (by decide) (by decide) (by decide)
  rw [exec_bar2Write] at hexec
  obtain rfl := Host.Outcome.next.inj hexec
  have hzero := hcells 0
  rw [bar2Write_listedTwice] at hzero
  exact absurd hzero (by decide)

end Sys2Proof.Machine
end

section
/-! SUPPORT. One step against the queue (assumption 33). -/

namespace Sys2Proof.Machine

open Sys2Proof

/-- Settles O1: the first two parts are the two cases of `step`, the third is what every step keeps. -/
theorem stepRunsTheFrontCommandAndOnlyThat : Obligations.StepRunsTheFrontCommandAndOnlyThat := by
  unfold Obligations.StepRunsTheFrontCommandAndOnlyThat
  refine ⟨fun c rest s => rfl, fun s hempty => ?idle, fun c rest s t hfront ht => ?front⟩
  case idle =>
    simp only [step, hempty]
  case front =>
    have hkeeps := step_keeps ht
    rw [hfront] at hkeeps
    exact ⟨hkeeps.pending, hkeeps.sent, hkeeps.free⟩

end Sys2Proof.Machine
end

section
/-! SUPPORT. The clamp report: its read, a new record, and its discard (R404, R405). -/

namespace Sys2Proof.Machine

open Sys2Proof

theorem exec_clampReportDiscard (src : Route) (v : BitVec 32) (s : State) :
    exec (.clampReportDiscard src v) s = .next (clampDiscard v.toNat (beginOp s)) := rfl

theorem raiseCause_dict (n : Fin 64) (s : State) : (raiseCause n s).dict = s.dict := raiseCause_only n s .dict (by decide)

theorem findEntry_clampReport : findEntry 0x1F00 5 = some ⟨0x1F00, 1, 1, 0x05, 0x05, .blob 40960, .ro, 0, .none⟩ := by
  decide +kernel

theorem dictRead_clampReport (s : State) : dictRead s none 0x1F00 5 = .ok (s.dict.clamps.flatMap clampBytes) := by
  have hread : readBlob s 0x1F00 5 = s.dict.clamps.flatMap clampBytes := rfl
  simp [dictRead, findEntry_clampReport, Ty.size, viewBlob, hread]

/-- The record that a report adds. -/
def reportRecord (src : Route) (index sub place kind original kept : Nat) (s : State) : ClampRec where
  seq := s.dict.clampSeq + 1
  index := index
  sub := sub
  source := routeCode src
  place := place
  kind := kind
  original := original
  clamped := kept
  ft := s.time.ft

theorem report_clamps (src : Route) (index sub place kind original kept : Nat) (s : State) :
    (report src index sub place kind original kept s).dict.clamps =
      (if 1024 ≤ s.dict.clamps.length then s.dict.clamps.drop 1 else s.dict.clamps) ++
        [reportRecord src index sub place kind original kept s] := by
  unfold report
  dsimp only
  rw [raiseCause_dict]
  by_cases hfull : 1024 ≤ s.dict.clamps.length
  · simp only [if_pos hfull]
    rfl
  · simp only [if_neg hfull]
    rfl

/-- Settles O51: the read is the report's bytes, `report_clamps` says where a record joins, and a discard is one filter. -/
theorem clampReportIsReadAndDiscarded : Obligations.ClampReportIsReadAndDiscarded := by
  unfold Obligations.ClampReportIsReadAndDiscarded
  intro s
  refine ⟨dictRead_clampReport s, fun src index sub place kind original kept => ?joins, fun src v => ?discards⟩
  case joins =>
    exact ⟨reportRecord src index sub place kind original kept s, rfl, rfl, rfl, report_clamps ..⟩
  case discards =>
    rw [exec_clampReportDiscard]
    rfl

end Sys2Proof.Machine
end

section
/-! SUPPORT. A write of an entry: the checks before the entry's own operation, and the entries that only clamp and keep (R385,
R386, R388, R398, R403). -/

namespace Sys2Proof.Machine

open Sys2Proof

theorem exec_entryWrite (src : Route) (index : BitVec 16) (sub : BitVec 8) (data : Bytes) (s : State) :
    exec (.entryWrite src index sub data) s = .next (afterResponse (dictWrite src index.toNat sub.toNat data s)) := rfl

theorem afterResponse_of_not_renamed {s : State} (h : s.can.renamed = false) : afterResponse s = s := by
  simp [afterResponse, h]

theorem endOp_beginOp (status abort : Nat) (s : State) : endOp status abort (beginOp s) = endOp status abort s := rfl

/-! ### The checks -/

/-- A length is wrong for an entry of fixed size exactly when it is not that size. -/
theorem tooLong_of_size {e : Entry} {n : Nat} (h : e.ty.size = some n) (m : Nat) : tooLong e m = (m != n) := by
  unfold tooLong
  cases hty : e.ty <;> rw [hty] at h <;> cases h <;> rfl

theorem checkWrite_readOnly {src : Route} {index sub n : Nat} {e : Entry} (he : findEntry index sub = some e) (hro : e.acc = .ro) :
    checkWrite src index sub n = .error (4, 0x06010002) := by
  simp [checkWrite, he, hro]

theorem checkWrite_missing {src : Route} {index sub n : Nat} (he : findEntry index sub = none) (hindex : indexExists index = false) :
    checkWrite src index sub n = .error (3, 0x06020000) := by
  simp [checkWrite, he, hindex]

theorem checkWrite_denied {src : Route} {index sub n : Nat} {e : Entry} (he : findEntry index sub = some e) (hrws : e.acc = .rws)
    (hsrc : secure src = false) : checkWrite src index sub n = .error (4, 0x06010000) := by
  simp [checkWrite, he, hrws, hsrc]

/-- Past the rights of an entry the length decides. -/
theorem checkWrite_of_rights {src : Route} {index sub n : Nat} {e : Entry} (he : findEntry index sub = some e) (hro : e.acc ≠ .ro)
    (hrws : e.acc = .rws → secure src = true) :
    checkWrite src index sub n = if tooLong e n then .error (5, 0x06070010) else .ok e := by
  have hpass : ¬(e.acc = .rws ∧ secure src = false) := by
    rintro ⟨hacc, hsrc⟩
    rw [hrws hacc] at hsrc
    cases hsrc
  simp only [checkWrite, he, if_neg hro, if_neg hpass]

theorem dictWrite_eq_writeOne {src : Route} {index sub : Nat} {data : Bytes} {s : State} (h : ¬(index = 0x1F20 ∧ (sub = 1 ∨ sub = 2))) :
    dictWrite src index sub data s = writeOne src index sub data s := if_neg h

/-- A write that its checks stop ends with their STATUS and abort code, and nothing else has changed. -/
theorem exec_entryWrite_stopped {src : Route} {index : BitVec 16} {sub : BitVec 8} {data : Bytes} {s : State} {status abort : Nat}
    (hplain : ¬(index.toNat = 0x1F20 ∧ (sub.toNat = 1 ∨ sub.toNat = 2)))
    (hcheck : checkWrite src index.toNat sub.toNat data.length = .error (status, abort)) (hcan : s.can.renamed = false) :
    exec (.entryWrite src index sub data) s = .next (endOp status abort s) := by
  rw [exec_entryWrite, dictWrite_eq_writeOne hplain, writeOne, hcheck]
  exact congrArg Host.Outcome.next (afterResponse_of_not_renamed hcan)

theorem findEntry_storeCommand {sub : Nat} (h : sub = 1 ∨ sub = 2) : findEntry 0x1F20 sub = some ⟨0x1F20, 1, 1, 0x01, 0x02, .u8, .wo, 0, .rule⟩ := by
  rcases h with rfl | rfl <;> decide +kernel

/-! ### An entry that only clamps and keeps -/

/-- The count of overwritten clamp records is a counter, which no write reaches. -/
theorem not_clampsLost_of_writable {index sub : Nat} {e : Entry} (he : findEntry index sub = some e) (hro : e.acc ≠ .ro) :
    ¬(index = 0x1F00 ∧ sub = 3) := by
  rintro ⟨rfl, rfl⟩
  have hcounter : findEntry 0x1F00 3 = some ⟨0x1F00, 1, 1, 0x03, 0x03, .u64, .ro, 0, .none⟩ := by decide +kernel
  obtain rfl := Option.some.inj (hcounter.symm.trans he)
  exact hro rfl

theorem writeEntry_plain {src : Route} {e : Entry} {index sub n : Nat} {data : Bytes} {s : State} (hclamp : e.clamp ≠ .rule)
    (hsize : e.ty.size = some n) (hown : index ∉ [0x1F20, 0x5301, 0x6030]) :
    writeEntry src e index sub data s = keepScalar src index sub (8 * n) (leNat data) (e.clamp.keep (leNat data)) s := by
  have hfree : ¬(index = 0x5301 ∨ index = 0x6030) := by
    simp only [List.mem_cons, List.not_mem_nil, or_false, not_or] at hown
    tauto
  unfold writeEntry
  cases hc : e.clamp with
  | rule => exact absurd hc hclamp
  | none | range | only | hole => simp only [if_neg hfree, hsize]

theorem report_outcome (src : Route) (index sub place kind original kept : Nat) (s : State) :
    (report src index sub place kind original kept s).dict.status = s.dict.status ∧
      (report src index sub place kind original kept s).dict.abort = s.dict.abort := by
  unfold report
  dsimp only
  rw [raiseCause_dict]
  split
  · exact ⟨rfl, rfl⟩
  · exact ⟨rfl, rfl⟩

@[simp] theorem clamped_abort (src : Route) (index sub place original kept : Nat) (s : State) :
    (clamped src index sub place original kept s).dict.abort = s.dict.abort :=
  (report_outcome src index sub place 1 original kept s).2

@[simp] theorem clamped_status (src : Route) (index sub place original kept : Nat) (s : State) :
    (clamped src index sub place original kept s).dict.status = 1 := rfl

@[simp] theorem keepScalar_abort (src : Route) (index sub w v kept : Nat) (s : State) :
    (keepScalar src index sub w v kept s).dict.abort = s.dict.abort := by
  unfold keepScalar
  split
  · rfl
  · exact clamped_abort ..

theorem keepScalar_status (src : Route) (index sub w v kept : Nat) (s : State) :
    (keepScalar src index sub w v kept s).dict.status = if kept = v then s.dict.status else 1 := by
  unfold keepScalar
  split
  · rfl
  · rfl

/-- A plain write past its checks is the clamp and the store. -/
theorem exec_entryWrite_plain {src : Route} {index : BitVec 16} {sub : BitVec 8} {data : Bytes} {s : State} {e : Entry}
    (he : findEntry index.toNat sub.toNat = some e) (hclamp : e.clamp ≠ .rule) (hsize : e.ty.size = some data.length)
    (hro : e.acc ≠ .ro) (hrws : e.acc = .rws → secure src = true) (hown : index.toNat ∉ [0x1F20, 0x5301, 0x6030])
    (hcan : s.can.renamed = false) :
    exec (.entryWrite src index sub data) s =
      .next (keepScalar src index.toNat sub.toNat (8 * data.length) (leNat data) (e.clamp.keep (leNat data)) (beginOp s)) := by
  have hplain : ¬(index.toNat = 0x1F20 ∧ (sub.toNat = 1 ∨ sub.toNat = 2)) := by
    rintro ⟨hindex, -⟩
    simp [hindex] at hown
  have hcheck : checkWrite src index.toNat sub.toNat data.length = .ok e := by
    simp [checkWrite_of_rights he hro hrws, tooLong_of_size hsize]
  rw [exec_entryWrite, dictWrite_eq_writeOne hplain, writeOne, hcheck]
  dsimp only
  rw [writeEntry_plain hclamp hsize hown, afterResponse_of_not_renamed]
  rw [keepScalar_only _ _ _ _ _ _ _ .can (by decide)]
  exact hcan

/-- Settles O5: a plain write is `keepScalar` at the entry, the others are stopped by the checks. -/
theorem plainEntryWrites : Obligations.PlainEntryWrites := by
  unfold Obligations.PlainEntryWrites
  refine ⟨?plain, ?readOnly, ?missing, ?denied⟩
  case plain =>
    intro src index sub data s e he hclamp hsize hro hrws hown hcan
    have hsub : sub.toNat < 256 := sub.isLt
    refine ⟨_, exec_entryWrite_plain he hclamp hsize hro hrws hown hcan, ?_, ?_, ?_, ?_, ?_⟩
    · exact odGet_keepScalar _ _ _ _ _ _ _ hsub (not_clampsLost_of_writable he hro)
    · simp
    · simp [keepScalar_status]
    · exact (keepScalar_entries _ _ _ _ _ _ _ hsub).of_beginOp
    · exact (keepScalar_only _ _ _ _ _ _ _).of_beginOp
  case readOnly =>
    intro src index sub data s e he hro hcan hindex
    exact exec_entryWrite_stopped (by tauto) (checkWrite_readOnly he hro) hcan
  case missing =>
    intro src index sub data s hindex he hcan
    refine exec_entryWrite_stopped ?_ (checkWrite_missing he hindex) hcan
    rintro ⟨hstore, hsub⟩
    rw [hstore, findEntry_storeCommand hsub] at he
    cases he
  case denied =>
    intro src index sub data s e he hrws hsrc hcan hindex
    exact exec_entryWrite_stopped (by tauto) (checkWrite_denied he hrws hsrc) hcan

end Sys2Proof.Machine
end

section
/-! SUPPORT. A function reset invalidates every translation, and an invalidation writes the dirty lines of the core caches back
into the attached memory (R346, R348, R370). -/

namespace Sys2Proof.Machine

open Sys2Proof

theorem exec_functionLevelReset (s : State) : exec .functionLevelReset s = .next (functionReset s) := rfl

/-- A core cache holds one dirty byte of line 0 of local memory for the first slot, which has no context any more. -/
def staleDirtyLine : State :=
  { State.reset with
    mem := { State.reset.mem with state := .ready, density := 4 }
    cmp := { State.reset.cmp with cache := [(cacheKey 0 1 0, { bytes := [1], dirty := 1, mask := 1 })] } }

/-- The byte is written back by the function reset. -/
theorem functionReset_staleDirtyLine : (functionReset staleDirtyLine).mem.cells.length = 1 := by decide +kernel

/-- Refutes O23: a function reset does not leave the attached memory as it was, for the invalidation it makes writes the dirty
lines of the core caches back. -/
theorem not_functionResetsAndPowerStates : ¬ Obligations.FunctionResetsAndPowerStates := by
  unfold Obligations.FunctionResetsAndPowerStates
  intro h
  obtain ⟨hresets, -⟩ := h staleDirtyLine
  obtain ⟨t, hexec, hrest⟩ := hresets (.functionLevelReset, staleDirtyLine.host.linkUp) (by simp)
  have hmem : t.mem = staleDirtyLine.mem := by tauto
  rw [exec_functionLevelReset] at hexec
  obtain rfl := Host.Outcome.next.inj hexec
  have hwritten := functionReset_staleDirtyLine
  rw [hmem] at hwritten
  exact absurd hwritten (by decide)

end Sys2Proof.Machine
end

section
/-! SUPPORT. An abort by a reset is told to the gang of the context, whose other contexts need not be in the reset's reach (R273,
R461). -/

namespace Sys2Proof.Machine

open Sys2Proof

theorem exec_coreReset (src : Route) (v : BitVec 32) (s : State) : exec (.coreReset src v) s = .next (resetWrite src 1 v.toNat s) := rfl

/-- The descriptor of a context of gang 1. -/
def gangDescriptor : Bytes := List.replicate 32 0 ++ [1] ++ List.replicate 31 0

/-- A gang of two running contexts, of cores 0 and 1. -/
def gangOfTwoCores : State :=
  { State.reset with
    cmp := { State.reset.cmp with
      ctxs := [(0, { state := .running, desc := gangDescriptor }), (4, { state := .running, desc := gangDescriptor })] } }

/-- The reset of core 0 marks the context of core 1: its gang is lost. -/
theorem coreReset_losesGang : (ctxAt (resetWrite .can 1 (BitVec.ofNat 32 (7 * 65536)).toNat gangOfTwoCores) 4).gangLost = true := by
  decide +kernel

/-- Refutes O57: the reset of a core does not leave every context out of its reach as it was, for the gang of an aborted context
has lost it wherever its other contexts are. -/
theorem not_resetsClearTheirDomains : ¬ Obligations.ResetsClearTheirDomains := by
  unfold Obligations.ResetsClearTheirDomains
  intro h
  obtain ⟨-, hcores, -⟩ := h .can gangOfTwoCores rfl rfl
  obtain ⟨t, hexec, -, hothers, -⟩ := hcores 0 0 0
    (.coreReset .can (BitVec.ofNat 32 (7 * 65536)), { domain := 7, target := 0, cause := 1 }, fun c => c == 0) (by simp) (by decide)
  have hmate : ctxAt t 4 = ctxAt gangOfTwoCores 4 := hothers 4 (by decide)
  rw [exec_coreReset] at hexec
  obtain rfl := Host.Outcome.next.inj hexec
  have hlost := coreReset_losesGang
  rw [hmate] at hlost
  exact absurd hlost (by decide)

end Sys2Proof.Machine
end

section
/-! SUPPORT. Ports taken DISABLED for a warm device reset are lost to the grotto directory, whose probes then count as answered, and
a directory block that makes room is written into the attached memory (R217, R219, R491). -/

namespace Sys2Proof.Machine

open Sys2Proof

theorem exec_refclkRestore (s : State) : exec .refclkRestore s = .next (refclkRestore s) := rfl

/-- REFCLK is lost and the planes wait in a warm device reset whose ports are still to be taken DISABLED. The directory waits for a
probe of its line 0 at port 0, and a cache set full of dirty blocks holds the one of a line that is not in I. -/
def probedAtClockLoss : State :=
  { State.reset with
    dict := { State.reset.dict with od := [(odKey 0x3500 1, 1)] }
    mem := { State.reset.mem with state := .ready, density := 4 }
    ports := State.reset.ports.set 0 { train := .detect }
    pwr := { State.reset.pwr with clockLost := true, warmRunning := true }
    resets := { running := [{ domain := 2, target := 0, cause := 5 }] }
    grotto := {
      dir := [(64 * 65536, { st := .em, members := 1 })]
      lines := [(0, { waits := [0] })]
      probes := [(0, { member := 0, line := 0, kind := 1 })]
      cache := (List.range 16).map (fun k => (4096 * (k + 1), true)) } }

/-- The block that makes room for that of line 0 puts two bytes into the memory, which held none. -/
theorem refclkRestore_probedAtClockLoss : (refclkRestore probedAtClockLoss).mem.cells.length = 2 := by decide +kernel

/-- Refutes O59: with the ports still to be taken DISABLED, the end of the clock's loss may write directory blocks into the attached
memory, so more bytes of it can be listed than before. -/
theorem not_powerClocksMonitorsAndPins : ¬ Obligations.PowerClocksMonitorsAndPins := by
  unfold Obligations.PowerClocksMonitorsAndPins
  intro h
  obtain ⟨-, -, -, -, -, -, -, -, -, -, -, -, -, -, hrestore, -⟩ := h probedAtClockLoss
  obtain ⟨t, hexec, -, -, -, -, hcells, -⟩ := hrestore rfl rfl rfl rfl
  rw [exec_refclkRestore] at hexec
  obtain rfl := Host.Outcome.next.inj hexec
  rw [refclkRestore_probedAtClockLoss] at hcells
  exact absurd hcells (by decide)

end Sys2Proof.Machine
end

section
/-! SUPPORT. Writes of one double word into BAR0: the place it falls into, the bytes it brings, and the register it reaches (R368,
R372–R374, R382). -/

namespace Sys2Proof.Machine

open Sys2Proof

theorem exec_registerWrite (o : Nat) (data : List (Option Byte)) (s : State) : exec (.registerWrite o data) s = .next (registerWrite o data s) := rfl

theorem exec_irqCauseClear (c : BitVec 64) (s : State) : exec (.irqCauseClear c) s = .next (barWrite (clearCauses c) s) := rfl

theorem barWrite_closed {s : State} (h : barOpen s = false) (f : State → State) : barWrite f s = s := by
  simp [barWrite, h]

theorem barWrite_open {s : State} (h : barOpen s = true) (f : State → State) : barWrite f s = f s := by
  simp [barWrite, h]

/-! ### The double word of a write -/

/-- The double word that a full write of a value brings. -/
abbrev fullDword (v : BitVec 32) : Dword := (natLe 4 v.toNat).map some

theorem dwordAt_fullDword (o : Nat) (v : BitVec 32) : dwordAt o (fullDword v) o = fullDword v := by
  simp [dwordAt, fullDword, natLe, List.range, List.range.loop]

theorem dwordAt_byte (o : Nat) (b : Byte) : dwordAt o [some b] o = [some b, none, none, none] := by
  simp [dwordAt, List.range, List.range.loop]

theorem registerWrite_fullDword {o : Nat} (halign : o % 4 = 0) (v : BitVec 32) (s : State) :
    registerWrite o (fullDword v) s = writeDword o (fullDword v) s := by
  have hone : (o % 4 + (fullDword v).length + 3) / 4 = 1 := by simp [halign]
  have hplace : o / 4 * 4 + 4 * 0 = o := by omega
  simp only [registerWrite, hone, List.range_one, List.foldl_cons, List.foldl_nil, hplace, dwordAt_fullDword]

theorem registerWrite_byte {o : Nat} (halign : o % 4 = 0) (b : Byte) (s : State) :
    registerWrite o [some b] s = writeDword o [some b, none, none, none] s := by
  have hone : (o % 4 + [some b].length + 3) / 4 = 1 := by simp [halign]
  have hplace : o / 4 * 4 + 4 * 0 = o := by omega
  simp only [registerWrite, hone, List.range_one, List.foldl_cons, List.foldl_nil, hplace, dwordAt_byte]

theorem writeDword_bar0 {o : Nat} {b : Dword} (hsome : b.all (fun x => x.isNone) = false) (hbar0 : o < 2 ^ 32) (s : State) :
    writeDword o b s = barWrite (writeBar0 o b) s := by
  rw [writeDword, if_neg (by simp [hsome]), if_pos hbar0]

/-- A full write of a double word of BAR0. -/
theorem exec_registerWrite_bar0 {o : Nat} (halign : o % 4 = 0) (hbar0 : o < 2 ^ 32) (v : BitVec 32) (s : State) :
    exec (.registerWrite o (fullDword v)) s = .next (barWrite (writeBar0 o (fullDword v)) s) := by
  rw [exec_registerWrite, registerWrite_fullDword halign, writeDword_bar0 rfl hbar0]

/-- A write of the first byte of a double word of BAR0. -/
theorem exec_registerWrite_byte {o : Nat} (halign : o % 4 = 0) (hbar0 : o < 2 ^ 32) (b : Byte) (s : State) :
    exec (.registerWrite o [some b]) s = .next (barWrite (writeBar0 o [some b, none, none, none]) s) := by
  rw [exec_registerWrite, registerWrite_byte halign, writeDword_bar0 rfl hbar0]

/-! ### The value of a write -/

theorem mergeDword_fullDword (old : Nat) (v : BitVec 32) : mergeDword old (fullDword v) = v.toNat := by
  have hbytes : (List.range 4).map (fun i => ((fullDword v).getD i none).getD (BitVec.ofNat 8 (old / 256 ^ i))) = natLe 4 v.toNat := rfl
  have hlt := v.isLt
  rw [mergeDword, hbytes, leNat_natLe]
  omega

theorem half_lower (x : Nat) : half x 0 = x % 2 ^ 32 := by simp [half, bits]

theorem half_upper (x : Nat) : half x 1 = x / 2 ^ 32 % 2 ^ 32 := rfl

theorem toNat_append_word (x y : BitVec 32) : (x ++ y).toNat = x.toNat * 2 ^ 32 + y.toNat := by
  rw [BitVec.toNat_append, ← Nat.shiftLeft_add_eq_or_of_lt y.isLt, Nat.shiftLeft_eq]

theorem mergeHalf_lower (old : BitVec 64) (v : BitVec 32) : mergeHalf old 0 (fullDword v) = old.extractLsb' 32 32 ++ v := by
  apply BitVec.eq_of_toNat_eq
  have hold := old.isLt
  have hv := v.isLt
  rw [toNat_append_word, BitVec.extractLsb'_toNat, Nat.shiftRight_eq_div_pow]
  have hmerge : mergeHalf old 0 (fullDword v) =
      BitVec.ofNat 64 (half old.toNat 1 * 2 ^ 32 + mergeDword (half old.toNat 0) (fullDword v)) := rfl
  rw [hmerge, mergeDword_fullDword, half_upper, BitVec.toNat_ofNat]
  omega

theorem mergeHalf_upper (old : BitVec 64) (v : BitVec 32) : mergeHalf old 1 (fullDword v) = v ++ old.extractLsb' 0 32 := by
  apply BitVec.eq_of_toNat_eq
  have hold := old.isLt
  have hv := v.isLt
  rw [toNat_append_word, BitVec.extractLsb'_toNat, Nat.shiftRight_zero]
  have hmerge : mergeHalf old 1 (fullDword v) =
      BitVec.ofNat 64 (mergeDword (half old.toNat 1) (fullDword v) * 2 ^ 32 + half old.toNat 0) := rfl
  rw [hmerge, mergeDword_fullDword, half_lower, BitVec.toNat_ofNat]
  omega

/-- The bytes of a full write of the request area; bytes of other double words stay. -/
theorem setArea_fullDword (area : NMap Byte) (k : Nat) (v : BitVec 32) :
    (∀ i : Fin 4, mapGetD (setArea area (4 * k) (fullDword v)) (4 * k + i.val) 0 = (natLe 4 v.toNat).getD i.val 0) ∧
      ∀ a : Nat, a / 4 ≠ k → mapGetD (setArea area (4 * k) (fullDword v)) a 0 = mapGetD area a 0 := by
  have hset : setArea area (4 * k) (fullDword v) = mapSet (mapSet (mapSet (mapSet area (4 * k) (BitVec.ofNat 8 v.toNat))
      (4 * k + 1) (BitVec.ofNat 8 (v.toNat / 256))) (4 * k + 2) (BitVec.ofNat 8 (v.toNat / 256 / 256)))
      (4 * k + 3) (BitVec.ofNat 8 (v.toNat / 256 / 256 / 256)) := rfl
  rw [hset]
  constructor
  · intro i
    fin_cases i <;> simp [mapGetD_mapSet_ne, natLe]
  · intro a ha
    rw [mapGetD_mapSet_ne, mapGetD_mapSet_ne, mapGetD_mapSet_ne, mapGetD_mapSet_ne] <;> omega

/-! ### What a write reaches -/

theorem wholeDword_fullDword (v : BitVec 32) : wholeDword (fullDword v) = true := rfl

/-- A partial write of a write-only register is ignored and counted. -/
theorem whole_byte (b : Byte) (f : Nat → State → State) (s : State) : whole [some b, none, none, none] f s = countIgnored s := rfl

theorem whole_fullDword (v : BitVec 32) (f : Nat → State → State) (s : State) : whole (fullDword v) f s = f v.toNat s := by
  rw [whole, if_pos (wholeDword_fullDword v), mergeDword_fullDword]

theorem writeBar0_readOnly {o : Nat} (h : o ∈ ([0x00, 0x08, 0x10, 0x14, 0x50, 0x1800, 0x200000] : List Nat)) (b : Dword) (s : State) :
    writeBar0 o b s = s := by
  simp only [List.mem_cons, List.not_mem_nil, or_false] at h
  rcases h with rfl | rfl | rfl | rfl | rfl | rfl | rfl <;> rfl

theorem writeBar0_baseLower (b : Dword) (s : State) :
    writeBar0 0x20 b s = modHost (fun h => { h with bar2Base := keepBase (mergeHalf h.bar2Base 0 b) }) s := rfl

theorem writeBar0_baseUpper (b : Dword) (s : State) :
    writeBar0 0x24 b s = modHost (fun h => { h with bar2Base := keepBase (mergeHalf h.bar2Base 1 b) }) s := rfl

theorem writeBar0_enableLower (b : Dword) (s : State) :
    writeBar0 0x108 b s = modHost (fun h => { h with enable := mergeHalf h.enable 0 b }) s := rfl

theorem writeBar0_winIrqUpper (b : Dword) (s : State) :
    writeBar0 0x114 b s = modHost (fun h => { h with winIrq := mergeHalf h.winIrq 1 b }) s := rfl

theorem writeBar0_resetRequest (b : Dword) (s : State) : writeBar0 0x48 b s = whole b resetRequest s := rfl

theorem writeBar0_area {k : Nat} (hk : k < 512) (b : Dword) (s : State) :
    writeBar0 (0x1000 + 4 * k) b s = modHost (fun h => { h with reqArea := setArea h.reqArea (4 * k) b }) s := by
  have hplace : 0x1000 + 4 * k - 0x1000 = 4 * k := by omega
  unfold writeBar0
  rw [if_neg (by omega), if_neg (by omega), if_neg (by omega), if_neg (by omega), if_neg (by omega), if_neg (by omega),
    if_neg (by omega), if_pos (by omega), hplace]

/-- A reset request without its key is ignored and counted. -/
theorem resetRequest_noKey {v : BitVec 32} (hkey : v ≠ 0x57540002) (s : State) : resetRequest v.toNat s = countIgnored s := by
  refine if_neg fun hv => hkey ?_
  exact BitVec.eq_of_toNat_eq hv

theorem modHost_only (f : HostIf → HostIf) (s : State) : Only [.host] s (modHost f s) :=
  modHost_parts f (List.Subset.refl _) (Only.refl _ _)

/-- An open BAR takes a full write that changes the host interface only. -/
theorem exec_registerWrite_host {o : Nat} {v : BitVec 32} {f : HostIf → HostIf} {s : State} (hopen : barOpen s = true)
    (halign : o % 4 = 0) (hbar0 : o < 2 ^ 32) (hwrite : writeBar0 o (fullDword v) s = modHost f s) :
    ∃ t : State, exec (.registerWrite o (fullDword v)) s = .next t ∧ Only [.host] s t ∧ t.host = f s.host := by
  refine ⟨modHost f s, ?_, modHost_only f s, rfl⟩
  rw [exec_registerWrite_bar0 halign hbar0, barWrite_open hopen, hwrite]

/-- Settles O21: each register of the statement is one branch of `writeBar0`, and a full write brings its value whole. -/
theorem registerWritesReachTheirRegisters : Obligations.RegisterWritesReachTheirRegisters := by
  unfold Obligations.RegisterWritesReachTheirRegisters
  intro v s
  refine ⟨fun o hclosed hbar0 => ?closed, fun c => ⟨fun hclosed => ?clearClosed, fun hopen => ?clear⟩, fun hopen =>
    ⟨?baseLow, ?baseHigh, ?enable, ?windows, fun k _ => ?area, fun o ho => ?readOnly, fun o ho b => ?oneByte, fun hkey => ?noKey⟩⟩
  case closed =>
    rw [exec_registerWrite_bar0 (by omega) hbar0, barWrite_closed hclosed]
  case clearClosed =>
    rw [exec_irqCauseClear, barWrite_closed hclosed]
  case clear =>
    refine ⟨clearCauses c s, by rw [exec_irqCauseClear, barWrite_open hopen], rfl, rfl, fun i => ?_⟩
    simp [clearCauses, modHost, BitVec.getLsb_eq_getElem]
  case baseLow =>
    obtain ⟨t, hexec, honly, hhost⟩ := exec_registerWrite_host hopen (by decide) (by decide) (writeBar0_baseLower (fullDword v) s)
    exact ⟨t, hexec, honly, by rw [hhost, mergeHalf_lower]; rfl⟩
  case baseHigh =>
    obtain ⟨t, hexec, honly, hhost⟩ := exec_registerWrite_host hopen (by decide) (by decide) (writeBar0_baseUpper (fullDword v) s)
    exact ⟨t, hexec, honly, by rw [hhost, mergeHalf_upper]; rfl⟩
  case enable =>
    obtain ⟨t, hexec, honly, hhost⟩ := exec_registerWrite_host hopen (by decide) (by decide) (writeBar0_enableLower (fullDword v) s)
    exact ⟨t, hexec, honly, by rw [hhost, mergeHalf_lower]⟩
  case windows =>
    obtain ⟨t, hexec, honly, hhost⟩ := exec_registerWrite_host hopen (by decide) (by decide) (writeBar0_winIrqUpper (fullDword v) s)
    exact ⟨t, hexec, honly, by rw [hhost, mergeHalf_upper]⟩
  case area =>
    have hk := k.isLt
    obtain ⟨t, hexec, honly, hhost⟩ := exec_registerWrite_host (o := 0x1000 + 4 * k.val) (v := v) hopen (by omega) (by omega)
      (writeBar0_area hk _ s)
    obtain ⟨hbytes, hothers⟩ := setArea_fullDword s.host.reqArea k.val v
    exact ⟨t, hexec, honly, by rw [hhost]; exact hbytes, by rw [hhost]; exact hothers⟩
  case readOnly =>
    have hplace : o % 4 = 0 ∧ o < 2 ^ 32 := by
      simp only [List.mem_cons, List.not_mem_nil, or_false] at ho
      omega
    rw [exec_registerWrite_bar0 hplace.1 hplace.2, barWrite_open hopen, writeBar0_readOnly ho]
  case oneByte =>
    simp only [List.mem_cons, List.not_mem_nil, or_false] at ho
    rw [exec_registerWrite_byte (by omega) (by omega), barWrite_open hopen]
    rcases ho with rfl | rfl <;> rfl
  case noKey =>
    rw [exec_registerWrite_bar0 (by decide) (by decide), barWrite_open hopen, writeBar0_resetRequest, whole_fullDword,
      resetRequest_noKey hkey]

end Sys2Proof.Machine
end

section
/-! SUPPORT. What a read of the dictionary depends on: neither on the outcome of the operation nor, beside its own entry, on a
value held for the CAN node (R384, R391, R398). -/

namespace Sys2Proof.Machine

open Sys2Proof

/-- The machine with other values in the entries' store and another outcome of the operation. -/
def recount (m : NMap Nat) (a b n : Nat) (s : State) : State :=
  { s with dict := { s.dict with od := m, status := a, abort := b, clampCount := n } }

/-- The values of the entries behind the CAN node's 1100h–11FFh are as they were. -/
def NodeApart (m : NMap Nat) (s : State) : Prop :=
  ∀ index sub, 0x1200 ≤ index → (mapGet m (odKey index sub)).getD (odDefault (odKey index sub)) = odGet s index sub

theorem odGet_recount {m : NMap Nat} {s : State} (h : NodeApart m s) (a b n : Nat) {index : Nat} (sub : Nat)
    (hindex : 0x1200 ≤ index) : odGet (recount m a b n s) index sub = odGet s index sub := h index sub hindex

section
variable {m : NMap Nat} {s : State} (h : NodeApart m s) (a b n : Nat)
include h

theorem assigned_recount : assigned (recount m a b n s) = assigned s := by
  simp only [assigned, odGet_recount h a b n _ (by decide : 0x1200 ≤ 0x3000)]

theorem role_recount (p : PortN) : role (recount m a b n s) p = role s p := by
  have hindex : 0x1200 ≤ portIndex p 0 := by simp only [portIndex]; omega
  simp only [role, odGet_recount h a b n _ hindex]

theorem ownNo_recount : ownNo (recount m a b n s) = ownNo s := by
  simp only [ownNo, odGet_recount h a b n _ (by decide : 0x1200 ≤ 0x3000)]

theorem takesPart_recount : takesPart (recount m a b n s) = takesPart s := by
  simp only [takesPart, assigned_recount h]
  rfl

theorem linkFlags_recount (p : PortN) : linkFlags (recount m a b n s) p = linkFlags s p := by
  simp only [linkFlags, keysPending, role_recount h]
  rfl

theorem readPort_recount (p : PortN) (k sub : Nat) : readPort (recount m a b n s) p k sub = readPort s p k sub := by
  unfold readPort
  simp only [linkFlags_recount h]
  rfl

theorem readSwitch_recount (index sub : Nat) : readSwitch (recount m a b n s) index sub = readSwitch s index sub := by
  unfold readSwitch
  simp only [directoryStatus, dirEnabled, assigned_recount h,
    odGet_recount h a b n _ (by decide : 0x1200 ≤ 0x3000), odGet_recount h a b n _ (by decide : 0x1200 ≤ 0x3500)]
  rfl

theorem readTime_recount (index sub : Nat) : readTime (recount m a b n s) index sub = readTime s index sub := by
  unfold readTime
  simp only [calendarStatus, isolated, readBack, odGet_recount h a b n _ (by decide : 0x1200 ≤ 0x4100),
    odGet_recount h a b n _ (by decide : 0x1200 ≤ 0x4102)]
  rfl

theorem readMemory_recount (index sub : Nat) : readMemory (recount m a b n s) index sub = readMemory s index sub := by
  unfold readMemory
  simp only [xlatWord, memStatus, odGet_recount h a b n _ (by decide : 0x1200 ≤ 0x5201),
    odGet_recount h a b n _ (by decide : 0x1200 ≤ 0x5300)]
  rfl

theorem keyStatus_recount (p : PortN) : keyStatus (recount m a b n s) p = keyStatus s p := by
  simp only [keyStatus, keyStage, role_recount h]
  rfl

theorem musterStatus_recount : musterStatus (recount m a b n s) = musterStatus s := by
  simp only [musterStatus, musterState, takesPart_recount h, ownNo_recount h]
  rfl

theorem throttleStatus_recount : throttleStatus (recount m a b n s) = throttleStatus s := by
  simp only [throttleStatus, odGet_recount h a b n _ (by decide : 0x1200 ≤ 0x7200)]
  rfl

theorem readManagement_recount (index sub : Nat) : readManagement (recount m a b n s) index sub = readManagement s index sub := by
  unfold readManagement
  simp only [keyStatus_recount h, musterStatus_recount h, throttleStatus_recount h]
  rfl

theorem readScalar_recount {index sub : Nat} (hvalue : odGet (recount m a b n s) index sub = odGet s index sub) :
    readScalar (recount m a b n s) index sub = readScalar s index sub := by
  unfold readScalar
  simp only [readManagement_recount h, readPort_recount h, readSwitch_recount h, readTime_recount h, readMemory_recount h, hvalue]
  rfl

theorem gridSizes_recount (i : Nat) : gridSizes (recount m a b n s) i = gridSizes s i := by
  simp only [gridSizes, odGet_recount h a b n _ (by decide : 0x1200 ≤ 0x5101)]

theorem gridAt_recount (i : Nat) : gridAt (recount m a b n s) i = gridAt s i := by
  funext k
  simp only [gridAt, gridPoints, gridSizes_recount h]
  rfl

theorem groupMembers_recount (d : Bytes) : groupMembers (recount m a b n s) d = groupMembers s d := by
  simp only [groupMembers, gridPoints, gridSizes_recount h, gridAt_recount h]
  rfl

theorem readBlob_recount (index sub : Nat) : readBlob (recount m a b n s) index sub = readBlob s index sub := by
  unfold readBlob
  simp only [absentBytes, groupMembers_recount h]
  rfl

/-- A read of the operators' view. -/
theorem dictRead_recount {index sub : Nat} (hvalue : odGet (recount m a b n s) index sub = odGet s index sub) :
    dictRead (recount m a b n s) none index sub = dictRead s none index sub := by
  simp only [dictRead, viewScalar, viewBlob, readScalar_recount h a b n hvalue, readBlob_recount h]

end

/-- The start of an operation changes no read. -/
theorem dictRead_beginOp (s : State) (index sub : Nat) : dictRead (beginOp s) none index sub = dictRead s none index sub :=
  dictRead_recount (m := s.dict.od) (fun _ _ _ => rfl) 0 0 0 rfl

end Sys2Proof.Machine
end

section
/-! SUPPORT. The dictionary mailbox: what the doorbell starts, how a running request is carried out, and its response (R376–R378). -/

namespace Sys2Proof.Machine

open Sys2Proof

theorem exec_mailboxDoorbell (v : BitVec 32) (s : State) : exec (.mailboxDoorbell v) s = .next (barWrite (mailboxDoorbell v) s) := rfl

theorem exec_mailboxRead (s : State) : exec .mailboxRead s = .next (serveMailbox (fun r => r.op != 2) s) := rfl

theorem exec_mailboxSegmentWrite (s : State) : exec .mailboxSegmentWrite s = .next (serveMailbox (fun r => r.op == 2) s) := rfl

/-! ### Serving the running request -/

theorem serveMailbox_idle {s : State} (h : s.host.running = none) (f : MbxRequest → Bool) : serveMailbox f s = s := by
  simp [serveMailbox, h]

theorem serveMailbox_running {s : State} {r : MbxRequest} (h : s.host.running = some r) (f : MbxRequest → Bool) :
    serveMailbox f s = if f r then answerMailbox r (carryOut .mailbox none r s) else s := by
  simp [serveMailbox, h]

/-- A cause signalled changes of the host interface only the causes and the pending vectors. -/
theorem raiseCause_host (n : Fin 64) (s : State) :
    (raiseCause n s).host = { s.host with cause := (raiseCause n s).host.cause, msixPending := (raiseCause n s).host.msixPending } := by
  unfold raiseCause signal
  dsimp only
  split_ifs <;> rfl

/-- How an answered request leaves the mailbox. -/
structure Answered (r : MbxRequest) (x : Reply × State) (t : State) : Prop where
  rsp : t.host.rsp = outcome x.2 r.reqSeq.toNat x.1.1 x.1.2
  running : t.host.running = none
  busy : t.host.busy = false
  cause : t.host.cause.getLsbD 0 = true
  staged : t.host.staged = x.2.host.staged
  od : t.dict.od = x.2.dict.od
  mem : t.mem = x.2.mem

/-- The mailbox is free, its response replaced. -/
def freeMailbox (rsp : MbxResponse) (h : HostIf) : HostIf :=
  { h with busy := false, running := none, discard := false, rsp := rsp }

/-- A request that no function reset discarded is answered whole and signalled, where no node-ID waits to be taken. -/
theorem answerMailbox_answered {r : MbxRequest} {x : Reply × State} (hdiscard : x.2.host.discard = false)
    (hcan : x.2.can.renamed = false) : Answered r x (answerMailbox r x) := by
  have hanswer : answerMailbox r x = raiseCause 0 (modHost (freeMailbox (outcome x.2 r.reqSeq.toNat x.1.1 x.1.2)) x.2) := by
    have hold : answerMailbox r x = afterResponse (raiseCause 0 (modHost (freeMailbox (outcome x.2 r.reqSeq.toNat x.1.1 x.1.2)) x.2)) := by
      simp [answerMailbox, modHost, freeMailbox, hdiscard]
    rw [hold, afterResponse_of_not_renamed]
    rw [raiseCause_only _ _ .can (by decide)]
    exact hcan
  rw [hanswer]
  constructor
  case cause => exact raiseCause_cause 0 _
  case od => rw [raiseCause_dict]; rfl
  case mem => rw [raiseCause_only _ _ .mem (by decide)]; rfl
  all_goals rw [raiseCause_host]; rfl

/-! ### Carrying a request out -/

theorem carryOut_malformed {r : MbxRequest} (hread : r.op ≠ 1) (hwrite : r.op ≠ 2) (s : State) :
    carryOut .mailbox none r s = ((false, []), badRequest (beginOp s)) := by
  rw [carryOut, if_neg hread, if_neg hwrite]

theorem carryOut_read {r : MbxRequest} (h : r.op = 1) (s : State) : carryOut .mailbox none r s = readRequest .mailbox none r s := by
  simp [carryOut, h]

theorem carryOut_write {r : MbxRequest} (h : r.op = 2) (s : State) :
    carryOut .mailbox none r s = ((false, []), writeRequest .mailbox r s) := by
  simp [carryOut, h]

/-- A read of an entry that is no BLOB, from its beginning. -/
theorem readRequest_whole {r : MbxRequest} {s : State} {b : Bytes} (hlen : r.len = 0) (hflags : r.flags.toNat < 4) (hoffset : r.offset = 0)
    (hblob : isBlob r.index.toNat r.sub.toNat = false) (hread : dictRead s none r.index.toNat r.sub.toNat = .ok b) :
    readRequest .mailbox none r s = ((false, b), beginOp s) := by
  unfold readRequest
  dsimp only
  rw [if_neg (by simp [hlen, hflags]), dictRead_beginOp, hread]
  simp [hblob, hoffset]

theorem dictRead_readable {index sub : Nat} {e : Entry} (he : findEntry index sub = some e) (hwo : e.acc ≠ .wo) (s : State) :
    dictRead s none index sub = .ok (match e.ty.size with
      | some n => natLe n (viewScalar s none index sub)
      | none => viewBlob s none index sub) := by
  unfold dictRead
  simp only [he, if_neg hwo]
  cases e.ty.size <;> rfl

/-- A first segment that is not the last is kept for its entry. -/
theorem writeRequest_first {r : MbxRequest} {s : State} (hflags : r.flags = 1) (hoffset : r.offset = 0) (hlen : r.len.toNat ≤ 2032)
    (hstaged : s.host.staged = none) : writeRequest .mailbox r s = setStaged .mailbox
      (some { key := odKey r.index.toNat r.sub.toNat, data := slice r.data 0 r.len.toNat }) (beginOp s) := by
  have hkey : openKey .mailbox (beginOp s) = none := by simp [openKey, stagedOf, hstaged]
  unfold writeRequest
  dsimp only
  rw [if_neg (by simp [hflags, hoffset, messageData, hlen]), hkey, if_neg (by simp), if_neg (by simp)]
  have hroom : ¬1048576 < r.len.toNat := by omega
  have hlast : Nat.testBit 1 1 = false := by decide
  simp [hflags, bit, stagingLimit, slice_length, hroom, hlast]

/-- Settles O22: a running request is carried out by its OP and answered whole (`answerMailbox_answered`). -/
theorem mailboxRunsOneRequest : Obligations.MailboxRunsOneRequest := by
  unfold Obligations.MailboxRunsOneRequest
  intro s
  refine ⟨fun v => ⟨fun hclosed => ?closed, fun hopen hwaits => ?ignored, fun hopen hfree hready => ?starts⟩, fun hidle => ?idle,
    fun r hrun hdiscard hcan => ⟨fun hop => ?otherWrite, fun hop => ?otherRead, fun hread hwrite => ?malformed,
      fun hop e he hwo hblob hlen hflags hoffset => ?read, fun hop hflags hoffset hlen hstaged => ?first⟩⟩
  case closed => rw [exec_mailboxDoorbell, barWrite_closed hclosed]
  case ignored => rw [exec_mailboxDoorbell, barWrite_open hopen, mailboxDoorbell, if_pos hwaits]
  case starts =>
    have hstart : ¬(s.host.busy = true ∨ s.host.ready = false) := by simp [hfree, hready]
    rw [exec_mailboxDoorbell, barWrite_open hopen, mailboxDoorbell, if_neg hstart]
    exact ⟨_, rfl, rfl, rfl, rfl, modHost_only _ s⟩
  case idle =>
    rw [exec_mailboxRead, exec_mailboxSegmentWrite, serveMailbox_idle hidle, serveMailbox_idle hidle]
    exact ⟨rfl, rfl⟩
  case otherWrite => rw [exec_mailboxRead, serveMailbox_running hrun, if_neg (by simp [hop])]
  case otherRead => rw [exec_mailboxSegmentWrite, serveMailbox_running hrun, if_neg (by simpa using hop)]
  case malformed =>
    rw [exec_mailboxRead, serveMailbox_running hrun, if_pos (by simpa using hwrite), carryOut_malformed hread hwrite]
    have hanswered := answerMailbox_answered (r := r) (x := ((false, []), badRequest (beginOp s))) hdiscard hcan
    exact ⟨_, rfl, hanswered.rsp, hanswered.running, hanswered.busy, hanswered.cause, hanswered.od⟩
  case read =>
    rw [exec_mailboxRead, serveMailbox_running hrun, if_pos (by simp [hop]), carryOut_read hop,
      readRequest_whole hlen hflags hoffset hblob (dictRead_readable he hwo s)]
    refine ⟨_, rfl, fun n hn => ?_, ?_⟩
    · rw [(answerMailbox_answered hdiscard hcan).rsp, hn]
      rfl
    · have hanswered := answerMailbox_answered (r := r) (x := ((false, match e.ty.size with
        | some n => natLe n (viewScalar s none r.index.toNat r.sub.toNat)
        | none => viewBlob s none r.index.toNat r.sub.toNat), beginOp s)) hdiscard hcan
      exact ⟨hanswered.running, hanswered.busy, hanswered.cause, hanswered.od⟩
  case first =>
    rw [exec_mailboxSegmentWrite, serveMailbox_running hrun, if_pos (by simp [hop]), carryOut_write hop,
      writeRequest_first hflags hoffset hlen hstaged]
    have hanswered := answerMailbox_answered (r := r) (x := ((false, []), setStaged .mailbox
      (some { key := odKey r.index.toNat r.sub.toNat, data := slice r.data 0 r.len.toNat }) (beginOp s))) hdiscard hcan
    exact ⟨_, rfl, hanswered.staged, hanswered.rsp, hanswered.running, hanswered.busy, hanswered.cause, hanswered.od,
      hanswered.mem⟩

end Sys2Proof.Machine
end

section
/-! SUPPORT. The CAN FD node: NMT commands, USDO transfers, heartbeat, TPDO, bus-off and a new node-ID (R391–R395, R397). -/

namespace Sys2Proof.Machine

open Sys2Proof

theorem exec_nmtStart (node : BitVec 8) (s : State) : exec (.nmtStart node) s = .next (nmtCommand node.toNat (nmtEnter 5) s) := rfl

theorem exec_nmtStop (node : BitVec 8) (s : State) : exec (.nmtStop node) s = .next (nmtCommand node.toNat (nmtEnter 4) s) := rfl

theorem exec_nmtEnterPreoperational (node : BitVec 8) (s : State) :
    exec (.nmtEnterPreoperational node) s = .next (nmtCommand node.toNat (nmtEnter 0x7F) s) := rfl

theorem exec_nmtResetCommunication (node : BitVec 8) (s : State) :
    exec (.nmtResetCommunication node) s = .next (nmtCommand node.toNat nmtBoot s) := rfl

theorem exec_usdoUpload (index : BitVec 16) (sub : BitVec 8) (s : State) :
    exec (.usdoUpload index sub) s = .next (usdoUpload index.toNat sub.toNat s) := rfl

theorem exec_usdoDownload (index : BitVec 16) (sub : BitVec 8) (data : Bytes) (s : State) :
    exec (.usdoDownload index sub data) s = .next (usdoDownload index.toNat sub.toNat data s) := rfl

theorem exec_usdoSegmentTimeout (s : State) : exec .usdoSegmentTimeout s = .next (usdoTimeout s) := rfl

theorem exec_heartbeat (s : State) : exec .heartbeat s = .next (heartbeat s) := rfl

theorem exec_tpdo (n : Fin 4) (s : State) : exec (.tpdo n) s = .next (sendTpdo n.val s) := rfl

theorem exec_busOff (s : State) : exec .busOff s = .next (busOff s) := rfl

theorem exec_nodeIdWrite (src : Route) (v : BitVec 8) (s : State) :
    exec (.nodeIdWrite src v) s = .next (afterResponse (nodeIdWrite src v.toNat (beginOp s))) := rfl

/-! ### Counters of the node -/

/-- Two sub-indices of the node's entries are two entries. -/
theorem odGet_bump_node {i j : Nat} (hi : i < 256) (hj : j < 256) (h : j ≠ i) (s : State) :
    odGet (bump 0x1100 i s) 0x1100 j = odGet s 0x1100 j := by
  apply odGet_bump_ne
  rw [Ne, odKey_inj hj hi]
  exact fun hsame => h hsame.2

theorem sendFrame_only (ident : Nat) (data : Bytes) (s : State) : Only [.dict, .sent] s (sendFrame ident data s) :=
  ((bump_only 0x1100 0x11 s).mono (by decide)).trans (emit_parts _ (by decide) (Only.refl _ _))

theorem sendFrame_entries (ident : Nat) (data : Bytes) (s : State) : OnlyEntries [(0x1100, 0x11)] s (sendFrame ident data s) :=
  bump_entries 0x1100 0x11 s (by decide)

/-! ### NMT (R394) -/

/-- Is an NMT command for this node, which has booted? -/
def nmtReaches (node : BitVec 8) (s : State) : Bool :=
  decide (s.can.node ≠ 0) && decide (s.can.nmt ≠ 0) && (decide (node = 0) || decide (node.toNat = s.can.node))

theorem nmtReaches_iff (node : BitVec 8) (s : State) :
    nmtReaches node s = true ↔ s.can.node ≠ 0 ∧ s.can.nmt ≠ 0 ∧ (node.toNat = 0 ∨ node.toNat = s.can.node) := by
  have hzero : node = 0 ↔ node.toNat = 0 := by simp [BitVec.toNat_eq]
  simp only [nmtReaches, Bool.and_eq_true, Bool.or_eq_true, decide_eq_true_eq, and_assoc, hzero]

theorem nmtCommand_passed {node : BitVec 8} {s : State} (h : nmtReaches node s = false) (f : State → State) :
    nmtCommand node.toNat f s = s := by
  rw [nmtCommand, if_neg]
  rw [← nmtReaches_iff, h]
  decide

theorem nmtCommand_taken {node : BitVec 8} {s : State} (h : nmtReaches node s = true) (f : State → State) :
    nmtCommand node.toNat f s = f (bump 0x1100 0x10 s) := by
  rw [nmtCommand, if_pos ((nmtReaches_iff node s).mp h)]

theorem nmtEnter_counted (n : Nat) (s : State) :
    (nmtEnter n (bump 0x1100 0x10 s)).can = { s.can with nmt := n } ∧ Only [.dict, .can] s (nmtEnter n (bump 0x1100 0x10 s)) ∧
      OnlyEntries [(0x1100, 0x10)] s (nmtEnter n (bump 0x1100 0x10 s)) := by
  refine ⟨rfl, ?_, bump_entries 0x1100 0x10 s (by decide)⟩
  exact nmtEnter_parts n (by decide) ((bump_only 0x1100 0x10 s).mono (by decide))

/-- A node on the bus sends its boot-up message and enters the state that OD 1100.05 names. -/
theorem nmtBoot_counted {s : State} (hnode : s.can.node ≠ 0) :
    (nmtBoot (bump 0x1100 0x10 s)).can = { s.can with nmt := if odGet s 0x1100 5 = 1 then 5 else 0x7F } ∧
      (nmtBoot (bump 0x1100 0x10 s)).sent = .can (0x700 + s.can.node) [0] :: s.sent ∧
      Only [.dict, .can, .sent] s (nmtBoot (bump 0x1100 0x10 s)) ∧
      OnlyEntries [(0x1100, 0x10), (0x1100, 0x11)] s (nmtBoot (bump 0x1100 0x10 s)) := by
  have hboot : bootUp (bump 0x1100 0x10 s) = emit (.can (0x700 + s.can.node) [0]) (bump 0x1100 0x11 (bump 0x1100 0x10 s)) := if_neg hnode
  have hafter : nmtAfterBoot (bump 0x1100 0x10 s) = if odGet s 0x1100 5 = 1 then 5 else 0x7F := by
    rw [nmtAfterBoot, odGet_bump_node (by decide) (by decide) (by decide)]
  rw [nmtBoot, hboot, hafter]
  refine ⟨rfl, rfl, ?_, ?_⟩
  · exact nmtEnter_parts _ (by decide) (emit_parts _ (by decide) (((bump_only 0x1100 0x10 s).trans (bump_only _ _ _)).mono (by decide)))
  · exact ((bump_entries 0x1100 0x10 s (by decide)).mono (by simp)).trans ((bump_entries 0x1100 0x11 _ (by decide)).mono (by simp))

/-! ### USDO (R395) -/

theorem usdoRequest_silent {s : State} (h : canSpeaks s = false) (f : State → Bytes × State) : usdoRequest f s = s := by
  simp [usdoRequest, h]

/-- A transfer counted by its outcome. -/
def usdoCounted (s : State) : State := bump 0x1100 (if s.dict.abort = 0 then 0x14 else 0x15) s

/-- The answer to a transfer: its outcome, with the data where it was not aborted. -/
def usdoAnswer (r : Bytes × State) : Out := .usdo r.2.dict.status r.2.dict.abort (if r.2.dict.abort = 0 then r.1 else [])

theorem usdoAnswer_noData (s : State) : usdoAnswer ([], s) = .usdo s.dict.status s.dict.abort [] := by
  unfold usdoAnswer
  split
  · rfl
  · rfl

theorem usdoRequest_taken {s : State} (h : canSpeaks s = true) (f : State → Bytes × State) : usdoRequest f s =
    afterResponse (emit (usdoAnswer (f (bump 0x1100 0x10 s))) (bump 0x1100 0x11 (usdoCounted (f (bump 0x1100 0x10 s)).2))) := by
  rw [usdoRequest, if_pos h]
  dsimp only
  rw [← apply_ite (fun n => bump 0x1100 n _)]
  rfl

/-- A transfer is answered with one frame more and its outcome counted, where no node-ID waits to be taken. -/
theorem usdo_answered (r : Bytes × State) (hcan : r.2.can.renamed = false) :
    (afterResponse (emit (usdoAnswer r) (bump 0x1100 0x11 (usdoCounted r.2)))).sent = usdoAnswer r :: r.2.sent ∧
      Only [.dict, .sent] r.2 (afterResponse (emit (usdoAnswer r) (bump 0x1100 0x11 (usdoCounted r.2)))) ∧
      OnlyEntries [(0x1100, 0x11), (0x1100, if r.2.dict.abort = 0 then 0x14 else 0x15)] r.2
        (afterResponse (emit (usdoAnswer r) (bump 0x1100 0x11 (usdoCounted r.2)))) := by
  have hsub : (if r.2.dict.abort = 0 then 0x14 else 0x15) < 256 := by split <;> decide
  rw [afterResponse_of_not_renamed (by exact hcan)]
  refine ⟨rfl, ?_, ?_⟩
  · exact emit_parts _ (by decide) (((bump_only _ _ _).trans (bump_only 0x1100 0x11 _)).mono (by decide))
  · exact ((bump_entries _ _ r.2 hsub).mono (by simp)).trans ((bump_entries 0x1100 0x11 _ (by decide)).mono (by simp))

theorem counted_only (s : State) : Only [.dict, .sent] s (bump 0x1100 0x10 s) := (bump_only _ _ _).mono (by decide)

theorem endOp_only (status abort : Nat) (s : State) : Only [.dict] s (endOp status abort s) :=
  endOp_parts _ _ (by decide) (Only.refl _ _)

/-- A read between the node's counters. -/
theorem dictRead_counted {index : BitVec 16} (sub : BitVec 8) (hindex : index.toNat < 0x1100 ∨ 0x1200 ≤ index.toNat) (s : State) :
    dictRead (beginOp (bump 0x1100 0x10 s)) none index.toNat sub.toNat = dictRead s none index.toNat sub.toNat := by
  have hsub := sub.isLt
  have hvalue : ∀ i j, odKey i j ≠ odKey 0x1100 0x10 → odGet (bump 0x1100 0x10 s) i j = odGet s i j :=
    fun i j h => odGet_bump_ne _ _ _ _ _ h
  refine dictRead_recount (m := (bump 0x1100 0x10 s).dict.od) (fun i j hi => hvalue i j ?_) 0 0 0 (hvalue _ _ ?_)
  · simp only [odKey]
    omega
  · simp only [odKey]
    omega

theorem dictRead_error_aborts {s : State} {who : Viewer} {index sub status abort : Nat}
    (h : dictRead s who index sub = .error (status, abort)) : abort ≠ 0 := by
  unfold dictRead at h
  split at h
  · split_ifs at h <;> cases h <;> decide
  · split_ifs at h
    · cases h
      decide
    · split at h <;> cases h

theorem usdoUpload_read {index : BitVec 16} {sub : BitVec 8} {s : State} {b : Bytes} (hspeaks : canSpeaks s = true)
    (hcan : s.can.renamed = false) (hindex : index.toNat < 0x1100 ∨ 0x1200 ≤ index.toNat)
    (hread : dictRead s none index.toNat sub.toNat = .ok b) : (usdoUpload index.toNat sub.toNat s).sent = .usdo 0 0 b :: s.sent ∧
      Only [.dict, .sent] s (usdoUpload index.toNat sub.toNat s) ∧
      OnlyEntries [(0x1100, 0x10), (0x1100, 0x11), (0x1100, 0x14)] s (usdoUpload index.toNat sub.toNat s) := by
  rw [usdoUpload, usdoRequest_taken hspeaks]
  dsimp only
  rw [dictRead_counted sub hindex, hread]
  obtain ⟨hsent, honly, hentries⟩ := usdo_answered (b, beginOp (bump 0x1100 0x10 s)) hcan
  refine ⟨hsent, ?_, ?_⟩
  · exact ((counted_only s).trans ((beginOp_only _).mono (by decide))).trans honly
  · exact (((bump_entries 0x1100 0x10 s (by decide)).mono (by simp)).trans ((beginOp_entries _).mono (by simp))).trans
      (hentries.mono (by simp))

theorem usdoUpload_refused {index : BitVec 16} {sub : BitVec 8} {s : State} {status abort : Nat} (hspeaks : canSpeaks s = true)
    (hcan : s.can.renamed = false) (hindex : index.toNat < 0x1100 ∨ 0x1200 ≤ index.toNat)
    (hread : dictRead s none index.toNat sub.toNat = .error (status, abort)) :
    (usdoUpload index.toNat sub.toNat s).sent = .usdo status abort [] :: s.sent ∧
      Only [.dict, .sent] s (usdoUpload index.toNat sub.toNat s) ∧
      OnlyEntries [(0x1100, 0x10), (0x1100, 0x11), (0x1100, 0x15)] s (usdoUpload index.toNat sub.toNat s) := by
  have habort := dictRead_error_aborts hread
  rw [usdoUpload, usdoRequest_taken hspeaks]
  dsimp only
  rw [dictRead_counted sub hindex, hread]
  obtain ⟨hsent, honly, hentries⟩ := usdo_answered ([], endOp status abort (beginOp (bump 0x1100 0x10 s))) hcan
  refine ⟨?_, ?_, ?_⟩
  · rw [hsent, usdoAnswer_noData]
    rfl
  · exact ((counted_only s).trans (((beginOp_only _).trans (endOp_only _ _ _)).mono (by decide))).trans honly
  · have habort' : (endOp status abort (beginOp (bump 0x1100 0x10 s))).dict.abort ≠ 0 := habort
    rw [if_neg habort'] at hentries
    exact (((bump_entries 0x1100 0x10 s (by decide)).mono (by simp)).trans ((OnlyEntries.of_od rfl).mono (by simp))).trans
      (hentries.mono (by simp))

/-! ### A new node-ID (R392) -/

/-- The response of an operation stays in the transcript behind what a new node-ID sends. -/
theorem sent_afterResponse (s : State) : ∃ new : List Out, (afterResponse s).sent = new ++ s.sent := by
  have hkeeps := afterResponse_keeps (wr := true) (Keeps.refl _ s)
  exact hkeeps.sent

/-- The node-ID kept, and the node that has taken it. -/
theorem nodeIdWrite_taken (src : Route) (v : BitVec 8) (s : State) : ∃ u : State,
    afterResponse (nodeIdWrite src v.toNat (beginOp s)) = bootUp u ∧ odGet u 0x1100 2 = min v.toNat 127 ∧
      u.can = { s.can with renamed := false, node := if v = 0 then s.pwr.nodePins else min v.toNat 127 } ∧
      Only [.dict, .can, .host, .sent] s u := by
  have hvalue : odGet (nodeIdWrite src v.toNat (beginOp s)) 0x1100 2 = min v.toNat 127 :=
    odGet_keepScalar src 0x1100 2 8 v.toNat (min v.toNat 127) (beginOp s) (by decide) (by decide)
  have honly : Only [.dict, .host, .sent] s (keepScalar src 0x1100 2 8 v.toNat (min v.toNat 127) (beginOp s)) :=
    (keepScalar_only _ _ _ _ _ _ _).of_beginOp
  refine ⟨{ nodeIdWrite src v.toNat (beginOp s) with
    can := { (nodeIdWrite src v.toNat (beginOp s)).can with renamed := false, node := nodeId (nodeIdWrite src v.toNat (beginOp s)) } },
    if_pos rfl, hvalue, ?can, ?only⟩
  case can =>
    have hcan : (nodeIdWrite src v.toNat (beginOp s)).can = { s.can with renamed := true } := by
      unfold nodeIdWrite
      dsimp only
      rw [honly .can (by decide)]
    have hpins : (nodeIdWrite src v.toNat (beginOp s)).pwr = s.pwr := honly .pwr (by decide)
    have hzero : v = 0 ↔ min v.toNat 127 = 0 := by simp [BitVec.toNat_eq]
    have hnode : nodeId (nodeIdWrite src v.toNat (beginOp s)) = if v = 0 then s.pwr.nodePins else min v.toNat 127 := by
      unfold nodeId
      rw [hvalue, hpins]
      by_cases hv : v = 0
      · rw [if_neg (not_not.mpr (hzero.mp hv)), if_pos hv]
      · rw [if_pos (fun h => hv (hzero.mpr h)), if_neg hv]
    simp only [hcan, hnode]
  case only =>
    exact Only.can_upd (by decide) (Only.can_upd (by decide) (honly.mono (by decide)))

theorem bootUp_only (s : State) : Only [.dict, .can, .host, .sent] s (bootUp s) := bootUp_parts (by decide) (Only.refl _ _)

theorem odGet_bootUp_nodeId (s : State) : odGet (bootUp s) 0x1100 2 = odGet s 0x1100 2 := by
  unfold bootUp
  split
  · rfl
  · exact odGet_bump_node (by decide) (by decide) (by decide) s

/-- A node with a node-ID sends its boot-up message last. -/
theorem bootUp_sent {s : State} (h : s.can.node ≠ 0) : (bootUp s).sent.head? = some (.can (0x700 + s.can.node) [0]) := by
  rw [bootUp, if_neg h]
  rfl

theorem bootUp_can (s : State) : (bootUp s).can = s.can := by
  unfold bootUp
  split
  · rfl
  · rfl

/-! ### Bus-off (R392, R396) -/

theorem busOff_counted {s : State} (h : s.can.node ≠ 0) : busOff s = emcy 0x8140 0 0 (bump 0x1100 0x13 s) := if_neg h

/-- The first EMCY is not inhibited. -/
theorem emcy_first {s : State} (hspeaks : canSpeaks s = true) (hnone : s.can.lastEmcy = none) (err code seq : Nat) :
    (emcy err code seq s).can.lastEmcy = some s.time.ft := by
  unfold emcy
  rw [if_pos hspeaks]
  simp only [hnone]
  rfl

/-! ### The services together -/

theorem nmtServices (node : BitVec 8) (s : State) :
    (nmtReaches node s = false → ∀ y ∈ ([.nmtStart node, .nmtStop node, .nmtEnterPreoperational node, .nmtResetCommunication node] : List Instr),
      exec y s = .next s) ∧
    (nmtReaches node s = true →
      (∀ y ∈ ([(.nmtStart node, 5), (.nmtStop node, 4), (.nmtEnterPreoperational node, 0x7F)] : List (Instr × Nat)),
        ∃ t : State, exec y.1 s = .next t ∧ t.can = { s.can with nmt := y.2 } ∧ Only [.dict, .can] s t ∧ OnlyEntries [(0x1100, 0x10)] s t) ∧
      (∃ t : State, exec (.nmtResetCommunication node) s = .next t ∧ t.can = { s.can with nmt := if odGet s 0x1100 5 = 1 then 5 else 0x7F } ∧
        t.sent = .can (0x700 + s.can.node) [0] :: s.sent ∧ Only [.dict, .can, .sent] s t ∧ OnlyEntries [(0x1100, 0x10), (0x1100, 0x11)] s t)) := by
  constructor
  · intro hpassed
    simp only [List.forall_mem_cons, exec_nmtStart, exec_nmtStop, exec_nmtEnterPreoperational, exec_nmtResetCommunication,
      nmtCommand_passed hpassed]
    simp
  · intro htaken
    have hnode := ((nmtReaches_iff node s).mp htaken).1
    constructor
    · simp only [List.forall_mem_cons, exec_nmtStart, exec_nmtStop, exec_nmtEnterPreoperational, nmtCommand_taken htaken]
      exact ⟨⟨_, rfl, nmtEnter_counted 5 s⟩, ⟨_, rfl, nmtEnter_counted 4 s⟩, ⟨_, rfl, nmtEnter_counted 0x7F s⟩, by simp⟩
    · rw [exec_nmtResetCommunication, nmtCommand_taken htaken]
      exact ⟨_, rfl, nmtBoot_counted hnode⟩

theorem usdoTimeout_aborts {s : State} (h : canSpeaks s = true) :
    (usdoTimeout s).sent = .usdo 0 0x05040000 [] :: s.sent ∧ Only [.dict, .sent] s (usdoTimeout s) := by
  have htaken : usdoTimeout s = emit (.usdo 0 0x05040000 []) (bump 0x1100 0x11 (bump 0x1100 0x15 s)) := if_pos h
  rw [htaken]
  exact ⟨rfl, emit_parts _ (by decide) (((bump_only _ _ _).trans (bump_only _ _ _)).mono (by decide))⟩

theorem usdoDownload_tooLong {index sub : Nat} {data : Bytes} {s : State} (hspeaks : canSpeaks s = true) (hcan : s.can.renamed = false)
    (hlong : 1048576 < data.length) : (usdoDownload index sub data s).sent = .usdo 5 0x05040005 [] :: s.sent ∧
      Only [.dict, .sent] s (usdoDownload index sub data s) := by
  have hlimit : stagingLimit < data.length := hlong
  rw [usdoDownload, usdoRequest_taken hspeaks]
  simp only [if_pos hlimit]
  obtain ⟨hsent, honly, -⟩ := usdo_answered ([], endOp 5 0x05040005 (beginOp (bump 0x1100 0x10 s))) hcan
  refine ⟨?_, ?_⟩
  · rw [hsent, usdoAnswer_noData]
    rfl
  · exact ((counted_only s).trans (((beginOp_only _).trans (endOp_only _ _ _)).mono (by decide))).trans honly

theorem usdoDownload_written {index sub : Nat} {data : Bytes} {s : State} (hspeaks : canSpeaks s = true) (hshort : data.length ≤ 1048576)
    {u : State} (hu : u = dictWrite .can index sub data (bump 0x1100 0x10 s)) :
    .usdo u.dict.status u.dict.abort [] ∈ (usdoDownload index sub data s).sent ∧
      (u.can.renamed = false → (usdoDownload index sub data s).sent = .usdo u.dict.status u.dict.abort [] :: u.sent ∧
        Only [.dict, .sent] u (usdoDownload index sub data s)) := by
  have hlimit : ¬stagingLimit < data.length := not_lt.mpr hshort
  rw [usdoDownload, usdoRequest_taken hspeaks]
  simp only [if_neg hlimit, ← hu]
  constructor
  · obtain ⟨new, hnew⟩ := sent_afterResponse (emit (usdoAnswer ([], u)) (bump 0x1100 0x11 (usdoCounted u)))
    rw [hnew, ← usdoAnswer_noData]
    simp
  · intro hcan
    obtain ⟨hsent, honly, -⟩ := usdo_answered ([], u) hcan
    exact ⟨by rw [hsent, usdoAnswer_noData], honly⟩

theorem busOff_reported {s : State} (hnode : s.can.node ≠ 0) :
    (odGet s 0x1100 0x13 < 2 ^ 63 → odGet (busOff s) 0x1100 0x13 = odGet s 0x1100 0x13 + 1) ∧ Only [.dict, .can, .sent] s (busOff s) ∧
      (canSpeaks s = true → s.can.lastEmcy = none → (busOff s).can.lastEmcy = some s.time.ft) := by
  rw [busOff_counted hnode]
  refine ⟨fun hroom => ?_, ?_, fun hspeaks hnone => ?_⟩
  · rw [emcy_entries 0x8140 0 0 (bump 0x1100 0x13 s) 0x1100 0x13 (by decide) (by decide), odGet_bump_same]
    omega
  · exact emcy_parts _ _ _ (by decide) ((bump_only _ _ _).mono (by decide))
  · have hsame : canSpeaks (bump 0x1100 0x13 s) = canSpeaks s := rfl
    rw [emcy_first (hsame.trans hspeaks) hnone, bump_time]

/-- Settles O49: the NMT commands, the USDO transfers and the messages of the node, each by its own lemma. -/
theorem canNodeServices : Obligations.CanNodeServices := by
  unfold Obligations.CanNodeServices
  intro s
  refine ⟨?nmt, ?usdo, ?heartbeatOff, ?heartbeatOn, ?tpdos, ?offBus, ?onBus, ?renamed⟩
  case nmt =>
    rintro node mine rfl
    exact nmtServices node s
  case usdo =>
    intro index sub data
    refine ⟨fun hsilent => ?_, fun hspeaks hcan => ⟨⟨_, rfl, usdoTimeout_aborts hspeaks⟩, fun hindex => ⟨fun b hread => ?_,
      fun status abort hread => ?_⟩, fun hlong => ⟨_, rfl, usdoDownload_tooLong hspeaks hcan hlong⟩,
      fun hshort u hu => ⟨_, rfl, usdoDownload_written hspeaks hshort hu⟩⟩⟩
    · simp only [List.forall_mem_cons, exec_usdoUpload, exec_usdoDownload, exec_usdoSegmentTimeout, usdoUpload, usdoDownload,
        usdoRequest_silent hsilent, usdoTimeout, hsilent]
      simp
    · exact ⟨_, rfl, usdoUpload_read hspeaks hcan hindex hread⟩
    · exact ⟨_, rfl, usdoUpload_refused hspeaks hcan hindex hread⟩
  case heartbeatOff =>
    intro hoff
    rw [exec_heartbeat, heartbeat, if_pos hoff]
  case heartbeatOn =>
    intro hnode hnmt htime
    have hon : ¬(s.can.node = 0 ∨ s.can.nmt = 0 ∨ odGet s 0x1100 1 = 0) := by tauto
    rw [exec_heartbeat, heartbeat, if_neg hon]
    exact ⟨_, rfl, rfl, sendFrame_only _ _ s, sendFrame_entries _ _ s⟩
  case tpdos =>
    intro n
    refine ⟨fun hoff => ?_, fun hnode hnmt htime b hb => ?_⟩
    · rw [exec_tpdo, sendTpdo, if_neg (by tauto)]
    · rw [exec_tpdo, sendTpdo, if_pos ⟨hnode, hnmt, htime⟩, List.getD_eq_getElem?_getD, hb]
      exact ⟨_, rfl, rfl, sendFrame_only _ _ s⟩
  case offBus =>
    intro hnode
    rw [exec_busOff, busOff, if_pos hnode]
  case onBus =>
    intro hnode
    exact ⟨_, rfl, busOff_reported hnode⟩
  case renamed =>
    intro src v
    obtain ⟨u, hu, hvalue, hcan, honly⟩ := nodeIdWrite_taken src v s
    rw [exec_nodeIdWrite, hu]
    refine ⟨_, rfl, ?_, ?_, honly.trans (bootUp_only u), fun hnode => ?_⟩
    · rw [odGet_bootUp_nodeId, hvalue]
    · rw [bootUp_can, hcan]
    · rw [bootUp_can] at hnode ⊢
      exact bootUp_sent hnode

end Sys2Proof.Machine
end

section
/-! SUPPORT. The log's flush and acknowledgement, the lantern's samples, and the echo's replay of suspects (R449, R453, R456,
R458–R460). -/

namespace Sys2Proof.Machine

open Sys2Proof

theorem exec_logFlush (s : State) : exec .logFlush s = .next (flushLog s) := rfl

theorem exec_eventAcknowledge (src : Route) (v : BitVec 32) (s : State) :
    exec (.eventAcknowledge src v) s = .next (eventAcknowledge v.toNat (beginOp s)) := rfl

theorem exec_lanternSample (s : State) : exec .lanternSample s = .next (lanternSample s) := rfl

theorem exec_echoReplay (s : State) : exec .echoReplay s = .next (echoReplay s) := rfl

theorem exec_echoReplayTimeout (s : State) : exec .echoReplayTimeout s = .next (echoTimeout s) := rfl

/-! ### The log -/

theorem exec_logFlush_newest (s : State) : ∃ t : State, exec .logFlush s = .next t ∧ t = { s with log := t.log } ∧
    t.log = { s.log with fram := t.log.fram, pending := [] } ∧
    (s.log.fram.length + s.log.pending.length ≤ 8064 → t.log.fram = s.log.fram ++ s.log.pending) ∧
    (8064 ≤ s.log.fram.length + s.log.pending.length → t.log.fram.length = 8064 ∧
      ∃ old : List EventRec, s.log.fram ++ s.log.pending = old ++ t.log.fram) := by
  have hfram : (flushLog s).log.fram = (s.log.fram ++ s.log.pending).drop ((s.log.fram ++ s.log.pending).length - 8064) := by
    simp only [flushLog]
  rw [exec_logFlush]
  refine ⟨flushLog s, rfl, rfl, by simp only [flushLog], ?_⟩
  rw [hfram, List.length_append]
  refine ⟨fun hroom => ?_, fun hfull => ⟨?_, _, (List.take_append_drop _ _).symm⟩⟩
  · rw [Nat.sub_eq_zero_of_le hroom, List.drop_zero]
  · rw [List.length_drop, List.length_append]
    omega

/-! ### The alert -/

theorem errorRegister_of_only {s t : State} (h : Only [.host, .sent] s t) : errorRegister t = errorRegister s := by
  have hpwr : t.pwr = s.pwr := h .pwr (by decide)
  have hlog : t.log = s.log := h .log (by decide)
  have hports : t.ports = s.ports := h .ports (by decide)
  unfold errorRegister voltBad
  rw [hpwr, hlog, hports]

theorem emcy_status (err code seq : Nat) (s : State) : (emcy err code seq s).dict.status = s.dict.status := by
  unfold emcy
  dsimp only
  split_ifs <;> rfl

theorem odGet_log {index sub : Nat} (hsub : sub < 256) (h : (index, sub) ∉ eventEntries) (code : Nat) (detail : List Nat) (s : State) :
    odGet (log code detail s) index sub = odGet s index sub := event_entries code 255 detail s index sub hsub h

/-- The conditions as seen now. -/
def alertSeenNow (s : State) : State := { s with pwr := { s.pwr with alertSeen := alertConditions s } }

/-- Cause ALERT where a condition has arisen. -/
def alertRaised (s : State) : State :=
  if (indices 7 (fun i => (alertConditions s).testBit i && !s.pwr.alertSeen.testBit i)).isEmpty then alertSeenNow s
  else raiseCause 2 (alertSeenNow s)

/-- The EMCY of an error register that has returned to 0. -/
def alertTold (s : State) : State := if errorRegister s = 0 ∧ s.can.reported ≠ 0 then emcy 0 0 0 s else s

theorem lookAlert_eq (s : State) : lookAlert s = { alertTold (alertRaised s) with
    can := { (alertTold (alertRaised s)).can with reported := errorRegister (alertRaised s) } } := rfl

theorem alertRaised_only (s : State) : Only [.host, .sent] (alertSeenNow s) (alertRaised s) :=
  (Only.refl _ _).ite (raiseCause_only 2 _)

theorem alertTold_only (s : State) : Only [.dict, .can, .sent] s (alertTold s) :=
  Only.ite (emcy_parts _ _ _ (List.Subset.refl _) (Only.refl _ _)) (Only.refl _ _)

theorem alertTold_status (s : State) : (alertTold s).dict.status = s.dict.status := by
  unfold alertTold
  split
  · exact emcy_status 0 0 0 s
  · rfl

/-- What a look at the conditions leaves. -/
theorem lookAlert_leaves (s : State) : (lookAlert s).log = s.log ∧ (lookAlert s).dict.status = s.dict.status ∧
    (lookAlert s).pwr = { s.pwr with alertSeen := alertConditions s } ∧ (lookAlert s).can.reported = errorRegister s := by
  have hraised := alertRaised_only s
  have htold := alertTold_only (alertRaised s)
  have hdict : (alertRaised s).dict = s.dict := hraised .dict (by decide)
  have hregister : errorRegister (alertRaised s) = errorRegister (alertSeenNow s) := errorRegister_of_only hraised
  rw [lookAlert_eq]
  refine ⟨(htold .log (by decide)).trans (hraised .log (by decide)), ?_, (htold .pwr (by decide)).trans (hraised .pwr (by decide)),
    hregister⟩
  exact (alertTold_status _).trans (congrArg Dict.status hdict)

theorem lookAlert_only (s : State) : Only [.dict, .host, .can, .pwr, .sent] s (lookAlert s) :=
  lookAlert_parts (List.Subset.refl _) (Only.refl _ s)

/-- The open events up to a SEQ are closed. -/
def closeEvents (v : Nat) (s : State) : State :=
  { s with log := { s.log with opened := s.log.opened.filter (fun e => decide (v < e.1)) } }

theorem eventAcknowledge_eq (v : Nat) (s : State) : eventAcknowledge v s = lookAlert (closeEvents v s) := rfl

theorem exec_eventAcknowledge_closes (src : Route) (v : BitVec 32) (s : State) : ∃ t : State,
    exec (.eventAcknowledge src v) s = .next t ∧ Only logged s t ∧
      t.log = { s.log with opened := s.log.opened.filter (fun e => decide (v.toNat < e.1)) } ∧ t.dict.status = 0 ∧
      t.pwr = { s.pwr with alertSeen := alertConditions { s with log := t.log } } ∧ t.can.reported = errorRegister { s with log := t.log } := by
  rw [exec_eventAcknowledge, eventAcknowledge_eq]
  obtain ⟨hlog, hstatus, hpwr, hreported⟩ := lookAlert_leaves (closeEvents v.toNat (beginOp s))
  refine ⟨lookAlert (closeEvents v.toNat (beginOp s)), rfl, ?_, hlog, hstatus, ?_, ?_⟩
  · exact lookAlert_parts (by decide) (Only.log_upd (by decide) ((beginOp_only s).mono (by decide)))
  · rw [hpwr, hlog]
    rfl
  · rw [hreported, hlog]
    rfl

/-! ### Suspects -/

/-- An operation that takes a held context out of HELD, as `F` says, and touches no other. -/
structure Unholds (f : Nat → State → State) (F : Ctx → Ctx) : Prop where
  other : ∀ k j s, j ≠ k → ctxAt (f k s) j = ctxAt s j
  stays : ∀ k s, (ctxAt s k).state ≠ .held → f k s = s
  held : ∀ k s, (ctxAt s k).state = .held → ctxAt (f k s) k = F (ctxAt s k)
  left : ∀ c, (F c).state ≠ .held

/-- Over a list of contexts each held one of them is taken out of HELD once. -/
theorem Unholds.foldl {f : Nat → State → State} {F : Ctx → Ctx} (hf : Unholds f F) (g : List Nat) (s : State) :
    (∀ k ∈ g, (ctxAt s k).state = .held → ctxAt (g.foldl (fun u j => f j u) s) k = F (ctxAt s k)) ∧
      ∀ k : Nat, (k ∉ g ∨ (ctxAt s k).state ≠ .held) → ctxAt (g.foldl (fun u j => f j u) s) k = ctxAt s k := by
  induction g generalizing s with
  | nil => simp
  | cons i r ih =>
    obtain ⟨hin, hout⟩ := ih (f i s)
    simp only [List.foldl_cons]
    constructor
    · intro k hk hheld
      by_cases hki : k = i
      · subst hki
        rw [hout k (.inr _), hf.held k s hheld]
        rw [hf.held k s hheld]
        exact hf.left _
      · have hsame := hf.other i k s hki
        rw [← hsame] at hheld ⊢
        exact hin k ((List.mem_cons.mp hk).resolve_left hki) hheld
    · intro k hk
      by_cases hheld : (ctxAt s k).state = .held
      · have hkr : k ∉ i :: r := hk.resolve_right (not_not.mpr hheld)
        obtain ⟨hki, hkr⟩ : k ≠ i ∧ k ∉ r := by simpa using hkr
        rw [hout k (.inl hkr), hf.other i k s hki]
      · have hsame : ctxAt (f i s) k = ctxAt s k := by
          by_cases hki : k = i
          · subst hki
            rw [hf.stays k s hheld]
          · exact hf.other i k s hki
        rw [hout k (.inr (by rwa [hsame])), hsame]

/-- A context at the beginning of its command again. -/
def restarted (c : Ctx) : Ctx :=
  { c with
    state := .running, doing := .none, status := 0, detail := 0, fault := 0, failed := 0, copies := [], recorded := false,
    gangLost := false, polling := false, streams := Vector.replicate 4 {} }

theorem restartCtx_eq (k : Nat) (s : State) : restartCtx k s = modCtx k restarted s := rfl

/-- A held context restarts at its boundary. -/
def restartHeld (k : Nat) (s : State) : State := if (ctxAt s k).state = .held then restartCtx k s else s

theorem restartHeld_unholds : Unholds restartHeld restarted where
  other k j s hjk := by
    unfold restartHeld
    split
    · exact ctxAt_modCtx_ne hjk restarted s
    · rfl
  stays k s hheld := if_neg hheld
  held k s hheld := by
    rw [restartHeld, if_pos hheld]
    exact ctxAt_modCtx_same k restarted s
  left c := by simp [restarted]

/-- A context out of the echo: at the beginning of its command, or idle without one. -/
def outOfEcho (c : Ctx) : Ctx := if c.cons = c.prod then { restarted c with state := .idle } else restarted c

theorem ctxAt_releaseHeld {k : Nat} {s : State} (hheld : (ctxAt s k).state = .held) : ctxAt (releaseHeld k s) k = outOfEcho (ctxAt s k) := by
  have hrestarted : ctxAt (restartCtx k s) k = restarted (ctxAt s k) := ctxAt_modCtx_same k restarted s
  have hring : ((restarted (ctxAt s k)).cons = (restarted (ctxAt s k)).prod) = ((ctxAt s k).cons = (ctxAt s k).prod) := rfl
  simp only [releaseHeld, if_pos hheld, hrestarted, hring, outOfEcho]
  split
  · rw [ctxAt_modCtx_same, hrestarted]
  · exact hrestarted

theorem releaseHeld_unholds : Unholds releaseHeld outOfEcho where
  other k j s hjk := by
    have hrestarted : ctxAt (restartCtx k s) j = ctxAt s j := ctxAt_modCtx_ne hjk restarted s
    unfold releaseHeld
    dsimp only
    split_ifs
    · rw [ctxAt_modCtx_ne hjk, hrestarted]
    · exact hrestarted
    · rfl
  stays k s hheld := if_neg hheld
  held k s hheld := ctxAt_releaseHeld hheld
  left c := by
    unfold outOfEcho
    split <;> simp [restarted]

/-! ### The echo -/

theorem settleReplay_idle {s : State} (h : s.lantern.current = none) : settleReplay s = s := by
  simp only [settleReplay, h]

/-- A replay goes on while no context of the suspect has faulted and one of them still has its command. -/
theorem settleReplay_running {s : State} {g : List Nat} (h : s.lantern.current = some g)
    (hfault : g.all (fun k => (ctxAt s k).state != .faulted) = true)
    (hruns : g.any (fun k => (ctxAt s k).state != .held && (ctxAt s k).state != .free && (ctxAt s k).state != .aborting) = true) :
    settleReplay s = s := by
  have hnone : g.find? (fun k => (ctxAt s k).state == .faulted) = none := by
    rw [List.find?_eq_none]
    intro k hk
    simpa using List.all_eq_true.mp hfault k hk
  have hnot : ¬g.all (fun k => (ctxAt s k).state == .held || (ctxAt s k).state == .free || (ctxAt s k).state == .aborting) = true := by
    obtain ⟨k, hk, hother⟩ := List.any_eq_true.mp hruns
    intro hall
    have hends := List.all_eq_true.mp hall k hk
    simp only [Bool.and_eq_true, bne_iff_ne, ne_eq, Bool.or_eq_true, beq_iff_eq] at hother hends
    tauto
  simp only [settleReplay, h, hnone, if_neg hnot]

/-- The replay of a suspect begins. -/
def beginReplay (g : List Nat) (s : State) : State :=
  bump 0x7101 0x14 (modLantern (fun l => { l with
    current := some g, watches := l.watches.filter (fun w => !(pathCtxs w.nodes).any (fun k => g.contains k)) }) s)

theorem echoReplay_next {s : State} {g : List Nat} (h : s.lantern.current = none)
    (hnext : s.lantern.suspects.find? (fun g => !s.lantern.findings.any (fun f => f.1 == g)) = some g) :
    echoReplay s = g.foldl (fun u k => restartHeld k u) (beginReplay g s) := by
  have hcurrent : ¬s.lantern.current.isSome = true := by simp [h]
  unfold echoReplay
  dsimp only
  rw [settleReplay_idle h, if_neg hcurrent, hnext]
  rfl

theorem foldl_restartHeld_only (g : List Nat) (s : State) : Only [.cmp] s (g.foldl (fun u k => restartHeld k u) s) := by
  induction g generalizing s with
  | nil => exact Only.refl _ s
  | cons k r ih =>
    refine Only.trans ?_ (ih (restartHeld k s))
    exact Only.ite (restartCtx_parts k (List.Subset.refl _) (Only.refl _ s)) (Only.refl _ s)

theorem foldl_releaseHeld_only (g : List Nat) (s : State) : Only [.cmp] s (g.foldl (fun u k => releaseHeld k u) s) := by
  induction g generalizing s with
  | nil => exact Only.refl _ s
  | cons k r ih => exact (releaseHeld_parts k (List.Subset.refl _) (Only.refl _ s)).trans (ih (releaseHeld k s))

theorem odGet_bump_room {index sub : Nat} {s : State} (h : odGet s index sub < 2 ^ 31) :
    odGet (bump index sub s) index sub = odGet s index sub + 1 := by
  rw [odGet_bump_same]
  omega

theorem echoReplay_replays {s : State} {g : List Nat} (h : s.lantern.current = none)
    (hnext : s.lantern.suspects.find? (fun g => !s.lantern.findings.any (fun f => f.1 == g)) = some g) (hroom : odGet s 0x7101 0x14 < 2 ^ 31) :
    ∃ t : State, exec .echoReplay s = .next t ∧ t.lantern.current = some g ∧ t.lantern.suspects = s.lantern.suspects ∧
      t.lantern.findings = s.lantern.findings ∧ odGet t 0x7101 0x14 = odGet s 0x7101 0x14 + 1 ∧ Only [.cmp, .lantern, .dict] s t ∧
      (∀ k ∈ g, (ctxAt s k).state = .held → (ctxAt t k).state = .running ∧ (ctxAt t k).doing = .none ∧ (ctxAt t k).cons = (ctxAt s k).cons ∧
        (ctxAt t k).prod = (ctxAt s k).prod ∧ (ctxAt t k).copies = []) ∧
      (∀ k : Nat, (k ∉ g ∨ (ctxAt s k).state ≠ .held) → ctxAt t k = ctxAt s k) := by
  have honly := foldl_restartHeld_only g (beginReplay g s)
  have hlantern := honly .lantern (by decide)
  have hdict := honly .dict (by decide)
  obtain ⟨hheld, hothers⟩ := restartHeld_unholds.foldl g (beginReplay g s)
  rw [exec_echoReplay, echoReplay_next h hnext]
  refine ⟨_, rfl, ?_, ?_, ?_, ?_, ?_, fun k hk hstate => ?_, hothers⟩
  · rw [hlantern]; rfl
  · rw [hlantern]; rfl
  · rw [hlantern]; rfl
  · rw [odGet_congr (congrArg Dict.od hdict)]
    exact odGet_bump_room hroom
  · have hbegin : Only [.cmp, .lantern, .dict] s (beginReplay g s) :=
      bump_parts _ _ (by decide) (modLantern_parts _ (by decide) (Only.refl _ s))
    exact hbegin.trans (honly.mono (by decide))
  · rw [hheld k hk hstate]
    exact ⟨rfl, rfl, rfl, rfl, rfl⟩

theorem echoTimeout_idle {s : State} (h : s.lantern.current = none) : echoTimeout s = s := by
  simp only [echoTimeout, settleReplay_idle h, h]

theorem echoReplay_done {s : State} (h : s.lantern.current = none)
    (hdone : s.lantern.suspects.find? (fun g => !s.lantern.findings.any (fun f => f.1 == g)) = none) : echoReplay s = s := by
  have hcurrent : ¬s.lantern.current.isSome = true := by simp [h]
  unfold echoReplay
  dsimp only
  rw [settleReplay_idle h, if_neg hcurrent, hdone]

/-- The suspect under replay is found inconclusive. -/
def foundOpen (g : List Nat) (s : State) : State :=
  modLantern (fun l => { l with findings := l.findings ++ [(g, .inconclusive)], current := none }) (bump 0x7101 0x16 s)

theorem foundOpen_only (g : List Nat) (s : State) : Only [.lantern, .dict] s (foundOpen g s) :=
  modLantern_parts _ (by decide) (bump_parts _ _ (by decide) (Only.refl _ s))

theorem findSuspect_inconclusive (g : List Nat) (s : State) : findSuspect g .inconclusive s = concludeEcho (foundOpen g s) := rfl

theorem concludeEcho_waits {s : State} (h : s.lantern.findings.length < s.lantern.suspects.length) : concludeEcho s = s := by
  unfold concludeEcho
  exact if_pos (.inr h)

/-- The echo's end. -/
def endEcho (l : Lantern) : Lantern := { l with suspects := [], findings := [], current := none, waiting := l.waiting.drop 1 }

/-- The only suspect was inconclusive, and no hang waits. -/
theorem concludeEcho_transient {s : State} {g : List Nat} (hsuspects : s.lantern.suspects = [g])
    (hfindings : s.lantern.findings = [(g, .inconclusive)]) (hwaiting : s.lantern.waiting = []) :
    concludeEcho s = modLantern endEcho (bump 0x7101 0x17 (log 0x7111 [1, 0, 1] (g.foldl (fun u k => releaseHeld k u) s))) := by
  unfold concludeEcho
  simp only [hsuspects, hfindings, hwaiting]
  rfl

/-- The suspect is the only one, and none is found guilty: the hang was transient. -/
theorem echoTimeout_transient {s : State} {g : List Nat} (hsuspects : s.lantern.suspects = [g]) (hfindings : s.lantern.findings = [])
    (hwaiting : s.lantern.waiting = []) (hroom : odGet s 0x7101 0x17 < 2 ^ 31) :
    ∃ t : State, findSuspect g .inconclusive s = t ∧ t.lantern = { s.lantern with suspects := [], findings := [], current := none } ∧
      odGet t 0x7101 0x17 = odGet s 0x7101 0x17 + 1 ∧
      (∀ k ∈ g, (ctxAt s k).state = .held → (ctxAt t k).state = if (ctxAt s k).cons = (ctxAt s k).prod then .idle else .running) ∧
      (∀ k : Nat, (k ∉ g ∨ (ctxAt s k).state ≠ .held) → ctxAt t k = ctxAt s k) := by
  have hfound : (foundOpen g s).lantern.findings = [(g, .inconclusive)] := by simp [foundOpen, hfindings]
  have hreleased := foldl_releaseHeld_only g (foundOpen g s)
  have hlogged := logEvent_only 0x7111 [1, 0, 1] (g.foldl (fun u k => releaseHeld k u) (foundOpen g s))
  have hctx : ∀ k, ctxAt (log 0x7111 [1, 0, 1] (g.foldl (fun u k => releaseHeld k u) (foundOpen g s))) k =
      ctxAt (g.foldl (fun u k => releaseHeld k u) (foundOpen g s)) k := ctxAt_of_cmp (hlogged .cmp (by decide))
  have hlantern := (hlogged .lantern (by decide)).trans (hreleased .lantern (by decide))
  obtain ⟨hheld, hothers⟩ := releaseHeld_unholds.foldl g (foundOpen g s)
  rw [findSuspect_inconclusive, concludeEcho_transient (s := foundOpen g s) hsuspects hfound hwaiting]
  refine ⟨_, rfl, ?_, ?_, fun k hk hstate => ?_, fun k hk => (hctx k).trans (hothers k hk)⟩
  · rw [modLantern_lantern, bump_lantern, hlantern]
    simp only [endEcho, foundOpen, modLantern_lantern, bump_lantern, hwaiting, List.drop_nil]
  · have hvalue : odGet (log 0x7111 [1, 0, 1] (g.foldl (fun u k => releaseHeld k u) (foundOpen g s))) 0x7101 0x17 = odGet s 0x7101 0x17 := by
      rw [odGet_log (by decide) (by decide), odGet_congr (congrArg Dict.od (hreleased .dict (by decide)))]
      exact odGet_bump_ne 0x7101 0x16 0x7101 0x17 s (by decide)
    have hbump := odGet_bump_room (index := 0x7101) (sub := 0x17) (hvalue.symm ▸ hroom)
    rw [hvalue] at hbump
    exact hbump
  · have hstate' : (ctxAt (g.foldl (fun u k => releaseHeld k u) (foundOpen g s)) k).state = (outOfEcho (ctxAt s k)).state :=
      congrArg Ctx.state (hheld k hk hstate)
    refine (congrArg Ctx.state (hctx k)).trans (hstate'.trans ?_)
    unfold outOfEcho
    split <;> rfl

/-! ### Samples of the lantern -/

/-- A shape as it is watched from now on: its progress, and how often in a row it stood without any. -/
def watchOf (u : State) (h : HangKind × List Node) : Watch where
  nodes := h.2
  progress := h.2.map (progressOf u)
  times := match u.lantern.watches.find? (fun w => w.nodes == h.2 && w.progress == h.2.map (progressOf u)) with
    | some w => w.times + 1
    | none => 1

theorem watchOf_times (u : State) (h : HangKind × List Node) : (watchOf u h).times =
    (u.lantern.watches.find? (fun w => w.nodes == h.2 && w.progress == h.2.map (progressOf u))).elim 1 (fun w => w.times + 1) := by
  unfold watchOf
  dsimp only
  split
  · next hfound => rw [hfound]; rfl
  · next hnone => rw [hnone]; rfl

theorem lanternSample_off {s : State} (h : odGet s 0x7101 1 = 0) : lanternSample s = modLantern (fun l => { l with watches := [] }) s :=
  if_pos h

/-- The watches of a sample. -/
def watchAnew (u : State) : State := modLantern (fun l => { l with watches := (hangShapes u).map (watchOf u) }) u

/-- The watches of a sample are kept, and the shapes seen a fourth time are declared. -/
theorem lanternSample_on {s u : State} (hon : odGet s 0x7101 1 ≠ 0) (hu : u = advanceTo (backgroundTick s 16384 16383) s)
    (hcurrent : s.lantern.current = none) : lanternSample s =
      (((hangShapes u).map (fun h => (h, watchOf u h))).filter (fun x => x.2.times == 4)).foldl (fun v x => declareHang x.1 v) (watchAnew u) := by
  have hsettled : settleReplay u = u := settleReplay_idle (by rw [hu]; exact hcurrent)
  have hwatches : watchAnew u = modLantern (fun l => { l with
      watches := ((hangShapes u).map (fun h => (h, watchOf u h))).map (fun x => x.2) }) u := by
    rw [List.map_map]
    rfl
  rw [hwatches]
  unfold lanternSample
  rw [if_neg hon, ← hu, hsettled]
  rfl

theorem sampleTick_only (s : State) : Only [.time] s (advanceTo (backgroundTick s 16384 16383) s) :=
  advanceTo_parts _ (List.Subset.refl _) (Only.refl _ s)

/-- A stuck port of which no context is waiting is only counted and logged. -/
theorem declareHang_stuckPort {s : State} (hcurrent : s.lantern.current = none) (p v : Nat) :
    declareHang (.stuckPort, [.credit p v, .partner p v]) s = log 0x7112 [p, v] (bump 0x7101 0x12 s) := by
  unfold declareHang
  simp only [hcurrent]
  rfl

theorem lanternSample_watches {s u : State} (hon : odGet s 0x7101 1 ≠ 0) (hu : u = advanceTo (backgroundTick s 16384 16383) s)
    (hcurrent : s.lantern.current = none) (hnone : ((hangShapes u).map (watchOf u)).all (fun w => w.times != 4) = true) :
    lanternSample s = watchAnew u := by
  have hfourth : ((hangShapes u).map (fun h => (h, watchOf u h))).filter (fun x => x.2.times == 4) = [] := by
    rw [List.filter_eq_nil_iff]
    simp only [List.all_map, List.all_eq_true, List.forall_mem_map] at hnone ⊢
    intro h hmem
    simpa using hnone h hmem
  rw [lanternSample_on hon hu hcurrent, hfourth]
  rfl

theorem lanternSample_declares {s u : State} (hon : odGet s 0x7101 1 ≠ 0) (hu : u = advanceTo (backgroundTick s 16384 16383) s)
    (hcurrent : s.lantern.current = none) {p v : Nat} (hshapes : hangShapes u = [(.stuckPort, [.credit p v, .partner p v])])
    (hfour : ((hangShapes u).map (watchOf u)).all (fun w => w.times == 4) = true) :
    lanternSample s = log 0x7112 [p, v] (bump 0x7101 0x12 (watchAnew u)) := by
  have hidle : u.lantern.current = none := by rw [hu]; exact hcurrent
  have htimes : (watchOf u (.stuckPort, [.credit p v, .partner p v])).times = 4 := by
    simpa [hshapes] using hfour
  rw [lanternSample_on hon hu hcurrent, ← declareHang_stuckPort (by exact hidle)]
  simp [hshapes, htimes]

/-- Settles O55: the log, the lantern's samples and the echo, each by its own lemma. -/
theorem logLanternAndEcho : Obligations.LogLanternAndEcho := by
  unfold Obligations.LogLanternAndEcho
  intro s
  refine ⟨exec_logFlush_newest s, fun src v => exec_eventAcknowledge_closes src v s, ?off, ?on, ?idle, ?replaying⟩
  case off =>
    intro hoff
    rw [exec_lanternSample, lanternSample_off hoff]
    exact ⟨_, rfl, rfl, rfl⟩
  case on =>
    intro hon hcurrent u hu seen hseen
    have hadvanced : Only [.time] s u := hu ▸ sampleTick_only s
    have hlantern : u.lantern = s.lantern := hadvanced .lantern (by decide)
    have hwatched : seen = (hangShapes u).map (watchOf u) := by
      rw [hseen, ← hlantern]
      exact List.map_congr_left fun h _ => by rw [← watchOf_times]; rfl
    subst hwatched
    rw [exec_lanternSample]
    refine ⟨fun hnone => ⟨_, rfl, ?_⟩, fun p v hshapes hfour hroom => ⟨_, rfl, ?_⟩⟩
    · rw [lanternSample_watches hon hu hcurrent hnone]
      refine ⟨?_, ?_, modLantern_parts _ (by decide) (hadvanced.mono (by decide))⟩
      · rw [watchAnew, modLantern_lantern, hlantern]
      · rw [watchAnew, modLantern_time, hu, advanceTo_time, advanceTime_ft]
    · rw [lanternSample_declares hon hu hcurrent hshapes hfour]
      have hod : odGet u 0x7101 0x12 = odGet s 0x7101 0x12 := odGet_congr (congrArg Dict.od (hadvanced .dict (by decide))) _ _
      refine ⟨?_, ?_, ?_⟩
      · rw [odGet_log (by decide) (by decide)]
        have hbump := odGet_bump_room (index := 0x7101) (sub := 0x12) (s := watchAnew u) (by rw [← hod] at hroom; exact hroom)
        rw [hbump, ← hod]
        rfl
      · rw [logEvent_only _ _ _ .lantern (by decide)]
        rfl
      · have hwatched : Only [.time, .lantern, .dict] s (bump 0x7101 0x12 (watchAnew u)) :=
          bump_parts _ _ (by decide) (modLantern_parts _ (by decide) (hadvanced.mono (by decide)))
        exact (hwatched.mono (by decide)).trans ((logEvent_only _ _ _).mono (by decide))
  case idle =>
    intro hcurrent
    refine ⟨?_, fun hdone => ?_, fun g hnext hroom => echoReplay_replays hcurrent hnext hroom⟩
    · rw [exec_echoReplayTimeout, echoTimeout_idle hcurrent]
    · rw [exec_echoReplay, echoReplay_done hcurrent hdone]
  case replaying =>
    intro g hcurrent hfault hruns
    have hsettled := settleReplay_running hcurrent hfault hruns
    have htimeout : echoTimeout s = findSuspect g .inconclusive s := by
      simp only [echoTimeout, hsettled, hcurrent]
    rw [exec_echoReplayTimeout, htimeout]
    refine ⟨?_, fun hmore hroom => ⟨_, rfl, ?_⟩, fun hsuspects hfindings hwaiting hroom => ?_⟩
    · rw [exec_echoReplay, echoReplay, hsettled]
      simp [hcurrent]
    · have hwaits : concludeEcho (foundOpen g s) = foundOpen g s := concludeEcho_waits (by simpa [foundOpen] using hmore)
      rw [findSuspect_inconclusive, hwaits]
      exact ⟨rfl, odGet_bump_room hroom, foundOpen_only g s .cmp (by decide)⟩
    · obtain ⟨t, ht, hrest⟩ := echoTimeout_transient hsuspects hfindings hwaiting hroom
      exact ⟨t, congrArg Host.Outcome.next ht, hrest⟩

end Sys2Proof.Machine
end

section
/-! SUPPORT. Keying of a global link: the message that is taken off, the message that is sent, and the port's keying after each
command (R433–R438). -/

namespace Sys2Proof.Machine

open Sys2Proof

theorem exec_keyOffer (p : PortN) (o : KeyOffer) (s : State) : exec (.keyOffer p o) s = .next (keyOfferReceive p o s) := rfl

theorem exec_keyProof (p : PortN) (b : Bytes) (s : State) : exec (.keyProof p b) s = .next (keyProofReceive p b s) := rfl

theorem exec_keyStart (p : PortN) (n : Bytes) (start : Nat) (s : State) :
    exec (.keyStart p n start) s = .next (keyStartReceive p n start s) := rfl

theorem exec_keyAck (p : PortN) (n : Bytes) (start : Nat) (s : State) : exec (.keyAck p n start) s = .next (keyAckReceive p n start s) := rfl

theorem exec_keyMessageResend (p : PortN) (s : State) : exec (.keyMessageResend p) s = .next (keyResend p s) := rfl

theorem exec_keyHandshakeRetry (p : PortN) (s : State) : exec (.keyHandshakeRetry p) s = .next (keyRetry p s) := rfl

theorem exec_keyRenewal (p : PortN) (s : State) : exec (.keyRenewal p) s = .next (startKey p s) := rfl

theorem exec_keySwitch (p : PortN) (s : State) : exec (.keySwitch p) s = .next (keySwitch p s) := rfl

theorem modKey_atPort (p : PortN) (f : Keying → Keying) (s : State) : AtPort p [] s (modKey p f s) := modPort_atPort p _ s

@[simp] theorem port_modKey_same (p : PortN) (f : Keying → Keying) (s : State) :
    (modKey p f s).port p = { s.port p with key := f (s.port p).key } := port_modPort_same p _ s

theorem odGet_of_only {l : List Part} {s t : State} (h : Only l s t) (hdict : Part.dict ∉ l) (index sub : Nat) :
    odGet t index sub = odGet s index sub := odGet_congr (congrArg Dict.od (h .dict hdict)) index sub

/-! ### The message taken off -/

/-- Of a port only the cells taken have changed. -/
structure TakenOff (p : PortN) (s t : State) : Prop where
  atPort : AtPort p [] s t
  port : t.port p = { s.port p with taken := (t.port p).taken }

theorem takeMus_takenOff (p : PortN) (sub : Nat) (s : State) : TakenOff p s (takeMus p sub s) := by
  unfold takeMus
  split
  · exact ⟨modPort_atPort p _ s, by rw [takeFrom, port_modPort_same]⟩
  · exact ⟨AtPort.refl p [] s, rfl⟩

theorem TakenOff.key {p : PortN} {s t : State} (h : TakenOff p s t) : (t.port p).key = (s.port p).key := by
  rw [h.port]

theorem TakenOff.idDigest {p : PortN} {s t : State} (h : TakenOff p s t) : (t.port p).idDigest = (s.port p).idDigest := by
  rw [h.port]

theorem TakenOff.odGet {p : PortN} {s t : State} (h : TakenOff p s t) (index sub : Nat) : odGet t index sub = odGet s index sub :=
  odGet_of_only h.atPort.2 (by simp) index sub

theorem TakenOff.canKey {p : PortN} {s t : State} (h : TakenOff p s t) : canKey t p = canKey s p := by
  have hsec : t.sec = s.sec := h.atPort.2 .sec (by simp)
  simp only [Machine.canKey, role, assigned, h.odGet, hsec]
  rw [h.port]

theorem TakenOff.partnerRefusal {p : PortN} {s t : State} (h : TakenOff p s t) (o : KeyOffer) :
    partnerRefusal t o = partnerRefusal s o := by
  have hdict : t.dict = s.dict := h.atPort.2 .dict (by simp)
  unfold Machine.partnerRefusal blobGet
  rw [hdict]

theorem TakenOff.free {p : PortN} {s t : State} (h : TakenOff p s t) : t.free = s.free := h.atPort.2 .free (by simp)

/-! ### The message sent -/

/-- What a keying message leaves: other ports, the keying of this one, and every entry but the count of cells sent. -/
structure KeySent (p : PortN) (s t : State) : Prop where
  atPort : AtPort p [.sw, .dict, .sent] s t
  key : (t.port p).key = (s.port p).key
  entries : OnlyEntries [(portIndex p 7, 1)] s t

theorem KeySent.trans {p : PortN} {s t u : State} (h : KeySent p s t) (g : KeySent p t u) : KeySent p s u :=
  ⟨h.atPort.trans g.atPort, g.key.trans h.key, h.entries.trans g.entries⟩

theorem sendMus_keySent (sub aux : Nat) (payload : Bytes) (p : PortN) (s : State) : KeySent p s (sendMus sub aux payload p s) := by
  unfold sendMus
  dsimp only
  split
  · refine ⟨(issueCell_atPort p _ s).mono (by simp), ?_, issueCell_entries p _ s⟩
    rw [issueCell_port]
    rfl
  · have honly := enqueue_departure_only 24 p.val 0 (musCell s p sub aux payload) s
    refine ⟨(honly.atPort (by decide)).mono (by simp), ?_, (honly.entries (by decide)).mono (by simp)⟩
    rw [honly.port (by decide) p]

theorem sendFragments_keySent (p : PortN) (sub : Nat) (g : Nat → Nat) (h : Nat → Bytes) (l : List Nat) (s : State) :
    KeySent p s (l.foldl (fun u i => sendMus sub (g i) (h i) p u) s) := by
  induction l generalizing s with
  | nil => exact ⟨AtPort.refl p _ s, rfl, OnlyEntries.refl _ s⟩
  | cons i r ih => exact (sendMus_keySent sub (g i) (h i) p s).trans (ih _)

/-- A keying message sent: the keying counts it, whatever its length. -/
structure KeyingSent (p : PortN) (s t : State) : Prop where
  atPort : AtPort p [.sw, .dict, .sent] s t
  key : (t.port p).key = { (s.port p).key with msgNo := (s.port p).key.msgNo + 1 }
  entries : OnlyEntries [(portIndex p 7, 1)] s t

theorem sendKeying_sent (p : PortN) (sub : Nat) (data : Bytes) (s : State) : KeyingSent p s (sendKeying p sub data s) := by
  unfold sendKeying
  extract_lets n no sent
  have hsent : KeySent p s sent := sendFragments_keySent p sub _ _ _ s
  refine ⟨hsent.atPort.trans ((modKey_atPort p _ sent).mono (by simp)), ?_, hsent.entries⟩
  rw [port_modKey_same, hsent.key]

/-- The counters of a port's keying are none that a message counts in. -/
theorem keyCounter_kept {p : PortN} {s t : State} (h : OnlyEntries [(portIndex p 7, 1)] s t) {j : Nat} (hj : j < 256) :
    odGet t (0x6040 + p.val) j = odGet s (0x6040 + p.val) j := by
  have hp := p.isLt
  apply h _ _ hj
  simp only [portIndex, List.mem_singleton, Prod.mk.injEq]
  omega

/-! ### The handshake (R435) -/

/-- The offer is kept and its proof owed. -/
def offerKept (o : KeyOffer) (k : Keying) : Keying := { k with theirOffer := some o, proofSent := true, resends := 0 }

theorem keyOfferReceive_accepts {p : PortN} {o m : KeyOffer} {s : State} (hcan : canKey s p = true)
    (hmine : (s.port p).key.myOffer = some m) (hid : leNat (idBytes o.publicKey) = (s.port p).idDigest.toNat)
    (hpermitted : partnerRefusal s o = 0) : keyOfferReceive p o s =
      sendKeying p 0x0D (Config.rsaSign (proofText m o)) (modKey p (offerKept o) (takeMus p 0x0C s)) := by
  have hu := takeMus_takenOff p 0x0C s
  have hopen : ¬canKey (takeMus p 0x0C s) p = false := by simp [hu.canKey, hcan]
  have hoffered : ((takeMus p 0x0C s).port p).key.myOffer.isSome = true := by simp [hu.key, hmine]
  unfold keyOfferReceive
  dsimp only
  rw [if_neg hopen, if_pos hoffered, hu.idDigest, hu.partnerRefusal, if_neg (not_not.mpr hid), if_neg (not_not.mpr hpermitted),
    port_modKey_same, hu.key]
  simp only [hmine]
  rfl

theorem keyOfferReceive_refuses {p : PortN} {o : KeyOffer} {s : State} {stage : Nat} (hcan : canKey s p = true)
    (hmine : (s.port p).key.myOffer.isSome = true)
    (hstage : stage = if leNat (idBytes o.publicKey) ≠ (s.port p).idDigest.toNat then 6 else partnerRefusal s o) (hne : stage ≠ 0) :
    keyOfferReceive p o s = failKeying p stage (takeMus p 0x0C s) := by
  have hu := takeMus_takenOff p 0x0C s
  have hopen : ¬canKey (takeMus p 0x0C s) p = false := by simp [hu.canKey, hcan]
  have hoffered : ((takeMus p 0x0C s).port p).key.myOffer.isSome = true := by rw [hu.key]; exact hmine
  unfold keyOfferReceive
  dsimp only
  rw [if_neg hopen, if_pos hoffered, hu.idDigest, hu.partnerRefusal, hstage]
  rw [hstage] at hne
  by_cases hid : leNat (idBytes o.publicKey) ≠ (s.port p).idDigest.toNat
  · rw [if_pos hid, if_pos hid]
  · rw [if_neg hid] at hne ⊢
    rw [if_neg hid, if_pos hne]

/-- The keying of a port whose handshake has failed. -/
def failed (stage : Nat) (k : Keying) : Keying :=
  { k with fault := stage, myOffer := none, theirOffer := none, proofSent := false, resends := 0 }

/-- A failure touches this port's keying, and is counted once. -/
theorem failKeying_fails (p : PortN) (stage : Nat) (s : State) : OnlyPort p s (failKeying p stage s) ∧
    ((failKeying p stage s).port p).key = failed stage (s.port p).key ∧
    (odGet s (0x6040 + p.val) (if stage = 6 then 5 else 6) < 2 ^ 31 →
      odGet (failKeying p stage s) (0x6040 + p.val) (if stage = 6 then 5 else 6) = odGet s (0x6040 + p.val) (if stage = 6 then 5 else 6) + 1) := by
  have hsub : (if stage = 6 then 5 else 6) < 256 := by split <;> decide
  have hcounter : (0x6040 + p.val, if stage = 6 then 5 else 6) ∉ eventEntries := by
    simp only [eventEntries, List.mem_cons, List.not_mem_nil, or_false, Prod.mk.injEq]
    omega
  have hfail : failKeying p stage s = log 0x6002 [p.val, stage] (bump (0x6040 + p.val) (if stage = 6 then 5 else 6)
    (modKey p (failed stage) s)) := rfl
  rw [hfail]
  refine ⟨?_, ?_, fun hroom => ?_⟩
  · exact (modKey_atPort p _ s).1.trans (((bump_only _ _ _).onlyPort (by decide) p).trans ((logEvent_only _ _ _).onlyPort (by decide) p))
  · rw [log_port, (bump_only _ _ _).port (by decide) p, port_modKey_same]
  · rw [odGet_log hsub hcounter]
    exact odGet_bump_room (s := modKey p (failed stage) s) hroom

/-- The keying with the secret of two offers. -/
def secretFormed (m o : KeyOffer) (d : BitVec 128) (k : Keying) : Keying :=
  { k with ms := some (masterSecret k.label m o, d), fault := 0, resends := 0 }

theorem keyProofReceive_judged {p : PortN} {m o : KeyOffer} {s : State} (signature : Bytes) (hcan : canKey s p = true)
    (hmine : (s.port p).key.myOffer = some m) (htheirs : (s.port p).key.theirOffer = some o) (hms : (s.port p).key.ms = none) :
    keyProofReceive p signature s = if Config.rsaVerify (Config.sha512 o.publicKey) (proofText o m) signature
      then modKey p (secretFormed m o (s.port p).idDigest) (takeMus p 0x0D s) else failKeying p 6 (takeMus p 0x0D s) := by
  have hu := takeMus_takenOff p 0x0D s
  have hopen : ¬(canKey (takeMus p 0x0D s) p = false ∨ (s.port p).key.ms.isSome = true) := by simp [hu.canKey, hcan, hms]
  unfold keyProofReceive
  simp only [hu.key, hmine, htheirs, if_neg hopen, hu.idDigest]
  rfl

/-! ### Keys (R436) -/

/-- A key started, waiting for its acknowledgement. -/
def keyStarted (n : Bytes) (start : Nat) (k : Keying) : Keying := { k with txPend := some (n, start, none), resends := 0 }

theorem startKey_starts {p : PortN} {s : State} (hcan : canKey s p = true) (hms : (s.port p).key.ms.isSome = true) :
    startKey p s = sendKeying p 0x0E (startBytes (Config.randomBytes s.free 16) (superframeNow s p + 8)) (bump (0x6040 + p.val) 3
      (drawn (modKey p (keyStarted (Config.randomBytes s.free 16) (superframeNow s p + 8)) s))) := if_pos ⟨hcan, hms⟩

/-- The start of a key: this port's keying, and the count of starts; other counters of its keying stay. -/
theorem startKey_leaves {p : PortN} {s : State} (hcan : canKey s p = true) (hms : (s.port p).key.ms.isSome = true) :
    AtPort p [.sw, .dict, .sent, .free] s (startKey p s) ∧
      ((startKey p s).port p).key = { (s.port p).key with txPend := some (Config.randomBytes s.free 16, superframeNow s p + 8, none), resends := 0, msgNo := (s.port p).key.msgNo + 1 } ∧
      (odGet s (0x6040 + p.val) 3 < 2 ^ 31 → odGet (startKey p s) (0x6040 + p.val) 3 = odGet s (0x6040 + p.val) 3 + 1) ∧
      odGet (startKey p s) (0x6040 + p.val) 4 = odGet s (0x6040 + p.val) 4 := by
  rw [startKey_starts hcan hms]
  generalize hn : Config.randomBytes s.free 16 = n
  generalize superframeNow s p + 8 = start
  have hsent := sendKeying_sent p 0x0E (startBytes n start) (bump (0x6040 + p.val) 3 (drawn (modKey p (keyStarted n start) s)))
  refine ⟨?_, ?_, fun hroom => ?_, ?_⟩
  · refine AtPort.trans ?_ (hsent.atPort.mono (by simp))
    refine ((modKey_atPort p (keyStarted n start) s).mono (by simp)).trans ?_
    exact (bump_parts (pl := [.sw, .dict, .sent, .free]) _ _ (by decide) (drawn_parts (by decide) (Only.refl _ _))).atPort (by decide)
  · rw [hsent.key, (bump_only _ _ _).port (by decide) p]
    have hdrawn : (drawn (modKey p (keyStarted n start) s)).port p = (modKey p (keyStarted n start) s).port p := rfl
    rw [hdrawn, port_modKey_same]
    rfl
  · rw [keyCounter_kept hsent.entries (by decide)]
    exact odGet_bump_room (s := drawn (modKey p (keyStarted n start) s)) hroom
  · rw [keyCounter_kept hsent.entries (by decide), odGet_bump_ne]
    · rfl
    · rw [Ne, odKey_inj (by decide) (by decide)]
      simp

/-- The partner's key, derived and kept. -/
def keyReceived (key : Bytes) (start : Nat) (k : Keying) : Keying := { k with rxPend := some (key, start) }

theorem keyStartReceive_answers {p : PortN} {s : State} {ms : Bytes} {d : BitVec 128} (hcan : canKey s p = true)
    (hms : (s.port p).key.ms = some (ms, d)) (n : Bytes) (start : Nat) : keyStartReceive p n start s =
      sendKeying p 0x0F (startBytes (Config.randomBytes s.free 16) start) (drawn (modKey p
        (keyReceived (deriveKey ms (s.port p).idDigest ownDigest (slice n 0 16) (Config.randomBytes s.free 16) start) start) (takeMus p 0x0E s))) := by
  have hu := takeMus_takenOff p 0x0E s
  have hopen : ¬canKey (takeMus p 0x0E s) p = false := by simp [hu.canKey, hcan]
  unfold keyStartReceive
  simp only [hu.key, hms, if_neg hopen, hu.idDigest, hu.free]
  rfl

theorem keyStart_leaves {p : PortN} {s : State} {ms : Bytes} {d : BitVec 128} (hcan : canKey s p = true)
    (hms : (s.port p).key.ms = some (ms, d)) (n : Bytes) (start : Nat) : OnlyPort p s (keyStartReceive p n start s) ∧
      ((keyStartReceive p n start s).port p).key = { (s.port p).key with
        rxPend := some (deriveKey ms (s.port p).idDigest ownDigest (slice n 0 16) (Config.randomBytes s.free 16) start, start),
        msgNo := (s.port p).key.msgNo + 1 } := by
  have hu := takeMus_takenOff p 0x0E s
  rw [keyStartReceive_answers hcan hms]
  generalize deriveKey ms (s.port p).idDigest ownDigest (slice n 0 16) (Config.randomBytes s.free 16) start = key
  have hsent := sendKeying_sent p 0x0F (startBytes (Config.randomBytes s.free 16) start) (drawn (modKey p (keyReceived key start) (takeMus p 0x0E s)))
  have hdrawn : (drawn (modKey p (keyReceived key start) (takeMus p 0x0E s))).port p = (modKey p (keyReceived key start) (takeMus p 0x0E s)).port p := rfl
  constructor
  · exact (hu.atPort.1.trans (modKey_atPort p (keyReceived key start) _).1).trans hsent.atPort.1
  · rw [hsent.key, hdrawn, port_modKey_same, ← hu.key]
    rfl

/-- The own offer of a handshake. -/
def freshOffer (s : State) : KeyOffer where
  publicKey := Config.identityKey
  y := Config.dhPublic (s.free + 1)
  r := Config.randomBytes s.free 32
  firmware := firmwareDigest s

/-- The keying of a handshake begun afresh. -/
def begunAfresh (o : KeyOffer) (label : Nat) (k : Keying) : Keying :=
  { k with fault := 0, ms := none, myOffer := some o, theirOffer := none, label := label, proofSent := false, resends := 0 }

theorem startHandshake_eq (p : PortN) (s : State) : startHandshake p s =
    sendKeying p 0x0C (offerBytes (freshOffer s)) (drawn (modKey p (begunAfresh (freshOffer s) (s.free + 1)) s)) := rfl

theorem startHandshake_leaves (p : PortN) (s : State) : OnlyPort p s (startHandshake p s) ∧
    ((startHandshake p s).port p).key =
      { begunAfresh (freshOffer s) (s.free + 1) (s.port p).key with msgNo := (s.port p).key.msgNo + 1 } := by
  rw [startHandshake_eq]
  generalize freshOffer s = o
  have hsent := sendKeying_sent p 0x0C (offerBytes o) (drawn (modKey p (begunAfresh o (s.free + 1)) s))
  have hdrawn : (drawn (modKey p (begunAfresh o (s.free + 1)) s)).port p = (modKey p (begunAfresh o (s.free + 1)) s).port p := rfl
  constructor
  · exact (modKey_atPort p (begunAfresh o (s.free + 1)) s).1.trans hsent.atPort.1
  · rw [hsent.key, hdrawn, port_modKey_same]
    rfl

/-! ### Resends (R435, R438) -/

theorem keyResend_sends {p : PortN} {s : State} {sub : Nat} {data : Bytes} (hcan : canKey s p = true)
    (hmessage : unanswered (s.port p).key = some (sub, data)) : keyResend p s =
      if 8 ≤ (s.port p).key.resends then failKeying p 6 (modKey p (fun k => { k with txPend := none }) s)
      else sendKeying p sub data (modKey p (fun k => { k with resends := k.resends + 1 }) s) := by
  have hopen : ¬canKey s p = false := by simp [hcan]
  unfold keyResend
  simp only [hmessage, if_neg hopen]

/-! ### Acknowledgement and switch (R436) -/

/-- A key acknowledged. -/
def keyAcked (mine : Bytes) (start : Nat) (theirs : Bytes) (k : Keying) : Keying :=
  { k with txPend := some (mine, start, some theirs), resends := 0 }

theorem keyAckReceive_pending {p : PortN} {s : State} {mine : Bytes} {at_ : Nat} (h : (s.port p).key.txPend = some (mine, at_, none))
    (n : Bytes) (start : Nat) : keyAckReceive p n start s =
      if at_ = start then modKey p (keyAcked mine at_ (slice n 0 16)) (takeMus p 0x0F s) else takeMus p 0x0F s := by
  have hu := takeMus_takenOff p 0x0F s
  unfold keyAckReceive
  simp only [hu.key, h]
  rfl

theorem keyAckReceive_other {p : PortN} {s : State} (h : ∀ (mine : Bytes) (at_ : Nat), (s.port p).key.txPend ≠ some (mine, at_, none))
    (n : Bytes) (start : Nat) : keyAckReceive p n start s = takeMus p 0x0F s := by
  have hu := takeMus_takenOff p 0x0F s
  unfold keyAckReceive
  dsimp only
  split
  · next mine at_ hpend =>
    rw [hu.key] at hpend
    exact absurd hpend (h mine at_)
  · rfl

/-- A key in force. -/
def keySwitched (key : Bytes) (k : Keying) : Keying := { k with txKey := some key, txPend := none, age := min 15 (k.age + 1) }

/-- The machine at the superframe of a key start. -/
def atKeyStart (p : PortN) (start : Nat) (s : State) : State := advanceTo ((s.port p).key.since + start * 6425) s

theorem atKeyStart_only (p : PortN) (start : Nat) (s : State) : Only [.time] s (atKeyStart p start s) :=
  advanceTo_parts _ (List.Subset.refl _) (Only.refl _ s)

theorem keySwitch_acked {p : PortN} {s : State} {ms mine theirs : Bytes} {d : BitVec 128} {start : Nat}
    (hms : (s.port p).key.ms = some (ms, d)) (hpend : (s.port p).key.txPend = some (mine, start, some theirs)) :
    OnlyPort p s (keySwitch p s) ∧ (keySwitch p s).time.ft = max s.time.ft ((s.port p).key.since + start * 6425) ∧
      ((keySwitch p s).port p).key = { (s.port p).key with
        txKey := some (deriveKey ms ownDigest (s.port p).idDigest mine theirs start), txPend := none, age := min 15 ((s.port p).key.age + 1) } := by
  have hmoved := atKeyStart_only p start s
  generalize hkey : deriveKey ms ownDigest (s.port p).idDigest mine theirs start = key
  have hswitch : ∃ c : Prop, ∃ _ : Decidable c, keySwitch p s =
      if c then resendCells p (modKey p (keySwitched key) (atKeyStart p start s)) else modKey p (keySwitched key) (atKeyStart p start s) := by
    refine ⟨(s.port p).key.txKey.isNone = true ∧ keysPending (modKey p (keySwitched key) (atKeyStart p start s)) p = false, inferInstance, ?_⟩
    unfold keySwitch
    simp only [hms, hpend]
    rw [← hkey]
    rfl
  obtain ⟨c, hc, heq⟩ := hswitch
  have hresent : Only [.dict, .sent] (modKey p (keySwitched key) (atKeyStart p start s)) (keySwitch p s) := by
    rw [heq]
    exact Only.ite (resendCells_parts p (List.Subset.refl _) (Only.refl _ _)) (Only.refl _ _)
  refine ⟨?_, ?_, ?_⟩
  · exact ((hmoved.onlyPort (by decide) p).trans (modKey_atPort p _ _).1).trans (hresent.onlyPort (by decide) p)
  · rw [hresent .time (by decide)]
    exact advanceTime_ft _ _
  · rw [hresent.port (by decide) p, port_modKey_same, hmoved.port (by decide) p]
    rfl

theorem startKey_atPort (p : PortN) (s : State) : AtPort p [.sw, .dict, .sent, .free] s (startKey p s) := by
  by_cases h : canKey s p = true ∧ (s.port p).key.ms.isSome = true
  · exact (startKey_leaves h.1 h.2).1
  · rw [startKey, if_neg h]
    exact AtPort.refl p _ s

/-- A key start that was not acknowledged is counted at its superframe. -/
def startOverdue (p : PortN) (start : Nat) (s : State) : State := bump (0x6040 + p.val) 4 (atKeyStart p start s)

theorem startOverdue_only (p : PortN) (start : Nat) (s : State) : Only [.time, .dict] s (startOverdue p start s) :=
  bump_parts _ _ (by decide) ((atKeyStart_only p start s).mono (by decide))

theorem canKey_startOverdue (p : PortN) (start : Nat) (s : State) : canKey (startOverdue p start s) p = canKey s p := by
  have hp := p.isLt
  have hother : ∀ index sub, index < 0x6000 → sub < 256 → odGet (startOverdue p start s) index sub = odGet s index sub := by
    intro index sub hindex hsub
    have hbump := bump_entries (0x6040 + p.val) 4 (atKeyStart p start s) (by decide) index sub hsub (by simp; omega)
    exact hbump.trans (odGet_of_only (atKeyStart_only p start s) (by decide) index sub)
  have hport : (startOverdue p start s).port p = s.port p := (startOverdue_only p start s).port (by decide) p
  have hsec : (startOverdue p start s).sec = s.sec := startOverdue_only p start s .sec (by decide)
  have hrole : role (startOverdue p start s) p = role s p := hother _ _ (by simp only [portIndex]; omega) (by decide)
  have hassigned : assigned (startOverdue p start s) = assigned s := by
    unfold assigned
    rw [hother 0x3000 3 (by decide) (by decide)]
  unfold canKey
  rw [hport, hsec, hrole, hassigned]

theorem keySwitch_overdue {p : PortN} {s : State} {ms mine : Bytes} {d : BitVec 128} {start : Nat}
    (hms : (s.port p).key.ms = some (ms, d)) (hpend : (s.port p).key.txPend = some (mine, start, none)) :
    keySwitch p s = startKey p (startOverdue p start s) := by
  unfold keySwitch
  simp only [hms, hpend]
  rfl

theorem keySwitch_overdue_leaves {p : PortN} {s : State} {ms mine : Bytes} {d : BitVec 128} {start : Nat}
    (hms : (s.port p).key.ms = some (ms, d)) (hpend : (s.port p).key.txPend = some (mine, start, none)) :
    OnlyPort p s (keySwitch p s) ∧ (keySwitch p s).time.ft = max s.time.ft ((s.port p).key.since + start * 6425) ∧
      (canKey s p = true → ((keySwitch p s).port p).key = { (s.port p).key with
          txPend := some (Config.randomBytes s.free 16, superframeNow (keySwitch p s) p + 8, none), resends := 0, msgNo := (s.port p).key.msgNo + 1 } ∧
        (odGet s (0x6040 + p.val) 4 < 2 ^ 31 → odGet (keySwitch p s) (0x6040 + p.val) 4 = odGet s (0x6040 + p.val) 4 + 1)) := by
  have honly := startOverdue_only p start s
  have hport : (startOverdue p start s).port p = s.port p := honly.port (by decide) p
  have hfree : (startOverdue p start s).free = s.free := honly .free (by decide)
  have hstart := startKey_atPort p (startOverdue p start s)
  have htime : (startKey p (startOverdue p start s)).time = (startOverdue p start s).time := hstart.2 .time (by decide)
  rw [keySwitch_overdue hms hpend]
  refine ⟨(honly.onlyPort (by decide) p).trans hstart.1, ?_, fun hcan => ?_⟩
  · rw [htime]
    exact advanceTime_ft _ _
  · have hcan' : canKey (startOverdue p start s) p = true := (canKey_startOverdue p start s).trans hcan
    have hms' : ((startOverdue p start s).port p).key.ms.isSome = true := by simp [hport, hms]
    obtain ⟨-, hkey, -, hcount⟩ := startKey_leaves hcan' hms'
    rw [hport, hfree] at hkey
    have hframe : superframeNow (startKey p (startOverdue p start s)) p = superframeNow (startOverdue p start s) p := by
      unfold superframeNow
      rw [htime, hkey, hport]
    refine ⟨?_, fun hroom => ?_⟩
    · rw [hframe]
      exact hkey
    · rw [hcount]
      have hvalue := odGet_of_only (atKeyStart_only p start s) (by decide) (0x6040 + p.val) 4
      rw [← hvalue] at hroom ⊢
      exact odGet_bump_room hroom

theorem keySwitch_idle {p : PortN} {s : State} (h : (s.port p).key.txPend = none ∨ (s.port p).key.ms = none) : keySwitch p s = s := by
  unfold keySwitch
  dsimp only
  split
  · next hpend hms =>
    rw [hpend, hms] at h
    simp at h
  · rfl

/-- A port that cannot key only takes messages off. -/
theorem keying_closed {p : PortN} {s : State} (h : canKey s p = false) (o : KeyOffer) (n : Bytes) (start : Nat) :
    keyOfferReceive p o s = takeMus p 0x0C s ∧ keyProofReceive p n s = takeMus p 0x0D s ∧ keyStartReceive p n start s = takeMus p 0x0E s ∧
      startKey p s = s ∧ keyRetry p s = s ∧ keyResend p s = s := by
  have hclosed (sub : Nat) : canKey (takeMus p sub s) p = false := (takeMus_takenOff p sub s).canKey.trans h
  refine ⟨?_, ?_, ?_, ?_, ?_, ?_⟩
  · unfold keyOfferReceive
    exact if_pos (hclosed 0x0C)
  · unfold keyProofReceive
    dsimp only
    split
    · exact if_pos (.inl (hclosed 0x0D))
    · rfl
  · unfold keyStartReceive
    dsimp only
    split
    · exact if_pos (hclosed 0x0E)
    · rfl
  · exact if_neg (by simp [h])
  · exact if_neg (by simp [h])
  · unfold keyResend
    split
    · rfl
    · exact if_pos h

/-- Settles O54: each command's effect on the port's keying, from its own lemma. -/
theorem keysAreAgreedAndSwitched : Obligations.KeysAreAgreedAndSwitched := by
  unfold Obligations.KeysAreAgreedAndSwitched
  rintro p s k rfl
  refine ⟨fun o n start hclosed => ?closed, fun hcan => ⟨fun o => ⟨fun hid hpermitted hmine => ?accepts, fun stage hstage hne hmine => ?refuses⟩,
    fun m o signature hmine htheirs hms => ⟨fun hverified => ?proves, fun hforged => ?forges⟩,
    fun ms d hms => ⟨?renewal, fun n start => ?received⟩, fun hfault => ?retry, fun hfault => ?noRetry,
    fun sub data hmessage => ⟨fun hmore => ?resend, fun hmany => ?givesUp⟩⟩, fun hanswered => ?answered,
    fun n start => ⟨fun mine at_ hpend => ?acked, fun hother => ?notAcked⟩, fun hidle => ?idle, fun ms d mine start ack hms hpend => ?switch⟩
  case closed =>
    obtain ⟨hoffer, hproof, hstart, hrenewal, hretry, hresend⟩ := keying_closed hclosed o n start
    rw [exec_keyOffer, exec_keyProof, exec_keyStart, exec_keyRenewal, exec_keyHandshakeRetry, exec_keyMessageResend, hoffer, hproof, hstart,
      hrenewal, hretry, hresend]
    exact ⟨rfl, rfl, rfl, rfl, rfl, rfl⟩
  case accepts =>
    obtain ⟨m, hm⟩ := Option.isSome_iff_exists.mp hmine
    have hu := takeMus_takenOff p 0x0C s
    have hsent := sendKeying_sent p 0x0D (Config.rsaSign (proofText m o)) (modKey p (offerKept o) (takeMus p 0x0C s))
    rw [exec_keyOffer, keyOfferReceive_accepts hcan hm hid hpermitted]
    refine ⟨_, rfl, (hu.atPort.1.trans (modKey_atPort p (offerKept o) _).1).trans hsent.atPort.1, ?_⟩
    rw [hsent.key, port_modKey_same, hu.key]
    rfl
  case refuses =>
    have hu := takeMus_takenOff p 0x0C s
    obtain ⟨honly, hkey, hcount⟩ := failKeying_fails p stage (takeMus p 0x0C s)
    rw [exec_keyOffer, keyOfferReceive_refuses hcan hmine hstage hne]
    refine ⟨_, rfl, hu.atPort.1.trans honly, ?_, fun hroom => ?_⟩
    · rw [hkey, hu.key]
      rfl
    · rw [← hu.odGet] at hroom ⊢
      exact hcount hroom
  case proves =>
    have hu := takeMus_takenOff p 0x0D s
    rw [exec_keyProof, keyProofReceive_judged signature hcan hmine htheirs hms, if_pos hverified]
    refine ⟨_, rfl, ?_, hu.atPort.trans (modKey_atPort p _ _)⟩
    rw [port_modKey_same, hu.key]
    rfl
  case forges =>
    have hu := takeMus_takenOff p 0x0D s
    obtain ⟨honly, hkey, -⟩ := failKeying_fails p 6 (takeMus p 0x0D s)
    rw [exec_keyProof, keyProofReceive_judged signature hcan hmine htheirs hms, hforged, if_neg (by decide)]
    refine ⟨_, rfl, ?_, hu.atPort.1.trans honly⟩
    rw [hkey, hu.key]
    rfl
  case renewal =>
    obtain ⟨hport, hkey, hcount, -⟩ := startKey_leaves hcan (by simp [hms])
    rw [exec_keyRenewal]
    exact ⟨_, rfl, hport.1, hkey, hcount⟩
  case received =>
    rw [exec_keyStart]
    exact ⟨_, rfl, keyStart_leaves hcan hms n start⟩
  case retry =>
    have hretry : keyRetry p s = startHandshake p s := if_pos ⟨hcan, hfault⟩
    obtain ⟨honly, hkey⟩ := startHandshake_leaves p s
    rw [exec_keyHandshakeRetry, hretry]
    refine ⟨_, rfl, honly, ?_⟩
    rw [hkey]
    exact ⟨rfl, rfl, rfl, rfl, rfl⟩
  case noRetry =>
    rw [exec_keyHandshakeRetry, keyRetry, if_neg (by simp [hfault])]
  case resend =>
    have hsent := sendKeying_sent p sub data (modKey p (fun k => { k with resends := k.resends + 1 }) s)
    rw [exec_keyMessageResend, keyResend_sends hcan hmessage, if_neg (by omega)]
    refine ⟨_, rfl, (modKey_atPort p _ s).1.trans hsent.atPort.1, ?_⟩
    rw [hsent.key, port_modKey_same]
  case givesUp =>
    obtain ⟨honly, hkey, -⟩ := failKeying_fails p 6 (modKey p (fun k => { k with txPend := none }) s)
    rw [exec_keyMessageResend, keyResend_sends hcan hmessage, if_pos hmany]
    refine ⟨_, rfl, (modKey_atPort p _ s).1.trans honly, ?_⟩
    rw [hkey, port_modKey_same]
    rfl
  case answered =>
    rw [exec_keyMessageResend, keyResend, hanswered]
  case acked =>
    have hu := takeMus_takenOff p 0x0F s
    rw [exec_keyAck, keyAckReceive_pending hpend]
    refine ⟨_, rfl, ?_, ?_⟩
    · split
      · exact hu.atPort.trans (modKey_atPort p _ _)
      · exact hu.atPort
    · split
      · rw [port_modKey_same, hu.key]
        rfl
      · exact hu.key
  case notAcked =>
    rw [exec_keyAck, keyAckReceive_other hother]
  case idle =>
    rw [exec_keySwitch, keySwitch_idle hidle]
  case switch =>
    rw [exec_keySwitch]
    cases ack with
    | some theirs =>
      obtain ⟨honly, htime, hkey⟩ := keySwitch_acked hms hpend
      exact ⟨_, rfl, honly, htime, fun x hx => by cases hx; exact hkey, nofun⟩
    | none =>
      obtain ⟨honly, htime, hstart⟩ := keySwitch_overdue_leaves hms hpend
      exact ⟨_, rfl, honly, htime, nofun, fun _ hcan => hstart hcan⟩

end Sys2Proof.Machine
end

section
/-! SUPPORT. A reset request: the domain and target of the value written, the domains of each entry, and the target's limit (R462). -/

namespace Sys2Proof.Machine

open Sys2Proof

/-! ### The fields of a request -/

theorem toNat_request (domain target : BitVec 16) : (domain ++ target).toNat = domain.toNat * 2 ^ 16 + target.toNat := by
  rw [BitVec.toNat_append, ← Nat.shiftLeft_add_eq_or_of_lt target.isLt, Nat.shiftLeft_eq]

theorem requestDomain (domain target : BitVec 16) : bits (domain ++ target).toNat 16 16 = domain.toNat := by
  have hdomain := domain.isLt
  have htarget := target.isLt
  rw [toNat_request, bits]
  omega

theorem requestTarget (domain target : BitVec 16) : bits (domain ++ target).toNat 0 16 = target.toNat := by
  have hdomain := domain.isLt
  have htarget := target.isLt
  rw [toNat_request, bits]
  omega

/-- The domains that an entry accepts. -/
def entryDomains (sub : Nat) : List (BitVec 16) := if sub = 1 then [2, 4, 5, 6, 7, 8, 9] else [1, 3]

theorem mem_entryDomains (sub : Nat) (domain : BitVec 16) : domain ∈ entryDomains sub ↔
    (if sub = 1 then domain.toNat == 2 || (decide (4 ≤ domain.toNat) && decide (domain.toNat ≤ 9)) else domain.toNat == 1 || domain.toNat == 3) = true := by
  unfold entryDomains
  split
  · simp [BitVec.toNat_eq]
    omega
  · simp [BitVec.toNat_eq]

/-! ### A write of OD 7102 -/

theorem resetWrite_denied {src : Route} (hsrc : secure src = false) (v : Nat) (s : State) : resetWrite src 2 v s = endOp 4 0x06010000 s := by
  unfold resetWrite
  exact if_pos ⟨rfl, hsrc⟩

theorem resetWrite_refused {src : Route} {sub : Nat} {domain : BitVec 16} (hsrc : ¬(sub = 2 ∧ secure src = false))
    (hdomain : domain ∉ entryDomains sub) (target : BitVec 16) (s : State) :
    resetWrite src sub (domain ++ target).toNat s = endOp 2 0x08000020 s := by
  have hillegal := (mem_entryDomains sub domain).not.mp hdomain
  unfold resetWrite
  dsimp only
  rw [if_neg hsrc, requestDomain, if_pos (Bool.eq_false_of_not_eq_true hillegal)]
  rfl

theorem resetWrite_requests {src : Route} {sub : Nat} {domain : BitVec 16} (hsrc : ¬(sub = 2 ∧ secure src = false))
    (hdomain : domain ∈ entryDomains sub) (target : BitVec 16) (s : State) : resetWrite src sub (domain ++ target).toNat s =
      requestReset { domain := domain.toNat, target := min target.toNat (targetLimit domain.toNat), cause := 1 }
        (if target.toNat ≤ targetLimit domain.toNat then beginOp s
         else clamped src 0x7102 sub (15 * 256) target.toNat (targetLimit domain.toNat) (beginOp s)) := by
  have hlegal := (mem_entryDomains sub domain).mp hdomain
  unfold resetWrite
  dsimp only
  rw [if_neg hsrc, requestDomain, requestTarget, if_neg (by rw [hlegal]; decide)]
  by_cases hkept : target.toNat ≤ targetLimit domain.toNat
  · rw [Nat.min_eq_left hkept, if_pos rfl, if_pos hkept]
  · rw [Nat.min_eq_right (by omega), if_neg (by omega), if_neg hkept]

/-- The limit of the target by the domain. -/
theorem targetLimit_eq (domain : Nat) : targetLimit domain = (match domain with
    | 9 => 23
    | 8 => 255
    | 7 => 63
    | 6 => 7
    | 5 => 15
    | _ => 0) := by
  unfold targetLimit
  split_ifs <;> simp_all

/-- Each command that writes OD 7102 is the write of its sub-index. -/
theorem exec_resetCommands (src : Route) (v : BitVec 32) (s : State) :
    ∀ y ∈ ([(.portReset src v, 1), (.engineReset src v, 1), (.coreReset src v, 1), (.clusterReset src v, 1), (.tenantAbort src v, 1),
        (.crossbarReset src v, 1), (.warmDeviceReset src v, 1), (.managementReset src v, 2), (.coldReset src v, 2)] : List (Instr × Nat)),
      exec y.1 s = .next (resetWrite src y.2 v.toNat s) := by
  simp only [List.forall_mem_cons]
  exact ⟨rfl, rfl, rfl, rfl, rfl, rfl, rfl, rfl, rfl, by simp⟩

/-- A target clamped to the domain's highest is reported, and the write's outcome is written with a clamp. -/
theorem clampedTarget_reported (src : Route) (sub target limit : Nat) (s : State) {u : State}
    (hu : u = clamped src 0x7102 sub (15 * 256) target limit (beginOp s)) : u.dict.status = 1 ∧ u.dict.abort = 0 ∧
      Only [.dict, .host, .sent] s u ∧ OnlyEntries [(0x1F00, 3)] s u ∧
      ∃ r : ClampRec, u.dict.clamps = (if 1024 ≤ s.dict.clamps.length then s.dict.clamps.drop 1 else s.dict.clamps) ++ [r] ∧
        r.index = 0x7102 ∧ r.sub = sub ∧ r.kind = 1 ∧ r.original = target ∧ r.clamped = limit := by
  rw [hu]
  refine ⟨clamped_status .., clamped_abort .., (clamped_only _ _ _ _ _ _ _).of_beginOp, (clamped_entries _ _ _ _ _ _ _).of_beginOp,
    reportRecord src 0x7102 sub (15 * 256) 1 target limit (beginOp s), ?_, rfl, rfl, rfl, rfl, rfl⟩
  exact report_clamps src 0x7102 sub (15 * 256) 1 target limit (beginOp s)

/-- Settles O56: every command is `resetWrite`, which denies, refuses or requests. -/
theorem resetRequestsNameADomainAndATarget : Obligations.ResetRequestsNameADomainAndATarget := by
  unfold Obligations.ResetRequestsNameADomainAndATarget
  intro src domain target s limit hlimit y hy
  have hexec : exec y.1 s = .next (resetWrite src y.2 (domain ++ target).toNat s) := exec_resetCommands src (domain ++ target) s y hy
  have hlimit' : limit = targetLimit domain.toNat := hlimit.trans (targetLimit_eq domain.toNat).symm
  rw [hexec, hlimit']
  refine ⟨fun hsub hsecured hrestore => ?denied, fun hright => ?right⟩
  case denied =>
    have hsrc : secure src = false := by
      cases src with
      | secured => exact absurd rfl hsecured
      | restore => exact absurd rfl hrestore
      | can | mailbox | rtd => rfl
    rw [hsub, resetWrite_denied hsrc]
  case right =>
    have hsrc : ¬(y.2 = 2 ∧ secure src = false) := by
      rintro ⟨hsub, hopen⟩
      rcases hright with hone | rfl
      · omega
      · cases hopen
    refine ⟨fun hdomain => ?_, fun hdomain u hu => ⟨?_, fun hkept => ?_, fun hclamped => ?_⟩⟩
    · have hother : domain ∉ entryDomains y.2 := by
        unfold entryDomains
        split at hdomain
        · next hone => rwa [if_pos hone]
        · next htwo => rwa [if_neg htwo]
      rw [resetWrite_refused hsrc hother]
    · have hmem : domain ∈ entryDomains y.2 := by
        unfold entryDomains
        split at hdomain
        · next hone => rwa [if_pos hone]
        · next htwo => rwa [if_neg htwo]
      rw [resetWrite_requests hsrc hmem, hu]
    · rw [hu, if_pos hkept]
      rfl
    · rw [if_neg (by omega)] at hu
      exact clampedTarget_reported src y.2 target.toNat _ s hu

end Sys2Proof.Machine
end

section
/-! SUPPORT. The muster's lists in ascending order, and the cells it sends on the eligible ports (R468–R470). -/

namespace Sys2Proof.Machine

open Sys2Proof

theorem exec_musterCensus (s : State) : exec .musterCensus s = .next (musterCensus s) := rfl
theorem exec_viewOriginate (s : State) : exec .viewOriginate s = .next (viewOriginate s) := rfl
theorem exec_view (p : PortN) (v : ViewCell) (s : State) : exec (.view p v) s = .next (viewReceive p v s) := rfl
theorem exec_fset (p : PortN) (e : BitVec 32) (b : Bytes) (s : State) : exec (.fset p e b) s = .next (fsetReceive p e.toNat b s) := rfl
theorem exec_loss (p : PortN) (e : BitVec 32) (l : List (BitVec 16)) (s : State) :
    exec (.loss p e l) s = .next (lossReceive p e.toNat (l.map (fun c => c.toNat)) s) := rfl
theorem exec_musterWindowEnd (s : State) : exec .musterWindowEnd s = .next (musterWindowEnd s) := rfl
theorem exec_musterRecoveryStep (s : State) : exec .musterRecoveryStep s = .next (musterStep s) := rfl
theorem exec_readmission (s : State) : exec .readmission s = .next (readmission s) := rfl

@[simp] theorem mem_insertAsc {x y : Nat} {l : List Nat} : y ∈ insertAsc x l ↔ y = x ∨ y ∈ l := by
  induction l with
  | nil => simp [insertAsc]
  | cons h r ih =>
    unfold insertAsc
    split
    · next heq => simp [heq]
    · split
      · simp
      · simp only [List.mem_cons, ih]
        tauto

@[simp] theorem mem_unionAsc {y : Nat} {l m : List Nat} : y ∈ unionAsc l m ↔ y ∈ l ∨ y ∈ m := by
  induction l generalizing m with
  | nil => simp [unionAsc]
  | cons x r ih =>
    have hstep : unionAsc (x :: r) m = unionAsc r (insertAsc x m) := rfl
    rw [hstep, ih, mem_insertAsc, List.mem_cons]
    tauto

theorem foldl_insertAsc (l m : List Nat) : l.foldl (fun a x => insertAsc x a) m = unionAsc l m := rfl

/-! ### What a state of the muster reads -/

theorem takesPart_congr {s t : State} (hod : odGet t 0x3000 3 = odGet s 0x3000 3) (hmuster : t.muster = s.muster) (htime : t.time = s.time) :
    takesPart t = takesPart s := by
  simp only [takesPart, assigned, hod, hmuster, htime]

theorem musPort_congr {s t : State} {p : PortN} (hod : odGet t (portIndex p 0) 1 = odGet s (portIndex p 0) 1) (hport : t.port p = s.port p) :
    musPort t p = musPort s p := by
  simp only [musPort, role, hod, hport]

theorem TakenOff.muster {p : PortN} {s t : State} (h : TakenOff p s t) : t.muster = s.muster := h.atPort.2 .muster (by simp)

theorem TakenOff.time {p : PortN} {s t : State} (h : TakenOff p s t) : t.time = s.time := h.atPort.2 .time (by simp)

theorem TakenOff.takesPart {p : PortN} {s t : State} (h : TakenOff p s t) : takesPart t = takesPart s :=
  takesPart_congr (h.odGet _ _) h.muster h.time

theorem TakenOff.musPort {p : PortN} {s t : State} (h : TakenOff p s t) : musPort t p = musPort s p := by
  simp only [Machine.musPort, role, h.odGet]
  rw [h.port]

theorem TakenOff.ownNo {p : PortN} {s t : State} (h : TakenOff p s t) : ownNo t = ownNo s := by
  simp only [Machine.ownNo, h.odGet]

/-! ### Cells sent -/

theorem floodMus_only (sub aux : Nat) (payload : Bytes) (but : Option PortN) (s : State) :
    Only [.ports, .sw, .dict, .sent] s (floodMus sub aux payload but s) :=
  forPorts_only (fun p u => Only.ite (sendMus_only sub aux payload p u) (Only.refl _ u)) s

theorem sendSets_only (p : PortN) (s : State) : Only [.ports, .sw, .dict, .sent] s (sendSets p s) :=
  Only.foldl _ (fun u _ h => h.trans (sendMus_only _ _ _ p u)) (sendMus_only _ _ _ p s)

theorem floodSets_only (s : State) : Only [.ports, .sw, .dict, .sent] s (floodSets s) :=
  forPorts_only (fun p u => Only.ite (sendSets_only p u) (Only.refl _ u)) s

/-- The counts of cells sent, one for each port. -/
def cellCounts : List (Nat × Nat) := (List.finRange 24).map (fun p => (portIndex p 7, 1))

theorem sendMus_cellCounts (sub aux : Nat) (payload : Bytes) (p : PortN) (s : State) : OnlyEntries cellCounts s (sendMus sub aux payload p s) :=
  (sendMus_keySent sub aux payload p s).entries.mono (by simp [cellCounts])

/-- What `forPorts` does to one port, its operation does to it in a state in which what every operation keeps has been kept. -/
theorem foldl_ports_at {I : State → Prop} {f : PortN → State → State} (hI : ∀ p u, I u → I (f p u)) (hf : ∀ p u, OnlyPort p u (f p u))
    (l : List PortN) (hl : l.Nodup) {s : State} (hs : I s) (q : PortN) :
    (q ∉ l → (l.foldl (fun u p => f p u) s).port q = s.port q) ∧
      (q ∈ l → ∃ u : State, I u ∧ u.port q = s.port q ∧ (l.foldl (fun u p => f p u) s).port q = (f q u).port q) := by
  induction l generalizing s with
  | nil => simp
  | cons x r ih =>
    obtain ⟨hx, hr⟩ := List.nodup_cons.mp hl
    obtain ⟨hout, hin⟩ := ih hr (hI x s hs)
    refine ⟨fun hq => ?_, fun hq => ?_⟩
    · rw [List.mem_cons, not_or] at hq
      exact (hout hq.2).trans (hf x s q hq.1)
    · by_cases hqx : q = x
      · subst hqx
        exact ⟨s, hs, rfl, hout hx⟩
      · obtain ⟨u, hu, hsame, hport⟩ := hin ((List.mem_cons.mp hq).resolve_left hqx)
        exact ⟨u, hu, hsame.trans (hf x s q hqx), hport⟩

theorem forPorts_at {I : State → Prop} {f : PortN → State → State} (hI : ∀ p u, I u → I (f p u)) (hf : ∀ p u, OnlyPort p u (f p u))
    {s : State} (hs : I s) (q : PortN) : ∃ u : State, I u ∧ u.port q = s.port q ∧ (forPorts f s).port q = (f q u).port q :=
  (foldl_ports_at hI hf _ (List.nodup_finRange 24) hs q).2 (List.mem_finRange q)

theorem OnlyPort.ite {p : PortN} {s a b : State} {c : Prop} [Decidable c] (h : OnlyPort p s a) (g : OnlyPort p s b) :
    OnlyPort p s (if c then a else b) := by
  split
  · exact h
  · exact g

/-- A port that is not eligible stays as it was, and an open one that is takes the cell into its replay buffer. -/
theorem floodMus_port (sub aux : Nat) (payload : Bytes) (s : State) (p : PortN) :
    (musPort s p = false → (floodMus sub aux payload none s).port p = s.port p) ∧
    (musPort s p = true → vc11Open s p = true → ((floodMus sub aux payload none s).port p).replay =
      (s.port p).replay ++ [((s.port p).nextSeq, musCell s p sub aux payload)]) := by
  obtain ⟨u, hu, hport, hflood⟩ := forPorts_at (I := fun u => OnlyEntries cellCounts s u)
    (f := fun p s => if musPort s p = true ∧ (none : Option PortN) ≠ some p then sendMus sub aux payload p s else s)
    (fun p u h => h.trans (OnlyEntries.ite (sendMus_cellCounts sub aux payload p u) (OnlyEntries.refl _ u)))
    (fun p u => OnlyPort.ite (sendMus_keySent sub aux payload p u).atPort.1 (fun _ _ => rfl))
    (OnlyEntries.refl _ s) p
  have hrole : (portIndex p 0, 1) ∉ cellCounts := (by decide : ∀ q : PortN, (portIndex q 0, 1) ∉ cellCounts) p
  have helig : musPort u p = musPort s p := musPort_congr (hu _ _ (by decide) hrole) hport
  have hcoord : coord u 31 = coord s 31 := by
    unfold coord assigned
    rw [hu 0x3000 3 (by decide) (by decide), hu 0x3000 1 (by decide) (by decide), hu 0x3000 2 (by decide) (by decide)]
  have hcell : musCell u p sub aux payload = musCell s p sub aux payload := by
    simp only [musCell, hcoord, hport]
  have hopen : vc11Open u p = vc11Open s p := by
    unfold vc11Open linkReady creditFor
    rw [hport]
  refine ⟨fun h => ?_, fun h ho => ?_⟩
  · rw [floodMus, hflood]
    simp [helig, h, hport]
  · rw [floodMus, hflood]
    simp only [helig, h, sendMus, hopen, ho, hcell, hport, issueCell_port, issued, true_and, ne_eq, reduceCtorEq, not_false_eq_true, if_true]

/-! ### Views (R470, R471) -/

theorem modMuster_only (f : Muster → Muster) (s : State) : Only [.muster] s (modMuster f s) :=
  modMuster_parts f (List.Subset.refl _) (Only.refl _ s)

theorem relayView_muster (p : PortN) (v : ViewCell) (s : State) : (relayView p v s).muster = { s.muster with
    relayed := if s.muster.relayed.contains (relayKey v) then s.muster.relayed else relayKey v :: s.muster.relayed } := by
  unfold relayView
  split
  · rfl
  · dsimp only
    split
    · rw [floodMus_only _ _ _ _ _ .muster (by decide)]
      rfl
    · rfl

theorem relayView_time (p : PortN) (v : ViewCell) (s : State) : (relayView p v s).time = s.time :=
  relayView_parts p v (List.Subset.refl _) (Only.refl _ s) .time (by decide)

/-- A change set with one more party. -/
def changeWith (c : Nat) (l : List Nat) : List Nat := if l.contains c then l else l ++ [c]

@[simp] theorem mem_changeWith {c x : Nat} {l : List Nat} : x ∈ changeWith c l ↔ x ∈ l ∨ x = c := by
  unfold changeWith
  split
  · next h =>
    have hmem : c ∈ l := by simpa using h
    exact ⟨.inl, fun h => h.elim id (fun e => e ▸ hmem)⟩
  · simp

theorem addChange_muster (c : Nat) (s : State) : (addChange c s).muster = { s.muster with change := changeWith c s.muster.change } := by
  unfold addChange changeWith
  split
  · rfl
  · rfl

theorem addChange_only (c : Nat) (s : State) : Only [.muster] s (addChange c s) := addChange_parts c (List.Subset.refl _) (Only.refl _ s)

/-- A RESETTING VIEW of a member puts it into the change set. -/
def resettingNoted (v : ViewCell) (s : State) : State :=
  if v.flags.getLsbD 0 && !v.flags.getLsbD 1 && (surviving s).contains (gvOf v.origin.toNat) then addChange (gvCoord (gvOf v.origin.toNat)) s
  else s

/-- In phase B the VIEW counts, and tells whether its sets are the own ones. -/
def phaseNoted (v : ViewCell) (s : State) : State :=
  if phaseB s then
    let same := v.epoch.toNat == s.muster.epoch && v.check.toNat == musterCheck s
    modMuster (fun m => { m with
      views := if !v.flags.getLsbD 1 && !m.views.contains (gvOf v.origin.toNat) then gvOf v.origin.toNat :: m.views else m.views
      differed := m.differed || !same }) s
  else s

/-- A VIEW of an earlier epoch is answered by the own sets. -/
def olderAnswered (p : PortN) (v : ViewCell) (s : State) : State := if v.epoch.toNat < s.muster.epoch then sendSets p s else s

theorem resettingNoted_muster (v : ViewCell) (s : State) : (resettingNoted v s).muster = { s.muster with
    change := if v.flags.getLsbD 0 && !v.flags.getLsbD 1 && (surviving s).contains (gvOf v.origin.toNat)
      then changeWith (gvCoord (gvOf v.origin.toNat)) s.muster.change else s.muster.change } := by
  unfold resettingNoted
  split
  · exact addChange_muster _ s
  · rfl

theorem resettingNoted_time (v : ViewCell) (s : State) : (resettingNoted v s).time = s.time :=
  Only.ite (addChange_only _ s) (Only.refl _ s) .time (by decide)

theorem phaseNoted_muster (v : ViewCell) (s : State) : (phaseNoted v s).muster = { s.muster with
    views := if phaseB s && !v.flags.getLsbD 1 && !s.muster.views.contains (gvOf v.origin.toNat)
      then gvOf v.origin.toNat :: s.muster.views else s.muster.views
    differed := s.muster.differed || (phaseB s && !(v.epoch.toNat == s.muster.epoch && v.check.toNat == musterCheck s)) } := by
  unfold phaseNoted
  cases hphase : phaseB s
  · simp
  · simp

theorem olderAnswered_only (p : PortN) (v : ViewCell) (s : State) : Only [.ports, .sw, .dict, .sent] s (olderAnswered p v s) :=
  Only.ite (sendSets_only p s) (Only.refl _ s)

/-- A port that is not eligible and a GV24 that takes no part only take a VIEW off, as does the origin of one that comes back. -/
theorem viewReceive_of_idle {p : PortN} {v : ViewCell} {s : State}
    (h : takesPart s = false ∨ musPort s p = false ∨ v.origin.toNat / 32 = ownNo s) : viewReceive p v s = takeMus p 1 s := by
  have htaken := takeMus_takenOff p 1 s
  unfold viewReceive
  exact if_pos (by simpa only [htaken.takesPart, htaken.musPort, htaken.ownNo, gvOf] using h)

theorem viewReceive_of_view {p : PortN} {v : ViewCell} {s : State} (htakes : takesPart s = true) (helig : musPort s p = true)
    (hother : v.origin.toNat / 32 ≠ ownNo s) :
    viewReceive p v s = phaseNoted v (resettingNoted v (olderAnswered p v (relayView p v (takeMus p 1 s)))) := by
  have htaken := takeMus_takenOff p 1 s
  unfold viewReceive
  refine if_neg ?_
  rw [htaken.takesPart, htaken.musPort, htaken.ownNo]
  simp [htakes, helig, gvOf, hother]

/-- A VIEW noted, after its cell has been relayed and an earlier epoch answered (R470, R471, R473). -/
theorem viewReceive_muster {p : PortN} {v : ViewCell} {s : State} (htakes : takesPart s = true) (helig : musPort s p = true)
    (hother : v.origin.toNat / 32 ≠ ownNo s) : (viewReceive p v s).muster = { s.muster with
      relayed := if s.muster.relayed.contains (relayKey v) then s.muster.relayed else relayKey v :: s.muster.relayed
      change := if v.flags.getLsbD 0 && !v.flags.getLsbD 1 && (surviving s).contains (v.origin.toNat / 32)
        then changeWith (v.origin.toNat / 32 * 32 + 31) s.muster.change else s.muster.change
      views := if phaseB s && !v.flags.getLsbD 1 && !s.muster.views.contains (v.origin.toNat / 32)
        then v.origin.toNat / 32 :: s.muster.views else s.muster.views
      differed := s.muster.differed || (phaseB s && !(v.epoch.toNat == s.muster.epoch && v.check.toNat == musterCheck s)) } := by
  have htaken := takeMus_takenOff p 1 s
  rw [viewReceive_of_view htakes helig hother]
  generalize hu : olderAnswered p v (relayView p v (takeMus p 1 s)) = u
  have hanswered := olderAnswered_only p v (relayView p v (takeMus p 1 s))
  rw [hu] at hanswered
  have htime : u.time = s.time := by
    rw [hanswered .time (by decide), relayView_time, htaken.time]
  have hmuster : u.muster = (relayView p v (takeMus p 1 s)).muster := hanswered .muster (by decide)
  rw [relayView_muster, htaken.muster] at hmuster
  have hphase : phaseB (resettingNoted v u) = phaseB s := by
    simp only [phaseB, resettingNoted_time, htime]
  have hcheck : musterCheck (resettingNoted v u) = musterCheck s := by
    simp only [musterCheck, resettingNoted_muster, hmuster]
  have hsurviving : surviving u = surviving s := by
    simp only [surviving, hmuster]
  rw [phaseNoted_muster, hphase, hcheck, resettingNoted_muster, hsurviving, hmuster]
  rfl

/-! ### Epochs and sets (R472, R473, R476) -/

/-- What the reset of a tenant may change. -/
abbrev tenantReach : List Part := [.ports, .sw, .cal, .cmp, .coll, .dict, .host, .can, .log, .pwr, .sent, .resets]

/-- A tenant's reset leaves the muster and the time unit. -/
theorem beginReset_tenant_only (t cause : Nat) (s : State) : Only tenantReach s (beginReset { domain := 5, target := t, cause := cause } s) := by
  have habort : Only tenantReach s (resetEffect { domain := 5, target := t, cause := cause } s) :=
    abortTenant_parts t (by decide) (Only.refl _ s)
  exact Only.ite (Only.resets_upd (by decide) habort) (resetDone_parts _ (by decide) habort)

/-- What an operation of the muster leaves but its restarts and the tenants marked. -/
structure Restarted (s t : State) : Prop where
  muster : t.muster = { s.muster with restarts := t.muster.restarts, marked := t.muster.marked }
  time : t.time = s.time

theorem Restarted.of_only {l : List Part} {s t : State} (h : Only l s t) (hmuster : Part.muster ∉ l) (htime : Part.time ∉ l) : Restarted s t := by
  have hm : t.muster = s.muster := h .muster hmuster
  exact ⟨by rw [hm], h .time htime⟩

theorem Restarted.trans {s t u : State} (h : Restarted s t) (g : Restarted t u) : Restarted s u := by
  refine ⟨?_, g.time.trans h.time⟩
  rw [g.muster, h.muster]

theorem Restarted.ite {s a b : State} {c : Prop} [Decidable c] (h : Restarted s a) (g : Restarted s b) : Restarted s (if c then a else b) := by
  split
  · exact h
  · exact g

/-- A restart noted. -/
def restartNoted (old : Nat) (s : State) : State :=
  log 0x7121 [old, s.muster.epoch] (bump 0x7120 0x12 (modMuster (fun m => { m with restarts := s.time.ft :: recentRestarts s }) s))

theorem restartNoted_restarted (old : Nat) (s : State) : Restarted s (restartNoted old s) := by
  refine ⟨?_, logEvent_time _ _ _⟩
  unfold restartNoted
  rw [logEvent_only _ _ _ .muster (by decide)]
  rfl

/-- The tenants marked are reset. -/
def escalated (s : State) : State :=
  let told := bump 0x7120 0x13 (log 0x7122 [s.muster.epoch, s.muster.marked.foldl (fun n t => n + 2 ^ t) 0] s)
  told.muster.marked.foldl (fun s t => beginReset { domain := 5, target := t, cause := 4 } s) told

theorem escalated_restarted (s : State) : Restarted s (escalated s) := by
  have hlog : Restarted s (log 0x7122 [s.muster.epoch, s.muster.marked.foldl (fun n t => n + 2 ^ t) 0] s) :=
    .of_only (logEvent_only _ _ s) (by decide) (by decide)
  refine hlog.trans (.trans (.of_only (bump_only 0x7120 0x13 _) (by decide) (by decide)) ?_)
  exact .of_only (Only.foldl _ (fun u t h => h.trans (beginReset_tenant_only t 4 u)) (Only.refl _ _)) (by decide) (by decide)

theorem restartsForgotten (s : State) : Restarted s (modMuster (fun m => { m with restarts := [], marked := [] }) s) := ⟨rfl, rfl⟩

theorem noteRestart_eq (old : Nat) (s : State) : noteRestart old s =
    if (restartNoted old s).muster.restarts.length < 8 then restartNoted old s
    else modMuster (fun m => { m with restarts := [], marked := [] }) (escalated (restartNoted old s)) := rfl

theorem noteRestart_restarted (old : Nat) (s : State) : Restarted s (noteRestart old s) := by
  have hnoted := restartNoted_restarted old s
  rw [noteRestart_eq]
  exact .ite hnoted (hnoted.trans ((escalated_restarted (restartNoted old s)).trans (restartsForgotten _)))

/-- The muster at the start of an epoch: its agreement is to come, and the membership before it is kept until one is decided. -/
def epochStarted (e : Nat) (s : State) : Muster :=
  { s.muster with epoch := e, agreeing := true, decided := false, before := if s.muster.agreeing then s.muster.before else surviving s }

theorem startEpoch_restarted (e : Nat) (s : State) : Restarted (beginEpoch e s) (startEpoch e s) := by
  unfold startEpoch
  exact .ite (noteRestart_restarted _ _) ⟨rfl, rfl⟩

theorem startEpoch_time (e : Nat) (s : State) : (startEpoch e s).time = s.time := (startEpoch_restarted e s).time

theorem startEpoch_muster (e : Nat) (s : State) : (startEpoch e s).muster =
    { epochStarted e s with restarts := (startEpoch e s).muster.restarts, marked := (startEpoch e s).muster.marked } :=
  (startEpoch_restarted e s).muster

/-- Whether a set received brings anything new (R472). -/
def bringsNews (e : Nat) (f l : List Nat) (s : State) : Bool :=
  decide (s.muster.epoch < e) || unionAsc f s.muster.failed != s.muster.failed || unionAsc l s.muster.lost != s.muster.lost

/-- The state whose F and L are joined. -/
def epochRaised (e : Nat) (s : State) : State := if s.muster.epoch < e then startEpoch e s else s

theorem mergeSets_fst (e : Nat) (f l : List Nat) (s : State) : (mergeSets e f l s).1 = bringsNews e f l s := rfl

theorem mergeSets_muster (e : Nat) (f l : List Nat) (s : State) : (mergeSets e f l s).2.muster = { (epochRaised e s).muster with
    failed := unionAsc f s.muster.failed, lost := unionAsc l s.muster.lost
    changedB := (epochRaised e s).muster.changedB || (bringsNews e f l s && phaseB s) } := by
  have hphase : phaseB (epochRaised e s) = phaseB s := by
    unfold phaseB epochRaised
    split
    · rw [startEpoch_time]
    · rfl
  rw [← hphase]
  rfl

theorem epochRaised_of_lt {e : Nat} {s : State} (h : s.muster.epoch < e) : epochRaised e s = startEpoch e s := if_pos h

theorem epochRaised_of_le {e : Nat} {s : State} (h : e ≤ s.muster.epoch) : epochRaised e s = s := if_neg (Nat.not_lt.mpr h)

theorem epochRaised_epoch (e : Nat) (s : State) : (epochRaised e s).muster.epoch = max s.muster.epoch e := by
  by_cases h : s.muster.epoch < e
  · rw [epochRaised_of_lt h, startEpoch_muster]
    exact (Nat.max_eq_right h.le).symm
  · have hle := Nat.not_lt.mp h
    rw [epochRaised_of_le hle, Nat.max_eq_left hle]

/-- Sets that bring nothing new change nothing (R472). -/
theorem mergeSets_of_known {e : Nat} {f l : List Nat} {s : State} (h : bringsNews e f l s = false) : mergeSets e f l s = (false, s) := by
  have hnews := h
  simp only [bringsNews, Bool.or_eq_false_iff, decide_eq_false_iff_not, bne_eq_false_iff_eq] at hnews
  obtain ⟨⟨hle, hfailed⟩, hlost⟩ := hnews
  refine Prod.ext h ?_
  have hsame : (mergeSets e f l s).2 = { epochRaised e s with muster := (mergeSets e f l s).2.muster } := rfl
  rw [hsame, mergeSets_muster, h, epochRaised_of_le (Nat.not_lt.mp hle), hfailed, hlost, Bool.false_and, Bool.or_false]

/-! ### FSET and LOSS (R472) -/

theorem fsetReceive_of_idle {p : PortN} {e : Nat} {b : Bytes} {s : State} (h : takesPart s = false ∨ musPort s p = false) :
    fsetReceive p e b s = takeMus p 2 s := by
  have htaken := takeMus_takenOff p 2 s
  unfold fsetReceive
  exact if_pos (by simpa only [htaken.takesPart, htaken.musPort] using h)

theorem lossReceive_of_idle {p : PortN} {e : Nat} {l : List Nat} {s : State} (h : takesPart s = false ∨ musPort s p = false) :
    lossReceive p e l s = takeMus p 3 s := by
  have htaken := takeMus_takenOff p 3 s
  unfold lossReceive
  exact if_pos (by simpa only [htaken.takesPart, htaken.musPort] using h)

/-- The sets joined, and flooded where they brought news. -/
def setsJoined (p : PortN) (sub e : Nat) (payload : Bytes) (f l : List Nat) (s : State) : State :=
  let r := mergeSets e f l s
  if r.1 then floodMus sub e payload (some p) r.2 else r.2

theorem setsJoined_muster (p : PortN) (sub e : Nat) (payload : Bytes) (f l : List Nat) (s : State) :
    (setsJoined p sub e payload f l s).muster = (mergeSets e f l s).2.muster :=
  Only.ite (floodMus_only sub e payload (some p) (mergeSets e f l s).2) (Only.refl _ _) .muster (by decide)

theorem setsJoined_of_known {p : PortN} {sub e : Nat} {payload : Bytes} {f l : List Nat} {s : State} (h : bringsNews e f l s = false) :
    setsJoined p sub e payload f l s = s := by
  rw [setsJoined, mergeSets_of_known h]
  rfl

theorem fsetReceive_of_part {p : PortN} {e : Nat} {b : Bytes} {s : State} (htakes : takesPart s = true) (helig : musPort s p = true) :
    fsetReceive p e b s = setsJoined p 2 e (slice b 0 255) (bitmapGvs (slice b 0 255)) [] (takeMus p 2 s) := by
  have htaken := takeMus_takenOff p 2 s
  unfold fsetReceive
  exact if_neg (by simp [htaken.takesPart, htaken.musPort, htakes, helig])

theorem lossReceive_of_part {p : PortN} {e : Nat} {l : List Nat} {s : State} (htakes : takesPart s = true) (helig : musPort s p = true) :
    lossReceive p e l s = setsJoined p 3 e (lossBytes l) [] l (takeMus p 3 s) := by
  have htaken := takeMus_takenOff p 3 s
  unfold lossReceive
  exact if_neg (by simp [htaken.takesPart, htaken.musPort, htakes, helig])

/-! ### End of the window (R471–R473) -/

/-- The members whose VIEW is missing in this round. -/
def unseen (s : State) : List Nat := (surviving s).filter (fun x => x != ownNo s && !s.muster.views.contains x)

/-- The change set with the members that are missing in two rounds in a row. -/
def changeDetected (s : State) : List Nat :=
  ((unseen s).filter (fun x => s.muster.missed.contains x)).foldl (fun l x => changeWith (gvCoord x) l) s.muster.change

theorem foldl_addChange_muster (l : List Nat) (s : State) : (l.foldl (fun s x => addChange (gvCoord x) s) s).muster =
    { s.muster with change := l.foldl (fun c x => changeWith (gvCoord x) c) s.muster.change } := by
  induction l generalizing s with
  | nil => rfl
  | cons x r ih => rw [List.foldl_cons, ih, addChange_muster, List.foldl_cons]

theorem mem_foldl_changeWith {x : Nat} {l c : List Nat} :
    x ∈ l.foldl (fun c y => changeWith (gvCoord y) c) c ↔ x ∈ c ∨ ∃ y ∈ l, x = gvCoord y := by
  induction l generalizing c with
  | nil => simp
  | cons y r ih =>
    rw [List.foldl_cons, ih, mem_changeWith]
    simp only [List.mem_cons, exists_eq_or_imp, or_assoc]

theorem detectMissing_muster (s : State) : (detectMissing s).muster = { s.muster with change := changeDetected s, missed := unseen s } := by
  unfold detectMissing
  dsimp only
  rw [modMuster_muster, foldl_addChange_muster]
  rfl

theorem detectMissing_time (s : State) : (detectMissing s).time = s.time :=
  detectMissing_parts (List.Subset.refl _) (Only.refl _ s) .time (by decide)

theorem mem_changeDetected {x : Nat} {s : State} :
    x ∈ changeDetected s ↔ x ∈ s.muster.change ∨ ∃ y ∈ unseen s, y ∈ s.muster.missed ∧ x = gvCoord y := by
  unfold changeDetected
  rw [mem_foldl_changeWith]
  simp only [List.mem_filter, List.contains_iff_mem, and_assoc]

theorem changeDetected_eq_nil {s : State} :
    changeDetected s = [] ↔ (unseen s).any (fun x => s.muster.missed.contains x) = false ∧ s.muster.change = [] := by
  simp only [List.eq_nil_iff_forall_not_mem, mem_changeDetected, List.any_eq_false, List.contains_iff_mem, not_or, not_exists, not_and,
    forall_and]
  exact ⟨fun ⟨hc, hy⟩ => ⟨fun y hu hm => hy _ y hu hm rfl, hc⟩, fun ⟨hy, hc⟩ => ⟨hc, fun x y hu hm _ => hy y hu hm⟩⟩

/-- The parties of a change set enter F and L in a new epoch. -/
def changeFailed (s : State) : State :=
  let gvs := (s.muster.change.filter (fun x => x % 32 == 31)).map gvOf
  let eps := s.muster.change.filter (fun x => x % 32 != 31)
  modMuster (fun m => { m with
    failed := unionAsc gvs m.failed, lost := unionAsc (eps ++ withEndPoints gvs) m.lost, change := [] }) (startEpoch (s.muster.epoch + 1) s)

/-- What an agreement round leaves at the end of its window. -/
def roundJudged (s : State) : State :=
  if !s.muster.change.isEmpty then floodSets (changeFailed s)
  else if s.muster.agreeing then
    (if s.muster.changedB || s.muster.differed then floodSets (startEpoch (s.muster.epoch + 1) s) else decideEpoch s)
  else s

/-- What the round leaves at the end of its window. -/
def windowJudged (s : State) : State :=
  if s.muster.census then
    modMuster (fun m => { m with census := false, members := m.views.foldl (fun l x => insertAsc x l) [ownNo s] }) s
  else roundJudged (detectMissing s)

theorem musterWindowEnd_eq (s : State) (u : State) (hu : u = advanceTo (slotTick s.time.ft 131072 65536) s) : musterWindowEnd s =
    if takesPart u = false then u
    else modMuster (fun m => { m with views := [], relayed := [], changedB := false, differed := false }) (windowJudged u) := by
  subst hu
  rfl

theorem changeFailed_time (s : State) : (changeFailed s).time = s.time := startEpoch_time _ s

theorem decideEpoch_time (s : State) : (decideEpoch s).time = s.time :=
  decideEpoch_parts (List.Subset.refl _) (Only.refl _ s) .time (by decide)

theorem roundJudged_time (s : State) : (roundJudged s).time = s.time := by
  unfold roundJudged
  split
  · exact (floodSets_only (changeFailed s) .time (by decide)).trans (changeFailed_time s)
  · split
    · split
      · exact (floodSets_only _ .time (by decide)).trans (startEpoch_time _ s)
      · exact decideEpoch_time s
    · rfl

theorem windowJudged_time (s : State) : (windowJudged s).time = s.time := by
  unfold windowJudged
  split
  · rfl
  · rw [roundJudged_time, detectMissing_time]

/-! ### What each end of the window leaves of the muster -/

theorem windowJudged_census {s : State} (h : s.muster.census = true) :
    (windowJudged s).muster = { s.muster with census := false, members := unionAsc s.muster.views [ownNo s] } := by
  rw [windowJudged, if_pos h]
  rfl

theorem windowJudged_round {s : State} (h : s.muster.census = false) : windowJudged s = roundJudged (detectMissing s) := by
  rw [windowJudged, h, if_neg Bool.false_ne_true]

theorem roundJudged_muster_of_change {s : State} (h : s.muster.change ≠ []) : (roundJudged s).muster = (changeFailed s).muster := by
  have hchange : (!s.muster.change.isEmpty) = true := by simpa using h
  rw [roundJudged, if_pos hchange]
  exact floodSets_only _ .muster (by decide)

theorem roundJudged_of_still {s : State} (h : s.muster.change = []) (hagree : s.muster.agreeing = false) : roundJudged s = s := by
  simp [roundJudged, h, hagree]

theorem roundJudged_muster_of_differed {s : State} (h : s.muster.change = []) (hagree : s.muster.agreeing = true)
    (hdiffer : s.muster.changedB = true ∨ s.muster.differed = true) :
    (roundJudged s).muster = (startEpoch (s.muster.epoch + 1) s).muster := by
  have hbegins : (s.muster.changedB || s.muster.differed) = true := by simpa using hdiffer
  simp only [roundJudged, h, hagree, hbegins, List.isEmpty_nil, Bool.not_true, Bool.false_eq_true, if_false, if_true]
  exact floodSets_only _ .muster (by decide)

theorem roundJudged_of_agreed {s : State} (h : s.muster.change = []) (hagree : s.muster.agreeing = true)
    (hsame : s.muster.changedB = false) (halike : s.muster.differed = false) : roundJudged s = decideEpoch s := by
  simp [roundJudged, h, hagree, hsame, halike]

theorem changeFailed_muster (s : State) : (changeFailed s).muster = { (startEpoch (s.muster.epoch + 1) s).muster with
    failed := (changeFailed s).muster.failed, lost := (changeFailed s).muster.lost, change := [] } := rfl

/-- A GV24 of the change set has failed, an end-point of it is lost. -/
theorem changeFailed_party {s : State} {x : Nat} (h : x ∈ s.muster.change) :
    if x % 32 = 31 then x / 32 ∈ (changeFailed s).muster.failed else x ∈ (changeFailed s).muster.lost := by
  unfold changeFailed
  dsimp only [modMuster_muster]
  split
  · next hgv =>
    rw [mem_unionAsc]
    exact .inl (List.mem_map.mpr ⟨x, List.mem_filter.mpr ⟨h, by simpa using hgv⟩, rfl⟩)
  · next hep =>
    rw [mem_unionAsc]
    exact .inl (List.mem_append_left _ (List.mem_filter.mpr ⟨h, by simpa using hep⟩))

/-- Too few survive the epoch (R473). -/
def tooFew (s : State) : Bool :=
  decide (2 * (surviving s).length < s.muster.before.length) ||
    (decide (2 * (surviving s).length = s.muster.before.length) && !(surviving s).contains (s.muster.before.foldl min 2040))

theorem decideEpoch_muster (s : State) : (decideEpoch s).muster =
    { s.muster with agreeing := false, decided := true, partitioned := s.muster.partitioned || tooFew s } := by
  unfold decideEpoch
  extract_lets u before after half lowest
  have hu : u.muster = { s.muster with agreeing := false, decided := true } := rfl
  have hfew : (2 * after.length < before.length ∨ (half ∧ after.contains lowest = false)) ↔ tooFew s = true := by
    simp only [tooFew, Bool.or_eq_true, Bool.and_eq_true, decide_eq_true_eq, Bool.not_eq_true']
    exact Iff.rfl
  split
  · next h =>
    rw [hfew.mp h, logEvent_only _ _ _ .muster (by decide), Bool.or_true]
    rfl
  · next h =>
    have hmany : tooFew s = false := by simpa using fun g => h (hfew.mpr g)
    rw [hmany, Bool.or_false]
    rfl

/-! ### Recovery (R474) -/

theorem mapGet_map_marked {α : Type} (c : α → Bool) (g : α → α) (m : NMap α) (i : Nat) :
    mapGet (m.map (fun e => if c e.2 then (e.1, g e.2) else e)) i = (mapGet m i).map (fun w => if c w then g w else w) := by
  induction m with
  | nil => rfl
  | cons e r ih =>
    obtain ⟨j, w⟩ := e
    cases hc : c w
    · by_cases hj : j = i <;> simp [mapGet, hc, hj, ih]
    · by_cases hj : j = i <;> simp [mapGet, hc, hj, ih]

/-- A bound window that a lost party is in is marked (R321). -/
theorem markLost_lostNow {lost : Nat → Bool} {s : State} {i : Nat} (hbound : winBound (winAt s i) = true)
    (hlost : (groupMembers s (winAt s i).desc).any lost = true) : (winAt (markLost lost s) i).lostNow = true := by
  have hmap : mapGet (markLost lost s).coll.wins i = _ :=
    mapGet_map_marked (fun w => winBound w && (groupMembers s w.desc).any lost) (fun w => { w with lostNow := true }) s.coll.wins i
  unfold winAt mapGetD at hbound hlost ⊢
  rw [hmap]
  cases hget : mapGet s.coll.wins i with
  | none =>
    rw [hget] at hbound
    exact absurd hbound (by decide)
  | some w =>
    rw [hget] at hbound hlost
    simp only [Option.getD_some] at hbound hlost
    simp only [Option.map_some, Option.getD_some, hbound, hlost, Bool.and_self, if_true]

theorem markLost_only (lost : Nat → Bool) (s : State) : Only [.coll] s (markLost lost s) := markLost_parts lost (List.Subset.refl _) (Only.refl _ s)

/-- The state in which step `k` begins. -/
def stepTagged (k : Nat) (s : State) : State := modMuster (fun m => { m with tag := (m.epoch, k) }) s

theorem musterStep_eq (s : State) (u : State) (hu : u = advanceTo (slotTick s.time.ft 131072 98304) s) : musterStep s =
    if takesPart u = true ∧ u.muster.decided = true ∧ lastStep u + 1 ≤ 4 then recoveryStep (lastStep u + 1) (stepTagged (lastStep u + 1) u)
    else u := by
  subst hu
  rfl

/-- Step 1 puts F and L in force for the routes. -/
theorem recoveryStep_one (s : State) : recoveryStep 1 s =
    { s with routes := { s.routes with lostGv := s.muster.failed, lostEp := s.muster.lost } } := rfl

/-- What every step but the first and the last leaves of the muster and the routes. -/
structure Recovering (s t : State) : Prop where
  muster : t.muster = { s.muster with marked := t.muster.marked }
  routes : t.routes = s.routes

theorem Recovering.of_only {l : List Part} {s t : State} (h : Only l s t) (hmuster : Part.muster ∉ l) (hroutes : Part.routes ∉ l) :
    Recovering s t := by
  have hm : t.muster = s.muster := h .muster hmuster
  exact ⟨by rw [hm], h .routes hroutes⟩

theorem recoveryStep_two (s : State) : Recovering s (recoveryStep 2 s) := by
  have hmark := markLost_only (partyLost s) s
  have hm : (markLost (partyLost s) s).muster = s.muster := hmark .muster (by decide)
  have hmarked : (recoveryStep 2 s).muster = { (markLost (partyLost s) s).muster with marked := (recoveryStep 2 s).muster.marked } := rfl
  refine ⟨?_, hmark .routes (by decide)⟩
  rw [hmarked, hm]

/-- The end-points lost in L leave the directory. -/
theorem recoveryStep_three (s : State) : Recovering s (recoveryStep 3 s) :=
  .of_only (forPorts_only (l := [.ports, .sw, .bep, .ep, .grotto, .mem, .dict, .host, .can, .log, .lantern, .pwr, .sent])
    (fun p u => Only.ite (loseMember_parts p.val (by decide) (Only.refl _ u)) (Only.refl _ u)) s) (by decide) (by decide)

/-- The last step ends the recovery. -/
theorem recoveryStep_four (s : State) : (recoveryStep 4 s).muster = { s.muster with decided := false } ∧ (recoveryStep 4 s).routes = s.routes := by
  have hlog := logEvent_only 0x7120 [s.muster.epoch, s.muster.failed.length, s.muster.lost.length]
    (modMuster (fun m => { m with decided := false }) s)
  exact ⟨hlog .muster (by decide), hlog .routes (by decide)⟩

/-! ### Census and re-admission (R467, R477) -/

/-- The muster turned on with this GV24 alone, or off. -/
def censusBegun (s : State) : State :=
  if odGet s 0x7120 1 = 1 then
    modMuster (fun m => { m with
      running := true, census := true, members := [ownNo s], change := [], views := [], missed := [], relayed := [], partitioned := false,
      changedB := false, differed := false }) s
  else modMuster (fun m => { m with running := false, census := false }) s

theorem musterCensus_of_armed {s : State} (h : odGet s 0x7120 2 ≠ 0) :
    musterCensus s = censusBegun (odSet 0x7120 2 0 (advanceTo (ceilTo 131072 (odGet s 0x7120 2)) s)) := if_neg h

theorem censusBegun_only (s : State) : Only [.muster] s (censusBegun s) := Only.ite (modMuster_only _ s) (modMuster_only _ s)

/-- The GV24s re-admitted. -/
def readmittedGvs (s : State) : List Nat := ((readmitted s).filter (fun x => x % 32 == 31)).map gvOf

theorem mem_readmittedGvs {s : State} {x : Nat} : x ∈ readmittedGvs s ↔ x * 32 + 31 ∈ readmitted s := by
  unfold readmittedGvs gvOf
  simp only [List.mem_map, List.mem_filter, beq_iff_eq]
  constructor
  · rintro ⟨c, ⟨hc, hgv⟩, rfl⟩
    have hcoord : c / 32 * 32 + 31 = c := by omega
    rwa [hcoord]
  · intro h
    exact ⟨x * 32 + 31, ⟨h, by omega⟩, by omega⟩

/-- The muster with the coordinates of OD 7120.08 re-admitted. -/
def membersBack (s : State) : State :=
  modMuster (fun m => { m with
    failed := m.failed.filter (fun x => !(readmittedGvs s).contains x), lost := m.lost.filter (fun x => !(readmitted s).contains x),
    members := unionAsc (readmittedGvs s) m.members, missed := m.missed.filter (fun x => !(readmittedGvs s).contains x) }) s

/-- The routes to the coordinates of OD 7120.08 opened again. -/
def routesBack (s : State) : State :=
  { membersBack s with routes := { s.routes with
      lostGv := s.routes.lostGv.filter (fun x => !(readmittedGvs s).contains x)
      lostEp := s.routes.lostEp.filter (fun x => !(readmitted s).contains x) } }

theorem readmission_of_armed {s : State} (h : odGet s 0x7120 9 ≠ 0) :
    readmission s = bump 0x7120 0x16 (routesBack (odSet 0x7120 9 0 (advanceTo (odGet s 0x7120 9) s))) := if_neg h

/-! ### The obligation's clauses -/

theorem takeMus_muster (p : PortN) (sub : Nat) (s : State) : (takeMus p sub s).muster = s.muster := (takeMus_takenOff p sub s).muster

theorem bringsNews_congr {s t : State} (h : t.muster = s.muster) (e : Nat) (f l : List Nat) : bringsNews e f l t = bringsNews e f l s := by
  unfold bringsNews
  rw [h]

/-- At the arm tick the entry that holds it is cleared. -/
theorem armCleared_entries {j : Nat} (i tick : Nat) (s : State) (h : j < 256) : OnlyEntries [(i, j)] s (odSet i j 0 (advanceTo tick s)) :=
  have hadvance : OnlyEntries [] s (advanceTo tick s) := (advanceTo_parts tick (List.Subset.refl _) (Only.refl _ s)).entries (by decide)
  (hadvance.mono (by simp)).trans (odSet_entries i j 0 (advanceTo tick s) h)

/-- What the census leaves, begun at its arm tick `u`. -/
theorem censusBegun_muster {s u : State} (hentries : OnlyEntries [(0x7120, 2)] s u) (hmuster : u.muster = s.muster) :
    (odGet s 0x7120 1 = 1 → (censusBegun u).muster = { s.muster with
      running := true, census := true, members := [ownNo s], change := [], views := [], missed := [], relayed := [], partitioned := false,
      changedB := false, differed := false }) ∧
    (odGet s 0x7120 1 ≠ 1 → (censusBegun u).muster = { s.muster with running := false, census := false }) := by
  have hown : ownNo u = ownNo s := by
    unfold ownNo
    rw [hentries 0x3000 1 (by decide) (by decide), hentries 0x3000 2 (by decide) (by decide)]
  have hon : odGet u 0x7120 1 = odGet s 0x7120 1 := hentries 0x7120 1 (by decide) (by decide)
  refine ⟨fun h1 => ?_, fun h1 => ?_⟩
  · rw [censusBegun, if_pos (hon.trans h1), modMuster_muster, hmuster, hown]
  · rw [censusBegun, if_neg (hon ▸ h1), modMuster_muster, hmuster]

theorem armCleared_muster (i j tick : Nat) (s : State) : (odSet i j 0 (advanceTo tick s)).muster = s.muster :=
  advanceTo_parts tick (List.Subset.refl _) (Only.refl _ s) .muster (by decide)

theorem census_clause {s : State} (h : odGet s 0x7120 2 ≠ 0) : ∃ t : State, exec .musterCensus s = .next t ∧ odGet t 0x7120 2 = 0 ∧
    t.time.ft = max s.time.ft (ceilTo 131072 (odGet s 0x7120 2)) ∧ OnlyEntries [(0x7120, 2)] s t ∧ Only [.time, .dict, .muster] s t ∧
    (odGet s 0x7120 1 = 1 → t.muster = { s.muster with
      running := true, census := true, members := [ownNo s], change := [], views := [], missed := [], relayed := [], partitioned := false,
      changedB := false, differed := false }) ∧
    (odGet s 0x7120 1 ≠ 1 → t.muster = { s.muster with running := false, census := false }) := by
  have hentries := armCleared_entries (j := 2) 0x7120 (ceilTo 131072 (odGet s 0x7120 2)) s (by decide)
  have honly := censusBegun_only (odSet 0x7120 2 0 (advanceTo (ceilTo 131072 (odGet s 0x7120 2)) s))
  have htime : (censusBegun (odSet 0x7120 2 0 (advanceTo (ceilTo 131072 (odGet s 0x7120 2)) s))).time = _ := honly .time (by decide)
  refine ⟨_, congrArg Host.Outcome.next (musterCensus_of_armed h), ?_, ?_, ?_, ?_, censusBegun_muster hentries (armCleared_muster ..)⟩
  · rw [odGet_of_only honly (by decide), odGet_odSet_same]
  · rw [htime, odSet_time, advanceTo_time, advanceTime_ft]
  · exact hentries.trans ((honly.entries (by decide)).mono (by simp))
  · exact (odSet_parts 0x7120 2 0 (by decide) (advanceTo_parts _ (by decide) (Only.refl _ s))).trans (honly.mono (by decide))

theorem viewOriginate_eq (s : State) (at_ : Nat) (hat : at_ = (if s.time.ft % 131072 < 65536
      then max s.time.ft (s.time.ft - s.time.ft % 131072 + 32768) else s.time.ft - s.time.ft % 131072 + 163840))
    (u : State) (hu : u = advanceTo at_ s) : viewOriginate s =
    if takesPart u = true ∧ u.muster.relayed.contains (coord u 31).toNat = false then
      floodMus 1 0 (viewBytes (ownView u false)) none (modMuster (fun m => { m with relayed := (coord u 31).toNat :: m.relayed }) u)
    else u := by
  have hsame : at_ = (if s.time.ft % 131072 < 32768 then s.time.ft - s.time.ft % 131072 + 32768
      else if s.time.ft % 131072 < 65536 then s.time.ft else s.time.ft - s.time.ft % 131072 + 131072 + 32768) := by
    rw [hat]
    split <;> split <;> omega
  unfold viewOriginate musterRound
  dsimp only
  rw [← hsame, ← hu]

theorem originate_clause (u : State) (s : State) (hexec : viewOriginate s =
    if takesPart u = true ∧ u.muster.relayed.contains (coord u 31).toNat = false then
      floodMus 1 0 (viewBytes (ownView u false)) none (modMuster (fun m => { m with relayed := (coord u 31).toNat :: m.relayed }) u)
    else u) :
    (takesPart u = false ∨ u.muster.relayed.contains (coord u 31).toNat = true → exec .viewOriginate s = .next u) ∧
    (takesPart u = true → u.muster.relayed.contains (coord u 31).toNat = false → ∃ t : State, exec .viewOriginate s = .next t ∧
      t.muster = { u.muster with relayed := (coord u 31).toNat :: u.muster.relayed } ∧ t.time = u.time ∧
      ∀ p : PortN, (musPort u p = false → t.port p = u.port p) ∧ (musPort u p = true → vc11Open u p = true →
        (t.port p).replay = (u.port p).replay ++ [((u.port p).nextSeq, musCell u p 1 0 (viewBytes (ownView u false)))])) := by
  rw [exec_viewOriginate, hexec]
  refine ⟨fun h => congrArg _ (if_neg fun g => ?_), fun htakes hnew => ?_⟩
  · rcases h with h | h
    · exact Bool.false_ne_true (h.symm.trans g.1)
    · exact Bool.false_ne_true (g.2.symm.trans h)
  · rw [if_pos ⟨htakes, hnew⟩]
    have honly := floodMus_only 1 0 (viewBytes (ownView u false)) none (modMuster (fun m => { m with relayed := (coord u 31).toNat :: m.relayed }) u)
    exact ⟨_, rfl, honly .muster (by decide), honly .time (by decide), fun p => floodMus_port 1 0 _ (modMuster _ u) p⟩

theorem unionAsc_nil (m : List Nat) : unionAsc [] m = m := rfl

theorem setsJoined_sets (p : PortN) (sub e : Nat) (payload : Bytes) (f l : List Nat) (k : Nat) (s : State) :
    (setsJoined p sub e payload f l (takeMus p k s)).muster.epoch = max s.muster.epoch e ∧
    (setsJoined p sub e payload f l (takeMus p k s)).muster.failed = unionAsc f s.muster.failed ∧
    (setsJoined p sub e payload f l (takeMus p k s)).muster.lost = unionAsc l s.muster.lost := by
  rw [setsJoined_muster, mergeSets_muster, ← takeMus_muster p k s]
  exact ⟨epochRaised_epoch e (takeMus p k s), rfl, rfl⟩

/-- FSET joins F and raises E; LOSS joins L and raises E, and a higher epoch is one to agree on (R472). -/
theorem sets_clause {s : State} {p : PortN} (htakes : takesPart s = true) (helig : musPort s p = true) (e : BitVec 32) (b : Bytes)
    (l : List (BitVec 16)) :
    (∃ t : State, exec (.fset p e b) s = .next t ∧ t.muster.epoch = max s.muster.epoch e.toNat ∧ t.muster.lost = s.muster.lost ∧
      (∀ x : Nat, x ∈ t.muster.failed ↔ x ∈ s.muster.failed ∨ x ∈ bitmapGvs (slice b 0 255))) ∧
    (∃ t : State, exec (.loss p e l) s = .next t ∧ t.muster.epoch = max s.muster.epoch e.toNat ∧ t.muster.failed = s.muster.failed ∧
      (∀ x : Nat, x ∈ t.muster.lost ↔ x ∈ s.muster.lost ∨ x ∈ l.map (fun c => c.toNat))) ∧
    (e.toNat ≤ s.muster.epoch → unionAsc (bitmapGvs (slice b 0 255)) s.muster.failed = s.muster.failed →
      exec (.fset p e b) s = .next (takeMus p 2 s)) ∧
    (s.muster.epoch < e.toNat → (phaseB s = true → ∃ t : State, exec (.loss p e l) s = .next t ∧ t.muster.changedB = true) ∧
      ∃ t : State, exec (.loss p e l) s = .next t ∧ t.muster.agreeing = true ∧ t.muster.decided = false ∧
        (s.muster.agreeing = false → t.muster.before = surviving s)) := by
  have htaken := takeMus_takenOff p 3 s
  rw [exec_fset, exec_loss, fsetReceive_of_part htakes helig, lossReceive_of_part htakes helig]
  refine ⟨⟨_, rfl, ?_⟩, ⟨_, rfl, ?_⟩, fun hold hknown => ?_, fun hnew => ?_⟩
  · obtain ⟨hepoch, hfailed, hlost⟩ := setsJoined_sets p 2 e.toNat (slice b 0 255) (bitmapGvs (slice b 0 255)) [] 2 s
    refine ⟨hepoch, hlost, fun x => ?_⟩
    rw [hfailed, mem_unionAsc, or_comm]
  · obtain ⟨hepoch, hfailed, hlost⟩ := setsJoined_sets p 3 e.toNat (lossBytes (l.map (fun c => c.toNat))) [] (l.map (fun c => c.toNat)) 3 s
    refine ⟨hepoch, hfailed, fun x => ?_⟩
    rw [hlost, mem_unionAsc, or_comm]
  · have hnews : bringsNews e.toNat (bitmapGvs (slice b 0 255)) [] s = false := by
      simp [bringsNews, hknown, unionAsc_nil, hold]
    rw [setsJoined_of_known (by rw [bringsNews_congr (takeMus_muster p 2 s), hnews])]
  · have hmuster := htaken.muster
    have hraised : (takeMus p 3 s).muster.epoch < e.toNat := by rwa [hmuster]
    have hnews : bringsNews e.toNat [] (l.map (fun c => c.toNat)) (takeMus p 3 s) = true := by
      simp [bringsNews, hraised]
    have hphase : phaseB (takeMus p 3 s) = phaseB s := by
      simp only [phaseB, htaken.time]
    refine ⟨fun hb => ⟨_, rfl, ?_⟩, _, rfl, ?_⟩
    · rw [setsJoined_muster, mergeSets_muster, hnews, hphase, hb]
      exact Bool.or_true _
    · rw [setsJoined_muster, mergeSets_muster, epochRaised_of_lt hraised, startEpoch_muster]
      refine ⟨rfl, rfl, fun hagree => ?_⟩
      rw [← hmuster] at hagree
      have hbefore : (epochStarted e.toNat (takeMus p 3 s)).before = surviving (takeMus p 3 s) := by
        rw [epochStarted, hagree]
        rfl
      refine hbefore.trans ?_
      unfold surviving
      rw [hmuster]

theorem roundJudged_missed (s : State) : (roundJudged s).muster.missed = s.muster.missed := by
  unfold roundJudged
  split
  · rw [floodSets_only _ .muster (by decide), changeFailed_muster, startEpoch_muster]
    rfl
  · split
    · split
      · rw [floodSets_only _ .muster (by decide), startEpoch_muster]
        rfl
      · rw [decideEpoch_muster]
    · rfl

/-- The window's end in an agreement round, apart from what it clears. -/
theorem round_clause {s : State} (hcensus : s.muster.census = false) :
    (windowJudged s).muster.missed = unseen s ∧
    ((unseen s).any (fun x => s.muster.missed.contains x) = true ∨ s.muster.change ≠ [] →
      (windowJudged s).muster.epoch = s.muster.epoch + 1 ∧ (windowJudged s).muster.agreeing = true ∧ (windowJudged s).muster.change = [] ∧
      (∀ x ∈ unseen s, x ∈ s.muster.missed → x ∈ (windowJudged s).muster.failed) ∧
      (∀ x ∈ s.muster.change, if x % 32 = 31 then x / 32 ∈ (windowJudged s).muster.failed else x ∈ (windowJudged s).muster.lost)) ∧
    ((unseen s).any (fun x => s.muster.missed.contains x) = false → s.muster.change = [] →
      (s.muster.agreeing = false → (windowJudged s).muster = { s.muster with change := [], missed := unseen s }) ∧
      (s.muster.agreeing = true →
        (s.muster.changedB = true ∨ s.muster.differed = true →
          (windowJudged s).muster.epoch = s.muster.epoch + 1 ∧ (windowJudged s).muster.agreeing = true) ∧
        (s.muster.changedB = false → s.muster.differed = false → (windowJudged s).muster =
          { s.muster with change := [], missed := unseen s, agreeing := false, decided := true, partitioned := s.muster.partitioned || tooFew s }))) := by
  rw [windowJudged_round hcensus]
  have hdetect := detectMissing_muster s
  have hchange : (detectMissing s).muster.change = changeDetected s := by rw [hdetect]
  by_cases hquiet : changeDetected s = []
  · have hnone := changeDetected_eq_nil.mp hquiet
    obtain ⟨hgone, hempty⟩ := hnone
    rw [hquiet] at hchange hdetect
    have hagrees : (detectMissing s).muster.agreeing = s.muster.agreeing := by rw [hdetect]
    refine ⟨?_, fun h => ?_, fun _ _ => ⟨fun hstill => ?_, fun hagree => ⟨fun hdiffer => ?_, fun hsame halike => ?_⟩⟩⟩
    · rw [roundJudged_missed, hdetect]
    · rcases h with h | h
      · exact absurd (hgone.symm.trans h) Bool.false_ne_true
      · exact absurd hempty h
    · rw [roundJudged_of_still hchange (hagrees.trans hstill), hdetect]
    · rw [roundJudged_muster_of_differed hchange (hagrees.trans hagree) (by rw [hdetect]; exact hdiffer), startEpoch_muster, hdetect]
      exact ⟨rfl, rfl⟩
    · rw [roundJudged_of_agreed hchange (hagrees.trans hagree) (by rw [hdetect]; exact hsame) (by rw [hdetect]; exact halike),
        decideEpoch_muster]
      have hfew : tooFew (detectMissing s) = tooFew s := by
        have hsurviving : surviving (detectMissing s) = surviving s := by
          simp only [surviving, hdetect]
        unfold tooFew
        rw [hsurviving, hdetect]
      rw [hfew, hdetect]
  · have hmuster := roundJudged_muster_of_change (s := detectMissing s) (by rwa [hchange])
    have hstarted := changeFailed_muster (detectMissing s)
    refine ⟨?_, fun _ => ?_, fun hgone hempty => absurd (changeDetected_eq_nil.mpr ⟨hgone, hempty⟩) hquiet⟩
    · rw [roundJudged_missed, hdetect]
    · have hparty {x : Nat} (hx : x ∈ changeDetected s) := changeFailed_party (s := detectMissing s) (hchange ▸ hx)
      rw [hmuster]
      refine ⟨?_, ?_, rfl, fun x hx hmissed => ?_, fun x hx => hparty (mem_changeDetected.mpr (.inl hx))⟩
      · rw [hstarted, startEpoch_muster, hdetect]
        rfl
      · rw [hstarted, startEpoch_muster]
        rfl
      · have hfailed := hparty (mem_changeDetected.mpr (.inr ⟨x, hx, hmissed, rfl⟩))
        have hmod : gvCoord x % 32 = 31 := by
          unfold gvCoord
          omega
        have hdiv : gvCoord x / 32 = x := by
          unfold gvCoord
          omega
        rwa [if_pos hmod, hdiv] at hfailed

/-- What a window's end clears. -/
def roundCleared (s : State) : State := modMuster (fun m => { m with views := [], relayed := [], changedB := false, differed := false }) s

theorem roundCleared_muster (s : State) : (roundCleared s).muster =
    { s.muster with views := [], relayed := [], changedB := false, differed := false } := rfl

theorem windowEnd_clause {s u : State} (hu : u = advanceTo (slotTick s.time.ft 131072 65536) s) :
    (takesPart u = false → exec .musterWindowEnd s = .next u) ∧
    (takesPart u = true → exec .musterWindowEnd s = .next (roundCleared (windowJudged u))) := by
  rw [exec_musterWindowEnd, musterWindowEnd_eq s u hu]
  refine ⟨fun h => congrArg _ (if_pos h), fun h => congrArg _ (if_neg ?_)⟩
  rw [h]
  decide

/-- MUSTER_RECOVERY_STEP completes step `k` (R474). -/
theorem recovery_clause {s u : State} (hu : u = advanceTo (slotTick s.time.ft 131072 98304) s) {k : Nat} (hk : k = lastStep u + 1) :
    (takesPart u = false ∨ u.muster.decided = false ∨ 4 < k → exec .musterRecoveryStep s = .next u) ∧
    (takesPart u = true → u.muster.decided = true → k ≤ 4 → ∃ t : State, exec .musterRecoveryStep s = .next t ∧
      t.muster.tag = (u.muster.epoch, k) ∧ t.muster.failed = u.muster.failed ∧ t.muster.lost = u.muster.lost ∧
      t.muster.decided = decide (k ≠ 4) ∧ (k = 1 → t.routes = { u.routes with lostGv := u.muster.failed, lostEp := u.muster.lost }) ∧
      (k = 2 → keysRise u.coll.wins = true → ∀ i : Nat, winBound (winAt u i) = true →
        (groupMembers u (winAt u i).desc).any (partyLost u) = true → (winAt t i).lostNow = true) ∧ (k ≠ 1 → t.routes = u.routes)) := by
  rw [exec_musterRecoveryStep, musterStep_eq s u hu, ← hk]
  refine ⟨fun h => congrArg _ (if_neg ?_), fun htakes hdecided hle => ⟨_, congrArg _ (if_pos ⟨htakes, hdecided, hle⟩), ?_⟩⟩
  · rintro ⟨htakes, hdecided, hle⟩
    rcases h with h | h | h
    · exact Bool.false_ne_true (h.symm.trans htakes)
    · exact Bool.false_ne_true (h.symm.trans hdecided)
    · omega
  · have hfour : k = 1 ∨ k = 2 ∨ k = 3 ∨ k = 4 := by omega
    rcases hfour with rfl | rfl | rfl | rfl
    · exact ⟨rfl, rfl, rfl, hdecided, fun _ => rfl, by simp, by simp⟩
    · obtain ⟨hmuster, hroutes⟩ := recoveryStep_two (stepTagged 2 u)
      rw [hmuster, hroutes]
      exact ⟨rfl, rfl, rfl, hdecided, by simp, fun _ _ i hbound hlost => markLost_lostNow (s := stepTagged 2 u) hbound hlost, fun _ => rfl⟩
    · obtain ⟨hmuster, hroutes⟩ := recoveryStep_three (stepTagged 3 u)
      rw [hmuster, hroutes]
      exact ⟨rfl, rfl, rfl, hdecided, by simp, by simp, fun _ => rfl⟩
    · obtain ⟨hmuster, hroutes⟩ := recoveryStep_four (stepTagged 4 u)
      rw [hmuster, hroutes]
      exact ⟨rfl, rfl, rfl, rfl, by simp, by simp, fun _ => rfl⟩

theorem readmission_clause {s : State} (h : odGet s 0x7120 9 ≠ 0) : ∃ t : State, exec .readmission s = .next t ∧ odGet t 0x7120 9 = 0 ∧
    t.time.ft = max s.time.ft (odGet s 0x7120 9) ∧ Only [.time, .routes, .dict, .muster] s t ∧
    t.routes = { s.routes with lostGv := t.routes.lostGv, lostEp := t.routes.lostEp } ∧
    (odGet s 0x7120 0x16 < 2 ^ 63 → odGet t 0x7120 0x16 = odGet s 0x7120 0x16 + 1) ∧
    (∀ x : Nat, x ∈ t.muster.lost ↔ x ∈ s.muster.lost ∧ x ∉ readmitted s) ∧
    (∀ x : Nat, x ∈ t.routes.lostEp ↔ x ∈ s.routes.lostEp ∧ x ∉ readmitted s) ∧
    (∀ x : Nat, x ∈ t.muster.failed ↔ x ∈ s.muster.failed ∧ x * 32 + 31 ∉ readmitted s) ∧
    (∀ x : Nat, x ∈ t.muster.members ↔ x ∈ s.muster.members ∨ x * 32 + 31 ∈ readmitted s) := by
  have honly := readmission_parts (List.Subset.refl _) (Only.refl _ s)
  have hback := readmission_of_armed h
  generalize hu : odSet 0x7120 9 0 (advanceTo (odGet s 0x7120 9) s) = u at hback
  have hl : readmitted u = readmitted s := by
    rw [← hu]
    rfl
  have hmuster : u.muster = s.muster := by
    rw [← hu, armCleared_muster]
  have hroutes : u.routes = s.routes := by
    rw [← hu]
    exact advanceTo_parts (odGet s 0x7120 9) (List.Subset.refl _) (Only.refl _ s) .routes (by decide)
  have hentries : OnlyEntries [(0x7120, 9)] s u := by
    rw [← hu]
    exact armCleared_entries 0x7120 _ s (by decide)
  refine ⟨_, rfl, ?_, ?_, honly, ?_, fun hroom => ?_, ?_⟩
  · rw [hback, odGet_bump_ne _ _ _ _ _ (by decide)]
    have hcleared : odGet u 0x7120 9 = 0 := by
      rw [← hu, odGet_odSet_same]
    exact hcleared
  · have htime : (readmission s).time = u.time := by
      rw [hback]
      rfl
    rw [htime, ← hu, odSet_time, advanceTo_time, advanceTime_ft]
  · rw [hback, ← hroutes]
    rfl
  · have hcount : odGet u 0x7120 0x16 = odGet s 0x7120 0x16 := hentries _ _ (by decide) (by decide)
    have hsame : odGet (routesBack u) 0x7120 0x16 = odGet u 0x7120 0x16 := rfl
    rw [hback, odGet_bump_same, hsame, hcount]
    omega
  · rw [hback, ← hmuster, ← hroutes, ← hl]
    refine ⟨fun x => ?_, fun x => ?_, fun x => ?_, fun x => ?_⟩
    · simp [routesBack, membersBack]
    · simp [routesBack]
    · simp [routesBack, membersBack, mem_readmittedGvs]
    · simp [routesBack, membersBack, mem_readmittedGvs, or_comm]

theorem ite_changeWith (b : Bool) (c : Nat) (l : List Nat) :
    (if b then changeWith c l else l) = if b && !l.contains c then l ++ [c] else l := by
  unfold changeWith
  cases b
  · rfl
  · cases l.contains c <;> rfl

/-- Settles O58: cells of the muster are taken off, relayed and joined by who takes part, and each end of a window and each step is
told by the muster it begins from. -/
theorem musterAgreesOnLosses : Obligations.MusterAgreesOnLosses := by
  unfold Obligations.MusterAgreesOnLosses
  refine fun s => ⟨fun h => ?unarmed, census_clause, fun at_ hat u hu => originate_clause u s (viewOriginate_eq s at_ hat u hu),
    fun p v e b l => ⟨fun h => ?idle, fun htakes helig => ⟨fun hown => ?own, fun hother => ?view, sets_clause htakes helig e b l⟩⟩,
    fun u hu => ⟨(windowEnd_clause hu).1, fun htakes => ?window⟩, fun u hu k hk => recovery_clause hu hk, fun h => ?unset, readmission_clause⟩
  case unarmed => exact congrArg Host.Outcome.next (if_pos h)
  case idle =>
    rw [exec_view, exec_fset, exec_loss, fsetReceive_of_idle h, lossReceive_of_idle h,
      viewReceive_of_idle (h.elim .inl (fun g => .inr (.inl g)))]
    exact ⟨rfl, rfl, rfl⟩
  case own => rw [exec_view, viewReceive_of_idle (.inr (.inr hown))]
  case view =>
    refine ⟨_, exec_view p v s, ?_⟩
    rw [viewReceive_muster htakes helig hother, ite_changeWith]
  case window =>
    refine ⟨_, (windowEnd_clause hu).2 htakes, windowJudged_time u, rfl, rfl, rfl, rfl, fun hcensus => ?_, fun hcensus gone hgone => ?_⟩
    · rw [roundCleared_muster, windowJudged_census hcensus]
      refine ⟨rfl, rfl, fun x => ?_⟩
      rw [mem_unionAsc, List.mem_singleton, or_comm]
    · subst hgone
      obtain ⟨hmissed, hchange, hquiet⟩ := round_clause hcensus
      refine ⟨hmissed, hchange, fun hnone hempty => ?_⟩
      obtain ⟨hstill, hagree⟩ := hquiet hnone hempty
      refine ⟨fun h => ?_, fun h => ⟨(hagree h).1, fun hsame halike => ?_⟩⟩
      · rw [roundCleared_muster, hstill h]
        exact ⟨rfl, rfl, rfl⟩
      · rw [roundCleared_muster, (hagree h).2 hsame halike]
        exact ⟨rfl, rfl, rfl, (Bool.or_assoc ..).symm⟩
  case unset => exact congrArg Host.Outcome.next (if_pos h)

end Sys2Proof.Machine
end

section
/-! SUPPORT. The abort code 0607_0010h, a wrong length, is given by the check of a write and by the BLOB entries alone: no operation
of an entry of fixed size, and nothing that such an operation sets off, ends with it (R385, R398). -/

namespace Sys2Proof.Machine

open Sys2Proof

/-- The operation has not ended as one of a wrong length. -/
structure Sized (s : State) : Prop where
  abort : s.dict.abort ≠ 0x06070010

/-- Every part of the state but the dictionary. -/
abbrev besideDict : List Part :=
  [.pending, .time, .ports, .sw, .routes, .bep, .ep, .grotto, .cal, .cmp, .coll, .xlat, .mem, .host, .can, .sec, .log, .lantern, .muster,
    .pwr, .resets, .sent, .free]

theorem Sized.of_abort {s t : State} (h : t.dict.abort = s.dict.abort) (g : Sized s) : Sized t := ⟨fun e => g.abort (h.symm.trans e)⟩

theorem Sized.of_dict {s t : State} (h : t.dict = s.dict) (g : Sized s) : Sized t := g.of_abort (congrArg Dict.abort h)

/-- What does not touch the dictionary leaves the outcome. -/
theorem Sized.of_frame {s t : State} (h : Only besideDict s t) (g : Sized s) : Sized t := g.of_dict (h .dict (by decide))

theorem Sized.ite {a b : State} {c : Prop} [Decidable c] (h : c → Sized a) (g : ¬c → Sized b) : Sized (if c then a else b) := by
  split
  · exact h ‹_›
  · exact g ‹_›

theorem Sized.dite {c : Prop} [Decidable c] {a : c → State} {b : ¬c → State} (h : ∀ x, Sized (a x)) (g : ∀ x, Sized (b x)) :
    Sized (dite c a b) := by
  split
  · exact h _
  · exact g _

theorem Sized.foldl {α : Type} {t : State} {f : State → α → State} (l : List α) (h : ∀ u x, Sized u → Sized (f u x)) (h0 : Sized t) :
    Sized (l.foldl f t) := by
  induction l generalizing t with
  | nil => exact h0
  | cons x r ih => exact ih (h t x h0)

theorem Sized.foldl_snd {α β : Type} {t : β × State} {f : β × State → α → β × State} (l : List α)
    (h : ∀ u x, Sized u.2 → Sized (f u x).2) (h0 : Sized t.2) : Sized (l.foldl f t).2 := by
  induction l generalizing t with
  | nil => exact h0
  | cons x r ih => exact ih (h t x h0)

theorem Sized.foldl_fst {α β : Type} {t : State × β} {f : State × β → α → State × β} (l : List α)
    (h : ∀ u x, Sized u.1 → Sized (f u x).1) (h0 : Sized t.1) : Sized (l.foldl f t).1 := by
  induction l generalizing t with
  | nil => exact h0
  | cons x r ih => exact ih (h t x h0)

theorem forPorts_sized {s : State} (f : PortN → State → State) (h : ∀ p u, Sized u → Sized (f p u)) (h0 : Sized s) : Sized (forPorts f s) :=
  Sized.foldl _ (fun u p => h p u) h0

theorem odSet_sized {s : State} (index sub v : Nat) (h : Sized s) : Sized (odSet index sub v s) :=
  .of_abort (odSet_dict_abort index sub v s) h

theorem beginOp_sized (s : State) : Sized (beginOp s) := ⟨(by decide : 0 ≠ 0x06070010)⟩

theorem refuseCondition_sized (s : State) : Sized (refuseCondition s) := ⟨(by decide : 0x08000022 ≠ 0x06070010)⟩

theorem refuseRule_sized (s : State) : Sized (refuseRule s) := ⟨(by decide : 0x08000020 ≠ 0x06070010)⟩

theorem endOp_denied_sized (s : State) : Sized (endOp 4 0x06010000 s) := ⟨(by decide : 0x06010000 ≠ 0x06070010)⟩

theorem Sized.sw_upd {s : State} (h : Sized s) {x} : Sized { s with sw := x } := ⟨h.abort⟩
theorem Sized.bep_upd {s : State} (h : Sized s) {x} : Sized { s with bep := x } := ⟨h.abort⟩
theorem Sized.ep_upd {s : State} (h : Sized s) {x} : Sized { s with ep := x } := ⟨h.abort⟩
theorem Sized.cmp_upd {s : State} (h : Sized s) {x} : Sized { s with cmp := x } := ⟨h.abort⟩
theorem Sized.mem_upd {s : State} (h : Sized s) {x} : Sized { s with mem := x } := ⟨h.abort⟩
theorem Sized.can_upd {s : State} (h : Sized s) {x} : Sized { s with can := x } := ⟨h.abort⟩
theorem Sized.log_upd {s : State} (h : Sized s) {x} : Sized { s with log := x } := ⟨h.abort⟩
theorem Sized.pwr_upd {s : State} (h : Sized s) {x} : Sized { s with pwr := x } := ⟨h.abort⟩
theorem Sized.resets_upd {s : State} (h : Sized s) {x} : Sized { s with resets := x } := ⟨h.abort⟩
/-! ### Counters, clamps and events -/

theorem bumpBy_sized {s : State} (index sub n w : Nat) (h : Sized s) : Sized (bumpBy index sub n w s) :=
  odSet_sized _ _ _ h

theorem bump_sized {s : State} (index sub : Nat) (h : Sized s) : Sized (bump index sub s) := bumpBy_sized _ _ _ _ h

theorem bumpN_sized {s : State} (index sub n : Nat) (h : Sized s) : Sized (bumpN index sub n s) := bumpBy_sized _ _ _ _ h

theorem report_sized {s : State} (src : Route) (index sub place kind original clamped : Nat) (h : Sized s) :
    Sized (report src index sub place kind original clamped s) := by
  unfold report
  extract_lets full u
  have hu : Sized u := by
    unfold u
    split
    · exact bump_sized 0x1F00 3 h
    · exact h
  exact Sized.of_dict (raiseCause_dict 9 _) ⟨hu.abort⟩

theorem clamped_sized {s : State} (src : Route) (index sub place original kept : Nat) (h : Sized s) :
    Sized (clamped src index sub place original kept s) :=
  ⟨(report_sized src index sub place 1 original kept h).abort⟩

theorem noted_sized {s : State} (src : Route) (index sub place kind original : Nat) (h : Sized s) :
    Sized (noted src index sub place kind original s) :=
  ⟨(report_sized src index sub place kind original 0 h).abort⟩

theorem keepScalar_sized {s : State} (src : Route) (index sub w v kept : Nat) (h : Sized s) :
    Sized (keepScalar src index sub w v kept s) := by
  unfold keepScalar
  repeat' with_reducible (first | assumption | apply Sized.ite | apply odSet_sized | apply clamped_sized | (intro _))

theorem onlyOne_sized {s : State} (src : Route) (index sub v : Nat) (h : Sized s) : Sized (onlyOne src index sub v s) := by
  unfold onlyOne
  repeat' with_reducible (first | assumption | apply Sized.ite | apply clamped_sized | (intro _))

theorem reportClamps_sized {s : State} (src : Route) (index sub : Nat) (l : List (Nat × Nat × Nat)) (h : Sized s) :
    Sized (reportClamps src index sub l s) := by
  unfold reportClamps
  repeat' with_reducible (first | assumption | apply clamped_sized | apply Sized.foldl | (intro _))

theorem keepTwo_sized {s : State} (src : Route) (index sub w v first second : Nat) (h : Sized s) :
    Sized (keepTwo src index sub w v first second s) := by
  unfold keepTwo
  repeat' with_reducible (first | assumption | apply Sized.ite | apply odSet_sized | apply clamped_sized | (intro _))

theorem keepArm_sized {s : State} (src : Route) (index sub v kept : Nat) (h : Sized s) : Sized (keepArm src index sub v kept s) := by
  unfold keepArm
  repeat' with_reducible (first | assumption | apply Sized.ite | apply odSet_sized | apply clamped_sized | (intro _))

theorem flushLog_sized {s : State} (h : Sized s) : Sized (flushLog s) := by
  unfold flushLog
  repeat' with_reducible (first | assumption | refine Sized.log_upd ?_)

theorem emit_sized {s : State} (o : Out) (h : Sized s) : Sized (emit o s) :=
  .of_frame (emit_parts o (by decide) (Only.refl _ s)) h

theorem emcy_sized {s : State} (err code seq : Nat) (h : Sized s) : Sized (emcy err code seq s) := by
  unfold emcy
  repeat' with_reducible (first
      | assumption | apply Sized.ite | apply bump_sized | apply emit_sized | (intro _) | refine Sized.can_upd ?_)

theorem raiseCause_sized {s : State} (n : Fin 64) (h : Sized s) : Sized (raiseCause n s) :=
  .of_frame (raiseCause_parts n (by decide) (Only.refl _ s)) h

theorem lookAlert_sized {s : State} (h : Sized s) : Sized (lookAlert s) := by
  unfold lookAlert
  repeat' with_reducible (first
      | assumption | apply Sized.ite | apply raiseCause_sized | apply emcy_sized | (intro _) | refine Sized.can_upd ?_
      | refine Sized.pwr_upd ?_)

theorem event_sized {s : State} (code tenant : Nat) (detail : List Nat) (h : Sized s) : Sized (event code tenant detail s) := by
  unfold event
  repeat' with_reducible (first
      | assumption | apply Sized.ite | apply bump_sized | apply flushLog_sized | apply emcy_sized | apply raiseCause_sized
      | apply emit_sized | apply lookAlert_sized | (intro _) | refine Sized.log_upd ?_)

theorem log_sized {s : State} (code : Nat) (detail : List Nat) (h : Sized s) : Sized (log code detail s) := by
  unfold log
  repeat' with_reducible (first | assumption | apply event_sized)

theorem countRefusal_sized {s : State} (detail : Nat) (h : Sized s) : Sized (countRefusal detail s) := by
  unfold countRefusal
  repeat' with_reducible (first | assumption | apply Sized.ite | apply bump_sized | (intro _))

theorem countBad_sized {s : State} (line : Nat) (h : Sized s) : Sized (countBad line s) := by
  unfold countBad
  repeat' with_reducible (first | assumption | apply log_sized | apply bump_sized)

/-! ### The attached memory, the resident BEP and contexts -/

theorem touchLine_sized {s : State} (line : Nat) (write : Bool) (t : TenantKey) (h : Sized s) : Sized (touchLine line write t s) :=
  .of_frame (touchLine_parts line write t (by decide) (Only.refl _ s)) h

theorem readLine_sized {s : State} (line : Nat) (t : TenantKey) (h : Sized s) : Sized (readLine line t s).2 := by
  unfold readLine
  dsimp only
  repeat' with_reducible (first | assumption | apply touchLine_sized | apply countBad_sized | split)

theorem putLine_sized {s : State} (line mask : Nat) (b : Bytes) (h : Sized s) : Sized (putLine line mask b s) :=
  .of_frame (putLine_parts line mask b (by decide) (Only.refl _ s)) h

theorem writeLine_sized {s : State} (line mask : Nat) (b : Bytes) (t : TenantKey) (h : Sized s) : Sized (writeLine line mask b t s).2 := by
  unfold writeLine
  dsimp only
  repeat' with_reducible (first
      | assumption | apply touchLine_sized | apply putLine_sized | apply countBad_sized | split | refine Sized.mem_upd ?_)

theorem bepSend_sized {s : State} (c : Cell) (h : Sized s) : Sized (bepSend c s) :=
  .of_frame (bepSend_parts c (by decide) (Only.refl _ s)) h

theorem closeRun_sized {s : State} (src : Nat) (h : Sized s) : Sized (closeRun src s) := by
  unfold closeRun
  repeat' with_reducible (first
      | assumption | apply bepSend_sized | apply bumpN_sized | apply bump_sized | split | refine Sized.bep_upd ?_)

theorem refuseCell_sized {s : State} (c answer : Cell) (h : Sized s) : Sized (refuseCell c answer s) := by
  unfold refuseCell
  repeat' with_reducible (first | assumption | apply bepSend_sized | apply closeRun_sized)

theorem exactRegionWrite_sized {s : State} (src : Route) (k v : Nat) : Sized (exactRegionWrite src k v s) := by
  unfold exactRegionWrite
  repeat' with_reducible (first
      | assumption | apply Sized.ite | exact beginOp_sized _ | apply odSet_sized | apply reportClamps_sized | (intro _)
      | refine Sized.bep_upd ?_)

theorem enterFaulted_sized {s : State} (k code detail : Nat) (h : Sized s) : Sized (enterFaulted k code detail s) := by
  unfold enterFaulted
  dsimp only
  split
  · have hset (c : Ctx) : Sized (setCtx k c s) := ⟨h.abort⟩
    refine event_sized _ _ _ (bump_sized 0x5003 2 ?_)
    split
    · exact bump_sized 0x5003 0x0A (hset _)
    · exact hset _
  · exact h

theorem modCtx_sized {s : State} (k : Nat) (f : Ctx → Ctx) (h : Sized s) : Sized (modCtx k f s) :=
  .of_frame (modCtx_parts k f (by decide) (Only.refl _ s)) h

theorem loseGang_sized {s : State} (k : Nat) (h : Sized s) : Sized (loseGang k s) := by
  unfold loseGang
  repeat' with_reducible (first
      | assumption | apply Sized.ite | apply modCtx_sized | apply enterFaulted_sized | apply Sized.foldl | (intro _))

theorem ctxFault_sized {s : State} (k code detail : Nat) (h : Sized s) : Sized (ctxFault k code detail s) := by
  unfold ctxFault
  repeat' with_reducible (first | assumption | apply loseGang_sized | apply enterFaulted_sized)

theorem modCopy_sized {s : State} (k : Nat) (f : Copy → Copy) (h : Sized s) : Sized (modCopy k f s) :=
  .of_frame (modCopy_parts k f (by decide) (Only.refl _ s)) h

theorem copyFailed_sized {s : State} (k : Nat) (read : Bool) (st : Status) (detail : Nat) (h : Sized s) :
    Sized (copyFailed k read st detail s) := by
  unfold copyFailed
  repeat' with_reducible (first | assumption | apply Sized.ite | apply modCopy_sized | apply ctxFault_sized | (intro _))

theorem failUse_sized {s : State} (use : Use) (cmd : BepCommand) (st : Status) (h : Sized s) : Sized (failUse use cmd st s) := by
  unfold failUse
  repeat' with_reducible (first
      | assumption | apply emit_sized | apply ctxFault_sized | apply copyFailed_sized | apply modCtx_sized | apply Sized.foldl
      | (intro _) | split)

theorem sendWaiting_sized {s : State} (fuel : Nat) (h : Sized s) : Sized (sendWaiting fuel s) := by
  induction fuel generalizing s with
  | zero => exact h
  | succ fuel ih =>
    unfold sendWaiting
    split
    · exact h
    · split
      · exact ih (failUse_sized _ _ _ (.of_frame (passFences_parts _ (by decide) (Only.refl _ _)) (Sized.ep_upd h)))
      · split
        · exact ih (.of_frame (sendCmd_parts _ (by decide) (Only.refl _ _)) (Sized.ep_upd h))
        · exact h

theorem pump_sized {s : State} (h : Sized s) : Sized (pump s) := by
  unfold pump
  repeat' with_reducible (first | assumption | apply sendWaiting_sized)

theorem submit_sized {s : State} (c : EpCmd) (h : Sized s) : Sized (submit c s) := by
  unfold submit
  repeat' with_reducible (first
      | assumption | apply failUse_sized | apply bump_sized | apply pump_sized | (intro _) | split | refine Sized.ep_upd ?_)

theorem setCount_sized {s : State} (dest n : Nat) (h : Sized s) : Sized (setCount dest n s) :=
  .of_frame (setCount_parts dest n (by decide) (Only.refl _ s)) h

/-! ### Time and the calendar -/

theorem roundLengthWrite_sized {s : State} (src : Route) (v : Nat) : Sized (roundLengthWrite src v s) := by
  unfold roundLengthWrite
  repeat' with_reducible (first
      | assumption | apply Sized.ite | exact beginOp_sized _ | exact refuseRule_sized _ | apply keepScalar_sized | (intro _))

theorem modTime_sized {s : State} (f : Time → Time) (h : Sized s) : Sized (modTime f s) :=
  .of_frame (modTime_parts f (by decide) (Only.refl _ s)) h

theorem roundArmWrite_sized {s : State} (src : Route) (v : Nat) : Sized (roundArmWrite src v s) := by
  unfold roundArmWrite
  repeat' with_reducible (first | assumption | exact beginOp_sized _ | apply keepArm_sized | apply modTime_sized)

theorem timeRoleWrite_sized {s : State} (src : Route) (v : Nat) : Sized (timeRoleWrite src v s) := by
  unfold timeRoleWrite
  repeat' with_reducible (first | assumption | apply modTime_sized | apply keepScalar_sized | exact beginOp_sized _)

theorem timeSourceWrite_sized {s : State} (src : Route) (v : Nat) : Sized (timeSourceWrite src v s) := by
  unfold timeSourceWrite
  repeat' with_reducible (first | assumption | apply modTime_sized | apply keepScalar_sized | exact beginOp_sized _)

theorem modCal_sized {s : State} (f : Calendar → Calendar) (h : Sized s) : Sized (modCal f s) :=
  .of_frame (modCal_parts f (by decide) (Only.refl _ s)) h

theorem modBankCal_sized {s : State} (b : Nat) (f : CalBank → CalBank) (h : Sized s) : Sized (modBankCal b f s) :=
  .of_frame (modBankCal_parts b f (by decide) (Only.refl _ s)) h

theorem refuseLoad_sized {s : State} (code : Nat) : Sized (refuseLoad code s) := by
  unfold refuseLoad
  repeat' with_reducible (first | assumption | exact refuseRule_sized _)

theorem calendarBegin_sized {s : State} (src : Route) (v : Nat) (h : Sized s) : Sized (calendarBegin src v s) := by
  unfold calendarBegin
  repeat' with_reducible (first
      | assumption | apply Sized.ite | exact refuseRule_sized _ | apply onlyOne_sized | apply modCal_sized | apply modBankCal_sized
      | (intro _))

theorem calendarData_sized {s : State} (data : Bytes) (h : Sized s) : Sized (calendarData data s) := by
  unfold calendarData
  repeat' with_reducible (first
      | assumption | apply Sized.ite | exact refuseRule_sized _ | apply refuseLoad_sized | apply modCal_sized | (intro _))

theorem sealRecord_sized {a : State × Sealing × Option Nat} (src : Route) (b : Bytes) (half : List Nat) (round o width pos : Nat)
    (h : Sized a.1) : Sized (sealRecord src b half round o width pos a).1 := by
  unfold sealRecord
  obtain ⟨s, g, last⟩ := a
  dsimp only at *
  repeat'
    with_reducible (first
      | assumption | apply Sized.ite | apply clamped_sized | apply noted_sized | (intro _) | split)

theorem sealSection_sized {a : State × Sealing} (src : Route) (b : Bytes) (half : List Nat) (round pos : Nat) (prev : Option Nat)
    (h : Sized a.1) : Sized (sealSection src b half round pos prev a).1 := by
  unfold sealSection
  obtain ⟨s, g⟩ := a
  dsimp only at *
  repeat'
    with_reducible (first
      | assumption | apply Sized.ite | apply clamped_sized | apply noted_sized | apply sealRecord_sized | apply Sized.foldl_fst
      | (intro _) | split)

theorem sealSections_sized {a : State × Sealing} (src : Route) (b : Bytes) (half : List Nat) (round : Nat) (l : List Nat) (prev : Option Nat)
    (h : Sized a.1) : Sized (sealSections src b half round l prev a).1 := by
  induction l generalizing prev a with
  | nil => exact h
  | cons pos r ih => exact ih _ (sealSection_sized src b half round pos prev h)

theorem sealOpen_sized {a : State × Sealing} (src : Route) (key : Nat) (e : Slot) (h : Sized a.1) : Sized (sealOpen src key e a).1 :=
  clamped_sized _ _ _ _ _ _ h

theorem sealCheck_sized {a : State × Sealing} (src : Route) (bad : NMap Slot → Nat → Slot → Bool) (h : Sized a.1) :
    Sized (sealCheck src bad a).1 := by
  unfold sealCheck
  generalize a.2.slots = l
  suffices ∀ acc : (State × Sealing) × NMap Slot, Sized acc.1.1 → Sized (l.foldl (fun (acc : (State × Sealing) × NMap Slot) e =>
      if bad acc.2 e.1 e.2 then (sealOpen src e.1 e.2 acc.1, acc.2) else (acc.1, acc.2 ++ [e])) acc).1.1 from this (a, []) h
  induction l with
  | nil => exact fun acc ha => ha
  | cons e r ih =>
    intro acc ha
    refine ih _ ?_
    dsimp only
    cases bad acc.2 e.1 e.2
    · exact ha
    · exact sealOpen_sized src e.1 e.2 ha

theorem sealHeader_sized {s : State} (src : Route) (b : Bytes) (h : Sized s) : Sized (sealHeader src b s).1 := by
  unfold sealHeader
  dsimp only
  repeat' with_reducible (first | assumption | apply clamped_sized | apply Sized.foldl | (intro _) | split)

theorem calendarSeal_sized {s : State} (src : Route) (v : Nat) (h : Sized s) : Sized (calendarSeal src v s) := by
  unfold calendarSeal
  repeat' with_reducible (first
      | assumption | apply Sized.ite | exact refuseRule_sized _ | apply refuseLoad_sized | apply onlyOne_sized | apply sealHeader_sized
      | apply sealSections_sized | apply sealCheck_sized | apply modBankCal_sized | apply modCal_sized | (intro _))

theorem calendarArm_sized {s : State} (src : Route) (v : Nat) (h : Sized s) : Sized (calendarArm src v s) := by
  unfold calendarArm
  repeat' with_reducible (first
      | assumption | apply Sized.ite | apply modCal_sized | apply odSet_sized | apply modBankCal_sized | exact refuseRule_sized _
      | apply keepArm_sized | (intro _))

theorem isolationWrite_sized {s : State} (src : Route) (v : Nat) (h : Sized s) : Sized (isolationWrite src v s) := by
  unfold isolationWrite
  repeat' with_reducible (first
      | assumption | apply Sized.ite | exact endOp_denied_sized _ | exact refuseRule_sized _ | apply keepScalar_sized | (intro _))

theorem selectorWrite_sized {s : State} (src : Route) (v : Nat) (h : Sized s) : Sized (selectorWrite src v s) := by
  unfold selectorWrite
  repeat' with_reducible (first | assumption | apply reportClamps_sized | apply odSet_sized)

/-! ### Windows and reductions -/

theorem modWin_sized {s : State} (i : Nat) (f : Win → Win) (h : Sized s) : Sized (modWin i f s) :=
  .of_frame (modWin_parts i f (by decide) (Only.refl _ s)) h

theorem setWin_sized {s : State} (i : Nat) (w : Win) (h : Sized s) : Sized (setWin i w s) :=
  .of_frame (setWin_parts i w (by decide) (Only.refl _ s)) h

theorem windowBind_sized {s : State} (src : Route) (i : Nat) (h : Sized s) : Sized (windowBind src i s) := by
  unfold windowBind
  dsimp only
  repeat' with_reducible (first | assumption | exact refuseRule_sized _ | apply setWin_sized | split)

theorem freeFormed_sized {s : State} (i : Nat) (h : Sized s) : Sized (freeFormed i s) := by
  unfold freeFormed
  repeat' with_reducible (first | assumption | apply modWin_sized | apply bumpN_sized)

theorem clearAccs_sized {s : State} (i : Nat) (h : Sized s) : Sized (clearAccs i s) :=
  .of_frame (clearAccs_parts i (by decide) (Only.refl _ s)) h

theorem unbind_sized {s : State} (i : Nat) (h : Sized s) : Sized (unbind i s) := by
  unfold unbind
  repeat' with_reducible (first | assumption | apply modWin_sized | apply freeFormed_sized | apply clearAccs_sized)

theorem windowUnbind_sized {s : State} (i : Nat) (h : Sized s) : Sized (windowUnbind i s) := by
  unfold windowUnbind
  repeat' with_reducible (first | assumption | apply Sized.ite | apply setWin_sized | apply unbind_sized | (intro _))

theorem windowWrite_sized {s : State} (src : Route) (i v : Nat) (h : Sized s) : Sized (windowWrite src i v s) := by
  unfold windowWrite
  repeat' with_reducible (first
      | assumption | apply Sized.ite | apply windowBind_sized | apply windowUnbind_sized | apply clamped_sized | (intro _))

theorem gridShapeWrite_sized {s : State} (src : Route) (g v : Nat) (h : Sized s) : Sized (gridShapeWrite src g v s) := by
  unfold gridShapeWrite
  repeat' with_reducible (first
      | assumption | apply Sized.ite | exact refuseRule_sized _ | apply odSet_sized | apply clamped_sized | apply Sized.foldl | (intro _))

theorem modColl_sized {s : State} (f : Coll → Coll) (h : Sized s) : Sized (modColl f s) :=
  .of_frame (modColl_parts f (by decide) (Only.refl _ s)) h

theorem gridMapWrite_sized {s : State} (g : Nat) (b : Bytes) (h : Sized s) : Sized (gridMapWrite g b s) := by
  unfold gridMapWrite
  repeat' with_reducible (first | assumption | apply Sized.ite | exact refuseRule_sized _ | apply modColl_sized | (intro _))

theorem reservationWrite_sized {s : State} (src : Route) (v : Nat) (h : Sized s) : Sized (reservationWrite src v s) := by
  unfold reservationWrite
  repeat' with_reducible (first | assumption | apply Sized.ite | exact refuseCondition_sized _ | apply keepTwo_sized | (intro _))

theorem ledgerFault_sized {s : State} (store index check : Nat) (h : Sized s) : Sized (ledgerFault store index check s) := by
  unfold ledgerFault
  repeat' with_reducible (first | assumption | apply Sized.ite | apply bump_sized | apply log_sized | (intro _) | refine Sized.sw_upd ?_)

/-! ### The switch and the routes -/

theorem setBuf_sized {s : State} (store index : Nat) (b : Buf) (h : Sized s) : Sized (setBuf store index b s) :=
  .of_frame (setBuf_parts store index b (by decide) (Only.refl _ s)) h

theorem addHolders_sized {s : State} (store index n : Nat) (h : Sized s) : Sized (addHolders store index n s).2 := by
  unfold addHolders
  repeat' with_reducible (first | assumption | apply Sized.ite | apply setBuf_sized | apply ledgerFault_sized | (intro _))

theorem freeBuf_sized {s : State} (store index : Nat) (h : Sized s) : Sized (freeBuf store index s) :=
  .of_frame (freeBuf_parts store index (by decide) (Only.refl _ s)) h

theorem releaseCopy_sized {s : State} (store index : Nat) (h : Sized s) : Sized (releaseCopy store index s) := by
  unfold releaseCopy
  repeat' with_reducible (first
      | assumption | apply Sized.ite | apply ledgerFault_sized | apply freeBuf_sized | apply setBuf_sized | (intro _))

theorem modPort_sized {s : State} (p : PortN) (f : Port → Port) (h : Sized s) : Sized (modPort p f s) :=
  .of_frame (modPort_parts p f (by decide) (Only.refl _ s)) h

theorem issueCell_sized {s : State} (p : PortN) (c : Cell) (h : Sized s) : Sized (issueCell p c s) := by
  unfold issueCell
  repeat' with_reducible (first | assumption | apply emit_sized | apply bump_sized | apply modPort_sized)

theorem modBank_sized {s : State} (b : Nat) (f : RouteBank → RouteBank) (h : Sized s) : Sized (modBank b f s) :=
  .of_frame (modBank_parts b f (by decide) (Only.refl _ s)) h

theorem routeEntryKeep_sized {s : State} (src : Route) (table i v : Nat) (h : Sized s) : Sized (routeEntryKeep src table i v s) := by
  unfold routeEntryKeep
  repeat' with_reducible (first | assumption | apply Sized.ite | apply reportClamps_sized | apply modBank_sized | (intro _))

theorem routeEntryWrite_sized {s : State} (src : Route) (table i v : Nat) : Sized (routeEntryWrite src table i v s) := by
  unfold routeEntryWrite
  repeat' with_reducible (first
      | assumption | apply Sized.ite | exact beginOp_sized _ | apply routeEntryKeep_sized | exact refuseRule_sized _ | (intro _))

theorem saltWrite_sized {s : State} (v : Nat) : Sized (saltWrite v s) := by
  unfold saltWrite
  repeat' with_reducible (first
      | assumption | apply Sized.ite | exact beginOp_sized _ | apply modBank_sized | exact refuseRule_sized _ | (intro _))

theorem ngroupsWrite_sized {s : State} (src : Route) (v : Nat) : Sized (ngroupsWrite src v s) := by
  unfold ngroupsWrite
  repeat' with_reducible (first
      | assumption | apply Sized.ite | exact beginOp_sized _ | apply modBank_sized | apply clamped_sized | exact refuseRule_sized _
      | (intro _))

theorem routeArmWrite_sized {s : State} (src : Route) (v : Nat) : Sized (routeArmWrite src v s) := by
  unfold routeArmWrite
  repeat' with_reducible (first
      | assumption | apply Sized.ite | exact beginOp_sized _ | apply odSet_sized | apply modBank_sized | exact refuseRule_sized _
      | apply keepArm_sized | (intro _))

theorem routeBankCopy_sized {s : State} (src : Route) (v : Nat) : Sized (routeBankCopy src v s) := by
  unfold routeBankCopy
  repeat' with_reducible (first
      | assumption | apply Sized.ite | exact beginOp_sized _ | exact refuseRule_sized _ | apply onlyOne_sized | apply modBank_sized
      | (intro _))

theorem setVoq_sized {s : State} (k : Nat) (l : List QEntry) (h : Sized s) : Sized (setVoq k l s) :=
  .of_frame (setVoq_parts k l (by decide) (Only.refl _ s)) h

theorem enqueue_sized {s : State} (input out store index : Nat) (c : Cell) (h : Sized s) : Sized (enqueue input out store index c s) := by
  unfold enqueue
  repeat' with_reducible (first | assumption | apply Sized.ite | apply addHolders_sized | apply setVoq_sized | (intro _))

theorem giveBack_sized {s : State} (store index : Nat) (h : Sized s) : Sized (giveBack store index s) := by
  unfold giveBack
  repeat' with_reducible (first | assumption | apply Sized.ite | apply freeBuf_sized | apply releaseCopy_sized | (intro _))

theorem countDropped_sized {s : State} (p : Nat) (h : Sized s) : Sized (countDropped p s) :=
  .of_frame (countDropped_parts p (by decide) (Only.refl _ s)) h

theorem forward_sized {s : State} (fr : From) (input store index : Nat) (c : Cell) (h : Sized s) :
    Sized (forward fr input store index c s) := by
  unfold forward
  repeat' with_reducible (first
      | assumption | apply enqueue_sized | apply giveBack_sized | apply bump_sized | apply countDropped_sized | split)

theorem answerIn_sized {s : State} (input store index : Nat) (c : Cell) (h : Sized s) : Sized (answerIn input store index c s) := by
  unfold answerIn
  repeat' with_reducible (first | assumption | apply forward_sized)

theorem answerFromReply_sized {s : State} (input : Nat) (c : Cell) (h : Sized s) : Sized (answerFromReply input c s) := by
  unfold answerFromReply
  repeat' with_reducible (first | assumption | apply answerIn_sized | apply setBuf_sized | split | refine Sized.sw_upd ?_)

theorem memberReset_sized {s : State} (e : CombEntry) (j : Joiner) (h : Sized s) : Sized (memberReset e j s) := by
  unfold memberReset
  repeat' with_reducible (first | assumption | apply bump_sized | apply answerFromReply_sized)

theorem flushEntries_sized {s : State} (o : Nat) (h : Sized s) : Sized (flushEntries o s) := by
  unfold flushEntries
  repeat' with_reducible (first | assumption | apply memberReset_sized | apply Sized.foldl | (intro _) | refine Sized.sw_upd ?_)

theorem flushCell_sized {s : State} (o input : Nat) (q : QEntry) (h : Sized s) : Sized (flushCell o input q s) := by
  unfold flushCell
  repeat' with_reducible (first
      | assumption | apply Sized.ite | apply bump_sized | apply answerIn_sized | apply giveBack_sized | (intro _))

theorem flushQueues_sized {s : State} (o : Nat) (h : Sized s) : Sized (flushQueues o s) := by
  unfold flushQueues
  repeat' with_reducible (first
      | assumption | apply flushEntries_sized | apply flushCell_sized | apply Sized.foldl | (intro _) | refine Sized.sw_upd ?_)

/-! ### The directory -/

theorem setDir_sized {s : State} (e : Nat) (d : DirEntry) (h : Sized s) : Sized (setDir e d s) :=
  .of_frame (setDir_parts e d (by decide) (Only.refl _ s)) h

theorem makeLost_sized {s : State} (e m : Nat) (h : Sized s) : Sized (makeLost e m s) := by
  unfold makeLost
  repeat' with_reducible (first | assumption | apply log_sized | apply bump_sized | apply setDir_sized)

theorem loseEntry_sized {s : State} (m e : Nat) (h : Sized s) : Sized (loseEntry m e s) := by
  unfold loseEntry
  repeat' with_reducible (first | assumption | apply Sized.ite | apply makeLost_sized | apply setDir_sized | (intro _) | split)

theorem applyWalks_sized {s : State} (e : Nat) (h : Sized s) : Sized (applyWalks e s) := by
  unfold applyWalks
  repeat' with_reducible (first | assumption | apply Sized.ite | apply loseEntry_sized | apply Sized.foldl | (intro _))

theorem modGrotto_sized {s : State} (f : Grotto → Grotto) (h : Sized s) : Sized (modGrotto f s) :=
  .of_frame (modGrotto_parts f (by decide) (Only.refl _ s)) h

theorem repairBlock_sized {s : State} (b : Nat) (h : Sized s) : Sized (repairBlock b s) := by
  unfold repairBlock
  repeat' with_reducible (first | assumption | apply log_sized | apply bump_sized | apply modGrotto_sized)

theorem dropBlock_sized {s : State} (x : Nat × Bool) (h : Sized s) : Sized (dropBlock x s) :=
  .of_frame (dropBlock_parts x (by decide) (Only.refl _ s)) h

theorem useBlock_sized {s : State} (e : Nat) (dirty : Bool) (h : Sized s) : Sized (useBlock e dirty s) := by
  unfold useBlock
  dsimp only
  repeat' with_reducible (first
      | assumption | apply modGrotto_sized | apply bump_sized | apply dropBlock_sized | apply readLine_sized | apply repairBlock_sized
      | (intro _) | split)

theorem writeDir_sized {s : State} (e : Nat) (d : DirEntry) (h : Sized s) : Sized (writeDir e d s) := by
  unfold writeDir
  repeat' with_reducible (first | assumption | apply useBlock_sized | apply setDir_sized)

theorem probe_sized {s : State} (m e kind : Nat) (h : Sized s) : Sized (probe m e kind s).2 := by
  unfold probe
  repeat' with_reducible (first | assumption | apply bump_sized | apply modGrotto_sized | apply enqueue_sized)

theorem probeAll_sized {s : State} (ms : List Nat) (e kind : Nat) (h : Sized s) : Sized (probeAll ms e kind s).2 := by
  unfold probeAll
  repeat' with_reducible (first | assumption | apply probe_sized | apply Sized.foldl_snd | (intro _))

theorem launch_sized {s : State} (cell : Cell) (cmd : BepCommand) (use : Use) (h : Sized s) : Sized (launch cell cmd use s) :=
  .of_frame (launch_parts cell cmd use (by decide) (Only.refl _ s)) h

theorem tagUsed_sized {s : State} (tag : Nat) (h : Sized s) : Sized (tagUsed tag s) :=
  .of_frame (tagUsed_parts tag (by decide) (Only.refl _ s)) h

theorem sendWriteBack_sized {s : State} (e : Nat) (data : Bytes) (h : Sized s) : Sized (sendWriteBack e data s).2 := by
  unfold sendWriteBack
  repeat' with_reducible (first | assumption | apply setCount_sized | apply bump_sized | apply launch_sized | apply tagUsed_sized)

theorem forwardRequest_sized {s : State} (input : Nat) (q : QEntry) (entry : Option Nat) (h : Sized s) :
    Sized (forwardRequest input q entry s) := by
  unfold forwardRequest
  repeat' with_reducible (first | assumption | apply Sized.ite | apply modGrotto_sized | apply enqueue_sized | (intro _))

theorem settle_sized {s : State} (e : Nat) (h : Sized s) : Sized (settle e s) :=
  .of_frame (settle_parts e (by decide) (Only.refl _ s)) h

theorem setBusy_sized {s : State} (e : Nat) (b : Busy) (h : Sized s) : Sized (setBusy e b s) :=
  .of_frame (setBusy_parts e b (by decide) (Only.refl _ s)) h

theorem windowRelease_sized {s : State} (c : Cell) (h : Sized s) : Sized (windowRelease c s) :=
  .of_frame (windowRelease_parts c (by decide) (Only.refl _ s)) h

theorem probesDone_sized {s : State} (e : Nat) (h : Sized s) : Sized (probesDone e s) := by
  unfold probesDone
  dsimp only
  repeat' with_reducible (first
      | assumption | apply writeDir_sized | apply settle_sized | apply bump_sized | apply setBusy_sized | apply sendWriteBack_sized
      | apply answerIn_sized | apply forwardRequest_sized | apply windowRelease_sized | (intro _) | split)

theorem probeAnswered_sized {s : State} (tag : Nat) (data : Option Bytes) (h : Sized s) : Sized (probeAnswered tag data s) := by
  unfold probeAnswered
  dsimp only
  repeat' with_reducible (first | assumption | apply modGrotto_sized | apply setBusy_sized | apply probesDone_sized | (intro _) | split)

theorem pumpWork_sized {s : State} (fuel : Nat) (h : Sized s) : Sized (pumpWork fuel s) := by
  induction fuel generalizing s with
  | zero => exact h
  | succ fuel ih =>
    unfold pumpWork
    split
    · exact h
    · next w _ =>
      dsimp only
      have hwalked := applyWalks_sized w.2.1 (modGrotto_sized (fun g => { g with work := g.work.erase w }) h)
      generalize applyWalks w.2.1 (modGrotto (fun g => { g with work := g.work.erase w }) s) = u at hwalked ⊢
      have hbusy (l : List Nat) (b : Busy) : Sized (setBusy w.2.1 b (probeAll l w.2.1 1 u).2) :=
        .of_frame (setBusy_parts _ _ (by decide) (Only.refl _ _)) (probeAll_sized _ _ _ hwalked)
      apply ih
      exact .ite (fun _ => probesDone_sized _ (hbusy _ _)) (fun _ => hbusy _ _)

theorem memberDrop_sized {s : State} (p : Nat) (h : Sized s) : Sized (memberDrop p s) := by
  unfold memberDrop
  repeat' with_reducible (first | assumption | apply Sized.ite | apply modGrotto_sized | apply emit_sized | apply Sized.foldl | (intro _))

theorem cleanProbes_sized {s : State} (m : Nat) (h : Sized s) : Sized (cleanProbes m s) := by
  unfold cleanProbes
  repeat' with_reducible (first | assumption | apply probeAnswered_sized | apply Sized.foldl | (intro _))

theorem loseMember_sized {s : State} (m : Nat) (h : Sized s) : Sized (loseMember m s) := by
  unfold loseMember
  repeat' with_reducible (first | assumption | apply Sized.ite | apply cleanProbes_sized | apply modGrotto_sized | (intro _))

theorem directoryEnable_sized {s : State} (src : Route) (v : Nat) : Sized (directoryEnable src v s) := by
  unfold directoryEnable
  repeat' with_reducible (first
      | assumption | apply Sized.ite | exact beginOp_sized _ | apply keepScalar_sized | apply modGrotto_sized | (intro _))

theorem directoryDisable_sized {s : State} : Sized (directoryDisable s) := by
  unfold directoryDisable
  repeat' with_reducible (first
      | assumption | apply Sized.ite | exact beginOp_sized _ | exact refuseRule_sized _ | apply odSet_sized | (intro _))

theorem recallWrite_sized {s : State} (src : Route) (v : Nat) : Sized (recallWrite src v s) := by
  unfold recallWrite
  repeat' with_reducible (first
      | assumption | apply Sized.ite | apply onlyOne_sized | exact beginOp_sized _ | apply pumpWork_sized | apply modGrotto_sized
      | (intro _))

theorem windowEntryWrite_sized {s : State} (src : Route) (k v : Nat) : Sized (windowEntryWrite src k v s) := by
  unfold windowEntryWrite
  repeat' with_reducible (first
      | assumption | apply Sized.ite | exact beginOp_sized _ | exact refuseCondition_sized _ | apply reportClamps_sized
      | apply odSet_sized | (intro _))

/-! ### Kernels -/

theorem modCmp_sized {s : State} (f : Compute → Compute) (h : Sized s) : Sized (modCmp f s) :=
  .of_frame (modCmp_parts f (by decide) (Only.refl _ s)) h

theorem kernelLoad_sized {s : State} (src : Route) (v : Nat) : Sized (kernelLoad src v s) := by
  unfold kernelLoad
  repeat' with_reducible (first
      | assumption | apply Sized.ite | exact beginOp_sized _ | exact refuseRule_sized _ | apply modCmp_sized | apply onlyOne_sized
      | (intro _))

theorem kernelUnload_sized {s : State} (kid : Nat) : Sized (kernelUnload kid s) := by
  unfold kernelUnload
  repeat' with_reducible (first
      | assumption | apply Sized.ite | exact beginOp_sized _ | exact refuseRule_sized _ | apply modCmp_sized | (intro _))

/-! ### Ports -/

theorem changeEndPoint_sized {s : State} (p : PortN) (h : Sized s) : Sized (changeEndPoint p s) :=
  .of_frame (changeEndPoint_parts p (by decide) (Only.refl _ s)) h

theorem markLostAt_sized {s : State} (c : BitVec 16) (h : Sized s) : Sized (markLostAt c s) :=
  .of_frame (markLostAt_parts c (by decide) (Only.refl _ s)) h

theorem flushPort_sized {s : State} (p : PortN) (h : Sized s) : Sized (flushPort p s) := by
  unfold flushPort
  repeat' with_reducible (first
      | assumption | apply Sized.ite | apply changeEndPoint_sized | apply loseMember_sized | apply flushQueues_sized
      | apply markLostAt_sized | (intro _))

theorem discardReplay_sized {s : State} (p : PortN) (h : Sized s) : Sized (discardReplay p s) := by
  unfold discardReplay
  repeat' with_reducible (first | assumption | apply bumpN_sized | apply modPort_sized)

theorem seqReset_sized {s : State} (p : PortN) (h : Sized s) : Sized (seqReset p s) := by
  unfold seqReset
  repeat' with_reducible (first
      | assumption | apply changeEndPoint_sized | apply memberDrop_sized | apply loseMember_sized | apply discardReplay_sized)

theorem toState_sized {s : State} (t : Train) (p : PortN) (h : Sized s) : Sized (toState t p s) :=
  .of_frame (toState_parts t p (by decide) (Only.refl _ s)) h

theorem noPartner_sized {s : State} (p : PortN) (h : Sized s) : Sized (noPartner p s) :=
  .of_frame (noPartner_parts p (by decide) (Only.refl _ s)) h

theorem toDisabled_sized {s : State} (p : PortN) (h : Sized s) : Sized (toDisabled p s) := by
  unfold toDisabled
  repeat' with_reducible (first | assumption | apply toState_sized | apply flushPort_sized | apply noPartner_sized | apply modPort_sized)

theorem toDetect_sized {s : State} (p : PortN) (h : Sized s) : Sized (toDetect p s) :=
  .of_frame (toDetect_parts p (by decide) (Only.refl _ s)) h

theorem wakePort_sized {s : State} (p : PortN) (h : Sized s) : Sized (wakePort p s) := by
  unfold wakePort
  repeat' with_reducible (first
      | assumption | apply seqReset_sized | apply noPartner_sized | apply modPort_sized | apply toDetect_sized | apply flushPort_sized)

theorem modLane_sized {s : State} (p : PortN) (l : LaneN) (f : Lane → Lane) (h : Sized s) : Sized (modLane p l f s) :=
  .of_frame (modLane_parts p l f (by decide) (Only.refl _ s)) h

theorem bitSlip_sized {s : State} (src : Route) (p : PortN) (l : LaneN) (v : Nat) (h : Sized s) : Sized (bitSlip src p l v s) := by
  unfold bitSlip
  repeat' with_reducible (first | assumption | apply Sized.ite | apply clamped_sized | apply modLane_sized | (intro _))

theorem advance_sized {s : State} (p : PortN) (m cause : Nat) {next : State → State} (hnext : ∀ u, Sized u → Sized (next u)) (h : Sized s) :
    Sized (advance p m cause next s) := by
  unfold advance
  dsimp only
  have hmarked := modPort_sized p (mapLanes (markOutside (m &&& unfailed (s.port p)) cause)) h
  exact .ite (fun _ => hnext _ hmarked) (fun _ => hmarked)

theorem sendTraining_sized {s : State} (p : PortN) (h : Sized s) : Sized (sendTraining p s) :=
  .of_frame (sendTraining_parts p (by decide) (Only.refl _ s)) h

theorem alignmentDone_sized {s : State} (src : Route) (p : PortN) (v : Nat) (h : Sized s) : Sized (alignmentDone src p v s) := by
  unfold alignmentDone
  repeat' with_reducible (first
      | assumption | apply Sized.ite | apply onlyOne_sized | apply advance_sized | apply sendTraining_sized | apply modPort_sized
      | apply toState_sized | (intro _))

theorem recheckCredits_sized {s : State} (src : Route) (p : PortN) (h : Sized s) : Sized (recheckCredits src p s) := by
  unfold recheckCredits
  repeat' with_reducible (first | assumption | apply Sized.ite | apply clamped_sized | apply odSet_sized | apply Sized.foldl | (intro _))

theorem roleWrite_sized {s : State} (src : Route) (p : PortN) (v : Nat) (h : Sized s) : Sized (roleWrite src p v s) := by
  unfold roleWrite
  repeat' with_reducible (first
      | assumption | apply Sized.ite | exact refuseCondition_sized _ | apply keepTwo_sized | apply clamped_sized | apply odSet_sized
      | apply recheckCredits_sized | apply toDisabled_sized | apply wakePort_sized | (intro _))

theorem mediumWrite_sized {s : State} (src : Route) (p : PortN) (v : Nat) (h : Sized s) : Sized (mediumWrite src p v s) := by
  unfold mediumWrite
  repeat' with_reducible (first | assumption | apply Sized.ite | exact refuseCondition_sized _ | apply keepTwo_sized | (intro _))

theorem creditWrite_sized {s : State} (src : Route) (p : PortN) (vc v : Nat) (h : Sized s) : Sized (creditWrite src p vc v s) := by
  unfold creditWrite
  repeat' with_reducible (first | assumption | apply Sized.ite | apply keepScalar_sized | exact refuseRule_sized _ | (intro _))

theorem tenantShareWrite_sized {s : State} (src : Route) (t v : Nat) (h : Sized s) : Sized (tenantShareWrite src t v s) := by
  unfold tenantShareWrite
  repeat' with_reducible (first | assumption | apply keepScalar_sized | apply Sized.foldl | (intro _))

theorem toExchange_sized {s : State} (p : PortN) (h : Sized s) : Sized (toExchange p s) :=
  .of_frame (toExchange_parts p (by decide) (Only.refl _ s)) h

theorem coordinateCommit_sized {s : State} (src : Route) (v : Nat) (h : Sized s) : Sized (coordinateCommit src v s) := by
  unfold coordinateCommit
  repeat' with_reducible (first
      | assumption | apply Sized.ite | exact refuseCondition_sized _ | apply keepScalar_sized | apply forPorts_sized
      | apply toExchange_sized | (intro _))

/-! ### Core caches and address translation -/

theorem arraySubmit_sized {s : State} (use : Use) (cmd : BepCommand) (phys : Nat) (h : Sized s) : Sized (arraySubmit use cmd phys s) := by
  unfold arraySubmit
  repeat' with_reducible (first | assumption | apply submit_sized | refine Sized.cmp_upd ?_)

theorem fabricWrite_sized {s : State} (use : Use) (tenant pasid line mask : Nat) (b : Bytes) (h : Sized s) :
    Sized (fabricWrite use tenant pasid line mask b s) := by
  unfold fabricWrite
  repeat' with_reducible (first | assumption | apply arraySubmit_sized)

theorem localWrite_sized {s : State} (core mask tenant line bytes : Nat) (b : Bytes) (h : Sized s) :
    Sized (localWrite core mask tenant line bytes b s) := by
  unfold localWrite
  repeat' with_reducible (first
      | assumption | apply Sized.ite | apply ctxFault_sized | apply countRefusal_sized | apply writeLine_sized | apply Sized.foldl
      | (intro _) | split)

theorem setCache_sized {s : State} (k : Nat) (l : CLine) (h : Sized s) : Sized (setCache k l s) :=
  .of_frame (setCache_parts k l (by decide) (Only.refl _ s)) h

theorem dropCache_sized {s : State} (k : Nat) (h : Sized s) : Sized (dropCache k s) :=
  .of_frame (dropCache_parts k (by decide) (Only.refl _ s)) h

theorem writeBackLine_sized {s : State} (k : Nat) (h : Sized s) : Sized (writeBackLine k s) := by
  unfold writeBackLine
  repeat' with_reducible (first
      | assumption | apply setCache_sized | apply dropCache_sized | apply localWrite_sized | apply fabricWrite_sized | (intro _) | split)

theorem modXlat_sized {s : State} (f : Xlat → Xlat) (h : Sized s) : Sized (modXlat f s) :=
  .of_frame (modXlat_parts f (by decide) (Only.refl _ s)) h

theorem acceptInval_sized {s : State} (itag : Nat) (host : Bool) (pasid : Option Nat) (base n : Nat) (h : Sized s) :
    Sized (acceptInval itag host pasid base n s) := by
  unfold acceptInval
  repeat' with_reducible (first | assumption | apply modXlat_sized | apply writeBackLine_sized | apply bump_sized | apply Sized.foldl)

theorem endInval_sized {s : State} (v : Inval) (h : Sized s) : Sized (endInval v s) := by
  unfold endInval
  repeat' with_reducible (first | assumption | apply Sized.ite | apply bump_sized | apply modXlat_sized | apply emit_sized | (intro _))

theorem settleInvals_sized {s : State} (h : Sized s) : Sized (settleInvals s) := by
  unfold settleInvals
  dsimp only
  repeat' with_reducible (first
      | assumption | apply endInval_sized | apply acceptInval_sized | apply modXlat_sized | apply Sized.foldl | (intro _) | split)

theorem invalidateEvery_sized {s : State} (h : Sized s) : Sized (invalidateEvery s) := by
  unfold invalidateEvery
  repeat' with_reducible (first | assumption | apply settleInvals_sized | apply acceptInval_sized)

theorem invalidateAll_sized {s : State} (src : Route) (v : Nat) : Sized (invalidateAll src v s) := by
  unfold invalidateAll
  repeat' with_reducible (first | assumption | apply invalidateEvery_sized | apply onlyOne_sized | exact beginOp_sized _)

theorem closeEntries_sized {s : State} (regions : List (Nat × Nat)) (h : Sized s) : Sized (closeEntries regions s) := by
  unfold closeEntries
  repeat' with_reducible (first | assumption | apply settleInvals_sized | apply acceptInval_sized | apply Sized.foldl | (intro _))

theorem directoryWrite_sized {s : State} (src : Route) (v : Nat) : Sized (directoryWrite src v s) := by
  unfold directoryWrite
  repeat' with_reducible (first
      | assumption | apply Sized.ite | apply directoryDisable_sized | apply directoryEnable_sized | apply closeEntries_sized | (intro _))

/-! ### The resets of the domains -/

theorem discardDirty_sized {s : State} (k : Nat) (h : Sized s) : Sized (discardDirty k s) :=
  .of_frame (discardDirty_parts k (by decide) (Only.refl _ s)) h

theorem stopCtx_sized {s : State} (k : Nat) (st : CtxState) (h : Sized s) : Sized (stopCtx k st s) := by
  unfold stopCtx
  repeat' with_reducible (first | assumption | apply loseGang_sized | apply discardDirty_sized | apply modCtx_sized)

theorem abortCtx_sized {s : State} (k : Nat) (h : Sized s) : Sized (abortCtx k s) := by
  unfold abortCtx
  repeat' with_reducible (first | assumption | apply Sized.ite | apply stopCtx_sized | (intro _))

theorem abortAll_sized {s : State} (domain target : Nat) (h : Sized s) : Sized (abortAll domain target s) := by
  unfold abortAll
  repeat' with_reducible (first | assumption | apply abortCtx_sized | apply Sized.foldl | (intro _))

theorem clearCore_sized {s : State} (core : Nat) (h : Sized s) : Sized (clearCore core s) :=
  .of_frame (clearCore_parts core (by decide) (Only.refl _ s)) h

theorem resetCore_sized {s : State} (core : Nat) (h : Sized s) : Sized (resetCore core s) := by
  unfold resetCore
  repeat' with_reducible (first | assumption | apply clearCore_sized | apply abortAll_sized)

theorem failStep_sized {s : State} (i cause : Nat) (chunk : Option Nat) (h : Sized s) : Sized (failStep i cause chunk s) :=
  .of_frame (failStep_parts i cause chunk (by decide) (Only.refl _ s)) h

theorem resetCluster_sized {s : State} (k : Nat) (h : Sized s) : Sized (resetCluster k s) := by
  unfold resetCluster
  repeat' with_reducible (first
      | assumption | apply Sized.ite | apply clearCore_sized | apply abortAll_sized | apply failStep_sized | apply Sized.foldl
      | (intro _))

theorem dropTenantCells_sized {s : State} (t : Nat) (h : Sized s) : Sized (dropTenantCells t s) := by
  unfold dropTenantCells
  repeat' with_reducible (first | assumption | apply giveBack_sized | apply Sized.foldl | (intro _) | refine Sized.sw_upd ?_)

theorem abortTenant_sized {s : State} (t : Nat) (h : Sized s) : Sized (abortTenant t s) := by
  unfold abortTenant
  repeat' with_reducible (first
      | assumption | apply Sized.ite | apply abortAll_sized | apply modCal_sized | apply modWin_sized | apply failStep_sized
      | apply dropTenantCells_sized | apply Sized.foldl | (intro _))

theorem resetPort_sized {s : State} (p : PortN) (h : Sized s) : Sized (resetPort p s) := by
  unfold resetPort
  repeat' with_reducible (first | assumption | apply Sized.ite | apply toDisabled_sized | apply wakePort_sized | (intro _))

theorem resetCrossbar_sized {s : State} (h : Sized s) : Sized (resetCrossbar s) :=
  .of_frame (resetCrossbar_parts (by decide) (Only.refl _ s)) h

theorem resetEffect_sized {s : State} (r : ResetRun) (h : Sized s) : Sized (resetEffect r s) := by
  unfold resetEffect
  repeat' with_reducible (first
      | assumption | apply resetCrossbar_sized | apply abortTenant_sized | apply resetCluster_sized | apply resetCore_sized
      | apply abortAll_sized | apply resetPort_sized | (intro _) | split)

theorem resetDone_sized {s : State} (r : ResetRun) (h : Sized s) : Sized (resetDone r s) := by
  unfold resetDone
  repeat' with_reducible (first | assumption | apply log_sized | apply bump_sized | refine Sized.resets_upd ?_)

theorem beginReset_sized {s : State} (r : ResetRun) (h : Sized s) : Sized (beginReset r s) := by
  unfold beginReset
  repeat' with_reducible (first
      | assumption | apply Sized.ite | apply resetEffect_sized | apply resetDone_sized | (intro _) | refine Sized.resets_upd ?_)

theorem sendMus_sized {s : State} (sub aux : Nat) (payload : Bytes) (p : PortN) (h : Sized s) : Sized (sendMus sub aux payload p s) := by
  unfold sendMus
  repeat' with_reducible (first | assumption | apply Sized.ite | apply issueCell_sized | apply enqueue_sized | (intro _))

theorem floodMus_sized {s : State} (sub aux : Nat) (payload : Bytes) (but : Option PortN) (h : Sized s) :
    Sized (floodMus sub aux payload but s) := by
  unfold floodMus
  repeat' with_reducible (first | assumption | apply Sized.ite | apply forPorts_sized | apply sendMus_sized | (intro _))

theorem sendResetting_sized {s : State} (h : Sized s) : Sized (sendResetting s) := by
  unfold sendResetting
  repeat' with_reducible (first | assumption | apply Sized.ite | apply floodMus_sized | (intro _))

/-! ### Shards, bundles and the resets of the device -/

theorem setShard_sized {s : State} (j : Nat) (x : Shard) (h : Sized s) : Sized (setShard j x s) :=
  .of_frame (setShard_parts j x (by decide) (Only.refl _ s)) h

theorem shardEnable_sized {s : State} (j : Nat) (h : Sized s) : Sized (shardEnable j s) := by
  unfold shardEnable
  repeat' with_reducible (first
      | assumption | apply Sized.ite | exact refuseRule_sized _ | apply setShard_sized | apply closeEntries_sized | (intro _))

theorem clearRegion_sized {s : State} (off n : Nat) (h : Sized s) : Sized (clearRegion off n s) :=
  .of_frame (clearRegion_parts off n (by decide) (Only.refl _ s)) h

theorem shardDisable_sized {s : State} (j : Nat) (h : Sized s) : Sized (shardDisable j s) := by
  unfold shardDisable
  repeat' with_reducible (first
      | assumption | apply Sized.ite | exact refuseRule_sized _ | apply clearRegion_sized | apply setShard_sized | apply Sized.foldl
      | (intro _))

theorem shardWrite_sized {s : State} (src : Route) (j v : Nat) : Sized (shardWrite src j v s) := by
  unfold shardWrite
  repeat' with_reducible (first
      | assumption | apply Sized.ite | exact beginOp_sized _ | apply shardDisable_sized | apply shardEnable_sized | apply clamped_sized
      | (intro _))

theorem modSec_sized {s : State} (f : Sec → Sec) (h : Sized s) : Sized (modSec f s) :=
  .of_frame (modSec_parts f (by decide) (Only.refl _ s)) h

theorem bundleBind_sized {s : State} (src : Route) (v : Nat) : Sized (bundleBind src v s) := by
  unfold bundleBind
  repeat' with_reducible (first
      | assumption | apply Sized.ite | exact beginOp_sized _ | exact refuseRule_sized _ | apply modSec_sized | apply onlyOne_sized
      | (intro _))

theorem enterCold_sized (s : State) : Sized (enterCold s) := ⟨(by decide : 0 ≠ 0x06070010)⟩

theorem wakePorts_sized {s : State} (h : Sized s) : Sized (wakePorts s) := by
  unfold wakePorts
  repeat' with_reducible (first | assumption | apply Sized.ite | apply forPorts_sized | apply wakePort_sized | (intro _))

theorem modPwr_sized {s : State} (f : Power → Power) (h : Sized s) : Sized (modPwr f s) :=
  .of_frame (modPwr_parts f (by decide) (Only.refl _ s)) h

theorem finishCold_sized {s : State} (cause : Nat) (h : Sized s) : Sized (finishCold cause s) := by
  unfold finishCold
  repeat' with_reducible (first
      | assumption | apply Sized.ite | apply modPwr_sized | apply raiseCause_sized | apply modSec_sized | apply log_sized
      | apply forPorts_sized | apply modPort_sized | apply resetDone_sized | apply wakePorts_sized | (intro _) | refine Sized.mem_upd ?_)

theorem coldReset_sized {s : State} (cause : Nat) : Sized (coldReset cause s) := by
  unfold coldReset
  repeat' with_reducible (first | assumption | apply Sized.ite | exact enterCold_sized _ | apply finishCold_sized | (intro _))

theorem stopManagement_sized {s : State} (h : Sized s) : Sized (stopManagement s) := by
  have hstopped : Sized (modSec (fun c => { c with bindRunning := false }) (dropSessions (abandonFirmware (abandonMailbox s)))) :=
    .of_frame (modSec_parts _ (by decide) (dropSessions_parts (by decide) (abandonFirmware_parts (by decide)
      (abandonMailbox_parts (by decide) (Only.refl _ s))))) h
  exact ⟨hstopped.abort⟩

theorem modResets_sized {s : State} (f : Resets → Resets) (h : Sized s) : Sized (modResets f s) :=
  .of_frame (modResets_parts f (by decide) (Only.refl _ s)) h

theorem managementReset_sized {s : State} (r : ResetRun) (h : Sized s) : Sized (managementReset r s) := by
  unfold managementReset
  repeat' with_reducible (first | assumption | apply log_sized | apply stopManagement_sized | apply modResets_sized)

theorem answerQueued_sized {s : State} (h : Sized s) : Sized (answerQueued s) := by
  unfold answerQueued
  repeat' with_reducible (first
      | assumption | apply answerIn_sized | apply modGrotto_sized | apply refuseCell_sized | apply Sized.foldl | (intro _)
      | refine Sized.sw_upd ?_ | refine Sized.bep_upd ?_)

theorem startWarm_sized {s : State} (r : ResetRun) (h : Sized s) : Sized (startWarm r s) := by
  unfold startWarm
  repeat' with_reducible (first
      | assumption | apply answerQueued_sized | apply sendResetting_sized | apply modResets_sized | apply modPwr_sized)

theorem startReset_sized {s : State} (r : ResetRun) (h : Sized s) : Sized (startReset r s) := by
  unfold startReset
  repeat' with_reducible (first
      | assumption | apply Sized.ite | apply coldReset_sized | apply startWarm_sized | apply managementReset_sized
      | apply beginReset_sized | (intro _))

theorem requestReset_sized {s : State} (r : ResetRun) (h : Sized s) : Sized (requestReset r s) := by
  unfold requestReset
  repeat' with_reducible (first | assumption | apply Sized.ite | apply modResets_sized | apply startReset_sized | (intro _))

theorem resetWrite_sized {s : State} (src : Route) (sub v : Nat) : Sized (resetWrite src sub v s) := by
  unfold resetWrite
  repeat' with_reducible (first
      | assumption | apply Sized.ite | exact beginOp_sized _ | exact endOp_denied_sized _ | exact refuseRule_sized _
      | apply clamped_sized | apply requestReset_sized | (intro _))

/-! ### Entries with a rule of their own -/

theorem eventAcknowledge_sized {s : State} (v : Nat) (h : Sized s) : Sized (eventAcknowledge v s) := by
  unfold eventAcknowledge
  repeat' with_reducible (first | assumption | apply lookAlert_sized | refine Sized.log_upd ?_)

theorem thresholdWrite_sized {s : State} (src : Route) (sub v : Nat) (h : Sized s) : Sized (thresholdWrite src sub v s) := by
  unfold thresholdWrite
  repeat' with_reducible (first | assumption | apply keepTwo_sized)

theorem requestTimeoutWrite_sized {s : State} (src : Route) (v : Nat) (h : Sized s) : Sized (requestTimeoutWrite src v s) := by
  unfold requestTimeoutWrite
  repeat' with_reducible (first | assumption | apply keepTwo_sized)

theorem exactPoolWrite_sized {s : State} (src : Route) (v : Nat) (h : Sized s) : Sized (exactPoolWrite src v s) := by
  unfold exactPoolWrite
  repeat' with_reducible (first | assumption | apply Sized.ite | exact refuseCondition_sized _ | apply keepScalar_sized | (intro _))

theorem minWindowWrite_sized {s : State} (src : Route) (v : Nat) (h : Sized s) : Sized (minWindowWrite src v s) := by
  unfold minWindowWrite
  repeat' with_reducible (first | assumption | apply keepTwo_sized)

theorem forwardTimeoutWrite_sized {s : State} (src : Route) (v : Nat) (h : Sized s) : Sized (forwardTimeoutWrite src v s) := by
  unfold forwardTimeoutWrite
  repeat' with_reducible (first | assumption | apply keepTwo_sized)

theorem kernelPoolWrite_sized {s : State} (src : Route) (v : Nat) (h : Sized s) : Sized (kernelPoolWrite src v s) := by
  unfold kernelPoolWrite
  repeat' with_reducible (first | assumption | apply Sized.ite | exact refuseCondition_sized _ | apply keepTwo_sized | (intro _))

theorem tenancyWrite_sized {s : State} (src : Route) (core v : Nat) (h : Sized s) : Sized (tenancyWrite src core v s) := by
  unfold tenancyWrite
  repeat' with_reducible (first | assumption | apply Sized.ite | exact refuseCondition_sized _ | apply keepScalar_sized | (intro _))

theorem xlatSelectorWrite_sized {s : State} (src : Route) (v : Nat) (h : Sized s) : Sized (xlatSelectorWrite src v s) := by
  unfold xlatSelectorWrite
  repeat' with_reducible (first | assumption | apply reportClamps_sized | apply odSet_sized)

theorem wayWrite_sized {s : State} (src : Route) (t v : Nat) (h : Sized s) : Sized (wayWrite src t v s) := by
  unfold wayWrite
  repeat' with_reducible (first
      | assumption | apply Sized.ite | exact refuseRule_sized _ | apply keepTwo_sized | apply keepScalar_sized | apply Sized.foldl
      | (intro _))

theorem coordinateWrite_sized {s : State} (src : Route) (sub v limit : Nat) (h : Sized s) : Sized (coordinateWrite src sub v limit s) := by
  unfold coordinateWrite
  repeat' with_reducible (first | assumption | apply Sized.ite | exact refuseCondition_sized _ | apply keepScalar_sized | (intro _))

theorem eventTimeWrite_sized {s : State} (src : Route) (sub v : Nat) (h : Sized s) : Sized (eventTimeWrite src sub v s) := by
  unfold eventTimeWrite
  repeat' with_reducible (first | assumption | apply keepScalar_sized)

theorem alertMaskWrite_sized {s : State} (src : Route) (v : Nat) (h : Sized s) : Sized (alertMaskWrite src v s) := by
  unfold alertMaskWrite
  repeat' with_reducible (first | assumption | apply lookAlert_sized | apply reportClamps_sized | apply odSet_sized)

theorem musterArmWrite_sized {s : State} (src : Route) (sub v : Nat) (h : Sized s) : Sized (musterArmWrite src sub v s) := by
  unfold musterArmWrite
  repeat' with_reducible (first | assumption | apply keepArm_sized)

theorem frozenWrite_sized {s : State} (src : Route) (index sub v kept : Nat) (h : Sized s) :
    Sized (frozenWrite src index sub v kept s) := by
  unfold frozenWrite
  repeat' with_reducible (first | assumption | apply Sized.ite | exact refuseRule_sized _ | apply keepScalar_sized | (intro _))

theorem toLock_sized {s : State} (clear : Bool) (p : PortN) (h : Sized s) : Sized (toLock clear p s) :=
  .of_frame (toLock_parts clear p (by decide) (Only.refl _ s)) h

theorem retrainWrite_sized {s : State} (src : Route) (p : PortN) (v : Nat) (h : Sized s) : Sized (retrainWrite src p v s) := by
  unfold retrainWrite
  repeat' with_reducible (first | assumption | apply Sized.ite | apply onlyOne_sized | apply toLock_sized | (intro _))

theorem nodeIdWrite_sized {s : State} (src : Route) (v : Nat) (h : Sized s) : Sized (nodeIdWrite src v s) := by
  unfold nodeIdWrite
  repeat' with_reducible (first | assumption | apply keepScalar_sized | refine Sized.can_upd ?_)

theorem clampDiscard_sized {s : State} (v : Nat) (h : Sized s) : Sized (clampDiscard v s) := ⟨h.abort⟩

theorem armSnapshot_sized {s : State} (h : Sized s) : Sized (armSnapshot s) := by
  unfold armSnapshot
  split
  · exact h
  · exact ⟨h.abort⟩

theorem snapshotTrigger_sized {s : State} (src : Route) (v : Nat) (h : Sized s) : Sized (snapshotTrigger src v s) := by
  unfold snapshotTrigger
  repeat' with_reducible (first | assumption | apply armSnapshot_sized | apply onlyOne_sized)

theorem storeResult_sized {s : State} (r : Nat) (h : Sized s) : Sized (storeResult r s) := ⟨h.abort⟩

theorem imageKept_abort (inB : Bool) (x : Option DictImage) (d : Dict) :
    (if inB then { d with imageB := x } else { d with imageA := x }).abort = d.abort := by
  cases inB <;> rfl

theorem dictionaryStore_sized {s : State} (src : Route) (v : Nat) (verified : Bool) (h : Sized s) :
    Sized (dictionaryStore src v verified s) := by
  unfold dictionaryStore
  split
  · exact storeResult_sized 2 (refuseRule_sized s)
  · dsimp only
    split
    · exact storeResult_sized 3 (refuseRule_sized s)
    · have hkept : Sized (onlyOne src 0x1F20 1 v s) := onlyOne_sized src _ _ v h
      refine .of_abort ?_ hkept
      exact imageKept_abort _ _ _

theorem writePort_sized {s : State} (src : Route) (p : PortN) (k sub v : Nat) (h : Sized s) : Sized (writePort src p k sub v s) := by
  unfold writePort
  repeat' with_reducible (first
      | assumption | apply Sized.ite | apply Sized.dite | apply roleWrite_sized | apply mediumWrite_sized | apply alignmentDone_sized
      | apply retrainWrite_sized | apply bitSlip_sized | (intro _))

theorem writeTopology_sized {s : State} (src : Route) (index sub v : Nat) (h : Sized s) : Sized (writeTopology src index sub v s) := by
  unfold writeTopology
  repeat' with_reducible (first
      | assumption | apply Sized.ite | apply Sized.dite | apply coordinateWrite_sized | apply coordinateCommit_sized
      | apply routeArmWrite_sized | apply saltWrite_sized | apply ngroupsWrite_sized | apply routeBankCopy_sized
      | apply routeEntryWrite_sized | apply thresholdWrite_sized | apply tenantShareWrite_sized | apply requestTimeoutWrite_sized
      | apply exactPoolWrite_sized | apply exactRegionWrite_sized | apply minWindowWrite_sized | apply directoryWrite_sized
      | apply recallWrite_sized | apply forwardTimeoutWrite_sized | apply windowEntryWrite_sized | apply creditWrite_sized | (intro _))

theorem writeTime_sized {s : State} (src : Route) (index sub v : Nat) (data : Bytes) (h : Sized s) :
    Sized (writeTime src index sub v data s) := by
  unfold writeTime
  repeat' with_reducible (first
      | assumption | apply Sized.ite | apply timeRoleWrite_sized | apply timeSourceWrite_sized | apply roundLengthWrite_sized
      | apply roundArmWrite_sized | apply isolationWrite_sized | apply calendarArm_sized | apply calendarBegin_sized
      | apply calendarData_sized | apply calendarSeal_sized | apply selectorWrite_sized | (intro _))

/-! ### The write of an entry of fixed size -/

/-- Where the entries of no fixed size that may end so stand: indices and sub-indices, first and last. -/
def blobAreas : List (Nat × Nat × Nat × Nat) :=
  [(0x1F30, 0x1F30, 1, 1), (0x5120, 0x515F, 1, 1), (0x5160, 0x516F, 1, 1), (0x6001, 0x6001, 0, 255), (0x6003, 0x6003, 0, 255),
    (0x6006, 0x6006, 0, 255), (0x6020, 0x6020, 0, 255), (0x7120, 0x7120, 8, 8)]

/-- A row of the dictionary lies beside an area. -/
def Entry.beside (e : Entry) (a : Nat × Nat × Nat × Nat) : Bool :=
  decide (e.index + (e.count - 1) * e.stride < a.1) || decide (a.2.1 < e.index) || decide (e.hi < a.2.2.1) || decide (a.2.2.2 < e.lo)

theorem sized_rows_beside : ∀ e ∈ entries, e.ty.size.isSome = true → e.clamp = .rule → ∀ a ∈ blobAreas, e.beside a = true := by
  decide +kernel

theorem Entry.index_le_of_holds {e : Entry} {index sub : Nat} (h : e.holds index sub = true) :
    e.index ≤ index ∧ index ≤ e.index + (e.count - 1) * e.stride ∧ e.lo ≤ sub ∧ sub ≤ e.hi := by
  unfold Entry.holds at h
  simp only [Bool.and_eq_true, decide_eq_true_eq] at h
  obtain ⟨⟨⟨⟨hindex, hmod⟩, hcount⟩, hlo⟩, hhi⟩ := h
  refine ⟨hindex, ?_, hlo, hhi⟩
  have hsteps : (index - e.index) / e.stride * e.stride = index - e.index := Nat.div_mul_cancel (Nat.dvd_of_mod_eq_zero hmod)
  have hle : (index - e.index) / e.stride * e.stride ≤ (e.count - 1) * e.stride := Nat.mul_le_mul_right _ (by omega)
  omega

/-- An entry of fixed size with a rule of its own stands in none of those areas. -/
theorem not_in_blobAreas {index sub : Nat} {e : Entry} {n : Nat} (he : findEntry index sub = some e) (hsize : e.ty.size = some n)
    (hrule : e.clamp = .rule) {a : Nat × Nat × Nat × Nat} (ha : a ∈ blobAreas) :
    ¬(a.1 ≤ index ∧ index ≤ a.2.1 ∧ a.2.2.1 ≤ sub ∧ sub ≤ a.2.2.2) := by
  have hbeside := sized_rows_beside e (List.mem_of_find?_eq_some he) (by rw [hsize]; rfl) hrule a ha
  have hholds : e.holds index sub = true := List.find?_some (p := fun x : Entry => x.holds index sub) he
  obtain ⟨hfirst, hlast, hlo, hhi⟩ := Entry.index_le_of_holds hholds
  unfold Entry.beside at hbeside
  simp only [Bool.or_eq_true, decide_eq_true_eq] at hbeside
  generalize e.index + (e.count - 1) * e.stride = last at hbeside hlast
  omega

theorem writeManagement_sized {s : State} {index sub : Nat} (src : Route) (v : Nat) (data : Bytes) (hset : ¬(index = 0x1F30 ∧ sub = 1))
    (h : Sized s) : Sized (writeManagement src index sub v data s) := by
  unfold writeManagement
  exact .ite (fun _ => .ite (fun _ => nodeIdWrite_sized src v h) (fun _ => eventTimeWrite_sized src sub v h))
    (fun _ => .ite (fun _ => clampDiscard_sized v h) (fun _ => .ite (fun _ => eventAcknowledge_sized v h)
      (fun _ => .ite (fun hs => absurd hs hset) (fun _ => .ite (fun _ => snapshotTrigger_sized src v h) (fun _ => h)))))

theorem writeCompute_sized {s : State} {index sub : Nat} (src : Route) (v : Nat) (data : Bytes)
    (hblob : ¬(0x5120 ≤ index ∧ index < 0x5170 ∧ sub = 1)) (h : Sized s) : Sized (writeCompute src index sub v data s) := by
  unfold writeCompute
  repeat'
    with_reducible (first
      | assumption | apply Sized.ite | apply kernelPoolWrite_sized | apply tenancyWrite_sized | apply kernelLoad_sized | apply kernelUnload_sized
      | apply reservationWrite_sized | apply gridShapeWrite_sized | apply gridMapWrite_sized | apply windowWrite_sized | apply shardWrite_sized
      | apply invalidateAll_sized | apply xlatSelectorWrite_sized | (intro _))
  · exact absurd ⟨by omega, by omega, by assumption⟩ hblob
  · exact absurd ⟨by omega, by omega, by assumption⟩ hblob

theorem writeSecurity_sized {s : State} {index sub : Nat} (src : Route) (v : Nat) (data : Bytes)
    (hblob : ¬(index = 0x6001 ∨ index = 0x6003 ∨ index = 0x6020)) (himage : index ≠ 0x6006) (hlist : ¬(index = 0x7120 ∧ sub = 8))
    (h : Sized s) : Sized (writeSecurity src index sub v data s) := by
  unfold writeSecurity
  exact .ite (fun hb => absurd hb hblob) (fun _ => .ite (fun _ => bundleBind_sized src v) (fun _ => .ite (fun hi => absurd hi himage)
    (fun _ => .ite (fun _ => wayWrite_sized src (sub - 1) v h) (fun _ => .ite (fun _ => resetWrite_sized src sub v)
      (fun _ => .ite (fun hi => .ite (fun hs => absurd ⟨hi, hs⟩ hlist) (fun _ => musterArmWrite_sized src sub v h))
        (fun _ => .ite (fun _ => alertMaskWrite_sized src v h) (fun _ => h)))))))

theorem storeAction_sized {s : State} (src : Route) (v : Nat) : Sized (storeAction src v s) := by
  unfold storeAction
  exact .ite (fun _ => storeResult_sized 2 (refuseRule_sized s)) (fun _ => ⟨(by decide : 0 ≠ 0x06070010)⟩)

/-- The operation of an entry of fixed size does not find its data of a wrong length. -/
theorem writeEntry_sized {s : State} {index sub : Nat} (hsub : sub ≤ 255) {e : Entry} {n : Nat} (he : findEntry index sub = some e)
    (hsize : e.ty.size = some n) (src : Route) (data : Bytes) (h : Sized s) : Sized (writeEntry src e index sub data s) := by
  have hbeside {a : Nat × Nat × Nat × Nat} (hrule : e.clamp = .rule) (ha : a ∈ blobAreas) := not_in_blobAreas he hsize hrule ha
  unfold writeEntry
  dsimp only
  split
  · next hrule =>
    have hset := hbeside hrule (a := (0x1F30, 0x1F30, 1, 1)) (by decide)
    have hdescriptor := hbeside hrule (a := (0x5120, 0x515F, 1, 1)) (by decide)
    have hrecord := hbeside hrule (a := (0x5160, 0x516F, 1, 1)) (by decide)
    have hchain := hbeside hrule (a := (0x6001, 0x6001, 0, 255)) (by decide)
    have hkeys := hbeside hrule (a := (0x6003, 0x6003, 0, 255)) (by decide)
    have himage := hbeside hrule (a := (0x6006, 0x6006, 0, 255)) (by decide)
    have hallowed := hbeside hrule (a := (0x6020, 0x6020, 0, 255)) (by decide)
    have hlist := hbeside hrule (a := (0x7120, 0x7120, 8, 8)) (by decide)
    dsimp only at hset hdescriptor hrecord hchain hkeys himage hallowed hlist
    refine .ite (fun _ => writeManagement_sized src _ data (by omega) h) (fun _ => .ite (fun _ => ?_) (fun _ => .ite (fun _ => ?_)
      (fun _ => .ite (fun _ => ?_) (fun _ => .ite (fun _ => writeCompute_sized src _ data (by omega) h)
        (fun _ => writeSecurity_sized src _ data (by omega) (by omega) (by omega) h)))))
    · exact .dite (fun hp => writePort_sized src _ _ sub _ h) (fun _ => h)
    · exact writeTopology_sized src index sub _ h
    · exact writeTime_sized src index sub _ data h
  · rw [hsize]
    exact .ite (fun _ => frozenWrite_sized src index sub _ _ h) (fun _ => keepScalar_sized src index sub _ _ _ h)

/-- What follows the response leaves its outcome. -/
theorem afterResponse_sized {s : State} (h : Sized s) : Sized (afterResponse s) := by
  unfold afterResponse bootUp
  exact .ite (fun _ => .ite (fun _ => ⟨h.abort⟩) (fun _ => emit_sized _ (bump_sized _ _ ⟨h.abort⟩))) (fun _ => h)

/-- Settles O52: the check of a write finds every other length, and no operation of an entry of fixed size does. -/
theorem aWriteOfAnotherLengthHasNoEffect : Obligations.AWriteOfAnotherLengthHasNoEffect := by
  unfold Obligations.AWriteOfAnotherLengthHasNoEffect
  refine fun src index sub data s e he n hsize hro hrws hcan => ⟨fun hlength => ?other, fun hlength => ?same⟩
  case other =>
    by_cases hstore : index.toNat = 0x1F20 ∧ (sub.toNat = 1 ∨ sub.toNat = 2)
    · rw [hstore.1, findEntry_storeCommand hstore.2] at he
      obtain rfl := Option.some.inj he
      have hone : data.length ≠ 1 := fun h => hlength (h.trans (Option.some.inj hsize))
      rw [exec_entryWrite, dictWrite, if_pos hstore, if_pos hone]
      exact congrArg Host.Outcome.next (afterResponse_of_not_renamed hcan)
    · refine exec_entryWrite_stopped hstore ?_ hcan
      have hlong : tooLong e data.length = true := by
        rw [tooLong_of_size hsize]
        exact bne_iff_ne.mpr hlength
      rw [checkWrite_of_rights he hro hrws, if_pos hlong]
  case same =>
    refine ⟨_, exec_entryWrite src index sub data s, (afterResponse_sized ?_).abort⟩
    by_cases hstore : index.toNat = 0x1F20 ∧ (sub.toNat = 1 ∨ sub.toNat = 2)
    · rw [hstore.1, findEntry_storeCommand hstore.2] at he
      obtain rfl := Option.some.inj he
      have hone : ¬data.length ≠ 1 := fun h => h (hlength.trans (Option.some.inj hsize).symm)
      rw [dictWrite, if_pos hstore, if_neg hone]
      exact .ite (fun _ => dictionaryStore_sized src _ true (beginOp_sized s)) (fun _ => storeAction_sized src _)
    · have hright : ¬tooLong e data.length = true := by
        rw [tooLong_of_size hsize, hlength]
        simp
      rw [dictWrite_eq_writeOne hstore, writeOne, checkWrite_of_rights he hro hrws, if_neg hright]
      exact writeEntry_sized (by omega) he hsize src data (beginOp_sized s)

end Sys2Proof.Machine
end
